-- ==== Sys2Proof/Word.lean ====
section
/-! DEFINITION. The word types of the SN4720 model and their plainest arithmetic. -/

namespace Sys2Proof

/-- One byte of memory, of a message or of flash. -/
abbrev Byte := BitVec 8

/-- One 32-bit word of the control window. -/
abbrev Word := BitVec 32

/-- A sparse table: keys in rising order, one entry a key. -/
abbrev Tab (α : Type) := List (Nat × α)

/-- Bit `b` of a natural number. -/
def bitOf (v b : Nat) : Bool := v.testBit b

/-- Bits `[hi:lo]` of a natural number. -/
def bitsOf (v hi lo : Nat) : Nat := (v >>> lo) % 2 ^ (hi + 1 - lo)

/-- Division rounding up; zero divisor gives zero. -/
def cdiv (a b : Nat) : Nat := if b = 0 then 0 else (a + b - 1) / b

/-- One bit as a number. -/
def b2n (b : Bool) : Nat := if b then 1 else 0

end Sys2Proof
end

