-- ==== Sys2Proof/Config.lean ====
section
/-! DEFINITION. What one SN4720 fixes for good, and the free values: constants with no body, so that no
proof can see what they are. Every free value is named in the assumption log. -/

namespace Sys2Proof.Config

/-- FREE VALUE. Which of several equally allowed things the part picks (an unused slot, an unused
descriptor), and any number the spec leaves open. Applied to a counter that `State` holds. -/
opaque freeNat : Nat → Nat

/-- FREE VALUE. AES-256-XTS under a key and a tweak on data units of `n` bytes (R244, R248, R352): the spec names the cipher
and does not define it; that decryption undoes encryption is all that is said of it. -/
opaque xts : Nat → Nat → (n : Nat) → Equiv.Perm (BitVec (8 * n))

/-- FREE VALUE. AES-256-GCM under a key, a nonce and additional data: the ciphertext of `n` bytes, and the tag over it
(R258). -/
opaque gcm : Nat → List Byte → List Byte → (n : Nat) → Equiv.Perm (BitVec (8 * n))
opaque gcmTag : Nat → List Byte → List Byte → List Byte → BitVec 128

/-- FREE VALUE. The frame check sequence of IEEE 802.3 over the octets of a frame (R253, R256): the spec names the standard. -/
opaque fcs : List Byte → BitVec 32

/-- FREE VALUE. Byte `i` of a signature by the alias key over a transcript (R298, R299). -/
opaque signByte : List Byte → List Byte → Nat → Byte

/-- FREE VALUE. Byte `i` of certificate `k` of slot 0 (R300) for a running image digest. -/
opaque certByte : Nat → List Byte → Nat → Byte

/-- FREE VALUE. The lengths of the certificates of slot 0 (R300). -/
opaque certLen : Nat → Nat

/-- FREE VALUE. The SHA-384 of the boot ROM of die H (R301, measurement 1). -/
opaque romDigest : List Byte

/-- FREE VALUE. Entry `k` of the key table in the boot ROM of die H (R304, check 2). -/
opaque romKey : Nat → List Byte

/-- FREE VALUE. What VU gives for an FP32 step to whose operands the spec states no result (1/√ of a
value that is not positive, R82): the operands as numbers. -/
opaque openF32 : Int → Nat → Nat

/-- FREE VALUE. Token id at a position of the prompt of a tenant's request as its keeper holds it (R169): no message
of the spec brings it there. -/
opaque promptToken : Nat → Nat → Nat → Nat

/-- FREE VALUE. What opening a key blob that arrives in a ring entry's body gives (R292): nothing where its tag fails, else
its plaintext key. The spec names the primitives and does not define them. -/
opaque openBlob : List Byte → Option (List Byte)

/-- 64 KiB, the size of an extent (R112). -/
def extentBytes : Nat := 65536

/-- Slots of the sequence table (R140). -/
def seqSlots : Nat := 16384

/-- Page descriptors (R116). -/
def descCount : Nat := 33554432

/-- All ones of 32 bits: "no sequence", "no node", "none". -/
def none32 : Nat := 0xFFFFFFFF

/-- All ones of 48 bits: "no step". -/
def none48 : Nat := 2 ^ 48 - 1

/-- Device physical address of HDM (R209, R359). -/
def hdmBase : Nat := 0x001E00000000

/-- Size of HDM (R209). -/
def hdmSize : Nat := 0x200000000

/-- First address of the CXL tier (R207). -/
def cxlBase : Nat := 0x100000000000

/-- Source number of host ring `r` (R325). -/
def ringSource (r : Nat) : Nat := 0xFFFFFF00 + r

end Sys2Proof.Config
end

