-- ==== Sys2Proof/Syntax.lean ====
section
/-! DEFINITION. The commands of the block: one constructor of `Instr` per row of the spec's table of
operations and events, with its operands. -/

namespace Sys2Proof

/-- A byte placed at an address from outside (host or another agent) before a command is taken. -/
abbrev Placed := List (Nat × Byte)

/-- What an Announce message says of a grandmaster (R48); the fields the best master clock
algorithm compares. -/
structure Announce where
  domain : Nat
  priority1 : Nat
  clockClass : Nat
  accuracy : Nat
  variance : Nat
  priority2 : Nat
  identity : Nat
  steps : Nat
  deriving DecidableEq, Repr

/-- A complete module message as it stands in an intake slot (R262, R263): who sent it, under which
dike, on which port, and its bytes. -/
structure MsgIn where
  port : Nat
  source : Nat
  dike : Nat
  bytes : List Byte
  deriving DecidableEq, Repr

/-- A Nodor frame as received (R256), with what the MAC and the AES engine found of it: codewords that the FEC corrected,
whether the FEC and the FCS left it whole, whether its tag verifies. -/
structure Packet where
  port : Nat
  frameLen : Nat
  fecFixed : Nat
  fecOk : Bool
  fcsOk : Bool
  etherType : Nat
  vlan : Nat
  tagOk : Bool
  version : Nat
  opcode : Nat
  flags : Nat
  dike : Nat
  keyIndex : Nat
  cls : Nat
  source : Nat
  dest : Nat
  window : Nat
  gen : Nat
  key : Nat
  winOffset : Nat
  msgSeq : Nat
  msgLen : Nat
  index : Nat
  count : Nat
  pktOffset : Nat
  rsvdZero : Bool
  payload : List Byte
  deriving DecidableEq, Repr

/-- A hidden state or an output of one layer for consecutive rows of one sequence (R13, R24, R87).
The wire layout of this message is not in the spec; its contents are. -/
structure Hidden where
  port : Nat
  source : Nat
  sseq : Nat
  handle : Nat
  epoch : Nat
  compEpoch : Nat
  context : Nat
  layer : Nat
  step : Nat
  firstPos : Nat
  rows : List (List Nat)
  /-- Cause code (CMP_DAMAGE_LAST) of the first test that a block of the message fails as XP checks it (R241, R245), 0 where all
  pass. -/
  damage : Nat := 0
  deriving DecidableEq, Repr

/-- The sampling parameters of a request (R20, R141, R146). -/
structure Sampling where
  temperature : Nat
  topP : Nat
  topK : Nat
  seed : Nat
  deriving DecidableEq, Repr

/-- A gateway's REQUEST (stage 1 of a request's life): its fields; the spec gives no byte layout. -/
structure Request where
  port : Nat
  gateway : Nat
  sseq : Nat
  tenant : Nat
  requestId : Nat
  context : Nat
  adapter : Nat
  cls : Nat
  publish : Bool
  parent : Option Nat
  lP : Nat
  maxNew : Nat
  deadline : Nat
  sampling : Sampling
  tokens : List Nat
  deriving DecidableEq, Repr

/-- A CANCEL or PAUSE: tenant and request id (R160, R163), with its ordering key (R143). -/
structure Named where
  port : Nat
  source : Nat
  sseq : Nat
  tenant : Nat
  requestId : Nat
  deriving DecidableEq, Repr

/-- The head of a host-ring command (R362): the ring it was taken from, its flags, tenant, sub-queue,
tag and body. `placed` holds the bytes put into HDM or tier 2 from outside before the taking. -/
structure CmdHead where
  ring : Nat
  silent : Bool
  notify : Bool
  tenant : Nat
  subq : Nat
  tag : Nat
  bodyAddr : Nat
  bodyLen : Nat
  placed : Placed
  deriving DecidableEq, Repr

/-- Operands of LEASE (R365). -/
structure LeaseOps where
  cls : Nat
  orphan : Nat
  share : Nat
  seqQuota : Nat
  pageQuota : Nat
  ckpt : Nat
  models : Nat
  deriving DecidableEq, Repr

/-- Operands of OPEN_WINDOW and REOPEN_WINDOW (R365). -/
structure WinOps where
  key : Nat
  desc : Nat
  descGen : Nat
  rights : Nat
  ring : Nat
  base : Nat
  length : Nat
  deriving DecidableEq, Repr

/-- Operands of a host-ring WRITE, READ or ATOMIC (R365). -/
structure RemoteOps where
  dest : Nat
  window : Nat
  gen : Nat
  key : Nat
  winOffset : Nat
  op : Nat
  operand : Nat
  compare : Nat
  deriving DecidableEq, Repr

/-- The host-ring commands by opcode, with their operands (R365). -/
inductive RingOp where
  | lease (o : LeaseOps)
  | compose
  | installKey (opened : Option (List Byte))
  | registerContext
  | retireContext (context : Nat)
  | registerAdapter
  | withdrawAdapter (context : Nat)
  | installTable (entry currentStep : Nat)
  | buildTable (layout source length : Nat)
  | allocObject (extents alloc : Nat) (pin durable : Bool)
  | freeObject (index gen : Nat)
  | openWindow (o : WinOps)
  | reopenWindow (window : Nat) (o : WinOps)
  | revokeWindow (window : Nat)
  | setQueue (queue : Nat) (enable : Bool) (quantum rate : Nat)
  | setPolicer (dike : Nat) (enable : Bool) (rate burst : Nat)
  | write (o : RemoteOps)
  | read (o : RemoteOps)
  | atomic (o : RemoteOps)
  | stageImage
  | switchImage
  | commitSvn
  | drainDie (die : Nat) (force : Bool)
  | readmitDie (die : Nat)
  | rehome (requestId : Nat)
  deriving DecidableEq, Repr

/-- Where an uncorrectable memory error falls (R227). -/
inductive UeWhere where
  | systemArea
  | weightCache (context layer : Nat)
  | adapter (version : Nat)
  | cleanCopy (desc : Nat)
  | page (desc : Nat)
  | history (slot copy : Nat)
  | objectExtent (desc extent : Nat)
  | sealWrite (desc : Nat)
  deriving DecidableEq, Repr

/-- The sensors of the management port (R413). -/
structure Sensors where
  dieTemps : List Int
  rails : List Nat
  volts : Nat
  amps : Nat
  watts : Nat
  deriving DecidableEq, Repr

/-- The sensor values of a mismatch record (R343). -/
structure MismatchSensors where
  tempPrim : Int
  tempShadow : Int
  railPrim : Nat
  railShadow : Nat
  inputV : Nat
  inputW : Nat
  actPrim : Nat
  actShadow : Nat
  deriving DecidableEq, Repr

/-- What an item used, as executed (R309). -/
structure ItemUse where
  cycles : Nat
  mxIssue : Nat
  apIssue : Nat
  gddrBytes : Nat
  t2Bytes : Nat
  deriving DecidableEq, Repr

/-- What the boot ROM meets (R391): the random nonce, whether the flash answers, whether the image's
signature verifies. -/
structure BootOps where
  nonce : List Byte
  flashOk : Bool
  sigOk : Bool
  deriving DecidableEq, Repr

/-- The two SPDM transports (R298). -/
inductive SpdmPort where
  | doe0
  | doe1
  | mctp
  deriving DecidableEq, Repr

/-- THE COMMANDS. One constructor per row of the spec's table, in the table's order. -/
inductive Instr where
  | sync (at_ gm : Nat) (offset : Int)
  | announce (a : Announce)
  | syncAbsent (at_ : Nat)
  | holdoverExpired (at_ : Nat)
  | snap
  | stepBoundary (workNs : Nat)
  | minuteBoundary
  | tallyWriteDeadline
  | fineTick
  | coarseTick
  | pacerRelease (queue : Nat)
  | slotOpen (slot : Nat)
  | prefetchIssue (slot : Nat)
  | prefetchComplete (slot : Nat)
  | prefetchDeadline (slot : Nat)
  | slackExhausted (slot remaining : Nat)
  | hiddenState (offsetNs : Nat) (h : Hidden)
  | attentionOutput (h : Hidden)
  | itemComplete (item : Nat) (u : ItemUse)
  | itemOverrun (die phys : Nat)
  | shadowComplete (item : Nat) (prim shadow : List Byte) (sensors : MismatchSensors)
  | refereeComplete (mismatch : Nat) (result : Option (List Byte))
  | sealComplete (desc : Nat)
  | contextFillComplete (context : Nat)
  | promotionComplete (desc : Nat)
  | writebackExtent (desc extent : Nat)
  | request (r : Request)
  | admitQuery (m : MsgIn)
  | verdict (m : MsgIn)
  | cancel (c : Named)
  | pause (c : Named)
  | grant (m : MsgIn)
  | grantAck (m : MsgIn)
  | statePush (m : MsgIn)
  | release (m : MsgIn)
  | pulse (m : MsgIn)
  | tokenNote (m : MsgIn)
  | noteAck (m : MsgIn)
  | reject (m : MsgIn)
  | recall (m : MsgIn)
  | historyQuery (m : MsgIn)
  | reissueAckTimeout (slot : Nat)
  | rehomingTimeout (slot : Nat)
  | rehomeWaitExpired (slot : Nat)
  | ringBlock (m : MsgIn)
  | probe (m : MsgIn)
  | foldRecord (m : MsgIn)
  | ringSilenceTimeout (slot member : Nat)
  | fragmentPut (m : MsgIn)
  | fragmentAck (m : MsgIn)
  | fragmentGet (m : MsgIn)
  | fragmentData (m : MsgIn)
  | fragmentFree (m : MsgIn)
  | fragmentLost (m : MsgIn)
  | fragmentPutTimeout (desc frag : Nat)
  | rebuildTimeout (desc : Nat)
  | nodorSend (at_ : Nat) (p : Packet)
  | nodorWrite (at_ : Nat) (p : Packet)
  | nodorRead (at_ : Nat) (p : Packet)
  | nodorReadData (at_ : Nat) (p : Packet)
  | nodorAtomic (at_ : Nat) (p : Packet)
  | nodorAtomicData (at_ : Nat) (p : Packet)
  | nodorAck (at_ : Nat) (p : Packet)
  | nodorNack (at_ : Nat) (p : Packet)
  | partialAckTimer (source msgSeq : Nat)
  | resendTimeout (at_ dest msgSeq : Nat)
  | messageAbandonTimer (dest msgSeq : Nat)
  | transmitOpportunity (at_ port : Nat)
  | ethernetLinkChange (port : Nat) (up : Bool)
  | revocationComplete (window : Nat)
  | reopenDelayExpired (at_ window : Nat)
  | sqDoorbell (at_ ring tail : Nat) (placed : Placed)
  | cqHeadWrite (ring head : Nat)
  | ringCtrlWrite (ring : Nat) (value : Word)
  | lease (h : CmdHead) (o : LeaseOps)
  | compose (h : CmdHead)
  | installKey (h : CmdHead) (opened : Option (List Byte))
  | registerContext (h : CmdHead)
  | retireContext (h : CmdHead) (context : Nat)
  | registerAdapter (h : CmdHead)
  | withdrawAdapter (h : CmdHead) (context : Nat)
  | installTable (h : CmdHead) (entry currentStep : Nat)
  | buildTable (h : CmdHead) (layout source length : Nat)
  | buildTableComplete
  | allocObject (h : CmdHead) (extents alloc : Nat) (pin durable : Bool)
  | freeObject (h : CmdHead) (index gen : Nat)
  | openWindow (at_ : Nat) (h : CmdHead) (o : WinOps)
  | reopenWindow (at_ : Nat) (h : CmdHead) (window : Nat) (o : WinOps)
  | revokeWindow (at_ : Nat) (h : CmdHead) (window : Nat)
  | setQueue (at_ : Nat) (h : CmdHead) (queue : Nat) (enable : Bool) (quantum rate : Nat)
  | setPolicer (at_ : Nat) (h : CmdHead) (dike : Nat) (enable : Bool) (rate burst : Nat)
  | write (at_ : Nat) (h : CmdHead) (o : RemoteOps)
  | read (at_ : Nat) (h : CmdHead) (o : RemoteOps)
  | atomic (at_ : Nat) (h : CmdHead) (o : RemoteOps)
  | stageImage (at_ : Nat) (h : CmdHead)
  | imageVerifyComplete (sigOk : Bool)
  | switchImage (h : CmdHead)
  | firmwareSwitchComplete
  | flashWriteComplete (ok : Bool)
  | stagedImageTimeout
  | commitSvn (h : CmdHead)
  | drainDie (h : CmdHead) (die : Nat) (force : Bool)
  | readmitDie (h : CmdHead) (die : Nat)
  | selfCheckComplete (die : Nat) (failed : List Nat)
  | rehome (h : CmdHead) (requestId : Nat)
  | inHeadWrite (offsetNs channel head : Nat) (placed : Placed)
  | outTailWrite (channel tail : Nat)
  | statusAck (addr : Nat) (value : Word)
  | aliasBitWrite (addr : Nat) (value : Word)
  | unmappedAccess (addr : Nat)
  | registerWrite (addr : Nat) (value : Word) (byteEnables : Nat)
  | pgmInspectLatch (value : Word)
  | sqsInspectLatch (value : Word)
  | slcInspectLatch (value : Word)
  | tirSegLatch (value : Word)
  | cmpTableLatch (value : Word)
  | fabPortLatch (value : Word)
  | fabWinLatch (value : Word)
  | weiQLatch (value : Word)
  | weiPolLatch (at_ : Nat) (value : Word)
  | secKeyLatch (value : Word)
  | hltCoreLatch (value : Word)
  | hltAcctLatch (value : Word)
  | stwReportLatch (value : Word)
  | journalTailWrite (value : Word)
  | journalHeadWrite (value : Word) (placed : Placed)
  | ckptTailWrite (value : Word)
  | replayStepComplete
  | charterWrite (placed : Placed)
  | charterWriteComplete (ok : Bool)
  | recoveryPush (length : Nat) (chunk : List Byte)
  | recoveryFinish (sigOk : Bool)
  | recoveryAbort
  | pwrGoodRise
  | powerStepInterval
  | pwrGoodFall (at_ lowUs : Nat)
  | brownWarnTimeout
  | inputLow (at_ volts10mV bank : Nat)
  | inputRestored (at_ volts10mV bank : Nat)
  | overvoltage (at_ volts10mV : Nat)
  | bankReserveReached (at_ : Nat)
  | thermalHigh (at_ die : Nat)
  | thermalTrip (at_ die : Nat)
  | powerOver (at_ watts : Nat)
  | perstAssert (port : Nat)
  | cxlLinkChange (port rate width : Nat)
  | ideIntegrityFailure (port : Nat)
  | d2dLinkFailure (link : Nat) (down : Bool)
  | gddr7Uncorrectable (w : UeWhere)
  | gddr7Corrected
  | t2LineTimeout (segment : Nat) (failedAgain : Bool) (w : UeWhere)
  | coreMemoryCe (die phys : Nat)
  | coreMemoryUe (die phys : Nat)
  | hourTick (failed : List (Nat × Nat))
  | bootRomStart (o : BootOps)
  | imageStartTimeout
  | stewardStart (links : List Nat) (failed : List (Nat × Nat))
  | serviceReached (ms : Nat) (portsUp : Nat)
  | getVersion (t : SpdmPort)
  | getCapabilities (t : SpdmPort)
  | negotiateAlgorithms (t : SpdmPort) (version : Nat) (base meas asym : List Nat)
  | getDigests (t : SpdmPort)
  | getCertificate (t : SpdmPort) (slot offset length : Nat)
  | challenge (t : SpdmPort) (slot : Nat) (nonce : List Byte)
  | getMeasurements (t : SpdmPort) (index : Nat) (signed : Bool) (nonce : List Byte)
  | spdmUnsupportedRequest (t : SpdmPort) (code : Nat)
  | keyProg (port : Nat) (streamConfigured : Bool) (blob : List Byte) (opened : Option (List Byte))
  | getSensors (v : Sensors)
  | getIdentity
  | getPowerLog
  | tallySetWritten
  | imageSwapComplete (cluster : Nat)
  | laneRepair (link : Nat)
  | inputReconnect (at_ : Nat)
  | dynamicAddressAssignment (address : Nat)
  | thermalExcursionEnd (die : Nat)
  deriving DecidableEq, Repr

end Sys2Proof
end

