-- ==== Sys2Proof/Machine/Tab.lean ====
section
/-! DEFINITION. Sparse tables: sorted lists of key and value, and the list helpers the machine uses. -/

namespace Sys2Proof.Tab

/-- The entry under key `k`. -/
def look {α : Type} (k : Nat) : Tab α → Option α
  | [] => none
  | (i, a) :: t => if i = k then some a else look k t

/-- The entry under key `k`, or `d`. -/
def getD {α : Type} (t : Tab α) (k : Nat) (d : α) : α := (look k t).getD d

/-- Put `a` under key `k`, keeping the keys rising. -/
def put {α : Type} (k : Nat) (a : α) : Tab α → Tab α
  | [] => [(k, a)]
  | (i, b) :: t =>
    if k < i then (k, a) :: (i, b) :: t
    else if k = i then (k, a) :: t
    else (i, b) :: put k a t

/-- Take away the entry under key `k`. -/
def del {α : Type} (k : Nat) (t : Tab α) : Tab α := t.filter (fun e => e.1 ≠ k)

/-- Change the entry under key `k`, where there is one. -/
def upd {α : Type} (k : Nat) (f : α → α) (t : Tab α) : Tab α :=
  t.map (fun e => if e.1 = k then (e.1, f e.2) else e)

/-- The keys. -/
def keys {α : Type} (t : Tab α) : List Nat := t.map (·.1)

/-- The values. -/
def vals {α : Type} (t : Tab α) : List α := t.map (·.2)

/-- Whether key `k` has an entry. -/
def has {α : Type} (k : Nat) (t : Tab α) : Bool := (look k t).isSome

/-- The entries with keys from `k` on, `n` keys far. -/
def part {α : Type} (k n : Nat) (t : Tab α) : Tab α := t.filter (fun e => decide (k ≤ e.1) && decide (e.1 < k + n))

/-- Put a run of values under the keys from `k` on. -/
def putRun {α : Type} (k : Nat) (l : List α) (t : Tab α) : Tab α :=
  t.filter (fun e => decide (e.1 < k)) ++ (List.range' k l.length).zip l ++
    t.filter (fun e => decide (k + l.length ≤ e.1))

/-- Keys strictly rise. -/
def Rising {α : Type} (t : Tab α) : Prop := t.Pairwise (fun a b => a.1 < b.1)

end Sys2Proof.Tab

namespace Sys2Proof

/-- Insertion into a list sorted by `le`, after its equals. -/
def insertBy {α : Type} (le : α → α → Bool) (a : α) : List α → List α
  | [] => [a]
  | b :: t => if le b a then b :: insertBy le a t else a :: b :: t

/-- Stable sort by insertion. -/
def sortBy {α : Type} (le : α → α → Bool) (l : List α) : List α :=
  l.foldl (fun acc a => insertBy le a acc) []

/-- Lexicographic order on lists of numbers, at most. -/
def lexLe : List Nat → List Nat → Bool
  | [], _ => true
  | _ :: _, [] => false
  | a :: s, b :: t => if a < b then true else if a = b then lexLe s t else false

/-- The largest of a list, 0 for none. -/
def maxOf (l : List Nat) : Nat := l.foldl max 0

/-- The least of a list, if any. -/
def minOf : List Nat → Option Nat
  | [] => none
  | a :: t => some (t.foldl min a)

/-- The first number at or above `lo`, below `lo + fuel`, for which `p` holds. -/
def firstFrom (p : Nat → Bool) : Nat → Nat → Option Nat
  | _, 0 => none
  | lo, fuel + 1 => if p lo then some lo else firstFrom p (lo + 1) fuel

/-- Cut a list into pieces of `n` (the last may be shorter); `fuel` bounds the pieces. -/
def chunksGo {α : Type} (n : Nat) : Nat → List α → List (List α)
  | 0, _ => []
  | fuel + 1, l => if l.isEmpty then [] else l.take n :: chunksGo n fuel (l.drop n)

/-- Cut a list into pieces of `n`. -/
def chunks {α : Type} (n : Nat) (l : List α) : List (List α) := chunksGo n l.length l

/-- The distinct members of a list, first occurrences kept. -/
def distinct (l : List Nat) : List Nat :=
  l.foldl (fun acc a => if acc.contains a then acc else acc ++ [a]) []

/-- Replace member `i` of a list. -/
def setAt {α : Type} (l : List α) (i : Nat) (a : α) : List α := l.set i a

/-- A list of given length from a rule. -/
def tabulate {α : Type} (n : Nat) (f : Nat → α) : List α := (List.range n).map f

end Sys2Proof
end

