-- ==== Sys2Proof/Machine/State.lean ====
section
/-! DEFINITION. Everything one SN4720 holds: one structure per block of the part, the queue of waiting
commands, the state after reset, and the reasons a step may stop. Every default below is the field's value
at reset. Registers that are only a view of a field have no field of their own (Machine/Regs.lean). -/

namespace Sys2Proof.Machine

/-- Registers, status words, counters and pins held by their word address (block × 0x10_0000 + offset). -/
abbrev Addr := Nat

/-- One SQ status word (R372, R373). -/
structure SqWord where
  /-- The bits set in SEQ mode, by place [23:0]. -/
  bits : Nat := 0
  /-- EVSEQ. -/
  evseq : Nat := 0
  /-- LEVEL mode: for each bit that reads 1, the boundaries still to pass until it reads 0. -/
  ages : List (Nat × Nat) := []
  deriving DecidableEq, Repr

/-- One MSI-X vector (R374): when it last sent, whether a message waits out its microsecond, messages sent. -/
structure MsixVec where
  last : Option Nat := none
  held : Bool := false
  sent : Nat := 0
  deriving DecidableEq, Repr

/-! ## Time (TMU) -/

/-- The time states (R52). -/
inductive TimeState where
  | freeRun
  | acquiring
  | locked
  | holdover
  | lost
  deriving DecidableEq, Repr

/-- Code of a time state (R52). -/
def TimeState.code : TimeState → Nat
  | .freeRun => 0
  | .acquiring => 1
  | .locked => 2
  | .holdover => 3
  | .lost => 4

/-- One tide table entry (R60), offsets in ns from the boundary. -/
structure TideEntry where
  slot : Nat
  context : Nat
  layer : Nat
  opens : Nat
  cutoff : Nat
  close : Nat
  pfIssue : Nat
  pfDeadline : Nat
  deriving DecidableEq, Repr

/-- Time, the step grid and the tide table (R48 to R65). -/
structure Tmu where
  /-- The counter, in ns (R50). -/
  now : Nat := 0
  state : TimeState := .freeRun
  /-- Consecutive valid Syncs within 250 ns while ACQUIRING (R52). -/
  good : Nat := 0
  /-- Instant of the latest valid Sync or counter step (R52). -/
  lastSync : Nat := 0
  /-- Instant of entry into HOLDOVER. -/
  holdoverAt : Nat := 0
  /-- Measured offset at the last valid Sync (TMU_OFFSET). -/
  offset : Int := 0
  /-- The same offset as measured, not cut to the register's range: what a step of the counter takes (R50, R56). -/
  measured : Int := 0
  /-- Parts per million of slew in force: toward the grandmaster, 0 within 250 ns (R50). -/
  slewPpm : Int := 0
  /-- TIME_STEP_REQUIRED has been raised in this episode (R56). -/
  stepReq : Bool := false
  /-- The grandmaster followed, and what its Announce said (R48). -/
  gm : Option Nat := none
  gmData : Option Announce := none
  /-- The grid has run (TMU_GRID.GRID_RUN). -/
  gridRun : Bool := false
  /-- The latch of TMU_TIME_SNAP (R51). -/
  snapNow : Nat := 0
  snapState : Nat := 0
  /-- STEP_PERIOD in force in µs and GRID_EPOCH in seconds (R57). -/
  period : Nat := 25000
  epoch : Nat := 0
  /-- Latest boundary whose work was done, with the instant it opened. -/
  boundary : Option Nat := none
  openedAt : Nat := 0
  /-- The time state and the brown-out pin sampled at that boundary (R54, R144). -/
  sampled : TimeState := .freeRun
  sampledBrown : Bool := false
  /-- The two tide banks and the one in force (R60, TMU_TIDE). -/
  bank0 : List TideEntry := []
  bank1 : List TideEntry := []
  bank : Nat := 0
  /-- Slots of the table in force that have opened or closed. -/
  opened : List Nat := []
  deriving DecidableEq, Repr

/-! ## Host interface (HIF) -/

/-- One host ring (R362 to R364, R375). -/
structure Ring where
  /-- HIF_RING_CTRL without ERROR. -/
  ctrl : Nat := 0x06000000
  error : Bool := false
  sqBase : Nat := 0
  cqBase : Nat := 0
  sqHead : Nat := 0
  sqTail : Nat := 0
  cqHead : Nat := 0
  cqTail : Nat := 0
  phase : Bool := true
  taken : Nat := 0
  /-- Completion slots reserved for entries taken and not yet completed. -/
  reserved : Nat := 0
  /-- Completion entries written and not yet consumed. -/
  held : Nat := 0
  deriving DecidableEq, Repr

/-- Where a completion of a taken command goes (R364). -/
structure Ticket where
  ring : Nat
  tag : Nat
  opcode : Nat
  silent : Bool
  deriving DecidableEq, Repr

/-- One exchange channel of a P or G module: offsets of its control page (R360), and records that wait for
room in the outbound ring (R361). -/
structure Channel where
  outHead : Nat := 0
  outTail : Nat := 0
  inHead : Nat := 0
  inTail : Nat := 0
  waiting : List (List Byte) := []
  deriving DecidableEq, Repr

/-- One CXL port (R355, R358): rate code of HIF_PORT, lanes, IDE. -/
structure CxlPort where
  rate : Nat := 0
  width : Nat := 0
  ide : Bool := false
  /-- Down after an IDE integrity failure until keys are programmed again. -/
  ideDown : Bool := false
  /-- Reset by PERST (R411). -/
  perst : Bool := false
  deriving DecidableEq, Repr

/-- Host interface (R355 to R375). -/
structure Hif where
  rings : Tab Ring := []
  channels : Tab Channel := []
  x0 : CxlPort := {}
  x1 : CxlPort := {}
  msix : Tab MsixVec := []
  /-- RW words with no other home, by address: index registers, bases, control words. -/
  rw : Tab Nat := []
  /-- Latched data words, by address of word 0: the bytes of the record latched. -/
  latch : Tab (List Byte) := []
  deriving DecidableEq, Repr

/-! ## Fabric (FAB) and weir (WEI) -/

/-- A frame on its way out: the Nodor header's fields and the payload (R256). -/
structure Frame where
  entropy : Nat
  opcode : Nat
  flags : Nat
  dike : Nat
  keyIndex : Nat
  cls : Nat
  dest : Nat
  destPort : Nat
  window : Nat
  gen : Nat
  key : Nat
  winOffset : Nat
  seq : Nat
  msgLen : Nat
  index : Nat
  count : Nat
  offset : Nat
  payload : List Byte
  nonce : Nat
  /-- Every octet of a frame that was sent, from the destination address to the FCS (R253, R254, R256, R258). -/
  octets : List Byte := []
  deriving DecidableEq, Repr

/-- What a tracked message carried, for what follows its answer or its loss (R265). -/
inductive Carried where
  | moduleMessage (kind : Nat)
  | hidden
  | output
  | fragment (desc frag : Nat)
  | hostWrite (t : Ticket) (addr : Nat)
  | hostRead (t : Ticket) (addr : Nat)
  | hostAtomic (t : Ticket)
  deriving DecidableEq, Repr

/-- One outgoing message (R261, R265). -/
structure OutMsg where
  dest : Nat
  seq : Nat
  opcode : Nat
  dike : Nat
  keyIndex : Nat
  window : Nat
  gen : Nat
  key : Nat
  winOffset : Nat
  notify : Bool
  msgLen : Nat
  queue : Nat
  charged : Bool
  carried : Carried
  /-- The packets of the division the sender chose: offset and bytes. -/
  packets : List (Nat × List Byte)
  /-- Packets not yet sent once. -/
  unsent : Nat
  firstSent : Option Nat
  latestSent : Nat
  /-- For READ and ATOMIC: the answer received so far, by packet index. -/
  answer : Tab (Nat × List Byte)
  answerCount : Nat
  deriving DecidableEq, Repr

/-- One incomplete incoming message (R262, R263). -/
structure InMsg where
  source : Nat
  seq : Nat
  opcode : Nat
  dike : Nat
  keyIndex : Nat
  port : Nat
  window : Nat
  gen : Nat
  winOffset : Nat
  notify : Bool
  msgLen : Nat
  count : Nat
  /-- Packets received: index, offset and bytes. -/
  got : Tab (Nat × List Byte)
  latest : Nat
  /-- Bytes of frames of a steward SEND that are not yet charged: a fragment's tenant stands in its first bytes (R310). -/
  owed : Nat := 0
  deriving DecidableEq, Repr

/-- One completion record of a source (R266). -/
structure DoneMsg where
  source : Nat
  seq : Nat
  window : Nat
  gen : Nat
  opcode : Nat
  prior : Option Nat
  at_ : Nat
  deriving DecidableEq, Repr

/-- The states of a window (R267). -/
inductive WinState where
  | closed
  | opened
  | revoking
  deriving DecidableEq, Repr

/-- Code of a window state (R267). -/
def WinState.code : WinState → Nat
  | .closed => 0
  | .opened => 1
  | .revoking => 2

/-- One polder (R267). -/
structure Window where
  key : Nat := 0
  desc : Nat := 0
  descGen : Nat := 0
  gen : Nat := 0
  state : WinState := .closed
  dike : Nat := 0
  rights : Nat := 0
  ring : Nat := 0
  base : Nat := 0
  length : Nat := 0
  /-- Instants of the last opening and of the last closing, and whether it was ever revoked. -/
  openedAt : Option Nat := none
  closedAt : Nat := 0
  revoked : Bool := false
  /-- The revocation under way: the instant it began, the fabric dies that have fenced the window (R270), its command's completion, and the fields it reopens under. -/
  revokedAt : Nat := 0
  fenced : List Nat := []
  ticket : Option Ticket := none
  reopen : Option WinOps := none
  deriving DecidableEq, Repr

/-- One port's record and state (R253 to R255, R273). -/
structure PortRec where
  up : Bool := false
  withdrawn : Bool := false
  framesOut : Nat := 0
  framesIn : Nat := 0
  bytesOut : Nat := 0
  bytesIn : Nat := 0
  fcsErrors : Nat := 0
  fecUncorrected : Nat := 0
  fecCorrected : Nat := 0
  notMine : Nat := 0
  misdirected : Nat := 0
  deriving DecidableEq, Repr

/-- Fabric (R253 to R273). -/
structure Fab where
  ports : Tab PortRec := []
  /-- Own node number from the map in force; all ones before the first. -/
  node : Nat := 0xFFFFFFFF
  /-- Outgoing messages, and those that wait for a slot of their die. -/
  out : List OutMsg := []
  waiting : List OutMsg := []
  /-- Most in flight since power-good. -/
  peak : Nat := 0
  /-- Next MSG_SEQ by destination (R256). -/
  nextSeq : Tab Nat := []
  /-- Port and destination-address rotation by tracking die (R261). -/
  rotation : Tab Nat := []
  destRotation : Tab Nat := []
  inbound : List InMsg := []
  done : List DoneMsg := []
  /-- Refused messages and the instant of their last NACK: source, sequence, instant (R272). -/
  refused : List (Nat × Nat × Nat) := []
  /-- Polders by id; one never opened has no entry and is CLOSED with generation 0. -/
  windows : Tab Window := []
  /-- Intake windows open, by dike. -/
  intake : List Nat := []
  /-- Nonce counters by dike × 2 + key version: the next to use (R259). -/
  nonce : Tab Nat := []
  exhausted : List Nat := []
  /-- Frames sent: port and frame, oldest first. -/
  wire : List (Nat × Frame) := []
  deriving DecidableEq, Repr

/-- Where a paced queue stands (R279). -/
inductive Pacing where
  | eligible
  | fine (slot : Nat)
  | coarse (slot : Nat)
  | pacer
  deriving DecidableEq, Repr

/-- One weir queue (R274, R285). -/
structure WQueue where
  enable : Bool := false
  explicit : Bool := false
  quantum : Nat := 0
  rate : Nat := 0
  /-- Eligible time, in 2^−16 ns (R278). -/
  e : Nat := 0
  pacing : Pacing := .eligible
  lastCost : Nat := 0
  sent : Nat := 0
  /-- Packets by port, oldest first. -/
  inst : Tab (List Frame) := []
  deficit : Tab Nat := []
  fresh : List Nat := []
  deriving DecidableEq, Repr

/-- One policer (R281, R282). -/
structure Policer where
  enable : Bool := false
  rate : Nat := 0
  burst : Nat := 0
  /-- Thousandths of a byte in the bucket at `at_`. -/
  tokens : Nat := 0
  at_ : Nat := 0
  passed : Nat := 0
  dropped : Nat := 0
  deriving DecidableEq, Repr

/-- Weir (R274 to R285). -/
structure Wei where
  queues : Tab WQueue := []
  /-- Active lists by port: queue numbers, head first (R277). -/
  active : Tab (List Nat) := []
  policers : Tab Policer := []
  /-- WEI_CMD_RESULT. -/
  result : Nat := 0
  /-- Instants of the latest fine and coarse ticks that were processed. -/
  fineAt : Nat := 0
  coarseAt : Nat := 0
  deriving DecidableEq, Repr

/-! ## Pages (PGM) -/

/-- States of a page descriptor (R118); FREE is having no entry. -/
inductive PageState where
  | spare
  | hopper
  | sealing
  | sealed
  | released
  deriving DecidableEq, Repr

/-- Code of a page state (R118). -/
def PageState.code : PageState → Nat
  | .spare => 1
  | .hopper => 2
  | .sealing => 3
  | .sealed => 4
  | .released => 5

/-- The tiers of data (R116 byte 10). -/
inductive Tier where
  | gddr
  | sram
  | cxl
  deriving DecidableEq, Repr

/-- Code of a tier (R116). -/
def Tier.code : Tier → Nat
  | .gddr => 0
  | .sram => 1
  | .cxl => 2

/-- One page descriptor that is not FREE (R116), with what its page holds. -/
structure Desc where
  state : PageState
  tier : Tier := .gddr
  pin : Bool := false
  durable : Bool := false
  published : Bool := false
  alloc : Nat := 0
  object : Bool := false
  windowRing : Bool := false
  tableId : Nat := 0
  tenant : Nat := 0
  generation : Nat := 0
  /-- Latest step whose work list reads the page (LEASE_STEP holds its low 16 bits). -/
  lease : Option Nat := none
  layer : Nat := 0
  context : Nat := 0
  firstPos : Nat := 0
  fill : Nat := 0
  pfx : Nat := 0
  /-- Extents in use, and the map class. -/
  extents : Nat := 0
  mapClass : Nat := 0
  refcount : Nat := 0
  /-- The rows of the raw form: key row and value row of all heads, by slot (R111). -/
  rows : List (List Byte × List Byte) := []
  /-- The sealed form: one SCB per block (R113, R114). -/
  blocks : List (List Byte) := []
  /-- The packer has completed; the switch waits for a boundary (R121). -/
  packed : Bool := false
  /-- Step in which the page filled. -/
  filledAt : Nat := 0
  /-- Formed from staging: it never held raw extents (R122). -/
  fromStaging : Bool := false
  /-- Slot of the sequence whose allowance or credit holds it; none after that sequence's release. -/
  holder : Option Nat := none
  /-- Extents it holds: raw ones in GDDR7 (of a pinned part), and those drawn from seal credit. -/
  rawHeld : Nat := 0
  sealHeld : Nat := 0
  /-- A block of it cannot be recovered (R227, R246). -/
  damaged : Bool := false
  /-- GDDR7 copy of a page homed in tier 2 (R215): extents copied, dirty extents, promotion under way. -/
  copy : Option (List Nat) := none
  dirty : List Nat := []
  promoting : Bool := false
  demoting : Bool := false
  /-- Write-back: extents in flight, consecutive boundaries or tries (R218). -/
  writing : List Nat := []
  /-- Object bytes by offset (R213): the home's, and the copy's where it differs. -/
  bytes : Tab Byte := []
  copyBytes : Tab Byte := []
  /-- Steps of recent reads, for the rule of residence. -/
  lastRead : Nat := 0
  /-- FREE_OBJECT was applied while windows or leases still cover it. -/
  freeing : Bool := false
  /-- Device addresses [47:16] of its extents and [47:8] of its map, as far as it has them (R112 to R116, R213, R215): of the
  raw form, of the sealed form or the object at home, of the copy in GDDR7. -/
  rawExt : List Nat := []
  rawMap : Option Nat := none
  homeExt : List Nat := []
  homeMap : Option Nat := none
  copyExt : List Nat := []
  copyMap : Option Nat := none
  /-- The sealed form as the copy holds it, encrypted under its own addresses (R215, R220), and the table it was packed with. -/
  copyBlocks : List (List Byte) := []
  packTable : Nat := 0
  /-- An error fell in the copy: readers use the home, and VALID goes at the next boundary (R215, R227). -/
  copyBad : Bool := false
  deriving DecidableEq, Repr

/-- One prefix table entry (R129). -/
structure PrefixEntry where
  tenant : Nat
  context : Nat
  adapter : Nat
  adapterGen : Nat
  lP : Nat
  parent : Option Nat
  tokens : List Nat
  descs : List Nat
  /-- Boundary from which it may be matched, and the boundary of its last match. -/
  from_ : Nat
  matched : Nat
  deriving DecidableEq, Repr

/-- Pages (R111 to R139). -/
structure Pgm where
  descs : Tab Desc := []
  /-- Generation of each descriptor that has ever left FREE (R116). -/
  gens : Tab Nat := []
  prefixes : Tab PrefixEntry := []
  /-- Descriptors reclaimed at the present boundary (R137). -/
  reclaimed : Nat := 0
  /-- A part of a freeboard under test found no descriptor, extent or map (R125): such a state is never answered. -/
  short : Bool := false
  deriving DecidableEq, Repr

/-! ## Sequences, steps and admission (SQS) -/

/-- Entry states (R142); FREE is having no entry. -/
inductive SeqState where
  | accepted
  | prefill
  | decode
  | draining
  | orphaned
  deriving DecidableEq, Repr

/-- Code of an entry state (R142). -/
def SeqState.code : SeqState → Nat
  | .accepted => 1
  | .prefill => 2
  | .decode => 3
  | .draining => 4
  | .orphaned => 5

/-- The pages of one layer of a sequence: page list (hopper last), spare, unused hopper allowance, unused
seal credit in pages (R115, R124, R127, R138). -/
structure LayerPages where
  list : List Nat := []
  spare : Option Nat := none
  unused : Option Nat := none
  credit : Nat := 0
  /-- Map addresses [47:8] reserved with the credit (R114, R124), and the 64-byte blocks of the page list by address [47:6]
  (R115). -/
  maps : List Nat := []
  lines : List Nat := []
  /-- Position up to which pages of a ring member's segment have been sent (R103, R104). -/
  sentPos : Nat := 0
  deriving DecidableEq, Repr

/-- One planned prefill chunk (R100, R152); `resume` for the one-row chunk of R178 step 4. -/
structure Chunk where
  step : Nat
  first : Nat
  rows : Nat
  resume : Bool := false
  /-- Layers of the chunk that have run. -/
  ran : Nat := 0
  deriving DecidableEq, Repr

/-- One entry of the sequence table (R141) and what goes with it. -/
structure Seq where
  handle : Nat
  state : SeqState
  tenant : Nat
  context : Nat
  cls : Nat
  publish : Bool := false
  ring : Bool := false
  forked : Bool := false
  drop : Bool := false
  adapter : Nat := 0
  adapterGen : Nat := 0
  member : Nat := 0
  ringZ : Nat := 0
  ownEpoch : Nat := 1
  compEpoch : Nat := 0
  requestId : Nat
  admitStep : Nat := 0
  nextStep : Nat := 0
  deadline : Nat := 0xFFFFFFFFFFFF
  promptLen : Nat
  maxNew : Nat
  position : Nat := 0
  generated : Nat := 0
  lP : Nat := 0
  source : Nat := 0
  parent : Nat := 0xFFFFFFFF
  sampling : Sampling := ⟨0, 0, 0, 0⟩
  endToken : Nat := 0xFFFFFFFF
  lateTokens : Nat := 0
  gateway : Nat := 0
  /-- Pages by layer (R115, R124). -/
  layers : List LayerPages := []
  /-- Extents of its two history copies (R169), and their addresses [47:16]. -/
  histExtents : Nat := 0
  histAt : List Nat := []
  /-- Address [47:6] of the head array (R141). -/
  heads : Nat := 0
  /-- Chunks planned and not yet run whole, and first step in which it decodes (R152). -/
  chunks : List Chunk := []
  decodeFrom : Nat := 0
  /-- Layers that have run in the current step of a decode sequence, rows appended this step. -/
  layersRun : Nat := 0
  /-- It is moved: its layer work of an earlier step goes on in this one (R24). -/
  carried : Bool := false
  /-- Ring segment: members in ring order, first and end position of the own segment (R102). -/
  ringNodes : List Nat := []
  segFirst : Nat := 0
  segEnd : Nat := 0
  /-- Deferred whole to the next step (R200). -/
  deferred : Bool := false
  /-- Prefix pages published so far: the last entry's index, pages published. -/
  pubParent : Option Nat := none
  pubPages : Nat := 0
  pubStop : Bool := false
  deriving DecidableEq, Repr

/-- The fields of an ADMIT_QUERY (R146). -/
structure Query where
  from_ : Nat
  tenant : Nat
  context : Nat
  cls : Nat
  publish : Bool
  fork : Bool
  requestId : Nat
  sseq : Nat
  compEpoch : Nat
  adapter : Nat
  lP : Nat
  promptLen : Nat
  maxNew : Nat
  deadline : Nat
  parent : Nat
  sampling : Sampling
  gateway : Nat
  deriving DecidableEq, Repr

/-- A join that waits for action 4 (R157). -/
inductive Join where
  | fork (q : Query)
  | segment (keeper : Nat) (msg : List Byte)
  | reprefill (slot handle : Nat)
  | handoff (grant : List Byte) (keeper : Nat)
  | rehome (t : Ticket) (requestId : Nat) (body : List Byte)
  deriving DecidableEq, Repr

/-- What waits for a boundary (R143). -/
inductive Wait where
  | cancel (requestId : Nat)
  | pause (requestId : Nat)
  | release (msg : List Byte) (port : Nat)
  | command (t : Ticket) (op : RingOp) (body : List Byte)
  | ask (q : Query)
  | ingress (r : Request)
  | join (j : Join)
  deriving DecidableEq, Repr

/-- A waiting command or message with its place in the order: action, tenant, source, source sequence, first
boundary at which it may be applied (R143, R144). -/
structure Pend where
  action : Nat
  tenant : Nat
  source : Nat
  sseq : Nat
  notBefore : Nat := 0
  wait : Wait
  deriving DecidableEq, Repr

/-- A request fronted by a P module while it looks for a keeper (R20, R22). -/
structure Fronted where
  request : Request
  /-- Candidates in rendezvous order, how many have been tried, and the one that is asked now. -/
  candidates : List Nat
  tried : Nat
  asked : Option Nat
  /-- Earliest DEFERRED verdict so far, and the REFUSED one that came last: their bytes. -/
  deferredAs : Option (List Byte)
  refusedAs : Option (List Byte) := none
  compEpoch : Nat
  deriving DecidableEq, Repr

/-- A ring-distributed request whose members are asked (R102): the query, the members in ring order without the
keeper, and their answers: node, outcome, reason, step, handle. -/
structure RingAsk where
  query : Query
  members : List Nat
  answers : List (Nat × Nat × Nat × Nat × Nat) := []
  /-- Handle the keeper keeps for it. -/
  handle : Nat
  deriving DecidableEq, Repr

/-- The driving side of a sequence at a P or G module, by slot (R170 to R183). -/
structure Owned where
  keeper : Nat
  keeperHandle : Nat
  /-- Random values drawn so far (R324). -/
  draws : Nat := 0
  /-- Token ids known here and the position of the first. -/
  histFirst : Nat := 0
  tokens : List Nat := []
  /-- Tokens whose NOTE_ACK is awaited, oldest first: position, token, step each is promised for. -/
  awaiting : List (Nat × Nat × Nat) := []
  /-- Positions of awaited tokens that were acknowledged during a hold (R183). -/
  ackedHeld : List Nat := []
  /-- Positions whose tokens have been sent for embedding. -/
  embedded : Nat := 0
  /-- It sent in this step; the keeper answered in this step; steps without an answer (R183). -/
  sent : Bool := false
  answered : Bool := false
  silent : Nat := 0
  /-- Held by R183 since this boundary. -/
  heldSince : Option Nat := none
  /-- Boundary at which the entry is released, and with which notice. -/
  releaseAt : Option Nat := none
  /-- RECALL(DRAIN): no token is sent after this boundary (R179). -/
  muteAfter : Option Nat := none
  /-- Last layer whose output has come back in this step. -/
  layer : Nat := 0
  /-- It ends with this cause when its last token leaves. -/
  ending : Option Nat := none
  /-- It was refused with REJECT and stops (R177). -/
  superseded : Bool := false
  deriving DecidableEq, Repr

/-- A tailrace record (R162). -/
structure TailRec where
  tenant : Nat
  gateway : Nat
  requestId : Nat
  token : Nat
  kind : Nat
  flags : Nat
  cause : Nat
  refStep : Nat
  deriving DecidableEq, Repr

/-- A token of a sequence that has passed on, whose NOTE_ACK is still awaited (R172, R173): keeper, its handle,
position, record. -/
structure Leaving where
  keeper : Nat
  handle : Nat
  pos : Nat
  record : TailRec
  deriving DecidableEq, Repr

/-- Sequences, steps and admission (R140 to R164). -/
structure Sqs where
  seqs : Tab Seq := []
  /-- Generation of each slot that has ever left FREE (R140). -/
  gens : Tab Nat := []
  owned : Tab Owned := []
  leaving : List Leaving := []
  fronted : List Fronted := []
  ringAsks : List RingAsk := []
  waiting : List Pend := []
  /-- The source sequence of each source's message counted first in this step (R143). -/
  firstSeq : Tab Nat := []
  /-- Records of the batch being gathered. -/
  batch : List TailRec := []
  /-- B and T of the step in force, longest boundary work (SQS_BUDGET, SQS_COMMIT, SQS_BOUNDARY_PEAK). -/
  budget : Nat := 0
  commit : Nat := 0
  peak : Nat := 0
  /-- SQS_INSPECT_IDX: a latch that waits for the boundary's end. -/
  inspect : Option Nat := none
  /-- Own source sequence, next to use (R143). -/
  nextSseq : Nat := 0
  deriving DecidableEq, Repr

/-! ## Sluice (SLC) -/

/-- States of an ownership record (R166). -/
inductive RecState where
  | held
  | offered
  | passing
  | reissued
  | orphaned
  | rehoming
  deriving DecidableEq, Repr

/-- Code of a record state (R166). -/
def RecState.code : RecState → Nat
  | .held => 1
  | .offered => 2
  | .passing => 3
  | .reissued => 4
  | .orphaned => 5
  | .rehoming => 6

/-- One ownership record (R165), with what the keeper remembers of the handoff under way. -/
structure OwnRec where
  owner : Nat
  role : Nat
  state : RecState
  quiet : Nat := 0
  acked : Bool := true
  tail : Bool := false
  epoch : Nat := 1
  next : Nat := 0xFFFFFFFF
  effective : Nat := 0
  tailPos : Nat := 0
  /-- A message under the current epoch from OWNER was counted in this step (R175). -/
  heard : Bool := false
  /-- The grant to NEXT has been sent. -/
  granted : Bool := false
  /-- The owner took a handoff's place and has not reached HELD yet (SLC_HANDOFF_COUNT, R187). -/
  arriving : Bool := false
  /-- Outgoing owner, its epoch and the boundary to which its tail is accepted (R167). -/
  outgoing : Option (Nat × Nat × Nat) := none
  /-- The tail's STATE_PUSH, held until every hopper holds TAIL_POS (R172). -/
  tailMsg : Option (List Byte) := none
  /-- Values drawn and the promised step as last noted. -/
  draws : Nat := 0
  /-- The resume or re-home under way: cause of the next grant. -/
  grantCause : Nat := 1
  /-- Instant the reissue grant was sent. -/
  sentAt : Nat := 0
  /-- It was orphaned and its policy still waits (R176). -/
  policyDue : Bool := false
  deriving DecidableEq, Repr

/-- One node entry of a composition map (R366). -/
structure NodeEnt where
  node : Nat
  role : Nat
  status : Nat
  cls : Nat
  group : Nat
  gridEpoch : Nat
  period : Nat
  ringSet : Nat
  macs : List Nat
  /-- Allotments: G node, entries, budget in capped cycles. -/
  allot : List (Nat × Nat × Nat)
  deriving DecidableEq, Repr

/-- One composition map held. -/
structure CompMap where
  epoch : Nat
  nodes : List NodeEnt
  deriving DecidableEq, Repr

/-- Sluice (R165 to R187). -/
structure Slc where
  recs : Tab OwnRec := []
  /-- Token histories by slot (R169), and whether each of the two copies is whole (R212). -/
  hist : Tab (List Nat) := []
  histBad : List (Nat × Nat) := []
  /-- Maps held, newest (in force) last; the map accepted and not yet in force, with its command. -/
  maps : List CompMap := []
  nextMap : Option CompMap := none
  /-- Cause of the latest COMPOSITION_REFUSED (R18). -/
  refusedMap : Option Nat := none
  deriving DecidableEq, Repr

/-! ## Models, weights and adapters (MDL) -/

/-- Context states (R192); FREE is having no entry. -/
inductive CtxState where
  | loading
  | ready
  | retiring
  deriving DecidableEq, Repr

/-- One layer descriptor (R190). -/
structure LayerDesc where
  mask : Nat
  bias : Bool
  wformat : Nat
  window : Nat
  wq : Nat
  wk : Nat
  wv : Nat
  wo : Nat
  scales : Nat
  gain : Nat
  biasAddr : Nat
  stored : Nat
  deriving DecidableEq, Repr

/-- One model context (R188, R189). -/
structure Ctx where
  state : CtxState
  homeCxl : Bool
  width : Nat
  nKv : Nat
  gqa : Nat
  headDim : Nat
  qFmt : Nat
  kvFmt : Nat
  outFmt : Nat
  actFmt : Nat
  rotMode : Nat
  rotDims : Nat
  scale : Nat
  eps : Nat
  maxPrefix : Nat
  ringSegment : Nat
  turnaround : Nat
  vocab : Nat
  endToken : Nat
  weightBytes : Nat
  layers : List LayerDesc
  freqs : List Nat
  /-- The fill has completed (R192). -/
  filled : Bool := false
  /-- Blocks of the master that the latest fetch found damaged: piece (a layer, or 65,536 + 256 × adapter version + layer) and
  address of the header (R246). One damaged on two consecutive fetches retires the context. -/
  badBlocks : List (Nat × Nat) := []
  /-- Pieces whose copy in the weight cache is damaged: they are fetched from the master (R194, R246). -/
  refetching : List Nat := []
  condemned : Bool := false
  /-- Cells of its master as copied into the weight cache (R194); none before a fill and for a context homed in tier 2. -/
  cells : Option (List Host.Cell) := none
  deriving DecidableEq, Repr

/-- One adapter version in use (R201). -/
structure Adapter where
  generation : Nat
  tenant : Nat
  context : Nat
  format : Nat
  targets : Nat
  rank : Nat
  shift : Int
  layerBytes : Nat
  store : Nat
  total : Nat
  current : Bool
  /-- Cells of its master as copied into the weight cache (R194). -/
  cells : List Host.Cell := []
  deriving DecidableEq, Repr

/-- How far the weights of one layer are (R195, R199). -/
inductive Load where
  | issued
  | late
  | spillway
  | staged
  | stopped
  deriving DecidableEq, Repr

/-- Models, weights and adapters (R188 to R206). -/
structure Mdl where
  ctxs : Tab Ctx := []
  adapters : Tab Adapter := []
  /-- Generation each adapter id last carried on this module (R201). -/
  lastGen : Tab Nat := []
  /-- MDL_REG_RESULT. -/
  result : Nat := 0
  /-- Weight loads of the step: context × 256 + layer. -/
  loads : Tab Load := []
  /-- Accumulated delay of each context in the step, ns (R199). -/
  delay : Tab Nat := []
  /-- Slack and spillway reserve used in the step, engine cycles (R199, R24). -/
  slackUsed : Nat := 0
  spillUsed : Nat := 0
  /-- Context images resident by cluster, assignment by cluster, swap under way by cluster (R196 to R198). -/
  resident : Tab (List Nat) := []
  assigned : Tab (List Nat) := []
  swapping : Tab Nat := []
  deriving DecidableEq, Repr

/-! ## Execution of a step (CAR) -/

/-- Kinds of items: the stages of R87 and the attention kinds of R95. -/
inductive ItemKind where
  | norm
  | project (matrix : Nat) (slice : Nat)
  | rotary
  | da
  | dh
  | pa
  | ps
  | rb
  | fm
  | output (slice : Nat)
  | sample
  deriving DecidableEq, Repr

/-- One item of the work list (R95, R158). -/
structure Item where
  id : Nat
  step : Nat
  /-- Layer slot within the step, context and layer. -/
  slot : Nat
  context : Nat
  layer : Nat
  kind : ItemKind
  handle : Nat := 0
  head : Nat := 0
  /-- First position of its source. -/
  source : Nat := 0
  /-- First position and number of query rows; for projections the (handle, position) rows of the batch. -/
  first : Nat := 0
  rows : Nat := 1
  batch : List (Nat × Nat) := []
  /-- Run of attention items it belongs to (R158), and the run it merges (FM). -/
  run : Nat := 0
  merges : Nat := 0
  /-- Logical core, die × 32 + core. -/
  core : Nat := 0
  cost : Nat := 0
  /-- Sampled for shadow recomputation; waiting for it (R339). -/
  sampled : Bool := false
  done : Bool := false
  shadowed : Bool := true
  /-- The page that its shadow recomputation holds (R117). -/
  page : Option Nat := none
  deriving DecidableEq, Repr

/-- One row of one layer in flight (R87): what each stage has produced so far. -/
structure RowWork where
  handle : Nat
  context : Nat
  layer : Nat
  step : Nat
  pos : Nat
  epoch : Nat
  /-- Submitter, and whether the row is prefill (staged) and not to be appended. -/
  submitter : Nat
  compEpoch : Nat := 0
  prefill : Bool
  noAppend : Bool := false
  x : List Nat
  norm : List Nat := []
  q : Tab (List Nat) := []
  k : Tab (List Nat) := []
  v : Tab (List Nat) := []
  qr : List Nat := []
  kr : List Nat := []
  vr : List Nat := []
  rotated : Bool := false
  placed : Bool := false
  attn : List Nat := []
  attended : Bool := false
  out : Tab (List Nat) := []
  returned : Bool := false
  deriving DecidableEq, Repr

/-- A partial state of either class: class N maximum, denominator, numerators; class F as FP32 codes. -/
structure FoldState where
  m : Option Int := none
  den : Int := 0
  num : List Int := []
  /-- A live score that is not finite; elements whose values were not finite (R74). -/
  nonfinite : Bool := false
  nan : List Nat := []
  deriving DecidableEq, Repr

/-- The state of one run (R96, R158): one fold state a query row and query head. -/
structure RunState where
  handle : Nat
  layer : Nat
  first : Nat
  head : Nat
  run : Nat
  states : List FoldState
  deriving DecidableEq, Repr

/-- A ring message received and folded, or waiting to be (R103 to R107). -/
structure RingMsg where
  kind : Nat
  member : Nat
  layer : Nat
  handle : Nat
  step : Nat
  firstPos : Nat
  tokens : Nat
  payload : List Byte
  folded : Bool
  /-- A block sent on to the successor (R103). -/
  forwarded : Bool := false
  /-- Of no more use, and kept so that a duplicate is known (R107). -/
  spent : Bool := false
  deriving DecidableEq, Repr

/-- The compute array (R86, R110): the step in force. -/
structure Car where
  items : List Item := []
  rows : List RowWork := []
  runs : List RunState := []
  ringMsgs : List RingMsg := []
  /-- Boundaries since a ring member sent what is awaited: handle × 64 + member. -/
  ringSilent : Tab Nat := []
  /-- CAR_STAGE_USE: rows staged now in bytes, and the peak in KiB. -/
  stagePeak : Nat := 0
  deriving DecidableEq, Repr

/-! ## Memory tiers (TIR) -/

/-- State of a tier segment record (R228). -/
inductive SegState where
  | unused
  | active
  | failed
  deriving DecidableEq, Repr

/-- One tier segment record (R221). -/
structure Segment where
  base : Nat
  ports : Nat
  size : Nat
  pbr : Nat
  target : Nat
  state : SegState
  /-- Consecutive failures of its lines (R227). -/
  failures : Nat := 0
  deriving DecidableEq, Repr

/-- Memory tiers (R207 to R228). -/
structure Tir where
  segments : List Segment := []
  /-- Most tier-2 line requests in flight (TIR_T2_PEAK). -/
  peak : Nat := 0
  /-- Seconds of network time at the last recalibration, and recalibrations made (R226). -/
  recalAt : Nat := 0
  recals : Nat := 0
  /-- Tier-2 writes of seals that must be retried at the next boundary (R227). -/
  sealRetry : List Nat := []
  deriving DecidableEq, Repr

/-! ## Compression and erasure coding (CMP) -/

/-- An installed coding table (R236, R237): the record's bytes and where it becomes current. -/
structure InstTable where
  record : List Byte
  currentStep : Nat
  /-- Order of installation. -/
  order : Nat
  deriving DecidableEq, Repr

/-- One fragment held for another keeper (R250). -/
structure HeldFrag where
  keeper : Nat
  index : Nat
  generation : Nat
  frag : Nat
  tenant : Nat
  tableId : Nat
  imageLen : Nat
  bytes : List Byte
  crc : Nat
  deriving DecidableEq, Repr

/-- The coding of one DURABLE page at its keeper, by descriptor (R247, R249). -/
structure Coding where
  /-- Keeper and descriptor index under which the fragments were put (R250). -/
  keeper : Nat
  index : Nat
  generation : Nat
  tenant : Nat
  tableId : Nat
  imageLen : Nat
  fragLen : Nat
  /-- Holder of each fragment, acknowledged or not, next candidate to offer to. -/
  holders : List Nat
  acked : List Nat
  next : Tab Nat
  frags : List (List Byte)
  isProtected : Bool
  unprotected : Bool
  /-- Set when the page was reclaimed: FREE goes out when every PUT is acknowledged. -/
  freeing : Bool
  /-- Rebuild under way: fragments that arrived intact. -/
  rebuild : Option (Tab (List Byte))
  rebuildAt : Nat
  deriving DecidableEq, Repr

/-- Compression (R229 to R252). -/
structure Cmp where
  tables : Tab InstTable := []
  installs : Nat := 0
  /-- CMP_DAMAGE_LAST, CMP_TABLE_RESULT. -/
  damageLast : Nat := 0
  tableResult : Nat := 0
  coded : Nat := 0
  raw : Nat := 0
  /-- BUILD_TABLE under way: its completion, layout, source, length, result address. -/
  build : List (Ticket × Nat × Nat × Nat × Nat) := []
  held : List HeldFrag := []
  coding : Tab Coding := []
  /-- Fragments of a lost keeper to be freed once the rebuilt page is protected: descriptor, then keeper, index,
  generation and holders of the old ones (R251). -/
  oldRefs : List (Nat × Nat × Nat × Nat × List Nat) := []
  /-- Composition epoch for which DURABLE_REDUCED has been raised. -/
  reducedFor : Option Nat := none
  deriving DecidableEq, Repr

/-! ## Tenancy, keys and attestation (SEC) -/

/-- A lease in force (R28). -/
structure Lease where
  cls : Nat
  orphan : Nat
  share : Nat
  seqQuota : Nat
  pageQuota : Nat
  ckpt : Nat
  models : Nat
  /-- A quota was lowered below the use of then, and the use has not yet fallen below it (R30). -/
  seqLowered : Bool := false
  pageLowered : Bool := false
  deriving DecidableEq, Repr

/-- Wire keys of one dike, or of the group under dike 0 (R295). -/
structure WireKeys where
  v0 : Option Nat := none
  v1 : Option Nat := none
  active : Option Nat := none
  deriving DecidableEq, Repr

/-- States of a live update (SEC_UPDATE). -/
inductive UpdState where
  | idle
  | verifying
  | staged
  | switching
  | writingFlash
  | flashDone
  | failed
  deriving DecidableEq, Repr

/-- Code of an update state. -/
def UpdState.code : UpdState → Nat
  | .idle => 0
  | .verifying => 1
  | .staged => 2
  | .switching => 3
  | .writingFlash => 4
  | .flashDone => 5
  | .failed => 6

/-- One SPDM connection (R298). -/
structure Spdm where
  /-- Version negotiated, 0 before GET_VERSION; capabilities and algorithms agreed. -/
  version : Nat := 0
  caps : Bool := false
  algos : Bool := false
  /-- Requests and responses so far, for the signature's transcript. -/
  transcript : List Byte := []
  /-- The latest response sent. -/
  response : List Byte := []
  deriving DecidableEq, Repr

/-- Tenancy, keys and attestation (R286 to R308). -/
structure Sec where
  leases : Tab Lease := []
  /-- Dikes whose lease ended and whose keys remain (R297). -/
  ended : List Nat := []
  /-- The steward memory key, generated at each power-good (R290). -/
  steward : Nat := 0
  memory : Tab Nat := []
  wire : Tab WireKeys := []
  model : Tab Nat := []
  /-- IDE stream keys by port × 256 + stream. -/
  ide : Tab Nat := []
  /-- Highest INSTALL_SEQ accepted or refused later than STALE since power-good, if any (R293). -/
  installSeq : Option Nat := none
  /-- The module identity record (R289) and what is fused. -/
  identity : List Byte := []
  fusedSvn : Nat := 0
  revoked : Nat := 0
  testMode : Bool := false
  nonce : List Byte := List.replicate 16 0
  keyResult : Nat := 0
  /-- Key state latched by SEC_KEY_IDX. -/
  keyState : Nat := 0
  upd : UpdState := .idle
  updCause : Nat := 0
  stagedAt : Nat := 0
  staged : List Byte := []
  /-- Address and length of the image whose verification is under way: it is read during verification (R365). -/
  stageAt : Option (Nat × Nat) := none
  /-- The STAGE_IMAGE or SWITCH_IMAGE whose outcome is awaited. -/
  updTicket : Option Ticket := none
  /-- Header bytes 0–175 of the running image, its SVN, version, and whole bytes. -/
  running : List Byte := []
  /-- The log (R302): entries kept, events logged, accumulated value. -/
  log : List (List Byte) := []
  events : Nat := 0
  accumulated : List Byte := List.replicate 48 0
  /-- Digests of the charter region and of the report (measurements 3 and 4). -/
  charterDigest : List Byte := []
  reportDigest : List Byte := []
  doe0 : Spdm := {}
  doe1 : Spdm := {}
  mctp : Spdm := {}
  deriving DecidableEq, Repr

/-! ## Health, accounting and journal (HLT) -/

/-- States of a physical core (R345). -/
inductive CoreState where
  | healthy
  | suspect
  | quarantined
  | idleSpare
  | off
  deriving DecidableEq, Repr

/-- Code of a core state (R345). -/
def CoreState.code : CoreState → Nat
  | .healthy => 0
  | .suspect => 1
  | .quarantined => 2
  | .idleSpare => 3
  | .off => 4

/-- One physical core (R344, R345, R354). -/
structure Core where
  state : CoreState := .healthy
  held : Bool := false
  deferredOnce : Bool := false
  score : Nat := 0
  faults : Nat := 0
  unresolved : Nat := 0
  bands : List Nat := [0, 0, 0, 0]
  /-- State to return to when a die is re-admitted. -/
  before : CoreState := .healthy
  deriving DecidableEq, Repr

/-- States of a compute die (R350). -/
inductive DieState where
  | serving
  | draining
  | drained
  | readmitting
  | failed
  deriving DecidableEq, Repr

/-- Code of a die state (R350). -/
def DieState.code : DieState → Nat
  | .serving => 0
  | .draining => 1
  | .drained => 2
  | .readmitting => 3
  | .failed => 4

/-- States of a die-to-die link (R40). -/
inductive LinkState where
  | up
  | repaired
  | degraded
  | down
  deriving DecidableEq, Repr

/-- Code of a link state (R40). -/
def LinkState.code : LinkState → Nat
  | .up => 0
  | .repaired => 1
  | .degraded => 2
  | .down => 3

/-- One compute die: its state, its spares' logical cores, logical cores out of service. -/
structure Die where
  state : DieState := .serving
  s0For : Option Nat := none
  s1For : Option Nat := none
  out : List Nat := []
  /-- Times of score-driven and hard quarantines, in seconds (R347). -/
  quarantines : List Nat := []
  /-- Its readmission's self-checks are complete. -/
  checked : Bool := false
  deriving DecidableEq, Repr

/-- A mismatch whose referee is awaited (R341, R342). -/
structure Mismatch where
  item : Item
  seqNo : Nat
  primPhys : Nat
  shadowPhys : Nat
  refPhys : Option Nat
  prim : List Byte
  shadow : List Byte
  sensors : MismatchSensors
  listIndex : Nat
  tenant : Nat
  /-- Step in which the referee runs, none when the area was full. -/
  refStep : Option Nat
  deriving DecidableEq, Repr

/-- A checkpoint record in the making (R352): its body is the plaintext. -/
structure CkptRec where
  kind : Nat
  tenant : Nat
  handle : Nat
  first : Nat
  count : Nat
  body : List Byte
  deriving DecidableEq, Repr

/-- Accounting of one dike (R309, R311, R313). -/
structure Acct where
  cycles : Nat := 0
  mxIssue : Nat := 0
  apIssue : Nat := 0
  gddrBytes : Nat := 0
  t2Bytes : Nat := 0
  fabOut : Nat := 0
  fabIn : Nat := 0
  /-- Energy in 2^−16 pJ. -/
  energy : Nat := 0
  tokens : Nat := 0
  late : Nat := 0
  deferred : Nat := 0
  refused : Nat := 0
  leaseChanged : Bool := false
  deriving DecidableEq, Repr

/-- Digest of the messages of one step to or from one node (R331). -/
structure Digest where
  node : Nat
  count : Nat
  sum : Nat
  deriving DecidableEq, Repr

/-- Health, accounting and journal (R309 to R354). -/
structure Hlt where
  /-- Physical cores by die × 64 + index; one with no entry is as the default of `Core`. -/
  cores : Tab Core := []
  dies : Tab Die := []
  /-- Links by number (R354); one with no entry is UP. -/
  links : Tab LinkState := []
  /-- Standing module-level faults: a name each (R40). -/
  faults : List Nat := []
  shadows : Nat := 0
  mismatches : List Mismatch := []
  /-- Mismatches since power-good, and HLT_MISMATCH_HEAD. -/
  mseq : Nat := 0
  mismatchHead : Nat := 0
  acct : Tab Acct := []
  /-- The latest whole hour whose tick has passed, in hours of network time (R344). -/
  hourAt : Nat := 0
  inputEnergy : Nat := 0
  /-- Latest freeze: seconds, TALLY_SEQ; sets frozen; the set being written; HLT_TALLY. -/
  minute : Nat := 0
  tallySeq : Nat := 0
  frozen : Bool := false
  writing : Option (Nat × List (List Byte)) := none
  tally : Nat := 0
  counterLast : Nat := 0
  /-- Checkpoints: head and tail in units, count by dike, history written by slot, due dikes, latest multiple of its
  interval by dike, END and DURABLE records that wait (R352, R353). -/
  ckptHead : Nat := 0
  ckptTail : Nat := 0
  ckptSeq : Tab Nat := []
  ckptDone : Tab Nat := []
  ckptDue : List Nat := []
  ckptAt : Tab Nat := []
  ckptOwed : List CkptRec := []
  /-- Journal: head and tail in units, next JSEQ, position in application order and the step × 8 + action it
  counts within, digests of the step. -/
  jHead : Nat := 0
  jTail : Nat := 0
  jSeq : Nat := 0
  jOrder : Nat := 0
  jKey : Nat := 0
  /-- Records held: unit, units, JSEQ (R332). -/
  jHeld : List (Nat × Nat × Nat) := []
  digestIn : List Digest := []
  digestOut : List Digest := []
  /-- Replay: the divergence record, and what it stops: no further boundary opens (R335). -/
  div : List Byte := []
  halted : Bool := false
  /-- The module waits for records (R334); a replayed step is in progress, its records at HLT_JOURNAL_TAIL; a record is
  being applied (R333). -/
  starved : Bool := false
  replaying : Bool := false
  feeding : Bool := false
  /-- n_c, s and tier-2 rate that a STEP record gave in replay (R333). -/
  replayed : Option (Nat × Nat × Nat) := none
  /-- The oldest step whose leases a DISPOSITION record says are live, while its boundary is opened (R134, R333). -/
  forcedLive : Option Nat := none
  deriving DecidableEq, Repr

/-! ## Steward, start-up and supply (STW) -/

/-- Start-up states (STW_BOOT). -/
inductive BootState where
  | powering
  | bootRom
  | recovery
  | starting
  | service
  | halted
  deriving DecidableEq, Repr

/-- Code of a start-up state. -/
def BootState.code : BootState → Nat
  | .powering => 0
  | .bootRom => 1
  | .recovery => 2
  | .starting => 3
  | .service => 4
  | .halted => 5

/-- The charter in force (R382); the defaults are the table's. -/
structure Charter where
  role : Nat := 2
  stepPeriod : Nat := 25000
  gridEpoch : Nat := 0
  pageSize : Nat := 256
  repro : Nat := 0
  statusClear : Nat := 1
  counterEvents : Nat := 0
  cancelPolicy : Nat := 0
  maxSeq : Nat := 16384
  maxPage : Nat := 33554432
  maxShare : Nat := 1000
  timePort : Nat := 0
  timeDomain : Nat := 0
  powerCap : Nat := 1500
  spill : Nat := 40
  winQuota : Nat := 4096
  resend : Nat := 40
  vlan : Nat := 0
  rehomeWait : Nat := 2400
  weightCache : Nat := 48
  kvAlloc : Nat := 0
  kvDurable : Nat := 1
  fragPool : Nat := 64
  expel : Nat := 1
  journalMib : Nat := 1024
  journalLevel : Nat := 0
  replay : Nat := 0
  deriving DecidableEq, Repr

/-- A flash write that waits its turn or runs (R378). -/
inductive FlashWrite where
  | charter (image : List Byte)
  | image (bytes : List Byte) (recovery : Bool)
  | health (entry : List Byte)
  deriving DecidableEq, Repr

/-- Recovery states (STW_RECOVERY_STATUS). -/
inductive RecState2 where
  | inactive
  | wait
  | receiving
  | verifying
  | refused
  | accepted
  deriving DecidableEq, Repr

/-- Code of a recovery state. -/
def RecState2.code : RecState2 → Nat
  | .inactive => 0
  | .wait => 1
  | .receiving => 2
  | .verifying => 3
  | .refused => 4
  | .accepted => 5

/-- Steward and start-up (R376 to R396). -/
structure Stw where
  boot : BootState := .powering
  cause : Nat := 0
  restarts : Nat := 0
  /-- Power-up steps done (R389), 0 for all off. -/
  powerStep : Nat := 0
  startMs : Nat := 0
  /-- The steward has checked dies, links and cores of this start-up (R393). -/
  checked : Bool := false
  charter : Charter := {}
  /-- Report entries in order (R386). -/
  report : List (List Byte) := []
  /-- STW_CHARTER_CTRL.STATE. -/
  charterState : Nat := 0
  /-- Flash by byte; a byte with no entry is erased (0xFF). -/
  flash : Tab Byte := []
  flashQueue : List FlashWrite := []
  recovery : RecState2 := .inactive
  received : List Byte := []
  /-- The recovery buffer (R392). -/
  buffer : Tab Byte := []
  /-- An image accepted in recovery that has yet to be written to flash (R392). -/
  toFlash : Option (List Byte) := none
  deriving DecidableEq, Repr

/-- Supply, signals and the management port (R405 to R417). -/
structure Sup where
  /-- PWR_GOOD and BROWN_WARN_N asserted; PERST pins stand in the ports. -/
  pwrGood : Bool := false
  brown : Bool := false
  /-- A power-fail sequence has switched the units off: start-up waits for the input too (R409); the input is disconnected
  by an overvoltage (R405). -/
  failed : Bool := false
  disconnected : Bool := false
  /-- Input in 10 mV, its lowest since the last entry, bank above reserve in 0.01 J. -/
  volts : Nat := 6000
  lowest : Nat := 6000
  bank : Nat := 800
  log : List (List Byte) := []
  /-- Entries sent to the management controller. -/
  sentLog : List (List Byte) := []
  /-- Dies above 105 °C whose excursion has been logged. -/
  hot : List Nat := []
  /-- Address on the management port (R413) and its latest answer. -/
  address : Nat := 0x3A
  answer : List Byte := []
  deriving DecidableEq, Repr

/-! ## The machine -/

/-- Why a step may stop with a fault. NO COMMAND RAISES ONE: every outcome the spec gives is a next state
(safe: nothing is hidden behind a stop). -/
inductive Fault where
  /-- Raised by no command; it stands here because the interface asks for a type of faults. Safe. -/
  | never
  deriving DecidableEq, Repr

/-- Why a step may have no meaning. -/
inductive Refusal where
  /-- A command of the table that the model gives no meaning; raised by its arm of `exec` alone. Safe: the run
  stops where the part would go on. -/
  | notModelled (mnemonic : String)
  deriving DecidableEq, Repr

/-- THE STATE: every block of the part, memory, the counter behind free choices, the commands waiting. -/
structure State where
  tmu : Tmu := {}
  sqs : Sqs := {}
  slc : Slc := {}
  pgm : Pgm := {}
  tir : Tir := {}
  cmp : Cmp := {}
  car : Car := {}
  mdl : Mdl := {}
  fab : Fab := {}
  wei : Wei := {}
  hif : Hif := {}
  sec : Sec := {}
  hlt : Hlt := {}
  stw : Stw := {}
  sup : Sup := {}
  /-- Status words by address (R372). -/
  status : Tab SqWord := []
  /-- S-kind counters by address (R317). -/
  counters : Tab Nat := []
  /-- Memory: device physical addresses, and host addresses above 2^64 (R207, R356). -/
  mem : List Host.Cell := []
  /-- THE MODEL'S OWN: how many free values have been drawn (Config.freeNat). -/
  freeCtr : Nat := 0
  /-- THE MODEL'S OWN: commands waiting, first in, first out. -/
  pending : List Instr := []
  deriving DecidableEq, Repr

/-- The die stepping bytes of a part that may enter service (R3, R288). -/
def dieBytes (k : Nat) : List Byte :=
  [0, 0, 0, 0, 1, 0, 0,
   if k < 8 then 0xA1#8 else if k < 14 then 0xA0#8 else if k < 18 then 0xB0#8 else 0xA1#8]

/-- The module identity record (R289) of the modelled part: serial 1, port p with address p + 1. -/
def identityRecord : List Byte :=
  [0x53#8, 0x4E#8, 0x34#8, 0x37#8, 0x32#8, 0x30#8, 0x2D#8, 0x31#8, 0x32#8, 0x38#8, 0x43#8, 0, 0, 0, 0, 0] ++
  [0x41#8, 0x31#8, 0, 0] ++ [1, 0, 0, 0, 0, 0, 0, 0] ++ [0xE9#8, 0x07#8, 1, 0] ++
  ((List.range 8).map (fun p => BitVec.ofNat 8 (p + 1) :: List.replicate 5 0)).flatten ++
  ((List.range 20).map dieBytes).flatten ++ List.replicate 16 0

/-- The part when power is applied (R10, R389). -/
def State.reset : State := { sec := { identity := identityRecord } }

end Sys2Proof.Machine
end

