-- ==== Sys2Proof/Machine/Flags.lean ====
section
/-! DEFINITION. Status words, named events, counters and MSI-X: how an event of the part becomes visible
(R11, R317, R372 to R374, R384, R419). -/

namespace Sys2Proof.Machine

/-- Every event that has a bit in some SQ word (R419), named as the cards name it. -/
inductive Event where
  | timeAcquiring | grandmasterChanged | timeStepRequired | timeLost | timeHoldover | timeLocked
  | noticeDrop | cxlPortChanged | unmappedAccess | ringError
  | wireKeyExhausted | portChanged | intakeDrop | messageAbandoned | packetMalformed | authFailed
  | roleMisdirected
  | weirRefused | flushed | policed
  | messageMalformed | cancelUnknown | handleStale | admitCarried | late
  | compEpochFolded | nodeExpelled | keeperSilent | tailMissing | ownerSuperseded | sequenceOrphaned
  | ownerQuiet | epochStaleRefused
  | reclaimCarried | prefixTableFull | writeEpochStale | sealLate
  | addressUnmapped | tierSegmentFailed | writebackLate | objectDamaged | uncorrectable | t2Retry | corrected
  | tableCommand | durableUnprotected | weightsMasterDamaged | durableReduced | fragmentFull | rebuildFailed
  | blockDamaged
  | attnEmpty | nonfinite | outSat | scoreSat
  | ringMemberLost | ringLate | ringDuplicate | ringEpochStale
  | regRefused | adapterRetired | weightsDeferred | spillwayEngaged | weightsLate
  | keysErased | dikeViolation | firmwareSwitched | imageRefused | keyRefused | spdmError
  | powerOver | linkDegraded | checkpointSkipped | dieStateChanged | hardFault | expelDeferred | coreOut
  | spareSwitched | suspectEntered | mismatchUnresolved | shadowMismatch
  | tallyLate | saturated | wrap
  | replayStarved | replayDiverged | journalOverrun
  | recoveryRefused | charterFailed | charterDone | flashDone
  deriving DecidableEq, Repr

/-- Address of a register: block index and offset (R41). -/
def regAddr (block offset : Nat) : Nat := block * 0x100000 + offset

/-- The SQ words (R399), in block order; HLT has three and CAR two. -/
def stwStatus : Nat := regAddr 0 0x4
def hifStatus : Nat := regAddr 1 0x4
def fabStatus : Nat := regAddr 2 0x4
def weiStatus : Nat := regAddr 3 0x4
def tmuStatus : Nat := regAddr 4 0x10
def sqsStatus : Nat := regAddr 5 0x4
def slcStatus : Nat := regAddr 6 0x4
def pgmStatus : Nat := regAddr 7 0x4
def tirStatus : Nat := regAddr 8 0x4
def cmpStatus : Nat := regAddr 9 0x4
def carArith : Nat := regAddr 10 0x304
def carAp : Nat := regAddr 10 0x400
def mdlStatus : Nat := regAddr 11 0x4
def secStatus : Nat := regAddr 12 0x4
def hltHealth : Nat := regAddr 13 0x4
def hltAcct : Nat := regAddr 13 0x400
def hltJournal : Nat := regAddr 13 0x604

/-- All SQ words. -/
def statusWords : List Nat :=
  [stwStatus, hifStatus, fabStatus, weiStatus, tmuStatus, sqsStatus, slcStatus, pgmStatus, tirStatus, cmpStatus,
   carArith, carAp, mdlStatus, secStatus, hltHealth, hltAcct, hltJournal]

/-- Word and bit of an event, from the cards of the blocks (R65, R86, R110, R139, R164, R187, R206, R228, R252,
R273, R285, R308, R320, R336, R354, R375, R396). -/
def Event.place : Event → Nat × Nat
  | .timeLocked => (tmuStatus, 3)
  | .timeHoldover => (tmuStatus, 4)
  | .timeLost => (tmuStatus, 5)
  | .timeStepRequired => (tmuStatus, 6)
  | .grandmasterChanged => (tmuStatus, 7)
  | .timeAcquiring => (tmuStatus, 8)
  | .ringError => (hifStatus, 0)
  | .unmappedAccess => (hifStatus, 1)
  | .cxlPortChanged => (hifStatus, 2)
  | .noticeDrop => (hifStatus, 3)
  | .roleMisdirected => (fabStatus, 0)
  | .authFailed => (fabStatus, 1)
  | .packetMalformed => (fabStatus, 2)
  | .messageAbandoned => (fabStatus, 3)
  | .intakeDrop => (fabStatus, 4)
  | .portChanged => (fabStatus, 5)
  | .wireKeyExhausted => (fabStatus, 6)
  | .policed => (weiStatus, 0)
  | .flushed => (weiStatus, 1)
  | .weirRefused => (weiStatus, 2)
  | .late => (sqsStatus, 0)
  | .admitCarried => (sqsStatus, 1)
  | .handleStale => (sqsStatus, 2)
  | .cancelUnknown => (sqsStatus, 3)
  | .messageMalformed => (sqsStatus, 4)
  | .epochStaleRefused => (slcStatus, 0)
  | .ownerQuiet => (slcStatus, 1)
  | .sequenceOrphaned => (slcStatus, 2)
  | .ownerSuperseded => (slcStatus, 3)
  | .tailMissing => (slcStatus, 4)
  | .keeperSilent => (slcStatus, 5)
  | .nodeExpelled => (slcStatus, 6)
  | .compEpochFolded => (slcStatus, 7)
  | .sealLate => (pgmStatus, 0)
  | .writeEpochStale => (pgmStatus, 1)
  | .prefixTableFull => (pgmStatus, 2)
  | .reclaimCarried => (pgmStatus, 3)
  | .corrected => (tirStatus, 0)
  | .t2Retry => (tirStatus, 1)
  | .uncorrectable => (tirStatus, 2)
  | .objectDamaged => (tirStatus, 3)
  | .writebackLate => (tirStatus, 4)
  | .tierSegmentFailed => (tirStatus, 5)
  | .addressUnmapped => (tirStatus, 6)
  | .blockDamaged => (cmpStatus, 0)
  | .rebuildFailed => (cmpStatus, 1)
  | .fragmentFull => (cmpStatus, 2)
  | .durableReduced => (cmpStatus, 3)
  | .weightsMasterDamaged => (cmpStatus, 4)
  | .durableUnprotected => (cmpStatus, 5)
  | .tableCommand => (cmpStatus, 6)
  | .scoreSat => (carArith, 0)
  | .outSat => (carArith, 1)
  | .nonfinite => (carArith, 2)
  | .attnEmpty => (carArith, 3)
  | .ringEpochStale => (carAp, 0)
  | .ringDuplicate => (carAp, 1)
  | .ringLate => (carAp, 2)
  | .ringMemberLost => (carAp, 3)
  | .weightsLate => (mdlStatus, 0)
  | .spillwayEngaged => (mdlStatus, 1)
  | .weightsDeferred => (mdlStatus, 2)
  | .adapterRetired => (mdlStatus, 3)
  | .regRefused => (mdlStatus, 4)
  | .spdmError => (secStatus, 0)
  | .keyRefused => (secStatus, 1)
  | .imageRefused => (secStatus, 2)
  | .firmwareSwitched => (secStatus, 3)
  | .dikeViolation => (secStatus, 4)
  | .keysErased => (secStatus, 5)
  | .shadowMismatch => (hltHealth, 0)
  | .mismatchUnresolved => (hltHealth, 1)
  | .suspectEntered => (hltHealth, 2)
  | .spareSwitched => (hltHealth, 3)
  | .coreOut => (hltHealth, 4)
  | .expelDeferred => (hltHealth, 5)
  | .hardFault => (hltHealth, 6)
  | .dieStateChanged => (hltHealth, 7)
  | .checkpointSkipped => (hltHealth, 8)
  | .linkDegraded => (hltHealth, 9)
  | .powerOver => (hltHealth, 10)
  | .wrap => (hltAcct, 0)
  | .saturated => (hltAcct, 1)
  | .tallyLate => (hltAcct, 2)
  | .journalOverrun => (hltJournal, 0)
  | .replayDiverged => (hltJournal, 1)
  | .replayStarved => (hltJournal, 2)
  | .flashDone => (stwStatus, 0)
  | .charterDone => (stwStatus, 1)
  | .charterFailed => (stwStatus, 2)
  | .recoveryRefused => (stwStatus, 3)

/-! ## Status words -/

/-- The word at `a`. -/
def statusWord (s : State) (a : Nat) : SqWord := Tab.getD s.status a {}

/-- STATUS_CLEAR = SEQ (R11, R372). -/
def seqMode (s : State) : Bool := s.stw.charter.statusClear == 1

/-- The event bits of a word as read: latched bits in SEQ, live bits in LEVEL (R372, R373). -/
def sqBits (s : State) (a : Nat) : Nat :=
  let w := statusWord s a
  if seqMode s then w.bits else w.ages.foldl (fun acc e => acc ||| 2 ^ e.1) 0

/-- EVSEQ as read: zero in LEVEL (R11). -/
def evseqOf (s : State) (a : Nat) : Nat := if seqMode s then (statusWord s a).evseq else 0

/-- An event reaches a word (R372, R373): its bit is set, EVSEQ rises, and in LEVEL the bit lives for two
boundaries. -/
def SqWord.event (w : SqWord) (bit : Nat) : SqWord :=
  { bits := w.bits ||| 2 ^ bit, evseq := (w.evseq + 1) % 256,
    ages := (w.ages.filter (fun e => e.1 ≠ bit)) ++ [(bit, 2)] }

/-- A boundary passes over a word (R373). -/
def SqWord.boundary (w : SqWord) : SqWord :=
  { w with ages := (w.ages.filter (fun e => e.2 > 1)).map (fun e => (e.1, e.2 - 1)) }

/-- An acknowledgement in SEQ mode (R372): clears bits if the sequence matches. -/
def SqWord.acknowledge (w : SqWord) (v : Nat) : SqWord :=
  if v / 2 ^ 24 % 256 = w.evseq then { w with bits := w.bits - (w.bits &&& (v % 2 ^ 24)) } else w

/-- MSI-X vector `v` is to be sent at `now` (R374): at most one message a microsecond, the rest joined to the
one that waits. -/
def MsixVec.fire (m : MsixVec) (now : Nat) : MsixVec :=
  match m.last with
  | none => { last := some now, held := false, sent := m.sent + 1 }
  | some t =>
    if m.held && t + 1000 ≤ now then
      if t + 2000 ≤ now then { last := some now, held := false, sent := m.sent + 2 }
      else { last := some (t + 1000), held := true, sent := m.sent + 1 }
    else if t + 1000 ≤ now then { last := some now, held := false, sent := m.sent + 1 }
    else { m with held := true }

/-- Send vector `v`. -/
def msix (v : Nat) (s : State) : State :=
  { s with hif := { s.hif with
      msix := Tab.put v ((Tab.getD s.hif.msix v {}).fire s.tmu.now) s.hif.msix } }

/-- Set a word. -/
def setStatus (a : Nat) (w : SqWord) (s : State) : State := { s with status := Tab.put a w s.status }

/-- Raise the event with bit `bit` of word `a` (R372); the block's vector goes out when the bit was 0 (R374). -/
def raiseAt (a bit : Nat) (s : State) : State :=
  let was := (sqBits s a).testBit bit
  let s := setStatus a ((statusWord s a).event bit) s
  if was then s else msix (a / 0x100000) s

/-- Raise an event. -/
def raise (e : Event) (s : State) : State := raiseAt e.place.1 e.place.2 s

/-- Raise an event `n` times. -/
def raiseTimes (e : Event) : Nat → State → State
  | 0, s => s
  | n + 1, s => raiseTimes e n (raise e s)

/-- Raise an event when `b`. -/
def raiseIf (b : Bool) (e : Event) (s : State) : State := if b then raise e s else s

/-- A boundary passes over every status word (R373). -/
def ageStatus (s : State) : State :=
  { s with status := s.status.map (fun e => (e.1, e.2.boundary)) }

/-! ## Counters -/

/-- The S-kind counters that are registers, by address (R399). -/
def cAckStale : Nat := regAddr 1 0x30
def cUnmapped : Nat := regAddr 1 0x34
def cNoticeDrop : Nat := regAddr 1 0x38
def cResend : Nat := regAddr 2 0x30
def cDup : Nat := regAddr 2 0x34
def cAbandon : Nat := regAddr 2 0x38
def cAuthFail : Nat := regAddr 2 0x3C
def cRefuse (r : Nat) : Nat := regAddr 2 (0x40 + 4 * r)
def cKeyFail : Nat := regAddr 2 0x54
def cIntakeDrop : Nat := regAddr 2 0x58
def cPoliced : Nat := regAddr 3 0x30
def cFlush : Nat := regAddr 3 0x34
def cLate : Nat := regAddr 5 0x30
def cDefer : Nat := regAddr 5 0x34
def cRefused : Nat := regAddr 5 0x38
def cStale : Nat := regAddr 6 0x30
def cReissue : Nat := regAddr 6 0x34
def cOrphan : Nat := regAddr 6 0x38
def cHandoff : Nat := regAddr 6 0x3C
def cRehome : Nat := regAddr 6 0x40
def cCow : Nat := regAddr 7 0x30
def cSealLate : Nat := regAddr 7 0x34
def cStaleWrite : Nat := regAddr 7 0x38
def cCe : Nat := regAddr 8 0x30
def cUe : Nat := regAddr 8 0x34
def cRetry : Nat := regAddr 8 0x38
def cPromote : Nat := regAddr 8 0x3C
def cDemote : Nat := regAddr 8 0x40
def cWriteback : Nat := regAddr 8 0x44
def cDamaged : Nat := regAddr 9 0x40
def cRebuild : Nat := regAddr 9 0x44
def cScoreSat : Nat := regAddr 10 0x308
def cOutSat : Nat := regAddr 10 0x30C
def cNonfinite : Nat := regAddr 10 0x310
def cAttnEmpty : Nat := regAddr 10 0x314
def cRingLate : Nat := regAddr 10 0x404
def cRingDup : Nat := regAddr 10 0x408
def cRingStale : Nat := regAddr 10 0x40C
def cSwap : Nat := regAddr 11 0x30
def cWLate : Nat := regAddr 11 0x34
def cSpill : Nat := regAddr 11 0x38
def cWDefer : Nat := regAddr 11 0x3C
def cRegRefuse : Nat := regAddr 11 0x40
def cKeyRefuse : Nat := regAddr 12 0x30
def cSpdmError : Nat := regAddr 12 0x34
def cMismatch : Nat := regAddr 13 0x30
def cShadowSkip : Nat := regAddr 13 0x34
def cCmCe : Nat := regAddr 13 0x38
def cQuarantine : Nat := regAddr 13 0x3C
def cCkptSkip : Nat := regAddr 13 0x44
def cPowerOver : Nat := regAddr 13 0x50
def cJournalLost : Nat := regAddr 13 0x610

/-- All ones of an S-kind counter. -/
def sMax : Nat := 0xFFFFFFFF

/-- The value held: one above all ones means all ones with SATURATED already raised. -/
def counterRaw (s : State) (a : Nat) : Nat := Tab.getD s.counters a 0

/-- A counter as read. -/
def counter (s : State) (a : Nat) : Nat := min (counterRaw s a) sMax

/-- HLT_COUNTER_LAST for a WRAP (`sat` false) or SATURATED of the counter at `a`; the status bit unless
COUNTER_EVENTS = MASKED (R317, R320, R384). -/
def counterEvent (sat : Bool) (block offset : Nat) (s : State) : State :=
  let s := { s with hlt := { s.hlt with
    counterLast := b2n sat * 2 ^ 31 + block % 16 * 2 ^ 24 + offset % 2 ^ 20 } }
  if s.stw.charter.counterEvents = 1 then s else raise (if sat then .saturated else .wrap) s

/-- Count `n` more in the S-kind counter at `a` (R317). -/
def bump (a n : Nat) (s : State) : State :=
  let v := counterRaw s a
  if v > sMax then s
  else if v + n ≤ sMax then { s with counters := Tab.put a (v + n) s.counters }
  else counterEvent true (a / 0x100000) (a % 0x100000)
    { s with counters := Tab.put a (sMax + 1) s.counters }

/-- An S-kind counter of a record: its next value (R317). -/
def sNext (v n : Nat) : Nat := if v + n ≤ sMax then v + n else sMax + 1

/-- Raise SATURATED where a record's counter first fails to count. -/
def sEvent (old new block offset : Nat) (s : State) : State :=
  if old ≤ sMax && new > sMax then counterEvent true block offset s else s

/-- A record's S-kind counter as read. -/
def sRead (v : Nat) : Nat := min v sMax

/-- Raise WRAP where a W-kind total passed a multiple of 2^64 (R317). -/
def wEvent (old new block offset : Nat) (s : State) : State :=
  if new / 2 ^ 64 > old / 2 ^ 64 then counterEvent false block offset s else s

/-- The 64-bit count and the 16-bit wrap count of a W-kind total (R317). -/
def wCount (v : Nat) : Nat := v % 2 ^ 64
def wWraps (v : Nat) : Nat := v / 2 ^ 64 % 2 ^ 16

end Sys2Proof.Machine
end

