-- ==== Sys2Proof/Machine/Ops.lean ====
section
/-! DEFINITION. The named operations over memory, free values, accounting, weir queues, outgoing messages and
ring completions, shared by all commands. -/

namespace Sys2Proof.Machine

/-! ## Memory -/

/-- What a byte of memory that nothing has written reads as (DESIGN CHOICE, log 2). -/
def memDefault : Byte := 0

/-- One byte of memory. -/
def memRead (a : Nat) : List Host.Cell → Byte
  | [] => memDefault
  | (i, b) :: t => if i = a then b else memRead a t

/-- Write one byte, keeping the canonical form. -/
def memPut (a : Nat) (b : Byte) : List Host.Cell → List Host.Cell
  | [] => if b = memDefault then [] else [(a, b)]
  | (i, c) :: t =>
    if a < i then (if b = memDefault then (i, c) :: t else (a, b) :: (i, c) :: t)
    else if a = i then (if b = memDefault then t else (a, b) :: t)
    else (i, c) :: memPut a b t

/-- Write bytes from address `a` up, keeping the canonical form. -/
def memWrite (a : Nat) (bs : List Byte) (m : List Host.Cell) : List Host.Cell :=
  m.filter (fun c => decide (c.1 < a)) ++
    ((List.range' a bs.length).zip bs).filter (fun c => c.2 ≠ memDefault) ++
    m.filter (fun c => decide (a + bs.length ≤ c.1))

/-- Read `n` bytes from address `a` up. -/
def memBytes (m : List Host.Cell) (a n : Nat) : List Byte :=
  (List.range n).map (fun i => memRead (a + i) (Tab.part a n m))

/-- The canonical form of memory: addresses rise, and no entry holds what an unlisted address reads as. -/
def Memory.wf : List Host.Cell → Bool
  | [] => true
  | [(_, b)] => b != memDefault
  | (i, b) :: (j, c) :: t => b != memDefault && decide (i < j) && Memory.wf ((j, c) :: t)

/-- Read bytes of the part's memory. -/
def readMem (s : State) (a n : Nat) : List Byte := memBytes s.mem a n

/-- Write bytes of the part's memory. -/
def writeMem (a : Nat) (bs : List Byte) (s : State) : State := { s with mem := memWrite a bs s.mem }

/-- An address of host memory inside `mem` (DESIGN CHOICE, log 3). -/
def hostAddr (a : Nat) : Nat := 2 ^ 64 + a

/-- Within HDM (R209, R359). -/
def inHdm (a n : Nat) : Bool := decide (Config.hdmBase ≤ a) && decide (a + n ≤ Config.hdmBase + Config.hdmSize)

/-- The RSVD region of HDM: reads zero, writes ignored (R359). -/
def hdmRsvd (a : Nat) : Bool :=
  decide (Config.hdmBase + 0x1A40000 ≤ a) && decide (a < Config.hdmBase + 0x2000000)

/-- In the command data area (R359, R362). -/
def inCommandArea (a n : Nat) : Bool :=
  decide (Config.hdmBase + 0x2000000 ≤ a) && decide (a + n ≤ Config.hdmBase + 0x40000000)

/-- An address that an agent outside the module can write: HDM, tier 2, host memory. -/
def outsideWritable (a : Nat) : Bool :=
  (inHdm a 1 && !hdmRsvd a) || (decide (Config.cxlBase ≤ a) && decide (a < 2 * Config.cxlBase)) ||
  decide (2 ^ 64 ≤ a)

/-- HDM answers from SERVICE on (R394, R395). -/
def hdmOn (s : State) : Bool := s.stw.boot == .service

/-- Bytes placed from outside. -/
def place (p : Placed) (s : State) : State :=
  if hdmOn s then
    { s with mem := (p.filter (fun c => outsideWritable c.1)).foldl (fun m c => memPut c.1 c.2 m) s.mem }
  else s

/-! ## Free values -/

/-- Draw a free number below `n` (0 when `n` is 0): which of `n` equally allowed things the part takes. -/
def freeBelow (n : Nat) (s : State) : Nat × State :=
  (Config.freeNat s.freeCtr % n, { s with freeCtr := s.freeCtr + 1 })

/-- Draw a free member of a list, `d` for none. -/
def freeOf (l : List Nat) (d : Nat) (s : State) : Nat × State :=
  (l.getD (freeBelow l.length s).1 d, (freeBelow l.length s).2)

/-- Draw a free unused key below `n`: the candidate that the free value names, or the first unused key after
it. -/
def freeSlot (used : Nat → Bool) (n : Nat) (s : State) : Option Nat × State :=
  let start := (freeBelow n s).1
  let s := (freeBelow n s).2
  ((firstFrom (fun k => !used k) start (n - start)).or (firstFrom (fun k => !used k) 0 start), s)

/-! ## Time -/

/-- The module runs in real time; in replay time states, and what is late, come from records (R333, R334). -/
def liveTime (s : State) : Bool := s.stw.charter.replay == 0

/-- Advance the counter to an instant not before now (R50). -/
def setNow (t : Nat) (s : State) : State := { s with tmu := { s.tmu with now := max s.tmu.now t } }

/-- Step period in ns. -/
def periodNs (s : State) : Nat := s.tmu.period * 1000

/-- Grid epoch in ns. -/
def epochNs (s : State) : Nat := s.tmu.epoch * 1000000000

/-- The step number at time `t` (R57). -/
def stepAt (s : State) (t : Nat) : Nat := if t < epochNs s then 0 else (t - epochNs s) / periodNs s % 2 ^ 48

/-- The current step number (TMU_STEP). -/
def stepNo (s : State) : Nat := stepAt s s.tmu.now

/-- In SERVICE (R395). -/
def inService (s : State) : Bool := s.stw.boot == .service

/-- The module takes part in service and is powered. -/
def roleP (s : State) : Bool := s.stw.charter.role == 0
def roleG (s : State) : Bool := s.stw.charter.role == 1
def roleC (s : State) : Bool := s.stw.charter.role == 2

/-- A received step number precedes the one held, by serial-number arithmetic of 48 bits (R58, R319). -/
def stepOlder (received held : Nat) : Bool :=
  let d := (held + 2 ^ 48 - received % 2 ^ 48) % 2 ^ 48
  decide (0 < d) && decide (d ≤ 2 ^ 47)

/-- The boundary that a received step number names, or the next one where it is past (R58). -/
def stepFrom (s : State) (received : Nat) : Nat := if stepOlder (stepNo s) received then received else stepNo s + 1

/-! ## Accounting (R309 to R311) -/

/-- The counter of R309 order `k` (0–8). -/
def Acct.get (a : Acct) : Nat → Nat
  | 0 => a.cycles
  | 1 => a.mxIssue
  | 2 => a.apIssue
  | 3 => a.gddrBytes
  | 4 => a.t2Bytes
  | 5 => a.fabOut
  | 6 => a.fabIn
  | 7 => a.energy / 65536
  | _ => a.tokens

/-- Count `n` in the counter of R309 order `k`, with its energy (R311). -/
def Acct.add (a : Acct) (k n : Nat) : Acct :=
  match k with
  | 0 => { a with cycles := a.cycles + n, energy := a.energy + 25600000 * n }
  | 1 => { a with mxIssue := a.mxIssue + n, energy := a.energy + 18790482 * n }
  | 2 => { a with apIssue := a.apIssue + n, energy := a.energy + 16106127 * n }
  | 3 => { a with gddrBytes := a.gddrBytes + n, energy := a.energy + 3072000 * n }
  | 4 => { a with t2Bytes := a.t2Bytes + n, energy := a.energy + 5760000 * n }
  | 5 => { a with fabOut := a.fabOut + n, energy := a.energy + 3481600 * n }
  | 6 => { a with fabIn := a.fabIn + n, energy := a.energy + 3481600 * n }
  | _ => { a with tokens := a.tokens + n }

/-- The account of a dike. -/
def acctOf (s : State) (d : Nat) : Acct := Tab.getD s.hlt.acct d {}

/-- Set the account of a dike. -/
def setAcct (d : Nat) (a : Acct) (s : State) : State :=
  { s with hlt := { s.hlt with acct := Tab.put d a s.hlt.acct } }

/-- Charge `n` of kind `k` to dike `d`; a counter that passes 2^64 raises WRAP (R317). -/
def charge (d k n : Nat) (s : State) : State :=
  let a := acctOf s d
  let b := a.add k n
  let s := setAcct d b s
  let s := wEvent (a.get k) (b.get k) 13 (d * 16 + k) s
  wEvent (a.get 7) (b.get 7) 13 (d * 16 + 7) s

/-- Bytes read from or written to a tier are charged to dike `d`: those of GDDR7, or of tier 2 in lines of 256 B; buffer
SRAM is not counted (R309). -/
def chargeTier (t : Tier) (d n : Nat) (s : State) : State :=
  match t with
  | .gddr => charge d 3 n s
  | .cxl => charge d 4 (cdiv n 256 * 256) s
  | .sram => s

/-- Split `x` over rows of several dikes (R310): each its share rounded down, the rest to dike 0. -/
def chargeSplit (k x : Nat) (dikes : List Nat) (s : State) : State :=
  let n := dikes.length
  let ds := distinct dikes
  let share := fun d => x * (dikes.filter (· = d)).length / n
  let s := ds.foldl (fun s d => charge d k (share d) s) s
  charge 0 k (x - (ds.map share).sum) s

/-! ## Weir queues (R274 to R280) -/

/-- Queue of dike `d`, sub-queue `k` (R274). -/
def dikeQueue (d k : Nat) : Nat := 256 + 15 * (d - 1) + k

/-- A queue number that is assigned (R274). -/
def queueAssigned (q : Nat) : Bool := decide (q < 3) || (decide (256 ≤ q) && decide (q ≤ 4080))

/-- Dike of a queue, 0 for queues 0–2 (R274). -/
def queueDike (q : Nat) : Nat := if 256 ≤ q ∧ q ≤ 4080 then (q - 256) / 15 + 1 else 0

/-- Traffic class of a lease class (R275). -/
def leaseClass (c : Nat) : Nat := if c = 0 then 4 else if c = 1 then 3 else 2

/-- Default quantum of a lease class (R275). -/
def leaseQuantum (c : Nat) : Nat := if c = 0 then 16384 else if c = 1 then 4096 else 1024

/-- The traffic class of a queue (R275); a dike without a lease has class 0. -/
def queueClass (s : State) (q : Nat) : Nat :=
  if q = 0 then 7 else if q = 1 then 6 else if q = 2 then 1
  else match Tab.look (queueDike q) s.sec.leases with
    | some l => leaseClass l.cls
    | none => 0

/-- A queue's record; CONTROL, STEP and DURABLE start enabled, DURABLE with its default quantum (R275). -/
def queueOf (s : State) (q : Nat) : WQueue :=
  (Tab.look q s.wei.queues).getD
    (if q < 2 then { enable := true } else if q = 2 then { enable := true, quantum := 4096 } else {})

/-- Set a queue's record. -/
def setQueue (q : Nat) (w : WQueue) (s : State) : State :=
  { s with wei := { s.wei with queues := Tab.put q w s.wei.queues } }

/-- Packets of a queue on a port. -/
def WQueue.on (w : WQueue) (p : Nat) : List Frame := Tab.getD w.inst p []

/-- Packets of a queue over all ports (QUEUED). -/
def WQueue.queued (w : WQueue) : Nat := ((Tab.vals w.inst).map List.length).sum

/-- V: the time of the latest fine tick, in 2^−16 ns (R278). -/
def vTime (now : Nat) : Nat := now / 256 * 256 * 65536

/-- The active list of a port. -/
def activeOf (s : State) (p : Nat) : List Nat := Tab.getD s.wei.active p []

/-- Set the active list of a port. -/
def setActive (p : Nat) (l : List Nat) (s : State) : State :=
  { s with wei := { s.wei with active := Tab.put p l s.wei.active } }

/-- Whether DRR serves the queue: DURABLE and dike queues (R276). -/
def isDrr (q : Nat) : Bool := decide (2 ≤ q)

/-- The queue's eligible time has come (R278). -/
def WQueue.due (w : WQueue) (now : Nat) : Bool := w.rate == 0 || decide (w.e ≤ now * 65536)

/-- Where a queue whose time has not come goes on the wheel (R279). -/
def wheelPlace (e now : Nat) : Pacing :=
  if e < vTime now + 1048576 * 65536 then .fine (e / 65536 / 256 % 4096)
  else .coarse (e / 65536 / 1048576 % 4096)

/-- The queue's instance on port `p` joins the active list at the tail, with fresh set (R277). -/
def joinActive (q p : Nat) (s : State) : State :=
  let w := queueOf s q
  if (w.on p).isEmpty || !w.enable || (activeOf s p).contains q then s
  else
    let s := setQueue q { w with fresh := (w.fresh.filter (· ≠ p)) ++ [p] } s
    setActive p (activeOf s p ++ [q]) s

/-- All instances of a queue join their active lists. -/
def joinAll (q : Nat) (s : State) : State := (List.range 8).foldl (fun s p => joinActive q p s) s

/-- All instances of a queue leave their active lists, keeping their deficits. -/
def leaveAll (q : Nat) (s : State) : State :=
  (List.range 8).foldl (fun s p => setActive p ((activeOf s p).filter (· ≠ q)) s) s

/-- The queue is tested (R278): eligible, its instances join; otherwise they leave and it enters the wheel. -/
def testQueue (q : Nat) (s : State) : State :=
  let w := queueOf s q
  if w.due s.tmu.now then joinAll q (setQueue q { w with pacing := .eligible } s)
  else leaveAll q (setQueue q { w with pacing := wheelPlace w.e s.tmu.now } s)

/-- A packet joins the queue's instance on a port (R274, R277, R280). -/
def enqueue (q p : Nat) (f : Frame) (s : State) : State :=
  let w := queueOf s q
  let wakes := w.queued == 0
  let w := if wakes && isDrr q then { w with e := max w.e (vTime s.tmu.now) } else w
  let first := (w.on p).isEmpty
  let w := { w with inst := Tab.put p (w.on p ++ [f]) w.inst
                    deficit := if first then Tab.put p 0 w.deficit else w.deficit }
  let s := setQueue q w s
  if !isDrr q then s
  else if wakes then testQueue q s
  else if first && w.pacing == .eligible then joinActive q p s
  else s

/-! ## Ports (R253 to R255) -/

/-- Record of a port. -/
def portOf (s : State) (p : Nat) : PortRec := Tab.getD s.fab.ports p {}

/-- Set the record of a port. -/
def setPort (p : Nat) (r : PortRec) (s : State) : State :=
  { s with fab := { s.fab with ports := Tab.put p r s.fab.ports } }

/-- A port in service (R255). -/
def portUp (s : State) (p : Nat) : Bool := (portOf s p).up && !(portOf s p).withdrawn

/-- The next port in service from `p` in rotation; `p` itself where none is. -/
def nextPort (s : State) (p : Nat) : Nat :=
  (((List.range 8).map (fun i => (p + i) % 8)).find? (portUp s)).getD (p % 8)

/-! ## Outgoing messages (R261) -/

/-- Largest payload of a packet (R256); the division the model chooses for messages that R240 does not pack. -/
def packetBytes : Nat := 4112

/-- Bytes of one message. -/
def OutMsg.frame (m : OutMsg) (i : Nat) (destPort : Nat) (flags : Nat) : Frame :=
  let p := m.packets.getD i (0, [])
  { entropy := crc32c (le 4 m.seq ++ le 2 i) % 65536, opcode := m.opcode,
    flags := (if m.notify then 1 else 0) + flags, dike := m.dike, keyIndex := 0, cls := 0, dest := m.dest,
    destPort := destPort, window := m.window, gen := m.gen, key := m.key, winOffset := m.winOffset, seq := m.seq,
    msgLen := m.msgLen, index := i, count := m.packets.length, offset := p.1, payload := p.2, nonce := 0 }

/-- Rotation of a tracking die: next port and next destination address, each advanced (R261). -/
def rotate (die : Nat) (s : State) : Nat × Nat × State :=
  let p := nextPort s (Tab.getD s.fab.rotation die 0)
  let d := Tab.getD s.fab.destRotation die 0
  (p, d, { s with fab := { s.fab with
    rotation := Tab.put die ((p + 1) % 8) s.fab.rotation
    destRotation := Tab.put die ((d + 1) % 8) s.fab.destRotation } })

/-- Put packet `i` of a message into its queue, on the next port of its die's rotation. -/
def queuePacket (m : OutMsg) (i flags : Nat) (s : State) : State :=
  let r := rotate (m.dest % 4) s
  enqueue m.queue r.1 (m.frame i r.2.1 flags) r.2.2

/-- A message takes a slot of its die and its packets are queued. -/
def startMsg (m : OutMsg) (s : State) : State :=
  let s := { s with fab := { s.fab with
    out := s.fab.out ++ [m], peak := max s.fab.peak (s.fab.out.length + 1) } }
  (List.range m.packets.length).foldl (fun s i => queuePacket m i 0 s) s

/-- A slot of the message's die is free for it: 4,096 in all, 2,048 of them for charged messages only (R261). -/
def slotFree (s : State) (m : OutMsg) : Bool :=
  let mine := s.fab.out.filter (fun o => o.dest % 4 == m.dest % 4)
  decide (mine.length < 4096) && (m.charged || decide ((mine.filter (fun o => !o.charged)).length < 2048))

/-- Start a message, or let it wait for a slot (R261). -/
def submitMsg (m : OutMsg) (s : State) : State :=
  if slotFree s m then startMsg m s
  else { s with fab := { s.fab with waiting := s.fab.waiting ++ [m] } }

/-- Start the waiting messages that now find a slot, in their order. -/
def startWaiting (s : State) : State :=
  s.fab.waiting.foldl (fun s m => submitMsg m s) { s with fab := { s.fab with waiting := [] } }

/-- A tracked message ends: its slot is given up. Packets of it that are still queued go out. -/
def endMsg (dest seq : Nat) (s : State) : State :=
  startWaiting { s with fab := { s.fab with
    out := s.fab.out.filter (fun o => !(o.dest == dest && o.seq == seq)) } }

/-- The MSG_SEQ of the next message to a node (R256). -/
def takeSeq (dest : Nat) (s : State) : Nat × State :=
  let n := Tab.getD s.fab.nextSeq dest 0
  (n, { s with fab := { s.fab with nextSeq := Tab.put dest ((n + 1) % 2 ^ 32) s.fab.nextSeq } })

/-- Offsets of consecutive pieces. -/
def offsets : Nat → List (List Byte) → List (Nat × List Byte)
  | _, [] => []
  | o, b :: t => (o, b) :: offsets (o + b.length) t

/-- The digest of one message (R331). -/
def digestAdd (l : List Digest) (node sseq : Nat) (bytes : List Byte) : List Digest :=
  let v := sseq * 2 ^ 32 + crc32c bytes
  if l.any (fun d => d.node == node) then
    l.map (fun d => if d.node = node then { d with count := d.count + 1, sum := (d.sum + v) % 2 ^ 64 } else d)
  else sortBy (fun a b => decide (a.node ≤ b.node)) (l ++ [{ node := node, count := 1, sum := v % 2 ^ 64 }])

/-- Nodes of the serving group, for what replay may send to (R333). -/
def groupNodes (s : State) : List Nat :=
  match s.slc.maps.getLast? with
  | none => []
  | some m =>
    match m.nodes.find? (fun n => n.node == s.fab.node) with
    | none => []
    | some me => (m.nodes.filter (fun n => n.group == me.group)).map (·.node)

/-- Send a module message in given pieces, as a SEND into the intake window of its dike, on STEP or, for
fragments, DURABLE (R257, R274). In replay nothing goes to a node outside the group; it counts in the digest that is
compared (R333, R335). -/
def sendPieces (dest dike : Nat) (charged : Bool) (carried : Carried) (sseq : Nat) (pieces : List (List Byte))
    (s : State) : State :=
  let bytes := pieces.flatten
  let s := { s with hlt := { s.hlt with digestOut := digestAdd s.hlt.digestOut dest sseq bytes } }
  if s.stw.charter.replay = 1 && !(groupNodes s).contains dest then s
  else
    let t := takeSeq dest s
    let s := t.2
    submitMsg { dest := dest, seq := t.1, opcode := 1, dike := dike, keyIndex := 0, window := dike, gen := 0,
                key := 0, winOffset := 0, notify := false, msgLen := bytes.length,
                queue := (match carried with | .fragment _ _ => 2 | _ => 1), charged := charged,
                carried := carried, packets := offsets 0 pieces, unsent := pieces.length, firstSent := none,
                latestSent := 0, answer := [], answerCount := 0 } s

/-- Send a module message that is not packed. -/
def sendMsg (dest dike : Nat) (carried : Carried) (sseq : Nat) (bytes : List Byte) (s : State) : State :=
  sendPieces dest dike true carried sseq (chunks packetBytes bytes) s

/-- Own source sequence for the next message (R143). -/
def takeSseq (s : State) : Nat × State :=
  (s.sqs.nextSseq, { s with sqs := { s.sqs with nextSseq := (s.sqs.nextSseq + 1) % 2 ^ 32 } })

/-- An untracked frame: ACK, NACK, or a packet of an answer. -/
def plainFrame (opcode dike dest window gen seq msgLen index count offset : Nat) (payload : List Byte) : Frame :=
  { entropy := crc32c (le 4 seq ++ le 2 index) % 65536, opcode := opcode, flags := 0, dike := dike, keyIndex := 0,
    cls := 0, dest := dest, destPort := 0, window := window, gen := gen, key := 0, winOffset := 0, seq := seq,
    msgLen := msgLen, index := index, count := count, offset := offset, payload := payload, nonce := 0 }

/-- Queue an untracked frame. -/
def queueFrame (q : Nat) (f : Frame) (s : State) : State :=
  let r := rotate (f.dest % 4) s
  enqueue q r.1 { f with destPort := r.2.1 } r.2.2

/-! ## Ring completions (R364) -/

/-- Record of a host ring. -/
def ringOf (s : State) (r : Nat) : Ring := Tab.getD s.hif.rings r {}

/-- Set the record of a host ring. -/
def setRing (r : Nat) (g : Ring) (s : State) : State :=
  { s with hif := { s.hif with rings := Tab.put r g s.hif.rings } }

/-- Entries of a ring: LOG2_SIZE clamped to 6–12 (R375). -/
def Ring.size (g : Ring) : Nat := 2 ^ (max 6 (min 12 (bitsOf g.ctrl 27 24)))

/-- ENABLE, LOCATION, PRIV, TENANT of a ring. -/
def Ring.enabled (g : Ring) : Bool := bitOf g.ctrl 31
def Ring.atHost (g : Ring) : Bool := bitOf g.ctrl 30
def Ring.isDike (g : Ring) : Bool := bitOf g.ctrl 28
def Ring.tenant (g : Ring) : Nat := bitsOf g.ctrl 23 16

/-- Where entry `i` of the submission ring lies (R359, R362). -/
def sqEntryAddr (r : Nat) (g : Ring) (i : Nat) : Nat :=
  if g.atHost then hostAddr (g.sqBase + 64 * i) else Config.hdmBase + r * 0x40000 + 64 * i

/-- Where entry `i` of the completion ring lies (R359, R362). -/
def cqEntryAddr (r : Nat) (g : Ring) (i : Nat) : Nat :=
  if g.atHost then hostAddr (g.cqBase + 32 * i) else Config.hdmBase + 0x1000000 + r * 0x20000 + 32 * i

/-- A completion slot is free beyond those reserved (R363). -/
def Ring.hasSlot (g : Ring) : Bool := decide (g.held + g.reserved < g.size)

/-- A completion entry of 32 bytes (R364). -/
def completionBytes (kind status cause reason tag step opcode : Nat) (phase : Bool) (r0 r1 : Nat) : List Byte :=
  le 1 kind ++ le 1 status ++ le 1 cause ++ le 1 reason ++ le 4 tag ++ le 6 step ++ le 1 opcode ++
  le 1 (b2n phase) ++ le 8 r0 ++ le 8 r1

/-- Write an entry at the tail of a completion ring and send the ring's vector (R364, R374). -/
def postEntry (r : Nat) (mk : Bool → List Byte) (s : State) : State :=
  let g := ringOf s r
  let s := writeMem (cqEntryAddr r g g.cqTail) (mk g.phase) s
  let last := g.cqTail + 1 = g.size
  let s := setRing r { g with cqTail := if last then 0 else g.cqTail + 1
                              phase := if last then !g.phase else g.phase, held := g.held + 1 } s
  msix (32 + r) s

/-- The ring number of a command that a journal record brings in replay: its outcome goes to no ring (log 56). -/
def noRing : Nat := 64

/-- A taken command's outcome is known: its reserved slot is used, or under SILENT with DONE given back. -/
def complete (t : Ticket) (status cause reason r0 r1 : Nat) (s : State) : State :=
  if noRing ≤ t.ring then s else
  let g := ringOf s t.ring
  let s := setRing t.ring { g with reserved := g.reserved - 1 } s
  if t.silent && status = 0 then s
  else postEntry t.ring
    (fun ph => completionBytes 1 status cause reason t.tag (stepNo s) t.opcode ph r0 r1) s

/-- Statuses of a completion (R364). -/
def done (t : Ticket) (s : State) : State := complete t 0 0 0 0 0 s
def doneWith (t : Ticket) (r0 r1 : Nat) (s : State) : State := complete t 0 0 0 r0 r1 s
def refusedWith (t : Ticket) (cause : Nat) (s : State) : State := complete t 1 cause 0 0 0 s
def reasonWith (t : Ticket) (reason : Nat) (s : State) : State := complete t 2 0 reason 0 0 s
def abandoned (t : Ticket) (s : State) : State := complete t 3 0 0 0 0 s
def queueDisabled (t : Ticket) (s : State) : State := complete t 4 0 0 0 0 s
def malformed (t : Ticket) (s : State) : State := complete t 5 0 0 0 0 s

/-- Causes of a refusal (R364). -/
def causeRange : Nat := 1
def causeLimit : Nat := 2
def causeCache : Nat := 3
def causeBusy : Nat := 4
def causeVersions : Nat := 5
def causeUnknown : Nat := 6
def causeStale : Nat := 7
def causeAuth : Nat := 8
def causeEnvelope : Nat := 9
def causeOvercommit : Nat := 10
def causeRole : Nat := 11
def causeGrid : Nat := 12

/-- Reason codes (R156). -/
def rCapacity : Nat := 0x01
def rFreeboard : Nat := 0x02
def rQuota : Nat := 0x03
def rDeadline : Nat := 0x04
def rModel : Nat := 0x05
def rAdapter : Nat := 0x06
def rTimeLost : Nat := 0x07
def rDraining : Nat := 0x08
def rEpochStale : Nat := 0x09
def rKeyAbsent : Nat := 0x0A
def rParent : Nat := 0x0B
def rRevoked : Nat := 0x10
def rGeneration : Nat := 0x11
def rBounds : Nat := 0x12
def rRights : Nat := 0x13
def rDamaged : Nat := 0x20

/-- A notice is posted to a ring, or dropped when it is full (R364). -/
def notice (ring seq window gen offset len : Nat) (s : State) : State :=
  if (ringOf s ring).hasSlot then
    postEntry ring (fun ph => completionBytes 2 0 0 0 seq (stepNo s) 0x11 ph
      (window % 2 ^ 20 + gen % 2 ^ 12 * 2 ^ 32) (offset % 2 ^ 32 + len % 2 ^ 32 * 2 ^ 32)) s
  else raise .noticeDrop (bump cNoticeDrop 1 s)

end Sys2Proof.Machine
end

