-- ==== Sys2Proof/Machine/Arith.lean ====
section
/-! DEFINITION. The arithmetic of the engines, to the bit: element formats, exact reduction, rounding,
scores, the exponential, the soft maximum, VU steps, sampling, class F and the sampling generator
(R66 to R85, R96, R202, R323). -/

namespace Sys2Proof

/-- A binary fraction `m · 2^e`. -/
structure Dy where
  m : Int
  e : Int
  deriving DecidableEq, Repr

/-- Element formats (R66). -/
inductive Fmt where
  | e4m3 | e5m2 | fp16 | bf16 | fp32 | ss4 | ss6 | int8
  deriving DecidableEq, Repr

/-- Bits of the exponent field. -/
def Fmt.ebits : Fmt → Nat
  | .e4m3 => 4 | .e5m2 => 5 | .fp16 => 5 | .bf16 => 8 | .fp32 => 8 | .ss4 => 2 | .ss6 => 3 | .int8 => 0

/-- Bits of the mantissa field. -/
def Fmt.mbits : Fmt → Nat
  | .e4m3 => 3 | .e5m2 => 2 | .fp16 => 10 | .bf16 => 7 | .fp32 => 23 | .ss4 => 1 | .ss6 => 2 | .int8 => 7

/-- Exponent bias. -/
def Fmt.bias : Fmt → Int
  | .e4m3 => 7 | .e5m2 => 15 | .fp16 => 15 | .bf16 => 127 | .fp32 => 127 | .ss4 => 1 | .ss6 => 3 | .int8 => 0

/-- Bytes of one element in a layout of whole bytes (SS4 and SS6 are packed, R68). -/
def Fmt.size : Fmt → Nat
  | .fp16 => 2 | .bf16 => 2 | .fp32 => 4 | _ => 1

/-- The code of the largest finite value (R66). -/
def Fmt.maxCode : Fmt → Nat
  | .e4m3 => 0x7E | .e5m2 => 0x7B | .fp16 => 0x7BFF | .bf16 => 0x7F7F | .fp32 => 0x7F7FFFFF
  | .ss4 => 7 | .ss6 => 31 | .int8 => 127

/-- The canonical NaN (R74); for SS4 and SS6 the block's scale says it and the elements are zero. -/
def Fmt.nan : Fmt → Nat
  | .e4m3 => 0x7F | .e5m2 => 0x7E | .fp16 => 0x7E00 | .bf16 => 0x7FC0 | .fp32 => 0x7FC00000
  | .ss4 => 0 | .ss6 => 0 | .int8 => 0

/-- Whether a code is a NaN or an infinity (R66). -/
def Fmt.nonfinite (f : Fmt) (c : Nat) : Bool :=
  match f with
  | .e4m3 => c % 128 == 127
  | .ss4 | .ss6 | .int8 => false
  | _ => (c >>> f.mbits) % 2 ^ f.ebits == 2 ^ f.ebits - 1

/-- The value of a finite code. -/
def Fmt.value (f : Fmt) (c : Nat) : Dy :=
  match f with
  | .int8 => ⟨if c % 256 < 128 then (c % 256 : Nat) else (c % 256 : Nat) - 256, 0⟩
  | _ =>
    let x := (c >>> f.mbits) % 2 ^ f.ebits
    let man := c % 2 ^ f.mbits
    let neg := (c >>> (f.mbits + f.ebits)) % 2 == 1
    let sig : Nat := if x = 0 then man else man + 2 ^ f.mbits
    let ex : Int := (if x = 0 then 1 else (x : Int)) - f.bias - f.mbits
    ⟨if neg then -(sig : Int) else sig, ex⟩

/-- The value of a code, none for NaN and infinities. -/
def Fmt.decode (f : Fmt) (c : Nat) : Option Dy := if f.nonfinite c then none else some (f.value c)

namespace Dy

def isZero (a : Dy) : Bool := a.m == 0
def mul (a b : Dy) : Dy := ⟨a.m * b.m, a.e + b.e⟩
def scale (a : Dy) (k : Int) : Dy := ⟨a.m, a.e + k⟩
def neg (a : Dy) : Dy := ⟨-a.m, a.e⟩

/-- Exact sum. -/
def add (a b : Dy) : Dy :=
  if a.e ≤ b.e then ⟨a.m + b.m * 2 ^ (b.e - a.e).toNat, a.e⟩
  else ⟨a.m * 2 ^ (a.e - b.e).toNat + b.m, b.e⟩

def sub (a b : Dy) : Dy := add a b.neg

/-- ⌊log2 |x|⌋ of a nonzero value (R70). -/
def ex (a : Dy) : Int := (Nat.log2 a.m.natAbs : Int) + a.e

/-- Numerator of the value as a fraction. -/
def num (a : Dy) : Int := if a.e ≥ 0 then a.m * 2 ^ a.e.toNat else a.m

/-- Denominator of the value as a fraction. -/
def den (a : Dy) : Nat := if a.e ≥ 0 then 1 else 2 ^ (-a.e).toNat

/-- a ≤ b. -/
def le (a b : Dy) : Bool := (sub a b).m ≤ 0

/-- a < b. -/
def lt (a b : Dy) : Bool := (sub a b).m < 0

/-- trunc(x / 2^lsb), toward zero. -/
def truncAt (a : Dy) (lsb : Int) : Int :=
  if a.e ≥ lsb then a.m * 2 ^ (a.e - lsb).toNat else Int.tdiv a.m (2 ^ (lsb - a.e).toNat)

end Dy

/-- Exact reduction of a set of products in class N (R70). A product is given with the exponent bound
E(p) of its operands; zero products have none. -/
def reduceN (ps : List (Dy × Int)) : Dy :=
  match ps.filter (fun p => !p.1.isZero) with
  | [] => ⟨0, 0⟩
  | p :: t =>
    let emax := (p :: t).foldl (fun m q => max m q.2) p.2
    let lsb := emax - 109
    ⟨(p :: t).foldl (fun acc q => acc + q.1.truncAt lsb) 0, lsb⟩

/-- The product of two operand values with block scale exponents, and its bound E(p) (R70). -/
def product (a b : Dy) (s : Int) : Dy × Int :=
  ((a.mul b).scale s, if a.isZero || b.isZero then 0 else a.ex + b.ex + s)

/-- Round a quotient of naturals to nearest, ties to even. -/
def rneDiv (n d : Nat) : Nat :=
  if d = 0 then 0
  else
    let q := n / d
    let r := n % d
    if 2 * r > d then q + 1 else if 2 * r = d then q + q % 2 else q

/-- Round a signed quotient to nearest, ties to even. -/
def rneDivInt (n : Int) (d : Nat) : Int := if n < 0 then -(rneDiv n.natAbs d : Int) else rneDiv n.natAbs d

/-- ⌊log2 (n/d)⌋ for n, d > 0. -/
def log2Frac (n d : Nat) : Int :=
  let k : Int := (Nat.log2 n : Int) - Nat.log2 d
  let ge : Bool := if k ≥ 0 then n ≥ d * 2 ^ k.toNat else n * 2 ^ (-k).toNat ≥ d
  if ge then k else k - 1

/-- A rounded output element: its code and whether it saturated (R75). -/
structure Rounded where
  code : Nat
  sat : Bool
  deriving DecidableEq, Repr

/-- The code for a nonnegative fraction before the range is looked at: precision of the format,
exponent unbounded above (R75). -/
def roundMag (f : Fmt) (n d : Nat) : Nat :=
  if n = 0 then 0
  else
    let x := max (log2Frac n d) (1 - f.bias)
    let u := x - f.mbits
    let q := if u ≥ 0 then rneDiv n (d * 2 ^ u.toNat) else rneDiv (n * 2 ^ (-u).toNat) d
    ((x + f.bias).toNat <<< f.mbits) + q - 2 ^ f.mbits

/-- Round an exact fraction once into a format: to nearest, ties to even, saturating; a zero keeps
the sign of the value (R75). INT8 is two's complement and saturates at ±127. -/
def roundTo (f : Fmt) (n : Int) (d : Nat) : Rounded :=
  match f with
  | .int8 =>
    let q := rneDivInt n d
    if q > 127 then ⟨127, true⟩ else if q < -127 then ⟨129, true⟩ else ⟨(q % 256).toNat, false⟩
  | _ =>
    let c := roundMag f n.natAbs d
    let sgn := if n < 0 then 2 ^ (f.mbits + f.ebits) else 0
    if c > f.maxCode then ⟨sgn + f.maxCode, true⟩ else ⟨sgn + c, false⟩

/-- Round a binary fraction once (R75). -/
def Dy.round (f : Fmt) (a : Dy) : Rounded := roundTo f a.num a.den

/-- An output block in SS4 or SS6 (R76): its scale code and its element codes. -/
def roundShared (f : Fmt) (xs : List Dy) : Nat × List Rounded :=
  let big := xs.foldl (fun acc x => if Dy.lt acc ⟨x.m.natAbs, x.e⟩ then ⟨x.m.natAbs, x.e⟩ else acc) ⟨0, 0⟩
  let off : Int := if f = .ss4 then 2 else 4
  let e : Int := if big.isZero then 0 else max (-127) (min 127 (big.ex - off))
  ((e + 127).toNat, xs.map (fun x => (x.scale (-e)).round f))

/-! ### FP32 steps (R82): IEEE 754 binary32, to nearest, ties to even -/

namespace F32

def isNan (c : Nat) : Bool := (c >>> 23) % 256 == 255 && c % 2 ^ 23 != 0
def isInf (c : Nat) : Bool := (c >>> 23) % 256 == 255 && c % 2 ^ 23 == 0
def neg? (c : Nat) : Bool := c.testBit 31
def nan : Nat := 0x7FC00000
def inf (s : Bool) : Nat := if s then 0xFF800000 else 0x7F800000
def zero (s : Bool) : Nat := if s then 0x80000000 else 0
def isZero (c : Nat) : Bool := c % 2 ^ 31 == 0
def val (c : Nat) : Dy := Fmt.fp32.value c
def flip (c : Nat) : Nat := if neg? c then c - 2 ^ 31 else c + 2 ^ 31

/-- Round an exact nonzero fraction by IEEE 754; overflow gives an infinity. -/
def ofFrac (n : Int) (d : Nat) : Nat :=
  let c := roundMag .fp32 n.natAbs d
  let s := n < 0
  if c > 0x7F7FFFFF then inf s else (if s then 2 ^ 31 else 0) + c

def ofDy (a : Dy) : Nat := ofFrac a.num a.den

def add (a b : Nat) : Nat :=
  if isNan a || isNan b then nan
  else if isInf a then (if isInf b && neg? a != neg? b then nan else a)
  else if isInf b then b
  else
    let s := Dy.add (val a) (val b)
    if s.isZero then zero (neg? a && neg? b && isZero a && isZero b) else ofDy s

def sub (a b : Nat) : Nat := if isNan b then nan else add a (flip b)

def mul (a b : Nat) : Nat :=
  let s := neg? a != neg? b
  if isNan a || isNan b then nan
  else if isInf a || isInf b then (if isZero a || isZero b then nan else inf s)
  else if isZero a || isZero b then zero s
  else ofDy (Dy.mul (val a) (val b))

/-- a × b + c, exact, one rounding. -/
def fma (a b c : Nat) : Nat :=
  let s := neg? a != neg? b
  if isNan a || isNan b || isNan c then nan
  else if isInf a || isInf b then
    (if isZero a || isZero b then nan else if isInf c && neg? c != s then nan else inf s)
  else if isInf c then c
  else
    let r := Dy.add (Dy.mul (val a) (val b)) (val c)
    if r.isZero then zero (s && neg? c && (isZero a || isZero b) && isZero c) else ofDy r

def div (a b : Nat) : Nat :=
  let s := neg? a != neg? b
  if isNan a || isNan b then nan
  else if isInf a then (if isInf b then nan else inf s)
  else if isInf b then zero s
  else if isZero b then (if isZero a then nan else inf s)
  else if isZero a then zero s
  else
    let x := val a
    let y := val b
    ofFrac (x.num * y.den * (if y.num < 0 then -1 else 1)) (x.den * y.num.natAbs)

/-- Ordered less-than of two values that are not NaN; −0 < +0 (R82). -/
def lt (a b : Nat) : Bool :=
  let key : Nat → Int := fun c => if neg? c then -((c % 2 ^ 31 : Nat) : Int) - 1 else (c % 2 ^ 31 : Nat)
  key a < key b

/-- Exact maximum; any NaN gives the canonical NaN (R82). -/
def max2 (a b : Nat) : Nat := if isNan a || isNan b then nan else if lt a b then b else a

/-- Exact minimum. -/
def min2 (a b : Nat) : Nat := if isNan a || isNan b then nan else if lt b a then b else a

/-- The FP32 value nearest √(n/d), for n, d > 0, ties to even; it is rounded once, at the place of the last bit that FP32
keeps of it, subnormal values included. -/
def sqrtFrac (n d : Nat) : Nat :=
  let k := log2Frac n d
  let x := if k ≥ 0 then k / 2 else -((1 - k) / 2)
  let u := max (x - 23) (-149)
  -- ⌊√(n/d) / 2^u⌋ and the test of the half
  let nn := if u ≥ 0 then n else n * 4 ^ (-u).toNat
  let dd := if u ≥ 0 then d * 4 ^ u.toNat else d
  let q := Nat.sqrt (nn / dd)
  let half := dd * (2 * q + 1) ^ 2
  let up := half < 4 * nn ∨ (half = 4 * nn ∧ q % 2 = 1)
  ofDy ⟨if up then q + 1 else q, u⟩

/-- Canonical conversion of an FP32 value into a format (R75, R82, R84): a NaN gives the canonical NaN, an infinity saturates. -/
def toFmt (f : Fmt) (c : Nat) : Rounded :=
  if isNan c then ⟨f.nan, false⟩
  else if isInf c then ⟨(if neg? c then 2 ^ (f.mbits + f.ebits) else 0) + f.maxCode, true⟩
  else if f = .fp32 then ⟨c, false⟩
  else
    let r := (val c).round f
    if isZero c && neg? c then ⟨2 ^ (f.mbits + f.ebits), false⟩ else r

end F32

/-! ### The exponential and the soft maximum -/

/-- tab[j] = 2^(28 + j/64), nearest integer (R78). -/
def exp2Tab : List Nat :=
  [0x10000000, 0x102C9A3E, 0x1059B0D3, 0x10874518, 0x10B5586D, 0x10E3EC33, 0x111301D0, 0x11429AAF,
   0x1172B83C, 0x11A35BEB, 0x11D48731, 0x12063B88, 0x12387A6E, 0x126B4566, 0x129E9DF5, 0x12D285A7] ++
  [0x1306FE0A, 0x133C08B2, 0x1371A737, 0x13A7DB35, 0x13DEA64C, 0x14160A22, 0x144E0860, 0x1486A2B6,
   0x14BFDAD5, 0x14F9B277, 0x15342B57, 0x156F4737, 0x15AB07DD, 0x15E76F16, 0x16247EB0, 0x16623882] ++
  [0x16A09E66, 0x16DFB23C, 0x171F75E9, 0x175FEB56, 0x17A11474, 0x17E2F337, 0x18258999, 0x1868D99B,
   0x18ACE542, 0x18F1AE99, 0x193737B1, 0x197D82A0, 0x19C49183, 0x1A0C667B, 0x1A5503B2, 0x1A9E6B55] ++
  [0x1AE89F99, 0x1B33A2B8, 0x1B7F76F3, 0x1BCC1E90, 0x1C199BDE, 0x1C67F12E, 0x1CB720DD, 0x1D072D4A,
   0x1D5818DD, 0x1DA9E604, 0x1DFC9733, 0x1E502EE8, 0x1EA4AFA3, 0x1EFA1BEE, 0x1F50765B, 0x1FA7C182]

/-- EXP2F (R78). -/
def exp2f (f16 : Nat) : Nat :=
  let j := f16 >>> 10
  let r := f16 % 1024
  let y := (r * 0xB17217F8) >>> 16
  let y2 := (y * y) >>> 32
  let y3 := (y2 * y) >>> 32
  let p := 0x100000000 + y + (y2 >>> 1) + y3 / 6
  rneDiv (exp2Tab.getD j 0 * p) (2 ^ 40)

/-- A saturated 16.16 score and whether it saturated (R77). -/
def score16 (d scale : Dy) : Int × Bool :=
  let s := d.mul scale
  let v := rneDivInt (s.num * 65536) s.den
  if v > 2097151 then (2097151, true) else if v < -2097152 then (-2097152, true) else (v, false)

/-- A partial state of the soft maximum for one query row and head (R79, R95): `m` is empty before the
first live position; `nan` records a live position with a non-finite operand. -/
structure Partial where
  m : Option Int
  den : Int
  num : List Int
  nan : Bool
  deriving DecidableEq, Repr

/-- The empty state. -/
def Partial.empty (hd : Nat) : Partial := ⟨none, 0, List.replicate hd 0, false⟩

/-- One live position: its score and its value row. -/
structure LivePos where
  s16 : Int
  v : List Dy
  deriving DecidableEq, Repr

/-- w · v as an integer at weight 2^−100 (R79: v is a multiple of 2^−16). -/
def weigh (w : Nat) (v : Dy) : Int :=
  if v.e ≥ 0 then w * v.m * 2 ^ v.e.toNat else (w * v.m) / 2 ^ (-v.e).toNat

/-- ⌈s16 / 65536⌉. -/
def ceil16 (s : Int) : Int := -((-s) / 65536)

/-- Shift the running state to a higher maximum. -/
def Partial.rise (p : Partial) (m : Int) : Partial :=
  match p.m with
  | none => { p with m := some m }
  | some m0 =>
    if m > m0 then
      { p with m := some m, den := p.den / 2 ^ (m - m0).toNat, num := p.num.map (fun x => x / 2 ^ (m - m0).toNat) }
    else p

/-- The weight of a score relative to the running maximum `m` (R79). -/
def weightOf (m s16 : Int) : Nat :=
  let d := s16 - m * 65536
  let i := d / 65536
  exp2f (d % 65536).toNat * 2 ^ (i + 80).toNat

/-- One position joins the state. -/
def Partial.join (p : Partial) (m : Int) (q : LivePos) : Partial :=
  let w := weightOf m q.s16
  { p with den := p.den + w, num := p.num.zipWith (fun n v => n + weigh w v) q.v }

/-- Fold the live positions of one page or ring block in one pass (R79). -/
def Partial.fold (p : Partial) (live : List LivePos) : Partial :=
  match live with
  | [] => p
  | q :: t =>
    let top := t.foldl (fun a x => max a x.s16) q.s16
    let p1 := p.rise (ceil16 top)
    (q :: t).foldl (fun a x => a.join (p1.m.getD 0) x) p1

/-- Exact merge of two partial states (R96). -/
def Partial.merge (a b : Partial) : Partial :=
  match a.m, b.m with
  | none, _ => { b with nan := a.nan || b.nan }
  | _, none => { a with nan := a.nan || b.nan }
  | some ma, some mb =>
    let m := max ma mb
    let a' := a.rise m
    let b' := b.rise m
    { m := some m, den := a'.den + b'.den, num := a'.num.zipWith (· + ·) b'.num, nan := a.nan || b.nan }

/-- The output row of one query head (R80): codes, and how many saturated. -/
def Partial.output (f : Fmt) (p : Partial) : List Rounded :=
  if p.nan then p.num.map (fun _ => ⟨f.nan, false⟩)
  else if p.den = 0 then p.num.map (fun _ => ⟨0, false⟩)
  else p.num.map (fun n => roundTo f n p.den.natAbs)

/-! ### VU operations -/

/-- An element as an FP32 operand; a zero keeps its sign. -/
def elemF32 (fmt : Fmt) (c : Nat) : Nat :=
  let v := (fmt.decode c).getD ⟨0, 0⟩
  if v.isZero then F32.zero (c.testBit (fmt.mbits + fmt.ebits)) else F32.ofDy v

/-- RMS norm (R82): the products of the squares are reduced exactly, 1/√(r/n + eps) is correctly rounded, and two FP32 steps
follow. The root is a free value where eps is NaN or infinite or r/n + eps is not positive (DESIGN CHOICE, log 13). -/
def rmsNorm (xs gains : List Nat) (fmt : Fmt) (eps : Nat) : List Nat :=
  let vs := xs.map fmt.decode
  if vs.any (·.isNone) then xs.map (fun _ => F32.nan)
  else
    let r := reduceN (vs.map (fun v => let x := v.getD ⟨0, 0⟩; product x x 0))
    let n := xs.length
    let e := F32.val eps
    -- r/n + eps as a fraction
    let num := r.num * e.den + e.num * (r.den * n)
    let den := r.den * n * e.den
    let y := if F32.isNan eps || F32.isInf eps || num ≤ 0 then Config.openF32 num den
      else F32.sqrtFrac den num.natAbs
    (xs.zip gains).map (fun p => F32.mul (F32.mul (elemF32 fmt p.1) y) p.2)

/-- One term less of the alternating series of atan(1/k) at scale `2^q`. -/
def atanInv (k : Nat) : Nat → Nat → Int → Int → Int
  | 0, _, _, acc => acc
  | fuel + 1, i, t, acc =>
    let term := t / (2 * i + 1)
    atanInv k fuel (i + 1) (t / (k * k)) (if i % 2 = 0 then acc + term else acc - term)

/-- π at scale `2^q` (Machin's formula). -/
def piAt (q : Nat) : Int :=
  16 * atanInv 5 q 0 (2 ^ q / 5) 0 - 4 * atanInv 239 q 0 (2 ^ q / 239) 0

/-- The series of cosine (first term 1) or sine (first term x) at scale `2^q`. -/
def trigGo (q : Nat) (x2 : Int) : Nat → Nat → Int → Int → Int
  | 0, _, _, acc => acc
  | fuel + 1, k, t, acc =>
    trigGo q x2 fuel (k + 2) (-(t * x2 / 2 ^ q / ((k + 1) * (k + 2)))) (acc + t)

/-- FP32 cosine and sine of an exact binary fraction, evaluated with far more bits than any binary32
rounding case needs (R82; log 12). -/
def cosSin (x : Dy) : Nat × Nat :=
  if x.isZero then (0x3F800000, 0)
  else
    let lg := x.ex.natAbs
    let q := 320 + 3 * lg
    let fx : Int := if x.e + q ≥ 0 then x.m * 2 ^ (x.e + q).toNat else x.m / 2 ^ (-(x.e + q)).toNat
    let tau := 2 * piAt q
    let r0 := fx % tau
    let r := if 2 * r0 > tau then r0 - tau else r0
    let x2 := r * r / 2 ^ q
    let c := trigGo q x2 (q / 2) 0 (2 ^ q) 0
    let s := trigGo q x2 (q / 2) 1 r 0
    (F32.ofFrac c (2 ^ q), F32.ofFrac s (2 ^ q))

/-- Rotate one pair (R82, R94): each result exact, one rounding into the destination format; an operand that is not finite
propagates by IEEE 754. -/
def rotatePair (x y : Nat) (pos omega : Nat) (f : Fmt) : Rounded × Rounded :=
  if F32.isNan omega || F32.isInf omega then (⟨f.nan, false⟩, ⟨f.nan, false⟩)
  else
    let cs := cosSin ⟨(F32.val omega).m * pos, (F32.val omega).e⟩
    if F32.isNan x || F32.isInf x || F32.isNan y || F32.isInf y then
      (F32.toFmt f (F32.sub (F32.mul x cs.1) (F32.mul y cs.2)), F32.toFmt f (F32.add (F32.mul x cs.2) (F32.mul y cs.1)))
    else
    let c := F32.val cs.1
    let s := F32.val cs.2
    let a := F32.val x
    let b := F32.val y
    ((Dy.sub (a.mul c) (b.mul s)).round f, (Dy.add (a.mul s) (b.mul c)).round f)

/-! ### Sampling -/

/-- The value of draw `k` of a sequence with seed `s` (R323). -/
def draw (s k : Nat) : Nat :=
  let z0 : BitVec 64 := BitVec.ofNat 64 s + BitVec.ofNat 64 (k + 1) * 0x9E3779B97F4A7C15#64
  let z1 := (z0 ^^^ (z0 >>> 30)) * 0xBF58476D1CE4E5B9#64
  let z2 := (z1 ^^^ (z1 >>> 27)) * 0x94D049BB133111EB#64
  (z2 ^^^ (z2 >>> 31)).toNat

/-- The weight of one logit that is not excluded (R83, steps 4 and 5). -/
def logitWeight (z zmax cT : Nat) : Nat :=
  let s16 : Int :=
    if z = zmax || F32.isInf z then 0
    else if F32.isInf cT then -4194304
    else
      let p := (Dy.sub (F32.val z) (F32.val zmax)).mul (F32.val cT)
      max (-4194304) (min 0 (rneDivInt (p.num * 65536) p.den))
  exp2f (s16 % 65536).toNat * 2 ^ (s16 / 65536 + 64).toNat

/-- The shortest non-empty list of weights, in descending order, whose sum is at least P of the total. -/
def nucleusGo (p : Dy) (total : Nat) : List (Nat × Nat) → Nat → List (Nat × Nat)
  | [], _ => []
  | kw :: t, sum =>
    let sum' := sum + kw.2
    if Dy.le (Dy.mul p ⟨total, 0⟩) ⟨sum', 0⟩ then [kw] else kw :: nucleusGo p total t sum'

/-- The lowest kept id whose cumulative weight exceeds the target. -/
def pickGo (target : Nat) : List (Nat × Nat) → Nat → Nat
  | [], _ => 0
  | [kw], _ => kw.1
  | kw :: t, sum => if sum + kw.2 > target then kw.1 else pickGo target t (sum + kw.2)

/-- One sampled token from FP32 logits (R83), with the 64-bit random value `u`. -/
def sampleToken (logits : List Nat) (temperature topP topK u : Nat) : Nat :=
  let ids := (List.range logits.length).zip logits
  let anyPosInf := logits.any (fun z => z = 0x7F800000)
  let live := ids.filter (fun p => !F32.isNan p.2 && p.2 ≠ 0xFF800000 && (!anyPosInf || p.2 = 0x7F800000))
  match live with
  | [] => 0
  | p0 :: rest =>
    let zmax := rest.foldl (fun a p => F32.max2 a p.2) p0.2
    let t := if F32.isNan temperature || (F32.neg? temperature && !F32.isZero temperature) then 0 else temperature
    let isMax := fun (z : Nat) => z = zmax || (F32.isZero z && F32.isZero zmax)
    if F32.isZero t then ((live.filter (fun p => isMax p.2)).map (·.1)).headD 0
    else
      let cT := F32.div 0x3FB8AA3B t
      let ws := live.map (fun p => (p.1, logitWeight (if isMax p.2 then zmax else p.2) zmax cT))
      let desc := sortBy (fun a b => a.2 > b.2 || (a.2 = b.2 && a.1 ≤ b.1)) ws
      let kept := if topK = 0 || topK ≥ live.length then desc else desc.take topK
      let total := (kept.map (·.2)).sum
      let kept2 :=
        if F32.isNan topP || !F32.lt topP 0x3F800000 then kept
        else if F32.neg? topP || F32.isZero topP then kept.take 1
        else nucleusGo (F32.val topP) total kept 0
      let w := (kept2.map (·.2)).sum
      pickGo ((u * w) >>> 64) (sortBy (fun a b => a.1 ≤ b.1) kept2) 0

/-! ### Class F (R84, R85) -/

/-- One class F reduction: blocks of 32 products, each rounded, added in FP32 (R84). -/
def reduceF (ps : List Dy) : Nat :=
  (chunks 32 ps).foldl (fun acc blk =>
    F32.add acc (blk.foldl (fun part p => F32.add part (if p.isZero then 0 else F32.ofDy p)) 0)) 0

/-- exp2_f (R85); of a NaN it is NaN (DESIGN CHOICE, log 119). -/
def exp2F (x : Nat) : Nat :=
  if F32.isNan x then F32.nan
  else
    let s16 : Int :=
      if F32.isInf x then (if F32.neg? x then -4194304 else 0)
      else let v := F32.val x; max (-4194304) (min 0 (rneDivInt (v.num * 65536) v.den))
    F32.ofDy ⟨exp2f (s16 % 65536).toNat, s16 / 65536 - 20⟩

/-- The FP32 state of class F attention (R85). -/
structure PartialF where
  m : Option Nat
  den : Nat
  num : List Nat
  deriving DecidableEq, Repr

/-- Fold one page in class F: scores and value rows of its live positions, in position order (R85). -/
def PartialF.fold (p : PartialF) (live : List (Nat × List Nat)) : PartialF :=
  match live with
  | [] => p
  | q :: t =>
    let top := t.foldl (fun a x => F32.max2 a x.1) q.1
    let m' := match p.m with | none => top | some m => F32.max2 m top
    let p0 : PartialF := match p.m with
      | none => { m := some m', den := 0, num := p.num.map (fun _ => 0) }
      | some m =>
        let corr := exp2F (F32.sub m m')
        { m := some m', den := F32.mul p.den corr, num := p.num.map (F32.mul · corr) }
    (q :: t).foldl (fun a x =>
      let w := exp2F (F32.sub x.1 m')
      { a with den := F32.add a.den w, num := a.num.zipWith (fun n v => F32.add n (F32.mul w v)) x.2 }) p0

/-- The output row in class F (R85). -/
def PartialF.output (f : Fmt) (p : PartialF) : List Rounded :=
  match p.m with
  | none => p.num.map (fun _ => ⟨0, false⟩)
  | some _ => p.num.map (fun n => F32.toFmt f (F32.div n p.den))

end Sys2Proof
end

