-- ==== Sys2Proof/Machine/Scb.lean ====
section
/-! DEFINITION. Syndan compressed blocks: header, layouts, symbols, code tables, packing, the expander's
tests, the table build, and the erasure code (R229 to R242, R247, R248). -/

namespace Sys2Proof

/-- Header of a block (R229). -/
structure ScbHeader where
  kind : Nat
  layout : Nat
  tableId : Nat
  rawLen : Nat
  codedLen : Nat
  symbols : Nat
  check : Nat
  block : Nat
  tableTag : Nat
  deriving DecidableEq, Repr

/-- A block: its header and its payload. -/
structure Scb where
  h : ScbHeader
  payload : List Byte
  deriving DecidableEq, Repr

/-- A code table (R234): lengths of 270 symbols. -/
structure CodeTable where
  layout : Nat
  owner : Nat
  role : Nat
  lengths : List Nat
  tag : Nat
  deriving DecidableEq, Repr

/-- Header bytes 0–7 (R229). -/
def ScbHeader.front (h : ScbHeader) : List Byte :=
  le 1 (h.kind + 4 * h.layout) ++ le 1 h.tableId ++ le 2 h.rawLen ++ le 2 h.codedLen ++ le 2 h.symbols

/-- Header bytes 12–15 (R229). -/
def ScbHeader.back (h : ScbHeader) : List Byte := le 2 h.block ++ le 2 h.tableTag

/-- The header's 16 bytes (R229). -/
def ScbHeader.bytes (h : ScbHeader) : List Byte := h.front ++ le 4 h.check ++ h.back

/-- Read a header; none when an RSVD field is nonzero, KIND is 0b1x or LAYOUT 0b11x (R229). -/
def ScbHeader.read (bs : List Byte) : Option ScbHeader :=
  let b0 := fld bs 0 1
  let r := fld bs 2 2
  let c := fld bs 4 2
  let s := fld bs 6 2
  if bs.length < 16 || bitsOf b0 7 5 ≠ 0 || bitsOf b0 1 0 ≥ 2 || bitsOf b0 4 2 ≥ 6 || r ≥ 8192 || c ≥ 8192 || s ≥ 8192
  then none
  else some { kind := bitsOf b0 1 0, layout := bitsOf b0 4 2, tableId := fld bs 1 1, rawLen := r, codedLen := c,
              symbols := s, check := fld bs 8 4, block := fld bs 12 2, tableTag := fld bs 14 2 }

/-- The value CHECK must have over a payload in its present form (R230). -/
def ScbHeader.crc (h : ScbHeader) (payload : List Byte) : Nat := crc32c (h.front ++ h.back ++ payload)

/-- Bytes of one element of a layout (R231). -/
def layoutBytes (l : Nat) : Nat := if l = 2 || l = 3 then 2 else 1

/-- Width of the coded part (R231). -/
def layoutCoded (l : Nat) : Nat := match l with | 0 => 4 | 1 => 5 | 2 => 8 | 3 => 5 | 4 => 4 | _ => 8

/-- Width of the raw part (R231). -/
def layoutRaw (l : Nat) : Nat := match l with | 0 => 4 | 1 => 3 | 2 => 8 | 3 => 11 | _ => 0

/-- Mantissa bits below the exponent field. -/
def layoutMan (l : Nat) : Nat := match l with | 0 => 3 | 1 => 2 | 2 => 7 | 3 => 10 | _ => 0

/-- Elements of a raw block (R231). -/
def elements (l : Nat) (raw : List Byte) : List Nat :=
  if l = 4 then (raw.map (fun b => [b.toNat % 16, b.toNat / 16])).flatten
  else (chunks (layoutBytes l) raw).map unle

/-- Number of elements of `rawLen` bytes (R231). -/
def elementCount (l rawLen : Nat) : Nat := if l = 4 then 2 * rawLen else rawLen / layoutBytes l

/-- Coded part of an element. -/
def codedPart (l x : Nat) : Nat := if l ≥ 4 then x else (x >>> layoutMan l) % 2 ^ layoutCoded l

/-- Raw part: sign above mantissa. -/
def rawPart (l x : Nat) : Nat :=
  if l ≥ 4 then 0
  else (x >>> (layoutMan l + layoutCoded l)) * 2 ^ layoutMan l + x % 2 ^ layoutMan l

/-- Put the two parts together again. -/
def joinParts (l c r : Nat) : Nat :=
  if l ≥ 4 then c
  else (r >>> layoutMan l) * 2 ^ (layoutMan l + layoutCoded l) + c * 2 ^ layoutMan l + r % 2 ^ layoutMan l

/-- The run symbols of a maximal run of `n` zero elements: one for each set bit, highest first (R232). -/
def runSymbols (n : Nat) : List Nat :=
  ((List.range 14).reverse.filter (fun k => n.testBit k)).map (· + 256)

/-- The symbol sequence and the raw parts of the literals, in element order (R232). -/
def symbolsGo (l : Nat) : List Nat → Nat → List Nat × List Nat
  | [], z => (runSymbols z, [])
  | x :: t, z =>
    if x = 0 then symbolsGo l t (z + 1)
    else
      let r := symbolsGo l t 0
      (runSymbols z ++ codedPart l x :: r.1, rawPart l x :: r.2)

/-- Symbols and raw parts of a raw block. -/
def symbolsOf (l : Nat) (raw : List Byte) : List Nat × List Nat := symbolsGo l (elements l raw) 0

/-- Whether a symbol is in a layout's alphabet (R232). -/
def inAlphabet (l s : Nat) : Bool := if s ≥ 256 then s < 270 else s < 2 ^ layoutCoded l

/-- Number of symbols of length `n`. -/
def lengthCount (lens : List Nat) (n : Nat) : Nat := (lens.filter (· = n)).length

/-- First code of each length 1 to `n`, canonical (R235): pairs of length and first code. -/
def firstCodes (lens : List Nat) : Nat → Nat → Nat → List (Nat × Nat)
  | 0, _, _ => []
  | fuel + 1, n, code => (n, code) :: firstCodes lens fuel (n + 1) ((code + lengthCount lens n) * 2)

/-- The canonical codes: symbol, length, code (R235). -/
def canonical (lens : List Nat) : List (Nat × Nat × Nat) :=
  ((firstCodes lens 12 1 0).map (fun fc =>
    let syms := (List.range lens.length).filter (fun s => lens.getD s 0 = fc.1)
    (syms.zip (List.range syms.length)).map (fun p => (p.1, fc.1, fc.2 + p.2)))).flatten

/-- The code of a symbol. -/
def codeOf (codes : List (Nat × Nat × Nat)) (s : Nat) : Option (Nat × Nat) :=
  (codes.find? (fun c => c.1 = s)).map (·.2)

/-- Bits of a code, most significant first. -/
def msbBits (n v : Nat) : List Bool := (List.range n).reverse.map (fun i => v.testBit i)

/-- Pack bits into bytes, bit 7 first, zero padded (R233). -/
def packMsb (bits : List Bool) : List Byte :=
  (chunks 8 bits).map (fun c => BitVec.ofNat 8 ((List.range 8).foldl (fun a i => 2 * a + b2n (c.getD i false)) 0))

/-- Bits of a byte string, bit 7 first. -/
def unpackMsb (bs : List Byte) : List Bool := (bs.map (fun b => msbBits 8 b.toNat)).flatten

/-- The raw plane: one little-endian bit string of the raw parts (R233). -/
def rawPlane (w : Nat) (parts : List Nat) : List Byte :=
  let v := parts.foldr (fun p acc => p + 2 ^ w * acc) 0
  le (cdiv (parts.length * w) 8) v

/-- Lane streams 0 to 31 of a symbol sequence (R233). -/
def laneBits (codes : List (Nat × Nat × Nat)) (syms : List Nat) (j : Nat) : List Bool :=
  (((List.range syms.length).filter (fun i => i % 32 = j)).map (fun i =>
    match codeOf codes (syms.getD i 0) with
    | some (n, c) => msbBits n c
    | none => [])).flatten

/-- The coded payload of a block under a table (R233). -/
def codedPayload (t : CodeTable) (raw : List Byte) : List Byte :=
  let sr := symbolsOf t.layout raw
  let codes := canonical t.lengths
  let lanes := tabulate 32 (fun j => packMsb (laneBits codes sr.1 j))
  (lanes.map (fun s => le 2 s.length)).flatten ++ lanes.flatten ++ rawPlane (layoutRaw t.layout) sr.2

/-- Pack one raw block (R239): CODED when a table of its layout is given, every symbol has a code,
SYMBOLS ≤ RAW_LEN and CODED_LEN ≤ RAW_LEN − 64; RAW otherwise. CHECK is over the plaintext. -/
def packBlock (table : Option (Nat × CodeTable)) (layout index : Nat) (raw : List Byte) : Scb :=
  let rawBlock : Scb :=
    let h : ScbHeader := { kind := 0, layout := layout, tableId := 0, rawLen := raw.length, codedLen := raw.length,
                           symbols := 0, check := 0, block := index, tableTag := 0 }
    { h := { h with check := h.crc raw }, payload := raw }
  match table with
  | none => rawBlock
  | some (id, t) =>
    let syms := (symbolsOf layout raw).1
    let pay := codedPayload t raw
    if t.layout = layout && raw.length % layoutBytes layout = 0
       && syms.all (fun s => t.lengths.getD s 0 ≠ 0) && syms.length ≤ raw.length && pay.length + 64 ≤ raw.length
    then
      let h : ScbHeader := { kind := 1, layout := layout, tableId := id, rawLen := raw.length, codedLen := pay.length,
                             symbols := syms.length, check := 0, block := index, tableTag := t.tag }
      { h := { h with check := h.crc pay }, payload := pay }
    else rawBlock

/-- Cut raw data into blocks of 4,096 bytes and pack each (R239, R240). -/
def packAll (table : Option (Nat × CodeTable)) (layout : Nat) (raw : List Byte) : List Scb :=
  let bs := chunks 4096 raw
  (bs.zip (List.range bs.length)).map (fun p => packBlock table layout p.2 p.1)

/-- Causes of a damaged block (R241, CMP_DAMAGE_LAST). -/
inductive Damage where
  | check | header | table | long | short | padding
  deriving DecidableEq, Repr

/-- Code of a cause in CMP_DAMAGE_LAST (R252). -/
def Damage.code : Damage → Nat
  | .check => 1 | .header => 2 | .table => 3 | .long => 4 | .short => 5 | .padding => 6

/-- Decode one symbol from the bits of a lane: the symbol and the bits left; none where no code matches. -/
def decodeSymbol (codes : List (Nat × Nat × Nat)) (bits : List Bool) : Nat → Nat → Nat → Option (Nat × List Bool)
  | 0, _, _ => none
  | fuel + 1, n, v =>
    match bits.drop n with
    | [] => none
    | b :: _ =>
      let v' := 2 * v + b2n b
      match codes.find? (fun c => c.2.1 = n + 1 && c.2.2 = v') with
      | some c => some (c.1, bits.drop (n + 1))
      | none => decodeSymbol codes bits fuel (n + 1) v'

/-- What decoding has produced so far. -/
structure DecodeState where
  lanes : List (List Bool)
  out : List Nat
  raws : List Nat
  literals : Nat
  deriving DecidableEq, Repr

/-- Decode symbols `i`, `i + 1`, … until `m` elements are there (R241): none for a lane or raw plane that
ends too soon or a bit pattern with no code. -/
def decodeGo (codes : List (Nat × Nat × Nat)) (l m total : Nat) : Nat → Nat → DecodeState → Except Damage (DecodeState × Nat)
  | 0, i, st => if st.out.length = m then .ok (st, i) else .error .short
  | fuel + 1, i, st =>
    if st.out.length ≥ m then (if st.out.length = m then .ok (st, i) else .error .long)
    else if i ≥ total then .error .short
    else
      match decodeSymbol codes (st.lanes.getD (i % 32) []) 12 0 0 with
      | none => .error .short
      | some (s, rest) =>
        let st1 := { st with lanes := st.lanes.set (i % 32) rest }
        if s ≥ 256 then
          decodeGo codes l m total fuel (i + 1) { st1 with out := st1.out ++ List.replicate (2 ^ (s - 256)) 0 }
        else
          match st1.raws with
          | [] => if layoutRaw l = 0 then
                    decodeGo codes l m total fuel (i + 1) { st1 with out := st1.out ++ [s], literals := st1.literals + 1 }
                  else .error .short
          | r :: rs => decodeGo codes l m total fuel (i + 1)
              { st1 with out := st1.out ++ [joinParts l s r], raws := rs, literals := st1.literals + 1 }

/-- The bytes of elements of a layout. -/
def elementBytes (l : Nat) (xs : List Nat) : List Byte :=
  if l = 4 then (chunks 2 xs).map (fun p => BitVec.ofNat 8 (p.getD 0 0 + 16 * p.getD 1 0))
  else (xs.map (le (layoutBytes l))).flatten

/-- Lane streams cut out of a payload by the lane table. -/
def cutLanes : List Nat → List Byte → List (List Byte)
  | [], _ => []
  | n :: t, bs => bs.take n :: cutLanes t (bs.drop n)

/-- The tests of a block after CHECK (R241): the raw bytes, or the first test that fails. `owner` names the context a weight
or adapter plane is read for. `tables` gives the installed tables. -/
def expandBody (tables : Tab CodeTable) (owner : Option Nat) (b : Scb) : Except Damage (List Byte) :=
  let h := b.h
  if h.rawLen = 0 || h.rawLen > 4096 || h.codedLen ≠ b.payload.length || h.kind ≥ 2 || h.layout ≥ 6 then .error .header
  else if h.kind = 0 then
    (if h.codedLen = h.rawLen && h.tableId = 0 && h.symbols = 0 && h.tableTag = 0 then .ok b.payload else .error .header)
  else if h.symbols > h.rawLen || h.codedLen + 64 > h.rawLen || h.rawLen % layoutBytes h.layout ≠ 0 || h.tableId = 0
  then .error .header
  else
    match Tab.look h.tableId tables with
    | none => .error .table
    | some t =>
      if t.tag ≠ h.tableTag || t.layout ≠ h.layout || (match owner with | some c => t.owner ≠ c | none => false)
      then .error .table
      else
        let lens := (List.range 32).map (fun j => fld b.payload (2 * j) 2)
        let body := b.payload.drop 64
        let lanes := cutLanes lens body
        let plane := body.drop lens.sum
        let w := layoutRaw h.layout
        let v := unle plane
        let raws := if w = 0 then [] else (List.range (plane.length * 8 / w)).map (fun i => (v >>> (w * i)) % 2 ^ w)
        let m := elementCount h.layout h.rawLen
        match decodeGo (canonical t.lengths) h.layout m h.symbols (h.symbols + 1) 0
                { lanes := lanes.map unpackMsb, out := [], raws := raws, literals := 0 } with
        | .error d => .error d
        | .ok (st, used) =>
          if used ≠ h.symbols || st.lanes.any (fun l => l.length ≥ 8) then .error .long
          else if h.codedLen < 64 || lens.sum > h.codedLen - 64 || plane.length ≠ cdiv (st.literals * w) 8 ||
              v ≥ 2 ^ (st.literals * w) || st.lanes.any (fun l => l.any id)
          then .error .padding
          else .ok (elementBytes h.layout st.out)

/-- Expand a block (R241). -/
def expand (tables : Tab CodeTable) (owner : Option Nat) (b : Scb) : Except Damage (List Byte) :=
  if b.h.check ≠ b.h.crc b.payload then .error .check else expandBody tables owner b

/-- Expander cycles of a block at most (R242). -/
def expandCycles (h : ScbHeader) : Nat :=
  if h.kind = 0 then cdiv h.rawLen 64
  else max (cdiv h.symbols 32) (max (cdiv h.codedLen 64) (cdiv h.rawLen 128))

/-- A block as read: 16 header bytes and the payload in the form in which it is held. -/
abbrev RawBlock := List Byte × List Byte

/-- CODED_LEN of a header that no test has passed yet. -/
def headerLen (hb : List Byte) : Nat := fld hb 4 2 % 8192

/-- CHECK equals the CRC over header and payload as held (R230). -/
def RawBlock.checkOk (b : RawBlock) : Bool :=
  b.1.length == 16 && fld b.1 8 4 == crc32c (b.1.take 8 ++ (b.1.drop 12).take 4 ++ b.2)

/-- The block with CHECK computed over its payload as held (R220, R230). -/
def RawBlock.recheck (b : RawBlock) : RawBlock :=
  (b.1.take 8 ++ le 4 (crc32c (b.1.take 8 ++ (b.1.drop 12).take 4 ++ b.2)) ++ (b.1.drop 12).take 4, b.2)

/-- Expand a block in plaintext whose CHECK has passed. -/
def expandOpen (tables : Tab CodeTable) (owner : Option Nat) (b : RawBlock) : Except Damage (List Byte) :=
  match ScbHeader.read b.1 with
  | none => .error .header
  | some h => expandBody tables owner { h := h, payload := b.2 }

/-- Expand a block in plaintext as read: CHECK is the first test (R241). -/
def expandRaw (tables : Tab CodeTable) (owner : Option Nat) (b : RawBlock) : Except Damage (List Byte) :=
  if b.checkOk then expandOpen tables owner b else .error .check

/-- Cut a wire payload into blocks: each is its header followed by CODED_LEN bytes (R240). -/
def cutBlocks : Nat → List Byte → List RawBlock
  | 0, _ => []
  | fuel + 1, bs =>
    if bs.isEmpty then []
    else (bs.take 16, (bs.drop 16).take (headerLen bs)) :: cutBlocks fuel (bs.drop (16 + headerLen bs))

/-- A packed block as read. -/
def Scb.raw (b : Scb) : RawBlock := (b.h.bytes, b.payload)

/-- Blocks as they go on the wire (R240). -/
def wireBlocks (bs : List Scb) : List Byte := (bs.map (fun b => b.h.bytes ++ b.payload)).flatten

/-! ### Code table records (R234, R236) -/

/-- The LENGTHS field, two symbols a byte. -/
def lengthBytes (lens : List Nat) : List Byte :=
  (List.range 135).map (fun i => BitVec.ofNat 8 (lens.getD (2 * i) 0 + 16 * lens.getD (2 * i + 1) 0))

/-- TAG: low 16 bits of the CRC-32C of bytes 0 and 4–138 (R234). -/
def tableTag (layout : Nat) (lens : List Nat) : Nat := crc32c (le 1 layout ++ lengthBytes lens) % 65536

/-- The 144 bytes of a table record (R234). -/
def CodeTable.bytes (t : CodeTable) : List Byte :=
  le 1 t.layout ++ [0] ++ le 1 t.owner ++ le 1 t.role ++ lengthBytes t.lengths ++ le 2 t.tag ++ zeros 3

/-- Read a table record; none where it breaks the RANGE conditions of R236. -/
def CodeTable.read (bs : List Byte) : Option CodeTable :=
  let layout := fld bs 0 1
  let owner := fld bs 2 1
  let role := fld bs 3 1
  let lens := (List.range 270).map (fun s => let b := fld bs (4 + s / 2) 1; if s % 2 = 0 then b % 16 else b / 16)
  let kraft := (lens.map (fun n => if n = 0 then 0 else 2 ^ (12 - n))).sum
  if bs.length ≠ 144 || layout ≥ 6 || role ≥ 3 || owner ≥ 64 || !zeroAt bs 1 1 || !zeroAt bs 141 3
     || lens.any (· > 12) || kraft > 4096 || lens.all (· = 0)
     || (List.range 270).any (fun s => !inAlphabet layout s && lens.getD s 0 ≠ 0)
  then none
  else some { layout := layout, owner := owner, role := role, lengths := lens, tag := tableTag layout lens }

/-- Symbol counts of a source range cut into blocks, plus one for every symbol of the alphabet (R238). -/
def symbolCounts (l : Nat) (raw : List Byte) : List Nat :=
  let all := ((chunks 4096 raw).map (fun b => (symbolsOf l b).1)).flatten
  (List.range 270).map (fun s => if inAlphabet l s then (all.filter (· = s)).length + 1 else 0)

/-- Cheaper of two optional costs. -/
def minCost : Option Nat → Option Nat → Option Nat
  | none, b => b
  | a, none => a
  | some a, some b => some (min a b)

/-- Cost of the best lengths for the remaining symbols, for each amount of Kraft budget 0 to 4096 left
(in units of 2^−12): one table a symbol, the last symbol's first (R238). -/
def costTables : List Nat → List (List (Option Nat))
  | [] => [List.replicate 4097 (some 0)]
  | f :: t =>
    let rest := costTables t
    let next := rest.headD []
    let here := (List.range 4097).map (fun k =>
      if f = 0 then next.getD k none
      else (List.range 12).foldl (fun best i =>
        let u := 2 ^ (11 - i)
        if u > k then best
        else minCost best ((next.getD (k - u) none).map (fun c => c + f * (i + 1)))) none)
    here :: rest

/-- The lexicographically smallest lengths that reach the least cost (R238). -/
def bestLengths : List Nat → List (List (Option Nat)) → Nat → List Nat
  | [], _, _ => []
  | f :: t, tabs, k =>
    if f = 0 then 0 :: bestLengths t tabs.tail k
    else
      let want := (tabs.headD []).getD k none
      let next := tabs.tail.headD []
      let n := ((List.range 12).find? (fun i =>
        2 ^ (11 - i) ≤ k && (next.getD (k - 2 ^ (11 - i)) none).map (fun c => c + f * (i + 1)) = want)).getD 11
      (n + 1) :: bestLengths t tabs.tail (k - 2 ^ (11 - n))

/-- The record BUILD_TABLE writes: OWNER, ROLE and TAG zero (R238). -/
def buildTableRecord (layout : Nat) (raw : List Byte) : List Byte :=
  let fs := symbolCounts layout raw
  CodeTable.bytes { layout := layout, owner := 0, role := 0, lengths := bestLengths fs (costTables fs) 4096, tag := 0 }

/-! ### Erasure coding (R248) -/

/-- The image of a page: headers, then payloads padded to 64 bytes. -/
def pageImage (bs : List RawBlock) : List Byte := (bs.map (·.1)).flatten ++ (bs.map (fun b => padTo 64 b.2)).flatten

/-- The fragment length F of an image. -/
def fragLen (image : List Byte) : Nat := cdiv image.length 512 * 64

/-- The data fragments of an image, before encryption. -/
def dataFragments (image : List Byte) : List (List Byte) :=
  (List.range 8).map (fun i => fit (fragLen image) ((image.drop (i * fragLen image)).take (fragLen image)))

/-- The tweak of data fragment `i` (R248). -/
def fragTweak (keeper index gen i : Nat) : Nat := keeper + index * 2 ^ 32 + gen * 2 ^ 64 + i * 2 ^ 80

/-- One AES-256-XTS data unit, and its decryption: the cipher is a free value (log 10). -/
def xts (key tweak : Nat) (bs : List Byte) : List Byte :=
  le bs.length (Config.xts key tweak bs.length (BitVec.ofNat (8 * bs.length) (unle bs))).toNat
def unxts (key tweak : Nat) (bs : List Byte) : List Byte :=
  le bs.length ((Config.xts key tweak bs.length).symm (BitVec.ofNat (8 * bs.length) (unle bs))).toNat

/-- A plaintext block in the form in which memory holds it at an address: the padded payload encrypted, CHECK over the
ciphertext (R244). -/
def RawBlock.lock (key addr : Nat) (b : RawBlock) : RawBlock := RawBlock.recheck (b.1, xts key addr (padTo 64 b.2))

/-- A block of memory with its payload in plaintext: CHECK is tested before it is decrypted (R244). -/
def RawBlock.unlock (key addr : Nat) (b : RawBlock) : Except Damage RawBlock :=
  if b.checkOk then .ok (b.1, (unxts key addr b.2).take (headerLen b.1)) else .error .check

/-- Where the payloads of a page lie: extent of the list and offset in it, each on 64 bytes and none across an extent
(R113). -/
def payloadPlaces : List Nat → Nat × Nat → List (Nat × Nat)
  | [], _ => []
  | n :: t, (e, o) =>
    let m := cdiv n 64 * 64
    if o + m ≤ Config.extentBytes then (e, o) :: payloadPlaces t (e, o + m) else (e + 1, 0) :: payloadPlaces t (e + 1, m)

/-- Parity fragments 8 and 9 over the encrypted data fragments. -/
def parityFragments (ds : List (List Byte)) : List (List Byte) :=
  let n := (ds.headD []).length
  let p := ds.foldl xorBytes (zeros n)
  let q := (ds.zip (List.range ds.length)).foldl (fun acc d => xorBytes acc (d.1.map (gfShift d.2))) (zeros n)
  [p, q]

/-- The ten fragments of a page (R248). -/
def fragmentsOf (key keeper index gen : Nat) (image : List Byte) : List (List Byte) :=
  let ds := (dataFragments image).zip (List.range 8) |>.map (fun d => xts key (fragTweak keeper index gen d.2) d.1)
  ds ++ parityFragments ds

/-- The worst-case class of a page map of `n` blocks: 0 for 256 B to 5 for 8 KiB (R114). -/
def mapClass (n : Nat) : Nat :=
  let b := 64 + 16 * n
  if b ≤ 256 then 0 else if b ≤ 512 then 1 else if b ≤ 1024 then 2 else if b ≤ 2048 then 3 else if b ≤ 4096 then 4 else 5

end Sys2Proof
end

