-- ==== Sys2Proof/Machine/Operands.lean ====
section
/-! DEFINITION. Every operand form: the byte layouts of messages, records, ring entries and register records,
read (with the tests that make them malformed) and written. -/

namespace Sys2Proof.Machine

/-- `n` words of 4 bytes from offset `off`. -/
def words4 (bs : List Byte) (off n : Nat) : List Nat := (List.range n).map (fun i => fld bs (off + 4 * i) 4)

/-! ## Sluice messages (R168) -/

/-- The header of a sluice message. -/
structure Slu where
  kind : Nat
  flags : Nat
  tenant : Nat
  role : Nat
  seq : Nat
  epoch : Nat
  compEpoch : Nat
  requestId : Nat
  sseq : Nat
  sender : Nat
  deriving DecidableEq, Repr

/-- FLAGS of a sluice message. -/
def Slu.tail (m : Slu) : Bool := bitOf m.flags 0
def Slu.ended (m : Slu) : Bool := bitOf m.flags 1
def Slu.lastSegment (m : Slu) : Bool := bitOf m.flags 2

/-- The header's bytes. -/
def Slu.bytes (m : Slu) : List Byte :=
  le 1 m.kind ++ le 1 m.flags ++ le 1 m.tenant ++ le 1 m.role ++ le 4 m.seq ++ le 4 m.epoch ++ le 4 m.compEpoch ++
  le 8 m.requestId ++ le 4 m.sseq ++ le 4 m.sender

/-- A state record (R168). -/
structure StateRec where
  position : Nat
  tailPos : Nat
  generated : Nat
  maxNew : Nat
  nextStep : Nat
  seed : Nat
  draws : Nat
  temperature : Nat
  topP : Nat
  topK : Nat
  endToken : Nat
  histFirst : Nat
  tokens : List Nat
  deriving DecidableEq, Repr

/-- The record's bytes. -/
def StateRec.bytes (r : StateRec) : List Byte :=
  le 4 r.position ++ le 4 r.tailPos ++ le 4 r.generated ++ le 4 r.maxNew ++ le 6 r.nextStep ++ zeros 2 ++
  le 8 r.seed ++ le 8 r.draws ++ le 4 r.temperature ++ le 4 r.topP ++ le 4 r.topK ++ le 4 r.endToken ++
  le 4 r.histFirst ++ le 4 r.tokens.length ++ (r.tokens.map (le 4)).flatten

/-- Read a state record at an offset of a message. -/
def readStateRec (bs : List Byte) (off : Nat) : StateRec :=
  { position := fld bs off 4, tailPos := fld bs (off + 4) 4, generated := fld bs (off + 8) 4,
    maxNew := fld bs (off + 12) 4, nextStep := fld bs (off + 16) 6, seed := fld bs (off + 24) 8,
    draws := fld bs (off + 32) 8, temperature := fld bs (off + 40) 4, topP := fld bs (off + 44) 4,
    topK := fld bs (off + 48) 4, endToken := fld bs (off + 52) 4, histFirst := fld bs (off + 56) 4,
    tokens := words4 bs (off + 64) (fld bs (off + 60) 4) }

/-- The length and layout of a state record at an offset are as stated. -/
def stateRecOk (bs : List Byte) (off : Nat) : Bool :=
  decide (off + 64 ≤ bs.length) && zeroAt bs (off + 22) 2 && decide (fld bs (off + 60) 4 ≤ 16384) &&
  decide (bs.length = off + 64 + 4 * fld bs (off + 60) 4)

/-- The body of a sluice message has the size and layout of its kind (R168). -/
def sluBodyOk (bs : List Byte) (kind : Nat) : Bool :=
  let n := bs.length
  match kind with
  | 0x30 => stateRecOk bs 48 && decide (1 ≤ fld bs 36 1) && decide (fld bs 36 1 ≤ 4) && zeroAt bs 37 1
  | 0x31 => decide (n = 32)
  | 0x32 => stateRecOk bs 32
  | 0x33 => decide (n = 48) && zeroAt bs 38 2
  | 0x34 => decide (n = 32)
  | 0x35 => decide (n = 56) && zeroAt bs 54 2
  | 0x36 => decide (n = 40) && zeroAt bs 36 4
  | 0x37 => decide (n = 40) && decide (fld bs 32 1 = 9) && zeroAt bs 34 2
  | 0x38 => decide (n = 40) && decide (1 ≤ fld bs 32 1) && decide (fld bs 32 1 ≤ 3) && zeroAt bs 33 1
  | 0x39 => decide (n = 40) && zeroAt bs 36 4
  | _ => false

/-- The fields of the header of a sluice message (R168). -/
def sluFields (bs : List Byte) : Slu :=
  { kind := fld bs 0 1, flags := fld bs 1 1 % 8, tenant := fld bs 2 1, role := fld bs 3 1, seq := fld bs 4 4,
    epoch := fld bs 8 4, compEpoch := fld bs 12 4, requestId := fld bs 16 8, sseq := fld bs 24 4, sender := fld bs 28 4 }

/-- Read a sluice message; none when its size or layout is not as stated (R168). -/
def readSlu (bs : List Byte) : Option Slu :=
  if 32 ≤ bs.length ∧ fld bs 1 1 < 8 ∧ fld bs 3 1 < 3 ∧ sluBodyOk bs (fld bs 0 1) then some (sluFields bs) else none

/-- The state of a GRANT whose segments are joined, with whatever its tail added: all ids to its end. -/
def joinedState (bs : List Byte) (off : Nat) : StateRec :=
  { readStateRec bs off with tokens := words4 bs (off + 64) ((bs.length - (off + 64)) / 4) }

/-- Cut a history into segments of at most 16,384 ids (R168): each segment's first position and ids. -/
def histSegments (first : Nat) (tokens : List Nat) : List (Nat × List Nat) :=
  if tokens.isEmpty then [(first, [])]
  else (offsets 0 (chunks 16384 (tokens.map (fun _ => (0 : Byte))))).map
    (fun o => (first + o.1, (tokens.drop o.1).take o.2.length))

/-- The messages that carry a state record: one, or several segments with LAST_SEGMENT in the last (R168). -/
def stateMessages (h : Slu) (mid : List Byte) (r : StateRec) : List (List Byte) :=
  let segs := histSegments r.histFirst r.tokens
  segs.mapIdx (fun i g =>
    let last := i + 1 = segs.length
    { h with flags := h.flags + (if last then 4 else 0) }.bytes ++ mid ++
      { r with histFirst := g.1, tokens := g.2 }.bytes)

/-! ## Admission messages (R146, R155) -/

/-- Read an ADMIT_QUERY; none when its size or layout differs (R146). `from_` is the sender's node. -/
def readQuery (from_ : Nat) (bs : List Byte) : Option Query :=
  let adapter := fld bs 20 2
  if bs.length = 96 ∧ fld bs 0 1 = 0x21 ∧ fld bs 3 1 < 4 ∧
     fld bs 22 2 < 8192 ∧ zeroAt bs 38 2 ∧ zeroAt bs 68 28 then
    some { from_ := from_, tenant := fld bs 1 1, context := bitsOf (fld bs 2 1) 5 0, cls := bitsOf (fld bs 2 1) 7 6,
           publish := bitOf (fld bs 3 1) 0, fork := bitOf (fld bs 3 1) 1, requestId := fld bs 4 8,
           sseq := fld bs 12 4, compEpoch := fld bs 16 4, adapter := adapter, lP := fld bs 22 2,
           promptLen := fld bs 24 4, maxNew := fld bs 28 4, deadline := fld bs 32 6, parent := fld bs 40 4,
           sampling := { temperature := fld bs 44 4, topP := fld bs 48 4, topK := fld bs 52 4, seed := fld bs 56 8 },
           gateway := fld bs 64 4 }
  else none

/-- The bytes of an ADMIT_QUERY (R146). -/
def queryBytes (q : Query) : List Byte :=
  le 1 0x21 ++ le 1 q.tenant ++ le 1 (q.context + q.cls * 64) ++ le 1 (b2n q.publish + 2 * b2n q.fork) ++
  le 8 q.requestId ++ le 4 q.sseq ++ le 4 q.compEpoch ++ le 2 q.adapter ++ le 2 q.lP ++ le 4 q.promptLen ++
  le 4 q.maxNew ++ le 6 q.deadline ++ zeros 2 ++ le 4 q.parent ++ le 4 q.sampling.temperature ++
  le 4 q.sampling.topP ++ le 4 q.sampling.topK ++ le 8 q.sampling.seed ++ le 4 q.gateway ++ zeros 28

/-- A verdict (R155). -/
structure Verdict where
  outcome : Nat
  reason : Nat
  requestId : Nat
  handle : Nat
  step : Nat
  tenant : Nat
  keeper : Nat
  compEpoch : Nat
  ring : List Nat
  deriving DecidableEq, Repr

/-- The bytes of a VERDICT (R155). -/
def Verdict.bytes (v : Verdict) : List Byte :=
  le 1 0x22 ++ le 1 v.outcome ++ le 1 v.reason ++ le 1 (b2n (!v.ring.isEmpty)) ++ le 8 v.requestId ++
  le 4 v.handle ++ le 6 v.step ++ le 1 v.tenant ++ le 1 v.ring.length ++ le 4 v.keeper ++ le 4 v.compEpoch ++
  (v.ring.map (le 4)).flatten

/-- Read a VERDICT; none when malformed. -/
def readVerdict (bs : List Byte) : Option Verdict :=
  let z := fld bs 23 1
  if 32 ≤ bs.length ∧ fld bs 0 1 = 0x22 ∧ 1 ≤ fld bs 1 1 ∧ fld bs 1 1 ≤ 3 ∧ fld bs 3 1 < 2 ∧ z < 128 ∧
     bs.length = 32 + (if fld bs 3 1 = 1 then 4 * z else 0) then
    some { outcome := fld bs 1 1, reason := fld bs 2 1, requestId := fld bs 4 8, handle := fld bs 12 4,
           step := fld bs 16 6, tenant := fld bs 22 1, keeper := fld bs 24 4, compEpoch := fld bs 28 4,
           ring := if fld bs 3 1 = 1 then words4 bs 32 z else [] }
  else none

/-- The bytes of a tailrace record (R162). -/
def TailRec.bytes (r : TailRec) : List Byte :=
  le 8 r.requestId ++ le 4 r.token ++ le 1 r.kind ++ le 1 r.flags ++ le 2 r.cause ++ le 6 r.refStep ++ zeros 2

/-- The bytes of a tailrace batch (R162). -/
def batchBytes (unsure : Bool) (tenant step source compEpoch : Nat) (rs : List TailRec) : List Byte :=
  le 1 0x23 ++ le 1 (b2n unsure) ++ le 1 tenant ++ zeros 1 ++ le 6 step ++ le 2 rs.length ++ le 4 source ++
  le 4 compEpoch ++ zeros 12 ++ (rs.map TailRec.bytes).flatten

/-! ## Ring and fragment messages (R106, R250) -/

/-- Header of a ring message (R106), with its payload. -/
structure RingHdr where
  kind : Nat
  member : Nat
  layer : Nat
  context : Nat
  seq : Nat
  epoch : Nat
  step : Nat
  tokens : Nat
  firstPos : Nat
  payload : List Byte
  deriving DecidableEq, Repr

/-- The bytes of a ring message's header. -/
def RingHdr.head (h : RingHdr) : List Byte :=
  le 1 h.kind ++ le 1 h.member ++ le 1 h.layer ++ le 1 h.context ++ le 4 h.seq ++ le 4 h.epoch ++ le 6 h.step ++
  le 2 h.tokens ++ le 4 h.firstPos ++ le 4 h.payload.length ++ zeros 4

/-- Read a ring message of a kind; none when malformed. -/
def readRing (kind : Nat) (bs : List Byte) : Option RingHdr :=
  if 32 ≤ bs.length ∧ fld bs 0 1 = kind ∧ fld bs 1 1 < 64 ∧ fld bs 3 1 < 64 ∧ zeroAt bs 28 4 ∧
     bs.length = 32 + fld bs 24 4 ∧ (kind ≠ 2 ∨ fld bs 18 2 = 1) ∧ (kind ≠ 3 ∨ fld bs 18 2 = 0) then
    some { kind := kind, member := fld bs 1 1, layer := fld bs 2 1, context := fld bs 3 1, seq := fld bs 4 4,
           epoch := fld bs 8 4, step := fld bs 12 6, tokens := fld bs 18 2, firstPos := fld bs 20 4,
           payload := bs.drop 32 }
  else none

/-- Header of a fragment message (R250), with its bytes. -/
structure FragHdr where
  kind : Nat
  frag : Nat
  tenant : Nat
  status : Nat
  keeper : Nat
  index : Nat
  generation : Nat
  tableId : Nat
  imageLen : Nat
  fragLen : Nat
  step : Nat
  bytes : List Byte
  deriving DecidableEq, Repr

/-- The bytes of a fragment message. -/
def FragHdr.whole (h : FragHdr) : List Byte :=
  le 1 h.kind ++ le 1 h.frag ++ le 1 h.tenant ++ le 1 h.status ++ le 4 h.keeper ++ le 4 h.index ++
  le 2 h.generation ++ le 1 h.tableId ++ zeros 1 ++ le 4 h.imageLen ++ le 4 h.fragLen ++ le 6 h.step ++ zeros 2 ++
  h.bytes

/-- Read a fragment message of a kind; none when malformed. -/
def readFrag (kind : Nat) (bs : List Byte) : Option FragHdr :=
  let carries := kind = 0x40 ∨ kind = 0x43
  if 32 ≤ bs.length ∧ fld bs 0 1 = kind ∧ fld bs 1 1 < 10 ∧
     (fld bs 3 1 = 0 ∨ ((kind = 0x41 ∨ kind = 0x43) ∧ fld bs 3 1 < 3)) ∧ fld bs 8 4 < 2 ^ 25 ∧ zeroAt bs 15 1 ∧
     zeroAt bs 30 2 ∧ bs.length = 32 + (if carries then fld bs 20 4 else 0) then
    some { kind := kind, frag := fld bs 1 1, tenant := fld bs 2 1, status := fld bs 3 1, keeper := fld bs 4 4,
           index := fld bs 8 4, generation := fld bs 12 2, tableId := fld bs 14 1, imageLen := fld bs 16 4,
           fragLen := fld bs 20 4, step := fld bs 24 6, bytes := bs.drop 32 }
  else none

/-! ## Registered records (R189, R190, R201, R366) -/

/-- One node entry of a composition map at an offset (R366). -/
def readNode (bs : List Byte) (o : Nat) : NodeEnt :=
  let b := fld bs (o + 4) 1
  { node := fld bs o 4, role := bitsOf b 1 0, status := bitsOf b 3 2, cls := bitsOf b 4 4, group := fld bs (o + 6) 2,
    gridEpoch := fld bs (o + 8) 6, period := fld bs (o + 16) 4, ringSet := fld bs (o + 20) 4,
    macs := (List.range 8).map (fun p => fld bs (o + 24 + 6 * p) 6),
    allot := (List.range 3).filterMap (fun k =>
      let a := o + 72 + 16 * k
      if fld bs a 4 = 0xFFFFFFFF then none else some (fld bs a 4, fld bs (a + 4) 2, fld bs (a + 8) 4)) }

/-- RSVD fields of a node entry are zero (R366). -/
def nodeRsvdOk (bs : List Byte) (o : Nat) : Bool :=
  decide (fld bs (o + 4) 1 < 32) && zeroAt bs (o + 5) 1 && zeroAt bs (o + 14) 2 && zeroAt bs (o + 120) 8 &&
  (List.range 3).all (fun k => zeroAt bs (o + 72 + 16 * k + 6) 2 && zeroAt bs (o + 72 + 16 * k + 12) 4)

/-- The composition map of a body. -/
def readMap (bs : List Byte) : CompMap :=
  { epoch := fld bs 0 4, nodes := (List.range (fld bs 4 4)).map (fun i => readNode bs (64 + 128 * i)) }

/-- The context record's fields (R189); layers and frequencies come from memory. -/
def readCtx (bs : List Byte) : Ctx :=
  let f := fld bs 12 1
  { state := .loading, homeCxl := bitOf (fld bs 1 1) 0, width := fld bs 4 4, nKv := fld bs 8 1, gqa := fld bs 9 1,
    headDim := fld bs 10 2, qFmt := bitsOf f 1 0, kvFmt := bitsOf f 3 2, outFmt := bitsOf f 5 4,
    actFmt := bitsOf f 7 6, rotMode := fld bs 13 1, rotDims := fld bs 14 2, scale := fld bs 16 4, eps := fld bs 20 4,
    maxPrefix := fld bs 24 4, ringSegment := fld bs 28 4, turnaround := fld bs 32 4, vocab := fld bs 36 4,
    endToken := fld bs 40 4, weightBytes := fld bs 64 8, layers := [], freqs := [] }

/-- One layer descriptor (R190). -/
def readLayer (bs : List Byte) : LayerDesc :=
  { mask := bitsOf (fld bs 1 1) 0 0, bias := bitOf (fld bs 1 1) 1, wformat := fld bs 2 1, window := fld bs 4 4,
    wq := fld bs 8 6, wk := fld bs 16 6, wv := fld bs 24 6, wo := fld bs 32 6, scales := fld bs 40 6,
    gain := fld bs 48 6, biasAddr := fld bs 56 6, stored := fld bs 64 4 }

/-- An adapter version record (R201). -/
def readAdapter (bs : List Byte) : Adapter :=
  let s := fld bs 8 1
  { generation := fld bs 2 1, tenant := fld bs 3 1, context := bitsOf (fld bs 4 1) 5 0, format := fld bs 5 1 % 2,
    targets := bitsOf (fld bs 5 1) 4 1, rank := fld bs 6 2,
    shift := if s < 128 then (s : Int) else (s : Int) - 256, layerBytes := fld bs 12 4, store := fld bs 16 6,
    total := fld bs 24 8, current := true }

/-! ## Ring entries (R362, R365) -/

/-- Opcodes of the commands (R365). -/
def ringOpcode : RingOp → Nat
  | .lease _ => 0x01
  | .compose => 0x02
  | .installKey _ => 0x03
  | .registerContext => 0x04
  | .retireContext _ => 0x05
  | .registerAdapter => 0x06
  | .withdrawAdapter _ => 0x07
  | .installTable _ _ => 0x08
  | .buildTable _ _ _ => 0x09
  | .allocObject _ _ _ _ => 0x0A
  | .freeObject _ _ => 0x0B
  | .openWindow _ => 0x0C
  | .reopenWindow _ _ => 0x0D
  | .revokeWindow _ => 0x0E
  | .setQueue _ _ _ _ => 0x0F
  | .setPolicer _ _ _ _ => 0x10
  | .write _ => 0x11
  | .read _ => 0x12
  | .atomic _ => 0x13
  | .stageImage => 0x14
  | .switchImage => 0x15
  | .commitSvn => 0x16
  | .drainDie _ _ => 0x17
  | .readmitDie _ => 0x18
  | .rehome _ => 0x19

/-- Operands of OPEN_WINDOW and REOPEN_WINDOW in an entry. -/
def readWinOps (bs : List Byte) : WinOps :=
  { key := fld bs 24 8, desc := fld bs 32 4, descGen := fld bs 36 2, rights := fld bs 38 1, ring := fld bs 39 1,
    base := fld bs 40 4, length := fld bs 44 4 }

/-- Operands of WRITE, READ and ATOMIC in an entry. -/
def readRemote (bs : List Byte) (atomic : Bool) : RemoteOps :=
  { dest := fld bs 20 4, window := bitsOf (fld bs 24 4) 19 0, gen := bitsOf (fld bs 24 4) 31 20, key := fld bs 28 8,
    winOffset := fld bs 36 4, op := if atomic then fld bs 40 1 else 0, operand := if atomic then fld bs 44 8 else 0,
    compare := if atomic then fld bs 52 8 else 0 }

/-- Bytes of an entry that its opcode gives no field: they are RSVD and must be zero (R362, R364). -/
def entryUsed (op : Nat) : List (Nat × Nat) :=
  match op with
  | 0x01 => [(20, 20)]
  | 0x05 => [(20, 1)]
  | 0x07 => [(20, 1)]
  | 0x08 => [(20, 1), (24, 6)]
  | 0x09 => [(20, 1), (24, 12)]
  | 0x0A => [(20, 2)]
  | 0x0B => [(20, 6)]
  | 0x0C => [(24, 24)]
  | 0x0D => [(20, 28)]
  | 0x0E => [(20, 4)]
  | 0x0F => [(20, 3), (24, 8)]
  | 0x10 => [(20, 2), (24, 8)]
  | 0x11 => [(20, 20)]
  | 0x12 => [(20, 20)]
  | 0x13 => [(20, 21), (44, 16)]
  | 0x17 => [(20, 2)]
  | 0x18 => [(20, 1)]
  | 0x19 => [(20, 8)]
  | _ => []

/-- The RSVD bytes of an entry are zero. -/
def entryRsvdOk (bs : List Byte) : Bool :=
  decide (fld bs 1 1 < 4) && decide (fld bs 3 1 < 16) && zeroAt bs 14 2 &&
  ((List.range 44).map (· + 20)).all (fun i =>
    (entryUsed (fld bs 0 1)).any (fun u => decide (u.1 ≤ i) && decide (i < u.1 + u.2)) || zeroAt bs i 1)

/-- The command of an entry with its operands; none for an unknown opcode or RSVD operand bits (R364, R365). -/
def readOp (bs : List Byte) : Option RingOp :=
  let o := fld bs 20 1
  match fld bs 0 1 with
  | 0x01 => some (.lease { cls := o, orphan := fld bs 21 1, share := fld bs 22 2, seqQuota := fld bs 24 2,
                           pageQuota := fld bs 26 4, ckpt := fld bs 30 2, models := fld bs 32 8 })
  | 0x02 => some .compose
  | 0x03 => some (.installKey none)
  | 0x04 => some .registerContext
  | 0x05 => some (.retireContext o)
  | 0x06 => some .registerAdapter
  | 0x07 => some (.withdrawAdapter o)
  | 0x08 => some (.installTable o (fld bs 24 6))
  | 0x09 => some (.buildTable o (fld bs 24 8) (fld bs 32 4))
  | 0x0A => let b := fld bs 21 1
            if b < 16 then some (.allocObject o (b % 4) (bitOf b 2) (bitOf b 3)) else none
  | 0x0B => some (.freeObject (fld bs 20 4) (fld bs 24 2))
  | 0x0C => some (.openWindow (readWinOps bs))
  | 0x0D => some (.reopenWindow (fld bs 20 4) (readWinOps bs))
  | 0x0E => some (.revokeWindow (fld bs 20 4))
  | 0x0F => if fld bs 22 1 < 2 then
              some (.setQueue (fld bs 20 2) (fld bs 22 1 == 1) ((fld bs 24 2 + 1) * 64) (fld bs 28 4)) else none
  | 0x10 => if fld bs 21 1 < 2 then
              some (.setPolicer o (fld bs 21 1 == 1) (fld bs 24 4) (fld bs 28 4)) else none
  | 0x11 => some (.write (readRemote bs false))
  | 0x12 => some (.read (readRemote bs false))
  | 0x13 => some (.atomic (readRemote bs true))
  | 0x14 => some .stageImage
  | 0x15 => some .switchImage
  | 0x16 => some .commitSvn
  | 0x17 => if fld bs 21 1 < 2 then some (.drainDie o (fld bs 21 1 == 1)) else none
  | 0x18 => some (.readmitDie o)
  | 0x19 => some (.rehome (fld bs 20 8))
  | _ => none

/-- The head of an entry of ring `r`. -/
def readHead (r : Nat) (bs : List Byte) : CmdHead :=
  { ring := r, silent := bitOf (fld bs 1 1) 0, notify := bitOf (fld bs 1 1) 1, tenant := fld bs 2 1,
    subq := bitsOf (fld bs 3 1) 3 0, tag := fld bs 4 4, bodyAddr := fld bs 8 6, bodyLen := fld bs 16 4, placed := [] }

/-- The body a record-carrying command must name: its exact length (R364); none for the others. -/
def recordLen (op : RingOp) (h : CmdHead) (s : State) : Option Nat :=
  match op with
  | .installKey _ => some 256
  | .registerContext => some 256
  | .registerAdapter => some 32
  | .installTable _ _ => some 144
  | .compose => some (if 64 ≤ h.bodyLen then 64 + 128 * fld (readMem s (h.bodyAddr + 4) 4) 0 4 else 64)
  | _ => none

/-! ## Records of registers and tables -/

/-- A sequence table entry of 256 bytes (R141). -/
def Seq.bytes (e : Seq) : List Byte :=
  fit 256 (le 4 e.handle ++ le 1 e.state.code ++ le 1 e.tenant ++ le 1 (e.context + e.cls * 64) ++
  le 1 (b2n e.publish + 2 * b2n e.ring + 4 * b2n e.forked + 8 * b2n e.drop) ++ le 2 e.adapter ++ le 1 e.adapterGen ++
  le 1 e.member ++ le 1 e.ringZ ++ zeros 3 ++ le 4 e.ownEpoch ++ le 4 e.compEpoch ++ le 8 e.requestId ++
  le 6 e.admitStep ++ le 6 e.nextStep ++ le 6 e.deadline ++ zeros 2 ++ le 4 e.promptLen ++ le 4 e.maxNew ++
  le 4 e.position ++ le 4 e.generated ++ le 2 e.lP ++ zeros 2 ++ le 4 e.source ++ le 4 e.parent ++ le 8 e.heads ++
  le 4 e.sampling.temperature ++ le 4 e.sampling.topP ++ le 4 e.sampling.topK ++ le 8 e.sampling.seed ++
  le 4 e.endToken ++ le 4 e.lateTokens ++ le 4 e.gateway)

/-- An ownership record of 32 bytes (R165); HIST_COUNT is the history's length. -/
def OwnRec.bytes (r : OwnRec) (histCount : Nat) : List Byte :=
  le 4 r.owner ++ le 1 (r.role + r.state.code * 4) ++ le 1 (r.quiet + 4 * b2n r.acked + 8 * b2n r.tail) ++ zeros 2 ++
  le 4 r.epoch ++ le 4 r.next ++ le 6 r.effective ++ zeros 2 ++ le 4 r.tailPos ++ le 4 histCount

/-- Address [47:8] of the map that a descriptor names (R116, R121): that of the sealed form from the switch on, and of an object its
home's; before that the raw one, where it has one. -/
def Desc.mapAt (d : Desc) : Nat := (if d.state == .sealed || d.object then d.homeMap else d.rawMap.or d.homeMap).getD 0

/-- A page descriptor of 32 bytes (R116). -/
def Desc.record (d : Desc) : List Byte :=
  let st := if d.object && d.state == .hopper then 2 else d.state.code
  le 5 d.mapAt ++ le 1 (d.extents + d.mapClass * 32) ++ le 2 d.refcount ++
  le 2 (if d.object then (d.dirty.map (fun i => 2 ^ i)).sum else 0) ++
  le 1 (st + d.tier.code * 8 + 32 * b2n d.pin + 64 * b2n d.durable + 128 * b2n d.published) ++
  le 1 (d.alloc + 4 * b2n d.object + 8 * b2n d.windowRing) ++ le 1 d.tableId ++ le 1 d.tenant ++
  le 2 d.generation ++ le 2 (d.lease.getD 0 % 65536) ++ le 1 d.layer ++ le 1 d.context ++ le 4 d.firstPos ++
  le 2 d.fill ++ le 3 d.pfx ++ zeros 3

/-- A port record of 64 bytes (R273). -/
def PortRec.bytes (r : PortRec) : List Byte :=
  le 8 (wCount r.framesOut) ++ le 8 (wCount r.framesIn) ++ le 8 (wCount r.bytesOut) ++ le 8 (wCount r.bytesIn) ++
  le 2 (wWraps r.framesOut) ++ le 2 (wWraps r.framesIn) ++ le 2 (wWraps r.bytesOut) ++ le 2 (wWraps r.bytesIn) ++
  le 4 (sRead r.fcsErrors) ++ le 4 (sRead r.fecUncorrected) ++ le 4 (sRead r.fecCorrected) ++ le 4 (sRead r.notMine) ++
  le 4 (sRead r.misdirected) ++ zeros 4

/-- A window record of 32 bytes as FAB_WIN_DATA shows it: KEY reads zero (R267, R273). -/
def Window.bytes (w : Window) : List Byte :=
  zeros 8 ++ le 4 w.desc ++ le 2 w.descGen ++ le 2 (w.gen + w.state.code * 4096) ++ le 1 w.dike ++ le 1 w.rights ++
  le 1 w.ring ++ zeros 1 ++ le 4 w.base ++ le 4 w.length ++ zeros 4

/-- A queue record of 32 bytes (R285). -/
def WQueue.bytes (w : WQueue) (q cls : Nat) : List Byte :=
  le 2 q ++ le 1 (queueDike q) ++ le 1 (cls + 8 * b2n w.enable + 16 * b2n w.explicit) ++
  le 2 (if w.quantum = 0 then 0 else w.quantum / 64 - 1) ++ le 2 (wWraps w.sent) ++ le 4 w.rate ++ le 4 w.queued ++
  le 8 (w.e % 2 ^ 64) ++ le 8 (wCount w.sent)

/-- Tokens of a bucket at `now`, in thousandths of a byte (R282). -/
def Policer.tokensAt (p : Policer) (now : Nat) : Nat :=
  min (p.burst * 1000) (p.tokens + p.rate * (now - p.at_))

/-- A policer record of 32 bytes (R285). -/
def Policer.bytes (p : Policer) (d now : Nat) : List Byte :=
  le 1 d ++ le 1 (b2n p.enable) ++ le 2 (wWraps p.passed) ++ le 4 p.rate ++ le 4 p.burst ++
  le 4 (if p.enable then p.tokensAt now / 1000 else 0) ++ le 8 (wCount p.passed) ++ le 4 (sRead p.dropped) ++ zeros 4

/-- A tier segment record of 16 bytes with its STATE (R221, R228). -/
def Segment.bytes (g : Segment) : List Byte :=
  le 2 (g.base + g.ports * 16384) ++ le 2 g.size ++ le 2 g.pbr ++
  le 2 (match g.state with | .unused => 0 | .active => 1 | .failed => 2) ++ le 8 g.target

/-- A tide entry of 32 bytes (R60). -/
def TideEntry.bytes (t : TideEntry) : List Byte :=
  le 2 t.slot ++ le 1 t.context ++ le 1 t.layer ++ le 4 t.opens ++ le 4 t.cutoff ++ le 4 t.close ++ le 4 t.pfIssue ++
  le 4 t.pfDeadline ++ zeros 8

/-- A power log entry of 16 bytes (R415). -/
def powerEntry (now event cause vin bank : Nat) : List Byte :=
  le 6 (now / 1000000000) ++ le 4 (now % 1000000000) ++ le 1 event ++ le 1 cause ++ le 2 vin ++ le 2 bank

/-- A health area entry of 16 bytes (R377). -/
def healthEntry (die phys cause step : Nat) : List Byte :=
  let b := le 1 die ++ le 1 phys ++ le 1 cause ++ zeros 1 ++ le 6 step ++ zeros 4
  b ++ le 2 (crc16 b)

end Sys2Proof.Machine
end

