-- ==== Sys2Proof/Machine/Flash.lean ====
section
/-! DEFINITION. The configuration flash and the order of its writes (R376 to R378, R388, R392). -/

namespace Sys2Proof.Machine

/-- Where the charter region, the health area and the firmware image begin (R376). -/
def charterBase : Nat := 0
def healthBase : Nat := 0x10000
def imageBase : Nat := 0x100000

/-- Bytes of the charter region. -/
def charterBytes : Nat := 65536

/-- Bytes of flash; erased flash reads 0xFF. -/
def flashBytes (s : State) (a n : Nat) : List Byte :=
  (List.range n).map (fun i => Tab.getD (Tab.part a n s.stw.flash) (a + i) 0xFF#8)

/-- Write bytes of flash. -/
def writeFlash (a : Nat) (bs : List Byte) (s : State) : State :=
  { s with stw := { s.stw with flash := Tab.putRun a bs s.stw.flash } }

/-- Entry `i` of the health area. -/
def healthAt (s : State) (i : Nat) : List Byte := flashBytes s (healthBase + 16 * i) 16

/-- The first entry of the health area that is erased. -/
def healthNext (s : State) : Nat := (firstFrom (fun i => (healthAt s i).all (· == 0xFF#8)) 0 4096).getD 4095

/-- The write at the front of the queue has its turn: a health entry is written at once (log 54), a charter write enters
WRITING (R378, R388). -/
def settleFlash : Nat → State → State
  | 0, s => s
  | fuel + 1, s =>
    match s.stw.flashQueue with
    | .health e :: t =>
      settleFlash fuel (writeFlash (healthBase + 16 * healthNext s) e { s with stw := { s.stw with flashQueue := t } })
    | .charter _ :: _ => { s with stw := { s.stw with charterState := 2 } }
    | _ => s

/-- A write to flash waits its turn (R378). -/
def queueFlash (w : FlashWrite) (s : State) : State :=
  settleFlash (s.stw.flashQueue.length + 1) { s with stw := { s.stw with flashQueue := s.stw.flashQueue ++ [w] } }

/-- The write at the front is over; the next one has its turn. -/
def popFlash (s : State) : State :=
  settleFlash s.stw.flashQueue.length { s with stw := { s.stw with flashQueue := s.stw.flashQueue.drop 1 } }

/-- What a write that is broken off leaves: its region is erased and programmed from its start, up to a place that is open
(R305, R388). -/
def breakFlash (w : FlashWrite) (s : State) : State :=
  match w with
  | .charter image =>
    let k := freeBelow (charterBytes + 1) s
    writeFlash charterBase (image.take k.1 ++ List.replicate (charterBytes - k.1) 0xFF#8) k.2
  | .image bytes _ =>
    let k := freeBelow (bytes.length + 1) s
    writeFlash imageBase (bytes.take k.1 ++ List.replicate (bytes.length - k.1) 0xFF#8) k.2
  | .health e => writeFlash (healthBase + 16 * healthNext s) e s

/-- Flash writes that are lost with power: the one that runs is broken off. -/
def loseFlash (s : State) : State :=
  match s.stw.flashQueue with
  | [] => s
  | w :: _ => { breakFlash w s with stw := { (breakFlash w s).stw with flashQueue := [] } }

end Sys2Proof.Machine
end

