-- ==== Sys2Proof/Machine/Journal.lean ====
section
/-! DEFINITION. The journal (R328 to R332) as HLT writes it, and the ring entries it records. -/

namespace Sys2Proof.Machine

/-- Operands of OPEN_WINDOW and REOPEN_WINDOW as bytes 24–47 of an entry. -/
def winOpBytes (o : WinOps) : List Byte :=
  le 8 o.key ++ le 4 o.desc ++ le 2 o.descGen ++ le 1 o.rights ++ le 1 o.ring ++ le 4 o.base ++ le 4 o.length

/-- Operands of WRITE, READ and ATOMIC as bytes 20–39 of an entry. -/
def remoteOpBytes (o : RemoteOps) : List Byte :=
  le 4 o.dest ++ le 4 (o.window + o.gen * 2 ^ 20) ++ le 8 o.key ++ le 4 o.winOffset

/-- Bytes 20–63 of an entry (R365). -/
def opBytes : RingOp → List Byte
  | .lease o => le 1 o.cls ++ le 1 o.orphan ++ le 2 o.share ++ le 2 o.seqQuota ++ le 4 o.pageQuota ++ le 2 o.ckpt ++
      le 8 o.models
  | .retireContext c => le 1 c
  | .withdrawAdapter c => le 1 c
  | .installTable e c => le 1 e ++ zeros 3 ++ le 6 c
  | .buildTable l a n => le 1 l ++ zeros 3 ++ le 8 a ++ le 4 n
  | .allocObject e a p d => le 1 e ++ le 1 (a + 4 * b2n p + 8 * b2n d)
  | .freeObject i g => le 4 i ++ le 2 g
  | .openWindow o => zeros 4 ++ winOpBytes o
  | .reopenWindow w o => le 4 w ++ winOpBytes o
  | .revokeWindow w => le 4 w
  | .setQueue q e n r => le 2 q ++ le 1 (b2n e) ++ zeros 1 ++ le 2 (n / 64 - 1) ++ zeros 2 ++ le 4 r
  | .setPolicer d e r b => le 1 d ++ le 1 (b2n e) ++ zeros 2 ++ le 4 r ++ le 4 b
  | .write o => remoteOpBytes o
  | .read o => remoteOpBytes o
  | .atomic o => remoteOpBytes o ++ le 1 o.op ++ zeros 3 ++ le 8 o.operand ++ le 8 o.compare
  | .drainDie d f => le 1 d ++ le 1 (b2n f)
  | .readmitDie d => le 1 d
  | .rehome r => le 8 r
  | _ => []

/-- The 64-byte entry of a command (R362). -/
def entryBytes (h : CmdHead) (op : RingOp) : List Byte :=
  fit 64 (le 1 (ringOpcode op) ++ le 1 (b2n h.silent + 2 * b2n h.notify) ++ le 1 h.tenant ++ le 1 h.subq ++
    le 4 h.tag ++ le 8 h.bodyAddr ++ le 4 h.bodyLen ++ opBytes op)

/-- Device physical address of the journal area (R359). -/
def journalBase : Nat := Config.hdmBase + 0x100000000

/-- Units of the journal ring (R328). -/
def journalUnits (s : State) : Nat := s.stw.charter.journalMib * 16384

/-- Recording: the journal is on, and this is no replay (R328, R333). -/
def recording (s : State) : Bool :=
  decide (0 < s.stw.charter.journalMib) && s.stw.charter.replay == 0 && inService s

/-- Take away the oldest records until `need` units fit beside `used`: what is left and what was lost. -/
def dropOldest (cap need : Nat) :
    List (Nat × Nat × Nat) → List (Nat × Nat × Nat) → List (Nat × Nat × Nat) × List (Nat × Nat × Nat)
  | [], lost => ([], lost)
  | r :: t, lost =>
    if (((r :: t).map (fun x => x.2.1)).sum) + need ≤ cap - 1 then (r :: t, lost)
    else dropOldest cap need t (lost ++ [r])

/-- Write bytes into a ring of `cap` units of 64 bytes at `base`, from unit `u` on. -/
def ringWrite (base cap u : Nat) (bs : List Byte) (s : State) : State :=
  let room := (cap - u) * 64
  writeMem base (bs.drop room) (writeMem (base + u * 64) (bs.take room) s)

/-- Put one record at HLT_JOURNAL_HEAD, overwriting the oldest where it must (R332): the records lost come
back. -/
def putRecord (kind flags step action tenant source sseq : Nat) (body : List Byte) (s : State) :
    List (Nat × Nat × Nat) × State :=
  let cap := journalUnits s
  let units := cdiv (32 + body.length) 64
  let h := s.hlt
  let d := dropOldest cap units h.jHeld []
  let key := step * 8 + action
  let order := if h.jKey = key then h.jOrder else 0
  let pre := le 1 kind ++ le 1 flags ++ le 2 units ++ le 6 step ++ le 1 action ++ le 1 tenant ++ le 4 h.jSeq ++
    le 4 source ++ le 4 sseq ++ le 4 order
  let rest := fit (units * 64 - 32) body
  let bytes := pre ++ le 4 (crc32c (pre ++ zeros 4 ++ rest)) ++ rest
  let s := ringWrite journalBase cap h.jHead bytes s
  (d.2, { s with hlt := { s.hlt with
    jHead := (h.jHead + units) % cap, jSeq := (h.jSeq + 1) % 2 ^ 32, jOrder := order + 1, jKey := key
    jHeld := d.1 ++ [(h.jHead, units, h.jSeq)] } })

/-- Append a record; an overrun raises its event, counts what was lost and writes a GAP record (R332). -/
def putJournal (kind flags step action tenant source sseq : Nat) (body : List Byte) (s : State) : State :=
  let r := putRecord kind flags step action tenant source sseq body s
  match r.1 with
  | [] => r.2
  | first :: rest =>
    let s := raise .journalOverrun (bump cJournalLost (rest.length + 1) r.2)
    let last := (rest.getLast?).getD first
    (putRecord 9 0 step action 0 0 0 (le 4 (rest.length + 1) ++ le 4 first.2.2 ++ le 4 last.2.2) s).2

/-- Largest body of a record (R329). -/
def journalBody : Nat := 4194208

/-- Record an input or an outcome, in several records where its body is longer than one holds (R329). -/
def journal (kind action tenant source sseq : Nat) (body : List Byte) (s : State) : State :=
  if recording s then
    let step := stepNo s
    let parts := if body.isEmpty then [[]] else chunks journalBody body
    ((List.range parts.length).zip parts).foldl
      (fun s p => putJournal kind (if p.1 + 1 < parts.length then 1 else 0) step action tenant source sseq p.2 s) s
  else s

/-- Ten bytes of the counter: nanoseconds in [31:0], seconds in [79:32] (R50). -/
def counterBytes (now : Nat) : List Byte := le 4 (now % 1000000000) ++ le 6 (now / 1000000000)

/-- A TIME record (R330). -/
def journalTime (before : Nat) (s : State) : State :=
  journal 2 0 0 0 0 (le 1 s.tmu.state.code ++ le 4 (s.tmu.offset % 2 ^ 32).toNat ++ counterBytes before ++
    counterBytes s.tmu.now) s

/-- A DISPOSITION record (R330) of an action of the boundary, or of the step (0): code, handle, layer, amount. -/
def dispositionAt (action code handle layer amount : Nat) (s : State) : State :=
  journal 5 action 0 0 0 (le 1 code ++ le 4 handle ++ le 1 layer ++ le 8 amount) s

/-- A DISPOSITION record of what happened within the step. -/
def disposition (code handle layer amount : Nat) (s : State) : State := dispositionAt 0 code handle layer amount s

/-- A COMMAND record (R330): the entry, then every HDM byte the command reads; key blobs are replaced. -/
def journalCommand (action : Nat) (h : CmdHead) (op : RingOp) (sseq : Nat) (body : List Byte) (s : State) : State :=
  let shown := match op with
    | .installKey _ => body.take 3
    | _ => body
  journal 3 action h.tenant (Config.ringSource h.ring) sseq (entryBytes h op ++ shown) s

end Sys2Proof.Machine
end

