-- ==== Sys2Proof/Machine/Accounting.lean ====
section
/-! DEFINITION. Minute tallies (R63, R312 to R315). -/

namespace Sys2Proof.Machine

/-- Device physical address of the tally area (R359). -/
def tallyBase : Nat := Config.hdmBase + 0x1800000

/-- The accounting counter of order `k` with INPUT_ENERGY_UJ in place of TOKENS for dike 0 (R312). -/
def tallyCount (s : State) (d k : Nat) : Nat :=
  if d = 0 ∧ k = 8 then s.hlt.inputEnergy else (acctOf s d).get k

/-- A tally record of 128 bytes (R313) of the counters as they stand. -/
def tallyRecord (s : State) (d minute seq : Nat) (first : Bool) : List Byte :=
  let a := acctOf s d
  let flags := s.tmu.state.code + 8 * b2n (Tab.has d s.sec.leases) + 16 * b2n a.leaseChanged + 32 * b2n first
  let body := le 6 minute ++ le 1 d ++ le 1 flags ++ le 4 seq ++ zeros 4 ++
    ((List.range 9).map (fun k => le 8 (wCount (tallyCount s d k)))).flatten ++
    ((List.range 9).map (fun k => le 2 (wWraps (tallyCount s d k)))).flatten ++ zeros 2 ++
    le 4 (sRead a.late) ++ le 4 (sRead a.deferred) ++ le 4 (sRead a.refused) ++
    le 4 (sRead (Tab.getD s.wei.policers d {}).dropped)
  body ++ le 4 (crc32c body)

/-- The set being written gets whole: its records in HDM, then HLT_TALLY (R314). -/
def writeTally (s : State) : State :=
  match s.hlt.writing with
  | none => s
  | some w =>
    let slot := w.1 % 64
    let s := writeMem (tallyBase + slot * 32768) w.2.flatten s
    { s with hlt := { s.hlt with
      writing := none, tally := 2 ^ 25 + slot * 2 ^ 18 + w.1 % 2 ^ 18 } }

/-- Measured input energy rises by an open amount, in µJ (R312). -/
def measureInput (s : State) : State :=
  let n := Config.freeNat s.freeCtr
  let e := s.hlt.inputEnergy
  wEvent e (e + n) 13 0x410
    { s with freeCtr := s.freeCtr + 1, hlt := { s.hlt with inputEnergy := e + n } }

/-- Freeze the tallies of all 256 dikes at one instant (R313). A set still being written is written first. -/
def freezeTally (s : State) : State :=
  let s := measureInput (writeTally s)
  let minute := s.tmu.now / 1000000000
  let seq := (s.hlt.tallySeq + 1) % 2 ^ 32
  let recs := (List.range 256).map (fun d => tallyRecord s d minute seq (!s.hlt.frozen))
  { s with hlt := { s.hlt with
      minute := minute, tallySeq := seq, frozen := true, writing := some (seq, recs)
      acct := s.hlt.acct.map (fun e => (e.1, { e.2 with leaseChanged := false })) } }

/-- The instant of the next minute boundary: now itself where it has not been frozen (R63). -/
def minuteInstant (s : State) : Nat :=
  let m := 60000000000
  if s.tmu.now % m = 0 ∧ s.hlt.minute * 1000000000 ≠ s.tmu.now then s.tmu.now else (s.tmu.now / m + 1) * m

/-- MINUTE_BOUNDARY (R63, R313). In replay nothing is frozen (R333). -/
def execMinuteBoundary (s : State) : Host.Outcome State Fault Refusal :=
  if inService s then
    let s := setNow (minuteInstant s) s
    .next (if s.stw.charter.replay = 1 then s else freezeTally s)
  else .next s

/-- TALLY_SET_WRITTEN (R314). -/
def execTallySetWritten (s : State) : Host.Outcome State Fault Refusal := .next (writeTally s)

/-- TALLY_WRITE_DEADLINE (R314): a set not written within 1 ms raises TALLY_LATE. -/
def execTallyWriteDeadline (s : State) : Host.Outcome State Fault Refusal :=
  match s.hlt.writing with
  | none => .next s
  | some _ => .next (raise .tallyLate (setNow (s.hlt.minute * 1000000000 + 1000000) s))

/-- The record that HLT_ACCT_IDX latches (R320): live values under the latest freeze's MINUTE and TALLY_SEQ. -/
def accountRecord (s : State) (d : Nat) : List Byte :=
  tallyRecord s d s.hlt.minute s.hlt.tallySeq (!s.hlt.frozen)

end Sys2Proof.Machine
end

