-- ==== Sys2Proof/Machine/Blocks.lean ====
section
/-! DEFINITION. Blocks in use: the current code tables (R237), what a damaged block raises (R246), packing and
expanding the rows of pages (R111 to R114, R239, R241). -/

namespace Sys2Proof.Machine

/-! ## Contexts and formats (R89, R189) -/

/-- Formats that a context names. -/
def Ctx.kvFormat (c : Ctx) : Fmt := if c.kvFmt = 1 then .e5m2 else .e4m3
def Ctx.qFormat (c : Ctx) : Fmt := if c.qFmt = 1 then .e4m3 else .bf16
def Ctx.outFormat (c : Ctx) : Fmt := if c.outFmt = 1 then .e4m3 else .bf16
def Ctx.actFormat (c : Ctx) : Fmt := if c.actFmt = 1 then .e4m3 else .bf16

/-- Block layout of a format (R231). -/
def layoutOf : Fmt → Nat
  | .e4m3 => 0
  | .e5m2 => 1
  | .bf16 => 2
  | .fp16 => 3
  | .ss4 => 4
  | _ => 5

/-- Context `c` of the module. -/
def ctxOf (s : State) (c : Nat) : Option Ctx := Tab.look c s.mdl.ctxs

/-- Page size S in tokens. -/
def pageTokens (s : State) : Nat := s.stw.charter.pageSize

/-- Bytes R, extents E_r, blocks n and map class of a raw page (R111, R112, R114). -/
def Ctx.rowBytes (c : Ctx) : Nat := c.nKv * c.headDim
def Ctx.rawBytes (c : Ctx) (size : Nat) : Nat := 2 * c.nKv * c.headDim * size
def Ctx.rawExtents (c : Ctx) (size : Nat) : Nat := cdiv (c.rawBytes size) Config.extentBytes
def Ctx.pageClass (c : Ctx) (size : Nat) : Nat := mapClass (c.rawBytes size / 4096)

/-- Bytes of a map of class `k` (R114). -/
def classBytes (k : Nat) : Nat := 256 * 2 ^ k

/-! ## Tables (R234 to R237) -/

/-- The code table of an installed entry, with the TAG written at installation. -/
def InstTable.code (t : InstTable) : Option CodeTable := CodeTable.read t.record

/-- All installed tables as the expander sees them. -/
def codeTables (s : State) : Tab CodeTable :=
  s.cmp.tables.filterMap (fun e => e.2.code.map (fun c => (e.1, c)))

/-- The current table of a READY context and role at a step: latest CURRENT_STEP, then the one applied later. -/
def currentTable (s : State) (context role step : Nat) : Option (Nat × CodeTable) :=
  let ready := ((ctxOf s context).map (fun c => c.state == .ready)).getD false
  (s.cmp.tables.foldl (fun (best : Option (Nat × Nat × Nat × CodeTable)) e =>
    match e.2.code with
    | none => best
    | some c =>
      if c.owner = context ∧ c.role = role ∧ e.2.currentStep ≤ step ∧ ready then
        match best with
        | none => some (e.2.currentStep, e.2.order, e.1, c)
        | some b =>
          if b.1 < e.2.currentStep ∨ (b.1 = e.2.currentStep ∧ b.2.1 < e.2.order) then
            some (e.2.currentStep, e.2.order, e.1, c) else best
      else best) none).map (fun b => b.2.2)

/-! ## Damage (R246) -/

/-- A damaged block is recorded: the code of its cause and where it was read. -/
def damageFound (code source : Nat) (s : State) : State :=
  let s := { s with cmp := { s.cmp with damageLast := code * 2 ^ 28 + source * 2 ^ 24 } }
  raise .blockDamaged (bump cDamaged 1 s)
def blockDamaged (cause : Damage) (source : Nat) (s : State) : State := damageFound cause.code source s

/-- Sources of CMP_DAMAGE_LAST (R252). -/
def fromGddr : Nat := 1
def fromTier2 : Nat := 2
def fromSram : Nat := 3
def fromWire : Nat := 4
def fromFragment : Nat := 5

/-- Pieces in order; the first damaged one decides. -/
def joinPieces : List (Except Damage (List Byte)) → Except Damage (List Byte)
  | [] => .ok []
  | .error d :: _ => .error d
  | .ok bs :: t =>
    match joinPieces t with
    | .error d => .error d
    | .ok r => .ok (bs ++ r)

/-- The blocks of a wire payload, expanded. -/
def expandWire (s : State) (payload : List Byte) : Except Damage (List Byte) :=
  joinPieces ((cutBlocks payload.length payload).map (expandRaw (codeTables s) none))

/-- One block of memory at an address, expanded: CHECK, decryption, then the other tests (R241, R244). -/
def expandStored (tables : Tab CodeTable) (owner : Option Nat) (key addr : Nat) (b : RawBlock) : Except Damage (List Byte) :=
  match RawBlock.unlock key addr b with
  | .error d => .error d
  | .ok p => expandOpen tables owner p

/-- Count the blocks a packer emitted (R252). -/
def countBlocks (bs : List Scb) (s : State) : State :=
  let coded := (bs.filter (fun b => b.h.kind = 1)).length
  let raw := bs.length - coded
  let s := wEvent s.cmp.coded (s.cmp.coded + coded) 9 0x20 s
  let s := wEvent s.cmp.raw (s.cmp.raw + raw) 9 0x28 s
  { s with cmp := { s.cmp with coded := s.cmp.coded + coded, raw := s.cmp.raw + raw } }

/-- Pack an activation for the wire: blocks in order, each a piece of its own (R240). -/
def packActivation (s : State) (context : Nat) (c : Ctx) (step : Nat) (raw : List Byte) : List Scb :=
  packAll (currentTable s context 2 step) (layoutOf c.actFormat) raw

/-! ## Rows of a page (R111) -/

/-- A row vector as bytes of a format. -/
def codesBytes (f : Fmt) (xs : List Nat) : List Byte := (xs.map (le f.size)).flatten

/-- Codes of a row of bytes. -/
def bytesCodes (f : Fmt) (bs : List Byte) : List Nat := (chunks f.size bs).map unle

/-- The raw page, head-major: keys of all slots, then values of all slots, for each head. -/
def rawPage (c : Ctx) (size : Nat) (rows : List (List Byte × List Byte)) : List Byte :=
  let hd := c.headDim
  let pick := fun (r : List Byte) h => fit hd ((r.drop (h * hd)).take hd)
  ((List.range c.nKv).map (fun h =>
    fit (hd * size) (rows.map (fun r => pick r.1 h)).flatten ++
    fit (hd * size) (rows.map (fun r => pick r.2 h)).flatten)).flatten

/-- The rows of a raw page: slots 0 to `n` − 1. -/
def pageRows (c : Ctx) (size n : Nat) (raw : List Byte) : List (List Byte × List Byte) :=
  let hd := c.headDim
  let part := fun h which j => (raw.drop ((2 * h + which) * hd * size + j * hd)).take hd
  (List.range n).map (fun j =>
    (((List.range c.nKv).map (fun h => part h 0 j)).flatten, ((List.range c.nKv).map (fun h => part h 1 j)).flatten))

/-- The memory key of a dike (R244, R295). -/
def memoryKey (s : State) (dike : Nat) : Nat := Tab.getD s.sec.memory dike 0

/-- Blocks as memory holds them: header bytes from the page map, payload from the extents (R113, R114). -/
def storedBlocks (bs : List (List Byte)) : List RawBlock := bs.map (fun b => (b.take 16, b.drop 16))

/-- Device addresses of payloads placed in a list of extents (R113). -/
def placedAt (ext : List Nat) (lens : List Nat) : List Nat :=
  (payloadPlaces lens (0, 0)).map (fun p => ext.getD p.1 0 * Config.extentBytes + p.2)

/-- Plaintext blocks as stored in a list of extents under a key (R244). -/
def lockAll (key : Nat) (ext : List Nat) (bs : List RawBlock) : List (List Byte) :=
  (bs.zip (placedAt ext (bs.map (fun b => b.2.length)))).map (fun b =>
    let r := RawBlock.lock key b.2 b.1
    r.1 ++ r.2)

/-- Readers use the copy in GDDR7: it is VALID and no error fell in it (R215, R227). -/
def Desc.readsCopy (d : Desc) : Bool := d.copy.isSome && !d.promoting && !d.copyBad

/-- The blocks of a sealed page with their addresses, in its VALID copy or at home (R215). -/
def Desc.placed (d : Desc) : List (Nat × RawBlock) :=
  let useCopy := d.readsCopy
  let bs := storedBlocks (if useCopy then d.copyBlocks else d.blocks)
  (placedAt (if useCopy then d.copyExt else d.homeExt) (bs.map (fun b => b.2.length))).zip bs

/-- The form that is read cannot be relied on. -/
def Desc.unreadable (d : Desc) : Bool := d.damaged && !d.readsCopy

/-- The blocks of a sealed page as they leave memory: checked, decrypted, CHECK computed again over plaintext; none where a
CHECK fails (R220, R245). -/
def Desc.plainBlocks (d : Desc) (s : State) : Option (List RawBlock) :=
  let bs := d.placed.map (fun b => RawBlock.unlock (memoryKey s d.tenant) b.1 b.2)
  if d.unreadable then none
  else bs.foldr (fun b r => match b, r with
    | .ok p, some t => some (RawBlock.recheck p :: t)
    | _, _ => none) (some [])

/-- The rows of a page as a reader finds them: raw, or expanded from its sealed form (R97, R241). -/
def Desc.content (d : Desc) (s : State) (c : Ctx) : Except Damage (List (List Byte × List Byte)) :=
  if d.state == .sealed then
    if d.unreadable then .error .check
    else match joinPieces (d.placed.map (fun b => expandStored (codeTables s) none (memoryKey s d.tenant) b.1 b.2)) with
      | .error e => .error e
      | .ok raw => .ok (pageRows c (pageTokens s) d.fill raw)
  else .ok d.rows

/-- The bytes of a page map (R114): the extent list, unused entries all ones, then the SCB headers, zero while raw. -/
def mapBytes (cls : Nat) (ext : List Nat) (blocks : List (List Byte)) : List Byte :=
  fit (classBytes cls) (((List.range 16).map (fun i => le 4 (ext.getD i 0xFFFFFFFF))).flatten ++
    (blocks.map (·.take 16)).flatten)

/-- The map of a page as it stands: raw until the switch, then that of its sealed form (R114, R121). -/
def Desc.pageMap (d : Desc) : List Byte :=
  if d.state == .sealed || d.object then mapBytes d.mapClass d.homeExt d.blocks else mapBytes d.mapClass d.rawExt []

end Sys2Proof.Machine
end

