-- ==== Sys2Proof/Machine/Weir.lean ====
section
/-! DEFINITION. The weir: deficit round robin at a port, the timing wheel, its two commands (R274 to R284). -/

namespace Sys2Proof.Machine

/-! ## The timing wheel (R279) -/

/-- Coarse tick at the instant now: entries whose coarse slot has come move to their fine slots. -/
def coarseTick (s : State) : State :=
  let t := s.tmu.now
  let move := fun (w : WQueue) => match w.pacing with
    | .coarse _ =>
      if w.e / 65536 / 1048576 ≤ t / 1048576 then { w with pacing := .fine (w.e / 65536 / 256 % 4096) } else w
    | _ => w
  { s with wei := { s.wei with queues := s.wei.queues.map (fun e => (e.1, move e.2)), coarseAt := t } }

/-- Fine tick at the instant now: entries whose fine slot has come pass to the release pacer. -/
def fineTick (s : State) : State :=
  let t := s.tmu.now
  let move := fun (w : WQueue) => match w.pacing with
    | .fine _ => if w.e / 65536 / 256 ≤ t / 256 then { w with pacing := .pacer } else w
    | _ => w
  { s with wei := { s.wei with queues := s.wei.queues.map (fun e => (e.1, move e.2)), fineAt := t } }

/-- The next instant that is a multiple of `n`: now itself where its tick has not been processed (`last`). -/
def nextMultiple (n last now : Nat) : Nat :=
  if now % n = 0 ∧ last < now then now else (now / n + 1) * n

/-- FINE_TICK (R279): the fine wheel advances; at a coarse instant the coarse slot is emptied first. -/
def execFineTick (s : State) : Host.Outcome State Fault Refusal :=
  if inService s then
    let s := setNow (nextMultiple 256 s.wei.fineAt s.tmu.now) s
    .next (fineTick (if s.tmu.now % 1048576 = 0 ∧ s.wei.coarseAt < s.tmu.now then coarseTick s else s))
  else .next s

/-- COARSE_TICK (R279): the coarse wheel advances. -/
def execCoarseTick (s : State) : Host.Outcome State Fault Refusal :=
  if inService s then .next (coarseTick (setNow (nextMultiple 1048576 s.wei.coarseAt s.tmu.now) s)) else .next s

/-- PACER_RELEASE (R279): a queue in the pacer becomes eligible at the first nanosecond not before E. -/
def execPacerRelease (queue : Nat) (s : State) : Host.Outcome State Fault Refusal :=
  if inService s && (queueOf s queue).pacing == .pacer then
    .next (testQueue queue (setNow (cdiv (queueOf s queue).e 65536) s))
  else .next s

/-! ## Service at a port (R276 to R278) -/

/-- Cost of a packet (R277). -/
def packetCost (f : Frame) : Nat := max f.payload.length 64

/-- What DRR chooses on a port, after rounds over its active list: the queue, and the state with deficits, fresh
marks and list order as the choice leaves them. `fuel` bounds the rounds. -/
def drrChoose (p : Nat) : Nat → State → Option Nat × State
  | 0, s => (none, s)
  | fuel + 1, s =>
    match activeOf s p with
    | [] => (none, s)
    | q :: rest =>
      let w := queueOf s q
      match w.on p with
      | [] => drrChoose p fuel (setActive p rest s)
      | f :: _ =>
        let d := Tab.getD w.deficit p 0 + (if w.fresh.contains p then w.quantum else 0)
        let w := { w with fresh := w.fresh.filter (· ≠ p) }
        if packetCost f ≤ d then
          (some q, setQueue q { w with deficit := Tab.put p (d - packetCost f) w.deficit } s)
        else
          let w := { w with deficit := Tab.put p d w.deficit, fresh := w.fresh ++ [p] }
          drrChoose p fuel (setActive p (rest ++ [q]) (setQueue q w s))

/-- A sent packet of cost `c` advances E of its queue (R278). -/
def advanceE (w : WQueue) (c now : Nat) : WQueue :=
  if w.rate = 0 then { w with lastCost := c, sent := w.sent + c }
  else { w with e := max w.e (vTime now) + cdiv (c * 65536000) w.rate, lastCost := c, sent := w.sent + c }

/-- Take the head packet of a queue's instance on a port, with its traffic class (R275). -/
def takeHead (q p : Nat) (s : State) : Option Frame × State :=
  let w := queueOf s q
  match w.on p with
  | [] => (none, s)
  | f :: t => (some { f with cls := queueClass s q }, setQueue q { w with inst := Tab.put p t w.inst } s)

/-- After DRR sent from `q` on `p`: an emptied instance leaves with deficit 0; the queue's rate is charged and it is
tested again. -/
def drrAfter (q p c : Nat) (s : State) : State :=
  let w := queueOf s q
  let empty := (w.on p).isEmpty
  let w := if empty then { w with deficit := Tab.put p 0 w.deficit } else w
  let s := setQueue q (advanceE w c s.tmu.now) s
  let s := wEvent w.sent (w.sent + c) 3 (0x110 + 24) s
  let s := if empty then setActive p ((activeOf s p).filter (· ≠ q)) s else s
  let w := queueOf s q
  if w.due s.tmu.now then s else testQueue q s

/-- A packet of CONTROL or STEP leaves: its cost is counted, and nothing paces it (R276, R285). -/
def takeDirect (q p : Nat) (s : State) : Option Frame × State :=
  match takeHead q p s with
  | (none, s) => (none, s)
  | (some f, s) =>
    let w := queueOf s q
    (some f, wEvent w.sent (w.sent + packetCost f) 3 (0x110 + 24)
      (setQueue q { w with lastCost := packetCost f, sent := w.sent + packetCost f } s))

/-- Rounds that a choice may take: each adds a quantum of at least 64 to every instance, and no cost is above 4,112. -/
def drrFuel (s : State) (p : Nat) : Nat := 66 * ((activeOf s p).length + 1)

/-- Take the next packet of a port: CONTROL, then STEP, then DRR (R276). -/
def nextFrame (p : Nat) (s : State) : Option Frame × State :=
  match (queueOf s 0).on p, (queueOf s 1).on p with
  | _ :: _, _ => takeDirect 0 p s
  | [], _ :: _ => takeDirect 1 p s
  | [], [] =>
    match drrChoose p (drrFuel s p) s with
    | (none, s) => (none, s)
    | (some q, s) =>
      match takeHead q p s with
      | (none, s) => (none, s)
      | (some f, s) => (some f, drrAfter q p (packetCost f) s)

/-! ## Configuration (R281, R283) -/

/-- WEI_CMD_RESULT (R285). -/
def weirResult (cmd cause object : Nat) (s : State) : State :=
  { s with wei := { s.wei with result := cmd * 2 ^ 28 + cause * 2 ^ 20 + object % 4096 } }

/-- A weir command is refused (R281). -/
def weirRefuse (t : Ticket) (cmd cause object : Nat) (s : State) : State :=
  refusedWith t cause (raise .weirRefused (weirResult cmd cause object s))

/-- A RATE change of a queue (R281): on the wheel E becomes the earlier of E and V plus its latest cost at the new
rate, and it enters again. -/
def rerate (w : WQueue) (rate now : Nat) : WQueue :=
  if rate = w.rate then w
  else
    let e := if rate = 0 then w.e else min w.e (vTime now + cdiv (w.lastCost * 65536000) rate)
    { w with rate := rate, e := if w.pacing = .eligible then w.e else e }

/-- SET_QUEUE as accepted. -/
def applySetQueue (q : Nat) (enable : Bool) (quantum rate : Nat) (s : State) : State :=
  let w := rerate (queueOf s q) rate s.tmu.now
  let s := testQueue q (setQueue q { w with enable := enable, quantum := quantum, explicit := true } s)
  if enable then s else leaveAll q s

/-- SET_QUEUE (R281) on a ticket. -/
def doSetQueue (t : Ticket) (q : Nat) (enable : Bool) (quantum rate : Nat) (s : State) : State :=
  if 4096 ≤ q ∨ quantum < 64 ∨ 65536 < quantum ∨ quantum % 64 ≠ 0 ∨ 1600000 < rate then
    weirRefuse t 1 causeRange q s
  else if q < 2 ∨ !queueAssigned q ∨ (q ≠ 2 ∧ !Tab.has (queueDike q) s.sec.leases) then
    weirRefuse t 1 causeUnknown q s
  else done t (weirResult 1 0 q (applySetQueue q enable quantum rate s))

/-- SET_POLICER (R281) on a ticket: enabling fills the bucket; a change keeps the tokens accrued, capped. -/
def doSetPolicer (t : Ticket) (d : Nat) (enable : Bool) (rate burst : Nat) (s : State) : State :=
  if rate < 1 ∨ 1600000 < rate ∨ burst < 4112 ∨ 16777216 < burst then weirRefuse t 2 causeRange d s
  else if !Tab.has d s.sec.leases then weirRefuse t 2 causeUnknown d s
  else
    let p := Tab.getD s.wei.policers d {}
    let tokens := if enable && !p.enable then burst * 1000 else min (burst * 1000) (p.tokensAt s.tmu.now)
    let p := { p with enable := enable, rate := rate, burst := burst, tokens := tokens, at_ := s.tmu.now }
    done t (weirResult 2 0 d { s with wei := { s.wei with policers := Tab.put d p s.wei.policers } })

/-- A packet of cost `c` of a dike meets its policer (R282): whether it passes. -/
def police (d c : Nat) (s : State) : Bool × State :=
  let p := Tab.getD s.wei.policers d {}
  if !p.enable then (true, s)
  else
    let have_ := p.tokensAt s.tmu.now
    let put := fun (p : Policer) => { s with wei := { s.wei with policers := Tab.put d p s.wei.policers } }
    if c * 1000 ≤ have_ then
      (true, wEvent p.passed (p.passed + c) 3 (0x210 + 16)
        (put { p with tokens := have_ - c * 1000, at_ := s.tmu.now, passed := p.passed + c }))
    else
      let n := sNext p.dropped 1
      (false, raise .policed (bump cPoliced 1 (sEvent p.dropped n 3 (0x210 + 24)
        (put { p with tokens := have_, at_ := s.tmu.now, dropped := n }))))

/-- The sub-queues of a new lease (R281); counts stay (R317). -/
def grantQueues (d cls : Nat) (s : State) : State :=
  (List.range 15).foldl (fun s k =>
    setQueue (dikeQueue d k) { enable := k == 0, quantum := leaseQuantum cls
                               sent := (queueOf s (dikeQueue d k)).sent } s) s

/-- A lease's CLASS changed: quanta of queues without EXPLICIT follow (R281). -/
def requantum (d cls : Nat) (s : State) : State :=
  (List.range 15).foldl (fun s k =>
    let q := dikeQueue d k
    let w := queueOf s q
    if w.explicit then s else setQueue q { w with quantum := leaseQuantum cls } s) s

/-- The ring command of an outgoing message, if one carries it. -/
def OutMsg.ticket (m : OutMsg) : Option Ticket :=
  match m.carried with
  | .hostWrite t _ => some t
  | .hostRead t _ => some t
  | .hostAtomic t => some t
  | _ => none

/-- A dike's lease ends: its queued packets are discarded, messages with a packet unsent end ABANDONED, its queues
and policer return to those of an ungranted dike (R283). -/
def flushDike (d : Nat) (s : State) : State :=
  let qs := (List.range 15).map (dikeQueue d)
  let n := (qs.map (fun q => (queueOf s q).queued)).sum
  let s := if n = 0 then s else raise .flushed (bump cFlush n s)
  let s := qs.foldl (fun s q => setQueue q { sent := (queueOf s q).sent } (leaveAll q s)) s
  let p := Tab.getD s.wei.policers d {}
  let s := { s with wei := { s.wei with
    policers := Tab.put d { passed := p.passed, dropped := p.dropped } s.wei.policers } }
  let cut := fun (m : OutMsg) => m.dike == d && qs.contains m.queue && decide (0 < m.unsent)
  let ended := (s.fab.out ++ s.fab.waiting).filter cut
  let s := { s with fab := { s.fab with out := s.fab.out.filter (fun m => !cut m)
                                        waiting := s.fab.waiting.filter (fun m => !cut m) } }
  let s := ended.foldl (fun s m => match m.ticket with | some t => abandoned t s | none => s) s
  startWaiting s

/-- A port goes down: its queued packets move to the next port in service, in their order (R283). -/
def movePort (p : Nat) (s : State) : State :=
  let dst := nextPort s (p + 1)
  if dst = p then s
  else
    let qs := s.wei.queues.filter (fun e => !(e.2.on p).isEmpty)
    let s := setActive p [] s
    qs.foldl (fun s e =>
      let w := queueOf s e.1
      let was := (w.on dst).isEmpty
      let s := setQueue e.1 { w with inst := Tab.put dst (w.on dst ++ w.on p) (Tab.put p [] w.inst) } s
      if isDrr e.1 && was && w.pacing == .eligible then joinActive e.1 dst s else s) s

end Sys2Proof.Machine
end

