-- ==== Sys2Proof/Machine/Windows.lean ====
section
/-! DEFINITION. Tenant objects as polders reach them (R213, R215, R219), the polders (R267 to R270), and the check
of dikes (R287). -/

namespace Sys2Proof.Machine

/-! ## Module-level faults, and dikes (R40, R287) -/

/-- Names of module-level faults (R40): the system area, both CXL ports, an access to a page of another dike, and links
from 100 on. -/
def faultSystem : Nat := 1
def faultTier2 : Nat := 2
def faultDike : Nat := 4
def faultLink (l : Nat) : Nat := 100 + l

/-- A module-level fault stands (R40). -/
def addFault (f : Nat) (s : State) : State :=
  if s.hlt.faults.contains f then s else { s with hlt := { s.hlt with faults := s.hlt.faults ++ [f] } }

/-- A module-level fault is gone. -/
def dropFault (f : Nat) (s : State) : State :=
  { s with hlt := { s.hlt with faults := s.hlt.faults.filter (· ≠ f) } }

/-- The dike that asks is not the page's or object's: DIKE_VIOLATION and a module-level fault (R287). -/
def violate (s : State) : State := addFault faultDike (raise .dikeViolation s)

/-- What a unit does to a page or object for a dike is done only where that dike is its TENANT (R287). -/
def forDike (dike i : Nat) (act : State → State) (s : State) : State :=
  match Tab.look i s.pgm.descs with
  | none => act s
  | some d => if d.tenant = dike then act s else violate s

/-! ## Descriptors and objects -/

/-- Change a descriptor that is not FREE. -/
def updDesc (i : Nat) (f : Desc → Desc) (s : State) : State :=
  { s with pgm := { s.pgm with descs := Tab.upd i f s.pgm.descs } }

/-- Put a descriptor. -/
def putDesc (i : Nat) (d : Desc) (s : State) : State :=
  { s with pgm := { s.pgm with descs := Tab.put i d s.pgm.descs } }

/-- The copy in GDDR7 that readers use (R215). -/
def Desc.copyValid (d : Desc) : Bool := d.copy.isSome && !d.promoting

/-- Bytes of an object (R213). -/
def Desc.size (d : Desc) : Nat := d.extents * Config.extentBytes

/-- A live object of a dike under a generation (R268). -/
def liveObject (s : State) (desc gen dike : Nat) : Option Desc :=
  match Tab.look desc s.pgm.descs with
  | none => none
  | some d =>
    if d.object && d.state == .hopper && d.tenant == dike && d.generation == gen && !d.freeing then some d else none

/-- One byte of an object: the copy's where there is one and it differs, else the home's (R215). -/
def Desc.byteAt (d : Desc) (off : Nat) : Byte :=
  if d.copyValid then (Tab.look off d.copyBytes).getD (Tab.getD d.bytes off 0) else Tab.getD d.bytes off 0

/-- Bytes of an object. -/
def Desc.read (d : Desc) (off n : Nat) : List Byte := (List.range n).map (fun i => d.byteAt (off + i))

/-- A placement into an object (R219): into a valid copy, which marks its extents DIRTY, or into the home. Once a copy is on its way
out, placements are fenced off it: they go to the home, and the copy no longer speaks for those bytes. -/
def Desc.write (d : Desc) (off : Nat) (bs : List Byte) : Desc :=
  if bs.isEmpty then d
  else if d.copyValid && d.demoting then
    { d with bytes := Tab.putRun off bs d.bytes
             copyBytes := d.copyBytes.filter (fun b => !(decide (off ≤ b.1) && decide (b.1 < off + bs.length))) }
  else if d.copyValid then
    let touched := (List.range d.extents).filter
      (fun i => decide (off < (i + 1) * Config.extentBytes) && decide (i * Config.extentBytes < off + bs.length))
    { d with copyBytes := Tab.putRun off bs d.copyBytes
             dirty := sortBy (fun a b => decide (a ≤ b)) (distinct (d.dirty ++ touched)) }
  else { d with bytes := Tab.putRun off bs d.bytes }

/-- Bytes of an object that are read or written are charged to its dike: those of GDDR7, or of tier 2 in lines of 256 B
(R309, R310); buffer SRAM is not counted. -/
def chargeObject (d : Desc) (n : Nat) (s : State) : State :=
  if d.copyValid || d.tier == .gddr then charge d.tenant 3 n s
  else if d.tier == .cxl then charge d.tenant 4 (cdiv n 256 * 256) s
  else s

/-- A placement of a polder: LEASE_STEP records its step (R217). -/
def placeObject (desc off : Nat) (bs : List Byte) (s : State) : State :=
  match Tab.look desc s.pgm.descs with
  | none => s
  | some d =>
    chargeObject d bs.length (putDesc desc { d.write off bs with lease := some (stepNo s), lastRead := stepNo s } s)

/-! ## Polders -/

/-- Record of a window; intake windows follow the leases. -/
def windowOf (s : State) (w : Nat) : Window :=
  if w < 256 then { dike := w, state := if s.fab.intake.contains w then .opened else .closed }
  else Tab.getD s.fab.windows w {}

/-- Set a polder's record. -/
def setWindow (w : Nat) (r : Window) (s : State) : State :=
  { s with fab := { s.fab with windows := Tab.put w r s.fab.windows } }

/-- First id after the polders. -/
def windowEnd : Nat := 1048576

/-- The id OPEN_WINDOW takes (R268): a CLOSED polder whose last opening lies 500 µs back, closed longest, ties to
the lower id; an id never opened has been closed since power-good. -/
def pickWindow (s : State) : Option Nat :=
  match firstFrom (fun w => !Tab.has w s.fab.windows) 256 (windowEnd - 256) with
  | some w => some w
  | none =>
    let ready := s.fab.windows.filter (fun e => e.2.state == .closed &&
      (match e.2.openedAt with | none => true | some t => decide (t + 500000 ≤ s.tmu.now)))
    let best := ready.foldl (fun (b : Option (Nat × Nat)) e =>
      match b with
      | none => some (e.2.closedAt, e.1)
      | some c => if e.2.closedAt < c.1 then some (e.2.closedAt, e.1) else b) none
    best.map (·.2)

/-- Polders a dike holds. -/
def poldersOf (s : State) (d : Nat) : Nat :=
  (s.fab.windows.filter (fun e => e.2.dike == d && e.2.state != .closed)).length

/-- The fields fit the object (R267, R268). -/
def winOpsOk (o : WinOps) (d : Desc) : Bool :=
  decide (1 ≤ o.rights) && decide (o.rights < 16) && decide (o.ring < 64) && o.base % 64 == 0 && o.length % 64 == 0 &&
  decide (64 ≤ o.length) && decide (o.base + o.length ≤ d.size)

/-- The test of a window's fields for a dike: the cause that refuses them, if any. -/
def winRefusal (s : State) (d : Nat) (o : WinOps) : Option Nat :=
  match liveObject s o.desc o.descGen d with
  | none => some causeUnknown
  | some obj => if winOpsOk o obj then none else some causeRange

/-- A window enters OPEN with new fields under its current generation. -/
def openAs (w d : Nat) (o : WinOps) (s : State) : State :=
  setWindow w { windowOf s w with
    key := o.key, desc := o.desc, descGen := o.descGen, state := .opened, dike := d, rights := o.rights
    ring := o.ring, base := o.base, length := o.length, openedAt := some s.tmu.now
    ticket := none, reopen := none } s

/-- Completion of an opening: id and generation (R365). -/
def openedResult (t : Ticket) (w : Nat) (s : State) : State :=
  doneWith t (w + (windowOf s w).gen * 2 ^ 32) 0 s

/-- OPEN_WINDOW (R268) for dike `d`. -/
def doOpenWindow (t : Ticket) (d : Nat) (o : WinOps) (s : State) : State :=
  if s.stw.charter.winQuota ≤ poldersOf s d then reasonWith t rQuota s
  else match winRefusal s d o with
    | some c => refusedWith t c s
    | none =>
      match pickWindow s with
      | none => refusedWith t causeBusy s
      | some w => openedResult t w (openAs w d o s)

/-- Revocation begins (R270): REVOKING, the generation rises. -/
def beginRevoke (w : Nat) (t : Option Ticket) (reopen : Option WinOps) (s : State) : State :=
  let r := windowOf s w
  setWindow w { r with state := .revoking, gen := (r.gen + 1) % 4096, revoked := true, revokedAt := s.tmu.now, fenced := []
                       ticket := t, reopen := reopen } s

/-- A window command meets a window that has another one under way (log 30). -/
def Window.busy (r : Window) : Bool := r.state == .revoking || r.ticket.isSome

/-- REVOKE_WINDOW (R268, R270). -/
def doRevokeWindow (t : Ticket) (d w : Nat) (s : State) : State :=
  let r := windowOf s w
  if w < 256 ∨ windowEnd ≤ w then refusedWith t causeRange s
  else if r.state == .closed then done t s
  else if r.dike ≠ d then refusedWith t causeUnknown s
  else if r.busy then refusedWith t causeBusy s
  else beginRevoke w (some t) none s

/-- REOPEN_WINDOW (R268): at once, or held until 500 µs after the id's last opening. -/
def doReopenWindow (t : Ticket) (d w : Nat) (o : WinOps) (s : State) : State :=
  let r := windowOf s w
  if w < 256 ∨ windowEnd ≤ w then refusedWith t causeRange s
  else if r.state == .closed ∨ r.dike ≠ d then refusedWith t causeUnknown s
  else if r.busy then refusedWith t causeBusy s
  else match winRefusal s d o with
    | some c => refusedWith t c s
    | none =>
      if r.openedAt.getD 0 + 500000 ≤ s.tmu.now then beginRevoke w (some t) (some o) s
      else setWindow w { r with ticket := some t, reopen := some o } s

/-- A window is revoked by something other than its own command (R269): a held REOPEN_WINDOW ends refused. -/
def forceRevoke (w : Nat) (s : State) : State :=
  let r := windowOf s w
  match r.state with
  | .closed => s
  | .revoking => s
  | .opened =>
    let s := beginRevoke w none none s
    match r.ticket with
    | some t => refusedWith t causeUnknown s
    | none => s

/-- Revocation completes (R270): CLOSED, or OPEN again where the fields still name a live object. -/
def finishRevoke (w : Nat) (s : State) : State :=
  let r := windowOf s w
  if r.state != .revoking then s
  else
    let closed := { r with state := .closed, closedAt := s.tmu.now, ticket := none, reopen := none }
    match r.ticket, r.reopen with
    | some t, some o =>
      match winRefusal s r.dike o with
      | none => openedResult t w (openAs w r.dike o s)
      | some c => refusedWith t c (setWindow w closed s)
    | some t, none => done t (setWindow w closed s)
    | none, _ => setWindow w closed s

/-- REVOCATION_COMPLETE (R270): every accepted placement has landed. -/
def execRevocationComplete (window : Nat) (s : State) : Host.Outcome State Fault Refusal :=
  .next (if 256 ≤ window then finishRevoke window s else s)

/-- REOPEN_DELAY_EXPIRED (R268): a held REOPEN_WINDOW is applied. -/
def execReopenDelayExpired (at_ window : Nat) (s : State) : Host.Outcome State Fault Refusal :=
  let s := setNow at_ s
  let r := windowOf s window
  match r.state, r.ticket, r.reopen with
  | .opened, some t, some o =>
    if 256 ≤ window ∧ r.openedAt.getD 0 + 500000 ≤ s.tmu.now then
      match winRefusal s r.dike o with
      | none => .next (beginRevoke window (some t) (some o) s)
      | some c => .next (refusedWith t c (setWindow window { r with ticket := none, reopen := none } s))
    else .next s
  | _, _, _ => .next s

/-- Windows onto one object. -/
def windowsOnto (s : State) (desc gen : Nat) : List Nat :=
  (s.fab.windows.filter (fun e => e.2.desc == desc && e.2.descGen == gen && e.2.state != .closed)).map (·.1)

/-- Revoke every window of a dike (R269). -/
def revokeDike (d : Nat) (s : State) : State :=
  ((s.fab.windows.filter (fun e => e.2.dike == d)).map (·.1)).foldl (fun s w => forceRevoke w s) s

/-- An intake window opens or closes with its dike's lease. -/
def setIntake (d : Nat) (open_ : Bool) (s : State) : State :=
  let rest := s.fab.intake.filter (· ≠ d)
  { s with fab := { s.fab with intake := if open_ then rest ++ [d] else rest } }

end Sys2Proof.Machine
end

