-- ==== Sys2Proof/Machine/Pages.lean ====
section
/-! DEFINITION. Pages: counts of extents, reference counts, hoppers, sealing, copy-on-write, freeboards, release and
reclamation, the prefix table (R115 to R138). -/

namespace Sys2Proof.Machine

/-! ## Sequences and their pages -/

/-- Entry of a slot. -/
def seqAt (s : State) (slot : Nat) : Option Seq := Tab.look slot s.sqs.seqs

/-- Ownership record of a slot. -/
def recAt (s : State) (slot : Nat) : Option OwnRec := Tab.look slot s.slc.recs

/-- Change an entry. -/
def updSeq (slot : Nat) (f : Seq → Seq) (s : State) : State :=
  { s with sqs := { s.sqs with seqs := Tab.upd slot f s.sqs.seqs } }

/-- Put an entry. -/
def putSeq (slot : Nat) (e : Seq) (s : State) : State :=
  { s with sqs := { s.sqs with seqs := Tab.put slot e s.sqs.seqs } }

/-- Pages of layer `l`. -/
def Seq.layer (e : Seq) (l : Nat) : LayerPages := e.layers.getD l {}

/-- Change the pages of layer `l`. -/
def updLayer (slot l : Nat) (f : LayerPages → LayerPages) (s : State) : State :=
  updSeq slot (fun e => { e with layers := setAt e.layers l (f (e.layer l)) }) s

/-- A descriptor that is not FREE. -/
def descAt (s : State) (i : Nat) : Option Desc := Tab.look i s.pgm.descs

/-! ## Counts of extents (R124, R139, R209) -/

/-- The tier in which sealed pages are homed, where seal credit is reserved (R212). -/
def kvTier (s : State) : Tier := if s.stw.charter.kvAlloc = 1 then .cxl else .gddr

/-- Extents of the page pool (R209). -/
def poolExtents (s : State) : Nat := (116 - s.stw.charter.weightCache) * 16384

/-- Extents of the ACTIVE tier segments (R221). -/
def tier2Extents (s : State) : Nat :=
  ((s.tir.segments.filter (fun g => g.state == .active)).map (fun g => g.size * 16384)).sum

/-- Extents a descriptor holds in a tier: raw ones in GDDR7, the sealed form or the object in its home, a copy in
GDDR7. -/
def Desc.held (d : Desc) (kv t : Tier) : Nat :=
  (if t == .gddr then d.rawHeld + (if d.copy.isSome then d.extents else 0) else 0) +
  (if d.object then (if d.tier == t then d.extents else 0) else if kv == t then d.sealHeld else 0)

/-- Maps a descriptor holds: address [47:8] and class. -/
def Desc.maps (d : Desc) : List (Nat × Nat) :=
  (d.rawMap.toList ++ d.homeMap.toList ++ d.copyMap.toList).map (fun m => (m, d.mapClass))

/-- Extents a descriptor has by address. -/
def Desc.exts (d : Desc) : List Nat := d.rawExt ++ d.homeExt ++ d.copyExt

/-- Unused credit of a sequence in pages. -/
def Seq.creditPages (e : Seq) : Nat := (e.layers.map (·.credit)).sum

/-- Extents of one page of a sequence's context, and its map class. -/
def Seq.pageExtents (s : State) (e : Seq) : Nat := ((ctxOf s e.context).map (fun c => c.rawExtents (pageTokens s))).getD 0
def Seq.mapClass (s : State) (e : Seq) : Nat := ((ctxOf s e.context).map (fun c => c.pageClass (pageTokens s))).getD 0

/-- Seal credit reserved and not drawn, in extents (PGM_CREDIT). -/
def creditExtents (s : State) : Nat :=
  ((Tab.vals s.sqs.seqs).map (fun e => e.creditPages * Seq.pageExtents s e)).sum

/-- Maps held or reserved: address [47:8] and class (R124). -/
def mapsHeld (s : State) : List (Nat × Nat) :=
  ((Tab.vals s.pgm.descs).map Desc.maps).flatten ++
  ((Tab.vals s.sqs.seqs).map (fun e => ((e.layers.map (·.maps)).flatten).map (fun m => (m, Seq.mapClass s e)))).flatten

/-- An extent by address [47:16] lies in a tier (R207). -/
def inTier (t : Tier) (x : Nat) : Bool :=
  match t with
  | .gddr => decide (x < 0x40_0000)
  | .sram => decide (0x40_0000 ≤ x) && decide (x < 0x1000_0000)
  | .cxl => decide (0x1000_0000 ≤ x)

/-- Extents of a tier segment in the CXL tier: first address [47:16], and how many (R207, R221). -/
def segmentExtents (g : Segment) : Nat × Nat := (0x1000_0000 + g.base * 16384, g.size * 16384)

/-- An extent can be reached: in the CXL tier it lies in an ACTIVE segment (R221, R227). -/
def reachable (s : State) (x : Nat) : Bool :=
  !inTier .cxl x || s.tir.segments.any (fun g => g.state == .active && decide ((segmentExtents g).1 ≤ x) &&
    decide (x < (segmentExtents g).1 + (segmentExtents g).2))

/-- Map extents in use in a tier: one is in use while a map in it is held or reserved (R124). -/
def mapExtentsAt (s : State) (t : Tier) : List Nat :=
  (distinct ((mapsHeld s).map (fun m => m.1 / 256))).filter (fun x => inTier t x && reachable s x)
def mapExtents (s : State) (t : Tier) : Nat := (mapExtentsAt s t).length

/-- Extents of homes in segments that are no longer ACTIVE: they count neither as free nor as used (R221, R227). -/
def lostExtents (s : State) (t : Tier) : Nat :=
  if t == .cxl then ((Tab.vals s.pgm.descs).map (fun d => (d.homeExt.filter (fun x => !reachable s x)).length)).sum else 0

/-- Extents in use or reserved in a tier. -/
def usedExtents (s : State) (t : Tier) : Nat :=
  let kv := kvTier s
  ((Tab.vals s.pgm.descs).map (fun d => d.held kv t)).sum - lostExtents s t + mapExtents s t +
  (if kv == t then creditExtents s else 0) +
  (if t == .gddr then ((Tab.vals s.sqs.seqs).map (·.histExtents)).sum else 0)

/-- Unreserved free extents (PGM_FREE_GDDR, PGM_FREE_T2). -/
def freeGddr (s : State) : Nat := poolExtents s - usedExtents s .gddr
def freeT2 (s : State) : Nat := tier2Extents s - usedExtents s .cxl

/-- What is reserved in a tier fits, and every part of it was taken in full (R125). -/
def fitsGddr (s : State) : Bool := decide (usedExtents s .gddr ≤ poolExtents s)
def fitsT2 (s : State) : Bool := decide (usedExtents s .cxl ≤ tier2Extents s)
def fits (s : State) : Bool := fitsGddr s && fitsT2 s && !s.pgm.short

/-! ## Addresses (R112 to R115, R124, R207, R209, R221) -/

/-- First extent of the page pool by address [47:16]: after the system area and the weight cache (R209). -/
def poolBase (s : State) : Nat := (4 + s.stw.charter.weightCache) * 16384

/-- Extent `k` of a tier. -/
def extentAt (s : State) (t : Tier) (k : Nat) : Nat :=
  match t with
  | .gddr => poolBase s + k
  | .sram => 0x40_0000 + k
  | .cxl => ((s.tir.segments.filter (fun g => g.state == .active)).foldl (fun (r : Option Nat × Nat) g =>
      match r.1 with
      | some a => (some a, r.2)
      | none => if r.2 < (segmentExtents g).2 then (some ((segmentExtents g).1 + r.2), r.2)
          else (none, r.2 - (segmentExtents g).2)) (none, k)).1.getD 0

/-- Extents of a tier; of buffer SRAM those of the object pool (R211). -/
def extentCount (s : State) (t : Tier) : Nat :=
  match t with
  | .gddr => poolExtents s
  | .sram => 1024
  | .cxl => tier2Extents s

/-- Extents that something has: pages, objects, copies, histories, maps. -/
def extentsNamed (s : State) : List Nat :=
  ((Tab.vals s.pgm.descs).map Desc.exts).flatten ++ ((Tab.vals s.sqs.seqs).map (·.histAt)).flatten ++
  (mapsHeld s).map (fun m => m.1 / 256)

/-- Extents for `n` pieces of data, none of them named by anything else; which is open (log 122). Fewer where there are none
left. -/
def takeExtents (t : Tier) : Nat → List Nat → State → List Nat × State
  | 0, got, s => (got, s)
  | n + 1, got, s =>
    let r := freeSlot (fun k => (extentsNamed s ++ got).contains (extentAt s t k)) (extentCount s t) s
    takeExtents t n (got ++ (r.1.map (extentAt s t)).toList) r.2

/-- Places of maps of a class in an extent, by address [47:8] (R114). -/
def mapPlaces (k x : Nat) : List Nat := (List.range (256 / 2 ^ k)).map (fun i => x * 256 + i * 2 ^ k)

/-- A map of a class in a tier: in a map extent of the class that is in use and has room, else in a new one (R124). `got`
are maps taken already. Which place is open (log 122). -/
def takeMap (t : Tier) (k : Nat) (got : List Nat) (s : State) : Option Nat × State :=
  let held := mapsHeld s ++ got.map (fun m => (m, k))
  let places := ((distinct ((held.filter (fun m => m.2 == k)).map (fun m => m.1 / 256))).filter (fun x => inTier t x &&
    reachable s x)).flatMap (mapPlaces k)
  let open_ := places.filter (fun a => !held.any (fun m => m.1 == a))
  let old := freeOf open_ 0 s
  let mine := got.map (· / 256)
  let fresh := takeExtents t 1 mine old.2
  let place := freeOf (mapPlaces k (fresh.1.getD mine.length 0)) 0 fresh.2
  (if !open_.isEmpty then some old.1 else if fresh.1.length = mine.length then none else some place.1, place.2)

/-- `n` maps of a class. -/
def takeMaps (t : Tier) (k : Nat) : Nat → List Nat → State → List Nat × State
  | 0, got, s => (got, s)
  | n + 1, got, s => takeMaps t k n (got ++ (takeMap t k got s).1.toList) (takeMap t k got s).2

/-- Lines of 64 bytes, by address [47:6], in the system area: blocks of page lists and head arrays (R115, R141, R209). -/
def linesNamed (s : State) : List Nat :=
  ((Tab.vals s.sqs.seqs).map (fun e => (e.layers.map (·.lines)).flatten ++
    (List.range (cdiv e.layers.length 8)).map (e.heads + ·))).flatten

/-- A run of `n` free lines of the system area; which is open (log 122). -/
def takeLines (n : Nat) (s : State) : Nat × State :=
  let r := freeSlot (fun k => (List.range n).any (fun i => (linesNamed s).contains (k + i))) (2 ^ 26 - n) s
  (r.1.getD 0, r.2)

/-- Descriptors of a page counted against PAGE_QUOTA: one, and one more while its raw extents wait to become the
spare. -/
def Desc.quota (d : Desc) : Nat := if d.object then 1 else b2n (decide (0 < d.rawHeld)) + b2n (decide (0 < d.sealHeld))

/-- Pages a tenant holds, freeboards included (R28, R124). -/
def pagesOf (s : State) (tenant : Nat) : Nat :=
  (((Tab.vals s.pgm.descs).filter (fun d => d.tenant == tenant)).map Desc.quota).sum +
  (((Tab.vals s.sqs.seqs).filter (fun e => e.tenant == tenant)).map Seq.creditPages).sum

/-! ## Descriptors -/

/-- Take a FREE descriptor: its generation rises (R116). -/
def newDesc (d : Desc) (s : State) : Option Nat × State :=
  let r := freeSlot (fun i => Tab.has i s.pgm.descs) Config.descCount s
  match r.1 with
  | none => (none, r.2)
  | some i =>
    let s := r.2
    let g := (Tab.getD s.pgm.gens i 0 + 1) % 65536
    (some i, { s with pgm := { s.pgm with
      descs := Tab.put i { d with generation := g } s.pgm.descs
      gens := Tab.put i g s.pgm.gens } })

/-- A holder is added (R117); a RELEASED page takes none (R118). -/
def incRef (i : Nat) (s : State) : State :=
  updDesc i (fun d => if d.state == .released then d else { d with refcount := d.refcount + 1 }) s

/-- A holder is taken away; at 0 the page enters RELEASED (R118, R135). -/
def decRef (i : Nat) (s : State) : State :=
  updDesc i (fun d =>
    let n := d.refcount - 1
    { d with refcount := n, state := if n = 0 then .released else d.state }) s

/-- The oldest step with an item that has not completed, shadow recomputations and referees included (R134, R342). -/
def oldestLive (s : State) : Option Nat :=
  minOf ((s.car.items.filter (fun i => !i.done || !i.shadowed)).map (·.step) ++ s.hlt.mismatches.map (·.item.step) ++
    s.hlt.forcedLive.toList)

/-- LEASE_STEP is not before a step, by serial-number arithmetic on 16 bits (R135, R319). -/
def leaseReaches (lease step : Nat) : Bool := decide ((lease % 65536 + 65536 - step % 65536) % 65536 < 32768)

/-- A live lease covers the page (R134, R135). -/
def covered (s : State) (d : Desc) : Bool :=
  match d.lease, oldestLive s with
  | some l, some o => leaseReaches l o
  | _, _ => false

/-- Take a read lease for a step (R134). -/
def leaseDesc (i step : Nat) (s : State) : State :=
  updDesc i (fun d => { d with lease := some step, lastRead := step }) s

/-! ## Page lists and hoppers (R115, R119, R138) -/

/-- WINDOW of a layer of a context. -/
def layerWindow (s : State) (context l : Nat) : Nat :=
  ((ctxOf s context).bind (fun c => c.layers[l]?)).map (·.window) |>.getD 0

/-- The 64-byte blocks that a page list needs: 14 entries each (R115). -/
def LayerPages.blocksNeeded (p : LayerPages) : Nat := cdiv p.list.length 14

/-- Page lists get the blocks they need. -/
def fitLines (slot l : Nat) (s : State) : State :=
  match seqAt s slot with
  | none => s
  | some e =>
    let p := e.layer l
    if p.lines.length < p.blocksNeeded then
      let r := takeLines 1 s
      updLayer slot l (fun p => { p with lines := p.lines ++ [r.1] }) r.2
    else updLayer slot l (fun p => { p with lines := p.lines.take p.blocksNeeded }) s

/-- The 64-byte block `k` of a page list (R115): 14 entries, unused ones all ones, and the address of the next block, all ones
at the end. -/
def LayerPages.block (p : LayerPages) (k : Nat) : List Byte :=
  ((List.range 14).map (fun i => le 4 (p.list.getD (14 * k + i) 0xFFFFFFFF))).flatten ++
  (if k + 1 < p.blocksNeeded then le 8 (p.lines.getD (k + 1) 0) else le 8 0xFFFFFFFFFFFFFFFF)

/-- The head array of an entry: the address of the first block of each layer's list (R141). -/
def Seq.headArray (e : Seq) : List Byte := (e.layers.map (fun p => le 8 (p.lines.headD 0))).flatten

/-- The list itself. -/
def pushList (slot l i : Nat) (s : State) : State :=
  match seqAt s slot with
  | none => s
  | some e =>
    let w := layerWindow s e.context l
    let list := (e.layer l).list ++ [i]
    let slots := cdiv w (pageTokens s) + 1
    if w = 0 ∨ list.length ≤ slots then updLayer slot l (fun p => { p with list := list }) s
    else
      let s := updLayer slot l (fun p => { p with list := list.drop 1 }) s
      match list with
      | o :: _ => decRef o s
      | [] => s

/-- Add a page at the end of a layer's list; a window layer's ring drops its oldest page (R138). -/
def pushPage (slot l i : Nat) (s : State) : State :=
  fitLines slot l (pushList slot l i s)

/-- The hopper of a layer, if its list ends in one. -/
def hopperOf (s : State) (e : Seq) (l : Nat) : Option (Nat × Desc) :=
  match (e.layer l).list.getLast? with
  | none => none
  | some i =>
    match descAt s i with
    | some d => if d.state == .hopper then some (i, d) else none
    | none => none

/-- A SPARE page becomes the hopper for positions from `pos` (R119). -/
def openHopper (slot l i pos : Nat) (s : State) : State :=
  pushPage slot l i (updDesc i (fun d => { d with state := .hopper, firstPos := pos, fill := 0, rows := [] }) s)

/-- Make sure the layer has a hopper: its own unused allowance, or its spare. None where neither is there (R123). -/
def ensureHopper (slot l pos : Nat) (s : State) : Option State :=
  match seqAt s slot with
  | none => none
  | some e =>
    match hopperOf s e l with
    | some _ => some s
    | none =>
      match (e.layer l).unused, (e.layer l).spare with
      | some u, _ => some (openHopper slot l u pos (updLayer slot l (fun p => { p with unused := none }) s))
      | none, some u => some (openHopper slot l u pos (updLayer slot l (fun p => { p with spare := none }) s))
      | none, none => none

/-- The lowest-handled holder of a page, other than `slot`, that has an unused hopper allowance in layer `l`
(R132). -/
def otherAllowance (s : State) (slot l page : Nat) : Option (Nat × Nat) :=
  let cands := s.sqs.seqs.filter (fun e =>
    e.1 ≠ slot && (e.2.layer l).list.contains page && (e.2.layer l).unused.isSome)
  let best := cands.foldl (fun (b : Option (Nat × Seq)) e =>
    match b with
    | none => some e
    | some c => if e.2.handle < c.2.handle then some e else b) none
  match best with
  | none => none
  | some e => (e.2.layer l).unused.map (fun u => (e.1, u))

/-- Copy-on-write of a shared hopper before an append at `pos` (R132, R133): its cycles and the bytes read and written are the
copier's (R310). -/
def copyHopper (slot l pos : Nat) (i : Nat) (d : Desc) (s : State) : State :=
  match seqAt s slot with
  | none => s
  | some e =>
    let own := (e.layer l).unused
    let use := match own with
      | some u => some (slot, u)
      | none => otherAllowance s slot l i
    match use with
    | none => s
    | some (who, u) =>
      let s := updLayer who l (fun p => { p with unused := none }) s
      let s := if who = slot then s else updDesc i (fun d => { d with holder := some who }) s
      let kept := d.rows.take (pos - d.firstPos)
      let s := updDesc u (fun c => { c with state := .hopper, firstPos := d.firstPos, fill := kept.length,
                                            rows := kept, holder := some slot }) s
      let s := decRef i s
      let s := updLayer slot l (fun p => { p with list := p.list.map (fun x => if x = i then u else x) }) s
      let r := ((ctxOf s e.context).map (fun c => c.rawBytes (pageTokens s))).getD 0
      bump cCow 1 (charge e.tenant 3 (2 * r) (charge e.tenant 0 (64 + cdiv (r * 36) 320) s))

/-- Holders of a shared hopper that append to it in this step and come before `slot` in the work list, but whose row has not
been placed yet (R133): ascending handle. -/
def earlierHolders (s : State) (slot l i pos : Nat) : Nat :=
  (s.sqs.seqs.filter (fun e => decide (e.2.handle < ((seqAt s slot).map (·.handle)).getD 0) &&
    (e.2.state == .decode || e.2.state == .draining) && e.2.chunks.isEmpty && !e.2.deferred &&
    (e.2.layer l).list.contains i && e.2.position == pos &&
    !s.car.rows.any (fun r => r.handle == e.2.handle && r.layer == l && r.pos == pos && r.placed))).length

/-- A holder copies a shared page before it appends at a position that lies in it, unless it is the last in the order of the
work list (R132, R133). A page that a later holder has filled in place is copied as it stood. -/
def mustCopy (s : State) (slot l i pos : Nat) (d : Desc) : Bool :=
  decide (d.firstPos ≤ pos) && decide (pos < d.firstPos + pageTokens s) &&
  ((d.state == .hopper && decide (1 < d.refcount - earlierHolders s slot l i pos)) || d.state == .sealing)

/-- The last page of a layer's list. -/
def lastPage (s : State) (e : Seq) (l : Nat) : Option (Nat × Desc) :=
  (e.layer l).list.getLast?.bind (fun i => (descAt s i).map (fun d => (i, d)))

/-- The copy, where one is due. -/
def copyIfShared (slot l pos : Nat) (s : State) : State :=
  match (seqAt s slot).bind (fun e => lastPage s e l) with
  | none => s
  | some (i, d) => if mustCopy s slot l i pos d then copyHopper slot l pos i d s else s

/-- A map reserved with the credit is drawn with it (R124). -/
def drawMap (s : State) (slot l : Nat) : Option Nat := (seqAt s slot).bind (fun e => (e.layer l).maps.head?)

/-- Credit drawn for one page, with its map. -/
def drawCredit (slot l : Nat) (s : State) : State :=
  updLayer slot l (fun p => { p with credit := p.credit - 1, maps := p.maps.drop 1 }) s

/-- A full page moves to SEALING: credit is drawn and the packer holds it (R119, R121). -/
def startSeal (slot l i step : Nat) (s : State) : State :=
  match seqAt s slot with
  | none => s
  | some e =>
    let m := drawMap s slot l
    updDesc i (fun d => { d with state := .sealing, packed := false, filledAt := step, refcount := d.refcount + 1
                                 sealHeld := Seq.pageExtents s e, homeMap := m }) (drawCredit slot l s)

/-- Append one row to the hopper of a layer (R119, R132); none where no hopper can be had. -/
def appendRow (slot l pos step : Nat) (k v : List Byte) (s : State) : Option State :=
  match ensureHopper slot l pos (copyIfShared slot l pos s) with
  | none => none
  | some s =>
    match (seqAt s slot).bind (fun e => hopperOf s e l) with
    | none => none
    | some (i, d) =>
      let s := updDesc i (fun d => { d with rows := d.rows ++ [(k, v)], fill := d.fill + 1 }) s
      if d.fill + 1 < pageTokens s then some s
      else
        let s := startSeal slot l i step s
        match ((seqAt s slot).map (fun e => (e.layer l).spare)).getD none with
        | none => some s
        | some u => some (openHopper slot l u (pos + 1) (updLayer slot l (fun p => { p with spare := none }) s))

/-- Append rows one after another. -/
def appendRows (slot l step : Nat) : Nat → List (List Byte × List Byte) → State → Option State
  | _, [], s => some s
  | pos, r :: t, s =>
    match appendRow slot l pos step r.1 r.2 s with
    | none => none
    | some s => appendRows slot l step (pos + 1) t s

/-- A page packed directly from staging (R122): FREE to SEALING on credit. -/
def stagedPage (slot l pos step : Nat) (rows : List (List Byte × List Byte)) (s : State) : State :=
  match seqAt s slot with
  | none => s
  | some e =>
    let n := Seq.pageExtents s e
    let r := newDesc { state := .sealing, alloc := if kvTier s == .cxl then 2 else 0, tenant := e.tenant, layer := l
                       context := e.context, firstPos := pos, fill := rows.length, extents := n
                       mapClass := Seq.mapClass s e, refcount := 2, rows := rows, filledAt := step
                       fromStaging := true, holder := some slot, sealHeld := n, homeMap := drawMap s slot l
                       windowRing := decide (0 < layerWindow s e.context l) } s
    match r.1 with
    | none => r.2
    | some i => pushPage slot l i (drawCredit slot l r.2)

/-- The pages completed whole from staging, in order; the rows left over and their first position. -/
def stagedPages (slot l step size : Nat) :
    Nat → Nat → List (List Byte × List Byte) → State → Nat × List (List Byte × List Byte) × State
  | 0, pos, rows, s => (pos, rows, s)
  | fuel + 1, pos, rows, s =>
    if size ≤ rows.length then
      stagedPages slot l step size fuel (pos + size) (rows.drop size) (stagedPage slot l pos step (rows.take size) s)
    else (pos, rows, s)

/-- An empty hopper at the end of a list is taken off while staged pages are put before it. -/
def liftHopper (slot l : Nat) (s : State) : Option Nat × State :=
  match (seqAt s slot).bind (fun e => hopperOf s e l) with
  | some (i, d) =>
    if d.fill = 0 then (some i, updLayer slot l (fun p => { p with list := p.list.dropLast }) s) else (none, s)
  | none => (none, s)

/-- Append the staged rows of a sequence-layer (R99, R122): the page begun in the hopper first, then whole pages from
staging, then the rest into the hopper. -/
def appendStaged (slot l first step : Nat) (rows : List (List Byte × List Byte)) (s : State) : Option State :=
  let size := pageTokens s
  let begun := match (seqAt s slot).bind (fun e => hopperOf s e l) with
    | some (_, d) => if 0 < d.fill then min rows.length (size - d.fill) else 0
    | none => 0
  match appendRows slot l step first (rows.take begun) s with
  | none => none
  | some s =>
    let lift := liftHopper slot l s
    let r := stagedPages slot l step size (rows.length + 1) (first + begun) (rows.drop begun) lift.2
    let s := match lift.1 with
      | some i => openHopper slot l i r.1 r.2.2
      | none => r.2.2
    appendRows slot l step r.1 r.2.1 s

/-! ## Sealing (R121, R123) -/

/-- Extents that payloads need: none across an extent boundary (R113). -/
def extentsFor (lens : List Nat) : Nat := (((payloadPlaces lens (0, 0)).getLast?).map (·.1)).getD 0 + 1

/-- The packer has read the raw form of a page, `n` bytes, from GDDR7; a page formed from the staging buffer never had one (R122,
R310). -/
def sealRead (d : Desc) (n : Nat) (s : State) : State := if d.fromStaging then s else charge d.tenant 3 n s

/-- SEAL_COMPLETE (R121): the packer has coded the page under the current KV table, and SEC has encrypted it. The bytes read and
written are charged to the page's dike (R310). -/
def sealComplete (i : Nat) (s : State) : State :=
  match descAt s i with
  | none => s
  | some d =>
    if d.object || d.packed || d.state != .sealing then s
    else
      match ctxOf s d.context with
      | none => s
      | some c =>
        let table := currentTable s d.context 1 (stepNo s)
        let bs := packAll table (layoutOf c.kvFormat) (rawPage c (pageTokens s) d.rows)
        let s := countBlocks bs s
        let s := sealRead d (c.rawBytes (pageTokens s)) s
        let s := chargeTier (kvTier s) d.tenant
          ((bs.map (fun b => cdiv b.payload.length 64 * 64)).sum + classBytes d.mapClass) s
        let x := takeExtents (kvTier s) (extentsFor (bs.map (fun b => b.payload.length))) [] s
        let s := updDesc i (fun d => { d with packed := true, homeExt := x.1
                                              blocks := lockAll (memoryKey s d.tenant) x.1 (bs.map Scb.raw)
                                              packTable := match table with | some t => t.1 | none => 0 }) x.2
        decRef i s

/-- SEAL_COMPLETE. -/
def execSealComplete (desc : Nat) (s : State) : Host.Outcome State Fault Refusal :=
  .next (if inService s then sealComplete desc s else s)

/-- Extents a sealed page needs (R113): payloads on 64-byte boundaries, none across an extent boundary. -/
def sealedExtents (blocks : List (List Byte)) : Nat := extentsFor (blocks.map (fun b => b.length - 16))

/-- The switch to the sealed form at a boundary (R121); a page homed in tier 2 may be copied later. -/
def switchSealed (i : Nat) (s : State) : State :=
  updDesc i (fun d =>
    if d.state == .sealing && d.packed && !d.object then
      { d with state := .sealed, rows := [], extents := sealedExtents d.blocks, pin := false, tier := kvTier s
               alloc := if kvTier s == .cxl then 2 else 0, tableId := d.packTable
               durable := decide (s.stw.charter.kvDurable = 2) || (decide (s.stw.charter.kvDurable = 1) && d.published)
               sealHeld := if d.holder.isNone then sealedExtents d.blocks else d.sealHeld }
    else d) s

/-- A ring member that is not the keeper of its sequence. -/
def Seq.isMember (e : Seq) : Bool := e.ringZ != 0 && e.member + 1 != e.ringZ

/-- A ring member whose prefill has ended holds no hopper and no spare (R102, R126). -/
def Seq.pastPrefill (e : Seq) : Bool := e.isMember && e.chunks.isEmpty && e.state == .decode

/-- One layer of a ring member after prefill: an empty hopper leaves its list, and the allowances go (R126). -/
def returnLayer (slot l : Nat) (s : State) : State :=
  match seqAt s slot with
  | none => s
  | some e =>
    let p := e.layer l
    let open_ := match hopperOf s e l with
      | some (i, d) => if d.fill = 0 then [i] else []
      | none => []
    let s := updLayer slot l (fun p => { p with list := p.list.filter (fun i => !open_.contains i), spare := none, unused := none }) s
    (open_ ++ p.spare.toList ++ p.unused.toList).foldl (fun s i => decRef i s) (fitLines slot l s)

/-- Ring members return their pinned parts at the boundary after their prefill (R126). -/
def returnPinned (s : State) : State :=
  s.sqs.seqs.foldl (fun s e =>
    if e.2.pastPrefill then (List.range e.2.layers.length).foldl (fun s l => returnLayer e.1 l s) s else s) s

/-- The raw extents and the raw map that a page gives up become the spare of its holder's layer (R121); without a holder
that lacks a spare they return to the pool. -/
def makeSpare (d : Desc) (s : State) : State :=
  match d.holder.bind (fun h => (seqAt s h).map (fun e => (h, e))) with
  | none => s
  | some (h, e) =>
    if (e.layer d.layer).spare.isSome || e.pastPrefill || e.layers.length ≤ d.layer then s
    else
      let r := newDesc { state := .spare, pin := true, tenant := d.tenant, layer := d.layer, context := d.context
                         extents := d.rawHeld, mapClass := d.mapClass, refcount := 1, holder := some h
                         rawHeld := d.rawHeld, rawExt := d.rawExt, rawMap := d.rawMap, windowRing := d.windowRing } s
      match r.1 with
      | none => r.2
      | some j => updLayer h d.layer (fun p => { p with spare := some j }) r.2

/-- The raw extents of a SEALED page become its holder's spare once no live lease covers it (R121, R136); where the
holder is gone they return to the pool. -/
def returnSpare (i : Nat) (s : State) : State :=
  match descAt s i with
  | none => s
  | some d =>
    if d.state == .sealed && decide (0 < d.rawHeld) && !covered s d then
      makeSpare d (updDesc i (fun d => { d with rawHeld := 0, rawExt := [], rawMap := none }) s)
    else s

/-- Pages that filled in the step before and are not packed at this boundary: SEAL_LATE (R123). -/
def sealLate (n : Nat) (s : State) : State :=
  let late := (Tab.vals s.pgm.descs).filter (fun d => d.state == .sealing && !d.packed && d.filledAt + 1 == n)
  bump cSealLate late.length (raiseTimes .sealLate late.length s)

/-! ## Release and reclamation (R132, R136, R137) -/

/-- A page of a released sequence: its allowance or credit lets go of it. -/
def letGo (slot i : Nat) (s : State) : State :=
  match descAt s i with
  | none => s
  | some d =>
    if d.holder ≠ some slot then s
    else
      match d.state with
      | .hopper =>
        match otherAllowance s slot d.layer i with
        | some (who, u) =>
          decRef u (updLayer who d.layer (fun p => { p with unused := none })
            (updDesc i (fun d => { d with holder := some who }) s))
        | none => updDesc i (fun d => { d with holder := none }) s
      | .sealed => updDesc i (fun d => { d with holder := none, sealHeld := d.extents }) s
      | _ => updDesc i (fun d => { d with holder := none }) s

/-- One layer of a released sequence. -/
def releaseLayer (slot : Nat) (p : LayerPages) (s : State) : State :=
  let s := p.list.foldl (fun s i => decRef i (letGo slot i s)) s
  let s := (p.spare.toList ++ p.unused.toList).foldl (fun s i => decRef i s) s
  s

/-- The pages of a sequence are released (R136, action 1). -/
def releasePages (slot : Nat) (s : State) : State :=
  match seqAt s slot with
  | none => s
  | some e =>
    let s := e.layers.foldl (fun s p => releaseLayer slot p s) s
    updSeq slot (fun e => { e with layers := e.layers.map (fun _ => {}), histExtents := 0, histAt := [] }) s

/-- A RELEASED descriptor becomes FREE; credit goes back with its map to the sequence it came from, and the raw extents of a
page that left a window ring while it was SEALING become that layer's spare (R121, R125, R136). -/
def reclaimOne (i : Nat) (s : State) : State :=
  match descAt s i with
  | none => s
  | some d =>
    let s := { s with pgm := { s.pgm with descs := Tab.del i s.pgm.descs } }
    let s := if 0 < d.rawHeld ∧ 0 < d.sealHeld then makeSpare d s else s
    match d.holder with
    | some h => if 0 < d.sealHeld then
        updLayer h d.layer (fun p => { p with credit := p.credit + 1, maps := p.maps ++ d.homeMap.toList }) s else s
    | none => s

/-- RELEASED descriptors that may be reclaimed now: no live lease, and for an object no revocation under way
(R213). -/
def reclaimable (s : State) : List Nat :=
  (s.pgm.descs.filter (fun e => e.2.state == .released && !covered s e.2 &&
    !(e.2.object && s.fab.windows.any (fun w =>
        w.2.desc == e.1 && w.2.descGen == e.2.generation && w.2.state == .revoking)))).map (·.1)

/-- Reclamation at a boundary, in ascending order, of at most 65,536 descriptors in all the actions of that boundary (R136,
R137); `freed` is told of each. -/
def reclaim (freed : Nat → Desc → State → State) (s : State) : State :=
  let all := reclaimable s
  let now := all.take (65536 - s.pgm.reclaimed)
  let s' := now.foldl (fun s i =>
    match descAt s i with
    | none => s
    | some d => freed i d (reclaimOne i s)) { s with pgm := { s.pgm with reclaimed := s.pgm.reclaimed + now.length } }
  raiseIf (decide (now.length < all.length)) .reclaimCarried s'

/-! ## Freeboards (R124 to R127) -/

/-- Pages of seal credit of one layer (R124). -/
def creditFor (s : State) (window p t h : Nat) : Nat :=
  let size := pageTokens s
  let n := (p + t) / size
  if window = 0 then n - h else min n (cdiv window size + 4096 / size)

/-- Extents of a token history of `n` ids, both copies (R169). -/
def histExtentsFor (n : Nat) : Nat := 2 * cdiv (4 * n) Config.extentBytes

/-- A SPARE page of a pinned part. -/
def sparePage (s : State) (slot l : Nat) (e : Seq) : Desc :=
  { state := .spare, pin := true, tenant := e.tenant, layer := l, context := e.context
    extents := Seq.pageExtents s e, mapClass := Seq.mapClass s e, refcount := 1, holder := some slot
    rawHeld := Seq.pageExtents s e, windowRing := decide (0 < layerWindow s e.context l) }

/-- A SPARE page with its extents and its raw map, both in GDDR7 (R124). -/
def newSpare (d : Desc) (s : State) : Option Nat × State :=
  let x := takeExtents .gddr d.rawHeld [] s
  let m := takeMap .gddr d.mapClass [] x.2
  newDesc { d with rawExt := x.1, rawMap := m.1 } m.2

/-- The pinned part and the credit of one layer. -/
def takeLayer (slot l p t h : Nat) (e : Seq) (s : State) : State :=
  let d := sparePage s slot l e
  let a := newSpare d s
  let b := newSpare d a.2
  let n := creditFor s (layerWindow s e.context l) p t h
  let m := takeMaps (kvTier s) (Seq.mapClass s e) n [] b.2
  let s := updLayer slot l (fun g => { g with unused := a.1, spare := b.1, credit := n, maps := m.1 }) m.2
  { s with pgm := { s.pgm with short := s.pgm.short || a.1.isNone || b.1.isNone || m.1.length != n } }

/-- Take a whole freeboard for the entry of a slot: `p` positions at admission, `t` new tokens, `h` shared pages a
layer. It may not fit: that is for `fits` to say. -/
def takeFreeboard (slot p t h : Nat) (s : State) : State :=
  match seqAt s slot with
  | none => s
  | some e =>
    let layers := ((ctxOf s e.context).map (·.layers.length)).getD 0
    let lists := (List.range layers).map (fun l => { (e.layer l) with list := (e.layer l).list })
    let x := takeExtents .gddr (histExtentsFor (p + t)) [] s
    let y := takeLines (cdiv layers 8) x.2
    let s := updSeq slot (fun e => { e with layers := lists, histExtents := histExtentsFor (p + t), histAt := x.1
                                            heads := y.1 }) y.2
    (List.range layers).foldl (fun s l => fitLines slot l (takeLayer slot l p t h e s)) s

/-- Clean GDDR7 copies that no pin or live lease holds, least recently leased first (R216). -/
def droppableCopies (s : State) : List Nat :=
  let l := s.pgm.descs.filter (fun e => e.2.copyValid && e.2.dirty.isEmpty && !e.2.pin && !covered s e.2)
  (sortBy (fun a b => decide (a.2.lastRead < b.2.lastRead) || (a.2.lastRead == b.2.lastRead && decide (a.1 ≤ b.1))) l).map
    (·.1)

/-- The copy of a page or object goes; a demotion under way lets go of the page (R117). -/
def clearCopy (i : Nat) (s : State) : State :=
  let held := ((descAt s i).map (·.demoting)).getD false
  let s := updDesc i (fun d => { d with copy := none, copyBytes := [], promoting := false, demoting := false, dirty := []
                                        writing := [], copyExt := [], copyMap := none, copyBlocks := [], copyBad := false }) s
  if held then decRef i s else s

/-- The cache directory entry of a descriptor (R215): address of the copy's map, and VALID. -/
def Desc.dirEntry (d : Desc) : List Byte := le 8 (d.copyMap.getD 0 + 2 ^ 40 * b2n d.copyValid)

/-- A copy is demoted (R216, R217). -/
def dropCopy (i : Nat) (s : State) : State := bump cDemote 1 (clearCopy i s)

/-- Entries of the prefix table that may go: no child, and every page held by it alone (R131), least recently
matched first. -/
def idlePrefixes (s : State) : List Nat :=
  let l := s.pgm.prefixes.filter (fun e =>
    !(s.pgm.prefixes.any (fun c => c.2.parent == some e.1)) &&
    e.2.descs.all (fun i => ((descAt s i).map (fun d => d.refcount == 1)).getD true))
  (sortBy (fun a b => decide (a.2.matched < b.2.matched) || (a.2.matched == b.2.matched && decide (a.1 ≤ b.1))) l).map
    (·.1)

/-- Remove an entry of the prefix table (R131). -/
def removePrefix (k : Nat) (s : State) : State :=
  match Tab.look k s.pgm.prefixes with
  | none => s
  | some e =>
    let s := { s with pgm := { s.pgm with prefixes := Tab.del k s.pgm.prefixes } }
    e.descs.foldl (fun s i => decRef i (updDesc i (fun d => { d with published := false, pfx := 0 }) s)) s

/-- Most copies and entries that can go. -/
def roomFuel (s : State) : Nat := 1 + (s.pgm.descs.length + s.pgm.prefixes.length)

/-- Make room by dropping clean copies, then idle prefix entries, one at a time, until everything reserved fits. -/
def makeRoom (freed : Nat → Desc → State → State) : Nat → State → Option State
  | 0, s => if fits s then some s else none
  | fuel + 1, s =>
    if fits s then some s
    else match (if fitsGddr s then [] else droppableCopies s) with
      | i :: _ => makeRoom freed fuel (dropCopy i s)
      | [] =>
        match idlePrefixes s with
        | k :: _ => makeRoom freed fuel (reclaim freed (removePrefix k s))
        | [] => none

/-! ## The prefix table (R128 to R131) -/

/-- The key of a lookup: the 16-byte record, then the page's token ids (R130; log 31). -/
def prefixKey (tenant context adapter gen lP : Nat) (parent : Option Nat) (tokens : List Nat) : List Byte :=
  le 1 tenant ++ le 1 context ++ le 2 adapter ++ le 1 gen ++ zeros 1 ++ le 2 lP ++ le 4 (parent.getD 0xFFFFFFFF) ++
  zeros 4 ++ (tokens.map (le 4)).flatten

/-- Entries of the prefix table. -/
def prefixSlots : Nat := 262144

/-- The eight places a lookup examines (R130). -/
def probes (key : List Byte) : List Nat := (List.range 8).map (fun i => (crc32c key + i) % prefixSlots)

/-- An entry says the same prefix. -/
def PrefixEntry.same (p q : PrefixEntry) : Bool :=
  p.tenant == q.tenant && p.context == q.context && p.adapter == q.adapter && p.adapterGen == q.adapterGen &&
  p.lP == q.lP && p.parent == q.parent && p.tokens == q.tokens

/-- Find the entry that equals `q` among the probes of its key. -/
def findPrefix (s : State) (q : PrefixEntry) : Option Nat :=
  (probes (prefixKey q.tenant q.context q.adapter q.adapterGen q.lP q.parent q.tokens)).find? (fun k =>
    match Tab.look k s.pgm.prefixes with
    | some p => p.same q
    | none => false)

/-- The longest run of matched pages from page 0: entry indices in order (R128 to R130). -/
def matchRun (s : State) (n : Nat) (q : PrefixEntry) : Nat → Option Nat → List Nat → List Nat
  | 0, _, _ => []
  | fuel + 1, parent, tokens =>
    if tokens.length < pageTokens s then []
    else
      match findPrefix s { q with parent := parent, tokens := tokens.take (pageTokens s) } with
      | none => []
      | some k =>
        if ((Tab.look k s.pgm.prefixes).map (fun p => decide (p.from_ ≤ n))).getD false then
          k :: matchRun s n q fuel (some k) (tokens.drop (pageTokens s))
        else []

/-- Pages that a request shares through the prefix table (R128): none for a context with a window layer; none where
the run does not reach L_p. -/
def sharedRun (s : State) (n tenant context adapter gen lP : Nat) (tokens : List Nat) : List Nat :=
  match ctxOf s context with
  | none => []
  | some c =>
    if c.layers.any (fun l => decide (0 < l.window)) then []
    else
      let run := matchRun s n { tenant := tenant, context := context, adapter := adapter, adapterGen := gen, lP := lP
                                parent := none, tokens := [], descs := [], from_ := 0, matched := 0 }
        tokens.length none tokens
      if run.length * pageTokens s < lP then [] else run

/-- Publish one page index of a sequence, if all its layers' pages are SEALED (R129, R130). A context with a window layer, and
a segment that does not begin at position 0, publish nothing: their lists do not hold the pages from page 0 on (R128). -/
def publishPage (n slot : Nat) (s : State) : Option State :=
  match seqAt s slot with
  | none => none
  | some e =>
    let i := e.pubPages
    let size := pageTokens s
    let tokens := ((Tab.getD s.slc.hist slot []).drop (i * size)).take size
    let descs := (e.layers.map (fun p => p.list[i]?)).filterMap id
    let sealedOk := descs.all (fun d => ((descAt s d).map (fun x => x.state == .sealed)).getD false)
    let whole := e.segFirst == 0 && ((ctxOf s e.context).map (fun c => c.layers.all (fun l => l.window == 0))).getD false
    if !whole || !e.publish || e.pubStop || e.layers.isEmpty || descs.length ≠ e.layers.length || !sealedOk
       || tokens.length < size then none
    else
      let q : PrefixEntry := { tenant := e.tenant, context := e.context, adapter := e.adapter
                               adapterGen := e.adapterGen, lP := e.lP, parent := e.pubParent, tokens := tokens
                               descs := descs, from_ := n + 1, matched := n }
      match findPrefix s q with
      | some k => some (updSeq slot (fun e => { e with pubParent := some k, pubPages := i + 1 }) s)
      | none =>
        match (probes (prefixKey q.tenant q.context q.adapter q.adapterGen q.lP q.parent tokens)).find?
                (fun k => !Tab.has k s.pgm.prefixes) with
        | none => some (raise .prefixTableFull (updSeq slot (fun e => { e with pubStop := true }) s))
        | some k =>
          let s := { s with pgm := { s.pgm with prefixes := Tab.put k q s.pgm.prefixes } }
          let s := descs.foldl (fun s d => forDike e.tenant d (fun s => incRef d (updDesc d (fun x =>
            { x with published := true, pfx := k, durable := x.durable || decide (s.stw.charter.kvDurable = 1) }) s)) s) s
          some (updSeq slot (fun e => { e with pubParent := some k, pubPages := i + 1 }) s)

/-- Publish what a sequence can, page after page. -/
def publishAll (n slot : Nat) : Nat → State → State
  | 0, s => s
  | fuel + 1, s =>
    match publishPage n slot s with
    | none => s
    | some s => publishAll n slot fuel s

/-- Entries of tenants whose lease has ended go, children first (R131). -/
def dropPrefixesOf (tenant : Nat) : Nat → State → State
  | 0, s => s
  | fuel + 1, s =>
    match (idlePrefixes s).find? (fun k => ((Tab.look k s.pgm.prefixes).map (fun p => p.tenant == tenant)).getD false) with
    | none => s
    | some k => dropPrefixesOf tenant fuel (removePrefix k s)

end Sys2Proof.Machine
end

