-- ==== Sys2Proof/Machine/Cost.lean ====
section
/-! DEFINITION. Worst-case costs, the step budget and the timeline of a step (R42, R44, R108, R109, R133, R149 to
R151, R197, R205, R214). -/

namespace Sys2Proof.Machine

/-! ## Budget -/

/-- The issue count K (R42). -/
def issueK (s : State) : Nat := min 64 (64 * (s.stw.charter.powerCap - 1060) * 100 / 49073)

/-- Record of a die. -/
def dieOf (s : State) (d : Nat) : Die := Tab.getD s.hlt.dies d {}

/-- Logical cores in service of the dies that `p` takes, as die × 32 + core. -/
def coresWhere (s : State) (p : DieState → Bool) : List Nat :=
  ((List.range 8).map (fun d =>
    if p (dieOf s d).state then
      ((List.range 32).filter (fun k => !(dieOf s d).out.contains k)).map (fun k => d * 32 + k)
    else [])).flatten

/-- Logical cores in service for admission (R350), and those the table counts: a DRAINING die still runs. -/
def servingCores (s : State) : List Nat := coresWhere s (· == .serving)
def tableCores (s : State) : List Nat := coresWhere s (fun d => d == .serving || d == .draining)

/-- Physical core on which a logical core runs: its home, or a spare that stands in (R337). -/
def physOf (s : State) (core : Nat) : Nat :=
  let d := dieOf s (core / 32)
  if d.s0For = some (core % 32) then 32 else if d.s1For = some (core % 32) then 33 else core % 32

/-- Record of a physical core; a spare starts as IDLE_SPARE. -/
def coreAt (s : State) (die phys : Nat) : Core :=
  Tab.getD s.hlt.cores (die * 64 + phys) (if 32 ≤ phys then { state := .idleSpare, before := .idleSpare } else {})

/-- A logical core is suspect when the physical core it runs on is. -/
def coreSuspect (s : State) (core : Nat) : Bool := (coreAt s (core / 32) (physOf s core)).state == .suspect

/-- n_c and s of R149; a STEP record gives them in replay (R333). -/
def coreCount (s : State) : Nat :=
  match s.hlt.replayed with
  | some r => r.1
  | none => (servingCores s).length
def suspectCount (s : State) : Nat :=
  match s.hlt.replayed with
  | some r => r.2.1
  | none => ((servingCores s).filter (coreSuspect s)).length

/-- TIR_T2_RATE (R224). -/
def t2Rate (s : State) : Nat :=
  match s.hlt.replayed with
  | some r => r.2.2
  | none => 128 * (b2n (decide (0 < s.hif.x0.width)) + b2n (decide (0 < s.hif.x1.width)))

/-- A, spill, recheck and B for `n` cores, `q` of them suspect (R149). -/
def budgetA (s : State) : Nat := (s.stw.charter.stepPeriod - 200) * 3600
def spillReserve (s : State) : Nat := budgetA s * s.stw.charter.spill / 1000
def recheckFor (s : State) (n q : Nat) : Nat := cdiv (budgetA s * (64 * q + (n - q))) (4096 * n)
def budgetFor (s : State) (n q : Nat) : Nat :=
  if n = 0 then 0 else budgetA s - spillReserve s - recheckFor s n q

/-- B of the step budget. -/
def budgetB (s : State) : Nat := budgetFor s (coreCount s) (suspectCount s)

/-! ## Items (R108, R109) -/

/-- AP cycles of `q` query rows over `t` positions. -/
def apCycles (k : Nat) (c : Ctx) (q t : Nat) : Nat := 64 * cdiv (cdiv (2 * q * c.gqa * t * c.headDim) 2048) k

/-- Cost of an attention item whose feed takes `per` bytes a cycle. -/
def attnCost (k per : Nat) (c : Ctx) (q t : Nat) : Nat :=
  max (apCycles k c q t) (cdiv (2 * t * c.headDim) per) + 96

/-- The kinds of R108. -/
def costSealed (k : Nat) (c : Ctx) (q t : Nat) : Nat := attnCost k 32 c q t
def costRaw (k : Nat) (c : Ctx) (q t : Nat) : Nat := attnCost k 64 c q t
def costStaged (k : Nat) (c : Ctx) (q t : Nat) : Nat := attnCost k 128 c q t
def costMerge (c : Ctx) (q : Nat) : Nat := 64 + 2 * c.gqa * q * (c.headDim + 1)

/-- Norm and rotary of one token (R109); nothing is rotated under NONE. -/
def costNorm (c : Ctx) : Nat := 64 + 3 * cdiv c.width 64
def costRotary (c : Ctx) : Nat := 64 + 4 * cdiv ((c.gqa + 1) * c.nKv * (if c.rotMode = 0 then 0 else c.rotDims)) 64

/-- MX rate of a weight format (R35), and its bytes in thirty-seconds of an element, scale plane included (R68). -/
def weightRate (w : Nat) : Nat := if w = 2 then 4096 else if w = 4 ∨ w = 5 then 1024 else 2048
def weightBytes32 (w : Nat) : Nat := if w = 2 then 17 else if w = 3 then 25 else if w = 4 ∨ w = 5 then 64 else 32

/-- Columns and reduction length of the matrices Q, K, V, O. -/
def Ctx.cols (c : Ctx) (m : Nat) : Nat :=
  match m with
  | 0 => c.gqa * c.nKv * c.headDim
  | 3 => c.width
  | _ => c.nKv * c.headDim
def Ctx.din (c : Ctx) (m : Nat) : Nat := if m = 3 then c.gqa * c.nKv * c.headDim else c.width

/-- Slices of a matrix: columns of each (R190). -/
def sliceCols (c : Ctx) (m : Nat) : List Nat :=
  (List.range (cdiv (c.cols m) 256)).map (fun i => min 256 (c.cols m - 256 * i))

/-- Cost of one slice for `tb` tokens; `macs` are the adapters' own (R109, R202). -/
def costSlice (k : Nat) (c : Ctx) (w : Nat) (tb m cols macs : Nat) : Nat :=
  let issue := cdiv (tb * c.din m * cols) (weightRate w) + cdiv macs 2048
  max (64 * cdiv issue k) (cdiv (c.din m * cols * weightBytes32 w) 1024) + 96

/-- Adapter MACs of slice `i` of a matrix for tokens whose ranks sum to `ranks`: r × (D_in + C) for each token and
projection, of which the part of u, r × D_in, falls to the first slice (R202; log 79). -/
def adapterMacs (c : Ctx) (m ranks i cols : Nat) : Nat := ranks * ((if i = 0 then c.din m else 0) + cols)

/-- Costs of the slices of a matrix for `tb` tokens with a sum of ranks. -/
def sliceCosts (k : Nat) (c : Ctx) (w tb m ranks : Nat) : List Nat :=
  (sliceCols c m).mapIdx (fun i cols => costSlice k c w tb m cols (adapterMacs c m ranks i cols))

/-! ## Loads -/

/-- What one sequence asks of one step: a decode row at its final length, or prefill chunks. -/
structure SeqLoad where
  context : Nat
  adapter : Nat
  /-- Length attended over in decode: positions of its own segment, none for no decode row. -/
  final : Option Nat
  /-- Ring size and member, 0 and 0 when not distributed; first position of the own segment. -/
  ringZ : Nat
  member : Nat
  segFirst : Nat
  /-- Chunks: first position and rows; positions held when the step opens; L_p. -/
  chunks : List (Nat × Nat)
  held : Nat
  lP : Nat
  deriving DecidableEq, Repr

/-- Charges of one layer slot (R150, R151). -/
structure SlotLoad where
  w : Nat
  run : Nat
  g : Nat
  t2 : Nat
  fi : Nat
  fo : Nat
  deriving DecidableEq, Repr

/-- Sum of two charges; the longest run is the larger. -/
def SlotLoad.add (a b : SlotLoad) : SlotLoad :=
  { w := a.w + b.w, run := max a.run b.run, g := a.g + b.g, t2 := a.t2 + b.t2, fi := a.fi + b.fi, fo := a.fo + b.fo }

/-- No charge. -/
def SlotLoad.none : SlotLoad := { w := 0, run := 0, g := 0, t2 := 0, fi := 0, fo := 0 }

/-- Class N of the charter (R158). -/
def classN (s : State) : Bool := s.stw.charter.repro == 0

/-- Work and longest run of the items of one head group, in list order (R151, R158): class N cuts runs of 32 and
merges them into the first; class F has one run. -/
def runCost (n : Bool) (c : Ctx) (q : Nat) (items : List Nat) : Nat × Nat :=
  if n then
    let runs := chunks 32 items
    let fm := (runs.length - 1) * costMerge c q
    let first := ((runs.headD []).sum) + fm
    (items.sum + fm, max first (maxOf (runs.map List.sum)))
  else (items.sum, items.sum)

/-- Bytes of a page read from its home: data and map (R151). -/
def pageBytes (s : State) (c : Ctx) : Nat := c.rawBytes (pageTokens s) + classBytes (c.pageClass (pageTokens s))

/-- Charge bytes to the sealed pages' tier. -/
def onTier (s : State) (n : Nat) (l : SlotLoad) : SlotLoad :=
  if kvTier s == .cxl then { l with t2 := l.t2 + n } else { l with g := l.g + n }

/-- Fabric bytes of one hidden state (R151). -/
def hiddenBytes (c : Ctx) : Nat := cdiv (c.width * c.actFormat.size) 4096 * 4112

/-- Bytes of a PROBE, a FOLD_RECORD and a RING_BLOCK (R106). -/
def probeBytes (c : Ctx) : Nat := 32 + c.gqa * c.nKv * c.headDim * c.qFormat.size
def recordBytes (n : Bool) (c : Ctx) : Nat :=
  32 + c.gqa * c.nKv * (if n then 20 + 18 * c.headDim else 12 + 4 * c.headDim)
def blockBytes (s : State) (c : Ctx) : Nat :=
  32 + c.rawBytes (pageTokens s) + 16 * (c.rawBytes (pageTokens s) / 4096)

/-- Decode of one sequence at one layer, projections apart. -/
def decodeLoad (s : State) (c : Ctx) (window : Nat) (d : SeqLoad) (final : Nat) : SlotLoad :=
  let k := issueK s
  let n := classN s
  let size := pageTokens s
  let own := final - d.segFirst
  let pages := if window = 0 then cdiv own size else min (cdiv own size) (cdiv window size + 1)
  let keeper := d.ringZ = 0 || d.member + 1 = d.ringZ
  let sealedPages := if keeper then pages - 1 else pages
  let items := List.replicate sealedPages (costSealed k c 1 size) ++ (if keeper then [costRaw k c 1 size] else [])
  let r := runCost n c 1 items
  let fold := if n && keeper && d.ringZ > 1 then (d.ringZ - 1) * costMerge c 1 else 0
  let base : SlotLoad := { w := c.nKv * (r.1 + fold), run := r.2 + fold, g := 0, t2 := 0, fi := 0, fo := 0 }
  let base := onTier s (sealedPages * pageBytes s c) base
  if keeper then
    let base := { base with w := base.w + costNorm c + costRotary c
                            g := base.g + 2 * c.rawBytes size
                            fi := base.fi + hiddenBytes c + (if d.ringZ > 1 then
                              (if n then d.ringZ - 1 else 1) * recordBytes n c else 0)
                            fo := base.fo + hiddenBytes c + (if d.ringZ > 1 then
                              (if n then (d.ringZ - 1) * probeBytes c else probeBytes c + recordBytes n c) else 0) }
    onTier s (pageBytes s c) base
  else { base with fi := base.fi + probeBytes c + (if n then 0 else recordBytes n c)
                   fo := base.fo + recordBytes n c + (if n || d.member = 0 then 0 else probeBytes c) }

/-- Prefill chunks of one sequence at one layer, projections apart. -/
def prefillLoad (s : State) (c : Ctx) (window : Nat) (pfxMask : Bool) (d : SeqLoad) : SlotLoad :=
  let k := issueK s
  let n := classN s
  let size := pageTokens s
  let ringPages := d.segFirst / size
  let heldOwn := d.held - d.segFirst
  let fill := heldOwn % size
  let one := fun (ch : Nat × Nat) =>
    let low := if window = 0 then 0 else ch.1 + 1 - window
    let pages := (List.range (heldOwn / size)).filter (fun i => decide (low < d.segFirst + (i + 1) * size))
    let hop := if fill = 0 ∨ d.held ≤ low then [] else [costRaw k c ch.2 fill]
    let blocks := d.chunks.filter (fun b =>
      (decide (b.1 ≤ ch.1) && decide (low < b.1 + b.2)) || (pfxMask && decide (b.1 < d.lP) && decide (ch.1 < d.lP)))
    let items := pages.map (fun _ => costSealed k c ch.2 size) ++ hop ++ blocks.map (fun b => costStaged k c ch.2 b.2) ++
      List.replicate ringPages (costSealed k c ch.2 size)
    let r := runCost n c ch.2 items
    let l : SlotLoad := { w := c.nKv * r.1 + ch.2 * (costNorm c + costRotary c), run := r.2
                          g := if hop.isEmpty then 0 else c.rawBytes size, t2 := 0
                          fi := ch.2 * hiddenBytes c, fo := ch.2 * hiddenBytes c }
    onTier s (pages.length * pageBytes s c) l
  let rows := (d.chunks.map (·.2)).sum
  let total := (d.chunks.map one).foldl SlotLoad.add SlotLoad.none
  let done := (fill + rows) / size
  let fromHopper := if 0 < fill ∧ 0 < done then 1 else 0
  let total := { total with g := total.g + fromHopper * c.rawBytes size
                            fi := total.fi + ringPages * blockBytes s c
                            fo := total.fo + (if d.ringZ > 1 && d.member + 1 < d.ringZ then
                              (ringPages + done) * blockBytes s c else 0) }
  onTier s (done * pageBytes s c) total

/-- Charges of one sequence at one layer, projections apart. -/
def SeqLoad.at_ (s : State) (c : Ctx) (l : LayerDesc) (d : SeqLoad) : SlotLoad :=
  let a := match d.final with
    | some f => decodeLoad s c l.window d f
    | none => SlotLoad.none
  if d.chunks.isEmpty then a else a.add (prefillLoad s c l.window (l.mask == 1) d)

/-- Rows of a load that go through the projections here: a ring member's decode probes do not. -/
def SeqLoad.tokens (d : SeqLoad) : Nat :=
  (match d.final with
   | some _ => if d.ringZ = 0 || d.member + 1 = d.ringZ then 1 else 0
   | none => 0) + (d.chunks.map (·.2)).sum

/-- Rank of an adapter version on a matrix, 0 where it has no such target. -/
def rankOn (s : State) (version m : Nat) : Nat :=
  match Tab.look version s.mdl.adapters with
  | some a => if bitOf a.targets m then a.rank else 0
  | none => 0

/-- The ranks that the tokens of a step's loads bring to a matrix, one a token, in batches of 64 (R109, R202). -/
def loadRanks (s : State) (lds : List SeqLoad) (m : Nat) : List Nat :=
  (chunks 64 ((lds.map (fun d => List.replicate d.tokens (rankOn s d.adapter m))).flatten)).map List.sum

/-- Adapter bytes of a slot: each distinct version's LAYER_BYTES (R205). -/
def adapterBytes (s : State) (lds : List SeqLoad) : Nat :=
  ((distinct (lds.map (·.adapter))).map (fun v => ((Tab.look v s.mdl.adapters).map (·.layerBytes)).getD 0)).sum

/-- The span of the slot of layer `l` of context `c`, none where no bound holds (R149, R150, R224). -/
def slotSpan (s : State) (n : Nat) (c : Ctx) (l : Nat) (swap : Nat) (lds : List SeqLoad) : Option Nat :=
  match c.layers[l]? with
  | none => some 0
  | some ld =>
    let k := issueK s
    let next := c.layers.getD ((l + 1) % c.layers.length) ld
    let sum := (lds.map (SeqLoad.at_ s c ld)).foldl SlotLoad.add SlotLoad.none
    let tokens := (lds.map SeqLoad.tokens).sum
    let slices := fun m => ((loadRanks s lds m).map (sliceCosts k c ld.wformat 64 m)).flatten
    let proj := ((List.range 4).map (fun m => (slices m).sum)).sum
    let big := maxOf (slices 0 ++ slices 1 ++ slices 2)
    let chain := (if tokens = 0 then 0 else costNorm c + big + costRotary c + maxOf (slices 3)) + sum.run + swap
    let g := sum.g + (if c.homeCxl then 0 else next.stored) + adapterBytes s lds
    let t2 := sum.t2 + (if c.homeCxl then next.stored else 0)
    let w := sum.w + proj
    if (n = 0 ∧ 0 < w) ∨ (t2Rate s = 0 ∧ 0 < t2) then none
    else some (max (cdiv w n + chain) (max (cdiv (g * 36) 51200) (max (cdiv (t2 * 36) (10 * t2Rate s))
      (max (cdiv (sum.fi * 36) 16000) (cdiv (sum.fo * 36) 16000)))))

/-- Cycles of one swap of a context image (R196). -/
def swapCycles : Nat := 144000

/-- Contexts with work in a step, ascending. -/
def loadContexts (lds : List SeqLoad) : List Nat :=
  sortBy (fun a b => decide (a ≤ b)) (distinct (lds.map (·.context)))

/-- Assignment of the contexts with work to clusters, 8 to each (R197; log 39). -/
def clusterAssignment (contexts : List Nat) : Tab (List Nat) :=
  let groups := chunks 8 contexts
  if groups.isEmpty then [] else (List.range 32).map (fun k => (k, groups.getD (k % groups.length) []))

/-- Clusters that a context is assigned to, each with all it is assigned. -/
def clustersOf (contexts : List Nat) (c : Nat) : Tab (List Nat) := (clusterAssignment contexts).filter (fun e => e.2.contains c)

/-- Swap cycles charged to the slot of layer `l` of a context: where one of its clusters is assigned more than 4 contexts,
and in its first slot where one of them does not hold its image at the boundary (R197). -/
def swapCharge (s : State) (contexts : List Nat) (fresh : Bool) (c l : Nat) : Nat :=
  let mine := clustersOf contexts c
  (if mine.any (fun e => decide (4 < e.2.length)) then swapCycles else 0) +
  (if fresh && l = 0 && mine.any (fun e => !(Tab.getD s.mdl.resident e.1 []).contains c) then swapCycles else 0)

/-- Spans of all slots of one context. -/
def contextSpans (s : State) (n : Nat) (fresh : Bool) (contexts : List Nat) (lds : List SeqLoad) (ci : Nat) :
    List (Option Nat) :=
  match ctxOf s ci with
  | none => []
  | some c =>
    let mine := lds.filter (fun d => d.context = ci)
    (List.range c.layers.length).map (fun l => slotSpan s n c l (swapCharge s contexts fresh ci l) mine)

/-- The timeline T of a step on `n` cores (R150); none where a slot has no bound. -/
def timelineOn (s : State) (n : Nat) (fresh : Bool) (lds : List SeqLoad) : Option Nat :=
  let contexts := loadContexts lds
  contexts.foldl (fun (acc : Option Nat) ci =>
    match acc, ctxOf s ci with
    | some t, some c =>
      (contextSpans s n fresh contexts lds ci).foldl (fun a sp =>
        match a, sp with
        | some x, some y => some (x + y)
        | _, _ => none) (some (t + (c.layers.length + 1) * c.turnaround))
    | _, _ => none) (some 0)

/-- The timeline T. -/
def timeline (s : State) (fresh : Bool) (lds : List SeqLoad) : Option Nat := timelineOn s (coreCount s) fresh lds

/-- The adapter half holds the versions of every slot (R205). -/
def adaptersFit (s : State) (lds : List SeqLoad) : Bool :=
  (loadContexts lds).all (fun ci => decide (adapterBytes s (lds.filter (fun d => d.context = ci)) ≤ 67108864))

/-- Contexts fit the clusters, at most 8 in each of 32 and each in one (R197), and their slots the tide table (R60). -/
def contextsFit (s : State) (lds : List SeqLoad) : Bool :=
  let cs := loadContexts lds
  decide (cs.length ≤ 256) &&
  decide ((cs.map (fun c => ((ctxOf s c).map (·.layers.length)).getD 0)).sum ≤ 4096)

/-- Bytes of the staging area: 64 MiB on each of the four buffer dies (R99). -/
def stagingBytes : Nat := 4 * 67108864

/-- Rows of a context that the staging area holds in one layer slot. -/
def stagingRows (c : Ctx) : Nat := stagingBytes / (2 * max 1 c.rowBytes)

/-- The rows that the prefill chunks of each context stage in a layer slot fit the staging area (R99). -/
def stagingFits (s : State) (lds : List SeqLoad) : Bool :=
  (loadContexts lds).all (fun ci =>
    decide ((((lds.filter (fun d => d.context = ci)).map (fun d => (d.chunks.map (·.2)).sum)).sum) ≤
      ((ctxOf s ci).map stagingRows).getD 0))

/-- A step is admissible: T + `extra` is within B (R150, R153), and what is staged in it fits (R60, R99, R197, R205). -/
def admissible (s : State) (fresh : Bool) (extra : Nat) (lds : List SeqLoad) : Bool :=
  adaptersFit s lds && contextsFit s lds && stagingFits s lds &&
  match timeline s fresh lds with
  | some t => decide (t + extra ≤ budgetB s)
  | none => false

/-- The worst-case work of one decode row of a load, over all layers: its own items and its share of the projection
batches (R153; log 32). -/
def contribution (s : State) (d : SeqLoad) : Nat :=
  match ctxOf s d.context with
  | none => 0
  | some c =>
    (c.layers.map (fun l =>
      let k := issueK s
      let proj := ((List.range 4).map (fun m =>
        (sliceCosts k c l.wformat 64 m (64 * rankOn s d.adapter m)).sum)).sum
      (d.at_ s c l).w + cdiv proj 64)).sum

/-- Sampling of one token (R151). -/
def costSample (vocab : Nat) : Nat := 64 + 12 * cdiv vocab 64

end Sys2Proof.Machine
end

