-- ==== Sys2Proof/Machine/Admission.lean ====
section
/-! DEFINITION. Admission and joins at a keeper: the ten conditions, the prefill plan, the service order, verdicts
(R17, R20, R21, R30, R102, R126, R127, R146 to R157). -/

namespace Sys2Proof.Machine

/-! ## The composition map in force (R17, R19, R21) -/

/-- The map in force. -/
def mapNow (s : State) : Option CompMap := s.slc.maps.getLast?

/-- Composition epoch in force, 0 before the first map. -/
def compEpoch (s : State) : Nat := ((mapNow s).map (·.epoch)).getD 0

/-- Entry of a node in a map. -/
def CompMap.entry (m : CompMap) (n : Nat) : Option NodeEnt := m.nodes.find? (fun e => e.node == n)

/-- Own entry in the map in force. -/
def myEntry (s : State) : Option NodeEnt := (mapNow s).bind (fun m => m.entry s.fab.node)

/-- Status of a node in the map in force; a node it does not name counts as GONE. -/
def nodeStatus (s : State) (n : Nat) : Nat := (((mapNow s).bind (fun m => m.entry n)).map (·.status)).getD 2

/-- Nodes of a role and a status in the own group of a map. -/
def groupWith (m : CompMap) (me role : Nat) (status : Nat → Bool) : List Nat :=
  match m.entry me with
  | none => []
  | some e => (m.nodes.filter (fun n => n.group == e.group && n.role == role && status n.status)).map (·.node)

/-- ACTIVE nodes of a role in the own group of a map. -/
def groupRole (m : CompMap) (me : Nat) (role : Nat) : List Nat := groupWith m me role (· == 0)

/-- Nodes of a list in rendezvous-hash order of a key (R21). -/
def rendezvous (key : List Byte) (nodes : List Nat) : List Nat :=
  let w := nodes.map (fun c => (fld (sha384 (key ++ le 4 c)) 0 8, c))
  (sortBy (fun a b => decide (b.1 < a.1) || (a.1 == b.1 && decide (a.2 ≤ b.2))) w).map (·.2)

/-- The key of a request (R20). -/
def requestKey (tenant requestId : Nat) : List Byte := le 1 tenant ++ le 8 requestId

/-- Places taken on a G module: records that name it as owner or next owner. -/
def placesTaken (s : State) (g : Nat) : Nat :=
  ((Tab.vals s.slc.recs).filter (fun r => r.owner == g || r.next == g)).length

/-- G modules on which an allotment has a free place (R17). An allotment on a module that the map marks DRAINING offers none
(DESIGN CHOICE, log 113). -/
def placesFree (s : State) : List Nat :=
  match myEntry s with
  | none => []
  | some e => (e.allot.filter (fun a =>
      decide (placesTaken s a.1 < a.2.1) && nodeStatus s a.1 == 0)).map (·.1)

/-! ## Committed loads (R151, R152) -/

/-- Positions a sequence is committed to attend over at its end. -/
def Seq.final (e : Seq) : Nat := if e.ringZ ≠ 0 ∧ e.member + 1 ≠ e.ringZ then e.segEnd else e.promptLen + e.maxNew

/-- A load of a sequence with given chunks or decode row. -/
def Seq.load (e : Seq) (final : Option Nat) (chunks : List (Nat × Nat)) : SeqLoad :=
  { context := e.context, adapter := e.adapter, final := final, ringZ := e.ringZ, member := e.member
    segFirst := e.segFirst, chunks := chunks, held := ((chunks.map (·.1)).head?).getD e.position, lP := e.lP }

/-- What a sequence asks of step `m`. -/
def seqLoadAt (m : Nat) (e : Seq) : Option SeqLoad :=
  if e.state == .orphaned then none
  else
    let now := e.chunks.filter (fun c => c.step == m)
    if !now.isEmpty then some (e.load none (now.map (fun c => (c.first, c.rows))))
    else if e.decodeFrom ≤ m ∧ e.chunks.all (fun c => decide (c.step < m)) then some (e.load (some e.final) []) else none

/-- The step in which a sequence ends at its maximum length, seen from the opening step `n` (R154). -/
def Seq.lastStep (n : Nat) (e : Seq) : Nat :=
  let left := e.maxNew - e.generated
  if e.chunks.isEmpty then n + left - 1 else e.decodeFrom + left - 2

/-- All loads of step `m`; with `ends`, sequences that end before it are left out (R154). -/
def loadsAt (s : State) (n m : Nat) (ends : Bool) : List SeqLoad :=
  (Tab.vals s.sqs.seqs).filterMap (fun e => if ends && decide (e.lastStep n < m) then none else seqLoadAt m e)

/-- All sequences in decode at their final lengths. -/
def finalLoads (s : State) (n m : Nat) (ends : Bool) : List SeqLoad :=
  (Tab.vals s.sqs.seqs).filterMap (fun e =>
    if e.state == .orphaned || (ends && decide (e.lastStep n < m)) then none else some (e.load (some e.final) []))

/-- Last step that some committed chunk names. -/
def lastChunkStep (s : State) : Nat := maxOf (((Tab.vals s.sqs.seqs).map (fun e => e.chunks.map (·.step))).flatten)

/-- Last step in which the loads of the sequences held change: the last chunk, and with `ends` the last end (R154). -/
def lastChange (s : State) (n : Nat) (ends : Bool) : Nat :=
  max (lastChunkStep s) (if ends then maxOf ((Tab.vals s.sqs.seqs).map (fun e => e.lastStep n + 1)) else 0)

/-! ## The prefill plan (R100, R152) -/

/-- Cut positions into chunks of at most 512 (R100). -/
def cutChunks (first total : Nat) : List (Nat × Nat) :=
  (List.range (cdiv (total - first) 512)).map (fun i => (first + 512 * i, min 512 (total - first - 512 * i)))

/-- Number of chunks the prefix group takes of a list (R91). -/
def groupSize (lP : Nat) (cs : List (Nat × Nat)) : Nat := (cs.filter (fun c => decide (c.1 < lP))).length

/-- The largest number of chunks, at most 8, that step `m` can take (R152). -/
def chunksFit (s : State) (extra : Nat) (base : List SeqLoad) (e : Seq) (lP : Nat) (cs : List (Nat × Nat)) : Nat :=
  let need := groupSize lP cs
  let ok := fun k => decide (need ≤ k) && decide (k ≤ cs.length) &&
    admissible s true extra (base ++ [e.load none (cs.take k)])
  (((List.range 8).map (fun i => 8 - i)).find? ok).getD 0

/-- Plan the chunks `cs` from step `m` on, greedily; none when it does not complete. `lP` is the prefix length where
the context has PREFIX layers, else 0. -/
def planFrom (s : State) (n extra : Nat) (ends : Bool) (e : Seq) (lP horizon : Nat) :
    Nat → Nat → List (Nat × Nat) → Option (List Chunk)
  | 0, _, cs => if cs.isEmpty then some [] else none
  | fuel + 1, m, cs =>
    if cs.isEmpty then some []
    else
      let k := chunksFit s extra (loadsAt s n m ends) e lP cs
      if k = 0 ∧ horizon < m then none
      else (planFrom s n extra ends e lP horizon fuel (m + 1) (cs.drop k)).map
        (fun rest => (cs.take k).map (fun c => { step := m, first := c.1, rows := c.2 }) ++ rest)

/-- Whether a context has a PREFIX layer. -/
def hasPrefixLayer (s : State) (context : Nat) : Bool :=
  ((ctxOf s context).map (fun c => c.layers.any (fun l => l.mask == 1))).getD false

/-- The budget test of condition 10 (R152): the plan from step `start`, and the decode test after it. `cs` are the
chunks of the request; a resume chunk is one row. -/
def budgetTest (s : State) (n start extra : Nat) (ends : Bool) (e : Seq) (cs : List (Nat × Nat)) : Option (List Chunk) :=
  let horizon := max start (lastChange s n ends)
  let lP := if hasPrefixLayer s e.context then e.lP else 0
  match planFrom s n extra ends e lP horizon 65535 start cs with
  | none => none
  | some plan =>
    let last := maxOf (plan.map (·.step))
    let mine := [e.load (some e.final) []]
    let later := (List.range (horizon - last)).map (fun i => last + 1 + i)
    if later.all (fun m => admissible s false extra (loadsAt s n m ends ++ mine)) &&
       admissible s false extra (finalLoads s n start ends ++ mine) then some plan
    else none

/-! ## Reserves (R153) -/

/-- The lease of a dike. -/
def leaseOf (s : State) (d : Nat) : Option Lease := Tab.look d s.sec.leases

/-- A sequence that takes part in step `m`, seen from boundary `n`; with `ends`, one that ends before it does not (R154). -/
def Seq.lastsTo (n m : Nat) (ends : Bool) (e : Seq) : Bool := e.state != .orphaned && !(ends && decide (e.lastStep n < m))

/-- Use of a GUARANTEED tenant's reserve in step `m`. -/
def reserveUse (s : State) (n m : Nat) (ends : Bool) (tenant : Nat) : Nat :=
  (((Tab.vals s.sqs.seqs).filter (fun e => e.tenant == tenant && e.lastsTo n m ends)).map
    (fun e => cdiv (contribution s (e.load (some e.final) [])) (coreCount s))).sum

/-- Reserve of a lease. -/
def reserveOf (s : State) (l : Lease) : Nat := if l.cls = 0 then l.share * budgetB s / 1000 else 0

/-- U: the unused reserves of all GUARANTEED leases. -/
def unusedReserve (s : State) (n m : Nat) (ends : Bool) : Nat :=
  (s.sec.leases.map (fun e => reserveOf s e.2 - reserveUse s n m ends e.1)).sum

/-- The class of a request: the lower of what it asks and its lease's (R147). -/
def requestClass (s : State) (tenant asked : Nat) : Nat :=
  max (min asked 2) (((leaseOf s tenant).map (·.cls)).getD 2)

/-- A request of class GUARANTEED whose tenant's unused reserve holds it (R153, group 1). -/
def withinReserve (s : State) (n m : Nat) (ends : Bool) (tenant cls : Nat) (e : Seq) : Bool :=
  match leaseOf s tenant with
  | none => false
  | some l =>
    cls == 0 && l.cls == 0 &&
    decide (reserveUse s n m ends tenant + cdiv (contribution s (e.load (some e.final) [])) (coreCount s) ≤ reserveOf s l)

/-! ## Entries -/

/-- A new handle in a slot (R140). -/
def newHandle (s : State) : Option (Nat × Nat) × State :=
  let taken := fun k => Tab.has k s.sqs.seqs || s.sqs.ringAsks.any (fun a => a.handle % 16384 == k)
  let r := freeSlot taken Config.seqSlots s
  match r.1 with
  | none => (none, r.2)
  | some slot =>
    let g := (((Tab.look slot r.2.sqs.gens).map (· + 1)).getD 1) % 0x3FFFF
    (some (slot, g * 16384 + slot),
     { r.2 with sqs := { r.2.sqs with gens := Tab.put slot g r.2.sqs.gens } })

/-- Slot of a live handle; none raises HANDLE_STALE at the caller (R140). -/
def slotOf (s : State) (handle : Nat) : Option Nat :=
  match seqAt s (handle % 16384) with
  | none => none
  | some e => if e.handle = handle then some (handle % 16384) else none

/-- The sequence of a tenant's request id. -/
def findRequest (s : State) (tenant requestId : Nat) : Option Nat :=
  (s.sqs.seqs.find? (fun e => e.2.tenant == tenant && e.2.requestId == requestId)).map (·.1)

/-- Current adapter version of a tenant and context (R203), 0 for none. -/
def currentAdapter (s : State) (tenant context : Nat) : Nat :=
  ((s.mdl.adapters.find? (fun e => e.2.tenant == tenant && e.2.context == context && e.2.current)).map (·.1)).getD 0

/-- Pins of an adapter version (R203). -/
def pinsOf (s : State) (v : Nat) : Nat := ((Tab.vals s.sqs.seqs).filter (fun e => e.adapter == v)).length

/-- Keys in force for a tenant: a memory key and an active wire key (R29, R295). -/
def keysInForce (s : State) (d : Nat) : Bool :=
  Tab.has d s.sec.memory && ((Tab.look d s.sec.wire).bind (·.active)).isSome

/-- The sampled time state lets admissions pass (R54). -/
def timeOk (s : State) : Bool := s.tmu.sampled == .locked || s.tmu.sampled == .holdover

/-- The module is draining, or not in a group of the map in force (R19, R148). -/
def drainingNow (s : State) : Bool :=
  !s.hlt.faults.isEmpty ||
  (match myEntry s with
   | none => true
   | some e => e.status != 0)

/-- A verdict in the making: outcome, reason, step. -/
structure Answer where
  outcome : Nat
  reason : Nat
  step : Nat
  deriving DecidableEq, Repr

/-- REFUSED with a reason. -/
def refusedFor (r : Nat) : Answer := { outcome := 3, reason := r, step := 0 }

/-- DEFERRED with a reason and earliest step. -/
def deferredFor (r step : Nat) : Answer := { outcome := 2, reason := r, step := step }

/-- Conditions 1 and 2 (R148). -/
def testTime (s : State) (n : Nat) : Option Answer :=
  if !timeOk s then some (refusedFor rTimeLost)
  else if drainingNow s then some (deferredFor rDraining Config.none48)
  else if s.tmu.sampledBrown then some (deferredFor rDraining (n + 1))
  else none

/-- The parent of a fork: a live sequence of the tenant and context that this module keeps (R148, condition 5). -/
def parentOf (s : State) (q : Query) : Option Seq :=
  match slotOf s q.parent with
  | none => none
  | some k => (seqAt s k).bind (fun e =>
      if e.tenant == q.tenant && e.context == q.context && (recAt s k).isSome then some e else none)

/-- Condition 5: the context is there for the tenant; `pinned` lets RETIRING pass (R192). -/
def contextOk (s : State) (tenant context : Nat) (pinned : Bool) : Bool :=
  (match ctxOf s context with
   | some c => c.state == .ready || (pinned && c.state == .retiring)
   | none => false) &&
  ((leaseOf s tenant).map (fun l => bitOf l.models context)).getD false

/-- Condition 6: the adapter version a query pins (R203). -/
def adapterFor (s : State) (tenant context asked : Nat) : Option Nat :=
  if asked = 0xFFFF then some (currentAdapter s tenant context)
  else if asked = 0 then some 0
  else
    match Tab.look asked s.mdl.adapters with
    | some a =>
      if a.tenant == tenant && a.context == context && (a.current || decide (0 < pinsOf s asked)) then some asked else none
    | none => none

/-- Sequence entries of a tenant. -/
def seqsOf (s : State) (tenant : Nat) : Nat := ((Tab.vals s.sqs.seqs).filter (fun e => e.tenant == tenant)).length

/-- Entries that count, with the steps in which they end, in order. -/
def endings (s : State) (n : Nat) (p : Seq → Bool) : List (Nat × Nat) :=
  sortBy (fun a b => decide (a.1 < b.1) || (a.1 == b.1 && decide (a.2 ≤ b.2)))
    ((s.sqs.seqs.filter (fun e => p e.2 && e.2.state != .orphaned)).map (fun e => (e.2.lastStep n, e.1)))

/-- Remove a sequence with its pages, for a look ahead only. -/
def forget (slot : Nat) (s : State) : State :=
  let s := releasePages slot s
  let s := { s with car := { s.car with items := [] }, pgm := { s.pgm with reclaimed := 0 } }
  let s := reclaim (fun _ _ s => s) s
  { s with sqs := { s.sqs with seqs := Tab.del slot s.sqs.seqs }, slc := { s.slc with recs := Tab.del slot s.slc.recs } }

/-- The earliest step at which releases at maximum length make `ok` true (R154). -/
def earliest (ok : State → Bool) : List (Nat × Nat) → State → Option Nat
  | [], _ => none
  | (m, slot) :: t, s => if ok (forget slot s) then some (m + 1) else earliest ok t (forget slot s)

/-- Condition 7: quotas (R30, R154). -/
def testQuota (s : State) (n tenant seqs pages : Nat) : Option Answer :=
  match leaseOf s tenant with
  | none => some (refusedFor rQuota)
  | some l =>
    let seqOk := fun (s : State) => decide (seqsOf s tenant + seqs ≤ l.seqQuota)
    let pageOk := fun (s : State) => decide (pagesOf s tenant + pages ≤ l.pageQuota)
    if seqOk s && pageOk s then none
    else if (!seqOk s && l.seqLowered) || (!pageOk s && l.pageLowered) then
      some (deferredFor rQuota ((earliest (fun s => seqOk s && pageOk s) (endings s n (fun e => e.tenant == tenant)) s).getD
        Config.none48))
    else some (refusedFor rQuota)

/-- Entries of the sequence table that are taken or set aside for a request whose ring members are asked. -/
def entriesTaken (s : State) : Nat := s.sqs.seqs.length + s.sqs.ringAsks.length

/-- Condition 8 (R91, R93, R17); `kept` says that an entry is set aside for the request. -/
def testShape (s : State) (n : Nat) (fork kept : Bool) (context p t lP : Nat) : Option Answer :=
  match ctxOf s context with
  | none => some (refusedFor rModel)
  | some c =>
    if (!fork && p = 0) || t = 0 || decide (c.maxPrefix < lP) ||
       (decide (33554432 < p + t) && c.layers.any (fun l => l.window == 0)) then some (refusedFor rCapacity)
    else
      let room := fun (s : State) => (kept || decide (entriesTaken s < Config.seqSlots)) && !(placesFree s).isEmpty
      if room s then none
      else some (deferredFor rCapacity ((earliest room (endings s n (fun _ => true)) s).getD Config.none48))

/-- Condition 9 (R124, R154): `take` puts the freeboard into a state. -/
def testFreeboard (s : State) (n : Nat) (take : State → State) : Except Answer State :=
  let freed := fun (_ : Nat) (_ : Desc) (s : State) => s
  let ok := fun (s : State) => (makeRoom freed (roomFuel s) (take s)).isSome
  match makeRoom freed (roomFuel s) (take s) with
  | some s => .ok s
  | none =>
    let bare := { s with pgm := { s.pgm with descs := [], prefixes := [] }, sqs := { s.sqs with seqs := [] } }
    if !fits (take bare) then .error (refusedFor rCapacity)
    else .error (deferredFor rFreeboard ((earliest ok (endings s n (fun _ => true)) s).getD Config.none48))

/-- A promise lies after a deadline (R147, R319): all ones name no deadline. -/
def tooLate (deadline last : Nat) : Bool := deadline != Config.none48 && stepOlder deadline last

/-- The verdict when the budget test fails (R154), and the plan when it passes. -/
def testBudget (s : State) (n : Nat) (cls deadline tenant : Nat) (e : Seq) (cs : List (Nat × Nat)) :
    Except Answer (List Chunk) :=
  let run := fun start ends =>
    let extra := if withinReserve s n start ends tenant cls e then 0 else unusedReserve s n start ends
    budgetTest s n start extra ends e cs
  match run (n + 1) false with
  | some plan => if tooLate deadline (maxOf (plan.map (·.step))) then .error (refusedFor rDeadline) else .ok plan
  | none =>
    match firstFrom (fun m => (run m true).isSome) (n + 2) (min 65534 (lastChange s n true + 2 - n)) with
    | none => .error (refusedFor rCapacity)
    | some m =>
      if tooLate deadline (maxOf (((run m true).getD []).map (·.step))) then .error (refusedFor rDeadline)
      else .error (deferredFor rCapacity m)

/-- Condition 10 of an admission or fork: a class above BEST_EFFORT names a deadline (R147). -/
def testPlan (s : State) (n : Nat) (q : Query) (e : Seq) (cs : List (Nat × Nat)) : Except Answer (List Chunk) :=
  if e.cls < 2 ∧ q.deadline = Config.none48 then .error (refusedFor rDeadline)
  else testBudget s n e.cls q.deadline q.tenant e cs

/-! ## The entry of a request -/

/-- The prompt ids the keeper holds (log 33). -/
def promptIds (tenant requestId n : Nat) : List Nat := (List.range n).map (Config.promptToken tenant requestId)

/-- The entry of an accepted query, without pages. -/
def entryOf (s : State) (n : Nat) (q : Query) (handle adapter p : Nat) : Seq :=
  { handle := handle, state := .accepted, tenant := q.tenant, context := q.context
    cls := requestClass s q.tenant q.cls, publish := q.publish, forked := q.fork, adapter := adapter
    adapterGen := ((Tab.look adapter s.mdl.adapters).map (·.generation)).getD 0, ownEpoch := 1
    compEpoch := q.compEpoch, requestId := q.requestId, admitStep := n, deadline := q.deadline, promptLen := p
    maxNew := q.maxNew, lP := q.lP, source := q.from_, parent := if q.fork then q.parent else Config.none32
    sampling := q.sampling, endToken := ((ctxOf s q.context).map (·.endToken)).getD Config.none32
    gateway := q.gateway
    layers := List.replicate (((ctxOf s q.context).map (·.layers.length)).getD 0) {} }

/-- Members of the own ring set that could take segments, the keeper left out (R102). -/
def ringSetMembers (s : State) : List Nat :=
  match mapNow s, myEntry s with
  | some m, some me =>
    if me.ringSet = 0 then []
    else (m.nodes.filter (fun x => x.role == 2 && x.status == 0 && x.ringSet == me.ringSet && x.group == me.group &&
      x.node != me.node)).map (·.node)
  | _, _ => []

/-- Ring size of a prompt (R102), 0 when it is not distributed. -/
def ringSize (s : State) (context p : Nat) : Nat :=
  match ctxOf s context with
  | none => 0
  | some c =>
    if c.ringSegment = 0 then 0
    else
      let z := min (min (cdiv p c.ringSegment) 64) ((ringSetMembers s).length + 1)
      if z < 2 then 0 else z

/-- Ring members in order, without the keeper (R102; log 34). -/
def ringMembers (s : State) (tenant requestId z : Nat) : List Nat :=
  (rendezvous (requestKey tenant requestId) (ringSetMembers s)).take (z - 1)

/-- The entry with its pages and freeboard: shared pages are held before it is taken (R124, R127, R128). -/
def withPages (slot : Nat) (e : Seq) (p t : Nat) (shared : List (List Nat)) (s : State) : State :=
  let h := (shared.headD []).length
  let e := { e with layers := e.layers.mapIdx (fun l lp => { lp with list := shared.getD l [] }) }
  let s := putSeq slot e s
  let s := e.layers.foldl (fun s lp => lp.list.foldl (fun s i => forDike e.tenant i (incRef i) s) s) s
  takeFreeboard slot p t h s

/-- Page lists that a prefix run gives each layer (R129). -/
def sharedLists (s : State) (layers : Nat) (run : List Nat) : List (List Nat) :=
  (List.range layers).map (fun l =>
    run.filterMap (fun k => (Tab.look k s.pgm.prefixes).bind (fun p => p.descs[l]?)))

/-- Sealed pages that a fork's parent holds in each layer without a window, to which alone they matter (R124, R127). -/
def sealedOf (s : State) (e : Seq) : Nat :=
  maxOf ((List.range e.layers.length).map (fun l =>
    if layerWindow s e.context l = 0 then
      ((e.layer l).list.filter (fun i => ((descAt s i).map (fun d => d.state == .sealed)).getD false)).length
    else 0))

/-- Everything of an acceptance but the plan and the verdict: what the tests need. -/
structure Offer where
  entry : Seq
  /-- Positions at admission, and chunks to plan. -/
  p : Nat
  chunks : List (Nat × Nat)
  hist : List Nat
  pubParent : Option Nat
  pubPages : Nat
  take : State → State

/-- A new request at its keeper: pages shared through the prefix table, the rest prefilled. Where every position of the prompt is
shared, one resume chunk gives the first token, as for a fork whose history is held (R127, R178; DEDUCED, log 126). -/
def offerNew (s : State) (n slot handle adapter : Nat) (q : Query) (z : Nat) : Offer :=
  let e := entryOf s n q handle adapter q.promptLen
  let hist := promptIds q.tenant q.requestId q.promptLen
  let seg := ((ctxOf s q.context).map (·.ringSegment)).getD 0
  let run := if z = 0 then
    sharedRun s n q.tenant q.context adapter e.adapterGen q.lP hist else []
  let held := run.length * pageTokens s
  let segFirst := if z = 0 then 0 else (z - 1) * seg
  let first := max held segFirst
  let e := { e with position := first, segFirst := segFirst, segEnd := q.promptLen + q.maxNew
                    ring := z != 0, ringZ := z, member := z - 1
                    ringNodes := if z = 0 then [] else ringMembers s q.tenant q.requestId z ++ [s.fab.node] }
  { entry := e, p := q.promptLen
    chunks := if first < q.promptLen then cutChunks first q.promptLen else [(q.promptLen - 1, 1)], hist := hist
    pubParent := run.getLast?, pubPages := run.length
    take := fun s => withPages slot e (q.promptLen - segFirst) q.maxNew (sharedLists s e.layers.length run) s }

/-- A fork (R127). -/
def offerFork (s : State) (n slot handle : Nat) (parent : Seq) (q : Query) : Offer :=
  let hist := Tab.getD s.slc.hist (parent.handle % 16384) []
  let e := { entryOf s n q handle parent.adapter hist.length with
               position := parent.position, lP := parent.lP, adapterGen := parent.adapterGen }
  let cs := if parent.position < hist.length then cutChunks parent.position hist.length
    else [(hist.length - 1, 1)]
  { entry := e, p := hist.length, chunks := cs, hist := hist, pubParent := none, pubPages := 0
    take := fun s =>
      let s := putSeq slot { e with layers := e.layers.mapIdx (fun l lp => { lp with list := (parent.layer l).list }) } s
      let s := parent.layers.foldl (fun s lp => lp.list.foldl (fun s i => forDike e.tenant i (incRef i) s) s) s
      takeFreeboard slot hist.length q.maxNew (sealedOf s parent) s }

/-- Pages an offer adds to the tenant's use (R124). -/
def offerPages (s : State) (o : Offer) (tenant : Nat) : Nat := pagesOf (o.take s) tenant - pagesOf s tenant

/-- Conditions 3 to 6, giving the adapter version and the parent. -/
def testNamed (s : State) (q : Query) : Except Answer (Nat × Option Seq) :=
  if q.compEpoch ≠ compEpoch s then .error (refusedFor rEpochStale)
  else if !keysInForce s q.tenant then .error (refusedFor rKeyAbsent)
  else if !contextOk s q.tenant q.context (q.fork && (parentOf s q).isSome) then .error (refusedFor rModel)
  else if q.fork && (parentOf s q).isNone then .error (refusedFor rParent)
  else match adapterFor s q.tenant q.context q.adapter with
    | none => .error (refusedFor rAdapter)
    | some a => if q.fork then .ok (((parentOf s q).map (·.adapter)).getD a, parentOf s q) else .ok (a, none)

/-- The whole test of a query at boundary `n` (R148): the answer that refuses or defers it, or the state with the entry
and its freeboard, the slot, and the plan. `kept` is a handle already set aside for it. -/
def testQuery (n : Nat) (q : Query) (kept : Option Nat) (s : State) : Except Answer (State × Nat × Offer × List Chunk) :=
  match testTime s n with
  | some a => .error a
  | none =>
    match testNamed s q with
    | .error a => .error a
    | .ok (adapter, parent) =>
      let slot := match kept with
        | some h => (some (h % 16384, h), s)
        | none => newHandle s
      let k := slot.1.getD (Config.seqSlots, Config.none32)
      let z := if q.fork then 0 else ringSize s q.context q.promptLen
      let o := match parent with
        | some p => offerFork s n k.1 k.2 p q
        | none => offerNew s n k.1 k.2 adapter q z
      match testQuota s n q.tenant 1 (offerPages s o q.tenant) with
      | some a => .error a
      | none =>
        match testShape s n q.fork kept.isSome q.context o.p q.maxNew q.lP with
        | some a => .error a
        | none =>
          match testFreeboard slot.2 n o.take with
          | .error a => .error a
          | .ok s2 =>
            match testPlan s n q o.entry o.chunks with
            | .error a => .error a
            | .ok plan => .ok (s2, k.1, o, plan)

/-! ## Verdicts (R154, R155) -/

/-- A verdict given is counted, for the module and for the dike (R164, R313). -/
def countVerdict (tenant outcome : Nat) (s : State) : State :=
  let acct := acctOf s tenant
  if outcome = 2 then
    bump cDefer 1 (sEvent acct.deferred (sNext acct.deferred 1) 13 (tenant * 16 + 10)
      (setAcct tenant { acct with deferred := sNext acct.deferred 1 } s))
  else if outcome = 3 then
    bump cRefused 1 (sEvent acct.refused (sNext acct.refused 1) 13 (tenant * 16 + 11)
      (setAcct tenant { acct with refused := sNext acct.refused 1 } s))
  else s

/-- Send a verdict, and count it (R313). -/
def sendVerdict (q : Query) (a : Answer) (handle : Nat) (ring : List Nat) (s : State) : State :=
  let v : Verdict := { outcome := a.outcome, reason := a.reason, requestId := q.requestId, handle := handle, step := a.step
                       tenant := q.tenant, keeper := s.fab.node, compEpoch := compEpoch s, ring := ring }
  sendMsg q.from_ q.tenant (.moduleMessage 0x22) 0 v.bytes (countVerdict q.tenant a.outcome s)

end Sys2Proof.Machine
end

