-- ==== Sys2Proof/Machine/Models.lean ====
section
/-! DEFINITION. Model contexts and adapter versions: registration, retirement, cache space, and the planes of weights
in tier 2 (R188 to R194, R201 to R204, R240). -/

namespace Sys2Proof.Machine

/-! ## Addresses (R207, R221) -/

/-- One GiB. -/
def gib : Nat := 1073741824

/-- What a device physical address names (R207, R209): the system area, the weight cache, the page pool and HDM in GDDR7, one of
the four buffer dies, an ACTIVE segment of the CXL tier by its place in the charter's list. -/
inductive Area where
  | system
  | weightCache
  | pool
  | hdm
  | sram (die : Nat)
  | cxl (segment : Nat)
  deriving DecidableEq, Repr

/-- Decoding of a device physical address; none where it is unmapped (R207, R209). -/
def areaOf (s : State) (a : Nat) : Option Area :=
  if a < 4 * gib then some .system
  else if a < (4 + s.stw.charter.weightCache) * gib then some .weightCache
  else if a < Config.hdmBase then some .pool
  else if a < Config.hdmBase + Config.hdmSize then some .hdm
  else if 0x0040_0000_0000 ≤ a ∧ a < 0x0040_4000_0000 then some (.sram (bitsOf a 29 28))
  else if Config.cxlBase ≤ a ∧ a < 2 * Config.cxlBase then
    (firstFrom (fun i => (s.tir.segments[i]?.map (fun g => g.state == .active &&
      decide (g.base ≤ (a - Config.cxlBase) / gib) && decide ((a - Config.cxlBase) / gib < g.base + g.size))).getD false)
      0 s.tir.segments.length).map Area.cxl
  else none

/-- The GDDR7 device that holds an address, 2 KiB a unit, and the memory die it is on (R210). -/
def gddrDevice (a : Nat) : Nat := bitsOf a 15 11
def gddrDie (a : Nat) : Nat := gddrDevice a / 16

/-- The CXL port on which a line of a segment goes: X0 or X1 (R222). -/
def linePort (g : Segment) (a : Nat) : Nat := if g.ports = 1 then 0 else if g.ports = 2 then 1 else bitsOf a 12 12

/-- `n` bytes from `a` lie wholly within ACTIVE tier segments of the CXL tier. -/
def inSegments (s : State) (a n : Nat) : Bool :=
  decide (Config.cxlBase ≤ a) && decide (a + n ≤ 2 * Config.cxlBase) &&
  (let lo := (a - Config.cxlBase) / gib
   let hi := (a + max n 1 - 1 - Config.cxlBase) / gib
   (List.range (hi + 1 - lo)).all (fun i => s.tir.segments.any (fun g =>
     g.state == .active && decide (g.base ≤ lo + i) && decide (lo + i < g.base + g.size))))

/-! ## Planes (R190, R240) -/

/-- Element format of a weight format code. -/
def weightFmt (w : Nat) : Fmt :=
  match w with
  | 0 => .e4m3
  | 1 => .e5m2
  | 2 => .ss4
  | 3 => .ss6
  | 4 => .bf16
  | _ => .fp16

/-- Formats with a scale plane (R67). -/
def sharedScale (w : Nat) : Bool := w == 2 || w == 3

/-- Bytes of `n` elements of a format in a plane (R68). -/
def planeBytes (f : Fmt) (n : Nat) : Nat :=
  match f with
  | .ss4 => n / 2
  | .ss6 => n * 3 / 4
  | _ => n * f.size

/-- Raw bytes of the element plane of matrix `m`. -/
def Ctx.planeRaw (c : Ctx) (w m : Nat) : Nat := planeBytes (weightFmt w) (c.din m * c.cols m)

/-- Raw bytes of the scale plane of the four matrices. -/
def Ctx.scaleRaw (c : Ctx) (w : Nat) : Nat :=
  if sharedScale w then ((List.range 4).map (fun m => c.din m * c.cols m / 32)).sum else 0

/-- Address of the element plane of matrix `m`. -/
def LayerDesc.plane (l : LayerDesc) (m : Nat) : Nat :=
  match m with
  | 0 => l.wq
  | 1 => l.wk
  | 2 => l.wv
  | _ => l.wo

/-- Header bytes `i` of a plane as stored in the cells `m`. -/
def planeHeader (m : List Host.Cell) (a i : Nat) : List Byte := memBytes m (a + 16 * i) 16

/-- Stored bytes of payload `i` of a plane. -/
def planePayload (m : List Host.Cell) (a i : Nat) : Nat := cdiv (headerLen (planeHeader m a i)) 64 * 64

/-- Address of payload `i` of a plane of `n` blocks. -/
def payloadAddr (m : List Host.Cell) (a n i : Nat) : Nat :=
  a + cdiv (16 * n) 64 * 64 + ((List.range i).map (planePayload m a)).sum

/-- The stored span of a plane (log 35). -/
def planeSpan (m : List Host.Cell) (a raw : Nat) : Nat := let n := cdiv raw 4096; payloadAddr m a n n - a

/-- The model key of a context (R244, R297). -/
def modelKey (s : State) (context : Nat) : Nat := Tab.getD s.sec.model context 0

/-- One block of a plane, read and expanded: it is encrypted under the model key at its address (R241, R244). -/
def planeBlock (s : State) (m : List Host.Cell) (context a n i : Nat) : Except Damage (List Byte) :=
  expandStored (codeTables s) (some context) (modelKey s context) (payloadAddr m a n i)
    (planeHeader m a i, memBytes m (payloadAddr m a n i) (planePayload m a i))

/-- Bytes `off` to `off + len` of the raw plane, expanded (R241). -/
def planeRead (s : State) (m : List Host.Cell) (context a raw off len : Nat) : Except Damage (List Byte) :=
  let n := cdiv raw 4096
  let lo := off / 4096
  let hi := cdiv (off + len) 4096
  match joinPieces ((List.range (hi - lo)).map (fun i => planeBlock s m context a n (lo + i))) with
  | .error d => .error d
  | .ok r => .ok ((r.drop (off - lo * 4096)).take len)

/-- The planes of a layer: address and raw size. -/
def layerPlanes (c : Ctx) (l : LayerDesc) : List (Nat × Nat) :=
  (List.range 4).map (fun m => (l.plane m, c.planeRaw l.wformat m)) ++
    (if sharedScale l.wformat then [(l.scales, c.scaleRaw l.wformat)] else [])

/-- The damaged blocks of some planes: address of the header, and cause (R246). -/
def planeDamages (s : State) (m : List Host.Cell) (context : Nat) (ps : List (Nat × Nat)) : List (Nat × Damage) :=
  ps.flatMap (fun p => (List.range (cdiv p.2 4096)).filterMap (fun i =>
    match planeBlock s m context p.1 (cdiv p.2 4096) i with
    | .error d => some (p.1 + 16 * i, d)
    | .ok _ => none))

/-- What a layer takes in tier 2 beside its planes: gain and bias (R190). -/
def layerVectors (c : Ctx) (l : LayerDesc) : List (Nat × Nat) :=
  (l.gain, 4 * c.width) :: (if l.bias then [(l.biasAddr, 4 * ((List.range 4).map c.cols).sum)] else [])

/-- The stretches of tier 2 that a layer lies in. -/
def layerSpans (m : List Host.Cell) (c : Ctx) (l : LayerDesc) : List (Nat × Nat) :=
  (layerPlanes c l).map (fun p => (p.1, planeSpan m p.1 p.2)) ++ layerVectors c l

/-- The cells in some stretches. -/
def cellsIn (m : List Host.Cell) (spans : List (Nat × Nat)) : List Host.Cell :=
  m.filter (fun x => spans.any (fun p => decide (p.1 ≤ x.1) && decide (x.1 < p.1 + p.2)))

/-- Where the weights of a layer, or of an adapter's layer, are read: the copy in the weight cache, or the tier-2 master for a
context homed there and while a damaged piece is fetched again (R194). -/
def copyCells (s : State) (c : Ctx) (key : Nat) (copy : Option (List Host.Cell)) : List Host.Cell :=
  match copy with
  | some m => if c.refetching.contains key then s.mem else m
  | none => s.mem

/-- The cells that the weights of a layer are read from. -/
def weightCells (s : State) (c : Ctx) (layer : Nat) : List Host.Cell := copyCells s c layer c.cells

/-- The first damage met in the planes of a layer, if any. -/
def layerDamage (s : State) (context : Nat) (c : Ctx) (layer : Nat) (l : LayerDesc) : Option Damage :=
  ((planeDamages s (weightCells s c layer) context (layerPlanes c l)).head?).map (·.2)

/-! ## Cache space (R194) -/

/-- Bytes of the weight cache in use. -/
def cacheUse (s : State) : Nat :=
  ((Tab.vals s.mdl.ctxs).map (fun c => if c.homeCxl then 0 else c.weightBytes)).sum +
  ((Tab.vals s.mdl.adapters).map (·.total)).sum

/-- Bytes free. -/
def cacheFree (s : State) : Nat := s.stw.charter.weightCache * gib - cacheUse s

/-! ## Registering a context (R189 to R191) -/

/-- Outcome of a command of R191 in MDL_REG_RESULT. -/
def mdlResult (cmd cause object : Nat) (s : State) : State :=
  { s with mdl := { s.mdl with result := cmd * 2 ^ 28 + cause * 2 ^ 20 + object % 4096 } }

/-- A command of R191 is refused. -/
def mdlRefuse (t : Ticket) (cmd cause object : Nat) (s : State) : State :=
  refusedWith t cause (raise .regRefused (bump cRegRefuse 1 (mdlResult cmd cause object s)))

/-- RSVD fields of a context record are zero. -/
def ctxRsvdOk (bs : List Byte) : Bool :=
  decide (fld bs 0 1 < 64) && decide (fld bs 1 1 < 2) && decide (fld bs 13 1 < 4) && zeroAt bs 44 4 && zeroAt bs 54 2 &&
  zeroAt bs 62 2 && zeroAt bs 72 184

/-- Fields of a context record lie in their ranges (R89, R189). -/
def ctxRangeOk (s : State) (layers : Nat) (c : Ctx) : Bool :=
  decide (1 ≤ layers) && decide (layers ≤ 256) && decide (64 ≤ c.width) && decide (c.width ≤ 16384) &&
  c.width % 64 == 0 && decide (1 ≤ c.nKv) && decide (c.nKv ≤ 64) && decide (1 ≤ c.gqa) && decide (c.gqa ≤ 16) &&
  [64, 128, 256].contains c.headDim && decide (c.qFmt < 2) && decide (c.kvFmt < 2) && decide (c.outFmt < 2) &&
  decide (c.actFmt < 2) && decide (c.rotMode < 3) &&
  (c.rotMode == 0 || (c.rotDims % 2 == 0 && decide (2 ≤ c.rotDims) && decide (c.rotDims ≤ c.headDim))) &&
  !F32.isNan c.scale && !F32.isInf c.scale && decide (c.maxPrefix ≤ 4096) &&
  (c.ringSegment == 0 || (decide (8192 ≤ c.ringSegment) && decide (c.ringSegment ≤ 4194304) &&
    c.ringSegment % 512 == 0 && c.ringSegment % pageTokens s == 0)) &&
  decide (c.turnaround ≤ 72000000) && decide (1 ≤ c.vocab) && decide (c.vocab ≤ 1048576)

/-- One layer descriptor's fields lie in their ranges and its addresses in ACTIVE segments (R190, R191). -/
def layerRangeOk (s : State) (c : Ctx) (i : Nat) (bs : List Byte) (l : LayerDesc) : Bool :=
  fld bs 0 1 == i && decide (fld bs 1 1 < 4) && decide (l.wformat < 6) && zeroAt bs 3 1 &&
  decide (l.window ≤ 1048576) && [14, 22, 30, 38, 46, 54, 62].all (fun o => zeroAt bs o 2) && zeroAt bs 68 60 &&
  (sharedScale l.wformat || l.scales == 0) && (l.bias || l.biasAddr == 0) &&
  (List.range 4).all (fun m => inSegments s (l.plane m) (cdiv (16 * cdiv (c.planeRaw l.wformat m) 4096) 64 * 64) &&
    inSegments s (l.plane m) (planeSpan s.mem (l.plane m) (c.planeRaw l.wformat m))) &&
  (!sharedScale l.wformat ||
    (inSegments s l.scales (cdiv (16 * cdiv (c.scaleRaw l.wformat) 4096) 64 * 64) &&
     inSegments s l.scales (planeSpan s.mem l.scales (c.scaleRaw l.wformat)))) &&
  inSegments s l.gain (4 * c.width) &&
  (!l.bias || inSegments s l.biasAddr (4 * ((List.range 4).map c.cols).sum))

/-- Bytes of layer descriptor `i` of a record. -/
def layerBytes (s : State) (bs : List Byte) (i : Nat) : List Byte := readMem s (fld bs 48 6 + 128 * i) 128

/-- The context of a record with its layers and frequencies, none where their addresses fail. -/
def readContext (s : State) (bs : List Byte) : Option Ctx :=
  let c := readCtx bs
  let n := fld bs 2 2
  if !inSegments s (fld bs 48 6) (128 * n) || (c.rotMode != 0 && !inSegments s (fld bs 56 6) (2 * c.rotDims)) then none
  else
    some { c with
      layers := (List.range n).map (fun i => readLayer (layerBytes s bs i))
      freqs := if c.rotMode = 0 then [] else words4 (readMem s (fld bs 56 6) (2 * c.rotDims)) 0 (c.rotDims / 2) }

/-- The cause that refuses a record, if any; with the context (R191, R294). -/
def contextCause (s : State) (bs : List Byte) : Except Nat Ctx :=
  let i := fld bs 0 1 % 64
  if Tab.has i s.mdl.ctxs then .error causeBusy
  else if !ctxRsvdOk bs || !ctxRangeOk s (fld bs 2 2) (readCtx bs) then .error causeRange
  else match readContext s bs with
    | none => .error causeRange
    | some c =>
      if !((List.range c.layers.length).zip c.layers).all (fun p => layerRangeOk s c p.1 (layerBytes s bs p.1) p.2) ||
         c.weightBytes != (c.layers.map (·.stored)).sum then .error causeRange
      else if 1048576 < c.rawBytes (pageTokens s) ∨ c.layers.any (fun l => decide (134217728 < l.stored)) ∨
              2 ^ 24 < max c.width (c.gqa * c.nKv * c.headDim) + 1 then .error causeLimit
      else if !c.homeCxl && decide (cacheFree s < c.weightBytes) then .error causeCache
      else if !Tab.has i s.sec.model then .error causeUnknown
      else .ok c

/-- REGISTER_CONTEXT at action 2 (R191, R192): a context homed in tier 2 needs no fill. -/
def doRegisterContext (t : Ticket) (bs : List Byte) (s : State) : State :=
  let i := fld bs 0 1 % 64
  match contextCause s bs with
  | .error c => mdlRefuse t 1 c i s
  | .ok c =>
    done t (mdlResult 1 0 i { s with mdl := { s.mdl with ctxs := Tab.put i { c with filled := c.homeCxl } s.mdl.ctxs } })

/-- A context becomes FREE: its cache space returns and its model key is erased (R192, R297). -/
def freeContext (i : Nat) (s : State) : State :=
  { s with mdl := { s.mdl with ctxs := Tab.del i s.mdl.ctxs, resident := s.mdl.resident.map (fun e => (e.1, e.2.filter (· ≠ i))) }
           sec := { s.sec with model := Tab.del i s.sec.model } }

/-- A context enters RETIRING: version 0 becomes current for every tenant of it (R192, R204). -/
def retireContext (i : Nat) (s : State) : State :=
  { s with mdl := { s.mdl with
      ctxs := Tab.upd i (fun c => { c with state := .retiring }) s.mdl.ctxs
      adapters := s.mdl.adapters.map (fun e => (e.1, if e.2.context = i then { e.2 with current := false } else e.2)) } }

/-- RETIRE_CONTEXT at action 2 (R191, R192). -/
def doRetireContext (t : Ticket) (i : Nat) (s : State) : State :=
  match ctxOf s i with
  | none => mdlRefuse t 2 causeUnknown i s
  | some c =>
    let s := mdlResult 2 0 i s
    match c.state with
    | .loading => done t (freeContext i s)
    | .ready => done t (retireContext i s)
    | .retiring => done t s

/-- LOADING contexts whose fill has completed become READY (R192). -/
def readyContexts (s : State) : State :=
  { s with mdl := { s.mdl with ctxs := s.mdl.ctxs.map (fun e =>
      (e.1, if e.2.state == .loading && e.2.filled then { e.2 with state := .ready } else e.2)) } }

/-- RETIRING contexts that no entry and no adapter version names become FREE (R192, R204 step 3). -/
def freeRetired (s : State) : State :=
  let idle := s.mdl.ctxs.filter (fun e => e.2.state == .retiring &&
    !(Tab.vals s.sqs.seqs).any (fun q => q.context == e.1) && !(Tab.vals s.mdl.adapters).any (fun a => a.context == e.1))
  idle.foldl (fun s e => freeContext e.1 s) s

/-- Adapter versions that are not current and hold no pin are retired (R203, R204 step 2). -/
def retireVersions (s : State) : State :=
  let gone := s.mdl.adapters.filter (fun e => !e.2.current && pinsOf s e.1 == 0)
  raiseTimes .adapterRetired gone.length
    (gone.foldl (fun s e => { s with mdl := { s.mdl with adapters := Tab.del e.1 s.mdl.adapters } }) s)

/-! ## Adapters (R201 to R203) -/

/-- Largest reduction of an adapter (R72, R202). -/
def adapterReduction (s : State) (a : Adapter) : Nat :=
  ((ctxOf s a.context).map (fun c => max c.width (c.gqa * c.nKv * c.headDim))).getD 0 + a.rank + 1

/-- The cause that refuses an adapter record, if any (R201). -/
def adapterCause (s : State) (bs : List Byte) (v : Nat) (a : Adapter) : Option Nat :=
  if decide (4096 ≤ v) || v == 0 || a.tenant == 0 || decide (64 ≤ fld bs 4 1) || decide (32 ≤ fld bs 5 1) ||
     decide (a.rank < 8) || decide (256 < a.rank) || a.rank % 8 != 0 || decide (a.shift < -32) || decide (31 < a.shift) ||
     !zeroAt bs 9 3 || !zeroAt bs 22 2 || !inSegments s a.store a.total ||
     Tab.look v s.mdl.lastGen == some a.generation then some causeRange
  else if 8388608 < a.layerBytes ∨ 2 ^ 24 < adapterReduction s a then some causeLimit
  else if ((ctxOf s a.context).map (fun c => c.state == .ready)).getD false = false ∨ !Tab.has a.tenant s.sec.leases then
    some causeUnknown
  else if Tab.has v s.mdl.adapters then some causeVersions
  else if cacheFree s < a.total then some causeCache
  else none

/-- Version 0 becomes current for a tenant and context (R203). -/
def dropCurrent (tenant context : Nat) (s : State) : State :=
  { s with mdl := { s.mdl with adapters := s.mdl.adapters.map (fun e =>
      (e.1, if e.2.tenant = tenant ∧ e.2.context = context then { e.2 with current := false } else e.2)) } }

/-- REGISTER_ADAPTER at action 2 (R201, R203). -/
def doRegisterAdapter (t : Ticket) (bs : List Byte) (s : State) : State :=
  let v := fld bs 0 2
  let a := readAdapter bs
  match adapterCause s bs v a with
  | some c => mdlRefuse t 3 c v s
  | none =>
    let s := dropCurrent a.tenant a.context s
    doneWith t (v + a.generation * 65536) 0 (mdlResult 3 0 v { s with mdl := { s.mdl with
      adapters := Tab.put v { a with cells := cellsIn s.mem [(a.store, a.total)] } s.mdl.adapters, lastGen := Tab.put v a.generation s.mdl.lastGen } })

/-- WITHDRAW_ADAPTER at action 2 (R203): version 0 becomes current for the ring's tenant and the context. -/
def doWithdrawAdapter (t : Ticket) (tenant context : Nat) (s : State) : State :=
  if 64 ≤ context then mdlRefuse t 4 causeRange context s
  else done t (mdlResult 4 0 context (dropCurrent tenant context s))

/-! ## Fills -/

/-- A context fill reads the stored weights from tier 2 in lines and writes them to the weight cache: dike 0 (R309, R310). -/
def chargeFill (context : Nat) (s : State) : State :=
  match ctxOf s context with
  | some c =>
    let n := (c.layers.map (·.stored)).sum
    if c.state == .loading && !c.homeCxl then charge 0 4 (cdiv n 256 * 256) (charge 0 3 n s) else s
  | none => s

/-- CONTEXT_FILL_COMPLETE (R192): the weight cache has the cells of the master, and READY follows at the next boundary. -/
def execContextFillComplete (context : Nat) (s : State) : Host.Outcome State Fault Refusal :=
  let s := chargeFill context s
  .next { s with mdl := { s.mdl with ctxs := Tab.upd context (fun c =>
    if c.state == .loading then { c with
      filled := true, cells := some (cellsIn s.mem (c.layers.flatMap (layerSpans s.mem c))) } else c) s.mdl.ctxs } }

end Sys2Proof.Machine
end

