-- ==== Sys2Proof/Machine/Engine.lean ====
section
/-! DEFINITION. What the engines compute for one item: norm, projections with adapter deltas, rotary encoding, attention
over one source, merges, outputs (R67 to R85, R87 to R96, R202). -/

namespace Sys2Proof.Machine

/-! ## Operands -/

/-- One operand of a reduction: format, code, block scale exponent, and whether its block is marked NaN (R67). -/
abbrev Opd := Fmt × Nat × Int × Bool

/-- Neither NaN nor infinity. -/
def Opd.finite (o : Opd) : Bool := !(o.1.nonfinite o.2.1) && !o.2.2.2

/-- An unscaled operand. -/
def plain (f : Fmt) (c : Nat) : Opd := (f, c, 0, false)

/-- An FP32 code for one operand, exact where it is finite and unscaled. -/
def Opd.f32 (o : Opd) : Nat :=
  if o.2.2.2 then F32.nan
  else if o.1.nonfinite o.2.1 then
    (if o.2.1 % 2 ^ o.1.mbits = 0 ∧ o.1 ≠ .e4m3 then F32.inf (o.2.1.testBit (o.1.mbits + o.1.ebits)) else F32.nan)
  else let v := (o.1.value o.2.1).scale o.2.2.1
    if v.isZero then F32.zero (o.2.1.testBit (o.1.mbits + o.1.ebits)) else F32.ofDy v

/-- The product of two operands rounded once to FP32 (R84); one that is not finite follows IEEE 754 (DESIGN CHOICE, log 119). -/
def prodF (a b : Opd) : Nat :=
  if a.finite && b.finite then
    let v := (Dy.mul (a.1.value a.2.1) (b.1.value b.2.1)).scale (a.2.2.1 + b.2.2.1)
    if v.isZero then 0 else F32.ofDy v
  else F32.mul a.f32 b.f32

/-- Class F: blocks of 32 products, in FP32 steps (R84). -/
def sumBlocksF (ps : List Nat) : Nat :=
  (chunks 32 ps).foldl (fun acc blk => F32.add acc (blk.foldl F32.add 0)) 0

/-- Class N: exact reduction of products (R70), none where an operand is not finite (R74). -/
def sumN (ps : List (Opd × Opd)) : Option Dy :=
  if ps.any (fun p => !p.1.finite || !p.2.finite) then none
  else some (reduceN (ps.map (fun p => product (p.1.1.value p.1.2.1) (p.2.1.value p.2.2.1) (p.1.2.2.1 + p.2.2.2.1))))

/-- A rounded element with what it counts: saturated (R75), non-finite (R74). -/
structure Elem where
  code : Nat
  sat : Bool := false
  bad : Bool := false
  deriving DecidableEq, Repr

/-- Round the reduction of several sets of products into a format, by the class in force. `delta` is the adapter's set
(R202). In class F operands that are not finite follow the FP32 steps and count nothing (DESIGN CHOICE, log 119). -/
def reduceInto (n : Bool) (f : Fmt) (ps delta : List (Opd × Opd)) : Elem :=
  if n then
    match sumN (ps ++ delta) with
    | none => { code := f.nan, bad := true }
    | some d => let r := d.round f; { code := r.code, sat := r.sat }
  else
    let acc := sumBlocksF (ps.map (fun p => prodF p.1 p.2))
    let acc := if delta.isEmpty then acc else F32.add acc (sumBlocksF (delta.map (fun p => prodF p.1 p.2)))
    let r := F32.toFmt f acc
    { code := r.code, sat := r.sat }

/-- What a list of elements counts. -/
def satsOf (es : List Elem) : Nat := (es.filter (·.sat)).length
def badsOf (es : List Elem) : Nat := (es.filter (·.bad)).length

/-- Count output saturations and non-finite reductions (R74, R75, R86). -/
def noteElems (es : List Elem) (s : State) : State :=
  let s := bump cOutSat (satsOf es) (raiseTimes .outSat (satsOf es) s)
  bump cNonfinite (badsOf es) (raiseTimes .nonfinite (badsOf es) s)

/-! ## Matrices (R68, R190, R202) -/

/-- Elements of a plane's bytes. -/
def planeElems (f : Fmt) (bs : List Byte) : List Nat :=
  match f with
  | .ss4 => (bs.map (fun b => [b.toNat % 16, b.toNat / 16])).flatten
  | .ss6 => ((chunks 24 bs).map (fun c => let v := unle c; (List.range 32).map (fun i => v / 64 ^ i % 64))).flatten
  | _ => bytesCodes f bs

/-- A column of operands with its block scales, one scale byte per 32 elements. -/
def scaledColumn (f : Fmt) (elems : List Nat) (scales : List Byte) : List Opd :=
  (List.range elems.length).map (fun i =>
    let c := (scales.getD (i / 32) 0x7F#8).toNat
    (f, elems.getD i 0, (c : Int) - 127, c == 255))

/-- Column `col` of weight matrix `m` of a layer; none where a block is damaged. -/
def weightColumn (s : State) (context : Nat) (c : Ctx) (layer : Nat) (l : LayerDesc) (m col : Nat) : Option (List Opd) :=
  let f := weightFmt l.wformat
  let per := planeBytes f (c.din m)
  let cells := weightCells s c layer
  match planeRead s cells context (l.plane m) (c.planeRaw l.wformat m) (col * per) per with
  | .error _ => none
  | .ok bs =>
    if sharedScale l.wformat then
      let skip := ((List.range m).map (fun k => c.din k * c.cols k / 32)).sum
      match planeRead s cells context l.scales (c.scaleRaw l.wformat) (skip + col * (c.din m / 32)) (c.din m / 32) with
      | .error _ => none
      | .ok sc => some (scaledColumn f (planeElems f bs) sc)
    else some ((planeElems f bs).map (plain f))

/-- The bias of column `col` of matrix `m` (R87, R190). -/
def biasOf (s : State) (c : Ctx) (layer : Nat) (l : LayerDesc) (m col : Nat) : Option Opd :=
  if l.bias then
    let skip := ((List.range m).map c.cols).sum
    some (plain .fp32 (fld (memBytes (weightCells s c layer) (l.biasAddr + 4 * (skip + col)) 4) 0 4))
  else none

/-- Format of an adapter's matrices. -/
def Adapter.fmt (a : Adapter) : Fmt := if a.format = 0 then .int8 else .e4m3

/-- Rows of Bm as stored: padded to a multiple of 32 for INT8 (R202). -/
def Adapter.inner (a : Adapter) : Nat := if a.format = 0 then cdiv a.rank 32 * 32 else a.rank

/-- Raw bytes of the planes of one target in order: A, its scales, Bm, its scales (log 36). -/
def Adapter.planes (a : Adapter) (c : Ctx) (m : Nat) : List Nat :=
  if bitOf a.targets m then
    let x := c.din m * a.rank
    let y := a.inner * c.cols m
    if a.format = 0 then [x, x / 32, y, y / 32] else [x, y]
  else []

/-- The piece that a layer of an adapter version is, and the cells it is read from (R194). -/
def adapterPiece (v layer : Nat) : Nat := 65536 + 256 * v + layer
def adapterCells (s : State) (c : Ctx) (v layer : Nat) (a : Adapter) : List Host.Cell :=
  copyCells s c (adapterPiece v layer) (some a.cells)

/-- Addresses and raw sizes of an adapter's planes, layer by layer and target by target. -/
def adapterPlanes (m : List Host.Cell) (c : Ctx) (a : Adapter) (layer : Nat) : List (Nat × Nat × Nat) :=
  let all := ((List.range (layer + 1)).map (fun l =>
    ((List.range 4).map (fun m => (a.planes c m).map (fun r => (l, m, r)))).flatten)).flatten
  (all.foldl (fun (acc : Nat × List (Nat × Nat × Nat)) p =>
    (acc.1 + planeSpan m acc.1 p.2.2, if p.1 = layer then acc.2 ++ [(p.2.1, acc.1, p.2.2)] else acc.2)) (a.store, [])).2

/-- Read a piece of an adapter plane as operands. -/
def adapterColumn (s : State) (cells : List Host.Cell) (context : Nat) (f : Fmt) (plane scale : Option (Nat × Nat)) (per col : Nat) : List Opd :=
  match plane with
  | none => []
  | some p =>
    match planeRead s cells context p.1 p.2 (col * per) per with
    | .error _ => []
    | .ok bs =>
      match scale with
      | none => (planeElems f bs).map (plain f)
      | some q =>
        match planeRead s cells context q.1 q.2 (col * (per / 32)) (per / 32) with
        | .error _ => []
        | .ok sc => scaledColumn f (planeElems f bs) sc

/-- The four planes of one target of an adapter in a layer: A, its scales, Bm, its scales. -/
def targetPlanes (cells : List Host.Cell) (c : Ctx) (layer m : Nat) (a : Adapter) : List (Option (Nat × Nat)) :=
  let ps := ((adapterPlanes cells c a layer).filter (fun p => p.1 = m)).map (fun p => (p.2.1, p.2.2))
  if a.format = 0 then [ps[0]?, ps[1]?, ps[2]?, ps[3]?] else [ps[0]?, none, ps[1]?, none]

/-- The elements u of an adapter for one row and target (R202): each rounded once to FP8 E4M3. -/
def adapterInner (s : State) (n : Bool) (context : Nat) (c : Ctx) (layer m v : Nat) (a : Adapter) (x : List Opd) : List Elem :=
  if !bitOf a.targets m then []
  else
    let cells := adapterCells s c v layer a
    let ps := targetPlanes cells c layer m a
    (List.range a.rank).map (fun j =>
      reduceInto n .e4m3 (x.zip (adapterColumn s cells context a.fmt (ps.getD 0 none) (ps.getD 1 none) (c.din m) j)) [])

/-- The products of an adapter's delta for one row and column (R202). -/
def adapterDelta (s : State) (n : Bool) (context : Nat) (c : Ctx) (layer m col v : Nat) (a : Adapter) (x : List Opd) :
    List (Opd × Opd) :=
  if !bitOf a.targets m then []
  else
    let cells := adapterCells s c v layer a
    let ps := targetPlanes cells c layer m a
    let b := adapterColumn s cells context a.fmt (ps.getD 2 none) (ps.getD 3 none) a.inner col
    ((adapterInner s n context c layer m v a x).map (fun e => ((Fmt.e4m3, e.code, a.shift, false) : Opd))).zip b

/-- Output elements of a projection slice for one row: columns `first` to `first + count` of matrix `m` (R87, R202). -/
def projectRow (s : State) (n : Bool) (context : Nat) (c : Ctx) (layer m first count : Nat) (l : LayerDesc)
    (adapter : Option (Nat × Adapter)) (out : Fmt) (x : List Opd) : List Elem :=
  (List.range count).map (fun i =>
    let col := first + i
    match weightColumn s context c layer l m col with
    | none => { code := out.nan, bad := true }
    | some w =>
      let ps := x.zip w ++ (match biasOf s c layer l m col with
        | some b => [(b, plain .fp32 0x3F800000)]
        | none => [])
      reduceInto n out ps (match adapter with
        | some a => adapterDelta s n context c layer m col a.1 a.2 x
        | none => []))

/-! ## Norm and rotary (R82, R88, R94) -/

/-- The norm of one row in the activation format. -/
def normRow (s : State) (c : Ctx) (layer : Nat) (l : LayerDesc) (x : List Nat) : List Elem :=
  let gains := words4 (memBytes (weightCells s c layer) l.gain (4 * c.width)) 0 c.width
  let bad := x.any c.actFormat.nonfinite
  let ys := rmsNorm x gains c.actFormat c.eps
  ys.mapIdx (fun i y => let r := F32.toFmt c.actFormat y; { code := r.code, sat := r.sat, bad := bad && i == 0 })

/-- Which element pairs with element `i`, and which of the pair it is: pair index, partner, first or second. -/
def pairOf (c : Ctx) (i : Nat) : Option (Nat × Nat × Bool) :=
  if c.rotMode = 0 ∨ c.rotDims ≤ i then none
  else if c.rotMode = 1 then some (i / 2, if i % 2 = 0 then i + 1 else i - 1, i % 2 == 0)
  else
    let h := c.rotDims / 2
    if i < h then some (i, i + h, true) else some (i - h, i - h, false)

/-- Rotate one head of FP32 codes into a format. -/
def rotateHead (c : Ctx) (f : Fmt) (pos : Nat) (xs : List Nat) : List Elem :=
  (List.range c.headDim).map (fun i =>
    let x := xs.getD i 0
    match pairOf c i with
    | none => let r := F32.toFmt f x; { code := r.code, sat := r.sat }
    | some (p, j, first) =>
      let y := xs.getD j 0
      let r := if first then (rotatePair x y pos (c.freqs.getD p 0) f).1 else (rotatePair y x pos (c.freqs.getD p 0) f).2
      { code := r.code, sat := r.sat })

/-- Rotate all heads of a row. -/
def rotateRow (c : Ctx) (f : Fmt) (pos : Nat) (xs : List Nat) : List Elem :=
  ((chunks c.headDim xs).map (rotateHead c f pos)).flatten

/-! ## Attention (R77 to R81, R85, R90, R96) -/

/-- Visibility of a key at `k` to a query at `q` (R90). -/
def visible (l : LayerDesc) (lP q k : Nat) : Bool :=
  (decide (k ≤ q) || (l.mask == 1 && decide (k < lP) && decide (q < lP))) &&
  (l.window == 0 || decide (q < k + l.window))

/-- The empty state of one query head. -/
def FoldState.empty (hd : Nat) : FoldState := { num := List.replicate hd 0 }

/-- Elements of value row `v` that are not finite. -/
def badValues (f : Fmt) (v : List Nat) : List Nat := (List.range v.length).filter (fun i => f.nonfinite (v.getD i 0))

/-- What folding a source counts: saturated scores (R77), dot products that are not finite (R74). -/
abbrev FoldCount := Nat × Nat

/-- One source folded into the class N state of one query row and head. Keys are of one head: position, key codes, value
codes. A dot product that is not finite counts once, and makes every output of the head the canonical NaN (DESIGN CHOICE,
log 119). -/
def foldN (c : Ctx) (q : List Nat) (keys : List (Nat × List Nat × List Nat)) (st : FoldState) : FoldState × FoldCount :=
  let f := c.kvFormat
  let scored := keys.map (fun k =>
    match sumN ((q.map (plain c.qFormat)).zip (k.2.1.map (plain f))) with
    | none => (none, k.2.2)
    | some d => (some (score16 d (F32.val c.scale)), k.2.2))
  let sats := (scored.filter (fun x => (x.1.map (·.2)).getD false)).length
  let live : List LivePos := scored.filterMap (fun x => x.1.map (fun p =>
    { s16 := p.1, v := x.2.map (fun e => if f.nonfinite e then ⟨0, 0⟩ else f.value e) }))
  let p : Partial := { m := st.m, den := st.den, num := st.num, nan := st.nonfinite || scored.any (·.1.isNone) }
  let r := p.fold live
  ({ m := r.m, den := r.den, num := r.num, nonfinite := r.nan
     nan := distinct (st.nan ++ (keys.map (fun k => badValues f k.2.2)).flatten) },
   (sats, (scored.filter (fun x => x.1.isNone)).length))

/-- One source folded in class F. -/
def foldF (c : Ctx) (q : List Nat) (keys : List (Nat × List Nat × List Nat)) (st : FoldState) : FoldState :=
  let f := c.kvFormat
  let live := keys.map (fun k =>
    let d := ((q.map (plain c.qFormat)).zip (k.2.1.map (plain f))).foldl (fun acc p => F32.add acc (prodF p.1 p.2)) 0
    (F32.mul d c.scale, k.2.2.map (fun e => (plain f e).f32)))
  let p : PartialF := { m := st.m.map Int.toNat, den := st.den.toNat, num := st.num.map Int.toNat }
  let r := p.fold live
  { m := r.m.map Int.ofNat, den := r.den, num := r.num.map Int.ofNat }

/-- Fold a source into all states of a head group: query rows by position, each with its G heads. -/
def foldSource (n : Bool) (c : Ctx) (l : LayerDesc) (lP : Nat) (qs : List (Nat × List (List Nat)))
    (keys : List (Nat × List Nat × List Nat)) (sts : List FoldState) : List FoldState × FoldCount :=
  let jobs := (qs.map (fun q => q.2.map (fun h => (q.1, h)))).flatten
  let outs := (jobs.zip sts).map (fun j =>
    let live := keys.filter (fun k => visible l lP j.1.1 k.1)
    if n then foldN c j.1.2 live j.2 else (foldF c j.1.2 live j.2, (0, 0)))
  (outs.map (·.1), ((outs.map (·.2.1)).sum, (outs.map (·.2.2)).sum))

/-- Exact merge of two states (R96). -/
def FoldState.merge (a b : FoldState) : FoldState :=
  let r := Partial.merge { m := a.m, den := a.den, num := a.num, nan := a.nonfinite }
    { m := b.m, den := b.den, num := b.num, nan := b.nonfinite }
  { m := r.m, den := r.den, num := r.num, nonfinite := r.nan, nan := distinct (a.nan ++ b.nan) }

/-- The output row of one query head (R80, R85), and whether it was empty. An element whose own reduction met a value that
is not finite counts (R74); a dot product that is not finite was counted when it was folded (log 119). -/
def FoldState.output (n : Bool) (f : Fmt) (st : FoldState) : List Elem × Bool :=
  if n then
    let p : Partial := { m := st.m, den := st.den, num := st.num, nan := st.nonfinite }
    ((p.output f).mapIdx (fun i r =>
      if st.nan.contains i then { code := f.nan, bad := true } else { code := r.code, sat := r.sat }),
     st.m.isNone && !st.nonfinite)
  else
    let p : PartialF := { m := st.m.map Int.toNat, den := st.den.toNat, num := st.num.map Int.toNat }
    ((p.output f).map (fun r => { code := r.code, sat := r.sat }), st.m.isNone)

/-! ## Fold records (R106) -/

/-- Two's complement bytes. -/
def leInt (n : Nat) (v : Int) : List Byte := le n (v % 2 ^ (8 * n)).toNat

/-- Signed value of bytes. -/
def unleInt (bs : List Byte) : Int :=
  let v : Nat := unle bs
  if v < 2 ^ (8 * bs.length - 1) then (v : Int) else (v : Int) - 2 ^ (8 * bs.length)

/-- The number that stands in a class N record for one that is not finite. The layout has no place for NaN, and R74 and R81
ask that it be kept; no finite state reaches this number (DESIGN CHOICE, log 37). -/
def nanNumber : Int := -(2 ^ 143)

/-- One head of a FOLD_RECORD. -/
def FoldState.bytes (n : Bool) (st : FoldState) : List Byte :=
  let num := st.num.mapIdx (fun i x => if n && st.nan.contains i then nanNumber else x)
  if n then leInt 1 (st.m.getD 0) ++ le 1 (b2n st.m.isNone) ++ leInt 18 (if st.nonfinite then nanNumber else st.den) ++
    (num.map (leInt 18)).flatten
  else le 4 (st.m.getD 0).toNat ++ le 1 (b2n st.m.isNone) ++ zeros 3 ++ le 4 st.den.toNat ++
    (num.map (fun x => le 4 x.toNat)).flatten

/-- Bytes of one head in a FOLD_RECORD. -/
def foldHeadBytes (n : Bool) (hd : Nat) : Nat := if n then 20 + 18 * hd else 12 + 4 * hd

/-- Read one head of a FOLD_RECORD. -/
def readFoldState (n : Bool) (hd : Nat) (bs : List Byte) : FoldState :=
  if n then
    let den := unleInt ((bs.drop 2).take 18)
    let num := (List.range hd).map (fun i => unleInt ((bs.drop (20 + 18 * i)).take 18))
    { m := if fld bs 1 1 % 2 = 1 then none else some (unleInt (bs.take 1)), den := if den = nanNumber then 0 else den
      num := num.map (fun x => if x = nanNumber then 0 else x), nonfinite := den == nanNumber
      nan := (List.range hd).filter (fun i => num.getD i 0 == nanNumber) }
  else
    { m := if fld bs 4 1 % 2 = 1 then none else some (fld bs 0 4 : Int), den := fld bs 8 4
      num := (List.range hd).map (fun i => (fld bs (12 + 4 * i) 4 : Int)) }

/-- All heads of a FOLD_RECORD's payload. -/
def readFoldStates (n : Bool) (c : Ctx) (payload : List Byte) : List FoldState :=
  (List.range (c.gqa * c.nKv)).map (fun h =>
    readFoldState n c.headDim ((payload.drop (h * foldHeadBytes n c.headDim)).take (foldHeadBytes n c.headDim)))

end Sys2Proof.Machine
end

