-- ==== Sys2Proof/Machine/Build.lean ====
section
/-! DEFINITION. The build of a step at action 5: the tide table, the work list, placement on cores, shadows (R60, R61,
R95, R134, R158, R197, R339, R340). -/

namespace Sys2Proof.Machine

/-! ## What works in a step -/

/-- The entry has a decode row in the step (R100). -/
def Seq.decodes (e : Seq) : Bool := (e.state == .decode || e.state == .draining) && e.chunks.isEmpty

/-- Chunks of the entry that run in step `n`. -/
def Seq.chunksAt (e : Seq) (n : Nat) : List Chunk := e.chunks.filter (fun c => c.step == n)

/-- The entry has work in step `n` at a keeper or ring member. -/
def Seq.worksAt (e : Seq) (n : Nat) : Bool := e.decodes || !(e.chunksAt n).isEmpty

/-- Entries with work, by ascending handle. -/
def workingSeqs (s : State) (n : Nat) : List (Nat × Seq) :=
  sortBy (fun a b => decide (a.2.handle ≤ b.2.handle)) (s.sqs.seqs.filter (fun e => e.2.worksAt n))

/-- Contexts with work, ascending. -/
def workingContexts (s : State) (n : Nat) : List Nat :=
  sortBy (fun a b => decide (a ≤ b)) (distinct ((workingSeqs s n).map (fun e => e.2.context)))

/-- The worst-case loads of step `n`. -/
def stepLoads (s : State) (n : Nat) : List SeqLoad := (Tab.vals s.sqs.seqs).filterMap (seqLoadAt n)

/-! ## The tide table (R60, R61, R150; log 38) -/

/-- Engine cycles in ns. -/
def cyclesNs (x : Nat) : Nat := cdiv (x * 10) 36

/-- Slots of one context from cycle `t` on: layer, cutoff and close in cycles; and where the context ends. A slot opens at the
CLOSE of the one before it (DESIGN CHOICE, log 120: R61 fixes CUTOFF and CLOSE only). -/
def contextSlots (turn : Nat) : Nat → Nat → List Nat → List (Nat × Nat × Nat) × Nat
  | _, t, [] => ([], t + turn)
  | l, t, sp :: r =>
    let rest := contextSlots turn (l + 1) (t + turn + sp) r
    ((l, t + turn, t + turn + sp) :: rest.1, rest.2)

/-- Slots of all contexts, one context after another: context, layer, open, cutoff, close in cycles. -/
def stepSlots (s : State) (lds : List SeqLoad) : List (Nat × Nat) → Nat → List (Nat × Nat × Nat × Nat × Nat)
  | [], _ => []
  | (ci, turn) :: r, t =>
    let spans := (contextSpans s (coreCount s) true (loadContexts lds) lds ci).map (·.getD 0)
    let a := contextSlots turn 0 t spans
    let opens := t :: a.1.map (fun x => x.2.2)
    ((a.1.zip opens).map (fun x => (ci, x.1.1, x.2, x.1.2.1, x.1.2.2))) ++ stepSlots s lds r a.2

/-- The slots of step `n` in cycles from the boundary. -/
def slotsOf (s : State) (n : Nat) : List (Nat × Nat × Nat × Nat × Nat) :=
  stepSlots s (stepLoads s n)
    ((workingContexts s n).map (fun ci => (ci, ((ctxOf s ci).map (·.turnaround)).getD 0))) 720000

/-- An offset of the table: no entry lies beyond the step, also where cores were lost after the work was accepted (R61, R348;
DESIGN CHOICE, log 120). -/
def tideOffset (s : State) (cycles : Nat) : Nat := min (cyclesNs cycles) (periodNs s)

/-- The tide table of step `n`: each prefetch is issued at OPEN and due at CLOSE. -/
def tideTable (s : State) (n : Nat) : List TideEntry :=
  ((slotsOf s n).take 4096).mapIdx (fun i x =>
    { slot := i, context := x.1, layer := x.2.1, opens := tideOffset s x.2.2.1, cutoff := tideOffset s x.2.2.2.1
      close := tideOffset s x.2.2.2.2, pfIssue := tideOffset s x.2.2.1, pfDeadline := tideOffset s x.2.2.2.2 })

/-! ## Items of one slot -/

/-- The row of a sequence in a layer at a position. -/
def rowAt (s : State) (handle layer pos : Nat) : Option RowWork :=
  s.car.rows.find? (fun r => r.handle == handle && r.layer == layer && r.pos == pos)

/-- Rows of one layer that go through norm, projections and rotary: handle and position. -/
def slotTokens (s : State) (n ci l : Nat) : List (Nat × Nat) :=
  ((workingSeqs s n).map (fun e =>
    if e.2.context ≠ ci then []
    else if e.2.decodes then
      (if e.2.isMember || decide (l < e.2.layersRun) then [] else [(e.2.handle, e.2.position)])
    else ((e.2.chunksAt n).map (fun c =>
      if l < c.ran then [] else (List.range c.rows).map (fun i => (e.2.handle, c.first + i)))).flatten)).flatten

/-- Pinned adapter version of a handle. -/
def adapterOf (s : State) (handle : Nat) : Option (Nat × Adapter) :=
  (seqAt s (handle % 16384)).bind (fun e => (Tab.look e.adapter s.mdl.adapters).map (fun a => (e.adapter, a)))

/-- The sum of the ranks that the tokens of a batch bring to a matrix. -/
def batchRanks (s : State) (batch : List (Nat × Nat)) (m : Nat) : Nat :=
  (batch.map (fun r => match adapterOf s r.1 with
    | some a => if bitOf a.2.targets m then a.2.rank else 0
    | none => 0)).sum

/-- An item before placement. -/
def Item.of (n slot ci l : Nat) (kind : ItemKind) (cost : Nat) : Item :=
  { id := 0, step := n, slot := slot, context := ci, layer := l, kind := kind, cost := cost }

/-- Slices of the given matrices over the batches of a slot. -/
def sliceItems (s : State) (n slot ci l : Nat) (c : Ctx) (ld : LayerDesc) (ms : List Nat)
    (kind : Nat → Nat → ItemKind) (tokens : List (Nat × Nat)) : List Item :=
  ((chunks 64 tokens).map (fun b =>
    (ms.map (fun m =>
      (sliceCols c m).mapIdx (fun i cols =>
        { Item.of n slot ci l (kind m i) (costSlice (issueK s) c ld.wformat b.length m cols
            (adapterMacs c m (batchRanks s b m) i cols)) with
            handle := Config.none32, rows := b.length, batch := b }))).flatten)).flatten

/-- One source of an attention unit: kind, first position, cost. -/
abbrev Source := ItemKind × Nat × Nat

/-- Sources of a decode row at `pos` in layer `l`. -/
def decodeSources (s : State) (c : Ctx) (l : Nat) (e : Seq) (pos : Nat) : List Source :=
  let k := issueK s
  let size := pageTokens s
  let w := ((c.layers[l]?).map (·.window)).getD 0
  let pages := (e.layer l).list.filterMap (descAt s)
  let seen := pages.filter (fun d => d.state != .hopper && (w == 0 || decide (pos + 1 < d.firstPos + d.fill + w)))
  let sealed := seen.map (fun d =>
    if d.state == .sealed then ((.da : ItemKind), d.firstPos, costSealed k c 1 d.fill)
    else (.dh, d.firstPos, costRaw k c 1 d.fill))
  if e.isMember then sealed
  else
    let first := pos / size * size
    sealed ++ [(.dh, first, costRaw k c 1 (pos - first + 1))]

/-- Sources of a prefill chunk in layer `l`, by ascending position in class N and in visit order in class F: there the staged
blocks come after the pages held and the hopper and before the ring blocks, each as one page (DESIGN CHOICE, log 119). -/
def chunkSources (s : State) (n : Nat) (c : Ctx) (l : Nat) (e : Seq) (ch : Chunk) : List Source :=
  let k := issueK s
  let size := pageTokens s
  let ld := c.layers[l]?
  let w := (ld.map (·.window)).getD 0
  let low := if w = 0 then 0 else ch.first + 1 - w
  let pages := (e.layer l).list.filterMap (descAt s)
  let held := (pages.filter (fun d => decide (0 < d.fill) && decide (low < d.firstPos + d.fill))).map (fun d =>
    ((.pa : ItemKind), d.firstPos, if d.state == .sealed then costSealed k c ch.rows d.fill else costRaw k c ch.rows d.fill))
  let pfx := (ld.map (·.mask == 1)).getD false
  let staged := if ch.resume then [] else ((e.chunksAt n).filter (fun b =>
      (decide (b.first ≤ ch.first) && decide (low < b.first + b.rows)) ||
      (pfx && decide (b.first < e.lP) && decide (ch.first < e.lP)))).map (fun b =>
    ((.ps : ItemKind), b.first, costStaged k c ch.rows b.rows))
  let seg := c.ringSegment
  let block := fun p => ((.rb : ItemKind), p, costSealed k c ch.rows size)
  let up := (List.range (e.segFirst / size)).map (· * size)
  let inRing := fun (p : Nat) => decide (low < p + size)
  if e.segFirst = 0 then held ++ staged
  else if classN s then (up.filter inRing).map block ++ held ++ staged
  else held ++ staged ++
    ((((List.range (e.segFirst / seg)).reverse.map (fun j =>
      (up.filter (fun p => p / seg == j)).filter inRing)).flatten).map block)

/-- Where the run numbers of the fold records of ring members begin. -/
def memberRun : Nat := 1000000

/-- Attention items of one unit (a decode row or a chunk): for each head group its sources in runs, then the merges. -/
def unitItems (s : State) (n slot ci l : Nat) (c : Ctx) (e : Seq) (first rows : Nat) (src : List Source) (records : Nat) :
    List Item :=
  let cls := classN s
  ((List.range c.nKv).map (fun h =>
    let mk := fun (k : ItemKind) cost => { Item.of n slot ci l k cost with
      handle := e.handle, head := h, first := first, rows := rows }
    let its := src.mapIdx (fun i x => { mk x.1 x.2.2 with source := x.2.1, run := if cls then i / 32 else 0 })
    let runs := if cls then cdiv src.length 32 else 1
    its ++ (List.range (runs - 1)).map (fun r => { mk .fm (costMerge c rows) with merges := r + 1 }) ++
      (List.range records).map (fun m => { mk .fm (costMerge c rows) with merges := memberRun + m }))).flatten

/-- The rows of a unit that has attended already, in a step before a move of its layer (R24). -/
def unitAttended (s : State) (handle l first rows : Nat) : Bool :=
  (List.range rows).all (fun i => ((rowAt s handle l (first + i)).map (·.attended)).getD false)

/-- Rows of a slot for which a stage has still to run: after a move of a layer nothing runs twice (R24). -/
def stageRows (s : State) (l : Nat) (tokens : List (Nat × Nat)) (p : RowWork → Bool) : List (Nat × Nat) :=
  tokens.filter (fun t => ((rowAt s t.1 l t.2).map p).getD true)

/-- Attention items of one slot. -/
def attentionItems (s : State) (n slot ci l : Nat) (c : Ctx) : List Item :=
  ((workingSeqs s n).map (fun w =>
    let e := w.2
    if e.context ≠ ci then []
    else if e.decodes then
      if l < e.layersRun || (!e.isMember && unitAttended s e.handle l e.position 1) then []
      else
        unitItems s n slot ci l c e (if e.isMember then Config.none32 else e.position) 1
          (decodeSources s c l e (if e.isMember then e.segEnd else e.position))
          (if classN s && decide (1 < e.ringZ) && !e.isMember then e.ringZ - 1 else 0)
    else ((e.chunksAt n).map (fun ch =>
      if l < ch.ran || unitAttended s e.handle l ch.first ch.rows then [] else unitItems s n slot ci l c e ch.first ch.rows (chunkSources s n c l e ch) 0)).flatten)).flatten

/-- All items of a slot in the order of stages (R158). -/
def slotItems (s : State) (n slot ci l : Nat) : List Item :=
  match ctxOf s ci with
  | none => []
  | some c =>
    match c.layers[l]? with
    | none => []
    | some ld =>
      let tokens := slotTokens s n ci l
      let each := fun (k : ItemKind) cost (p : RowWork → Bool) => (stageRows s l tokens p).map (fun r =>
        { Item.of n slot ci l k cost with handle := r.1, first := r.2 })
      each .norm (costNorm c) (fun r => r.norm.isEmpty) ++
      sliceItems s n slot ci l c ld [0, 1, 2] .project (stageRows s l tokens (fun r => !r.rotated)) ++
      each .rotary (costRotary c) (fun r => !r.rotated) ++
      attentionItems s n slot ci l c ++
      sliceItems s n slot ci l c ld [3] (fun _ i => .output i) (stageRows s l tokens (fun r => !r.returned))

/-- Sampling items at a P or G module: one for each sequence it owns. -/
def sampleItems (s : State) (n : Nat) : List Item :=
  (sortBy (fun a b => decide (a.2.handle ≤ b.2.handle)) (s.sqs.seqs.filter (fun e => Tab.has e.1 s.sqs.owned))).map
    (fun e =>
      let c := ctxOf s e.2.context
      { Item.of n 0 e.2.context ((c.map (·.layers.length)).getD 0) .sample (costSample ((c.map (·.vocab)).getD 0)) with
          handle := e.2.handle, first := e.2.position })

/-! ## Placement (R158, R197) -/

/-- Cores on which items of a context may be placed. -/
def coresFor (s : State) (assigned : Tab (List Nat)) (ci : Nat) : List Nat :=
  (tableCores s).filter (fun k => (Tab.getD assigned (k / 8) []).contains ci)

/-- The core that is free first, not before `from_`; ties go to the lower name. -/
def earliestCore (fin : Tab Nat) (from_ : Nat) (cores : List Nat) : Option (Nat × Nat) :=
  cores.foldl (fun (b : Option (Nat × Nat)) k =>
    let t := max from_ (Tab.getD fin k 0)
    match b with
    | none => some (t, k)
    | some x => if t < x.1 then some (t, k) else some x) none

/-- What the run of an attention item is known by. -/
def Item.unit (i : Item) : Nat × Nat × Nat × Nat := (i.slot, i.handle, i.first, i.head)

/-- An item of a run: the AP kinds. -/
def Item.attends (i : Item) : Bool :=
  i.kind == .da || i.kind == .dh || i.kind == .pa || i.kind == .ps || i.kind == .rb

/-- Placement in progress: finishing times, the run placed last with its core, the core of run 0 of the unit, the items
placed. -/
structure Placing where
  fin : Tab Nat := []
  lastUnit : Nat × Nat × Nat × Nat := (0, 0, 0, 0)
  lastRun : Nat := 0
  lastCore : Option Nat := none
  baseCore : Option Nat := none
  placed : List Item := []
  deriving DecidableEq, Repr

/-- Place one item: a run stays on its core, merges go to the core of the unit's first run. -/
def placeItem (from_ : Nat) (cores : List Nat) (p : Placing) (i : Item) : Placing :=
  let same := p.lastUnit = i.unit
  let kept := if i.kind == .fm && same then p.baseCore
    else if i.attends && same && p.lastRun = i.run then p.lastCore else none
  let core := match kept with
    | some k => some (max from_ (Tab.getD p.fin k 0), k)
    | none => earliestCore p.fin from_ cores
  match core with
  | none => p
  | some (t, k) =>
    let att := i.attends
    { fin := Tab.put k (t + i.cost) p.fin
      lastUnit := if att then i.unit else p.lastUnit
      lastRun := if att then i.run else p.lastRun
      lastCore := if att then some k else p.lastCore
      baseCore := if att && (!same || p.baseCore.isNone) then some k else p.baseCore
      placed := { i with core := k } :: p.placed }

/-- Place the items of a slot. -/
def placeSlot (s : State) (assigned : Tab (List Nat)) (from_ ci : Nat) (items : List Item) (p : Placing) : Placing :=
  items.foldl (placeItem from_ (coresFor s assigned ci)) p

/-! ## Shadows (R339, R340) -/

/-- First logical core in service after a core within its cluster, in rotation. -/
def shadowCore (s : State) (core : Nat) : Option Nat :=
  let all := tableCores s
  ((List.range 7).map (fun i => core / 8 * 8 + (core % 8 + i + 1) % 8)).find? (fun k => all.contains k)

/-- Item `i` of step `n` is sampled on its core. -/
def isSampled (s : State) (n i core : Nat) : Bool :=
  crc32c (le 6 n ++ le 4 i) % (if coreSuspect s core then 64 else 4096) == 0

/-- The referees of step `n`, each at the head of its core's list (R342): core and cost. -/
def referees (s : State) (n : Nat) : List (Nat × Nat) :=
  (s.hlt.mismatches.filter (fun m => m.refStep == some n)).filterMap (fun m =>
    ((shadowCore s m.item.core).bind (shadowCore s)).map (fun k => (k, m.item.cost)))

/-- Place the shadows at the ends of their cores' lists, within what the step's referees leave of the recheck reserve (R340,
R342). -/
def placeShadows (s : State) (n : Nat) (p : Placing) : List Item × Nat :=
  let limit := s.stw.charter.stepPeriod * 3600
  let cores := coreCount s
  let reserve := recheckFor s cores (suspectCount s)
  let r := ((List.range p.placed.length).zip p.placed.reverse).foldl
    (fun (acc : Tab Nat × Nat × Nat × List Item) x =>
      let i := { x.2 with id := n * 2 ^ 22 + x.1 }
      if !isSampled s n x.1 i.core then (acc.1, acc.2.1, acc.2.2.1, i :: acc.2.2.2)
      else match shadowCore s i.core with
        | none => (acc.1, acc.2.1, acc.2.2.1 + 1, i :: acc.2.2.2)
        | some k =>
          let t := Tab.getD acc.1 k 0 + i.cost
          if t ≤ limit ∧ cdiv (acc.2.1 + i.cost) cores ≤ reserve then
            (Tab.put k t acc.1, acc.2.1 + i.cost, acc.2.2.1, { i with sampled := true, shadowed := false } :: acc.2.2.2)
          else (acc.1, acc.2.1, acc.2.2.1 + 1, i :: acc.2.2.2))
    ((referees s n).foldl (fun t x => Tab.put x.1 (Tab.getD t x.1 0 + x.2) t) p.fin, ((referees s n).map (·.2)).sum, 0, [])
  (r.2.2.2.reverse, r.2.2.1)

/-! ## The build -/

/-- The pages that an item reads: those of its layer's list that begin at its source. -/
def itemPages (s : State) (i : Item) : List Nat :=
  if i.kind == .da || i.kind == .dh || i.kind == .pa then
    match (slotOf s i.handle).bind (seqAt s) with
    | none => []
    | some e => (e.layer i.layer).list.filter (fun k => ((descAt s k).map (fun d => d.firstPos == i.source)).getD false)
  else []

/-- An item on a page that is not of its sequence's dike (R287). -/
def itemForeign (s : State) (i : Item) : Bool :=
  (itemPages s i).any (fun k => ((slotOf s i.handle).bind (seqAt s)).map (·.tenant) != (descAt s k).map (·.tenant))

/-- No item is placed on a page of another dike: it is left out, with DIKE_VIOLATION and a module-level fault (R287). -/
def placedOwn (items : List Item) (s : State) : List Item × State :=
  (items.filter (fun i => !itemForeign s i), if items.any (itemForeign s) then violate s else s)

/-- Read leases of a step (R134): every page that an item of its work list reads. -/
def leaseItems (n : Nat) (items : List Item) (s : State) : State :=
  (distinct (items.flatMap (itemPages s))).foldl (fun s k => leaseDesc k n s) s

/-- T of the step: the timeline, or at a P or G module the sampling over the cores (log 40). -/
def stepTimeline (s : State) (n : Nat) : Nat :=
  if roleC s then (timeline s true (stepLoads s n)).getD 0
  else cdiv ((sampleItems s n).map (·.cost)).sum (coreCount s)

/-- The build of step `n` (R158), at action 5 of the boundary that opens it: the tide table goes into the other bank, which
becomes the one in force, and the bank left holds the table of the step before (DESIGN CHOICE, log 120: R60 says that the table
is built during the step before, R144 that it is built at action 5). -/
def buildStep (n : Nat) (s : State) : State :=
  let slots := slotsOf s n
  let contexts := workingContexts s n
  let assigned := if roleC s then clusterAssignment contexts else (List.range 32).map (fun k => (k, []))
  let p : Placing := if roleC s then
      ((List.range slots.length).zip slots).foldl (fun p x =>
        placeSlot s assigned x.2.2.2.2.1 x.2.1 (slotItems s n x.1 x.2.1 x.2.2.1) p) {}
    else (sampleItems s n).foldl (placeItem 0 (tableCores s)) {}
  let sh := placeShadows s n p
  let table := if roleC s then tideTable s n else []
  let bank := 1 - s.tmu.bank
  let own := placedOwn sh.1 s
  let s := leaseItems n own.1 own.2
  let s := bump cShadowSkip sh.2 s
  { s with
    tmu := { s.tmu with bank := bank, bank0 := if bank = 0 then table else s.tmu.bank0
                        bank1 := if bank = 1 then table else s.tmu.bank1, opened := [] }
    sqs := { s.sqs with budget := budgetB s, commit := stepTimeline s n }
    mdl := { s.mdl with assigned := assigned, loads := [], delay := [], slackUsed := 0, spillUsed := 0 }
    car := { s.car with items := s.car.items.filter (fun i => i.done && !i.shadowed) ++ own.1 } }

/-- The table in force. -/
def tideNow (s : State) : List TideEntry := if s.tmu.bank = 0 then s.tmu.bank0 else s.tmu.bank1

/-- The slot of a layer of a context in the table in force. -/
def slotFor (s : State) (context layer : Nat) : Option TideEntry :=
  (tideNow s).find? (fun t => t.context == context && t.layer == layer)

end Sys2Proof.Machine
end

