-- ==== Sys2Proof/Machine/Sluice.lean ====
section
/-! DEFINITION. The sluice: ownership records at a keeper, the driving side at a P or G module, and the messages between
them (R165 to R186). -/

namespace Sys2Proof.Machine

/-! ## Arrival of module messages (R14, R143, R180, R330, R331, R333, R420) -/

/-- The map in force marks a node GONE (R180). -/
def goneNow (s : State) (n : Nat) : Bool :=
  (((mapNow s).bind (fun m => m.entry n)).map (fun e => e.status == 2)).getD false

/-- A module message is taken in: nothing before SERVICE, nothing from a GONE node (R180), in replay nothing from outside
the group but what a record brings (R333). -/
def takesFrom (s : State) (source : Nat) : Bool :=
  inService s && !goneNow s source && (s.stw.charter.replay == 0 || s.hlt.feeding || (groupNodes s).contains source)

/-- A message of a kind or role that this module does not take (R14). -/
def misdirect (port : Nat) (s : State) : State :=
  let r := portOf s port
  let n := sNext r.misdirected 1
  raise .roleMisdirected (sEvent r.misdirected n 2 (0x110 + 56) (setPort port { r with misdirected := n } s))

/-- The source sequence of the first message of a source counted in the step (R143). -/
def noteFirst (source sseq : Nat) (s : State) : State :=
  if Tab.has source s.sqs.firstSeq then s
  else { s with sqs := { s.sqs with firstSeq := Tab.put source sseq s.sqs.firstSeq } }

/-- A message is consumed when it is applied (R331; log 59): it counts in the digest of the step, and has its journal
record, MESSAGE from outside the group, INBOUND from a member at level FULL (R330). -/
def journalMsg (action tenant source sseq : Nat) (bytes : List Byte) (s : State) : State :=
  let s := { s with hlt := { s.hlt with digestIn := digestAdd s.hlt.digestIn source sseq bytes } }
  if (groupNodes s).contains source then
    (if s.stw.charter.journalLevel = 1 then journal 8 action tenant source sseq bytes s else s)
  else journal 4 action tenant source sseq bytes s

/-- The bytes of a REQUEST for digests and journal: its fields in their order (the spec gives no layout; log 51). -/
def requestBytes (r : Request) : List Byte :=
  le 1 0x24 ++ le 1 r.tenant ++ le 8 r.requestId ++ le 1 r.context ++ le 2 r.adapter ++ le 1 r.cls ++ le 1 (b2n r.publish) ++
  le 4 (r.parent.getD Config.none32) ++ le 2 r.lP ++ le 4 r.maxNew ++ le 6 r.deadline ++ le 4 r.sampling.temperature ++
  le 4 r.sampling.topP ++ le 4 r.sampling.topK ++ le 8 r.sampling.seed ++ le 4 r.tokens.length ++
  (r.tokens.map (le 4)).flatten

/-- The bytes of a CANCEL (kind 0x25) or PAUSE (kind 0x26) for digests and journal: tenant and request id (log 47). -/
def namedBytes (kind tenant requestId : Nat) : List Byte := le 1 kind ++ le 1 tenant ++ le 8 requestId

/-- The message that waits for a boundary; none for what comes from no message. -/
def Wait.message : Wait → Option (List Byte)
  | .release b _ => some b
  | .ingress r => some (requestBytes r)
  | .ask q => some (queryBytes q)
  | .join (.fork q) => some (queryBytes q)
  | .join (.segment _ b) => some b
  | _ => none

/-- The record of a message that a boundary applies (R330); a CANCEL or PAUSE has its tenant beside it. -/
def journalWait (p : Pend) (s : State) : State :=
  match p.wait with
  | .cancel r => journalMsg p.action p.tenant p.source p.sseq (namedBytes 0x25 p.tenant r) s
  | .pause r => journalMsg p.action p.tenant p.source p.sseq (namedBytes 0x26 p.tenant r) s
  | w => match w.message with
    | some b => journalMsg p.action p.tenant p.source p.sseq b s
    | none => s

/-- A message that names no source sequence is applied at once: it is not the first that R143 counts from. -/
def consumeUnnumbered (tenant source : Nat) (bytes : List Byte) (s : State) : State := journalMsg 0 tenant source 0 bytes s

/-- A message that is applied at once. -/
def consumeNow (tenant source sseq : Nat) (bytes : List Byte) (s : State) : State :=
  journalMsg 0 tenant source sseq bytes (noteFirst source sseq s)

/-! ## Sending (R168) -/

/-- Serial order of epochs: `a` is later than `b` (R167). -/
def epochLater (a b : Nat) : Bool :=
  let d := (a + 2 ^ 32 - b % 2 ^ 32) % 2 ^ 32
  decide (0 < d) && decide (d < 2 ^ 31)

/-- The next epoch. -/
def nextEpoch (e : Nat) : Nat := (e + 1) % 2 ^ 32

/-- A header from this module about an entry; SOURCE_SEQ is set when it is sent. -/
def sluHdr (s : State) (kind flags role handle epoch : Nat) (e : Seq) : Slu :=
  { kind := kind, flags := flags, tenant := e.tenant, role := role, seq := handle, epoch := epoch
    compEpoch := e.compEpoch, requestId := e.requestId, sseq := 0, sender := s.fab.node }

/-- Send a sluice message with a body. -/
def sendSlu (dest : Nat) (h : Slu) (body : List Byte) (s : State) : State :=
  let k := takeSseq s
  sendMsg dest h.tenant (.moduleMessage h.kind) k.1 ({ h with sseq := k.1 }.bytes ++ body) k.2

/-- Send a message that carries a state record, in as many segments as its history needs (R168). -/
def sendState (dest : Nat) (h : Slu) (mid : List Byte) (r : StateRec) (s : State) : State :=
  let segs := histSegments r.histFirst r.tokens
  ((List.range segs.length).zip segs).foldl (fun s g =>
    sendSlu dest { h with flags := h.flags + (if g.1 + 1 = segs.length then 4 else 0) }
      (mid ++ { r with histFirst := g.2.1, tokens := g.2.2 }.bytes) s) s

/-- REJECT(EPOCH_STALE) under the epoch that was refused (R177; log 41). -/
def sendReject (dest : Nat) (h : Slu) (s : State) : State :=
  sendSlu dest { h with kind := 0x37, flags := 0, role := s.stw.charter.role, sender := s.fab.node }
    (le 1 9 ++ le 1 h.kind ++ zeros 2 ++ le 4 h.sseq) s

/-- A message under another epoch is refused (R177). -/
def refuseStale (source : Nat) (h : Slu) (s : State) : State :=
  sendReject source h (raise .epochStaleRefused (bump cStale 1 s))

/-! ## Records at the keeper (R165, R166, R169) -/

/-- Set a record; SOURCE and OWN_EPOCH of the entry follow it (R165). -/
def setRec (slot : Nat) (r : OwnRec) (s : State) : State :=
  updSeq slot (fun e => { e with source := r.owner, ownEpoch := r.epoch })
    { s with slc := { s.slc with recs := Tab.put slot r s.slc.recs } }

/-- Change a record. -/
def updRec (slot : Nat) (f : OwnRec → OwnRec) (s : State) : State :=
  match recAt s slot with
  | none => s
  | some r => setRec slot (f r) s

/-- Token history of a slot at its keeper (R169). -/
def histOf (s : State) (slot : Nat) : List Nat := Tab.getD s.slc.hist slot []

/-- Set a token history. -/
def setHist (slot : Nat) (h : List Nat) (s : State) : State :=
  { s with slc := { s.slc with hist := Tab.put slot h s.slc.hist } }

/-- The state record that the keeper sends, with the history from a position onward (R168). -/
def keeperState (s : State) (slot from_ tailPos : Nat) (e : Seq) (r : OwnRec) : StateRec :=
  { position := e.position, tailPos := tailPos, generated := e.generated, maxNew := e.maxNew, nextStep := e.nextStep
    seed := e.sampling.seed, draws := r.draws, temperature := e.sampling.temperature, topP := e.sampling.topP
    topK := e.sampling.topK, endToken := e.endToken, histFirst := from_, tokens := (histOf s slot).drop from_ }

/-- Send a GRANT with its state record (R168, R170, R176, R178). -/
def sendGrant (slot dest cause epoch effective from_ : Nat) (s : State) : State :=
  match seqAt s slot, recAt s slot with
  | some e, some r =>
    sendState dest (sluHdr s 0x30 0 2 e.handle epoch e)
      (le 4 dest ++ le 1 cause ++ zeros 1 ++ le 6 effective ++ le 4 e.gateway)
      (keeperState s slot from_ (if cause = 1 then (histOf s slot).length - 1 else e.position - 1) e r) s
  | _, _ => s

/-- Send a RECALL (R179). -/
def sendRecall (slot dest epoch cause effective : Nat) (s : State) : State :=
  match seqAt s slot with
  | none => s
  | some e => sendSlu dest (sluHdr s 0x38 0 2 e.handle epoch e) (le 1 cause ++ zeros 1 ++ le 6 effective) s

/-- The owner and, where a grant to it has been sent, the next one are recalled. -/
def recallAll (slot cause effective : Nat) (s : State) : State :=
  match recAt s slot with
  | none => s
  | some r =>
    let s := if r.state == .orphaned || r.state == .rehoming then s else sendRecall slot r.owner r.epoch cause effective s
    if r.state == .passing && r.granted then sendRecall slot r.next (nextEpoch r.epoch) cause effective s else s

/-- A notice or token joins the batch being gathered (R162). -/
def addBatch (r : TailRec) (s : State) : State := { s with sqs := { s.sqs with batch := s.sqs.batch ++ [r] } }

/-- A notice about a sequence (R25, R162). -/
def addNotice (e : Seq) (kind cause refStep : Nat) (s : State) : State :=
  addBatch ⟨e.tenant, e.gateway, e.requestId, Config.none32, kind, 0, cause, refStep⟩ s

/-- A command or message waits for a boundary (R143). -/
def addWait (p : Pend) (s : State) : State := { s with sqs := { s.sqs with waiting := s.sqs.waiting ++ [p] } }

/-- A G module with a free place, by rendezvous hash (R170, R171). -/
def pickNext (s : State) (e : Seq) : Option Nat := (rendezvous (requestKey e.tenant e.requestId) (placesFree s)).head?

/-- A sequence enters ORPHANED (R176): the epoch rises, the notice of R25 goes into the batch. -/
def enterOrphan (slot : Nat) (s : State) : State :=
  match seqAt s slot, recAt s slot with
  | some e, some r =>
    let s := setRec slot { r with state := .orphaned, epoch := nextEpoch r.epoch, quiet := 0, acked := false
                                  next := Config.none32, granted := false, outgoing := none, policyDue := true } s
    let s := updSeq slot (fun e => { e with state := .orphaned }) s
    bump cOrphan 1 (raise .sequenceOrphaned (addNotice e 4 0 0 s))
  | _, _ => s

/-- Positions whose rows layer `l` holds. -/
def layerEnd (s : State) (e : Seq) (l : Nat) : Nat :=
  match ((e.layer l).list.getLast?).bind (descAt s) with
  | some d => d.firstPos + d.fill
  | none => 0

/-- Every layer holds position `pos`. -/
def holdsPos (s : State) (e : Seq) (pos : Nat) : Bool :=
  !e.layers.isEmpty && (List.range e.layers.length).all (fun l => decide (pos < layerEnd s e l))

/-- Who gets a tail, and its epoch: the next owner, once its grant has been sent. Until then the tail waits. -/
def OwnRec.tailTo (r : OwnRec) : Option (Nat × Nat) :=
  match r.state with
  | .passing => if r.granted && r.next != Config.none32 then some (r.next, nextEpoch r.epoch) else none
  | .offered => if r.outgoing.isSome then some (r.owner, r.epoch) else none
  | _ => none

/-- The tail is forwarded to the next owner once every layer holds TAIL_POS (R172). -/
def forwardTail (slot : Nat) (s : State) : State :=
  match seqAt s slot, recAt s slot with
  | some e, some r =>
    match r.tailMsg, r.tailTo with
    | some bytes, some to_ =>
      let st := readStateRec bytes 32
      if !holdsPos s e st.tailPos then s
      else
        sendState to_.1 (sluHdr s 0x32 1 2 e.handle to_.2 e) [] st (setRec slot { r with tail := true, tailMsg := none } s)
    | _, _ => s
  | _, _ => s

/-! ## Messages at the keeper -/

/-- Which epoch a message of a handoff tail may carry besides the current one (R167). -/
def tailEpochOk (r : OwnRec) (source epoch n : Nat) : Bool :=
  match r.outgoing with
  | some o => o.1 == source && o.2.1 == epoch && decide (n < o.2.2)
  | none => false

/-- A sluice message arrives: malformed, GONE, misdirected (R14, R168, R180), or acted on. RELEASE is applied at a
boundary and consumed there; a GRANT is taken in when it arrives, and names the boundary from which it acts. -/
def sluIn (kind : Nat) (mine : Bool) (act : Slu → State → State) (m : MsgIn) (s : State) : State :=
  if !takesFrom s m.source then s
  else
    match readSlu m.bytes with
    | none => raise .messageMalformed s
    | some h =>
      if h.kind ≠ kind then raise .messageMalformed s
      else if !mine then misdirect m.port s
      else act h (if kind == 0x33 then noteFirst m.source h.sseq s
        else consumeNow h.tenant m.source h.sseq m.bytes s)

/-- A message to a keeper: the handle is live and the epoch in force, or that of the tail where `tail` allows it; `act`
is told the slot and whether the epoch is the current one. -/
def toKeeper (kind : Nat) (tail : Bool) (act : Slu → Nat → OwnRec → Bool → State → State) (m : MsgIn) (s : State) : State :=
  sluIn kind (roleC s) (fun h s =>
    match slotOf s h.seq with
    | none => raise .handleStale s
    | some slot =>
      match recAt s slot with
      | none => raise .handleStale s
      | some r =>
        if h.epoch = r.epoch then act h slot r true (if m.source = r.owner then updRec slot (fun r => { r with heard := true }) s else s)
        else if tail && tailEpochOk r m.source h.epoch (stepNo s) then act h slot r false s
        else refuseStale m.source h s) m s

/-- A record reaches HELD; the first time under a handoff's new owner counts (R166, R187). -/
def reachHeld (slot : Nat) (r : OwnRec) (s : State) : State :=
  let s := updRec slot (fun r => { r with state := .held, acked := true, quiet := 0, arriving := false }) s
  if r.arriving then bump cHandoff 1 s else s

/-- GRANT_ACK at a keeper (R165, R166). -/
def onGrantAck (m : MsgIn) (s : State) : State :=
  toKeeper 0x31 false (fun _ slot r _ s =>
    match r.state with
    | .offered => reachHeld slot r s
    | .reissued => reachHeld slot r s
    | .passing => updRec slot (fun r => { r with acked := true }) s
    | _ => s) m s

/-- PULSE at a keeper (R175). -/
def onPulse (m : MsgIn) (s : State) : State := toKeeper 0x34 false (fun _ _ _ _ s => s) m s

/-- A TOKEN_NOTE is answered (R173). -/
def noteAckTo (dest position : Nat) (h : Slu) (s : State) : State :=
  sendSlu dest { h with kind := 0x36, flags := 0, role := 2, sender := s.fab.node } (le 4 position ++ zeros 4) s

/-- TOKEN_NOTE at a keeper (R173): the token at the history's end is appended and acknowledged; one already there is
acknowledged again. -/
def onTokenNote (m : MsgIn) (s : State) : State :=
  toKeeper 0x35 true (fun h slot _ _ s =>
    let pos := fld m.bytes 32 4
    let token := fld m.bytes 36 4
    let hist := histOf s slot
    if pos = hist.length then
      let s := setHist slot (hist ++ [token]) s
      let s := updRec slot (fun r => { r with draws := fld m.bytes 40 8 }) s
      let s := updSeq slot (fun e => { e with generated := e.generated + 1, nextStep := fld m.bytes 48 6 + 1 }) s
      noteAckTo m.source pos h s
    else if hist[pos]? = some token then noteAckTo m.source pos h s
    else s) m s

/-- A resume of this entry waits already. -/
def resumePending (s : State) (slot handle : Nat) : Bool :=
  s.sqs.waiting.any (fun p => p.wait == .join (.reprefill slot handle))

/-- A resume is tested as a join at the next boundary, once however often it is asked for (R157, R178, R184). -/
def resumeWait (slot : Nat) (e : Seq) (s : State) : State :=
  if resumePending s slot e.handle then s else addWait ⟨4, e.tenant, s.fab.node, 0, 0, .join (.reprefill slot e.handle)⟩ s

/-- History of an old owner arrives at a new keeper (R184); the last segment lets the resume start. -/
def takeHistory (slot : Nat) (h : Slu) (st : StateRec) (s : State) : State :=
  let hist := histOf s slot
  let s := if st.histFirst ≤ hist.length then
      let s := setHist slot (hist.take st.histFirst ++ st.tokens) s
      updRec slot (fun r => { r with draws := st.draws })
        (updSeq slot (fun e => { e with generated := st.generated }) s)
    else s
  if h.lastSegment then
    match seqAt s slot with
    | none => s
    | some e => resumeWait slot e s
  else s

/-- STATE_PUSH at a keeper (R171, R172, R184). -/
def keeperStatePush (m : MsgIn) (s : State) : State :=
  toKeeper 0x32 true (fun h slot r _ s =>
    let st := readStateRec m.bytes 32
    if r.state == .rehoming then takeHistory slot h st s
    else if h.tail then forwardTail slot (updRec slot (fun r => { r with tailMsg := some m.bytes }) s)
    else updRec slot (fun r => { r with draws := st.draws }) s) m s

/-- RELEASE from an owner (R171): it waits for the next boundary. -/
def keeperRelease (m : MsgIn) (s : State) : State :=
  toKeeper 0x33 true (fun h _ _ _ s =>
    addWait ⟨1, h.tenant, m.source, h.sseq, 0, .release m.bytes m.port⟩ s) m s

/-- The ring segment held for a keeper under its handle. -/
def memberOf (s : State) (keeper handle : Nat) : Option (Nat × Seq) :=
  s.sqs.seqs.find? (fun e => e.2.isMember && e.2.parent == handle && e.2.source == keeper)

/-- The keeper's release message at a ring member (R161): it carries a later epoch, which the segment takes, so that ring
messages under the old one are refused (R107), and the segment goes at the next boundary. -/
def memberRelease (m : MsgIn) (s : State) : State :=
  sluIn 0x33 (roleC s) (fun h s =>
    match memberOf s m.source h.seq with
    | none => raise .handleStale s
    | some (slot, e) =>
      if epochLater h.epoch e.ownEpoch then
        let s := updSeq slot (fun e => { e with ownEpoch := h.epoch }) s
        addWait ⟨1, h.tenant, m.source, h.sseq, 0, .release m.bytes m.port⟩ s
      else refuseStale m.source h s) m s

/-- RELEASE at a C module, as keeper or as ring member. -/
def onRelease (m : MsgIn) (s : State) : State :=
  match readSlu m.bytes with
  | some h => if (memberOf s m.source h.seq).isSome then memberRelease m s else keeperRelease m s
  | none => keeperRelease m s

/-! ## The driving side (R173 to R179, R183) -/

/-- Record of the driving side of a slot. -/
def ownedAt (s : State) (slot : Nat) : Option Owned := Tab.look slot s.sqs.owned

/-- Change a driving side. -/
def updOwned (slot : Nat) (f : Owned → Owned) (s : State) : State :=
  { s with sqs := { s.sqs with owned := Tab.upd slot f s.sqs.owned } }

/-- The slot that a keeper's handle drives here. -/
def ownedBy (s : State) (keeper handle : Nat) : Option Nat :=
  (s.sqs.owned.find? (fun o => o.2.keeper == keeper && o.2.keeperHandle == handle)).map (·.1)

/-- A header from the owner about its sequence. -/
def ownerHdr (s : State) (kind flags : Nat) (e : Seq) (o : Owned) : Slu :=
  sluHdr s kind flags s.stw.charter.role o.keeperHandle e.ownEpoch e

/-- Send from an owner to its keeper. A step counts as one in which it sent (R183) where the message is one that the
keeper answers: a TOKEN_NOTE, or hidden states (log 53). -/
def ownerSend (slot kind flags : Nat) (body : List Byte) (s : State) : State :=
  match seqAt s slot, ownedAt s slot with
  | some e, some o =>
    sendSlu o.keeper (ownerHdr s kind flags e o) body (updOwned slot (fun o => { o with sent := o.sent || kind == 0x35 }) s)
  | _, _ => s

/-- The state record of an owner, with given tokens. -/
def ownerState (e : Seq) (o : Owned) (tailPos first : Nat) (tokens : List Nat) : StateRec :=
  { position := e.position, tailPos := tailPos, generated := e.generated, maxNew := e.maxNew, nextStep := e.nextStep
    seed := e.sampling.seed, draws := o.draws, temperature := e.sampling.temperature, topP := e.sampling.topP
    topK := e.sampling.topK, endToken := e.endToken, histFirst := first, tokens := tokens }

/-- A message to an owner: it names a sequence this module drives (R140), under its epoch where `exact` asks it. -/
def toOwner (kind : Nat) (exact_ : Bool) (act : Slu → Nat → Owned → State → State) (m : MsgIn) (s : State) : State :=
  sluIn kind (!roleC s) (fun h s =>
    match ownedBy s m.source h.seq with
    | none => raise .handleStale s
    | some slot =>
      match ownedAt s slot, seqAt s slot with
      | some o, some e =>
        if exact_ && h.epoch != e.ownEpoch then s
        else act h slot o (updOwned slot (fun o => { o with answered := true }) s)
      | _, _ => raise .handleStale s) m s

/-- Where a GRANT of the same sequence waits for its boundary. -/
def Pend.grantOf (p : Pend) (keeper handle epoch : Nat) : Bool :=
  match p.wait with
  | .join (.handoff g k) => k == keeper && fld g 4 4 == handle && fld g 8 4 == epoch
  | _ => false

/-- Add a segment to a waiting grant: its flags and its token ids. -/
def Pend.addSegment (p : Pend) (bytes : List Byte) : Pend :=
  match p.wait with
  | .join (.handoff g k) => { p with wait := .join (.handoff (g.take 1 ++ (bytes.drop 1).take 1 ++ g.drop 2 ++ bytes.drop 112) k) }
  | _ => p

/-- A GRANT of a handoff or resume waits for its boundary (R157, R170, R178). -/
def keepGrant (m : MsgIn) (h : Slu) (s : State) : State :=
  if s.sqs.waiting.any (fun p => p.grantOf m.source h.seq h.epoch) then
    { s with sqs := { s.sqs with waiting := s.sqs.waiting.map (fun p =>
        if p.grantOf m.source h.seq h.epoch then p.addSegment m.bytes else p) } }
  else
    addWait ⟨4, h.tenant, m.source, h.sseq, stepFrom s (fld m.bytes 38 6), .join (.handoff m.bytes m.source)⟩ s

/-- The owner delivers an acknowledged token (R162, R173), unless it is muted (R179); an ending sequence's notice
comes after its last token. -/
def deliverToken (slot : Nat) (e : Seq) (o : Owned) (pos token promised : Nat) (s : State) : State :=
  let muted := (o.muteAfter.map (fun n => !stepOlder (stepNo s) n)).getD false
  if muted then s
  else
    let last := o.ending.filter (fun _ => pos + 1 == o.histFirst + o.tokens.length)
    let s := addBatch ⟨e.tenant, e.gateway, e.requestId, token, 0, 2 * b2n last.isSome, 0, promised⟩ s
    let s := updSeq slot (fun e => { e with nextStep := stepNo s + 1 }) s
    match last with
    | some cause => addNotice e 1 cause 0 s
    | none => s

/-- The awaited token of a position has been acknowledged: it is delivered, or during a hold kept until the hold ends
(R173, R183). -/
def ackToken (slot : Nat) (e : Seq) (o : Owned) (pos : Nat) (s : State) : State :=
  match o.awaiting.find? (fun a => a.1 == pos) with
  | none => s
  | some a =>
    if o.heldSince.isSome then updOwned slot (fun o => { o with ackedHeld := distinct (o.ackedHeld ++ [pos]) }) s
    else
      deliverToken slot e o pos a.2.1 a.2.2
        (updOwned slot (fun o => { o with awaiting := o.awaiting.filter (fun b => b.1 != pos) }) s)

/-- Tokens acknowledged during a hold are delivered when it ends (R183). -/
def deliverHeld (slot : Nat) (s : State) : State :=
  match ownedAt s slot, seqAt s slot with
  | some o, some e => o.ackedHeld.foldl (fun s p => ackToken slot e o p s) (updOwned slot (fun o => { o with ackedHeld := [] }) s)
  | _, _ => s

/-- GRANT(REISSUE) at the owner: it continues under the new epoch (R177), and a hold ends (R183). -/
def onReissue (m : MsgIn) (h : Slu) (s : State) : State :=
  match ownedBy s m.source h.seq with
  | none => raise .handleStale s
  | some slot =>
    let s := updSeq slot (fun e => { e with ownEpoch := h.epoch }) s
    let s := deliverHeld slot (updOwned slot (fun o => { o with heldSince := none, silent := 0, answered := true }) s)
    if h.lastSegment then ownerSend slot 0x31 0 [] s else s

/-- GRANT at a P or G module (R170, R176, R178). -/
def onGrant (m : MsgIn) (s : State) : State :=
  sluIn 0x30 (!roleC s) (fun h s => if fld m.bytes 36 1 = 2 then onReissue m h s else keepGrant m h s) m s

/-- An owner no longer held: what it says when it comes to know its next token (R172). -/
def takeTail (slot : Nat) (st : StateRec) (s : State) : State :=
  let s := updOwned slot (fun o =>
    let known := o.histFirst + o.tokens.length
    if o.tokens.isEmpty then { o with histFirst := st.histFirst, embedded := st.histFirst, tokens := st.tokens, draws := st.draws }
    else if st.histFirst = known then { o with tokens := o.tokens ++ st.tokens, draws := st.draws } else { o with draws := st.draws }) s
  updSeq slot (fun e => { e with generated := max e.generated st.generated, nextStep := st.nextStep }) s

/-- A tail that arrives before its grant's boundary waits with the grant: its counts, draws and token (R172). -/
def Pend.addTail (p : Pend) (bytes : List Byte) : Pend :=
  match p.wait with
  | .join (.handoff g k) =>
    { p with wait := .join (.handoff (g.take 56 ++ (bytes.drop 40).take 32 ++ g.drop 88 ++ bytes.drop 96) k) }
  | _ => p

/-- The acknowledgement of a token whose sequence has passed on (R172, R186). -/
def ackLeaving (keeper handle pos : Nat) (s : State) : State :=
  let hit := fun (l : Leaving) => l.keeper == keeper && l.handle == handle && l.pos == pos
  let s := (s.sqs.leaving.filter hit).foldl (fun s l => addBatch l.record s) s
  { s with sqs := { s.sqs with leaving := s.sqs.leaving.filter (fun l => !hit l) } }

/-- NOTE_ACK at the owner (R173): the token may enter a batch. -/
def onNoteAck (m : MsgIn) (s : State) : State :=
  sluIn 0x36 (!roleC s) (fun h s =>
    let pos := fld m.bytes 32 4
    match ownedBy s m.source h.seq with
    | none =>
      if s.sqs.leaving.any (fun l => l.keeper == m.source && l.handle == h.seq && l.pos == pos) then
        ackLeaving m.source h.seq pos s
      else raise .handleStale s
    | some slot =>
      match ownedAt s slot, seqAt s slot with
      | some o, some e =>
        ackToken slot e o pos (updOwned slot (fun o => { o with answered := true }) s)
      | _, _ => raise .handleStale s) m s

/-- A handle that a REJECT at a C module names: a sequence kept here, or a segment held for another keeper. -/
def knowsHandle (s : State) (handle : Nat) : Bool :=
  (slotOf s handle).isSome || s.sqs.seqs.any (fun e => e.2.isMember && e.2.parent == handle)

/-- REJECT (R177): an owner refused under its present epoch stops at once and releases at its next boundary. -/
def onReject (m : MsgIn) (s : State) : State :=
  if roleC s then sluIn 0x37 true (fun h s => if knowsHandle s h.seq then s else raise .handleStale s) m s
  else toOwner 0x37 true (fun _ slot o s =>
    if o.superseded then s
    else raise .ownerSuperseded (updOwned slot (fun o => { o with superseded := true, releaseAt := some (stepNo s + 1) }) s)) m s

/-- RECALL at the owner, or at a next owner whose grant still waits (R179). The mark a DRAIN leaves on a waiting grant
is bit 7 of its FLAGS. -/
def onRecall (m : MsgIn) (s : State) : State :=
  sluIn 0x38 (!roleC s) (fun h s =>
    let drain := fld m.bytes 32 1 = 2
    let eff := fld m.bytes 34 6
    match ownedBy s m.source h.seq with
    | some slot =>
      match seqAt s slot with
      | none => raise .handleStale s
      | some e =>
        if e.ownEpoch ≠ h.epoch then s
        else updOwned slot (fun o => if drain then { o with answered := true, muteAfter := some eff }
          else { o with answered := true, releaseAt := some (stepFrom s eff) }) s
    | none =>
      if !s.sqs.waiting.any (fun p => p.grantOf m.source h.seq h.epoch) then raise .handleStale s
      else if drain then
        { s with sqs := { s.sqs with waiting := s.sqs.waiting.map (fun p =>
            if p.grantOf m.source h.seq h.epoch then
              match p.wait with
              | .join (.handoff g k) =>
                { p with wait := .join (.handoff (g.take 1 ++ [BitVec.ofNat 8 (fld g 1 1 % 128 + 128)] ++ g.drop 2) k) }
              | _ => p
            else p) } }
      else { s with sqs := { s.sqs with waiting := s.sqs.waiting.filter (fun p => !p.grantOf m.source h.seq h.epoch) } }) m s

/-- HISTORY_QUERY at the old owner (R183): under a later epoch it is answered at once, and the entry is released at the
next boundary. -/
def onHistoryQuery (m : MsgIn) (s : State) : State :=
  sluIn 0x39 (!roleC s) (fun h s =>
    match findRequest s h.tenant h.requestId with
    | none => raise .handleStale s
    | some slot =>
      match seqAt s slot, ownedAt s slot with
      | some e, some o =>
        if !epochLater h.epoch e.ownEpoch then s
        else
          let first := max (fld m.bytes 32 4) o.histFirst
          let s := updOwned slot (fun o => { o with releaseAt := some (stepNo s + 1), superseded := true }) s
          sendState m.source { sluHdr s 0x32 0 s.stw.charter.role h.seq h.epoch e with compEpoch := h.compEpoch } []
            (ownerState e o (e.position - 1) first (o.tokens.drop (first - o.histFirst))) s
      | _, _ => raise .handleStale s) m s

/-! ## Timers -/

/-- REISSUE_ACK_TIMEOUT (R176): one step period without acknowledgement. -/
def execReissueAckTimeout (slot : Nat) (s : State) : Host.Outcome State Fault Refusal :=
  match recAt s slot with
  | some r =>
    if inService s && r.state == .reissued then .next (enterOrphan slot (setNow (r.sentAt + periodNs s) s)) else .next s
  | none => .next s

/-- REHOMING_TIMEOUT (R184): one step period without the old owner's history; the resume waits for the next boundary. -/
def execRehomingTimeout (slot : Nat) (s : State) : Host.Outcome State Fault Refusal :=
  match recAt s slot, seqAt s slot with
  | some r, some e =>
    if inService s && r.state == .rehoming then
      let s := setNow (r.sentAt + periodNs s) s
      .next (resumeWait slot e s)
    else .next s
  | _, _ => .next s

/-- REHOME_WAIT_EXPIRED (R183): a held sequence is released at the next boundary, without notice. -/
def execRehomeWaitExpired (slot : Nat) (s : State) : Host.Outcome State Fault Refusal :=
  match ownedAt s slot with
  | some o =>
    match o.heldSince with
    | some n =>
      if inService s && decide (n + s.stw.charter.rehomeWait ≤ stepNo s) then
        .next (updOwned slot (fun o => { o with releaseAt := some (stepNo s + 1), superseded := true }) s)
      else .next s
    | none => .next s
  | none => .next s

end Sys2Proof.Machine
end

