-- ==== Sys2Proof/Machine/Exchange.lean ====
section
/-! DEFINITION. The exchange area of a P or G module: records to and from the accelerators, and what the owner does with
tokens and outputs (R13, R24, R160, R172 to R174, R360, R361). -/

namespace Sys2Proof.Machine

/-! ## Channels (R360) -/

/-- Device physical address of channel `c`, and sizes of its rings. -/
def channelBase (c : Nat) : Nat := Config.hdmBase + 0x40000000 + c * 0x4000000
def outRingBase (c : Nat) : Nat := channelBase c + 0x100000
def inRingBase (c : Nat) : Nat := channelBase c + 0x2000000
def outRingSize : Nat := 31 * 0x100000
def inRingSize : Nat := 32 * 0x100000

/-- Record of a channel. -/
def channelOf (s : State) (c : Nat) : Channel := Tab.getD s.hif.channels c {}

/-- Set the record of a channel; its control page shows the four offsets. -/
def setChannel (c : Nat) (ch : Channel) (s : State) : State :=
  writeMem (channelBase c) (le 8 ch.outHead ++ le 8 ch.outTail ++ le 8 ch.inHead ++ le 8 ch.inTail)
    { s with hif := { s.hif with channels := Tab.put c ch s.hif.channels } }

/-- ENABLE of a channel, which the host writes into its control page. -/
def channelOn (s : State) (c : Nat) : Bool := ((readMem s (channelBase c + 32) 1).headD 0).getLsbD 0

/-- Bytes of a record may join the outbound ring: it is full with the head one unit behind the tail (R361). -/
def outRoom (ch : Channel) (n : Nat) : Bool :=
  decide (n + 64 ≤ outRingSize - (ch.outHead + outRingSize - ch.outTail % outRingSize) % outRingSize)

/-- Write bytes at an offset of a ring, wrapping at its size. -/
def wrapWrite (base size off : Nat) (bs : List Byte) (s : State) : State :=
  writeMem base (bs.drop (size - off)) (writeMem (base + off) (bs.take (size - off)) s)

/-- Read bytes at an offset of a ring, wrapping at its size. -/
def wrapRead (s : State) (base size off n : Nat) : List Byte :=
  readMem s (base + off) (min n (size - off)) ++ readMem s base (n - min n (size - off))

/-- Write one record, or let it wait for room. -/
def pushRecord (c : Nat) (r : List Byte) (s : State) : State :=
  let ch := channelOf s c
  if ch.waiting.isEmpty && channelOn s c && outRoom ch r.length then
    setChannel c { ch with outHead := (ch.outHead + r.length) % outRingSize } (wrapWrite (outRingBase c) outRingSize ch.outHead r s)
  else setChannel c { ch with waiting := ch.waiting ++ [r] } s

/-- Write the records that waited, in their order, as far as there is room. -/
def flushRecords (c : Nat) : Nat → State → State
  | 0, s => s
  | fuel + 1, s =>
    let ch := channelOf s c
    match ch.waiting with
    | [] => s
    | r :: t =>
      if channelOn s c && outRoom ch r.length then
        flushRecords c fuel (setChannel c { ch with outHead := (ch.outHead + r.length) % outRingSize, waiting := t }
          (wrapWrite (outRingBase c) outRingSize ch.outHead r s))
      else s

/-- The bytes of a record (R360): the header, and the payload padded to 64 bytes. -/
def exchangeRecord (kind format context layer step rows handle firstPos : Nat) (payload : List Byte) : List Byte :=
  fit 64 (le 1 kind ++ le 1 format ++ le 1 context ++ le 1 layer ++ le 6 step ++ le 2 rows ++ le 4 payload.length ++
    le 4 handle ++ le 4 firstPos) ++ padTo 64 payload

/-- Channels in use. -/
def channelsOn (s : State) : List Nat := (List.range 16).filter (channelOn s)

/-- Send a record to an accelerator; which channel is open (log 42). -/
def toAccelerator (r : List Byte) (s : State) : State :=
  let c := freeOf (channelsOn s) 0 s
  pushRecord c.1 r c.2

/-! ## The owner's rows -/

/-- The owner neither holds nor has lost its sequence. -/
def Owned.acts (o : Owned) : Bool := o.heldSince.isNone && !o.superseded

/-- Token ids at positions from `first` that are not yet sent for embedding go out, at most 512 to a record (R13, R172). -/
def embedNext (slot : Nat) (s : State) : State :=
  match seqAt s slot, ownedAt s slot with
  | some e, some o =>
    if !o.acts then s
    else
      let ids := o.tokens.drop (o.embedded - o.histFirst)
      let recs := (offsets 0 (chunks 512 (ids.map (fun _ => (0 : Byte))))).map (fun p =>
        exchangeRecord 3 3 e.context 0 (stepNo s) p.2.length e.handle (o.embedded + p.1)
          (((ids.drop p.1).take p.2.length).map (le 4)).flatten)
      updOwned slot (fun o => { o with embedded := o.embedded + ids.length }) (recs.foldl (fun s r => toAccelerator r s) s)
  | _, _ => s

/-- STATE_PUSH at a P or G module: the tail (R172), to the sequence it drives or to the grant that waits. -/
def ownerStatePush (m : MsgIn) (s : State) : State :=
  sluIn 0x32 true (fun h s =>
    match ownedBy s m.source h.seq with
    | some slot =>
      match seqAt s slot with
      | none => raise .handleStale s
      | some e => if e.ownEpoch ≠ h.epoch then s else embedNext slot (takeTail slot (readStateRec m.bytes 32) s)
    | none =>
      if s.sqs.waiting.any (fun p => p.grantOf m.source h.seq h.epoch) then
        { s with sqs := { s.sqs with waiting := s.sqs.waiting.map (fun p =>
            if p.grantOf m.source h.seq h.epoch then p.addTail m.bytes else p) } }
      else raise .handleStale s) m s

/-- STATE_PUSH (R171, R172, R184). -/
def onStatePush (m : MsgIn) (s : State) : State := if roleC s then keeperStatePush m s else ownerStatePush m s

/-- Rows of codes of an exchange payload. -/
def payloadRows (f : Fmt) (width rows : Nat) (bs : List Byte) : List (List Nat) :=
  (List.range rows).map (fun i => bytesCodes f ((bs.drop (i * width * f.size)).take (width * f.size)))

/-- The module that holds a position: a ring member in prefill, else the keeper (R102, R103). -/
def rowHolder (c : Ctx) (e : Seq) (o : Owned) (pos : Nat) : Nat :=
  if e.ringZ < 2 || c.ringSegment = 0 then o.keeper
  else (e.ringNodes[min (pos / c.ringSegment) (e.ringZ - 1)]?).getD o.keeper

/-- The hidden state of rows of one sequence goes to its keeper, packed and under the tenant's key (R24, R27). The spec
gives this message no header: its packed blocks are its bytes here (log 43). -/
def sendHidden (slot firstPos : Nat) (raw : List Byte) (s : State) : State :=
  match seqAt s slot, ownedAt s slot with
  | some e, some o =>
    match ctxOf s e.context with
    | none => s
    | some c =>
      let k := takeSseq s
      let bs := packActivation s e.context c (stepNo s) raw
      sendPieces (rowHolder c e o firstPos) e.tenant true .hidden k.1 (bs.map (fun b => b.h.bytes ++ b.payload))
        (countBlocks bs (updOwned slot (fun o => { o with sent := true }) k.2))
  | _, _ => s

/-- The logits of a sequence's last known position wait for its sampling item (R13, R83). -/
def keepLogits (slot firstPos : Nat) (rows : List (List Nat)) (s : State) : State :=
  match seqAt s slot, ownedAt s slot with
  | some e, some o =>
    let last := o.histFirst + o.tokens.length - 1
    if firstPos ≤ last ∧ last < firstPos + rows.length then
      let layer := ((ctxOf s e.context).map (·.layers.length)).getD 0
      let row : RowWork := { handle := e.handle, context := e.context, layer := layer, step := stepNo s, pos := last
                             epoch := e.ownEpoch, submitter := 0, prefill := false, x := rows.getD (last - firstPos) [] }
      { s with car := { s.car with rows := s.car.rows.filter (fun r => !(r.handle == e.handle && r.layer == layer)) ++ [row] } }
    else s
  | _, _ => s

/-- One inbound record with a good header (R361). -/
def takeRecord (bs payload : List Byte) (c : Ctx) (s : State) : State :=
  let rows := fld bs 10 2
  match slotOf s (fld bs 16 4) with
  | none => raise .handleStale s
  | some slot =>
    match ownedAt s slot with
    | none => raise .handleStale s
    | some o =>
      if !o.acts then s
      else if fld bs 0 1 = 1 then sendHidden slot (fld bs 20 4) payload s
      else keepLogits slot (fld bs 20 4) (payloadRows .fp32 c.vocab rows payload) s

/-- The header of an inbound record is in order and LENGTH agrees with ROWS and FORMAT (R361). -/
def inboundOk (s : State) (bs : List Byte) : Option Ctx :=
  let rows := fld bs 10 2
  match ctxOf s (fld bs 2 1) with
  | none => none
  | some c =>
    let act := if c.actFmt = 1 then 1 else 0
    let whole := decide (1 ≤ rows) && decide (rows ≤ 512) && zeroAt bs 24 40
    if whole && fld bs 0 1 == 1 && fld bs 1 1 == act && decide (fld bs 3 1 < c.layers.length) &&
       fld bs 12 4 == rows * c.width * c.actFormat.size then some c
    else if whole && fld bs 0 1 == 2 && fld bs 1 1 == 2 && fld bs 12 4 == rows * c.vocab * 4 then some c
    else none

/-- Consume inbound records from IN_TAIL to IN_HEAD. -/
def takeInbound (c : Nat) : Nat → State → State
  | 0, s => s
  | fuel + 1, s =>
    let ch := channelOf s c
    let there := (ch.inHead + inRingSize - ch.inTail) % inRingSize
    if there = 0 then s
    else
      let bs := wrapRead s (inRingBase c) inRingSize ch.inTail 64
      let len := min there (64 + cdiv (fld bs 12 4) 64 * 64)
      let payload := wrapRead s (inRingBase c) inRingSize ((ch.inTail + 64) % inRingSize) (min (fld bs 12 4) (len - 64))
      let s := setChannel c { ch with inTail := (ch.inTail + len) % inRingSize } s
      let s := match (if payload.length = fld bs 12 4 then inboundOk s bs else none) with
        | some x => takeRecord bs payload x s
        | none => raise .messageMalformed s
      takeInbound c fuel s

/-- IN_HEAD_WRITE (R361): the doorbell of a channel, at an instant of the step. -/
def execInHeadWrite (offsetNs channel head : Nat) (placed : Placed) (s : State) : Host.Outcome State Fault Refusal :=
  if inService s && !roleC s && decide (channel < 16) then
    let s := place placed (setNow (s.tmu.openedAt + offsetNs) s)
    let s := setChannel channel { channelOf s channel with inHead := head % inRingSize / 64 * 64 } s
    .next (if channelOn s channel then takeInbound channel (inRingSize / 64) s else s)
  else .next s

/-- OUT_TAIL_WRITE (R361): the accelerator has consumed records; those that waited go out. -/
def execOutTailWrite (channel tail : Nat) (s : State) : Host.Outcome State Fault Refusal :=
  if inService s && !roleC s && decide (channel < 16) then
    let s := setChannel channel { channelOf s channel with outTail := tail % outRingSize / 64 * 64 } s
    .next (flushRecords channel ((channelOf s channel).waiting.length) s)
  else .next s

/-! ## Outputs and tokens -/

/-- An output of the keeper for rows of one layer goes to the accelerators (R24, R87 stage 8). -/
def takeOutput (slot : Nat) (h : Hidden) (s : State) : State :=
  match seqAt s slot with
  | none => s
  | some e =>
    match ctxOf s e.context with
    | none => s
    | some c =>
      let raw := (h.rows.map (codesBytes c.actFormat)).flatten
      let s := toAccelerator (exchangeRecord 1 (if c.actFmt = 1 then 1 else 0) e.context h.layer h.step h.rows.length e.handle
        h.firstPos raw) s
      let s := updOwned slot (fun o => { o with answered := true, layer := h.layer }) s
      if h.layer + 1 = c.layers.length then
        updSeq slot (fun e => { e with position := max e.position (h.firstPos + h.rows.length) }) s
      else s

/-- ATTENTION_OUTPUT (R24, R87): an output reaches the module that submitted the hidden state. -/
def execAttentionOutput (h : Hidden) (s : State) : Host.Outcome State Fault Refusal :=
  if !takesFrom s h.source then .next s
  else if roleC s then .next (misdirect h.port s)
  else if h.damage ≠ 0 then .next (damageFound h.damage fromWire s)
  else
    match ownedBy s h.source h.handle with
    | none => .next (raise .handleStale s)
    | some slot =>
      match seqAt s slot with
      | none => .next (raise .handleStale s)
      | some e =>
        let bytes := ((ctxOf s e.context).map (fun c => (h.rows.map (codesBytes c.actFormat)).flatten)).getD []
        let s := consumeNow e.tenant h.source h.sseq bytes s
        .next (if e.ownEpoch = h.epoch then takeOutput slot h s else s)

/-- The handoff tail of a P module's last step (R172): STATE_PUSH with the token, then RELEASE. The next token is promised
for the step after (R23). -/
def sendTail (slot pos token : Nat) (s : State) : State :=
  match seqAt s slot, ownedAt s slot with
  | some e, some o =>
    let s := sendState o.keeper (ownerHdr s 0x32 1 e o) [] { ownerState e o (pos - 1) pos [token] with nextStep := stepNo s + 1 } s
    ownerSend slot 0x33 0 (le 6 (stepNo s) ++ zeros 2 ++ le 4 Config.none32 ++ le 4 e.position) s
  | _, _ => s

/-- The owner has sampled a token (R172 to R174, R324): its note goes to the keeper; a P module that goes on hands off.
EFFECTIVE_STEP is the step after the one the token was sampled in, since it moves with the plan (R170; log 116). -/
def ownerToken (slot token : Nat) (s : State) : State :=
  match seqAt s slot, ownedAt s slot with
  | some e, some o =>
    let pos := o.histFirst + o.tokens.length
    let n := stepNo s
    let ending := if token = e.endToken then some 1 else if e.generated + 1 = e.maxNew then some 2 else none
    let s := updSeq slot (fun e => { e with generated := e.generated + 1 }) s
    let s := updOwned slot (fun o => { o with
      draws := o.draws + 1, tokens := o.tokens ++ [token], awaiting := o.awaiting ++ [(pos, token, e.nextStep)], ending := ending }) s
    let s := ownerSend slot 0x35 0 (le 4 pos ++ le 4 token ++ le 8 (o.draws + 1) ++ le 6 n ++ zeros 2) s
    if roleP s && ending.isNone then
      updOwned slot (fun o => { o with releaseAt := some (n + 1) }) (sendTail slot pos token s)
    else s
  | _, _ => s

end Sys2Proof.Machine
end

