-- ==== Sys2Proof/Machine/Fragments.lean ====
section
/-! DEFINITION. Erasure coding of DURABLE pages: fragments at their keeper and at their holders, rebuilding, and what a
lost page means (R227, R246 to R251). -/

namespace Sys2Proof.Machine

/-! ## Holders (R249) -/

/-- Nodes that may hold fragments put under a keeper's node, in their order. -/
def fragNodes (s : State) (keeper index gen : Nat) : List Nat :=
  match mapNow s with
  | none => []
  | some m => rendezvous (le 4 keeper ++ le 4 index ++ le 2 gen) ((groupRole m s.fab.node 2).filter (· ≠ keeper))

/-- The node to which fragment `f` is offered at its `k`-th try: the f-th of the first ten, then those after it. -/
def fragTry (nodes : List Nat) (f k : Nat) : Option Nat :=
  if nodes.length ≤ k then none else nodes[(f % min 10 nodes.length + k) % nodes.length]?

/-- Coding of a descriptor. -/
def codingAt (s : State) (i : Nat) : Option Coding := Tab.look i s.cmp.coding

/-- Set the coding of a descriptor. -/
def setCoding (i : Nat) (c : Coding) (s : State) : State :=
  { s with cmp := { s.cmp with coding := Tab.put i c s.cmp.coding } }

/-- The header of a message about fragment `f`. -/
def Coding.header (c : Coding) (s : State) (kind f : Nat) (bytes : List Byte) : FragHdr :=
  { kind := kind, frag := f, tenant := c.tenant, status := 0, keeper := c.keeper, index := c.index
    generation := c.generation, tableId := c.tableId, imageLen := c.imageLen, fragLen := c.fragLen, step := stepNo s
    bytes := bytes }

/-- Send a fragment message: steward traffic of dike 0, on bandwidth that charged traffic leaves (R247, R250). -/
def sendFrag (dest i f : Nat) (h : FragHdr) (s : State) : State :=
  sendPieces dest 0 false (.fragment i f) 0 (chunks packetBytes h.whole) s

/-- Fragments are placed over fewer than ten modules: DURABLE_REDUCED, once per composition epoch (R249). -/
def noteReduced (c : Coding) (s : State) : State :=
  let few := decide ((fragNodes s c.keeper c.index c.generation).length < 10) && s.cmp.reducedFor != some (compEpoch s)
  let s := raiseIf few .durableReduced s
  if few then { s with cmp := { s.cmp with reducedFor := some (compEpoch s) } } else s

/-- Put fragment `f` of a page to its present candidate; with none left no PUT of it is open, and the page stays
unprotected. -/
def putFrag (i f : Nat) (s : State) : State :=
  match codingAt s i with
  | none => s
  | some c =>
    let s := noteReduced c s
    match fragTry (fragNodes s c.keeper c.index c.generation) f (Tab.getD c.next f 0) with
    | some d =>
      sendFrag d i f (c.header s 0x40 f (c.frags.getD f [])) (setCoding i { c with holders := c.holders.set f d } s)
    | none =>
      let c' := { c with unprotected := true, holders := c.holders.set f Config.none32 }
      if c.unprotected then setCoding i c' s
      else raise .durableUnprotected (decRef i (setCoding i c' s))

/-- Put several fragments. -/
def putFrags (i : Nat) (fs : List Nat) (s : State) : State := fs.foldl (fun s f => putFrag i f s) s

/-- Sequences whose lists hold a page. -/
def holdersOf (s : State) (i : Nat) : List (Nat × Seq) :=
  s.sqs.seqs.filter (fun e => e.2.layers.any (fun p => p.list.contains i))

/-- A page that cannot be recovered: every sequence that holds it resumes from its history (R178, R227), and the prefix
table lets it go. -/
def losePage (i : Nat) (s : State) : State :=
  let s := updDesc i (fun d => { d with damaged := true }) s
  let s := ((s.pgm.prefixes.filter (fun e => e.2.descs.contains i)).map (·.1)).foldl (fun s k => removePrefix k s) s
  (holdersOf s i).foldl (fun s e => resumeWait e.1 e.2 s) s

/-- Coding of a page begins (R247, R248): CMP holds the page and puts ten fragments. Its blocks leave memory only checked,
decrypted and with CHECK over plaintext (R245); a page whose CHECK fails is dealt with as damaged. The bytes read are charged to
its dike (R310). -/
def startCoding (i : Nat) (s : State) : State :=
  match descAt s i with
  | none => s
  | some d =>
    match d.plainBlocks s with
    | none => losePage i (blockDamaged .check (if d.tier == .cxl then fromTier2 else fromGddr) s)
    | some bs =>
      let image := pageImage bs
      let s := chargeTier d.tier d.tenant image.length s
      let frags := fragmentsOf (memoryKey s d.tenant) s.fab.node i d.generation image
      let s := setCoding i { keeper := s.fab.node, index := i, generation := d.generation, tenant := d.tenant, tableId := d.tableId
                             imageLen := image.length, fragLen := fragLen image, holders := List.replicate 10 Config.none32
                             acked := [], next := [], frags := frags, isProtected := false, unprotected := false
                             freeing := false, rebuild := none, rebuildAt := 0 } (incRef i s)
      putFrags i (List.range 10) s

/-- A page that is to be coded (R247). -/
def wantsCoding (s : State) (e : Nat × Desc) : Bool :=
  e.2.state == .sealed && e.2.durable && !e.2.object && !e.2.damaged &&
  (match codingAt s e.1 with
   | none => true
   | some c => c.generation != e.2.generation)

/-- Coding starts at a boundary for every page that wants it. -/
def startCodings (s : State) : State :=
  ((s.pgm.descs.filter (wantsCoding s)).map (·.1)).foldl (fun s i => startCoding i s) s

/-- FRAGMENT_FREE to holders. -/
def sendFrees (i : Nat) (c : Coding) (s : State) : State :=
  (c.acked.filter (· < 10)).foldl (fun s f => sendFrag (c.holders.getD f 0) i f (c.header s 0x44 f []) s) s

/-- Every PUT of a page has been acknowledged; a fragment that no module accepted has none open (R250). -/
def Coding.settled (c : Coding) : Bool :=
  (List.range 10).all (fun f => c.acked.contains f || c.holders.getD f Config.none32 == Config.none32)

/-- A page is reclaimed (R250): its fragments are freed once every PUT is acknowledged. -/
def freeFragments (i : Nat) (d : Desc) (s : State) : State :=
  match codingAt s i with
  | none => s
  | some c =>
    if c.generation ≠ d.generation then s
    else if c.settled then
      let s := { s with cmp := { s.cmp with coding := Tab.del i s.cmp.coding } }
      sendFrees i c s
    else setCoding i { c with freeing := true } s

/-- Pages whose ten fragments are acknowledged are protected from this boundary on (R247); then the fragments of a lost
keeper are freed (R251). -/
def protectPages (s : State) : State :=
  let ready := s.cmp.coding.filter (fun e => e.2.acked.length == 10 && !e.2.isProtected && !e.2.unprotected)
  ready.foldl (fun s e =>
    let s := decRef e.1 (setCoding e.1 { e.2 with isProtected := true } s)
    let old := s.cmp.oldRefs.filter (fun r => r.1 == e.1)
    let s := { s with cmp := { s.cmp with oldRefs := s.cmp.oldRefs.filter (fun r => r.1 != e.1) } }
    old.foldl (fun s r =>
      let c := { e.2 with keeper := r.2.1, index := r.2.2.1, generation := r.2.2.2.1 }
      ((List.range r.2.2.2.2.length).zip r.2.2.2.2).foldl (fun s h => sendFrag h.2 e.1 h.1 (c.header s 0x44 h.1 []) s) s) s) s

/-- Fragments whose holder became GONE are regenerated and placed anew (R249). -/
def replaceGone (s : State) : State :=
  s.cmp.coding.foldl (fun s e =>
    let lost := e.2.acked.filter (fun f => goneNow s (e.2.holders.getD f 0))
    if lost.isEmpty || e.2.keeper != s.fab.node then s
    else
      let s := if e.2.isProtected then incRef e.1 s else s
      let c := { e.2 with acked := e.2.acked.filter (fun f => !lost.contains f), isProtected := false
                          next := lost.foldl (fun t f => Tab.put f 0 t) e.2.next }
      putFrags e.1 lost (setCoding e.1 c s)) s

/-! ## Damaged pages (R227) -/

/-- FRAGMENT_GET goes to all holders at once (R251); a fragment held here counts as arrived. -/
def startRebuild (i : Nat) (c : Coding) (s : State) : State :=
  let s := setCoding i { c with rebuild := some [], rebuildAt := stepNo s } s
  ((List.range c.holders.length).zip c.holders).foldl (fun s h =>
    if h.2 = s.fab.node then
      match s.cmp.held.find? (fun x => x.keeper == c.keeper && x.index == c.index && x.generation == c.generation &&
          x.frag == h.1), codingAt s i with
      | some x, some c =>
        chargeTier .cxl c.tenant x.bytes.length (setCoding i { c with rebuild := c.rebuild.map (Tab.put h.1 x.bytes) } s)
      | _, _ => s
    else if h.2 = Config.none32 then s
    else sendFrag h.2 i h.1 (c.header s 0x42 h.1 []) s) s

/-- A sealed page met damage (R227, R246): rebuilt where it is protected, else lost. -/
def damagePage (i : Nat) (s : State) : State :=
  match descAt s i with
  | none => s
  | some d =>
    if d.damaged then s
    else
      match codingAt s i with
      | some c =>
        if d.durable && c.isProtected && c.generation == d.generation then
          startRebuild i c (updDesc i (fun d => { d with damaged := true }) s)
        else losePage i s
      | none => losePage i s

/-! ## Rebuilding (R248, R251; log 44) -/

/-- The eight encrypted data fragments from any eight of the ten. -/
def decodeData (len : Nat) (got : Tab (List Byte)) : List (List Byte) :=
  let d := fun i => Tab.look i got
  let lost := (List.range 8).filter (fun i => (d i).isNone)
  let known := (List.range 8).filter (fun i => (d i).isSome)
  let p := known.foldl (fun acc i => xorBytes acc ((d i).getD [])) ((Tab.look 8 got).getD (zeros len))
  let q := known.foldl (fun acc i => xorBytes acc (((d i).getD []).map (gfShift i))) ((Tab.look 9 got).getD (zeros len))
  let g := fun i => gfShift i (1 : Byte)
  let fix := match lost with
    | [i] => if (Tab.look 8 got).isSome then [(i, p)] else [(i, q.map (gfMul (gfInv (g i))))]
    | [i, j] =>
      let dj := (xorBytes q (p.map (gfMul (g i)))).map (gfMul (gfInv (g i ^^^ g j)))
      [(i, xorBytes p dj), (j, dj)]
    | _ => []
  (List.range 8).map (fun i => ((d i).getD ((Tab.look i fix).getD (zeros len))))

/-- The blocks of an image of `n` blocks. -/
def imageBlocks (n : Nat) (image : List Byte) : List RawBlock :=
  ((List.range n).foldl (fun (acc : Nat × List RawBlock) i =>
    let hb := (image.drop (16 * i)).take 16
    (acc.1 + cdiv (headerLen hb) 64 * 64, acc.2 ++ [(hb, (image.drop acc.1).take (headerLen hb))]))
    (16 * n, [])).2

/-- The plaintext image from any eight fragments: the eight lowest that arrived (R248, R251). -/
def rebuiltImage (key : Nat) (c : Coding) (got : Tab (List Byte)) : List Byte :=
  let ds := decodeData c.fragLen (got.take 8)
  (((List.range 8).map (fun i => unxts key (fragTweak c.keeper c.index c.generation i) (ds.getD i []))).flatten).take c.imageLen

/-- The blocks of a page from its fragments, or the first CHECK that fails (R251). -/
def rebuiltBlocks (s : State) (d : Desc) (c : Coding) (got : Tab (List Byte)) : Option (List RawBlock) :=
  let n := ((ctxOf s d.context).map (fun x => x.rawBytes (pageTokens s) / 4096)).getD 0
  let bs := imageBlocks n (rebuiltImage (memoryKey s c.tenant) c got)
  if bs.all RawBlock.checkOk then some bs else none

/-- A rebuilt page is stored under new addresses by R244 (R251); the bytes written are charged to its dike (R310). -/
def storeRebuilt (i : Nat) (d : Desc) (c : Coding) (bs : List RawBlock) (s : State) : State :=
  let x := takeExtents (kvTier s) (extentsFor (bs.map (fun b => b.2.length))) [] s
  let m := if d.homeMap.isSome then (d.homeMap, x.2) else takeMap (kvTier s) d.mapClass [] x.2
  updDesc i (fun d => { d with damaged := false, blocks := lockAll (memoryKey s c.tenant) x.1 bs, homeExt := x.1, homeMap := m.1
                               tableId := c.tableId }) (chargeTier (kvTier s) c.tenant c.imageLen m.2)

/-- A page is rebuilt once eight fragments have arrived intact. -/
def tryRebuild (i : Nat) (s : State) : State :=
  match codingAt s i, descAt s i with
  | some c, some d =>
    match c.rebuild with
    | none => s
    | some got =>
      if got.length < 8 then s
      else
        match rebuiltBlocks s d c got with
        | none => blockDamaged .check fromFragment s
        | some bs =>
          let own := c.keeper = s.fab.node ∧ c.index = i
          let s := if own then setCoding i { c with rebuild := none } s
            else { s with cmp := { s.cmp with
              coding := Tab.del i s.cmp.coding
              oldRefs := s.cmp.oldRefs ++ [(i, c.keeper, c.index, c.generation, c.holders)] } }
          bump cRebuild 1 (storeRebuilt i d c bs s)
  | _, _ => s

/-! ## Messages (R250) -/

/-- A fragment message arrives: only C modules take part. -/
def fragIn (kind : Nat) (act : FragHdr → State → State) (m : MsgIn) (s : State) : State :=
  if !takesFrom s m.source then s
  else
    match readFrag kind m.bytes with
    | none => raise .messageMalformed s
    | some h => if !roleC s then misdirect m.port s else act h (consumeUnnumbered h.tenant m.source m.bytes s)

/-- The fragment a message names. -/
def HeldFrag.is (x : HeldFrag) (h : FragHdr) : Bool :=
  x.keeper == h.keeper && x.index == h.index && x.generation == h.generation && x.frag == h.frag

/-- An answer of a holder. -/
def fragAnswer (dest kind status : Nat) (h : FragHdr) (bytes : List Byte) (s : State) : State :=
  sendFrag dest h.index h.frag { h with kind := kind, status := status, step := stepNo s, bytes := bytes } s

/-- FRAGMENT_PUT at a holder: stored in tier 2 while the pool has room, on the page's dike (R250, R310). -/
def onFragmentPut (m : MsgIn) (s : State) : State :=
  fragIn 0x40 (fun h s =>
    let rest := s.cmp.held.filter (fun x => !x.is h)
    let used := (rest.map (fun x => x.bytes.length)).sum
    if s.stw.charter.fragPool * gib < used + h.bytes.length then fragAnswer m.source 0x41 1 h [] (raise .fragmentFull s)
    else
      let x : HeldFrag := { keeper := h.keeper, index := h.index, generation := h.generation, frag := h.frag
                            tenant := h.tenant, tableId := h.tableId, imageLen := h.imageLen, bytes := h.bytes
                            crc := crc32c h.bytes }
      fragAnswer m.source 0x41 0 h [] (chargeTier .cxl h.tenant h.bytes.length
        { s with cmp := { s.cmp with held := rest ++ [x] } })) m s

/-- The descriptor whose fragments a message is about. -/
def codingOf (s : State) (h : FragHdr) : Option (Nat × Coding) :=
  s.cmp.coding.find? (fun e => e.2.keeper == h.keeper && e.2.index == h.index && e.2.generation == h.generation)

/-- FRAGMENT_ACK at the keeper. -/
def onFragmentAck (m : MsgIn) (s : State) : State :=
  fragIn 0x41 (fun h s =>
    match codingOf s h with
    | none => s
    | some (i, c) =>
      if c.holders[h.frag]? ≠ some m.source ∨ c.acked.contains h.frag then s
      else if h.status = 0 then
        let c := { c with acked := c.acked ++ [h.frag] }
        if c.freeing && c.settled then
          sendFrees i c { s with cmp := { s.cmp with coding := Tab.del i s.cmp.coding } }
        else setCoding i c s
      else if h.status = 1 then
        putFrag i h.frag (setCoding i { c with next := Tab.put h.frag (Tab.getD c.next h.frag 0 + 1) c.next } s)
      else s) m s

/-- FRAGMENT_GET at a holder: read from tier 2 on the page's dike (R310); a fragment found damaged is reported lost. -/
def onFragmentGet (m : MsgIn) (s : State) : State :=
  fragIn 0x42 (fun h s =>
    match s.cmp.held.find? (fun x => x.is h) with
    | none => fragAnswer m.source 0x43 2 { h with fragLen := 0 } [] s
    | some x =>
      let s := chargeTier .cxl h.tenant x.bytes.length s
      if crc32c x.bytes = x.crc then
        fragAnswer m.source 0x43 0 { h with imageLen := x.imageLen, tableId := x.tableId, fragLen := x.bytes.length } x.bytes s
      else fragAnswer x.keeper 0x45 0 h []
        (blockDamaged .check fromFragment (fragAnswer m.source 0x43 2 { h with fragLen := 0 } [] s))) m s

/-- FRAGMENT_DATA at the keeper that rebuilds. -/
def onFragmentData (m : MsgIn) (s : State) : State :=
  fragIn 0x43 (fun h s =>
    match codingOf s h with
    | none => s
    | some (i, c) =>
      if h.status ≠ 0 then s
      else
        let c := if c.keeper = s.fab.node then c
          else { c with imageLen := h.imageLen, fragLen := h.fragLen, tableId := h.tableId }
        match c.rebuild with
        | none => s
        | some got => tryRebuild i (setCoding i { c with rebuild := some (Tab.put h.frag h.bytes got) } s)) m s

/-- FRAGMENT_FREE at a holder. -/
def onFragmentFree (m : MsgIn) (s : State) : State :=
  fragIn 0x44 (fun h s => { s with cmp := { s.cmp with held := s.cmp.held.filter (fun x => !x.is h) } }) m s

/-- FRAGMENT_LOST at the keeper: the fragment is placed anew. -/
def onFragmentLost (m : MsgIn) (s : State) : State :=
  fragIn 0x45 (fun h s =>
    match codingOf s h with
    | none => s
    | some (i, c) =>
      if !c.acked.contains h.frag || c.holders[h.frag]? != some m.source then s
      else
        let s := if c.isProtected then incRef i s else s
        putFrag i h.frag (setCoding i { c with acked := c.acked.filter (· ≠ h.frag), isProtected := false
                                               next := Tab.put h.frag 0 c.next } s)) m s

/-- FRAGMENT_PUT_TIMEOUT (R250): a PUT without its answer within 2 steps is sent again. -/
def execFragmentPutTimeout (desc frag : Nat) (s : State) : Host.Outcome State Fault Refusal :=
  match codingAt s desc with
  | none => .next s
  | some c =>
    .next (if inService s && decide (frag < 10) && !c.acked.contains frag && c.holders.getD frag Config.none32 != Config.none32 &&
        c.keeper == s.fab.node then
      putFrag desc frag s else s)

/-- REBUILD_TIMEOUT (R251): fewer than 8 intact fragments within 2 steps; the page is lost. -/
def execRebuildTimeout (desc : Nat) (s : State) : Host.Outcome State Fault Refusal :=
  match codingAt s desc with
  | none => .next s
  | some c =>
    .next (if inService s && c.rebuild.isSome then
      losePage desc (raise .rebuildFailed (setCoding desc { c with rebuild := none } s)) else s)

end Sys2Proof.Machine
end

