-- ==== Sys2Proof/Machine/Tiers.lean ====
section
/-! DEFINITION. Movement between memory tiers and errors of memory (R213, R215 to R219, R226, R227). -/

namespace Sys2Proof.Machine

/-! ## Copies (R217) -/

/-- A page or object that may get a copy in GDDR7: its home is TIER_ANY in the CXL tier (R211). -/
def mayCopy (d : Desc) : Bool :=
  d.alloc == 2 && d.tier == .cxl && d.copy.isNone && !d.damaged && !d.freeing &&
  (d.state == .sealed || (d.object && d.state == .hopper))

/-- A copy in GDDR7 begins, with extents and a map of its own (R215). -/
def startCopy (i : Nat) (d : Desc) (s : State) : State :=
  let x := takeExtents .gddr d.extents [] s
  let m := takeMap .gddr d.mapClass [] x.2
  updDesc i (fun d => { d with copy := some [], promoting := true, copyExt := x.1, copyMap := m.1 }) m.2

/-- Promotions start while more than 65,536 extents are free, most recently leased first. -/
def startPromotions (s : State) : State :=
  let l := sortBy (fun a b => decide (b.2.lastRead < a.2.lastRead) || (a.2.lastRead == b.2.lastRead && decide (a.1 ≤ b.1)))
    (s.pgm.descs.filter (fun e => mayCopy e.2))
  l.foldl (fun s e =>
    if 65536 < freeGddr s then startCopy e.1 e.2 s else s) s

/-- Lines of tier 2 in flight (R222): at most 7,168, and 1,024 more of spillway streams. How many a transfer has in flight at
once is open (a free value, log 110); TIR_T2_PEAK keeps the largest number. -/
def noteLines (lines most : Nat) (s : State) : State :=
  let r := freeBelow (min lines most) s
  if lines = 0 then s else { r.2 with tir := { r.2.tir with peak := max r.2.tir.peak (r.1 + 1) } }

/-- The form of a sealed page that its copy holds: checked, decrypted at home, encrypted under the copy's addresses (R215,
R220); none where a block of the home fails its check. -/
def copiedBlocks (s : State) (d : Desc) : Option (List (List Byte)) :=
  if d.object then some [] else (d.plainBlocks s).map (lockAll (memoryKey s d.tenant) d.copyExt)

/-- PROMOTION_COMPLETE: the transfer of a copy has completed; it is VALID from the next boundary (R217). A page whose home fails a
check is not moved, and is dealt with as damaged (R220). -/
def execPromotionComplete (desc : Nat) (s : State) : Host.Outcome State Fault Refusal :=
  match descAt s desc with
  | none => .next s
  | some d =>
    .next (if inService s && d.promoting && d.copy != some (List.range d.extents) then
      let s := noteLines (cdiv d.size 256) 7168 (charge d.tenant 3 d.size (charge d.tenant 4 d.size s))
      match copiedBlocks s d with
      | none => damagePage desc (blockDamaged .check fromTier2 (clearCopy desc s))
      | some bs => updDesc desc (fun d => { d with copy := some (List.range d.extents), copyBlocks := bs }) s
    else s)

/-- The transfer of a promotion is complete. -/
def Desc.transferred (d : Desc) : Bool := d.promoting && d.copy == some (List.range d.extents)

/-- Copies whose transfer is complete become VALID at a boundary (R215, R217). -/
def validateCopies (s : State) : State :=
  let n := ((Tab.vals s.pgm.descs).filter Desc.transferred).length
  bump cPromote n { s with pgm := { s.pgm with descs := s.pgm.descs.map (fun e =>
    (e.1, if e.2.transferred then { e.2 with promoting := false, copyBytes := [] } else e.2)) } }

/-- Unpinned copies, least recently leased first. -/
def demotable (s : State) : List Nat :=
  (sortBy (fun a b => decide (a.2.lastRead < b.2.lastRead) || (a.2.lastRead == b.2.lastRead && decide (a.1 ≤ b.1)))
    (s.pgm.descs.filter (fun e => e.2.copyValid && !e.2.pin && !e.2.demoting && e.2.state != .released))).map (·.1)

/-- Extents that demotions under way will free. -/
def demotingExtents (s : State) : Nat :=
  (((Tab.vals s.pgm.descs).filter (·.demoting)).map (·.extents)).sum

/-- A copy is written back before it goes; TIR holds the page meanwhile (R117). -/
def startDemotion (i : Nat) (d : Desc) (s : State) : State :=
  if d.demoting then s else incRef i (updDesc i (fun d => { d with demoting := true, writing := d.dirty }) s)

/-- Demotion of one copy: a clean one that no lease covers goes at once, another is written back first. -/
def demote (i : Nat) (s : State) : State :=
  match descAt s i with
  | none => s
  | some d =>
    if d.dirty.isEmpty && !covered s d then dropCopy i s
    else startDemotion i d s

/-- Demotion at a boundary (R217): below 32,768 free extents, until 65,536 are free. -/
def startDemotions (s : State) : State :=
  if 32768 ≤ freeGddr s then s
  else (demotable s).foldl (fun s i => if freeGddr s + demotingExtents s < 65536 then demote i s else s) s

/-- A copy that is to go: one that PIN keeps is made anew instead (R211). -/
def letCopyGo (i : Nat) (d : Desc) (s : State) : State :=
  if d.pin then
    let s' := updDesc i (fun d => { d with copy := some [], promoting := true, demoting := false, copyBytes := [], writing := []
                                           copyBad := false }) s
    if d.demoting then decRef i s' else s'
  else dropCopy i s

/-- Copies in which an error fell lose VALID at the boundary (R215, R227): clean ones at once, others once written back. -/
def dropBad (s : State) : State :=
  ((s.pgm.descs.filter (fun e => e.2.copyBad)).map (·.1)).foldl (fun s i =>
    match descAt s i with
    | none => s
    | some d =>
      if !d.dirty.isEmpty then startDemotion i d s else if d.pin then letCopyGo i d s else clearCopy i s) s

/-- Copies under demotion whose DIRTY is zero are dropped; the others go on being written back (R217, R219). -/
def finishDemotions (s : State) : State :=
  ((s.pgm.descs.filter (fun e => e.2.demoting)).map (·.1)).foldl (fun s i =>
    match descAt s i with
    | none => s
    | some d =>
      if d.dirty.isEmpty && !covered s d then letCopyGo i d s
      else updDesc i (fun d => { d with writing := distinct (d.writing ++ d.dirty) }) s) s

/-- WRITEBACK_EXTENT (R218): the extent is read, its DIRTY bit cleared, and the home written. -/
def execWritebackExtent (desc extent : Nat) (s : State) : Host.Outcome State Fault Refusal :=
  match descAt s desc with
  | none => .next s
  | some d =>
    .next (if inService s && d.writing.contains extent then
      let lo := extent * Config.extentBytes
      let hi := lo + Config.extentBytes
      let moved := d.copyBytes.filter (fun b => decide (lo ≤ b.1) && decide (b.1 < hi))
      noteLines 256 7168 <| bump cWriteback 1 (charge d.tenant 3 Config.extentBytes (charge d.tenant 4 Config.extentBytes
        (updDesc desc (fun d => { d with
          bytes := moved.foldl (fun t b => Tab.put b.1 b.2 t) d.bytes,
          dirty := d.dirty.filter (· ≠ extent), writing := d.writing.filter (· ≠ extent) }) s)))
    else s)

/-- Write-back of a tenant's objects at its checkpoint (R218): a DURABLE one in full, another where it is DIRTY; one
still incomplete from the checkpoint before raises WRITEBACK_LATE. -/
def checkpointObjects (tenant : Nat) (s : State) : State :=
  ((s.pgm.descs.filter (fun e => e.2.object && e.2.tenant == tenant && e.2.copyValid)).map (·.1)).foldl (fun s i =>
    match descAt s i with
    | none => s
    | some d =>
      let s := raiseIf (!d.writing.isEmpty) .writebackLate s
      updDesc i (fun d => { d with writing := distinct (d.writing ++ (if d.durable then List.range d.extents else d.dirty)) }) s) s

/-! ## Errors (R227) -/

/-- Pieces whose copy in the weight cache failed: they are fetched from the tier-2 master (R194, R227). -/
def refetchPieces (context : Nat) (keys : List Nat) (s : State) : State :=
  let again := fun (c : Ctx) =>
    if c.cells.isSome || keys.any (fun k => decide (65536 ≤ k)) then
      { c with refetching := c.refetching.filter (fun k => !keys.contains k) ++ keys }
    else c
  { s with mdl := { s.mdl with ctxs := Tab.upd context again s.mdl.ctxs } }

/-- Weights that must be fetched again. -/
def refetch (context layer : Nat) (s : State) : State :=
  let again := fun (l : Load) => if l == .staged then .issued else l
  refetchPieces context [layer] { s with mdl := { s.mdl with loads := Tab.upd (context * 256 + layer) again s.mdl.loads } }

/-- An adapter version whose copy failed is fetched from the master, layer by layer. -/
def refetchAdapter (v : Nat) (s : State) : State :=
  match Tab.look v s.mdl.adapters with
  | none => s
  | some a =>
    refetchPieces a.context ((List.range (((ctxOf s a.context).map (·.layers.length)).getD 0)).map (adapterPiece v)) s

/-- An object can no longer be relied on. -/
def damageObject (i : Nat) (s : State) : State :=
  match descAt s i with
  | none => s
  | some d => if d.object then raise .objectDamaged (updDesc i (fun d => { d with damaged := true }) s) else s

/-- An error of a page's own form: a copy serves it where there is one. -/
def pageError (i : Nat) (s : State) : State :=
  match descAt s i with
  | none => s
  | some d =>
    if d.object then damageObject i s
    else if d.state == .sealed then
      if d.readsCopy && d.tier == .cxl && !d.durable then updDesc i (fun d => { d with damaged := true }) s else damagePage i s
    else losePage i s

/-- One copy of a token history: repaired from the other at the boundary, unless that fails as well. -/
def historyError (slot copy : Nat) (s : State) : State :=
  if Tab.has slot s.slc.hist && decide (copy < 2) && !s.slc.histBad.contains (slot, copy) then
    { s with slc := { s.slc with histBad := s.slc.histBad ++ [(slot, copy)] } }
  else s

/-- An error in a clean extent of a copy (R227): reads are served from the home at once, and VALID goes at the boundary, where a copy
all clean is dropped and one with DIRTY extents elsewhere is written back first, so that no placement is lost. -/
def cleanError (i : Nat) (s : State) : State :=
  updDesc i (fun d => if d.copy.isSome then { d with copyBad := true } else d) s

/-- The outcome of an uncorrectable error by where it falls (R227). -/
def ueOutcome (w : UeWhere) (s : State) : State :=
  match w with
  | .systemArea => addFault faultSystem s
  | .weightCache c l => refetch c l s
  | .adapter v => refetchAdapter v s
  | .cleanCopy i => cleanError i s
  | .page i => pageError i s
  | .history slot copy => historyError slot copy s
  | .objectExtent i e =>
    match descAt s i with
    | none => s
    | some d => if d.copyValid && !d.dirty.contains e then cleanError i s else damageObject i s
  | .sealWrite i =>
    match descAt s i with
    | none => s
    | some d =>
      if d.state == .sealing then { s with tir := { s.tir with sealRetry := distinct (s.tir.sealRetry ++ [i]) } } else s

/-- An uncorrectable error (R227). -/
def uncorrectable (w : UeWhere) (s : State) : State := ueOutcome w (raise .uncorrectable (bump cUe 1 s))

/-- GDDR7_UNCORRECTABLE. -/
def execGddr7Uncorrectable (w : UeWhere) (s : State) : Host.Outcome State Fault Refusal :=
  .next (if inService s then uncorrectable w s else s)

/-- GDDR7_CORRECTED (R226). -/
def execGddr7Corrected (s : State) : Host.Outcome State Fault Refusal :=
  .next (if inService s then raise .corrected (bump cCe 1 s) else s)

/-- Segment `i` after a line failed, or was read at the second try. -/
def segmentLine (i : Nat) (failed : Bool) (s : State) : State :=
  match s.tir.segments[i]? with
  | none => s
  | some g =>
    let n := if failed then g.failures + 1 else 0
    let dead := decide (16 ≤ n)
    let s := raiseIf dead .tierSegmentFailed s
    let g := { g with failures := n, state := if dead then .failed else g.state }
    { s with tir := { s.tir with segments := s.tir.segments.set i g } }

/-- Homes that lie in extents which can no longer be reached (R227). -/
def strandedHomes (s : State) : List Nat :=
  (s.pgm.descs.filter (fun e => e.2.tier == .cxl && !e.2.damaged && (e.2.object || e.2.state == .sealed) &&
    e.2.homeExt.any (fun x => !reachable s x))).map (·.1)

/-- What a FAILED segment means for the homes in it: each is dealt with as an uncorrectable error of its kind (R227). -/
def strandHomes (s : State) : State :=
  (strandedHomes s).foldl (fun s i => match descAt s i with
    | none => s
    | some d => if d.object && !d.dirty.isEmpty && d.copyValid then s else pageError i s) s

/-- T2_LINE_TIMEOUT (R227): a line outstanding for 100 µs, or failed, is retried once; a second failure is
uncorrectable, and the sixteenth in a row fails the segment. -/
def execT2LineTimeout (segment : Nat) (failedAgain : Bool) (w : UeWhere) (s : State) : Host.Outcome State Fault Refusal :=
  match s.tir.segments[segment]? with
  | none => .next s
  | some g =>
    if inService s && g.state == .active then
      let s := raise .t2Retry (bump cRetry 1 s)
      .next (if failedAgain then strandHomes (uncorrectable w (segmentLine segment true s)) else segmentLine segment false s)
    else .next s

/-- What the tiers do at a boundary: seals retried, copies made VALID, dropped or begun, the devices recalibrated
(R215, R217, R226, R227). -/
def tierBoundary (s : State) : State :=
  let sec := s.tmu.now / 1000000000
  let s := if s.tir.recalAt < sec then
      { s with tir := { s.tir with recalAt := sec, recals := s.tir.recals + 1 } } else s
  startPromotions (startDemotions (finishDemotions (dropBad (validateCopies s))))

end Sys2Proof.Machine
end

