-- ==== Sys2Proof/Machine/Work.lean ====
section
/-! DEFINITION. The execution of a step at the compute array: when an item can start, what its completion gives, the
residency of context images, ring messages, hidden states (R24, R87, R95 to R107, R120, R196, R198, R310). -/

namespace Sys2Proof.Machine

/-! ## Rows -/

/-- Change a row. -/
def updRow (handle layer pos : Nat) (f : RowWork → RowWork) (s : State) : State :=
  { s with car := { s.car with rows := s.car.rows.map (fun r =>
      if r.handle = handle ∧ r.layer = layer ∧ r.pos = pos then f r else r) } }

/-- The probe of a ring member: its row is neither appended nor prefill. -/
def probeAt (s : State) (handle layer : Nat) : Option RowWork :=
  s.car.rows.find? (fun r => r.handle == handle && r.layer == layer && r.noAppend && !r.prefill)

/-- Positions of an item's query rows. -/
def Item.positions (i : Item) : List Nat := (List.range i.rows).map (i.first + ·)

/-- The query rows of an attention item: the probe at a ring member, else the rows at its positions. -/
def queryRows (s : State) (i : Item) : List (Option RowWork) :=
  if i.first = Config.none32 then [probeAt s i.handle i.layer] else i.positions.map (rowAt s i.handle i.layer)

/-- Entry of an item. -/
def itemSeq (s : State) (i : Item) : Option Seq := (slotOf s i.handle).bind (seqAt s)

/-- Layer descriptor of an item. -/
def itemLayer (s : State) (i : Item) : Option (Ctx × LayerDesc) :=
  (ctxOf s i.context).bind (fun c => (c.layers[i.layer]?).map (fun l => (c, l)))

/-- All slices of a matrix are there. -/
def slicesDone (c : Ctx) (m : Nat) (t : Tab (List Nat)) : Bool := t.length == (sliceCols c m).length

/-- The slices in order. -/
def joinSlices (t : Tab (List Nat)) : List Nat := (Tab.vals t).flatten

/-! ## Ring messages held -/

/-- A ring message held and still of use: kind, layer, and what else is asked of it. -/
def ringMsgAt (s : State) (handle kind layer : Nat) (p : RingMsg → Bool) : Option RingMsg :=
  s.car.ringMsgs.find? (fun r => r.handle == handle && r.kind == kind && r.layer == layer && !r.spent && p r)

/-- A ring sequence in class F goes round by fold records (R106). -/
def ringF (s : State) (e : Seq) : Bool := !classN s && decide (1 < e.ringZ)

/-! ## Readiness (R87, R91, R95, R97 to R99, R103 to R106) -/

/-- The weights of a layer can be fed (R195, R199). -/
def weightsIn (s : State) (context layer : Nat) : Bool :=
  match Tab.look (context * 256 + layer) s.mdl.loads with
  | some .staged => true
  | some .spillway => true
  | _ => false

/-- All of these rows are there and satisfy a test. -/
def allRows (rs : List (Option RowWork)) (p : RowWork → Bool) : Bool := rs.all (fun r => (r.map p).getD false)

/-- Chunks of a sequence in the step. -/
def chunkRows (s : State) (e : Seq) (layer : Nat) (p : Chunk → Bool) : List (Option RowWork) :=
  ((e.chunksAt (stepNo s)).filter p).flatMap (fun c => (List.range c.rows).map (fun i => rowAt s e.handle layer (c.first + i)))

/-- The prefix group of a chunk is staged whole (R91). -/
def groupStaged (s : State) (e : Seq) (l : LayerDesc) (i : Item) : Bool :=
  if l.mask = 1 ∧ i.first < e.lP then allRows (chunkRows s e i.layer (fun c => decide (c.first < e.lP))) (·.rotated)
  else true

/-- Earlier items of the same run have completed. In class N ring blocks are folded as they complete: such an item waits for
none, and none waits for it (R81, R104). -/
def runEarlier (s : State) (i : Item) : Bool :=
  let free_ := fun (j : Item) => classN s && j.kind == .rb
  free_ i || s.car.items.all (fun j => j.step != i.step || j.unit != i.unit || j.run != i.run || !j.attends || decide (i.id ≤ j.id) ||
    j.done || free_ j)

/-- All attention items of a run have completed. -/
def runDone (s : State) (i : Item) (run : Nat) : Bool :=
  s.car.items.all (fun j => j.step != i.step || j.unit != i.unit || !j.attends || j.run != run || j.done)

/-- A token of a batch can run: a projection of its norm, or of its attention outputs. -/
def tokenReady (k : ItemKind) (r : RowWork) : Bool :=
  match k with
  | .output _ => r.attended
  | _ => !r.norm.isEmpty

/-- The tokens of a batch that can run. Tokens overlap freely (R87): one whose hidden state is missing does not hold up the
others, and runs when it comes (R24). -/
def readyBatch (s : State) (i : Item) : List (Nat × Nat) :=
  i.batch.filter (fun b => ((rowAt s b.1 i.layer b.2).map (tokenReady i.kind)).getD false)

/-- What an item reads is there. -/
def inputReady (s : State) (i : Item) : Bool :=
  match itemLayer s i with
  | none => false
  | some (c, l) =>
    let now := stepNo s
    let qs := queryRows s i
    match i.kind with
    | .norm => allRows qs (fun r => decide (r.step ≤ now))
    | .project _ _ => weightsIn s i.context i.layer && !(readyBatch s i).isEmpty
    | .rotary => allRows qs (fun r => slicesDone c 0 r.q && slicesDone c 1 r.k && slicesDone c 2 r.v)
    | .output _ => weightsIn s i.context i.layer && !(readyBatch s i).isEmpty
    | .sample => false
    | kind =>
      match itemSeq s i with
      | none => false
      | some e =>
        let start := !(e.isMember && ringF s e) || (ringMsgAt s i.handle 3 i.layer (fun _ => true)).isSome
        let decode := allRows qs (fun r => r.placed && decide (r.step ≤ now)) && start && runEarlier s i
        let prefill := allRows qs (fun r => r.rotated && decide (r.step ≤ now)) && groupStaged s e l i && runEarlier s i
        match kind with
        | .da => decode
        | .dh => decode
        | .pa => prefill
        | .ps => prefill && allRows (chunkRows s e i.layer (fun b => b.first == i.source)) (·.rotated)
        | .rb => prefill && (ringMsgAt s i.handle 1 i.layer (fun r => r.firstPos == i.source)).isSome
        | _ => runDone s i 0 &&
            (if memberRun ≤ i.merges then (ringMsgAt s i.handle 3 i.layer (fun r => r.member == i.merges - memberRun)).isSome
             else runDone s i i.merges)

/-- The slot of an item has opened. -/
def slotOpened (s : State) (i : Item) : Bool := s.tmu.opened.contains i.slot

/-- An item could start if its context were resident. -/
def startable (s : State) (i : Item) : Bool := !i.done && slotOpened s i && inputReady s i

/-- The context of an item is resident in its cluster (R196). -/
def residentFor (s : State) (i : Item) : Bool := (Tab.getD s.mdl.resident (i.core / 8) []).contains i.context

/-- An item can run now; a sampling item of a P or G module needs no slot and no image. -/
def itemReady (s : State) (i : Item) : Bool :=
  !i.done && (if i.kind == .sample then s.car.rows.any (fun r => r.handle == i.handle && r.layer == i.layer)
    else slotOpened s i && residentFor s i && inputReady s i)

/-! ## Residency (R196 to R198) -/

/-- A context has an item in a cluster that could start. -/
def runnable (s : State) (k context : Nat) : Bool :=
  s.car.items.any (fun i => i.core / 8 == k && i.context == context && startable s i)

/-- The rows an item reads. -/
def itemRows (s : State) (i : Item) : List (Option RowWork) :=
  if i.batch.isEmpty then queryRows s i else i.batch.map (fun b => rowAt s b.1 i.layer b.2)

/-- An item awaits a hidden state, the weights of its layer, or a ring message, itself or through the items before it (R198);
otherwise what it awaits is another item. -/
def awaitsData (s : State) (i : Item) : Bool :=
  (itemRows s i).any (·.isNone) || !weightsIn s i.context i.layer ||
  (match i.kind with
   | .rb => (ringMsgAt s i.handle 1 i.layer (fun r => r.firstPos == i.source)).isNone
   | .fm => decide (memberRun ≤ i.merges) && (ringMsgAt s i.handle 3 i.layer (fun r => r.member == i.merges - memberRun)).isNone
   | _ => false)

/-- A context is blocked in a cluster: none of its items there can start, because each awaits data (R198). -/
def blocked (s : State) (k context : Nat) : Bool :=
  s.car.items.all (fun i => i.core / 8 != k || i.context != context || i.done || (!startable s i && awaitsData s i))

/-- When the data that a blocked context awaits is due (R198), in ns from the boundary. -/
def dueOf (s : State) (k context : Nat) : Nat :=
  let d := Tab.getD s.mdl.delay context 0
  let last := periodNs s
  match s.car.items.find? (fun i => i.core / 8 == k && i.context == context && !i.done) with
  | none => last + 1
  | some i =>
    let t := slotFor s context i.layer
    if (itemRows s i).any (·.isNone) then ((t.map (·.cutoff)).getD last) + d
    else if !weightsIn s context i.layer then ((slotFor s context (i.layer - 1)).map (·.pfDeadline)).getD 0
    else last

/-- The blocked context a cluster evicts: due latest, ties to the higher number. -/
def victimOf (s : State) (k : Nat) (resident : List Nat) : Option Nat :=
  (resident.foldl (fun (b : Option (Nat × Nat)) c =>
    let d := dueOf s k c
    match b with
    | none => some (d, c)
    | some x => if x.1 < d ∨ (x.1 = d ∧ x.2 < c) then some (d, c) else b) none).map (·.2)

/-- Start of a swap in one cluster: into a free image slot for an assigned context, a runnable one first; with all
slots taken, where R198 calls for it. Which of several contexts is open. -/
def swapCluster (k : Nat) (s : State) : State :=
  let resident := Tab.getD s.mdl.resident k []
  let absent := (Tab.getD s.mdl.assigned k []).filter (fun c => !resident.contains c)
  let wanted := absent.filter (runnable s k)
  let room := decide (resident.length < 4)
  let chosen := if wanted.isEmpty && room then absent else wanted
  if Tab.has k s.mdl.swapping || chosen.isEmpty || !room && !resident.all (blocked s k) then s
  else
    let c := freeOf chosen 0 s
    let left := if room then resident
      else match victimOf s k resident with
        | none => resident
        | some v => resident.filter (· ≠ v)
    let s := c.2
    { s with mdl := { s.mdl with swapping := Tab.put k c.1 s.mdl.swapping, resident := Tab.put k left s.mdl.resident } }

/-- Swaps begin in every cluster that needs one. -/
def swapCheck (s : State) : State := (List.range 32).foldl (fun s k => swapCluster k s) s

/-- IMAGE_SWAP_COMPLETE (R196, R198). The bytes of the image that the swap read from GDDR7, at most 64 KiB, are dike 0's (R310); how
many they are is open (log 129). -/
def execImageSwapComplete (cluster : Nat) (s : State) : Host.Outcome State Fault Refusal :=
  match Tab.look cluster s.mdl.swapping with
  | none => .next s
  | some c =>
    .next (if inService s then
      let n := freeBelow 65537 s
      swapCheck (charge 0 3 n.1 (bump cSwap 1 { n.2 with mdl := { s.mdl with
        swapping := Tab.del cluster s.mdl.swapping
        resident := Tab.put cluster (Tab.getD s.mdl.resident cluster [] ++ [c]) s.mdl.resident } }))
    else s)

/-! ## Sources of attention -/

/-- Keys and values of one head of a row of bytes. -/
def headOf (c : Ctx) (h : Nat) (bs : List Byte) : List Nat := ((bs.drop (h * c.headDim)).take c.headDim).map BitVec.toNat

/-- Rows of a page as keys of a head. -/
def keysOf (c : Ctx) (h first : Nat) (rows : List (List Byte × List Byte)) : List (Nat × List Nat × List Nat) :=
  rows.mapIdx (fun j r => (first + j, headOf c h r.1, headOf c h r.2))

/-- The page of a layer's list that begins at a position. -/
def pageAt (s : State) (e : Seq) (layer first : Nat) : Option (Nat × Desc) :=
  ((e.layer layer).list.filterMap (fun i => (descAt s i).map (fun d => (i, d)))).find? (fun p => p.2.firstPos == first)

/-- What a source gives an item: keys of its head, a damaged page, or nothing there. -/
def sourceKeys (s : State) (c : Ctx) (e : Seq) (i : Item) : Except (Nat × Damage) (List (Nat × List Nat × List Nat)) :=
  match i.kind with
  | .ps =>
    let ch := (e.chunksAt (stepNo s)).find? (fun b => b.first == i.source)
    let hd := c.headDim
    .ok (((List.range ((ch.map (·.rows)).getD 0)).filterMap (fun j => rowAt s e.handle i.layer (i.source + j))).map (fun r =>
      (r.pos, (r.kr.drop (i.head * hd)).take hd, (r.vr.drop (i.head * hd)).take hd)))
  | .rb =>
    match ringMsgAt s i.handle 1 i.layer (fun r => r.firstPos == i.source) with
    | none => .ok []
    | some r =>
      match expandWire s r.payload with
      | .error _ => .ok []
      | .ok raw => .ok (keysOf c i.head i.source (pageRows c (pageTokens s) r.tokens raw))
  | _ =>
    match pageAt s e i.layer i.source with
    | none => .ok []
    | some (k, d) =>
      match d.content s c with
      | .error x => .error (k, x)
      | .ok rows => .ok (keysOf c i.head d.firstPos rows)

/-! ## States of runs (R96, R158) -/

/-- The state of a run of an item's unit. -/
def runStateOf (s : State) (i : Item) (run : Nat) : Option RunState :=
  s.car.runs.find? (fun r => r.handle == i.handle && r.layer == i.layer && r.first == i.first && r.head == i.head && r.run == run)

/-- Set the state of a run. -/
def setRun (i : Item) (run : Nat) (sts : List FoldState) (s : State) : State :=
  let mine := fun (r : RunState) => r.handle == i.handle && r.layer == i.layer && r.first == i.first && r.head == i.head && r.run == run
  let r : RunState := { handle := i.handle, layer := i.layer, first := i.first, head := i.head, run := run, states := sts }
  { s with car := { s.car with runs := s.car.runs.filter (fun r => !mine r) ++ [r] } }

/-- States of one head group in a fold record. -/
def recordHeads (s : State) (c : Ctx) (head : Nat) (r : RingMsg) : List FoldState :=
  ((readFoldStates (classN s) c r.payload).drop (head * c.gqa)).take c.gqa

/-- Where a run starts: empty, or at a class F ring member the state it received (R106). -/
def runStart (s : State) (c : Ctx) (e : Seq) (i : Item) : List FoldState :=
  match runStateOf s i i.run with
  | some r => r.states
  | none =>
    let empty := List.replicate (i.rows * c.gqa) (FoldState.empty c.headDim)
    if e.isMember && ringF s e && i.first == Config.none32 then
      match ringMsgAt s i.handle 3 i.layer (fun _ => true) with
      | some r => recordHeads s c i.head r
      | none => empty
    else empty

/-- Query rows of an item as AP takes them: position, and the G heads of its group. -/
def queryHeads (s : State) (c : Ctx) (i : Item) : List (Nat × List (List Nat)) :=
  ((queryRows s i).filterMap id).map (fun r =>
    (r.pos, (List.range c.gqa).map (fun g => (r.qr.drop ((i.head * c.gqa + g) * c.headDim)).take c.headDim)))

/-- All items of the unit, over all head groups, have completed. -/
def unitDone (s : State) (i : Item) : Bool :=
  s.car.items.all (fun j => j.step != i.step || j.slot != i.slot || j.handle != i.handle || j.first != i.first ||
    !(j.attends || j.kind == .fm) || j.done)

/-! ## Sending (R87 stage 8, R103 to R106) -/

/-- Handle at the keeper, and number of this member. -/
def Seq.keeperHandle (e : Seq) : Nat := if e.isMember then e.parent else e.handle

/-- Node of ring member `j`. -/
def Seq.ringNode (e : Seq) (j : Nat) : Nat := e.ringNodes.getD j Config.none32

/-- Send a ring message. -/
def sendRing (dest : Nat) (e : Seq) (kind layer tokens firstPos : Nat) (payload : List Byte) (s : State) : State :=
  let h : RingHdr := { kind := kind, member := e.member, layer := layer, context := e.context, seq := e.keeperHandle
                       epoch := e.ownEpoch, step := stepNo s, tokens := tokens, firstPos := firstPos, payload := payload }
  sendMsg dest e.tenant (.moduleMessage kind) 0 (h.head ++ payload) s

/-- The FOLD_RECORD of a unit's states (R105, R106). -/
def sendRecord (dest : Nat) (e : Seq) (layer : Nat) (sts : List FoldState) (s : State) : State :=
  sendRing dest e 3 layer 0 e.segFirst ((sts.map (FoldState.bytes (classN s))).flatten) s

/-- PROBE bytes of a row. -/
def probePayload (s : State) (e : Seq) (r : RowWork) : List Byte :=
  ((ctxOf s e.context).map (fun c => codesBytes c.qFormat r.qr)).getD []

/-- The output of rows of one sequence goes back to their submitter (R27, R87). -/
def sendOutput (e : Seq) (rows : List RowWork) (s : State) : State :=
  match ctxOf s e.context, rows with
  | some c, r :: _ =>
    let raw := (rows.map (fun r => codesBytes c.actFormat (joinSlices r.out))).flatten
    let bs := packActivation s e.context c (stepNo s) raw
    let k := takeSseq s
    sendPieces r.submitter e.tenant true .output k.1 (bs.map (fun b => b.h.bytes ++ b.payload)) (countBlocks bs k.2)
  | _, _ => s

/-! ## Placement of rows (R98, R99, R119 to R123) -/

/-- A row under another epoch is not written (R120): it is refused like a message under that epoch (R177), and goes. -/
def staleRow (e : Seq) (r : RowWork) (s : State) : State :=
  let s := { s with car := { s.car with rows := s.car.rows.filter (fun x => !(x.handle == r.handle && x.layer == r.layer &&
    x.pos == r.pos)) } }
  let h := sluHdr s 0 0 2 e.keeperHandle r.epoch e
  refuseStale r.submitter h (raise .writeEpochStale (bump cStaleWrite 1 s))

/-- Rows of bytes. -/
def rowBytes (c : Ctx) (r : RowWork) : List Byte × List Byte := (codesBytes c.kvFormat r.kr, codesBytes c.kvFormat r.vr)

/-- A decode row is appended to its hopper (R98). -/
def placeDecode (slot : Nat) (e : Seq) (c : Ctx) (r : RowWork) (s : State) : State :=
  if r.placed || r.noAppend then s
  else if r.epoch ≠ e.ownEpoch then staleRow e r s
  else
    let kv := rowBytes c r
    match appendRow slot r.layer r.pos (stepNo s) kv.1 kv.2 s with
    | none => s
    | some s => forwardTail slot (updRow r.handle r.layer r.pos (fun r => { r with placed := true }) s)

/-- KiB of rows staged in a layer slot, which is of one context, and the peak (R99, R110). -/
def noteStage (c : Ctx) (context layer : Nat) (s : State) : State :=
  let n := (s.car.rows.filter (fun r => r.context == context && r.prefill && r.rotated && !r.placed && r.layer == layer)).length
  { s with car := { s.car with stagePeak := max s.car.stagePeak (cdiv (n * 2 * c.rowBytes) 1024) } }

/-- Rows that have been returned and, where they are to be appended, placed are done with: they go, and the chunk or the decode
row is past the layer. -/
def retireRows (slot : Nat) (e : Seq) (layer : Nat) (ps : List Nat) (s : State) : State :=
  let rows := ps.map (rowAt s e.handle layer)
  if !allRows rows (fun r => r.returned && (r.placed || r.noAppend)) then s
  else
    let s := { s with car := { s.car with rows := s.car.rows.filter (fun x =>
      !(x.handle == e.handle && x.layer == layer && ps.contains x.pos)) } }
    match rows.filterMap id with
    | [] => s
    | r :: _ =>
      updSeq slot (fun e =>
        if r.prefill then
          { e with chunks := e.chunks.map (fun b =>
              if b.first ≤ r.pos ∧ r.pos < b.first + b.rows then { b with ran := layer + 1 } else b) }
        else { e with layersRun := layer + 1 }) s

/-- Positions of a chunk. -/
def Chunk.positions (b : Chunk) : List Nat := (List.range b.rows).map (b.first + ·)

/-- The staged rows of a sequence-layer are appended once every chunk has attended (R99, R122). -/
def placeStaged (slot : Nat) (e : Seq) (c : Ctx) (layer : Nat) (s : State) : State :=
  let rs := chunkRows s e layer (fun b => !b.resume)
  if rs.isEmpty || !allRows rs (fun r => r.attended && !r.placed) then s
  else
    let rows := rs.filterMap id
    match rows with
    | [] => s
    | r :: _ =>
      if rows.any (fun x => x.epoch != e.ownEpoch) then (rows.filter (fun x => x.epoch != e.ownEpoch)).foldl (fun s x => staleRow e x s) s
      else
        match appendStaged slot layer r.pos (stepNo s) (rows.map (rowBytes c)) s with
        | none => s
        | some s =>
          let s := rows.foldl (fun s x => updRow x.handle x.layer x.pos (fun y => { y with placed := true }) s) s
          forwardTail slot ((e.chunksAt (stepNo s)).foldl (fun s b => retireRows slot e layer b.positions s) s)

/-! ## The end of a unit -/

/-- Rows get their attention outputs from final states, row by row, head by head (R80, R85). -/
def giveOutputs (c : Ctx) (i : Item) (byHead : List (List FoldState)) (s : State) : State :=
  let n := classN s
  ((List.range i.rows).zip ((queryRows s i).filterMap id)).foldl (fun s p =>
    let outs := (byHead.map (fun sts => ((sts.drop (p.1 * c.gqa)).take c.gqa).map (fun st => st.output n c.outFormat))).flatten
    let empties := (outs.filter (·.2)).length
    let es := (outs.map (·.1)).flatten
    let s := noteElems es (bump cAttnEmpty empties (raiseTimes .attnEmpty empties s))
    updRow p.2.handle p.2.layer p.2.pos (fun r => { r with attn := es.map (·.code), attended := true }) s) s

/-- Final states of a unit, by head group; where nothing was folded, what the unit started from. -/
def finalStates (s : State) (c : Ctx) (e : Seq) (i : Item) : List (List FoldState) :=
  (List.range c.nKv).map (fun h => runStart s c e { i with head := h, run := 0 })

/-- A unit has completed: outputs, or a fold record to the next place in the ring (R99, R105, R106). -/
def finishUnit (slot : Nat) (e : Seq) (c : Ctx) (i : Item) (s : State) : State :=
  let sts := finalStates s c e i
  let keeper := e.ringNode (e.ringZ - 1)
  if i.first = Config.none32 then
    match probeAt s i.handle i.layer with
    | none => s
    | some r =>
      let s := if classN s || e.member == 0 then sendRecord keeper e i.layer sts.flatten s
        else sendRecord (e.ringNode (e.member - 1)) e i.layer sts.flatten
          (sendRing (e.ringNode (e.member - 1)) e 2 i.layer 1 r.pos (probePayload s e r) s)
      { s with car := { s.car with rows := s.car.rows.filter (fun x => !(x.handle == r.handle && x.layer == r.layer && x.noAppend)) } }
  else if ringF s e && !e.isMember && e.decodes then
    match rowAt s i.handle i.layer i.first with
    | none => s
    | some r =>
      let to_ := e.ringNode (e.ringZ - 2)
      sendRecord to_ e i.layer sts.flatten (sendRing to_ e 2 i.layer 1 r.pos (probePayload s e r) s)
  else placeStaged slot e c i.layer (giveOutputs c i sts s)

/-- After an attention item or a merge: the unit may have completed. -/
def afterAttention (slot : Nat) (e : Seq) (c : Ctx) (i : Item) (s : State) : State :=
  if unitDone s i then finishUnit slot e c i s else s

/-! ## The completion of an item -/

/-- One slice of a projection for every row of its batch (R87, R88, R202). The elements u of an adapter count once for a
row and projection, with its first slice (log 79). -/
def projectBatch (c : Ctx) (l : LayerDesc) (i : Item) (m slice : Nat) (s : State) : State :=
  let n := classN s
  let out := if m = 3 then c.actFormat else if m = 2 then c.kvFormat else .fp32
  i.batch.foldl (fun s b =>
    match rowAt s b.1 i.layer b.2 with
    | none => s
    | some r =>
      let x := if m = 3 then r.attn.map (plain c.outFormat) else r.norm.map (plain c.actFormat)
      let es := projectRow s n i.context c i.layer m (256 * slice) ((sliceCols c m).getD slice 0) l (adapterOf s b.1) out x
      let codes := es.map (·.code)
      let u := match adapterOf s b.1 with
        | some a => if slice = 0 then adapterInner s n i.context c i.layer m a.1 a.2 x else []
        | none => []
      noteElems (es ++ u) (updRow b.1 i.layer b.2 (fun r =>
        if m = 0 then { r with q := Tab.put slice codes r.q }
        else if m = 1 then { r with k := Tab.put slice codes r.k }
        else if m = 2 then { r with v := Tab.put slice codes r.v }
        else { r with out := Tab.put slice codes r.out }) s)) s

/-- A PROBE goes to every ring member when the keeper's row is rotated (R105). -/
def sendProbes (e : Seq) (r : RowWork) (s : State) : State :=
  if classN s && decide (1 < e.ringZ) && !e.isMember && e.decodes then
    (List.range (e.ringZ - 1)).foldl (fun s j => sendRing (e.ringNode j) e 2 r.layer 1 r.pos (probePayload s e r) s) s
  else s

/-- Rotary encoding of one row, then its placement (R88, R98, R99). -/
def rotaryDone (slot : Nat) (e : Seq) (c : Ctx) (i : Item) (s : State) : State :=
  match rowAt s i.handle i.layer i.first with
  | none => s
  | some r =>
    let q := rotateRow c c.qFormat r.pos (joinSlices r.q)
    let k := rotateRow c c.kvFormat r.pos (joinSlices r.k)
    let r := { r with qr := q.map (·.code), kr := k.map (·.code), vr := joinSlices r.v, rotated := true }
    let s := noteElems k (noteElems q (updRow r.handle r.layer r.pos (fun _ => r) s))
    if r.prefill then noteStage c i.context r.layer s else sendProbes e r (placeDecode slot e c r s)

/-- A decode row or a chunk whose outputs are all there is returned (R87 stage 8), placed or not. -/
def returnRows (slot : Nat) (e : Seq) (c : Ctx) (layer : Nat) (ps : List Nat) (s : State) : State :=
  let rows := ps.map (rowAt s e.handle layer)
  if !allRows rows (fun r => slicesDone c 3 r.out && !r.returned) then s
  else
    let s := sendOutput e (rows.filterMap id) s
    retireRows slot e layer ps (ps.foldl (fun s p => updRow e.handle layer p (fun r => { r with returned := true }) s) s)

/-- Outputs after a slice: every sequence of the batch whose rows are complete returns them. -/
def returnBatch (c : Ctx) (i : Item) (s : State) : State :=
  (distinct (i.batch.map (·.1))).foldl (fun s h =>
    match slotOf s h with
    | none => s
    | some slot =>
      match seqAt s slot with
      | none => s
      | some e =>
        if e.decodes then returnRows slot e c i.layer [e.position] s
        else (e.chunksAt (stepNo s)).foldl (fun s b => returnRows slot e c i.layer b.positions s) s) s

/-- The page of a sampled item is held until its shadow recomputation has read it (R117). -/
def holdPage (e : Seq) (i : Item) (s : State) : State :=
  match (if i.sampled && (i.kind == .da || i.kind == .dh || i.kind == .pa) then pageAt s e i.layer i.source else none) with
  | none => s
  | some (k, _) =>
    incRef k { s with car := { s.car with items := s.car.items.map (fun j => if j.id = i.id then { j with page := some k } else j) } }

/-- One source is folded (R79, R95); a damaged page stops the item and is dealt with (R246). -/
def foldItem (slot : Nat) (e : Seq) (c : Ctx) (l : LayerDesc) (i : Item) (mark : State → State) (s : State) : State :=
  match sourceKeys s c e i with
  | .error (k, d) =>
    damagePage k (blockDamaged d (if ((descAt s k).map (fun x => x.tier == .cxl)).getD false then fromTier2 else fromGddr) s)
  | .ok keys =>
    let r := foldSource (classN s) c l e.lP (queryHeads s c i) keys (runStart s c e i)
    let s := setRun i i.run r.1 (holdPage e i (mark s))
    let s := bump cScoreSat r.2.1 (raiseTimes .scoreSat r.2.1 s)
    let s := bump cNonfinite r.2.2 (raiseTimes .nonfinite r.2.2 s)
    let s := if i.kind == .rb then
        { s with car := { s.car with ringMsgs := s.car.ringMsgs.map (fun x =>
            if x.handle = i.handle ∧ x.kind = 1 ∧ x.layer = i.layer ∧ x.firstPos = i.source then { x with folded := true } else x) } }
      else s
    afterAttention slot e c i s

/-- One merge (R96). -/
def mergeItem (slot : Nat) (e : Seq) (c : Ctx) (i : Item) (s : State) : State :=
  let base := ((runStateOf s i 0).map (·.states)).getD (List.replicate (i.rows * c.gqa) (FoldState.empty c.headDim))
  let other := if memberRun ≤ i.merges then
      match ringMsgAt s i.handle 3 i.layer (fun r => r.member == i.merges - memberRun) with
      | some r => recordHeads s c i.head r
      | none => []
    else ((runStateOf s i i.merges).map (·.states)).getD []
  let merged := if other.length = base.length then base.zipWith FoldState.merge other else base
  afterAttention slot e c i (setRun i 0 merged s)

/-- A sampling with a NaN or an infinity among its logits counts once (R83). -/
def noteLogits (logits : List Nat) (s : State) : State :=
  if logits.any Fmt.fp32.nonfinite then bump cNonfinite 1 (raise .nonfinite s) else s

/-- The sampling item of an owner (R83, R324); one that holds its sequence or has lost it samples nothing (R177, R183). -/
def sampleItem (slot : Nat) (e : Seq) (i : Item) (s : State) : State :=
  match s.car.rows.find? (fun r => r.handle == i.handle && r.layer == i.layer), ownedAt s slot with
  | some r, some o =>
    if !o.acts then s else
    let u := draw e.sampling.seed o.draws
    let token := sampleToken r.x e.sampling.temperature e.sampling.topP e.sampling.topK u
    ownerToken slot token (noteLogits r.x
      { s with car := { s.car with rows := s.car.rows.filter (fun x => !(x.handle == i.handle && x.layer == i.layer)) } })
  | _, _ => s

/-- Dike of a sequence. -/
def tenantOf (s : State) (handle : Nat) : Nat := ((seqAt s (handle % 16384)).map (·.tenant)).getD 0

/-- What an item used, as executed, is charged (R309, R310). -/
def chargeItem (i : Item) (u : ItemUse) (s : State) : State :=
  let dikes := if i.batch.isEmpty then [tenantOf s i.handle] else i.batch.map (fun b => tenantOf s b.1)
  [(0, u.cycles), (1, u.mxIssue), (2, u.apIssue), (3, u.gddrBytes), (4, u.t2Bytes)].foldl
    (fun s x => if x.2 = 0 then s else chargeSplit x.1 x.2 dikes s) s

/-- An item is marked done. -/
def markDone (id : Nat) (s : State) : State :=
  { s with car := { s.car with items := s.car.items.map (fun j => if j.id = id then { j with done := true } else j) } }

/-- Some tokens of a batch have run; the item goes on with the others, if any. -/
def markRan (id : Nat) (ran : List (Nat × Nat)) (s : State) : State :=
  { s with car := { s.car with items := s.car.items.map (fun j =>
      if j.id = id then
        let left := j.batch.filter (fun b => !ran.contains b)
        if left.isEmpty then { j with done := true } else { j with batch := left }
      else j) } }

/-- What the completion of a ready item does: a batch for those of its tokens that could run. -/
def completeItem (i : Item) (u : ItemUse) (s : State) : State :=
  let i := { i with batch := readyBatch s i }
  let s := chargeItem i u s
  let mark := if i.batch.isEmpty then markDone i.id else markRan i.id i.batch
  match slotOf s i.handle, itemLayer s i with
  | _, none =>
    match slotOf s i.handle with
    | some slot =>
      match seqAt s slot with
      | some e => if i.kind == .sample then sampleItem slot e i (mark s) else mark s
      | none => mark s
    | none => mark s
  | none, some (c, l) =>
    match i.kind with
    | .project m k => projectBatch c l i m k (mark s)
    | .output k => returnBatch c i (projectBatch c l i 3 k (mark s))
    | _ => mark s
  | some slot, some (c, l) =>
    match seqAt s slot with
    | none => mark s
    | some e =>
      match i.kind with
      | .norm =>
        match rowAt s i.handle i.layer i.first with
        | none => mark s
        | some r =>
          let es := normRow s c i.layer l r.x
          noteElems es (updRow r.handle r.layer r.pos (fun r => { r with norm := es.map (·.code) }) (mark s))
      | .project m k => projectBatch c l i m k (mark s)
      | .rotary => rotaryDone slot e c i (mark s)
      | .output k => returnBatch c i (projectBatch c l i 3 k (mark s))
      | .fm => mergeItem slot e c i (mark s)
      | .sample => sampleItem slot e i (mark s)
      | _ => foldItem slot e c l i mark s

/-- ITEM_COMPLETE (R87, R95): an item that can run has run. -/
def execItemComplete (item : Nat) (u : ItemUse) (s : State) : Host.Outcome State Fault Refusal :=
  match s.car.items.find? (fun i => i.id == item && i.step == stepNo s) with
  | none => .next s
  | some i => .next (if inService s && itemReady s i then swapCheck (completeItem i u s) else s)

/-! ## Hidden states (R24) -/

/-- The entry a message of a ring or an owner names by the keeper's handle: a sequence kept here, or a segment held for
that keeper (R103). -/
def entryNamed (s : State) (source handle : Nat) : Option Nat :=
  let kept := (slotOf s handle).filter (fun k => ((seqAt s k).map (fun e => !e.isMember)).getD false)
  let segment := (s.sqs.seqs.find? (fun e => e.2.isMember && e.2.parent == handle &&
    (e.2.ringNodes.contains source || e.2.gateway == source))).map (·.1)
  match kept with
  | some k => if ((recAt s k).map (fun r => r.owner == source)).getD false || segment.isNone then some k else segment
  | none => segment

/-- The worst-case cost of what a sequence still has to run in a layer of the step. -/
def openCost (s : State) (handle layer : Nat) : Nat :=
  ((s.car.items.filter (fun i => !i.done && i.layer == layer &&
    (i.handle == handle || i.batch.any (fun b => b.1 == handle)))).map (·.cost)).sum

/-- Slack of the step that nothing has used (R24, R199). -/
def slackLeft (s : State) : Nat := s.sqs.budget - s.sqs.commit - s.mdl.slackUsed

/-- An instant of the step lies after the CUTOFF of a layer's slot, with the context's delay (R24, R199). What arrives exactly at
CUTOFF is in time: R61 counts that instant in, R24 says before it (DESIGN CHOICE, log 120). A replay does not run in real time:
what was late is what its records say (R333, R334). -/
def pastCutoff (s : State) (context layer offsetNs : Nat) : Bool :=
  liveTime s &&
  match slotFor s context layer with
  | none => false
  | some t => decide (t.cutoff + Tab.getD s.mdl.delay context 0 < offsetNs)

/-- What is late runs in this step by the step's slack, or its layer moves to the next step (R24): the step, and the state. -/
def lateStep (e : Seq) (layer : Nat) (s : State) : Nat × State :=
  let n := stepNo s
  let cost := openCost s e.handle layer
  if cost ≤ slackLeft s then (n, { s with mdl := { s.mdl with slackUsed := s.mdl.slackUsed + cost } })
  else (n + 1, disposition 1 e.handle layer cost (updSeq (e.handle % 16384) (fun e => { e with carried := true }) s))

/-- When hidden states of a layer count: with the step, by slack, or with the next step. -/
def hiddenStep (h : Hidden) (offsetNs : Nat) (e : Seq) (s : State) : Nat × State :=
  if pastCutoff s h.context h.layer offsetNs then lateStep e h.layer s else (stepNo s, s)

/-- A row of the plan: decode at the present position, or a position of a chunk. -/
def planned (e : Seq) (pos : Nat) : Option (Bool × Bool) :=
  match e.chunks.find? (fun b => decide (b.first ≤ pos) && decide (pos < b.first + b.rows)) with
  | some b => some (true, b.resume)
  | none => if e.chunks.isEmpty ∧ pos = e.position then some (false, false) else none

/-- The rows of a hidden state are taken in. -/
def takeHidden (h : Hidden) (offsetNs : Nat) (e : Seq) (s : State) : State :=
  let at_ := hiddenStep h offsetNs e s
  let rows := (h.rows.mapIdx (fun i x => (h.firstPos + i, x))).filterMap (fun p =>
    match planned e p.1 with
    | none => none
    | some (pre, resume) =>
      if (rowAt s e.handle h.layer p.1).isSome then none
      else some ({ handle := e.handle, context := e.context, layer := h.layer, step := at_.1, pos := p.1, epoch := h.epoch
                   submitter := h.source, compEpoch := h.compEpoch, prefill := pre, noAppend := resume, x := p.2 } : RowWork))
  { at_.2 with car := { at_.2.car with rows := at_.2.car.rows ++ rows } }

/-- HIDDEN_STATE (R24, R87 stage 1): the hidden state of rows of one sequence at one layer, received at an instant of
the step. A message with a damaged block is discarded, and comes again as lost packets do (R246). -/
def execHiddenState (offsetNs : Nat) (h : Hidden) (s : State) : Host.Outcome State Fault Refusal :=
  if !takesFrom s h.source then .next s
  else
    let s := setNow (s.tmu.openedAt + offsetNs) s
    if !roleC s then .next (misdirect h.port s)
    else if h.damage ≠ 0 then .next (damageFound h.damage fromWire s)
    else
      match entryNamed s h.source h.handle with
      | none => .next (raise .handleStale s)
      | some slot =>
        match seqAt s slot, ctxOf s h.context with
        | some e, some c =>
          let raw := (h.rows.map (codesBytes c.actFormat)).flatten
          let s := consumeNow e.tenant h.source h.sseq raw s
          let later := e.isMember && epochLater h.epoch e.ownEpoch
          let s := if later then updSeq slot (fun e => { e with ownEpoch := h.epoch }) s else s
          if h.epoch ≠ e.ownEpoch && !later then
            let hd := { sluHdr s 0 0 2 h.handle h.epoch e with sseq := h.sseq }
            .next (refuseStale h.source hd s)
          else if h.context ≠ e.context ∨ c.layers.length ≤ h.layer ∨ h.rows.isEmpty ∨ 512 < h.rows.length ∨
                  h.rows.any (fun r => r.length != c.width) then .next (raise .messageMalformed s)
          else
            let s := if e.isMember then s else updRec slot (fun r => if r.owner = h.source then { r with heard := true } else r) s
            .next (swapCheck (takeHidden h offsetNs e s))
        | some _, none => .next (raise .messageMalformed s)
        | none, _ => .next (raise .handleStale s)

/-! ## Ring messages (R103 to R107) -/

/-- A ring message names the epoch of the sequence; a member takes a serially later one from its ring (R107, R161; how the
epoch that a member holds follows the keeper's is no rule's matter: DESIGN CHOICE, log 118). -/
def ringEpoch (slot source epoch : Nat) (e : Seq) (s : State) : Option State :=
  if epoch = e.ownEpoch then some s
  else if e.isMember && e.ringNodes.contains source && epochLater epoch e.ownEpoch then
    some (updSeq slot (fun e => { e with ownEpoch := epoch }) s)
  else none

/-- A ring message arrives: malformed, misdirected, stale, a duplicate, or acted on with its entry. -/
def ringIn (kind : Nat) (act : RingHdr → Nat → Seq → State → State) (m : MsgIn) (s : State) : State :=
  if !takesFrom s m.source then s
  else
    match readRing kind m.bytes with
    | none => raise .messageMalformed s
    | some h =>
      if !roleC s then misdirect m.port s
      else
        match entryNamed s m.source h.seq with
        | none => raise .handleStale s
        | some slot =>
          match seqAt s slot with
          | none => raise .handleStale s
          | some e =>
            let s := consumeUnnumbered e.tenant m.source m.bytes s
            match ringEpoch slot m.source h.epoch e s with
            | none =>
              sendReject m.source { sluHdr s kind 0 2 h.seq h.epoch e with kind := kind } (raise .ringEpochStale (bump cRingStale 1 s))
            | some s =>
              let s := { s with car := { s.car with ringSilent := Tab.del (e.handle * 64 + h.member) s.car.ringSilent } }
              if s.car.ringMsgs.any (fun r => r.handle == e.handle && r.layer == h.layer && r.step == h.step &&
                  r.member == h.member && r.kind == kind && r.firstPos == h.firstPos) then
                raise .ringDuplicate (bump cRingDup 1 s)
              else act h slot e s

/-- A ring message is held. -/
def keepRing (h : RingHdr) (e : Seq) (s : State) : State :=
  let r : RingMsg := { kind := h.kind, member := h.member, layer := h.layer, handle := e.handle, step := h.step
                       firstPos := h.firstPos, tokens := h.tokens, payload := h.payload, folded := false }
  { s with car := { s.car with ringMsgs := s.car.ringMsgs ++ [r] } }

/-- The sealed pages of the own segment that have not been sent in a layer, ascending, as far as they follow one another. -/
def unsentPages (s : State) (e : Seq) (l : Nat) : List Desc :=
  (((e.layer l).list.filterMap (descAt s)).filter (fun d => decide ((e.layer l).sentPos ≤ d.firstPos))).takeWhile
    (fun d => d.state == .sealed)

/-- A member sends the sealed pages of its own segment to its successor, in ascending position (R103, R104). A block leaves
memory only checked and decrypted, with CHECK over plaintext (R245). -/
def sendOwn (slot l : Nat) (s : State) : State :=
  match seqAt s slot with
  | none => s
  | some e =>
    if !e.isMember then s
    else (unsentPages s e l).foldl (fun s d =>
      match d.plainBlocks s with
      | none => s
      | some bs =>
        updLayer slot l (fun p => { p with sentPos := d.firstPos + d.fill })
          (sendRing (e.ringNode (e.member + 1)) e 1 l d.fill d.firstPos ((bs.map (fun b => b.1 ++ b.2)).flatten) s)) s

/-- The first positions of the blocks that reach a member, in ring order: segments j − 1 to 0, each ascending (R104). -/
def ringOrder (s : State) (e : Seq) : List Nat :=
  let size := pageTokens s
  let seg := ((ctxOf s e.context).map (·.ringSegment)).getD 0
  ((List.range (e.segFirst / seg)).reverse.map (fun j => (List.range (seg / size)).map (fun i => j * seg + i * size))).flatten

/-- A block of another segment is held for a layer. -/
def heldBlock (s : State) (e : Seq) (layer pos : Nat) : Option RingMsg :=
  s.car.ringMsgs.find? (fun r => r.handle == e.handle && r.kind == 1 && r.layer == layer && r.firstPos == pos)

/-- A member forwards the blocks it received, after its own and in ring order: one waits until those before it have come. In a
window layer, of which a member need not hold every page, they go as they are held (R103, R104). -/
def forwardBlocks (slot layer : Nat) (s : State) : State :=
  match seqAt s slot with
  | none => s
  | some e =>
    if !e.isMember || e.member == 0 || decide ((e.layer layer).sentPos < e.segEnd) then s
    else
      let held := fun p => (heldBlock s e layer p).isSome
      let order := if layerWindow s e.context layer = 0 then (ringOrder s e).takeWhile held else (ringOrder s e).filter held
      let out := (order.filterMap (heldBlock s e layer)).filter (fun r => !r.forwarded)
      let s' := out.foldl (fun s r => sendRing (e.ringNode (e.member + 1)) e 1 layer r.tokens r.firstPos r.payload s) s
      { s' with car := { s'.car with ringMsgs := s'.car.ringMsgs.map (fun r => if out.contains r then { r with forwarded := true } else r) } }

/-- A ring message that the items of its layer had to start without (R107): they run by the step's slack, or the layer moves to
the next step. -/
def lateRing (h : RingHdr) (e : Seq) (s : State) : Nat × State :=
  if h.step == stepNo s && pastCutoff s e.context h.layer (s.tmu.now - s.tmu.openedAt) then
    let r := lateStep e h.layer (disposition 2 e.handle h.layer 1 (raise .ringLate (bump cRingLate 1 s)))
    (r.1, { r.2 with car := { r.2.car with rows := r.2.car.rows.map (fun x =>
      if x.handle = e.handle ∧ x.layer = h.layer then { x with step := max x.step r.1 } else x) } })
  else (stepNo s, s)

/-- A member that has no page to fold for a probe answers at once (R105, R106). -/
def answerEmpty (slot layer : Nat) (s : State) : State :=
  match seqAt s slot with
  | none => s
  | some e =>
    match ctxOf s e.context with
    | none => s
    | some c =>
      if e.isMember && (probeAt s e.handle layer).isSome && (decodeSources s c layer e e.segEnd).isEmpty &&
          (classN s || (ringMsgAt s e.handle 3 layer (fun _ => true)).isSome) then
        finishUnit slot e c { Item.of (stepNo s) 0 e.context layer .da 0 with handle := e.handle, first := Config.none32 } s
      else s

/-- RING_BLOCK (R103): a sealed page from the predecessor; a damaged one is not taken, and its sender resends it (R107; by what
it learns of it, no rule says: log 123). -/
def onRingBlock (m : MsgIn) (s : State) : State :=
  ringIn 1 (fun h slot e s =>
    match expandWire s h.payload with
    | .error d => blockDamaged d fromWire s
    | .ok _ => swapCheck (forwardBlocks slot h.layer (keepRing h e (lateRing h e s).2))) m s

/-- PROBE (R105, R106): the query rows of a decode position. -/
def onProbe (m : MsgIn) (s : State) : State :=
  ringIn 2 (fun h slot e s =>
    match ctxOf s e.context with
    | none => s
    | some c =>
      if h.payload.length ≠ c.gqa * c.nKv * c.headDim * c.qFormat.size then raise .messageMalformed s
      else if !e.isMember then s
      else
        let late := lateRing h e s
        let s := late.2
        let s := { s with car := { s.car with rows := s.car.rows.filter (fun x => !(x.handle == e.handle && x.layer == h.layer && x.noAppend)) } }
        let row : RowWork := { handle := e.handle, context := e.context, layer := h.layer, step := late.1, pos := h.firstPos
                               epoch := h.epoch, submitter := m.source, prefill := false, noAppend := true, x := []
                               qr := bytesCodes c.qFormat h.payload, rotated := true, placed := true }
        swapCheck (answerEmpty slot h.layer
          (keepRing { h with payload := [] } e { s with car := { s.car with rows := s.car.rows ++ [row] } }))) m s

/-- The final state of a class F ring decode gives the keeper's row its output (R106). -/
def finishRingF (e : Seq) (c : Ctx) (h : RingHdr) (s : State) : State :=
  let i : Item := { Item.of (stepNo s) 0 e.context h.layer .dh 0 with handle := e.handle, first := e.position }
  let sts := readFoldStates false c h.payload
  giveOutputs c i ((List.range c.nKv).map (fun g => (sts.drop (g * c.gqa)).take c.gqa)) s

/-- FOLD_RECORD (R105, R106). -/
def onFoldRecord (m : MsgIn) (s : State) : State :=
  ringIn 3 (fun h slot e s =>
    match ctxOf s e.context with
    | none => s
    | some c =>
      if h.payload.length ≠ c.gqa * c.nKv * foldHeadBytes (classN s) c.headDim then raise .messageMalformed s
      else
        let s := answerEmpty slot h.layer (keepRing h e (lateRing h e s).2)
        swapCheck (if ringF s e && !e.isMember && h.member == 0 then finishRingF e c h s else s)) m s

/-- A ring member is lost (R107): a replacement where the pages are DURABLE, else the sequence is orphaned. The replacement is the
first of the ring set outside the ring in rendezvous order of the request (DESIGN CHOICE, log 124); the rebuilding of the
segment is its own matter, and no message of the spec asks for it. -/
def memberLost (slot member : Nat) (s : State) : State :=
  match seqAt s slot with
  | none => s
  | some e =>
    let s := raise .ringMemberLost s
    let others := (ringSetMembers s).filter (fun n => !e.ringNodes.contains n)
    match s.stw.charter.kvDurable, (rendezvous (requestKey e.tenant e.requestId) others).head? with
    | 2, some n => updSeq slot (fun e => { e with ringNodes := e.ringNodes.set member n }) s
    | _, _ => enterOrphan slot s

/-- RING_SILENCE_TIMEOUT (R107): a member has sent nothing the keeper awaits for 2 steps. -/
def execRingSilenceTimeout (slot member : Nat) (s : State) : Host.Outcome State Fault Refusal :=
  match seqAt s slot with
  | none => .next s
  | some e =>
    .next (if inService s && roleC s && decide (1 < e.ringZ) && !e.isMember && decide (member + 1 < e.ringZ) &&
        decide (2 ≤ Tab.getD s.car.ringSilent (e.handle * 64 + member) 0) && e.state != .orphaned then memberLost slot member s
      else s)

end Sys2Proof.Machine
end

