-- ==== Sys2Proof/Machine/Slots.lean ====
section
/-! DEFINITION. The slots of the tide table and the weights of their layers (R60 to R62, R195, R199, R200, R225). -/

namespace Sys2Proof.Machine

/-- Entry of a slot in the table in force. -/
def slotAt (s : State) (slot : Nat) : Option TideEntry := (tideNow s).find? (fun t => t.slot == slot)

/-- The accumulated delay of a context in ns (R199). -/
def delayOf (s : State) (context : Nat) : Nat := Tab.getD s.mdl.delay context 0

/-- More delay for a context. -/
def addDelay (context ns : Nat) (s : State) : State :=
  { s with mdl := { s.mdl with delay := Tab.put context (delayOf s context + ns) s.mdl.delay } }

/-- The instant of an offset of a context's slot. -/
def slotInstant (s : State) (t : TideEntry) (offset : Nat) : Nat := s.tmu.openedAt + offset + delayOf s t.context

/-- A row that could not be appended in an earlier step, as no spare was there: it is written when its layer runs, after
the boundary has restored the spare (R123). -/
def placeWaitingRow (c : Ctx) (r : RowWork) (s : State) : State :=
  let slot := r.handle % 16384
  match seqAt s slot with
  | none => s
  | some e => if r.prefill then placeStaged slot e c r.layer s else placeDecode slot e c r s

/-- Waiting rows of a layer slot. -/
def placeWaiting (t : TideEntry) (s : State) : State :=
  match ctxOf s t.context with
  | none => s
  | some c => (s.car.rows.filter (fun r => r.context == t.context && r.layer == t.layer && r.rotated && !r.placed)).foldl
      (fun s r => placeWaitingRow c r s) s

/-- The layer whose weights a slot prefetches: the next one of its context (R195); layer 0 is staged with the boundary. -/
def prefetchOf (s : State) (slot : Nat) : Option (TideEntry × Nat × Ctx × LayerDesc) :=
  match slotAt s slot with
  | none => none
  | some t =>
    match ctxOf s t.context with
    | none => none
    | some c => (c.layers[t.layer + 1]?).map (fun l => (t, t.context * 256 + t.layer + 1, c, l))

/-- Set a load. -/
def setLoad (key : Nat) (l : Load) (s : State) : State :=
  { s with mdl := { s.mdl with loads := Tab.put key l s.mdl.loads } }

/-- PREFETCH_ISSUE (R62). -/
def execPrefetchIssue (slot : Nat) (s : State) : Host.Outcome State Fault Refusal :=
  match prefetchOf s slot with
  | none => .next s
  | some (t, key, _, _) =>
    .next (if inService s && !Tab.has key s.mdl.loads then setLoad key .issued (setNow (slotInstant s t t.pfIssue) s) else s)

/-- Bytes of a fetch of weights, charged to dike 0; tier-2 bytes in whole lines (R309, R310). -/
def chargeFetch (c : Ctx) (n : Nat) (s : State) : State :=
  if c.homeCxl then charge 0 4 (cdiv n 256 * 256) s else charge 0 3 n s

/-- Engine cycles of a time in ns. -/
def nsCycles (n : Nat) : Nat := cdiv (n * 36) 10

/-! ## Fetches of weights (R194, R195, R246) -/

/-- One piece of a fetch: its number, whether its copy in the weight cache is read, its stretches and its damaged blocks. -/
structure Piece where
  key : Nat
  cached : Bool
  spans : List (Nat × Nat)
  bad : List (Nat × Damage)
  deriving DecidableEq, Repr

/-- The weights of a layer. -/
def layerPiece (s : State) (ci : Nat) (c : Ctx) (layer : Nat) (l : LayerDesc) : Piece :=
  { key := layer, cached := c.cells.isSome && !c.refetching.contains layer
    spans := layerSpans (weightCells s c layer) c l
    bad := planeDamages s (weightCells s c layer) ci (layerPlanes c l) }

/-- A layer of an adapter version. -/
def versionPiece (s : State) (ci : Nat) (c : Ctx) (layer v : Nat) (a : Adapter) : Piece :=
  let m := adapterCells s c v layer a
  let ps := (adapterPlanes m c a layer).map (·.2)
  { key := adapterPiece v layer, cached := !c.refetching.contains (adapterPiece v layer)
    spans := ps.map (fun p => (p.1, planeSpan m p.1 p.2)), bad := planeDamages s m ci ps }

/-- Adapter versions of the sequences of a context that work in the step. -/
def versionsAtWork (s : State) (ci : Nat) : List (Nat × Adapter) :=
  s.mdl.adapters.filter (fun a => (workingSeqs s (stepNo s)).any (fun e => e.2.context == ci && e.2.adapter == a.1))

/-- What a fetch of a layer brings: the weights, and the layers of the adapters at work, which are staged with them. -/
def fetchPieces (s : State) (ci : Nat) (c : Ctx) (layer : Nat) (l : LayerDesc) : List Piece :=
  layerPiece s ci c layer l :: (versionsAtWork s ci).map (fun a => versionPiece s ci c layer a.1 a.2)

/-- A piece read from the tier-2 master lies in ACTIVE segments (R207, R208). -/
def Piece.mapped (s : State) (p : Piece) : Bool := p.cached || p.spans.all (fun x => inSegments s x.1 x.2)

/-- The master's blocks that this fetch found damaged. -/
def masterBad (ps : List Piece) : List (Nat × Nat) :=
  (ps.filter (fun p => !p.cached)).flatMap (fun p => p.bad.map (fun d => (p.key, d.1)))

/-- Cells of some stretches come anew from the master. -/
def refresh (s : State) (spans : List (Nat × Nat)) (m : List Host.Cell) : List Host.Cell :=
  (cellsIn s.mem spans).foldl (fun t x => Tab.put x.1 x.2 t)
    (m.filter (fun x => !spans.any (fun p => decide (p.1 ≤ x.1) && decide (x.1 < p.1 + p.2))))

/-- The context after a fetch: a piece whose copy is damaged is fetched from the master, one that came intact from there is in
the weight cache again, and a block of the master damaged on two fetches in a row condemns the context. -/
def Ctx.afterFetch (s : State) (ps : List Piece) (c : Ctx) : Ctx :=
  let keys := ps.map (·.key)
  let badKeys := (ps.filter (fun p => !p.bad.isEmpty && (p.cached || c.refetching.contains p.key))).map (·.key)
  let fresh := masterBad ps
  let renewed := (ps.filter (fun p => p.bad.isEmpty && !p.cached && decide (p.key < 65536))).flatMap (·.spans)
  { c with
    refetching := c.refetching.filter (fun k => !keys.contains k) ++ badKeys
    badBlocks := c.badBlocks.filter (fun b => !keys.contains b.1) ++ fresh
    condemned := c.condemned || fresh.any (fun b => c.badBlocks.contains b)
    cells := c.cells.map (fun m => if renewed.isEmpty then m else refresh s renewed m) }

/-- Adapter copies that came intact from the master are in the weight cache again. -/
def renewAdapters (ps : List Piece) (s : State) : State :=
  { s with mdl := { s.mdl with adapters := s.mdl.adapters.map (fun a =>
      let renewed := (ps.filter (fun p => p.bad.isEmpty && !p.cached && decide (65536 ≤ p.key) &&
        (p.key - 65536) / 256 == a.1)).flatMap (·.spans)
      (a.1, if renewed.isEmpty then a.2 else { a.2 with cells := refresh s renewed a.2.cells })) } }

/-- A module-level fault stands: an address that is not mapped (R208). -/
def faultUnmapped : Nat := 3

/-- A fetch of a layer has come in (R194, R246): whether all of it can be used, and the state. Every damaged block is recorded;
an access to an address that is not mapped is not performed (R208). -/
def takeFetch (ci layer : Nat) (c : Ctx) (l : LayerDesc) (s : State) : Bool × State :=
  let ps := fetchPieces s ci c layer l
  if !ps.all (Piece.mapped s) then (false, addFault faultUnmapped (raise .addressUnmapped s))
  else
    let s' := ps.foldl (fun s p => p.bad.foldl (fun s d => blockDamaged d.2 (if p.cached then fromGddr else fromTier2) s) s) s
    let twice := (masterBad ps).any (fun b => c.badBlocks.contains b)
    let s' := raiseIf (twice && !c.condemned) .weightsMasterDamaged (renewAdapters ps s')
    (ps.all (·.bad.isEmpty), { s' with mdl := { s'.mdl with ctxs := Tab.put ci (c.afterFetch s ps) s'.mdl.ctxs } })

/-- When layer `l` of a context begins to wait for its weights (R199): at its CUTOFF, by when its hidden states are in. -/
def waitFrom (s : State) (t : TideEntry) : Nat :=
  match slotFor s t.context (t.layer + 1) with
  | some u => slotInstant s u u.cutoff
  | none => slotInstant s t t.pfDeadline

/-- Layer 0 of a context is staged (R195): a damaged copy is fetched from the master at once, and again where the master is
damaged. -/
def stageLayer (ci : Nat) (s : State) : State :=
  match ctxOf s ci with
  | none => s
  | some c =>
    match c.layers.head? with
    | none => s
    | some l =>
      let once := fun (r : Bool × State) =>
        if r.1 then r else match ctxOf r.2 ci with
          | none => r
          | some c => takeFetch ci 0 c l (chargeFetch c l.stored r.2)
      let r := once (once (once (false, s)))
      if Tab.has (ci * 256) s.mdl.loads then s
      else setLoad (ci * 256) (if r.1 then .staged else .issued) r.2

/-- Contexts in the order of their slots in the table in force. -/
def tideContexts (s : State) : List Nat := distinct ((tideNow s).map (·.context))

/-- Layer 0 of the first contexts is staged during the boundary work; there are four layer buffers, and each of these contexts
needs a second one once it runs, so three are staged ahead (R195; which of them, DESIGN CHOICE, log 125). -/
def stageFirst (s : State) : State := ((tideContexts s).take 3).foldl (fun s ci => stageLayer ci s) s

/-- When the last layer of a context runs, layer 0 of the context three places on takes the buffer that no next layer needs. -/
def stageNext (t : TideEntry) (s : State) : State :=
  let last := ((ctxOf s t.context).map (fun c => c.layers.length)).getD 0
  if t.layer + 1 = last then
    match ((tideContexts s).dropWhile (· ≠ t.context))[3]? with
    | some ci => stageLayer ci s
    | none => s
  else s

/-- SLOT_OPEN (R60, R61): the items of the slot may start. -/
def execSlotOpen (slot : Nat) (s : State) : Host.Outcome State Fault Refusal :=
  match slotAt s slot with
  | none => .next s
  | some t =>
    .next (if inService s && !s.tmu.opened.contains slot then
      let s := setNow (slotInstant s t t.opens) s
      swapCheck (stageNext t (placeWaiting t { s with tmu := { s.tmu with opened := s.tmu.opened ++ [slot] } }))
    else s)

/-- Weights have come in (R195, R199, R246): checked, then staged; damage means another fetch. A wait for them is taken
from the slack and delays the context. -/
def fetched (t : TideEntry) (key : Nat) (c : Ctx) (l : LayerDesc) (late : Bool) (s : State) : State :=
  let r := takeFetch t.context (t.layer + 1) c l (chargeFetch c l.stored s)
  let s := r.2
  if !r.1 then s
  else
    let s := if c.homeCxl then noteLines (cdiv l.stored 256) 7168 s else s
    let waited := if late then s.tmu.now - waitFrom s t else 0
    let s := addDelay t.context waited s
    swapCheck (setLoad key .staged { s with mdl := { s.mdl with slackUsed := s.mdl.slackUsed + nsCycles waited } })

/-- PREFETCH_COMPLETE (R195, R199). -/
def execPrefetchComplete (slot : Nat) (s : State) : Host.Outcome State Fault Refusal :=
  match prefetchOf s slot with
  | none => .next s
  | some (t, key, c, l) =>
    if inService s then
      match Tab.look key s.mdl.loads with
      | some .issued => .next (fetched t key c l false s)
      | some .late => .next (fetched t key c l true s)
      | _ => .next s
    else .next s

/-- PREFETCH_DEADLINE (R199): weights that are not there are late. The record names the context where others name a handle (log 96).
In replay the records say which weights are late (R333). -/
def execPrefetchDeadline (slot : Nat) (s : State) : Host.Outcome State Fault Refusal :=
  match prefetchOf s slot with
  | none => .next s
  | some (t, key, _, _) =>
    if inService s && liveTime s && Tab.look key s.mdl.loads == some .issued then
      let s := setNow (slotInstant s t t.pfDeadline) s
      .next (disposition 3 t.context (t.layer + 1) (delayOf s t.context)
        (raise .weightsLate (bump cWLate 1 (setLoad key .late s))))
    else .next s

/-! ## Deferral (R200) -/

/-- Slack of a sequence for the order of deferral: DEADLINE − NEXT_STEP while its first token is pending. -/
def deferSlack (e : Seq) : Int := if e.generated = 0 then (e.deadline : Int) - e.nextStep else 0

/-- A sequence still has items in the step. -/
def hasItems (s : State) (e : Seq) : Bool :=
  s.car.items.any (fun i => !i.done && (i.handle == e.handle || i.batch.any (fun b => b.1 == e.handle)))

/-- Whole sequences in the order in which they are deferred: those with something left to remove. -/
def deferOrder (s : State) : List (Nat × Seq) :=
  let key := fun (e : Nat × Seq) => [2 - e.2.cls, (2 ^ 49 - deferSlack e.2).toNat, 2 ^ 32 - e.2.handle]
  sortBy (fun a b => lexLe (key a) (key b)) ((workingSeqs s (stepNo s)).filter (fun e => !e.2.deferred && hasItems s e.2))

/-- Worst-case cycles of the slots that have not closed, without some sequences. -/
def spansLeft (s : State) (without : List Nat) : Nat :=
  let lds := ((s.sqs.seqs.filter (fun e => !e.2.deferred && !without.contains e.1)).map (·.2)).filterMap (seqLoadAt (stepNo s))
  let contexts := loadContexts lds
  ((tideNow s).map (fun t =>
    if slotInstant s t t.close ≤ s.tmu.now then 0
    else (((contextSpans s (coreCount s) true contexts lds t.context)[t.layer]?).getD none).getD 0)).sum

/-- How many sequences of the order have to go: the first number that covers the overrun, or that takes every sequence of
the late context. -/
def deferCount (s : State) (context overrun : Nat) (order : List (Nat × Seq)) : Nat :=
  let whole := spansLeft s []
  let enough := fun k =>
    let gone := order.take k
    decide (overrun ≤ whole - spansLeft s (gone.map (·.1))) || (order.drop k).all (fun e => e.2.context != context)
  (firstFrom enough 0 order.length).getD order.length

/-- Every item that a sequence has left is taken from the list. -/
def pullItems (e : Seq) (s : State) : State :=
  let strip := fun (i : Item) => { i with batch := if i.done then i.batch else i.batch.filter (fun b => b.1 ≠ e.handle) }
  let keep := fun (i : Item) => i.done || !(i.handle == e.handle || (!i.batch.isEmpty && i.batch.all (fun b => b.1 == e.handle)))
  { s with car := { s.car with items := (s.car.items.filter keep).map strip } }

/-- A sequence leaves the step with every item it has left. -/
def deferSeq (slot : Nat) (e : Seq) (s : State) : State :=
  let s := pullItems e s
  disposition 4 e.handle 0 0 (raise .weightsDeferred (bump cWDefer 1 (updSeq slot (fun e => { e with deferred := true }) s)))

/-- The overrun of a stream is covered by deferral (R199 stage 3, R200). What slots remain is judged in `before`, when the stream
begins: its time has not yet delayed the context. -/
def deferFor (before : State) (context key overrun : Nat) (s : State) : State :=
  let order := deferOrder before
  let gone := order.take (deferCount before context overrun order)
  let s := gone.foldl (fun s e => deferSeq e.1 e.2 s) s
  if order.all (fun e => e.2.context != context || gone.any (fun g => g.1 == e.1)) then setLoad key .stopped s else s

/-- SLACK_EXHAUSTED (R199): the wait has used the slack of the step; the remaining bytes are streamed at the spillway
floor of 32 GB/s, on the spillway reserve, and an overrun defers sequences. -/
def execSlackExhausted (slot remaining : Nat) (s : State) : Host.Outcome State Fault Refusal :=
  match prefetchOf s slot with
  | none => .next s
  | some (t, key, c, _) =>
    if inService s && Tab.look key s.mdl.loads == some .late then
      let slack := slackLeft s
      let s := setNow (if slack = 0 then slotInstant s t t.pfDeadline else waitFrom s t + cyclesNs slack) s
      let s := addDelay t.context (cyclesNs slack) { s with mdl := { s.mdl with slackUsed := s.mdl.slackUsed + slack } }
      let before := s
      let ns := cdiv remaining 32
      let cycles := nsCycles ns
      let left := spillReserve s - s.mdl.spillUsed
      let s := noteLines (cdiv remaining 256) 1024 s
      let s := raise .spillwayEngaged (bump cSpill 1 (chargeFetch { c with homeCxl := true } remaining s))
      let s := addDelay t.context ns { s with mdl := { s.mdl with spillUsed := s.mdl.spillUsed + min cycles left } }
      let s := setLoad key .spillway s
      .next (swapCheck (if cycles ≤ left then s else deferFor before t.context key (cycles - left) s))
    else .next s

end Sys2Proof.Machine
end

