-- ==== Sys2Proof/Machine/Health.lean ====
section
/-! DEFINITION. Health: shadows, referees and mismatch records, scores and states of cores, hard faults, spares, the
states of dies, links (R40, R337 to R351). -/

namespace Sys2Proof.Machine

/-! ## Cores -/

/-- Set the record of a physical core. -/
def setCore (die phys : Nat) (c : Core) (s : State) : State :=
  { s with hlt := { s.hlt with cores := Tab.put (die * 64 + phys) c s.hlt.cores } }

/-- Change the record of a physical core. -/
def updCore (die phys : Nat) (f : Core → Core) (s : State) : State := setCore die phys (f (coreAt s die phys)) s

/-- Set the record of a die. -/
def setDie (d : Nat) (x : Die) (s : State) : State := { s with hlt := { s.hlt with dies := Tab.put d x s.hlt.dies } }

/-- Add to a score; it saturates (R344). -/
def addScore (die phys n : Nat) (s : State) : State :=
  updCore die phys (fun c => { c with score := min 65535 (c.score + n) }) s

/-- Seconds of network time. -/
def seconds (s : State) : Nat := s.tmu.now / 1000000000

/-- The physical core of a logical core has not been quarantined. -/
def coreLive (s : State) (core : Nat) : Bool := (coreAt s (core / 32) (physOf s core)).state != .quarantined

/-- The logical core that a physical core of a die serves. -/
def servedBy (s : State) (die phys : Nat) : Option Nat :=
  (List.range 32).find? (fun l => physOf s (die * 32 + l) == phys && !(dieOf s die).out.contains l)

/-- A core is quarantined (R345, R347): the health area records it, and it counts against the budget. -/
def quarantine (die phys cause : Nat) (s : State) : State :=
  let s := updCore die phys (fun c => { c with state := .quarantined, held := false }) s
  let d := dieOf s die
  let s := setDie die { d with quarantines := d.quarantines ++ [seconds s] } s
  bump cQuarantine 1 (queueFlash (.health (healthEntry die phys cause (stepNo s))) s)

/-! ## Items that lose their core (R346) -/

/-- Worst-case time at which a core is through with its items. -/
def coreLoad (s : State) (core : Nat) : Nat := ((s.car.items.filter (fun i => i.core == core && !i.done)).map (·.cost)).sum

/-- Items that lose their core move to the next step with their sequences (R24, R346). -/
def carryItems (items : List Item) (s : State) : State :=
  let hs := distinct ((items.map (fun i => if i.batch.isEmpty then [i.handle] else i.batch.map (·.1))).flatten)
  hs.foldl (fun s h =>
    match slotOf s h with
    | none => s
    | some slot =>
      match seqAt s slot with
      | none => s
      | some e => disposition 1 h (if e.decodes then e.layersRun else 0) 0 (pullItems e (updSeq slot (fun e => { e with carried := true }) s))) s

/-- Move one item to the core of its cluster that is free first. -/
def moveItem (i : Item) (s : State) : State :=
  let cores := (tableCores s).filter (fun k => k / 8 == i.core / 8 && k != i.core && coreLive s k)
  match earliestCore (cores.map (fun k => (k, coreLoad s k))) 0 cores with
  | none => s
  | some (_, k) => { s with car := { s.car with items := s.car.items.map (fun j => if j.id = i.id then { j with core := k } else j) } }

/-- The undone items of a logical core run again elsewhere in its cluster within the slack of the step, or in the next
step (R346). -/
def discardItems (core : Nat) (s : State) : State :=
  let mine := s.car.items.filter (fun i => i.core == core && !i.done)
  let cost := (mine.map (·.cost)).sum
  let cores := (tableCores s).filter (fun k => k / 8 == core / 8 && k != core && coreLive s k)
  if mine.isEmpty then s
  else if cores.isEmpty || decide (slackLeft s < cost) then carryItems mine s
  else mine.foldl (fun s i => moveItem i s) { s with mdl := { s.mdl with slackUsed := s.mdl.slackUsed + cost } }

/-- A hard fault (R344, R346): quarantine at once. -/
def hardFault (die phys cause : Nat) (s : State) : State :=
  let st := (coreAt s die phys).state
  if st == .quarantined || decide (33 < phys) || decide (7 < die) then s
  else
    let served := servedBy s die phys
    let s := raise .hardFault (quarantine die phys cause (updCore die phys (fun c => { c with score := 65535 }) s))
    match served with
    | some l => swapCheck (discardItems (die * 32 + l) s)
    | none => s

/-- ITEM_OVERRUN (R346). -/
def execItemOverrun (die phys : Nat) (s : State) : Host.Outcome State Fault Refusal :=
  .next (if inService s && (servedBy s die phys).isSome && (coreAt s die phys).state != .off then hardFault die phys 2 s else s)

/-- CORE_MEMORY_UE (R346). -/
def execCoreMemoryUe (die phys : Nat) (s : State) : Host.Outcome State Fault Refusal :=
  .next (if inService s && (coreAt s die phys).state != .off then hardFault die phys 2 s else s)

/-- CORE_MEMORY_CE (R344). -/
def execCoreMemoryCe (die phys : Nat) (s : State) : Host.Outcome State Fault Refusal :=
  .next (if inService s && decide (die < 8) && decide (phys < 34) then addScore die phys 4 (bump cCmCe 1 s) else s)

/-- The idle spares of all dies that run: die and index. -/
def idleSpares (s : State) : List (Nat × Nat) :=
  ((List.range 8).map (fun d => [(d, 32), (d, 33)])).flatten.filter (fun c => (coreAt s c.1 c.2).state == .idleSpare)

/-- Nanoseconds of an hour. -/
def hourNs : Nat := 3600000000000

/-- Instant of the next whole hour: now itself where it is one whose tick has not passed. -/
def hourInstant (s : State) : Nat :=
  if s.tmu.now % hourNs = 0 ∧ s.hlt.hourAt ≠ s.tmu.now / hourNs then s.tmu.now else (s.tmu.now / hourNs + 1) * hourNs

/-- HOUR_TICK (R344, R346): scores decay by one eighth, idle spares check themselves; `failed` names those that fail. -/
def execHourTick (failed : List (Nat × Nat)) (s : State) : Host.Outcome State Fault Refusal :=
  if inService s then
    let s := setNow (hourInstant s) s
    let s := { s with hlt := { s.hlt with
      cores := s.hlt.cores.map (fun e => (e.1, { e.2 with score := e.2.score - e.2.score / 8 })), hourAt := s.tmu.now / hourNs } }
    .next (((idleSpares s).filter (fun c => failed.contains c)).foldl (fun s c => hardFault c.1 c.2 3 s) s)
  else .next s

/-! ## Shadows and referees (R341 to R343) -/

/-- Code of an item kind in a mismatch record. -/
def ItemKind.code : ItemKind → Nat
  | .da => 1
  | .dh => 2
  | .pa => 3
  | .ps => 4
  | .rb => 5
  | .fm => 6
  | .norm => 0x10
  | .rotary => 0x11
  | .project _ _ => 0x12
  | .output _ => 0x12
  | .sample => 0x13

/-- Two's complement of a temperature in 16 bits. -/
def tempCode (t : Int) : Nat := (t % 65536).toNat

/-- The 64-byte mismatch record (R343). -/
def mismatchRecord (s : State) (m : Mismatch) (outcome : Nat) (ref : Option (List Byte)) : List Byte :=
  let i := m.item
  let body := le 6 i.step ++ le 1 i.kind.code ++ le 1 outcome ++ le 4 m.listIndex ++
    le 4 (if i.batch.isEmpty then i.handle else Config.none32) ++ le 1 i.layer ++ le 1 i.context ++ le 1 m.tenant ++ le 1 i.core ++
    le 2 m.primPhys ++ le 2 m.shadowPhys ++ le 2 (if ref.isSome then m.refPhys.getD 0xFFFF else 0xFFFF) ++
    le 2 (tempCode m.sensors.tempPrim) ++ le 2 (tempCode m.sensors.tempShadow) ++ le 2 m.sensors.railPrim ++
    le 2 m.sensors.railShadow ++ le 2 m.sensors.inputV ++ le 2 m.sensors.inputW ++ le 1 m.sensors.actPrim ++
    le 1 m.sensors.actShadow ++ le 1 (issueK s) ++ zeros 3 ++ le 4 (crc32c m.prim) ++ le 4 (crc32c m.shadow) ++
    le 4 ((ref.map crc32c).getD 0) ++ le 4 m.seqNo
  body ++ le 4 (crc32c body)

/-- Device physical address of the mismatch ring (R359). -/
def mismatchBase : Nat := Config.hdmBase + 0x1A00000

/-- An outcome of a fault charged to a core, by the temperature band of its die (R344). -/
def chargeFault (phys : Nat) (temp : Int) (s : State) : State :=
  let band := if temp < 480 then 0 else if temp < 600 then 1 else if temp < 720 then 2 else 3
  updCore (phys / 256) (phys % 256) (fun c => { c with
    score := min 65535 (c.score + 512), faults := sNext c.faults 1
    bands := setAt c.bands band (sNext (c.bands.getD band 0) 1) }) s

/-- An outcome without a culprit, charged to a core. -/
def chargeUnresolved (phys n : Nat) (s : State) : State :=
  updCore (phys / 256) (phys % 256) (fun c => { c with score := min 65535 (c.score + n), unresolved := sNext c.unresolved 1 }) s

/-- The outcome of a mismatch is known (R342, R343): scores, then the record. -/
def settleMismatch (m : Mismatch) (ref : Option (List Byte)) (s : State) : State :=
  let outcome := match ref with
    | none => 4
    | some r => if r = m.shadow then 1 else if r = m.prim then 2 else 3
  let s := if outcome = 1 then chargeFault m.primPhys m.sensors.tempPrim s
    else if outcome = 2 then chargeFault m.shadowPhys m.sensors.tempShadow s
    else if outcome = 3 then
      raise .mismatchUnresolved (chargeUnresolved m.shadowPhys 256 (chargeUnresolved m.primPhys 256 s))
    else chargeUnresolved m.shadowPhys 128 (chargeUnresolved m.primPhys 128 s)
  let s := writeMem (mismatchBase + m.seqNo % 4096 * 64) (mismatchRecord s m outcome ref) s
  { s with hlt := { s.hlt with
      mismatchHead := m.seqNo, mismatches := s.hlt.mismatches.filter (fun x => x.seqNo != m.seqNo) } }

/-- A physical core as a mismatch record names it. -/
def physName (s : State) (core : Nat) : Nat := core / 32 * 256 + physOf s core

/-- What a shadow or referee used is charged to dike 0 (R310); the spec gives its amounts no source, so they are free. -/
def chargeShadow (s : State) : State :=
  (List.range 5).foldl (fun s k => charge 0 k (Config.freeNat s.freeCtr) { s with freeCtr := s.freeCtr + 1 }) s

/-- The dike of an item; 0 for a batch of several. -/
def itemDike (s : State) (i : Item) : Nat :=
  if i.batch.isEmpty then tenantOf s i.handle
  else match distinct (i.batch.map (fun b => tenantOf s b.1)) with
    | [d] => d
    | _ => 0

/-- A mismatch (R341): the referee waits for the next step, or is skipped when the referee area is full. -/
def mismatch (i : Item) (shadowOn : Nat) (prim shadow : List Byte) (sensors : MismatchSensors) (s : State) : State :=
  let s := raise .shadowMismatch (bump cMismatch 1 s)
  let q := (s.hlt.mseq + 1) % 2 ^ 32
  let full := decide (64 ≤ s.hlt.mismatches.length)
  let m : Mismatch := { item := i, seqNo := q, primPhys := physName s i.core, shadowPhys := physName s shadowOn
                        refPhys := (shadowCore s shadowOn).map (physName s), prim := prim, shadow := shadow
                        sensors := sensors, listIndex := i.id % 2 ^ 22, tenant := itemDike s i
                        refStep := if full then none else some (i.step + 1) }
  let s := { s with hlt := { s.hlt with mseq := q, mismatches := s.hlt.mismatches ++ [m] } }
  if full then settleMismatch m none s else s

/-- SHADOW_COMPLETE (R341). -/
def execShadowComplete (item : Nat) (prim shadow : List Byte) (sensors : MismatchSensors) (s : State) :
    Host.Outcome State Fault Refusal :=
  match s.car.items.find? (fun i => i.id == item) with
  | none => .next s
  | some i =>
    if !inService s || !i.done || i.shadowed then .next s
    else
      let s := wEvent s.hlt.shadows (s.hlt.shadows + 1) 13 0x20 (chargeShadow s)
      let s := { s with
        hlt := { s.hlt with shadows := s.hlt.shadows + 1 }
        car := { s.car with items := s.car.items.map (fun j =>
          if j.id = item then { j with shadowed := true, page := none } else j) } }
      let s := match i.page with
        | some k => decRef k s
        | none => s
      .next (if prim = shadow then s else mismatch i ((shadowCore s i.core).getD i.core) prim shadow sensors s)

/-- REFEREE_COMPLETE (R342): no result is a referee that was not run. -/
def execRefereeComplete (mismatch : Nat) (result : Option (List Byte)) (s : State) : Host.Outcome State Fault Refusal :=
  match s.hlt.mismatches.find? (fun m => m.seqNo == mismatch) with
  | none => .next s
  | some m =>
    .next (if inService s && decide (m.refStep.getD 0 ≤ stepNo s) then
      settleMismatch m result (if result.isSome then chargeShadow s else s) else s)

/-! ## Action 2: states of cores (R345, R347, R348) -/

/-- The expulsion budget of a die allows one more (R347). -/
def expelOk (s : State) (die : Nat) : Bool :=
  decide (((dieOf s die).quarantines.filter (fun t => decide (seconds s < t + 86400))).length + 1 ≤ s.stw.charter.expel)

/-- A SUSPECT core of high score is expelled, or held by the budget. -/
def expel (die phys : Nat) (c : Core) (s : State) : State :=
  if expelOk s die then quarantine die phys 1 s
  else raiseIf (!c.deferredOnce) .expelDeferred (setCore die phys { c with held := true, deferredOnce := true } s)

/-- One core's score is tested. -/
def coreAction (die phys : Nat) (s : State) : State :=
  let c := coreAt s die phys
  match c.state with
  | .healthy => if 256 ≤ c.score then raise .suspectEntered (setCore die phys { c with state := .suspect } s) else s
  | .suspect =>
    if c.score < 128 then setCore die phys { c with state := .healthy, held := false } s
    else if c.score < 1024 then (if c.held then setCore die phys { c with held := false } s else s)
    else expel die phys c s
  | _ => s

/-- A logical core whose physical core is quarantined gets a spare, or goes out of service (R348). -/
def remapCore (die l : Nat) (s : State) : State :=
  let d := dieOf s die
  if d.out.contains l || coreLive s (die * 32 + l) then s
  else
    let d := { d with s0For := if d.s0For = some l then none else d.s0For, s1For := if d.s1For = some l then none else d.s1For }
    let take := fun phys (d : Die) s =>
      raise .spareSwitched (updCore die phys (fun c => { c with state := .healthy }) (setDie die d s))
    if (coreAt s die 32).state == .idleSpare then take 32 { d with s0For := some l } s
    else if (coreAt s die 33).state == .idleSpare then take 33 { d with s1For := some l } s
    else raise .coreOut (setDie die { d with out := d.out ++ [l] } s)

/-- A die whose cores run. -/
def dieRuns (s : State) (d : Nat) : Bool := (dieOf s d).state == .serving || (dieOf s d).state == .draining

/-- Core states at action 2. -/
def coresAction (s : State) : State :=
  (List.range 8).foldl (fun s d =>
    if dieRuns s d then
      (List.range 32).foldl (fun s l => remapCore d l s) ((List.range 34).foldl (fun s p => coreAction d p s) s)
    else s) s

/-! ## Dies (R350, R351) -/

/-- A die changes state. -/
def enterDie (d : Nat) (st : DieState) (s : State) : State :=
  raise .dieStateChanged (setDie d { dieOf s d with state := st, checked := false } s)

/-- The cores of a die are switched off, each with the state it returns to. -/
def coresOff (d : Nat) (s : State) : State :=
  (List.range 34).foldl (fun s p => updCore d p (fun c =>
    if c.state == .quarantined || c.state == .off then c else { c with state := .off, before := c.state }) s) s

/-- The cores of a die return to their states. -/
def coresOn (d : Nat) (s : State) : State :=
  (List.range 34).foldl (fun s p => updCore d p (fun c => if c.state == .off then { c with state := c.before } else c) s) s

/-- A die stops: items still on it move to the next step (R346, R350). -/
def stopDie (d : Nat) (st : DieState) (s : State) : State :=
  let mine := s.car.items.filter (fun i => i.core / 32 == d && !i.done)
  coresOff d (enterDie d st (if mine.isEmpty then s else carryItems mine s))

/-- DRAIN_DIE at action 2. -/
def doDrainDie (t : Ticket) (d : Nat) (force : Bool) (s : State) : State :=
  if 7 < d then refusedWith t causeRange s
  else if (dieOf s d).state != .serving then refusedWith t causeBusy s
  else done t (if force then stopDie d .drained s else enterDie d .draining s)

/-- A link is at full bandwidth. -/
def linkWhole (s : State) (l : Nat) : Bool :=
  let st := Tab.getD s.hlt.links l .up
  st == .up || st == .repaired

/-- READMIT_DIE at action 2. -/
def doReadmitDie (t : Ticket) (d : Nat) (s : State) : State :=
  if 7 < d then refusedWith t causeRange s
  else
    match (dieOf s d).state with
    | .drained => done t (enterDie d .readmitting s)
    | .failed => if linkWhole s d then done t (enterDie d .readmitting s) else refusedWith t causeBusy s
    | _ => refusedWith t causeBusy s

/-- Every committed step fits without the dies that drain. -/
def drainFits (s : State) (n : Nat) : Bool :=
  let fitsB := fun lds => match timeline s false lds with
    | some t => decide (t ≤ budgetB s)
    | none => false
  (List.range (lastChunkStep s + 1 - n)).all (fun k => fitsB (loadsAt s n (n + k) false)) && fitsB (finalLoads s n n false)

/-- Dies at action 2 of boundary `n`: a drain that is complete, a re-admission that is complete. -/
def diesAction (n : Nat) (s : State) : State :=
  (List.range 8).foldl (fun s d =>
    match (dieOf s d).state with
    | .draining => if drainFits s n then stopDie d .drained s else s
    | .readmitting => if (dieOf s d).checked then coresOn d (enterDie d .serving s) else s
    | _ => s) s

/-- SELF_CHECK_COMPLETE (R350): failing cores are quarantined without counting against the budget. -/
def execSelfCheckComplete (die : Nat) (failed : List Nat) (s : State) : Host.Outcome State Fault Refusal :=
  if inService s && (dieOf s die).state == .readmitting then
    let kept := (dieOf s die).quarantines
    let s := (failed.filter (· < 34)).foldl (fun s p =>
      if (coreAt s die p).state == .quarantined then s
      else raise .hardFault (quarantine die p 3 (updCore die p (fun c => { c with score := 65535 }) s))) s
    .next (setDie die { dieOf s die with checked := true, quarantines := kept } s)
  else .next s

/-! ## Links (R40) -/

/-- A port is withdrawn or comes back with its link (R40, R255). -/
def withdrawPort (p : Nat) (w : Bool) (s : State) : State :=
  let r := portOf s p
  if r.withdrawn = w then s
  else
    let s := raise .portChanged (setPort p { r with withdrawn := w } s)
    if w then movePort p s else s

/-- Module-level faults follow the links: rings and memory dies, both host links, both steward links. -/
def linkFaults (s : State) : State :=
  let s := ((List.range 8).map (· + 8)).foldl (fun s l => if linkWhole s l then dropFault (faultLink l) s else addFault (faultLink l) s) s
  [20, 22].foldl (fun s l =>
    if linkWhole s l || linkWhole s (l + 1) then dropFault (faultLink l) s else addFault (faultLink l) s) s

/-- Consequence of a link's state. -/
def linkConsequence (l : Nat) (s : State) : State :=
  let s := linkFaults s
  if l < 8 then
    (if linkWhole s l then s
     else match (dieOf s l).state with
       | .drained => s
       | .failed => s
       | _ => stopDie l .failed s)
  else if 16 ≤ l ∧ l < 20 then
    withdrawPort (2 * (l - 16) + 1) (!linkWhole s l) (withdrawPort (2 * (l - 16)) (!linkWhole s l) s)
  else s

/-- Set a link's state. -/
def setLink (l : Nat) (st : LinkState) (s : State) : State := { s with hlt := { s.hlt with links := Tab.put l st s.hlt.links } }

/-- The die-to-die links have been trained: from step 20 of start-up on (R393). -/
def linksTrained (s : State) : Bool := inService s || (s.stw.boot == .starting && s.stw.checked)

/-- D2D_LINK_FAILURE (R40): a loss of bandwidth that repair does not cover. -/
def execD2dLinkFailure (link : Nat) (down : Bool) (s : State) : Host.Outcome State Fault Refusal :=
  .next (if linksTrained s && decide (link < 24) then
    linkConsequence link (raise .linkDegraded (setLink link (if down then .down else .degraded) s)) else s)

/-- LANE_REPAIR (R40; log 45): the link is REPAIRED at full bandwidth, and what only its loss caused ends. -/
def execLaneRepair (link : Nat) (s : State) : Host.Outcome State Fault Refusal :=
  .next (if linksTrained s && decide (link < 24) then linkConsequence link (setLink link .repaired s) else s)

end Sys2Proof.Machine
end

