-- ==== Sys2Proof/Machine/Images.lean ====
section
/-! DEFINITION. Firmware images: their checks, live update, the attestation log, committing the security version
(R302 to R306, R392). -/

namespace Sys2Proof.Machine

/-- An event of the attestation log: its code and the SHA-384 of its content (R302). -/
def logEvent (code : Nat) (digest : List Byte) (s : State) : State :=
  let e := le 4 code ++ digest
  { s with sec := { s.sec with
      log := if s.sec.log.length < 256 then s.sec.log ++ [e] else s.sec.log
      events := s.sec.events + 1
      accumulated := sha384 (s.sec.accumulated ++ e) } }

/-- Bytes 0–175 of an image's header: what a running image is measured by (R301). -/
def imageHead (img : List Byte) : List Byte := img.take 176

/-- The security state of measurement 5: fused SVN, SVN of the running image, key revocation bits, test mode. -/
def securityState (s : State) : List Byte :=
  le 1 s.sec.fusedSvn ++ le 1 (fld s.sec.running 3 1) ++ le 1 s.sec.revoked ++ le 1 (b2n s.sec.testMode)

/-- The first check of R304 that an image fails, as SEC_UPDATE.CAUSE codes it; 0 for none. -/
def imageCause (s : State) (img : List Byte) (sigOk : Bool) : Nat :=
  let k := fld img 2 1
  let n := fld img 4 4
  if fld img 0 2 ≠ 1 || decide (3 < k) || decide (64 < fld img 3 1) || n == 0 || decide (16777216 < n) ||
     img.length ≠ 512 + n || !zeroAt img 13 3 || !zeroAt img 113 15 || !zeroAt img 272 240 then 1
  else if sha384 ((img.drop 16).take 97) ≠ Config.romKey k || bitOf s.sec.revoked k then 2
  else if !sigOk then 3
  else if sha384 (img.drop 512) ≠ (img.drop 128).take 48 then 4
  else if fld img 12 1 ≠ 0xA1 then 5
  else if fld img 3 1 < s.sec.fusedSvn then 6
  else 0

/-- An image is refused (R304). -/
def refuseImage (cause : Nat) (s : State) : State :=
  raise .imageRefused { s with sec := { s.sec with updCause := cause } }

/-- An update is under way that another command may not disturb (log 55). -/
def updateBusy (s : State) : Bool :=
  s.sec.upd == .verifying || s.sec.upd == .switching || s.sec.upd == .writingFlash

/-- STAGE_IMAGE at taking (R305): verification begins; a staged image is replaced. The image is read during verification (R365); in
replay it is the bytes of the record (log 128). -/
def doStageImage (t : Ticket) (h : CmdHead) (bytes : List Byte) (s : State) : State :=
  if updateBusy s then refusedWith t causeBusy s
  else { s with sec := { s.sec with
    upd := .verifying, staged := bytes, stageAt := if liveTime s then some (h.bodyAddr, h.bodyLen) else none, updTicket := some t } }

/-- The image under verification, as it is read now. -/
def imageRead (s : State) : List Byte :=
  match s.sec.stageAt with
  | some p => readMem s p.1 p.2
  | none => s.sec.staged

/-- The completion of the command whose outcome is awaited. -/
def updateDone (f : Ticket → State → State) (s : State) : State :=
  match s.sec.updTicket with
  | none => s
  | some t => f t { s with sec := { s.sec with updTicket := none } }

/-- IMAGE_VERIFY_COMPLETE (R304, R305). The cause code that the completion of a refused STAGE_IMAGE carries is open
(log 55). -/
def execImageVerifyComplete (sigOk : Bool) (s : State) : Host.Outcome State Fault Refusal :=
  if inService s && s.sec.upd == .verifying then
    let img := imageRead s
    let c := imageCause s img sigOk
    if c = 0 then
      .next (updateDone done { s with sec := { s.sec with upd := .staged, staged := img, stageAt := none, stagedAt := s.tmu.now } })
    else
      let k := freeBelow 12 s
      .next (updateDone (fun t s => refusedWith t (k.1 + 1) s)
        (refuseImage c { k.2 with sec := { k.2.sec with upd := .failed, staged := [], stageAt := none } }))
  else .next s

/-- STAGED_IMAGE_TIMEOUT (R305): 600 s without a switch. -/
def execStagedImageTimeout (s : State) : Host.Outcome State Fault Refusal :=
  if inService s && s.sec.upd == .staged then
    .next (setNow (s.sec.stagedAt + 600000000000) { s with sec := { s.sec with upd := .idle, staged := [] } })
  else .next s

/-- SWITCH_IMAGE at a boundary, after action 5 (R305). -/
def doSwitchImage (t : Ticket) (s : State) : State :=
  if s.sec.upd == .staged then { s with sec := { s.sec with upd := .switching, updTicket := some t } }
  else refusedWith t causeUnknown s

/-- FIRMWARE_SWITCH_COMPLETE (R300, R302, R305): the new image runs and is then written to flash. -/
def execFirmwareSwitchComplete (s : State) : Host.Outcome State Fault Refusal :=
  if inService s && s.sec.upd == .switching then
    let img := s.sec.staged
    let s := { s with sec := { s.sec with upd := .writingFlash, running := img, staged := [] } }
    let s := raise .firmwareSwitched (logEvent 5 (sha384 (imageHead img)) s)
    .next (queueFlash (.image img false) (updateDone done s))
  else .next s

/-- FLASH_WRITE_COMPLETE (R305, R392): an image has been written, or its write failed. -/
def execFlashWriteComplete (ok : Bool) (s : State) : Host.Outcome State Fault Refusal :=
  match s.stw.flashQueue with
  | .image bytes recovery :: _ =>
    if !inService s then .next s
    else if ok then
      let s := popFlash (writeFlash imageBase bytes s)
      .next (if recovery then raise .flashDone s else { s with sec := { s.sec with upd := .flashDone } })
    else
      let s := popFlash (breakFlash (.image bytes recovery) s)
      .next { s with sec := { s.sec with upd := .failed, updCause := 7 } }
  | _ => .next s

/-- COMMIT_SVN at taking (R306). -/
def doCommitSvn (t : Ticket) (s : State) : State :=
  if s.sec.upd == .flashDone then
    let s := { s with sec := { s.sec with fusedSvn := max s.sec.fusedSvn (fld s.sec.running 3 1) } }
    done t (logEvent 6 (sha384 (securityState s)) s)
  else refusedWith t causeBusy s

end Sys2Proof.Machine
end

