-- ==== Sys2Proof/Machine/Charter.lean ====
section
/-! DEFINITION. The charter: slots, classification, ranges, tier segments, the report, and replacing it (R377, R379 to
R388). -/

namespace Sys2Proof.Machine

/-! ## Fields -/

/-- The range of a charter field: continuous, or a set of legal values in rising order (R381). -/
inductive Range where
  | span (lo hi : Nat)
  | values (l : List Nat)
  deriving DecidableEq, Repr

/-- One row of the charter field table (R382). -/
structure CharterField where
  tag : Nat
  len : Nat
  range : Range
  default : Nat
  deriving DecidableEq, Repr

/-- The fields of tags 0x0001 to 0x001B, in tag order (R382). -/
def fieldTable : List CharterField :=
  [⟨0x0001, 1, .values [0, 1, 2], 2⟩, ⟨0x0002, 4, .span 1000 100000, 25000⟩, ⟨0x0003, 6, .span 0 (2 ^ 48 - 1), 0⟩,
   ⟨0x0004, 2, .values [128, 256, 512], 256⟩, ⟨0x0005, 1, .values [0, 1], 0⟩, ⟨0x0006, 1, .values [0, 1], 1⟩,
   ⟨0x0007, 1, .values [0, 1], 0⟩, ⟨0x0008, 1, .values [0, 1, 2], 0⟩, ⟨0x0009, 2, .span 0 16384, 16384⟩] ++
  [⟨0x000A, 4, .span 0 33554432, 33554432⟩, ⟨0x000B, 2, .span 0 1000, 1000⟩, ⟨0x000C, 1, .span 0 7, 0⟩,
   ⟨0x000D, 1, .span 0 127, 0⟩, ⟨0x000E, 2, .span 1200 1500, 1500⟩, ⟨0x000F, 2, .span 0 200, 40⟩,
   ⟨0x0010, 4, .span 0 1048320, 4096⟩, ⟨0x0011, 2, .span 10 1000, 40⟩, ⟨0x0012, 2, .span 0 4094, 0⟩] ++
  [⟨0x0013, 2, .span 1 65535, 2400⟩, ⟨0x0014, 1, .span 0 96, 48⟩, ⟨0x0015, 1, .values [0, 1], 0⟩,
   ⟨0x0016, 1, .values [0, 1, 2], 1⟩, ⟨0x0017, 2, .span 0 4096, 64⟩, ⟨0x0018, 1, .span 0 2, 1⟩,
   ⟨0x0019, 2, .span 0 4096, 1024⟩, ⟨0x001A, 1, .values [0, 1], 0⟩, ⟨0x001B, 1, .values [0, 1], 0⟩]

/-- The tag of TIER_SEGMENT. -/
def tierTag : Nat := 0x0020

/-- The value length of a tag of the table, none for another tag. -/
def fieldLen (tag : Nat) : Option Nat :=
  if tag = tierTag then some 16 else (fieldTable.find? (fun f => f.tag == tag)).map (·.len)

/-- The last INSTANCE a field has (R380). -/
def lastInstance (tag : Nat) : Nat := if tag = tierTag then 63 else 0

/-! ## Slots -/

/-- What a slot is found to be (R380). -/
inductive SlotClass where
  | empty
  | valid
  | failed
  | unknown
  | misplaced
  deriving DecidableEq, Repr

/-- Classify a slot of 32 bytes (R379, R380). -/
def classify (b : List Byte) : SlotClass :=
  if fld b 0 2 = 0xFFFF then .empty
  else if fld b 30 2 ≠ crc16 (b.take 30) then .failed
  else
    match fieldLen (fld b 0 2) with
    | none => .unknown
    | some n =>
      if lastInstance (fld b 0 2) < fld b 2 1 then .misplaced
      else if fld b 3 1 = n then .valid
      else .failed

/-- The slots of a region that are not empty: number, class, bytes. -/
def charterSlots (region : List Byte) : List (Nat × SlotClass × List Byte) :=
  ((chunks 32 region).zipIdx.map (fun p => (p.2, classify p.1, p.1))).filter (fun p => p.2.1 != .empty)

/-- A slot names a field and one of its instances. -/
def slotNames (tag inst : Nat) (b : List Byte) : Bool := fld b 0 2 == tag && fld b 2 1 == inst

/-- The slot a value is taken from (R380): the lowest-numbered valid one. -/
def winner (slots : List (Nat × SlotClass × List Byte)) (tag inst : Nat) : Option (Nat × List Byte) :=
  (slots.find? (fun p => p.2.1 == .valid && slotNames tag inst p.2.2)).map (fun p => (p.1, p.2.2))

/-- The lowest failed slot that names a field, all ones for none (R386). -/
def failedSlot (slots : List (Nat × SlotClass × List Byte)) (tag inst : Nat) : Nat :=
  ((slots.find? (fun p => p.2.1 == .failed && slotNames tag inst p.2.2)).map (·.1)).getD 0xFFFF

/-- A slot that is IGNORED: unknown, misplaced, failed with a tag that is not in the table, or valid and not the first of
its kind (R380). -/
def slotIgnored (slots : List (Nat × SlotClass × List Byte)) (p : Nat × SlotClass × List Byte) : Bool :=
  match p.2.1 with
  | .empty => false
  | .unknown => true
  | .misplaced => true
  | .failed => (fieldLen (fld p.2.2 0 2)).isNone
  | .valid => (winner slots (fld p.2.2 0 2) (fld p.2.2 2 1)).map (·.1) != some p.1

/-! ## Values -/

/-- Results of a report entry (R386). -/
def resOk : Nat := 0
def resLow : Nat := 1
def resHigh : Nat := 2
def resDefaulted : Nat := 3
def resIgnored : Nat := 4

/-- A value against its range: the value in force and the result (R381). -/
def clampTo (r : Range) (v : Nat) : Nat × Nat :=
  match r with
  | .span lo hi => if v < lo then (lo, resLow) else if hi < v then (hi, resHigh) else (v, resOk)
  | .values l =>
    if l.contains v then (v, resOk)
    else if maxOf l < v then (maxOf l, resHigh)
    else (((l.filter (fun x => decide (x < v))).getLast?).getD (l.headD 0), resLow)

/-- A report entry of 32 bytes (R386). -/
def reportEntry (tag inst result slot : Nat) (value : List Byte) : List Byte :=
  le 2 tag ++ le 1 inst ++ le 1 result ++ le 2 slot ++ fit 26 value

/-- A single field: its value in force and its report entry. -/
def readField (slots : List (Nat × SlotClass × List Byte)) (f : CharterField) : Nat × List Byte :=
  match winner slots f.tag 0 with
  | some (k, b) =>
    let c := clampTo f.range (fld b 4 f.len)
    (c.1, reportEntry f.tag 0 c.2 k (le f.len c.1))
  | none => (f.default, reportEntry f.tag 0 resDefaulted (failedSlot slots f.tag 0) (le f.len f.default))

/-- The charter of the values of the single fields, in tag order. -/
def charterOf (v : List Nat) : Charter :=
  let g := fun i => v.getD i 0
  { role := g 0, stepPeriod := g 1, gridEpoch := g 2, pageSize := g 3, repro := g 4, statusClear := g 5
    counterEvents := g 6, cancelPolicy := g 7, maxSeq := g 8, maxPage := g 9, maxShare := g 10, timePort := g 11
    timeDomain := g 12, powerCap := g 13, spill := g 14, winQuota := g 15, resend := g 16, vlan := g 17
    rehomeWait := g 18, weightCache := g 19, kvAlloc := g 20, kvDurable := g 21, fragPool := g 22, expel := g 23
    journalMib := g 24, journalLevel := g 25, replay := g 26 }

/-! ## Tier segments (R221, R385) -/

/-- A tier segment record that is unused. -/
def noSegment : Segment := ⟨0, 0, 0, 0, 0, .unused, 0⟩

/-- A segment record's clamps (R381): its fields with reserved bits cleared, and the strongest result. -/
def clampSegment (b : List Byte) : Segment × Nat :=
  let w0 := fld b 0 2
  let w1 := fld b 2 2
  let w2 := fld b 4 2
  let size := clampTo (.span 1 16384) (w1 % 32768)
  let rsvd := decide (32768 ≤ w1) || decide (4096 ≤ w2) || !zeroAt b 6 2
  (⟨w0 % 16384, w0 / 16384, size.1, w2 % 4096, fld b 8 8, .active, 0⟩, max size.2 (if rsvd then resLow else resOk))

/-- The record's bytes as a charter value. -/
def segmentValue (g : Segment) : List Byte :=
  le 2 (g.base + 16384 * g.ports) ++ le 2 g.size ++ le 2 g.pbr ++ zeros 2 ++ le 8 g.target

/-- A segment may not come into force (R385). -/
def segmentBad (before : List Segment) (g : Segment) : Bool :=
  decide (16384 < g.base + g.size) || decide (g.target % 2 ^ 30 ≠ 0) ||
  before.any (fun h => h.state == .active && decide (h.base < g.base + g.size) && decide (g.base < h.base + h.size))

/-- One instance of TIER_SEGMENT after those before it: its record, and its report entry if a slot names it (R380, R385,
R386). An instance that is not in force has the value of an unused record (DEDUCED, log 70). -/
def readSegment (slots : List (Nat × SlotClass × List Byte)) (before : List Segment) (inst : Nat) :
    Segment × List (List Byte) :=
  match winner slots tierTag inst with
  | some (k, b) =>
    let c := clampSegment (b.drop 4)
    if c.1.ports = 0 then (noSegment, [reportEntry tierTag inst c.2 k []])
    else if segmentBad before c.1 then (noSegment, [reportEntry tierTag inst resIgnored k []])
    else (c.1, [reportEntry tierTag inst c.2 k (segmentValue c.1)])
  | none =>
    let f := failedSlot slots tierTag inst
    (noSegment, if f = 0xFFFF then [] else [reportEntry tierTag inst resDefaulted f []])

/-- All instances in ascending order: 64 records, and the report entries. -/
def readSegments (slots : List (Nat × SlotClass × List Byte)) : List Segment × List (List Byte) :=
  (List.range 64).foldl (fun acc i =>
    let r := readSegment slots acc.1 i
    (acc.1 ++ [r.1], acc.2 ++ r.2)) ([], [])

/-! ## The whole charter -/

/-- What a charter region gives: the charter, the segments, the report in its three groups (R386). -/
def readCharter (region : List Byte) : Charter × List Segment × List (List Byte) :=
  let slots := charterSlots region
  let fields := fieldTable.map (readField slots)
  let segs := readSegments slots
  let rest := (slots.filter (slotIgnored slots)).map (fun p =>
    reportEntry (fld p.2.2 0 2) (fld p.2.2 2 1) resIgnored p.1 ((p.2.2.drop 4).take 26))
  (charterOf (fields.map (·.1)), segs.1, fields.map (·.2) ++ segs.2 ++ rest)

/-- The boot ROM reads the charter (R387, R391): a flash that does not respond reads as all ones. -/
def applyCharter (region : List Byte) (s : State) : State :=
  let c := readCharter region
  { s with
    stw := { s.stw with charter := c.1, report := c.2.2 }
    tir := { s.tir with segments := c.2.1 }
    sec := { s.sec with charterDigest := sha384 region, reportDigest := sha384 c.2.2.flatten } }

/-- Entries of the report with a result. -/
def reportCount (s : State) (result : Nat) : Nat := (s.stw.report.filter (fun e => fld e 3 1 == result)).length

/-! ## The health area (R377) -/

/-- The physical core that a health area entry names, if it is valid. -/
def healthCore (e : List Byte) : Option (Nat × Nat) :=
  if fld e 14 2 = crc16 (e.take 14) ∧ fld e 0 1 ≤ 7 ∧ fld e 1 1 ≤ 33 then some (fld e 0 1, fld e 1 1) else none

/-- The cores that the health area names. -/
def healthCores (s : State) : List (Nat × Nat) := (chunks 16 (flashBytes s healthBase 65536)).filterMap healthCore

/-! ## Replacing the charter (R388) -/

/-- A charter write ended FAILED. -/
def charterFailed (s : State) : State := raise .charterFailed { s with stw := { s.stw with charterState := 4 } }

/-- A charter write waits or runs. -/
def charterBusy (s : State) : Bool :=
  s.stw.flashQueue.any (fun w => match w with | .charter _ => true | _ => false)

/-- STW_CHARTER_CTRL.WRITE: the image at `a` is copied at once and waits its turn. -/
def doCharterWrite (a : Nat) (s : State) : State :=
  if charterBusy s || !inHdm a charterBytes then charterFailed s
  else queueFlash (.charter (readMem s a charterBytes)) { s with stw := { s.stw with charterState := 1 } }

/-- The address that STW_CHARTER_SRC_LO and STW_CHARTER_SRC_HI hold. -/
def charterSrc (s : State) : Nat :=
  Tab.getD s.hif.rw (regAddr 0 0x200) 0 + 2 ^ 32 * Tab.getD s.hif.rw (regAddr 0 0x204) 0

/-- STW registers act from step 2 of the power-up on (R389, R395). -/
def stwOn (s : State) : Bool := decide (2 ≤ s.stw.powerStep)

/-- CHARTER_WRITE: the host has placed an image and writes STW_CHARTER_CTRL.WRITE. -/
def execCharterWrite (placed : Placed) (s : State) : Host.Outcome State Fault Refusal :=
  .next (if stwOn s then (let s := place placed s; doCharterWrite (charterSrc s) s) else s)

/-- CHARTER_WRITE_COMPLETE: the write at the front ends DONE, or FAILED with its region in part programmed. -/
def execCharterWriteComplete (ok : Bool) (s : State) : Host.Outcome State Fault Refusal :=
  match s.stw.flashQueue with
  | .charter image :: _ =>
    if ok then
      .next (popFlash (raise .charterDone (writeFlash charterBase image { s with stw := { s.stw with charterState := 3 } })))
    else .next (popFlash (charterFailed (breakFlash (.charter image) s)))
  | _ => .next s

end Sys2Proof.Machine
end

