-- ==== Sys2Proof/Machine/Checkpoint.lean ====
section
/-! DEFINITION. Checkpoints of a keeper's sequences to the host (R31, R352, R353). -/

namespace Sys2Proof.Machine

/-- Device physical address of the checkpoint ring, and its units of 64 bytes (R359). -/
def ckptBase : Nat := Config.hdmBase + 0x80000000
def ckptUnits : Nat := 33554432

/-- Units free; one stays empty. -/
def ckptRoom (s : State) : Nat := ckptUnits - 1 - (s.hlt.ckptHead + ckptUnits - s.hlt.ckptTail % ckptUnits) % ckptUnits

/-- Checkpoint count of a dike. -/
def ckptCount (s : State) (d : Nat) : Nat := Tab.getD s.hlt.ckptSeq d 0

/-- Tweak of a record's body. -/
def ckptTweak (keeper handle seq kind : Nat) : Nat := keeper + handle * 2 ^ 32 + seq * 2 ^ 64 + kind * 2 ^ 96

/-- A record as stored: header, and body padded and encrypted under the dike's memory key. -/
def ckptBytes (s : State) (n : Nat) (r : CkptRec) : List Byte :=
  let q := ckptCount s r.tenant
  let body := xts (Tab.getD s.sec.memory r.tenant 0) (ckptTweak s.fab.node r.handle q r.kind) (padTo 64 r.body)
  let head := le 1 r.kind ++ le 1 r.tenant ++ zeros 2 ++ le 4 r.handle ++ le 4 s.fab.node ++ le 4 q ++ le 6 n ++ zeros 2 ++
    le 4 r.first ++ le 4 r.count ++ le 4 body.length ++ zeros 24
  head ++ le 4 (crc32c (head ++ body)) ++ body

/-- Units of a record. -/
def CkptRec.units (r : CkptRec) : Nat := 1 + cdiv r.body.length 64

/-- Write a record at HLT_CKPT_HEAD. -/
def putCkpt (n : Nat) (r : CkptRec) (s : State) : State :=
  let s := ringWrite ckptBase ckptUnits s.hlt.ckptHead (ckptBytes s n r) s
  { s with hlt := { s.hlt with ckptHead := (s.hlt.ckptHead + r.units) % ckptUnits } }

/-- A record other than a checkpoint's waits to be written. -/
def oweCkpt (r : CkptRec) (s : State) : State := { s with hlt := { s.hlt with ckptOwed := s.hlt.ckptOwed ++ [r] } }

/-- Records that wait are written in their order while they fit. -/
def flushOwed (n : Nat) : List CkptRec → State → State
  | [], s => s
  | r :: t, s =>
    if r.units ≤ ckptRoom s then flushOwed n t (putCkpt n r { s with hlt := { s.hlt with ckptOwed := t } }) else s

/-- A sequence of which this module is the keeper. -/
def Seq.keptHere (e : Seq) : Bool := !e.isMember

/-- SEQUENCE record of an entry: its 256 bytes and the ids added since the last one written. -/
def seqRecord (s : State) (slot : Nat) (e : Seq) : CkptRec :=
  let first := Tab.getD s.hlt.ckptDone slot 0
  let ids := (histOf s slot).drop first
  { kind := 1, tenant := e.tenant, handle := e.handle, first := first, count := ids.length
    body := e.bytes ++ (ids.map (le 4)).flatten }

/-- END record of an entry that becomes FREE. -/
def endRecord (e : Seq) : CkptRec := { kind := 3, tenant := e.tenant, handle := e.handle, first := 0, count := 0, body := [] }

/-- DURABLE records of the sequences that hold pages which have become protected. -/
def durableRecords (s : State) (pages : List Nat) : List CkptRec :=
  (s.sqs.seqs.filter (fun e => roleC s && e.2.keptHere)).filterMap (fun e =>
    let refs := (e.2.layers.mapIdx (fun l p => (p.list.filter (fun i => pages.contains i)).map (fun i =>
      le 1 l ++ zeros 1 ++ le 2 (((descAt s i).map (·.generation)).getD 0) ++ le 4 i))).flatten
    if refs.isEmpty then none
    else some { kind := 2, tenant := e.2.tenant, handle := e.2.handle, first := 0, count := refs.length, body := refs.flatten })

/-- The checkpoint of one dike at boundary `n`: whole, or skipped and due again (R353). -/
def checkpointDike (n d : Nat) (s : State) : State :=
  let mine := s.sqs.seqs.filter (fun e => roleC s && e.2.tenant == d && e.2.keptHere)
  let recs := mine.map (fun e => (e.1, seqRecord s e.1 e.2))
  let again := s.hlt.ckptDue.filter (· ≠ d)
  if ckptRoom s < (recs.map (fun r => r.2.units)).sum then
    raise .checkpointSkipped (bump cCkptSkip 1 { s with hlt := { s.hlt with ckptDue := again ++ [d] } })
  else
    let s := { s with hlt := { s.hlt with ckptDue := again, ckptSeq := Tab.put d ((ckptCount s d + 1) % 2 ^ 32) s.hlt.ckptSeq } }
    recs.foldl (fun s r =>
      let s := putCkpt n r.2 s
      { s with hlt := { s.hlt with ckptDone := Tab.put r.1 (r.2.first + r.2.count) s.hlt.ckptDone } }) s

/-- Multiples of a dike's interval that have passed at an instant. -/
def ckptIndex (now interval : Nat) : Nat := now / (interval * 1000000000)

/-- Checkpoints at boundary `n`: dikes whose interval has come, with the write-back of their objects (R218), and those
skipped before. -/
def checkpoints (n : Nat) (s : State) : State :=
  let s := flushOwed n s.hlt.ckptOwed s
  s.sec.leases.foldl (fun s l =>
    let i := ckptIndex s.tmu.now l.2.ckpt
    if Tab.getD s.hlt.ckptAt l.1 0 < i then
      checkpointDike n l.1 (checkpointObjects l.1 { s with hlt := { s.hlt with ckptAt := Tab.put l.1 i s.hlt.ckptAt } })
    else if s.hlt.ckptDue.contains l.1 then checkpointDike n l.1 s
    else s) s

end Sys2Proof.Machine
end

