-- ==== Sys2Proof/Machine/Commands.lean ====
section
/-! DEFINITION. The host-ring commands that a boundary applies: leases, keys, code tables, objects, composition maps
(R17 to R19, R28 to R30, R211, R213, R236, R269, R292 to R297, R365, R366, R383). -/

namespace Sys2Proof.Machine

/-! ## Leases (R28 to R30, R153, R383) -/

/-- Fields of a lease lie in their ranges. -/
def leaseRangeOk (o : LeaseOps) : Bool :=
  decide (o.cls ≤ 2) && decide (o.orphan ≤ 1) && decide (o.share ≤ 1000) && decide (o.seqQuota ≤ 16384) &&
  decide (o.pageQuota ≤ 33554432) && decide (1 ≤ o.ckpt) && decide (o.ckpt ≤ 600)

/-- Sum of RESERVED_SHARE over the GUARANTEED leases but one. -/
def sharesWithout (s : State) (d : Nat) : Nat :=
  ((s.sec.leases.filter (fun e => e.1 != d && e.2.cls == 0)).map (fun e => e.2.share)).sum

/-- The cause that refuses a lease command, if any (R29). Of a command that ends a lease only the tenant is tested: the spec
does not say whether its other fields meet the RANGE and ENVELOPE tests (log 121, DESIGN CHOICE). -/
def leaseCause (s : State) (d : Nat) (o : LeaseOps) : Option Nat :=
  let c := s.stw.charter
  if o.cls = 0xFF ∧ !Tab.has d s.sec.leases then some causeUnknown
  else if d = 0 then some causeRange
  else if o.cls = 0xFF then none
  else if !leaseRangeOk o then some causeRange
  else if c.maxSeq < o.seqQuota ∨ c.maxPage < o.pageQuota ∨ c.maxShare < o.share then some causeEnvelope
  else if o.cls = 0 ∧ 1000 < sharesWithout s d + o.share then some causeOvercommit
  else none

/-- A quota below the use of now is lowered; under an earlier mark so is one that the use has not fallen below (R30). -/
def lowered (quota use : Nat) (marked : Bool) : Bool := decide (quota < use) || (marked && decide (quota ≤ use))

/-- The lease that a command makes: a share counts under GUARANTEED only; a quota lowered below the use of now is marked, and
a mark that stands goes only once the use is below the quota (R28, R30). -/
def leaseFrom (s : State) (d : Nat) (o : LeaseOps) : Lease :=
  { cls := o.cls, orphan := o.orphan, share := if o.cls = 0 then o.share else 0, seqQuota := o.seqQuota
    pageQuota := o.pageQuota, ckpt := o.ckpt, models := o.models
    seqLowered := lowered o.seqQuota (seqsOf s d) (((leaseOf s d).map (·.seqLowered)).getD false)
    pageLowered := lowered o.pageQuota (pagesOf s d) (((leaseOf s d).map (·.pageLowered)).getD false) }

/-- The next tally says that the dike's lease changed (R313). -/
def markLease (d : Nat) (s : State) : State := setAcct d { acctOf s d with leaseChanged := true } s

/-- A lease begins or changes (R281). -/
def putLease (d : Nat) (o : LeaseOps) (s : State) : State :=
  let known := Tab.has d s.sec.leases
  let l := leaseFrom s d o
  let s := { s with
    sec := { s.sec with leases := Tab.put d l s.sec.leases, ended := s.sec.ended.filter (· ≠ d) }
    hlt := { s.hlt with ckptAt := Tab.put d (ckptIndex (s.tmu.now - 1) o.ckpt) s.hlt.ckptAt } }
  let s := if known then requantum d o.cls s else setIntake d true (grantQueues d o.cls s)
  markLease d s

/-- A lease ends (R269, R283, R297). -/
def endLease (d : Nat) (s : State) : State :=
  let s := { s with
    sec := { s.sec with leases := Tab.del d s.sec.leases, ended := distinct (s.sec.ended ++ [d]) }
    hlt := { s.hlt with ckptDue := s.hlt.ckptDue.filter (· ≠ d) } }
  markLease d (revokeDike d (flushDike d (setIntake d false s)))

/-- LEASE at action 2. -/
def doLease (t : Ticket) (d : Nat) (o : LeaseOps) (s : State) : State :=
  match leaseCause s d o with
  | some c => refusedWith t c s
  | none => done t (if o.cls = 0xFF then endLease d s else putLease d o s)

/-- A lowered quota whose use has fallen below it is an ordinary quota again (R30). -/
def refreshLeases (s : State) : State :=
  { s with sec := { s.sec with leases := s.sec.leases.map (fun e =>
      (e.1, { e.2 with seqLowered := e.2.seqLowered && !decide (seqsOf s e.1 < e.2.seqQuota)
                       pageLowered := e.2.pageLowered && !decide (pagesOf s e.1 < e.2.pageQuota) })) } }

/-- The prefix table lets go of dikes without a lease (R131). -/
def dropForeign (s : State) : State :=
  (distinct ((Tab.vals s.pgm.prefixes).map (·.tenant))).foldl (fun s d =>
    if Tab.has d s.sec.leases then s else dropPrefixesOf d s.pgm.prefixes.length s) s

/-! ## Keys (R292 to R297) -/

/-- KIND, TARGET and VERSION of a blob. -/
def blobKind (b : List Byte) : Nat := fld b 0 1
def blobTarget (b : List Byte) : Nat := fld b 1 1
def blobVersion (b : List Byte) : Nat := fld b 2 1 % 2

/-- Wire keys of a dike, or of the group under 0. -/
def wireOf (s : State) (d : Nat) : WireKeys := Tab.getD s.sec.wire d {}

/-- A version's key. -/
def WireKeys.slot (w : WireKeys) (v : Nat) : Option Nat := if v = 0 then w.v0 else w.v1

/-- Put or take away a version's key. -/
def WireKeys.put (w : WireKeys) (v : Nat) (k : Option Nat) : WireKeys := if v = 0 then { w with v0 := k } else { w with v1 := k }

/-- Condition 1: bound to this module and boot, and later than every blob before it. -/
def blobFresh (s : State) (b : List Byte) : Bool :=
  (b.drop 24).take 8 == (s.sec.identity.drop 20).take 8 && (b.drop 8).take 16 == s.sec.nonce &&
  (match s.sec.installSeq with
   | none => true
   | some q => decide (q < fld b 4 4))

/-- Condition 3: KIND known on its way in (`doe`), TARGET in range, RSVD zero. -/
def blobRangeOk (b : List Byte) (doe : Bool) : Bool :=
  let t := blobTarget b
  decide (fld b 2 1 < 2) && zeroAt b 3 1 && zeroAt b 129 15 && zeroAt b 224 32 &&
  (match blobKind b with
   | 1 => !doe && decide (1 ≤ t)
   | 2 => !doe && decide (1 ≤ t)
   | 3 => !doe && decide (t < 64)
   | 4 => !doe && t == 0
   | 5 => !doe
   | 6 => !doe
   | 0x10 => doe
   | _ => false)

/-- Condition 4: what the blob names is there; `stream` says whether the port has the IDE stream configured. -/
def blobKnown (s : State) (b : List Byte) (stream : Bool) : Bool :=
  let t := blobTarget b
  match blobKind b with
  | 3 => !Tab.has t s.mdl.ctxs
  | 4 => true
  | 0x10 => stream
  | 1 => Tab.has t s.sec.leases
  | 2 => Tab.has t s.sec.leases
  | _ => t == 0 || Tab.has t s.sec.leases

/-- Condition 5. -/
def blobReady (s : State) (b : List Byte) : Bool :=
  let t := blobTarget b
  let v := blobVersion b
  let w := wireOf s t
  match blobKind b with
  | 1 => !Tab.has t s.sec.memory
  | 2 => w.active != some v
  | 4 => w.active != some v
  | 5 => (w.slot v).isSome
  | 6 => (w.slot v).isSome && w.active != some v
  | _ => true

/-- The cause of a blob's outcome, 0 for accepted (R293). -/
def blobCause (s : State) (b : List Byte) (opened : Option (List Byte)) (doe stream : Bool) : Nat :=
  if !blobFresh s b then causeStale
  else if opened.isNone then causeAuth
  else if !blobRangeOk b doe then causeRange
  else if !blobKnown s b stream then causeUnknown
  else if !blobReady s b then causeBusy
  else 0

/-- Set the wire keys of a dike. -/
def setWire (d : Nat) (w : WireKeys) (s : State) : State := { s with sec := { s.sec with wire := Tab.put d w s.sec.wire } }

/-- A wire key is installed: its nonce counter starts at 1, and the first install of version 0 makes it active (R259,
R295; log 46). -/
def installWire (d v key : Nat) (s : State) : State :=
  let w := wireOf s d
  let w := w.put v (some key)
  let s := setWire d (if v = 0 ∧ w.active = none then { w with active := some 0 } else w) s
  { s with fab := { s.fab with
      nonce := Tab.put (d * 2 + v) 1 s.fab.nonce, exhausted := s.fab.exhausted.filter (· ≠ d * 2 + v) } }

/-- An accepted blob takes effect. -/
def applyBlob (b key : List Byte) (port : Nat) (s : State) : State :=
  let t := blobTarget b
  let v := blobVersion b
  match blobKind b with
  | 1 => { s with sec := { s.sec with memory := Tab.put t (unle (key.take 64)) s.sec.memory } }
  | 2 => installWire t v (unle (key.take 32)) s
  | 3 => { s with sec := { s.sec with model := Tab.put t (unle (key.take 64)) s.sec.model } }
  | 4 => installWire 0 v (unle (key.take 32)) s
  | 5 => setWire t { wireOf s t with active := some v } s
  | 6 => setWire t ((wireOf s t).put v none) s
  | _ => { s with sec := { s.sec with ide := Tab.put (port * 256 + t) (unle (key.take 32)) s.sec.ide } }

/-- A blob meets its tests: threshold, effect, SEC_KEY_RESULT, counts. -/
def takeBlob (b : List Byte) (opened : Option (List Byte)) (doe : Bool) (port cause : Nat) (s : State) : State :=
  let s := if cause = causeStale then s else { s with sec := { s.sec with installSeq := some (fld b 4 4) } }
  let s := { s with sec := { s.sec with
    keyResult := blobKind b * 2 ^ 24 + cause * 2 ^ 16 + b2n (doe && port == 1) * 2 ^ 15 + blobVersion b * 256 + blobTarget b } }
  if cause = 0 then applyBlob b (opened.getD []) port s else raise .keyRefused (bump cKeyRefuse 1 s)

/-- INSTALL_KEY at action 2. -/
def doInstallKey (t : Ticket) (b : List Byte) (opened : Option (List Byte)) (s : State) : State :=
  let cause := blobCause s b opened false false
  let s := takeBlob b opened false 0 cause s
  if cause = 0 then done t s else refusedWith t cause s

/-- Frames of a dike in the queues. -/
def queuedOf (s : State) (d : Nat) : Bool :=
  (Tab.vals s.wei.queues).any (fun w => (Tab.vals w.inst).any (fun l => l.any (fun f => f.dike == d)))

/-- Dikes whose lease has ended lose their keys once nothing of them is left (R297). -/
def eraseKeys (s : State) : State :=
  let idle := s.sec.ended.filter (fun d =>
    !(Tab.vals s.sqs.seqs).any (fun e => e.tenant == d) && !(Tab.vals s.pgm.descs).any (fun x => x.tenant == d) &&
    decide (poldersOf s d = 0) && !queuedOf s d)
  idle.foldl (fun s d => raise .keysErased { s with sec := { s.sec with
    ended := s.sec.ended.filter (· ≠ d), memory := Tab.del d s.sec.memory, wire := Tab.del d s.sec.wire } }) s

/-! ## Code tables (R236) -/

/-- CMP_TABLE_RESULT. -/
def tableResult (cmd cause entry : Nat) (s : State) : State :=
  { s with cmp := { s.cmp with tableResult := cmd * 2 ^ 28 + cause * 2 ^ 20 + entry % 256 } }

/-- The cause that refuses a table, if any. -/
def tableCause (s : State) (entry : Nat) (bs : List Byte) : Except Nat CodeTable :=
  if Tab.has entry s.cmp.tables then .error causeBusy
  else if entry = 0 ∨ 255 < entry then .error causeRange
  else match CodeTable.read bs with
    | none => .error causeRange
    | some c => if ((ctxOf s c.owner).map (fun x => x.state == .retiring)).getD false then .error causeUnknown else .ok c

/-- INSTALL_TABLE at action 2; the module writes TAG (R234). -/
def doInstallTable (t : Ticket) (entry currentStep : Nat) (bs : List Byte) (s : State) : State :=
  match tableCause s entry bs with
  | .error c => refusedWith t c (raise .tableCommand (tableResult 2 c entry s))
  | .ok c =>
    done t (tableResult 2 0 entry { s with cmp := { s.cmp with
      tables := Tab.put entry { record := c.bytes, currentStep := currentStep, order := s.cmp.installs + 1 } s.cmp.tables
      installs := s.cmp.installs + 1 } })

/-- Tables whose context is FREE and that no descriptor names become FREE at the end of action 2. -/
def freeTables (s : State) : State :=
  { s with cmp := { s.cmp with tables := s.cmp.tables.filter (fun e =>
      (match e.2.code with
       | some c => Tab.has c.owner s.mdl.ctxs
       | none => false) ||
      (Tab.vals s.pgm.descs).any (fun d => d.tableId == e.1)) } }

/-! ## Tenant objects (R211, R213) -/

/-- The combination stands in the table of R211. -/
def objectFlagsOk (alloc : Nat) (pin durable : Bool) : Bool :=
  match alloc with
  | 0 => !durable
  | 1 => !pin
  | 2 => true
  | _ => false

/-- Extents of the buffer object pool in use (R211). -/
def sramUse (s : State) : Nat := (((Tab.vals s.pgm.descs).filter (fun d => d.object && d.tier == .sram)).map (·.extents)).sum

/-- Home of an object. -/
def objectTier (s : State) (extents alloc : Nat) (pin : Bool) : Tier :=
  if alloc ≠ 0 then .cxl
  else if pin && decide (extents ≤ 4) && decide (sramUse s + extents ≤ 1024) then .sram
  else .gddr

/-- The descriptor of a new object; a pinned TIER_ANY one has its copy from the start. -/
def objectDesc (s : State) (d extents alloc : Nat) (pin durable : Bool) : Desc :=
  { state := .hopper, tier := objectTier s extents alloc pin, pin := pin, durable := durable, alloc := alloc, object := true
    tenant := d, extents := extents, mapClass := 0, refcount := 1
    copy := if alloc = 2 ∧ pin then some (List.range extents) else none }

/-- A new object gets its home's extents and map, and those of the copy of a pinned TIER_ANY one (R211, R213, R215). -/
def placeHomes (i : Nat) (s : State) : State :=
  match descAt s i with
  | none => s
  | some d =>
    let x := takeExtents d.tier d.extents [] s
    let m := takeMap d.tier 0 [] x.2
    let y := if d.copy.isSome then takeExtents .gddr d.extents x.1 m.2 else (x.1, m.2)
    let k := if d.copy.isSome then takeMap .gddr 0 m.1.toList y.2 else (none, y.2)
    updDesc i (fun d => { d with homeExt := x.1, homeMap := m.1, copyExt := y.1.drop x.1.length, copyMap := k.1 }) k.2

/-- ALLOC_OBJECT at action 4, after the joins. -/
def doAllocObject (t : Ticket) (d extents alloc : Nat) (pin durable : Bool) (s : State) : State :=
  if !objectFlagsOk alloc pin durable || extents = 0 || decide (16 < extents) then malformed t s
  else if !keysInForce s d then reasonWith t rKeyAbsent s
  else
    match leaseOf s d with
    | none => reasonWith t rQuota s
    | some l =>
      if l.pageQuota < pagesOf s d + 1 then reasonWith t rQuota s
      else
        let r := newDesc (objectDesc s d extents alloc pin durable) s
        match r.1 with
        | none => reasonWith t rFreeboard s
        | some i =>
          match makeRoom freeFragments (roomFuel s) r.2 with
          | none => reasonWith t rFreeboard s
          | some s => doneWith t (i + ((descAt s i).map (·.generation)).getD 0 * 2 ^ 32) 0 (placeHomes i s)

/-- FREE_OBJECT at action 1: a decrement; the windows onto the object are revoked (R213, R269). -/
def doFreeObject (t : Ticket) (d index gen : Nat) (s : State) : State :=
  match liveObject s index gen d with
  | none => refusedWith t causeUnknown s
  | some _ =>
    let s := (windowsOnto s index gen).foldl (fun s w => forceRevoke w s) s
    done t (decRef index (updDesc index (fun x => { x with freeing := true }) s))

/-! ## Composition maps (R18, R366) -/

/-- Own port addresses (R254, R289). -/
def ownMacs (s : State) : List Nat := (List.range 8).map (fun p => fld s.sec.identity (32 + 6 * p) 6)

/-- The RANGE conditions of a map body. -/
def mapRangeOk (bs : List Byte) : Bool :=
  let n := fld bs 4 4
  let nodes := (readMap bs).nodes
  decide (1 ≤ n) && decide (n ≤ 4096) && zeroAt bs 8 56 && (List.range n).all (fun i => nodeRsvdOk bs (64 + 128 * i)) &&
  nodes.all (fun e => decide (e.node < 0xFFFFFF00) && decide (e.role < 3) && decide (e.status < 3)) &&
  (distinct (nodes.map (·.node))).length == nodes.length

/-- Own entry by the port addresses; none where another entry holds any of them. -/
def mapSelf (s : State) (m : CompMap) : Option NodeEnt :=
  match m.nodes.find? (fun e => e.macs == ownMacs s) with
  | none => none
  | some me =>
    if m.nodes.any (fun e => e.node != me.node && e.macs.any (fun a => (ownMacs s).contains a)) then none else some me

/-- Places and budget allotted on a node over all C modules of a map. -/
def allotted (m : CompMap) (g : Nat) : Nat × Nat :=
  let l := ((m.nodes.filter (fun e => e.role == 2)).map (fun e => e.allot.filter (fun a => a.1 == g))).flatten
  ((l.map (fun a => a.2.1)).sum, (l.map (fun a => a.2.2)).sum)

/-- B of the step in force (R18, R149); before the first boundary the budget that the cores at hand give (DESIGN CHOICE,
log 115). -/
def budgetInForce (s : State) : Nat := if s.tmu.boundary.isNone then budgetB s else s.sqs.budget

/-- The cause that refuses a map, if any. -/
def mapCause (s : State) (bs : List Byte) : Option Nat :=
  let m := readMap bs
  let c := s.stw.charter
  if !mapRangeOk bs then some causeRange
  else match mapSelf s m with
    | none => some causeUnknown
    | some me =>
      let group := m.nodes.filter (fun e => e.group == me.group)
      if me.role ≠ c.role then some causeRole
      else if group.any (fun e => e.period != c.stepPeriod || e.gridEpoch != c.gridEpoch || e.cls != c.repro) then some causeGrid
      else if me.role = 1 ∧ (16384 < (allotted m me.node).1 ∨ budgetInForce s < (allotted m me.node).2) then some causeOvercommit
      else none

/-- COMPOSE at taking: in force from the next action 2 (R19). A refusal is COMPOSITION_REFUSED with its cause (R18, R366), kept beside
the completion, since no status bit shows it (log 109). -/
def doCompose (t : Ticket) (bs : List Byte) (s : State) : State :=
  match mapCause s bs with
  | some c => refusedWith t c { s with slc := { s.slc with refusedMap := some c } }
  | none => done t { s with slc := { s.slc with nextMap := some (readMap bs) } }

/-! ## Commands that wait for a boundary -/

/-- The ring entry and the bytes read with it, as a waiting command keeps them: 64 bytes of entry, then the body. -/
def pendEntry (body : List Byte) : List Byte := body.take 64
def pendBody (body : List Byte) : List Byte := body.drop 64

/-- The COMMAND record of a waiting command when it is applied (R330); a key blob is replaced by KIND, TARGET, VERSION and
the outcome. -/
def journalPend (p : Pend) (op : RingOp) (body : List Byte) (cause : Nat) (s : State) : State :=
  let shown := match op with
    | .installKey _ => (pendBody body).take 3 ++ le 1 cause
    | _ => pendBody body
  journal 3 p.action p.tenant p.source p.sseq (pendEntry body ++ shown) s

/-- Order of the kinds of commands within action 2 (R204, R236, R293). -/
def actionRank : RingOp → Nat
  | .lease _ => 0
  | .installKey _ => 1
  | .installTable _ _ => 2
  | .drainDie _ _ => 3
  | .readmitDie _ => 3
  | .registerAdapter => 4
  | .withdrawAdapter _ => 4
  | .registerContext => 5
  | .retireContext _ => 5
  | _ => 6

/-- Apply one command of action 2. -/
def applyCommand (p : Pend) (t : Ticket) (op : RingOp) (body : List Byte) (s : State) : State :=
  let b := pendBody body
  let s := journalPend p op body (match op with | .installKey o => blobCause s b o false false | _ => 0) s
  match op with
  | .lease o => doLease t p.tenant o s
  | .installKey o => doInstallKey t b o s
  | .installTable e c => doInstallTable t e c b s
  | .drainDie d f => doDrainDie t d f s
  | .readmitDie d => doReadmitDie t d s
  | .registerAdapter => doRegisterAdapter t b s
  | .withdrawAdapter c => doWithdrawAdapter t p.tenant c s
  | .registerContext => doRegisterContext t b s
  | .retireContext c => doRetireContext t c s
  | .allocObject x a pin dur => doAllocObject t p.tenant x a pin dur s
  | .freeObject i g => doFreeObject t p.tenant i g s
  | _ => s

end Sys2Proof.Machine
end

