-- ==== Sys2Proof/Machine/Leave.lean ====
section
/-! DEFINITION. Action 1 of a boundary: releases, cancellations, pauses and completions, departures of owners, and the
records whose handoff, silence or orphan policy comes due (R136, R140, R160, R161, R163, R166, R171, R174 to R179, R186,
R212, R246). -/

namespace Sys2Proof.Machine

/-! ## The order of a boundary (R143) -/

/-- The key of a waiting command or message. -/
def pendKey (s : State) (p : Pend) : List Nat :=
  [p.tenant, p.source, (p.sseq + 2 ^ 32 - Tab.getD s.sqs.firstSeq p.source 0 % 2 ^ 32) % 2 ^ 32]

/-- A host-ring command. -/
def Pend.ofRing (p : Pend) : Bool :=
  match p.wait with
  | .command _ _ _ => true
  | .join (.rehome _ _ _) => true
  | _ => false

/-- A waiting command or message that an action applies at boundary `n`; host-ring commands are not applied while a
firmware switch is under way (R305). -/
def Pend.dueAt (s : State) (n action : Nat) (p : Pend) : Bool :=
  p.action == action && decide (p.notBefore ≤ n) && !(p.ofRing && s.sec.upd == .switching)

/-- What an action applies at boundary `n`, in key order. -/
def pendsFor (s : State) (n action : Nat) : List Pend :=
  sortBy (fun a b => lexLe (pendKey s a) (pendKey s b)) (s.sqs.waiting.filter (fun p => p.dueAt s n action))

/-- They no longer wait. -/
def dropPends (n action : Nat) (s : State) : State :=
  { s with sqs := { s.sqs with waiting := s.sqs.waiting.filter (fun p => !p.dueAt s n action) } }

/-! ## An entry becomes FREE -/

/-- What the compute array holds of a handle goes. -/
def clearWork (handle : Nat) (s : State) : State :=
  { s with car := { s.car with
      items := s.car.items.filter (fun i => i.done || i.handle != handle)
      rows := s.car.rows.filter (fun r => r.handle != handle)
      runs := s.car.runs.filter (fun r => r.handle != handle)
      ringMsgs := s.car.ringMsgs.filter (fun r => r.handle != handle)
      ringSilent := s.car.ringSilent.filter (fun e => e.1 / 64 != handle) } }

/-- A join that is about an entry. -/
def Pend.about (p : Pend) (slot handle : Nat) : Bool := p.wait == .join (.reprefill slot handle)

/-- An entry becomes FREE: its pages, its record, its history and everything kept beside it go; a keeper owes the END
record (R136, R166, R352). -/
def freeEntry (slot : Nat) (s : State) : State :=
  match seqAt s slot with
  | none => s
  | some e =>
    let s := if roleC s && e.keptHere then oweCkpt (endRecord e) s else s
    let s := clearWork e.handle (releasePages slot s)
    { s with
      sqs := { s.sqs with seqs := Tab.del slot s.sqs.seqs, owned := Tab.del slot s.sqs.owned
                          waiting := s.sqs.waiting.filter (fun p => !p.about slot e.handle) }
      slc := { s.slc with recs := Tab.del slot s.slc.recs, hist := Tab.del slot s.slc.hist
                          histBad := s.slc.histBad.filter (fun b => b.1 != slot) }
      hlt := { s.hlt with ckptDone := Tab.del slot s.hlt.ckptDone } }

/-- The keeper's release message to the members of a ring, under the next epoch (R161; log 48). -/
def releaseRing (slot : Nat) (s : State) : State :=
  match seqAt s slot with
  | none => s
  | some e =>
    if e.ringZ < 2 || e.isMember then s
    else
      (e.ringNodes.take (e.ringZ - 1)).foldl (fun s d =>
        sendSlu d (sluHdr s 0x33 2 2 e.handle (nextEpoch e.ownEpoch) e)
          (le 6 (stepNo s) ++ zeros 2 ++ le 4 Config.none32 ++ le 4 e.position) s) s

/-- A keeper lets go of a sequence. -/
def leaveKeeper (slot : Nat) (s : State) : State := freeEntry slot (releaseRing slot s)

/-- A sequence ends with a notice of the keeper; the owner and a next owner that has its grant are recalled at `n` + 1. -/
def endSequence (slot kind cause why n : Nat) (s : State) : State :=
  match seqAt s slot with
  | none => s
  | some e => leaveKeeper slot (addNotice e kind cause 0 (recallAll slot why (n + 1) s))

/-- CANCELLED with cause ORPHANED (R25). -/
def cancelOrphaned (slot n : Nat) (s : State) : State := endSequence slot 2 4 1 n s

/-! ## Cancel and pause (R160, R163) -/

/-- The sequence a cancel or pause names here. -/
def namedHere (s : State) (tenant requestId : Nat) : Option (Nat × Seq) :=
  s.sqs.seqs.find? (fun e => e.2.tenant == tenant && e.2.requestId == requestId && Tab.has e.1 s.slc.recs)

/-- The last token of a sequence has been noted, so that its completion stands against a cancel or pause (R145). -/
def Seq.completed (e : Seq) (hist : List Nat) : Bool :=
  e.state != .orphaned && decide (0 < e.generated) &&
  (decide (e.maxNew ≤ e.generated) || hist.getLast? == some e.endToken)

/-- A cancel or pause finds nothing to end: a sequence in DRAINING, or one that has completed (R145, R160, R163). -/
def Seq.over (s : State) (slot : Nat) (e : Seq) : Bool := e.state == .draining || e.completed (histOf s slot)

/-- A grant of a handoff that has not been sent is withdrawn: the owner keeps the sequence (R179). -/
def withdrawGrant (slot : Nat) (s : State) : State :=
  match recAt s slot with
  | none => s
  | some r =>
    if r.state == .passing && !r.granted then
      setRec slot { r with state := if r.acked then .held else .offered, next := Config.none32, tail := false, tailMsg := none } s
    else s

/-- The policy for an entry: true for DRAIN. -/
def drainPolicy (s : State) (e : Seq) : Bool :=
  e.state == .decode &&
  (match s.stw.charter.cancelPolicy with
   | 1 => false
   | 2 => true
   | _ => decide (1 < e.ringZ))

/-- A cancel at boundary `n`. -/
def applyCancel (n tenant requestId : Nat) (s : State) : State :=
  match namedHere s tenant requestId with
  | none => raise .cancelUnknown s
  | some (slot, e) =>
    if e.over s slot then raise .cancelUnknown s
    else if drainPolicy s e then
      let s := recallAll slot 2 n (withdrawGrant slot (addNotice e 2 5 0 s))
      updSeq slot (fun e => { e with state := .draining, drop := true }) s
    else endSequence slot 2 (if e.state == .orphaned then 4 else 5) 1 n s

/-- A pause at boundary `n`. -/
def applyPause (n tenant requestId : Nat) (s : State) : State :=
  match namedHere s tenant requestId with
  | none => raise .cancelUnknown s
  | some (slot, e) => if e.over s slot then raise .cancelUnknown s else endSequence slot 1 3 3 n s

/-! ## RELEASE messages (R161, R171, R186) -/

/-- An epoch under which a RELEASE may end a sequence: the one in force, or the outgoing owner's within its grace (R167). -/
def endEpochOk (r : OwnRec) (source epoch : Nat) : Bool :=
  epoch == r.epoch || ((r.outgoing.map (fun o => o.1 == source && o.2.1 == epoch)).getD false)

/-- Who else holds a grant of a sequence that its owner has completed: a next owner, or the new one in the grace of the
old. -/
def recallOther (slot n epoch : Nat) (r : OwnRec) (s : State) : State :=
  if epoch ≠ r.epoch then sendRecall slot r.owner r.epoch 1 (n + 1) s
  else if r.state == .passing && r.granted then sendRecall slot r.next (nextEpoch r.epoch) 1 (n + 1) s
  else s

/-- A RELEASE with END, or the keeper's to a ring member, is applied. -/
def applyEnd (n : Nat) (p : Pend) (bytes : List Byte) (s : State) : State :=
  match readSlu bytes with
  | none => s
  | some h =>
    match memberOf s p.source h.seq with
    | some (slot, _) => freeEntry slot s
    | none =>
      if !h.ended then s
      else match slotOf s h.seq with
        | none => raise .handleStale s
        | some slot =>
          match recAt s slot with
          | none => raise .handleStale s
          | some r =>
            if endEpochOk r p.source h.epoch then leaveKeeper slot (recallOther slot n h.epoch r s) else s

/-- A cancel at the same boundary as a RELEASE of the sequence: the handoff does not occur (R186). -/
def cancelledToo (ps : List Pend) (h : Slu) : Bool :=
  ps.any (fun p => match p.wait with
    | .cancel r => p.tenant == h.tenant && r == h.requestId
    | _ => false)

/-- A RELEASE that hands off is applied: the record enters PASSING. Where it is already PASSING, or the RELEASE belongs to
a tail, nothing changes; with no free place in any allotment the owner keeps the sequence (log 49). -/
def applyHandoff (n : Nat) (ps : List Pend) (bytes : List Byte) (s : State) : State :=
  match readSlu bytes with
  | none => s
  | some h =>
    if h.ended || cancelledToo ps h then s
    else match slotOf s h.seq with
      | none => raise .handleStale s
      | some slot =>
        match recAt s slot, seqAt s slot with
        | some r, some e =>
          if h.epoch ≠ r.epoch || !(r.state == .held || r.state == .offered) || decide (r.effective > n) then s
          else
            let last := if stepOlder n (fld bytes 32 6) then fld bytes 32 6 else n
            let asked := fld bytes 40 4
            let free := placesFree s
            match (if free.contains asked then some asked else pickNext s e) with
            | none => s
            | some g =>
              setRec slot { r with state := .passing, next := g, effective := last + 1, granted := false, tail := false
                                   grantCause := 1, tailPos := fld bytes 44 4 - 1 } s
        | _, _ => s

/-! ## Owners that depart (R172, R174, R179) -/

/-- An owner's entry is released; a token still unacknowledged may be delivered later, unless it was superseded or
muted. -/
def departOwner (slot : Nat) (s : State) : State :=
  match seqAt s slot, ownedAt s slot with
  | some e, some o =>
    let last := o.histFirst + o.tokens.length
    let left := if o.superseded || o.muteAfter.isSome then [] else o.awaiting.map (fun a =>
      let r : TailRec := ⟨e.tenant, e.gateway, e.requestId, a.2.1, 0, 2 * b2n (o.ending.isSome && a.1 + 1 == last), 0, a.2.2⟩
      (⟨o.keeper, o.keeperHandle, a.1, r⟩ : Leaving))
    freeEntry slot { s with sqs := { s.sqs with leaving := s.sqs.leaving ++ left } }
  | _, _ => s

/-- Owners whose boundary has come. -/
def departures (n : Nat) (s : State) : State :=
  ((s.sqs.owned.filter (fun o => (o.2.releaseAt.map (fun k => decide (k ≤ n))).getD false)).map (·.1)).foldl
    (fun s slot => departOwner slot s) s

/-! ## Records at a boundary (R166, R174 to R176) -/

/-- Change every record in turn. -/
def eachRec (f : Nat → OwnRec → State → State) (s : State) : State :=
  (Tab.keys s.slc.recs).foldl (fun s slot => match recAt s slot with | some r => f slot r s | none => s) s

/-- Quiet steps are counted; the second in a row is a reissue (R175, R176). -/
def countQuiet (s : State) : State :=
  eachRec (fun slot r s =>
    if r.state == .held || r.state == .offered then
      if r.heard then setRec slot { r with quiet := 0, heard := false } s
      else if r.quiet = 0 then setRec slot { r with quiet := 1 } s
      else
        bump cReissue 1 (raise .ownerQuiet (setRec slot { r with
          state := .reissued, epoch := nextEpoch r.epoch, quiet := 2, acked := false, granted := false
          outgoing := none, grantCause := 2 } s))
    else setRec slot { r with heard := false } s) s

/-- The orphan policy of the tenant is applied (R176). -/
def orphanPolicies (n : Nat) (s : State) : State :=
  eachRec (fun slot r s =>
    match seqAt s slot with
    | none => s
    | some e =>
      if r.state == .orphaned && r.policyDue then
        let s := setRec slot { r with policyDue := false } s
        if ((leaseOf s e.tenant).map (·.orphan)).getD 0 = 1 then cancelOrphaned slot n s else resumeWait slot e s
      else s) s

/-- Records whose EFFECTIVE_STEP has come: the next owner's grant takes effect (R174). -/
def effectRecs (n : Nat) (s : State) : State :=
  eachRec (fun slot r s =>
    if r.state == .passing && decide (r.effective ≤ n) then
      if r.next = Config.none32 then enterOrphan slot s
      else
        setRec slot { r with state := .offered, outgoing := some (r.owner, r.epoch, r.effective + 1), owner := r.next
                             role := 1, epoch := nextEpoch r.epoch, next := Config.none32, acked := false, quiet := 0
                             heard := false, granted := false, arriving := true } s
    else s) s

/-- The grace of a tail ends: a handoff without its tail has failed (R174). -/
def tailChecks (n : Nat) (s : State) : State :=
  eachRec (fun slot r s =>
    match r.outgoing with
    | some (_, _, k) =>
      if n < k then s
      else if r.tail then setRec slot { r with outgoing := none } s
      else enterOrphan slot (raise .tailMissing s)
    | none => s) s

/-- Histories of which both copies failed cannot be kept (R212, R227); one failed copy is written again from the other. -/
def repairHistories (n : Nat) (s : State) : State :=
  let bad := s.slc.histBad
  let both := (bad.filter (fun b => b.2 == 0 && bad.contains (b.1, 1))).map (·.1)
  both.foldl (fun s slot => cancelOrphaned slot n s) { s with slc := { s.slc with histBad := [] } }

/-- Contexts whose master is damaged twice in a row retire, and their sequences end (R246). -/
def damagedMasters (n : Nat) (s : State) : State :=
  (s.mdl.ctxs.filter (fun c => c.2.condemned && c.2.state != .retiring)).foldl (fun s c =>
    let s := retireContext c.1 s
    ((s.sqs.seqs.filter (fun e => e.2.context == c.1 && Tab.has e.1 s.slc.recs)).map (·.1)).foldl
      (fun s slot => cancelOrphaned slot n s) s) s

/-! ## Action 1 -/

/-- Completions come first, then cancels and pauses, then the RELEASE messages that hand off: a completion stands against
a cancel, and a cancel against a handoff (R145, R186). -/
def applyLeaves (n : Nat) (s : State) : State :=
  let ps := pendsFor s n 1
  let s := dropPends n 1 s
  let s := ps.foldl (fun s p => match p.wait with | .release b _ => applyEnd n p b (journalWait p s) | _ => s) s
  let s := ps.foldl (fun s p => match p.wait with
    | .cancel r => applyCancel n p.tenant r (journalWait p s)
    | .pause r => applyPause n p.tenant r (journalWait p s)
    | .command t op b => applyCommand p t op b s
    | _ => s) s
  ps.foldl (fun s p => match p.wait with | .release b _ => applyHandoff n ps b s | _ => s) s

/-- Action 1 at boundary `n`: what ends, then what PGM gives back (R136). -/
def actionLeave (n : Nat) (s : State) : State :=
  let s := applyLeaves n s
  let s := departures n s
  let s := countQuiet s
  let s := orphanPolicies n s
  let s := repairHistories n (damagedMasters n s)
  let s := returnPinned (tailChecks n (effectRecs n s))
  let s := (Tab.keys s.pgm.descs).foldl (fun s i => returnSpare i s) s
  let k := (reclaimable s).length
  reclaim freeFragments (if 65536 < k then dispositionAt 1 7 Config.none32 0 (k - 65536) s else s)

end Sys2Proof.Machine
end

