-- ==== Sys2Proof/Machine/Enter.lean ====
section
/-! DEFINITION. Action 3 of a boundary: requests at a P module, admission queries at a keeper, ring segments asked of the
members, verdicts (R19 to R23, R102, R127, R144 to R156, R170). -/

namespace Sys2Proof.Machine

/-! ## Acceptance at a keeper -/

/-- The last step of a plan: the promised delivery step (R152). -/
def planLast (plan : List Chunk) : Nat := maxOf (plan.map (·.step))

/-- A plan of a resume chunk (R178 step 4). -/
def markResume (b : Bool) (plan : List Chunk) : List Chunk := plan.map (fun c => { c with resume := b })

/-- The entries of the prefix table through which pages are shared are matched at this boundary (R131). -/
def touchRun (n : Nat) : Nat → Option Nat → State → State
  | 0, _, s => s
  | fuel + 1, k, s =>
    match k.bind (fun k => (Tab.look k s.pgm.prefixes).map (fun p => (k, p))) with
    | none => s
    | some (k, p) =>
      touchRun n fuel p.parent { s with pgm := { s.pgm with prefixes := Tab.put k { p with matched := n } s.pgm.prefixes } }

/-- The ownership record of an accepted request (R166, R170). -/
def newRecord (s : State) (owner last tailPos : Nat) (e : Seq) : OwnRec :=
  { owner := owner, role := 0, state := .held, next := (pickNext s e).getD Config.none32, effective := last + 1
    tailPos := tailPos }

/-- A tested query is ACCEPTED at boundary `n` (R148, R152, R155, R166). -/
def acceptQuery (n : Nat) (q : Query) (ring : List Nat) (r : State × Nat × Offer × List Chunk) : State :=
  let slot := r.2.1
  let o := r.2.2.1
  let last := planLast r.2.2.2
  let resume := decide (o.p ≤ o.entry.position)
  let s := touchRun n o.pubPages o.pubParent r.1
  let s := { s with sqs := { s.sqs with gens := Tab.put slot (o.entry.handle / 16384) s.sqs.gens } }
  let s := updSeq slot (fun e => { e with
    chunks := markResume resume r.2.2.2, decodeFrom := last + 1, nextStep := last, admitStep := n
    pubParent := o.pubParent, pubPages := o.pubPages }) s
  let s := setHist slot o.hist s
  let s := setRec slot (newRecord s q.from_ last (o.p - 1) o.entry) s
  let s := sendVerdict q { outcome := 1, reason := 0, step := last } o.entry.handle ring s
  match seqAt s slot, recAt s slot with
  | some e, some rec_ =>
    if q.fork then
      sendState q.from_ (sluHdr s 0x32 0 2 e.handle 1 e) [] (keeperState s slot (min e.position (o.p - 1)) (o.p - 1) e rec_) s
    else s
  | _, _ => s

/-! ## Ring segments (R102) -/

/-- The members are asked for their segments (log 50): the keeper keeps a handle for the sequence, whose slot leaves FREE
when the request is accepted. -/
def askMembers (q : Query) (members : List Nat) (tested : State) (handle : Nat) (s : State) : State :=
  let s := { s with
    freeCtr := tested.freeCtr
    sqs := { s.sqs with ringAsks := s.sqs.ringAsks ++ [{ query := q, members := members, handle := handle }] } }
  members.foldl (fun s d =>
    let k := takeSseq s
    sendMsg d q.tenant (.moduleMessage 0x21) k.1
      (queryBytes { q with sseq := k.1, parent := handle, gateway := q.from_ }) k.2) s

/-- A request whose members have all answered, or whose composition epoch has passed. -/
def RingAsk.ripe (a : RingAsk) (s : State) : Bool :=
  a.answers.length == a.members.length || a.query.compEpoch != compEpoch s

/-- Members that accepted give their segments up again (R161). -/
def dropSegments (a : RingAsk) (s : State) : State :=
  (a.answers.filter (fun x => x.2.1 == 1)).foldl (fun s x =>
    sendSlu x.1 { kind := 0x33, flags := 2, tenant := a.query.tenant, role := 2, seq := a.handle, epoch := 2
                  compEpoch := a.query.compEpoch, requestId := a.query.requestId, sseq := 0, sender := s.fab.node }
      (le 6 (stepNo s) ++ zeros 2 ++ le 4 Config.none32 ++ zeros 4) s) s

/-- What refuses or defers a whole request for its members: a refusal before a deferral, the latest step. -/
def RingAsk.failure (a : RingAsk) : Option Answer :=
  match a.answers.find? (fun x => x.2.1 == 3) with
  | some x => some (refusedFor x.2.2.1)
  | none =>
    let l := a.answers.filter (fun x => x.2.1 == 2)
    match l.head? with
    | none => none
    | some x => some (deferredFor x.2.2.1 (maxOf (l.map (fun y => y.2.2.2.1))))

/-- The members of a request are asked no longer. -/
def closeAsk (a : RingAsk) (s : State) : State :=
  { s with sqs := { s.sqs with ringAsks := s.sqs.ringAsks.filter (fun b => b.handle != a.handle) } }

/-- The request is decided: the keeper's own chunks follow the members' (log 50). -/
def decideRing (n : Nat) (a : RingAsk) (s : State) : State :=
  let s := closeAsk a s
  match a.failure with
  | some x => sendVerdict a.query x Config.none32 [] (dropSegments a s)
  | none =>
    match testQuery (max n (maxOf (a.answers.map (fun x => x.2.2.2.1)))) a.query (some a.handle) s with
    | .error x => sendVerdict a.query x Config.none32 [] (dropSegments a s)
    | .ok r => acceptQuery n a.query r.2.2.1.entry.ringNodes r

/-- A query is tested at boundary `n` (R148). -/
def admitOne (n : Nat) (q : Query) (s : State) : State :=
  match testQuery n q none s with
  | .error a => sendVerdict q a Config.none32 [] s
  | .ok r =>
    let e := r.2.2.1.entry
    if e.ringZ < 2 then acceptQuery n q [] r else askMembers q (e.ringNodes.take (e.ringZ - 1)) r.1 e.handle s

/-! ## Service order (R145, R153) -/

/-- What action 3 tests: a query, and where its members have been asked, that. -/
structure AdmitCase where
  query : Query
  ask : Option RingAsk
  deriving DecidableEq, Repr

/-- The service order's key. -/
def serviceKey (s : State) (n : Nat) (q : Query) : List Nat :=
  let cls := requestClass s q.tenant q.cls
  let e := entryOf s 0 q 0 ((adapterFor s q.tenant q.context q.adapter).getD 0) q.promptLen
  let group := if cls = 2 then 3 else if withinReserve s n n false q.tenant cls e then 1 else 2
  [group, if group = 3 then 0 else q.deadline, q.tenant, q.from_,
   (q.sseq + 2 ^ 32 - Tab.getD s.sqs.firstSeq q.from_ 0 % 2 ^ 32) % 2 ^ 32]

/-- All cases of boundary `n` in service order. -/
def admitCases (s : State) (n : Nat) : List AdmitCase :=
  let fresh := (pendsFor s n 3).filterMap (fun p => match p.wait with | .ask q => some { query := q, ask := none } | _ => none)
  let asked := (s.sqs.ringAsks.filter (fun a => a.ripe s)).map (fun a => { query := a.query, ask := some a })
  sortBy (fun a b => lexLe (serviceKey s n a.query) (serviceKey s n b.query)) (asked ++ fresh)

/-- One case. -/
def admitCase (n : Nat) (c : AdmitCase) (s : State) : State :=
  match c.ask with
  | some a => decideRing n a s
  | none => admitOne n c.query s

/-- The journal record of a query that is tested or answered for the first time. -/
def journalCase (c : AdmitCase) (s : State) : State :=
  match c.ask with
  | some _ => s
  | none => journalMsg 3 c.query.tenant c.query.from_ c.query.sseq (queryBytes c.query) s

/-- Queries beyond the limit are answered without a test (R145). -/
def carryCases (n : Nat) (cs : List AdmitCase) (s : State) : State :=
  if cs.isEmpty then s
  else
    let s := raise .admitCarried (dispositionAt 3 8 Config.none32 0 cs.length s)
    cs.foldl (fun s c => sendVerdict c.query (deferredFor rCapacity (n + 1)) Config.none32 [] (match c.ask with
      | some a => dropSegments a (closeAsk a s)
      | none => s)) s

/-! ## Requests at a P module (R20 to R22) -/

/-- REQUEST (stage 1): a gateway's request waits at its P module for the boundary. -/
def execRequest (r : Request) (s : State) : Host.Outcome State Fault Refusal :=
  if !takesFrom s r.gateway then .next s
  else if !roleP s then .next (misdirect r.port s)
  else .next (addWait ⟨3, r.tenant, r.gateway, r.sseq, 0, .ingress r⟩
    (noteFirst r.gateway r.sseq s))

/-- Candidate keepers: at most four C modules of the group in rendezvous order, DRAINING ones too, which defer (R20); one that
the map marks GONE is none (DESIGN CHOICE, log 114). -/
def keepersFor (s : State) (r : Request) : List Nat :=
  match mapNow s with
  | none => []
  | some m => (rendezvous (requestKey r.tenant r.requestId) (groupWith m s.fab.node 2 (· != 2))).take 4

/-- The entry of a request at its P module. -/
def ingressEntry (s : State) (n : Nat) (r : Request) (handle : Nat) : Seq :=
  { handle := handle, state := .accepted, tenant := r.tenant, context := r.context, cls := r.cls, publish := r.publish
    forked := r.parent.isSome, adapter := r.adapter, ownEpoch := 1, compEpoch := compEpoch s, requestId := r.requestId
    admitStep := n, deadline := r.deadline, promptLen := r.tokens.length, maxNew := r.maxNew, lP := r.lP
    source := r.gateway, parent := r.parent.getD Config.none32, sampling := r.sampling
    endToken := ((ctxOf s r.context).map (·.endToken)).getD Config.none32, gateway := r.gateway }

/-- A verdict of the P module itself, or passed on by it, goes to the gateway (R22). -/
def verdictToGateway (r : Request) (bytes : List Byte) (s : State) : State :=
  sendMsg r.gateway r.tenant (.moduleMessage 0x22) 0 bytes s

/-- The P module refuses or defers a request that it cannot take up: a verdict of its own, counted (R164). -/
def ingressAnswer (r : Request) (a : Answer) (s : State) : State :=
  let v : Verdict := { outcome := a.outcome, reason := a.reason, requestId := r.requestId, handle := Config.none32
                       step := a.step, tenant := r.tenant, keeper := s.fab.node, compEpoch := compEpoch s, ring := [] }
  verdictToGateway r v.bytes (countVerdict r.tenant a.outcome s)

/-- The earliest step that a P module's own DEFERRED verdict carries: the one in which sequences of its table, ending at their
maximum lengths, make `ok` true; all ones where none does (R154). -/
def ingressStep (n : Nat) (mine : Seq → Bool) (ok : State → Bool) (s : State) : Nat :=
  (earliest ok (endings s n mine) s).getD Config.none48

/-- A request is taken up: time, brown-out, keys, quota, an entry, a keeper to ask (R19, R29, R30, R54, R151). With no keeper
to ask the P module defers with reason DRAINING, the earliest step all ones (DESIGN CHOICE, log 114). -/
def takeRequest (n : Nat) (r : Request) (s : State) : State :=
  match testTime s n with
  | some a => ingressAnswer r a s
  | none =>
  match leaseOf s r.tenant with
  | none => ingressAnswer r (refusedFor rKeyAbsent) s
  | some l =>
    let quota := fun (s : State) => decide (seqsOf s r.tenant + 1 ≤ l.seqQuota)
    if !keysInForce s r.tenant then ingressAnswer r (refusedFor rKeyAbsent) s
    else if !quota s then
      ingressAnswer r (if l.seqLowered then deferredFor rQuota (ingressStep n (fun e => e.tenant == r.tenant) quota s)
        else refusedFor rQuota) s
    else
      let h := newHandle s
      match h.1 with
      | none => ingressAnswer r (deferredFor rCapacity (ingressStep n (fun _ => true)
          (fun s => decide (entriesTaken s < Config.seqSlots)) s)) s
      | some (slot, handle) =>
        let cs := keepersFor s r
        if cs.isEmpty then ingressAnswer r (deferredFor rDraining Config.none48) s
        else
          let s := putSeq slot (ingressEntry s n r handle) h.2
          { s with sqs := { s.sqs with fronted := s.sqs.fronted ++
              [{ request := r, candidates := cs, tried := 0, asked := none, deferredAs := none, compEpoch := compEpoch s }] } }

/-- The query that fronts a request. -/
def frontedQuery (s : State) (f : Fronted) (sseq : Nat) : Query :=
  let r := f.request
  { from_ := s.fab.node, tenant := r.tenant, context := r.context, cls := r.cls, publish := r.publish
    fork := r.parent.isSome, requestId := r.requestId, sseq := sseq, compEpoch := f.compEpoch, adapter := r.adapter
    lP := r.lP, promptLen := r.tokens.length, maxNew := r.maxNew, deadline := r.deadline
    parent := r.parent.getD Config.none32, sampling := r.sampling, gateway := r.gateway }

/-- The next candidate is asked, one a boundary (R20). -/
def askCandidate (f : Fronted) (s : State) : State × Fronted :=
  match f.asked, f.candidates[f.tried]? with
  | none, some c =>
    let k := takeSseq s
    (sendMsg c f.request.tenant (.moduleMessage 0x21) k.1 (queryBytes (frontedQuery s f k.1)) k.2,
     { f with asked := some c, tried := f.tried + 1 })
  | _, _ => (s, f)

/-- All requests that are looking for a keeper ask. -/
def askAll (s : State) : State :=
  let r := s.sqs.fronted.foldl (fun (acc : State × List Fronted) f =>
    let x := askCandidate f acc.1
    (x.1, acc.2 ++ [x.2])) (s, [])
  { r.1 with sqs := { r.1.sqs with fronted := r.2 } }

/-! ## Verdicts (R20, R22, R102) -/

/-- A keeper's verdict lets its P module act under epoch 1 at once (R166). -/
def beginOwner (f : Fronted) (v : Verdict) (s : State) : State :=
  match findRequest s v.tenant v.requestId with
  | none => s
  | some slot =>
    let r := f.request
    let s := updSeq slot (fun e => { e with
      nextStep := v.step, compEpoch := f.compEpoch, source := v.keeper, ring := !v.ring.isEmpty, ringZ := v.ring.length
      member := v.ring.length - 1, ringNodes := v.ring }) s
    let o : Owned := { keeper := v.keeper, keeperHandle := v.handle, tokens := if r.parent.isSome then [] else r.tokens }
    let s := { s with sqs := { s.sqs with owned := Tab.put slot o s.sqs.owned } }
    embedNext slot (ownerSend slot 0x34 0 [] s)

/-- The earlier of two deferrals, by the step each carries (R58); all ones name no step. -/
def earlierVerdict (a : Option (List Byte)) (b : List Byte) : List Byte :=
  match a with
  | none => b
  | some a =>
    let held := fld a 16 6
    let got := fld b 16 6
    if got != Config.none48 && (held == Config.none48 || stepOlder got held) then b else a

/-- What the gateway is told when no candidate accepts: the earliest deferral, else the last refusal; where no verdict came at
all, the P module's own DEFERRED(DRAINING) with all ones (R22; DESIGN CHOICE, log 114). -/
def noKeeper (f : Fronted) (s : State) : State :=
  match f.deferredAs.orElse (fun _ => f.refusedAs) with
  | some v => verdictToGateway f.request v s
  | none => ingressAnswer f.request (deferredFor rDraining Config.none48) s

/-- A verdict at the P module (R20, R22). -/
def frontVerdict (m : MsgIn) (v : Verdict) (s : State) : State :=
  let mine := fun (f : Fronted) => f.request.tenant == v.tenant && f.request.requestId == v.requestId && f.asked == some m.source
  match s.sqs.fronted.find? mine with
  | none => s
  | some f =>
    let rest := s.sqs.fronted.filter (fun g => !mine g)
    let finish := fun (s : State) => { s with sqs := { s.sqs with fronted := rest } }
    if v.outcome = 1 then beginOwner f v (verdictToGateway f.request m.bytes (finish s))
    else
      let f := { f with asked := none
                        deferredAs := if v.outcome = 2 then some (earlierVerdict f.deferredAs m.bytes) else f.deferredAs
                        refusedAs := if v.outcome = 2 then f.refusedAs else some m.bytes }
      if [rCapacity, rFreeboard, rDeadline, rDraining].contains v.reason && decide (f.tried < f.candidates.length) then
        { s with sqs := { s.sqs with fronted := rest ++ [f] } }
      else noKeeper f (finish s)

/-- A ring member's verdict at the keeper. -/
def memberVerdict (m : MsgIn) (v : Verdict) (s : State) : State :=
  { s with sqs := { s.sqs with ringAsks := s.sqs.ringAsks.map (fun a =>
      if a.query.tenant = v.tenant ∧ a.query.requestId = v.requestId ∧ a.members.contains m.source ∧
         !a.answers.any (fun x => x.1 == m.source) then
        { a with answers := a.answers ++ [(m.source, v.outcome, v.reason, v.step, v.handle)] }
      else a) } }

/-- VERDICT (R155). -/
def onVerdict (m : MsgIn) (s : State) : State :=
  if !takesFrom s m.source then s
  else match readVerdict m.bytes with
    | none => raise .messageMalformed s
    | some v =>
      if s.stw.charter.role = 1 then misdirect m.port s
      else
        let s := consumeUnnumbered v.tenant m.source m.bytes s
        if roleP s then frontVerdict m v s else memberVerdict m v s

/-- A C module of the map in force that asks for a segment: its query names its own handle (log 50). -/
def isSegmentQuery (s : State) (q : Query) : Bool :=
  !q.fork && q.parent != Config.none32 &&
  (((mapNow s).bind (fun m => m.entry q.from_)).map (fun e => e.role == 2)).getD false

/-- ADMIT_QUERY (R146): it waits for the next boundary, as an admission, a fork or a ring segment. -/
def onAdmitQuery (m : MsgIn) (s : State) : State :=
  if !takesFrom s m.source then s
  else match readQuery m.source m.bytes with
    | none => raise .messageMalformed s
    | some q =>
      if !roleC s then misdirect m.port s
      else
        let s := noteFirst m.source q.sseq s
        if q.fork then addWait ⟨4, q.tenant, m.source, q.sseq, 0, .join (.fork q)⟩ s
        else if isSegmentQuery s q then addWait ⟨4, q.tenant, m.source, q.sseq, 0, .join (.segment m.source m.bytes)⟩ s
        else addWait ⟨3, q.tenant, m.source, q.sseq, 0, .ask q⟩ s

/-! ## Action 3 -/

/-- Admissions at a keeper, requests at a P module. -/
def actionAdmit (n : Nat) (s : State) : State :=
  if roleC s then
    let cs := admitCases s n
    let s := dropPends n 3 s
    let late := cs.drop 1024
    let s := (cs.take 1024).foldl (fun s c => admitCase n c (journalCase c s)) s
    carryCases n late (late.foldl (fun s c => journalCase c s) s)
  else
    let ps := pendsFor s n 3
    let s := dropPends n 3 s
    askAll (ps.foldl (fun s p => match p.wait with | .ingress r => takeRequest n r (journalWait p s) | _ => s) s)

end Sys2Proof.Machine
end

