-- ==== Sys2Proof/Machine/Join.lean ====
section
/-! DEFINITION. Action 4 of a boundary: forks, ring segments, resumes, handoff arrivals, re-homing, objects (R32, R102,
R127, R157, R170, R178, R184, R213, R227). -/

namespace Sys2Proof.Machine

/-! ## Forks and segments -/

/-- A fork joins as an admission would (R127, R157). -/
def joinFork (n : Nat) (q : Query) (s : State) : State :=
  match testQuery n q none s with
  | .error a => sendVerdict q a Config.none32 [] s
  | .ok r => acceptQuery n q [] r

/-- Own place in the ring of a keeper's request: members in order without the keeper, own number (R102). -/
def segmentPlace (s : State) (q : Query) : Option (List Nat × Nat) :=
  let nodes := (ringSetMembers s ++ [s.fab.node]).filter (· ≠ q.from_)
  match ctxOf s q.context with
  | none => none
  | some c =>
    if c.ringSegment = 0 then none
    else
      let z := min (min (cdiv q.promptLen c.ringSegment) 64) (nodes.length + 1)
      let order := (rendezvous (requestKey q.tenant q.requestId) nodes).take (z - 1)
      match order.findIdx? (· == s.fab.node) with
      | none => none
      | some j => some (order, j)

/-- The entry of a segment. -/
def segmentEntry (s : State) (n : Nat) (q : Query) (handle : Nat) (order : List Nat) (j segment : Nat) : Seq :=
  { entryOf s n q handle ((adapterFor s q.tenant q.context q.adapter).getD 0) q.promptLen with
      position := j * segment, ring := true, ringZ := order.length + 1, member := j, ringNodes := order ++ [q.from_]
      segFirst := j * segment, segEnd := (j + 1) * segment, parent := q.parent, publish := false }

/-- The test of a segment: conditions 1 to 5, 9 and 10. A module that has no place in the ring answers CAPACITY (DESIGN
CHOICE, log 117). Its freeboard is that of a prefill to the end of the segment (R126). -/
def testSegment (n : Nat) (q : Query) (s : State) : Except Answer (State × Nat × Seq × List Chunk) :=
  match testTime s n with
  | some a => .error a
  | none =>
    if q.compEpoch ≠ compEpoch s then .error (refusedFor rEpochStale)
    else if !keysInForce s q.tenant then .error (refusedFor rKeyAbsent)
    else if !contextOk s q.tenant q.context false then .error (refusedFor rModel)
    else
      let h := newHandle s
      match segmentPlace s q, h.1 with
      | none, _ => .error (refusedFor rCapacity)
      | _, none => .error (deferredFor rCapacity Config.none48)
      | some (order, j), some (slot, handle) =>
        let segment := ((ctxOf s q.context).map (·.ringSegment)).getD 0
        let e := segmentEntry s n q handle order j segment
        match testFreeboard h.2 n (fun s => takeFreeboard slot e.segEnd 0 0 (putSeq slot e s)) with
        | .error a => .error a
        | .ok s2 =>
          match testBudget s n e.cls Config.none48 q.tenant e (cutChunks (j * segment) ((j + 1) * segment)) with
          | .error a => .error a
          | .ok plan => .ok (s2, slot, e, plan)

/-- A ring segment joins, or its keeper is answered (R157). -/
def joinSegment (n keeper : Nat) (msg : List Byte) (s : State) : State :=
  match readQuery keeper msg with
  | none => s
  | some q =>
    match testSegment n q s with
    | .error a => sendVerdict q a Config.none32 [] s
    | .ok (s2, slot, e, plan) =>
      let s := updSeq slot (fun x => { x with
        chunks := plan, decodeFrom := planLast plan + 1, nextStep := planLast plan, source := keeper }) s2
      sendVerdict q { outcome := 1, reason := 0, step := planLast plan } e.handle [] s

/-! ## What a sequence still holds (R178 step 3) -/

/-- A page of a list that will not serve again: damaged and not being rebuilt. -/
def pageLost (s : State) (i : Nat) : Bool :=
  match descAt s i with
  | none => true
  | some d => d.damaged && !((codingAt s i).map (fun c => c.rebuild.isSome)).getD false

/-- Pages of a layer up to the first one lost. -/
def soundPages (s : State) (p : LayerPages) : List (Nat × Desc) :=
  (p.list.takeWhile (fun i => !pageLost s i)).filterMap (fun i => (descAt s i).map (fun d => (i, d)))

/-- First position that the sound pages of a layer do not hold. -/
def soundEnd (s : State) (from_ : Nat) (p : LayerPages) : Nat :=
  ((soundPages s p).getLast?.map (fun x => x.2.firstPos + x.2.fill)).getD from_

/-- The resume point of a layer for a limit: the limit itself, or the beginning of the page, hopper excepted, in which it
falls. -/
def cutPoint (s : State) (limit : Nat) (p : LayerPages) : Nat :=
  match (soundPages s p).find? (fun x => decide (x.2.firstPos < limit) && decide (limit < x.2.firstPos + x.2.fill)) with
  | some x => if x.2.state == .hopper then limit else x.2.firstPos
  | none => limit

/-- The least limit that every layer can be cut at. -/
def settlePoint (s : State) (layers : List LayerPages) : Nat → Nat → Nat
  | 0, limit => limit
  | fuel + 1, limit =>
    let l := layers.foldl (fun acc p => min acc (cutPoint s limit p)) limit
    if l = limit then limit else settlePoint s layers fuel l

/-- Whether a layer loses a page at a limit. -/
def losesPage (s : State) (limit : Nat) (p : LayerPages) : Bool :=
  p.list.any (fun i => pageLost s i || ((descAt s i).map (fun d => decide (limit ≤ d.firstPos) && d.state != .hopper)).getD true)

/-- First position not held in pages at every layer; the rings of window layers cannot be taken back, so with them a lost
page means the whole history. -/
def resumePoint (s : State) (e : Seq) : Nat :=
  let ends := e.layers.map (soundEnd s e.segFirst)
  let limit := settlePoint s e.layers (e.layers.length + 1) ((minOf ends).getD e.segFirst)
  let windows := (List.range e.layers.length).any (fun l => decide (0 < layerWindow s e.context l))
  if windows && e.layers.any (losesPage s limit) then e.segFirst else limit

/-- A hopper is cut at a position; one that keeps nothing becomes the layer's allowance again. -/
def cutHopper (slot l limit i : Nat) (d : Desc) (s : State) : State :=
  let kept := limit - d.firstPos
  if 0 < kept then (if d.refcount = 1 then updDesc i (fun d => { d with rows := d.rows.take kept, fill := min d.fill kept }) s else s)
  else if d.refcount = 1 ∧ ((seqAt s slot).map (fun e => (e.layer l).unused.isNone)).getD false then
    updLayer slot l (fun p => { p with list := p.list.filter (· ≠ i), unused := some i })
      (updDesc i (fun d => { d with state := .spare, rows := [], fill := 0 }) s)
  else decRef i (updLayer slot l (fun p => { p with list := p.list.filter (· ≠ i) }) s)

/-- A layer is cut at a position: pages past it, and lost ones, leave its list. -/
def cutLayer (slot limit l : Nat) (s : State) : State :=
  match seqAt s slot with
  | none => s
  | some e =>
    (e.layer l).list.foldl (fun s i =>
      match descAt s i with
      | none => updLayer slot l (fun p => { p with list := p.list.filter (· ≠ i) }) s
      | some d =>
        if d.state == .hopper then cutHopper slot l limit i d s
        else if limit ≤ d.firstPos || pageLost s i then decRef i (updLayer slot l (fun p => { p with list := p.list.filter (· ≠ i) }) s)
        else s) s

/-- All layers are cut. -/
def cutSequence (slot limit : Nat) (s : State) : State :=
  match seqAt s slot with
  | none => s
  | some e => (List.range e.layers.length).foldl (fun s l => cutLayer slot limit l s) s

/-! ## Resumes (R178) -/

/-- P modules of the entry's composition epoch, in rendezvous order. -/
def resumeOwners (s : State) (e : Seq) : List Nat :=
  match (s.slc.maps.find? (fun m => m.epoch == e.compEpoch)).orElse (fun _ => mapNow s) with
  | none => []
  | some m => (rendezvous (requestKey e.tenant e.requestId) (groupRole m s.fab.node 0)).filter (fun p => !goneNow s p)

/-- Chunks of a resume from a position: to the end of the history, or the one row of a resume chunk. -/
def resumeChunks (from_ len : Nat) : List (Nat × Nat) := if from_ < len then cutChunks from_ len else [(len - 1, 1)]

/-- The join is tried again at a later boundary (R157); an earliest step that names none is the next one. -/
def retryAt (n step slot : Nat) (e : Seq) (s : State) : State :=
  addWait ⟨4, e.tenant, s.fab.node, 0, if step = Config.none48 then n + 1 else max (n + 1) step, .join (.reprefill slot e.handle)⟩ s

/-- The test of a resume: conditions 1, 2, 9 and 10. -/
def testResume (n slot point : Nat) (e : Seq) (s : State) : Except Answer (State × List Chunk) :=
  match testTime s n with
  | some a => .error a
  | none =>
    let s0 := updSeq slot (fun e => { e with state := .orphaned }) s
    match testFreeboard s0 n (cutSequence slot point) with
    | .error a => .error a
    | .ok s1 =>
      let len := (histOf s slot).length
      match testBudget s0 n e.cls Config.none48 e.tenant { e with state := .prefill, position := point } (resumeChunks point len) with
      | .error a => .error a
      | .ok plan => .ok (s1, markResume (decide (len ≤ point)) plan)

/-- The mark of a record whose sequence a new composition map redirects (R182): its resume gives no notice. -/
def redirected : Nat := 5

/-- A resume is granted to a P module (R178); its grant goes out at the end of the boundary's work. A redirection gives no
notice (R182). -/
def grantResume (n slot point p : Nat) (plan : List Chunk) (e : Seq) (r : OwnRec) (s : State) : State :=
  let last := planLast plan
  let s := clearWork e.handle s
  let s := updSeq slot (fun e => { e with
    state := .prefill, chunks := plan, decodeFrom := last + 1, nextStep := last, position := point, layersRun := 0
    carried := false }) s
  let next := (pickNext s e).getD Config.none32
  let s := setRec slot { r with
    owner := p, role := 0, state := .offered, epoch := nextEpoch r.epoch, next := next, effective := last + 1, acked := false
    quiet := 0, heard := false, tail := false, granted := false, outgoing := none, tailMsg := none, policyDue := false
    grantCause := if r.state == .rehoming then 4 else 3, tailPos := (histOf s slot).length - 1, arriving := false } s
  let s := if r.grantCause = redirected then s else addNotice e 5 0 last s
  sendGrant slot p 3 (nextEpoch r.epoch) (n + 1) 0 s

/-- The adapter version that a sequence names is held here: the same id under the same generation, of its tenant and
context (R201, R205). -/
def versionHeld (s : State) (e : Seq) : Bool :=
  e.adapter == 0 ||
  (match Tab.look e.adapter s.mdl.adapters with
   | some a => a.generation == e.adapterGen && a.tenant == e.tenant && a.context == e.context
   | none => false)

/-- A sequence that has resumed since takes no second resume (R166, R184): its owner has been granted the sequence. -/
def resumeDone (e : Seq) (r : OwnRec) : Bool := r.state == .offered && r.role == 0 && e.state == .prefill && !r.acked

/-- A re-prefill joins (R32, R157, R178); a version or context that is not here refuses it (R205). Until it joins the entry
is ORPHANED (R142); one in DRAINING, whose final notice has gone, is let go instead (log 87). -/
def joinResume (n slot handle : Nat) (s : State) : State :=
  match slotOf s handle, recAt s slot with
  | some k, some r =>
    match seqAt s k with
    | none => s
    | some e =>
      if k ≠ slot || resumeDone e r then s
      else if e.drop then leaveKeeper slot (recallAll slot 1 (n + 1) s)
      else if (ctxOf s e.context).isNone || !versionHeld s e then cancelOrphaned slot n s
      else
        let s := updSeq slot (fun e => { e with state := .orphaned }) s
        let point := resumePoint s e
        match resumeOwners s e with
        | [] => retryAt n Config.none48 slot e s
        | p :: _ =>
          match testResume n slot point e s with
          | .error a => if a.outcome = 2 then retryAt n a.step slot e s else cancelOrphaned slot n s
          | .ok (s1, plan) => grantResume n slot point p plan e r s1
  | _, _ => s

/-! ## Handoff arrivals (R157, R170, R178) -/

/-- The entry of an arrival: `resume` at a P module. The GRANT names no model context: it is open (log 52). -/
def arrivalEntry (n handle context : Nat) (h : Slu) (st : StateRec) (gateway : Nat) (resume : Bool) : Seq :=
  { handle := handle, state := if resume then .prefill else .decode, tenant := h.tenant, context := context, cls := 2
    ownEpoch := h.epoch, compEpoch := h.compEpoch, requestId := h.requestId, admitStep := n, nextStep := st.nextStep
    promptLen := st.histFirst + st.tokens.length - st.generated, maxNew := st.maxNew
    position := if resume then st.position else st.tailPos + 1, generated := st.generated, source := h.sender
    sampling := { temperature := st.temperature, topP := st.topP, topK := st.topK, seed := st.seed }
    endToken := st.endToken, gateway := gateway }

/-- A grant whose every segment is there joins: the owner's side begins and is acknowledged (R170). -/
def joinHandoff (n keeper : Nat) (g : List Byte) (p : Pend) (s : State) : State :=
  let h := sluFields g
  if !h.lastSegment then addWait p s
  else
    let k := newHandle s
    match k.1 with
    | none => addWait p k.2
    | some (slot, handle) =>
      let st := joinedState g 48
      let resume := roleP s
      let known := st.histFirst + st.tokens.length
      let c := freeBelow 64 k.2
      let s := putSeq slot (arrivalEntry n handle c.1 h st (fld g 44 4) resume) c.2
      let o : Owned := { keeper := keeper, keeperHandle := h.seq, draws := st.draws, histFirst := st.histFirst
                         tokens := st.tokens, embedded := if resume then min st.position (known - 1) else st.tailPos + 1
                         muteAfter := if bitOf (fld g 1 1) 7 then some n else none }
      ownerSend slot 0x31 0 [] { s with sqs := { s.sqs with owned := Tab.put slot o s.sqs.owned } }

/-! ## Re-homing (R184) -/

/-- One checkpoint record as stored. -/
structure Stored where
  kind : Nat
  tenant : Nat
  handle : Nat
  keeper : Nat
  first : Nat
  count : Nat
  body : List Byte
  deriving DecidableEq, Repr

/-- The records of a REHOME body with their bodies decrypted (R352); none where one is not whole. -/
def storedRecords (key : Nat) : Nat → List Byte → Option (List Stored)
  | 0, bs => if bs.isEmpty then some [] else none
  | fuel + 1, bs =>
    if bs.isEmpty then some []
    else
      let len := fld bs 32 4
      let body := (bs.drop 64).take len
      let kind := fld bs 0 1
      if bs.length < 64 + len ∨ len % 64 ≠ 0 ∨ fld bs 60 4 ≠ crc32c (bs.take 60 ++ body) ∨ kind = 0 ∨ 3 < kind then none
      else
        let tweak := ckptTweak (fld bs 8 4) (fld bs 4 4) (fld bs 12 4) kind
        (storedRecords key fuel (bs.drop (64 + len))).map (fun r =>
          { kind := kind, tenant := fld bs 1 1, handle := fld bs 4 4, keeper := fld bs 8 4, first := fld bs 24 4
            count := fld bs 28 4, body := unxts key tweak body } :: r)

/-- The history that SEQUENCE records carry, each from its FIRST on. -/
def storedHistory (rs : List Stored) : List Nat :=
  (rs.filter (fun r => r.kind == 1)).foldl (fun h r => h.take r.first ++ words4 r.body 256 r.count) []

/-- References of DURABLE pages: layer, generation, descriptor index. -/
def storedRefs (rs : List Stored) : List (Nat × Nat × Nat) :=
  ((rs.filter (fun r => r.kind == 2)).map (fun r => (List.range r.count).map (fun i =>
    (fld r.body (8 * i) 1, fld r.body (8 * i + 2) 2, fld r.body (8 * i + 4) 4)))).flatten

/-- The entry of a checkpoint (R141) with a new handle. -/
def storedEntry (s : State) (n handle : Nat) (b : List Byte) : Seq :=
  let c := fld b 6 1
  let f := fld b 7 1
  { handle := handle, state := .orphaned, tenant := fld b 5 1, context := c % 64, cls := c / 64, publish := bitOf f 0
    forked := bitOf f 2, drop := bitOf f 3, adapter := fld b 8 2, adapterGen := fld b 10 1, ownEpoch := fld b 16 4
    compEpoch := compEpoch s, requestId := fld b 24 8, admitStep := n, nextStep := fld b 38 6, deadline := fld b 44 6
    promptLen := fld b 52 4, maxNew := fld b 56 4, position := 0, generated := fld b 64 4, lP := fld b 68 2
    source := fld b 72 4, parent := fld b 76 4
    sampling := { temperature := fld b 88 4, topP := fld b 92 4, topK := fld b 96 4, seed := fld b 100 8 }
    endToken := fld b 108 4, lateTokens := fld b 112 4, gateway := fld b 116 4
    layers := List.replicate (((ctxOf s (c % 64)).map (·.layers.length)).getD 0) {} }

/-- References of one layer in the order written: its pages from page 0 on. -/
def refsOf (refs : List (Nat × Nat × Nat)) (l : Nat) : List (Nat × Nat × Nat) := refs.filter (fun r => r.1 == l)

/-- A DURABLE page of the lost keeper is being rebuilt here (R184, R251). -/
def adoptPage (slot l i keeper : Nat) (r : Nat × Nat × Nat) (s : State) : State :=
  match seqAt s slot with
  | none => s
  | some e =>
    let size := pageTokens s
    let n := Seq.pageExtents s e
    let d : Desc := { state := .sealed, tier := kvTier s, durable := true, alloc := if kvTier s == .cxl then 2 else 0
                      tenant := e.tenant, layer := l, context := e.context, firstPos := i * size, fill := size, extents := n
                      mapClass := Seq.mapClass s e, windowRing := decide (0 < layerWindow s e.context l), refcount := 1, holder := some slot, sealHeld := n, damaged := true,
                      homeMap := drawMap s slot l }
    let a := newDesc d s
    match a.1 with
    | none => a.2
    | some k =>
      let s := fitLines slot l (updLayer slot l (fun p => { p with list := p.list ++ [k], credit := p.credit - 1, maps := p.maps.drop 1 }) a.2)
      let nodes := fragNodes s keeper r.2.2 r.2.1
      let c : Coding := { keeper := keeper, index := r.2.2, generation := r.2.1, tenant := e.tenant, tableId := 0, imageLen := 0
                          fragLen := 0, holders := (List.range 10).map (fun f => (fragTry nodes f 0).getD Config.none32)
                          acked := List.range 10, next := [], frags := [], isProtected := true, unprotected := false
                          freeing := false, rebuild := none, rebuildAt := 0 }
      startRebuild k c s

/-- Whether page `i` of a layer whose first `run` pages are held still serves it: a layer with a window keeps those that
hold one of its last W positions (R138). -/
def servesWindow (s : State) (window run i : Nat) : Bool :=
  window == 0 || decide (run * pageTokens s < (i + 1) * pageTokens s + window)

/-- Pages of every layer that are rebuilt: those of the layers' common run, of a layer with a window the last of them. -/
def adoptPages (slot context keeper : Nat) (refs : List (Nat × Nat × Nat)) (layers : Nat) (s : State) : State :=
  let run := ((minOf ((List.range layers).map (fun l => (refsOf refs l).length)))).getD 0
  (List.range layers).foldl (fun s l =>
    (((List.range run).zip (refsOf refs l)).filter (fun p => servesWindow s (layerWindow s context l) run p.1)).foldl
      (fun s p => adoptPage slot l p.1 keeper p.2 s) s) s

/-- The old owner is asked for its history (R184). -/
def askHistory (slot : Nat) (s : State) : State :=
  match seqAt s slot, recAt s slot with
  | some e, some r =>
    if goneNow s r.owner then s
    else sendSlu r.owner (sluHdr s 0x39 0 2 e.handle r.epoch e) (le 4 (histOf s slot).length ++ zeros 4) s
  | _, _ => s

/-- ROLE of an owner: 0 for a P module of the map in force, 1 otherwise (R165). -/
def nodeRole (s : State) (node : Nat) : Nat := if (((mapNow s).bind (·.entry node)).map (·.role)).getD 1 = 0 then 0 else 1

/-- The sequence of a checkpoint enters here in REHOMING. -/
def beginRehome (slot : Nat) (e : Seq) (hist : List Nat) (rs : List Stored) (keeper : Nat) (s : State) : State :=
  let s := adoptPages slot e.context keeper (storedRefs rs) e.layers.length s
  let s := setHist slot hist s
  let r : OwnRec := { owner := e.source, role := nodeRole s e.source, state := .rehoming, acked := false
                      epoch := (e.ownEpoch + 0x01000000) % 2 ^ 32, draws := e.generated, sentAt := s.tmu.now }
  bump cRehome 1 (askHistory slot (setRec slot r s))

/-- A refused REHOME ends the sequence: CANCELLED with cause ORPHANED (R157, R205). -/
def refuseRehome (t : Ticket) (e : Seq) (reason : Nat) (s : State) : State := reasonWith t reason (addNotice e 2 4 0 s)

/-- REHOME at action 4: tested as a re-prefill join (R184). -/
def joinRehome (n : Nat) (p : Pend) (t : Ticket) (requestId : Nat) (body : List Byte) (s : State) : State :=
  match storedRecords (Tab.getD s.sec.memory p.tenant 0) (body.length / 64) body with
  | none => refusedWith t causeRange s
  | some rs =>
    match (rs.filter (fun r => r.kind == 1)).getLast? with
    | none => refusedWith t causeRange s
    | some last =>
      let h := newHandle s
      match h.1 with
      | none => addWait { p with notBefore := n + 1 } h.2
      | some (slot, handle) =>
        let e := storedEntry s n handle last.body
        let hist := storedHistory rs
        if e.tenant ≠ p.tenant ∨ e.requestId ≠ requestId ∨ hist.isEmpty then refusedWith t causeRange s
        else if (ctxOf s e.context).isNone || !versionHeld s e then
          refuseRehome t e (if (ctxOf s e.context).isNone then rModel else rAdapter) s
        else
          match testTime s n with
          | some a =>
            if a.outcome = 2 then addWait { p with notBefore := if a.step = Config.none48 then n + 1 else a.step } s
            else refuseRehome t e a.reason s
          | none =>
            let new := e.maxNew - e.generated
            match testFreeboard h.2 n (fun s => takeFreeboard slot hist.length new 0 (putSeq slot e s)) with
            | .error a =>
              if a.outcome = 2 then addWait { p with notBefore := if a.step = Config.none48 then n + 1 else a.step } s
              else refuseRehome t e a.reason s
            | .ok s2 =>
              match testBudget s n e.cls Config.none48 e.tenant { e with state := .prefill } (resumeChunks 0 hist.length) with
              | .error a =>
                if a.outcome = 2 then addWait { p with notBefore := max (n + 1) a.step } s else refuseRehome t e a.reason s
              | .ok _ => doneWith t handle 0 (beginRehome slot e hist rs last.keeper s2)

/-! ## Action 4 -/

/-- A join that is tested: a handoff arrival once its last segment is there; allocations are not counted. -/
def Pend.tested (p : Pend) : Bool :=
  match p.wait with
  | .join (.handoff g _) => (sluFields g).lastSegment
  | .command .. => false
  | _ => true

/-- One join. -/
def joinOne (n : Nat) (p : Pend) (s : State) : State :=
  let s := journalWait p s
  match p.wait with
  | .join (.fork q) => joinFork n q s
  | .join (.segment k m) => joinSegment n k m s
  | .join (.reprefill slot h) => joinResume n slot h s
  | .join (.handoff g k) => joinHandoff n k g p s
  | .join (.rehome t r body) =>
    let s := journal 3 4 p.tenant p.source p.sseq body s
    joinRehome n p t r (pendBody body) s
  | _ => s

/-- A join beyond the limit is answered without a test, or waits for the next boundary (R145). -/
def carryJoin (n : Nat) (p : Pend) (s : State) : State :=
  match p.wait with
  | .join (.fork q) => sendVerdict q (deferredFor rCapacity (n + 1)) Config.none32 [] (journalWait p s)
  | .join (.segment k m) =>
    match readQuery k m with
    | some q => sendVerdict q (deferredFor rCapacity (n + 1)) Config.none32 [] (journalWait p s)
    | none => s
  | _ => addWait { p with notBefore := n + 1 } s

/-- Joins in key order, then the allocations (R157, R213). -/
def actionJoin (n : Nat) (s : State) : State :=
  let ps := pendsFor s n 4
  let s := dropPends n 4 s
  let tests := ps.filter Pend.tested
  let late := tests.drop 1024
  let now := ps.filter (fun p => !late.contains p)
  let s := now.foldl (fun s p => joinOne n p s) s
  let s := if late.isEmpty then s
    else late.foldl (fun s p => carryJoin n p s) (raise .admitCarried (dispositionAt 4 8 Config.none32 0 late.length s))
  now.foldl (fun s p => match p.wait with
    | .command t op b => applyCommand p t op b s
    | _ => s) s

end Sys2Proof.Machine
end

