-- ==== Sys2Proof/Machine/Taken.lean ====
section
/-! DEFINITION. Host-ring commands that take effect when they are taken (R238, R257, R265, R268, R274, R281, R305, R306,
R326, R365). -/

namespace Sys2Proof.Machine

/-! ## WRITE, READ and ATOMIC (R257, R261, R274, R365) -/

/-- A cause of RANGE in a WRITE, READ or ATOMIC: sub-queue 15, a length outside its bounds, an unknown operation. -/
def remoteRange (op : RingOp) (h : CmdHead) : Bool :=
  h.subq == 15 ||
  (match op with
   | .write _ => h.bodyLen == 0 || decide (16842752 < h.bodyLen)
   | .read _ => h.bodyLen == 0 || decide (1048576 < h.bodyLen)
   | .atomic o => o.op != 1 && o.op != 2
   | _ => true)

/-- The message of a WRITE, READ or ATOMIC: opcode, length, payload, and what its answer completes. -/
def remoteMsg (op : RingOp) (h : CmdHead) (t : Ticket) (s : State) : Nat × Nat × List Byte × Carried :=
  match op with
  | .write _ => (2, h.bodyLen, readMem s h.bodyAddr h.bodyLen, .hostWrite t h.bodyAddr)
  | .read _ => (3, 8, le 4 h.bodyLen ++ zeros 4, .hostRead t h.bodyAddr)
  | .atomic o => (5, 24, le 1 o.op ++ zeros 7 ++ le 8 o.operand ++ le 8 o.compare, .hostAtomic t)
  | _ => (0, 0, [], .hidden)

/-- WRITE, READ and ATOMIC at taking. In replay nothing goes to a node outside the group (R333). -/
def doRemote (t : Ticket) (h : CmdHead) (op : RingOp) (o : RemoteOps) (s : State) : State :=
  if remoteRange op h then refusedWith t causeRange s
  else if h.tenant = 0 || !(queueOf s (dikeQueue h.tenant h.subq)).enable then queueDisabled t s
  else if s.stw.charter.replay = 1 && !(groupNodes s).contains o.dest then s
  else
    let m := remoteMsg op h t s
    let q := takeSeq o.dest s
    let pieces := chunks packetBytes m.2.2.1
    submitMsg { dest := o.dest, seq := q.1, opcode := m.1, dike := h.tenant, keyIndex := 0, window := o.window, gen := o.gen,
                key := o.key, winOffset := o.winOffset, notify := h.notify && m.1 == 2, msgLen := m.2.1,
                queue := dikeQueue h.tenant h.subq, charged := false, carried := m.2.2.2, packets := offsets 0 pieces,
                unsent := pieces.length, firstSent := none, latestSent := 0, answer := [], answerCount := 0 } q.2

/-! ## BUILD_TABLE (R238) -/

/-- The source of a build lies in HDM or in ACTIVE segments of the CXL tier. -/
def sourceOk (s : State) (a n : Nat) : Bool :=
  inHdm a n || inSegments s a n

/-- BUILD_TABLE at taking: builds run one after another. -/
def doBuildTable (t : Ticket) (h : CmdHead) (layout source length : Nat) (s : State) : State :=
  if decide (6 ≤ layout) || length == 0 || decide (67108864 < length) || !sourceOk s source length then
    refusedWith t causeRange (tableResult 1 causeRange 0 s)
  else { s with cmp := { s.cmp with build := s.cmp.build ++ [(t, layout, source, length, h.bodyAddr)] } }

/-- BUILD_TABLE_COMPLETE: the record is written at the address the command names; its reads are charged to dike 0
(R310). -/
def execBuildTableComplete (s : State) : Host.Outcome State Fault Refusal :=
  match s.cmp.build with
  | [] => .next s
  | (t, layout, source, length, result) :: rest =>
    if !inService s then .next s
    else
      let s := { s with cmp := { s.cmp with build := rest } }
      let s := chargeTier (if inHdm source length then .gddr else .cxl) 0 length s
      let s := writeMem result (buildTableRecord layout (readMem s source length)) s
      .next (done t (raise .tableCommand (tableResult 1 0 0 s)))

/-! ## Commands at taking -/

/-- The action that applies a command, for those that wait for a boundary (R365). -/
def waitAction : RingOp → Option Nat
  | .freeObject _ _ => some 1
  | .allocObject _ _ _ _ => some 4
  | .rehome _ => some 4
  | .switchImage => some 6
  | .lease _ => some 2
  | .installKey _ => some 2
  | .registerContext => some 2
  | .retireContext _ => some 2
  | .registerAdapter => some 2
  | .withdrawAdapter _ => some 2
  | .installTable _ _ => some 2
  | .drainDie _ _ => some 2
  | .readmitDie _ => some 2
  | _ => none

/-- The HDM bytes a command reads besides the bytes read at taking: BUILD_TABLE's source. -/
def readLater (op : RingOp) (s : State) : List Byte :=
  match op with
  | .buildTable _ a n => if inHdm a n && decide (n ≤ 67108864) then readMem s a n else []
  | _ => []

/-- A command that takes effect at taking, or at the first boundary after a firmware switch (R305), with its record
(R330). -/
def doTaken (p : Pend) (t : Ticket) (op : RingOp) (body : List Byte) (s : State) : State :=
  let h := readHead (p.source - Config.ringSource 0) (pendEntry body)
  let b := pendBody body
  let s := journal 3 p.action p.tenant p.source p.sseq (body ++ readLater op s) s
  match op with
  | .compose => doCompose t b s
  | .buildTable l a n => doBuildTable t h l a n s
  | .openWindow o => doOpenWindow t h.tenant o s
  | .reopenWindow w o => doReopenWindow t h.tenant w o s
  | .revokeWindow w => doRevokeWindow t h.tenant w s
  | .setQueue q e n r => doSetQueue t q e n r s
  | .setPolicer d e r b => doSetPolicer t d e r b s
  | .write o => doRemote t h op o s
  | .read o => doRemote t h op o s
  | .atomic o => doRemote t h op o s
  | .stageImage => doStageImage t h b s
  | .commitSvn => doCommitSvn t s
  | _ => s

end Sys2Proof.Machine
end

