-- ==== Sys2Proof/Machine/Rings.lean ====
section
/-! DEFINITION. The host rings: doorbells, taking an entry, and the commands as they are put into a ring and taken
(R325, R326, R333, R362 to R365, R367, R375). -/

namespace Sys2Proof.Machine

/-! ## Taking (R362 to R364) -/

/-- A CXL port carries traffic. -/
def CxlPort.live (p : CxlPort) : Bool := decide (0 < p.width)

/-- A port is up: with both down no ring is served (R367). -/
def cxlUp (s : State) : Bool := s.hif.x0.live || s.hif.x1.live

/-- Opcodes that a dike ring accepts (R362). -/
def dikeOpcode (op : Nat) : Bool := [0x0A, 0x0B, 0x0C, 0x0D, 0x0E, 0x11, 0x12, 0x13].contains op

/-- The body of an entry lies in the command data area, or there is none (R362, R364). -/
def bodyOk (h : CmdHead) : Bool := (h.bodyAddr == 0 && h.bodyLen == 0) || inCommandArea h.bodyAddr h.bodyLen

/-- BODY_LEN is the size of the record that the opcode carries (R364). -/
def lengthOk (op : RingOp) (h : CmdHead) (s : State) : Bool :=
  match recordLen op h s with
  | none => true
  | some n => h.bodyLen == n

/-- What a key blob opens to, where the command does not say. -/
def withOpened (opened : Option (Option (List Byte))) (body : List Byte) : RingOp → RingOp
  | .installKey _ => .installKey (opened.getD (Config.openBlob body))
  | op => op

/-- The bytes a command reads at taking (R365): WRITE data is read as packets are sent, READ reads none. -/
def bodyAtTaking (op : RingOp) (h : CmdHead) (s : State) : List Byte :=
  match op with
  | .write _ => []
  | .read _ => []
  | _ => readMem s h.bodyAddr h.bodyLen

/-- An entry gives its reserved completion slot back without a completion. -/
def giveSlotBack (r : Nat) (s : State) : State :=
  let g := ringOf s r
  setRing r { g with reserved := g.reserved - 1 } s

/-- The action under which a live INSTALL_KEY waits in replay for its record (R333). -/
def replayKeyAction : Nat := 9

/-- A well-formed command is taken: it waits for its boundary or takes effect. In replay every command but INSTALL_KEY is
ignored (R333). -/
def takeCommand (r : Nat) (bs : List Byte) (op : RingOp) (h : CmdHead) (t : Ticket) (sseq : Nat) (s : State) : State :=
  let src := Config.ringSource r
  let body := bs ++ bodyAtTaking op h s
  let s := noteFirst src sseq s
  if s.stw.charter.replay = 1 then
    match op with
    | .installKey _ =>
      addWait { action := replayKeyAction, tenant := h.tenant, source := src, sseq := sseq, wait := .command t op body } s
    | _ => giveSlotBack r s
  else
    match waitAction op, op with
    | some a, .rehome q =>
      addWait { action := a, tenant := h.tenant, source := src, sseq := sseq, wait := .join (.rehome t q body) } s
    | some a, _ => addWait { action := a, tenant := h.tenant, source := src, sseq := sseq, wait := .command t op body } s
    | none, _ =>
      if s.sec.upd == .switching then
        addWait { action := 2, tenant := h.tenant, source := src, sseq := sseq, wait := .command t op body } s
      else doTaken { action := 0, tenant := h.tenant, source := src, sseq := sseq, wait := .command t op body } t op body s

/-- Take the entry at a ring's head (R363): its completion slot is reserved; a dike ring's limits come before the entry's
form (log 57). -/
def takeEntry (r : Nat) (opened : Option (Option (List Byte))) (s : State) : State :=
  let g := ringOf s r
  let bs := readMem s (sqEntryAddr r g g.sqHead) 64
  let h := readHead r bs
  let t : Ticket := { ring := r, tag := h.tag, opcode := fld bs 0 1, silent := h.silent }
  let sseq := (g.taken + 1) % 2 ^ 32
  let s := setRing r { g with sqHead := (g.sqHead + 1) % g.size, taken := sseq, reserved := g.reserved + 1 } s
  if g.isDike && !(dikeOpcode t.opcode && h.tenant == g.tenant) then reasonWith t rRights s
  else match readOp bs with
    | none => malformed t s
    | some op =>
      if entryRsvdOk bs && bodyOk h && lengthOk op h s then
        takeCommand r bs (withOpened opened (readMem s h.bodyAddr h.bodyLen) op) h t sseq s
      else malformed t s

/-- An entry can be taken from a ring. -/
def canTake (s : State) (r : Nat) : Bool :=
  let g := ringOf s r
  inService s && cxlUp s && g.enabled && !g.error && g.sqHead != g.sqTail && g.hasSlot

/-- Take the entries that are there, as long as completion slots are free (R363, R367); `opened` is about the first. -/
def serveRing (r : Nat) (opened : Option (Option (List Byte))) : Nat → State → State
  | 0, s => s
  | n + 1, s => if canTake s r then serveRing r none n (takeEntry r opened s) else s

/-- Most entries a ring holds. -/
def ringFuel : Nat := 4096

/-- Serve all rings (R363): turn after turn, one entry of each ring in ascending number. -/
def serveTurns : Nat → State → State
  | 0, s => s
  | n + 1, s =>
    if (List.range 64).any (canTake s) then serveTurns n ((List.range 64).foldl (fun s r => serveRing r none 1 s) s) else s

/-- Serve all rings until nothing more can be taken. -/
def serveRings (s : State) : State := serveTurns ringFuel s

/-! ## Doorbells and control (R363, R375) -/

/-- A write to HIF_SQ_TAIL. -/
def doorbell (ring tail : Nat) (s : State) : State :=
  let g := ringOf s ring
  let tail := tail % 8192
  if g.enabled && !g.error && decide (g.size ≤ tail) then raise .ringError (setRing ring { g with sqTail := tail, error := true } s)
  else serveRing ring none ringFuel (setRing ring { g with sqTail := tail } s)

/-- SQ_DOORBELL (R363): new entries of a ring are there. -/
def execSqDoorbell (at_ ring tail : Nat) (placed : Placed) (s : State) : Host.Outcome State Fault Refusal :=
  if inService s && decide (ring < 64) then .next (doorbell ring tail (place placed (setNow at_ s))) else .next s

/-- A write to HIF_CQ_HEAD: the entries from the old head up to the new one are consumed. -/
def consumed (ring head : Nat) (s : State) : State :=
  let g := ringOf s ring
  let read := (head % 4096 + g.size - g.cqHead % g.size) % g.size
  serveRing ring none ringFuel (setRing ring { g with cqHead := head % 4096, held := g.held - read } s)

/-- CQ_HEAD_WRITE (R363, R364): the host has consumed completions, so entries that waited may be taken. -/
def execCqHeadWrite (ring head : Nat) (s : State) : Host.Outcome State Fault Refusal :=
  if inService s && decide (ring < 64) then .next (consumed ring head s) else .next s

/-- A write to HIF_RING_CTRL: configuration only while ENABLE is 0; enabling sets heads and tails to 0 and ends a stop. -/
def ringControl (ring value : Nat) (s : State) : State :=
  let g := ringOf s ring
  if g.enabled then
    (if bitOf value 31 then s else setRing ring { g with ctrl := g.ctrl % 2 ^ 31 } s)
  else
    let ctrl := value / 2 ^ 16 % 2 ^ 16 * 2 ^ 16
    if bitOf value 31 then
      setRing ring { g with ctrl := ctrl, error := false, sqHead := 0, sqTail := 0, cqHead := 0, cqTail := 0, phase := true
                            held := 0 } s
    else setRing ring { g with ctrl := ctrl } s

/-- RING_CTRL_WRITE (R362, R363, R367). -/
def execRingCtrlWrite (ring : Nat) (value : Word) (s : State) : Host.Outcome State Fault Refusal :=
  if inService s && decide (ring < 64) then .next (ringControl ring value.toNat s) else .next s

/-! ## Commands -/

/-- A command is put into its ring and its doorbell rung (R362, R363): taken where the ring serves it, else it waits in the
ring; a ring that is disabled, stopped or full takes no new entry. -/
def submit (h : CmdHead) (op : RingOp) (opened : Option (Option (List Byte))) (s : State) : State :=
  let s := place h.placed s
  let g := ringOf s h.ring
  if g.enabled && !g.error && (g.sqTail + 1) % g.size != g.sqHead then
    let s := writeMem (sqEntryAddr h.ring g g.sqTail) (entryBytes h op) s
    let s := setRing h.ring { g with sqTail := (g.sqTail + 1) % g.size } s
    serveRing h.ring (if g.sqHead = g.sqTail then opened else none) ringFuel s
  else s

/-- A ring command of the table. -/
def ringCommand (h : CmdHead) (op : RingOp) (opened : Option (Option (List Byte))) (s : State) :
    Host.Outcome State Fault Refusal :=
  if inService s && decide (h.ring < 64) then .next (submit h op opened s) else .next s

/-- A ring command whose instant of taking is given: it takes effect then (R326). -/
def ringCommandAt (at_ : Nat) (h : CmdHead) (op : RingOp) (s : State) : Host.Outcome State Fault Refusal :=
  ringCommand h op none (if inService s then setNow at_ s else s)

/-- LEASE (R28, R365). -/
def execLease (h : CmdHead) (o : LeaseOps) (s : State) : Host.Outcome State Fault Refusal := ringCommand h (.lease o) none s

/-- COMPOSE (R18, R366). -/
def execCompose (h : CmdHead) (s : State) : Host.Outcome State Fault Refusal := ringCommand h .compose none s

/-- INSTALL_KEY (R292, R293). -/
def execInstallKey (h : CmdHead) (opened : Option (List Byte)) (s : State) : Host.Outcome State Fault Refusal :=
  ringCommand h (.installKey none) (some opened) s

/-- REGISTER_CONTEXT (R189). -/
def execRegisterContext (h : CmdHead) (s : State) : Host.Outcome State Fault Refusal := ringCommand h .registerContext none s

/-- RETIRE_CONTEXT (R192). -/
def execRetireContext (h : CmdHead) (context : Nat) (s : State) : Host.Outcome State Fault Refusal :=
  ringCommand h (.retireContext context) none s

/-- REGISTER_ADAPTER (R201). -/
def execRegisterAdapter (h : CmdHead) (s : State) : Host.Outcome State Fault Refusal := ringCommand h .registerAdapter none s

/-- WITHDRAW_ADAPTER (R203). -/
def execWithdrawAdapter (h : CmdHead) (context : Nat) (s : State) : Host.Outcome State Fault Refusal :=
  ringCommand h (.withdrawAdapter context) none s

/-- INSTALL_TABLE (R236). -/
def execInstallTable (h : CmdHead) (entry currentStep : Nat) (s : State) : Host.Outcome State Fault Refusal :=
  ringCommand h (.installTable entry currentStep) none s

/-- BUILD_TABLE (R238). -/
def execBuildTable (h : CmdHead) (layout source length : Nat) (s : State) : Host.Outcome State Fault Refusal :=
  ringCommand h (.buildTable layout source length) none s

/-- ALLOC_OBJECT (R211, R213). -/
def execAllocObject (h : CmdHead) (extents alloc : Nat) (pin durable : Bool) (s : State) : Host.Outcome State Fault Refusal :=
  ringCommand h (.allocObject extents alloc pin durable) none s

/-- FREE_OBJECT (R213). -/
def execFreeObject (h : CmdHead) (index gen : Nat) (s : State) : Host.Outcome State Fault Refusal :=
  ringCommand h (.freeObject index gen) none s

/-- OPEN_WINDOW (R268). -/
def execOpenWindow (at_ : Nat) (h : CmdHead) (o : WinOps) (s : State) : Host.Outcome State Fault Refusal :=
  ringCommandAt at_ h (.openWindow o) s

/-- REOPEN_WINDOW (R268). -/
def execReopenWindow (at_ : Nat) (h : CmdHead) (window : Nat) (o : WinOps) (s : State) : Host.Outcome State Fault Refusal :=
  ringCommandAt at_ h (.reopenWindow window o) s

/-- REVOKE_WINDOW (R268, R269). -/
def execRevokeWindow (at_ : Nat) (h : CmdHead) (window : Nat) (s : State) : Host.Outcome State Fault Refusal :=
  ringCommandAt at_ h (.revokeWindow window) s

/-- SET_QUEUE (R281). -/
def execSetQueue (at_ : Nat) (h : CmdHead) (queue : Nat) (enable : Bool) (quantum rate : Nat) (s : State) :
    Host.Outcome State Fault Refusal :=
  ringCommandAt at_ h (.setQueue queue enable quantum rate) s

/-- SET_POLICER (R281). -/
def execSetPolicer (at_ : Nat) (h : CmdHead) (dike : Nat) (enable : Bool) (rate burst : Nat) (s : State) :
    Host.Outcome State Fault Refusal :=
  ringCommandAt at_ h (.setPolicer dike enable rate burst) s

/-- WRITE (R365). -/
def execWrite (at_ : Nat) (h : CmdHead) (o : RemoteOps) (s : State) : Host.Outcome State Fault Refusal :=
  ringCommandAt at_ h (.write o) s

/-- READ (R365). -/
def execRead (at_ : Nat) (h : CmdHead) (o : RemoteOps) (s : State) : Host.Outcome State Fault Refusal :=
  ringCommandAt at_ h (.read o) s

/-- ATOMIC (R365). -/
def execAtomic (at_ : Nat) (h : CmdHead) (o : RemoteOps) (s : State) : Host.Outcome State Fault Refusal :=
  ringCommandAt at_ h (.atomic o) s

/-- STAGE_IMAGE (R305). -/
def execStageImage (at_ : Nat) (h : CmdHead) (s : State) : Host.Outcome State Fault Refusal := ringCommandAt at_ h .stageImage s

/-- SWITCH_IMAGE (R305). -/
def execSwitchImage (h : CmdHead) (s : State) : Host.Outcome State Fault Refusal := ringCommand h .switchImage none s

/-- COMMIT_SVN (R306). -/
def execCommitSvn (h : CmdHead) (s : State) : Host.Outcome State Fault Refusal := ringCommand h .commitSvn none s

/-- DRAIN_DIE (R350). -/
def execDrainDie (h : CmdHead) (die : Nat) (force : Bool) (s : State) : Host.Outcome State Fault Refusal :=
  ringCommand h (.drainDie die force) none s

/-- READMIT_DIE (R350). -/
def execReadmitDie (h : CmdHead) (die : Nat) (s : State) : Host.Outcome State Fault Refusal :=
  ringCommand h (.readmitDie die) none s

/-- REHOME (R184). -/
def execRehome (h : CmdHead) (requestId : Nat) (s : State) : Host.Outcome State Fault Refusal :=
  ringCommand h (.rehome requestId) none s

end Sys2Proof.Machine
end

