-- ==== Sys2Proof/Machine/Settle.lean ====
section
/-! DEFINITION. The end of a step as its closing boundary finds it: what has run, what moves to the next step, pages that
are sealed, protected and published, owners whose keepers were silent (R24, R100, R103, R107, R121, R123, R134, R175, R183,
R247). -/

namespace Sys2Proof.Machine

/-! ## Chunks and decode rows (R24, R100, R142, R152) -/

/-- Chunks in planned order from step `n` on: no step takes more than 8 of them or 4,096 rows, and what is over goes to the step
after, with everything behind it (R100). `now` chunks of `rows` rows stand in step `n` so far. -/
def spread (n now rows : Nat) : List Chunk → List Chunk
  | [] => []
  | c :: t =>
    let k := max n c.step
    let fits := decide (k ≠ n) || (decide (now < 8) && decide (rows + c.rows ≤ 4096))
    if k ≠ n then { c with step := k } :: spread k 1 c.rows t
    else if fits then { c with step := n } :: spread n (now + 1) (rows + c.rows) t
    else { c with step := n + 1 } :: spread (n + 1) 1 c.rows t

/-- The chunks of an entry at boundary `n`: those that ran through all layers are over, others of an earlier step move to
step `n`, and no step holds more than it may; the position follows the last row held. -/
def settleChunks (n : Nat) (e : Seq) : Seq :=
  let layers := e.layers.length
  let gone := e.chunks.filter (fun c => decide (c.step < n) && decide (layers ≤ c.ran))
  let left := spread n 0 0 (e.chunks.filter (fun c => !(decide (c.step < n) && decide (layers ≤ c.ran))))
  { e with
    chunks := left
    position := maxOf (e.position :: (gone.filter (fun c => !c.resume)).map (fun c => c.first + c.rows))
    state := if left.isEmpty && !gone.isEmpty && (e.state == .prefill || e.state == .accepted) then .decode else e.state
    decodeFrom := if left.isEmpty then e.decodeFrom else max e.decodeFrom (planLast left + 1)
    carried := left.any (fun c => decide (0 < c.ran)) }

/-- A decode row that ran through all layers moves the position on; another goes on in the next step. -/
def settleDecode (e : Seq) : Seq :=
  if e.isMember then e
  else if e.layersRun = e.layers.length then { e with position := e.position + 1, layersRun := 0, carried := false }
  else { e with carried := decide (0 < e.layersRun) }

/-- An entry of a keeper or ring member at boundary `n`. -/
def settleSeq (n : Nat) (e : Seq) : Seq :=
  let e := { e with deferred := false }
  if e.layers.isEmpty then e else if e.chunks.isEmpty then (if e.decodes then settleDecode e else e) else settleChunks n e

/-- A planned handoff follows a plan that moved (R170). -/
def shiftPlan (slot : Nat) (e : Seq) (s : State) : State :=
  match recAt s slot with
  | none => s
  | some r =>
    if e.chunks.isEmpty || r.state == .passing || decide (planLast e.chunks < r.effective) then s
    else setRec slot { r with effective := planLast e.chunks + 1 } s

/-- The chunks of step `n` that the staging area has `room` for, in order; the first that does not fit moves with all behind
it (R99). -/
def stageChunks (n room : Nat) : List Chunk → Nat × List Chunk
  | [] => (0, [])
  | c :: t =>
    if c.step ≤ n ∧ c.rows ≤ room then
      let r := stageChunks n (room - c.rows) t
      (c.rows + r.1, c :: r.2)
    else (0, spread (n + 1) 0 0 (c :: t))

/-- Chunks that moved into step `n` beside those planned for it: sequences stage in ascending handle order as long as their
context's rows fit the staging area (R99). The sum is of rows by context. -/
def fitStaging (n : Nat) (s : State) : State :=
  ((sortBy (fun a b => decide (a.2.handle ≤ b.2.handle)) (s.sqs.seqs.filter (fun e => !e.2.chunks.isEmpty))).foldl
    (fun (r : Tab Nat × State) e =>
      let room := ((ctxOf s e.2.context).map stagingRows).getD 0 - Tab.getD r.1 e.2.context 0
      let x := stageChunks n room e.2.chunks
      (Tab.put e.2.context (Tab.getD r.1 e.2.context 0 + x.1) r.1, updSeq e.1 (fun e => { e with chunks := x.2 }) r.2))
    ([], s)).2

/-- All entries at boundary `n`. -/
def settleSeqs (n : Nat) (s : State) : State :=
  let s := fitStaging n (s.sqs.seqs.foldl (fun s e => putSeq e.1 (settleSeq n e.2) s) s)
  s.sqs.seqs.foldl (fun s e => shiftPlan e.1 e.2 s) s

/-! ## Layers that move (R24, R107) -/

/-- Layers of rows that arrived and have not been returned, as handle × 256 + layer. -/
def movedLayers (n : Nat) (s : State) : List Nat :=
  distinct ((s.car.rows.filter (fun r => decide (r.step < n))).map (fun r => r.handle * 256 + r.layer))

/-- An item that waits for a ring message. -/
def waitsRing (s : State) (e : Seq) (i : Item) : Bool :=
  !i.done && i.handle == e.handle &&
  (match i.kind with
   | .rb => (ringMsgAt s i.handle 1 i.layer (fun r => r.firstPos == i.source)).isNone
   | .fm => decide (memberRun ≤ i.merges) && (ringMsgAt s i.handle 3 i.layer (fun r => r.member == i.merges - memberRun)).isNone
   | _ => e.isMember && e.decodes && (probeAt s i.handle i.layer).isNone)

/-- A class F keeper's row that waits for the state to come round. -/
def waitsRound (s : State) (e : Seq) (r : RowWork) : Bool :=
  ringF s e && !e.isMember && e.decodes && r.handle == e.handle && r.placed && !r.attended &&
  (ringMsgAt s r.handle 3 r.layer (fun m => m.member == 0)).isNone

/-- A ring message that is awaited, as one number: layer, kind, and what tells it from others of them. -/
def awaited (layer kind x : Nat) : Nat := (layer * 4 + kind) * 2 ^ 32 + x

/-- The ring messages that items of a sequence still wait for. -/
def ringWaits (s : State) (e : Seq) : List Nat :=
  distinct ((s.car.items.filter (waitsRing s e)).map (fun i =>
      match i.kind with
      | .rb => awaited i.layer 1 i.source
      | .fm => awaited i.layer 3 i.merges
      | _ => awaited i.layer 2 0) ++
    (s.car.rows.filter (waitsRound s e)).map (fun r => awaited r.layer 3 0))

/-- A member whose message a keeper awaits. -/
def awaitedMembers (s : State) (e : Seq) : List Nat :=
  if e.ringZ < 2 || e.isMember then []
  else if s.car.rows.any (waitsRound s e) then [0]
  else distinct ((s.car.items.filter (waitsRing s e)).map (fun i =>
    match i.kind with
    | .fm => i.merges - memberRun
    | _ => e.ringZ - 2))

/-- RING_LATE, and the silence of members at their keeper (R107). -/
def settleRing (e : Seq) (s : State) : State :=
  if e.ringZ < 2 then s
  else
    let members := awaitedMembers s e
    let waits := ringWaits s e
    let s := match (if liveTime s then waits.head? else none) with
      | none => s
      | some w => disposition 2 e.handle (w / 2 ^ 34) waits.length (bump cRingLate waits.length (raiseTimes .ringLate waits.length s))
    members.foldl (fun s m =>
      let k := e.handle * 64 + m
      { s with car := { s.car with ringSilent := Tab.put k (Tab.getD s.car.ringSilent k 0 + 1) s.car.ringSilent } }) s

/-- A ring message whose use is over is kept without its payload while the entry is there, so that a duplicate is known (R107). -/
def spend (keep : Bool) (r : RingMsg) : RingMsg := if keep then r else { r with payload := [], spent := true }

/-- Ring messages that are still of use: blocks while chunks remain or they must be sent on, probes and records while their
row is there. -/
def keepsRing (n : Nat) (s : State) (r : RingMsg) : Bool :=
  decide (n ≤ r.step) ||
  (match seqAt s (r.handle % 16384) with
   | none => false
   | some e =>
     if r.kind = 1 then !e.chunks.isEmpty || (e.isMember && e.member != 0 && !r.forwarded)
     else s.car.rows.any (fun x => x.handle == r.handle && x.layer == r.layer && decide (x.step < n)))

/-- The compute array at boundary `n`: rows that were not returned go on in step `n`; partial states are folded anew. -/
def settleRows (n : Nat) (s : State) : State :=
  { s with car := { s.car with
      items := s.car.items.filter (·.done)
      ringMsgs := s.car.ringMsgs.map (fun r => spend (keepsRing n s r) r)
      rows := s.car.rows.map (fun r => if r.step < n then { r with step := n } else r)
      runs := [] } }

/-- Items of an earlier step whose shadows have not completed extend their leases (R134). -/
def settleLeases (s : State) : State :=
  match oldestLive s with
  | some k => dispositionAt 1 6 Config.none32 0 k s
  | none => s

/-! ## Seals, protection, publication (R103, R121, R123, R130, R227, R247) -/

/-- Pages that are packed and enter SEALED at this boundary. -/
def freshSeals (s : State) : List Nat :=
  (s.pgm.descs.filter (fun e => e.2.state == .sealing && e.2.packed && !e.2.object && !s.tir.sealRetry.contains e.1)).map (·.1)

/-- What a ring member sends after pages have been sealed, in ring order (R104). -/
def sendSegment (slot : Nat) (e : Seq) (s : State) : State :=
  if !e.isMember then s
  else (List.range e.layers.length).foldl (fun s l => forwardBlocks slot l (sendOwn slot l s)) s

/-- SEAL_LATE and its records; in replay the records say which seals are late (R333). -/
def lateSeals (n : Nat) (s : State) : State :=
  if !liveTime s then s
  else (s.pgm.descs.filter (fun e => e.2.state == .sealing && !e.2.packed && e.2.filledAt + 1 == n)).foldl
    (fun s e => dispositionAt 1 5 Config.none32 e.2.layer e.1 s) (sealLate n s)

/-- Codings that become protected, and the DURABLE records they owe (R247, R352). -/
def settleProtection (s : State) : State :=
  let ready := (s.cmp.coding.filter (fun e => e.2.acked.length == 10 && !e.2.isProtected && !e.2.unprotected)).map (·.1)
  let s := protectPages s
  (durableRecords s ready).foldl (fun s r => oweCkpt r s) s

/-- A seal whose tier-2 write failed is written again; where its segment has FAILED, to other extents and another map (R227). -/
def retrySeal (i : Nat) (s : State) : State :=
  match descAt s i with
  | none => s
  | some d =>
    if !d.packed || (d.homeExt.all (reachable s) && d.homeMap.all (fun m => reachable s (m / 256))) then s
    else
      match d.plainBlocks s with
      | none => s
      | some bs =>
        let x := takeExtents (kvTier s) (extentsFor (bs.map (fun b => b.2.length))) [] s
        let m := takeMap (kvTier s) d.mapClass [] x.2
        updDesc i (fun d => { d with homeExt := x.1, homeMap := m.1, blocks := lockAll (memoryKey s d.tenant) x.1 bs }) m.2

/-- Pages at boundary `n`. -/
def settlePages (n : Nat) (s : State) : State :=
  let s := s.tir.sealRetry.foldl (fun s i => retrySeal i s) (startCodings (lateSeals n s))
  let fresh := freshSeals s
  let s := fresh.foldl (fun s i => switchSealed i s) { s with tir := { s.tir with sealRetry := [] } }
  let s := s.sqs.seqs.foldl (fun s e => sendSegment e.1 e.2 s) s
  let s := s.sqs.seqs.foldl (fun s e => publishAll n e.1 ((e.2.layer 0).list.length + 1) s) s
  settleProtection s

/-! ## Keeper silence (R183) -/

/-- One driving side at boundary `n`: two steps in a row in which it sent and heard nothing. -/
def settleOwned (n slot : Nat) (o : Owned) (s : State) : State :=
  let k := if o.sent && !o.answered then o.silent + 1 else 0
  let holds := decide (2 ≤ k) && o.heldSince.isNone
  let s := updOwned slot (fun o => { o with
    sent := false, answered := false, silent := k, heldSince := if holds then some n else o.heldSince }) s
  raiseIf holds .keeperSilent s

/-- The end of the step before boundary `n`. -/
def settleStep (n : Nat) (s : State) : State :=
  let s := { s with pgm := { s.pgm with reclaimed := 0 } }
  let s := (movedLayers n s).foldl (fun s k => disposition 1 (k / 256) (k % 256) (openCost s (k / 256) (k % 256)) s) s
  let s := (Tab.vals s.sqs.seqs).foldl (fun s e => settleRing e s) s
  let s := settleLeases (settleRows n s)
  let s := settlePages n (settleSeqs n s)
  let s := s.sqs.owned.foldl (fun s o => settleOwned n o.1 o.2 s) s
  tierBoundary s

end Sys2Proof.Machine
end

