-- ==== Sys2Proof/Machine/Maps.lean ====
section
/-! DEFINITION. Composition maps at action 2 of a boundary: a map takes effect, older maps are dropped or folded, sequences
are redirected, members and keepers that have gone are noticed (R19, R107, R180 to R183, R249). -/

namespace Sys2Proof.Machine

/-! ## Maps held (R181) -/

/-- Composition epochs that entries record. -/
def recordedEpochs (s : State) : List Nat :=
  (Tab.vals s.sqs.seqs).map (·.compEpoch) ++ s.sqs.fronted.map (·.compEpoch)

/-- Maps that no entry records go, but for the one in force. -/
def dropMaps (s : State) : State :=
  let held := recordedEpochs s
  { s with slc := { s.slc with maps :=
      s.slc.maps.dropLast.filter (fun m => held.contains m.epoch) ++ s.slc.maps.getLast?.toList } }

/-! ## Redirection (R182) -/

/-- A sequence moves to the map in force: its epoch rises, and a resume is tested at action 4 of this boundary. -/
def redirectResume (slot : Nat) (s : State) : State :=
  match seqAt s slot, recAt s slot with
  | some e, some r =>
    let s := updSeq slot (fun x => { x with compEpoch := compEpoch s, state := .orphaned }) s
    let s := setRec slot { r with state := .orphaned, epoch := nextEpoch r.epoch, quiet := 0, acked := false, granted := false
                                  next := Config.none32, outgoing := none, tailMsg := none, policyDue := false
                                  grantCause := redirected } s
    resumeWait slot e s
  | _, _ => s

/-- A NEXT that has gone before it took effect is replaced: the epoch rises, and the owner is told with a reissue
(log 58). -/
def redirectNext (slot : Nat) (s : State) : State :=
  match seqAt s slot, recAt s slot with
  | some e, some r =>
    let s := updSeq slot (fun x => { x with compEpoch := compEpoch s }) s
    let s := setRec slot { r with next := Config.none32 } s
    let next := (pickNext s e).getD Config.none32
    setRec slot { r with state := .reissued, epoch := nextEpoch r.epoch, quiet := 0, acked := false, granted := false
                         next := next, outgoing := none, grantCause := 2 } s
  | _, _ => s

/-- Whether a record's owner drives its sequence. -/
def OwnRec.driven (r : OwnRec) : Bool := r.state != .orphaned && r.state != .rehoming

/-- Redirect what the map in force makes necessary. -/
def redirectGone (s : State) : State :=
  eachRec (fun slot r s =>
    if r.driven && goneNow s r.owner then redirectResume slot s
    else if r.driven && r.next != Config.none32 && goneNow s r.next then redirectNext slot s
    else s) s

/-- Ring members that have left the map are lost (R107). -/
def goneMembers (s : State) : State :=
  s.sqs.seqs.foldl (fun s e =>
    if e.2.ringZ < 2 || e.2.isMember || !Tab.has e.1 s.slc.recs then s
    else (List.range (e.2.ringZ - 1)).foldl (fun s j =>
      if goneNow s (e.2.ringNodes.getD j 0) then memberLost e.1 j s else s) s) s

/-- A candidate that has gone is asked no longer; where it was the last, the gateway gets its verdict (R20, R22). -/
def goneCandidates (s : State) : State :=
  let gone := fun (f : Fronted) => (f.asked.map (goneNow s)).getD false
  let last := fun (f : Fronted) => gone f && decide (f.candidates.length ≤ f.tried)
  let ended := s.sqs.fronted.filter last
  let left := (s.sqs.fronted.filter (fun f => !last f)).map (fun f => if gone f then { f with asked := none } else f)
  ended.foldl (fun s f => noKeeper f s) { s with sqs := { s.sqs with fronted := left } }

/-- Owners whose keeper has gone hold their sequences (R183). -/
def goneKeepers (n : Nat) (s : State) : State :=
  goneCandidates (s.sqs.owned.foldl (fun s o =>
    if goneNow s o.2.keeper && o.2.heldSince.isNone then
      raise .keeperSilent (updOwned o.1 (fun o => { o with heldSince := some n }) s)
    else s) s)

/-- A module that its map marks GONE lets go of everything, without notice (R180). -/
def expelSelf (s : State) : State :=
  let s := raise .nodeExpelled s
  let s := { s with sqs := { s.sqs with fronted := [], ringAsks := [], leaving := [] } }
  let s := (Tab.keys s.sqs.seqs).foldl (fun s k => freeEntry k s) s
  { s with sqs := { s.sqs with batch := [] } }

/-! ## A map takes effect (R19) -/

/-- Sequences kept here that record an epoch. -/
def keptUnder (s : State) (epoch : Nat) : List Nat :=
  (s.sqs.seqs.filter (fun e => e.2.compEpoch == epoch && Tab.has e.1 s.slc.recs)).map (·.1)

/-- An accepted map takes effect: with eight maps held, the oldest goes, its sequences redirected. -/
def installMap (n : Nat) (m : CompMap) (s : State) : State :=
  let s := dropMaps s
  let full := decide (8 ≤ s.slc.maps.length)
  let oldest := if full then s.slc.maps.head? else none
  let recorded := (oldest.map (fun o => (recordedEpochs s).contains o.epoch)).getD false
  let folded := (oldest.map (fun o => keptUnder s o.epoch)).getD []
  let s := { s with
    slc := { s.slc with maps := (if full then s.slc.maps.drop 1 else s.slc.maps) ++ [m], nextMap := none }
    fab := { s.fab with node := ((mapSelf s m).map (·.node)).getD s.fab.node } }
  let s := folded.foldl (fun s k => redirectResume k s) s
  let s := raiseIf recorded .compEpochFolded s
  if nodeStatus s s.fab.node = 2 then expelSelf s
  else replaceGone (goneMembers (redirectGone (goneKeepers n s)))

/-- The maps at action 2 of boundary `n`. -/
def actionMaps (n : Nat) (s : State) : State :=
  match s.slc.nextMap with
  | some m => dropMaps (installMap n m s)
  | none => dropMaps s

end Sys2Proof.Machine
end

