-- ==== Sys2Proof/Machine/Time.lean ====
section
/-! DEFINITION. Discipline to the grandmaster, the time states and the snapshot (R48 to R56). -/

namespace Sys2Proof.Machine

/-- The time port receives frames: its link is up and it is not withdrawn (R49). -/
def timePortUp (s : State) : Bool := portUp s s.stw.charter.timePort

/-- Bounds of R50 and R52, in ns. -/
def syncTight : Nat := 250
def syncWide : Nat := 1000000

/-- Saturate an offset at ±(2^31 − 1) for TMU_OFFSET (R65). -/
def clampOffset (o : Int) : Int := max (-(2 ^ 31 - 1)) (min (2 ^ 31 - 1) o)

/-- Enter a time state: its event (R52) and a TIME record (R330). -/
def enterTime (st : TimeState) (s : State) : State :=
  let s := { s with tmu := { s.tmu with state := st } }
  let s := match st with
    | .freeRun => s
    | .acquiring => raise .timeAcquiring s
    | .locked => raise .timeLocked s
    | .holdover => raise .timeHoldover s
    | .lost => raise .timeLost s
  journalTime s.tmu.now s

/-- Step the counter by an offset measured as own time minus the grandmaster's (R50, R56). -/
def stepCounter (o : Int) (s : State) : State :=
  let before := s.tmu.now
  let s := { s with tmu := { s.tmu with now := ((before : Int) - o).toNat, slewPpm := 0,
                                        lastSync := ((before : Int) - o).toNat } }
  journalTime before s

/-- What a valid Sync says: offset, slew (R50), instant. -/
def noteSync (o : Int) (s : State) : State :=
  { s with tmu := { s.tmu with
      offset := clampOffset o, measured := o, lastSync := s.tmu.now
      slewPpm := if o.natAbs ≤ syncTight then 0 else if 0 < o then -100 else 100 } }

/-- The grandmaster followed is `gm`; a change raises GRANDMASTER_CHANGED (R52). -/
def followGm (gm : Nat) (s : State) : State :=
  let s' := { s with tmu := { s.tmu with gm := some gm } }
  match s.tmu.gm with
  | some g => if g = gm then s else raise .grandmasterChanged s'
  | none => s'

/-- ACQUIRING counts good Syncs; the eighth in a row locks, and the first lock starts the grid (R52, R53). -/
def acquireSync (tight : Bool) (s : State) : State :=
  if !tight then { s with tmu := { s.tmu with good := 0 } }
  else if s.tmu.good + 1 < 8 then { s with tmu := { s.tmu with good := s.tmu.good + 1 } }
  else enterTime .locked { s with tmu := { s.tmu with good := 0, gridRun := true } }

/-- In FREE_RUN and ACQUIRING before the grid first runs, an offset above 1 ms is stepped away (R50; DESIGN
CHOICE, log 20). -/
def initialStep (o : Int) (s : State) : State :=
  if !s.tmu.gridRun && decide (syncWide < o.natAbs) then stepCounter o s else s

/-- The transitions of R52 and R56 at a valid Sync. -/
def syncState (o : Int) (s : State) : State :=
  let tight := decide (o.natAbs ≤ syncTight)
  let wide := decide (syncWide < o.natAbs)
  match s.tmu.state with
  | .freeRun => initialStep o (enterTime .acquiring { s with tmu := { s.tmu with good := 0 } })
  | .acquiring => initialStep o (acquireSync tight s)
  | .locked => if wide then enterTime .lost s else s
  | .holdover => if wide then enterTime .lost s else enterTime .locked s
  | .lost =>
    if wide then
      if s.tmu.stepReq then s
      else raise .timeStepRequired { s with tmu := { s.tmu with stepReq := true } }
    else enterTime .acquiring { s with tmu := { s.tmu with good := 0, stepReq := false } }

/-- The clock that the best master clock algorithm chose (R48). -/
def chosenGm (s : State) : Option Nat := s.tmu.gmData.map (·.identity)

/-- SYNC (R48, R52): a Sync on the time port from the grandmaster chosen; a Sync of any other clock is not valid. -/
def execSync (at_ gm : Nat) (offset : Int) (s : State) : Host.Outcome State Fault Refusal :=
  if inService s && timePortUp s && chosenGm s == some gm then
    let s := noteSync offset (followGm gm (setNow at_ s))
    .next (if liveTime s then syncState offset s else s)
  else .next s

/-- The order of the best master clock algorithm: smaller is better (PRESUMED, IEEE 1588; log 21). -/
def announceKey (a : Announce) : List Nat :=
  [a.priority1, a.clockClass, a.accuracy, a.variance, a.priority2, a.identity, a.steps]

/-- ANNOUNCE (R48): the message of a clock in the charter's domain is weighed against the one followed. -/
def execAnnounce (a : Announce) (s : State) : Host.Outcome State Fault Refusal :=
  if inService s && timePortUp s && a.domain == s.stw.charter.timeDomain then
    match s.tmu.gmData with
    | none => .next (followGm a.identity { s with tmu := { s.tmu with gmData := some a } })
    | some b =>
      if a.identity = b.identity || lexLe (announceKey a) (announceKey b) then
        .next (followGm a.identity { s with tmu := { s.tmu with gmData := some a } })
      else .next s
  else .next s

/-- SYNC_ABSENT (R52): one second without a valid Sync. -/
def execSyncAbsent (at_ : Nat) (s : State) : Host.Outcome State Fault Refusal :=
  let s := setNow at_ s
  if inService s && liveTime s && decide (s.tmu.lastSync + 1000000000 ≤ s.tmu.now) then
    match s.tmu.state with
    | .acquiring => .next (if s.tmu.gridRun then enterTime .lost s else s)
    | .locked => .next (enterTime .holdover { s with tmu := { s.tmu with holdoverAt := s.tmu.now } })
    | _ => .next s
  else .next s

/-- HOLDOVER_EXPIRED (R52): 60 seconds in HOLDOVER. -/
def execHoldoverExpired (at_ : Nat) (s : State) : Host.Outcome State Fault Refusal :=
  let s := setNow at_ s
  if inService s && liveTime s && s.tmu.state == .holdover && decide (s.tmu.holdoverAt + 60000000000 ≤ s.tmu.now) then
    .next (enterTime .lost s)
  else .next s

/-- The snapshot of R51. -/
def snapshot (s : State) : State :=
  { s with tmu := { s.tmu with snapNow := s.tmu.now, snapState := s.tmu.state.code } }

/-- SNAP (R51): TMU_TIME_SNAP.SNAP is written with 1. -/
def execSnap (s : State) : Host.Outcome State Fault Refusal :=
  .next (if inService s then snapshot s else s)

end Sys2Proof.Machine
end

