-- ==== Sys2Proof/Machine/Boundary.lean ====
section
/-! DEFINITION. A boundary: what is sampled and recorded, the five actions in their order, what is sent at the end of its
work (R54, R56, R142 to R144, R158, R159, R162, R170 to R176, R204, R305, R330). -/

namespace Sys2Proof.Machine

/-! ## What is recorded (R330, R337) -/

/-- Whether a spare serves, and for which logical core. -/
def spareField (state : CoreState) (for_ : Option Nat) : Nat × Nat :=
  match for_ with
  | some l => (128 + l, if state == .quarantined then 2 else 1)
  | none => (0, if state == .quarantined then 2 else 0)

/-- CAR_REMAP of a die. -/
def remapWord (s : State) (d : Nat) : Nat :=
  let a := spareField (coreAt s d 32).state (dieOf s d).s0For
  let b := spareField (coreAt s d 33).state (dieOf s d).s1For
  b.1 * 2 ^ 24 + a.1 * 2 ^ 16 + b.2 * 4 + a.2

/-- CAR_OUT of a die. -/
def outWord (s : State) (d : Nat) : Nat := ((distinct (dieOf s d).out).map (2 ^ ·)).sum

/-- The disabled-unit map: the content of CAR_REMAP0–7 and CAR_OUT0–7. -/
def disabledMap (s : State) : List Byte :=
  ((List.range 8).map (fun d => le 4 (remapWord s d))).flatten ++ ((List.range 8).map (fun d => le 4 (outWord s d))).flatten

/-- VERSION of the running image (R303). -/
def imageVersion (s : State) : Nat := fld s.sec.running 8 4

/-- The STEP record (R330). -/
def journalStep (s : State) : State :=
  journal 1 0 0 0 0 (counterBytes s.tmu.now ++ le 1 s.tmu.sampled.code ++ le 2 (coreCount s) ++ le 2 (suspectCount s) ++
    le 4 (t2Rate s) ++ le 4 (crc32c (disabledMap s)) ++ le 4 (imageVersion s)) s

/-- The bytes of digests (R330, R331). -/
def digestBytes (ds : List Digest) : List Byte := (ds.map (fun d => le 4 d.node ++ le 4 d.count ++ le 8 d.sum)).flatten

/-- The digests of step `n` are recorded and begin anew. -/
def closeDigests (n : Nat) (s : State) : State :=
  let s := if recording s then
      putJournal 7 0 n 0 0 0 0 (digestBytes s.hlt.digestOut) (putJournal 6 0 n 0 0 0 0 (digestBytes s.hlt.digestIn) s)
    else s
  { s with hlt := { s.hlt with digestIn := [], digestOut := [] } }

/-! ## Action 1 at a P module -/

/-- Entries of requests that no keeper has taken and for which none is asked any longer become FREE (R20, R22). -/
def dropRefused (s : State) : State :=
  if !roleP s then s
  else (s.sqs.seqs.filter (fun e => e.2.state == .accepted && !Tab.has e.1 s.sqs.owned &&
      !s.sqs.fronted.any (fun f => f.request.tenant == e.2.tenant && f.request.requestId == e.2.requestId))).foldl
    (fun s e => freeEntry e.1 s) s

/-! ## Action 2 (R30, R144, R204, R236, R293, R345, R350) -/

/-- Apply the commands of one rank. -/
def applyRank (ps : List Pend) (k : Nat) (s : State) : State :=
  ps.foldl (fun s p => match p.wait with
    | .command t op b =>
      if actionRank op ≠ k then s
      else if k = 6 then doTaken p t op b s
      else applyCommand p t op b s
    | _ => s) s

/-- Action 2 at boundary `n`. -/
def actionEnvelope (n : Nat) (s : State) : State :=
  let ps := pendsFor s n 2
  let s := refreshLeases (dropPends n 2 s)
  let s := applyRank ps 2 (applyRank ps 1 (applyRank ps 0 s))
  let s := applyRank ps 3 (diesAction n (coresAction s))
  let s := applyRank ps 4 (readyContexts s)
  let s := applyRank ps 5 (freeRetired (retireVersions s))
  let s := actionMaps n (dropForeign s)
  eraseKeys (freeTables (applyRank ps 6 s))

/-! ## Action 5 (R142, R158) -/

/-- Entries whose first chunk is in the work list enter PREFILL; so does a P module's once it drives its request. -/
def enterPrefill (n : Nat) (s : State) : State :=
  { s with sqs := { s.sqs with seqs := s.sqs.seqs.map (fun e =>
      (e.1, if e.2.state == .accepted && (!(e.2.chunksAt n).isEmpty || Tab.has e.1 s.sqs.owned) then
        { e.2 with state := .prefill } else e.2)) } }

/-- Action 5 at boundary `n`. -/
def actionBuild (n : Nat) (s : State) : State := swapCheck (stageFirst (buildStep n (enterPrefill n s)))

/-! ## Grants at the end of the work (R170, R171, R176) -/

/-- A planned handoff: the record names its next owner, or belongs to a P module. -/
def OwnRec.planned (r : OwnRec) : Bool := r.next != Config.none32 || r.role == 0

/-- The grant of a handoff whose last step begins; a tail that came before it follows it. -/
def grantHandoff (slot g : Nat) (r : OwnRec) (s : State) : State :=
  let s := sendGrant slot g 1 (nextEpoch r.epoch) r.effective 0 s
  forwardTail slot (setRec slot { r with state := .passing, next := g, granted := true, tail := false, grantCause := 1 } s)

/-- What one record sends at the end of the work of boundary `n`. A planned handoff for which the record is not ready, or
for which no module has a place, is put off by a step. -/
def recordTurn (n slot : Nat) (r : OwnRec) (s : State) : State :=
  match seqAt s slot with
  | none => s
  | some e =>
    let due := decide (r.effective ≤ n + 1)
    match r.state with
    | .passing => if due && !r.granted then grantHandoff slot r.next r s else s
    | .held =>
      if due && r.planned then
        match (if r.next = Config.none32 then pickNext s e else some r.next) with
        | some g => grantHandoff slot g r s
        | none => setRec slot { r with effective := n + 2 } s
      else s
    | .offered =>
      if due && r.planned && r.role == 0 then
        match (if r.next = Config.none32 then pickNext s e else some r.next) with
        | some g => grantHandoff slot g r s
        | none => setRec slot { r with effective := n + 2 } s
      else s
    | .reissued =>
      let r := if due && r.planned then { r with effective := n + 2 } else r
      if r.granted then setRec slot r s
      else setRec slot { r with granted := true, sentAt := s.tmu.now } (sendGrant slot r.owner 2 r.epoch n e.position s)
    | _ => s

/-- All records. -/
def recordTurns (n : Nat) (s : State) : State := eachRec (fun slot r s => recordTurn n slot r s) s

/-! ## Owners at the end of the work (R162, R171, R175) -/

/-- A sequence whose last token and notice have been sent is released (R171). -/
def endOwner (slot : Nat) (s : State) : State :=
  match seqAt s slot with
  | none => s
  | some e =>
    freeEntry slot (ownerSend slot 0x33 2 (le 6 (stepNo s) ++ zeros 2 ++ le 4 Config.none32 ++ le 4 e.position) s)

/-- One owner: it releases what has ended; else it sends what is to be embedded, and PULSE where it has nothing else to
send. -/
def ownerTurn (slot : Nat) (o : Owned) (s : State) : State :=
  if !o.acts then s
  else if o.ending.isSome && o.awaiting.isEmpty then endOwner slot s
  else
    let fresh := decide (o.embedded < o.histFirst + o.tokens.length)
    let s := embedNext slot s
    if roleP s || !fresh then ownerSend slot 0x34 0 [] s else s

/-- All owners. -/
def ownerTurns (s : State) : State := s.sqs.owned.foldl (fun s o => ownerTurn o.1 o.2 s) s

/-! ## Tailrace batches (R55, R159, R162) -/

/-- Order of records: gateway, tenant, request, a token before a notice. -/
def TailRec.key (r : TailRec) : List Nat := [r.gateway, r.tenant, r.requestId, if r.kind = 0 then 0 else 1]

/-- A token of a step before the one whose batch carries it. -/
def TailRec.late (r : TailRec) (step : Nat) : Bool := r.kind == 0 && decide (r.refStep < step)

/-- What the delivery of a record counts: a token, and where it is late, that. -/
def countRecord (step : Nat) (r : TailRec) (s : State) : State :=
  if r.kind ≠ 0 then s
  else
    let s := charge r.tenant 8 1 s
    if !r.late step then s
    else
      let a := acctOf s r.tenant
      let s := sEvent a.late (sNext a.late 1) 13 (r.tenant * 16 + 9) (setAcct r.tenant { a with late := sNext a.late 1 } s)
      let s := match findRequest s r.tenant r.requestId with
        | some k => updSeq k (fun e => { e with lateTokens := e.lateTokens + 1 }) s
        | none => s
      raise .late (bump cLate 1 s)

/-- The batches of a step leave. -/
def sendBatches (step : Nat) (s : State) : State :=
  let rs := sortBy (fun a b => lexLe a.key b.key) s.sqs.batch
  let s := rs.foldl (fun s r => countRecord step r s) { s with sqs := { s.sqs with batch := [] } }
  let rs := rs.map (fun r => if r.late step then { r with flags := r.flags + 1 } else r)
  (distinct (rs.map (fun r => r.gateway * 256 + r.tenant))).foldl (fun s k =>
    sendMsg (k / 256) (k % 256) (.moduleMessage 0x23) 0
      (batchBytes (s.tmu.state == .lost) (k % 256) step s.fab.node (compEpoch s)
        (rs.filter (fun r => r.gateway * 256 + r.tenant == k))) s) s

/-! ## The end of the work -/

/-- SWITCH_IMAGE after action 5 (R305). -/
def actionSwitch (n : Nat) (s : State) : State :=
  (pendsFor s n 6).foldl (fun s p => match p.wait with
    | .command t op b => doSwitchImage t (journalPend { p with action := 5 } op b 0 s)
    | _ => s) (dropPends n 6 s)

/-- Where SQS_INSPECT_DATA stands. -/
def sqsData : Nat := regAddr 5 0x200

/-- A latch of a sequence table entry is made once the boundary's work is over (R164). -/
def serveInspect (s : State) : State :=
  match s.sqs.inspect with
  | none => s
  | some slot =>
    let bs := ((seqAt s slot).map Seq.bytes).getD (zeros 256)
    { s with sqs := { s.sqs with inspect := none }, hif := { s.hif with latch := Tab.put sqsData bs s.hif.latch } }

/-- With no accepted sequence the counter is stepped to the grandmaster's time, and TMU enters ACQUIRING (R56). -/
def counterStep (s : State) : State :=
  if s.tmu.state == .lost && s.tmu.stepReq && s.sqs.seqs.isEmpty then
    let o := s.tmu.measured
    let s := stepCounter o s
    enterTime .acquiring { s with tmu := { s.tmu with
      stepReq := false, good := 0, openedAt := ((s.tmu.openedAt : Int) - o).toNat } }
  else s

/-- What a boundary samples before its work (R54, R144, R373). -/
def sample (n : Nat) (s : State) : State :=
  let s := ageStatus s
  { s with tmu := { s.tmu with
      boundary := some n, openedAt := s.tmu.now, sampled := s.tmu.state, sampledBrown := s.sup.brown } }

/-- The five actions in their order (R144). -/
def fiveActions (n : Nat) (s : State) : State :=
  let s := dropRefused (actionLeave n s)
  let s := actionEnvelope n s
  let s := actionAdmit n s
  let s := actionJoin n s
  let s := actionBuild n s
  { s with sqs := { s.sqs with firstSeq := [] } }

/-- What follows the actions. -/
def endOfWork (n : Nat) (s : State) : State :=
  let s := recordTurns n (actionSwitch n s)
  let s := ownerTurns (sendBatches (n - 1) s)
  counterStep (serveInspect (checkpoints n s))

/-- Boundary `n` opens at the instant now, and its work is done. -/
def openBoundary (n : Nat) (s : State) : State :=
  let s := journalStep (sample n (closeDigests (n - 1) s))
  endOfWork n (fiveActions n (settleStep n s))

/-! ## STEP_BOUNDARY in service (R57, R59) -/

/-- The next boundary: one that is due now and not done, else the first after now. -/
def nextBoundary (s : State) : Nat :=
  let m := (s.tmu.now - epochNs s) / periodNs s
  if s.tmu.now < epochNs s then 0
  else if s.tmu.now = epochNs s + m * periodNs s ∧ s.tmu.boundary ≠ some m then m
  else m + 1

/-- A boundary in real time: a tally freeze at the same instant comes first; the longest work is kept (R59, R164). -/
def realBoundary (workNs : Nat) (s : State) : State :=
  let n := nextBoundary s
  let s := setNow (epochNs s + n * periodNs s) s
  let s := if minuteInstant s = s.tmu.now then freezeTally s else s
  let s := openBoundary n s
  { s with sqs := { s.sqs with peak := max s.sqs.peak (min workNs 200000) } }

end Sys2Proof.Machine
end

