-- ==== Sys2Proof/Machine/Messages.lean ====
section
/-! DEFINITION. Module messages as commands: each is handed to its consumer by its kind, and a complete SEND by its first
byte (R14, R146, R155, R160, R163, R168, R178, R250, R262, R263, R420). -/

namespace Sys2Proof.Machine

/-! ## CANCEL and PAUSE (R160, R163; log 47) -/

/-- The keeper that a P module asks or drives for a request. -/
def keeperAsked (s : State) (tenant requestId : Nat) : Option Nat :=
  match s.sqs.fronted.find? (fun f => f.request.tenant == tenant && f.request.requestId == requestId) with
  | some f => f.asked
  | none => ((findRequest s tenant requestId).bind (ownedAt s)).map (·.keeper)

/-- A CANCEL or PAUSE at a P module goes on to the keeper. -/
def forwardNamed (kind : Nat) (c : Named) (s : State) : State :=
  let bytes := namedBytes kind c.tenant c.requestId
  let s := consumeNow c.tenant c.source c.sseq bytes s
  match keeperAsked s c.tenant c.requestId with
  | none => raise .cancelUnknown s
  | some k =>
    let q := takeSseq s
    sendMsg k c.tenant (.moduleMessage kind) q.1 bytes q.2

/-- A CANCEL or PAUSE arrives: at a keeper it waits for action 1. -/
def onNamed (kind : Nat) (wait : Nat → Wait) (c : Named) (s : State) : State :=
  if !takesFrom s c.source then s
  else if roleC s then addWait ⟨1, c.tenant, c.source, c.sseq, 0, wait c.requestId⟩ (noteFirst c.source c.sseq s)
  else if roleP s then forwardNamed kind c s
  else misdirect c.port s

/-- CANCEL (R160). -/
def execCancel (c : Named) (s : State) : Host.Outcome State Fault Refusal := .next (onNamed 0x25 .cancel c s)

/-- PAUSE (R163). -/
def execPause (c : Named) (s : State) : Host.Outcome State Fault Refusal := .next (onNamed 0x26 .pause c s)

/-! ## Messages of R146, R155, R168, R178, R250 and the ring -/

/-- ADMIT_QUERY (R146). -/
def execAdmitQuery (m : MsgIn) (s : State) : Host.Outcome State Fault Refusal := .next (onAdmitQuery m s)

/-- VERDICT (R155). -/
def execVerdict (m : MsgIn) (s : State) : Host.Outcome State Fault Refusal := .next (onVerdict m s)

/-- GRANT (R168, R170, R176, R178). -/
def execGrant (m : MsgIn) (s : State) : Host.Outcome State Fault Refusal := .next (onGrant m s)

/-- GRANT_ACK (R166, R168). -/
def execGrantAck (m : MsgIn) (s : State) : Host.Outcome State Fault Refusal := .next (onGrantAck m s)

/-- STATE_PUSH (R171, R172, R184). -/
def execStatePush (m : MsgIn) (s : State) : Host.Outcome State Fault Refusal := .next (onStatePush m s)

/-- RELEASE (R161, R171). -/
def execRelease (m : MsgIn) (s : State) : Host.Outcome State Fault Refusal := .next (onRelease m s)

/-- PULSE (R175). -/
def execPulse (m : MsgIn) (s : State) : Host.Outcome State Fault Refusal := .next (onPulse m s)

/-- TOKEN_NOTE (R173). -/
def execTokenNote (m : MsgIn) (s : State) : Host.Outcome State Fault Refusal := .next (onTokenNote m s)

/-- NOTE_ACK (R173). -/
def execNoteAck (m : MsgIn) (s : State) : Host.Outcome State Fault Refusal := .next (onNoteAck m s)

/-- REJECT (R177). -/
def execReject (m : MsgIn) (s : State) : Host.Outcome State Fault Refusal := .next (onReject m s)

/-- RECALL (R179). -/
def execRecall (m : MsgIn) (s : State) : Host.Outcome State Fault Refusal := .next (onRecall m s)

/-- HISTORY_QUERY (R183, R184). -/
def execHistoryQuery (m : MsgIn) (s : State) : Host.Outcome State Fault Refusal := .next (onHistoryQuery m s)

/-- RING_BLOCK (R103, R107). -/
def execRingBlock (m : MsgIn) (s : State) : Host.Outcome State Fault Refusal := .next (onRingBlock m s)

/-- PROBE (R105, R106). -/
def execProbe (m : MsgIn) (s : State) : Host.Outcome State Fault Refusal := .next (onProbe m s)

/-- FOLD_RECORD (R105, R106). -/
def execFoldRecord (m : MsgIn) (s : State) : Host.Outcome State Fault Refusal := .next (onFoldRecord m s)

/-- FRAGMENT_PUT (R250). -/
def execFragmentPut (m : MsgIn) (s : State) : Host.Outcome State Fault Refusal := .next (onFragmentPut m s)

/-- FRAGMENT_ACK (R247, R250). -/
def execFragmentAck (m : MsgIn) (s : State) : Host.Outcome State Fault Refusal := .next (onFragmentAck m s)

/-- FRAGMENT_GET (R250, R251). -/
def execFragmentGet (m : MsgIn) (s : State) : Host.Outcome State Fault Refusal := .next (onFragmentGet m s)

/-- FRAGMENT_DATA (R250, R251). -/
def execFragmentData (m : MsgIn) (s : State) : Host.Outcome State Fault Refusal := .next (onFragmentData m s)

/-- FRAGMENT_FREE (R250). -/
def execFragmentFree (m : MsgIn) (s : State) : Host.Outcome State Fault Refusal := .next (onFragmentFree m s)

/-- FRAGMENT_LOST (R250). -/
def execFragmentLost (m : MsgIn) (s : State) : Host.Outcome State Fault Refusal := .next (onFragmentLost m s)

/-! ## A complete message by its kind (R263) -/

/-- A CANCEL or PAUSE in its bytes (log 47). -/
def readNamed (port source sseq : Nat) (bs : List Byte) : Named := ⟨port, source, sseq, fld bs 1 1, fld bs 2 8⟩

/-- A REQUEST in its bytes (log 51). -/
def readRequest (port gateway sseq : Nat) (bs : List Byte) : Request :=
  { port := port, gateway := gateway, sseq := sseq, tenant := fld bs 1 1, requestId := fld bs 2 8, context := fld bs 10 1
    adapter := fld bs 11 2, cls := fld bs 13 1, publish := fld bs 14 1 == 1
    parent := if fld bs 15 4 = Config.none32 then none else some (fld bs 15 4)
    lP := fld bs 19 2, maxNew := fld bs 21 4, deadline := fld bs 25 6
    sampling := { temperature := fld bs 31 4, topP := fld bs 35 4, topK := fld bs 39 4, seed := fld bs 43 8 }
    tokens := words4 bs 55 ((bs.length - 55) / 4) }

/-- The size of a REQUEST, CANCEL or PAUSE in its bytes is right. -/
def plainSizeOk (bs : List Byte) : Bool :=
  if fld bs 0 1 = 0x24 then bs.length == 55 + 4 * fld bs 51 4 else bs.length == 10

/-- A gateway's request in its bytes waits for its boundary. -/
def onRequestBytes (sseq : Nat) (m : MsgIn) (s : State) : State :=
  let r := readRequest m.port m.source sseq m.bytes
  if !takesFrom s m.source then s
  else if !plainSizeOk m.bytes then raise .messageMalformed s
  else if !roleP s then misdirect m.port s
  else addWait ⟨3, r.tenant, r.gateway, r.sseq, 0, .ingress r⟩ (noteFirst r.gateway r.sseq s)

/-- A CANCEL or PAUSE in its bytes arrives. -/
def onNamedBytes (kind sseq : Nat) (wait : Nat → Wait) (m : MsgIn) (s : State) : State :=
  if takesFrom s m.source && !plainSizeOk m.bytes then raise .messageMalformed s
  else onNamed kind wait (readNamed m.port m.source sseq m.bytes) s

/-- A complete message is handed to its consumer by its first byte. Messages with no kind byte are hidden states and
outputs: their layout is not in the spec, and HIDDEN_STATE and ATTENTION_OUTPUT bring what they hold (log 43). `sseq` is
the source sequence of the kinds whose bytes hold none. -/
def deliver (sseq : Nat) (m : MsgIn) (s : State) : State :=
  match fld m.bytes 0 1 with
  | 0x01 => onRingBlock m s
  | 0x02 => onProbe m s
  | 0x03 => onFoldRecord m s
  | 0x21 => onAdmitQuery m s
  | 0x22 => onVerdict m s
  | 0x23 => if takesFrom s m.source then misdirect m.port s else s
  | 0x24 => onRequestBytes sseq m s
  | 0x25 => onNamedBytes 0x25 sseq .cancel m s
  | 0x26 => onNamedBytes 0x26 sseq .pause m s
  | 0x30 => onGrant m s
  | 0x31 => onGrantAck m s
  | 0x32 => onStatePush m s
  | 0x33 => onRelease m s
  | 0x34 => onPulse m s
  | 0x35 => onTokenNote m s
  | 0x36 => onNoteAck m s
  | 0x37 => onReject m s
  | 0x38 => onRecall m s
  | 0x39 => onHistoryQuery m s
  | 0x40 => onFragmentPut m s
  | 0x41 => onFragmentAck m s
  | 0x42 => onFragmentGet m s
  | 0x43 => onFragmentData m s
  | 0x44 => onFragmentFree m s
  | 0x45 => onFragmentLost m s
  | _ => s

end Sys2Proof.Machine
end

