-- ==== Sys2Proof/Machine/Replay.lean ====
section
/-! DEFINITION. Step boundaries as commands, the journal and checkpoint rings as the host moves them, and replay
(R57, R328, R333 to R336, R352). -/

namespace Sys2Proof.Machine

/-! ## Records in the journal area (R329) -/

/-- One journal record, its continuations joined. -/
structure JRec where
  kind : Nat
  step : Nat
  action : Nat
  tenant : Nat
  jseq : Nat
  source : Nat
  sseq : Nat
  body : List Byte
  deriving DecidableEq, Repr

/-- Units that hold records not yet consumed. -/
def unreadUnits (s : State) : Nat :=
  let cap := journalUnits s
  if cap = 0 then 0 else (s.hlt.jHead + cap - s.hlt.jTail % cap) % cap

/-- The record at a unit with `avail` units before the head: its length in units and its bytes. A record whose CHECK fails
counts as not written. -/
def rawRecord (s : State) (u avail : Nat) : Option (Nat × List Byte) :=
  let size := journalUnits s * 64
  let n := fld (wrapRead s journalBase size (u * 64) 32) 2 2
  if avail = 0 || n = 0 || decide (avail < n) then none
  else
    let bs := wrapRead s journalBase size (u * 64) (n * 64)
    if crc32c (bs.take 28 ++ zeros 4 ++ bs.drop 32) = fld bs 28 4 then some (n, bs) else none

/-- A record of its bytes. -/
def readJRec (bs : List Byte) : JRec :=
  { kind := fld bs 0 1, step := fld bs 4 6, action := fld bs 10 1, tenant := fld bs 11 1, jseq := fld bs 12 4
    source := fld bs 16 4, sseq := fld bs 20 4, body := bs.drop 32 }

/-- The records of one step: all up to its DIGEST_OUT, and the units they take. None where they are not all there, or a gap
stands among them (R332). `open_` is the record that CONTINUED leaves open. -/
def stepRecords (s : State) : Nat → Nat → Nat → Option JRec → List JRec → Option (List JRec × Nat)
  | 0, _, _, _, _ => none
  | fuel + 1, u, avail, open_, got =>
    match rawRecord s (u % journalUnits s) avail with
    | none => none
    | some (n, bs) =>
      let r := readJRec bs
      let r := match open_ with
        | some o => { o with body := o.body ++ r.body }
        | none => r
      if r.kind = 9 then none
      else if bitOf (fld bs 1 1) 0 then stepRecords s fuel (u + n) (avail - n) (some r) got
      else if r.kind = 7 then some (got ++ [r], u + n)
      else stepRecords s fuel (u + n) (avail - n) none (got ++ [r])

/-- The next step of the journal. -/
def nextStep (s : State) : Option (List JRec × Nat) :=
  stepRecords s (unreadUnits s + 1) s.hlt.jTail (unreadUnits s) none []

/-! ## Applying records (R333) -/

/-- A message is read whole in its record's padded body. -/
def messageOk (bs : List Byte) : Bool :=
  let k := fld bs 0 1
  if k = 0x21 then (readQuery 0 bs).isSome
  else if k = 0x22 then (readVerdict bs).isSome
  else if 0x24 ≤ k ∧ k ≤ 0x26 then plainSizeOk bs
  else if 0x30 ≤ k ∧ k ≤ 0x39 then (readSlu bs).isSome
  else if 0x40 ≤ k ∧ k ≤ 0x45 then (readFrag k bs).isSome
  else if 1 ≤ k ∧ k ≤ 3 then (readRing k bs).isSome
  else false

/-- A record's message without its padding; none for a hidden state or output, which live commands bring. -/
def messageOf (body : List Byte) : Option (List Byte) :=
  ((List.range 64).map (fun k => body.take (body.length - k))).find? messageOk

/-- A MESSAGE or INBOUND record is applied. -/
def feedMessage (r : JRec) (s : State) : State :=
  match messageOf r.body with
  | none => s
  | some bs =>
    let s := deliver r.sseq { port := 0, source := r.source, dike := r.tenant, bytes := bs }
      { s with hlt := { s.hlt with feeding := true } }
    { s with hlt := { s.hlt with feeding := false } }

/-- A live INSTALL_KEY with the KIND, TARGET and VERSION of a record waits. -/
def sameKey (r : JRec) (p : Pend) : Bool :=
  match p.wait with
  | .command _ (.installKey _) b =>
    p.action == replayKeyAction && ((pendBody b).take 3 == (pendBody r.body).take 3)
  | _ => false

/-- The record of an accepted key blob lets the live command that brings the same key be applied in its place. -/
def feedKey (r : JRec) (s : State) : State :=
  if fld r.body 67 1 ≠ 0 then s
  else match s.sqs.waiting.find? (sameKey r) with
    | none => s
    | some p =>
      addWait { p with action := 2, tenant := r.tenant, source := r.source, sseq := r.sseq }
        { s with sqs := { s.sqs with waiting := s.sqs.waiting.filter (fun q => !(q == p)) } }

/-- A COMMAND record is applied: its outcome goes to no ring (log 56). -/
def feedCommand (r : JRec) (s : State) : State :=
  match readOp (pendEntry r.body) with
  | none => s
  | some (.installKey _) => feedKey r s
  | some op =>
    let h := readHead noRing (pendEntry r.body)
    let t : Ticket := { ring := noRing, tag := h.tag, opcode := fld r.body 0 1, silent := true }
    let body := r.body.take (64 + h.bodyLen)
    let p : Pend := { action := r.action, tenant := r.tenant, source := r.source, sseq := r.sseq, wait := .command t op body }
    match op with
    | .rehome q => addWait { p with wait := .join (.rehome t q body) } s
    | .switchImage => addWait { p with action := 6 } s
    | _ => if r.action = 0 then doTaken p t op body s else addWait p s

/-- A TIME record is applied: state, offset and counter are as it says. -/
def feedTime (r : JRec) (s : State) : State :=
  { s with tmu := { s.tmu with
      state := timeStateOf (fld r.body 0 1)
      offset := if bitOf (fld r.body 1 4) 31 then (fld r.body 1 4 : Int) - 2 ^ 32 else (fld r.body 1 4 : Int)
      now := counterOf r.body 15 } }
where
  /-- A time state of its code. -/
  timeStateOf (c : Nat) : TimeState :=
    match c with
    | 1 => .acquiring
    | 2 => .locked
    | 3 => .holdover
    | 4 => .lost
    | _ => .freeRun
  /-- The counter of ten bytes (R50). -/
  counterOf (bs : List Byte) (o : Nat) : Nat := fld bs (o + 4) 6 * 1000000000 + fld bs o 4

/-- A layer moved by R24 or a sequence deferred by R200 is moved or deferred in replay too. -/
def feedMoved (code h : Nat) (s : State) : State :=
  match (slotOf s h).bind (fun k => (seqAt s k).map (fun e => (k, e))) with
  | none => s
  | some (k, e) =>
    if code = 1 && !e.carried then pullItems e (updSeq k (fun e => { e with carried := true }) s)
    else if code = 4 && !e.deferred then deferSeq k e s
    else s

/-- A DISPOSITION record is forced (R333): RING_LATE, WEIGHTS_LATE with D_c, SEAL_LATE with the page that is not switched at this
boundary, the oldest step of live leases, a layer moved, a sequence deferred. What is carried over (codes 7 and 8) follows from
what is replayed (log 96). -/
def feedDisposition (r : JRec) (s : State) : State :=
  let h := fld r.body 1 4
  let x := fld r.body 6 8
  match fld r.body 0 1 with
  | 2 => bump cRingLate x (raiseTimes .ringLate x s)
  | 3 => raise .weightsLate (bump cWLate 1 { s with mdl := { s.mdl with delay := Tab.put h x s.mdl.delay } })
  | 5 => raise .sealLate (bump cSealLate 1 { s with tir := { s.tir with sealRetry := s.tir.sealRetry ++ [x] } })
  | 6 => { s with hlt := { s.hlt with forcedLive := some x } }
  | code => feedMoved code h s

/-- One record. -/
def feedRecord (s : State) (r : JRec) : State :=
  match r.kind with
  | 2 => feedTime r s
  | 3 => feedCommand r s
  | 4 => feedMessage r s
  | 5 => feedDisposition r s
  | 8 => feedMessage r s
  | _ => s

/-- What a STEP record gives: counter, time state, n_c, s and the tier-2 rate. -/
def feedStep (r : JRec) (s : State) : State :=
  { s with
    tmu := { s.tmu with now := feedTime.counterOf r.body 0, state := feedTime.timeStateOf (fld r.body 10 1), gridRun := true }
    hlt := { s.hlt with replayed := some (fld r.body 11 2, fld r.body 13 2, fld r.body 15 4) } }

/-! ## The steps of a replay (R334, R335) -/

/-- HLT_JOURNAL_TAIL passes the records of a step. -/
def passStep (tail : Nat) (s : State) : State :=
  { s with hlt := { s.hlt with jTail := tail % journalUnits s, replaying := false } }

/-- The records of a step that the recording module's first boundary had not yet begun: they are applied in their order. -/
def feedPrelude (rs : List JRec) (s : State) : State := rs.foldl feedRecord s

/-- A step is opened from its records: those before its STEP record, the boundary with what is applied at it, then what was
applied within the step. -/
def openRecorded (rs : List JRec) (st : JRec) (s : State) : State :=
  let before := rs.takeWhile (fun r => r.kind != 1)
  let after := (rs.dropWhile (fun r => r.kind != 1)).drop 1
  let s := feedStep st (feedPrelude before s)
  let s := (after.filter (fun r => r.action != 0)).foldl feedRecord s
  let s := openBoundary st.step s
  let s := { s with hlt := { s.hlt with forcedLive := none } }
  (after.filter (fun r => r.action == 0)).foldl feedRecord { s with hlt := { s.hlt with replaying := true } }

/-- REPLAY_STARVED, once for each wait. -/
def starve (s : State) : State :=
  if s.hlt.starved then s else raise .replayStarved { s with hlt := { s.hlt with starved := true } }

/-- Most recorded steps that can open: one for each unread unit. -/
def replayFuel (s : State) : Nat := 1 + unreadUnits s

/-- The next recorded step opens, where its records are there; one without a STEP record is applied and passed. -/
def openReplay : Nat → State → State
  | 0, s => s
  | fuel + 1, s =>
    if s.hlt.halted || s.hlt.replaying then s
    else
      match nextStep s with
      | none => starve s
      | some (rs, tail) =>
        let s := { s with hlt := { s.hlt with starved := false } }
        match rs.find? (fun r => r.kind == 1) with
        | some st => openRecorded rs st s
        | none => openReplay fuel (passStep tail (feedPrelude rs s))

/-- The digests of a record by node. -/
def recordDigests (r : JRec) : List Digest :=
  ((List.range (r.body.length / 16)).map (fun i =>
    { node := fld r.body (16 * i) 4, count := fld r.body (16 * i + 4) 4, sum := fld r.body (16 * i + 8) 8 : Digest })).filter
    (fun d => d.count != 0)

/-- The first node whose digest differs, if any. -/
def digestMismatch (mine theirs : List Digest) : Option Nat :=
  (sortBy (fun a b => decide (a ≤ b)) (distinct ((mine ++ theirs).map (·.node)))).find?
    (fun n => mine.find? (fun d => d.node == n) != theirs.find? (fun d => d.node == n))

/-- The first mismatch of a step's digests with its records: the record and the node. -/
def stepMismatch (s : State) (rs : List JRec) : Option (JRec × Nat) :=
  ((rs.filter (fun r => r.kind == 6 || r.kind == 7)).filterMap (fun r =>
    (digestMismatch (if r.kind = 6 then s.hlt.digestIn else s.hlt.digestOut) (recordDigests r)).map (fun n => (r, n)))).head?

/-- The replay diverged: the record is latched, and no further boundary opens. -/
def diverge (step : Nat) (r : JRec) (node : Nat) (s : State) : State :=
  raise .replayDiverged { s with hlt := { s.hlt with
    halted := true, div := le 6 step ++ le 1 r.kind ++ zeros 1 ++ le 4 node ++ le 4 r.jseq } }

/-- A replayed step ends: its digests are compared, its records consumed, and the next step opens. -/
def endRecorded (s : State) : State :=
  match nextStep s with
  | none => s
  | some (rs, tail) =>
    let step := (s.tmu.boundary).getD 0
    let m := stepMismatch s rs
    let s := passStep tail s
    match m with
    | some (r, n) => diverge step r n s
    | none => openReplay (replayFuel s) s

/-! ## Commands -/

/-- STEP_BOUNDARY (R57, R144): in service once the grid runs; in replay the next recorded step opens (R334). -/
def execStepBoundary (workNs : Nat) (s : State) : Host.Outcome State Fault Refusal :=
  if !inService s then .next s
  else if s.stw.charter.replay = 1 then .next (openReplay (replayFuel s) s)
  else if s.tmu.gridRun then .next (realBoundary workNs s)
  else .next s

/-- REPLAY_STEP_COMPLETE (R335). -/
def execReplayStepComplete (s : State) : Host.Outcome State Fault Refusal :=
  if inService s && s.stw.charter.replay == 1 && s.hlt.replaying then .next (endRecorded s) else .next s

/-- Records before the new tail are no longer held. -/
def freeJournal (tail : Nat) (s : State) : State :=
  let cap := journalUnits s
  let left := if cap = 0 then 0 else (s.hlt.jHead + cap - tail % cap) % cap
  { s with hlt := { s.hlt with
      jTail := tail
      jHeld := s.hlt.jHeld.filter (fun r => decide ((s.hlt.jHead + cap - r.1) % cap ≤ left)) } }

/-- JOURNAL_TAIL_WRITE (R328, R336): the host has copied records out; in replay HLT owns the tail. -/
def execJournalTailWrite (value : Word) (s : State) : Host.Outcome State Fault Refusal :=
  if inService s && s.stw.charter.replay == 0 then .next (freeJournal (bitsOf value.toNat 25 0) s) else .next s

/-- In replay the host has written records up to a unit: a module that waits for them goes on (R333, R334). -/
def supplyJournal (unit : Nat) (s : State) : State :=
  let s := { s with hlt := { s.hlt with jHead := unit } }
  if s.hlt.starved then openReplay (replayFuel s) s else s

/-- JOURNAL_HEAD_WRITE (R333, R334, R336): records supplied in replay. While it records, HLT owns the head. -/
def execJournalHeadWrite (value : Word) (placed : Placed) (s : State) : Host.Outcome State Fault Refusal :=
  let s := place placed s
  if inService s && s.stw.charter.replay == 1 then .next (supplyJournal (bitsOf value.toNat 25 0) s) else .next s

/-- CKPT_TAIL_WRITE (R352): the host has copied checkpoint records out. -/
def execCkptTailWrite (value : Word) (s : State) : Host.Outcome State Fault Refusal :=
  if inService s then .next { s with hlt := { s.hlt with ckptTail := bitsOf value.toNat 25 0 } } else .next s

end Sys2Proof.Machine
end

