-- ==== Sys2Proof/Machine/Nodor.lean ====
section
/-! DEFINITION. Nodor at the receiver: checks on arrival, placement, completion, acknowledgements and duplicates (R253, R255
to R258, R260, R262 to R264, R266, R272, R282). -/

namespace Sys2Proof.Machine

/-! ## What the port counts (R253, R273, R309) -/

/-- Bytes of a frame with a payload, destination address to FCS (R256). -/
def frameBytes (s : State) (n : Nat) : Nat := 98 + n + (if s.stw.charter.vlan = 0 then 0 else 4)

/-- A frame dropped for its FCS or length. -/
def countFcs (p : Nat) (s : State) : State :=
  let r := portOf s p
  let n := sNext r.fcsErrors 1
  sEvent r.fcsErrors n 2 (0x110 + 40) (setPort p { r with fcsErrors := n } s)

/-- Codewords that the FEC corrected in a frame. -/
def countFec (p n : Nat) (s : State) : State :=
  let r := portOf s p
  let v := sNext r.fecCorrected n
  sEvent r.fecCorrected v 2 (0x110 + 48) (setPort p { r with fecCorrected := v } s)

/-- A frame dropped as its FEC could not correct it (R260). -/
def countFecLost (p : Nat) (s : State) : State :=
  let r := portOf s p
  let n := sNext r.fecUncorrected 1
  sEvent r.fecUncorrected n 2 (0x110 + 44) (setPort p { r with fecUncorrected := n } s)

/-- A frame that the MAC has received. -/
def countFrameIn (p : Packet) (s : State) : State :=
  let r := portOf s p.port
  let s := setPort p.port { r with framesIn := r.framesIn + 1, bytesIn := r.bytesIn + p.frameLen } s
  wEvent r.bytesIn (r.bytesIn + p.frameLen) 2 (0x110 + 24) (wEvent r.framesIn (r.framesIn + 1) 2 (0x110 + 8) s)

/-- A frame that is not for this module (check 4). -/
def countNotMine (p : Nat) (s : State) : State :=
  let r := portOf s p
  let n := sNext r.notMine 1
  sEvent r.notMine n 2 (0x110 + 52) (setPort p { r with notMine := n } s)

/-- FAB_IN_BYTES of a frame (R309, R310): ACK and NACK under dike 0; a steward's SEND is charged once its kind is known. -/
def chargeIn (p : Packet) (s : State) : State :=
  if p.opcode = 1 ∧ p.dike = 0 then s
  else charge (if p.opcode = 8 ∨ p.opcode = 9 then 0 else p.dike) 6 p.frameLen s

/-! ## Checks 1 to 5 (R272) -/

/-- Check 1: EtherType and VLAN. -/
def typeOk (s : State) (p : Packet) : Bool :=
  p.etherType == 0x88B5 && p.vlan == s.stw.charter.vlan

/-- Check 2: the tag is valid under a key in force (R260). -/
def authentic (s : State) (p : Packet) : Bool := p.tagOk && ((wireOf s p.dike).slot p.keyIndex).isSome

/-- The receive state of a message. -/
def findIn (s : State) (p : Packet) : Option InMsg :=
  s.fab.inbound.find? (fun m => m.source == p.source && m.seq == p.msgSeq && m.window == p.window && m.gen == p.gen)

/-- Lengths of a packet of a message in several packets (R256, R257). -/
def partOk (p : Packet) (most : Nat) : Bool :=
  decide (1 ≤ p.msgLen) && decide (p.msgLen ≤ most) && decide (1 ≤ p.count) && decide (p.count ≤ 4096) &&
  decide (p.index < p.count) && decide (p.pktOffset + p.payload.length ≤ p.msgLen)

/-- Lengths of a message of one packet. -/
def singleOk (p : Packet) (n : Nat) : Bool :=
  p.msgLen == n && p.count == 1 && p.index == 0 && p.pktOffset == 0 && p.payload.length == n

/-- Lengths and payload of each opcode (R257). -/
def lengthsOk (p : Packet) : Bool :=
  let b := p.payload
  match p.opcode with
  | 1 => partOk p 16842752 && p.winOffset == 0
  | 2 => partOk p 16842752
  | 3 => singleOk p 8 && decide (1 ≤ fld b 0 4) && decide (fld b 0 4 ≤ 1048576) && zeroAt b 4 4
  | 4 => partOk p 1048576
  | 5 => singleOk p 24 && (fld b 0 1 == 1 || fld b 0 1 == 2) && zeroAt b 1 7
  | 6 => singleOk p 8
  | 8 => ((fld b 0 1 == 1 && b.length == 8) || (fld b 0 1 == 2 && b.length == 520)) && zeroAt b 1 7
  | 9 => b.length == 8 && zeroAt b 1 7
  | _ => false

/-- Check 3: VERSION, OPCODE, lengths, RSVD; a packet agrees with the packets of its message that came before. -/
def layoutOk (op : Nat) (p : Packet) (s : State) : Bool :=
  p.version == 1 && p.opcode == op && p.rsvdZero && decide (p.flags < 8) && decide (p.keyIndex < 2) && decide (p.cls < 8) &&
  decide (p.payload.length ≤ packetBytes) && lengthsOk p &&
  ((findIn s p).map (fun m => m.count == p.count && m.msgLen == p.msgLen && m.opcode == p.opcode)).getD true

/-- A node is GONE in a map held (R180). -/
def goneInAny (s : State) (n : Nat) : Bool :=
  s.slc.maps.any (fun m => m.nodes.any (fun e => e.node == n && e.status == 2))

/-- Check 4: for this node, from a node that is not GONE. -/
def addressed (s : State) (p : Packet) : Bool := p.dest == s.fab.node && !goneInAny s p.source

/-- The checks that every frame meets, then what its opcode does. Every opcode belongs to every role; a module message of
another role is told by its kind (check 5, R14). -/
def receive (op : Nat) (p : Packet) (act : State → State) (s : State) : State :=
  if !portUp s p.port then s
  else if !p.fecOk then countFecLost p.port (countFec p.port p.fecFixed s)
  else
  let s := countFec p.port p.fecFixed s
  if !p.fcsOk || decide (4214 < p.frameLen) then countFcs p.port s
  else
    let s := countFrameIn p s
    if !typeOk s p then s
    else if !authentic s p then raise .authFailed (bump cAuthFail 1 s)
    else
      let s := chargeIn p s
      if !layoutOk op p s then raise .packetMalformed s
      else if !addressed s p then countNotMine p.port s
      else act s

/-! ## Answers (R257, R263, R264, R266, R272) -/

/-- An ACK or NACK to a sender, echoing MSG_SEQ and WINDOW. -/
def answer (op dike dest window gen seq : Nat) (payload : List Byte) (s : State) : State :=
  queueFrame 0 (plainFrame op dike dest window gen seq payload.length 0 1 0 payload) s

/-- ACK(COMPLETE). -/
def ackComplete (p : Packet) (s : State) : State :=
  answer 8 p.dike p.source p.window p.gen p.msgSeq (le 1 1 ++ zeros 7) s

/-- The bitmap of packet indices received: 512 bytes. -/
def bitmapOf (m : InMsg) : List Byte := le 512 ((m.got.map (fun g => 2 ^ g.1)).sum)

/-- ACK(PARTIAL). -/
def ackPartial (m : InMsg) (s : State) : State :=
  answer 8 m.dike m.source m.window m.gen m.seq (le 1 2 ++ zeros 7 ++ bitmapOf m) s

/-- Which of the FAB_REFUSE_COUNTs a reason has. -/
def refuseIndex (reason : Nat) : Nat :=
  if reason = rRevoked then 0 else if reason = rGeneration then 1 else if reason = rBounds then 2
  else if reason = rRights then 3 else 4

/-- ACK_NOW of a packet (R264). -/
def packetAckNow (p : Packet) : Bool := bitOf p.flags 2

/-- Refused: one NACK, and none for 16 µs more unless the packet asks; what was placed stays, and the message never
completes (R272). -/
def refuse (reason : Nat) (p : Packet) (s : State) : State :=
  let s := bump (cRefuse (refuseIndex reason)) 1 s
  let s := { s with fab := { s.fab with inbound := s.fab.inbound.filter (fun m =>
    !(m.source == p.source && m.seq == p.msgSeq && m.window == p.window && m.gen == p.gen)) } }
  let mine := fun (r : Nat × Nat × Nat) => r.1 == p.source && r.2.1 == p.msgSeq
  let recent := s.fab.refused.any (fun r => mine r && decide (s.tmu.now < r.2.2 + 16000))
  if recent && !packetAckNow p then s
  else
    let s := { s with fab := { s.fab with
      refused := s.fab.refused.filter (fun r => !mine r) ++ [(p.source, p.msgSeq, s.tmu.now)] } }
    answer 9 p.dike p.source p.window p.gen p.msgSeq (le 1 reason ++ zeros 7) s

/-! ## Receive state of sources (R263, R266) -/

/-- Sources for which a fabric die holds receive state. -/
def sourcesOf (s : State) (die : Nat) : List Nat :=
  distinct (((s.fab.inbound.map (·.source)) ++ (s.fab.done.map (·.source))).filter (fun n => n % 4 == die))

/-- State of a source that may be freed: nothing incomplete, nothing completed in the last second. -/
def sourceIdle (s : State) (n : Nat) : Bool :=
  !s.fab.inbound.any (fun m => m.source == n) &&
  !s.fab.done.any (fun d => d.source == n && decide (s.tmu.now < d.at_ + 1000000000))

/-- State for a source: held already, free, or freed from another source; none where it cannot be had. Which source gives
way is open. -/
def holdSource (n : Nat) (s : State) : Option State :=
  let all := sourcesOf s (n % 4)
  if all.contains n || decide (all.length < 4096) then some s
  else
    let idle := all.filter (sourceIdle s)
    if idle.isEmpty then none
    else
      let k := freeOf idle 0 s
      some { k.2 with fab := { k.2.fab with
        done := k.2.fab.done.filter (fun d => d.source != k.1), refused := k.2.fab.refused.filter (fun r => r.1 != k.1) } }

/-- Dropped for want of a slot or of receive state. -/
def dropIntake (s : State) : State := raise .intakeDrop (bump cIntakeDrop 1 s)

/-- The completion record of a packet's message. -/
def doneOf (s : State) (p : Packet) : Option DoneMsg :=
  s.fab.done.find? (fun d => d.source == p.source && d.seq == p.msgSeq && d.window == p.window && d.gen == p.gen)

/-- MSG_SEQ is older than all 4,096 entries of its source. -/
def olderThanAll (s : State) (p : Packet) : Bool :=
  let mine := s.fab.done.filter (fun d => d.source == p.source)
  decide (4096 ≤ mine.length) && mine.all (fun d => epochLater d.seq p.msgSeq)

/-- A message is complete: of a source the latest 4,096 values of MSG_SEQ stay. -/
def noteDone (p : Packet) (prior : Option Nat) (s : State) : State :=
  let d : DoneMsg := { source := p.source, seq := p.msgSeq, window := p.window, gen := p.gen, opcode := p.opcode
                       prior := prior, at_ := s.tmu.now }
  let mine := s.fab.done.filter (fun x => x.source == p.source && x.seq != p.msgSeq) ++ [d]
  let kept := if mine.length ≤ 4096 then mine
    else mine.filter (fun x => mine.any (fun y => epochLater x.seq y.seq))
  { s with fab := { s.fab with done := s.fab.done.filter (fun x => x.source != p.source) ++ kept } }

/-! ## Checks 6 to 12 (R272) -/

/-- Fabric die of a port: P(2f) and P(2f + 1) are on Ff. -/
def portDie (p : Nat) : Nat := p / 2

/-- A packet under the generation that a revocation under way takes away, within the 2 µs in which each fabric die fences the
window, on a die that has not fenced it yet (R270). -/
def beforeFence (s : State) (p : Packet) : Bool :=
  let w := windowOf s p.window
  w.state == .revoking && p.gen == (w.gen + 4095) % 4096 && decide (s.tmu.now < w.revokedAt + 2000) &&
  !w.fenced.contains (portDie p.port)

/-- Whether the packet's die has fenced the window by now is open until 2 µs have passed: a free value (R270; log 127). A die that
has fenced it stays so. -/
def fence (p : Packet) (s : State) : State :=
  if beforeFence s p then
    let k := freeBelow 2 s
    if k.1 = 0 then k.2
    else setWindow p.window { windowOf k.2 p.window with fenced := (windowOf k.2 p.window).fenced ++ [portDie p.port] } k.2
  else s

/-- Checks 6 and 7. -/
def windowReason (s : State) (p : Packet) : Option Nat :=
  let w := windowOf s p.window
  let inRange := if p.opcode = 1 then p.window == p.dike && p.gen == 0 else decide (256 ≤ p.window) && decide (p.window < windowEnd)
  if !inRange then some rRights
  else if p.gen == w.gen && w.state == .opened then none
  else if beforeFence s p then none
  else if w.state != .opened && w.revoked && p.gen == (w.gen + 4095) % 4096 then some rRevoked
  else some rGeneration

/-- Bits of RIGHTS. -/
def Window.mayRead (w : Window) : Bool := bitOf w.rights 0
def Window.mayWrite (w : Window) : Bool := bitOf w.rights 1
def Window.mayAtomic (w : Window) : Bool := bitOf w.rights 2
def Window.placeOnly (w : Window) : Bool := bitOf w.rights 3

/-- NOTIFY of a packet. -/
def packetNotify (p : Packet) : Bool := bitOf p.flags 0

/-- Check 10. -/
def rightOk (w : Window) (p : Packet) : Bool :=
  match p.opcode with
  | 2 => w.mayWrite || (w.placeOnly && !packetNotify p)
  | 3 => w.mayRead && !packetNotify p
  | 5 => w.mayAtomic && !packetNotify p
  | _ => !packetNotify p

/-- Check 11. -/
def boundsOk (w : Window) (p : Packet) : Bool :=
  match p.opcode with
  | 2 => decide (p.winOffset + p.msgLen ≤ w.length)
  | 3 => decide (p.winOffset + fld p.payload 0 4 ≤ w.length)
  | 5 => decide (p.winOffset + 8 ≤ w.length) && p.winOffset % 8 == 0
  | _ => true

/-- Check 12. -/
def objectOk (s : State) (w : Window) (p : Packet) : Bool :=
  p.opcode == 1 || ((Tab.look w.desc s.pgm.descs).map (fun d => !d.damaged)).getD false

/-- Checks 9 to 12. -/
def rightReason (s : State) (p : Packet) : Option Nat :=
  let w := windowOf s p.window
  if p.key != w.key || p.dike != w.dike then some rRights
  else if !rightOk w p then some rRights
  else if !boundsOk w p then some rBounds
  else if !objectOk s w p then some rDamaged
  else none

/-- A key that is not the window's is counted (check 9). -/
def countKey (p : Packet) (s : State) : State :=
  if p.key != (windowOf s p.window).key then bump cKeyFail 1 s else s

/-- A duplicate of a completed message is answered again (R266); a READ is executed again. -/
def reanswer (p : Packet) (d : DoneMsg) (s : State) : State :=
  match d.opcode, d.prior with
  | 5, some v => queueFrame (dikeQueue p.dike 0) (plainFrame 6 p.dike p.source p.window p.gen p.msgSeq 8 0 1 0 (le 8 v)) s
  | _, _ => ackComplete p s

/-- Checks 6 to 12, then what the opcode does. -/
def checked (p : Packet) (act : State → State) (s : State) : State :=
  let s := fence p s
  match windowReason s p with
  | some r => refuse r p s
  | none =>
    let rest := fun (s : State) => match rightReason s p with
      | some r => refuse r p (countKey p s)
      | none => if s.fab.refused.any (fun r => r.1 == p.source && r.2.1 == p.msgSeq) then s else act s
    match doneOf s p with
    | some d => let s := bump cDup 1 s
                if p.opcode = 3 then rest s else reanswer p d s
    | none => if olderThanAll s p then ackComplete p s else rest s

/-! ## Messages in several packets (R262, R263) -/

/-- Set the receive state of a message. -/
def putIn (m : InMsg) (s : State) : State :=
  let other := s.fab.inbound.filter (fun x =>
    !(x.source == m.source && x.seq == m.seq && x.window == m.window && x.gen == m.gen))
  { s with fab := { s.fab with inbound := other ++ [m] } }

/-- The receive state goes. -/
def dropIn (m : InMsg) (s : State) : State :=
  { s with fab := { s.fab with inbound := s.fab.inbound.filter (fun x =>
    !(x.source == m.source && x.seq == m.seq && x.window == m.window && x.gen == m.gen)) } }

/-- The receive state of a message by its first packet to arrive. -/
def newIn (p : Packet) (s : State) : InMsg :=
  { source := p.source, seq := p.msgSeq, opcode := p.opcode, dike := p.dike, keyIndex := p.keyIndex, port := p.port
    window := p.window, gen := p.gen, winOffset := p.winOffset, notify := packetNotify p, msgLen := p.msgLen, count := p.count
    got := [], latest := s.tmu.now }

/-- The bytes of a complete message. -/
def InMsg.content (m : InMsg) : List Byte :=
  let t := m.got.foldl (fun t g => Tab.putRun g.2.1 g.2.2 t) []
  (List.range m.msgLen).map (fun i => Tab.getD t i 0)

/-- The dike that frames of a steward's SEND are charged to, once its first bytes are there: a fragment's tenant (R310). -/
def stewardDike (got : Tab (Nat × List Byte)) : Option Nat :=
  (got.find? (fun g => g.2.1 == 0 && decide (3 ≤ g.2.2.length))).map
    (fun g => if 0x40 ≤ fld g.2.2 0 1 ∧ fld g.2.2 0 1 ≤ 0x45 then fld g.2.2 2 1 else 0)

/-- Frames of a steward's SEND are charged where the dike is known. -/
def chargeSteward (n : Nat) (m : InMsg) (s : State) : InMsg × State :=
  if m.opcode ≠ 1 ∨ m.dike ≠ 0 then (m, s)
  else match stewardDike m.got with
    | some d => ({ m with owed := 0 }, charge d 6 (m.owed + n) s)
    | none => ({ m with owed := m.owed + n }, s)

/-- A message whose packets are all there: acknowledged and handed on, or malformed (R263). -/
def finishIn (m : InMsg) (p : Packet) (s : State) : State :=
  let s := dropIn m s
  if (m.got.map (fun g => g.2.2.length)).sum ≠ m.msgLen then raise .packetMalformed s
  else
    let s := ackComplete p (noteDone p none s)
    if m.opcode = 1 then deliver 0 { port := m.port, source := m.source, dike := m.dike, bytes := m.content } s
    else if m.notify then notice (windowOf s m.window).ring m.seq m.window m.gen m.winOffset m.msgLen s
    else s

/-- A packet that has been accepted joins its message. -/
def joinIn (m : InMsg) (p : Packet) (s : State) : State :=
  let r := chargeSteward p.frameLen { m with got := Tab.put p.index (p.pktOffset, p.payload) m.got, latest := s.tmu.now } s
  let m := r.1
  let s := r.2
  if m.got.length = m.count then finishIn m p s
  else
    let s := putIn m s
    if packetAckNow p then ackPartial m s else s

/-- A packet that came already is discarded; ACK_NOW is answered. -/
def repeatedIn (m : InMsg) (p : Packet) (s : State) : State := if packetAckNow p then ackPartial m s else s

/-- Bytes of intake buffers (R211). -/
def intakeBytes : Nat := 67108864

/-- Check 13: an intake slot of the message's size is free. -/
def intakeFree (s : State) (p : Packet) : Bool :=
  decide (((s.fab.inbound.filter (fun m => m.opcode == 1)).map (·.msgLen)).sum + p.msgLen ≤ intakeBytes)

/-- A SEND packet that passed its checks. -/
def takeSend (p : Packet) (s : State) : State :=
  match findIn s p with
  | some m => if Tab.has p.index m.got then repeatedIn m p s else joinIn m p s
  | none =>
    match holdSource p.source s with
    | none => dropIntake s
    | some s => if intakeFree s p then joinIn (newIn p s) p s else dropIntake s

/-- A packet meets the policer of its dike (R282). -/
def policed (p : Packet) (act : State → State) (s : State) : State :=
  let r := police p.dike (max p.payload.length 64) s
  if r.1 then act r.2 else r.2

/-- A WRITE packet is placed. -/
def placeWrite (p : Packet) (s : State) : State :=
  let w := windowOf s p.window
  forDike p.dike w.desc (placeObject w.desc (w.base + p.winOffset + p.pktOffset) p.payload) s

/-- A WRITE packet that passed its checks. -/
def takeWrite (p : Packet) (s : State) : State :=
  match findIn s p with
  | some m =>
    if Tab.has p.index m.got then repeatedIn m p s
    else policed p (fun s => joinIn m p (placeWrite p s)) s
  | none =>
    policed p (fun s => match holdSource p.source s with
      | none => dropIntake s
      | some s => joinIn (newIn p s) p (placeWrite p s)) s

/-- READ is executed: its data goes back in packets (R257). -/
def serveRead (p : Packet) (s : State) : State :=
  let w := windowOf s p.window
  match Tab.look w.desc s.pgm.descs with
  | none => s
  | some d =>
    let n := fld p.payload 0 4
    let parts := offsets 0 (chunks packetBytes (d.read (w.base + p.winOffset) n))
    let s := noteDone p none (chargeObject d n s)
    ((List.range parts.length).zip parts).foldl (fun s q =>
      queueFrame (dikeQueue p.dike 0)
        (plainFrame 4 p.dike p.source 0 0 p.msgSeq n q.1 parts.length q.2.1 q.2.2) s) s

/-- ATOMIC is applied once: the prior value goes back (R257). -/
def serveAtomic (p : Packet) (s : State) : State :=
  let w := windowOf s p.window
  match Tab.look w.desc s.pgm.descs with
  | none => s
  | some d =>
    let at_ := w.base + p.winOffset
    let old := unle (d.read at_ 8)
    let operand := fld p.payload 8 8
    let new := if fld p.payload 0 1 = 1 then (old + operand) % 2 ^ 64 else if old = fld p.payload 16 8 then operand else old
    let s := placeObject w.desc at_ (le 8 new) (chargeObject d 8 s)
    let s := noteDone p (some old) s
    queueFrame (dikeQueue p.dike 0) (plainFrame 6 p.dike p.source p.window p.gen p.msgSeq 8 0 1 0 (le 8 old)) s

/-- READ and ATOMIC are policed, and need receive state of their source. -/
def takeSingle (p : Packet) (act : State → State) (s : State) : State :=
  policed p (fun s => match holdSource p.source s with
    | none => dropIntake s
    | some s => act s) s

/-- A READ or ATOMIC acts on an object of the requester's dike (R287). -/
def ownObject (p : Packet) (act : State → State) (s : State) : State := forDike p.dike (windowOf s p.window).desc act s

/-! ## Commands at the receiver -/

/-- NODOR_SEND (R262, R263). -/
def execNodorSend (at_ : Nat) (p : Packet) (s : State) : Host.Outcome State Fault Refusal :=
  .next (receive 1 p (checked p (takeSend p)) (setNow at_ s))

/-- NODOR_WRITE (R262, R263, R282). -/
def execNodorWrite (at_ : Nat) (p : Packet) (s : State) : Host.Outcome State Fault Refusal :=
  .next (receive 2 p (checked p (takeWrite p)) (setNow at_ s))

/-- NODOR_READ (R257, R266). -/
def execNodorRead (at_ : Nat) (p : Packet) (s : State) : Host.Outcome State Fault Refusal :=
  .next (receive 3 p (checked p (takeSingle p (ownObject p (serveRead p)))) (setNow at_ s))

/-- NODOR_ATOMIC (R257, R266). -/
def execNodorAtomic (at_ : Nat) (p : Packet) (s : State) : Host.Outcome State Fault Refusal :=
  .next (receive 5 p (checked p (takeSingle p (ownObject p (serveAtomic p)))) (setNow at_ s))

/-- PARTIAL_ACK_TIMER (R264): 16 µs after the latest packet or PARTIAL of an incomplete message. -/
def execPartialAckTimer (source msgSeq : Nat) (s : State) : Host.Outcome State Fault Refusal :=
  match s.fab.inbound.find? (fun m => m.source == source && m.seq == msgSeq) with
  | none => .next s
  | some m =>
    let s := setNow (m.latest + 16000) s
    let m := { m with latest := s.tmu.now }
    .next (ackPartial m (putIn m s))

end Sys2Proof.Machine
end

