-- ==== Sys2Proof/Machine/Spdm.lean ====
section
/-! DEFINITION. Attestation: SPDM on its three transports, and IDE keys through the DOE mailboxes (R292, R293, R298 to R302,
R358). The messages' layouts are those of SPDM (PRESUMED, log 63). -/

namespace Sys2Proof.Machine

/-! ## Connections -/

/-- The connection state of a transport. -/
def spdmOf (s : State) : SpdmPort → Spdm
  | .doe0 => s.sec.doe0
  | .doe1 => s.sec.doe1
  | .mctp => s.sec.mctp

/-- Set the connection state of a transport. -/
def setSpdm (t : SpdmPort) (c : Spdm) (s : State) : State :=
  match t with
  | .doe0 => { s with sec := { s.sec with doe0 := c } }
  | .doe1 => { s with sec := { s.sec with doe1 := c } }
  | .mctp => { s with sec := { s.sec with mctp := c } }

/-- A transport responds: the mailbox of a trained port, the management port from step 2 of the power-up on (R394, R413). -/
def spdmOn (s : State) : SpdmPort → Bool
  | .doe0 => s.stw.boot != .powering && s.hif.x0.live
  | .doe1 => s.stw.boot != .powering && s.hif.x1.live
  | .mctp => decide (2 ≤ s.stw.powerStep)

/-- The version byte of a connection, 1.3 until another is agreed. -/
def Spdm.byte (c : Spdm) : Nat := if c.version = 0x12 then 0x12 else 0x13

/-- A response goes out on a transport, and joins the transcript after its request. -/
def respond (t : SpdmPort) (c : Spdm) (request response : List Byte) (s : State) : State :=
  setSpdm t { c with response := response, transcript := c.transcript ++ request ++ response } s

/-- A header: version, code, two parameters. -/
def spdmHead (v code p1 p2 : Nat) : List Byte := le 1 v ++ le 1 code ++ le 1 p1 ++ le 1 p2

/-- ERROR with a code: counted, with its event (R298). -/
def spdmFail (t : SpdmPort) (code data : Nat) (s : State) : State :=
  let c := spdmOf s t
  raise .spdmError (bump cSpdmError 1 (setSpdm t { c with response := spdmHead c.byte 0x7F code data } s))

/-- ERROR codes. -/
def errInvalid : Nat := 0x01
def errUnexpected : Nat := 0x04
def errUnsupported : Nat := 0x07
def errVersion : Nat := 0x41

/-- A request on a transport that responds. -/
def spdmRequest (t : SpdmPort) (act : State → State) (s : State) : Host.Outcome State Fault Refusal :=
  if spdmOn s t then .next (act s) else .next s

/-- `n` free bytes. -/
def freeBytes : Nat → State → List Byte × State
  | 0, s => ([], s)
  | n + 1, s =>
    let a := freeBelow 256 s
    let r := freeBytes n a.2
    (BitVec.ofNat 8 a.1 :: r.1, r.2)

/-! ## Certificates, measurements, signatures (R299 to R301) -/

/-- Certificate `k` of slot 0; 4 is the key-agreement certificate. -/
def certificate (s : State) (k : Nat) : List Byte :=
  (List.range (Config.certLen k)).map (Config.certByte k (imageHead s.sec.running))

/-- The chain of slot 0: root, product, device, alias certificate, under a header with its length and the root's digest. -/
def certChain (s : State) : List Byte :=
  let certs := certificate s 0 ++ certificate s 1 ++ certificate s 2 ++ certificate s 3
  le 2 (52 + certs.length) ++ zeros 2 ++ sha384 (certificate s 0) ++ certs

/-- A signature by the alias key of the running image. -/
def signature (s : State) (transcript : List Byte) : List Byte :=
  (List.range 96).map (Config.signByte (imageHead s.sec.running) transcript)

/-- The value of a measurement, and whether it is raw. -/
def measurement (s : State) : Nat → Option (Bool × List Byte)
  | 1 => some (false, Config.romDigest)
  | 2 => some (false, sha384 (imageHead s.sec.running))
  | 3 => some (false, s.sec.charterDigest)
  | 4 => some (false, s.sec.reportDigest)
  | 5 => some (true, securityState s)
  | 6 => some (false, sha384 s.sec.identity)
  | 7 => some (true, s.sec.nonce)
  | 8 => some (false, s.sec.accumulated)
  | 9 => some (true, certificate s 4)
  | _ => none

/-- The DMTF value type of a measurement. -/
def measurementType (k : Nat) : Nat := if k = 1 then 0 else if k = 2 then 1 else if k = 6 then 2 else 3

/-- One measurement block in the DMTF format. -/
def measurementBlock (s : State) (k : Nat) : List Byte :=
  match measurement s k with
  | none => []
  | some (raw, v) =>
    le 1 k ++ le 1 1 ++ le 2 (3 + v.length) ++ le 1 (measurementType k + 128 * b2n raw) ++ le 2 v.length ++ v

/-! ## Requests (R298) -/

/-- GET_VERSION: the connection begins anew; versions 1.2 and 1.3. -/
def execGetVersion (t : SpdmPort) (s : State) : Host.Outcome State Fault Refusal :=
  spdmRequest t (fun s =>
    respond t { version := 0x10 } (spdmHead 0x10 0x84 0 0)
      (spdmHead 0x10 0x04 0 0 ++ le 1 0 ++ le 1 2 ++ le 2 0x1200 ++ le 2 0x1300) s) s

/-- CERT_CAP, CHAL_CAP, MEAS_CAP with signatures, MEAS_FRESH_CAP. -/
def spdmFlags : Nat := 0x36

/-- GET_CAPABILITIES. The sizes and times it states are open. -/
def execGetCapabilities (t : SpdmPort) (s : State) : Host.Outcome State Fault Refusal :=
  spdmRequest t (fun s =>
    let c := spdmOf s t
    if c.version = 0 then spdmFail t errUnexpected 0 s
    else
      let exponent := freeBelow 32 s
      let transfer := freeBelow (2 ^ 32) exponent.2
      let largest := freeBelow (2 ^ 32) transfer.2
      respond t { c with caps := true } (spdmHead c.byte 0xE1 0 0)
        (spdmHead c.byte 0x61 0 0 ++ zeros 1 ++ le 1 exponent.1 ++ zeros 2 ++ le 4 spdmFlags ++ le 4 transfer.1 ++ le 4 largest.1)
        largest.2) s

/-- SHA-384 and ECDSA over brainpoolP384r1 by the registry's ids (R299). -/
def algSha384 : Nat := 0x000C
def algBrainpool : Nat := 0x00310018

/-- NEGOTIATE_ALGORITHMS (R299): a requester that selects nothing the module supports receives ERROR. -/
def execNegotiateAlgorithms (t : SpdmPort) (version : Nat) (base meas asym : List Nat) (s : State) :
    Host.Outcome State Fault Refusal :=
  spdmRequest t (fun s =>
    let c := spdmOf s t
    if !c.caps then spdmFail t errUnexpected 0 s
    else if version ≠ 0x12 ∧ version ≠ 0x13 then spdmFail t errVersion 0 s
    else if !base.contains algSha384 || !meas.contains algSha384 || !asym.contains algBrainpool then
      spdmFail t errInvalid 0 s
    else
      let offer := (base.map (le 4)).flatten ++ (meas.map (le 4)).flatten ++ (asym.map (le 4)).flatten
      respond t { c with version := version, algos := true } (spdmHead version 0xE3 0 0 ++ offer)
        (spdmHead version 0x63 0 0 ++ le 4 algSha384 ++ le 4 algSha384 ++ le 4 algBrainpool) s) s

/-- A request that needs a negotiated connection. -/
def spdmReady (t : SpdmPort) (act : Spdm → State → State) (s : State) : Host.Outcome State Fault Refusal :=
  spdmRequest t (fun s =>
    let c := spdmOf s t
    if c.algos then act c s else spdmFail t errUnexpected 0 s) s

/-- GET_DIGESTS (R300): the digest of slot 0, the only one provisioned. -/
def execGetDigests (t : SpdmPort) (s : State) : Host.Outcome State Fault Refusal :=
  spdmReady t (fun c s =>
    respond t c (spdmHead c.byte 0x81 0 0) (spdmHead c.byte 0x01 0 1 ++ sha384 (certChain s)) s) s

/-- GET_CERTIFICATE (R300): a part of the chain of slot 0. -/
def execGetCertificate (t : SpdmPort) (slot offset length : Nat) (s : State) : Host.Outcome State Fault Refusal :=
  spdmReady t (fun c s =>
    let chain := certChain s
    if slot ≠ 0 ∨ chain.length ≤ offset then spdmFail t errInvalid 0 s
    else
      let part := (chain.drop offset).take length
      respond t c (spdmHead c.byte 0x82 slot 0 ++ le 2 offset ++ le 2 length)
        (spdmHead c.byte 0x02 slot 0 ++ le 2 part.length ++ le 2 (chain.length - offset - part.length) ++ part) s) s

/-- CHALLENGE: signed by the alias key over the connection's transcript. -/
def execChallenge (t : SpdmPort) (slot : Nat) (nonce : List Byte) (s : State) : Host.Outcome State Fault Refusal :=
  spdmReady t (fun c s =>
    if slot ≠ 0 then spdmFail t errInvalid 0 s
    else
      let fresh := freeBytes 32 s
      let request := spdmHead c.byte 0x83 slot 0 ++ fit 32 nonce
      let body := spdmHead c.byte 0x03 slot 1 ++ sha384 (certChain s) ++ fresh.1 ++ le 2 0
      let sig := signature s (c.transcript ++ request ++ body)
      setSpdm t { c with response := body ++ sig, transcript := [] } fresh.2) s

/-- GET_MEASUREMENTS (R301): one block, all of them under index 0xFF, or their number under index 0; signed where it is
asked. -/
def execGetMeasurements (t : SpdmPort) (index : Nat) (signed : Bool) (nonce : List Byte) (s : State) :
    Host.Outcome State Fault Refusal :=
  spdmReady t (fun c s =>
    let ks := if index = 0xFF then (List.range 9).map (· + 1) else if index = 0 then [] else [index]
    if index ≠ 0xFF ∧ 9 < index then spdmFail t errInvalid 0 s
    else
      let fresh := freeBytes 32 s
      let blocks := (ks.map (measurementBlock s)).flatten
      let request := spdmHead c.byte 0xE0 (b2n signed) index ++ (if signed then fit 32 nonce else [])
      let body := spdmHead c.byte 0x60 (if index = 0 then 9 else 0) 0 ++ le 1 ks.length ++ le 3 blocks.length ++ blocks ++
        fresh.1 ++ le 2 0
      if signed then
        let sig := signature s (c.transcript ++ request ++ body)
        setSpdm t { c with response := body ++ sig, transcript := [] } fresh.2
      else respond t c request body fresh.2) s

/-- SPDM_UNSUPPORTED_REQUEST (R298). -/
def execSpdmUnsupportedRequest (t : SpdmPort) (code : Nat) (s : State) : Host.Outcome State Fault Refusal :=
  spdmRequest t (spdmFail t errUnsupported code) s

/-! ## IDE keys (R358) -/

/-- The mailbox of a port receives: the port is trained, or waits for keys after an integrity failure. -/
def mailboxOn (s : State) (p : CxlPort) : Bool := s.stw.boot != .powering && (p.live || p.ideDown)

/-- The port's keys are in place. -/
def ideKeyed (p : CxlPort) : CxlPort := { p with ide := true, ideDown := false }

/-- KEY_PROG of one port: the blob's outcome stands in KP_ACK and in SEC_KEY_RESULT. -/
def keyProg (port : Nat) (stream : Bool) (blob : List Byte) (opened : Option (List Byte)) (s : State) : State :=
  let cause := blobCause s blob opened true stream
  let s := takeBlob blob opened true port cause s
  let t := if port = 0 then SpdmPort.doe0 else .doe1
  let s := setSpdm t { spdmOf s t with response := le 1 3 ++ le 1 (blobTarget blob) ++ zeros 1 ++ le 1 cause } s
  if cause ≠ 0 then s
  else if port = 0 then { s with hif := { s.hif with x0 := ideKeyed s.hif.x0 } }
  else { s with hif := { s.hif with x1 := ideKeyed s.hif.x1 } }

/-- KEY_PROG (R292, R293, R358): applied on receipt. -/
def execKeyProg (port : Nat) (streamConfigured : Bool) (blob : List Byte) (opened : Option (List Byte)) (s : State) :
    Host.Outcome State Fault Refusal :=
  let p := if port = 0 then s.hif.x0 else s.hif.x1
  if decide (port < 2) && blob.length == 256 && mailboxOn s p then .next (keyProg port streamConfigured blob opened s)
  else .next s

end Sys2Proof.Machine
end

