-- ==== Sys2Proof/Machine/Sender.lean ====
section
/-! DEFINITION. Nodor at the sender: transmission, answers, resending and abandonment, and the links of the ports (R40, R49,
R255, R258, R259, R261, R264, R265, R283, R309, R310). -/

namespace Sys2Proof.Machine

/-! ## Outgoing messages -/

/-- The message under way to a node under a MSG_SEQ. -/
def findOut (s : State) (dest seq : Nat) : Option OutMsg := s.fab.out.find? (fun m => m.dest == dest && m.seq == seq)

/-- Change a message under way. -/
def updOut (dest seq : Nat) (f : OutMsg → OutMsg) (s : State) : State :=
  { s with fab := { s.fab with out := s.fab.out.map (fun m => if m.dest = dest ∧ m.seq = seq then f m else m) } }

/-- Opcodes of tracked messages. -/
def trackedOp (op : Nat) : Bool := op == 1 || op == 2 || op == 3 || op == 5

/-- The payload of a frame as it leaves: WRITE data is read now (R365). -/
def payloadNow (s : State) (f : Frame) : List Byte :=
  match findOut s f.dest f.seq with
  | some m =>
    (match m.carried with
     | .hostWrite _ a => if f.opcode = 2 then readMem s (a + f.offset) f.payload.length else f.payload
     | _ => f.payload)
  | none => f.payload

/-- The dike that a sent frame is charged to (R310): ACK and NACK to dike 0, a fragment to its tenant. -/
def chargedTo (s : State) (f : Frame) : Nat :=
  if f.opcode = 8 ∨ f.opcode = 9 then 0
  else if f.opcode = 1 ∧ f.dike = 0 then
    match findOut s f.dest f.seq with
    | some m => (stewardDike (m.packets.map (fun q => (0, q)))).getD 0
    | none => (stewardDike [(0, f.offset, f.payload)]).getD 0
  else f.dike

/-- A packet of a tracked message has left, the first time or again. -/
def noteSent (f : Frame) (s : State) : State :=
  if trackedOp f.opcode then
    updOut f.dest f.seq (fun m => { m with
      unsent := if bitOf f.flags 1 then m.unsent else m.unsent - 1
      firstSent := some (m.firstSent.getD s.tmu.now), latestSent := s.tmu.now }) s
  else s

/-- Largest nonce counter, which is not used (R259). -/
def lastNonce : Nat := 2 ^ 64 - 1

/-- The next nonce under a key: the counter rises, and at its limit the key version is exhausted. -/
def takeNonce (k : Nat) (s : State) : Option Nat × State :=
  let n := Tab.getD s.fab.nonce k 1
  if lastNonce ≤ n then (none, s)
  else
    let s := { s with fab := { s.fab with nonce := Tab.put k (n + 1) s.fab.nonce } }
    if n + 1 = lastNonce then (some n, raise .wireKeyExhausted { s with fab := { s.fab with exhausted := s.fab.exhausted ++ [k] } })
    else (some n, s)

/-- The nonce of a frame under the active key of its dike; none without an active key or when it is exhausted. -/
def keyFor (f : Frame) (s : State) : Option (Nat × Nat) × State :=
  match (wireOf s f.dike).active with
  | none => (none, s)
  | some v =>
    let r := takeNonce (f.dike * 2 + v) s
    (r.1.map (fun n => (v, n)), r.2)

/-- What a port counts for a frame sent. -/
def countFrameOut (p n : Nat) (s : State) : State :=
  let r := portOf s p
  let s := setPort p { r with framesOut := r.framesOut + 1, bytesOut := r.bytesOut + n } s
  wEvent r.bytesOut (r.bytesOut + n) 2 (0x110 + 16) (wEvent r.framesOut (r.framesOut + 1) 2 0x110 s)

/-- The 64 bytes of the Nodor header (R256). -/
def Frame.header (s : State) (f : Frame) : List Byte :=
  le 2 f.entropy ++ le 1 1 ++ le 1 f.opcode ++ le 1 f.flags ++ le 1 f.dike ++ le 1 f.keyIndex ++ le 1 f.cls ++
  le 4 s.fab.node ++ le 4 f.dest ++ le 4 (f.window + f.gen * 2 ^ 20) ++ le 8 f.key ++ le 4 f.winOffset ++ le 4 f.seq ++
  le 4 f.msgLen ++ le 4 (f.index + (f.count - 1) * 4096) ++ le 4 f.offset ++ le 2 f.payload.length ++ zeros 2 ++
  le 8 f.nonce ++ zeros 4

/-- The Ethernet header (R253, R254): addresses of the receiver's port and of the own one, the 802.1Q tag with the traffic class as
PCP where FABRIC_VLAN is nonzero (R275), EtherType. -/
def etherHeader (s : State) (p : Nat) (f : Frame) : List Byte :=
  let to_ := (((mapNow s).bind (·.entry f.dest)).map (fun e => e.macs.getD f.destPort 0)).getD 0
  le 6 to_ ++ le 6 ((ownMacs s).getD p 0) ++
  (if s.stw.charter.vlan = 0 then [] else be 2 0x8100 ++ be 2 (f.cls * 8192 + s.stw.charter.vlan)) ++ be 2 0x88B5

/-- The nonce of a packet (R258): SOURCE, then NONCE_CTR. -/
def Frame.nonceBytes (s : State) (f : Frame) : List Byte := le 4 s.fab.node ++ le 8 f.nonce

/-- The payload under AES-256-GCM with the header as additional data, then the 16-byte tag (R258; the cipher is a free value,
log 10). -/
def Frame.sealed (s : State) (f : Frame) : List Byte :=
  let key := ((wireOf s f.dike).slot f.keyIndex).getD 0
  let aad := f.header s
  let n := f.payload.length
  let body := le n (Config.gcm key (f.nonceBytes s) aad n (BitVec.ofNat (8 * n) (unle f.payload))).toNat
  body ++ le 16 (Config.gcmTag key (f.nonceBytes s) aad body).toNat

/-- Every octet of a frame, destination address to FCS (R253, R256). -/
def Frame.onWire (s : State) (p : Nat) (f : Frame) : List Byte :=
  let bs := etherHeader s p f ++ f.header s ++ f.sealed s
  bs ++ le 4 (Config.fcs bs).toNat

/-- A frame leaves on a port (R258, R259, R309). A frame for which no key may be used is not sent: it counts as lost, and the
rules of loss decide (log 62). -/
def transmit (p : Nat) (f : Frame) (s : State) : State :=
  let f := { f with payload := payloadNow s f }
  let k := keyFor f s
  let s := noteSent f k.2
  match k.1 with
  | none => s
  | some (v, n) =>
    let len := frameBytes s f.payload.length
    let s := charge (chargedTo s f) 5 len (countFrameOut p len s)
    let f := { f with keyIndex := v, nonce := n }
    { s with fab := { s.fab with wire := s.fab.wire ++ [(p, { f with octets := f.onWire s p })] } }

/-- TRANSMIT_OPPORTUNITY (R276, R258, R259). -/
def execTransmitOpportunity (at_ port : Nat) (s : State) : Host.Outcome State Fault Refusal :=
  let s := setNow at_ s
  if decide (port < 8) && portUp s port then
    let r := nextFrame port s
    .next (match r.1 with
      | none => r.2
      | some f => transmit port f r.2)
  else .next s

/-! ## Answers (R257, R265) -/

/-- The outcome of a host-ring command whose message ends; nothing for a module message. -/
def settleTicket (m : OutMsg) (f : Ticket → State → State) (s : State) : State :=
  match m.ticket with
  | some t => f t s
  | none => s

/-- A packet of a message stands in a queue. -/
def stillQueued (s : State) (m : OutMsg) (i : Nat) : Bool :=
  (Tab.vals (queueOf s m.queue).inst).any (fun fs => fs.any (fun f => f.dest == m.dest && f.seq == m.seq && f.index == i))

/-- A packet is sent again. -/
def resend (m : OutMsg) (i flags : Nat) (s : State) : State := bump cResend 1 (queuePacket m i (2 + flags) s)

/-- ACK(PARTIAL): packets that are missing, and are not on their way to be sent, are sent again at once. -/
def resendMissing (m : OutMsg) (bitmap : Nat) (s : State) : State :=
  ((List.range m.packets.length).filter (fun i => !bitOf bitmap i && !stillQueued s m i)).foldl (fun s i => resend m i 0 s) s

/-- The message that an answer is about: MSG_SEQ and WINDOW are echoed. -/
def answered (s : State) (p : Packet) : Option OutMsg :=
  match findOut s p.source p.msgSeq with
  | some m => if m.window == p.window && m.gen == p.gen then some m else none
  | none => none

/-- ACK at the sender. READ and ATOMIC wait for their data. -/
def takeAck (p : Packet) (s : State) : State :=
  match answered s p with
  | none => s
  | some m =>
    if fld p.payload 0 1 = 2 then resendMissing m (fld p.payload 8 512) s
    else if m.opcode = 3 ∨ m.opcode = 5 then s
    else settleTicket m done (endMsg m.dest m.seq s)

/-- NACK at the sender: the message ends, and a ring command completes with the reason (R365). -/
def takeNack (p : Packet) (s : State) : State :=
  match answered s p with
  | none => s
  | some m => settleTicket m (fun t s => reasonWith t (fld p.payload 0 1) s) (endMsg m.dest m.seq s)

/-- A packet of the data a READ asked for: it is written as it arrives (R365). -/
def takeData (p : Packet) (s : State) : State :=
  match findOut s p.source p.msgSeq with
  | none => s
  | some m =>
    match m.opcode, m.carried with
    | 3, .hostRead t a =>
      if Tab.has p.index m.answer || p.msgLen != fld ((m.packets.map (·.2)).flatten) 0 4 then s
      else
        let s := writeMem (a + p.pktOffset) p.payload s
        let got := Tab.put p.index (p.pktOffset, p.payload) m.answer
        if got.length = p.count ∧ (got.map (fun g => g.2.2.length)).sum = p.msgLen then done t (endMsg m.dest m.seq s)
        else updOut m.dest m.seq (fun m => { m with answer := got, answerCount := p.count }) s
    | _, _ => s

/-- The prior value of an ATOMIC. -/
def takePrior (p : Packet) (s : State) : State :=
  match findOut s p.source p.msgSeq with
  | none => s
  | some m =>
    match m.opcode, m.carried with
    | 5, .hostAtomic t => doneWith t (fld p.payload 0 8) 0 (endMsg m.dest m.seq s)
    | _, _ => s

/-- NODOR_ACK (R264, R265). -/
def execNodorAck (at_ : Nat) (p : Packet) (s : State) : Host.Outcome State Fault Refusal :=
  .next (receive 8 p (takeAck p) (setNow at_ s))

/-- NODOR_NACK (R265, R272). -/
def execNodorNack (at_ : Nat) (p : Packet) (s : State) : Host.Outcome State Fault Refusal :=
  .next (receive 9 p (takeNack p) (setNow at_ s))

/-- NODOR_READ_DATA (R257, R262). -/
def execNodorReadData (at_ : Nat) (p : Packet) (s : State) : Host.Outcome State Fault Refusal :=
  .next (receive 4 p (takeData p) (setNow at_ s))

/-- NODOR_ATOMIC_DATA (R257, R262). -/
def execNodorAtomicData (at_ : Nat) (p : Packet) (s : State) : Host.Outcome State Fault Refusal :=
  .next (receive 6 p (takePrior p) (setNow at_ s))

/-! ## Timers (R265) -/

/-- RESEND_TIMEOUT: no answer since the latest packet was sent, so the last packet goes again with ACK_NOW and RESEND. -/
def execResendTimeout (at_ dest msgSeq : Nat) (s : State) : Host.Outcome State Fault Refusal :=
  let s := setNow at_ s
  match findOut s dest msgSeq with
  | none => .next s
  | some m =>
    if m.unsent = 0 ∧ m.firstSent.isSome ∧ m.latestSent + s.stw.charter.resend * 1000 ≤ s.tmu.now then
      .next (resend m (m.packets.length - 1) 4 s)
    else .next s

/-- MESSAGE_ABANDON_TIMER: 1 s after its first packet was sent a message is abandoned. -/
def execMessageAbandonTimer (dest msgSeq : Nat) (s : State) : Host.Outcome State Fault Refusal :=
  match findOut s dest msgSeq with
  | none => .next s
  | some m =>
    match m.firstSent with
    | none => .next s
    | some t =>
      let s := raise .messageAbandoned (bump cAbandon 1 (setNow (t + 1000000000) s))
      .next (settleTicket m abandoned (endMsg dest msgSeq s))

/-! ## Links of the ports (R255, R283) -/

/-- Ports are there from the steward's start on. -/
def portsOn (s : State) : Bool := s.stw.boot == .starting || s.stw.boot == .service

/-- ETHERNET_LINK_CHANGE: a change of a port's state is an event; packets queued on a port that goes down move. -/
def execEthernetLinkChange (port : Nat) (up : Bool) (s : State) : Host.Outcome State Fault Refusal :=
  let r := portOf s port
  if !portsOn s || decide (7 < port) || r.up == up then .next s
  else
    let s := raise .portChanged (setPort port { r with up := up } s)
    .next (if up || r.withdrawn then s else movePort port s)

end Sys2Proof.Machine
end

