-- ==== Sys2Proof/Machine/Startup.lean ====
section
/-! DEFINITION. Start-up: power-up steps, boot ROM, recovery, the steward's start, service (R389 to R396). -/

namespace Sys2Proof.Machine

/-! ## Power-up steps (R389) -/

/-- The next step may begin: none while BROWN_WARN_N is asserted (R390), steps 3 onward only with an accepted image. -/
def stepMayBegin (s : State) : Bool :=
  !s.sup.brown && decide (s.stw.powerStep < 24) &&
  (match s.stw.boot with
   | .powering => s.stw.powerStep == 1
   | .starting => decide (2 ≤ s.stw.powerStep)
   | _ => false)

/-- The next power-up step begins; the boot ROM starts with step 2 (R389, R391). -/
def beginStep (s : State) : State :=
  { s with stw := { s.stw with
      powerStep := s.stw.powerStep + 1
      boot := if s.stw.powerStep = 1 then .bootRom else s.stw.boot } }

/-- POWER_STEP_INTERVAL. -/
def execPowerStepInterval (s : State) : Host.Outcome State Fault Refusal :=
  .next (if stepMayBegin s then beginStep s else s)

/-! ## Boot ROM (R391) -/

/-- The boot ROM enters RECOVERY with a cause. -/
def enterRecovery (cause : Nat) (s : State) : State :=
  { s with stw := { s.stw with boot := .recovery, cause := cause, recovery := .wait, received := [] } }

/-- The firmware image in flash as the boot ROM reads it: its header, and a body of the length the header gives. -/
def flashImage (s : State) : List Byte :=
  let n := fld (flashBytes s imageBase 512) 4 4
  flashBytes s imageBase (if n ≤ 16777216 then 512 + n else 512)

/-- An accepted image is measured and started. CAUSE belongs to a failure that is over (DEDUCED, log 71). -/
def startImage (img : List Byte) (s : State) : State :=
  let s := { s with
    sec := { s.sec with running := img }
    stw := { s.stw with boot := .starting, cause := 0 } }
  logEvent 2 (sha384 (imageHead img)) s

/-- The charter region as read: a flash that does not respond reads as all ones (R387). -/
def charterRegion (flashOk : Bool) (s : State) : List Byte :=
  if flashOk then flashBytes s charterBase charterBytes else List.replicate charterBytes 0xFF#8

/-- Steps 1 to 3 of the boot ROM: BOOT_NONCE and the steward memory key (R290, R291), the charter and its report, the boot ROM's own measurement; the log holds
them in that order (R302, R391; DEDUCED, log 72). -/
def bootMeasure (o : BootOps) (s : State) : State :=
  let key := freeBelow (2 ^ 512) s
  let s := key.2
  let s := applyCharter (charterRegion o.flashOk s) { s with sec := { s.sec with nonce := fit 16 o.nonce, steward := key.1 } }
  logEvent 1 Config.romDigest (logEvent 4 s.sec.reportDigest (logEvent 3 s.sec.charterDigest s))

/-- BOOT_ROM_START. -/
def execBootRomStart (o : BootOps) (s : State) : Host.Outcome State Fault Refusal :=
  if s.stw.boot == .bootRom then
    let s := bootMeasure o s
    if !o.flashOk then .next (enterRecovery 1 s)
    else
      let img := flashImage s
      let c := imageCause s img o.sigOk
      .next (if c = 0 then startImage img s else enterRecovery 2 (refuseImage c s))
  else .next s

/-- IMAGE_START_TIMEOUT: the image started does not report READY. -/
def execImageStartTimeout (s : State) : Host.Outcome State Fault Refusal :=
  .next (if s.stw.boot == .starting && s.stw.powerStep == 2 then enterRecovery 3 s else s)

/-! ## Recovery (R392) -/

/-- Most bytes of an image, and of a chunk. -/
def imageLimit : Nat := 16777728
def chunkLimit : Nat := 8388608

/-- Bytes of a chunk: LENGTH 0 stands for the most. -/
def chunkBytes (length : Nat) : Nat := if length = 0 then chunkLimit else length

/-- The first `n` bytes of the recovery buffer. -/
def bufferBytes (n : Nat) (s : State) : List Byte :=
  (List.range n).map (fun i => Tab.getD (Tab.part 0 n s.stw.buffer) i 0)

/-- PUSH: the chunk is appended, or ignored beyond the limit. A LENGTH above the most is taken like one beyond the limit
(DESIGN CHOICE, log 73). -/
def recoveryAppend (length : Nat) (s : State) : State :=
  let n := chunkBytes length
  if chunkLimit < n ∨ imageLimit < s.stw.received.length + n then { s with stw := { s.stw with recovery := .refused } }
  else { s with stw := { s.stw with recovery := .receiving, received := s.stw.received ++ bufferBytes n s } }

/-- RECOVERY_PUSH: the host writes a chunk at window offset 0, its length, and PUSH. -/
def execRecoveryPush (length : Nat) (chunk : List Byte) (s : State) : Host.Outcome State Fault Refusal :=
  if s.stw.boot == .recovery then
    let n := length % 2 ^ 24
    let s := { s with
      stw := { s.stw with buffer := Tab.putRun 0 (chunk.take 16777216) s.stw.buffer }
      hif := { s.hif with rw := Tab.put (regAddr 0 0x300) n s.hif.rw } }
    .next (recoveryAppend n s)
  else .next s

/-- FINISH: the image received is verified by R304. One that is refused is discarded (DEDUCED, log 73). -/
def recoveryVerify (sigOk : Bool) (s : State) : State :=
  let img := s.stw.received
  let c := imageCause s img sigOk
  if c = 0 then startImage img { s with stw := { s.stw with recovery := .accepted, toFlash := some img } }
  else
    let s := raise .recoveryRefused (refuseImage c s)
    { s with stw := { s.stw with recovery := .wait, received := [] } }

/-- RECOVERY_FINISH. -/
def execRecoveryFinish (sigOk : Bool) (s : State) : Host.Outcome State Fault Refusal :=
  .next (if s.stw.boot == .recovery then recoveryVerify sigOk s else s)

/-- ABORT: the chunks received are discarded. -/
def recoveryDiscard (s : State) : State := { s with stw := { s.stw with recovery := .wait, received := [] } }

/-- RECOVERY_ABORT. -/
def execRecoveryAbort (s : State) : Host.Outcome State Fault Refusal :=
  .next (if s.stw.boot == .recovery then recoveryDiscard s else s)

/-! ## The steward's start (R3, R393) -/

/-- The stepping that die `k` of the identity record must show (R2, R3). -/
def steppingOf (k : Nat) : Nat := if k < 8 then 0xA1 else if k < 14 then 0xA0 else if k < 18 then 0xB0 else 0xA1

/-- Every die reports the stepping of the table. -/
def steppingsOk (s : State) : Bool :=
  (List.range 20).all (fun k => fld s.sec.identity (80 + 8 * k + 7) 1 == steppingOf k)

/-- A core is quarantined at start-up: without counting against the budget (R393). -/
def startQuarantine (c : Nat × Nat) (s : State) : State :=
  bump cQuarantine 1 (updCore c.1 c.2 (fun x => { x with state := .quarantined, held := false }) s)

/-- The health area is applied: each core once. -/
def applyHealth (s : State) : State :=
  ((healthCores s).foldl (fun l c => if l.contains c then l else l ++ [c]) []).foldl (fun s c => startQuarantine c s) s

/-- A core fails its self-check at start-up: a hard fault (R346), recorded in the health area. -/
def failStartCheck (c : Nat × Nat) (s : State) : State :=
  if c.1 < 8 ∧ c.2 < 34 ∧ (coreAt s c.1 c.2).state ≠ .quarantined then
    let s := startQuarantine c (updCore c.1 c.2 (fun x => { x with score := 65535 }) s)
    raise .hardFault (queueFlash (.health (healthEntry c.1 c.2 3 0)) s)
  else s

/-- A link that does not come up is handled as R40 lays down. -/
def failLink (l : Nat) (s : State) : State :=
  if l < 24 then linkConsequence l (raise .linkDegraded (setLink l .down s)) else s

/-- STEWARD_START: `links` did not come up, `failed` cores failed their self-check. -/
def execStewardStart (links : List Nat) (failed : List (Nat × Nat)) (s : State) : Host.Outcome State Fault Refusal :=
  if s.stw.boot == .starting && decide (20 ≤ s.stw.powerStep) && !s.stw.checked then
    if steppingsOk s then
      let s := applyHealth (links.foldl (fun s l => failLink l s) s)
      let s := failed.foldl (fun s c => failStartCheck c s) s
      .next { s with stw := { s.stw with checked := true } }
    else .next { s with stw := { s.stw with boot := .halted, cause := 4 } }
  else .next s

/-! ## Service (R394, R395) -/

/-- Ethernet ports that trained are up (R394); a change of a port's state is an event (R255). -/
def portsTrained (mask : Nat) (s : State) : State :=
  (List.range 8).foldl (fun s p =>
    if bitOf mask p && !(portOf s p).up then raise .portChanged (setPort p { portOf s p with up := true } s) else s) s

/-- The module-level fault of both CXL ports down (R40, R224, R367). -/
def cxlFault (s : State) : State := if cxlUp s then dropFault faultTier2 s else addFault faultTier2 s

/-- A recovery image is written to flash after SERVICE is reached (R392). -/
def flashRecovered (s : State) : State :=
  match s.stw.toFlash with
  | none => s
  | some img => queueFlash (.image img true) { s with stw := { s.stw with toFlash := none } }

/-- SERVICE_REACHED: charter values reach the blocks, the intake window of dike 0 opens. -/
def execServiceReached (ms portsUp : Nat) (s : State) : Host.Outcome State Fault Refusal :=
  if s.stw.boot == .starting && s.stw.powerStep == 24 && s.stw.checked then
    let s := { s with
      stw := { s.stw with boot := .service, startMs := ms }
      tmu := { s.tmu with period := s.stw.charter.stepPeriod, epoch := s.stw.charter.gridEpoch } }
    .next (flashRecovered (cxlFault (portsTrained portsUp (setIntake 0 true s))))
  else .next s

end Sys2Proof.Machine
end

