-- ==== Sys2Proof/Machine/Supply.lean ====
section
/-! DEFINITION. Supply, signals, the power-fail sequence, thermal events, CXL links, the management port (R45, R358, R367,
R389, R390, R405 to R417). -/

namespace Sys2Proof.Machine

/-! ## The power log (R414, R415) -/

/-- The time counter runs from step 2 on; an event of the supply has its instant. -/
def supplyAt (at_ : Nat) (s : State) : State := if 2 ≤ s.stw.powerStep then setNow at_ s else s

/-- A power log entry: kept, the latest 256, and sent to the management controller. The dies that log are powered from step 2
on (DEDUCED, log 74). -/
def logPower (event cause : Nat) (s : State) : State :=
  if 2 ≤ s.stw.powerStep then
    let e := powerEntry s.tmu.now event cause s.sup.lowest s.sup.bank
    let l := s.sup.log ++ [e]
    { s with sup := { s.sup with
        log := l.drop (l.length - 256), sentLog := s.sup.sentLog ++ [e], lowest := s.sup.volts } }
  else s

/-- The input voltage has a new value. -/
def setVolts (v : Nat) (s : State) : State :=
  { s with sup := { s.sup with volts := v, lowest := min s.sup.lowest v } }

/-! ## Switching off (R390, R409) -/

/-- Units are switched off: everything the part holds outside flash, fuses and the pins is lost (R291, R409, R414). What
lies in the CXL tier and in host memory stays. -/
def powerOff (s : State) : State :=
  let s := loseFlash s
  { State.reset with
    sec := { State.reset.sec with
      identity := s.sec.identity, fusedSvn := s.sec.fusedSvn, revoked := s.sec.revoked, testMode := s.sec.testMode }
    stw := { State.reset.stw with flash := s.stw.flash, restarts := s.stw.restarts }
    sup := { s.sup with log := [], lowest := s.sup.volts, hot := [], address := 0x3A, answer := [] }
    hif := { State.reset.hif with
      x0 := { State.reset.hif.x0 with perst := s.hif.x0.perst }, x1 := { State.reset.hif.x1 with perst := s.hif.x1.perst } }
    fab := { State.reset.fab with wire := s.fab.wire }
    mem := s.mem.filter (fun c => decide (Config.cxlBase ≤ c.1))
    freeCtr := s.freeCtr
    pending := s.pending }

/-- Units are on, and the module is not in SERVICE. -/
def startingUp (s : State) : Bool := decide (0 < s.stw.powerStep) && !inService s

/-- A restart of start-up (R390): RESTARTS counts it, S-kind of 8 bits. -/
def switchOff (s : State) : State :=
  let n := s.stw.restarts
  let s := powerOff s
  { s with stw := { s.stw with restarts := min 255 (n + 1) } }

/-- Start-up begins with step 1 (R389). -/
def beginStart (s : State) : State :=
  { s with sup := { s.sup with failed := false }, stw := { s.stw with powerStep := 1, boot := .powering } }

/-! ## The power-fail sequence (R409) -/

/-- Frames that wait for CONTROL or STEP on a port. -/
def stepWaiting (s : State) (p : Nat) : Nat := ((queueOf s 0).on p).length + ((queueOf s 1).on p).length

/-- Send the next `n` frames of a port. -/
def sendNext (p : Nat) : Nat → State → State
  | 0, s => s
  | n + 1, s =>
    match nextFrame p s with
    | (none, s) => s
    | (some f, s) => sendNext p n (transmit p f s)

/-- What waits for CONTROL and STEP leaves: tailrace batches and verdicts among it. -/
def drainSteps (s : State) : State :=
  (List.range 8).foldl (fun s p => if portUp s p then sendNext p (stepWaiting s p) s else s) s

/-- Entries that get a POWER_FAIL record: all but those in DRAINING. -/
def failEntries (s : State) : List Seq := (Tab.vals s.sqs.seqs).filter (fun e => e.state != .draining)

/-- The extra batches of a C module: one per gateway and tenant, STEP the current step. -/
def failBatches (s : State) : State :=
  if roleC s then
    let n := stepNo s
    let s' := { s with sqs := { s.sqs with batch := [] } }
    sendBatches n ((failEntries s).foldl (fun s e => addNotice e 3 0 0 s) s')
  else s

/-- The power-fail sequence, started by a power log event. -/
def powerFail (cause : Nat) (s : State) : State :=
  if s.stw.powerStep = 0 then s
  else
    let s := if inService s then drainSteps (failBatches (drainSteps s)) else s
    let s := powerOff (logPower 3 cause s)
    { s with sup := { s.sup with failed := true } }

/-! ## PWR_GOOD (R389, R390, R409) -/

/-- The input lies within 42–72 V and is connected. -/
def inputGood (s : State) : Bool := decide (4200 ≤ s.sup.volts) && decide (s.sup.volts ≤ 7200)

/-- PWR_GOOD_RISE: PWR_GOOD has been high for 10 ms. -/
def execPwrGoodRise (s : State) : Host.Outcome State Fault Refusal :=
  let s := { s with sup := { s.sup with pwrGood := true } }
  .next (if s.stw.powerStep = 0 && !s.sup.disconnected && (!s.sup.failed || inputGood s) then beginStart s else s)

/-- PWR_GOOD_FALL: low for `lowUs` µs. Its loss is logged; in SERVICE more than 1 ms starts the power-fail sequence, during
start-up the units go off. -/
def execPwrGoodFall (at_ lowUs : Nat) (s : State) : Host.Outcome State Fault Refusal :=
  let s := logPower 4 0 (supplyAt at_ s)
  let back := inService s && decide (lowUs ≤ 1000)
  let s := { s with sup := { s.sup with pwrGood := back } }
  .next (if startingUp s then switchOff s else if inService s && !back then powerFail 4 s else s)

/-- BROWN_WARN_TIMEOUT: not released within 20 ms during start-up (R390). -/
def execBrownWarnTimeout (s : State) : Host.Outcome State Fault Refusal :=
  .next (if startingUp s && s.sup.brown then switchOff s else s)

/-! ## Input and bank (R405 to R409) -/

/-- INPUT_LOW: below 40 V, or the bank falls below 2 J above its reserve, 200 in units of 0.01 J rounded: BROWN_WARN_N is
asserted. -/
def execInputLow (at_ volts10mV bank : Nat) (s : State) : Host.Outcome State Fault Refusal :=
  let s := setVolts volts10mV (supplyAt at_ s)
  let s := { s with sup := { s.sup with bank := bank } }
  .next (if s.stw.powerStep ≠ 0 && !s.sup.brown && (decide (volts10mV < 4000) || decide (bank ≤ 200)) then
    logPower 1 0 { s with sup := { s.sup with brown := true } } else s)

/-- INPUT_RESTORED: 42 V or more for 1 ms and the bank at 2 J or more above its reserve: the signal is released. -/
def execInputRestored (at_ volts10mV bank : Nat) (s : State) : Host.Outcome State Fault Refusal :=
  let s := setVolts volts10mV (supplyAt at_ s)
  let s := { s with sup := { s.sup with bank := bank } }
  .next (if s.sup.brown && decide (4200 ≤ volts10mV) && decide (200 ≤ bank) then
    logPower 2 0 { s with sup := { s.sup with brown := false } } else s)

/-- OVERVOLTAGE: the input is disconnected; the power-fail sequence runs from the bank. -/
def execOvervoltage (at_ volts10mV : Nat) (s : State) : Host.Outcome State Fault Refusal :=
  let s := setVolts volts10mV (supplyAt at_ s)
  if decide (7200 < volts10mV) && !s.sup.disconnected then
    .next (powerFail 5 (logPower 5 0 { s with sup := { s.sup with disconnected := true } }))
  else .next s

/-- BANK_RESERVE_REACHED. The event that started the sequence is BROWN_WARN asserted (DEDUCED, log 75). -/
def execBankReserveReached (at_ : Nat) (s : State) : Host.Outcome State Fault Refusal :=
  let s := supplyAt at_ s
  .next (powerFail 1 { s with sup := { s.sup with bank := 0 } })

/-- INPUT_RECONNECT: after an overvoltage or a power-fail sequence the input has been within 42–72 V, with PWR_GOOD high, for
10 ms (R405, R409). A voltage that no command has named since is open within those limits. -/
def execInputReconnect (at_ : Nat) (s : State) : Host.Outcome State Fault Refusal :=
  if s.sup.disconnected || s.sup.failed then
    let s := supplyAt at_ s
    let v := if inputGood s then (s.sup.volts, s) else (let k := freeBelow 3001 s; (4200 + k.1, k.2))
    let s := v.2
    let s := { s with sup := { s.sup with disconnected := false, pwrGood := true, volts := v.1, lowest := v.1 } }
    .next (if s.stw.powerStep = 0 then beginStart s else s)
  else .next s

/-! ## Heat and power (R45, R417) -/

/-- THERMAL_HIGH: logged once per excursion. -/
def execThermalHigh (at_ die : Nat) (s : State) : Host.Outcome State Fault Refusal :=
  let s := supplyAt at_ s
  .next (if s.stw.powerStep ≠ 0 && decide (die < 20) && !s.sup.hot.contains die then
    logPower 6 0 { s with sup := { s.sup with hot := s.sup.hot ++ [die] } } else s)

/-- THERMAL_EXCURSION_END. -/
def execThermalExcursionEnd (die : Nat) (s : State) : Host.Outcome State Fault Refusal :=
  .next { s with sup := { s.sup with hot := s.sup.hot.filter (· ≠ die) } }

/-- THERMAL_TRIP. -/
def execThermalTrip (at_ die : Nat) (s : State) : Host.Outcome State Fault Refusal :=
  let s := supplyAt at_ s
  .next (if decide (die < 20) then powerFail 7 (logPower 7 0 s) else s)

/-- POWER_OVER. -/
def execPowerOver (at_ watts : Nat) (s : State) : Host.Outcome State Fault Refusal :=
  let s := supplyAt at_ s
  .next (if inService s && decide (s.stw.charter.powerCap < watts) then
    logPower 8 0 (raise .powerOver (bump cPowerOver 1 s)) else s)

/-! ## CXL ports (R358, R367, R391, R412) -/

/-- A CXL port's record. -/
def cxlOf (s : State) (port : Nat) : CxlPort := if port = 0 then s.hif.x0 else s.hif.x1

/-- Set a CXL port's record. -/
def setCxl (port : Nat) (p : CxlPort) (s : State) : State :=
  if port = 0 then { s with hif := { s.hif with x0 := p } } else { s with hif := { s.hif with x1 := p } }

/-- A CXL port's record changes: a change of what it carries is an event, in SERVICE the fault of R40 follows, and rings go
on over the port that is up. -/
def changeCxl (port : Nat) (p : CxlPort) (s : State) : State :=
  let old := cxlOf s port
  let s := setCxl port p s
  if old.rate = p.rate ∧ old.width = p.width then s
  else
    let s := raise .cxlPortChanged s
    if inService s then serveRings (cxlFault s) else s

/-- PERST_ASSERT: the port does not train. -/
def execPerstAssert (port : Nat) (s : State) : Host.Outcome State Fault Refusal :=
  .next (if port < 2 then changeCxl port { cxlOf s port with rate := 0, width := 0, perst := true } s else s)

/-- CXL_LINK_CHANGE: the port trains with a rate (1 or 2, as HIF_PORT codes it) and a width of up to 16 lanes, or goes down
(width 0). After an IDE integrity failure it stays down until keys are programmed (R358). -/
def execCxlLinkChange (port rate width : Nat) (s : State) : Host.Outcome State Fault Refusal :=
  let p := cxlOf s port
  .next (if decide (port < 2) && decide (2 ≤ s.stw.powerStep) && !(p.ideDown && decide (0 < width)) &&
      (width == 0 || (rate == 1 || rate == 2) && decide (width ≤ 16)) then
    (if width = 0 then changeCxl port { p with rate := 0, width := 0 } s
     else changeCxl port { p with rate := rate, width := width, perst := false } s)
    else s)

/-- IDE_INTEGRITY_FAILURE. -/
def execIdeIntegrityFailure (port : Nat) (s : State) : Host.Outcome State Fault Refusal :=
  let p := cxlOf s port
  .next (if decide (port < 2) && p.live then
    changeCxl port { p with rate := 0, width := 0, ide := false, ideDown := true } s else s)

/-! ## The management port (R413) -/

/-- The port answers from step 2 on. -/
def managed (s : State) : Bool := decide (2 ≤ s.stw.powerStep)

/-- An answer leaves the management port. -/
def manage (bs : List Byte) (s : State) : State :=
  if managed s then { s with sup := { s.sup with answer := bs } } else s

/-- The bytes of a sensor answer (DESIGN CHOICE, log 76): counts, then 16-bit values. -/
def sensorBytes (v : Sensors) : List Byte :=
  le 1 v.dieTemps.length ++ le 1 v.rails.length ++ (v.dieTemps.map (fun t => le 2 (tempCode t))).flatten ++
  (v.rails.map (le 2)).flatten ++ le 2 v.volts ++ le 2 v.amps ++ le 2 v.watts

/-- GET_SENSORS. -/
def execGetSensors (v : Sensors) (s : State) : Host.Outcome State Fault Refusal := .next (manage (sensorBytes v) s)

/-- GET_IDENTITY. -/
def execGetIdentity (s : State) : Host.Outcome State Fault Refusal := .next (manage s.sec.identity s)

/-- GET_POWER_LOG. -/
def execGetPowerLog (s : State) : Host.Outcome State Fault Refusal := .next (manage s.sup.log.flatten s)

/-- DYNAMIC_ADDRESS_ASSIGNMENT. -/
def execDynamicAddressAssignment (address : Nat) (s : State) : Host.Outcome State Fault Refusal :=
  .next (if managed s then { s with sup := { s.sup with address := address % 128 } } else s)

end Sys2Proof.Machine
end

