-- ==== Sys2Proof/Machine/Regs.lean ====
section
/-! DEFINITION. The control window: decoding, what each register reads, writes by access code, bit aliases, latches,
acknowledgements (R10 to R12, R368 to R372, R395, R397 to R404, and the cards of every block). -/

namespace Sys2Proof.Machine

/-! ## Decoding (R368, R369, R397, R398) -/

/-- Decode masks by block (R397). -/
def decodeMask (block : Nat) : Nat :=
  [0x03FC, 0x3FFC, 0x03FC, 0x03FC, 0x007C, 0x03FC, 0x01FC, 0x01FC, 0x01FC, 0x01FC, 0x07FC, 0x007C, 0x03FC, 0x07FC].getD block 0

/-- Size of BAR0. -/
def bar0 : Nat := 0x4000000

/-- An address in an unused range of BAR0 (R368). -/
def unusedRange (addr : Nat) : Bool :=
  (decide (0x0E00000 ≤ addr) && decide (addr < 0x1000000)) || (decide (0x2C00000 ≤ addr) && decide (addr < 0x3000000))

/-- Block and masked offset of a word in a register block (R397). -/
def blockWord (addr : Nat) : Option (Nat × Nat) :=
  if addr < 0x0E00000 then
    let b := addr / 0x100000
    some (b, addr % 0x10000 &&& decodeMask b)
  else none

/-- Block, masked offset and bit of an alias word (R370, R398). -/
def aliasWord (addr : Nat) : Option (Nat × Nat × Nat) :=
  if 0x1000000 ≤ addr ∧ addr < 0x2C00000 then
    let b := (addr - 0x1000000) / 0x200000
    let w := (addr - 0x1000000) % 0x200000 / 4
    some (b, (w / 32 * 4) &&& decodeMask b, w % 32)
  else none

/-- Offset in the bulk table window. -/
def windowOff (addr : Nat) : Option Nat := if 0x3000000 ≤ addr ∧ addr < bar0 then some (addr - 0x3000000) else none

/-! ## What registers read -/

/-- An SQ word as read, without LV bits. -/
def sqWordRead (s : State) (a : Nat) : Nat := evseqOf s a * 2 ^ 24 + sqBits s a

/-- A word of latched data. -/
def latched (s : State) (block base off : Nat) : Nat :=
  fld (Tab.getD s.hif.latch (regAddr block base) []) (off - base) 4

/-- A word that holds only what the host wrote. -/
def heldWord (s : State) (block off : Nat) : Nat := Tab.getD s.hif.rw (regAddr block off) 0

/-- The S-kind counters that are registers. -/
def counterRegs : List Nat :=
  [cAckStale, cUnmapped, cNoticeDrop, cResend, cDup, cAbandon, cAuthFail, cRefuse 0, cRefuse 1, cRefuse 2, cRefuse 3,
   cRefuse 4, cKeyFail, cIntakeDrop, cPoliced, cFlush, cLate, cDefer, cRefused, cStale, cReissue, cOrphan, cHandoff] ++
  [cRehome, cCow, cSealLate, cStaleWrite, cCe, cUe, cRetry, cPromote, cDemote, cWriteback, cDamaged, cRebuild, cScoreSat,
   cOutSat, cNonfinite, cAttnEmpty, cRingLate, cRingDup, cRingStale, cSwap, cWLate, cSpill, cWDefer, cRegRefuse] ++
  [cKeyRefuse, cSpdmError, cMismatch, cShadowSkip, cCmCe, cQuarantine, cCkptSkip, cPowerOver, cJournalLost]

/-- Low and high word of a 64-bit value. -/
def lo32 (v : Nat) : Nat := v % 2 ^ 32
def hi32 (v : Nat) : Nat := v / 2 ^ 32 % 2 ^ 32

/-- One bit a member of a list, at the member's place. -/
def maskOf (l : List Nat) : Nat := (l.map (fun i => 2 ^ i)).sum

/-- STW (R396). -/
def stwRead (s : State) (off : Nat) : Nat :=
  match off with
  | 0x00 => s.stw.boot.code * 2 ^ 28 + s.stw.cause * 2 ^ 24 + s.stw.restarts * 2 ^ 16
  | 0x08 => s.stw.charter.counterEvents * 2 + s.stw.charter.statusClear
  | 0x0C => lo32 s.stw.startMs
  | 0x10 => min 255 (reportCount s resIgnored) * 2 ^ 24 + reportCount s resDefaulted * 2 ^ 16 +
      reportCount s resHigh * 2 ^ 8 + reportCount s resLow
  | 0x14 => s.stw.report.length
  | 0x208 => s.stw.charterState
  | 0x304 => s.stw.recovery.code * 2 ^ 28 + s.stw.received.length
  | _ => if 0x110 ≤ off ∧ off < 0x130 then latched s 0 0x110 off else heldWord s 0 off

/-- HIF_PORT's half for one port. -/
def portHalf (p : CxlPort) : Nat := p.width + p.rate * 32 + b2n p.ide * 128

/-- HIF (R375). -/
def hifRead (s : State) (off : Nat) : Nat :=
  if off = 0x10 then portHalf s.hif.x0 + portHalf s.hif.x1 * 2 ^ 16
  else if 0x1000 ≤ off ∧ off < 0x2000 then
    let g := ringOf s ((off - 0x1000) / 0x40)
    match (off - 0x1000) % 0x40 with
    | 0x00 => g.ctrl + b2n g.error
    | 0x04 => lo32 g.sqBase
    | 0x08 => hi32 g.sqBase
    | 0x0C => lo32 g.cqBase
    | 0x10 => hi32 g.cqBase
    | 0x14 => g.sqHead
    | 0x18 => g.cqTail + b2n g.phase * 4096
    | 0x1C => lo32 g.taken
    | _ => 0
  else if 0x2000 ≤ off ∧ off < 0x2200 then
    let g := ringOf s ((off - 0x2000) / 8)
    if off % 8 = 0 then g.sqTail else g.cqHead
  else 0

/-- FAB (R273). -/
def fabRead (s : State) (off : Nat) : Nat :=
  match off with
  | 0x00 => s.stw.charter.resend * 2 ^ 16 + s.stw.charter.vlan
  | 0x08 => s.fab.node
  | 0x10 => maskOf ((List.range 8).filter (fun p => (portOf s p).up)) +
      maskOf ((List.range 8).filter (fun p => (portOf s p).withdrawn)) * 2 ^ 8
  | 0x14 => s.stw.charter.winQuota
  | 0x18 => ((Tab.vals s.fab.windows).filter (fun w => w.state != .closed)).length
  | 0x1C => s.fab.peak * 2 ^ 16 + s.fab.out.length
  | _ =>
    if 0x110 ≤ off ∧ off < 0x150 then latched s 2 0x110 off
    else if 0x210 ≤ off ∧ off < 0x230 then latched s 2 0x210 off
    else heldWord s 2 off

/-- Queues on the fine or the coarse wheel. -/
def onWheel (s : State) (fine : Bool) : Nat :=
  ((Tab.vals s.wei.queues).filter (fun w => match w.pacing with
    | .fine _ => fine
    | .coarse _ => !fine
    | _ => false)).length

/-- WEI (R285). -/
def weiRead (s : State) (off : Nat) : Nat :=
  match off with
  | 0x10 => onWheel s false * 2 ^ 16 + onWheel s true
  | 0x20 => s.wei.result
  | _ =>
    if 0x110 ≤ off ∧ off < 0x130 then latched s 3 0x110 off
    else if 0x210 ≤ off ∧ off < 0x230 then latched s 3 0x210 off
    else heldWord s 3 off

/-- TMU (R65). -/
def tmuRead (s : State) (off : Nat) : Nat :=
  match off with
  | 0x04 => s.tmu.snapNow % 1000000000
  | 0x08 => lo32 (s.tmu.snapNow / 1000000000)
  | 0x0C => s.tmu.snapState * 2 ^ 16 + s.tmu.snapNow / 1000000000 / 2 ^ 32 % 2 ^ 16
  | 0x10 => sqWordRead s tmuStatus + s.tmu.state.code
  | 0x14 => (s.tmu.offset % 2 ^ 32).toNat
  | 0x40 => s.tmu.period
  | 0x44 => b2n s.tmu.gridRun * 2 ^ 31 + s.tmu.epoch / 2 ^ 32 % 2 ^ 16
  | 0x48 => lo32 s.tmu.epoch
  | 0x50 => lo32 (stepNo s)
  | 0x54 => stepNo s / 2 ^ 32 % 2 ^ 16
  | 0x60 => if s.tmu.gridRun then s.tmu.bank * 2 ^ 28 + (tideNow s).length else 0
  | _ => 0

/-- SQS (R164). -/
def sqsRead (s : State) (off : Nat) : Nat :=
  match off with
  | 0x00 => s.stw.charter.spill * 2 ^ 16 + s.stw.charter.cancelPolicy * 4 + s.stw.charter.role
  | 0x10 => s.sqs.seqs.length
  | 0x14 => lo32 s.sqs.budget
  | 0x18 => lo32 s.sqs.commit
  | 0x1C => suspectCount s * 2 ^ 16 + coreCount s
  | 0x20 => lo32 s.sqs.peak
  | _ => if 0x200 ≤ off ∧ off < 0x300 then latched s 5 0x200 off else heldWord s 5 off

/-- SLC (R187). -/
def slcRead (s : State) (off : Nat) : Nat :=
  match off with
  | 0x00 => s.stw.charter.rehomeWait
  | 0x10 => compEpoch s
  | 0x14 => s.slc.maps.length
  | _ => if 0x110 ≤ off ∧ off < 0x130 then latched s 6 0x110 off else heldWord s 6 off

/-- Code of the page size (R139). -/
def pageSizeCode (n : Nat) : Nat := if n = 128 then 0 else if n = 256 then 1 else 2

/-- Extents held as pinned parts of freeboards. -/
def pinnedExtents (s : State) : Nat :=
  (((Tab.vals s.pgm.descs).filter (fun d => d.holder.isSome)).map (·.rawHeld)).sum

/-- PGM (R139). -/
def pgmRead (s : State) (off : Nat) : Nat :=
  match off with
  | 0x00 => pageSizeCode s.stw.charter.pageSize
  | 0x10 => freeGddr s
  | 0x14 => freeT2 s
  | 0x18 => pinnedExtents s
  | 0x1C => lo32 (creditExtents s)
  | 0x20 => s.pgm.descs.length
  | 0x24 => s.pgm.prefixes.length
  | _ => if 0x110 ≤ off ∧ off < 0x130 then latched s 7 0x110 off else heldWord s 7 off

/-- TIR (R228). -/
def tirRead (s : State) (off : Nat) : Nat :=
  match off with
  | 0x00 => s.stw.charter.kvDurable * 16 + s.stw.charter.kvAlloc
  | 0x04 => sqWordRead s tirStatus + b2n s.hif.x0.live * 2 ^ 8 + b2n s.hif.x1.live * 2 ^ 9
  | 0x10 => poolExtents s
  | 0x14 => ((Tab.vals s.pgm.descs).map (fun d => if d.copy.isSome then d.extents else 0)).sum
  | 0x18 => ((Tab.vals s.pgm.descs).map (fun d => d.dirty.length)).sum
  | 0x1C => t2Rate s
  | 0x20 => s.tir.peak
  | _ => if 0x110 ≤ off ∧ off < 0x120 then latched s 8 0x110 off else heldWord s 8 off

/-- Bytes of fragments held for other keepers. -/
def fragBytes (s : State) : Nat := (s.cmp.held.map (fun x => x.bytes.length)).sum

/-- CMP (R252). -/
def cmpRead (s : State) (off : Nat) : Nat :=
  match off with
  | 0x00 => s.stw.charter.fragPool
  | 0x08 => s.cmp.damageLast
  | 0x10 => s.cmp.tables.length
  | 0x14 => s.cmp.tableResult
  | 0x20 => lo32 (wCount s.cmp.coded)
  | 0x24 => hi32 (wCount s.cmp.coded)
  | 0x28 => lo32 (wCount s.cmp.raw)
  | 0x2C => hi32 (wCount s.cmp.raw)
  | 0x30 => wWraps s.cmp.raw * 2 ^ 16 + wWraps s.cmp.coded
  | 0x48 => s.cmp.held.length
  | 0x4C => (s.stw.charter.fragPool * gib - fragBytes s) / 2 ^ 20
  | 0x104 => latched s 9 0x104 off
  | _ => if 0x110 ≤ off ∧ off < 0x1A0 then latched s 9 0x110 off else heldWord s 9 off

/-- State of a spare as CAR_REMAP shows it. -/
def spareCode (s : State) (die phys : Nat) (serves : Option Nat) : Nat :=
  if (coreAt s die phys).state == .quarantined then 2 else b2n serves.isSome

/-- CAR_REMAP of a die (R354). -/
def remapRead (s : State) (c : Nat) : Nat :=
  let d := dieOf s c
  b2n d.s1For.isSome * 2 ^ 31 + d.s1For.getD 0 * 2 ^ 24 + b2n d.s0For.isSome * 2 ^ 23 + d.s0For.getD 0 * 2 ^ 16 +
  spareCode s c 33 d.s1For * 4 + spareCode s c 32 d.s0For

/-- CAR (R86, R110, R354). -/
def carRead (s : State) (off : Nat) : Nat :=
  match off with
  | 0x300 => s.stw.charter.repro
  | 0x410 => min 262144 s.car.stagePeak
  | _ =>
    if 0x500 ≤ off ∧ off < 0x520 then remapRead s ((off - 0x500) / 4)
    else if 0x520 ≤ off ∧ off < 0x540 then maskOf (dieOf s ((off - 0x520) / 4)).out
    else 0

/-- Contexts that are READY. -/
def readyMask (s : State) : Nat := maskOf ((s.mdl.ctxs.filter (fun c => c.2.state == .ready)).map (·.1))

/-- MDL (R206). -/
def mdlRead (s : State) (off : Nat) : Nat :=
  match off with
  | 0x00 => s.stw.charter.weightCache
  | 0x10 => lo32 (readyMask s)
  | 0x14 => hi32 (readyMask s)
  | 0x18 => cdiv (cacheUse s) (2 ^ 20)
  | 0x1C => s.mdl.adapters.length
  | 0x20 => s.mdl.result
  | _ => 0

/-- SEC (R308). -/
def secRead (s : State) (off : Nat) : Nat :=
  match off with
  | 0x08 => b2n s.sec.testMode * 2 ^ 23 + s.sec.revoked * 2 ^ 16 + fld s.sec.running 3 1 * 2 ^ 8 + s.sec.fusedSvn
  | 0x10 => s.sec.keyResult
  | 0x14 => s.sec.upd.code * 2 ^ 28 + s.sec.updCause * 2 ^ 24 + fld s.sec.staged 3 1
  | 0x104 => s.sec.keyState
  | _ =>
    if 0x20 ≤ off ∧ off < 0x30 then fld s.sec.nonce (off - 0x20) 4
    else if 0x200 ≤ off ∧ off < 0x300 then fld s.sec.identity (off - 0x200) 4
    else heldWord s 12 off

/-- A link that makes the module DEGRADED: DEGRADED itself, or DOWN where no module-level fault follows (R349). -/
def linkShown (s : State) (l : Nat) : Bool :=
  match Tab.getD s.hlt.links l .up with
  | .degraded => true
  | .down => decide (16 ≤ l) && decide (l < 24) && !(s.hlt.faults.contains (faultLink l) ||
      s.hlt.faults.contains (faultLink (l / 2 * 2)))
  | _ => false

/-- The four causes of DEGRADED (R349): a core held, a logical core out, a die out of service, a link. -/
def heldCores (s : State) : Bool := (Tab.vals s.hlt.cores).any (·.held)
def outCores (s : State) : Bool := (Tab.vals s.hlt.dies).any (fun d => !d.out.isEmpty)
def diesOut (s : State) : Bool :=
  (Tab.vals s.hlt.dies).any (fun d => d.state == .drained || d.state == .readmitting || d.state == .failed)
def linksOut (s : State) : Bool := (List.range 24).any (linkShown s)

/-- HLT_MODULE_STATE (R349, R354). -/
def moduleState (s : State) : Nat :=
  let n := b2n (heldCores s) * 16 + b2n (outCores s) * 32 + b2n (diesOut s) * 64 + b2n (linksOut s) * 128
  n + (if !s.hlt.faults.isEmpty then 2 else if n ≠ 0 then 1 else 0)

/-- Link states two bits each, from link `lo`. -/
def linkBits (s : State) (lo n : Nat) : Nat :=
  ((List.range n).map (fun i => (Tab.getD s.hlt.links (lo + i) .up).code * 4 ^ i)).sum

/-- HLT (R320, R336, R354). -/
def hltRead (s : State) (off : Nat) : Nat :=
  match off with
  | 0x00 => s.stw.charter.expel
  | 0x08 => moduleState s
  | 0x10 => ((List.range 8).map (fun c => (dieOf s c).state.code * 8 ^ c)).sum
  | 0x14 => linkBits s 0 16
  | 0x18 => linkBits s 16 8
  | 0x20 => lo32 (wCount s.hlt.shadows)
  | 0x24 => hi32 (wCount s.hlt.shadows)
  | 0x28 => wWraps s.hlt.shadows
  | 0x40 => s.hlt.mismatchHead
  | 0x48 => s.hlt.ckptHead
  | 0x4C => s.hlt.ckptTail
  | 0x404 => s.hlt.counterLast
  | 0x408 => s.hlt.tally
  | 0x410 => lo32 (wCount s.hlt.inputEnergy)
  | 0x414 => hi32 (wCount s.hlt.inputEnergy)
  | 0x418 => wWraps s.hlt.inputEnergy
  | 0x600 => s.stw.charter.replay * 2 ^ 17 + s.stw.charter.journalLevel * 2 ^ 16 + s.stw.charter.journalMib
  | 0x608 => s.hlt.jHead
  | 0x60C => s.hlt.jTail
  | _ =>
    if 0x110 ≤ off ∧ off < 0x130 then latched s 13 0x110 off
    else if 0x510 ≤ off ∧ off < 0x590 then latched s 13 0x510 off
    else if 0x620 ≤ off ∧ off < 0x630 then fld s.hlt.div (off - 0x620) 4
    else heldWord s 13 off

/-- The word at a masked offset of a block while the block acts. -/
def liveWord (s : State) (block off : Nat) : Nat :=
  let a := regAddr block off
  if counterRegs.contains a then counter s a
  else if statusWords.contains a && a != tmuStatus && a != tirStatus then sqWordRead s a
  else match block with
    | 0 => stwRead s off
    | 1 => hifRead s off
    | 2 => fabRead s off
    | 3 => weiRead s off
    | 4 => tmuRead s off
    | 5 => sqsRead s off
    | 6 => slcRead s off
    | 7 => pgmRead s off
    | 8 => tirRead s off
    | 9 => cmpRead s off
    | 10 => carRead s off
    | 11 => mdlRead s off
    | 12 => secRead s off
    | 13 => hltRead s off
    | _ => 0

/-- The reset value of a word where it is not zero (R395). -/
def resetWord (block off : Nat) : Nat :=
  if block = 4 ∧ off = 0x40 then 0x61A8
  else if block = 2 ∧ off = 0x08 then 0xFFFFFFFF
  else if block = 1 ∧ 0x1000 ≤ off ∧ off < 0x2000 ∧ off % 0x40 = 0 then 0x06000000
  else if block = 1 ∧ 0x1000 ≤ off ∧ off < 0x2000 ∧ off % 0x40 = 0x18 then 0x1000
  else 0

/-- The registers of STW and SEC and HIF_PORT act from step 2 on, all others in SERVICE (R395). -/
def acts (s : State) (block off : Nat) : Bool :=
  inService s || (stwOn s && (block == 0 || block == 12 || (block == 1 && off == 0x10)))

/-- A register as read. -/
def regWord (s : State) (block off : Nat) : Nat := if acts s block off then liveWord s block off else resetWord block off

/-- The attestation log of the bulk window, from its header on (R404). -/
def logArea (s : State) : List Byte :=
  le 4 s.sec.log.length ++ le 4 (min sMax s.sec.events) ++ zeros 8 ++ fit 48 s.sec.accumulated ++
  (s.sec.log.map (fun e => fit 64 e)).flatten

/-- A word of the bulk table window (R402, R403). -/
def windowWord (s : State) (off : Nat) : Nat :=
  if s.stw.boot == .recovery then unle ((List.range 4).map (fun i => Tab.getD s.stw.buffer (off + i) 0))
  else if off < 0x20000 then
    (if s.tmu.gridRun then fld (((s.tmu.bank0[off / 32]?).map TideEntry.bytes).getD []) (off % 32) 4 else 0)
  else if off < 0x40000 then
    (if s.tmu.gridRun then fld (((s.tmu.bank1[(off - 0x20000) / 32]?).map TideEntry.bytes).getD []) (off % 32) 4 else 0)
  else if off < 0x44040 then fld (logArea s) (off - 0x40000) 4
  else 0

/-- What an aligned 32-bit read of BAR0 returns; reading changes no state (R368). -/
def readWord (s : State) (addr : Nat) : Nat :=
  match blockWord addr, aliasWord addr, windowOff addr with
  | some (b, o), _, _ => regWord s b o
  | none, some (b, o, i), _ => b2n (bitOf (regWord s b o) i)
  | none, none, some o => windowWord s o
  | none, none, none => 0

/-! ## Latches (R371) -/

/-- Latched data: the bytes of a record under its word 0. -/
def setLatch (block base : Nat) (bs : List Byte) (s : State) : State :=
  { s with hif := { s.hif with latch := Tab.put (regAddr block base) bs s.hif.latch } }

/-- The record of a page descriptor; a FREE one holds its generation and no data (R116). -/
def descRecord (s : State) (i : Nat) : List Byte :=
  match descAt s i with
  | some d => d.record
  | none => zeros 10 ++ le 1 (3 * 8) ++ zeros 3 ++ le 2 (Tab.getD s.pgm.gens i 0) ++ zeros 16

/-- STW_REPORT_IDX.LATCH. -/
def latchReport (v : Nat) (s : State) : State := setLatch 0 0x110 (fit 32 (s.stw.report.getD (v % 4096) [])) s

/-- FAB_PORT_IDX.LATCH. -/
def latchPort (v : Nat) (s : State) : State := setLatch 2 0x110 (portOf s (v % 8)).bytes s

/-- FAB_WIN_IDX.LATCH. -/
def latchWindow (v : Nat) (s : State) : State := setLatch 2 0x210 (windowOf s (v % 2 ^ 20)).bytes s

/-- WEI_Q_IDX.LATCH; a number that names no queue has a record of zeros. -/
def latchQueue (v : Nat) (s : State) : State :=
  let q := v % 4096
  setLatch 3 0x110 (if queueAssigned q then (queueOf s q).bytes q (queueClass s q) else zeros 32) s

/-- WEI_POL_IDX.LATCH. -/
def latchPolicer (v : Nat) (s : State) : State :=
  let d := v % 256
  setLatch 3 0x210 (if d = 0 then zeros 32 else (Tab.getD s.wei.policers d {}).bytes d s.tmu.now) s

/-- SQS_INSPECT_IDX.LATCH waits for the next boundary's end. -/
def latchEntry (v : Nat) (s : State) : State := { s with sqs := { s.sqs with inspect := some (v % 2 ^ 14) } }

/-- SLC_INSPECT_IDX.LATCH. -/
def latchOwner (v : Nat) (s : State) : State :=
  let k := v % 2 ^ 14
  setLatch 6 0x110 (((recAt s k).map (fun r => r.bytes (histOf s k).length)).getD (zeros 32)) s

/-- PGM_INSPECT_IDX.LATCH. -/
def latchDesc (v : Nat) (s : State) : State := setLatch 7 0x110 (descRecord s (v % 2 ^ 25)) s

/-- TIR_SEG_IDX.LATCH. -/
def latchSegment (v : Nat) (s : State) : State := setLatch 8 0x110 (s.tir.segments.getD (v % 64) noSegment).bytes s

/-- CMP_TABLE_IDX.LATCH. -/
def latchTable (v : Nat) (s : State) : State :=
  let e := v % 256
  let pages := ((Tab.vals s.pgm.descs).filter (fun d => d.tableId == e)).length
  match Tab.look e s.cmp.tables with
  | some t => setLatch 9 0x110 (fit 144 t.record) (setLatch 9 0x104 (le 4 (2 ^ 31 + pages)) s)
  | none => setLatch 9 0x110 (zeros 144) (setLatch 9 0x104 (zeros 4) s)

/-- SEC_KEY_IDX.LATCH; a memory key stands for dike 0 at all times. -/
def latchKey (v : Nat) (s : State) : State :=
  let d := v % 256
  let w := wireOf s d
  let m := d == 0 || Tab.has d s.sec.memory
  { s with sec := { s.sec with
      keyState := b2n m + b2n w.v0.isSome * 2 + b2n w.v1.isSome * 4 + (w.active.getD 0) * 8 } }

/-- A core record of 32 bytes (R354); an index above 33 names no core. -/
def coreRecord (s : State) (die phys : Nat) : List Byte :=
  let c := coreAt s die phys
  if 33 < phys then zeros 32
  else le 1 die ++ le 1 phys ++ le 1 (c.state.code + 8 * b2n c.held) ++ le 1 ((servedBy s die phys).getD 0xFF) ++
    le 2 c.score ++ zeros 2 ++ le 4 (sRead c.faults) ++ le 4 (sRead c.unresolved) ++
    ((List.range 4).map (fun i => le 4 (sRead (c.bands.getD i 0)))).flatten

/-- HLT_CORE_IDX.LATCH. -/
def latchCore (v : Nat) (s : State) : State := setLatch 13 0x110 (coreRecord s (bitsOf v 10 8) (bitsOf v 5 0)) s

/-- HLT_ACCT_IDX.LATCH. -/
def latchAcct (v : Nat) (s : State) : State := setLatch 13 0x510 (accountRecord s (v % 256)) s

/-! ## Writes -/

/-- RW bits of a word outside the ring registers. -/
def rwMask (block off : Nat) : Nat :=
  match block, off with
  | 0, 0x100 => 0xFFF
  | 0, 0x200 => 0xFFFFFFC0
  | 0, 0x204 => 0xFFFF
  | 0, 0x300 => 0xFFFFFF
  | 2, 0x100 => 0x7
  | 2, 0x200 => 0xFFFFF
  | 3, 0x100 => 0xFFF
  | 3, 0x200 => 0xFF
  | 5, 0x100 => 0x3FFF
  | 6, 0x100 => 0x3FFF
  | 7, 0x100 => 0x1FFFFFF
  | 8, 0x100 => 0x3F
  | 9, 0x100 => 0xFF
  | 12, 0x100 => 0xFF
  | 13, 0x100 => 0x73F
  | 13, 0x500 => 0xFF
  | 13, 0x4C => 0x3FFFFFF
  | 13, 0x608 => 0x3FFFFFF
  | 13, 0x60C => 0x3FFFFFF
  | _, _ => 0

/-- RW bits of a ring register (R375). -/
def ringMask (off : Nat) : Nat :=
  if 0x1000 ≤ off ∧ off < 0x2000 then
    match (off - 0x1000) % 0x40 with
    | 0x00 => 0xFFFF0000
    | 0x04 => 0xFFFFFFC0
    | 0x08 => 0xFFFFFFFF
    | 0x0C => 0xFFFFFFC0
    | 0x10 => 0xFFFFFFFF
    | _ => 0
  else if 0x2000 ≤ off ∧ off < 0x2200 then (if off % 8 = 0 then 0x1FFF else 0xFFF)
  else 0

/-- RW bits of a word. -/
def writable (block off : Nat) : Nat := if block = 1 then ringMask off else rwMask block off

/-- WA bits of a word. -/
def actions (block off : Nat) : Nat :=
  match block, off with
  | 0, 0x208 => 0x80000000
  | 0, 0x300 => 0xE0000000
  | 4, 0x00 => 1
  | 0, 0x100 | 2, 0x100 | 2, 0x200 | 3, 0x100 | 3, 0x200 | 5, 0x100 | 6, 0x100 | 7, 0x100 | 8, 0x100 => 0x80000000
  | 9, 0x100 | 12, 0x100 | 13, 0x100 | 13, 0x500 => 0x80000000
  | _, _ => 0

/-- What a LATCH of an index word copies. -/
def latchFor (block off v : Nat) (s : State) : State :=
  match block, off with
  | 0, 0x100 => latchReport v s
  | 2, 0x100 => latchPort v s
  | 2, 0x200 => latchWindow v s
  | 3, 0x100 => latchQueue v s
  | 3, 0x200 => latchPolicer v s
  | 5, 0x100 => latchEntry v s
  | 6, 0x100 => latchOwner v s
  | 7, 0x100 => latchDesc v s
  | 8, 0x100 => latchSegment v s
  | 9, 0x100 => latchTable v s
  | 12, 0x100 => latchKey v s
  | 13, 0x100 => latchCore v s
  | 13, 0x500 => latchAcct v s
  | _, _ => s

/-- A word keeps the RW bits written. -/
def keepWord (block off v : Nat) (s : State) : State :=
  { s with hif := { s.hif with rw := Tab.put (regAddr block off) (v &&& rwMask block off) s.hif.rw } }

/-- A write to an index word: its RW bits are kept, and with LATCH the record is copied (R371). -/
def writeIndex (block off v : Nat) (s : State) : State :=
  let s := keepWord block off v s
  if bitOf v 31 then latchFor block off v s else s

/-- A write to STW_RECOVERY_CTRL: LENGTH is kept; then PUSH, FINISH, ABORT in this order (DESIGN CHOICE, log 77). A FINISH written
this way leaves open what the signature check finds. -/
def writeRecovery (v : Nat) (s : State) : State :=
  let s := keepWord 0 0x300 v s
  if s.stw.boot == .recovery then
    let s := if bitOf v 31 then recoveryAppend (v % 2 ^ 24) s else s
    let s := if bitOf v 30 then (let k := freeBelow 2 s; recoveryVerify (k.1 == 0) k.2) else s
    if bitOf v 29 && s.stw.boot == .recovery then recoveryDiscard s else s
  else s

/-- The base of a ring is changed only while ENABLE is 0 (R362). -/
def writeBase (r k v : Nat) (s : State) : State :=
  let g := ringOf s r
  if g.enabled then s
  else
    setRing r (match k with
      | 0x04 => { g with sqBase := hi32 g.sqBase * 2 ^ 32 + v / 64 * 64 }
      | 0x08 => { g with sqBase := v * 2 ^ 32 + lo32 g.sqBase }
      | 0x0C => { g with cqBase := hi32 g.cqBase * 2 ^ 32 + v / 64 * 64 }
      | _ => { g with cqBase := v * 2 ^ 32 + lo32 g.cqBase }) s

/-- A write to a ring register. -/
def writeRing (off v : Nat) (s : State) : State :=
  if 0x1000 ≤ off ∧ off < 0x2000 then
    let r := (off - 0x1000) / 0x40
    match (off - 0x1000) % 0x40 with
    | 0x00 => ringControl r v s
    | 0x04 => writeBase r 0x04 v s
    | 0x08 => writeBase r 0x08 v s
    | 0x0C => writeBase r 0x0C v s
    | 0x10 => writeBase r 0x10 v s
    | _ => s
  else if 0x2000 ≤ off ∧ off < 0x2200 then
    let r := (off - 0x2000) / 8
    if off % 8 = 0 then doorbell r v s else consumed r v s
  else s

/-- An acknowledgement of an SQ word (R372): nothing in LEVEL mode (R373). -/
def acknowledge (a v : Nat) (s : State) : State :=
  if seqMode s then
    let w := statusWord s a
    if v / 2 ^ 24 % 256 = w.evseq then setStatus a (w.acknowledge v) s else bump cAckStale 1 s
  else s

/-- Pointers of HLT that the host writes: the journal's by mode (R328, R333), the checkpoint ring's (R352). -/
def writePointer (off v : Nat) (s : State) : State :=
  match off with
  | 0x4C => { s with hlt := { s.hlt with ckptTail := bitsOf v 25 0 } }
  | 0x608 => if s.stw.charter.replay = 1 then supplyJournal (bitsOf v 25 0) s else s
  | 0x60C => if s.stw.charter.replay = 0 then freeJournal (bitsOf v 25 0) s else s
  | _ => s

/-- A full write to a word, by the access codes of its fields (R10): what has no RW, WA or SQ bit ignores it. -/
def writeWord (block off v : Nat) (s : State) : State :=
  let a := regAddr block off
  if !acts s block off then s
  else if statusWords.contains a then acknowledge a v s
  else
    match block, off with
    | 0, 0x200 => keepWord 0 0x200 v s
    | 0, 0x204 => keepWord 0 0x204 v s
    | 0, 0x208 => if bitOf v 31 then doCharterWrite (charterSrc s) s else s
    | 0, 0x300 => writeRecovery v s
    | 1, _ => writeRing off v s
    | 4, 0x00 => if bitOf v 0 then snapshot s else s
    | 13, 0x4C => writePointer 0x4C v s
    | 13, 0x608 => writePointer 0x608 v s
    | 13, 0x60C => writePointer 0x60C v s
    | _, _ => if rwMask block off = 0 then s else writeIndex block off v s

/-- A write through a bit alias (R370): an RW bit is set or cleared, a WA bit with 1 acts, all else is ignored. -/
def writeBit (block off bit v : Nat) (s : State) : State :=
  let a := regAddr block off
  if !acts s block off || statusWords.contains a then s
  else
    let kept := regWord s block off &&& writable block off
    if bitOf (actions block off) bit then (if v % 2 = 1 then writeWord block off (kept ||| 2 ^ bit) s else s)
    else if bitOf (writable block off) bit then
      writeWord block off (kept - (kept &&& 2 ^ bit) + v % 2 * 2 ^ bit) s
    else s

/-- An access to an unused range (R368). -/
def unmapped (s : State) : State := raise .unmappedAccess (bump cUnmapped 1 s)

/-- A write to the recovery buffer through the bulk window; outside RECOVERY the window is read only (R402). -/
def writeWindow (off v : Nat) (s : State) : State :=
  if s.stw.boot == .recovery then { s with stw := { s.stw with buffer := Tab.putRun off (le 4 v) s.stw.buffer } } else s

/-- An aligned 32-bit write to BAR0. -/
def busWrite (addr v : Nat) (s : State) : State :=
  match blockWord addr, aliasWord addr, windowOff addr with
  | some (b, o), _, _ => writeWord b o v s
  | none, some (b, o, i), _ => writeBit b o i v s
  | none, none, some o => writeWindow o v s
  | none, none, none => s

/-- The words that an access at an address touches (R368). -/
def touched (addr : Nat) : List Nat := if addr % 4 = 0 then [addr] else [addr / 4 * 4, addr / 4 * 4 + 4]

/-- REGISTER_WRITE (R10, R368): only an aligned write with all four byte enables acts; one that touches an unused range is
counted. -/
def execRegisterWrite (addr : Nat) (value : Word) (byteEnables : Nat) (s : State) : Host.Outcome State Fault Refusal :=
  .next (if !stwOn s then s
    else if (touched addr).any unusedRange then unmapped s
    else if addr % 4 = 0 ∧ byteEnables % 16 = 15 then busWrite addr value.toNat s
    else s)

/-- ALIAS_BIT_WRITE (R370). -/
def execAliasBitWrite (addr : Nat) (value : Word) (s : State) : Host.Outcome State Fault Refusal :=
  .next (match aliasWord addr with
    | some (b, o, i) => if addr % 4 = 0 then writeBit b o i value.toNat s else s
    | none => s)

/-- UNMAPPED_ACCESS (R368). -/
def execUnmappedAccess (addr : Nat) (s : State) : Host.Outcome State Fault Refusal :=
  .next (if stwOn s && unusedRange addr then unmapped s else s)

/-- STATUS_ACK (R372): a write to an SQ word, at its own address or at one that decodes to it. -/
def execStatusAck (addr : Nat) (value : Word) (s : State) : Host.Outcome State Fault Refusal :=
  .next (match blockWord addr with
    | some (b, o) =>
      if acts s b o && statusWords.contains (regAddr b o) && addr % 4 == 0 then acknowledge (regAddr b o) value.toNat s else s
    | none => s)

/-- A write to an index word, where the block acts. -/
def indexWrite (block off : Nat) (value : Word) (s : State) : Host.Outcome State Fault Refusal :=
  .next (if acts s block off then writeIndex block off value.toNat s else s)

/-- PGM_INSPECT_LATCH (R139). -/
def execPgmInspectLatch (value : Word) (s : State) : Host.Outcome State Fault Refusal := indexWrite 7 0x100 value s

/-- SQS_INSPECT_LATCH (R164). -/
def execSqsInspectLatch (value : Word) (s : State) : Host.Outcome State Fault Refusal := indexWrite 5 0x100 value s

/-- SLC_INSPECT_LATCH (R187). -/
def execSlcInspectLatch (value : Word) (s : State) : Host.Outcome State Fault Refusal := indexWrite 6 0x100 value s

/-- TIR_SEG_LATCH (R228). -/
def execTirSegLatch (value : Word) (s : State) : Host.Outcome State Fault Refusal := indexWrite 8 0x100 value s

/-- CMP_TABLE_LATCH (R252). -/
def execCmpTableLatch (value : Word) (s : State) : Host.Outcome State Fault Refusal := indexWrite 9 0x100 value s

/-- FAB_PORT_LATCH (R273). -/
def execFabPortLatch (value : Word) (s : State) : Host.Outcome State Fault Refusal := indexWrite 2 0x100 value s

/-- FAB_WIN_LATCH (R273). -/
def execFabWinLatch (value : Word) (s : State) : Host.Outcome State Fault Refusal := indexWrite 2 0x200 value s

/-- WEI_Q_LATCH (R285). -/
def execWeiQLatch (value : Word) (s : State) : Host.Outcome State Fault Refusal := indexWrite 3 0x100 value s

/-- WEI_POL_LATCH (R285): the bucket's tokens are those of the instant. -/
def execWeiPolLatch (at_ : Nat) (value : Word) (s : State) : Host.Outcome State Fault Refusal :=
  indexWrite 3 0x200 value (if inService s then setNow at_ s else s)

/-- SEC_KEY_LATCH (R308). -/
def execSecKeyLatch (value : Word) (s : State) : Host.Outcome State Fault Refusal := indexWrite 12 0x100 value s

/-- HLT_CORE_LATCH (R354). -/
def execHltCoreLatch (value : Word) (s : State) : Host.Outcome State Fault Refusal := indexWrite 13 0x100 value s

/-- HLT_ACCT_LATCH (R320). -/
def execHltAcctLatch (value : Word) (s : State) : Host.Outcome State Fault Refusal := indexWrite 13 0x500 value s

/-- STW_REPORT_LATCH (R396). -/
def execStwReportLatch (value : Word) (s : State) : Host.Outcome State Fault Refusal := indexWrite 0 0x100 value s

end Sys2Proof.Machine
end

