-- ==== Sys2Proof/Machine/Dispatch.lean ====
section
/-! DEFINITION. The effect of every command, one arm a command. -/

namespace Sys2Proof.Machine

open Sys2Proof

/-- The effect of command `i` on everything but the queue. -/
def exec (i : Instr) (s : State) : Host.Outcome State Fault Refusal :=
  match i with
  | .sync at_ gm offset => Sys2Proof.Machine.execSync at_ gm offset s
  | .announce a => Sys2Proof.Machine.execAnnounce a s
  | .syncAbsent at_ => Sys2Proof.Machine.execSyncAbsent at_ s
  | .holdoverExpired at_ => Sys2Proof.Machine.execHoldoverExpired at_ s
  | .snap => Sys2Proof.Machine.execSnap s
  | .stepBoundary workNs => Sys2Proof.Machine.execStepBoundary workNs s
  | .minuteBoundary => Sys2Proof.Machine.execMinuteBoundary s
  | .tallyWriteDeadline => Sys2Proof.Machine.execTallyWriteDeadline s
  | .fineTick => Sys2Proof.Machine.execFineTick s
  | .coarseTick => Sys2Proof.Machine.execCoarseTick s
  | .pacerRelease queue => Sys2Proof.Machine.execPacerRelease queue s
  | .slotOpen slot => Sys2Proof.Machine.execSlotOpen slot s
  | .prefetchIssue slot => Sys2Proof.Machine.execPrefetchIssue slot s
  | .prefetchComplete slot => Sys2Proof.Machine.execPrefetchComplete slot s
  | .prefetchDeadline slot => Sys2Proof.Machine.execPrefetchDeadline slot s
  | .slackExhausted slot remaining => Sys2Proof.Machine.execSlackExhausted slot remaining s
  | .hiddenState offsetNs h => Sys2Proof.Machine.execHiddenState offsetNs h s
  | .attentionOutput h => Sys2Proof.Machine.execAttentionOutput h s
  | .itemComplete item u => Sys2Proof.Machine.execItemComplete item u s
  | .itemOverrun die phys => Sys2Proof.Machine.execItemOverrun die phys s
  | .shadowComplete item prim shadow sensors => Sys2Proof.Machine.execShadowComplete item prim shadow sensors s
  | .refereeComplete mismatch result => Sys2Proof.Machine.execRefereeComplete mismatch result s
  | .sealComplete desc => Sys2Proof.Machine.execSealComplete desc s
  | .contextFillComplete context => Sys2Proof.Machine.execContextFillComplete context s
  | .promotionComplete desc => Sys2Proof.Machine.execPromotionComplete desc s
  | .writebackExtent desc extent => Sys2Proof.Machine.execWritebackExtent desc extent s
  | .request r => Sys2Proof.Machine.execRequest r s
  | .admitQuery m => Sys2Proof.Machine.execAdmitQuery m s
  | .verdict m => Sys2Proof.Machine.execVerdict m s
  | .cancel c => Sys2Proof.Machine.execCancel c s
  | .pause c => Sys2Proof.Machine.execPause c s
  | .grant m => Sys2Proof.Machine.execGrant m s
  | .grantAck m => Sys2Proof.Machine.execGrantAck m s
  | .statePush m => Sys2Proof.Machine.execStatePush m s
  | .release m => Sys2Proof.Machine.execRelease m s
  | .pulse m => Sys2Proof.Machine.execPulse m s
  | .tokenNote m => Sys2Proof.Machine.execTokenNote m s
  | .noteAck m => Sys2Proof.Machine.execNoteAck m s
  | .reject m => Sys2Proof.Machine.execReject m s
  | .recall m => Sys2Proof.Machine.execRecall m s
  | .historyQuery m => Sys2Proof.Machine.execHistoryQuery m s
  | .reissueAckTimeout slot => Sys2Proof.Machine.execReissueAckTimeout slot s
  | .rehomingTimeout slot => Sys2Proof.Machine.execRehomingTimeout slot s
  | .rehomeWaitExpired slot => Sys2Proof.Machine.execRehomeWaitExpired slot s
  | .ringBlock m => Sys2Proof.Machine.execRingBlock m s
  | .probe m => Sys2Proof.Machine.execProbe m s
  | .foldRecord m => Sys2Proof.Machine.execFoldRecord m s
  | .ringSilenceTimeout slot member => Sys2Proof.Machine.execRingSilenceTimeout slot member s
  | .fragmentPut m => Sys2Proof.Machine.execFragmentPut m s
  | .fragmentAck m => Sys2Proof.Machine.execFragmentAck m s
  | .fragmentGet m => Sys2Proof.Machine.execFragmentGet m s
  | .fragmentData m => Sys2Proof.Machine.execFragmentData m s
  | .fragmentFree m => Sys2Proof.Machine.execFragmentFree m s
  | .fragmentLost m => Sys2Proof.Machine.execFragmentLost m s
  | .fragmentPutTimeout desc frag => Sys2Proof.Machine.execFragmentPutTimeout desc frag s
  | .rebuildTimeout desc => Sys2Proof.Machine.execRebuildTimeout desc s
  | .nodorSend at_ p => Sys2Proof.Machine.execNodorSend at_ p s
  | .nodorWrite at_ p => Sys2Proof.Machine.execNodorWrite at_ p s
  | .nodorRead at_ p => Sys2Proof.Machine.execNodorRead at_ p s
  | .nodorReadData at_ p => Sys2Proof.Machine.execNodorReadData at_ p s
  | .nodorAtomic at_ p => Sys2Proof.Machine.execNodorAtomic at_ p s
  | .nodorAtomicData at_ p => Sys2Proof.Machine.execNodorAtomicData at_ p s
  | .nodorAck at_ p => Sys2Proof.Machine.execNodorAck at_ p s
  | .nodorNack at_ p => Sys2Proof.Machine.execNodorNack at_ p s
  | .partialAckTimer source msgSeq => Sys2Proof.Machine.execPartialAckTimer source msgSeq s
  | .resendTimeout at_ dest msgSeq => Sys2Proof.Machine.execResendTimeout at_ dest msgSeq s
  | .messageAbandonTimer dest msgSeq => Sys2Proof.Machine.execMessageAbandonTimer dest msgSeq s
  | .transmitOpportunity at_ port => Sys2Proof.Machine.execTransmitOpportunity at_ port s
  | .ethernetLinkChange port up => Sys2Proof.Machine.execEthernetLinkChange port up s
  | .revocationComplete window => Sys2Proof.Machine.execRevocationComplete window s
  | .reopenDelayExpired at_ window => Sys2Proof.Machine.execReopenDelayExpired at_ window s
  | .sqDoorbell at_ ring tail placed => Sys2Proof.Machine.execSqDoorbell at_ ring tail placed s
  | .cqHeadWrite ring head => Sys2Proof.Machine.execCqHeadWrite ring head s
  | .ringCtrlWrite ring value => Sys2Proof.Machine.execRingCtrlWrite ring value s
  | .lease h o => Sys2Proof.Machine.execLease h o s
  | .compose h => Sys2Proof.Machine.execCompose h s
  | .installKey h opened => Sys2Proof.Machine.execInstallKey h opened s
  | .registerContext h => Sys2Proof.Machine.execRegisterContext h s
  | .retireContext h context => Sys2Proof.Machine.execRetireContext h context s
  | .registerAdapter h => Sys2Proof.Machine.execRegisterAdapter h s
  | .withdrawAdapter h context => Sys2Proof.Machine.execWithdrawAdapter h context s
  | .installTable h entry currentStep => Sys2Proof.Machine.execInstallTable h entry currentStep s
  | .buildTable h layout source length => Sys2Proof.Machine.execBuildTable h layout source length s
  | .buildTableComplete => Sys2Proof.Machine.execBuildTableComplete s
  | .allocObject h extents alloc pin durable => Sys2Proof.Machine.execAllocObject h extents alloc pin durable s
  | .freeObject h index gen => Sys2Proof.Machine.execFreeObject h index gen s
  | .openWindow at_ h o => Sys2Proof.Machine.execOpenWindow at_ h o s
  | .reopenWindow at_ h window o => Sys2Proof.Machine.execReopenWindow at_ h window o s
  | .revokeWindow at_ h window => Sys2Proof.Machine.execRevokeWindow at_ h window s
  | .setQueue at_ h queue enable quantum rate => Sys2Proof.Machine.execSetQueue at_ h queue enable quantum rate s
  | .setPolicer at_ h dike enable rate burst => Sys2Proof.Machine.execSetPolicer at_ h dike enable rate burst s
  | .write at_ h o => Sys2Proof.Machine.execWrite at_ h o s
  | .read at_ h o => Sys2Proof.Machine.execRead at_ h o s
  | .atomic at_ h o => Sys2Proof.Machine.execAtomic at_ h o s
  | .stageImage at_ h => Sys2Proof.Machine.execStageImage at_ h s
  | .imageVerifyComplete sigOk => Sys2Proof.Machine.execImageVerifyComplete sigOk s
  | .switchImage h => Sys2Proof.Machine.execSwitchImage h s
  | .firmwareSwitchComplete => Sys2Proof.Machine.execFirmwareSwitchComplete s
  | .flashWriteComplete ok => Sys2Proof.Machine.execFlashWriteComplete ok s
  | .stagedImageTimeout => Sys2Proof.Machine.execStagedImageTimeout s
  | .commitSvn h => Sys2Proof.Machine.execCommitSvn h s
  | .drainDie h die force => Sys2Proof.Machine.execDrainDie h die force s
  | .readmitDie h die => Sys2Proof.Machine.execReadmitDie h die s
  | .selfCheckComplete die failed => Sys2Proof.Machine.execSelfCheckComplete die failed s
  | .rehome h requestId => Sys2Proof.Machine.execRehome h requestId s
  | .inHeadWrite offsetNs channel head placed => Sys2Proof.Machine.execInHeadWrite offsetNs channel head placed s
  | .outTailWrite channel tail => Sys2Proof.Machine.execOutTailWrite channel tail s
  | .statusAck addr value => Sys2Proof.Machine.execStatusAck addr value s
  | .aliasBitWrite addr value => Sys2Proof.Machine.execAliasBitWrite addr value s
  | .unmappedAccess addr => Sys2Proof.Machine.execUnmappedAccess addr s
  | .registerWrite addr value byteEnables => Sys2Proof.Machine.execRegisterWrite addr value byteEnables s
  | .pgmInspectLatch value => Sys2Proof.Machine.execPgmInspectLatch value s
  | .sqsInspectLatch value => Sys2Proof.Machine.execSqsInspectLatch value s
  | .slcInspectLatch value => Sys2Proof.Machine.execSlcInspectLatch value s
  | .tirSegLatch value => Sys2Proof.Machine.execTirSegLatch value s
  | .cmpTableLatch value => Sys2Proof.Machine.execCmpTableLatch value s
  | .fabPortLatch value => Sys2Proof.Machine.execFabPortLatch value s
  | .fabWinLatch value => Sys2Proof.Machine.execFabWinLatch value s
  | .weiQLatch value => Sys2Proof.Machine.execWeiQLatch value s
  | .weiPolLatch at_ value => Sys2Proof.Machine.execWeiPolLatch at_ value s
  | .secKeyLatch value => Sys2Proof.Machine.execSecKeyLatch value s
  | .hltCoreLatch value => Sys2Proof.Machine.execHltCoreLatch value s
  | .hltAcctLatch value => Sys2Proof.Machine.execHltAcctLatch value s
  | .stwReportLatch value => Sys2Proof.Machine.execStwReportLatch value s
  | .journalTailWrite value => Sys2Proof.Machine.execJournalTailWrite value s
  | .journalHeadWrite value placed => Sys2Proof.Machine.execJournalHeadWrite value placed s
  | .ckptTailWrite value => Sys2Proof.Machine.execCkptTailWrite value s
  | .replayStepComplete => Sys2Proof.Machine.execReplayStepComplete s
  | .charterWrite placed => Sys2Proof.Machine.execCharterWrite placed s
  | .charterWriteComplete ok => Sys2Proof.Machine.execCharterWriteComplete ok s
  | .recoveryPush length chunk => Sys2Proof.Machine.execRecoveryPush length chunk s
  | .recoveryFinish sigOk => Sys2Proof.Machine.execRecoveryFinish sigOk s
  | .recoveryAbort => Sys2Proof.Machine.execRecoveryAbort s
  | .pwrGoodRise => Sys2Proof.Machine.execPwrGoodRise s
  | .powerStepInterval => Sys2Proof.Machine.execPowerStepInterval s
  | .pwrGoodFall at_ lowUs => Sys2Proof.Machine.execPwrGoodFall at_ lowUs s
  | .brownWarnTimeout => Sys2Proof.Machine.execBrownWarnTimeout s
  | .inputLow at_ volts10mV bank => Sys2Proof.Machine.execInputLow at_ volts10mV bank s
  | .inputRestored at_ volts10mV bank => Sys2Proof.Machine.execInputRestored at_ volts10mV bank s
  | .overvoltage at_ volts10mV => Sys2Proof.Machine.execOvervoltage at_ volts10mV s
  | .bankReserveReached at_ => Sys2Proof.Machine.execBankReserveReached at_ s
  | .thermalHigh at_ die => Sys2Proof.Machine.execThermalHigh at_ die s
  | .thermalTrip at_ die => Sys2Proof.Machine.execThermalTrip at_ die s
  | .powerOver at_ watts => Sys2Proof.Machine.execPowerOver at_ watts s
  | .perstAssert port => Sys2Proof.Machine.execPerstAssert port s
  | .cxlLinkChange port rate width => Sys2Proof.Machine.execCxlLinkChange port rate width s
  | .ideIntegrityFailure port => Sys2Proof.Machine.execIdeIntegrityFailure port s
  | .d2dLinkFailure link down => Sys2Proof.Machine.execD2dLinkFailure link down s
  | .gddr7Uncorrectable w => Sys2Proof.Machine.execGddr7Uncorrectable w s
  | .gddr7Corrected => Sys2Proof.Machine.execGddr7Corrected s
  | .t2LineTimeout segment failedAgain w => Sys2Proof.Machine.execT2LineTimeout segment failedAgain w s
  | .coreMemoryCe die phys => Sys2Proof.Machine.execCoreMemoryCe die phys s
  | .coreMemoryUe die phys => Sys2Proof.Machine.execCoreMemoryUe die phys s
  | .hourTick failed => Sys2Proof.Machine.execHourTick failed s
  | .bootRomStart o => Sys2Proof.Machine.execBootRomStart o s
  | .imageStartTimeout => Sys2Proof.Machine.execImageStartTimeout s
  | .stewardStart links failed => Sys2Proof.Machine.execStewardStart links failed s
  | .serviceReached ms portsUp => Sys2Proof.Machine.execServiceReached ms portsUp s
  | .getVersion t => Sys2Proof.Machine.execGetVersion t s
  | .getCapabilities t => Sys2Proof.Machine.execGetCapabilities t s
  | .negotiateAlgorithms t version base meas asym => Sys2Proof.Machine.execNegotiateAlgorithms t version base meas asym s
  | .getDigests t => Sys2Proof.Machine.execGetDigests t s
  | .getCertificate t slot offset length => Sys2Proof.Machine.execGetCertificate t slot offset length s
  | .challenge t slot nonce => Sys2Proof.Machine.execChallenge t slot nonce s
  | .getMeasurements t index signed nonce => Sys2Proof.Machine.execGetMeasurements t index signed nonce s
  | .spdmUnsupportedRequest t code => Sys2Proof.Machine.execSpdmUnsupportedRequest t code s
  | .keyProg port streamConfigured blob opened => Sys2Proof.Machine.execKeyProg port streamConfigured blob opened s
  | .getSensors v => Sys2Proof.Machine.execGetSensors v s
  | .getIdentity => Sys2Proof.Machine.execGetIdentity s
  | .getPowerLog => Sys2Proof.Machine.execGetPowerLog s
  | .tallySetWritten => Sys2Proof.Machine.execTallySetWritten s
  | .imageSwapComplete cluster => Sys2Proof.Machine.execImageSwapComplete cluster s
  | .laneRepair link => Sys2Proof.Machine.execLaneRepair link s
  | .inputReconnect at_ => Sys2Proof.Machine.execInputReconnect at_ s
  | .dynamicAddressAssignment address => Sys2Proof.Machine.execDynamicAddressAssignment address s
  | .thermalExcursionEnd die => Sys2Proof.Machine.execThermalExcursionEnd die s

end Sys2Proof.Machine
end

