-- ==== Sys2Proof/Safety.lean ====
section
/-! DEFINITION. What counts as a safe outcome of a step, and what every command keeps of the block's state. -/

namespace Sys2Proof.Safety

open Sys2Proof.Machine

/-- An outcome that lets the run go on. -/
def goesOn (o : Host.Outcome State Fault Refusal) : Prop := ∃ t, o = .next t

/-- Every S-kind counter that is a register holds at most one above all ones, the mark of a saturation already raised
(R317). -/
def countersBounded (s : State) : Prop := ∀ e ∈ s.counters, e.2 ≤ 0x100000000

/-- The invariant of the block's states: memory in its canonical form, S-kind counters within their widths (R317), at most
256 entries in the attestation log (R302) and in the power log (R414), RESTARTS within its 8 bits (R396). -/
structure Inv (s : State) : Prop where
  mem : Memory.wf s.mem = true
  counters : countersBounded s
  log : s.sec.log.length ≤ 256
  powerLog : s.sup.log.length ≤ 256
  restarts : s.stw.restarts ≤ 255

/-- What every command keeps from `s` to `t`: the queue of commands, the identity fused at manufacture (R288, R289), test
mode and revocation fuses (R301, R304), the fused SVN but for rising (R306), the counter of free values but for rising, and
each clause of the invariant. -/
structure Kept (s t : State) : Prop where
  pending : t.pending = s.pending
  identity : t.sec.identity = s.sec.identity
  testMode : t.sec.testMode = s.sec.testMode
  revoked : t.sec.revoked = s.sec.revoked
  fused : s.sec.fusedSvn ≤ t.sec.fusedSvn
  free : s.freeCtr ≤ t.freeCtr
  mem : Memory.wf s.mem = true → Memory.wf t.mem = true
  counters : countersBounded s → countersBounded t
  log : s.sec.log.length ≤ 256 → t.sec.log.length ≤ 256
  powerLog : s.sup.log.length ≤ 256 → t.sup.log.length ≤ 256
  restarts : s.stw.restarts ≤ 255 → t.stw.restarts ≤ 255

/-- The parts of the state: one for each block, the status words, the S-kind counters, memory, the counter of free values. -/
inductive Part where
  | tmu | sqs | slc | pgm | tir | cmp | car | mdl | fab | wei | hif | sec | hlt | stw | sup | status | counters | mem | free
  deriving DecidableEq, Repr

/-- Two states agree on a part. -/
def Part.same (s t : State) : Part → Prop
  | .tmu => t.tmu = s.tmu
  | .sqs => t.sqs = s.sqs
  | .slc => t.slc = s.slc
  | .pgm => t.pgm = s.pgm
  | .tir => t.tir = s.tir
  | .cmp => t.cmp = s.cmp
  | .car => t.car = s.car
  | .mdl => t.mdl = s.mdl
  | .fab => t.fab = s.fab
  | .wei => t.wei = s.wei
  | .hif => t.hif = s.hif
  | .sec => t.sec = s.sec
  | .hlt => t.hlt = s.hlt
  | .stw => t.stw = s.stw
  | .sup => t.sup = s.sup
  | .status => t.status = s.status
  | .counters => t.counters = s.counters
  | .mem => t.mem = s.mem
  | .free => t.freeCtr = s.freeCtr

/-- From `s` to `t` only the parts named may have changed; every other part, and the queue, is as it was. -/
def Only (ps : List Part) (s t : State) : Prop := t.pending = s.pending ∧ ∀ p, ps.contains p = false → p.same s t

/-- The status bit of an event as read (R372, R373). -/
def eventBit (s : State) (e : Event) : Bool := (sqBits s e.place.1).testBit e.place.2

/-- From `s` to `t` nothing that only rises has fallen: the charter in force is the same (R380), every status bit that read 1
reads 1 (R372, R373), and no S-kind counter reads less (R317). -/
structure Grows (s t : State) : Prop where
  charter : t.stw.charter = s.stw.charter
  bits : ∀ e, eventBit s e = true → eventBit t e = true
  counters : ∀ a, counter s a ≤ counter t a

/-- The event that entering a time state raises (R52). -/
def timeEvent : TimeState → Option Event
  | .freeRun => none
  | .acquiring => some .timeAcquiring
  | .locked => some .timeLocked
  | .holdover => some .timeHoldover
  | .lost => some .timeLost

/-- A message of the sluice reaches a keeper and names a live sequence of it by handle: its header, the slot, its ownership
record (R165 to R168). -/
structure KeeperGets (kind : Nat) (m : MsgIn) (s : State) (h : Slu) (slot : Nat) (r : OwnRec) : Prop where
  takes : takesFrom s m.source = true
  role : roleC s = true
  read : readSlu m.bytes = some h
  kind : h.kind = kind
  live : slotOf s h.seq = some slot
  record : recAt s slot = some r

/-- A message of the sluice reaches the owner of a sequence, under the keeper's handle: its header, the slot, the driving
side, the entry (R140, R168). -/
structure OwnerGets (kind : Nat) (m : MsgIn) (s : State) (h : Slu) (slot : Nat) (o : Owned) (e : Seq) : Prop where
  takes : takesFrom s m.source = true
  role : roleC s = false
  read : readSlu m.bytes = some h
  kind : h.kind = kind
  drives : ownedBy s m.source h.seq = some slot
  owned : ownedAt s slot = some o
  entry : seqAt s slot = some e

/-- The record after a message under the epoch in force: the keeper has heard its owner where OWNER sent it (R175). -/
def heardFrom (m : MsgIn) (r : OwnRec) : OwnRec := { r with heard := r.heard || decide (m.source = r.owner) }

/-- A ring message reaches a C module under the epoch in force, new to it: its header, the slot, the entry (R103 to R107). -/
structure RingGets (kind : Nat) (m : MsgIn) (s : State) (h : RingHdr) (slot : Nat) (e : Seq) : Prop where
  takes : takesFrom s m.source = true
  role : roleC s = true
  read : readRing kind m.bytes = some h
  named : entryNamed s m.source h.seq = some slot
  entry : seqAt s slot = some e
  epoch : h.epoch = e.ownEpoch
  fresh : s.car.ringMsgs.any (fun r => r.handle == e.handle && r.layer == h.layer && r.step == h.step &&
    r.member == h.member && r.kind == kind && r.firstPos == h.firstPos) = false

/-- The ring message as it is held, sent on to the successor or not (R103). -/
def heldRing (h : RingHdr) (e : Seq) (forwarded : Bool) : RingMsg :=
  { kind := h.kind, member := h.member, layer := h.layer, handle := e.handle, step := h.step, firstPos := h.firstPos
    tokens := h.tokens, payload := h.payload, folded := false, forwarded := forwarded }

/-- A fragment message reaches a C module: its header (R250). -/
structure FragGets (kind : Nat) (m : MsgIn) (s : State) (h : FragHdr) : Prop where
  takes : takesFrom s m.source = true
  role : roleC s = true
  read : readFrag kind m.bytes = some h

/-- What the header of a fragment that arrives says of a page of another keeper's generation (R250, R251). -/
def told (c : Coding) (s : State) (h : FragHdr) : Coding :=
  if c.keeper = s.fab.node then c else { c with imageLen := h.imageLen, fragLen := h.fragLen, tableId := h.tableId }

/-- The digest of what was sent shows one message more, to a node, of source sequence 0 (R331). -/
def SentOne (s t : State) (dest : Nat) (bytes : List Byte) : Prop :=
  t.hlt.digestOut = digestAdd s.hlt.digestOut dest 0 bytes

/-- From `s` the units went off, leaving `t`: what the dies held is lost; flash, fuses and the identity record stay
(R291, R390, R409). -/
structure PoweredOff (s t : State) : Prop where
  powerStep : t.stw.powerStep = 0
  boot : t.stw.boot = State.reset.stw.boot
  time : t.tmu = State.reset.tmu
  sequences : t.sqs = State.reset.sqs ∧ t.slc = State.reset.slc
  objects : t.pgm = State.reset.pgm ∧ t.tir = State.reset.tir ∧ t.cmp = State.reset.cmp
  work : t.car = State.reset.car ∧ t.mdl = State.reset.mdl
  queues : t.wei = State.reset.wei ∧ t.hif.rings = State.reset.hif.rings
  health : t.hlt = State.reset.hlt
  bits : t.status = State.reset.status ∧ t.counters = State.reset.counters
  fused : t.sec.fusedSvn = s.sec.fusedSvn ∧ t.sec.revoked = s.sec.revoked ∧ t.sec.identity = s.sec.identity
  powerLog : t.sup.log = []

/-- The supply's signals and readings are as they were. -/
structure SamePins (s t : State) : Prop where
  pwrGood : t.sup.pwrGood = s.sup.pwrGood
  brown : t.sup.brown = s.sup.brown
  disconnected : t.sup.disconnected = s.sup.disconnected
  volts : t.sup.volts = s.sup.volts
  bank : t.sup.bank = s.sup.bank

/-- The power log after an entry, and what was sent of it (R414). -/
def loggedPower (s : State) (now event cause : Nat) (t : State) : Prop :=
  let e := powerEntry now event cause s.sup.lowest s.sup.bank
  t.sup.log = (s.sup.log ++ [e]).drop (s.sup.log.length + 1 - 256) ∧ t.sup.sentLog = s.sup.sentLog ++ [e]

/-- The completion of a command stands in its ring, at the place the ring had for it: kind 1, status, cause, reason, results
(R364). -/
def Answered (k : Ticket) (status cause reason r0 r1 : Nat) (s t : State) : Prop :=
  readMem t (cqEntryAddr k.ring (ringOf s k.ring) (ringOf s k.ring).cqTail) 32 =
    completionBytes 1 status cause reason k.tag (stepNo s) k.opcode (ringOf s k.ring).phase r0 r1

/-- The ticket of a command put into a ring (R362, R364). -/
def ticketOf (h : CmdHead) (op : RingOp) : Ticket := { ring := h.ring, tag := h.tag, opcode := ringOpcode op, silent := h.silent }

/-- A ring takes a command at once: in SERVICE with a CXL port up, the ring enabled, not stopped, empty, with a completion
slot free; the ring may carry the command; its body lies where bodies may lie and has its length; its operands fit their
fields in the entry (R362 to R364, R367). -/
structure RingReady (h : CmdHead) (op : RingOp) (s : State) : Prop where
  service : inService s = true
  recorded : s.stw.charter.replay ≠ 1
  cxl : cxlUp s = true
  ring : h.ring < 64
  enabled : (ringOf s h.ring).enabled = true
  running : (ringOf s h.ring).error = false
  empty : (ringOf s h.ring).sqHead = (ringOf s h.ring).sqTail
  inside : (ringOf s h.ring).sqTail < (ringOf s h.ring).size
  slot : (ringOf s h.ring).hasSlot = true
  rights : (ringOf s h.ring).isDike = false ∨
    dikeOpcode (ringOpcode op) = true ∧ h.tenant = (ringOf s h.ring).tenant
  body : bodyOk h = true
  length : lengthOk op h s = true
  operands : readOp (entryBytes h op) = some op
  head : readHead h.ring (entryBytes h op) = { h with placed := [] }
  reserved : entryRsvdOk (entryBytes h op) = true

/-- The entry and the bytes read with it, as a waiting command keeps them (R365). -/
def takenBody (h : CmdHead) (op : RingOp) (s : State) : List Byte := entryBytes h op ++ bodyAtTaking op h s

/-- A command taken from its ring that waits for an action: it is the last of those that wait, under the next source sequence
of its ring, and a completion slot is kept for it (R325, R363). -/
def TakenToWait (action : Nat) (h : CmdHead) (op : RingOp) (kept : RingOp) (s t : State) : Prop :=
  t.sqs.waiting = s.sqs.waiting ++ [{ action := action, tenant := h.tenant, source := Config.ringSource h.ring
                                      sseq := ((ringOf s h.ring).taken + 1) % 2 ^ 32
                                      wait := .command (ticketOf h op) kept (takenBody h op s) }] ∧
  (ringOf t h.ring).reserved = (ringOf s h.ring).reserved + 1 ∧
  (ringOf t h.ring).sqHead = (ringOf t h.ring).sqTail

/-- The message that a WRITE, READ or ATOMIC sends to its node under MSG_SEQ `seq`: divided into packets of 4,112 bytes,
none of them sent yet (R256, R257, R261). -/
def remoteMessage (opcode len : Nat) (payload : List Byte) (carried : Carried) (notify : Bool) (h : CmdHead) (o : RemoteOps)
    (seq : Nat) : OutMsg :=
  { dest := o.dest, seq := seq, opcode := opcode, dike := h.tenant, keyIndex := 0, window := o.window, gen := o.gen, key := o.key
    winOffset := o.winOffset, notify := notify, msgLen := len, queue := dikeQueue h.tenant h.subq, charged := false
    carried := carried, packets := offsets 0 (chunks packetBytes payload), unsent := (chunks packetBytes payload).length
    firstSent := none, latestSent := 0, answer := [], answerCount := 0 }

/-- A frame passes what every frame meets (R253, R260, R272, checks 1 to 5): its port is up, FEC and FCS are good, its type,
tag, layout and address are right. -/
structure FrameGood (op : Nat) (p : Packet) (s : State) : Prop where
  port : portUp s p.port = true
  fec : p.fecOk = true
  fcs : p.fcsOk = true
  length : p.frameLen ≤ 4214
  type : typeOk s p = true
  tag : authentic s p = true
  layout : layoutOk op p s = true
  mine : addressed s p = true

/-- A packet passes checks 6 to 12 of R272, outside the interval in which a revocation fences its window (R270), and is neither a
duplicate nor of a message refused. -/
structure PacketAllowed (p : Packet) (s : State) : Prop where
  settled : beforeFence s p = false
  window : windowReason s p = none
  fresh : doneOf s p = none
  recent : olderThanAll s p = false
  right : rightReason s p = none
  open_ : s.fab.refused.any (fun r => r.1 == p.source && r.2.1 == p.msgSeq) = false

/-- Receive state is there for the packet's source, or its die has room for it (R263). -/
def SourceHeld (p : Packet) (s : State) : Prop :=
  (sourcesOf s (p.source % 4)).contains p.source = true ∨ (sourcesOf s (p.source % 4)).length < 4096

/-- A frame is the last of queue `q` on the port that was next for its die, with the next destination address (R261). -/
def FrameQueued (q : Nat) (f : Frame) (s t : State) : Prop :=
  (queueOf t q).on (nextPort s (Tab.getD s.fab.rotation (f.dest % 4) 0)) =
    (queueOf s q).on (nextPort s (Tab.getD s.fab.rotation (f.dest % 4) 0)) ++
      [{ f with destPort := Tab.getD s.fab.destRotation (f.dest % 4) 0 }]

/-- A message under way has ended: its slot is given up; messages that waited may have taken slots (R261). -/
def MessageEnded (m : OutMsg) (s t : State) : Prop :=
  ∃ more, t.fab.out = s.fab.out.filter (fun o => !(o.dest == m.dest && o.seq == m.seq)) ++ more ∧ ∀ x ∈ more, x ∈ s.fab.waiting

/-- The policer of the packet's dike lets it pass (R282). -/
def Passes (p : Packet) (s : State) : Prop :=
  (Tab.getD s.wei.policers p.dike {}).enable = false ∨
    max p.payload.length 64 * 1000 ≤ (Tab.getD s.wei.policers p.dike {}).tokensAt s.tmu.now

/-- The record of a completed message (R266). -/
def doneMsg (p : Packet) (prior : Option Nat) (now : Nat) : DoneMsg :=
  { source := p.source, seq := p.msgSeq, window := p.window, gen := p.gen, opcode := p.opcode, prior := prior, at_ := now }

/-- A fetch of a layer's weights, and of the adapters' at work, reads mapped addresses and whole blocks (R194, R208, R246). -/
def weightsGood (s : State) (context layer : Nat) (c : Ctx) (l : LayerDesc) : Bool :=
  (fetchPieces s context c layer l).all (fun p => p.mapped s && p.bad.isEmpty)

/-- A frame of queue `q` as it leaves on a port under key version `v` (R256, R258, R275). -/
def sentFrame (s : State) (q port v : Nat) (payload : List Byte) (f : Frame) : Frame :=
  let g := { f with
    payload := payload, cls := queueClass s q, keyIndex := v, nonce := Tab.getD s.fab.nonce (f.dike * 2 + v) 1 }
  { g with octets := g.onWire s port }

/-- The items of the step, but for the page that a sampled one holds for its shadow recomputation (R117). -/
def itemsOf (s : State) : List Item := s.car.items.map (fun i => { i with page := none })

/-- The mailbox of a CXL port, as a responder (R358). -/
def mailboxOf (port : Nat) : SpdmPort := if port = 0 then .doe0 else .doe1

/-- What SEC_KEY_RESULT shows of a blob (R293). -/
def keyResultOf (b : List Byte) (doe : Bool) (port cause : Nat) : Nat :=
  blobKind b * 2 ^ 24 + cause * 2 ^ 16 + b2n (doe && port == 1) * 2 ^ 15 + blobVersion b * 256 + blobTarget b

/-- The command completes: `exec` answers a next state, of which `P` holds. -/
def Completes (c : Instr) (s : State) (P : State → Prop) : Prop := ∃ t, exec c s = .next t ∧ P t

/-- Whatever next state `exec` answers, `P` holds of it. -/
def Leaves (c : Instr) (s : State) (P : State → Prop) : Prop := ∀ t, exec c s = .next t → P t

end Sys2Proof.Safety
end

