-- ==== Sys2Proof/Certificates/Slice0/Obligations.lean ====
section
/-! DEFINITION. The statements for the provers. -/

open Sys2Proof Sys2Proof.Machine Sys2Proof.Safety

/-- A step takes the command at the front of the queue and runs it on the rest. (Scope and Reading Conventions, log 1 (the
queue of commands)) -/
def Obligations.StepRunsTheFrontCommand : Prop :=
  ∀ (c : Instr) (s : State), step { s with pending := c :: s.pending } = exec c s

/-- With no command waiting a step changes nothing (model choice, log 1). (Time, the Step Grid and the Tide Table, log 1
(idle on an empty queue)) -/
def Obligations.IdleStepChangesNothing : Prop := ∀ s : State, s.pending = [] → step s = .next s

/-- No command faults or is refused: each answers a next state, and so does every step. (Scope and Reading Conventions) -/
def Obligations.EveryCommandAnswersNext : Prop :=
  (∀ (c : Instr) (s : State), goesOn (exec c s)) ∧ ∀ s : State, goesOn (step s)

/-- The state at reset meets the invariant. (Accounting, Tallies and Counters, Tenancy, Keys and Attestation) -/
def Obligations.ResetMeetsInvariant : Prop := Inv State.reset

/-- Every step keeps the invariant of the state. (Accounting, Tallies and Counters, Tenancy, Keys and Attestation, Supply,
Signals and Mechanics, Charter and Start-up) -/
def Obligations.StepKeepsInvariant : Prop := ∀ s t : State, Inv s → step s = .next t → Inv t

/-- No command changes what is fused or fixed at manufacture; the fused SVN only rises; no command touches the queue.
(Tenancy, Keys and Attestation) -/
def Obligations.CommandsKeepWhatIsFused : Prop :=
  ∀ (c : Instr) (s t : State), exec c s = .next t →
    t.pending = s.pending ∧ t.sec.identity = s.sec.identity ∧ t.sec.testMode = s.sec.testMode ∧
    t.sec.revoked = s.sec.revoked ∧ s.sec.fusedSvn ≤ t.sec.fusedSvn

/-- Status bits fall, counters fall and the charter changes only at a boundary, an acknowledgement or register write,
power off or the boot ROM. (Host Interface and Register Conventions, Accounting, Tallies and Counters, Charter and
Start-up) -/
def Obligations.StatusBitsFallOnlyWhereTheyMay : Prop :=
  ∀ (c : Instr) (s t : State), exec c s = .next t →
    (match c with
      | .stepBoundary _ => False
      | .replayStepComplete => False
      | .journalHeadWrite _ _ => False
      | .statusAck _ _ => False
      | .registerWrite _ _ _ => False
      | .aliasBitWrite _ _ => False
      | .pwrGoodFall _ _ => False
      | .brownWarnTimeout => False
      | .overvoltage _ _ => False
      | .bankReserveReached _ => False
      | .thermalTrip _ _ => False
      | .bootRomStart _ => False
      | _ => True) → Grows s t

/-- A byte written reads back, every other byte reads as before, and the form of memory is kept. (Memory Tiers, Host
Interface and Register Conventions) -/
def Obligations.MemoryReadsBackWhatIsWritten : Prop :=
  ∀ (a : Nat) (bs : List Byte) (s : State), Memory.wf s.mem = true →
    (∀ (i : Nat) (h : i < bs.length), memRead (a + i) (writeMem a bs s).mem = bs[i]) ∧
    (∀ x : Nat, x < a ∨ a + bs.length ≤ x → memRead x (writeMem a bs s).mem = memRead x s.mem) ∧
    Memory.wf (writeMem a bs s).mem = true

/-- Frame: what the commands of time, the grid and the tallies leave alone. (Time, the Step Grid and the Tide Table) -/
def Obligations.FrameTime : Prop :=
  (∀ (at_ : Nat) (gm : Nat) (offset : Int) (s : State), 
    Leaves (.sync at_ gm offset) s (Only [.tmu, .hif, .hlt, .status, .counters, .mem] s)) ∧
  (∀ (a : Announce) (s : State), Leaves (.announce a) s (Only [.tmu, .hif, .status] s)) ∧
  (∀ (at_ : Nat) (s : State), Leaves (.syncAbsent at_) s (Only [.tmu, .hif, .hlt, .status, .counters, .mem] s)) ∧
  (∀ (at_ : Nat) (s : State), Leaves (.holdoverExpired at_) s (Only [.tmu, .hif, .hlt, .status, .counters, .mem] s)) ∧
  (∀ (s : State), Leaves (.snap) s (Only [.tmu] s)) ∧
  (∀ (s : State), Leaves (.minuteBoundary) s (Only [.tmu, .hif, .hlt, .status, .mem, .free] s)) ∧
  (∀ (s : State), Leaves (.tallyWriteDeadline) s (Only [.tmu, .hif, .status] s)) ∧
  (∀ (s : State), Leaves (.tallySetWritten) s (Only [.hlt, .mem] s))

/-- Frame: what the commands of what happens within a step leave alone. (Sequences, Steps and Admission) -/
def Obligations.FrameWithinStep : Prop :=
  (∀ (slot : Nat) (s : State), 
    Leaves (.slotOpen slot) s (Only [.tmu, .sqs, .slc, .pgm, .cmp, .car, .mdl, .fab, .wei, .hif, .hlt, .status, .counters, .free] s)) ∧
  (∀ (slot : Nat) (s : State), Leaves (.prefetchIssue slot) s (Only [.tmu, .mdl] s)) ∧
  (∀ (slot : Nat) (s : State), 
    Leaves (.prefetchComplete slot) s (Only [.tir, .cmp, .mdl, .hif, .hlt, .status, .counters, .free] s)) ∧
  (∀ (slot : Nat) (s : State), 
    Leaves (.prefetchDeadline slot) s (Only [.tmu, .mdl, .hif, .hlt, .status, .counters, .mem] s)) ∧
  (∀ (slot : Nat) (remaining : Nat) (s : State), 
    Leaves (.slackExhausted slot remaining) s (Only [.tmu, .sqs, .tir, .car, .mdl, .hif, .hlt, .status, .counters, .mem, .free] s)) ∧
  (∀ (offsetNs : Nat) (h : Hidden) (s : State), 
    Leaves (.hiddenState offsetNs h) s (Only [.tmu, .sqs, .slc, .cmp, .car, .mdl, .fab, .wei, .hif, .hlt, .status, .counters, .mem, .free] s)) ∧
  (∀ (h : Hidden) (s : State), 
    Leaves (.attentionOutput h) s (Only [.sqs, .cmp, .fab, .hif, .hlt, .status, .counters, .mem, .free] s)) ∧
  (∀ (item : Nat) (u : ItemUse) (s : State), 
    Leaves (.itemComplete item u) s (Only [.sqs, .slc, .pgm, .cmp, .car, .mdl, .fab, .wei, .hif, .hlt, .status, .counters, .free] s)) ∧
  (∀ (cluster : Nat) (s : State), 
    Leaves (.imageSwapComplete cluster) s (Only [.mdl, .hif, .hlt, .status, .counters, .free] s)) ∧
  (∀ (context : Nat) (s : State), Leaves (.contextFillComplete context) s (Only [.mdl, .hif, .hlt, .status] s)) ∧
  (∀ (desc : Nat) (s : State), Leaves (.sealComplete desc) s (Only [.pgm, .cmp, .hif, .hlt, .status, .free] s)) ∧
  (∀ (desc : Nat) (s : State), 
    Leaves (.promotionComplete desc) s (Only [.sqs, .pgm, .tir, .cmp, .fab, .wei, .hif, .hlt, .status, .counters, .free] s)) ∧
  (∀ (desc : Nat) (extent : Nat) (s : State), 
    Leaves (.writebackExtent desc extent) s (Only [.pgm, .tir, .hif, .hlt, .status, .counters, .free] s)) ∧
  (∀ (offsetNs : Nat) (channel : Nat) (head : Nat) (placed : Placed) (s : State), 
    Leaves (.inHeadWrite offsetNs channel head placed) s (Only [.tmu, .sqs, .cmp, .car, .fab, .wei, .hif, .hlt, .status, .mem] s)) ∧
  (∀ (channel : Nat) (tail : Nat) (s : State), Leaves (.outTailWrite channel tail) s (Only [.hif, .mem] s))

/-- Frame: what the commands of the messages of the sluice and the ring leave alone. (Sluice: Ownership and Handoff of
Request State) -/
def Obligations.FrameMessages : Prop :=
  (∀ (r : Request) (s : State), Leaves (.request r) s (Only [.sqs, .fab, .hif, .hlt, .status] s)) ∧
  (∀ (m : MsgIn) (s : State), Leaves (.admitQuery m) s (Only [.sqs, .fab, .hif, .hlt, .status] s)) ∧
  (∀ (m : MsgIn) (s : State), 
    Leaves (.verdict m) s (Only [.sqs, .fab, .wei, .hif, .hlt, .status, .counters, .mem, .free] s)) ∧
  (∀ (c : Named) (s : State), Leaves (.cancel c) s (Only [.sqs, .fab, .wei, .hif, .hlt, .status, .counters, .mem] s)) ∧
  (∀ (c : Named) (s : State), Leaves (.pause c) s (Only [.sqs, .fab, .wei, .hif, .hlt, .status, .counters, .mem] s)) ∧
  (∀ (m : MsgIn) (s : State), Leaves (.grant m) s (Only [.sqs, .fab, .wei, .hif, .hlt, .status, .counters, .mem] s)) ∧
  (∀ (m : MsgIn) (s : State), 
    Leaves (.grantAck m) s (Only [.sqs, .slc, .fab, .wei, .hif, .hlt, .status, .counters, .mem] s)) ∧
  (∀ (m : MsgIn) (s : State), 
    Leaves (.statePush m) s (Only [.sqs, .slc, .fab, .wei, .hif, .hlt, .status, .counters, .mem, .free] s)) ∧
  (∀ (m : MsgIn) (s : State), 
    Leaves (.release m) s (Only [.sqs, .slc, .fab, .wei, .hif, .hlt, .status, .counters, .mem] s)) ∧
  (∀ (m : MsgIn) (s : State), 
    Leaves (.pulse m) s (Only [.sqs, .slc, .fab, .wei, .hif, .hlt, .status, .counters, .mem] s)) ∧
  (∀ (m : MsgIn) (s : State), 
    Leaves (.tokenNote m) s (Only [.sqs, .slc, .fab, .wei, .hif, .hlt, .status, .counters, .mem] s)) ∧
  (∀ (m : MsgIn) (s : State), Leaves (.noteAck m) s (Only [.sqs, .fab, .hif, .hlt, .status, .counters, .mem] s)) ∧
  (∀ (m : MsgIn) (s : State), Leaves (.reject m) s (Only [.sqs, .fab, .hif, .hlt, .status, .counters, .mem] s)) ∧
  (∀ (m : MsgIn) (s : State), Leaves (.recall m) s (Only [.sqs, .fab, .hif, .hlt, .status, .counters, .mem] s)) ∧
  (∀ (m : MsgIn) (s : State), 
    Leaves (.historyQuery m) s (Only [.sqs, .fab, .wei, .hif, .hlt, .status, .counters, .mem] s)) ∧
  (∀ (slot : Nat) (s : State), 
    Leaves (.reissueAckTimeout slot) s (Only [.tmu, .sqs, .slc, .hif, .hlt, .status, .counters] s)) ∧
  (∀ (slot : Nat) (s : State), Leaves (.rehomingTimeout slot) s (Only [.tmu, .sqs] s)) ∧
  (∀ (slot : Nat) (s : State), Leaves (.rehomeWaitExpired slot) s (Only [.sqs] s)) ∧
  (∀ (m : MsgIn) (s : State), 
    Leaves (.ringBlock m) s (Only [.sqs, .cmp, .car, .mdl, .fab, .wei, .hif, .hlt, .status, .counters, .mem, .free] s)) ∧
  (∀ (m : MsgIn) (s : State), 
    Leaves (.probe m) s (Only [.sqs, .slc, .pgm, .car, .mdl, .fab, .wei, .hif, .hlt, .status, .counters, .mem, .free] s)) ∧
  (∀ (m : MsgIn) (s : State), 
    Leaves (.foldRecord m) s (Only [.sqs, .slc, .pgm, .car, .mdl, .fab, .wei, .hif, .hlt, .status, .counters, .mem, .free] s)) ∧
  (∀ (slot : Nat) (member : Nat) (s : State), 
    Leaves (.ringSilenceTimeout slot member) s (Only [.sqs, .slc, .hif, .hlt, .status, .counters] s))

/-- Frame: what the commands of fragments and rebuilds leave alone. (Compression and Block Integrity) -/
def Obligations.FrameFragments : Prop :=
  (∀ (m : MsgIn) (s : State), 
    Leaves (.fragmentPut m) s (Only [.cmp, .fab, .wei, .hif, .hlt, .status, .counters, .mem] s)) ∧
  (∀ (m : MsgIn) (s : State), 
    Leaves (.fragmentAck m) s (Only [.pgm, .cmp, .fab, .wei, .hif, .hlt, .status, .counters, .mem] s)) ∧
  (∀ (m : MsgIn) (s : State), 
    Leaves (.fragmentGet m) s (Only [.cmp, .fab, .wei, .hif, .hlt, .status, .counters, .mem] s)) ∧
  (∀ (m : MsgIn) (s : State), 
    Leaves (.fragmentData m) s (Only [.pgm, .cmp, .fab, .hif, .hlt, .status, .counters, .mem, .free] s)) ∧
  (∀ (m : MsgIn) (s : State), Leaves (.fragmentFree m) s (Only [.cmp, .fab, .hif, .hlt, .status, .counters, .mem] s)) ∧
  (∀ (m : MsgIn) (s : State), 
    Leaves (.fragmentLost m) s (Only [.pgm, .cmp, .fab, .wei, .hif, .hlt, .status, .counters, .mem] s)) ∧
  (∀ (desc : Nat) (frag : Nat) (s : State), 
    Leaves (.fragmentPutTimeout desc frag) s (Only [.pgm, .cmp, .fab, .wei, .hif, .hlt, .status] s)) ∧
  (∀ (desc : Nat) (s : State), Leaves (.rebuildTimeout desc) s (Only [.sqs, .pgm, .cmp, .hif, .status] s)) ∧
  (∀ (s : State), Leaves (.buildTableComplete) s (Only [.cmp, .hif, .hlt, .status, .mem] s))

/-- Frame: what the commands of Nodor packets, its timers, ports and the weir leave alone. (Fabric Ports, Transport and
Windows) -/
def Obligations.FrameNodor : Prop :=
  (∀ (at_ : Nat) (p : Packet) (s : State), 
    Leaves (.nodorSend at_ p) s (Only [.tmu, .sqs, .slc, .pgm, .cmp, .car, .mdl, .fab, .wei, .hif, .hlt, .status, .counters, .mem, .free] s)) ∧
  (∀ (at_ : Nat) (p : Packet) (s : State), 
    Leaves (.nodorWrite at_ p) s (Only [.tmu, .sqs, .slc, .pgm, .cmp, .car, .mdl, .fab, .wei, .hif, .hlt, .status, .counters, .mem, .free] s)) ∧
  (∀ (at_ : Nat) (p : Packet) (s : State), 
    Leaves (.nodorRead at_ p) s (Only [.tmu, .fab, .wei, .hif, .hlt, .status, .counters, .free] s)) ∧
  (∀ (at_ : Nat) (p : Packet) (s : State), 
    Leaves (.nodorReadData at_ p) s (Only [.tmu, .fab, .wei, .hif, .hlt, .status, .counters, .mem] s)) ∧
  (∀ (at_ : Nat) (p : Packet) (s : State), 
    Leaves (.nodorAtomic at_ p) s (Only [.tmu, .pgm, .fab, .wei, .hif, .hlt, .status, .counters, .free] s)) ∧
  (∀ (at_ : Nat) (p : Packet) (s : State), 
    Leaves (.nodorAtomicData at_ p) s (Only [.tmu, .fab, .wei, .hif, .hlt, .status, .counters, .mem] s)) ∧
  (∀ (at_ : Nat) (p : Packet) (s : State), 
    Leaves (.nodorAck at_ p) s (Only [.tmu, .fab, .wei, .hif, .hlt, .status, .counters, .mem] s)) ∧
  (∀ (at_ : Nat) (p : Packet) (s : State), 
    Leaves (.nodorNack at_ p) s (Only [.tmu, .fab, .wei, .hif, .hlt, .status, .counters, .mem] s)) ∧
  (∀ (source : Nat) (msgSeq : Nat) (s : State), Leaves (.partialAckTimer source msgSeq) s (Only [.tmu, .fab, .wei] s)) ∧
  (∀ (at_ : Nat) (dest : Nat) (msgSeq : Nat) (s : State), 
    Leaves (.resendTimeout at_ dest msgSeq) s (Only [.tmu, .fab, .wei, .hif, .hlt, .status, .counters] s)) ∧
  (∀ (dest : Nat) (msgSeq : Nat) (s : State), 
    Leaves (.messageAbandonTimer dest msgSeq) s (Only [.tmu, .fab, .wei, .hif, .hlt, .status, .counters, .mem] s)) ∧
  (∀ (at_ : Nat) (port : Nat) (s : State), 
    Leaves (.transmitOpportunity at_ port) s (Only [.tmu, .fab, .wei, .hif, .hlt, .status] s)) ∧
  (∀ (port : Nat) (up : Bool) (s : State), Leaves (.ethernetLinkChange port up) s (Only [.fab, .wei, .hif, .status] s)) ∧
  (∀ (window : Nat) (s : State), Leaves (.revocationComplete window) s (Only [.fab, .hif, .mem] s)) ∧
  (∀ (at_ : Nat) (window : Nat) (s : State), 
    Leaves (.reopenDelayExpired at_ window) s (Only [.tmu, .fab, .hif, .mem] s)) ∧
  (∀ (s : State), Leaves (.fineTick) s (Only [.tmu, .wei] s)) ∧
  (∀ (s : State), Leaves (.coarseTick) s (Only [.tmu, .wei] s)) ∧
  (∀ (queue : Nat) (s : State), Leaves (.pacerRelease queue) s (Only [.tmu, .wei] s))

/-- Frame: what the commands of the host rings leave alone. (Host Interface and Register Conventions) -/
def Obligations.FrameRings : Prop :=
  (∀ (at_ : Nat) (ring : Nat) (tail : Nat) (placed : Placed) (s : State), 
    Leaves (.sqDoorbell at_ ring tail placed) s (Only [.tmu, .sqs, .slc, .cmp, .fab, .wei, .hif, .sec, .hlt, .status, .counters, .mem] s)) ∧
  (∀ (ring : Nat) (head : Nat) (s : State), 
    Leaves (.cqHeadWrite ring head) s (Only [.sqs, .slc, .cmp, .fab, .wei, .hif, .sec, .hlt, .status, .counters, .mem] s)) ∧
  (∀ (ring : Nat) (value : Word) (s : State), Leaves (.ringCtrlWrite ring value) s (Only [.hif] s)) ∧
  (∀ (h : CmdHead) (o : LeaseOps) (s : State), 
    Leaves (.lease h o) s (Only [.sqs, .slc, .cmp, .fab, .wei, .hif, .sec, .hlt, .status, .counters, .mem] s)) ∧
  (∀ (h : CmdHead) (s : State), 
    Leaves (.compose h) s (Only [.sqs, .slc, .cmp, .fab, .wei, .hif, .sec, .hlt, .status, .counters, .mem] s)) ∧
  (∀ (h : CmdHead) (opened : Option (List Byte)) (s : State), 
    Leaves (.installKey h opened) s (Only [.sqs, .slc, .cmp, .fab, .wei, .hif, .sec, .hlt, .status, .counters, .mem] s)) ∧
  (∀ (h : CmdHead) (s : State), 
    Leaves (.registerContext h) s (Only [.sqs, .slc, .cmp, .fab, .wei, .hif, .sec, .hlt, .status, .counters, .mem] s)) ∧
  (∀ (h : CmdHead) (context : Nat) (s : State), 
    Leaves (.retireContext h context) s (Only [.sqs, .slc, .cmp, .fab, .wei, .hif, .sec, .hlt, .status, .counters, .mem] s)) ∧
  (∀ (h : CmdHead) (s : State), 
    Leaves (.registerAdapter h) s (Only [.sqs, .slc, .cmp, .fab, .wei, .hif, .sec, .hlt, .status, .counters, .mem] s)) ∧
  (∀ (h : CmdHead) (context : Nat) (s : State), 
    Leaves (.withdrawAdapter h context) s (Only [.sqs, .slc, .cmp, .fab, .wei, .hif, .sec, .hlt, .status, .counters, .mem] s)) ∧
  (∀ (h : CmdHead) (entry : Nat) (currentStep : Nat) (s : State), 
    Leaves (.installTable h entry currentStep) s (Only [.sqs, .slc, .cmp, .fab, .wei, .hif, .sec, .hlt, .status, .counters, .mem] s)) ∧
  (∀ (h : CmdHead) (layout : Nat) (source : Nat) (length : Nat) (s : State), 
    Leaves (.buildTable h layout source length) s (Only [.sqs, .slc, .cmp, .fab, .wei, .hif, .sec, .hlt, .status, .counters, .mem] s)) ∧
  (∀ (h : CmdHead) (extents : Nat) (alloc : Nat) (pin : Bool) (durable : Bool) (s : State), 
    Leaves (.allocObject h extents alloc pin durable) s (Only [.sqs, .slc, .cmp, .fab, .wei, .hif, .sec, .hlt, .status, .counters, .mem] s)) ∧
  (∀ (h : CmdHead) (index : Nat) (gen : Nat) (s : State), 
    Leaves (.freeObject h index gen) s (Only [.sqs, .slc, .cmp, .fab, .wei, .hif, .sec, .hlt, .status, .counters, .mem] s)) ∧
  (∀ (at_ : Nat) (h : CmdHead) (o : WinOps) (s : State), 
    Leaves (.openWindow at_ h o) s (Only [.tmu, .sqs, .slc, .cmp, .fab, .wei, .hif, .sec, .hlt, .status, .counters, .mem] s)) ∧
  (∀ (at_ : Nat) (h : CmdHead) (window : Nat) (o : WinOps) (s : State), 
    Leaves (.reopenWindow at_ h window o) s (Only [.tmu, .sqs, .slc, .cmp, .fab, .wei, .hif, .sec, .hlt, .status, .counters, .mem] s)) ∧
  (∀ (at_ : Nat) (h : CmdHead) (window : Nat) (s : State), 
    Leaves (.revokeWindow at_ h window) s (Only [.tmu, .sqs, .slc, .cmp, .fab, .wei, .hif, .sec, .hlt, .status, .counters, .mem] s)) ∧
  (∀ (at_ : Nat) (h : CmdHead) (queue : Nat) (enable : Bool) (quantum : Nat) (rate : Nat) (s : State), 
    Leaves (.setQueue at_ h queue enable quantum rate) s (Only [.tmu, .sqs, .slc, .cmp, .fab, .wei, .hif, .sec, .hlt, .status, .counters, .mem] s)) ∧
  (∀ (at_ : Nat) (h : CmdHead) (dike : Nat) (enable : Bool) (rate : Nat) (burst : Nat) (s : State), 
    Leaves (.setPolicer at_ h dike enable rate burst) s (Only [.tmu, .sqs, .slc, .cmp, .fab, .wei, .hif, .sec, .hlt, .status, .counters, .mem] s)) ∧
  (∀ (at_ : Nat) (h : CmdHead) (o : RemoteOps) (s : State), 
    Leaves (.write at_ h o) s (Only [.tmu, .sqs, .slc, .cmp, .fab, .wei, .hif, .sec, .hlt, .status, .counters, .mem] s)) ∧
  (∀ (at_ : Nat) (h : CmdHead) (o : RemoteOps) (s : State), 
    Leaves (.read at_ h o) s (Only [.tmu, .sqs, .slc, .cmp, .fab, .wei, .hif, .sec, .hlt, .status, .counters, .mem] s)) ∧
  (∀ (at_ : Nat) (h : CmdHead) (o : RemoteOps) (s : State), 
    Leaves (.atomic at_ h o) s (Only [.tmu, .sqs, .slc, .cmp, .fab, .wei, .hif, .sec, .hlt, .status, .counters, .mem] s)) ∧
  (∀ (at_ : Nat) (h : CmdHead) (s : State), 
    Leaves (.stageImage at_ h) s (Only [.tmu, .sqs, .slc, .cmp, .fab, .wei, .hif, .sec, .hlt, .status, .counters, .mem] s)) ∧
  (∀ (h : CmdHead) (s : State), 
    Leaves (.switchImage h) s (Only [.sqs, .slc, .cmp, .fab, .wei, .hif, .sec, .hlt, .status, .counters, .mem] s)) ∧
  (∀ (h : CmdHead) (s : State), 
    Leaves (.commitSvn h) s (Only [.sqs, .slc, .cmp, .fab, .wei, .hif, .sec, .hlt, .status, .counters, .mem] s)) ∧
  (∀ (h : CmdHead) (die : Nat) (force : Bool) (s : State), 
    Leaves (.drainDie h die force) s (Only [.sqs, .slc, .cmp, .fab, .wei, .hif, .sec, .hlt, .status, .counters, .mem] s)) ∧
  (∀ (h : CmdHead) (die : Nat) (s : State), 
    Leaves (.readmitDie h die) s (Only [.sqs, .slc, .cmp, .fab, .wei, .hif, .sec, .hlt, .status, .counters, .mem] s)) ∧
  (∀ (h : CmdHead) (requestId : Nat) (s : State), 
    Leaves (.rehome h requestId) s (Only [.sqs, .slc, .cmp, .fab, .wei, .hif, .sec, .hlt, .status, .counters, .mem] s))

/-- Frame: what the commands of checking, health and memory errors leave alone. (Checking, Health and Spares) -/
def Obligations.FrameHealth : Prop :=
  (∀ (die : Nat) (phys : Nat) (s : State), 
    Leaves (.itemOverrun die phys) s (Only [.sqs, .car, .mdl, .hif, .hlt, .stw, .status, .counters, .mem, .free] s)) ∧
  (∀ (item : Nat) (prim : List Byte) (shadow : List Byte) (sensors : MismatchSensors) (s : State), 
    Leaves (.shadowComplete item prim shadow sensors) s (Only [.pgm, .car, .hif, .hlt, .status, .counters, .mem, .free] s)) ∧
  (∀ (mismatch : Nat) (result : Option (List Byte)) (s : State), 
    Leaves (.refereeComplete mismatch result) s (Only [.hif, .hlt, .status, .mem, .free] s)) ∧
  (∀ (die : Nat) (failed : List Nat) (s : State), 
    Leaves (.selfCheckComplete die failed) s (Only [.hif, .hlt, .stw, .status, .counters] s)) ∧
  (∀ (link : Nat) (down : Bool) (s : State), 
    Leaves (.d2dLinkFailure link down) s (Only [.sqs, .car, .fab, .wei, .hif, .hlt, .status, .counters, .mem] s)) ∧
  (∀ (link : Nat) (s : State), 
    Leaves (.laneRepair link) s (Only [.sqs, .car, .fab, .wei, .hif, .hlt, .status, .counters, .mem] s)) ∧
  (∀ (w : UeWhere) (s : State), 
    Leaves (.gddr7Uncorrectable w) s (Only [.sqs, .slc, .pgm, .tir, .cmp, .mdl, .fab, .wei, .hif, .hlt, .status, .counters] s)) ∧
  (∀ (s : State), Leaves (.gddr7Corrected) s (Only [.hif, .hlt, .status, .counters] s)) ∧
  (∀ (segment : Nat) (failedAgain : Bool) (w : UeWhere) (s : State), 
    Leaves (.t2LineTimeout segment failedAgain w) s (Only [.sqs, .slc, .pgm, .tir, .cmp, .mdl, .fab, .wei, .hif, .hlt, .status, .counters] s)) ∧
  (∀ (die : Nat) (phys : Nat) (s : State), Leaves (.coreMemoryCe die phys) s (Only [.hif, .hlt, .status, .counters] s)) ∧
  (∀ (die : Nat) (phys : Nat) (s : State), 
    Leaves (.coreMemoryUe die phys) s (Only [.sqs, .car, .mdl, .hif, .hlt, .stw, .status, .counters, .mem, .free] s)) ∧
  (∀ (failed : List (Nat × Nat)) (s : State), 
    Leaves (.hourTick failed) s (Only [.tmu, .sqs, .car, .mdl, .hif, .hlt, .stw, .status, .counters, .mem, .free] s))

/-- Frame: what the commands of registers and latches leave alone. (Register Block Index and Alias Tables) -/
def Obligations.FrameRegisters : Prop :=
  (∀ (addr : Nat) (value : Word) (s : State), 
    Leaves (.statusAck addr value) s (Only [.hif, .hlt, .status, .counters] s)) ∧
  (∀ (addr : Nat) (s : State), Leaves (.unmappedAccess addr) s (Only [.hif, .hlt, .status, .counters] s)) ∧
  (∀ (value : Word) (s : State), Leaves (.pgmInspectLatch value) s (Only [.sqs, .hif, .sec] s)) ∧
  (∀ (value : Word) (s : State), Leaves (.sqsInspectLatch value) s (Only [.sqs, .hif, .sec] s)) ∧
  (∀ (value : Word) (s : State), Leaves (.slcInspectLatch value) s (Only [.sqs, .hif, .sec] s)) ∧
  (∀ (value : Word) (s : State), Leaves (.tirSegLatch value) s (Only [.sqs, .hif, .sec] s)) ∧
  (∀ (value : Word) (s : State), Leaves (.cmpTableLatch value) s (Only [.sqs, .hif, .sec] s)) ∧
  (∀ (value : Word) (s : State), Leaves (.fabPortLatch value) s (Only [.sqs, .hif, .sec] s)) ∧
  (∀ (value : Word) (s : State), Leaves (.fabWinLatch value) s (Only [.sqs, .hif, .sec] s)) ∧
  (∀ (value : Word) (s : State), Leaves (.weiQLatch value) s (Only [.sqs, .hif, .sec] s)) ∧
  (∀ (at_ : Nat) (value : Word) (s : State), Leaves (.weiPolLatch at_ value) s (Only [.tmu, .sqs, .hif, .sec] s)) ∧
  (∀ (value : Word) (s : State), Leaves (.secKeyLatch value) s (Only [.sqs, .hif, .sec] s)) ∧
  (∀ (value : Word) (s : State), Leaves (.hltCoreLatch value) s (Only [.sqs, .hif, .sec] s)) ∧
  (∀ (value : Word) (s : State), Leaves (.hltAcctLatch value) s (Only [.sqs, .hif, .sec] s)) ∧
  (∀ (value : Word) (s : State), Leaves (.stwReportLatch value) s (Only [.sqs, .hif, .sec] s)) ∧
  (∀ (value : Word) (s : State), Leaves (.journalTailWrite value) s (Only [.hlt] s)) ∧
  (∀ (value : Word) (s : State), Leaves (.ckptTailWrite value) s (Only [.hlt] s))

/-- Frame: what the commands of images, the charter, start-up and supply leave alone. (Charter and Start-up) -/
def Obligations.FrameStartup : Prop :=
  (∀ (sigOk : Bool) (s : State), Leaves (.imageVerifyComplete sigOk) s (Only [.hif, .sec, .status, .mem, .free] s)) ∧
  (∀ (s : State), Leaves (.firmwareSwitchComplete) s (Only [.hif, .sec, .stw, .status, .mem] s)) ∧
  (∀ (ok : Bool) (s : State), Leaves (.flashWriteComplete ok) s (Only [.hif, .sec, .stw, .status, .free] s)) ∧
  (∀ (s : State), Leaves (.stagedImageTimeout) s (Only [.tmu, .sec] s)) ∧
  (∀ (placed : Placed) (s : State), Leaves (.charterWrite placed) s (Only [.hif, .stw, .status, .mem] s)) ∧
  (∀ (ok : Bool) (s : State), Leaves (.charterWriteComplete ok) s (Only [.hif, .stw, .status, .free] s)) ∧
  (∀ (length : Nat) (chunk : List Byte) (s : State), Leaves (.recoveryPush length chunk) s (Only [.hif, .stw] s)) ∧
  (∀ (sigOk : Bool) (s : State), Leaves (.recoveryFinish sigOk) s (Only [.hif, .sec, .stw, .status] s)) ∧
  (∀ (s : State), Leaves (.recoveryAbort) s (Only [.stw] s)) ∧
  (∀ (s : State), Leaves (.pwrGoodRise) s (Only [.stw, .sup] s)) ∧
  (∀ (s : State), Leaves (.powerStepInterval) s (Only [.stw] s)) ∧
  (∀ (at_ : Nat) (volts10mV : Nat) (bank : Nat) (s : State), 
    Leaves (.inputLow at_ volts10mV bank) s (Only [.tmu, .sup] s)) ∧
  (∀ (at_ : Nat) (volts10mV : Nat) (bank : Nat) (s : State), 
    Leaves (.inputRestored at_ volts10mV bank) s (Only [.tmu, .sup] s)) ∧
  (∀ (at_ : Nat) (die : Nat) (s : State), Leaves (.thermalHigh at_ die) s (Only [.tmu, .sup] s)) ∧
  (∀ (die : Nat) (s : State), Leaves (.thermalExcursionEnd die) s (Only [.sup] s)) ∧
  (∀ (at_ : Nat) (watts : Nat) (s : State), 
    Leaves (.powerOver at_ watts) s (Only [.tmu, .hif, .hlt, .sup, .status, .counters] s)) ∧
  (∀ (port : Nat) (s : State), 
    Leaves (.perstAssert port) s (Only [.sqs, .slc, .cmp, .fab, .wei, .hif, .sec, .hlt, .status, .counters, .mem] s)) ∧
  (∀ (port : Nat) (rate : Nat) (width : Nat) (s : State), 
    Leaves (.cxlLinkChange port rate width) s (Only [.sqs, .slc, .cmp, .fab, .wei, .hif, .sec, .hlt, .status, .counters, .mem] s)) ∧
  (∀ (port : Nat) (s : State), 
    Leaves (.ideIntegrityFailure port) s (Only [.sqs, .slc, .cmp, .fab, .wei, .hif, .sec, .hlt, .status, .counters, .mem] s)) ∧
  (∀ (o : BootOps) (s : State), Leaves (.bootRomStart o) s (Only [.tir, .hif, .sec, .stw, .status, .free] s)) ∧
  (∀ (s : State), Leaves (.imageStartTimeout) s (Only [.stw] s)) ∧
  (∀ (links : List Nat) (failed : List (Nat × Nat)) (s : State), 
    Leaves (.stewardStart links failed) s (Only [.sqs, .car, .fab, .wei, .hif, .hlt, .stw, .status, .counters, .mem] s)) ∧
  (∀ (ms : Nat) (portsUp : Nat) (s : State), 
    Leaves (.serviceReached ms portsUp) s (Only [.tmu, .fab, .hif, .hlt, .stw, .status] s)) ∧
  (∀ (at_ : Nat) (s : State), Leaves (.inputReconnect at_) s (Only [.tmu, .stw, .sup, .free] s)) ∧
  (∀ (address : Nat) (s : State), Leaves (.dynamicAddressAssignment address) s (Only [.sup] s))

/-- Frame: what the commands of attestation, keys and the management port leave alone. (Tenancy, Keys and Attestation) -/
def Obligations.FrameAttestation : Prop :=
  (∀ (t_ : SpdmPort) (s : State), Leaves (.getVersion t_) s (Only [.sec] s)) ∧
  (∀ (t_ : SpdmPort) (s : State), Leaves (.getCapabilities t_) s (Only [.hif, .sec, .hlt, .status, .counters, .free] s)) ∧
  (∀ (t_ : SpdmPort) (version : Nat) (base : List Nat) (meas : List Nat) (asym : List Nat) (s : State), 
    Leaves (.negotiateAlgorithms t_ version base meas asym) s (Only [.hif, .sec, .hlt, .status, .counters] s)) ∧
  (∀ (t_ : SpdmPort) (s : State), Leaves (.getDigests t_) s (Only [.hif, .sec, .hlt, .status, .counters] s)) ∧
  (∀ (t_ : SpdmPort) (slot : Nat) (offset : Nat) (length : Nat) (s : State), 
    Leaves (.getCertificate t_ slot offset length) s (Only [.hif, .sec, .hlt, .status, .counters] s)) ∧
  (∀ (t_ : SpdmPort) (slot : Nat) (nonce : List Byte) (s : State), 
    Leaves (.challenge t_ slot nonce) s (Only [.hif, .sec, .hlt, .status, .counters, .free] s)) ∧
  (∀ (t_ : SpdmPort) (index : Nat) (signed : Bool) (nonce : List Byte) (s : State), 
    Leaves (.getMeasurements t_ index signed nonce) s (Only [.hif, .sec, .hlt, .status, .counters, .free] s)) ∧
  (∀ (t_ : SpdmPort) (code : Nat) (s : State), 
    Leaves (.spdmUnsupportedRequest t_ code) s (Only [.hif, .sec, .hlt, .status, .counters] s)) ∧
  (∀ (port : Nat) (streamConfigured : Bool) (blob : List Byte) (opened : Option (List Byte)) (s : State), 
    Leaves (.keyProg port streamConfigured blob opened) s (Only [.fab, .hif, .sec, .hlt, .status, .counters] s)) ∧
  (∀ (v : Sensors) (s : State), Leaves (.getSensors v) s (Only [.sup] s)) ∧
  (∀ (s : State), Leaves (.getIdentity) s (Only [.sup] s)) ∧
  (∀ (s : State), Leaves (.getPowerLog) s (Only [.sup] s))

/-- A valid Sync moves the time state as the table of R52 says. (Time, the Step Grid and the Tide Table) -/
def Obligations.SyncMovesTheTimeState : Prop :=
  (∀ (at_ gm : Nat) (offset : Int) (s : State),
    inService s = true → timePortUp s = true → liveTime s = true → chosenGm s = some gm →
    ∃ t, exec (.sync at_ gm offset) s = .next t ∧
       (t.tmu.gm = some gm ∧ t.tmu.offset = clampOffset offset ∧ t.tmu.measured = offset ∧
        (∀ g, s.tmu.gm = some g → g ≠ gm → eventBit t .grandmasterChanged = true) ∧
        t.tmu.state = (match s.tmu.state with
          | .freeRun => .acquiring
          | .acquiring => if offset.natAbs ≤ 250 ∧ 8 ≤ s.tmu.good + 1 then .locked else .acquiring
          | .locked => if 1000000 < offset.natAbs then .lost else .locked
          | .holdover => if 1000000 < offset.natAbs then .lost else .locked
          | .lost => if 1000000 < offset.natAbs then .lost else .acquiring) ∧
        (∀ e, timeEvent t.tmu.state = some e → t.tmu.state ≠ s.tmu.state → eventBit t e = true) ∧
        t.tmu.gridRun = (s.tmu.gridRun || decide (t.tmu.state = .locked ∧ s.tmu.state = .acquiring)) ∧
        (s.tmu.state = .lost → 1000000 < offset.natAbs → t.tmu.stepReq = true ∧
          (s.tmu.stepReq = false → eventBit t .timeStepRequired = true)))) ∧
  (∀ (at_ gm : Nat) (offset : Int) (s : State),
    chosenGm s ≠ some gm →
    ∃ t, exec (.sync at_ gm offset) s = .next t ∧ (t = s))

/-- ANNOUNCE, SYNC_ABSENT, HOLDOVER_EXPIRED and SNAP have their effect. (Time, the Step Grid and the Tide Table, log 21
(order of clocks)) -/
def Obligations.TimeCommandsComplete : Prop :=
  (∀ (a : Announce) (s : State),
    inService s = true → timePortUp s = true → a.domain = s.stw.charter.timeDomain →
    (∀ b, s.tmu.gmData = some b → a.identity = b.identity ∨ lexLe (announceKey a) (announceKey b) = true) →
    ∃ t, exec (.announce a) s = .next t ∧
       (t.tmu = { s.tmu with gmData := some a, gm := some a.identity } ∧
        ∀ g, s.tmu.gm = some g → g ≠ a.identity → eventBit t .grandmasterChanged = true)) ∧
  (∀ (a b : Announce) (s : State),
    s.tmu.gmData = some b → a.identity ≠ b.identity → lexLe (announceKey a) (announceKey b) = false →
    ∃ t, exec (.announce a) s = .next t ∧ (t = s)) ∧
  (∀ (at_ : Nat) (s : State),
    inService s = true → liveTime s = true → s.tmu.lastSync + 1000000000 ≤ max s.tmu.now at_ →
    ∃ t, exec (.syncAbsent at_) s = .next t ∧
       (t.tmu = (match s.tmu.state with
          | .acquiring => if s.tmu.gridRun then { s.tmu with now := max s.tmu.now at_, state := .lost }
            else { s.tmu with now := max s.tmu.now at_ }
          | .locked => { s.tmu with now := max s.tmu.now at_, holdoverAt := max s.tmu.now at_, state := .holdover }
          | _ => { s.tmu with now := max s.tmu.now at_ }) ∧
        (∀ e, timeEvent t.tmu.state = some e → t.tmu.state ≠ s.tmu.state → eventBit t e = true))) ∧
  (∀ (at_ : Nat) (s : State),
    inService s = true → liveTime s = true → s.tmu.state = .holdover →
    s.tmu.holdoverAt + 60000000000 ≤ max s.tmu.now at_ →
    ∃ t, exec (.holdoverExpired at_) s = .next t ∧
       (t.tmu = { s.tmu with now := max s.tmu.now at_, state := .lost } ∧ eventBit t .timeLost = true)) ∧
  (∀ (s : State),
    inService s = true →
    ∃ t, exec .snap s = .next t ∧ (t = { s with tmu := { s.tmu with snapNow := s.tmu.now, snapState := s.tmu.state.code } }))

/-- MINUTE_BOUNDARY, TALLY_SET_WRITTEN and TALLY_WRITE_DEADLINE have their effect. (Accounting, Tallies and Counters,
Time, the Step Grid and the Tide Table) -/
def Obligations.TalliesAreFrozenAndWritten : Prop :=
  (∀ s : State, inService s = true → s.stw.charter.replay ≠ 1 →
    ∃ t, exec .minuteBoundary s = .next t ∧
     (s.tmu.now ≤ t.tmu.now ∧ t.tmu.now % 60000000000 = 0 ∧ t.hlt.minute * 1000000000 = t.tmu.now ∧
      t.hlt.tallySeq = (s.hlt.tallySeq + 1) % 2 ^ 32 ∧ t.hlt.frozen = true ∧
      (∃ recs, t.hlt.writing = some (t.hlt.tallySeq, recs) ∧ recs.length = 256) ∧
      t.hlt.acct = s.hlt.acct.map (fun e => (e.1, { e.2 with leaseChanged := false })) ∧
      (s.hlt.writing = none → t.mem = s.mem))) ∧
  (∀ (seq : Nat) (recs : List (List Byte)) (s : State), s.hlt.writing = some (seq, recs) →
    ∃ t, exec .tallySetWritten s = .next t ∧ (t = { s with
      mem := memWrite (tallyBase + seq % 64 * 32768) recs.flatten s.mem
      hlt := { s.hlt with writing := none, tally := 2 ^ 25 + seq % 64 * 2 ^ 18 + seq % 2 ^ 18 } })) ∧
  (∀ (seq : Nat) (recs : List (List Byte)) (s : State), s.hlt.writing = some (seq, recs) →
    ∃ t, exec .tallyWriteDeadline s = .next t ∧
     (eventBit t .tallyLate = true ∧ s.hlt.minute * 1000000000 + 1000000 ≤ t.tmu.now ∧ t.hlt = s.hlt ∧ t.mem = s.mem))

/-- The fine wheel advances at the next network time that is a multiple of 256 ns. (R64) -/
def Obligations.FineWheelTicksAtMultiplesOf256 : Prop :=
  (∀ seconds : Nat, seconds * 1000000000 % 256 = 0) ∧
  ∀ s : State, inService s = true →
    ∃ t, exec .fineTick s = .next t ∧
     (t.tmu.now % 256 = 0 ∧ s.tmu.now ≤ t.tmu.now ∧ (∀ m, m % 256 = 0 → s.tmu.now < m → t.tmu.now ≤ m) ∧
      t.wei.fineAt = t.tmu.now ∧
      (∀ q slot, (queueOf s q).pacing = .fine slot → (queueOf s q).e / 65536 / 256 ≤ t.tmu.now / 256 →
        queueOf t q = { queueOf s q with pacing := .pacer }) ∧
      (∀ q slot, (queueOf s q).pacing = .fine slot → t.tmu.now / 256 < (queueOf s q).e / 65536 / 256 →
        queueOf t q = queueOf s q))

/-- COARSE_TICK moves due queues to the fine wheel; PACER_RELEASE makes a queue eligible at E. (Weir: Traffic Shaping and
Policing) -/
def Obligations.CoarseWheelAndPacer : Prop :=
  (∀ s : State, inService s = true →
    ∃ t, exec .coarseTick s = .next t ∧
     (t.tmu.now % 1048576 = 0 ∧ s.tmu.now ≤ t.tmu.now ∧ (∀ m, m % 1048576 = 0 → s.tmu.now < m → t.tmu.now ≤ m) ∧
      t.wei.coarseAt = t.tmu.now ∧
      (∀ q slot, (queueOf s q).pacing = .coarse slot → (queueOf s q).e / 65536 / 1048576 ≤ t.tmu.now / 1048576 →
        queueOf t q = { queueOf s q with pacing := .fine ((queueOf s q).e / 65536 / 256 % 4096) }))) ∧
  (∀ (queue : Nat) (s : State), inService s = true → (queueOf s queue).pacing = .pacer →
    ∃ t, exec (.pacerRelease queue) s = .next t ∧
     (t.tmu.now = max s.tmu.now (cdiv (queueOf s queue).e 65536) ∧
      queueOf t queue = { queueOf s queue with pacing := .eligible, fresh := (queueOf t queue).fresh }))

/-- At a transmit opportunity a port serves CONTROL, then STEP, then DRR; the frame goes out under the active key and the
next nonce. (Weir: Traffic Shaping and Policing, Fabric Ports, Transport and Windows) -/
def Obligations.PortServesControlStepThenDrr : Prop :=
  (∀ (at_ port q : Nat) (s : State) (f : Frame) (r : List Frame) (v : Nat),
    port < 8 → portUp s port = true → (q = 0 ∨ (q = 1 ∧ (queueOf s 0).on port = [])) →
    (queueOf s q).on port = f :: r → (wireOf s f.dike).active = some v →
    Tab.getD s.fab.nonce (f.dike * 2 + v) 1 < lastNonce →
    ∃ t, exec (.transmitOpportunity at_ port) s = .next t ∧
       ((queueOf t q).on port = r ∧ (∀ k, k ≠ q → queueOf t k = queueOf s k) ∧
        (∃ payload, t.fab.wire = s.fab.wire ++ [(port, sentFrame s q port v payload f)]) ∧
        Tab.getD t.fab.nonce (f.dike * 2 + v) 1 = Tab.getD s.fab.nonce (f.dike * 2 + v) 1 + 1)) ∧
  (∀ (at_ port q : Nat) (s : State) (f : Frame) (r : List Frame) (rest : List Nat) (v : Nat),
    port < 8 → portUp s port = true → (queueOf s 0).on port = [] → (queueOf s 1).on port = [] →
    activeOf s port = q :: rest → (queueOf s q).on port = f :: r →
    (packetCost f ≤ Tab.getD (queueOf s q).deficit port 0 + (if (queueOf s q).fresh.contains port then (queueOf s q).quantum else 0)) →
    (wireOf s f.dike).active = some v → Tab.getD s.fab.nonce (f.dike * 2 + v) 1 < lastNonce →
    ∃ t, exec (.transmitOpportunity at_ port) s = .next t ∧
       ((queueOf t q).on port = r ∧
        (∃ payload, t.fab.wire = s.fab.wire ++ [(port, sentFrame s q port v payload f)]) ∧
        Tab.getD t.fab.nonce (f.dike * 2 + v) 1 = Tab.getD s.fab.nonce (f.dike * 2 + v) 1 + 1))

/-- Slots open and weights are prefetched, come in, or are late, as the tide table says. (Time, the Step Grid and the Tide
Table, Models, Weights and Adapters) -/
def Obligations.SlotsAndPrefetches : Prop :=
  (∀ (slot : Nat) (s : State) (e : TideEntry),
    slotAt s slot = some e → inService s = true → s.tmu.opened.contains slot = false →
    ∃ t, exec (.slotOpen slot) s = .next t ∧
       (t.tmu = { s.tmu with now := max s.tmu.now (slotInstant s e e.opens), opened := s.tmu.opened ++ [slot] })) ∧
  (∀ (slot key : Nat) (s : State) (e : TideEntry) (c : Ctx) (l : LayerDesc),
    prefetchOf s slot = some (e, key, c, l) → inService s = true → Tab.has key s.mdl.loads = false →
    ∃ t, exec (.prefetchIssue slot) s = .next t ∧ (t = { s with
        tmu := { s.tmu with now := max s.tmu.now (slotInstant s e e.pfIssue) }
        mdl := { s.mdl with loads := Tab.put key .issued s.mdl.loads } })) ∧
  (∀ (slot key : Nat) (s : State) (e : TideEntry) (c : Ctx) (l : LayerDesc),
    prefetchOf s slot = some (e, key, c, l) → inService s = true →
    (Tab.look key s.mdl.loads = some .issued ∨ Tab.look key s.mdl.loads = some .late) →
    ∃ t, exec (.prefetchComplete slot) s = .next t ∧
       ((weightsGood s e.context (e.layer + 1) c l = true → Tab.look key t.mdl.loads = some .staged ∧
          ∀ k, k ≠ key → Tab.look k t.mdl.loads = Tab.look k s.mdl.loads) ∧
        (weightsGood s e.context (e.layer + 1) c l = false → t.mdl.loads = s.mdl.loads))) ∧
  (∀ (slot key : Nat) (s : State) (e : TideEntry) (c : Ctx) (l : LayerDesc),
    prefetchOf s slot = some (e, key, c, l) → inService s = true → Tab.look key s.mdl.loads = some .issued →
    liveTime s = true →
    ∃ t, exec (.prefetchDeadline slot) s = .next t ∧
       (t.tmu.now = max s.tmu.now (slotInstant s e e.pfDeadline) ∧
        t.mdl = { s.mdl with loads := Tab.put key .late s.mdl.loads } ∧
        eventBit t .weightsLate = true ∧ min (counter s cWLate + 1) sMax ≤ counter t cWLate)) ∧
  (∀ (slot key remaining : Nat) (s : State) (e : TideEntry) (c : Ctx) (l : LayerDesc),
    prefetchOf s slot = some (e, key, c, l) → inService s = true → Tab.look key s.mdl.loads = some .late →
    ∃ t, exec (.slackExhausted slot remaining) s = .next t ∧
       (t.tmu.now = max s.tmu.now (if slackLeft s = 0 then slotInstant s e e.pfDeadline else waitFrom s e + cyclesNs (slackLeft s)) ∧
        (Tab.look key t.mdl.loads = some .spillway ∨ Tab.look key t.mdl.loads = some .stopped) ∧
        eventBit t .spillwayEngaged = true ∧ min (counter s cSpill + 1) sMax ≤ counter t cSpill))

/-- ITEM_COMPLETE marks the item, IMAGE_SWAP_COMPLETE makes the context resident, CONTEXT_FILL_COMPLETE fills it. (The
Attention Pipeline, Models, Weights and Adapters) -/
def Obligations.ItemsAndImages : Prop :=
  (∀ (item : Nat) (u : ItemUse) (s : State) (i : Item),
    s.car.items.find? (fun j => j.id == item && j.step == stepNo s) = some i → inService s = true →
    itemReady s i = true →
    ∃ t, exec (.itemComplete item u) s = .next t ∧
       (itemsOf t = itemsOf (if (readyBatch s i).isEmpty then markDone i.id s else markRan i.id (readyBatch s i) s) ∨
        ((i.kind = .da ∨ i.kind = .dh ∨ i.kind = .pa ∨ i.kind = .ps ∨ i.kind = .rb) ∧ itemsOf t = itemsOf s))) ∧
  (∀ (cluster c : Nat) (s : State),
    Tab.look cluster s.mdl.swapping = some c → inService s = true →
    (∀ x ∈ Tab.getD s.mdl.assigned cluster [], x = c ∨ x ∈ Tab.getD s.mdl.resident cluster []) →
    ∃ t, exec (.imageSwapComplete cluster) s = .next t ∧
       (Tab.look cluster t.mdl.swapping = none ∧
        Tab.look cluster t.mdl.resident = some (Tab.getD s.mdl.resident cluster [] ++ [c]) ∧
        counter t cSwap = min (counter s cSwap + 1) sMax)) ∧
  (∀ (context : Nat) (s : State) (c : Ctx),
    Tab.look context s.mdl.ctxs = some c → c.state = .loading →
    ∃ t, exec (.contextFillComplete context) s = .next t ∧
       (Tab.look context t.mdl.ctxs = some { c with
          filled := true, cells := some (cellsIn s.mem (c.layers.flatMap (layerSpans s.mem c))) } ∧
        (∀ k, k ≠ context → Tab.look k t.mdl.ctxs = Tab.look k s.mdl.ctxs) ∧ Only [.mdl, .hif, .hlt, .status] s t))

/-- Requests, queries, cancels and pauses wait for their action at the boundary; a ring-set verdict is noted. (Sequences,
Steps and Admission) -/
def Obligations.RequestsWaitForTheirBoundary : Prop :=
  (∀ (r : Request) (s : State),
    takesFrom s r.gateway = true → roleP s = true →
    ∃ t, exec (.request r) s = .next t ∧
       (t.sqs.waiting = s.sqs.waiting ++ [⟨3, r.tenant, r.gateway, r.sseq, 0, .ingress r⟩])) ∧
  (∀ (m : MsgIn) (s : State) (q : Query),
    takesFrom s m.source = true → roleC s = true → readQuery m.source m.bytes = some q →
    ∃ t, exec (.admitQuery m) s = .next t ∧ (t.sqs.waiting = s.sqs.waiting ++
        [if q.fork then ⟨4, q.tenant, m.source, q.sseq, 0, .join (.fork q)⟩
         else if isSegmentQuery s q then ⟨4, q.tenant, m.source, q.sseq, 0, .join (.segment m.source m.bytes)⟩
         else ⟨3, q.tenant, m.source, q.sseq, 0, .ask q⟩])) ∧
  (∀ (c : Named) (s : State),
    takesFrom s c.source = true → roleC s = true →
    ∃ t, exec (.cancel c) s = .next t ∧
       (t.sqs.waiting = s.sqs.waiting ++ [⟨1, c.tenant, c.source, c.sseq, 0, .cancel c.requestId⟩])) ∧
  (∀ (c : Named) (s : State),
    takesFrom s c.source = true → roleP s = true → keeperAsked s c.tenant c.requestId = none →
    ∃ t, exec (.cancel c) s = .next t ∧ (t.sqs.waiting = s.sqs.waiting ∧ eventBit t .cancelUnknown = true)) ∧
  (∀ (c : Named) (s : State),
    takesFrom s c.source = true → roleC s = true →
    ∃ t, exec (.pause c) s = .next t ∧
       (t.sqs.waiting = s.sqs.waiting ++ [⟨1, c.tenant, c.source, c.sseq, 0, .pause c.requestId⟩])) ∧
  (∀ (m : MsgIn) (s : State) (v : Verdict),
    takesFrom s m.source = true → roleC s = true → readVerdict m.bytes = some v →
    ∃ t, exec (.verdict m) s = .next t ∧ (t.sqs.ringAsks = s.sqs.ringAsks.map (fun a =>
        if a.query.tenant = v.tenant ∧ a.query.requestId = v.requestId ∧ a.members.contains m.source ∧
            !a.answers.any (fun x => x.1 == m.source) then
          { a with answers := a.answers ++ [(m.source, v.outcome, v.reason, v.step, v.handle)] }
        else a)))

/-- The keeper takes GRANT_ACK, PULSE, TOKEN_NOTE, STATE_PUSH and RELEASE of its owner; a stale epoch is refused. (Sluice:
Ownership and Handoff of Request State) -/
def Obligations.KeeperTakesMessages : Prop :=
  (∀ (m : MsgIn) (s : State) (h : Slu) (slot : Nat) (r : OwnRec),
    KeeperGets 0x31 m s h slot r → h.epoch = r.epoch → (r.state = .offered ∨ r.state = .reissued) →
    ∃ t, exec (.grantAck m) s = .next t ∧
       (recAt t slot = some { heardFrom m r with state := .held, acked := true, quiet := 0, arriving := false })) ∧
  (∀ (m : MsgIn) (s : State) (h : Slu) (slot : Nat) (r : OwnRec),
    KeeperGets 0x34 m s h slot r → h.epoch = r.epoch →
    ∃ t, exec (.pulse m) s = .next t ∧ (recAt t slot = some (heardFrom m r))) ∧
  (∀ (m : MsgIn) (s : State) (h : Slu) (slot : Nat) (r : OwnRec),
    KeeperGets 0x34 m s h slot r → h.epoch ≠ r.epoch →
    ∃ t, exec (.pulse m) s = .next t ∧
       (t.slc = s.slc ∧ eventBit t .epochStaleRefused = true ∧ min (counter s cStale + 1) sMax ≤ counter t cStale)) ∧
  (∀ (m : MsgIn) (s : State) (h : Slu) (slot : Nat) (r : OwnRec),
    KeeperGets 0x35 m s h slot r → h.epoch = r.epoch → fld m.bytes 32 4 = (histOf s slot).length →
    ∃ t, exec (.tokenNote m) s = .next t ∧
       (histOf t slot = histOf s slot ++ [fld m.bytes 36 4] ∧
        recAt t slot = some { heardFrom m r with draws := fld m.bytes 40 8 })) ∧
  (∀ (m : MsgIn) (s : State) (h : Slu) (slot : Nat) (r : OwnRec),
    KeeperGets 0x32 m s h slot r → h.epoch = r.epoch → r.state ≠ .rehoming → h.tail = false →
    ∃ t, exec (.statePush m) s = .next t ∧
       (recAt t slot = some { heardFrom m r with draws := (readStateRec m.bytes 32).draws })) ∧
  (∀ (m : MsgIn) (s : State) (h : Slu) (slot : Nat) (r : OwnRec),
    KeeperGets 0x33 m s h slot r → h.epoch = r.epoch → memberOf s m.source h.seq = none →
    ∃ t, exec (.release m) s = .next t ∧
       (t.sqs.waiting = s.sqs.waiting ++ [⟨1, h.tenant, m.source, h.sseq, 0, .release m.bytes m.port⟩] ∧
        recAt t slot = some (heardFrom m r)))

/-- The owner takes GRANT, NOTE_ACK, REJECT, RECALL and HISTORY_QUERY of its keeper. (Sluice: Ownership and Handoff of
Request State) -/
def Obligations.OwnerTakesMessages : Prop :=
  (∀ (m : MsgIn) (s : State) (h : Slu),
    takesFrom s m.source = true → roleC s = false → readSlu m.bytes = some h → h.kind = 0x30 → fld m.bytes 36 1 ≠ 2 →
    s.sqs.waiting.any (fun p => p.grantOf m.source h.seq h.epoch) = false →
    ∃ t, exec (.grant m) s = .next t ∧ (t.sqs.waiting = s.sqs.waiting ++
        [⟨4, h.tenant, m.source, h.sseq, stepFrom s (fld m.bytes 38 6), .join (.handoff m.bytes m.source)⟩])) ∧
  (∀ (m : MsgIn) (s : State) (h : Slu) (slot : Nat) (o : Owned) (e : Seq),
    OwnerGets 0x30 m s h slot o e → fld m.bytes 36 1 = 2 →
    ∃ t, exec (.grant m) s = .next t ∧ (∃ x p, seqAt t slot = some x ∧ x.ownEpoch = h.epoch ∧ ownedAt t slot = some p ∧
        p.heldSince = none ∧ p.silent = 0 ∧ p.answered = true ∧ p.ackedHeld = [])) ∧
  (∀ (m : MsgIn) (s : State) (h : Slu) (slot : Nat) (a : Nat × Nat × Nat) (o : Owned) (e : Seq),
    OwnerGets 0x36 m s h slot o e → o.awaiting.find? (fun b => b.1 == fld m.bytes 32 4) = some a →
    o.muteAfter = none → o.heldSince = none →
    ∃ t, exec (.noteAck m) s = .next t ∧
       (ownedAt t slot = some { o with answered := true, awaiting := o.awaiting.filter (fun b => b.1 != fld m.bytes 32 4) } ∧
        t.sqs.batch = s.sqs.batch ++
          (match o.ending.filter (fun _ => fld m.bytes 32 4 + 1 == o.histFirst + o.tokens.length) with
            | some cause => [⟨e.tenant, e.gateway, e.requestId, a.2.1, 0, 2, 0, a.2.2⟩,
                ⟨e.tenant, e.gateway, e.requestId, Config.none32, 1, 0, cause, 0⟩]
            | none => [⟨e.tenant, e.gateway, e.requestId, a.2.1, 0, 0, 0, a.2.2⟩]))) ∧
  (∀ (m : MsgIn) (s : State) (h : Slu) (slot : Nat) (a : Nat × Nat × Nat) (o : Owned) (e : Seq),
    OwnerGets 0x36 m s h slot o e → o.awaiting.find? (fun b => b.1 == fld m.bytes 32 4) = some a →
    o.heldSince.isSome = true →
    ∃ t, exec (.noteAck m) s = .next t ∧
       (ownedAt t slot = some { o with answered := true, ackedHeld := distinct (o.ackedHeld ++ [fld m.bytes 32 4]) } ∧
        t.sqs.batch = s.sqs.batch)) ∧
  (∀ (m : MsgIn) (s : State) (h : Slu) (slot : Nat) (o : Owned) (e : Seq),
    OwnerGets 0x37 m s h slot o e → h.epoch = e.ownEpoch → o.superseded = false →
    ∃ t, exec (.reject m) s = .next t ∧
       (ownedAt t slot = some { o with answered := true, superseded := true, releaseAt := some (stepNo s + 1) } ∧
        eventBit t .ownerSuperseded = true)) ∧
  (∀ (m : MsgIn) (s : State) (h : Slu) (slot : Nat) (o : Owned) (e : Seq),
    OwnerGets 0x38 m s h slot o e → h.epoch = e.ownEpoch →
    ∃ t, exec (.recall m) s = .next t ∧
       (ownedAt t slot = some (if fld m.bytes 32 1 = 2 then { o with answered := true, muteAfter := some (fld m.bytes 34 6) }
          else { o with answered := true, releaseAt := some (stepFrom s (fld m.bytes 34 6)) }))) ∧
  (∀ (m : MsgIn) (s : State) (h : Slu) (slot : Nat) (o : Owned) (e : Seq),
    takesFrom s m.source = true → roleC s = false → readSlu m.bytes = some h → h.kind = 0x39 →
    findRequest s h.tenant h.requestId = some slot → seqAt s slot = some e → ownedAt s slot = some o →
    epochLater h.epoch e.ownEpoch = true →
    ∃ t, exec (.historyQuery m) s = .next t ∧
       (ownedAt t slot = some { o with superseded := true, releaseAt := some (stepNo s + 1) }))

/-- A reissue unacknowledged orphans the sequence; a rehoming that timed out is re-prefilled; a rehome wait that passed
releases. (Sluice: Ownership and Handoff of Request State) -/
def Obligations.SluiceTimers : Prop :=
  (∀ (slot : Nat) (s : State) (e : Seq) (r : OwnRec),
    inService s = true → seqAt s slot = some e → recAt s slot = some r → r.state = .reissued →
    ∃ t, exec (.reissueAckTimeout slot) s = .next t ∧
       (recAt t slot = some { r with
          state := .orphaned, epoch := nextEpoch r.epoch, quiet := 0, acked := false, next := Config.none32, granted := false
          outgoing := none, policyDue := true } ∧
        seqAt t slot = some { e with source := r.owner, ownEpoch := nextEpoch r.epoch, state := .orphaned } ∧
        eventBit t .sequenceOrphaned = true)) ∧
  (∀ (slot : Nat) (s : State) (e : Seq) (r : OwnRec),
    inService s = true → seqAt s slot = some e → recAt s slot = some r → r.state = .rehoming →
    ∃ t, exec (.rehomingTimeout slot) s = .next t ∧
       (t = { s with
          tmu := { s.tmu with now := max s.tmu.now (r.sentAt + periodNs s) }
          sqs := { s.sqs with waiting := s.sqs.waiting ++ (if resumePending s slot e.handle then [] else
            [⟨4, e.tenant, s.fab.node, 0, 0, .join (.reprefill slot e.handle)⟩]) } })) ∧
  (∀ (slot n : Nat) (s : State) (o : Owned),
    inService s = true → ownedAt s slot = some o → o.heldSince = some n → n + s.stw.charter.rehomeWait ≤ stepNo s →
    ∃ t, exec (.rehomeWaitExpired slot) s = .next t ∧
       (ownedAt t slot = some { o with releaseAt := some (stepNo s + 1), superseded := true } ∧
        t = { s with sqs := { s.sqs with owned := t.sqs.owned } }))

/-- HIDDEN_STATE makes rows; RING_BLOCK, PROBE and FOLD_RECORD are kept for their engine; a silent member is lost. (The
Attention Pipeline, Sequences, Steps and Admission) -/
def Obligations.HiddenStatesAndRingMessages : Prop :=
  (∀ (offsetNs slot : Nat) (h : Hidden) (s : State) (e : Seq) (c : Ctx),
    takesFrom s h.source = true → roleC s = true → entryNamed s h.source h.handle = some slot →
    seqAt s slot = some e → ctxOf s h.context = some c → h.epoch = e.ownEpoch → h.context = e.context →
    h.layer < c.layers.length → (h.rows ≠ [] ∧ h.rows.length ≤ 512) → (∀ x ∈ h.rows, x.length = c.width) →
    h.damage = 0 →
    ∃ t, exec (.hiddenState offsetNs h) s = .next t ∧
       ((∀ r ∈ s.car.rows, r ∈ t.car.rows) ∧
        ∀ (i : Nat) (x : List Nat) (pre resume : Bool), h.rows[i]? = some x →
          planned e (h.firstPos + i) = some (pre, resume) → rowAt s e.handle h.layer (h.firstPos + i) = none →
          ∃ r ∈ t.car.rows, r.handle = e.handle ∧ r.layer = h.layer ∧ r.pos = h.firstPos + i ∧ r.x = x ∧
            r.prefill = pre ∧ r.noAppend = resume ∧ r.submitter = h.source)) ∧
  (∀ (offsetNs : Nat) (h : Hidden) (s : State),
    takesFrom s h.source = true → roleC s = true → h.damage ≠ 0 →
    ∃ t, exec (.hiddenState offsetNs h) s = .next t ∧ (t.car = s.car ∧ t.sqs = s.sqs ∧ eventBit t .blockDamaged = true)) ∧
  (∀ (m : MsgIn) (s : State) (h : RingHdr) (slot : Nat) (e : Seq) (bs : List Byte),
    RingGets 1 m s h slot e → expandWire s h.payload = .ok bs →
    ∃ t, exec (.ringBlock m) s = .next t ∧
       ((∃ b, heldRing h e b ∈ t.car.ringMsgs) ∧ ∀ r ∈ s.car.ringMsgs, ∃ b, { r with forwarded := b } ∈ t.car.ringMsgs)) ∧
  (∀ (m : MsgIn) (s : State) (h : RingHdr) (slot : Nat) (e : Seq) (d : Damage),
    RingGets 1 m s h slot e → expandWire s h.payload = .error d →
    ∃ t, exec (.ringBlock m) s = .next t ∧ (t.car.ringMsgs = s.car.ringMsgs ∧ eventBit t .blockDamaged = true)) ∧
  (∀ (m : MsgIn) (s : State) (h : RingHdr) (slot : Nat) (e : Seq),
    takesFrom s m.source = true → roleC s = true → readRing 1 m.bytes = some h →
    entryNamed s m.source h.seq = some slot → seqAt s slot = some e → h.epoch = e.ownEpoch →
    s.car.ringMsgs.any (fun r => r.handle == e.handle && r.layer == h.layer && r.step == h.step &&
      r.member == h.member && r.kind == 1 && r.firstPos == h.firstPos) = true →
    ∃ t, exec (.ringBlock m) s = .next t ∧
       (t.car.ringMsgs = s.car.ringMsgs ∧ eventBit t .ringDuplicate = true ∧
        min (counter s cRingDup + 1) sMax ≤ counter t cRingDup)) ∧
  (∀ (m : MsgIn) (s : State) (h : RingHdr) (slot : Nat) (e : Seq),
    takesFrom s m.source = true → roleC s = true → readRing 1 m.bytes = some h →
    entryNamed s m.source h.seq = some slot → seqAt s slot = some e →
    ringEpoch slot m.source h.epoch e (consumeUnnumbered e.tenant m.source m.bytes s) = none →
    ∃ t, exec (.ringBlock m) s = .next t ∧
       (t.car = s.car ∧ eventBit t .ringEpochStale = true ∧ min (counter s cRingStale + 1) sMax ≤ counter t cRingStale)) ∧
  (∀ (m : MsgIn) (s : State) (h : RingHdr) (slot : Nat) (e : Seq) (c : Ctx),
    RingGets 2 m s h slot e → ctxOf s e.context = some c →
    h.payload.length = c.gqa * c.nKv * c.headDim * c.qFormat.size → e.isMember = true →
    (h.step == stepNo s && pastCutoff s e.context h.layer (s.tmu.now - s.tmu.openedAt)) = false →
    decodeSources s c h.layer e e.segEnd ≠ [] →
    ∃ t, exec (.probe m) s = .next t ∧
       (t.car.ringMsgs = s.car.ringMsgs ++ [heldRing { h with payload := [] } e false] ∧
        t.car.rows = s.car.rows.filter (fun x => !(x.handle == e.handle && x.layer == h.layer && x.noAppend)) ++
          [{ handle := e.handle, context := e.context, layer := h.layer, step := stepNo s, pos := h.firstPos, epoch := h.epoch
             submitter := m.source, prefill := false, noAppend := true, x := [], qr := bytesCodes c.qFormat h.payload
             rotated := true, placed := true }])) ∧
  (∀ (m : MsgIn) (s : State) (h : RingHdr) (slot : Nat) (e : Seq) (c : Ctx),
    RingGets 2 m s h slot e → ctxOf s e.context = some c →
    h.payload.length = c.gqa * c.nKv * c.headDim * c.qFormat.size → e.isMember = true →
    ∃ t, exec (.probe m) s = .next t ∧ (t.car.ringMsgs = s.car.ringMsgs ++ [heldRing { h with payload := [] } e false])) ∧
  (∀ (m : MsgIn) (s : State) (h : RingHdr) (slot : Nat) (e : Seq) (c : Ctx),
    RingGets 3 m s h slot e → ctxOf s e.context = some c →
    h.payload.length = c.gqa * c.nKv * foldHeadBytes (classN s) c.headDim → classN s = true →
    ∃ t, exec (.foldRecord m) s = .next t ∧ (t.car.ringMsgs = s.car.ringMsgs ++ [heldRing h e false])) ∧
  (∀ (slot member : Nat) (s : State) (e : Seq),
    inService s = true → roleC s = true → seqAt s slot = some e → e.isMember = false → member + 1 < e.ringZ →
    e.state ≠ .orphaned → 2 ≤ Tab.getD s.car.ringSilent (e.handle * 64 + member) 0 →
    ∃ t, exec (.ringSilenceTimeout slot member) s = .next t ∧
       (eventBit t .ringMemberLost = true ∧
        (s.stw.charter.kvDurable ≠ 2 → ∀ r, recAt s slot = some r →
          seqAt t slot = some { e with source := r.owner, ownEpoch := nextEpoch r.epoch, state := .orphaned }) ∧
        (∀ n, s.stw.charter.kvDurable = 2 → (rendezvous (requestKey e.tenant e.requestId)
            ((ringSetMembers s).filter (fun n => !e.ringNodes.contains n))).head? = some n →
          seqAt t slot = some { e with ringNodes := e.ringNodes.set member n })))

/-- Fragments are stored, read, freed, acknowledged, placed again and rebuilt. (Compression and Block Integrity) -/
def Obligations.FragmentsOfDurableObjects : Prop :=
  (∀ (m : MsgIn) (s : State) (h : FragHdr),
    FragGets 0x40 m s h →
    ((s.cmp.held.filter (fun x => !x.is h)).map (fun x => x.bytes.length)).sum + h.bytes.length ≤
      s.stw.charter.fragPool * gib →
    ∃ t, exec (.fragmentPut m) s = .next t ∧
       (t.cmp = { s.cmp with held := s.cmp.held.filter (fun x => !x.is h) ++
          [{ keeper := h.keeper, index := h.index, generation := h.generation, frag := h.frag, tenant := h.tenant
             tableId := h.tableId, imageLen := h.imageLen, bytes := h.bytes, crc := crc32c h.bytes }] } ∧
        SentOne s t m.source ({ h with kind := 0x41, status := 0, step := stepNo s, bytes := [] } : FragHdr).whole)) ∧
  (∀ (m : MsgIn) (s : State) (h : FragHdr),
    FragGets 0x40 m s h → s.stw.charter.fragPool * gib <
      ((s.cmp.held.filter (fun x => !x.is h)).map (fun x => x.bytes.length)).sum + h.bytes.length →
    ∃ t, exec (.fragmentPut m) s = .next t ∧
       (t.cmp = s.cmp ∧ eventBit t .fragmentFull = true ∧
        SentOne s t m.source ({ h with kind := 0x41, status := 1, step := stepNo s, bytes := [] } : FragHdr).whole)) ∧
  (∀ (m : MsgIn) (s : State) (h : FragHdr) (x : HeldFrag),
    FragGets 0x42 m s h → s.cmp.held.find? (fun x => x.is h) = some x → crc32c x.bytes = x.crc →
    ∃ t, exec (.fragmentGet m) s = .next t ∧
       (t.cmp = s.cmp ∧ SentOne s t m.source ({ h with
          kind := 0x43, status := 0, step := stepNo s, imageLen := x.imageLen, tableId := x.tableId
          fragLen := x.bytes.length, bytes := x.bytes } : FragHdr).whole)) ∧
  (∀ (m : MsgIn) (s : State) (h : FragHdr),
    FragGets 0x42 m s h → s.cmp.held.find? (fun x => x.is h) = none →
    ∃ t, exec (.fragmentGet m) s = .next t ∧
       (t.cmp = s.cmp ∧ SentOne s t m.source ({ h with
          kind := 0x43, status := 2, step := stepNo s, fragLen := 0, bytes := [] } : FragHdr).whole)) ∧
  (∀ (m : MsgIn) (s : State) (h : FragHdr),
    FragGets 0x44 m s h →
    ∃ t, exec (.fragmentFree m) s = .next t ∧
       (t.cmp = { s.cmp with held := s.cmp.held.filter (fun x => !x.is h) })) ∧
  (∀ (m : MsgIn) (s : State) (h : FragHdr) (i : Nat) (c : Coding),
    FragGets 0x41 m s h → codingOf s h = some (i, c) → c.holders[h.frag]? = some m.source →
    c.acked.contains h.frag = false → h.status = 0 → c.freeing = false →
    ∃ t, exec (.fragmentAck m) s = .next t ∧
       (t.cmp = { s.cmp with coding := Tab.put i { c with acked := c.acked ++ [h.frag] } s.cmp.coding })) ∧
  (∀ (m : MsgIn) (s : State) (h : FragHdr) (i : Nat) (c : Coding),
    FragGets 0x41 m s h → codingOf s h = some (i, c) → c.holders[h.frag]? = some m.source →
    c.acked.contains h.frag = false → h.status = 1 →
    ∃ t, exec (.fragmentAck m) s = .next t ∧
       (∃ hs u, codingAt t i = some { c with
          next := Tab.put h.frag (Tab.getD c.next h.frag 0 + 1) c.next, holders := hs, unprotected := u })) ∧
  (∀ (m : MsgIn) (s : State) (h : FragHdr) (i : Nat) (c : Coding),
    FragGets 0x45 m s h → codingOf s h = some (i, c) → c.holders[h.frag]? = some m.source →
    c.acked.contains h.frag = true →
    ∃ t, exec (.fragmentLost m) s = .next t ∧
       (∃ hs u, codingAt t i = some { c with
          acked := c.acked.filter (· ≠ h.frag), isProtected := false, next := Tab.put h.frag 0 c.next, holders := hs
          unprotected := u })) ∧
  (∀ (m : MsgIn) (s : State) (h : FragHdr) (i : Nat) (c : Coding) (got : Tab (List Byte)),
    FragGets 0x43 m s h → codingOf s h = some (i, c) → h.status = 0 → c.rebuild = some got →
    (Tab.put h.frag h.bytes got).length < 8 →
    ∃ t, exec (.fragmentData m) s = .next t ∧
       (codingAt t i = some { (told c s h) with rebuild := some (Tab.put h.frag h.bytes got) })) ∧
    (∀ (m : MsgIn) (s : State) (h : FragHdr) (i : Nat) (c : Coding) (got : Tab (List Byte)) (d : Desc) (bs : List
    RawBlock),
    FragGets 0x43 m s h → codingOf s h = some (i, c) → h.status = 0 → c.rebuild = some got →
    8 ≤ (Tab.put h.frag h.bytes got).length → descAt s i = some d →
    rebuiltBlocks s d { (told c s h) with rebuild := some (Tab.put h.frag h.bytes got) } (Tab.put h.frag h.bytes got) = some bs →
    ∃ t, exec (.fragmentData m) s = .next t ∧
       ((c.keeper = s.fab.node ∧ c.index = i → codingAt t i = some { c with rebuild := none }) ∧
        ∃ e, descAt t i = some e ∧ e.damaged = false ∧ e.blocks = lockAll (memoryKey s c.tenant) e.homeExt bs)) ∧
  (∀ (m : MsgIn) (s : State) (h : FragHdr) (i : Nat) (c : Coding) (got : Tab (List Byte)) (d : Desc),
    FragGets 0x43 m s h → codingOf s h = some (i, c) → h.status = 0 → c.rebuild = some got →
    8 ≤ (Tab.put h.frag h.bytes got).length → descAt s i = some d →
    rebuiltBlocks s d { (told c s h) with rebuild := some (Tab.put h.frag h.bytes got) } (Tab.put h.frag h.bytes got) = none →
    ∃ t, exec (.fragmentData m) s = .next t ∧
       (codingAt t i = some { (told c s h) with rebuild := some (Tab.put h.frag h.bytes got) } ∧ descAt t i = some d ∧
        eventBit t .blockDamaged = true)) ∧
  (∀ (desc frag d : Nat) (s : State) (c : Coding),
    inService s = true → codingAt s desc = some c → frag < 10 → c.acked.contains frag = false →
    c.holders.getD frag Config.none32 ≠ Config.none32 → c.keeper = s.fab.node →
    fragTry (fragNodes s c.keeper c.index c.generation) frag (Tab.getD c.next frag 0) = some d →
    ∃ t, exec (.fragmentPutTimeout desc frag) s = .next t ∧
       (codingAt t desc = some { c with holders := c.holders.set frag d } ∧
        SentOne s t d (c.header s 0x40 frag (c.frags.getD frag [])).whole)) ∧
  (∀ (desc : Nat) (s : State) (c : Coding),
    inService s = true → codingAt s desc = some c → c.rebuild.isSome = true →
    ∃ t, exec (.rebuildTimeout desc) s = .next t ∧
       (codingAt t desc = some { c with rebuild := none } ∧ eventBit t .rebuildFailed = true))

/-- IN_HEAD_WRITE of a P or G module moves the head; a channel that is on takes every message up to it. (Host Interface
and Register Conventions) -/
def Obligations.InHeadWriteTakesMessages : Prop :=
  ∀ (offsetNs channel head : Nat) (placed : Placed) (s : State),
    inService s = true → roleC s = false → channel < 16 → (channelOf s channel).inTail < inRingSize →
    (channelOf s channel).inTail % 64 = 0 →
    ∃ t, exec (.inHeadWrite offsetNs channel head placed) s = .next t ∧
       (channelOf t channel = { channelOf s channel with
          inHead := head % inRingSize / 64 * 64
          inTail := if channelOn (place placed s) channel then head % inRingSize / 64 * 64 else (channelOf s channel).inTail })

/-- In LEVEL an event's bit reads 1 until the second boundary after it; EVSEQ reads zero; writes are ignored. (R373) -/
def Obligations.LevelBitsLastTwoBoundaries : Prop :=
  ∀ (s : State),
    seqMode s = false →
    (∀ e, eventBit (raise e s) e = true ∧ eventBit (ageStatus (raise e s)) e = true ∧
        eventBit (ageStatus (ageStatus (raise e s))) e = false ∧
        eventBit (ageStatus (raise e (ageStatus (raise e s)))) e = true) ∧
      (∀ a, evseqOf s a = 0) ∧
      (∀ (addr : Nat) (value : Word), exec (.statusAck addr value) s = .next s) ∧
      (∀ (addr block off : Nat) (value : Word), blockWord addr = some (block, off) → addr % 4 = 0 →
        statusWords.contains (regAddr block off) = true → exec (.registerWrite addr value 15) s = .next s)

/-- COUNTER_EVENTS: STATUS sets the bit and sends vector 13, MASKED sets no bit; the counters count alike. (R384) -/
def Obligations.CounterEventsFollowTheCharter : Prop :=
  ∀ (sat : Bool) (block off : Nat) (s : State),
    (counterEvent sat block off s).hlt.counterLast = b2n sat * 2 ^ 31 + block % 16 * 2 ^ 24 + off % 2 ^ 20 ∧
      (s.stw.charter.counterEvents ≠ 1 →
        eventBit (counterEvent sat block off s) (if sat then .saturated else .wrap) = true ∧
        (eventBit s (if sat then .saturated else .wrap) = false →
          Tab.getD (counterEvent sat block off s).hif.msix 13 {} = (Tab.getD s.hif.msix 13 {}).fire s.tmu.now)) ∧
      (s.stw.charter.counterEvents = 1 → (counterEvent sat block off s).status = s.status) ∧
      (counterEvent sat block off s).counters = s.counters ∧
      (∀ a n, counter (bump a n s) a = min (counter s a + n) sMax)

/-- The power log keeps its latest 256 entries, sends each new one, and keeps none across power loss. (R414) -/
def Obligations.PowerLogKeepsLatestEntries : Prop :=
  ∀ (s : State),
    2 ≤ s.stw.powerStep →
    (∀ event cause, loggedPower s s.tmu.now event cause (logPower event cause s)) ∧
      (∃ t, exec .getPowerLog s = .next t ∧ t.sup.answer = s.sup.log.flatten) ∧
      (∀ at_ lowUs, inService s = true → 1000 < lowUs → ∃ t, exec (.pwrGoodFall at_ lowUs) s = .next t ∧ (t.sup.log = []))

/-- The supply: power-good, a short and a long loss of input, brown-out, overvoltage, the end of the bank, reconnection.
(Supply, Signals and Mechanics, Charter and Start-up) -/
def Obligations.SupplyEvents : Prop :=
  (∀ (s : State),
    s.stw.powerStep = 0 → s.sup.disconnected = false → s.sup.failed = false →
    ∃ t, exec .pwrGoodRise s = .next t ∧ (t = { s with
        sup := { s.sup with pwrGood := true }, stw := { s.stw with powerStep := 1, boot := .powering } })) ∧
  (∀ (at_ lowUs : Nat) (s : State),
    inService s = true → 2 ≤ s.stw.powerStep → lowUs ≤ 1000 →
    ∃ t, exec (.pwrGoodFall at_ lowUs) s = .next t ∧
       (loggedPower s (max s.tmu.now at_) 4 0 t ∧ t.sup.pwrGood = true ∧ t.tmu.now = max s.tmu.now at_ ∧
        t.stw = s.stw ∧ t.sqs = s.sqs ∧ t.car = s.car)) ∧
  (∀ (at_ lowUs : Nat) (s : State),
    inService s = true → 2 ≤ s.stw.powerStep → 1000 < lowUs →
    ∃ t, exec (.pwrGoodFall at_ lowUs) s = .next t ∧ (PoweredOff s t ∧ t.sup.failed = true ∧ t.sup.pwrGood = false)) ∧
  (∀ (s : State),
    startingUp s = true → s.sup.brown = true →
    ∃ t, exec .brownWarnTimeout s = .next t ∧ (PoweredOff s t ∧ t.stw.restarts = min 255 (s.stw.restarts + 1))) ∧
  (∀ (at_ volts bank : Nat) (s : State),
    2 ≤ s.stw.powerStep → s.sup.brown = false → (volts < 4000 ∨ bank ≤ 200) →
    ∃ t, exec (.inputLow at_ volts bank) s = .next t ∧
       (t.sup.brown = true ∧ t.sup.volts = volts ∧ t.sup.bank = bank ∧ t.tmu.now = max s.tmu.now at_ ∧
        t.sup.log = (s.sup.log ++ [powerEntry (max s.tmu.now at_) 1 0 (min s.sup.lowest volts) bank]).drop
          (s.sup.log.length + 1 - 256) ∧ t.stw = s.stw)) ∧
  (∀ (at_ volts bank : Nat) (s : State),
    2 ≤ s.stw.powerStep → s.sup.brown = true → 4200 ≤ volts → 200 ≤ bank →
    ∃ t, exec (.inputRestored at_ volts bank) s = .next t ∧
       (t.sup.brown = false ∧ t.sup.volts = volts ∧ t.sup.bank = bank ∧ t.tmu.now = max s.tmu.now at_ ∧
        t.sup.log = (s.sup.log ++ [powerEntry (max s.tmu.now at_) 2 0 (min s.sup.lowest volts) bank]).drop
          (s.sup.log.length + 1 - 256) ∧ t.stw = s.stw)) ∧
  (∀ (at_ volts : Nat) (s : State),
    s.stw.powerStep ≠ 0 → 7200 < volts → s.sup.disconnected = false →
    ∃ t, exec (.overvoltage at_ volts) s = .next t ∧
       (PoweredOff s t ∧ t.sup.failed = true ∧ t.sup.disconnected = true ∧ t.sup.volts = volts)) ∧
  (∀ (at_ : Nat) (s : State),
    s.stw.powerStep ≠ 0 →
    ∃ t, exec (.bankReserveReached at_) s = .next t ∧ (PoweredOff s t ∧ t.sup.failed = true ∧ t.sup.bank = 0)) ∧
  (∀ (at_ : Nat) (s : State),
    (s.sup.disconnected = true ∨ s.sup.failed = true) → s.stw.powerStep = 0 →
    ∃ t, exec (.inputReconnect at_) s = .next t ∧
       (t.sup.disconnected = false ∧ t.sup.failed = false ∧ t.sup.pwrGood = true ∧ 4200 ≤ t.sup.volts ∧ t.sup.volts ≤ 7200 ∧
        (4200 ≤ s.sup.volts ∧ s.sup.volts ≤ 7200 → t.sup.volts = s.sup.volts) ∧ t.stw.powerStep = 1 ∧ t.stw.boot = .powering))

/-- Heat and power findings are logged, a thermal trip powers off, and the sideband answers. (Supply, Signals and
Mechanics) -/
def Obligations.HeatPowerAndSideband : Prop :=
  (∀ (at_ die : Nat) (s : State),
    2 ≤ s.stw.powerStep → die < 20 → s.sup.hot.contains die = false →
    ∃ t, exec (.thermalHigh at_ die) s = .next t ∧
       (loggedPower s (max s.tmu.now at_) 6 0 t ∧ t.sup.hot = s.sup.hot ++ [die] ∧ t.stw = s.stw ∧
        t.tmu = { s.tmu with now := max s.tmu.now at_ })) ∧
  (∀ (die : Nat) (s : State),
    ∃ t, exec (.thermalExcursionEnd die) s = .next t ∧
       (t = { s with sup := { s.sup with hot := s.sup.hot.filter (fun d => decide (d ≠ die)) } })) ∧
  (∀ (at_ die : Nat) (s : State),
    s.stw.powerStep ≠ 0 → die < 20 →
    ∃ t, exec (.thermalTrip at_ die) s = .next t ∧ (PoweredOff s t ∧ t.sup.failed = true ∧ SamePins s t)) ∧
  (∀ (at_ watts : Nat) (s : State),
    inService s = true → 2 ≤ s.stw.powerStep → s.stw.charter.powerCap < watts →
    ∃ t, exec (.powerOver at_ watts) s = .next t ∧
       (loggedPower s (max s.tmu.now at_) 8 0 t ∧ eventBit t .powerOver = true ∧
        counter t cPowerOver = min (counter s cPowerOver + 1) sMax ∧ t.stw = s.stw)) ∧
  (∀ (v : Sensors) (s : State),
    2 ≤ s.stw.powerStep →
    ∃ t, exec (.getSensors v) s = .next t ∧ (t = { s with sup := { s.sup with answer := sensorBytes v } })) ∧
  (∀ (s : State),
    2 ≤ s.stw.powerStep →
    ∃ t, exec .getIdentity s = .next t ∧ (t = { s with sup := { s.sup with answer := s.sec.identity } })) ∧
  (∀ (s : State),
    2 ≤ s.stw.powerStep →
    ∃ t, exec .getPowerLog s = .next t ∧ (t = { s with sup := { s.sup with answer := s.sup.log.flatten } })) ∧
  (∀ (address : Nat) (s : State),
    2 ≤ s.stw.powerStep →
    ∃ t, exec (.dynamicAddressAssignment address) s = .next t ∧
       (t = { s with sup := { s.sup with address := address % 128 } }))

/-- PERST, link changes and an IDE failure move a CXL port; a port barred by IDE does not come up. (Host Interface and
Register Conventions) -/
def Obligations.CxlPortsComeAndGo : Prop :=
  (∀ (port : Nat) (s : State),
    port < 2 →
    ∃ t, exec (.perstAssert port) s = .next t ∧
       (cxlOf t port = { cxlOf s port with rate := 0, width := 0, perst := true } ∧
        ((cxlOf s port).width ≠ 0 → eventBit t .cxlPortChanged = true))) ∧
  (∀ (port rate width : Nat) (s : State),
    port < 2 → 2 ≤ s.stw.powerStep → (cxlOf s port).ideDown = false → (rate = 1 ∨ rate = 2) → 0 < width →
    width ≤ 16 →
    ∃ t, exec (.cxlLinkChange port rate width) s = .next t ∧
       (cxlOf t port = { cxlOf s port with rate := rate, width := width, perst := false } ∧
        ((cxlOf s port).width ≠ width → eventBit t .cxlPortChanged = true))) ∧
  (∀ (port rate : Nat) (s : State),
    port < 2 → 2 ≤ s.stw.powerStep →
    ∃ t, exec (.cxlLinkChange port rate 0) s = .next t ∧
       (cxlOf t port = { cxlOf s port with rate := 0, width := 0 } ∧
        ((cxlOf s port).width ≠ 0 → eventBit t .cxlPortChanged = true))) ∧
  (∀ (port rate width : Nat) (s : State),
    (cxlOf s port).ideDown = true → 0 < width →
    ∃ t, exec (.cxlLinkChange port rate width) s = .next t ∧ (t = s)) ∧
  (∀ (port : Nat) (s : State),
    port < 2 → (cxlOf s port).live = true →
    ∃ t, exec (.ideIntegrityFailure port) s = .next t ∧
       (cxlOf t port = { cxlOf s port with rate := 0, width := 0, ide := false, ideDown := true } ∧
        eventBit t .cxlPortChanged = true))

/-- Power-up steps, the boot ROM, the image start, the steward's checks and SERVICE. (Charter and Start-up) -/
def Obligations.StartUpRuns : Prop :=
  (∀ (s : State),
    s.sup.brown = false → s.stw.powerStep < 24 →
    (s.stw.boot = .powering ∧ s.stw.powerStep = 1 ∨ s.stw.boot = .starting ∧ 2 ≤ s.stw.powerStep) →
    ∃ t, exec .powerStepInterval s = .next t ∧ (t = { s with stw := { s.stw with
        powerStep := s.stw.powerStep + 1, boot := if s.stw.powerStep = 1 then .bootRom else s.stw.boot } })) ∧
  (∀ (s : State),
    s.sup.brown = true →
    ∃ t, exec .powerStepInterval s = .next t ∧ (t = s)) ∧
  (∀ (o : BootOps) (s : State),
    s.stw.boot = .bootRom → o.flashOk = false →
    ∃ t, exec (.bootRomStart o) s = .next t ∧ (t.stw = { s.stw with
        charter := (readCharter (List.replicate charterBytes 0xFF#8)).1
        report := (readCharter (List.replicate charterBytes 0xFF#8)).2.2
        boot := .recovery, cause := 1, recovery := .wait, received := [] })) ∧
  (∀ (o : BootOps) (s : State),
    s.stw.boot = .bootRom → o.flashOk = true → imageCause s (flashImage s) o.sigOk = 0 →
    ∃ t, exec (.bootRomStart o) s = .next t ∧
       (t.stw = { s.stw with
          charter := (readCharter (flashBytes s charterBase charterBytes)).1
          report := (readCharter (flashBytes s charterBase charterBytes)).2.2
          boot := .starting, cause := 0 } ∧
        t.sec.running = flashImage s ∧ t.sec.nonce = fit 16 o.nonce ∧ t.sec.events = s.sec.events + 4)) ∧
  (∀ (o : BootOps) (s : State),
    s.stw.boot = .bootRom → o.flashOk = true → imageCause s (flashImage s) o.sigOk ≠ 0 →
    ∃ t, exec (.bootRomStart o) s = .next t ∧
       (t.stw.boot = .recovery ∧ t.stw.cause = 2 ∧ t.stw.recovery = .wait ∧ t.stw.received = [] ∧
        t.stw.charter = (readCharter (flashBytes s charterBase charterBytes)).1 ∧
        t.sec.updCause = imageCause s (flashImage s) o.sigOk ∧ eventBit t .imageRefused = true)) ∧
  (∀ (s : State),
    s.stw.boot = .starting → s.stw.powerStep = 2 →
    ∃ t, exec .imageStartTimeout s = .next t ∧
       (t = { s with stw := { s.stw with boot := .recovery, cause := 3, recovery := .wait, received := [] } })) ∧
  (∀ (links : List Nat) (failed : List (Nat × Nat)) (s : State),
    s.stw.boot = .starting → 20 ≤ s.stw.powerStep → s.stw.checked = false → steppingsOk s = false →
    ∃ t, exec (.stewardStart links failed) s = .next t ∧ (t = { s with stw := { s.stw with boot := .halted, cause := 4 } })) ∧
  (∀ (failed : List (Nat × Nat)) (s : State),
    s.stw.boot = .starting → 20 ≤ s.stw.powerStep → s.stw.checked = false → steppingsOk s = true →
    ∃ t, exec (.stewardStart [] failed) s = .next t ∧ (t.stw.checked = true ∧ ∀ d p, d < 8 → p < 34 →
        (coreAt t d p).state =
          if (d, p) ∈ healthCores s ∨ (d, p) ∈ failed then .quarantined else (coreAt s d p).state)) ∧
  (∀ (links : List Nat) (failed : List (Nat × Nat)) (s : State),
    s.stw.boot = .starting → 20 ≤ s.stw.powerStep → s.stw.checked = false → steppingsOk s = true →
    ∃ t, exec (.stewardStart links failed) s = .next t ∧ (t.stw.checked = true ∧
        ∀ k, Tab.look k t.hlt.links = if k ∈ links ∧ k < 24 then some .down else Tab.look k s.hlt.links)) ∧
  (∀ (ms portsUp : Nat) (s : State),
    s.stw.boot = .starting → s.stw.powerStep = 24 → s.stw.checked = true →
    ∃ t, exec (.serviceReached ms portsUp) s = .next t ∧
       (t.stw.boot = .service ∧ t.stw.startMs = ms ∧
        (s.stw.toFlash = none → t.stw = { s.stw with boot := .service, startMs := ms }) ∧
        (∀ img, s.stw.toFlash = some img → s.stw.flashQueue = [] →
          t.stw = { s.stw with boot := .service, startMs := ms, toFlash := none, flashQueue := [.image img true] }) ∧
        t.tmu = { s.tmu with period := s.stw.charter.stepPeriod, epoch := s.stw.charter.gridEpoch } ∧
        0 ∈ t.fab.intake ∧
        (∀ p, p < 8 → portOf t p = if bitOf portsUp p then { portOf s p with up := true } else portOf s p) ∧
        (faultTier2 ∈ t.hlt.faults ↔ cxlUp s = false)))

/-- In RECOVERY chunks are appended within the limits, and the image is started where it meets the checks. (Charter and
Start-up, Tenancy, Keys and Attestation) -/
def Obligations.RecoveryTakesAnImage : Prop :=
  (∀ (length : Nat) (chunk : List Byte) (s : State),
    s.stw.boot = .recovery → chunk.length = chunkBytes (length % 2 ^ 24) → chunk.length ≤ chunkLimit →
    s.stw.received.length + chunk.length ≤ imageLimit →
    ∃ t, exec (.recoveryPush length chunk) s = .next t ∧
       (t.stw.received = s.stw.received ++ chunk ∧ t.stw.recovery = .receiving ∧ t.stw.boot = .recovery ∧
        t.stw.flash = s.stw.flash)) ∧
  (∀ (length : Nat) (chunk : List Byte) (s : State),
    s.stw.boot = .recovery →
    (chunkLimit < chunkBytes (length % 2 ^ 24) ∨ imageLimit < s.stw.received.length + chunkBytes (length % 2 ^ 24)) →
    ∃ t, exec (.recoveryPush length chunk) s = .next t ∧
       (t.stw.received = s.stw.received ∧ t.stw.recovery = .refused ∧ t.stw.boot = .recovery)) ∧
  (∀ (sigOk : Bool) (s : State),
    s.stw.boot = .recovery → imageCause s s.stw.received sigOk = 0 →
    ∃ t, exec (.recoveryFinish sigOk) s = .next t ∧
       (t.stw = { s.stw with recovery := .accepted, toFlash := some s.stw.received, boot := .starting, cause := 0 } ∧
        t.sec.running = s.stw.received ∧ t.sec.events = s.sec.events + 1)) ∧
  (∀ (sigOk : Bool) (s : State),
    s.stw.boot = .recovery → imageCause s s.stw.received sigOk ≠ 0 →
    ∃ t, exec (.recoveryFinish sigOk) s = .next t ∧
       (t.stw = { s.stw with recovery := .wait, received := [] } ∧ t.sec.updCause = imageCause s s.stw.received sigOk ∧
        eventBit t .recoveryRefused = true ∧ eventBit t .imageRefused = true)) ∧
  (∀ (s : State),
    s.stw.boot = .recovery →
    ∃ t, exec .recoveryAbort s = .next t ∧ (t = { s with stw := { s.stw with recovery := .wait, received := [] } }))

/-- Overruns and memory errors of cores, scores by the hour, shadow items, the referee, and the self-check of a die.
(Checking, Health and Spares) -/
def Obligations.HealthFindings : Prop :=
  (∀ (die phys l : Nat) (s : State),
    inService s = true → servedBy s die phys = some l → (coreAt s die phys).state ≠ .off →
    (coreAt s die phys).state ≠ .quarantined → phys ≤ 33 → die ≤ 7 →
    ∃ t, exec (.itemOverrun die phys) s = .next t ∧
       (coreAt t die phys = { coreAt s die phys with state := .quarantined, held := false, score := 65535 } ∧
        eventBit t .hardFault = true ∧ min (counter s cQuarantine + 1) sMax ≤ counter t cQuarantine)) ∧
  (∀ (die phys : Nat) (s : State),
    inService s = true → (coreAt s die phys).state ≠ .off → (coreAt s die phys).state ≠ .quarantined → phys ≤ 33 →
    die ≤ 7 →
    ∃ t, exec (.coreMemoryUe die phys) s = .next t ∧
       (coreAt t die phys = { coreAt s die phys with state := .quarantined, held := false, score := 65535 } ∧
        eventBit t .hardFault = true ∧ min (counter s cQuarantine + 1) sMax ≤ counter t cQuarantine)) ∧
  (∀ (die phys : Nat) (s : State),
    inService s = true → die < 8 → phys < 34 →
    ∃ t, exec (.coreMemoryCe die phys) s = .next t ∧
       (coreAt t die phys = { coreAt s die phys with score := min 65535 ((coreAt s die phys).score + 4) } ∧
        (∀ d p, p < 34 → ¬ (d = die ∧ p = phys) → coreAt t d p = coreAt s d p) ∧
        counter t cCmCe = min (counter s cCmCe + 1) sMax)) ∧
  (∀ (failed : List (Nat × Nat)) (s : State),
    inService s = true → (∀ c ∈ failed, c ∉ idleSpares s) →
    ∃ t, exec (.hourTick failed) s = .next t ∧ (t = { s with
        tmu := { s.tmu with now := max s.tmu.now (hourInstant s) }
        hlt := { s.hlt with
          cores := s.hlt.cores.map (fun e => (e.1, { e.2 with score := e.2.score - e.2.score / 8 }))
          hourAt := max s.tmu.now (hourInstant s) / hourNs } })) ∧
  (∀ (item : Nat) (prim : List Byte) (sensors : MismatchSensors) (s : State) (i : Item),
    s.car.items.find? (fun i => i.id == item) = some i → inService s = true → i.done = true → i.shadowed = false →
    ∃ t, exec (.shadowComplete item prim prim sensors) s = .next t ∧
       (t.car = { s.car with items := s.car.items.map (fun j => if j.id = item then { j with shadowed := true, page := none } else j) } ∧
        t.hlt.shadows = s.hlt.shadows + 1 ∧ t.hlt.mismatches = s.hlt.mismatches)) ∧
  (∀ (item : Nat) (prim shadow : List Byte) (sensors : MismatchSensors) (s : State) (i : Item),
    s.car.items.find? (fun i => i.id == item) = some i → inService s = true → i.done = true → i.shadowed = false →
    prim ≠ shadow → s.hlt.mismatches.length < 64 →
    ∃ t, exec (.shadowComplete item prim shadow sensors) s = .next t ∧
       ((∃ m, t.hlt.mismatches = s.hlt.mismatches ++ [m] ∧ m.item = i ∧ m.seqNo = (s.hlt.mseq + 1) % 2 ^ 32 ∧
          m.prim = prim ∧ m.shadow = shadow ∧ m.sensors = sensors ∧ m.refStep = some (i.step + 1)) ∧
        t.hlt.mseq = (s.hlt.mseq + 1) % 2 ^ 32 ∧ eventBit t .shadowMismatch = true ∧
        counter t cMismatch = min (counter s cMismatch + 1) sMax)) ∧
  (∀ (mm : Nat) (s : State) (m : Mismatch),
    s.hlt.mismatches.find? (fun m => m.seqNo == mm) = some m → inService s = true → m.refStep.getD 0 ≤ stepNo s →
    m.primPhys % 256 < 64 →
    ∃ t, exec (.refereeComplete mm (some m.shadow)) s = .next t ∧
       ((coreAt t (m.primPhys / 256) (m.primPhys % 256)).score =
          min 65535 ((coreAt s (m.primPhys / 256) (m.primPhys % 256)).score + 512) ∧
        (coreAt t (m.primPhys / 256) (m.primPhys % 256)).faults = sNext (coreAt s (m.primPhys / 256) (m.primPhys % 256)).faults 1 ∧
        t.hlt.mismatchHead = m.seqNo ∧ t.hlt.mismatches = s.hlt.mismatches.filter (fun x => x.seqNo != m.seqNo) ∧
        readMem t (mismatchBase + m.seqNo % 4096 * 64) (mismatchRecord s m 1 (some m.shadow)).length =
          mismatchRecord s m 1 (some m.shadow))) ∧
  (∀ (die : Nat) (failed : List Nat) (s : State),
    inService s = true → (dieOf s die).state = .readmitting →
    ∃ t, exec (.selfCheckComplete die failed) s = .next t ∧
       ((dieOf t die).checked = true ∧ (dieOf t die).quarantines = (dieOf s die).quarantines ∧
        ∀ p, p < 34 → (coreAt t die p).state = if p ∈ failed then .quarantined else (coreAt s die p).state))

/-- Die-to-die links, GDDR7 errors and tier-2 timeouts take their consequences. (Checking, Health and Spares, Memory
Tiers) -/
def Obligations.LinksAndMemoryErrors : Prop :=
  (∀ (link : Nat) (down : Bool) (s : State),
    linksTrained s = true → link < 24 →
    ∃ t, exec (.d2dLinkFailure link down) s = .next t ∧
       (t.hlt.links = Tab.put link (if down then .down else .degraded) s.hlt.links ∧ eventBit t .linkDegraded = true)) ∧
  (∀ (link : Nat) (s : State),
    linksTrained s = true → link < 24 →
    ∃ t, exec (.laneRepair link) s = .next t ∧ (t.hlt.links = Tab.put link .repaired s.hlt.links)) ∧
  (∀ (s : State),
    inService s = true →
    ∃ t, exec .gddr7Corrected s = .next t ∧
       (eventBit t .corrected = true ∧ counter t cCe = min (counter s cCe + 1) sMax ∧
        Only [.hif, .hlt, .status, .counters] s t)) ∧
  (∀ (w : UeWhere) (s : State),
    inService s = true →
    ∃ t, exec (.gddr7Uncorrectable w) s = .next t ∧
       (eventBit t .uncorrectable = true ∧ min (counter s cUe + 1) sMax ≤ counter t cUe)) ∧
  (∀ (s : State),
    inService s = true →
    ∃ t, exec (.gddr7Uncorrectable .systemArea) s = .next t ∧ (faultSystem ∈ t.hlt.faults)) ∧
  (∀ (slot copy : Nat) (s : State),
    inService s = true → Tab.has slot s.slc.hist = true → copy < 2 → s.slc.histBad.contains (slot, copy) = false →
    ∃ t, exec (.gddr7Uncorrectable (.history slot copy)) s = .next t ∧ (t.slc.histBad = s.slc.histBad ++ [(slot, copy)])) ∧
  (∀ (i e : Nat) (s : State) (d : Desc),
    inService s = true → descAt s i = some d → (d.copyValid = false ∨ e ∈ d.dirty) → d.object = true →
    ∃ t, exec (.gddr7Uncorrectable (.objectExtent i e)) s = .next t ∧
       (descAt t i = some { d with damaged := true } ∧ eventBit t .objectDamaged = true)) ∧
  (∀ (i : Nat) (w : UeWhere) (s : State) (g : Segment),
    inService s = true → s.tir.segments[i]? = some g → g.state = .active →
    ∃ t, exec (.t2LineTimeout i false w) s = .next t ∧
       (t.tir.segments = s.tir.segments.set i { g with failures := 0 } ∧ eventBit t .t2Retry = true ∧
        counter t cRetry = min (counter s cRetry + 1) sMax)) ∧
  (∀ (i : Nat) (w : UeWhere) (s : State) (g : Segment),
    inService s = true → s.tir.segments[i]? = some g → g.state = .active →
    ∃ t, exec (.t2LineTimeout i true w) s = .next t ∧
       (t.tir.segments = s.tir.segments.set i { g with
          failures := g.failures + 1, state := if 16 ≤ g.failures + 1 then .failed else .active } ∧
        eventBit t .t2Retry = true ∧ eventBit t .uncorrectable = true ∧
        min (counter s cUe + 1) sMax ≤ counter t cUe))

/-- The SPDM responder answers version, capabilities, algorithms, digests, certificate, challenge and measurements.
(Tenancy, Keys and Attestation) -/
def Obligations.SpdmResponder : Prop :=
  (∀ (p : SpdmPort) (s : State),
    spdmOn s p = true →
    ∃ t, exec (.getVersion p) s = .next t ∧
       (spdmOf t p = { version := 0x10, caps := false, algos := false
                       response := spdmHead 0x10 0x04 0 0 ++ le 1 0 ++ le 1 2 ++ le 2 0x1200 ++ le 2 0x1300
                       transcript := spdmHead 0x10 0x84 0 0 ++
                         (spdmHead 0x10 0x04 0 0 ++ le 1 0 ++ le 1 2 ++ le 2 0x1200 ++ le 2 0x1300) })) ∧
  (∀ (p : SpdmPort) (s : State),
    spdmOn s p = true → (spdmOf s p).version ≠ 0 →
    ∃ t, exec (.getCapabilities p) s = .next t ∧ (∃ ex tr la, ex < 32 ∧
        spdmOf t p = { spdmOf s p with
          caps := true
          response := spdmHead (spdmOf s p).byte 0x61 0 0 ++ zeros 1 ++ le 1 ex ++ zeros 2 ++ le 4 spdmFlags ++ le 4 tr ++ le 4 la
          transcript := (spdmOf s p).transcript ++ spdmHead (spdmOf s p).byte 0xE1 0 0 ++
            (spdmHead (spdmOf s p).byte 0x61 0 0 ++ zeros 1 ++ le 1 ex ++ zeros 2 ++ le 4 spdmFlags ++ le 4 tr ++ le 4 la) })) ∧
  (∀ (p : SpdmPort) (s : State),
    spdmOn s p = true → (spdmOf s p).version = 0 →
    ∃ t, exec (.getCapabilities p) s = .next t ∧
       (spdmOf t p = { spdmOf s p with response := spdmHead (spdmOf s p).byte 0x7F errUnexpected 0 } ∧
        eventBit t .spdmError = true ∧ counter t cSpdmError = min (counter s cSpdmError + 1) sMax)) ∧
  (∀ (p : SpdmPort) (version : Nat) (base meas asym : List Nat) (s : State),
    spdmOn s p = true → (spdmOf s p).caps = true → (version = 0x12 ∨ version = 0x13) → algSha384 ∈ base →
    algSha384 ∈ meas → algBrainpool ∈ asym →
    ∃ t, exec (.negotiateAlgorithms p version base meas asym) s = .next t ∧
       (spdmOf t p = { spdmOf s p with
          version := version, algos := true
          response := spdmHead version 0x63 0 0 ++ le 4 algSha384 ++ le 4 algSha384 ++ le 4 algBrainpool
          transcript := (spdmOf s p).transcript ++ (spdmHead version 0xE3 0 0 ++
              ((base.map (le 4)).flatten ++ (meas.map (le 4)).flatten ++ (asym.map (le 4)).flatten)) ++
            (spdmHead version 0x63 0 0 ++ le 4 algSha384 ++ le 4 algSha384 ++ le 4 algBrainpool) })) ∧
  (∀ (p : SpdmPort) (version : Nat) (base meas asym : List Nat) (s : State),
    spdmOn s p = true → (spdmOf s p).caps = true → (version = 0x12 ∨ version = 0x13) →
    (algSha384 ∉ base ∨ algSha384 ∉ meas ∨ algBrainpool ∉ asym) →
    ∃ t, exec (.negotiateAlgorithms p version base meas asym) s = .next t ∧
       (spdmOf t p = { spdmOf s p with response := spdmHead (spdmOf s p).byte 0x7F errInvalid 0 } ∧
        eventBit t .spdmError = true ∧ counter t cSpdmError = min (counter s cSpdmError + 1) sMax)) ∧
  (∀ (p : SpdmPort) (s : State),
    spdmOn s p = true → (spdmOf s p).algos = true →
    ∃ t, exec (.getDigests p) s = .next t ∧
       (spdmOf t p = { spdmOf s p with
          response := spdmHead (spdmOf s p).byte 0x01 0 1 ++ sha384 (certChain s)
          transcript := (spdmOf s p).transcript ++ spdmHead (spdmOf s p).byte 0x81 0 0 ++
            (spdmHead (spdmOf s p).byte 0x01 0 1 ++ sha384 (certChain s)) })) ∧
  (∀ (p : SpdmPort) (s : State),
    spdmOn s p = true → (spdmOf s p).algos = false →
    ∃ t, exec (.getDigests p) s = .next t ∧
       (spdmOf t p = { spdmOf s p with response := spdmHead (spdmOf s p).byte 0x7F errUnexpected 0 } ∧
        eventBit t .spdmError = true ∧ counter t cSpdmError = min (counter s cSpdmError + 1) sMax)) ∧
  (∀ (p : SpdmPort) (offset length : Nat) (s : State),
    spdmOn s p = true → (spdmOf s p).algos = true → offset < (certChain s).length →
    ∃ t, exec (.getCertificate p 0 offset length) s = .next t ∧
       ((spdmOf t p).response = spdmHead (spdmOf s p).byte 0x02 0 0 ++ le 2 (((certChain s).drop offset).take length).length ++
          le 2 ((certChain s).length - offset - (((certChain s).drop offset).take length).length) ++
          ((certChain s).drop offset).take length ∧
        (spdmOf t p).transcript = (spdmOf s p).transcript ++
          (spdmHead (spdmOf s p).byte 0x82 0 0 ++ le 2 offset ++ le 2 length) ++ (spdmOf t p).response)) ∧
  (∀ (p : SpdmPort) (slot offset length : Nat) (s : State),
    spdmOn s p = true → (spdmOf s p).algos = true → (slot ≠ 0 ∨ (certChain s).length ≤ offset) →
    ∃ t, exec (.getCertificate p slot offset length) s = .next t ∧
       (spdmOf t p = { spdmOf s p with response := spdmHead (spdmOf s p).byte 0x7F errInvalid 0 } ∧
        eventBit t .spdmError = true ∧ counter t cSpdmError = min (counter s cSpdmError + 1) sMax)) ∧
  (∀ (p : SpdmPort) (nonce : List Byte) (s : State),
    spdmOn s p = true → (spdmOf s p).algos = true →
    ∃ t, exec (.challenge p 0 nonce) s = .next t ∧ (∃ fresh : List Byte, fresh.length = 32 ∧
        spdmOf t p = { spdmOf s p with
          transcript := []
          response := spdmHead (spdmOf s p).byte 0x03 0 1 ++ sha384 (certChain s) ++ fresh ++ le 2 0 ++
            signature s ((spdmOf s p).transcript ++ (spdmHead (spdmOf s p).byte 0x83 0 0 ++ fit 32 nonce) ++
              (spdmHead (spdmOf s p).byte 0x03 0 1 ++ sha384 (certChain s) ++ fresh ++ le 2 0)) })) ∧
  (∀ (p : SpdmPort) (index : Nat) (nonce : List Byte) (s : State),
    spdmOn s p = true → (spdmOf s p).algos = true → 1 ≤ index → index ≤ 9 →
    ∃ t, exec (.getMeasurements p index false nonce) s = .next t ∧ (∃ fresh : List Byte, fresh.length = 32 ∧
        (spdmOf t p).response = spdmHead (spdmOf s p).byte 0x60 0 0 ++ le 1 1 ++ le 3 (measurementBlock s index).length ++
          measurementBlock s index ++ fresh ++ le 2 0 ∧
        (spdmOf t p).transcript = (spdmOf s p).transcript ++ (spdmHead (spdmOf s p).byte 0xE0 0 index ++ []) ++
          (spdmOf t p).response)) ∧
  (∀ (p : SpdmPort) (index : Nat) (nonce : List Byte) (s : State),
    spdmOn s p = true → (spdmOf s p).algos = true → 1 ≤ index → index ≤ 9 →
    ∃ t, exec (.getMeasurements p index true nonce) s = .next t ∧ (∃ fresh : List Byte, fresh.length = 32 ∧
        (spdmOf t p).transcript = [] ∧
        (spdmOf t p).response = (spdmHead (spdmOf s p).byte 0x60 0 0 ++ le 1 1 ++ le 3 (measurementBlock s index).length ++
            measurementBlock s index ++ fresh ++ le 2 0) ++
          signature s ((spdmOf s p).transcript ++ (spdmHead (spdmOf s p).byte 0xE0 1 index ++ fit 32 nonce) ++
            (spdmHead (spdmOf s p).byte 0x60 0 0 ++ le 1 1 ++ le 3 (measurementBlock s index).length ++
              measurementBlock s index ++ fresh ++ le 2 0)))) ∧
  (∀ (p : SpdmPort) (code : Nat) (s : State),
    spdmOn s p = true →
    ∃ t, exec (.spdmUnsupportedRequest p code) s = .next t ∧
       (spdmOf t p = { spdmOf s p with response := spdmHead (spdmOf s p).byte 0x7F errUnsupported code } ∧
        eventBit t .spdmError = true ∧ counter t cSpdmError = min (counter s cSpdmError + 1) sMax))

/-- KEY_PROG installs an accepted IDE key and frees the port; a refused blob changes no key and says why. (Tenancy, Keys
and Attestation, Host Interface and Register Conventions) -/
def Obligations.IdeKeysAreProgrammed : Prop :=
  (∀ (port : Nat) (stream : Bool) (blob : List Byte) (opened : Option (List Byte)) (s : State),
    port < 2 → blob.length = 256 → mailboxOn s (cxlOf s port) = true → blobCause s blob opened true stream = 0 →
    ∃ t, exec (.keyProg port stream blob opened) s = .next t ∧
       (cxlOf t port = { cxlOf s port with ide := true, ideDown := false } ∧
        t.sec.ide = Tab.put (port * 256 + blobTarget blob) (unle ((opened.getD []).take 32)) s.sec.ide ∧
        t.sec.keyResult = keyResultOf blob true port 0 ∧
        t.sec.installSeq = some (fld blob 4 4) ∧
        (spdmOf t (mailboxOf port)).response = le 1 3 ++ le 1 (blobTarget blob) ++ zeros 1 ++ le 1 0)) ∧
  (∀ (port : Nat) (stream : Bool) (blob : List Byte) (opened : Option (List Byte)) (s : State),
    port < 2 → blob.length = 256 → mailboxOn s (cxlOf s port) = true → blobCause s blob opened true stream ≠ 0 →
    ∃ t, exec (.keyProg port stream blob opened) s = .next t ∧
       (cxlOf t port = cxlOf s port ∧ t.sec.ide = s.sec.ide ∧
        t.sec.keyResult = keyResultOf blob true port (blobCause s blob opened true stream) ∧
        t.sec.installSeq = (if blobCause s blob opened true stream = causeStale then s.sec.installSeq else some (fld blob 4 4)) ∧
        (spdmOf t (mailboxOf port)).response = le 1 3 ++ le 1 (blobTarget blob) ++ zeros 1 ++
          le 1 (blobCause s blob opened true stream) ∧
        eventBit t .keyRefused = true ∧ counter t cKeyRefuse = min (counter s cKeyRefuse + 1) sMax))

/-- A ring takes a command that an action applies: it waits as the last, with a completion slot kept. (Host Interface and
Register Conventions, Sequences, Steps and Admission) -/
def Obligations.RingCommandsWait : Prop :=
  (∀ (h : CmdHead) (o : LeaseOps) (s : State),
    RingReady h (.lease o) (place h.placed s) →
    ∃ t, exec (.lease h o) s = .next t ∧ (TakenToWait 2 h (.lease o) (.lease o) (place h.placed s) t)) ∧
  (∀ (h : CmdHead) (s : State),
    RingReady h .registerContext (place h.placed s) →
    ∃ t, exec (.registerContext h) s = .next t ∧ (TakenToWait 2 h .registerContext .registerContext (place h.placed s) t)) ∧
  (∀ (h : CmdHead) (c : Nat) (s : State),
    RingReady h (.retireContext c) (place h.placed s) →
    ∃ t, exec (.retireContext h c) s = .next t ∧
       (TakenToWait 2 h (.retireContext c) (.retireContext c) (place h.placed s) t)) ∧
  (∀ (h : CmdHead) (s : State),
    RingReady h .registerAdapter (place h.placed s) →
    ∃ t, exec (.registerAdapter h) s = .next t ∧ (TakenToWait 2 h .registerAdapter .registerAdapter (place h.placed s) t)) ∧
  (∀ (h : CmdHead) (c : Nat) (s : State),
    RingReady h (.withdrawAdapter c) (place h.placed s) →
    ∃ t, exec (.withdrawAdapter h c) s = .next t ∧
       (TakenToWait 2 h (.withdrawAdapter c) (.withdrawAdapter c) (place h.placed s) t)) ∧
  (∀ (h : CmdHead) (e c : Nat) (s : State),
    RingReady h (.installTable e c) (place h.placed s) →
    ∃ t, exec (.installTable h e c) s = .next t ∧
       (TakenToWait 2 h (.installTable e c) (.installTable e c) (place h.placed s) t)) ∧
  (∀ (h : CmdHead) (opened : Option (List Byte)) (s : State),
    RingReady h (.installKey none) (place h.placed s) →
    ∃ t, exec (.installKey h opened) s = .next t ∧
       (TakenToWait 2 h (.installKey none) (.installKey opened) (place h.placed s) t)) ∧
  (∀ (h : CmdHead) (d : Nat) (f : Bool) (s : State),
    RingReady h (.drainDie d f) (place h.placed s) →
    ∃ t, exec (.drainDie h d f) s = .next t ∧ (TakenToWait 2 h (.drainDie d f) (.drainDie d f) (place h.placed s) t)) ∧
  (∀ (h : CmdHead) (d : Nat) (s : State),
    RingReady h (.readmitDie d) (place h.placed s) →
    ∃ t, exec (.readmitDie h d) s = .next t ∧ (TakenToWait 2 h (.readmitDie d) (.readmitDie d) (place h.placed s) t)) ∧
  (∀ (h : CmdHead) (i n : Nat) (s : State),
    RingReady h (.freeObject i n) (place h.placed s) →
    ∃ t, exec (.freeObject h i n) s = .next t ∧ (TakenToWait 1 h (.freeObject i n) (.freeObject i n) (place h.placed s) t)) ∧
  (∀ (h : CmdHead) (x a : Nat) (p d : Bool) (s : State),
    RingReady h (.allocObject x a p d) (place h.placed s) →
    ∃ t, exec (.allocObject h x a p d) s = .next t ∧
       (TakenToWait 4 h (.allocObject x a p d) (.allocObject x a p d) (place h.placed s) t)) ∧
  (∀ (h : CmdHead) (s : State),
    RingReady h .switchImage (place h.placed s) →
    ∃ t, exec (.switchImage h) s = .next t ∧ (TakenToWait 6 h .switchImage .switchImage (place h.placed s) t)) ∧
  (∀ (h : CmdHead) (q : Nat) (s : State),
    RingReady h (.rehome q) (place h.placed s) →
    ∃ t, exec (.rehome h q) s = .next t ∧
       (t.sqs.waiting = s.sqs.waiting ++ [{ action := 4, tenant := h.tenant, source := Config.ringSource h.ring
                                            sseq := ((ringOf s h.ring).taken + 1) % 2 ^ 32
                                            wait := .join (.rehome (ticketOf h (.rehome q)) q
                                              (takenBody h (.rehome q) (place h.placed s))) }] ∧
        (ringOf t h.ring).reserved = (ringOf s h.ring).reserved + 1))

/-- OPEN_WINDOW, REVOKE_WINDOW and REOPEN_WINDOW take effect when they are taken. (Fabric Ports, Transport and Windows) -/
def Obligations.WindowCommandsAtTaking : Prop :=
  (∀ (at_ w : Nat) (h : CmdHead) (o : WinOps) (s v : State),
    v = place h.placed (setNow at_ s) → RingReady h (.openWindow o) v → s.sec.upd ≠ .switching →
    poldersOf v h.tenant < v.stw.charter.winQuota → winRefusal v h.tenant o = none → pickWindow v = some w →
    256 ≤ w →
    ∃ t, exec (.openWindow at_ h o) s = .next t ∧
       (windowOf t w = { windowOf v w with
          key := o.key, desc := o.desc, descGen := o.descGen, state := .opened, dike := h.tenant, rights := o.rights
          ring := o.ring, base := o.base, length := o.length, openedAt := some v.tmu.now, ticket := none, reopen := none } ∧
        (h.silent = false → Answered (ticketOf h (.openWindow o)) 0 0 0 (w + (windowOf v w).gen * 2 ^ 32) 0 v t))) ∧
  (∀ (at_ w : Nat) (h : CmdHead) (s v : State),
    v = place h.placed (setNow at_ s) → RingReady h (.revokeWindow w) v → s.sec.upd ≠ .switching → 256 ≤ w →
    w < windowEnd → (windowOf v w).state = .opened → (windowOf v w).dike = h.tenant → (windowOf v w).ticket = none →
    ∃ t, exec (.revokeWindow at_ h w) s = .next t ∧
       (windowOf t w = { windowOf v w with
          state := .revoking, gen := ((windowOf v w).gen + 1) % 4096, revoked := true
          revokedAt := v.tmu.now, fenced := [], ticket := some (ticketOf h (.revokeWindow w)), reopen := none })) ∧
  (∀ (at_ w : Nat) (h : CmdHead) (o : WinOps) (s v : State),
    v = place h.placed (setNow at_ s) → RingReady h (.reopenWindow w o) v → s.sec.upd ≠ .switching → 256 ≤ w →
    w < windowEnd → (windowOf v w).state = .opened → (windowOf v w).dike = h.tenant → (windowOf v w).ticket = none →
    winRefusal v h.tenant o = none → (windowOf v w).openedAt.getD 0 + 500000 ≤ v.tmu.now →
    ∃ t, exec (.reopenWindow at_ h w o) s = .next t ∧
       (windowOf t w = { windowOf v w with
          state := .revoking, gen := ((windowOf v w).gen + 1) % 4096, revoked := true
          revokedAt := v.tmu.now, fenced := [], ticket := some (ticketOf h (.reopenWindow w o)), reopen := some o })) ∧
  (∀ (at_ w : Nat) (h : CmdHead) (o : WinOps) (s v : State),
    v = place h.placed (setNow at_ s) → RingReady h (.reopenWindow w o) v → s.sec.upd ≠ .switching → 256 ≤ w →
    w < windowEnd → (windowOf v w).state = .opened → (windowOf v w).dike = h.tenant → (windowOf v w).ticket = none →
    winRefusal v h.tenant o = none → v.tmu.now < (windowOf v w).openedAt.getD 0 + 500000 →
    ∃ t, exec (.reopenWindow at_ h w o) s = .next t ∧
       (windowOf t w = { windowOf v w with ticket := some (ticketOf h (.reopenWindow w o)), reopen := some o }))

/-- A revocation that completes closes the window or reopens it; a held REOPEN_WINDOW begins when its delay is over.
(Fabric Ports, Transport and Windows) -/
def Obligations.WindowsCloseAndReopen : Prop :=
  (∀ (window : Nat) (s : State),
    256 ≤ window → (windowOf s window).state = .revoking → (windowOf s window).ticket = none →
    ∃ t, exec (.revocationComplete window) s = .next t ∧ (t = setWindow window { windowOf s window with
        state := .closed, closedAt := s.tmu.now, ticket := none, reopen := none } s)) ∧
  (∀ (window : Nat) (k : Ticket) (s : State),
    256 ≤ window → (windowOf s window).state = .revoking → (windowOf s window).ticket = some k →
    (windowOf s window).reopen = none → k.ring < 64 → k.silent = false →
    ∃ t, exec (.revocationComplete window) s = .next t ∧
       (windowOf t window = { windowOf s window with
          state := .closed, closedAt := s.tmu.now, ticket := none, reopen := none } ∧ Answered k 0 0 0 0 0 s t)) ∧
  (∀ (window : Nat) (k : Ticket) (o : WinOps) (s : State),
    256 ≤ window → (windowOf s window).state = .revoking → (windowOf s window).ticket = some k →
    (windowOf s window).reopen = some o → k.ring < 64 → k.silent = false →
    winRefusal s (windowOf s window).dike o = none →
    ∃ t, exec (.revocationComplete window) s = .next t ∧
       (windowOf t window = { windowOf s window with
          key := o.key, desc := o.desc, descGen := o.descGen, state := .opened, rights := o.rights, ring := o.ring
          base := o.base, length := o.length, openedAt := some s.tmu.now, ticket := none, reopen := none } ∧
        Answered k 0 0 0 (window + (windowOf s window).gen * 2 ^ 32) 0 s t)) ∧
  (∀ (window c : Nat) (k : Ticket) (o : WinOps) (s : State),
    256 ≤ window → (windowOf s window).state = .revoking → (windowOf s window).ticket = some k →
    (windowOf s window).reopen = some o → k.ring < 64 → winRefusal s (windowOf s window).dike o = some c →
    ∃ t, exec (.revocationComplete window) s = .next t ∧
       (windowOf t window = { windowOf s window with
          state := .closed, closedAt := s.tmu.now, ticket := none, reopen := none } ∧ Answered k 1 c 0 0 0 s t)) ∧
  (∀ (at_ window : Nat) (k : Ticket) (o : WinOps) (s : State),
    256 ≤ window → (windowOf s window).state = .opened → (windowOf s window).ticket = some k →
    (windowOf s window).reopen = some o → (windowOf s window).openedAt.getD 0 + 500000 ≤ max s.tmu.now at_ →
    winRefusal s (windowOf s window).dike o = none →
    ∃ t, exec (.reopenDelayExpired at_ window) s = .next t ∧ (t = setWindow window { windowOf s window with
        state := .revoking, gen := ((windowOf s window).gen + 1) % 4096, revoked := true
        revokedAt := max s.tmu.now at_, fenced := [] } (setNow at_ s))) ∧
  (∀ (at_ window c : Nat) (k : Ticket) (o : WinOps) (s : State),
    256 ≤ window → (windowOf s window).state = .opened → (windowOf s window).ticket = some k →
    (windowOf s window).reopen = some o → (windowOf s window).openedAt.getD 0 + 500000 ≤ max s.tmu.now at_ →
    winRefusal s (windowOf s window).dike o = some c → k.ring < 64 →
    ∃ t, exec (.reopenDelayExpired at_ window) s = .next t ∧
       (windowOf t window = { windowOf s window with ticket := none, reopen := none } ∧ Answered k 1 c 0 0 0 (setNow at_ s) t))

/-- COMPOSE, BUILD_TABLE, STAGE_IMAGE and COMMIT_SVN take effect when they are taken; a build answers when it is done.
(Host Interface and Register Conventions, Sluice: Ownership and Handoff of Request State, Compression and Block Integrity,
Tenancy, Keys and Attestation) -/
def Obligations.CommandsAtTaking : Prop :=
  (∀ (h : CmdHead) (s : State),
    RingReady h .compose (place h.placed s) → s.sec.upd ≠ .switching →
    mapCause (place h.placed s) (readMem (place h.placed s) h.bodyAddr h.bodyLen) = none →
    ∃ t, exec (.compose h) s = .next t ∧
       (t.slc = { s.slc with nextMap := some (readMap (readMem (place h.placed s) h.bodyAddr h.bodyLen)) } ∧
        (h.silent = false → Answered (ticketOf h .compose) 0 0 0 0 0 (place h.placed s) t))) ∧
  (∀ (h : CmdHead) (layout source length : Nat) (s v : State),
    v = place h.placed s → RingReady h (.buildTable layout source length) v → s.sec.upd ≠ .switching → layout < 6 →
    length ≠ 0 → length ≤ 67108864 → inHdm source length = true →
    ∃ t, exec (.buildTable h layout source length) s = .next t ∧
       (t.cmp = { s.cmp with build := s.cmp.build ++
          [(ticketOf h (.buildTable layout source length), layout, source, length, h.bodyAddr)] })) ∧
  (∀ (at_ : Nat) (h : CmdHead) (s v : State),
    v = place h.placed (setNow at_ s) → RingReady h .stageImage v → updateBusy s = false →
    ∃ t, exec (.stageImage at_ h) s = .next t ∧
       (t.sec = { s.sec with upd := .verifying, staged := readMem v h.bodyAddr h.bodyLen
                             stageAt := if liveTime s then some (h.bodyAddr, h.bodyLen) else none
                             updTicket := some (ticketOf h .stageImage) })) ∧
  (∀ (h : CmdHead) (s v : State),
    v = place h.placed s → RingReady h .commitSvn v → s.sec.upd = .flashDone →
    ∃ t, exec (.commitSvn h) s = .next t ∧
       (t.sec.fusedSvn = max s.sec.fusedSvn (fld s.sec.running 3 1) ∧
        (h.silent = false → Answered (ticketOf h .commitSvn) 0 0 0 0 0 v t))) ∧
  (∀ (k : Ticket) (layout source length result : Nat) (rest : List (Ticket × Nat × Nat × Nat × Nat)) (s : State),
    inService s = true → s.cmp.build = (k, layout, source, length, result) :: rest → k.ring < 64 → k.silent = false →
    ∃ t, exec .buildTableComplete s = .next t ∧
       (t.cmp = { s.cmp with build := rest, tableResult := 2 ^ 28 } ∧ eventBit t .tableCommand = true ∧
        acctOf t 0 = (if inHdm source length then (acctOf s 0).add 3 length else (acctOf s 0).add 4 (cdiv length 256 * 256)) ∧ Answered k 0 0 0 0 0 s t ∧
        ∃ u, t = complete k 0 0 0 0 0 u ∧
          readMem u result (buildTableRecord layout (readMem s source length)).length =
            buildTableRecord layout (readMem s source length)))

/-- SET_QUEUE and SET_POLICER set Weir; WRITE, READ and ATOMIC send their message. (Weir: Traffic Shaping and Policing,
Fabric Ports, Transport and Windows) -/
def Obligations.WeirAndRemoteCommands : Prop :=
  (∀ (at_ q n r : Nat) (e : Bool) (h : CmdHead) (s v : State),
    v = place h.placed (setNow at_ s) → RingReady h (.setQueue q e n r) v → s.sec.upd ≠ .switching → 2 ≤ q →
    q < 4096 → 64 ≤ n → n ≤ 65536 → n % 64 = 0 → r ≤ 1600000 → queueAssigned q = true →
    (q = 2 ∨ Tab.has (queueDike q) s.sec.leases = true) →
    ∃ t, exec (.setQueue at_ h q e n r) s = .next t ∧
       ((queueOf t q).enable = e ∧ (queueOf t q).quantum = n ∧ (queueOf t q).explicit = true ∧ (queueOf t q).rate = r ∧
        (queueOf t q).inst = (queueOf s q).inst ∧
        (h.silent = false → Answered (ticketOf h (.setQueue q e n r)) 0 0 0 0 0 v t))) ∧
  (∀ (at_ d r b : Nat) (e : Bool) (h : CmdHead) (s v : State),
    v = place h.placed (setNow at_ s) → RingReady h (.setPolicer d e r b) v → s.sec.upd ≠ .switching → 1 ≤ r →
    r ≤ 1600000 → 4112 ≤ b → b ≤ 16777216 → Tab.has d s.sec.leases = true →
    ∃ t, exec (.setPolicer at_ h d e r b) s = .next t ∧
       (Tab.getD t.wei.policers d {} = { Tab.getD s.wei.policers d {} with
          enable := e, rate := r, burst := b, at_ := v.tmu.now
          tokens := if e && !(Tab.getD s.wei.policers d {}).enable then b * 1000
                    else min (b * 1000) ((Tab.getD s.wei.policers d {}).tokensAt v.tmu.now) } ∧
        (h.silent = false → Answered (ticketOf h (.setPolicer d e r b)) 0 0 0 0 0 v t))) ∧
  (∀ (at_ : Nat) (h : CmdHead) (o : RemoteOps) (s v : State) (m : OutMsg),
    v = place h.placed (setNow at_ s) → RingReady h (.write o) v → s.sec.upd ≠ .switching → h.subq ≠ 15 →
    h.bodyLen ≠ 0 → h.bodyLen ≤ 16842752 → h.tenant ≠ 0 → (queueOf s (dikeQueue h.tenant h.subq)).enable = true →
    m = remoteMessage 2 h.bodyLen (readMem v h.bodyAddr h.bodyLen) (.hostWrite (ticketOf h (.write o)) h.bodyAddr) h.notify h o (Tab.getD s.fab.nextSeq o.dest 0) →
    slotFree s m = true →
    ∃ t, exec (.write at_ h o) s = .next t ∧
       (t.fab.out = s.fab.out ++ [m] ∧
        t.fab.nextSeq = Tab.put o.dest ((Tab.getD s.fab.nextSeq o.dest 0 + 1) % 2 ^ 32) s.fab.nextSeq)) ∧
  (∀ (at_ : Nat) (h : CmdHead) (o : RemoteOps) (s v : State) (m : OutMsg),
    v = place h.placed (setNow at_ s) → RingReady h (.read o) v → s.sec.upd ≠ .switching → h.subq ≠ 15 →
    h.bodyLen ≠ 0 → h.bodyLen ≤ 1048576 → h.tenant ≠ 0 → (queueOf s (dikeQueue h.tenant h.subq)).enable = true →
    m = remoteMessage 3 8 (le 4 h.bodyLen ++ zeros 4) (.hostRead (ticketOf h (.read o)) h.bodyAddr) false h o (Tab.getD s.fab.nextSeq o.dest 0) →
    slotFree s m = true →
    ∃ t, exec (.read at_ h o) s = .next t ∧
       (t.fab.out = s.fab.out ++ [m] ∧
        t.fab.nextSeq = Tab.put o.dest ((Tab.getD s.fab.nextSeq o.dest 0 + 1) % 2 ^ 32) s.fab.nextSeq)) ∧
  (∀ (at_ : Nat) (h : CmdHead) (o : RemoteOps) (s v : State) (m : OutMsg),
    v = place h.placed (setNow at_ s) → RingReady h (.atomic o) v → s.sec.upd ≠ .switching → h.subq ≠ 15 →
    (o.op = 1 ∨ o.op = 2) → h.tenant ≠ 0 → (queueOf s (dikeQueue h.tenant h.subq)).enable = true →
    m = remoteMessage 5 24 (le 1 o.op ++ zeros 7 ++ le 8 o.operand ++ le 8 o.compare) (.hostAtomic (ticketOf h (.atomic o))) false h o (Tab.getD s.fab.nextSeq o.dest 0) →
    slotFree s m = true →
    ∃ t, exec (.atomic at_ h o) s = .next t ∧
       (t.fab.out = s.fab.out ++ [m] ∧
        t.fab.nextSeq = Tab.put o.dest ((Tab.getD s.fab.nextSeq o.dest 0 + 1) % 2 ^ 32) s.fab.nextSeq))

/-- A write with bit 31 to an inspection register latches the record it names; without, it latches nothing. (Register
Block Index and Alias Tables, Host Interface and Register Conventions) -/
def Obligations.InspectionLatches : Prop :=
  (∀ (value : Word) (s : State),
    inService s = true →
    ∃ t, exec (.pgmInspectLatch value) s = .next t ∧
       (Tab.getD t.hif.rw (regAddr 7 0x100) 0 = value.toNat &&& 0x1ffffff ∧
        (bitOf value.toNat 31 = true → Tab.getD t.hif.latch (regAddr 7 0x110) [] =
          descRecord s (value.toNat % 2 ^ 25)) ∧
        (bitOf value.toNat 31 = false → t.hif.latch = s.hif.latch))) ∧
  (∀ (value : Word) (s : State),
    inService s = true →
    ∃ t, exec (.slcInspectLatch value) s = .next t ∧
       (Tab.getD t.hif.rw (regAddr 6 0x100) 0 = value.toNat &&& 0x3fff ∧
        (bitOf value.toNat 31 = true → Tab.getD t.hif.latch (regAddr 6 0x110) [] =
          ((recAt s (value.toNat % 2 ^ 14)).map (fun r => r.bytes (histOf s (value.toNat % 2 ^ 14)).length)).getD (zeros 32)) ∧
        (bitOf value.toNat 31 = false → t.hif.latch = s.hif.latch))) ∧
  (∀ (value : Word) (s : State),
    inService s = true →
    ∃ t, exec (.tirSegLatch value) s = .next t ∧
       (Tab.getD t.hif.rw (regAddr 8 0x100) 0 = value.toNat &&& 0x3f ∧
        (bitOf value.toNat 31 = true → Tab.getD t.hif.latch (regAddr 8 0x110) [] =
          (s.tir.segments.getD (value.toNat % 64) noSegment).bytes) ∧
        (bitOf value.toNat 31 = false → t.hif.latch = s.hif.latch))) ∧
  (∀ (value : Word) (s : State),
    inService s = true →
    ∃ t, exec (.fabPortLatch value) s = .next t ∧
       (Tab.getD t.hif.rw (regAddr 2 0x100) 0 = value.toNat &&& 0x7 ∧
        (bitOf value.toNat 31 = true → Tab.getD t.hif.latch (regAddr 2 0x110) [] =
          (portOf s (value.toNat % 8)).bytes) ∧
        (bitOf value.toNat 31 = false → t.hif.latch = s.hif.latch))) ∧
  (∀ (value : Word) (s : State),
    inService s = true →
    ∃ t, exec (.fabWinLatch value) s = .next t ∧
       (Tab.getD t.hif.rw (regAddr 2 0x200) 0 = value.toNat &&& 0xfffff ∧
        (bitOf value.toNat 31 = true → Tab.getD t.hif.latch (regAddr 2 0x210) [] =
          (windowOf s (value.toNat % 2 ^ 20)).bytes) ∧
        (bitOf value.toNat 31 = false → t.hif.latch = s.hif.latch))) ∧
  (∀ (value : Word) (s : State),
    inService s = true →
    ∃ t, exec (.weiQLatch value) s = .next t ∧
       (Tab.getD t.hif.rw (regAddr 3 0x100) 0 = value.toNat &&& 0xfff ∧
        (bitOf value.toNat 31 = true → Tab.getD t.hif.latch (regAddr 3 0x110) [] =
          (if queueAssigned (value.toNat % 4096) then (queueOf s (value.toNat % 4096)).bytes (value.toNat % 4096)
            (queueClass s (value.toNat % 4096)) else zeros 32)) ∧
        (bitOf value.toNat 31 = false → t.hif.latch = s.hif.latch))) ∧
  (∀ (at_ : Nat) (value : Word) (s : State),
    inService s = true →
    ∃ t, exec (.weiPolLatch at_ value) s = .next t ∧
       (Tab.getD t.hif.rw (regAddr 3 0x200) 0 = value.toNat &&& 0xff ∧
        (bitOf value.toNat 31 = true → Tab.getD t.hif.latch (regAddr 3 0x210) [] =
          (if value.toNat % 256 = 0 then zeros 32 else (Tab.getD s.wei.policers (value.toNat % 256) {}).bytes
            (value.toNat % 256) (max s.tmu.now at_))) ∧
        (bitOf value.toNat 31 = false → t.hif.latch = s.hif.latch))) ∧
  (∀ (value : Word) (s : State),
    inService s = true →
    ∃ t, exec (.hltCoreLatch value) s = .next t ∧
       (Tab.getD t.hif.rw (regAddr 13 0x100) 0 = value.toNat &&& 0x73f ∧
        (bitOf value.toNat 31 = true → Tab.getD t.hif.latch (regAddr 13 0x110) [] =
          coreRecord s (bitsOf value.toNat 10 8) (bitsOf value.toNat 5 0)) ∧
        (bitOf value.toNat 31 = false → t.hif.latch = s.hif.latch))) ∧
  (∀ (value : Word) (s : State),
    inService s = true →
    ∃ t, exec (.hltAcctLatch value) s = .next t ∧
       (Tab.getD t.hif.rw (regAddr 13 0x500) 0 = value.toNat &&& 0xff ∧
        (bitOf value.toNat 31 = true → Tab.getD t.hif.latch (regAddr 13 0x510) [] =
          accountRecord s (value.toNat % 256)) ∧
        (bitOf value.toNat 31 = false → t.hif.latch = s.hif.latch))) ∧
  (∀ (value : Word) (s : State),
    stwOn s = true →
    ∃ t, exec (.stwReportLatch value) s = .next t ∧
       (Tab.getD t.hif.rw (regAddr 0 0x100) 0 = value.toNat &&& 0xfff ∧
        (bitOf value.toNat 31 = true → Tab.getD t.hif.latch (regAddr 0 0x110) [] =
          fit 32 (s.stw.report.getD (value.toNat % 4096) [])) ∧
        (bitOf value.toNat 31 = false → t.hif.latch = s.hif.latch))) ∧
  (∀ (value : Word) (s : State),
    inService s = true →
    ∃ t, exec (.cmpTableLatch value) s = .next t ∧
       (Tab.getD t.hif.rw (regAddr 9 0x100) 0 = value.toNat &&& 0xFF ∧
        (∀ r, bitOf value.toNat 31 = true → Tab.look (value.toNat % 256) s.cmp.tables = some r →
          Tab.getD t.hif.latch (regAddr 9 0x110) [] = fit 144 r.record ∧
          Tab.getD t.hif.latch (regAddr 9 0x104) [] = le 4 (2 ^ 31 +
            ((Tab.vals s.pgm.descs).filter (fun d => d.tableId == value.toNat % 256)).length)) ∧
        (bitOf value.toNat 31 = true → Tab.look (value.toNat % 256) s.cmp.tables = none →
          Tab.getD t.hif.latch (regAddr 9 0x110) [] = zeros 144 ∧ Tab.getD t.hif.latch (regAddr 9 0x104) [] = zeros 4) ∧
        (bitOf value.toNat 31 = false → t.hif.latch = s.hif.latch))) ∧
  (∀ (value : Word) (s : State),
    stwOn s = true →
    ∃ t, exec (.secKeyLatch value) s = .next t ∧
       (Tab.getD t.hif.rw (regAddr 12 0x100) 0 = value.toNat &&& 0xFF ∧
        (bitOf value.toNat 31 = true → t.sec.keyState =
          b2n (value.toNat % 256 == 0 || Tab.has (value.toNat % 256) s.sec.memory) +
          b2n (wireOf s (value.toNat % 256)).v0.isSome * 2 + b2n (wireOf s (value.toNat % 256)).v1.isSome * 4 +
          ((wireOf s (value.toNat % 256)).active.getD 0) * 8) ∧
        (bitOf value.toNat 31 = false → t.sec = s.sec))) ∧
  (∀ (value : Word) (s : State),
    inService s = true →
    ∃ t, exec (.sqsInspectLatch value) s = .next t ∧
       (Tab.getD t.hif.rw (regAddr 5 0x100) 0 = value.toNat &&& 0x3FFF ∧
        (bitOf value.toNat 31 = true → t.sqs.inspect = some (value.toNat % 2 ^ 14)) ∧
        (bitOf value.toNat 31 = false → t.sqs = s.sqs)))

/-- STATUS_ACK clears the bits it names under the sequence it read; other register writes act by kind. (Register Block
Index and Alias Tables, Host Interface and Register Conventions) -/
def Obligations.RegisterWritesDoWhatTheirKindSays : Prop :=
  (∀ (addr b o : Nat) (value : Word) (s : State),
    blockWord addr = some (b, o) → acts s b o = true → statusWords.contains (regAddr b o) = true → addr % 4 = 0 →
    seqMode s = true → value.toNat / 2 ^ 24 % 256 = evseqOf s (regAddr b o) →
    ∃ t, exec (.statusAck addr value) s = .next t ∧
       ((∀ i, (sqBits t (regAddr b o)).testBit i =
          ((sqBits s (regAddr b o)).testBit i && !(value.toNat % 2 ^ 24).testBit i)) ∧
        evseqOf t (regAddr b o) = evseqOf s (regAddr b o) ∧ t.counters = s.counters)) ∧
  (∀ (addr b o : Nat) (value : Word) (s : State),
    blockWord addr = some (b, o) → acts s b o = true → statusWords.contains (regAddr b o) = true → addr % 4 = 0 →
    seqMode s = true → value.toNat / 2 ^ 24 % 256 ≠ evseqOf s (regAddr b o) →
    ∃ t, exec (.statusAck addr value) s = .next t ∧
       ((∀ e, eventBit s e = true → eventBit t e = true) ∧ counter t cAckStale = min (counter s cAckStale + 1) sMax)) ∧
  (∀ (addr : Nat) (s : State),
    stwOn s = true → unusedRange addr = true →
    ∃ t, exec (.unmappedAccess addr) s = .next t ∧
       (eventBit t .unmappedAccess = true ∧ counter t cUnmapped = min (counter s cUnmapped + 1) sMax ∧
        Only [.hif, .hlt, .status, .counters] s t)) ∧
  (∀ (addr be : Nat) (value : Word) (s : State),
    stwOn s = true → (touched addr).any unusedRange = false → (addr % 4 ≠ 0 ∨ be % 16 ≠ 15) →
    ∃ t, exec (.registerWrite addr value be) s = .next t ∧ (t = s)) ∧
  (∀ (addr be : Nat) (value : Word) (s : State),
    stwOn s = true → (touched addr).any unusedRange = true →
    ∃ t, exec (.registerWrite addr value be) s = .next t ∧
       (eventBit t .unmappedAccess = true ∧ counter t cUnmapped = min (counter s cUnmapped + 1) sMax)) ∧
  (∀ (addr : Nat) (value : Word) (s : State),
    stwOn s = true → addr % 4 = 0 →
    (blockWord addr = some (0, 0x200) → ∃ t, exec (.registerWrite addr value 15) s = .next t ∧
       (regWord t 0 0x200 = value.toNat &&& 0xFFFFFFC0 ∧ Only [.hif] s t)) ∧
      (blockWord addr = some (0, 0x204) → ∃ t, exec (.registerWrite addr value 15) s = .next t ∧
       (regWord t 0 0x204 = value.toNat &&& 0xFFFF ∧ Only [.hif] s t))) ∧
  (∀ (addr b o : Nat) (value : Word) (s : State),
    stwOn s = true → blockWord addr = some (b, o) → addr % 4 = 0 → statusWords.contains (regAddr b o) = false →
    rwMask b o = 0 → actions b o = 0 → b ≠ 1 →
    ∃ t, exec (.registerWrite addr value 15) s = .next t ∧ (t = s)) ∧
  (∀ (addr i : Nat) (value : Word) (s : State),
    stwOn s = true → aliasWord addr = some (0, 0x200, i) → addr % 4 = 0 → 6 ≤ i → i < 32 →
    regWord s 0 0x200 &&& 0xFFFFFFC0 = regWord s 0 0x200 →
    ∃ t, exec (.aliasBitWrite addr value) s = .next t ∧
       ((∀ j, (regWord t 0 0x200).testBit j = if j = i then decide (value.toNat % 2 = 1) else (regWord s 0 0x200).testBit j) ∧
        Only [.hif] s t)) ∧
  (∀ (addr b o i : Nat) (value : Word) (s : State),
    aliasWord addr = some (b, o, i) →
    (statusWords.contains (regAddr b o) = true ∨ (bitOf (actions b o) i = false ∧ bitOf (writable b o) i = false)) →
    ∃ t, exec (.aliasBitWrite addr value) s = .next t ∧ (t = s))

/-- A good frame of SEND, WRITE, READ or ATOMIC is received, done and answered; a policed one is dropped. (Fabric Ports,
Transport and Windows, Weir: Traffic Shaping and Policing) -/
def Obligations.NodorReceiver : Prop :=
  (∀ (at_ : Nat) (p : Packet) (s : State),
    FrameGood 1 p (setNow at_ s) → PacketAllowed p (setNow at_ s) → findIn s p = none → SourceHeld p s →
    intakeFree s p = true → p.count ≠ 1 →
    ∃ t, exec (.nodorSend at_ p) s = .next t ∧ (∃ owed, t.fab.inbound =
        s.fab.inbound ++ [{ newIn p (setNow at_ s) with got := [(p.index, (p.pktOffset, p.payload))], owed := owed }])) ∧
  (∀ (at_ : Nat) (p : Packet) (s : State),
    FrameGood 1 p (setNow at_ s) → PacketAllowed p (setNow at_ s) → findIn s p = none → SourceHeld p s →
    intakeFree s p = true → p.count = 1 → p.index = 0 → p.pktOffset = 0 → p.payload.length = p.msgLen →
    p.opcode = 1 → (s.fab.done.filter (fun d => d.source == p.source)).length < 4096 →
    ∃ t, exec (.nodorSend at_ p) s = .next t ∧ (∃ u, t = deliver 0 { port := p.port, source := p.source, dike := p.dike, bytes := p.payload } u ∧
        doneMsg p none (setNow at_ s).tmu.now ∈ u.fab.done ∧ u.fab.inbound = s.fab.inbound ∧
        FrameQueued 0 (plainFrame 8 p.dike p.source p.window p.gen p.msgSeq 8 0 1 0 (le 1 1 ++ zeros 7)) s u ∧
        Only [.fab, .wei, .hif, .hlt, .status] (setNow at_ s) u)) ∧
  (∀ (at_ : Nat) (p : Packet) (d : Desc) (s : State),
    FrameGood 2 p (setNow at_ s) → PacketAllowed p (setNow at_ s) → findIn s p = none → SourceHeld p s →
    Passes p (setNow at_ s) → p.count ≠ 1 → Tab.look (windowOf s p.window).desc s.pgm.descs = some d →
    d.tenant = p.dike →
    ∃ t, exec (.nodorWrite at_ p) s = .next t ∧
       (t.pgm = { s.pgm with
          descs := Tab.put (windowOf s p.window).desc { d.write ((windowOf s p.window).base + p.winOffset + p.pktOffset) p.payload with
            lease := some (stepNo (setNow at_ s)), lastRead := stepNo (setNow at_ s) } s.pgm.descs } ∧
        ∃ owed, t.fab.inbound =
          s.fab.inbound ++ [{ newIn p (setNow at_ s) with got := [(p.index, (p.pktOffset, p.payload))], owed := owed }])) ∧
  (∀ (at_ : Nat) (p : Packet) (d : Desc) (s : State),
    FrameGood 2 p (setNow at_ s) → PacketAllowed p (setNow at_ s) → findIn s p = none → SourceHeld p s →
    Passes p (setNow at_ s) → p.count = 1 → p.index = 0 → p.pktOffset = 0 → p.payload.length = p.msgLen →
    p.opcode = 2 → (s.fab.done.filter (fun d => d.source == p.source)).length < 4096 → packetNotify p = false →
    Tab.look (windowOf s p.window).desc s.pgm.descs = some d → d.tenant = p.dike →
    ∃ t, exec (.nodorWrite at_ p) s = .next t ∧
       (t.pgm = { s.pgm with
          descs := Tab.put (windowOf s p.window).desc { d.write ((windowOf s p.window).base + p.winOffset + p.pktOffset) p.payload with
            lease := some (stepNo (setNow at_ s)), lastRead := stepNo (setNow at_ s) } s.pgm.descs } ∧
        doneMsg p none (setNow at_ s).tmu.now ∈ t.fab.done ∧ t.fab.inbound = s.fab.inbound ∧
        FrameQueued 0 (plainFrame 8 p.dike p.source p.window p.gen p.msgSeq 8 0 1 0 (le 1 1 ++ zeros 7)) s t)) ∧
  (∀ (at_ : Nat) (p : Packet) (s : State),
    FrameGood 2 p (setNow at_ s) → PacketAllowed p (setNow at_ s) → findIn s p = none →
    (Tab.getD s.wei.policers p.dike {}).enable = true →
    (Tab.getD s.wei.policers p.dike {}).tokensAt (setNow at_ s).tmu.now < max p.payload.length 64 * 1000 →
    ∃ t, exec (.nodorWrite at_ p) s = .next t ∧
       (t.pgm = s.pgm ∧ t.fab.inbound = s.fab.inbound ∧ eventBit t .policed = true ∧
        min (counter s cPoliced + 1) sMax ≤ counter t cPoliced)) ∧
  (∀ (at_ : Nat) (p : Packet) (d : Desc) (s : State),
    FrameGood 3 p (setNow at_ s) → PacketAllowed p (setNow at_ s) → SourceHeld p s → Passes p (setNow at_ s) →
    Tab.look (windowOf s p.window).desc s.pgm.descs = some d →
    (s.fab.done.filter (fun d => d.source == p.source)).length < 4096 → d.tenant = p.dike →
    ∃ t, exec (.nodorRead at_ p) s = .next t ∧ (∃ u, doneMsg p none (setNow at_ s).tmu.now ∈ u.fab.done ∧
        u.wei.queues = s.wei.queues ∧ u.fab.inbound = s.fab.inbound ∧ u.pgm = s.pgm ∧
        ∃ parts, parts = offsets 0 (chunks packetBytes
            (d.read ((windowOf s p.window).base + p.winOffset) (fld p.payload 0 4))) ∧
          t = ((List.range parts.length).zip parts).foldl (fun s q => queueFrame (dikeQueue p.dike 0)
            (plainFrame 4 p.dike p.source 0 0 p.msgSeq (fld p.payload 0 4) q.1 parts.length q.2.1 q.2.2) s) u)) ∧
  (∀ (at_ : Nat) (p : Packet) (d : Desc) (s : State) (old new : Nat),
    FrameGood 5 p (setNow at_ s) → PacketAllowed p (setNow at_ s) → SourceHeld p s → Passes p (setNow at_ s) →
    Tab.look (windowOf s p.window).desc s.pgm.descs = some d →
    old = unle (d.read ((windowOf s p.window).base + p.winOffset) 8) →
    (new = if fld p.payload 0 1 = 1 then (old + fld p.payload 8 8) % 2 ^ 64
      else if old = fld p.payload 16 8 then fld p.payload 8 8 else old) →
    (s.fab.done.filter (fun d => d.source == p.source)).length < 4096 → d.tenant = p.dike →
    ∃ t, exec (.nodorAtomic at_ p) s = .next t ∧
       (t.pgm = { s.pgm with
          descs := Tab.put (windowOf s p.window).desc { d.write ((windowOf s p.window).base + p.winOffset) (le 8 new) with
            lease := some (stepNo (setNow at_ s)), lastRead := stepNo (setNow at_ s) } s.pgm.descs } ∧
        doneMsg p (some old) (setNow at_ s).tmu.now ∈ t.fab.done ∧
        FrameQueued (dikeQueue p.dike 0) (plainFrame 6 p.dike p.source p.window p.gen p.msgSeq 8 0 1 0 (le 8 old)) s t))

/-- ACK, NACK, ATOMIC_DATA and READ_DATA end the message and its command; timers acknowledge, resend, abandon; ports
change. (Fabric Ports, Transport and Windows) -/
def Obligations.NodorSender : Prop :=
  (∀ (at_ a : Nat) (p : Packet) (m : OutMsg) (k : Ticket) (s : State),
    FrameGood 8 p (setNow at_ s) → findOut s p.source p.msgSeq = some m → (m.window = p.window ∧ m.gen = p.gen) →
    fld p.payload 0 1 ≠ 2 → m.opcode = 2 → m.carried = .hostWrite k a → k.ring < 64 →
    ∃ t, exec (.nodorAck at_ p) s = .next t ∧ (MessageEnded m s t ∧
        (k.silent = false → Answered k 0 0 0 0 0 (setNow at_ s) t))) ∧
  (∀ (at_ : Nat) (p : Packet) (m : OutMsg) (k : Ticket) (s : State),
    FrameGood 9 p (setNow at_ s) → findOut s p.source p.msgSeq = some m → (m.window = p.window ∧ m.gen = p.gen) →
    m.ticket = some k → k.ring < 64 →
    ∃ t, exec (.nodorNack at_ p) s = .next t ∧ (MessageEnded m s t ∧
        Answered k 2 0 (fld p.payload 0 1) 0 0 (setNow at_ s) t)) ∧
  (∀ (at_ : Nat) (p : Packet) (m : OutMsg) (k : Ticket) (s : State),
    FrameGood 6 p (setNow at_ s) → findOut s p.source p.msgSeq = some m → m.opcode = 5 → m.carried = .hostAtomic k →
    k.ring < 64 →
    ∃ t, exec (.nodorAtomicData at_ p) s = .next t ∧ (MessageEnded m s t ∧
        (k.silent = false → Answered k 0 0 0 (fld p.payload 0 8) 0 (setNow at_ s) t))) ∧
  (∀ (at_ a : Nat) (p : Packet) (m : OutMsg) (k : Ticket) (s : State),
    FrameGood 4 p (setNow at_ s) → findOut s p.source p.msgSeq = some m → m.opcode = 3 → m.carried = .hostRead k a →
    Tab.has p.index m.answer = false → p.msgLen = fld ((m.packets.map (·.2)).flatten) 0 4 →
    (Tab.put p.index (p.pktOffset, p.payload) m.answer).length ≠ p.count →
    ∃ t, exec (.nodorReadData at_ p) s = .next t ∧
       (readMem t (a + p.pktOffset) p.payload.length = p.payload ∧
        t.fab.out = s.fab.out.map (fun o => if o.dest = m.dest ∧ o.seq = m.seq then
          { o with answer := Tab.put p.index (p.pktOffset, p.payload) m.answer, answerCount := p.count } else o))) ∧
  (∀ (at_ a : Nat) (p : Packet) (m : OutMsg) (k : Ticket) (s : State),
    FrameGood 4 p (setNow at_ s) → findOut s p.source p.msgSeq = some m → m.opcode = 3 → m.carried = .hostRead k a →
    Tab.has p.index m.answer = false → p.msgLen = fld ((m.packets.map (·.2)).flatten) 0 4 →
    (Tab.put p.index (p.pktOffset, p.payload) m.answer).length = p.count →
    ((Tab.put p.index (p.pktOffset, p.payload) m.answer).map (fun g => g.2.2.length)).sum = p.msgLen → k.ring < 64 →
    ∃ t, exec (.nodorReadData at_ p) s = .next t ∧
       (MessageEnded m s t ∧ (k.silent = false → Answered k 0 0 0 0 0 (setNow at_ s) t) ∧
        ∃ u, readMem u (a + p.pktOffset) p.payload.length = p.payload ∧ t = complete k 0 0 0 0 0 (endMsg m.dest m.seq u))) ∧
  (∀ (source msgSeq : Nat) (m : InMsg) (s : State),
    s.fab.inbound.find? (fun m => m.source == source && m.seq == msgSeq) = some m →
    ∃ t, exec (.partialAckTimer source msgSeq) s = .next t ∧
       (t.tmu = { s.tmu with now := max s.tmu.now (m.latest + 16000) } ∧
        t.fab.inbound = s.fab.inbound.filter (fun x =>
          !(x.source == m.source && x.seq == m.seq && x.window == m.window && x.gen == m.gen)) ++ [{ m with latest := t.tmu.now }] ∧
        FrameQueued 0 (plainFrame 8 m.dike m.source m.window m.gen m.seq (le 1 2 ++ zeros 7 ++ bitmapOf m).length 0 1 0
          (le 1 2 ++ zeros 7 ++ bitmapOf m)) s t)) ∧
  (∀ (at_ dest msgSeq : Nat) (m : OutMsg) (s : State),
    findOut s dest msgSeq = some m → m.unsent = 0 → m.firstSent.isSome = true →
    m.latestSent + s.stw.charter.resend * 1000 ≤ (setNow at_ s).tmu.now →
    ∃ t, exec (.resendTimeout at_ dest msgSeq) s = .next t ∧
       (FrameQueued m.queue (m.frame (m.packets.length - 1) 0 6) s t ∧ counter t cResend = min (counter s cResend + 1) sMax ∧
        t.fab.out = s.fab.out)) ∧
  (∀ (dest msgSeq first : Nat) (m : OutMsg) (k : Ticket) (s : State),
    findOut s dest msgSeq = some m → m.firstSent = some first → m.ticket = some k → k.ring < 64 →
    ∃ t, exec (.messageAbandonTimer dest msgSeq) s = .next t ∧
       (MessageEnded m s t ∧ t.tmu = { s.tmu with now := max s.tmu.now (first + 1000000000) } ∧
        eventBit t .messageAbandoned = true ∧ counter t cAbandon = min (counter s cAbandon + 1) sMax ∧
        Answered k 3 0 0 0 0 (setNow (first + 1000000000) s) t)) ∧
  (∀ (port : Nat) (s : State),
    portsOn s = true → port ≤ 7 → (portOf s port).up = false →
    ∃ t, exec (.ethernetLinkChange port true) s = .next t ∧
       (portOf t port = { portOf s port with up := true } ∧ eventBit t .portChanged = true ∧
        Only [.fab, .hif, .hlt, .status] s t)) ∧
  (∀ (port next : Nat) (s : State),
    portsOn s = true → port ≤ 7 → (portOf s port).up = true → (portOf s port).withdrawn = false →
    next = nextPort (setPort port { portOf s port with up := false } s) (port + 1) → next ≠ port →
    ∃ t, exec (.ethernetLinkChange port false) s = .next t ∧
       (portOf t port = { portOf s port with up := false } ∧ eventBit t .portChanged = true ∧
        (∀ q, (queueOf t q).on next = (queueOf s q).on next ++ (queueOf s q).on port ∧ (queueOf t q).on port = [])))

/-- A staged image is verified, switched to, and written to flash, or its failure is kept. (Tenancy, Keys and Attestation,
Charter and Start-up) -/
def Obligations.ImagesAreVerifiedSwitchedAndWritten : Prop :=
  (∀ (sigOk : Bool) (k : Ticket) (s : State),
    inService s = true → s.sec.upd = .verifying → imageCause s (imageRead s) sigOk = 0 → s.sec.updTicket = some k →
    k.ring < 64 → k.silent = false →
    ∃ t, exec (.imageVerifyComplete sigOk) s = .next t ∧
       (t.sec = { s.sec with
          upd := .staged, staged := imageRead s, stageAt := none, stagedAt := s.tmu.now, updTicket := none } ∧ t.stw = s.stw ∧
        Answered k 0 0 0 0 0 s t)) ∧
  (∀ (sigOk : Bool) (k : Ticket) (s : State),
    inService s = true → s.sec.upd = .verifying → imageCause s (imageRead s) sigOk ≠ 0 → s.sec.updTicket = some k →
    k.ring < 64 →
    ∃ t, exec (.imageVerifyComplete sigOk) s = .next t ∧
       (t.sec = { s.sec with
          upd := .failed, staged := [], stageAt := none, updCause := imageCause s (imageRead s) sigOk, updTicket := none } ∧
        eventBit t .imageRefused = true ∧ ∃ c, 1 ≤ c ∧ c ≤ 12 ∧ Answered k 1 c 0 0 0 s t)) ∧
  (∀ (s : State),
    inService s = true → s.sec.upd = .staged →
    ∃ t, exec .stagedImageTimeout s = .next t ∧
       (t.sec = { s.sec with upd := .idle, staged := [] } ∧ t.tmu.now = max s.tmu.now (s.sec.stagedAt + 600000000000))) ∧
  (∀ (k : Ticket) (s : State),
    inService s = true → s.sec.upd = .switching → s.sec.updTicket = some k → k.ring < 64 → k.silent = false →
    (∀ e, s.stw.flashQueue.head? ≠ some (.health e)) →
    ∃ t, exec .firmwareSwitchComplete s = .next t ∧
       (t.sec.running = s.sec.staged ∧ t.sec.upd = .writingFlash ∧ t.sec.staged = [] ∧ t.sec.updTicket = none ∧
        t.sec.events = s.sec.events + 1 ∧
        t.sec.accumulated = sha384 (s.sec.accumulated ++ (le 4 5 ++ sha384 (s.sec.staged.take 176))) ∧
        t.stw.flashQueue = s.stw.flashQueue ++ [.image s.sec.staged false] ∧ t.stw.flash = s.stw.flash ∧
        eventBit t .firmwareSwitched = true ∧ Answered k 0 0 0 0 0 s t)) ∧
  (∀ (bytes : List Byte) (rest : List FlashWrite) (s : State),
    inService s = true → s.stw.flashQueue = .image bytes false :: rest → (∀ e, rest.head? ≠ some (.health e)) →
    ∃ t, exec (.flashWriteComplete true) s = .next t ∧
       (t.stw.flash = Tab.putRun imageBase bytes s.stw.flash ∧ t.stw.flashQueue = rest ∧
        t.sec = { s.sec with upd := .flashDone })) ∧
  (∀ (bytes : List Byte) (rest : List FlashWrite) (s : State),
    inService s = true → s.stw.flashQueue = .image bytes true :: rest → (∀ e, rest.head? ≠ some (.health e)) →
    ∃ t, exec (.flashWriteComplete true) s = .next t ∧
       (t.stw.flash = Tab.putRun imageBase bytes s.stw.flash ∧ t.stw.flashQueue = rest ∧ t.sec = s.sec ∧
        eventBit t .flashDone = true)) ∧
  (∀ (bytes : List Byte) (recovery : Bool) (rest : List FlashWrite) (s : State),
    inService s = true → s.stw.flashQueue = .image bytes recovery :: rest → (∀ e, rest.head? ≠ some (.health e)) →
    ∃ t, exec (.flashWriteComplete false) s = .next t ∧
       ((∃ k, k ≤ bytes.length ∧ t.stw.flash = Tab.putRun imageBase
          (bytes.take k ++ List.replicate (bytes.length - k) 0xFF#8) s.stw.flash) ∧
        t.stw.flashQueue = rest ∧ t.sec = { s.sec with upd := .failed, updCause := 7 }))

/-- CHARTER_WRITE queues a charter or fails it; its completion leaves it in flash, or a broken region. (Charter and
Start-up) -/
def Obligations.CharterRegionIsWritten : Prop :=
  (∀ (placed : Placed) (s : State),
    2 ≤ s.stw.powerStep → charterBusy s = false → inHdm (charterSrc s) charterBytes = true →
    (∀ e, s.stw.flashQueue.head? ≠ some (.health e)) →
    ∃ t, exec (.charterWrite placed) s = .next t ∧
       (t.stw.flashQueue = s.stw.flashQueue ++ [.charter (readMem (place placed s) (charterSrc s) charterBytes)] ∧
        t.stw.charterState = (if s.stw.flashQueue = [] then 2 else 1) ∧ t.stw.flash = s.stw.flash)) ∧
  (∀ (placed : Placed) (s : State),
    2 ≤ s.stw.powerStep → (charterBusy s = true ∨ inHdm (charterSrc s) charterBytes = false) →
    ∃ t, exec (.charterWrite placed) s = .next t ∧
       (t.stw = { s.stw with charterState := 4 } ∧ eventBit t .charterFailed = true)) ∧
  (∀ (image : List Byte) (rest : List FlashWrite) (s : State),
    s.stw.flashQueue = .charter image :: rest → (∀ e, rest.head? ≠ some (.health e)) →
    (∀ i, rest.head? ≠ some (.charter i)) →
    ∃ t, exec (.charterWriteComplete true) s = .next t ∧
       (t.stw = { s.stw with
          flash := Tab.putRun charterBase image s.stw.flash, flashQueue := rest, charterState := 3 } ∧
        eventBit t .charterDone = true)) ∧
  (∀ (image : List Byte) (rest : List FlashWrite) (s : State),
    s.stw.flashQueue = .charter image :: rest → (∀ e, rest.head? ≠ some (.health e)) →
    (∀ i, rest.head? ≠ some (.charter i)) →
    ∃ t, exec (.charterWriteComplete false) s = .next t ∧
       (t.stw.flashQueue = rest ∧ t.stw.charterState = 4 ∧ eventBit t .charterFailed = true ∧
        ∃ k, k ≤ charterBytes ∧ t.stw.flash = Tab.putRun charterBase
          (image.take k ++ List.replicate (charterBytes - k) 0xFF#8) s.stw.flash))

/-- Journal and checkpoint registers, and the end of a replayed step. (Determinism, Record and Replay) -/
def Obligations.JournalCheckpointsReplay : Prop :=
  (∀ (value : Word) (s : State),
    inService s = true → s.stw.charter.replay = 0 →
    ∃ t, exec (.journalTailWrite value) s = .next t ∧ (∃ held, t = { s with hlt := { s.hlt with
          jTail := bitsOf value.toNat 25 0, jHeld := held } } ∧ ∀ r ∈ held, r ∈ s.hlt.jHeld)) ∧
  (∀ (value : Word) (s : State),
    s.stw.charter.replay = 1 →
    ∃ t, exec (.journalTailWrite value) s = .next t ∧ (t = s)) ∧
  (∀ (value : Word) (placed : Placed) (s : State),
    inService s = true → s.stw.charter.replay = 1 → s.hlt.starved = false →
    ∃ t, exec (.journalHeadWrite value placed) s = .next t ∧
       (t = { place placed s with hlt := { s.hlt with jHead := bitsOf value.toNat 25 0 } })) ∧
  (∀ (value : Word) (s : State),
    inService s = true →
    ∃ t, exec (.ckptTailWrite value) s = .next t ∧
       (t = { s with hlt := { s.hlt with ckptTail := bitsOf value.toNat 25 0 } })) ∧
  (∀ (rs : List JRec) (tail n : Nat) (r : JRec) (s : State),
    inService s = true → s.stw.charter.replay = 1 → s.hlt.replaying = true → nextStep s = some (rs, tail) →
    stepMismatch s rs = some (r, n) →
    ∃ t, exec .replayStepComplete s = .next t ∧
       (t.hlt = { s.hlt with
          jTail := tail % journalUnits s, replaying := false, halted := true
          div := le 6 (s.tmu.boundary.getD 0) ++ le 1 r.kind ++ zeros 1 ++ le 4 n ++ le 4 r.jseq } ∧
        eventBit t .replayDiverged = true)) ∧
  (∀ (rs : List JRec) (tail : Nat) (s : State),
    inService s = true → s.stw.charter.replay = 1 → s.hlt.replaying = true → nextStep s = some (rs, tail) →
    stepMismatch s rs = none → s.hlt.halted = false → s.hlt.starved = false → nextStep (passStep tail s) = none →
    ∃ t, exec .replayStepComplete s = .next t ∧
       (t.hlt = { s.hlt with jTail := tail % journalUnits s, replaying := false, starved := true } ∧
        eventBit t .replayStarved = true))

/-- A boundary opens the next step at its instant, samples the time state and brown-out, and swaps the tide table. (Time,
the Step Grid and the Tide Table, Sequences, Steps and Admission) -/
def Obligations.StepBoundaryOpensTheStep : Prop :=
  ∀ (workNs : Nat) (s : State),
    inService s = true → s.stw.charter.replay ≠ 1 → s.tmu.gridRun = true →
    (s.tmu.state ≠ .lost ∨ s.tmu.stepReq = false) →
    ∃ t, exec (.stepBoundary workNs) s = .next t ∧
       (t.tmu.boundary = some (nextBoundary s) ∧
        t.tmu.now = max s.tmu.now (epochNs s + nextBoundary s * periodNs s) ∧ t.tmu.openedAt = t.tmu.now ∧
        t.tmu.sampled = s.tmu.state ∧ t.tmu.state = s.tmu.state ∧ t.tmu.sampledBrown = s.sup.brown ∧
        t.tmu.bank = 1 - s.tmu.bank ∧ t.tmu.opened = [] ∧ t.sqs.inspect = none ∧ min workNs 200000 ≤ t.sqs.peak)

/-- RING_CTRL starts, configures and stops a ring; head and tail writes move it, and a tail past the size is an error.
(Host Interface and Register Conventions) -/
def Obligations.RingRegisters : Prop :=
  (∀ (ring : Nat) (value : Word) (s : State),
    inService s = true → ring < 64 → (ringOf s ring).enabled = false → bitOf value.toNat 31 = true →
    ∃ t, exec (.ringCtrlWrite ring value) s = .next t ∧ (t = setRing ring { ringOf s ring with
        ctrl := value.toNat / 2 ^ 16 % 2 ^ 16 * 2 ^ 16, error := false, sqHead := 0, sqTail := 0, cqHead := 0, cqTail := 0
        phase := true, held := 0 } s)) ∧
  (∀ (ring : Nat) (value : Word) (s : State),
    inService s = true → ring < 64 → (ringOf s ring).enabled = false → bitOf value.toNat 31 = false →
    ∃ t, exec (.ringCtrlWrite ring value) s = .next t ∧
       (t = setRing ring { ringOf s ring with ctrl := value.toNat / 2 ^ 16 % 2 ^ 16 * 2 ^ 16 } s)) ∧
  (∀ (ring : Nat) (value : Word) (s : State),
    inService s = true → ring < 64 → (ringOf s ring).enabled = true → bitOf value.toNat 31 = false →
    ∃ t, exec (.ringCtrlWrite ring value) s = .next t ∧
       (t = setRing ring { ringOf s ring with ctrl := (ringOf s ring).ctrl % 2 ^ 31 } s)) ∧
  (∀ (ring : Nat) (value : Word) (s : State),
    inService s = true → ring < 64 → (ringOf s ring).enabled = true → bitOf value.toNat 31 = true →
    ∃ t, exec (.ringCtrlWrite ring value) s = .next t ∧ (t = s)) ∧
  (∀ (ring head : Nat) (s : State),
    inService s = true → ring < 64 → (ringOf s ring).sqHead = (ringOf s ring).sqTail →
    ∃ t, exec (.cqHeadWrite ring head) s = .next t ∧ (t = setRing ring { ringOf s ring with
        cqHead := head % 4096
        held := (ringOf s ring).held -
          (head % 4096 + (ringOf s ring).size - (ringOf s ring).cqHead % (ringOf s ring).size) % (ringOf s ring).size } s)) ∧
  (∀ (at_ ring tail : Nat) (placed : Placed) (s : State),
    inService s = true → ring < 64 → (ringOf s ring).enabled = true → (ringOf s ring).error = false →
    (ringOf s ring).size ≤ tail % 8192 →
    ∃ t, exec (.sqDoorbell at_ ring tail placed) s = .next t ∧
       (ringOf t ring = { ringOf s ring with sqTail := tail % 8192, error := true } ∧ eventBit t .ringError = true)) ∧
  (∀ (at_ ring tail : Nat) (placed : Placed) (s : State),
    inService s = true → ring < 64 → ((ringOf s ring).error = true ∨ (ringOf s ring).enabled = false ∨
      (ringOf s ring).sqHead = tail % 8192 ∧ tail % 8192 < (ringOf s ring).size) →
    ∃ t, exec (.sqDoorbell at_ ring tail placed) s = .next t ∧
       (t = setRing ring { ringOf s ring with sqTail := tail % 8192 } (place placed (setNow at_ s))))

/-- A sealed page is packed, a promotion copies, a write-back moves an extent, an output goes to an accelerator.
(Key-Value Pages, Hoppers and Freeboard, Memory Tiers, Sluice: Ownership and Handoff of Request State, Host Interface and
Register Conventions) -/
def Obligations.SealsTiersAndOutputs : Prop :=
  (∀ (i : Nat) (s : State) (d : Desc) (c : Ctx) (bs : List Scb),
    inService s = true → descAt s i = some d → d.object = false → d.packed = false → d.state = .sealing →
    ctxOf s d.context = some c →
    bs = packAll (currentTable s d.context 1 (stepNo s)) (layoutOf c.kvFormat) (rawPage c (pageTokens s) d.rows) →
    ∃ t, exec (.sealComplete i) s = .next t ∧ (∃ exts, (∀ x ∈ exts, x ∉ extentsNamed s) ∧
        descAt t i = some { d with
          packed := true
          homeExt := exts
          blocks := lockAll (memoryKey s d.tenant) exts (bs.map Scb.raw)
          packTable := match currentTable s d.context 1 (stepNo s) with
            | some x => x.1
            | none => 0
          refcount := d.refcount - 1
          state := if d.refcount - 1 = 0 then .released else d.state })) ∧
  (∀ (i : Nat) (s : State) (d : Desc) (bs : List (List Byte)),
    inService s = true → descAt s i = some d → d.promoting = true → d.copy ≠ some (List.range d.extents) →
    copiedBlocks s d = some bs →
    ∃ t, exec (.promotionComplete i) s = .next t ∧
       (descAt t i = some { d with copy := some (List.range d.extents), copyBlocks := bs } ∧
        acctOf t d.tenant = ((acctOf s d.tenant).add 4 d.size).add 3 d.size)) ∧
  (∀ (i : Nat) (s : State) (d : Desc),
    inService s = true → descAt s i = some d → d.promoting = true → d.copy ≠ some (List.range d.extents) →
    copiedBlocks s d = none →
    ∃ t, exec (.promotionComplete i) s = .next t ∧ (eventBit t .blockDamaged = true)) ∧
  (∀ (i extent : Nat) (s : State) (d : Desc),
    inService s = true → descAt s i = some d → extent ∈ d.writing →
    ∃ t, exec (.writebackExtent i extent) s = .next t ∧
       (descAt t i = some { d with
          bytes := (d.copyBytes.filter (fun b => decide (extent * Config.extentBytes ≤ b.1) &&
            decide (b.1 < extent * Config.extentBytes + Config.extentBytes))).foldl (fun t b => Tab.put b.1 b.2 t) d.bytes
          dirty := d.dirty.filter (· ≠ extent), writing := d.writing.filter (· ≠ extent) } ∧
        counter t cWriteback = min (counter s cWriteback + 1) sMax)) ∧
  (∀ (h : Hidden) (s : State) (slot : Nat) (e : Seq) (c : Ctx) (o : Owned),
    takesFrom s h.source = true → roleC s = false → ownedBy s h.source h.handle = some slot → seqAt s slot = some e →
    e.ownEpoch = h.epoch → ctxOf s e.context = some c → ownedAt s slot = some o → h.damage = 0 →
    ∃ t, exec (.attentionOutput h) s = .next t ∧
       (ownedAt t slot = some { o with answered := true, layer := h.layer } ∧
        seqAt t slot = some (if h.layer + 1 = c.layers.length then
          { e with position := max e.position (h.firstPos + h.rows.length) } else e) ∧
        ∃ k, (channelOf t k = { channelOf s k with
            outHead := ((channelOf s k).outHead + (exchangeRecord 1 (if c.actFmt = 1 then 1 else 0) e.context h.layer h.step
              h.rows.length e.handle h.firstPos (h.rows.map (codesBytes c.actFormat)).flatten).length) % outRingSize } ∨
          channelOf t k = { channelOf s k with waiting := (channelOf s k).waiting ++
            [exchangeRecord 1 (if c.actFmt = 1 then 1 else 0) e.context h.layer h.step h.rows.length e.handle h.firstPos
              (h.rows.map (codesBytes c.actFormat)).flatten] }))) ∧
  (∀ (h : Hidden) (s : State),
    takesFrom s h.source = true → roleC s = false → h.damage ≠ 0 →
    ∃ t, exec (.attentionOutput h) s = .next t ∧ (t.sqs = s.sqs ∧ t.hif.channels = s.hif.channels ∧ eventBit t .blockDamaged = true)) ∧
  (∀ (channel tail : Nat) (s : State),
    inService s = true → roleC s = false → channel < 16 → (channelOf s channel).waiting = [] →
    ∃ t, exec (.outTailWrite channel tail) s = .next t ∧
       (channelOf t channel = { channelOf s channel with outTail := tail % outRingSize / 64 * 64 })) ∧
  (∀ (channel tail : Nat) (r : List Byte) (s : State),
    inService s = true → roleC s = false → channel < 16 → (channelOf s channel).waiting = [r] →
    channelOn s channel = true →
    outRoom { channelOf s channel with outTail := tail % outRingSize / 64 * 64 } r.length = true →
    ∃ t, exec (.outTailWrite channel tail) s = .next t ∧
       (channelOf t channel = { channelOf s channel with
          outTail := tail % outRingSize / 64 * 64, waiting := []
          outHead := ((channelOf s channel).outHead + r.length) % outRingSize }))
end

