-- ==== Sys2Proof/Laws/Parts.lean ====
section
/-! SUPPORT. Frames (Safety.Only): which parts of the state an operation may change. It is reflexive and transitive, widens,
and record updates and folds keep it. -/

namespace Sys2Proof.Safety

open Sys2Proof.Machine

/-- Every part of the first list stands in the second. -/
def within (a b : List Part) : Bool := a.all (fun p => b.contains p)

theorem within_refl (a : List Part) : within a a = true := by simp [within]

theorem within_trans {a b c : List Part} (h : within a b = true) (k : within b c = true) : within a c = true := by
  simp only [within, List.all_eq_true, List.contains_iff_mem] at *
  exact fun p hp => k p (h p hp)

theorem not_contains_of_within {a b : List Part} (h : within a b = true) {p : Part} (hp : b.contains p = false) :
    a.contains p = false := by
  simp only [within, List.all_eq_true, List.contains_iff_mem] at h
  by_contra hc
  have := h p (by simpa using hc)
  simp_all

theorem Part.same_trans {p : Part} {a b c : State} (h : p.same a b) (k : p.same b c) : p.same a c := by
  cases p <;> exact Eq.trans k h

theorem Only.refl (ps : List Part) (s : State) : Only ps s s := ⟨rfl, fun p _ => by cases p <;> rfl⟩

theorem Only.trans {ps : List Part} {a b c : State} (h : Only ps a b) (k : Only ps b c) : Only ps a c :=
  ⟨k.1.trans h.1, fun p hp => Part.same_trans (h.2 p hp) (k.2 p hp)⟩

theorem Only.mono {ps qs : List Part} {a b : State} (h : Only ps a b) (w : within ps qs = true) : Only qs a b :=
  ⟨h.1, fun p hp => h.2 p (not_contains_of_within w hp)⟩

/-- `t` with every part outside `c` as `s` has it. -/
def merge (c : List Part) (s t : State) : State :=
  ⟨if c.contains .tmu then t.tmu else s.tmu, if c.contains .sqs then t.sqs else s.sqs,
   if c.contains .slc then t.slc else s.slc, if c.contains .pgm then t.pgm else s.pgm,
   if c.contains .tir then t.tir else s.tir, if c.contains .cmp then t.cmp else s.cmp,
   if c.contains .car then t.car else s.car, if c.contains .mdl then t.mdl else s.mdl,
   if c.contains .fab then t.fab else s.fab, if c.contains .wei then t.wei else s.wei,
   if c.contains .hif then t.hif else s.hif, if c.contains .sec then t.sec else s.sec,
   if c.contains .hlt then t.hlt else s.hlt, if c.contains .stw then t.stw else s.stw,
   if c.contains .sup then t.sup else s.sup, if c.contains .status then t.status else s.status,
   if c.contains .counters then t.counters else s.counters, if c.contains .mem then t.mem else s.mem,
   if c.contains .free then t.freeCtr else s.freeCtr, s.pending⟩

theorem only_merge (c : List Part) (s t : State) : Only c s (merge c s t) :=
  ⟨rfl, fun p hp => by cases p <;> simp only [Part.same, merge, hp] <;> rfl⟩

/-- A record update of parts in `c`. -/
theorem Only.put {ps : List Part} {s0 s : State} {tmu sqs slc pgm tir cmp car mdl fab wei hif sec hlt stw sup status counters mem free}
    (c : List Part) (hc : within c ps = true) (h : Only ps s0 s)
    (e : merge c s ⟨tmu, sqs, slc, pgm, tir, cmp, car, mdl, fab, wei, hif, sec, hlt, stw, sup, status, counters, mem, free, s.pending⟩ =
      ⟨tmu, sqs, slc, pgm, tir, cmp, car, mdl, fab, wei, hif, sec, hlt, stw, sup, status, counters, mem, free, s.pending⟩) :
    Only ps s0 ⟨tmu, sqs, slc, pgm, tir, cmp, car, mdl, fab, wei, hif, sec, hlt, stw, sup, status, counters, mem, free, s.pending⟩ := by
  refine h.trans (Only.mono ?_ hc)
  rw [← e]
  exact only_merge c s _

/-- A fold of steps that change no other part. -/
theorem Only.foldl {α : Type} {ps : List Part} {f : State → α → State} {s0 s : State} {l : List α}
    (hf : ∀ s a, Only ps s0 s → Only ps s0 (f s a)) (h : Only ps s0 s) : Only ps s0 (l.foldl f s) := by
  induction l generalizing s with
  | nil => exact h
  | cons a t ih => exact ih (hf s a h)

theorem Only.foldl_fst {α β : Type} {ps : List Part} {f : State × β → α → State × β} {s0 : State} {p : State × β} {l : List α}
    (hf : ∀ p a, Only ps s0 p.1 → Only ps s0 (f p a).1) (h : Only ps s0 p.1) : Only ps s0 (l.foldl f p).1 := by
  induction l generalizing p with
  | nil => exact h
  | cons a t ih => exact ih (hf p a h)

theorem Only.foldl_snd {α β : Type} {ps : List Part} {f : β × State → α → β × State} {s0 : State} {p : β × State} {l : List α}
    (hf : ∀ p a, Only ps s0 p.2 → Only ps s0 (f p a).2) (h : Only ps s0 p.2) : Only ps s0 (l.foldl f p).2 := by
  induction l generalizing p with
  | nil => exact h
  | cons a t ih => exact ih (hf p a h)

theorem Only.of_snd {α : Type} {ps : List Part} {s0 s : State} {p : α × State} {a : α} (e : p = (a, s))
    (h : Only ps s0 p.2) : Only ps s0 s := by
  subst e; exact h

theorem Only.of_snd2 {α β : Type} {ps : List Part} {s0 s : State} {p : α × β × State} {a : α} {b : β} (e : p = (a, b, s))
    (h : Only ps s0 p.2.2) : Only ps s0 s := by
  subst e; exact h

theorem Only.of_fst {α : Type} {ps : List Part} {s0 s : State} {p : State × α} {a : α} (e : p = (s, a))
    (h : Only ps s0 p.1) : Only ps s0 s := by
  subst e; exact h

end Sys2Proof.Safety
end

