-- ==== Sys2Proof/Laws/PartsOps.lean ====
section
/-! SUPPORT. Which parts of the state each operation may change (Safety.Only): flags, operands, memory, windows and frames.
`f_only`: what `f` makes of a state differs from it in the parts listed alone. -/

namespace Sys2Proof.Machine

open Sys2Proof.Safety

theorem ageStatus_only {pts} {s0 s : State} (hp : within [.status] pts = true) (h : Only pts s0 s) : Only pts s0
    (ageStatus s) := by
  unfold ageStatus
  try dsimp only
  exact Only.put [.status] (within_trans rfl hp) (by assumption) rfl

theorem setStatus_only {pts} {s0 s : State} (hp : within [.status] pts = true) (a) (w) (h : Only pts s0 s) :
    Only pts s0 (setStatus a w s) := by
  unfold setStatus
  try dsimp only
  exact Only.put [.status] (within_trans rfl hp) (by assumption) rfl

theorem msix_only {pts} {s0 s : State} (hp : within [.hif] pts = true) (v) (h : Only pts s0 s) : Only pts s0
    (msix v s) := by
  unfold msix
  try dsimp only
  exact Only.put [.hif] (within_trans rfl hp) (by assumption) rfl

theorem raiseAt_only {pts} {s0 s : State} (hp : within [.hif, .status] pts = true) (a) (bit) (h :
    Only pts s0 s) : Only pts s0 (raiseAt a bit s) := by
  unfold raiseAt
  try dsimp only
  split
  · exact setStatus_only (within_trans rfl hp) _ _ (by assumption)
  · exact msix_only (within_trans rfl hp) _ (setStatus_only (within_trans rfl hp) _ _ (by assumption))

theorem raise_only {pts} {s0 s : State} (hp : within [.hif, .status] pts = true) (e_) (h : Only pts s0 s) :
    Only pts s0 (raise e_ s) := by
  unfold raise
  try dsimp only
  exact raiseAt_only (within_trans rfl hp) _ _ (by assumption)

theorem counterEvent_only {pts} {s0 s : State} (hp : within [.hif, .hlt, .status] pts = true) (sat) (block) (offset)
    (h : Only pts s0 s) : Only pts s0 (counterEvent sat block offset s) := by
  unfold counterEvent
  try dsimp only
  split
  · exact Only.put [.hlt] (within_trans rfl hp) (by assumption) rfl
  · exact raise_only (within_trans rfl hp) _ (Only.put [.hlt] (within_trans rfl hp) (by assumption) rfl)

theorem bump_only {pts} {s0 s : State} (hp : within [.hif, .hlt, .status, .counters] pts = true) (a n) (h : Only pts s0 s) :
    Only pts s0 (bump a n s) := by
  unfold bump
  dsimp only
  split
  · exact h
  · split
    · exact Only.put [.counters] (within_trans rfl hp) h rfl
    · exact counterEvent_only (within_trans rfl hp) _ _ _ (Only.put [.counters] (within_trans rfl hp) h rfl)

theorem raiseIf_only {pts} {s0 s : State} (hp : within [.hif, .status] pts = true) (b) (e_) (h :
    Only pts s0 s) : Only pts s0 (raiseIf b e_ s) := by
  unfold raiseIf
  try dsimp only
  split
  · exact raise_only (within_trans rfl hp) _ (by assumption)
  · assumption

theorem raiseTimes_only {pts} {s0 s : State} (hp : within [.hif, .status] pts = true) (e_) (x1)
    (h : Only pts s0 s) : Only pts s0 (raiseTimes e_ x1 s) := by
  induction x1 generalizing s with
  | zero => exact h
  | succ n ih => exact ih (raise_only (within_trans rfl hp) _ h)

theorem sEvent_only {pts} {s0 s : State} (hp : within [.hif, .hlt, .status] pts = true) (old) (new) (block) (offset)
    (h : Only pts s0 s) : Only pts s0 (sEvent old new block offset s) := by
  unfold sEvent
  try dsimp only
  split
  · exact counterEvent_only (within_trans rfl hp) _ _ _ (by assumption)
  · assumption

theorem wEvent_only {pts} {s0 s : State} (hp : within [.hif, .hlt, .status] pts = true) (old) (new) (block) (offset)
    (h : Only pts s0 s) : Only pts s0 (wEvent old new block offset s) := by
  unfold wEvent
  try dsimp only
  split
  · exact counterEvent_only (within_trans rfl hp) _ _ _ (by assumption)
  · assumption

theorem setRing_only {pts} {s0 s : State} (hp : within [.hif] pts = true) (r) (g) (h : Only pts s0 s) : Only pts s0
    (setRing r g s) := by
  unfold setRing
  try dsimp only
  exact Only.put [.hif] (within_trans rfl hp) (by assumption) rfl

theorem writeMem_only {pts} {s0 s : State} (hp : within [.mem] pts = true) (a bs) (h : Only pts s0 s) :
    Only pts s0 (writeMem a bs s) :=
  Only.put [.mem] (within_trans rfl hp) h rfl

theorem postEntry_only {pts} {s0 s : State} (hp : within [.hif, .mem] pts = true) (r) (mk) (h :
    Only pts s0 s) : Only pts s0 (postEntry r mk s) := by
  unfold postEntry
  try dsimp only
  exact msix_only (within_trans rfl hp) _ (setRing_only (within_trans rfl hp) _ _ (writeMem_only
    (within_trans rfl hp) _ _ (by assumption)))

theorem complete_only {pts} {s0 s : State} (hp : within [.hif, .mem] pts = true) (t) (status) (cause) (reason) (r0)
    (r1) (h : Only pts s0 s) : Only pts s0 (complete t status cause reason r0 r1 s) := by
  unfold complete
  try dsimp only
  split
  · assumption
  · split
    · exact setRing_only (within_trans rfl hp) _ _ (by assumption)
    · exact postEntry_only (within_trans rfl hp) _ _ (setRing_only (within_trans rfl hp) _ _ (by assumption))

theorem abandoned_only {pts} {s0 s : State} (hp : within [.hif, .mem] pts = true) (t) (h : Only pts s0 s) :
    Only pts s0 (abandoned t s) := by
  unfold abandoned
  try dsimp only
  exact complete_only (within_trans rfl hp) _ _ _ _ _ _ (by assumption)

theorem setAcct_only {pts} {s0 s : State} (hp : within [.hlt] pts = true) (d) (a) (h : Only pts s0 s) : Only pts s0
    (setAcct d a s) := by
  unfold setAcct
  try dsimp only
  exact Only.put [.hlt] (within_trans rfl hp) (by assumption) rfl

theorem charge_only {pts} {s0 s : State} (hp : within [.hif, .hlt, .status] pts = true) (d) (k) (n) (h :
    Only pts s0 s) : Only pts s0 (charge d k n s) := by
  unfold charge
  try dsimp only
  exact wEvent_only (within_trans rfl hp) _ _ _ _ (wEvent_only (within_trans rfl hp) _ _ _ _ (setAcct_only
    (within_trans rfl hp) _ _ (by assumption)))

theorem chargeTier_only {pts} {s0 s : State} (hp : within [.hif, .hlt, .status] pts = true) (x) (d) (n) (h :
    Only pts s0 s) : Only pts s0 (chargeTier x d n s) := by
  unfold chargeTier
  split
  · exact charge_only (within_trans rfl hp) _ _ _ (by assumption)
  · exact charge_only (within_trans rfl hp) _ _ _ (by assumption)
  · assumption

theorem chargeSplit_only {pts} {s0 s : State} (hp : within [.hif, .hlt, .status] pts = true) (k) (x) (dikes)
    (h : Only pts s0 s) : Only pts s0 (chargeSplit k x dikes s) := by
  unfold chargeSplit
  try dsimp only
  refine charge_only (within_trans rfl hp) _ _ _ ?_
  refine Only.foldl (fun _ _ _ => ?_) ?_
  · exact charge_only (within_trans rfl hp) _ _ _ (by assumption)
  · assumption

theorem done_only {pts} {s0 s : State} (hp : within [.hif, .mem] pts = true) (t) (h : Only pts s0 s) : Only pts s0
    (done t s) := by
  unfold done
  try dsimp only
  exact complete_only (within_trans rfl hp) _ _ _ _ _ _ (by assumption)

theorem doneWith_only {pts} {s0 s : State} (hp : within [.hif, .mem] pts = true) (t) (r0) (r1) (h :
    Only pts s0 s) : Only pts s0 (doneWith t r0 r1 s) := by
  unfold doneWith
  try dsimp only
  exact complete_only (within_trans rfl hp) _ _ _ _ _ _ (by assumption)

theorem rotate_only {pts} {s0 s : State} (hp : within [.fab] pts = true) (die) (h : Only pts s0 s) : Only pts s0
    (rotate die s).2.2 := by
  unfold rotate
  try dsimp only
  exact Only.put [.fab] (within_trans rfl hp) (by assumption) rfl

theorem setQueue_only {pts} {s0 s : State} (hp : within [.wei] pts = true) (q) (w) (h : Only pts s0 s) : Only pts s0
    (setQueue q w s) := by
  unfold setQueue
  try dsimp only
  exact Only.put [.wei] (within_trans rfl hp) (by assumption) rfl

theorem setActive_only {pts} {s0 s : State} (hp : within [.wei] pts = true) (p) (l) (h : Only pts s0 s) :
    Only pts s0 (setActive p l s) := by
  unfold setActive
  try dsimp only
  exact Only.put [.wei] (within_trans rfl hp) (by assumption) rfl

theorem joinActive_only {pts} {s0 s : State} (hp : within [.wei] pts = true) (q) (p) (h : Only pts s0 s) :
    Only pts s0 (joinActive q p s) := by
  unfold joinActive
  try dsimp only
  split
  · assumption
  · exact setActive_only (within_trans rfl hp) _ _ (setQueue_only (within_trans rfl hp) _ _ (by assumption))

theorem joinAll_only {pts} {s0 s : State} (hp : within [.wei] pts = true) (q) (h : Only pts s0 s) : Only pts s0
    (joinAll q s) := by
  unfold joinAll
  try dsimp only
  refine Only.foldl (fun _ _ _ => ?_) ?_
  · exact joinActive_only (within_trans rfl hp) _ _ (by assumption)
  · assumption

theorem leaveAll_only {pts} {s0 s : State} (hp : within [.wei] pts = true) (q) (h : Only pts s0 s) : Only pts s0
    (leaveAll q s) := by
  unfold leaveAll
  try dsimp only
  refine Only.foldl (fun _ _ _ => ?_) ?_
  · exact setActive_only (within_trans rfl hp) _ _ (by assumption)
  · assumption

theorem testQueue_only {pts} {s0 s : State} (hp : within [.wei] pts = true) (q) (h : Only pts s0 s) : Only pts s0
    (testQueue q s) := by
  unfold testQueue
  try dsimp only
  split
  · exact joinAll_only (within_trans rfl hp) _ (setQueue_only (within_trans rfl hp) _ _ (by assumption))
  · exact leaveAll_only (within_trans rfl hp) _ (setQueue_only (within_trans rfl hp) _ _ (by assumption))

theorem enqueue_only {pts} {s0 s : State} (hp : within [.wei] pts = true) (q) (p) (f) (h : Only pts s0 s) :
    Only pts s0 (enqueue q p f s) := by
  unfold enqueue
  try dsimp only
  split
  · exact setQueue_only (within_trans rfl hp) _ _ (by assumption)
  · split
    · exact testQueue_only (within_trans rfl hp) _ (setQueue_only (within_trans rfl hp) _ _ (by assumption))
    · split
      · split
        · exact joinActive_only (within_trans rfl hp) _ _ (setQueue_only (within_trans rfl hp) _ _ (by assumption))
        · exact setQueue_only (within_trans rfl hp) _ _ (by assumption)
      · split
        · exact joinActive_only (within_trans rfl hp) _ _ (setQueue_only (within_trans rfl hp) _ _ (by assumption))
        · exact setQueue_only (within_trans rfl hp) _ _ (by assumption)

theorem queuePacket_only {pts} {s0 s : State} (hp : within [.fab, .wei] pts = true) (m) (i) (flags) (h :
    Only pts s0 s) : Only pts s0 (queuePacket m i flags s) := by
  unfold queuePacket
  try dsimp only
  exact enqueue_only (within_trans rfl hp) _ _ _ (rotate_only (within_trans rfl hp) _ (by assumption))

theorem startMsg_only {pts} {s0 s : State} (hp : within [.fab, .wei] pts = true) (m) (h : Only pts s0 s) :
    Only pts s0 (startMsg m s) := by
  unfold startMsg
  try dsimp only
  refine Only.foldl (fun _ _ _ => ?_) ?_
  · exact queuePacket_only (within_trans rfl hp) _ _ _ (by assumption)
  · exact Only.put [.fab] (within_trans rfl hp) (by assumption) rfl

theorem submitMsg_only {pts} {s0 s : State} (hp : within [.fab, .wei] pts = true) (m) (h : Only pts s0 s) :
    Only pts s0 (submitMsg m s) := by
  unfold submitMsg
  try dsimp only
  split
  · exact startMsg_only (within_trans rfl hp) _ (by assumption)
  · exact Only.put [.fab] (within_trans rfl hp) (by assumption) rfl

theorem startWaiting_only {pts} {s0 s : State} (hp : within [.fab, .wei] pts = true) (h : Only pts s0 s) :
    Only pts s0 (startWaiting s) := by
  unfold startWaiting
  try dsimp only
  refine Only.foldl (fun _ _ _ => ?_) ?_
  · exact submitMsg_only (within_trans rfl hp) _ (by assumption)
  · exact Only.put [.fab] (within_trans rfl hp) (by assumption) rfl

theorem endMsg_only {pts} {s0 s : State} (hp : within [.fab, .wei] pts = true) (dest) (seq) (h :
    Only pts s0 s) : Only pts s0 (endMsg dest seq s) := by
  unfold endMsg
  try dsimp only
  exact startWaiting_only (within_trans rfl hp) (Only.put [.fab] (within_trans rfl hp) (by assumption) rfl)

theorem freeBelow_only {pts} {s0 s : State} (hp : within [.free] pts = true) (n) (h : Only pts s0 s) : Only pts s0
    (freeBelow n s).2 := by
  unfold freeBelow
  try dsimp only
  exact Only.put [.free] (within_trans rfl hp) (by assumption) rfl

theorem freeOf_only {pts} {s0 s : State} (hp : within [.free] pts = true) (l) (d) (h : Only pts s0 s) : Only pts s0
    (freeOf l d s).2 := by
  unfold freeOf
  try dsimp only
  exact freeBelow_only (within_trans rfl hp) _ (by assumption)

theorem freeSlot_only {pts} {s0 s : State} (hp : within [.free] pts = true) (used) (n) (h : Only pts s0 s) :
    Only pts s0 (freeSlot used n s).2 := by
  unfold freeSlot
  try dsimp only
  exact freeBelow_only (within_trans rfl hp) _ (by assumption)

theorem malformed_only {pts} {s0 s : State} (hp : within [.hif, .mem] pts = true) (t) (h : Only pts s0 s) :
    Only pts s0 (malformed t s) := by
  unfold malformed
  try dsimp only
  exact complete_only (within_trans rfl hp) _ _ _ _ _ _ (by assumption)

theorem notice_only {pts} {s0 s : State} (hp : within [.hif, .hlt, .status, .counters, .mem] pts = true) (ring)
    (seq) (window) (gen) (offset) (len) (h : Only pts s0 s) : Only pts s0 (notice ring seq window gen offset len s) := by
  unfold notice
  try dsimp only
  split
  · exact postEntry_only (within_trans rfl hp) _ _ (by assumption)
  · exact raise_only (within_trans rfl hp) _ (bump_only (within_trans rfl hp) _ _ (by assumption))

theorem place_only {pts} {s0 s : State} (hp : within [.mem] pts = true) (p) (h : Only pts s0 s) : Only pts s0
    (place p s) := by
  unfold place
  split
  · exact Only.put [.mem] (within_trans rfl hp) h rfl
  · exact h

theorem queueDisabled_only {pts} {s0 s : State} (hp : within [.hif, .mem] pts = true) (t) (h : Only pts s0 s) :
    Only pts s0 (queueDisabled t s) := by
  unfold queueDisabled
  try dsimp only
  exact complete_only (within_trans rfl hp) _ _ _ _ _ _ (by assumption)

theorem queueFrame_only {pts} {s0 s : State} (hp : within [.fab, .wei] pts = true) (q) (f) (h :
    Only pts s0 s) : Only pts s0 (queueFrame q f s) := by
  unfold queueFrame
  try dsimp only
  exact enqueue_only (within_trans rfl hp) _ _ _ (rotate_only (within_trans rfl hp) _ (by assumption))

theorem reasonWith_only {pts} {s0 s : State} (hp : within [.hif, .mem] pts = true) (t) (reason) (h :
    Only pts s0 s) : Only pts s0 (reasonWith t reason s) := by
  unfold reasonWith
  try dsimp only
  exact complete_only (within_trans rfl hp) _ _ _ _ _ _ (by assumption)

theorem refusedWith_only {pts} {s0 s : State} (hp : within [.hif, .mem] pts = true) (t) (cause) (h :
    Only pts s0 s) : Only pts s0 (refusedWith t cause s) := by
  unfold refusedWith
  try dsimp only
  exact complete_only (within_trans rfl hp) _ _ _ _ _ _ (by assumption)

theorem takeSeq_only {pts} {s0 s : State} (hp : within [.fab] pts = true) (dest) (h : Only pts s0 s) : Only pts s0
    (takeSeq dest s).2 := by
  unfold takeSeq
  try dsimp only
  exact Only.put [.fab] (within_trans rfl hp) (by assumption) rfl

theorem sendPieces_only {pts} {s0 s : State} (hp : within [.fab, .wei, .hlt] pts = true) (dest) (dike) (charged)
    (carried) (sseq) (pieces) (h : Only pts s0 s) : Only pts s0 (sendPieces dest dike charged carried sseq pieces s) := by
  unfold sendPieces
  try dsimp only
  split
  · exact Only.put [.hlt] (within_trans rfl hp) (by assumption) rfl
  · exact submitMsg_only (within_trans rfl hp) _ (takeSeq_only (within_trans rfl hp) _ (Only.put [.hlt]
      (within_trans rfl hp) (by assumption) rfl))

theorem sendMsg_only {pts} {s0 s : State} (hp : within [.fab, .wei, .hlt] pts = true) (dest) (dike) (carried) (sseq)
    (bytes) (h : Only pts s0 s) : Only pts s0 (sendMsg dest dike carried sseq bytes s) := by
  unfold sendMsg
  try dsimp only
  exact sendPieces_only (within_trans rfl hp) _ _ _ _ _ _ (by assumption)

theorem setNow_only {pts} {s0 s : State} (hp : within [.tmu] pts = true) (t) (h : Only pts s0 s) : Only pts s0
    (setNow t s) := by
  unfold setNow
  try dsimp only
  exact Only.put [.tmu] (within_trans rfl hp) (by assumption) rfl

theorem setPort_only {pts} {s0 s : State} (hp : within [.fab] pts = true) (p) (r) (h : Only pts s0 s) : Only pts s0
    (setPort p r s) := by
  unfold setPort
  try dsimp only
  exact Only.put [.fab] (within_trans rfl hp) (by assumption) rfl

theorem takeSseq_only {pts} {s0 s : State} (hp : within [.sqs] pts = true) (h : Only pts s0 s) : Only pts s0
    (takeSseq s).2 := by
  unfold takeSseq
  try dsimp only
  exact Only.put [.sqs] (within_trans rfl hp) (by assumption) rfl

theorem writeFlash_only {pts} {s0 s : State} (hp : within [.stw] pts = true) (a) (bs) (h : Only pts s0 s) :
    Only pts s0 (writeFlash a bs s) := by
  unfold writeFlash
  try dsimp only
  exact Only.put [.stw] (within_trans rfl hp) (by assumption) rfl

theorem breakFlash_only {pts} {s0 s : State} (hp : within [.stw, .free] pts = true) (w) (h : Only pts s0 s) :
    Only pts s0 (breakFlash w s) := by
  unfold breakFlash
  try dsimp only
  split
  · exact writeFlash_only (within_trans rfl hp) _ _ (freeBelow_only (within_trans rfl hp) _ (by assumption))
  · exact writeFlash_only (within_trans rfl hp) _ _ (freeBelow_only (within_trans rfl hp) _ (by assumption))
  · exact writeFlash_only (within_trans rfl hp) _ _ (by assumption)

theorem loseFlash_only {pts} {s0 s : State} (hp : within [.stw, .free] pts = true) (h : Only pts s0 s) : Only pts s0
    (loseFlash s) := by
  unfold loseFlash
  try dsimp only
  split
  · assumption
  · exact Only.put [.stw] (within_trans rfl hp) (breakFlash_only (within_trans rfl hp) _ (by assumption)) rfl

theorem settleFlash_only {pts} {s0 x1 : State} (hp : within [.stw] pts = true) (x0) (h : Only pts s0 x1) :
    Only pts s0 (settleFlash x0 x1) := by
  induction x0 generalizing x1 with
  | zero =>
    unfold settleFlash
    try dsimp only
    assumption
  | succ n ih =>
    unfold settleFlash
    try dsimp only
    split
    · apply ih
      exact writeFlash_only (within_trans rfl hp) _ _ (Only.put [.stw] (within_trans rfl hp) (by assumption) rfl)
    · exact Only.put [.stw] (within_trans rfl hp) (by assumption) rfl
    · assumption

theorem popFlash_only {pts} {s0 s : State} (hp : within [.stw] pts = true) (h : Only pts s0 s) : Only pts s0
    (popFlash s) := by
  unfold popFlash
  try dsimp only
  exact settleFlash_only (within_trans rfl hp) _ (Only.put [.stw] (within_trans rfl hp) (by assumption) rfl)

theorem queueFlash_only {pts} {s0 s : State} (hp : within [.stw] pts = true) (w) (h : Only pts s0 s) : Only pts s0
    (queueFlash w s) := by
  unfold queueFlash
  try dsimp only
  exact settleFlash_only (within_trans rfl hp) _ (Only.put [.stw] (within_trans rfl hp) (by assumption) rfl)

theorem ringWrite_only {pts} {s0 s : State} (hp : within [.mem] pts = true) (base) (cap) (u) (bs) (h :
    Only pts s0 s) : Only pts s0 (ringWrite base cap u bs s) := by
  unfold ringWrite
  try dsimp only
  exact writeMem_only (within_trans rfl hp) _ _ (writeMem_only (within_trans rfl hp) _ _ (by assumption))

theorem putRecord_only {pts} {s0 s : State} (hp : within [.hlt, .mem] pts = true) (kind) (flags) (step) (action)
    (tenant) (source) (sseq) (body) (h : Only pts s0 s) : Only pts s0
    (putRecord kind flags step action tenant source sseq body s).2 := by
  unfold putRecord
  try dsimp only
  exact Only.put [.hlt] (within_trans rfl hp) (ringWrite_only (within_trans rfl hp) _ _ _ _ (by assumption)) rfl

theorem putJournal_only {pts} {s0 s : State} (hp : within [.hif, .hlt, .status, .counters, .mem] pts = true) (kind)
    (flags) (step) (action) (tenant) (source) (sseq) (body) (h : Only pts s0 s) : Only pts s0
    (putJournal kind flags step action tenant source sseq body s) := by
  unfold putJournal
  try dsimp only
  split
  · exact putRecord_only (within_trans rfl hp) _ _ _ _ _ _ _ _ (by assumption)
  · exact putRecord_only (within_trans rfl hp) _ _ _ _ _ _ _ _ (raise_only (within_trans rfl hp) _ (bump_only
      (within_trans rfl hp) _ _ (putRecord_only (within_trans rfl hp) _ _ _ _ _ _ _ _ (by assumption))))

theorem journal_only {pts} {s0 s : State} (hp : within [.hif, .hlt, .status, .counters, .mem] pts = true) (kind)
    (action) (tenant) (source) (sseq) (body) (h : Only pts s0 s) : Only pts s0
    (journal kind action tenant source sseq body s) := by
  unfold journal
  try dsimp only
  split
  · refine Only.foldl (fun _ _ _ => ?_) ?_
    · exact putJournal_only (within_trans rfl hp) _ _ _ _ _ _ _ _ (by assumption)
    · assumption
  · assumption

theorem dispositionAt_only {pts} {s0 s : State} (hp : within [.hif, .hlt, .status, .counters, .mem] pts = true)
    (action) (code) (handle) (layer) (amount) (h : Only pts s0 s) : Only pts s0
    (dispositionAt action code handle layer amount s) := by
  unfold dispositionAt
  try dsimp only
  exact journal_only (within_trans rfl hp) _ _ _ _ _ _ (by assumption)

theorem disposition_only {pts} {s0 s : State} (hp : within [.hif, .hlt, .status, .counters, .mem] pts = true) (code)
    (handle) (layer) (amount) (h : Only pts s0 s) : Only pts s0 (disposition code handle layer amount s) := by
  unfold disposition
  try dsimp only
  exact dispositionAt_only (within_trans rfl hp) _ _ _ _ _ (by assumption)

theorem journalCommand_only {pts} {s0 s : State} (hp : within [.hif, .hlt, .status, .counters, .mem] pts = true)
    (action) (h_) (op) (sseq) (body) (h : Only pts s0 s) : Only pts s0 (journalCommand action h_ op sseq body s) := by
  unfold journalCommand
  try dsimp only
  exact journal_only (within_trans rfl hp) _ _ _ _ _ _ (by assumption)

theorem journalTime_only {pts} {s0 s : State} (hp : within [.hif, .hlt, .status, .counters, .mem] pts = true)
    (before) (h : Only pts s0 s) : Only pts s0 (journalTime before s) := by
  unfold journalTime
  try dsimp only
  exact journal_only (within_trans rfl hp) _ _ _ _ _ _ (by assumption)

theorem enterTime_only {pts} {s0 s : State} (hp : within [.tmu, .hif, .hlt, .status, .counters, .mem] pts = true)
    (st) (h : Only pts s0 s) : Only pts s0 (enterTime st s) := by
  unfold enterTime
  try dsimp only
  refine journalTime_only (within_trans rfl hp) _ ?_
  split
  · exact Only.put [.tmu] (within_trans rfl hp) (by assumption) rfl
  · exact raise_only (within_trans rfl hp) _ (Only.put [.tmu] (within_trans rfl hp) (by assumption) rfl)
  · exact raise_only (within_trans rfl hp) _ (Only.put [.tmu] (within_trans rfl hp) (by assumption) rfl)
  · exact raise_only (within_trans rfl hp) _ (Only.put [.tmu] (within_trans rfl hp) (by assumption) rfl)
  · exact raise_only (within_trans rfl hp) _ (Only.put [.tmu] (within_trans rfl hp) (by assumption) rfl)

theorem acquireSync_only {pts} {s0 s : State} (hp : within [.tmu, .hif, .hlt, .status, .counters, .mem] pts = true)
    (tight) (h : Only pts s0 s) : Only pts s0 (acquireSync tight s) := by
  unfold acquireSync
  try dsimp only
  split
  · exact Only.put [.tmu] (within_trans rfl hp) (by assumption) rfl
  · split
    · exact Only.put [.tmu] (within_trans rfl hp) (by assumption) rfl
    · exact enterTime_only (within_trans rfl hp) _ (Only.put [.tmu] (within_trans rfl hp) (by assumption) rfl)

theorem followGm_only {pts} {s0 s : State} (hp : within [.tmu, .hif, .status] pts = true) (gm) (h :
    Only pts s0 s) : Only pts s0 (followGm gm s) := by
  unfold followGm
  try dsimp only
  split
  · split
    · assumption
    · exact raise_only (within_trans rfl hp) _ (Only.put [.tmu] (within_trans rfl hp) (by assumption) rfl)
  · exact Only.put [.tmu] (within_trans rfl hp) (by assumption) rfl

theorem execAnnounce_only {pts} {s0 s : State} {t} (hp : within [.tmu, .hif, .status] pts = true) {a}
    (e : execAnnounce a s = .next t) (h : Only pts s0 s) : Only pts s0 t := by
  unfold execAnnounce at e
  try dsimp only at e
  split at e
  · split at e
    · injection e with e
      subst e
      exact followGm_only (within_trans rfl hp) _ (Only.put [.tmu] (within_trans rfl hp) (by assumption) rfl)
    · split at e
      · injection e with e
        subst e
        exact followGm_only (within_trans rfl hp) _ (Only.put [.tmu] (within_trans rfl hp) (by assumption) rfl)
      · injection e with e
        subst e
        assumption
  · injection e with e
    subst e
    assumption

theorem execHoldoverExpired_only {pts} {s0 s : State} {t}
    (hp : within [.tmu, .hif, .hlt, .status, .counters, .mem] pts = true) {at_}
    (e : execHoldoverExpired at_ s = .next t) (h : Only pts s0 s) : Only pts s0 t := by
  unfold execHoldoverExpired at e
  try dsimp only at e
  split at e
  · injection e with e
    subst e
    exact enterTime_only (within_trans rfl hp) _ (setNow_only (within_trans rfl hp) _ (by assumption))
  · injection e with e
    subst e
    exact setNow_only (within_trans rfl hp) _ (by assumption)

theorem snapshot_only {pts} {s0 s : State} (hp : within [.tmu] pts = true) (h : Only pts s0 s) : Only pts s0
    (snapshot s) := by
  unfold snapshot
  try dsimp only
  exact Only.put [.tmu] (within_trans rfl hp) (by assumption) rfl

theorem execSnap_only {pts} {s0 s : State} {t} (hp : within [.tmu] pts = true) (e : execSnap s = .next t) (h :
    Only pts s0 s) : Only pts s0 t := by
  unfold execSnap at e
  try dsimp only at e
  injection e with e
  subst e
  split
  · exact snapshot_only (within_trans rfl hp) (by assumption)
  · assumption

theorem noteSync_only {pts} {s0 s : State} (hp : within [.tmu] pts = true) (o) (h : Only pts s0 s) : Only pts s0
    (noteSync o s) := by
  unfold noteSync
  try dsimp only
  exact Only.put [.tmu] (within_trans rfl hp) (by assumption) rfl

theorem stepCounter_only {pts} {s0 s : State} (hp : within [.tmu, .hif, .hlt, .status, .counters, .mem] pts = true)
    (o) (h : Only pts s0 s) : Only pts s0 (stepCounter o s) := by
  unfold stepCounter
  try dsimp only
  exact journalTime_only (within_trans rfl hp) _ (Only.put [.tmu] (within_trans rfl hp) (by assumption) rfl)

theorem initialStep_only {pts} {s0 s : State} (hp : within [.tmu, .hif, .hlt, .status, .counters, .mem] pts = true)
    (o) (h : Only pts s0 s) : Only pts s0 (initialStep o s) := by
  unfold initialStep
  try dsimp only
  split
  · exact stepCounter_only (within_trans rfl hp) _ (by assumption)
  · assumption

theorem syncState_only {pts} {s0 s : State} (hp : within [.tmu, .hif, .hlt, .status, .counters, .mem] pts = true)
    (o) (h : Only pts s0 s) : Only pts s0 (syncState o s) := by
  unfold syncState
  try dsimp only
  split
  · exact initialStep_only (within_trans rfl hp) _ (enterTime_only (within_trans rfl hp) _ (Only.put [.tmu]
      (within_trans rfl hp) (by assumption) rfl))
  · exact initialStep_only (within_trans rfl hp) _ (acquireSync_only (within_trans rfl hp) _ (by assumption))
  · split
    · exact enterTime_only (within_trans rfl hp) _ (by assumption)
    · assumption
  · split
    · exact enterTime_only (within_trans rfl hp) _ (by assumption)
    · exact enterTime_only (within_trans rfl hp) _ (by assumption)
  · split
    · split
      · assumption
      · exact raise_only (within_trans rfl hp) _ (Only.put [.tmu] (within_trans rfl hp) (by assumption) rfl)
    · exact enterTime_only (within_trans rfl hp) _ (Only.put [.tmu] (within_trans rfl hp) (by assumption) rfl)

theorem execSync_only {pts} {s0 s : State} {t} (hp : within [.tmu, .hif, .hlt, .status, .counters, .mem] pts = true)
    {at_ gm offset} (e : execSync at_ gm offset s = .next t) (h : Only pts s0 s) : Only pts s0 t := by
  unfold execSync at e
  try dsimp only at e
  split at e
  · injection e with e
    subst e
    split
    · exact syncState_only (within_trans rfl hp) _ (noteSync_only (within_trans rfl hp) _ (followGm_only
        (within_trans rfl hp) _ (setNow_only (within_trans rfl hp) _ (by assumption))))
    · exact noteSync_only (within_trans rfl hp) _ (followGm_only (within_trans rfl hp) _ (setNow_only
        (within_trans rfl hp) _ (by assumption)))
  · injection e with e
    subst e
    assumption

theorem execSyncAbsent_only {pts} {s0 s : State} {t}
    (hp : within [.tmu, .hif, .hlt, .status, .counters, .mem] pts = true) {at_} (e : execSyncAbsent at_ s = .next t)
    (h : Only pts s0 s) : Only pts s0 t := by
  unfold execSyncAbsent at e
  try dsimp only at e
  split at e
  · split at e
    · injection e with e
      subst e
      split
      · exact enterTime_only (within_trans rfl hp) _ (setNow_only (within_trans rfl hp) _ (by assumption))
      · exact setNow_only (within_trans rfl hp) _ (by assumption)
    · injection e with e
      subst e
      exact enterTime_only (within_trans rfl hp) _ (Only.put [.tmu] (within_trans rfl hp) (setNow_only
        (within_trans rfl hp) _ (by assumption)) rfl)
    · injection e with e
      subst e
      exact setNow_only (within_trans rfl hp) _ (by assumption)
  · injection e with e
    subst e
    exact setNow_only (within_trans rfl hp) _ (by assumption)

theorem applySetQueue_only {pts} {s0 s : State} (hp : within [.wei] pts = true) (q) (enable) (quantum) (rate)
    (h : Only pts s0 s) : Only pts s0 (applySetQueue q enable quantum rate s) := by
  unfold applySetQueue
  try dsimp only
  split
  · exact testQueue_only (within_trans rfl hp) _ (setQueue_only (within_trans rfl hp) _ _ (by assumption))
  · exact leaveAll_only (within_trans rfl hp) _ (testQueue_only (within_trans rfl hp) _ (setQueue_only
      (within_trans rfl hp) _ _ (by assumption)))

theorem coarseTick_only {pts} {s0 s : State} (hp : within [.wei] pts = true) (h : Only pts s0 s) : Only pts s0
    (coarseTick s) := by
  unfold coarseTick
  try dsimp only
  exact Only.put [.wei] (within_trans rfl hp) (by assumption) rfl

theorem weirResult_only {pts} {s0 s : State} (hp : within [.wei] pts = true) (cmd) (cause) (object) (h :
    Only pts s0 s) : Only pts s0 (weirResult cmd cause object s) := by
  unfold weirResult
  try dsimp only
  exact Only.put [.wei] (within_trans rfl hp) (by assumption) rfl

theorem weirRefuse_only {pts} {s0 s : State} (hp : within [.wei, .hif, .status, .mem] pts = true) (t) (cmd) (cause)
    (object) (h : Only pts s0 s) : Only pts s0 (weirRefuse t cmd cause object s) := by
  unfold weirRefuse
  try dsimp only
  exact refusedWith_only (within_trans rfl hp) _ _ (raise_only (within_trans rfl hp) _ (weirResult_only
    (within_trans rfl hp) _ _ _ (by assumption)))

theorem doSetPolicer_only {pts} {s0 s : State} (hp : within [.wei, .hif, .status, .mem] pts = true) (t) (d) (enable)
    (rate) (burst) (h : Only pts s0 s) : Only pts s0 (doSetPolicer t d enable rate burst s) := by
  unfold doSetPolicer
  try dsimp only
  split
  · exact weirRefuse_only (within_trans rfl hp) _ _ _ _ (by assumption)
  · split
    · exact weirRefuse_only (within_trans rfl hp) _ _ _ _ (by assumption)
    · exact done_only (within_trans rfl hp) _ (weirResult_only (within_trans rfl hp) _ _ _ (Only.put [.wei]
        (within_trans rfl hp) (by assumption) rfl))

theorem doSetQueue_only {pts} {s0 s : State} (hp : within [.wei, .hif, .status, .mem] pts = true) (t) (q) (enable)
    (quantum) (rate) (h : Only pts s0 s) : Only pts s0 (doSetQueue t q enable quantum rate s) := by
  unfold doSetQueue
  try dsimp only
  split
  · exact weirRefuse_only (within_trans rfl hp) _ _ _ _ (by assumption)
  · split
    · exact weirRefuse_only (within_trans rfl hp) _ _ _ _ (by assumption)
    · exact done_only (within_trans rfl hp) _ (weirResult_only (within_trans rfl hp) _ _ _ (applySetQueue_only
        (within_trans rfl hp) _ _ _ _ (by assumption)))

theorem drrAfter_only {pts} {s0 s : State} (hp : within [.wei, .hif, .hlt, .status] pts = true) (q) (p) (c)
    (h : Only pts s0 s) : Only pts s0 (drrAfter q p c s) := by
  unfold drrAfter
  try dsimp only
  split
  · split
    · exact setActive_only (within_trans rfl hp) _ _ (wEvent_only (within_trans rfl hp) _ _ _ _ (setQueue_only
        (within_trans rfl hp) _ _ (by assumption)))
    · exact testQueue_only (within_trans rfl hp) _ (setActive_only (within_trans rfl hp) _ _ (wEvent_only
        (within_trans rfl hp) _ _ _ _ (setQueue_only (within_trans rfl hp) _ _ (by assumption))))
  · split
    · exact wEvent_only (within_trans rfl hp) _ _ _ _ (setQueue_only (within_trans rfl hp) _ _ (by assumption))
    · exact testQueue_only (within_trans rfl hp) _ (wEvent_only (within_trans rfl hp) _ _ _ _ (setQueue_only
        (within_trans rfl hp) _ _ (by assumption)))

theorem drrChoose_only {pts} {s0 x2 : State} (hp : within [.wei] pts = true) (p) (x1) (h : Only pts s0 x2) :
    Only pts s0 (drrChoose p x1 x2).2 := by
  induction x1 generalizing x2 with
  | zero =>
    unfold drrChoose
    try dsimp only
    assumption
  | succ n ih =>
    unfold drrChoose
    try dsimp only
    split
    · dsimp only
      assumption
    · split
      · apply ih
        exact setActive_only (within_trans rfl hp) _ _ (by assumption)
      · split
        · split
          · dsimp only
            exact setQueue_only (within_trans rfl hp) _ _ (by assumption)
          · apply ih
            exact setActive_only (within_trans rfl hp) _ _ (setQueue_only (within_trans rfl hp) _ _ (by assumption))
        · split
          · dsimp only
            exact setQueue_only (within_trans rfl hp) _ _ (by assumption)
          · apply ih
            exact setActive_only (within_trans rfl hp) _ _ (setQueue_only (within_trans rfl hp) _ _ (by assumption))

theorem execCoarseTick_only {pts} {s0 s : State} {t} (hp : within [.tmu, .wei] pts = true)
    (e : execCoarseTick s = .next t) (h : Only pts s0 s) : Only pts s0 t := by
  unfold execCoarseTick at e
  try dsimp only at e
  split at e
  · injection e with e
    subst e
    exact coarseTick_only (within_trans rfl hp) (setNow_only (within_trans rfl hp) _ (by assumption))
  · injection e with e
    subst e
    assumption

theorem fineTick_only {pts} {s0 s : State} (hp : within [.wei] pts = true) (h : Only pts s0 s) : Only pts s0
    (fineTick s) := by
  unfold fineTick
  try dsimp only
  exact Only.put [.wei] (within_trans rfl hp) (by assumption) rfl

theorem execFineTick_only {pts} {s0 s : State} {t} (hp : within [.tmu, .wei] pts = true)
    (e : execFineTick s = .next t) (h : Only pts s0 s) : Only pts s0 t := by
  unfold execFineTick at e
  try dsimp only at e
  split at e
  · injection e with e
    subst e
    refine fineTick_only (within_trans rfl hp) ?_
    split
    · exact coarseTick_only (within_trans rfl hp) (setNow_only (within_trans rfl hp) _ (by assumption))
    · exact setNow_only (within_trans rfl hp) _ (by assumption)
  · injection e with e
    subst e
    assumption

theorem execPacerRelease_only {pts} {s0 s : State} {t} (hp : within [.tmu, .wei] pts = true) {queue}
    (e : execPacerRelease queue s = .next t) (h : Only pts s0 s) : Only pts s0 t := by
  unfold execPacerRelease at e
  try dsimp only at e
  split at e
  · injection e with e
    subst e
    exact testQueue_only (within_trans rfl hp) _ (setNow_only (within_trans rfl hp) _ (by assumption))
  · injection e with e
    subst e
    assumption

theorem flushDike_only {pts} {s0 s : State}
    (hp : within [.fab, .wei, .hif, .hlt, .status, .counters, .mem] pts = true) (d) (h : Only pts s0 s) :
    Only pts s0 (flushDike d s) := by
  unfold flushDike
  try dsimp only
  refine startWaiting_only (within_trans rfl hp) ?_
  refine Only.foldl (fun _ _ _ => ?_) ?_
  · split
    · exact abandoned_only (within_trans rfl hp) _ (by assumption)
    · assumption
  · refine Only.put [.fab, .wei] (within_trans rfl hp) ?_ rfl
    refine Only.foldl (fun _ _ _ => ?_) ?_
    · exact setQueue_only (within_trans rfl hp) _ _ (leaveAll_only (within_trans rfl hp) _ (by assumption))
    · split
      · assumption
      · exact raise_only (within_trans rfl hp) _ (bump_only (within_trans rfl hp) _ _ (by assumption))

theorem grantQueues_only {pts} {s0 s : State} (hp : within [.wei] pts = true) (d) (cls) (h : Only pts s0 s) :
    Only pts s0 (grantQueues d cls s) := by
  unfold grantQueues
  try dsimp only
  refine Only.foldl (fun _ _ _ => ?_) ?_
  · exact setQueue_only (within_trans rfl hp) _ _ (by assumption)
  · assumption

theorem movePort_only {pts} {s0 s : State} (hp : within [.wei] pts = true) (p) (h : Only pts s0 s) : Only pts s0
    (movePort p s) := by
  unfold movePort
  try dsimp only
  split
  · assumption
  · refine Only.foldl (fun _ _ _ => ?_) ?_
    · split
      · exact joinActive_only (within_trans rfl hp) _ _ (setQueue_only (within_trans rfl hp) _ _ (by assumption))
      · exact setQueue_only (within_trans rfl hp) _ _ (by assumption)
    · exact setActive_only (within_trans rfl hp) _ _ (by assumption)

theorem takeHead_only {pts} {s0 s : State} (hp : within [.wei] pts = true) (q) (p) (h : Only pts s0 s) : Only pts s0
    (takeHead q p s).2 := by
  unfold takeHead
  try dsimp only
  split
  · dsimp only
    assumption
  · dsimp only
    exact setQueue_only (within_trans rfl hp) _ _ (by assumption)

theorem takeDirect_only {pts} {s0 s : State} (hp : within [.wei, .hif, .hlt, .status] pts = true) (q) (p) (h :
    Only pts s0 s) : Only pts s0 (takeDirect q p s).2 := by
  unfold takeDirect
  try dsimp only
  split
  · dsimp only
    exact Only.of_snd (by assumption) (takeHead_only (within_trans rfl hp) _ _ (by assumption))
  · dsimp only
    exact wEvent_only (within_trans rfl hp) _ _ _ _ (setQueue_only (within_trans rfl hp) _ _ (Only.of_snd
      (by assumption) (takeHead_only (within_trans rfl hp) _ _ (by assumption))))

theorem nextFrame_only {pts} {s0 s : State} (hp : within [.wei, .hif, .hlt, .status] pts = true) (p) (h :
    Only pts s0 s) : Only pts s0 (nextFrame p s).2 := by
  unfold nextFrame
  try dsimp only
  split
  · exact takeDirect_only (within_trans rfl hp) _ _ (by assumption)
  · exact takeDirect_only (within_trans rfl hp) _ _ (by assumption)
  · split
    · dsimp only
      exact Only.of_snd (by assumption) (drrChoose_only (within_trans rfl hp) _ _ (by assumption))
    · split
      · dsimp only
        exact Only.of_snd (by assumption) (takeHead_only (within_trans rfl hp) _ _ (Only.of_snd (by assumption)
          (drrChoose_only (within_trans rfl hp) _ _ (by assumption))))
      · dsimp only
        exact drrAfter_only (within_trans rfl hp) _ _ _ (Only.of_snd (by assumption) (takeHead_only
          (within_trans rfl hp) _ _ (Only.of_snd (by assumption) (drrChoose_only (within_trans rfl hp) _ _
          (by assumption)))))

theorem police_only {pts} {s0 s : State} (hp : within [.wei, .hif, .hlt, .status, .counters] pts = true) (d) (c)
    (h : Only pts s0 s) : Only pts s0 (police d c s).2 := by
  unfold police
  try dsimp only
  split
  · dsimp only
    assumption
  · split
    · dsimp only
      exact wEvent_only (within_trans rfl hp) _ _ _ _ (Only.put [.wei] (within_trans rfl hp) (by assumption) rfl)
    · dsimp only
      exact raise_only (within_trans rfl hp) _ (bump_only (within_trans rfl hp) _ _ (sEvent_only
        (within_trans rfl hp) _ _ _ _ (Only.put [.wei] (within_trans rfl hp) (by assumption) rfl)))

theorem requantum_only {pts} {s0 s : State} (hp : within [.wei] pts = true) (d) (cls) (h : Only pts s0 s) :
    Only pts s0 (requantum d cls s) := by
  unfold requantum
  try dsimp only
  refine Only.foldl (fun _ _ _ => ?_) ?_
  · split
    · assumption
    · exact setQueue_only (within_trans rfl hp) _ _ (by assumption)
  · assumption

theorem measureInput_only {pts} {s0 s : State} (hp : within [.hif, .hlt, .status, .free] pts = true) (h :
    Only pts s0 s) : Only pts s0 (measureInput s) := by
  unfold measureInput
  try dsimp only
  exact wEvent_only (within_trans rfl hp) _ _ _ _ (Only.put [.hlt, .free] (within_trans rfl hp) (by assumption) rfl)

theorem writeTally_only {pts} {s0 s : State} (hp : within [.hlt, .mem] pts = true) (h : Only pts s0 s) : Only pts s0
    (writeTally s) := by
  unfold writeTally
  try dsimp only
  split
  · assumption
  · exact Only.put [.hlt] (within_trans rfl hp) (writeMem_only (within_trans rfl hp) _ _ (by assumption)) rfl

theorem freezeTally_only {pts} {s0 s : State} (hp : within [.hif, .hlt, .status, .mem, .free] pts = true) (h :
    Only pts s0 s) : Only pts s0 (freezeTally s) := by
  unfold freezeTally
  try dsimp only
  exact Only.put [.hlt] (within_trans rfl hp) (measureInput_only (within_trans rfl hp) (writeTally_only
    (within_trans rfl hp) (by assumption))) rfl

theorem execMinuteBoundary_only {pts} {s0 s : State} {t}
    (hp : within [.tmu, .hif, .hlt, .status, .mem, .free] pts = true) (e : execMinuteBoundary s = .next t) (h :
    Only pts s0 s) : Only pts s0 t := by
  unfold execMinuteBoundary at e
  try dsimp only at e
  split at e
  · injection e with e
    subst e
    split
    · exact setNow_only (within_trans rfl hp) _ (by assumption)
    · exact freezeTally_only (within_trans rfl hp) (setNow_only (within_trans rfl hp) _ (by assumption))
  · injection e with e
    subst e
    assumption

theorem execTallySetWritten_only {pts} {s0 s : State} {t} (hp : within [.hlt, .mem] pts = true)
    (e : execTallySetWritten s = .next t) (h : Only pts s0 s) : Only pts s0 t := by
  unfold execTallySetWritten at e
  try dsimp only at e
  injection e with e
  subst e
  exact writeTally_only (within_trans rfl hp) (by assumption)

theorem execTallyWriteDeadline_only {pts} {s0 s : State} {t} (hp : within [.tmu, .hif, .status] pts = true)
    (e : execTallyWriteDeadline s = .next t) (h : Only pts s0 s) : Only pts s0 t := by
  unfold execTallyWriteDeadline at e
  try dsimp only at e
  split at e
  · injection e with e
    subst e
    assumption
  · injection e with e
    subst e
    exact raise_only (within_trans rfl hp) _ (setNow_only (within_trans rfl hp) _ (by assumption))

theorem addFault_only {pts} {s0 s : State} (hp : within [.hlt] pts = true) (f) (h : Only pts s0 s) : Only pts s0
    (addFault f s) := by
  unfold addFault
  try dsimp only
  split
  · assumption
  · exact Only.put [.hlt] (within_trans rfl hp) (by assumption) rfl

theorem setWindow_only {pts} {s0 s : State} (hp : within [.fab] pts = true) (w) (r) (h : Only pts s0 s) :
    Only pts s0 (setWindow w r s) := by
  unfold setWindow
  try dsimp only
  exact Only.put [.fab] (within_trans rfl hp) (by assumption) rfl

theorem beginRevoke_only {pts} {s0 s : State} (hp : within [.fab] pts = true) (w) (t) (reopen) (h :
    Only pts s0 s) : Only pts s0 (beginRevoke w t reopen s) := by
  unfold beginRevoke
  try dsimp only
  exact setWindow_only (within_trans rfl hp) _ _ (by assumption)

theorem chargeObject_only {pts} {s0 s : State} (hp : within [.hif, .hlt, .status] pts = true) (d) (n) (h :
    Only pts s0 s) : Only pts s0 (chargeObject d n s) := by
  unfold chargeObject
  try dsimp only
  split
  · exact charge_only (within_trans rfl hp) _ _ _ (by assumption)
  · split
    · exact charge_only (within_trans rfl hp) _ _ _ (by assumption)
    · assumption

theorem openedResult_only {pts} {s0 s : State} (hp : within [.hif, .mem] pts = true) (t) (w) (h :
    Only pts s0 s) : Only pts s0 (openedResult t w s) := by
  unfold openedResult
  try dsimp only
  exact doneWith_only (within_trans rfl hp) _ _ _ (by assumption)

theorem openAs_only {pts} {s0 s : State} (hp : within [.fab] pts = true) (w) (d) (o) (h : Only pts s0 s) :
    Only pts s0 (openAs w d o s) := by
  unfold openAs
  try dsimp only
  exact setWindow_only (within_trans rfl hp) _ _ (by assumption)

theorem doOpenWindow_only {pts} {s0 s : State} (hp : within [.fab, .hif, .mem] pts = true) (t) (d) (o) (h :
    Only pts s0 s) : Only pts s0 (doOpenWindow t d o s) := by
  unfold doOpenWindow
  try dsimp only
  split
  · exact reasonWith_only (within_trans rfl hp) _ _ (by assumption)
  · split
    · exact refusedWith_only (within_trans rfl hp) _ _ (by assumption)
    · split
      · exact refusedWith_only (within_trans rfl hp) _ _ (by assumption)
      · exact openedResult_only (within_trans rfl hp) _ _ (openAs_only (within_trans rfl hp) _ _ _ (by assumption))

theorem doReopenWindow_only {pts} {s0 s : State} (hp : within [.fab, .hif, .mem] pts = true) (t) (d) (w) (o)
    (h : Only pts s0 s) : Only pts s0 (doReopenWindow t d w o s) := by
  unfold doReopenWindow
  try dsimp only
  split
  · exact refusedWith_only (within_trans rfl hp) _ _ (by assumption)
  · split
    · exact refusedWith_only (within_trans rfl hp) _ _ (by assumption)
    · split
      · exact refusedWith_only (within_trans rfl hp) _ _ (by assumption)
      · split
        · exact refusedWith_only (within_trans rfl hp) _ _ (by assumption)
        · split
          · exact beginRevoke_only (within_trans rfl hp) _ _ _ (by assumption)
          · exact setWindow_only (within_trans rfl hp) _ _ (by assumption)

theorem doRevokeWindow_only {pts} {s0 s : State} (hp : within [.fab, .hif, .mem] pts = true) (t) (d) (w) (h :
    Only pts s0 s) : Only pts s0 (doRevokeWindow t d w s) := by
  unfold doRevokeWindow
  try dsimp only
  split
  · exact refusedWith_only (within_trans rfl hp) _ _ (by assumption)
  · split
    · exact done_only (within_trans rfl hp) _ (by assumption)
    · split
      · exact refusedWith_only (within_trans rfl hp) _ _ (by assumption)
      · split
        · exact refusedWith_only (within_trans rfl hp) _ _ (by assumption)
        · exact beginRevoke_only (within_trans rfl hp) _ _ _ (by assumption)

theorem dropFault_only {pts} {s0 s : State} (hp : within [.hlt] pts = true) (f) (h : Only pts s0 s) : Only pts s0
    (dropFault f s) := by
  unfold dropFault
  try dsimp only
  exact Only.put [.hlt] (within_trans rfl hp) (by assumption) rfl

theorem execReopenDelayExpired_only {pts} {s0 s : State} {t} (hp : within [.tmu, .fab, .hif, .mem] pts = true)
    {at_ window} (e : execReopenDelayExpired at_ window s = .next t) (h : Only pts s0 s) : Only pts s0 t := by
  unfold execReopenDelayExpired at e
  try dsimp only at e
  split at e
  · split at e
    · split at e
      · injection e with e
        subst e
        exact beginRevoke_only (within_trans rfl hp) _ _ _ (setNow_only (within_trans rfl hp) _ (by assumption))
      · injection e with e
        subst e
        exact refusedWith_only (within_trans rfl hp) _ _ (setWindow_only (within_trans rfl hp) _ _ (setNow_only
          (within_trans rfl hp) _ (by assumption)))
    · injection e with e
      subst e
      exact setNow_only (within_trans rfl hp) _ (by assumption)
  · injection e with e
    subst e
    exact setNow_only (within_trans rfl hp) _ (by assumption)

theorem finishRevoke_only {pts} {s0 s : State} (hp : within [.fab, .hif, .mem] pts = true) (w) (h :
    Only pts s0 s) : Only pts s0 (finishRevoke w s) := by
  unfold finishRevoke
  try dsimp only
  split
  · assumption
  · split
    · split
      · exact openedResult_only (within_trans rfl hp) _ _ (openAs_only (within_trans rfl hp) _ _ _ (by assumption))
      · exact refusedWith_only (within_trans rfl hp) _ _ (setWindow_only (within_trans rfl hp) _ _ (by assumption))
    · exact done_only (within_trans rfl hp) _ (setWindow_only (within_trans rfl hp) _ _ (by assumption))
    · exact setWindow_only (within_trans rfl hp) _ _ (by assumption)

theorem execRevocationComplete_only {pts} {s0 s : State} {t} (hp : within [.fab, .hif, .mem] pts = true) {window}
    (e : execRevocationComplete window s = .next t) (h : Only pts s0 s) : Only pts s0 t := by
  unfold execRevocationComplete at e
  try dsimp only at e
  injection e with e
  subst e
  split
  · exact finishRevoke_only (within_trans rfl hp) _ (by assumption)
  · assumption

theorem violate_only {pts} {s0 s : State} (hp : within [.hif, .hlt, .status] pts = true) (h : Only pts s0 s) :
    Only pts s0 (violate s) := by
  unfold violate
  try dsimp only
  exact addFault_only (within_trans rfl hp) _ (raise_only (within_trans rfl hp) _ (by assumption))

theorem forDike_only {pts} {s0 s : State} (hp : within [.hif, .hlt, .status] pts = true) (dike) (i) (act)
    (Hact : ∀ a0, Only pts s0 a0 → Only pts s0 (act a0)) (h : Only pts s0 s) : Only pts s0 (forDike dike i act s) := by
  unfold forDike
  try dsimp only
  split
  · apply Hact
    assumption
  · split
    · apply Hact
      assumption
    · exact violate_only (within_trans rfl hp) (by assumption)

theorem forceRevoke_only {pts} {s0 s : State} (hp : within [.fab, .hif, .mem] pts = true) (w) (h :
    Only pts s0 s) : Only pts s0 (forceRevoke w s) := by
  unfold forceRevoke
  try dsimp only
  split
  · assumption
  · assumption
  · split
    · exact refusedWith_only (within_trans rfl hp) _ _ (beginRevoke_only (within_trans rfl hp) _ _ _ (by assumption))
    · exact beginRevoke_only (within_trans rfl hp) _ _ _ (by assumption)

theorem putDesc_only {pts} {s0 s : State} (hp : within [.pgm] pts = true) (i) (d) (h : Only pts s0 s) : Only pts s0
    (putDesc i d s) := by
  unfold putDesc
  try dsimp only
  exact Only.put [.pgm] (within_trans rfl hp) (by assumption) rfl

theorem placeObject_only {pts} {s0 s : State} (hp : within [.pgm, .hif, .hlt, .status] pts = true) (desc) (off) (bs)
    (h : Only pts s0 s) : Only pts s0 (placeObject desc off bs s) := by
  unfold placeObject
  try dsimp only
  split
  · assumption
  · exact chargeObject_only (within_trans rfl hp) _ _ (putDesc_only (within_trans rfl hp) _ _ (by assumption))

theorem revokeDike_only {pts} {s0 s : State} (hp : within [.fab, .hif, .mem] pts = true) (d) (h :
    Only pts s0 s) : Only pts s0 (revokeDike d s) := by
  unfold revokeDike
  try dsimp only
  refine Only.foldl (fun _ _ _ => ?_) ?_
  · exact forceRevoke_only (within_trans rfl hp) _ (by assumption)
  · assumption

theorem setIntake_only {pts} {s0 s : State} (hp : within [.fab] pts = true) (d) (open_) (h : Only pts s0 s) :
    Only pts s0 (setIntake d open_ s) := by
  unfold setIntake
  try dsimp only
  exact Only.put [.fab] (within_trans rfl hp) (by assumption) rfl

theorem updDesc_only {pts} {s0 s : State} (hp : within [.pgm] pts = true) (i) (f) (h : Only pts s0 s) : Only pts s0
    (updDesc i f s) := by
  unfold updDesc
  try dsimp only
  exact Only.put [.pgm] (within_trans rfl hp) (by assumption) rfl

theorem damageFound_only {pts} {s0 s : State} (hp : within [.cmp, .hif, .hlt, .status, .counters] pts = true) (code)
    (source) (h : Only pts s0 s) : Only pts s0 (damageFound code source s) := by
  unfold damageFound
  try dsimp only
  exact raise_only (within_trans rfl hp) _ (bump_only (within_trans rfl hp) _ _ (Only.put [.cmp]
    (within_trans rfl hp) (by assumption) rfl))

theorem blockDamaged_only {pts} {s0 s : State} (hp : within [.cmp, .hif, .hlt, .status, .counters] pts = true)
    (cause) (source) (h : Only pts s0 s) : Only pts s0 (blockDamaged cause source s) := by
  unfold blockDamaged
  try dsimp only
  exact damageFound_only (within_trans rfl hp) _ _ (by assumption)

theorem countBlocks_only {pts} {s0 s : State} (hp : within [.cmp, .hif, .hlt, .status] pts = true) (bs) (h :
    Only pts s0 s) : Only pts s0 (countBlocks bs s) := by
  unfold countBlocks
  try dsimp only
  exact Only.put [.cmp] (within_trans rfl hp) (wEvent_only (within_trans rfl hp) _ _ _ _ (wEvent_only
    (within_trans rfl hp) _ _ _ _ (by assumption))) rfl

end Sys2Proof.Machine
end

