-- ==== Sys2Proof/Laws/Tab.lean ====
section
/-! SUPPORT. Laws of sparse tables: what is looked up after a put, a change or a removal. -/

namespace Sys2Proof.Tab

variable {α : Type}

@[simp] theorem look_put_same (k : Nat) (a : α) (t : Tab α) : look k (put k a t) = some a := by
  induction t with
  | nil => simp [put, look]
  | cons x t ih =>
    obtain ⟨i, b⟩ := x
    unfold put
    split
    · simp [look]
    · split
      · simp [look]
      · rename_i h1 h2
        simp only [look]
        rw [if_neg (fun h => h2 h.symm)]
        exact ih

@[simp] theorem look_put_other {k j : Nat} (h : j ≠ k) (a : α) (t : Tab α) : look j (put k a t) = look j t := by
  induction t with
  | nil => simp [put, look, h.symm]
  | cons x t ih =>
    obtain ⟨i, b⟩ := x
    unfold put
    split
    · simp [look, h.symm]
    · split
      · rename_i h2
        subst h2
        simp [look, h.symm]
      · simp only [look, ih]

@[simp] theorem getD_put_same (k : Nat) (a d : α) (t : Tab α) : getD (put k a t) k d = a := by simp [getD]

@[simp] theorem getD_put_other {k j : Nat} (h : j ≠ k) (a d : α) (t : Tab α) : getD (put k a t) j d = getD t j d := by
  simp [getD, h]

@[simp] theorem has_put_same (k : Nat) (a : α) (t : Tab α) : has k (put k a t) = true := by simp [has]

theorem look_upd (k j : Nat) (f : α → α) (t : Tab α) :
    look j (upd k f t) = if j = k then (look j t).map f else look j t := by
  induction t with
  | nil => simp [upd, look]
  | cons x t ih =>
    obtain ⟨i, b⟩ := x
    simp only [upd, List.map_cons]
    by_cases hi : i = k
    · subst hi
      rw [if_pos rfl]
      simp only [look]
      by_cases hj : i = j
      · subst hj; simp
      · rw [if_neg hj, if_neg hj]; exact ih
    · rw [if_neg hi]
      simp only [look]
      by_cases hj : i = j
      · subst hj; simp [hi]
      · rw [if_neg hj, if_neg hj]; exact ih

@[simp] theorem look_del_same (k : Nat) (t : Tab α) : look k (del k t) = none := by
  induction t with
  | nil => rfl
  | cons x t ih =>
    obtain ⟨i, b⟩ := x
    by_cases hi : i = k
    · simpa [del, hi] using ih
    · simpa [del, hi, look] using ih

@[simp] theorem look_del_other {k j : Nat} (h : j ≠ k) (t : Tab α) : look j (del k t) = look j t := by
  induction t with
  | nil => rfl
  | cons x t ih =>
    obtain ⟨i, b⟩ := x
    by_cases hi : i = k
    · subst hi
      have : look j ((i, b) :: t) = look j t := by simp [look, h.symm]
      rw [this, ← ih]; simp [del]
    · simp only [del, List.filter_cons, ne_eq, hi, not_false_eq_true, decide_true, if_true]
      simp only [look]
      split
      · rfl
      · exact ih

end Sys2Proof.Tab
end

