-- ==== Sys2Proof/Laws/Flags.lean ====
section
/-! SUPPORT. Laws of events and counters: what raising an event and counting make of status bits, counters and the other
parts of the state. -/

namespace Sys2Proof.Machine

open Sys2Proof.Safety

/-! ## Parts that raising and counting leave alone -/

section
variable (e : Event) (a n : Nat) (s : State)

theorem raise_parts : Only [.hif, .status] s (raise e s) := raise_only rfl e (Only.refl _ s)
theorem bump_parts : Only [.hif, .hlt, .status, .counters] s (bump a n s) := bump_only rfl a n (Only.refl _ s)

@[simp] theorem raise_tmu : (raise e s).tmu = s.tmu := (raise_parts e s).2 .tmu rfl
@[simp] theorem raise_sqs : (raise e s).sqs = s.sqs := (raise_parts e s).2 .sqs rfl
@[simp] theorem raise_slc : (raise e s).slc = s.slc := (raise_parts e s).2 .slc rfl
@[simp] theorem raise_pgm : (raise e s).pgm = s.pgm := (raise_parts e s).2 .pgm rfl
@[simp] theorem raise_tir : (raise e s).tir = s.tir := (raise_parts e s).2 .tir rfl
@[simp] theorem raise_cmp : (raise e s).cmp = s.cmp := (raise_parts e s).2 .cmp rfl
@[simp] theorem raise_car : (raise e s).car = s.car := (raise_parts e s).2 .car rfl
@[simp] theorem raise_mdl : (raise e s).mdl = s.mdl := (raise_parts e s).2 .mdl rfl
@[simp] theorem raise_fab : (raise e s).fab = s.fab := (raise_parts e s).2 .fab rfl
@[simp] theorem raise_wei : (raise e s).wei = s.wei := (raise_parts e s).2 .wei rfl
@[simp] theorem raise_sec : (raise e s).sec = s.sec := (raise_parts e s).2 .sec rfl
@[simp] theorem raise_hlt : (raise e s).hlt = s.hlt := (raise_parts e s).2 .hlt rfl
@[simp] theorem raise_stw : (raise e s).stw = s.stw := (raise_parts e s).2 .stw rfl
@[simp] theorem raise_sup : (raise e s).sup = s.sup := (raise_parts e s).2 .sup rfl
@[simp] theorem raise_counters : (raise e s).counters = s.counters := (raise_parts e s).2 .counters rfl
@[simp] theorem raise_mem : (raise e s).mem = s.mem := (raise_parts e s).2 .mem rfl
@[simp] theorem raise_freeCtr : (raise e s).freeCtr = s.freeCtr := (raise_parts e s).2 .free rfl
@[simp] theorem raise_pending : (raise e s).pending = s.pending := (raise_parts e s).1

@[simp] theorem bump_tmu : (bump a n s).tmu = s.tmu := (bump_parts a n s).2 .tmu rfl
@[simp] theorem bump_sqs : (bump a n s).sqs = s.sqs := (bump_parts a n s).2 .sqs rfl
@[simp] theorem bump_slc : (bump a n s).slc = s.slc := (bump_parts a n s).2 .slc rfl
@[simp] theorem bump_pgm : (bump a n s).pgm = s.pgm := (bump_parts a n s).2 .pgm rfl
@[simp] theorem bump_tir : (bump a n s).tir = s.tir := (bump_parts a n s).2 .tir rfl
@[simp] theorem bump_cmp : (bump a n s).cmp = s.cmp := (bump_parts a n s).2 .cmp rfl
@[simp] theorem bump_car : (bump a n s).car = s.car := (bump_parts a n s).2 .car rfl
@[simp] theorem bump_mdl : (bump a n s).mdl = s.mdl := (bump_parts a n s).2 .mdl rfl
@[simp] theorem bump_fab : (bump a n s).fab = s.fab := (bump_parts a n s).2 .fab rfl
@[simp] theorem bump_wei : (bump a n s).wei = s.wei := (bump_parts a n s).2 .wei rfl
@[simp] theorem bump_sec : (bump a n s).sec = s.sec := (bump_parts a n s).2 .sec rfl
@[simp] theorem bump_stw : (bump a n s).stw = s.stw := (bump_parts a n s).2 .stw rfl
@[simp] theorem bump_sup : (bump a n s).sup = s.sup := (bump_parts a n s).2 .sup rfl
@[simp] theorem bump_mem : (bump a n s).mem = s.mem := (bump_parts a n s).2 .mem rfl
@[simp] theorem bump_freeCtr : (bump a n s).freeCtr = s.freeCtr := (bump_parts a n s).2 .free rfl
@[simp] theorem bump_pending : (bump a n s).pending = s.pending := (bump_parts a n s).1

@[simp] theorem raise_inService : inService (raise e s) = inService s := by simp [inService]
@[simp] theorem bump_inService : inService (bump a n s) = inService s := by simp [inService]
@[simp] theorem raise_counter : counter (raise e s) a = counter s a := by simp [counter, counterRaw]

end

/-! ## Status bits -/

theorem testBit_foldl_or (l : List (Nat × Nat)) (x b : Nat) :
    (l.foldl (fun acc e => acc ||| 2 ^ e.1) x).testBit b = (x.testBit b || l.any (fun e => e.1 == b)) := by
  induction l generalizing x with
  | nil => simp
  | cons a t ih =>
    simp only [List.foldl_cons, ih, Nat.testBit_or, Nat.testBit_two_pow, List.any_cons, Bool.or_assoc]
    congr 2

/-- Bits of a word as read, by bit. -/
theorem testBit_sqBits (s : State) (a b : Nat) :
    (sqBits s a).testBit b =
      if seqMode s then (statusWord s a).bits.testBit b else (statusWord s a).ages.any (fun e => e.1 == b) := by
  unfold sqBits
  dsimp only
  split
  · rfl
  · rw [testBit_foldl_or]; simp

theorem event_bits (w : SqWord) (b c : Nat) : (w.event b).bits.testBit c = (w.bits.testBit c || b == c) := by
  simp only [SqWord.event, Nat.testBit_or, Nat.testBit_two_pow]
  congr 1

theorem event_ages (w : SqWord) (b c : Nat) :
    (w.event b).ages.any (fun e => e.1 == c) = (w.ages.any (fun e => e.1 == c) || b == c) := by
  by_cases h : b = c
  · subst h
    simp [SqWord.event]
  · have : (b == c) = false := by simpa using h
    simp only [SqWord.event, List.any_append, List.any_cons, List.any_nil, this, Bool.or_false]
    induction w.ages with
    | nil => rfl
    | cons x t ih =>
      by_cases hx : x.1 = b
      · simp only [List.filter_cons, hx, ne_eq, not_true_eq_false, decide_false, Bool.false_eq_true, if_false, ih,
          List.any_cons, this, Bool.false_or]
      · simp only [List.filter_cons, hx, ne_eq, not_false_eq_true, decide_true, if_true, List.any_cons, ih]

/-- The words after an event: its own has the event, the others stay. -/
theorem statusWord_raise (e : Event) (s : State) (a : Nat) :
    statusWord (raise e s) a = if a = e.place.1 then (statusWord s a).event e.place.2 else statusWord s a := by
  have h : (raise e s).status = Tab.put e.place.1 ((statusWord s e.place.1).event e.place.2) s.status := by
    unfold raise raiseAt
    dsimp only
    split <;> rfl
  unfold statusWord
  rw [h]
  split
  · rename_i ha; subst ha; simp [statusWord]
  · rename_i ha; exact Tab.getD_put_other ha _ _ _

/-- What raising an event makes of every status bit. -/
theorem eventBit_raise (e f : Event) (s : State) :
    eventBit (raise e s) f = (eventBit s f || decide (f.place = e.place)) := by
  have hm : seqMode (raise e s) = seqMode s := by simp [seqMode]
  unfold eventBit
  simp only [testBit_sqBits, hm, statusWord_raise]
  by_cases h : f.place.1 = e.place.1
  · rw [if_pos h]
    have hd : decide (f.place = e.place) = (e.place.2 == f.place.2) := by
      rw [Bool.eq_iff_iff]
      simp only [decide_eq_true_eq, beq_iff_eq]
      constructor
      · intro hh; rw [hh]
      · intro hh; exact Prod.ext h hh.symm
    rw [hd]
    split
    · exact event_bits _ _ _
    · exact event_ages _ _ _
  · rw [if_neg h]
    have hd : decide (f.place = e.place) = false := by
      simp only [decide_eq_false_iff_not]
      intro hh; exact h (by rw [hh])
    rw [hd, Bool.or_false]

/-- An event raised reads 1. -/
@[simp] theorem eventBit_raise_same (e : Event) (s : State) : eventBit (raise e s) e = true := by
  simp [eventBit_raise]

/-- An event that reads 1 goes on reading 1 when another is raised. -/
theorem eventBit_raise_of {e f : Event} {s : State} (h : eventBit s f = true) : eventBit (raise e s) f = true := by
  simp [eventBit_raise, h]

/-! ## Counters -/

theorem counterEvent_counters (sat : Bool) (b o : Nat) (s : State) : (counterEvent sat b o s).counters = s.counters := by
  unfold counterEvent
  dsimp only
  split
  · rfl
  · rw [raise_counters]

/-- The counter counted, up to all ones (R317). -/
@[simp] theorem counter_bump_same (a n : Nat) (s : State) : counter (bump a n s) a = min (counter s a + n) sMax := by
  unfold counter bump
  dsimp only
  split
  · rename_i h
    have : counterRaw s a > sMax := h
    omega
  · split
    · simp only [counterRaw, Tab.getD_put_same] at *
      omega
    · simp only [counterRaw, counterEvent_counters, Tab.getD_put_same] at *
      omega

/-- Another counter stays. -/
theorem counter_bump_other {a b : Nat} (h : b ≠ a) (n : Nat) (s : State) : counter (bump a n s) b = counter s b := by
  unfold counter bump
  dsimp only
  split
  · rfl
  · split
    · simp only [counterRaw, Tab.getD_put_other h]
    · simp only [counterRaw, counterEvent_counters, Tab.getD_put_other h]

/-- Status bits that read 1 stay when something is counted. -/
theorem eventBit_bump_of {a n : Nat} {f : Event} {s : State} (h : eventBit s f = true) : eventBit (bump a n s) f = true := by
  unfold bump
  dsimp only
  split
  · exact h
  · split
    · exact h
    · unfold counterEvent
      dsimp only
      split
      · exact h
      · exact eventBit_raise_of h

end Sys2Proof.Machine
end

