-- ==== Sys2Proof/Laws/State.lean ====
section
/-! SUPPORT. One lemma per field per setter of the state: what it makes of the field it sets, and that the others are as
they were. -/

namespace Sys2Proof.Machine

section
variable (t : Nat) (s : State)
@[simp] theorem setNow_tmu : (setNow t s).tmu = { s.tmu with now := max s.tmu.now t } := rfl
@[simp] theorem setNow_sqs : (setNow t s).sqs = s.sqs := rfl
@[simp] theorem setNow_slc : (setNow t s).slc = s.slc := rfl
@[simp] theorem setNow_pgm : (setNow t s).pgm = s.pgm := rfl
@[simp] theorem setNow_tir : (setNow t s).tir = s.tir := rfl
@[simp] theorem setNow_cmp : (setNow t s).cmp = s.cmp := rfl
@[simp] theorem setNow_car : (setNow t s).car = s.car := rfl
@[simp] theorem setNow_mdl : (setNow t s).mdl = s.mdl := rfl
@[simp] theorem setNow_fab : (setNow t s).fab = s.fab := rfl
@[simp] theorem setNow_wei : (setNow t s).wei = s.wei := rfl
@[simp] theorem setNow_hif : (setNow t s).hif = s.hif := rfl
@[simp] theorem setNow_sec : (setNow t s).sec = s.sec := rfl
@[simp] theorem setNow_hlt : (setNow t s).hlt = s.hlt := rfl
@[simp] theorem setNow_stw : (setNow t s).stw = s.stw := rfl
@[simp] theorem setNow_sup : (setNow t s).sup = s.sup := rfl
@[simp] theorem setNow_status : (setNow t s).status = s.status := rfl
@[simp] theorem setNow_counters : (setNow t s).counters = s.counters := rfl
@[simp] theorem setNow_mem : (setNow t s).mem = s.mem := rfl
@[simp] theorem setNow_freeCtr : (setNow t s).freeCtr = s.freeCtr := rfl
@[simp] theorem setNow_pending : (setNow t s).pending = s.pending := rfl
end

section
variable (a : Nat) (bs : List Byte) (s : State)
@[simp] theorem writeMem_tmu : (writeMem a bs s).tmu = s.tmu := rfl
@[simp] theorem writeMem_sqs : (writeMem a bs s).sqs = s.sqs := rfl
@[simp] theorem writeMem_slc : (writeMem a bs s).slc = s.slc := rfl
@[simp] theorem writeMem_pgm : (writeMem a bs s).pgm = s.pgm := rfl
@[simp] theorem writeMem_tir : (writeMem a bs s).tir = s.tir := rfl
@[simp] theorem writeMem_cmp : (writeMem a bs s).cmp = s.cmp := rfl
@[simp] theorem writeMem_car : (writeMem a bs s).car = s.car := rfl
@[simp] theorem writeMem_mdl : (writeMem a bs s).mdl = s.mdl := rfl
@[simp] theorem writeMem_fab : (writeMem a bs s).fab = s.fab := rfl
@[simp] theorem writeMem_wei : (writeMem a bs s).wei = s.wei := rfl
@[simp] theorem writeMem_hif : (writeMem a bs s).hif = s.hif := rfl
@[simp] theorem writeMem_sec : (writeMem a bs s).sec = s.sec := rfl
@[simp] theorem writeMem_hlt : (writeMem a bs s).hlt = s.hlt := rfl
@[simp] theorem writeMem_stw : (writeMem a bs s).stw = s.stw := rfl
@[simp] theorem writeMem_sup : (writeMem a bs s).sup = s.sup := rfl
@[simp] theorem writeMem_status : (writeMem a bs s).status = s.status := rfl
@[simp] theorem writeMem_counters : (writeMem a bs s).counters = s.counters := rfl
@[simp] theorem writeMem_mem : (writeMem a bs s).mem = memWrite a bs s.mem := rfl
@[simp] theorem writeMem_freeCtr : (writeMem a bs s).freeCtr = s.freeCtr := rfl
@[simp] theorem writeMem_pending : (writeMem a bs s).pending = s.pending := rfl
end

section
variable (a : Nat) (w : SqWord) (s : State)
@[simp] theorem setStatus_tmu : (setStatus a w s).tmu = s.tmu := rfl
@[simp] theorem setStatus_sqs : (setStatus a w s).sqs = s.sqs := rfl
@[simp] theorem setStatus_slc : (setStatus a w s).slc = s.slc := rfl
@[simp] theorem setStatus_pgm : (setStatus a w s).pgm = s.pgm := rfl
@[simp] theorem setStatus_tir : (setStatus a w s).tir = s.tir := rfl
@[simp] theorem setStatus_cmp : (setStatus a w s).cmp = s.cmp := rfl
@[simp] theorem setStatus_car : (setStatus a w s).car = s.car := rfl
@[simp] theorem setStatus_mdl : (setStatus a w s).mdl = s.mdl := rfl
@[simp] theorem setStatus_fab : (setStatus a w s).fab = s.fab := rfl
@[simp] theorem setStatus_wei : (setStatus a w s).wei = s.wei := rfl
@[simp] theorem setStatus_hif : (setStatus a w s).hif = s.hif := rfl
@[simp] theorem setStatus_sec : (setStatus a w s).sec = s.sec := rfl
@[simp] theorem setStatus_hlt : (setStatus a w s).hlt = s.hlt := rfl
@[simp] theorem setStatus_stw : (setStatus a w s).stw = s.stw := rfl
@[simp] theorem setStatus_sup : (setStatus a w s).sup = s.sup := rfl
@[simp] theorem setStatus_status : (setStatus a w s).status = Tab.put a w s.status := rfl
@[simp] theorem setStatus_counters : (setStatus a w s).counters = s.counters := rfl
@[simp] theorem setStatus_mem : (setStatus a w s).mem = s.mem := rfl
@[simp] theorem setStatus_freeCtr : (setStatus a w s).freeCtr = s.freeCtr := rfl
@[simp] theorem setStatus_pending : (setStatus a w s).pending = s.pending := rfl
end

section
variable (v : Nat) (s : State)
@[simp] theorem msix_tmu : (msix v s).tmu = s.tmu := rfl
@[simp] theorem msix_sqs : (msix v s).sqs = s.sqs := rfl
@[simp] theorem msix_slc : (msix v s).slc = s.slc := rfl
@[simp] theorem msix_pgm : (msix v s).pgm = s.pgm := rfl
@[simp] theorem msix_tir : (msix v s).tir = s.tir := rfl
@[simp] theorem msix_cmp : (msix v s).cmp = s.cmp := rfl
@[simp] theorem msix_car : (msix v s).car = s.car := rfl
@[simp] theorem msix_mdl : (msix v s).mdl = s.mdl := rfl
@[simp] theorem msix_fab : (msix v s).fab = s.fab := rfl
@[simp] theorem msix_wei : (msix v s).wei = s.wei := rfl
@[simp] theorem msix_hif : (msix v s).hif = { s.hif with msix := Tab.put v ((Tab.getD s.hif.msix v {}).fire s.tmu.now) s.hif.msix } := rfl
@[simp] theorem msix_sec : (msix v s).sec = s.sec := rfl
@[simp] theorem msix_hlt : (msix v s).hlt = s.hlt := rfl
@[simp] theorem msix_stw : (msix v s).stw = s.stw := rfl
@[simp] theorem msix_sup : (msix v s).sup = s.sup := rfl
@[simp] theorem msix_status : (msix v s).status = s.status := rfl
@[simp] theorem msix_counters : (msix v s).counters = s.counters := rfl
@[simp] theorem msix_mem : (msix v s).mem = s.mem := rfl
@[simp] theorem msix_freeCtr : (msix v s).freeCtr = s.freeCtr := rfl
@[simp] theorem msix_pending : (msix v s).pending = s.pending := rfl
end

section
variable (d : Nat) (a : Acct) (s : State)
@[simp] theorem setAcct_tmu : (setAcct d a s).tmu = s.tmu := rfl
@[simp] theorem setAcct_sqs : (setAcct d a s).sqs = s.sqs := rfl
@[simp] theorem setAcct_slc : (setAcct d a s).slc = s.slc := rfl
@[simp] theorem setAcct_pgm : (setAcct d a s).pgm = s.pgm := rfl
@[simp] theorem setAcct_tir : (setAcct d a s).tir = s.tir := rfl
@[simp] theorem setAcct_cmp : (setAcct d a s).cmp = s.cmp := rfl
@[simp] theorem setAcct_car : (setAcct d a s).car = s.car := rfl
@[simp] theorem setAcct_mdl : (setAcct d a s).mdl = s.mdl := rfl
@[simp] theorem setAcct_fab : (setAcct d a s).fab = s.fab := rfl
@[simp] theorem setAcct_wei : (setAcct d a s).wei = s.wei := rfl
@[simp] theorem setAcct_hif : (setAcct d a s).hif = s.hif := rfl
@[simp] theorem setAcct_sec : (setAcct d a s).sec = s.sec := rfl
@[simp] theorem setAcct_hlt : (setAcct d a s).hlt = { s.hlt with acct := Tab.put d a s.hlt.acct } := rfl
@[simp] theorem setAcct_stw : (setAcct d a s).stw = s.stw := rfl
@[simp] theorem setAcct_sup : (setAcct d a s).sup = s.sup := rfl
@[simp] theorem setAcct_status : (setAcct d a s).status = s.status := rfl
@[simp] theorem setAcct_counters : (setAcct d a s).counters = s.counters := rfl
@[simp] theorem setAcct_mem : (setAcct d a s).mem = s.mem := rfl
@[simp] theorem setAcct_freeCtr : (setAcct d a s).freeCtr = s.freeCtr := rfl
@[simp] theorem setAcct_pending : (setAcct d a s).pending = s.pending := rfl
end

section
variable (q : Nat) (w : WQueue) (s : State)
@[simp] theorem setQueue_tmu : (setQueue q w s).tmu = s.tmu := rfl
@[simp] theorem setQueue_sqs : (setQueue q w s).sqs = s.sqs := rfl
@[simp] theorem setQueue_slc : (setQueue q w s).slc = s.slc := rfl
@[simp] theorem setQueue_pgm : (setQueue q w s).pgm = s.pgm := rfl
@[simp] theorem setQueue_tir : (setQueue q w s).tir = s.tir := rfl
@[simp] theorem setQueue_cmp : (setQueue q w s).cmp = s.cmp := rfl
@[simp] theorem setQueue_car : (setQueue q w s).car = s.car := rfl
@[simp] theorem setQueue_mdl : (setQueue q w s).mdl = s.mdl := rfl
@[simp] theorem setQueue_fab : (setQueue q w s).fab = s.fab := rfl
@[simp] theorem setQueue_wei : (setQueue q w s).wei = { s.wei with queues := Tab.put q w s.wei.queues } := rfl
@[simp] theorem setQueue_hif : (setQueue q w s).hif = s.hif := rfl
@[simp] theorem setQueue_sec : (setQueue q w s).sec = s.sec := rfl
@[simp] theorem setQueue_hlt : (setQueue q w s).hlt = s.hlt := rfl
@[simp] theorem setQueue_stw : (setQueue q w s).stw = s.stw := rfl
@[simp] theorem setQueue_sup : (setQueue q w s).sup = s.sup := rfl
@[simp] theorem setQueue_status : (setQueue q w s).status = s.status := rfl
@[simp] theorem setQueue_counters : (setQueue q w s).counters = s.counters := rfl
@[simp] theorem setQueue_mem : (setQueue q w s).mem = s.mem := rfl
@[simp] theorem setQueue_freeCtr : (setQueue q w s).freeCtr = s.freeCtr := rfl
@[simp] theorem setQueue_pending : (setQueue q w s).pending = s.pending := rfl
end

section
variable (p : Nat) (l : List Nat) (s : State)
@[simp] theorem setActive_tmu : (setActive p l s).tmu = s.tmu := rfl
@[simp] theorem setActive_sqs : (setActive p l s).sqs = s.sqs := rfl
@[simp] theorem setActive_slc : (setActive p l s).slc = s.slc := rfl
@[simp] theorem setActive_pgm : (setActive p l s).pgm = s.pgm := rfl
@[simp] theorem setActive_tir : (setActive p l s).tir = s.tir := rfl
@[simp] theorem setActive_cmp : (setActive p l s).cmp = s.cmp := rfl
@[simp] theorem setActive_car : (setActive p l s).car = s.car := rfl
@[simp] theorem setActive_mdl : (setActive p l s).mdl = s.mdl := rfl
@[simp] theorem setActive_fab : (setActive p l s).fab = s.fab := rfl
@[simp] theorem setActive_wei : (setActive p l s).wei = { s.wei with active := Tab.put p l s.wei.active } := rfl
@[simp] theorem setActive_hif : (setActive p l s).hif = s.hif := rfl
@[simp] theorem setActive_sec : (setActive p l s).sec = s.sec := rfl
@[simp] theorem setActive_hlt : (setActive p l s).hlt = s.hlt := rfl
@[simp] theorem setActive_stw : (setActive p l s).stw = s.stw := rfl
@[simp] theorem setActive_sup : (setActive p l s).sup = s.sup := rfl
@[simp] theorem setActive_status : (setActive p l s).status = s.status := rfl
@[simp] theorem setActive_counters : (setActive p l s).counters = s.counters := rfl
@[simp] theorem setActive_mem : (setActive p l s).mem = s.mem := rfl
@[simp] theorem setActive_freeCtr : (setActive p l s).freeCtr = s.freeCtr := rfl
@[simp] theorem setActive_pending : (setActive p l s).pending = s.pending := rfl
end

section
variable (p : Nat) (r : PortRec) (s : State)
@[simp] theorem setPort_tmu : (setPort p r s).tmu = s.tmu := rfl
@[simp] theorem setPort_sqs : (setPort p r s).sqs = s.sqs := rfl
@[simp] theorem setPort_slc : (setPort p r s).slc = s.slc := rfl
@[simp] theorem setPort_pgm : (setPort p r s).pgm = s.pgm := rfl
@[simp] theorem setPort_tir : (setPort p r s).tir = s.tir := rfl
@[simp] theorem setPort_cmp : (setPort p r s).cmp = s.cmp := rfl
@[simp] theorem setPort_car : (setPort p r s).car = s.car := rfl
@[simp] theorem setPort_mdl : (setPort p r s).mdl = s.mdl := rfl
@[simp] theorem setPort_fab : (setPort p r s).fab = { s.fab with ports := Tab.put p r s.fab.ports } := rfl
@[simp] theorem setPort_wei : (setPort p r s).wei = s.wei := rfl
@[simp] theorem setPort_hif : (setPort p r s).hif = s.hif := rfl
@[simp] theorem setPort_sec : (setPort p r s).sec = s.sec := rfl
@[simp] theorem setPort_hlt : (setPort p r s).hlt = s.hlt := rfl
@[simp] theorem setPort_stw : (setPort p r s).stw = s.stw := rfl
@[simp] theorem setPort_sup : (setPort p r s).sup = s.sup := rfl
@[simp] theorem setPort_status : (setPort p r s).status = s.status := rfl
@[simp] theorem setPort_counters : (setPort p r s).counters = s.counters := rfl
@[simp] theorem setPort_mem : (setPort p r s).mem = s.mem := rfl
@[simp] theorem setPort_freeCtr : (setPort p r s).freeCtr = s.freeCtr := rfl
@[simp] theorem setPort_pending : (setPort p r s).pending = s.pending := rfl
end

section
variable (r : Nat) (g : Ring) (s : State)
@[simp] theorem setRing_tmu : (setRing r g s).tmu = s.tmu := rfl
@[simp] theorem setRing_sqs : (setRing r g s).sqs = s.sqs := rfl
@[simp] theorem setRing_slc : (setRing r g s).slc = s.slc := rfl
@[simp] theorem setRing_pgm : (setRing r g s).pgm = s.pgm := rfl
@[simp] theorem setRing_tir : (setRing r g s).tir = s.tir := rfl
@[simp] theorem setRing_cmp : (setRing r g s).cmp = s.cmp := rfl
@[simp] theorem setRing_car : (setRing r g s).car = s.car := rfl
@[simp] theorem setRing_mdl : (setRing r g s).mdl = s.mdl := rfl
@[simp] theorem setRing_fab : (setRing r g s).fab = s.fab := rfl
@[simp] theorem setRing_wei : (setRing r g s).wei = s.wei := rfl
@[simp] theorem setRing_hif : (setRing r g s).hif = { s.hif with rings := Tab.put r g s.hif.rings } := rfl
@[simp] theorem setRing_sec : (setRing r g s).sec = s.sec := rfl
@[simp] theorem setRing_hlt : (setRing r g s).hlt = s.hlt := rfl
@[simp] theorem setRing_stw : (setRing r g s).stw = s.stw := rfl
@[simp] theorem setRing_sup : (setRing r g s).sup = s.sup := rfl
@[simp] theorem setRing_status : (setRing r g s).status = s.status := rfl
@[simp] theorem setRing_counters : (setRing r g s).counters = s.counters := rfl
@[simp] theorem setRing_mem : (setRing r g s).mem = s.mem := rfl
@[simp] theorem setRing_freeCtr : (setRing r g s).freeCtr = s.freeCtr := rfl
@[simp] theorem setRing_pending : (setRing r g s).pending = s.pending := rfl
end

section
variable (slot : Nat) (f : Seq → Seq) (s : State)
@[simp] theorem updSeq_tmu : (updSeq slot f s).tmu = s.tmu := rfl
@[simp] theorem updSeq_sqs : (updSeq slot f s).sqs = { s.sqs with seqs := Tab.upd slot f s.sqs.seqs } := rfl
@[simp] theorem updSeq_slc : (updSeq slot f s).slc = s.slc := rfl
@[simp] theorem updSeq_pgm : (updSeq slot f s).pgm = s.pgm := rfl
@[simp] theorem updSeq_tir : (updSeq slot f s).tir = s.tir := rfl
@[simp] theorem updSeq_cmp : (updSeq slot f s).cmp = s.cmp := rfl
@[simp] theorem updSeq_car : (updSeq slot f s).car = s.car := rfl
@[simp] theorem updSeq_mdl : (updSeq slot f s).mdl = s.mdl := rfl
@[simp] theorem updSeq_fab : (updSeq slot f s).fab = s.fab := rfl
@[simp] theorem updSeq_wei : (updSeq slot f s).wei = s.wei := rfl
@[simp] theorem updSeq_hif : (updSeq slot f s).hif = s.hif := rfl
@[simp] theorem updSeq_sec : (updSeq slot f s).sec = s.sec := rfl
@[simp] theorem updSeq_hlt : (updSeq slot f s).hlt = s.hlt := rfl
@[simp] theorem updSeq_stw : (updSeq slot f s).stw = s.stw := rfl
@[simp] theorem updSeq_sup : (updSeq slot f s).sup = s.sup := rfl
@[simp] theorem updSeq_status : (updSeq slot f s).status = s.status := rfl
@[simp] theorem updSeq_counters : (updSeq slot f s).counters = s.counters := rfl
@[simp] theorem updSeq_mem : (updSeq slot f s).mem = s.mem := rfl
@[simp] theorem updSeq_freeCtr : (updSeq slot f s).freeCtr = s.freeCtr := rfl
@[simp] theorem updSeq_pending : (updSeq slot f s).pending = s.pending := rfl
end

section
variable (slot : Nat) (e : Seq) (s : State)
@[simp] theorem putSeq_tmu : (putSeq slot e s).tmu = s.tmu := rfl
@[simp] theorem putSeq_sqs : (putSeq slot e s).sqs = { s.sqs with seqs := Tab.put slot e s.sqs.seqs } := rfl
@[simp] theorem putSeq_slc : (putSeq slot e s).slc = s.slc := rfl
@[simp] theorem putSeq_pgm : (putSeq slot e s).pgm = s.pgm := rfl
@[simp] theorem putSeq_tir : (putSeq slot e s).tir = s.tir := rfl
@[simp] theorem putSeq_cmp : (putSeq slot e s).cmp = s.cmp := rfl
@[simp] theorem putSeq_car : (putSeq slot e s).car = s.car := rfl
@[simp] theorem putSeq_mdl : (putSeq slot e s).mdl = s.mdl := rfl
@[simp] theorem putSeq_fab : (putSeq slot e s).fab = s.fab := rfl
@[simp] theorem putSeq_wei : (putSeq slot e s).wei = s.wei := rfl
@[simp] theorem putSeq_hif : (putSeq slot e s).hif = s.hif := rfl
@[simp] theorem putSeq_sec : (putSeq slot e s).sec = s.sec := rfl
@[simp] theorem putSeq_hlt : (putSeq slot e s).hlt = s.hlt := rfl
@[simp] theorem putSeq_stw : (putSeq slot e s).stw = s.stw := rfl
@[simp] theorem putSeq_sup : (putSeq slot e s).sup = s.sup := rfl
@[simp] theorem putSeq_status : (putSeq slot e s).status = s.status := rfl
@[simp] theorem putSeq_counters : (putSeq slot e s).counters = s.counters := rfl
@[simp] theorem putSeq_mem : (putSeq slot e s).mem = s.mem := rfl
@[simp] theorem putSeq_freeCtr : (putSeq slot e s).freeCtr = s.freeCtr := rfl
@[simp] theorem putSeq_pending : (putSeq slot e s).pending = s.pending := rfl
end

section
variable (die phys : Nat) (c : Core) (s : State)
@[simp] theorem setCore_tmu : (setCore die phys c s).tmu = s.tmu := rfl
@[simp] theorem setCore_sqs : (setCore die phys c s).sqs = s.sqs := rfl
@[simp] theorem setCore_slc : (setCore die phys c s).slc = s.slc := rfl
@[simp] theorem setCore_pgm : (setCore die phys c s).pgm = s.pgm := rfl
@[simp] theorem setCore_tir : (setCore die phys c s).tir = s.tir := rfl
@[simp] theorem setCore_cmp : (setCore die phys c s).cmp = s.cmp := rfl
@[simp] theorem setCore_car : (setCore die phys c s).car = s.car := rfl
@[simp] theorem setCore_mdl : (setCore die phys c s).mdl = s.mdl := rfl
@[simp] theorem setCore_fab : (setCore die phys c s).fab = s.fab := rfl
@[simp] theorem setCore_wei : (setCore die phys c s).wei = s.wei := rfl
@[simp] theorem setCore_hif : (setCore die phys c s).hif = s.hif := rfl
@[simp] theorem setCore_sec : (setCore die phys c s).sec = s.sec := rfl
@[simp] theorem setCore_hlt : (setCore die phys c s).hlt = { s.hlt with cores := Tab.put (die * 64 + phys) c s.hlt.cores } := rfl
@[simp] theorem setCore_stw : (setCore die phys c s).stw = s.stw := rfl
@[simp] theorem setCore_sup : (setCore die phys c s).sup = s.sup := rfl
@[simp] theorem setCore_status : (setCore die phys c s).status = s.status := rfl
@[simp] theorem setCore_counters : (setCore die phys c s).counters = s.counters := rfl
@[simp] theorem setCore_mem : (setCore die phys c s).mem = s.mem := rfl
@[simp] theorem setCore_freeCtr : (setCore die phys c s).freeCtr = s.freeCtr := rfl
@[simp] theorem setCore_pending : (setCore die phys c s).pending = s.pending := rfl
end

section
variable (d : Nat) (x : Die) (s : State)
@[simp] theorem setDie_tmu : (setDie d x s).tmu = s.tmu := rfl
@[simp] theorem setDie_sqs : (setDie d x s).sqs = s.sqs := rfl
@[simp] theorem setDie_slc : (setDie d x s).slc = s.slc := rfl
@[simp] theorem setDie_pgm : (setDie d x s).pgm = s.pgm := rfl
@[simp] theorem setDie_tir : (setDie d x s).tir = s.tir := rfl
@[simp] theorem setDie_cmp : (setDie d x s).cmp = s.cmp := rfl
@[simp] theorem setDie_car : (setDie d x s).car = s.car := rfl
@[simp] theorem setDie_mdl : (setDie d x s).mdl = s.mdl := rfl
@[simp] theorem setDie_fab : (setDie d x s).fab = s.fab := rfl
@[simp] theorem setDie_wei : (setDie d x s).wei = s.wei := rfl
@[simp] theorem setDie_hif : (setDie d x s).hif = s.hif := rfl
@[simp] theorem setDie_sec : (setDie d x s).sec = s.sec := rfl
@[simp] theorem setDie_hlt : (setDie d x s).hlt = { s.hlt with dies := Tab.put d x s.hlt.dies } := rfl
@[simp] theorem setDie_stw : (setDie d x s).stw = s.stw := rfl
@[simp] theorem setDie_sup : (setDie d x s).sup = s.sup := rfl
@[simp] theorem setDie_status : (setDie d x s).status = s.status := rfl
@[simp] theorem setDie_counters : (setDie d x s).counters = s.counters := rfl
@[simp] theorem setDie_mem : (setDie d x s).mem = s.mem := rfl
@[simp] theorem setDie_freeCtr : (setDie d x s).freeCtr = s.freeCtr := rfl
@[simp] theorem setDie_pending : (setDie d x s).pending = s.pending := rfl
end

section
variable (l : Nat) (st : LinkState) (s : State)
@[simp] theorem setLink_tmu : (setLink l st s).tmu = s.tmu := rfl
@[simp] theorem setLink_sqs : (setLink l st s).sqs = s.sqs := rfl
@[simp] theorem setLink_slc : (setLink l st s).slc = s.slc := rfl
@[simp] theorem setLink_pgm : (setLink l st s).pgm = s.pgm := rfl
@[simp] theorem setLink_tir : (setLink l st s).tir = s.tir := rfl
@[simp] theorem setLink_cmp : (setLink l st s).cmp = s.cmp := rfl
@[simp] theorem setLink_car : (setLink l st s).car = s.car := rfl
@[simp] theorem setLink_mdl : (setLink l st s).mdl = s.mdl := rfl
@[simp] theorem setLink_fab : (setLink l st s).fab = s.fab := rfl
@[simp] theorem setLink_wei : (setLink l st s).wei = s.wei := rfl
@[simp] theorem setLink_hif : (setLink l st s).hif = s.hif := rfl
@[simp] theorem setLink_sec : (setLink l st s).sec = s.sec := rfl
@[simp] theorem setLink_hlt : (setLink l st s).hlt = { s.hlt with links := Tab.put l st s.hlt.links } := rfl
@[simp] theorem setLink_stw : (setLink l st s).stw = s.stw := rfl
@[simp] theorem setLink_sup : (setLink l st s).sup = s.sup := rfl
@[simp] theorem setLink_status : (setLink l st s).status = s.status := rfl
@[simp] theorem setLink_counters : (setLink l st s).counters = s.counters := rfl
@[simp] theorem setLink_mem : (setLink l st s).mem = s.mem := rfl
@[simp] theorem setLink_freeCtr : (setLink l st s).freeCtr = s.freeCtr := rfl
@[simp] theorem setLink_pending : (setLink l st s).pending = s.pending := rfl
end

section
variable (i : Nat) (f : Desc → Desc) (s : State)
@[simp] theorem updDesc_tmu : (updDesc i f s).tmu = s.tmu := rfl
@[simp] theorem updDesc_sqs : (updDesc i f s).sqs = s.sqs := rfl
@[simp] theorem updDesc_slc : (updDesc i f s).slc = s.slc := rfl
@[simp] theorem updDesc_pgm : (updDesc i f s).pgm = { s.pgm with descs := Tab.upd i f s.pgm.descs } := rfl
@[simp] theorem updDesc_tir : (updDesc i f s).tir = s.tir := rfl
@[simp] theorem updDesc_cmp : (updDesc i f s).cmp = s.cmp := rfl
@[simp] theorem updDesc_car : (updDesc i f s).car = s.car := rfl
@[simp] theorem updDesc_mdl : (updDesc i f s).mdl = s.mdl := rfl
@[simp] theorem updDesc_fab : (updDesc i f s).fab = s.fab := rfl
@[simp] theorem updDesc_wei : (updDesc i f s).wei = s.wei := rfl
@[simp] theorem updDesc_hif : (updDesc i f s).hif = s.hif := rfl
@[simp] theorem updDesc_sec : (updDesc i f s).sec = s.sec := rfl
@[simp] theorem updDesc_hlt : (updDesc i f s).hlt = s.hlt := rfl
@[simp] theorem updDesc_stw : (updDesc i f s).stw = s.stw := rfl
@[simp] theorem updDesc_sup : (updDesc i f s).sup = s.sup := rfl
@[simp] theorem updDesc_status : (updDesc i f s).status = s.status := rfl
@[simp] theorem updDesc_counters : (updDesc i f s).counters = s.counters := rfl
@[simp] theorem updDesc_mem : (updDesc i f s).mem = s.mem := rfl
@[simp] theorem updDesc_freeCtr : (updDesc i f s).freeCtr = s.freeCtr := rfl
@[simp] theorem updDesc_pending : (updDesc i f s).pending = s.pending := rfl
end

section
variable (i : Nat) (d : Desc) (s : State)
@[simp] theorem putDesc_tmu : (putDesc i d s).tmu = s.tmu := rfl
@[simp] theorem putDesc_sqs : (putDesc i d s).sqs = s.sqs := rfl
@[simp] theorem putDesc_slc : (putDesc i d s).slc = s.slc := rfl
@[simp] theorem putDesc_pgm : (putDesc i d s).pgm = { s.pgm with descs := Tab.put i d s.pgm.descs } := rfl
@[simp] theorem putDesc_tir : (putDesc i d s).tir = s.tir := rfl
@[simp] theorem putDesc_cmp : (putDesc i d s).cmp = s.cmp := rfl
@[simp] theorem putDesc_car : (putDesc i d s).car = s.car := rfl
@[simp] theorem putDesc_mdl : (putDesc i d s).mdl = s.mdl := rfl
@[simp] theorem putDesc_fab : (putDesc i d s).fab = s.fab := rfl
@[simp] theorem putDesc_wei : (putDesc i d s).wei = s.wei := rfl
@[simp] theorem putDesc_hif : (putDesc i d s).hif = s.hif := rfl
@[simp] theorem putDesc_sec : (putDesc i d s).sec = s.sec := rfl
@[simp] theorem putDesc_hlt : (putDesc i d s).hlt = s.hlt := rfl
@[simp] theorem putDesc_stw : (putDesc i d s).stw = s.stw := rfl
@[simp] theorem putDesc_sup : (putDesc i d s).sup = s.sup := rfl
@[simp] theorem putDesc_status : (putDesc i d s).status = s.status := rfl
@[simp] theorem putDesc_counters : (putDesc i d s).counters = s.counters := rfl
@[simp] theorem putDesc_mem : (putDesc i d s).mem = s.mem := rfl
@[simp] theorem putDesc_freeCtr : (putDesc i d s).freeCtr = s.freeCtr := rfl
@[simp] theorem putDesc_pending : (putDesc i d s).pending = s.pending := rfl
end

section
variable (w : Nat) (r : Window) (s : State)
@[simp] theorem setWindow_tmu : (setWindow w r s).tmu = s.tmu := rfl
@[simp] theorem setWindow_sqs : (setWindow w r s).sqs = s.sqs := rfl
@[simp] theorem setWindow_slc : (setWindow w r s).slc = s.slc := rfl
@[simp] theorem setWindow_pgm : (setWindow w r s).pgm = s.pgm := rfl
@[simp] theorem setWindow_tir : (setWindow w r s).tir = s.tir := rfl
@[simp] theorem setWindow_cmp : (setWindow w r s).cmp = s.cmp := rfl
@[simp] theorem setWindow_car : (setWindow w r s).car = s.car := rfl
@[simp] theorem setWindow_mdl : (setWindow w r s).mdl = s.mdl := rfl
@[simp] theorem setWindow_fab : (setWindow w r s).fab = { s.fab with windows := Tab.put w r s.fab.windows } := rfl
@[simp] theorem setWindow_wei : (setWindow w r s).wei = s.wei := rfl
@[simp] theorem setWindow_hif : (setWindow w r s).hif = s.hif := rfl
@[simp] theorem setWindow_sec : (setWindow w r s).sec = s.sec := rfl
@[simp] theorem setWindow_hlt : (setWindow w r s).hlt = s.hlt := rfl
@[simp] theorem setWindow_stw : (setWindow w r s).stw = s.stw := rfl
@[simp] theorem setWindow_sup : (setWindow w r s).sup = s.sup := rfl
@[simp] theorem setWindow_status : (setWindow w r s).status = s.status := rfl
@[simp] theorem setWindow_counters : (setWindow w r s).counters = s.counters := rfl
@[simp] theorem setWindow_mem : (setWindow w r s).mem = s.mem := rfl
@[simp] theorem setWindow_freeCtr : (setWindow w r s).freeCtr = s.freeCtr := rfl
@[simp] theorem setWindow_pending : (setWindow w r s).pending = s.pending := rfl
end

section
variable (slot : Nat) (h : List Nat) (s : State)
@[simp] theorem setHist_tmu : (setHist slot h s).tmu = s.tmu := rfl
@[simp] theorem setHist_sqs : (setHist slot h s).sqs = s.sqs := rfl
@[simp] theorem setHist_slc : (setHist slot h s).slc = { s.slc with hist := Tab.put slot h s.slc.hist } := rfl
@[simp] theorem setHist_pgm : (setHist slot h s).pgm = s.pgm := rfl
@[simp] theorem setHist_tir : (setHist slot h s).tir = s.tir := rfl
@[simp] theorem setHist_cmp : (setHist slot h s).cmp = s.cmp := rfl
@[simp] theorem setHist_car : (setHist slot h s).car = s.car := rfl
@[simp] theorem setHist_mdl : (setHist slot h s).mdl = s.mdl := rfl
@[simp] theorem setHist_fab : (setHist slot h s).fab = s.fab := rfl
@[simp] theorem setHist_wei : (setHist slot h s).wei = s.wei := rfl
@[simp] theorem setHist_hif : (setHist slot h s).hif = s.hif := rfl
@[simp] theorem setHist_sec : (setHist slot h s).sec = s.sec := rfl
@[simp] theorem setHist_hlt : (setHist slot h s).hlt = s.hlt := rfl
@[simp] theorem setHist_stw : (setHist slot h s).stw = s.stw := rfl
@[simp] theorem setHist_sup : (setHist slot h s).sup = s.sup := rfl
@[simp] theorem setHist_status : (setHist slot h s).status = s.status := rfl
@[simp] theorem setHist_counters : (setHist slot h s).counters = s.counters := rfl
@[simp] theorem setHist_mem : (setHist slot h s).mem = s.mem := rfl
@[simp] theorem setHist_freeCtr : (setHist slot h s).freeCtr = s.freeCtr := rfl
@[simp] theorem setHist_pending : (setHist slot h s).pending = s.pending := rfl
end

section
variable (slot : Nat) (f : Owned → Owned) (s : State)
@[simp] theorem updOwned_tmu : (updOwned slot f s).tmu = s.tmu := rfl
@[simp] theorem updOwned_sqs : (updOwned slot f s).sqs = { s.sqs with owned := Tab.upd slot f s.sqs.owned } := rfl
@[simp] theorem updOwned_slc : (updOwned slot f s).slc = s.slc := rfl
@[simp] theorem updOwned_pgm : (updOwned slot f s).pgm = s.pgm := rfl
@[simp] theorem updOwned_tir : (updOwned slot f s).tir = s.tir := rfl
@[simp] theorem updOwned_cmp : (updOwned slot f s).cmp = s.cmp := rfl
@[simp] theorem updOwned_car : (updOwned slot f s).car = s.car := rfl
@[simp] theorem updOwned_mdl : (updOwned slot f s).mdl = s.mdl := rfl
@[simp] theorem updOwned_fab : (updOwned slot f s).fab = s.fab := rfl
@[simp] theorem updOwned_wei : (updOwned slot f s).wei = s.wei := rfl
@[simp] theorem updOwned_hif : (updOwned slot f s).hif = s.hif := rfl
@[simp] theorem updOwned_sec : (updOwned slot f s).sec = s.sec := rfl
@[simp] theorem updOwned_hlt : (updOwned slot f s).hlt = s.hlt := rfl
@[simp] theorem updOwned_stw : (updOwned slot f s).stw = s.stw := rfl
@[simp] theorem updOwned_sup : (updOwned slot f s).sup = s.sup := rfl
@[simp] theorem updOwned_status : (updOwned slot f s).status = s.status := rfl
@[simp] theorem updOwned_counters : (updOwned slot f s).counters = s.counters := rfl
@[simp] theorem updOwned_mem : (updOwned slot f s).mem = s.mem := rfl
@[simp] theorem updOwned_freeCtr : (updOwned slot f s).freeCtr = s.freeCtr := rfl
@[simp] theorem updOwned_pending : (updOwned slot f s).pending = s.pending := rfl
end

section
variable (p : Pend) (s : State)
@[simp] theorem addWait_tmu : (addWait p s).tmu = s.tmu := rfl
@[simp] theorem addWait_sqs : (addWait p s).sqs = { s.sqs with waiting := s.sqs.waiting ++ [p] } := rfl
@[simp] theorem addWait_slc : (addWait p s).slc = s.slc := rfl
@[simp] theorem addWait_pgm : (addWait p s).pgm = s.pgm := rfl
@[simp] theorem addWait_tir : (addWait p s).tir = s.tir := rfl
@[simp] theorem addWait_cmp : (addWait p s).cmp = s.cmp := rfl
@[simp] theorem addWait_car : (addWait p s).car = s.car := rfl
@[simp] theorem addWait_mdl : (addWait p s).mdl = s.mdl := rfl
@[simp] theorem addWait_fab : (addWait p s).fab = s.fab := rfl
@[simp] theorem addWait_wei : (addWait p s).wei = s.wei := rfl
@[simp] theorem addWait_hif : (addWait p s).hif = s.hif := rfl
@[simp] theorem addWait_sec : (addWait p s).sec = s.sec := rfl
@[simp] theorem addWait_hlt : (addWait p s).hlt = s.hlt := rfl
@[simp] theorem addWait_stw : (addWait p s).stw = s.stw := rfl
@[simp] theorem addWait_sup : (addWait p s).sup = s.sup := rfl
@[simp] theorem addWait_status : (addWait p s).status = s.status := rfl
@[simp] theorem addWait_counters : (addWait p s).counters = s.counters := rfl
@[simp] theorem addWait_mem : (addWait p s).mem = s.mem := rfl
@[simp] theorem addWait_freeCtr : (addWait p s).freeCtr = s.freeCtr := rfl
@[simp] theorem addWait_pending : (addWait p s).pending = s.pending := rfl
end

section
variable (r : TailRec) (s : State)
@[simp] theorem addBatch_tmu : (addBatch r s).tmu = s.tmu := rfl
@[simp] theorem addBatch_sqs : (addBatch r s).sqs = { s.sqs with batch := s.sqs.batch ++ [r] } := rfl
@[simp] theorem addBatch_slc : (addBatch r s).slc = s.slc := rfl
@[simp] theorem addBatch_pgm : (addBatch r s).pgm = s.pgm := rfl
@[simp] theorem addBatch_tir : (addBatch r s).tir = s.tir := rfl
@[simp] theorem addBatch_cmp : (addBatch r s).cmp = s.cmp := rfl
@[simp] theorem addBatch_car : (addBatch r s).car = s.car := rfl
@[simp] theorem addBatch_mdl : (addBatch r s).mdl = s.mdl := rfl
@[simp] theorem addBatch_fab : (addBatch r s).fab = s.fab := rfl
@[simp] theorem addBatch_wei : (addBatch r s).wei = s.wei := rfl
@[simp] theorem addBatch_hif : (addBatch r s).hif = s.hif := rfl
@[simp] theorem addBatch_sec : (addBatch r s).sec = s.sec := rfl
@[simp] theorem addBatch_hlt : (addBatch r s).hlt = s.hlt := rfl
@[simp] theorem addBatch_stw : (addBatch r s).stw = s.stw := rfl
@[simp] theorem addBatch_sup : (addBatch r s).sup = s.sup := rfl
@[simp] theorem addBatch_status : (addBatch r s).status = s.status := rfl
@[simp] theorem addBatch_counters : (addBatch r s).counters = s.counters := rfl
@[simp] theorem addBatch_mem : (addBatch r s).mem = s.mem := rfl
@[simp] theorem addBatch_freeCtr : (addBatch r s).freeCtr = s.freeCtr := rfl
@[simp] theorem addBatch_pending : (addBatch r s).pending = s.pending := rfl
end

section
variable (key : Nat) (l : Load) (s : State)
@[simp] theorem setLoad_tmu : (setLoad key l s).tmu = s.tmu := rfl
@[simp] theorem setLoad_sqs : (setLoad key l s).sqs = s.sqs := rfl
@[simp] theorem setLoad_slc : (setLoad key l s).slc = s.slc := rfl
@[simp] theorem setLoad_pgm : (setLoad key l s).pgm = s.pgm := rfl
@[simp] theorem setLoad_tir : (setLoad key l s).tir = s.tir := rfl
@[simp] theorem setLoad_cmp : (setLoad key l s).cmp = s.cmp := rfl
@[simp] theorem setLoad_car : (setLoad key l s).car = s.car := rfl
@[simp] theorem setLoad_mdl : (setLoad key l s).mdl = { s.mdl with loads := Tab.put key l s.mdl.loads } := rfl
@[simp] theorem setLoad_fab : (setLoad key l s).fab = s.fab := rfl
@[simp] theorem setLoad_wei : (setLoad key l s).wei = s.wei := rfl
@[simp] theorem setLoad_hif : (setLoad key l s).hif = s.hif := rfl
@[simp] theorem setLoad_sec : (setLoad key l s).sec = s.sec := rfl
@[simp] theorem setLoad_hlt : (setLoad key l s).hlt = s.hlt := rfl
@[simp] theorem setLoad_stw : (setLoad key l s).stw = s.stw := rfl
@[simp] theorem setLoad_sup : (setLoad key l s).sup = s.sup := rfl
@[simp] theorem setLoad_status : (setLoad key l s).status = s.status := rfl
@[simp] theorem setLoad_counters : (setLoad key l s).counters = s.counters := rfl
@[simp] theorem setLoad_mem : (setLoad key l s).mem = s.mem := rfl
@[simp] theorem setLoad_freeCtr : (setLoad key l s).freeCtr = s.freeCtr := rfl
@[simp] theorem setLoad_pending : (setLoad key l s).pending = s.pending := rfl
end

section
variable (d : Nat) (w : WireKeys) (s : State)
@[simp] theorem setWire_tmu : (setWire d w s).tmu = s.tmu := rfl
@[simp] theorem setWire_sqs : (setWire d w s).sqs = s.sqs := rfl
@[simp] theorem setWire_slc : (setWire d w s).slc = s.slc := rfl
@[simp] theorem setWire_pgm : (setWire d w s).pgm = s.pgm := rfl
@[simp] theorem setWire_tir : (setWire d w s).tir = s.tir := rfl
@[simp] theorem setWire_cmp : (setWire d w s).cmp = s.cmp := rfl
@[simp] theorem setWire_car : (setWire d w s).car = s.car := rfl
@[simp] theorem setWire_mdl : (setWire d w s).mdl = s.mdl := rfl
@[simp] theorem setWire_fab : (setWire d w s).fab = s.fab := rfl
@[simp] theorem setWire_wei : (setWire d w s).wei = s.wei := rfl
@[simp] theorem setWire_hif : (setWire d w s).hif = s.hif := rfl
@[simp] theorem setWire_sec : (setWire d w s).sec = { s.sec with wire := Tab.put d w s.sec.wire } := rfl
@[simp] theorem setWire_hlt : (setWire d w s).hlt = s.hlt := rfl
@[simp] theorem setWire_stw : (setWire d w s).stw = s.stw := rfl
@[simp] theorem setWire_sup : (setWire d w s).sup = s.sup := rfl
@[simp] theorem setWire_status : (setWire d w s).status = s.status := rfl
@[simp] theorem setWire_counters : (setWire d w s).counters = s.counters := rfl
@[simp] theorem setWire_mem : (setWire d w s).mem = s.mem := rfl
@[simp] theorem setWire_freeCtr : (setWire d w s).freeCtr = s.freeCtr := rfl
@[simp] theorem setWire_pending : (setWire d w s).pending = s.pending := rfl
end

section
variable (block base : Nat) (bs : List Byte) (s : State)
@[simp] theorem setLatch_tmu : (setLatch block base bs s).tmu = s.tmu := rfl
@[simp] theorem setLatch_sqs : (setLatch block base bs s).sqs = s.sqs := rfl
@[simp] theorem setLatch_slc : (setLatch block base bs s).slc = s.slc := rfl
@[simp] theorem setLatch_pgm : (setLatch block base bs s).pgm = s.pgm := rfl
@[simp] theorem setLatch_tir : (setLatch block base bs s).tir = s.tir := rfl
@[simp] theorem setLatch_cmp : (setLatch block base bs s).cmp = s.cmp := rfl
@[simp] theorem setLatch_car : (setLatch block base bs s).car = s.car := rfl
@[simp] theorem setLatch_mdl : (setLatch block base bs s).mdl = s.mdl := rfl
@[simp] theorem setLatch_fab : (setLatch block base bs s).fab = s.fab := rfl
@[simp] theorem setLatch_wei : (setLatch block base bs s).wei = s.wei := rfl
@[simp] theorem setLatch_hif : (setLatch block base bs s).hif = { s.hif with latch := Tab.put (regAddr block base) bs s.hif.latch } := rfl
@[simp] theorem setLatch_sec : (setLatch block base bs s).sec = s.sec := rfl
@[simp] theorem setLatch_hlt : (setLatch block base bs s).hlt = s.hlt := rfl
@[simp] theorem setLatch_stw : (setLatch block base bs s).stw = s.stw := rfl
@[simp] theorem setLatch_sup : (setLatch block base bs s).sup = s.sup := rfl
@[simp] theorem setLatch_status : (setLatch block base bs s).status = s.status := rfl
@[simp] theorem setLatch_counters : (setLatch block base bs s).counters = s.counters := rfl
@[simp] theorem setLatch_mem : (setLatch block base bs s).mem = s.mem := rfl
@[simp] theorem setLatch_freeCtr : (setLatch block base bs s).freeCtr = s.freeCtr := rfl
@[simp] theorem setLatch_pending : (setLatch block base bs s).pending = s.pending := rfl
end

section
variable (v : Nat) (s : State)
@[simp] theorem setVolts_tmu : (setVolts v s).tmu = s.tmu := rfl
@[simp] theorem setVolts_sqs : (setVolts v s).sqs = s.sqs := rfl
@[simp] theorem setVolts_slc : (setVolts v s).slc = s.slc := rfl
@[simp] theorem setVolts_pgm : (setVolts v s).pgm = s.pgm := rfl
@[simp] theorem setVolts_tir : (setVolts v s).tir = s.tir := rfl
@[simp] theorem setVolts_cmp : (setVolts v s).cmp = s.cmp := rfl
@[simp] theorem setVolts_car : (setVolts v s).car = s.car := rfl
@[simp] theorem setVolts_mdl : (setVolts v s).mdl = s.mdl := rfl
@[simp] theorem setVolts_fab : (setVolts v s).fab = s.fab := rfl
@[simp] theorem setVolts_wei : (setVolts v s).wei = s.wei := rfl
@[simp] theorem setVolts_hif : (setVolts v s).hif = s.hif := rfl
@[simp] theorem setVolts_sec : (setVolts v s).sec = s.sec := rfl
@[simp] theorem setVolts_hlt : (setVolts v s).hlt = s.hlt := rfl
@[simp] theorem setVolts_stw : (setVolts v s).stw = s.stw := rfl
@[simp] theorem setVolts_sup : (setVolts v s).sup = { s.sup with volts := v, lowest := min s.sup.lowest v } := rfl
@[simp] theorem setVolts_status : (setVolts v s).status = s.status := rfl
@[simp] theorem setVolts_counters : (setVolts v s).counters = s.counters := rfl
@[simp] theorem setVolts_mem : (setVolts v s).mem = s.mem := rfl
@[simp] theorem setVolts_freeCtr : (setVolts v s).freeCtr = s.freeCtr := rfl
@[simp] theorem setVolts_pending : (setVolts v s).pending = s.pending := rfl
end

end Sys2Proof.Machine
end

