-- ==== Sys2Proof/Laws/Memory.lean ====
section
/-! SUPPORT. Memory: the canonical form and that every operation keeps it, reading what was written, and that a write
leaves every other byte alone. -/

namespace Sys2Proof.Machine

/-- The canonical form in two clauses: addresses strictly rise, and no entry holds what an unlisted address reads as. -/
theorem wf_iff (m : List Host.Cell) :
    Memory.wf m = true ↔ m.Pairwise (fun a b => a.1 < b.1) ∧ ∀ c ∈ m, c.2 ≠ memDefault := by
  induction m with
  | nil => simp [Memory.wf]
  | cons x t ih =>
    obtain ⟨i, b⟩ := x
    cases t with
    | nil => simp [Memory.wf]
    | cons y u =>
      obtain ⟨j, c⟩ := y
      simp only [Memory.wf, Bool.and_eq_true, bne_iff_ne, ne_eq, decide_eq_true_eq, ih]
      constructor
      · rintro ⟨⟨hb, hij⟩, hp, hd⟩
        refine ⟨List.pairwise_cons.2 ⟨?_, hp⟩, ?_⟩
        · intro d hd'
          rcases List.mem_cons.1 hd' with rfl | h
          · exact hij
          · exact lt_trans hij ((List.pairwise_cons.1 hp).1 d h)
        · intro d hd'
          rcases List.mem_cons.1 hd' with rfl | h
          · exact hb
          · exact hd d h
      · rintro ⟨hp, hd⟩
        obtain ⟨h1, h2⟩ := List.pairwise_cons.1 hp
        exact ⟨⟨hd (i, b) (List.mem_cons_self ..), h1 (j, c) (List.mem_cons_self ..)⟩, h2,
          fun d h => hd d (List.mem_cons_of_mem _ h)⟩

/-- A part of a memory in its form keeps it. -/
theorem wf_filter (p : Host.Cell → Bool) (m : List Host.Cell) (h : Memory.wf m = true) : Memory.wf (m.filter p) = true := by
  rw [wf_iff] at h ⊢
  exact ⟨h.1.filter p, fun c hc => h.2 c (List.mem_filter.1 hc).1⟩

/-- Addresses after a put are the one put and those before. -/
theorem mem_memPut (a : Nat) (b : Byte) (m : List Host.Cell) (c : Host.Cell) (h : c ∈ memPut a b m) :
    (c = (a, b) ∧ b ≠ memDefault) ∨ c ∈ m := by
  induction m with
  | nil =>
    by_cases hb : b = memDefault
    · simp [memPut, hb] at h
    · simp [memPut, hb] at h
      exact .inl ⟨h, hb⟩
  | cons x t ih =>
    obtain ⟨i, d⟩ := x
    by_cases hb : b = memDefault
    · by_cases h1 : a < i
      · simp [memPut, hb, h1] at h
        right; simpa using h
      · by_cases h2 : a = i
        · subst h2
          simp [memPut, hb] at h
          right; simp [h]
        · simp [memPut, h1, h2] at h
          rcases h with h | h
          · right; simp [h]
          · rcases ih h with h | h
            · exact .inl h
            · right; simp [h]
    · by_cases h1 : a < i
      · simp [memPut, hb, h1] at h
        rcases h with h | h
        · exact .inl ⟨h, hb⟩
        · right; simpa using h
      · by_cases h2 : a = i
        · subst h2
          simp [memPut, hb] at h
          rcases h with h | h
          · exact .inl ⟨h, hb⟩
          · right; simp [h]
        · simp [memPut, h1, h2] at h
          rcases h with h | h
          · right; simp [h]
          · rcases ih h with h | h
            · exact .inl h
            · right; simp [h]

/-- One byte put keeps the form. -/
theorem wf_memPut (a : Nat) (b : Byte) (m : List Host.Cell) (h : Memory.wf m = true) : Memory.wf (memPut a b m) = true := by
  rw [wf_iff] at h ⊢
  refine ⟨?_, fun c hc => ?_⟩
  · induction m with
    | nil => by_cases hb : b = memDefault <;> simp [memPut, hb]
    | cons x t ih =>
      obtain ⟨i, d⟩ := x
      obtain ⟨hp, hd⟩ := h
      obtain ⟨h1, h2⟩ := List.pairwise_cons.1 hp
      have rest := ih ⟨h2, fun c hc => hd c (List.mem_cons_of_mem _ hc)⟩
      by_cases e1 : a < i
      · by_cases hb : b = memDefault
        · simpa [memPut, e1, hb] using hp
        · simp only [memPut, e1, hb, if_true, if_false]
          refine List.pairwise_cons.2 ⟨fun c hc => ?_, hp⟩
          rcases List.mem_cons.1 hc with rfl | hc
          · exact e1
          · exact lt_trans e1 (h1 c hc)
      · by_cases e2 : a = i
        · subst e2
          by_cases hb : b = memDefault
          · simpa [memPut, hb] using h2
          · simp only [memPut, lt_irrefl, hb, if_true, if_false]
            exact List.pairwise_cons.2 ⟨h1, h2⟩
        · simp only [memPut, e1, e2, if_false]
          refine List.pairwise_cons.2 ⟨fun c hc => ?_, rest⟩
          rcases mem_memPut a b t c hc with ⟨rfl, -⟩ | hc
          · show i < a; omega
          · exact h1 c hc
  · rcases mem_memPut a b m c hc with ⟨rfl, hb⟩ | hc
    · exact hb
    · exact h.2 c hc

/-- Several bytes put keep the form. -/
theorem wf_foldl_memPut (l : List Host.Cell) (m : List Host.Cell) (h : Memory.wf m = true) :
    Memory.wf (l.foldl (fun m c => memPut c.1 c.2 m) m) = true := by
  induction l generalizing m with
  | nil => exact h
  | cons c t ih => exact ih _ (wf_memPut _ _ _ h)

/-- Numbered bytes from an address up: addresses rise and lie in the run. -/
theorem zip_run (a : Nat) (bs : List Byte) :
    ((List.range' a bs.length).zip bs).Pairwise (fun x y => x.1 < y.1) ∧
      ∀ c ∈ (List.range' a bs.length).zip bs, a ≤ c.1 ∧ c.1 < a + bs.length := by
  induction bs generalizing a with
  | nil => simp
  | cons b t ih =>
    obtain ⟨hp, hr⟩ := ih (a + 1)
    simp only [List.length_cons, List.range'_succ, List.zip_cons_cons]
    refine ⟨List.pairwise_cons.2 ⟨fun c hc => ?_, hp⟩, fun c hc => ?_⟩
    · have := (hr c hc).1
      show a < c.1; omega
    · rcases List.mem_cons.1 hc with rfl | hc
      · constructor <;> simp
      · have := hr c hc
        omega

/-- A run of bytes written keeps the form. -/
theorem wf_memWrite (a : Nat) (bs : List Byte) (m : List Host.Cell) (h : Memory.wf m = true) :
    Memory.wf (memWrite a bs m) = true := by
  rw [wf_iff] at h ⊢
  obtain ⟨hp, hd⟩ := h
  obtain ⟨zp, zr⟩ := zip_run a bs
  unfold memWrite
  refine ⟨?_, ?_⟩
  · rw [List.append_assoc]
    refine List.pairwise_append.2 ⟨hp.filter _, List.pairwise_append.2 ⟨zp.filter _, hp.filter _, ?_⟩, ?_⟩
    · intro x hx y hy
      have h1 := zr x (List.mem_filter.1 hx).1
      have h2 := (List.mem_filter.1 hy).2
      simp only [decide_eq_true_eq] at h2
      omega
    · intro x hx y hy
      have h1 := (List.mem_filter.1 hx).2
      simp only [decide_eq_true_eq] at h1
      rcases List.mem_append.1 hy with hy | hy
      · have h2 := zr y (List.mem_filter.1 hy).1
        omega
      · have h2 := (List.mem_filter.1 hy).2
        simp only [decide_eq_true_eq] at h2
        omega
  · intro c hc
    rcases List.mem_append.1 hc with hc | hc
    · rcases List.mem_append.1 hc with hc | hc
      · exact hd c (List.mem_filter.1 hc).1
      · have := (List.mem_filter.1 hc).2
        simpa using this
    · exact hd c (List.mem_filter.1 hc).1

/-! ## Reading -/

/-- Entries all at other addresses do not serve a read. -/
theorem memRead_none (a : Nat) (m : List Host.Cell) (h : ∀ c ∈ m, c.1 ≠ a) : memRead a m = memDefault := by
  induction m with
  | nil => rfl
  | cons c t ih =>
    have h1 := h c (List.mem_cons_self ..)
    simp only [memRead, h1, if_false]
    exact ih (fun d hd => h d (List.mem_cons_of_mem _ hd))

/-- A read of two parts in a row: the first part serves it unless it has no entry there. -/
theorem memRead_append (a : Nat) (m n : List Host.Cell) :
    memRead a (m ++ n) = if m.any (fun c => c.1 == a) then memRead a m else memRead a n := by
  induction m with
  | nil => simp
  | cons c t ih =>
    by_cases h : c.1 = a
    · simp [memRead, h]
    · simp [memRead, h, ih]

/-- A part that keeps all entries at an address serves a read as the whole does. -/
theorem memRead_filter (a : Nat) (p : Host.Cell → Bool) (m : List Host.Cell) (h : ∀ c ∈ m, c.1 = a → p c = true) :
    memRead a (m.filter p) = memRead a m := by
  induction m with
  | nil => rfl
  | cons c t ih =>
    have ih := ih (fun d hd => h d (List.mem_cons_of_mem _ hd))
    by_cases hp : p c = true
    · rw [List.filter_cons_of_pos hp]
      by_cases e : c.1 = a <;> simp [memRead, e, ih]
    · have e : c.1 ≠ a := fun e => hp (h c (List.mem_cons_self ..) e)
      rw [List.filter_cons_of_neg hp]
      simp [memRead, e, ih]

/-- A put byte reads back. -/
theorem memRead_memPut_same (a : Nat) (b : Byte) (m : List Host.Cell) (h : Memory.wf m = true) :
    memRead a (memPut a b m) = b := by
  rw [wf_iff] at h
  induction m with
  | nil => by_cases hb : b = memDefault <;> simp [memPut, memRead, hb]
  | cons x t ih =>
    obtain ⟨i, d⟩ := x
    obtain ⟨hp, hd⟩ := h
    obtain ⟨h1, h2⟩ := List.pairwise_cons.1 hp
    have rest := ih ⟨h2, fun c hc => hd c (List.mem_cons_of_mem _ hc)⟩
    by_cases e1 : a < i
    · by_cases hb : b = memDefault
      · simp only [memPut, e1, hb, if_true]
        refine memRead_none a _ (fun c hc => ?_)
        rcases List.mem_cons.1 hc with rfl | hc
        · show i ≠ a; omega
        · have := h1 c hc
          show c.1 ≠ a
          have : i < c.1 := this
          omega
      · simp [memPut, e1, hb, memRead]
    · by_cases e2 : a = i
      · subst e2
        by_cases hb : b = memDefault
        · simp only [memPut, lt_irrefl, hb, if_true, if_false]
          refine memRead_none a _ (fun c hc => ?_)
          have : a < c.1 := h1 c hc
          omega
        · simp [memPut, hb, memRead]
      · have e3 : i ≠ a := fun h => e2 h.symm
        simp [memPut, e1, e2, memRead, e3, rest]

/-- A put leaves every other byte alone. -/
theorem memRead_memPut_other (a a' : Nat) (b : Byte) (m : List Host.Cell) (h : a' ≠ a) :
    memRead a' (memPut a b m) = memRead a' m := by
  have h' : a ≠ a' := fun e => h e.symm
  induction m with
  | nil => by_cases hb : b = memDefault <;> simp [memPut, memRead, hb, h']
  | cons x t ih =>
    obtain ⟨i, d⟩ := x
    by_cases e1 : a < i
    · by_cases hb : b = memDefault <;> simp [memPut, memRead, e1, hb, h']
    · by_cases e2 : a = i
      · subst e2
        by_cases hb : b = memDefault <;> simp [memPut, memRead, hb, h']
      · simp [memPut, e1, e2, memRead, ih]

/-- A run written leaves every byte outside it alone. -/
theorem memRead_memWrite_other (a a' : Nat) (bs : List Byte) (m : List Host.Cell) (h : a' < a ∨ a + bs.length ≤ a') :
    memRead a' (memWrite a bs m) = memRead a' m := by
  have zr := (zip_run a bs).2
  unfold memWrite
  rw [List.append_assoc, memRead_append]
  by_cases low : a' < a
  · by_cases e : (m.filter (fun c => decide (c.1 < a))).any (fun c => c.1 == a') = true
    · rw [if_pos e]
      refine memRead_filter a' _ m (fun c _ hc => ?_)
      simp only [decide_eq_true_eq]; omega
    · rw [if_neg e, memRead_none a' m, memRead_none]
      · intro c hc
        rcases List.mem_append.1 hc with hc | hc
        · have := zr c (List.mem_filter.1 hc).1
          omega
        · have := (List.mem_filter.1 hc).2
          simp only [decide_eq_true_eq] at this
          omega
      · intro c hc hca
        refine e (List.any_eq_true.2 ⟨c, List.mem_filter.2 ⟨hc, ?_⟩, ?_⟩)
        · simp only [decide_eq_true_eq]; omega
        · simpa using hca
  · have hi : a + bs.length ≤ a' := h.resolve_left low
    have e : ¬ (m.filter (fun c => decide (c.1 < a))).any (fun c => c.1 == a') = true := by
      intro e
      obtain ⟨c, hc, hca⟩ := List.any_eq_true.1 e
      have := (List.mem_filter.1 hc).2
      simp only [decide_eq_true_eq, beq_iff_eq] at this hca
      omega
    rw [if_neg e, memRead_append]
    have e2 : ¬ (((List.range' a bs.length).zip bs).filter (fun c => decide (c.2 ≠ memDefault))).any (fun c => c.1 == a') = true := by
      intro e
      obtain ⟨c, hc, hca⟩ := List.any_eq_true.1 e
      have := zr c (List.mem_filter.1 hc).1
      simp only [beq_iff_eq] at hca
      omega
    rw [if_neg e2]
    refine memRead_filter a' _ m (fun c _ hc => ?_)
    simp only [decide_eq_true_eq]; omega

/-- A byte of a run written reads back. -/
theorem memRead_memWrite_same (a i : Nat) (bs : List Byte) (m : List Host.Cell) (h : i < bs.length) :
    memRead (a + i) (memWrite a bs m) = bs[i] := by
  have core : ∀ (bs : List Byte) (a i : Nat) (h : i < bs.length) (n : List Host.Cell), (∀ c ∈ n, c.1 ≠ a + i) →
      memRead (a + i) (((List.range' a bs.length).zip bs).filter (fun c => decide (c.2 ≠ memDefault)) ++ n) = bs[i] := by
    intro bs
    induction bs with
    | nil => intro a i h; simp at h
    | cons b t ih =>
      intro a i h n hn
      simp only [List.length_cons, List.range'_succ, List.zip_cons_cons]
      cases i with
      | zero =>
        by_cases hb : b = memDefault
        · rw [List.filter_cons_of_neg (by simp [hb])]
          simp only [List.getElem_cons_zero, hb]
          refine memRead_none _ _ (fun c hc => ?_)
          rcases List.mem_append.1 hc with hc | hc
          · have := (zip_run (a + 1) t).2 c (List.mem_filter.1 hc).1
            omega
          · exact hn c hc
        · rw [List.filter_cons_of_pos (by simp [hb])]
          simp [memRead]
      | succ k =>
        have hk : k < t.length := by simpa using h
        have r := ih (a + 1) k hk n (fun c hc => by have := hn c hc; omega)
        have e : a + 1 + k = a + (k + 1) := by omega
        rw [e] at r
        by_cases hb : b = memDefault
        · rw [List.filter_cons_of_neg (by simp [hb])]
          simpa using r
        · rw [List.filter_cons_of_pos (by simp [hb])]
          simp only [List.cons_append, memRead, List.getElem_cons_succ]
          rw [if_neg (by omega)]
          exact r
  unfold memWrite
  rw [List.append_assoc, memRead_append]
  have e : ¬ (m.filter (fun c => decide (c.1 < a))).any (fun c => c.1 == a + i) = true := by
    intro e
    obtain ⟨c, hc, hca⟩ := List.any_eq_true.1 e
    have := (List.mem_filter.1 hc).2
    simp only [decide_eq_true_eq, beq_iff_eq] at this hca
    omega
  rw [if_neg e]
  refine core bs a i h _ (fun c hc => ?_)
  have := (List.mem_filter.1 hc).2
  simp only [decide_eq_true_eq] at this
  omega

/-! ## On the state -/

/-- Placed bytes keep the form. -/
theorem wf_place (p : Placed) (s : State) (h : Memory.wf s.mem = true) : Memory.wf (place p s).mem = true := by
  unfold place
  split
  · exact wf_foldl_memPut _ _ h
  · exact h

end Sys2Proof.Machine
end

