-- ==== Sys2Proof/Laws/Kept.lean ====
section
/-! SUPPORT. What every command keeps (Safety.Kept): it is reflexive and transitive, record updates that leave the clauses'
fields alone keep it, and so does a fold of steps that keep it. -/

namespace Sys2Proof.Safety

open Sys2Proof.Machine

/-- The fields of SEC that the clauses name. -/
def secCore (x : Sec) : List Byte × Bool × Nat × Nat × List (List Byte) :=
  (x.identity, x.testMode, x.revoked, x.fusedSvn, x.log)

theorem Kept.refl (s : State) : Kept s s :=
  ⟨rfl, rfl, rfl, rfl, le_refl _, le_refl _, id, id, id, id, id⟩

theorem Kept.trans {a b c : State} (h : Kept a b) (k : Kept b c) : Kept a c :=
  ⟨k.pending.trans h.pending, k.identity.trans h.identity, k.testMode.trans h.testMode, k.revoked.trans h.revoked,
    h.fused.trans k.fused, h.free.trans k.free, fun x => k.mem (h.mem x), fun x => k.counters (h.counters x),
    fun x => k.log (h.log x), fun x => k.powerLog (h.powerLog x), fun x => k.restarts (h.restarts x)⟩

/-- The clauses at a state whose relevant fields are those of `s`. -/
theorem Kept.of_eq {s0 s t : State} (h : Kept s0 s) (hp : t.pending = s.pending) (hm : t.mem = s.mem)
    (hc : t.counters = s.counters) (hf : s.freeCtr ≤ t.freeCtr) (hs : secCore t.sec = secCore s.sec)
    (hl : t.sup.log = s.sup.log) (hr : t.stw.restarts = s.stw.restarts) : Kept s0 t := by
  simp only [secCore, Prod.mk.injEq] at hs
  obtain ⟨h1, h2, h3, h4, h5⟩ := hs
  refine h.trans ⟨hp, h1, h2, h3, le_of_eq h4.symm, hf, ?_, ?_, ?_, ?_, ?_⟩
  · rw [hm]; exact id
  · unfold countersBounded; rw [hc]; exact id
  · rw [h5]; exact id
  · rw [hl]; exact id
  · rw [hr]; exact id

/-- A record update that leaves memory, counters, free values and the queue alone. -/
theorem Kept.put {s0 s : State} {tmu sqs slc pgm tir cmp car mdl fab wei hif sec hlt stw sup status} (h : Kept s0 s)
    (hs : secCore sec = secCore s.sec) (hl : sup.log = s.sup.log) (hr : stw.restarts = s.stw.restarts) :
    Kept s0 ⟨tmu, sqs, slc, pgm, tir, cmp, car, mdl, fab, wei, hif, sec, hlt, stw, sup, status, s.counters, s.mem, s.freeCtr,
      s.pending⟩ :=
  h.of_eq rfl rfl rfl (le_refl _) hs hl hr

/-- A record update that draws `n` free values. -/
theorem Kept.draw {s0 s : State} {tmu sqs slc pgm tir cmp car mdl fab wei hif sec hlt stw sup status} {n : Nat} (h : Kept s0 s)
    (hs : secCore sec = secCore s.sec) (hl : sup.log = s.sup.log) (hr : stw.restarts = s.stw.restarts) :
    Kept s0 ⟨tmu, sqs, slc, pgm, tir, cmp, car, mdl, fab, wei, hif, sec, hlt, stw, sup, status, s.counters, s.mem,
      s.freeCtr + n, s.pending⟩ :=
  h.of_eq rfl rfl rfl (Nat.le_add_right _ _) hs hl hr

/-- A change of memory that keeps its form. -/
theorem Kept.withMem {s0 s : State} {m : List Host.Cell} (h : Kept s0 s)
    (hm : Memory.wf s.mem = true → Memory.wf m = true) : Kept s0 { s with mem := m } :=
  h.trans ⟨rfl, rfl, rfl, rfl, le_refl _, le_refl _, hm, id, id, id, id⟩

/-- A change of the S-kind counters that keeps their bound. -/
theorem Kept.withCounters {s0 s : State} {c : Tab Nat} (h : Kept s0 s)
    (hc : countersBounded s → ∀ e ∈ c, e.2 ≤ 0x100000000) : Kept s0 { s with counters := c } :=
  h.trans ⟨rfl, rfl, rfl, rfl, le_refl _, le_refl _, id, hc, id, id, id⟩

/-- Entries after a put are the one put and those before. -/
theorem mem_put {α : Type} {k : Nat} {a : α} {t : Tab α} {e : Nat × α} (h : e ∈ Tab.put k a t) : e = (k, a) ∨ e ∈ t := by
  induction t with
  | nil => simpa [Tab.put] using h
  | cons x t ih =>
    obtain ⟨i, b⟩ := x
    unfold Tab.put at h
    split at h
    · rcases List.mem_cons.1 h with h | h
      · exact .inl h
      · exact .inr h
    · split at h
      · rcases List.mem_cons.1 h with h | h
        · exact .inl h
        · exact .inr (List.mem_cons_of_mem _ h)
      · rcases List.mem_cons.1 h with h | h
        · exact .inr (h ▸ List.mem_cons_self ..)
        · exact (ih h).imp id (List.mem_cons_of_mem _)

/-- A fold of steps that keep. -/
theorem Kept.foldl {α : Type} {f : State → α → State} {s0 s : State} {l : List α}
    (hf : ∀ s a, Kept s0 s → Kept s0 (f s a)) (h : Kept s0 s) : Kept s0 (l.foldl f s) := by
  induction l generalizing s with
  | nil => exact h
  | cons a t ih => exact ih (hf s a h)

/-- A fold that carries the state beside another value. -/
theorem Kept.foldl_fst {α β : Type} {f : State × β → α → State × β} {s0 : State} {p : State × β} {l : List α}
    (hf : ∀ p a, Kept s0 p.1 → Kept s0 (f p a).1) (h : Kept s0 p.1) : Kept s0 (l.foldl f p).1 := by
  induction l generalizing p with
  | nil => exact h
  | cons a t ih => exact ih (hf p a h)

/-- A fold that carries the state beside another value, in second place. -/
theorem Kept.foldl_snd {α β : Type} {f : β × State → α → β × State} {s0 : State} {p : β × State} {l : List α}
    (hf : ∀ p a, Kept s0 p.2 → Kept s0 (f p a).2) (h : Kept s0 p.2) : Kept s0 (l.foldl f p).2 := by
  induction l generalizing p with
  | nil => exact h
  | cons a t ih => exact ih (hf p a h)

/-- The state of a pair taken apart. -/
theorem Kept.of_snd {α : Type} {s0 s : State} {p : α × State} {a : α} (e : p = (a, s)) (h : Kept s0 p.2) : Kept s0 s := by
  subst e; exact h

theorem Kept.of_snd2 {α β : Type} {s0 s : State} {p : α × β × State} {a : α} {b : β} (e : p = (a, b, s)) (h : Kept s0 p.2.2) :
    Kept s0 s := by
  subst e; exact h

theorem Kept.of_fst {α : Type} {s0 s : State} {p : State × α} {a : α} (e : p = (s, a)) (h : Kept s0 p.1) : Kept s0 s := by
  subst e; exact h

end Sys2Proof.Safety
end

