-- ==== Sys2Proof/Laws/Grows.lean ====
section
/-! SUPPORT. Safety.Grows: it is reflexive and transitive, record updates that leave status words, counters and the charter
alone keep it, raising an event and counting keep it, and so does a fold of steps that keep it. -/

namespace Sys2Proof.Safety

open Sys2Proof.Machine

theorem Grows.refl (s : State) : Grows s s := ⟨rfl, fun _ h => h, fun _ => le_refl _⟩

theorem Grows.trans {a b c : State} (h : Grows a b) (k : Grows b c) : Grows a c :=
  ⟨k.charter.trans h.charter, fun e x => k.bits e (h.bits e x), fun i => (h.counters i).trans (k.counters i)⟩

/-- A state whose status words, counters and charter are those of `s`. -/
theorem Grows.of_eq {s0 s t : State} (h : Grows s0 s) (hs : t.status = s.status) (hc : t.counters = s.counters)
    (hr : t.stw.charter = s.stw.charter) : Grows s0 t := by
  have hb : ∀ e, eventBit t e = eventBit s e := fun e => by unfold eventBit sqBits seqMode statusWord; rw [hs, hr]
  refine h.trans ⟨hr, fun e x => (hb e).trans x, fun i => le_of_eq ?_⟩
  · simp only [counter, counterRaw, hc]

/-- A record update that leaves status words and counters alone. -/
theorem Grows.put {s0 s : State} {tmu sqs slc pgm tir cmp car mdl fab wei hif sec hlt stw sup mem free pending}
    (h : Grows s0 s) (hr : stw.charter = s.stw.charter) :
    Grows s0 ⟨tmu, sqs, slc, pgm, tir, cmp, car, mdl, fab, wei, hif, sec, hlt, stw, sup, s.status, s.counters, mem, free,
      pending⟩ :=
  h.of_eq rfl rfl hr

/-- A fold of steps that grow. -/
theorem Grows.foldl {α : Type} {f : State → α → State} {s0 s : State} {l : List α}
    (hf : ∀ s a, Grows s0 s → Grows s0 (f s a)) (h : Grows s0 s) : Grows s0 (l.foldl f s) := by
  induction l generalizing s with
  | nil => exact h
  | cons a t ih => exact ih (hf s a h)

theorem Grows.foldl_fst {α β : Type} {f : State × β → α → State × β} {s0 : State} {p : State × β} {l : List α}
    (hf : ∀ p a, Grows s0 p.1 → Grows s0 (f p a).1) (h : Grows s0 p.1) : Grows s0 (l.foldl f p).1 := by
  induction l generalizing p with
  | nil => exact h
  | cons a t ih => exact ih (hf p a h)

theorem Grows.foldl_snd {α β : Type} {f : β × State → α → β × State} {s0 : State} {p : β × State} {l : List α}
    (hf : ∀ p a, Grows s0 p.2 → Grows s0 (f p a).2) (h : Grows s0 p.2) : Grows s0 (l.foldl f p).2 := by
  induction l generalizing p with
  | nil => exact h
  | cons a t ih => exact ih (hf p a h)

theorem Grows.of_snd {α : Type} {s0 s : State} {p : α × State} {a : α} (e : p = (a, s)) (h : Grows s0 p.2) : Grows s0 s := by
  subst e; exact h

theorem Grows.of_snd2 {α β : Type} {s0 s : State} {p : α × β × State} {a : α} {b : β} (e : p = (a, b, s))
    (h : Grows s0 p.2.2) : Grows s0 s := by
  subst e; exact h

theorem Grows.of_fst {α : Type} {s0 s : State} {p : State × α} {a : α} (e : p = (s, a)) (h : Grows s0 p.1) : Grows s0 s := by
  subst e; exact h

end Sys2Proof.Safety

namespace Sys2Proof.Machine

open Sys2Proof.Safety

theorem raise_grows {s0 s : State} (e) (h : Grows s0 s) : Grows s0 (raise e s) :=
  h.trans ⟨by simp, fun _ x => eventBit_raise_of x, fun i => le_of_eq (by simp [counter, counterRaw])⟩

theorem counterEvent_grows {s0 s : State} (sat block offset) (h : Grows s0 s) : Grows s0 (counterEvent sat block offset s) := by
  unfold counterEvent
  dsimp only
  split
  · exact h.of_eq rfl rfl rfl
  · exact raise_grows _ (h.of_eq rfl rfl rfl)

theorem bump_grows {s0 s : State} (a n) (h : Grows s0 s) : Grows s0 (bump a n s) := by
  refine h.trans ⟨by simp, fun _ x => eventBit_bump_of x, fun i => ?_⟩
  by_cases hi : i = a
  · subst hi
    rw [counter_bump_same]
    have : counter s i ≤ sMax := Nat.min_le_right _ _
    omega
  · rw [counter_bump_other hi]

end Sys2Proof.Machine
end

