-- ==== Sys2Proof/Laws/GrowsOps.lean ====
section
/-! SUPPORT. Each operation lets grow what Safety.Grows names: flags, operands, memory, windows and frames.
`f_grows`: if `s` has grown from `s0`, so has what `f` makes of `s`. -/

namespace Sys2Proof.Machine

open Sys2Proof.Safety

theorem msix_grows {s0 s : State} (v) (h : Grows s0 s) : Grows s0 (msix v s) := by
  unfold msix
  try dsimp only
  exact Grows.put (by assumption) rfl

theorem raiseIf_grows {s0 s : State} (b) (e_) (h : Grows s0 s) : Grows s0 (raiseIf b e_ s) := by
  unfold raiseIf
  try dsimp only
  split
  · exact raise_grows _ (by assumption)
  · assumption

theorem raiseTimes_grows {s0 s : State} (e_) (x1) (h : Grows s0 s) : Grows s0 (raiseTimes e_ x1 s) := by
  induction x1 generalizing s with
  | zero => exact h
  | succ n ih => exact ih (raise_grows _ h)

theorem sEvent_grows {s0 s : State} (old) (new) (block) (offset)
    (h : Grows s0 s) : Grows s0 (sEvent old new block offset s) := by
  unfold sEvent
  try dsimp only
  split
  · exact counterEvent_grows _ _ _ (by assumption)
  · assumption

theorem wEvent_grows {s0 s : State} (old) (new) (block) (offset)
    (h : Grows s0 s) : Grows s0 (wEvent old new block offset s) := by
  unfold wEvent
  try dsimp only
  split
  · exact counterEvent_grows _ _ _ (by assumption)
  · assumption

theorem setRing_grows {s0 s : State} (r) (g) (h : Grows s0 s) : Grows s0 (setRing r g s) := by
  unfold setRing
  try dsimp only
  exact Grows.put (by assumption) rfl

theorem writeMem_grows {s0 s : State} (a bs) (h : Grows s0 s) : Grows s0 (writeMem a bs s) := h.of_eq rfl rfl rfl

theorem postEntry_grows {s0 s : State} (r) (mk) (h : Grows s0 s) : Grows s0 (postEntry r mk s) := by
  unfold postEntry
  try dsimp only
  exact msix_grows _ (setRing_grows _ _ (writeMem_grows _ _ (by assumption)))

theorem complete_grows {s0 s : State} (t) (status) (cause) (reason) (r0) (r1)
    (h : Grows s0 s) : Grows s0 (complete t status cause reason r0 r1 s) := by
  unfold complete
  try dsimp only
  split
  · assumption
  · split
    · exact setRing_grows _ _ (by assumption)
    · exact postEntry_grows _ _ (setRing_grows _ _ (by assumption))

theorem abandoned_grows {s0 s : State} (t) (h : Grows s0 s) : Grows s0 (abandoned t s) := by
  unfold abandoned
  try dsimp only
  exact complete_grows _ _ _ _ _ _ (by assumption)

theorem setAcct_grows {s0 s : State} (d) (a) (h : Grows s0 s) : Grows s0 (setAcct d a s) := by
  unfold setAcct
  try dsimp only
  exact Grows.put (by assumption) rfl

theorem charge_grows {s0 s : State} (d) (k) (n) (h : Grows s0 s) : Grows s0 (charge d k n s) := by
  unfold charge
  try dsimp only
  exact wEvent_grows _ _ _ _ (wEvent_grows _ _ _ _ (setAcct_grows _ _ (by assumption)))

theorem chargeTier_grows {s0 s : State} (x) (d) (n) (h : Grows s0 s) : Grows s0 (chargeTier x d n s) := by
  unfold chargeTier
  split
  · exact charge_grows _ _ _ (by assumption)
  · exact charge_grows _ _ _ (by assumption)
  · assumption

theorem chargeSplit_grows {s0 s : State} (k) (x) (dikes) (h : Grows s0 s) : Grows s0 (chargeSplit k x dikes s) := by
  unfold chargeSplit
  try dsimp only
  refine charge_grows _ _ _ ?_
  refine Grows.foldl (fun _ _ _ => ?_) ?_
  · exact charge_grows _ _ _ (by assumption)
  · assumption

theorem done_grows {s0 s : State} (t) (h : Grows s0 s) : Grows s0 (done t s) := by
  unfold done
  try dsimp only
  exact complete_grows _ _ _ _ _ _ (by assumption)

theorem doneWith_grows {s0 s : State} (t) (r0) (r1) (h : Grows s0 s) : Grows s0 (doneWith t r0 r1 s) := by
  unfold doneWith
  try dsimp only
  exact complete_grows _ _ _ _ _ _ (by assumption)

theorem rotate_grows {s0 s : State} (die) (h : Grows s0 s) : Grows s0 (rotate die s).2.2 := by
  unfold rotate
  try dsimp only
  exact Grows.put (by assumption) rfl

theorem setQueue_grows {s0 s : State} (q) (w) (h : Grows s0 s) : Grows s0 (setQueue q w s) := by
  unfold setQueue
  try dsimp only
  exact Grows.put (by assumption) rfl

theorem setActive_grows {s0 s : State} (p) (l) (h : Grows s0 s) : Grows s0 (setActive p l s) := by
  unfold setActive
  try dsimp only
  exact Grows.put (by assumption) rfl

theorem joinActive_grows {s0 s : State} (q) (p) (h : Grows s0 s) : Grows s0 (joinActive q p s) := by
  unfold joinActive
  try dsimp only
  split
  · assumption
  · exact setActive_grows _ _ (setQueue_grows _ _ (by assumption))

theorem joinAll_grows {s0 s : State} (q) (h : Grows s0 s) : Grows s0 (joinAll q s) := by
  unfold joinAll
  try dsimp only
  refine Grows.foldl (fun _ _ _ => ?_) ?_
  · exact joinActive_grows _ _ (by assumption)
  · assumption

theorem leaveAll_grows {s0 s : State} (q) (h : Grows s0 s) : Grows s0 (leaveAll q s) := by
  unfold leaveAll
  try dsimp only
  refine Grows.foldl (fun _ _ _ => ?_) ?_
  · exact setActive_grows _ _ (by assumption)
  · assumption

theorem testQueue_grows {s0 s : State} (q) (h : Grows s0 s) : Grows s0 (testQueue q s) := by
  unfold testQueue
  try dsimp only
  split
  · exact joinAll_grows _ (setQueue_grows _ _ (by assumption))
  · exact leaveAll_grows _ (setQueue_grows _ _ (by assumption))

theorem enqueue_grows {s0 s : State} (q) (p) (f) (h : Grows s0 s) : Grows s0 (enqueue q p f s) := by
  unfold enqueue
  try dsimp only
  split
  · exact setQueue_grows _ _ (by assumption)
  · split
    · exact testQueue_grows _ (setQueue_grows _ _ (by assumption))
    · split
      · split
        · exact joinActive_grows _ _ (setQueue_grows _ _ (by assumption))
        · exact setQueue_grows _ _ (by assumption)
      · split
        · exact joinActive_grows _ _ (setQueue_grows _ _ (by assumption))
        · exact setQueue_grows _ _ (by assumption)

theorem queuePacket_grows {s0 s : State} (m) (i) (flags) (h : Grows s0 s) : Grows s0 (queuePacket m i flags s) := by
  unfold queuePacket
  try dsimp only
  exact enqueue_grows _ _ _ (rotate_grows _ (by assumption))

theorem startMsg_grows {s0 s : State} (m) (h : Grows s0 s) : Grows s0 (startMsg m s) := by
  unfold startMsg
  try dsimp only
  refine Grows.foldl (fun _ _ _ => ?_) ?_
  · exact queuePacket_grows _ _ _ (by assumption)
  · exact Grows.put (by assumption) rfl

theorem submitMsg_grows {s0 s : State} (m) (h : Grows s0 s) : Grows s0 (submitMsg m s) := by
  unfold submitMsg
  try dsimp only
  split
  · exact startMsg_grows _ (by assumption)
  · exact Grows.put (by assumption) rfl

theorem startWaiting_grows {s0 s : State} (h : Grows s0 s) : Grows s0 (startWaiting s) := by
  unfold startWaiting
  try dsimp only
  refine Grows.foldl (fun _ _ _ => ?_) ?_
  · exact submitMsg_grows _ (by assumption)
  · exact Grows.put (by assumption) rfl

theorem endMsg_grows {s0 s : State} (dest) (seq) (h : Grows s0 s) : Grows s0 (endMsg dest seq s) := by
  unfold endMsg
  try dsimp only
  exact startWaiting_grows (Grows.put (by assumption) rfl)

theorem freeBelow_grows {s0 s : State} (n) (h : Grows s0 s) : Grows s0 (freeBelow n s).2 := by
  unfold freeBelow
  try dsimp only
  exact Grows.put (by assumption) rfl

theorem freeOf_grows {s0 s : State} (l) (d) (h : Grows s0 s) : Grows s0 (freeOf l d s).2 := by
  unfold freeOf
  try dsimp only
  exact freeBelow_grows _ (by assumption)

theorem freeSlot_grows {s0 s : State} (used) (n) (h : Grows s0 s) : Grows s0 (freeSlot used n s).2 := by
  unfold freeSlot
  try dsimp only
  exact freeBelow_grows _ (by assumption)

theorem malformed_grows {s0 s : State} (t) (h : Grows s0 s) : Grows s0 (malformed t s) := by
  unfold malformed
  try dsimp only
  exact complete_grows _ _ _ _ _ _ (by assumption)

theorem notice_grows {s0 s : State} (ring) (seq) (window) (gen) (offset) (len)
    (h : Grows s0 s) : Grows s0 (notice ring seq window gen offset len s) := by
  unfold notice
  try dsimp only
  split
  · exact postEntry_grows _ _ (by assumption)
  · exact raise_grows _ (bump_grows _ _ (by assumption))

theorem place_grows {s0 s : State} (p) (h : Grows s0 s) : Grows s0 (place p s) := by
  unfold place
  split
  · exact h.of_eq rfl rfl rfl
  · exact h

theorem queueDisabled_grows {s0 s : State} (t) (h : Grows s0 s) : Grows s0 (queueDisabled t s) := by
  unfold queueDisabled
  try dsimp only
  exact complete_grows _ _ _ _ _ _ (by assumption)

theorem queueFrame_grows {s0 s : State} (q) (f) (h : Grows s0 s) : Grows s0 (queueFrame q f s) := by
  unfold queueFrame
  try dsimp only
  exact enqueue_grows _ _ _ (rotate_grows _ (by assumption))

theorem reasonWith_grows {s0 s : State} (t) (reason) (h : Grows s0 s) : Grows s0 (reasonWith t reason s) := by
  unfold reasonWith
  try dsimp only
  exact complete_grows _ _ _ _ _ _ (by assumption)

theorem refusedWith_grows {s0 s : State} (t) (cause) (h : Grows s0 s) : Grows s0 (refusedWith t cause s) := by
  unfold refusedWith
  try dsimp only
  exact complete_grows _ _ _ _ _ _ (by assumption)

theorem takeSeq_grows {s0 s : State} (dest) (h : Grows s0 s) : Grows s0 (takeSeq dest s).2 := by
  unfold takeSeq
  try dsimp only
  exact Grows.put (by assumption) rfl

theorem sendPieces_grows {s0 s : State} (dest) (dike) (charged) (carried) (sseq) (pieces)
    (h : Grows s0 s) : Grows s0 (sendPieces dest dike charged carried sseq pieces s) := by
  unfold sendPieces
  try dsimp only
  split
  · exact Grows.put (by assumption) rfl
  · exact submitMsg_grows _ (takeSeq_grows _ (Grows.put (by assumption) rfl))

theorem sendMsg_grows {s0 s : State} (dest) (dike) (carried) (sseq) (bytes)
    (h : Grows s0 s) : Grows s0 (sendMsg dest dike carried sseq bytes s) := by
  unfold sendMsg
  try dsimp only
  exact sendPieces_grows _ _ _ _ _ _ (by assumption)

theorem setNow_grows {s0 s : State} (t) (h : Grows s0 s) : Grows s0 (setNow t s) := by
  unfold setNow
  try dsimp only
  exact Grows.put (by assumption) rfl

theorem setPort_grows {s0 s : State} (p) (r) (h : Grows s0 s) : Grows s0 (setPort p r s) := by
  unfold setPort
  try dsimp only
  exact Grows.put (by assumption) rfl

theorem takeSseq_grows {s0 s : State} (h : Grows s0 s) : Grows s0 (takeSseq s).2 := by
  unfold takeSseq
  try dsimp only
  exact Grows.put (by assumption) rfl

theorem writeFlash_grows {s0 s : State} (a) (bs) (h : Grows s0 s) : Grows s0 (writeFlash a bs s) := by
  unfold writeFlash
  try dsimp only
  exact Grows.put (by assumption) rfl

theorem breakFlash_grows {s0 s : State} (w) (h : Grows s0 s) : Grows s0 (breakFlash w s) := by
  unfold breakFlash
  try dsimp only
  split
  · exact writeFlash_grows _ _ (freeBelow_grows _ (by assumption))
  · exact writeFlash_grows _ _ (freeBelow_grows _ (by assumption))
  · exact writeFlash_grows _ _ (by assumption)

theorem loseFlash_grows {s0 s : State} (h : Grows s0 s) : Grows s0 (loseFlash s) := by
  unfold loseFlash
  try dsimp only
  split
  · assumption
  · exact Grows.put (breakFlash_grows _ (by assumption)) rfl

theorem settleFlash_grows {s0 x1 : State} (x0) (h : Grows s0 x1) : Grows s0 (settleFlash x0 x1) := by
  induction x0 generalizing x1 with
  | zero =>
    unfold settleFlash
    try dsimp only
    assumption
  | succ n ih =>
    unfold settleFlash
    try dsimp only
    split
    · apply ih
      exact writeFlash_grows _ _ (Grows.put (by assumption) rfl)
    · exact Grows.put (by assumption) rfl
    · assumption

theorem popFlash_grows {s0 s : State} (h : Grows s0 s) : Grows s0 (popFlash s) := by
  unfold popFlash
  try dsimp only
  exact settleFlash_grows _ (Grows.put (by assumption) rfl)

theorem queueFlash_grows {s0 s : State} (w) (h : Grows s0 s) : Grows s0 (queueFlash w s) := by
  unfold queueFlash
  try dsimp only
  exact settleFlash_grows _ (Grows.put (by assumption) rfl)

theorem ringWrite_grows {s0 s : State} (base) (cap) (u) (bs) (h : Grows s0 s) : Grows s0 (ringWrite base cap u bs s) := by
  unfold ringWrite
  try dsimp only
  exact writeMem_grows _ _ (writeMem_grows _ _ (by assumption))

theorem putRecord_grows {s0 s : State} (kind) (flags) (step) (action) (tenant) (source) (sseq) (body)
    (h : Grows s0 s) : Grows s0 (putRecord kind flags step action tenant source sseq body s).2 := by
  unfold putRecord
  try dsimp only
  exact Grows.put (ringWrite_grows _ _ _ _ (by assumption)) rfl

theorem putJournal_grows {s0 s : State} (kind) (flags) (step) (action) (tenant) (source) (sseq) (body)
    (h : Grows s0 s) : Grows s0 (putJournal kind flags step action tenant source sseq body s) := by
  unfold putJournal
  try dsimp only
  split
  · exact putRecord_grows _ _ _ _ _ _ _ _ (by assumption)
  · exact putRecord_grows _ _ _ _ _ _ _ _ (raise_grows _ (bump_grows _ _ (putRecord_grows _ _ _ _ _ _ _ _
      (by assumption))))

theorem journal_grows {s0 s : State} (kind) (action) (tenant) (source) (sseq) (body)
    (h : Grows s0 s) : Grows s0 (journal kind action tenant source sseq body s) := by
  unfold journal
  try dsimp only
  split
  · refine Grows.foldl (fun _ _ _ => ?_) ?_
    · exact putJournal_grows _ _ _ _ _ _ _ _ (by assumption)
    · assumption
  · assumption

theorem dispositionAt_grows {s0 s : State} (action) (code) (handle) (layer) (amount)
    (h : Grows s0 s) : Grows s0 (dispositionAt action code handle layer amount s) := by
  unfold dispositionAt
  try dsimp only
  exact journal_grows _ _ _ _ _ _ (by assumption)

theorem disposition_grows {s0 s : State} (code) (handle) (layer) (amount)
    (h : Grows s0 s) : Grows s0 (disposition code handle layer amount s) := by
  unfold disposition
  try dsimp only
  exact dispositionAt_grows _ _ _ _ _ (by assumption)

theorem journalCommand_grows {s0 s : State} (action) (h_) (op) (sseq) (body)
    (h : Grows s0 s) : Grows s0 (journalCommand action h_ op sseq body s) := by
  unfold journalCommand
  try dsimp only
  exact journal_grows _ _ _ _ _ _ (by assumption)

theorem journalTime_grows {s0 s : State} (before) (h : Grows s0 s) : Grows s0 (journalTime before s) := by
  unfold journalTime
  try dsimp only
  exact journal_grows _ _ _ _ _ _ (by assumption)

theorem enterTime_grows {s0 s : State} (st) (h : Grows s0 s) : Grows s0 (enterTime st s) := by
  unfold enterTime
  try dsimp only
  refine journalTime_grows _ ?_
  split
  · exact Grows.put (by assumption) rfl
  · exact raise_grows _ (Grows.put (by assumption) rfl)
  · exact raise_grows _ (Grows.put (by assumption) rfl)
  · exact raise_grows _ (Grows.put (by assumption) rfl)
  · exact raise_grows _ (Grows.put (by assumption) rfl)

theorem acquireSync_grows {s0 s : State} (tight) (h : Grows s0 s) : Grows s0 (acquireSync tight s) := by
  unfold acquireSync
  try dsimp only
  split
  · exact Grows.put (by assumption) rfl
  · split
    · exact Grows.put (by assumption) rfl
    · exact enterTime_grows _ (Grows.put (by assumption) rfl)

theorem followGm_grows {s0 s : State} (gm) (h : Grows s0 s) : Grows s0 (followGm gm s) := by
  unfold followGm
  try dsimp only
  split
  · split
    · assumption
    · exact raise_grows _ (Grows.put (by assumption) rfl)
  · exact Grows.put (by assumption) rfl

theorem execAnnounce_grows {s0 s : State} {t} {a} (e : execAnnounce a s = .next t) (h : Grows s0 s) : Grows s0 t := by
  unfold execAnnounce at e
  try dsimp only at e
  split at e
  · split at e
    · injection e with e
      subst e
      exact followGm_grows _ (Grows.put (by assumption) rfl)
    · split at e
      · injection e with e
        subst e
        exact followGm_grows _ (Grows.put (by assumption) rfl)
      · injection e with e
        subst e
        assumption
  · injection e with e
    subst e
    assumption

theorem execHoldoverExpired_grows {s0 s : State} {t} {at_}
    (e : execHoldoverExpired at_ s = .next t) (h : Grows s0 s) : Grows s0 t := by
  unfold execHoldoverExpired at e
  try dsimp only at e
  split at e
  · injection e with e
    subst e
    exact enterTime_grows _ (setNow_grows _ (by assumption))
  · injection e with e
    subst e
    exact setNow_grows _ (by assumption)

theorem snapshot_grows {s0 s : State} (h : Grows s0 s) : Grows s0 (snapshot s) := by
  unfold snapshot
  try dsimp only
  exact Grows.put (by assumption) rfl

theorem execSnap_grows {s0 s : State} {t} (e : execSnap s = .next t) (h : Grows s0 s) : Grows s0 t := by
  unfold execSnap at e
  try dsimp only at e
  injection e with e
  subst e
  split
  · exact snapshot_grows (by assumption)
  · assumption

theorem noteSync_grows {s0 s : State} (o) (h : Grows s0 s) : Grows s0 (noteSync o s) := by
  unfold noteSync
  try dsimp only
  exact Grows.put (by assumption) rfl

theorem stepCounter_grows {s0 s : State} (o) (h : Grows s0 s) : Grows s0 (stepCounter o s) := by
  unfold stepCounter
  try dsimp only
  exact journalTime_grows _ (Grows.put (by assumption) rfl)

theorem initialStep_grows {s0 s : State} (o) (h : Grows s0 s) : Grows s0 (initialStep o s) := by
  unfold initialStep
  try dsimp only
  split
  · exact stepCounter_grows _ (by assumption)
  · assumption

theorem syncState_grows {s0 s : State} (o) (h : Grows s0 s) : Grows s0 (syncState o s) := by
  unfold syncState
  try dsimp only
  split
  · exact initialStep_grows _ (enterTime_grows _ (Grows.put (by assumption) rfl))
  · exact initialStep_grows _ (acquireSync_grows _ (by assumption))
  · split
    · exact enterTime_grows _ (by assumption)
    · assumption
  · split
    · exact enterTime_grows _ (by assumption)
    · exact enterTime_grows _ (by assumption)
  · split
    · split
      · assumption
      · exact raise_grows _ (Grows.put (by assumption) rfl)
    · exact enterTime_grows _ (Grows.put (by assumption) rfl)

theorem execSync_grows {s0 s : State} {t} {at_ gm offset}
    (e : execSync at_ gm offset s = .next t) (h : Grows s0 s) : Grows s0 t := by
  unfold execSync at e
  try dsimp only at e
  split at e
  · injection e with e
    subst e
    split
    · exact syncState_grows _ (noteSync_grows _ (followGm_grows _ (setNow_grows _ (by assumption))))
    · exact noteSync_grows _ (followGm_grows _ (setNow_grows _ (by assumption)))
  · injection e with e
    subst e
    assumption

theorem execSyncAbsent_grows {s0 s : State} {t} {at_} (e : execSyncAbsent at_ s = .next t) (h : Grows s0 s) : Grows s0 t := by
  unfold execSyncAbsent at e
  try dsimp only at e
  split at e
  · split at e
    · injection e with e
      subst e
      split
      · exact enterTime_grows _ (setNow_grows _ (by assumption))
      · exact setNow_grows _ (by assumption)
    · injection e with e
      subst e
      exact enterTime_grows _ (Grows.put (setNow_grows _ (by assumption)) rfl)
    · injection e with e
      subst e
      exact setNow_grows _ (by assumption)
  · injection e with e
    subst e
    exact setNow_grows _ (by assumption)

theorem applySetQueue_grows {s0 s : State} (q) (enable) (quantum) (rate)
    (h : Grows s0 s) : Grows s0 (applySetQueue q enable quantum rate s) := by
  unfold applySetQueue
  try dsimp only
  split
  · exact testQueue_grows _ (setQueue_grows _ _ (by assumption))
  · exact leaveAll_grows _ (testQueue_grows _ (setQueue_grows _ _ (by assumption)))

theorem coarseTick_grows {s0 s : State} (h : Grows s0 s) : Grows s0 (coarseTick s) := by
  unfold coarseTick
  try dsimp only
  exact Grows.put (by assumption) rfl

theorem weirResult_grows {s0 s : State} (cmd) (cause) (object) (h : Grows s0 s) : Grows s0 (weirResult cmd cause object s) := by
  unfold weirResult
  try dsimp only
  exact Grows.put (by assumption) rfl

theorem weirRefuse_grows {s0 s : State} (t) (cmd) (cause) (object)
    (h : Grows s0 s) : Grows s0 (weirRefuse t cmd cause object s) := by
  unfold weirRefuse
  try dsimp only
  exact refusedWith_grows _ _ (raise_grows _ (weirResult_grows _ _ _ (by assumption)))

theorem doSetPolicer_grows {s0 s : State} (t) (d) (enable) (rate) (burst)
    (h : Grows s0 s) : Grows s0 (doSetPolicer t d enable rate burst s) := by
  unfold doSetPolicer
  try dsimp only
  split
  · exact weirRefuse_grows _ _ _ _ (by assumption)
  · split
    · exact weirRefuse_grows _ _ _ _ (by assumption)
    · exact done_grows _ (weirResult_grows _ _ _ (Grows.put (by assumption) rfl))

theorem doSetQueue_grows {s0 s : State} (t) (q) (enable) (quantum) (rate)
    (h : Grows s0 s) : Grows s0 (doSetQueue t q enable quantum rate s) := by
  unfold doSetQueue
  try dsimp only
  split
  · exact weirRefuse_grows _ _ _ _ (by assumption)
  · split
    · exact weirRefuse_grows _ _ _ _ (by assumption)
    · exact done_grows _ (weirResult_grows _ _ _ (applySetQueue_grows _ _ _ _ (by assumption)))

theorem drrAfter_grows {s0 s : State} (q) (p) (c) (h : Grows s0 s) : Grows s0 (drrAfter q p c s) := by
  unfold drrAfter
  try dsimp only
  split
  · split
    · exact setActive_grows _ _ (wEvent_grows _ _ _ _ (setQueue_grows _ _ (by assumption)))
    · exact testQueue_grows _ (setActive_grows _ _ (wEvent_grows _ _ _ _ (setQueue_grows _ _ (by assumption))))
  · split
    · exact wEvent_grows _ _ _ _ (setQueue_grows _ _ (by assumption))
    · exact testQueue_grows _ (wEvent_grows _ _ _ _ (setQueue_grows _ _ (by assumption)))

theorem drrChoose_grows {s0 x2 : State} (p) (x1) (h : Grows s0 x2) : Grows s0 (drrChoose p x1 x2).2 := by
  induction x1 generalizing x2 with
  | zero =>
    unfold drrChoose
    try dsimp only
    assumption
  | succ n ih =>
    unfold drrChoose
    try dsimp only
    split
    · dsimp only
      assumption
    · split
      · apply ih
        exact setActive_grows _ _ (by assumption)
      · split
        · split
          · dsimp only
            exact setQueue_grows _ _ (by assumption)
          · apply ih
            exact setActive_grows _ _ (setQueue_grows _ _ (by assumption))
        · split
          · dsimp only
            exact setQueue_grows _ _ (by assumption)
          · apply ih
            exact setActive_grows _ _ (setQueue_grows _ _ (by assumption))

theorem execCoarseTick_grows {s0 s : State} {t} (e : execCoarseTick s = .next t) (h : Grows s0 s) : Grows s0 t := by
  unfold execCoarseTick at e
  try dsimp only at e
  split at e
  · injection e with e
    subst e
    exact coarseTick_grows (setNow_grows _ (by assumption))
  · injection e with e
    subst e
    assumption

theorem fineTick_grows {s0 s : State} (h : Grows s0 s) : Grows s0 (fineTick s) := by
  unfold fineTick
  try dsimp only
  exact Grows.put (by assumption) rfl

theorem execFineTick_grows {s0 s : State} {t} (e : execFineTick s = .next t) (h : Grows s0 s) : Grows s0 t := by
  unfold execFineTick at e
  try dsimp only at e
  split at e
  · injection e with e
    subst e
    refine fineTick_grows ?_
    split
    · exact coarseTick_grows (setNow_grows _ (by assumption))
    · exact setNow_grows _ (by assumption)
  · injection e with e
    subst e
    assumption

theorem execPacerRelease_grows {s0 s : State} {t} {queue}
    (e : execPacerRelease queue s = .next t) (h : Grows s0 s) : Grows s0 t := by
  unfold execPacerRelease at e
  try dsimp only at e
  split at e
  · injection e with e
    subst e
    exact testQueue_grows _ (setNow_grows _ (by assumption))
  · injection e with e
    subst e
    assumption

theorem flushDike_grows {s0 s : State} (d) (h : Grows s0 s) : Grows s0 (flushDike d s) := by
  unfold flushDike
  try dsimp only
  refine startWaiting_grows ?_
  refine Grows.foldl (fun _ _ _ => ?_) ?_
  · split
    · exact abandoned_grows _ (by assumption)
    · assumption
  · refine Grows.put ?_ rfl
    refine Grows.foldl (fun _ _ _ => ?_) ?_
    · exact setQueue_grows _ _ (leaveAll_grows _ (by assumption))
    · split
      · assumption
      · exact raise_grows _ (bump_grows _ _ (by assumption))

theorem grantQueues_grows {s0 s : State} (d) (cls) (h : Grows s0 s) : Grows s0 (grantQueues d cls s) := by
  unfold grantQueues
  try dsimp only
  refine Grows.foldl (fun _ _ _ => ?_) ?_
  · exact setQueue_grows _ _ (by assumption)
  · assumption

theorem movePort_grows {s0 s : State} (p) (h : Grows s0 s) : Grows s0 (movePort p s) := by
  unfold movePort
  try dsimp only
  split
  · assumption
  · refine Grows.foldl (fun _ _ _ => ?_) ?_
    · split
      · exact joinActive_grows _ _ (setQueue_grows _ _ (by assumption))
      · exact setQueue_grows _ _ (by assumption)
    · exact setActive_grows _ _ (by assumption)

theorem takeHead_grows {s0 s : State} (q) (p) (h : Grows s0 s) : Grows s0 (takeHead q p s).2 := by
  unfold takeHead
  try dsimp only
  split
  · dsimp only
    assumption
  · dsimp only
    exact setQueue_grows _ _ (by assumption)

theorem takeDirect_grows {s0 s : State} (q) (p) (h : Grows s0 s) : Grows s0 (takeDirect q p s).2 := by
  unfold takeDirect
  try dsimp only
  split
  · dsimp only
    exact Grows.of_snd (by assumption) (takeHead_grows _ _ (by assumption))
  · dsimp only
    exact wEvent_grows _ _ _ _ (setQueue_grows _ _ (Grows.of_snd (by assumption) (takeHead_grows _ _ (by assumption))))

theorem nextFrame_grows {s0 s : State} (p) (h : Grows s0 s) : Grows s0 (nextFrame p s).2 := by
  unfold nextFrame
  try dsimp only
  split
  · exact takeDirect_grows _ _ (by assumption)
  · exact takeDirect_grows _ _ (by assumption)
  · split
    · dsimp only
      exact Grows.of_snd (by assumption) (drrChoose_grows _ _ (by assumption))
    · split
      · dsimp only
        exact Grows.of_snd (by assumption) (takeHead_grows _ _ (Grows.of_snd (by assumption) (drrChoose_grows _ _
          (by assumption))))
      · dsimp only
        exact drrAfter_grows _ _ _ (Grows.of_snd (by assumption) (takeHead_grows _ _ (Grows.of_snd (by assumption)
          (drrChoose_grows _ _ (by assumption)))))

theorem police_grows {s0 s : State} (d) (c) (h : Grows s0 s) : Grows s0 (police d c s).2 := by
  unfold police
  try dsimp only
  split
  · dsimp only
    assumption
  · split
    · dsimp only
      exact wEvent_grows _ _ _ _ (Grows.put (by assumption) rfl)
    · dsimp only
      exact raise_grows _ (bump_grows _ _ (sEvent_grows _ _ _ _ (Grows.put (by assumption) rfl)))

theorem requantum_grows {s0 s : State} (d) (cls) (h : Grows s0 s) : Grows s0 (requantum d cls s) := by
  unfold requantum
  try dsimp only
  refine Grows.foldl (fun _ _ _ => ?_) ?_
  · split
    · assumption
    · exact setQueue_grows _ _ (by assumption)
  · assumption

theorem measureInput_grows {s0 s : State} (h : Grows s0 s) : Grows s0 (measureInput s) := by
  unfold measureInput
  try dsimp only
  exact wEvent_grows _ _ _ _ (Grows.put (by assumption) rfl)

theorem writeTally_grows {s0 s : State} (h : Grows s0 s) : Grows s0 (writeTally s) := by
  unfold writeTally
  try dsimp only
  split
  · assumption
  · exact Grows.put (writeMem_grows _ _ (by assumption)) rfl

theorem freezeTally_grows {s0 s : State} (h : Grows s0 s) : Grows s0 (freezeTally s) := by
  unfold freezeTally
  try dsimp only
  exact Grows.put (measureInput_grows (writeTally_grows (by assumption))) rfl

theorem execMinuteBoundary_grows {s0 s : State} {t} (e : execMinuteBoundary s = .next t) (h : Grows s0 s) : Grows s0 t := by
  unfold execMinuteBoundary at e
  try dsimp only at e
  split at e
  · injection e with e
    subst e
    split
    · exact setNow_grows _ (by assumption)
    · exact freezeTally_grows (setNow_grows _ (by assumption))
  · injection e with e
    subst e
    assumption

theorem execTallySetWritten_grows {s0 s : State} {t} (e : execTallySetWritten s = .next t) (h : Grows s0 s) : Grows s0 t := by
  unfold execTallySetWritten at e
  try dsimp only at e
  injection e with e
  subst e
  exact writeTally_grows (by assumption)

theorem execTallyWriteDeadline_grows {s0 s : State} {t}
    (e : execTallyWriteDeadline s = .next t) (h : Grows s0 s) : Grows s0 t := by
  unfold execTallyWriteDeadline at e
  try dsimp only at e
  split at e
  · injection e with e
    subst e
    assumption
  · injection e with e
    subst e
    exact raise_grows _ (setNow_grows _ (by assumption))

theorem addFault_grows {s0 s : State} (f) (h : Grows s0 s) : Grows s0 (addFault f s) := by
  unfold addFault
  try dsimp only
  split
  · assumption
  · exact Grows.put (by assumption) rfl

theorem setWindow_grows {s0 s : State} (w) (r) (h : Grows s0 s) : Grows s0 (setWindow w r s) := by
  unfold setWindow
  try dsimp only
  exact Grows.put (by assumption) rfl

theorem beginRevoke_grows {s0 s : State} (w) (t) (reopen) (h : Grows s0 s) : Grows s0 (beginRevoke w t reopen s) := by
  unfold beginRevoke
  try dsimp only
  exact setWindow_grows _ _ (by assumption)

theorem chargeObject_grows {s0 s : State} (d) (n) (h : Grows s0 s) : Grows s0 (chargeObject d n s) := by
  unfold chargeObject
  try dsimp only
  split
  · exact charge_grows _ _ _ (by assumption)
  · split
    · exact charge_grows _ _ _ (by assumption)
    · assumption

theorem openedResult_grows {s0 s : State} (t) (w) (h : Grows s0 s) : Grows s0 (openedResult t w s) := by
  unfold openedResult
  try dsimp only
  exact doneWith_grows _ _ _ (by assumption)

theorem openAs_grows {s0 s : State} (w) (d) (o) (h : Grows s0 s) : Grows s0 (openAs w d o s) := by
  unfold openAs
  try dsimp only
  exact setWindow_grows _ _ (by assumption)

theorem doOpenWindow_grows {s0 s : State} (t) (d) (o) (h : Grows s0 s) : Grows s0 (doOpenWindow t d o s) := by
  unfold doOpenWindow
  try dsimp only
  split
  · exact reasonWith_grows _ _ (by assumption)
  · split
    · exact refusedWith_grows _ _ (by assumption)
    · split
      · exact refusedWith_grows _ _ (by assumption)
      · exact openedResult_grows _ _ (openAs_grows _ _ _ (by assumption))

theorem doReopenWindow_grows {s0 s : State} (t) (d) (w) (o) (h : Grows s0 s) : Grows s0 (doReopenWindow t d w o s) := by
  unfold doReopenWindow
  try dsimp only
  split
  · exact refusedWith_grows _ _ (by assumption)
  · split
    · exact refusedWith_grows _ _ (by assumption)
    · split
      · exact refusedWith_grows _ _ (by assumption)
      · split
        · exact refusedWith_grows _ _ (by assumption)
        · split
          · exact beginRevoke_grows _ _ _ (by assumption)
          · exact setWindow_grows _ _ (by assumption)

theorem doRevokeWindow_grows {s0 s : State} (t) (d) (w) (h : Grows s0 s) : Grows s0 (doRevokeWindow t d w s) := by
  unfold doRevokeWindow
  try dsimp only
  split
  · exact refusedWith_grows _ _ (by assumption)
  · split
    · exact done_grows _ (by assumption)
    · split
      · exact refusedWith_grows _ _ (by assumption)
      · split
        · exact refusedWith_grows _ _ (by assumption)
        · exact beginRevoke_grows _ _ _ (by assumption)

theorem dropFault_grows {s0 s : State} (f) (h : Grows s0 s) : Grows s0 (dropFault f s) := by
  unfold dropFault
  try dsimp only
  exact Grows.put (by assumption) rfl

theorem execReopenDelayExpired_grows {s0 s : State} {t} {at_ window}
    (e : execReopenDelayExpired at_ window s = .next t) (h : Grows s0 s) : Grows s0 t := by
  unfold execReopenDelayExpired at e
  try dsimp only at e
  split at e
  · split at e
    · split at e
      · injection e with e
        subst e
        exact beginRevoke_grows _ _ _ (setNow_grows _ (by assumption))
      · injection e with e
        subst e
        exact refusedWith_grows _ _ (setWindow_grows _ _ (setNow_grows _ (by assumption)))
    · injection e with e
      subst e
      exact setNow_grows _ (by assumption)
  · injection e with e
    subst e
    exact setNow_grows _ (by assumption)

theorem finishRevoke_grows {s0 s : State} (w) (h : Grows s0 s) : Grows s0 (finishRevoke w s) := by
  unfold finishRevoke
  try dsimp only
  split
  · assumption
  · split
    · split
      · exact openedResult_grows _ _ (openAs_grows _ _ _ (by assumption))
      · exact refusedWith_grows _ _ (setWindow_grows _ _ (by assumption))
    · exact done_grows _ (setWindow_grows _ _ (by assumption))
    · exact setWindow_grows _ _ (by assumption)

theorem execRevocationComplete_grows {s0 s : State} {t} {window}
    (e : execRevocationComplete window s = .next t) (h : Grows s0 s) : Grows s0 t := by
  unfold execRevocationComplete at e
  try dsimp only at e
  injection e with e
  subst e
  split
  · exact finishRevoke_grows _ (by assumption)
  · assumption

theorem violate_grows {s0 s : State} (h : Grows s0 s) : Grows s0 (violate s) := by
  unfold violate
  try dsimp only
  exact addFault_grows _ (raise_grows _ (by assumption))

theorem forDike_grows {s0 s : State} (dike) (i) (act)
    (Hact : ∀ a0, Grows s0 a0 → Grows s0 (act a0)) (h : Grows s0 s) : Grows s0 (forDike dike i act s) := by
  unfold forDike
  try dsimp only
  split
  · apply Hact
    assumption
  · split
    · apply Hact
      assumption
    · exact violate_grows (by assumption)

theorem forceRevoke_grows {s0 s : State} (w) (h : Grows s0 s) : Grows s0 (forceRevoke w s) := by
  unfold forceRevoke
  try dsimp only
  split
  · assumption
  · assumption
  · split
    · exact refusedWith_grows _ _ (beginRevoke_grows _ _ _ (by assumption))
    · exact beginRevoke_grows _ _ _ (by assumption)

theorem putDesc_grows {s0 s : State} (i) (d) (h : Grows s0 s) : Grows s0 (putDesc i d s) := by
  unfold putDesc
  try dsimp only
  exact Grows.put (by assumption) rfl

theorem placeObject_grows {s0 s : State} (desc) (off) (bs) (h : Grows s0 s) : Grows s0 (placeObject desc off bs s) := by
  unfold placeObject
  try dsimp only
  split
  · assumption
  · exact chargeObject_grows _ _ (putDesc_grows _ _ (by assumption))

theorem revokeDike_grows {s0 s : State} (d) (h : Grows s0 s) : Grows s0 (revokeDike d s) := by
  unfold revokeDike
  try dsimp only
  refine Grows.foldl (fun _ _ _ => ?_) ?_
  · exact forceRevoke_grows _ (by assumption)
  · assumption

theorem setIntake_grows {s0 s : State} (d) (open_) (h : Grows s0 s) : Grows s0 (setIntake d open_ s) := by
  unfold setIntake
  try dsimp only
  exact Grows.put (by assumption) rfl

theorem updDesc_grows {s0 s : State} (i) (f) (h : Grows s0 s) : Grows s0 (updDesc i f s) := by
  unfold updDesc
  try dsimp only
  exact Grows.put (by assumption) rfl

theorem damageFound_grows {s0 s : State} (code) (source) (h : Grows s0 s) : Grows s0 (damageFound code source s) := by
  unfold damageFound
  try dsimp only
  exact raise_grows _ (bump_grows _ _ (Grows.put (by assumption) rfl))

theorem blockDamaged_grows {s0 s : State} (cause) (source) (h : Grows s0 s) : Grows s0 (blockDamaged cause source s) := by
  unfold blockDamaged
  try dsimp only
  exact damageFound_grows _ _ (by assumption)

theorem countBlocks_grows {s0 s : State} (bs) (h : Grows s0 s) : Grows s0 (countBlocks bs s) := by
  unfold countBlocks
  try dsimp only
  exact Grows.put (wEvent_grows _ _ _ _ (wEvent_grows _ _ _ _ (by assumption))) rfl

end Sys2Proof.Machine
end

