-- ==== Sys2Proof/Laws/GrowsPages.lean ====
section
/-! SUPPORT. Each operation lets grow what Safety.Grows names: pages, admission, models and the build.
`f_grows`: if `s` has grown from `s0`, so has what `f` makes of `s`. -/

namespace Sys2Proof.Machine

open Sys2Proof.Safety

theorem takeLines_grows {s0 s : State} (n) (h : Grows s0 s) : Grows s0 (takeLines n s).2 := by
  unfold takeLines
  try dsimp only
  exact freeSlot_grows _ _ (by assumption)

theorem updSeq_grows {s0 s : State} (slot) (f) (h : Grows s0 s) : Grows s0 (updSeq slot f s) := by
  unfold updSeq
  try dsimp only
  exact Grows.put (by assumption) rfl

theorem updLayer_grows {s0 s : State} (slot) (l) (f) (h : Grows s0 s) : Grows s0 (updLayer slot l f s) := by
  unfold updLayer
  try dsimp only
  exact updSeq_grows _ _ (by assumption)

theorem fitLines_grows {s0 s : State} (slot) (l) (h : Grows s0 s) : Grows s0 (fitLines slot l s) := by
  unfold fitLines
  try dsimp only
  split
  · assumption
  · split
    · exact updLayer_grows _ _ _ (takeLines_grows _ (by assumption))
    · exact updLayer_grows _ _ _ (by assumption)

theorem decRef_grows {s0 s : State} (i) (h : Grows s0 s) : Grows s0 (decRef i s) := by
  unfold decRef
  try dsimp only
  exact updDesc_grows _ _ (by assumption)

theorem pushList_grows {s0 s : State} (slot) (l) (i) (h : Grows s0 s) : Grows s0 (pushList slot l i s) := by
  unfold pushList
  try dsimp only
  split
  · assumption
  · split
    · exact updLayer_grows _ _ _ (by assumption)
    · split
      · exact decRef_grows _ (updLayer_grows _ _ _ (by assumption))
      · exact updLayer_grows _ _ _ (by assumption)

theorem pushPage_grows {s0 s : State} (slot) (l) (i) (h : Grows s0 s) : Grows s0 (pushPage slot l i s) := by
  unfold pushPage
  try dsimp only
  exact fitLines_grows _ _ (pushList_grows _ _ _ (by assumption))

theorem openHopper_grows {s0 s : State} (slot) (l) (i) (pos) (h : Grows s0 s) : Grows s0 (openHopper slot l i pos s) := by
  unfold openHopper
  try dsimp only
  exact pushPage_grows _ _ _ (updDesc_grows _ _ (by assumption))

theorem ensureHopper_grows {s0 s : State} {t} {slot l pos}
    (e : ensureHopper slot l pos s = some t) (h : Grows s0 s) : Grows s0 t := by
  unfold ensureHopper at e
  try dsimp only at e
  split at e
  · cases e
  · split at e
    · injection e with e
      subst e
      assumption
    · split at e
      · injection e with e
        subst e
        exact openHopper_grows _ _ _ _ (updLayer_grows _ _ _ (by assumption))
      · injection e with e
        subst e
        exact openHopper_grows _ _ _ _ (updLayer_grows _ _ _ (by assumption))
      · cases e

theorem copyHopper_grows {s0 s : State} (slot) (l) (pos) (i) (d) (h : Grows s0 s) : Grows s0 (copyHopper slot l pos i d s) := by
  unfold copyHopper
  try dsimp only
  split
  · assumption
  · split
    · assumption
    · refine bump_grows _ _ ?_
      refine charge_grows _ _ _ ?_
      refine charge_grows _ _ _ ?_
      refine updLayer_grows _ _ _ ?_
      refine decRef_grows _ ?_
      refine updDesc_grows _ _ ?_
      split
      · exact updLayer_grows _ _ _ (by assumption)
      · exact updDesc_grows _ _ (updLayer_grows _ _ _ (by assumption))

theorem copyIfShared_grows {s0 s : State} (slot) (l) (pos) (h : Grows s0 s) : Grows s0 (copyIfShared slot l pos s) := by
  unfold copyIfShared
  try dsimp only
  split
  · assumption
  · split
    · exact copyHopper_grows _ _ _ _ _ (by assumption)
    · assumption

theorem drawCredit_grows {s0 s : State} (slot) (l) (h : Grows s0 s) : Grows s0 (drawCredit slot l s) := by
  unfold drawCredit
  try dsimp only
  exact updLayer_grows _ _ _ (by assumption)

theorem startSeal_grows {s0 s : State} (slot) (l) (i) (step) (h : Grows s0 s) : Grows s0 (startSeal slot l i step s) := by
  unfold startSeal
  try dsimp only
  split
  · assumption
  · exact updDesc_grows _ _ (drawCredit_grows _ _ (by assumption))

theorem appendRow_grows {s0 s : State} {t} {slot l pos step k v}
    (e : appendRow slot l pos step k v s = some t) (h : Grows s0 s) : Grows s0 t := by
  unfold appendRow at e
  try dsimp only at e
  split at e
  · cases e
  · split at e
    · cases e
    · split at e
      · injection e with e
        subst e
        exact updDesc_grows _ _ (ensureHopper_grows (by assumption) (copyIfShared_grows _ _ _ (by assumption)))
      · split at e
        · injection e with e
          subst e
          exact startSeal_grows _ _ _ _ (updDesc_grows _ _ (ensureHopper_grows (by assumption) (copyIfShared_grows _ _ _
            (by assumption))))
        · injection e with e
          subst e
          exact openHopper_grows _ _ _ _ (updLayer_grows _ _ _ (startSeal_grows _ _ _ _ (updDesc_grows _ _
            (ensureHopper_grows (by assumption) (copyIfShared_grows _ _ _ (by assumption))))))

theorem appendRows_grows {s0 x5 : State} {t} {slot l step x3 x4}
    (e : appendRows slot l step x3 x4 x5 = some t) (h : Grows s0 x5) : Grows s0 t := by
  induction x4 generalizing x3 x5 with
  | nil =>
    unfold appendRows at e
    try dsimp only at e
    injection e with e
    subst e
    assumption
  | cons a l ih =>
    unfold appendRows at e
    try dsimp only at e
    split at e
    · cases e
    · exact ih e (appendRow_grows (by assumption) (by assumption))

theorem liftHopper_grows {s0 s : State} (slot) (l) (h : Grows s0 s) : Grows s0 (liftHopper slot l s).2 := by
  unfold liftHopper
  try dsimp only
  split
  · split
    · dsimp only
      exact updLayer_grows _ _ _ (by assumption)
    · dsimp only
      assumption
  · dsimp only
    assumption

theorem newDesc_grows {s0 s : State} (d) (h : Grows s0 s) : Grows s0 (newDesc d s).2 := by
  unfold newDesc
  try dsimp only
  split
  · dsimp only
    exact freeSlot_grows _ _ (by assumption)
  · dsimp only
    exact Grows.put (freeSlot_grows _ _ (by assumption)) rfl

theorem stagedPage_grows {s0 s : State} (slot) (l) (pos) (step) (rows)
    (h : Grows s0 s) : Grows s0 (stagedPage slot l pos step rows s) := by
  unfold stagedPage
  try dsimp only
  split
  · assumption
  · split
    · exact newDesc_grows _ (by assumption)
    · exact pushPage_grows _ _ _ (drawCredit_grows _ _ (newDesc_grows _ (by assumption)))

theorem stagedPages_grows {s0 x7 : State} (slot) (l) (step) (size) (x4) (x5) (x6) (h : Grows s0 x7) :
    Grows s0 (stagedPages slot l step size x4 x5 x6 x7).2.2 := by
  induction x4 generalizing x5 x6 x7 with
  | zero => exact h
  | succ n ih =>
    unfold stagedPages
    split
    · exact ih _ _ (stagedPage_grows _ _ _ _ _ h)
    · exact h

theorem appendStaged_grows {s0 s : State} {t} {slot l first step rows}
    (e : appendStaged slot l first step rows s = some t) (h : Grows s0 s) : Grows s0 t := by
  unfold appendStaged at e
  try dsimp only at e
  split at e
  · cases e
  · refine appendRows_grows e ?_
    split
    · exact openHopper_grows _ _ _ _ (stagedPages_grows _ _ _ _ _ _ _ (liftHopper_grows _ _ (appendRows_grows
        (by assumption) (by assumption))))
    · exact stagedPages_grows _ _ _ _ _ _ _ (liftHopper_grows _ _ (appendRows_grows (by assumption) (by assumption)))

theorem clearCopy_grows {s0 s : State} (i) (h : Grows s0 s) : Grows s0 (clearCopy i s) := by
  unfold clearCopy
  try dsimp only
  split
  · exact decRef_grows _ (updDesc_grows _ _ (by assumption))
  · exact updDesc_grows _ _ (by assumption)

theorem dropCopy_grows {s0 s : State} (i) (h : Grows s0 s) : Grows s0 (dropCopy i s) := by
  unfold dropCopy
  try dsimp only
  exact bump_grows _ _ (clearCopy_grows _ (by assumption))

theorem removePrefix_grows {s0 s : State} (k) (h : Grows s0 s) : Grows s0 (removePrefix k s) := by
  unfold removePrefix
  try dsimp only
  split
  · assumption
  · refine Grows.foldl (fun _ _ _ => ?_) ?_
    · exact decRef_grows _ (updDesc_grows _ _ (by assumption))
    · exact Grows.put (by assumption) rfl

theorem dropPrefixesOf_grows {s0 x2 : State} (tenant) (x1) (h : Grows s0 x2) : Grows s0 (dropPrefixesOf tenant x1 x2) := by
  induction x1 generalizing x2 with
  | zero => exact h
  | succ n ih =>
    unfold dropPrefixesOf
    split
    · exact h
    · exact ih (removePrefix_grows _ h)

theorem takeExtents_grows {s0 x3 : State} (t) (x1) (x2) (h : Grows s0 x3) : Grows s0 (takeExtents t x1 x2 x3).2 := by
  induction x1 generalizing x2 x3 with
  | zero =>
    unfold takeExtents
    try dsimp only
    assumption
  | succ n ih =>
    unfold takeExtents
    try dsimp only
    apply ih
    exact freeSlot_grows _ _ (by assumption)

theorem sealRead_grows {s0 s : State} (d) (n) (h : Grows s0 s) : Grows s0 (sealRead d n s) := by
  unfold sealRead
  split
  · assumption
  · exact charge_grows _ _ _ (by assumption)

theorem sealComplete_grows {s0 s : State} (i) (h : Grows s0 s) : Grows s0 (sealComplete i s) := by
  unfold sealComplete
  try dsimp only
  split
  · assumption
  · split
    · assumption
    · split
      · assumption
      · exact decRef_grows _ (updDesc_grows _ _ (takeExtents_grows _ _ _ (chargeTier_grows _ _ _ (sealRead_grows _ _
          (countBlocks_grows _ (by assumption))))))

theorem execSealComplete_grows {s0 s : State} {t} {desc}
    (e : execSealComplete desc s = .next t) (h : Grows s0 s) : Grows s0 t := by
  unfold execSealComplete at e
  try dsimp only at e
  injection e with e
  subst e
  split
  · exact sealComplete_grows _ (by assumption)
  · assumption

theorem incRef_grows {s0 s : State} (i) (h : Grows s0 s) : Grows s0 (incRef i s) := by
  unfold incRef
  try dsimp only
  exact updDesc_grows _ _ (by assumption)

theorem leaseDesc_grows {s0 s : State} (i) (step) (h : Grows s0 s) : Grows s0 (leaseDesc i step s) := by
  unfold leaseDesc
  try dsimp only
  exact updDesc_grows _ _ (by assumption)

theorem letGo_grows {s0 s : State} (slot) (i) (h : Grows s0 s) : Grows s0 (letGo slot i s) := by
  unfold letGo
  try dsimp only
  split
  · assumption
  · split
    · assumption
    · split
      · split
        · exact decRef_grows _ (updLayer_grows _ _ _ (updDesc_grows _ _ (by assumption)))
        · exact updDesc_grows _ _ (by assumption)
      · exact updDesc_grows _ _ (by assumption)
      · exact updDesc_grows _ _ (by assumption)

theorem makeSpare_grows {s0 s : State} (d) (h : Grows s0 s) : Grows s0 (makeSpare d s) := by
  unfold makeSpare
  try dsimp only
  split
  · assumption
  · split
    · assumption
    · split
      · exact newDesc_grows _ (by assumption)
      · exact updLayer_grows _ _ _ (newDesc_grows _ (by assumption))

theorem reclaimOne_grows {s0 s : State} (i) (h : Grows s0 s) : Grows s0 (reclaimOne i s) := by
  unfold reclaimOne
  try dsimp only
  split
  · assumption
  · split
    · split
      · refine updLayer_grows _ _ _ ?_
        split
        · exact makeSpare_grows _ (Grows.put (by assumption) rfl)
        · exact Grows.put (by assumption) rfl
      · split
        · exact makeSpare_grows _ (Grows.put (by assumption) rfl)
        · exact Grows.put (by assumption) rfl
    · split
      · exact makeSpare_grows _ (Grows.put (by assumption) rfl)
      · exact Grows.put (by assumption) rfl

theorem reclaim_grows {s0 s : State} (freed)
    (Hfreed : ∀ a0 a1 a2, Grows s0 a2 → Grows s0 (freed a0 a1 a2)) (h : Grows s0 s) : Grows s0 (reclaim freed s) := by
  unfold reclaim
  try dsimp only
  refine raiseIf_grows _ _ ?_
  refine Grows.foldl (fun _ _ _ => ?_) ?_
  · split
    · assumption
    · apply Hfreed
      exact reclaimOne_grows _ (by assumption)
  · exact Grows.put (by assumption) rfl

theorem makeRoom_grows {s0 x2 : State} {t} {freed x1} (Hfreed : ∀ a0 a1 a2, Grows s0 a2 → Grows s0 (freed a0 a1 a2))
    (e : makeRoom freed x1 x2 = some t) (h : Grows s0 x2) : Grows s0 t := by
  induction x1 generalizing x2 with
  | zero =>
    unfold makeRoom at e
    split at e
    · cases e; exact h
    · cases e
  | succ n ih =>
    unfold makeRoom at e
    split at e
    · cases e; exact h
    · split at e
      · exact ih e (dropCopy_grows _ h)
      · split at e
        · exact ih e (reclaim_grows _ Hfreed (removePrefix_grows _ h))
        · cases e

theorem takeMap_grows {s0 s : State} (t) (k) (got) (h : Grows s0 s) : Grows s0 (takeMap t k got s).2 := by
  unfold takeMap
  try dsimp only
  exact freeOf_grows _ _ (takeExtents_grows _ _ _ (freeOf_grows _ _ (by assumption)))

theorem newSpare_grows {s0 s : State} (d) (h : Grows s0 s) : Grows s0 (newSpare d s).2 := by
  unfold newSpare
  try dsimp only
  exact newDesc_grows _ (takeMap_grows _ _ _ (takeExtents_grows _ _ _ (by assumption)))

theorem publishPage_grows {s0 s : State} {t} {n slot} (e : publishPage n slot s = some t) (h : Grows s0 s) : Grows s0 t := by
  unfold publishPage at e
  try dsimp only at e
  split at e
  · cases e
  · split at e
    · cases e
    · split at e
      · injection e with e
        subst e
        exact updSeq_grows _ _ (by assumption)
      · split at e
        · injection e with e
          subst e
          exact raise_grows _ (updSeq_grows _ _ (by assumption))
        · injection e with e
          subst e
          refine updSeq_grows _ _ ?_
          refine Grows.foldl (fun _ _ _ => ?_) ?_
          · refine forDike_grows _ _ _ ?_ ?_
            · intro _ _
              exact incRef_grows _ (updDesc_grows _ _ (by assumption))
            · assumption
          · exact Grows.put (by assumption) rfl

theorem publishAll_grows {s0 x3 : State} (n) (slot) (x2) (h : Grows s0 x3) : Grows s0 (publishAll n slot x2 x3) := by
  induction x2 generalizing x3 with
  | zero => exact h
  | succ k ih =>
    unfold publishAll
    split
    · exact h
    · exact ih (publishPage_grows (by assumption) h)

theorem putSeq_grows {s0 s : State} (slot) (e_) (h : Grows s0 s) : Grows s0 (putSeq slot e_ s) := by
  unfold putSeq
  try dsimp only
  exact Grows.put (by assumption) rfl

theorem releaseLayer_grows {s0 s : State} (slot) (p) (h : Grows s0 s) : Grows s0 (releaseLayer slot p s) := by
  unfold releaseLayer
  try dsimp only
  refine Grows.foldl (fun _ _ _ => ?_) ?_
  · exact decRef_grows _ (by assumption)
  · refine Grows.foldl (fun _ _ _ => ?_) ?_
    · exact decRef_grows _ (letGo_grows _ _ (by assumption))
    · assumption

theorem releasePages_grows {s0 s : State} (slot) (h : Grows s0 s) : Grows s0 (releasePages slot s) := by
  unfold releasePages
  try dsimp only
  split
  · assumption
  · refine updSeq_grows _ _ ?_
    refine Grows.foldl (fun _ _ _ => ?_) ?_
    · exact releaseLayer_grows _ _ (by assumption)
    · assumption

theorem returnLayer_grows {s0 s : State} (slot) (l) (h : Grows s0 s) : Grows s0 (returnLayer slot l s) := by
  unfold returnLayer
  try dsimp only
  split
  · assumption
  · refine Grows.foldl (fun _ _ _ => ?_) ?_
    · exact decRef_grows _ (by assumption)
    · exact fitLines_grows _ _ (updLayer_grows _ _ _ (by assumption))

theorem returnPinned_grows {s0 s : State} (h : Grows s0 s) : Grows s0 (returnPinned s) := by
  unfold returnPinned
  try dsimp only
  refine Grows.foldl (fun _ _ _ => ?_) ?_
  · split
    · refine Grows.foldl (fun _ _ _ => ?_) ?_
      · exact returnLayer_grows _ _ (by assumption)
      · assumption
    · assumption
  · assumption

theorem returnSpare_grows {s0 s : State} (i) (h : Grows s0 s) : Grows s0 (returnSpare i s) := by
  unfold returnSpare
  try dsimp only
  split
  · assumption
  · split
    · exact makeSpare_grows _ (updDesc_grows _ _ (by assumption))
    · assumption

theorem sealLate_grows {s0 s : State} (n) (h : Grows s0 s) : Grows s0 (sealLate n s) := by
  unfold sealLate
  try dsimp only
  exact bump_grows _ _ (raiseTimes_grows _ _ (by assumption))

theorem switchSealed_grows {s0 s : State} (i) (h : Grows s0 s) : Grows s0 (switchSealed i s) := by
  unfold switchSealed
  try dsimp only
  exact updDesc_grows _ _ (by assumption)

theorem takeMaps_grows {s0 x4 : State} (t) (k) (x2) (x3) (h : Grows s0 x4) : Grows s0 (takeMaps t k x2 x3 x4).2 := by
  induction x2 generalizing x3 x4 with
  | zero =>
    unfold takeMaps
    try dsimp only
    assumption
  | succ n ih =>
    unfold takeMaps
    try dsimp only
    apply ih
    exact takeMap_grows _ _ _ (by assumption)

theorem takeLayer_grows {s0 s : State} (slot) (l) (p) (t) (h_) (e_)
    (h : Grows s0 s) : Grows s0 (takeLayer slot l p t h_ e_ s) := by
  unfold takeLayer
  try dsimp only
  exact Grows.put (updLayer_grows _ _ _ (takeMaps_grows _ _ _ _ (newSpare_grows _ (newSpare_grows _
    (by assumption))))) rfl

theorem takeFreeboard_grows {s0 s : State} (slot) (p) (t) (h_) (h : Grows s0 s) : Grows s0 (takeFreeboard slot p t h_ s) := by
  unfold takeFreeboard
  try dsimp only
  split
  · assumption
  · refine Grows.foldl (fun _ _ _ => ?_) ?_
    · exact fitLines_grows _ _ (takeLayer_grows _ _ _ _ _ _ (by assumption))
    · exact updSeq_grows _ _ (takeLines_grows _ (takeExtents_grows _ _ _ (by assumption)))

theorem countVerdict_grows {s0 s : State} (tenant) (outcome) (h : Grows s0 s) : Grows s0 (countVerdict tenant outcome s) := by
  unfold countVerdict
  try dsimp only
  split
  · exact bump_grows _ _ (sEvent_grows _ _ _ _ (setAcct_grows _ _ (by assumption)))
  · split
    · exact bump_grows _ _ (sEvent_grows _ _ _ _ (setAcct_grows _ _ (by assumption)))
    · assumption

theorem forget_grows {s0 s : State} (slot) (h : Grows s0 s) : Grows s0 (forget slot s) := by
  unfold forget
  try dsimp only
  refine Grows.put ?_ rfl
  refine reclaim_grows _ ?_ ?_
  · intro _ _ _ _
    assumption
  · exact Grows.put (releasePages_grows _ (by assumption)) rfl

theorem newHandle_grows {s0 s : State} (h : Grows s0 s) : Grows s0 (newHandle s).2 := by
  unfold newHandle
  try dsimp only
  split
  · dsimp only
    exact freeSlot_grows _ _ (by assumption)
  · dsimp only
    exact Grows.put (freeSlot_grows _ _ (by assumption)) rfl

theorem sendVerdict_grows {s0 s : State} (q) (a) (handle) (ring)
    (h : Grows s0 s) : Grows s0 (sendVerdict q a handle ring s) := by
  unfold sendVerdict
  try dsimp only
  exact sendMsg_grows _ _ _ _ _ (countVerdict_grows _ _ (by assumption))

theorem testFreeboard_grows {s0 s : State} {t} {n take} (Htake : ∀ a0, Grows s0 a0 → Grows s0 (take a0))
    (e : testFreeboard s n take = .ok t) (h : Grows s0 s) : Grows s0 t := by
  unfold testFreeboard at e
  try dsimp only at e
  split at e
  · injection e with e
    subst e
    refine makeRoom_grows ?_ (by assumption) ?_
    · intro _ _ _ _
      assumption
    · apply Htake
      assumption
  · split at e
    · cases e
    · cases e

theorem withPages_grows {s0 s : State} (slot) (e_) (p) (t) (shared)
    (h : Grows s0 s) : Grows s0 (withPages slot e_ p t shared s) := by
  unfold withPages
  try dsimp only
  refine takeFreeboard_grows _ _ _ _ ?_
  refine Grows.foldl (fun _ _ _ => ?_) ?_
  · refine Grows.foldl (fun _ _ _ => ?_) ?_
    · refine forDike_grows _ _ _ ?_ ?_
      · intro _ _
        exact incRef_grows _ (by assumption)
      · assumption
    · assumption
  · exact putSeq_grows _ _ (by assumption)

theorem offerNew_take_grows {s0 : State} (s n slot handle adapter q z) :
    ∀ t, Grows s0 t → Grows s0 ((offerNew s n slot handle adapter q z).take t) := by
  intro t h
  unfold offerNew
  dsimp only
  exact withPages_grows _ _ _ _ _ h

theorem offerFork_take_grows {s0 : State} (s n slot handle parent q) :
    ∀ t, Grows s0 t → Grows s0 ((offerFork s n slot handle parent q).take t) := by
  intro t h
  refine takeFreeboard_grows _ _ _ _ ?_
  exact Grows.foldl (fun _ _ h => Grows.foldl (fun _ _ h => forDike_grows _ _ _ (fun _ h => incRef_grows _ h) h) h)
    (putSeq_grows _ _ h)

theorem testQuery_grows {s0 s : State} {t} {n q kept} (e : testQuery n q kept s = .ok t) (h : Grows s0 s) : Grows s0 t.1 := by
  unfold testQuery at e
  dsimp only at e
  split at e
  · cases e
  · split at e
    · cases e
    · split at e
      · cases e
      · split at e
        · cases e
        · split at e
          · cases e
          · split at e
            · cases e
            · cases e
              refine testFreeboard_grows ?_ (by assumption) ?_
              · intro a ha
                split
                · exact offerFork_take_grows _ _ _ _ _ _ _ ha
                · exact offerNew_take_grows _ _ _ _ _ _ _ _ ha
              · split
                · exact h
                · exact newHandle_grows h

theorem chargeFill_grows {s0 s : State} (context) (h : Grows s0 s) : Grows s0 (chargeFill context s) := by
  unfold chargeFill
  try dsimp only
  split
  · split
    · exact charge_grows _ _ _ (charge_grows _ _ _ (by assumption))
    · assumption
  · assumption

theorem mdlResult_grows {s0 s : State} (cmd) (cause) (object) (h : Grows s0 s) : Grows s0 (mdlResult cmd cause object s) := by
  unfold mdlResult
  try dsimp only
  exact Grows.put (by assumption) rfl

theorem mdlRefuse_grows {s0 s : State} (t) (cmd) (cause) (object)
    (h : Grows s0 s) : Grows s0 (mdlRefuse t cmd cause object s) := by
  unfold mdlRefuse
  try dsimp only
  exact refusedWith_grows _ _ (raise_grows _ (bump_grows _ _ (mdlResult_grows _ _ _ (by assumption))))

theorem dropCurrent_grows {s0 s : State} (tenant) (context) (h : Grows s0 s) : Grows s0 (dropCurrent tenant context s) := by
  unfold dropCurrent
  try dsimp only
  exact Grows.put (by assumption) rfl

theorem doRegisterAdapter_grows {s0 s : State} (t) (bs) (h : Grows s0 s) : Grows s0 (doRegisterAdapter t bs s) := by
  unfold doRegisterAdapter
  try dsimp only
  split
  · exact mdlRefuse_grows _ _ _ _ (by assumption)
  · exact doneWith_grows _ _ _ (mdlResult_grows _ _ _ (Grows.put (dropCurrent_grows _ _ (by assumption)) rfl))

theorem doRegisterContext_grows {s0 s : State} (t) (bs) (h : Grows s0 s) : Grows s0 (doRegisterContext t bs s) := by
  unfold doRegisterContext
  try dsimp only
  split
  · exact mdlRefuse_grows _ _ _ _ (by assumption)
  · exact done_grows _ (mdlResult_grows _ _ _ (Grows.put (by assumption) rfl))

theorem freeContext_grows {s0 s : State} (i) (h : Grows s0 s) : Grows s0 (freeContext i s) := by
  unfold freeContext
  try dsimp only
  exact Grows.put (by assumption) rfl

theorem retireContext_grows {s0 s : State} (i) (h : Grows s0 s) : Grows s0 (retireContext i s) := by
  unfold retireContext
  try dsimp only
  exact Grows.put (by assumption) rfl

theorem doRetireContext_grows {s0 s : State} (t) (i) (h : Grows s0 s) : Grows s0 (doRetireContext t i s) := by
  unfold doRetireContext
  try dsimp only
  split
  · exact mdlRefuse_grows _ _ _ _ (by assumption)
  · split
    · exact done_grows _ (freeContext_grows _ (mdlResult_grows _ _ _ (by assumption)))
    · exact done_grows _ (retireContext_grows _ (mdlResult_grows _ _ _ (by assumption)))
    · exact done_grows _ (mdlResult_grows _ _ _ (by assumption))

theorem doWithdrawAdapter_grows {s0 s : State} (t) (tenant) (context)
    (h : Grows s0 s) : Grows s0 (doWithdrawAdapter t tenant context s) := by
  unfold doWithdrawAdapter
  try dsimp only
  split
  · exact mdlRefuse_grows _ _ _ _ (by assumption)
  · exact done_grows _ (mdlResult_grows _ _ _ (dropCurrent_grows _ _ (by assumption)))

theorem execContextFillComplete_grows {s0 s : State} {t} {context}
    (e : execContextFillComplete context s = .next t) (h : Grows s0 s) : Grows s0 t := by
  unfold execContextFillComplete at e
  try dsimp only at e
  injection e with e
  subst e
  exact Grows.put (chargeFill_grows _ (by assumption)) rfl

theorem freeRetired_grows {s0 s : State} (h : Grows s0 s) : Grows s0 (freeRetired s) := by
  unfold freeRetired
  try dsimp only
  refine Grows.foldl (fun _ _ _ => ?_) ?_
  · exact freeContext_grows _ (by assumption)
  · assumption

theorem readyContexts_grows {s0 s : State} (h : Grows s0 s) : Grows s0 (readyContexts s) := by
  unfold readyContexts
  try dsimp only
  exact Grows.put (by assumption) rfl

theorem retireVersions_grows {s0 s : State} (h : Grows s0 s) : Grows s0 (retireVersions s) := by
  unfold retireVersions
  try dsimp only
  refine raiseTimes_grows _ _ ?_
  refine Grows.foldl (fun _ _ _ => ?_) ?_
  · exact Grows.put (by assumption) rfl
  · assumption

theorem noteElems_grows {s0 s : State} (es) (h : Grows s0 s) : Grows s0 (noteElems es s) := by
  unfold noteElems
  try dsimp only
  exact bump_grows _ _ (raiseTimes_grows _ _ (bump_grows _ _ (raiseTimes_grows _ _ (by assumption))))

theorem placedOwn_grows {s0 s : State} (items) (h : Grows s0 s) : Grows s0 (placedOwn items s).2 := by
  unfold placedOwn
  try dsimp only
  split
  · exact violate_grows (by assumption)
  · assumption

theorem leaseItems_grows {s0 s : State} (n) (items) (h : Grows s0 s) : Grows s0 (leaseItems n items s) := by
  unfold leaseItems
  try dsimp only
  refine Grows.foldl (fun _ _ _ => ?_) ?_
  · exact leaseDesc_grows _ _ (by assumption)
  · assumption

theorem buildStep_grows {s0 s : State} (n) (h : Grows s0 s) : Grows s0 (buildStep n s) := by
  unfold buildStep
  try dsimp only
  exact Grows.put (bump_grows _ _ (leaseItems_grows _ _ (placedOwn_grows _ (by assumption)))) rfl

end Sys2Proof.Machine
end

