-- ==== Sys2Proof/Laws/GrowsSluice.lean ====
section
/-! SUPPORT. Each operation lets grow what Safety.Grows names: the sluice, the exchange, fragments, tiers and work.
`f_grows`: if `s` has grown from `s0`, so has what `f` makes of `s`. -/

namespace Sys2Proof.Machine

open Sys2Proof.Safety

theorem addBatch_grows {s0 s : State} (r) (h : Grows s0 s) : Grows s0 (addBatch r s) := by
  unfold addBatch
  try dsimp only
  exact Grows.put (by assumption) rfl

theorem ackLeaving_grows {s0 s : State} (keeper) (handle) (pos)
    (h : Grows s0 s) : Grows s0 (ackLeaving keeper handle pos s) := by
  unfold ackLeaving
  try dsimp only
  refine Grows.put ?_ rfl
  refine Grows.foldl (fun _ _ _ => ?_) ?_
  · exact addBatch_grows _ (by assumption)
  · assumption

theorem updOwned_grows {s0 s : State} (slot) (f) (h : Grows s0 s) : Grows s0 (updOwned slot f s) := by
  unfold updOwned
  try dsimp only
  exact Grows.put (by assumption) rfl

theorem addNotice_grows {s0 s : State} (e_) (kind) (cause) (refStep)
    (h : Grows s0 s) : Grows s0 (addNotice e_ kind cause refStep s) := by
  unfold addNotice
  try dsimp only
  exact addBatch_grows _ (by assumption)

theorem deliverToken_grows {s0 s : State} (slot) (e_) (o) (pos) (token) (promised)
    (h : Grows s0 s) : Grows s0 (deliverToken slot e_ o pos token promised s) := by
  unfold deliverToken
  try dsimp only
  split
  · assumption
  · split
    · exact addNotice_grows _ _ _ _ (updSeq_grows _ _ (addBatch_grows _ (by assumption)))
    · exact updSeq_grows _ _ (addBatch_grows _ (by assumption))

theorem ackToken_grows {s0 s : State} (slot) (e_) (o) (pos) (h : Grows s0 s) : Grows s0 (ackToken slot e_ o pos s) := by
  unfold ackToken
  try dsimp only
  split
  · assumption
  · split
    · exact updOwned_grows _ _ (by assumption)
    · exact deliverToken_grows _ _ _ _ _ _ (updOwned_grows _ _ (by assumption))

theorem addWait_grows {s0 s : State} (p) (h : Grows s0 s) : Grows s0 (addWait p s) := by
  unfold addWait
  try dsimp only
  exact Grows.put (by assumption) rfl

theorem journalMsg_grows {s0 s : State} (action) (tenant) (source) (sseq) (bytes)
    (h : Grows s0 s) : Grows s0 (journalMsg action tenant source sseq bytes s) := by
  unfold journalMsg
  try dsimp only
  split
  · split
    · exact journal_grows _ _ _ _ _ _ (Grows.put (by assumption) rfl)
    · exact Grows.put (by assumption) rfl
  · exact journal_grows _ _ _ _ _ _ (Grows.put (by assumption) rfl)

theorem noteFirst_grows {s0 s : State} (source) (sseq) (h : Grows s0 s) : Grows s0 (noteFirst source sseq s) := by
  unfold noteFirst
  try dsimp only
  split
  · assumption
  · exact Grows.put (by assumption) rfl

theorem consumeNow_grows {s0 s : State} (tenant) (source) (sseq) (bytes)
    (h : Grows s0 s) : Grows s0 (consumeNow tenant source sseq bytes s) := by
  unfold consumeNow
  try dsimp only
  exact journalMsg_grows _ _ _ _ _ (noteFirst_grows _ _ (by assumption))

theorem consumeUnnumbered_grows {s0 s : State} (tenant) (source) (bytes)
    (h : Grows s0 s) : Grows s0 (consumeUnnumbered tenant source bytes s) := by
  unfold consumeUnnumbered
  try dsimp only
  exact journalMsg_grows _ _ _ _ _ (by assumption)

theorem deliverHeld_grows {s0 s : State} (slot) (h : Grows s0 s) : Grows s0 (deliverHeld slot s) := by
  unfold deliverHeld
  try dsimp only
  split
  · refine Grows.foldl (fun _ _ _ => ?_) ?_
    · exact ackToken_grows _ _ _ _ (by assumption)
    · exact updOwned_grows _ _ (by assumption)
  · assumption

theorem setRec_grows {s0 s : State} (slot) (r) (h : Grows s0 s) : Grows s0 (setRec slot r s) := by
  unfold setRec
  try dsimp only
  exact updSeq_grows _ _ (Grows.put (by assumption) rfl)

theorem enterOrphan_grows {s0 s : State} (slot) (h : Grows s0 s) : Grows s0 (enterOrphan slot s) := by
  unfold enterOrphan
  try dsimp only
  split
  · exact bump_grows _ _ (raise_grows _ (addNotice_grows _ _ _ _ (updSeq_grows _ _ (setRec_grows _ _ (by assumption)))))
  · assumption

theorem execRehomeWaitExpired_grows {s0 s : State} {t} {slot}
    (e : execRehomeWaitExpired slot s = .next t) (h : Grows s0 s) : Grows s0 t := by
  unfold execRehomeWaitExpired at e
  try dsimp only at e
  split at e
  · split at e
    · split at e
      · injection e with e
        subst e
        exact updOwned_grows _ _ (by assumption)
      · injection e with e
        subst e
        assumption
    · injection e with e
      subst e
      assumption
  · injection e with e
    subst e
    assumption

theorem resumeWait_grows {s0 s : State} (slot) (e_) (h : Grows s0 s) : Grows s0 (resumeWait slot e_ s) := by
  unfold resumeWait
  try dsimp only
  split
  · assumption
  · exact addWait_grows _ (by assumption)

theorem execRehomingTimeout_grows {s0 s : State} {t} {slot}
    (e : execRehomingTimeout slot s = .next t) (h : Grows s0 s) : Grows s0 t := by
  unfold execRehomingTimeout at e
  try dsimp only at e
  split at e
  · split at e
    · injection e with e
      subst e
      exact resumeWait_grows _ _ (setNow_grows _ (by assumption))
    · injection e with e
      subst e
      assumption
  · injection e with e
    subst e
    assumption

theorem execReissueAckTimeout_grows {s0 s : State} {t} {slot}
    (e : execReissueAckTimeout slot s = .next t) (h : Grows s0 s) : Grows s0 t := by
  unfold execReissueAckTimeout at e
  try dsimp only at e
  split at e
  · split at e
    · injection e with e
      subst e
      exact enterOrphan_grows _ (setNow_grows _ (by assumption))
    · injection e with e
      subst e
      assumption
  · injection e with e
    subst e
    assumption

theorem sendSlu_grows {s0 s : State} (dest) (h_) (body) (h : Grows s0 s) : Grows s0 (sendSlu dest h_ body s) := by
  unfold sendSlu
  try dsimp only
  exact sendMsg_grows _ _ _ _ _ (takeSseq_grows (by assumption))

theorem sendState_grows {s0 s : State} (dest) (h_) (mid) (r) (h : Grows s0 s) : Grows s0 (sendState dest h_ mid r s) := by
  unfold sendState
  try dsimp only
  refine Grows.foldl (fun _ _ _ => ?_) ?_
  · exact sendSlu_grows _ _ _ (by assumption)
  · assumption

theorem forwardTail_grows {s0 s : State} (slot) (h : Grows s0 s) : Grows s0 (forwardTail slot s) := by
  unfold forwardTail
  try dsimp only
  split
  · split
    · split
      · assumption
      · exact sendState_grows _ _ _ _ (setRec_grows _ _ (by assumption))
    · assumption
  · assumption

theorem journalWait_grows {s0 s : State} (p) (h : Grows s0 s) : Grows s0 (journalWait p s) := by
  unfold journalWait
  try dsimp only
  split
  · exact journalMsg_grows _ _ _ _ _ (by assumption)
  · exact journalMsg_grows _ _ _ _ _ (by assumption)
  · split
    · exact journalMsg_grows _ _ _ _ _ (by assumption)
    · assumption

theorem keepGrant_grows {s0 s : State} (m) (h_) (h : Grows s0 s) : Grows s0 (keepGrant m h_ s) := by
  unfold keepGrant
  try dsimp only
  split
  · exact Grows.put (by assumption) rfl
  · exact addWait_grows _ (by assumption)

theorem misdirect_grows {s0 s : State} (port) (h : Grows s0 s) : Grows s0 (misdirect port s) := by
  unfold misdirect
  try dsimp only
  exact raise_grows _ (sEvent_grows _ _ _ _ (setPort_grows _ _ (by assumption)))

theorem sluIn_grows {s0 s : State} (kind) (mine) (act) (m)
    (Hact : ∀ a0 a1, Grows s0 a1 → Grows s0 (act a0 a1)) (h : Grows s0 s) : Grows s0 (sluIn kind mine act m s) := by
  unfold sluIn
  try dsimp only
  split
  · assumption
  · split
    · exact raise_grows _ (by assumption)
    · split
      · exact raise_grows _ (by assumption)
      · split
        · exact misdirect_grows _ (by assumption)
        · apply Hact
          split
          · exact noteFirst_grows _ _ (by assumption)
          · exact consumeNow_grows _ _ _ _ (by assumption)

theorem updRec_grows {s0 s : State} (slot) (f) (h : Grows s0 s) : Grows s0 (updRec slot f s) := by
  unfold updRec
  try dsimp only
  split
  · assumption
  · exact setRec_grows _ _ (by assumption)

theorem sendReject_grows {s0 s : State} (dest) (h_) (h : Grows s0 s) : Grows s0 (sendReject dest h_ s) := by
  unfold sendReject
  try dsimp only
  exact sendSlu_grows _ _ _ (by assumption)

theorem refuseStale_grows {s0 s : State} (source) (h_) (h : Grows s0 s) : Grows s0 (refuseStale source h_ s) := by
  unfold refuseStale
  try dsimp only
  exact sendReject_grows _ _ (raise_grows _ (bump_grows _ _ (by assumption)))

theorem toKeeper_grows {s0 s : State} (kind) (tail) (act) (m)
    (Hact : ∀ a0 a1 a2 a3 a4, Grows s0 a4 → Grows s0 (act a0 a1 a2 a3 a4)) (h : Grows s0 s) :
    Grows s0 (toKeeper kind tail act m s) := by
  unfold toKeeper
  try dsimp only
  refine sluIn_grows _ _ _ _ ?_ ?_
  · intro _ _ _
    split
    · exact raise_grows _ (by assumption)
    · split
      · exact raise_grows _ (by assumption)
      · split
        · apply Hact
          split
          · exact updRec_grows _ _ (by assumption)
          · assumption
        · split
          · apply Hact
            assumption
          · exact refuseStale_grows _ _ (by assumption)
  · assumption

theorem keeperRelease_grows {s0 s : State} (m) (h : Grows s0 s) : Grows s0 (keeperRelease m s) := by
  unfold keeperRelease
  try dsimp only
  refine toKeeper_grows _ _ _ _ ?_ ?_
  · intro _ _ _ _ _ _
    exact addWait_grows _ (by assumption)
  · assumption

theorem setHist_grows {s0 s : State} (slot) (h_) (h : Grows s0 s) : Grows s0 (setHist slot h_ s) := by
  unfold setHist
  try dsimp only
  exact Grows.put (by assumption) rfl

theorem takeHistory_grows {s0 s : State} (slot) (h_) (st) (h : Grows s0 s) : Grows s0 (takeHistory slot h_ st s) := by
  unfold takeHistory
  try dsimp only
  split
  · split
    · split
      · exact updRec_grows _ _ (updSeq_grows _ _ (setHist_grows _ _ (by assumption)))
      · assumption
    · refine resumeWait_grows _ _ ?_
      split
      · exact updRec_grows _ _ (updSeq_grows _ _ (setHist_grows _ _ (by assumption)))
      · assumption
  · split
    · exact updRec_grows _ _ (updSeq_grows _ _ (setHist_grows _ _ (by assumption)))
    · assumption

theorem keeperStatePush_grows {s0 s : State} (m) (h : Grows s0 s) : Grows s0 (keeperStatePush m s) := by
  unfold keeperStatePush
  try dsimp only
  refine toKeeper_grows _ _ _ _ ?_ ?_
  · intro _ _ _ _ _ _
    split
    · exact takeHistory_grows _ _ _ (by assumption)
    · split
      · exact forwardTail_grows _ (updRec_grows _ _ (by assumption))
      · exact updRec_grows _ _ (by assumption)
  · assumption

theorem memberRelease_grows {s0 s : State} (m) (h : Grows s0 s) : Grows s0 (memberRelease m s) := by
  unfold memberRelease
  try dsimp only
  refine sluIn_grows _ _ _ _ ?_ ?_
  · intro _ _ _
    split
    · exact raise_grows _ (by assumption)
    · split
      · exact addWait_grows _ (updSeq_grows _ _ (by assumption))
      · exact refuseStale_grows _ _ (by assumption)
  · assumption

theorem noteAckTo_grows {s0 s : State} (dest) (position) (h_) (h : Grows s0 s) : Grows s0 (noteAckTo dest position h_ s) := by
  unfold noteAckTo
  try dsimp only
  exact sendSlu_grows _ _ _ (by assumption)

theorem ownerSend_grows {s0 s : State} (slot) (kind) (flags) (body)
    (h : Grows s0 s) : Grows s0 (ownerSend slot kind flags body s) := by
  unfold ownerSend
  try dsimp only
  split
  · exact sendSlu_grows _ _ _ (updOwned_grows _ _ (by assumption))
  · assumption

theorem onReissue_grows {s0 s : State} (m) (h_) (h : Grows s0 s) : Grows s0 (onReissue m h_ s) := by
  unfold onReissue
  try dsimp only
  split
  · exact raise_grows _ (by assumption)
  · split
    · exact ownerSend_grows _ _ _ _ (deliverHeld_grows _ (updOwned_grows _ _ (updSeq_grows _ _ (by assumption))))
    · exact deliverHeld_grows _ (updOwned_grows _ _ (updSeq_grows _ _ (by assumption)))

theorem onGrant_grows {s0 s : State} (m) (h : Grows s0 s) : Grows s0 (onGrant m s) := by
  unfold onGrant
  try dsimp only
  refine sluIn_grows _ _ _ _ ?_ ?_
  · intro _ _ _
    split
    · exact onReissue_grows _ _ (by assumption)
    · exact keepGrant_grows _ _ (by assumption)
  · assumption

theorem reachHeld_grows {s0 s : State} (slot) (r) (h : Grows s0 s) : Grows s0 (reachHeld slot r s) := by
  unfold reachHeld
  try dsimp only
  split
  · exact bump_grows _ _ (updRec_grows _ _ (by assumption))
  · exact updRec_grows _ _ (by assumption)

theorem onGrantAck_grows {s0 s : State} (m) (h : Grows s0 s) : Grows s0 (onGrantAck m s) := by
  unfold onGrantAck
  try dsimp only
  refine toKeeper_grows _ _ _ _ ?_ ?_
  · intro _ _ _ _ _ _
    split
    · exact reachHeld_grows _ _ (by assumption)
    · exact reachHeld_grows _ _ (by assumption)
    · exact updRec_grows _ _ (by assumption)
    · assumption
  · assumption

theorem onHistoryQuery_grows {s0 s : State} (m) (h : Grows s0 s) : Grows s0 (onHistoryQuery m s) := by
  unfold onHistoryQuery
  try dsimp only
  refine sluIn_grows _ _ _ _ ?_ ?_
  · intro _ _ _
    split
    · exact raise_grows _ (by assumption)
    · split
      · split
        · assumption
        · exact sendState_grows _ _ _ _ (updOwned_grows _ _ (by assumption))
      · exact raise_grows _ (by assumption)
  · assumption

theorem onNoteAck_grows {s0 s : State} (m) (h : Grows s0 s) : Grows s0 (onNoteAck m s) := by
  unfold onNoteAck
  try dsimp only
  refine sluIn_grows _ _ _ _ ?_ ?_
  · intro _ _ _
    split
    · split
      · exact ackLeaving_grows _ _ _ (by assumption)
      · exact raise_grows _ (by assumption)
    · split
      · exact ackToken_grows _ _ _ _ (updOwned_grows _ _ (by assumption))
      · exact raise_grows _ (by assumption)
  · assumption

theorem onPulse_grows {s0 s : State} (m) (h : Grows s0 s) : Grows s0 (onPulse m s) := by
  unfold onPulse
  try dsimp only
  refine toKeeper_grows _ _ _ _ ?_ ?_
  · intro _ _ _ _ _ _
    assumption
  · assumption

theorem onRecall_grows {s0 s : State} (m) (h : Grows s0 s) : Grows s0 (onRecall m s) := by
  unfold onRecall
  try dsimp only
  refine sluIn_grows _ _ _ _ ?_ ?_
  · intro _ _ _
    split
    · split
      · exact raise_grows _ (by assumption)
      · split
        · assumption
        · exact updOwned_grows _ _ (by assumption)
    · split
      · exact raise_grows _ (by assumption)
      · split
        · exact Grows.put (by assumption) rfl
        · exact Grows.put (by assumption) rfl
  · assumption

theorem toOwner_grows {s0 s : State} (kind) (exact_) (act) (m)
    (Hact : ∀ a0 a1 a2 a3, Grows s0 a3 → Grows s0 (act a0 a1 a2 a3)) (h : Grows s0 s) :
    Grows s0 (toOwner kind exact_ act m s) := by
  unfold toOwner
  try dsimp only
  refine sluIn_grows _ _ _ _ ?_ ?_
  · intro _ _ _
    split
    · exact raise_grows _ (by assumption)
    · split
      · split
        · assumption
        · apply Hact
          exact updOwned_grows _ _ (by assumption)
      · exact raise_grows _ (by assumption)
  · assumption

theorem onReject_grows {s0 s : State} (m) (h : Grows s0 s) : Grows s0 (onReject m s) := by
  unfold onReject
  try dsimp only
  split
  · refine sluIn_grows _ _ _ _ ?_ ?_
    · intro _ _ _
      split
      · assumption
      · exact raise_grows _ (by assumption)
    · assumption
  · refine toOwner_grows _ _ _ _ ?_ ?_
    · intro _ _ _ _ _
      split
      · assumption
      · exact raise_grows _ (updOwned_grows _ _ (by assumption))
    · assumption

theorem onRelease_grows {s0 s : State} (m) (h : Grows s0 s) : Grows s0 (onRelease m s) := by
  unfold onRelease
  try dsimp only
  split
  · split
    · exact memberRelease_grows _ (by assumption)
    · exact keeperRelease_grows _ (by assumption)
  · exact keeperRelease_grows _ (by assumption)

theorem onTokenNote_grows {s0 s : State} (m) (h : Grows s0 s) : Grows s0 (onTokenNote m s) := by
  unfold onTokenNote
  try dsimp only
  refine toKeeper_grows _ _ _ _ ?_ ?_
  · intro _ _ _ _ _ _
    split
    · exact noteAckTo_grows _ _ _ (updSeq_grows _ _ (updRec_grows _ _ (setHist_grows _ _ (by assumption))))
    · split
      · exact noteAckTo_grows _ _ _ (by assumption)
      · assumption
  · assumption

theorem sendRecall_grows {s0 s : State} (slot) (dest) (epoch) (cause) (effective)
    (h : Grows s0 s) : Grows s0 (sendRecall slot dest epoch cause effective s) := by
  unfold sendRecall
  try dsimp only
  split
  · assumption
  · exact sendSlu_grows _ _ _ (by assumption)

theorem recallAll_grows {s0 s : State} (slot) (cause) (effective)
    (h : Grows s0 s) : Grows s0 (recallAll slot cause effective s) := by
  unfold recallAll
  try dsimp only
  split
  · assumption
  · split
    · refine sendRecall_grows _ _ _ _ _ ?_
      split
      · assumption
      · exact sendRecall_grows _ _ _ _ _ (by assumption)
    · split
      · assumption
      · exact sendRecall_grows _ _ _ _ _ (by assumption)

theorem sendGrant_grows {s0 s : State} (slot) (dest) (cause) (epoch) (effective) (from_)
    (h : Grows s0 s) : Grows s0 (sendGrant slot dest cause epoch effective from_ s) := by
  unfold sendGrant
  try dsimp only
  split
  · exact sendState_grows _ _ _ _ (by assumption)
  · assumption

theorem takeTail_grows {s0 s : State} (slot) (st) (h : Grows s0 s) : Grows s0 (takeTail slot st s) := by
  unfold takeTail
  try dsimp only
  exact updSeq_grows _ _ (updOwned_grows _ _ (by assumption))

theorem setChannel_grows {s0 s : State} (c) (ch) (h : Grows s0 s) : Grows s0 (setChannel c ch s) := by
  unfold setChannel
  try dsimp only
  exact writeMem_grows _ _ (Grows.put (by assumption) rfl)

theorem wrapWrite_grows {s0 s : State} (base) (size) (off) (bs) (h : Grows s0 s) : Grows s0 (wrapWrite base size off bs s) := by
  unfold wrapWrite
  try dsimp only
  exact writeMem_grows _ _ (writeMem_grows _ _ (by assumption))

theorem pushRecord_grows {s0 s : State} (c) (r) (h : Grows s0 s) : Grows s0 (pushRecord c r s) := by
  unfold pushRecord
  try dsimp only
  split
  · exact setChannel_grows _ _ (wrapWrite_grows _ _ _ _ (by assumption))
  · exact setChannel_grows _ _ (by assumption)

theorem toAccelerator_grows {s0 s : State} (r) (h : Grows s0 s) : Grows s0 (toAccelerator r s) := by
  unfold toAccelerator
  try dsimp only
  exact pushRecord_grows _ _ (freeOf_grows _ _ (by assumption))

theorem embedNext_grows {s0 s : State} (slot) (h : Grows s0 s) : Grows s0 (embedNext slot s) := by
  unfold embedNext
  try dsimp only
  split
  · split
    · assumption
    · refine updOwned_grows _ _ ?_
      refine Grows.foldl (fun _ _ _ => ?_) ?_
      · exact toAccelerator_grows _ (by assumption)
      · assumption
  · assumption

theorem takeOutput_grows {s0 s : State} (slot) (h_) (h : Grows s0 s) : Grows s0 (takeOutput slot h_ s) := by
  unfold takeOutput
  try dsimp only
  split
  · assumption
  · split
    · assumption
    · split
      · exact updSeq_grows _ _ (updOwned_grows _ _ (toAccelerator_grows _ (by assumption)))
      · exact updOwned_grows _ _ (toAccelerator_grows _ (by assumption))

theorem execAttentionOutput_grows {s0 s : State} {t} {h_}
    (e : execAttentionOutput h_ s = .next t) (h : Grows s0 s) : Grows s0 t := by
  unfold execAttentionOutput at e
  try dsimp only at e
  split at e
  · injection e with e
    subst e
    assumption
  · split at e
    · injection e with e
      subst e
      exact misdirect_grows _ (by assumption)
    · split at e
      · injection e with e
        subst e
        exact damageFound_grows _ _ (by assumption)
      · split at e
        · injection e with e
          subst e
          exact raise_grows _ (by assumption)
        · split at e
          · injection e with e
            subst e
            exact raise_grows _ (by assumption)
          · injection e with e
            subst e
            split
            · exact takeOutput_grows _ _ (consumeNow_grows _ _ _ _ (by assumption))
            · exact consumeNow_grows _ _ _ _ (by assumption)

theorem sendHidden_grows {s0 s : State} (slot) (firstPos) (raw)
    (h : Grows s0 s) : Grows s0 (sendHidden slot firstPos raw s) := by
  unfold sendHidden
  try dsimp only
  split
  · split
    · assumption
    · exact sendPieces_grows _ _ _ _ _ _ (countBlocks_grows _ (updOwned_grows _ _ (takeSseq_grows (by assumption))))
  · assumption

theorem keepLogits_grows {s0 s : State} (slot) (firstPos) (rows)
    (h : Grows s0 s) : Grows s0 (keepLogits slot firstPos rows s) := by
  unfold keepLogits
  try dsimp only
  split
  · split
    · exact Grows.put (by assumption) rfl
    · assumption
  · assumption

theorem takeRecord_grows {s0 s : State} (bs) (payload) (c) (h : Grows s0 s) : Grows s0 (takeRecord bs payload c s) := by
  unfold takeRecord
  try dsimp only
  split
  · exact raise_grows _ (by assumption)
  · split
    · exact raise_grows _ (by assumption)
    · split
      · assumption
      · split
        · exact sendHidden_grows _ _ _ (by assumption)
        · exact keepLogits_grows _ _ _ (by assumption)

theorem takeInbound_grows {s0 x2 : State} (c) (x1) (h : Grows s0 x2) : Grows s0 (takeInbound c x1 x2) := by
  induction x1 generalizing x2 with
  | zero => exact h
  | succ n ih =>
    unfold takeInbound
    dsimp only
    split
    · exact h
    · refine ih ?_
      split
      · exact takeRecord_grows _ _ _ (setChannel_grows _ _ h)
      · exact raise_grows _ (setChannel_grows _ _ h)

theorem execInHeadWrite_grows {s0 s : State} {t} {offsetNs channel head placed}
    (e : execInHeadWrite offsetNs channel head placed s = .next t) (h : Grows s0 s) : Grows s0 t := by
  unfold execInHeadWrite at e
  try dsimp only at e
  split at e
  · injection e with e
    subst e
    split
    · exact takeInbound_grows _ _ (setChannel_grows _ _ (place_grows _ (setNow_grows _ (by assumption))))
    · exact setChannel_grows _ _ (place_grows _ (setNow_grows _ (by assumption)))
  · injection e with e
    subst e
    assumption

theorem flushRecords_grows {s0 x2 : State} (c) (x1) (h : Grows s0 x2) : Grows s0 (flushRecords c x1 x2) := by
  induction x1 generalizing x2 with
  | zero =>
    unfold flushRecords
    try dsimp only
    assumption
  | succ n ih =>
    unfold flushRecords
    try dsimp only
    split
    · assumption
    · split
      · apply ih
        exact setChannel_grows _ _ (wrapWrite_grows _ _ _ _ (by assumption))
      · assumption

theorem execOutTailWrite_grows {s0 s : State} {t} {channel tail}
    (e : execOutTailWrite channel tail s = .next t) (h : Grows s0 s) : Grows s0 t := by
  unfold execOutTailWrite at e
  try dsimp only at e
  split at e
  · injection e with e
    subst e
    exact flushRecords_grows _ _ (setChannel_grows _ _ (by assumption))
  · injection e with e
    subst e
    assumption

theorem ownerStatePush_grows {s0 s : State} (m) (h : Grows s0 s) : Grows s0 (ownerStatePush m s) := by
  unfold ownerStatePush
  try dsimp only
  refine sluIn_grows _ _ _ _ ?_ ?_
  · intro _ _ _
    split
    · split
      · exact raise_grows _ (by assumption)
      · split
        · assumption
        · exact embedNext_grows _ (takeTail_grows _ _ (by assumption))
    · split
      · exact Grows.put (by assumption) rfl
      · exact raise_grows _ (by assumption)
  · assumption

theorem onStatePush_grows {s0 s : State} (m) (h : Grows s0 s) : Grows s0 (onStatePush m s) := by
  unfold onStatePush
  try dsimp only
  split
  · exact keeperStatePush_grows _ (by assumption)
  · exact ownerStatePush_grows _ (by assumption)

theorem sendTail_grows {s0 s : State} (slot) (pos) (token) (h : Grows s0 s) : Grows s0 (sendTail slot pos token s) := by
  unfold sendTail
  try dsimp only
  split
  · exact ownerSend_grows _ _ _ _ (sendState_grows _ _ _ _ (by assumption))
  · assumption

theorem ownerToken_grows {s0 s : State} (slot) (token) (h : Grows s0 s) : Grows s0 (ownerToken slot token s) := by
  unfold ownerToken
  try dsimp only
  split
  · split
    · split
      · exact updOwned_grows _ _ (sendTail_grows _ _ _ (ownerSend_grows _ _ _ _ (updOwned_grows _ _ (updSeq_grows _ _
          (by assumption)))))
      · exact ownerSend_grows _ _ _ _ (updOwned_grows _ _ (updSeq_grows _ _ (by assumption)))
    · split
      · split
        · exact updOwned_grows _ _ (sendTail_grows _ _ _ (ownerSend_grows _ _ _ _ (updOwned_grows _ _ (updSeq_grows _ _
            (by assumption)))))
        · exact ownerSend_grows _ _ _ _ (updOwned_grows _ _ (updSeq_grows _ _ (by assumption)))
      · split
        · exact updOwned_grows _ _ (sendTail_grows _ _ _ (ownerSend_grows _ _ _ _ (updOwned_grows _ _ (updSeq_grows _ _
            (by assumption)))))
        · exact ownerSend_grows _ _ _ _ (updOwned_grows _ _ (updSeq_grows _ _ (by assumption)))
  · assumption

theorem setCoding_grows {s0 s : State} (i) (c) (h : Grows s0 s) : Grows s0 (setCoding i c s) := by
  unfold setCoding
  try dsimp only
  exact Grows.put (by assumption) rfl

theorem sendFrag_grows {s0 s : State} (dest) (i) (f) (h_) (h : Grows s0 s) : Grows s0 (sendFrag dest i f h_ s) := by
  unfold sendFrag
  try dsimp only
  exact sendPieces_grows _ _ _ _ _ _ (by assumption)

theorem startRebuild_grows {s0 s : State} (i) (c) (h : Grows s0 s) : Grows s0 (startRebuild i c s) := by
  unfold startRebuild
  try dsimp only
  refine Grows.foldl (fun _ _ _ => ?_) ?_
  · split
    · split
      · exact chargeTier_grows _ _ _ (setCoding_grows _ _ (by assumption))
      · assumption
    · split
      · assumption
      · exact sendFrag_grows _ _ _ _ (by assumption)
  · exact setCoding_grows _ _ (by assumption)

theorem losePage_grows {s0 s : State} (i) (h : Grows s0 s) : Grows s0 (losePage i s) := by
  unfold losePage
  try dsimp only
  refine Grows.foldl (fun _ _ _ => ?_) ?_
  · exact resumeWait_grows _ _ (by assumption)
  · refine Grows.foldl (fun _ _ _ => ?_) ?_
    · exact removePrefix_grows _ (by assumption)
    · exact updDesc_grows _ _ (by assumption)

theorem damagePage_grows {s0 s : State} (i) (h : Grows s0 s) : Grows s0 (damagePage i s) := by
  unfold damagePage
  try dsimp only
  split
  · assumption
  · split
    · assumption
    · split
      · split
        · exact startRebuild_grows _ _ (updDesc_grows _ _ (by assumption))
        · exact losePage_grows _ (by assumption)
      · exact losePage_grows _ (by assumption)

theorem noteReduced_grows {s0 s : State} (c) (h : Grows s0 s) : Grows s0 (noteReduced c s) := by
  unfold noteReduced
  try dsimp only
  split
  · exact Grows.put (raiseIf_grows _ _ (by assumption)) rfl
  · exact raiseIf_grows _ _ (by assumption)

theorem putFrag_grows {s0 s : State} (i) (f) (h : Grows s0 s) : Grows s0 (putFrag i f s) := by
  unfold putFrag
  try dsimp only
  split
  · assumption
  · split
    · exact sendFrag_grows _ _ _ _ (setCoding_grows _ _ (noteReduced_grows _ (by assumption)))
    · split
      · exact setCoding_grows _ _ (noteReduced_grows _ (by assumption))
      · exact raise_grows _ (decRef_grows _ (setCoding_grows _ _ (noteReduced_grows _ (by assumption))))

theorem execFragmentPutTimeout_grows {s0 s : State} {t} {desc frag}
    (e : execFragmentPutTimeout desc frag s = .next t) (h : Grows s0 s) : Grows s0 t := by
  unfold execFragmentPutTimeout at e
  try dsimp only at e
  split at e
  · injection e with e
    subst e
    assumption
  · injection e with e
    subst e
    split
    · exact putFrag_grows _ _ (by assumption)
    · assumption

theorem execRebuildTimeout_grows {s0 s : State} {t} {desc}
    (e : execRebuildTimeout desc s = .next t) (h : Grows s0 s) : Grows s0 t := by
  unfold execRebuildTimeout at e
  try dsimp only at e
  split at e
  · injection e with e
    subst e
    assumption
  · injection e with e
    subst e
    split
    · exact losePage_grows _ (raise_grows _ (setCoding_grows _ _ (by assumption)))
    · assumption

theorem fragAnswer_grows {s0 s : State} (dest) (kind) (status) (h_) (bytes)
    (h : Grows s0 s) : Grows s0 (fragAnswer dest kind status h_ bytes s) := by
  unfold fragAnswer
  try dsimp only
  exact sendFrag_grows _ _ _ _ (by assumption)

theorem fragIn_grows {s0 s : State} (kind) (act) (m)
    (Hact : ∀ a0 a1, Grows s0 a1 → Grows s0 (act a0 a1)) (h : Grows s0 s) : Grows s0 (fragIn kind act m s) := by
  unfold fragIn
  try dsimp only
  split
  · assumption
  · split
    · exact raise_grows _ (by assumption)
    · split
      · exact misdirect_grows _ (by assumption)
      · apply Hact
        exact consumeUnnumbered_grows _ _ _ (by assumption)

theorem sendFrees_grows {s0 s : State} (i) (c) (h : Grows s0 s) : Grows s0 (sendFrees i c s) := by
  unfold sendFrees
  try dsimp only
  refine Grows.foldl (fun _ _ _ => ?_) ?_
  · exact sendFrag_grows _ _ _ _ (by assumption)
  · assumption

theorem freeFragments_grows {s0 s : State} (i) (d) (h : Grows s0 s) : Grows s0 (freeFragments i d s) := by
  unfold freeFragments
  try dsimp only
  split
  · assumption
  · split
    · assumption
    · split
      · exact sendFrees_grows _ _ (Grows.put (by assumption) rfl)
      · exact setCoding_grows _ _ (by assumption)

theorem onFragmentAck_grows {s0 s : State} (m) (h : Grows s0 s) : Grows s0 (onFragmentAck m s) := by
  unfold onFragmentAck
  try dsimp only
  refine fragIn_grows _ _ _ ?_ ?_
  · intro _ _ _
    split
    · assumption
    · split
      · assumption
      · split
        · split
          · exact sendFrees_grows _ _ (Grows.put (by assumption) rfl)
          · exact setCoding_grows _ _ (by assumption)
        · split
          · exact putFrag_grows _ _ (setCoding_grows _ _ (by assumption))
          · assumption
  · assumption

theorem storeRebuilt_grows {s0 s : State} (i) (d) (c) (bs) (h : Grows s0 s) : Grows s0 (storeRebuilt i d c bs s) := by
  unfold storeRebuilt
  try dsimp only
  refine updDesc_grows _ _ (chargeTier_grows _ _ _ ?_)
  split
  · dsimp only
    exact takeExtents_grows _ _ _ (by assumption)
  · exact takeMap_grows _ _ _ (takeExtents_grows _ _ _ (by assumption))

theorem tryRebuild_grows {s0 s : State} (i) (h : Grows s0 s) : Grows s0 (tryRebuild i s) := by
  unfold tryRebuild
  try dsimp only
  split
  · split
    · assumption
    · split
      · assumption
      · split
        · exact blockDamaged_grows _ _ (by assumption)
        · refine bump_grows _ _ ?_
          refine storeRebuilt_grows _ _ _ _ ?_
          split
          · exact setCoding_grows _ _ (by assumption)
          · exact Grows.put (by assumption) rfl
  · assumption

theorem onFragmentData_grows {s0 s : State} (m) (h : Grows s0 s) : Grows s0 (onFragmentData m s) := by
  unfold onFragmentData
  try dsimp only
  refine fragIn_grows _ _ _ ?_ ?_
  · intro _ _ _
    split
    · assumption
    · split
      · assumption
      · split
        · assumption
        · exact tryRebuild_grows _ (setCoding_grows _ _ (by assumption))
  · assumption

theorem onFragmentFree_grows {s0 s : State} (m) (h : Grows s0 s) : Grows s0 (onFragmentFree m s) := by
  unfold onFragmentFree
  try dsimp only
  refine fragIn_grows _ _ _ ?_ ?_
  · intro _ _ _
    exact Grows.put (by assumption) rfl
  · assumption

theorem onFragmentGet_grows {s0 s : State} (m) (h : Grows s0 s) : Grows s0 (onFragmentGet m s) := by
  unfold onFragmentGet
  try dsimp only
  refine fragIn_grows _ _ _ ?_ ?_
  · intro _ _ _
    split
    · exact fragAnswer_grows _ _ _ _ _ (by assumption)
    · split
      · exact fragAnswer_grows _ _ _ _ _ (chargeTier_grows _ _ _ (by assumption))
      · exact fragAnswer_grows _ _ _ _ _ (blockDamaged_grows _ _ (fragAnswer_grows _ _ _ _ _ (chargeTier_grows _ _ _ (by assumption))))
  · assumption

theorem onFragmentLost_grows {s0 s : State} (m) (h : Grows s0 s) : Grows s0 (onFragmentLost m s) := by
  unfold onFragmentLost
  try dsimp only
  refine fragIn_grows _ _ _ ?_ ?_
  · intro _ _ _
    split
    · assumption
    · split
      · assumption
      · refine putFrag_grows _ _ ?_
        refine setCoding_grows _ _ ?_
        split
        · exact incRef_grows _ (by assumption)
        · assumption
  · assumption

theorem onFragmentPut_grows {s0 s : State} (m) (h : Grows s0 s) : Grows s0 (onFragmentPut m s) := by
  unfold onFragmentPut
  try dsimp only
  refine fragIn_grows _ _ _ ?_ ?_
  · intro _ _ _
    split
    · exact fragAnswer_grows _ _ _ _ _ (raise_grows _ (by assumption))
    · exact fragAnswer_grows _ _ _ _ _ (chargeTier_grows _ _ _ (Grows.put (by assumption) rfl))
  · assumption

theorem protectPages_grows {s0 s : State} (h : Grows s0 s) : Grows s0 (protectPages s) := by
  unfold protectPages
  try dsimp only
  refine Grows.foldl (fun _ _ _ => ?_) ?_
  · refine Grows.foldl (fun _ _ _ => ?_) ?_
    · refine Grows.foldl (fun _ _ _ => ?_) ?_
      · exact sendFrag_grows _ _ _ _ (by assumption)
      · assumption
    · exact Grows.put (decRef_grows _ (setCoding_grows _ _ (by assumption))) rfl
  · assumption

theorem putFrags_grows {s0 s : State} (i) (fs) (h : Grows s0 s) : Grows s0 (putFrags i fs s) := by
  unfold putFrags
  try dsimp only
  refine Grows.foldl (fun _ _ _ => ?_) ?_
  · exact putFrag_grows _ _ (by assumption)
  · assumption

theorem replaceGone_grows {s0 s : State} (h : Grows s0 s) : Grows s0 (replaceGone s) := by
  unfold replaceGone
  try dsimp only
  refine Grows.foldl (fun _ _ _ => ?_) ?_
  · split
    · assumption
    · refine putFrags_grows _ _ ?_
      refine setCoding_grows _ _ ?_
      split
      · exact incRef_grows _ (by assumption)
      · assumption
  · assumption

theorem startCoding_grows {s0 s : State} (i) (h : Grows s0 s) : Grows s0 (startCoding i s) := by
  unfold startCoding
  try dsimp only
  split
  · assumption
  · split
    · exact losePage_grows _ (blockDamaged_grows _ _ (by assumption))
    · exact putFrags_grows _ _ (setCoding_grows _ _ (incRef_grows _ (chargeTier_grows _ _ _ (by assumption))))

theorem startCodings_grows {s0 s : State} (h : Grows s0 s) : Grows s0 (startCodings s) := by
  unfold startCodings
  try dsimp only
  refine Grows.foldl (fun _ _ _ => ?_) ?_
  · exact startCoding_grows _ (by assumption)
  · assumption

theorem checkpointObjects_grows {s0 s : State} (tenant) (h : Grows s0 s) : Grows s0 (checkpointObjects tenant s) := by
  unfold checkpointObjects
  try dsimp only
  refine Grows.foldl (fun _ _ _ => ?_) ?_
  · split
    · assumption
    · exact updDesc_grows _ _ (raiseIf_grows _ _ (by assumption))
  · assumption

theorem cleanError_grows {s0 s : State} (i) (h : Grows s0 s) : Grows s0 (cleanError i s) := by
  unfold cleanError
  try dsimp only
  exact updDesc_grows _ _ (by assumption)

theorem damageObject_grows {s0 s : State} (i) (h : Grows s0 s) : Grows s0 (damageObject i s) := by
  unfold damageObject
  try dsimp only
  split
  · assumption
  · split
    · exact raise_grows _ (updDesc_grows _ _ (by assumption))
    · assumption

theorem startDemotion_grows {s0 s : State} (i) (d) (h : Grows s0 s) : Grows s0 (startDemotion i d s) := by
  unfold startDemotion
  try dsimp only
  split
  · assumption
  · exact incRef_grows _ (updDesc_grows _ _ (by assumption))

theorem demote_grows {s0 s : State} (i) (h : Grows s0 s) : Grows s0 (demote i s) := by
  unfold demote
  try dsimp only
  split
  · assumption
  · split
    · exact dropCopy_grows _ (by assumption)
    · exact startDemotion_grows _ _ (by assumption)

theorem letCopyGo_grows {s0 s : State} (i) (d) (h : Grows s0 s) : Grows s0 (letCopyGo i d s) := by
  unfold letCopyGo
  try dsimp only
  split
  · split
    · exact decRef_grows _ (updDesc_grows _ _ (by assumption))
    · exact updDesc_grows _ _ (by assumption)
  · exact dropCopy_grows _ (by assumption)

theorem dropBad_grows {s0 s : State} (h : Grows s0 s) : Grows s0 (dropBad s) := by
  unfold dropBad
  try dsimp only
  refine Grows.foldl (fun _ _ _ => ?_) ?_
  · split
    · assumption
    · split
      · exact startDemotion_grows _ _ (by assumption)
      · split
        · exact letCopyGo_grows _ _ (by assumption)
        · exact clearCopy_grows _ (by assumption)
  · assumption

theorem execGddr7Corrected_grows {s0 s : State} {t} (e : execGddr7Corrected s = .next t) (h : Grows s0 s) : Grows s0 t := by
  unfold execGddr7Corrected at e
  try dsimp only at e
  injection e with e
  subst e
  split
  · exact raise_grows _ (bump_grows _ _ (by assumption))
  · assumption

theorem refetchPieces_grows {s0 s : State} (context) (keys) (h : Grows s0 s) : Grows s0 (refetchPieces context keys s) := by
  unfold refetchPieces
  try dsimp only
  exact Grows.put (by assumption) rfl

theorem refetch_grows {s0 s : State} (context) (layer) (h : Grows s0 s) : Grows s0 (refetch context layer s) := by
  unfold refetch
  try dsimp only
  exact refetchPieces_grows _ _ (Grows.put (by assumption) rfl)

theorem refetchAdapter_grows {s0 s : State} (v) (h : Grows s0 s) : Grows s0 (refetchAdapter v s) := by
  unfold refetchAdapter
  try dsimp only
  split
  · assumption
  · exact refetchPieces_grows _ _ (by assumption)

theorem pageError_grows {s0 s : State} (i) (h : Grows s0 s) : Grows s0 (pageError i s) := by
  unfold pageError
  try dsimp only
  split
  · assumption
  · split
    · exact damageObject_grows _ (by assumption)
    · split
      · split
        · exact updDesc_grows _ _ (by assumption)
        · exact damagePage_grows _ (by assumption)
      · exact losePage_grows _ (by assumption)

theorem historyError_grows {s0 s : State} (slot) (copy) (h : Grows s0 s) : Grows s0 (historyError slot copy s) := by
  unfold historyError
  try dsimp only
  split
  · exact Grows.put (by assumption) rfl
  · assumption

theorem ueOutcome_grows {s0 s : State} (w) (h : Grows s0 s) : Grows s0 (ueOutcome w s) := by
  unfold ueOutcome
  try dsimp only
  split
  · exact addFault_grows _ (by assumption)
  · exact refetch_grows _ _ (by assumption)
  · exact refetchAdapter_grows _ (by assumption)
  · exact cleanError_grows _ (by assumption)
  · exact pageError_grows _ (by assumption)
  · exact historyError_grows _ _ (by assumption)
  · split
    · assumption
    · split
      · exact cleanError_grows _ (by assumption)
      · exact damageObject_grows _ (by assumption)
  · split
    · assumption
    · split
      · exact Grows.put (by assumption) rfl
      · assumption

theorem uncorrectable_grows {s0 s : State} (w) (h : Grows s0 s) : Grows s0 (uncorrectable w s) := by
  unfold uncorrectable
  try dsimp only
  exact ueOutcome_grows _ (raise_grows _ (bump_grows _ _ (by assumption)))

theorem execGddr7Uncorrectable_grows {s0 s : State} {t} {w}
    (e : execGddr7Uncorrectable w s = .next t) (h : Grows s0 s) : Grows s0 t := by
  unfold execGddr7Uncorrectable at e
  try dsimp only at e
  injection e with e
  subst e
  split
  · exact uncorrectable_grows _ (by assumption)
  · assumption

theorem noteLines_grows {s0 s : State} (lines) (most) (h : Grows s0 s) : Grows s0 (noteLines lines most s) := by
  unfold noteLines
  try dsimp only
  split
  · assumption
  · exact Grows.put (freeBelow_grows _ (by assumption)) rfl

theorem execPromotionComplete_grows {s0 s : State} {t} {desc}
    (e : execPromotionComplete desc s = .next t) (h : Grows s0 s) : Grows s0 t := by
  unfold execPromotionComplete at e
  try dsimp only at e
  split at e
  · injection e with e
    subst e
    assumption
  · injection e with e
    subst e
    split
    · split
      · exact damagePage_grows _ (blockDamaged_grows _ _ (clearCopy_grows _ (noteLines_grows _ _ (charge_grows _ _ _
          (charge_grows _ _ _ (by assumption))))))
      · exact updDesc_grows _ _ (noteLines_grows _ _ (charge_grows _ _ _ (charge_grows _ _ _ (by assumption))))
    · assumption

theorem strandHomes_grows {s0 s : State} (h : Grows s0 s) : Grows s0 (strandHomes s) := by
  unfold strandHomes
  try dsimp only
  refine Grows.foldl (fun _ _ _ => ?_) ?_
  · split
    · assumption
    · split
      · assumption
      · exact pageError_grows _ (by assumption)
  · assumption

theorem segmentLine_grows {s0 s : State} (i) (failed) (h : Grows s0 s) : Grows s0 (segmentLine i failed s) := by
  unfold segmentLine
  try dsimp only
  split
  · assumption
  · exact Grows.put (raiseIf_grows _ _ (by assumption)) rfl

theorem execT2LineTimeout_grows {s0 s : State} {t} {segment failedAgain w}
    (e : execT2LineTimeout segment failedAgain w s = .next t) (h : Grows s0 s) : Grows s0 t := by
  unfold execT2LineTimeout at e
  try dsimp only at e
  split at e
  · injection e with e
    subst e
    assumption
  · split at e
    · injection e with e
      subst e
      split
      · exact strandHomes_grows (uncorrectable_grows _ (segmentLine_grows _ _ (raise_grows _ (bump_grows _ _
          (by assumption)))))
      · exact segmentLine_grows _ _ (raise_grows _ (bump_grows _ _ (by assumption)))
    · injection e with e
      subst e
      assumption

theorem execWritebackExtent_grows {s0 s : State} {t} {desc extent}
    (e : execWritebackExtent desc extent s = .next t) (h : Grows s0 s) : Grows s0 t := by
  unfold execWritebackExtent at e
  try dsimp only at e
  split at e
  · injection e with e
    subst e
    assumption
  · injection e with e
    subst e
    split
    · exact noteLines_grows _ _ (bump_grows _ _ (charge_grows _ _ _ (charge_grows _ _ _ (updDesc_grows _ _
        (by assumption)))))
    · assumption

theorem finishDemotions_grows {s0 s : State} (h : Grows s0 s) : Grows s0 (finishDemotions s) := by
  unfold finishDemotions
  try dsimp only
  refine Grows.foldl (fun _ _ _ => ?_) ?_
  · split
    · assumption
    · split
      · exact letCopyGo_grows _ _ (by assumption)
      · exact updDesc_grows _ _ (by assumption)
  · assumption

theorem startCopy_grows {s0 s : State} (i) (d) (h : Grows s0 s) : Grows s0 (startCopy i d s) := by
  unfold startCopy
  try dsimp only
  exact updDesc_grows _ _ (takeMap_grows _ _ _ (takeExtents_grows _ _ _ (by assumption)))

theorem startDemotions_grows {s0 s : State} (h : Grows s0 s) : Grows s0 (startDemotions s) := by
  unfold startDemotions
  try dsimp only
  split
  · assumption
  · refine Grows.foldl (fun _ _ _ => ?_) ?_
    · split
      · exact demote_grows _ (by assumption)
      · assumption
    · assumption

theorem startPromotions_grows {s0 s : State} (h : Grows s0 s) : Grows s0 (startPromotions s) := by
  unfold startPromotions
  try dsimp only
  refine Grows.foldl (fun _ _ _ => ?_) ?_
  · split
    · exact startCopy_grows _ _ (by assumption)
    · assumption
  · assumption

theorem validateCopies_grows {s0 s : State} (h : Grows s0 s) : Grows s0 (validateCopies s) := by
  unfold validateCopies
  try dsimp only
  exact bump_grows _ _ (Grows.put (by assumption) rfl)

theorem tierBoundary_grows {s0 s : State} (h : Grows s0 s) : Grows s0 (tierBoundary s) := by
  unfold tierBoundary
  try dsimp only
  refine startPromotions_grows ?_
  refine startDemotions_grows ?_
  refine finishDemotions_grows ?_
  refine dropBad_grows ?_
  refine validateCopies_grows ?_
  split
  · exact Grows.put (by assumption) rfl
  · assumption

theorem sendRing_grows {s0 s : State} (dest) (e_) (kind) (layer) (tokens) (firstPos) (payload)
    (h : Grows s0 s) : Grows s0 (sendRing dest e_ kind layer tokens firstPos payload s) := by
  unfold sendRing
  try dsimp only
  exact sendMsg_grows _ _ _ _ _ (by assumption)

theorem sendRecord_grows {s0 s : State} (dest) (e_) (layer) (sts)
    (h : Grows s0 s) : Grows s0 (sendRecord dest e_ layer sts s) := by
  unfold sendRecord
  try dsimp only
  exact sendRing_grows _ _ _ _ _ _ _ (by assumption)

theorem staleRow_grows {s0 s : State} (e_) (r) (h : Grows s0 s) : Grows s0 (staleRow e_ r s) := by
  unfold staleRow
  try dsimp only
  exact refuseStale_grows _ _ (raise_grows _ (bump_grows _ _ (Grows.put (by assumption) rfl)))

theorem updRow_grows {s0 s : State} (handle) (layer) (pos) (f) (h : Grows s0 s) : Grows s0 (updRow handle layer pos f s) := by
  unfold updRow
  try dsimp only
  exact Grows.put (by assumption) rfl

theorem retireRows_grows {s0 s : State} (slot) (e_) (layer) (ps)
    (h : Grows s0 s) : Grows s0 (retireRows slot e_ layer ps s) := by
  unfold retireRows
  try dsimp only
  split
  · assumption
  · split
    · exact Grows.put (by assumption) rfl
    · exact updSeq_grows _ _ (Grows.put (by assumption) rfl)

theorem placeStaged_grows {s0 s : State} (slot) (e_) (c) (layer)
    (h : Grows s0 s) : Grows s0 (placeStaged slot e_ c layer s) := by
  unfold placeStaged
  try dsimp only
  split
  · assumption
  · split
    · assumption
    · split
      · refine Grows.foldl (fun _ _ _ => ?_) ?_
        · exact staleRow_grows _ _ (by assumption)
        · assumption
      · split
        · assumption
        · refine forwardTail_grows _ ?_
          refine Grows.foldl (fun _ _ _ => ?_) ?_
          · exact retireRows_grows _ _ _ _ (by assumption)
          · refine Grows.foldl (fun _ _ _ => ?_) ?_
            · exact updRow_grows _ _ _ _ (by assumption)
            · exact appendStaged_grows (by assumption) (by assumption)

theorem giveOutputs_grows {s0 s : State} (c) (i) (byHead) (h : Grows s0 s) : Grows s0 (giveOutputs c i byHead s) := by
  unfold giveOutputs
  try dsimp only
  refine Grows.foldl (fun _ _ _ => ?_) ?_
  · exact updRow_grows _ _ _ _ (noteElems_grows _ (bump_grows _ _ (raiseTimes_grows _ _ (by assumption))))
  · assumption

theorem finishUnit_grows {s0 s : State} (slot) (e_) (c) (i) (h : Grows s0 s) : Grows s0 (finishUnit slot e_ c i s) := by
  unfold finishUnit
  try dsimp only
  split
  · split
    · assumption
    · refine Grows.put ?_ rfl
      split
      · exact sendRecord_grows _ _ _ _ (by assumption)
      · exact sendRecord_grows _ _ _ _ (sendRing_grows _ _ _ _ _ _ _ (by assumption))
  · split
    · split
      · assumption
      · exact sendRecord_grows _ _ _ _ (sendRing_grows _ _ _ _ _ _ _ (by assumption))
    · exact placeStaged_grows _ _ _ _ (giveOutputs_grows _ _ _ (by assumption))

theorem afterAttention_grows {s0 s : State} (slot) (e_) (c) (i) (h : Grows s0 s) : Grows s0 (afterAttention slot e_ c i s) := by
  unfold afterAttention
  try dsimp only
  split
  · exact finishUnit_grows _ _ _ _ (by assumption)
  · assumption

theorem answerEmpty_grows {s0 s : State} (slot) (layer) (h : Grows s0 s) : Grows s0 (answerEmpty slot layer s) := by
  unfold answerEmpty
  try dsimp only
  split
  · assumption
  · split
    · assumption
    · split
      · exact finishUnit_grows _ _ _ _ (by assumption)
      · assumption

theorem chargeItem_grows {s0 s : State} (i) (u) (h : Grows s0 s) : Grows s0 (chargeItem i u s) := by
  unfold chargeItem
  try dsimp only
  refine Grows.foldl (fun _ _ _ => ?_) ?_
  · split
    · assumption
    · exact chargeSplit_grows _ _ _ (by assumption)
  · assumption

theorem markDone_grows {s0 s : State} (id) (h : Grows s0 s) : Grows s0 (markDone id s) := by
  unfold markDone
  try dsimp only
  exact Grows.put (by assumption) rfl

theorem markRan_grows {s0 s : State} (id) (ran) (h : Grows s0 s) : Grows s0 (markRan id ran s) := by
  unfold markRan
  try dsimp only
  exact Grows.put (by assumption) rfl

theorem noteLogits_grows {s0 s : State} (logits) (h : Grows s0 s) : Grows s0 (noteLogits logits s) := by
  unfold noteLogits
  try dsimp only
  split
  · exact bump_grows _ _ (raise_grows _ (by assumption))
  · assumption

theorem sampleItem_grows {s0 s : State} (slot) (e_) (i) (h : Grows s0 s) : Grows s0 (sampleItem slot e_ i s) := by
  unfold sampleItem
  try dsimp only
  split
  · split
    · assumption
    · exact ownerToken_grows _ _ (noteLogits_grows _ (Grows.put (by assumption) rfl))
  · assumption

theorem projectBatch_grows {s0 s : State} (c) (l) (i) (m) (slice)
    (h : Grows s0 s) : Grows s0 (projectBatch c l i m slice s) := by
  unfold projectBatch
  try dsimp only
  refine Grows.foldl (fun _ _ _ => ?_) ?_
  · split
    · assumption
    · exact noteElems_grows _ (updRow_grows _ _ _ _ (by assumption))
  · assumption

theorem sendOutput_grows {s0 s : State} (e_) (rows) (h : Grows s0 s) : Grows s0 (sendOutput e_ rows s) := by
  unfold sendOutput
  try dsimp only
  split
  · exact sendPieces_grows _ _ _ _ _ _ (countBlocks_grows _ (takeSseq_grows (by assumption)))
  · assumption

theorem returnRows_grows {s0 s : State} (slot) (e_) (c) (layer) (ps)
    (h : Grows s0 s) : Grows s0 (returnRows slot e_ c layer ps s) := by
  unfold returnRows
  try dsimp only
  split
  · assumption
  · refine retireRows_grows _ _ _ _ ?_
    refine Grows.foldl (fun _ _ _ => ?_) ?_
    · exact updRow_grows _ _ _ _ (by assumption)
    · exact sendOutput_grows _ _ (by assumption)

theorem returnBatch_grows {s0 s : State} (c) (i) (h : Grows s0 s) : Grows s0 (returnBatch c i s) := by
  unfold returnBatch
  try dsimp only
  refine Grows.foldl (fun _ _ _ => ?_) ?_
  · split
    · assumption
    · split
      · assumption
      · split
        · exact returnRows_grows _ _ _ _ _ (by assumption)
        · refine Grows.foldl (fun _ _ _ => ?_) ?_
          · exact returnRows_grows _ _ _ _ _ (by assumption)
          · assumption
  · assumption

theorem noteStage_grows {s0 s : State} (c) (context) (layer) (h : Grows s0 s) : Grows s0 (noteStage c context layer s) := by
  unfold noteStage
  try dsimp only
  exact Grows.put (by assumption) rfl

theorem sendProbes_grows {s0 s : State} (e_) (r) (h : Grows s0 s) : Grows s0 (sendProbes e_ r s) := by
  unfold sendProbes
  try dsimp only
  split
  · refine Grows.foldl (fun _ _ _ => ?_) ?_
    · exact sendRing_grows _ _ _ _ _ _ _ (by assumption)
    · assumption
  · assumption

theorem placeDecode_grows {s0 s : State} (slot) (e_) (c) (r) (h : Grows s0 s) : Grows s0 (placeDecode slot e_ c r s) := by
  unfold placeDecode
  try dsimp only
  split
  · assumption
  · split
    · exact staleRow_grows _ _ (by assumption)
    · split
      · assumption
      · exact forwardTail_grows _ (updRow_grows _ _ _ _ (appendRow_grows (by assumption) (by assumption)))

theorem rotaryDone_grows {s0 s : State} (slot) (e_) (c) (i) (h : Grows s0 s) : Grows s0 (rotaryDone slot e_ c i s) := by
  unfold rotaryDone
  try dsimp only
  split
  · assumption
  · split
    · exact noteStage_grows _ _ _ (noteElems_grows _ (noteElems_grows _ (updRow_grows _ _ _ _ (by assumption))))
    · exact sendProbes_grows _ _ (placeDecode_grows _ _ _ _ (noteElems_grows _ (noteElems_grows _ (updRow_grows _ _ _ _
        (by assumption)))))

theorem setRun_grows {s0 s : State} (i) (run) (sts) (h : Grows s0 s) : Grows s0 (setRun i run sts s) := by
  unfold setRun
  try dsimp only
  exact Grows.put (by assumption) rfl

theorem mergeItem_grows {s0 s : State} (slot) (e_) (c) (i) (h : Grows s0 s) : Grows s0 (mergeItem slot e_ c i s) := by
  unfold mergeItem
  try dsimp only
  exact afterAttention_grows _ _ _ _ (setRun_grows _ _ _ (by assumption))

theorem holdPage_grows {s0 s : State} (e_) (i) (h : Grows s0 s) : Grows s0 (holdPage e_ i s) := by
  unfold holdPage
  try dsimp only
  split
  · assumption
  · exact incRef_grows _ (Grows.put (by assumption) rfl)

theorem foldItem_grows {s0 s : State} (slot) (e_) (c) (l) (i) (mark)
    (Hmark : ∀ a0, Grows s0 a0 → Grows s0 (mark a0)) (h : Grows s0 s) : Grows s0 (foldItem slot e_ c l i mark s) := by
  unfold foldItem
  try dsimp only
  split
  · exact damagePage_grows _ (blockDamaged_grows _ _ (by assumption))
  · refine afterAttention_grows _ _ _ _ ?_
    split
    · refine Grows.put ?_ rfl
      refine bump_grows _ _ ?_
      refine raiseTimes_grows _ _ ?_
      refine bump_grows _ _ ?_
      refine raiseTimes_grows _ _ ?_
      refine setRun_grows _ _ _ ?_
      refine holdPage_grows _ _ ?_
      apply Hmark
      assumption
    · refine bump_grows _ _ ?_
      refine raiseTimes_grows _ _ ?_
      refine bump_grows _ _ ?_
      refine raiseTimes_grows _ _ ?_
      refine setRun_grows _ _ _ ?_
      refine holdPage_grows _ _ ?_
      apply Hmark
      assumption

theorem completeItem_grows {s0 s : State} (i) (u) (h : Grows s0 s) : Grows s0 (completeItem i u s) := by
  unfold completeItem
  try dsimp only
  split
  · split
    · split
      · split
        · refine sampleItem_grows _ _ _ ?_
          split
          · exact markDone_grows _ (chargeItem_grows _ _ (by assumption))
          · exact markRan_grows _ _ (chargeItem_grows _ _ (by assumption))
        · split
          · exact markDone_grows _ (chargeItem_grows _ _ (by assumption))
          · exact markRan_grows _ _ (chargeItem_grows _ _ (by assumption))
      · split
        · exact markDone_grows _ (chargeItem_grows _ _ (by assumption))
        · exact markRan_grows _ _ (chargeItem_grows _ _ (by assumption))
    · split
      · exact markDone_grows _ (chargeItem_grows _ _ (by assumption))
      · exact markRan_grows _ _ (chargeItem_grows _ _ (by assumption))
  · split
    · refine projectBatch_grows _ _ _ _ _ ?_
      split
      · exact markDone_grows _ (chargeItem_grows _ _ (by assumption))
      · exact markRan_grows _ _ (chargeItem_grows _ _ (by assumption))
    · refine returnBatch_grows _ _ ?_
      refine projectBatch_grows _ _ _ _ _ ?_
      split
      · exact markDone_grows _ (chargeItem_grows _ _ (by assumption))
      · exact markRan_grows _ _ (chargeItem_grows _ _ (by assumption))
    · split
      · exact markDone_grows _ (chargeItem_grows _ _ (by assumption))
      · exact markRan_grows _ _ (chargeItem_grows _ _ (by assumption))
  · split
    · split
      · exact markDone_grows _ (chargeItem_grows _ _ (by assumption))
      · exact markRan_grows _ _ (chargeItem_grows _ _ (by assumption))
    · split
      · split
        · split
          · exact markDone_grows _ (chargeItem_grows _ _ (by assumption))
          · exact markRan_grows _ _ (chargeItem_grows _ _ (by assumption))
        · refine noteElems_grows _ ?_
          refine updRow_grows _ _ _ _ ?_
          split
          · exact markDone_grows _ (chargeItem_grows _ _ (by assumption))
          · exact markRan_grows _ _ (chargeItem_grows _ _ (by assumption))
      · refine projectBatch_grows _ _ _ _ _ ?_
        split
        · exact markDone_grows _ (chargeItem_grows _ _ (by assumption))
        · exact markRan_grows _ _ (chargeItem_grows _ _ (by assumption))
      · refine rotaryDone_grows _ _ _ _ ?_
        split
        · exact markDone_grows _ (chargeItem_grows _ _ (by assumption))
        · exact markRan_grows _ _ (chargeItem_grows _ _ (by assumption))
      · refine returnBatch_grows _ _ ?_
        refine projectBatch_grows _ _ _ _ _ ?_
        split
        · exact markDone_grows _ (chargeItem_grows _ _ (by assumption))
        · exact markRan_grows _ _ (chargeItem_grows _ _ (by assumption))
      · refine mergeItem_grows _ _ _ _ ?_
        split
        · exact markDone_grows _ (chargeItem_grows _ _ (by assumption))
        · exact markRan_grows _ _ (chargeItem_grows _ _ (by assumption))
      · refine sampleItem_grows _ _ _ ?_
        split
        · exact markDone_grows _ (chargeItem_grows _ _ (by assumption))
        · exact markRan_grows _ _ (chargeItem_grows _ _ (by assumption))
      · refine foldItem_grows _ _ _ _ _ _ ?_ ?_
        · intro _ _
          split
          · exact markDone_grows _ (by assumption)
          · exact markRan_grows _ _ (by assumption)
        · exact chargeItem_grows _ _ (by assumption)

theorem swapCluster_grows {s0 s : State} (k) (h : Grows s0 s) : Grows s0 (swapCluster k s) := by
  unfold swapCluster
  try dsimp only
  split
  · split
    · assumption
    · exact Grows.put (freeOf_grows _ _ (by assumption)) rfl
  · split
    · assumption
    · exact Grows.put (freeOf_grows _ _ (by assumption)) rfl

theorem swapCheck_grows {s0 s : State} (h : Grows s0 s) : Grows s0 (swapCheck s) := by
  unfold swapCheck
  try dsimp only
  refine Grows.foldl (fun _ _ _ => ?_) ?_
  · exact swapCluster_grows _ (by assumption)
  · assumption

theorem lateStep_grows {s0 s : State} (e_) (layer) (h : Grows s0 s) : Grows s0 (lateStep e_ layer s).2 := by
  unfold lateStep
  try dsimp only
  split
  · dsimp only
    exact Grows.put (by assumption) rfl
  · dsimp only
    exact disposition_grows _ _ _ _ (updSeq_grows _ _ (by assumption))

theorem hiddenStep_grows {s0 s : State} (h_) (offsetNs) (e_) (h : Grows s0 s) : Grows s0 (hiddenStep h_ offsetNs e_ s).2 := by
  unfold hiddenStep
  try dsimp only
  split
  · exact lateStep_grows _ _ (by assumption)
  · dsimp only
    assumption

theorem takeHidden_grows {s0 s : State} (h_) (offsetNs) (e_) (h : Grows s0 s) : Grows s0 (takeHidden h_ offsetNs e_ s) := by
  unfold takeHidden
  try dsimp only
  exact Grows.put (hiddenStep_grows _ _ _ (by assumption)) rfl

theorem execHiddenState_grows {s0 s : State} {t} {offsetNs h_}
    (e : execHiddenState offsetNs h_ s = .next t) (h : Grows s0 s) : Grows s0 t := by
  unfold execHiddenState at e
  try dsimp only at e
  split at e
  · injection e with e
    subst e
    assumption
  · split at e
    · injection e with e
      subst e
      exact misdirect_grows _ (setNow_grows _ (by assumption))
    · split at e
      · injection e with e
        subst e
        exact damageFound_grows _ _ (setNow_grows _ (by assumption))
      · split at e
        · injection e with e
          subst e
          exact raise_grows _ (setNow_grows _ (by assumption))
        · split at e
          · split at e
            · injection e with e
              subst e
              refine refuseStale_grows _ _ ?_
              split
              · exact updSeq_grows _ _ (consumeNow_grows _ _ _ _ (setNow_grows _ (by assumption)))
              · exact consumeNow_grows _ _ _ _ (setNow_grows _ (by assumption))
            · split at e
              · injection e with e
                subst e
                refine raise_grows _ ?_
                split
                · exact updSeq_grows _ _ (consumeNow_grows _ _ _ _ (setNow_grows _ (by assumption)))
                · exact consumeNow_grows _ _ _ _ (setNow_grows _ (by assumption))
              · injection e with e
                subst e
                refine swapCheck_grows ?_
                refine takeHidden_grows _ _ _ ?_
                split
                · split
                  · exact updSeq_grows _ _ (consumeNow_grows _ _ _ _ (setNow_grows _ (by assumption)))
                  · exact consumeNow_grows _ _ _ _ (setNow_grows _ (by assumption))
                · refine updRec_grows _ _ ?_
                  split
                  · exact updSeq_grows _ _ (consumeNow_grows _ _ _ _ (setNow_grows _ (by assumption)))
                  · exact consumeNow_grows _ _ _ _ (setNow_grows _ (by assumption))
          · injection e with e
            subst e
            exact raise_grows _ (setNow_grows _ (by assumption))
          · injection e with e
            subst e
            exact raise_grows _ (setNow_grows _ (by assumption))

theorem execImageSwapComplete_grows {s0 s : State} {t} {cluster}
    (e : execImageSwapComplete cluster s = .next t) (h : Grows s0 s) : Grows s0 t := by
  unfold execImageSwapComplete at e
  try dsimp only at e
  split at e
  · injection e with e
    subst e
    assumption
  · injection e with e
    subst e
    split
    · exact swapCheck_grows (charge_grows _ _ _ (bump_grows _ _ (Grows.put (freeBelow_grows _ (by assumption)) rfl)))
    · assumption

theorem execItemComplete_grows {s0 s : State} {t} {item u}
    (e : execItemComplete item u s = .next t) (h : Grows s0 s) : Grows s0 t := by
  unfold execItemComplete at e
  try dsimp only at e
  split at e
  · injection e with e
    subst e
    assumption
  · injection e with e
    subst e
    split
    · exact swapCheck_grows (completeItem_grows _ _ (by assumption))
    · assumption

theorem memberLost_grows {s0 s : State} (slot) (member) (h : Grows s0 s) : Grows s0 (memberLost slot member s) := by
  unfold memberLost
  try dsimp only
  split
  · assumption
  · split
    · exact updSeq_grows _ _ (raise_grows _ (by assumption))
    · exact enterOrphan_grows _ (raise_grows _ (by assumption))

theorem execRingSilenceTimeout_grows {s0 s : State} {t} {slot member}
    (e : execRingSilenceTimeout slot member s = .next t) (h : Grows s0 s) : Grows s0 t := by
  unfold execRingSilenceTimeout at e
  try dsimp only at e
  split at e
  · injection e with e
    subst e
    assumption
  · injection e with e
    subst e
    split
    · exact memberLost_grows _ _ (by assumption)
    · assumption

theorem finishRingF_grows {s0 s : State} (e_) (c) (h_) (h : Grows s0 s) : Grows s0 (finishRingF e_ c h_ s) := by
  unfold finishRingF
  try dsimp only
  exact giveOutputs_grows _ _ _ (by assumption)

theorem forwardBlocks_grows {s0 s : State} (slot) (layer) (h : Grows s0 s) : Grows s0 (forwardBlocks slot layer s) := by
  unfold forwardBlocks
  try dsimp only
  split
  · assumption
  · split
    · assumption
    · refine Grows.put ?_ rfl
      refine Grows.foldl (fun _ _ _ => ?_) ?_
      · exact sendRing_grows _ _ _ _ _ _ _ (by assumption)
      · assumption

theorem keepRing_grows {s0 s : State} (h_) (e_) (h : Grows s0 s) : Grows s0 (keepRing h_ e_ s) := by
  unfold keepRing
  try dsimp only
  exact Grows.put (by assumption) rfl

theorem lateRing_grows {s0 s : State} (h_) (e_) (h : Grows s0 s) : Grows s0 (lateRing h_ e_ s).2 := by
  unfold lateRing
  try dsimp only
  split
  · dsimp only
    exact Grows.put (lateStep_grows _ _ (disposition_grows _ _ _ _ (raise_grows _ (bump_grows _ _
      (by assumption))))) rfl
  · dsimp only
    assumption

theorem ringEpoch_grows {s0 s : State} {t} {slot source epoch e_}
    (e : ringEpoch slot source epoch e_ s = some t) (h : Grows s0 s) : Grows s0 t := by
  unfold ringEpoch at e
  try dsimp only at e
  split at e
  · injection e with e
    subst e
    assumption
  · split at e
    · injection e with e
      subst e
      exact updSeq_grows _ _ (by assumption)
    · cases e

theorem ringIn_grows {s0 s : State} (kind) (act) (m)
    (Hact : ∀ a0 a1 a2 a3, Grows s0 a3 → Grows s0 (act a0 a1 a2 a3)) (h : Grows s0 s) : Grows s0 (ringIn kind act m s) := by
  unfold ringIn
  try dsimp only
  split
  · assumption
  · split
    · exact raise_grows _ (by assumption)
    · split
      · exact misdirect_grows _ (by assumption)
      · split
        · exact raise_grows _ (by assumption)
        · split
          · exact raise_grows _ (by assumption)
          · split
            · exact sendReject_grows _ _ (raise_grows _ (bump_grows _ _ (consumeUnnumbered_grows _ _ _ (by assumption))))
            · split
              · exact raise_grows _ (bump_grows _ _ (Grows.put (ringEpoch_grows (by assumption)
                  (consumeUnnumbered_grows _ _ _ (by assumption))) rfl))
              · apply Hact
                exact Grows.put (ringEpoch_grows (by assumption) (consumeUnnumbered_grows _ _ _
                  (by assumption))) rfl

theorem onFoldRecord_grows {s0 s : State} (m) (h : Grows s0 s) : Grows s0 (onFoldRecord m s) := by
  unfold onFoldRecord
  try dsimp only
  refine ringIn_grows _ _ _ ?_ ?_
  · intro _ _ _ _ _
    split
    · assumption
    · split
      · exact raise_grows _ (by assumption)
      · refine swapCheck_grows ?_
        split
        · exact finishRingF_grows _ _ _ (answerEmpty_grows _ _ (keepRing_grows _ _ (lateRing_grows _ _ (by assumption))))
        · exact answerEmpty_grows _ _ (keepRing_grows _ _ (lateRing_grows _ _ (by assumption)))
  · assumption

theorem onProbe_grows {s0 s : State} (m) (h : Grows s0 s) : Grows s0 (onProbe m s) := by
  unfold onProbe
  try dsimp only
  refine ringIn_grows _ _ _ ?_ ?_
  · intro _ _ _ _ _
    split
    · assumption
    · split
      · exact raise_grows _ (by assumption)
      · split
        · assumption
        · exact swapCheck_grows (answerEmpty_grows _ _ (keepRing_grows _ _ (Grows.put (lateRing_grows _ _
            (by assumption)) rfl)))
  · assumption

theorem onRingBlock_grows {s0 s : State} (m) (h : Grows s0 s) : Grows s0 (onRingBlock m s) := by
  unfold onRingBlock
  try dsimp only
  refine ringIn_grows _ _ _ ?_ ?_
  · intro _ _ _ _ _
    split
    · exact blockDamaged_grows _ _ (by assumption)
    · exact swapCheck_grows (forwardBlocks_grows _ _ (keepRing_grows _ _ (lateRing_grows _ _ (by assumption))))
  · assumption

theorem sendOwn_grows {s0 s : State} (slot) (l) (h : Grows s0 s) : Grows s0 (sendOwn slot l s) := by
  unfold sendOwn
  try dsimp only
  split
  · assumption
  · split
    · assumption
    · refine Grows.foldl (fun _ _ _ => ?_) ?_
      · split
        · assumption
        · exact updLayer_grows _ _ _ (sendRing_grows _ _ _ _ _ _ _ (by assumption))
      · assumption

theorem addDelay_grows {s0 s : State} (context) (ns) (h : Grows s0 s) : Grows s0 (addDelay context ns s) := by
  unfold addDelay
  try dsimp only
  exact Grows.put (by assumption) rfl

theorem chargeFetch_grows {s0 s : State} (c) (n) (h : Grows s0 s) : Grows s0 (chargeFetch c n s) := by
  unfold chargeFetch
  try dsimp only
  split
  · exact charge_grows _ _ _ (by assumption)
  · exact charge_grows _ _ _ (by assumption)

theorem pullItems_grows {s0 s : State} (e_) (h : Grows s0 s) : Grows s0 (pullItems e_ s) := by
  unfold pullItems
  try dsimp only
  exact Grows.put (by assumption) rfl

theorem deferSeq_grows {s0 s : State} (slot) (e_) (h : Grows s0 s) : Grows s0 (deferSeq slot e_ s) := by
  unfold deferSeq
  try dsimp only
  exact disposition_grows _ _ _ _ (raise_grows _ (bump_grows _ _ (updSeq_grows _ _ (pullItems_grows _ (by assumption)))))

theorem setLoad_grows {s0 s : State} (key) (l) (h : Grows s0 s) : Grows s0 (setLoad key l s) := by
  unfold setLoad
  try dsimp only
  exact Grows.put (by assumption) rfl

theorem deferFor_grows {s0 s : State} (before) (context) (key) (overrun)
    (h : Grows s0 s) : Grows s0 (deferFor before context key overrun s) := by
  unfold deferFor
  try dsimp only
  split
  · refine setLoad_grows _ _ ?_
    refine Grows.foldl (fun _ _ _ => ?_) ?_
    · exact deferSeq_grows _ _ (by assumption)
    · assumption
  · refine Grows.foldl (fun _ _ _ => ?_) ?_
    · exact deferSeq_grows _ _ (by assumption)
    · assumption

theorem renewAdapters_grows {s0 s : State} (ps) (h : Grows s0 s) : Grows s0 (renewAdapters ps s) := by
  unfold renewAdapters
  try dsimp only
  exact Grows.put (by assumption) rfl

theorem takeFetch_grows {s0 s : State} (ci) (layer) (c) (l) (h : Grows s0 s) : Grows s0 (takeFetch ci layer c l s).2 := by
  unfold takeFetch
  try dsimp only
  split
  · dsimp only
    exact addFault_grows _ (raise_grows _ (by assumption))
  · dsimp only
    refine Grows.put ?_ rfl
    refine raiseIf_grows _ _ ?_
    refine renewAdapters_grows _ ?_
    refine Grows.foldl (fun _ _ _ => ?_) ?_
    · refine Grows.foldl (fun _ _ _ => ?_) ?_
      · exact blockDamaged_grows _ _ (by assumption)
      · assumption
    · assumption

theorem fetched_grows {s0 s : State} (t) (key) (c) (l) (late) (h : Grows s0 s) : Grows s0 (fetched t key c l late s) := by
  unfold fetched
  try dsimp only
  split
  · exact takeFetch_grows _ _ _ _ (chargeFetch_grows _ _ (by assumption))
  · refine swapCheck_grows ?_
    refine setLoad_grows _ _ ?_
    refine Grows.put ?_ rfl
    refine addDelay_grows _ _ ?_
    split
    · exact noteLines_grows _ _ (takeFetch_grows _ _ _ _ (chargeFetch_grows _ _ (by assumption)))
    · exact takeFetch_grows _ _ _ _ (chargeFetch_grows _ _ (by assumption))

theorem execPrefetchComplete_grows {s0 s : State} {t} {slot}
    (e : execPrefetchComplete slot s = .next t) (h : Grows s0 s) : Grows s0 t := by
  unfold execPrefetchComplete at e
  try dsimp only at e
  split at e
  · injection e with e
    subst e
    assumption
  · split at e
    · split at e
      · injection e with e
        subst e
        exact fetched_grows _ _ _ _ _ (by assumption)
      · injection e with e
        subst e
        exact fetched_grows _ _ _ _ _ (by assumption)
      · injection e with e
        subst e
        assumption
    · injection e with e
      subst e
      assumption

theorem execPrefetchDeadline_grows {s0 s : State} {t} {slot}
    (e : execPrefetchDeadline slot s = .next t) (h : Grows s0 s) : Grows s0 t := by
  unfold execPrefetchDeadline at e
  try dsimp only at e
  split at e
  · injection e with e
    subst e
    assumption
  · split at e
    · injection e with e
      subst e
      exact disposition_grows _ _ _ _ (raise_grows _ (bump_grows _ _ (setLoad_grows _ _ (setNow_grows _ (by assumption)))))
    · injection e with e
      subst e
      assumption

theorem execPrefetchIssue_grows {s0 s : State} {t} {slot}
    (e : execPrefetchIssue slot s = .next t) (h : Grows s0 s) : Grows s0 t := by
  unfold execPrefetchIssue at e
  try dsimp only at e
  split at e
  · injection e with e
    subst e
    assumption
  · injection e with e
    subst e
    split
    · exact setLoad_grows _ _ (setNow_grows _ (by assumption))
    · assumption

theorem execSlackExhausted_grows {s0 s : State} {t} {slot remaining}
    (e : execSlackExhausted slot remaining s = .next t) (h : Grows s0 s) : Grows s0 t := by
  unfold execSlackExhausted at e
  try dsimp only at e
  split at e
  · injection e with e
    subst e
    assumption
  · split at e
    · injection e with e
      subst e
      refine swapCheck_grows ?_
      split
      · split
        · exact setLoad_grows _ _ (addDelay_grows _ _ (Grows.put (raise_grows _ (bump_grows _ _ (chargeFetch_grows _ _
            (noteLines_grows _ _ (addDelay_grows _ _ (Grows.put (setNow_grows _
            (by assumption)) rfl)))))) rfl))
        · exact deferFor_grows _ _ _ _ (setLoad_grows _ _ (addDelay_grows _ _ (Grows.put (raise_grows _ (bump_grows _ _
            (chargeFetch_grows _ _ (noteLines_grows _ _ (addDelay_grows _ _ (Grows.put (setNow_grows _
            (by assumption)) rfl)))))) rfl)))
      · split
        · exact setLoad_grows _ _ (addDelay_grows _ _ (Grows.put (raise_grows _ (bump_grows _ _ (chargeFetch_grows _ _
            (noteLines_grows _ _ (addDelay_grows _ _ (Grows.put (setNow_grows _
            (by assumption)) rfl)))))) rfl))
        · exact deferFor_grows _ _ _ _ (setLoad_grows _ _ (addDelay_grows _ _ (Grows.put (raise_grows _ (bump_grows _ _
            (chargeFetch_grows _ _ (noteLines_grows _ _ (addDelay_grows _ _ (Grows.put (setNow_grows _
            (by assumption)) rfl)))))) rfl)))
    · injection e with e
      subst e
      assumption

theorem stageLayer_grows {s0 s : State} (ci) (h : Grows s0 s) : Grows s0 (stageLayer ci s) := by
  unfold stageLayer
  try dsimp only
  split
  · split
    · assumption
    · split
      · assumption
      · assumption
  · split
    · split
      · assumption
      · split
        · assumption
        · refine setLoad_grows _ _ ?_
          dsimp only
          assumption
    · split
      · assumption
      · split
        · assumption
        · refine setLoad_grows _ _ ?_
          split
          · split
            · dsimp only
              assumption
            · split
              · split
                · dsimp only
                  assumption
                · split
                  · dsimp only
                    assumption
                  · refine takeFetch_grows _ _ _ _ ?_
                    refine chargeFetch_grows _ _ ?_
                    dsimp only
                    assumption
              · split
                · refine takeFetch_grows _ _ _ _ ?_
                  refine chargeFetch_grows _ _ ?_
                  dsimp only
                  assumption
                · split
                  · refine takeFetch_grows _ _ _ _ ?_
                    refine chargeFetch_grows _ _ ?_
                    dsimp only
                    assumption
                  · refine takeFetch_grows _ _ _ _ ?_
                    refine chargeFetch_grows _ _ ?_
                    refine takeFetch_grows _ _ _ _ ?_
                    refine chargeFetch_grows _ _ ?_
                    dsimp only
                    assumption
          · split
            · exact takeFetch_grows _ _ _ _ (chargeFetch_grows _ _ (by assumption))
            · split
              · split
                · exact takeFetch_grows _ _ _ _ (chargeFetch_grows _ _ (by assumption))
                · split
                  · exact takeFetch_grows _ _ _ _ (chargeFetch_grows _ _ (by assumption))
                  · exact takeFetch_grows _ _ _ _ (chargeFetch_grows _ _ (takeFetch_grows _ _ _ _ (chargeFetch_grows _ _
                      (by assumption))))
              · split
                · exact takeFetch_grows _ _ _ _ (chargeFetch_grows _ _ (takeFetch_grows _ _ _ _ (chargeFetch_grows _ _
                    (by assumption))))
                · split
                  · exact takeFetch_grows _ _ _ _ (chargeFetch_grows _ _ (takeFetch_grows _ _ _ _ (chargeFetch_grows _ _
                      (by assumption))))
                  · exact takeFetch_grows _ _ _ _ (chargeFetch_grows _ _ (takeFetch_grows _ _ _ _ (chargeFetch_grows _ _
                      (takeFetch_grows _ _ _ _ (chargeFetch_grows _ _ (by assumption))))))

theorem stageNext_grows {s0 s : State} (t) (h : Grows s0 s) : Grows s0 (stageNext t s) := by
  unfold stageNext
  try dsimp only
  split
  · split
    · exact stageLayer_grows _ (by assumption)
    · assumption
  · assumption

theorem placeWaitingRow_grows {s0 s : State} (c) (r) (h : Grows s0 s) : Grows s0 (placeWaitingRow c r s) := by
  unfold placeWaitingRow
  try dsimp only
  split
  · assumption
  · split
    · exact placeStaged_grows _ _ _ _ (by assumption)
    · exact placeDecode_grows _ _ _ _ (by assumption)

theorem placeWaiting_grows {s0 s : State} (t) (h : Grows s0 s) : Grows s0 (placeWaiting t s) := by
  unfold placeWaiting
  try dsimp only
  split
  · assumption
  · refine Grows.foldl (fun _ _ _ => ?_) ?_
    · exact placeWaitingRow_grows _ _ (by assumption)
    · assumption

theorem execSlotOpen_grows {s0 s : State} {t} {slot} (e : execSlotOpen slot s = .next t) (h : Grows s0 s) : Grows s0 t := by
  unfold execSlotOpen at e
  try dsimp only at e
  split at e
  · injection e with e
    subst e
    assumption
  · injection e with e
    subst e
    split
    · exact swapCheck_grows (stageNext_grows _ (placeWaiting_grows _ (Grows.put (setNow_grows _
        (by assumption)) rfl)))
    · assumption

theorem stageFirst_grows {s0 s : State} (h : Grows s0 s) : Grows s0 (stageFirst s) := by
  unfold stageFirst
  try dsimp only
  refine Grows.foldl (fun _ _ _ => ?_) ?_
  · exact stageLayer_grows _ (by assumption)
  · assumption

end Sys2Proof.Machine
end

