-- ==== Sys2Proof/Laws/Channels.lean ====
section
/-! SUPPORT. Taking a record leaves the exchange channels alone (R361).
`f_channels`: if `s` has the channels of `s0`, so has what `f` makes of `s`. -/

namespace Sys2Proof.Safety

open Sys2Proof.Machine

/-- Two states have the same exchange channels. -/
def SameChannels (s0 s : State) : Prop := s.hif.channels = s0.hif.channels

theorem SameChannels.refl (s : State) : SameChannels s s := rfl

theorem SameChannels.foldl {α : Type} {f : State → α → State} {s0 s : State} {l : List α}
    (hf : ∀ s a, SameChannels s0 s → SameChannels s0 (f s a)) (h : SameChannels s0 s) : SameChannels s0 (l.foldl f s) := by
  induction l generalizing s with
  | nil => exact h
  | cons a t ih => exact ih (hf s a h)

theorem SameChannels.foldl_fst {α β : Type} {f : State × β → α → State × β} {s0 : State} {p : State × β} {l : List α}
    (hf : ∀ p a, SameChannels s0 p.1 → SameChannels s0 (f p a).1) (h : SameChannels s0 p.1) : SameChannels s0 (l.foldl f p).1 := by
  induction l generalizing p with
  | nil => exact h
  | cons a t ih => exact ih (hf p a h)

theorem SameChannels.foldl_snd {α β : Type} {f : β × State → α → β × State} {s0 : State} {p : β × State} {l : List α}
    (hf : ∀ p a, SameChannels s0 p.2 → SameChannels s0 (f p a).2) (h : SameChannels s0 p.2) : SameChannels s0 (l.foldl f p).2 := by
  induction l generalizing p with
  | nil => exact h
  | cons a t ih => exact ih (hf p a h)

theorem SameChannels.of_snd {α : Type} {s0 s : State} {p : α × State} {a : α} (e : p = (a, s)) (h : SameChannels s0 p.2) : SameChannels s0 s := by
  subst e; exact h

theorem SameChannels.of_snd2 {α β : Type} {s0 s : State} {p : α × β × State} {a : α} {b : β} (e : p = (a, b, s))
    (h : SameChannels s0 p.2.2) : SameChannels s0 s := by
  subst e; exact h

theorem SameChannels.of_fst {α : Type} {s0 s : State} {p : State × α} {a : α} (e : p = (s, a)) (h : SameChannels s0 p.1) : SameChannels s0 s := by
  subst e; exact h

theorem SameChannels.put {s0 s : State} {tmu sqs slc pgm tir cmp car mdl fab wei hif sec hlt stw sup status counters mem free pending}
    (h : SameChannels s0 s) (hi : hif.channels = s.hif.channels) :
    SameChannels s0 ⟨tmu, sqs, slc, pgm, tir, cmp, car, mdl, fab, wei, hif, sec, hlt, stw, sup, status, counters, mem, free,
      pending⟩ := hi.trans h

end Sys2Proof.Safety

namespace Sys2Proof.Machine

open Sys2Proof.Safety

theorem setStatus_channels {s0 s : State} (a) (w) (h : SameChannels s0 s) : SameChannels s0 (setStatus a w s) := by
  unfold setStatus
  try dsimp only
  exact SameChannels.put (by assumption) rfl

theorem msix_channels {s0 s : State} (v) (h : SameChannels s0 s) : SameChannels s0 (msix v s) := by
  unfold msix
  try dsimp only
  exact SameChannels.put (by assumption) rfl

theorem raise_channels {s0 s : State} (e_) (h : SameChannels s0 s) : SameChannels s0 (raise e_ s) := by
  unfold SameChannels at *
  unfold raise raiseAt
  dsimp only
  split <;> exact h

theorem counterEvent_channels {s0 s : State} (sat) (block) (offset)
    (h : SameChannels s0 s) : SameChannels s0 (counterEvent sat block offset s) := by
  unfold counterEvent
  try dsimp only
  split
  · exact SameChannels.put (by assumption) rfl
  · exact raise_channels _ (SameChannels.put (by assumption) rfl)

theorem wEvent_channels {s0 s : State} (old) (new) (block) (offset)
    (h : SameChannels s0 s) : SameChannels s0 (wEvent old new block offset s) := by
  unfold wEvent
  try dsimp only
  split
  · exact counterEvent_channels _ _ _ (by assumption)
  · assumption

theorem writeMem_channels {s0 s : State} (a bs) (h : SameChannels s0 s) : SameChannels s0 (writeMem a bs s) := h

theorem rotate_channels {s0 s : State} (die) (h : SameChannels s0 s) : SameChannels s0 (rotate die s).2.2 := by
  unfold rotate
  try dsimp only
  exact SameChannels.put (by assumption) rfl

theorem setQueue_channels {s0 s : State} (q) (w) (h : SameChannels s0 s) : SameChannels s0 (setQueue q w s) := by
  unfold setQueue
  try dsimp only
  exact SameChannels.put (by assumption) rfl

theorem setActive_channels {s0 s : State} (p) (l) (h : SameChannels s0 s) : SameChannels s0 (setActive p l s) := by
  unfold setActive
  try dsimp only
  exact SameChannels.put (by assumption) rfl

theorem joinActive_channels {s0 s : State} (q) (p) (h : SameChannels s0 s) : SameChannels s0 (joinActive q p s) := by
  unfold joinActive
  try dsimp only
  split
  · assumption
  · exact setActive_channels _ _ (setQueue_channels _ _ (by assumption))

theorem joinAll_channels {s0 s : State} (q) (h : SameChannels s0 s) : SameChannels s0 (joinAll q s) := by
  unfold joinAll
  try dsimp only
  refine SameChannels.foldl (fun _ _ _ => ?_) ?_
  · exact joinActive_channels _ _ (by assumption)
  · assumption

theorem leaveAll_channels {s0 s : State} (q) (h : SameChannels s0 s) : SameChannels s0 (leaveAll q s) := by
  unfold leaveAll
  try dsimp only
  refine SameChannels.foldl (fun _ _ _ => ?_) ?_
  · exact setActive_channels _ _ (by assumption)
  · assumption

theorem testQueue_channels {s0 s : State} (q) (h : SameChannels s0 s) : SameChannels s0 (testQueue q s) := by
  unfold testQueue
  try dsimp only
  split
  · exact joinAll_channels _ (setQueue_channels _ _ (by assumption))
  · exact leaveAll_channels _ (setQueue_channels _ _ (by assumption))

theorem enqueue_channels {s0 s : State} (q) (p) (f) (h : SameChannels s0 s) : SameChannels s0 (enqueue q p f s) := by
  unfold enqueue
  try dsimp only
  split
  · exact setQueue_channels _ _ (by assumption)
  · split
    · exact testQueue_channels _ (setQueue_channels _ _ (by assumption))
    · split
      · split
        · exact joinActive_channels _ _ (setQueue_channels _ _ (by assumption))
        · exact setQueue_channels _ _ (by assumption)
      · split
        · exact joinActive_channels _ _ (setQueue_channels _ _ (by assumption))
        · exact setQueue_channels _ _ (by assumption)

theorem queuePacket_channels {s0 s : State} (m) (i) (flags) (h : SameChannels s0 s) : SameChannels s0 (queuePacket m i flags s) := by
  unfold queuePacket
  try dsimp only
  exact enqueue_channels _ _ _ (rotate_channels _ (by assumption))

theorem startMsg_channels {s0 s : State} (m) (h : SameChannels s0 s) : SameChannels s0 (startMsg m s) := by
  unfold startMsg
  try dsimp only
  refine SameChannels.foldl (fun _ _ _ => ?_) ?_
  · exact queuePacket_channels _ _ _ (by assumption)
  · exact SameChannels.put (by assumption) rfl

theorem submitMsg_channels {s0 s : State} (m) (h : SameChannels s0 s) : SameChannels s0 (submitMsg m s) := by
  unfold submitMsg
  try dsimp only
  split
  · exact startMsg_channels _ (by assumption)
  · exact SameChannels.put (by assumption) rfl

theorem freeBelow_channels {s0 s : State} (n) (h : SameChannels s0 s) : SameChannels s0 (freeBelow n s).2 := by
  unfold freeBelow
  try dsimp only
  exact SameChannels.put (by assumption) rfl

theorem freeOf_channels {s0 s : State} (l) (d) (h : SameChannels s0 s) : SameChannels s0 (freeOf l d s).2 := by
  unfold freeOf
  try dsimp only
  exact freeBelow_channels _ (by assumption)

theorem takeSeq_channels {s0 s : State} (dest) (h : SameChannels s0 s) : SameChannels s0 (takeSeq dest s).2 := by
  unfold takeSeq
  try dsimp only
  exact SameChannels.put (by assumption) rfl

theorem sendPieces_channels {s0 s : State} (dest) (dike) (charged) (carried) (sseq) (pieces)
    (h : SameChannels s0 s) : SameChannels s0 (sendPieces dest dike charged carried sseq pieces s) := by
  unfold sendPieces
  try dsimp only
  split
  · exact SameChannels.put (by assumption) rfl
  · exact submitMsg_channels _ (takeSeq_channels _ (SameChannels.put (by assumption) rfl))

theorem takeSseq_channels {s0 s : State} (h : SameChannels s0 s) : SameChannels s0 (takeSseq s).2 := by
  unfold takeSseq
  try dsimp only
  exact SameChannels.put (by assumption) rfl

theorem countBlocks_channels {s0 s : State} (bs) (h : SameChannels s0 s) : SameChannels s0 (countBlocks bs s) := by
  unfold countBlocks
  try dsimp only
  exact SameChannels.put (wEvent_channels _ _ _ _ (wEvent_channels _ _ _ _ (by assumption))) rfl

theorem updOwned_channels {s0 s : State} (slot) (f) (h : SameChannels s0 s) : SameChannels s0 (updOwned slot f s) := by
  unfold updOwned
  try dsimp only
  exact SameChannels.put (by assumption) rfl

theorem wrapWrite_channels {s0 s : State} (base) (size) (off) (bs) (h : SameChannels s0 s) : SameChannels s0 (wrapWrite base size off bs s) := by
  unfold wrapWrite
  try dsimp only
  exact writeMem_channels _ _ (writeMem_channels _ _ (by assumption))

theorem sendHidden_channels {s0 s : State} (slot) (firstPos) (raw)
    (h : SameChannels s0 s) : SameChannels s0 (sendHidden slot firstPos raw s) := by
  unfold sendHidden
  try dsimp only
  split
  · split
    · assumption
    · exact sendPieces_channels _ _ _ _ _ _ (countBlocks_channels _ (updOwned_channels _ _ (takeSseq_channels (by assumption))))
  · assumption

theorem keepLogits_channels {s0 s : State} (slot) (firstPos) (rows)
    (h : SameChannels s0 s) : SameChannels s0 (keepLogits slot firstPos rows s) := by
  unfold keepLogits
  try dsimp only
  split
  · split
    · exact SameChannels.put (by assumption) rfl
    · assumption
  · assumption

theorem takeRecord_channels {s0 s : State} (bs) (payload) (c) (h : SameChannels s0 s) : SameChannels s0 (takeRecord bs payload c s) := by
  unfold takeRecord
  try dsimp only
  split
  · exact raise_channels _ (by assumption)
  · split
    · exact raise_channels _ (by assumption)
    · split
      · assumption
      · split
        · exact sendHidden_channels _ _ _ (by assumption)
        · exact keepLogits_channels _ _ _ (by assumption)

end Sys2Proof.Machine
end

