-- ==== Sys2Proof/Laws/GrowsRings.lean ====
section
/-! SUPPORT. Each operation lets grow what Safety.Grows names: health, images, checkpoints and ring commands.
`f_grows`: if `s` has grown from `s0`, so has what `f` makes of `s`. -/

namespace Sys2Proof.Machine

open Sys2Proof.Safety

theorem setCore_grows {s0 s : State} (die) (phys) (c) (h : Grows s0 s) : Grows s0 (setCore die phys c s) := by
  unfold setCore
  try dsimp only
  exact Grows.put (by assumption) rfl

theorem updCore_grows {s0 s : State} (die) (phys) (f) (h : Grows s0 s) : Grows s0 (updCore die phys f s) := by
  unfold updCore
  try dsimp only
  exact setCore_grows _ _ _ (by assumption)

theorem addScore_grows {s0 s : State} (die) (phys) (n) (h : Grows s0 s) : Grows s0 (addScore die phys n s) := by
  unfold addScore
  try dsimp only
  exact updCore_grows _ _ _ (by assumption)

theorem carryItems_grows {s0 s : State} (items) (h : Grows s0 s) : Grows s0 (carryItems items s) := by
  unfold carryItems
  try dsimp only
  refine Grows.foldl (fun _ _ _ => ?_) ?_
  · split
    · assumption
    · split
      · assumption
      · exact disposition_grows _ _ _ _ (pullItems_grows _ (updSeq_grows _ _ (by assumption)))
  · assumption

theorem chargeFault_grows {s0 s : State} (phys) (temp) (h : Grows s0 s) : Grows s0 (chargeFault phys temp s) := by
  unfold chargeFault
  try dsimp only
  exact updCore_grows _ _ _ (by assumption)

theorem chargeShadow_grows {s0 s : State} (h : Grows s0 s) : Grows s0 (chargeShadow s) := by
  unfold chargeShadow
  try dsimp only
  refine Grows.foldl (fun _ _ _ => ?_) ?_
  · exact charge_grows _ _ _ (Grows.put (by assumption) rfl)
  · assumption

theorem chargeUnresolved_grows {s0 s : State} (phys) (n) (h : Grows s0 s) : Grows s0 (chargeUnresolved phys n s) := by
  unfold chargeUnresolved
  try dsimp only
  exact updCore_grows _ _ _ (by assumption)

theorem setDie_grows {s0 s : State} (d) (x) (h : Grows s0 s) : Grows s0 (setDie d x s) := by
  unfold setDie
  try dsimp only
  exact Grows.put (by assumption) rfl

theorem quarantine_grows {s0 s : State} (die) (phys) (cause) (h : Grows s0 s) : Grows s0 (quarantine die phys cause s) := by
  unfold quarantine
  try dsimp only
  exact bump_grows _ _ (queueFlash_grows _ (setDie_grows _ _ (updCore_grows _ _ _ (by assumption))))

theorem expel_grows {s0 s : State} (die) (phys) (c) (h : Grows s0 s) : Grows s0 (expel die phys c s) := by
  unfold expel
  try dsimp only
  split
  · exact quarantine_grows _ _ _ (by assumption)
  · exact raiseIf_grows _ _ (setCore_grows _ _ _ (by assumption))

theorem coreAction_grows {s0 s : State} (die) (phys) (h : Grows s0 s) : Grows s0 (coreAction die phys s) := by
  unfold coreAction
  try dsimp only
  split
  · split
    · exact raise_grows _ (setCore_grows _ _ _ (by assumption))
    · assumption
  · split
    · exact setCore_grows _ _ _ (by assumption)
    · split
      · split
        · exact setCore_grows _ _ _ (by assumption)
        · assumption
      · exact expel_grows _ _ _ (by assumption)
  · assumption

theorem remapCore_grows {s0 s : State} (die) (l) (h : Grows s0 s) : Grows s0 (remapCore die l s) := by
  unfold remapCore
  try dsimp only
  split
  · assumption
  · split
    · exact raise_grows _ (updCore_grows _ _ _ (setDie_grows _ _ (by assumption)))
    · split
      · exact raise_grows _ (updCore_grows _ _ _ (setDie_grows _ _ (by assumption)))
      · exact raise_grows _ (setDie_grows _ _ (by assumption))

theorem coresAction_grows {s0 s : State} (h : Grows s0 s) : Grows s0 (coresAction s) := by
  unfold coresAction
  try dsimp only
  refine Grows.foldl (fun _ _ _ => ?_) ?_
  · split
    · refine Grows.foldl (fun _ _ _ => ?_) ?_
      · exact remapCore_grows _ _ (by assumption)
      · refine Grows.foldl (fun _ _ _ => ?_) ?_
        · exact coreAction_grows _ _ (by assumption)
        · assumption
    · assumption
  · assumption

theorem coresOff_grows {s0 s : State} (d) (h : Grows s0 s) : Grows s0 (coresOff d s) := by
  unfold coresOff
  try dsimp only
  refine Grows.foldl (fun _ _ _ => ?_) ?_
  · exact updCore_grows _ _ _ (by assumption)
  · assumption

theorem coresOn_grows {s0 s : State} (d) (h : Grows s0 s) : Grows s0 (coresOn d s) := by
  unfold coresOn
  try dsimp only
  refine Grows.foldl (fun _ _ _ => ?_) ?_
  · exact updCore_grows _ _ _ (by assumption)
  · assumption

theorem enterDie_grows {s0 s : State} (d) (st) (h : Grows s0 s) : Grows s0 (enterDie d st s) := by
  unfold enterDie
  try dsimp only
  exact raise_grows _ (setDie_grows _ _ (by assumption))

theorem stopDie_grows {s0 s : State} (d) (st) (h : Grows s0 s) : Grows s0 (stopDie d st s) := by
  unfold stopDie
  try dsimp only
  refine coresOff_grows _ ?_
  refine enterDie_grows _ _ ?_
  split
  · assumption
  · exact carryItems_grows _ (by assumption)

theorem diesAction_grows {s0 s : State} (n) (h : Grows s0 s) : Grows s0 (diesAction n s) := by
  unfold diesAction
  try dsimp only
  refine Grows.foldl (fun _ _ _ => ?_) ?_
  · split
    · split
      · exact stopDie_grows _ _ (by assumption)
      · assumption
    · split
      · exact coresOn_grows _ (enterDie_grows _ _ (by assumption))
      · assumption
    · assumption
  · assumption

theorem moveItem_grows {s0 s : State} (i) (h : Grows s0 s) : Grows s0 (moveItem i s) := by
  unfold moveItem
  try dsimp only
  split
  · assumption
  · exact Grows.put (by assumption) rfl

theorem discardItems_grows {s0 s : State} (core) (h : Grows s0 s) : Grows s0 (discardItems core s) := by
  unfold discardItems
  try dsimp only
  split
  · assumption
  · split
    · exact carryItems_grows _ (by assumption)
    · refine Grows.foldl (fun _ _ _ => ?_) ?_
      · exact moveItem_grows _ (by assumption)
      · exact Grows.put (by assumption) rfl

theorem doDrainDie_grows {s0 s : State} (t) (d) (force) (h : Grows s0 s) : Grows s0 (doDrainDie t d force s) := by
  unfold doDrainDie
  try dsimp only
  split
  · exact refusedWith_grows _ _ (by assumption)
  · split
    · exact refusedWith_grows _ _ (by assumption)
    · refine done_grows _ ?_
      split
      · exact stopDie_grows _ _ (by assumption)
      · exact enterDie_grows _ _ (by assumption)

theorem doReadmitDie_grows {s0 s : State} (t) (d) (h : Grows s0 s) : Grows s0 (doReadmitDie t d s) := by
  unfold doReadmitDie
  try dsimp only
  split
  · exact refusedWith_grows _ _ (by assumption)
  · split
    · exact done_grows _ (enterDie_grows _ _ (by assumption))
    · split
      · exact done_grows _ (enterDie_grows _ _ (by assumption))
      · exact refusedWith_grows _ _ (by assumption)
    · exact refusedWith_grows _ _ (by assumption)

theorem execCoreMemoryCe_grows {s0 s : State} {t} {die phys}
    (e : execCoreMemoryCe die phys s = .next t) (h : Grows s0 s) : Grows s0 t := by
  unfold execCoreMemoryCe at e
  try dsimp only at e
  injection e with e
  subst e
  split
  · exact addScore_grows _ _ _ (bump_grows _ _ (by assumption))
  · assumption

theorem hardFault_grows {s0 s : State} (die) (phys) (cause) (h : Grows s0 s) : Grows s0 (hardFault die phys cause s) := by
  unfold hardFault
  try dsimp only
  split
  · assumption
  · split
    · exact swapCheck_grows (discardItems_grows _ (raise_grows _ (quarantine_grows _ _ _ (updCore_grows _ _ _
        (by assumption)))))
    · exact raise_grows _ (quarantine_grows _ _ _ (updCore_grows _ _ _ (by assumption)))

theorem execCoreMemoryUe_grows {s0 s : State} {t} {die phys}
    (e : execCoreMemoryUe die phys s = .next t) (h : Grows s0 s) : Grows s0 t := by
  unfold execCoreMemoryUe at e
  try dsimp only at e
  injection e with e
  subst e
  split
  · exact hardFault_grows _ _ _ (by assumption)
  · assumption

theorem linkFaults_grows {s0 s : State} (h : Grows s0 s) : Grows s0 (linkFaults s) := by
  unfold linkFaults
  try dsimp only
  refine Grows.foldl (fun _ _ _ => ?_) ?_
  · split
    · exact dropFault_grows _ (by assumption)
    · exact addFault_grows _ (by assumption)
  · refine Grows.foldl (fun _ _ _ => ?_) ?_
    · split
      · exact dropFault_grows _ (by assumption)
      · exact addFault_grows _ (by assumption)
    · assumption

theorem withdrawPort_grows {s0 s : State} (p) (w) (h : Grows s0 s) : Grows s0 (withdrawPort p w s) := by
  unfold withdrawPort
  try dsimp only
  split
  · assumption
  · split
    · exact movePort_grows _ (raise_grows _ (setPort_grows _ _ (by assumption)))
    · exact raise_grows _ (setPort_grows _ _ (by assumption))

theorem linkConsequence_grows {s0 s : State} (l) (h : Grows s0 s) : Grows s0 (linkConsequence l s) := by
  unfold linkConsequence
  try dsimp only
  split
  · split
    · exact linkFaults_grows (by assumption)
    · split
      · exact linkFaults_grows (by assumption)
      · refine linkFaults_grows ?_
        assumption
      · exact stopDie_grows _ _ (linkFaults_grows (by assumption))
  · split
    · exact withdrawPort_grows _ _ (withdrawPort_grows _ _ (linkFaults_grows (by assumption)))
    · exact linkFaults_grows (by assumption)

theorem setLink_grows {s0 s : State} (l) (st) (h : Grows s0 s) : Grows s0 (setLink l st s) := by
  unfold setLink
  try dsimp only
  exact Grows.put (by assumption) rfl

theorem execD2dLinkFailure_grows {s0 s : State} {t} {link down}
    (e : execD2dLinkFailure link down s = .next t) (h : Grows s0 s) : Grows s0 t := by
  unfold execD2dLinkFailure at e
  try dsimp only at e
  injection e with e
  subst e
  split
  · exact linkConsequence_grows _ (raise_grows _ (setLink_grows _ _ (by assumption)))
  · assumption

theorem execHourTick_grows {s0 s : State} {t} {failed} (e : execHourTick failed s = .next t) (h : Grows s0 s) : Grows s0 t := by
  unfold execHourTick at e
  try dsimp only at e
  split at e
  · injection e with e
    subst e
    refine Grows.foldl (fun _ _ _ => ?_) ?_
    · exact hardFault_grows _ _ _ (by assumption)
    · exact Grows.put (setNow_grows _ (by assumption)) rfl
  · injection e with e
    subst e
    assumption

theorem execItemOverrun_grows {s0 s : State} {t} {die phys}
    (e : execItemOverrun die phys s = .next t) (h : Grows s0 s) : Grows s0 t := by
  unfold execItemOverrun at e
  try dsimp only at e
  injection e with e
  subst e
  split
  · exact hardFault_grows _ _ _ (by assumption)
  · assumption

theorem execLaneRepair_grows {s0 s : State} {t} {link} (e : execLaneRepair link s = .next t) (h : Grows s0 s) : Grows s0 t := by
  unfold execLaneRepair at e
  try dsimp only at e
  injection e with e
  subst e
  split
  · exact linkConsequence_grows _ (setLink_grows _ _ (by assumption))
  · assumption

theorem settleMismatch_grows {s0 s : State} (m) (ref) (h : Grows s0 s) : Grows s0 (settleMismatch m ref s) := by
  unfold settleMismatch
  try dsimp only
  refine Grows.put ?_ rfl
  refine writeMem_grows _ _ ?_
  split
  · split
    · exact chargeFault_grows _ _ (by assumption)
    · split
      · exact chargeFault_grows _ _ (by assumption)
      · split
        · exact raise_grows _ (chargeUnresolved_grows _ _ (chargeUnresolved_grows _ _ (by assumption)))
        · exact chargeUnresolved_grows _ _ (chargeUnresolved_grows _ _ (by assumption))
  · split
    · split
      · exact chargeFault_grows _ _ (by assumption)
      · split
        · exact chargeFault_grows _ _ (by assumption)
        · split
          · exact raise_grows _ (chargeUnresolved_grows _ _ (chargeUnresolved_grows _ _ (by assumption)))
          · exact chargeUnresolved_grows _ _ (chargeUnresolved_grows _ _ (by assumption))
    · split
      · split
        · exact chargeFault_grows _ _ (by assumption)
        · split
          · exact chargeFault_grows _ _ (by assumption)
          · split
            · exact raise_grows _ (chargeUnresolved_grows _ _ (chargeUnresolved_grows _ _ (by assumption)))
            · exact chargeUnresolved_grows _ _ (chargeUnresolved_grows _ _ (by assumption))
      · split
        · exact chargeFault_grows _ _ (by assumption)
        · split
          · exact chargeFault_grows _ _ (by assumption)
          · split
            · exact raise_grows _ (chargeUnresolved_grows _ _ (chargeUnresolved_grows _ _ (by assumption)))
            · exact chargeUnresolved_grows _ _ (chargeUnresolved_grows _ _ (by assumption))

theorem execRefereeComplete_grows {s0 s : State} {t} {mismatch result}
    (e : execRefereeComplete mismatch result s = .next t) (h : Grows s0 s) : Grows s0 t := by
  unfold execRefereeComplete at e
  try dsimp only at e
  split at e
  · injection e with e
    subst e
    assumption
  · injection e with e
    subst e
    split
    · refine settleMismatch_grows _ _ ?_
      split
      · exact chargeShadow_grows (by assumption)
      · assumption
    · assumption

theorem execSelfCheckComplete_grows {s0 s : State} {t} {die failed}
    (e : execSelfCheckComplete die failed s = .next t) (h : Grows s0 s) : Grows s0 t := by
  unfold execSelfCheckComplete at e
  try dsimp only at e
  split at e
  · injection e with e
    subst e
    refine setDie_grows _ _ ?_
    refine Grows.foldl (fun _ _ _ => ?_) ?_
    · split
      · assumption
      · exact raise_grows _ (quarantine_grows _ _ _ (updCore_grows _ _ _ (by assumption)))
    · assumption
  · injection e with e
    subst e
    assumption

theorem mismatch_grows {s0 s : State} (i) (shadowOn) (prim) (shadow) (sensors)
    (h : Grows s0 s) : Grows s0 (mismatch i shadowOn prim shadow sensors s) := by
  unfold mismatch
  try dsimp only
  split
  · exact settleMismatch_grows _ _ (Grows.put (raise_grows _ (bump_grows _ _ (by assumption))) rfl)
  · exact Grows.put (raise_grows _ (bump_grows _ _ (by assumption))) rfl

theorem execShadowComplete_grows {s0 s : State} {t} {item prim shadow sensors}
    (e : execShadowComplete item prim shadow sensors s = .next t) (h : Grows s0 s) : Grows s0 t := by
  unfold execShadowComplete at e
  try dsimp only at e
  split at e
  · injection e with e
    subst e
    assumption
  · split at e
    · injection e with e
      subst e
      assumption
    · injection e with e
      subst e
      split
      · split
        · exact decRef_grows _ (Grows.put (wEvent_grows _ _ _ _ (chargeShadow_grows (by assumption))) rfl)
        · exact Grows.put (wEvent_grows _ _ _ _ (chargeShadow_grows (by assumption))) rfl
      · refine mismatch_grows _ _ _ _ _ ?_
        split
        · exact decRef_grows _ (Grows.put (wEvent_grows _ _ _ _ (chargeShadow_grows (by assumption))) rfl)
        · exact Grows.put (wEvent_grows _ _ _ _ (chargeShadow_grows (by assumption))) rfl

theorem logEvent_grows {s0 s : State} (code) (digest) (h : Grows s0 s) : Grows s0 (logEvent code digest s) :=
  h.of_eq rfl rfl rfl

theorem doCommitSvn_grows {s0 s : State} (t) (h : Grows s0 s) : Grows s0 (doCommitSvn t s) := by
  unfold doCommitSvn
  split
  · exact done_grows _ (logEvent_grows _ _ (h.of_eq rfl rfl rfl))
  · exact refusedWith_grows _ _ h

theorem doStageImage_grows {s0 s : State} (t) (h_) (bytes) (h : Grows s0 s) : Grows s0 (doStageImage t h_ bytes s) := by
  unfold doStageImage
  try dsimp only
  split
  · exact refusedWith_grows _ _ (by assumption)
  · exact Grows.put (by assumption) rfl

theorem doSwitchImage_grows {s0 s : State} (t) (h : Grows s0 s) : Grows s0 (doSwitchImage t s) := by
  unfold doSwitchImage
  try dsimp only
  split
  · exact Grows.put (by assumption) rfl
  · exact refusedWith_grows _ _ (by assumption)

theorem updateDone_grows {s0 s : State} (f)
    (Hf : ∀ a0 a1, Grows s0 a1 → Grows s0 (f a0 a1)) (h : Grows s0 s) : Grows s0 (updateDone f s) := by
  unfold updateDone
  try dsimp only
  split
  · assumption
  · apply Hf
    exact Grows.put (by assumption) rfl

theorem execFirmwareSwitchComplete_grows {s0 s : State} {t}
    (e : execFirmwareSwitchComplete s = .next t) (h : Grows s0 s) : Grows s0 t := by
  unfold execFirmwareSwitchComplete at e
  try dsimp only at e
  split at e
  · injection e with e
    subst e
    refine queueFlash_grows _ ?_
    refine updateDone_grows _ ?_ ?_
    · intro _ _ _
      exact done_grows _ (by assumption)
    · exact raise_grows _ (logEvent_grows _ _ (Grows.put (by assumption) rfl))
  · injection e with e
    subst e
    assumption

theorem execFlashWriteComplete_grows {s0 s : State} {t} {ok}
    (e : execFlashWriteComplete ok s = .next t) (h : Grows s0 s) : Grows s0 t := by
  unfold execFlashWriteComplete at e
  try dsimp only at e
  split at e
  · split at e
    · injection e with e
      subst e
      assumption
    · split at e
      · injection e with e
        subst e
        split
        · exact raise_grows _ (popFlash_grows (writeFlash_grows _ _ (by assumption)))
        · exact Grows.put (popFlash_grows (writeFlash_grows _ _ (by assumption))) rfl
      · injection e with e
        subst e
        exact Grows.put (popFlash_grows (breakFlash_grows _ (by assumption))) rfl
  · injection e with e
    subst e
    assumption

theorem refuseImage_grows {s0 s : State} (cause) (h : Grows s0 s) : Grows s0 (refuseImage cause s) := by
  unfold refuseImage
  try dsimp only
  exact raise_grows _ (Grows.put (by assumption) rfl)

theorem execImageVerifyComplete_grows {s0 s : State} {t} {sigOk}
    (e : execImageVerifyComplete sigOk s = .next t) (h : Grows s0 s) : Grows s0 t := by
  unfold execImageVerifyComplete at e
  try dsimp only at e
  split at e
  · split at e
    · injection e with e
      subst e
      refine updateDone_grows _ ?_ ?_
      · intro _ _ _
        exact done_grows _ (by assumption)
      · exact Grows.put (by assumption) rfl
    · injection e with e
      subst e
      refine updateDone_grows _ ?_ ?_
      · intro _ _ _
        exact refusedWith_grows _ _ (by assumption)
      · exact refuseImage_grows _ (Grows.put (freeBelow_grows _ (by assumption)) rfl)
  · injection e with e
    subst e
    assumption

theorem execStagedImageTimeout_grows {s0 s : State} {t}
    (e : execStagedImageTimeout s = .next t) (h : Grows s0 s) : Grows s0 t := by
  unfold execStagedImageTimeout at e
  try dsimp only at e
  split at e
  · injection e with e
    subst e
    exact setNow_grows _ (Grows.put (by assumption) rfl)
  · injection e with e
    subst e
    assumption

theorem putCkpt_grows {s0 s : State} (n) (r) (h : Grows s0 s) : Grows s0 (putCkpt n r s) := by
  unfold putCkpt
  try dsimp only
  exact Grows.put (ringWrite_grows _ _ _ _ (by assumption)) rfl

theorem checkpointDike_grows {s0 s : State} (n) (d) (h : Grows s0 s) : Grows s0 (checkpointDike n d s) := by
  unfold checkpointDike
  try dsimp only
  split
  · exact raise_grows _ (bump_grows _ _ (Grows.put (by assumption) rfl))
  · refine Grows.foldl (fun _ _ _ => ?_) ?_
    · exact Grows.put (putCkpt_grows _ _ (by assumption)) rfl
    · exact Grows.put (by assumption) rfl

theorem flushOwed_grows {s0 x2 : State} (n) (x1) (h : Grows s0 x2) : Grows s0 (flushOwed n x1 x2) := by
  induction x1 generalizing x2 with
  | nil =>
    unfold flushOwed
    try dsimp only
    assumption
  | cons a l ih =>
    unfold flushOwed
    try dsimp only
    split
    · apply ih
      exact putCkpt_grows _ _ (Grows.put (by assumption) rfl)
    · assumption

theorem checkpoints_grows {s0 s : State} (n) (h : Grows s0 s) : Grows s0 (checkpoints n s) := by
  unfold checkpoints
  try dsimp only
  refine Grows.foldl (fun _ _ _ => ?_) ?_
  · split
    · exact checkpointDike_grows _ _ (checkpointObjects_grows _ (Grows.put (by assumption) rfl))
    · split
      · exact checkpointDike_grows _ _ (by assumption)
      · assumption
  · exact flushOwed_grows _ _ (by assumption)

theorem oweCkpt_grows {s0 s : State} (r) (h : Grows s0 s) : Grows s0 (oweCkpt r s) := by
  unfold oweCkpt
  try dsimp only
  exact Grows.put (by assumption) rfl

theorem setWire_grows {s0 s : State} (d) (w) (h : Grows s0 s) : Grows s0 (setWire d w s) := by
  unfold setWire
  try dsimp only
  exact Grows.put (by assumption) rfl

theorem installWire_grows {s0 s : State} (d) (v) (key) (h : Grows s0 s) : Grows s0 (installWire d v key s) := by
  unfold installWire
  try dsimp only
  exact Grows.put (setWire_grows _ _ (by assumption)) rfl

theorem applyBlob_grows {s0 s : State} (b) (key) (port) (h : Grows s0 s) : Grows s0 (applyBlob b key port s) := by
  unfold applyBlob
  try dsimp only
  split
  · exact Grows.put (by assumption) rfl
  · exact installWire_grows _ _ _ (by assumption)
  · exact Grows.put (by assumption) rfl
  · exact installWire_grows _ _ _ (by assumption)
  · exact setWire_grows _ _ (by assumption)
  · refine setWire_grows _ _ ?_
    assumption
  · exact Grows.put (by assumption) rfl

theorem journalPend_grows {s0 s : State} (p) (op) (body) (cause)
    (h : Grows s0 s) : Grows s0 (journalPend p op body cause s) := by
  unfold journalPend
  try dsimp only
  exact journal_grows _ _ _ _ _ _ (by assumption)

theorem markLease_grows {s0 s : State} (d) (h : Grows s0 s) : Grows s0 (markLease d s) := by
  unfold markLease
  try dsimp only
  exact setAcct_grows _ _ (by assumption)

theorem endLease_grows {s0 s : State} (d) (h : Grows s0 s) : Grows s0 (endLease d s) := by
  unfold endLease
  try dsimp only
  exact markLease_grows _ (revokeDike_grows _ (flushDike_grows _ (setIntake_grows _ _ (Grows.put
    (by assumption) rfl))))

theorem putLease_grows {s0 s : State} (d) (o) (h : Grows s0 s) : Grows s0 (putLease d o s) := by
  unfold putLease
  try dsimp only
  refine markLease_grows _ ?_
  split
  · exact requantum_grows _ _ (Grows.put (by assumption) rfl)
  · exact setIntake_grows _ _ (grantQueues_grows _ _ (Grows.put (by assumption) rfl))

theorem doLease_grows {s0 s : State} (t) (d) (o) (h : Grows s0 s) : Grows s0 (doLease t d o s) := by
  unfold doLease
  try dsimp only
  split
  · exact refusedWith_grows _ _ (by assumption)
  · refine done_grows _ ?_
    split
    · exact endLease_grows _ (by assumption)
    · exact putLease_grows _ _ (by assumption)

theorem takeBlob_grows {s0 s : State} (b) (opened) (doe) (port) (cause)
    (h : Grows s0 s) : Grows s0 (takeBlob b opened doe port cause s) := by
  unfold takeBlob
  try dsimp only
  split
  · refine applyBlob_grows _ _ _ ?_
    refine Grows.put ?_ rfl
    split
    · assumption
    · exact Grows.put (by assumption) rfl
  · refine raise_grows _ ?_
    refine bump_grows _ _ ?_
    refine Grows.put ?_ rfl
    split
    · assumption
    · exact Grows.put (by assumption) rfl

theorem doInstallKey_grows {s0 s : State} (t) (b) (opened) (h : Grows s0 s) : Grows s0 (doInstallKey t b opened s) := by
  unfold doInstallKey
  try dsimp only
  split
  · exact done_grows _ (takeBlob_grows _ _ _ _ _ (by assumption))
  · exact refusedWith_grows _ _ (takeBlob_grows _ _ _ _ _ (by assumption))

theorem tableResult_grows {s0 s : State} (cmd) (cause) (entry) (h : Grows s0 s) : Grows s0 (tableResult cmd cause entry s) := by
  unfold tableResult
  try dsimp only
  exact Grows.put (by assumption) rfl

theorem doInstallTable_grows {s0 s : State} (t) (entry) (currentStep) (bs)
    (h : Grows s0 s) : Grows s0 (doInstallTable t entry currentStep bs s) := by
  unfold doInstallTable
  try dsimp only
  split
  · exact refusedWith_grows _ _ (raise_grows _ (tableResult_grows _ _ _ (by assumption)))
  · exact done_grows _ (tableResult_grows _ _ _ (Grows.put (by assumption) rfl))

theorem placeHomes_grows {s0 s : State} (i) (h : Grows s0 s) : Grows s0 (placeHomes i s) := by
  unfold placeHomes
  try dsimp only
  split
  · assumption
  · refine updDesc_grows _ _ ?_
    split
    · exact takeMap_grows _ _ _ (takeExtents_grows _ _ _ (takeMap_grows _ _ _ (takeExtents_grows _ _ _ (by assumption))))
    · dsimp only
      exact takeMap_grows _ _ _ (takeExtents_grows _ _ _ (by assumption))

theorem doAllocObject_grows {s0 s : State} (t) (d) (extents) (alloc) (pin) (durable)
    (h : Grows s0 s) : Grows s0 (doAllocObject t d extents alloc pin durable s) := by
  unfold doAllocObject
  try dsimp only
  split
  · exact malformed_grows _ (by assumption)
  · split
    · exact reasonWith_grows _ _ (by assumption)
    · split
      · refine reasonWith_grows _ _ ?_
        assumption
      · split
        · exact reasonWith_grows _ _ (by assumption)
        · split
          · exact reasonWith_grows _ _ (by assumption)
          · split
            · exact reasonWith_grows _ _ (by assumption)
            · refine doneWith_grows _ _ _ ?_
              refine placeHomes_grows _ ?_
              refine makeRoom_grows ?_ (by assumption) ?_
              · intro _ _ _ _
                exact freeFragments_grows _ _ (by assumption)
              · exact newDesc_grows _ (by assumption)

theorem doFreeObject_grows {s0 s : State} (t) (d) (index) (gen) (h : Grows s0 s) : Grows s0 (doFreeObject t d index gen s) := by
  unfold doFreeObject
  try dsimp only
  split
  · exact refusedWith_grows _ _ (by assumption)
  · refine done_grows _ ?_
    refine decRef_grows _ ?_
    refine updDesc_grows _ _ ?_
    refine Grows.foldl (fun _ _ _ => ?_) ?_
    · exact forceRevoke_grows _ (by assumption)
    · assumption

theorem applyCommand_grows {s0 s : State} (p) (t) (op) (body) (h : Grows s0 s) : Grows s0 (applyCommand p t op body s) := by
  unfold applyCommand
  try dsimp only
  split
  · exact doLease_grows _ _ _ (journalPend_grows _ _ _ _ (by assumption))
  · exact doInstallKey_grows _ _ _ (journalPend_grows _ _ _ _ (by assumption))
  · exact doInstallTable_grows _ _ _ _ (journalPend_grows _ _ _ _ (by assumption))
  · exact doDrainDie_grows _ _ _ (journalPend_grows _ _ _ _ (by assumption))
  · exact doReadmitDie_grows _ _ (journalPend_grows _ _ _ _ (by assumption))
  · exact doRegisterAdapter_grows _ _ (journalPend_grows _ _ _ _ (by assumption))
  · exact doWithdrawAdapter_grows _ _ _ (journalPend_grows _ _ _ _ (by assumption))
  · exact doRegisterContext_grows _ _ (journalPend_grows _ _ _ _ (by assumption))
  · exact doRetireContext_grows _ _ (journalPend_grows _ _ _ _ (by assumption))
  · exact doAllocObject_grows _ _ _ _ _ _ (journalPend_grows _ _ _ _ (by assumption))
  · exact doFreeObject_grows _ _ _ _ (journalPend_grows _ _ _ _ (by assumption))
  · exact journalPend_grows _ _ _ _ (by assumption)

theorem doCompose_grows {s0 s : State} (t) (bs) (h : Grows s0 s) : Grows s0 (doCompose t bs s) := by
  unfold doCompose
  try dsimp only
  split
  · exact refusedWith_grows _ _ (Grows.put (by assumption) rfl)
  · exact done_grows _ (Grows.put (by assumption) rfl)

theorem dropForeign_grows {s0 s : State} (h : Grows s0 s) : Grows s0 (dropForeign s) := by
  unfold dropForeign
  try dsimp only
  refine Grows.foldl (fun _ _ _ => ?_) ?_
  · split
    · assumption
    · exact dropPrefixesOf_grows _ _ (by assumption)
  · assumption

theorem eraseKeys_grows {s0 s : State} (h : Grows s0 s) : Grows s0 (eraseKeys s) := by
  unfold eraseKeys
  try dsimp only
  refine Grows.foldl (fun _ _ _ => ?_) ?_
  · exact raise_grows _ (Grows.put (by assumption) rfl)
  · assumption

theorem freeTables_grows {s0 s : State} (h : Grows s0 s) : Grows s0 (freeTables s) := by
  unfold freeTables
  try dsimp only
  exact Grows.put (by assumption) rfl

theorem refreshLeases_grows {s0 s : State} (h : Grows s0 s) : Grows s0 (refreshLeases s) := by
  unfold refreshLeases
  try dsimp only
  exact Grows.put (by assumption) rfl

end Sys2Proof.Machine
end

