-- ==== Sys2Proof/Laws/GrowsBoundary.lean ====
section
/-! SUPPORT. Each operation lets grow what Safety.Grows names: the actions of a step boundary.
`f_grows`: if `s` has grown from `s0`, so has what `f` makes of `s`. -/

namespace Sys2Proof.Machine

open Sys2Proof.Safety

theorem dropPends_grows {s0 s : State} (n) (action) (h : Grows s0 s) : Grows s0 (dropPends n action s) := by
  unfold dropPends
  try dsimp only
  exact Grows.put (by assumption) rfl

theorem clearWork_grows {s0 s : State} (handle) (h : Grows s0 s) : Grows s0 (clearWork handle s) := by
  unfold clearWork
  try dsimp only
  exact Grows.put (by assumption) rfl

theorem freeEntry_grows {s0 s : State} (slot) (h : Grows s0 s) : Grows s0 (freeEntry slot s) := by
  unfold freeEntry
  try dsimp only
  split
  · assumption
  · refine Grows.put ?_ rfl
    refine clearWork_grows _ ?_
    refine releasePages_grows _ ?_
    split
    · exact oweCkpt_grows _ (by assumption)
    · assumption

theorem releaseRing_grows {s0 s : State} (slot) (h : Grows s0 s) : Grows s0 (releaseRing slot s) := by
  unfold releaseRing
  try dsimp only
  split
  · assumption
  · split
    · assumption
    · refine Grows.foldl (fun _ _ _ => ?_) ?_
      · exact sendSlu_grows _ _ _ (by assumption)
      · assumption

theorem leaveKeeper_grows {s0 s : State} (slot) (h : Grows s0 s) : Grows s0 (leaveKeeper slot s) := by
  unfold leaveKeeper
  try dsimp only
  exact freeEntry_grows _ (releaseRing_grows _ (by assumption))

theorem recallOther_grows {s0 s : State} (slot) (n) (epoch) (r) (h : Grows s0 s) : Grows s0 (recallOther slot n epoch r s) := by
  unfold recallOther
  try dsimp only
  split
  · exact sendRecall_grows _ _ _ _ _ (by assumption)
  · split
    · exact sendRecall_grows _ _ _ _ _ (by assumption)
    · assumption

theorem applyEnd_grows {s0 s : State} (n) (p) (bytes) (h : Grows s0 s) : Grows s0 (applyEnd n p bytes s) := by
  unfold applyEnd
  try dsimp only
  split
  · assumption
  · split
    · exact freeEntry_grows _ (by assumption)
    · split
      · assumption
      · split
        · exact raise_grows _ (by assumption)
        · split
          · exact raise_grows _ (by assumption)
          · split
            · exact leaveKeeper_grows _ (recallOther_grows _ _ _ _ (by assumption))
            · assumption

theorem withdrawGrant_grows {s0 s : State} (slot) (h : Grows s0 s) : Grows s0 (withdrawGrant slot s) := by
  unfold withdrawGrant
  try dsimp only
  split
  · assumption
  · split
    · exact setRec_grows _ _ (by assumption)
    · assumption

theorem endSequence_grows {s0 s : State} (slot) (kind) (cause) (why) (n)
    (h : Grows s0 s) : Grows s0 (endSequence slot kind cause why n s) := by
  unfold endSequence
  try dsimp only
  split
  · assumption
  · exact leaveKeeper_grows _ (addNotice_grows _ _ _ _ (recallAll_grows _ _ _ (by assumption)))

theorem applyCancel_grows {s0 s : State} (n) (tenant) (requestId)
    (h : Grows s0 s) : Grows s0 (applyCancel n tenant requestId s) := by
  unfold applyCancel
  try dsimp only
  split
  · exact raise_grows _ (by assumption)
  · split
    · exact raise_grows _ (by assumption)
    · split
      · exact updSeq_grows _ _ (recallAll_grows _ _ _ (withdrawGrant_grows _ (addNotice_grows _ _ _ _ (by assumption))))
      · exact endSequence_grows _ _ _ _ _ (by assumption)

theorem applyPause_grows {s0 s : State} (n) (tenant) (requestId)
    (h : Grows s0 s) : Grows s0 (applyPause n tenant requestId s) := by
  unfold applyPause
  try dsimp only
  split
  · exact raise_grows _ (by assumption)
  · split
    · exact raise_grows _ (by assumption)
    · refine endSequence_grows _ _ _ _ _ ?_
      assumption

theorem applyHandoff_grows {s0 s : State} (n) (ps) (bytes) (h : Grows s0 s) : Grows s0 (applyHandoff n ps bytes s) := by
  unfold applyHandoff
  try dsimp only
  split
  · assumption
  · split
    · assumption
    · split
      · exact raise_grows _ (by assumption)
      · split
        · split
          · assumption
          · split
            · assumption
            · exact setRec_grows _ _ (by assumption)
        · assumption

theorem applyLeaves_grows {s0 s : State} (n) (h : Grows s0 s) : Grows s0 (applyLeaves n s) := by
  unfold applyLeaves
  try dsimp only
  refine Grows.foldl (fun _ _ _ => ?_) ?_
  · split
    · exact applyHandoff_grows _ _ _ (by assumption)
    · assumption
  · refine Grows.foldl (fun _ _ _ => ?_) ?_
    · split
      · exact applyCancel_grows _ _ _ (journalWait_grows _ (by assumption))
      · exact applyPause_grows _ _ _ (journalWait_grows _ (by assumption))
      · exact applyCommand_grows _ _ _ _ (by assumption)
      · assumption
    · refine Grows.foldl (fun _ _ _ => ?_) ?_
      · split
        · exact applyEnd_grows _ _ _ (journalWait_grows _ (by assumption))
        · assumption
      · exact dropPends_grows _ _ (by assumption)

theorem departOwner_grows {s0 s : State} (slot) (h : Grows s0 s) : Grows s0 (departOwner slot s) := by
  unfold departOwner
  try dsimp only
  split
  · exact freeEntry_grows _ (Grows.put (by assumption) rfl)
  · assumption

theorem departures_grows {s0 s : State} (n) (h : Grows s0 s) : Grows s0 (departures n s) := by
  unfold departures
  try dsimp only
  refine Grows.foldl (fun _ _ _ => ?_) ?_
  · exact departOwner_grows _ (by assumption)
  · assumption

theorem eachRec_grows {s0 s : State} (f)
    (Hf : ∀ a0 a1 a2, Grows s0 a2 → Grows s0 (f a0 a1 a2)) (h : Grows s0 s) : Grows s0 (eachRec f s) := by
  unfold eachRec
  try dsimp only
  refine Grows.foldl (fun _ _ _ => ?_) ?_
  · split
    · apply Hf
      assumption
    · assumption
  · assumption

theorem countQuiet_grows {s0 s : State} (h : Grows s0 s) : Grows s0 (countQuiet s) := by
  unfold countQuiet
  try dsimp only
  refine eachRec_grows _ ?_ ?_
  · intro _ _ _ _
    split
    · split
      · exact setRec_grows _ _ (by assumption)
      · split
        · exact setRec_grows _ _ (by assumption)
        · exact bump_grows _ _ (raise_grows _ (setRec_grows _ _ (by assumption)))
    · exact setRec_grows _ _ (by assumption)
  · assumption

theorem cancelOrphaned_grows {s0 s : State} (slot) (n) (h : Grows s0 s) : Grows s0 (cancelOrphaned slot n s) := by
  unfold cancelOrphaned
  try dsimp only
  exact endSequence_grows _ _ _ _ _ (by assumption)

theorem orphanPolicies_grows {s0 s : State} (n) (h : Grows s0 s) : Grows s0 (orphanPolicies n s) := by
  unfold orphanPolicies
  try dsimp only
  refine eachRec_grows _ ?_ ?_
  · intro _ _ _ _
    split
    · assumption
    · split
      · split
        · exact cancelOrphaned_grows _ _ (setRec_grows _ _ (by assumption))
        · exact resumeWait_grows _ _ (setRec_grows _ _ (by assumption))
      · assumption
  · assumption

theorem repairHistories_grows {s0 s : State} (n) (h : Grows s0 s) : Grows s0 (repairHistories n s) := by
  unfold repairHistories
  try dsimp only
  refine Grows.foldl (fun _ _ _ => ?_) ?_
  · exact cancelOrphaned_grows _ _ (by assumption)
  · exact Grows.put (by assumption) rfl

theorem damagedMasters_grows {s0 s : State} (n) (h : Grows s0 s) : Grows s0 (damagedMasters n s) := by
  unfold damagedMasters
  try dsimp only
  refine Grows.foldl (fun _ _ _ => ?_) ?_
  · refine Grows.foldl (fun _ _ _ => ?_) ?_
    · exact cancelOrphaned_grows _ _ (by assumption)
    · exact retireContext_grows _ (by assumption)
  · assumption

theorem tailChecks_grows {s0 s : State} (n) (h : Grows s0 s) : Grows s0 (tailChecks n s) := by
  unfold tailChecks
  try dsimp only
  refine eachRec_grows _ ?_ ?_
  · intro _ _ _ _
    split
    · split
      · assumption
      · split
        · exact setRec_grows _ _ (by assumption)
        · exact enterOrphan_grows _ (raise_grows _ (by assumption))
    · assumption
  · assumption

theorem effectRecs_grows {s0 s : State} (n) (h : Grows s0 s) : Grows s0 (effectRecs n s) := by
  unfold effectRecs
  try dsimp only
  refine eachRec_grows _ ?_ ?_
  · intro _ _ _ _
    split
    · split
      · exact enterOrphan_grows _ (by assumption)
      · exact setRec_grows _ _ (by assumption)
    · assumption
  · assumption

theorem actionLeave_grows {s0 s : State} (n) (h : Grows s0 s) : Grows s0 (actionLeave n s) := by
  unfold actionLeave
  try dsimp only
  refine reclaim_grows _ ?_ ?_
  · intro _ _ _ _
    exact freeFragments_grows _ _ (by assumption)
  · split
    · refine dispositionAt_grows _ _ _ _ _ ?_
      refine Grows.foldl (fun _ _ _ => ?_) ?_
      · exact returnSpare_grows _ (by assumption)
      · exact returnPinned_grows (tailChecks_grows _ (effectRecs_grows _ (repairHistories_grows _ (damagedMasters_grows _
          (orphanPolicies_grows _ (countQuiet_grows (departures_grows _ (applyLeaves_grows _ (by assumption)))))))))
    · refine Grows.foldl (fun _ _ _ => ?_) ?_
      · exact returnSpare_grows _ (by assumption)
      · exact returnPinned_grows (tailChecks_grows _ (effectRecs_grows _ (repairHistories_grows _ (damagedMasters_grows _
          (orphanPolicies_grows _ (countQuiet_grows (departures_grows _ (applyLeaves_grows _ (by assumption)))))))))

theorem closeAsk_grows {s0 s : State} (a) (h : Grows s0 s) : Grows s0 (closeAsk a s) := by
  unfold closeAsk
  try dsimp only
  exact Grows.put (by assumption) rfl

theorem dropSegments_grows {s0 s : State} (a) (h : Grows s0 s) : Grows s0 (dropSegments a s) := by
  unfold dropSegments
  try dsimp only
  refine Grows.foldl (fun _ _ _ => ?_) ?_
  · exact sendSlu_grows _ _ _ (by assumption)
  · assumption

theorem touchRun_grows {s0 x3 : State} (n) (x1) (x2) (h : Grows s0 x3) : Grows s0 (touchRun n x1 x2 x3) := by
  induction x1 generalizing x2 x3 with
  | zero =>
    unfold touchRun
    try dsimp only
    assumption
  | succ n ih =>
    unfold touchRun
    try dsimp only
    split
    · assumption
    · apply ih
      exact Grows.put (by assumption) rfl

theorem acceptQuery_grows {s0 : State} (n) (q) (ring) {r : State × Nat × Offer × List Chunk} (h : Grows s0 r.1) :
    Grows s0 (acceptQuery n q ring r) := by
  unfold acceptQuery
  dsimp only
  split
  · split
    · refine sendState_grows _ _ _ _ (sendVerdict_grows _ _ _ _ (setRec_grows _ _ (setHist_grows _ _ (updSeq_grows _ _ (Grows.put ?_ rfl)))))
      exact touchRun_grows _ _ _ h
    · refine sendVerdict_grows _ _ _ _ (setRec_grows _ _ (setHist_grows _ _ (updSeq_grows _ _ (Grows.put ?_ rfl))))
      exact touchRun_grows _ _ _ h
  · refine sendVerdict_grows _ _ _ _ (setRec_grows _ _ (setHist_grows _ _ (updSeq_grows _ _ (Grows.put ?_ rfl))))
    exact touchRun_grows _ _ _ h

theorem decideRing_grows {s0 s : State} (n) (a) (h : Grows s0 s) : Grows s0 (decideRing n a s) := by
  unfold decideRing
  dsimp only
  have hc : Grows s0 (closeAsk a s) := closeAsk_grows _ h
  split
  · exact sendVerdict_grows _ _ _ _ (dropSegments_grows _ hc)
  · split
    · exact sendVerdict_grows _ _ _ _ (dropSegments_grows _ hc)
    · exact acceptQuery_grows _ _ _ (testQuery_grows (by assumption) hc)

theorem askMembers_grows {s0 s : State} (q) (members) {tested} (handle) (h : Grows s0 s) :
    Grows s0 (askMembers q members tested handle s) := by
  unfold askMembers
  exact Grows.foldl (fun _ _ h => sendMsg_grows _ _ _ _ _ (takeSseq_grows h)) (h.of_eq rfl rfl rfl)

theorem admitOne_grows {s0 s : State} (n) (q) (h : Grows s0 s) : Grows s0 (admitOne n q s) := by
  unfold admitOne
  split
  · exact sendVerdict_grows _ _ _ _ h
  · dsimp only
    split
    · exact acceptQuery_grows _ _ _ (testQuery_grows (by assumption) h)
    · exact askMembers_grows _ _ _ h

theorem admitCase_grows {s0 s : State} (n) (c) (h : Grows s0 s) : Grows s0 (admitCase n c s) := by
  unfold admitCase
  try dsimp only
  split
  · exact decideRing_grows _ _ (by assumption)
  · exact admitOne_grows _ _ (by assumption)

theorem journalCase_grows {s0 s : State} (c) (h : Grows s0 s) : Grows s0 (journalCase c s) := by
  unfold journalCase
  try dsimp only
  split
  · assumption
  · exact journalMsg_grows _ _ _ _ _ (by assumption)

theorem carryCases_grows {s0 s : State} (n) (cs) (h : Grows s0 s) : Grows s0 (carryCases n cs s) := by
  unfold carryCases
  try dsimp only
  split
  · assumption
  · refine Grows.foldl (fun _ _ _ => ?_) ?_
    · refine sendVerdict_grows _ _ _ _ ?_
      split
      · exact dropSegments_grows _ (closeAsk_grows _ (by assumption))
      · assumption
    · exact raise_grows _ (dispositionAt_grows _ _ _ _ _ (by assumption))

theorem askCandidate_grows {s0 s : State} (f) (h : Grows s0 s) : Grows s0 (askCandidate f s).1 := by
  unfold askCandidate
  try dsimp only
  split
  · dsimp only
    exact sendMsg_grows _ _ _ _ _ (takeSseq_grows (by assumption))
  · dsimp only
    assumption

theorem askAll_grows {s0 s : State} (h : Grows s0 s) : Grows s0 (askAll s) := by
  unfold askAll
  try dsimp only
  refine Grows.put ?_ rfl
  refine Grows.foldl_fst (fun _ _ _ => ?_) ?_
  · dsimp only
    exact askCandidate_grows _ (by assumption)
  · dsimp only
    assumption

theorem verdictToGateway_grows {s0 s : State} (r) (bytes) (h : Grows s0 s) : Grows s0 (verdictToGateway r bytes s) := by
  unfold verdictToGateway
  try dsimp only
  exact sendMsg_grows _ _ _ _ _ (by assumption)

theorem ingressAnswer_grows {s0 s : State} (r) (a) (h : Grows s0 s) : Grows s0 (ingressAnswer r a s) := by
  unfold ingressAnswer
  try dsimp only
  exact verdictToGateway_grows _ _ (countVerdict_grows _ _ (by assumption))

theorem takeRequest_grows {s0 s : State} (n) (r) (h : Grows s0 s) : Grows s0 (takeRequest n r s) := by
  unfold takeRequest
  try dsimp only
  split
  · exact ingressAnswer_grows _ _ (by assumption)
  · split
    · exact ingressAnswer_grows _ _ (by assumption)
    · split
      · refine ingressAnswer_grows _ _ ?_
        assumption
      · split
        · exact ingressAnswer_grows _ _ (by assumption)
        · split
          · exact ingressAnswer_grows _ _ (by assumption)
          · split
            · exact ingressAnswer_grows _ _ (by assumption)
            · exact Grows.put (putSeq_grows _ _ (newHandle_grows (by assumption))) rfl

theorem actionAdmit_grows {s0 s : State} (n) (h : Grows s0 s) : Grows s0 (actionAdmit n s) := by
  unfold actionAdmit
  try dsimp only
  split
  · refine carryCases_grows _ _ ?_
    refine Grows.foldl (fun _ _ _ => ?_) ?_
    · exact journalCase_grows _ (by assumption)
    · refine Grows.foldl (fun _ _ _ => ?_) ?_
      · exact admitCase_grows _ _ (journalCase_grows _ (by assumption))
      · exact dropPends_grows _ _ (by assumption)
  · refine askAll_grows ?_
    refine Grows.foldl (fun _ _ _ => ?_) ?_
    · split
      · exact takeRequest_grows _ _ (journalWait_grows _ (by assumption))
      · assumption
    · exact dropPends_grows _ _ (by assumption)

theorem beginOwner_grows {s0 s : State} (f) (v) (h : Grows s0 s) : Grows s0 (beginOwner f v s) := by
  unfold beginOwner
  try dsimp only
  split
  · assumption
  · exact embedNext_grows _ (ownerSend_grows _ _ _ _ (Grows.put (updSeq_grows _ _ (by assumption)) rfl))

theorem execRequest_grows {s0 s : State} {t} {r} (e : execRequest r s = .next t) (h : Grows s0 s) : Grows s0 t := by
  unfold execRequest at e
  try dsimp only at e
  split at e
  · injection e with e
    subst e
    assumption
  · split at e
    · injection e with e
      subst e
      exact misdirect_grows _ (by assumption)
    · injection e with e
      subst e
      exact addWait_grows _ (noteFirst_grows _ _ (by assumption))

theorem noKeeper_grows {s0 s : State} (f) (h : Grows s0 s) : Grows s0 (noKeeper f s) := by
  unfold noKeeper
  try dsimp only
  split
  · exact verdictToGateway_grows _ _ (by assumption)
  · exact ingressAnswer_grows _ _ (by assumption)

theorem frontVerdict_grows {s0 s : State} (m) (v) (h : Grows s0 s) : Grows s0 (frontVerdict m v s) := by
  unfold frontVerdict
  try dsimp only
  split
  · assumption
  · split
    · exact beginOwner_grows _ _ (verdictToGateway_grows _ _ (Grows.put (by assumption) rfl))
    · split
      · exact Grows.put (by assumption) rfl
      · exact noKeeper_grows _ (Grows.put (by assumption) rfl)

theorem memberVerdict_grows {s0 s : State} (m) (v) (h : Grows s0 s) : Grows s0 (memberVerdict m v s) := by
  unfold memberVerdict
  try dsimp only
  exact Grows.put (by assumption) rfl

theorem onAdmitQuery_grows {s0 s : State} (m) (h : Grows s0 s) : Grows s0 (onAdmitQuery m s) := by
  unfold onAdmitQuery
  try dsimp only
  split
  · assumption
  · split
    · exact raise_grows _ (by assumption)
    · split
      · exact misdirect_grows _ (by assumption)
      · split
        · exact addWait_grows _ (noteFirst_grows _ _ (by assumption))
        · split
          · exact addWait_grows _ (noteFirst_grows _ _ (by assumption))
          · exact addWait_grows _ (noteFirst_grows _ _ (by assumption))

theorem onVerdict_grows {s0 s : State} (m) (h : Grows s0 s) : Grows s0 (onVerdict m s) := by
  unfold onVerdict
  try dsimp only
  split
  · assumption
  · split
    · exact raise_grows _ (by assumption)
    · split
      · exact misdirect_grows _ (by assumption)
      · split
        · exact frontVerdict_grows _ _ (consumeUnnumbered_grows _ _ _ (by assumption))
        · exact memberVerdict_grows _ _ (consumeUnnumbered_grows _ _ _ (by assumption))

theorem joinFork_grows {s0 s : State} (n) (q) (h : Grows s0 s) : Grows s0 (joinFork n q s) := by
  unfold joinFork
  split
  · exact sendVerdict_grows _ _ _ _ h
  · exact acceptQuery_grows _ _ _ (testQuery_grows (by assumption) h)

theorem testSegment_grows {s0 s : State} {t} {n q} (e : testSegment n q s = .ok t) (h : Grows s0 s) : Grows s0 t.1 := by
  unfold testSegment at e
  try dsimp only at e
  split at e
  · cases e
  · split at e
    · cases e
    · split at e
      · cases e
      · split at e
        · cases e
        · split at e
          · cases e
          · cases e
          · split at e
            · cases e
            · split at e
              · cases e
              · injection e with e
                subst e
                dsimp only
                refine testFreeboard_grows ?_ (by assumption) ?_
                · intro _ _
                  exact takeFreeboard_grows _ _ _ _ (putSeq_grows _ _ (by assumption))
                · exact newHandle_grows (by assumption)

theorem joinSegment_grows {s0 s : State} (n) (keeper) (msg) (h : Grows s0 s) : Grows s0 (joinSegment n keeper msg s) := by
  unfold joinSegment
  split
  · exact h
  · split
    · exact sendVerdict_grows _ _ _ _ h
    · rename_i e
      exact sendVerdict_grows _ _ _ _ (updSeq_grows _ _ (testSegment_grows e h))

theorem retryAt_grows {s0 s : State} (n) (step) (slot) (e_) (h : Grows s0 s) : Grows s0 (retryAt n step slot e_ s) := by
  unfold retryAt
  try dsimp only
  exact addWait_grows _ (by assumption)

theorem cutHopper_grows {s0 s : State} (slot) (l) (limit) (i) (d)
    (h : Grows s0 s) : Grows s0 (cutHopper slot l limit i d s) := by
  unfold cutHopper
  try dsimp only
  split
  · split
    · exact updDesc_grows _ _ (by assumption)
    · assumption
  · split
    · exact updLayer_grows _ _ _ (updDesc_grows _ _ (by assumption))
    · exact decRef_grows _ (updLayer_grows _ _ _ (by assumption))

theorem cutLayer_grows {s0 s : State} (slot) (limit) (l) (h : Grows s0 s) : Grows s0 (cutLayer slot limit l s) := by
  unfold cutLayer
  try dsimp only
  split
  · assumption
  · refine Grows.foldl (fun _ _ _ => ?_) ?_
    · split
      · exact updLayer_grows _ _ _ (by assumption)
      · split
        · exact cutHopper_grows _ _ _ _ _ (by assumption)
        · split
          · exact decRef_grows _ (updLayer_grows _ _ _ (by assumption))
          · assumption
    · assumption

theorem cutSequence_grows {s0 s : State} (slot) (limit) (h : Grows s0 s) : Grows s0 (cutSequence slot limit s) := by
  unfold cutSequence
  try dsimp only
  split
  · assumption
  · refine Grows.foldl (fun _ _ _ => ?_) ?_
    · exact cutLayer_grows _ _ _ (by assumption)
    · assumption

theorem testResume_grows {s0 s : State} {t} {n slot point e_}
    (e : testResume n slot point e_ s = .ok t) (h : Grows s0 s) : Grows s0 t.1 := by
  unfold testResume at e
  try dsimp only at e
  split at e
  · cases e
  · split at e
    · cases e
    · split at e
      · cases e
      · injection e with e
        subst e
        dsimp only
        refine testFreeboard_grows ?_ (by assumption) ?_
        · intro _ _
          exact cutSequence_grows _ _ (by assumption)
        · exact updSeq_grows _ _ (by assumption)

theorem grantResume_grows {s0 s : State} (n) (slot) (point) (p) (plan) (e_) (r)
    (h : Grows s0 s) : Grows s0 (grantResume n slot point p plan e_ r s) := by
  unfold grantResume
  try dsimp only
  refine sendGrant_grows _ _ _ _ _ _ ?_
  split
  · exact setRec_grows _ _ (updSeq_grows _ _ (clearWork_grows _ (by assumption)))
  · exact addNotice_grows _ _ _ _ (setRec_grows _ _ (updSeq_grows _ _ (clearWork_grows _ (by assumption))))

theorem joinResume_grows {s0 s : State} (n) (slot) (handle) (h : Grows s0 s) : Grows s0 (joinResume n slot handle s) := by
  unfold joinResume
  split
  · split
    · exact h
    · split
      · exact h
      · split
        · exact leaveKeeper_grows _ (recallAll_grows _ _ _ h)
        · split
          · exact cancelOrphaned_grows _ _ h
          · dsimp only
            have hu := fun k f => updSeq_grows (s0 := s0) k f h
            split
            · exact retryAt_grows _ _ _ _ (hu _ _)
            · split
              · split
                · exact retryAt_grows _ _ _ _ (hu _ _)
                · exact cancelOrphaned_grows _ _ (hu _ _)
              · rename_i e
                exact grantResume_grows _ _ _ _ _ _ _ (testResume_grows e (hu _ _))
  · exact h

theorem joinHandoff_grows {s0 s : State} (n) (keeper) (g) (p) (h : Grows s0 s) : Grows s0 (joinHandoff n keeper g p s) := by
  unfold joinHandoff
  try dsimp only
  split
  · exact addWait_grows _ (by assumption)
  · split
    · exact addWait_grows _ (newHandle_grows (by assumption))
    · exact ownerSend_grows _ _ _ _ (Grows.put (putSeq_grows _ _ (freeBelow_grows _ (newHandle_grows
        (by assumption)))) rfl)

theorem refuseRehome_grows {s0 s : State} (t) (e_) (reason) (h : Grows s0 s) : Grows s0 (refuseRehome t e_ reason s) := by
  unfold refuseRehome
  try dsimp only
  exact reasonWith_grows _ _ (addNotice_grows _ _ _ _ (by assumption))

theorem adoptPage_grows {s0 s : State} (slot) (l) (i) (keeper) (r)
    (h : Grows s0 s) : Grows s0 (adoptPage slot l i keeper r s) := by
  unfold adoptPage
  try dsimp only
  split
  · assumption
  · split
    · exact newDesc_grows _ (by assumption)
    · exact startRebuild_grows _ _ (fitLines_grows _ _ (updLayer_grows _ _ _ (newDesc_grows _ (by assumption))))

theorem adoptPages_grows {s0 s : State} (slot) (context) (keeper) (refs) (layers)
    (h : Grows s0 s) : Grows s0 (adoptPages slot context keeper refs layers s) := by
  unfold adoptPages
  try dsimp only
  refine Grows.foldl (fun _ _ _ => ?_) ?_
  · refine Grows.foldl (fun _ _ _ => ?_) ?_
    · exact adoptPage_grows _ _ _ _ _ (by assumption)
    · assumption
  · assumption

theorem askHistory_grows {s0 s : State} (slot) (h : Grows s0 s) : Grows s0 (askHistory slot s) := by
  unfold askHistory
  try dsimp only
  split
  · split
    · assumption
    · exact sendSlu_grows _ _ _ (by assumption)
  · assumption

theorem beginRehome_grows {s0 s : State} (slot) (e_) (hist) (rs) (keeper)
    (h : Grows s0 s) : Grows s0 (beginRehome slot e_ hist rs keeper s) := by
  unfold beginRehome
  try dsimp only
  exact bump_grows _ _ (askHistory_grows _ (setRec_grows _ _ (setHist_grows _ _ (adoptPages_grows _ _ _ _ _
    (by assumption)))))

theorem joinRehome_grows {s0 s : State} (n) (p) (t) (requestId) (body)
    (h : Grows s0 s) : Grows s0 (joinRehome n p t requestId body s) := by
  unfold joinRehome
  try dsimp only
  split
  · exact refusedWith_grows _ _ (by assumption)
  · split
    · exact refusedWith_grows _ _ (by assumption)
    · split
      · exact addWait_grows _ (newHandle_grows (by assumption))
      · split
        · exact refusedWith_grows _ _ (by assumption)
        · split
          · exact refuseRehome_grows _ _ _ (by assumption)
          · split
            · split
              · refine addWait_grows _ ?_
                assumption
              · exact refuseRehome_grows _ _ _ (by assumption)
            · split
              · split
                · exact addWait_grows _ (by assumption)
                · exact refuseRehome_grows _ _ _ (by assumption)
              · split
                · split
                  · refine addWait_grows _ ?_
                    assumption
                  · exact refuseRehome_grows _ _ _ (by assumption)
                · refine doneWith_grows _ _ _ ?_
                  refine beginRehome_grows _ _ _ _ _ ?_
                  refine testFreeboard_grows ?_ (by assumption) ?_
                  · intro _ _
                    exact takeFreeboard_grows _ _ _ _ (putSeq_grows _ _ (by assumption))
                  · exact newHandle_grows (by assumption)

theorem joinOne_grows {s0 s : State} (n) (p) (h : Grows s0 s) : Grows s0 (joinOne n p s) := by
  unfold joinOne
  try dsimp only
  split
  · exact joinFork_grows _ _ (journalWait_grows _ (by assumption))
  · exact joinSegment_grows _ _ _ (journalWait_grows _ (by assumption))
  · exact joinResume_grows _ _ _ (journalWait_grows _ (by assumption))
  · exact joinHandoff_grows _ _ _ _ (journalWait_grows _ (by assumption))
  · exact joinRehome_grows _ _ _ _ _ (journal_grows _ _ _ _ _ _ (journalWait_grows _ (by assumption)))
  · exact journalWait_grows _ (by assumption)

theorem carryJoin_grows {s0 s : State} (n) (p) (h : Grows s0 s) : Grows s0 (carryJoin n p s) := by
  unfold carryJoin
  try dsimp only
  split
  · exact sendVerdict_grows _ _ _ _ (journalWait_grows _ (by assumption))
  · split
    · exact sendVerdict_grows _ _ _ _ (journalWait_grows _ (by assumption))
    · assumption
  · exact addWait_grows _ (by assumption)

theorem actionJoin_grows {s0 s : State} (n) (h : Grows s0 s) : Grows s0 (actionJoin n s) := by
  unfold actionJoin
  try dsimp only
  refine Grows.foldl (fun _ _ _ => ?_) ?_
  · split
    · exact applyCommand_grows _ _ _ _ (by assumption)
    · assumption
  · split
    · refine Grows.foldl (fun _ _ _ => ?_) ?_
      · exact joinOne_grows _ _ (by assumption)
      · exact dropPends_grows _ _ (by assumption)
    · refine Grows.foldl (fun _ _ _ => ?_) ?_
      · exact carryJoin_grows _ _ (by assumption)
      · refine raise_grows _ ?_
        refine dispositionAt_grows _ _ _ _ _ ?_
        refine Grows.foldl (fun _ _ _ => ?_) ?_
        · exact joinOne_grows _ _ (by assumption)
        · exact dropPends_grows _ _ (by assumption)

theorem doBuildTable_grows {s0 s : State} (t) (h_) (layout) (source) (length)
    (h : Grows s0 s) : Grows s0 (doBuildTable t h_ layout source length s) := by
  unfold doBuildTable
  try dsimp only
  split
  · exact refusedWith_grows _ _ (tableResult_grows _ _ _ (by assumption))
  · exact Grows.put (by assumption) rfl

theorem doRemote_grows {s0 s : State} (t) (h_) (op) (o) (h : Grows s0 s) : Grows s0 (doRemote t h_ op o s) := by
  unfold doRemote
  try dsimp only
  split
  · exact refusedWith_grows _ _ (by assumption)
  · split
    · exact queueDisabled_grows _ (by assumption)
    · split
      · assumption
      · exact submitMsg_grows _ (takeSeq_grows _ (by assumption))

theorem doTaken_grows {s0 s : State} (p) (t) (op) (body) (h : Grows s0 s) : Grows s0 (doTaken p t op body s) := by
  unfold doTaken
  try dsimp only
  split
  · exact doCompose_grows _ _ (journal_grows _ _ _ _ _ _ (by assumption))
  · exact doBuildTable_grows _ _ _ _ _ (journal_grows _ _ _ _ _ _ (by assumption))
  · exact doOpenWindow_grows _ _ _ (journal_grows _ _ _ _ _ _ (by assumption))
  · exact doReopenWindow_grows _ _ _ _ (journal_grows _ _ _ _ _ _ (by assumption))
  · exact doRevokeWindow_grows _ _ _ (journal_grows _ _ _ _ _ _ (by assumption))
  · exact doSetQueue_grows _ _ _ _ _ (journal_grows _ _ _ _ _ _ (by assumption))
  · exact doSetPolicer_grows _ _ _ _ _ (journal_grows _ _ _ _ _ _ (by assumption))
  · exact doRemote_grows _ _ _ _ (journal_grows _ _ _ _ _ _ (by assumption))
  · exact doRemote_grows _ _ _ _ (journal_grows _ _ _ _ _ _ (by assumption))
  · exact doRemote_grows _ _ _ _ (journal_grows _ _ _ _ _ _ (by assumption))
  · exact doStageImage_grows _ _ _ (journal_grows _ _ _ _ _ _ (by assumption))
  · exact doCommitSvn_grows _ (journal_grows _ _ _ _ _ _ (by assumption))
  · exact journal_grows _ _ _ _ _ _ (by assumption)

theorem execBuildTableComplete_grows {s0 s : State} {t}
    (e : execBuildTableComplete s = .next t) (h : Grows s0 s) : Grows s0 t := by
  unfold execBuildTableComplete at e
  try dsimp only at e
  split at e
  · injection e with e
    subst e
    assumption
  · split at e
    · injection e with e
      subst e
      assumption
    · injection e with e
      subst e
      exact done_grows _ (raise_grows _ (tableResult_grows _ _ _ (writeMem_grows _ _ (chargeTier_grows _ _ _ (Grows.put
        (by assumption) rfl)))))

theorem giveSlotBack_grows {s0 s : State} (r) (h : Grows s0 s) : Grows s0 (giveSlotBack r s) := by
  unfold giveSlotBack
  try dsimp only
  exact setRing_grows _ _ (by assumption)

theorem takeCommand_grows {s0 s : State} (r) (bs) (op) (h_) (t) (sseq)
    (h : Grows s0 s) : Grows s0 (takeCommand r bs op h_ t sseq s) := by
  unfold takeCommand
  try dsimp only
  split
  · split
    · exact addWait_grows _ (noteFirst_grows _ _ (by assumption))
    · exact giveSlotBack_grows _ (noteFirst_grows _ _ (by assumption))
  · split
    · exact addWait_grows _ (noteFirst_grows _ _ (by assumption))
    · exact addWait_grows _ (noteFirst_grows _ _ (by assumption))
    · split
      · exact addWait_grows _ (noteFirst_grows _ _ (by assumption))
      · exact doTaken_grows _ _ _ _ (noteFirst_grows _ _ (by assumption))

theorem takeEntry_grows {s0 s : State} (r) (opened) (h : Grows s0 s) : Grows s0 (takeEntry r opened s) := by
  unfold takeEntry
  try dsimp only
  split
  · exact reasonWith_grows _ _ (setRing_grows _ _ (by assumption))
  · split
    · exact malformed_grows _ (setRing_grows _ _ (by assumption))
    · split
      · exact takeCommand_grows _ _ _ _ _ _ (setRing_grows _ _ (by assumption))
      · exact malformed_grows _ (setRing_grows _ _ (by assumption))

theorem serveRing_grows {s0 x3 : State} (r) (opened) (x2) (h : Grows s0 x3) : Grows s0 (serveRing r opened x2 x3) := by
  induction x2 generalizing opened x3 with
  | zero => exact h
  | succ n ih =>
    unfold serveRing
    split
    · exact ih _ (takeEntry_grows _ _ h)
    · exact h

theorem consumed_grows {s0 s : State} (ring) (head) (h : Grows s0 s) : Grows s0 (consumed ring head s) := by
  unfold consumed
  try dsimp only
  exact serveRing_grows _ _ _ (setRing_grows _ _ (by assumption))

theorem doorbell_grows {s0 s : State} (ring) (tail) (h : Grows s0 s) : Grows s0 (doorbell ring tail s) := by
  unfold doorbell
  try dsimp only
  split
  · exact raise_grows _ (setRing_grows _ _ (by assumption))
  · exact serveRing_grows _ _ _ (setRing_grows _ _ (by assumption))

theorem submit_grows {s0 s : State} (h_) (op) (opened) (h : Grows s0 s) : Grows s0 (submit h_ op opened s) := by
  unfold submit
  try dsimp only
  split
  · exact serveRing_grows _ _ _ (setRing_grows _ _ (writeMem_grows _ _ (place_grows _ (by assumption))))
  · exact place_grows _ (by assumption)

theorem ringCommand_grows {s0 s : State} {t} {h_ op opened}
    (e : ringCommand h_ op opened s = .next t) (h : Grows s0 s) : Grows s0 t := by
  unfold ringCommand at e
  try dsimp only at e
  split at e
  · injection e with e
    subst e
    exact submit_grows _ _ _ (by assumption)
  · injection e with e
    subst e
    assumption

theorem execAllocObject_grows {s0 s : State} {t} {h_ extents alloc pin durable}
    (e : execAllocObject h_ extents alloc pin durable s = .next t) (h : Grows s0 s) : Grows s0 t := by
  unfold execAllocObject at e
  try dsimp only at e
  exact ringCommand_grows e (by assumption)

theorem ringCommandAt_grows {s0 s : State} {t} {at_ h_ op}
    (e : ringCommandAt at_ h_ op s = .next t) (h : Grows s0 s) : Grows s0 t := by
  unfold ringCommandAt at e
  try dsimp only at e
  refine ringCommand_grows e ?_
  split
  · exact setNow_grows _ (by assumption)
  · assumption

theorem execAtomic_grows {s0 s : State} {t} {at_ h_ o} (e : execAtomic at_ h_ o s = .next t) (h : Grows s0 s) : Grows s0 t := by
  unfold execAtomic at e
  try dsimp only at e
  exact ringCommandAt_grows e (by assumption)

theorem execBuildTable_grows {s0 s : State} {t} {h_ layout source length}
    (e : execBuildTable h_ layout source length s = .next t) (h : Grows s0 s) : Grows s0 t := by
  unfold execBuildTable at e
  try dsimp only at e
  exact ringCommand_grows e (by assumption)

theorem execCommitSvn_grows {s0 s : State} {t} {h_} (e : execCommitSvn h_ s = .next t) (h : Grows s0 s) : Grows s0 t := by
  unfold execCommitSvn at e
  try dsimp only at e
  exact ringCommand_grows e (by assumption)

theorem execCompose_grows {s0 s : State} {t} {h_} (e : execCompose h_ s = .next t) (h : Grows s0 s) : Grows s0 t := by
  unfold execCompose at e
  try dsimp only at e
  exact ringCommand_grows e (by assumption)

theorem execCqHeadWrite_grows {s0 s : State} {t} {ring head}
    (e : execCqHeadWrite ring head s = .next t) (h : Grows s0 s) : Grows s0 t := by
  unfold execCqHeadWrite at e
  try dsimp only at e
  split at e
  · injection e with e
    subst e
    exact consumed_grows _ _ (by assumption)
  · injection e with e
    subst e
    assumption

theorem execDrainDie_grows {s0 s : State} {t} {h_ die force}
    (e : execDrainDie h_ die force s = .next t) (h : Grows s0 s) : Grows s0 t := by
  unfold execDrainDie at e
  try dsimp only at e
  exact ringCommand_grows e (by assumption)

theorem execFreeObject_grows {s0 s : State} {t} {h_ index gen}
    (e : execFreeObject h_ index gen s = .next t) (h : Grows s0 s) : Grows s0 t := by
  unfold execFreeObject at e
  try dsimp only at e
  exact ringCommand_grows e (by assumption)

theorem execInstallKey_grows {s0 s : State} {t} {h_ opened}
    (e : execInstallKey h_ opened s = .next t) (h : Grows s0 s) : Grows s0 t := by
  unfold execInstallKey at e
  try dsimp only at e
  exact ringCommand_grows e (by assumption)

theorem execInstallTable_grows {s0 s : State} {t} {h_ entry currentStep}
    (e : execInstallTable h_ entry currentStep s = .next t) (h : Grows s0 s) : Grows s0 t := by
  unfold execInstallTable at e
  try dsimp only at e
  exact ringCommand_grows e (by assumption)

theorem execLease_grows {s0 s : State} {t} {h_ o} (e : execLease h_ o s = .next t) (h : Grows s0 s) : Grows s0 t := by
  unfold execLease at e
  try dsimp only at e
  exact ringCommand_grows e (by assumption)

theorem execOpenWindow_grows {s0 s : State} {t} {at_ h_ o}
    (e : execOpenWindow at_ h_ o s = .next t) (h : Grows s0 s) : Grows s0 t := by
  unfold execOpenWindow at e
  try dsimp only at e
  exact ringCommandAt_grows e (by assumption)

theorem execRead_grows {s0 s : State} {t} {at_ h_ o} (e : execRead at_ h_ o s = .next t) (h : Grows s0 s) : Grows s0 t := by
  unfold execRead at e
  try dsimp only at e
  exact ringCommandAt_grows e (by assumption)

theorem execReadmitDie_grows {s0 s : State} {t} {h_ die}
    (e : execReadmitDie h_ die s = .next t) (h : Grows s0 s) : Grows s0 t := by
  unfold execReadmitDie at e
  try dsimp only at e
  exact ringCommand_grows e (by assumption)

theorem execRegisterAdapter_grows {s0 s : State} {t} {h_}
    (e : execRegisterAdapter h_ s = .next t) (h : Grows s0 s) : Grows s0 t := by
  unfold execRegisterAdapter at e
  try dsimp only at e
  exact ringCommand_grows e (by assumption)

theorem execRegisterContext_grows {s0 s : State} {t} {h_}
    (e : execRegisterContext h_ s = .next t) (h : Grows s0 s) : Grows s0 t := by
  unfold execRegisterContext at e
  try dsimp only at e
  exact ringCommand_grows e (by assumption)

theorem execRehome_grows {s0 s : State} {t} {h_ requestId}
    (e : execRehome h_ requestId s = .next t) (h : Grows s0 s) : Grows s0 t := by
  unfold execRehome at e
  try dsimp only at e
  exact ringCommand_grows e (by assumption)

theorem execReopenWindow_grows {s0 s : State} {t} {at_ h_ window o}
    (e : execReopenWindow at_ h_ window o s = .next t) (h : Grows s0 s) : Grows s0 t := by
  unfold execReopenWindow at e
  try dsimp only at e
  exact ringCommandAt_grows e (by assumption)

theorem execRetireContext_grows {s0 s : State} {t} {h_ context}
    (e : execRetireContext h_ context s = .next t) (h : Grows s0 s) : Grows s0 t := by
  unfold execRetireContext at e
  try dsimp only at e
  exact ringCommand_grows e (by assumption)

theorem execRevokeWindow_grows {s0 s : State} {t} {at_ h_ window}
    (e : execRevokeWindow at_ h_ window s = .next t) (h : Grows s0 s) : Grows s0 t := by
  unfold execRevokeWindow at e
  try dsimp only at e
  exact ringCommandAt_grows e (by assumption)

theorem ringControl_grows {s0 s : State} (ring) (value) (h : Grows s0 s) : Grows s0 (ringControl ring value s) := by
  unfold ringControl
  try dsimp only
  split
  · split
    · assumption
    · exact setRing_grows _ _ (by assumption)
  · split
    · exact setRing_grows _ _ (by assumption)
    · refine setRing_grows _ _ ?_
      assumption

theorem execRingCtrlWrite_grows {s0 s : State} {t} {ring value}
    (e : execRingCtrlWrite ring value s = .next t) (h : Grows s0 s) : Grows s0 t := by
  unfold execRingCtrlWrite at e
  try dsimp only at e
  split at e
  · injection e with e
    subst e
    exact ringControl_grows _ _ (by assumption)
  · injection e with e
    subst e
    assumption

theorem execSetPolicer_grows {s0 s : State} {t} {at_ h_ dike enable rate burst}
    (e : execSetPolicer at_ h_ dike enable rate burst s = .next t) (h : Grows s0 s) : Grows s0 t := by
  unfold execSetPolicer at e
  try dsimp only at e
  exact ringCommandAt_grows e (by assumption)

theorem execSetQueue_grows {s0 s : State} {t} {at_ h_ queue enable quantum rate}
    (e : execSetQueue at_ h_ queue enable quantum rate s = .next t) (h : Grows s0 s) : Grows s0 t := by
  unfold execSetQueue at e
  try dsimp only at e
  exact ringCommandAt_grows e (by assumption)

theorem execSqDoorbell_grows {s0 s : State} {t} {at_ ring tail placed}
    (e : execSqDoorbell at_ ring tail placed s = .next t) (h : Grows s0 s) : Grows s0 t := by
  unfold execSqDoorbell at e
  try dsimp only at e
  split at e
  · injection e with e
    subst e
    exact doorbell_grows _ _ (place_grows _ (setNow_grows _ (by assumption)))
  · injection e with e
    subst e
    assumption

theorem execStageImage_grows {s0 s : State} {t} {at_ h_}
    (e : execStageImage at_ h_ s = .next t) (h : Grows s0 s) : Grows s0 t := by
  unfold execStageImage at e
  try dsimp only at e
  exact ringCommandAt_grows e (by assumption)

theorem execSwitchImage_grows {s0 s : State} {t} {h_} (e : execSwitchImage h_ s = .next t) (h : Grows s0 s) : Grows s0 t := by
  unfold execSwitchImage at e
  try dsimp only at e
  exact ringCommand_grows e (by assumption)

theorem execWithdrawAdapter_grows {s0 s : State} {t} {h_ context}
    (e : execWithdrawAdapter h_ context s = .next t) (h : Grows s0 s) : Grows s0 t := by
  unfold execWithdrawAdapter at e
  try dsimp only at e
  exact ringCommand_grows e (by assumption)

theorem execWrite_grows {s0 s : State} {t} {at_ h_ o} (e : execWrite at_ h_ o s = .next t) (h : Grows s0 s) : Grows s0 t := by
  unfold execWrite at e
  try dsimp only at e
  exact ringCommandAt_grows e (by assumption)

theorem serveTurns_grows {s0 x1 : State} (x0) (h : Grows s0 x1) : Grows s0 (serveTurns x0 x1) := by
  induction x0 generalizing x1 with
  | zero =>
    unfold serveTurns
    try dsimp only
    assumption
  | succ n ih =>
    unfold serveTurns
    try dsimp only
    split
    · apply ih
      refine Grows.foldl (fun _ _ _ => ?_) ?_
      · exact serveRing_grows _ _ _ (by assumption)
      · assumption
    · assumption

theorem serveRings_grows {s0 s : State} (h : Grows s0 s) : Grows s0 (serveRings s) := by
  unfold serveRings
  try dsimp only
  exact serveTurns_grows _ (by assumption)

theorem fitStaging_grows {s0 s : State} (n) (h : Grows s0 s) : Grows s0 (fitStaging n s) := by
  unfold fitStaging
  try dsimp only
  refine Grows.foldl_snd (fun _ _ _ => ?_) ?_
  · dsimp only
    exact updSeq_grows _ _ (by assumption)
  · dsimp only
    assumption

theorem lateSeals_grows {s0 s : State} (n) (h : Grows s0 s) : Grows s0 (lateSeals n s) := by
  unfold lateSeals
  try dsimp only
  split
  · assumption
  · refine Grows.foldl (fun _ _ _ => ?_) ?_
    · exact dispositionAt_grows _ _ _ _ _ (by assumption)
    · exact sealLate_grows _ (by assumption)

theorem retrySeal_grows {s0 s : State} (i) (h : Grows s0 s) : Grows s0 (retrySeal i s) := by
  unfold retrySeal
  try dsimp only
  split
  · assumption
  · split
    · assumption
    · split
      · assumption
      · exact updDesc_grows _ _ (takeMap_grows _ _ _ (takeExtents_grows _ _ _ (by assumption)))

theorem sendSegment_grows {s0 s : State} (slot) (e_) (h : Grows s0 s) : Grows s0 (sendSegment slot e_ s) := by
  unfold sendSegment
  try dsimp only
  split
  · assumption
  · refine Grows.foldl (fun _ _ _ => ?_) ?_
    · exact forwardBlocks_grows _ _ (sendOwn_grows _ _ (by assumption))
    · assumption

theorem settleLeases_grows {s0 s : State} (h : Grows s0 s) : Grows s0 (settleLeases s) := by
  unfold settleLeases
  try dsimp only
  split
  · exact dispositionAt_grows _ _ _ _ _ (by assumption)
  · assumption

theorem settleOwned_grows {s0 s : State} (n) (slot) (o) (h : Grows s0 s) : Grows s0 (settleOwned n slot o s) := by
  unfold settleOwned
  try dsimp only
  exact raiseIf_grows _ _ (updOwned_grows _ _ (by assumption))

theorem settleProtection_grows {s0 s : State} (h : Grows s0 s) : Grows s0 (settleProtection s) := by
  unfold settleProtection
  try dsimp only
  refine Grows.foldl (fun _ _ _ => ?_) ?_
  · exact oweCkpt_grows _ (by assumption)
  · exact protectPages_grows (by assumption)

theorem settlePages_grows {s0 s : State} (n) (h : Grows s0 s) : Grows s0 (settlePages n s) := by
  unfold settlePages
  try dsimp only
  refine settleProtection_grows ?_
  refine Grows.foldl (fun _ _ _ => ?_) ?_
  · exact publishAll_grows _ _ _ (by assumption)
  · refine Grows.foldl (fun _ _ _ => ?_) ?_
    · exact sendSegment_grows _ _ (by assumption)
    · refine Grows.foldl (fun _ _ _ => ?_) ?_
      · exact switchSealed_grows _ (by assumption)
      · refine Grows.put ?_ rfl
        refine Grows.foldl (fun _ _ _ => ?_) ?_
        · exact retrySeal_grows _ (by assumption)
        · exact startCodings_grows (lateSeals_grows _ (by assumption))

theorem settleRing_grows {s0 s : State} (e_) (h : Grows s0 s) : Grows s0 (settleRing e_ s) := by
  unfold settleRing
  try dsimp only
  split
  · assumption
  · refine Grows.foldl (fun _ _ _ => ?_) ?_
    · exact Grows.put (by assumption) rfl
    · split
      · assumption
      · exact disposition_grows _ _ _ _ (bump_grows _ _ (raiseTimes_grows _ _ (by assumption)))

theorem settleRows_grows {s0 s : State} (n) (h : Grows s0 s) : Grows s0 (settleRows n s) := by
  unfold settleRows
  try dsimp only
  exact Grows.put (by assumption) rfl

theorem shiftPlan_grows {s0 s : State} (slot) (e_) (h : Grows s0 s) : Grows s0 (shiftPlan slot e_ s) := by
  unfold shiftPlan
  try dsimp only
  split
  · assumption
  · split
    · assumption
    · exact setRec_grows _ _ (by assumption)

theorem settleSeqs_grows {s0 s : State} (n) (h : Grows s0 s) : Grows s0 (settleSeqs n s) := by
  unfold settleSeqs
  try dsimp only
  refine Grows.foldl (fun _ _ _ => ?_) ?_
  · exact shiftPlan_grows _ _ (by assumption)
  · refine fitStaging_grows _ ?_
    refine Grows.foldl (fun _ _ _ => ?_) ?_
    · exact putSeq_grows _ _ (by assumption)
    · assumption

theorem settleStep_grows {s0 s : State} (n) (h : Grows s0 s) : Grows s0 (settleStep n s) := by
  unfold settleStep
  try dsimp only
  refine tierBoundary_grows ?_
  refine Grows.foldl (fun _ _ _ => ?_) ?_
  · exact settleOwned_grows _ _ _ (by assumption)
  · refine settlePages_grows _ ?_
    refine settleSeqs_grows _ ?_
    refine settleLeases_grows ?_
    refine settleRows_grows _ ?_
    refine Grows.foldl (fun _ _ _ => ?_) ?_
    · exact settleRing_grows _ (by assumption)
    · refine Grows.foldl (fun _ _ _ => ?_) ?_
      · exact disposition_grows _ _ _ _ (by assumption)
      · exact Grows.put (by assumption) rfl

theorem dropMaps_grows {s0 s : State} (h : Grows s0 s) : Grows s0 (dropMaps s) := by
  unfold dropMaps
  try dsimp only
  exact Grows.put (by assumption) rfl

theorem redirectResume_grows {s0 s : State} (slot) (h : Grows s0 s) : Grows s0 (redirectResume slot s) := by
  unfold redirectResume
  try dsimp only
  split
  · exact resumeWait_grows _ _ (setRec_grows _ _ (updSeq_grows _ _ (by assumption)))
  · assumption

theorem expelSelf_grows {s0 s : State} (h : Grows s0 s) : Grows s0 (expelSelf s) := by
  unfold expelSelf
  try dsimp only
  refine Grows.put ?_ rfl
  refine Grows.foldl (fun _ _ _ => ?_) ?_
  · exact freeEntry_grows _ (by assumption)
  · exact Grows.put (raise_grows _ (by assumption)) rfl

theorem goneMembers_grows {s0 s : State} (h : Grows s0 s) : Grows s0 (goneMembers s) := by
  unfold goneMembers
  try dsimp only
  refine Grows.foldl (fun _ _ _ => ?_) ?_
  · split
    · assumption
    · refine Grows.foldl (fun _ _ _ => ?_) ?_
      · split
        · exact memberLost_grows _ _ (by assumption)
        · assumption
      · assumption
  · assumption

theorem redirectNext_grows {s0 s : State} (slot) (h : Grows s0 s) : Grows s0 (redirectNext slot s) := by
  unfold redirectNext
  try dsimp only
  split
  · exact setRec_grows _ _ (setRec_grows _ _ (updSeq_grows _ _ (by assumption)))
  · assumption

theorem redirectGone_grows {s0 s : State} (h : Grows s0 s) : Grows s0 (redirectGone s) := by
  unfold redirectGone
  try dsimp only
  refine eachRec_grows _ ?_ ?_
  · intro _ _ _ _
    split
    · exact redirectResume_grows _ (by assumption)
    · split
      · exact redirectNext_grows _ (by assumption)
      · assumption
  · assumption

theorem goneCandidates_grows {s0 s : State} (h : Grows s0 s) : Grows s0 (goneCandidates s) := by
  unfold goneCandidates
  try dsimp only
  refine Grows.foldl (fun _ _ _ => ?_) ?_
  · exact noKeeper_grows _ (by assumption)
  · exact Grows.put (by assumption) rfl

theorem goneKeepers_grows {s0 s : State} (n) (h : Grows s0 s) : Grows s0 (goneKeepers n s) := by
  unfold goneKeepers
  try dsimp only
  refine goneCandidates_grows ?_
  refine Grows.foldl (fun _ _ _ => ?_) ?_
  · split
    · exact raise_grows _ (updOwned_grows _ _ (by assumption))
    · assumption
  · assumption

theorem installMap_grows {s0 s : State} (n) (m) (h : Grows s0 s) : Grows s0 (installMap n m s) := by
  unfold installMap
  try dsimp only
  split
  · split
    · refine expelSelf_grows ?_
      refine raiseIf_grows _ _ ?_
      refine Grows.foldl (fun _ _ _ => ?_) ?_
      · exact redirectResume_grows _ (by assumption)
      · exact Grows.put (dropMaps_grows (by assumption)) rfl
    · refine replaceGone_grows ?_
      refine goneMembers_grows ?_
      refine redirectGone_grows ?_
      refine goneKeepers_grows _ ?_
      refine raiseIf_grows _ _ ?_
      refine Grows.foldl (fun _ _ _ => ?_) ?_
      · exact redirectResume_grows _ (by assumption)
      · exact Grows.put (dropMaps_grows (by assumption)) rfl
  · split
    · refine expelSelf_grows ?_
      refine raiseIf_grows _ _ ?_
      refine Grows.foldl (fun _ _ _ => ?_) ?_
      · exact redirectResume_grows _ (by assumption)
      · exact Grows.put (dropMaps_grows (by assumption)) rfl
    · refine replaceGone_grows ?_
      refine goneMembers_grows ?_
      refine redirectGone_grows ?_
      refine goneKeepers_grows _ ?_
      refine raiseIf_grows _ _ ?_
      refine Grows.foldl (fun _ _ _ => ?_) ?_
      · exact redirectResume_grows _ (by assumption)
      · exact Grows.put (dropMaps_grows (by assumption)) rfl

theorem actionMaps_grows {s0 s : State} (n) (h : Grows s0 s) : Grows s0 (actionMaps n s) := by
  unfold actionMaps
  try dsimp only
  split
  · exact dropMaps_grows (installMap_grows _ _ (by assumption))
  · exact dropMaps_grows (by assumption)

theorem enterPrefill_grows {s0 s : State} (n) (h : Grows s0 s) : Grows s0 (enterPrefill n s) := by
  unfold enterPrefill
  try dsimp only
  exact Grows.put (by assumption) rfl

theorem actionBuild_grows {s0 s : State} (n) (h : Grows s0 s) : Grows s0 (actionBuild n s) := by
  unfold actionBuild
  try dsimp only
  exact swapCheck_grows (stageFirst_grows (buildStep_grows _ (enterPrefill_grows _ (by assumption))))

theorem applyRank_grows {s0 s : State} (ps) (k) (h : Grows s0 s) : Grows s0 (applyRank ps k s) := by
  unfold applyRank
  try dsimp only
  refine Grows.foldl (fun _ _ _ => ?_) ?_
  · split
    · split
      · assumption
      · split
        · exact doTaken_grows _ _ _ _ (by assumption)
        · exact applyCommand_grows _ _ _ _ (by assumption)
    · assumption
  · assumption

theorem actionEnvelope_grows {s0 s : State} (n) (h : Grows s0 s) : Grows s0 (actionEnvelope n s) := by
  unfold actionEnvelope
  try dsimp only
  exact eraseKeys_grows (freeTables_grows (applyRank_grows _ _ (actionMaps_grows _ (dropForeign_grows (applyRank_grows _ _
    (freeRetired_grows (retireVersions_grows (applyRank_grows _ _ (readyContexts_grows (applyRank_grows _ _
    (diesAction_grows _ (coresAction_grows (applyRank_grows _ _ (applyRank_grows _ _ (applyRank_grows _ _
    (refreshLeases_grows (dropPends_grows _ _ (by assumption))))))))))))))))))

theorem actionSwitch_grows {s0 s : State} (n) (h : Grows s0 s) : Grows s0 (actionSwitch n s) := by
  unfold actionSwitch
  try dsimp only
  refine Grows.foldl (fun _ _ _ => ?_) ?_
  · split
    · exact doSwitchImage_grows _ (journalPend_grows _ _ _ _ (by assumption))
    · assumption
  · exact dropPends_grows _ _ (by assumption)

theorem closeDigests_grows {s0 s : State} (n) (h : Grows s0 s) : Grows s0 (closeDigests n s) := by
  unfold closeDigests
  try dsimp only
  refine Grows.put ?_ rfl
  split
  · exact putJournal_grows _ _ _ _ _ _ _ _ (putJournal_grows _ _ _ _ _ _ _ _ (by assumption))
  · assumption

theorem countRecord_grows {s0 s : State} (step) (r) (h : Grows s0 s) : Grows s0 (countRecord step r s) := by
  unfold countRecord
  try dsimp only
  split
  · assumption
  · split
    · exact charge_grows _ _ _ (by assumption)
    · refine raise_grows _ ?_
      refine bump_grows _ _ ?_
      split
      · exact updSeq_grows _ _ (sEvent_grows _ _ _ _ (setAcct_grows _ _ (charge_grows _ _ _ (by assumption))))
      · exact sEvent_grows _ _ _ _ (setAcct_grows _ _ (charge_grows _ _ _ (by assumption)))

theorem counterStep_grows {s0 s : State} (h : Grows s0 s) : Grows s0 (counterStep s) := by
  unfold counterStep
  try dsimp only
  split
  · exact enterTime_grows _ (Grows.put (stepCounter_grows _ (by assumption)) rfl)
  · assumption

theorem dropRefused_grows {s0 s : State} (h : Grows s0 s) : Grows s0 (dropRefused s) := by
  unfold dropRefused
  try dsimp only
  split
  · assumption
  · refine Grows.foldl (fun _ _ _ => ?_) ?_
    · exact freeEntry_grows _ (by assumption)
    · assumption

theorem grantHandoff_grows {s0 s : State} (slot) (g) (r) (h : Grows s0 s) : Grows s0 (grantHandoff slot g r s) := by
  unfold grantHandoff
  try dsimp only
  exact forwardTail_grows _ (setRec_grows _ _ (sendGrant_grows _ _ _ _ _ _ (by assumption)))

theorem recordTurn_grows {s0 s : State} (n) (slot) (r) (h : Grows s0 s) : Grows s0 (recordTurn n slot r s) := by
  unfold recordTurn
  try dsimp only
  split
  · assumption
  · split
    · split
      · exact grantHandoff_grows _ _ _ (by assumption)
      · assumption
    · split
      · split
        · exact grantHandoff_grows _ _ _ (by assumption)
        · exact setRec_grows _ _ (by assumption)
      · assumption
    · split
      · split
        · exact grantHandoff_grows _ _ _ (by assumption)
        · exact setRec_grows _ _ (by assumption)
      · assumption
    · split
      · split
        · exact setRec_grows _ _ (by assumption)
        · exact setRec_grows _ _ (sendGrant_grows _ _ _ _ _ _ (by assumption))
      · split
        · exact setRec_grows _ _ (by assumption)
        · exact setRec_grows _ _ (sendGrant_grows _ _ _ _ _ _ (by assumption))
    · assumption

theorem recordTurns_grows {s0 s : State} (n) (h : Grows s0 s) : Grows s0 (recordTurns n s) := by
  unfold recordTurns
  try dsimp only
  refine eachRec_grows _ ?_ ?_
  · intro _ _ _ _
    exact recordTurn_grows _ _ _ (by assumption)
  · assumption

theorem endOwner_grows {s0 s : State} (slot) (h : Grows s0 s) : Grows s0 (endOwner slot s) := by
  unfold endOwner
  try dsimp only
  split
  · assumption
  · exact freeEntry_grows _ (ownerSend_grows _ _ _ _ (by assumption))

theorem ownerTurn_grows {s0 s : State} (slot) (o) (h : Grows s0 s) : Grows s0 (ownerTurn slot o s) := by
  unfold ownerTurn
  try dsimp only
  split
  · assumption
  · split
    · exact endOwner_grows _ (by assumption)
    · split
      · exact ownerSend_grows _ _ _ _ (embedNext_grows _ (by assumption))
      · exact embedNext_grows _ (by assumption)

theorem ownerTurns_grows {s0 s : State} (h : Grows s0 s) : Grows s0 (ownerTurns s) := by
  unfold ownerTurns
  try dsimp only
  refine Grows.foldl (fun _ _ _ => ?_) ?_
  · exact ownerTurn_grows _ _ (by assumption)
  · assumption

theorem sendBatches_grows {s0 s : State} (step) (h : Grows s0 s) : Grows s0 (sendBatches step s) := by
  unfold sendBatches
  try dsimp only
  refine Grows.foldl (fun _ _ _ => ?_) ?_
  · exact sendMsg_grows _ _ _ _ _ (by assumption)
  · refine Grows.foldl (fun _ _ _ => ?_) ?_
    · exact countRecord_grows _ _ (by assumption)
    · exact Grows.put (by assumption) rfl

theorem serveInspect_grows {s0 s : State} (h : Grows s0 s) : Grows s0 (serveInspect s) := by
  unfold serveInspect
  try dsimp only
  split
  · assumption
  · exact Grows.put (by assumption) rfl

theorem endOfWork_grows {s0 s : State} (n) (h : Grows s0 s) : Grows s0 (endOfWork n s) := by
  unfold endOfWork
  try dsimp only
  exact counterStep_grows (serveInspect_grows (checkpoints_grows _ (ownerTurns_grows (sendBatches_grows _
    (recordTurns_grows _ (actionSwitch_grows _ (by assumption)))))))

theorem fiveActions_grows {s0 s : State} (n) (h : Grows s0 s) : Grows s0 (fiveActions n s) := by
  unfold fiveActions
  try dsimp only
  exact Grows.put (actionBuild_grows _ (actionJoin_grows _ (actionAdmit_grows _ (actionEnvelope_grows _ (dropRefused_grows
    (actionLeave_grows _ (by assumption))))))) rfl

theorem journalStep_grows {s0 s : State} (h : Grows s0 s) : Grows s0 (journalStep s) := by
  unfold journalStep
  try dsimp only
  exact journal_grows _ _ _ _ _ _ (by assumption)

end Sys2Proof.Machine
end

