-- ==== Sys2Proof/Laws/GrowsEdge.lean ====
section
/-! SUPPORT. Each operation lets grow what Safety.Grows names: messages, replay, Nodor, SPDM, start-up, supply and registers.
`f_grows`: if `s` has grown from `s0`, so has what `f` makes of `s`. -/

namespace Sys2Proof.Machine

open Sys2Proof.Safety

theorem onRequestBytes_grows {s0 s : State} (sseq) (m) (h : Grows s0 s) : Grows s0 (onRequestBytes sseq m s) := by
  unfold onRequestBytes
  try dsimp only
  split
  · assumption
  · split
    · exact raise_grows _ (by assumption)
    · split
      · exact misdirect_grows _ (by assumption)
      · exact addWait_grows _ (noteFirst_grows _ _ (by assumption))

theorem forwardNamed_grows {s0 s : State} (kind) (c) (h : Grows s0 s) : Grows s0 (forwardNamed kind c s) := by
  unfold forwardNamed
  try dsimp only
  split
  · exact raise_grows _ (consumeNow_grows _ _ _ _ (by assumption))
  · exact sendMsg_grows _ _ _ _ _ (takeSseq_grows (consumeNow_grows _ _ _ _ (by assumption)))

theorem onNamed_grows {s0 s : State} (kind) (wait) (c) (h : Grows s0 s) : Grows s0 (onNamed kind wait c s) := by
  unfold onNamed
  try dsimp only
  split
  · assumption
  · split
    · exact addWait_grows _ (noteFirst_grows _ _ (by assumption))
    · split
      · exact forwardNamed_grows _ _ (by assumption)
      · exact misdirect_grows _ (by assumption)

theorem onNamedBytes_grows {s0 s : State} (kind) (sseq) (wait) (m)
    (h : Grows s0 s) : Grows s0 (onNamedBytes kind sseq wait m s) := by
  unfold onNamedBytes
  try dsimp only
  split
  · exact raise_grows _ (by assumption)
  · exact onNamed_grows _ _ _ (by assumption)

theorem deliver_grows {s0 s : State} (sseq) (m) (h : Grows s0 s) : Grows s0 (deliver sseq m s) := by
  unfold deliver
  try dsimp only
  split
  · exact onRingBlock_grows _ (by assumption)
  · exact onProbe_grows _ (by assumption)
  · refine onFoldRecord_grows _ ?_
    assumption
  · exact onAdmitQuery_grows _ (by assumption)
  · exact onVerdict_grows _ (by assumption)
  · split
    · exact misdirect_grows _ (by assumption)
    · assumption
  · exact onRequestBytes_grows _ _ (by assumption)
  · exact onNamedBytes_grows _ _ _ _ (by assumption)
  · refine onNamedBytes_grows _ _ _ _ ?_
    assumption
  · exact onGrant_grows _ (by assumption)
  · exact onGrantAck_grows _ (by assumption)
  · exact onStatePush_grows _ (by assumption)
  · refine onRelease_grows _ ?_
    assumption
  · exact onPulse_grows _ (by assumption)
  · refine onTokenNote_grows _ ?_
    assumption
  · exact onNoteAck_grows _ (by assumption)
  · refine onReject_grows _ ?_
    assumption
  · exact onRecall_grows _ (by assumption)
  · exact onHistoryQuery_grows _ (by assumption)
  · exact onFragmentPut_grows _ (by assumption)
  · refine onFragmentAck_grows _ ?_
    assumption
  · refine onFragmentGet_grows _ ?_
    assumption
  · exact onFragmentData_grows _ (by assumption)
  · exact onFragmentFree_grows _ (by assumption)
  · refine onFragmentLost_grows _ ?_
    assumption
  · assumption

theorem execAdmitQuery_grows {s0 s : State} {t} {m} (e : execAdmitQuery m s = .next t) (h : Grows s0 s) : Grows s0 t := by
  unfold execAdmitQuery at e
  try dsimp only at e
  injection e with e
  subst e
  exact onAdmitQuery_grows _ (by assumption)

theorem execCancel_grows {s0 s : State} {t} {c} (e : execCancel c s = .next t) (h : Grows s0 s) : Grows s0 t := by
  unfold execCancel at e
  try dsimp only at e
  injection e with e
  subst e
  exact onNamed_grows _ _ _ (by assumption)

theorem execFoldRecord_grows {s0 s : State} {t} {m} (e : execFoldRecord m s = .next t) (h : Grows s0 s) : Grows s0 t := by
  unfold execFoldRecord at e
  try dsimp only at e
  injection e with e
  subst e
  exact onFoldRecord_grows _ (by assumption)

theorem execFragmentAck_grows {s0 s : State} {t} {m} (e : execFragmentAck m s = .next t) (h : Grows s0 s) : Grows s0 t := by
  unfold execFragmentAck at e
  try dsimp only at e
  injection e with e
  subst e
  exact onFragmentAck_grows _ (by assumption)

theorem execFragmentData_grows {s0 s : State} {t} {m} (e : execFragmentData m s = .next t) (h : Grows s0 s) : Grows s0 t := by
  unfold execFragmentData at e
  try dsimp only at e
  injection e with e
  subst e
  exact onFragmentData_grows _ (by assumption)

theorem execFragmentFree_grows {s0 s : State} {t} {m} (e : execFragmentFree m s = .next t) (h : Grows s0 s) : Grows s0 t := by
  unfold execFragmentFree at e
  try dsimp only at e
  injection e with e
  subst e
  exact onFragmentFree_grows _ (by assumption)

theorem execFragmentGet_grows {s0 s : State} {t} {m} (e : execFragmentGet m s = .next t) (h : Grows s0 s) : Grows s0 t := by
  unfold execFragmentGet at e
  try dsimp only at e
  injection e with e
  subst e
  exact onFragmentGet_grows _ (by assumption)

theorem execFragmentLost_grows {s0 s : State} {t} {m} (e : execFragmentLost m s = .next t) (h : Grows s0 s) : Grows s0 t := by
  unfold execFragmentLost at e
  try dsimp only at e
  injection e with e
  subst e
  exact onFragmentLost_grows _ (by assumption)

theorem execFragmentPut_grows {s0 s : State} {t} {m} (e : execFragmentPut m s = .next t) (h : Grows s0 s) : Grows s0 t := by
  unfold execFragmentPut at e
  try dsimp only at e
  injection e with e
  subst e
  exact onFragmentPut_grows _ (by assumption)

theorem execGrant_grows {s0 s : State} {t} {m} (e : execGrant m s = .next t) (h : Grows s0 s) : Grows s0 t := by
  unfold execGrant at e
  try dsimp only at e
  injection e with e
  subst e
  exact onGrant_grows _ (by assumption)

theorem execGrantAck_grows {s0 s : State} {t} {m} (e : execGrantAck m s = .next t) (h : Grows s0 s) : Grows s0 t := by
  unfold execGrantAck at e
  try dsimp only at e
  injection e with e
  subst e
  exact onGrantAck_grows _ (by assumption)

theorem execHistoryQuery_grows {s0 s : State} {t} {m} (e : execHistoryQuery m s = .next t) (h : Grows s0 s) : Grows s0 t := by
  unfold execHistoryQuery at e
  try dsimp only at e
  injection e with e
  subst e
  exact onHistoryQuery_grows _ (by assumption)

theorem execNoteAck_grows {s0 s : State} {t} {m} (e : execNoteAck m s = .next t) (h : Grows s0 s) : Grows s0 t := by
  unfold execNoteAck at e
  try dsimp only at e
  injection e with e
  subst e
  exact onNoteAck_grows _ (by assumption)

theorem execPause_grows {s0 s : State} {t} {c} (e : execPause c s = .next t) (h : Grows s0 s) : Grows s0 t := by
  unfold execPause at e
  try dsimp only at e
  injection e with e
  subst e
  exact onNamed_grows _ _ _ (by assumption)

theorem execProbe_grows {s0 s : State} {t} {m} (e : execProbe m s = .next t) (h : Grows s0 s) : Grows s0 t := by
  unfold execProbe at e
  try dsimp only at e
  injection e with e
  subst e
  exact onProbe_grows _ (by assumption)

theorem execPulse_grows {s0 s : State} {t} {m} (e : execPulse m s = .next t) (h : Grows s0 s) : Grows s0 t := by
  unfold execPulse at e
  try dsimp only at e
  injection e with e
  subst e
  exact onPulse_grows _ (by assumption)

theorem execRecall_grows {s0 s : State} {t} {m} (e : execRecall m s = .next t) (h : Grows s0 s) : Grows s0 t := by
  unfold execRecall at e
  try dsimp only at e
  injection e with e
  subst e
  exact onRecall_grows _ (by assumption)

theorem execReject_grows {s0 s : State} {t} {m} (e : execReject m s = .next t) (h : Grows s0 s) : Grows s0 t := by
  unfold execReject at e
  try dsimp only at e
  injection e with e
  subst e
  exact onReject_grows _ (by assumption)

theorem execRelease_grows {s0 s : State} {t} {m} (e : execRelease m s = .next t) (h : Grows s0 s) : Grows s0 t := by
  unfold execRelease at e
  try dsimp only at e
  injection e with e
  subst e
  exact onRelease_grows _ (by assumption)

theorem execRingBlock_grows {s0 s : State} {t} {m} (e : execRingBlock m s = .next t) (h : Grows s0 s) : Grows s0 t := by
  unfold execRingBlock at e
  try dsimp only at e
  injection e with e
  subst e
  exact onRingBlock_grows _ (by assumption)

theorem execStatePush_grows {s0 s : State} {t} {m} (e : execStatePush m s = .next t) (h : Grows s0 s) : Grows s0 t := by
  unfold execStatePush at e
  try dsimp only at e
  injection e with e
  subst e
  exact onStatePush_grows _ (by assumption)

theorem execTokenNote_grows {s0 s : State} {t} {m} (e : execTokenNote m s = .next t) (h : Grows s0 s) : Grows s0 t := by
  unfold execTokenNote at e
  try dsimp only at e
  injection e with e
  subst e
  exact onTokenNote_grows _ (by assumption)

theorem execVerdict_grows {s0 s : State} {t} {m} (e : execVerdict m s = .next t) (h : Grows s0 s) : Grows s0 t := by
  unfold execVerdict at e
  try dsimp only at e
  injection e with e
  subst e
  exact onVerdict_grows _ (by assumption)

theorem diverge_grows {s0 s : State} (step) (r) (node) (h : Grows s0 s) : Grows s0 (diverge step r node s) := by
  unfold diverge
  try dsimp only
  exact raise_grows _ (Grows.put (by assumption) rfl)

theorem passStep_grows {s0 s : State} (tail) (h : Grows s0 s) : Grows s0 (passStep tail s) := by
  unfold passStep
  try dsimp only
  exact Grows.put (by assumption) rfl

theorem starve_grows {s0 s : State} (h : Grows s0 s) : Grows s0 (starve s) := by
  unfold starve
  try dsimp only
  split
  · assumption
  · exact raise_grows _ (Grows.put (by assumption) rfl)

theorem feedTime_grows {s0 s : State} (r) (h : Grows s0 s) : Grows s0 (feedTime r s) := by
  unfold feedTime
  try dsimp only
  exact Grows.put (by assumption) rfl

theorem feedKey_grows {s0 s : State} (r) (h : Grows s0 s) : Grows s0 (feedKey r s) := by
  unfold feedKey
  try dsimp only
  split
  · assumption
  · split
    · assumption
    · exact addWait_grows _ (Grows.put (by assumption) rfl)

theorem feedCommand_grows {s0 s : State} (r) (h : Grows s0 s) : Grows s0 (feedCommand r s) := by
  unfold feedCommand
  try dsimp only
  split
  · assumption
  · exact feedKey_grows _ (by assumption)
  · split
    · exact addWait_grows _ (by assumption)
    · refine addWait_grows _ ?_
      assumption
    · split
      · exact doTaken_grows _ _ _ _ (by assumption)
      · exact addWait_grows _ (by assumption)

theorem feedMessage_grows {s0 s : State} (r) (h : Grows s0 s) : Grows s0 (feedMessage r s) := by
  unfold feedMessage
  try dsimp only
  split
  · assumption
  · exact Grows.put (deliver_grows _ _ (Grows.put (by assumption) rfl)) rfl

theorem feedMoved_grows {s0 s : State} (code) (h_) (h : Grows s0 s) : Grows s0 (feedMoved code h_ s) := by
  unfold feedMoved
  try dsimp only
  split
  · assumption
  · split
    · exact pullItems_grows _ (updSeq_grows _ _ (by assumption))
    · split
      · exact deferSeq_grows _ _ (by assumption)
      · assumption

theorem feedDisposition_grows {s0 s : State} (r) (h : Grows s0 s) : Grows s0 (feedDisposition r s) := by
  unfold feedDisposition
  try dsimp only
  split
  · exact bump_grows _ _ (raiseTimes_grows _ _ (by assumption))
  · exact raise_grows _ (bump_grows _ _ (Grows.put (by assumption) rfl))
  · exact raise_grows _ (bump_grows _ _ (Grows.put (by assumption) rfl))
  · exact Grows.put (by assumption) rfl
  · exact feedMoved_grows _ _ (by assumption)

theorem feedRecord_grows {s0 s : State} (r) (h : Grows s0 s) : Grows s0 (feedRecord s r) := by
  unfold feedRecord
  try dsimp only
  split
  · exact feedTime_grows _ (by assumption)
  · exact feedCommand_grows _ (by assumption)
  · refine feedMessage_grows _ ?_
    assumption
  · exact feedDisposition_grows _ (by assumption)
  · exact feedMessage_grows _ (by assumption)
  · assumption

theorem feedPrelude_grows {s0 s : State} (rs) (h : Grows s0 s) : Grows s0 (feedPrelude rs s) := by
  unfold feedPrelude
  try dsimp only
  refine Grows.foldl (fun _ _ _ => ?_) ?_
  · exact feedRecord_grows _ (by assumption)
  · assumption

theorem feedStep_grows {s0 s : State} (r) (h : Grows s0 s) : Grows s0 (feedStep r s) := by
  unfold feedStep
  try dsimp only
  exact Grows.put (by assumption) rfl

theorem execCkptTailWrite_grows {s0 s : State} {t} {value}
    (e : execCkptTailWrite value s = .next t) (h : Grows s0 s) : Grows s0 t := by
  unfold execCkptTailWrite at e
  try dsimp only at e
  split at e
  · injection e with e
    subst e
    exact Grows.put (by assumption) rfl
  · injection e with e
    subst e
    assumption

theorem freeJournal_grows {s0 s : State} (tail) (h : Grows s0 s) : Grows s0 (freeJournal tail s) := by
  unfold freeJournal
  try dsimp only
  exact Grows.put (by assumption) rfl

theorem execJournalTailWrite_grows {s0 s : State} {t} {value}
    (e : execJournalTailWrite value s = .next t) (h : Grows s0 s) : Grows s0 t := by
  unfold execJournalTailWrite at e
  try dsimp only at e
  split at e
  · injection e with e
    subst e
    exact freeJournal_grows _ (by assumption)
  · injection e with e
    subst e
    assumption

theorem answer_grows {s0 s : State} (op) (dike) (dest) (window) (gen) (seq) (payload)
    (h : Grows s0 s) : Grows s0 (answer op dike dest window gen seq payload s) := by
  unfold answer
  try dsimp only
  exact queueFrame_grows _ _ (by assumption)

theorem ackComplete_grows {s0 s : State} (p) (h : Grows s0 s) : Grows s0 (ackComplete p s) := by
  unfold ackComplete
  try dsimp only
  exact answer_grows _ _ _ _ _ _ _ (by assumption)

theorem ackPartial_grows {s0 s : State} (m) (h : Grows s0 s) : Grows s0 (ackPartial m s) := by
  unfold ackPartial
  try dsimp only
  exact answer_grows _ _ _ _ _ _ _ (by assumption)

theorem chargeIn_grows {s0 s : State} (p) (h : Grows s0 s) : Grows s0 (chargeIn p s) := by
  unfold chargeIn
  try dsimp only
  split
  · assumption
  · exact charge_grows _ _ _ (by assumption)

theorem chargeSteward_grows {s0 s : State} (n) (m) (h : Grows s0 s) : Grows s0 (chargeSteward n m s).2 := by
  unfold chargeSteward
  try dsimp only
  split
  · dsimp only
    assumption
  · split
    · dsimp only
      exact charge_grows _ _ _ (by assumption)
    · dsimp only
      assumption

theorem fence_grows {s0 s : State} (p) (h : Grows s0 s) : Grows s0 (fence p s) := by
  unfold fence
  try dsimp only
  split
  · split
    · exact freeBelow_grows _ (by assumption)
    · exact setWindow_grows _ _ (freeBelow_grows _ (by assumption))
  · assumption

theorem refuse_grows {s0 s : State} (reason) (p) (h : Grows s0 s) : Grows s0 (refuse reason p s) := by
  unfold refuse
  try dsimp only
  split
  · exact Grows.put (bump_grows _ _ (by assumption)) rfl
  · exact answer_grows _ _ _ _ _ _ _ (Grows.put (bump_grows _ _ (by assumption)) rfl)

theorem countKey_grows {s0 s : State} (p) (h : Grows s0 s) : Grows s0 (countKey p s) := by
  unfold countKey
  try dsimp only
  split
  · exact bump_grows _ _ (by assumption)
  · assumption

theorem reanswer_grows {s0 s : State} (p) (d) (h : Grows s0 s) : Grows s0 (reanswer p d s) := by
  unfold reanswer
  try dsimp only
  split
  · exact queueFrame_grows _ _ (by assumption)
  · exact ackComplete_grows _ (by assumption)

theorem checked_grows {s0 s : State} (p) (act)
    (Hact : ∀ a0, Grows s0 a0 → Grows s0 (act a0)) (h : Grows s0 s) : Grows s0 (checked p act s) := by
  unfold checked
  try dsimp only
  split
  · exact refuse_grows _ _ (fence_grows _ (by assumption))
  · split
    · split
      · split
        · exact refuse_grows _ _ (countKey_grows _ (bump_grows _ _ (fence_grows _ (by assumption))))
        · split
          · exact bump_grows _ _ (fence_grows _ (by assumption))
          · apply Hact
            exact bump_grows _ _ (fence_grows _ (by assumption))
      · exact reanswer_grows _ _ (bump_grows _ _ (fence_grows _ (by assumption)))
    · split
      · exact ackComplete_grows _ (fence_grows _ (by assumption))
      · split
        · exact refuse_grows _ _ (countKey_grows _ (fence_grows _ (by assumption)))
        · split
          · exact fence_grows _ (by assumption)
          · apply Hact
            exact fence_grows _ (by assumption)

theorem countFcs_grows {s0 s : State} (p) (h : Grows s0 s) : Grows s0 (countFcs p s) := by
  unfold countFcs
  try dsimp only
  exact sEvent_grows _ _ _ _ (setPort_grows _ _ (by assumption))

theorem countFec_grows {s0 s : State} (p) (n) (h : Grows s0 s) : Grows s0 (countFec p n s) := by
  unfold countFec
  try dsimp only
  exact sEvent_grows _ _ _ _ (setPort_grows _ _ (by assumption))

theorem countFecLost_grows {s0 s : State} (p) (h : Grows s0 s) : Grows s0 (countFecLost p s) := by
  unfold countFecLost
  try dsimp only
  exact sEvent_grows _ _ _ _ (setPort_grows _ _ (by assumption))

theorem countFrameIn_grows {s0 s : State} (p) (h : Grows s0 s) : Grows s0 (countFrameIn p s) := by
  unfold countFrameIn
  try dsimp only
  exact wEvent_grows _ _ _ _ (wEvent_grows _ _ _ _ (setPort_grows _ _ (by assumption)))

theorem countNotMine_grows {s0 s : State} (p) (h : Grows s0 s) : Grows s0 (countNotMine p s) := by
  unfold countNotMine
  try dsimp only
  exact sEvent_grows _ _ _ _ (setPort_grows _ _ (by assumption))

theorem dropIn_grows {s0 s : State} (m) (h : Grows s0 s) : Grows s0 (dropIn m s) := by
  unfold dropIn
  try dsimp only
  exact Grows.put (by assumption) rfl

theorem dropIntake_grows {s0 s : State} (h : Grows s0 s) : Grows s0 (dropIntake s) := by
  unfold dropIntake
  try dsimp only
  exact raise_grows _ (bump_grows _ _ (by assumption))

theorem receive_grows {s0 s : State} (op) (p) (act)
    (Hact : ∀ a0, Grows s0 a0 → Grows s0 (act a0)) (h : Grows s0 s) : Grows s0 (receive op p act s) := by
  unfold receive
  try dsimp only
  split
  · assumption
  · split
    · exact countFecLost_grows _ (countFec_grows _ _ (by assumption))
    · split
      · exact countFcs_grows _ (countFec_grows _ _ (by assumption))
      · split
        · exact countFrameIn_grows _ (countFec_grows _ _ (by assumption))
        · split
          · exact raise_grows _ (bump_grows _ _ (countFrameIn_grows _ (countFec_grows _ _ (by assumption))))
          · split
            · exact raise_grows _ (chargeIn_grows _ (countFrameIn_grows _ (countFec_grows _ _ (by assumption))))
            · split
              · exact countNotMine_grows _ (chargeIn_grows _ (countFrameIn_grows _ (countFec_grows _ _ (by assumption))))
              · apply Hact
                exact chargeIn_grows _ (countFrameIn_grows _ (countFec_grows _ _ (by assumption)))

theorem policed_grows {s0 s : State} (p) (act)
    (Hact : ∀ a0, Grows s0 a0 → Grows s0 (act a0)) (h : Grows s0 s) : Grows s0 (policed p act s) := by
  unfold policed
  try dsimp only
  split
  · apply Hact
    exact police_grows _ _ (by assumption)
  · exact police_grows _ _ (by assumption)

theorem holdSource_grows {s0 s : State} {t} {n} (e : holdSource n s = some t) (h : Grows s0 s) : Grows s0 t := by
  unfold holdSource at e
  try dsimp only at e
  split at e
  · injection e with e
    subst e
    assumption
  · split at e
    · cases e
    · injection e with e
      subst e
      exact Grows.put (freeOf_grows _ _ (by assumption)) rfl

theorem takeSingle_grows {s0 s : State} (p) (act)
    (Hact : ∀ a0, Grows s0 a0 → Grows s0 (act a0)) (h : Grows s0 s) : Grows s0 (takeSingle p act s) := by
  unfold takeSingle
  try dsimp only
  refine policed_grows _ _ ?_ ?_
  · intro _ _
    split
    · exact dropIntake_grows (by assumption)
    · apply Hact
      exact holdSource_grows (by assumption) (by assumption)
  · assumption

theorem ownObject_grows {s0 s : State} (p) (act)
    (Hact : ∀ a0, Grows s0 a0 → Grows s0 (act a0)) (h : Grows s0 s) : Grows s0 (ownObject p act s) := by
  unfold ownObject
  try dsimp only
  refine forDike_grows _ _ _ ?_ ?_
  · intro _ _
    apply Hact
    assumption
  · assumption

theorem noteDone_grows {s0 s : State} (p) (prior) (h : Grows s0 s) : Grows s0 (noteDone p prior s) := by
  unfold noteDone
  try dsimp only
  exact Grows.put (by assumption) rfl

theorem serveAtomic_grows {s0 s : State} (p) (h : Grows s0 s) : Grows s0 (serveAtomic p s) := by
  unfold serveAtomic
  try dsimp only
  split
  · assumption
  · exact queueFrame_grows _ _ (noteDone_grows _ _ (placeObject_grows _ _ _ (chargeObject_grows _ _ (by assumption))))

theorem execNodorAtomic_grows {s0 s : State} {t} {at_ p}
    (e : execNodorAtomic at_ p s = .next t) (h : Grows s0 s) : Grows s0 t := by
  unfold execNodorAtomic at e
  try dsimp only at e
  injection e with e
  subst e
  refine receive_grows _ _ _ ?_ ?_
  · intro _ _
    refine checked_grows _ _ ?_ ?_
    · intro _ _
      refine takeSingle_grows _ _ ?_ ?_
      · intro _ _
        refine ownObject_grows _ _ ?_ ?_
        · intro _ _
          exact serveAtomic_grows _ (by assumption)
        · assumption
      · assumption
    · assumption
  · exact setNow_grows _ (by assumption)

theorem serveRead_grows {s0 s : State} (p) (h : Grows s0 s) : Grows s0 (serveRead p s) := by
  unfold serveRead
  try dsimp only
  split
  · assumption
  · refine Grows.foldl (fun _ _ _ => ?_) ?_
    · exact queueFrame_grows _ _ (by assumption)
    · exact noteDone_grows _ _ (chargeObject_grows _ _ (by assumption))

theorem execNodorRead_grows {s0 s : State} {t} {at_ p} (e : execNodorRead at_ p s = .next t) (h : Grows s0 s) : Grows s0 t := by
  unfold execNodorRead at e
  try dsimp only at e
  injection e with e
  subst e
  refine receive_grows _ _ _ ?_ ?_
  · intro _ _
    refine checked_grows _ _ ?_ ?_
    · intro _ _
      refine takeSingle_grows _ _ ?_ ?_
      · intro _ _
        refine ownObject_grows _ _ ?_ ?_
        · intro _ _
          exact serveRead_grows _ (by assumption)
        · assumption
      · assumption
    · assumption
  · exact setNow_grows _ (by assumption)

theorem repeatedIn_grows {s0 s : State} (m) (p) (h : Grows s0 s) : Grows s0 (repeatedIn m p s) := by
  unfold repeatedIn
  try dsimp only
  split
  · exact ackPartial_grows _ (by assumption)
  · assumption

theorem finishIn_grows {s0 s : State} (m) (p) (h : Grows s0 s) : Grows s0 (finishIn m p s) := by
  unfold finishIn
  try dsimp only
  split
  · exact raise_grows _ (dropIn_grows _ (by assumption))
  · split
    · exact deliver_grows _ _ (ackComplete_grows _ (noteDone_grows _ _ (dropIn_grows _ (by assumption))))
    · split
      · exact notice_grows _ _ _ _ _ _ (ackComplete_grows _ (noteDone_grows _ _ (dropIn_grows _ (by assumption))))
      · exact ackComplete_grows _ (noteDone_grows _ _ (dropIn_grows _ (by assumption)))

theorem putIn_grows {s0 s : State} (m) (h : Grows s0 s) : Grows s0 (putIn m s) := by
  unfold putIn
  try dsimp only
  exact Grows.put (by assumption) rfl

theorem joinIn_grows {s0 s : State} (m) (p) (h : Grows s0 s) : Grows s0 (joinIn m p s) := by
  unfold joinIn
  try dsimp only
  split
  · exact finishIn_grows _ _ (chargeSteward_grows _ _ (by assumption))
  · split
    · exact ackPartial_grows _ (putIn_grows _ (chargeSteward_grows _ _ (by assumption)))
    · exact putIn_grows _ (chargeSteward_grows _ _ (by assumption))

theorem takeSend_grows {s0 s : State} (p) (h : Grows s0 s) : Grows s0 (takeSend p s) := by
  unfold takeSend
  try dsimp only
  split
  · split
    · exact repeatedIn_grows _ _ (by assumption)
    · exact joinIn_grows _ _ (by assumption)
  · split
    · refine dropIntake_grows ?_
      assumption
    · split
      · exact joinIn_grows _ _ (holdSource_grows (by assumption) (by assumption))
      · exact dropIntake_grows (holdSource_grows (by assumption) (by assumption))

theorem execNodorSend_grows {s0 s : State} {t} {at_ p} (e : execNodorSend at_ p s = .next t) (h : Grows s0 s) : Grows s0 t := by
  unfold execNodorSend at e
  try dsimp only at e
  injection e with e
  subst e
  refine receive_grows _ _ _ ?_ ?_
  · intro _ _
    refine checked_grows _ _ ?_ ?_
    · intro _ _
      exact takeSend_grows _ (by assumption)
    · assumption
  · exact setNow_grows _ (by assumption)

theorem placeWrite_grows {s0 s : State} (p) (h : Grows s0 s) : Grows s0 (placeWrite p s) := by
  unfold placeWrite
  try dsimp only
  refine forDike_grows _ _ _ ?_ ?_
  · intro _ _
    exact placeObject_grows _ _ _ (by assumption)
  · assumption

theorem takeWrite_grows {s0 s : State} (p) (h : Grows s0 s) : Grows s0 (takeWrite p s) := by
  unfold takeWrite
  try dsimp only
  split
  · split
    · exact repeatedIn_grows _ _ (by assumption)
    · refine policed_grows _ _ ?_ ?_
      · intro _ _
        exact joinIn_grows _ _ (placeWrite_grows _ (by assumption))
      · assumption
  · refine policed_grows _ _ ?_ ?_
    · intro _ _
      split
      · exact dropIntake_grows (by assumption)
      · exact joinIn_grows _ _ (placeWrite_grows _ (holdSource_grows (by assumption) (by assumption)))
    · assumption

theorem execNodorWrite_grows {s0 s : State} {t} {at_ p}
    (e : execNodorWrite at_ p s = .next t) (h : Grows s0 s) : Grows s0 t := by
  unfold execNodorWrite at e
  try dsimp only at e
  injection e with e
  subst e
  refine receive_grows _ _ _ ?_ ?_
  · intro _ _
    refine checked_grows _ _ ?_ ?_
    · intro _ _
      exact takeWrite_grows _ (by assumption)
    · assumption
  · exact setNow_grows _ (by assumption)

theorem execPartialAckTimer_grows {s0 s : State} {t} {source msgSeq}
    (e : execPartialAckTimer source msgSeq s = .next t) (h : Grows s0 s) : Grows s0 t := by
  unfold execPartialAckTimer at e
  try dsimp only at e
  split at e
  · injection e with e
    subst e
    assumption
  · injection e with e
    subst e
    exact ackPartial_grows _ (putIn_grows _ (setNow_grows _ (by assumption)))

theorem countFrameOut_grows {s0 s : State} (p) (n) (h : Grows s0 s) : Grows s0 (countFrameOut p n s) := by
  unfold countFrameOut
  try dsimp only
  exact wEvent_grows _ _ _ _ (wEvent_grows _ _ _ _ (setPort_grows _ _ (by assumption)))

theorem execEthernetLinkChange_grows {s0 s : State} {t} {port up}
    (e : execEthernetLinkChange port up s = .next t) (h : Grows s0 s) : Grows s0 t := by
  unfold execEthernetLinkChange at e
  try dsimp only at e
  split at e
  · injection e with e
    subst e
    assumption
  · injection e with e
    subst e
    split
    · exact raise_grows _ (setPort_grows _ _ (by assumption))
    · exact movePort_grows _ (raise_grows _ (setPort_grows _ _ (by assumption)))

theorem settleTicket_grows {s0 s : State} (m) (f)
    (Hf : ∀ a0 a1, Grows s0 a1 → Grows s0 (f a0 a1)) (h : Grows s0 s) : Grows s0 (settleTicket m f s) := by
  unfold settleTicket
  try dsimp only
  split
  · apply Hf
    assumption
  · assumption

theorem execMessageAbandonTimer_grows {s0 s : State} {t} {dest msgSeq}
    (e : execMessageAbandonTimer dest msgSeq s = .next t) (h : Grows s0 s) : Grows s0 t := by
  unfold execMessageAbandonTimer at e
  try dsimp only at e
  split at e
  · injection e with e
    subst e
    assumption
  · split at e
    · injection e with e
      subst e
      assumption
    · injection e with e
      subst e
      refine settleTicket_grows _ _ ?_ ?_
      · intro _ _ _
        exact abandoned_grows _ (by assumption)
      · exact endMsg_grows _ _ (raise_grows _ (bump_grows _ _ (setNow_grows _ (by assumption))))

theorem resend_grows {s0 s : State} (m) (i) (flags) (h : Grows s0 s) : Grows s0 (resend m i flags s) := by
  unfold resend
  try dsimp only
  exact bump_grows _ _ (queuePacket_grows _ _ _ (by assumption))

theorem resendMissing_grows {s0 s : State} (m) (bitmap) (h : Grows s0 s) : Grows s0 (resendMissing m bitmap s) := by
  unfold resendMissing
  try dsimp only
  refine Grows.foldl (fun _ _ _ => ?_) ?_
  · exact resend_grows _ _ _ (by assumption)
  · assumption

theorem takeAck_grows {s0 s : State} (p) (h : Grows s0 s) : Grows s0 (takeAck p s) := by
  unfold takeAck
  try dsimp only
  split
  · assumption
  · split
    · exact resendMissing_grows _ _ (by assumption)
    · split
      · assumption
      · refine settleTicket_grows _ _ ?_ ?_
        · intro _ _ _
          exact done_grows _ (by assumption)
        · exact endMsg_grows _ _ (by assumption)

theorem execNodorAck_grows {s0 s : State} {t} {at_ p} (e : execNodorAck at_ p s = .next t) (h : Grows s0 s) : Grows s0 t := by
  unfold execNodorAck at e
  try dsimp only at e
  injection e with e
  subst e
  refine receive_grows _ _ _ ?_ ?_
  · intro _ _
    exact takeAck_grows _ (by assumption)
  · exact setNow_grows _ (by assumption)

theorem takePrior_grows {s0 s : State} (p) (h : Grows s0 s) : Grows s0 (takePrior p s) := by
  unfold takePrior
  try dsimp only
  split
  · assumption
  · split
    · exact doneWith_grows _ _ _ (endMsg_grows _ _ (by assumption))
    · assumption

theorem execNodorAtomicData_grows {s0 s : State} {t} {at_ p}
    (e : execNodorAtomicData at_ p s = .next t) (h : Grows s0 s) : Grows s0 t := by
  unfold execNodorAtomicData at e
  try dsimp only at e
  injection e with e
  subst e
  refine receive_grows _ _ _ ?_ ?_
  · intro _ _
    exact takePrior_grows _ (by assumption)
  · exact setNow_grows _ (by assumption)

theorem takeNack_grows {s0 s : State} (p) (h : Grows s0 s) : Grows s0 (takeNack p s) := by
  unfold takeNack
  try dsimp only
  split
  · assumption
  · refine settleTicket_grows _ _ ?_ ?_
    · intro _ _ _
      exact reasonWith_grows _ _ (by assumption)
    · exact endMsg_grows _ _ (by assumption)

theorem execNodorNack_grows {s0 s : State} {t} {at_ p} (e : execNodorNack at_ p s = .next t) (h : Grows s0 s) : Grows s0 t := by
  unfold execNodorNack at e
  try dsimp only at e
  injection e with e
  subst e
  refine receive_grows _ _ _ ?_ ?_
  · intro _ _
    exact takeNack_grows _ (by assumption)
  · exact setNow_grows _ (by assumption)

theorem updOut_grows {s0 s : State} (dest) (seq) (f) (h : Grows s0 s) : Grows s0 (updOut dest seq f s) := by
  unfold updOut
  try dsimp only
  exact Grows.put (by assumption) rfl

theorem takeData_grows {s0 s : State} (p) (h : Grows s0 s) : Grows s0 (takeData p s) := by
  unfold takeData
  try dsimp only
  split
  · assumption
  · split
    · split
      · assumption
      · split
        · exact done_grows _ (endMsg_grows _ _ (writeMem_grows _ _ (by assumption)))
        · exact updOut_grows _ _ _ (writeMem_grows _ _ (by assumption))
    · assumption

theorem execNodorReadData_grows {s0 s : State} {t} {at_ p}
    (e : execNodorReadData at_ p s = .next t) (h : Grows s0 s) : Grows s0 t := by
  unfold execNodorReadData at e
  try dsimp only at e
  injection e with e
  subst e
  refine receive_grows _ _ _ ?_ ?_
  · intro _ _
    exact takeData_grows _ (by assumption)
  · exact setNow_grows _ (by assumption)

theorem execResendTimeout_grows {s0 s : State} {t} {at_ dest msgSeq}
    (e : execResendTimeout at_ dest msgSeq s = .next t) (h : Grows s0 s) : Grows s0 t := by
  unfold execResendTimeout at e
  try dsimp only at e
  split at e
  · injection e with e
    subst e
    exact setNow_grows _ (by assumption)
  · split at e
    · injection e with e
      subst e
      exact resend_grows _ _ _ (setNow_grows _ (by assumption))
    · injection e with e
      subst e
      exact setNow_grows _ (by assumption)

theorem takeNonce_grows {s0 s : State} (k) (h : Grows s0 s) : Grows s0 (takeNonce k s).2 := by
  unfold takeNonce
  try dsimp only
  split
  · dsimp only
    assumption
  · split
    · dsimp only
      exact raise_grows _ (Grows.put (by assumption) rfl)
    · dsimp only
      exact Grows.put (by assumption) rfl

theorem keyFor_grows {s0 s : State} (f) (h : Grows s0 s) : Grows s0 (keyFor f s).2 := by
  unfold keyFor
  try dsimp only
  split
  · dsimp only
    assumption
  · dsimp only
    exact takeNonce_grows _ (by assumption)

theorem noteSent_grows {s0 s : State} (f) (h : Grows s0 s) : Grows s0 (noteSent f s) := by
  unfold noteSent
  try dsimp only
  split
  · exact updOut_grows _ _ _ (by assumption)
  · assumption

theorem transmit_grows {s0 s : State} (p) (f) (h : Grows s0 s) : Grows s0 (transmit p f s) := by
  unfold transmit
  try dsimp only
  split
  · exact noteSent_grows _ (keyFor_grows _ (by assumption))
  · exact Grows.put (charge_grows _ _ _ (countFrameOut_grows _ _ (noteSent_grows _ (keyFor_grows _
      (by assumption))))) rfl

theorem execTransmitOpportunity_grows {s0 s : State} {t} {at_ port}
    (e : execTransmitOpportunity at_ port s = .next t) (h : Grows s0 s) : Grows s0 t := by
  unfold execTransmitOpportunity at e
  try dsimp only at e
  split at e
  · injection e with e
    subst e
    split
    · exact nextFrame_grows _ (setNow_grows _ (by assumption))
    · exact transmit_grows _ _ (nextFrame_grows _ (setNow_grows _ (by assumption)))
  · injection e with e
    subst e
    exact setNow_grows _ (by assumption)

theorem spdmRequest_grows {s0 s : State} {u} {t act} (Hact : ∀ a0, Grows s0 a0 → Grows s0 (act a0))
    (e : spdmRequest t act s = .next u) (h : Grows s0 s) : Grows s0 u := by
  unfold spdmRequest at e
  try dsimp only at e
  split at e
  · injection e with e
    subst e
    apply Hact
    assumption
  · injection e with e
    subst e
    assumption

theorem setSpdm_grows {s0 s : State} (t) (c) (h : Grows s0 s) : Grows s0 (setSpdm t c s) := by
  unfold setSpdm
  try dsimp only
  split
  · exact Grows.put (by assumption) rfl
  · exact Grows.put (by assumption) rfl
  · exact Grows.put (by assumption) rfl

theorem spdmFail_grows {s0 s : State} (t) (code) (data) (h : Grows s0 s) : Grows s0 (spdmFail t code data s) := by
  unfold spdmFail
  try dsimp only
  exact raise_grows _ (bump_grows _ _ (setSpdm_grows _ _ (by assumption)))

theorem spdmReady_grows {s0 s : State} {u} {t act} (Hact : ∀ a0 a1, Grows s0 a1 → Grows s0 (act a0 a1))
    (e : spdmReady t act s = .next u) (h : Grows s0 s) : Grows s0 u := by
  unfold spdmReady at e
  try dsimp only at e
  refine spdmRequest_grows ?_ e ?_
  · intro _ _
    split
    · apply Hact
      assumption
    · exact spdmFail_grows _ _ _ (by assumption)
  · assumption

theorem freeBytes_grows {s0 x1 : State} (x0) (h : Grows s0 x1) : Grows s0 (freeBytes x0 x1).2 := by
  induction x0 generalizing x1 with
  | zero =>
    unfold freeBytes
    try dsimp only
    assumption
  | succ n ih =>
    unfold freeBytes
    try dsimp only
    apply ih
    exact freeBelow_grows _ (by assumption)

theorem execChallenge_grows {s0 s : State} {u} {t slot nonce}
    (e : execChallenge t slot nonce s = .next u) (h : Grows s0 s) : Grows s0 u := by
  unfold execChallenge at e
  try dsimp only at e
  refine spdmReady_grows ?_ e ?_
  · intro _ _ _
    split
    · exact spdmFail_grows _ _ _ (by assumption)
    · exact setSpdm_grows _ _ (freeBytes_grows _ (by assumption))
  · assumption

theorem respond_grows {s0 s : State} (t) (c) (request) (response)
    (h : Grows s0 s) : Grows s0 (respond t c request response s) := by
  unfold respond
  try dsimp only
  exact setSpdm_grows _ _ (by assumption)

theorem execGetCapabilities_grows {s0 s : State} {u} {t}
    (e : execGetCapabilities t s = .next u) (h : Grows s0 s) : Grows s0 u := by
  unfold execGetCapabilities at e
  try dsimp only at e
  refine spdmRequest_grows ?_ e ?_
  · intro _ _
    split
    · exact spdmFail_grows _ _ _ (by assumption)
    · exact respond_grows _ _ _ _ (freeBelow_grows _ (freeBelow_grows _ (freeBelow_grows _ (by assumption))))
  · assumption

theorem execGetCertificate_grows {s0 s : State} {u} {t slot offset length}
    (e : execGetCertificate t slot offset length s = .next u) (h : Grows s0 s) : Grows s0 u := by
  unfold execGetCertificate at e
  try dsimp only at e
  refine spdmReady_grows ?_ e ?_
  · intro _ _ _
    split
    · exact spdmFail_grows _ _ _ (by assumption)
    · exact respond_grows _ _ _ _ (by assumption)
  · assumption

theorem execGetDigests_grows {s0 s : State} {u} {t} (e : execGetDigests t s = .next u) (h : Grows s0 s) : Grows s0 u := by
  unfold execGetDigests at e
  try dsimp only at e
  refine spdmReady_grows ?_ e ?_
  · intro _ _ _
    exact respond_grows _ _ _ _ (by assumption)
  · assumption

theorem execGetMeasurements_grows {s0 s : State} {u} {t index signed nonce}
    (e : execGetMeasurements t index signed nonce s = .next u) (h : Grows s0 s) : Grows s0 u := by
  unfold execGetMeasurements at e
  try dsimp only at e
  refine spdmReady_grows ?_ e ?_
  · intro _ _ _
    split
    · exact spdmFail_grows _ _ _ (by assumption)
    · split
      · exact setSpdm_grows _ _ (freeBytes_grows _ (by assumption))
      · exact respond_grows _ _ _ _ (freeBytes_grows _ (by assumption))
  · assumption

theorem execGetVersion_grows {s0 s : State} {u} {t} (e : execGetVersion t s = .next u) (h : Grows s0 s) : Grows s0 u := by
  unfold execGetVersion at e
  try dsimp only at e
  refine spdmRequest_grows ?_ e ?_
  · intro _ _
    exact respond_grows _ _ _ _ (by assumption)
  · assumption

theorem keyProg_grows {s0 s : State} (port) (stream) (blob) (opened)
    (h : Grows s0 s) : Grows s0 (keyProg port stream blob opened s) := by
  unfold keyProg
  try dsimp only
  split
  · exact setSpdm_grows _ _ (takeBlob_grows _ _ _ _ _ (by assumption))
  · split
    · exact Grows.put (setSpdm_grows _ _ (takeBlob_grows _ _ _ _ _ (by assumption))) rfl
    · exact Grows.put (setSpdm_grows _ _ (takeBlob_grows _ _ _ _ _ (by assumption))) rfl

theorem execKeyProg_grows {s0 s : State} {t} {port streamConfigured blob opened}
    (e : execKeyProg port streamConfigured blob opened s = .next t) (h : Grows s0 s) : Grows s0 t := by
  unfold execKeyProg at e
  try dsimp only at e
  split at e
  · split at e
    · injection e with e
      subst e
      exact keyProg_grows _ _ _ _ (by assumption)
    · injection e with e
      subst e
      assumption
  · split at e
    · injection e with e
      subst e
      exact keyProg_grows _ _ _ _ (by assumption)
    · injection e with e
      subst e
      assumption

theorem execNegotiateAlgorithms_grows {s0 s : State} {u} {t version base meas asym}
    (e : execNegotiateAlgorithms t version base meas asym s = .next u) (h : Grows s0 s) : Grows s0 u := by
  unfold execNegotiateAlgorithms at e
  try dsimp only at e
  refine spdmRequest_grows ?_ e ?_
  · intro _ _
    split
    · exact spdmFail_grows _ _ _ (by assumption)
    · split
      · exact spdmFail_grows _ _ _ (by assumption)
      · split
        · refine spdmFail_grows _ _ _ ?_
          assumption
        · exact respond_grows _ _ _ _ (by assumption)
  · assumption

theorem execSpdmUnsupportedRequest_grows {s0 s : State} {u} {t code}
    (e : execSpdmUnsupportedRequest t code s = .next u) (h : Grows s0 s) : Grows s0 u := by
  unfold execSpdmUnsupportedRequest at e
  try dsimp only at e
  refine spdmRequest_grows ?_ e ?_
  · intro _ _
    exact spdmFail_grows _ _ _ (by assumption)
  · assumption

theorem charterFailed_grows {s0 s : State} (h : Grows s0 s) : Grows s0 (charterFailed s) := by
  unfold charterFailed
  try dsimp only
  exact raise_grows _ (Grows.put (by assumption) rfl)

theorem doCharterWrite_grows {s0 s : State} (a) (h : Grows s0 s) : Grows s0 (doCharterWrite a s) := by
  unfold doCharterWrite
  try dsimp only
  split
  · exact charterFailed_grows (by assumption)
  · exact queueFlash_grows _ (Grows.put (by assumption) rfl)

theorem execCharterWrite_grows {s0 s : State} {t} {placed}
    (e : execCharterWrite placed s = .next t) (h : Grows s0 s) : Grows s0 t := by
  unfold execCharterWrite at e
  try dsimp only at e
  injection e with e
  subst e
  split
  · exact doCharterWrite_grows _ (place_grows _ (by assumption))
  · assumption

theorem execCharterWriteComplete_grows {s0 s : State} {t} {ok}
    (e : execCharterWriteComplete ok s = .next t) (h : Grows s0 s) : Grows s0 t := by
  unfold execCharterWriteComplete at e
  try dsimp only at e
  split at e
  · split at e
    · injection e with e
      subst e
      exact popFlash_grows (raise_grows _ (writeFlash_grows _ _ (Grows.put (by assumption) rfl)))
    · injection e with e
      subst e
      exact popFlash_grows (charterFailed_grows (breakFlash_grows _ (by assumption)))
  · injection e with e
    subst e
    assumption

theorem startQuarantine_grows {s0 s : State} (c) (h : Grows s0 s) : Grows s0 (startQuarantine c s) := by
  unfold startQuarantine
  try dsimp only
  exact bump_grows _ _ (updCore_grows _ _ _ (by assumption))

theorem applyHealth_grows {s0 s : State} (h : Grows s0 s) : Grows s0 (applyHealth s) := by
  unfold applyHealth
  try dsimp only
  refine Grows.foldl (fun _ _ _ => ?_) ?_
  · exact startQuarantine_grows _ (by assumption)
  · assumption

theorem beginStep_grows {s0 s : State} (h : Grows s0 s) : Grows s0 (beginStep s) := by
  unfold beginStep
  try dsimp only
  exact Grows.put (by assumption) rfl

theorem cxlFault_grows {s0 s : State} (h : Grows s0 s) : Grows s0 (cxlFault s) := by
  unfold cxlFault
  try dsimp only
  split
  · exact dropFault_grows _ (by assumption)
  · exact addFault_grows _ (by assumption)

theorem enterRecovery_grows {s0 s : State} (cause) (h : Grows s0 s) : Grows s0 (enterRecovery cause s) := by
  unfold enterRecovery
  try dsimp only
  exact Grows.put (by assumption) rfl

theorem startImage_grows {s0 s : State} (img) (h : Grows s0 s) : Grows s0 (startImage img s) := by
  unfold startImage
  try dsimp only
  exact logEvent_grows _ _ (Grows.put (by assumption) rfl)

theorem execImageStartTimeout_grows {s0 s : State} {t}
    (e : execImageStartTimeout s = .next t) (h : Grows s0 s) : Grows s0 t := by
  unfold execImageStartTimeout at e
  try dsimp only at e
  injection e with e
  subst e
  split
  · exact enterRecovery_grows _ (by assumption)
  · assumption

theorem execPowerStepInterval_grows {s0 s : State} {t}
    (e : execPowerStepInterval s = .next t) (h : Grows s0 s) : Grows s0 t := by
  unfold execPowerStepInterval at e
  try dsimp only at e
  injection e with e
  subst e
  split
  · exact beginStep_grows (by assumption)
  · assumption

theorem recoveryDiscard_grows {s0 s : State} (h : Grows s0 s) : Grows s0 (recoveryDiscard s) := by
  unfold recoveryDiscard
  try dsimp only
  exact Grows.put (by assumption) rfl

theorem execRecoveryAbort_grows {s0 s : State} {t} (e : execRecoveryAbort s = .next t) (h : Grows s0 s) : Grows s0 t := by
  unfold execRecoveryAbort at e
  try dsimp only at e
  injection e with e
  subst e
  split
  · exact recoveryDiscard_grows (by assumption)
  · assumption

theorem recoveryVerify_grows {s0 s : State} (sigOk) (h : Grows s0 s) : Grows s0 (recoveryVerify sigOk s) := by
  unfold recoveryVerify
  try dsimp only
  split
  · exact startImage_grows _ (Grows.put (by assumption) rfl)
  · exact Grows.put (raise_grows _ (refuseImage_grows _ (by assumption))) rfl

theorem execRecoveryFinish_grows {s0 s : State} {t} {sigOk}
    (e : execRecoveryFinish sigOk s = .next t) (h : Grows s0 s) : Grows s0 t := by
  unfold execRecoveryFinish at e
  try dsimp only at e
  injection e with e
  subst e
  split
  · exact recoveryVerify_grows _ (by assumption)
  · assumption

theorem recoveryAppend_grows {s0 s : State} (length) (h : Grows s0 s) : Grows s0 (recoveryAppend length s) := by
  unfold recoveryAppend
  try dsimp only
  split
  · exact Grows.put (by assumption) rfl
  · exact Grows.put (by assumption) rfl

theorem execRecoveryPush_grows {s0 s : State} {t} {length chunk}
    (e : execRecoveryPush length chunk s = .next t) (h : Grows s0 s) : Grows s0 t := by
  unfold execRecoveryPush at e
  try dsimp only at e
  split at e
  · injection e with e
    subst e
    exact recoveryAppend_grows _ (Grows.put (by assumption) rfl)
  · injection e with e
    subst e
    assumption

theorem flashRecovered_grows {s0 s : State} (h : Grows s0 s) : Grows s0 (flashRecovered s) := by
  unfold flashRecovered
  try dsimp only
  split
  · assumption
  · exact queueFlash_grows _ (Grows.put (by assumption) rfl)

theorem portsTrained_grows {s0 s : State} (mask) (h : Grows s0 s) : Grows s0 (portsTrained mask s) := by
  unfold portsTrained
  try dsimp only
  refine Grows.foldl (fun _ _ _ => ?_) ?_
  · split
    · exact raise_grows _ (setPort_grows _ _ (by assumption))
    · assumption
  · assumption

theorem execServiceReached_grows {s0 s : State} {t} {ms portsUp}
    (e : execServiceReached ms portsUp s = .next t) (h : Grows s0 s) : Grows s0 t := by
  unfold execServiceReached at e
  try dsimp only at e
  split at e
  · injection e with e
    subst e
    exact flashRecovered_grows (cxlFault_grows (portsTrained_grows _ (setIntake_grows _ _ (Grows.put
      (by assumption) rfl))))
  · injection e with e
    subst e
    assumption

theorem failLink_grows {s0 s : State} (l) (h : Grows s0 s) : Grows s0 (failLink l s) := by
  unfold failLink
  try dsimp only
  split
  · exact linkConsequence_grows _ (raise_grows _ (setLink_grows _ _ (by assumption)))
  · assumption

theorem failStartCheck_grows {s0 s : State} (c) (h : Grows s0 s) : Grows s0 (failStartCheck c s) := by
  unfold failStartCheck
  try dsimp only
  split
  · exact raise_grows _ (queueFlash_grows _ (startQuarantine_grows _ (updCore_grows _ _ _ (by assumption))))
  · assumption

theorem execStewardStart_grows {s0 s : State} {t} {links failed}
    (e : execStewardStart links failed s = .next t) (h : Grows s0 s) : Grows s0 t := by
  unfold execStewardStart at e
  try dsimp only at e
  split at e
  · split at e
    · injection e with e
      subst e
      refine Grows.put ?_ rfl
      refine Grows.foldl (fun _ _ _ => ?_) ?_
      · exact failStartCheck_grows _ (by assumption)
      · refine applyHealth_grows ?_
        refine Grows.foldl (fun _ _ _ => ?_) ?_
        · exact failLink_grows _ (by assumption)
        · assumption
    · injection e with e
      subst e
      exact Grows.put (by assumption) rfl
  · injection e with e
    subst e
    assumption

theorem beginStart_grows {s0 s : State} (h : Grows s0 s) : Grows s0 (beginStart s) := by
  unfold beginStart
  try dsimp only
  exact Grows.put (by assumption) rfl

theorem setCxl_grows {s0 s : State} (port) (p) (h : Grows s0 s) : Grows s0 (setCxl port p s) := by
  unfold setCxl
  try dsimp only
  split
  · exact Grows.put (by assumption) rfl
  · exact Grows.put (by assumption) rfl

theorem changeCxl_grows {s0 s : State} (port) (p) (h : Grows s0 s) : Grows s0 (changeCxl port p s) := by
  unfold changeCxl
  try dsimp only
  split
  · exact setCxl_grows _ _ (by assumption)
  · split
    · exact serveRings_grows (cxlFault_grows (raise_grows _ (setCxl_grows _ _ (by assumption))))
    · exact raise_grows _ (setCxl_grows _ _ (by assumption))

theorem sendNext_grows {s0 x2 : State} (p) (x1) (h : Grows s0 x2) : Grows s0 (sendNext p x1 x2) := by
  induction x1 generalizing x2 with
  | zero =>
    unfold sendNext
    try dsimp only
    assumption
  | succ n ih =>
    unfold sendNext
    try dsimp only
    split
    · exact Grows.of_snd (by assumption) (nextFrame_grows _ (by assumption))
    · apply ih
      exact transmit_grows _ _ (Grows.of_snd (by assumption) (nextFrame_grows _ (by assumption)))

theorem drainSteps_grows {s0 s : State} (h : Grows s0 s) : Grows s0 (drainSteps s) := by
  unfold drainSteps
  try dsimp only
  refine Grows.foldl (fun _ _ _ => ?_) ?_
  · split
    · exact sendNext_grows _ _ (by assumption)
    · assumption
  · assumption

theorem supplyAt_grows {s0 s : State} (at_) (h : Grows s0 s) : Grows s0 (supplyAt at_ s) := by
  unfold supplyAt
  try dsimp only
  split
  · exact setNow_grows _ (by assumption)
  · assumption

theorem failBatches_grows {s0 s : State} (h : Grows s0 s) : Grows s0 (failBatches s) := by
  unfold failBatches
  try dsimp only
  split
  · refine sendBatches_grows _ ?_
    refine Grows.foldl (fun _ _ _ => ?_) ?_
    · exact addNotice_grows _ _ _ _ (by assumption)
    · exact Grows.put (by assumption) rfl
  · assumption

theorem logPower_grows {s0 s : State} (event) (cause) (h : Grows s0 s) : Grows s0 (logPower event cause s) := by
  unfold logPower
  split
  · exact h.of_eq rfl rfl rfl
  · exact h

theorem execCxlLinkChange_grows {s0 s : State} {t} {port rate width}
    (e : execCxlLinkChange port rate width s = .next t) (h : Grows s0 s) : Grows s0 t := by
  unfold execCxlLinkChange at e
  try dsimp only at e
  injection e with e
  subst e
  split
  · split
    · exact changeCxl_grows _ _ (by assumption)
    · exact changeCxl_grows _ _ (by assumption)
  · assumption

theorem execDynamicAddressAssignment_grows {s0 s : State} {t} {address}
    (e : execDynamicAddressAssignment address s = .next t) (h : Grows s0 s) : Grows s0 t := by
  unfold execDynamicAddressAssignment at e
  try dsimp only at e
  injection e with e
  subst e
  split
  · exact Grows.put (by assumption) rfl
  · assumption

theorem manage_grows {s0 s : State} (bs) (h : Grows s0 s) : Grows s0 (manage bs s) := by
  unfold manage
  try dsimp only
  split
  · exact Grows.put (by assumption) rfl
  · assumption

theorem execGetIdentity_grows {s0 s : State} {t} (e : execGetIdentity s = .next t) (h : Grows s0 s) : Grows s0 t := by
  unfold execGetIdentity at e
  try dsimp only at e
  injection e with e
  subst e
  exact manage_grows _ (by assumption)

theorem execGetPowerLog_grows {s0 s : State} {t} (e : execGetPowerLog s = .next t) (h : Grows s0 s) : Grows s0 t := by
  unfold execGetPowerLog at e
  try dsimp only at e
  injection e with e
  subst e
  exact manage_grows _ (by assumption)

theorem execGetSensors_grows {s0 s : State} {t} {v} (e : execGetSensors v s = .next t) (h : Grows s0 s) : Grows s0 t := by
  unfold execGetSensors at e
  try dsimp only at e
  injection e with e
  subst e
  exact manage_grows _ (by assumption)

theorem execIdeIntegrityFailure_grows {s0 s : State} {t} {port}
    (e : execIdeIntegrityFailure port s = .next t) (h : Grows s0 s) : Grows s0 t := by
  unfold execIdeIntegrityFailure at e
  try dsimp only at e
  injection e with e
  subst e
  split
  · exact changeCxl_grows _ _ (by assumption)
  · assumption

theorem setVolts_grows {s0 s : State} (v) (h : Grows s0 s) : Grows s0 (setVolts v s) := by
  unfold setVolts
  try dsimp only
  exact Grows.put (by assumption) rfl

theorem execInputLow_grows {s0 s : State} {t} {at_ volts10mV bank}
    (e : execInputLow at_ volts10mV bank s = .next t) (h : Grows s0 s) : Grows s0 t := by
  unfold execInputLow at e
  try dsimp only at e
  injection e with e
  subst e
  split
  · exact logPower_grows _ _ (Grows.put (setVolts_grows _ (supplyAt_grows _ (by assumption))) rfl)
  · exact Grows.put (setVolts_grows _ (supplyAt_grows _ (by assumption))) rfl

theorem execInputReconnect_grows {s0 s : State} {t} {at_}
    (e : execInputReconnect at_ s = .next t) (h : Grows s0 s) : Grows s0 t := by
  unfold execInputReconnect at e
  try dsimp only at e
  split at e
  · injection e with e
    subst e
    split
    · split
      · refine beginStart_grows ?_
        refine Grows.put ?_ rfl
        dsimp only
        exact supplyAt_grows _ (by assumption)
      · refine Grows.put ?_ rfl
        dsimp only
        exact supplyAt_grows _ (by assumption)
    · split
      · refine beginStart_grows ?_
        refine Grows.put ?_ rfl
        dsimp only
        exact freeBelow_grows _ (supplyAt_grows _ (by assumption))
      · refine Grows.put ?_ rfl
        dsimp only
        exact freeBelow_grows _ (supplyAt_grows _ (by assumption))
  · injection e with e
    subst e
    assumption

theorem execInputRestored_grows {s0 s : State} {t} {at_ volts10mV bank}
    (e : execInputRestored at_ volts10mV bank s = .next t) (h : Grows s0 s) : Grows s0 t := by
  unfold execInputRestored at e
  try dsimp only at e
  injection e with e
  subst e
  split
  · exact logPower_grows _ _ (Grows.put (setVolts_grows _ (supplyAt_grows _ (by assumption))) rfl)
  · exact Grows.put (setVolts_grows _ (supplyAt_grows _ (by assumption))) rfl

theorem execPerstAssert_grows {s0 s : State} {t} {port}
    (e : execPerstAssert port s = .next t) (h : Grows s0 s) : Grows s0 t := by
  unfold execPerstAssert at e
  try dsimp only at e
  injection e with e
  subst e
  split
  · exact changeCxl_grows _ _ (by assumption)
  · assumption

theorem execPowerOver_grows {s0 s : State} {t} {at_ watts}
    (e : execPowerOver at_ watts s = .next t) (h : Grows s0 s) : Grows s0 t := by
  unfold execPowerOver at e
  try dsimp only at e
  injection e with e
  subst e
  split
  · exact logPower_grows _ _ (raise_grows _ (bump_grows _ _ (supplyAt_grows _ (by assumption))))
  · exact supplyAt_grows _ (by assumption)

theorem execPwrGoodRise_grows {s0 s : State} {t} (e : execPwrGoodRise s = .next t) (h : Grows s0 s) : Grows s0 t := by
  unfold execPwrGoodRise at e
  try dsimp only at e
  injection e with e
  subst e
  split
  · exact beginStart_grows (Grows.put (by assumption) rfl)
  · exact Grows.put (by assumption) rfl

theorem execThermalExcursionEnd_grows {s0 s : State} {t} {die}
    (e : execThermalExcursionEnd die s = .next t) (h : Grows s0 s) : Grows s0 t := by
  unfold execThermalExcursionEnd at e
  try dsimp only at e
  injection e with e
  subst e
  exact Grows.put (by assumption) rfl

theorem execThermalHigh_grows {s0 s : State} {t} {at_ die}
    (e : execThermalHigh at_ die s = .next t) (h : Grows s0 s) : Grows s0 t := by
  unfold execThermalHigh at e
  try dsimp only at e
  injection e with e
  subst e
  split
  · exact logPower_grows _ _ (Grows.put (supplyAt_grows _ (by assumption)) rfl)
  · exact supplyAt_grows _ (by assumption)

theorem keepWord_grows {s0 s : State} (block) (off) (v) (h : Grows s0 s) : Grows s0 (keepWord block off v s) := by
  unfold keepWord
  try dsimp only
  exact Grows.put (by assumption) rfl

theorem writeRecovery_grows {s0 s : State} (v) (h : Grows s0 s) : Grows s0 (writeRecovery v s) := by
  unfold writeRecovery
  try dsimp only
  split
  · split
    · split
      · split
        · exact recoveryDiscard_grows (recoveryVerify_grows _ (freeBelow_grows _ (recoveryAppend_grows _
            (keepWord_grows _ _ _ (by assumption)))))
        · exact recoveryVerify_grows _ (freeBelow_grows _ (recoveryAppend_grows _ (keepWord_grows _ _ _ (by assumption))))
      · split
        · exact recoveryDiscard_grows (recoveryVerify_grows _ (freeBelow_grows _ (keepWord_grows _ _ _ (by assumption))))
        · exact recoveryVerify_grows _ (freeBelow_grows _ (keepWord_grows _ _ _ (by assumption)))
    · split
      · split
        · exact recoveryDiscard_grows (recoveryAppend_grows _ (keepWord_grows _ _ _ (by assumption)))
        · exact recoveryAppend_grows _ (keepWord_grows _ _ _ (by assumption))
      · split
        · exact recoveryDiscard_grows (keepWord_grows _ _ _ (by assumption))
        · exact keepWord_grows _ _ _ (by assumption)
  · exact keepWord_grows _ _ _ (by assumption)

theorem writeBase_grows {s0 s : State} (r) (k) (v) (h : Grows s0 s) : Grows s0 (writeBase r k v s) := by
  unfold writeBase
  try dsimp only
  split
  · assumption
  · exact setRing_grows _ _ (by assumption)

theorem writeRing_grows {s0 s : State} (off) (v) (h : Grows s0 s) : Grows s0 (writeRing off v s) := by
  unfold writeRing
  try dsimp only
  split
  · split
    · exact ringControl_grows _ _ (by assumption)
    · exact writeBase_grows _ _ _ (by assumption)
    · refine writeBase_grows _ _ _ ?_
      assumption
    · exact writeBase_grows _ _ _ (by assumption)
    · exact writeBase_grows _ _ _ (by assumption)
    · assumption
  · split
    · split
      · exact doorbell_grows _ _ (by assumption)
      · exact consumed_grows _ _ (by assumption)
    · assumption

theorem setLatch_grows {s0 s : State} (block) (base) (bs) (h : Grows s0 s) : Grows s0 (setLatch block base bs s) := by
  unfold setLatch
  try dsimp only
  exact Grows.put (by assumption) rfl

theorem latchReport_grows {s0 s : State} (v) (h : Grows s0 s) : Grows s0 (latchReport v s) := by
  unfold latchReport
  try dsimp only
  exact setLatch_grows _ _ _ (by assumption)

theorem latchPort_grows {s0 s : State} (v) (h : Grows s0 s) : Grows s0 (latchPort v s) := by
  unfold latchPort
  try dsimp only
  exact setLatch_grows _ _ _ (by assumption)

theorem latchWindow_grows {s0 s : State} (v) (h : Grows s0 s) : Grows s0 (latchWindow v s) := by
  unfold latchWindow
  try dsimp only
  exact setLatch_grows _ _ _ (by assumption)

theorem latchQueue_grows {s0 s : State} (v) (h : Grows s0 s) : Grows s0 (latchQueue v s) := by
  unfold latchQueue
  try dsimp only
  exact setLatch_grows _ _ _ (by assumption)

theorem latchPolicer_grows {s0 s : State} (v) (h : Grows s0 s) : Grows s0 (latchPolicer v s) := by
  unfold latchPolicer
  try dsimp only
  exact setLatch_grows _ _ _ (by assumption)

theorem latchEntry_grows {s0 s : State} (v) (h : Grows s0 s) : Grows s0 (latchEntry v s) := by
  unfold latchEntry
  try dsimp only
  exact Grows.put (by assumption) rfl

theorem latchOwner_grows {s0 s : State} (v) (h : Grows s0 s) : Grows s0 (latchOwner v s) := by
  unfold latchOwner
  try dsimp only
  exact setLatch_grows _ _ _ (by assumption)

theorem latchDesc_grows {s0 s : State} (v) (h : Grows s0 s) : Grows s0 (latchDesc v s) := by
  unfold latchDesc
  try dsimp only
  exact setLatch_grows _ _ _ (by assumption)

theorem latchSegment_grows {s0 s : State} (v) (h : Grows s0 s) : Grows s0 (latchSegment v s) := by
  unfold latchSegment
  try dsimp only
  exact setLatch_grows _ _ _ (by assumption)

theorem latchTable_grows {s0 s : State} (v) (h : Grows s0 s) : Grows s0 (latchTable v s) := by
  unfold latchTable
  try dsimp only
  split
  · exact setLatch_grows _ _ _ (setLatch_grows _ _ _ (by assumption))
  · exact setLatch_grows _ _ _ (setLatch_grows _ _ _ (by assumption))

theorem latchKey_grows {s0 s : State} (v) (h : Grows s0 s) : Grows s0 (latchKey v s) := by
  unfold latchKey
  try dsimp only
  exact Grows.put (by assumption) rfl

theorem latchCore_grows {s0 s : State} (v) (h : Grows s0 s) : Grows s0 (latchCore v s) := by
  unfold latchCore
  try dsimp only
  exact setLatch_grows _ _ _ (by assumption)

theorem latchAcct_grows {s0 s : State} (v) (h : Grows s0 s) : Grows s0 (latchAcct v s) := by
  unfold latchAcct
  try dsimp only
  exact setLatch_grows _ _ _ (by assumption)

theorem latchFor_grows {s0 s : State} (block) (off) (v) (h : Grows s0 s) : Grows s0 (latchFor block off v s) := by
  unfold latchFor
  try dsimp only
  split
  · exact latchReport_grows _ (by assumption)
  · exact latchPort_grows _ (by assumption)
  · refine latchWindow_grows _ ?_
    assumption
  · exact latchQueue_grows _ (by assumption)
  · exact latchPolicer_grows _ (by assumption)
  · exact latchEntry_grows _ (by assumption)
  · refine latchOwner_grows _ ?_
    assumption
  · exact latchDesc_grows _ (by assumption)
  · refine latchSegment_grows _ ?_
    assumption
  · exact latchTable_grows _ (by assumption)
  · refine latchKey_grows _ ?_
    assumption
  · exact latchCore_grows _ (by assumption)
  · exact latchAcct_grows _ (by assumption)
  · assumption

theorem writeIndex_grows {s0 s : State} (block) (off) (v) (h : Grows s0 s) : Grows s0 (writeIndex block off v s) := by
  unfold writeIndex
  try dsimp only
  split
  · exact latchFor_grows _ _ _ (keepWord_grows _ _ _ (by assumption))
  · exact keepWord_grows _ _ _ (by assumption)

theorem writeWindow_grows {s0 s : State} (off) (v) (h : Grows s0 s) : Grows s0 (writeWindow off v s) := by
  unfold writeWindow
  try dsimp only
  split
  · exact Grows.put (by assumption) rfl
  · assumption

theorem indexWrite_grows {s0 s : State} {t} {block off value}
    (e : indexWrite block off value s = .next t) (h : Grows s0 s) : Grows s0 t := by
  unfold indexWrite at e
  try dsimp only at e
  injection e with e
  subst e
  split
  · exact writeIndex_grows _ _ _ (by assumption)
  · assumption

theorem execCmpTableLatch_grows {s0 s : State} {t} {value}
    (e : execCmpTableLatch value s = .next t) (h : Grows s0 s) : Grows s0 t := by
  unfold execCmpTableLatch at e
  try dsimp only at e
  exact indexWrite_grows e (by assumption)

theorem execFabPortLatch_grows {s0 s : State} {t} {value}
    (e : execFabPortLatch value s = .next t) (h : Grows s0 s) : Grows s0 t := by
  unfold execFabPortLatch at e
  try dsimp only at e
  exact indexWrite_grows e (by assumption)

theorem execFabWinLatch_grows {s0 s : State} {t} {value}
    (e : execFabWinLatch value s = .next t) (h : Grows s0 s) : Grows s0 t := by
  unfold execFabWinLatch at e
  try dsimp only at e
  exact indexWrite_grows e (by assumption)

theorem execHltAcctLatch_grows {s0 s : State} {t} {value}
    (e : execHltAcctLatch value s = .next t) (h : Grows s0 s) : Grows s0 t := by
  unfold execHltAcctLatch at e
  try dsimp only at e
  exact indexWrite_grows e (by assumption)

theorem execHltCoreLatch_grows {s0 s : State} {t} {value}
    (e : execHltCoreLatch value s = .next t) (h : Grows s0 s) : Grows s0 t := by
  unfold execHltCoreLatch at e
  try dsimp only at e
  exact indexWrite_grows e (by assumption)

theorem execPgmInspectLatch_grows {s0 s : State} {t} {value}
    (e : execPgmInspectLatch value s = .next t) (h : Grows s0 s) : Grows s0 t := by
  unfold execPgmInspectLatch at e
  try dsimp only at e
  exact indexWrite_grows e (by assumption)

theorem unmapped_grows {s0 s : State} (h : Grows s0 s) : Grows s0 (unmapped s) := by
  unfold unmapped
  try dsimp only
  exact raise_grows _ (bump_grows _ _ (by assumption))

theorem execSecKeyLatch_grows {s0 s : State} {t} {value}
    (e : execSecKeyLatch value s = .next t) (h : Grows s0 s) : Grows s0 t := by
  unfold execSecKeyLatch at e
  try dsimp only at e
  exact indexWrite_grows e (by assumption)

theorem execSlcInspectLatch_grows {s0 s : State} {t} {value}
    (e : execSlcInspectLatch value s = .next t) (h : Grows s0 s) : Grows s0 t := by
  unfold execSlcInspectLatch at e
  try dsimp only at e
  exact indexWrite_grows e (by assumption)

theorem execSqsInspectLatch_grows {s0 s : State} {t} {value}
    (e : execSqsInspectLatch value s = .next t) (h : Grows s0 s) : Grows s0 t := by
  unfold execSqsInspectLatch at e
  try dsimp only at e
  exact indexWrite_grows e (by assumption)

theorem execStwReportLatch_grows {s0 s : State} {t} {value}
    (e : execStwReportLatch value s = .next t) (h : Grows s0 s) : Grows s0 t := by
  unfold execStwReportLatch at e
  try dsimp only at e
  exact indexWrite_grows e (by assumption)

theorem execTirSegLatch_grows {s0 s : State} {t} {value}
    (e : execTirSegLatch value s = .next t) (h : Grows s0 s) : Grows s0 t := by
  unfold execTirSegLatch at e
  try dsimp only at e
  exact indexWrite_grows e (by assumption)

theorem execUnmappedAccess_grows {s0 s : State} {t} {addr}
    (e : execUnmappedAccess addr s = .next t) (h : Grows s0 s) : Grows s0 t := by
  unfold execUnmappedAccess at e
  try dsimp only at e
  injection e with e
  subst e
  split
  · exact unmapped_grows (by assumption)
  · assumption

theorem execWeiPolLatch_grows {s0 s : State} {t} {at_ value}
    (e : execWeiPolLatch at_ value s = .next t) (h : Grows s0 s) : Grows s0 t := by
  unfold execWeiPolLatch at e
  try dsimp only at e
  refine indexWrite_grows e ?_
  split
  · exact setNow_grows _ (by assumption)
  · assumption

theorem execWeiQLatch_grows {s0 s : State} {t} {value} (e : execWeiQLatch value s = .next t) (h : Grows s0 s) : Grows s0 t := by
  unfold execWeiQLatch at e
  try dsimp only at e
  exact indexWrite_grows e (by assumption)

end Sys2Proof.Machine
end

