-- ==== Sys2Proof/Laws/Items.lean ====
section
/-! SUPPORT. What the completion of an item does beside marking it leaves the list of items alone (R87, R95).
`f_items`: if `s` has the items of `s0`, so has what `f` makes of `s`. -/

namespace Sys2Proof.Safety

open Sys2Proof.Machine

/-- Two states have the same items, but for the pages that they hold (R117). -/
def SameItems (s0 s : State) : Prop := itemsOf s = itemsOf s0

theorem SameItems.refl (s : State) : SameItems s s := rfl

theorem SameItems.foldl {α : Type} {f : State → α → State} {s0 s : State} {l : List α}
    (hf : ∀ s a, SameItems s0 s → SameItems s0 (f s a)) (h : SameItems s0 s) : SameItems s0 (l.foldl f s) := by
  induction l generalizing s with
  | nil => exact h
  | cons a t ih => exact ih (hf s a h)

theorem SameItems.foldl_fst {α β : Type} {f : State × β → α → State × β} {s0 : State} {p : State × β} {l : List α}
    (hf : ∀ p a, SameItems s0 p.1 → SameItems s0 (f p a).1) (h : SameItems s0 p.1) : SameItems s0 (l.foldl f p).1 := by
  induction l generalizing p with
  | nil => exact h
  | cons a t ih => exact ih (hf p a h)

theorem SameItems.foldl_snd {α β : Type} {f : β × State → α → β × State} {s0 : State} {p : β × State} {l : List α}
    (hf : ∀ p a, SameItems s0 p.2 → SameItems s0 (f p a).2) (h : SameItems s0 p.2) : SameItems s0 (l.foldl f p).2 := by
  induction l generalizing p with
  | nil => exact h
  | cons a t ih => exact ih (hf p a h)

theorem SameItems.of_snd {α : Type} {s0 s : State} {p : α × State} {a : α} (e : p = (a, s)) (h : SameItems s0 p.2) : SameItems s0 s := by
  subst e; exact h

theorem SameItems.of_snd2 {α β : Type} {s0 s : State} {p : α × β × State} {a : α} {b : β} (e : p = (a, b, s))
    (h : SameItems s0 p.2.2) : SameItems s0 s := by
  subst e; exact h

theorem SameItems.of_fst {α : Type} {s0 s : State} {p : State × α} {a : α} (e : p = (s, a)) (h : SameItems s0 p.1) : SameItems s0 s := by
  subst e; exact h

theorem SameItems.put {s0 s : State} {tmu sqs slc pgm tir cmp car mdl fab wei hif sec hlt stw sup status counters mem free pending}
    (h : SameItems s0 s) (hi : car.items = s.car.items) :
    SameItems s0 ⟨tmu, sqs, slc, pgm, tir, cmp, car, mdl, fab, wei, hif, sec, hlt, stw, sup, status, counters, mem, free,
      pending⟩ := by
  unfold SameItems itemsOf at *
  dsimp only
  rw [hi]
  exact h

end Sys2Proof.Safety

namespace Sys2Proof.Machine

open Sys2Proof.Safety

theorem setStatus_items {s0 s : State} (a) (w) (h : SameItems s0 s) : SameItems s0 (setStatus a w s) := by
  unfold setStatus
  try dsimp only
  exact SameItems.put (by assumption) rfl

theorem msix_items {s0 s : State} (v) (h : SameItems s0 s) : SameItems s0 (msix v s) := by
  unfold msix
  try dsimp only
  exact SameItems.put (by assumption) rfl

theorem raiseAt_items {s0 s : State} (a) (bit) (h : SameItems s0 s) : SameItems s0 (raiseAt a bit s) := by
  unfold raiseAt
  try dsimp only
  split
  · exact setStatus_items _ _ (by assumption)
  · exact msix_items _ (setStatus_items _ _ (by assumption))

theorem raise_items {s0 s : State} (e_) (h : SameItems s0 s) : SameItems s0 (raise e_ s) := by
  unfold SameItems itemsOf at *
  rw [raise_car]; exact h

theorem counterEvent_items {s0 s : State} (sat) (block) (offset)
    (h : SameItems s0 s) : SameItems s0 (counterEvent sat block offset s) := by
  unfold counterEvent
  try dsimp only
  split
  · exact SameItems.put (by assumption) rfl
  · exact raise_items _ (SameItems.put (by assumption) rfl)

theorem bump_items {s0 s : State} (a n) (h : SameItems s0 s) : SameItems s0 (bump a n s) := by
  unfold SameItems itemsOf at *
  rw [bump_car]; exact h

theorem raiseTimes_items {s0 s : State} (e_) (x1) (h : SameItems s0 s) : SameItems s0 (raiseTimes e_ x1 s) := by
  induction x1 generalizing s with
  | zero => exact h
  | succ n ih => exact ih (raise_items _ h)

theorem wEvent_items {s0 s : State} (old) (new) (block) (offset)
    (h : SameItems s0 s) : SameItems s0 (wEvent old new block offset s) := by
  unfold wEvent
  try dsimp only
  split
  · exact counterEvent_items _ _ _ (by assumption)
  · assumption

theorem setAcct_items {s0 s : State} (d) (a) (h : SameItems s0 s) : SameItems s0 (setAcct d a s) := by
  unfold setAcct
  try dsimp only
  exact SameItems.put (by assumption) rfl

theorem charge_items {s0 s : State} (d) (k) (n) (h : SameItems s0 s) : SameItems s0 (charge d k n s) := by
  unfold charge
  try dsimp only
  exact wEvent_items _ _ _ _ (wEvent_items _ _ _ _ (setAcct_items _ _ (by assumption)))

theorem chargeSplit_items {s0 s : State} (k) (x) (dikes) (h : SameItems s0 s) : SameItems s0 (chargeSplit k x dikes s) := by
  unfold chargeSplit
  try dsimp only
  refine charge_items _ _ _ ?_
  refine SameItems.foldl (fun _ _ _ => ?_) ?_
  · exact charge_items _ _ _ (by assumption)
  · assumption

theorem rotate_items {s0 s : State} (die) (h : SameItems s0 s) : SameItems s0 (rotate die s).2.2 := by
  unfold rotate
  try dsimp only
  exact SameItems.put (by assumption) rfl

theorem setQueue_items {s0 s : State} (q) (w) (h : SameItems s0 s) : SameItems s0 (setQueue q w s) := by
  unfold setQueue
  try dsimp only
  exact SameItems.put (by assumption) rfl

theorem setActive_items {s0 s : State} (p) (l) (h : SameItems s0 s) : SameItems s0 (setActive p l s) := by
  unfold setActive
  try dsimp only
  exact SameItems.put (by assumption) rfl

theorem joinActive_items {s0 s : State} (q) (p) (h : SameItems s0 s) : SameItems s0 (joinActive q p s) := by
  unfold joinActive
  try dsimp only
  split
  · assumption
  · exact setActive_items _ _ (setQueue_items _ _ (by assumption))

theorem joinAll_items {s0 s : State} (q) (h : SameItems s0 s) : SameItems s0 (joinAll q s) := by
  unfold joinAll
  try dsimp only
  refine SameItems.foldl (fun _ _ _ => ?_) ?_
  · exact joinActive_items _ _ (by assumption)
  · assumption

theorem leaveAll_items {s0 s : State} (q) (h : SameItems s0 s) : SameItems s0 (leaveAll q s) := by
  unfold leaveAll
  try dsimp only
  refine SameItems.foldl (fun _ _ _ => ?_) ?_
  · exact setActive_items _ _ (by assumption)
  · assumption

theorem testQueue_items {s0 s : State} (q) (h : SameItems s0 s) : SameItems s0 (testQueue q s) := by
  unfold testQueue
  try dsimp only
  split
  · exact joinAll_items _ (setQueue_items _ _ (by assumption))
  · exact leaveAll_items _ (setQueue_items _ _ (by assumption))

theorem enqueue_items {s0 s : State} (q) (p) (f) (h : SameItems s0 s) : SameItems s0 (enqueue q p f s) := by
  unfold enqueue
  try dsimp only
  split
  · exact setQueue_items _ _ (by assumption)
  · split
    · exact testQueue_items _ (setQueue_items _ _ (by assumption))
    · split
      · split
        · exact joinActive_items _ _ (setQueue_items _ _ (by assumption))
        · exact setQueue_items _ _ (by assumption)
      · split
        · exact joinActive_items _ _ (setQueue_items _ _ (by assumption))
        · exact setQueue_items _ _ (by assumption)

theorem queuePacket_items {s0 s : State} (m) (i) (flags) (h : SameItems s0 s) : SameItems s0 (queuePacket m i flags s) := by
  unfold queuePacket
  try dsimp only
  exact enqueue_items _ _ _ (rotate_items _ (by assumption))

theorem startMsg_items {s0 s : State} (m) (h : SameItems s0 s) : SameItems s0 (startMsg m s) := by
  unfold startMsg
  try dsimp only
  refine SameItems.foldl (fun _ _ _ => ?_) ?_
  · exact queuePacket_items _ _ _ (by assumption)
  · exact SameItems.put (by assumption) rfl

theorem submitMsg_items {s0 s : State} (m) (h : SameItems s0 s) : SameItems s0 (submitMsg m s) := by
  unfold submitMsg
  try dsimp only
  split
  · exact startMsg_items _ (by assumption)
  · exact SameItems.put (by assumption) rfl

theorem freeBelow_items {s0 s : State} (n) (h : SameItems s0 s) : SameItems s0 (freeBelow n s).2 := by
  unfold freeBelow
  try dsimp only
  exact SameItems.put (by assumption) rfl

theorem freeOf_items {s0 s : State} (l) (d) (h : SameItems s0 s) : SameItems s0 (freeOf l d s).2 := by
  unfold freeOf
  try dsimp only
  exact freeBelow_items _ (by assumption)

theorem freeSlot_items {s0 s : State} (used) (n) (h : SameItems s0 s) : SameItems s0 (freeSlot used n s).2 := by
  unfold freeSlot
  try dsimp only
  exact freeBelow_items _ (by assumption)

theorem takeSeq_items {s0 s : State} (dest) (h : SameItems s0 s) : SameItems s0 (takeSeq dest s).2 := by
  unfold takeSeq
  try dsimp only
  exact SameItems.put (by assumption) rfl

theorem sendPieces_items {s0 s : State} (dest) (dike) (charged) (carried) (sseq) (pieces)
    (h : SameItems s0 s) : SameItems s0 (sendPieces dest dike charged carried sseq pieces s) := by
  unfold sendPieces
  try dsimp only
  split
  · exact SameItems.put (by assumption) rfl
  · exact submitMsg_items _ (takeSeq_items _ (SameItems.put (by assumption) rfl))

theorem sendMsg_items {s0 s : State} (dest) (dike) (carried) (sseq) (bytes)
    (h : SameItems s0 s) : SameItems s0 (sendMsg dest dike carried sseq bytes s) := by
  unfold sendMsg
  try dsimp only
  exact sendPieces_items _ _ _ _ _ _ (by assumption)

theorem takeSseq_items {s0 s : State} (h : SameItems s0 s) : SameItems s0 (takeSseq s).2 := by
  unfold takeSseq
  try dsimp only
  exact SameItems.put (by assumption) rfl

theorem updDesc_items {s0 s : State} (i) (f) (h : SameItems s0 s) : SameItems s0 (updDesc i f s) := by
  unfold updDesc
  try dsimp only
  exact SameItems.put (by assumption) rfl

theorem damageFound_items {s0 s : State} (code) (source) (h : SameItems s0 s) : SameItems s0 (damageFound code source s) := by
  unfold damageFound
  try dsimp only
  exact raise_items _ (bump_items _ _ (SameItems.put (by assumption) rfl))

theorem blockDamaged_items {s0 s : State} (cause) (source) (h : SameItems s0 s) : SameItems s0 (blockDamaged cause source s) := by
  unfold blockDamaged
  try dsimp only
  exact damageFound_items _ _ (by assumption)

theorem countBlocks_items {s0 s : State} (bs) (h : SameItems s0 s) : SameItems s0 (countBlocks bs s) := by
  unfold countBlocks
  try dsimp only
  exact SameItems.put (wEvent_items _ _ _ _ (wEvent_items _ _ _ _ (by assumption))) rfl

theorem takeLines_items {s0 s : State} (n) (h : SameItems s0 s) : SameItems s0 (takeLines n s).2 := by
  unfold takeLines
  try dsimp only
  exact freeSlot_items _ _ (by assumption)

theorem updSeq_items {s0 s : State} (slot) (f) (h : SameItems s0 s) : SameItems s0 (updSeq slot f s) := by
  unfold updSeq
  try dsimp only
  exact SameItems.put (by assumption) rfl

theorem updLayer_items {s0 s : State} (slot) (l) (f) (h : SameItems s0 s) : SameItems s0 (updLayer slot l f s) := by
  unfold updLayer
  try dsimp only
  exact updSeq_items _ _ (by assumption)

theorem fitLines_items {s0 s : State} (slot) (l) (h : SameItems s0 s) : SameItems s0 (fitLines slot l s) := by
  unfold fitLines
  try dsimp only
  split
  · assumption
  · split
    · exact updLayer_items _ _ _ (takeLines_items _ (by assumption))
    · exact updLayer_items _ _ _ (by assumption)

theorem decRef_items {s0 s : State} (i) (h : SameItems s0 s) : SameItems s0 (decRef i s) := by
  unfold decRef
  try dsimp only
  exact updDesc_items _ _ (by assumption)

theorem pushList_items {s0 s : State} (slot) (l) (i) (h : SameItems s0 s) : SameItems s0 (pushList slot l i s) := by
  unfold pushList
  try dsimp only
  split
  · assumption
  · split
    · exact updLayer_items _ _ _ (by assumption)
    · split
      · exact decRef_items _ (updLayer_items _ _ _ (by assumption))
      · exact updLayer_items _ _ _ (by assumption)

theorem pushPage_items {s0 s : State} (slot) (l) (i) (h : SameItems s0 s) : SameItems s0 (pushPage slot l i s) := by
  unfold pushPage
  try dsimp only
  exact fitLines_items _ _ (pushList_items _ _ _ (by assumption))

theorem openHopper_items {s0 s : State} (slot) (l) (i) (pos) (h : SameItems s0 s) : SameItems s0 (openHopper slot l i pos s) := by
  unfold openHopper
  try dsimp only
  exact pushPage_items _ _ _ (updDesc_items _ _ (by assumption))

theorem ensureHopper_items {s0 s : State} {t} {slot l pos}
    (e : ensureHopper slot l pos s = some t) (h : SameItems s0 s) : SameItems s0 t := by
  unfold ensureHopper at e
  try dsimp only at e
  split at e
  · cases e
  · split at e
    · injection e with e
      subst e
      assumption
    · split at e
      · injection e with e
        subst e
        exact openHopper_items _ _ _ _ (updLayer_items _ _ _ (by assumption))
      · injection e with e
        subst e
        exact openHopper_items _ _ _ _ (updLayer_items _ _ _ (by assumption))
      · cases e

theorem copyHopper_items {s0 s : State} (slot) (l) (pos) (i) (d) (h : SameItems s0 s) : SameItems s0 (copyHopper slot l pos i d s) := by
  unfold copyHopper
  try dsimp only
  split
  · assumption
  · split
    · assumption
    · refine bump_items _ _ ?_
      refine charge_items _ _ _ ?_
      refine charge_items _ _ _ ?_
      refine updLayer_items _ _ _ ?_
      refine decRef_items _ ?_
      refine updDesc_items _ _ ?_
      split
      · exact updLayer_items _ _ _ (by assumption)
      · exact updDesc_items _ _ (updLayer_items _ _ _ (by assumption))

theorem copyIfShared_items {s0 s : State} (slot) (l) (pos) (h : SameItems s0 s) : SameItems s0 (copyIfShared slot l pos s) := by
  unfold copyIfShared
  try dsimp only
  split
  · assumption
  · split
    · exact copyHopper_items _ _ _ _ _ (by assumption)
    · assumption

theorem drawCredit_items {s0 s : State} (slot) (l) (h : SameItems s0 s) : SameItems s0 (drawCredit slot l s) := by
  unfold drawCredit
  try dsimp only
  exact updLayer_items _ _ _ (by assumption)

theorem startSeal_items {s0 s : State} (slot) (l) (i) (step) (h : SameItems s0 s) : SameItems s0 (startSeal slot l i step s) := by
  unfold startSeal
  try dsimp only
  split
  · assumption
  · exact updDesc_items _ _ (drawCredit_items _ _ (by assumption))

theorem appendRow_items {s0 s : State} {t} {slot l pos step k v}
    (e : appendRow slot l pos step k v s = some t) (h : SameItems s0 s) : SameItems s0 t := by
  unfold appendRow at e
  try dsimp only at e
  split at e
  · cases e
  · split at e
    · cases e
    · split at e
      · injection e with e
        subst e
        exact updDesc_items _ _ (ensureHopper_items (by assumption) (copyIfShared_items _ _ _ (by assumption)))
      · split at e
        · injection e with e
          subst e
          exact startSeal_items _ _ _ _ (updDesc_items _ _ (ensureHopper_items (by assumption) (copyIfShared_items _ _ _
            (by assumption))))
        · injection e with e
          subst e
          exact openHopper_items _ _ _ _ (updLayer_items _ _ _ (startSeal_items _ _ _ _ (updDesc_items _ _
            (ensureHopper_items (by assumption) (copyIfShared_items _ _ _ (by assumption))))))

theorem appendRows_items {s0 x5 : State} {t} {slot l step x3 x4}
    (e : appendRows slot l step x3 x4 x5 = some t) (h : SameItems s0 x5) : SameItems s0 t := by
  induction x4 generalizing x3 x5 with
  | nil =>
    unfold appendRows at e
    try dsimp only at e
    injection e with e
    subst e
    assumption
  | cons a l ih =>
    unfold appendRows at e
    try dsimp only at e
    split at e
    · cases e
    · exact ih e (appendRow_items (by assumption) (by assumption))

theorem liftHopper_items {s0 s : State} (slot) (l) (h : SameItems s0 s) : SameItems s0 (liftHopper slot l s).2 := by
  unfold liftHopper
  try dsimp only
  split
  · split
    · dsimp only
      exact updLayer_items _ _ _ (by assumption)
    · dsimp only
      assumption
  · dsimp only
    assumption

theorem newDesc_items {s0 s : State} (d) (h : SameItems s0 s) : SameItems s0 (newDesc d s).2 := by
  unfold newDesc
  try dsimp only
  split
  · dsimp only
    exact freeSlot_items _ _ (by assumption)
  · dsimp only
    exact SameItems.put (freeSlot_items _ _ (by assumption)) rfl

theorem stagedPage_items {s0 s : State} (slot) (l) (pos) (step) (rows)
    (h : SameItems s0 s) : SameItems s0 (stagedPage slot l pos step rows s) := by
  unfold stagedPage
  try dsimp only
  split
  · assumption
  · split
    · exact newDesc_items _ (by assumption)
    · exact pushPage_items _ _ _ (drawCredit_items _ _ (newDesc_items _ (by assumption)))

theorem stagedPages_items {s0 x7 : State} (slot) (l) (step) (size) (x4) (x5) (x6) (h : SameItems s0 x7) :
    SameItems s0 (stagedPages slot l step size x4 x5 x6 x7).2.2 := by
  induction x4 generalizing x5 x6 x7 with
  | zero => exact h
  | succ n ih =>
    unfold stagedPages
    split
    · exact ih _ _ (stagedPage_items _ _ _ _ _ h)
    · exact h

theorem appendStaged_items {s0 s : State} {t} {slot l first step rows}
    (e : appendStaged slot l first step rows s = some t) (h : SameItems s0 s) : SameItems s0 t := by
  unfold appendStaged at e
  try dsimp only at e
  split at e
  · cases e
  · refine appendRows_items e ?_
    split
    · exact openHopper_items _ _ _ _ (stagedPages_items _ _ _ _ _ _ _ (liftHopper_items _ _ (appendRows_items
        (by assumption) (by assumption))))
    · exact stagedPages_items _ _ _ _ _ _ _ (liftHopper_items _ _ (appendRows_items (by assumption) (by assumption)))

theorem removePrefix_items {s0 s : State} (k) (h : SameItems s0 s) : SameItems s0 (removePrefix k s) := by
  unfold removePrefix
  try dsimp only
  split
  · assumption
  · refine SameItems.foldl (fun _ _ _ => ?_) ?_
    · exact decRef_items _ (updDesc_items _ _ (by assumption))
    · exact SameItems.put (by assumption) rfl

theorem incRef_items {s0 s : State} (i) (h : SameItems s0 s) : SameItems s0 (incRef i s) := by
  unfold incRef
  try dsimp only
  exact updDesc_items _ _ (by assumption)

theorem noteElems_items {s0 s : State} (es) (h : SameItems s0 s) : SameItems s0 (noteElems es s) := by
  unfold noteElems
  try dsimp only
  exact bump_items _ _ (raiseTimes_items _ _ (bump_items _ _ (raiseTimes_items _ _ (by assumption))))

theorem updOwned_items {s0 s : State} (slot) (f) (h : SameItems s0 s) : SameItems s0 (updOwned slot f s) := by
  unfold updOwned
  try dsimp only
  exact SameItems.put (by assumption) rfl

theorem addWait_items {s0 s : State} (p) (h : SameItems s0 s) : SameItems s0 (addWait p s) := by
  unfold addWait
  try dsimp only
  exact SameItems.put (by assumption) rfl

theorem setRec_items {s0 s : State} (slot) (r) (h : SameItems s0 s) : SameItems s0 (setRec slot r s) := by
  unfold setRec
  try dsimp only
  exact updSeq_items _ _ (SameItems.put (by assumption) rfl)

theorem resumeWait_items {s0 s : State} (slot) (e_) (h : SameItems s0 s) : SameItems s0 (resumeWait slot e_ s) := by
  unfold resumeWait
  try dsimp only
  split
  · assumption
  · exact addWait_items _ (by assumption)

theorem sendSlu_items {s0 s : State} (dest) (h_) (body) (h : SameItems s0 s) : SameItems s0 (sendSlu dest h_ body s) := by
  unfold sendSlu
  try dsimp only
  exact sendMsg_items _ _ _ _ _ (takeSseq_items (by assumption))

theorem sendState_items {s0 s : State} (dest) (h_) (mid) (r) (h : SameItems s0 s) : SameItems s0 (sendState dest h_ mid r s) := by
  unfold sendState
  try dsimp only
  refine SameItems.foldl (fun _ _ _ => ?_) ?_
  · exact sendSlu_items _ _ _ (by assumption)
  · assumption

theorem forwardTail_items {s0 s : State} (slot) (h : SameItems s0 s) : SameItems s0 (forwardTail slot s) := by
  unfold forwardTail
  try dsimp only
  split
  · split
    · split
      · assumption
      · exact sendState_items _ _ _ _ (setRec_items _ _ (by assumption))
    · assumption
  · assumption

theorem sendReject_items {s0 s : State} (dest) (h_) (h : SameItems s0 s) : SameItems s0 (sendReject dest h_ s) := by
  unfold sendReject
  try dsimp only
  exact sendSlu_items _ _ _ (by assumption)

theorem refuseStale_items {s0 s : State} (source) (h_) (h : SameItems s0 s) : SameItems s0 (refuseStale source h_ s) := by
  unfold refuseStale
  try dsimp only
  exact sendReject_items _ _ (raise_items _ (bump_items _ _ (by assumption)))

theorem ownerSend_items {s0 s : State} (slot) (kind) (flags) (body)
    (h : SameItems s0 s) : SameItems s0 (ownerSend slot kind flags body s) := by
  unfold ownerSend
  try dsimp only
  split
  · exact sendSlu_items _ _ _ (updOwned_items _ _ (by assumption))
  · assumption

theorem sendTail_items {s0 s : State} (slot) (pos) (token) (h : SameItems s0 s) : SameItems s0 (sendTail slot pos token s) := by
  unfold sendTail
  try dsimp only
  split
  · exact ownerSend_items _ _ _ _ (sendState_items _ _ _ _ (by assumption))
  · assumption

theorem ownerToken_items {s0 s : State} (slot) (token) (h : SameItems s0 s) : SameItems s0 (ownerToken slot token s) := by
  unfold ownerToken
  try dsimp only
  split
  · split
    · split
      · exact updOwned_items _ _ (sendTail_items _ _ _ (ownerSend_items _ _ _ _ (updOwned_items _ _ (updSeq_items _ _
          (by assumption)))))
      · exact ownerSend_items _ _ _ _ (updOwned_items _ _ (updSeq_items _ _ (by assumption)))
    · split
      · split
        · exact updOwned_items _ _ (sendTail_items _ _ _ (ownerSend_items _ _ _ _ (updOwned_items _ _ (updSeq_items _ _
            (by assumption)))))
        · exact ownerSend_items _ _ _ _ (updOwned_items _ _ (updSeq_items _ _ (by assumption)))
      · split
        · exact updOwned_items _ _ (sendTail_items _ _ _ (ownerSend_items _ _ _ _ (updOwned_items _ _ (updSeq_items _ _
            (by assumption)))))
        · exact ownerSend_items _ _ _ _ (updOwned_items _ _ (updSeq_items _ _ (by assumption)))
  · assumption

theorem setCoding_items {s0 s : State} (i) (c) (h : SameItems s0 s) : SameItems s0 (setCoding i c s) := by
  unfold setCoding
  try dsimp only
  exact SameItems.put (by assumption) rfl

theorem sendFrag_items {s0 s : State} (dest) (i) (f) (h_) (h : SameItems s0 s) : SameItems s0 (sendFrag dest i f h_ s) := by
  unfold sendFrag
  try dsimp only
  exact sendPieces_items _ _ _ _ _ _ (by assumption)

theorem chargeTier_items {s0 s : State} (x) (d) (n) (h : SameItems s0 s) : SameItems s0 (chargeTier x d n s) := by
  unfold chargeTier
  split
  · exact charge_items _ _ _ (by assumption)
  · exact charge_items _ _ _ (by assumption)
  · assumption

theorem startRebuild_items {s0 s : State} (i) (c) (h : SameItems s0 s) : SameItems s0 (startRebuild i c s) := by
  unfold startRebuild
  try dsimp only
  refine SameItems.foldl (fun _ _ _ => ?_) ?_
  · split
    · split
      · exact chargeTier_items _ _ _ (setCoding_items _ _ (by assumption))
      · assumption
    · split
      · assumption
      · exact sendFrag_items _ _ _ _ (by assumption)
  · exact setCoding_items _ _ (by assumption)

theorem losePage_items {s0 s : State} (i) (h : SameItems s0 s) : SameItems s0 (losePage i s) := by
  unfold losePage
  try dsimp only
  refine SameItems.foldl (fun _ _ _ => ?_) ?_
  · exact resumeWait_items _ _ (by assumption)
  · refine SameItems.foldl (fun _ _ _ => ?_) ?_
    · exact removePrefix_items _ (by assumption)
    · exact updDesc_items _ _ (by assumption)

theorem damagePage_items {s0 s : State} (i) (h : SameItems s0 s) : SameItems s0 (damagePage i s) := by
  unfold damagePage
  try dsimp only
  split
  · assumption
  · split
    · assumption
    · split
      · split
        · exact startRebuild_items _ _ (updDesc_items _ _ (by assumption))
        · exact losePage_items _ (by assumption)
      · exact losePage_items _ (by assumption)

theorem sendRing_items {s0 s : State} (dest) (e_) (kind) (layer) (tokens) (firstPos) (payload)
    (h : SameItems s0 s) : SameItems s0 (sendRing dest e_ kind layer tokens firstPos payload s) := by
  unfold sendRing
  try dsimp only
  exact sendMsg_items _ _ _ _ _ (by assumption)

theorem sendRecord_items {s0 s : State} (dest) (e_) (layer) (sts)
    (h : SameItems s0 s) : SameItems s0 (sendRecord dest e_ layer sts s) := by
  unfold sendRecord
  try dsimp only
  exact sendRing_items _ _ _ _ _ _ _ (by assumption)

theorem staleRow_items {s0 s : State} (e_) (r) (h : SameItems s0 s) : SameItems s0 (staleRow e_ r s) := by
  unfold staleRow
  try dsimp only
  exact refuseStale_items _ _ (raise_items _ (bump_items _ _ (SameItems.put (by assumption) rfl)))

theorem updRow_items {s0 s : State} (handle) (layer) (pos) (f) (h : SameItems s0 s) : SameItems s0 (updRow handle layer pos f s) := by
  unfold updRow
  try dsimp only
  exact SameItems.put (by assumption) rfl

theorem retireRows_items {s0 s : State} (slot) (e_) (layer) (ps)
    (h : SameItems s0 s) : SameItems s0 (retireRows slot e_ layer ps s) := by
  unfold retireRows
  try dsimp only
  split
  · assumption
  · split
    · exact SameItems.put (by assumption) rfl
    · exact updSeq_items _ _ (SameItems.put (by assumption) rfl)

theorem placeStaged_items {s0 s : State} (slot) (e_) (c) (layer)
    (h : SameItems s0 s) : SameItems s0 (placeStaged slot e_ c layer s) := by
  unfold placeStaged
  try dsimp only
  split
  · assumption
  · split
    · assumption
    · split
      · refine SameItems.foldl (fun _ _ _ => ?_) ?_
        · exact staleRow_items _ _ (by assumption)
        · assumption
      · split
        · assumption
        · refine forwardTail_items _ ?_
          refine SameItems.foldl (fun _ _ _ => ?_) ?_
          · exact retireRows_items _ _ _ _ (by assumption)
          · refine SameItems.foldl (fun _ _ _ => ?_) ?_
            · exact updRow_items _ _ _ _ (by assumption)
            · exact appendStaged_items (by assumption) (by assumption)

theorem giveOutputs_items {s0 s : State} (c) (i) (byHead) (h : SameItems s0 s) : SameItems s0 (giveOutputs c i byHead s) := by
  unfold giveOutputs
  try dsimp only
  refine SameItems.foldl (fun _ _ _ => ?_) ?_
  · exact updRow_items _ _ _ _ (noteElems_items _ (bump_items _ _ (raiseTimes_items _ _ (by assumption))))
  · assumption

theorem finishUnit_items {s0 s : State} (slot) (e_) (c) (i) (h : SameItems s0 s) : SameItems s0 (finishUnit slot e_ c i s) := by
  unfold finishUnit
  try dsimp only
  split
  · split
    · assumption
    · refine SameItems.put ?_ rfl
      split
      · exact sendRecord_items _ _ _ _ (by assumption)
      · exact sendRecord_items _ _ _ _ (sendRing_items _ _ _ _ _ _ _ (by assumption))
  · split
    · split
      · assumption
      · exact sendRecord_items _ _ _ _ (sendRing_items _ _ _ _ _ _ _ (by assumption))
    · exact placeStaged_items _ _ _ _ (giveOutputs_items _ _ _ (by assumption))

theorem afterAttention_items {s0 s : State} (slot) (e_) (c) (i) (h : SameItems s0 s) : SameItems s0 (afterAttention slot e_ c i s) := by
  unfold afterAttention
  try dsimp only
  split
  · exact finishUnit_items _ _ _ _ (by assumption)
  · assumption

theorem chargeItem_items {s0 s : State} (i) (u) (h : SameItems s0 s) : SameItems s0 (chargeItem i u s) := by
  unfold chargeItem
  try dsimp only
  refine SameItems.foldl (fun _ _ _ => ?_) ?_
  · split
    · assumption
    · exact chargeSplit_items _ _ _ (by assumption)
  · assumption

theorem noteLogits_items {s0 s : State} (logits) (h : SameItems s0 s) : SameItems s0 (noteLogits logits s) := by
  unfold noteLogits
  try dsimp only
  split
  · exact bump_items _ _ (raise_items _ (by assumption))
  · assumption

theorem sampleItem_items {s0 s : State} (slot) (e_) (i) (h : SameItems s0 s) : SameItems s0 (sampleItem slot e_ i s) := by
  unfold sampleItem
  try dsimp only
  split
  · split
    · assumption
    · exact ownerToken_items _ _ (noteLogits_items _ (SameItems.put (by assumption) rfl))
  · assumption

theorem projectBatch_items {s0 s : State} (c) (l) (i) (m) (slice)
    (h : SameItems s0 s) : SameItems s0 (projectBatch c l i m slice s) := by
  unfold projectBatch
  try dsimp only
  refine SameItems.foldl (fun _ _ _ => ?_) ?_
  · split
    · assumption
    · exact noteElems_items _ (updRow_items _ _ _ _ (by assumption))
  · assumption

theorem sendOutput_items {s0 s : State} (e_) (rows) (h : SameItems s0 s) : SameItems s0 (sendOutput e_ rows s) := by
  unfold sendOutput
  try dsimp only
  split
  · exact sendPieces_items _ _ _ _ _ _ (countBlocks_items _ (takeSseq_items (by assumption)))
  · assumption

theorem returnRows_items {s0 s : State} (slot) (e_) (c) (layer) (ps)
    (h : SameItems s0 s) : SameItems s0 (returnRows slot e_ c layer ps s) := by
  unfold returnRows
  try dsimp only
  split
  · assumption
  · refine retireRows_items _ _ _ _ ?_
    refine SameItems.foldl (fun _ _ _ => ?_) ?_
    · exact updRow_items _ _ _ _ (by assumption)
    · exact sendOutput_items _ _ (by assumption)

theorem returnBatch_items {s0 s : State} (c) (i) (h : SameItems s0 s) : SameItems s0 (returnBatch c i s) := by
  unfold returnBatch
  try dsimp only
  refine SameItems.foldl (fun _ _ _ => ?_) ?_
  · split
    · assumption
    · split
      · assumption
      · split
        · exact returnRows_items _ _ _ _ _ (by assumption)
        · refine SameItems.foldl (fun _ _ _ => ?_) ?_
          · exact returnRows_items _ _ _ _ _ (by assumption)
          · assumption
  · assumption

theorem noteStage_items {s0 s : State} (c) (context) (layer) (h : SameItems s0 s) : SameItems s0 (noteStage c context layer s) := by
  unfold noteStage
  try dsimp only
  exact SameItems.put (by assumption) rfl

theorem sendProbes_items {s0 s : State} (e_) (r) (h : SameItems s0 s) : SameItems s0 (sendProbes e_ r s) := by
  unfold sendProbes
  try dsimp only
  split
  · refine SameItems.foldl (fun _ _ _ => ?_) ?_
    · exact sendRing_items _ _ _ _ _ _ _ (by assumption)
    · assumption
  · assumption

theorem placeDecode_items {s0 s : State} (slot) (e_) (c) (r) (h : SameItems s0 s) : SameItems s0 (placeDecode slot e_ c r s) := by
  unfold placeDecode
  try dsimp only
  split
  · assumption
  · split
    · exact staleRow_items _ _ (by assumption)
    · split
      · assumption
      · exact forwardTail_items _ (updRow_items _ _ _ _ (appendRow_items (by assumption) (by assumption)))

theorem rotaryDone_items {s0 s : State} (slot) (e_) (c) (i) (h : SameItems s0 s) : SameItems s0 (rotaryDone slot e_ c i s) := by
  unfold rotaryDone
  try dsimp only
  split
  · assumption
  · split
    · exact noteStage_items _ _ _ (noteElems_items _ (noteElems_items _ (updRow_items _ _ _ _ (by assumption))))
    · exact sendProbes_items _ _ (placeDecode_items _ _ _ _ (noteElems_items _ (noteElems_items _ (updRow_items _ _ _ _
        (by assumption)))))

theorem setRun_items {s0 s : State} (i) (run) (sts) (h : SameItems s0 s) : SameItems s0 (setRun i run sts s) := by
  unfold setRun
  try dsimp only
  exact SameItems.put (by assumption) rfl

theorem mergeItem_items {s0 s : State} (slot) (e_) (c) (i) (h : SameItems s0 s) : SameItems s0 (mergeItem slot e_ c i s) := by
  unfold mergeItem
  try dsimp only
  exact afterAttention_items _ _ _ _ (setRun_items _ _ _ (by assumption))

theorem holdPage_items {s0 s : State} (e_) (i) (h : SameItems s0 s) : SameItems s0 (holdPage e_ i s) := by
  unfold holdPage
  split
  · exact h
  · refine incRef_items _ (Eq.trans ?_ h)
    unfold itemsOf
    rw [List.map_map]
    refine List.map_congr_left (fun j _ => ?_)
    dsimp only [Function.comp]
    split <;> rfl

theorem foldItem_items {s0 s : State} (slot) (e_) (c) (l) (i) (mark)
    (Hmark : ∀ a0, SameItems s0 a0 → SameItems s0 (mark a0)) (h : SameItems s0 s) : SameItems s0 (foldItem slot e_ c l i mark s) := by
  unfold foldItem
  try dsimp only
  split
  · exact damagePage_items _ (blockDamaged_items _ _ (by assumption))
  · refine afterAttention_items _ _ _ _ ?_
    split
    · refine SameItems.put ?_ rfl
      refine bump_items _ _ ?_
      refine raiseTimes_items _ _ ?_
      refine bump_items _ _ ?_
      refine raiseTimes_items _ _ ?_
      refine setRun_items _ _ _ ?_
      refine holdPage_items _ _ ?_
      apply Hmark
      assumption
    · refine bump_items _ _ ?_
      refine raiseTimes_items _ _ ?_
      refine bump_items _ _ ?_
      refine raiseTimes_items _ _ ?_
      refine setRun_items _ _ _ ?_
      refine holdPage_items _ _ ?_
      apply Hmark
      assumption

theorem swapCluster_items {s0 s : State} (k) (h : SameItems s0 s) : SameItems s0 (swapCluster k s) := by
  unfold swapCluster
  try dsimp only
  split
  · split
    · assumption
    · exact SameItems.put (freeOf_items _ _ (by assumption)) rfl
  · split
    · assumption
    · exact SameItems.put (freeOf_items _ _ (by assumption)) rfl

theorem swapCheck_items {s0 s : State} (h : SameItems s0 s) : SameItems s0 (swapCheck s) := by
  unfold swapCheck
  try dsimp only
  refine SameItems.foldl (fun _ _ _ => ?_) ?_
  · exact swapCluster_items _ (by assumption)
  · assumption

end Sys2Proof.Machine
end

