-- ==== Sys2Proof/Laws/PartsPages.lean ====
section
/-! SUPPORT. Which parts of the state each operation may change (Safety.Only): pages, admission, models and the build.
`f_only`: what `f` makes of a state differs from it in the parts listed alone. -/

namespace Sys2Proof.Machine

open Sys2Proof.Safety

theorem takeLines_only {pts} {s0 s : State} (hp : within [.free] pts = true) (n) (h : Only pts s0 s) : Only pts s0
    (takeLines n s).2 := by
  unfold takeLines
  try dsimp only
  exact freeSlot_only (within_trans rfl hp) _ _ (by assumption)

theorem updSeq_only {pts} {s0 s : State} (hp : within [.sqs] pts = true) (slot) (f) (h : Only pts s0 s) :
    Only pts s0 (updSeq slot f s) := by
  unfold updSeq
  try dsimp only
  exact Only.put [.sqs] (within_trans rfl hp) (by assumption) rfl

theorem updLayer_only {pts} {s0 s : State} (hp : within [.sqs] pts = true) (slot) (l) (f) (h : Only pts s0 s) :
    Only pts s0 (updLayer slot l f s) := by
  unfold updLayer
  try dsimp only
  exact updSeq_only (within_trans rfl hp) _ _ (by assumption)

theorem fitLines_only {pts} {s0 s : State} (hp : within [.sqs, .free] pts = true) (slot) (l) (h :
    Only pts s0 s) : Only pts s0 (fitLines slot l s) := by
  unfold fitLines
  try dsimp only
  split
  · assumption
  · split
    · exact updLayer_only (within_trans rfl hp) _ _ _ (takeLines_only (within_trans rfl hp) _ (by assumption))
    · exact updLayer_only (within_trans rfl hp) _ _ _ (by assumption)

theorem decRef_only {pts} {s0 s : State} (hp : within [.pgm] pts = true) (i) (h : Only pts s0 s) : Only pts s0
    (decRef i s) := by
  unfold decRef
  try dsimp only
  exact updDesc_only (within_trans rfl hp) _ _ (by assumption)

theorem pushList_only {pts} {s0 s : State} (hp : within [.sqs, .pgm] pts = true) (slot) (l) (i) (h :
    Only pts s0 s) : Only pts s0 (pushList slot l i s) := by
  unfold pushList
  try dsimp only
  split
  · assumption
  · split
    · exact updLayer_only (within_trans rfl hp) _ _ _ (by assumption)
    · split
      · exact decRef_only (within_trans rfl hp) _ (updLayer_only (within_trans rfl hp) _ _ _ (by assumption))
      · exact updLayer_only (within_trans rfl hp) _ _ _ (by assumption)

theorem pushPage_only {pts} {s0 s : State} (hp : within [.sqs, .pgm, .free] pts = true) (slot) (l) (i) (h :
    Only pts s0 s) : Only pts s0 (pushPage slot l i s) := by
  unfold pushPage
  try dsimp only
  exact fitLines_only (within_trans rfl hp) _ _ (pushList_only (within_trans rfl hp) _ _ _ (by assumption))

theorem openHopper_only {pts} {s0 s : State} (hp : within [.sqs, .pgm, .free] pts = true) (slot) (l) (i) (pos)
    (h : Only pts s0 s) : Only pts s0 (openHopper slot l i pos s) := by
  unfold openHopper
  try dsimp only
  exact pushPage_only (within_trans rfl hp) _ _ _ (updDesc_only (within_trans rfl hp) _ _ (by assumption))

theorem ensureHopper_only {pts} {s0 s : State} {t} (hp : within [.sqs, .pgm, .free] pts = true) {slot l pos}
    (e : ensureHopper slot l pos s = some t) (h : Only pts s0 s) : Only pts s0 t := by
  unfold ensureHopper at e
  try dsimp only at e
  split at e
  · cases e
  · split at e
    · injection e with e
      subst e
      assumption
    · split at e
      · injection e with e
        subst e
        exact openHopper_only (within_trans rfl hp) _ _ _ _ (updLayer_only (within_trans rfl hp) _ _ _
          (by assumption))
      · injection e with e
        subst e
        exact openHopper_only (within_trans rfl hp) _ _ _ _ (updLayer_only (within_trans rfl hp) _ _ _
          (by assumption))
      · cases e

theorem copyHopper_only {pts} {s0 s : State} (hp : within [.sqs, .pgm, .hif, .hlt, .status, .counters] pts = true)
    (slot) (l) (pos) (i) (d) (h : Only pts s0 s) : Only pts s0 (copyHopper slot l pos i d s) := by
  unfold copyHopper
  try dsimp only
  split
  · assumption
  · split
    · assumption
    · refine bump_only (within_trans rfl hp) _ _ ?_
      refine charge_only (within_trans rfl hp) _ _ _ ?_
      refine charge_only (within_trans rfl hp) _ _ _ ?_
      refine updLayer_only (within_trans rfl hp) _ _ _ ?_
      refine decRef_only (within_trans rfl hp) _ ?_
      refine updDesc_only (within_trans rfl hp) _ _ ?_
      split
      · exact updLayer_only (within_trans rfl hp) _ _ _ (by assumption)
      · exact updDesc_only (within_trans rfl hp) _ _ (updLayer_only (within_trans rfl hp) _ _ _ (by assumption))

theorem copyIfShared_only {pts} {s0 s : State} (hp : within [.sqs, .pgm, .hif, .hlt, .status, .counters] pts = true)
    (slot) (l) (pos) (h : Only pts s0 s) : Only pts s0 (copyIfShared slot l pos s) := by
  unfold copyIfShared
  try dsimp only
  split
  · assumption
  · split
    · exact copyHopper_only (within_trans rfl hp) _ _ _ _ _ (by assumption)
    · assumption

theorem drawCredit_only {pts} {s0 s : State} (hp : within [.sqs] pts = true) (slot) (l) (h : Only pts s0 s) :
    Only pts s0 (drawCredit slot l s) := by
  unfold drawCredit
  try dsimp only
  exact updLayer_only (within_trans rfl hp) _ _ _ (by assumption)

theorem startSeal_only {pts} {s0 s : State} (hp : within [.sqs, .pgm] pts = true) (slot) (l) (i) (step) (h :
    Only pts s0 s) : Only pts s0 (startSeal slot l i step s) := by
  unfold startSeal
  try dsimp only
  split
  · assumption
  · exact updDesc_only (within_trans rfl hp) _ _ (drawCredit_only (within_trans rfl hp) _ _ (by assumption))

theorem appendRow_only {pts} {s0 s : State} {t}
    (hp : within [.sqs, .pgm, .hif, .hlt, .status, .counters, .free] pts = true) {slot l pos step k v}
    (e : appendRow slot l pos step k v s = some t) (h : Only pts s0 s) : Only pts s0 t := by
  unfold appendRow at e
  try dsimp only at e
  split at e
  · cases e
  · split at e
    · cases e
    · split at e
      · injection e with e
        subst e
        exact updDesc_only (within_trans rfl hp) _ _ (ensureHopper_only (within_trans rfl hp) (by assumption)
          (copyIfShared_only (within_trans rfl hp) _ _ _ (by assumption)))
      · split at e
        · injection e with e
          subst e
          exact startSeal_only (within_trans rfl hp) _ _ _ _ (updDesc_only (within_trans rfl hp) _ _
            (ensureHopper_only (within_trans rfl hp) (by assumption) (copyIfShared_only (within_trans rfl hp) _ _ _
            (by assumption))))
        · injection e with e
          subst e
          exact openHopper_only (within_trans rfl hp) _ _ _ _ (updLayer_only (within_trans rfl hp) _ _ _
            (startSeal_only (within_trans rfl hp) _ _ _ _ (updDesc_only (within_trans rfl hp) _ _ (ensureHopper_only
            (within_trans rfl hp) (by assumption) (copyIfShared_only (within_trans rfl hp) _ _ _ (by assumption))))))

theorem appendRows_only {pts} {s0 x5 : State} {t}
    (hp : within [.sqs, .pgm, .hif, .hlt, .status, .counters, .free] pts = true) {slot l step x3 x4}
    (e : appendRows slot l step x3 x4 x5 = some t) (h : Only pts s0 x5) : Only pts s0 t := by
  induction x4 generalizing x3 x5 with
  | nil =>
    unfold appendRows at e
    try dsimp only at e
    injection e with e
    subst e
    assumption
  | cons a l ih =>
    unfold appendRows at e
    try dsimp only at e
    split at e
    · cases e
    · exact ih e (appendRow_only (within_trans rfl hp) (by assumption) (by assumption))

theorem liftHopper_only {pts} {s0 s : State} (hp : within [.sqs] pts = true) (slot) (l) (h : Only pts s0 s) :
    Only pts s0 (liftHopper slot l s).2 := by
  unfold liftHopper
  try dsimp only
  split
  · split
    · dsimp only
      exact updLayer_only (within_trans rfl hp) _ _ _ (by assumption)
    · dsimp only
      assumption
  · dsimp only
    assumption

theorem newDesc_only {pts} {s0 s : State} (hp : within [.pgm, .free] pts = true) (d) (h : Only pts s0 s) :
    Only pts s0 (newDesc d s).2 := by
  unfold newDesc
  try dsimp only
  split
  · dsimp only
    exact freeSlot_only (within_trans rfl hp) _ _ (by assumption)
  · dsimp only
    exact Only.put [.pgm] (within_trans rfl hp) (freeSlot_only (within_trans rfl hp) _ _ (by assumption)) rfl

theorem stagedPage_only {pts} {s0 s : State} (hp : within [.sqs, .pgm, .free] pts = true) (slot) (l) (pos) (step)
    (rows) (h : Only pts s0 s) : Only pts s0 (stagedPage slot l pos step rows s) := by
  unfold stagedPage
  try dsimp only
  split
  · assumption
  · split
    · exact newDesc_only (within_trans rfl hp) _ (by assumption)
    · exact pushPage_only (within_trans rfl hp) _ _ _ (drawCredit_only (within_trans rfl hp) _ _ (newDesc_only
        (within_trans rfl hp) _ (by assumption)))

theorem stagedPages_only {pts} {s0 x7 : State} (hp : within [.sqs, .pgm, .free] pts = true) (slot) (l) (step) (size)
    (x4) (x5) (x6) (h : Only pts s0 x7) :
    Only pts s0 (stagedPages slot l step size x4 x5 x6 x7).2.2 := by
  induction x4 generalizing x5 x6 x7 with
  | zero => exact h
  | succ n ih =>
    unfold stagedPages
    split
    · exact ih _ _ (stagedPage_only (within_trans rfl hp) _ _ _ _ _ h)
    · exact h

theorem appendStaged_only {pts} {s0 s : State} {t}
    (hp : within [.sqs, .pgm, .hif, .hlt, .status, .counters, .free] pts = true) {slot l first step rows}
    (e : appendStaged slot l first step rows s = some t) (h : Only pts s0 s) : Only pts s0 t := by
  unfold appendStaged at e
  try dsimp only at e
  split at e
  · cases e
  · refine appendRows_only (within_trans rfl hp) e ?_
    split
    · exact openHopper_only (within_trans rfl hp) _ _ _ _ (stagedPages_only (within_trans rfl hp) _ _ _ _ _ _ _
        (liftHopper_only (within_trans rfl hp) _ _ (appendRows_only (within_trans rfl hp) (by assumption)
        (by assumption))))
    · exact stagedPages_only (within_trans rfl hp) _ _ _ _ _ _ _ (liftHopper_only (within_trans rfl hp) _ _
        (appendRows_only (within_trans rfl hp) (by assumption) (by assumption)))

theorem clearCopy_only {pts} {s0 s : State} (hp : within [.pgm] pts = true) (i) (h : Only pts s0 s) : Only pts s0
    (clearCopy i s) := by
  unfold clearCopy
  try dsimp only
  split
  · exact decRef_only (within_trans rfl hp) _ (updDesc_only (within_trans rfl hp) _ _ (by assumption))
  · exact updDesc_only (within_trans rfl hp) _ _ (by assumption)

theorem dropCopy_only {pts} {s0 s : State} (hp : within [.pgm, .hif, .hlt, .status, .counters] pts = true) (i)
    (h : Only pts s0 s) : Only pts s0 (dropCopy i s) := by
  unfold dropCopy
  try dsimp only
  exact bump_only (within_trans rfl hp) _ _ (clearCopy_only (within_trans rfl hp) _ (by assumption))

theorem removePrefix_only {pts} {s0 s : State} (hp : within [.pgm] pts = true) (k) (h : Only pts s0 s) : Only pts s0
    (removePrefix k s) := by
  unfold removePrefix
  try dsimp only
  split
  · assumption
  · refine Only.foldl (fun _ _ _ => ?_) ?_
    · exact decRef_only (within_trans rfl hp) _ (updDesc_only (within_trans rfl hp) _ _ (by assumption))
    · exact Only.put [.pgm] (within_trans rfl hp) (by assumption) rfl

theorem dropPrefixesOf_only {pts} {s0 x2 : State} (hp : within [.pgm] pts = true) (tenant) (x1)
    (h : Only pts s0 x2) : Only pts s0 (dropPrefixesOf tenant x1 x2) := by
  induction x1 generalizing x2 with
  | zero => exact h
  | succ n ih =>
    unfold dropPrefixesOf
    split
    · exact h
    · exact ih (removePrefix_only (within_trans rfl hp) _ h)

theorem takeExtents_only {pts} {s0 x3 : State} (hp : within [.free] pts = true) (t) (x1) (x2) (h :
    Only pts s0 x3) : Only pts s0 (takeExtents t x1 x2 x3).2 := by
  induction x1 generalizing x2 x3 with
  | zero =>
    unfold takeExtents
    try dsimp only
    assumption
  | succ n ih =>
    unfold takeExtents
    try dsimp only
    apply ih
    exact freeSlot_only (within_trans rfl hp) _ _ (by assumption)

theorem sealRead_only {pts} {s0 s : State} (hp : within [.hif, .hlt, .status] pts = true) (d) (n) (h :
    Only pts s0 s) : Only pts s0 (sealRead d n s) := by
  unfold sealRead
  split
  · assumption
  · exact charge_only (within_trans rfl hp) _ _ _ (by assumption)

theorem sealComplete_only {pts} {s0 s : State} (hp : within [.pgm, .cmp, .hif, .hlt, .status, .free] pts = true) (i)
    (h : Only pts s0 s) : Only pts s0 (sealComplete i s) := by
  unfold sealComplete
  try dsimp only
  split
  · assumption
  · split
    · assumption
    · split
      · assumption
      · exact decRef_only (within_trans rfl hp) _ (updDesc_only (within_trans rfl hp) _ _ (takeExtents_only
          (within_trans rfl hp) _ _ _ (chargeTier_only (within_trans rfl hp) _ _ _ (sealRead_only
          (within_trans rfl hp) _ _ (countBlocks_only (within_trans rfl hp) _ (by assumption))))))

theorem execSealComplete_only {pts} {s0 s : State} {t}
    (hp : within [.pgm, .cmp, .hif, .hlt, .status, .free] pts = true) {desc} (e : execSealComplete desc s = .next t)
    (h : Only pts s0 s) : Only pts s0 t := by
  unfold execSealComplete at e
  try dsimp only at e
  injection e with e
  subst e
  split
  · exact sealComplete_only (within_trans rfl hp) _ (by assumption)
  · assumption

theorem incRef_only {pts} {s0 s : State} (hp : within [.pgm] pts = true) (i) (h : Only pts s0 s) : Only pts s0
    (incRef i s) := by
  unfold incRef
  try dsimp only
  exact updDesc_only (within_trans rfl hp) _ _ (by assumption)

theorem leaseDesc_only {pts} {s0 s : State} (hp : within [.pgm] pts = true) (i) (step) (h : Only pts s0 s) :
    Only pts s0 (leaseDesc i step s) := by
  unfold leaseDesc
  try dsimp only
  exact updDesc_only (within_trans rfl hp) _ _ (by assumption)

theorem letGo_only {pts} {s0 s : State} (hp : within [.sqs, .pgm] pts = true) (slot) (i) (h : Only pts s0 s) :
    Only pts s0 (letGo slot i s) := by
  unfold letGo
  try dsimp only
  split
  · assumption
  · split
    · assumption
    · split
      · split
        · exact decRef_only (within_trans rfl hp) _ (updLayer_only (within_trans rfl hp) _ _ _ (updDesc_only
            (within_trans rfl hp) _ _ (by assumption)))
        · exact updDesc_only (within_trans rfl hp) _ _ (by assumption)
      · exact updDesc_only (within_trans rfl hp) _ _ (by assumption)
      · exact updDesc_only (within_trans rfl hp) _ _ (by assumption)

theorem makeSpare_only {pts} {s0 s : State} (hp : within [.sqs, .pgm, .free] pts = true) (d) (h :
    Only pts s0 s) : Only pts s0 (makeSpare d s) := by
  unfold makeSpare
  try dsimp only
  split
  · assumption
  · split
    · assumption
    · split
      · exact newDesc_only (within_trans rfl hp) _ (by assumption)
      · exact updLayer_only (within_trans rfl hp) _ _ _ (newDesc_only (within_trans rfl hp) _ (by assumption))

theorem reclaimOne_only {pts} {s0 s : State} (hp : within [.sqs, .pgm, .free] pts = true) (i) (h :
    Only pts s0 s) : Only pts s0 (reclaimOne i s) := by
  unfold reclaimOne
  try dsimp only
  split
  · assumption
  · split
    · split
      · refine updLayer_only (within_trans rfl hp) _ _ _ ?_
        split
        · exact makeSpare_only (within_trans rfl hp) _ (Only.put [.pgm] (within_trans rfl hp) (by assumption) rfl)
        · exact Only.put [.pgm] (within_trans rfl hp) (by assumption) rfl
      · split
        · exact makeSpare_only (within_trans rfl hp) _ (Only.put [.pgm] (within_trans rfl hp) (by assumption) rfl)
        · exact Only.put [.pgm] (within_trans rfl hp) (by assumption) rfl
    · split
      · exact makeSpare_only (within_trans rfl hp) _ (Only.put [.pgm] (within_trans rfl hp) (by assumption) rfl)
      · exact Only.put [.pgm] (within_trans rfl hp) (by assumption) rfl

theorem reclaim_only {pts} {s0 s : State} (hp : within [.sqs, .pgm, .hif, .status, .free] pts = true) (freed)
    (Hfreed : ∀ a0 a1 a2, Only pts s0 a2 → Only pts s0 (freed a0 a1 a2)) (h : Only pts s0 s) : Only pts s0
    (reclaim freed s) := by
  unfold reclaim
  try dsimp only
  refine raiseIf_only (within_trans rfl hp) _ _ ?_
  refine Only.foldl (fun _ _ _ => ?_) ?_
  · split
    · assumption
    · apply Hfreed
      exact reclaimOne_only (within_trans rfl hp) _ (by assumption)
  · exact Only.put [.pgm] (within_trans rfl hp) (by assumption) rfl

theorem makeRoom_only {pts} {s0 x2 : State} (hp : within [.sqs, .pgm, .hif, .hlt, .status, .counters,
    .free] pts = true) {t} {freed x1} (Hfreed : ∀ a0 a1 a2, Only pts s0 a2 → Only pts s0 (freed a0 a1 a2))
    (e : makeRoom freed x1 x2 = some t) (h : Only pts s0 x2) : Only pts s0 t := by
  induction x1 generalizing x2 with
  | zero =>
    unfold makeRoom at e
    split at e
    · cases e; exact h
    · cases e
  | succ n ih =>
    unfold makeRoom at e
    split at e
    · cases e; exact h
    · split at e
      · exact ih e (dropCopy_only (within_trans rfl hp) _ h)
      · split at e
        · exact ih e (reclaim_only (within_trans rfl hp) _ Hfreed (removePrefix_only (within_trans rfl hp) _ h))
        · cases e

theorem takeMap_only {pts} {s0 s : State} (hp : within [.free] pts = true) (t) (k) (got) (h : Only pts s0 s) :
    Only pts s0 (takeMap t k got s).2 := by
  unfold takeMap
  try dsimp only
  exact freeOf_only (within_trans rfl hp) _ _ (takeExtents_only (within_trans rfl hp) _ _ _ (freeOf_only
    (within_trans rfl hp) _ _ (by assumption)))

theorem newSpare_only {pts} {s0 s : State} (hp : within [.pgm, .free] pts = true) (d) (h : Only pts s0 s) :
    Only pts s0 (newSpare d s).2 := by
  unfold newSpare
  try dsimp only
  exact newDesc_only (within_trans rfl hp) _ (takeMap_only (within_trans rfl hp) _ _ _ (takeExtents_only
    (within_trans rfl hp) _ _ _ (by assumption)))

theorem publishPage_only {pts} {s0 s : State} {t} (hp : within [.sqs, .pgm, .hif, .hlt, .status] pts = true)
    {n slot} (e : publishPage n slot s = some t) (h : Only pts s0 s) : Only pts s0 t := by
  unfold publishPage at e
  try dsimp only at e
  split at e
  · cases e
  · split at e
    · cases e
    · split at e
      · injection e with e
        subst e
        exact updSeq_only (within_trans rfl hp) _ _ (by assumption)
      · split at e
        · injection e with e
          subst e
          exact raise_only (within_trans rfl hp) _ (updSeq_only (within_trans rfl hp) _ _ (by assumption))
        · injection e with e
          subst e
          refine updSeq_only (within_trans rfl hp) _ _ ?_
          refine Only.foldl (fun _ _ _ => ?_) ?_
          · refine forDike_only (within_trans rfl hp) _ _ _ ?_ ?_
            · intro _ _
              exact incRef_only (within_trans rfl hp) _ (updDesc_only (within_trans rfl hp) _ _ (by assumption))
            · assumption
          · exact Only.put [.pgm] (within_trans rfl hp) (by assumption) rfl

theorem publishAll_only {pts} {s0 x3 : State} (hp : within [.sqs, .pgm, .hif, .hlt, .status] pts = true) (n) (slot)
    (x2) (h : Only pts s0 x3) : Only pts s0 (publishAll n slot x2 x3) := by
  induction x2 generalizing x3 with
  | zero => exact h
  | succ k ih =>
    unfold publishAll
    split
    · exact h
    · exact ih (publishPage_only (within_trans rfl hp) (by assumption) h)

theorem putSeq_only {pts} {s0 s : State} (hp : within [.sqs] pts = true) (slot) (e_) (h : Only pts s0 s) :
    Only pts s0 (putSeq slot e_ s) := by
  unfold putSeq
  try dsimp only
  exact Only.put [.sqs] (within_trans rfl hp) (by assumption) rfl

theorem releaseLayer_only {pts} {s0 s : State} (hp : within [.sqs, .pgm] pts = true) (slot) (p) (h :
    Only pts s0 s) : Only pts s0 (releaseLayer slot p s) := by
  unfold releaseLayer
  try dsimp only
  refine Only.foldl (fun _ _ _ => ?_) ?_
  · exact decRef_only (within_trans rfl hp) _ (by assumption)
  · refine Only.foldl (fun _ _ _ => ?_) ?_
    · exact decRef_only (within_trans rfl hp) _ (letGo_only (within_trans rfl hp) _ _ (by assumption))
    · assumption

theorem releasePages_only {pts} {s0 s : State} (hp : within [.sqs, .pgm] pts = true) (slot) (h :
    Only pts s0 s) : Only pts s0 (releasePages slot s) := by
  unfold releasePages
  try dsimp only
  split
  · assumption
  · refine updSeq_only (within_trans rfl hp) _ _ ?_
    refine Only.foldl (fun _ _ _ => ?_) ?_
    · exact releaseLayer_only (within_trans rfl hp) _ _ (by assumption)
    · assumption

theorem returnLayer_only {pts} {s0 s : State} (hp : within [.sqs, .pgm, .free] pts = true) (slot) (l) (h :
    Only pts s0 s) : Only pts s0 (returnLayer slot l s) := by
  unfold returnLayer
  try dsimp only
  split
  · assumption
  · refine Only.foldl (fun _ _ _ => ?_) ?_
    · exact decRef_only (within_trans rfl hp) _ (by assumption)
    · exact fitLines_only (within_trans rfl hp) _ _ (updLayer_only (within_trans rfl hp) _ _ _ (by assumption))

theorem returnPinned_only {pts} {s0 s : State} (hp : within [.sqs, .pgm, .free] pts = true) (h :
    Only pts s0 s) : Only pts s0 (returnPinned s) := by
  unfold returnPinned
  try dsimp only
  refine Only.foldl (fun _ _ _ => ?_) ?_
  · split
    · refine Only.foldl (fun _ _ _ => ?_) ?_
      · exact returnLayer_only (within_trans rfl hp) _ _ (by assumption)
      · assumption
    · assumption
  · assumption

theorem returnSpare_only {pts} {s0 s : State} (hp : within [.sqs, .pgm, .free] pts = true) (i) (h :
    Only pts s0 s) : Only pts s0 (returnSpare i s) := by
  unfold returnSpare
  try dsimp only
  split
  · assumption
  · split
    · exact makeSpare_only (within_trans rfl hp) _ (updDesc_only (within_trans rfl hp) _ _ (by assumption))
    · assumption

theorem sealLate_only {pts} {s0 s : State} (hp : within [.hif, .hlt, .status, .counters] pts = true) (n) (h :
    Only pts s0 s) : Only pts s0 (sealLate n s) := by
  unfold sealLate
  try dsimp only
  exact bump_only (within_trans rfl hp) _ _ (raiseTimes_only (within_trans rfl hp) _ _ (by assumption))

theorem switchSealed_only {pts} {s0 s : State} (hp : within [.pgm] pts = true) (i) (h : Only pts s0 s) : Only pts s0
    (switchSealed i s) := by
  unfold switchSealed
  try dsimp only
  exact updDesc_only (within_trans rfl hp) _ _ (by assumption)

theorem takeMaps_only {pts} {s0 x4 : State} (hp : within [.free] pts = true) (t) (k) (x2) (x3) (h :
    Only pts s0 x4) : Only pts s0 (takeMaps t k x2 x3 x4).2 := by
  induction x2 generalizing x3 x4 with
  | zero =>
    unfold takeMaps
    try dsimp only
    assumption
  | succ n ih =>
    unfold takeMaps
    try dsimp only
    apply ih
    exact takeMap_only (within_trans rfl hp) _ _ _ (by assumption)

theorem takeLayer_only {pts} {s0 s : State} (hp : within [.sqs, .pgm, .free] pts = true) (slot) (l) (p) (t) (h_)
    (e_) (h : Only pts s0 s) : Only pts s0 (takeLayer slot l p t h_ e_ s) := by
  unfold takeLayer
  try dsimp only
  exact Only.put [.pgm] (within_trans rfl hp) (updLayer_only (within_trans rfl hp) _ _ _ (takeMaps_only
    (within_trans rfl hp) _ _ _ _ (newSpare_only (within_trans rfl hp) _ (newSpare_only (within_trans rfl hp) _
    (by assumption))))) rfl

theorem takeFreeboard_only {pts} {s0 s : State} (hp : within [.sqs, .pgm, .free] pts = true) (slot) (p) (t) (h_)
    (h : Only pts s0 s) : Only pts s0 (takeFreeboard slot p t h_ s) := by
  unfold takeFreeboard
  try dsimp only
  split
  · assumption
  · refine Only.foldl (fun _ _ _ => ?_) ?_
    · exact fitLines_only (within_trans rfl hp) _ _ (takeLayer_only (within_trans rfl hp) _ _ _ _ _ _ (by assumption))
    · exact updSeq_only (within_trans rfl hp) _ _ (takeLines_only (within_trans rfl hp) _ (takeExtents_only
        (within_trans rfl hp) _ _ _ (by assumption)))

theorem countVerdict_only {pts} {s0 s : State} (hp : within [.hif, .hlt, .status, .counters] pts = true) (tenant)
    (outcome) (h : Only pts s0 s) : Only pts s0 (countVerdict tenant outcome s) := by
  unfold countVerdict
  try dsimp only
  split
  · exact bump_only (within_trans rfl hp) _ _ (sEvent_only (within_trans rfl hp) _ _ _ _ (setAcct_only
      (within_trans rfl hp) _ _ (by assumption)))
  · split
    · exact bump_only (within_trans rfl hp) _ _ (sEvent_only (within_trans rfl hp) _ _ _ _ (setAcct_only
        (within_trans rfl hp) _ _ (by assumption)))
    · assumption

theorem forget_only {pts} {s0 s : State} (hp : within [.sqs, .slc, .pgm, .car, .hif, .status, .free] pts = true)
    (slot) (h : Only pts s0 s) : Only pts s0 (forget slot s) := by
  unfold forget
  try dsimp only
  refine Only.put [.sqs, .slc, .pgm, .car] (within_trans rfl hp) ?_ rfl
  refine reclaim_only (within_trans rfl hp) _ ?_ ?_
  · intro _ _ _ _
    assumption
  · exact Only.put [.sqs, .slc, .pgm, .car] (within_trans rfl hp) (releasePages_only (within_trans rfl hp) _
      (by assumption)) rfl

theorem newHandle_only {pts} {s0 s : State} (hp : within [.sqs, .free] pts = true) (h : Only pts s0 s) : Only pts s0
    (newHandle s).2 := by
  unfold newHandle
  try dsimp only
  split
  · dsimp only
    exact freeSlot_only (within_trans rfl hp) _ _ (by assumption)
  · dsimp only
    exact Only.put [.sqs] (within_trans rfl hp) (freeSlot_only (within_trans rfl hp) _ _ (by assumption)) rfl

theorem sendVerdict_only {pts} {s0 s : State} (hp : within [.fab, .wei, .hif, .hlt, .status, .counters] pts = true)
    (q) (a) (handle) (ring) (h : Only pts s0 s) : Only pts s0 (sendVerdict q a handle ring s) := by
  unfold sendVerdict
  try dsimp only
  exact sendMsg_only (within_trans rfl hp) _ _ _ _ _ (countVerdict_only (within_trans rfl hp) _ _ (by assumption))

theorem testFreeboard_only {pts} {s0 s : State} {t}
    (hp : within [.sqs, .slc, .pgm, .car, .hif, .hlt, .status, .counters, .free] pts = true) {n take}
    (Htake : ∀ a0, Only pts s0 a0 → Only pts s0 (take a0)) (e : testFreeboard s n take = .ok t) (h :
    Only pts s0 s) : Only pts s0 t := by
  unfold testFreeboard at e
  try dsimp only at e
  split at e
  · injection e with e
    subst e
    refine makeRoom_only (within_trans rfl hp) ?_ (by assumption) ?_
    · intro _ _ _ _
      assumption
    · apply Htake
      assumption
  · split at e
    · cases e
    · cases e

theorem withPages_only {pts} {s0 s : State} (hp : within [.sqs, .pgm, .hif, .hlt, .status, .free] pts = true) (slot)
    (e_) (p) (t) (shared) (h : Only pts s0 s) : Only pts s0 (withPages slot e_ p t shared s) := by
  unfold withPages
  try dsimp only
  refine takeFreeboard_only (within_trans rfl hp) _ _ _ _ ?_
  refine Only.foldl (fun _ _ _ => ?_) ?_
  · refine Only.foldl (fun _ _ _ => ?_) ?_
    · refine forDike_only (within_trans rfl hp) _ _ _ ?_ ?_
      · intro _ _
        exact incRef_only (within_trans rfl hp) _ (by assumption)
      · assumption
    · assumption
  · exact putSeq_only (within_trans rfl hp) _ _ (by assumption)

theorem offerNew_take_only {pts} {s0 : State} (hp : within [.sqs, .pgm, .hif, .hlt, .status, .free] pts = true)
    (s n slot handle adapter q z) :
    ∀ t, Only pts s0 t → Only pts s0 ((offerNew s n slot handle adapter q z).take t) := by
  intro t h
  unfold offerNew
  dsimp only
  exact withPages_only (within_trans rfl hp) _ _ _ _ _ h

theorem offerFork_take_only {pts} {s0 : State} (hp : within [.sqs, .pgm, .hif, .hlt, .status, .free] pts = true)
    (s n slot handle parent q) :
    ∀ t, Only pts s0 t → Only pts s0 ((offerFork s n slot handle parent q).take t) := by
  intro t h
  refine takeFreeboard_only (within_trans rfl hp) _ _ _ _ ?_
  exact Only.foldl (fun _ _ h => Only.foldl (fun _ _ h => forDike_only (within_trans rfl hp) _ _ _
    (fun _ h => incRef_only (within_trans rfl hp) _ h) h) h)
    (putSeq_only (within_trans rfl hp) _ _ h)

theorem testQuery_only {pts} {s0 s : State} (hp : within [.sqs, .slc, .pgm, .car, .hif, .hlt, .status, .counters,
    .free] pts = true) {t} {n q kept} (e : testQuery n q kept s = .ok t) (h : Only pts s0 s) : Only pts s0 t.1 := by
  unfold testQuery at e
  dsimp only at e
  split at e
  · cases e
  · split at e
    · cases e
    · split at e
      · cases e
      · split at e
        · cases e
        · split at e
          · cases e
          · split at e
            · cases e
            · cases e
              refine testFreeboard_only (within_trans rfl hp) ?_ (by assumption) ?_
              · intro a ha
                split
                · exact offerFork_take_only (within_trans rfl hp) _ _ _ _ _ _ _ ha
                · exact offerNew_take_only (within_trans rfl hp) _ _ _ _ _ _ _ _ ha
              · split
                · exact h
                · exact newHandle_only (within_trans rfl hp) h

theorem chargeFill_only {pts} {s0 s : State} (hp : within [.hif, .hlt, .status] pts = true) (context) (h :
    Only pts s0 s) : Only pts s0 (chargeFill context s) := by
  unfold chargeFill
  try dsimp only
  split
  · split
    · exact charge_only (within_trans rfl hp) _ _ _ (charge_only (within_trans rfl hp) _ _ _ (by assumption))
    · assumption
  · assumption

theorem mdlResult_only {pts} {s0 s : State} (hp : within [.mdl] pts = true) (cmd) (cause) (object) (h :
    Only pts s0 s) : Only pts s0 (mdlResult cmd cause object s) := by
  unfold mdlResult
  try dsimp only
  exact Only.put [.mdl] (within_trans rfl hp) (by assumption) rfl

theorem mdlRefuse_only {pts} {s0 s : State} (hp : within [.mdl, .hif, .hlt, .status, .counters, .mem] pts = true)
    (t) (cmd) (cause) (object) (h : Only pts s0 s) : Only pts s0 (mdlRefuse t cmd cause object s) := by
  unfold mdlRefuse
  try dsimp only
  exact refusedWith_only (within_trans rfl hp) _ _ (raise_only (within_trans rfl hp) _ (bump_only
    (within_trans rfl hp) _ _ (mdlResult_only (within_trans rfl hp) _ _ _ (by assumption))))

theorem dropCurrent_only {pts} {s0 s : State} (hp : within [.mdl] pts = true) (tenant) (context) (h :
    Only pts s0 s) : Only pts s0 (dropCurrent tenant context s) := by
  unfold dropCurrent
  try dsimp only
  exact Only.put [.mdl] (within_trans rfl hp) (by assumption) rfl

theorem doRegisterAdapter_only {pts} {s0 s : State}
    (hp : within [.mdl, .hif, .hlt, .status, .counters, .mem] pts = true) (t) (bs) (h : Only pts s0 s) : Only pts s0
    (doRegisterAdapter t bs s) := by
  unfold doRegisterAdapter
  try dsimp only
  split
  · exact mdlRefuse_only (within_trans rfl hp) _ _ _ _ (by assumption)
  · exact doneWith_only (within_trans rfl hp) _ _ _ (mdlResult_only (within_trans rfl hp) _ _ _ (Only.put [.mdl]
      (within_trans rfl hp) (dropCurrent_only (within_trans rfl hp) _ _ (by assumption)) rfl))

theorem doRegisterContext_only {pts} {s0 s : State}
    (hp : within [.mdl, .hif, .hlt, .status, .counters, .mem] pts = true) (t) (bs) (h : Only pts s0 s) : Only pts s0
    (doRegisterContext t bs s) := by
  unfold doRegisterContext
  try dsimp only
  split
  · exact mdlRefuse_only (within_trans rfl hp) _ _ _ _ (by assumption)
  · exact done_only (within_trans rfl hp) _ (mdlResult_only (within_trans rfl hp) _ _ _ (Only.put [.mdl]
      (within_trans rfl hp) (by assumption) rfl))

theorem freeContext_only {pts} {s0 s : State} (hp : within [.mdl, .sec] pts = true) (i) (h : Only pts s0 s) :
    Only pts s0 (freeContext i s) := by
  unfold freeContext
  try dsimp only
  exact Only.put [.mdl, .sec] (within_trans rfl hp) (by assumption) rfl

theorem retireContext_only {pts} {s0 s : State} (hp : within [.mdl] pts = true) (i) (h : Only pts s0 s) :
    Only pts s0 (retireContext i s) := by
  unfold retireContext
  try dsimp only
  exact Only.put [.mdl] (within_trans rfl hp) (by assumption) rfl

theorem doRetireContext_only {pts} {s0 s : State}
    (hp : within [.mdl, .hif, .sec, .hlt, .status, .counters, .mem] pts = true) (t) (i) (h : Only pts s0 s) :
    Only pts s0 (doRetireContext t i s) := by
  unfold doRetireContext
  try dsimp only
  split
  · exact mdlRefuse_only (within_trans rfl hp) _ _ _ _ (by assumption)
  · split
    · exact done_only (within_trans rfl hp) _ (freeContext_only (within_trans rfl hp) _ (mdlResult_only
        (within_trans rfl hp) _ _ _ (by assumption)))
    · exact done_only (within_trans rfl hp) _ (retireContext_only (within_trans rfl hp) _ (mdlResult_only
        (within_trans rfl hp) _ _ _ (by assumption)))
    · exact done_only (within_trans rfl hp) _ (mdlResult_only (within_trans rfl hp) _ _ _ (by assumption))

theorem doWithdrawAdapter_only {pts} {s0 s : State}
    (hp : within [.mdl, .hif, .hlt, .status, .counters, .mem] pts = true) (t) (tenant) (context) (h :
    Only pts s0 s) : Only pts s0 (doWithdrawAdapter t tenant context s) := by
  unfold doWithdrawAdapter
  try dsimp only
  split
  · exact mdlRefuse_only (within_trans rfl hp) _ _ _ _ (by assumption)
  · exact done_only (within_trans rfl hp) _ (mdlResult_only (within_trans rfl hp) _ _ _ (dropCurrent_only
      (within_trans rfl hp) _ _ (by assumption)))

theorem execContextFillComplete_only {pts} {s0 s : State} {t} (hp : within [.mdl, .hif, .hlt, .status] pts = true)
    {context} (e : execContextFillComplete context s = .next t) (h : Only pts s0 s) : Only pts s0 t := by
  unfold execContextFillComplete at e
  try dsimp only at e
  injection e with e
  subst e
  exact Only.put [.mdl] (within_trans rfl hp) (chargeFill_only (within_trans rfl hp) _ (by assumption)) rfl

theorem freeRetired_only {pts} {s0 s : State} (hp : within [.mdl, .sec] pts = true) (h : Only pts s0 s) :
    Only pts s0 (freeRetired s) := by
  unfold freeRetired
  try dsimp only
  refine Only.foldl (fun _ _ _ => ?_) ?_
  · exact freeContext_only (within_trans rfl hp) _ (by assumption)
  · assumption

theorem readyContexts_only {pts} {s0 s : State} (hp : within [.mdl] pts = true) (h : Only pts s0 s) : Only pts s0
    (readyContexts s) := by
  unfold readyContexts
  try dsimp only
  exact Only.put [.mdl] (within_trans rfl hp) (by assumption) rfl

theorem retireVersions_only {pts} {s0 s : State} (hp : within [.mdl, .hif, .status] pts = true) (h :
    Only pts s0 s) : Only pts s0 (retireVersions s) := by
  unfold retireVersions
  try dsimp only
  refine raiseTimes_only (within_trans rfl hp) _ _ ?_
  refine Only.foldl (fun _ _ _ => ?_) ?_
  · exact Only.put [.mdl] (within_trans rfl hp) (by assumption) rfl
  · assumption

theorem noteElems_only {pts} {s0 s : State} (hp : within [.hif, .hlt, .status, .counters] pts = true) (es) (h :
    Only pts s0 s) : Only pts s0 (noteElems es s) := by
  unfold noteElems
  try dsimp only
  exact bump_only (within_trans rfl hp) _ _ (raiseTimes_only (within_trans rfl hp) _ _ (bump_only
    (within_trans rfl hp) _ _ (raiseTimes_only (within_trans rfl hp) _ _ (by assumption))))

theorem placedOwn_only {pts} {s0 s : State} (hp : within [.hif, .hlt, .status] pts = true) (items) (h :
    Only pts s0 s) : Only pts s0 (placedOwn items s).2 := by
  unfold placedOwn
  try dsimp only
  split
  · exact violate_only (within_trans rfl hp) (by assumption)
  · assumption

theorem leaseItems_only {pts} {s0 s : State} (hp : within [.pgm] pts = true) (n) (items) (h : Only pts s0 s) :
    Only pts s0 (leaseItems n items s) := by
  unfold leaseItems
  try dsimp only
  refine Only.foldl (fun _ _ _ => ?_) ?_
  · exact leaseDesc_only (within_trans rfl hp) _ _ (by assumption)
  · assumption

theorem buildStep_only {pts} {s0 s : State}
    (hp : within [.tmu, .sqs, .pgm, .car, .mdl, .hif, .hlt, .status, .counters] pts = true) (n) (h :
    Only pts s0 s) : Only pts s0 (buildStep n s) := by
  unfold buildStep
  try dsimp only
  exact Only.put [.tmu, .sqs, .car, .mdl] (within_trans rfl hp) (bump_only (within_trans rfl hp) _ _
    (leaseItems_only (within_trans rfl hp) _ _ (placedOwn_only (within_trans rfl hp) _ (by assumption)))) rfl

end Sys2Proof.Machine
end

