-- ==== Sys2Proof/Laws/PartsSluice.lean ====
section
/-! SUPPORT. Which parts of the state each operation may change (Safety.Only): the sluice, the exchange, fragments,
    tiers and work.
`f_only`: what `f` makes of a state differs from it in the parts listed alone. -/

namespace Sys2Proof.Machine

open Sys2Proof.Safety

theorem addBatch_only {pts} {s0 s : State} (hp : within [.sqs] pts = true) (r) (h : Only pts s0 s) : Only pts s0
    (addBatch r s) := by
  unfold addBatch
  try dsimp only
  exact Only.put [.sqs] (within_trans rfl hp) (by assumption) rfl

theorem ackLeaving_only {pts} {s0 s : State} (hp : within [.sqs] pts = true) (keeper) (handle) (pos) (h :
    Only pts s0 s) : Only pts s0 (ackLeaving keeper handle pos s) := by
  unfold ackLeaving
  try dsimp only
  refine Only.put [.sqs] (within_trans rfl hp) ?_ rfl
  refine Only.foldl (fun _ _ _ => ?_) ?_
  · exact addBatch_only (within_trans rfl hp) _ (by assumption)
  · assumption

theorem updOwned_only {pts} {s0 s : State} (hp : within [.sqs] pts = true) (slot) (f) (h : Only pts s0 s) :
    Only pts s0 (updOwned slot f s) := by
  unfold updOwned
  try dsimp only
  exact Only.put [.sqs] (within_trans rfl hp) (by assumption) rfl

theorem addNotice_only {pts} {s0 s : State} (hp : within [.sqs] pts = true) (e_) (kind) (cause) (refStep) (h :
    Only pts s0 s) : Only pts s0 (addNotice e_ kind cause refStep s) := by
  unfold addNotice
  try dsimp only
  exact addBatch_only (within_trans rfl hp) _ (by assumption)

theorem deliverToken_only {pts} {s0 s : State} (hp : within [.sqs] pts = true) (slot) (e_) (o) (pos) (token)
    (promised) (h : Only pts s0 s) : Only pts s0 (deliverToken slot e_ o pos token promised s) := by
  unfold deliverToken
  try dsimp only
  split
  · assumption
  · split
    · exact addNotice_only (within_trans rfl hp) _ _ _ _ (updSeq_only (within_trans rfl hp) _ _ (addBatch_only
        (within_trans rfl hp) _ (by assumption)))
    · exact updSeq_only (within_trans rfl hp) _ _ (addBatch_only (within_trans rfl hp) _ (by assumption))

theorem ackToken_only {pts} {s0 s : State} (hp : within [.sqs] pts = true) (slot) (e_) (o) (pos) (h :
    Only pts s0 s) : Only pts s0 (ackToken slot e_ o pos s) := by
  unfold ackToken
  try dsimp only
  split
  · assumption
  · split
    · exact updOwned_only (within_trans rfl hp) _ _ (by assumption)
    · exact deliverToken_only (within_trans rfl hp) _ _ _ _ _ _ (updOwned_only (within_trans rfl hp) _ _
        (by assumption))

theorem addWait_only {pts} {s0 s : State} (hp : within [.sqs] pts = true) (p) (h : Only pts s0 s) : Only pts s0
    (addWait p s) := by
  unfold addWait
  try dsimp only
  exact Only.put [.sqs] (within_trans rfl hp) (by assumption) rfl

theorem journalMsg_only {pts} {s0 s : State} (hp : within [.hif, .hlt, .status, .counters, .mem] pts = true)
    (action) (tenant) (source) (sseq) (bytes) (h : Only pts s0 s) : Only pts s0
    (journalMsg action tenant source sseq bytes s) := by
  unfold journalMsg
  try dsimp only
  split
  · split
    · exact journal_only (within_trans rfl hp) _ _ _ _ _ _ (Only.put [.hlt] (within_trans rfl hp) (by assumption) rfl)
    · exact Only.put [.hlt] (within_trans rfl hp) (by assumption) rfl
  · exact journal_only (within_trans rfl hp) _ _ _ _ _ _ (Only.put [.hlt] (within_trans rfl hp) (by assumption) rfl)

theorem noteFirst_only {pts} {s0 s : State} (hp : within [.sqs] pts = true) (source) (sseq) (h :
    Only pts s0 s) : Only pts s0 (noteFirst source sseq s) := by
  unfold noteFirst
  try dsimp only
  split
  · assumption
  · exact Only.put [.sqs] (within_trans rfl hp) (by assumption) rfl

theorem consumeNow_only {pts} {s0 s : State} (hp : within [.sqs, .hif, .hlt, .status, .counters, .mem] pts = true)
    (tenant) (source) (sseq) (bytes) (h : Only pts s0 s) : Only pts s0 (consumeNow tenant source sseq bytes s) := by
  unfold consumeNow
  try dsimp only
  exact journalMsg_only (within_trans rfl hp) _ _ _ _ _ (noteFirst_only (within_trans rfl hp) _ _ (by assumption))

theorem consumeUnnumbered_only {pts} {s0 s : State} (hp : within [.hif, .hlt, .status, .counters, .mem] pts = true)
    (tenant) (source) (bytes) (h : Only pts s0 s) : Only pts s0 (consumeUnnumbered tenant source bytes s) := by
  unfold consumeUnnumbered
  try dsimp only
  exact journalMsg_only (within_trans rfl hp) _ _ _ _ _ (by assumption)

theorem deliverHeld_only {pts} {s0 s : State} (hp : within [.sqs] pts = true) (slot) (h : Only pts s0 s) :
    Only pts s0 (deliverHeld slot s) := by
  unfold deliverHeld
  try dsimp only
  split
  · refine Only.foldl (fun _ _ _ => ?_) ?_
    · exact ackToken_only (within_trans rfl hp) _ _ _ _ (by assumption)
    · exact updOwned_only (within_trans rfl hp) _ _ (by assumption)
  · assumption

theorem setRec_only {pts} {s0 s : State} (hp : within [.sqs, .slc] pts = true) (slot) (r) (h : Only pts s0 s) :
    Only pts s0 (setRec slot r s) := by
  unfold setRec
  try dsimp only
  exact updSeq_only (within_trans rfl hp) _ _ (Only.put [.slc] (within_trans rfl hp) (by assumption) rfl)

theorem enterOrphan_only {pts} {s0 s : State} (hp : within [.sqs, .slc, .hif, .hlt, .status, .counters] pts = true)
    (slot) (h : Only pts s0 s) : Only pts s0 (enterOrphan slot s) := by
  unfold enterOrphan
  try dsimp only
  split
  · exact bump_only (within_trans rfl hp) _ _ (raise_only (within_trans rfl hp) _ (addNotice_only
      (within_trans rfl hp) _ _ _ _ (updSeq_only (within_trans rfl hp) _ _ (setRec_only (within_trans rfl hp) _ _
      (by assumption)))))
  · assumption

theorem execRehomeWaitExpired_only {pts} {s0 s : State} {t} (hp : within [.sqs] pts = true) {slot}
    (e : execRehomeWaitExpired slot s = .next t) (h : Only pts s0 s) : Only pts s0 t := by
  unfold execRehomeWaitExpired at e
  try dsimp only at e
  split at e
  · split at e
    · split at e
      · injection e with e
        subst e
        exact updOwned_only (within_trans rfl hp) _ _ (by assumption)
      · injection e with e
        subst e
        assumption
    · injection e with e
      subst e
      assumption
  · injection e with e
    subst e
    assumption

theorem resumeWait_only {pts} {s0 s : State} (hp : within [.sqs] pts = true) (slot) (e_) (h : Only pts s0 s) :
    Only pts s0 (resumeWait slot e_ s) := by
  unfold resumeWait
  try dsimp only
  split
  · assumption
  · exact addWait_only (within_trans rfl hp) _ (by assumption)

theorem execRehomingTimeout_only {pts} {s0 s : State} {t} (hp : within [.tmu, .sqs] pts = true) {slot}
    (e : execRehomingTimeout slot s = .next t) (h : Only pts s0 s) : Only pts s0 t := by
  unfold execRehomingTimeout at e
  try dsimp only at e
  split at e
  · split at e
    · injection e with e
      subst e
      exact resumeWait_only (within_trans rfl hp) _ _ (setNow_only (within_trans rfl hp) _ (by assumption))
    · injection e with e
      subst e
      assumption
  · injection e with e
    subst e
    assumption

theorem execReissueAckTimeout_only {pts} {s0 s : State} {t}
    (hp : within [.tmu, .sqs, .slc, .hif, .hlt, .status, .counters] pts = true) {slot}
    (e : execReissueAckTimeout slot s = .next t) (h : Only pts s0 s) : Only pts s0 t := by
  unfold execReissueAckTimeout at e
  try dsimp only at e
  split at e
  · split at e
    · injection e with e
      subst e
      exact enterOrphan_only (within_trans rfl hp) _ (setNow_only (within_trans rfl hp) _ (by assumption))
    · injection e with e
      subst e
      assumption
  · injection e with e
    subst e
    assumption

theorem sendSlu_only {pts} {s0 s : State} (hp : within [.sqs, .fab, .wei, .hlt] pts = true) (dest) (h_) (body)
    (h : Only pts s0 s) : Only pts s0 (sendSlu dest h_ body s) := by
  unfold sendSlu
  try dsimp only
  exact sendMsg_only (within_trans rfl hp) _ _ _ _ _ (takeSseq_only (within_trans rfl hp) (by assumption))

theorem sendState_only {pts} {s0 s : State} (hp : within [.sqs, .fab, .wei, .hlt] pts = true) (dest) (h_) (mid) (r)
    (h : Only pts s0 s) : Only pts s0 (sendState dest h_ mid r s) := by
  unfold sendState
  try dsimp only
  refine Only.foldl (fun _ _ _ => ?_) ?_
  · exact sendSlu_only (within_trans rfl hp) _ _ _ (by assumption)
  · assumption

theorem forwardTail_only {pts} {s0 s : State} (hp : within [.sqs, .slc, .fab, .wei, .hlt] pts = true) (slot)
    (h : Only pts s0 s) : Only pts s0 (forwardTail slot s) := by
  unfold forwardTail
  try dsimp only
  split
  · split
    · split
      · assumption
      · exact sendState_only (within_trans rfl hp) _ _ _ _ (setRec_only (within_trans rfl hp) _ _ (by assumption))
    · assumption
  · assumption

theorem journalWait_only {pts} {s0 s : State} (hp : within [.hif, .hlt, .status, .counters, .mem] pts = true) (p)
    (h : Only pts s0 s) : Only pts s0 (journalWait p s) := by
  unfold journalWait
  try dsimp only
  split
  · exact journalMsg_only (within_trans rfl hp) _ _ _ _ _ (by assumption)
  · exact journalMsg_only (within_trans rfl hp) _ _ _ _ _ (by assumption)
  · split
    · exact journalMsg_only (within_trans rfl hp) _ _ _ _ _ (by assumption)
    · assumption

theorem keepGrant_only {pts} {s0 s : State} (hp : within [.sqs] pts = true) (m) (h_) (h : Only pts s0 s) :
    Only pts s0 (keepGrant m h_ s) := by
  unfold keepGrant
  try dsimp only
  split
  · exact Only.put [.sqs] (within_trans rfl hp) (by assumption) rfl
  · exact addWait_only (within_trans rfl hp) _ (by assumption)

theorem misdirect_only {pts} {s0 s : State} (hp : within [.fab, .hif, .hlt, .status] pts = true) (port) (h :
    Only pts s0 s) : Only pts s0 (misdirect port s) := by
  unfold misdirect
  try dsimp only
  exact raise_only (within_trans rfl hp) _ (sEvent_only (within_trans rfl hp) _ _ _ _ (setPort_only
    (within_trans rfl hp) _ _ (by assumption)))

theorem sluIn_only {pts} {s0 s : State} (hp : within [.sqs, .fab, .hif, .hlt, .status, .counters, .mem] pts = true)
    (kind) (mine) (act) (m) (Hact : ∀ a0 a1, Only pts s0 a1 → Only pts s0 (act a0 a1)) (h : Only pts s0 s) :
    Only pts s0 (sluIn kind mine act m s) := by
  unfold sluIn
  try dsimp only
  split
  · assumption
  · split
    · exact raise_only (within_trans rfl hp) _ (by assumption)
    · split
      · exact raise_only (within_trans rfl hp) _ (by assumption)
      · split
        · exact misdirect_only (within_trans rfl hp) _ (by assumption)
        · apply Hact
          split
          · exact noteFirst_only (within_trans rfl hp) _ _ (by assumption)
          · exact consumeNow_only (within_trans rfl hp) _ _ _ _ (by assumption)

theorem updRec_only {pts} {s0 s : State} (hp : within [.sqs, .slc] pts = true) (slot) (f) (h : Only pts s0 s) :
    Only pts s0 (updRec slot f s) := by
  unfold updRec
  try dsimp only
  split
  · assumption
  · exact setRec_only (within_trans rfl hp) _ _ (by assumption)

theorem sendReject_only {pts} {s0 s : State} (hp : within [.sqs, .fab, .wei, .hlt] pts = true) (dest) (h_) (h :
    Only pts s0 s) : Only pts s0 (sendReject dest h_ s) := by
  unfold sendReject
  try dsimp only
  exact sendSlu_only (within_trans rfl hp) _ _ _ (by assumption)

theorem refuseStale_only {pts} {s0 s : State}
    (hp : within [.sqs, .fab, .wei, .hif, .hlt, .status, .counters] pts = true) (source) (h_) (h :
    Only pts s0 s) : Only pts s0 (refuseStale source h_ s) := by
  unfold refuseStale
  try dsimp only
  exact sendReject_only (within_trans rfl hp) _ _ (raise_only (within_trans rfl hp) _ (bump_only
    (within_trans rfl hp) _ _ (by assumption)))

theorem toKeeper_only {pts} {s0 s : State}
    (hp : within [.sqs, .slc, .fab, .wei, .hif, .hlt, .status, .counters, .mem] pts = true) (kind) (tail) (act) (m)
    (Hact : ∀ a0 a1 a2 a3 a4, Only pts s0 a4 → Only pts s0 (act a0 a1 a2 a3 a4)) (h : Only pts s0 s) : Only pts s0
    (toKeeper kind tail act m s) := by
  unfold toKeeper
  try dsimp only
  refine sluIn_only (within_trans rfl hp) _ _ _ _ ?_ ?_
  · intro _ _ _
    split
    · exact raise_only (within_trans rfl hp) _ (by assumption)
    · split
      · exact raise_only (within_trans rfl hp) _ (by assumption)
      · split
        · apply Hact
          split
          · exact updRec_only (within_trans rfl hp) _ _ (by assumption)
          · assumption
        · split
          · apply Hact
            assumption
          · exact refuseStale_only (within_trans rfl hp) _ _ (by assumption)
  · assumption

theorem keeperRelease_only {pts} {s0 s : State}
    (hp : within [.sqs, .slc, .fab, .wei, .hif, .hlt, .status, .counters, .mem] pts = true) (m) (h :
    Only pts s0 s) : Only pts s0 (keeperRelease m s) := by
  unfold keeperRelease
  try dsimp only
  refine toKeeper_only (within_trans rfl hp) _ _ _ _ ?_ ?_
  · intro _ _ _ _ _ _
    exact addWait_only (within_trans rfl hp) _ (by assumption)
  · assumption

theorem setHist_only {pts} {s0 s : State} (hp : within [.slc] pts = true) (slot) (h_) (h : Only pts s0 s) :
    Only pts s0 (setHist slot h_ s) := by
  unfold setHist
  try dsimp only
  exact Only.put [.slc] (within_trans rfl hp) (by assumption) rfl

theorem takeHistory_only {pts} {s0 s : State} (hp : within [.sqs, .slc] pts = true) (slot) (h_) (st) (h :
    Only pts s0 s) : Only pts s0 (takeHistory slot h_ st s) := by
  unfold takeHistory
  try dsimp only
  split
  · split
    · split
      · exact updRec_only (within_trans rfl hp) _ _ (updSeq_only (within_trans rfl hp) _ _ (setHist_only
          (within_trans rfl hp) _ _ (by assumption)))
      · assumption
    · refine resumeWait_only (within_trans rfl hp) _ _ ?_
      split
      · exact updRec_only (within_trans rfl hp) _ _ (updSeq_only (within_trans rfl hp) _ _ (setHist_only
          (within_trans rfl hp) _ _ (by assumption)))
      · assumption
  · split
    · exact updRec_only (within_trans rfl hp) _ _ (updSeq_only (within_trans rfl hp) _ _ (setHist_only
        (within_trans rfl hp) _ _ (by assumption)))
    · assumption

theorem keeperStatePush_only {pts} {s0 s : State}
    (hp : within [.sqs, .slc, .fab, .wei, .hif, .hlt, .status, .counters, .mem] pts = true) (m) (h :
    Only pts s0 s) : Only pts s0 (keeperStatePush m s) := by
  unfold keeperStatePush
  try dsimp only
  refine toKeeper_only (within_trans rfl hp) _ _ _ _ ?_ ?_
  · intro _ _ _ _ _ _
    split
    · exact takeHistory_only (within_trans rfl hp) _ _ _ (by assumption)
    · split
      · exact forwardTail_only (within_trans rfl hp) _ (updRec_only (within_trans rfl hp) _ _ (by assumption))
      · exact updRec_only (within_trans rfl hp) _ _ (by assumption)
  · assumption

theorem memberRelease_only {pts} {s0 s : State}
    (hp : within [.sqs, .fab, .wei, .hif, .hlt, .status, .counters, .mem] pts = true) (m) (h : Only pts s0 s) :
    Only pts s0 (memberRelease m s) := by
  unfold memberRelease
  try dsimp only
  refine sluIn_only (within_trans rfl hp) _ _ _ _ ?_ ?_
  · intro _ _ _
    split
    · exact raise_only (within_trans rfl hp) _ (by assumption)
    · split
      · exact addWait_only (within_trans rfl hp) _ (updSeq_only (within_trans rfl hp) _ _ (by assumption))
      · exact refuseStale_only (within_trans rfl hp) _ _ (by assumption)
  · assumption

theorem noteAckTo_only {pts} {s0 s : State} (hp : within [.sqs, .fab, .wei, .hlt] pts = true) (dest) (position) (h_)
    (h : Only pts s0 s) : Only pts s0 (noteAckTo dest position h_ s) := by
  unfold noteAckTo
  try dsimp only
  exact sendSlu_only (within_trans rfl hp) _ _ _ (by assumption)

theorem ownerSend_only {pts} {s0 s : State} (hp : within [.sqs, .fab, .wei, .hlt] pts = true) (slot) (kind) (flags)
    (body) (h : Only pts s0 s) : Only pts s0 (ownerSend slot kind flags body s) := by
  unfold ownerSend
  try dsimp only
  split
  · exact sendSlu_only (within_trans rfl hp) _ _ _ (updOwned_only (within_trans rfl hp) _ _ (by assumption))
  · assumption

theorem onReissue_only {pts} {s0 s : State} (hp : within [.sqs, .fab, .wei, .hif, .hlt, .status] pts = true) (m)
    (h_) (h : Only pts s0 s) : Only pts s0 (onReissue m h_ s) := by
  unfold onReissue
  try dsimp only
  split
  · exact raise_only (within_trans rfl hp) _ (by assumption)
  · split
    · exact ownerSend_only (within_trans rfl hp) _ _ _ _ (deliverHeld_only (within_trans rfl hp) _ (updOwned_only
        (within_trans rfl hp) _ _ (updSeq_only (within_trans rfl hp) _ _ (by assumption))))
    · exact deliverHeld_only (within_trans rfl hp) _ (updOwned_only (within_trans rfl hp) _ _ (updSeq_only
        (within_trans rfl hp) _ _ (by assumption)))

theorem onGrant_only {pts} {s0 s : State}
    (hp : within [.sqs, .fab, .wei, .hif, .hlt, .status, .counters, .mem] pts = true) (m) (h : Only pts s0 s) :
    Only pts s0 (onGrant m s) := by
  unfold onGrant
  try dsimp only
  refine sluIn_only (within_trans rfl hp) _ _ _ _ ?_ ?_
  · intro _ _ _
    split
    · exact onReissue_only (within_trans rfl hp) _ _ (by assumption)
    · exact keepGrant_only (within_trans rfl hp) _ _ (by assumption)
  · assumption

theorem reachHeld_only {pts} {s0 s : State} (hp : within [.sqs, .slc, .hif, .hlt, .status, .counters] pts = true)
    (slot) (r) (h : Only pts s0 s) : Only pts s0 (reachHeld slot r s) := by
  unfold reachHeld
  try dsimp only
  split
  · exact bump_only (within_trans rfl hp) _ _ (updRec_only (within_trans rfl hp) _ _ (by assumption))
  · exact updRec_only (within_trans rfl hp) _ _ (by assumption)

theorem onGrantAck_only {pts} {s0 s : State}
    (hp : within [.sqs, .slc, .fab, .wei, .hif, .hlt, .status, .counters, .mem] pts = true) (m) (h :
    Only pts s0 s) : Only pts s0 (onGrantAck m s) := by
  unfold onGrantAck
  try dsimp only
  refine toKeeper_only (within_trans rfl hp) _ _ _ _ ?_ ?_
  · intro _ _ _ _ _ _
    split
    · exact reachHeld_only (within_trans rfl hp) _ _ (by assumption)
    · exact reachHeld_only (within_trans rfl hp) _ _ (by assumption)
    · exact updRec_only (within_trans rfl hp) _ _ (by assumption)
    · assumption
  · assumption

theorem onHistoryQuery_only {pts} {s0 s : State}
    (hp : within [.sqs, .fab, .wei, .hif, .hlt, .status, .counters, .mem] pts = true) (m) (h : Only pts s0 s) :
    Only pts s0 (onHistoryQuery m s) := by
  unfold onHistoryQuery
  try dsimp only
  refine sluIn_only (within_trans rfl hp) _ _ _ _ ?_ ?_
  · intro _ _ _
    split
    · exact raise_only (within_trans rfl hp) _ (by assumption)
    · split
      · split
        · assumption
        · exact sendState_only (within_trans rfl hp) _ _ _ _ (updOwned_only (within_trans rfl hp) _ _ (by assumption))
      · exact raise_only (within_trans rfl hp) _ (by assumption)
  · assumption

theorem onNoteAck_only {pts} {s0 s : State}
    (hp : within [.sqs, .fab, .hif, .hlt, .status, .counters, .mem] pts = true) (m) (h : Only pts s0 s) :
    Only pts s0 (onNoteAck m s) := by
  unfold onNoteAck
  try dsimp only
  refine sluIn_only (within_trans rfl hp) _ _ _ _ ?_ ?_
  · intro _ _ _
    split
    · split
      · exact ackLeaving_only (within_trans rfl hp) _ _ _ (by assumption)
      · exact raise_only (within_trans rfl hp) _ (by assumption)
    · split
      · exact ackToken_only (within_trans rfl hp) _ _ _ _ (updOwned_only (within_trans rfl hp) _ _ (by assumption))
      · exact raise_only (within_trans rfl hp) _ (by assumption)
  · assumption

theorem onPulse_only {pts} {s0 s : State}
    (hp : within [.sqs, .slc, .fab, .wei, .hif, .hlt, .status, .counters, .mem] pts = true) (m) (h :
    Only pts s0 s) : Only pts s0 (onPulse m s) := by
  unfold onPulse
  try dsimp only
  refine toKeeper_only (within_trans rfl hp) _ _ _ _ ?_ ?_
  · intro _ _ _ _ _ _
    assumption
  · assumption

theorem onRecall_only {pts} {s0 s : State}
    (hp : within [.sqs, .fab, .hif, .hlt, .status, .counters, .mem] pts = true) (m) (h : Only pts s0 s) :
    Only pts s0 (onRecall m s) := by
  unfold onRecall
  try dsimp only
  refine sluIn_only (within_trans rfl hp) _ _ _ _ ?_ ?_
  · intro _ _ _
    split
    · split
      · exact raise_only (within_trans rfl hp) _ (by assumption)
      · split
        · assumption
        · exact updOwned_only (within_trans rfl hp) _ _ (by assumption)
    · split
      · exact raise_only (within_trans rfl hp) _ (by assumption)
      · split
        · exact Only.put [.sqs] (within_trans rfl hp) (by assumption) rfl
        · exact Only.put [.sqs] (within_trans rfl hp) (by assumption) rfl
  · assumption

theorem toOwner_only {pts} {s0 s : State}
    (hp : within [.sqs, .fab, .hif, .hlt, .status, .counters, .mem] pts = true) (kind) (exact_) (act) (m)
    (Hact : ∀ a0 a1 a2 a3, Only pts s0 a3 → Only pts s0 (act a0 a1 a2 a3)) (h : Only pts s0 s) : Only pts s0
    (toOwner kind exact_ act m s) := by
  unfold toOwner
  try dsimp only
  refine sluIn_only (within_trans rfl hp) _ _ _ _ ?_ ?_
  · intro _ _ _
    split
    · exact raise_only (within_trans rfl hp) _ (by assumption)
    · split
      · split
        · assumption
        · apply Hact
          exact updOwned_only (within_trans rfl hp) _ _ (by assumption)
      · exact raise_only (within_trans rfl hp) _ (by assumption)
  · assumption

theorem onReject_only {pts} {s0 s : State}
    (hp : within [.sqs, .fab, .hif, .hlt, .status, .counters, .mem] pts = true) (m) (h : Only pts s0 s) :
    Only pts s0 (onReject m s) := by
  unfold onReject
  try dsimp only
  split
  · refine sluIn_only (within_trans rfl hp) _ _ _ _ ?_ ?_
    · intro _ _ _
      split
      · assumption
      · exact raise_only (within_trans rfl hp) _ (by assumption)
    · assumption
  · refine toOwner_only (within_trans rfl hp) _ _ _ _ ?_ ?_
    · intro _ _ _ _ _
      split
      · assumption
      · exact raise_only (within_trans rfl hp) _ (updOwned_only (within_trans rfl hp) _ _ (by assumption))
    · assumption

theorem onRelease_only {pts} {s0 s : State}
    (hp : within [.sqs, .slc, .fab, .wei, .hif, .hlt, .status, .counters, .mem] pts = true) (m) (h :
    Only pts s0 s) : Only pts s0 (onRelease m s) := by
  unfold onRelease
  try dsimp only
  split
  · split
    · exact memberRelease_only (within_trans rfl hp) _ (by assumption)
    · exact keeperRelease_only (within_trans rfl hp) _ (by assumption)
  · exact keeperRelease_only (within_trans rfl hp) _ (by assumption)

theorem onTokenNote_only {pts} {s0 s : State}
    (hp : within [.sqs, .slc, .fab, .wei, .hif, .hlt, .status, .counters, .mem] pts = true) (m) (h :
    Only pts s0 s) : Only pts s0 (onTokenNote m s) := by
  unfold onTokenNote
  try dsimp only
  refine toKeeper_only (within_trans rfl hp) _ _ _ _ ?_ ?_
  · intro _ _ _ _ _ _
    split
    · exact noteAckTo_only (within_trans rfl hp) _ _ _ (updSeq_only (within_trans rfl hp) _ _ (updRec_only
        (within_trans rfl hp) _ _ (setHist_only (within_trans rfl hp) _ _ (by assumption))))
    · split
      · exact noteAckTo_only (within_trans rfl hp) _ _ _ (by assumption)
      · assumption
  · assumption

theorem sendRecall_only {pts} {s0 s : State} (hp : within [.sqs, .fab, .wei, .hlt] pts = true) (slot) (dest) (epoch)
    (cause) (effective) (h : Only pts s0 s) : Only pts s0 (sendRecall slot dest epoch cause effective s) := by
  unfold sendRecall
  try dsimp only
  split
  · assumption
  · exact sendSlu_only (within_trans rfl hp) _ _ _ (by assumption)

theorem recallAll_only {pts} {s0 s : State} (hp : within [.sqs, .fab, .wei, .hlt] pts = true) (slot) (cause)
    (effective) (h : Only pts s0 s) : Only pts s0 (recallAll slot cause effective s) := by
  unfold recallAll
  try dsimp only
  split
  · assumption
  · split
    · refine sendRecall_only (within_trans rfl hp) _ _ _ _ _ ?_
      split
      · assumption
      · exact sendRecall_only (within_trans rfl hp) _ _ _ _ _ (by assumption)
    · split
      · assumption
      · exact sendRecall_only (within_trans rfl hp) _ _ _ _ _ (by assumption)

theorem sendGrant_only {pts} {s0 s : State} (hp : within [.sqs, .fab, .wei, .hlt] pts = true) (slot) (dest) (cause)
    (epoch) (effective) (from_) (h : Only pts s0 s) : Only pts s0
    (sendGrant slot dest cause epoch effective from_ s) := by
  unfold sendGrant
  try dsimp only
  split
  · exact sendState_only (within_trans rfl hp) _ _ _ _ (by assumption)
  · assumption

theorem takeTail_only {pts} {s0 s : State} (hp : within [.sqs] pts = true) (slot) (st) (h : Only pts s0 s) :
    Only pts s0 (takeTail slot st s) := by
  unfold takeTail
  try dsimp only
  exact updSeq_only (within_trans rfl hp) _ _ (updOwned_only (within_trans rfl hp) _ _ (by assumption))

theorem setChannel_only {pts} {s0 s : State} (hp : within [.hif, .mem] pts = true) (c) (ch) (h :
    Only pts s0 s) : Only pts s0 (setChannel c ch s) := by
  unfold setChannel
  try dsimp only
  exact writeMem_only (within_trans rfl hp) _ _ (Only.put [.hif] (within_trans rfl hp) (by assumption) rfl)

theorem wrapWrite_only {pts} {s0 s : State} (hp : within [.mem] pts = true) (base) (size) (off) (bs) (h :
    Only pts s0 s) : Only pts s0 (wrapWrite base size off bs s) := by
  unfold wrapWrite
  try dsimp only
  exact writeMem_only (within_trans rfl hp) _ _ (writeMem_only (within_trans rfl hp) _ _ (by assumption))

theorem pushRecord_only {pts} {s0 s : State} (hp : within [.hif, .mem] pts = true) (c) (r) (h :
    Only pts s0 s) : Only pts s0 (pushRecord c r s) := by
  unfold pushRecord
  try dsimp only
  split
  · exact setChannel_only (within_trans rfl hp) _ _ (wrapWrite_only (within_trans rfl hp) _ _ _ _ (by assumption))
  · exact setChannel_only (within_trans rfl hp) _ _ (by assumption)

theorem toAccelerator_only {pts} {s0 s : State} (hp : within [.hif, .mem, .free] pts = true) (r) (h :
    Only pts s0 s) : Only pts s0 (toAccelerator r s) := by
  unfold toAccelerator
  try dsimp only
  exact pushRecord_only (within_trans rfl hp) _ _ (freeOf_only (within_trans rfl hp) _ _ (by assumption))

theorem embedNext_only {pts} {s0 s : State} (hp : within [.sqs, .hif, .mem, .free] pts = true) (slot) (h :
    Only pts s0 s) : Only pts s0 (embedNext slot s) := by
  unfold embedNext
  try dsimp only
  split
  · split
    · assumption
    · refine updOwned_only (within_trans rfl hp) _ _ ?_
      refine Only.foldl (fun _ _ _ => ?_) ?_
      · exact toAccelerator_only (within_trans rfl hp) _ (by assumption)
      · assumption
  · assumption

theorem takeOutput_only {pts} {s0 s : State} (hp : within [.sqs, .hif, .mem, .free] pts = true) (slot) (h_)
    (h : Only pts s0 s) : Only pts s0 (takeOutput slot h_ s) := by
  unfold takeOutput
  try dsimp only
  split
  · assumption
  · split
    · assumption
    · split
      · exact updSeq_only (within_trans rfl hp) _ _ (updOwned_only (within_trans rfl hp) _ _ (toAccelerator_only
          (within_trans rfl hp) _ (by assumption)))
      · exact updOwned_only (within_trans rfl hp) _ _ (toAccelerator_only (within_trans rfl hp) _ (by assumption))

theorem execAttentionOutput_only {pts} {s0 s : State} {t}
    (hp : within [.sqs, .cmp, .fab, .hif, .hlt, .status, .counters, .mem, .free] pts = true) {h_}
    (e : execAttentionOutput h_ s = .next t) (h : Only pts s0 s) : Only pts s0 t := by
  unfold execAttentionOutput at e
  try dsimp only at e
  split at e
  · injection e with e
    subst e
    assumption
  · split at e
    · injection e with e
      subst e
      exact misdirect_only (within_trans rfl hp) _ (by assumption)
    · split at e
      · injection e with e
        subst e
        exact damageFound_only (within_trans rfl hp) _ _ (by assumption)
      · split at e
        · injection e with e
          subst e
          exact raise_only (within_trans rfl hp) _ (by assumption)
        · split at e
          · injection e with e
            subst e
            exact raise_only (within_trans rfl hp) _ (by assumption)
          · injection e with e
            subst e
            split
            · exact takeOutput_only (within_trans rfl hp) _ _ (consumeNow_only (within_trans rfl hp) _ _ _ _
                (by assumption))
            · exact consumeNow_only (within_trans rfl hp) _ _ _ _ (by assumption)

theorem sendHidden_only {pts} {s0 s : State} (hp : within [.sqs, .cmp, .fab, .wei, .hif, .hlt, .status] pts = true)
    (slot) (firstPos) (raw) (h : Only pts s0 s) : Only pts s0 (sendHidden slot firstPos raw s) := by
  unfold sendHidden
  try dsimp only
  split
  · split
    · assumption
    · exact sendPieces_only (within_trans rfl hp) _ _ _ _ _ _ (countBlocks_only (within_trans rfl hp) _
        (updOwned_only (within_trans rfl hp) _ _ (takeSseq_only (within_trans rfl hp) (by assumption))))
  · assumption

theorem keepLogits_only {pts} {s0 s : State} (hp : within [.car] pts = true) (slot) (firstPos) (rows) (h :
    Only pts s0 s) : Only pts s0 (keepLogits slot firstPos rows s) := by
  unfold keepLogits
  try dsimp only
  split
  · split
    · exact Only.put [.car] (within_trans rfl hp) (by assumption) rfl
    · assumption
  · assumption

theorem takeRecord_only {pts} {s0 s : State}
    (hp : within [.sqs, .cmp, .car, .fab, .wei, .hif, .hlt, .status] pts = true) (bs) (payload) (c) (h :
    Only pts s0 s) : Only pts s0 (takeRecord bs payload c s) := by
  unfold takeRecord
  try dsimp only
  split
  · exact raise_only (within_trans rfl hp) _ (by assumption)
  · split
    · exact raise_only (within_trans rfl hp) _ (by assumption)
    · split
      · assumption
      · split
        · exact sendHidden_only (within_trans rfl hp) _ _ _ (by assumption)
        · exact keepLogits_only (within_trans rfl hp) _ _ _ (by assumption)

theorem takeInbound_only {pts} {s0 x2 : State} (hp : within [.sqs, .cmp, .car, .fab, .wei, .hif, .hlt, .status,
    .mem] pts = true) (c) (x1) (h : Only pts s0 x2) : Only pts s0 (takeInbound c x1 x2) := by
  induction x1 generalizing x2 with
  | zero => exact h
  | succ n ih =>
    unfold takeInbound
    dsimp only
    split
    · exact h
    · refine ih ?_
      split
      · exact takeRecord_only (within_trans rfl hp) _ _ _ (setChannel_only (within_trans rfl hp) _ _ h)
      · exact raise_only (within_trans rfl hp) _ (setChannel_only (within_trans rfl hp) _ _ h)

theorem execInHeadWrite_only {pts} {s0 s : State} {t}
    (hp : within [.tmu, .sqs, .cmp, .car, .fab, .wei, .hif, .hlt, .status, .mem] pts = true)
    {offsetNs channel head placed} (e : execInHeadWrite offsetNs channel head placed s = .next t) (h :
    Only pts s0 s) : Only pts s0 t := by
  unfold execInHeadWrite at e
  try dsimp only at e
  split at e
  · injection e with e
    subst e
    split
    · exact takeInbound_only (within_trans rfl hp) _ _ (setChannel_only (within_trans rfl hp) _ _ (place_only
        (within_trans rfl hp) _ (setNow_only (within_trans rfl hp) _ (by assumption))))
    · exact setChannel_only (within_trans rfl hp) _ _ (place_only (within_trans rfl hp) _ (setNow_only
        (within_trans rfl hp) _ (by assumption)))
  · injection e with e
    subst e
    assumption

theorem flushRecords_only {pts} {s0 x2 : State} (hp : within [.hif, .mem] pts = true) (c) (x1) (h :
    Only pts s0 x2) : Only pts s0 (flushRecords c x1 x2) := by
  induction x1 generalizing x2 with
  | zero =>
    unfold flushRecords
    try dsimp only
    assumption
  | succ n ih =>
    unfold flushRecords
    try dsimp only
    split
    · assumption
    · split
      · apply ih
        exact setChannel_only (within_trans rfl hp) _ _ (wrapWrite_only (within_trans rfl hp) _ _ _ _ (by assumption))
      · assumption

theorem execOutTailWrite_only {pts} {s0 s : State} {t} (hp : within [.hif, .mem] pts = true) {channel tail}
    (e : execOutTailWrite channel tail s = .next t) (h : Only pts s0 s) : Only pts s0 t := by
  unfold execOutTailWrite at e
  try dsimp only at e
  split at e
  · injection e with e
    subst e
    exact flushRecords_only (within_trans rfl hp) _ _ (setChannel_only (within_trans rfl hp) _ _ (by assumption))
  · injection e with e
    subst e
    assumption

theorem ownerStatePush_only {pts} {s0 s : State}
    (hp : within [.sqs, .fab, .hif, .hlt, .status, .counters, .mem, .free] pts = true) (m) (h :
    Only pts s0 s) : Only pts s0 (ownerStatePush m s) := by
  unfold ownerStatePush
  try dsimp only
  refine sluIn_only (within_trans rfl hp) _ _ _ _ ?_ ?_
  · intro _ _ _
    split
    · split
      · exact raise_only (within_trans rfl hp) _ (by assumption)
      · split
        · assumption
        · exact embedNext_only (within_trans rfl hp) _ (takeTail_only (within_trans rfl hp) _ _ (by assumption))
    · split
      · exact Only.put [.sqs] (within_trans rfl hp) (by assumption) rfl
      · exact raise_only (within_trans rfl hp) _ (by assumption)
  · assumption

theorem onStatePush_only {pts} {s0 s : State}
    (hp : within [.sqs, .slc, .fab, .wei, .hif, .hlt, .status, .counters, .mem, .free] pts = true) (m) (h :
    Only pts s0 s) : Only pts s0 (onStatePush m s) := by
  unfold onStatePush
  try dsimp only
  split
  · exact keeperStatePush_only (within_trans rfl hp) _ (by assumption)
  · exact ownerStatePush_only (within_trans rfl hp) _ (by assumption)

theorem sendTail_only {pts} {s0 s : State} (hp : within [.sqs, .fab, .wei, .hlt] pts = true) (slot) (pos) (token)
    (h : Only pts s0 s) : Only pts s0 (sendTail slot pos token s) := by
  unfold sendTail
  try dsimp only
  split
  · exact ownerSend_only (within_trans rfl hp) _ _ _ _ (sendState_only (within_trans rfl hp) _ _ _ _ (by assumption))
  · assumption

theorem ownerToken_only {pts} {s0 s : State} (hp : within [.sqs, .fab, .wei, .hlt] pts = true) (slot) (token)
    (h : Only pts s0 s) : Only pts s0 (ownerToken slot token s) := by
  unfold ownerToken
  try dsimp only
  split
  · split
    · split
      · exact updOwned_only (within_trans rfl hp) _ _ (sendTail_only (within_trans rfl hp) _ _ _ (ownerSend_only
          (within_trans rfl hp) _ _ _ _ (updOwned_only (within_trans rfl hp) _ _ (updSeq_only
          (within_trans rfl hp) _ _ (by assumption)))))
      · exact ownerSend_only (within_trans rfl hp) _ _ _ _ (updOwned_only (within_trans rfl hp) _ _ (updSeq_only
          (within_trans rfl hp) _ _ (by assumption)))
    · split
      · split
        · exact updOwned_only (within_trans rfl hp) _ _ (sendTail_only (within_trans rfl hp) _ _ _ (ownerSend_only
            (within_trans rfl hp) _ _ _ _ (updOwned_only (within_trans rfl hp) _ _ (updSeq_only
            (within_trans rfl hp) _ _ (by assumption)))))
        · exact ownerSend_only (within_trans rfl hp) _ _ _ _ (updOwned_only (within_trans rfl hp) _ _ (updSeq_only
            (within_trans rfl hp) _ _ (by assumption)))
      · split
        · exact updOwned_only (within_trans rfl hp) _ _ (sendTail_only (within_trans rfl hp) _ _ _ (ownerSend_only
            (within_trans rfl hp) _ _ _ _ (updOwned_only (within_trans rfl hp) _ _ (updSeq_only
            (within_trans rfl hp) _ _ (by assumption)))))
        · exact ownerSend_only (within_trans rfl hp) _ _ _ _ (updOwned_only (within_trans rfl hp) _ _ (updSeq_only
            (within_trans rfl hp) _ _ (by assumption)))
  · assumption

theorem setCoding_only {pts} {s0 s : State} (hp : within [.cmp] pts = true) (i) (c) (h : Only pts s0 s) :
    Only pts s0 (setCoding i c s) := by
  unfold setCoding
  try dsimp only
  exact Only.put [.cmp] (within_trans rfl hp) (by assumption) rfl

theorem sendFrag_only {pts} {s0 s : State} (hp : within [.fab, .wei, .hlt] pts = true) (dest) (i) (f) (h_) (h :
    Only pts s0 s) : Only pts s0 (sendFrag dest i f h_ s) := by
  unfold sendFrag
  try dsimp only
  exact sendPieces_only (within_trans rfl hp) _ _ _ _ _ _ (by assumption)

theorem startRebuild_only {pts} {s0 s : State} (hp : within [.cmp, .fab, .wei, .hif, .hlt, .status] pts = true) (i) (c) (h :
    Only pts s0 s) : Only pts s0 (startRebuild i c s) := by
  unfold startRebuild
  try dsimp only
  refine Only.foldl (fun _ _ _ => ?_) ?_
  · split
    · split
      · exact chargeTier_only (within_trans rfl hp) _ _ _ (setCoding_only (within_trans rfl hp) _ _ (by assumption))
      · assumption
    · split
      · assumption
      · exact sendFrag_only (within_trans rfl hp) _ _ _ _ (by assumption)
  · exact setCoding_only (within_trans rfl hp) _ _ (by assumption)

theorem losePage_only {pts} {s0 s : State} (hp : within [.sqs, .pgm] pts = true) (i) (h : Only pts s0 s) :
    Only pts s0 (losePage i s) := by
  unfold losePage
  try dsimp only
  refine Only.foldl (fun _ _ _ => ?_) ?_
  · exact resumeWait_only (within_trans rfl hp) _ _ (by assumption)
  · refine Only.foldl (fun _ _ _ => ?_) ?_
    · exact removePrefix_only (within_trans rfl hp) _ (by assumption)
    · exact updDesc_only (within_trans rfl hp) _ _ (by assumption)

theorem damagePage_only {pts} {s0 s : State} (hp : within [.sqs, .pgm, .cmp, .fab, .wei, .hif, .hlt, .status] pts = true) (i)
    (h : Only pts s0 s) : Only pts s0 (damagePage i s) := by
  unfold damagePage
  try dsimp only
  split
  · assumption
  · split
    · assumption
    · split
      · split
        · exact startRebuild_only (within_trans rfl hp) _ _ (updDesc_only (within_trans rfl hp) _ _ (by assumption))
        · exact losePage_only (within_trans rfl hp) _ (by assumption)
      · exact losePage_only (within_trans rfl hp) _ (by assumption)

theorem noteReduced_only {pts} {s0 s : State} (hp : within [.cmp, .hif, .status] pts = true) (c) (h :
    Only pts s0 s) : Only pts s0 (noteReduced c s) := by
  unfold noteReduced
  try dsimp only
  split
  · exact Only.put [.cmp] (within_trans rfl hp) (raiseIf_only (within_trans rfl hp) _ _ (by assumption)) rfl
  · exact raiseIf_only (within_trans rfl hp) _ _ (by assumption)

theorem putFrag_only {pts} {s0 s : State} (hp : within [.pgm, .cmp, .fab, .wei, .hif, .hlt, .status] pts = true) (i)
    (f) (h : Only pts s0 s) : Only pts s0 (putFrag i f s) := by
  unfold putFrag
  try dsimp only
  split
  · assumption
  · split
    · exact sendFrag_only (within_trans rfl hp) _ _ _ _ (setCoding_only (within_trans rfl hp) _ _ (noteReduced_only
        (within_trans rfl hp) _ (by assumption)))
    · split
      · exact setCoding_only (within_trans rfl hp) _ _ (noteReduced_only (within_trans rfl hp) _ (by assumption))
      · exact raise_only (within_trans rfl hp) _ (decRef_only (within_trans rfl hp) _ (setCoding_only
          (within_trans rfl hp) _ _ (noteReduced_only (within_trans rfl hp) _ (by assumption))))

theorem execFragmentPutTimeout_only {pts} {s0 s : State} {t}
    (hp : within [.pgm, .cmp, .fab, .wei, .hif, .hlt, .status] pts = true) {desc frag}
    (e : execFragmentPutTimeout desc frag s = .next t) (h : Only pts s0 s) : Only pts s0 t := by
  unfold execFragmentPutTimeout at e
  try dsimp only at e
  split at e
  · injection e with e
    subst e
    assumption
  · injection e with e
    subst e
    split
    · exact putFrag_only (within_trans rfl hp) _ _ (by assumption)
    · assumption

theorem execRebuildTimeout_only {pts} {s0 s : State} {t} (hp : within [.sqs, .pgm, .cmp, .hif, .status] pts = true)
    {desc} (e : execRebuildTimeout desc s = .next t) (h : Only pts s0 s) : Only pts s0 t := by
  unfold execRebuildTimeout at e
  try dsimp only at e
  split at e
  · injection e with e
    subst e
    assumption
  · injection e with e
    subst e
    split
    · exact losePage_only (within_trans rfl hp) _ (raise_only (within_trans rfl hp) _ (setCoding_only
        (within_trans rfl hp) _ _ (by assumption)))
    · assumption

theorem fragAnswer_only {pts} {s0 s : State} (hp : within [.fab, .wei, .hlt] pts = true) (dest) (kind) (status) (h_)
    (bytes) (h : Only pts s0 s) : Only pts s0 (fragAnswer dest kind status h_ bytes s) := by
  unfold fragAnswer
  try dsimp only
  exact sendFrag_only (within_trans rfl hp) _ _ _ _ (by assumption)

theorem fragIn_only {pts} {s0 s : State} (hp : within [.fab, .hif, .hlt, .status, .counters, .mem] pts = true)
    (kind) (act) (m) (Hact : ∀ a0 a1, Only pts s0 a1 → Only pts s0 (act a0 a1)) (h : Only pts s0 s) : Only pts s0
    (fragIn kind act m s) := by
  unfold fragIn
  try dsimp only
  split
  · assumption
  · split
    · exact raise_only (within_trans rfl hp) _ (by assumption)
    · split
      · exact misdirect_only (within_trans rfl hp) _ (by assumption)
      · apply Hact
        exact consumeUnnumbered_only (within_trans rfl hp) _ _ _ (by assumption)

theorem sendFrees_only {pts} {s0 s : State} (hp : within [.fab, .wei, .hlt] pts = true) (i) (c) (h :
    Only pts s0 s) : Only pts s0 (sendFrees i c s) := by
  unfold sendFrees
  try dsimp only
  refine Only.foldl (fun _ _ _ => ?_) ?_
  · exact sendFrag_only (within_trans rfl hp) _ _ _ _ (by assumption)
  · assumption

theorem freeFragments_only {pts} {s0 s : State} (hp : within [.cmp, .fab, .wei, .hlt] pts = true) (i) (d) (h :
    Only pts s0 s) : Only pts s0 (freeFragments i d s) := by
  unfold freeFragments
  try dsimp only
  split
  · assumption
  · split
    · assumption
    · split
      · exact sendFrees_only (within_trans rfl hp) _ _ (Only.put [.cmp] (within_trans rfl hp) (by assumption) rfl)
      · exact setCoding_only (within_trans rfl hp) _ _ (by assumption)

theorem onFragmentAck_only {pts} {s0 s : State}
    (hp : within [.pgm, .cmp, .fab, .wei, .hif, .hlt, .status, .counters, .mem] pts = true) (m) (h :
    Only pts s0 s) : Only pts s0 (onFragmentAck m s) := by
  unfold onFragmentAck
  try dsimp only
  refine fragIn_only (within_trans rfl hp) _ _ _ ?_ ?_
  · intro _ _ _
    split
    · assumption
    · split
      · assumption
      · split
        · split
          · exact sendFrees_only (within_trans rfl hp) _ _ (Only.put [.cmp] (within_trans rfl hp) (by assumption) rfl)
          · exact setCoding_only (within_trans rfl hp) _ _ (by assumption)
        · split
          · exact putFrag_only (within_trans rfl hp) _ _ (setCoding_only (within_trans rfl hp) _ _ (by assumption))
          · assumption
  · assumption

theorem storeRebuilt_only {pts} {s0 s : State} (hp : within [.pgm, .hif, .hlt, .status, .free] pts = true) (i) (d) (c) (bs) (h :
    Only pts s0 s) : Only pts s0 (storeRebuilt i d c bs s) := by
  unfold storeRebuilt
  try dsimp only
  refine updDesc_only (within_trans rfl hp) _ _ (chargeTier_only (within_trans rfl hp) _ _ _ ?_)
  split
  · dsimp only
    exact takeExtents_only (within_trans rfl hp) _ _ _ (by assumption)
  · exact takeMap_only (within_trans rfl hp) _ _ _ (takeExtents_only (within_trans rfl hp) _ _ _ (by assumption))

theorem tryRebuild_only {pts} {s0 s : State}
    (hp : within [.pgm, .cmp, .hif, .hlt, .status, .counters, .free] pts = true) (i) (h : Only pts s0 s) :
    Only pts s0 (tryRebuild i s) := by
  unfold tryRebuild
  try dsimp only
  split
  · split
    · assumption
    · split
      · assumption
      · split
        · exact blockDamaged_only (within_trans rfl hp) _ _ (by assumption)
        · refine bump_only (within_trans rfl hp) _ _ ?_
          refine storeRebuilt_only (within_trans rfl hp) _ _ _ _ ?_
          split
          · exact setCoding_only (within_trans rfl hp) _ _ (by assumption)
          · exact Only.put [.cmp] (within_trans rfl hp) (by assumption) rfl
  · assumption

theorem onFragmentData_only {pts} {s0 s : State}
    (hp : within [.pgm, .cmp, .fab, .hif, .hlt, .status, .counters, .mem, .free] pts = true) (m) (h :
    Only pts s0 s) : Only pts s0 (onFragmentData m s) := by
  unfold onFragmentData
  try dsimp only
  refine fragIn_only (within_trans rfl hp) _ _ _ ?_ ?_
  · intro _ _ _
    split
    · assumption
    · split
      · assumption
      · split
        · assumption
        · exact tryRebuild_only (within_trans rfl hp) _ (setCoding_only (within_trans rfl hp) _ _ (by assumption))
  · assumption

theorem onFragmentFree_only {pts} {s0 s : State}
    (hp : within [.cmp, .fab, .hif, .hlt, .status, .counters, .mem] pts = true) (m) (h : Only pts s0 s) :
    Only pts s0 (onFragmentFree m s) := by
  unfold onFragmentFree
  try dsimp only
  refine fragIn_only (within_trans rfl hp) _ _ _ ?_ ?_
  · intro _ _ _
    exact Only.put [.cmp] (within_trans rfl hp) (by assumption) rfl
  · assumption

theorem onFragmentGet_only {pts} {s0 s : State}
    (hp : within [.cmp, .fab, .wei, .hif, .hlt, .status, .counters, .mem] pts = true) (m) (h : Only pts s0 s) :
    Only pts s0 (onFragmentGet m s) := by
  unfold onFragmentGet
  try dsimp only
  refine fragIn_only (within_trans rfl hp) _ _ _ ?_ ?_
  · intro _ _ _
    split
    · exact fragAnswer_only (within_trans rfl hp) _ _ _ _ _ (by assumption)
    · split
      · exact fragAnswer_only (within_trans rfl hp) _ _ _ _ _ (chargeTier_only (within_trans rfl hp) _ _ _ (by assumption))
      · exact fragAnswer_only (within_trans rfl hp) _ _ _ _ _ (blockDamaged_only (within_trans rfl hp) _ _
          (fragAnswer_only (within_trans rfl hp) _ _ _ _ _ (chargeTier_only (within_trans rfl hp) _ _ _ (by assumption))))
  · assumption

theorem onFragmentLost_only {pts} {s0 s : State}
    (hp : within [.pgm, .cmp, .fab, .wei, .hif, .hlt, .status, .counters, .mem] pts = true) (m) (h :
    Only pts s0 s) : Only pts s0 (onFragmentLost m s) := by
  unfold onFragmentLost
  try dsimp only
  refine fragIn_only (within_trans rfl hp) _ _ _ ?_ ?_
  · intro _ _ _
    split
    · assumption
    · split
      · assumption
      · refine putFrag_only (within_trans rfl hp) _ _ ?_
        refine setCoding_only (within_trans rfl hp) _ _ ?_
        split
        · exact incRef_only (within_trans rfl hp) _ (by assumption)
        · assumption
  · assumption

theorem onFragmentPut_only {pts} {s0 s : State}
    (hp : within [.cmp, .fab, .wei, .hif, .hlt, .status, .counters, .mem] pts = true) (m) (h : Only pts s0 s) :
    Only pts s0 (onFragmentPut m s) := by
  unfold onFragmentPut
  try dsimp only
  refine fragIn_only (within_trans rfl hp) _ _ _ ?_ ?_
  · intro _ _ _
    split
    · exact fragAnswer_only (within_trans rfl hp) _ _ _ _ _ (raise_only (within_trans rfl hp) _ (by assumption))
    · exact fragAnswer_only (within_trans rfl hp) _ _ _ _ _ (chargeTier_only (within_trans rfl hp) _ _ _
        (Only.put [.cmp] (within_trans rfl hp) (by assumption) rfl))
  · assumption

theorem protectPages_only {pts} {s0 s : State} (hp : within [.pgm, .cmp, .fab, .wei, .hlt] pts = true) (h :
    Only pts s0 s) : Only pts s0 (protectPages s) := by
  unfold protectPages
  try dsimp only
  refine Only.foldl (fun _ _ _ => ?_) ?_
  · refine Only.foldl (fun _ _ _ => ?_) ?_
    · refine Only.foldl (fun _ _ _ => ?_) ?_
      · exact sendFrag_only (within_trans rfl hp) _ _ _ _ (by assumption)
      · assumption
    · exact Only.put [.cmp] (within_trans rfl hp) (decRef_only (within_trans rfl hp) _ (setCoding_only
        (within_trans rfl hp) _ _ (by assumption))) rfl
  · assumption

theorem putFrags_only {pts} {s0 s : State} (hp : within [.pgm, .cmp, .fab, .wei, .hif, .hlt, .status] pts = true)
    (i) (fs) (h : Only pts s0 s) : Only pts s0 (putFrags i fs s) := by
  unfold putFrags
  try dsimp only
  refine Only.foldl (fun _ _ _ => ?_) ?_
  · exact putFrag_only (within_trans rfl hp) _ _ (by assumption)
  · assumption

theorem replaceGone_only {pts} {s0 s : State} (hp : within [.pgm, .cmp, .fab, .wei, .hif, .hlt, .status] pts = true)
    (h : Only pts s0 s) : Only pts s0 (replaceGone s) := by
  unfold replaceGone
  try dsimp only
  refine Only.foldl (fun _ _ _ => ?_) ?_
  · split
    · assumption
    · refine putFrags_only (within_trans rfl hp) _ _ ?_
      refine setCoding_only (within_trans rfl hp) _ _ ?_
      split
      · exact incRef_only (within_trans rfl hp) _ (by assumption)
      · assumption
  · assumption

theorem startCoding_only {pts} {s0 s : State}
    (hp : within [.sqs, .pgm, .cmp, .fab, .wei, .hif, .hlt, .status, .counters] pts = true) (i) (h :
    Only pts s0 s) : Only pts s0 (startCoding i s) := by
  unfold startCoding
  try dsimp only
  split
  · assumption
  · split
    · exact losePage_only (within_trans rfl hp) _ (blockDamaged_only (within_trans rfl hp) _ _ (by assumption))
    · exact putFrags_only (within_trans rfl hp) _ _ (setCoding_only (within_trans rfl hp) _ _ (incRef_only
        (within_trans rfl hp) _ (chargeTier_only (within_trans rfl hp) _ _ _ (by assumption))))

theorem startCodings_only {pts} {s0 s : State}
    (hp : within [.sqs, .pgm, .cmp, .fab, .wei, .hif, .hlt, .status, .counters] pts = true) (h :
    Only pts s0 s) : Only pts s0 (startCodings s) := by
  unfold startCodings
  try dsimp only
  refine Only.foldl (fun _ _ _ => ?_) ?_
  · exact startCoding_only (within_trans rfl hp) _ (by assumption)
  · assumption

theorem checkpointObjects_only {pts} {s0 s : State} (hp : within [.pgm, .hif, .status] pts = true) (tenant)
    (h : Only pts s0 s) : Only pts s0 (checkpointObjects tenant s) := by
  unfold checkpointObjects
  try dsimp only
  refine Only.foldl (fun _ _ _ => ?_) ?_
  · split
    · assumption
    · exact updDesc_only (within_trans rfl hp) _ _ (raiseIf_only (within_trans rfl hp) _ _ (by assumption))
  · assumption

theorem cleanError_only {pts} {s0 s : State} (hp : within [.pgm] pts = true) (i) (h : Only pts s0 s) : Only pts s0
    (cleanError i s) := by
  unfold cleanError
  try dsimp only
  exact updDesc_only (within_trans rfl hp) _ _ (by assumption)

theorem damageObject_only {pts} {s0 s : State} (hp : within [.pgm, .hif, .status] pts = true) (i) (h :
    Only pts s0 s) : Only pts s0 (damageObject i s) := by
  unfold damageObject
  try dsimp only
  split
  · assumption
  · split
    · exact raise_only (within_trans rfl hp) _ (updDesc_only (within_trans rfl hp) _ _ (by assumption))
    · assumption

theorem startDemotion_only {pts} {s0 s : State} (hp : within [.pgm] pts = true) (i) (d) (h : Only pts s0 s) :
    Only pts s0 (startDemotion i d s) := by
  unfold startDemotion
  try dsimp only
  split
  · assumption
  · exact incRef_only (within_trans rfl hp) _ (updDesc_only (within_trans rfl hp) _ _ (by assumption))

theorem demote_only {pts} {s0 s : State} (hp : within [.pgm, .hif, .hlt, .status, .counters] pts = true) (i)
    (h : Only pts s0 s) : Only pts s0 (demote i s) := by
  unfold demote
  try dsimp only
  split
  · assumption
  · split
    · exact dropCopy_only (within_trans rfl hp) _ (by assumption)
    · exact startDemotion_only (within_trans rfl hp) _ _ (by assumption)

theorem letCopyGo_only {pts} {s0 s : State} (hp : within [.pgm, .hif, .hlt, .status, .counters] pts = true) (i) (d)
    (h : Only pts s0 s) : Only pts s0 (letCopyGo i d s) := by
  unfold letCopyGo
  try dsimp only
  split
  · split
    · exact decRef_only (within_trans rfl hp) _ (updDesc_only (within_trans rfl hp) _ _ (by assumption))
    · exact updDesc_only (within_trans rfl hp) _ _ (by assumption)
  · exact dropCopy_only (within_trans rfl hp) _ (by assumption)

theorem dropBad_only {pts} {s0 s : State} (hp : within [.pgm, .hif, .hlt, .status, .counters] pts = true) (h :
    Only pts s0 s) : Only pts s0 (dropBad s) := by
  unfold dropBad
  try dsimp only
  refine Only.foldl (fun _ _ _ => ?_) ?_
  · split
    · assumption
    · split
      · exact startDemotion_only (within_trans rfl hp) _ _ (by assumption)
      · split
        · exact letCopyGo_only (within_trans rfl hp) _ _ (by assumption)
        · exact clearCopy_only (within_trans rfl hp) _ (by assumption)
  · assumption

theorem execGddr7Corrected_only {pts} {s0 s : State} {t} (hp : within [.hif, .hlt, .status, .counters] pts = true)
    (e : execGddr7Corrected s = .next t) (h : Only pts s0 s) : Only pts s0 t := by
  unfold execGddr7Corrected at e
  try dsimp only at e
  injection e with e
  subst e
  split
  · exact raise_only (within_trans rfl hp) _ (bump_only (within_trans rfl hp) _ _ (by assumption))
  · assumption

theorem refetchPieces_only {pts} {s0 s : State} (hp : within [.mdl] pts = true) (context) (keys) (h :
    Only pts s0 s) : Only pts s0 (refetchPieces context keys s) := by
  unfold refetchPieces
  try dsimp only
  exact Only.put [.mdl] (within_trans rfl hp) (by assumption) rfl

theorem refetch_only {pts} {s0 s : State} (hp : within [.mdl] pts = true) (context) (layer) (h :
    Only pts s0 s) : Only pts s0 (refetch context layer s) := by
  unfold refetch
  try dsimp only
  exact refetchPieces_only (within_trans rfl hp) _ _ (Only.put [.mdl] (within_trans rfl hp) (by assumption) rfl)

theorem refetchAdapter_only {pts} {s0 s : State} (hp : within [.mdl] pts = true) (v) (h : Only pts s0 s) :
    Only pts s0 (refetchAdapter v s) := by
  unfold refetchAdapter
  try dsimp only
  split
  · assumption
  · exact refetchPieces_only (within_trans rfl hp) _ _ (by assumption)

theorem pageError_only {pts} {s0 s : State}
    (hp : within [.sqs, .pgm, .cmp, .fab, .wei, .hif, .hlt, .status] pts = true) (i) (h : Only pts s0 s) :
    Only pts s0 (pageError i s) := by
  unfold pageError
  try dsimp only
  split
  · assumption
  · split
    · exact damageObject_only (within_trans rfl hp) _ (by assumption)
    · split
      · split
        · exact updDesc_only (within_trans rfl hp) _ _ (by assumption)
        · exact damagePage_only (within_trans rfl hp) _ (by assumption)
      · exact losePage_only (within_trans rfl hp) _ (by assumption)

theorem historyError_only {pts} {s0 s : State} (hp : within [.slc] pts = true) (slot) (copy) (h :
    Only pts s0 s) : Only pts s0 (historyError slot copy s) := by
  unfold historyError
  try dsimp only
  split
  · exact Only.put [.slc] (within_trans rfl hp) (by assumption) rfl
  · assumption

theorem ueOutcome_only {pts} {s0 s : State}
    (hp : within [.sqs, .slc, .pgm, .tir, .cmp, .mdl, .fab, .wei, .hif, .hlt, .status] pts = true) (w) (h :
    Only pts s0 s) : Only pts s0 (ueOutcome w s) := by
  unfold ueOutcome
  try dsimp only
  split
  · exact addFault_only (within_trans rfl hp) _ (by assumption)
  · exact refetch_only (within_trans rfl hp) _ _ (by assumption)
  · exact refetchAdapter_only (within_trans rfl hp) _ (by assumption)
  · exact cleanError_only (within_trans rfl hp) _ (by assumption)
  · exact pageError_only (within_trans rfl hp) _ (by assumption)
  · exact historyError_only (within_trans rfl hp) _ _ (by assumption)
  · split
    · assumption
    · split
      · exact cleanError_only (within_trans rfl hp) _ (by assumption)
      · exact damageObject_only (within_trans rfl hp) _ (by assumption)
  · split
    · assumption
    · split
      · exact Only.put [.tir] (within_trans rfl hp) (by assumption) rfl
      · assumption

theorem uncorrectable_only {pts} {s0 s : State}
    (hp : within [.sqs, .slc, .pgm, .tir, .cmp, .mdl, .fab, .wei, .hif, .hlt, .status, .counters] pts = true) (w)
    (h : Only pts s0 s) : Only pts s0 (uncorrectable w s) := by
  unfold uncorrectable
  try dsimp only
  exact ueOutcome_only (within_trans rfl hp) _ (raise_only (within_trans rfl hp) _ (bump_only
    (within_trans rfl hp) _ _ (by assumption)))

theorem execGddr7Uncorrectable_only {pts} {s0 s : State} {t}
    (hp : within [.sqs, .slc, .pgm, .tir, .cmp, .mdl, .fab, .wei, .hif, .hlt, .status, .counters] pts = true) {w}
    (e : execGddr7Uncorrectable w s = .next t) (h : Only pts s0 s) : Only pts s0 t := by
  unfold execGddr7Uncorrectable at e
  try dsimp only at e
  injection e with e
  subst e
  split
  · exact uncorrectable_only (within_trans rfl hp) _ (by assumption)
  · assumption

theorem noteLines_only {pts} {s0 s : State} (hp : within [.tir, .free] pts = true) (lines) (most) (h :
    Only pts s0 s) : Only pts s0 (noteLines lines most s) := by
  unfold noteLines
  try dsimp only
  split
  · assumption
  · exact Only.put [.tir] (within_trans rfl hp) (freeBelow_only (within_trans rfl hp) _ (by assumption)) rfl

theorem execPromotionComplete_only {pts} {s0 s : State} {t}
    (hp : within [.sqs, .pgm, .tir, .cmp, .fab, .wei, .hif, .hlt, .status, .counters, .free] pts = true) {desc}
    (e : execPromotionComplete desc s = .next t) (h : Only pts s0 s) : Only pts s0 t := by
  unfold execPromotionComplete at e
  try dsimp only at e
  split at e
  · injection e with e
    subst e
    assumption
  · injection e with e
    subst e
    split
    · split
      · exact damagePage_only (within_trans rfl hp) _ (blockDamaged_only (within_trans rfl hp) _ _ (clearCopy_only
          (within_trans rfl hp) _ (noteLines_only (within_trans rfl hp) _ _ (charge_only (within_trans rfl hp) _ _ _
          (charge_only (within_trans rfl hp) _ _ _ (by assumption))))))
      · exact updDesc_only (within_trans rfl hp) _ _ (noteLines_only (within_trans rfl hp) _ _ (charge_only
          (within_trans rfl hp) _ _ _ (charge_only (within_trans rfl hp) _ _ _ (by assumption))))
    · assumption

theorem strandHomes_only {pts} {s0 s : State}
    (hp : within [.sqs, .pgm, .cmp, .fab, .wei, .hif, .hlt, .status] pts = true) (h : Only pts s0 s) : Only pts s0
    (strandHomes s) := by
  unfold strandHomes
  try dsimp only
  refine Only.foldl (fun _ _ _ => ?_) ?_
  · split
    · assumption
    · split
      · assumption
      · exact pageError_only (within_trans rfl hp) _ (by assumption)
  · assumption

theorem segmentLine_only {pts} {s0 s : State} (hp : within [.tir, .hif, .status] pts = true) (i) (failed) (h :
    Only pts s0 s) : Only pts s0 (segmentLine i failed s) := by
  unfold segmentLine
  try dsimp only
  split
  · assumption
  · exact Only.put [.tir] (within_trans rfl hp) (raiseIf_only (within_trans rfl hp) _ _ (by assumption)) rfl

theorem execT2LineTimeout_only {pts} {s0 s : State} {t}
    (hp : within [.sqs, .slc, .pgm, .tir, .cmp, .mdl, .fab, .wei, .hif, .hlt, .status, .counters] pts = true)
    {segment failedAgain w} (e : execT2LineTimeout segment failedAgain w s = .next t) (h : Only pts s0 s) :
    Only pts s0 t := by
  unfold execT2LineTimeout at e
  try dsimp only at e
  split at e
  · injection e with e
    subst e
    assumption
  · split at e
    · injection e with e
      subst e
      split
      · exact strandHomes_only (within_trans rfl hp) (uncorrectable_only (within_trans rfl hp) _ (segmentLine_only
          (within_trans rfl hp) _ _ (raise_only (within_trans rfl hp) _ (bump_only (within_trans rfl hp) _ _
          (by assumption)))))
      · exact segmentLine_only (within_trans rfl hp) _ _ (raise_only (within_trans rfl hp) _ (bump_only
          (within_trans rfl hp) _ _ (by assumption)))
    · injection e with e
      subst e
      assumption

theorem execWritebackExtent_only {pts} {s0 s : State} {t}
    (hp : within [.pgm, .tir, .hif, .hlt, .status, .counters, .free] pts = true) {desc extent}
    (e : execWritebackExtent desc extent s = .next t) (h : Only pts s0 s) : Only pts s0 t := by
  unfold execWritebackExtent at e
  try dsimp only at e
  split at e
  · injection e with e
    subst e
    assumption
  · injection e with e
    subst e
    split
    · exact noteLines_only (within_trans rfl hp) _ _ (bump_only (within_trans rfl hp) _ _ (charge_only
        (within_trans rfl hp) _ _ _ (charge_only (within_trans rfl hp) _ _ _ (updDesc_only (within_trans rfl hp) _ _
        (by assumption)))))
    · assumption

theorem finishDemotions_only {pts} {s0 s : State} (hp : within [.pgm, .hif, .hlt, .status, .counters] pts = true)
    (h : Only pts s0 s) : Only pts s0 (finishDemotions s) := by
  unfold finishDemotions
  try dsimp only
  refine Only.foldl (fun _ _ _ => ?_) ?_
  · split
    · assumption
    · split
      · exact letCopyGo_only (within_trans rfl hp) _ _ (by assumption)
      · exact updDesc_only (within_trans rfl hp) _ _ (by assumption)
  · assumption

theorem startCopy_only {pts} {s0 s : State} (hp : within [.pgm, .free] pts = true) (i) (d) (h :
    Only pts s0 s) : Only pts s0 (startCopy i d s) := by
  unfold startCopy
  try dsimp only
  exact updDesc_only (within_trans rfl hp) _ _ (takeMap_only (within_trans rfl hp) _ _ _ (takeExtents_only
    (within_trans rfl hp) _ _ _ (by assumption)))

theorem startDemotions_only {pts} {s0 s : State} (hp : within [.pgm, .hif, .hlt, .status, .counters] pts = true)
    (h : Only pts s0 s) : Only pts s0 (startDemotions s) := by
  unfold startDemotions
  try dsimp only
  split
  · assumption
  · refine Only.foldl (fun _ _ _ => ?_) ?_
    · split
      · exact demote_only (within_trans rfl hp) _ (by assumption)
      · assumption
    · assumption

theorem startPromotions_only {pts} {s0 s : State} (hp : within [.pgm, .free] pts = true) (h : Only pts s0 s) :
    Only pts s0 (startPromotions s) := by
  unfold startPromotions
  try dsimp only
  refine Only.foldl (fun _ _ _ => ?_) ?_
  · split
    · exact startCopy_only (within_trans rfl hp) _ _ (by assumption)
    · assumption
  · assumption

theorem validateCopies_only {pts} {s0 s : State} (hp : within [.pgm, .hif, .hlt, .status, .counters] pts = true)
    (h : Only pts s0 s) : Only pts s0 (validateCopies s) := by
  unfold validateCopies
  try dsimp only
  exact bump_only (within_trans rfl hp) _ _ (Only.put [.pgm] (within_trans rfl hp) (by assumption) rfl)

theorem tierBoundary_only {pts} {s0 s : State}
    (hp : within [.pgm, .tir, .hif, .hlt, .status, .counters, .free] pts = true) (h : Only pts s0 s) : Only pts s0
    (tierBoundary s) := by
  unfold tierBoundary
  try dsimp only
  refine startPromotions_only (within_trans rfl hp) ?_
  refine startDemotions_only (within_trans rfl hp) ?_
  refine finishDemotions_only (within_trans rfl hp) ?_
  refine dropBad_only (within_trans rfl hp) ?_
  refine validateCopies_only (within_trans rfl hp) ?_
  split
  · exact Only.put [.tir] (within_trans rfl hp) (by assumption) rfl
  · assumption

theorem sendRing_only {pts} {s0 s : State} (hp : within [.fab, .wei, .hlt] pts = true) (dest) (e_) (kind) (layer)
    (tokens) (firstPos) (payload) (h : Only pts s0 s) : Only pts s0
    (sendRing dest e_ kind layer tokens firstPos payload s) := by
  unfold sendRing
  try dsimp only
  exact sendMsg_only (within_trans rfl hp) _ _ _ _ _ (by assumption)

theorem sendRecord_only {pts} {s0 s : State} (hp : within [.fab, .wei, .hlt] pts = true) (dest) (e_) (layer) (sts)
    (h : Only pts s0 s) : Only pts s0 (sendRecord dest e_ layer sts s) := by
  unfold sendRecord
  try dsimp only
  exact sendRing_only (within_trans rfl hp) _ _ _ _ _ _ _ (by assumption)

theorem staleRow_only {pts} {s0 s : State}
    (hp : within [.sqs, .car, .fab, .wei, .hif, .hlt, .status, .counters] pts = true) (e_) (r) (h :
    Only pts s0 s) : Only pts s0 (staleRow e_ r s) := by
  unfold staleRow
  try dsimp only
  exact refuseStale_only (within_trans rfl hp) _ _ (raise_only (within_trans rfl hp) _ (bump_only
    (within_trans rfl hp) _ _ (Only.put [.car] (within_trans rfl hp) (by assumption) rfl)))

theorem updRow_only {pts} {s0 s : State} (hp : within [.car] pts = true) (handle) (layer) (pos) (f) (h :
    Only pts s0 s) : Only pts s0 (updRow handle layer pos f s) := by
  unfold updRow
  try dsimp only
  exact Only.put [.car] (within_trans rfl hp) (by assumption) rfl

theorem retireRows_only {pts} {s0 s : State} (hp : within [.sqs, .car] pts = true) (slot) (e_) (layer) (ps)
    (h : Only pts s0 s) : Only pts s0 (retireRows slot e_ layer ps s) := by
  unfold retireRows
  try dsimp only
  split
  · assumption
  · split
    · exact Only.put [.car] (within_trans rfl hp) (by assumption) rfl
    · exact updSeq_only (within_trans rfl hp) _ _ (Only.put [.car] (within_trans rfl hp) (by assumption) rfl)

theorem placeStaged_only {pts} {s0 s : State}
    (hp : within [.sqs, .slc, .pgm, .car, .fab, .wei, .hif, .hlt, .status, .counters, .free] pts = true) (slot) (e_)
    (c) (layer) (h : Only pts s0 s) : Only pts s0 (placeStaged slot e_ c layer s) := by
  unfold placeStaged
  try dsimp only
  split
  · assumption
  · split
    · assumption
    · split
      · refine Only.foldl (fun _ _ _ => ?_) ?_
        · exact staleRow_only (within_trans rfl hp) _ _ (by assumption)
        · assumption
      · split
        · assumption
        · refine forwardTail_only (within_trans rfl hp) _ ?_
          refine Only.foldl (fun _ _ _ => ?_) ?_
          · exact retireRows_only (within_trans rfl hp) _ _ _ _ (by assumption)
          · refine Only.foldl (fun _ _ _ => ?_) ?_
            · exact updRow_only (within_trans rfl hp) _ _ _ _ (by assumption)
            · exact appendStaged_only (within_trans rfl hp) (by assumption) (by assumption)

theorem giveOutputs_only {pts} {s0 s : State} (hp : within [.car, .hif, .hlt, .status, .counters] pts = true) (c)
    (i) (byHead) (h : Only pts s0 s) : Only pts s0 (giveOutputs c i byHead s) := by
  unfold giveOutputs
  try dsimp only
  refine Only.foldl (fun _ _ _ => ?_) ?_
  · exact updRow_only (within_trans rfl hp) _ _ _ _ (noteElems_only (within_trans rfl hp) _ (bump_only
      (within_trans rfl hp) _ _ (raiseTimes_only (within_trans rfl hp) _ _ (by assumption))))
  · assumption

theorem finishUnit_only {pts} {s0 s : State}
    (hp : within [.sqs, .slc, .pgm, .car, .fab, .wei, .hif, .hlt, .status, .counters, .free] pts = true) (slot) (e_)
    (c) (i) (h : Only pts s0 s) : Only pts s0 (finishUnit slot e_ c i s) := by
  unfold finishUnit
  try dsimp only
  split
  · split
    · assumption
    · refine Only.put [.car] (within_trans rfl hp) ?_ rfl
      split
      · exact sendRecord_only (within_trans rfl hp) _ _ _ _ (by assumption)
      · exact sendRecord_only (within_trans rfl hp) _ _ _ _ (sendRing_only (within_trans rfl hp) _ _ _ _ _ _ _
          (by assumption))
  · split
    · split
      · assumption
      · exact sendRecord_only (within_trans rfl hp) _ _ _ _ (sendRing_only (within_trans rfl hp) _ _ _ _ _ _ _
          (by assumption))
    · exact placeStaged_only (within_trans rfl hp) _ _ _ _ (giveOutputs_only (within_trans rfl hp) _ _ _
        (by assumption))

theorem afterAttention_only {pts} {s0 s : State}
    (hp : within [.sqs, .slc, .pgm, .car, .fab, .wei, .hif, .hlt, .status, .counters, .free] pts = true) (slot) (e_)
    (c) (i) (h : Only pts s0 s) : Only pts s0 (afterAttention slot e_ c i s) := by
  unfold afterAttention
  try dsimp only
  split
  · exact finishUnit_only (within_trans rfl hp) _ _ _ _ (by assumption)
  · assumption

theorem answerEmpty_only {pts} {s0 s : State}
    (hp : within [.sqs, .slc, .pgm, .car, .fab, .wei, .hif, .hlt, .status, .counters, .free] pts = true) (slot)
    (layer) (h : Only pts s0 s) : Only pts s0 (answerEmpty slot layer s) := by
  unfold answerEmpty
  try dsimp only
  split
  · assumption
  · split
    · assumption
    · split
      · exact finishUnit_only (within_trans rfl hp) _ _ _ _ (by assumption)
      · assumption

theorem chargeItem_only {pts} {s0 s : State} (hp : within [.hif, .hlt, .status] pts = true) (i) (u) (h :
    Only pts s0 s) : Only pts s0 (chargeItem i u s) := by
  unfold chargeItem
  try dsimp only
  refine Only.foldl (fun _ _ _ => ?_) ?_
  · split
    · assumption
    · exact chargeSplit_only (within_trans rfl hp) _ _ _ (by assumption)
  · assumption

theorem markDone_only {pts} {s0 s : State} (hp : within [.car] pts = true) (id) (h : Only pts s0 s) : Only pts s0
    (markDone id s) := by
  unfold markDone
  try dsimp only
  exact Only.put [.car] (within_trans rfl hp) (by assumption) rfl

theorem markRan_only {pts} {s0 s : State} (hp : within [.car] pts = true) (id) (ran) (h : Only pts s0 s) :
    Only pts s0 (markRan id ran s) := by
  unfold markRan
  try dsimp only
  exact Only.put [.car] (within_trans rfl hp) (by assumption) rfl

theorem noteLogits_only {pts} {s0 s : State} (hp : within [.hif, .hlt, .status, .counters] pts = true) (logits)
    (h : Only pts s0 s) : Only pts s0 (noteLogits logits s) := by
  unfold noteLogits
  try dsimp only
  split
  · exact bump_only (within_trans rfl hp) _ _ (raise_only (within_trans rfl hp) _ (by assumption))
  · assumption

theorem sampleItem_only {pts} {s0 s : State}
    (hp : within [.sqs, .car, .fab, .wei, .hif, .hlt, .status, .counters] pts = true) (slot) (e_) (i) (h :
    Only pts s0 s) : Only pts s0 (sampleItem slot e_ i s) := by
  unfold sampleItem
  try dsimp only
  split
  · split
    · assumption
    · exact ownerToken_only (within_trans rfl hp) _ _ (noteLogits_only (within_trans rfl hp) _ (Only.put [.car]
        (within_trans rfl hp) (by assumption) rfl))
  · assumption

theorem projectBatch_only {pts} {s0 s : State} (hp : within [.car, .hif, .hlt, .status, .counters] pts = true) (c)
    (l) (i) (m) (slice) (h : Only pts s0 s) : Only pts s0 (projectBatch c l i m slice s) := by
  unfold projectBatch
  try dsimp only
  refine Only.foldl (fun _ _ _ => ?_) ?_
  · split
    · assumption
    · exact noteElems_only (within_trans rfl hp) _ (updRow_only (within_trans rfl hp) _ _ _ _ (by assumption))
  · assumption

theorem sendOutput_only {pts} {s0 s : State} (hp : within [.sqs, .cmp, .fab, .wei, .hif, .hlt, .status] pts = true)
    (e_) (rows) (h : Only pts s0 s) : Only pts s0 (sendOutput e_ rows s) := by
  unfold sendOutput
  try dsimp only
  split
  · exact sendPieces_only (within_trans rfl hp) _ _ _ _ _ _ (countBlocks_only (within_trans rfl hp) _ (takeSseq_only
      (within_trans rfl hp) (by assumption)))
  · assumption

theorem returnRows_only {pts} {s0 s : State}
    (hp : within [.sqs, .cmp, .car, .fab, .wei, .hif, .hlt, .status] pts = true) (slot) (e_) (c) (layer) (ps)
    (h : Only pts s0 s) : Only pts s0 (returnRows slot e_ c layer ps s) := by
  unfold returnRows
  try dsimp only
  split
  · assumption
  · refine retireRows_only (within_trans rfl hp) _ _ _ _ ?_
    refine Only.foldl (fun _ _ _ => ?_) ?_
    · exact updRow_only (within_trans rfl hp) _ _ _ _ (by assumption)
    · exact sendOutput_only (within_trans rfl hp) _ _ (by assumption)

theorem returnBatch_only {pts} {s0 s : State}
    (hp : within [.sqs, .cmp, .car, .fab, .wei, .hif, .hlt, .status] pts = true) (c) (i) (h : Only pts s0 s) :
    Only pts s0 (returnBatch c i s) := by
  unfold returnBatch
  try dsimp only
  refine Only.foldl (fun _ _ _ => ?_) ?_
  · split
    · assumption
    · split
      · assumption
      · split
        · exact returnRows_only (within_trans rfl hp) _ _ _ _ _ (by assumption)
        · refine Only.foldl (fun _ _ _ => ?_) ?_
          · exact returnRows_only (within_trans rfl hp) _ _ _ _ _ (by assumption)
          · assumption
  · assumption

theorem noteStage_only {pts} {s0 s : State} (hp : within [.car] pts = true) (c) (context) (layer) (h :
    Only pts s0 s) : Only pts s0 (noteStage c context layer s) := by
  unfold noteStage
  try dsimp only
  exact Only.put [.car] (within_trans rfl hp) (by assumption) rfl

theorem sendProbes_only {pts} {s0 s : State} (hp : within [.fab, .wei, .hlt] pts = true) (e_) (r) (h :
    Only pts s0 s) : Only pts s0 (sendProbes e_ r s) := by
  unfold sendProbes
  try dsimp only
  split
  · refine Only.foldl (fun _ _ _ => ?_) ?_
    · exact sendRing_only (within_trans rfl hp) _ _ _ _ _ _ _ (by assumption)
    · assumption
  · assumption

theorem placeDecode_only {pts} {s0 s : State}
    (hp : within [.sqs, .slc, .pgm, .car, .fab, .wei, .hif, .hlt, .status, .counters, .free] pts = true) (slot) (e_)
    (c) (r) (h : Only pts s0 s) : Only pts s0 (placeDecode slot e_ c r s) := by
  unfold placeDecode
  try dsimp only
  split
  · assumption
  · split
    · exact staleRow_only (within_trans rfl hp) _ _ (by assumption)
    · split
      · assumption
      · exact forwardTail_only (within_trans rfl hp) _ (updRow_only (within_trans rfl hp) _ _ _ _ (appendRow_only
          (within_trans rfl hp) (by assumption) (by assumption)))

theorem rotaryDone_only {pts} {s0 s : State}
    (hp : within [.sqs, .slc, .pgm, .car, .fab, .wei, .hif, .hlt, .status, .counters, .free] pts = true) (slot) (e_)
    (c) (i) (h : Only pts s0 s) : Only pts s0 (rotaryDone slot e_ c i s) := by
  unfold rotaryDone
  try dsimp only
  split
  · assumption
  · split
    · exact noteStage_only (within_trans rfl hp) _ _ _ (noteElems_only (within_trans rfl hp) _ (noteElems_only
        (within_trans rfl hp) _ (updRow_only (within_trans rfl hp) _ _ _ _ (by assumption))))
    · exact sendProbes_only (within_trans rfl hp) _ _ (placeDecode_only (within_trans rfl hp) _ _ _ _
        (noteElems_only (within_trans rfl hp) _ (noteElems_only (within_trans rfl hp) _ (updRow_only
        (within_trans rfl hp) _ _ _ _ (by assumption)))))

theorem setRun_only {pts} {s0 s : State} (hp : within [.car] pts = true) (i) (run) (sts) (h : Only pts s0 s) :
    Only pts s0 (setRun i run sts s) := by
  unfold setRun
  try dsimp only
  exact Only.put [.car] (within_trans rfl hp) (by assumption) rfl

theorem mergeItem_only {pts} {s0 s : State}
    (hp : within [.sqs, .slc, .pgm, .car, .fab, .wei, .hif, .hlt, .status, .counters, .free] pts = true) (slot) (e_)
    (c) (i) (h : Only pts s0 s) : Only pts s0 (mergeItem slot e_ c i s) := by
  unfold mergeItem
  try dsimp only
  exact afterAttention_only (within_trans rfl hp) _ _ _ _ (setRun_only (within_trans rfl hp) _ _ _ (by assumption))

theorem holdPage_only {pts} {s0 s : State} (hp : within [.pgm, .car] pts = true) (e_) (i) (h : Only pts s0 s) :
    Only pts s0 (holdPage e_ i s) := by
  unfold holdPage
  try dsimp only
  split
  · assumption
  · exact incRef_only (within_trans rfl hp) _ (Only.put [.car] (within_trans rfl hp) (by assumption) rfl)

theorem foldItem_only {pts} {s0 s : State}
    (hp : within [.sqs, .slc, .pgm, .cmp, .car, .fab, .wei, .hif, .hlt, .status, .counters, .free] pts = true)
    (slot) (e_) (c) (l) (i) (mark) (Hmark : ∀ a0, Only pts s0 a0 → Only pts s0 (mark a0)) (h : Only pts s0 s) :
    Only pts s0 (foldItem slot e_ c l i mark s) := by
  unfold foldItem
  try dsimp only
  split
  · exact damagePage_only (within_trans rfl hp) _ (blockDamaged_only (within_trans rfl hp) _ _ (by assumption))
  · refine afterAttention_only (within_trans rfl hp) _ _ _ _ ?_
    split
    · refine Only.put [.car] (within_trans rfl hp) ?_ rfl
      refine bump_only (within_trans rfl hp) _ _ ?_
      refine raiseTimes_only (within_trans rfl hp) _ _ ?_
      refine bump_only (within_trans rfl hp) _ _ ?_
      refine raiseTimes_only (within_trans rfl hp) _ _ ?_
      refine setRun_only (within_trans rfl hp) _ _ _ ?_
      refine holdPage_only (within_trans rfl hp) _ _ ?_
      apply Hmark
      assumption
    · refine bump_only (within_trans rfl hp) _ _ ?_
      refine raiseTimes_only (within_trans rfl hp) _ _ ?_
      refine bump_only (within_trans rfl hp) _ _ ?_
      refine raiseTimes_only (within_trans rfl hp) _ _ ?_
      refine setRun_only (within_trans rfl hp) _ _ _ ?_
      refine holdPage_only (within_trans rfl hp) _ _ ?_
      apply Hmark
      assumption

theorem completeItem_only {pts} {s0 s : State}
    (hp : within [.sqs, .slc, .pgm, .cmp, .car, .fab, .wei, .hif, .hlt, .status, .counters, .free] pts = true) (i)
    (u) (h : Only pts s0 s) : Only pts s0 (completeItem i u s) := by
  unfold completeItem
  try dsimp only
  split
  · split
    · split
      · split
        · refine sampleItem_only (within_trans rfl hp) _ _ _ ?_
          split
          · exact markDone_only (within_trans rfl hp) _ (chargeItem_only (within_trans rfl hp) _ _ (by assumption))
          · exact markRan_only (within_trans rfl hp) _ _ (chargeItem_only (within_trans rfl hp) _ _ (by assumption))
        · split
          · exact markDone_only (within_trans rfl hp) _ (chargeItem_only (within_trans rfl hp) _ _ (by assumption))
          · exact markRan_only (within_trans rfl hp) _ _ (chargeItem_only (within_trans rfl hp) _ _ (by assumption))
      · split
        · exact markDone_only (within_trans rfl hp) _ (chargeItem_only (within_trans rfl hp) _ _ (by assumption))
        · exact markRan_only (within_trans rfl hp) _ _ (chargeItem_only (within_trans rfl hp) _ _ (by assumption))
    · split
      · exact markDone_only (within_trans rfl hp) _ (chargeItem_only (within_trans rfl hp) _ _ (by assumption))
      · exact markRan_only (within_trans rfl hp) _ _ (chargeItem_only (within_trans rfl hp) _ _ (by assumption))
  · split
    · refine projectBatch_only (within_trans rfl hp) _ _ _ _ _ ?_
      split
      · exact markDone_only (within_trans rfl hp) _ (chargeItem_only (within_trans rfl hp) _ _ (by assumption))
      · exact markRan_only (within_trans rfl hp) _ _ (chargeItem_only (within_trans rfl hp) _ _ (by assumption))
    · refine returnBatch_only (within_trans rfl hp) _ _ ?_
      refine projectBatch_only (within_trans rfl hp) _ _ _ _ _ ?_
      split
      · exact markDone_only (within_trans rfl hp) _ (chargeItem_only (within_trans rfl hp) _ _ (by assumption))
      · exact markRan_only (within_trans rfl hp) _ _ (chargeItem_only (within_trans rfl hp) _ _ (by assumption))
    · split
      · exact markDone_only (within_trans rfl hp) _ (chargeItem_only (within_trans rfl hp) _ _ (by assumption))
      · exact markRan_only (within_trans rfl hp) _ _ (chargeItem_only (within_trans rfl hp) _ _ (by assumption))
  · split
    · split
      · exact markDone_only (within_trans rfl hp) _ (chargeItem_only (within_trans rfl hp) _ _ (by assumption))
      · exact markRan_only (within_trans rfl hp) _ _ (chargeItem_only (within_trans rfl hp) _ _ (by assumption))
    · split
      · split
        · split
          · exact markDone_only (within_trans rfl hp) _ (chargeItem_only (within_trans rfl hp) _ _ (by assumption))
          · exact markRan_only (within_trans rfl hp) _ _ (chargeItem_only (within_trans rfl hp) _ _ (by assumption))
        · refine noteElems_only (within_trans rfl hp) _ ?_
          refine updRow_only (within_trans rfl hp) _ _ _ _ ?_
          split
          · exact markDone_only (within_trans rfl hp) _ (chargeItem_only (within_trans rfl hp) _ _ (by assumption))
          · exact markRan_only (within_trans rfl hp) _ _ (chargeItem_only (within_trans rfl hp) _ _ (by assumption))
      · refine projectBatch_only (within_trans rfl hp) _ _ _ _ _ ?_
        split
        · exact markDone_only (within_trans rfl hp) _ (chargeItem_only (within_trans rfl hp) _ _ (by assumption))
        · exact markRan_only (within_trans rfl hp) _ _ (chargeItem_only (within_trans rfl hp) _ _ (by assumption))
      · refine rotaryDone_only (within_trans rfl hp) _ _ _ _ ?_
        split
        · exact markDone_only (within_trans rfl hp) _ (chargeItem_only (within_trans rfl hp) _ _ (by assumption))
        · exact markRan_only (within_trans rfl hp) _ _ (chargeItem_only (within_trans rfl hp) _ _ (by assumption))
      · refine returnBatch_only (within_trans rfl hp) _ _ ?_
        refine projectBatch_only (within_trans rfl hp) _ _ _ _ _ ?_
        split
        · exact markDone_only (within_trans rfl hp) _ (chargeItem_only (within_trans rfl hp) _ _ (by assumption))
        · exact markRan_only (within_trans rfl hp) _ _ (chargeItem_only (within_trans rfl hp) _ _ (by assumption))
      · refine mergeItem_only (within_trans rfl hp) _ _ _ _ ?_
        split
        · exact markDone_only (within_trans rfl hp) _ (chargeItem_only (within_trans rfl hp) _ _ (by assumption))
        · exact markRan_only (within_trans rfl hp) _ _ (chargeItem_only (within_trans rfl hp) _ _ (by assumption))
      · refine sampleItem_only (within_trans rfl hp) _ _ _ ?_
        split
        · exact markDone_only (within_trans rfl hp) _ (chargeItem_only (within_trans rfl hp) _ _ (by assumption))
        · exact markRan_only (within_trans rfl hp) _ _ (chargeItem_only (within_trans rfl hp) _ _ (by assumption))
      · refine foldItem_only (within_trans rfl hp) _ _ _ _ _ _ ?_ ?_
        · intro _ _
          split
          · exact markDone_only (within_trans rfl hp) _ (by assumption)
          · exact markRan_only (within_trans rfl hp) _ _ (by assumption)
        · exact chargeItem_only (within_trans rfl hp) _ _ (by assumption)

theorem swapCluster_only {pts} {s0 s : State} (hp : within [.mdl, .free] pts = true) (k) (h : Only pts s0 s) :
    Only pts s0 (swapCluster k s) := by
  unfold swapCluster
  try dsimp only
  split
  · split
    · assumption
    · exact Only.put [.mdl] (within_trans rfl hp) (freeOf_only (within_trans rfl hp) _ _ (by assumption)) rfl
  · split
    · assumption
    · exact Only.put [.mdl] (within_trans rfl hp) (freeOf_only (within_trans rfl hp) _ _ (by assumption)) rfl

theorem swapCheck_only {pts} {s0 s : State} (hp : within [.mdl, .free] pts = true) (h : Only pts s0 s) : Only pts s0
    (swapCheck s) := by
  unfold swapCheck
  try dsimp only
  refine Only.foldl (fun _ _ _ => ?_) ?_
  · exact swapCluster_only (within_trans rfl hp) _ (by assumption)
  · assumption

theorem lateStep_only {pts} {s0 s : State}
    (hp : within [.sqs, .mdl, .hif, .hlt, .status, .counters, .mem] pts = true) (e_) (layer) (h :
    Only pts s0 s) : Only pts s0 (lateStep e_ layer s).2 := by
  unfold lateStep
  try dsimp only
  split
  · dsimp only
    exact Only.put [.mdl] (within_trans rfl hp) (by assumption) rfl
  · dsimp only
    exact disposition_only (within_trans rfl hp) _ _ _ _ (updSeq_only (within_trans rfl hp) _ _ (by assumption))

theorem hiddenStep_only {pts} {s0 s : State}
    (hp : within [.sqs, .mdl, .hif, .hlt, .status, .counters, .mem] pts = true) (h_) (offsetNs) (e_) (h :
    Only pts s0 s) : Only pts s0 (hiddenStep h_ offsetNs e_ s).2 := by
  unfold hiddenStep
  try dsimp only
  split
  · exact lateStep_only (within_trans rfl hp) _ _ (by assumption)
  · dsimp only
    assumption

theorem takeHidden_only {pts} {s0 s : State}
    (hp : within [.sqs, .car, .mdl, .hif, .hlt, .status, .counters, .mem] pts = true) (h_) (offsetNs) (e_) (h :
    Only pts s0 s) : Only pts s0 (takeHidden h_ offsetNs e_ s) := by
  unfold takeHidden
  try dsimp only
  exact Only.put [.car] (within_trans rfl hp) (hiddenStep_only (within_trans rfl hp) _ _ _ (by assumption)) rfl

theorem execHiddenState_only {pts} {s0 s : State} {t}
    (hp : within [.tmu, .sqs, .slc, .cmp, .car, .mdl, .fab, .wei, .hif, .hlt, .status, .counters, .mem,
      .free] pts = true) {offsetNs h_} (e : execHiddenState offsetNs h_ s = .next t)
      (h : Only pts s0 s) : Only pts s0 t := by
  unfold execHiddenState at e
  try dsimp only at e
  split at e
  · injection e with e
    subst e
    assumption
  · split at e
    · injection e with e
      subst e
      exact misdirect_only (within_trans rfl hp) _ (setNow_only (within_trans rfl hp) _ (by assumption))
    · split at e
      · injection e with e
        subst e
        exact damageFound_only (within_trans rfl hp) _ _ (setNow_only (within_trans rfl hp) _ (by assumption))
      · split at e
        · injection e with e
          subst e
          exact raise_only (within_trans rfl hp) _ (setNow_only (within_trans rfl hp) _ (by assumption))
        · split at e
          · split at e
            · injection e with e
              subst e
              refine refuseStale_only (within_trans rfl hp) _ _ ?_
              split
              · exact updSeq_only (within_trans rfl hp) _ _ (consumeNow_only (within_trans rfl hp) _ _ _ _
                  (setNow_only (within_trans rfl hp) _ (by assumption)))
              · exact consumeNow_only (within_trans rfl hp) _ _ _ _ (setNow_only (within_trans rfl hp) _
                  (by assumption))
            · split at e
              · injection e with e
                subst e
                refine raise_only (within_trans rfl hp) _ ?_
                split
                · exact updSeq_only (within_trans rfl hp) _ _ (consumeNow_only (within_trans rfl hp) _ _ _ _
                    (setNow_only (within_trans rfl hp) _ (by assumption)))
                · exact consumeNow_only (within_trans rfl hp) _ _ _ _ (setNow_only (within_trans rfl hp) _
                    (by assumption))
              · injection e with e
                subst e
                refine swapCheck_only (within_trans rfl hp) ?_
                refine takeHidden_only (within_trans rfl hp) _ _ _ ?_
                split
                · split
                  · exact updSeq_only (within_trans rfl hp) _ _ (consumeNow_only (within_trans rfl hp) _ _ _ _
                      (setNow_only (within_trans rfl hp) _ (by assumption)))
                  · exact consumeNow_only (within_trans rfl hp) _ _ _ _ (setNow_only (within_trans rfl hp) _
                      (by assumption))
                · refine updRec_only (within_trans rfl hp) _ _ ?_
                  split
                  · exact updSeq_only (within_trans rfl hp) _ _ (consumeNow_only (within_trans rfl hp) _ _ _ _
                      (setNow_only (within_trans rfl hp) _ (by assumption)))
                  · exact consumeNow_only (within_trans rfl hp) _ _ _ _ (setNow_only (within_trans rfl hp) _
                      (by assumption))
          · injection e with e
            subst e
            exact raise_only (within_trans rfl hp) _ (setNow_only (within_trans rfl hp) _ (by assumption))
          · injection e with e
            subst e
            exact raise_only (within_trans rfl hp) _ (setNow_only (within_trans rfl hp) _ (by assumption))

theorem execImageSwapComplete_only {pts} {s0 s : State} {t}
    (hp : within [.mdl, .hif, .hlt, .status, .counters, .free] pts = true) {cluster}
    (e : execImageSwapComplete cluster s = .next t) (h : Only pts s0 s) : Only pts s0 t := by
  unfold execImageSwapComplete at e
  try dsimp only at e
  split at e
  · injection e with e
    subst e
    assumption
  · injection e with e
    subst e
    split
    · exact swapCheck_only (within_trans rfl hp) (charge_only (within_trans rfl hp) _ _ _ (bump_only (within_trans rfl hp) _ _
        (Only.put [.mdl] (within_trans rfl hp) (freeBelow_only (within_trans rfl hp) _ (by assumption)) rfl)))
    · assumption

theorem execItemComplete_only {pts} {s0 s : State} {t}
    (hp : within [.sqs, .slc, .pgm, .cmp, .car, .mdl, .fab, .wei, .hif, .hlt, .status, .counters, .free] pts = true)
    {item u} (e : execItemComplete item u s = .next t) (h : Only pts s0 s) : Only pts s0 t := by
  unfold execItemComplete at e
  try dsimp only at e
  split at e
  · injection e with e
    subst e
    assumption
  · injection e with e
    subst e
    split
    · exact swapCheck_only (within_trans rfl hp) (completeItem_only (within_trans rfl hp) _ _ (by assumption))
    · assumption

theorem memberLost_only {pts} {s0 s : State} (hp : within [.sqs, .slc, .hif, .hlt, .status, .counters] pts = true)
    (slot) (member) (h : Only pts s0 s) : Only pts s0 (memberLost slot member s) := by
  unfold memberLost
  try dsimp only
  split
  · assumption
  · split
    · exact updSeq_only (within_trans rfl hp) _ _ (raise_only (within_trans rfl hp) _ (by assumption))
    · exact enterOrphan_only (within_trans rfl hp) _ (raise_only (within_trans rfl hp) _ (by assumption))

theorem execRingSilenceTimeout_only {pts} {s0 s : State} {t}
    (hp : within [.sqs, .slc, .hif, .hlt, .status, .counters] pts = true) {slot member}
    (e : execRingSilenceTimeout slot member s = .next t) (h : Only pts s0 s) : Only pts s0 t := by
  unfold execRingSilenceTimeout at e
  try dsimp only at e
  split at e
  · injection e with e
    subst e
    assumption
  · injection e with e
    subst e
    split
    · exact memberLost_only (within_trans rfl hp) _ _ (by assumption)
    · assumption

theorem finishRingF_only {pts} {s0 s : State} (hp : within [.car, .hif, .hlt, .status, .counters] pts = true) (e_)
    (c) (h_) (h : Only pts s0 s) : Only pts s0 (finishRingF e_ c h_ s) := by
  unfold finishRingF
  try dsimp only
  exact giveOutputs_only (within_trans rfl hp) _ _ _ (by assumption)

theorem forwardBlocks_only {pts} {s0 s : State} (hp : within [.car, .fab, .wei, .hlt] pts = true) (slot) (layer)
    (h : Only pts s0 s) : Only pts s0 (forwardBlocks slot layer s) := by
  unfold forwardBlocks
  try dsimp only
  split
  · assumption
  · split
    · assumption
    · refine Only.put [.car] (within_trans rfl hp) ?_ rfl
      refine Only.foldl (fun _ _ _ => ?_) ?_
      · exact sendRing_only (within_trans rfl hp) _ _ _ _ _ _ _ (by assumption)
      · assumption

theorem keepRing_only {pts} {s0 s : State} (hp : within [.car] pts = true) (h_) (e_) (h : Only pts s0 s) :
    Only pts s0 (keepRing h_ e_ s) := by
  unfold keepRing
  try dsimp only
  exact Only.put [.car] (within_trans rfl hp) (by assumption) rfl

theorem lateRing_only {pts} {s0 s : State}
    (hp : within [.sqs, .car, .mdl, .hif, .hlt, .status, .counters, .mem] pts = true) (h_) (e_) (h :
    Only pts s0 s) : Only pts s0 (lateRing h_ e_ s).2 := by
  unfold lateRing
  try dsimp only
  split
  · dsimp only
    exact Only.put [.car] (within_trans rfl hp) (lateStep_only (within_trans rfl hp) _ _ (disposition_only
      (within_trans rfl hp) _ _ _ _ (raise_only (within_trans rfl hp) _ (bump_only (within_trans rfl hp) _ _
      (by assumption))))) rfl
  · dsimp only
    assumption

theorem ringEpoch_only {pts} {s0 s : State} {t} (hp : within [.sqs] pts = true) {slot source epoch e_}
    (e : ringEpoch slot source epoch e_ s = some t) (h : Only pts s0 s) : Only pts s0 t := by
  unfold ringEpoch at e
  try dsimp only at e
  split at e
  · injection e with e
    subst e
    assumption
  · split at e
    · injection e with e
      subst e
      exact updSeq_only (within_trans rfl hp) _ _ (by assumption)
    · cases e

theorem ringIn_only {pts} {s0 s : State}
    (hp : within [.sqs, .car, .fab, .wei, .hif, .hlt, .status, .counters, .mem] pts = true) (kind) (act) (m)
    (Hact : ∀ a0 a1 a2 a3, Only pts s0 a3 → Only pts s0 (act a0 a1 a2 a3)) (h : Only pts s0 s) : Only pts s0
    (ringIn kind act m s) := by
  unfold ringIn
  try dsimp only
  split
  · assumption
  · split
    · exact raise_only (within_trans rfl hp) _ (by assumption)
    · split
      · exact misdirect_only (within_trans rfl hp) _ (by assumption)
      · split
        · exact raise_only (within_trans rfl hp) _ (by assumption)
        · split
          · exact raise_only (within_trans rfl hp) _ (by assumption)
          · split
            · exact sendReject_only (within_trans rfl hp) _ _ (raise_only (within_trans rfl hp) _ (bump_only
                (within_trans rfl hp) _ _ (consumeUnnumbered_only (within_trans rfl hp) _ _ _ (by assumption))))
            · split
              · exact raise_only (within_trans rfl hp) _ (bump_only (within_trans rfl hp) _ _ (Only.put [.car]
                  (within_trans rfl hp) (ringEpoch_only (within_trans rfl hp) (by assumption)
                  (consumeUnnumbered_only (within_trans rfl hp) _ _ _ (by assumption))) rfl))
              · apply Hact
                exact Only.put [.car] (within_trans rfl hp) (ringEpoch_only (within_trans rfl hp) (by assumption)
                  (consumeUnnumbered_only (within_trans rfl hp) _ _ _ (by assumption))) rfl

theorem onFoldRecord_only {pts} {s0 s : State}
    (hp : within [.sqs, .slc, .pgm, .car, .mdl, .fab, .wei, .hif, .hlt, .status, .counters, .mem, .free] pts = true)
    (m) (h : Only pts s0 s) : Only pts s0 (onFoldRecord m s) := by
  unfold onFoldRecord
  try dsimp only
  refine ringIn_only (within_trans rfl hp) _ _ _ ?_ ?_
  · intro _ _ _ _ _
    split
    · assumption
    · split
      · exact raise_only (within_trans rfl hp) _ (by assumption)
      · refine swapCheck_only (within_trans rfl hp) ?_
        split
        · exact finishRingF_only (within_trans rfl hp) _ _ _ (answerEmpty_only (within_trans rfl hp) _ _
            (keepRing_only (within_trans rfl hp) _ _ (lateRing_only (within_trans rfl hp) _ _ (by assumption))))
        · exact answerEmpty_only (within_trans rfl hp) _ _ (keepRing_only (within_trans rfl hp) _ _ (lateRing_only
            (within_trans rfl hp) _ _ (by assumption)))
  · assumption

theorem onProbe_only {pts} {s0 s : State}
    (hp : within [.sqs, .slc, .pgm, .car, .mdl, .fab, .wei, .hif, .hlt, .status, .counters, .mem, .free] pts = true)
    (m) (h : Only pts s0 s) : Only pts s0 (onProbe m s) := by
  unfold onProbe
  try dsimp only
  refine ringIn_only (within_trans rfl hp) _ _ _ ?_ ?_
  · intro _ _ _ _ _
    split
    · assumption
    · split
      · exact raise_only (within_trans rfl hp) _ (by assumption)
      · split
        · assumption
        · exact swapCheck_only (within_trans rfl hp) (answerEmpty_only (within_trans rfl hp) _ _ (keepRing_only
            (within_trans rfl hp) _ _ (Only.put [.car] (within_trans rfl hp) (lateRing_only
            (within_trans rfl hp) _ _ (by assumption)) rfl)))
  · assumption

theorem onRingBlock_only {pts} {s0 s : State}
    (hp : within [.sqs, .cmp, .car, .mdl, .fab, .wei, .hif, .hlt, .status, .counters, .mem, .free] pts = true) (m)
    (h : Only pts s0 s) : Only pts s0 (onRingBlock m s) := by
  unfold onRingBlock
  try dsimp only
  refine ringIn_only (within_trans rfl hp) _ _ _ ?_ ?_
  · intro _ _ _ _ _
    split
    · exact blockDamaged_only (within_trans rfl hp) _ _ (by assumption)
    · exact swapCheck_only (within_trans rfl hp) (forwardBlocks_only (within_trans rfl hp) _ _ (keepRing_only
        (within_trans rfl hp) _ _ (lateRing_only (within_trans rfl hp) _ _ (by assumption))))
  · assumption

theorem sendOwn_only {pts} {s0 s : State} (hp : within [.sqs, .fab, .wei, .hlt] pts = true) (slot) (l) (h :
    Only pts s0 s) : Only pts s0 (sendOwn slot l s) := by
  unfold sendOwn
  try dsimp only
  split
  · assumption
  · split
    · assumption
    · refine Only.foldl (fun _ _ _ => ?_) ?_
      · split
        · assumption
        · exact updLayer_only (within_trans rfl hp) _ _ _ (sendRing_only (within_trans rfl hp) _ _ _ _ _ _ _
            (by assumption))
      · assumption

theorem addDelay_only {pts} {s0 s : State} (hp : within [.mdl] pts = true) (context) (ns) (h : Only pts s0 s) :
    Only pts s0 (addDelay context ns s) := by
  unfold addDelay
  try dsimp only
  exact Only.put [.mdl] (within_trans rfl hp) (by assumption) rfl

theorem chargeFetch_only {pts} {s0 s : State} (hp : within [.hif, .hlt, .status] pts = true) (c) (n) (h :
    Only pts s0 s) : Only pts s0 (chargeFetch c n s) := by
  unfold chargeFetch
  try dsimp only
  split
  · exact charge_only (within_trans rfl hp) _ _ _ (by assumption)
  · exact charge_only (within_trans rfl hp) _ _ _ (by assumption)

theorem pullItems_only {pts} {s0 s : State} (hp : within [.car] pts = true) (e_) (h : Only pts s0 s) : Only pts s0
    (pullItems e_ s) := by
  unfold pullItems
  try dsimp only
  exact Only.put [.car] (within_trans rfl hp) (by assumption) rfl

theorem deferSeq_only {pts} {s0 s : State}
    (hp : within [.sqs, .car, .hif, .hlt, .status, .counters, .mem] pts = true) (slot) (e_) (h :
    Only pts s0 s) : Only pts s0 (deferSeq slot e_ s) := by
  unfold deferSeq
  try dsimp only
  exact disposition_only (within_trans rfl hp) _ _ _ _ (raise_only (within_trans rfl hp) _ (bump_only
    (within_trans rfl hp) _ _ (updSeq_only (within_trans rfl hp) _ _ (pullItems_only (within_trans rfl hp) _
    (by assumption)))))

theorem setLoad_only {pts} {s0 s : State} (hp : within [.mdl] pts = true) (key) (l) (h : Only pts s0 s) :
    Only pts s0 (setLoad key l s) := by
  unfold setLoad
  try dsimp only
  exact Only.put [.mdl] (within_trans rfl hp) (by assumption) rfl

theorem deferFor_only {pts} {s0 s : State}
    (hp : within [.sqs, .car, .mdl, .hif, .hlt, .status, .counters, .mem] pts = true) (before) (context) (key)
    (overrun) (h : Only pts s0 s) : Only pts s0 (deferFor before context key overrun s) := by
  unfold deferFor
  try dsimp only
  split
  · refine setLoad_only (within_trans rfl hp) _ _ ?_
    refine Only.foldl (fun _ _ _ => ?_) ?_
    · exact deferSeq_only (within_trans rfl hp) _ _ (by assumption)
    · assumption
  · refine Only.foldl (fun _ _ _ => ?_) ?_
    · exact deferSeq_only (within_trans rfl hp) _ _ (by assumption)
    · assumption

theorem renewAdapters_only {pts} {s0 s : State} (hp : within [.mdl] pts = true) (ps) (h : Only pts s0 s) :
    Only pts s0 (renewAdapters ps s) := by
  unfold renewAdapters
  try dsimp only
  exact Only.put [.mdl] (within_trans rfl hp) (by assumption) rfl

theorem takeFetch_only {pts} {s0 s : State} (hp : within [.cmp, .mdl, .hif, .hlt, .status, .counters] pts = true)
    (ci) (layer) (c) (l) (h : Only pts s0 s) : Only pts s0 (takeFetch ci layer c l s).2 := by
  unfold takeFetch
  try dsimp only
  split
  · dsimp only
    exact addFault_only (within_trans rfl hp) _ (raise_only (within_trans rfl hp) _ (by assumption))
  · dsimp only
    refine Only.put [.mdl] (within_trans rfl hp) ?_ rfl
    refine raiseIf_only (within_trans rfl hp) _ _ ?_
    refine renewAdapters_only (within_trans rfl hp) _ ?_
    refine Only.foldl (fun _ _ _ => ?_) ?_
    · refine Only.foldl (fun _ _ _ => ?_) ?_
      · exact blockDamaged_only (within_trans rfl hp) _ _ (by assumption)
      · assumption
    · assumption

theorem fetched_only {pts} {s0 s : State}
    (hp : within [.tir, .cmp, .mdl, .hif, .hlt, .status, .counters, .free] pts = true) (t) (key) (c) (l) (late)
    (h : Only pts s0 s) : Only pts s0 (fetched t key c l late s) := by
  unfold fetched
  try dsimp only
  split
  · exact takeFetch_only (within_trans rfl hp) _ _ _ _ (chargeFetch_only (within_trans rfl hp) _ _ (by assumption))
  · refine swapCheck_only (within_trans rfl hp) ?_
    refine setLoad_only (within_trans rfl hp) _ _ ?_
    refine Only.put [.mdl] (within_trans rfl hp) ?_ rfl
    refine addDelay_only (within_trans rfl hp) _ _ ?_
    split
    · exact noteLines_only (within_trans rfl hp) _ _ (takeFetch_only (within_trans rfl hp) _ _ _ _ (chargeFetch_only
        (within_trans rfl hp) _ _ (by assumption)))
    · exact takeFetch_only (within_trans rfl hp) _ _ _ _ (chargeFetch_only (within_trans rfl hp) _ _ (by assumption))

theorem execPrefetchComplete_only {pts} {s0 s : State} {t}
    (hp : within [.tir, .cmp, .mdl, .hif, .hlt, .status, .counters, .free] pts = true) {slot}
    (e : execPrefetchComplete slot s = .next t) (h : Only pts s0 s) : Only pts s0 t := by
  unfold execPrefetchComplete at e
  try dsimp only at e
  split at e
  · injection e with e
    subst e
    assumption
  · split at e
    · split at e
      · injection e with e
        subst e
        exact fetched_only (within_trans rfl hp) _ _ _ _ _ (by assumption)
      · injection e with e
        subst e
        exact fetched_only (within_trans rfl hp) _ _ _ _ _ (by assumption)
      · injection e with e
        subst e
        assumption
    · injection e with e
      subst e
      assumption

theorem execPrefetchDeadline_only {pts} {s0 s : State} {t}
    (hp : within [.tmu, .mdl, .hif, .hlt, .status, .counters, .mem] pts = true) {slot}
    (e : execPrefetchDeadline slot s = .next t) (h : Only pts s0 s) : Only pts s0 t := by
  unfold execPrefetchDeadline at e
  try dsimp only at e
  split at e
  · injection e with e
    subst e
    assumption
  · split at e
    · injection e with e
      subst e
      exact disposition_only (within_trans rfl hp) _ _ _ _ (raise_only (within_trans rfl hp) _ (bump_only
        (within_trans rfl hp) _ _ (setLoad_only (within_trans rfl hp) _ _ (setNow_only (within_trans rfl hp) _
        (by assumption)))))
    · injection e with e
      subst e
      assumption

theorem execPrefetchIssue_only {pts} {s0 s : State} {t} (hp : within [.tmu, .mdl] pts = true) {slot}
    (e : execPrefetchIssue slot s = .next t) (h : Only pts s0 s) : Only pts s0 t := by
  unfold execPrefetchIssue at e
  try dsimp only at e
  split at e
  · injection e with e
    subst e
    assumption
  · injection e with e
    subst e
    split
    · exact setLoad_only (within_trans rfl hp) _ _ (setNow_only (within_trans rfl hp) _ (by assumption))
    · assumption

theorem execSlackExhausted_only {pts} {s0 s : State} {t}
    (hp : within [.tmu, .sqs, .tir, .car, .mdl, .hif, .hlt, .status, .counters, .mem, .free] pts = true)
    {slot remaining} (e : execSlackExhausted slot remaining s = .next t) (h : Only pts s0 s) : Only pts s0 t := by
  unfold execSlackExhausted at e
  try dsimp only at e
  split at e
  · injection e with e
    subst e
    assumption
  · split at e
    · injection e with e
      subst e
      refine swapCheck_only (within_trans rfl hp) ?_
      split
      · split
        · exact setLoad_only (within_trans rfl hp) _ _ (addDelay_only (within_trans rfl hp) _ _ (Only.put [.mdl]
            (within_trans rfl hp) (raise_only (within_trans rfl hp) _ (bump_only (within_trans rfl hp) _ _
            (chargeFetch_only (within_trans rfl hp) _ _ (noteLines_only (within_trans rfl hp) _ _ (addDelay_only
            (within_trans rfl hp) _ _ (Only.put [.mdl] (within_trans rfl hp) (setNow_only (within_trans rfl hp) _
            (by assumption)) rfl)))))) rfl))
        · exact deferFor_only (within_trans rfl hp) _ _ _ _ (setLoad_only (within_trans rfl hp) _ _ (addDelay_only
            (within_trans rfl hp) _ _ (Only.put [.mdl] (within_trans rfl hp) (raise_only (within_trans rfl hp) _
            (bump_only (within_trans rfl hp) _ _ (chargeFetch_only (within_trans rfl hp) _ _ (noteLines_only
            (within_trans rfl hp) _ _ (addDelay_only (within_trans rfl hp) _ _ (Only.put [.mdl]
            (within_trans rfl hp) (setNow_only (within_trans rfl hp) _ (by assumption)) rfl)))))) rfl)))
      · split
        · exact setLoad_only (within_trans rfl hp) _ _ (addDelay_only (within_trans rfl hp) _ _ (Only.put [.mdl]
            (within_trans rfl hp) (raise_only (within_trans rfl hp) _ (bump_only (within_trans rfl hp) _ _
            (chargeFetch_only (within_trans rfl hp) _ _ (noteLines_only (within_trans rfl hp) _ _ (addDelay_only
            (within_trans rfl hp) _ _ (Only.put [.mdl] (within_trans rfl hp) (setNow_only (within_trans rfl hp) _
            (by assumption)) rfl)))))) rfl))
        · exact deferFor_only (within_trans rfl hp) _ _ _ _ (setLoad_only (within_trans rfl hp) _ _ (addDelay_only
            (within_trans rfl hp) _ _ (Only.put [.mdl] (within_trans rfl hp) (raise_only (within_trans rfl hp) _
            (bump_only (within_trans rfl hp) _ _ (chargeFetch_only (within_trans rfl hp) _ _ (noteLines_only
            (within_trans rfl hp) _ _ (addDelay_only (within_trans rfl hp) _ _ (Only.put [.mdl]
            (within_trans rfl hp) (setNow_only (within_trans rfl hp) _ (by assumption)) rfl)))))) rfl)))
    · injection e with e
      subst e
      assumption

theorem stageLayer_only {pts} {s0 s : State} (hp : within [.cmp, .mdl, .hif, .hlt, .status, .counters] pts = true)
    (ci) (h : Only pts s0 s) : Only pts s0 (stageLayer ci s) := by
  unfold stageLayer
  try dsimp only
  split
  · split
    · assumption
    · split
      · assumption
      · assumption
  · split
    · split
      · assumption
      · split
        · assumption
        · refine setLoad_only (within_trans rfl hp) _ _ ?_
          dsimp only
          assumption
    · split
      · assumption
      · split
        · assumption
        · refine setLoad_only (within_trans rfl hp) _ _ ?_
          split
          · split
            · dsimp only
              assumption
            · split
              · split
                · dsimp only
                  assumption
                · split
                  · dsimp only
                    assumption
                  · refine takeFetch_only (within_trans rfl hp) _ _ _ _ ?_
                    refine chargeFetch_only (within_trans rfl hp) _ _ ?_
                    dsimp only
                    assumption
              · split
                · refine takeFetch_only (within_trans rfl hp) _ _ _ _ ?_
                  refine chargeFetch_only (within_trans rfl hp) _ _ ?_
                  dsimp only
                  assumption
                · split
                  · refine takeFetch_only (within_trans rfl hp) _ _ _ _ ?_
                    refine chargeFetch_only (within_trans rfl hp) _ _ ?_
                    dsimp only
                    assumption
                  · refine takeFetch_only (within_trans rfl hp) _ _ _ _ ?_
                    refine chargeFetch_only (within_trans rfl hp) _ _ ?_
                    refine takeFetch_only (within_trans rfl hp) _ _ _ _ ?_
                    refine chargeFetch_only (within_trans rfl hp) _ _ ?_
                    dsimp only
                    assumption
          · split
            · exact takeFetch_only (within_trans rfl hp) _ _ _ _ (chargeFetch_only (within_trans rfl hp) _ _
                (by assumption))
            · split
              · split
                · exact takeFetch_only (within_trans rfl hp) _ _ _ _ (chargeFetch_only (within_trans rfl hp) _ _
                    (by assumption))
                · split
                  · exact takeFetch_only (within_trans rfl hp) _ _ _ _ (chargeFetch_only (within_trans rfl hp) _ _
                      (by assumption))
                  · exact takeFetch_only (within_trans rfl hp) _ _ _ _ (chargeFetch_only (within_trans rfl hp) _ _
                      (takeFetch_only (within_trans rfl hp) _ _ _ _ (chargeFetch_only (within_trans rfl hp) _ _
                      (by assumption))))
              · split
                · exact takeFetch_only (within_trans rfl hp) _ _ _ _ (chargeFetch_only (within_trans rfl hp) _ _
                    (takeFetch_only (within_trans rfl hp) _ _ _ _ (chargeFetch_only (within_trans rfl hp) _ _
                    (by assumption))))
                · split
                  · exact takeFetch_only (within_trans rfl hp) _ _ _ _ (chargeFetch_only (within_trans rfl hp) _ _
                      (takeFetch_only (within_trans rfl hp) _ _ _ _ (chargeFetch_only (within_trans rfl hp) _ _
                      (by assumption))))
                  · exact takeFetch_only (within_trans rfl hp) _ _ _ _ (chargeFetch_only (within_trans rfl hp) _ _
                      (takeFetch_only (within_trans rfl hp) _ _ _ _ (chargeFetch_only (within_trans rfl hp) _ _
                      (takeFetch_only (within_trans rfl hp) _ _ _ _ (chargeFetch_only (within_trans rfl hp) _ _
                      (by assumption))))))

theorem stageNext_only {pts} {s0 s : State} (hp : within [.cmp, .mdl, .hif, .hlt, .status, .counters] pts = true)
    (t) (h : Only pts s0 s) : Only pts s0 (stageNext t s) := by
  unfold stageNext
  try dsimp only
  split
  · split
    · exact stageLayer_only (within_trans rfl hp) _ (by assumption)
    · assumption
  · assumption

theorem placeWaitingRow_only {pts} {s0 s : State}
    (hp : within [.sqs, .slc, .pgm, .car, .fab, .wei, .hif, .hlt, .status, .counters, .free] pts = true) (c) (r)
    (h : Only pts s0 s) : Only pts s0 (placeWaitingRow c r s) := by
  unfold placeWaitingRow
  try dsimp only
  split
  · assumption
  · split
    · exact placeStaged_only (within_trans rfl hp) _ _ _ _ (by assumption)
    · exact placeDecode_only (within_trans rfl hp) _ _ _ _ (by assumption)

theorem placeWaiting_only {pts} {s0 s : State}
    (hp : within [.sqs, .slc, .pgm, .car, .fab, .wei, .hif, .hlt, .status, .counters, .free] pts = true) (t)
    (h : Only pts s0 s) : Only pts s0 (placeWaiting t s) := by
  unfold placeWaiting
  try dsimp only
  split
  · assumption
  · refine Only.foldl (fun _ _ _ => ?_) ?_
    · exact placeWaitingRow_only (within_trans rfl hp) _ _ (by assumption)
    · assumption

theorem execSlotOpen_only {pts} {s0 s : State} {t}
    (hp : within [.tmu, .sqs, .slc, .pgm, .cmp, .car, .mdl, .fab, .wei, .hif, .hlt, .status, .counters,
      .free] pts = true) {slot} (e : execSlotOpen slot s = .next t) (h : Only pts s0 s) : Only pts s0 t := by
  unfold execSlotOpen at e
  try dsimp only at e
  split at e
  · injection e with e
    subst e
    assumption
  · injection e with e
    subst e
    split
    · exact swapCheck_only (within_trans rfl hp) (stageNext_only (within_trans rfl hp) _ (placeWaiting_only
        (within_trans rfl hp) _ (Only.put [.tmu] (within_trans rfl hp) (setNow_only (within_trans rfl hp) _
        (by assumption)) rfl)))
    · assumption

theorem stageFirst_only {pts} {s0 s : State} (hp : within [.cmp, .mdl, .hif, .hlt, .status, .counters] pts = true)
    (h : Only pts s0 s) : Only pts s0 (stageFirst s) := by
  unfold stageFirst
  try dsimp only
  refine Only.foldl (fun _ _ _ => ?_) ?_
  · exact stageLayer_only (within_trans rfl hp) _ (by assumption)
  · assumption

end Sys2Proof.Machine
end

