-- ==== Sys2Proof/Laws/PartsRings.lean ====
section
/-! SUPPORT. Which parts of the state each operation may change (Safety.Only): health, images,
    checkpoints and ring commands.
`f_only`: what `f` makes of a state differs from it in the parts listed alone. -/

namespace Sys2Proof.Machine

open Sys2Proof.Safety

theorem setCore_only {pts} {s0 s : State} (hp : within [.hlt] pts = true) (die) (phys) (c) (h :
    Only pts s0 s) : Only pts s0 (setCore die phys c s) := by
  unfold setCore
  try dsimp only
  exact Only.put [.hlt] (within_trans rfl hp) (by assumption) rfl

theorem updCore_only {pts} {s0 s : State} (hp : within [.hlt] pts = true) (die) (phys) (f) (h :
    Only pts s0 s) : Only pts s0 (updCore die phys f s) := by
  unfold updCore
  try dsimp only
  exact setCore_only (within_trans rfl hp) _ _ _ (by assumption)

theorem addScore_only {pts} {s0 s : State} (hp : within [.hlt] pts = true) (die) (phys) (n) (h :
    Only pts s0 s) : Only pts s0 (addScore die phys n s) := by
  unfold addScore
  try dsimp only
  exact updCore_only (within_trans rfl hp) _ _ _ (by assumption)

theorem carryItems_only {pts} {s0 s : State}
    (hp : within [.sqs, .car, .hif, .hlt, .status, .counters, .mem] pts = true) (items) (h : Only pts s0 s) :
    Only pts s0 (carryItems items s) := by
  unfold carryItems
  try dsimp only
  refine Only.foldl (fun _ _ _ => ?_) ?_
  · split
    · assumption
    · split
      · assumption
      · exact disposition_only (within_trans rfl hp) _ _ _ _ (pullItems_only (within_trans rfl hp) _ (updSeq_only
          (within_trans rfl hp) _ _ (by assumption)))
  · assumption

theorem chargeFault_only {pts} {s0 s : State} (hp : within [.hlt] pts = true) (phys) (temp) (h :
    Only pts s0 s) : Only pts s0 (chargeFault phys temp s) := by
  unfold chargeFault
  try dsimp only
  exact updCore_only (within_trans rfl hp) _ _ _ (by assumption)

theorem chargeShadow_only {pts} {s0 s : State} (hp : within [.hif, .hlt, .status, .free] pts = true) (h :
    Only pts s0 s) : Only pts s0 (chargeShadow s) := by
  unfold chargeShadow
  try dsimp only
  refine Only.foldl (fun _ _ _ => ?_) ?_
  · exact charge_only (within_trans rfl hp) _ _ _ (Only.put [.free] (within_trans rfl hp) (by assumption) rfl)
  · assumption

theorem chargeUnresolved_only {pts} {s0 s : State} (hp : within [.hlt] pts = true) (phys) (n) (h :
    Only pts s0 s) : Only pts s0 (chargeUnresolved phys n s) := by
  unfold chargeUnresolved
  try dsimp only
  exact updCore_only (within_trans rfl hp) _ _ _ (by assumption)

theorem setDie_only {pts} {s0 s : State} (hp : within [.hlt] pts = true) (d) (x) (h : Only pts s0 s) : Only pts s0
    (setDie d x s) := by
  unfold setDie
  try dsimp only
  exact Only.put [.hlt] (within_trans rfl hp) (by assumption) rfl

theorem quarantine_only {pts} {s0 s : State} (hp : within [.hif, .hlt, .stw, .status, .counters] pts = true) (die)
    (phys) (cause) (h : Only pts s0 s) : Only pts s0 (quarantine die phys cause s) := by
  unfold quarantine
  try dsimp only
  exact bump_only (within_trans rfl hp) _ _ (queueFlash_only (within_trans rfl hp) _ (setDie_only
    (within_trans rfl hp) _ _ (updCore_only (within_trans rfl hp) _ _ _ (by assumption))))

theorem expel_only {pts} {s0 s : State} (hp : within [.hif, .hlt, .stw, .status, .counters] pts = true) (die) (phys)
    (c) (h : Only pts s0 s) : Only pts s0 (expel die phys c s) := by
  unfold expel
  try dsimp only
  split
  · exact quarantine_only (within_trans rfl hp) _ _ _ (by assumption)
  · exact raiseIf_only (within_trans rfl hp) _ _ (setCore_only (within_trans rfl hp) _ _ _ (by assumption))

theorem coreAction_only {pts} {s0 s : State} (hp : within [.hif, .hlt, .stw, .status, .counters] pts = true) (die)
    (phys) (h : Only pts s0 s) : Only pts s0 (coreAction die phys s) := by
  unfold coreAction
  try dsimp only
  split
  · split
    · exact raise_only (within_trans rfl hp) _ (setCore_only (within_trans rfl hp) _ _ _ (by assumption))
    · assumption
  · split
    · exact setCore_only (within_trans rfl hp) _ _ _ (by assumption)
    · split
      · split
        · exact setCore_only (within_trans rfl hp) _ _ _ (by assumption)
        · assumption
      · exact expel_only (within_trans rfl hp) _ _ _ (by assumption)
  · assumption

theorem remapCore_only {pts} {s0 s : State} (hp : within [.hif, .hlt, .status] pts = true) (die) (l) (h :
    Only pts s0 s) : Only pts s0 (remapCore die l s) := by
  unfold remapCore
  try dsimp only
  split
  · assumption
  · split
    · exact raise_only (within_trans rfl hp) _ (updCore_only (within_trans rfl hp) _ _ _ (setDie_only
        (within_trans rfl hp) _ _ (by assumption)))
    · split
      · exact raise_only (within_trans rfl hp) _ (updCore_only (within_trans rfl hp) _ _ _ (setDie_only
          (within_trans rfl hp) _ _ (by assumption)))
      · exact raise_only (within_trans rfl hp) _ (setDie_only (within_trans rfl hp) _ _ (by assumption))

theorem coresAction_only {pts} {s0 s : State} (hp : within [.hif, .hlt, .stw, .status, .counters] pts = true)
    (h : Only pts s0 s) : Only pts s0 (coresAction s) := by
  unfold coresAction
  try dsimp only
  refine Only.foldl (fun _ _ _ => ?_) ?_
  · split
    · refine Only.foldl (fun _ _ _ => ?_) ?_
      · exact remapCore_only (within_trans rfl hp) _ _ (by assumption)
      · refine Only.foldl (fun _ _ _ => ?_) ?_
        · exact coreAction_only (within_trans rfl hp) _ _ (by assumption)
        · assumption
    · assumption
  · assumption

theorem coresOff_only {pts} {s0 s : State} (hp : within [.hlt] pts = true) (d) (h : Only pts s0 s) : Only pts s0
    (coresOff d s) := by
  unfold coresOff
  try dsimp only
  refine Only.foldl (fun _ _ _ => ?_) ?_
  · exact updCore_only (within_trans rfl hp) _ _ _ (by assumption)
  · assumption

theorem coresOn_only {pts} {s0 s : State} (hp : within [.hlt] pts = true) (d) (h : Only pts s0 s) : Only pts s0
    (coresOn d s) := by
  unfold coresOn
  try dsimp only
  refine Only.foldl (fun _ _ _ => ?_) ?_
  · exact updCore_only (within_trans rfl hp) _ _ _ (by assumption)
  · assumption

theorem enterDie_only {pts} {s0 s : State} (hp : within [.hif, .hlt, .status] pts = true) (d) (st) (h :
    Only pts s0 s) : Only pts s0 (enterDie d st s) := by
  unfold enterDie
  try dsimp only
  exact raise_only (within_trans rfl hp) _ (setDie_only (within_trans rfl hp) _ _ (by assumption))

theorem stopDie_only {pts} {s0 s : State}
    (hp : within [.sqs, .car, .hif, .hlt, .status, .counters, .mem] pts = true) (d) (st) (h : Only pts s0 s) :
    Only pts s0 (stopDie d st s) := by
  unfold stopDie
  try dsimp only
  refine coresOff_only (within_trans rfl hp) _ ?_
  refine enterDie_only (within_trans rfl hp) _ _ ?_
  split
  · assumption
  · exact carryItems_only (within_trans rfl hp) _ (by assumption)

theorem diesAction_only {pts} {s0 s : State}
    (hp : within [.sqs, .car, .hif, .hlt, .status, .counters, .mem] pts = true) (n) (h : Only pts s0 s) :
    Only pts s0 (diesAction n s) := by
  unfold diesAction
  try dsimp only
  refine Only.foldl (fun _ _ _ => ?_) ?_
  · split
    · split
      · exact stopDie_only (within_trans rfl hp) _ _ (by assumption)
      · assumption
    · split
      · exact coresOn_only (within_trans rfl hp) _ (enterDie_only (within_trans rfl hp) _ _ (by assumption))
      · assumption
    · assumption
  · assumption

theorem moveItem_only {pts} {s0 s : State} (hp : within [.car] pts = true) (i) (h : Only pts s0 s) : Only pts s0
    (moveItem i s) := by
  unfold moveItem
  try dsimp only
  split
  · assumption
  · exact Only.put [.car] (within_trans rfl hp) (by assumption) rfl

theorem discardItems_only {pts} {s0 s : State}
    (hp : within [.sqs, .car, .mdl, .hif, .hlt, .status, .counters, .mem] pts = true) (core) (h :
    Only pts s0 s) : Only pts s0 (discardItems core s) := by
  unfold discardItems
  try dsimp only
  split
  · assumption
  · split
    · exact carryItems_only (within_trans rfl hp) _ (by assumption)
    · refine Only.foldl (fun _ _ _ => ?_) ?_
      · exact moveItem_only (within_trans rfl hp) _ (by assumption)
      · exact Only.put [.mdl] (within_trans rfl hp) (by assumption) rfl

theorem doDrainDie_only {pts} {s0 s : State}
    (hp : within [.sqs, .car, .hif, .hlt, .status, .counters, .mem] pts = true) (t) (d) (force) (h :
    Only pts s0 s) : Only pts s0 (doDrainDie t d force s) := by
  unfold doDrainDie
  try dsimp only
  split
  · exact refusedWith_only (within_trans rfl hp) _ _ (by assumption)
  · split
    · exact refusedWith_only (within_trans rfl hp) _ _ (by assumption)
    · refine done_only (within_trans rfl hp) _ ?_
      split
      · exact stopDie_only (within_trans rfl hp) _ _ (by assumption)
      · exact enterDie_only (within_trans rfl hp) _ _ (by assumption)

theorem doReadmitDie_only {pts} {s0 s : State} (hp : within [.hif, .hlt, .status, .mem] pts = true) (t) (d)
    (h : Only pts s0 s) : Only pts s0 (doReadmitDie t d s) := by
  unfold doReadmitDie
  try dsimp only
  split
  · exact refusedWith_only (within_trans rfl hp) _ _ (by assumption)
  · split
    · exact done_only (within_trans rfl hp) _ (enterDie_only (within_trans rfl hp) _ _ (by assumption))
    · split
      · exact done_only (within_trans rfl hp) _ (enterDie_only (within_trans rfl hp) _ _ (by assumption))
      · exact refusedWith_only (within_trans rfl hp) _ _ (by assumption)
    · exact refusedWith_only (within_trans rfl hp) _ _ (by assumption)

theorem execCoreMemoryCe_only {pts} {s0 s : State} {t} (hp : within [.hif, .hlt, .status, .counters] pts = true)
    {die phys} (e : execCoreMemoryCe die phys s = .next t) (h : Only pts s0 s) : Only pts s0 t := by
  unfold execCoreMemoryCe at e
  try dsimp only at e
  injection e with e
  subst e
  split
  · exact addScore_only (within_trans rfl hp) _ _ _ (bump_only (within_trans rfl hp) _ _ (by assumption))
  · assumption

theorem hardFault_only {pts} {s0 s : State}
    (hp : within [.sqs, .car, .mdl, .hif, .hlt, .stw, .status, .counters, .mem, .free] pts = true) (die) (phys)
    (cause) (h : Only pts s0 s) : Only pts s0 (hardFault die phys cause s) := by
  unfold hardFault
  try dsimp only
  split
  · assumption
  · split
    · exact swapCheck_only (within_trans rfl hp) (discardItems_only (within_trans rfl hp) _ (raise_only
        (within_trans rfl hp) _ (quarantine_only (within_trans rfl hp) _ _ _ (updCore_only
        (within_trans rfl hp) _ _ _ (by assumption)))))
    · exact raise_only (within_trans rfl hp) _ (quarantine_only (within_trans rfl hp) _ _ _ (updCore_only
        (within_trans rfl hp) _ _ _ (by assumption)))

theorem execCoreMemoryUe_only {pts} {s0 s : State} {t}
    (hp : within [.sqs, .car, .mdl, .hif, .hlt, .stw, .status, .counters, .mem, .free] pts = true) {die phys}
    (e : execCoreMemoryUe die phys s = .next t) (h : Only pts s0 s) : Only pts s0 t := by
  unfold execCoreMemoryUe at e
  try dsimp only at e
  injection e with e
  subst e
  split
  · exact hardFault_only (within_trans rfl hp) _ _ _ (by assumption)
  · assumption

theorem linkFaults_only {pts} {s0 s : State} (hp : within [.hlt] pts = true) (h : Only pts s0 s) : Only pts s0
    (linkFaults s) := by
  unfold linkFaults
  try dsimp only
  refine Only.foldl (fun _ _ _ => ?_) ?_
  · split
    · exact dropFault_only (within_trans rfl hp) _ (by assumption)
    · exact addFault_only (within_trans rfl hp) _ (by assumption)
  · refine Only.foldl (fun _ _ _ => ?_) ?_
    · split
      · exact dropFault_only (within_trans rfl hp) _ (by assumption)
      · exact addFault_only (within_trans rfl hp) _ (by assumption)
    · assumption

theorem withdrawPort_only {pts} {s0 s : State} (hp : within [.fab, .wei, .hif, .status] pts = true) (p) (w)
    (h : Only pts s0 s) : Only pts s0 (withdrawPort p w s) := by
  unfold withdrawPort
  try dsimp only
  split
  · assumption
  · split
    · exact movePort_only (within_trans rfl hp) _ (raise_only (within_trans rfl hp) _ (setPort_only
        (within_trans rfl hp) _ _ (by assumption)))
    · exact raise_only (within_trans rfl hp) _ (setPort_only (within_trans rfl hp) _ _ (by assumption))

theorem linkConsequence_only {pts} {s0 s : State}
    (hp : within [.sqs, .car, .fab, .wei, .hif, .hlt, .status, .counters, .mem] pts = true) (l) (h :
    Only pts s0 s) : Only pts s0 (linkConsequence l s) := by
  unfold linkConsequence
  try dsimp only
  split
  · split
    · exact linkFaults_only (within_trans rfl hp) (by assumption)
    · split
      · exact linkFaults_only (within_trans rfl hp) (by assumption)
      · exact linkFaults_only (within_trans rfl hp) (by assumption)
      · exact stopDie_only (within_trans rfl hp) _ _ (linkFaults_only (within_trans rfl hp) (by assumption))
  · split
    · exact withdrawPort_only (within_trans rfl hp) _ _ (withdrawPort_only (within_trans rfl hp) _ _
        (linkFaults_only (within_trans rfl hp) (by assumption)))
    · exact linkFaults_only (within_trans rfl hp) (by assumption)

theorem setLink_only {pts} {s0 s : State} (hp : within [.hlt] pts = true) (l) (st) (h : Only pts s0 s) : Only pts s0
    (setLink l st s) := by
  unfold setLink
  try dsimp only
  exact Only.put [.hlt] (within_trans rfl hp) (by assumption) rfl

theorem execD2dLinkFailure_only {pts} {s0 s : State} {t}
    (hp : within [.sqs, .car, .fab, .wei, .hif, .hlt, .status, .counters, .mem] pts = true) {link down}
    (e : execD2dLinkFailure link down s = .next t) (h : Only pts s0 s) : Only pts s0 t := by
  unfold execD2dLinkFailure at e
  try dsimp only at e
  injection e with e
  subst e
  split
  · exact linkConsequence_only (within_trans rfl hp) _ (raise_only (within_trans rfl hp) _ (setLink_only
      (within_trans rfl hp) _ _ (by assumption)))
  · assumption

theorem execHourTick_only {pts} {s0 s : State} {t}
    (hp : within [.tmu, .sqs, .car, .mdl, .hif, .hlt, .stw, .status, .counters, .mem, .free] pts = true) {failed}
    (e : execHourTick failed s = .next t) (h : Only pts s0 s) : Only pts s0 t := by
  unfold execHourTick at e
  try dsimp only at e
  split at e
  · injection e with e
    subst e
    refine Only.foldl (fun _ _ _ => ?_) ?_
    · exact hardFault_only (within_trans rfl hp) _ _ _ (by assumption)
    · exact Only.put [.hlt] (within_trans rfl hp) (setNow_only (within_trans rfl hp) _ (by assumption)) rfl
  · injection e with e
    subst e
    assumption

theorem execItemOverrun_only {pts} {s0 s : State} {t}
    (hp : within [.sqs, .car, .mdl, .hif, .hlt, .stw, .status, .counters, .mem, .free] pts = true) {die phys}
    (e : execItemOverrun die phys s = .next t) (h : Only pts s0 s) : Only pts s0 t := by
  unfold execItemOverrun at e
  try dsimp only at e
  injection e with e
  subst e
  split
  · exact hardFault_only (within_trans rfl hp) _ _ _ (by assumption)
  · assumption

theorem execLaneRepair_only {pts} {s0 s : State} {t}
    (hp : within [.sqs, .car, .fab, .wei, .hif, .hlt, .status, .counters, .mem] pts = true) {link}
    (e : execLaneRepair link s = .next t) (h : Only pts s0 s) : Only pts s0 t := by
  unfold execLaneRepair at e
  try dsimp only at e
  injection e with e
  subst e
  split
  · exact linkConsequence_only (within_trans rfl hp) _ (setLink_only (within_trans rfl hp) _ _ (by assumption))
  · assumption

theorem settleMismatch_only {pts} {s0 s : State} (hp : within [.hif, .hlt, .status, .mem] pts = true) (m) (ref)
    (h : Only pts s0 s) : Only pts s0 (settleMismatch m ref s) := by
  unfold settleMismatch
  try dsimp only
  refine Only.put [.hlt] (within_trans rfl hp) ?_ rfl
  refine writeMem_only (within_trans rfl hp) _ _ ?_
  split
  · split
    · exact chargeFault_only (within_trans rfl hp) _ _ (by assumption)
    · split
      · exact chargeFault_only (within_trans rfl hp) _ _ (by assumption)
      · split
        · exact raise_only (within_trans rfl hp) _ (chargeUnresolved_only (within_trans rfl hp) _ _
            (chargeUnresolved_only (within_trans rfl hp) _ _ (by assumption)))
        · exact chargeUnresolved_only (within_trans rfl hp) _ _ (chargeUnresolved_only (within_trans rfl hp) _ _
            (by assumption))
  · split
    · split
      · exact chargeFault_only (within_trans rfl hp) _ _ (by assumption)
      · split
        · exact chargeFault_only (within_trans rfl hp) _ _ (by assumption)
        · split
          · exact raise_only (within_trans rfl hp) _ (chargeUnresolved_only (within_trans rfl hp) _ _
              (chargeUnresolved_only (within_trans rfl hp) _ _ (by assumption)))
          · exact chargeUnresolved_only (within_trans rfl hp) _ _ (chargeUnresolved_only (within_trans rfl hp) _ _
              (by assumption))
    · split
      · split
        · exact chargeFault_only (within_trans rfl hp) _ _ (by assumption)
        · split
          · exact chargeFault_only (within_trans rfl hp) _ _ (by assumption)
          · split
            · exact raise_only (within_trans rfl hp) _ (chargeUnresolved_only (within_trans rfl hp) _ _
                (chargeUnresolved_only (within_trans rfl hp) _ _ (by assumption)))
            · exact chargeUnresolved_only (within_trans rfl hp) _ _ (chargeUnresolved_only (within_trans rfl hp) _ _
                (by assumption))
      · split
        · exact chargeFault_only (within_trans rfl hp) _ _ (by assumption)
        · split
          · exact chargeFault_only (within_trans rfl hp) _ _ (by assumption)
          · split
            · exact raise_only (within_trans rfl hp) _ (chargeUnresolved_only (within_trans rfl hp) _ _
                (chargeUnresolved_only (within_trans rfl hp) _ _ (by assumption)))
            · exact chargeUnresolved_only (within_trans rfl hp) _ _ (chargeUnresolved_only (within_trans rfl hp) _ _
                (by assumption))

theorem execRefereeComplete_only {pts} {s0 s : State} {t}
    (hp : within [.hif, .hlt, .status, .mem, .free] pts = true) {mismatch result}
    (e : execRefereeComplete mismatch result s = .next t) (h : Only pts s0 s) : Only pts s0 t := by
  unfold execRefereeComplete at e
  try dsimp only at e
  split at e
  · injection e with e
    subst e
    assumption
  · injection e with e
    subst e
    split
    · refine settleMismatch_only (within_trans rfl hp) _ _ ?_
      split
      · exact chargeShadow_only (within_trans rfl hp) (by assumption)
      · assumption
    · assumption

theorem execSelfCheckComplete_only {pts} {s0 s : State} {t}
    (hp : within [.hif, .hlt, .stw, .status, .counters] pts = true) {die failed}
    (e : execSelfCheckComplete die failed s = .next t) (h : Only pts s0 s) : Only pts s0 t := by
  unfold execSelfCheckComplete at e
  try dsimp only at e
  split at e
  · injection e with e
    subst e
    refine setDie_only (within_trans rfl hp) _ _ ?_
    refine Only.foldl (fun _ _ _ => ?_) ?_
    · split
      · assumption
      · exact raise_only (within_trans rfl hp) _ (quarantine_only (within_trans rfl hp) _ _ _ (updCore_only
          (within_trans rfl hp) _ _ _ (by assumption)))
    · assumption
  · injection e with e
    subst e
    assumption

theorem mismatch_only {pts} {s0 s : State} (hp : within [.hif, .hlt, .status, .counters, .mem] pts = true) (i)
    (shadowOn) (prim) (shadow) (sensors) (h : Only pts s0 s) : Only pts s0
    (mismatch i shadowOn prim shadow sensors s) := by
  unfold mismatch
  try dsimp only
  split
  · exact settleMismatch_only (within_trans rfl hp) _ _ (Only.put [.hlt] (within_trans rfl hp) (raise_only
      (within_trans rfl hp) _ (bump_only (within_trans rfl hp) _ _ (by assumption))) rfl)
  · exact Only.put [.hlt] (within_trans rfl hp) (raise_only (within_trans rfl hp) _ (bump_only
      (within_trans rfl hp) _ _ (by assumption))) rfl

theorem execShadowComplete_only {pts} {s0 s : State} {t}
    (hp : within [.pgm, .car, .hif, .hlt, .status, .counters, .mem, .free] pts = true) {item prim shadow sensors}
    (e : execShadowComplete item prim shadow sensors s = .next t) (h : Only pts s0 s) : Only pts s0 t := by
  unfold execShadowComplete at e
  try dsimp only at e
  split at e
  · injection e with e
    subst e
    assumption
  · split at e
    · injection e with e
      subst e
      assumption
    · injection e with e
      subst e
      split
      · split
        · exact decRef_only (within_trans rfl hp) _ (Only.put [.car, .hlt] (within_trans rfl hp) (wEvent_only
            (within_trans rfl hp) _ _ _ _ (chargeShadow_only (within_trans rfl hp) (by assumption))) rfl)
        · exact Only.put [.car, .hlt] (within_trans rfl hp) (wEvent_only (within_trans rfl hp) _ _ _ _
            (chargeShadow_only (within_trans rfl hp) (by assumption))) rfl
      · refine mismatch_only (within_trans rfl hp) _ _ _ _ _ ?_
        split
        · exact decRef_only (within_trans rfl hp) _ (Only.put [.car, .hlt] (within_trans rfl hp) (wEvent_only
            (within_trans rfl hp) _ _ _ _ (chargeShadow_only (within_trans rfl hp) (by assumption))) rfl)
        · exact Only.put [.car, .hlt] (within_trans rfl hp) (wEvent_only (within_trans rfl hp) _ _ _ _
            (chargeShadow_only (within_trans rfl hp) (by assumption))) rfl

theorem logEvent_only {pts} {s0 s : State} (hp : within [.sec] pts = true) (code) (digest) (h : Only pts s0 s) :
    Only pts s0 (logEvent code digest s) :=
  Only.put [.sec] (within_trans rfl hp) h rfl

theorem doCommitSvn_only {pts} {s0 s : State} (hp : within [.hif, .sec, .mem] pts = true) (t) (h : Only pts s0 s) :
    Only pts s0 (doCommitSvn t s) := by
  unfold doCommitSvn
  split
  · exact done_only (within_trans rfl hp) _ (logEvent_only (within_trans rfl hp) _ _ (Only.put [.sec]
    (within_trans rfl hp) h rfl))
  · exact refusedWith_only (within_trans rfl hp) _ _ h

theorem doStageImage_only {pts} {s0 s : State} (hp : within [.hif, .sec, .mem] pts = true) (t) (h_) (bytes)
    (h : Only pts s0 s) : Only pts s0 (doStageImage t h_ bytes s) := by
  unfold doStageImage
  try dsimp only
  split
  · exact refusedWith_only (within_trans rfl hp) _ _ (by assumption)
  · exact Only.put [.sec] (within_trans rfl hp) (by assumption) rfl

theorem doSwitchImage_only {pts} {s0 s : State} (hp : within [.hif, .sec, .mem] pts = true) (t) (h :
    Only pts s0 s) : Only pts s0 (doSwitchImage t s) := by
  unfold doSwitchImage
  try dsimp only
  split
  · exact Only.put [.sec] (within_trans rfl hp) (by assumption) rfl
  · exact refusedWith_only (within_trans rfl hp) _ _ (by assumption)

theorem updateDone_only {pts} {s0 s : State} (hp : within [.sec] pts = true) (f)
    (Hf : ∀ a0 a1, Only pts s0 a1 → Only pts s0 (f a0 a1)) (h : Only pts s0 s) : Only pts s0 (updateDone f s) := by
  unfold updateDone
  try dsimp only
  split
  · assumption
  · apply Hf
    exact Only.put [.sec] (within_trans rfl hp) (by assumption) rfl

theorem execFirmwareSwitchComplete_only {pts} {s0 s : State} {t}
    (hp : within [.hif, .sec, .stw, .status, .mem] pts = true) (e : execFirmwareSwitchComplete s = .next t)
    (h : Only pts s0 s) : Only pts s0 t := by
  unfold execFirmwareSwitchComplete at e
  try dsimp only at e
  split at e
  · injection e with e
    subst e
    refine queueFlash_only (within_trans rfl hp) _ ?_
    refine updateDone_only (within_trans rfl hp) _ ?_ ?_
    · intro _ _ _
      exact done_only (within_trans rfl hp) _ (by assumption)
    · exact raise_only (within_trans rfl hp) _ (logEvent_only (within_trans rfl hp) _ _ (Only.put [.sec]
        (within_trans rfl hp) (by assumption) rfl))
  · injection e with e
    subst e
    assumption

theorem execFlashWriteComplete_only {pts} {s0 s : State} {t}
    (hp : within [.hif, .sec, .stw, .status, .free] pts = true) {ok} (e : execFlashWriteComplete ok s = .next t)
    (h : Only pts s0 s) : Only pts s0 t := by
  unfold execFlashWriteComplete at e
  try dsimp only at e
  split at e
  · split at e
    · injection e with e
      subst e
      assumption
    · split at e
      · injection e with e
        subst e
        split
        · exact raise_only (within_trans rfl hp) _ (popFlash_only (within_trans rfl hp) (writeFlash_only
            (within_trans rfl hp) _ _ (by assumption)))
        · exact Only.put [.sec] (within_trans rfl hp) (popFlash_only (within_trans rfl hp) (writeFlash_only
            (within_trans rfl hp) _ _ (by assumption))) rfl
      · injection e with e
        subst e
        exact Only.put [.sec] (within_trans rfl hp) (popFlash_only (within_trans rfl hp) (breakFlash_only
          (within_trans rfl hp) _ (by assumption))) rfl
  · injection e with e
    subst e
    assumption

theorem refuseImage_only {pts} {s0 s : State} (hp : within [.hif, .sec, .status] pts = true) (cause) (h :
    Only pts s0 s) : Only pts s0 (refuseImage cause s) := by
  unfold refuseImage
  try dsimp only
  exact raise_only (within_trans rfl hp) _ (Only.put [.sec] (within_trans rfl hp) (by assumption) rfl)

theorem execImageVerifyComplete_only {pts} {s0 s : State} {t}
    (hp : within [.hif, .sec, .status, .mem, .free] pts = true) {sigOk}
    (e : execImageVerifyComplete sigOk s = .next t) (h : Only pts s0 s) : Only pts s0 t := by
  unfold execImageVerifyComplete at e
  try dsimp only at e
  split at e
  · split at e
    · injection e with e
      subst e
      refine updateDone_only (within_trans rfl hp) _ ?_ ?_
      · intro _ _ _
        exact done_only (within_trans rfl hp) _ (by assumption)
      · exact Only.put [.sec] (within_trans rfl hp) (by assumption) rfl
    · injection e with e
      subst e
      refine updateDone_only (within_trans rfl hp) _ ?_ ?_
      · intro _ _ _
        exact refusedWith_only (within_trans rfl hp) _ _ (by assumption)
      · exact refuseImage_only (within_trans rfl hp) _ (Only.put [.sec] (within_trans rfl hp) (freeBelow_only
          (within_trans rfl hp) _ (by assumption)) rfl)
  · injection e with e
    subst e
    assumption

theorem execStagedImageTimeout_only {pts} {s0 s : State} {t} (hp : within [.tmu, .sec] pts = true)
    (e : execStagedImageTimeout s = .next t) (h : Only pts s0 s) : Only pts s0 t := by
  unfold execStagedImageTimeout at e
  try dsimp only at e
  split at e
  · injection e with e
    subst e
    exact setNow_only (within_trans rfl hp) _ (Only.put [.sec] (within_trans rfl hp) (by assumption) rfl)
  · injection e with e
    subst e
    assumption

theorem putCkpt_only {pts} {s0 s : State} (hp : within [.hlt, .mem] pts = true) (n) (r) (h : Only pts s0 s) :
    Only pts s0 (putCkpt n r s) := by
  unfold putCkpt
  try dsimp only
  exact Only.put [.hlt] (within_trans rfl hp) (ringWrite_only (within_trans rfl hp) _ _ _ _ (by assumption)) rfl

theorem checkpointDike_only {pts} {s0 s : State} (hp : within [.hif, .hlt, .status, .counters, .mem] pts = true) (n)
    (d) (h : Only pts s0 s) : Only pts s0 (checkpointDike n d s) := by
  unfold checkpointDike
  try dsimp only
  split
  · exact raise_only (within_trans rfl hp) _ (bump_only (within_trans rfl hp) _ _ (Only.put [.hlt]
      (within_trans rfl hp) (by assumption) rfl))
  · refine Only.foldl (fun _ _ _ => ?_) ?_
    · exact Only.put [.hlt] (within_trans rfl hp) (putCkpt_only (within_trans rfl hp) _ _ (by assumption)) rfl
    · exact Only.put [.hlt] (within_trans rfl hp) (by assumption) rfl

theorem flushOwed_only {pts} {s0 x2 : State} (hp : within [.hlt, .mem] pts = true) (n) (x1) (h :
    Only pts s0 x2) : Only pts s0 (flushOwed n x1 x2) := by
  induction x1 generalizing x2 with
  | nil =>
    unfold flushOwed
    try dsimp only
    assumption
  | cons a l ih =>
    unfold flushOwed
    try dsimp only
    split
    · apply ih
      exact putCkpt_only (within_trans rfl hp) _ _ (Only.put [.hlt] (within_trans rfl hp) (by assumption) rfl)
    · assumption

theorem checkpoints_only {pts} {s0 s : State} (hp : within [.pgm, .hif, .hlt, .status, .counters, .mem] pts = true)
    (n) (h : Only pts s0 s) : Only pts s0 (checkpoints n s) := by
  unfold checkpoints
  try dsimp only
  refine Only.foldl (fun _ _ _ => ?_) ?_
  · split
    · exact checkpointDike_only (within_trans rfl hp) _ _ (checkpointObjects_only (within_trans rfl hp) _
        (Only.put [.hlt] (within_trans rfl hp) (by assumption) rfl))
    · split
      · exact checkpointDike_only (within_trans rfl hp) _ _ (by assumption)
      · assumption
  · exact flushOwed_only (within_trans rfl hp) _ _ (by assumption)

theorem oweCkpt_only {pts} {s0 s : State} (hp : within [.hlt] pts = true) (r) (h : Only pts s0 s) : Only pts s0
    (oweCkpt r s) := by
  unfold oweCkpt
  try dsimp only
  exact Only.put [.hlt] (within_trans rfl hp) (by assumption) rfl

theorem setWire_only {pts} {s0 s : State} (hp : within [.sec] pts = true) (d) (w) (h : Only pts s0 s) : Only pts s0
    (setWire d w s) := by
  unfold setWire
  try dsimp only
  exact Only.put [.sec] (within_trans rfl hp) (by assumption) rfl

theorem installWire_only {pts} {s0 s : State} (hp : within [.fab, .sec] pts = true) (d) (v) (key) (h :
    Only pts s0 s) : Only pts s0 (installWire d v key s) := by
  unfold installWire
  try dsimp only
  exact Only.put [.fab] (within_trans rfl hp) (setWire_only (within_trans rfl hp) _ _ (by assumption)) rfl

theorem applyBlob_only {pts} {s0 s : State} (hp : within [.fab, .sec] pts = true) (b) (key) (port) (h :
    Only pts s0 s) : Only pts s0 (applyBlob b key port s) := by
  unfold applyBlob
  try dsimp only
  split
  · exact Only.put [.sec] (within_trans rfl hp) (by assumption) rfl
  · exact installWire_only (within_trans rfl hp) _ _ _ (by assumption)
  · exact Only.put [.sec] (within_trans rfl hp) (by assumption) rfl
  · exact installWire_only (within_trans rfl hp) _ _ _ (by assumption)
  · exact setWire_only (within_trans rfl hp) _ _ (by assumption)
  · exact setWire_only (within_trans rfl hp) _ _ (by assumption)
  · exact Only.put [.sec] (within_trans rfl hp) (by assumption) rfl

theorem journalPend_only {pts} {s0 s : State} (hp : within [.hif, .hlt, .status, .counters, .mem] pts = true) (p)
    (op) (body) (cause) (h : Only pts s0 s) : Only pts s0 (journalPend p op body cause s) := by
  unfold journalPend
  try dsimp only
  exact journal_only (within_trans rfl hp) _ _ _ _ _ _ (by assumption)

theorem markLease_only {pts} {s0 s : State} (hp : within [.hlt] pts = true) (d) (h : Only pts s0 s) : Only pts s0
    (markLease d s) := by
  unfold markLease
  try dsimp only
  exact setAcct_only (within_trans rfl hp) _ _ (by assumption)

theorem endLease_only {pts} {s0 s : State}
    (hp : within [.fab, .wei, .hif, .sec, .hlt, .status, .counters, .mem] pts = true) (d) (h : Only pts s0 s) :
    Only pts s0 (endLease d s) := by
  unfold endLease
  try dsimp only
  exact markLease_only (within_trans rfl hp) _ (revokeDike_only (within_trans rfl hp) _ (flushDike_only
    (within_trans rfl hp) _ (setIntake_only (within_trans rfl hp) _ _ (Only.put [.sec, .hlt] (within_trans rfl hp)
    (by assumption) rfl))))

theorem putLease_only {pts} {s0 s : State} (hp : within [.fab, .wei, .sec, .hlt] pts = true) (d) (o) (h :
    Only pts s0 s) : Only pts s0 (putLease d o s) := by
  unfold putLease
  try dsimp only
  refine markLease_only (within_trans rfl hp) _ ?_
  split
  · exact requantum_only (within_trans rfl hp) _ _ (Only.put [.sec, .hlt] (within_trans rfl hp) (by assumption) rfl)
  · exact setIntake_only (within_trans rfl hp) _ _ (grantQueues_only (within_trans rfl hp) _ _
      (Only.put [.sec, .hlt] (within_trans rfl hp) (by assumption) rfl))

theorem doLease_only {pts} {s0 s : State}
    (hp : within [.fab, .wei, .hif, .sec, .hlt, .status, .counters, .mem] pts = true) (t) (d) (o) (h :
    Only pts s0 s) : Only pts s0 (doLease t d o s) := by
  unfold doLease
  try dsimp only
  split
  · exact refusedWith_only (within_trans rfl hp) _ _ (by assumption)
  · refine done_only (within_trans rfl hp) _ ?_
    split
    · exact endLease_only (within_trans rfl hp) _ (by assumption)
    · exact putLease_only (within_trans rfl hp) _ _ (by assumption)

theorem takeBlob_only {pts} {s0 s : State} (hp : within [.fab, .hif, .sec, .hlt, .status, .counters] pts = true) (b)
    (opened) (doe) (port) (cause) (h : Only pts s0 s) : Only pts s0 (takeBlob b opened doe port cause s) := by
  unfold takeBlob
  try dsimp only
  split
  · refine applyBlob_only (within_trans rfl hp) _ _ _ ?_
    refine Only.put [.sec] (within_trans rfl hp) ?_ rfl
    split
    · assumption
    · exact Only.put [.sec] (within_trans rfl hp) (by assumption) rfl
  · refine raise_only (within_trans rfl hp) _ ?_
    refine bump_only (within_trans rfl hp) _ _ ?_
    refine Only.put [.sec] (within_trans rfl hp) ?_ rfl
    split
    · assumption
    · exact Only.put [.sec] (within_trans rfl hp) (by assumption) rfl

theorem doInstallKey_only {pts} {s0 s : State}
    (hp : within [.fab, .hif, .sec, .hlt, .status, .counters, .mem] pts = true) (t) (b) (opened) (h :
    Only pts s0 s) : Only pts s0 (doInstallKey t b opened s) := by
  unfold doInstallKey
  try dsimp only
  split
  · exact done_only (within_trans rfl hp) _ (takeBlob_only (within_trans rfl hp) _ _ _ _ _ (by assumption))
  · exact refusedWith_only (within_trans rfl hp) _ _ (takeBlob_only (within_trans rfl hp) _ _ _ _ _ (by assumption))

theorem tableResult_only {pts} {s0 s : State} (hp : within [.cmp] pts = true) (cmd) (cause) (entry) (h :
    Only pts s0 s) : Only pts s0 (tableResult cmd cause entry s) := by
  unfold tableResult
  try dsimp only
  exact Only.put [.cmp] (within_trans rfl hp) (by assumption) rfl

theorem doInstallTable_only {pts} {s0 s : State} (hp : within [.cmp, .hif, .status, .mem] pts = true) (t) (entry)
    (currentStep) (bs) (h : Only pts s0 s) : Only pts s0 (doInstallTable t entry currentStep bs s) := by
  unfold doInstallTable
  try dsimp only
  split
  · exact refusedWith_only (within_trans rfl hp) _ _ (raise_only (within_trans rfl hp) _ (tableResult_only
      (within_trans rfl hp) _ _ _ (by assumption)))
  · exact done_only (within_trans rfl hp) _ (tableResult_only (within_trans rfl hp) _ _ _ (Only.put [.cmp]
      (within_trans rfl hp) (by assumption) rfl))

theorem placeHomes_only {pts} {s0 s : State} (hp : within [.pgm, .free] pts = true) (i) (h : Only pts s0 s) :
    Only pts s0 (placeHomes i s) := by
  unfold placeHomes
  try dsimp only
  split
  · assumption
  · refine updDesc_only (within_trans rfl hp) _ _ ?_
    split
    · exact takeMap_only (within_trans rfl hp) _ _ _ (takeExtents_only (within_trans rfl hp) _ _ _ (takeMap_only
        (within_trans rfl hp) _ _ _ (takeExtents_only (within_trans rfl hp) _ _ _ (by assumption))))
    · dsimp only
      exact takeMap_only (within_trans rfl hp) _ _ _ (takeExtents_only (within_trans rfl hp) _ _ _ (by assumption))

theorem doAllocObject_only {pts} {s0 s : State}
    (hp : within [.sqs, .pgm, .cmp, .fab, .wei, .hif, .hlt, .status, .counters, .mem, .free] pts = true) (t) (d)
    (extents) (alloc) (pin) (durable) (h : Only pts s0 s) : Only pts s0
    (doAllocObject t d extents alloc pin durable s) := by
  unfold doAllocObject
  try dsimp only
  split
  · exact malformed_only (within_trans rfl hp) _ (by assumption)
  · split
    · exact reasonWith_only (within_trans rfl hp) _ _ (by assumption)
    · split
      · exact reasonWith_only (within_trans rfl hp) _ _ (by assumption)
      · split
        · exact reasonWith_only (within_trans rfl hp) _ _ (by assumption)
        · split
          · exact reasonWith_only (within_trans rfl hp) _ _ (by assumption)
          · split
            · exact reasonWith_only (within_trans rfl hp) _ _ (by assumption)
            · refine doneWith_only (within_trans rfl hp) _ _ _ ?_
              refine placeHomes_only (within_trans rfl hp) _ ?_
              refine makeRoom_only (within_trans rfl hp) ?_ (by assumption) ?_
              · intro _ _ _ _
                exact freeFragments_only (within_trans rfl hp) _ _ (by assumption)
              · exact newDesc_only (within_trans rfl hp) _ (by assumption)

theorem doFreeObject_only {pts} {s0 s : State} (hp : within [.pgm, .fab, .hif, .mem] pts = true) (t) (d) (index)
    (gen) (h : Only pts s0 s) : Only pts s0 (doFreeObject t d index gen s) := by
  unfold doFreeObject
  try dsimp only
  split
  · exact refusedWith_only (within_trans rfl hp) _ _ (by assumption)
  · refine done_only (within_trans rfl hp) _ ?_
    refine decRef_only (within_trans rfl hp) _ ?_
    refine updDesc_only (within_trans rfl hp) _ _ ?_
    refine Only.foldl (fun _ _ _ => ?_) ?_
    · exact forceRevoke_only (within_trans rfl hp) _ (by assumption)
    · assumption

theorem applyCommand_only {pts} {s0 s : State}
    (hp : within [.sqs, .pgm, .cmp, .car, .mdl, .fab, .wei, .hif, .sec, .hlt, .status, .counters, .mem,
      .free] pts = true) (p) (t) (op) (body) (h : Only pts s0 s) : Only pts s0 (applyCommand p t op body s) := by
  unfold applyCommand
  try dsimp only
  split
  · exact doLease_only (within_trans rfl hp) _ _ _ (journalPend_only (within_trans rfl hp) _ _ _ _ (by assumption))
  · exact doInstallKey_only (within_trans rfl hp) _ _ _ (journalPend_only (within_trans rfl hp) _ _ _ _
      (by assumption))
  · exact doInstallTable_only (within_trans rfl hp) _ _ _ _ (journalPend_only (within_trans rfl hp) _ _ _ _
      (by assumption))
  · exact doDrainDie_only (within_trans rfl hp) _ _ _ (journalPend_only (within_trans rfl hp) _ _ _ _ (by assumption))
  · exact doReadmitDie_only (within_trans rfl hp) _ _ (journalPend_only (within_trans rfl hp) _ _ _ _ (by assumption))
  · exact doRegisterAdapter_only (within_trans rfl hp) _ _ (journalPend_only (within_trans rfl hp) _ _ _ _
      (by assumption))
  · exact doWithdrawAdapter_only (within_trans rfl hp) _ _ _ (journalPend_only (within_trans rfl hp) _ _ _ _
      (by assumption))
  · exact doRegisterContext_only (within_trans rfl hp) _ _ (journalPend_only (within_trans rfl hp) _ _ _ _
      (by assumption))
  · exact doRetireContext_only (within_trans rfl hp) _ _ (journalPend_only (within_trans rfl hp) _ _ _ _
      (by assumption))
  · exact doAllocObject_only (within_trans rfl hp) _ _ _ _ _ _ (journalPend_only (within_trans rfl hp) _ _ _ _
      (by assumption))
  · exact doFreeObject_only (within_trans rfl hp) _ _ _ _ (journalPend_only (within_trans rfl hp) _ _ _ _
      (by assumption))
  · exact journalPend_only (within_trans rfl hp) _ _ _ _ (by assumption)

theorem doCompose_only {pts} {s0 s : State} (hp : within [.slc, .hif, .mem] pts = true) (t) (bs) (h :
    Only pts s0 s) : Only pts s0 (doCompose t bs s) := by
  unfold doCompose
  try dsimp only
  split
  · exact refusedWith_only (within_trans rfl hp) _ _ (Only.put [.slc] (within_trans rfl hp) (by assumption) rfl)
  · exact done_only (within_trans rfl hp) _ (Only.put [.slc] (within_trans rfl hp) (by assumption) rfl)

theorem dropForeign_only {pts} {s0 s : State} (hp : within [.pgm] pts = true) (h : Only pts s0 s) : Only pts s0
    (dropForeign s) := by
  unfold dropForeign
  try dsimp only
  refine Only.foldl (fun _ _ _ => ?_) ?_
  · split
    · assumption
    · exact dropPrefixesOf_only (within_trans rfl hp) _ _ (by assumption)
  · assumption

theorem eraseKeys_only {pts} {s0 s : State} (hp : within [.hif, .sec, .status] pts = true) (h :
    Only pts s0 s) : Only pts s0 (eraseKeys s) := by
  unfold eraseKeys
  try dsimp only
  refine Only.foldl (fun _ _ _ => ?_) ?_
  · exact raise_only (within_trans rfl hp) _ (Only.put [.sec] (within_trans rfl hp) (by assumption) rfl)
  · assumption

theorem freeTables_only {pts} {s0 s : State} (hp : within [.cmp] pts = true) (h : Only pts s0 s) : Only pts s0
    (freeTables s) := by
  unfold freeTables
  try dsimp only
  exact Only.put [.cmp] (within_trans rfl hp) (by assumption) rfl

theorem refreshLeases_only {pts} {s0 s : State} (hp : within [.sec] pts = true) (h : Only pts s0 s) : Only pts s0
    (refreshLeases s) := by
  unfold refreshLeases
  try dsimp only
  exact Only.put [.sec] (within_trans rfl hp) (by assumption) rfl

end Sys2Proof.Machine
end

