-- ==== Sys2Proof/Laws/PartsBoundary.lean ====
section
/-! SUPPORT. Which parts of the state each operation may change (Safety.Only): the actions of a step boundary.
`f_only`: what `f` makes of a state differs from it in the parts listed alone. -/

namespace Sys2Proof.Machine

open Sys2Proof.Safety

theorem dropPends_only {pts} {s0 s : State} (hp : within [.sqs] pts = true) (n) (action) (h : Only pts s0 s) :
    Only pts s0 (dropPends n action s) := by
  unfold dropPends
  try dsimp only
  exact Only.put [.sqs] (within_trans rfl hp) (by assumption) rfl

theorem clearWork_only {pts} {s0 s : State} (hp : within [.car] pts = true) (handle) (h : Only pts s0 s) :
    Only pts s0 (clearWork handle s) := by
  unfold clearWork
  try dsimp only
  exact Only.put [.car] (within_trans rfl hp) (by assumption) rfl

theorem freeEntry_only {pts} {s0 s : State} (hp : within [.sqs, .slc, .pgm, .car, .hlt] pts = true) (slot) (h :
    Only pts s0 s) : Only pts s0 (freeEntry slot s) := by
  unfold freeEntry
  try dsimp only
  split
  · assumption
  · refine Only.put [.sqs, .slc, .hlt] (within_trans rfl hp) ?_ rfl
    refine clearWork_only (within_trans rfl hp) _ ?_
    refine releasePages_only (within_trans rfl hp) _ ?_
    split
    · exact oweCkpt_only (within_trans rfl hp) _ (by assumption)
    · assumption

theorem releaseRing_only {pts} {s0 s : State} (hp : within [.sqs, .fab, .wei, .hlt] pts = true) (slot) (h :
    Only pts s0 s) : Only pts s0 (releaseRing slot s) := by
  unfold releaseRing
  try dsimp only
  split
  · assumption
  · split
    · assumption
    · refine Only.foldl (fun _ _ _ => ?_) ?_
      · exact sendSlu_only (within_trans rfl hp) _ _ _ (by assumption)
      · assumption

theorem leaveKeeper_only {pts} {s0 s : State} (hp : within [.sqs, .slc, .pgm, .car, .fab, .wei, .hlt] pts = true)
    (slot) (h : Only pts s0 s) : Only pts s0 (leaveKeeper slot s) := by
  unfold leaveKeeper
  try dsimp only
  exact freeEntry_only (within_trans rfl hp) _ (releaseRing_only (within_trans rfl hp) _ (by assumption))

theorem recallOther_only {pts} {s0 s : State} (hp : within [.sqs, .fab, .wei, .hlt] pts = true) (slot) (n) (epoch)
    (r) (h : Only pts s0 s) : Only pts s0 (recallOther slot n epoch r s) := by
  unfold recallOther
  try dsimp only
  split
  · exact sendRecall_only (within_trans rfl hp) _ _ _ _ _ (by assumption)
  · split
    · exact sendRecall_only (within_trans rfl hp) _ _ _ _ _ (by assumption)
    · assumption

theorem applyEnd_only {pts} {s0 s : State}
    (hp : within [.sqs, .slc, .pgm, .car, .fab, .wei, .hif, .hlt, .status] pts = true) (n) (p) (bytes) (h :
    Only pts s0 s) : Only pts s0 (applyEnd n p bytes s) := by
  unfold applyEnd
  try dsimp only
  split
  · assumption
  · split
    · exact freeEntry_only (within_trans rfl hp) _ (by assumption)
    · split
      · assumption
      · split
        · exact raise_only (within_trans rfl hp) _ (by assumption)
        · split
          · exact raise_only (within_trans rfl hp) _ (by assumption)
          · split
            · exact leaveKeeper_only (within_trans rfl hp) _ (recallOther_only (within_trans rfl hp) _ _ _ _
                (by assumption))
            · assumption

theorem withdrawGrant_only {pts} {s0 s : State} (hp : within [.sqs, .slc] pts = true) (slot) (h :
    Only pts s0 s) : Only pts s0 (withdrawGrant slot s) := by
  unfold withdrawGrant
  try dsimp only
  split
  · assumption
  · split
    · exact setRec_only (within_trans rfl hp) _ _ (by assumption)
    · assumption

theorem endSequence_only {pts} {s0 s : State} (hp : within [.sqs, .slc, .pgm, .car, .fab, .wei, .hlt] pts = true)
    (slot) (kind) (cause) (why) (n) (h : Only pts s0 s) : Only pts s0 (endSequence slot kind cause why n s) := by
  unfold endSequence
  try dsimp only
  split
  · assumption
  · exact leaveKeeper_only (within_trans rfl hp) _ (addNotice_only (within_trans rfl hp) _ _ _ _ (recallAll_only
      (within_trans rfl hp) _ _ _ (by assumption)))

theorem applyCancel_only {pts} {s0 s : State}
    (hp : within [.sqs, .slc, .pgm, .car, .fab, .wei, .hif, .hlt, .status] pts = true) (n) (tenant) (requestId)
    (h : Only pts s0 s) : Only pts s0 (applyCancel n tenant requestId s) := by
  unfold applyCancel
  try dsimp only
  split
  · exact raise_only (within_trans rfl hp) _ (by assumption)
  · split
    · exact raise_only (within_trans rfl hp) _ (by assumption)
    · split
      · exact updSeq_only (within_trans rfl hp) _ _ (recallAll_only (within_trans rfl hp) _ _ _ (withdrawGrant_only
          (within_trans rfl hp) _ (addNotice_only (within_trans rfl hp) _ _ _ _ (by assumption))))
      · exact endSequence_only (within_trans rfl hp) _ _ _ _ _ (by assumption)

theorem applyPause_only {pts} {s0 s : State}
    (hp : within [.sqs, .slc, .pgm, .car, .fab, .wei, .hif, .hlt, .status] pts = true) (n) (tenant) (requestId)
    (h : Only pts s0 s) : Only pts s0 (applyPause n tenant requestId s) := by
  unfold applyPause
  try dsimp only
  split
  · exact raise_only (within_trans rfl hp) _ (by assumption)
  · split
    · exact raise_only (within_trans rfl hp) _ (by assumption)
    · exact endSequence_only (within_trans rfl hp) _ _ _ _ _ (by assumption)

theorem applyHandoff_only {pts} {s0 s : State} (hp : within [.sqs, .slc, .hif, .status] pts = true) (n) (ps) (bytes)
    (h : Only pts s0 s) : Only pts s0 (applyHandoff n ps bytes s) := by
  unfold applyHandoff
  try dsimp only
  split
  · assumption
  · split
    · assumption
    · split
      · exact raise_only (within_trans rfl hp) _ (by assumption)
      · split
        · split
          · assumption
          · split
            · assumption
            · exact setRec_only (within_trans rfl hp) _ _ (by assumption)
        · assumption

theorem applyLeaves_only {pts} {s0 s : State}
    (hp : within [.sqs, .slc, .pgm, .cmp, .car, .mdl, .fab, .wei, .hif, .sec, .hlt, .status, .counters, .mem,
      .free] pts = true) (n) (h : Only pts s0 s) : Only pts s0 (applyLeaves n s) := by
  unfold applyLeaves
  try dsimp only
  refine Only.foldl (fun _ _ _ => ?_) ?_
  · split
    · exact applyHandoff_only (within_trans rfl hp) _ _ _ (by assumption)
    · assumption
  · refine Only.foldl (fun _ _ _ => ?_) ?_
    · split
      · exact applyCancel_only (within_trans rfl hp) _ _ _ (journalWait_only (within_trans rfl hp) _ (by assumption))
      · exact applyPause_only (within_trans rfl hp) _ _ _ (journalWait_only (within_trans rfl hp) _ (by assumption))
      · exact applyCommand_only (within_trans rfl hp) _ _ _ _ (by assumption)
      · assumption
    · refine Only.foldl (fun _ _ _ => ?_) ?_
      · split
        · exact applyEnd_only (within_trans rfl hp) _ _ _ (journalWait_only (within_trans rfl hp) _ (by assumption))
        · assumption
      · exact dropPends_only (within_trans rfl hp) _ _ (by assumption)

theorem departOwner_only {pts} {s0 s : State} (hp : within [.sqs, .slc, .pgm, .car, .hlt] pts = true) (slot)
    (h : Only pts s0 s) : Only pts s0 (departOwner slot s) := by
  unfold departOwner
  try dsimp only
  split
  · exact freeEntry_only (within_trans rfl hp) _ (Only.put [.sqs] (within_trans rfl hp) (by assumption) rfl)
  · assumption

theorem departures_only {pts} {s0 s : State} (hp : within [.sqs, .slc, .pgm, .car, .hlt] pts = true) (n) (h :
    Only pts s0 s) : Only pts s0 (departures n s) := by
  unfold departures
  try dsimp only
  refine Only.foldl (fun _ _ _ => ?_) ?_
  · exact departOwner_only (within_trans rfl hp) _ (by assumption)
  · assumption

theorem eachRec_only {pts} {s0 s : State} (hp : within [] pts = true) (f)
    (Hf : ∀ a0 a1 a2, Only pts s0 a2 → Only pts s0 (f a0 a1 a2)) (h : Only pts s0 s) : Only pts s0 (eachRec f s) := by
  unfold eachRec
  try dsimp only
  refine Only.foldl (fun _ _ _ => ?_) ?_
  · split
    · apply Hf
      assumption
    · assumption
  · assumption

theorem countQuiet_only {pts} {s0 s : State} (hp : within [.sqs, .slc, .hif, .hlt, .status, .counters] pts = true)
    (h : Only pts s0 s) : Only pts s0 (countQuiet s) := by
  unfold countQuiet
  try dsimp only
  refine eachRec_only (within_trans rfl hp) _ ?_ ?_
  · intro _ _ _ _
    split
    · split
      · exact setRec_only (within_trans rfl hp) _ _ (by assumption)
      · split
        · exact setRec_only (within_trans rfl hp) _ _ (by assumption)
        · exact bump_only (within_trans rfl hp) _ _ (raise_only (within_trans rfl hp) _ (setRec_only
            (within_trans rfl hp) _ _ (by assumption)))
    · exact setRec_only (within_trans rfl hp) _ _ (by assumption)
  · assumption

theorem cancelOrphaned_only {pts} {s0 s : State} (hp : within [.sqs, .slc, .pgm, .car, .fab, .wei, .hlt] pts = true)
    (slot) (n) (h : Only pts s0 s) : Only pts s0 (cancelOrphaned slot n s) := by
  unfold cancelOrphaned
  try dsimp only
  exact endSequence_only (within_trans rfl hp) _ _ _ _ _ (by assumption)

theorem orphanPolicies_only {pts} {s0 s : State} (hp : within [.sqs, .slc, .pgm, .car, .fab, .wei, .hlt] pts = true)
    (n) (h : Only pts s0 s) : Only pts s0 (orphanPolicies n s) := by
  unfold orphanPolicies
  try dsimp only
  refine eachRec_only (within_trans rfl hp) _ ?_ ?_
  · intro _ _ _ _
    split
    · assumption
    · split
      · split
        · exact cancelOrphaned_only (within_trans rfl hp) _ _ (setRec_only (within_trans rfl hp) _ _ (by assumption))
        · exact resumeWait_only (within_trans rfl hp) _ _ (setRec_only (within_trans rfl hp) _ _ (by assumption))
      · assumption
  · assumption

theorem repairHistories_only {pts} {s0 s : State}
    (hp : within [.sqs, .slc, .pgm, .car, .fab, .wei, .hlt] pts = true) (n) (h : Only pts s0 s) : Only pts s0
    (repairHistories n s) := by
  unfold repairHistories
  try dsimp only
  refine Only.foldl (fun _ _ _ => ?_) ?_
  · exact cancelOrphaned_only (within_trans rfl hp) _ _ (by assumption)
  · exact Only.put [.slc] (within_trans rfl hp) (by assumption) rfl

theorem damagedMasters_only {pts} {s0 s : State}
    (hp : within [.sqs, .slc, .pgm, .car, .mdl, .fab, .wei, .hlt] pts = true) (n) (h : Only pts s0 s) : Only pts s0
    (damagedMasters n s) := by
  unfold damagedMasters
  try dsimp only
  refine Only.foldl (fun _ _ _ => ?_) ?_
  · refine Only.foldl (fun _ _ _ => ?_) ?_
    · exact cancelOrphaned_only (within_trans rfl hp) _ _ (by assumption)
    · exact retireContext_only (within_trans rfl hp) _ (by assumption)
  · assumption

theorem tailChecks_only {pts} {s0 s : State} (hp : within [.sqs, .slc, .hif, .hlt, .status, .counters] pts = true)
    (n) (h : Only pts s0 s) : Only pts s0 (tailChecks n s) := by
  unfold tailChecks
  try dsimp only
  refine eachRec_only (within_trans rfl hp) _ ?_ ?_
  · intro _ _ _ _
    split
    · split
      · assumption
      · split
        · exact setRec_only (within_trans rfl hp) _ _ (by assumption)
        · exact enterOrphan_only (within_trans rfl hp) _ (raise_only (within_trans rfl hp) _ (by assumption))
    · assumption
  · assumption

theorem effectRecs_only {pts} {s0 s : State} (hp : within [.sqs, .slc, .hif, .hlt, .status, .counters] pts = true)
    (n) (h : Only pts s0 s) : Only pts s0 (effectRecs n s) := by
  unfold effectRecs
  try dsimp only
  refine eachRec_only (within_trans rfl hp) _ ?_ ?_
  · intro _ _ _ _
    split
    · split
      · exact enterOrphan_only (within_trans rfl hp) _ (by assumption)
      · exact setRec_only (within_trans rfl hp) _ _ (by assumption)
    · assumption
  · assumption

theorem actionLeave_only {pts} {s0 s : State}
    (hp : within [.sqs, .slc, .pgm, .cmp, .car, .mdl, .fab, .wei, .hif, .sec, .hlt, .status, .counters, .mem,
      .free] pts = true) (n) (h : Only pts s0 s) : Only pts s0 (actionLeave n s) := by
  unfold actionLeave
  try dsimp only
  refine reclaim_only (within_trans rfl hp) _ ?_ ?_
  · intro _ _ _ _
    exact freeFragments_only (within_trans rfl hp) _ _ (by assumption)
  · split
    · refine dispositionAt_only (within_trans rfl hp) _ _ _ _ _ ?_
      refine Only.foldl (fun _ _ _ => ?_) ?_
      · exact returnSpare_only (within_trans rfl hp) _ (by assumption)
      · exact returnPinned_only (within_trans rfl hp) (tailChecks_only (within_trans rfl hp) _ (effectRecs_only
          (within_trans rfl hp) _ (repairHistories_only (within_trans rfl hp) _ (damagedMasters_only
          (within_trans rfl hp) _ (orphanPolicies_only (within_trans rfl hp) _ (countQuiet_only
          (within_trans rfl hp) (departures_only (within_trans rfl hp) _ (applyLeaves_only (within_trans rfl hp) _
          (by assumption)))))))))
    · refine Only.foldl (fun _ _ _ => ?_) ?_
      · exact returnSpare_only (within_trans rfl hp) _ (by assumption)
      · exact returnPinned_only (within_trans rfl hp) (tailChecks_only (within_trans rfl hp) _ (effectRecs_only
          (within_trans rfl hp) _ (repairHistories_only (within_trans rfl hp) _ (damagedMasters_only
          (within_trans rfl hp) _ (orphanPolicies_only (within_trans rfl hp) _ (countQuiet_only
          (within_trans rfl hp) (departures_only (within_trans rfl hp) _ (applyLeaves_only (within_trans rfl hp) _
          (by assumption)))))))))

theorem closeAsk_only {pts} {s0 s : State} (hp : within [.sqs] pts = true) (a) (h : Only pts s0 s) : Only pts s0
    (closeAsk a s) := by
  unfold closeAsk
  try dsimp only
  exact Only.put [.sqs] (within_trans rfl hp) (by assumption) rfl

theorem dropSegments_only {pts} {s0 s : State} (hp : within [.sqs, .fab, .wei, .hlt] pts = true) (a) (h :
    Only pts s0 s) : Only pts s0 (dropSegments a s) := by
  unfold dropSegments
  try dsimp only
  refine Only.foldl (fun _ _ _ => ?_) ?_
  · exact sendSlu_only (within_trans rfl hp) _ _ _ (by assumption)
  · assumption

theorem touchRun_only {pts} {s0 x3 : State} (hp : within [.pgm] pts = true) (n) (x1) (x2) (h :
    Only pts s0 x3) : Only pts s0 (touchRun n x1 x2 x3) := by
  induction x1 generalizing x2 x3 with
  | zero =>
    unfold touchRun
    try dsimp only
    assumption
  | succ n ih =>
    unfold touchRun
    try dsimp only
    split
    · assumption
    · apply ih
      exact Only.put [.pgm] (within_trans rfl hp) (by assumption) rfl

theorem acceptQuery_only {pts} {s0 : State} (hp : within [.sqs, .slc, .pgm, .fab, .wei, .hif, .hlt, .status,
    .counters] pts = true) (n) (q) (ring) {r : State × Nat × Offer × List Chunk} (h : Only pts s0 r.1) :
    Only pts s0 (acceptQuery n q ring r) := by
  unfold acceptQuery
  dsimp only
  split
  · split
    · refine sendState_only (within_trans rfl hp) _ _ _ _ (sendVerdict_only (within_trans rfl hp) _ _ _ _ (setRec_only
      (within_trans rfl hp) _ _ (setHist_only (within_trans rfl hp) _ _ (updSeq_only (within_trans rfl hp) _ _
      (Only.put [.sqs] (within_trans rfl hp) ?_ rfl)))))
      exact touchRun_only (within_trans rfl hp) _ _ _ h
    · refine sendVerdict_only (within_trans rfl hp) _ _ _ _ (setRec_only (within_trans rfl hp) _ _ (setHist_only
      (within_trans rfl hp) _ _ (updSeq_only (within_trans rfl hp) _ _ (Only.put [.sqs] (within_trans rfl hp) ?_ rfl))))
      exact touchRun_only (within_trans rfl hp) _ _ _ h
  · refine sendVerdict_only (within_trans rfl hp) _ _ _ _ (setRec_only (within_trans rfl hp) _ _ (setHist_only
    (within_trans rfl hp) _ _ (updSeq_only (within_trans rfl hp) _ _ (Only.put [.sqs] (within_trans rfl hp) ?_ rfl))))
    exact touchRun_only (within_trans rfl hp) _ _ _ h

theorem decideRing_only {pts} {s0 s : State} (hp : within [.sqs, .slc, .pgm, .car, .fab, .wei, .hif, .hlt, .status,
    .counters, .free] pts = true) (n) (a) (h : Only pts s0 s) : Only pts s0 (decideRing n a s) := by
  unfold decideRing
  dsimp only
  have hc : Only pts s0 (closeAsk a s) := closeAsk_only (within_trans rfl hp) _ h
  split
  · exact sendVerdict_only (within_trans rfl hp) _ _ _ _ (dropSegments_only (within_trans rfl hp) _ hc)
  · split
    · exact sendVerdict_only (within_trans rfl hp) _ _ _ _ (dropSegments_only (within_trans rfl hp) _ hc)
    · exact acceptQuery_only (within_trans rfl hp) _ _ _ (testQuery_only (within_trans rfl hp) (by assumption) hc)

theorem askMembers_only {pts} {s0 s : State} (hp : within [.sqs, .fab, .wei, .hlt, .free] pts = true) (q)
    (members) {tested} (handle)
    (h : Only pts s0 s) : Only pts s0 (askMembers q members tested handle s) := by
  unfold askMembers
  refine Only.foldl (fun _ _ h => sendMsg_only (within_trans rfl hp) _ _ _ _ _ (takeSseq_only (within_trans rfl hp) h)) ?_
  exact Only.put [.sqs, .free] (within_trans rfl hp) h rfl

theorem admitOne_only {pts} {s0 s : State} (hp : within [.sqs, .slc, .pgm, .car, .fab, .wei, .hif, .hlt, .status,
    .counters, .free] pts = true) (n) (q) (h : Only pts s0 s) :
    Only pts s0 (admitOne n q s) := by
  unfold admitOne
  split
  · exact sendVerdict_only (within_trans rfl hp) _ _ _ _ h
  · dsimp only
    split
    · exact acceptQuery_only (within_trans rfl hp) _ _ _ (testQuery_only (within_trans rfl hp) (by assumption) h)
    · exact askMembers_only (within_trans rfl hp) _ _ _ h

theorem admitCase_only {pts} {s0 s : State}
    (hp : within [.sqs, .slc, .pgm, .car, .fab, .wei, .hif, .hlt, .status, .counters, .free] pts = true) (n) (c)
    (h : Only pts s0 s) : Only pts s0 (admitCase n c s) := by
  unfold admitCase
  try dsimp only
  split
  · exact decideRing_only (within_trans rfl hp) _ _ (by assumption)
  · exact admitOne_only (within_trans rfl hp) _ _ (by assumption)

theorem journalCase_only {pts} {s0 s : State} (hp : within [.hif, .hlt, .status, .counters, .mem] pts = true) (c)
    (h : Only pts s0 s) : Only pts s0 (journalCase c s) := by
  unfold journalCase
  try dsimp only
  split
  · assumption
  · exact journalMsg_only (within_trans rfl hp) _ _ _ _ _ (by assumption)

theorem carryCases_only {pts} {s0 s : State}
    (hp : within [.sqs, .fab, .wei, .hif, .hlt, .status, .counters, .mem] pts = true) (n) (cs) (h :
    Only pts s0 s) : Only pts s0 (carryCases n cs s) := by
  unfold carryCases
  try dsimp only
  split
  · assumption
  · refine Only.foldl (fun _ _ _ => ?_) ?_
    · refine sendVerdict_only (within_trans rfl hp) _ _ _ _ ?_
      split
      · exact dropSegments_only (within_trans rfl hp) _ (closeAsk_only (within_trans rfl hp) _ (by assumption))
      · assumption
    · exact raise_only (within_trans rfl hp) _ (dispositionAt_only (within_trans rfl hp) _ _ _ _ _ (by assumption))

theorem askCandidate_only {pts} {s0 s : State} (hp : within [.sqs, .fab, .wei, .hlt] pts = true) (f) (h :
    Only pts s0 s) : Only pts s0 (askCandidate f s).1 := by
  unfold askCandidate
  try dsimp only
  split
  · dsimp only
    exact sendMsg_only (within_trans rfl hp) _ _ _ _ _ (takeSseq_only (within_trans rfl hp) (by assumption))
  · dsimp only
    assumption

theorem askAll_only {pts} {s0 s : State} (hp : within [.sqs, .fab, .wei, .hlt] pts = true) (h :
    Only pts s0 s) : Only pts s0 (askAll s) := by
  unfold askAll
  try dsimp only
  refine Only.put [.sqs] (within_trans rfl hp) ?_ rfl
  refine Only.foldl_fst (fun _ _ _ => ?_) ?_
  · dsimp only
    exact askCandidate_only (within_trans rfl hp) _ (by assumption)
  · dsimp only
    assumption

theorem verdictToGateway_only {pts} {s0 s : State} (hp : within [.fab, .wei, .hlt] pts = true) (r) (bytes) (h :
    Only pts s0 s) : Only pts s0 (verdictToGateway r bytes s) := by
  unfold verdictToGateway
  try dsimp only
  exact sendMsg_only (within_trans rfl hp) _ _ _ _ _ (by assumption)

theorem ingressAnswer_only {pts} {s0 s : State}
    (hp : within [.fab, .wei, .hif, .hlt, .status, .counters] pts = true) (r) (a) (h : Only pts s0 s) : Only pts s0
    (ingressAnswer r a s) := by
  unfold ingressAnswer
  try dsimp only
  exact verdictToGateway_only (within_trans rfl hp) _ _ (countVerdict_only (within_trans rfl hp) _ _ (by assumption))

theorem takeRequest_only {pts} {s0 s : State}
    (hp : within [.sqs, .slc, .pgm, .car, .fab, .wei, .hif, .hlt, .status, .counters, .free] pts = true) (n) (r)
    (h : Only pts s0 s) : Only pts s0 (takeRequest n r s) := by
  unfold takeRequest
  try dsimp only
  split
  · exact ingressAnswer_only (within_trans rfl hp) _ _ (by assumption)
  · split
    · exact ingressAnswer_only (within_trans rfl hp) _ _ (by assumption)
    · split
      · exact ingressAnswer_only (within_trans rfl hp) _ _ (by assumption)
      · split
        · exact ingressAnswer_only (within_trans rfl hp) _ _ (by assumption)
        · split
          · exact ingressAnswer_only (within_trans rfl hp) _ _ (by assumption)
          · split
            · exact ingressAnswer_only (within_trans rfl hp) _ _ (by assumption)
            · exact Only.put [.sqs] (within_trans rfl hp) (putSeq_only (within_trans rfl hp) _ _ (newHandle_only
                (within_trans rfl hp) (by assumption))) rfl

theorem actionAdmit_only {pts} {s0 s : State}
    (hp : within [.sqs, .slc, .pgm, .car, .fab, .wei, .hif, .hlt, .status, .counters, .mem, .free] pts = true) (n)
    (h : Only pts s0 s) : Only pts s0 (actionAdmit n s) := by
  unfold actionAdmit
  try dsimp only
  split
  · refine carryCases_only (within_trans rfl hp) _ _ ?_
    refine Only.foldl (fun _ _ _ => ?_) ?_
    · exact journalCase_only (within_trans rfl hp) _ (by assumption)
    · refine Only.foldl (fun _ _ _ => ?_) ?_
      · exact admitCase_only (within_trans rfl hp) _ _ (journalCase_only (within_trans rfl hp) _ (by assumption))
      · exact dropPends_only (within_trans rfl hp) _ _ (by assumption)
  · refine askAll_only (within_trans rfl hp) ?_
    refine Only.foldl (fun _ _ _ => ?_) ?_
    · split
      · exact takeRequest_only (within_trans rfl hp) _ _ (journalWait_only (within_trans rfl hp) _ (by assumption))
      · assumption
    · exact dropPends_only (within_trans rfl hp) _ _ (by assumption)

theorem beginOwner_only {pts} {s0 s : State} (hp : within [.sqs, .fab, .wei, .hif, .hlt, .mem, .free] pts = true)
    (f) (v) (h : Only pts s0 s) : Only pts s0 (beginOwner f v s) := by
  unfold beginOwner
  try dsimp only
  split
  · assumption
  · exact embedNext_only (within_trans rfl hp) _ (ownerSend_only (within_trans rfl hp) _ _ _ _ (Only.put [.sqs]
      (within_trans rfl hp) (updSeq_only (within_trans rfl hp) _ _ (by assumption)) rfl))

theorem execRequest_only {pts} {s0 s : State} {t} (hp : within [.sqs, .fab, .hif, .hlt, .status] pts = true) {r}
    (e : execRequest r s = .next t) (h : Only pts s0 s) : Only pts s0 t := by
  unfold execRequest at e
  try dsimp only at e
  split at e
  · injection e with e
    subst e
    assumption
  · split at e
    · injection e with e
      subst e
      exact misdirect_only (within_trans rfl hp) _ (by assumption)
    · injection e with e
      subst e
      exact addWait_only (within_trans rfl hp) _ (noteFirst_only (within_trans rfl hp) _ _ (by assumption))

theorem noKeeper_only {pts} {s0 s : State} (hp : within [.fab, .wei, .hif, .hlt, .status, .counters] pts = true) (f)
    (h : Only pts s0 s) : Only pts s0 (noKeeper f s) := by
  unfold noKeeper
  try dsimp only
  split
  · exact verdictToGateway_only (within_trans rfl hp) _ _ (by assumption)
  · exact ingressAnswer_only (within_trans rfl hp) _ _ (by assumption)

theorem frontVerdict_only {pts} {s0 s : State}
    (hp : within [.sqs, .fab, .wei, .hif, .hlt, .status, .counters, .mem, .free] pts = true) (m) (v) (h :
    Only pts s0 s) : Only pts s0 (frontVerdict m v s) := by
  unfold frontVerdict
  try dsimp only
  split
  · assumption
  · split
    · exact beginOwner_only (within_trans rfl hp) _ _ (verdictToGateway_only (within_trans rfl hp) _ _
        (Only.put [.sqs] (within_trans rfl hp) (by assumption) rfl))
    · split
      · exact Only.put [.sqs] (within_trans rfl hp) (by assumption) rfl
      · exact noKeeper_only (within_trans rfl hp) _ (Only.put [.sqs] (within_trans rfl hp) (by assumption) rfl)

theorem memberVerdict_only {pts} {s0 s : State} (hp : within [.sqs] pts = true) (m) (v) (h : Only pts s0 s) :
    Only pts s0 (memberVerdict m v s) := by
  unfold memberVerdict
  try dsimp only
  exact Only.put [.sqs] (within_trans rfl hp) (by assumption) rfl

theorem onAdmitQuery_only {pts} {s0 s : State} (hp : within [.sqs, .fab, .hif, .hlt, .status] pts = true) (m)
    (h : Only pts s0 s) : Only pts s0 (onAdmitQuery m s) := by
  unfold onAdmitQuery
  try dsimp only
  split
  · assumption
  · split
    · exact raise_only (within_trans rfl hp) _ (by assumption)
    · split
      · exact misdirect_only (within_trans rfl hp) _ (by assumption)
      · split
        · exact addWait_only (within_trans rfl hp) _ (noteFirst_only (within_trans rfl hp) _ _ (by assumption))
        · split
          · exact addWait_only (within_trans rfl hp) _ (noteFirst_only (within_trans rfl hp) _ _ (by assumption))
          · exact addWait_only (within_trans rfl hp) _ (noteFirst_only (within_trans rfl hp) _ _ (by assumption))

theorem onVerdict_only {pts} {s0 s : State}
    (hp : within [.sqs, .fab, .wei, .hif, .hlt, .status, .counters, .mem, .free] pts = true) (m) (h :
    Only pts s0 s) : Only pts s0 (onVerdict m s) := by
  unfold onVerdict
  try dsimp only
  split
  · assumption
  · split
    · exact raise_only (within_trans rfl hp) _ (by assumption)
    · split
      · exact misdirect_only (within_trans rfl hp) _ (by assumption)
      · split
        · exact frontVerdict_only (within_trans rfl hp) _ _ (consumeUnnumbered_only (within_trans rfl hp) _ _ _
            (by assumption))
        · exact memberVerdict_only (within_trans rfl hp) _ _ (consumeUnnumbered_only (within_trans rfl hp) _ _ _
            (by assumption))

theorem joinFork_only {pts} {s0 s : State} (hp : within [.sqs, .slc, .pgm, .car, .fab, .wei, .hif, .hlt, .status,
    .counters, .free] pts = true) (n) (q) (h : Only pts s0 s) : Only pts s0 (joinFork n q s) := by
  unfold joinFork
  split
  · exact sendVerdict_only (within_trans rfl hp) _ _ _ _ h
  · exact acceptQuery_only (within_trans rfl hp) _ _ _ (testQuery_only (within_trans rfl hp) (by assumption) h)

theorem testSegment_only {pts} {s0 s : State} {t}
    (hp : within [.sqs, .slc, .pgm, .car, .hif, .hlt, .status, .counters, .free] pts = true) {n q}
    (e : testSegment n q s = .ok t) (h : Only pts s0 s) : Only pts s0 t.1 := by
  unfold testSegment at e
  try dsimp only at e
  split at e
  · cases e
  · split at e
    · cases e
    · split at e
      · cases e
      · split at e
        · cases e
        · split at e
          · cases e
          · cases e
          · split at e
            · cases e
            · split at e
              · cases e
              · injection e with e
                subst e
                dsimp only
                refine testFreeboard_only (within_trans rfl hp) ?_ (by assumption) ?_
                · intro _ _
                  exact takeFreeboard_only (within_trans rfl hp) _ _ _ _ (putSeq_only (within_trans rfl hp) _ _
                    (by assumption))
                · exact newHandle_only (within_trans rfl hp) (by assumption)

theorem joinSegment_only {pts} {s0 s : State} (hp : within [.sqs, .slc, .pgm, .car, .fab, .wei, .hif, .hlt, .status,
    .counters, .free] pts = true) (n) (keeper) (msg) (h : Only pts s0 s) : Only pts s0 (joinSegment n keeper msg s) := by
  unfold joinSegment
  split
  · exact h
  · split
    · exact sendVerdict_only (within_trans rfl hp) _ _ _ _ h
    · rename_i e
      exact sendVerdict_only (within_trans rfl hp) _ _ _ _ (updSeq_only (within_trans rfl hp) _ _ (testSegment_only
        (within_trans rfl hp) e h))

theorem retryAt_only {pts} {s0 s : State} (hp : within [.sqs] pts = true) (n) (step) (slot) (e_) (h :
    Only pts s0 s) : Only pts s0 (retryAt n step slot e_ s) := by
  unfold retryAt
  try dsimp only
  exact addWait_only (within_trans rfl hp) _ (by assumption)

theorem cutHopper_only {pts} {s0 s : State} (hp : within [.sqs, .pgm] pts = true) (slot) (l) (limit) (i) (d)
    (h : Only pts s0 s) : Only pts s0 (cutHopper slot l limit i d s) := by
  unfold cutHopper
  try dsimp only
  split
  · split
    · exact updDesc_only (within_trans rfl hp) _ _ (by assumption)
    · assumption
  · split
    · exact updLayer_only (within_trans rfl hp) _ _ _ (updDesc_only (within_trans rfl hp) _ _ (by assumption))
    · exact decRef_only (within_trans rfl hp) _ (updLayer_only (within_trans rfl hp) _ _ _ (by assumption))

theorem cutLayer_only {pts} {s0 s : State} (hp : within [.sqs, .pgm] pts = true) (slot) (limit) (l) (h :
    Only pts s0 s) : Only pts s0 (cutLayer slot limit l s) := by
  unfold cutLayer
  try dsimp only
  split
  · assumption
  · refine Only.foldl (fun _ _ _ => ?_) ?_
    · split
      · exact updLayer_only (within_trans rfl hp) _ _ _ (by assumption)
      · split
        · exact cutHopper_only (within_trans rfl hp) _ _ _ _ _ (by assumption)
        · split
          · exact decRef_only (within_trans rfl hp) _ (updLayer_only (within_trans rfl hp) _ _ _ (by assumption))
          · assumption
    · assumption

theorem cutSequence_only {pts} {s0 s : State} (hp : within [.sqs, .pgm] pts = true) (slot) (limit) (h :
    Only pts s0 s) : Only pts s0 (cutSequence slot limit s) := by
  unfold cutSequence
  try dsimp only
  split
  · assumption
  · refine Only.foldl (fun _ _ _ => ?_) ?_
    · exact cutLayer_only (within_trans rfl hp) _ _ _ (by assumption)
    · assumption

theorem testResume_only {pts} {s0 s : State} {t}
    (hp : within [.sqs, .slc, .pgm, .car, .hif, .hlt, .status, .counters, .free] pts = true) {n slot point e_}
    (e : testResume n slot point e_ s = .ok t) (h : Only pts s0 s) : Only pts s0 t.1 := by
  unfold testResume at e
  try dsimp only at e
  split at e
  · cases e
  · split at e
    · cases e
    · split at e
      · cases e
      · injection e with e
        subst e
        dsimp only
        refine testFreeboard_only (within_trans rfl hp) ?_ (by assumption) ?_
        · intro _ _
          exact cutSequence_only (within_trans rfl hp) _ _ (by assumption)
        · exact updSeq_only (within_trans rfl hp) _ _ (by assumption)

theorem grantResume_only {pts} {s0 s : State} (hp : within [.sqs, .slc, .car, .fab, .wei, .hlt] pts = true) (n)
    (slot) (point) (p) (plan) (e_) (r) (h : Only pts s0 s) : Only pts s0 (grantResume n slot point p plan e_ r s) := by
  unfold grantResume
  try dsimp only
  refine sendGrant_only (within_trans rfl hp) _ _ _ _ _ _ ?_
  split
  · exact setRec_only (within_trans rfl hp) _ _ (updSeq_only (within_trans rfl hp) _ _ (clearWork_only
      (within_trans rfl hp) _ (by assumption)))
  · exact addNotice_only (within_trans rfl hp) _ _ _ _ (setRec_only (within_trans rfl hp) _ _ (updSeq_only
      (within_trans rfl hp) _ _ (clearWork_only (within_trans rfl hp) _ (by assumption))))

theorem joinResume_only {pts} {s0 s : State} (hp : within [.sqs, .slc, .pgm, .car, .fab, .wei, .hif, .hlt, .status,
    .counters, .free] pts = true) (n) (slot) (handle) (h : Only pts s0 s) : Only pts s0 (joinResume n slot handle s) := by
  unfold joinResume
  split
  · split
    · exact h
    · split
      · exact h
      · split
        · exact leaveKeeper_only (within_trans rfl hp) _ (recallAll_only (within_trans rfl hp) _ _ _ h)
        · split
          · exact cancelOrphaned_only (within_trans rfl hp) _ _ h
          · dsimp only
            have hu := fun k f => updSeq_only (within_trans rfl hp) (s0 := s0) k f h
            split
            · exact retryAt_only (within_trans rfl hp) _ _ _ _ (hu _ _)
            · split
              · split
                · exact retryAt_only (within_trans rfl hp) _ _ _ _ (hu _ _)
                · exact cancelOrphaned_only (within_trans rfl hp) _ _ (hu _ _)
              · rename_i e
                exact grantResume_only (within_trans rfl hp) _ _ _ _ _ _ _ (testResume_only (within_trans rfl hp) e
                  (hu _ _))
  · exact h

theorem joinHandoff_only {pts} {s0 s : State} (hp : within [.sqs, .fab, .wei, .hlt, .free] pts = true) (n) (keeper)
    (g) (p) (h : Only pts s0 s) : Only pts s0 (joinHandoff n keeper g p s) := by
  unfold joinHandoff
  try dsimp only
  split
  · exact addWait_only (within_trans rfl hp) _ (by assumption)
  · split
    · exact addWait_only (within_trans rfl hp) _ (newHandle_only (within_trans rfl hp) (by assumption))
    · exact ownerSend_only (within_trans rfl hp) _ _ _ _ (Only.put [.sqs] (within_trans rfl hp) (putSeq_only
        (within_trans rfl hp) _ _ (freeBelow_only (within_trans rfl hp) _ (newHandle_only (within_trans rfl hp)
        (by assumption)))) rfl)

theorem refuseRehome_only {pts} {s0 s : State} (hp : within [.sqs, .hif, .mem] pts = true) (t) (e_) (reason)
    (h : Only pts s0 s) : Only pts s0 (refuseRehome t e_ reason s) := by
  unfold refuseRehome
  try dsimp only
  exact reasonWith_only (within_trans rfl hp) _ _ (addNotice_only (within_trans rfl hp) _ _ _ _ (by assumption))

theorem adoptPage_only {pts} {s0 s : State} (hp : within [.sqs, .pgm, .cmp, .fab, .wei, .hif, .hlt, .status, .free] pts = true)
    (slot) (l) (i) (keeper) (r) (h : Only pts s0 s) : Only pts s0 (adoptPage slot l i keeper r s) := by
  unfold adoptPage
  try dsimp only
  split
  · assumption
  · split
    · exact newDesc_only (within_trans rfl hp) _ (by assumption)
    · exact startRebuild_only (within_trans rfl hp) _ _ (fitLines_only (within_trans rfl hp) _ _ (updLayer_only
        (within_trans rfl hp) _ _ _ (newDesc_only (within_trans rfl hp) _ (by assumption))))

theorem adoptPages_only {pts} {s0 s : State} (hp : within [.sqs, .pgm, .cmp, .fab, .wei, .hif, .hlt, .status, .free] pts = true)
    (slot) (context) (keeper) (refs) (layers) (h : Only pts s0 s) : Only pts s0
    (adoptPages slot context keeper refs layers s) := by
  unfold adoptPages
  try dsimp only
  refine Only.foldl (fun _ _ _ => ?_) ?_
  · refine Only.foldl (fun _ _ _ => ?_) ?_
    · exact adoptPage_only (within_trans rfl hp) _ _ _ _ _ (by assumption)
    · assumption
  · assumption

theorem askHistory_only {pts} {s0 s : State} (hp : within [.sqs, .fab, .wei, .hlt] pts = true) (slot) (h :
    Only pts s0 s) : Only pts s0 (askHistory slot s) := by
  unfold askHistory
  try dsimp only
  split
  · split
    · assumption
    · exact sendSlu_only (within_trans rfl hp) _ _ _ (by assumption)
  · assumption

theorem beginRehome_only {pts} {s0 s : State}
    (hp : within [.sqs, .slc, .pgm, .cmp, .fab, .wei, .hif, .hlt, .status, .counters, .free] pts = true) (slot) (e_)
    (hist) (rs) (keeper) (h : Only pts s0 s) : Only pts s0 (beginRehome slot e_ hist rs keeper s) := by
  unfold beginRehome
  try dsimp only
  exact bump_only (within_trans rfl hp) _ _ (askHistory_only (within_trans rfl hp) _ (setRec_only
    (within_trans rfl hp) _ _ (setHist_only (within_trans rfl hp) _ _ (adoptPages_only
    (within_trans rfl hp) _ _ _ _ _ (by assumption)))))

theorem joinRehome_only {pts} {s0 s : State}
    (hp : within [.sqs, .slc, .pgm, .cmp, .car, .fab, .wei, .hif, .hlt, .status, .counters, .mem, .free] pts = true)
    (n) (p) (t) (requestId) (body) (h : Only pts s0 s) : Only pts s0 (joinRehome n p t requestId body s) := by
  unfold joinRehome
  try dsimp only
  split
  · exact refusedWith_only (within_trans rfl hp) _ _ (by assumption)
  · split
    · exact refusedWith_only (within_trans rfl hp) _ _ (by assumption)
    · split
      · exact addWait_only (within_trans rfl hp) _ (newHandle_only (within_trans rfl hp) (by assumption))
      · split
        · exact refusedWith_only (within_trans rfl hp) _ _ (by assumption)
        · split
          · exact refuseRehome_only (within_trans rfl hp) _ _ _ (by assumption)
          · split
            · split
              · exact addWait_only (within_trans rfl hp) _ (by assumption)
              · exact refuseRehome_only (within_trans rfl hp) _ _ _ (by assumption)
            · split
              · split
                · exact addWait_only (within_trans rfl hp) _ (by assumption)
                · exact refuseRehome_only (within_trans rfl hp) _ _ _ (by assumption)
              · split
                · split
                  · exact addWait_only (within_trans rfl hp) _ (by assumption)
                  · exact refuseRehome_only (within_trans rfl hp) _ _ _ (by assumption)
                · refine doneWith_only (within_trans rfl hp) _ _ _ ?_
                  refine beginRehome_only (within_trans rfl hp) _ _ _ _ _ ?_
                  refine testFreeboard_only (within_trans rfl hp) ?_ (by assumption) ?_
                  · intro _ _
                    exact takeFreeboard_only (within_trans rfl hp) _ _ _ _ (putSeq_only (within_trans rfl hp) _ _
                      (by assumption))
                  · exact newHandle_only (within_trans rfl hp) (by assumption)

theorem joinOne_only {pts} {s0 s : State}
    (hp : within [.sqs, .slc, .pgm, .cmp, .car, .fab, .wei, .hif, .hlt, .status, .counters, .mem, .free] pts = true)
    (n) (p) (h : Only pts s0 s) : Only pts s0 (joinOne n p s) := by
  unfold joinOne
  try dsimp only
  split
  · exact joinFork_only (within_trans rfl hp) _ _ (journalWait_only (within_trans rfl hp) _ (by assumption))
  · exact joinSegment_only (within_trans rfl hp) _ _ _ (journalWait_only (within_trans rfl hp) _ (by assumption))
  · exact joinResume_only (within_trans rfl hp) _ _ _ (journalWait_only (within_trans rfl hp) _ (by assumption))
  · exact joinHandoff_only (within_trans rfl hp) _ _ _ _ (journalWait_only (within_trans rfl hp) _ (by assumption))
  · exact joinRehome_only (within_trans rfl hp) _ _ _ _ _ (journal_only (within_trans rfl hp) _ _ _ _ _ _
      (journalWait_only (within_trans rfl hp) _ (by assumption)))
  · exact journalWait_only (within_trans rfl hp) _ (by assumption)

theorem carryJoin_only {pts} {s0 s : State}
    (hp : within [.sqs, .fab, .wei, .hif, .hlt, .status, .counters, .mem] pts = true) (n) (p) (h :
    Only pts s0 s) : Only pts s0 (carryJoin n p s) := by
  unfold carryJoin
  try dsimp only
  split
  · exact sendVerdict_only (within_trans rfl hp) _ _ _ _ (journalWait_only (within_trans rfl hp) _ (by assumption))
  · split
    · exact sendVerdict_only (within_trans rfl hp) _ _ _ _ (journalWait_only (within_trans rfl hp) _ (by assumption))
    · assumption
  · exact addWait_only (within_trans rfl hp) _ (by assumption)

theorem actionJoin_only {pts} {s0 s : State}
    (hp : within [.sqs, .slc, .pgm, .cmp, .car, .mdl, .fab, .wei, .hif, .sec, .hlt, .status, .counters, .mem,
      .free] pts = true) (n) (h : Only pts s0 s) : Only pts s0 (actionJoin n s) := by
  unfold actionJoin
  try dsimp only
  refine Only.foldl (fun _ _ _ => ?_) ?_
  · split
    · exact applyCommand_only (within_trans rfl hp) _ _ _ _ (by assumption)
    · assumption
  · split
    · refine Only.foldl (fun _ _ _ => ?_) ?_
      · exact joinOne_only (within_trans rfl hp) _ _ (by assumption)
      · exact dropPends_only (within_trans rfl hp) _ _ (by assumption)
    · refine Only.foldl (fun _ _ _ => ?_) ?_
      · exact carryJoin_only (within_trans rfl hp) _ _ (by assumption)
      · refine raise_only (within_trans rfl hp) _ ?_
        refine dispositionAt_only (within_trans rfl hp) _ _ _ _ _ ?_
        refine Only.foldl (fun _ _ _ => ?_) ?_
        · exact joinOne_only (within_trans rfl hp) _ _ (by assumption)
        · exact dropPends_only (within_trans rfl hp) _ _ (by assumption)

theorem doBuildTable_only {pts} {s0 s : State} (hp : within [.cmp, .hif, .mem] pts = true) (t) (h_) (layout)
    (source) (length) (h : Only pts s0 s) : Only pts s0 (doBuildTable t h_ layout source length s) := by
  unfold doBuildTable
  try dsimp only
  split
  · exact refusedWith_only (within_trans rfl hp) _ _ (tableResult_only (within_trans rfl hp) _ _ _ (by assumption))
  · exact Only.put [.cmp] (within_trans rfl hp) (by assumption) rfl

theorem doRemote_only {pts} {s0 s : State} (hp : within [.fab, .wei, .hif, .mem] pts = true) (t) (h_) (op) (o)
    (h : Only pts s0 s) : Only pts s0 (doRemote t h_ op o s) := by
  unfold doRemote
  try dsimp only
  split
  · exact refusedWith_only (within_trans rfl hp) _ _ (by assumption)
  · split
    · exact queueDisabled_only (within_trans rfl hp) _ (by assumption)
    · split
      · assumption
      · exact submitMsg_only (within_trans rfl hp) _ (takeSeq_only (within_trans rfl hp) _ (by assumption))

theorem doTaken_only {pts} {s0 s : State}
    (hp : within [.slc, .cmp, .fab, .wei, .hif, .sec, .hlt, .status, .counters, .mem] pts = true) (p) (t) (op)
    (body) (h : Only pts s0 s) : Only pts s0 (doTaken p t op body s) := by
  unfold doTaken
  try dsimp only
  split
  · exact doCompose_only (within_trans rfl hp) _ _ (journal_only (within_trans rfl hp) _ _ _ _ _ _ (by assumption))
  · exact doBuildTable_only (within_trans rfl hp) _ _ _ _ _ (journal_only (within_trans rfl hp) _ _ _ _ _ _
      (by assumption))
  · exact doOpenWindow_only (within_trans rfl hp) _ _ _ (journal_only (within_trans rfl hp) _ _ _ _ _ _
      (by assumption))
  · exact doReopenWindow_only (within_trans rfl hp) _ _ _ _ (journal_only (within_trans rfl hp) _ _ _ _ _ _
      (by assumption))
  · exact doRevokeWindow_only (within_trans rfl hp) _ _ _ (journal_only (within_trans rfl hp) _ _ _ _ _ _
      (by assumption))
  · exact doSetQueue_only (within_trans rfl hp) _ _ _ _ _ (journal_only (within_trans rfl hp) _ _ _ _ _ _
      (by assumption))
  · exact doSetPolicer_only (within_trans rfl hp) _ _ _ _ _ (journal_only (within_trans rfl hp) _ _ _ _ _ _
      (by assumption))
  · exact doRemote_only (within_trans rfl hp) _ _ _ _ (journal_only (within_trans rfl hp) _ _ _ _ _ _ (by assumption))
  · exact doRemote_only (within_trans rfl hp) _ _ _ _ (journal_only (within_trans rfl hp) _ _ _ _ _ _ (by assumption))
  · exact doRemote_only (within_trans rfl hp) _ _ _ _ (journal_only (within_trans rfl hp) _ _ _ _ _ _ (by assumption))
  · exact doStageImage_only (within_trans rfl hp) _ _ _ (journal_only (within_trans rfl hp) _ _ _ _ _ _
      (by assumption))
  · exact doCommitSvn_only (within_trans rfl hp) _ (journal_only (within_trans rfl hp) _ _ _ _ _ _ (by assumption))
  · exact journal_only (within_trans rfl hp) _ _ _ _ _ _ (by assumption)

theorem execBuildTableComplete_only {pts} {s0 s : State} {t}
    (hp : within [.cmp, .hif, .hlt, .status, .mem] pts = true) (e : execBuildTableComplete s = .next t) (h :
    Only pts s0 s) : Only pts s0 t := by
  unfold execBuildTableComplete at e
  try dsimp only at e
  split at e
  · injection e with e
    subst e
    assumption
  · split at e
    · injection e with e
      subst e
      assumption
    · injection e with e
      subst e
      exact done_only (within_trans rfl hp) _ (raise_only (within_trans rfl hp) _ (tableResult_only
        (within_trans rfl hp) _ _ _ (writeMem_only (within_trans rfl hp) _ _ (chargeTier_only
        (within_trans rfl hp) _ _ _ (Only.put [.cmp] (within_trans rfl hp) (by assumption) rfl)))))

theorem giveSlotBack_only {pts} {s0 s : State} (hp : within [.hif] pts = true) (r) (h : Only pts s0 s) : Only pts s0
    (giveSlotBack r s) := by
  unfold giveSlotBack
  try dsimp only
  exact setRing_only (within_trans rfl hp) _ _ (by assumption)

theorem takeCommand_only {pts} {s0 s : State}
    (hp : within [.sqs, .slc, .cmp, .fab, .wei, .hif, .sec, .hlt, .status, .counters, .mem] pts = true) (r) (bs)
    (op) (h_) (t) (sseq) (h : Only pts s0 s) : Only pts s0 (takeCommand r bs op h_ t sseq s) := by
  unfold takeCommand
  try dsimp only
  split
  · split
    · exact addWait_only (within_trans rfl hp) _ (noteFirst_only (within_trans rfl hp) _ _ (by assumption))
    · exact giveSlotBack_only (within_trans rfl hp) _ (noteFirst_only (within_trans rfl hp) _ _ (by assumption))
  · split
    · exact addWait_only (within_trans rfl hp) _ (noteFirst_only (within_trans rfl hp) _ _ (by assumption))
    · exact addWait_only (within_trans rfl hp) _ (noteFirst_only (within_trans rfl hp) _ _ (by assumption))
    · split
      · exact addWait_only (within_trans rfl hp) _ (noteFirst_only (within_trans rfl hp) _ _ (by assumption))
      · exact doTaken_only (within_trans rfl hp) _ _ _ _ (noteFirst_only (within_trans rfl hp) _ _ (by assumption))

theorem takeEntry_only {pts} {s0 s : State}
    (hp : within [.sqs, .slc, .cmp, .fab, .wei, .hif, .sec, .hlt, .status, .counters, .mem] pts = true) (r) (opened)
    (h : Only pts s0 s) : Only pts s0 (takeEntry r opened s) := by
  unfold takeEntry
  try dsimp only
  split
  · exact reasonWith_only (within_trans rfl hp) _ _ (setRing_only (within_trans rfl hp) _ _ (by assumption))
  · split
    · exact malformed_only (within_trans rfl hp) _ (setRing_only (within_trans rfl hp) _ _ (by assumption))
    · split
      · exact takeCommand_only (within_trans rfl hp) _ _ _ _ _ _ (setRing_only (within_trans rfl hp) _ _
          (by assumption))
      · exact malformed_only (within_trans rfl hp) _ (setRing_only (within_trans rfl hp) _ _ (by assumption))

theorem serveRing_only {pts} {s0 x3 : State} (hp : within [.sqs, .slc, .cmp, .fab, .wei, .hif, .sec, .hlt, .status,
    .counters, .mem] pts = true) (r) (opened) (x2) (h : Only pts s0 x3) : Only pts s0 (serveRing r opened x2 x3) := by
  induction x2 generalizing opened x3 with
  | zero => exact h
  | succ n ih =>
    unfold serveRing
    split
    · exact ih _ (takeEntry_only (within_trans rfl hp) _ _ h)
    · exact h

theorem consumed_only {pts} {s0 s : State}
    (hp : within [.sqs, .slc, .cmp, .fab, .wei, .hif, .sec, .hlt, .status, .counters, .mem] pts = true) (ring)
    (head) (h : Only pts s0 s) : Only pts s0 (consumed ring head s) := by
  unfold consumed
  try dsimp only
  exact serveRing_only (within_trans rfl hp) _ _ _ (setRing_only (within_trans rfl hp) _ _ (by assumption))

theorem doorbell_only {pts} {s0 s : State}
    (hp : within [.sqs, .slc, .cmp, .fab, .wei, .hif, .sec, .hlt, .status, .counters, .mem] pts = true) (ring)
    (tail) (h : Only pts s0 s) : Only pts s0 (doorbell ring tail s) := by
  unfold doorbell
  try dsimp only
  split
  · exact raise_only (within_trans rfl hp) _ (setRing_only (within_trans rfl hp) _ _ (by assumption))
  · exact serveRing_only (within_trans rfl hp) _ _ _ (setRing_only (within_trans rfl hp) _ _ (by assumption))

theorem submit_only {pts} {s0 s : State}
    (hp : within [.sqs, .slc, .cmp, .fab, .wei, .hif, .sec, .hlt, .status, .counters, .mem] pts = true) (h_) (op)
    (opened) (h : Only pts s0 s) : Only pts s0 (submit h_ op opened s) := by
  unfold submit
  try dsimp only
  split
  · exact serveRing_only (within_trans rfl hp) _ _ _ (setRing_only (within_trans rfl hp) _ _ (writeMem_only
      (within_trans rfl hp) _ _ (place_only (within_trans rfl hp) _ (by assumption))))
  · exact place_only (within_trans rfl hp) _ (by assumption)

theorem ringCommand_only {pts} {s0 s : State} {t}
    (hp : within [.sqs, .slc, .cmp, .fab, .wei, .hif, .sec, .hlt, .status, .counters, .mem] pts = true)
    {h_ op opened} (e : ringCommand h_ op opened s = .next t) (h : Only pts s0 s) : Only pts s0 t := by
  unfold ringCommand at e
  try dsimp only at e
  split at e
  · injection e with e
    subst e
    exact submit_only (within_trans rfl hp) _ _ _ (by assumption)
  · injection e with e
    subst e
    assumption

theorem execAllocObject_only {pts} {s0 s : State} {t}
    (hp : within [.sqs, .slc, .cmp, .fab, .wei, .hif, .sec, .hlt, .status, .counters, .mem] pts = true)
    {h_ extents alloc pin durable} (e : execAllocObject h_ extents alloc pin durable s = .next t) (h :
    Only pts s0 s) : Only pts s0 t := by
  unfold execAllocObject at e
  try dsimp only at e
  exact ringCommand_only (within_trans rfl hp) e (by assumption)

theorem ringCommandAt_only {pts} {s0 s : State} {t}
    (hp : within [.tmu, .sqs, .slc, .cmp, .fab, .wei, .hif, .sec, .hlt, .status, .counters, .mem] pts = true)
    {at_ h_ op} (e : ringCommandAt at_ h_ op s = .next t) (h : Only pts s0 s) : Only pts s0 t := by
  unfold ringCommandAt at e
  try dsimp only at e
  refine ringCommand_only (within_trans rfl hp) e ?_
  split
  · exact setNow_only (within_trans rfl hp) _ (by assumption)
  · assumption

theorem execAtomic_only {pts} {s0 s : State} {t}
    (hp : within [.tmu, .sqs, .slc, .cmp, .fab, .wei, .hif, .sec, .hlt, .status, .counters, .mem] pts = true)
    {at_ h_ o} (e : execAtomic at_ h_ o s = .next t) (h : Only pts s0 s) : Only pts s0 t := by
  unfold execAtomic at e
  try dsimp only at e
  exact ringCommandAt_only (within_trans rfl hp) e (by assumption)

theorem execBuildTable_only {pts} {s0 s : State} {t}
    (hp : within [.sqs, .slc, .cmp, .fab, .wei, .hif, .sec, .hlt, .status, .counters, .mem] pts = true)
    {h_ layout source length} (e : execBuildTable h_ layout source length s = .next t) (h : Only pts s0 s) :
    Only pts s0 t := by
  unfold execBuildTable at e
  try dsimp only at e
  exact ringCommand_only (within_trans rfl hp) e (by assumption)

theorem execCommitSvn_only {pts} {s0 s : State} {t}
    (hp : within [.sqs, .slc, .cmp, .fab, .wei, .hif, .sec, .hlt, .status, .counters, .mem] pts = true) {h_}
    (e : execCommitSvn h_ s = .next t) (h : Only pts s0 s) : Only pts s0 t := by
  unfold execCommitSvn at e
  try dsimp only at e
  exact ringCommand_only (within_trans rfl hp) e (by assumption)

theorem execCompose_only {pts} {s0 s : State} {t}
    (hp : within [.sqs, .slc, .cmp, .fab, .wei, .hif, .sec, .hlt, .status, .counters, .mem] pts = true) {h_}
    (e : execCompose h_ s = .next t) (h : Only pts s0 s) : Only pts s0 t := by
  unfold execCompose at e
  try dsimp only at e
  exact ringCommand_only (within_trans rfl hp) e (by assumption)

theorem execCqHeadWrite_only {pts} {s0 s : State} {t}
    (hp : within [.sqs, .slc, .cmp, .fab, .wei, .hif, .sec, .hlt, .status, .counters, .mem] pts = true) {ring head}
    (e : execCqHeadWrite ring head s = .next t) (h : Only pts s0 s) : Only pts s0 t := by
  unfold execCqHeadWrite at e
  try dsimp only at e
  split at e
  · injection e with e
    subst e
    exact consumed_only (within_trans rfl hp) _ _ (by assumption)
  · injection e with e
    subst e
    assumption

theorem execDrainDie_only {pts} {s0 s : State} {t}
    (hp : within [.sqs, .slc, .cmp, .fab, .wei, .hif, .sec, .hlt, .status, .counters, .mem] pts = true)
    {h_ die force} (e : execDrainDie h_ die force s = .next t) (h : Only pts s0 s) : Only pts s0 t := by
  unfold execDrainDie at e
  try dsimp only at e
  exact ringCommand_only (within_trans rfl hp) e (by assumption)

theorem execFreeObject_only {pts} {s0 s : State} {t}
    (hp : within [.sqs, .slc, .cmp, .fab, .wei, .hif, .sec, .hlt, .status, .counters, .mem] pts = true)
    {h_ index gen} (e : execFreeObject h_ index gen s = .next t) (h : Only pts s0 s) : Only pts s0 t := by
  unfold execFreeObject at e
  try dsimp only at e
  exact ringCommand_only (within_trans rfl hp) e (by assumption)

theorem execInstallKey_only {pts} {s0 s : State} {t}
    (hp : within [.sqs, .slc, .cmp, .fab, .wei, .hif, .sec, .hlt, .status, .counters, .mem] pts = true) {h_ opened}
    (e : execInstallKey h_ opened s = .next t) (h : Only pts s0 s) : Only pts s0 t := by
  unfold execInstallKey at e
  try dsimp only at e
  exact ringCommand_only (within_trans rfl hp) e (by assumption)

theorem execInstallTable_only {pts} {s0 s : State} {t}
    (hp : within [.sqs, .slc, .cmp, .fab, .wei, .hif, .sec, .hlt, .status, .counters, .mem] pts = true)
    {h_ entry currentStep} (e : execInstallTable h_ entry currentStep s = .next t) (h : Only pts s0 s) :
    Only pts s0 t := by
  unfold execInstallTable at e
  try dsimp only at e
  exact ringCommand_only (within_trans rfl hp) e (by assumption)

theorem execLease_only {pts} {s0 s : State} {t}
    (hp : within [.sqs, .slc, .cmp, .fab, .wei, .hif, .sec, .hlt, .status, .counters, .mem] pts = true) {h_ o}
    (e : execLease h_ o s = .next t) (h : Only pts s0 s) : Only pts s0 t := by
  unfold execLease at e
  try dsimp only at e
  exact ringCommand_only (within_trans rfl hp) e (by assumption)

theorem execOpenWindow_only {pts} {s0 s : State} {t}
    (hp : within [.tmu, .sqs, .slc, .cmp, .fab, .wei, .hif, .sec, .hlt, .status, .counters, .mem] pts = true)
    {at_ h_ o} (e : execOpenWindow at_ h_ o s = .next t) (h : Only pts s0 s) : Only pts s0 t := by
  unfold execOpenWindow at e
  try dsimp only at e
  exact ringCommandAt_only (within_trans rfl hp) e (by assumption)

theorem execRead_only {pts} {s0 s : State} {t}
    (hp : within [.tmu, .sqs, .slc, .cmp, .fab, .wei, .hif, .sec, .hlt, .status, .counters, .mem] pts = true)
    {at_ h_ o} (e : execRead at_ h_ o s = .next t) (h : Only pts s0 s) : Only pts s0 t := by
  unfold execRead at e
  try dsimp only at e
  exact ringCommandAt_only (within_trans rfl hp) e (by assumption)

theorem execReadmitDie_only {pts} {s0 s : State} {t}
    (hp : within [.sqs, .slc, .cmp, .fab, .wei, .hif, .sec, .hlt, .status, .counters, .mem] pts = true) {h_ die}
    (e : execReadmitDie h_ die s = .next t) (h : Only pts s0 s) : Only pts s0 t := by
  unfold execReadmitDie at e
  try dsimp only at e
  exact ringCommand_only (within_trans rfl hp) e (by assumption)

theorem execRegisterAdapter_only {pts} {s0 s : State} {t}
    (hp : within [.sqs, .slc, .cmp, .fab, .wei, .hif, .sec, .hlt, .status, .counters, .mem] pts = true) {h_}
    (e : execRegisterAdapter h_ s = .next t) (h : Only pts s0 s) : Only pts s0 t := by
  unfold execRegisterAdapter at e
  try dsimp only at e
  exact ringCommand_only (within_trans rfl hp) e (by assumption)

theorem execRegisterContext_only {pts} {s0 s : State} {t}
    (hp : within [.sqs, .slc, .cmp, .fab, .wei, .hif, .sec, .hlt, .status, .counters, .mem] pts = true) {h_}
    (e : execRegisterContext h_ s = .next t) (h : Only pts s0 s) : Only pts s0 t := by
  unfold execRegisterContext at e
  try dsimp only at e
  exact ringCommand_only (within_trans rfl hp) e (by assumption)

theorem execRehome_only {pts} {s0 s : State} {t}
    (hp : within [.sqs, .slc, .cmp, .fab, .wei, .hif, .sec, .hlt, .status, .counters, .mem] pts = true)
    {h_ requestId} (e : execRehome h_ requestId s = .next t) (h : Only pts s0 s) : Only pts s0 t := by
  unfold execRehome at e
  try dsimp only at e
  exact ringCommand_only (within_trans rfl hp) e (by assumption)

theorem execReopenWindow_only {pts} {s0 s : State} {t}
    (hp : within [.tmu, .sqs, .slc, .cmp, .fab, .wei, .hif, .sec, .hlt, .status, .counters, .mem] pts = true)
    {at_ h_ window o} (e : execReopenWindow at_ h_ window o s = .next t) (h : Only pts s0 s) : Only pts s0 t := by
  unfold execReopenWindow at e
  try dsimp only at e
  exact ringCommandAt_only (within_trans rfl hp) e (by assumption)

theorem execRetireContext_only {pts} {s0 s : State} {t}
    (hp : within [.sqs, .slc, .cmp, .fab, .wei, .hif, .sec, .hlt, .status, .counters, .mem] pts = true) {h_ context}
    (e : execRetireContext h_ context s = .next t) (h : Only pts s0 s) : Only pts s0 t := by
  unfold execRetireContext at e
  try dsimp only at e
  exact ringCommand_only (within_trans rfl hp) e (by assumption)

theorem execRevokeWindow_only {pts} {s0 s : State} {t}
    (hp : within [.tmu, .sqs, .slc, .cmp, .fab, .wei, .hif, .sec, .hlt, .status, .counters, .mem] pts = true)
    {at_ h_ window} (e : execRevokeWindow at_ h_ window s = .next t) (h : Only pts s0 s) : Only pts s0 t := by
  unfold execRevokeWindow at e
  try dsimp only at e
  exact ringCommandAt_only (within_trans rfl hp) e (by assumption)

theorem ringControl_only {pts} {s0 s : State} (hp : within [.hif] pts = true) (ring) (value) (h :
    Only pts s0 s) : Only pts s0 (ringControl ring value s) := by
  unfold ringControl
  try dsimp only
  split
  · split
    · assumption
    · exact setRing_only (within_trans rfl hp) _ _ (by assumption)
  · split
    · exact setRing_only (within_trans rfl hp) _ _ (by assumption)
    · exact setRing_only (within_trans rfl hp) _ _ (by assumption)

theorem execRingCtrlWrite_only {pts} {s0 s : State} {t} (hp : within [.hif] pts = true) {ring value}
    (e : execRingCtrlWrite ring value s = .next t) (h : Only pts s0 s) : Only pts s0 t := by
  unfold execRingCtrlWrite at e
  try dsimp only at e
  split at e
  · injection e with e
    subst e
    exact ringControl_only (within_trans rfl hp) _ _ (by assumption)
  · injection e with e
    subst e
    assumption

theorem execSetPolicer_only {pts} {s0 s : State} {t}
    (hp : within [.tmu, .sqs, .slc, .cmp, .fab, .wei, .hif, .sec, .hlt, .status, .counters, .mem] pts = true)
    {at_ h_ dike enable rate burst} (e : execSetPolicer at_ h_ dike enable rate burst s = .next t) (h :
    Only pts s0 s) : Only pts s0 t := by
  unfold execSetPolicer at e
  try dsimp only at e
  exact ringCommandAt_only (within_trans rfl hp) e (by assumption)

theorem execSetQueue_only {pts} {s0 s : State} {t}
    (hp : within [.tmu, .sqs, .slc, .cmp, .fab, .wei, .hif, .sec, .hlt, .status, .counters, .mem] pts = true)
    {at_ h_ queue enable quantum rate} (e : execSetQueue at_ h_ queue enable quantum rate s = .next t) (h :
    Only pts s0 s) : Only pts s0 t := by
  unfold execSetQueue at e
  try dsimp only at e
  exact ringCommandAt_only (within_trans rfl hp) e (by assumption)

theorem execSqDoorbell_only {pts} {s0 s : State} {t}
    (hp : within [.tmu, .sqs, .slc, .cmp, .fab, .wei, .hif, .sec, .hlt, .status, .counters, .mem] pts = true)
    {at_ ring tail placed} (e : execSqDoorbell at_ ring tail placed s = .next t) (h : Only pts s0 s) : Only pts s0 t := by
  unfold execSqDoorbell at e
  try dsimp only at e
  split at e
  · injection e with e
    subst e
    exact doorbell_only (within_trans rfl hp) _ _ (place_only (within_trans rfl hp) _ (setNow_only
      (within_trans rfl hp) _ (by assumption)))
  · injection e with e
    subst e
    assumption

theorem execStageImage_only {pts} {s0 s : State} {t}
    (hp : within [.tmu, .sqs, .slc, .cmp, .fab, .wei, .hif, .sec, .hlt, .status, .counters, .mem] pts = true)
    {at_ h_} (e : execStageImage at_ h_ s = .next t) (h : Only pts s0 s) : Only pts s0 t := by
  unfold execStageImage at e
  try dsimp only at e
  exact ringCommandAt_only (within_trans rfl hp) e (by assumption)

theorem execSwitchImage_only {pts} {s0 s : State} {t}
    (hp : within [.sqs, .slc, .cmp, .fab, .wei, .hif, .sec, .hlt, .status, .counters, .mem] pts = true) {h_}
    (e : execSwitchImage h_ s = .next t) (h : Only pts s0 s) : Only pts s0 t := by
  unfold execSwitchImage at e
  try dsimp only at e
  exact ringCommand_only (within_trans rfl hp) e (by assumption)

theorem execWithdrawAdapter_only {pts} {s0 s : State} {t}
    (hp : within [.sqs, .slc, .cmp, .fab, .wei, .hif, .sec, .hlt, .status, .counters, .mem] pts = true) {h_ context}
    (e : execWithdrawAdapter h_ context s = .next t) (h : Only pts s0 s) : Only pts s0 t := by
  unfold execWithdrawAdapter at e
  try dsimp only at e
  exact ringCommand_only (within_trans rfl hp) e (by assumption)

theorem execWrite_only {pts} {s0 s : State} {t}
    (hp : within [.tmu, .sqs, .slc, .cmp, .fab, .wei, .hif, .sec, .hlt, .status, .counters, .mem] pts = true)
    {at_ h_ o} (e : execWrite at_ h_ o s = .next t) (h : Only pts s0 s) : Only pts s0 t := by
  unfold execWrite at e
  try dsimp only at e
  exact ringCommandAt_only (within_trans rfl hp) e (by assumption)

theorem serveTurns_only {pts} {s0 x1 : State}
    (hp : within [.sqs, .slc, .cmp, .fab, .wei, .hif, .sec, .hlt, .status, .counters, .mem] pts = true) (x0)
    (h : Only pts s0 x1) : Only pts s0 (serveTurns x0 x1) := by
  induction x0 generalizing x1 with
  | zero =>
    unfold serveTurns
    try dsimp only
    assumption
  | succ n ih =>
    unfold serveTurns
    try dsimp only
    split
    · apply ih
      refine Only.foldl (fun _ _ _ => ?_) ?_
      · exact serveRing_only (within_trans rfl hp) _ _ _ (by assumption)
      · assumption
    · assumption

theorem serveRings_only {pts} {s0 s : State}
    (hp : within [.sqs, .slc, .cmp, .fab, .wei, .hif, .sec, .hlt, .status, .counters, .mem] pts = true) (h :
    Only pts s0 s) : Only pts s0 (serveRings s) := by
  unfold serveRings
  try dsimp only
  exact serveTurns_only (within_trans rfl hp) _ (by assumption)

theorem fitStaging_only {pts} {s0 s : State} (hp : within [.sqs] pts = true) (n) (h : Only pts s0 s) : Only pts s0
    (fitStaging n s) := by
  unfold fitStaging
  try dsimp only
  refine Only.foldl_snd (fun _ _ _ => ?_) ?_
  · dsimp only
    exact updSeq_only (within_trans rfl hp) _ _ (by assumption)
  · dsimp only
    assumption

theorem lateSeals_only {pts} {s0 s : State} (hp : within [.hif, .hlt, .status, .counters, .mem] pts = true) (n)
    (h : Only pts s0 s) : Only pts s0 (lateSeals n s) := by
  unfold lateSeals
  try dsimp only
  split
  · assumption
  · refine Only.foldl (fun _ _ _ => ?_) ?_
    · exact dispositionAt_only (within_trans rfl hp) _ _ _ _ _ (by assumption)
    · exact sealLate_only (within_trans rfl hp) _ (by assumption)

theorem retrySeal_only {pts} {s0 s : State} (hp : within [.pgm, .free] pts = true) (i) (h : Only pts s0 s) :
    Only pts s0 (retrySeal i s) := by
  unfold retrySeal
  try dsimp only
  split
  · assumption
  · split
    · assumption
    · split
      · assumption
      · exact updDesc_only (within_trans rfl hp) _ _ (takeMap_only (within_trans rfl hp) _ _ _ (takeExtents_only
          (within_trans rfl hp) _ _ _ (by assumption)))

theorem sendSegment_only {pts} {s0 s : State} (hp : within [.sqs, .car, .fab, .wei, .hlt] pts = true) (slot) (e_)
    (h : Only pts s0 s) : Only pts s0 (sendSegment slot e_ s) := by
  unfold sendSegment
  try dsimp only
  split
  · assumption
  · refine Only.foldl (fun _ _ _ => ?_) ?_
    · exact forwardBlocks_only (within_trans rfl hp) _ _ (sendOwn_only (within_trans rfl hp) _ _ (by assumption))
    · assumption

theorem settleLeases_only {pts} {s0 s : State} (hp : within [.hif, .hlt, .status, .counters, .mem] pts = true)
    (h : Only pts s0 s) : Only pts s0 (settleLeases s) := by
  unfold settleLeases
  try dsimp only
  split
  · exact dispositionAt_only (within_trans rfl hp) _ _ _ _ _ (by assumption)
  · assumption

theorem settleOwned_only {pts} {s0 s : State} (hp : within [.sqs, .hif, .status] pts = true) (n) (slot) (o)
    (h : Only pts s0 s) : Only pts s0 (settleOwned n slot o s) := by
  unfold settleOwned
  try dsimp only
  exact raiseIf_only (within_trans rfl hp) _ _ (updOwned_only (within_trans rfl hp) _ _ (by assumption))

theorem settleProtection_only {pts} {s0 s : State} (hp : within [.pgm, .cmp, .fab, .wei, .hlt] pts = true) (h :
    Only pts s0 s) : Only pts s0 (settleProtection s) := by
  unfold settleProtection
  try dsimp only
  refine Only.foldl (fun _ _ _ => ?_) ?_
  · exact oweCkpt_only (within_trans rfl hp) _ (by assumption)
  · exact protectPages_only (within_trans rfl hp) (by assumption)

theorem settlePages_only {pts} {s0 s : State}
    (hp : within [.sqs, .pgm, .tir, .cmp, .car, .fab, .wei, .hif, .hlt, .status, .counters, .mem, .free] pts = true)
    (n) (h : Only pts s0 s) : Only pts s0 (settlePages n s) := by
  unfold settlePages
  try dsimp only
  refine settleProtection_only (within_trans rfl hp) ?_
  refine Only.foldl (fun _ _ _ => ?_) ?_
  · exact publishAll_only (within_trans rfl hp) _ _ _ (by assumption)
  · refine Only.foldl (fun _ _ _ => ?_) ?_
    · exact sendSegment_only (within_trans rfl hp) _ _ (by assumption)
    · refine Only.foldl (fun _ _ _ => ?_) ?_
      · exact switchSealed_only (within_trans rfl hp) _ (by assumption)
      · refine Only.put [.tir] (within_trans rfl hp) ?_ rfl
        refine Only.foldl (fun _ _ _ => ?_) ?_
        · exact retrySeal_only (within_trans rfl hp) _ (by assumption)
        · exact startCodings_only (within_trans rfl hp) (lateSeals_only (within_trans rfl hp) _ (by assumption))

theorem settleRing_only {pts} {s0 s : State} (hp : within [.car, .hif, .hlt, .status, .counters, .mem] pts = true)
    (e_) (h : Only pts s0 s) : Only pts s0 (settleRing e_ s) := by
  unfold settleRing
  try dsimp only
  split
  · assumption
  · refine Only.foldl (fun _ _ _ => ?_) ?_
    · exact Only.put [.car] (within_trans rfl hp) (by assumption) rfl
    · split
      · assumption
      · exact disposition_only (within_trans rfl hp) _ _ _ _ (bump_only (within_trans rfl hp) _ _ (raiseTimes_only
          (within_trans rfl hp) _ _ (by assumption)))

theorem settleRows_only {pts} {s0 s : State} (hp : within [.car] pts = true) (n) (h : Only pts s0 s) : Only pts s0
    (settleRows n s) := by
  unfold settleRows
  try dsimp only
  exact Only.put [.car] (within_trans rfl hp) (by assumption) rfl

theorem shiftPlan_only {pts} {s0 s : State} (hp : within [.sqs, .slc] pts = true) (slot) (e_) (h :
    Only pts s0 s) : Only pts s0 (shiftPlan slot e_ s) := by
  unfold shiftPlan
  try dsimp only
  split
  · assumption
  · split
    · assumption
    · exact setRec_only (within_trans rfl hp) _ _ (by assumption)

theorem settleSeqs_only {pts} {s0 s : State} (hp : within [.sqs, .slc] pts = true) (n) (h : Only pts s0 s) :
    Only pts s0 (settleSeqs n s) := by
  unfold settleSeqs
  try dsimp only
  refine Only.foldl (fun _ _ _ => ?_) ?_
  · exact shiftPlan_only (within_trans rfl hp) _ _ (by assumption)
  · refine fitStaging_only (within_trans rfl hp) _ ?_
    refine Only.foldl (fun _ _ _ => ?_) ?_
    · exact putSeq_only (within_trans rfl hp) _ _ (by assumption)
    · assumption

theorem settleStep_only {pts} {s0 s : State}
    (hp : within [.sqs, .slc, .pgm, .tir, .cmp, .car, .fab, .wei, .hif, .hlt, .status, .counters, .mem,
      .free] pts = true) (n) (h : Only pts s0 s) : Only pts s0 (settleStep n s) := by
  unfold settleStep
  try dsimp only
  refine tierBoundary_only (within_trans rfl hp) ?_
  refine Only.foldl (fun _ _ _ => ?_) ?_
  · exact settleOwned_only (within_trans rfl hp) _ _ _ (by assumption)
  · refine settlePages_only (within_trans rfl hp) _ ?_
    refine settleSeqs_only (within_trans rfl hp) _ ?_
    refine settleLeases_only (within_trans rfl hp) ?_
    refine settleRows_only (within_trans rfl hp) _ ?_
    refine Only.foldl (fun _ _ _ => ?_) ?_
    · exact settleRing_only (within_trans rfl hp) _ (by assumption)
    · refine Only.foldl (fun _ _ _ => ?_) ?_
      · exact disposition_only (within_trans rfl hp) _ _ _ _ (by assumption)
      · exact Only.put [.pgm] (within_trans rfl hp) (by assumption) rfl

theorem dropMaps_only {pts} {s0 s : State} (hp : within [.slc] pts = true) (h : Only pts s0 s) : Only pts s0
    (dropMaps s) := by
  unfold dropMaps
  try dsimp only
  exact Only.put [.slc] (within_trans rfl hp) (by assumption) rfl

theorem redirectResume_only {pts} {s0 s : State} (hp : within [.sqs, .slc] pts = true) (slot) (h :
    Only pts s0 s) : Only pts s0 (redirectResume slot s) := by
  unfold redirectResume
  try dsimp only
  split
  · exact resumeWait_only (within_trans rfl hp) _ _ (setRec_only (within_trans rfl hp) _ _ (updSeq_only
      (within_trans rfl hp) _ _ (by assumption)))
  · assumption

theorem expelSelf_only {pts} {s0 s : State} (hp : within [.sqs, .slc, .pgm, .car, .hif, .hlt, .status] pts = true)
    (h : Only pts s0 s) : Only pts s0 (expelSelf s) := by
  unfold expelSelf
  try dsimp only
  refine Only.put [.sqs] (within_trans rfl hp) ?_ rfl
  refine Only.foldl (fun _ _ _ => ?_) ?_
  · exact freeEntry_only (within_trans rfl hp) _ (by assumption)
  · exact Only.put [.sqs] (within_trans rfl hp) (raise_only (within_trans rfl hp) _ (by assumption)) rfl

theorem goneMembers_only {pts} {s0 s : State} (hp : within [.sqs, .slc, .hif, .hlt, .status, .counters] pts = true)
    (h : Only pts s0 s) : Only pts s0 (goneMembers s) := by
  unfold goneMembers
  try dsimp only
  refine Only.foldl (fun _ _ _ => ?_) ?_
  · split
    · assumption
    · refine Only.foldl (fun _ _ _ => ?_) ?_
      · split
        · exact memberLost_only (within_trans rfl hp) _ _ (by assumption)
        · assumption
      · assumption
  · assumption

theorem redirectNext_only {pts} {s0 s : State} (hp : within [.sqs, .slc] pts = true) (slot) (h :
    Only pts s0 s) : Only pts s0 (redirectNext slot s) := by
  unfold redirectNext
  try dsimp only
  split
  · exact setRec_only (within_trans rfl hp) _ _ (setRec_only (within_trans rfl hp) _ _ (updSeq_only
      (within_trans rfl hp) _ _ (by assumption)))
  · assumption

theorem redirectGone_only {pts} {s0 s : State} (hp : within [.sqs, .slc] pts = true) (h : Only pts s0 s) :
    Only pts s0 (redirectGone s) := by
  unfold redirectGone
  try dsimp only
  refine eachRec_only (within_trans rfl hp) _ ?_ ?_
  · intro _ _ _ _
    split
    · exact redirectResume_only (within_trans rfl hp) _ (by assumption)
    · split
      · exact redirectNext_only (within_trans rfl hp) _ (by assumption)
      · assumption
  · assumption

theorem goneCandidates_only {pts} {s0 s : State}
    (hp : within [.sqs, .fab, .wei, .hif, .hlt, .status, .counters] pts = true) (h : Only pts s0 s) : Only pts s0
    (goneCandidates s) := by
  unfold goneCandidates
  try dsimp only
  refine Only.foldl (fun _ _ _ => ?_) ?_
  · exact noKeeper_only (within_trans rfl hp) _ (by assumption)
  · exact Only.put [.sqs] (within_trans rfl hp) (by assumption) rfl

theorem goneKeepers_only {pts} {s0 s : State}
    (hp : within [.sqs, .fab, .wei, .hif, .hlt, .status, .counters] pts = true) (n) (h : Only pts s0 s) :
    Only pts s0 (goneKeepers n s) := by
  unfold goneKeepers
  try dsimp only
  refine goneCandidates_only (within_trans rfl hp) ?_
  refine Only.foldl (fun _ _ _ => ?_) ?_
  · split
    · exact raise_only (within_trans rfl hp) _ (updOwned_only (within_trans rfl hp) _ _ (by assumption))
    · assumption
  · assumption

theorem installMap_only {pts} {s0 s : State}
    (hp : within [.sqs, .slc, .pgm, .cmp, .car, .fab, .wei, .hif, .hlt, .status, .counters] pts = true) (n) (m)
    (h : Only pts s0 s) : Only pts s0 (installMap n m s) := by
  unfold installMap
  try dsimp only
  split
  · split
    · refine expelSelf_only (within_trans rfl hp) ?_
      refine raiseIf_only (within_trans rfl hp) _ _ ?_
      refine Only.foldl (fun _ _ _ => ?_) ?_
      · exact redirectResume_only (within_trans rfl hp) _ (by assumption)
      · exact Only.put [.slc, .fab] (within_trans rfl hp) (dropMaps_only (within_trans rfl hp) (by assumption)) rfl
    · refine replaceGone_only (within_trans rfl hp) ?_
      refine goneMembers_only (within_trans rfl hp) ?_
      refine redirectGone_only (within_trans rfl hp) ?_
      refine goneKeepers_only (within_trans rfl hp) _ ?_
      refine raiseIf_only (within_trans rfl hp) _ _ ?_
      refine Only.foldl (fun _ _ _ => ?_) ?_
      · exact redirectResume_only (within_trans rfl hp) _ (by assumption)
      · exact Only.put [.slc, .fab] (within_trans rfl hp) (dropMaps_only (within_trans rfl hp) (by assumption)) rfl
  · split
    · refine expelSelf_only (within_trans rfl hp) ?_
      refine raiseIf_only (within_trans rfl hp) _ _ ?_
      refine Only.foldl (fun _ _ _ => ?_) ?_
      · exact redirectResume_only (within_trans rfl hp) _ (by assumption)
      · exact Only.put [.slc, .fab] (within_trans rfl hp) (dropMaps_only (within_trans rfl hp) (by assumption)) rfl
    · refine replaceGone_only (within_trans rfl hp) ?_
      refine goneMembers_only (within_trans rfl hp) ?_
      refine redirectGone_only (within_trans rfl hp) ?_
      refine goneKeepers_only (within_trans rfl hp) _ ?_
      refine raiseIf_only (within_trans rfl hp) _ _ ?_
      refine Only.foldl (fun _ _ _ => ?_) ?_
      · exact redirectResume_only (within_trans rfl hp) _ (by assumption)
      · exact Only.put [.slc, .fab] (within_trans rfl hp) (dropMaps_only (within_trans rfl hp) (by assumption)) rfl

theorem actionMaps_only {pts} {s0 s : State}
    (hp : within [.sqs, .slc, .pgm, .cmp, .car, .fab, .wei, .hif, .hlt, .status, .counters] pts = true) (n)
    (h : Only pts s0 s) : Only pts s0 (actionMaps n s) := by
  unfold actionMaps
  try dsimp only
  split
  · exact dropMaps_only (within_trans rfl hp) (installMap_only (within_trans rfl hp) _ _ (by assumption))
  · exact dropMaps_only (within_trans rfl hp) (by assumption)

theorem enterPrefill_only {pts} {s0 s : State} (hp : within [.sqs] pts = true) (n) (h : Only pts s0 s) : Only pts s0
    (enterPrefill n s) := by
  unfold enterPrefill
  try dsimp only
  exact Only.put [.sqs] (within_trans rfl hp) (by assumption) rfl

theorem actionBuild_only {pts} {s0 s : State}
    (hp : within [.tmu, .sqs, .pgm, .cmp, .car, .mdl, .hif, .hlt, .status, .counters, .free] pts = true) (n)
    (h : Only pts s0 s) : Only pts s0 (actionBuild n s) := by
  unfold actionBuild
  try dsimp only
  exact swapCheck_only (within_trans rfl hp) (stageFirst_only (within_trans rfl hp) (buildStep_only
    (within_trans rfl hp) _ (enterPrefill_only (within_trans rfl hp) _ (by assumption))))

theorem applyRank_only {pts} {s0 s : State}
    (hp : within [.sqs, .slc, .pgm, .cmp, .car, .mdl, .fab, .wei, .hif, .sec, .hlt, .status, .counters, .mem,
      .free] pts = true) (ps) (k) (h : Only pts s0 s) : Only pts s0 (applyRank ps k s) := by
  unfold applyRank
  try dsimp only
  refine Only.foldl (fun _ _ _ => ?_) ?_
  · split
    · split
      · assumption
      · split
        · exact doTaken_only (within_trans rfl hp) _ _ _ _ (by assumption)
        · exact applyCommand_only (within_trans rfl hp) _ _ _ _ (by assumption)
    · assumption
  · assumption

theorem actionEnvelope_only {pts} {s0 s : State}
    (hp : within [.sqs, .slc, .pgm, .cmp, .car, .mdl, .fab, .wei, .hif, .sec, .hlt, .stw, .status, .counters, .mem,
      .free] pts = true) (n) (h : Only pts s0 s) : Only pts s0 (actionEnvelope n s) := by
  unfold actionEnvelope
  try dsimp only
  exact eraseKeys_only (within_trans rfl hp) (freeTables_only (within_trans rfl hp) (applyRank_only
    (within_trans rfl hp) _ _ (actionMaps_only (within_trans rfl hp) _ (dropForeign_only (within_trans rfl hp)
    (applyRank_only (within_trans rfl hp) _ _ (freeRetired_only (within_trans rfl hp) (retireVersions_only
    (within_trans rfl hp) (applyRank_only (within_trans rfl hp) _ _ (readyContexts_only (within_trans rfl hp)
    (applyRank_only (within_trans rfl hp) _ _ (diesAction_only (within_trans rfl hp) _ (coresAction_only
    (within_trans rfl hp) (applyRank_only (within_trans rfl hp) _ _ (applyRank_only (within_trans rfl hp) _ _
    (applyRank_only (within_trans rfl hp) _ _ (refreshLeases_only (within_trans rfl hp) (dropPends_only
    (within_trans rfl hp) _ _ (by assumption))))))))))))))))))

theorem actionSwitch_only {pts} {s0 s : State}
    (hp : within [.sqs, .hif, .sec, .hlt, .status, .counters, .mem] pts = true) (n) (h : Only pts s0 s) :
    Only pts s0 (actionSwitch n s) := by
  unfold actionSwitch
  try dsimp only
  refine Only.foldl (fun _ _ _ => ?_) ?_
  · split
    · exact doSwitchImage_only (within_trans rfl hp) _ (journalPend_only (within_trans rfl hp) _ _ _ _
        (by assumption))
    · assumption
  · exact dropPends_only (within_trans rfl hp) _ _ (by assumption)

theorem closeDigests_only {pts} {s0 s : State} (hp : within [.hif, .hlt, .status, .counters, .mem] pts = true) (n)
    (h : Only pts s0 s) : Only pts s0 (closeDigests n s) := by
  unfold closeDigests
  try dsimp only
  refine Only.put [.hlt] (within_trans rfl hp) ?_ rfl
  split
  · exact putJournal_only (within_trans rfl hp) _ _ _ _ _ _ _ _ (putJournal_only
      (within_trans rfl hp) _ _ _ _ _ _ _ _ (by assumption))
  · assumption

theorem countRecord_only {pts} {s0 s : State} (hp : within [.sqs, .hif, .hlt, .status, .counters] pts = true) (step)
    (r) (h : Only pts s0 s) : Only pts s0 (countRecord step r s) := by
  unfold countRecord
  try dsimp only
  split
  · assumption
  · split
    · exact charge_only (within_trans rfl hp) _ _ _ (by assumption)
    · refine raise_only (within_trans rfl hp) _ ?_
      refine bump_only (within_trans rfl hp) _ _ ?_
      split
      · exact updSeq_only (within_trans rfl hp) _ _ (sEvent_only (within_trans rfl hp) _ _ _ _ (setAcct_only
          (within_trans rfl hp) _ _ (charge_only (within_trans rfl hp) _ _ _ (by assumption))))
      · exact sEvent_only (within_trans rfl hp) _ _ _ _ (setAcct_only (within_trans rfl hp) _ _ (charge_only
          (within_trans rfl hp) _ _ _ (by assumption)))

theorem counterStep_only {pts} {s0 s : State} (hp : within [.tmu, .hif, .hlt, .status, .counters, .mem] pts = true)
    (h : Only pts s0 s) : Only pts s0 (counterStep s) := by
  unfold counterStep
  try dsimp only
  split
  · exact enterTime_only (within_trans rfl hp) _ (Only.put [.tmu] (within_trans rfl hp) (stepCounter_only
      (within_trans rfl hp) _ (by assumption)) rfl)
  · assumption

theorem dropRefused_only {pts} {s0 s : State} (hp : within [.sqs, .slc, .pgm, .car, .hlt] pts = true) (h :
    Only pts s0 s) : Only pts s0 (dropRefused s) := by
  unfold dropRefused
  try dsimp only
  split
  · assumption
  · refine Only.foldl (fun _ _ _ => ?_) ?_
    · exact freeEntry_only (within_trans rfl hp) _ (by assumption)
    · assumption

theorem grantHandoff_only {pts} {s0 s : State} (hp : within [.sqs, .slc, .fab, .wei, .hlt] pts = true) (slot) (g)
    (r) (h : Only pts s0 s) : Only pts s0 (grantHandoff slot g r s) := by
  unfold grantHandoff
  try dsimp only
  exact forwardTail_only (within_trans rfl hp) _ (setRec_only (within_trans rfl hp) _ _ (sendGrant_only
    (within_trans rfl hp) _ _ _ _ _ _ (by assumption)))

theorem recordTurn_only {pts} {s0 s : State} (hp : within [.sqs, .slc, .fab, .wei, .hlt] pts = true) (n) (slot) (r)
    (h : Only pts s0 s) : Only pts s0 (recordTurn n slot r s) := by
  unfold recordTurn
  try dsimp only
  split
  · assumption
  · split
    · split
      · exact grantHandoff_only (within_trans rfl hp) _ _ _ (by assumption)
      · assumption
    · split
      · split
        · exact grantHandoff_only (within_trans rfl hp) _ _ _ (by assumption)
        · exact setRec_only (within_trans rfl hp) _ _ (by assumption)
      · assumption
    · split
      · split
        · exact grantHandoff_only (within_trans rfl hp) _ _ _ (by assumption)
        · exact setRec_only (within_trans rfl hp) _ _ (by assumption)
      · assumption
    · split
      · split
        · exact setRec_only (within_trans rfl hp) _ _ (by assumption)
        · exact setRec_only (within_trans rfl hp) _ _ (sendGrant_only (within_trans rfl hp) _ _ _ _ _ _
            (by assumption))
      · split
        · exact setRec_only (within_trans rfl hp) _ _ (by assumption)
        · exact setRec_only (within_trans rfl hp) _ _ (sendGrant_only (within_trans rfl hp) _ _ _ _ _ _
            (by assumption))
    · assumption

theorem recordTurns_only {pts} {s0 s : State} (hp : within [.sqs, .slc, .fab, .wei, .hlt] pts = true) (n) (h :
    Only pts s0 s) : Only pts s0 (recordTurns n s) := by
  unfold recordTurns
  try dsimp only
  refine eachRec_only (within_trans rfl hp) _ ?_ ?_
  · intro _ _ _ _
    exact recordTurn_only (within_trans rfl hp) _ _ _ (by assumption)
  · assumption

theorem endOwner_only {pts} {s0 s : State} (hp : within [.sqs, .slc, .pgm, .car, .fab, .wei, .hlt] pts = true)
    (slot) (h : Only pts s0 s) : Only pts s0 (endOwner slot s) := by
  unfold endOwner
  try dsimp only
  split
  · assumption
  · exact freeEntry_only (within_trans rfl hp) _ (ownerSend_only (within_trans rfl hp) _ _ _ _ (by assumption))

theorem ownerTurn_only {pts} {s0 s : State}
    (hp : within [.sqs, .slc, .pgm, .car, .fab, .wei, .hif, .hlt, .mem, .free] pts = true) (slot) (o) (h :
    Only pts s0 s) : Only pts s0 (ownerTurn slot o s) := by
  unfold ownerTurn
  try dsimp only
  split
  · assumption
  · split
    · exact endOwner_only (within_trans rfl hp) _ (by assumption)
    · split
      · exact ownerSend_only (within_trans rfl hp) _ _ _ _ (embedNext_only (within_trans rfl hp) _ (by assumption))
      · exact embedNext_only (within_trans rfl hp) _ (by assumption)

theorem ownerTurns_only {pts} {s0 s : State}
    (hp : within [.sqs, .slc, .pgm, .car, .fab, .wei, .hif, .hlt, .mem, .free] pts = true) (h :
    Only pts s0 s) : Only pts s0 (ownerTurns s) := by
  unfold ownerTurns
  try dsimp only
  refine Only.foldl (fun _ _ _ => ?_) ?_
  · exact ownerTurn_only (within_trans rfl hp) _ _ (by assumption)
  · assumption

theorem sendBatches_only {pts} {s0 s : State}
    (hp : within [.sqs, .fab, .wei, .hif, .hlt, .status, .counters] pts = true) (step) (h : Only pts s0 s) :
    Only pts s0 (sendBatches step s) := by
  unfold sendBatches
  try dsimp only
  refine Only.foldl (fun _ _ _ => ?_) ?_
  · exact sendMsg_only (within_trans rfl hp) _ _ _ _ _ (by assumption)
  · refine Only.foldl (fun _ _ _ => ?_) ?_
    · exact countRecord_only (within_trans rfl hp) _ _ (by assumption)
    · exact Only.put [.sqs] (within_trans rfl hp) (by assumption) rfl

theorem serveInspect_only {pts} {s0 s : State} (hp : within [.sqs, .hif] pts = true) (h : Only pts s0 s) :
    Only pts s0 (serveInspect s) := by
  unfold serveInspect
  try dsimp only
  split
  · assumption
  · exact Only.put [.sqs, .hif] (within_trans rfl hp) (by assumption) rfl

theorem endOfWork_only {pts} {s0 s : State}
    (hp : within [.tmu, .sqs, .slc, .pgm, .car, .fab, .wei, .hif, .sec, .hlt, .status, .counters, .mem,
      .free] pts = true) (n) (h : Only pts s0 s) : Only pts s0 (endOfWork n s) := by
  unfold endOfWork
  try dsimp only
  exact counterStep_only (within_trans rfl hp) (serveInspect_only (within_trans rfl hp) (checkpoints_only
    (within_trans rfl hp) _ (ownerTurns_only (within_trans rfl hp) (sendBatches_only (within_trans rfl hp) _
    (recordTurns_only (within_trans rfl hp) _ (actionSwitch_only (within_trans rfl hp) _ (by assumption)))))))

theorem fiveActions_only {pts} {s0 s : State}
    (hp : within [.tmu, .sqs, .slc, .pgm, .cmp, .car, .mdl, .fab, .wei, .hif, .sec, .hlt, .stw, .status, .counters,
      .mem, .free] pts = true) (n) (h : Only pts s0 s) : Only pts s0 (fiveActions n s) := by
  unfold fiveActions
  try dsimp only
  exact Only.put [.sqs] (within_trans rfl hp) (actionBuild_only (within_trans rfl hp) _ (actionJoin_only
    (within_trans rfl hp) _ (actionAdmit_only (within_trans rfl hp) _ (actionEnvelope_only (within_trans rfl hp) _
    (dropRefused_only (within_trans rfl hp) (actionLeave_only (within_trans rfl hp) _ (by assumption))))))) rfl

theorem journalStep_only {pts} {s0 s : State} (hp : within [.hif, .hlt, .status, .counters, .mem] pts = true)
    (h : Only pts s0 s) : Only pts s0 (journalStep s) := by
  unfold journalStep
  try dsimp only
  exact journal_only (within_trans rfl hp) _ _ _ _ _ _ (by assumption)

theorem sample_only {pts} {s0 s : State} (hp : within [.tmu, .status] pts = true) (n) (h : Only pts s0 s) :
    Only pts s0 (sample n s) := by
  unfold sample
  try dsimp only
  exact Only.put [.tmu] (within_trans rfl hp) (ageStatus_only (within_trans rfl hp) (by assumption)) rfl

theorem openBoundary_only {pts} {s0 s : State}
    (hp : within [.tmu, .sqs, .slc, .pgm, .tir, .cmp, .car, .mdl, .fab, .wei, .hif, .sec, .hlt, .stw, .status,
      .counters, .mem, .free] pts = true) (n) (h : Only pts s0 s) : Only pts s0 (openBoundary n s) := by
  unfold openBoundary
  try dsimp only
  exact endOfWork_only (within_trans rfl hp) _ (fiveActions_only (within_trans rfl hp) _ (settleStep_only
    (within_trans rfl hp) _ (journalStep_only (within_trans rfl hp) (sample_only (within_trans rfl hp) _
    (closeDigests_only (within_trans rfl hp) _ (by assumption))))))

theorem setSqs_only {pts} {s0 s : State} (hp : within [.sqs] pts = true) (x : Sqs) (h : Only pts s0 s) :
    Only pts s0 { s with sqs := x } := Only.put [.sqs] hp h rfl

theorem realBoundary_only {pts} {s0 s : State} (hp : within [.tmu, .sqs, .slc, .pgm, .tir, .cmp, .car, .mdl, .fab,
    .wei, .hif, .sec, .hlt, .stw, .status, .counters, .mem, .free] pts = true) (workNs) (h : Only pts s0 s) :
    Only pts s0 (realBoundary workNs s) := by
  unfold realBoundary
  dsimp only
  refine setSqs_only (within_trans rfl hp) _ (openBoundary_only (within_trans rfl hp) _ ?_)
  split
  · exact freezeTally_only (within_trans rfl hp) (setNow_only (within_trans rfl hp) _ h)
  · exact setNow_only (within_trans rfl hp) _ h

end Sys2Proof.Machine
end

