-- ==== Sys2Proof/Laws/PartsEdge.lean ====
section
/-! SUPPORT. Which parts of the state each operation may change (Safety.Only): messages, replay, Nodor, SPDM,
    start-up, supply and registers.
`f_only`: what `f` makes of a state differs from it in the parts listed alone. -/

namespace Sys2Proof.Machine

open Sys2Proof.Safety

theorem onRequestBytes_only {pts} {s0 s : State} (hp : within [.sqs, .fab, .hif, .hlt, .status] pts = true) (sseq)
    (m) (h : Only pts s0 s) : Only pts s0 (onRequestBytes sseq m s) := by
  unfold onRequestBytes
  try dsimp only
  split
  · assumption
  · split
    · exact raise_only (within_trans rfl hp) _ (by assumption)
    · split
      · exact misdirect_only (within_trans rfl hp) _ (by assumption)
      · exact addWait_only (within_trans rfl hp) _ (noteFirst_only (within_trans rfl hp) _ _ (by assumption))

theorem forwardNamed_only {pts} {s0 s : State}
    (hp : within [.sqs, .fab, .wei, .hif, .hlt, .status, .counters, .mem] pts = true) (kind) (c) (h :
    Only pts s0 s) : Only pts s0 (forwardNamed kind c s) := by
  unfold forwardNamed
  try dsimp only
  split
  · exact raise_only (within_trans rfl hp) _ (consumeNow_only (within_trans rfl hp) _ _ _ _ (by assumption))
  · exact sendMsg_only (within_trans rfl hp) _ _ _ _ _ (takeSseq_only (within_trans rfl hp) (consumeNow_only
      (within_trans rfl hp) _ _ _ _ (by assumption)))

theorem onNamed_only {pts} {s0 s : State}
    (hp : within [.sqs, .fab, .wei, .hif, .hlt, .status, .counters, .mem] pts = true) (kind) (wait) (c) (h :
    Only pts s0 s) : Only pts s0 (onNamed kind wait c s) := by
  unfold onNamed
  try dsimp only
  split
  · assumption
  · split
    · exact addWait_only (within_trans rfl hp) _ (noteFirst_only (within_trans rfl hp) _ _ (by assumption))
    · split
      · exact forwardNamed_only (within_trans rfl hp) _ _ (by assumption)
      · exact misdirect_only (within_trans rfl hp) _ (by assumption)

theorem onNamedBytes_only {pts} {s0 s : State}
    (hp : within [.sqs, .fab, .wei, .hif, .hlt, .status, .counters, .mem] pts = true) (kind) (sseq) (wait) (m)
    (h : Only pts s0 s) : Only pts s0 (onNamedBytes kind sseq wait m s) := by
  unfold onNamedBytes
  try dsimp only
  split
  · exact raise_only (within_trans rfl hp) _ (by assumption)
  · exact onNamed_only (within_trans rfl hp) _ _ _ (by assumption)

theorem deliver_only {pts} {s0 s : State}
    (hp : within [.sqs, .slc, .pgm, .cmp, .car, .mdl, .fab, .wei, .hif, .hlt, .status, .counters, .mem,
      .free] pts = true) (sseq) (m) (h : Only pts s0 s) : Only pts s0 (deliver sseq m s) := by
  unfold deliver
  try dsimp only
  split
  · exact onRingBlock_only (within_trans rfl hp) _ (by assumption)
  · exact onProbe_only (within_trans rfl hp) _ (by assumption)
  · exact onFoldRecord_only (within_trans rfl hp) _ (by assumption)
  · exact onAdmitQuery_only (within_trans rfl hp) _ (by assumption)
  · exact onVerdict_only (within_trans rfl hp) _ (by assumption)
  · split
    · exact misdirect_only (within_trans rfl hp) _ (by assumption)
    · assumption
  · exact onRequestBytes_only (within_trans rfl hp) _ _ (by assumption)
  · exact onNamedBytes_only (within_trans rfl hp) _ _ _ _ (by assumption)
  · exact onNamedBytes_only (within_trans rfl hp) _ _ _ _ (by assumption)
  · exact onGrant_only (within_trans rfl hp) _ (by assumption)
  · exact onGrantAck_only (within_trans rfl hp) _ (by assumption)
  · exact onStatePush_only (within_trans rfl hp) _ (by assumption)
  · exact onRelease_only (within_trans rfl hp) _ (by assumption)
  · exact onPulse_only (within_trans rfl hp) _ (by assumption)
  · exact onTokenNote_only (within_trans rfl hp) _ (by assumption)
  · exact onNoteAck_only (within_trans rfl hp) _ (by assumption)
  · exact onReject_only (within_trans rfl hp) _ (by assumption)
  · exact onRecall_only (within_trans rfl hp) _ (by assumption)
  · exact onHistoryQuery_only (within_trans rfl hp) _ (by assumption)
  · exact onFragmentPut_only (within_trans rfl hp) _ (by assumption)
  · exact onFragmentAck_only (within_trans rfl hp) _ (by assumption)
  · exact onFragmentGet_only (within_trans rfl hp) _ (by assumption)
  · exact onFragmentData_only (within_trans rfl hp) _ (by assumption)
  · exact onFragmentFree_only (within_trans rfl hp) _ (by assumption)
  · exact onFragmentLost_only (within_trans rfl hp) _ (by assumption)
  · assumption

theorem execAdmitQuery_only {pts} {s0 s : State} {t} (hp : within [.sqs, .fab, .hif, .hlt, .status] pts = true) {m}
    (e : execAdmitQuery m s = .next t) (h : Only pts s0 s) : Only pts s0 t := by
  unfold execAdmitQuery at e
  try dsimp only at e
  injection e with e
  subst e
  exact onAdmitQuery_only (within_trans rfl hp) _ (by assumption)

theorem execCancel_only {pts} {s0 s : State} {t}
    (hp : within [.sqs, .fab, .wei, .hif, .hlt, .status, .counters, .mem] pts = true) {c}
    (e : execCancel c s = .next t) (h : Only pts s0 s) : Only pts s0 t := by
  unfold execCancel at e
  try dsimp only at e
  injection e with e
  subst e
  exact onNamed_only (within_trans rfl hp) _ _ _ (by assumption)

theorem execFoldRecord_only {pts} {s0 s : State} {t}
    (hp : within [.sqs, .slc, .pgm, .car, .mdl, .fab, .wei, .hif, .hlt, .status, .counters, .mem, .free] pts = true)
    {m} (e : execFoldRecord m s = .next t) (h : Only pts s0 s) : Only pts s0 t := by
  unfold execFoldRecord at e
  try dsimp only at e
  injection e with e
  subst e
  exact onFoldRecord_only (within_trans rfl hp) _ (by assumption)

theorem execFragmentAck_only {pts} {s0 s : State} {t}
    (hp : within [.pgm, .cmp, .fab, .wei, .hif, .hlt, .status, .counters, .mem] pts = true) {m}
    (e : execFragmentAck m s = .next t) (h : Only pts s0 s) : Only pts s0 t := by
  unfold execFragmentAck at e
  try dsimp only at e
  injection e with e
  subst e
  exact onFragmentAck_only (within_trans rfl hp) _ (by assumption)

theorem execFragmentData_only {pts} {s0 s : State} {t}
    (hp : within [.pgm, .cmp, .fab, .hif, .hlt, .status, .counters, .mem, .free] pts = true) {m}
    (e : execFragmentData m s = .next t) (h : Only pts s0 s) : Only pts s0 t := by
  unfold execFragmentData at e
  try dsimp only at e
  injection e with e
  subst e
  exact onFragmentData_only (within_trans rfl hp) _ (by assumption)

theorem execFragmentFree_only {pts} {s0 s : State} {t}
    (hp : within [.cmp, .fab, .hif, .hlt, .status, .counters, .mem] pts = true) {m}
    (e : execFragmentFree m s = .next t) (h : Only pts s0 s) : Only pts s0 t := by
  unfold execFragmentFree at e
  try dsimp only at e
  injection e with e
  subst e
  exact onFragmentFree_only (within_trans rfl hp) _ (by assumption)

theorem execFragmentGet_only {pts} {s0 s : State} {t}
    (hp : within [.cmp, .fab, .wei, .hif, .hlt, .status, .counters, .mem] pts = true) {m}
    (e : execFragmentGet m s = .next t) (h : Only pts s0 s) : Only pts s0 t := by
  unfold execFragmentGet at e
  try dsimp only at e
  injection e with e
  subst e
  exact onFragmentGet_only (within_trans rfl hp) _ (by assumption)

theorem execFragmentLost_only {pts} {s0 s : State} {t}
    (hp : within [.pgm, .cmp, .fab, .wei, .hif, .hlt, .status, .counters, .mem] pts = true) {m}
    (e : execFragmentLost m s = .next t) (h : Only pts s0 s) : Only pts s0 t := by
  unfold execFragmentLost at e
  try dsimp only at e
  injection e with e
  subst e
  exact onFragmentLost_only (within_trans rfl hp) _ (by assumption)

theorem execFragmentPut_only {pts} {s0 s : State} {t}
    (hp : within [.cmp, .fab, .wei, .hif, .hlt, .status, .counters, .mem] pts = true) {m}
    (e : execFragmentPut m s = .next t) (h : Only pts s0 s) : Only pts s0 t := by
  unfold execFragmentPut at e
  try dsimp only at e
  injection e with e
  subst e
  exact onFragmentPut_only (within_trans rfl hp) _ (by assumption)

theorem execGrant_only {pts} {s0 s : State} {t}
    (hp : within [.sqs, .fab, .wei, .hif, .hlt, .status, .counters, .mem] pts = true) {m}
    (e : execGrant m s = .next t) (h : Only pts s0 s) : Only pts s0 t := by
  unfold execGrant at e
  try dsimp only at e
  injection e with e
  subst e
  exact onGrant_only (within_trans rfl hp) _ (by assumption)

theorem execGrantAck_only {pts} {s0 s : State} {t}
    (hp : within [.sqs, .slc, .fab, .wei, .hif, .hlt, .status, .counters, .mem] pts = true) {m}
    (e : execGrantAck m s = .next t) (h : Only pts s0 s) : Only pts s0 t := by
  unfold execGrantAck at e
  try dsimp only at e
  injection e with e
  subst e
  exact onGrantAck_only (within_trans rfl hp) _ (by assumption)

theorem execHistoryQuery_only {pts} {s0 s : State} {t}
    (hp : within [.sqs, .fab, .wei, .hif, .hlt, .status, .counters, .mem] pts = true) {m}
    (e : execHistoryQuery m s = .next t) (h : Only pts s0 s) : Only pts s0 t := by
  unfold execHistoryQuery at e
  try dsimp only at e
  injection e with e
  subst e
  exact onHistoryQuery_only (within_trans rfl hp) _ (by assumption)

theorem execNoteAck_only {pts} {s0 s : State} {t}
    (hp : within [.sqs, .fab, .hif, .hlt, .status, .counters, .mem] pts = true) {m} (e : execNoteAck m s = .next t)
    (h : Only pts s0 s) : Only pts s0 t := by
  unfold execNoteAck at e
  try dsimp only at e
  injection e with e
  subst e
  exact onNoteAck_only (within_trans rfl hp) _ (by assumption)

theorem execPause_only {pts} {s0 s : State} {t}
    (hp : within [.sqs, .fab, .wei, .hif, .hlt, .status, .counters, .mem] pts = true) {c}
    (e : execPause c s = .next t) (h : Only pts s0 s) : Only pts s0 t := by
  unfold execPause at e
  try dsimp only at e
  injection e with e
  subst e
  exact onNamed_only (within_trans rfl hp) _ _ _ (by assumption)

theorem execProbe_only {pts} {s0 s : State} {t}
    (hp : within [.sqs, .slc, .pgm, .car, .mdl, .fab, .wei, .hif, .hlt, .status, .counters, .mem, .free] pts = true)
    {m} (e : execProbe m s = .next t) (h : Only pts s0 s) : Only pts s0 t := by
  unfold execProbe at e
  try dsimp only at e
  injection e with e
  subst e
  exact onProbe_only (within_trans rfl hp) _ (by assumption)

theorem execPulse_only {pts} {s0 s : State} {t}
    (hp : within [.sqs, .slc, .fab, .wei, .hif, .hlt, .status, .counters, .mem] pts = true) {m}
    (e : execPulse m s = .next t) (h : Only pts s0 s) : Only pts s0 t := by
  unfold execPulse at e
  try dsimp only at e
  injection e with e
  subst e
  exact onPulse_only (within_trans rfl hp) _ (by assumption)

theorem execRecall_only {pts} {s0 s : State} {t}
    (hp : within [.sqs, .fab, .hif, .hlt, .status, .counters, .mem] pts = true) {m} (e : execRecall m s = .next t)
    (h : Only pts s0 s) : Only pts s0 t := by
  unfold execRecall at e
  try dsimp only at e
  injection e with e
  subst e
  exact onRecall_only (within_trans rfl hp) _ (by assumption)

theorem execReject_only {pts} {s0 s : State} {t}
    (hp : within [.sqs, .fab, .hif, .hlt, .status, .counters, .mem] pts = true) {m} (e : execReject m s = .next t)
    (h : Only pts s0 s) : Only pts s0 t := by
  unfold execReject at e
  try dsimp only at e
  injection e with e
  subst e
  exact onReject_only (within_trans rfl hp) _ (by assumption)

theorem execRelease_only {pts} {s0 s : State} {t}
    (hp : within [.sqs, .slc, .fab, .wei, .hif, .hlt, .status, .counters, .mem] pts = true) {m}
    (e : execRelease m s = .next t) (h : Only pts s0 s) : Only pts s0 t := by
  unfold execRelease at e
  try dsimp only at e
  injection e with e
  subst e
  exact onRelease_only (within_trans rfl hp) _ (by assumption)

theorem execRingBlock_only {pts} {s0 s : State} {t}
    (hp : within [.sqs, .cmp, .car, .mdl, .fab, .wei, .hif, .hlt, .status, .counters, .mem, .free] pts = true) {m}
    (e : execRingBlock m s = .next t) (h : Only pts s0 s) : Only pts s0 t := by
  unfold execRingBlock at e
  try dsimp only at e
  injection e with e
  subst e
  exact onRingBlock_only (within_trans rfl hp) _ (by assumption)

theorem execStatePush_only {pts} {s0 s : State} {t}
    (hp : within [.sqs, .slc, .fab, .wei, .hif, .hlt, .status, .counters, .mem, .free] pts = true) {m}
    (e : execStatePush m s = .next t) (h : Only pts s0 s) : Only pts s0 t := by
  unfold execStatePush at e
  try dsimp only at e
  injection e with e
  subst e
  exact onStatePush_only (within_trans rfl hp) _ (by assumption)

theorem execTokenNote_only {pts} {s0 s : State} {t}
    (hp : within [.sqs, .slc, .fab, .wei, .hif, .hlt, .status, .counters, .mem] pts = true) {m}
    (e : execTokenNote m s = .next t) (h : Only pts s0 s) : Only pts s0 t := by
  unfold execTokenNote at e
  try dsimp only at e
  injection e with e
  subst e
  exact onTokenNote_only (within_trans rfl hp) _ (by assumption)

theorem execVerdict_only {pts} {s0 s : State} {t}
    (hp : within [.sqs, .fab, .wei, .hif, .hlt, .status, .counters, .mem, .free] pts = true) {m}
    (e : execVerdict m s = .next t) (h : Only pts s0 s) : Only pts s0 t := by
  unfold execVerdict at e
  try dsimp only at e
  injection e with e
  subst e
  exact onVerdict_only (within_trans rfl hp) _ (by assumption)

theorem diverge_only {pts} {s0 s : State} (hp : within [.hif, .hlt, .status] pts = true) (step) (r) (node) (h :
    Only pts s0 s) : Only pts s0 (diverge step r node s) := by
  unfold diverge
  try dsimp only
  exact raise_only (within_trans rfl hp) _ (Only.put [.hlt] (within_trans rfl hp) (by assumption) rfl)

theorem passStep_only {pts} {s0 s : State} (hp : within [.hlt] pts = true) (tail) (h : Only pts s0 s) : Only pts s0
    (passStep tail s) := by
  unfold passStep
  try dsimp only
  exact Only.put [.hlt] (within_trans rfl hp) (by assumption) rfl

theorem starve_only {pts} {s0 s : State} (hp : within [.hif, .hlt, .status] pts = true) (h : Only pts s0 s) :
    Only pts s0 (starve s) := by
  unfold starve
  try dsimp only
  split
  · assumption
  · exact raise_only (within_trans rfl hp) _ (Only.put [.hlt] (within_trans rfl hp) (by assumption) rfl)

theorem feedTime_only {pts} {s0 s : State} (hp : within [.tmu] pts = true) (r) (h : Only pts s0 s) : Only pts s0
    (feedTime r s) := by
  unfold feedTime
  try dsimp only
  exact Only.put [.tmu] (within_trans rfl hp) (by assumption) rfl

theorem feedKey_only {pts} {s0 s : State} (hp : within [.sqs] pts = true) (r) (h : Only pts s0 s) : Only pts s0
    (feedKey r s) := by
  unfold feedKey
  try dsimp only
  split
  · assumption
  · split
    · assumption
    · exact addWait_only (within_trans rfl hp) _ (Only.put [.sqs] (within_trans rfl hp) (by assumption) rfl)

theorem feedCommand_only {pts} {s0 s : State}
    (hp : within [.sqs, .slc, .cmp, .fab, .wei, .hif, .sec, .hlt, .status, .counters, .mem] pts = true) (r)
    (h : Only pts s0 s) : Only pts s0 (feedCommand r s) := by
  unfold feedCommand
  try dsimp only
  split
  · assumption
  · exact feedKey_only (within_trans rfl hp) _ (by assumption)
  · split
    · exact addWait_only (within_trans rfl hp) _ (by assumption)
    · exact addWait_only (within_trans rfl hp) _ (by assumption)
    · split
      · exact doTaken_only (within_trans rfl hp) _ _ _ _ (by assumption)
      · exact addWait_only (within_trans rfl hp) _ (by assumption)

theorem feedMessage_only {pts} {s0 s : State}
    (hp : within [.sqs, .slc, .pgm, .cmp, .car, .mdl, .fab, .wei, .hif, .hlt, .status, .counters, .mem,
      .free] pts = true) (r) (h : Only pts s0 s) : Only pts s0 (feedMessage r s) := by
  unfold feedMessage
  try dsimp only
  split
  · assumption
  · exact Only.put [.hlt] (within_trans rfl hp) (deliver_only (within_trans rfl hp) _ _ (Only.put [.hlt]
      (within_trans rfl hp) (by assumption) rfl)) rfl

theorem feedMoved_only {pts} {s0 s : State}
    (hp : within [.sqs, .car, .hif, .hlt, .status, .counters, .mem] pts = true) (code) (h_) (h :
    Only pts s0 s) : Only pts s0 (feedMoved code h_ s) := by
  unfold feedMoved
  try dsimp only
  split
  · assumption
  · split
    · exact pullItems_only (within_trans rfl hp) _ (updSeq_only (within_trans rfl hp) _ _ (by assumption))
    · split
      · exact deferSeq_only (within_trans rfl hp) _ _ (by assumption)
      · assumption

theorem feedDisposition_only {pts} {s0 s : State}
    (hp : within [.sqs, .tir, .car, .mdl, .hif, .hlt, .status, .counters, .mem] pts = true) (r) (h :
    Only pts s0 s) : Only pts s0 (feedDisposition r s) := by
  unfold feedDisposition
  try dsimp only
  split
  · exact bump_only (within_trans rfl hp) _ _ (raiseTimes_only (within_trans rfl hp) _ _ (by assumption))
  · exact raise_only (within_trans rfl hp) _ (bump_only (within_trans rfl hp) _ _ (Only.put [.tir, .mdl, .hlt]
      (within_trans rfl hp) (by assumption) rfl))
  · exact raise_only (within_trans rfl hp) _ (bump_only (within_trans rfl hp) _ _ (Only.put [.tir, .mdl, .hlt]
      (within_trans rfl hp) (by assumption) rfl))
  · exact Only.put [.tir, .mdl, .hlt] (within_trans rfl hp) (by assumption) rfl
  · exact feedMoved_only (within_trans rfl hp) _ _ (by assumption)

theorem feedRecord_only {pts} {s0 s : State}
    (hp : within [.tmu, .sqs, .slc, .pgm, .tir, .cmp, .car, .mdl, .fab, .wei, .hif, .sec, .hlt, .status, .counters,
      .mem, .free] pts = true) (r) (h : Only pts s0 s) : Only pts s0 (feedRecord s r) := by
  unfold feedRecord
  try dsimp only
  split
  · exact feedTime_only (within_trans rfl hp) _ (by assumption)
  · exact feedCommand_only (within_trans rfl hp) _ (by assumption)
  · exact feedMessage_only (within_trans rfl hp) _ (by assumption)
  · exact feedDisposition_only (within_trans rfl hp) _ (by assumption)
  · exact feedMessage_only (within_trans rfl hp) _ (by assumption)
  · assumption

theorem feedPrelude_only {pts} {s0 s : State}
    (hp : within [.tmu, .sqs, .slc, .pgm, .tir, .cmp, .car, .mdl, .fab, .wei, .hif, .sec, .hlt, .status, .counters,
      .mem, .free] pts = true) (rs) (h : Only pts s0 s) : Only pts s0 (feedPrelude rs s) := by
  unfold feedPrelude
  try dsimp only
  refine Only.foldl (fun _ _ _ => ?_) ?_
  · exact feedRecord_only (within_trans rfl hp) _ (by assumption)
  · assumption

theorem feedStep_only {pts} {s0 s : State} (hp : within [.tmu, .hlt] pts = true) (r) (h : Only pts s0 s) :
    Only pts s0 (feedStep r s) := by
  unfold feedStep
  try dsimp only
  exact Only.put [.tmu, .hlt] (within_trans rfl hp) (by assumption) rfl

theorem setReplaying_only {pts} {s0 s : State} (hp : within [.hlt] pts = true) (x : Hlt) (h : Only pts s0 s) :
    Only pts s0 { s with hlt := x } := Only.put [.hlt] hp h rfl

theorem openRecorded_only {pts} {s0 s : State} (hp : within [.tmu, .sqs, .slc, .pgm, .tir, .cmp, .car, .mdl, .fab,
    .wei, .hif, .sec, .hlt, .stw, .status, .counters, .mem, .free] pts = true) (rs) (st) (h : Only pts s0 s) :
    Only pts s0 (openRecorded rs st s) := by
  unfold openRecorded
  dsimp only
  refine Only.foldl (fun _ _ h => feedRecord_only (within_trans rfl hp) _ h) ?_
  refine setReplaying_only (within_trans rfl hp) _ (openBoundary_only (within_trans rfl hp) _ ?_)
  refine Only.foldl (fun _ _ h => feedRecord_only (within_trans rfl hp) _ h) ?_
  exact feedStep_only (within_trans rfl hp) _ (feedPrelude_only (within_trans rfl hp) _ h)

theorem openReplay_only {pts} {s0 x1 : State}
    (hp : within [.tmu, .sqs, .slc, .pgm, .tir, .cmp, .car, .mdl, .fab, .wei, .hif, .sec, .hlt, .stw, .status,
      .counters, .mem, .free] pts = true) (x0) (h : Only pts s0 x1) : Only pts s0 (openReplay x0 x1) := by
  induction x0 generalizing x1 with
  | zero =>
    unfold openReplay
    try dsimp only
    assumption
  | succ n ih =>
    unfold openReplay
    try dsimp only
    split
    · assumption
    · split
      · exact starve_only (within_trans rfl hp) (by assumption)
      · split
        · exact openRecorded_only (within_trans rfl hp) _ _ (Only.put [.hlt] (within_trans rfl hp) (by assumption) rfl)
        · apply ih
          exact passStep_only (within_trans rfl hp) _ (feedPrelude_only (within_trans rfl hp) _ (Only.put [.hlt]
            (within_trans rfl hp) (by assumption) rfl))

theorem endRecorded_only {pts} {s0 s : State}
    (hp : within [.tmu, .sqs, .slc, .pgm, .tir, .cmp, .car, .mdl, .fab, .wei, .hif, .sec, .hlt, .stw, .status,
      .counters, .mem, .free] pts = true) (h : Only pts s0 s) : Only pts s0 (endRecorded s) := by
  unfold endRecorded
  try dsimp only
  split
  · assumption
  · split
    · exact diverge_only (within_trans rfl hp) _ _ _ (passStep_only (within_trans rfl hp) _ (by assumption))
    · exact openReplay_only (within_trans rfl hp) _ (passStep_only (within_trans rfl hp) _ (by assumption))

theorem execCkptTailWrite_only {pts} {s0 s : State} {t} (hp : within [.hlt] pts = true) {value}
    (e : execCkptTailWrite value s = .next t) (h : Only pts s0 s) : Only pts s0 t := by
  unfold execCkptTailWrite at e
  try dsimp only at e
  split at e
  · injection e with e
    subst e
    exact Only.put [.hlt] (within_trans rfl hp) (by assumption) rfl
  · injection e with e
    subst e
    assumption

theorem supplyJournal_only {pts} {s0 s : State}
    (hp : within [.tmu, .sqs, .slc, .pgm, .tir, .cmp, .car, .mdl, .fab, .wei, .hif, .sec, .hlt, .stw, .status,
      .counters, .mem, .free] pts = true) (unit) (h : Only pts s0 s) : Only pts s0 (supplyJournal unit s) := by
  unfold supplyJournal
  try dsimp only
  split
  · exact openReplay_only (within_trans rfl hp) _ (Only.put [.hlt] (within_trans rfl hp) (by assumption) rfl)
  · exact Only.put [.hlt] (within_trans rfl hp) (by assumption) rfl

theorem execJournalHeadWrite_only {pts} {s0 s : State} {t}
    (hp : within [.tmu, .sqs, .slc, .pgm, .tir, .cmp, .car, .mdl, .fab, .wei, .hif, .sec, .hlt, .stw, .status,
      .counters, .mem, .free] pts = true) {value placed} (e : execJournalHeadWrite value placed s = .next t)
      (h : Only pts s0 s) : Only pts s0 t := by
  unfold execJournalHeadWrite at e
  try dsimp only at e
  split at e
  · injection e with e
    subst e
    exact supplyJournal_only (within_trans rfl hp) _ (place_only (within_trans rfl hp) _ (by assumption))
  · injection e with e
    subst e
    exact place_only (within_trans rfl hp) _ (by assumption)

theorem freeJournal_only {pts} {s0 s : State} (hp : within [.hlt] pts = true) (tail) (h : Only pts s0 s) :
    Only pts s0 (freeJournal tail s) := by
  unfold freeJournal
  try dsimp only
  exact Only.put [.hlt] (within_trans rfl hp) (by assumption) rfl

theorem execJournalTailWrite_only {pts} {s0 s : State} {t} (hp : within [.hlt] pts = true) {value}
    (e : execJournalTailWrite value s = .next t) (h : Only pts s0 s) : Only pts s0 t := by
  unfold execJournalTailWrite at e
  try dsimp only at e
  split at e
  · injection e with e
    subst e
    exact freeJournal_only (within_trans rfl hp) _ (by assumption)
  · injection e with e
    subst e
    assumption

theorem execReplayStepComplete_only {pts} {s0 s : State} {t}
    (hp : within [.tmu, .sqs, .slc, .pgm, .tir, .cmp, .car, .mdl, .fab, .wei, .hif, .sec, .hlt, .stw, .status,
      .counters, .mem, .free] pts = true) (e : execReplayStepComplete s = .next t) (h : Only pts s0 s) : Only pts s0 t := by
  unfold execReplayStepComplete at e
  try dsimp only at e
  split at e
  · injection e with e
    subst e
    exact endRecorded_only (within_trans rfl hp) (by assumption)
  · injection e with e
    subst e
    assumption

theorem execStepBoundary_only {pts} {s0 s : State} {t}
    (hp : within [.tmu, .sqs, .slc, .pgm, .tir, .cmp, .car, .mdl, .fab, .wei, .hif, .sec, .hlt, .stw, .status,
      .counters, .mem, .free] pts = true) {workNs} (e : execStepBoundary workNs s = .next t)
      (h : Only pts s0 s) : Only pts s0 t := by
  unfold execStepBoundary at e
  try dsimp only at e
  split at e
  · injection e with e
    subst e
    assumption
  · split at e
    · injection e with e
      subst e
      exact openReplay_only (within_trans rfl hp) _ (by assumption)
    · split at e
      · injection e with e
        subst e
        exact realBoundary_only (within_trans rfl hp) _ (by assumption)
      · injection e with e
        subst e
        assumption

theorem answer_only {pts} {s0 s : State} (hp : within [.fab, .wei] pts = true) (op) (dike) (dest) (window) (gen)
    (seq) (payload) (h : Only pts s0 s) : Only pts s0 (answer op dike dest window gen seq payload s) := by
  unfold answer
  try dsimp only
  exact queueFrame_only (within_trans rfl hp) _ _ (by assumption)

theorem ackComplete_only {pts} {s0 s : State} (hp : within [.fab, .wei] pts = true) (p) (h : Only pts s0 s) :
    Only pts s0 (ackComplete p s) := by
  unfold ackComplete
  try dsimp only
  exact answer_only (within_trans rfl hp) _ _ _ _ _ _ _ (by assumption)

theorem ackPartial_only {pts} {s0 s : State} (hp : within [.fab, .wei] pts = true) (m) (h : Only pts s0 s) :
    Only pts s0 (ackPartial m s) := by
  unfold ackPartial
  try dsimp only
  exact answer_only (within_trans rfl hp) _ _ _ _ _ _ _ (by assumption)

theorem chargeIn_only {pts} {s0 s : State} (hp : within [.hif, .hlt, .status] pts = true) (p) (h :
    Only pts s0 s) : Only pts s0 (chargeIn p s) := by
  unfold chargeIn
  try dsimp only
  split
  · assumption
  · exact charge_only (within_trans rfl hp) _ _ _ (by assumption)

theorem chargeSteward_only {pts} {s0 s : State} (hp : within [.hif, .hlt, .status] pts = true) (n) (m) (h :
    Only pts s0 s) : Only pts s0 (chargeSteward n m s).2 := by
  unfold chargeSteward
  try dsimp only
  split
  · dsimp only
    assumption
  · split
    · dsimp only
      exact charge_only (within_trans rfl hp) _ _ _ (by assumption)
    · dsimp only
      assumption

theorem fence_only {pts} {s0 s : State} (hp : within [.fab, .free] pts = true) (p) (h : Only pts s0 s) : Only pts s0
    (fence p s) := by
  unfold fence
  try dsimp only
  split
  · split
    · exact freeBelow_only (within_trans rfl hp) _ (by assumption)
    · exact setWindow_only (within_trans rfl hp) _ _ (freeBelow_only (within_trans rfl hp) _ (by assumption))
  · assumption

theorem refuse_only {pts} {s0 s : State} (hp : within [.fab, .wei, .hif, .hlt, .status, .counters] pts = true)
    (reason) (p) (h : Only pts s0 s) : Only pts s0 (refuse reason p s) := by
  unfold refuse
  try dsimp only
  split
  · exact Only.put [.fab] (within_trans rfl hp) (bump_only (within_trans rfl hp) _ _ (by assumption)) rfl
  · exact answer_only (within_trans rfl hp) _ _ _ _ _ _ _ (Only.put [.fab] (within_trans rfl hp) (bump_only
      (within_trans rfl hp) _ _ (by assumption)) rfl)

theorem countKey_only {pts} {s0 s : State} (hp : within [.hif, .hlt, .status, .counters] pts = true) (p) (h :
    Only pts s0 s) : Only pts s0 (countKey p s) := by
  unfold countKey
  try dsimp only
  split
  · exact bump_only (within_trans rfl hp) _ _ (by assumption)
  · assumption

theorem reanswer_only {pts} {s0 s : State} (hp : within [.fab, .wei] pts = true) (p) (d) (h : Only pts s0 s) :
    Only pts s0 (reanswer p d s) := by
  unfold reanswer
  try dsimp only
  split
  · exact queueFrame_only (within_trans rfl hp) _ _ (by assumption)
  · exact ackComplete_only (within_trans rfl hp) _ (by assumption)

theorem checked_only {pts} {s0 s : State}
    (hp : within [.fab, .wei, .hif, .hlt, .status, .counters, .free] pts = true) (p) (act)
    (Hact : ∀ a0, Only pts s0 a0 → Only pts s0 (act a0)) (h : Only pts s0 s) : Only pts s0 (checked p act s) := by
  unfold checked
  try dsimp only
  split
  · exact refuse_only (within_trans rfl hp) _ _ (fence_only (within_trans rfl hp) _ (by assumption))
  · split
    · split
      · split
        · exact refuse_only (within_trans rfl hp) _ _ (countKey_only (within_trans rfl hp) _ (bump_only
            (within_trans rfl hp) _ _ (fence_only (within_trans rfl hp) _ (by assumption))))
        · split
          · exact bump_only (within_trans rfl hp) _ _ (fence_only (within_trans rfl hp) _ (by assumption))
          · apply Hact
            exact bump_only (within_trans rfl hp) _ _ (fence_only (within_trans rfl hp) _ (by assumption))
      · exact reanswer_only (within_trans rfl hp) _ _ (bump_only (within_trans rfl hp) _ _ (fence_only
          (within_trans rfl hp) _ (by assumption)))
    · split
      · exact ackComplete_only (within_trans rfl hp) _ (fence_only (within_trans rfl hp) _ (by assumption))
      · split
        · exact refuse_only (within_trans rfl hp) _ _ (countKey_only (within_trans rfl hp) _ (fence_only
            (within_trans rfl hp) _ (by assumption)))
        · split
          · exact fence_only (within_trans rfl hp) _ (by assumption)
          · apply Hact
            exact fence_only (within_trans rfl hp) _ (by assumption)

theorem countFcs_only {pts} {s0 s : State} (hp : within [.fab, .hif, .hlt, .status] pts = true) (p) (h :
    Only pts s0 s) : Only pts s0 (countFcs p s) := by
  unfold countFcs
  try dsimp only
  exact sEvent_only (within_trans rfl hp) _ _ _ _ (setPort_only (within_trans rfl hp) _ _ (by assumption))

theorem countFec_only {pts} {s0 s : State} (hp : within [.fab, .hif, .hlt, .status] pts = true) (p) (n) (h :
    Only pts s0 s) : Only pts s0 (countFec p n s) := by
  unfold countFec
  try dsimp only
  exact sEvent_only (within_trans rfl hp) _ _ _ _ (setPort_only (within_trans rfl hp) _ _ (by assumption))

theorem countFecLost_only {pts} {s0 s : State} (hp : within [.fab, .hif, .hlt, .status] pts = true) (p) (h :
    Only pts s0 s) : Only pts s0 (countFecLost p s) := by
  unfold countFecLost
  try dsimp only
  exact sEvent_only (within_trans rfl hp) _ _ _ _ (setPort_only (within_trans rfl hp) _ _ (by assumption))

theorem countFrameIn_only {pts} {s0 s : State} (hp : within [.fab, .hif, .hlt, .status] pts = true) (p) (h :
    Only pts s0 s) : Only pts s0 (countFrameIn p s) := by
  unfold countFrameIn
  try dsimp only
  exact wEvent_only (within_trans rfl hp) _ _ _ _ (wEvent_only (within_trans rfl hp) _ _ _ _ (setPort_only
    (within_trans rfl hp) _ _ (by assumption)))

theorem countNotMine_only {pts} {s0 s : State} (hp : within [.fab, .hif, .hlt, .status] pts = true) (p) (h :
    Only pts s0 s) : Only pts s0 (countNotMine p s) := by
  unfold countNotMine
  try dsimp only
  exact sEvent_only (within_trans rfl hp) _ _ _ _ (setPort_only (within_trans rfl hp) _ _ (by assumption))

theorem dropIn_only {pts} {s0 s : State} (hp : within [.fab] pts = true) (m) (h : Only pts s0 s) : Only pts s0
    (dropIn m s) := by
  unfold dropIn
  try dsimp only
  exact Only.put [.fab] (within_trans rfl hp) (by assumption) rfl

theorem dropIntake_only {pts} {s0 s : State} (hp : within [.hif, .hlt, .status, .counters] pts = true) (h :
    Only pts s0 s) : Only pts s0 (dropIntake s) := by
  unfold dropIntake
  try dsimp only
  exact raise_only (within_trans rfl hp) _ (bump_only (within_trans rfl hp) _ _ (by assumption))

theorem receive_only {pts} {s0 s : State} (hp : within [.fab, .hif, .hlt, .status, .counters] pts = true) (op) (p)
    (act) (Hact : ∀ a0, Only pts s0 a0 → Only pts s0 (act a0)) (h : Only pts s0 s) : Only pts s0
    (receive op p act s) := by
  unfold receive
  try dsimp only
  split
  · assumption
  · split
    · exact countFecLost_only (within_trans rfl hp) _ (countFec_only (within_trans rfl hp) _ _ (by assumption))
    · split
      · exact countFcs_only (within_trans rfl hp) _ (countFec_only (within_trans rfl hp) _ _ (by assumption))
      · split
        · exact countFrameIn_only (within_trans rfl hp) _ (countFec_only (within_trans rfl hp) _ _ (by assumption))
        · split
          · exact raise_only (within_trans rfl hp) _ (bump_only (within_trans rfl hp) _ _ (countFrameIn_only
              (within_trans rfl hp) _ (countFec_only (within_trans rfl hp) _ _ (by assumption))))
          · split
            · exact raise_only (within_trans rfl hp) _ (chargeIn_only (within_trans rfl hp) _ (countFrameIn_only
                (within_trans rfl hp) _ (countFec_only (within_trans rfl hp) _ _ (by assumption))))
            · split
              · exact countNotMine_only (within_trans rfl hp) _ (chargeIn_only (within_trans rfl hp) _
                  (countFrameIn_only (within_trans rfl hp) _ (countFec_only (within_trans rfl hp) _ _
                  (by assumption))))
              · apply Hact
                exact chargeIn_only (within_trans rfl hp) _ (countFrameIn_only (within_trans rfl hp) _
                  (countFec_only (within_trans rfl hp) _ _ (by assumption)))

theorem policed_only {pts} {s0 s : State} (hp : within [.wei, .hif, .hlt, .status, .counters] pts = true) (p) (act)
    (Hact : ∀ a0, Only pts s0 a0 → Only pts s0 (act a0)) (h : Only pts s0 s) : Only pts s0 (policed p act s) := by
  unfold policed
  try dsimp only
  split
  · apply Hact
    exact police_only (within_trans rfl hp) _ _ (by assumption)
  · exact police_only (within_trans rfl hp) _ _ (by assumption)

theorem holdSource_only {pts} {s0 s : State} {t} (hp : within [.fab, .free] pts = true) {n}
    (e : holdSource n s = some t) (h : Only pts s0 s) : Only pts s0 t := by
  unfold holdSource at e
  try dsimp only at e
  split at e
  · injection e with e
    subst e
    assumption
  · split at e
    · cases e
    · injection e with e
      subst e
      exact Only.put [.fab] (within_trans rfl hp) (freeOf_only (within_trans rfl hp) _ _ (by assumption)) rfl

theorem takeSingle_only {pts} {s0 s : State}
    (hp : within [.fab, .wei, .hif, .hlt, .status, .counters, .free] pts = true) (p) (act)
    (Hact : ∀ a0, Only pts s0 a0 → Only pts s0 (act a0)) (h : Only pts s0 s) : Only pts s0 (takeSingle p act s) := by
  unfold takeSingle
  try dsimp only
  refine policed_only (within_trans rfl hp) _ _ ?_ ?_
  · intro _ _
    split
    · exact dropIntake_only (within_trans rfl hp) (by assumption)
    · apply Hact
      exact holdSource_only (within_trans rfl hp) (by assumption) (by assumption)
  · assumption

theorem ownObject_only {pts} {s0 s : State} (hp : within [.hif, .hlt, .status] pts = true) (p) (act)
    (Hact : ∀ a0, Only pts s0 a0 → Only pts s0 (act a0)) (h : Only pts s0 s) : Only pts s0 (ownObject p act s) := by
  unfold ownObject
  try dsimp only
  refine forDike_only (within_trans rfl hp) _ _ _ ?_ ?_
  · intro _ _
    apply Hact
    assumption
  · assumption

theorem noteDone_only {pts} {s0 s : State} (hp : within [.fab] pts = true) (p) (prior) (h : Only pts s0 s) :
    Only pts s0 (noteDone p prior s) := by
  unfold noteDone
  try dsimp only
  exact Only.put [.fab] (within_trans rfl hp) (by assumption) rfl

theorem serveAtomic_only {pts} {s0 s : State} (hp : within [.pgm, .fab, .wei, .hif, .hlt, .status] pts = true) (p)
    (h : Only pts s0 s) : Only pts s0 (serveAtomic p s) := by
  unfold serveAtomic
  try dsimp only
  split
  · assumption
  · exact queueFrame_only (within_trans rfl hp) _ _ (noteDone_only (within_trans rfl hp) _ _ (placeObject_only
      (within_trans rfl hp) _ _ _ (chargeObject_only (within_trans rfl hp) _ _ (by assumption))))

theorem execNodorAtomic_only {pts} {s0 s : State} {t}
    (hp : within [.tmu, .pgm, .fab, .wei, .hif, .hlt, .status, .counters, .free] pts = true) {at_ p}
    (e : execNodorAtomic at_ p s = .next t) (h : Only pts s0 s) : Only pts s0 t := by
  unfold execNodorAtomic at e
  try dsimp only at e
  injection e with e
  subst e
  refine receive_only (within_trans rfl hp) _ _ _ ?_ ?_
  · intro _ _
    refine checked_only (within_trans rfl hp) _ _ ?_ ?_
    · intro _ _
      refine takeSingle_only (within_trans rfl hp) _ _ ?_ ?_
      · intro _ _
        refine ownObject_only (within_trans rfl hp) _ _ ?_ ?_
        · intro _ _
          exact serveAtomic_only (within_trans rfl hp) _ (by assumption)
        · assumption
      · assumption
    · assumption
  · exact setNow_only (within_trans rfl hp) _ (by assumption)

theorem serveRead_only {pts} {s0 s : State} (hp : within [.fab, .wei, .hif, .hlt, .status] pts = true) (p) (h :
    Only pts s0 s) : Only pts s0 (serveRead p s) := by
  unfold serveRead
  try dsimp only
  split
  · assumption
  · refine Only.foldl (fun _ _ _ => ?_) ?_
    · exact queueFrame_only (within_trans rfl hp) _ _ (by assumption)
    · exact noteDone_only (within_trans rfl hp) _ _ (chargeObject_only (within_trans rfl hp) _ _ (by assumption))

theorem execNodorRead_only {pts} {s0 s : State} {t}
    (hp : within [.tmu, .fab, .wei, .hif, .hlt, .status, .counters, .free] pts = true) {at_ p}
    (e : execNodorRead at_ p s = .next t) (h : Only pts s0 s) : Only pts s0 t := by
  unfold execNodorRead at e
  try dsimp only at e
  injection e with e
  subst e
  refine receive_only (within_trans rfl hp) _ _ _ ?_ ?_
  · intro _ _
    refine checked_only (within_trans rfl hp) _ _ ?_ ?_
    · intro _ _
      refine takeSingle_only (within_trans rfl hp) _ _ ?_ ?_
      · intro _ _
        refine ownObject_only (within_trans rfl hp) _ _ ?_ ?_
        · intro _ _
          exact serveRead_only (within_trans rfl hp) _ (by assumption)
        · assumption
      · assumption
    · assumption
  · exact setNow_only (within_trans rfl hp) _ (by assumption)

theorem repeatedIn_only {pts} {s0 s : State} (hp : within [.fab, .wei] pts = true) (m) (p) (h :
    Only pts s0 s) : Only pts s0 (repeatedIn m p s) := by
  unfold repeatedIn
  try dsimp only
  split
  · exact ackPartial_only (within_trans rfl hp) _ (by assumption)
  · assumption

theorem finishIn_only {pts} {s0 s : State}
    (hp : within [.sqs, .slc, .pgm, .cmp, .car, .mdl, .fab, .wei, .hif, .hlt, .status, .counters, .mem,
      .free] pts = true) (m) (p) (h : Only pts s0 s) : Only pts s0 (finishIn m p s) := by
  unfold finishIn
  try dsimp only
  split
  · exact raise_only (within_trans rfl hp) _ (dropIn_only (within_trans rfl hp) _ (by assumption))
  · split
    · exact deliver_only (within_trans rfl hp) _ _ (ackComplete_only (within_trans rfl hp) _ (noteDone_only
        (within_trans rfl hp) _ _ (dropIn_only (within_trans rfl hp) _ (by assumption))))
    · split
      · exact notice_only (within_trans rfl hp) _ _ _ _ _ _ (ackComplete_only (within_trans rfl hp) _ (noteDone_only
          (within_trans rfl hp) _ _ (dropIn_only (within_trans rfl hp) _ (by assumption))))
      · exact ackComplete_only (within_trans rfl hp) _ (noteDone_only (within_trans rfl hp) _ _ (dropIn_only
          (within_trans rfl hp) _ (by assumption)))

theorem putIn_only {pts} {s0 s : State} (hp : within [.fab] pts = true) (m) (h : Only pts s0 s) : Only pts s0
    (putIn m s) := by
  unfold putIn
  try dsimp only
  exact Only.put [.fab] (within_trans rfl hp) (by assumption) rfl

theorem joinIn_only {pts} {s0 s : State}
    (hp : within [.sqs, .slc, .pgm, .cmp, .car, .mdl, .fab, .wei, .hif, .hlt, .status, .counters, .mem,
      .free] pts = true) (m) (p) (h : Only pts s0 s) : Only pts s0 (joinIn m p s) := by
  unfold joinIn
  try dsimp only
  split
  · exact finishIn_only (within_trans rfl hp) _ _ (chargeSteward_only (within_trans rfl hp) _ _ (by assumption))
  · split
    · exact ackPartial_only (within_trans rfl hp) _ (putIn_only (within_trans rfl hp) _ (chargeSteward_only
        (within_trans rfl hp) _ _ (by assumption)))
    · exact putIn_only (within_trans rfl hp) _ (chargeSteward_only (within_trans rfl hp) _ _ (by assumption))

theorem takeSend_only {pts} {s0 s : State}
    (hp : within [.sqs, .slc, .pgm, .cmp, .car, .mdl, .fab, .wei, .hif, .hlt, .status, .counters, .mem,
      .free] pts = true) (p) (h : Only pts s0 s) : Only pts s0 (takeSend p s) := by
  unfold takeSend
  try dsimp only
  split
  · split
    · exact repeatedIn_only (within_trans rfl hp) _ _ (by assumption)
    · exact joinIn_only (within_trans rfl hp) _ _ (by assumption)
  · split
    · exact dropIntake_only (within_trans rfl hp) (by assumption)
    · split
      · exact joinIn_only (within_trans rfl hp) _ _ (holdSource_only (within_trans rfl hp) (by assumption)
          (by assumption))
      · exact dropIntake_only (within_trans rfl hp) (holdSource_only (within_trans rfl hp) (by assumption)
          (by assumption))

theorem execNodorSend_only {pts} {s0 s : State} {t}
    (hp : within [.tmu, .sqs, .slc, .pgm, .cmp, .car, .mdl, .fab, .wei, .hif, .hlt, .status, .counters, .mem,
      .free] pts = true) {at_ p} (e : execNodorSend at_ p s = .next t) (h : Only pts s0 s) : Only pts s0 t := by
  unfold execNodorSend at e
  try dsimp only at e
  injection e with e
  subst e
  refine receive_only (within_trans rfl hp) _ _ _ ?_ ?_
  · intro _ _
    refine checked_only (within_trans rfl hp) _ _ ?_ ?_
    · intro _ _
      exact takeSend_only (within_trans rfl hp) _ (by assumption)
    · assumption
  · exact setNow_only (within_trans rfl hp) _ (by assumption)

theorem placeWrite_only {pts} {s0 s : State} (hp : within [.pgm, .hif, .hlt, .status] pts = true) (p) (h :
    Only pts s0 s) : Only pts s0 (placeWrite p s) := by
  unfold placeWrite
  try dsimp only
  refine forDike_only (within_trans rfl hp) _ _ _ ?_ ?_
  · intro _ _
    exact placeObject_only (within_trans rfl hp) _ _ _ (by assumption)
  · assumption

theorem takeWrite_only {pts} {s0 s : State}
    (hp : within [.sqs, .slc, .pgm, .cmp, .car, .mdl, .fab, .wei, .hif, .hlt, .status, .counters, .mem,
      .free] pts = true) (p) (h : Only pts s0 s) : Only pts s0 (takeWrite p s) := by
  unfold takeWrite
  try dsimp only
  split
  · split
    · exact repeatedIn_only (within_trans rfl hp) _ _ (by assumption)
    · refine policed_only (within_trans rfl hp) _ _ ?_ ?_
      · intro _ _
        exact joinIn_only (within_trans rfl hp) _ _ (placeWrite_only (within_trans rfl hp) _ (by assumption))
      · assumption
  · refine policed_only (within_trans rfl hp) _ _ ?_ ?_
    · intro _ _
      split
      · exact dropIntake_only (within_trans rfl hp) (by assumption)
      · exact joinIn_only (within_trans rfl hp) _ _ (placeWrite_only (within_trans rfl hp) _ (holdSource_only
          (within_trans rfl hp) (by assumption) (by assumption)))
    · assumption

theorem execNodorWrite_only {pts} {s0 s : State} {t}
    (hp : within [.tmu, .sqs, .slc, .pgm, .cmp, .car, .mdl, .fab, .wei, .hif, .hlt, .status, .counters, .mem,
      .free] pts = true) {at_ p} (e : execNodorWrite at_ p s = .next t) (h : Only pts s0 s) : Only pts s0 t := by
  unfold execNodorWrite at e
  try dsimp only at e
  injection e with e
  subst e
  refine receive_only (within_trans rfl hp) _ _ _ ?_ ?_
  · intro _ _
    refine checked_only (within_trans rfl hp) _ _ ?_ ?_
    · intro _ _
      exact takeWrite_only (within_trans rfl hp) _ (by assumption)
    · assumption
  · exact setNow_only (within_trans rfl hp) _ (by assumption)

theorem execPartialAckTimer_only {pts} {s0 s : State} {t} (hp : within [.tmu, .fab, .wei] pts = true)
    {source msgSeq} (e : execPartialAckTimer source msgSeq s = .next t) (h : Only pts s0 s) : Only pts s0 t := by
  unfold execPartialAckTimer at e
  try dsimp only at e
  split at e
  · injection e with e
    subst e
    assumption
  · injection e with e
    subst e
    exact ackPartial_only (within_trans rfl hp) _ (putIn_only (within_trans rfl hp) _ (setNow_only
      (within_trans rfl hp) _ (by assumption)))

theorem countFrameOut_only {pts} {s0 s : State} (hp : within [.fab, .hif, .hlt, .status] pts = true) (p) (n)
    (h : Only pts s0 s) : Only pts s0 (countFrameOut p n s) := by
  unfold countFrameOut
  try dsimp only
  exact wEvent_only (within_trans rfl hp) _ _ _ _ (wEvent_only (within_trans rfl hp) _ _ _ _ (setPort_only
    (within_trans rfl hp) _ _ (by assumption)))

theorem execEthernetLinkChange_only {pts} {s0 s : State} {t} (hp : within [.fab, .wei, .hif, .status] pts = true)
    {port up} (e : execEthernetLinkChange port up s = .next t) (h : Only pts s0 s) : Only pts s0 t := by
  unfold execEthernetLinkChange at e
  try dsimp only at e
  split at e
  · injection e with e
    subst e
    assumption
  · injection e with e
    subst e
    split
    · exact raise_only (within_trans rfl hp) _ (setPort_only (within_trans rfl hp) _ _ (by assumption))
    · exact movePort_only (within_trans rfl hp) _ (raise_only (within_trans rfl hp) _ (setPort_only
        (within_trans rfl hp) _ _ (by assumption)))

theorem settleTicket_only {pts} {s0 s : State} (hp : within [] pts = true) (m) (f)
    (Hf : ∀ a0 a1, Only pts s0 a1 → Only pts s0 (f a0 a1)) (h : Only pts s0 s) : Only pts s0 (settleTicket m f s) := by
  unfold settleTicket
  try dsimp only
  split
  · apply Hf
    assumption
  · assumption

theorem execMessageAbandonTimer_only {pts} {s0 s : State} {t}
    (hp : within [.tmu, .fab, .wei, .hif, .hlt, .status, .counters, .mem] pts = true) {dest msgSeq}
    (e : execMessageAbandonTimer dest msgSeq s = .next t) (h : Only pts s0 s) : Only pts s0 t := by
  unfold execMessageAbandonTimer at e
  try dsimp only at e
  split at e
  · injection e with e
    subst e
    assumption
  · split at e
    · injection e with e
      subst e
      assumption
    · injection e with e
      subst e
      refine settleTicket_only (within_trans rfl hp) _ _ ?_ ?_
      · intro _ _ _
        exact abandoned_only (within_trans rfl hp) _ (by assumption)
      · exact endMsg_only (within_trans rfl hp) _ _ (raise_only (within_trans rfl hp) _ (bump_only
          (within_trans rfl hp) _ _ (setNow_only (within_trans rfl hp) _ (by assumption))))

theorem resend_only {pts} {s0 s : State} (hp : within [.fab, .wei, .hif, .hlt, .status, .counters] pts = true) (m)
    (i) (flags) (h : Only pts s0 s) : Only pts s0 (resend m i flags s) := by
  unfold resend
  try dsimp only
  exact bump_only (within_trans rfl hp) _ _ (queuePacket_only (within_trans rfl hp) _ _ _ (by assumption))

theorem resendMissing_only {pts} {s0 s : State}
    (hp : within [.fab, .wei, .hif, .hlt, .status, .counters] pts = true) (m) (bitmap) (h : Only pts s0 s) :
    Only pts s0 (resendMissing m bitmap s) := by
  unfold resendMissing
  try dsimp only
  refine Only.foldl (fun _ _ _ => ?_) ?_
  · exact resend_only (within_trans rfl hp) _ _ _ (by assumption)
  · assumption

theorem takeAck_only {pts} {s0 s : State}
    (hp : within [.fab, .wei, .hif, .hlt, .status, .counters, .mem] pts = true) (p) (h : Only pts s0 s) :
    Only pts s0 (takeAck p s) := by
  unfold takeAck
  try dsimp only
  split
  · assumption
  · split
    · exact resendMissing_only (within_trans rfl hp) _ _ (by assumption)
    · split
      · assumption
      · refine settleTicket_only (within_trans rfl hp) _ _ ?_ ?_
        · intro _ _ _
          exact done_only (within_trans rfl hp) _ (by assumption)
        · exact endMsg_only (within_trans rfl hp) _ _ (by assumption)

theorem execNodorAck_only {pts} {s0 s : State} {t}
    (hp : within [.tmu, .fab, .wei, .hif, .hlt, .status, .counters, .mem] pts = true) {at_ p}
    (e : execNodorAck at_ p s = .next t) (h : Only pts s0 s) : Only pts s0 t := by
  unfold execNodorAck at e
  try dsimp only at e
  injection e with e
  subst e
  refine receive_only (within_trans rfl hp) _ _ _ ?_ ?_
  · intro _ _
    exact takeAck_only (within_trans rfl hp) _ (by assumption)
  · exact setNow_only (within_trans rfl hp) _ (by assumption)

theorem takePrior_only {pts} {s0 s : State} (hp : within [.fab, .wei, .hif, .mem] pts = true) (p) (h :
    Only pts s0 s) : Only pts s0 (takePrior p s) := by
  unfold takePrior
  try dsimp only
  split
  · assumption
  · split
    · exact doneWith_only (within_trans rfl hp) _ _ _ (endMsg_only (within_trans rfl hp) _ _ (by assumption))
    · assumption

theorem execNodorAtomicData_only {pts} {s0 s : State} {t}
    (hp : within [.tmu, .fab, .wei, .hif, .hlt, .status, .counters, .mem] pts = true) {at_ p}
    (e : execNodorAtomicData at_ p s = .next t) (h : Only pts s0 s) : Only pts s0 t := by
  unfold execNodorAtomicData at e
  try dsimp only at e
  injection e with e
  subst e
  refine receive_only (within_trans rfl hp) _ _ _ ?_ ?_
  · intro _ _
    exact takePrior_only (within_trans rfl hp) _ (by assumption)
  · exact setNow_only (within_trans rfl hp) _ (by assumption)

theorem takeNack_only {pts} {s0 s : State} (hp : within [.fab, .wei, .hif, .mem] pts = true) (p) (h :
    Only pts s0 s) : Only pts s0 (takeNack p s) := by
  unfold takeNack
  try dsimp only
  split
  · assumption
  · refine settleTicket_only (within_trans rfl hp) _ _ ?_ ?_
    · intro _ _ _
      exact reasonWith_only (within_trans rfl hp) _ _ (by assumption)
    · exact endMsg_only (within_trans rfl hp) _ _ (by assumption)

theorem execNodorNack_only {pts} {s0 s : State} {t}
    (hp : within [.tmu, .fab, .wei, .hif, .hlt, .status, .counters, .mem] pts = true) {at_ p}
    (e : execNodorNack at_ p s = .next t) (h : Only pts s0 s) : Only pts s0 t := by
  unfold execNodorNack at e
  try dsimp only at e
  injection e with e
  subst e
  refine receive_only (within_trans rfl hp) _ _ _ ?_ ?_
  · intro _ _
    exact takeNack_only (within_trans rfl hp) _ (by assumption)
  · exact setNow_only (within_trans rfl hp) _ (by assumption)

theorem updOut_only {pts} {s0 s : State} (hp : within [.fab] pts = true) (dest) (seq) (f) (h : Only pts s0 s) :
    Only pts s0 (updOut dest seq f s) := by
  unfold updOut
  try dsimp only
  exact Only.put [.fab] (within_trans rfl hp) (by assumption) rfl

theorem takeData_only {pts} {s0 s : State} (hp : within [.fab, .wei, .hif, .mem] pts = true) (p) (h :
    Only pts s0 s) : Only pts s0 (takeData p s) := by
  unfold takeData
  try dsimp only
  split
  · assumption
  · split
    · split
      · assumption
      · split
        · exact done_only (within_trans rfl hp) _ (endMsg_only (within_trans rfl hp) _ _ (writeMem_only
            (within_trans rfl hp) _ _ (by assumption)))
        · exact updOut_only (within_trans rfl hp) _ _ _ (writeMem_only (within_trans rfl hp) _ _ (by assumption))
    · assumption

theorem execNodorReadData_only {pts} {s0 s : State} {t}
    (hp : within [.tmu, .fab, .wei, .hif, .hlt, .status, .counters, .mem] pts = true) {at_ p}
    (e : execNodorReadData at_ p s = .next t) (h : Only pts s0 s) : Only pts s0 t := by
  unfold execNodorReadData at e
  try dsimp only at e
  injection e with e
  subst e
  refine receive_only (within_trans rfl hp) _ _ _ ?_ ?_
  · intro _ _
    exact takeData_only (within_trans rfl hp) _ (by assumption)
  · exact setNow_only (within_trans rfl hp) _ (by assumption)

theorem execResendTimeout_only {pts} {s0 s : State} {t}
    (hp : within [.tmu, .fab, .wei, .hif, .hlt, .status, .counters] pts = true) {at_ dest msgSeq}
    (e : execResendTimeout at_ dest msgSeq s = .next t) (h : Only pts s0 s) : Only pts s0 t := by
  unfold execResendTimeout at e
  try dsimp only at e
  split at e
  · injection e with e
    subst e
    exact setNow_only (within_trans rfl hp) _ (by assumption)
  · split at e
    · injection e with e
      subst e
      exact resend_only (within_trans rfl hp) _ _ _ (setNow_only (within_trans rfl hp) _ (by assumption))
    · injection e with e
      subst e
      exact setNow_only (within_trans rfl hp) _ (by assumption)

theorem takeNonce_only {pts} {s0 s : State} (hp : within [.fab, .hif, .status] pts = true) (k) (h :
    Only pts s0 s) : Only pts s0 (takeNonce k s).2 := by
  unfold takeNonce
  try dsimp only
  split
  · dsimp only
    assumption
  · split
    · dsimp only
      exact raise_only (within_trans rfl hp) _ (Only.put [.fab] (within_trans rfl hp) (by assumption) rfl)
    · dsimp only
      exact Only.put [.fab] (within_trans rfl hp) (by assumption) rfl

theorem keyFor_only {pts} {s0 s : State} (hp : within [.fab, .hif, .status] pts = true) (f) (h :
    Only pts s0 s) : Only pts s0 (keyFor f s).2 := by
  unfold keyFor
  try dsimp only
  split
  · dsimp only
    assumption
  · dsimp only
    exact takeNonce_only (within_trans rfl hp) _ (by assumption)

theorem noteSent_only {pts} {s0 s : State} (hp : within [.fab] pts = true) (f) (h : Only pts s0 s) : Only pts s0
    (noteSent f s) := by
  unfold noteSent
  try dsimp only
  split
  · exact updOut_only (within_trans rfl hp) _ _ _ (by assumption)
  · assumption

theorem transmit_only {pts} {s0 s : State} (hp : within [.fab, .hif, .hlt, .status] pts = true) (p) (f) (h :
    Only pts s0 s) : Only pts s0 (transmit p f s) := by
  unfold transmit
  try dsimp only
  split
  · exact noteSent_only (within_trans rfl hp) _ (keyFor_only (within_trans rfl hp) _ (by assumption))
  · exact Only.put [.fab] (within_trans rfl hp) (charge_only (within_trans rfl hp) _ _ _ (countFrameOut_only
      (within_trans rfl hp) _ _ (noteSent_only (within_trans rfl hp) _ (keyFor_only (within_trans rfl hp) _
      (by assumption))))) rfl

theorem execTransmitOpportunity_only {pts} {s0 s : State} {t}
    (hp : within [.tmu, .fab, .wei, .hif, .hlt, .status] pts = true) {at_ port}
    (e : execTransmitOpportunity at_ port s = .next t) (h : Only pts s0 s) : Only pts s0 t := by
  unfold execTransmitOpportunity at e
  try dsimp only at e
  split at e
  · injection e with e
    subst e
    split
    · exact nextFrame_only (within_trans rfl hp) _ (setNow_only (within_trans rfl hp) _ (by assumption))
    · exact transmit_only (within_trans rfl hp) _ _ (nextFrame_only (within_trans rfl hp) _ (setNow_only
        (within_trans rfl hp) _ (by assumption)))
  · injection e with e
    subst e
    exact setNow_only (within_trans rfl hp) _ (by assumption)

theorem spdmRequest_only {pts} {s0 s : State} {u} (hp : within [] pts = true) {t act}
    (Hact : ∀ a0, Only pts s0 a0 → Only pts s0 (act a0)) (e : spdmRequest t act s = .next u) (h :
    Only pts s0 s) : Only pts s0 u := by
  unfold spdmRequest at e
  try dsimp only at e
  split at e
  · injection e with e
    subst e
    apply Hact
    assumption
  · injection e with e
    subst e
    assumption

theorem setSpdm_only {pts} {s0 s : State} (hp : within [.sec] pts = true) (t) (c) (h : Only pts s0 s) : Only pts s0
    (setSpdm t c s) := by
  unfold setSpdm
  try dsimp only
  split
  · exact Only.put [.sec] (within_trans rfl hp) (by assumption) rfl
  · exact Only.put [.sec] (within_trans rfl hp) (by assumption) rfl
  · exact Only.put [.sec] (within_trans rfl hp) (by assumption) rfl

theorem spdmFail_only {pts} {s0 s : State} (hp : within [.hif, .sec, .hlt, .status, .counters] pts = true) (t)
    (code) (data) (h : Only pts s0 s) : Only pts s0 (spdmFail t code data s) := by
  unfold spdmFail
  try dsimp only
  exact raise_only (within_trans rfl hp) _ (bump_only (within_trans rfl hp) _ _ (setSpdm_only
    (within_trans rfl hp) _ _ (by assumption)))

theorem spdmReady_only {pts} {s0 s : State} {u} (hp : within [.hif, .sec, .hlt, .status, .counters] pts = true)
    {t act} (Hact : ∀ a0 a1, Only pts s0 a1 → Only pts s0 (act a0 a1)) (e : spdmReady t act s = .next u) (h :
    Only pts s0 s) : Only pts s0 u := by
  unfold spdmReady at e
  try dsimp only at e
  refine spdmRequest_only (within_trans rfl hp) ?_ e ?_
  · intro _ _
    split
    · apply Hact
      assumption
    · exact spdmFail_only (within_trans rfl hp) _ _ _ (by assumption)
  · assumption

theorem freeBytes_only {pts} {s0 x1 : State} (hp : within [.free] pts = true) (x0) (h : Only pts s0 x1) :
    Only pts s0 (freeBytes x0 x1).2 := by
  induction x0 generalizing x1 with
  | zero =>
    unfold freeBytes
    try dsimp only
    assumption
  | succ n ih =>
    unfold freeBytes
    try dsimp only
    apply ih
    exact freeBelow_only (within_trans rfl hp) _ (by assumption)

theorem execChallenge_only {pts} {s0 s : State} {u}
    (hp : within [.hif, .sec, .hlt, .status, .counters, .free] pts = true) {t slot nonce}
    (e : execChallenge t slot nonce s = .next u) (h : Only pts s0 s) : Only pts s0 u := by
  unfold execChallenge at e
  try dsimp only at e
  refine spdmReady_only (within_trans rfl hp) ?_ e ?_
  · intro _ _ _
    split
    · exact spdmFail_only (within_trans rfl hp) _ _ _ (by assumption)
    · exact setSpdm_only (within_trans rfl hp) _ _ (freeBytes_only (within_trans rfl hp) _ (by assumption))
  · assumption

theorem respond_only {pts} {s0 s : State} (hp : within [.sec] pts = true) (t) (c) (request) (response) (h :
    Only pts s0 s) : Only pts s0 (respond t c request response s) := by
  unfold respond
  try dsimp only
  exact setSpdm_only (within_trans rfl hp) _ _ (by assumption)

theorem execGetCapabilities_only {pts} {s0 s : State} {u}
    (hp : within [.hif, .sec, .hlt, .status, .counters, .free] pts = true) {t}
    (e : execGetCapabilities t s = .next u) (h : Only pts s0 s) : Only pts s0 u := by
  unfold execGetCapabilities at e
  try dsimp only at e
  refine spdmRequest_only (within_trans rfl hp) ?_ e ?_
  · intro _ _
    split
    · exact spdmFail_only (within_trans rfl hp) _ _ _ (by assumption)
    · exact respond_only (within_trans rfl hp) _ _ _ _ (freeBelow_only (within_trans rfl hp) _ (freeBelow_only
        (within_trans rfl hp) _ (freeBelow_only (within_trans rfl hp) _ (by assumption))))
  · assumption

theorem execGetCertificate_only {pts} {s0 s : State} {u}
    (hp : within [.hif, .sec, .hlt, .status, .counters] pts = true) {t slot offset length}
    (e : execGetCertificate t slot offset length s = .next u) (h : Only pts s0 s) : Only pts s0 u := by
  unfold execGetCertificate at e
  try dsimp only at e
  refine spdmReady_only (within_trans rfl hp) ?_ e ?_
  · intro _ _ _
    split
    · exact spdmFail_only (within_trans rfl hp) _ _ _ (by assumption)
    · exact respond_only (within_trans rfl hp) _ _ _ _ (by assumption)
  · assumption

theorem execGetDigests_only {pts} {s0 s : State} {u} (hp : within [.hif, .sec, .hlt, .status, .counters] pts = true)
    {t} (e : execGetDigests t s = .next u) (h : Only pts s0 s) : Only pts s0 u := by
  unfold execGetDigests at e
  try dsimp only at e
  refine spdmReady_only (within_trans rfl hp) ?_ e ?_
  · intro _ _ _
    exact respond_only (within_trans rfl hp) _ _ _ _ (by assumption)
  · assumption

theorem execGetMeasurements_only {pts} {s0 s : State} {u}
    (hp : within [.hif, .sec, .hlt, .status, .counters, .free] pts = true) {t index signed nonce}
    (e : execGetMeasurements t index signed nonce s = .next u) (h : Only pts s0 s) : Only pts s0 u := by
  unfold execGetMeasurements at e
  try dsimp only at e
  refine spdmReady_only (within_trans rfl hp) ?_ e ?_
  · intro _ _ _
    split
    · exact spdmFail_only (within_trans rfl hp) _ _ _ (by assumption)
    · split
      · exact setSpdm_only (within_trans rfl hp) _ _ (freeBytes_only (within_trans rfl hp) _ (by assumption))
      · exact respond_only (within_trans rfl hp) _ _ _ _ (freeBytes_only (within_trans rfl hp) _ (by assumption))
  · assumption

theorem execGetVersion_only {pts} {s0 s : State} {u} (hp : within [.sec] pts = true) {t}
    (e : execGetVersion t s = .next u) (h : Only pts s0 s) : Only pts s0 u := by
  unfold execGetVersion at e
  try dsimp only at e
  refine spdmRequest_only (within_trans rfl hp) ?_ e ?_
  · intro _ _
    exact respond_only (within_trans rfl hp) _ _ _ _ (by assumption)
  · assumption

theorem keyProg_only {pts} {s0 s : State} (hp : within [.fab, .hif, .sec, .hlt, .status, .counters] pts = true)
    (port) (stream) (blob) (opened) (h : Only pts s0 s) : Only pts s0 (keyProg port stream blob opened s) := by
  unfold keyProg
  try dsimp only
  split
  · exact setSpdm_only (within_trans rfl hp) _ _ (takeBlob_only (within_trans rfl hp) _ _ _ _ _ (by assumption))
  · split
    · exact Only.put [.hif] (within_trans rfl hp) (setSpdm_only (within_trans rfl hp) _ _ (takeBlob_only
        (within_trans rfl hp) _ _ _ _ _ (by assumption))) rfl
    · exact Only.put [.hif] (within_trans rfl hp) (setSpdm_only (within_trans rfl hp) _ _ (takeBlob_only
        (within_trans rfl hp) _ _ _ _ _ (by assumption))) rfl

theorem execKeyProg_only {pts} {s0 s : State} {t}
    (hp : within [.fab, .hif, .sec, .hlt, .status, .counters] pts = true) {port streamConfigured blob opened}
    (e : execKeyProg port streamConfigured blob opened s = .next t) (h : Only pts s0 s) : Only pts s0 t := by
  unfold execKeyProg at e
  try dsimp only at e
  split at e
  · split at e
    · injection e with e
      subst e
      exact keyProg_only (within_trans rfl hp) _ _ _ _ (by assumption)
    · injection e with e
      subst e
      assumption
  · split at e
    · injection e with e
      subst e
      exact keyProg_only (within_trans rfl hp) _ _ _ _ (by assumption)
    · injection e with e
      subst e
      assumption

theorem execNegotiateAlgorithms_only {pts} {s0 s : State} {u}
    (hp : within [.hif, .sec, .hlt, .status, .counters] pts = true) {t version base meas asym}
    (e : execNegotiateAlgorithms t version base meas asym s = .next u) (h : Only pts s0 s) : Only pts s0 u := by
  unfold execNegotiateAlgorithms at e
  try dsimp only at e
  refine spdmRequest_only (within_trans rfl hp) ?_ e ?_
  · intro _ _
    split
    · exact spdmFail_only (within_trans rfl hp) _ _ _ (by assumption)
    · split
      · exact spdmFail_only (within_trans rfl hp) _ _ _ (by assumption)
      · split
        · exact spdmFail_only (within_trans rfl hp) _ _ _ (by assumption)
        · exact respond_only (within_trans rfl hp) _ _ _ _ (by assumption)
  · assumption

theorem execSpdmUnsupportedRequest_only {pts} {s0 s : State} {u}
    (hp : within [.hif, .sec, .hlt, .status, .counters] pts = true) {t code}
    (e : execSpdmUnsupportedRequest t code s = .next u) (h : Only pts s0 s) : Only pts s0 u := by
  unfold execSpdmUnsupportedRequest at e
  try dsimp only at e
  refine spdmRequest_only (within_trans rfl hp) ?_ e ?_
  · intro _ _
    exact spdmFail_only (within_trans rfl hp) _ _ _ (by assumption)
  · assumption

theorem applyCharter_only {pts} {s0 s : State} (hp : within [.tir, .sec, .stw] pts = true) (region) (h :
    Only pts s0 s) : Only pts s0 (applyCharter region s) := by
  unfold applyCharter
  try dsimp only
  exact Only.put [.tir, .sec, .stw] (within_trans rfl hp) (by assumption) rfl

theorem charterFailed_only {pts} {s0 s : State} (hp : within [.hif, .stw, .status] pts = true) (h :
    Only pts s0 s) : Only pts s0 (charterFailed s) := by
  unfold charterFailed
  try dsimp only
  exact raise_only (within_trans rfl hp) _ (Only.put [.stw] (within_trans rfl hp) (by assumption) rfl)

theorem doCharterWrite_only {pts} {s0 s : State} (hp : within [.hif, .stw, .status] pts = true) (a) (h :
    Only pts s0 s) : Only pts s0 (doCharterWrite a s) := by
  unfold doCharterWrite
  try dsimp only
  split
  · exact charterFailed_only (within_trans rfl hp) (by assumption)
  · exact queueFlash_only (within_trans rfl hp) _ (Only.put [.stw] (within_trans rfl hp) (by assumption) rfl)

theorem execCharterWrite_only {pts} {s0 s : State} {t} (hp : within [.hif, .stw, .status, .mem] pts = true) {placed}
    (e : execCharterWrite placed s = .next t) (h : Only pts s0 s) : Only pts s0 t := by
  unfold execCharterWrite at e
  try dsimp only at e
  injection e with e
  subst e
  split
  · exact doCharterWrite_only (within_trans rfl hp) _ (place_only (within_trans rfl hp) _ (by assumption))
  · assumption

theorem execCharterWriteComplete_only {pts} {s0 s : State} {t} (hp : within [.hif, .stw, .status, .free] pts = true)
    {ok} (e : execCharterWriteComplete ok s = .next t) (h : Only pts s0 s) : Only pts s0 t := by
  unfold execCharterWriteComplete at e
  try dsimp only at e
  split at e
  · split at e
    · injection e with e
      subst e
      exact popFlash_only (within_trans rfl hp) (raise_only (within_trans rfl hp) _ (writeFlash_only
        (within_trans rfl hp) _ _ (Only.put [.stw] (within_trans rfl hp) (by assumption) rfl)))
    · injection e with e
      subst e
      exact popFlash_only (within_trans rfl hp) (charterFailed_only (within_trans rfl hp) (breakFlash_only
        (within_trans rfl hp) _ (by assumption)))
  · injection e with e
    subst e
    assumption

theorem startQuarantine_only {pts} {s0 s : State} (hp : within [.hif, .hlt, .status, .counters] pts = true) (c)
    (h : Only pts s0 s) : Only pts s0 (startQuarantine c s) := by
  unfold startQuarantine
  try dsimp only
  exact bump_only (within_trans rfl hp) _ _ (updCore_only (within_trans rfl hp) _ _ _ (by assumption))

theorem applyHealth_only {pts} {s0 s : State} (hp : within [.hif, .hlt, .status, .counters] pts = true) (h :
    Only pts s0 s) : Only pts s0 (applyHealth s) := by
  unfold applyHealth
  try dsimp only
  refine Only.foldl (fun _ _ _ => ?_) ?_
  · exact startQuarantine_only (within_trans rfl hp) _ (by assumption)
  · assumption

theorem beginStep_only {pts} {s0 s : State} (hp : within [.stw] pts = true) (h : Only pts s0 s) : Only pts s0
    (beginStep s) := by
  unfold beginStep
  try dsimp only
  exact Only.put [.stw] (within_trans rfl hp) (by assumption) rfl

theorem bootMeasure_only {pts} {s0 s : State} (hp : within [.tir, .sec, .stw, .free] pts = true) (o) (h :
    Only pts s0 s) : Only pts s0 (bootMeasure o s) := by
  unfold bootMeasure
  try dsimp only
  exact logEvent_only (within_trans rfl hp) _ _ (logEvent_only (within_trans rfl hp) _ _ (logEvent_only
    (within_trans rfl hp) _ _ (applyCharter_only (within_trans rfl hp) _ (Only.put [.sec] (within_trans rfl hp)
    (freeBelow_only (within_trans rfl hp) _ (by assumption)) rfl))))

theorem cxlFault_only {pts} {s0 s : State} (hp : within [.hlt] pts = true) (h : Only pts s0 s) : Only pts s0
    (cxlFault s) := by
  unfold cxlFault
  try dsimp only
  split
  · exact dropFault_only (within_trans rfl hp) _ (by assumption)
  · exact addFault_only (within_trans rfl hp) _ (by assumption)

theorem enterRecovery_only {pts} {s0 s : State} (hp : within [.stw] pts = true) (cause) (h : Only pts s0 s) :
    Only pts s0 (enterRecovery cause s) := by
  unfold enterRecovery
  try dsimp only
  exact Only.put [.stw] (within_trans rfl hp) (by assumption) rfl

theorem startImage_only {pts} {s0 s : State} (hp : within [.sec, .stw] pts = true) (img) (h : Only pts s0 s) :
    Only pts s0 (startImage img s) := by
  unfold startImage
  try dsimp only
  exact logEvent_only (within_trans rfl hp) _ _ (Only.put [.sec, .stw] (within_trans rfl hp) (by assumption) rfl)

theorem execBootRomStart_only {pts} {s0 s : State} {t}
    (hp : within [.tir, .hif, .sec, .stw, .status, .free] pts = true) {o} (e : execBootRomStart o s = .next t)
    (h : Only pts s0 s) : Only pts s0 t := by
  unfold execBootRomStart at e
  try dsimp only at e
  split at e
  · split at e
    · injection e with e
      subst e
      exact enterRecovery_only (within_trans rfl hp) _ (bootMeasure_only (within_trans rfl hp) _ (by assumption))
    · injection e with e
      subst e
      split
      · exact startImage_only (within_trans rfl hp) _ (bootMeasure_only (within_trans rfl hp) _ (by assumption))
      · exact enterRecovery_only (within_trans rfl hp) _ (refuseImage_only (within_trans rfl hp) _ (bootMeasure_only
          (within_trans rfl hp) _ (by assumption)))
  · injection e with e
    subst e
    assumption

theorem execImageStartTimeout_only {pts} {s0 s : State} {t} (hp : within [.stw] pts = true)
    (e : execImageStartTimeout s = .next t) (h : Only pts s0 s) : Only pts s0 t := by
  unfold execImageStartTimeout at e
  try dsimp only at e
  injection e with e
  subst e
  split
  · exact enterRecovery_only (within_trans rfl hp) _ (by assumption)
  · assumption

theorem execPowerStepInterval_only {pts} {s0 s : State} {t} (hp : within [.stw] pts = true)
    (e : execPowerStepInterval s = .next t) (h : Only pts s0 s) : Only pts s0 t := by
  unfold execPowerStepInterval at e
  try dsimp only at e
  injection e with e
  subst e
  split
  · exact beginStep_only (within_trans rfl hp) (by assumption)
  · assumption

theorem recoveryDiscard_only {pts} {s0 s : State} (hp : within [.stw] pts = true) (h : Only pts s0 s) : Only pts s0
    (recoveryDiscard s) := by
  unfold recoveryDiscard
  try dsimp only
  exact Only.put [.stw] (within_trans rfl hp) (by assumption) rfl

theorem execRecoveryAbort_only {pts} {s0 s : State} {t} (hp : within [.stw] pts = true)
    (e : execRecoveryAbort s = .next t) (h : Only pts s0 s) : Only pts s0 t := by
  unfold execRecoveryAbort at e
  try dsimp only at e
  injection e with e
  subst e
  split
  · exact recoveryDiscard_only (within_trans rfl hp) (by assumption)
  · assumption

theorem recoveryVerify_only {pts} {s0 s : State} (hp : within [.hif, .sec, .stw, .status] pts = true) (sigOk)
    (h : Only pts s0 s) : Only pts s0 (recoveryVerify sigOk s) := by
  unfold recoveryVerify
  try dsimp only
  split
  · exact startImage_only (within_trans rfl hp) _ (Only.put [.stw] (within_trans rfl hp) (by assumption) rfl)
  · exact Only.put [.stw] (within_trans rfl hp) (raise_only (within_trans rfl hp) _ (refuseImage_only
      (within_trans rfl hp) _ (by assumption))) rfl

theorem execRecoveryFinish_only {pts} {s0 s : State} {t} (hp : within [.hif, .sec, .stw, .status] pts = true)
    {sigOk} (e : execRecoveryFinish sigOk s = .next t) (h : Only pts s0 s) : Only pts s0 t := by
  unfold execRecoveryFinish at e
  try dsimp only at e
  injection e with e
  subst e
  split
  · exact recoveryVerify_only (within_trans rfl hp) _ (by assumption)
  · assumption

theorem recoveryAppend_only {pts} {s0 s : State} (hp : within [.stw] pts = true) (length) (h : Only pts s0 s) :
    Only pts s0 (recoveryAppend length s) := by
  unfold recoveryAppend
  try dsimp only
  split
  · exact Only.put [.stw] (within_trans rfl hp) (by assumption) rfl
  · exact Only.put [.stw] (within_trans rfl hp) (by assumption) rfl

theorem execRecoveryPush_only {pts} {s0 s : State} {t} (hp : within [.hif, .stw] pts = true) {length chunk}
    (e : execRecoveryPush length chunk s = .next t) (h : Only pts s0 s) : Only pts s0 t := by
  unfold execRecoveryPush at e
  try dsimp only at e
  split at e
  · injection e with e
    subst e
    exact recoveryAppend_only (within_trans rfl hp) _ (Only.put [.hif, .stw] (within_trans rfl hp)
      (by assumption) rfl)
  · injection e with e
    subst e
    assumption

theorem flashRecovered_only {pts} {s0 s : State} (hp : within [.stw] pts = true) (h : Only pts s0 s) : Only pts s0
    (flashRecovered s) := by
  unfold flashRecovered
  try dsimp only
  split
  · assumption
  · exact queueFlash_only (within_trans rfl hp) _ (Only.put [.stw] (within_trans rfl hp) (by assumption) rfl)

theorem portsTrained_only {pts} {s0 s : State} (hp : within [.fab, .hif, .status] pts = true) (mask) (h :
    Only pts s0 s) : Only pts s0 (portsTrained mask s) := by
  unfold portsTrained
  try dsimp only
  refine Only.foldl (fun _ _ _ => ?_) ?_
  · split
    · exact raise_only (within_trans rfl hp) _ (setPort_only (within_trans rfl hp) _ _ (by assumption))
    · assumption
  · assumption

theorem execServiceReached_only {pts} {s0 s : State} {t}
    (hp : within [.tmu, .fab, .hif, .hlt, .stw, .status] pts = true) {ms portsUp}
    (e : execServiceReached ms portsUp s = .next t) (h : Only pts s0 s) : Only pts s0 t := by
  unfold execServiceReached at e
  try dsimp only at e
  split at e
  · injection e with e
    subst e
    exact flashRecovered_only (within_trans rfl hp) (cxlFault_only (within_trans rfl hp) (portsTrained_only
      (within_trans rfl hp) _ (setIntake_only (within_trans rfl hp) _ _ (Only.put [.tmu, .stw] (within_trans rfl hp)
      (by assumption) rfl))))
  · injection e with e
    subst e
    assumption

theorem failLink_only {pts} {s0 s : State}
    (hp : within [.sqs, .car, .fab, .wei, .hif, .hlt, .status, .counters, .mem] pts = true) (l) (h :
    Only pts s0 s) : Only pts s0 (failLink l s) := by
  unfold failLink
  try dsimp only
  split
  · exact linkConsequence_only (within_trans rfl hp) _ (raise_only (within_trans rfl hp) _ (setLink_only
      (within_trans rfl hp) _ _ (by assumption)))
  · assumption

theorem failStartCheck_only {pts} {s0 s : State} (hp : within [.hif, .hlt, .stw, .status, .counters] pts = true) (c)
    (h : Only pts s0 s) : Only pts s0 (failStartCheck c s) := by
  unfold failStartCheck
  try dsimp only
  split
  · exact raise_only (within_trans rfl hp) _ (queueFlash_only (within_trans rfl hp) _ (startQuarantine_only
      (within_trans rfl hp) _ (updCore_only (within_trans rfl hp) _ _ _ (by assumption))))
  · assumption

theorem execStewardStart_only {pts} {s0 s : State} {t}
    (hp : within [.sqs, .car, .fab, .wei, .hif, .hlt, .stw, .status, .counters, .mem] pts = true) {links failed}
    (e : execStewardStart links failed s = .next t) (h : Only pts s0 s) : Only pts s0 t := by
  unfold execStewardStart at e
  try dsimp only at e
  split at e
  · split at e
    · injection e with e
      subst e
      refine Only.put [.stw] (within_trans rfl hp) ?_ rfl
      refine Only.foldl (fun _ _ _ => ?_) ?_
      · exact failStartCheck_only (within_trans rfl hp) _ (by assumption)
      · refine applyHealth_only (within_trans rfl hp) ?_
        refine Only.foldl (fun _ _ _ => ?_) ?_
        · exact failLink_only (within_trans rfl hp) _ (by assumption)
        · assumption
    · injection e with e
      subst e
      exact Only.put [.stw] (within_trans rfl hp) (by assumption) rfl
  · injection e with e
    subst e
    assumption

theorem beginStart_only {pts} {s0 s : State} (hp : within [.stw, .sup] pts = true) (h : Only pts s0 s) : Only pts s0
    (beginStart s) := by
  unfold beginStart
  try dsimp only
  exact Only.put [.stw, .sup] (within_trans rfl hp) (by assumption) rfl

theorem setCxl_only {pts} {s0 s : State} (hp : within [.hif] pts = true) (port) (p) (h : Only pts s0 s) :
    Only pts s0 (setCxl port p s) := by
  unfold setCxl
  try dsimp only
  split
  · exact Only.put [.hif] (within_trans rfl hp) (by assumption) rfl
  · exact Only.put [.hif] (within_trans rfl hp) (by assumption) rfl

theorem changeCxl_only {pts} {s0 s : State}
    (hp : within [.sqs, .slc, .cmp, .fab, .wei, .hif, .sec, .hlt, .status, .counters, .mem] pts = true) (port) (p)
    (h : Only pts s0 s) : Only pts s0 (changeCxl port p s) := by
  unfold changeCxl
  try dsimp only
  split
  · exact setCxl_only (within_trans rfl hp) _ _ (by assumption)
  · split
    · exact serveRings_only (within_trans rfl hp) (cxlFault_only (within_trans rfl hp) (raise_only
        (within_trans rfl hp) _ (setCxl_only (within_trans rfl hp) _ _ (by assumption))))
    · exact raise_only (within_trans rfl hp) _ (setCxl_only (within_trans rfl hp) _ _ (by assumption))

theorem sendNext_only {pts} {s0 x2 : State} (hp : within [.fab, .wei, .hif, .hlt, .status] pts = true) (p) (x1)
    (h : Only pts s0 x2) : Only pts s0 (sendNext p x1 x2) := by
  induction x1 generalizing x2 with
  | zero =>
    unfold sendNext
    try dsimp only
    assumption
  | succ n ih =>
    unfold sendNext
    try dsimp only
    split
    · exact Only.of_snd (by assumption) (nextFrame_only (within_trans rfl hp) _ (by assumption))
    · apply ih
      exact transmit_only (within_trans rfl hp) _ _ (Only.of_snd (by assumption) (nextFrame_only
        (within_trans rfl hp) _ (by assumption)))

theorem drainSteps_only {pts} {s0 s : State} (hp : within [.fab, .wei, .hif, .hlt, .status] pts = true) (h :
    Only pts s0 s) : Only pts s0 (drainSteps s) := by
  unfold drainSteps
  try dsimp only
  refine Only.foldl (fun _ _ _ => ?_) ?_
  · split
    · exact sendNext_only (within_trans rfl hp) _ _ (by assumption)
    · assumption
  · assumption

theorem supplyAt_only {pts} {s0 s : State} (hp : within [.tmu] pts = true) (at_) (h : Only pts s0 s) : Only pts s0
    (supplyAt at_ s) := by
  unfold supplyAt
  try dsimp only
  split
  · exact setNow_only (within_trans rfl hp) _ (by assumption)
  · assumption

theorem failBatches_only {pts} {s0 s : State}
    (hp : within [.sqs, .fab, .wei, .hif, .hlt, .status, .counters] pts = true) (h : Only pts s0 s) : Only pts s0
    (failBatches s) := by
  unfold failBatches
  try dsimp only
  split
  · refine sendBatches_only (within_trans rfl hp) _ ?_
    refine Only.foldl (fun _ _ _ => ?_) ?_
    · exact addNotice_only (within_trans rfl hp) _ _ _ _ (by assumption)
    · exact Only.put [.sqs] (within_trans rfl hp) (by assumption) rfl
  · assumption

theorem powerOff_only {pts} {s0 s : State} (hp : within [.tmu, .sqs, .slc, .pgm, .tir, .cmp, .car, .mdl, .fab, .wei,
    .hif, .sec, .hlt, .stw, .sup, .status, .counters, .mem, .free] pts = true)
    (h : Only pts s0 s) : Only pts s0 (powerOff s) :=
  (loseFlash_only (within_trans rfl hp) h).trans (Only.mono (ps := [.tmu, .sqs, .slc, .pgm, .tir, .cmp, .car, .mdl,
    .fab, .wei, .hif, .sec, .hlt, .stw, .sup, .status, .counters, .mem, .free]) ⟨rfl,
    fun p hq => by cases p <;> first | rfl | cases hq⟩ (within_trans rfl hp))

theorem logPower_only {pts} {s0 s : State} (hp : within [.sup] pts = true) (event) (cause) (h : Only pts s0 s) :
    Only pts s0 (logPower event cause s) := by
  unfold logPower
  split
  · exact Only.put [.sup] (within_trans rfl hp) h rfl
  · exact h

theorem powerFail_only {pts} {s0 s : State}
    (hp : within [.tmu, .sqs, .slc, .pgm, .tir, .cmp, .car, .mdl, .fab, .wei, .hif, .sec, .hlt, .stw, .sup, .status,
      .counters, .mem, .free] pts = true) (cause) (h : Only pts s0 s) : Only pts s0 (powerFail cause s) := by
  unfold powerFail
  try dsimp only
  split
  · assumption
  · refine Only.put [.sup] (within_trans rfl hp) ?_ rfl
    refine powerOff_only (within_trans rfl hp) ?_
    refine logPower_only (within_trans rfl hp) _ _ ?_
    split
    · exact drainSteps_only (within_trans rfl hp) (failBatches_only (within_trans rfl hp) (drainSteps_only
        (within_trans rfl hp) (by assumption)))
    · assumption

theorem execBankReserveReached_only {pts} {s0 s : State} {t}
    (hp : within [.tmu, .sqs, .slc, .pgm, .tir, .cmp, .car, .mdl, .fab, .wei, .hif, .sec, .hlt, .stw, .sup, .status,
      .counters, .mem, .free] pts = true) {at_} (e : execBankReserveReached at_ s = .next t)
      (h : Only pts s0 s) : Only pts s0 t := by
  unfold execBankReserveReached at e
  try dsimp only at e
  injection e with e
  subst e
  exact powerFail_only (within_trans rfl hp) _ (Only.put [.sup] (within_trans rfl hp) (supplyAt_only
    (within_trans rfl hp) _ (by assumption)) rfl)

theorem switchOff_only {pts} {s0 s : State} (hp : within [.tmu, .sqs, .slc, .pgm, .tir, .cmp, .car, .mdl, .fab, .wei,
    .hif, .sec, .hlt, .stw, .sup, .status, .counters, .mem, .free] pts = true)
    (h : Only pts s0 s) : Only pts s0 (switchOff s) := by
  unfold switchOff
  exact Only.put [.stw] (within_trans rfl hp) (powerOff_only (within_trans rfl hp) h) rfl

theorem execBrownWarnTimeout_only {pts} {s0 s : State} {t}
    (hp : within [.tmu, .sqs, .slc, .pgm, .tir, .cmp, .car, .mdl, .fab, .wei, .hif, .sec, .hlt, .stw, .sup, .status,
      .counters, .mem, .free] pts = true) (e : execBrownWarnTimeout s = .next t) (h : Only pts s0 s) : Only pts s0 t := by
  unfold execBrownWarnTimeout at e
  try dsimp only at e
  injection e with e
  subst e
  split
  · exact switchOff_only (within_trans rfl hp) (by assumption)
  · assumption

theorem execCxlLinkChange_only {pts} {s0 s : State} {t}
    (hp : within [.sqs, .slc, .cmp, .fab, .wei, .hif, .sec, .hlt, .status, .counters, .mem] pts = true)
    {port rate width} (e : execCxlLinkChange port rate width s = .next t) (h : Only pts s0 s) : Only pts s0 t := by
  unfold execCxlLinkChange at e
  try dsimp only at e
  injection e with e
  subst e
  split
  · split
    · exact changeCxl_only (within_trans rfl hp) _ _ (by assumption)
    · exact changeCxl_only (within_trans rfl hp) _ _ (by assumption)
  · assumption

theorem execDynamicAddressAssignment_only {pts} {s0 s : State} {t} (hp : within [.sup] pts = true) {address}
    (e : execDynamicAddressAssignment address s = .next t) (h : Only pts s0 s) : Only pts s0 t := by
  unfold execDynamicAddressAssignment at e
  try dsimp only at e
  injection e with e
  subst e
  split
  · exact Only.put [.sup] (within_trans rfl hp) (by assumption) rfl
  · assumption

theorem manage_only {pts} {s0 s : State} (hp : within [.sup] pts = true) (bs) (h : Only pts s0 s) : Only pts s0
    (manage bs s) := by
  unfold manage
  try dsimp only
  split
  · exact Only.put [.sup] (within_trans rfl hp) (by assumption) rfl
  · assumption

theorem execGetIdentity_only {pts} {s0 s : State} {t} (hp : within [.sup] pts = true)
    (e : execGetIdentity s = .next t) (h : Only pts s0 s) : Only pts s0 t := by
  unfold execGetIdentity at e
  try dsimp only at e
  injection e with e
  subst e
  exact manage_only (within_trans rfl hp) _ (by assumption)

theorem execGetPowerLog_only {pts} {s0 s : State} {t} (hp : within [.sup] pts = true)
    (e : execGetPowerLog s = .next t) (h : Only pts s0 s) : Only pts s0 t := by
  unfold execGetPowerLog at e
  try dsimp only at e
  injection e with e
  subst e
  exact manage_only (within_trans rfl hp) _ (by assumption)

theorem execGetSensors_only {pts} {s0 s : State} {t} (hp : within [.sup] pts = true) {v}
    (e : execGetSensors v s = .next t) (h : Only pts s0 s) : Only pts s0 t := by
  unfold execGetSensors at e
  try dsimp only at e
  injection e with e
  subst e
  exact manage_only (within_trans rfl hp) _ (by assumption)

theorem execIdeIntegrityFailure_only {pts} {s0 s : State} {t}
    (hp : within [.sqs, .slc, .cmp, .fab, .wei, .hif, .sec, .hlt, .status, .counters, .mem] pts = true) {port}
    (e : execIdeIntegrityFailure port s = .next t) (h : Only pts s0 s) : Only pts s0 t := by
  unfold execIdeIntegrityFailure at e
  try dsimp only at e
  injection e with e
  subst e
  split
  · exact changeCxl_only (within_trans rfl hp) _ _ (by assumption)
  · assumption

theorem setVolts_only {pts} {s0 s : State} (hp : within [.sup] pts = true) (v) (h : Only pts s0 s) : Only pts s0
    (setVolts v s) := by
  unfold setVolts
  try dsimp only
  exact Only.put [.sup] (within_trans rfl hp) (by assumption) rfl

theorem execInputLow_only {pts} {s0 s : State} {t} (hp : within [.tmu, .sup] pts = true) {at_ volts10mV bank}
    (e : execInputLow at_ volts10mV bank s = .next t) (h : Only pts s0 s) : Only pts s0 t := by
  unfold execInputLow at e
  try dsimp only at e
  injection e with e
  subst e
  split
  · exact logPower_only (within_trans rfl hp) _ _ (Only.put [.sup] (within_trans rfl hp) (setVolts_only
      (within_trans rfl hp) _ (supplyAt_only (within_trans rfl hp) _ (by assumption))) rfl)
  · exact Only.put [.sup] (within_trans rfl hp) (setVolts_only (within_trans rfl hp) _ (supplyAt_only
      (within_trans rfl hp) _ (by assumption))) rfl

theorem execInputReconnect_only {pts} {s0 s : State} {t} (hp : within [.tmu, .stw, .sup, .free] pts = true) {at_}
    (e : execInputReconnect at_ s = .next t) (h : Only pts s0 s) : Only pts s0 t := by
  unfold execInputReconnect at e
  try dsimp only at e
  split at e
  · injection e with e
    subst e
    split
    · split
      · refine beginStart_only (within_trans rfl hp) ?_
        refine Only.put [.sup] (within_trans rfl hp) ?_ rfl
        dsimp only
        exact supplyAt_only (within_trans rfl hp) _ (by assumption)
      · refine Only.put [.sup] (within_trans rfl hp) ?_ rfl
        dsimp only
        exact supplyAt_only (within_trans rfl hp) _ (by assumption)
    · split
      · refine beginStart_only (within_trans rfl hp) ?_
        refine Only.put [.sup] (within_trans rfl hp) ?_ rfl
        dsimp only
        exact freeBelow_only (within_trans rfl hp) _ (supplyAt_only (within_trans rfl hp) _ (by assumption))
      · refine Only.put [.sup] (within_trans rfl hp) ?_ rfl
        dsimp only
        exact freeBelow_only (within_trans rfl hp) _ (supplyAt_only (within_trans rfl hp) _ (by assumption))
  · injection e with e
    subst e
    assumption

theorem execInputRestored_only {pts} {s0 s : State} {t} (hp : within [.tmu, .sup] pts = true) {at_ volts10mV bank}
    (e : execInputRestored at_ volts10mV bank s = .next t) (h : Only pts s0 s) : Only pts s0 t := by
  unfold execInputRestored at e
  try dsimp only at e
  injection e with e
  subst e
  split
  · exact logPower_only (within_trans rfl hp) _ _ (Only.put [.sup] (within_trans rfl hp) (setVolts_only
      (within_trans rfl hp) _ (supplyAt_only (within_trans rfl hp) _ (by assumption))) rfl)
  · exact Only.put [.sup] (within_trans rfl hp) (setVolts_only (within_trans rfl hp) _ (supplyAt_only
      (within_trans rfl hp) _ (by assumption))) rfl

theorem execOvervoltage_only {pts} {s0 s : State} {t}
    (hp : within [.tmu, .sqs, .slc, .pgm, .tir, .cmp, .car, .mdl, .fab, .wei, .hif, .sec, .hlt, .stw, .sup, .status,
      .counters, .mem, .free] pts = true) {at_ volts10mV} (e : execOvervoltage at_ volts10mV s = .next t)
      (h : Only pts s0 s) : Only pts s0 t := by
  unfold execOvervoltage at e
  try dsimp only at e
  split at e
  · injection e with e
    subst e
    exact powerFail_only (within_trans rfl hp) _ (logPower_only (within_trans rfl hp) _ _ (Only.put [.sup]
      (within_trans rfl hp) (setVolts_only (within_trans rfl hp) _ (supplyAt_only (within_trans rfl hp) _
      (by assumption))) rfl))
  · injection e with e
    subst e
    exact setVolts_only (within_trans rfl hp) _ (supplyAt_only (within_trans rfl hp) _ (by assumption))

theorem execPerstAssert_only {pts} {s0 s : State} {t}
    (hp : within [.sqs, .slc, .cmp, .fab, .wei, .hif, .sec, .hlt, .status, .counters, .mem] pts = true) {port}
    (e : execPerstAssert port s = .next t) (h : Only pts s0 s) : Only pts s0 t := by
  unfold execPerstAssert at e
  try dsimp only at e
  injection e with e
  subst e
  split
  · exact changeCxl_only (within_trans rfl hp) _ _ (by assumption)
  · assumption

theorem execPowerOver_only {pts} {s0 s : State} {t}
    (hp : within [.tmu, .hif, .hlt, .sup, .status, .counters] pts = true) {at_ watts}
    (e : execPowerOver at_ watts s = .next t) (h : Only pts s0 s) : Only pts s0 t := by
  unfold execPowerOver at e
  try dsimp only at e
  injection e with e
  subst e
  split
  · exact logPower_only (within_trans rfl hp) _ _ (raise_only (within_trans rfl hp) _ (bump_only
      (within_trans rfl hp) _ _ (supplyAt_only (within_trans rfl hp) _ (by assumption))))
  · exact supplyAt_only (within_trans rfl hp) _ (by assumption)

theorem execPwrGoodFall_only {pts} {s0 s : State} {t}
    (hp : within [.tmu, .sqs, .slc, .pgm, .tir, .cmp, .car, .mdl, .fab, .wei, .hif, .sec, .hlt, .stw, .sup, .status,
      .counters, .mem, .free] pts = true) {at_ lowUs} (e : execPwrGoodFall at_ lowUs s = .next t)
      (h : Only pts s0 s) : Only pts s0 t := by
  unfold execPwrGoodFall at e
  try dsimp only at e
  injection e with e
  subst e
  split
  · exact switchOff_only (within_trans rfl hp) (Only.put [.sup] (within_trans rfl hp) (logPower_only
      (within_trans rfl hp) _ _ (supplyAt_only (within_trans rfl hp) _ (by assumption))) rfl)
  · split
    · exact powerFail_only (within_trans rfl hp) _ (Only.put [.sup] (within_trans rfl hp) (logPower_only
        (within_trans rfl hp) _ _ (supplyAt_only (within_trans rfl hp) _ (by assumption))) rfl)
    · exact Only.put [.sup] (within_trans rfl hp) (logPower_only (within_trans rfl hp) _ _ (supplyAt_only
        (within_trans rfl hp) _ (by assumption))) rfl

theorem execPwrGoodRise_only {pts} {s0 s : State} {t} (hp : within [.stw, .sup] pts = true)
    (e : execPwrGoodRise s = .next t) (h : Only pts s0 s) : Only pts s0 t := by
  unfold execPwrGoodRise at e
  try dsimp only at e
  injection e with e
  subst e
  split
  · exact beginStart_only (within_trans rfl hp) (Only.put [.sup] (within_trans rfl hp) (by assumption) rfl)
  · exact Only.put [.sup] (within_trans rfl hp) (by assumption) rfl

theorem execThermalExcursionEnd_only {pts} {s0 s : State} {t} (hp : within [.sup] pts = true) {die}
    (e : execThermalExcursionEnd die s = .next t) (h : Only pts s0 s) : Only pts s0 t := by
  unfold execThermalExcursionEnd at e
  try dsimp only at e
  injection e with e
  subst e
  exact Only.put [.sup] (within_trans rfl hp) (by assumption) rfl

theorem execThermalHigh_only {pts} {s0 s : State} {t} (hp : within [.tmu, .sup] pts = true) {at_ die}
    (e : execThermalHigh at_ die s = .next t) (h : Only pts s0 s) : Only pts s0 t := by
  unfold execThermalHigh at e
  try dsimp only at e
  injection e with e
  subst e
  split
  · exact logPower_only (within_trans rfl hp) _ _ (Only.put [.sup] (within_trans rfl hp) (supplyAt_only
      (within_trans rfl hp) _ (by assumption)) rfl)
  · exact supplyAt_only (within_trans rfl hp) _ (by assumption)

theorem execThermalTrip_only {pts} {s0 s : State} {t}
    (hp : within [.tmu, .sqs, .slc, .pgm, .tir, .cmp, .car, .mdl, .fab, .wei, .hif, .sec, .hlt, .stw, .sup, .status,
      .counters, .mem, .free] pts = true) {at_ die} (e : execThermalTrip at_ die s = .next t)
      (h : Only pts s0 s) : Only pts s0 t := by
  unfold execThermalTrip at e
  try dsimp only at e
  injection e with e
  subst e
  split
  · exact powerFail_only (within_trans rfl hp) _ (logPower_only (within_trans rfl hp) _ _ (supplyAt_only
      (within_trans rfl hp) _ (by assumption)))
  · exact supplyAt_only (within_trans rfl hp) _ (by assumption)

theorem acknowledge_only {pts} {s0 s : State} (hp : within [.hif, .hlt, .status, .counters] pts = true) (a) (v)
    (h : Only pts s0 s) : Only pts s0 (acknowledge a v s) := by
  unfold acknowledge
  try dsimp only
  split
  · split
    · exact setStatus_only (within_trans rfl hp) _ _ (by assumption)
    · exact bump_only (within_trans rfl hp) _ _ (by assumption)
  · assumption

theorem keepWord_only {pts} {s0 s : State} (hp : within [.hif] pts = true) (block) (off) (v) (h :
    Only pts s0 s) : Only pts s0 (keepWord block off v s) := by
  unfold keepWord
  try dsimp only
  exact Only.put [.hif] (within_trans rfl hp) (by assumption) rfl

theorem writeRecovery_only {pts} {s0 s : State} (hp : within [.hif, .sec, .stw, .status, .free] pts = true) (v)
    (h : Only pts s0 s) : Only pts s0 (writeRecovery v s) := by
  unfold writeRecovery
  try dsimp only
  split
  · split
    · split
      · split
        · exact recoveryDiscard_only (within_trans rfl hp) (recoveryVerify_only (within_trans rfl hp) _
            (freeBelow_only (within_trans rfl hp) _ (recoveryAppend_only (within_trans rfl hp) _ (keepWord_only
            (within_trans rfl hp) _ _ _ (by assumption)))))
        · exact recoveryVerify_only (within_trans rfl hp) _ (freeBelow_only (within_trans rfl hp) _
            (recoveryAppend_only (within_trans rfl hp) _ (keepWord_only (within_trans rfl hp) _ _ _ (by assumption))))
      · split
        · exact recoveryDiscard_only (within_trans rfl hp) (recoveryVerify_only (within_trans rfl hp) _
            (freeBelow_only (within_trans rfl hp) _ (keepWord_only (within_trans rfl hp) _ _ _ (by assumption))))
        · exact recoveryVerify_only (within_trans rfl hp) _ (freeBelow_only (within_trans rfl hp) _ (keepWord_only
            (within_trans rfl hp) _ _ _ (by assumption)))
    · split
      · split
        · exact recoveryDiscard_only (within_trans rfl hp) (recoveryAppend_only (within_trans rfl hp) _
            (keepWord_only (within_trans rfl hp) _ _ _ (by assumption)))
        · exact recoveryAppend_only (within_trans rfl hp) _ (keepWord_only (within_trans rfl hp) _ _ _
            (by assumption))
      · split
        · exact recoveryDiscard_only (within_trans rfl hp) (keepWord_only (within_trans rfl hp) _ _ _ (by assumption))
        · exact keepWord_only (within_trans rfl hp) _ _ _ (by assumption)
  · exact keepWord_only (within_trans rfl hp) _ _ _ (by assumption)

theorem writeBase_only {pts} {s0 s : State} (hp : within [.hif] pts = true) (r) (k) (v) (h : Only pts s0 s) :
    Only pts s0 (writeBase r k v s) := by
  unfold writeBase
  try dsimp only
  split
  · assumption
  · exact setRing_only (within_trans rfl hp) _ _ (by assumption)

theorem writeRing_only {pts} {s0 s : State}
    (hp : within [.sqs, .slc, .cmp, .fab, .wei, .hif, .sec, .hlt, .status, .counters, .mem] pts = true) (off) (v)
    (h : Only pts s0 s) : Only pts s0 (writeRing off v s) := by
  unfold writeRing
  try dsimp only
  split
  · split
    · exact ringControl_only (within_trans rfl hp) _ _ (by assumption)
    · exact writeBase_only (within_trans rfl hp) _ _ _ (by assumption)
    · exact writeBase_only (within_trans rfl hp) _ _ _ (by assumption)
    · exact writeBase_only (within_trans rfl hp) _ _ _ (by assumption)
    · exact writeBase_only (within_trans rfl hp) _ _ _ (by assumption)
    · assumption
  · split
    · split
      · exact doorbell_only (within_trans rfl hp) _ _ (by assumption)
      · exact consumed_only (within_trans rfl hp) _ _ (by assumption)
    · assumption

theorem writePointer_only {pts} {s0 s : State}
    (hp : within [.tmu, .sqs, .slc, .pgm, .tir, .cmp, .car, .mdl, .fab, .wei, .hif, .sec, .hlt, .stw, .status,
      .counters, .mem, .free] pts = true) (off) (v) (h : Only pts s0 s) : Only pts s0 (writePointer off v s) := by
  unfold writePointer
  try dsimp only
  split
  · exact Only.put [.hlt] (within_trans rfl hp) (by assumption) rfl
  · split
    · exact supplyJournal_only (within_trans rfl hp) _ (by assumption)
    · assumption
  · split
    · exact freeJournal_only (within_trans rfl hp) _ (by assumption)
    · assumption
  · assumption

theorem setLatch_only {pts} {s0 s : State} (hp : within [.hif] pts = true) (block) (base) (bs) (h :
    Only pts s0 s) : Only pts s0 (setLatch block base bs s) := by
  unfold setLatch
  try dsimp only
  exact Only.put [.hif] (within_trans rfl hp) (by assumption) rfl

theorem latchReport_only {pts} {s0 s : State} (hp : within [.hif] pts = true) (v) (h : Only pts s0 s) : Only pts s0
    (latchReport v s) := by
  unfold latchReport
  try dsimp only
  exact setLatch_only (within_trans rfl hp) _ _ _ (by assumption)

theorem latchPort_only {pts} {s0 s : State} (hp : within [.hif] pts = true) (v) (h : Only pts s0 s) : Only pts s0
    (latchPort v s) := by
  unfold latchPort
  try dsimp only
  exact setLatch_only (within_trans rfl hp) _ _ _ (by assumption)

theorem latchWindow_only {pts} {s0 s : State} (hp : within [.hif] pts = true) (v) (h : Only pts s0 s) : Only pts s0
    (latchWindow v s) := by
  unfold latchWindow
  try dsimp only
  exact setLatch_only (within_trans rfl hp) _ _ _ (by assumption)

theorem latchQueue_only {pts} {s0 s : State} (hp : within [.hif] pts = true) (v) (h : Only pts s0 s) : Only pts s0
    (latchQueue v s) := by
  unfold latchQueue
  try dsimp only
  exact setLatch_only (within_trans rfl hp) _ _ _ (by assumption)

theorem latchPolicer_only {pts} {s0 s : State} (hp : within [.hif] pts = true) (v) (h : Only pts s0 s) : Only pts s0
    (latchPolicer v s) := by
  unfold latchPolicer
  try dsimp only
  exact setLatch_only (within_trans rfl hp) _ _ _ (by assumption)

theorem latchEntry_only {pts} {s0 s : State} (hp : within [.sqs] pts = true) (v) (h : Only pts s0 s) : Only pts s0
    (latchEntry v s) := by
  unfold latchEntry
  try dsimp only
  exact Only.put [.sqs] (within_trans rfl hp) (by assumption) rfl

theorem latchOwner_only {pts} {s0 s : State} (hp : within [.hif] pts = true) (v) (h : Only pts s0 s) : Only pts s0
    (latchOwner v s) := by
  unfold latchOwner
  try dsimp only
  exact setLatch_only (within_trans rfl hp) _ _ _ (by assumption)

theorem latchDesc_only {pts} {s0 s : State} (hp : within [.hif] pts = true) (v) (h : Only pts s0 s) : Only pts s0
    (latchDesc v s) := by
  unfold latchDesc
  try dsimp only
  exact setLatch_only (within_trans rfl hp) _ _ _ (by assumption)

theorem latchSegment_only {pts} {s0 s : State} (hp : within [.hif] pts = true) (v) (h : Only pts s0 s) : Only pts s0
    (latchSegment v s) := by
  unfold latchSegment
  try dsimp only
  exact setLatch_only (within_trans rfl hp) _ _ _ (by assumption)

theorem latchTable_only {pts} {s0 s : State} (hp : within [.hif] pts = true) (v) (h : Only pts s0 s) : Only pts s0
    (latchTable v s) := by
  unfold latchTable
  try dsimp only
  split
  · exact setLatch_only (within_trans rfl hp) _ _ _ (setLatch_only (within_trans rfl hp) _ _ _ (by assumption))
  · exact setLatch_only (within_trans rfl hp) _ _ _ (setLatch_only (within_trans rfl hp) _ _ _ (by assumption))

theorem latchKey_only {pts} {s0 s : State} (hp : within [.sec] pts = true) (v) (h : Only pts s0 s) : Only pts s0
    (latchKey v s) := by
  unfold latchKey
  try dsimp only
  exact Only.put [.sec] (within_trans rfl hp) (by assumption) rfl

theorem latchCore_only {pts} {s0 s : State} (hp : within [.hif] pts = true) (v) (h : Only pts s0 s) : Only pts s0
    (latchCore v s) := by
  unfold latchCore
  try dsimp only
  exact setLatch_only (within_trans rfl hp) _ _ _ (by assumption)

theorem latchAcct_only {pts} {s0 s : State} (hp : within [.hif] pts = true) (v) (h : Only pts s0 s) : Only pts s0
    (latchAcct v s) := by
  unfold latchAcct
  try dsimp only
  exact setLatch_only (within_trans rfl hp) _ _ _ (by assumption)

theorem latchFor_only {pts} {s0 s : State} (hp : within [.sqs, .hif, .sec] pts = true) (block) (off) (v) (h :
    Only pts s0 s) : Only pts s0 (latchFor block off v s) := by
  unfold latchFor
  try dsimp only
  split
  · exact latchReport_only (within_trans rfl hp) _ (by assumption)
  · exact latchPort_only (within_trans rfl hp) _ (by assumption)
  · exact latchWindow_only (within_trans rfl hp) _ (by assumption)
  · exact latchQueue_only (within_trans rfl hp) _ (by assumption)
  · exact latchPolicer_only (within_trans rfl hp) _ (by assumption)
  · exact latchEntry_only (within_trans rfl hp) _ (by assumption)
  · exact latchOwner_only (within_trans rfl hp) _ (by assumption)
  · exact latchDesc_only (within_trans rfl hp) _ (by assumption)
  · exact latchSegment_only (within_trans rfl hp) _ (by assumption)
  · exact latchTable_only (within_trans rfl hp) _ (by assumption)
  · exact latchKey_only (within_trans rfl hp) _ (by assumption)
  · exact latchCore_only (within_trans rfl hp) _ (by assumption)
  · exact latchAcct_only (within_trans rfl hp) _ (by assumption)
  · assumption

theorem writeIndex_only {pts} {s0 s : State} (hp : within [.sqs, .hif, .sec] pts = true) (block) (off) (v) (h :
    Only pts s0 s) : Only pts s0 (writeIndex block off v s) := by
  unfold writeIndex
  try dsimp only
  split
  · exact latchFor_only (within_trans rfl hp) _ _ _ (keepWord_only (within_trans rfl hp) _ _ _ (by assumption))
  · exact keepWord_only (within_trans rfl hp) _ _ _ (by assumption)

theorem writeWord_only {pts} {s0 s : State}
    (hp : within [.tmu, .sqs, .slc, .pgm, .tir, .cmp, .car, .mdl, .fab, .wei, .hif, .sec, .hlt, .stw, .status,
      .counters, .mem, .free] pts = true) (block) (off) (v) (h : Only pts s0 s) : Only pts s0
      (writeWord block off v s) := by
  unfold writeWord
  try dsimp only
  split
  · assumption
  · split
    · exact acknowledge_only (within_trans rfl hp) _ _ (by assumption)
    · split
      · exact keepWord_only (within_trans rfl hp) _ _ _ (by assumption)
      · exact keepWord_only (within_trans rfl hp) _ _ _ (by assumption)
      · split
        · exact doCharterWrite_only (within_trans rfl hp) _ (by assumption)
        · assumption
      · exact writeRecovery_only (within_trans rfl hp) _ (by assumption)
      · exact writeRing_only (within_trans rfl hp) _ _ (by assumption)
      · split
        · exact snapshot_only (within_trans rfl hp) (by assumption)
        · assumption
      · exact writePointer_only (within_trans rfl hp) _ _ (by assumption)
      · exact writePointer_only (within_trans rfl hp) _ _ (by assumption)
      · exact writePointer_only (within_trans rfl hp) _ _ (by assumption)
      · split
        · assumption
        · exact writeIndex_only (within_trans rfl hp) _ _ _ (by assumption)

theorem writeBit_only {pts} {s0 s : State}
    (hp : within [.tmu, .sqs, .slc, .pgm, .tir, .cmp, .car, .mdl, .fab, .wei, .hif, .sec, .hlt, .stw, .status,
      .counters, .mem, .free] pts = true) (block) (off) (bit) (v) (h : Only pts s0 s) : Only pts s0
      (writeBit block off bit v s) := by
  unfold writeBit
  try dsimp only
  split
  · assumption
  · split
    · split
      · exact writeWord_only (within_trans rfl hp) _ _ _ (by assumption)
      · assumption
    · split
      · exact writeWord_only (within_trans rfl hp) _ _ _ (by assumption)
      · assumption

theorem writeWindow_only {pts} {s0 s : State} (hp : within [.stw] pts = true) (off) (v) (h : Only pts s0 s) :
    Only pts s0 (writeWindow off v s) := by
  unfold writeWindow
  try dsimp only
  split
  · exact Only.put [.stw] (within_trans rfl hp) (by assumption) rfl
  · assumption

theorem busWrite_only {pts} {s0 s : State}
    (hp : within [.tmu, .sqs, .slc, .pgm, .tir, .cmp, .car, .mdl, .fab, .wei, .hif, .sec, .hlt, .stw, .status,
      .counters, .mem, .free] pts = true) (addr) (v) (h : Only pts s0 s) : Only pts s0 (busWrite addr v s) := by
  unfold busWrite
  try dsimp only
  split
  · exact writeWord_only (within_trans rfl hp) _ _ _ (by assumption)
  · exact writeBit_only (within_trans rfl hp) _ _ _ _ (by assumption)
  · exact writeWindow_only (within_trans rfl hp) _ _ (by assumption)
  · assumption

theorem execAliasBitWrite_only {pts} {s0 s : State} {t}
    (hp : within [.tmu, .sqs, .slc, .pgm, .tir, .cmp, .car, .mdl, .fab, .wei, .hif, .sec, .hlt, .stw, .status,
      .counters, .mem, .free] pts = true) {addr value} (e : execAliasBitWrite addr value s = .next t)
      (h : Only pts s0 s) : Only pts s0 t := by
  unfold execAliasBitWrite at e
  try dsimp only at e
  injection e with e
  subst e
  split
  · split
    · exact writeBit_only (within_trans rfl hp) _ _ _ _ (by assumption)
    · assumption
  · assumption

theorem indexWrite_only {pts} {s0 s : State} {t} (hp : within [.sqs, .hif, .sec] pts = true) {block off value}
    (e : indexWrite block off value s = .next t) (h : Only pts s0 s) : Only pts s0 t := by
  unfold indexWrite at e
  try dsimp only at e
  injection e with e
  subst e
  split
  · exact writeIndex_only (within_trans rfl hp) _ _ _ (by assumption)
  · assumption

theorem execCmpTableLatch_only {pts} {s0 s : State} {t} (hp : within [.sqs, .hif, .sec] pts = true) {value}
    (e : execCmpTableLatch value s = .next t) (h : Only pts s0 s) : Only pts s0 t := by
  unfold execCmpTableLatch at e
  try dsimp only at e
  exact indexWrite_only (within_trans rfl hp) e (by assumption)

theorem execFabPortLatch_only {pts} {s0 s : State} {t} (hp : within [.sqs, .hif, .sec] pts = true) {value}
    (e : execFabPortLatch value s = .next t) (h : Only pts s0 s) : Only pts s0 t := by
  unfold execFabPortLatch at e
  try dsimp only at e
  exact indexWrite_only (within_trans rfl hp) e (by assumption)

theorem execFabWinLatch_only {pts} {s0 s : State} {t} (hp : within [.sqs, .hif, .sec] pts = true) {value}
    (e : execFabWinLatch value s = .next t) (h : Only pts s0 s) : Only pts s0 t := by
  unfold execFabWinLatch at e
  try dsimp only at e
  exact indexWrite_only (within_trans rfl hp) e (by assumption)

theorem execHltAcctLatch_only {pts} {s0 s : State} {t} (hp : within [.sqs, .hif, .sec] pts = true) {value}
    (e : execHltAcctLatch value s = .next t) (h : Only pts s0 s) : Only pts s0 t := by
  unfold execHltAcctLatch at e
  try dsimp only at e
  exact indexWrite_only (within_trans rfl hp) e (by assumption)

theorem execHltCoreLatch_only {pts} {s0 s : State} {t} (hp : within [.sqs, .hif, .sec] pts = true) {value}
    (e : execHltCoreLatch value s = .next t) (h : Only pts s0 s) : Only pts s0 t := by
  unfold execHltCoreLatch at e
  try dsimp only at e
  exact indexWrite_only (within_trans rfl hp) e (by assumption)

theorem execPgmInspectLatch_only {pts} {s0 s : State} {t} (hp : within [.sqs, .hif, .sec] pts = true) {value}
    (e : execPgmInspectLatch value s = .next t) (h : Only pts s0 s) : Only pts s0 t := by
  unfold execPgmInspectLatch at e
  try dsimp only at e
  exact indexWrite_only (within_trans rfl hp) e (by assumption)

theorem unmapped_only {pts} {s0 s : State} (hp : within [.hif, .hlt, .status, .counters] pts = true) (h :
    Only pts s0 s) : Only pts s0 (unmapped s) := by
  unfold unmapped
  try dsimp only
  exact raise_only (within_trans rfl hp) _ (bump_only (within_trans rfl hp) _ _ (by assumption))

theorem execRegisterWrite_only {pts} {s0 s : State} {t}
    (hp : within [.tmu, .sqs, .slc, .pgm, .tir, .cmp, .car, .mdl, .fab, .wei, .hif, .sec, .hlt, .stw, .status,
      .counters, .mem, .free] pts = true) {addr value byteEnables}
      (e : execRegisterWrite addr value byteEnables s = .next t) (h : Only pts s0 s) : Only pts s0 t := by
  unfold execRegisterWrite at e
  try dsimp only at e
  injection e with e
  subst e
  split
  · assumption
  · split
    · exact unmapped_only (within_trans rfl hp) (by assumption)
    · split
      · exact busWrite_only (within_trans rfl hp) _ _ (by assumption)
      · assumption

theorem execSecKeyLatch_only {pts} {s0 s : State} {t} (hp : within [.sqs, .hif, .sec] pts = true) {value}
    (e : execSecKeyLatch value s = .next t) (h : Only pts s0 s) : Only pts s0 t := by
  unfold execSecKeyLatch at e
  try dsimp only at e
  exact indexWrite_only (within_trans rfl hp) e (by assumption)

theorem execSlcInspectLatch_only {pts} {s0 s : State} {t} (hp : within [.sqs, .hif, .sec] pts = true) {value}
    (e : execSlcInspectLatch value s = .next t) (h : Only pts s0 s) : Only pts s0 t := by
  unfold execSlcInspectLatch at e
  try dsimp only at e
  exact indexWrite_only (within_trans rfl hp) e (by assumption)

theorem execSqsInspectLatch_only {pts} {s0 s : State} {t} (hp : within [.sqs, .hif, .sec] pts = true) {value}
    (e : execSqsInspectLatch value s = .next t) (h : Only pts s0 s) : Only pts s0 t := by
  unfold execSqsInspectLatch at e
  try dsimp only at e
  exact indexWrite_only (within_trans rfl hp) e (by assumption)

theorem execStatusAck_only {pts} {s0 s : State} {t} (hp : within [.hif, .hlt, .status, .counters] pts = true)
    {addr value} (e : execStatusAck addr value s = .next t) (h : Only pts s0 s) : Only pts s0 t := by
  unfold execStatusAck at e
  try dsimp only at e
  injection e with e
  subst e
  split
  · split
    · exact acknowledge_only (within_trans rfl hp) _ _ (by assumption)
    · assumption
  · assumption

theorem execStwReportLatch_only {pts} {s0 s : State} {t} (hp : within [.sqs, .hif, .sec] pts = true) {value}
    (e : execStwReportLatch value s = .next t) (h : Only pts s0 s) : Only pts s0 t := by
  unfold execStwReportLatch at e
  try dsimp only at e
  exact indexWrite_only (within_trans rfl hp) e (by assumption)

theorem execTirSegLatch_only {pts} {s0 s : State} {t} (hp : within [.sqs, .hif, .sec] pts = true) {value}
    (e : execTirSegLatch value s = .next t) (h : Only pts s0 s) : Only pts s0 t := by
  unfold execTirSegLatch at e
  try dsimp only at e
  exact indexWrite_only (within_trans rfl hp) e (by assumption)

theorem execUnmappedAccess_only {pts} {s0 s : State} {t} (hp : within [.hif, .hlt, .status, .counters] pts = true)
    {addr} (e : execUnmappedAccess addr s = .next t) (h : Only pts s0 s) : Only pts s0 t := by
  unfold execUnmappedAccess at e
  try dsimp only at e
  injection e with e
  subst e
  split
  · exact unmapped_only (within_trans rfl hp) (by assumption)
  · assumption

theorem execWeiPolLatch_only {pts} {s0 s : State} {t} (hp : within [.tmu, .sqs, .hif, .sec] pts = true) {at_ value}
    (e : execWeiPolLatch at_ value s = .next t) (h : Only pts s0 s) : Only pts s0 t := by
  unfold execWeiPolLatch at e
  try dsimp only at e
  refine indexWrite_only (within_trans rfl hp) e ?_
  split
  · exact setNow_only (within_trans rfl hp) _ (by assumption)
  · assumption

theorem execWeiQLatch_only {pts} {s0 s : State} {t} (hp : within [.sqs, .hif, .sec] pts = true) {value}
    (e : execWeiQLatch value s = .next t) (h : Only pts s0 s) : Only pts s0 t := by
  unfold execWeiQLatch at e
  try dsimp only at e
  exact indexWrite_only (within_trans rfl hp) e (by assumption)

end Sys2Proof.Machine
end

