-- ==== Sys2Proof/Laws/EffSlots.lean ====
section
/-! SUPPORT. What the commands within a step do: slots, prefetches, image swaps, items (R60 to R62, R87, R95, R192,
R195 to R199). -/

namespace Sys2Proof.Machine

open Sys2Proof.Safety

theorem swapCluster_mdl (k : Nat) (s : State) : (swapCluster k s).mdl = { s.mdl with
    swapping := (swapCluster k s).mdl.swapping, resident := (swapCluster k s).mdl.resident } := by
  unfold swapCluster
  dsimp only
  repeat' split
  all_goals rfl

theorem swapCheck_mdl (s : State) : (swapCheck s).mdl = { s.mdl with
    swapping := (swapCheck s).mdl.swapping, resident := (swapCheck s).mdl.resident } := by
  unfold swapCheck
  generalize List.range 32 = l
  induction l generalizing s with
  | nil => rfl
  | cons k l ih => rw [List.foldl_cons, ih, swapCluster_mdl k s]

theorem slotOpen_effect {slot : Nat} {s : State} {e : TideEntry} (h0 : slotAt s slot = some e) (h1 : inService s = true)
    (h2 : s.tmu.opened.contains slot = false) :
    Completes (.slotOpen slot) s fun t =>
      t.tmu = { s.tmu with now := max s.tmu.now (slotInstant s e e.opens), opened := s.tmu.opened ++ [slot] } := by
  obtain ⟨u, hu⟩ : ∃ u : State, u = { setNow (slotInstant s e e.opens) s with
    tmu := { (setNow (slotInstant s e e.opens) s).tmu with opened := s.tmu.opened ++ [slot] } } := ⟨_, rfl⟩
  have ht : u.tmu = { s.tmu with now := max s.tmu.now (slotInstant s e e.opens), opened := s.tmu.opened ++ [slot] } := by
    rw [hu]
    rfl
  have h : exec (.slotOpen slot) s = .next (swapCheck (stageNext e (placeWaiting e u))) := by
    show execSlotOpen slot s = _
    unfold execSlotOpen
    rw [h0]
    dsimp only
    rw [h1, h2, hu]
    rfl
  have k1 := (placeWaiting_only (pts := [.sqs, .slc, .pgm, .car, .fab, .wei, .hif, .hlt, .status, .counters, .free]) rfl e
    (Only.refl _ u)).2 .tmu rfl
  have k2 := (stageNext_only (pts := [.cmp, .mdl, .hif, .hlt, .status, .counters]) rfl e
    (Only.refl _ (placeWaiting e u))).2 .tmu rfl
  have k3 := (swapCheck_only (pts := [.mdl, .free]) rfl (Only.refl _ (stageNext e (placeWaiting e u)))).2 .tmu rfl
  exact ⟨_, h, k3.trans (k2.trans (k1.trans ht))⟩

theorem prefetchIssue_effect {slot key : Nat} {s : State} {e : TideEntry} {c : Ctx} {l : LayerDesc}
    (h0 : prefetchOf s slot = some (e, key, c, l)) (h1 : inService s = true) (h2 : Tab.has key s.mdl.loads = false) :
    Completes (.prefetchIssue slot) s fun t => t = { s with
      tmu := { s.tmu with now := max s.tmu.now (slotInstant s e e.pfIssue) }
      mdl := { s.mdl with loads := Tab.put key .issued s.mdl.loads } } := by
  refine ⟨setLoad key .issued (setNow (slotInstant s e e.pfIssue) s), ?_, rfl⟩
  show execPrefetchIssue slot s = _
  unfold execPrefetchIssue
  rw [h0]
  dsimp only
  rw [h1, h2]
  rfl

theorem chargeFetch_mdl (c : Ctx) (n : Nat) (s : State) : (chargeFetch c n s).mdl = s.mdl :=
  (chargeFetch_only (pts := [.hif, .hlt, .status]) rfl c n (Only.refl _ s)).2 .mdl rfl

theorem fetchPieces_of (s : State) (hif : Hif) (hlt : Hlt) (status : Tab SqWord) (ci : Nat) (c : Ctx) (layer : Nat) (l : LayerDesc) :
    fetchPieces { s with hif := hif, hlt := hlt, status := status } ci c layer l = fetchPieces s ci c layer l := rfl

theorem weightsGood_same {s t : State} (h : Only [.hif, .hlt, .status] s t) (ci layer : Nat) (c : Ctx) (l : LayerDesc) :
    weightsGood t ci layer c l = weightsGood s ci layer c l := by
  have e : t = { s with hif := t.hif, hlt := t.hlt, status := t.status } := by
    have h1 := h.2 .tmu rfl; have h2 := h.2 .sqs rfl; have h3 := h.2 .slc rfl; have h4 := h.2 .pgm rfl
    have h5 := h.2 .tir rfl; have h6 := h.2 .cmp rfl; have h7 := h.2 .car rfl; have h8 := h.2 .mdl rfl
    have h9 := h.2 .fab rfl; have h10 := h.2 .wei rfl; have h11 := h.2 .sec rfl; have h12 := h.2 .stw rfl
    have h13 := h.2 .sup rfl; have h14 := h.2 .counters rfl; have h15 := h.2 .mem rfl; have h16 := h.2 .free rfl
    have h17 := h.1
    cases s; cases t
    simp only [Part.same] at *
    subst_vars
    rfl
  rw [e]
  rfl

/-- A fetch that is whole can be used; of the loads it changes none. -/
theorem takeFetch_good (ci layer : Nat) (c : Ctx) (l : LayerDesc) (s : State) :
    (takeFetch ci layer c l s).1 = weightsGood s ci layer c l ∧
    (takeFetch ci layer c l s).2.mdl.loads = s.mdl.loads := by
  unfold takeFetch weightsGood
  dsimp only
  generalize fetchPieces s ci c layer l = ps
  split
  · rename_i h
    refine ⟨?_, ?_⟩
    · symm
      rw [Bool.eq_false_iff]
      intro hk
      rw [List.all_eq_true] at hk
      have : ps.all (Piece.mapped s) = true := List.all_eq_true.2 (fun p hp => by
        have := hk p hp
        simp only [Bool.and_eq_true] at this
        exact this.1)
      rw [this] at h
      cases h
    · exact congrArg Mdl.loads (((addFault_only (pts := [.hlt, .hif, .status]) rfl _
        (raise_only rfl _ (Only.refl _ s)))).2 .mdl rfl)
  · rename_i h
    refine ⟨?_, ?_⟩
    · have h' : ps.all (Piece.mapped s) = true := by simpa using h
      rw [Bool.eq_iff_iff, List.all_eq_true, List.all_eq_true]
      constructor
      · intro k p hp
        rw [k p hp, Bool.and_true]
        exact List.all_eq_true.1 h' p hp
      · intro k p hp
        have := k p hp
        simp only [Bool.and_eq_true] at this
        exact this.2
    · dsimp only
      generalize hv : ps.foldl _ s = v
      have hm : v.mdl = s.mdl := by
        rw [← hv]
        refine (Only.foldl (ps := [.cmp, .hif, .hlt, .status, .counters]) (s0 := s) (fun u p h => ?_) (Only.refl _ s)).2 .mdl rfl
        exact Only.foldl (fun w d h => blockDamaged_only rfl _ _ h) h
      rw [(raiseIf_only (pts := [.hif, .status]) rfl _ _ (Only.refl _ _)).2 .mdl rfl]
      unfold renewAdapters
      dsimp only
      rw [hm]

theorem noteLines_mdl (lines most : Nat) (s : State) : (noteLines lines most s).mdl = s.mdl :=
  (noteLines_only (pts := [.tir, .free]) rfl lines most (Only.refl _ s)).2 .mdl rfl

/-- Weights that come in undamaged are staged; a wait for them is taken from the slack and delays the context (R199). -/
theorem fetched_good (e : TideEntry) (key : Nat) (c : Ctx) (l : LayerDesc) (late : Bool) (s : State)
    (hd : weightsGood s e.context (e.layer + 1) c l = true) :
    Tab.look key (fetched e key c l late s).mdl.loads = some .staged ∧
    (∀ k, k ≠ key → Tab.look k (fetched e key c l late s).mdl.loads = Tab.look k s.mdl.loads) := by
  have ht := takeFetch_good e.context (e.layer + 1) c l (chargeFetch c l.stored s)
  rw [weightsGood_same (chargeFetch_only rfl c l.stored (Only.refl _ s)), hd, chargeFetch_mdl] at ht
  unfold fetched
  dsimp only
  generalize takeFetch e.context (e.layer + 1) c l (chargeFetch c l.stored s) = r at ht
  rw [ht.1]
  rw [if_neg (by decide), swapCheck_mdl]
  have hl : ∀ v : State, v.mdl = r.2.mdl → v.mdl.loads = s.mdl.loads := fun v hv => by rw [hv]; exact ht.2
  refine ⟨by simp, fun k hk => ?_⟩
  simp only [setLoad_mdl]
  rw [Tab.look_put_other hk]
  have hv : (if c.homeCxl then noteLines (cdiv l.stored 256) 7168 r.2 else r.2).mdl = r.2.mdl := by
    split
    · exact noteLines_mdl _ _ _
    · rfl
  show Tab.look k (if c.homeCxl then noteLines (cdiv l.stored 256) 7168 r.2 else r.2).mdl.loads = _
  rw [hl _ hv]

theorem fetched_damaged (e : TideEntry) (key : Nat) (c : Ctx) (l : LayerDesc) (late : Bool) (s : State)
    (hd : weightsGood s e.context (e.layer + 1) c l = false) :
    (fetched e key c l late s).mdl.loads = s.mdl.loads := by
  have ht := takeFetch_good e.context (e.layer + 1) c l (chargeFetch c l.stored s)
  rw [weightsGood_same (chargeFetch_only rfl c l.stored (Only.refl _ s)), hd, chargeFetch_mdl] at ht
  unfold fetched
  dsimp only
  generalize takeFetch e.context (e.layer + 1) c l (chargeFetch c l.stored s) = r at ht
  rw [ht.1]
  exact ht.2

theorem prefetchComplete_effect {slot key : Nat} {s : State} {e : TideEntry} {c : Ctx} {l : LayerDesc}
    (h0 : prefetchOf s slot = some (e, key, c, l)) (h1 : inService s = true)
    (h2 : Tab.look key s.mdl.loads = some .issued ∨ Tab.look key s.mdl.loads = some .late) :
    Completes (.prefetchComplete slot) s fun t =>
      (weightsGood s e.context (e.layer + 1) c l = true → Tab.look key t.mdl.loads = some .staged ∧
        ∀ k, k ≠ key → Tab.look k t.mdl.loads = Tab.look k s.mdl.loads) ∧
      (weightsGood s e.context (e.layer + 1) c l = false → t.mdl.loads = s.mdl.loads) := by
  rcases h2 with h2 | h2
  · refine ⟨fetched e key c l false s, ?_, fetched_good e key c l _ s, fetched_damaged e key c l _ s⟩
    show execPrefetchComplete slot s = _
    unfold execPrefetchComplete
    simp only [h0, h1, h2, if_true]
  · refine ⟨fetched e key c l true s, ?_, fetched_good e key c l _ s, fetched_damaged e key c l _ s⟩
    show execPrefetchComplete slot s = _
    unfold execPrefetchComplete
    simp only [h0, h1, h2, if_true]

theorem prefetchDeadline_effect {slot key : Nat} {s : State} {e : TideEntry} {c : Ctx} {l : LayerDesc}
    (h0 : prefetchOf s slot = some (e, key, c, l)) (h1 : inService s = true)
    (h2 : Tab.look key s.mdl.loads = some .issued) (h3 : liveTime s = true) :
    Completes (.prefetchDeadline slot) s fun t =>
      t.tmu.now = max s.tmu.now (slotInstant s e e.pfDeadline) ∧
      t.mdl = { s.mdl with loads := Tab.put key .late s.mdl.loads } ∧
      eventBit t .weightsLate = true ∧ min (counter s cWLate + 1) sMax ≤ counter t cWLate := by
  obtain ⟨u, hu⟩ : ∃ u, u = setLoad key .late (setNow (slotInstant s e e.pfDeadline) s) := ⟨_, rfl⟩
  obtain ⟨d, hd⟩ : ∃ d, d = delayOf (setNow (slotInstant s e e.pfDeadline) s) e.context := ⟨_, rfl⟩
  have hp := disposition_only (pts := [.hif, .hlt, .status, .counters, .mem]) rfl 3 e.context (e.layer + 1) d
    (Only.refl _ (raise .weightsLate (bump cWLate 1 u)))
  have hg := disposition_grows 3 e.context (e.layer + 1) d (Grows.refl (raise .weightsLate (bump cWLate 1 u)))
  refine ⟨disposition 3 e.context (e.layer + 1) d (raise .weightsLate (bump cWLate 1 u)), ?_, ?_, ?_, ?_, ?_⟩
  · show execPrefetchDeadline slot s = _
    unfold execPrefetchDeadline
    simp only [h0, h1, h2, h3, hu, hd, beq_self_eq_true, Bool.and_self, if_true]
  · rw [hp.2 .tmu rfl, hu]; simp
  · rw [hp.2 .mdl rfl, hu]; simp
  · exact hg.bits _ (eventBit_raise_same _ _)
  · refine le_trans (le_of_eq ?_) (hg.counters cWLate)
    have : counter (raise .weightsLate (bump cWLate 1 u)) cWLate = counter (bump cWLate 1 u) cWLate := by
      unfold counter counterRaw; rw [raise_counters]
    rw [this, counter_bump_same, hu]
    rfl

theorem counter_raise (e : Event) (s : State) (a : Nat) : counter (raise e s) a = counter s a := by
  unfold counter counterRaw; rw [raise_counters]

/-- Loads are touched only under the key by a deferral. -/
theorem deferFor_load (before : State) (context key overrun : Nat) (s : State) :
    Tab.look key (deferFor before context key overrun s).mdl.loads = Tab.look key s.mdl.loads ∨
    Tab.look key (deferFor before context key overrun s).mdl.loads = some .stopped := by
  have hf : ∀ (l : List (Nat × Seq)) (u : State), (l.foldl (fun s e => deferSeq e.1 e.2 s) u).mdl = u.mdl := by
    intro l u
    refine (Only.foldl (ps := [.sqs, .car, .hif, .hlt, .status, .counters, .mem]) (s0 := u) (fun v a h => ?_)
      (Only.refl _ u)).2 .mdl rfl
    exact deferSeq_only rfl a.1 a.2 h
  unfold deferFor
  dsimp only
  split
  · right; simp
  · left; rw [hf]

/-- The slack of the step is used up at `a`: the stream of the remaining bytes begins (R199). -/
def streamFrom (e : TideEntry) (key : Nat) (c : Ctx) (remaining : Nat) (a : State) : State :=
  let cycles := nsCycles (cdiv remaining 32)
  let left := spillReserve a - a.mdl.spillUsed
  let s := raise .spillwayEngaged (bump cSpill 1
    (chargeFetch { c with homeCxl := true } remaining (noteLines (cdiv remaining 256) 1024 a)))
  let s := setLoad key .spillway
    (addDelay e.context (cdiv remaining 32) { s with mdl := { s.mdl with spillUsed := s.mdl.spillUsed + min cycles left } })
  swapCheck (if cycles ≤ left then s else deferFor a e.context key (cycles - left) s)

theorem streamFrom_at (e : TideEntry) (key : Nat) (c : Ctx) (remaining : Nat) (a : State) :
    (streamFrom e key c remaining a).tmu = a.tmu ∧
    (Tab.look key (streamFrom e key c remaining a).mdl.loads = some .spillway ∨
      Tab.look key (streamFrom e key c remaining a).mdl.loads = some .stopped) ∧
    eventBit (streamFrom e key c remaining a) .spillwayEngaged = true ∧
    min (counter a cSpill + 1) sMax ≤ counter (streamFrom e key c remaining a) cSpill := by
  unfold streamFrom
  dsimp only
  obtain ⟨v, hv⟩ : ∃ v, v = chargeFetch { c with homeCxl := true } remaining (noteLines (cdiv remaining 256) 1024 a) := ⟨_, rfl⟩
  have kv : Only [.tir, .free, .hif, .hlt, .status] a v := by
    rw [hv]
    exact chargeFetch_only rfl _ _ (noteLines_only rfl _ _ (Only.refl _ a))
  rw [← hv]
  obtain ⟨b, hb⟩ : ∃ b, b = raise .spillwayEngaged (bump cSpill 1 v) := ⟨_, rfl⟩
  rw [← hb]
  have hbt : b.tmu = a.tmu := by rw [hb, raise_tmu, bump_tmu]; exact kv.2 .tmu rfl
  generalize hl : spillReserve a - a.mdl.spillUsed = left
  obtain ⟨d, hd⟩ : ∃ d, d = setLoad key .spillway (addDelay e.context (cdiv remaining 32) { b with
    mdl := { b.mdl with spillUsed := b.mdl.spillUsed + min (nsCycles (cdiv remaining 32)) left } }) := ⟨_, rfl⟩
  rw [← hd]
  have hdt : d.tmu = a.tmu := by
    rw [hd]
    exact hbt
  have hdg : Grows b d := by
    rw [hd]
    exact setLoad_grows _ _ (addDelay_grows _ _ ((Grows.refl b).of_eq rfl rfl rfl))
  have hdl : Tab.look key d.mdl.loads = some .spillway := by rw [hd]; simp
  obtain ⟨u, hu⟩ : ∃ u, u = (if nsCycles (cdiv remaining 32) ≤ left then d
    else deferFor a e.context key (nsCycles (cdiv remaining 32) - left) d) := ⟨_, rfl⟩
  rw [← hu]
  have hut : u.tmu = d.tmu := by
    rw [hu]
    split
    · rfl
    · exact (deferFor_only (pts := [.sqs, .car, .mdl, .hif, .hlt, .status, .counters, .mem]) rfl _ _ _ _ (Only.refl _ d)).2 .tmu rfl
  have hug : Grows d u := by
    rw [hu]
    split
    · exact Grows.refl d
    · exact deferFor_grows _ _ _ _ (Grows.refl d)
  have hul : Tab.look key u.mdl.loads = some .spillway ∨ Tab.look key u.mdl.loads = some .stopped := by
    rw [hu]
    split
    · exact .inl hdl
    · rcases deferFor_load a e.context key (nsCycles (cdiv remaining 32) - left) d with h | h
      · exact .inl (h.trans hdl)
      · exact .inr h
  have hg : Grows b (swapCheck u) := swapCheck_grows (hdg.trans hug)
  refine ⟨?_, ?_, ?_, ?_⟩
  · rw [(swapCheck_only (pts := [.mdl, .free]) rfl (Only.refl _ u)).2 .tmu rfl, hut, hdt]
  · rw [swapCheck_mdl]
    exact hul
  · refine hg.bits _ ?_
    rw [hb]; exact eventBit_raise_same _ _
  · refine le_trans (le_of_eq ?_) (hg.counters cSpill)
    have h3 : counter v cSpill = counter a cSpill := by
      unfold counter counterRaw
      rw [kv.2 .counters rfl]
    rw [hb, counter_raise, counter_bump_same, h3]

theorem slackExhausted_effect {slot key remaining : Nat} {s : State} {e : TideEntry} {c : Ctx} {l : LayerDesc}
    (h0 : prefetchOf s slot = some (e, key, c, l)) (h1 : inService s = true)
    (h2 : Tab.look key s.mdl.loads = some .late) :
    Completes (.slackExhausted slot remaining) s fun t =>
      t.tmu.now = max s.tmu.now (if slackLeft s = 0 then slotInstant s e e.pfDeadline else waitFrom s e + cyclesNs (slackLeft s)) ∧
      (Tab.look key t.mdl.loads = some .spillway ∨ Tab.look key t.mdl.loads = some .stopped) ∧
      eventBit t .spillwayEngaged = true ∧ min (counter s cSpill + 1) sMax ≤ counter t cSpill := by
  obtain ⟨n, hn⟩ : ∃ n, n = (if slackLeft s = 0 then slotInstant s e e.pfDeadline else waitFrom s e + cyclesNs (slackLeft s)) :=
    ⟨_, rfl⟩
  obtain ⟨a, ha⟩ : ∃ a, a = addDelay e.context (cyclesNs (slackLeft s)) { setNow n s with
    mdl := { (setNow n s).mdl with slackUsed := (setNow n s).mdl.slackUsed + slackLeft s } } := ⟨_, rfl⟩
  have hr : exec (.slackExhausted slot remaining) s = .next (streamFrom e key c remaining a) := by
    show execSlackExhausted slot remaining s = _
    unfold execSlackExhausted
    simp only [h0, h1, h2, beq_self_eq_true, Bool.and_self, if_true]
    rw [← hn, ← ha]
    rfl
  have hk := streamFrom_at e key c remaining a
  refine ⟨_, hr, ?_, hk.2.1, hk.2.2.1, ?_⟩
  · rw [hk.1, ha, ← hn]
    rfl
  · have : counter a cSpill = counter s cSpill := by rw [ha]; rfl
    rw [← this]
    exact hk.2.2.2

/-! ## Image swaps -/

/-- A swap touches only its own cluster. -/
theorem swapCluster_other {k c : Nat} (h : k ≠ c) (s : State) :
    Tab.look c (swapCluster k s).mdl.swapping = Tab.look c s.mdl.swapping ∧
    Tab.look c (swapCluster k s).mdl.resident = Tab.look c s.mdl.resident := by
  unfold swapCluster
  dsimp only
  repeat' split
  all_goals exact ⟨by simp [Ne.symm h, freeOf, freeBelow], by simp [Ne.symm h, freeOf, freeBelow]⟩

/-- A cluster that holds every context assigned to it swaps nothing. -/
theorem swapCluster_full {k : Nat} {s : State}
    (h : ∀ x ∈ Tab.getD s.mdl.assigned k [], x ∈ Tab.getD s.mdl.resident k []) : swapCluster k s = s := by
  have : (Tab.getD s.mdl.assigned k []).filter (fun c => !(Tab.getD s.mdl.resident k []).contains c) = [] := by
    rw [List.filter_eq_nil_iff]
    intro x hx
    simpa using h x hx
  unfold swapCluster
  dsimp only
  rw [this]
  simp

theorem swapCheck_full {c : Nat} {s : State} (h : ∀ x ∈ Tab.getD s.mdl.assigned c [], x ∈ Tab.getD s.mdl.resident c []) :
    Tab.look c (swapCheck s).mdl.swapping = Tab.look c s.mdl.swapping ∧
    Tab.look c (swapCheck s).mdl.resident = Tab.look c s.mdl.resident := by
  unfold swapCheck
  generalize List.range 32 = l
  induction l generalizing s with
  | nil => exact ⟨rfl, rfl⟩
  | cons k l ih =>
    rw [List.foldl_cons]
    by_cases hk : k = c
    · subst hk
      rw [swapCluster_full h]
      exact ih h
    · have ho := swapCluster_other hk s
      have ha : (swapCluster k s).mdl.assigned = s.mdl.assigned := by rw [swapCluster_mdl]
      have := ih (s := swapCluster k s) (by
        unfold Tab.getD at h ⊢
        rw [ha, ho.2]; exact h)
      exact ⟨this.1.trans ho.1, this.2.trans ho.2⟩

theorem imageSwapComplete_effect {cluster c : Nat} {s : State} (h0 : Tab.look cluster s.mdl.swapping = some c)
    (h1 : inService s = true)
    (h2 : ∀ x ∈ Tab.getD s.mdl.assigned cluster [], x = c ∨ x ∈ Tab.getD s.mdl.resident cluster []) :
    Completes (.imageSwapComplete cluster) s fun t =>
      Tab.look cluster t.mdl.swapping = none ∧
      Tab.look cluster t.mdl.resident = some (Tab.getD s.mdl.resident cluster [] ++ [c]) ∧
      counter t cSwap = min (counter s cSwap + 1) sMax := by
  obtain ⟨v, hv⟩ : ∃ v, v = bump cSwap 1 { (freeBelow 65537 s).2 with mdl := { s.mdl with
    swapping := Tab.del cluster s.mdl.swapping
    resident := Tab.put cluster (Tab.getD s.mdl.resident cluster [] ++ [c]) s.mdl.resident } } := ⟨_, rfl⟩
  obtain ⟨u, hu⟩ : ∃ u, u = charge 0 3 (freeBelow 65537 s).1 v := ⟨_, rfl⟩
  have hc := charge_only (pts := [.hif, .hlt, .status]) rfl 0 3 (freeBelow 65537 s).1 (Only.refl _ v)
  rw [← hu] at hc
  have hum : u.mdl = { s.mdl with
    swapping := Tab.del cluster s.mdl.swapping
    resident := Tab.put cluster (Tab.getD s.mdl.resident cluster [] ++ [c]) s.mdl.resident } := by rw [hc.2 .mdl rfl, hv, bump_mdl]
  have hf := swapCheck_full (c := cluster) (s := u) (by
    rw [hum]
    intro x hx
    simp only [Tab.getD_put_same, List.mem_append, List.mem_singleton]
    exact (h2 x hx).symm)
  refine ⟨swapCheck u, ?_, ?_, ?_, ?_⟩
  · show execImageSwapComplete cluster s = _
    unfold execImageSwapComplete
    rw [h0]
    dsimp only
    rw [if_pos h1, hu, hv]
  · rw [hf.1, hum]; simp
  · rw [hf.2, hum]; simp
  · have : counter (swapCheck u) cSwap = counter u cSwap := by
      unfold counter counterRaw
      rw [(swapCheck_only (pts := [.mdl, .free]) rfl (Only.refl _ u)).2 .counters rfl]
    have hv' : counter u cSwap = counter v cSwap := by
      unfold counter counterRaw
      rw [hc.2 .counters rfl]
    rw [this, hv', hv, counter_bump_same]
    rfl

theorem contextFillComplete_effect {context : Nat} {s : State} {c : Ctx} (h0 : Tab.look context s.mdl.ctxs = some c)
    (h1 : c.state = .loading) :
    Completes (.contextFillComplete context) s fun t =>
      Tab.look context t.mdl.ctxs = some { c with
        filled := true, cells := some (cellsIn s.mem (c.layers.flatMap (layerSpans s.mem c))) } ∧
      (∀ k, k ≠ context → Tab.look k t.mdl.ctxs = Tab.look k s.mdl.ctxs) ∧ Only [.mdl, .hif, .hlt, .status] s t := by
  have hk := chargeFill_only (pts := [.hif, .hlt, .status]) rfl context (Only.refl _ s)
  obtain ⟨v, hv⟩ : ∃ v, v = chargeFill context s := ⟨_, rfl⟩
  rw [← hv] at hk
  have hm : v.mem = s.mem := hk.2 .mem rfl
  have hd : v.mdl = s.mdl := hk.2 .mdl rfl
  have hr : exec (.contextFillComplete context) s = .next { v with mdl := { v.mdl with ctxs := Tab.upd context (fun c =>
      if c.state == .loading then { c with
        filled := true, cells := some (cellsIn v.mem (c.layers.flatMap (layerSpans v.mem c))) } else c) v.mdl.ctxs } } := by
    rw [hv]
    rfl
  refine ⟨_, hr, ?_, ?_, ?_⟩
  · dsimp only
    rw [Tab.look_upd, hd, hm, h0]
    simp [h1]
  · intro k hk
    dsimp only
    rw [Tab.look_upd, hd]
    simp [hk]
  · exact Only.put [.mdl] rfl (Only.mono hk rfl) rfl

/-! ## Items -/

/-- What folding a source does to the items: the item is marked, or, where its page is damaged, it stays to be run. -/
theorem foldItem_marks (slot : Nat) (e : Seq) (c : Ctx) (l : LayerDesc) (i : Item) (mark : State → State) (s : State) :
    itemsOf (foldItem slot e c l i mark s) = itemsOf (mark s) ∨ itemsOf (foldItem slot e c l i mark s) = itemsOf s := by
  unfold foldItem
  split
  · exact .inr (damagePage_items _ (blockDamaged_items _ _ (SameItems.refl s)))
  · left
    refine afterAttention_items (s0 := mark s) _ _ _ _ ?_
    split
    · exact SameItems.put (bump_items _ _ (raiseTimes_items _ _ (bump_items _ _ (raiseTimes_items _ _
        (setRun_items _ _ _ (holdPage_items _ _ (SameItems.refl _))))))) rfl
    · exact bump_items _ _ (raiseTimes_items _ _ (bump_items _ _ (raiseTimes_items _ _
        (setRun_items _ _ _ (holdPage_items _ _ (SameItems.refl _))))))

/-- What the completion of an item marks: an item of its own is done; of a batch, the tokens that could run. -/
def markOf (i : Item) (ran : List (Nat × Nat)) (s : State) : State :=
  if ran.isEmpty then markDone i.id s else markRan i.id ran s

theorem markOf_items (i : Item) (ran : List (Nat × Nat)) {s t : State} (h : t.car.items = s.car.items) :
    itemsOf (markOf i ran t) = itemsOf (markOf i ran s) := by
  unfold itemsOf markOf markDone markRan
  split <;> simp only [h]

theorem completeItem_items (i : Item) (u : ItemUse) (s : State) :
    itemsOf (completeItem i u s) = itemsOf (markOf i (readyBatch s i) s) ∨
    ((i.kind = .da ∨ i.kind = .dh ∨ i.kind = .pa ∨ i.kind = .ps ∨ i.kind = .rb) ∧ itemsOf (completeItem i u s) = itemsOf s) := by
  obtain ⟨v, hv⟩ : ∃ v, v = chargeItem { i with batch := readyBatch s i } u s := ⟨_, rfl⟩
  have hvi : v.car.items = s.car.items := by
    rw [hv, (chargeItem_only (pts := [.hif, .hlt, .status]) rfl _ u (Only.refl _ s)).2 .car rfl]
  have hm : itemsOf (markOf i (readyBatch s i) v) = itemsOf (markOf i (readyBatch s i) s) := markOf_items _ _ hvi
  have hvs : itemsOf v = itemsOf s := by unfold itemsOf; rw [hvi]
  have hmk : (if (readyBatch s i).isEmpty then markDone i.id else markRan i.id (readyBatch s i)) =
      markOf i (readyBatch s i) := by
    funext x
    unfold markOf
    split <;> rfl
  rw [← hm, ← hvs]
  unfold completeItem
  dsimp only
  rw [hmk, ← hv]
  have ok : ∀ {x : State}, SameItems (markOf i (readyBatch s i) v) x →
      itemsOf x = itemsOf (markOf i (readyBatch s i) v) ∨
      ((i.kind = .da ∨ i.kind = .dh ∨ i.kind = .pa ∨ i.kind = .ps ∨ i.kind = .rb) ∧ itemsOf x = itemsOf v) :=
    fun h => .inl h
  split
  · split
    · split
      · split
        · exact ok (sampleItem_items _ _ _ (SameItems.refl _))
        · exact ok (SameItems.refl _)
      · exact ok (SameItems.refl _)
    · exact ok (SameItems.refl _)
  · split
    · exact ok (projectBatch_items _ _ _ _ _ (SameItems.refl _))
    · exact ok (returnBatch_items _ _ (projectBatch_items _ _ _ _ _ (SameItems.refl _)))
    · exact ok (SameItems.refl _)
  · split
    · exact ok (SameItems.refl _)
    · split
      · split
        · exact ok (SameItems.refl _)
        · exact ok (noteElems_items _ (updRow_items _ _ _ _ (SameItems.refl _)))
      · exact ok (projectBatch_items _ _ _ _ _ (SameItems.refl _))
      · exact ok (rotaryDone_items _ _ _ _ (SameItems.refl _))
      · exact ok (returnBatch_items _ _ (projectBatch_items _ _ _ _ _ (SameItems.refl _)))
      · exact ok (mergeItem_items _ _ _ _ (SameItems.refl _))
      · exact ok (sampleItem_items _ _ _ (SameItems.refl _))
      · rename_i n1 n2 n3 n4 n5 n6
        rcases foldItem_marks _ _ _ _ { i with batch := readyBatch s i } (markOf i (readyBatch s i)) v with h | h
        · exact .inl h
        · refine .inr ⟨?_, h⟩
          cases hi : i.kind <;> simp_all

theorem itemComplete_effect {item : Nat} {u : ItemUse} {s : State} {i : Item}
    (h0 : s.car.items.find? (fun j => j.id == item && j.step == stepNo s) = some i) (h1 : inService s = true)
    (h2 : itemReady s i = true) :
    Completes (.itemComplete item u) s fun t =>
      itemsOf t = itemsOf (if (readyBatch s i).isEmpty then markDone i.id s else markRan i.id (readyBatch s i) s) ∨
      ((i.kind = .da ∨ i.kind = .dh ∨ i.kind = .pa ∨ i.kind = .ps ∨ i.kind = .rb) ∧ itemsOf t = itemsOf s) := by
  refine ⟨swapCheck (completeItem i u s), ?_, ?_⟩
  · show execItemComplete item u s = _
    unfold execItemComplete
    rw [h0]
    dsimp only
    rw [h1, h2]
    rfl
  · have : itemsOf (swapCheck (completeItem i u s)) = itemsOf (completeItem i u s) := by
      unfold itemsOf
      rw [(swapCheck_only (pts := [.mdl, .free]) rfl (Only.refl _ _)).2 .car rfl]
    dsimp only
    rw [this]
    exact completeItem_items i u s

end Sys2Proof.Machine
end

