-- ==== Sys2Proof/Laws/Reads.lean ====
section
/-! SUPPORT. Reads of runs of bytes: each is the read of its byte, and a write elsewhere leaves it alone. -/

namespace Sys2Proof.Machine

theorem memBytes_eq (m : List Host.Cell) (a n : Nat) : memBytes m a n = (List.range n).map (fun i => memRead (a + i) m) := by
  unfold memBytes
  apply List.map_congr_left
  intro i hi
  have : i < n := List.mem_range.1 hi
  unfold Tab.part
  rw [memRead_filter]
  intro c _ hc
  simp only [Bool.and_eq_true, decide_eq_true_eq]
  omega

/-- Reading bytes outside what a write covers gives what they were. -/
theorem readMem_writeMem_other {a b n : Nat} {bs : List Byte} {s : State} (h : b + n ≤ a ∨ a + bs.length ≤ b) :
    readMem (writeMem a bs s) b n = readMem s b n := by
  unfold readMem
  rw [memBytes_eq, memBytes_eq]
  apply List.map_congr_left
  intro i hi
  have : i < n := List.mem_range.1 hi
  exact memRead_memWrite_other _ _ _ _ (by omega)

/-- Reading what was written gives it. -/
theorem readMem_writeMem_same (a : Nat) (bs : List Byte) (s : State) : readMem (writeMem a bs s) a bs.length = bs := by
  unfold readMem
  rw [memBytes_eq]
  apply List.ext_getElem
  · simp
  · intro i h1 h2
    rw [List.getElem_map, List.getElem_range]
    exact (memRead_memWrite_same a i bs s.mem h2)

theorem readMem_of_mem {s t : State} (h : t.mem = s.mem) (a n : Nat) : readMem t a n = readMem s a n := by
  unfold readMem; rw [h]

end Sys2Proof.Machine
end

