-- ==== Sys2Proof/Laws/EffExchange.lean ====
section
/-! SUPPORT. What the exchange's commands do (R24, R87, R360, R361). -/

namespace Sys2Proof.Machine

open Sys2Proof.Safety

theorem consumeNow_sqs (tenant source sseq : Nat) (bytes : List Byte) (s : State) :
    (consumeNow tenant source sseq bytes s).sqs = (noteFirst source sseq s).sqs := by
  unfold consumeNow
  exact (journalMsg_only (pts := [.hif, .hlt, .status, .counters, .mem]) rfl 0 tenant source sseq bytes (Only.refl _ _)).2 .sqs rfl

theorem noteFirst_sqs (source sseq : Nat) (s : State) :
    (noteFirst source sseq s).sqs = { s.sqs with firstSeq := (noteFirst source sseq s).sqs.firstSeq } := by
  unfold noteFirst
  split <;> rfl

theorem consumeNow_seqs (tenant source sseq : Nat) (bytes : List Byte) (s : State) :
    (consumeNow tenant source sseq bytes s).sqs.seqs = s.sqs.seqs := by rw [consumeNow_sqs, noteFirst_sqs]

theorem consumeNow_owned (tenant source sseq : Nat) (bytes : List Byte) (s : State) :
    (consumeNow tenant source sseq bytes s).sqs.owned = s.sqs.owned := by rw [consumeNow_sqs, noteFirst_sqs]

/-! ## Channels -/

@[simp] theorem channelOf_setChannel (c : Nat) (ch : Channel) (s : State) : channelOf (setChannel c ch s) c = ch := by
  simp [channelOf, setChannel]

theorem channelOf_same {c : Nat} {s t : State} (h : SameChannels s t) : channelOf t c = channelOf s c := by
  unfold channelOf; rw [h]

/-- Inbound bytes not yet consumed. -/
def inboundLeft (ch : Channel) : Nat := (ch.inHead + inRingSize - ch.inTail) % inRingSize

/-- The module consumes every inbound record that is there: IN_TAIL comes to IN_HEAD (R361). -/
theorem takeInbound_all (c n : Nat) (s : State) (hh : (channelOf s c).inHead < inRingSize)
    (hh64 : (channelOf s c).inHead % 64 = 0) (ht : (channelOf s c).inTail < inRingSize)
    (ht64 : (channelOf s c).inTail % 64 = 0) (hn : inboundLeft (channelOf s c) ≤ 64 * n) :
    channelOf (takeInbound c n s) c = { channelOf s c with inTail := (channelOf s c).inHead } := by
  have hz : inRingSize = 33554432 := rfl
  have hzero : ∀ u : State, (channelOf u c).inHead < inRingSize → (channelOf u c).inTail < inRingSize →
      inboundLeft (channelOf u c) = 0 → channelOf u c = { channelOf u c with inTail := (channelOf u c).inHead } := by
    intro u h1 h2 h3
    unfold inboundLeft at h3
    rw [hz] at h1 h2 h3
    have : (channelOf u c).inTail = (channelOf u c).inHead := by omega
    cases hu : channelOf u c
    rw [hu] at this
    simp only at this
    subst this
    rfl
  induction n generalizing s with
  | zero => exact hzero s hh ht (by omega)
  | succ n ih =>
    unfold takeInbound
    dsimp only
    split
    · rename_i h0; exact hzero s hh ht h0
    · rename_i h0
      obtain ⟨bs, hbs⟩ : ∃ bs, bs = wrapRead s (inRingBase c) inRingSize (channelOf s c).inTail 64 := ⟨_, rfl⟩
      rw [← hbs]
      obtain ⟨len, hlen⟩ : ∃ len, len = min (((channelOf s c).inHead + inRingSize - (channelOf s c).inTail) % inRingSize)
        (64 + cdiv (fld bs 12 4) 64 * 64) := ⟨_, rfl⟩
      rw [← hlen]
      obtain ⟨p, hp⟩ : ∃ p, p = wrapRead s (inRingBase c) inRingSize (((channelOf s c).inTail + 64) % inRingSize)
        (min (fld bs 12 4) (len - 64)) := ⟨_, rfl⟩
      rw [← hp]
      obtain ⟨u, hu⟩ : ∃ u, u = setChannel c { channelOf s c with inTail := ((channelOf s c).inTail + len) % inRingSize } s :=
        ⟨_, rfl⟩
      rw [← hu]
      obtain ⟨v, hv⟩ : ∃ v, v = (match (if p.length = fld bs 12 4 then inboundOk u bs else none) with
        | some x => takeRecord bs p x u
        | none => raise .messageMalformed u) := ⟨_, rfl⟩
      have hsc : SameChannels u v := by
        rw [hv]
        split
        · exact takeRecord_channels _ _ _ (SameChannels.refl u)
        · exact raise_channels _ (SameChannels.refl u)
      have hvc : channelOf v c = { channelOf s c with inTail := ((channelOf s c).inTail + len) % inRingSize } := by
        rw [channelOf_same hsc, hu, channelOf_setChannel]
      show channelOf (takeInbound c n (match (if p.length = fld bs 12 4 then inboundOk u bs else none) with
        | some x => takeRecord bs p x u
        | none => raise .messageMalformed u)) c = _
      rw [← hv]
      have hl1 : 64 ≤ len ∧ len % 64 = 0 ∧ len ≤ inboundLeft (channelOf s c) := by
        unfold inboundLeft
        rw [hlen, hz] at *
        obtain ⟨k, hk⟩ : ∃ k, k = cdiv (fld bs 12 4) 64 := ⟨_, rfl⟩
        rw [← hk]
        omega
      have := ih v (by rw [hvc]; exact hh) (by rw [hvc]; exact hh64) (by rw [hvc]; exact Nat.mod_lt _ (by rw [hz]; decide))
        (by rw [hvc]; dsimp only; rw [hz]; omega)
        (by
          rw [hvc]
          unfold inboundLeft at hl1 hn ⊢
          rw [hz] at *
          dsimp only
          omega)
      rw [this, hvc]

theorem le_length (n v : Nat) : (le n v).length = n := by
  induction n generalizing v with
  | zero => rfl
  | succ n ih => simp [le, ih]

theorem channelOn_setChannel (c : Nat) (ch : Channel) (s : State) : channelOn (setChannel c ch s) c = channelOn s c := by
  unfold channelOn setChannel
  rw [readMem_writeMem_other]
  · rfl
  · right
    simp only [List.length_append, le_length]
    omega

theorem inHeadWrite_effect {offsetNs channel head : Nat} {placed : Placed} {s : State} (h1 : inService s = true)
    (h2 : roleC s = false) (h3 : channel < 16) (h4 : (channelOf s channel).inTail < inRingSize)
    (h5 : (channelOf s channel).inTail % 64 = 0) :
    Completes (.inHeadWrite offsetNs channel head placed) s fun t =>
      channelOf t channel = { channelOf s channel with
        inHead := head % inRingSize / 64 * 64
        inTail := if channelOn (place placed s) channel then head % inRingSize / 64 * 64 else (channelOf s channel).inTail } := by
  have hz : inRingSize = 33554432 := rfl
  obtain ⟨hd, hhd⟩ : ∃ hd, hd = head % inRingSize / 64 * 64 := ⟨_, rfl⟩
  have hd1 : hd < inRingSize ∧ hd % 64 = 0 := by
    have := Nat.mod_lt head (show 0 < inRingSize by rw [hz]; decide)
    omega
  obtain ⟨p, hp⟩ : ∃ p, p = place placed (setNow (s.tmu.openedAt + offsetNs) s) := ⟨_, rfl⟩
  have hpm : p.mem = (place placed s).mem := by
    rw [hp]; unfold place
    have : hdmOn (setNow (s.tmu.openedAt + offsetNs) s) = hdmOn s := rfl
    rw [this]
    split <;> rfl
  have hpc : ∀ c, channelOf p c = channelOf s c := by
    intro c; rw [hp]; unfold place
    split <;> rfl
  obtain ⟨u, hu⟩ : ∃ u, u = setChannel channel { channelOf p channel with inHead := hd } p := ⟨_, rfl⟩
  have huc : channelOf u channel = { channelOf s channel with inHead := hd } := by
    rw [hu, channelOf_setChannel, hpc]
  have hon : channelOn u channel = channelOn (place placed s) channel := by
    rw [hu, channelOn_setChannel]
    unfold channelOn
    rw [readMem_of_mem hpm]
  refine ⟨if channelOn u channel then takeInbound channel (inRingSize / 64) u else u, ?_, ?_⟩
  · show execInHeadWrite offsetNs channel head placed s = _
    unfold execInHeadWrite
    dsimp only
    rw [if_pos, ← hp, ← hhd, ← hu]
    simp [h1, h2, h3]
  · dsimp only
    rw [hon, ← hhd]
    split
    · rw [takeInbound_all]
      · rw [huc]
      · rw [huc]; exact hd1.1
      · rw [huc]; exact hd1.2
      · rw [huc]; exact h4
      · rw [huc]; exact h5
      · rw [huc]
        unfold inboundLeft
        have := Nat.mod_lt (hd + inRingSize - (channelOf s channel).inTail) (show 0 < inRingSize by rw [hz]; decide)
        dsimp only
        rw [hz] at *
        omega
    · rw [huc]

end Sys2Proof.Machine
end

