-- ==== Sys2Proof/Laws/Cipher.lean ====
section
/-! SUPPORT. Little-endian bytes and numbers undo each other, and so do decryption and encryption of a data unit (R244, R248). -/

namespace Sys2Proof.Machine

/-- The bytes of the number that they spell are themselves. -/
theorem le_unle (bs : List Byte) : le bs.length (unle bs) = bs := by
  induction bs with
  | nil => rfl
  | cons b t ih =>
    have hb : b.toNat < 256 := b.isLt
    have hq : (b.toNat + 256 * unle t) / 256 = unle t := by omega
    have hr : BitVec.ofNat 8 (b.toNat + 256 * unle t) = b := by
      apply BitVec.eq_of_toNat_eq
      rw [BitVec.toNat_ofNat]
      omega
    simp only [List.length_cons, unle, le, hq, hr, ih]

/-- A number of `n` bytes is what its bytes spell. -/
theorem unle_le (n v : Nat) (h : v < 2 ^ (8 * n)) : unle (le n v) = v := by
  induction n generalizing v with
  | zero => simp at h; simp [le, unle, h]
  | succ n ih =>
    have hq : v / 256 < 2 ^ (8 * n) := by
      rw [Nat.div_lt_iff_lt_mul (by decide)]
      have e : 2 ^ (8 * (n + 1)) = 2 ^ (8 * n) * 256 := by rw [Nat.mul_add, Nat.pow_add]
      omega
    simp only [le, unle, ih _ hq, BitVec.toNat_ofNat]
    omega

/-- What bytes spell is below 2 to the number of their bits. -/
theorem unle_lt (bs : List Byte) : unle bs < 2 ^ (8 * bs.length) := by
  induction bs with
  | nil => decide
  | cons b t ih =>
    have hb : b.toNat < 256 := b.isLt
    have e : 2 ^ (8 * (t.length + 1)) = 2 ^ (8 * t.length) * 256 := by rw [Nat.mul_add, Nat.pow_add]
    simp only [unle, List.length_cons]
    omega

/-- Encryption keeps the length of a data unit. -/
theorem xts_length (key tweak : Nat) (bs : List Byte) : (xts key tweak bs).length = bs.length := le_length _ _

/-- Decryption under the same key and tweak gives the data unit back (R248). -/
theorem unxts_xts (key tweak : Nat) (bs : List Byte) : unxts key tweak (xts key tweak bs) = bs := by
  unfold unxts
  rw [xts_length]
  unfold xts
  generalize Config.xts key tweak bs.length = p
  have h := (p (BitVec.ofNat (8 * bs.length) (unle bs))).isLt
  rw [unle_le _ _ h, BitVec.ofNat_toNat, BitVec.setWidth_eq, Equiv.symm_apply_apply, BitVec.toNat_ofNat,
    Nat.mod_eq_of_lt (unle_lt bs), le_unle]

end Sys2Proof.Machine
end

