-- ==== Sys2Proof/Laws/Cores.lean ====
section
/-! SUPPORT. Moving items, charging and flash writes leave the records of cores, dies and mismatches alone (R341 to R351).
`f_sameCores`: if `s` has them as `s0`, so has what `f` makes of `s`. -/

namespace Sys2Proof.Safety

open Sys2Proof.Machine

/-- Two states have the same cores, dies and mismatches (R341 to R351). -/
def SameCores (s0 s : State) : Prop := (s.hlt.cores, s.hlt.dies, s.hlt.mseq, s.hlt.mismatches, s.hlt.shadows, s.hlt.replayed) = (s0.hlt.cores, s0.hlt.dies, s0.hlt.mseq, s0.hlt.mismatches, s0.hlt.shadows, s0.hlt.replayed)

theorem SameCores.refl (s : State) : SameCores s s := rfl

theorem SameCores.foldl {α : Type} {f : State → α → State} {s0 s : State} {l : List α}
    (hf : ∀ s a, SameCores s0 s → SameCores s0 (f s a)) (h : SameCores s0 s) : SameCores s0 (l.foldl f s) := by
  induction l generalizing s with
  | nil => exact h
  | cons a t ih => exact ih (hf s a h)

theorem SameCores.foldl_fst {α β : Type} {f : State × β → α → State × β} {s0 : State} {p : State × β} {l : List α}
    (hf : ∀ p a, SameCores s0 p.1 → SameCores s0 (f p a).1) (h : SameCores s0 p.1) : SameCores s0 (l.foldl f p).1 := by
  induction l generalizing p with
  | nil => exact h
  | cons a t ih => exact ih (hf p a h)

theorem SameCores.foldl_snd {α β : Type} {f : β × State → α → β × State} {s0 : State} {p : β × State} {l : List α}
    (hf : ∀ p a, SameCores s0 p.2 → SameCores s0 (f p a).2) (h : SameCores s0 p.2) : SameCores s0 (l.foldl f p).2 := by
  induction l generalizing p with
  | nil => exact h
  | cons a t ih => exact ih (hf p a h)

theorem SameCores.of_snd {α : Type} {s0 s : State} {p : α × State} {a : α} (e : p = (a, s)) (h : SameCores s0 p.2) : SameCores s0 s := by
  subst e; exact h

theorem SameCores.of_snd2 {α β : Type} {s0 s : State} {p : α × β × State} {a : α} {b : β} (e : p = (a, b, s))
    (h : SameCores s0 p.2.2) : SameCores s0 s := by
  subst e; exact h

theorem SameCores.of_fst {α : Type} {s0 s : State} {p : State × α} {a : α} (e : p = (s, a)) (h : SameCores s0 p.1) : SameCores s0 s := by
  subst e; exact h

theorem SameCores.put {s0 s : State} {tmu sqs slc pgm tir cmp car mdl fab wei hif sec hlt stw sup status counters mem free pending}
    (h : SameCores s0 s) (hi : (hlt.cores, hlt.dies, hlt.mseq, hlt.mismatches, hlt.shadows, hlt.replayed) = (s.hlt.cores, s.hlt.dies, s.hlt.mseq, s.hlt.mismatches, s.hlt.shadows, s.hlt.replayed)) :
    SameCores s0 ⟨tmu, sqs, slc, pgm, tir, cmp, car, mdl, fab, wei, hif, sec, hlt, stw, sup, status, counters, mem, free,
      pending⟩ := hi.trans h

end Sys2Proof.Safety

namespace Sys2Proof.Machine

open Sys2Proof.Safety

theorem setStatus_sameCores {s0 s : State} (a) (w) (h : SameCores s0 s) : SameCores s0 (setStatus a w s) := by
  unfold setStatus
  try dsimp only
  exact SameCores.put (by assumption) rfl

theorem msix_sameCores {s0 s : State} (v) (h : SameCores s0 s) : SameCores s0 (msix v s) := by
  unfold msix
  try dsimp only
  exact SameCores.put (by assumption) rfl

theorem raiseAt_sameCores {s0 s : State} (a) (bit) (h : SameCores s0 s) : SameCores s0 (raiseAt a bit s) := by
  unfold raiseAt
  try dsimp only
  split
  · exact setStatus_sameCores _ _ (by assumption)
  · exact msix_sameCores _ (setStatus_sameCores _ _ (by assumption))

theorem raise_sameCores {s0 s : State} (e_) (h : SameCores s0 s) : SameCores s0 (raise e_ s) := by
  unfold raise
  try dsimp only
  exact raiseAt_sameCores _ _ (by assumption)

theorem counterEvent_sameCores {s0 s : State} (sat) (block) (offset)
    (h : SameCores s0 s) : SameCores s0 (counterEvent sat block offset s) := by
  unfold counterEvent
  try dsimp only
  split
  · exact SameCores.put (by assumption) rfl
  · exact raise_sameCores _ (SameCores.put (by assumption) rfl)

theorem bump_sameCores {s0 s : State} (a n) (h : SameCores s0 s) : SameCores s0 (bump a n s) := by
  unfold bump
  dsimp only
  split
  · exact h
  · split
    · exact h
    · exact counterEvent_sameCores _ _ _ h

theorem raiseIf_sameCores {s0 s : State} (b) (e_) (h : SameCores s0 s) : SameCores s0 (raiseIf b e_ s) := by
  unfold raiseIf
  try dsimp only
  split
  · exact raise_sameCores _ (by assumption)
  · assumption

theorem wEvent_sameCores {s0 s : State} (old) (new) (block) (offset)
    (h : SameCores s0 s) : SameCores s0 (wEvent old new block offset s) := by
  unfold wEvent
  try dsimp only
  split
  · exact counterEvent_sameCores _ _ _ (by assumption)
  · assumption

theorem writeMem_sameCores {s0 s : State} (a bs) (h : SameCores s0 s) : SameCores s0 (writeMem a bs s) := h

theorem setAcct_sameCores {s0 s : State} (d) (a) (h : SameCores s0 s) : SameCores s0 (setAcct d a s) := by
  unfold setAcct
  try dsimp only
  exact SameCores.put (by assumption) rfl

theorem charge_sameCores {s0 s : State} (d) (k) (n) (h : SameCores s0 s) : SameCores s0 (charge d k n s) := by
  unfold charge
  try dsimp only
  exact wEvent_sameCores _ _ _ _ (wEvent_sameCores _ _ _ _ (setAcct_sameCores _ _ (by assumption)))

theorem freeBelow_sameCores {s0 s : State} (n) (h : SameCores s0 s) : SameCores s0 (freeBelow n s).2 := by
  unfold freeBelow
  try dsimp only
  exact SameCores.put (by assumption) rfl

theorem freeOf_sameCores {s0 s : State} (l) (d) (h : SameCores s0 s) : SameCores s0 (freeOf l d s).2 := by
  unfold freeOf
  try dsimp only
  exact freeBelow_sameCores _ (by assumption)

theorem writeFlash_sameCores {s0 s : State} (a) (bs) (h : SameCores s0 s) : SameCores s0 (writeFlash a bs s) := by
  unfold writeFlash
  try dsimp only
  exact SameCores.put (by assumption) rfl

theorem settleFlash_sameCores {s0 x1 : State} (x0) (h : SameCores s0 x1) : SameCores s0 (settleFlash x0 x1) := by
  induction x0 generalizing x1 with
  | zero =>
    unfold settleFlash
    try dsimp only
    assumption
  | succ n ih =>
    unfold settleFlash
    try dsimp only
    split
    · apply ih
      exact writeFlash_sameCores _ _ (SameCores.put (by assumption) rfl)
    · exact SameCores.put (by assumption) rfl
    · assumption

theorem queueFlash_sameCores {s0 s : State} (w) (h : SameCores s0 s) : SameCores s0 (queueFlash w s) := by
  unfold queueFlash
  try dsimp only
  exact settleFlash_sameCores _ (SameCores.put (by assumption) rfl)

theorem ringWrite_sameCores {s0 s : State} (base) (cap) (u) (bs) (h : SameCores s0 s) : SameCores s0 (ringWrite base cap u bs s) := by
  unfold ringWrite
  try dsimp only
  exact writeMem_sameCores _ _ (writeMem_sameCores _ _ (by assumption))

theorem putRecord_sameCores {s0 s : State} (kind) (flags) (step) (action) (tenant) (source) (sseq) (body)
    (h : SameCores s0 s) : SameCores s0 (putRecord kind flags step action tenant source sseq body s).2 := by
  unfold putRecord
  try dsimp only
  exact SameCores.put (ringWrite_sameCores _ _ _ _ (by assumption)) rfl

theorem putJournal_sameCores {s0 s : State} (kind) (flags) (step) (action) (tenant) (source) (sseq) (body)
    (h : SameCores s0 s) : SameCores s0 (putJournal kind flags step action tenant source sseq body s) := by
  unfold putJournal
  try dsimp only
  split
  · exact putRecord_sameCores _ _ _ _ _ _ _ _ (by assumption)
  · exact putRecord_sameCores _ _ _ _ _ _ _ _ (raise_sameCores _ (bump_sameCores _ _ (putRecord_sameCores _ _ _ _ _ _ _ _
      (by assumption))))

theorem journal_sameCores {s0 s : State} (kind) (action) (tenant) (source) (sseq) (body)
    (h : SameCores s0 s) : SameCores s0 (journal kind action tenant source sseq body s) := by
  unfold journal
  try dsimp only
  split
  · refine SameCores.foldl (fun _ _ _ => ?_) ?_
    · exact putJournal_sameCores _ _ _ _ _ _ _ _ (by assumption)
    · assumption
  · assumption

theorem dispositionAt_sameCores {s0 s : State} (action) (code) (handle) (layer) (amount)
    (h : SameCores s0 s) : SameCores s0 (dispositionAt action code handle layer amount s) := by
  unfold dispositionAt
  try dsimp only
  exact journal_sameCores _ _ _ _ _ _ (by assumption)

theorem disposition_sameCores {s0 s : State} (code) (handle) (layer) (amount)
    (h : SameCores s0 s) : SameCores s0 (disposition code handle layer amount s) := by
  unfold disposition
  try dsimp only
  exact dispositionAt_sameCores _ _ _ _ _ (by assumption)

theorem updSeq_sameCores {s0 s : State} (slot) (f) (h : SameCores s0 s) : SameCores s0 (updSeq slot f s) := by
  unfold updSeq
  try dsimp only
  exact SameCores.put (by assumption) rfl

theorem addWait_sameCores {s0 s : State} (p) (h : SameCores s0 s) : SameCores s0 (addWait p s) := by
  unfold addWait
  try dsimp only
  exact SameCores.put (by assumption) rfl

theorem noteFirst_sameCores {s0 s : State} (source) (sseq) (h : SameCores s0 s) : SameCores s0 (noteFirst source sseq s) := by
  unfold noteFirst
  try dsimp only
  split
  · assumption
  · exact SameCores.put (by assumption) rfl

theorem swapCluster_sameCores {s0 s : State} (k) (h : SameCores s0 s) : SameCores s0 (swapCluster k s) := by
  unfold swapCluster
  try dsimp only
  split
  · split
    · assumption
    · exact SameCores.put (freeOf_sameCores _ _ (by assumption)) rfl
  · split
    · assumption
    · exact SameCores.put (freeOf_sameCores _ _ (by assumption)) rfl

theorem swapCheck_sameCores {s0 s : State} (h : SameCores s0 s) : SameCores s0 (swapCheck s) := by
  unfold swapCheck
  try dsimp only
  refine SameCores.foldl (fun _ _ _ => ?_) ?_
  · exact swapCluster_sameCores _ (by assumption)
  · assumption

theorem pullItems_sameCores {s0 s : State} (e_) (h : SameCores s0 s) : SameCores s0 (pullItems e_ s) := by
  unfold pullItems
  try dsimp only
  exact SameCores.put (by assumption) rfl

theorem carryItems_sameCores {s0 s : State} (items) (h : SameCores s0 s) : SameCores s0 (carryItems items s) := by
  unfold carryItems
  try dsimp only
  refine SameCores.foldl (fun _ _ _ => ?_) ?_
  · split
    · assumption
    · split
      · assumption
      · exact disposition_sameCores _ _ _ _ (pullItems_sameCores _ (updSeq_sameCores _ _ (by assumption)))
  · assumption

theorem chargeShadow_sameCores {s0 s : State} (h : SameCores s0 s) : SameCores s0 (chargeShadow s) := by
  unfold chargeShadow
  try dsimp only
  refine SameCores.foldl (fun _ _ _ => ?_) ?_
  · exact charge_sameCores _ _ _ (SameCores.put (by assumption) rfl)
  · assumption

theorem moveItem_sameCores {s0 s : State} (i) (h : SameCores s0 s) : SameCores s0 (moveItem i s) := by
  unfold moveItem
  try dsimp only
  split
  · assumption
  · exact SameCores.put (by assumption) rfl

theorem discardItems_sameCores {s0 s : State} (core) (h : SameCores s0 s) : SameCores s0 (discardItems core s) := by
  unfold discardItems
  try dsimp only
  split
  · assumption
  · split
    · exact carryItems_sameCores _ (by assumption)
    · refine SameCores.foldl (fun _ _ _ => ?_) ?_
      · exact moveItem_sameCores _ (by assumption)
      · exact SameCores.put (by assumption) rfl

end Sys2Proof.Machine
end

