-- ==== Sys2Proof/Laws/Cxl.lean ====
section
/-! SUPPORT. Serving the rings and a tier fault leave the CXL ports alone (R358, R367).
`f_sameCxl`: if `s` has them as `s0`, so has what `f` makes of `s`. -/

namespace Sys2Proof.Safety

open Sys2Proof.Machine

/-- Two states have the same CXL ports (R358). -/
def SameCxl (s0 s : State) : Prop := (s.hif.x0, s.hif.x1) = (s0.hif.x0, s0.hif.x1)

theorem SameCxl.refl (s : State) : SameCxl s s := rfl

theorem SameCxl.foldl {α : Type} {f : State → α → State} {s0 s : State} {l : List α}
    (hf : ∀ s a, SameCxl s0 s → SameCxl s0 (f s a)) (h : SameCxl s0 s) : SameCxl s0 (l.foldl f s) := by
  induction l generalizing s with
  | nil => exact h
  | cons a t ih => exact ih (hf s a h)

theorem SameCxl.foldl_fst {α β : Type} {f : State × β → α → State × β} {s0 : State} {p : State × β} {l : List α}
    (hf : ∀ p a, SameCxl s0 p.1 → SameCxl s0 (f p a).1) (h : SameCxl s0 p.1) : SameCxl s0 (l.foldl f p).1 := by
  induction l generalizing p with
  | nil => exact h
  | cons a t ih => exact ih (hf p a h)

theorem SameCxl.foldl_snd {α β : Type} {f : β × State → α → β × State} {s0 : State} {p : β × State} {l : List α}
    (hf : ∀ p a, SameCxl s0 p.2 → SameCxl s0 (f p a).2) (h : SameCxl s0 p.2) : SameCxl s0 (l.foldl f p).2 := by
  induction l generalizing p with
  | nil => exact h
  | cons a t ih => exact ih (hf p a h)

theorem SameCxl.of_snd {α : Type} {s0 s : State} {p : α × State} {a : α} (e : p = (a, s)) (h : SameCxl s0 p.2) : SameCxl s0 s := by
  subst e; exact h

theorem SameCxl.of_snd2 {α β : Type} {s0 s : State} {p : α × β × State} {a : α} {b : β} (e : p = (a, b, s))
    (h : SameCxl s0 p.2.2) : SameCxl s0 s := by
  subst e; exact h

theorem SameCxl.of_fst {α : Type} {s0 s : State} {p : State × α} {a : α} (e : p = (s, a)) (h : SameCxl s0 p.1) : SameCxl s0 s := by
  subst e; exact h

theorem SameCxl.put {s0 s : State} {tmu sqs slc pgm tir cmp car mdl fab wei hif sec hlt stw sup status counters mem free pending}
    (h : SameCxl s0 s) (hi : (hif.x0, hif.x1) = (s.hif.x0, s.hif.x1)) :
    SameCxl s0 ⟨tmu, sqs, slc, pgm, tir, cmp, car, mdl, fab, wei, hif, sec, hlt, stw, sup, status, counters, mem, free,
      pending⟩ := hi.trans h

end Sys2Proof.Safety

namespace Sys2Proof.Machine

open Sys2Proof.Safety

theorem setStatus_sameCxl {s0 s : State} (a) (w) (h : SameCxl s0 s) : SameCxl s0 (setStatus a w s) := by
  unfold setStatus
  try dsimp only
  exact SameCxl.put (by assumption) rfl

theorem msix_sameCxl {s0 s : State} (v) (h : SameCxl s0 s) : SameCxl s0 (msix v s) := by
  unfold msix
  try dsimp only
  exact SameCxl.put (by assumption) rfl

theorem raiseAt_sameCxl {s0 s : State} (a) (bit) (h : SameCxl s0 s) : SameCxl s0 (raiseAt a bit s) := by
  unfold raiseAt
  try dsimp only
  split
  · exact setStatus_sameCxl _ _ (by assumption)
  · exact msix_sameCxl _ (setStatus_sameCxl _ _ (by assumption))

theorem raise_sameCxl {s0 s : State} (e_) (h : SameCxl s0 s) : SameCxl s0 (raise e_ s) := by
  unfold raise
  try dsimp only
  exact raiseAt_sameCxl _ _ (by assumption)

theorem counterEvent_sameCxl {s0 s : State} (sat) (block) (offset)
    (h : SameCxl s0 s) : SameCxl s0 (counterEvent sat block offset s) := by
  unfold counterEvent
  try dsimp only
  split
  · exact SameCxl.put (by assumption) rfl
  · exact raise_sameCxl _ (SameCxl.put (by assumption) rfl)

theorem bump_sameCxl {s0 s : State} (a n) (h : SameCxl s0 s) : SameCxl s0 (bump a n s) := by
  unfold bump
  dsimp only
  split
  · exact h
  · split
    · exact h
    · exact counterEvent_sameCxl _ _ _ h

theorem setRing_sameCxl {s0 s : State} (r) (g) (h : SameCxl s0 s) : SameCxl s0 (setRing r g s) := by
  unfold setRing
  try dsimp only
  exact SameCxl.put (by assumption) rfl

theorem writeMem_sameCxl {s0 s : State} (a bs) (h : SameCxl s0 s) : SameCxl s0 (writeMem a bs s) := h

theorem postEntry_sameCxl {s0 s : State} (r) (mk) (h : SameCxl s0 s) : SameCxl s0 (postEntry r mk s) := by
  unfold postEntry
  try dsimp only
  exact msix_sameCxl _ (setRing_sameCxl _ _ (writeMem_sameCxl _ _ (by assumption)))

theorem complete_sameCxl {s0 s : State} (t) (status) (cause) (reason) (r0) (r1)
    (h : SameCxl s0 s) : SameCxl s0 (complete t status cause reason r0 r1 s) := by
  unfold complete
  try dsimp only
  split
  · assumption
  · split
    · exact setRing_sameCxl _ _ (by assumption)
    · exact postEntry_sameCxl _ _ (setRing_sameCxl _ _ (by assumption))

theorem done_sameCxl {s0 s : State} (t) (h : SameCxl s0 s) : SameCxl s0 (done t s) := by
  unfold done
  try dsimp only
  exact complete_sameCxl _ _ _ _ _ _ (by assumption)

theorem doneWith_sameCxl {s0 s : State} (t) (r0) (r1) (h : SameCxl s0 s) : SameCxl s0 (doneWith t r0 r1 s) := by
  unfold doneWith
  try dsimp only
  exact complete_sameCxl _ _ _ _ _ _ (by assumption)

theorem rotate_sameCxl {s0 s : State} (die) (h : SameCxl s0 s) : SameCxl s0 (rotate die s).2.2 := by
  unfold rotate
  try dsimp only
  exact SameCxl.put (by assumption) rfl

theorem setQueue_sameCxl {s0 s : State} (q) (w) (h : SameCxl s0 s) : SameCxl s0 (setQueue q w s) := by
  unfold setQueue
  try dsimp only
  exact SameCxl.put (by assumption) rfl

theorem setActive_sameCxl {s0 s : State} (p) (l) (h : SameCxl s0 s) : SameCxl s0 (setActive p l s) := by
  unfold setActive
  try dsimp only
  exact SameCxl.put (by assumption) rfl

theorem joinActive_sameCxl {s0 s : State} (q) (p) (h : SameCxl s0 s) : SameCxl s0 (joinActive q p s) := by
  unfold joinActive
  try dsimp only
  split
  · assumption
  · exact setActive_sameCxl _ _ (setQueue_sameCxl _ _ (by assumption))

theorem joinAll_sameCxl {s0 s : State} (q) (h : SameCxl s0 s) : SameCxl s0 (joinAll q s) := by
  unfold joinAll
  try dsimp only
  refine SameCxl.foldl (fun _ _ _ => ?_) ?_
  · exact joinActive_sameCxl _ _ (by assumption)
  · assumption

theorem leaveAll_sameCxl {s0 s : State} (q) (h : SameCxl s0 s) : SameCxl s0 (leaveAll q s) := by
  unfold leaveAll
  try dsimp only
  refine SameCxl.foldl (fun _ _ _ => ?_) ?_
  · exact setActive_sameCxl _ _ (by assumption)
  · assumption

theorem testQueue_sameCxl {s0 s : State} (q) (h : SameCxl s0 s) : SameCxl s0 (testQueue q s) := by
  unfold testQueue
  try dsimp only
  split
  · exact joinAll_sameCxl _ (setQueue_sameCxl _ _ (by assumption))
  · exact leaveAll_sameCxl _ (setQueue_sameCxl _ _ (by assumption))

theorem enqueue_sameCxl {s0 s : State} (q) (p) (f) (h : SameCxl s0 s) : SameCxl s0 (enqueue q p f s) := by
  unfold enqueue
  try dsimp only
  split
  · exact setQueue_sameCxl _ _ (by assumption)
  · split
    · exact testQueue_sameCxl _ (setQueue_sameCxl _ _ (by assumption))
    · split
      · split
        · exact joinActive_sameCxl _ _ (setQueue_sameCxl _ _ (by assumption))
        · exact setQueue_sameCxl _ _ (by assumption)
      · split
        · exact joinActive_sameCxl _ _ (setQueue_sameCxl _ _ (by assumption))
        · exact setQueue_sameCxl _ _ (by assumption)

theorem queuePacket_sameCxl {s0 s : State} (m) (i) (flags) (h : SameCxl s0 s) : SameCxl s0 (queuePacket m i flags s) := by
  unfold queuePacket
  try dsimp only
  exact enqueue_sameCxl _ _ _ (rotate_sameCxl _ (by assumption))

theorem startMsg_sameCxl {s0 s : State} (m) (h : SameCxl s0 s) : SameCxl s0 (startMsg m s) := by
  unfold startMsg
  try dsimp only
  refine SameCxl.foldl (fun _ _ _ => ?_) ?_
  · exact queuePacket_sameCxl _ _ _ (by assumption)
  · exact SameCxl.put (by assumption) rfl

theorem submitMsg_sameCxl {s0 s : State} (m) (h : SameCxl s0 s) : SameCxl s0 (submitMsg m s) := by
  unfold submitMsg
  try dsimp only
  split
  · exact startMsg_sameCxl _ (by assumption)
  · exact SameCxl.put (by assumption) rfl

theorem malformed_sameCxl {s0 s : State} (t) (h : SameCxl s0 s) : SameCxl s0 (malformed t s) := by
  unfold malformed
  try dsimp only
  exact complete_sameCxl _ _ _ _ _ _ (by assumption)

theorem queueDisabled_sameCxl {s0 s : State} (t) (h : SameCxl s0 s) : SameCxl s0 (queueDisabled t s) := by
  unfold queueDisabled
  try dsimp only
  exact complete_sameCxl _ _ _ _ _ _ (by assumption)

theorem reasonWith_sameCxl {s0 s : State} (t) (reason) (h : SameCxl s0 s) : SameCxl s0 (reasonWith t reason s) := by
  unfold reasonWith
  try dsimp only
  exact complete_sameCxl _ _ _ _ _ _ (by assumption)

theorem refusedWith_sameCxl {s0 s : State} (t) (cause) (h : SameCxl s0 s) : SameCxl s0 (refusedWith t cause s) := by
  unfold refusedWith
  try dsimp only
  exact complete_sameCxl _ _ _ _ _ _ (by assumption)

theorem takeSeq_sameCxl {s0 s : State} (dest) (h : SameCxl s0 s) : SameCxl s0 (takeSeq dest s).2 := by
  unfold takeSeq
  try dsimp only
  exact SameCxl.put (by assumption) rfl

theorem ringWrite_sameCxl {s0 s : State} (base) (cap) (u) (bs) (h : SameCxl s0 s) : SameCxl s0 (ringWrite base cap u bs s) := by
  unfold ringWrite
  try dsimp only
  exact writeMem_sameCxl _ _ (writeMem_sameCxl _ _ (by assumption))

theorem putRecord_sameCxl {s0 s : State} (kind) (flags) (step) (action) (tenant) (source) (sseq) (body)
    (h : SameCxl s0 s) : SameCxl s0 (putRecord kind flags step action tenant source sseq body s).2 := by
  unfold putRecord
  try dsimp only
  exact SameCxl.put (ringWrite_sameCxl _ _ _ _ (by assumption)) rfl

theorem putJournal_sameCxl {s0 s : State} (kind) (flags) (step) (action) (tenant) (source) (sseq) (body)
    (h : SameCxl s0 s) : SameCxl s0 (putJournal kind flags step action tenant source sseq body s) := by
  unfold putJournal
  try dsimp only
  split
  · exact putRecord_sameCxl _ _ _ _ _ _ _ _ (by assumption)
  · exact putRecord_sameCxl _ _ _ _ _ _ _ _ (raise_sameCxl _ (bump_sameCxl _ _ (putRecord_sameCxl _ _ _ _ _ _ _ _
      (by assumption))))

theorem journal_sameCxl {s0 s : State} (kind) (action) (tenant) (source) (sseq) (body)
    (h : SameCxl s0 s) : SameCxl s0 (journal kind action tenant source sseq body s) := by
  unfold journal
  try dsimp only
  split
  · refine SameCxl.foldl (fun _ _ _ => ?_) ?_
    · exact putJournal_sameCxl _ _ _ _ _ _ _ _ (by assumption)
    · assumption
  · assumption

theorem applySetQueue_sameCxl {s0 s : State} (q) (enable) (quantum) (rate)
    (h : SameCxl s0 s) : SameCxl s0 (applySetQueue q enable quantum rate s) := by
  unfold applySetQueue
  try dsimp only
  split
  · exact testQueue_sameCxl _ (setQueue_sameCxl _ _ (by assumption))
  · exact leaveAll_sameCxl _ (testQueue_sameCxl _ (setQueue_sameCxl _ _ (by assumption)))

theorem weirResult_sameCxl {s0 s : State} (cmd) (cause) (object) (h : SameCxl s0 s) : SameCxl s0 (weirResult cmd cause object s) := by
  unfold weirResult
  try dsimp only
  exact SameCxl.put (by assumption) rfl

theorem weirRefuse_sameCxl {s0 s : State} (t) (cmd) (cause) (object)
    (h : SameCxl s0 s) : SameCxl s0 (weirRefuse t cmd cause object s) := by
  unfold weirRefuse
  try dsimp only
  exact refusedWith_sameCxl _ _ (raise_sameCxl _ (weirResult_sameCxl _ _ _ (by assumption)))

theorem doSetPolicer_sameCxl {s0 s : State} (t) (d) (enable) (rate) (burst)
    (h : SameCxl s0 s) : SameCxl s0 (doSetPolicer t d enable rate burst s) := by
  unfold doSetPolicer
  try dsimp only
  split
  · exact weirRefuse_sameCxl _ _ _ _ (by assumption)
  · split
    · exact weirRefuse_sameCxl _ _ _ _ (by assumption)
    · exact done_sameCxl _ (weirResult_sameCxl _ _ _ (SameCxl.put (by assumption) rfl))

theorem doSetQueue_sameCxl {s0 s : State} (t) (q) (enable) (quantum) (rate)
    (h : SameCxl s0 s) : SameCxl s0 (doSetQueue t q enable quantum rate s) := by
  unfold doSetQueue
  try dsimp only
  split
  · exact weirRefuse_sameCxl _ _ _ _ (by assumption)
  · split
    · exact weirRefuse_sameCxl _ _ _ _ (by assumption)
    · exact done_sameCxl _ (weirResult_sameCxl _ _ _ (applySetQueue_sameCxl _ _ _ _ (by assumption)))

theorem addFault_sameCxl {s0 s : State} (f) (h : SameCxl s0 s) : SameCxl s0 (addFault f s) := by
  unfold addFault
  try dsimp only
  split
  · assumption
  · exact SameCxl.put (by assumption) rfl

theorem setWindow_sameCxl {s0 s : State} (w) (r) (h : SameCxl s0 s) : SameCxl s0 (setWindow w r s) := by
  unfold setWindow
  try dsimp only
  exact SameCxl.put (by assumption) rfl

theorem beginRevoke_sameCxl {s0 s : State} (w) (t) (reopen) (h : SameCxl s0 s) : SameCxl s0 (beginRevoke w t reopen s) := by
  unfold beginRevoke
  try dsimp only
  exact setWindow_sameCxl _ _ (by assumption)

theorem openedResult_sameCxl {s0 s : State} (t) (w) (h : SameCxl s0 s) : SameCxl s0 (openedResult t w s) := by
  unfold openedResult
  try dsimp only
  exact doneWith_sameCxl _ _ _ (by assumption)

theorem openAs_sameCxl {s0 s : State} (w) (d) (o) (h : SameCxl s0 s) : SameCxl s0 (openAs w d o s) := by
  unfold openAs
  try dsimp only
  exact setWindow_sameCxl _ _ (by assumption)

theorem doOpenWindow_sameCxl {s0 s : State} (t) (d) (o) (h : SameCxl s0 s) : SameCxl s0 (doOpenWindow t d o s) := by
  unfold doOpenWindow
  try dsimp only
  split
  · exact reasonWith_sameCxl _ _ (by assumption)
  · split
    · exact refusedWith_sameCxl _ _ (by assumption)
    · split
      · exact refusedWith_sameCxl _ _ (by assumption)
      · exact openedResult_sameCxl _ _ (openAs_sameCxl _ _ _ (by assumption))

theorem doReopenWindow_sameCxl {s0 s : State} (t) (d) (w) (o) (h : SameCxl s0 s) : SameCxl s0 (doReopenWindow t d w o s) := by
  unfold doReopenWindow
  try dsimp only
  split
  · exact refusedWith_sameCxl _ _ (by assumption)
  · split
    · exact refusedWith_sameCxl _ _ (by assumption)
    · split
      · exact refusedWith_sameCxl _ _ (by assumption)
      · split
        · exact refusedWith_sameCxl _ _ (by assumption)
        · split
          · exact beginRevoke_sameCxl _ _ _ (by assumption)
          · exact setWindow_sameCxl _ _ (by assumption)

theorem doRevokeWindow_sameCxl {s0 s : State} (t) (d) (w) (h : SameCxl s0 s) : SameCxl s0 (doRevokeWindow t d w s) := by
  unfold doRevokeWindow
  try dsimp only
  split
  · exact refusedWith_sameCxl _ _ (by assumption)
  · split
    · exact done_sameCxl _ (by assumption)
    · split
      · exact refusedWith_sameCxl _ _ (by assumption)
      · split
        · exact refusedWith_sameCxl _ _ (by assumption)
        · exact beginRevoke_sameCxl _ _ _ (by assumption)

theorem dropFault_sameCxl {s0 s : State} (f) (h : SameCxl s0 s) : SameCxl s0 (dropFault f s) := by
  unfold dropFault
  try dsimp only
  exact SameCxl.put (by assumption) rfl

theorem addWait_sameCxl {s0 s : State} (p) (h : SameCxl s0 s) : SameCxl s0 (addWait p s) := by
  unfold addWait
  try dsimp only
  exact SameCxl.put (by assumption) rfl

theorem noteFirst_sameCxl {s0 s : State} (source) (sseq) (h : SameCxl s0 s) : SameCxl s0 (noteFirst source sseq s) := by
  unfold noteFirst
  try dsimp only
  split
  · assumption
  · exact SameCxl.put (by assumption) rfl

theorem logEvent_sameCxl {s0 s : State} (code digest) (h : SameCxl s0 s) : SameCxl s0 (logEvent code digest s) := h

theorem doCommitSvn_sameCxl {s0 s : State} (t) (h : SameCxl s0 s) : SameCxl s0 (doCommitSvn t s) := by
  unfold doCommitSvn
  split
  · exact done_sameCxl _ (logEvent_sameCxl _ _ (SameCxl.put h rfl))
  · exact refusedWith_sameCxl _ _ h

theorem doStageImage_sameCxl {s0 s : State} (t) (h_) (bytes) (h : SameCxl s0 s) : SameCxl s0 (doStageImage t h_ bytes s) := by
  unfold doStageImage
  try dsimp only
  split
  · exact refusedWith_sameCxl _ _ (by assumption)
  · exact SameCxl.put (by assumption) rfl

theorem tableResult_sameCxl {s0 s : State} (cmd) (cause) (entry) (h : SameCxl s0 s) : SameCxl s0 (tableResult cmd cause entry s) := by
  unfold tableResult
  try dsimp only
  exact SameCxl.put (by assumption) rfl

theorem doCompose_sameCxl {s0 s : State} (t) (bs) (h : SameCxl s0 s) : SameCxl s0 (doCompose t bs s) := by
  unfold doCompose
  try dsimp only
  split
  · exact refusedWith_sameCxl _ _ (SameCxl.put (by assumption) rfl)
  · exact done_sameCxl _ (SameCxl.put (by assumption) rfl)

theorem doBuildTable_sameCxl {s0 s : State} (t) (h_) (layout) (source) (length)
    (h : SameCxl s0 s) : SameCxl s0 (doBuildTable t h_ layout source length s) := by
  unfold doBuildTable
  try dsimp only
  split
  · exact refusedWith_sameCxl _ _ (tableResult_sameCxl _ _ _ (by assumption))
  · exact SameCxl.put (by assumption) rfl

theorem doRemote_sameCxl {s0 s : State} (t) (h_) (op) (o) (h : SameCxl s0 s) : SameCxl s0 (doRemote t h_ op o s) := by
  unfold doRemote
  try dsimp only
  split
  · exact refusedWith_sameCxl _ _ (by assumption)
  · split
    · exact queueDisabled_sameCxl _ (by assumption)
    · split
      · assumption
      · exact submitMsg_sameCxl _ (takeSeq_sameCxl _ (by assumption))

theorem doTaken_sameCxl {s0 s : State} (p) (t) (op) (body) (h : SameCxl s0 s) : SameCxl s0 (doTaken p t op body s) := by
  unfold doTaken
  try dsimp only
  split
  · exact doCompose_sameCxl _ _ (journal_sameCxl _ _ _ _ _ _ (by assumption))
  · exact doBuildTable_sameCxl _ _ _ _ _ (journal_sameCxl _ _ _ _ _ _ (by assumption))
  · exact doOpenWindow_sameCxl _ _ _ (journal_sameCxl _ _ _ _ _ _ (by assumption))
  · exact doReopenWindow_sameCxl _ _ _ _ (journal_sameCxl _ _ _ _ _ _ (by assumption))
  · exact doRevokeWindow_sameCxl _ _ _ (journal_sameCxl _ _ _ _ _ _ (by assumption))
  · exact doSetQueue_sameCxl _ _ _ _ _ (journal_sameCxl _ _ _ _ _ _ (by assumption))
  · exact doSetPolicer_sameCxl _ _ _ _ _ (journal_sameCxl _ _ _ _ _ _ (by assumption))
  · exact doRemote_sameCxl _ _ _ _ (journal_sameCxl _ _ _ _ _ _ (by assumption))
  · exact doRemote_sameCxl _ _ _ _ (journal_sameCxl _ _ _ _ _ _ (by assumption))
  · exact doRemote_sameCxl _ _ _ _ (journal_sameCxl _ _ _ _ _ _ (by assumption))
  · exact doStageImage_sameCxl _ _ _ (journal_sameCxl _ _ _ _ _ _ (by assumption))
  · exact doCommitSvn_sameCxl _ (journal_sameCxl _ _ _ _ _ _ (by assumption))
  · exact journal_sameCxl _ _ _ _ _ _ (by assumption)

theorem giveSlotBack_sameCxl {s0 s : State} (r) (h : SameCxl s0 s) : SameCxl s0 (giveSlotBack r s) := by
  unfold giveSlotBack
  try dsimp only
  exact setRing_sameCxl _ _ (by assumption)

theorem takeCommand_sameCxl {s0 s : State} (r) (bs) (op) (h_) (t) (sseq)
    (h : SameCxl s0 s) : SameCxl s0 (takeCommand r bs op h_ t sseq s) := by
  unfold takeCommand
  try dsimp only
  split
  · split
    · exact addWait_sameCxl _ (noteFirst_sameCxl _ _ (by assumption))
    · exact giveSlotBack_sameCxl _ (noteFirst_sameCxl _ _ (by assumption))
  · split
    · exact addWait_sameCxl _ (noteFirst_sameCxl _ _ (by assumption))
    · exact addWait_sameCxl _ (noteFirst_sameCxl _ _ (by assumption))
    · split
      · exact addWait_sameCxl _ (noteFirst_sameCxl _ _ (by assumption))
      · exact doTaken_sameCxl _ _ _ _ (noteFirst_sameCxl _ _ (by assumption))

theorem takeEntry_sameCxl {s0 s : State} (r) (opened) (h : SameCxl s0 s) : SameCxl s0 (takeEntry r opened s) := by
  unfold takeEntry
  try dsimp only
  split
  · exact reasonWith_sameCxl _ _ (setRing_sameCxl _ _ (by assumption))
  · split
    · exact malformed_sameCxl _ (setRing_sameCxl _ _ (by assumption))
    · split
      · exact takeCommand_sameCxl _ _ _ _ _ _ (setRing_sameCxl _ _ (by assumption))
      · exact malformed_sameCxl _ (setRing_sameCxl _ _ (by assumption))

theorem serveRing_sameCxl {s0 x3 : State} (r) (opened) (x2) (h : SameCxl s0 x3) : SameCxl s0 (serveRing r opened x2 x3) := by
  induction x2 generalizing opened x3 with
  | zero => exact h
  | succ n ih =>
    unfold serveRing
    split
    · exact ih _ (takeEntry_sameCxl _ _ h)
    · exact h

theorem serveTurns_sameCxl {s0 x1 : State} (x0) (h : SameCxl s0 x1) : SameCxl s0 (serveTurns x0 x1) := by
  induction x0 generalizing x1 with
  | zero =>
    unfold serveTurns
    try dsimp only
    assumption
  | succ n ih =>
    unfold serveTurns
    try dsimp only
    split
    · apply ih
      refine SameCxl.foldl (fun _ _ _ => ?_) ?_
      · exact serveRing_sameCxl _ _ _ (by assumption)
      · assumption
    · assumption

theorem serveRings_sameCxl {s0 s : State} (h : SameCxl s0 s) : SameCxl s0 (serveRings s) := by
  unfold serveRings
  try dsimp only
  exact serveTurns_sameCxl _ (by assumption)

theorem cxlFault_sameCxl {s0 s : State} (h : SameCxl s0 s) : SameCxl s0 (cxlFault s) := by
  unfold cxlFault
  try dsimp only
  split
  · exact dropFault_sameCxl _ (by assumption)
  · exact addFault_sameCxl _ (by assumption)

end Sys2Proof.Machine
end

