-- ==== Sys2Proof/Laws/Digests.lean ====
section
/-! SUPPORT. Journalling, queuing and completing leave the digests of what was sent alone (R331).
`f_sameOut`: if `s` has them as `s0`, so has what `f` makes of `s`. -/

namespace Sys2Proof.Safety

open Sys2Proof.Machine

/-- Two states have sent the same messages in the step, as their digests tell (R331). -/
def SameOut (s0 s : State) : Prop := s.hlt.digestOut = s0.hlt.digestOut

theorem SameOut.refl (s : State) : SameOut s s := rfl

theorem SameOut.foldl {α : Type} {f : State → α → State} {s0 s : State} {l : List α}
    (hf : ∀ s a, SameOut s0 s → SameOut s0 (f s a)) (h : SameOut s0 s) : SameOut s0 (l.foldl f s) := by
  induction l generalizing s with
  | nil => exact h
  | cons a t ih => exact ih (hf s a h)

theorem SameOut.foldl_fst {α β : Type} {f : State × β → α → State × β} {s0 : State} {p : State × β} {l : List α}
    (hf : ∀ p a, SameOut s0 p.1 → SameOut s0 (f p a).1) (h : SameOut s0 p.1) : SameOut s0 (l.foldl f p).1 := by
  induction l generalizing p with
  | nil => exact h
  | cons a t ih => exact ih (hf p a h)

theorem SameOut.foldl_snd {α β : Type} {f : β × State → α → β × State} {s0 : State} {p : β × State} {l : List α}
    (hf : ∀ p a, SameOut s0 p.2 → SameOut s0 (f p a).2) (h : SameOut s0 p.2) : SameOut s0 (l.foldl f p).2 := by
  induction l generalizing p with
  | nil => exact h
  | cons a t ih => exact ih (hf p a h)

theorem SameOut.of_snd {α : Type} {s0 s : State} {p : α × State} {a : α} (e : p = (a, s)) (h : SameOut s0 p.2) : SameOut s0 s := by
  subst e; exact h

theorem SameOut.of_snd2 {α β : Type} {s0 s : State} {p : α × β × State} {a : α} {b : β} (e : p = (a, b, s))
    (h : SameOut s0 p.2.2) : SameOut s0 s := by
  subst e; exact h

theorem SameOut.of_fst {α : Type} {s0 s : State} {p : State × α} {a : α} (e : p = (s, a)) (h : SameOut s0 p.1) : SameOut s0 s := by
  subst e; exact h

theorem SameOut.put {s0 s : State} {tmu sqs slc pgm tir cmp car mdl fab wei hif sec hlt stw sup status counters mem free pending}
    (h : SameOut s0 s) (hi : hlt.digestOut = s.hlt.digestOut) :
    SameOut s0 ⟨tmu, sqs, slc, pgm, tir, cmp, car, mdl, fab, wei, hif, sec, hlt, stw, sup, status, counters, mem, free,
      pending⟩ := hi.trans h

end Sys2Proof.Safety

namespace Sys2Proof.Machine

open Sys2Proof.Safety

theorem msix_sameOut {s0 s : State} (v) (h : SameOut s0 s) : SameOut s0 (msix v s) := by
  unfold msix
  try dsimp only
  exact SameOut.put (by assumption) rfl

theorem raise_sameOut {s0 s : State} (e_) (h : SameOut s0 s) : SameOut s0 (raise e_ s) := by
  unfold SameOut at *
  rw [raise_hlt]; exact h

theorem counterEvent_sameOut {s0 s : State} (sat) (block) (offset)
    (h : SameOut s0 s) : SameOut s0 (counterEvent sat block offset s) := by
  unfold counterEvent
  try dsimp only
  split
  · exact SameOut.put (by assumption) rfl
  · exact raise_sameOut _ (SameOut.put (by assumption) rfl)

theorem bump_sameOut {s0 s : State} (a n) (h : SameOut s0 s) : SameOut s0 (bump a n s) := by
  unfold bump
  dsimp only
  split
  · exact h
  · split
    · exact h
    · exact counterEvent_sameOut _ _ _ h

theorem raiseIf_sameOut {s0 s : State} (b) (e_) (h : SameOut s0 s) : SameOut s0 (raiseIf b e_ s) := by
  unfold raiseIf
  try dsimp only
  split
  · exact raise_sameOut _ (by assumption)
  · assumption

theorem setRing_sameOut {s0 s : State} (r) (g) (h : SameOut s0 s) : SameOut s0 (setRing r g s) := by
  unfold setRing
  try dsimp only
  exact SameOut.put (by assumption) rfl

theorem writeMem_sameOut {s0 s : State} (a bs) (h : SameOut s0 s) : SameOut s0 (writeMem a bs s) := h

theorem postEntry_sameOut {s0 s : State} (r) (mk) (h : SameOut s0 s) : SameOut s0 (postEntry r mk s) := by
  unfold postEntry
  try dsimp only
  exact msix_sameOut _ (setRing_sameOut _ _ (writeMem_sameOut _ _ (by assumption)))

theorem complete_sameOut {s0 s : State} (t) (status) (cause) (reason) (r0) (r1)
    (h : SameOut s0 s) : SameOut s0 (complete t status cause reason r0 r1 s) := by
  unfold complete
  try dsimp only
  split
  · assumption
  · split
    · exact setRing_sameOut _ _ (by assumption)
    · exact postEntry_sameOut _ _ (setRing_sameOut _ _ (by assumption))

theorem rotate_sameOut {s0 s : State} (die) (h : SameOut s0 s) : SameOut s0 (rotate die s).2.2 := by
  unfold rotate
  try dsimp only
  exact SameOut.put (by assumption) rfl

theorem setQueue_sameOut {s0 s : State} (q) (w) (h : SameOut s0 s) : SameOut s0 (setQueue q w s) := by
  unfold setQueue
  try dsimp only
  exact SameOut.put (by assumption) rfl

theorem setActive_sameOut {s0 s : State} (p) (l) (h : SameOut s0 s) : SameOut s0 (setActive p l s) := by
  unfold setActive
  try dsimp only
  exact SameOut.put (by assumption) rfl

theorem joinActive_sameOut {s0 s : State} (q) (p) (h : SameOut s0 s) : SameOut s0 (joinActive q p s) := by
  unfold joinActive
  try dsimp only
  split
  · assumption
  · exact setActive_sameOut _ _ (setQueue_sameOut _ _ (by assumption))

theorem joinAll_sameOut {s0 s : State} (q) (h : SameOut s0 s) : SameOut s0 (joinAll q s) := by
  unfold joinAll
  try dsimp only
  refine SameOut.foldl (fun _ _ _ => ?_) ?_
  · exact joinActive_sameOut _ _ (by assumption)
  · assumption

theorem leaveAll_sameOut {s0 s : State} (q) (h : SameOut s0 s) : SameOut s0 (leaveAll q s) := by
  unfold leaveAll
  try dsimp only
  refine SameOut.foldl (fun _ _ _ => ?_) ?_
  · exact setActive_sameOut _ _ (by assumption)
  · assumption

theorem testQueue_sameOut {s0 s : State} (q) (h : SameOut s0 s) : SameOut s0 (testQueue q s) := by
  unfold testQueue
  try dsimp only
  split
  · exact joinAll_sameOut _ (setQueue_sameOut _ _ (by assumption))
  · exact leaveAll_sameOut _ (setQueue_sameOut _ _ (by assumption))

theorem enqueue_sameOut {s0 s : State} (q) (p) (f) (h : SameOut s0 s) : SameOut s0 (enqueue q p f s) := by
  unfold enqueue
  try dsimp only
  split
  · exact setQueue_sameOut _ _ (by assumption)
  · split
    · exact testQueue_sameOut _ (setQueue_sameOut _ _ (by assumption))
    · split
      · split
        · exact joinActive_sameOut _ _ (setQueue_sameOut _ _ (by assumption))
        · exact setQueue_sameOut _ _ (by assumption)
      · split
        · exact joinActive_sameOut _ _ (setQueue_sameOut _ _ (by assumption))
        · exact setQueue_sameOut _ _ (by assumption)

theorem queuePacket_sameOut {s0 s : State} (m) (i) (flags) (h : SameOut s0 s) : SameOut s0 (queuePacket m i flags s) := by
  unfold queuePacket
  try dsimp only
  exact enqueue_sameOut _ _ _ (rotate_sameOut _ (by assumption))

theorem startMsg_sameOut {s0 s : State} (m) (h : SameOut s0 s) : SameOut s0 (startMsg m s) := by
  unfold startMsg
  try dsimp only
  refine SameOut.foldl (fun _ _ _ => ?_) ?_
  · exact queuePacket_sameOut _ _ _ (by assumption)
  · exact SameOut.put (by assumption) rfl

theorem submitMsg_sameOut {s0 s : State} (m) (h : SameOut s0 s) : SameOut s0 (submitMsg m s) := by
  unfold submitMsg
  try dsimp only
  split
  · exact startMsg_sameOut _ (by assumption)
  · exact SameOut.put (by assumption) rfl

theorem takeSeq_sameOut {s0 s : State} (dest) (h : SameOut s0 s) : SameOut s0 (takeSeq dest s).2 := by
  unfold takeSeq
  try dsimp only
  exact SameOut.put (by assumption) rfl

theorem setNow_sameOut {s0 s : State} (t) (h : SameOut s0 s) : SameOut s0 (setNow t s) := by
  unfold setNow
  try dsimp only
  exact SameOut.put (by assumption) rfl

theorem takeSseq_sameOut {s0 s : State} (h : SameOut s0 s) : SameOut s0 (takeSseq s).2 := by
  unfold takeSseq
  try dsimp only
  exact SameOut.put (by assumption) rfl

theorem ringWrite_sameOut {s0 s : State} (base) (cap) (u) (bs) (h : SameOut s0 s) : SameOut s0 (ringWrite base cap u bs s) := by
  unfold ringWrite
  try dsimp only
  exact writeMem_sameOut _ _ (writeMem_sameOut _ _ (by assumption))

theorem putRecord_sameOut {s0 s : State} (kind) (flags) (step) (action) (tenant) (source) (sseq) (body)
    (h : SameOut s0 s) : SameOut s0 (putRecord kind flags step action tenant source sseq body s).2 := by
  unfold putRecord
  try dsimp only
  exact SameOut.put (ringWrite_sameOut _ _ _ _ (by assumption)) rfl

theorem putJournal_sameOut {s0 s : State} (kind) (flags) (step) (action) (tenant) (source) (sseq) (body)
    (h : SameOut s0 s) : SameOut s0 (putJournal kind flags step action tenant source sseq body s) := by
  unfold putJournal
  try dsimp only
  split
  · exact putRecord_sameOut _ _ _ _ _ _ _ _ (by assumption)
  · exact putRecord_sameOut _ _ _ _ _ _ _ _ (raise_sameOut _ (bump_sameOut _ _ (putRecord_sameOut _ _ _ _ _ _ _ _
      (by assumption))))

theorem journal_sameOut {s0 s : State} (kind) (action) (tenant) (source) (sseq) (body)
    (h : SameOut s0 s) : SameOut s0 (journal kind action tenant source sseq body s) := by
  unfold journal
  try dsimp only
  split
  · refine SameOut.foldl (fun _ _ _ => ?_) ?_
    · exact putJournal_sameOut _ _ _ _ _ _ _ _ (by assumption)
    · assumption
  · assumption

theorem dispositionAt_sameOut {s0 s : State} (action) (code) (handle) (layer) (amount)
    (h : SameOut s0 s) : SameOut s0 (dispositionAt action code handle layer amount s) := by
  unfold dispositionAt
  try dsimp only
  exact journal_sameOut _ _ _ _ _ _ (by assumption)

theorem disposition_sameOut {s0 s : State} (code) (handle) (layer) (amount)
    (h : SameOut s0 s) : SameOut s0 (disposition code handle layer amount s) := by
  unfold disposition
  try dsimp only
  exact dispositionAt_sameOut _ _ _ _ _ (by assumption)

theorem updDesc_sameOut {s0 s : State} (i) (f) (h : SameOut s0 s) : SameOut s0 (updDesc i f s) := by
  unfold updDesc
  try dsimp only
  exact SameOut.put (by assumption) rfl

theorem updSeq_sameOut {s0 s : State} (slot) (f) (h : SameOut s0 s) : SameOut s0 (updSeq slot f s) := by
  unfold updSeq
  try dsimp only
  exact SameOut.put (by assumption) rfl

theorem journalMsg_sameOut {s0 s : State} (action) (tenant) (source) (sseq) (bytes)
    (h : SameOut s0 s) : SameOut s0 (journalMsg action tenant source sseq bytes s) := by
  unfold journalMsg
  try dsimp only
  split
  · split
    · exact journal_sameOut _ _ _ _ _ _ (SameOut.put (by assumption) rfl)
    · exact SameOut.put (by assumption) rfl
  · exact journal_sameOut _ _ _ _ _ _ (SameOut.put (by assumption) rfl)

theorem noteFirst_sameOut {s0 s : State} (source) (sseq) (h : SameOut s0 s) : SameOut s0 (noteFirst source sseq s) := by
  unfold noteFirst
  try dsimp only
  split
  · assumption
  · exact SameOut.put (by assumption) rfl

theorem consumeNow_sameOut {s0 s : State} (tenant) (source) (sseq) (bytes)
    (h : SameOut s0 s) : SameOut s0 (consumeNow tenant source sseq bytes s) := by
  unfold consumeNow
  try dsimp only
  exact journalMsg_sameOut _ _ _ _ _ (noteFirst_sameOut _ _ (by assumption))

theorem consumeUnnumbered_sameOut {s0 s : State} (tenant) (source) (bytes)
    (h : SameOut s0 s) : SameOut s0 (consumeUnnumbered tenant source bytes s) := by
  unfold consumeUnnumbered
  try dsimp only
  exact journalMsg_sameOut _ _ _ _ _ (by assumption)

theorem setCoding_sameOut {s0 s : State} (i) (c) (h : SameOut s0 s) : SameOut s0 (setCoding i c s) := by
  unfold setCoding
  try dsimp only
  exact SameOut.put (by assumption) rfl

theorem noteReduced_sameOut {s0 s : State} (c) (h : SameOut s0 s) : SameOut s0 (noteReduced c s) := by
  unfold noteReduced
  try dsimp only
  split
  · exact SameOut.put (raiseIf_sameOut _ _ (by assumption)) rfl
  · exact raiseIf_sameOut _ _ (by assumption)

/-! ## What a message sent adds -/

theorem submitMsg_out (m : OutMsg) (s : State) : (submitMsg m s).hlt.digestOut = s.hlt.digestOut :=
  submitMsg_sameOut m (SameOut.refl s)

theorem sendPieces_out (dest dike : Nat) (charged : Bool) (carried : Carried) (sseq : Nat) (pieces : List (List Byte)) (s : State) :
    (sendPieces dest dike charged carried sseq pieces s).hlt.digestOut =
      digestAdd s.hlt.digestOut dest sseq pieces.flatten := by
  unfold sendPieces
  dsimp only
  split
  · rfl
  · exact submitMsg_out _ _

theorem chunksGo_flatten {α : Type} {n : Nat} (hn : 0 < n) (fuel : Nat) (l : List α) (h : l.length ≤ fuel) :
    (chunksGo n fuel l).flatten = l := by
  induction fuel generalizing l with
  | zero => simpa [chunksGo] using h
  | succ k ih =>
    unfold chunksGo
    split
    · rename_i he
      simpa using he
    · rw [List.flatten_cons, ih _ (by rw [List.length_drop]; omega), List.take_append_drop]

theorem chunks_flatten {α : Type} {n : Nat} (hn : 0 < n) (l : List α) : (chunks n l).flatten = l :=
  chunksGo_flatten hn _ _ (le_refl _)

theorem sendMsg_out (dest dike : Nat) (carried : Carried) (sseq : Nat) (bytes : List Byte) (s : State) :
    (sendMsg dest dike carried sseq bytes s).hlt.digestOut = digestAdd s.hlt.digestOut dest sseq bytes := by
  unfold sendMsg
  rw [sendPieces_out, chunks_flatten (by decide)]

theorem sendFrag_out (dest i f : Nat) (h : FragHdr) (s : State) :
    (sendFrag dest i f h s).hlt.digestOut = digestAdd s.hlt.digestOut dest 0 h.whole := by
  unfold sendFrag
  rw [sendPieces_out, chunks_flatten (by decide)]

end Sys2Proof.Machine
end

