-- ==== Sys2Proof/Laws/EffAccounting.lean ====
section
/-! SUPPORT. What the commands of the tallies do (R63, R313, R314). -/

namespace Sys2Proof.Machine

open Sys2Proof.Safety

theorem minuteInstant_multiple (s : State) : minuteInstant s % 60000000000 = 0 := by
  unfold minuteInstant
  dsimp only
  split
  · rename_i h; exact h.1
  · exact Nat.mul_mod_left _ _

theorem minuteInstant_ge (s : State) : s.tmu.now ≤ minuteInstant s := by
  unfold minuteInstant
  dsimp only
  split
  · exact le_refl _
  · have := Nat.div_add_mod s.tmu.now 60000000000
    have := Nat.mod_lt s.tmu.now (show 60000000000 > 0 by decide)
    omega

/-- A wrap event changes nothing of HLT but HLT_COUNTER_LAST. -/
theorem wEvent_hlt (old new block offset : Nat) (s : State) :
    (wEvent old new block offset s).hlt = { s.hlt with counterLast := (wEvent old new block offset s).hlt.counterLast } := by
  unfold wEvent
  split
  · unfold counterEvent
    dsimp only
    split
    · rfl
    · rw [raise_hlt]
  · rfl

theorem measureInput_hlt (s : State) :
    (measureInput s).hlt = { s.hlt with
      inputEnergy := (measureInput s).hlt.inputEnergy, counterLast := (measureInput s).hlt.counterLast } := by
  unfold measureInput
  rw [wEvent_hlt]

theorem minuteBoundary_effect {s : State} (h1 : inService s = true) (h2 : s.stw.charter.replay ≠ 1) :
    Completes .minuteBoundary s fun t =>
      s.tmu.now ≤ t.tmu.now ∧ t.tmu.now % 60000000000 = 0 ∧ t.hlt.minute * 1000000000 = t.tmu.now ∧
      t.hlt.tallySeq = (s.hlt.tallySeq + 1) % 2 ^ 32 ∧ t.hlt.frozen = true ∧
      (∃ recs, t.hlt.writing = some (t.hlt.tallySeq, recs) ∧ recs.length = 256) ∧
      t.hlt.acct = s.hlt.acct.map (fun e => (e.1, { e.2 with leaseChanged := false })) ∧
      (s.hlt.writing = none → t.mem = s.mem) := by
  obtain ⟨n, hn⟩ : ∃ n, n = minuteInstant s := ⟨_, rfl⟩
  have hm := minuteInstant_multiple s
  have hg := minuteInstant_ge s
  rw [← hn] at hm hg
  obtain ⟨v, hv⟩ : ∃ v, v = writeTally (setNow n s) := ⟨_, rfl⟩
  have hvt : v.tmu = { s.tmu with now := n } := by
    subst hv
    rw [(writeTally_only (pts := [.hlt, .mem]) rfl (Only.refl _ (setNow n s))).2 .tmu rfl]
    simp only [setNow_tmu, max_eq_right hg]
  have hvh : v.hlt.tallySeq = s.hlt.tallySeq ∧ v.hlt.acct = s.hlt.acct ∧ (s.hlt.writing = none → v.mem = s.mem) := by
    subst hv
    unfold writeTally
    split <;> simp_all
  obtain ⟨m, hmi⟩ : ∃ m, m = measureInput v := ⟨_, rfl⟩
  have hp := measureInput_only (pts := [.hif, .hlt, .status, .free]) rfl (Only.refl _ v)
  have hmh := measureInput_hlt v
  rw [← hmi] at hp hmh
  have hmt : m.tmu = { s.tmu with now := n } := (hp.2 .tmu rfl).trans hvt
  have hmm : m.mem = v.mem := hp.2 .mem rfl
  refine ⟨freezeTally (setNow n s), ?_, ?_⟩
  · simp only [exec, execMinuteBoundary, h1, if_true, ← hn]
    rw [if_neg]
    exact h2
  · have hf : freezeTally (setNow n s) = { m with hlt := { m.hlt with
        minute := m.tmu.now / 1000000000, tallySeq := (m.hlt.tallySeq + 1) % 2 ^ 32, frozen := true
        writing := some ((m.hlt.tallySeq + 1) % 2 ^ 32, (List.range 256).map (fun d => tallyRecord m d
          (m.tmu.now / 1000000000) ((m.hlt.tallySeq + 1) % 2 ^ 32) (!m.hlt.frozen)))
        acct := m.hlt.acct.map (fun e => (e.1, { e.2 with leaseChanged := false })) } } := by
      subst hmi; subst hv; rfl
    rw [hf]
    have hs : m.hlt.tallySeq = s.hlt.tallySeq := by rw [hmh]; exact hvh.1
    have ha : m.hlt.acct = s.hlt.acct := by rw [hmh]; exact hvh.2.1
    refine ⟨?_, ?_, ?_, ?_, rfl, ⟨_, rfl, ?_⟩, ?_, ?_⟩
    · show _ ≤ m.tmu.now
      rw [hmt]; exact hg
    · show m.tmu.now % _ = 0
      rw [hmt]; exact hm
    · show m.tmu.now / 1000000000 * 1000000000 = m.tmu.now
      rw [hmt]
      show n / 1000000000 * 1000000000 = n
      omega
    · show (m.hlt.tallySeq + 1) % _ = _
      rw [hs]
    · simp
    · show m.hlt.acct.map _ = _
      rw [ha]
    · intro hw
      exact hmm.trans (hvh.2.2 hw)

theorem tallySetWritten_effect {s : State} {seq : Nat} {recs : List (List Byte)} (h : s.hlt.writing = some (seq, recs)) :
    Completes .tallySetWritten s fun t => t = { s with
      mem := memWrite (tallyBase + seq % 64 * 32768) recs.flatten s.mem
      hlt := { s.hlt with writing := none, tally := 2 ^ 25 + seq % 64 * 2 ^ 18 + seq % 2 ^ 18 } } := by
  refine ⟨writeTally s, rfl, ?_⟩
  unfold writeTally
  rw [h]
  rfl

theorem tallyWriteDeadline_effect {s : State} {seq : Nat} {recs : List (List Byte)} (h : s.hlt.writing = some (seq, recs)) :
    Completes .tallyWriteDeadline s fun t =>
      eventBit t .tallyLate = true ∧ s.hlt.minute * 1000000000 + 1000000 ≤ t.tmu.now ∧ t.hlt = s.hlt ∧ t.mem = s.mem := by
  refine ⟨raise .tallyLate (setNow (s.hlt.minute * 1000000000 + 1000000) s), by simp only [exec, execTallyWriteDeadline, h],
    ?_, ?_, ?_, ?_⟩ <;> simp

end Sys2Proof.Machine
end

