-- ==== Sys2Proof/Laws/EffCxl.lean ====
section
/-! SUPPORT. What the commands of the CXL ports do (R358, R367, R391, R412). -/

namespace Sys2Proof.Machine

open Sys2Proof.Safety

theorem cxlOf_same {s t : State} (h : SameCxl s t) (port : Nat) : cxlOf t port = cxlOf s port := by
  unfold SameCxl at h
  simp only [Prod.mk.injEq] at h
  unfold cxlOf
  rw [h.1, h.2]

theorem cxlOf_setCxl (port : Nat) (p : CxlPort) (s : State) : cxlOf (setCxl port p s) port = p := by
  unfold cxlOf setCxl
  split <;> rfl

theorem changeCxl_at (port : Nat) (p : CxlPort) (s : State) : cxlOf (changeCxl port p s) port = p := by
  have h : SameCxl (setCxl port p s) (changeCxl port p s) := by
    unfold changeCxl
    dsimp only
    split
    · exact SameCxl.refl _
    · split
      · exact serveRings_sameCxl (cxlFault_sameCxl (raise_sameCxl _ (SameCxl.refl _)))
      · exact raise_sameCxl _ (SameCxl.refl _)
  rw [cxlOf_same h, cxlOf_setCxl]

theorem changeCxl_event {port : Nat} {p : CxlPort} {s : State} (h : ¬ ((cxlOf s port).rate = p.rate ∧ (cxlOf s port).width = p.width)) :
    eventBit (changeCxl port p s) .cxlPortChanged = true := by
  unfold changeCxl
  dsimp only
  rw [if_neg h]
  split
  · exact (serveRings_grows (cxlFault_grows (Grows.refl _))).bits _ (by simp)
  · simp

theorem perstAssert_effect {port : Nat} {s : State} (h1 : port < 2) :
    Completes (.perstAssert port) s fun t =>
      cxlOf t port = { cxlOf s port with rate := 0, width := 0, perst := true } ∧
      ((cxlOf s port).width ≠ 0 → eventBit t .cxlPortChanged = true) := by
  refine ⟨_, rfl, ?_⟩
  dsimp only
  rw [if_pos h1]
  exact ⟨changeCxl_at _ _ _, fun h => changeCxl_event (by dsimp only; exact fun x => h x.2)⟩

theorem cxlLink_up {port rate width : Nat} {s : State} (h1 : port < 2) (h2 : 2 ≤ s.stw.powerStep)
    (h3 : (cxlOf s port).ideDown = false) (h4 : rate = 1 ∨ rate = 2) (h5 : 0 < width) (h6 : width ≤ 16) :
    Completes (.cxlLinkChange port rate width) s fun t =>
      cxlOf t port = { cxlOf s port with rate := rate, width := width, perst := false } ∧
      ((cxlOf s port).width ≠ width → eventBit t .cxlPortChanged = true) := by
  refine ⟨_, rfl, ?_⟩
  dsimp only
  rw [if_pos (by
    rcases h4 with h4 | h4 <;> simp [h1, h2, h3, h4, h6]), if_neg (by omega)]
  exact ⟨changeCxl_at _ _ _, fun h => changeCxl_event (by dsimp only; exact fun x => h x.2)⟩

theorem cxlLink_down {port rate : Nat} {s : State} (h1 : port < 2) (h2 : 2 ≤ s.stw.powerStep) :
    Completes (.cxlLinkChange port rate 0) s fun t =>
      cxlOf t port = { cxlOf s port with rate := 0, width := 0 } ∧
      ((cxlOf s port).width ≠ 0 → eventBit t .cxlPortChanged = true) := by
  refine ⟨_, rfl, ?_⟩
  dsimp only
  rw [if_pos (by simp [h1, h2]), if_pos rfl]
  exact ⟨changeCxl_at _ _ _, fun h => changeCxl_event (by dsimp only; exact fun x => h x.2)⟩

theorem ideIntegrityFailure_effect {port : Nat} {s : State} (h1 : port < 2) (h2 : (cxlOf s port).live = true) :
    Completes (.ideIntegrityFailure port) s fun t =>
      cxlOf t port = { cxlOf s port with rate := 0, width := 0, ide := false, ideDown := true } ∧
      eventBit t .cxlPortChanged = true := by
  refine ⟨_, rfl, ?_⟩
  dsimp only
  rw [if_pos (by simp [h1, h2])]
  refine ⟨changeCxl_at _ _ _, changeCxl_event ?_⟩
  dsimp only
  intro hx
  have h3 := h2
  unfold CxlPort.live at h3
  simp [hx.2] at h3

theorem cxlLink_barred {port rate width : Nat} {s : State} (h3 : (cxlOf s port).ideDown = true) (h5 : 0 < width) :
    Completes (.cxlLinkChange port rate width) s fun t => t = s := by
  refine ⟨_, rfl, ?_⟩
  dsimp only
  rw [if_neg (by simp [h3, h5])]

end Sys2Proof.Machine
end

