-- ==== Sys2Proof/Laws/Sends.lean ====
section
/-! SUPPORT. Sending, journalling and completing leave the sequence table, the owners, the waiting messages and the batch alone (R143).
`f_sameSqs`: if `s` has them as `s0`, so has what `f` makes of `s`. -/

namespace Sys2Proof.Safety

open Sys2Proof.Machine

/-- Two states have the same sequences, owners, waiting messages and batch: only the source sequences counted and used may differ. -/
def SameSqs (s0 s : State) : Prop := { s.sqs with nextSseq := 0, firstSeq := [] } = { s0.sqs with nextSseq := 0, firstSeq := [] }

theorem SameSqs.refl (s : State) : SameSqs s s := rfl

theorem SameSqs.foldl {α : Type} {f : State → α → State} {s0 s : State} {l : List α}
    (hf : ∀ s a, SameSqs s0 s → SameSqs s0 (f s a)) (h : SameSqs s0 s) : SameSqs s0 (l.foldl f s) := by
  induction l generalizing s with
  | nil => exact h
  | cons a t ih => exact ih (hf s a h)

theorem SameSqs.foldl_fst {α β : Type} {f : State × β → α → State × β} {s0 : State} {p : State × β} {l : List α}
    (hf : ∀ p a, SameSqs s0 p.1 → SameSqs s0 (f p a).1) (h : SameSqs s0 p.1) : SameSqs s0 (l.foldl f p).1 := by
  induction l generalizing p with
  | nil => exact h
  | cons a t ih => exact ih (hf p a h)

theorem SameSqs.foldl_snd {α β : Type} {f : β × State → α → β × State} {s0 : State} {p : β × State} {l : List α}
    (hf : ∀ p a, SameSqs s0 p.2 → SameSqs s0 (f p a).2) (h : SameSqs s0 p.2) : SameSqs s0 (l.foldl f p).2 := by
  induction l generalizing p with
  | nil => exact h
  | cons a t ih => exact ih (hf p a h)

theorem SameSqs.of_snd {α : Type} {s0 s : State} {p : α × State} {a : α} (e : p = (a, s)) (h : SameSqs s0 p.2) : SameSqs s0 s := by
  subst e; exact h

theorem SameSqs.of_snd2 {α β : Type} {s0 s : State} {p : α × β × State} {a : α} {b : β} (e : p = (a, b, s))
    (h : SameSqs s0 p.2.2) : SameSqs s0 s := by
  subst e; exact h

theorem SameSqs.of_fst {α : Type} {s0 s : State} {p : State × α} {a : α} (e : p = (s, a)) (h : SameSqs s0 p.1) : SameSqs s0 s := by
  subst e; exact h

theorem SameSqs.put {s0 s : State} {tmu sqs slc pgm tir cmp car mdl fab wei hif sec hlt stw sup status counters mem free pending}
    (h : SameSqs s0 s) (hi : ({ sqs with nextSseq := 0, firstSeq := [] } : Sqs) = { s.sqs with nextSseq := 0, firstSeq := [] }) :
    SameSqs s0 ⟨tmu, sqs, slc, pgm, tir, cmp, car, mdl, fab, wei, hif, sec, hlt, stw, sup, status, counters, mem, free,
      pending⟩ := hi.trans h

theorem SameSqs.seqs {a b : State} (h : SameSqs a b) : b.sqs.seqs = a.sqs.seqs := by
  have := congrArg Sqs.seqs h; exact this

theorem SameSqs.owned {a b : State} (h : SameSqs a b) : b.sqs.owned = a.sqs.owned := by
  have := congrArg Sqs.owned h; exact this

theorem SameSqs.gens {a b : State} (h : SameSqs a b) : b.sqs.gens = a.sqs.gens := by
  have := congrArg Sqs.gens h; exact this

theorem SameSqs.fronted {a b : State} (h : SameSqs a b) : b.sqs.fronted = a.sqs.fronted := by
  have := congrArg Sqs.fronted h; exact this

theorem SameSqs.leaving {a b : State} (h : SameSqs a b) : b.sqs.leaving = a.sqs.leaving := by
  have := congrArg Sqs.leaving h; exact this

theorem SameSqs.waiting {a b : State} (h : SameSqs a b) : b.sqs.waiting = a.sqs.waiting := by
  have := congrArg Sqs.waiting h; exact this

theorem SameSqs.batch {a b : State} (h : SameSqs a b) : b.sqs.batch = a.sqs.batch := by
  have := congrArg Sqs.batch h; exact this

theorem SameSqs.ringAsks {a b : State} (h : SameSqs a b) : b.sqs.ringAsks = a.sqs.ringAsks := by
  have := congrArg Sqs.ringAsks h; exact this

theorem SameSqs.trans {a b c : State} (h : SameSqs a b) (k : SameSqs b c) : SameSqs a c := Eq.trans k h

end Sys2Proof.Safety

namespace Sys2Proof.Machine

open Sys2Proof.Safety

theorem setStatus_sameSqs {s0 s : State} (a) (w) (h : SameSqs s0 s) : SameSqs s0 (setStatus a w s) := by
  unfold setStatus
  try dsimp only
  exact SameSqs.put (by assumption) rfl

theorem msix_sameSqs {s0 s : State} (v) (h : SameSqs s0 s) : SameSqs s0 (msix v s) := by
  unfold msix
  try dsimp only
  exact SameSqs.put (by assumption) rfl

theorem raiseAt_sameSqs {s0 s : State} (a) (bit) (h : SameSqs s0 s) : SameSqs s0 (raiseAt a bit s) := by
  unfold raiseAt
  try dsimp only
  split
  · exact setStatus_sameSqs _ _ (by assumption)
  · exact msix_sameSqs _ (setStatus_sameSqs _ _ (by assumption))

theorem raise_sameSqs {s0 s : State} (e_) (h : SameSqs s0 s) : SameSqs s0 (raise e_ s) := by
  unfold SameSqs at *
  rw [raise_sqs]; exact h

theorem counterEvent_sameSqs {s0 s : State} (sat) (block) (offset)
    (h : SameSqs s0 s) : SameSqs s0 (counterEvent sat block offset s) := by
  unfold counterEvent
  try dsimp only
  split
  · exact SameSqs.put (by assumption) rfl
  · exact raise_sameSqs _ (SameSqs.put (by assumption) rfl)

theorem bump_sameSqs {s0 s : State} (a n) (h : SameSqs s0 s) : SameSqs s0 (bump a n s) := by
  unfold SameSqs at *
  rw [bump_sqs]; exact h

theorem sEvent_sameSqs {s0 s : State} (old) (new) (block) (offset)
    (h : SameSqs s0 s) : SameSqs s0 (sEvent old new block offset s) := by
  unfold sEvent
  try dsimp only
  split
  · exact counterEvent_sameSqs _ _ _ (by assumption)
  · assumption

theorem setRing_sameSqs {s0 s : State} (r) (g) (h : SameSqs s0 s) : SameSqs s0 (setRing r g s) := by
  unfold setRing
  try dsimp only
  exact SameSqs.put (by assumption) rfl

theorem writeMem_sameSqs {s0 s : State} (a bs) (h : SameSqs s0 s) : SameSqs s0 (writeMem a bs s) := h

theorem postEntry_sameSqs {s0 s : State} (r) (mk) (h : SameSqs s0 s) : SameSqs s0 (postEntry r mk s) := by
  unfold postEntry
  try dsimp only
  exact msix_sameSqs _ (setRing_sameSqs _ _ (writeMem_sameSqs _ _ (by assumption)))

theorem complete_sameSqs {s0 s : State} (t) (status) (cause) (reason) (r0) (r1)
    (h : SameSqs s0 s) : SameSqs s0 (complete t status cause reason r0 r1 s) := by
  unfold complete
  try dsimp only
  split
  · assumption
  · split
    · exact setRing_sameSqs _ _ (by assumption)
    · exact postEntry_sameSqs _ _ (setRing_sameSqs _ _ (by assumption))

theorem rotate_sameSqs {s0 s : State} (die) (h : SameSqs s0 s) : SameSqs s0 (rotate die s).2.2 := by
  unfold rotate
  try dsimp only
  exact SameSqs.put (by assumption) rfl

theorem setQueue_sameSqs {s0 s : State} (q) (w) (h : SameSqs s0 s) : SameSqs s0 (setQueue q w s) := by
  unfold setQueue
  try dsimp only
  exact SameSqs.put (by assumption) rfl

theorem setActive_sameSqs {s0 s : State} (p) (l) (h : SameSqs s0 s) : SameSqs s0 (setActive p l s) := by
  unfold setActive
  try dsimp only
  exact SameSqs.put (by assumption) rfl

theorem joinActive_sameSqs {s0 s : State} (q) (p) (h : SameSqs s0 s) : SameSqs s0 (joinActive q p s) := by
  unfold joinActive
  try dsimp only
  split
  · assumption
  · exact setActive_sameSqs _ _ (setQueue_sameSqs _ _ (by assumption))

theorem joinAll_sameSqs {s0 s : State} (q) (h : SameSqs s0 s) : SameSqs s0 (joinAll q s) := by
  unfold joinAll
  try dsimp only
  refine SameSqs.foldl (fun _ _ _ => ?_) ?_
  · exact joinActive_sameSqs _ _ (by assumption)
  · assumption

theorem leaveAll_sameSqs {s0 s : State} (q) (h : SameSqs s0 s) : SameSqs s0 (leaveAll q s) := by
  unfold leaveAll
  try dsimp only
  refine SameSqs.foldl (fun _ _ _ => ?_) ?_
  · exact setActive_sameSqs _ _ (by assumption)
  · assumption

theorem testQueue_sameSqs {s0 s : State} (q) (h : SameSqs s0 s) : SameSqs s0 (testQueue q s) := by
  unfold testQueue
  try dsimp only
  split
  · exact joinAll_sameSqs _ (setQueue_sameSqs _ _ (by assumption))
  · exact leaveAll_sameSqs _ (setQueue_sameSqs _ _ (by assumption))

theorem enqueue_sameSqs {s0 s : State} (q) (p) (f) (h : SameSqs s0 s) : SameSqs s0 (enqueue q p f s) := by
  unfold enqueue
  try dsimp only
  split
  · exact setQueue_sameSqs _ _ (by assumption)
  · split
    · exact testQueue_sameSqs _ (setQueue_sameSqs _ _ (by assumption))
    · split
      · split
        · exact joinActive_sameSqs _ _ (setQueue_sameSqs _ _ (by assumption))
        · exact setQueue_sameSqs _ _ (by assumption)
      · split
        · exact joinActive_sameSqs _ _ (setQueue_sameSqs _ _ (by assumption))
        · exact setQueue_sameSqs _ _ (by assumption)

theorem queuePacket_sameSqs {s0 s : State} (m) (i) (flags) (h : SameSqs s0 s) : SameSqs s0 (queuePacket m i flags s) := by
  unfold queuePacket
  try dsimp only
  exact enqueue_sameSqs _ _ _ (rotate_sameSqs _ (by assumption))

theorem startMsg_sameSqs {s0 s : State} (m) (h : SameSqs s0 s) : SameSqs s0 (startMsg m s) := by
  unfold startMsg
  try dsimp only
  refine SameSqs.foldl (fun _ _ _ => ?_) ?_
  · exact queuePacket_sameSqs _ _ _ (by assumption)
  · exact SameSqs.put (by assumption) rfl

theorem submitMsg_sameSqs {s0 s : State} (m) (h : SameSqs s0 s) : SameSqs s0 (submitMsg m s) := by
  unfold submitMsg
  try dsimp only
  split
  · exact startMsg_sameSqs _ (by assumption)
  · exact SameSqs.put (by assumption) rfl

theorem startWaiting_sameSqs {s0 s : State} (h : SameSqs s0 s) : SameSqs s0 (startWaiting s) := by
  unfold startWaiting
  try dsimp only
  refine SameSqs.foldl (fun _ _ _ => ?_) ?_
  · exact submitMsg_sameSqs _ (by assumption)
  · exact SameSqs.put (by assumption) rfl

theorem endMsg_sameSqs {s0 s : State} (dest) (seq) (h : SameSqs s0 s) : SameSqs s0 (endMsg dest seq s) := by
  unfold endMsg
  try dsimp only
  exact startWaiting_sameSqs (SameSqs.put (by assumption) rfl)

theorem takeSeq_sameSqs {s0 s : State} (dest) (h : SameSqs s0 s) : SameSqs s0 (takeSeq dest s).2 := by
  unfold takeSeq
  try dsimp only
  exact SameSqs.put (by assumption) rfl

theorem sendPieces_sameSqs {s0 s : State} (dest) (dike) (charged) (carried) (sseq) (pieces)
    (h : SameSqs s0 s) : SameSqs s0 (sendPieces dest dike charged carried sseq pieces s) := by
  unfold sendPieces
  try dsimp only
  split
  · exact SameSqs.put (by assumption) rfl
  · exact submitMsg_sameSqs _ (takeSeq_sameSqs _ (SameSqs.put (by assumption) rfl))

theorem sendMsg_sameSqs {s0 s : State} (dest) (dike) (carried) (sseq) (bytes)
    (h : SameSqs s0 s) : SameSqs s0 (sendMsg dest dike carried sseq bytes s) := by
  unfold sendMsg
  try dsimp only
  exact sendPieces_sameSqs _ _ _ _ _ _ (by assumption)

theorem setNow_sameSqs {s0 s : State} (t) (h : SameSqs s0 s) : SameSqs s0 (setNow t s) := by
  unfold setNow
  try dsimp only
  exact SameSqs.put (by assumption) rfl

theorem setPort_sameSqs {s0 s : State} (p) (r) (h : SameSqs s0 s) : SameSqs s0 (setPort p r s) := by
  unfold setPort
  try dsimp only
  exact SameSqs.put (by assumption) rfl

theorem takeSseq_sameSqs {s0 s : State} (h : SameSqs s0 s) : SameSqs s0 (takeSseq s).2 := by
  unfold takeSseq
  try dsimp only
  exact SameSqs.put (by assumption) rfl

theorem ringWrite_sameSqs {s0 s : State} (base) (cap) (u) (bs) (h : SameSqs s0 s) : SameSqs s0 (ringWrite base cap u bs s) := by
  unfold ringWrite
  try dsimp only
  exact writeMem_sameSqs _ _ (writeMem_sameSqs _ _ (by assumption))

theorem putRecord_sameSqs {s0 s : State} (kind) (flags) (step) (action) (tenant) (source) (sseq) (body)
    (h : SameSqs s0 s) : SameSqs s0 (putRecord kind flags step action tenant source sseq body s).2 := by
  unfold putRecord
  try dsimp only
  exact SameSqs.put (ringWrite_sameSqs _ _ _ _ (by assumption)) rfl

theorem putJournal_sameSqs {s0 s : State} (kind) (flags) (step) (action) (tenant) (source) (sseq) (body)
    (h : SameSqs s0 s) : SameSqs s0 (putJournal kind flags step action tenant source sseq body s) := by
  unfold putJournal
  try dsimp only
  split
  · exact putRecord_sameSqs _ _ _ _ _ _ _ _ (by assumption)
  · exact putRecord_sameSqs _ _ _ _ _ _ _ _ (raise_sameSqs _ (bump_sameSqs _ _ (putRecord_sameSqs _ _ _ _ _ _ _ _
      (by assumption))))

theorem journal_sameSqs {s0 s : State} (kind) (action) (tenant) (source) (sseq) (body)
    (h : SameSqs s0 s) : SameSqs s0 (journal kind action tenant source sseq body s) := by
  unfold journal
  try dsimp only
  split
  · refine SameSqs.foldl (fun _ _ _ => ?_) ?_
    · exact putJournal_sameSqs _ _ _ _ _ _ _ _ (by assumption)
    · assumption
  · assumption

theorem dispositionAt_sameSqs {s0 s : State} (action) (code) (handle) (layer) (amount)
    (h : SameSqs s0 s) : SameSqs s0 (dispositionAt action code handle layer amount s) := by
  unfold dispositionAt
  try dsimp only
  exact journal_sameSqs _ _ _ _ _ _ (by assumption)

theorem disposition_sameSqs {s0 s : State} (code) (handle) (layer) (amount)
    (h : SameSqs s0 s) : SameSqs s0 (disposition code handle layer amount s) := by
  unfold disposition
  try dsimp only
  exact dispositionAt_sameSqs _ _ _ _ _ (by assumption)

theorem journalMsg_sameSqs {s0 s : State} (action) (tenant) (source) (sseq) (bytes)
    (h : SameSqs s0 s) : SameSqs s0 (journalMsg action tenant source sseq bytes s) := by
  unfold journalMsg
  try dsimp only
  split
  · split
    · exact journal_sameSqs _ _ _ _ _ _ (SameSqs.put (by assumption) rfl)
    · exact SameSqs.put (by assumption) rfl
  · exact journal_sameSqs _ _ _ _ _ _ (SameSqs.put (by assumption) rfl)

theorem noteFirst_sameSqs {s0 s : State} (source) (sseq) (h : SameSqs s0 s) : SameSqs s0 (noteFirst source sseq s) := by
  unfold noteFirst
  try dsimp only
  split
  · assumption
  · exact SameSqs.put (by assumption) rfl

theorem consumeNow_sameSqs {s0 s : State} (tenant) (source) (sseq) (bytes)
    (h : SameSqs s0 s) : SameSqs s0 (consumeNow tenant source sseq bytes s) := by
  unfold consumeNow
  try dsimp only
  exact journalMsg_sameSqs _ _ _ _ _ (noteFirst_sameSqs _ _ (by assumption))

theorem consumeUnnumbered_sameSqs {s0 s : State} (tenant) (source) (bytes)
    (h : SameSqs s0 s) : SameSqs s0 (consumeUnnumbered tenant source bytes s) := by
  unfold consumeUnnumbered
  try dsimp only
  exact journalMsg_sameSqs _ _ _ _ _ (by assumption)

theorem sendSlu_sameSqs {s0 s : State} (dest) (h_) (body) (h : SameSqs s0 s) : SameSqs s0 (sendSlu dest h_ body s) := by
  unfold sendSlu
  try dsimp only
  exact sendMsg_sameSqs _ _ _ _ _ (takeSseq_sameSqs (by assumption))

theorem sendState_sameSqs {s0 s : State} (dest) (h_) (mid) (r) (h : SameSqs s0 s) : SameSqs s0 (sendState dest h_ mid r s) := by
  unfold sendState
  try dsimp only
  refine SameSqs.foldl (fun _ _ _ => ?_) ?_
  · exact sendSlu_sameSqs _ _ _ (by assumption)
  · assumption

theorem journalWait_sameSqs {s0 s : State} (p) (h : SameSqs s0 s) : SameSqs s0 (journalWait p s) := by
  unfold journalWait
  try dsimp only
  split
  · exact journalMsg_sameSqs _ _ _ _ _ (by assumption)
  · exact journalMsg_sameSqs _ _ _ _ _ (by assumption)
  · split
    · exact journalMsg_sameSqs _ _ _ _ _ (by assumption)
    · assumption

theorem misdirect_sameSqs {s0 s : State} (port) (h : SameSqs s0 s) : SameSqs s0 (misdirect port s) := by
  unfold misdirect
  try dsimp only
  exact raise_sameSqs _ (sEvent_sameSqs _ _ _ _ (setPort_sameSqs _ _ (by assumption)))

theorem sendReject_sameSqs {s0 s : State} (dest) (h_) (h : SameSqs s0 s) : SameSqs s0 (sendReject dest h_ s) := by
  unfold sendReject
  try dsimp only
  exact sendSlu_sameSqs _ _ _ (by assumption)

theorem refuseStale_sameSqs {s0 s : State} (source) (h_) (h : SameSqs s0 s) : SameSqs s0 (refuseStale source h_ s) := by
  unfold refuseStale
  try dsimp only
  exact sendReject_sameSqs _ _ (raise_sameSqs _ (bump_sameSqs _ _ (by assumption)))

theorem noteAckTo_sameSqs {s0 s : State} (dest) (position) (h_) (h : SameSqs s0 s) : SameSqs s0 (noteAckTo dest position h_ s) := by
  unfold noteAckTo
  try dsimp only
  exact sendSlu_sameSqs _ _ _ (by assumption)

theorem sendRing_sameSqs {s0 s : State} (dest) (e_) (kind) (layer) (tokens) (firstPos) (payload)
    (h : SameSqs s0 s) : SameSqs s0 (sendRing dest e_ kind layer tokens firstPos payload s) := by
  unfold sendRing
  try dsimp only
  exact sendMsg_sameSqs _ _ _ _ _ (by assumption)

theorem setSpdm_sameSqs {s0 s : State} (t) (c) (h : SameSqs s0 s) : SameSqs s0 (setSpdm t c s) := by
  unfold setSpdm
  try dsimp only
  split
  · exact SameSqs.put (by assumption) rfl
  · exact SameSqs.put (by assumption) rfl
  · exact SameSqs.put (by assumption) rfl

theorem spdmFail_sameSqs {s0 s : State} (t) (code) (data) (h : SameSqs s0 s) : SameSqs s0 (spdmFail t code data s) := by
  unfold spdmFail
  try dsimp only
  exact raise_sameSqs _ (bump_sameSqs _ _ (setSpdm_sameSqs _ _ (by assumption)))

end Sys2Proof.Machine
end

