-- ==== Sys2Proof/Laws/EffKeeper.lean ====
section
/-! SUPPORT. What the messages of the sluice do at a keeper (R165 to R177). -/

namespace Sys2Proof.Machine

open Sys2Proof.Safety

/-! ## Reading sequences and records through operations that leave them alone -/

theorem seqAt_same {s t : State} (h : SameSqs s t) (slot : Nat) : seqAt t slot = seqAt s slot := by
  unfold seqAt; rw [h.seqs]

theorem slotOf_same {s t : State} (h : SameSqs s t) (x : Nat) : slotOf t x = slotOf s x := by
  unfold slotOf; rw [seqAt_same h]

theorem ownedAt_same {s t : State} (h : SameSqs s t) (slot : Nat) : ownedAt t slot = ownedAt s slot := by
  unfold ownedAt; rw [h.owned]

theorem ownedBy_same {s t : State} (h : SameSqs s t) (k x : Nat) : ownedBy t k x = ownedBy s k x := by
  unfold ownedBy; rw [h.owned]

theorem stepNo_same {s t : State} (h : t.tmu = s.tmu) : stepNo t = stepNo s := by
  unfold stepNo stepAt epochNs periodNs; rw [h]

theorem recAt_same {s t : State} (h : t.slc = s.slc) (slot : Nat) : recAt t slot = recAt s slot := by
  unfold recAt; rw [h]

theorem consumeNow_parts (tenant source sseq : Nat) (bytes : List Byte) (s : State) :
    Only [.sqs, .hif, .hlt, .status, .counters, .mem] s (consumeNow tenant source sseq bytes s) :=
  consumeNow_only rfl tenant source sseq bytes (Only.refl _ s)

theorem consumeNow_same (tenant source sseq : Nat) (bytes : List Byte) (s : State) :
    SameSqs s (consumeNow tenant source sseq bytes s) := consumeNow_sameSqs tenant source sseq bytes (SameSqs.refl s)

@[simp] theorem setRec_recAt (slot : Nat) (r : OwnRec) (s : State) : recAt (setRec slot r s) slot = some r := by
  unfold recAt setRec updSeq
  exact Tab.look_put_same _ _ _

theorem setRec_other {k slot : Nat} (hk : k ≠ slot) (r : OwnRec) (s : State) : recAt (setRec slot r s) k = recAt s k := by
  unfold recAt setRec updSeq
  exact Tab.look_put_other hk _ _

theorem updRec_recAt {slot : Nat} {r : OwnRec} {s : State} (f : OwnRec → OwnRec) (h : recAt s slot = some r) :
    recAt (updRec slot f s) slot = some (f r) := by
  unfold updRec
  rw [h]
  exact setRec_recAt _ _ _

theorem updRec_slc {slot : Nat} {r : OwnRec} {s : State} (f : OwnRec → OwnRec) (h : recAt s slot = some r) :
    (updRec slot f s).slc = { s.slc with recs := Tab.put slot (f r) s.slc.recs } := by
  unfold updRec
  rw [h]
  rfl

theorem updRec_sqs {slot : Nat} {r : OwnRec} {s : State} (f : OwnRec → OwnRec) (h : recAt s slot = some r) :
    (updRec slot f s).sqs = { s.sqs with
      seqs := Tab.upd slot (fun e => { e with source := (f r).owner, ownEpoch := (f r).epoch }) s.sqs.seqs } := by
  unfold updRec
  rw [h]
  rfl

/-! ## A message to a keeper -/

/-- The state in which a keeper acts on a message under the epoch in force. -/
def heardState (slot : Nat) (m : MsgIn) (h : Slu) (r : OwnRec) (s : State) : State :=
  if m.source = r.owner then updRec slot (fun r => { r with heard := true }) (consumeNow h.tenant m.source h.sseq m.bytes s)
  else consumeNow h.tenant m.source h.sseq m.bytes s

theorem heardState_recAt {slot : Nat} {m : MsgIn} {h : Slu} {r : OwnRec} {s : State} (hr : recAt s slot = some r) :
    recAt (heardState slot m h r s) slot = some (heardFrom m r) := by
  have hc : recAt (consumeNow h.tenant m.source h.sseq m.bytes s) slot = some r := by
    rw [recAt_same ((consumeNow_parts _ _ _ _ s).2 .slc rfl), hr]
  unfold heardState heardFrom
  split
  · rename_i ho
    rw [updRec_recAt _ hc]
    simp [ho]
  · rename_i ho
    rw [hc]
    simp [ho]

theorem heardState_sqs {slot : Nat} {m : MsgIn} {h : Slu} {r : OwnRec} {s : State} (hr : recAt s slot = some r) :
    (heardState slot m h r s).sqs.waiting = s.sqs.waiting ∧ (heardState slot m h r s).slc.hist = s.slc.hist := by
  have hc : recAt (consumeNow h.tenant m.source h.sseq m.bytes s) slot = some r := by
    rw [recAt_same ((consumeNow_parts _ _ _ _ s).2 .slc rfl), hr]
  unfold heardState
  split
  · rw [updRec_sqs _ hc, updRec_slc _ hc]
    exact ⟨(consumeNow_same _ _ _ _ s).waiting, by rw [(consumeNow_parts _ _ _ _ s).2 .slc rfl]⟩
  · exact ⟨(consumeNow_same _ _ _ _ s).waiting, by rw [(consumeNow_parts _ _ _ _ s).2 .slc rfl]⟩

theorem toKeeper_ok {kind slot : Nat} {tail : Bool} {act : Slu → Nat → OwnRec → Bool → State → State} {m : MsgIn} {s : State}
    {h : Slu} {r : OwnRec} (g : KeeperGets kind m s h slot r) (hk : kind ≠ 0x33) (he : h.epoch = r.epoch) :
    toKeeper kind tail act m s = act h slot r true (heardState slot m h r s) := by
  have hc : recAt (consumeNow h.tenant m.source h.sseq m.bytes s) slot = some r := by
    rw [recAt_same ((consumeNow_parts _ _ _ _ s).2 .slc rfl), g.record]
  have hl : slotOf (consumeNow h.tenant m.source h.sseq m.bytes s) h.seq = some slot := by
    rw [slotOf_same (consumeNow_same _ _ _ _ s), g.live]
  have hk' : (kind == 0x33) = false := by simpa using hk
  unfold toKeeper sluIn
  simp only [g.takes, g.read, g.kind, g.role, Bool.not_true, Bool.false_eq_true, if_false, ne_eq, not_true_eq_false, hk', hl,
    hc, he, if_true]
  rfl

theorem toKeeper_stale {kind slot : Nat} {tail : Bool} {act : Slu → Nat → OwnRec → Bool → State → State} {m : MsgIn} {s : State}
    {h : Slu} {r : OwnRec} (g : KeeperGets kind m s h slot r) (hk : kind ≠ 0x33) (he : h.epoch ≠ r.epoch)
    (ht : tailEpochOk r m.source h.epoch (stepNo s) = false ∨ tail = false) :
    toKeeper kind tail act m s = refuseStale m.source h (consumeNow h.tenant m.source h.sseq m.bytes s) := by
  have hc : recAt (consumeNow h.tenant m.source h.sseq m.bytes s) slot = some r := by
    rw [recAt_same ((consumeNow_parts _ _ _ _ s).2 .slc rfl), g.record]
  have hl : slotOf (consumeNow h.tenant m.source h.sseq m.bytes s) h.seq = some slot := by
    rw [slotOf_same (consumeNow_same _ _ _ _ s), g.live]
  have hk' : (kind == 0x33) = false := by simpa using hk
  have hn : stepNo (consumeNow h.tenant m.source h.sseq m.bytes s) = stepNo s := by
    unfold stepNo stepAt epochNs periodNs
    rw [(consumeNow_parts _ _ _ _ s).2 .tmu rfl]
  have ht' : (tail && tailEpochOk r m.source h.epoch (stepNo s)) = false := by
    rcases ht with ht | ht <;> simp [ht]
  unfold toKeeper sluIn
  simp only [g.takes, g.read, g.kind, g.role, Bool.not_true, Bool.false_eq_true, if_false, ne_eq, not_true_eq_false, hk', hl,
    hc, he, hn, ht']

theorem reachHeld_recAt {slot : Nat} {r x : OwnRec} {s : State} (h : recAt s slot = some x) :
    recAt (reachHeld slot r s) slot = some { x with state := .held, acked := true, quiet := 0, arriving := false } := by
  unfold reachHeld
  dsimp only
  split
  · rw [recAt_same (bump_slc _ _ _)]
    exact updRec_recAt _ h
  · exact updRec_recAt _ h

theorem grantAck_effect {m : MsgIn} {s : State} {h : Slu} {slot : Nat} {r : OwnRec} (g : KeeperGets 0x31 m s h slot r)
    (he : h.epoch = r.epoch) (hs : r.state = .offered ∨ r.state = .reissued) :
    Completes (.grantAck m) s fun t =>
      recAt t slot = some { heardFrom m r with state := .held, acked := true, quiet := 0, arriving := false } := by
  refine ⟨onGrantAck m s, rfl, ?_⟩
  dsimp only
  unfold onGrantAck
  rw [toKeeper_ok g (by decide) he]
  have hr := heardState_recAt (m := m) (h := h) g.record
  rcases hs with hs | hs <;> rw [hs] <;> exact reachHeld_recAt hr

theorem pulse_effect {m : MsgIn} {s : State} {h : Slu} {slot : Nat} {r : OwnRec} (g : KeeperGets 0x34 m s h slot r)
    (he : h.epoch = r.epoch) :
    Completes (.pulse m) s fun t => recAt t slot = some (heardFrom m r) := by
  refine ⟨onPulse m s, rfl, ?_⟩
  dsimp only
  unfold onPulse
  rw [toKeeper_ok g (by decide) he]
  exact heardState_recAt g.record

theorem pulse_stale {m : MsgIn} {s : State} {h : Slu} {slot : Nat} {r : OwnRec} (g : KeeperGets 0x34 m s h slot r)
    (he : h.epoch ≠ r.epoch) :
    Completes (.pulse m) s fun t =>
      t.slc = s.slc ∧ eventBit t .epochStaleRefused = true ∧ min (counter s cStale + 1) sMax ≤ counter t cStale := by
  obtain ⟨u, hu⟩ : ∃ u, u = consumeNow h.tenant m.source h.sseq m.bytes s := ⟨_, rfl⟩
  refine ⟨refuseStale m.source h u, ?_, ?_⟩
  · show Host.Outcome.next (onPulse m s) = _
    unfold onPulse
    rw [toKeeper_stale g (by decide) he (Or.inr rfl), hu]
  · have hg : Grows (raise .epochStaleRefused (bump cStale 1 u)) (refuseStale m.source h u) := sendReject_grows _ _ (Grows.refl _)
    have hcg : Grows s u := by rw [hu]; exact consumeNow_grows _ _ _ _ (Grows.refl _)
    refine ⟨?_, hg.bits _ (eventBit_raise_same _ _), ?_⟩
    · rw [(refuseStale_only (pts := [.sqs, .fab, .wei, .hif, .hlt, .status, .counters]) rfl m.source h (Only.refl _ u)).2 .slc rfl, hu]
      exact (consumeNow_parts _ _ _ _ s).2 .slc rfl
    · refine le_trans ?_ (hg.counters cStale)
      rw [raise_counter, counter_bump_same]
      have := hcg.counters cStale
      omega

theorem tokenNote_effect {m : MsgIn} {s : State} {h : Slu} {slot : Nat} {r : OwnRec} (g : KeeperGets 0x35 m s h slot r)
    (he : h.epoch = r.epoch) (hp : fld m.bytes 32 4 = (histOf s slot).length) :
    Completes (.tokenNote m) s fun t =>
      histOf t slot = histOf s slot ++ [fld m.bytes 36 4] ∧
      recAt t slot = some { heardFrom m r with draws := fld m.bytes 40 8 } := by
  refine ⟨onTokenNote m s, rfl, ?_⟩
  dsimp only
  unfold onTokenNote
  rw [toKeeper_ok g (by decide) he]
  have hr := heardState_recAt (m := m) (h := h) g.record
  obtain ⟨u, hu⟩ : ∃ u, u = heardState slot m h r s := ⟨_, rfl⟩
  have hh : histOf u slot = histOf s slot := by
    unfold histOf; rw [hu, (heardState_sqs g.record).2]
  rw [← hu] at hr ⊢
  dsimp only
  rw [if_pos (by rw [hh, hp])]
  obtain ⟨v, hv⟩ : ∃ v, v = setHist slot (histOf u slot ++ [fld m.bytes 36 4]) u := ⟨_, rfl⟩
  rw [← hv]
  have hvr : recAt v slot = some (heardFrom m r) := by rw [hv]; exact hr
  obtain ⟨w, hw⟩ : ∃ w, w = updSeq slot (fun e => { e with generated := e.generated + 1, nextStep := fld m.bytes 48 6 + 1 })
    (updRec slot (fun r => { r with draws := fld m.bytes 40 8 }) v) := ⟨_, rfl⟩
  rw [← hw]
  have hws : w.slc = { v.slc with recs := Tab.put slot { heardFrom m r with draws := fld m.bytes 40 8 } v.slc.recs } := by
    rw [hw]
    exact updRec_slc _ hvr
  have hns : (noteAckTo m.source (fld m.bytes 32 4) h w).slc = w.slc :=
    (noteAckTo_only (pts := [.sqs, .fab, .wei, .hlt]) rfl m.source (fld m.bytes 32 4) h (Only.refl _ w)).2 .slc rfl
  constructor
  · unfold histOf
    rw [hns, hws, hv]
    show Tab.getD (Tab.put slot _ _) slot [] = _
    rw [Tab.getD_put_same]
    rw [hh]
    rfl
  · rw [recAt_same hns]
    unfold recAt
    rw [hws]
    exact Tab.look_put_same _ _ _

theorem statePush_effect {m : MsgIn} {s : State} {h : Slu} {slot : Nat} {r : OwnRec} (g : KeeperGets 0x32 m s h slot r)
    (he : h.epoch = r.epoch) (hs : r.state ≠ .rehoming) (ht : h.tail = false) :
    Completes (.statePush m) s fun t =>
      recAt t slot = some { heardFrom m r with draws := (readStateRec m.bytes 32).draws } := by
  refine ⟨onStatePush m s, rfl, ?_⟩
  dsimp only
  unfold onStatePush
  rw [if_pos g.role]
  unfold keeperStatePush
  rw [toKeeper_ok g (by decide) he]
  have hr := heardState_recAt (m := m) (h := h) g.record
  have hs' : (r.state == RecState.rehoming) = false := by simpa using hs
  simp only [hs', ht, Bool.false_eq_true, if_false]
  exact updRec_recAt _ hr

theorem release_effect {m : MsgIn} {s : State} {h : Slu} {slot : Nat} {r : OwnRec} (g : KeeperGets 0x33 m s h slot r)
    (he : h.epoch = r.epoch) (hm : memberOf s m.source h.seq = none) :
    Completes (.release m) s fun t =>
      t.sqs.waiting = s.sqs.waiting ++ [⟨1, h.tenant, m.source, h.sseq, 0, .release m.bytes m.port⟩] ∧
      recAt t slot = some (heardFrom m r) := by
  obtain ⟨u, hu⟩ : ∃ u, u = noteFirst m.source h.sseq s := ⟨_, rfl⟩
  have hs : SameSqs s u := by rw [hu]; exact noteFirst_sameSqs _ _ (SameSqs.refl s)
  have hr : recAt u slot = some r := by
    rw [recAt_same, g.record]
    rw [hu]
    exact (noteFirst_only (pts := [.sqs]) rfl _ _ (Only.refl _ s)).2 .slc rfl
  have hl : slotOf u h.seq = some slot := by rw [slotOf_same hs, g.live]
  obtain ⟨v, hv⟩ : ∃ v, v = if m.source = r.owner then updRec slot (fun r => { r with heard := true }) u else u := ⟨_, rfl⟩
  refine ⟨addWait ⟨1, h.tenant, m.source, h.sseq, 0, .release m.bytes m.port⟩ v, ?_, ?_, ?_⟩
  · show Host.Outcome.next (onRelease m s) = _
    unfold onRelease
    rw [g.read]
    dsimp only
    rw [hm]
    dsimp only [Option.isSome]
    rw [if_neg (by decide)]
    unfold keeperRelease toKeeper sluIn
    simp only [g.takes, g.read, g.kind, g.role, Bool.not_true, Bool.false_eq_true, if_false, ne_eq, not_true_eq_false,
      beq_self_eq_true, if_true, ← hu, hl, hr, he, ← hv]
  · show v.sqs.waiting ++ _ = _
    have : v.sqs.waiting = s.sqs.waiting := by
      rw [hv]
      split
      · rw [updRec_sqs _ hr]; exact hs.waiting
      · exact hs.waiting
    rw [this]
  · show recAt v slot = _
    rw [hv]
    unfold heardFrom
    split
    · rename_i ho
      rw [updRec_recAt _ hr]
      simp [ho]
    · rename_i ho
      rw [hr]
      simp [ho]

end Sys2Proof.Machine
end

