-- ==== Sys2Proof/Laws/EffOwner.lean ====
section
/-! SUPPORT. What the messages of the sluice, requests and verdicts do at an owner or a keeper's door, and the sluice's timers
(R20, R143, R146, R155, R160, R163, R170 to R184). -/

namespace Sys2Proof.Machine

open Sys2Proof.Safety

/-! ## The driving side -/

theorem updOwned_at {slot : Nat} {o : Owned} {s : State} (f : Owned → Owned) (h : ownedAt s slot = some o) :
    ownedAt (updOwned slot f s) slot = some (f o) := by
  unfold ownedAt updOwned
  show Tab.look slot (Tab.upd slot f s.sqs.owned) = _
  rw [Tab.look_upd, if_pos rfl]
  unfold ownedAt at h
  rw [h]
  rfl

theorem updSeq_at {slot : Nat} {e : Seq} {s : State} (f : Seq → Seq) (h : seqAt s slot = some e) :
    seqAt (updSeq slot f s) slot = some (f e) := by
  unfold seqAt updSeq
  show Tab.look slot (Tab.upd slot f s.sqs.seqs) = _
  rw [Tab.look_upd, if_pos rfl]
  unfold seqAt at h
  rw [h]
  rfl

theorem updOwned_seqAt (slot k : Nat) (f : Owned → Owned) (s : State) : seqAt (updOwned slot f s) k = seqAt s k := rfl
theorem updSeq_ownedAt (slot k : Nat) (f : Seq → Seq) (s : State) : ownedAt (updSeq slot f s) k = ownedAt s k := rfl

/-- A send by an owner leaves the entry alone and marks the driving side only. -/
theorem ownerSend_at {slot kind flags : Nat} {body : List Byte} {s : State} {o : Owned} (h : ownedAt s slot = some o) :
    seqAt (ownerSend slot kind flags body s) slot = seqAt s slot ∧
    ∃ b, ownedAt (ownerSend slot kind flags body s) slot = some { o with sent := b } := by
  unfold ownerSend
  split
  · rename_i e o' he ho
    rw [h] at ho
    obtain rfl : o = o' := by simpa using ho
    have hs : SameSqs (updOwned slot (fun o => { o with sent := o.sent || kind == 0x35 }) s)
        (sendSlu o.keeper (ownerHdr s kind flags e o) body (updOwned slot (fun o => { o with sent := o.sent || kind == 0x35 }) s)) :=
      sendSlu_sameSqs _ _ _ (SameSqs.refl _)
    rw [seqAt_same hs, ownedAt_same hs]
    exact ⟨rfl, _, updOwned_at _ h⟩
  · exact ⟨rfl, o.sent, h⟩

/-! ## A message of the sluice -/

theorem sluIn_ok {kind : Nat} {mine : Bool} {act : Slu → State → State} {m : MsgIn} {s : State} {h : Slu}
    (h1 : takesFrom s m.source = true) (h2 : readSlu m.bytes = some h) (h3 : h.kind = kind) (h4 : mine = true)
    (hk : kind ≠ 0x33) : sluIn kind mine act m s = act h (consumeNow h.tenant m.source h.sseq m.bytes s) := by
  have hk' : (kind == 0x33) = false := by simpa using hk
  unfold sluIn
  simp only [h1, h2, h3, h4, hk', Bool.not_true, Bool.false_eq_true, if_false, ne_eq, not_true_eq_false]

/-- The state in which an owner acts on a message of its keeper. -/
def answeredState (slot : Nat) (m : MsgIn) (h : Slu) (s : State) : State :=
  updOwned slot (fun o => { o with answered := true }) (consumeNow h.tenant m.source h.sseq m.bytes s)

theorem answeredState_at {kind slot : Nat} {m : MsgIn} {h : Slu} {o : Owned} {e : Seq} {s : State}
    (g : OwnerGets kind m s h slot o e) :
    ownedAt (answeredState slot m h s) slot = some { o with answered := true } ∧
    seqAt (answeredState slot m h s) slot = some e := by
  have hs := consumeNow_same h.tenant m.source h.sseq m.bytes s
  constructor
  · unfold answeredState
    exact updOwned_at _ (by rw [ownedAt_same hs, g.owned])
  · unfold answeredState
    rw [updOwned_seqAt, seqAt_same hs, g.entry]

theorem consumeNow_stepNo (tenant source sseq : Nat) (bytes : List Byte) (s : State) :
    stepNo (consumeNow tenant source sseq bytes s) = stepNo s := by
  unfold stepNo stepAt epochNs periodNs
  rw [(consumeNow_parts _ _ _ _ s).2 .tmu rfl]

theorem consumeNow_stepFrom (tenant source sseq : Nat) (bytes : List Byte) (s : State) (k : Nat) :
    stepFrom (consumeNow tenant source sseq bytes s) k = stepFrom s k := by
  unfold stepFrom
  rw [consumeNow_stepNo]

theorem grant_effect {m : MsgIn} {s : State} {h : Slu} (h1 : takesFrom s m.source = true) (h2 : roleC s = false)
    (h3 : readSlu m.bytes = some h) (h4 : h.kind = 0x30) (h5 : fld m.bytes 36 1 ≠ 2)
    (h6 : s.sqs.waiting.any (fun p => p.grantOf m.source h.seq h.epoch) = false) :
    Completes (.grant m) s fun t => t.sqs.waiting = s.sqs.waiting ++
      [⟨4, h.tenant, m.source, h.sseq, stepFrom s (fld m.bytes 38 6), .join (.handoff m.bytes m.source)⟩] := by
  refine ⟨onGrant m s, rfl, ?_⟩
  dsimp only
  unfold onGrant
  rw [sluIn_ok h1 h3 h4 (by rw [h2]; rfl) (by decide)]
  have hw := (consumeNow_same h.tenant m.source h.sseq m.bytes s).waiting
  rw [if_neg h5]
  unfold keepGrant
  rw [hw, h6, consumeNow_stepFrom]
  show (consumeNow _ _ _ _ _).sqs.waiting ++ _ = _
  rw [hw]

theorem addNotice_seqAt (e : Seq) (status cause step : Nat) (s : State) (k : Nat) :
    seqAt (addNotice e status cause step s) k = seqAt s k ∧ ownedAt (addNotice e status cause step s) k = ownedAt s k :=
  ⟨rfl, rfl⟩

/-- A token delivered leaves the driving side alone; of the entry it touches NEXT_STEP only. -/
theorem deliverToken_at {slot pos token promised : Nat} {e x : Seq} {o : Owned} {s : State} (h : seqAt s slot = some x) :
    (∃ n, seqAt (deliverToken slot e o pos token promised s) slot = some { x with nextStep := n }) ∧
    ownedAt (deliverToken slot e o pos token promised s) slot = ownedAt s slot := by
  unfold deliverToken
  dsimp only
  split
  · exact ⟨⟨x.nextStep, h⟩, rfl⟩
  · split
    · rw [(addNotice_seqAt _ _ _ _ _ _).1, (addNotice_seqAt _ _ _ _ _ _).2]
      exact ⟨⟨_, updSeq_at _ h⟩, rfl⟩
    · exact ⟨⟨_, updSeq_at _ h⟩, rfl⟩

/-- An owner's side that no longer holds back, and that of the tokens acknowledged has kept none (R183). -/
def Released (slot epoch : Nat) (s : State) : Prop :=
  ∃ x o, seqAt s slot = some x ∧ x.ownEpoch = epoch ∧ ownedAt s slot = some o ∧ o.heldSince = none ∧ o.silent = 0 ∧
    o.answered = true ∧ o.ackedHeld = []

theorem ackToken_released {slot epoch pos : Nat} {e : Seq} {o : Owned} {s : State} (ho : o.heldSince = none)
    (h : Released slot epoch s) : Released slot epoch (ackToken slot e o pos s) := by
  unfold ackToken
  split
  · exact h
  · rename_i a _
    obtain ⟨x, p, h1, h2, h3, h4, h5, h6, h7⟩ := h
    rw [ho]
    dsimp only [Option.isSome]
    rw [if_neg (by decide)]
    have hu : seqAt (updOwned slot (fun o => { o with awaiting := o.awaiting.filter (fun b => b.1 != pos) }) s) slot = some x := h1
    obtain ⟨⟨n, hn⟩, hq⟩ := deliverToken_at (pos := pos) (token := a.2.1) (promised := a.2.2) (e := e) (o := o) hu
    exact ⟨_, _, hn, h2, hq.trans (updOwned_at _ h3), h4, h5, h6, h7⟩

theorem deliverHeld_released {slot epoch : Nat} {x : Seq} {o : Owned} {s : State} (h1 : seqAt s slot = some x)
    (h2 : x.ownEpoch = epoch) (h3 : ownedAt s slot = some o) (h4 : o.heldSince = none) (h5 : o.silent = 0)
    (h6 : o.answered = true) : Released slot epoch (deliverHeld slot s) := by
  unfold deliverHeld
  rw [h3, h1]
  dsimp only
  have hb : Released slot epoch (updOwned slot (fun o => { o with ackedHeld := [] }) s) :=
    ⟨_, _, h1, h2, updOwned_at _ h3, h4, h5, h6, rfl⟩
  generalize updOwned slot (fun o => { o with ackedHeld := [] }) s = u at hb
  induction o.ackedHeld generalizing u with
  | nil => exact hb
  | cons p l ih => exact ih _ (ackToken_released h4 hb)

theorem reissue_effect {m : MsgIn} {s : State} {h : Slu} {slot : Nat} {o : Owned} {e : Seq}
    (g : OwnerGets 0x30 m s h slot o e) (h1 : fld m.bytes 36 1 = 2) :
    Completes (.grant m) s fun t => ∃ x p, seqAt t slot = some x ∧ x.ownEpoch = h.epoch ∧ ownedAt t slot = some p ∧
      p.heldSince = none ∧ p.silent = 0 ∧ p.answered = true ∧ p.ackedHeld = [] := by
  refine ⟨onGrant m s, rfl, ?_⟩
  dsimp only
  unfold onGrant
  rw [sluIn_ok g.takes g.read g.kind (by rw [g.role]; rfl) (by decide), if_pos h1]
  have hs := consumeNow_same h.tenant m.source h.sseq m.bytes s
  unfold onReissue
  rw [ownedBy_same hs, g.drives]
  dsimp only
  obtain ⟨u, hu⟩ : ∃ u, u = updOwned slot (fun o => { o with heldSince := none, silent := 0, answered := true })
    (updSeq slot (fun e => { e with ownEpoch := h.epoch }) (consumeNow h.tenant m.source h.sseq m.bytes s)) := ⟨_, rfl⟩
  have hue : seqAt u slot = some { e with ownEpoch := h.epoch } := by
    rw [hu, updOwned_seqAt]
    exact updSeq_at _ (by rw [seqAt_same hs, g.entry])
  have huo : ownedAt u slot = some { o with heldSince := none, silent := 0, answered := true } := by
    rw [hu]
    exact updOwned_at _ (by rw [updSeq_ownedAt, ownedAt_same hs, g.owned])
  rw [← hu]
  have hr : Released slot h.epoch (deliverHeld slot u) := deliverHeld_released hue rfl huo rfl rfl rfl
  split
  · obtain ⟨x, p, k1, k2, k3, k4⟩ := hr
    obtain ⟨he, b, hb⟩ := ownerSend_at (kind := 0x31) (flags := 0) (body := []) k3
    exact ⟨x, _, he.trans k1, k2, hb, k4⟩
  · exact hr

theorem noteAck_ok {m : MsgIn} {s : State} {h : Slu} {slot : Nat} {o : Owned} {e : Seq} (g : OwnerGets 0x36 m s h slot o e) :
    onNoteAck m s = ackToken slot e o (fld m.bytes 32 4) (answeredState slot m h s) := by
  unfold onNoteAck
  rw [sluIn_ok g.takes g.read g.kind (by rw [g.role]; rfl) (by decide)]
  have hs := consumeNow_same h.tenant m.source h.sseq m.bytes s
  dsimp only
  rw [ownedBy_same hs, g.drives]
  dsimp only
  rw [ownedAt_same hs, g.owned, seqAt_same hs, g.entry]
  rfl

theorem noteAck_effect {m : MsgIn} {s : State} {h : Slu} {slot : Nat} {a : Nat × Nat × Nat} {o : Owned} {e : Seq}
    (g : OwnerGets 0x36 m s h slot o e) (h1 : o.awaiting.find? (fun b => b.1 == fld m.bytes 32 4) = some a)
    (h2 : o.muteAfter = none) (h3 : o.heldSince = none) :
    Completes (.noteAck m) s fun t =>
      ownedAt t slot = some { o with answered := true, awaiting := o.awaiting.filter (fun b => b.1 != fld m.bytes 32 4) } ∧
      t.sqs.batch = s.sqs.batch ++
        (match o.ending.filter (fun _ => fld m.bytes 32 4 + 1 == o.histFirst + o.tokens.length) with
          | some cause => [⟨e.tenant, e.gateway, e.requestId, a.2.1, 0, 2, 0, a.2.2⟩,
              ⟨e.tenant, e.gateway, e.requestId, Config.none32, 1, 0, cause, 0⟩]
          | none => [⟨e.tenant, e.gateway, e.requestId, a.2.1, 0, 0, 0, a.2.2⟩]) := by
  refine ⟨onNoteAck m s, rfl, ?_⟩
  dsimp only
  rw [noteAck_ok g]
  unfold ackToken
  rw [h1, h3]
  dsimp only [Option.isSome]
  rw [if_neg (by decide)]
  obtain ⟨u, hu⟩ : ∃ u, u = updOwned slot (fun o => { o with awaiting := o.awaiting.filter (fun b => b.1 != fld m.bytes 32 4) })
    (answeredState slot m h s) := ⟨_, rfl⟩
  have huo : ownedAt u slot =
      some { o with answered := true, awaiting := o.awaiting.filter (fun b => b.1 != fld m.bytes 32 4) } := by
    rw [hu]
    exact updOwned_at _ (answeredState_at g).1
  have hue : seqAt u slot = some e := by
    rw [hu]
    exact (answeredState_at g).2
  have hub : u.sqs.batch = s.sqs.batch := by
    rw [hu]
    exact (consumeNow_same h.tenant m.source h.sseq m.bytes s).batch
  rw [← hu]
  refine ⟨?_, ?_⟩
  · rw [(deliverToken_at hue).2, huo]
    simp [h2, h3]
  · unfold deliverToken
    rw [h2]
    dsimp only [Option.map, Option.getD]
    rw [if_neg (by decide)]
    cases o.ending.filter (fun _ => fld m.bytes 32 4 + 1 == o.histFirst + o.tokens.length) with
    | none =>
      show u.sqs.batch ++ _ = _
      rw [hub]
      rfl
    | some c =>
      show (u.sqs.batch ++ _) ++ _ = _
      rw [hub, List.append_assoc]
      rfl

/-- During a hold an acknowledged token is kept and delivered when the hold ends (R183). -/
theorem noteAck_held {m : MsgIn} {s : State} {h : Slu} {slot : Nat} {a : Nat × Nat × Nat} {o : Owned} {e : Seq}
    (g : OwnerGets 0x36 m s h slot o e) (h1 : o.awaiting.find? (fun b => b.1 == fld m.bytes 32 4) = some a)
    (h2 : o.heldSince.isSome = true) :
    Completes (.noteAck m) s fun t =>
      ownedAt t slot = some { o with answered := true, ackedHeld := distinct (o.ackedHeld ++ [fld m.bytes 32 4]) } ∧
      t.sqs.batch = s.sqs.batch := by
  refine ⟨onNoteAck m s, rfl, ?_⟩
  dsimp only
  rw [noteAck_ok g]
  unfold ackToken
  rw [h1, h2]
  dsimp only
  rw [if_pos rfl]
  exact ⟨updOwned_at _ (answeredState_at g).1, (consumeNow_same h.tenant m.source h.sseq m.bytes s).batch⟩

theorem toOwner_ok {kind slot : Nat} {ex : Bool} {act : Slu → Nat → Owned → State → State} {m : MsgIn} {s : State} {h : Slu}
    {o : Owned} {e : Seq} (g : OwnerGets kind m s h slot o e) (hk : kind ≠ 0x33) (he : h.epoch = e.ownEpoch) :
    toOwner kind ex act m s = act h slot o (answeredState slot m h s) := by
  have hs := consumeNow_same h.tenant m.source h.sseq m.bytes s
  unfold toOwner
  rw [sluIn_ok g.takes g.read g.kind (by rw [g.role]; rfl) hk]
  rw [ownedBy_same hs, g.drives]
  dsimp only
  rw [ownedAt_same hs, g.owned, seqAt_same hs, g.entry]
  dsimp only
  rw [he]
  simp only [bne_self_eq_false, Bool.and_false, Bool.false_eq_true, if_false]
  rfl

theorem answeredState_stepNo (slot : Nat) (m : MsgIn) (h : Slu) (s : State) : stepNo (answeredState slot m h s) = stepNo s :=
  consumeNow_stepNo h.tenant m.source h.sseq m.bytes s

theorem reject_effect {m : MsgIn} {s : State} {h : Slu} {slot : Nat} {o : Owned} {e : Seq}
    (g : OwnerGets 0x37 m s h slot o e) (h1 : h.epoch = e.ownEpoch) (h2 : o.superseded = false) :
    Completes (.reject m) s fun t =>
      ownedAt t slot = some { o with answered := true, superseded := true, releaseAt := some (stepNo s + 1) } ∧
      eventBit t .ownerSuperseded = true := by
  refine ⟨onReject m s, rfl, ?_⟩
  dsimp only
  unfold onReject
  rw [if_neg (by rw [g.role]; decide), toOwner_ok g (by decide) h1, h2, if_neg (by decide)]
  refine ⟨?_, eventBit_raise_same _ _⟩
  unfold ownedAt
  rw [raise_sqs]
  rw [answeredState_stepNo]
  exact updOwned_at _ (answeredState_at g).1

theorem recall_effect {m : MsgIn} {s : State} {h : Slu} {slot : Nat} {o : Owned} {e : Seq}
    (g : OwnerGets 0x38 m s h slot o e) (h1 : h.epoch = e.ownEpoch) :
    Completes (.recall m) s fun t =>
      ownedAt t slot = some (if fld m.bytes 32 1 = 2 then { o with answered := true, muteAfter := some (fld m.bytes 34 6) }
        else { o with answered := true, releaseAt := some (stepFrom s (fld m.bytes 34 6)) }) := by
  refine ⟨onRecall m s, rfl, ?_⟩
  dsimp only
  unfold onRecall
  rw [sluIn_ok g.takes g.read g.kind (by rw [g.role]; rfl) (by decide)]
  have hs := consumeNow_same h.tenant m.source h.sseq m.bytes s
  dsimp only
  rw [ownedBy_same hs, g.drives]
  dsimp only
  rw [seqAt_same hs, g.entry]
  dsimp only
  rw [if_neg (by rw [h1]; simp), updOwned_at _ (by rw [ownedAt_same hs, g.owned]), consumeNow_stepFrom]

theorem historyQuery_effect {m : MsgIn} {s : State} {h : Slu} {slot : Nat} {o : Owned} {e : Seq}
    (h1 : takesFrom s m.source = true) (h2 : roleC s = false) (h3 : readSlu m.bytes = some h) (h4 : h.kind = 0x39)
    (h5 : findRequest s h.tenant h.requestId = some slot) (h6 : seqAt s slot = some e) (h7 : ownedAt s slot = some o)
    (h8 : epochLater h.epoch e.ownEpoch = true) :
    Completes (.historyQuery m) s fun t =>
      ownedAt t slot = some { o with superseded := true, releaseAt := some (stepNo s + 1) } := by
  refine ⟨onHistoryQuery m s, rfl, ?_⟩
  dsimp only
  unfold onHistoryQuery
  rw [sluIn_ok h1 h3 h4 (by rw [h2]; rfl) (by decide)]
  have hs := consumeNow_same h.tenant m.source h.sseq m.bytes s
  have hf : findRequest (consumeNow h.tenant m.source h.sseq m.bytes s) h.tenant h.requestId = some slot := by
    unfold findRequest; rw [hs.seqs]; exact h5
  dsimp only
  rw [hf]
  dsimp only
  rw [seqAt_same hs, h6, ownedAt_same hs, h7]
  dsimp only
  rw [h8, if_neg (by decide), consumeNow_stepNo]
  rw [ownedAt_same (sendState_sameSqs _ _ _ _ (SameSqs.refl _))]
  exact updOwned_at _ (by rw [ownedAt_same hs, h7])

/-! ## Requests, queries, cancels, verdicts -/

theorem request_effect {r : Request} {s : State} (h1 : takesFrom s r.gateway = true) (h2 : roleP s = true) :
    Completes (.request r) s fun t =>
      t.sqs.waiting = s.sqs.waiting ++ [⟨3, r.tenant, r.gateway, r.sseq, 0, .ingress r⟩] := by
  refine ⟨addWait ⟨3, r.tenant, r.gateway, r.sseq, 0, .ingress r⟩ (noteFirst r.gateway r.sseq s), ?_, ?_⟩
  · show execRequest r s = _
    unfold execRequest
    simp only [h1, h2, Bool.not_true, Bool.false_eq_true, if_false]
  · show (noteFirst _ _ _).sqs.waiting ++ _ = _
    rw [(noteFirst_sameSqs _ _ (SameSqs.refl s)).waiting]

theorem admitQuery_effect {m : MsgIn} {s : State} {q : Query} (h1 : takesFrom s m.source = true) (h2 : roleC s = true)
    (h3 : readQuery m.source m.bytes = some q) :
    Completes (.admitQuery m) s fun t => t.sqs.waiting = s.sqs.waiting ++
      [if q.fork then ⟨4, q.tenant, m.source, q.sseq, 0, .join (.fork q)⟩
       else if isSegmentQuery s q then ⟨4, q.tenant, m.source, q.sseq, 0, .join (.segment m.source m.bytes)⟩
       else ⟨3, q.tenant, m.source, q.sseq, 0, .ask q⟩] := by
  refine ⟨onAdmitQuery m s, rfl, ?_⟩
  dsimp only
  unfold onAdmitQuery
  simp only [h1, h2, h3, Bool.not_true, Bool.false_eq_true, if_false]
  have hw := (noteFirst_sameSqs m.source q.sseq (SameSqs.refl s)).waiting
  have hm : isSegmentQuery (noteFirst m.source q.sseq s) q = isSegmentQuery s q := by
    unfold isSegmentQuery mapNow
    rw [(noteFirst_only (pts := [.sqs]) rfl m.source q.sseq (Only.refl _ s)).2 .slc rfl]
  rw [hm]
  split
  · show _ ++ _ = _; rw [hw]
  · split
    · show _ ++ _ = _; rw [hw]
    · show _ ++ _ = _; rw [hw]

theorem cancel_effect {c : Named} {s : State} (h1 : takesFrom s c.source = true) (h2 : roleC s = true) :
    Completes (.cancel c) s fun t =>
      t.sqs.waiting = s.sqs.waiting ++ [⟨1, c.tenant, c.source, c.sseq, 0, .cancel c.requestId⟩] := by
  refine ⟨onNamed 0x25 .cancel c s, rfl, ?_⟩
  dsimp only
  unfold onNamed
  simp only [h1, h2, Bool.not_true, Bool.false_eq_true, if_false, if_true]
  show (noteFirst _ _ _).sqs.waiting ++ _ = _
  rw [(noteFirst_sameSqs _ _ (SameSqs.refl s)).waiting]

theorem pause_effect {c : Named} {s : State} (h1 : takesFrom s c.source = true) (h2 : roleC s = true) :
    Completes (.pause c) s fun t =>
      t.sqs.waiting = s.sqs.waiting ++ [⟨1, c.tenant, c.source, c.sseq, 0, .pause c.requestId⟩] := by
  refine ⟨onNamed 0x26 .pause c s, rfl, ?_⟩
  dsimp only
  unfold onNamed
  simp only [h1, h2, Bool.not_true, Bool.false_eq_true, if_false, if_true]
  show (noteFirst _ _ _).sqs.waiting ++ _ = _
  rw [(noteFirst_sameSqs _ _ (SameSqs.refl s)).waiting]

/-- CANCEL at a P module that neither asks nor drives for the request. -/
theorem cancel_unknown {c : Named} {s : State} (h1 : takesFrom s c.source = true) (h2 : roleP s = true)
    (h3 : keeperAsked s c.tenant c.requestId = none) :
    Completes (.cancel c) s fun t => t.sqs.waiting = s.sqs.waiting ∧ eventBit t .cancelUnknown = true := by
  have h4 : roleC s = false := by
    unfold roleP at h2
    unfold roleC
    have : s.stw.charter.role = 0 := by simpa using h2
    rw [this]; rfl
  have hs := consumeNow_same c.tenant c.source c.sseq (namedBytes 0x25 c.tenant c.requestId) s
  have hk : keeperAsked (consumeNow c.tenant c.source c.sseq (namedBytes 0x25 c.tenant c.requestId) s) c.tenant c.requestId = none := by
    unfold keeperAsked findRequest at *
    rw [hs.fronted, hs.seqs]
    have : ∀ k, ownedAt (consumeNow c.tenant c.source c.sseq (namedBytes 0x25 c.tenant c.requestId) s) k = ownedAt s k :=
      fun k => ownedAt_same hs k
    rw [show ownedAt (consumeNow c.tenant c.source c.sseq (namedBytes 0x25 c.tenant c.requestId) s) = ownedAt s from funext this]
    exact h3
  refine ⟨raise .cancelUnknown (consumeNow c.tenant c.source c.sseq (namedBytes 0x25 c.tenant c.requestId) s), ?_, ?_, ?_⟩
  · show Host.Outcome.next (onNamed 0x25 .cancel c s) = _
    unfold onNamed forwardNamed
    simp only [h1, h2, h4, Bool.not_true, Bool.false_eq_true, if_false, if_true, hk]
  · rw [raise_sqs]; exact hs.waiting
  · exact eventBit_raise_same _ _

theorem verdict_member {m : MsgIn} {s : State} {v : Verdict} (h1 : takesFrom s m.source = true) (h2 : roleC s = true)
    (h3 : readVerdict m.bytes = some v) :
    Completes (.verdict m) s fun t => t.sqs.ringAsks = s.sqs.ringAsks.map (fun a =>
      if a.query.tenant = v.tenant ∧ a.query.requestId = v.requestId ∧ a.members.contains m.source ∧
          !a.answers.any (fun x => x.1 == m.source) then
        { a with answers := a.answers ++ [(m.source, v.outcome, v.reason, v.step, v.handle)] }
      else a) := by
  have hr : s.stw.charter.role = 2 := by
    unfold roleC at h2
    simpa using h2
  have hp : roleP (consumeUnnumbered v.tenant m.source m.bytes s) = false := by
    unfold roleP
    rw [(consumeUnnumbered_only (pts := [.hif, .hlt, .status, .counters, .mem]) rfl _ _ _ (Only.refl _ s)).2 .stw rfl, hr]; rfl
  refine ⟨onVerdict m s, rfl, ?_⟩
  dsimp only
  unfold onVerdict
  simp only [h1, h3, hr, hp, Bool.not_true, Bool.false_eq_true, if_false]
  rw [if_neg (by decide)]
  unfold memberVerdict
  dsimp only
  rw [(consumeUnnumbered_sameSqs _ _ _ (SameSqs.refl s)).ringAsks]

/-! ## Timers -/

theorem enterOrphan_at {slot : Nat} {s : State} {e : Seq} {r : OwnRec} (h1 : seqAt s slot = some e) (h2 : recAt s slot = some r) :
    recAt (enterOrphan slot s) slot = some { r with
      state := .orphaned, epoch := nextEpoch r.epoch, quiet := 0, acked := false, next := Config.none32, granted := false
      outgoing := none, policyDue := true } ∧
    seqAt (enterOrphan slot s) slot = some { e with source := r.owner, ownEpoch := nextEpoch r.epoch, state := .orphaned } ∧
    eventBit (enterOrphan slot s) .sequenceOrphaned = true := by
  unfold enterOrphan
  rw [h1, h2]
  dsimp only
  refine ⟨?_, ?_, eventBit_bump_of (eventBit_raise_same _ _)⟩
  · unfold recAt
    rw [bump_slc, raise_slc]
    exact setRec_recAt _ _ _
  · unfold seqAt
    rw [bump_sqs, raise_sqs]
    have k1 : seqAt (setRec slot { r with state := .orphaned, epoch := nextEpoch r.epoch, quiet := 0, acked := false
                                          next := Config.none32, granted := false, outgoing := none, policyDue := true } s) slot =
        some { e with source := r.owner, ownEpoch := nextEpoch r.epoch } := by
      unfold setRec
      exact updSeq_at _ (show seqAt { s with slc := _ } slot = some e from h1)
    exact updSeq_at (fun e => { e with state := .orphaned }) k1

theorem reissueAckTimeout_effect {slot : Nat} {s : State} {e : Seq} {r : OwnRec} (h1 : inService s = true)
    (h2 : seqAt s slot = some e) (h3 : recAt s slot = some r) (h4 : r.state = .reissued) :
    Completes (.reissueAckTimeout slot) s fun t =>
      recAt t slot = some { r with
        state := .orphaned, epoch := nextEpoch r.epoch, quiet := 0, acked := false, next := Config.none32, granted := false
        outgoing := none, policyDue := true } ∧
      seqAt t slot = some { e with source := r.owner, ownEpoch := nextEpoch r.epoch, state := .orphaned } ∧
      eventBit t .sequenceOrphaned = true := by
  refine ⟨enterOrphan slot (setNow (r.sentAt + periodNs s) s), ?_, enterOrphan_at h2 h3⟩
  show execReissueAckTimeout slot s = _
  unfold execReissueAckTimeout
  rw [h3]
  dsimp only
  rw [h1, h4]
  rfl

theorem rehomingTimeout_effect {slot : Nat} {s : State} {e : Seq} {r : OwnRec} (h1 : inService s = true)
    (h2 : seqAt s slot = some e) (h3 : recAt s slot = some r) (h4 : r.state = .rehoming) :
    Completes (.rehomingTimeout slot) s fun t =>
      t = { s with
        tmu := { s.tmu with now := max s.tmu.now (r.sentAt + periodNs s) }
        sqs := { s.sqs with waiting := s.sqs.waiting ++ (if resumePending s slot e.handle then [] else
          [⟨4, e.tenant, s.fab.node, 0, 0, .join (.reprefill slot e.handle)⟩]) } } := by
  have hr : resumePending (setNow (r.sentAt + periodNs s) s) slot e.handle = resumePending s slot e.handle := rfl
  refine ⟨resumeWait slot e (setNow (r.sentAt + periodNs s) s), ?_, ?_⟩
  rotate_left
  · unfold resumeWait
    rw [hr]
    split
    · rw [List.append_nil]
      rfl
    · rfl
  show execRehomingTimeout slot s = _
  unfold execRehomingTimeout
  rw [h2, h3]
  dsimp only
  rw [h1, h4]
  rfl

theorem rehomeWaitExpired_effect {slot n : Nat} {s : State} {o : Owned} (h1 : inService s = true)
    (h2 : ownedAt s slot = some o) (h3 : o.heldSince = some n) (h4 : n + s.stw.charter.rehomeWait ≤ stepNo s) :
    Completes (.rehomeWaitExpired slot) s fun t =>
      ownedAt t slot = some { o with releaseAt := some (stepNo s + 1), superseded := true } ∧
      t = { s with sqs := { s.sqs with owned := t.sqs.owned } } := by
  refine ⟨updOwned slot (fun o => { o with releaseAt := some (stepNo s + 1), superseded := true }) s, ?_, updOwned_at _ h2, rfl⟩
  show execRehomeWaitExpired slot s = _
  unfold execRehomeWaitExpired
  rw [h2]
  dsimp only
  rw [h3]
  dsimp only
  rw [h1, decide_eq_true h4]
  rfl

end Sys2Proof.Machine
end

