-- ==== Sys2Proof/Laws/EffFragments.lean ====
section
/-! SUPPORT. What the fragment messages and their timers do (R246 to R251). -/

namespace Sys2Proof.Machine

open Sys2Proof.Safety

theorem unnumbered_parts (tenant source : Nat) (bytes : List Byte) (s : State) :
    Only [.hif, .hlt, .status, .counters, .mem] s (consumeUnnumbered tenant source bytes s) :=
  consumeUnnumbered_only rfl tenant source bytes (Only.refl _ s)

theorem unnumbered_cmp (tenant source : Nat) (bytes : List Byte) (s : State) :
    (consumeUnnumbered tenant source bytes s).cmp = s.cmp := (unnumbered_parts _ _ _ s).2 .cmp rfl

theorem unnumbered_stepNo (tenant source : Nat) (bytes : List Byte) (s : State) :
    stepNo (consumeUnnumbered tenant source bytes s) = stepNo s := by
  unfold stepNo stepAt epochNs periodNs
  rw [(unnumbered_parts _ _ _ s).2 .tmu rfl]

theorem unnumbered_out (tenant source : Nat) (bytes : List Byte) (s : State) :
    (consumeUnnumbered tenant source bytes s).hlt.digestOut = s.hlt.digestOut :=
  consumeUnnumbered_sameOut tenant source bytes (SameOut.refl s)

theorem updDesc_at {i : Nat} {d : Desc} {s : State} (f : Desc → Desc) (h : descAt s i = some d) :
    descAt (updDesc i f s) i = some (f d) := by
  unfold updDesc descAt at *
  dsimp only
  rw [Tab.look_upd, if_pos rfl, h]
  rfl

theorem fragIn_ok {kind : Nat} {act : FragHdr → State → State} {m : MsgIn} {s : State} {h : FragHdr} (g : FragGets kind m s h) :
    fragIn kind act m s = act h (consumeUnnumbered h.tenant m.source m.bytes s) := by
  unfold fragIn
  simp only [g.takes, g.read, g.role, Bool.not_true, Bool.false_eq_true, if_false]

theorem sendFrag_cmp (dest i f : Nat) (h : FragHdr) (s : State) : (sendFrag dest i f h s).cmp = s.cmp :=
  (sendFrag_only (pts := [.fab, .wei, .hlt]) rfl dest i f h (Only.refl _ s)).2 .cmp rfl

theorem fragAnswer_cmp (dest kind status : Nat) (h : FragHdr) (bytes : List Byte) (s : State) :
    (fragAnswer dest kind status h bytes s).cmp = s.cmp := sendFrag_cmp _ _ _ _ s

theorem fragAnswer_out (dest kind status : Nat) (h : FragHdr) (bytes : List Byte) (s : State) :
    (fragAnswer dest kind status h bytes s).hlt.digestOut =
      digestAdd s.hlt.digestOut dest 0 ({ h with kind := kind, status := status, step := stepNo s, bytes := bytes } : FragHdr).whole := by
  unfold fragAnswer
  rw [sendFrag_out]

theorem chargeTier_parts (x : Tier) (d n : Nat) (s : State) : Only [.hif, .hlt, .status] s (chargeTier x d n s) :=
  chargeTier_only rfl x d n (Only.refl _ s)

theorem charge_out (d k n : Nat) (s : State) : (charge d k n s).hlt.digestOut = s.hlt.digestOut := by
  unfold charge
  dsimp only
  rw [wEvent_hlt, wEvent_hlt]
  rfl

theorem chargeTier_out (x : Tier) (d n : Nat) (s : State) : (chargeTier x d n s).hlt.digestOut = s.hlt.digestOut := by
  unfold chargeTier
  split
  · exact charge_out _ _ _ s
  · exact charge_out _ _ _ s
  · rfl

theorem chargeTier_stepNo (x : Tier) (d n : Nat) (s : State) : stepNo (chargeTier x d n s) = stepNo s := by
  unfold stepNo stepAt epochNs periodNs
  rw [(chargeTier_parts x d n s).2 .tmu rfl]

/-- What a holder does with a fragment put to it, its pool being of `pool` bytes. -/
def holdIn (pool source : Nat) (h : FragHdr) (s : State) : State :=
  if pool < ((s.cmp.held.filter (fun x => !x.is h)).map (fun x => x.bytes.length)).sum + h.bytes.length then
    fragAnswer source 0x41 1 h [] (raise .fragmentFull s)
  else fragAnswer source 0x41 0 h [] (chargeTier .cxl h.tenant h.bytes.length
    { s with cmp := { s.cmp with held := s.cmp.held.filter (fun x => !x.is h) ++
      [{ keeper := h.keeper, index := h.index, generation := h.generation, frag := h.frag, tenant := h.tenant
         tableId := h.tableId, imageLen := h.imageLen, bytes := h.bytes, crc := crc32c h.bytes }] } })

theorem holdIn_stored {pool source : Nat} {h : FragHdr} {s : State}
    (h1 : ((s.cmp.held.filter (fun x => !x.is h)).map (fun x => x.bytes.length)).sum + h.bytes.length ≤ pool) :
    (holdIn pool source h s).cmp = { s.cmp with held := s.cmp.held.filter (fun x => !x.is h) ++
      [{ keeper := h.keeper, index := h.index, generation := h.generation, frag := h.frag, tenant := h.tenant
         tableId := h.tableId, imageLen := h.imageLen, bytes := h.bytes, crc := crc32c h.bytes }] } ∧
    SentOne s (holdIn pool source h s) source
      ({ h with kind := 0x41, status := 0, step := stepNo s, bytes := [] } : FragHdr).whole := by
  unfold holdIn
  rw [if_neg (by omega)]
  refine ⟨by rw [fragAnswer_cmp, (chargeTier_parts _ _ _ _).2 .cmp rfl], ?_⟩
  unfold SentOne
  rw [fragAnswer_out, chargeTier_out, chargeTier_stepNo]
  rfl

theorem holdIn_full {pool source : Nat} {h : FragHdr} {s : State}
    (h1 : pool < ((s.cmp.held.filter (fun x => !x.is h)).map (fun x => x.bytes.length)).sum + h.bytes.length) :
    (holdIn pool source h s).cmp = s.cmp ∧ eventBit (holdIn pool source h s) .fragmentFull = true ∧
    SentOne s (holdIn pool source h s) source
      ({ h with kind := 0x41, status := 1, step := stepNo s, bytes := [] } : FragHdr).whole := by
  unfold holdIn
  rw [if_pos h1]
  refine ⟨by rw [fragAnswer_cmp, raise_cmp], ?_, ?_⟩
  · exact (sendFrag_grows _ _ _ _ (Grows.refl _)).bits _ (eventBit_raise_same _ _)
  · unfold SentOne
    rw [fragAnswer_out, raise_sameOut _ (SameOut.refl s)]
    have : stepNo (raise .fragmentFull s) = stepNo s := by
      unfold stepNo stepAt epochNs periodNs
      rw [raise_tmu]
    rw [this]

theorem onFragmentPut_ok {m : MsgIn} {s : State} {h : FragHdr} (g : FragGets 0x40 m s h) :
    onFragmentPut m s = holdIn (s.stw.charter.fragPool * gib) m.source h (consumeUnnumbered h.tenant m.source m.bytes s) := by
  unfold onFragmentPut
  rw [fragIn_ok g]
  unfold holdIn
  rw [← (unnumbered_parts h.tenant m.source m.bytes s).2 .stw rfl]

theorem fragmentPut_stored {m : MsgIn} {s : State} {h : FragHdr} (g : FragGets 0x40 m s h)
    (h1 : ((s.cmp.held.filter (fun x => !x.is h)).map (fun x => x.bytes.length)).sum + h.bytes.length ≤
      s.stw.charter.fragPool * gib) :
    Completes (.fragmentPut m) s fun t =>
      t.cmp = { s.cmp with held := s.cmp.held.filter (fun x => !x.is h) ++
        [{ keeper := h.keeper, index := h.index, generation := h.generation, frag := h.frag, tenant := h.tenant
           tableId := h.tableId, imageLen := h.imageLen, bytes := h.bytes, crc := crc32c h.bytes }] } ∧
      SentOne s t m.source ({ h with kind := 0x41, status := 0, step := stepNo s, bytes := [] } : FragHdr).whole := by
  obtain ⟨u, hu⟩ : ∃ u, u = consumeUnnumbered h.tenant m.source m.bytes s := ⟨_, rfl⟩
  have hc : u.cmp = s.cmp := by rw [hu, unnumbered_cmp]
  have hk := holdIn_stored (pool := s.stw.charter.fragPool * gib) (source := m.source) (h := h) (s := u) (by rw [hc]; exact h1)
  unfold SentOne at hk
  rw [hc, show stepNo u = stepNo s by rw [hu, unnumbered_stepNo], show u.hlt.digestOut = s.hlt.digestOut by rw [hu, unnumbered_out],
    hu, ← onFragmentPut_ok g] at hk
  exact ⟨_, rfl, hk⟩

theorem fragmentPut_full {m : MsgIn} {s : State} {h : FragHdr} (g : FragGets 0x40 m s h)
    (h1 : s.stw.charter.fragPool * gib <
      ((s.cmp.held.filter (fun x => !x.is h)).map (fun x => x.bytes.length)).sum + h.bytes.length) :
    Completes (.fragmentPut m) s fun t =>
      t.cmp = s.cmp ∧ eventBit t .fragmentFull = true ∧
      SentOne s t m.source ({ h with kind := 0x41, status := 1, step := stepNo s, bytes := [] } : FragHdr).whole := by
  obtain ⟨u, hu⟩ : ∃ u, u = consumeUnnumbered h.tenant m.source m.bytes s := ⟨_, rfl⟩
  have hc : u.cmp = s.cmp := by rw [hu, unnumbered_cmp]
  have hk := holdIn_full (pool := s.stw.charter.fragPool * gib) (source := m.source) (h := h) (s := u) (by rw [hc]; exact h1)
  unfold SentOne at hk
  rw [hc, show stepNo u = stepNo s by rw [hu, unnumbered_stepNo], show u.hlt.digestOut = s.hlt.digestOut by rw [hu, unnumbered_out],
    hu, ← onFragmentPut_ok g] at hk
  exact ⟨_, rfl, hk⟩

theorem fragmentGet_whole {m : MsgIn} {s : State} {h : FragHdr} {x : HeldFrag} (g : FragGets 0x42 m s h)
    (h1 : s.cmp.held.find? (fun x => x.is h) = some x) (h2 : crc32c x.bytes = x.crc) :
    Completes (.fragmentGet m) s fun t =>
      t.cmp = s.cmp ∧ SentOne s t m.source ({ h with
        kind := 0x43, status := 0, step := stepNo s, imageLen := x.imageLen, tableId := x.tableId
        fragLen := x.bytes.length, bytes := x.bytes } : FragHdr).whole := by
  refine ⟨onFragmentGet m s, rfl, ?_⟩
  dsimp only
  unfold onFragmentGet
  rw [fragIn_ok g]
  rw [unnumbered_cmp, h1]
  dsimp only
  rw [if_pos h2]
  refine ⟨by rw [fragAnswer_cmp, (chargeTier_parts _ _ _ _).2 .cmp rfl, unnumbered_cmp], ?_⟩
  unfold SentOne
  rw [fragAnswer_out, chargeTier_out, chargeTier_stepNo, unnumbered_out, unnumbered_stepNo]

theorem fragmentGet_absent {m : MsgIn} {s : State} {h : FragHdr} (g : FragGets 0x42 m s h)
    (h1 : s.cmp.held.find? (fun x => x.is h) = none) :
    Completes (.fragmentGet m) s fun t =>
      t.cmp = s.cmp ∧ SentOne s t m.source ({ h with
        kind := 0x43, status := 2, step := stepNo s, fragLen := 0, bytes := [] } : FragHdr).whole := by
  refine ⟨onFragmentGet m s, rfl, ?_⟩
  dsimp only
  unfold onFragmentGet
  rw [fragIn_ok g]
  rw [unnumbered_cmp, h1]
  refine ⟨by rw [fragAnswer_cmp, unnumbered_cmp], ?_⟩
  unfold SentOne
  rw [fragAnswer_out, unnumbered_out, unnumbered_stepNo]

theorem fragmentFree_effect {m : MsgIn} {s : State} {h : FragHdr} (g : FragGets 0x44 m s h) :
    Completes (.fragmentFree m) s fun t =>
      t.cmp = { s.cmp with held := s.cmp.held.filter (fun x => !x.is h) } := by
  refine ⟨onFragmentFree m s, rfl, ?_⟩
  dsimp only
  unfold onFragmentFree
  rw [fragIn_ok g]
  dsimp only
  rw [unnumbered_cmp]

theorem codingOf_same {s t : State} (h : t.cmp = s.cmp) (x : FragHdr) : codingOf t x = codingOf s x := by
  unfold codingOf; rw [h]

theorem setCoding_at (i : Nat) (c : Coding) (s : State) : codingAt (setCoding i c s) i = some c := by
  unfold codingAt setCoding
  exact Tab.look_put_same _ _ _

theorem fragmentAck_stored {m : MsgIn} {s : State} {h : FragHdr} {i : Nat} {c : Coding} (g : FragGets 0x41 m s h)
    (h1 : codingOf s h = some (i, c)) (h2 : c.holders[h.frag]? = some m.source) (h3 : c.acked.contains h.frag = false)
    (h4 : h.status = 0) (h5 : c.freeing = false) :
    Completes (.fragmentAck m) s fun t =>
      t.cmp = { s.cmp with coding := Tab.put i { c with acked := c.acked ++ [h.frag] } s.cmp.coding } := by
  refine ⟨onFragmentAck m s, rfl, ?_⟩
  dsimp only
  unfold onFragmentAck
  rw [fragIn_ok g]
  dsimp only
  rw [codingOf_same (unnumbered_cmp _ _ _ _), h1]
  dsimp only
  rw [if_neg (by rw [h2, h3]; simp), if_pos h4, h5]
  simp only [Bool.false_and, Bool.false_eq_true, if_false]
  unfold setCoding
  dsimp only
  rw [unnumbered_cmp]

theorem noteReduced_coding (c : Coding) (s : State) : (noteReduced c s).cmp.coding = s.cmp.coding := by
  unfold noteReduced
  dsimp only
  split
  · show (raiseIf _ _ s).cmp.coding = _
    rw [(raiseIf_only (pts := [.hif, .status]) rfl _ _ (Only.refl _ s)).2 .cmp rfl]
  · rw [(raiseIf_only (pts := [.hif, .status]) rfl _ _ (Only.refl _ s)).2 .cmp rfl]

theorem noteReduced_nodes (c : Coding) (s : State) (k i n : Nat) : fragNodes (noteReduced c s) k i n = fragNodes s k i n := by
  have h := (noteReduced_only (pts := [.cmp, .hif, .status]) rfl c (Only.refl _ s)).2
  unfold fragNodes mapNow
  rw [h .slc rfl, h .fab rfl]

/-- What a put leaves of a descriptor's coding. -/
theorem putFrag_coding (i f : Nat) {c : Coding} {s : State} (h : codingAt s i = some c) :
    ∃ hs u, codingAt (putFrag i f s) i = some { c with holders := hs, unprotected := u } := by
  unfold putFrag
  rw [h]
  dsimp only
  rw [noteReduced_nodes]
  split
  · rename_i d hd
    refine ⟨c.holders.set f d, c.unprotected, ?_⟩
    unfold codingAt
    rw [sendFrag_cmp]
    exact setCoding_at _ _ _
  · split
    · exact ⟨_, true, setCoding_at _ _ _⟩
    · refine ⟨c.holders.set f Config.none32, true, ?_⟩
      unfold codingAt
      rw [raise_cmp, (decRef_only (pts := [.pgm]) rfl i (Only.refl _ _)).2 .cmp rfl]
      exact setCoding_at _ _ _

theorem fragmentAck_full {m : MsgIn} {s : State} {h : FragHdr} {i : Nat} {c : Coding} (g : FragGets 0x41 m s h)
    (h1 : codingOf s h = some (i, c)) (h2 : c.holders[h.frag]? = some m.source) (h3 : c.acked.contains h.frag = false)
    (h4 : h.status = 1) :
    Completes (.fragmentAck m) s fun t =>
      ∃ hs u, codingAt t i = some { c with
        next := Tab.put h.frag (Tab.getD c.next h.frag 0 + 1) c.next, holders := hs, unprotected := u } := by
  refine ⟨onFragmentAck m s, rfl, ?_⟩
  dsimp only
  unfold onFragmentAck
  rw [fragIn_ok g]
  dsimp only
  rw [codingOf_same (unnumbered_cmp _ _ _ _), h1]
  dsimp only
  rw [if_neg (by rw [h2, h3]; simp), if_neg (by omega), if_pos h4]
  exact putFrag_coding i h.frag (setCoding_at _ _ _)

theorem fragmentLost_effect {m : MsgIn} {s : State} {h : FragHdr} {i : Nat} {c : Coding} (g : FragGets 0x45 m s h)
    (h1 : codingOf s h = some (i, c)) (h2 : c.holders[h.frag]? = some m.source) (h3 : c.acked.contains h.frag = true) :
    Completes (.fragmentLost m) s fun t =>
      ∃ hs u, codingAt t i = some { c with
        acked := c.acked.filter (· ≠ h.frag), isProtected := false, next := Tab.put h.frag 0 c.next, holders := hs
        unprotected := u } := by
  refine ⟨onFragmentLost m s, rfl, ?_⟩
  dsimp only
  unfold onFragmentLost
  rw [fragIn_ok g]
  dsimp only
  rw [codingOf_same (unnumbered_cmp _ _ _ _), h1]
  dsimp only
  rw [if_neg (by rw [h2, h3]; simp)]
  exact putFrag_coding i h.frag (setCoding_at _ _ _)

theorem onFragmentData_ok {m : MsgIn} {s : State} {h : FragHdr} {i : Nat} {c : Coding} {got : Tab (List Byte)}
    (g : FragGets 0x43 m s h) (h1 : codingOf s h = some (i, c)) (h2 : h.status = 0) (h3 : c.rebuild = some got) :
    onFragmentData m s = tryRebuild i (setCoding i { (told c s h) with rebuild := some (Tab.put h.frag h.bytes got) }
      (consumeUnnumbered h.tenant m.source m.bytes s)) := by
  unfold onFragmentData
  rw [fragIn_ok g]
  dsimp only
  rw [codingOf_same (unnumbered_cmp _ _ _ _), h1]
  dsimp only
  have hn : (consumeUnnumbered h.tenant m.source m.bytes s).fab = s.fab := (unnumbered_parts _ _ _ s).2 .fab rfl
  rw [if_neg (by omega), hn]
  unfold told
  have : (if c.keeper = s.fab.node then c
      else { c with imageLen := h.imageLen, fragLen := h.fragLen, tableId := h.tableId }).rebuild = some got := by
    split <;> exact h3
  rw [this]

theorem fragmentData_kept {m : MsgIn} {s : State} {h : FragHdr} {i : Nat} {c : Coding} {got : Tab (List Byte)}
    (g : FragGets 0x43 m s h) (h1 : codingOf s h = some (i, c)) (h2 : h.status = 0) (h3 : c.rebuild = some got)
    (h5 : (Tab.put h.frag h.bytes got).length < 8) :
    Completes (.fragmentData m) s fun t =>
      codingAt t i = some { (told c s h) with rebuild := some (Tab.put h.frag h.bytes got) } := by
  refine ⟨onFragmentData m s, rfl, ?_⟩
  dsimp only
  rw [onFragmentData_ok g h1 h2 h3]
  generalize consumeUnnumbered h.tenant m.source m.bytes s = v
  generalize told c s h = c'
  have hc := setCoding_at i { c' with rebuild := some (Tab.put h.frag h.bytes got) } v
  unfold tryRebuild
  rw [hc]
  split
  · rename_i c2 d e1 e2
    simp only [Option.some.injEq] at e1
    subst e1
    dsimp only
    rw [if_pos h5]
    exact hc
  · exact hc

theorem rebuiltBlocks_same {s t : State} (h1 : t.mdl = s.mdl) (h2 : t.stw = s.stw) (h3 : t.sec = s.sec) (d : Desc) (c : Coding)
    (got : Tab (List Byte)) : rebuiltBlocks t d c got = rebuiltBlocks s d c got := by
  unfold rebuiltBlocks ctxOf pageTokens memoryKey
  rw [h1, h2, h3]

/-- A rebuilt page is sound, with its blocks locked by their new addresses (R244, R251). -/
theorem storeRebuilt_at {i : Nat} {d x : Desc} {c : Coding} {bs : List RawBlock} {s : State} (h : descAt s i = some x) :
    ∃ e, descAt (storeRebuilt i d c bs s) i = some e ∧ e.damaged = false ∧ e.tableId = c.tableId ∧
      e.blocks = lockAll (memoryKey s c.tenant) e.homeExt bs := by
  unfold storeRebuilt
  dsimp only
  obtain ⟨p, hp⟩ : ∃ p, p = takeExtents (kvTier s) (extentsFor (bs.map (fun b => b.2.length))) [] s := ⟨_, rfl⟩
  have kp : Only [.free] s p.2 := by
    rw [hp]
    exact takeExtents_only rfl _ _ _ (Only.refl _ s)
  rw [← hp]
  obtain ⟨q, hq⟩ : ∃ q, q = (if d.homeMap.isSome then (d.homeMap, p.2) else takeMap (kvTier s) d.mapClass [] p.2) := ⟨_, rfl⟩
  have kq : Only [.free] s q.2 := by
    rw [hq]
    split
    · exact kp
    · exact takeMap_only rfl _ _ _ kp
  rw [← hq]
  have hx : descAt (chargeTier (kvTier s) c.tenant c.imageLen q.2) i = some x := by
    unfold descAt at *
    rw [(chargeTier_parts _ _ _ q.2).2 .pgm rfl, kq.2 .pgm rfl]
    exact h
  exact ⟨_, updDesc_at _ hx, rfl, rfl, rfl⟩

theorem fragmentData_rebuilt {m : MsgIn} {s : State} {h : FragHdr} {i : Nat} {c : Coding} {got : Tab (List Byte)} {d : Desc}
    {bs : List RawBlock} (g : FragGets 0x43 m s h) (h1 : codingOf s h = some (i, c)) (h2 : h.status = 0)
    (h3 : c.rebuild = some got) (h5 : 8 ≤ (Tab.put h.frag h.bytes got).length) (h6 : descAt s i = some d)
    (h7 : rebuiltBlocks s d { (told c s h) with rebuild := some (Tab.put h.frag h.bytes got) } (Tab.put h.frag h.bytes got) = some bs) :
    Completes (.fragmentData m) s fun t =>
      (c.keeper = s.fab.node ∧ c.index = i → codingAt t i = some { c with rebuild := none }) ∧
      ∃ e, descAt t i = some e ∧ e.damaged = false ∧ e.blocks = lockAll (memoryKey s c.tenant) e.homeExt bs := by
  refine ⟨onFragmentData m s, rfl, ?_⟩
  dsimp only
  rw [onFragmentData_ok g h1 h2 h3]
  obtain ⟨v, hv⟩ : ∃ v, v = consumeUnnumbered h.tenant m.source m.bytes s := ⟨_, rfl⟩
  have kv := (unnumbered_parts h.tenant m.source m.bytes s).2
  rw [← hv] at kv
  rw [← hv]
  obtain ⟨c', hc'⟩ : ∃ c', c' = told c s h := ⟨_, rfl⟩
  have hk : c'.keeper = c.keeper ∧ c'.index = c.index ∧ c'.tenant = c.tenant ∧ (c.keeper = s.fab.node → c' = c) := by
    rw [hc']
    unfold told
    split
    · exact ⟨rfl, rfl, rfl, fun _ => rfl⟩
    · exact ⟨rfl, rfl, rfl, fun h => absurd h (by assumption)⟩
  rw [← hc'] at h7
  rw [← hc']
  have hd : descAt (setCoding i { c' with rebuild := some (Tab.put h.frag h.bytes got) } v) i = some d := by
    unfold descAt setCoding at *
    dsimp only
    rw [kv .pgm rfl]
    exact h6
  unfold tryRebuild
  rw [setCoding_at, hd]
  dsimp only
  rw [if_neg (by omega), rebuiltBlocks_same (kv .mdl rfl) (kv .stw rfl) (kv .sec rfl)
    (t := setCoding i { c' with rebuild := some (Tab.put h.frag h.bytes got) } v), h7]
  dsimp only
  have hsec : ∀ k, memoryKey (setCoding i { c' with rebuild := some (Tab.put h.frag h.bytes got) } v) k = memoryKey s k := by
    intro k
    unfold memoryKey setCoding
    dsimp only
    rw [kv .sec rfl]
  have hf : (setCoding i { c' with rebuild := some (Tab.put h.frag h.bytes got) } v).fab = s.fab := kv .fab rfl
  generalize setCoding i { c' with rebuild := some (Tab.put h.frag h.bytes got) } v = w at hd hsec hf
  have hcmp : ∀ (x : State) (y : Desc) (z : Coding) (zs : List RawBlock), (bump cRebuild 1 (storeRebuilt i y z zs x)).cmp = x.cmp := by
    intro x y z zs
    rw [bump_cmp, (storeRebuilt_only (pts := [.pgm, .hif, .hlt, .status, .free]) rfl i y z zs (Only.refl _ x)).2 .cmp rfl]
  split
  · rename_i ho
    constructor
    · intro _
      unfold codingAt
      rw [hcmp]
      have := setCoding_at i { c' with rebuild := none } w
      unfold codingAt at this
      rw [this, hk.2.2.2 (by rw [← hk.1, ho.1, hf])]
    · obtain ⟨e, k1, k2, _, k4⟩ := storeRebuilt_at (i := i) (d := d)
        (c := { c' with rebuild := some (Tab.put h.frag h.bytes got) }) (bs := bs) (s := setCoding i { c' with rebuild := none } w) hd
      refine ⟨e, by unfold descAt at *; rw [bump_pgm]; exact k1, k2, ?_⟩
      rw [k4, show memoryKey (setCoding i { c' with rebuild := none } w) _ = memoryKey s _ from hsec _]
      dsimp only
      rw [hk.2.2.1]
  · rename_i ho
    constructor
    · intro hc
      exact absurd ⟨by rw [hk.1, hf]; exact hc.1, by rw [hk.2.1]; exact hc.2⟩ ho
    · obtain ⟨w', hw'⟩ : ∃ w' : State, w' = { w with cmp := { w.cmp with
          coding := Tab.del i w.cmp.coding
          oldRefs := w.cmp.oldRefs ++ [(i, c'.keeper, c'.index, c'.generation, c'.holders)] } } := ⟨_, rfl⟩
      have hd' : descAt w' i = some d := by rw [hw']; exact hd
      have hs' : ∀ k, memoryKey w' k = memoryKey s k := by rw [hw']; exact hsec
      obtain ⟨e, k1, k2, _, k4⟩ := storeRebuilt_at (i := i) (d := d)
        (c := { c' with rebuild := some (Tab.put h.frag h.bytes got) }) (bs := bs) hd'
      refine ⟨e, ?_, k2, ?_⟩
      · unfold descAt at *
        rw [bump_pgm, ← hw']
        exact k1
      · rw [k4, hs']
        dsimp only
        rw [hk.2.2.1]

/-- Eight fragments whose page fails its CHECK leave the page to wait and raise BLOCK_DAMAGED (R246, R251). -/
theorem fragmentData_damaged {m : MsgIn} {s : State} {h : FragHdr} {i : Nat} {c : Coding} {got : Tab (List Byte)} {d : Desc}
    (g : FragGets 0x43 m s h) (h1 : codingOf s h = some (i, c)) (h2 : h.status = 0)
    (h3 : c.rebuild = some got) (h5 : 8 ≤ (Tab.put h.frag h.bytes got).length) (h6 : descAt s i = some d)
    (h7 : rebuiltBlocks s d { (told c s h) with rebuild := some (Tab.put h.frag h.bytes got) } (Tab.put h.frag h.bytes got) = none) :
    Completes (.fragmentData m) s fun t =>
      codingAt t i = some { (told c s h) with rebuild := some (Tab.put h.frag h.bytes got) } ∧ descAt t i = some d ∧
      eventBit t .blockDamaged = true := by
  refine ⟨onFragmentData m s, rfl, ?_⟩
  dsimp only
  rw [onFragmentData_ok g h1 h2 h3]
  have kv := (unnumbered_parts h.tenant m.source m.bytes s).2
  generalize consumeUnnumbered h.tenant m.source m.bytes s = v at kv
  generalize told c s h = c' at h7
  have hd : descAt (setCoding i { c' with rebuild := some (Tab.put h.frag h.bytes got) } v) i = some d := by
    unfold descAt setCoding at *
    dsimp only
    rw [kv .pgm rfl]
    exact h6
  unfold tryRebuild
  rw [setCoding_at, hd]
  dsimp only
  rw [if_neg (by omega), rebuiltBlocks_same (kv .mdl rfl) (kv .stw rfl) (kv .sec rfl)
    (t := setCoding i { c' with rebuild := some (Tab.put h.frag h.bytes got) } v), h7]
  dsimp only
  have hc := setCoding_at i { c' with rebuild := some (Tab.put h.frag h.bytes got) } v
  generalize setCoding i { c' with rebuild := some (Tab.put h.frag h.bytes got) } v = w at hc hd
  unfold blockDamaged damageFound
  refine ⟨?_, ?_, eventBit_raise_same _ _⟩
  · unfold codingAt at *
    rw [raise_cmp, bump_cmp]
    exact hc
  · unfold descAt at *
    rw [raise_pgm, bump_pgm]
    exact hd

theorem fragmentPutTimeout_effect {desc frag d : Nat} {s : State} {c : Coding} (h1 : inService s = true)
    (h2 : codingAt s desc = some c) (h3 : frag < 10) (h4 : c.acked.contains frag = false)
    (h5 : c.holders.getD frag Config.none32 ≠ Config.none32) (h6 : c.keeper = s.fab.node)
    (h7 : fragTry (fragNodes s c.keeper c.index c.generation) frag (Tab.getD c.next frag 0) = some d) :
    Completes (.fragmentPutTimeout desc frag) s fun t =>
      codingAt t desc = some { c with holders := c.holders.set frag d } ∧
      SentOne s t d (c.header s 0x40 frag (c.frags.getD frag [])).whole := by
  refine ⟨putFrag desc frag s, ?_, ?_⟩
  · show execFragmentPutTimeout desc frag s = _
    unfold execFragmentPutTimeout
    rw [h2]
    dsimp only
    rw [h1, decide_eq_true h3, h4, h6, if_pos]
    simpa using h5
  · unfold putFrag
    rw [h2]
    dsimp only
    rw [noteReduced_nodes, h7]
    dsimp only
    constructor
    · unfold codingAt
      rw [sendFrag_cmp]
      exact setCoding_at _ _ _
    · have hh : c.header (noteReduced c s) 0x40 frag (c.frags.getD frag []) = c.header s 0x40 frag (c.frags.getD frag []) := by
        unfold Coding.header stepNo stepAt epochNs periodNs
        rw [(noteReduced_only (pts := [.cmp, .hif, .status]) rfl c (Only.refl _ s)).2 .tmu rfl]
      unfold SentOne
      rw [sendFrag_out, hh]
      show digestAdd (noteReduced c s).hlt.digestOut _ _ _ = _
      rw [noteReduced_sameOut c (SameOut.refl s)]

theorem rebuildTimeout_effect {desc : Nat} {s : State} {c : Coding} (h1 : inService s = true)
    (h2 : codingAt s desc = some c) (h3 : c.rebuild.isSome = true) :
    Completes (.rebuildTimeout desc) s fun t =>
      codingAt t desc = some { c with rebuild := none } ∧ eventBit t .rebuildFailed = true := by
  refine ⟨losePage desc (raise .rebuildFailed (setCoding desc { c with rebuild := none } s)), ?_, ?_, ?_⟩
  · show execRebuildTimeout desc s = _
    unfold execRebuildTimeout
    rw [h2]
    dsimp only
    rw [h1, h3]
    rfl
  · unfold codingAt
    rw [(losePage_only (pts := [.sqs, .pgm]) rfl desc (Only.refl _ _)).2 .cmp rfl, raise_cmp]
    exact setCoding_at _ _ _
  · exact (losePage_grows desc (Grows.refl _)).bits _ (eventBit_raise_same _ _)

end Sys2Proof.Machine
end

