-- ==== Sys2Proof/Laws/Links.lean ====
section
/-! SUPPORT. What follows from a link's state leaves the links alone (R40).
`f_sameLinks`: if `s` has them as `s0`, so has what `f` makes of `s`. -/

namespace Sys2Proof.Safety

open Sys2Proof.Machine

/-- Two states have the same die-to-die links (R40). -/
def SameLinks (s0 s : State) : Prop := s.hlt.links = s0.hlt.links

theorem SameLinks.refl (s : State) : SameLinks s s := rfl

theorem SameLinks.foldl {α : Type} {f : State → α → State} {s0 s : State} {l : List α}
    (hf : ∀ s a, SameLinks s0 s → SameLinks s0 (f s a)) (h : SameLinks s0 s) : SameLinks s0 (l.foldl f s) := by
  induction l generalizing s with
  | nil => exact h
  | cons a t ih => exact ih (hf s a h)

theorem SameLinks.foldl_fst {α β : Type} {f : State × β → α → State × β} {s0 : State} {p : State × β} {l : List α}
    (hf : ∀ p a, SameLinks s0 p.1 → SameLinks s0 (f p a).1) (h : SameLinks s0 p.1) : SameLinks s0 (l.foldl f p).1 := by
  induction l generalizing p with
  | nil => exact h
  | cons a t ih => exact ih (hf p a h)

theorem SameLinks.foldl_snd {α β : Type} {f : β × State → α → β × State} {s0 : State} {p : β × State} {l : List α}
    (hf : ∀ p a, SameLinks s0 p.2 → SameLinks s0 (f p a).2) (h : SameLinks s0 p.2) : SameLinks s0 (l.foldl f p).2 := by
  induction l generalizing p with
  | nil => exact h
  | cons a t ih => exact ih (hf p a h)

theorem SameLinks.of_snd {α : Type} {s0 s : State} {p : α × State} {a : α} (e : p = (a, s)) (h : SameLinks s0 p.2) : SameLinks s0 s := by
  subst e; exact h

theorem SameLinks.of_snd2 {α β : Type} {s0 s : State} {p : α × β × State} {a : α} {b : β} (e : p = (a, b, s))
    (h : SameLinks s0 p.2.2) : SameLinks s0 s := by
  subst e; exact h

theorem SameLinks.of_fst {α : Type} {s0 s : State} {p : State × α} {a : α} (e : p = (s, a)) (h : SameLinks s0 p.1) : SameLinks s0 s := by
  subst e; exact h

theorem SameLinks.put {s0 s : State} {tmu sqs slc pgm tir cmp car mdl fab wei hif sec hlt stw sup status counters mem free pending}
    (h : SameLinks s0 s) (hi : hlt.links = s.hlt.links) :
    SameLinks s0 ⟨tmu, sqs, slc, pgm, tir, cmp, car, mdl, fab, wei, hif, sec, hlt, stw, sup, status, counters, mem, free,
      pending⟩ := hi.trans h

end Sys2Proof.Safety

namespace Sys2Proof.Machine

open Sys2Proof.Safety

theorem setStatus_sameLinks {s0 s : State} (a) (w) (h : SameLinks s0 s) : SameLinks s0 (setStatus a w s) := by
  unfold setStatus
  try dsimp only
  exact SameLinks.put (by assumption) rfl

theorem msix_sameLinks {s0 s : State} (v) (h : SameLinks s0 s) : SameLinks s0 (msix v s) := by
  unfold msix
  try dsimp only
  exact SameLinks.put (by assumption) rfl

theorem raiseAt_sameLinks {s0 s : State} (a) (bit) (h : SameLinks s0 s) : SameLinks s0 (raiseAt a bit s) := by
  unfold raiseAt
  try dsimp only
  split
  · exact setStatus_sameLinks _ _ (by assumption)
  · exact msix_sameLinks _ (setStatus_sameLinks _ _ (by assumption))

theorem raise_sameLinks {s0 s : State} (e_) (h : SameLinks s0 s) : SameLinks s0 (raise e_ s) := by
  unfold raise
  try dsimp only
  exact raiseAt_sameLinks _ _ (by assumption)

theorem counterEvent_sameLinks {s0 s : State} (sat) (block) (offset)
    (h : SameLinks s0 s) : SameLinks s0 (counterEvent sat block offset s) := by
  unfold counterEvent
  try dsimp only
  split
  · exact SameLinks.put (by assumption) rfl
  · exact raise_sameLinks _ (SameLinks.put (by assumption) rfl)

theorem bump_sameLinks {s0 s : State} (a n) (h : SameLinks s0 s) : SameLinks s0 (bump a n s) := by
  unfold bump
  dsimp only
  split
  · exact h
  · split
    · exact h
    · exact counterEvent_sameLinks _ _ _ h

theorem writeMem_sameLinks {s0 s : State} (a bs) (h : SameLinks s0 s) : SameLinks s0 (writeMem a bs s) := h

theorem setQueue_sameLinks {s0 s : State} (q) (w) (h : SameLinks s0 s) : SameLinks s0 (setQueue q w s) := by
  unfold setQueue
  try dsimp only
  exact SameLinks.put (by assumption) rfl

theorem setActive_sameLinks {s0 s : State} (p) (l) (h : SameLinks s0 s) : SameLinks s0 (setActive p l s) := by
  unfold setActive
  try dsimp only
  exact SameLinks.put (by assumption) rfl

theorem joinActive_sameLinks {s0 s : State} (q) (p) (h : SameLinks s0 s) : SameLinks s0 (joinActive q p s) := by
  unfold joinActive
  try dsimp only
  split
  · assumption
  · exact setActive_sameLinks _ _ (setQueue_sameLinks _ _ (by assumption))

theorem setPort_sameLinks {s0 s : State} (p) (r) (h : SameLinks s0 s) : SameLinks s0 (setPort p r s) := by
  unfold setPort
  try dsimp only
  exact SameLinks.put (by assumption) rfl

theorem ringWrite_sameLinks {s0 s : State} (base) (cap) (u) (bs) (h : SameLinks s0 s) : SameLinks s0 (ringWrite base cap u bs s) := by
  unfold ringWrite
  try dsimp only
  exact writeMem_sameLinks _ _ (writeMem_sameLinks _ _ (by assumption))

theorem putRecord_sameLinks {s0 s : State} (kind) (flags) (step) (action) (tenant) (source) (sseq) (body)
    (h : SameLinks s0 s) : SameLinks s0 (putRecord kind flags step action tenant source sseq body s).2 := by
  unfold putRecord
  try dsimp only
  exact SameLinks.put (ringWrite_sameLinks _ _ _ _ (by assumption)) rfl

theorem putJournal_sameLinks {s0 s : State} (kind) (flags) (step) (action) (tenant) (source) (sseq) (body)
    (h : SameLinks s0 s) : SameLinks s0 (putJournal kind flags step action tenant source sseq body s) := by
  unfold putJournal
  try dsimp only
  split
  · exact putRecord_sameLinks _ _ _ _ _ _ _ _ (by assumption)
  · exact putRecord_sameLinks _ _ _ _ _ _ _ _ (raise_sameLinks _ (bump_sameLinks _ _ (putRecord_sameLinks _ _ _ _ _ _ _ _
      (by assumption))))

theorem journal_sameLinks {s0 s : State} (kind) (action) (tenant) (source) (sseq) (body)
    (h : SameLinks s0 s) : SameLinks s0 (journal kind action tenant source sseq body s) := by
  unfold journal
  try dsimp only
  split
  · refine SameLinks.foldl (fun _ _ _ => ?_) ?_
    · exact putJournal_sameLinks _ _ _ _ _ _ _ _ (by assumption)
    · assumption
  · assumption

theorem dispositionAt_sameLinks {s0 s : State} (action) (code) (handle) (layer) (amount)
    (h : SameLinks s0 s) : SameLinks s0 (dispositionAt action code handle layer amount s) := by
  unfold dispositionAt
  try dsimp only
  exact journal_sameLinks _ _ _ _ _ _ (by assumption)

theorem disposition_sameLinks {s0 s : State} (code) (handle) (layer) (amount)
    (h : SameLinks s0 s) : SameLinks s0 (disposition code handle layer amount s) := by
  unfold disposition
  try dsimp only
  exact dispositionAt_sameLinks _ _ _ _ _ (by assumption)

theorem movePort_sameLinks {s0 s : State} (p) (h : SameLinks s0 s) : SameLinks s0 (movePort p s) := by
  unfold movePort
  try dsimp only
  split
  · assumption
  · refine SameLinks.foldl (fun _ _ _ => ?_) ?_
    · split
      · exact joinActive_sameLinks _ _ (setQueue_sameLinks _ _ (by assumption))
      · exact setQueue_sameLinks _ _ (by assumption)
    · exact setActive_sameLinks _ _ (by assumption)

theorem addFault_sameLinks {s0 s : State} (f) (h : SameLinks s0 s) : SameLinks s0 (addFault f s) := by
  unfold addFault
  try dsimp only
  split
  · assumption
  · exact SameLinks.put (by assumption) rfl

theorem dropFault_sameLinks {s0 s : State} (f) (h : SameLinks s0 s) : SameLinks s0 (dropFault f s) := by
  unfold dropFault
  try dsimp only
  exact SameLinks.put (by assumption) rfl

theorem updSeq_sameLinks {s0 s : State} (slot) (f) (h : SameLinks s0 s) : SameLinks s0 (updSeq slot f s) := by
  unfold updSeq
  try dsimp only
  exact SameLinks.put (by assumption) rfl

theorem pullItems_sameLinks {s0 s : State} (e_) (h : SameLinks s0 s) : SameLinks s0 (pullItems e_ s) := by
  unfold pullItems
  try dsimp only
  exact SameLinks.put (by assumption) rfl

theorem setCore_sameLinks {s0 s : State} (die) (phys) (c) (h : SameLinks s0 s) : SameLinks s0 (setCore die phys c s) := by
  unfold setCore
  try dsimp only
  exact SameLinks.put (by assumption) rfl

theorem updCore_sameLinks {s0 s : State} (die) (phys) (f) (h : SameLinks s0 s) : SameLinks s0 (updCore die phys f s) := by
  unfold updCore
  try dsimp only
  exact setCore_sameLinks _ _ _ (by assumption)

theorem carryItems_sameLinks {s0 s : State} (items) (h : SameLinks s0 s) : SameLinks s0 (carryItems items s) := by
  unfold carryItems
  try dsimp only
  refine SameLinks.foldl (fun _ _ _ => ?_) ?_
  · split
    · assumption
    · split
      · assumption
      · exact disposition_sameLinks _ _ _ _ (pullItems_sameLinks _ (updSeq_sameLinks _ _ (by assumption)))
  · assumption

theorem setDie_sameLinks {s0 s : State} (d) (x) (h : SameLinks s0 s) : SameLinks s0 (setDie d x s) := by
  unfold setDie
  try dsimp only
  exact SameLinks.put (by assumption) rfl

theorem coresOff_sameLinks {s0 s : State} (d) (h : SameLinks s0 s) : SameLinks s0 (coresOff d s) := by
  unfold coresOff
  try dsimp only
  refine SameLinks.foldl (fun _ _ _ => ?_) ?_
  · exact updCore_sameLinks _ _ _ (by assumption)
  · assumption

theorem enterDie_sameLinks {s0 s : State} (d) (st) (h : SameLinks s0 s) : SameLinks s0 (enterDie d st s) := by
  unfold enterDie
  try dsimp only
  exact raise_sameLinks _ (setDie_sameLinks _ _ (by assumption))

theorem stopDie_sameLinks {s0 s : State} (d) (st) (h : SameLinks s0 s) : SameLinks s0 (stopDie d st s) := by
  unfold stopDie
  try dsimp only
  refine coresOff_sameLinks _ ?_
  refine enterDie_sameLinks _ _ ?_
  split
  · assumption
  · exact carryItems_sameLinks _ (by assumption)

theorem linkFaults_sameLinks {s0 s : State} (h : SameLinks s0 s) : SameLinks s0 (linkFaults s) := by
  unfold linkFaults
  try dsimp only
  refine SameLinks.foldl (fun _ _ _ => ?_) ?_
  · split
    · exact dropFault_sameLinks _ (by assumption)
    · exact addFault_sameLinks _ (by assumption)
  · refine SameLinks.foldl (fun _ _ _ => ?_) ?_
    · split
      · exact dropFault_sameLinks _ (by assumption)
      · exact addFault_sameLinks _ (by assumption)
    · assumption

theorem withdrawPort_sameLinks {s0 s : State} (p) (w) (h : SameLinks s0 s) : SameLinks s0 (withdrawPort p w s) := by
  unfold withdrawPort
  try dsimp only
  split
  · assumption
  · split
    · exact movePort_sameLinks _ (raise_sameLinks _ (setPort_sameLinks _ _ (by assumption)))
    · exact raise_sameLinks _ (setPort_sameLinks _ _ (by assumption))

theorem linkConsequence_sameLinks {s0 s : State} (l) (h : SameLinks s0 s) : SameLinks s0 (linkConsequence l s) := by
  have hf := linkFaults_sameLinks h
  unfold linkConsequence
  generalize linkFaults s = u at hf ⊢
  dsimp only
  split
  · split
    · exact hf
    · cases (dieOf u l).state
      case drained => exact hf
      case failed => exact hf
      all_goals exact stopDie_sameLinks _ _ hf
  · split
    · exact withdrawPort_sameLinks _ _ (withdrawPort_sameLinks _ _ hf)
    · exact hf

end Sys2Proof.Machine
end

