-- ==== Sys2Proof/Laws/EffStart.lean ====
section
/-! SUPPORT. What the commands of start-up do (R389 to R396): power-up steps, boot ROM, recovery, the steward's start, service. -/

namespace Sys2Proof.Machine

open Sys2Proof.Safety

/-! ## Power-up steps and the boot ROM (R389, R391) -/

theorem powerStepInterval_effect {s : State} (h1 : s.sup.brown = false) (h2 : s.stw.powerStep < 24)
    (h3 : s.stw.boot = .powering ∧ s.stw.powerStep = 1 ∨ s.stw.boot = .starting ∧ 2 ≤ s.stw.powerStep) :
    Completes .powerStepInterval s fun t => t = { s with stw := { s.stw with
      powerStep := s.stw.powerStep + 1, boot := if s.stw.powerStep = 1 then .bootRom else s.stw.boot } } := by
  refine ⟨_, rfl, ?_⟩
  dsimp only
  have : stepMayBegin s = true := by
    unfold stepMayBegin
    rcases h3 with ⟨h3, h4⟩ | ⟨h3, h4⟩ <;> simp [h1, h2, h3, h4]
  rw [if_pos this]
  rfl

theorem powerStepInterval_held {s : State} (h1 : s.sup.brown = true) :
    Completes .powerStepInterval s fun t => t = s := by
  refine ⟨_, rfl, ?_⟩
  dsimp only
  rw [if_neg (by simp [stepMayBegin, h1])]

theorem imageStartTimeout_effect {s : State} (h1 : s.stw.boot = .starting) (h2 : s.stw.powerStep = 2) :
    Completes .imageStartTimeout s fun t =>
      t = { s with stw := { s.stw with boot := .recovery, cause := 3, recovery := .wait, received := [] } } := by
  refine ⟨_, rfl, ?_⟩
  dsimp only
  rw [if_pos (by simp [h1, h2])]
  rfl

theorem logEvent_stw (code : Nat) (d : List Byte) (s : State) : (logEvent code d s).stw = s.stw := rfl

/-- What the boot ROM has measured before it looks at the image. -/
theorem bootMeasure_charter (o : BootOps) (s : State) :
    (bootMeasure o s).stw = { s.stw with
      charter := (readCharter (charterRegion o.flashOk s)).1, report := (readCharter (charterRegion o.flashOk s)).2.2 } ∧
    (bootMeasure o s).tir.segments = (readCharter (charterRegion o.flashOk s)).2.1 := by
  have : charterRegion o.flashOk (freeBelow (2 ^ 512) s).2 = charterRegion o.flashOk s := rfl
  unfold bootMeasure
  dsimp only
  rw [this]
  exact ⟨rfl, rfl⟩

theorem bootMeasure_sec (o : BootOps) (s : State) :
    (bootMeasure o s).sec.fusedSvn = s.sec.fusedSvn ∧ (bootMeasure o s).sec.revoked = s.sec.revoked ∧
    (bootMeasure o s).sec.nonce = fit 16 o.nonce ∧ (bootMeasure o s).sec.events = s.sec.events + 3 := ⟨rfl, rfl, rfl, rfl⟩

theorem startImage_running (img : List Byte) (s : State) : (startImage img s).sec.running = img := rfl
theorem startImage_nonce (img : List Byte) (s : State) : (startImage img s).sec.nonce = s.sec.nonce := rfl
theorem startImage_events (img : List Byte) (s : State) : (startImage img s).sec.events = s.sec.events + 1 := rfl
theorem startImage_stw (img : List Byte) (s : State) :
    (startImage img s).stw = { s.stw with boot := .starting, cause := 0 } := rfl

theorem flashImage_same {s t : State} (h : t.stw.flash = s.stw.flash) : flashImage t = flashImage s := by
  unfold flashImage flashBytes
  rw [h]

theorem imageCause_same {s t : State} (h1 : t.sec.fusedSvn = s.sec.fusedSvn) (h2 : t.sec.revoked = s.sec.revoked)
    (img : List Byte) (ok : Bool) : imageCause t img ok = imageCause s img ok := by
  unfold imageCause
  rw [h1, h2]

theorem bootRom_noFlash {o : BootOps} {s : State} (h1 : s.stw.boot = .bootRom) (h2 : o.flashOk = false) :
    Completes (.bootRomStart o) s fun t => t.stw = { s.stw with
      charter := (readCharter (List.replicate charterBytes 0xFF#8)).1
      report := (readCharter (List.replicate charterBytes 0xFF#8)).2.2
      boot := .recovery, cause := 1, recovery := .wait, received := [] } := by
  have hm := bootMeasure_charter o s
  unfold Completes
  simp only [exec, execBootRomStart, h1, h2, beq_self_eq_true, Bool.not_false, if_true]
  refine ⟨_, rfl, ?_⟩
  unfold enterRecovery
  dsimp only
  rw [hm.1]
  simp only [charterRegion, h2, Bool.false_eq_true, if_false]

theorem bootRom_accepts {o : BootOps} {s : State} (h1 : s.stw.boot = .bootRom) (h2 : o.flashOk = true)
    (h3 : imageCause s (flashImage s) o.sigOk = 0) :
    Completes (.bootRomStart o) s fun t =>
      t.stw = { s.stw with
        charter := (readCharter (flashBytes s charterBase charterBytes)).1
        report := (readCharter (flashBytes s charterBase charterBytes)).2.2
        boot := .starting, cause := 0 } ∧
      t.sec.running = flashImage s ∧ t.sec.nonce = fit 16 o.nonce ∧ t.sec.events = s.sec.events + 4 := by
  have hm := bootMeasure_charter o s
  have hs := bootMeasure_sec o s
  have hf : flashImage (bootMeasure o s) = flashImage s := flashImage_same (by rw [hm.1])
  have hc : imageCause (bootMeasure o s) (flashImage s) o.sigOk = 0 := by rw [imageCause_same hs.1 hs.2.1]; exact h3
  unfold Completes
  simp only [exec, execBootRomStart, h1, h2, beq_self_eq_true, Bool.not_true, Bool.false_eq_true, if_true, if_false, hf, hc]
  refine ⟨_, rfl, ?_, startImage_running _ _, ?_, ?_⟩
  · rw [startImage_stw, hm.1]
    simp only [charterRegion, h2, if_true]
  · rw [startImage_nonce, hs.2.2.1]
  · rw [startImage_events, hs.2.2.2]

theorem bootRom_refuses {o : BootOps} {s : State} (h1 : s.stw.boot = .bootRom) (h2 : o.flashOk = true)
    (h3 : imageCause s (flashImage s) o.sigOk ≠ 0) :
    Completes (.bootRomStart o) s fun t =>
      t.stw.boot = .recovery ∧ t.stw.cause = 2 ∧ t.stw.recovery = .wait ∧ t.stw.received = [] ∧
      t.stw.charter = (readCharter (flashBytes s charterBase charterBytes)).1 ∧
      t.sec.updCause = imageCause s (flashImage s) o.sigOk ∧ eventBit t .imageRefused = true := by
  have hm := bootMeasure_charter o s
  have hs := bootMeasure_sec o s
  have hf : flashImage (bootMeasure o s) = flashImage s := flashImage_same (by rw [hm.1])
  have hc : imageCause (bootMeasure o s) (flashImage s) o.sigOk = imageCause s (flashImage s) o.sigOk :=
    imageCause_same hs.1 hs.2.1 _ _
  unfold Completes
  simp only [exec, execBootRomStart, h1, h2, beq_self_eq_true, Bool.not_true, Bool.false_eq_true, if_true, if_false, hf, hc, h3]
  refine ⟨_, rfl, rfl, rfl, rfl, rfl, ?_, ?_, ?_⟩
  · unfold enterRecovery refuseImage
    dsimp only
    rw [raise_stw]
    dsimp only
    rw [hm.1]
    simp only [charterRegion, h2, if_true]
  · unfold enterRecovery refuseImage
    dsimp only
    rw [raise_sec]
  · exact eventBit_raise_same _ _

/-! ## Recovery (R392) -/

theorem look_zip_range (l : List Byte) (r : Tab Byte) (k i : Nat) (h : i < l.length) :
    Tab.look (k + i) ((List.range' k l.length).zip l ++ r) = some l[i] := by
  induction l generalizing k i with
  | nil => simp at h
  | cons a t ih =>
    simp only [List.length_cons, List.range'_succ, List.zip_cons_cons, List.cons_append, Tab.look]
    cases i with
    | zero => simp
    | succ i =>
      rw [if_neg (by omega)]
      have := ih (k + 1) i (by simpa using h)
      rw [show k + (i + 1) = k + 1 + i by omega]
      simpa using this

theorem look_part {α : Type} (k n i : Nat) (h1 : k ≤ i) (h2 : i < k + n) (t : Tab α) :
    Tab.look i (Tab.part k n t) = Tab.look i t := by
  induction t with
  | nil => rfl
  | cons x t ih =>
    obtain ⟨j, a⟩ := x
    unfold Tab.part at *
    by_cases hj : j = i
    · subst hj
      rw [List.filter_cons_of_pos (by simp [h1, h2])]
      simp [Tab.look]
    · simp only [List.filter_cons]
      split
      · simp only [Tab.look, if_neg hj, ih]
      · simp only [Tab.look, if_neg hj, ih]

theorem look_putRun (l : List Byte) (t : Tab Byte) (i : Nat) (h : i < l.length) : Tab.look i (Tab.putRun 0 l t) = some l[i] := by
  unfold Tab.putRun
  have : t.filter (fun e => decide (e.1 < 0)) = [] := by
    rw [List.filter_eq_nil_iff]; intro x _; simp
  rw [this, List.nil_append]
  have := look_zip_range l (t.filter (fun e => decide (0 + l.length ≤ e.1))) 0 i h
  rwa [Nat.zero_add] at this

theorem recoveryPush_effect {length : Nat} {chunk : List Byte} {s : State} (h1 : s.stw.boot = .recovery)
    (h2 : chunk.length = chunkBytes (length % 2 ^ 24)) (h3 : chunk.length ≤ chunkLimit)
    (h4 : s.stw.received.length + chunk.length ≤ imageLimit) :
    Completes (.recoveryPush length chunk) s fun t =>
      t.stw.received = s.stw.received ++ chunk ∧ t.stw.recovery = .receiving ∧ t.stw.boot = .recovery ∧
      t.stw.flash = s.stw.flash := by
  unfold Completes
  simp only [exec, execRecoveryPush, h1, beq_self_eq_true, if_true]
  have ht : chunk.take 16777216 = chunk := List.take_of_length_le (Nat.le_trans h3 (by decide))
  rw [ht]
  refine ⟨_, rfl, ?_⟩
  unfold recoveryAppend
  dsimp only
  rw [← h2, if_neg (by omega)]
  refine ⟨?_, rfl, rfl, rfl⟩
  dsimp only
  congr 1
  unfold bufferBytes
  dsimp only
  apply List.ext_getElem
  · simp
  · intro i h5 h6
    simp only [List.getElem_map, List.getElem_range]
    unfold Tab.getD
    rw [look_part 0 _ i (by omega) (by omega), look_putRun _ _ i h6]
    rfl

theorem recoveryPush_refused {length : Nat} {chunk : List Byte} {s : State} (h1 : s.stw.boot = .recovery)
    (h2 : chunkLimit < chunkBytes (length % 2 ^ 24) ∨ imageLimit < s.stw.received.length + chunkBytes (length % 2 ^ 24)) :
    Completes (.recoveryPush length chunk) s fun t =>
      t.stw.received = s.stw.received ∧ t.stw.recovery = .refused ∧ t.stw.boot = .recovery := by
  unfold Completes
  simp only [exec, execRecoveryPush, h1, beq_self_eq_true, if_true]
  refine ⟨_, rfl, ?_⟩
  unfold recoveryAppend
  dsimp only
  rw [if_pos h2]
  exact ⟨rfl, rfl, rfl⟩

theorem recoveryFinish_accepted {sigOk : Bool} {s : State} (h1 : s.stw.boot = .recovery)
    (h2 : imageCause s s.stw.received sigOk = 0) :
    Completes (.recoveryFinish sigOk) s fun t =>
      t.stw = { s.stw with recovery := .accepted, toFlash := some s.stw.received, boot := .starting, cause := 0 } ∧
      t.sec.running = s.stw.received ∧ t.sec.events = s.sec.events + 1 := by
  unfold Completes
  simp only [exec, execRecoveryFinish, h1, beq_self_eq_true, if_true, recoveryVerify, h2]
  exact ⟨_, rfl, rfl, rfl, rfl⟩

theorem recoveryFinish_refused {sigOk : Bool} {s : State} (h1 : s.stw.boot = .recovery)
    (h2 : imageCause s s.stw.received sigOk ≠ 0) :
    Completes (.recoveryFinish sigOk) s fun t =>
      t.stw = { s.stw with recovery := .wait, received := [] } ∧ t.sec.updCause = imageCause s s.stw.received sigOk ∧
      eventBit t .recoveryRefused = true ∧ eventBit t .imageRefused = true := by
  unfold Completes
  simp only [exec, execRecoveryFinish, h1, beq_self_eq_true, if_true, recoveryVerify, h2, if_false]
  refine ⟨_, rfl, ?_, ?_, ?_, ?_⟩
  · simp [refuseImage, h1]
  · simp [refuseImage]
  · exact eventBit_raise_same _ _
  · exact eventBit_raise_of (eventBit_raise_same _ _)

theorem recoveryAbort_effect {s : State} (h1 : s.stw.boot = .recovery) :
    Completes .recoveryAbort s fun t => t = { s with stw := { s.stw with recovery := .wait, received := [] } } := by
  unfold Completes
  simp only [exec, execRecoveryAbort, h1, beq_self_eq_true, if_true]
  exact ⟨_, rfl, by simp [recoveryDiscard, h1]⟩

/-! ## The steward's start and service (R3, R393 to R395) -/

theorem coreAt_updCore {die phys d p : Nat} (f : Core → Core) (s : State) (h : p < 64) (h' : phys < 64) :
    coreAt (updCore die phys f s) d p = if d = die ∧ p = phys then f (coreAt s d p) else coreAt s d p := by
  by_cases hh : d = die ∧ p = phys
  · rw [if_pos hh]
    obtain ⟨rfl, rfl⟩ := hh
    exact Tab.getD_put_same _ _ _ _
  · rw [if_neg hh]
    exact Tab.getD_put_other (by omega) _ _ _

theorem startQuarantine_cores (c : Nat × Nat) (s : State) : (startQuarantine c s).hlt.cores =
    (updCore c.1 c.2 (fun x => { x with state := .quarantined, held := false }) s).hlt.cores := by
  unfold startQuarantine
  generalize updCore c.1 c.2 _ s = u
  unfold bump
  dsimp only
  split
  · rfl
  · split
    · rfl
    · unfold counterEvent
      dsimp only
      split
      · rfl
      · rw [raise_hlt]

theorem coreAt_of {s t : State} (h : t.hlt.cores = s.hlt.cores) (d p : Nat) : coreAt t d p = coreAt s d p := by
  unfold coreAt; rw [h]

/-- A core quarantined at start-up. -/
theorem startQuarantine_at {c : Nat × Nat} {s : State} {d p : Nat} (h : p < 64) (h' : c.2 < 64) :
    coreAt (startQuarantine c s) d p =
      if d = c.1 ∧ p = c.2 then { coreAt s d p with state := .quarantined, held := false } else coreAt s d p := by
  rw [coreAt_of (startQuarantine_cores c s), coreAt_updCore _ _ h h']

theorem startQuarantine_state {c : Nat × Nat} {s : State} {d p : Nat} (h : p < 64) (h' : c.2 < 64) :
    (coreAt (startQuarantine c s) d p).state = if (d, p) = c then .quarantined else (coreAt s d p).state := by
  rw [startQuarantine_at h h']
  obtain ⟨a, b⟩ := c
  simp only [Prod.mk.injEq]
  split <;> rfl

theorem foldl_startQuarantine (l : List (Nat × Nat)) (s : State) {d p : Nat} (h : p < 64) (hl : ∀ c ∈ l, c.2 < 64) :
    (coreAt (l.foldl (fun s c => startQuarantine c s) s) d p).state =
      if (d, p) ∈ l then .quarantined else (coreAt s d p).state := by
  induction l generalizing s with
  | nil => simp
  | cons c t ih =>
    rw [List.foldl_cons, ih _ (fun c hc => hl c (List.mem_cons_of_mem _ hc)), startQuarantine_state h (hl c (List.mem_cons_self ..))]
    by_cases h1 : (d, p) ∈ t
    · simp [h1]
    · by_cases h2 : (d, p) = c
      · simp [h2]
      · simp [h1, h2]

theorem mem_distinct_fold (l acc : List (Nat × Nat)) (x : Nat × Nat) :
    x ∈ l.foldl (fun l c => if l.contains c then l else l ++ [c]) acc ↔ x ∈ acc ∨ x ∈ l := by
  induction l generalizing acc with
  | nil => simp
  | cons c t ih =>
    rw [List.foldl_cons, ih]
    by_cases hc : acc.contains c = true
    · rw [if_pos hc]
      have : c ∈ acc := by simpa using hc
      simp only [List.mem_cons]
      constructor
      · rintro (h | h)
        · exact .inl h
        · exact .inr (.inr h)
      · rintro (h | rfl | h)
        · exact .inl h
        · exact .inl this
        · exact .inr h
    · rw [if_neg hc]
      simp only [List.mem_append, List.mem_cons, List.not_mem_nil, or_false]
      tauto

theorem healthCores_lt {s : State} {c : Nat × Nat} (h : c ∈ healthCores s) : c.2 < 34 := by
  unfold healthCores at h
  obtain ⟨e, _, he⟩ := List.mem_filterMap.1 h
  unfold healthCore at he
  split at he
  · rename_i hh
    cases he
    exact Nat.lt_succ_of_le hh.2.2
  · cases he

theorem applyHealth_state (s : State) {d p : Nat} (h : p < 64) :
    (coreAt (applyHealth s) d p).state = if (d, p) ∈ healthCores s then .quarantined else (coreAt s d p).state := by
  unfold applyHealth
  rw [foldl_startQuarantine _ _ h]
  · simp only [mem_distinct_fold, List.not_mem_nil, false_or]
  · intro c hc
    rw [mem_distinct_fold] at hc
    have := healthCores_lt (hc.resolve_left (by simp))
    omega

theorem failStartCheck_state (c : Nat × Nat) (s : State) {d p : Nat} (h : p < 64) :
    (coreAt (failStartCheck c s) d p).state =
      if (d, p) = c ∧ d < 8 ∧ p < 34 then .quarantined else (coreAt s d p).state := by
  unfold failStartCheck
  split
  · rename_i hc
    have h1 : ∀ u w, (raise .hardFault (queueFlash w u)).hlt = u.hlt := fun u w => by
      rw [raise_hlt, (queueFlash_only (pts := [.stw]) rfl w (Only.refl _ u)).2 .hlt rfl]
    have h3 : ∀ u w, coreAt (raise .hardFault (queueFlash w u)) d p = coreAt u d p := fun u w => coreAt_of (by rw [h1]) d p
    dsimp only
    rw [h3, startQuarantine_state h (by omega), coreAt_updCore _ _ h (by omega)]
    by_cases hx : (d, p) = c
    · rw [if_pos hx, if_pos ⟨hx, by rw [← hx] at hc; exact ⟨hc.1, hc.2.1⟩⟩]
    · rw [if_neg hx, if_neg (fun q => hx (Prod.ext q.1 q.2)), if_neg (fun q => hx q.1)]
  · rename_i hc
    split
    · rename_i hx
      obtain ⟨rfl, h2, h3⟩ := hx
      by_contra hq
      exact hc ⟨h2, h3, fun x => hq x⟩
    · rfl

theorem foldl_failStartCheck (l : List (Nat × Nat)) (s : State) {d p : Nat} (h : p < 64) :
    (coreAt (l.foldl (fun s c => failStartCheck c s) s) d p).state =
      if (d, p) ∈ l ∧ d < 8 ∧ p < 34 then .quarantined else (coreAt s d p).state := by
  induction l generalizing s with
  | nil => simp
  | cons c t ih =>
    rw [List.foldl_cons, ih, failStartCheck_state _ _ h]
    by_cases hr : d < 8 ∧ p < 34
    · by_cases h1 : (d, p) ∈ t
      · simp [h1, hr]
      · by_cases h2 : (d, p) = c
        · simp [h2, hr]
        · simp [h1, h2]
    · have : ¬ (d < 8 ∧ p < 34) := hr
      simp [this]

theorem stewardStart_cores {failed : List (Nat × Nat)} {s : State} (h1 : s.stw.boot = .starting) (h2 : 20 ≤ s.stw.powerStep)
    (h3 : s.stw.checked = false) (h4 : steppingsOk s = true) :
    Completes (.stewardStart [] failed) s fun t => t.stw.checked = true ∧ ∀ d p, d < 8 → p < 34 →
      (coreAt t d p).state =
        if (d, p) ∈ healthCores s ∨ (d, p) ∈ failed then .quarantined else (coreAt s d p).state := by
  unfold Completes
  simp only [exec, execStewardStart, h1, h2, h3, h4, beq_self_eq_true, decide_true, Bool.not_false, Bool.and_self, if_true,
    List.foldl_nil]
  refine ⟨_, rfl, rfl, ?_⟩
  intro d p hd hp
  have := foldl_failStartCheck failed (applyHealth s) (d := d) (p := p) (by omega)
  rw [applyHealth_state _ (by omega)] at this
  refine Eq.trans (congrArg Core.state (coreAt_of rfl d p)) (this.trans ?_)
  by_cases h5 : (d, p) ∈ failed
  · simp [h5, hd, hp]
  · simp [h5]

theorem stewardStart_halts {links : List Nat} {failed : List (Nat × Nat)} {s : State} (h1 : s.stw.boot = .starting)
    (h2 : 20 ≤ s.stw.powerStep) (h3 : s.stw.checked = false) (h4 : steppingsOk s = false) :
    Completes (.stewardStart links failed) s fun t => t = { s with stw := { s.stw with boot := .halted, cause := 4 } } := by
  unfold Completes
  simp only [exec, execStewardStart, h1, h2, h3, h4, beq_self_eq_true, decide_true, Bool.not_false, Bool.and_self, if_true,
    Bool.false_eq_true, if_false]
  exact ⟨_, rfl, rfl⟩

theorem startQuarantine_links (c : Nat × Nat) (s : State) : (startQuarantine c s).hlt.links = s.hlt.links := by
  unfold startQuarantine
  have : (updCore c.1 c.2 (fun x => { x with state := .quarantined, held := false }) s).hlt.links = s.hlt.links := rfl
  exact (bump_sameLinks _ _ (SameLinks.refl _)).trans this

theorem failStartCheck_links (c : Nat × Nat) (s : State) : (failStartCheck c s).hlt.links = s.hlt.links := by
  unfold failStartCheck
  split
  · dsimp only
    rw [raise_hlt, (queueFlash_only (pts := [.stw]) rfl _ (Only.refl _ _)).2 .hlt rfl, startQuarantine_links]
    rfl
  · rfl

theorem foldl_links {α : Type} {f : State → α → State} (hf : ∀ s a, (f s a).hlt.links = s.hlt.links) (l : List α) (s : State) :
    (l.foldl f s).hlt.links = s.hlt.links := by
  induction l generalizing s with
  | nil => rfl
  | cons a t ih => rw [List.foldl_cons, ih, hf]

theorem failLink_links (l k : Nat) (s : State) :
    Tab.look k (failLink l s).hlt.links = if k = l ∧ l < 24 then some .down else Tab.look k s.hlt.links := by
  unfold failLink
  by_cases hl : l < 24
  · rw [if_pos hl]
    have h : SameLinks (setLink l .down s) (linkConsequence l (raise .linkDegraded (setLink l .down s))) :=
      linkConsequence_sameLinks _ (raise_sameLinks _ (SameLinks.refl _))
    unfold SameLinks at h
    rw [h]
    unfold setLink
    dsimp only
    by_cases hk : k = l
    · subst hk; simp [hl]
    · simp [hk]
  · simp [hl]

theorem foldl_failLink (l : List Nat) (s : State) (k : Nat) : Tab.look k (l.foldl (fun s l => failLink l s) s).hlt.links =
    if k ∈ l ∧ k < 24 then some .down else Tab.look k s.hlt.links := by
  induction l generalizing s with
  | nil => simp
  | cons a t ih =>
    rw [List.foldl_cons, ih, failLink_links]
    by_cases h1 : k < 24
    · by_cases h2 : k ∈ t
      · simp [h1, h2]
      · by_cases h3 : k = a
        · subst h3; simp [h1]
        · simp [h2, h3]
    · have h3 : ¬ (k = a ∧ a < 24) := by omega
      simp [h1, h3]

theorem stewardStart_links {links : List Nat} {failed : List (Nat × Nat)} {s : State} (h1 : s.stw.boot = .starting)
    (h2 : 20 ≤ s.stw.powerStep) (h3 : s.stw.checked = false) (h4 : steppingsOk s = true) :
    Completes (.stewardStart links failed) s fun t => t.stw.checked = true ∧
      ∀ k, Tab.look k t.hlt.links = if k ∈ links ∧ k < 24 then some .down else Tab.look k s.hlt.links := by
  unfold Completes
  simp only [exec, execStewardStart, h1, h2, h3, h4, beq_self_eq_true, decide_true, Bool.not_false, Bool.and_self, if_true]
  refine ⟨_, rfl, rfl, ?_⟩
  intro k
  dsimp only
  rw [foldl_links (fun s c => failStartCheck_links c s)]
  unfold applyHealth
  rw [foldl_links (fun s c => startQuarantine_links c s), foldl_failLink]

/-! ## Service -/

theorem portOf_setPort (p q : Nat) (r : PortRec) (s : State) : portOf (setPort p r s) q = if q = p then r else portOf s q := by
  unfold portOf setPort
  dsimp only
  by_cases h : q = p
  · subst h; simp
  · rw [if_neg h, Tab.getD_put_other h]

theorem portOf_of {s t : State} (h : t.fab.ports = s.fab.ports) (p : Nat) : portOf t p = portOf s p := by
  unfold portOf; rw [h]

theorem portsTrained_at (mask : Nat) (l : List Nat) (s : State) (p : Nat) :
    portOf (l.foldl (fun s p =>
      if bitOf mask p && !(portOf s p).up then raise .portChanged (setPort p { portOf s p with up := true } s) else s) s) p =
    if p ∈ l ∧ bitOf mask p = true then { portOf s p with up := true } else portOf s p := by
  induction l generalizing s with
  | nil => simp
  | cons a t ih =>
    rw [List.foldl_cons, ih]
    have h1 : portOf (if bitOf mask a && !(portOf s a).up then raise .portChanged (setPort a { portOf s a with up := true } s) else s) p =
        if p = a ∧ bitOf mask p = true then { portOf s p with up := true } else portOf s p := by
      by_cases hb : (bitOf mask a && !(portOf s a).up) = true
      · rw [if_pos hb, portOf_of (s := setPort a { portOf s a with up := true } s) (by rw [raise_fab]), portOf_setPort]
        simp only [Bool.and_eq_true] at hb
        by_cases hp : p = a
        · subst hp; simp [hb.1]
        · simp [hp]
      · rw [if_neg hb]
        by_cases hp : p = a ∧ bitOf mask p = true
        · rw [if_pos hp]
          obtain ⟨rfl, hq⟩ := hp
          simp only [hq, Bool.true_and, Bool.not_eq_true', Bool.not_eq_false] at hb
          rw [← hb]
        · rw [if_neg hp]
    rw [h1]
    by_cases h2 : bitOf mask p = true
    · by_cases h3 : p = a
      · subst h3
        simp only [h2, and_self, if_true, and_true, List.mem_cons, true_or]
        split <;> rfl
      · simp [h2, h3]
    · simp [h2]

theorem cxlFault_faults (s : State) : faultTier2 ∈ (cxlFault s).hlt.faults ↔ cxlUp s = false := by
  unfold cxlFault
  cases h : cxlUp s
  · simp only [Bool.false_eq_true, if_false, iff_true]
    unfold addFault
    split
    · rename_i hf; simpa using hf
    · simp
  · simp [dropFault]

/-- The state at SERVICE_REACHED before ports and faults. -/
theorem service_tail (portsUp : Nat) (u : State) :
    (cxlFault (portsTrained portsUp u)).stw = u.stw ∧ (cxlFault (portsTrained portsUp u)).tmu = u.tmu ∧
    (cxlFault (portsTrained portsUp u)).fab.intake = u.fab.intake ∧
    (∀ p, p < 8 → portOf (cxlFault (portsTrained portsUp u)) p =
      if bitOf portsUp p then { portOf u p with up := true } else portOf u p) ∧
    (faultTier2 ∈ (cxlFault (portsTrained portsUp u)).hlt.faults ↔ cxlUp u = false) := by
  have hp := portsTrained_only (pts := [.fab, .hif, .status]) rfl portsUp (Only.refl _ u)
  have hc := cxlFault_only (pts := [.hlt]) rfl (Only.refl _ (portsTrained portsUp u))
  have hi : ∀ (l : List Nat) (u : State), (l.foldl (fun s p =>
      if bitOf portsUp p && !(portOf s p).up then raise .portChanged (setPort p { portOf s p with up := true } s) else s) u).fab.intake =
      u.fab.intake ∧ cxlUp (l.foldl (fun s p =>
      if bitOf portsUp p && !(portOf s p).up then raise .portChanged (setPort p { portOf s p with up := true } s) else s) u) = cxlUp u := by
    intro l
    induction l with
    | nil => intro u; exact ⟨rfl, rfl⟩
    | cons a t ih =>
      intro u
      rw [List.foldl_cons, (ih _).1, (ih _).2]
      split
      · rw [raise_fab]
        have := raise_sameCxl .portChanged (SameCxl.refl (setPort a { portOf u a with up := true } u))
        unfold SameCxl at this
        simp only [Prod.mk.injEq] at this
        unfold cxlUp
        rw [this.1, this.2]
        exact ⟨rfl, rfl⟩
      · exact ⟨rfl, rfl⟩
  refine ⟨(hc.2 .stw rfl).trans (hp.2 .stw rfl), (hc.2 .tmu rfl).trans (hp.2 .tmu rfl), ?_, ?_, ?_⟩
  · rw [hc.2 .fab rfl]; exact (hi _ _).1
  · intro p h8
    rw [portOf_of (by rw [hc.2 .fab rfl] : _ = (portsTrained portsUp u).fab.ports)]
    have := portsTrained_at portsUp (List.range 8) u p
    unfold portsTrained
    rw [this]
    simp [h8]
  · rw [cxlFault_faults]
    unfold portsTrained
    rw [(hi _ _).2]

theorem settleFlash_boot (n : Nat) (s : State) :
    (settleFlash n s).stw.boot = s.stw.boot ∧ (settleFlash n s).stw.startMs = s.stw.startMs := by
  induction n generalizing s with
  | zero => exact ⟨rfl, rfl⟩
  | succ n ih =>
    unfold settleFlash
    split
    · rw [(ih _).1, (ih _).2]; exact ⟨rfl, rfl⟩
    · exact ⟨rfl, rfl⟩
    · exact ⟨rfl, rfl⟩

theorem serviceReached_effect {ms portsUp : Nat} {s : State} (h1 : s.stw.boot = .starting) (h2 : s.stw.powerStep = 24)
    (h3 : s.stw.checked = true) :
    Completes (.serviceReached ms portsUp) s fun t =>
      t.stw.boot = .service ∧ t.stw.startMs = ms ∧
      (s.stw.toFlash = none → t.stw = { s.stw with boot := .service, startMs := ms }) ∧
      (∀ img, s.stw.toFlash = some img → s.stw.flashQueue = [] →
        t.stw = { s.stw with boot := .service, startMs := ms, toFlash := none, flashQueue := [.image img true] }) ∧
      t.tmu = { s.tmu with period := s.stw.charter.stepPeriod, epoch := s.stw.charter.gridEpoch } ∧
      0 ∈ t.fab.intake ∧
      (∀ p, p < 8 → portOf t p = if bitOf portsUp p then { portOf s p with up := true } else portOf s p) ∧
      (faultTier2 ∈ t.hlt.faults ↔ cxlUp s = false) := by
  unfold Completes
  unfold exec
  dsimp only
  unfold execServiceReached
  rw [if_pos (by simp [h1, h2, h3])]
  refine ⟨_, rfl, ?_⟩
  dsimp only
  obtain ⟨u, hu⟩ : ∃ u, u = setIntake 0 true { s with
    stw := { s.stw with boot := .service, startMs := ms }
    tmu := { s.tmu with period := s.stw.charter.stepPeriod, epoch := s.stw.charter.gridEpoch } } := ⟨_, rfl⟩
  have ht := service_tail portsUp u
  have e : ∀ {α : Type} (f : State → α), f (flashRecovered (cxlFault (portsTrained portsUp (setIntake 0 true { s with
    stw := { s.stw with boot := .service, startMs := ms }
    tmu := { s.tmu with period := s.stw.charter.stepPeriod, epoch := s.stw.charter.gridEpoch } })))) =
    f (flashRecovered (cxlFault (portsTrained portsUp u))) := by intro α f; rw [hu]
  have u1 : u.stw = { s.stw with boot := .service, startMs := ms } := by rw [hu]; rfl
  have u2 : u.tmu = { s.tmu with period := s.stw.charter.stepPeriod, epoch := s.stw.charter.gridEpoch } := by rw [hu]; rfl
  have u3 : 0 ∈ u.fab.intake := by rw [hu]; simp [setIntake]
  have u4 : ∀ p, portOf u p = portOf s p := by intro p; rw [hu]; rfl
  have u5 : cxlUp u = cxlUp s := by rw [hu]; rfl
  have hr := flashRecovered_only (pts := [.stw]) rfl (Only.refl _ (cxlFault (portsTrained portsUp u)))
  have s0 : (flashRecovered (cxlFault (portsTrained portsUp u))).stw.boot = .service ∧
      (flashRecovered (cxlFault (portsTrained portsUp u))).stw.startMs = ms := by
    have hw := ht.1
    generalize cxlFault (portsTrained portsUp u) = w at hw ⊢
    unfold flashRecovered
    split
    · rw [hw, u1]; exact ⟨rfl, rfl⟩
    · unfold queueFlash
      rw [(settleFlash_boot _ _).1, (settleFlash_boot _ _).2]
      dsimp only
      rw [hw, u1]; exact ⟨rfl, rfl⟩
  rw [← hu]
  refine ⟨s0.1, s0.2, ?_, ?_, ?_, ?_, ?_, ?_⟩
  · intro h4
    unfold flashRecovered
    rw [ht.1, u1]
    dsimp only
    rw [h4]
    dsimp only
    rw [ht.1, u1]
    dsimp only
    rw [h4]
  · intro img h4 h5
    unfold flashRecovered
    rw [ht.1, u1]
    dsimp only
    rw [h4]
    dsimp only
    unfold queueFlash
    rw [h5]
    rfl
  · rw [hr.2 .tmu rfl, ht.2.1, u2]
  · rw [hr.2 .fab rfl, ht.2.2.1]; exact u3
  · intro p hp
    rw [portOf_of (by rw [hr.2 .fab rfl] : _ = (cxlFault (portsTrained portsUp u)).fab.ports), ht.2.2.2.1 p hp, u4]
  · rw [hr.2 .hlt rfl, ht.2.2.2.2, u5]

end Sys2Proof.Machine
end

