-- ==== Sys2Proof/Laws/EffHealth.lean ====
section
/-! SUPPORT. What the commands of health, links and memory errors do (R40, R226, R227, R337 to R351). -/

namespace Sys2Proof.Machine

open Sys2Proof.Safety

/-! ## Cores -/

theorem sameCores_at {s t : State} (h : SameCores s t) (d p : Nat) : coreAt t d p = coreAt s d p := by
  unfold SameCores at h
  simp only [Prod.mk.injEq] at h
  exact coreAt_of h.1 d p

theorem sameCores_die {s t : State} (h : SameCores s t) (d : Nat) : dieOf t d = dieOf s d := by
  unfold SameCores at h
  simp only [Prod.mk.injEq] at h
  unfold dieOf
  rw [h.2.1]

theorem raise_cores (e : Event) (s : State) : SameCores s (raise e s) := raise_sameCores _ (SameCores.refl _)
theorem bump_cores (a n : Nat) (s : State) : SameCores s (bump a n s) := bump_sameCores _ _ (SameCores.refl _)

theorem coreAt_setDie (d : Nat) (x : Die) (s : State) (a p : Nat) : coreAt (setDie d x s) a p = coreAt s a p := rfl

theorem quarantine_at {die phys cause : Nat} {s : State} (h : phys < 64) :
    coreAt (quarantine die phys cause s) die phys = { coreAt s die phys with state := .quarantined, held := false } := by
  unfold quarantine
  dsimp only
  rw [sameCores_at ((bump_cores _ _ _).trans (queueFlash_sameCores _ (SameCores.refl _)))]
  rw [coreAt_setDie, coreAt_updCore _ _ h h]
  simp

theorem quarantine_other {die phys cause d p : Nat} {s : State} (h : p < 64) (h' : phys < 64) (hn : ¬ (d = die ∧ p = phys)) :
    coreAt (quarantine die phys cause s) d p = coreAt s d p := by
  unfold quarantine
  dsimp only
  rw [sameCores_at ((bump_cores _ _ _).trans (queueFlash_sameCores _ (SameCores.refl _)))]
  rw [coreAt_setDie, coreAt_updCore _ _ h h', if_neg hn]

theorem quarantine_counts {die phys cause : Nat} {s : State} :
    counter (quarantine die phys cause s) cQuarantine = min (counter s cQuarantine + 1) sMax := by
  unfold quarantine
  dsimp only
  rw [counter_bump_same]
  congr 2
  unfold counter counterRaw
  rw [(queueFlash_only (pts := [.stw]) rfl _ (Only.refl _ _)).2 .counters rfl]
  rfl

/-- A hard fault of a core that is not quarantined (R344, R346). -/
theorem hardFault_at {die phys cause : Nat} {s : State} (h1 : (coreAt s die phys).state ≠ .quarantined) (h2 : phys ≤ 33)
    (h3 : die ≤ 7) :
    coreAt (hardFault die phys cause s) die phys = { coreAt s die phys with state := .quarantined, held := false, score := 65535 } ∧
    eventBit (hardFault die phys cause s) .hardFault = true ∧
    min (counter s cQuarantine + 1) sMax ≤ counter (hardFault die phys cause s) cQuarantine := by
  have hb : ((coreAt s die phys).state == .quarantined || decide (33 < phys) || decide (7 < die)) = false := by
    simp [h1]; omega
  unfold hardFault
  dsimp only
  rw [hb, if_neg (by decide)]
  obtain ⟨u, hu⟩ : ∃ u, u = raise .hardFault (quarantine die phys cause (updCore die phys (fun c => { c with score := 65535 }) s)) :=
    ⟨_, rfl⟩
  rw [← hu]
  have u1 : coreAt u die phys = { coreAt s die phys with state := .quarantined, held := false, score := 65535 } := by
    rw [hu, sameCores_at (raise_cores _ _), quarantine_at (by omega), coreAt_updCore _ _ (by omega) (by omega)]
    simp
  have u2 : eventBit u .hardFault = true := by rw [hu]; simp
  have u3 : counter u cQuarantine = min (counter s cQuarantine + 1) sMax := by
    rw [hu, raise_counter, quarantine_counts]
    rfl
  split
  · rename_i l _
    have h4 : SameCores u (swapCheck (discardItems (die * 32 + l) u)) :=
      swapCheck_sameCores (discardItems_sameCores _ (SameCores.refl _))
    have h5 : Grows u (swapCheck (discardItems (die * 32 + l) u)) := swapCheck_grows (discardItems_grows _ (Grows.refl _))
    exact ⟨by rw [sameCores_at h4, u1], h5.bits _ u2, by rw [← u3]; exact h5.counters _⟩
  · exact ⟨u1, u2, Nat.le_of_eq u3.symm⟩

theorem itemOverrun_effect {die phys l : Nat} {s : State} (h1 : inService s = true) (h2 : servedBy s die phys = some l)
    (h3 : (coreAt s die phys).state ≠ .off) (h4 : (coreAt s die phys).state ≠ .quarantined) (h5 : phys ≤ 33) (h6 : die ≤ 7) :
    Completes (.itemOverrun die phys) s fun t =>
      coreAt t die phys = { coreAt s die phys with state := .quarantined, held := false, score := 65535 } ∧
      eventBit t .hardFault = true ∧ min (counter s cQuarantine + 1) sMax ≤ counter t cQuarantine := by
  refine ⟨_, rfl, ?_⟩
  dsimp only
  rw [if_pos (by simp [h1, h2, h3])]
  exact hardFault_at h4 h5 h6

theorem coreMemoryUe_effect {die phys : Nat} {s : State} (h1 : inService s = true)
    (h3 : (coreAt s die phys).state ≠ .off) (h4 : (coreAt s die phys).state ≠ .quarantined) (h5 : phys ≤ 33) (h6 : die ≤ 7) :
    Completes (.coreMemoryUe die phys) s fun t =>
      coreAt t die phys = { coreAt s die phys with state := .quarantined, held := false, score := 65535 } ∧
      eventBit t .hardFault = true ∧ min (counter s cQuarantine + 1) sMax ≤ counter t cQuarantine := by
  refine ⟨_, rfl, ?_⟩
  dsimp only
  rw [if_pos (by simp [h1, h3])]
  exact hardFault_at h4 h5 h6

theorem coreMemoryCe_effect {die phys : Nat} {s : State} (h1 : inService s = true) (h2 : die < 8) (h3 : phys < 34) :
    Completes (.coreMemoryCe die phys) s fun t =>
      coreAt t die phys = { coreAt s die phys with score := min 65535 ((coreAt s die phys).score + 4) } ∧
      (∀ d p, p < 34 → ¬ (d = die ∧ p = phys) → coreAt t d p = coreAt s d p) ∧
      counter t cCmCe = min (counter s cCmCe + 1) sMax := by
  refine ⟨_, rfl, ?_⟩
  dsimp only
  rw [if_pos (by simp [h1, h2, h3])]
  unfold addScore
  refine ⟨?_, ?_, ?_⟩
  · rw [coreAt_updCore _ _ (by omega) (by omega), sameCores_at (bump_cores _ _ _)]
    simp
  · intro d p hp hn
    rw [coreAt_updCore _ _ (by omega) (by omega), sameCores_at (bump_cores _ _ _), if_neg hn]
  · exact counter_bump_same cCmCe 1 s

theorem hourTick_effect {failed : List (Nat × Nat)} {s : State} (h1 : inService s = true)
    (h2 : ∀ c ∈ failed, c ∉ idleSpares s) :
    Completes (.hourTick failed) s fun t => t = { s with
      tmu := { s.tmu with now := max s.tmu.now (hourInstant s) }
      hlt := { s.hlt with
        cores := s.hlt.cores.map (fun e => (e.1, { e.2 with score := e.2.score - e.2.score / 8 }))
        hourAt := max s.tmu.now (hourInstant s) / hourNs } } := by
  unfold Completes
  simp only [exec, execHourTick, h1, if_true]
  refine ⟨_, rfl, ?_⟩
  have he : ∀ u : State, u.hlt.cores = s.hlt.cores.map (fun e => (e.1, { e.2 with score := e.2.score - e.2.score / 8 })) →
      (idleSpares u).filter (fun c => failed.contains c) = [] := by
    intro u hu
    have hi : idleSpares u = idleSpares s := by
      unfold idleSpares
      apply List.filter_congr
      intro c _
      have : (coreAt u c.1 c.2).state = (coreAt s c.1 c.2).state := by
        unfold coreAt Tab.getD
        rw [hu]
        generalize s.hlt.cores = l
        induction l with
        | nil => rfl
        | cons x t ih =>
          simp only [List.map_cons, Tab.look]
          split
          · rfl
          · exact ih
      rw [this]
    rw [hi, List.filter_eq_nil_iff]
    intro c hc hf
    exact h2 c (by simpa using hf) hc
  rw [he _ rfl]
  rfl

/-! ## Shadows and referees (R341 to R343) -/

theorem chargeShadow_parts (s : State) : Only [.hif, .hlt, .status, .free] s (chargeShadow s) :=
  chargeShadow_only rfl (Only.refl _ s)

/-- The state after a shadow's charge, its count and its mark; the page that the item held for it is let go (R117). -/
def shadowCounted (i : Item) (item : Nat) (s : State) : State :=
  let u := wEvent s.hlt.shadows (s.hlt.shadows + 1) 13 0x20 (chargeShadow s)
  let u := { u with
    hlt := { u.hlt with shadows := u.hlt.shadows + 1 }
    car := { u.car with items := u.car.items.map (fun j => if j.id = item then { j with shadowed := true, page := none } else j) } }
  match i.page with
  | some k => decRef k u
  | none => u

theorem shadowCounted_at (i : Item) (item : Nat) (s : State) :
    (shadowCounted i item s).car = { s.car with
      items := s.car.items.map (fun j => if j.id = item then { j with shadowed := true, page := none } else j) } ∧
    (shadowCounted i item s).hlt.shadows = s.hlt.shadows + 1 ∧ (shadowCounted i item s).hlt.mismatches = s.hlt.mismatches ∧
    (shadowCounted i item s).hlt.mseq = s.hlt.mseq ∧ (shadowCounted i item s).counters = s.counters := by
  have hc : SameCores s (wEvent s.hlt.shadows (s.hlt.shadows + 1) 13 0x20 (chargeShadow s)) :=
    wEvent_sameCores _ _ _ _ (chargeShadow_sameCores (SameCores.refl _))
  have ho := wEvent_only (pts := [.hif, .hlt, .status, .free]) rfl s.hlt.shadows (s.hlt.shadows + 1) 13 0x20 (chargeShadow_parts s)
  unfold SameCores at hc
  simp only [Prod.mk.injEq] at hc
  have hd : ∀ k u, (decRef k u).car = u.car ∧ (decRef k u).hlt = u.hlt ∧ (decRef k u).counters = u.counters := by
    intro k u
    have h := (decRef_only (pts := [.pgm]) rfl k (Only.refl _ u)).2
    exact ⟨h .car rfl, h .hlt rfl, h .counters rfl⟩
  unfold shadowCounted
  dsimp only
  split
  · rename_i k _
    rw [(hd k _).1, (hd k _).2.1, (hd k _).2.2]
    dsimp only
    rw [ho.2 .car rfl, ho.2 .counters rfl, hc.2.2.1, hc.2.2.2.1, hc.2.2.2.2.1]
    exact ⟨rfl, rfl, rfl, rfl, rfl⟩
  · dsimp only
    rw [ho.2 .car rfl, ho.2 .counters rfl, hc.2.2.1, hc.2.2.2.1, hc.2.2.2.2.1]
    exact ⟨rfl, rfl, rfl, rfl, rfl⟩

theorem shadowComplete_run {item : Nat} {prim shadow : List Byte} {sensors : MismatchSensors} {s : State} {i : Item}
    (h1 : s.car.items.find? (fun i => i.id == item) = some i) (h2 : inService s = true) (h3 : i.done = true)
    (h4 : i.shadowed = false) :
    exec (.shadowComplete item prim shadow sensors) s = .next (if prim = shadow then shadowCounted i item s
      else mismatch i ((shadowCore (shadowCounted i item s) i.core).getD i.core) prim shadow sensors (shadowCounted i item s)) := by
  unfold exec
  dsimp only
  unfold execShadowComplete
  rw [h1]
  dsimp only
  rw [if_neg (by simp [h2, h3, h4])]
  rfl

theorem shadowComplete_equal {item : Nat} {prim : List Byte} {sensors : MismatchSensors} {s : State} {i : Item}
    (h1 : s.car.items.find? (fun i => i.id == item) = some i) (h2 : inService s = true) (h3 : i.done = true)
    (h4 : i.shadowed = false) :
    Completes (.shadowComplete item prim prim sensors) s fun t =>
      t.car = { s.car with items := s.car.items.map (fun j => if j.id = item then { j with shadowed := true, page := none } else j) } ∧
      t.hlt.shadows = s.hlt.shadows + 1 ∧ t.hlt.mismatches = s.hlt.mismatches := by
  refine ⟨_, shadowComplete_run h1 h2 h3 h4, ?_⟩
  rw [if_pos rfl]
  have := shadowCounted_at i item s
  exact ⟨this.1, this.2.1, this.2.2.1⟩

theorem shadowComplete_differs {item : Nat} {prim shadow : List Byte} {sensors : MismatchSensors} {s : State} {i : Item}
    (h1 : s.car.items.find? (fun i => i.id == item) = some i) (h2 : inService s = true) (h3 : i.done = true)
    (h4 : i.shadowed = false) (h5 : prim ≠ shadow) (h6 : s.hlt.mismatches.length < 64) :
    Completes (.shadowComplete item prim shadow sensors) s fun t =>
      (∃ m, t.hlt.mismatches = s.hlt.mismatches ++ [m] ∧ m.item = i ∧ m.seqNo = (s.hlt.mseq + 1) % 2 ^ 32 ∧
        m.prim = prim ∧ m.shadow = shadow ∧ m.sensors = sensors ∧ m.refStep = some (i.step + 1)) ∧
      t.hlt.mseq = (s.hlt.mseq + 1) % 2 ^ 32 ∧ eventBit t .shadowMismatch = true ∧
      counter t cMismatch = min (counter s cMismatch + 1) sMax := by
  refine ⟨_, shadowComplete_run h1 h2 h3 h4, ?_⟩
  rw [if_neg h5]
  have hk := shadowCounted_at i item s
  generalize shadowCounted i item s = v at hk ⊢
  have hv : SameCores v (raise .shadowMismatch (bump cMismatch 1 v)) := (raise_cores _ _).trans (bump_cores _ _ _)
  have hc : counter (raise .shadowMismatch (bump cMismatch 1 v)) cMismatch = min (counter s cMismatch + 1) sMax := by
    rw [raise_counter, counter_bump_same]
    congr 2
    unfold counter counterRaw
    rw [hk.2.2.2.2]
  have he : eventBit (raise .shadowMismatch (bump cMismatch 1 v)) .shadowMismatch = true := eventBit_raise_same _ _
  unfold mismatch
  dsimp only
  generalize raise .shadowMismatch (bump cMismatch 1 v) = w at hv hc he ⊢
  unfold SameCores at hv
  simp only [Prod.mk.injEq] at hv
  rw [hv.2.2.1, hv.2.2.2.1, hk.2.2.1, hk.2.2.2.1]
  have hf : decide (64 ≤ s.hlt.mismatches.length) = false := by simp; omega
  rw [hf]
  simp only [Bool.false_eq_true, if_false]
  exact ⟨⟨_, rfl, rfl, rfl, rfl, rfl, rfl, rfl⟩, trivial, he, hc⟩

/-- The score and counts of a core charged with a fault, by the temperature band of its die (R344). -/
theorem chargeFault_at (phys : Nat) (temp : Int) (s : State) (h : phys % 256 < 64) :
    (coreAt (chargeFault phys temp s) (phys / 256) (phys % 256)).score = min 65535 ((coreAt s (phys / 256) (phys % 256)).score + 512) ∧
    (coreAt (chargeFault phys temp s) (phys / 256) (phys % 256)).faults = sNext (coreAt s (phys / 256) (phys % 256)).faults 1 := by
  unfold chargeFault
  dsimp only
  rw [coreAt_updCore _ _ h h]
  simp

theorem coreAt_settled (s : State) (a : Nat) (bs : List Byte) (x y : Nat) (d p : Nat) : coreAt { writeMem a bs s with
    hlt := { (writeMem a bs s).hlt with mismatchHead := x, mismatches := s.hlt.mismatches.filter (fun m => m.seqNo != y) } } d p =
    coreAt s d p := rfl

theorem mismatchRecord_same {s t : State} (h : t.stw = s.stw) (m : Mismatch) (o : Nat) (r : Option (List Byte)) :
    mismatchRecord t m o r = mismatchRecord s m o r := by
  unfold mismatchRecord issueK
  rw [h]

theorem chargeFault_stw (phys : Nat) (temp : Int) (s : State) :
    (chargeFault phys temp s).stw = s.stw ∧ (chargeFault phys temp s).hlt.mismatches = s.hlt.mismatches := ⟨rfl, rfl⟩

/-- REFEREE_COMPLETE that agrees with the shadow: the primary core is at fault, and the record is written. -/
theorem refereeComplete_primary {mm : Nat} {s : State} {m : Mismatch} (h1 : s.hlt.mismatches.find? (fun m => m.seqNo == mm) = some m)
    (h2 : inService s = true) (h3 : m.refStep.getD 0 ≤ stepNo s) (h4 : m.primPhys % 256 < 64) :
    Completes (.refereeComplete mm (some m.shadow)) s fun t =>
      (coreAt t (m.primPhys / 256) (m.primPhys % 256)).score =
        min 65535 ((coreAt s (m.primPhys / 256) (m.primPhys % 256)).score + 512) ∧
      (coreAt t (m.primPhys / 256) (m.primPhys % 256)).faults = sNext (coreAt s (m.primPhys / 256) (m.primPhys % 256)).faults 1 ∧
      t.hlt.mismatchHead = m.seqNo ∧ t.hlt.mismatches = s.hlt.mismatches.filter (fun x => x.seqNo != m.seqNo) ∧
      readMem t (mismatchBase + m.seqNo % 4096 * 64) (mismatchRecord s m 1 (some m.shadow)).length =
        mismatchRecord s m 1 (some m.shadow) := by
  unfold Completes
  unfold exec
  dsimp only
  unfold execRefereeComplete
  rw [h1]
  dsimp only
  rw [if_pos (by simp [h2, h3])]
  simp only [Option.isSome_some, if_true]
  refine ⟨_, rfl, ?_⟩
  have hc := chargeShadow_sameCores (SameCores.refl s)
  have hp := chargeShadow_parts s
  generalize chargeShadow s = v at hc hp ⊢
  have hf := chargeFault_at m.primPhys m.sensors.tempPrim v h4
  have hsm : settleMismatch m (some m.shadow) v = (fun w : State => { writeMem (mismatchBase + m.seqNo % 4096 * 64)
      (mismatchRecord w m 1 (some m.shadow)) w with hlt := { w.hlt with
        mismatchHead := m.seqNo, mismatches := w.hlt.mismatches.filter (fun x => x.seqNo != m.seqNo) } })
      (chargeFault m.primPhys m.sensors.tempPrim v) := by
    unfold settleMismatch
    simp only [if_true]
    rfl
  rw [hsm]
  dsimp only
  obtain ⟨w, hw⟩ : ∃ w, w = chargeFault m.primPhys m.sensors.tempPrim v := ⟨_, rfl⟩
  rw [← hw] at hf ⊢
  have w1 : w.stw = s.stw := by rw [hw]; exact hp.2 .stw rfl
  have w2 : w.hlt.mismatches = s.hlt.mismatches := by
    rw [hw, (chargeFault_stw _ _ _).2]
    unfold SameCores at hc
    simp only [Prod.mk.injEq] at hc
    exact hc.2.2.2.1
  rw [mismatchRecord_same w1]
  refine ⟨?_, ?_, rfl, ?_, ?_⟩
  · refine (congrArg Core.score (coreAt_of rfl _ _)).trans (hf.1.trans ?_)
    rw [sameCores_at hc]
  · refine (congrArg Core.faults (coreAt_of rfl _ _)).trans (hf.2.trans ?_)
    rw [sameCores_at hc]
  · show w.hlt.mismatches.filter _ = _; rw [w2]
  · exact readMem_writeMem_same _ _ w

/-! ## Self-check of a die (R350) -/

/-- A core of a die that fails its self-check. -/
def failSelfCheck (die p : Nat) (s : State) : State :=
  if (coreAt s die p).state == .quarantined then s
  else raise .hardFault (quarantine die p 3 (updCore die p (fun c => { c with score := 65535 }) s))

theorem failSelfCheck_state {die p q : Nat} {s : State} (hp : p < 34) (hq : q < 34) :
    (coreAt (failSelfCheck die p s) die q).state = if q = p then .quarantined else (coreAt s die q).state := by
  unfold failSelfCheck
  split
  · rename_i h
    have h' : (coreAt s die p).state = .quarantined := by simpa using h
    split
    · rename_i e; rw [e, h']
    · rfl
  · rw [sameCores_at (raise_cores _ _)]
    by_cases e : q = p
    · subst e
      rw [if_pos rfl, quarantine_at (by omega)]
    · rw [if_neg e, quarantine_other (by omega) (by omega) (by omega), coreAt_updCore _ _ (by omega) (by omega)]
      simp [e]

theorem foldl_failSelfCheck {die q : Nat} (hq : q < 34) (l : List Nat) (hl : ∀ p ∈ l, p < 34) (s : State) :
    (coreAt (l.foldl (fun s p => failSelfCheck die p s) s) die q).state =
      if q ∈ l then .quarantined else (coreAt s die q).state := by
  induction l generalizing s with
  | nil => simp
  | cons p t ih =>
    rw [List.foldl_cons, ih (fun x hx => hl x (List.mem_cons_of_mem _ hx)), failSelfCheck_state (hl p (List.mem_cons_self ..)) hq]
    by_cases h1 : q ∈ t
    · simp [h1]
    · by_cases h2 : q = p
      · simp [h2]
      · simp [h1, h2]

theorem dieOf_setDie (d : Nat) (x : Die) (s : State) : dieOf (setDie d x s) d = x := by
  unfold dieOf setDie
  exact Tab.getD_put_same _ _ _ _

theorem selfCheckComplete_effect {die : Nat} {failed : List Nat} {s : State} (h1 : inService s = true)
    (h2 : (dieOf s die).state = .readmitting) :
    Completes (.selfCheckComplete die failed) s fun t =>
      (dieOf t die).checked = true ∧ (dieOf t die).quarantines = (dieOf s die).quarantines ∧
      ∀ p, p < 34 → (coreAt t die p).state = if p ∈ failed then .quarantined else (coreAt s die p).state := by
  unfold Completes
  unfold exec
  dsimp only
  unfold execSelfCheckComplete
  rw [if_pos (by simp [h1, h2])]
  refine ⟨_, rfl, ?_, ?_, ?_⟩
  · rw [dieOf_setDie]
  · rw [dieOf_setDie]
  · intro p hp
    have := foldl_failSelfCheck (die := die) hp (failed.filter (fun x => decide (x < 34))) (fun x hx => by
      simpa using (List.mem_filter.1 hx).2) s
    rw [coreAt_setDie]
    refine this.trans ?_
    simp [hp]

/-! ## Links (R40) -/

theorem d2dLinkFailure_effect {link : Nat} {down : Bool} {s : State} (h1 : linksTrained s = true) (h2 : link < 24) :
    Completes (.d2dLinkFailure link down) s fun t =>
      t.hlt.links = Tab.put link (if down then .down else .degraded) s.hlt.links ∧ eventBit t .linkDegraded = true := by
  refine ⟨_, rfl, ?_⟩
  dsimp only
  rw [if_pos (by simp [h1, h2])]
  obtain ⟨u, hu⟩ : ∃ u, u = setLink link (if down then .down else .degraded) s := ⟨_, rfl⟩
  rw [← hu]
  have h : SameLinks u (linkConsequence link (raise .linkDegraded u)) :=
    linkConsequence_sameLinks _ (raise_sameLinks _ (SameLinks.refl _))
  refine ⟨?_, (linkConsequence_grows _ (Grows.refl _)).bits _ (eventBit_raise_same _ _)⟩
  unfold SameLinks at h
  rw [h, hu]
  rfl

theorem laneRepair_effect {link : Nat} {s : State} (h1 : linksTrained s = true) (h2 : link < 24) :
    Completes (.laneRepair link) s fun t => t.hlt.links = Tab.put link .repaired s.hlt.links := by
  refine ⟨_, rfl, ?_⟩
  dsimp only
  rw [if_pos (by simp [h1, h2])]
  exact linkConsequence_sameLinks link (SameLinks.refl (setLink link .repaired s))

/-! ## Memory errors (R226, R227) -/

theorem gddr7Corrected_effect {s : State} (h1 : inService s = true) :
    Completes .gddr7Corrected s fun t =>
      eventBit t .corrected = true ∧ counter t cCe = min (counter s cCe + 1) sMax ∧
      Only [.hif, .hlt, .status, .counters] s t := by
  refine ⟨_, rfl, ?_⟩
  dsimp only
  rw [if_pos h1]
  refine ⟨eventBit_raise_same _ _, ?_, raise_only rfl _ (bump_parts _ _ _)⟩
  rw [raise_counter, counter_bump_same]

theorem ueOutcome_keeps (w : UeWhere) (s : State) : Grows s (ueOutcome w s) := ueOutcome_grows _ (Grows.refl _)

/-- What every uncorrectable error counts and raises. -/
theorem gddr7Uncorrectable_counts {w : UeWhere} {s : State} (h1 : inService s = true) :
    Completes (.gddr7Uncorrectable w) s fun t =>
      eventBit t .uncorrectable = true ∧ min (counter s cUe + 1) sMax ≤ counter t cUe := by
  refine ⟨_, rfl, ?_⟩
  dsimp only
  rw [if_pos h1]
  unfold uncorrectable
  have hg := ueOutcome_keeps w (raise .uncorrectable (bump cUe 1 s))
  refine ⟨hg.bits _ (eventBit_raise_same _ _), ?_⟩
  have := hg.counters cUe
  rwa [raise_counter, counter_bump_same] at this

theorem gddr7Uncorrectable_system {s : State} (h1 : inService s = true) :
    Completes (.gddr7Uncorrectable .systemArea) s fun t => faultSystem ∈ t.hlt.faults := by
  refine ⟨_, rfl, ?_⟩
  dsimp only
  rw [if_pos h1]
  show _ ∈ (addFault faultSystem _).hlt.faults
  unfold addFault
  split
  · rename_i h; simpa using h
  · simp

theorem gddr7Uncorrectable_history {slot copy : Nat} {s : State} (h1 : inService s = true) (h2 : Tab.has slot s.slc.hist = true)
    (h3 : copy < 2) (h4 : s.slc.histBad.contains (slot, copy) = false) :
    Completes (.gddr7Uncorrectable (.history slot copy)) s fun t => t.slc.histBad = s.slc.histBad ++ [(slot, copy)] := by
  refine ⟨_, rfl, ?_⟩
  dsimp only
  rw [if_pos h1]
  show (historyError slot copy _).slc.histBad = _
  unfold historyError
  rw [raise_slc, bump_slc, h2, h4, if_pos (by simp [h3])]

theorem gddr7Uncorrectable_object {i e : Nat} {s : State} {d : Desc} (h1 : inService s = true) (h2 : descAt s i = some d)
    (h3 : d.copyValid = false ∨ e ∈ d.dirty) (h4 : d.object = true) :
    Completes (.gddr7Uncorrectable (.objectExtent i e)) s fun t =>
      descAt t i = some { d with damaged := true } ∧ eventBit t .objectDamaged = true := by
  refine ⟨_, rfl, ?_⟩
  dsimp only
  rw [if_pos h1]
  have hd : descAt (raise .uncorrectable (bump cUe 1 s)) i = some d := by
    unfold descAt at h2 ⊢
    rw [raise_pgm, bump_pgm]; exact h2
  unfold uncorrectable ueOutcome
  dsimp only
  rw [hd]
  dsimp only
  rw [if_neg (by rcases h3 with h3 | h3 <;> simp [h3])]
  unfold damageObject
  rw [hd]
  dsimp only
  rw [if_pos h4]
  refine ⟨?_, eventBit_raise_same _ _⟩
  have := updDesc_at (fun d => { d with damaged := true }) hd
  unfold descAt at this ⊢
  rw [raise_pgm]; exact this

theorem bump_tir_segments (a n : Nat) (e : Event) (s : State) : (raise e (bump a n s)).tir.segments = s.tir.segments := by
  rw [raise_tir, bump_tir]

theorem segmentLine_at {i : Nat} {failed : Bool} {s : State} {g : Segment} (h : s.tir.segments[i]? = some g) :
    (segmentLine i failed s).tir.segments = s.tir.segments.set i { g with
      failures := if failed then g.failures + 1 else 0
      state := if 16 ≤ (if failed then g.failures + 1 else 0) then .failed else g.state } := by
  unfold segmentLine
  rw [h]
  dsimp only
  have : ∀ b, (raiseIf b .tierSegmentFailed s).tir = s.tir := by
    intro b
    cases b
    · rfl
    · exact raise_tir _ _
  rw [this]
  simp

/-- A line answered at the second try. -/
theorem t2LineTimeout_recovered {i : Nat} {w : UeWhere} {s : State} {g : Segment} (h1 : inService s = true)
    (h2 : s.tir.segments[i]? = some g) (h3 : g.state = .active) :
    Completes (.t2LineTimeout i false w) s fun t =>
      t.tir.segments = s.tir.segments.set i { g with failures := 0 } ∧ eventBit t .t2Retry = true ∧
      counter t cRetry = min (counter s cRetry + 1) sMax := by
  unfold Completes
  unfold exec
  dsimp only
  unfold execT2LineTimeout
  rw [h2]
  dsimp only
  rw [if_pos (by simp [h1, h3])]
  refine ⟨_, rfl, ?_⟩
  rw [if_neg (by decide)]
  have hs := bump_tir_segments cRetry 1 .t2Retry s
  have hg := segmentLine_grows i false (Grows.refl (raise .t2Retry (bump cRetry 1 s)))
  have hp := segmentLine_only (pts := [.tir, .hif, .status]) rfl i false (Only.refl _ (raise .t2Retry (bump cRetry 1 s)))
  refine ⟨?_, hg.bits _ (eventBit_raise_same _ _), ?_⟩
  · rw [segmentLine_at (by rw [hs]; exact h2), hs]
    simp
  · have h4 := counter_bump_same cRetry 1 s
    unfold counter counterRaw at h4 ⊢
    rw [hp.2 .counters rfl, raise_counters]
    exact h4

/-- What an uncorrectable error does to the tiers leaves the segments alone. -/
theorem ueOutcome_segments (w : UeWhere) (s : State) : (ueOutcome w s).tir.segments = s.tir.segments := by
  cases w with
  | systemArea => exact congrArg Tir.segments ((addFault_only (pts := [.hlt]) rfl _ (Only.refl _ s)).2 .tir rfl)
  | weightCache c l => exact congrArg Tir.segments ((refetch_only (pts := [.mdl]) rfl c l (Only.refl _ s)).2 .tir rfl)
  | adapter v => exact congrArg Tir.segments ((refetchAdapter_only (pts := [.mdl]) rfl v (Only.refl _ s)).2 .tir rfl)
  | cleanCopy i => exact congrArg Tir.segments ((cleanError_only (pts := [.pgm]) rfl i (Only.refl _ s)).2 .tir rfl)
  | page i => exact congrArg Tir.segments ((pageError_only (pts := [.sqs, .pgm, .cmp, .fab, .wei, .hif, .hlt, .status]) rfl i (Only.refl _ s)).2 .tir rfl)
  | history slot copy =>
    exact congrArg Tir.segments ((historyError_only (pts := [.slc]) rfl slot copy (Only.refl _ s)).2 .tir rfl)
  | objectExtent i e =>
    unfold ueOutcome
    dsimp only
    split
    · rfl
    · split
      · exact congrArg Tir.segments ((cleanError_only (pts := [.pgm]) rfl i (Only.refl _ s)).2 .tir rfl)
      · exact congrArg Tir.segments ((damageObject_only (pts := [.pgm, .hif, .status]) rfl i (Only.refl _ s)).2 .tir rfl)
  | sealWrite i =>
    unfold ueOutcome
    dsimp only
    split
    · rfl
    · split <;> rfl

/-- A line that failed again: the sixteenth failure in a row fails the segment. -/
theorem t2LineTimeout_failed {i : Nat} {w : UeWhere} {s : State} {g : Segment} (h1 : inService s = true)
    (h2 : s.tir.segments[i]? = some g) (h3 : g.state = .active) :
    Completes (.t2LineTimeout i true w) s fun t =>
      t.tir.segments = s.tir.segments.set i { g with
        failures := g.failures + 1, state := if 16 ≤ g.failures + 1 then .failed else .active } ∧
      eventBit t .t2Retry = true ∧ eventBit t .uncorrectable = true ∧
      min (counter s cUe + 1) sMax ≤ counter t cUe := by
  unfold Completes
  unfold exec
  dsimp only
  unfold execT2LineTimeout
  rw [h2]
  dsimp only
  rw [if_pos (by simp [h1, h3])]
  refine ⟨_, rfl, ?_⟩
  rw [if_pos rfl]
  have hs := bump_tir_segments cRetry 1 .t2Retry s
  have hg := segmentLine_grows i true (Grows.refl (raise .t2Retry (bump cRetry 1 s)))
  have hl := segmentLine_at (failed := true) (by rw [hs]; exact h2 : (raise .t2Retry (bump cRetry 1 s)).tir.segments[i]? = some g)
  have hc : counter s cUe ≤ counter (raise .t2Retry (bump cRetry 1 s)) cUe :=
    (raise_grows .t2Retry (bump_grows cRetry 1 (Grows.refl s))).counters cUe
  have he : eventBit (raise .t2Retry (bump cRetry 1 s)) .t2Retry = true := eventBit_raise_same _ _
  generalize raise .t2Retry (bump cRetry 1 s) = v at hs hg hl hc he ⊢
  generalize segmentLine i true v = w' at hg hl ⊢
  have hu := ueOutcome_keeps w (raise .uncorrectable (bump cUe 1 w'))
  have hx := ueOutcome_segments w (raise .uncorrectable (bump cUe 1 w'))
  unfold uncorrectable
  generalize ueOutcome w (raise .uncorrectable (bump cUe 1 w')) = x at hu hx ⊢
  have hz := strandHomes_grows (Grows.refl x)
  have hy := (strandHomes_only (pts := [.sqs, .pgm, .cmp, .fab, .wei, .hif, .hlt, .status]) rfl (Only.refl _ x)).2 .tir rfl
  generalize strandHomes x = y at hz hy ⊢
  refine ⟨?_, ?_, ?_, ?_⟩
  · rw [hy, hx, bump_tir_segments, hl, hs]
    simp [h3]
  · exact hz.bits _ (hu.bits _ (eventBit_raise_of (eventBit_bump_of (hg.bits _ he))))
  · exact hz.bits _ (hu.bits _ (eventBit_raise_same _ _))
  · have h5 := hu.counters cUe
    rw [raise_counter, counter_bump_same] at h5
    have h6 := hg.counters cUe
    have h7 := hz.counters cUe
    refine Nat.le_trans ?_ (Nat.le_trans h5 h7)
    omega

end Sys2Proof.Machine
end

