-- ==== Sys2Proof/Laws/RingSides.lean ====
section
/-! SUPPORT. Journalling, queuing and what a command changes besides its completion leave the host rings alone (R362, R363).
`f_rings`: if `s` has them as `s0`, so has what `f` makes of `s`.
`f_sq`: the submission side of the rings is that of `s0` too after completions. -/

namespace Sys2Proof.Safety

open Sys2Proof.Machine

/-- Two states have the same host rings (R362, R363). -/
def SameRings (s0 s : State) : Prop := s.hif.rings = s0.hif.rings

theorem SameRings.refl (s : State) : SameRings s s := rfl

theorem SameRings.foldl {α : Type} {f : State → α → State} {s0 s : State} {l : List α}
    (hf : ∀ s a, SameRings s0 s → SameRings s0 (f s a)) (h : SameRings s0 s) : SameRings s0 (l.foldl f s) := by
  induction l generalizing s with
  | nil => exact h
  | cons a t ih => exact ih (hf s a h)

theorem SameRings.foldl_fst {α β : Type} {f : State × β → α → State × β} {s0 : State} {p : State × β} {l : List α}
    (hf : ∀ p a, SameRings s0 p.1 → SameRings s0 (f p a).1) (h : SameRings s0 p.1) : SameRings s0 (l.foldl f p).1 := by
  induction l generalizing p with
  | nil => exact h
  | cons a t ih => exact ih (hf p a h)

theorem SameRings.foldl_snd {α β : Type} {f : β × State → α → β × State} {s0 : State} {p : β × State} {l : List α}
    (hf : ∀ p a, SameRings s0 p.2 → SameRings s0 (f p a).2) (h : SameRings s0 p.2) : SameRings s0 (l.foldl f p).2 := by
  induction l generalizing p with
  | nil => exact h
  | cons a t ih => exact ih (hf p a h)

theorem SameRings.of_snd {α : Type} {s0 s : State} {p : α × State} {a : α} (e : p = (a, s)) (h : SameRings s0 p.2) : SameRings s0 s := by
  subst e; exact h

theorem SameRings.of_snd2 {α β : Type} {s0 s : State} {p : α × β × State} {a : α} {b : β} (e : p = (a, b, s))
    (h : SameRings s0 p.2.2) : SameRings s0 s := by
  subst e; exact h

theorem SameRings.of_fst {α : Type} {s0 s : State} {p : State × α} {a : α} (e : p = (s, a)) (h : SameRings s0 p.1) : SameRings s0 s := by
  subst e; exact h

theorem SameRings.put {s0 s : State} {tmu sqs slc pgm tir cmp car mdl fab wei hif sec hlt stw sup status counters mem free pending}
    (h : SameRings s0 s) (hi : hif.rings = s.hif.rings) :
    SameRings s0 ⟨tmu, sqs, slc, pgm, tir, cmp, car, mdl, fab, wei, hif, sec, hlt, stw, sup, status, counters, mem, free,
      pending⟩ := hi.trans h

end Sys2Proof.Safety

namespace Sys2Proof.Machine

open Sys2Proof.Safety

theorem setStatus_rings {s0 s : State} (a) (w) (h : SameRings s0 s) : SameRings s0 (setStatus a w s) := by
  unfold setStatus
  try dsimp only
  exact SameRings.put (by assumption) rfl

theorem msix_rings {s0 s : State} (v) (h : SameRings s0 s) : SameRings s0 (msix v s) := by
  unfold msix
  try dsimp only
  exact SameRings.put (by assumption) rfl

theorem raiseAt_rings {s0 s : State} (a) (bit) (h : SameRings s0 s) : SameRings s0 (raiseAt a bit s) := by
  unfold raiseAt
  try dsimp only
  split
  · exact setStatus_rings _ _ (by assumption)
  · exact msix_rings _ (setStatus_rings _ _ (by assumption))

theorem raise_rings {s0 s : State} (e_) (h : SameRings s0 s) : SameRings s0 (raise e_ s) := by
  unfold raise
  try dsimp only
  exact raiseAt_rings _ _ (by assumption)

theorem counterEvent_rings {s0 s : State} (sat) (block) (offset)
    (h : SameRings s0 s) : SameRings s0 (counterEvent sat block offset s) := by
  unfold counterEvent
  try dsimp only
  split
  · exact SameRings.put (by assumption) rfl
  · exact raise_rings _ (SameRings.put (by assumption) rfl)

theorem bump_rings {s0 s : State} (a n) (h : SameRings s0 s) : SameRings s0 (bump a n s) := by
  unfold bump
  dsimp only
  split
  · exact h
  · split
    · exact h
    · exact counterEvent_rings _ _ _ h

theorem raiseIf_rings {s0 s : State} (b) (e_) (h : SameRings s0 s) : SameRings s0 (raiseIf b e_ s) := by
  unfold raiseIf
  try dsimp only
  split
  · exact raise_rings _ (by assumption)
  · assumption

theorem wEvent_rings {s0 s : State} (old) (new) (block) (offset)
    (h : SameRings s0 s) : SameRings s0 (wEvent old new block offset s) := by
  unfold wEvent
  try dsimp only
  split
  · exact counterEvent_rings _ _ _ (by assumption)
  · assumption

theorem writeMem_rings {s0 s : State} (a bs) (h : SameRings s0 s) : SameRings s0 (writeMem a bs s) := h

theorem setAcct_rings {s0 s : State} (d) (a) (h : SameRings s0 s) : SameRings s0 (setAcct d a s) := by
  unfold setAcct
  try dsimp only
  exact SameRings.put (by assumption) rfl

theorem charge_rings {s0 s : State} (d) (k) (n) (h : SameRings s0 s) : SameRings s0 (charge d k n s) := by
  unfold charge
  try dsimp only
  exact wEvent_rings _ _ _ _ (wEvent_rings _ _ _ _ (setAcct_rings _ _ (by assumption)))

theorem chargeSplit_rings {s0 s : State} (k) (x) (dikes) (h : SameRings s0 s) : SameRings s0 (chargeSplit k x dikes s) := by
  unfold chargeSplit
  try dsimp only
  refine charge_rings _ _ _ ?_
  refine SameRings.foldl (fun _ _ _ => ?_) ?_
  · exact charge_rings _ _ _ (by assumption)
  · assumption

theorem rotate_rings {s0 s : State} (die) (h : SameRings s0 s) : SameRings s0 (rotate die s).2.2 := by
  unfold rotate
  try dsimp only
  exact SameRings.put (by assumption) rfl

theorem setQueue_rings {s0 s : State} (q) (w) (h : SameRings s0 s) : SameRings s0 (setQueue q w s) := by
  unfold setQueue
  try dsimp only
  exact SameRings.put (by assumption) rfl

theorem setActive_rings {s0 s : State} (p) (l) (h : SameRings s0 s) : SameRings s0 (setActive p l s) := by
  unfold setActive
  try dsimp only
  exact SameRings.put (by assumption) rfl

theorem joinActive_rings {s0 s : State} (q) (p) (h : SameRings s0 s) : SameRings s0 (joinActive q p s) := by
  unfold joinActive
  try dsimp only
  split
  · assumption
  · exact setActive_rings _ _ (setQueue_rings _ _ (by assumption))

theorem joinAll_rings {s0 s : State} (q) (h : SameRings s0 s) : SameRings s0 (joinAll q s) := by
  unfold joinAll
  try dsimp only
  refine SameRings.foldl (fun _ _ _ => ?_) ?_
  · exact joinActive_rings _ _ (by assumption)
  · assumption

theorem leaveAll_rings {s0 s : State} (q) (h : SameRings s0 s) : SameRings s0 (leaveAll q s) := by
  unfold leaveAll
  try dsimp only
  refine SameRings.foldl (fun _ _ _ => ?_) ?_
  · exact setActive_rings _ _ (by assumption)
  · assumption

theorem testQueue_rings {s0 s : State} (q) (h : SameRings s0 s) : SameRings s0 (testQueue q s) := by
  unfold testQueue
  try dsimp only
  split
  · exact joinAll_rings _ (setQueue_rings _ _ (by assumption))
  · exact leaveAll_rings _ (setQueue_rings _ _ (by assumption))

theorem enqueue_rings {s0 s : State} (q) (p) (f) (h : SameRings s0 s) : SameRings s0 (enqueue q p f s) := by
  unfold enqueue
  try dsimp only
  split
  · exact setQueue_rings _ _ (by assumption)
  · split
    · exact testQueue_rings _ (setQueue_rings _ _ (by assumption))
    · split
      · split
        · exact joinActive_rings _ _ (setQueue_rings _ _ (by assumption))
        · exact setQueue_rings _ _ (by assumption)
      · split
        · exact joinActive_rings _ _ (setQueue_rings _ _ (by assumption))
        · exact setQueue_rings _ _ (by assumption)

theorem queuePacket_rings {s0 s : State} (m) (i) (flags) (h : SameRings s0 s) : SameRings s0 (queuePacket m i flags s) := by
  unfold queuePacket
  try dsimp only
  exact enqueue_rings _ _ _ (rotate_rings _ (by assumption))

theorem startMsg_rings {s0 s : State} (m) (h : SameRings s0 s) : SameRings s0 (startMsg m s) := by
  unfold startMsg
  try dsimp only
  refine SameRings.foldl (fun _ _ _ => ?_) ?_
  · exact queuePacket_rings _ _ _ (by assumption)
  · exact SameRings.put (by assumption) rfl

theorem submitMsg_rings {s0 s : State} (m) (h : SameRings s0 s) : SameRings s0 (submitMsg m s) := by
  unfold submitMsg
  try dsimp only
  split
  · exact startMsg_rings _ (by assumption)
  · exact SameRings.put (by assumption) rfl

theorem takeSeq_rings {s0 s : State} (dest) (h : SameRings s0 s) : SameRings s0 (takeSeq dest s).2 := by
  unfold takeSeq
  try dsimp only
  exact SameRings.put (by assumption) rfl

theorem writeFlash_rings {s0 s : State} (a) (bs) (h : SameRings s0 s) : SameRings s0 (writeFlash a bs s) := by
  unfold writeFlash
  try dsimp only
  exact SameRings.put (by assumption) rfl

theorem settleFlash_rings {s0 x1 : State} (x0) (h : SameRings s0 x1) : SameRings s0 (settleFlash x0 x1) := by
  induction x0 generalizing x1 with
  | zero =>
    unfold settleFlash
    try dsimp only
    assumption
  | succ n ih =>
    unfold settleFlash
    try dsimp only
    split
    · apply ih
      exact writeFlash_rings _ _ (SameRings.put (by assumption) rfl)
    · exact SameRings.put (by assumption) rfl
    · assumption

theorem queueFlash_rings {s0 s : State} (w) (h : SameRings s0 s) : SameRings s0 (queueFlash w s) := by
  unfold queueFlash
  try dsimp only
  exact settleFlash_rings _ (SameRings.put (by assumption) rfl)

theorem ringWrite_rings {s0 s : State} (base) (cap) (u) (bs) (h : SameRings s0 s) : SameRings s0 (ringWrite base cap u bs s) := by
  unfold ringWrite
  try dsimp only
  exact writeMem_rings _ _ (writeMem_rings _ _ (by assumption))

theorem putRecord_rings {s0 s : State} (kind) (flags) (step) (action) (tenant) (source) (sseq) (body)
    (h : SameRings s0 s) : SameRings s0 (putRecord kind flags step action tenant source sseq body s).2 := by
  unfold putRecord
  try dsimp only
  exact SameRings.put (ringWrite_rings _ _ _ _ (by assumption)) rfl

theorem putJournal_rings {s0 s : State} (kind) (flags) (step) (action) (tenant) (source) (sseq) (body)
    (h : SameRings s0 s) : SameRings s0 (putJournal kind flags step action tenant source sseq body s) := by
  unfold putJournal
  try dsimp only
  split
  · exact putRecord_rings _ _ _ _ _ _ _ _ (by assumption)
  · exact putRecord_rings _ _ _ _ _ _ _ _ (raise_rings _ (bump_rings _ _ (putRecord_rings _ _ _ _ _ _ _ _
      (by assumption))))

theorem journal_rings {s0 s : State} (kind) (action) (tenant) (source) (sseq) (body)
    (h : SameRings s0 s) : SameRings s0 (journal kind action tenant source sseq body s) := by
  unfold journal
  try dsimp only
  split
  · refine SameRings.foldl (fun _ _ _ => ?_) ?_
    · exact putJournal_rings _ _ _ _ _ _ _ _ (by assumption)
    · assumption
  · assumption

theorem applySetQueue_rings {s0 s : State} (q) (enable) (quantum) (rate)
    (h : SameRings s0 s) : SameRings s0 (applySetQueue q enable quantum rate s) := by
  unfold applySetQueue
  try dsimp only
  split
  · exact testQueue_rings _ (setQueue_rings _ _ (by assumption))
  · exact leaveAll_rings _ (testQueue_rings _ (setQueue_rings _ _ (by assumption)))

theorem weirResult_rings {s0 s : State} (cmd) (cause) (object) (h : SameRings s0 s) : SameRings s0 (weirResult cmd cause object s) := by
  unfold weirResult
  try dsimp only
  exact SameRings.put (by assumption) rfl

theorem setWindow_rings {s0 s : State} (w) (r) (h : SameRings s0 s) : SameRings s0 (setWindow w r s) := by
  unfold setWindow
  try dsimp only
  exact SameRings.put (by assumption) rfl

theorem beginRevoke_rings {s0 s : State} (w) (t) (reopen) (h : SameRings s0 s) : SameRings s0 (beginRevoke w t reopen s) := by
  unfold beginRevoke
  try dsimp only
  exact setWindow_rings _ _ (by assumption)

theorem openAs_rings {s0 s : State} (w) (d) (o) (h : SameRings s0 s) : SameRings s0 (openAs w d o s) := by
  unfold openAs
  try dsimp only
  exact setWindow_rings _ _ (by assumption)

theorem addWait_rings {s0 s : State} (p) (h : SameRings s0 s) : SameRings s0 (addWait p s) := by
  unfold addWait
  try dsimp only
  exact SameRings.put (by assumption) rfl

theorem noteFirst_rings {s0 s : State} (source) (sseq) (h : SameRings s0 s) : SameRings s0 (noteFirst source sseq s) := by
  unfold noteFirst
  try dsimp only
  split
  · assumption
  · exact SameRings.put (by assumption) rfl

theorem logEvent_rings {s0 s : State} (code digest) (h : SameRings s0 s) : SameRings s0 (logEvent code digest s) := h

theorem tableResult_rings {s0 s : State} (cmd) (cause) (entry) (h : SameRings s0 s) : SameRings s0 (tableResult cmd cause entry s) := by
  unfold tableResult
  try dsimp only
  exact SameRings.put (by assumption) rfl

end Sys2Proof.Machine

namespace Sys2Proof.Safety

open Sys2Proof.Machine

/-- The rings' control words and their submission sides are the same (R362, R363). -/
def SameSq (s0 s : State) : Prop := ∀ r, (ringOf s r).ctrl = (ringOf s0 r).ctrl ∧ (ringOf s r).error = (ringOf s0 r).error ∧
  (ringOf s r).sqHead = (ringOf s0 r).sqHead ∧ (ringOf s r).sqTail = (ringOf s0 r).sqTail

theorem SameSq.refl (s : State) : SameSq s s := fun _ => ⟨rfl, rfl, rfl, rfl⟩

theorem SameSq.put {s0 s : State} {tmu sqs slc pgm tir cmp car mdl fab wei hif sec hlt stw sup status counters mem free pending}
    (h : SameSq s0 s) (hi : hif.rings = s.hif.rings) :
    SameSq s0 ⟨tmu, sqs, slc, pgm, tir, cmp, car, mdl, fab, wei, hif, sec, hlt, stw, sup, status, counters, mem, free,
      pending⟩ := by
  intro r
  have := h r
  unfold ringOf at *
  dsimp only
  rw [hi]
  exact this

theorem SameSq.foldl {α : Type} {f : State → α → State} {s0 s : State} {l : List α}
    (hf : ∀ s a, SameSq s0 s → SameSq s0 (f s a)) (h : SameSq s0 s) : SameSq s0 (l.foldl f s) := by
  induction l generalizing s with
  | nil => exact h
  | cons a t ih => exact ih (hf s a h)

theorem SameSq.foldl_fst {α β : Type} {f : State × β → α → State × β} {s0 : State} {p : State × β} {l : List α}
    (hf : ∀ p a, SameSq s0 p.1 → SameSq s0 (f p a).1) (h : SameSq s0 p.1) : SameSq s0 (l.foldl f p).1 := by
  induction l generalizing p with
  | nil => exact h
  | cons a t ih => exact ih (hf p a h)

theorem SameSq.foldl_snd {α β : Type} {f : β × State → α → β × State} {s0 : State} {p : β × State} {l : List α}
    (hf : ∀ p a, SameSq s0 p.2 → SameSq s0 (f p a).2) (h : SameSq s0 p.2) : SameSq s0 (l.foldl f p).2 := by
  induction l generalizing p with
  | nil => exact h
  | cons a t ih => exact ih (hf p a h)

theorem SameSq.of_snd {α : Type} {s0 s : State} {p : α × State} {a : α} (e : p = (a, s)) (h : SameSq s0 p.2) : SameSq s0 s := by
  subst e; exact h

theorem SameSq.of_snd2 {α β : Type} {s0 s : State} {p : α × β × State} {a : α} {b : β} (e : p = (a, b, s))
    (h : SameSq s0 p.2.2) : SameSq s0 s := by
  subst e; exact h

theorem SameSq.of_fst {α : Type} {s0 s : State} {p : State × α} {a : α} (e : p = (s, a)) (h : SameSq s0 p.1) : SameSq s0 s := by
  subst e; exact h

end Sys2Proof.Safety

namespace Sys2Proof.Machine

open Sys2Proof.Safety

theorem setStatus_sq {s0 s : State} (a) (w) (h : SameSq s0 s) : SameSq s0 (setStatus a w s) := by
  unfold setStatus
  try dsimp only
  exact SameSq.put (by assumption) rfl

theorem msix_sq {s0 s : State} (v) (h : SameSq s0 s) : SameSq s0 (msix v s) := by
  unfold msix
  try dsimp only
  exact SameSq.put (by assumption) rfl

theorem raiseAt_sq {s0 s : State} (a) (bit) (h : SameSq s0 s) : SameSq s0 (raiseAt a bit s) := by
  unfold raiseAt
  try dsimp only
  split
  · exact setStatus_sq _ _ (by assumption)
  · exact msix_sq _ (setStatus_sq _ _ (by assumption))

theorem raise_sq {s0 s : State} (e_) (h : SameSq s0 s) : SameSq s0 (raise e_ s) := by
  unfold raise
  try dsimp only
  exact raiseAt_sq _ _ (by assumption)

theorem counterEvent_sq {s0 s : State} (sat) (block) (offset)
    (h : SameSq s0 s) : SameSq s0 (counterEvent sat block offset s) := by
  unfold counterEvent
  try dsimp only
  split
  · exact SameSq.put (by assumption) rfl
  · exact raise_sq _ (SameSq.put (by assumption) rfl)

theorem bump_sq {s0 s : State} (a n) (h : SameSq s0 s) : SameSq s0 (bump a n s) := by
  unfold bump
  dsimp only
  split
  · exact h
  · split
    · exact h
    · exact counterEvent_sq _ _ _ h

theorem raiseIf_sq {s0 s : State} (b) (e_) (h : SameSq s0 s) : SameSq s0 (raiseIf b e_ s) := by
  unfold raiseIf
  try dsimp only
  split
  · exact raise_sq _ (by assumption)
  · assumption

theorem wEvent_sq {s0 s : State} (old) (new) (block) (offset)
    (h : SameSq s0 s) : SameSq s0 (wEvent old new block offset s) := by
  unfold wEvent
  try dsimp only
  split
  · exact counterEvent_sq _ _ _ (by assumption)
  · assumption

theorem setRing_sq {s0 s : State} (r) (g) (h : SameSq s0 s)
    (hg : g.ctrl = (ringOf s r).ctrl ∧ g.error = (ringOf s r).error ∧ g.sqHead = (ringOf s r).sqHead ∧ g.sqTail = (ringOf s r).sqTail) :
    SameSq s0 (setRing r g s) := by
  intro k
  obtain ⟨a, b, c, d⟩ := h k
  unfold ringOf setRing at *
  dsimp only
  by_cases hk : k = r
  · subst hk
    rw [Tab.getD_put_same]
    exact ⟨hg.1.trans a, hg.2.1.trans b, hg.2.2.1.trans c, hg.2.2.2.trans d⟩
  · rw [Tab.getD_put_other hk]
    exact ⟨a, b, c, d⟩

theorem writeMem_sq {s0 s : State} (a bs) (h : SameSq s0 s) : SameSq s0 (writeMem a bs s) := h

theorem postEntry_sq {s0 s : State} (r) (mk) (h : SameSq s0 s) : SameSq s0 (postEntry r mk s) := by
  unfold postEntry
  exact msix_sq _ (setRing_sq _ _ (writeMem_sq _ _ h) ⟨rfl, rfl, rfl, rfl⟩)

theorem complete_sq {s0 s : State} (t status cause reason r0 r1) (h : SameSq s0 s) :
    SameSq s0 (complete t status cause reason r0 r1 s) := by
  unfold complete
  dsimp only
  split
  · exact h
  · split
    · exact setRing_sq _ _ h ⟨rfl, rfl, rfl, rfl⟩
    · exact postEntry_sq _ _ (setRing_sq _ _ h ⟨rfl, rfl, rfl, rfl⟩)

theorem setAcct_sq {s0 s : State} (d) (a) (h : SameSq s0 s) : SameSq s0 (setAcct d a s) := by
  unfold setAcct
  try dsimp only
  exact SameSq.put (by assumption) rfl

theorem charge_sq {s0 s : State} (d) (k) (n) (h : SameSq s0 s) : SameSq s0 (charge d k n s) := by
  unfold charge
  try dsimp only
  exact wEvent_sq _ _ _ _ (wEvent_sq _ _ _ _ (setAcct_sq _ _ (by assumption)))

theorem chargeSplit_sq {s0 s : State} (k) (x) (dikes) (h : SameSq s0 s) : SameSq s0 (chargeSplit k x dikes s) := by
  unfold chargeSplit
  try dsimp only
  refine charge_sq _ _ _ ?_
  refine SameSq.foldl (fun _ _ _ => ?_) ?_
  · exact charge_sq _ _ _ (by assumption)
  · assumption

theorem done_sq {s0 s : State} (t) (h : SameSq s0 s) : SameSq s0 (done t s) := by
  unfold done
  try dsimp only
  exact complete_sq _ _ _ _ _ _ (by assumption)

theorem doneWith_sq {s0 s : State} (t) (r0) (r1) (h : SameSq s0 s) : SameSq s0 (doneWith t r0 r1 s) := by
  unfold doneWith
  try dsimp only
  exact complete_sq _ _ _ _ _ _ (by assumption)

theorem rotate_sq {s0 s : State} (die) (h : SameSq s0 s) : SameSq s0 (rotate die s).2.2 := by
  unfold rotate
  try dsimp only
  exact SameSq.put (by assumption) rfl

theorem setQueue_sq {s0 s : State} (q) (w) (h : SameSq s0 s) : SameSq s0 (setQueue q w s) := by
  unfold setQueue
  try dsimp only
  exact SameSq.put (by assumption) rfl

theorem setActive_sq {s0 s : State} (p) (l) (h : SameSq s0 s) : SameSq s0 (setActive p l s) := by
  unfold setActive
  try dsimp only
  exact SameSq.put (by assumption) rfl

theorem joinActive_sq {s0 s : State} (q) (p) (h : SameSq s0 s) : SameSq s0 (joinActive q p s) := by
  unfold joinActive
  try dsimp only
  split
  · assumption
  · exact setActive_sq _ _ (setQueue_sq _ _ (by assumption))

theorem joinAll_sq {s0 s : State} (q) (h : SameSq s0 s) : SameSq s0 (joinAll q s) := by
  unfold joinAll
  try dsimp only
  refine SameSq.foldl (fun _ _ _ => ?_) ?_
  · exact joinActive_sq _ _ (by assumption)
  · assumption

theorem leaveAll_sq {s0 s : State} (q) (h : SameSq s0 s) : SameSq s0 (leaveAll q s) := by
  unfold leaveAll
  try dsimp only
  refine SameSq.foldl (fun _ _ _ => ?_) ?_
  · exact setActive_sq _ _ (by assumption)
  · assumption

theorem testQueue_sq {s0 s : State} (q) (h : SameSq s0 s) : SameSq s0 (testQueue q s) := by
  unfold testQueue
  try dsimp only
  split
  · exact joinAll_sq _ (setQueue_sq _ _ (by assumption))
  · exact leaveAll_sq _ (setQueue_sq _ _ (by assumption))

theorem enqueue_sq {s0 s : State} (q) (p) (f) (h : SameSq s0 s) : SameSq s0 (enqueue q p f s) := by
  unfold enqueue
  try dsimp only
  split
  · exact setQueue_sq _ _ (by assumption)
  · split
    · exact testQueue_sq _ (setQueue_sq _ _ (by assumption))
    · split
      · split
        · exact joinActive_sq _ _ (setQueue_sq _ _ (by assumption))
        · exact setQueue_sq _ _ (by assumption)
      · split
        · exact joinActive_sq _ _ (setQueue_sq _ _ (by assumption))
        · exact setQueue_sq _ _ (by assumption)

theorem queuePacket_sq {s0 s : State} (m) (i) (flags) (h : SameSq s0 s) : SameSq s0 (queuePacket m i flags s) := by
  unfold queuePacket
  try dsimp only
  exact enqueue_sq _ _ _ (rotate_sq _ (by assumption))

theorem startMsg_sq {s0 s : State} (m) (h : SameSq s0 s) : SameSq s0 (startMsg m s) := by
  unfold startMsg
  try dsimp only
  refine SameSq.foldl (fun _ _ _ => ?_) ?_
  · exact queuePacket_sq _ _ _ (by assumption)
  · exact SameSq.put (by assumption) rfl

theorem submitMsg_sq {s0 s : State} (m) (h : SameSq s0 s) : SameSq s0 (submitMsg m s) := by
  unfold submitMsg
  try dsimp only
  split
  · exact startMsg_sq _ (by assumption)
  · exact SameSq.put (by assumption) rfl

theorem queueDisabled_sq {s0 s : State} (t) (h : SameSq s0 s) : SameSq s0 (queueDisabled t s) := by
  unfold queueDisabled
  try dsimp only
  exact complete_sq _ _ _ _ _ _ (by assumption)

theorem reasonWith_sq {s0 s : State} (t) (reason) (h : SameSq s0 s) : SameSq s0 (reasonWith t reason s) := by
  unfold reasonWith
  try dsimp only
  exact complete_sq _ _ _ _ _ _ (by assumption)

theorem refusedWith_sq {s0 s : State} (t) (cause) (h : SameSq s0 s) : SameSq s0 (refusedWith t cause s) := by
  unfold refusedWith
  try dsimp only
  exact complete_sq _ _ _ _ _ _ (by assumption)

theorem takeSeq_sq {s0 s : State} (dest) (h : SameSq s0 s) : SameSq s0 (takeSeq dest s).2 := by
  unfold takeSeq
  try dsimp only
  exact SameSq.put (by assumption) rfl

theorem writeFlash_sq {s0 s : State} (a) (bs) (h : SameSq s0 s) : SameSq s0 (writeFlash a bs s) := by
  unfold writeFlash
  try dsimp only
  exact SameSq.put (by assumption) rfl

theorem settleFlash_sq {s0 x1 : State} (x0) (h : SameSq s0 x1) : SameSq s0 (settleFlash x0 x1) := by
  induction x0 generalizing x1 with
  | zero =>
    unfold settleFlash
    try dsimp only
    assumption
  | succ n ih =>
    unfold settleFlash
    try dsimp only
    split
    · apply ih
      exact writeFlash_sq _ _ (SameSq.put (by assumption) rfl)
    · exact SameSq.put (by assumption) rfl
    · assumption

theorem queueFlash_sq {s0 s : State} (w) (h : SameSq s0 s) : SameSq s0 (queueFlash w s) := by
  unfold queueFlash
  try dsimp only
  exact settleFlash_sq _ (SameSq.put (by assumption) rfl)

theorem ringWrite_sq {s0 s : State} (base) (cap) (u) (bs) (h : SameSq s0 s) : SameSq s0 (ringWrite base cap u bs s) := by
  unfold ringWrite
  try dsimp only
  exact writeMem_sq _ _ (writeMem_sq _ _ (by assumption))

theorem putRecord_sq {s0 s : State} (kind) (flags) (step) (action) (tenant) (source) (sseq) (body)
    (h : SameSq s0 s) : SameSq s0 (putRecord kind flags step action tenant source sseq body s).2 := by
  unfold putRecord
  try dsimp only
  exact SameSq.put (ringWrite_sq _ _ _ _ (by assumption)) rfl

theorem putJournal_sq {s0 s : State} (kind) (flags) (step) (action) (tenant) (source) (sseq) (body)
    (h : SameSq s0 s) : SameSq s0 (putJournal kind flags step action tenant source sseq body s) := by
  unfold putJournal
  try dsimp only
  split
  · exact putRecord_sq _ _ _ _ _ _ _ _ (by assumption)
  · exact putRecord_sq _ _ _ _ _ _ _ _ (raise_sq _ (bump_sq _ _ (putRecord_sq _ _ _ _ _ _ _ _
      (by assumption))))

theorem journal_sq {s0 s : State} (kind) (action) (tenant) (source) (sseq) (body)
    (h : SameSq s0 s) : SameSq s0 (journal kind action tenant source sseq body s) := by
  unfold journal
  try dsimp only
  split
  · refine SameSq.foldl (fun _ _ _ => ?_) ?_
    · exact putJournal_sq _ _ _ _ _ _ _ _ (by assumption)
    · assumption
  · assumption

theorem applySetQueue_sq {s0 s : State} (q) (enable) (quantum) (rate)
    (h : SameSq s0 s) : SameSq s0 (applySetQueue q enable quantum rate s) := by
  unfold applySetQueue
  try dsimp only
  split
  · exact testQueue_sq _ (setQueue_sq _ _ (by assumption))
  · exact leaveAll_sq _ (testQueue_sq _ (setQueue_sq _ _ (by assumption)))

theorem weirResult_sq {s0 s : State} (cmd) (cause) (object) (h : SameSq s0 s) : SameSq s0 (weirResult cmd cause object s) := by
  unfold weirResult
  try dsimp only
  exact SameSq.put (by assumption) rfl

theorem weirRefuse_sq {s0 s : State} (t) (cmd) (cause) (object)
    (h : SameSq s0 s) : SameSq s0 (weirRefuse t cmd cause object s) := by
  unfold weirRefuse
  try dsimp only
  exact refusedWith_sq _ _ (raise_sq _ (weirResult_sq _ _ _ (by assumption)))

theorem doSetPolicer_sq {s0 s : State} (t) (d) (enable) (rate) (burst)
    (h : SameSq s0 s) : SameSq s0 (doSetPolicer t d enable rate burst s) := by
  unfold doSetPolicer
  try dsimp only
  split
  · exact weirRefuse_sq _ _ _ _ (by assumption)
  · split
    · exact weirRefuse_sq _ _ _ _ (by assumption)
    · exact done_sq _ (weirResult_sq _ _ _ (SameSq.put (by assumption) rfl))

theorem doSetQueue_sq {s0 s : State} (t) (q) (enable) (quantum) (rate)
    (h : SameSq s0 s) : SameSq s0 (doSetQueue t q enable quantum rate s) := by
  unfold doSetQueue
  try dsimp only
  split
  · exact weirRefuse_sq _ _ _ _ (by assumption)
  · split
    · exact weirRefuse_sq _ _ _ _ (by assumption)
    · exact done_sq _ (weirResult_sq _ _ _ (applySetQueue_sq _ _ _ _ (by assumption)))

theorem setWindow_sq {s0 s : State} (w) (r) (h : SameSq s0 s) : SameSq s0 (setWindow w r s) := by
  unfold setWindow
  try dsimp only
  exact SameSq.put (by assumption) rfl

theorem beginRevoke_sq {s0 s : State} (w) (t) (reopen) (h : SameSq s0 s) : SameSq s0 (beginRevoke w t reopen s) := by
  unfold beginRevoke
  try dsimp only
  exact setWindow_sq _ _ (by assumption)

theorem openedResult_sq {s0 s : State} (t) (w) (h : SameSq s0 s) : SameSq s0 (openedResult t w s) := by
  unfold openedResult
  try dsimp only
  exact doneWith_sq _ _ _ (by assumption)

theorem openAs_sq {s0 s : State} (w) (d) (o) (h : SameSq s0 s) : SameSq s0 (openAs w d o s) := by
  unfold openAs
  try dsimp only
  exact setWindow_sq _ _ (by assumption)

theorem doOpenWindow_sq {s0 s : State} (t) (d) (o) (h : SameSq s0 s) : SameSq s0 (doOpenWindow t d o s) := by
  unfold doOpenWindow
  try dsimp only
  split
  · exact reasonWith_sq _ _ (by assumption)
  · split
    · exact refusedWith_sq _ _ (by assumption)
    · split
      · exact refusedWith_sq _ _ (by assumption)
      · exact openedResult_sq _ _ (openAs_sq _ _ _ (by assumption))

theorem doReopenWindow_sq {s0 s : State} (t) (d) (w) (o) (h : SameSq s0 s) : SameSq s0 (doReopenWindow t d w o s) := by
  unfold doReopenWindow
  try dsimp only
  split
  · exact refusedWith_sq _ _ (by assumption)
  · split
    · exact refusedWith_sq _ _ (by assumption)
    · split
      · exact refusedWith_sq _ _ (by assumption)
      · split
        · exact refusedWith_sq _ _ (by assumption)
        · split
          · exact beginRevoke_sq _ _ _ (by assumption)
          · exact setWindow_sq _ _ (by assumption)

theorem doRevokeWindow_sq {s0 s : State} (t) (d) (w) (h : SameSq s0 s) : SameSq s0 (doRevokeWindow t d w s) := by
  unfold doRevokeWindow
  try dsimp only
  split
  · exact refusedWith_sq _ _ (by assumption)
  · split
    · exact done_sq _ (by assumption)
    · split
      · exact refusedWith_sq _ _ (by assumption)
      · split
        · exact refusedWith_sq _ _ (by assumption)
        · exact beginRevoke_sq _ _ _ (by assumption)

theorem addWait_sq {s0 s : State} (p) (h : SameSq s0 s) : SameSq s0 (addWait p s) := by
  unfold addWait
  try dsimp only
  exact SameSq.put (by assumption) rfl

theorem noteFirst_sq {s0 s : State} (source) (sseq) (h : SameSq s0 s) : SameSq s0 (noteFirst source sseq s) := by
  unfold noteFirst
  try dsimp only
  split
  · assumption
  · exact SameSq.put (by assumption) rfl

theorem logEvent_sq {s0 s : State} (code digest) (h : SameSq s0 s) : SameSq s0 (logEvent code digest s) := h

theorem doCommitSvn_sq {s0 s : State} (t) (h : SameSq s0 s) : SameSq s0 (doCommitSvn t s) := by
  unfold doCommitSvn
  split
  · exact done_sq _ (logEvent_sq _ _ (SameSq.put h rfl))
  · exact refusedWith_sq _ _ h

theorem doStageImage_sq {s0 s : State} (t) (h_) (bytes) (h : SameSq s0 s) : SameSq s0 (doStageImage t h_ bytes s) := by
  unfold doStageImage
  try dsimp only
  split
  · exact refusedWith_sq _ _ (by assumption)
  · exact SameSq.put (by assumption) rfl

theorem tableResult_sq {s0 s : State} (cmd) (cause) (entry) (h : SameSq s0 s) : SameSq s0 (tableResult cmd cause entry s) := by
  unfold tableResult
  try dsimp only
  exact SameSq.put (by assumption) rfl

theorem doCompose_sq {s0 s : State} (t) (bs) (h : SameSq s0 s) : SameSq s0 (doCompose t bs s) := by
  unfold doCompose
  try dsimp only
  split
  · exact refusedWith_sq _ _ (SameSq.put (by assumption) rfl)
  · exact done_sq _ (SameSq.put (by assumption) rfl)

theorem doBuildTable_sq {s0 s : State} (t) (h_) (layout) (source) (length)
    (h : SameSq s0 s) : SameSq s0 (doBuildTable t h_ layout source length s) := by
  unfold doBuildTable
  try dsimp only
  split
  · exact refusedWith_sq _ _ (tableResult_sq _ _ _ (by assumption))
  · exact SameSq.put (by assumption) rfl

theorem doRemote_sq {s0 s : State} (t) (h_) (op) (o) (h : SameSq s0 s) : SameSq s0 (doRemote t h_ op o s) := by
  unfold doRemote
  try dsimp only
  split
  · exact refusedWith_sq _ _ (by assumption)
  · split
    · exact queueDisabled_sq _ (by assumption)
    · split
      · assumption
      · exact submitMsg_sq _ (takeSeq_sq _ (by assumption))

theorem doTaken_sq {s0 s : State} (p) (t) (op) (body) (h : SameSq s0 s) : SameSq s0 (doTaken p t op body s) := by
  unfold doTaken
  try dsimp only
  split
  · exact doCompose_sq _ _ (journal_sq _ _ _ _ _ _ (by assumption))
  · exact doBuildTable_sq _ _ _ _ _ (journal_sq _ _ _ _ _ _ (by assumption))
  · exact doOpenWindow_sq _ _ _ (journal_sq _ _ _ _ _ _ (by assumption))
  · exact doReopenWindow_sq _ _ _ _ (journal_sq _ _ _ _ _ _ (by assumption))
  · exact doRevokeWindow_sq _ _ _ (journal_sq _ _ _ _ _ _ (by assumption))
  · exact doSetQueue_sq _ _ _ _ _ (journal_sq _ _ _ _ _ _ (by assumption))
  · exact doSetPolicer_sq _ _ _ _ _ (journal_sq _ _ _ _ _ _ (by assumption))
  · exact doRemote_sq _ _ _ _ (journal_sq _ _ _ _ _ _ (by assumption))
  · exact doRemote_sq _ _ _ _ (journal_sq _ _ _ _ _ _ (by assumption))
  · exact doRemote_sq _ _ _ _ (journal_sq _ _ _ _ _ _ (by assumption))
  · exact doStageImage_sq _ _ _ (journal_sq _ _ _ _ _ _ (by assumption))
  · exact doCommitSvn_sq _ (journal_sq _ _ _ _ _ _ (by assumption))
  · exact journal_sq _ _ _ _ _ _ (by assumption)

theorem giveSlotBack_sq {s0 s : State} (r) (h : SameSq s0 s) : SameSq s0 (giveSlotBack r s) :=
  setRing_sq _ _ h ⟨rfl, rfl, rfl, rfl⟩

theorem takeCommand_sq {s0 s : State} (r) (bs) (op) (h_) (t) (sseq)
    (h : SameSq s0 s) : SameSq s0 (takeCommand r bs op h_ t sseq s) := by
  unfold takeCommand
  try dsimp only
  split
  · split
    · exact addWait_sq _ (noteFirst_sq _ _ (by assumption))
    · exact giveSlotBack_sq _ (noteFirst_sq _ _ (by assumption))
  · split
    · exact addWait_sq _ (noteFirst_sq _ _ (by assumption))
    · exact addWait_sq _ (noteFirst_sq _ _ (by assumption))
    · split
      · exact addWait_sq _ (noteFirst_sq _ _ (by assumption))
      · exact doTaken_sq _ _ _ _ (noteFirst_sq _ _ (by assumption))

end Sys2Proof.Machine
end

