-- ==== Sys2Proof/Laws/EffRings.lean ====
section
/-! SUPPORT. What putting a command into a host ring does, and what a completion leaves (R325, R362 to R365). -/

namespace Sys2Proof.Machine

open Sys2Proof.Safety

/-! ## Completions (R364) -/

theorem ringOf_setRing_same (r : Nat) (g : Ring) (s : State) : ringOf (setRing r g s) r = g := Tab.getD_put_same _ _ _ _

theorem ringOf_setRing_other {r k : Nat} (h : k ≠ r) (g : Ring) (s : State) : ringOf (setRing r g s) k = ringOf s k :=
  Tab.getD_put_other h _ _ _

theorem ringOf_of {s t : State} (h : t.hif.rings = s.hif.rings) (r : Nat) : ringOf t r = ringOf s r := by
  unfold ringOf; rw [h]

theorem completionBytes_length (kind status cause reason tag step opcode : Nat) (phase : Bool) (r0 r1 : Nat) :
    (completionBytes kind status cause reason tag step opcode phase r0 r1).length = 32 := by
  unfold completionBytes
  simp [le_length]

theorem msix_rings' (v : Nat) (s : State) : (msix v s).hif.rings = s.hif.rings := msix_rings v (SameRings.refl s)

theorem postEntry_at (r : Nat) (mk : Bool → List Byte) (s : State) :
    readMem (postEntry r mk s) (cqEntryAddr r (ringOf s r) (ringOf s r).cqTail) (mk (ringOf s r).phase).length = mk (ringOf s r).phase ∧
    (ringOf (postEntry r mk s) r).held = (ringOf s r).held + 1 ∧ (ringOf (postEntry r mk s) r).reserved = (ringOf s r).reserved := by
  unfold postEntry
  dsimp only
  refine ⟨?_, ?_, ?_⟩
  · have : ∀ u v, (msix v u).mem = u.mem := fun u v => (msix_only (pts := [.hif]) rfl v (Only.refl _ u)).2 .mem rfl
    rw [readMem_of_mem (this _ _)]
    exact readMem_writeMem_same _ _ s
  · rw [ringOf_of (msix_rings' _ _), ringOf_setRing_same]
  · rw [ringOf_of (msix_rings' _ _), ringOf_setRing_same]

theorem stepNo_of {s t : State} (h : t.tmu = s.tmu) : stepNo t = stepNo s := by
  unfold stepNo stepAt epochNs periodNs; rw [h]

theorem complete_answers {k : Ticket} {status cause reason r0 r1 : Nat} {s : State} (h1 : k.ring < 64)
    (h2 : k.silent = false ∨ status ≠ 0) :
    Answered k status cause reason r0 r1 s (complete k status cause reason r0 r1 s) ∧
    (ringOf (complete k status cause reason r0 r1 s) k.ring).held = (ringOf s k.ring).held + 1 ∧
    (ringOf (complete k status cause reason r0 r1 s) k.ring).reserved = (ringOf s k.ring).reserved - 1 := by
  have hn : ¬ noRing ≤ k.ring := by unfold noRing; omega
  unfold complete
  rw [if_neg hn]
  dsimp only
  rw [if_neg (by rcases h2 with h2 | h2 <;> simp [h2])]
  obtain ⟨u, hu⟩ : ∃ u, u = setRing k.ring { ringOf s k.ring with reserved := (ringOf s k.ring).reserved - 1 } s := ⟨_, rfl⟩
  rw [← hu]
  have u1 : ringOf u k.ring = { ringOf s k.ring with reserved := (ringOf s k.ring).reserved - 1 } := by
    rw [hu, ringOf_setRing_same]
  have u2 : stepNo u = stepNo s := by rw [hu]; rfl
  have hp := postEntry_at k.ring
    (fun ph => completionBytes 1 status cause reason k.tag (stepNo u) k.opcode ph r0 r1) u
  rw [completionBytes_length] at hp
  rw [u1] at hp
  refine ⟨?_, hp.2.1, hp.2.2⟩
  unfold Answered
  rw [← u2]
  exact hp.1

theorem complete_silent {k : Ticket} {cause reason r0 r1 : Nat} {s : State} (h1 : k.ring < 64) (h2 : k.silent = true) :
    complete k 0 cause reason r0 r1 s =
      setRing k.ring { ringOf s k.ring with reserved := (ringOf s k.ring).reserved - 1 } s := by
  have hn : ¬ noRing ≤ k.ring := by unfold noRing; omega
  unfold complete
  rw [if_neg hn]
  dsimp only
  rw [if_pos (by simp [h2])]

/-! ## Taking a command (R362 to R364) -/

theorem fit_length (n : Nat) (bs : List Byte) : (fit n bs).length = n := by
  unfold fit zeros
  rw [List.length_append, List.length_take, List.length_replicate]
  omega

theorem entryBytes_length (h : CmdHead) (op : RingOp) : (entryBytes h op).length = 64 := fit_length _ _

theorem fld_entry_opcode (h : CmdHead) (op : RingOp) : fld (entryBytes h op) 0 1 = ringOpcode op := by
  have : (entryBytes h op).take 1 = [BitVec.ofNat 8 (ringOpcode op)] := by
    unfold entryBytes fit
    simp only [le, List.cons_append, List.take_succ_cons, List.take_zero, List.nil_append]
  unfold fld
  rw [List.drop_zero, this]
  cases op <;> rfl

/-- A body address lies in the command data area, or there is no body: no ring entry lies there. -/
theorem body_apart {h : CmdHead} {r i : Nat} {g : Ring} (hb : bodyOk h = true) (hr : r < 64) (hi : i < 4096) (a n : Nat)
    (ha : h.bodyAddr ≤ a) (hn : a + n ≤ h.bodyAddr + h.bodyLen) (_h0 : 0 < n) :
    a + n ≤ sqEntryAddr r g i ∨ sqEntryAddr r g i + 64 ≤ a := by
  unfold bodyOk at hb
  simp only [Bool.or_eq_true, Bool.and_eq_true, beq_iff_eq] at hb
  rcases hb with ⟨h1, h2⟩ | h1
  · omega
  · unfold inCommandArea at h1
    simp only [Bool.and_eq_true, decide_eq_true_eq] at h1
    unfold sqEntryAddr
    split
    · left
      unfold hostAddr
      have : Config.hdmBase + 0x40000000 ≤ 2 ^ 64 := by decide
      omega
    · right
      omega

/-- The state with the entry in the ring and its completion slot reserved. -/
def enteredState (h : CmdHead) (op : RingOp) (s : State) : State :=
  setRing h.ring { ringOf s h.ring with
      sqTail := ((ringOf s h.ring).sqTail + 1) % (ringOf s h.ring).size
      sqHead := ((ringOf s h.ring).sqHead + 1) % (ringOf s h.ring).size
      taken := ((ringOf s h.ring).taken + 1) % 2 ^ 32
      reserved := (ringOf s h.ring).reserved + 1 }
    (writeMem (sqEntryAddr h.ring (ringOf s h.ring) (ringOf s h.ring).sqTail) (entryBytes h op) s)

theorem enteredState_ring (h : CmdHead) (op : RingOp) (s : State) : ringOf (enteredState h op s) h.ring = { ringOf s h.ring with
    sqTail := ((ringOf s h.ring).sqTail + 1) % (ringOf s h.ring).size
    sqHead := ((ringOf s h.ring).sqHead + 1) % (ringOf s h.ring).size
    taken := ((ringOf s h.ring).taken + 1) % 2 ^ 32
    reserved := (ringOf s h.ring).reserved + 1 } := ringOf_setRing_same _ _ _

theorem enteredState_parts (h : CmdHead) (op : RingOp) (s : State) : Only [.hif, .mem] s (enteredState h op s) := by
  refine ⟨rfl, ?_⟩
  intro p hp
  cases p <;> first | rfl | exact absurd hp (by decide)

theorem Ring.size_le (g : Ring) : 64 ≤ g.size ∧ g.size ≤ 4096 := by
  unfold Ring.size
  have h1 : 6 ≤ max 6 (min 12 (bitsOf g.ctrl 27 24)) := by omega
  have h2 : max 6 (min 12 (bitsOf g.ctrl 27 24)) ≤ 12 := by omega
  exact ⟨Nat.pow_le_pow_right (by decide) h1 |>.trans' (by decide), Nat.pow_le_pow_right (by decide) h2 |>.trans (by decide)⟩

theorem serveRing_stop {r n : Nat} {o : Option (Option (List Byte))} {s : State} (h : canTake s r = false) :
    serveRing r o n s = s := by
  cases n with
  | zero => rfl
  | succ n => unfold serveRing; rw [h, if_neg (by decide)]

theorem serveRing_one {r n : Nat} {o : Option (Option (List Byte))} {s : State} (h1 : canTake s r = true)
    (h2 : canTake (takeEntry r o s) r = false) : serveRing r o (n + 1) s = takeEntry r o s := by
  unfold serveRing
  rw [if_pos h1, serveRing_stop h2]

theorem readMem_entered {h : CmdHead} {op : RingOp} {s : State} (hb : bodyOk h = true) (hr : h.ring < 64)
    (hi : (ringOf s h.ring).sqTail < (ringOf s h.ring).size) {a n : Nat} (ha : h.bodyAddr ≤ a)
    (hn : a + n ≤ h.bodyAddr + h.bodyLen) : readMem (enteredState h op s) a n = readMem s a n := by
  rcases Nat.eq_zero_or_pos n with rfl | h0
  · rfl
  · have hz := (ringOf s h.ring).size_le
    have := body_apart (g := ringOf s h.ring) (i := (ringOf s h.ring).sqTail) hb hr (by omega) a n ha hn h0
    refine (readMem_of_mem rfl a n).trans (readMem_writeMem_other ?_)
    rw [entryBytes_length]
    exact this

theorem recordLen_entered {h : CmdHead} {op kop : RingOp} {s : State} (hb : bodyOk h = true) (hr : h.ring < 64)
    (hi : (ringOf s h.ring).sqTail < (ringOf s h.ring).size) :
    recordLen kop h (enteredState h op s) = recordLen kop h s := by
  unfold recordLen
  cases kop <;> try rfl
  dsimp only
  split
  · rw [readMem_entered hb hr hi (by omega) (by omega)]
  · rfl

theorem tabPut_put {α : Type} (k : Nat) (a b : α) (t : Tab α) : Tab.put k a (Tab.put k b t) = Tab.put k a t := by
  induction t with
  | nil => simp [Tab.put]
  | cons x t ih =>
    obtain ⟨i, c⟩ := x
    simp only [Tab.put]
    split
    · simp [Tab.put]
    · split
      · simp [Tab.put]
      · rename_i h1 h2
        simp only [Tab.put, if_neg h1, if_neg h2, ih]

/-- What `submit` does with a command that the ring takes. -/
theorem submit_ready {h : CmdHead} {op : RingOp} {opened : Option (Option (List Byte))} {s : State}
    (g : RingReady h op (place h.placed s)) :
    submit h op opened s = takeCommand h.ring (entryBytes h op)
      (withOpened opened (readMem (place h.placed s) h.bodyAddr h.bodyLen) op) { h with placed := [] } (ticketOf h op)
      (((ringOf (place h.placed s) h.ring).taken + 1) % 2 ^ 32) (enteredState h op (place h.placed s)) := by
  have hz := (ringOf (place h.placed s) h.ring).size_le
  unfold submit
  dsimp only
  generalize place h.placed s = v at g hz ⊢
  have hlt : ((ringOf v h.ring).sqTail + 1) % (ringOf v h.ring).size ≠ (ringOf v h.ring).sqHead := by
    rw [g.empty]
    have hin := g.inside
    by_cases he : (ringOf v h.ring).sqTail + 1 = (ringOf v h.ring).size
    · rw [he, Nat.mod_self]; omega
    · rw [Nat.mod_eq_of_lt (by omega)]; omega
  rw [if_pos (by simp [g.enabled, g.running, hlt]), if_pos g.empty]
  obtain ⟨w, hw⟩ : ∃ w, w = setRing h.ring { ringOf v h.ring with sqTail := ((ringOf v h.ring).sqTail + 1) % (ringOf v h.ring).size }
      (writeMem (sqEntryAddr h.ring (ringOf v h.ring) (ringOf v h.ring).sqTail) (entryBytes h op) v) := ⟨_, rfl⟩
  rw [← hw]
  have w1 : ringOf w h.ring = { ringOf v h.ring with sqTail := ((ringOf v h.ring).sqTail + 1) % (ringOf v h.ring).size } := by
    rw [hw, ringOf_setRing_same]
  have w2 : readMem w (sqEntryAddr h.ring (ringOf v h.ring) (ringOf v h.ring).sqTail) 64 = entryBytes h op := by
    rw [hw, readMem_of_mem rfl, ← entryBytes_length h op]
    exact readMem_writeMem_same _ _ v
  have w3 : ∀ g', g' = { ringOf v h.ring with
      sqTail := ((ringOf v h.ring).sqTail + 1) % (ringOf v h.ring).size
      sqHead := ((ringOf v h.ring).sqHead + 1) % (ringOf v h.ring).size
      taken := ((ringOf v h.ring).taken + 1) % 2 ^ 32
      reserved := (ringOf v h.ring).reserved + 1 } → setRing h.ring g' w = enteredState h op v := by
    intro g' hg
    rw [hw, hg]
    unfold enteredState setRing
    dsimp only
    rw [tabPut_put]
  have hd : canTake w h.ring = true := by
    have s1 : inService w = true := by rw [hw]; exact g.service
    have s2 : cxlUp w = true := by rw [hw]; exact g.cxl
    have hslot := g.slot
    have hen := g.enabled
    unfold canTake
    dsimp only
    rw [s1, s2, w1]
    unfold Ring.hasSlot Ring.size at hslot ⊢
    unfold Ring.enabled at hen ⊢
    dsimp only
    rw [hen, g.running]
    simp only [hslot, Bool.and_true, Bool.true_and, Bool.not_false, bne_iff_ne, ne_eq]
    exact fun h => hlt h.symm
  have ht : takeEntry h.ring opened w = takeCommand h.ring (entryBytes h op)
      (withOpened opened (readMem v h.bodyAddr h.bodyLen) op) { h with placed := [] } (ticketOf h op)
      (((ringOf v h.ring).taken + 1) % 2 ^ 32) (enteredState h op v) := by
    have hb : bodyOk { h with placed := [] } = true := g.body
    have hrd : (!(ringOf v h.ring).isDike || dikeOpcode (ringOpcode op) && h.tenant == (ringOf v h.ring).tenant) = true := by
      rcases g.rights with h1 | ⟨h1, h2⟩
      · simp [h1]
      · simp [h1, h2]
    unfold takeEntry
    dsimp only
    rw [w1]
    have hsq : sqEntryAddr h.ring { ringOf v h.ring with sqTail := ((ringOf v h.ring).sqTail + 1) % (ringOf v h.ring).size }
        (ringOf v h.ring).sqHead = sqEntryAddr h.ring (ringOf v h.ring) (ringOf v h.ring).sqTail := by rw [g.empty]; rfl
    dsimp only
    rw [hsq, w2, g.head, fld_entry_opcode]
    have e := w3 _ rfl
    have hsz : Ring.size { ringOf v h.ring with sqTail := ((ringOf v h.ring).sqTail + 1) % (ringOf v h.ring).size } =
      (ringOf v h.ring).size := rfl
    rw [hsz, e]
    have hc : (Ring.isDike { ringOf v h.ring with sqTail := ((ringOf v h.ring).sqTail + 1) % (ringOf v h.ring).size } &&
        !(dikeOpcode (ringOpcode op) && h.tenant == Ring.tenant { ringOf v h.ring with
          sqTail := ((ringOf v h.ring).sqTail + 1) % (ringOf v h.ring).size })) = false := by
      have : ∀ a b : Bool, (!a || b) = true → (a && !b) = false := by decide
      exact this _ _ hrd
    rw [hc, if_neg (by decide), g.operands]
    dsimp only
    have hl : lengthOk op { h with placed := [] } (enteredState h op v) = true := by
      have hl0 := g.length
      unfold lengthOk at hl0 ⊢
      have : recordLen op { h with placed := [] } (enteredState h op v) = recordLen op h v :=
        (show _ = recordLen op h (enteredState h op v) from by cases op <;> rfl).trans
          (recordLen_entered g.body g.ring g.inside)
      rw [this]
      exact hl0
    rw [g.reserved, hb, hl, if_pos (by decide), readMem_entered g.body g.ring g.inside (Nat.le_refl _) (Nat.le_refl _)]
    rfl
  have hn : canTake (takeEntry h.ring opened w) h.ring = false := by
    rw [ht]
    have hq := takeCommand_sq h.ring (entryBytes h op) (withOpened opened (readMem v h.bodyAddr h.bodyLen) op)
      { h with placed := [] } (ticketOf h op) (((ringOf v h.ring).taken + 1) % 2 ^ 32) (SameSq.refl (enteredState h op v)) h.ring
    have : (ringOf (enteredState h op v) h.ring).sqHead = (ringOf (enteredState h op v) h.ring).sqTail := by
      rw [enteredState_ring]
      dsimp only
      rw [g.empty]
    unfold canTake
    dsimp only
    rw [hq.2.2.1, hq.2.2.2, this]
    simp
  rw [show ringFuel = 4095 + 1 from rfl, serveRing_one hd hn, ht]

/-! ## Commands that wait for an action (R365) -/

theorem place_parts (p : Placed) (s : State) : Only [.mem] s (place p s) := place_only rfl p (Only.refl _ s)

theorem place_inService (p : Placed) (s : State) : inService (place p s) = inService s := by
  unfold inService; rw [(place_parts p s).2 .stw rfl]

theorem bodyAtTaking_entered {h : CmdHead} {op kop : RingOp} {s : State} (hb : bodyOk h = true) (hr : h.ring < 64)
    (hi : (ringOf s h.ring).sqTail < (ringOf s h.ring).size) :
    bodyAtTaking kop { h with placed := [] } (enteredState h op s) = bodyAtTaking kop h s := by
  cases kop <;> first | rfl | exact readMem_entered hb hr hi (Nat.le_refl _) (Nat.le_refl _)

theorem ringCommand_run {h : CmdHead} {op : RingOp} {opened : Option (Option (List Byte))} {s : State}
    (g : RingReady h op (place h.placed s)) : ringCommand h op opened s = .next (submit h op opened s) := by
  unfold ringCommand
  have := g.service
  rw [place_inService] at this
  rw [if_pos (by simp [this, g.ring])]

/-- The state of a command that has been noted but not yet carried on. -/
def notedState (h : CmdHead) (op : RingOp) (s : State) : State :=
  noteFirst (Config.ringSource h.ring) (((ringOf s h.ring).taken + 1) % 2 ^ 32) (enteredState h op s)

theorem notedState_parts (h : CmdHead) (op : RingOp) (s : State) : Only [.sqs, .hif, .mem] s (notedState h op s) :=
  noteFirst_only rfl _ _ ((enteredState_parts h op s).mono (by decide))

theorem takeCommand_waits {h : CmdHead} {op kop : RingOp} {s : State} {a : Nat} (g : RingReady h op s)
    (hw : waitAction kop = some a) (hk : ∀ q, kop ≠ .rehome q) (hb : bodyAtTaking kop h s = bodyAtTaking op h s) :
    TakenToWait a h op kop s (takeCommand h.ring (entryBytes h op) kop { h with placed := [] } (ticketOf h op)
      (((ringOf s h.ring).taken + 1) % 2 ^ 32) (enteredState h op s)) := by
  have hn : (notedState h op s).stw = s.stw := (notedState_parts h op s).2 .stw rfl
  have hs : (notedState h op s).sqs.waiting = s.sqs.waiting := (noteFirst_sameSqs _ _ (SameSqs.refl (enteredState h op s))).waiting
  have hr : ringOf (notedState h op s) h.ring = ringOf (enteredState h op s) h.ring :=
    ringOf_of ((noteFirst_only (pts := [.sqs]) rfl _ _ (Only.refl _ (enteredState h op s))).2 .hif rfl ▸ rfl) _
  have he : takeCommand h.ring (entryBytes h op) kop { h with placed := [] } (ticketOf h op)
      (((ringOf s h.ring).taken + 1) % 2 ^ 32) (enteredState h op s) =
      addWait { action := a, tenant := h.tenant, source := Config.ringSource h.ring
                sseq := ((ringOf s h.ring).taken + 1) % 2 ^ 32
                wait := .command (ticketOf h op) kop (takenBody h op s) } (notedState h op s) := by
    unfold takeCommand
    dsimp only
    have hrep : (noteFirst (Config.ringSource h.ring) (((ringOf s h.ring).taken + 1) % 2 ^ 32) (enteredState h op s)).stw.charter.replay ≠ 1 := by
      show (notedState h op s).stw.charter.replay ≠ 1
      rw [hn]; exact g.recorded
    rw [if_neg hrep, bodyAtTaking_entered g.body g.ring g.inside, hb, hw]
    cases kop <;> first | rfl | exact absurd rfl (hk _)
  rw [he]
  refine ⟨?_, ?_, ?_⟩
  · show (notedState h op s).sqs.waiting ++ _ = _
    rw [hs]
  · show (ringOf (notedState h op s) h.ring).reserved = _
    rw [hr, enteredState_ring]
  · show (ringOf (notedState h op s) h.ring).sqHead = (ringOf (notedState h op s) h.ring).sqTail
    rw [hr, enteredState_ring]
    dsimp only
    rw [g.empty]

theorem ringCommand_waits {c : Instr} {h : CmdHead} {op : RingOp} {s : State} {a : Nat} (he : exec c s = ringCommand h op none s)
    (g : RingReady h op (place h.placed s)) (hw : waitAction op = some a) (hk : ∀ q, op ≠ .rehome q) (hi : ∀ o, op ≠ .installKey o) :
    Completes c s fun t => TakenToWait a h op op (place h.placed s) t := by
  refine ⟨_, he.trans (ringCommand_run g), ?_⟩
  rw [submit_ready g]
  have : withOpened none (readMem (place h.placed s) h.bodyAddr h.bodyLen) op = op := by
    cases op <;> first | rfl | exact absurd rfl (hi _)
  rw [this]
  exact takeCommand_waits g hw hk rfl

theorem lease_taken {h : CmdHead} {o : LeaseOps} {s : State} (g : RingReady h (.lease o) (place h.placed s)) :
    Completes (.lease h o) s fun t => TakenToWait 2 h (.lease o) (.lease o) (place h.placed s) t :=
  ringCommand_waits rfl g rfl (fun _ => nofun) (fun _ => nofun)

theorem registerContext_taken {h : CmdHead} {s : State} (g : RingReady h .registerContext (place h.placed s)) :
    Completes (.registerContext h) s fun t => TakenToWait 2 h .registerContext .registerContext (place h.placed s) t :=
  ringCommand_waits rfl g rfl (fun _ => nofun) (fun _ => nofun)

theorem retireContext_taken {h : CmdHead} {c : Nat} {s : State} (g : RingReady h (.retireContext c) (place h.placed s)) :
    Completes (.retireContext h c) s fun t =>
      TakenToWait 2 h (.retireContext c) (.retireContext c) (place h.placed s) t :=
  ringCommand_waits rfl g rfl (fun _ => nofun) (fun _ => nofun)

theorem registerAdapter_taken {h : CmdHead} {s : State} (g : RingReady h .registerAdapter (place h.placed s)) :
    Completes (.registerAdapter h) s fun t => TakenToWait 2 h .registerAdapter .registerAdapter (place h.placed s) t :=
  ringCommand_waits rfl g rfl (fun _ => nofun) (fun _ => nofun)

theorem withdrawAdapter_taken {h : CmdHead} {c : Nat} {s : State} (g : RingReady h (.withdrawAdapter c) (place h.placed s)) :
    Completes (.withdrawAdapter h c) s fun t =>
      TakenToWait 2 h (.withdrawAdapter c) (.withdrawAdapter c) (place h.placed s) t :=
  ringCommand_waits rfl g rfl (fun _ => nofun) (fun _ => nofun)

theorem installTable_taken {h : CmdHead} {e c : Nat} {s : State} (g : RingReady h (.installTable e c) (place h.placed s)) :
    Completes (.installTable h e c) s fun t =>
      TakenToWait 2 h (.installTable e c) (.installTable e c) (place h.placed s) t :=
  ringCommand_waits rfl g rfl (fun _ => nofun) (fun _ => nofun)

theorem drainDie_taken {h : CmdHead} {d : Nat} {f : Bool} {s : State} (g : RingReady h (.drainDie d f) (place h.placed s)) :
    Completes (.drainDie h d f) s fun t => TakenToWait 2 h (.drainDie d f) (.drainDie d f) (place h.placed s) t :=
  ringCommand_waits rfl g rfl (fun _ => nofun) (fun _ => nofun)

theorem readmitDie_taken {h : CmdHead} {d : Nat} {s : State} (g : RingReady h (.readmitDie d) (place h.placed s)) :
    Completes (.readmitDie h d) s fun t => TakenToWait 2 h (.readmitDie d) (.readmitDie d) (place h.placed s) t :=
  ringCommand_waits rfl g rfl (fun _ => nofun) (fun _ => nofun)

theorem freeObject_taken {h : CmdHead} {i n : Nat} {s : State} (g : RingReady h (.freeObject i n) (place h.placed s)) :
    Completes (.freeObject h i n) s fun t => TakenToWait 1 h (.freeObject i n) (.freeObject i n) (place h.placed s) t :=
  ringCommand_waits rfl g rfl (fun _ => nofun) (fun _ => nofun)

theorem allocObject_taken {h : CmdHead} {x a : Nat} {p d : Bool} {s : State}
    (g : RingReady h (.allocObject x a p d) (place h.placed s)) :
    Completes (.allocObject h x a p d) s fun t =>
      TakenToWait 4 h (.allocObject x a p d) (.allocObject x a p d) (place h.placed s) t :=
  ringCommand_waits rfl g rfl (fun _ => nofun) (fun _ => nofun)

theorem switchImage_taken {h : CmdHead} {s : State} (g : RingReady h .switchImage (place h.placed s)) :
    Completes (.switchImage h) s fun t => TakenToWait 6 h .switchImage .switchImage (place h.placed s) t :=
  ringCommand_waits rfl g rfl (fun _ => nofun) (fun _ => nofun)

theorem installKey_taken {h : CmdHead} {opened : Option (List Byte)} {s : State}
    (g : RingReady h (.installKey none) (place h.placed s)) :
    Completes (.installKey h opened) s fun t =>
      TakenToWait 2 h (.installKey none) (.installKey opened) (place h.placed s) t := by
  refine ⟨_, (show exec (.installKey h opened) s = ringCommand h (.installKey none) (some opened) s from rfl).trans
    (ringCommand_run g), ?_⟩
  rw [submit_ready g]
  exact takeCommand_waits (kop := .installKey opened) g rfl (fun _ => nofun) rfl

theorem notedState_waiting (h : CmdHead) (op : RingOp) (s : State) : (notedState h op s).sqs.waiting = s.sqs.waiting :=
  (noteFirst_sameSqs _ _ (SameSqs.refl (enteredState h op s))).waiting

theorem notedState_ring (h : CmdHead) (op : RingOp) (s : State) :
    ringOf (notedState h op s) h.ring = ringOf (enteredState h op s) h.ring :=
  ringOf_of (noteFirst_rings _ _ (SameRings.refl (enteredState h op s))) _

theorem rehome_taken {h : CmdHead} {q : Nat} {s : State} (g : RingReady h (.rehome q) (place h.placed s)) :
    Completes (.rehome h q) s fun t =>
      t.sqs.waiting = s.sqs.waiting ++ [{ action := 4, tenant := h.tenant, source := Config.ringSource h.ring
                                          sseq := ((ringOf s h.ring).taken + 1) % 2 ^ 32
                                          wait := .join (.rehome (ticketOf h (.rehome q)) q
                                            (takenBody h (.rehome q) (place h.placed s))) }] ∧
      (ringOf t h.ring).reserved = (ringOf s h.ring).reserved + 1 := by
  refine ⟨_, (show exec (.rehome h q) s = ringCommand h (.rehome q) none s from rfl).trans (ringCommand_run g), ?_⟩
  rw [submit_ready g]
  have v1 : (place h.placed s).sqs = s.sqs := (place_parts _ _).2 .sqs rfl
  have v2 : ringOf s h.ring = ringOf (place h.placed s) h.ring :=
    (ringOf_of (by rw [(place_parts h.placed s).2 .hif rfl]) _).symm
  rw [v2, ← v1]
  generalize place h.placed s = v at g ⊢
  have hn : (notedState h (.rehome q) v).stw = v.stw := (notedState_parts _ _ v).2 .stw rfl
  have he : takeCommand h.ring (entryBytes h (.rehome q)) (withOpened none (readMem v h.bodyAddr h.bodyLen) (.rehome q))
      { h with placed := [] } (ticketOf h (.rehome q)) (((ringOf v h.ring).taken + 1) % 2 ^ 32) (enteredState h (.rehome q) v) =
      addWait { action := 4, tenant := h.tenant, source := Config.ringSource h.ring
                sseq := ((ringOf v h.ring).taken + 1) % 2 ^ 32
                wait := .join (.rehome (ticketOf h (.rehome q)) q (takenBody h (.rehome q) v)) } (notedState h (.rehome q) v) := by
    unfold takeCommand
    dsimp only
    have hrep : (noteFirst (Config.ringSource h.ring) (((ringOf v h.ring).taken + 1) % 2 ^ 32)
        (enteredState h (.rehome q) v)).stw.charter.replay ≠ 1 := by
      show (notedState h (.rehome q) v).stw.charter.replay ≠ 1
      rw [hn]; exact g.recorded
    rw [if_neg hrep, bodyAtTaking_entered g.body g.ring g.inside]
    rfl
  rw [he]
  refine ⟨?_, ?_⟩
  · show (notedState h (.rehome q) v).sqs.waiting ++ _ = _
    rw [notedState_waiting]
  · show (ringOf (notedState h (.rehome q) v) h.ring).reserved = _
    rw [notedState_ring, enteredState_ring]

/-! ## Commands that take effect at once (R365) -/

/-- The state in which a command takes effect: it has been noted and journalled. -/
def effectState (h : CmdHead) (op : RingOp) (s : State) : State :=
  journal 3 0 h.tenant (Config.ringSource h.ring) (((ringOf s h.ring).taken + 1) % 2 ^ 32)
    (takenBody h op s ++ readLater op (notedState h op s)) (notedState h op s)

theorem effectState_parts (h : CmdHead) (op : RingOp) (s : State) :
    Only [.sqs, .hif, .hlt, .status, .counters, .mem] s (effectState h op s) :=
  journal_only rfl _ _ _ _ _ _ ((notedState_parts h op s).mono (by decide))

theorem effectState_ring (h : CmdHead) (op : RingOp) (s : State) : ringOf (effectState h op s) h.ring = { ringOf s h.ring with
    sqTail := ((ringOf s h.ring).sqTail + 1) % (ringOf s h.ring).size
    sqHead := ((ringOf s h.ring).sqHead + 1) % (ringOf s h.ring).size
    taken := ((ringOf s h.ring).taken + 1) % 2 ^ 32
    reserved := (ringOf s h.ring).reserved + 1 } := by
  unfold effectState
  rw [ringOf_of (journal_rings _ _ _ _ _ _ (SameRings.refl (notedState h op s))), notedState_ring, enteredState_ring]

/-- What a command does that takes effect when it is taken. -/
theorem takeCommand_at {h : CmdHead} {op : RingOp} {s : State} (g : RingReady h op s) (hw : waitAction op = none)
    (hu : s.sec.upd ≠ .switching) :
    takeCommand h.ring (entryBytes h op) op { h with placed := [] } (ticketOf h op)
      (((ringOf s h.ring).taken + 1) % 2 ^ 32) (enteredState h op s) =
    doTaken { action := 0, tenant := h.tenant, source := Config.ringSource h.ring
              sseq := ((ringOf s h.ring).taken + 1) % 2 ^ 32
              wait := .command (ticketOf h op) op (takenBody h op s) } (ticketOf h op) op (takenBody h op s) (notedState h op s) := by
  have hn : (notedState h op s).stw = s.stw := (notedState_parts _ _ s).2 .stw rfl
  have hc : (notedState h op s).sec = s.sec := (notedState_parts _ _ s).2 .sec rfl
  unfold takeCommand
  dsimp only
  have hrep : (noteFirst (Config.ringSource h.ring) (((ringOf s h.ring).taken + 1) % 2 ^ 32)
      (enteredState h op s)).stw.charter.replay ≠ 1 := by
    show (notedState h op s).stw.charter.replay ≠ 1
    rw [hn]; exact g.recorded
  have hsw : ((noteFirst (Config.ringSource h.ring) (((ringOf s h.ring).taken + 1) % 2 ^ 32)
      (enteredState h op s)).sec.upd == .switching) = false := by
    show ((notedState h op s).sec.upd == .switching) = false
    rw [hc]; simpa using hu
  rw [if_neg hrep, bodyAtTaking_entered g.body g.ring g.inside, hw]
  dsimp only
  rw [hsw, if_neg (by decide)]
  rfl

theorem pend_takenBody (h : CmdHead) (op : RingOp) (s : State) :
    pendEntry (takenBody h op s) = entryBytes h op ∧ pendBody (takenBody h op s) = bodyAtTaking op h s := by
  have hl := entryBytes_length h op
  unfold pendEntry pendBody takenBody
  rw [← hl]
  exact ⟨List.take_left, List.drop_left⟩

theorem ringSource_sub (r : Nat) : Config.ringSource r - Config.ringSource 0 = r := by
  unfold Config.ringSource; omega

/-- Where a command takes effect at once, what it does is done on the state as noted and journalled. -/
theorem ringCommand_at {c : Instr} {h : CmdHead} {op : RingOp} {s : State} {P : State → Prop}
    (he : exec c s = ringCommand h op none s) (g : RingReady h op (place h.placed s)) (hw : waitAction op = none)
    (hu : s.sec.upd ≠ .switching)
    (hp : P (doTaken { action := 0, tenant := h.tenant, source := Config.ringSource h.ring
                       sseq := ((ringOf (place h.placed s) h.ring).taken + 1) % 2 ^ 32
                       wait := .command (ticketOf h op) op (takenBody h op (place h.placed s)) } (ticketOf h op) op
                (takenBody h op (place h.placed s)) (notedState h op (place h.placed s)))) :
    Completes c s P := by
  refine ⟨_, he.trans (ringCommand_run g), ?_⟩
  rw [submit_ready g]
  have : withOpened none (readMem (place h.placed s) h.bodyAddr h.bodyLen) op = op := by
    cases op <;> first | rfl | cases hw
  rw [this, takeCommand_at g hw (by rw [(place_parts h.placed s).2 .sec rfl]; exact hu)]
  exact hp

end Sys2Proof.Machine
end

