-- ==== Sys2Proof/Laws/EffWeir.lean ====
section
/-! SUPPORT. What the commands of the weir do (R64, R276 to R281): the wheels, the pacer, service at a port, and the
configuration of queues and policers. -/

namespace Sys2Proof.Machine

open Sys2Proof.Safety

/-! ## Queues -/

theorem queueOf_of_wei {s t : State} (h : t.wei = s.wei) (q : Nat) : queueOf t q = queueOf s q := by
  unfold queueOf; rw [h]

@[simp] theorem queueOf_setQueue_same (q : Nat) (w : WQueue) (s : State) : queueOf (setQueue q w s) q = w := by
  simp [queueOf]

@[simp] theorem queueOf_setQueue_other {q k : Nat} (h : k ≠ q) (w : WQueue) (s : State) :
    queueOf (setQueue q w s) k = queueOf s k := by
  simp [queueOf, h]

@[simp] theorem queueOf_setActive (p : Nat) (l : List Nat) (k : Nat) (s : State) :
    queueOf (setActive p l s) k = queueOf s k := rfl

@[simp] theorem queueOf_setNow (n k : Nat) (s : State) : queueOf (setNow n s) k = queueOf s k := rfl

theorem look_mapVal {α : Type} (f : α → α) (k : Nat) (t : Tab α) :
    Tab.look k (t.map (fun e => (e.1, f e.2))) = (Tab.look k t).map f := by
  induction t with
  | nil => rfl
  | cons e t ih =>
    simp only [List.map_cons, Tab.look]
    split
    · rfl
    · exact ih

/-- A queue in a pacing state other than eligible has a record. -/
theorem queueOf_look {s : State} {q : Nat} {w : WQueue} (h : queueOf s q = w) (hp : w.pacing ≠ .eligible) :
    Tab.look q s.wei.queues = some w := by
  unfold queueOf at h
  cases hl : Tab.look q s.wei.queues with
  | some x => rw [hl] at h; rw [← h]; rfl
  | none =>
    rw [hl] at h
    exfalso; apply hp
    rw [← h]
    simp only [Option.getD_none]
    split
    · rfl
    · split <;> rfl

/-! ## The wheels -/

theorem lt_next_multiple (a : Nat) {n : Nat} (h : 0 < n) : a < (a / n + 1) * n := by
  have := Nat.div_add_mod a n
  have := Nat.mod_lt a h
  rw [Nat.add_mul, Nat.one_mul, Nat.mul_comm]
  omega

theorem nextMultiple_spec (n last now : Nat) (hn : 0 < n) :
    nextMultiple n last now % n = 0 ∧ now ≤ nextMultiple n last now ∧
    (∀ m, m % n = 0 → now < m → nextMultiple n last now ≤ m) := by
  unfold nextMultiple
  split
  · rename_i h; exact ⟨h.1, le_refl _, fun m _ h => le_of_lt h⟩
  · refine ⟨Nat.mul_mod_left _ _, ?_, fun m hm h => ?_⟩
    · exact le_of_lt (lt_next_multiple _ hn)
    · obtain ⟨k, rfl⟩ := Nat.dvd_of_mod_eq_zero hm
      have : now / n < k := by rw [Nat.div_lt_iff_lt_mul hn, Nat.mul_comm]; exact h
      rw [Nat.mul_comm n k]
      exact Nat.mul_le_mul_right n this

/-- What a coarse tick makes of a queue. -/
theorem coarseTick_queue {s : State} {q : Nat} {w : WQueue} (h : queueOf s q = w) (hp : w.pacing ≠ .eligible) :
    queueOf (coarseTick s) q = match w.pacing with
      | .coarse _ => if w.e / 65536 / 1048576 ≤ s.tmu.now / 1048576 then { w with pacing := .fine (w.e / 65536 / 256 % 4096) } else w
      | _ => w := by
  have hl := queueOf_look h hp
  let move := fun (w : WQueue) => match w.pacing with
    | .coarse _ => if w.e / 65536 / 1048576 ≤ s.tmu.now / 1048576 then { w with pacing := .fine (w.e / 65536 / 256 % 4096) } else w
    | _ => w
  show (Tab.look q (s.wei.queues.map (fun e => (e.1, move e.2)))).getD _ = move w
  rw [look_mapVal, hl]
  rfl

/-- What a fine tick makes of a queue. -/
theorem fineTick_queue {s : State} {q : Nat} {w : WQueue} (h : queueOf s q = w) (hp : w.pacing ≠ .eligible) :
    queueOf (fineTick s) q = match w.pacing with
      | .fine _ => if w.e / 65536 / 256 ≤ s.tmu.now / 256 then { w with pacing := .pacer } else w
      | _ => w := by
  have hl := queueOf_look h hp
  let move := fun (w : WQueue) => match w.pacing with
    | .fine _ => if w.e / 65536 / 256 ≤ s.tmu.now / 256 then { w with pacing := .pacer } else w
    | _ => w
  show (Tab.look q (s.wei.queues.map (fun e => (e.1, move e.2)))).getD _ = move w
  rw [look_mapVal, hl]
  rfl

theorem fineTick_effect {s : State} (h1 : inService s = true) :
    Completes .fineTick s fun t =>
      t.tmu.now % 256 = 0 ∧ s.tmu.now ≤ t.tmu.now ∧ (∀ m, m % 256 = 0 → s.tmu.now < m → t.tmu.now ≤ m) ∧
      t.wei.fineAt = t.tmu.now ∧
      (∀ q slot, (queueOf s q).pacing = .fine slot → (queueOf s q).e / 65536 / 256 ≤ t.tmu.now / 256 →
        queueOf t q = { queueOf s q with pacing := .pacer }) ∧
      (∀ q slot, (queueOf s q).pacing = .fine slot → t.tmu.now / 256 < (queueOf s q).e / 65536 / 256 →
        queueOf t q = queueOf s q) := by
  obtain ⟨n, hn⟩ : ∃ n, n = nextMultiple 256 s.wei.fineAt s.tmu.now := ⟨_, rfl⟩
  obtain ⟨k1, k2, k3⟩ := nextMultiple_spec 256 s.wei.fineAt s.tmu.now (by decide)
  rw [← hn] at k1 k2 k3
  obtain ⟨u, hu⟩ : ∃ u, u = (if (setNow n s).tmu.now % 1048576 = 0 ∧ (setNow n s).wei.coarseAt < (setNow n s).tmu.now then
    coarseTick (setNow n s) else setNow n s) := ⟨_, rfl⟩
  have hut : u.tmu.now = n := by
    subst hu; split <;> simp [coarseTick, max_eq_right k2]
  have huq : ∀ q slot, (queueOf s q).pacing = .fine slot → queueOf u q = queueOf s q := by
    intro q slot hf
    subst hu
    split
    · rw [coarseTick_queue (s := setNow n s) (w := queueOf s q) rfl (by rw [hf]; simp), hf]
    · rfl
  refine ⟨fineTick u, ?_, ?_, ?_, ?_, ?_, ?_, ?_⟩
  · simp only [exec, execFineTick, h1, if_true, ← hn, hu]
  · show u.tmu.now % 256 = 0; rw [hut]; exact k1
  · show _ ≤ u.tmu.now; rw [hut]; exact k2
  · intro m hm hlt; show u.tmu.now ≤ m; rw [hut]; exact k3 m hm hlt
  · rfl
  · intro q slot hf hd
    rw [fineTick_queue (huq q slot hf) (by rw [hf]; simp), hf]
    exact if_pos hd
  · intro q slot hf hd
    rw [fineTick_queue (huq q slot hf) (by rw [hf]; simp), hf]
    exact if_neg (Nat.not_le.2 hd)

theorem coarseTick_effect {s : State} (h1 : inService s = true) :
    Completes .coarseTick s fun t =>
      t.tmu.now % 1048576 = 0 ∧ s.tmu.now ≤ t.tmu.now ∧ (∀ m, m % 1048576 = 0 → s.tmu.now < m → t.tmu.now ≤ m) ∧
      t.wei.coarseAt = t.tmu.now ∧
      (∀ q slot, (queueOf s q).pacing = .coarse slot → (queueOf s q).e / 65536 / 1048576 ≤ t.tmu.now / 1048576 →
        queueOf t q = { queueOf s q with pacing := .fine ((queueOf s q).e / 65536 / 256 % 4096) }) := by
  obtain ⟨n, hn⟩ : ∃ n, n = nextMultiple 1048576 s.wei.coarseAt s.tmu.now := ⟨_, rfl⟩
  obtain ⟨k1, k2, k3⟩ := nextMultiple_spec 1048576 s.wei.coarseAt s.tmu.now (by decide)
  rw [← hn] at k1 k2 k3
  have hut : (setNow n s).tmu.now = n := by simp [max_eq_right k2]
  refine ⟨coarseTick (setNow n s), ?_, ?_, ?_, ?_, ?_, ?_⟩
  · simp only [exec, execCoarseTick, h1, if_true, ← hn]
  · show (setNow n s).tmu.now % _ = 0; rw [hut]; exact k1
  · show _ ≤ (setNow n s).tmu.now; rw [hut]; exact k2
  · intro m hm hlt; show (setNow n s).tmu.now ≤ m; rw [hut]; exact k3 m hm hlt
  · rfl
  · intro q slot hf hd
    rw [coarseTick_queue (s := setNow n s) (w := queueOf s q) rfl (by rw [hf]; simp), hf]
    exact if_pos hd

/-! ## The pacer -/

theorem joinActive_queue (q p k : Nat) (s : State) :
    queueOf (joinActive q p s) k = { queueOf s k with fresh := (queueOf (joinActive q p s) k).fresh } := by
  unfold joinActive
  dsimp only
  split
  · rfl
  · rw [queueOf_setActive]
    by_cases h : k = q
    · subst h; simp
    · simp [h]

theorem joinAll_queue (q k : Nat) (s : State) :
    queueOf (joinAll q s) k = { queueOf s k with fresh := (queueOf (joinAll q s) k).fresh } := by
  unfold joinAll
  generalize List.range 8 = l
  induction l generalizing s with
  | nil => rfl
  | cons p l ih =>
    rw [List.foldl_cons, ih, joinActive_queue q p k s]

theorem cdiv_mul_le (e n : Nat) (h : 0 < n) : e ≤ cdiv e n * n := by
  unfold cdiv
  rw [if_neg (by omega)]
  have h1 := Nat.div_add_mod (e + n - 1) n
  have h2 := Nat.mod_lt (e + n - 1) h
  rw [Nat.mul_comm]
  omega

theorem pacerRelease_effect {queue : Nat} {s : State} (h1 : inService s = true)
    (h2 : (queueOf s queue).pacing = .pacer) :
    Completes (.pacerRelease queue) s fun t =>
      t.tmu.now = max s.tmu.now (cdiv (queueOf s queue).e 65536) ∧
      queueOf t queue = { queueOf s queue with pacing := .eligible, fresh := (queueOf t queue).fresh } := by
  obtain ⟨n, hn⟩ : ∃ n, n = cdiv (queueOf s queue).e 65536 := ⟨_, rfl⟩
  have hd : (queueOf s queue).due (setNow n s).tmu.now = true := by
    have h3 : (queueOf s queue).e ≤ n * 65536 := hn ▸ cdiv_mul_le _ _ (by decide)
    have h4 : (queueOf s queue).e ≤ (setNow n s).tmu.now * 65536 :=
      h3.trans (Nat.mul_le_mul_right _ (Nat.le_max_right _ _))
    unfold WQueue.due
    rw [Bool.or_eq_true]
    exact .inr (decide_eq_true h4)
  refine ⟨joinAll queue (setQueue queue { queueOf s queue with pacing := .eligible } (setNow n s)), ?_, ?_, ?_⟩
  · have hq : testQueue queue (setNow n s) =
        joinAll queue (setQueue queue { queueOf s queue with pacing := .eligible } (setNow n s)) := if_pos hd
    show execPacerRelease queue s = _
    unfold execPacerRelease
    rw [h1, h2, ← hn, hq]
    rfl
  · rw [(joinAll_only (pts := [.wei]) rfl queue (Only.refl _ _)).2 .tmu rfl]
    simp [hn]
  · rw [joinAll_queue]
    simp

/-! ## Service at a port -/

/-- The octets of a frame read the node, the map, the keys and the charter. -/
theorem onWire_same {s t : State} (h1 : t.fab.node = s.fab.node) (h2 : t.slc = s.slc) (h3 : t.sec = s.sec) (h4 : t.stw = s.stw)
    (p : Nat) (f : Frame) : f.onWire t p = f.onWire s p := by
  unfold Frame.onWire etherHeader Frame.sealed Frame.header Frame.nonceBytes wireOf mapNow ownMacs
  rw [h1, h2, h3, h4]

/-- A frame under an active key with nonces left leaves on the wire (R258, R259). -/
theorem transmit_fab (p : Nat) (f : Frame) (s : State) {v : Nat} (hv : (wireOf s f.dike).active = some v)
    (hn : Tab.getD s.fab.nonce (f.dike * 2 + v) 1 < lastNonce) :
    (transmit p f s).fab.wire = s.fab.wire ++ [(p, { f with
      payload := payloadNow s f, keyIndex := v, nonce := Tab.getD s.fab.nonce (f.dike * 2 + v) 1
      octets := ({ f with
        payload := payloadNow s f, keyIndex := v, nonce := Tab.getD s.fab.nonce (f.dike * 2 + v) 1 } : Frame).onWire s p })] ∧
    Tab.getD (transmit p f s).fab.nonce (f.dike * 2 + v) 1 = Tab.getD s.fab.nonce (f.dike * 2 + v) 1 + 1 := by
  have hk : (keyFor { f with payload := payloadNow s f } s).1 =
        some (v, Tab.getD s.fab.nonce (f.dike * 2 + v) 1) ∧
      (keyFor { f with payload := payloadNow s f } s).2.fab.wire = s.fab.wire ∧
      (keyFor { f with payload := payloadNow s f } s).2.fab.nonce =
        Tab.put (f.dike * 2 + v) (Tab.getD s.fab.nonce (f.dike * 2 + v) 1 + 1) s.fab.nonce ∧
      (keyFor { f with payload := payloadNow s f } s).2.fab.node = s.fab.node := by
    unfold keyFor
    simp only [hv]
    unfold takeNonce
    rw [if_neg (Nat.not_le.2 hn)]
    dsimp only
    split <;> simp
  have hko := keyFor_only (pts := [.fab, .hif, .status]) rfl { f with payload := payloadNow s f } (Only.refl _ s)
  have hc : ∀ d n (u : State), (charge d 5 n u).fab = u.fab := fun d n u =>
    (charge_only (pts := [.hif, .hlt, .status]) rfl d 5 n (Only.refl _ u)).2 .fab rfl
  have hw : ∀ a b c d (u : State), (wEvent a b c d u).fab = u.fab := fun a b c d u =>
    (wEvent_only (pts := [.hif, .hlt, .status]) rfl a b c d (Only.refl _ u)).2 .fab rfl
  have hs : ∀ (g : Frame) (u : State), (noteSent g u).fab.wire = u.fab.wire ∧ (noteSent g u).fab.nonce = u.fab.nonce ∧
      (noteSent g u).fab.node = u.fab.node := by
    intro g u
    unfold noteSent updOut
    split <;> simp
  have ho : ∀ n (u : State), (countFrameOut p n u).fab.wire = u.fab.wire ∧ (countFrameOut p n u).fab.nonce = u.fab.nonce ∧
      (countFrameOut p n u).fab.node = u.fab.node := by
    intro n u
    unfold countFrameOut
    simp only [hw, setPort_fab, and_self]
  unfold transmit
  dsimp only
  generalize hx : keyFor { f with payload := payloadNow s f } s = k at hk hko
  rw [hk.1]
  dsimp only
  obtain ⟨u, hu⟩ : ∃ u, u = noteSent { f with payload := payloadNow s f } k.2 := ⟨_, rfl⟩
  have huo : Only [.fab, .hif, .status] s u := by
    rw [hu]
    exact noteSent_only rfl _ hko
  have hus := hs { f with payload := payloadNow s f } k.2
  rw [← hu] at hus
  rw [← hu]
  obtain ⟨w, hw'⟩ : ∃ w, w = charge (chargedTo u { f with payload := payloadNow s f }) 5 (frameBytes u (payloadNow s f).length)
    (countFrameOut p (frameBytes u (payloadNow s f).length) u) := ⟨_, rfl⟩
  have hwo : Only [.fab, .hif, .hlt, .status] s w := by
    rw [hw']
    exact charge_only rfl _ _ _ (countFrameOut_only rfl _ _ (Only.mono huo rfl))
  have hwf : w.fab.wire = s.fab.wire ∧ w.fab.nonce = Tab.put (f.dike * 2 + v) (Tab.getD s.fab.nonce (f.dike * 2 + v) 1 + 1) s.fab.nonce ∧
      w.fab.node = s.fab.node := by
    rw [hw', hc, (ho _ _).1, (ho _ _).2.1, (ho _ _).2.2, hus.1, hus.2.1, hus.2.2, hk.2.1, hk.2.2.1, hk.2.2.2]
    exact ⟨rfl, rfl, rfl⟩
  rw [← hw']
  rw [hwf.1, hwf.2.1, Tab.getD_put_same, onWire_same hwf.2.2 (hwo.2 .slc rfl) (hwo.2 .sec rfl) (hwo.2 .stw rfl)]
  exact ⟨rfl, rfl⟩

theorem transmit_queue (p : Nat) (f : Frame) (s : State) (q : Nat) : queueOf (transmit p f s) q = queueOf s q :=
  queueOf_of_wei ((transmit_only (pts := [.fab, .hif, .hlt, .status]) rfl p f (Only.refl _ s)).2 .wei rfl) q

theorem wEvent_queue (a b c d : Nat) (s : State) (q : Nat) : queueOf (wEvent a b c d s) q = queueOf s q :=
  queueOf_of_wei ((wEvent_only (pts := [.hif, .hlt, .status]) rfl a b c d (Only.refl _ s)).2 .wei rfl) q

theorem takeDirect_some {q p : Nat} {s : State} {f : Frame} {r : List Frame} (h : (queueOf s q).on p = f :: r) :
    ∃ u, takeDirect q p s = (some { f with cls := queueClass s q }, u) ∧ (queueOf u q).on p = r ∧
      (∀ k, k ≠ q → queueOf u k = queueOf s k) ∧ u.fab = s.fab ∧ u.sec = s.sec ∧ u.tmu = s.tmu ∧ u.slc = s.slc ∧ u.stw = s.stw := by
  unfold takeDirect takeHead
  simp only [h]
  refine ⟨_, rfl, ?_, ?_, ?_, ?_, ?_, ?_, ?_⟩
  · rw [wEvent_queue]; simp [WQueue.on]
  · intro k hk; rw [wEvent_queue]; simp [hk]
  · exact (wEvent_only (pts := [.hif, .hlt, .status]) rfl _ _ _ _ (Only.refl _ _)).2 .fab rfl
  · exact (wEvent_only (pts := [.hif, .hlt, .status]) rfl _ _ _ _ (Only.refl _ _)).2 .sec rfl
  · exact (wEvent_only (pts := [.hif, .hlt, .status]) rfl _ _ _ _ (Only.refl _ _)).2 .tmu rfl
  · exact (wEvent_only (pts := [.hif, .hlt, .status]) rfl _ _ _ _ (Only.refl _ _)).2 .slc rfl
  · exact (wEvent_only (pts := [.hif, .hlt, .status]) rfl _ _ _ _ (Only.refl _ _)).2 .stw rfl

/-- CONTROL first, then STEP (R276): the head packet of the first that holds one leaves. -/
theorem transmitOpportunity_direct {at_ port q : Nat} {s : State} {f : Frame} {r : List Frame} {v : Nat} (h1 : port < 8)
    (h2 : portUp s port = true) (hq : q = 0 ∨ (q = 1 ∧ (queueOf s 0).on port = [])) (h : (queueOf s q).on port = f :: r)
    (hv : (wireOf s f.dike).active = some v) (hn : Tab.getD s.fab.nonce (f.dike * 2 + v) 1 < lastNonce) :
    Completes (.transmitOpportunity at_ port) s fun t =>
      (queueOf t q).on port = r ∧ (∀ k, k ≠ q → queueOf t k = queueOf s k) ∧
      (∃ payload, t.fab.wire = s.fab.wire ++ [(port, sentFrame s q port v payload f)]) ∧
      Tab.getD t.fab.nonce (f.dike * 2 + v) 1 = Tab.getD s.fab.nonce (f.dike * 2 + v) 1 + 1 := by
  obtain ⟨u, hu, u1, u2, u3, u4, u5, u6, u7⟩ := takeDirect_some (s := setNow at_ s) (q := q) (p := port) h
  have hf : nextFrame port (setNow at_ s) = (some { f with cls := queueClass s q }, u) := by
    unfold nextFrame
    rcases hq with rfl | ⟨rfl, h0⟩
    · rw [show (queueOf (setNow at_ s) 0).on port = f :: r from h]
      exact hu
    · rw [show (queueOf (setNow at_ s) 1).on port = f :: r from h,
        show (queueOf (setNow at_ s) 0).on port = [] from h0]
      exact hu
  have hw : (wireOf u f.dike).active = some v := by
    unfold wireOf at hv ⊢; rw [u4]; exact hv
  have ht := transmit_fab port { f with cls := queueClass s q } u hw (by rw [u3]; exact hn)
  rw [u3, onWire_same (show u.fab.node = s.fab.node by rw [u3]; rfl) u6 u4 u7] at ht
  refine ⟨transmit port { f with cls := queueClass s q } u, ?_, ?_, ?_, ?_, ?_⟩
  · show execTransmitOpportunity at_ port s = _
    unfold execTransmitOpportunity
    dsimp only
    rw [if_pos, hf]
    simp only [h1, decide_true, Bool.true_and]
    exact h2
  · rw [transmit_queue]; exact u1
  · intro k hk; rw [transmit_queue]; exact u2 k hk
  · exact ⟨_, ht.1⟩
  · exact ht.2

theorem leaveAll_queue (q k : Nat) (s : State) : queueOf (leaveAll q s) k = queueOf s k := by
  unfold leaveAll
  generalize List.range 8 = l
  induction l generalizing s with
  | nil => rfl
  | cons p l ih => rw [List.foldl_cons, ih, queueOf_setActive]

theorem testQueue_inst (q k : Nat) (s : State) : (queueOf (testQueue q s) k).inst = (queueOf s k).inst := by
  unfold testQueue
  dsimp only
  split
  · rw [joinAll_queue]
    by_cases h : k = q
    · subst h; simp
    · simp [h]
  · rw [leaveAll_queue]
    by_cases h : k = q
    · subst h; simp
    · simp [h]

theorem advanceE_inst (w : WQueue) (c now : Nat) : (advanceE w c now).inst = w.inst := by
  unfold advanceE
  split <;> rfl

theorem drrAfter_inst (q p c k : Nat) (s : State) : (queueOf (drrAfter q p c s) k).inst = (queueOf s k).inst := by
  have hw : ∀ (w : WQueue) (u : State), (w.inst = (queueOf u q).inst) →
      (queueOf (setQueue q (advanceE w c u.tmu.now) u) k).inst = (queueOf u k).inst := by
    intro w u h
    by_cases hk : k = q
    · subst hk; simp [advanceE_inst, h]
    · simp [hk]
  unfold drrAfter
  dsimp only
  split
  · split
    · rw [queueOf_setActive, wEvent_queue]; exact hw _ _ rfl
    · rw [testQueue_inst, queueOf_setActive, wEvent_queue]; exact hw _ _ rfl
  · split
    · rw [wEvent_queue]; exact hw _ _ rfl
    · rw [testQueue_inst, wEvent_queue]; exact hw _ _ rfl

/-- Deficit round robin (R277): with CONTROL and STEP empty on the port, the queue at the head of the active list sends
where its deficit, with a fresh quantum, covers its packet. -/
theorem transmitOpportunity_drr {at_ port q : Nat} {s : State} {f : Frame} {r : List Frame} {rest : List Nat} {v : Nat}
    (h1 : port < 8) (h2 : portUp s port = true) (hc : (queueOf s 0).on port = []) (hs : (queueOf s 1).on port = [])
    (ha : activeOf s port = q :: rest) (h : (queueOf s q).on port = f :: r)
    (hd : packetCost f ≤ Tab.getD (queueOf s q).deficit port 0 + (if (queueOf s q).fresh.contains port then (queueOf s q).quantum else 0))
    (hv : (wireOf s f.dike).active = some v) (hn : Tab.getD s.fab.nonce (f.dike * 2 + v) 1 < lastNonce) :
    Completes (.transmitOpportunity at_ port) s fun t =>
      (queueOf t q).on port = r ∧
      (∃ payload, t.fab.wire = s.fab.wire ++ [(port, sentFrame s q port v payload f)]) ∧
      Tab.getD t.fab.nonce (f.dike * 2 + v) 1 = Tab.getD s.fab.nonce (f.dike * 2 + v) 1 + 1 := by
  obtain ⟨w, hw, hwi⟩ : ∃ w : WQueue, drrChoose port (drrFuel (setNow at_ s) port) (setNow at_ s) =
      (some q, setQueue q w (setNow at_ s)) ∧ w.inst = (queueOf s q).inst := by
    obtain ⟨n, hn⟩ : ∃ n, drrFuel (setNow at_ s) port = n + 1 := ⟨66 * ((activeOf (setNow at_ s) port).length + 1) - 1, by
      unfold drrFuel; omega⟩
    rw [hn]
    unfold drrChoose
    rw [show activeOf (setNow at_ s) port = q :: rest from ha]
    dsimp only
    rw [show (queueOf (setNow at_ s) q).on port = f :: r from h]
    dsimp only
    rw [if_pos]
    · exact ⟨_, rfl, rfl⟩
    · exact hd
  obtain ⟨u, hu⟩ : ∃ u, u = setQueue q w (setNow at_ s) := ⟨_, rfl⟩
  have huo : (queueOf u q).on port = f :: r := by
    subst hu; simp only [queueOf_setQueue_same, WQueue.on, hwi]; exact h
  obtain ⟨x, hx⟩ : ∃ x, x = setQueue q { queueOf u q with inst := Tab.put port r (queueOf u q).inst } u := ⟨_, rfl⟩
  have hf : nextFrame port (setNow at_ s) =
      (some { f with cls := queueClass s q }, drrAfter q port (packetCost { f with cls := queueClass s q }) x) := by
    unfold nextFrame
    rw [show (queueOf (setNow at_ s) 0).on port = [] from hc, show (queueOf (setNow at_ s) 1).on port = [] from hs]
    dsimp only
    rw [hw]
    dsimp only
    rw [← hu]
    unfold takeHead
    dsimp only
    rw [huo]
    dsimp only
    rw [← hx]
    have : queueClass u q = queueClass s q := by subst hu; rfl
    rw [this]
  obtain ⟨y, hy⟩ : ∃ y, y = drrAfter q port (packetCost { f with cls := queueClass s q }) x := ⟨_, rfl⟩
  rw [← hy] at hf
  have hp := drrAfter_only (pts := [.wei, .hif, .hlt, .status]) rfl q port (packetCost { f with cls := queueClass s q })
    (Only.refl _ x)
  rw [← hy] at hp
  have hyf : y.fab = s.fab := (hp.2 .fab rfl).trans (by subst hx; subst hu; rfl)
  have hys : y.sec = s.sec := (hp.2 .sec rfl).trans (by subst hx; subst hu; rfl)
  have hyl : y.slc = s.slc := (hp.2 .slc rfl).trans (by subst hx; subst hu; rfl)
  have hyt : y.stw = s.stw := (hp.2 .stw rfl).trans (by subst hx; subst hu; rfl)
  have hyi : (queueOf y q).on port = r := by
    unfold WQueue.on
    rw [hy, drrAfter_inst, hx]
    simp
  have hyw : (wireOf y f.dike).active = some v := by
    unfold wireOf at hv ⊢; rw [hys]; exact hv
  have ht := transmit_fab port { f with cls := queueClass s q } y hyw (by rw [hyf]; exact hn)
  rw [hyf, onWire_same (by rw [hyf]) hyl hys hyt] at ht
  refine ⟨transmit port { f with cls := queueClass s q } y, ?_, ?_, ?_, ?_⟩
  · show execTransmitOpportunity at_ port s = _
    unfold execTransmitOpportunity
    dsimp only
    rw [if_pos, hf]
    simp only [h1, decide_true, Bool.true_and]
    exact h2
  · rw [transmit_queue]; exact hyi
  · exact ⟨_, ht.1⟩
  · exact ht.2

end Sys2Proof.Machine
end

