-- ==== Sys2Proof/Laws/EffTaken.lean ====
section
/-! SUPPORT. What the ring commands do that take effect when they are taken (R238, R257, R268, R281, R305, R306, R326, R365,
R366). -/

namespace Sys2Proof.Machine

open Sys2Proof.Safety

/-! ## The state in which they take effect -/

theorem answered_at {h : CmdHead} {op : RingOp} {s w : State} {status cause reason r0 r1 : Nat} (h64 : h.ring < 64)
    (h2 : h.silent = false ∨ status ≠ 0) (hw : SameRings (effectState h op s) w) (ht : w.tmu = s.tmu) :
    Answered (ticketOf h op) status cause reason r0 r1 s (complete (ticketOf h op) status cause reason r0 r1 w) := by
  have hc := (complete_answers (k := ticketOf h op) (cause := cause) (reason := reason) (r0 := r0) (r1 := r1) (s := w) h64 h2).1
  have hr : ringOf w h.ring = ringOf (effectState h op s) h.ring := ringOf_of hw _
  rw [effectState_ring] at hr
  unfold Answered at hc ⊢
  have hr' : ringOf w (ticketOf h op).ring = _ := hr
  rw [hr', stepNo_of ht] at hc
  exact hc

theorem complete_part {k : Ticket} {status cause reason r0 r1 : Nat} {s : State} {p : Part} (h : [Part.hif, .mem].contains p = false) :
    p.same s (complete k status cause reason r0 r1 s) := (complete_only rfl k status cause reason r0 r1 (Only.refl _ s)).2 p h

theorem ringCommandAt_at {c : Instr} {at_ : Nat} {h : CmdHead} {op : RingOp} {s : State} {P : State → Prop}
    (he : exec c s = ringCommandAt at_ h op s) (g : RingReady h op (place h.placed (setNow at_ s))) (hw : waitAction op = none)
    (hu : s.sec.upd ≠ .switching)
    (hp : P (doTaken { action := 0, tenant := h.tenant, source := Config.ringSource h.ring
                       sseq := ((ringOf (place h.placed (setNow at_ s)) h.ring).taken + 1) % 2 ^ 32
                       wait := .command (ticketOf h op) op (takenBody h op (place h.placed (setNow at_ s))) } (ticketOf h op) op
                (takenBody h op (place h.placed (setNow at_ s))) (notedState h op (place h.placed (setNow at_ s))))) :
    Completes c s P := by
  have hs : inService s = true := by have := g.service; rwa [place_inService] at this
  refine ⟨_, he.trans ((show ringCommandAt at_ h op s = ringCommand h op none (setNow at_ s) from by
    unfold ringCommandAt; rw [if_pos hs]).trans (ringCommand_run g)), ?_⟩
  rw [submit_ready g]
  have : withOpened none (readMem (place h.placed (setNow at_ s)) h.bodyAddr h.bodyLen) op = op := by
    cases op <;> first | rfl | cases hw
  rw [this, takeCommand_at g hw (by rw [(place_parts h.placed (setNow at_ s)).2 .sec rfl]; exact hu)]
  exact hp

theorem notedState_cores (h : CmdHead) (op : RingOp) (s : State) : SameCores s (notedState h op s) :=
  (noteFirst_sameCores _ _ (SameCores.refl (enteredState h op s))).trans rfl

theorem effectState_cores (h : CmdHead) (op : RingOp) (s : State) : SameCores s (effectState h op s) :=
  (journal_sameCores _ _ _ _ _ _ (SameCores.refl (notedState h op s))).trans (notedState_cores h op s)

/-! ## COMPOSE (R18, R366) -/

theorem budgetB_same {s t : State} (h : SameCores s t) (h2 : t.stw = s.stw) : budgetB t = budgetB s := by
  have hd := sameCores_die h
  have hc := sameCores_at h
  unfold SameCores at h
  simp only [Prod.mk.injEq] at h
  have hp : ∀ k, physOf t k = physOf s k := by intro k; unfold physOf; rw [hd]
  have hs : servingCores t = servingCores s := by
    unfold servingCores coresWhere
    simp only [hd]
  have hq : coreSuspect t = coreSuspect s := by
    funext k
    unfold coreSuspect
    rw [hp, hc]
  unfold budgetB budgetFor coreCount suspectCount budgetA spillReserve recheckFor budgetA
  rw [h.2.2.2.2.2, hs, hq, h2]

theorem mapCause_same {s t : State} (h : SameCores s t) (h2 : t.stw = s.stw) (h3 : t.sec = s.sec) (h4 : t.tmu = s.tmu)
    (h5 : t.sqs.budget = s.sqs.budget) (bs : List Byte) :
    mapCause t bs = mapCause s bs := by
  have hm : ownMacs t = ownMacs s := by unfold ownMacs; rw [h3]
  have hs : mapSelf t (readMap bs) = mapSelf s (readMap bs) := by unfold mapSelf; rw [hm]
  have hb : budgetInForce t = budgetInForce s := by
    unfold budgetInForce
    rw [h4, h5, budgetB_same h h2]
  unfold mapCause
  dsimp only
  rw [hs, hb, h2]

theorem effectState_budget (h : CmdHead) (op : RingOp) (s : State) : (effectState h op s).sqs.budget = s.sqs.budget := by
  have h1 : SameSqs (enteredState h op s) (effectState h op s) :=
    journal_sameSqs _ _ _ _ _ _ (noteFirst_sameSqs _ _ (SameSqs.refl _))
  have h2 := congrArg Sqs.budget h1
  dsimp only at h2
  rw [h2, (enteredState_parts h op s).2 .sqs rfl]

theorem compose_taken {h : CmdHead} {s : State} (g : RingReady h .compose (place h.placed s)) (hu : s.sec.upd ≠ .switching)
    (hm : mapCause (place h.placed s) (readMem (place h.placed s) h.bodyAddr h.bodyLen) = none) :
    Completes (.compose h) s fun t =>
      t.slc = { s.slc with nextMap := some (readMap (readMem (place h.placed s) h.bodyAddr h.bodyLen)) } ∧
      (h.silent = false → Answered (ticketOf h .compose) 0 0 0 0 0 (place h.placed s) t) := by
  refine ringCommand_at rfl g rfl hu ?_
  have v1 : (place h.placed s).slc = s.slc := (place_parts _ _).2 .slc rfl
  rw [← v1]
  generalize place h.placed s = v at g hm ⊢
  have hb := (pend_takenBody h .compose v).2
  have hp := effectState_parts h .compose v
  have hd : ∀ p, doTaken p (ticketOf h .compose) .compose (takenBody h .compose v) (notedState h .compose v) =
      doCompose (ticketOf h .compose) (pendBody (takenBody h .compose v)) (journal 3 p.action p.tenant p.source p.sseq
        (takenBody h .compose v ++ readLater .compose (notedState h .compose v)) (notedState h .compose v)) := fun _ => rfl
  rw [hd, hb]
  show (doCompose (ticketOf h .compose) (readMem v h.bodyAddr h.bodyLen) (effectState h .compose v)).slc = _ ∧ (_ → Answered _ 0 0 0 0 0 v
    (doCompose (ticketOf h .compose) (readMem v h.bodyAddr h.bodyLen) (effectState h .compose v)))
  unfold doCompose
  rw [mapCause_same (effectState_cores _ _ _) (hp.2 .stw rfl) (hp.2 .sec rfl) (hp.2 .tmu rfl) (effectState_budget _ _ _), hm]
  dsimp only
  refine ⟨?_, fun hs => answered_at g.ring (.inl hs) rfl (hp.2 .tmu rfl)⟩
  unfold done
  rw [complete_part (p := .slc) rfl]
  dsimp only
  rw [hp.2 .slc rfl]

/-! ## Polders (R268, R270) -/

theorem head_taken {h : CmdHead} {op : RingOp} {s v : State} (g : RingReady h op v) :
    readHead (Config.ringSource h.ring - Config.ringSource 0) (pendEntry (takenBody h op s)) = { h with placed := [] } := by
  rw [ringSource_sub, (pend_takenBody h op s).1]; exact g.head

theorem windowOf_fab {s t : State} (h : t.fab = s.fab) (w : Nat) : windowOf t w = windowOf s w := by
  unfold windowOf; rw [h]

theorem windowOf_setWindow {w : Nat} (h : 256 ≤ w) (r : Window) (s : State) : windowOf (setWindow w r s) w = r := by
  unfold windowOf setWindow; rw [if_neg (by omega)]; simp

theorem winRefusal_same {s t : State} (h : t.pgm = s.pgm) (d : Nat) (o : WinOps) : winRefusal t d o = winRefusal s d o := by
  unfold winRefusal liveObject; rw [h]

theorem pickWindow_same {s t : State} (h : t.fab = s.fab) (h2 : t.tmu = s.tmu) : pickWindow t = pickWindow s := by
  unfold pickWindow; rw [h, h2]

/-- OPEN_WINDOW within the quota, onto a live object with fields that fit: the id that comes up is OPEN for the dike, and the
completion tells id and generation. -/
theorem openWindow_taken {at_ w : Nat} {h : CmdHead} {o : WinOps} {s v : State} (hv : v = place h.placed (setNow at_ s))
    (g : RingReady h (.openWindow o) v) (hu : s.sec.upd ≠ .switching) (hq : poldersOf v h.tenant < v.stw.charter.winQuota)
    (hr : winRefusal v h.tenant o = none) (hw : pickWindow v = some w) (h256 : 256 ≤ w) :
    Completes (.openWindow at_ h o) s fun t =>
      windowOf t w = { windowOf v w with
        key := o.key, desc := o.desc, descGen := o.descGen, state := .opened, dike := h.tenant, rights := o.rights
        ring := o.ring, base := o.base, length := o.length, openedAt := some v.tmu.now, ticket := none, reopen := none } ∧
      (h.silent = false → Answered (ticketOf h (.openWindow o)) 0 0 0 (w + (windowOf v w).gen * 2 ^ 32) 0 v t) := by
  subst hv
  refine ringCommandAt_at rfl g rfl hu ?_
  generalize place h.placed (setNow at_ s) = v at g hq hr hw ⊢
  have hp := effectState_parts h (.openWindow o) v
  have hd : ∀ p : Pend, doTaken p (ticketOf h (.openWindow o)) (.openWindow o) (takenBody h (.openWindow o) v)
        (notedState h (.openWindow o) v) =
      doOpenWindow (ticketOf h (.openWindow o))
        (readHead (p.source - Config.ringSource 0) (pendEntry (takenBody h (.openWindow o) v))).tenant o
        (journal 3 p.action p.tenant p.source p.sseq
        (takenBody h (.openWindow o) v ++ readLater (.openWindow o) (notedState h (.openWindow o) v))
        (notedState h (.openWindow o) v)) := fun _ => rfl
  rw [hd]
  dsimp only
  rw [head_taken g]
  have he : doOpenWindow (ticketOf h (.openWindow o)) h.tenant o (effectState h (.openWindow o) v) =
      openedResult (ticketOf h (.openWindow o)) w (openAs w h.tenant o (effectState h (.openWindow o) v)) := by
    unfold doOpenWindow
    have h1 : poldersOf (effectState h (.openWindow o) v) h.tenant = poldersOf v h.tenant := by
      unfold poldersOf; rw [hp.2 .fab rfl]
    rw [h1, hp.2 .stw rfl, if_neg (by omega), winRefusal_same (hp.2 .pgm rfl), hr, pickWindow_same (hp.2 .fab rfl) (hp.2 .tmu rfl), hw]
  have hs : ∀ t, windowOf t w = { windowOf (effectState h (.openWindow o) v) w with
        key := o.key, desc := o.desc, descGen := o.descGen, state := .opened, dike := h.tenant, rights := o.rights
        ring := o.ring, base := o.base, length := o.length, openedAt := some (effectState h (.openWindow o) v).tmu.now
        ticket := none, reopen := none } → windowOf t w = { windowOf v w with
        key := o.key, desc := o.desc, descGen := o.descGen, state := .opened, dike := h.tenant, rights := o.rights
        ring := o.ring, base := o.base, length := o.length, openedAt := some v.tmu.now, ticket := none, reopen := none } := by
    intro t ht
    rw [ht, windowOf_fab (hp.2 .fab rfl), hp.2 .tmu rfl]
  have hx := windowOf_setWindow h256 { windowOf (effectState h (.openWindow o) v) w with
        key := o.key, desc := o.desc, descGen := o.descGen, state := .opened, dike := h.tenant, rights := o.rights
        ring := o.ring, base := o.base, length := o.length, openedAt := some (effectState h (.openWindow o) v).tmu.now
        ticket := none, reopen := none } (effectState h (.openWindow o) v)
  show windowOf (doOpenWindow _ h.tenant o (effectState h (.openWindow o) v)) w = _ ∧ (_ → Answered _ _ _ _ _ _ v
    (doOpenWindow _ h.tenant o (effectState h (.openWindow o) v)))
  rw [he]
  refine ⟨hs _ ?_, fun hsil => ?_⟩
  · unfold openedResult doneWith
    rw [windowOf_fab (complete_part (p := .fab) rfl)]
    exact hx
  · unfold openedResult doneWith
    have hg : (windowOf (openAs w h.tenant o (effectState h (.openWindow o) v)) w).gen = (windowOf v w).gen := by
      rw [← windowOf_fab (hp.2 .fab rfl) w]
      exact (congrArg Window.gen hx).trans rfl
    rw [hg]
    exact answered_at g.ring (.inl hsil) rfl (hp.2 .tmu rfl)

/-- REVOKE_WINDOW of an OPEN polder of the dike with nothing under way: it is REVOKING and its generation is the next. -/
theorem revokeWindow_taken {at_ w : Nat} {h : CmdHead} {s v : State} (hv : v = place h.placed (setNow at_ s))
    (g : RingReady h (.revokeWindow w) v) (hu : s.sec.upd ≠ .switching) (h1 : 256 ≤ w) (h2 : w < windowEnd)
    (h3 : (windowOf v w).state = .opened) (h4 : (windowOf v w).dike = h.tenant) (h5 : (windowOf v w).ticket = none) :
    Completes (.revokeWindow at_ h w) s fun t =>
      windowOf t w = { windowOf v w with
        state := .revoking, gen := ((windowOf v w).gen + 1) % 4096, revoked := true
        revokedAt := v.tmu.now, fenced := [], ticket := some (ticketOf h (.revokeWindow w)), reopen := none } := by
  subst hv
  refine ringCommandAt_at rfl g rfl hu ?_
  generalize place h.placed (setNow at_ s) = v at g h3 h4 h5 ⊢
  have hp := effectState_parts h (.revokeWindow w) v
  have hd : ∀ p : Pend, doTaken p (ticketOf h (.revokeWindow w)) (.revokeWindow w) (takenBody h (.revokeWindow w) v)
        (notedState h (.revokeWindow w) v) =
      doRevokeWindow (ticketOf h (.revokeWindow w))
        (readHead (p.source - Config.ringSource 0) (pendEntry (takenBody h (.revokeWindow w) v))).tenant w
        (journal 3 p.action p.tenant p.source p.sseq
        (takenBody h (.revokeWindow w) v ++ readLater (.revokeWindow w) (notedState h (.revokeWindow w) v))
        (notedState h (.revokeWindow w) v)) := fun _ => rfl
  rw [hd]
  dsimp only
  rw [head_taken g]
  show windowOf (doRevokeWindow (ticketOf h (.revokeWindow w)) h.tenant w (effectState h (.revokeWindow w) v)) w = _
  have hf := windowOf_fab (hp.2 .fab rfl) w
  unfold doRevokeWindow Window.busy
  dsimp only
  rw [hf, if_neg (by omega), h3, if_neg (by decide), h4, if_neg (by simp), h5, if_neg (by decide)]
  unfold beginRevoke
  dsimp only
  rw [windowOf_setWindow h1, hf, h4, hp.2 .tmu rfl]

/-- REOPEN_WINDOW of an OPEN polder of the dike: 500 µs after its opening it is REVOKING and will be opened again. -/
theorem reopenWindow_taken {at_ w : Nat} {h : CmdHead} {o : WinOps} {s v : State} (hv : v = place h.placed (setNow at_ s))
    (g : RingReady h (.reopenWindow w o) v) (hu : s.sec.upd ≠ .switching) (h1 : 256 ≤ w) (h2 : w < windowEnd)
    (h3 : (windowOf v w).state = .opened) (h4 : (windowOf v w).dike = h.tenant) (h5 : (windowOf v w).ticket = none)
    (hr : winRefusal v h.tenant o = none) (h6 : (windowOf v w).openedAt.getD 0 + 500000 ≤ v.tmu.now) :
    Completes (.reopenWindow at_ h w o) s fun t =>
      windowOf t w = { windowOf v w with
        state := .revoking, gen := ((windowOf v w).gen + 1) % 4096, revoked := true
        revokedAt := v.tmu.now, fenced := [], ticket := some (ticketOf h (.reopenWindow w o)), reopen := some o } := by
  subst hv
  refine ringCommandAt_at rfl g rfl hu ?_
  generalize place h.placed (setNow at_ s) = v at g h3 h4 h5 hr h6 ⊢
  have hp := effectState_parts h (.reopenWindow w o) v
  have hd : ∀ p : Pend, doTaken p (ticketOf h (.reopenWindow w o)) (.reopenWindow w o) (takenBody h (.reopenWindow w o) v)
        (notedState h (.reopenWindow w o) v) =
      doReopenWindow (ticketOf h (.reopenWindow w o))
        (readHead (p.source - Config.ringSource 0) (pendEntry (takenBody h (.reopenWindow w o) v))).tenant w o
        (journal 3 p.action p.tenant p.source p.sseq
        (takenBody h (.reopenWindow w o) v ++ readLater (.reopenWindow w o) (notedState h (.reopenWindow w o) v))
        (notedState h (.reopenWindow w o) v)) := fun _ => rfl
  rw [hd]
  dsimp only
  rw [head_taken g]
  show windowOf (doReopenWindow (ticketOf h (.reopenWindow w o)) h.tenant w o (effectState h (.reopenWindow w o) v)) w = _
  have hf := windowOf_fab (hp.2 .fab rfl) w
  unfold doReopenWindow Window.busy
  dsimp only
  rw [hf, if_neg (by omega), h3, if_neg (by simp [h4]), h5, if_neg (by decide), winRefusal_same (hp.2 .pgm rfl), hr]
  dsimp only
  rw [hp.2 .tmu rfl, if_pos h6]
  unfold beginRevoke
  dsimp only
  rw [windowOf_setWindow h1, hf, hp.2 .tmu rfl]

/-- Before that, it is held until then. -/
theorem reopenWindow_held {at_ w : Nat} {h : CmdHead} {o : WinOps} {s v : State} (hv : v = place h.placed (setNow at_ s))
    (g : RingReady h (.reopenWindow w o) v) (hu : s.sec.upd ≠ .switching) (h1 : 256 ≤ w) (h2 : w < windowEnd)
    (h3 : (windowOf v w).state = .opened) (h4 : (windowOf v w).dike = h.tenant) (h5 : (windowOf v w).ticket = none)
    (hr : winRefusal v h.tenant o = none) (h6 : v.tmu.now < (windowOf v w).openedAt.getD 0 + 500000) :
    Completes (.reopenWindow at_ h w o) s fun t =>
      windowOf t w = { windowOf v w with ticket := some (ticketOf h (.reopenWindow w o)), reopen := some o } := by
  subst hv
  refine ringCommandAt_at rfl g rfl hu ?_
  generalize place h.placed (setNow at_ s) = v at g h3 h4 h5 hr h6 ⊢
  have hp := effectState_parts h (.reopenWindow w o) v
  have hd : ∀ p : Pend, doTaken p (ticketOf h (.reopenWindow w o)) (.reopenWindow w o) (takenBody h (.reopenWindow w o) v)
        (notedState h (.reopenWindow w o) v) =
      doReopenWindow (ticketOf h (.reopenWindow w o))
        (readHead (p.source - Config.ringSource 0) (pendEntry (takenBody h (.reopenWindow w o) v))).tenant w o
        (journal 3 p.action p.tenant p.source p.sseq
        (takenBody h (.reopenWindow w o) v ++ readLater (.reopenWindow w o) (notedState h (.reopenWindow w o) v))
        (notedState h (.reopenWindow w o) v)) := fun _ => rfl
  rw [hd]
  dsimp only
  rw [head_taken g]
  show windowOf (doReopenWindow (ticketOf h (.reopenWindow w o)) h.tenant w o (effectState h (.reopenWindow w o) v)) w = _
  have hf := windowOf_fab (hp.2 .fab rfl) w
  unfold doReopenWindow Window.busy
  dsimp only
  rw [hf, if_neg (by omega), h3, if_neg (by simp [h4]), h5, if_neg (by decide), winRefusal_same (hp.2 .pgm rfl), hr]
  dsimp only
  rw [hp.2 .tmu rfl, if_neg (by omega)]
  rw [windowOf_setWindow h1]

/-! ## BUILD_TABLE, STAGE_IMAGE, COMMIT_SVN (R238, R305, R306) -/

/-- BUILD_TABLE: the build stands behind those under way, in order of taking. -/
theorem buildTable_taken {h : CmdHead} {layout source length : Nat} {s v : State} (hv : v = place h.placed s)
    (g : RingReady h (.buildTable layout source length) v) (hu : s.sec.upd ≠ .switching) (h1 : layout < 6) (h2 : length ≠ 0)
    (h3 : length ≤ 67108864) (h4 : inHdm source length = true) :
    Completes (.buildTable h layout source length) s fun t =>
      t.cmp = { s.cmp with build := s.cmp.build ++
        [(ticketOf h (.buildTable layout source length), layout, source, length, h.bodyAddr)] } := by
  subst hv
  refine ringCommand_at rfl g rfl hu ?_
  have v1 : (place h.placed s).cmp = s.cmp := (place_parts _ _).2 .cmp rfl
  rw [← v1]
  generalize place h.placed s = v at g ⊢
  have hp := effectState_parts h (.buildTable layout source length) v
  obtain ⟨op, hop⟩ : ∃ op, op = RingOp.buildTable layout source length := ⟨_, rfl⟩
  have hd : ∀ p : Pend, doTaken p (ticketOf h op) op (takenBody h op v) (notedState h op v) =
      doBuildTable (ticketOf h op) (readHead (p.source - Config.ringSource 0) (pendEntry (takenBody h op v))) layout source length
        (journal 3 p.action p.tenant p.source p.sseq (takenBody h op v ++ readLater op (notedState h op v))
        (notedState h op v)) := by subst hop; exact fun _ => rfl
  rw [← hop] at g hp ⊢
  rw [hd]
  dsimp only
  rw [head_taken g]
  show (doBuildTable _ _ layout source length (effectState h op v)).cmp = _
  unfold doBuildTable sourceOk
  rw [h4, if_neg (by simp; omega)]
  dsimp only
  rw [hp.2 .cmp rfl]

/-- STAGE_IMAGE with no update under way: the image's bytes are staged and its verification begins. -/
theorem stageImage_taken {at_ : Nat} {h : CmdHead} {s v : State} (hv : v = place h.placed (setNow at_ s))
    (g : RingReady h .stageImage v) (hb : updateBusy s = false) :
    Completes (.stageImage at_ h) s fun t =>
      t.sec = { s.sec with upd := .verifying, staged := readMem v h.bodyAddr h.bodyLen
                           stageAt := if liveTime s then some (h.bodyAddr, h.bodyLen) else none
                           updTicket := some (ticketOf h .stageImage) } := by
  subst hv
  have hu : s.sec.upd ≠ .switching := by
    intro e; unfold updateBusy at hb; rw [e] at hb; exact absurd hb (by decide)
  refine ringCommandAt_at rfl g rfl hu ?_
  have v2 : liveTime (place h.placed (setNow at_ s)) = liveTime s := by
    unfold liveTime; rw [(place_parts _ _).2 .stw rfl]; rfl
  rw [← v2]
  have v1 : (place h.placed (setNow at_ s)).sec = s.sec := (place_parts _ _).2 .sec rfl
  unfold updateBusy at hb
  rw [← v1] at hb ⊢
  clear v2
  generalize place h.placed (setNow at_ s) = v at g hb ⊢
  have hp := effectState_parts h .stageImage v
  have hd : ∀ p : Pend, doTaken p (ticketOf h .stageImage) .stageImage (takenBody h .stageImage v) (notedState h .stageImage v) =
      doStageImage (ticketOf h .stageImage)
        (readHead (p.source - Config.ringSource 0) (pendEntry (takenBody h .stageImage v))) (pendBody (takenBody h .stageImage v)) (journal 3 p.action p.tenant p.source p.sseq
        (takenBody h .stageImage v ++ readLater .stageImage (notedState h .stageImage v)) (notedState h .stageImage v)) := fun _ => rfl
  rw [hd, (pend_takenBody h .stageImage v).2]
  dsimp only
  rw [head_taken g]
  show (doStageImage _ { h with placed := [] } (readMem v h.bodyAddr h.bodyLen) (effectState h .stageImage v)).sec = _
  have hl : liveTime (effectState h .stageImage v) = liveTime v := by unfold liveTime; rw [hp.2 .stw rfl]
  unfold doStageImage updateBusy
  rw [hp.2 .sec rfl, if_neg (by simpa using hb), hl]

/-- COMMIT_SVN after the flash copy is done: the fused number rises to that of the running image, if that is higher. -/
theorem commitSvn_taken {h : CmdHead} {s v : State} (hv : v = place h.placed s)
    (g : RingReady h .commitSvn v) (hf : s.sec.upd = .flashDone) :
    Completes (.commitSvn h) s fun t =>
      t.sec.fusedSvn = max s.sec.fusedSvn (fld s.sec.running 3 1) ∧
      (h.silent = false → Answered (ticketOf h .commitSvn) 0 0 0 0 0 v t) := by
  subst hv
  refine ringCommand_at rfl g rfl (by rw [hf]; decide) ?_
  have v1 : (place h.placed s).sec = s.sec := (place_parts _ _).2 .sec rfl
  rw [← v1] at hf ⊢
  generalize place h.placed s = v at g hf ⊢
  have hp := effectState_parts h .commitSvn v
  have hd : ∀ p : Pend, doTaken p (ticketOf h .commitSvn) .commitSvn (takenBody h .commitSvn v) (notedState h .commitSvn v) =
      doCommitSvn (ticketOf h .commitSvn) (journal 3 p.action p.tenant p.source p.sseq
        (takenBody h .commitSvn v ++ readLater .commitSvn (notedState h .commitSvn v)) (notedState h .commitSvn v)) := fun _ => rfl
  rw [hd]
  show (doCommitSvn (ticketOf h .commitSvn) (effectState h .commitSvn v)).sec.fusedSvn = _ ∧ (_ → Answered _ _ _ _ _ _ v
    (doCommitSvn (ticketOf h .commitSvn) (effectState h .commitSvn v)))
  have hx : (effectState h .commitSvn v).sec = v.sec := hp.2 .sec rfl
  unfold doCommitSvn
  rw [hx, hf]
  refine ⟨?_, fun hsil => ?_⟩
  · rw [if_pos (by rfl)]
    unfold done
    rw [complete_part (p := .sec) rfl]
    rfl
  · rw [if_pos (by rfl)]
    exact answered_at g.ring (.inl hsil) rfl (hp.2 .tmu rfl)

/-! ## Queues and policers (R281) -/

theorem testQueue_fields (q : Nat) (s : State) :
    (queueOf (testQueue q s) q).enable = (queueOf s q).enable ∧ (queueOf (testQueue q s) q).quantum = (queueOf s q).quantum ∧
    (queueOf (testQueue q s) q).explicit = (queueOf s q).explicit ∧ (queueOf (testQueue q s) q).rate = (queueOf s q).rate ∧
    (queueOf (testQueue q s) q).inst = (queueOf s q).inst := by
  unfold testQueue
  dsimp only
  split
  · rw [joinAll_queue]; simp
  · rw [leaveAll_queue]; simp

theorem applySetQueue_fields (q : Nat) (e : Bool) (n r : Nat) (s : State) :
    (queueOf (applySetQueue q e n r s) q).enable = e ∧ (queueOf (applySetQueue q e n r s) q).quantum = n ∧
    (queueOf (applySetQueue q e n r s) q).explicit = true ∧ (queueOf (applySetQueue q e n r s) q).rate = r ∧
    (queueOf (applySetQueue q e n r s) q).inst = (queueOf s q).inst := by
  have hr : ∀ (w : WQueue) (now : Nat), (rerate w r now).rate = r ∧ (rerate w r now).inst = w.inst := by
    intro w now; unfold rerate; dsimp only; split
    · exact ⟨by rename_i x; exact x.symm, rfl⟩
    · exact ⟨rfl, rfl⟩
  unfold applySetQueue
  dsimp only
  have h2 := hr (queueOf s q) s.tmu.now
  generalize rerate (queueOf s q) r s.tmu.now = w at h2
  have ht := testQueue_fields q (setQueue q { w with enable := e, quantum := n, explicit := true } s)
  rw [queueOf_setQueue_same] at ht
  have ht' : _ ∧ _ ∧ _ ∧ _ ∧ _ := ⟨ht.1, ht.2.1, ht.2.2.1, ht.2.2.2.1.trans h2.1, ht.2.2.2.2.trans h2.2⟩
  split
  · exact ht'
  · rw [leaveAll_queue]; exact ht'

/-- SET_QUEUE in range of an assigned queue of a leased dike. -/
theorem setQueue_taken {at_ q n r : Nat} {e : Bool} {h : CmdHead} {s v : State} (hv : v = place h.placed (setNow at_ s))
    (g : RingReady h (.setQueue q e n r) v) (hu : s.sec.upd ≠ .switching) (h1 : 2 ≤ q) (h2 : q < 4096) (h3 : 64 ≤ n)
    (h4 : n ≤ 65536) (h5 : n % 64 = 0) (h6 : r ≤ 1600000) (h7 : queueAssigned q = true)
    (h8 : q = 2 ∨ Tab.has (queueDike q) s.sec.leases = true) :
    Completes (.setQueue at_ h q e n r) s fun t =>
      (queueOf t q).enable = e ∧ (queueOf t q).quantum = n ∧ (queueOf t q).explicit = true ∧ (queueOf t q).rate = r ∧
      (queueOf t q).inst = (queueOf s q).inst ∧
      (h.silent = false → Answered (ticketOf h (.setQueue q e n r)) 0 0 0 0 0 v t) := by
  subst hv
  refine ringCommandAt_at rfl g rfl hu ?_
  have v1 : (place h.placed (setNow at_ s)).sec = s.sec := (place_parts _ _).2 .sec rfl
  have v2 : (place h.placed (setNow at_ s)).wei = s.wei := (place_parts _ _).2 .wei rfl
  rw [← v1] at h8
  rw [← queueOf_of_wei v2]
  generalize place h.placed (setNow at_ s) = v at g h8 ⊢
  have hp := effectState_parts h (.setQueue q e n r) v
  obtain ⟨op, hop⟩ : ∃ op, op = RingOp.setQueue q e n r := ⟨_, rfl⟩
  have hd : ∀ p : Pend, doTaken p (ticketOf h op) op (takenBody h op v) (notedState h op v) =
      doSetQueue (ticketOf h op) q e n r
        (journal 3 p.action p.tenant p.source p.sseq (takenBody h op v ++ readLater op (notedState h op v))
        (notedState h op v)) := by subst hop; exact fun _ => rfl
  rw [← hop] at g hp ⊢
  rw [hd]
  have he : doSetQueue (ticketOf h op) q e n r (effectState h op v) =
      done (ticketOf h op) (weirResult 1 0 q (applySetQueue q e n r (effectState h op v))) := by
    unfold doSetQueue
    rw [if_neg (by omega), if_neg, ]
    rw [h7, hp.2 .sec rfl]
    rcases h8 with h8 | h8
    · simp [h8]
    · simp [h8]; omega
  have ha := applySetQueue_fields q e n r (effectState h op v)
  rw [queueOf_of_wei (hp.2 .wei rfl)] at ha
  have hb : ∀ u : State, queueOf (done (ticketOf h op) (weirResult 1 0 q u)) q = queueOf u q := by
    intro u
    unfold done
    rw [queueOf_of_wei (complete_part (p := .wei) rfl)]
    rfl
  have hc : Only [.wei] (effectState h op v) (applySetQueue q e n r (effectState h op v)) :=
    applySetQueue_only rfl _ _ _ _ (Only.refl _ _)
  show (queueOf (doSetQueue (ticketOf h op) q e n r (effectState h op v)) q).enable = _ ∧
    (queueOf (doSetQueue (ticketOf h op) q e n r (effectState h op v)) q).quantum = _ ∧
    (queueOf (doSetQueue (ticketOf h op) q e n r (effectState h op v)) q).explicit = _ ∧
    (queueOf (doSetQueue (ticketOf h op) q e n r (effectState h op v)) q).rate = _ ∧
    (queueOf (doSetQueue (ticketOf h op) q e n r (effectState h op v)) q).inst = _ ∧
    (_ → Answered _ _ _ _ _ _ v (doSetQueue (ticketOf h op) q e n r (effectState h op v)))
  rw [he, hb]
  refine ⟨ha.1, ha.2.1, ha.2.2.1, ha.2.2.2.1, ha.2.2.2.2, fun hsil => answered_at g.ring (.inl hsil) ?_ ?_⟩
  · show SameRings _ (applySetQueue q e n r (effectState h op v))
    unfold SameRings
    rw [hc.2 .hif rfl]
  · exact (hc.2 .tmu rfl).trans (hp.2 .tmu rfl)

/-- SET_POLICER in range of a leased dike: enabling fills the bucket, a change keeps the tokens accrued up to the burst. -/
theorem setPolicer_taken {at_ d r b : Nat} {e : Bool} {h : CmdHead} {s v : State} (hv : v = place h.placed (setNow at_ s))
    (g : RingReady h (.setPolicer d e r b) v) (hu : s.sec.upd ≠ .switching) (h1 : 1 ≤ r) (h2 : r ≤ 1600000) (h3 : 4112 ≤ b)
    (h4 : b ≤ 16777216) (h5 : Tab.has d s.sec.leases = true) :
    Completes (.setPolicer at_ h d e r b) s fun t =>
      Tab.getD t.wei.policers d {} = { Tab.getD s.wei.policers d {} with
        enable := e, rate := r, burst := b, at_ := v.tmu.now
        tokens := if e && !(Tab.getD s.wei.policers d {}).enable then b * 1000
                  else min (b * 1000) ((Tab.getD s.wei.policers d {}).tokensAt v.tmu.now) } ∧
      (h.silent = false → Answered (ticketOf h (.setPolicer d e r b)) 0 0 0 0 0 v t) := by
  subst hv
  refine ringCommandAt_at rfl g rfl hu ?_
  have v1 : (place h.placed (setNow at_ s)).sec = s.sec := (place_parts _ _).2 .sec rfl
  have v2 : (place h.placed (setNow at_ s)).wei = s.wei := (place_parts _ _).2 .wei rfl
  rw [← v1] at h5
  rw [← v2]
  generalize place h.placed (setNow at_ s) = v at g h5 ⊢
  have hp := effectState_parts h (.setPolicer d e r b) v
  obtain ⟨op, hop⟩ : ∃ op, op = RingOp.setPolicer d e r b := ⟨_, rfl⟩
  have hd : ∀ p : Pend, doTaken p (ticketOf h op) op (takenBody h op v) (notedState h op v) =
      doSetPolicer (ticketOf h op) d e r b
        (journal 3 p.action p.tenant p.source p.sseq (takenBody h op v ++ readLater op (notedState h op v))
        (notedState h op v)) := by subst hop; exact fun _ => rfl
  rw [← hop] at g hp ⊢
  rw [hd]
  show Tab.getD (doSetPolicer (ticketOf h op) d e r b (effectState h op v)).wei.policers d {} = _ ∧
    (_ → Answered _ _ _ _ _ _ v (doSetPolicer (ticketOf h op) d e r b (effectState h op v)))
  have x1 : (effectState h op v).sec = v.sec := hp.2 .sec rfl
  have x2 : (effectState h op v).wei = v.wei := hp.2 .wei rfl
  have x3 : (effectState h op v).tmu = v.tmu := hp.2 .tmu rfl
  unfold doSetPolicer
  rw [if_neg (by omega), x1, h5, if_neg (by decide), x2, x3]
  dsimp only
  refine ⟨?_, fun hsil => answered_at g.ring (.inl hsil) rfl rfl⟩
  unfold done
  rw [complete_part (p := .wei) rfl]
  unfold weirResult
  simp

/-! ## What the journal leaves in place -/

/-- No byte below the journal area changes. -/
def LowMem (s t : State) : Prop := ∀ a n, a + n ≤ journalBase → readMem t a n = readMem s a n

theorem LowMem.refl (s : State) : LowMem s s := fun _ _ _ => rfl

theorem LowMem.of_mem {s t u : State} (h : LowMem s t) (e : u.mem = t.mem) : LowMem s u :=
  fun a n g => (readMem_of_mem e a n).trans (h a n g)

theorem LowMem.write {s t : State} (h : LowMem s t) {a : Nat} (bs : List Byte) (g : journalBase ≤ a) : LowMem s (writeMem a bs t) :=
  fun b n e => (readMem_writeMem_other (by omega)).trans (h b n e)

theorem putRecord_low {s t : State} (h : LowMem s t) (kind flags step action tenant source sseq : Nat) (body : List Byte) :
    LowMem s (putRecord kind flags step action tenant source sseq body t).2 := by
  unfold putRecord ringWrite
  dsimp only
  exact ((h.write _ (Nat.le_add_right _ _)).write _ (Nat.le_refl _)).of_mem rfl

theorem putJournal_low {s t : State} (h : LowMem s t) (kind flags step action tenant source sseq : Nat) (body : List Byte) :
    LowMem s (putJournal kind flags step action tenant source sseq body t) := by
  have hr := putRecord_low h kind flags step action tenant source sseq body
  unfold putJournal
  dsimp only
  split
  · exact hr
  · refine putRecord_low (LowMem.of_mem hr ?_) _ _ _ _ _ _ _ _
    exact (raise_only (pts := [.hif, .hlt, .status, .counters]) rfl _ (bump_only rfl _ _ (Only.refl _ _))).2 .mem rfl

theorem journal_fold_low {s : State} (kind step action tenant source sseq k : Nat) (l : List (Nat × List Byte)) :
    ∀ t, LowMem s t → LowMem s (l.foldl (fun s p => putJournal kind (if p.1 + 1 < k then 1 else 0) step
      action tenant source sseq p.2 s) t) := by
  induction l with
  | nil => exact fun t h => h
  | cons p l ih => exact fun t h => ih _ (putJournal_low h _ _ _ _ _ _ _ _)

theorem journal_low (kind action tenant source sseq : Nat) (body : List Byte) (s : State) :
    LowMem s (journal kind action tenant source sseq body s) := by
  unfold journal
  split
  · exact journal_fold_low _ _ _ _ _ _ _ _ s (LowMem.refl s)
  · exact LowMem.refl s

theorem effectState_low {h : CmdHead} {op : RingOp} {s : State} (hb : bodyOk h = true) (hr : h.ring < 64)
    (hi : (ringOf s h.ring).sqTail < (ringOf s h.ring).size) :
    readMem (effectState h op s) h.bodyAddr h.bodyLen = readMem s h.bodyAddr h.bodyLen := by
  have hl : h.bodyAddr + h.bodyLen ≤ journalBase := by
    unfold bodyOk inCommandArea at hb
    simp only [Bool.or_eq_true, Bool.and_eq_true, beq_iff_eq, decide_eq_true_eq] at hb
    have : Config.hdmBase + 0x40000000 ≤ journalBase := by decide
    omega
  unfold effectState
  rw [journal_low _ _ _ _ _ _ _ _ _ hl]
  have : readMem (notedState h op s) h.bodyAddr h.bodyLen = readMem (enteredState h op s) h.bodyAddr h.bodyLen := by
    refine readMem_of_mem ?_ _ _
    unfold notedState noteFirst
    split <;> rfl
  rw [this, readMem_entered hb hr hi (Nat.le_refl _) (Nat.le_refl _)]

/-! ## WRITE, READ and ATOMIC (R257, R261, R274, R365) -/

/-- The records of outgoing messages, other than the state of their packets in the queues. -/
def MsgRecords (s t : State) : Prop :=
  t.fab.out = s.fab.out ∧ t.fab.waiting = s.fab.waiting ∧ t.fab.nextSeq = s.fab.nextSeq

theorem queuePacket_records (m : OutMsg) (i flags : Nat) (s : State) : MsgRecords s (queuePacket m i flags s) := by
  have h : Only [.wei] (rotate (m.dest % 4) s).2.2 (queuePacket m i flags s) := by
    unfold queuePacket
    exact enqueue_only rfl _ _ _ (Only.refl _ _)
  have := h.2 .fab rfl
  unfold MsgRecords
  rw [show (queuePacket m i flags s).fab = _ from this]
  exact ⟨rfl, rfl, rfl⟩

theorem startMsg_records (m : OutMsg) (s : State) : (startMsg m s).fab.out = s.fab.out ++ [m] ∧
    (startMsg m s).fab.waiting = s.fab.waiting ∧ (startMsg m s).fab.nextSeq = s.fab.nextSeq := by
  unfold startMsg
  dsimp only
  generalize List.range m.packets.length = l
  have : ∀ t, MsgRecords t (l.foldl (fun s i => queuePacket m i 0 s) t) := by
    induction l with
    | nil => exact fun t => ⟨rfl, rfl, rfl⟩
    | cons i l ih =>
      intro t
      have a := queuePacket_records m i 0 t
      have b := ih (queuePacket m i 0 t)
      exact ⟨b.1.trans a.1, b.2.1.trans a.2.1, b.2.2.trans a.2.2⟩
  exact this _

theorem submitMsg_records {m : OutMsg} {s : State} (h : slotFree s m = true) : (submitMsg m s).fab.out = s.fab.out ++ [m] ∧
    (submitMsg m s).fab.waiting = s.fab.waiting ∧ (submitMsg m s).fab.nextSeq = s.fab.nextSeq := by
  unfold submitMsg
  rw [if_pos h]
  exact startMsg_records m s

theorem slotFree_same {s t : State} (h : t.fab.out = s.fab.out) (m : OutMsg) : slotFree t m = slotFree s m := by
  unfold slotFree; rw [h]

/-- WRITE through an enabled queue of a leased dike, where the die of its node has a slot free. -/
theorem write_taken {at_ : Nat} {h : CmdHead} {o : RemoteOps} {s v : State} {m : OutMsg} (hv : v = place h.placed (setNow at_ s))
    (g : RingReady h (.write o) v) (hu : s.sec.upd ≠ .switching) (h1 : h.subq ≠ 15) (h2 : h.bodyLen ≠ 0) (h3 : h.bodyLen ≤ 16842752)
    (h4 : h.tenant ≠ 0) (h5 : (queueOf s (dikeQueue h.tenant h.subq)).enable = true)
    (hm : m = remoteMessage 2 h.bodyLen (readMem v h.bodyAddr h.bodyLen) (.hostWrite (ticketOf h (.write o)) h.bodyAddr) h.notify h o (Tab.getD s.fab.nextSeq o.dest 0))
    (hf : slotFree s m = true) :
    Completes (.write at_ h o) s fun t =>
      t.fab.out = s.fab.out ++ [m] ∧
      t.fab.nextSeq = Tab.put o.dest ((Tab.getD s.fab.nextSeq o.dest 0 + 1) % 2 ^ 32) s.fab.nextSeq := by
  subst hv
  refine ringCommandAt_at rfl g rfl hu ?_
  have v1 : (place h.placed (setNow at_ s)).fab = s.fab := (place_parts _ _).2 .fab rfl
  have v2 : (place h.placed (setNow at_ s)).wei = s.wei := (place_parts _ _).2 .wei rfl
  rw [← queueOf_of_wei v2] at h5
  rw [← slotFree_same (congrArg Fab.out v1)] at hf
  rw [← v1] at hm ⊢
  generalize place h.placed (setNow at_ s) = v at g h5 hm hf ⊢
  have hp := effectState_parts h (.write o) v
  have hlow := effectState_low (op := .write o) g.body g.ring g.inside
  have hrec := g.recorded
  obtain ⟨op, hop⟩ : ∃ op, op = RingOp.write o := ⟨_, rfl⟩
  have hd : ∀ p : Pend, doTaken p (ticketOf h op) op (takenBody h op v) (notedState h op v) =
      doRemote (ticketOf h op) (readHead (p.source - Config.ringSource 0) (pendEntry (takenBody h op v))) op o
        (journal 3 p.action p.tenant p.source p.sseq (takenBody h op v ++ readLater op (notedState h op v))
        (notedState h op v)) := by subst hop; exact fun _ => rfl
  rw [← hop] at g hp hlow ⊢
  rw [hd]
  dsimp only
  rw [head_taken g]
  have he : doRemote (ticketOf h op) { h with placed := [] } op o (effectState h op v) =
      submitMsg m (takeSeq o.dest (effectState h op v)).2 := by
    unfold doRemote
    rw [if_neg (by subst hop; simp [remoteRange, h1]; omega)]
    dsimp only
    rw [queueOf_of_wei (hp.2 .wei rfl), h5, if_neg (by simp [h4]), hp.2 .stw rfl,
      if_neg (by rw [Bool.and_eq_true, decide_eq_true_eq]; exact fun e => hrec e.1), hm]
    have hn : (takeSeq o.dest (effectState h op v)).1 = Tab.getD v.fab.nextSeq o.dest 0 := by
      unfold takeSeq; rw [hp.2 .fab rfl]
    rw [hn]
    subst hop
    unfold remoteMsg
    dsimp only
    rw [hlow]
    cases h.notify <;> rfl
  show (doRemote (ticketOf h op) { h with placed := [] } op o (effectState h op v)).fab.out = _ ∧
    (doRemote (ticketOf h op) { h with placed := [] } op o (effectState h op v)).fab.nextSeq = _
  rw [he]
  have hfab : (effectState h op v).fab = v.fab := hp.2 .fab rfl
  have hx : (takeSeq o.dest (effectState h op v)).2.fab.out = v.fab.out := (show (takeSeq o.dest (effectState h op v)).2.fab.out = (effectState h op v).fab.out from rfl).trans (congrArg Fab.out hfab)
  have hs := submitMsg_records (m := m) (s := (takeSeq o.dest (effectState h op v)).2) (by rw [slotFree_same hx]; exact hf)
  refine ⟨hs.1.trans (by rw [hx]), hs.2.2.trans ?_⟩
  unfold takeSeq
  rw [hfab]

/-- READ through an enabled queue of a leased dike, where the die of its node has a slot free. -/
theorem read_taken {at_ : Nat} {h : CmdHead} {o : RemoteOps} {s v : State} {m : OutMsg} (hv : v = place h.placed (setNow at_ s))
    (g : RingReady h (.read o) v) (hu : s.sec.upd ≠ .switching) (h1 : h.subq ≠ 15) (h2 : h.bodyLen ≠ 0) (h3 : h.bodyLen ≤ 1048576)
    (h4 : h.tenant ≠ 0) (h5 : (queueOf s (dikeQueue h.tenant h.subq)).enable = true)
    (hm : m = remoteMessage 3 8 (le 4 h.bodyLen ++ zeros 4) (.hostRead (ticketOf h (.read o)) h.bodyAddr) false h o (Tab.getD s.fab.nextSeq o.dest 0))
    (hf : slotFree s m = true) :
    Completes (.read at_ h o) s fun t =>
      t.fab.out = s.fab.out ++ [m] ∧
      t.fab.nextSeq = Tab.put o.dest ((Tab.getD s.fab.nextSeq o.dest 0 + 1) % 2 ^ 32) s.fab.nextSeq := by
  subst hv
  refine ringCommandAt_at rfl g rfl hu ?_
  have v1 : (place h.placed (setNow at_ s)).fab = s.fab := (place_parts _ _).2 .fab rfl
  have v2 : (place h.placed (setNow at_ s)).wei = s.wei := (place_parts _ _).2 .wei rfl
  rw [← queueOf_of_wei v2] at h5
  rw [← slotFree_same (congrArg Fab.out v1)] at hf
  rw [← v1] at hm ⊢
  generalize place h.placed (setNow at_ s) = v at g h5 hm hf ⊢
  have hp := effectState_parts h (.read o) v
  have hlow := effectState_low (op := .read o) g.body g.ring g.inside
  have hrec := g.recorded
  obtain ⟨op, hop⟩ : ∃ op, op = RingOp.read o := ⟨_, rfl⟩
  have hd : ∀ p : Pend, doTaken p (ticketOf h op) op (takenBody h op v) (notedState h op v) =
      doRemote (ticketOf h op) (readHead (p.source - Config.ringSource 0) (pendEntry (takenBody h op v))) op o
        (journal 3 p.action p.tenant p.source p.sseq (takenBody h op v ++ readLater op (notedState h op v))
        (notedState h op v)) := by subst hop; exact fun _ => rfl
  rw [← hop] at g hp hlow ⊢
  rw [hd]
  dsimp only
  rw [head_taken g]
  have he : doRemote (ticketOf h op) { h with placed := [] } op o (effectState h op v) =
      submitMsg m (takeSeq o.dest (effectState h op v)).2 := by
    unfold doRemote
    rw [if_neg (by subst hop; simp [remoteRange, h1]; omega)]
    dsimp only
    rw [queueOf_of_wei (hp.2 .wei rfl), h5, if_neg (by simp [h4]), hp.2 .stw rfl,
      if_neg (by rw [Bool.and_eq_true, decide_eq_true_eq]; exact fun e => hrec e.1), hm]
    have hn : (takeSeq o.dest (effectState h op v)).1 = Tab.getD v.fab.nextSeq o.dest 0 := by
      unfold takeSeq; rw [hp.2 .fab rfl]
    rw [hn]
    subst hop
    unfold remoteMsg
    dsimp only
    cases h.notify <;> rfl
  show (doRemote (ticketOf h op) { h with placed := [] } op o (effectState h op v)).fab.out = _ ∧
    (doRemote (ticketOf h op) { h with placed := [] } op o (effectState h op v)).fab.nextSeq = _
  rw [he]
  have hfab : (effectState h op v).fab = v.fab := hp.2 .fab rfl
  have hx : (takeSeq o.dest (effectState h op v)).2.fab.out = v.fab.out := (show (takeSeq o.dest (effectState h op v)).2.fab.out = (effectState h op v).fab.out from rfl).trans (congrArg Fab.out hfab)
  have hs := submitMsg_records (m := m) (s := (takeSeq o.dest (effectState h op v)).2) (by rw [slotFree_same hx]; exact hf)
  refine ⟨hs.1.trans (by rw [hx]), hs.2.2.trans ?_⟩
  unfold takeSeq
  rw [hfab]

/-- ATOMIC through an enabled queue of a leased dike, where the die of its node has a slot free. -/
theorem atomic_taken {at_ : Nat} {h : CmdHead} {o : RemoteOps} {s v : State} {m : OutMsg} (hv : v = place h.placed (setNow at_ s))
    (g : RingReady h (.atomic o) v) (hu : s.sec.upd ≠ .switching) (h1 : h.subq ≠ 15) (h2 : o.op = 1 ∨ o.op = 2)
    (h4 : h.tenant ≠ 0) (h5 : (queueOf s (dikeQueue h.tenant h.subq)).enable = true)
    (hm : m = remoteMessage 5 24 (le 1 o.op ++ zeros 7 ++ le 8 o.operand ++ le 8 o.compare) (.hostAtomic (ticketOf h (.atomic o))) false h o (Tab.getD s.fab.nextSeq o.dest 0))
    (hf : slotFree s m = true) :
    Completes (.atomic at_ h o) s fun t =>
      t.fab.out = s.fab.out ++ [m] ∧
      t.fab.nextSeq = Tab.put o.dest ((Tab.getD s.fab.nextSeq o.dest 0 + 1) % 2 ^ 32) s.fab.nextSeq := by
  subst hv
  refine ringCommandAt_at rfl g rfl hu ?_
  have v1 : (place h.placed (setNow at_ s)).fab = s.fab := (place_parts _ _).2 .fab rfl
  have v2 : (place h.placed (setNow at_ s)).wei = s.wei := (place_parts _ _).2 .wei rfl
  rw [← queueOf_of_wei v2] at h5
  rw [← slotFree_same (congrArg Fab.out v1)] at hf
  rw [← v1] at hm ⊢
  generalize place h.placed (setNow at_ s) = v at g h5 hm hf ⊢
  have hp := effectState_parts h (.atomic o) v
  have hlow := effectState_low (op := .atomic o) g.body g.ring g.inside
  have hrec := g.recorded
  obtain ⟨op, hop⟩ : ∃ op, op = RingOp.atomic o := ⟨_, rfl⟩
  have hd : ∀ p : Pend, doTaken p (ticketOf h op) op (takenBody h op v) (notedState h op v) =
      doRemote (ticketOf h op) (readHead (p.source - Config.ringSource 0) (pendEntry (takenBody h op v))) op o
        (journal 3 p.action p.tenant p.source p.sseq (takenBody h op v ++ readLater op (notedState h op v))
        (notedState h op v)) := by subst hop; exact fun _ => rfl
  rw [← hop] at g hp hlow ⊢
  rw [hd]
  dsimp only
  rw [head_taken g]
  have he : doRemote (ticketOf h op) { h with placed := [] } op o (effectState h op v) =
      submitMsg m (takeSeq o.dest (effectState h op v)).2 := by
    unfold doRemote
    rw [if_neg (by subst hop; simp [remoteRange, h1]; omega)]
    dsimp only
    rw [queueOf_of_wei (hp.2 .wei rfl), h5, if_neg (by simp [h4]), hp.2 .stw rfl,
      if_neg (by rw [Bool.and_eq_true, decide_eq_true_eq]; exact fun e => hrec e.1), hm]
    have hn : (takeSeq o.dest (effectState h op v)).1 = Tab.getD v.fab.nextSeq o.dest 0 := by
      unfold takeSeq; rw [hp.2 .fab rfl]
    rw [hn]
    subst hop
    unfold remoteMsg
    dsimp only
    cases h.notify <;> rfl
  show (doRemote (ticketOf h op) { h with placed := [] } op o (effectState h op v)).fab.out = _ ∧
    (doRemote (ticketOf h op) { h with placed := [] } op o (effectState h op v)).fab.nextSeq = _
  rw [he]
  have hfab : (effectState h op v).fab = v.fab := hp.2 .fab rfl
  have hx : (takeSeq o.dest (effectState h op v)).2.fab.out = v.fab.out := (show (takeSeq o.dest (effectState h op v)).2.fab.out = (effectState h op v).fab.out from rfl).trans (congrArg Fab.out hfab)
  have hs := submitMsg_records (m := m) (s := (takeSeq o.dest (effectState h op v)).2) (by rw [slotFree_same hx]; exact hf)
  refine ⟨hs.1.trans (by rw [hx]), hs.2.2.trans ?_⟩
  unfold takeSeq
  rw [hfab]

end Sys2Proof.Machine
end

