-- ==== Sys2Proof/Laws/EffNodor.lean ====
section
/-! SUPPORT. What Nodor packets, the timers of messages and the ports' links do (R253 to R266, R272, R282, R283). -/

namespace Sys2Proof.Machine

open Sys2Proof.Safety

/-! ## A good frame reaches its opcode -/

/-- The state in which a good frame's opcode acts: the frame has been counted and charged. -/
def received (p : Packet) (s : State) : State := chargeIn p (countFrameIn p (countFec p.port p.fecFixed s))

theorem wEvent_fab (a b c d : Nat) (s : State) : (wEvent a b c d s).fab = s.fab :=
  (wEvent_only (pts := [.hif, .hlt, .status]) rfl a b c d (Only.refl _ s)).2 .fab rfl

theorem sEvent_fab (a b c d : Nat) (s : State) : (sEvent a b c d s).fab = s.fab :=
  (sEvent_only (pts := [.hif, .hlt, .status]) rfl a b c d (Only.refl _ s)).2 .fab rfl

theorem charge_parts (d k n : Nat) (s : State) : Only [.hif, .hlt, .status] s (charge d k n s) :=
  charge_only rfl d k n (Only.refl _ s)

theorem countFec_only' (p n : Nat) (s : State) : Only [.fab, .hif, .hlt, .status] s (countFec p n s) :=
  countFec_only rfl p n (Only.refl _ s)

theorem countFrameIn_only' (p : Packet) (s : State) : Only [.fab, .hif, .hlt, .status] s (countFrameIn p s) :=
  countFrameIn_only rfl p (Only.refl _ s)

theorem received_parts (p : Packet) (s : State) : Only [.fab, .hif, .hlt, .status] s (received p s) := by
  unfold received
  exact chargeIn_only rfl p (countFrameIn_only rfl p (countFec_only rfl _ _ (Only.refl _ s)))

theorem countFec_fab (p n : Nat) (s : State) : ∃ x, (countFec p n s).fab = { s.fab with ports := x } := by
  unfold countFec setPort
  dsimp only
  rw [sEvent_fab]
  exact ⟨_, rfl⟩

theorem countFrameIn_fab (p : Packet) (s : State) : ∃ x, (countFrameIn p s).fab = { s.fab with ports := x } := by
  unfold countFrameIn setPort
  dsimp only
  rw [wEvent_fab, wEvent_fab]
  exact ⟨_, rfl⟩

theorem chargeIn_fab (p : Packet) (s : State) : (chargeIn p s).fab = s.fab := by
  unfold chargeIn
  split
  · rfl
  · exact (charge_parts _ _ _ s).2 .fab rfl

theorem received_fab (p : Packet) (s : State) : ∃ x, (received p s).fab = { s.fab with ports := x } := by
  obtain ⟨x, hx⟩ := countFec_fab p.port p.fecFixed s
  obtain ⟨y, hy⟩ := countFrameIn_fab p (countFec p.port p.fecFixed s)
  unfold received
  rw [chargeIn_fab, hy, hx]
  exact ⟨y, rfl⟩

/-- What the checks of a packet read. -/
structure SameChecks (s t : State) : Prop where
  stw : t.stw = s.stw
  sec : t.sec = s.sec
  slc : t.slc = s.slc
  pgm : t.pgm = s.pgm
  tmu : t.tmu = s.tmu
  fab : ∃ x, t.fab = { s.fab with ports := x }

theorem SameChecks.of_parts {s t : State} (h : Only [.fab, .hif, .hlt, .status] s t) (hf : ∃ x, t.fab = { s.fab with ports := x }) :
    SameChecks s t := ⟨h.2 .stw rfl, h.2 .sec rfl, h.2 .slc rfl, h.2 .pgm rfl, h.2 .tmu rfl, hf⟩

theorem typeOk_same {s t : State} (h : SameChecks s t) (p : Packet) : typeOk t p = typeOk s p := by
  unfold typeOk; rw [h.stw]

theorem authentic_same {s t : State} (h : SameChecks s t) (p : Packet) : authentic t p = authentic s p := by
  unfold authentic wireOf; rw [h.sec]

theorem findIn_same {s t : State} (h : SameChecks s t) (p : Packet) : findIn t p = findIn s p := by
  obtain ⟨x, hx⟩ := h.fab
  unfold findIn; rw [hx]

theorem layoutOk_same {s t : State} (h : SameChecks s t) (op : Nat) (p : Packet) : layoutOk op p t = layoutOk op p s := by
  unfold layoutOk; rw [findIn_same h]

theorem addressed_same {s t : State} (h : SameChecks s t) (p : Packet) : addressed t p = addressed s p := by
  obtain ⟨x, hx⟩ := h.fab
  unfold addressed goneInAny; rw [hx, h.slc]

theorem windowOf_same {s t : State} (h : SameChecks s t) (w : Nat) : windowOf t w = windowOf s w := by
  obtain ⟨x, hx⟩ := h.fab
  unfold windowOf; rw [hx]

theorem beforeFence_same {s t : State} (h : SameChecks s t) (p : Packet) : beforeFence t p = beforeFence s p := by
  unfold beforeFence; rw [windowOf_same h, h.tmu]

theorem windowReason_same {s t : State} (h : SameChecks s t) (p : Packet) : windowReason t p = windowReason s p := by
  unfold windowReason; rw [windowOf_same h, beforeFence_same h]

theorem rightReason_same {s t : State} (h : SameChecks s t) (p : Packet) : rightReason t p = rightReason s p := by
  unfold rightReason objectOk; rw [windowOf_same h, h.pgm]

theorem doneOf_same {s t : State} (h : SameChecks s t) (p : Packet) : doneOf t p = doneOf s p := by
  obtain ⟨x, hx⟩ := h.fab
  unfold doneOf; rw [hx]

theorem olderThanAll_same {s t : State} (h : SameChecks s t) (p : Packet) : olderThanAll t p = olderThanAll s p := by
  obtain ⟨x, hx⟩ := h.fab
  unfold olderThanAll; rw [hx]

theorem sourcesOf_same {s t : State} (h : SameChecks s t) (d : Nat) : sourcesOf t d = sourcesOf s d := by
  obtain ⟨x, hx⟩ := h.fab
  unfold sourcesOf; rw [hx]

theorem received_checks (p : Packet) (s : State) : SameChecks s (received p s) := .of_parts (received_parts p s) (received_fab p s)

theorem receive_good {op : Nat} {p : Packet} {s : State} (g : FrameGood op p s) (act : State → State) :
    receive op p act s = act (received p s) := by
  have k1 : SameChecks s (countFec p.port p.fecFixed s) := .of_parts (countFec_only' _ _ s) (countFec_fab _ _ s)
  have k2 : SameChecks s (countFrameIn p (countFec p.port p.fecFixed s)) := by
    refine .of_parts (countFrameIn_only rfl p (countFec_only rfl _ _ (Only.refl _ s))) ?_
    obtain ⟨x, hx⟩ := countFec_fab p.port p.fecFixed s
    obtain ⟨y, hy⟩ := countFrameIn_fab p (countFec p.port p.fecFixed s)
    exact ⟨y, by rw [hy, hx]⟩
  have k3 : SameChecks s (chargeIn p (countFrameIn p (countFec p.port p.fecFixed s))) := received_checks p s
  unfold receive
  dsimp only
  rw [g.port, if_neg (by decide), g.fec, if_neg (by decide), g.fcs, if_neg (by have := g.length; simp; omega),
    typeOk_same k2, g.type, if_neg (by decide), authentic_same k2, g.tag, if_neg (by decide), layoutOk_same k3, g.layout,
    if_neg (by decide), addressed_same k3, g.mine, if_neg (by decide)]
  rfl

theorem checked_allowed {p : Packet} {s : State} (g : PacketAllowed p s) (act : State → State) : checked p act s = act s := by
  have hf : fence p s = s := by unfold fence; rw [g.settled]; rfl
  unfold checked
  dsimp only
  rw [hf, g.window]
  dsimp only
  rw [g.fresh]
  dsimp only
  rw [g.recent, if_neg (by decide), g.right]
  dsimp only
  rw [g.open_, if_neg (by decide)]

theorem allowed_same {p : Packet} {s t : State} (h : SameChecks s t) (g : PacketAllowed p s) : PacketAllowed p t := by
  obtain ⟨x, hx⟩ := h.fab
  exact ⟨(beforeFence_same h p).trans g.settled, (windowReason_same h p).trans g.window, (doneOf_same h p).trans g.fresh, (olderThanAll_same h p).trans g.recent,
    (rightReason_same h p).trans g.right, by rw [hx]; exact g.open_⟩

theorem holdSource_held {p : Packet} {s : State} (h : SourceHeld p s) : holdSource p.source s = some s := by
  unfold holdSource SourceHeld at *
  dsimp only
  rw [if_pos]
  rcases h with h | h
  · simp [List.contains_iff_mem.1 h]
  · simp [h]

theorem held_same {p : Packet} {s t : State} (h : SameChecks s t) (g : SourceHeld p s) : SourceHeld p t := by
  unfold SourceHeld; rw [sourcesOf_same h]; exact g

/-! ## Frames queued -/

/-- The end of `enqueue`, for a record `w` of the queue. -/
def enqueueEnd (q port : Nat) (f : Frame) (w : WQueue) (wakes : Bool) (s : State) : State :=
  let first := (w.on port).isEmpty
  let w := { w with inst := Tab.put port (w.on port ++ [f]) w.inst
                    deficit := if first then Tab.put port 0 w.deficit else w.deficit }
  let s := setQueue q w s
  if !isDrr q then s
  else if wakes then testQueue q s
  else if first && w.pacing == .eligible then joinActive q port s
  else s

theorem enqueue_end (q port : Nat) (f : Frame) (s : State) : ∃ w wakes, w.inst = (queueOf s q).inst ∧
    enqueue q port f s = enqueueEnd q port f w wakes s :=
  ⟨if ((queueOf s q).queued == 0 && isDrr q) = true then { queueOf s q with e := max (queueOf s q).e (vTime s.tmu.now) }
    else queueOf s q, (queueOf s q).queued == 0, by split <;> rfl, rfl⟩

theorem enqueueEnd_inst (q port : Nat) (f : Frame) (w : WQueue) (wakes : Bool) (s : State) :
    (queueOf (enqueueEnd q port f w wakes s) q).inst = Tab.put port (w.on port ++ [f]) w.inst := by
  unfold enqueueEnd
  dsimp only
  split
  · rw [queueOf_setQueue_same]
  · split
    · rw [testQueue_inst, queueOf_setQueue_same]
    · split
      · rw [joinActive_queue, queueOf_setQueue_same]
      · rw [queueOf_setQueue_same]

theorem enqueue_inst (q port : Nat) (f : Frame) (s : State) :
    (queueOf (enqueue q port f s) q).inst = Tab.put port ((queueOf s q).on port ++ [f]) (queueOf s q).inst := by
  obtain ⟨w, wakes, hi, he⟩ := enqueue_end q port f s
  rw [he, enqueueEnd_inst]
  unfold WQueue.on
  rw [hi]

theorem queueFrame_queued (q : Nat) (f : Frame) (s : State) : FrameQueued q f s (queueFrame q f s) := by
  unfold FrameQueued queueFrame rotate WQueue.on
  dsimp only
  rw [enqueue_inst, Tab.getD_put_same]
  rfl

theorem queueFrame_parts (q : Nat) (f : Frame) (s : State) : Only [.fab, .wei] s (queueFrame q f s) :=
  queueFrame_only rfl q f (Only.refl _ s)

/-- A queued frame moves the rotation of its die and nothing else of the fabric's state. -/
theorem queueFrame_fab (q : Nat) (f : Frame) (s : State) : (queueFrame q f s).fab = { s.fab with
    rotation := Tab.put (f.dest % 4) ((nextPort s (Tab.getD s.fab.rotation (f.dest % 4) 0) + 1) % 8) s.fab.rotation
    destRotation := Tab.put (f.dest % 4) ((Tab.getD s.fab.destRotation (f.dest % 4) 0 + 1) % 8) s.fab.destRotation } := by
  unfold queueFrame
  exact (enqueue_only (pts := [.wei]) rfl q _ _ (Only.refl _ (rotate (f.dest % 4) s).2.2)).2 .fab rfl

/-- A frame queued after changes that leave ports, rotation and queues alone is queued. -/
theorem queued_from {q : Nat} {f : Frame} {s t u : State} (h : FrameQueued q f t u) (hw : t.wei = s.wei)
    (hp : ∀ n, portUp t n = portUp s n) (hr : t.fab.rotation = s.fab.rotation) (hd : t.fab.destRotation = s.fab.destRotation) :
    FrameQueued q f s u := by
  have hn : ∀ n, nextPort t n = nextPort s n := by
    intro n
    have hx : portUp t = portUp s := funext hp
    unfold nextPort; rw [hx]
  unfold FrameQueued at *
  rw [← queueOf_of_wei hw, ← hr, ← hn, ← hd]
  exact h

theorem portUp_received (p : Packet) (s : State) (n : Nat) : portUp (received p s) n = portUp s n := by
  have set_ : ∀ (a : Nat) (r : PortRec) (u : State), r.up = (portOf u a).up → r.withdrawn = (portOf u a).withdrawn →
      ∀ n, portUp (setPort a r u) n = portUp u n := by
    intro a r u h1 h2 n
    unfold portUp
    by_cases h : n = a
    · subst h
      have : portOf (setPort n r u) n = r := by unfold portOf setPort; simp
      rw [this, h1, h2]
    · have : portOf (setPort a r u) n = portOf u n := by unfold portOf setPort; simp [h]
      rw [this]
  have of_fab : ∀ u v : State, v.fab = u.fab → ∀ n, portUp v n = portUp u n := by
    intro u v h n; unfold portUp portOf; rw [h]
  unfold received
  rw [of_fab _ _ (chargeIn_fab p _)]
  have h1 : ∀ u, portUp (countFrameIn p u) n = portUp u n := by
    intro u
    unfold countFrameIn
    dsimp only
    rw [of_fab _ _ (wEvent_fab _ _ _ _ _), of_fab _ _ (wEvent_fab _ _ _ _ _)]
    refine set_ _ _ _ ?_ ?_ n <;> rfl
  have h2 : ∀ u, portUp (countFec p.port p.fecFixed u) n = portUp u n := by
    intro u
    unfold countFec
    dsimp only
    rw [of_fab _ _ (sEvent_fab _ _ _ _ _)]
    refine set_ _ _ _ ?_ ?_ n <;> rfl
  rw [h1, h2]

/-! ## Messages in several packets -/

theorem setNow_checks (n : Nat) (s : State) (p : Packet) : findIn (setNow n s) p = findIn s p := rfl

theorem chargeSteward_eq (n : Nat) (m : InMsg) (s : State) : ∃ owed u, chargeSteward n m s = ({ m with owed := owed }, u) ∧
    Only [.hif, .hlt, .status] s u := by
  unfold chargeSteward
  split
  · exact ⟨m.owed, s, rfl, Only.refl _ s⟩
  · split
    · exact ⟨0, _, rfl, charge_parts _ _ _ s⟩
    · exact ⟨_, s, rfl, Only.refl _ s⟩

theorem putIn_none {m : InMsg} {s : State} (h : ∀ x ∈ s.fab.inbound, ¬ (x.source = m.source ∧ x.seq = m.seq ∧
    x.window = m.window ∧ x.gen = m.gen)) : (putIn m s).fab.inbound = s.fab.inbound ++ [m] ∧ (dropIn m s).fab.inbound = s.fab.inbound := by
  have hf : s.fab.inbound.filter (fun x => !(x.source == m.source && x.seq == m.seq && x.window == m.window && x.gen == m.gen)) =
      s.fab.inbound := by
    rw [List.filter_eq_self]
    intro x hx
    have := h x hx
    simp only [Bool.not_eq_true', Bool.and_eq_false_iff, beq_eq_false_iff_ne, ne_eq]
    by_cases h1 : x.source = m.source
    · by_cases h2 : x.seq = m.seq
      · by_cases h3 : x.window = m.window
        · right; intro h4; exact this ⟨h1, h2, h3, h4⟩
        · left; right; exact h3
      · left; left; right; exact h2
    · left; left; left; exact h1
  constructor
  · unfold putIn; dsimp only; rw [hf]
  · unfold dropIn; dsimp only; rw [hf]

theorem findIn_none {p : Packet} {s : State} (h : findIn s p = none) : ∀ x ∈ s.fab.inbound, ¬ (x.source = p.source ∧ x.seq = p.msgSeq ∧
    x.window = p.window ∧ x.gen = p.gen) := by
  unfold findIn at h
  rw [List.find?_eq_none] at h
  intro x hx ⟨h1, h2, h3, h4⟩
  exact h x hx (by simp [h1, h2, h3, h4])

theorem ackPartial_fab (m : InMsg) (s : State) : (ackPartial m s).fab.inbound = s.fab.inbound := by
  unfold ackPartial answer; rw [queueFrame_fab]

/-- The first packet of a message in several packets. -/
theorem joinIn_first {p : Packet} {s : State} (h : findIn s p = none) (hc : p.count ≠ 1) :
    ∃ owed, (joinIn (newIn p s) p s).fab.inbound =
      s.fab.inbound ++ [{ newIn p s with got := [(p.index, (p.pktOffset, p.payload))], owed := owed }] := by
  obtain ⟨owed, u, hu, hp⟩ := chargeSteward_eq p.frameLen
    { newIn p s with got := Tab.put p.index (p.pktOffset, p.payload) (newIn p s).got, latest := s.tmu.now } s
  refine ⟨owed, ?_⟩
  unfold joinIn
  rw [hu]
  dsimp only
  have hg : Tab.put p.index (p.pktOffset, p.payload) (newIn p s).got = [(p.index, (p.pktOffset, p.payload))] := rfl
  rw [hg]
  rw [if_neg (show ¬ [(p.index, p.pktOffset, p.payload)].length = (newIn p s).count from fun e => hc e.symm)]
  have hn : ∀ x ∈ u.fab.inbound, ¬ (x.source = p.source ∧ x.seq = p.msgSeq ∧ x.window = p.window ∧ x.gen = p.gen) := by
    rw [hp.2 .fab rfl]; exact findIn_none h
  have hi := (putIn_none (m := { newIn p s with got := [(p.index, (p.pktOffset, p.payload))], latest := s.tmu.now, owed := owed }) hn).1
  rw [hp.2 .fab rfl] at hi
  split
  · rw [ackPartial_fab]; exact hi
  · exact hi

theorem intakeFree_same {s t : State} (h : SameChecks s t) (p : Packet) : intakeFree t p = intakeFree s p := by
  obtain ⟨x, hx⟩ := h.fab
  unfold intakeFree; rw [hx]

theorem newIn_same {s t : State} (h : t.tmu = s.tmu) (p : Packet) : newIn p t = newIn p s := by unfold newIn; rw [h]

theorem inbound_same {s t : State} (h : SameChecks s t) : t.fab.inbound = s.fab.inbound := by
  obtain ⟨x, hx⟩ := h.fab
  rw [hx]

/-- SEND: the first packet of a message in several packets is kept. -/
theorem nodorSend_first {at_ : Nat} {p : Packet} {s : State} (g : FrameGood 1 p (setNow at_ s)) (ha : PacketAllowed p (setNow at_ s))
    (h1 : findIn s p = none) (h2 : SourceHeld p s) (h3 : intakeFree s p = true) (h4 : p.count ≠ 1) :
    Completes (.nodorSend at_ p) s fun t => ∃ owed, t.fab.inbound =
      s.fab.inbound ++ [{ newIn p (setNow at_ s) with got := [(p.index, (p.pktOffset, p.payload))], owed := owed }] := by
  refine ⟨_, rfl, ?_⟩
  have k := received_checks p (setNow at_ s)
  rw [receive_good g, checked_allowed (allowed_same k ha)]
  have hn : findIn (received p (setNow at_ s)) p = none := (findIn_same k p).trans h1
  unfold takeSend
  rw [hn]
  dsimp only
  rw [holdSource_held (held_same k h2)]
  dsimp only
  rw [intakeFree_same k, show intakeFree (setNow at_ s) p = true from h3, if_pos rfl]
  obtain ⟨owed, ho⟩ := joinIn_first hn h4
  exact ⟨owed, by rw [ho, newIn_same k.tmu, inbound_same k]; rfl⟩

/-! ## A message complete in one packet -/

theorem content_single (m : InMsg) (bs : List Byte) (hg : m.got = [(0, (0, bs))]) (hl : m.msgLen = bs.length) : m.content = bs := by
  unfold InMsg.content
  rw [hg, hl]
  dsimp only [List.foldl]
  apply List.ext_getElem
  · simp
  · intro i h1 h2
    rw [List.getElem_map, List.getElem_range]
    have h := look_zip_range bs [] 0 i h2
    have e : Tab.look i (Tab.putRun 0 bs ([] : Tab Byte)) = some bs[i] := by
      unfold Tab.putRun
      rw [Nat.zero_add] at h
      simpa using h
    unfold Tab.getD
    rw [e]
    rfl

theorem noteDone_has {p : Packet} {prior : Option Nat} {s : State}
    (h : (s.fab.done.filter (fun d => d.source == p.source)).length < 4096) :
    doneMsg p prior s.tmu.now ∈ (noteDone p prior s).fab.done := by
  have hl : (s.fab.done.filter (fun x => x.source == p.source && x.seq != p.msgSeq) ++ [doneMsg p prior s.tmu.now]).length ≤ 4096 := by
    have : (s.fab.done.filter (fun x => x.source == p.source && x.seq != p.msgSeq)).length ≤
        (s.fab.done.filter (fun d => d.source == p.source)).length := by
      have e : (fun x : DoneMsg => x.source == p.source && x.seq != p.msgSeq) =
          fun x => (fun x : DoneMsg => x.seq != p.msgSeq) x && (fun x : DoneMsg => x.source == p.source) x := by
        funext x; exact Bool.and_comm _ _
      rw [e, ← List.filter_filter]
      exact List.length_filter_le _ _
    simp only [List.length_append, List.length_singleton]
    omega
  unfold doneMsg at hl ⊢
  unfold noteDone
  dsimp only
  rw [if_pos hl]
  simp

theorem noteDone_fab (p : Packet) (prior : Option Nat) (s : State) : ∃ x, (noteDone p prior s).fab = { s.fab with done := x } := by
  unfold noteDone
  exact ⟨_, rfl⟩

/-- The acknowledgement of a complete message. -/
def ackFrame (p : Packet) : Frame := plainFrame 8 p.dike p.source p.window p.gen p.msgSeq 8 0 1 0 (le 1 1 ++ zeros 7)

theorem ackComplete_eq (p : Packet) (s : State) : ackComplete p s = queueFrame 0 (ackFrame p) s := rfl

theorem done_same {s t : State} (h : SameChecks s t) : t.fab.done = s.fab.done := by
  obtain ⟨x, hx⟩ := h.fab
  rw [hx]

/-! ## What leaves the fabric's books alone -/

/-- Time, the charter, receive state, rotations, ports and queues are the same. -/
structure Recv (s t : State) : Prop where
  tmu : t.tmu = s.tmu
  stw : t.stw = s.stw
  done : t.fab.done = s.fab.done
  inbound : t.fab.inbound = s.fab.inbound
  windows : t.fab.windows = s.fab.windows ∧ t.fab.intake = s.fab.intake
  rotation : t.fab.rotation = s.fab.rotation
  dest : t.fab.destRotation = s.fab.destRotation
  queues : t.wei.queues = s.wei.queues
  ports : ∀ n, portUp t n = portUp s n

theorem recv_refl (s : State) : Recv s s := ⟨rfl, rfl, rfl, rfl, ⟨rfl, rfl⟩, rfl, rfl, rfl, fun _ => rfl⟩

theorem recv_trans {a b c : State} (h : Recv a b) (k : Recv b c) : Recv a c :=
  ⟨k.tmu.trans h.tmu, k.stw.trans h.stw, k.done.trans h.done, k.inbound.trans h.inbound,
    ⟨k.windows.1.trans h.windows.1, k.windows.2.trans h.windows.2⟩, k.rotation.trans h.rotation, k.dest.trans h.dest,
    k.queues.trans h.queues, fun n => (k.ports n).trans (h.ports n)⟩

theorem recv_of_parts {s t : State} {ps : List Part} (h : Only ps s t) (h1 : ps.contains .tmu = false) (h2 : ps.contains .stw = false)
    (h3 : ps.contains .fab = false) (h4 : t.wei.queues = s.wei.queues) : Recv s t := by
  have hf : t.fab = s.fab := h.2 .fab h3
  exact ⟨h.2 .tmu h1, h.2 .stw h2, by rw [hf], by rw [hf], ⟨by rw [hf], by rw [hf]⟩, by rw [hf], by rw [hf], h4,
    fun n => by unfold portUp portOf; rw [hf]⟩

theorem received_recv (p : Packet) (s : State) : Recv s (received p s) := by
  have k := received_checks p s
  have kp := received_parts p s
  obtain ⟨x, hx⟩ := k.fab
  exact ⟨k.tmu, k.stw, by rw [hx], by rw [hx], ⟨by rw [hx], by rw [hx]⟩, by rw [hx], by rw [hx], by rw [kp.2 .wei rfl],
    portUp_received p s⟩

theorem recv_queue {s t : State} (h : Recv s t) (q : Nat) : queueOf t q = queueOf s q := by
  unfold queueOf; rw [h.queues]

theorem queued_recv {q : Nat} {f : Frame} {s t u : State} (h : FrameQueued q f t u) (k : Recv s t) : FrameQueued q f s u := by
  have hn : ∀ n, nextPort t n = nextPort s n := by
    intro n
    have hx : portUp t = portUp s := funext k.ports
    unfold nextPort; rw [hx]
  unfold FrameQueued at *
  rw [← recv_queue k, ← k.rotation, ← hn, ← k.dest]
  exact h

theorem wEvent_recv (a b c d : Nat) (s : State) : Recv s (wEvent a b c d s) :=
  recv_of_parts (wEvent_only (pts := [.hif, .hlt, .status]) rfl a b c d (Only.refl _ s)) rfl rfl rfl
    (by rw [(wEvent_only (pts := [.hif, .hlt, .status]) rfl a b c d (Only.refl _ s)).2 .wei rfl])

theorem police_passes {d c : Nat} {s : State} (h : (Tab.getD s.wei.policers d {}).enable = false ∨
    c * 1000 ≤ (Tab.getD s.wei.policers d {}).tokensAt s.tmu.now) :
    (police d c s).1 = true ∧ Recv s (police d c s).2 ∧ Only [.wei, .hif, .hlt, .status] s (police d c s).2 := by
  unfold police
  dsimp only
  by_cases he : (Tab.getD s.wei.policers d {}).enable = true
  · have hc : c * 1000 ≤ (Tab.getD s.wei.policers d {}).tokensAt s.tmu.now := by
      rcases h with h | h
      · rw [he] at h; cases h
      · exact h
    rw [he, if_neg (by decide), if_pos hc]
    refine ⟨rfl, ?_, ?_⟩
    · refine recv_trans (b := { s with wei := _ }) ?_ (wEvent_recv _ _ _ _ _)
      exact ⟨rfl, rfl, rfl, rfl, ⟨rfl, rfl⟩, rfl, rfl, rfl, fun _ => rfl⟩
    · refine wEvent_only rfl _ _ _ _ ?_
      exact ⟨rfl, fun p hp => by cases p <;> first | rfl | exact absurd hp (by decide)⟩
  · rw [if_pos (by simpa using he)]
    exact ⟨rfl, recv_refl s, Only.refl _ s⟩

theorem chargeObject_recv (d : Desc) (n : Nat) (s : State) : Recv s (chargeObject d n s) := by
  unfold chargeObject
  have hc : ∀ a b c, Recv s (charge a b c s) := fun a b c =>
    recv_of_parts (charge_parts a b c s) rfl rfl rfl (by rw [(charge_parts a b c s).2 .wei rfl])
  split
  · exact hc _ _ _
  · split
    · exact hc _ _ _
    · exact recv_refl s

theorem chargeObject_parts (d : Desc) (n : Nat) (s : State) : Only [.hif, .hlt, .status] s (chargeObject d n s) :=
  chargeObject_only rfl d n (Only.refl _ s)

theorem placeObject_effect {i off : Nat} {bs : List Byte} {d : Desc} {s : State} (h : Tab.look i s.pgm.descs = some d) :
    Recv s (placeObject i off bs s) ∧ Only [.pgm, .hif, .hlt, .status] s (placeObject i off bs s) ∧
    (placeObject i off bs s).pgm = { s.pgm with
      descs := Tab.put i { d.write off bs with lease := some (stepNo s), lastRead := stepNo s } s.pgm.descs } := by
  unfold placeObject
  rw [h]
  dsimp only
  have h1 : Recv s (putDesc i { d.write off bs with lease := some (stepNo s), lastRead := stepNo s } s) :=
    ⟨rfl, rfl, rfl, rfl, ⟨rfl, rfl⟩, rfl, rfl, rfl, fun _ => rfl⟩
  refine ⟨recv_trans h1 (chargeObject_recv _ _ _), chargeObject_only rfl _ _ (putDesc_only rfl _ _ (Only.refl _ s)), ?_⟩
  rw [(chargeObject_parts _ _ _).2 .pgm rfl]
  rfl

/-- An object of the dike that the action is for (R28). -/
theorem forDike_own {dike i : Nat} {d : Desc} {act : State → State} {s : State} (h : Tab.look i s.pgm.descs = some d)
    (ht : d.tenant = dike) : forDike dike i act s = act s := by
  unfold forDike; rw [h]; dsimp only; rw [if_pos ht]

theorem placeWrite_own {p : Packet} {d : Desc} {s : State} (h : Tab.look (windowOf s p.window).desc s.pgm.descs = some d)
    (ht : d.tenant = p.dike) : placeWrite p s =
      placeObject (windowOf s p.window).desc ((windowOf s p.window).base + p.winOffset + p.pktOffset) p.payload s :=
  forDike_own h ht

theorem windowOf_recv {s t : State} (h : Recv s t) (w : Nat) : windowOf t w = windowOf s w := by
  unfold windowOf; rw [h.windows.1, h.windows.2]

theorem sourcesOf_recv {s t : State} (h : Recv s t) (d : Nat) : sourcesOf t d = sourcesOf s d := by
  unfold sourcesOf; rw [h.inbound, h.done]

theorem held_recv {p : Packet} {s t : State} (h : Recv s t) (g : SourceHeld p s) : SourceHeld p t := by
  unfold SourceHeld; rw [sourcesOf_recv h]; exact g

theorem stepNo_recv {s t : State} (h : Recv s t) : stepNo t = stepNo s := stepNo_of h.tmu

theorem passes_of {p : Packet} {s t : State} (h : t.wei = s.wei) (h2 : t.tmu = s.tmu) (g : Passes p s) :
    (Tab.getD t.wei.policers p.dike {}).enable = false ∨
    max p.payload.length 64 * 1000 ≤ (Tab.getD t.wei.policers p.dike {}).tokensAt t.tmu.now := by
  rw [h, h2]; exact g

theorem findIn_recv {s t : State} (h : Recv s t) (p : Packet) : findIn t p = findIn s p := by unfold findIn; rw [h.inbound]

/-! ## A message in one packet -/

/-- A message in one packet is noted as complete and acknowledged; a SEND is then handed on, a WRITE without NOTIFY is done. -/
theorem joined_single {p : Packet} {v : State} (h1 : findIn v p = none) (h4 : p.count = 1) (h5 : p.index = 0)
    (h6 : p.pktOffset = 0) (h7 : p.payload.length = p.msgLen)
    (h9 : (v.fab.done.filter (fun d => d.source == p.source)).length < 4096) :
    ∃ x, (p.opcode = 1 → joinIn (newIn p v) p v =
        deliver 0 { port := p.port, source := p.source, dike := p.dike, bytes := p.payload } x) ∧
      (p.opcode ≠ 1 → packetNotify p = false → joinIn (newIn p v) p v = x) ∧
      doneMsg p none v.tmu.now ∈ x.fab.done ∧ x.fab.inbound = v.fab.inbound ∧
      FrameQueued 0 (plainFrame 8 p.dike p.source p.window p.gen p.msgSeq 8 0 1 0 (le 1 1 ++ zeros 7)) v x ∧
      Only [.fab, .wei, .hif, .hlt, .status] v x := by
  obtain ⟨owed, u, hu, hp⟩ := chargeSteward_eq p.frameLen
    { newIn p v with got := Tab.put p.index (p.pktOffset, p.payload) (newIn p v).got, latest := v.tmu.now } v
  obtain ⟨m, hm⟩ : ∃ m : InMsg, m = { newIn p v with got := [(0, (0, p.payload))], latest := v.tmu.now, owed := owed } := ⟨_, rfl⟩
  have hj : joinIn (newIn p v) p v = finishIn m p u := by
    unfold joinIn
    rw [hu]
    dsimp only
    have hg : Tab.put p.index (p.pktOffset, p.payload) (newIn p v).got = [(0, (0, p.payload))] := by rw [h5, h6]; rfl
    rw [hg]
    rw [if_pos (show [(0, (0, p.payload))].length = (newIn p v).count from h4.symm), ← hm]
  have c1 : (m.got.map (fun g => g.2.2.length)).sum = m.msgLen := by
    rw [hm]
    show (List.map (fun g : Nat × Nat × List Byte => g.2.2.length) [(0, 0, p.payload)]).sum = p.msgLen
    simp [h7]
  have hnone : ∀ x ∈ u.fab.inbound, ¬ (x.source = m.source ∧ x.seq = m.seq ∧ x.window = m.window ∧ x.gen = m.gen) := by
    rw [hp.2 .fab rfl, hm]; exact findIn_none h1
  have hdrop := (putIn_none hnone).2
  obtain ⟨z, hz⟩ := noteDone_fab p none (dropIn m u)
  have hrest : Only [.fab, .wei] (dropIn m u) (ackComplete p (noteDone p none (dropIn m u))) := by
    exact ackComplete_only rfl p (noteDone_only rfl p none (Only.refl _ _))
  have hut : u.tmu = v.tmu := hp.2 .tmu rfl
  refine ⟨ackComplete p (noteDone p none (dropIn m u)), fun ho => ?_, fun ho hq => ?_, ?_, ?_, ?_, ?_⟩
  · rw [hj]
    unfold finishIn
    dsimp only
    rw [if_neg (by rw [c1]; exact fun h => h rfl), if_pos (show m.opcode = 1 by rw [hm]; exact ho)]
    rw [content_single m p.payload (by rw [hm]) (by rw [hm]; exact h7.symm), hm]
    rfl
  · rw [hj]
    unfold finishIn
    dsimp only
    rw [if_neg (by rw [c1]; exact fun h => h rfl), if_neg (show ¬ m.opcode = 1 by rw [hm]; exact ho),
      if_neg (show ¬ m.notify = true by rw [hm]; show ¬ packetNotify p = true; rw [hq]; decide)]
  · rw [ackComplete_eq, queueFrame_fab]
    dsimp only
    rw [← hut]
    exact noteDone_has (s := dropIn m u) (by
      show (u.fab.done.filter _).length < 4096
      rw [hp.2 .fab rfl]; exact h9)
  · rw [ackComplete_eq, queueFrame_fab]
    dsimp only
    rw [hz]
    dsimp only
    rw [hdrop, hp.2 .fab rfl]
  · rw [ackComplete_eq]
    refine queued_from (queueFrame_queued 0 (ackFrame p) _) ?_ ?_ ?_ ?_
    · show u.wei = _
      rw [hp.2 .wei rfl]
    · intro n
      unfold portUp portOf
      rw [hz, show (dropIn m u).fab.ports = u.fab.ports from rfl, hp.2 .fab rfl]
    · rw [hz, show (dropIn m u).fab.rotation = u.fab.rotation from rfl, hp.2 .fab rfl]
    · rw [hz, show (dropIn m u).fab.destRotation = u.fab.destRotation from rfl, hp.2 .fab rfl]
  · have e1 : Only [.fab, .wei, .hif, .hlt, .status] v u := hp.mono (by decide)
    have e2 : Only [.fab, .wei, .hif, .hlt, .status] u (dropIn m u) := dropIn_only rfl m (Only.refl _ u)
    exact (e1.trans e2).trans (hrest.mono (by decide))

/-- SEND in one packet: the message is noted as complete, acknowledged, and handed to its consumer whole. -/
theorem nodorSend_single {at_ : Nat} {p : Packet} {s : State} (g : FrameGood 1 p (setNow at_ s)) (ha : PacketAllowed p (setNow at_ s))
    (h1 : findIn s p = none) (h2 : SourceHeld p s) (h3 : intakeFree s p = true) (h4 : p.count = 1) (h5 : p.index = 0)
    (h6 : p.pktOffset = 0) (h7 : p.payload.length = p.msgLen) (h8 : p.opcode = 1)
    (h9 : (s.fab.done.filter (fun d => d.source == p.source)).length < 4096) :
    Completes (.nodorSend at_ p) s fun t => ∃ u, t = deliver 0 { port := p.port, source := p.source, dike := p.dike, bytes := p.payload } u ∧
      doneMsg p none (setNow at_ s).tmu.now ∈ u.fab.done ∧ u.fab.inbound = s.fab.inbound ∧
      FrameQueued 0 (plainFrame 8 p.dike p.source p.window p.gen p.msgSeq 8 0 1 0 (le 1 1 ++ zeros 7)) s u ∧
      Only [.fab, .wei, .hif, .hlt, .status] (setNow at_ s) u := by
  refine ⟨_, rfl, ?_⟩
  have k := received_checks p (setNow at_ s)
  have kp := received_parts p (setNow at_ s)
  have kr := received_recv p (setNow at_ s)
  rw [receive_good g, checked_allowed (allowed_same k ha)]
  have hif : intakeFree (received p (setNow at_ s)) p = true := (intakeFree_same k p).trans h3
  clear k
  generalize received p (setNow at_ s) = v at *
  have hn : findIn v p = none := (findIn_recv kr p).trans h1
  unfold takeSend
  rw [hn]
  dsimp only
  rw [holdSource_held (held_recv kr h2)]
  dsimp only
  rw [hif, if_pos rfl]
  obtain ⟨x, x1, _, x3, x4, x5, x6⟩ := joined_single hn h4 h5 h6 h7 (by rw [kr.done]; exact h9)
  rw [kr.tmu] at x3
  exact ⟨x, x1 h8, x3, x4.trans kr.inbound, (queued_recv x5 kr : FrameQueued _ _ (setNow at_ s) _), (kp.mono (by decide)).trans x6⟩

/-! ## WRITE -/

/-- The first packet of several leaves the pages alone. -/
theorem joinIn_first_pgm {p : Packet} {s : State} (hc : p.count ≠ 1) : (joinIn (newIn p s) p s).pgm = s.pgm := by
  obtain ⟨owed, u, hu, hp⟩ := chargeSteward_eq p.frameLen
    { newIn p s with got := Tab.put p.index (p.pktOffset, p.payload) (newIn p s).got, latest := s.tmu.now } s
  unfold joinIn
  rw [hu]
  dsimp only
  have hg : Tab.put p.index (p.pktOffset, p.payload) (newIn p s).got = [(p.index, (p.pktOffset, p.payload))] := rfl
  rw [hg]
  rw [if_neg (show ¬ [(p.index, p.pktOffset, p.payload)].length = (newIn p s).count from fun e => hc e.symm)]
  split
  · show (ackPartial _ (putIn _ u)).pgm = _
    rw [show ∀ m w, (ackPartial m w).pgm = w.pgm from fun m w => (queueFrame_parts _ _ w).2 .pgm rfl]
    exact hp.2 .pgm rfl
  · exact hp.2 .pgm rfl

/-- WRITE, the first packet of a message in several, that its policer lets pass: its bytes are placed at once, and the message
is kept. -/
theorem nodorWrite_first {at_ : Nat} {p : Packet} {d : Desc} {s : State} (g : FrameGood 2 p (setNow at_ s))
    (ha : PacketAllowed p (setNow at_ s)) (h1 : findIn s p = none) (h2 : SourceHeld p s) (h3 : Passes p (setNow at_ s))
    (h4 : p.count ≠ 1) (h5 : Tab.look (windowOf s p.window).desc s.pgm.descs = some d) (ht : d.tenant = p.dike) :
    Completes (.nodorWrite at_ p) s fun t =>
      t.pgm = { s.pgm with
        descs := Tab.put (windowOf s p.window).desc { d.write ((windowOf s p.window).base + p.winOffset + p.pktOffset) p.payload with
          lease := some (stepNo (setNow at_ s)), lastRead := stepNo (setNow at_ s) } s.pgm.descs } ∧
      ∃ owed, t.fab.inbound =
        s.fab.inbound ++ [{ newIn p (setNow at_ s) with got := [(p.index, (p.pktOffset, p.payload))], owed := owed }] := by
  refine ⟨_, rfl, ?_⟩
  have k := received_checks p (setNow at_ s)
  have kp := received_parts p (setNow at_ s)
  have kr := received_recv p (setNow at_ s)
  rw [receive_good g, checked_allowed (allowed_same k ha)]
  have hpass := passes_of (kp.2 .wei rfl) kr.tmu h3
  have hpg : (received p (setNow at_ s)).pgm = s.pgm := kp.2 .pgm rfl
  generalize received p (setNow at_ s) = v at *
  have hn : findIn v p = none := (findIn_recv kr p).trans h1
  unfold takeWrite
  rw [hn]
  dsimp only
  unfold policed
  dsimp only
  obtain ⟨q1, q2, q3⟩ := police_passes hpass
  rw [q1, if_pos rfl]
  have r2 := recv_trans kr q2
  have hpg2 : (police p.dike (max p.payload.length 64) v).2.pgm = s.pgm := (q3.2 .pgm rfl).trans hpg
  generalize (police p.dike (max p.payload.length 64) v).2 = w at *
  rw [holdSource_held (held_recv r2 h2)]
  dsimp only
  have hwin : windowOf w p.window = windowOf s p.window := windowOf_recv r2 _
  have hlook : Tab.look (windowOf s p.window).desc w.pgm.descs = some d := by rw [hpg2]; exact h5
  obtain ⟨e1, e2, e3⟩ := placeObject_effect (off := (windowOf s p.window).base + p.winOffset + p.pktOffset) (bs := p.payload) hlook
  have r3 := recv_trans r2 e1
  have hpw : placeWrite p w =
      placeObject (windowOf s p.window).desc ((windowOf s p.window).base + p.winOffset + p.pktOffset) p.payload w := by
    rw [placeWrite_own (by rw [hwin]; exact hlook) ht, hwin]
  have hni : newIn p w = newIn p (placeWrite p w) := newIn_same (by rw [hpw]; exact e1.tmu.symm) p
  rw [hni, hpw]
  rw [hpg2] at e3
  rw [stepNo_recv r2] at e3
  generalize placeObject (windowOf s p.window).desc ((windowOf s p.window).base + p.winOffset + p.pktOffset) p.payload w = x at *
  refine ⟨(joinIn_first_pgm h4).trans e3, ?_⟩
  obtain ⟨owed, ho⟩ := joinIn_first ((findIn_recv r3 p).trans h1) h4
  exact ⟨owed, by rw [ho, newIn_same r3.tmu, r3.inbound]; rfl⟩

/-- WRITE in one packet without NOTIFY: its bytes are placed, the message is noted as complete and acknowledged. -/
theorem nodorWrite_single {at_ : Nat} {p : Packet} {d : Desc} {s : State} (g : FrameGood 2 p (setNow at_ s))
    (ha : PacketAllowed p (setNow at_ s)) (h1 : findIn s p = none) (h2 : SourceHeld p s) (h3 : Passes p (setNow at_ s))
    (h4 : p.count = 1) (h5 : p.index = 0) (h6 : p.pktOffset = 0) (h7 : p.payload.length = p.msgLen) (h8 : p.opcode = 2)
    (h9 : (s.fab.done.filter (fun d => d.source == p.source)).length < 4096) (h10 : packetNotify p = false)
    (h11 : Tab.look (windowOf s p.window).desc s.pgm.descs = some d) (ht : d.tenant = p.dike) :
    Completes (.nodorWrite at_ p) s fun t =>
      t.pgm = { s.pgm with
        descs := Tab.put (windowOf s p.window).desc { d.write ((windowOf s p.window).base + p.winOffset + p.pktOffset) p.payload with
          lease := some (stepNo (setNow at_ s)), lastRead := stepNo (setNow at_ s) } s.pgm.descs } ∧
      doneMsg p none (setNow at_ s).tmu.now ∈ t.fab.done ∧ t.fab.inbound = s.fab.inbound ∧
      FrameQueued 0 (plainFrame 8 p.dike p.source p.window p.gen p.msgSeq 8 0 1 0 (le 1 1 ++ zeros 7)) s t := by
  refine ⟨_, rfl, ?_⟩
  have k := received_checks p (setNow at_ s)
  have kp := received_parts p (setNow at_ s)
  have kr := received_recv p (setNow at_ s)
  rw [receive_good g, checked_allowed (allowed_same k ha)]
  have hpass := passes_of (kp.2 .wei rfl) kr.tmu h3
  have hpg : (received p (setNow at_ s)).pgm = s.pgm := kp.2 .pgm rfl
  generalize received p (setNow at_ s) = v at *
  have hn : findIn v p = none := (findIn_recv kr p).trans h1
  unfold takeWrite
  rw [hn]
  dsimp only
  unfold policed
  dsimp only
  obtain ⟨q1, q2, q3⟩ := police_passes hpass
  rw [q1, if_pos rfl]
  have r2 := recv_trans kr q2
  have hpg2 : (police p.dike (max p.payload.length 64) v).2.pgm = s.pgm := (q3.2 .pgm rfl).trans hpg
  generalize (police p.dike (max p.payload.length 64) v).2 = w at *
  rw [holdSource_held (held_recv r2 h2)]
  dsimp only
  have hwin : windowOf w p.window = windowOf s p.window := windowOf_recv r2 _
  have hlook : Tab.look (windowOf s p.window).desc w.pgm.descs = some d := by rw [hpg2]; exact h11
  obtain ⟨e1, e2, e3⟩ := placeObject_effect (off := (windowOf s p.window).base + p.winOffset + p.pktOffset) (bs := p.payload) hlook
  have r3 := recv_trans r2 e1
  have hpw : placeWrite p w =
      placeObject (windowOf s p.window).desc ((windowOf s p.window).base + p.winOffset + p.pktOffset) p.payload w := by
    rw [placeWrite_own (by rw [hwin]; exact hlook) ht, hwin]
  have hni : newIn p w = newIn p (placeWrite p w) := newIn_same (by rw [hpw]; exact e1.tmu.symm) p
  rw [hni, hpw]
  rw [hpg2] at e3
  rw [stepNo_recv r2] at e3
  generalize placeObject (windowOf s p.window).desc ((windowOf s p.window).base + p.winOffset + p.pktOffset) p.payload w = x at *
  obtain ⟨y, _, y2, y3, y4, y5, y6⟩ := joined_single ((findIn_recv r3 p).trans h1) h4 h5 h6 h7 (by rw [r3.done]; exact h9)
  rw [y2 (by rw [h8]; decide) h10]
  rw [r3.tmu] at y3
  exact ⟨(y6.2 .pgm rfl).trans e3, y3, y4.trans r3.inbound, (queued_recv y5 r3 : FrameQueued _ _ (setNow at_ s) _)⟩

theorem police_drops {d c : Nat} {s : State} (h : (Tab.getD s.wei.policers d {}).enable = true)
    (h2 : (Tab.getD s.wei.policers d {}).tokensAt s.tmu.now < c * 1000) :
    (police d c s).1 = false ∧ Recv s (police d c s).2 ∧ (police d c s).2.pgm = s.pgm ∧
    eventBit (police d c s).2 .policed = true ∧ counter (police d c s).2 cPoliced = min (counter s cPoliced + 1) sMax := by
  obtain ⟨r, hr⟩ : ∃ r : Policer, r = { Tab.getD s.wei.policers d {} with
      tokens := (Tab.getD s.wei.policers d {}).tokensAt s.tmu.now, at_ := s.tmu.now
      dropped := sNext (Tab.getD s.wei.policers d {}).dropped 1 } := ⟨_, rfl⟩
  obtain ⟨x, hx⟩ : ∃ x : State, x = { s with wei := { s.wei with policers := Tab.put d r s.wei.policers } } := ⟨_, rfl⟩
  obtain ⟨y, hy⟩ : ∃ y : State, y = sEvent (Tab.getD s.wei.policers d {}).dropped
    (sNext (Tab.getD s.wei.policers d {}).dropped 1) 3 (0x210 + 24) x := ⟨_, rfl⟩
  have he : police d c s = (false, raise .policed (bump cPoliced 1 y)) := by
    rw [hy, hx, hr]
    unfold police
    dsimp only
    rw [if_neg (by rw [h]; decide), if_neg (by omega)]
  have hyp : Only [.hif, .hlt, .status] x y := by rw [hy]; exact sEvent_only rfl _ _ _ _ (Only.refl _ x)
  have hall : Only [.hif, .hlt, .status, .counters] y (raise .policed (bump cPoliced 1 y)) :=
    raise_only rfl _ (bump_only rfl _ _ (Only.refl _ y))
  have hxr : Recv s x := by rw [hx]; exact ⟨rfl, rfl, rfl, rfl, ⟨rfl, rfl⟩, rfl, rfl, rfl, fun _ => rfl⟩
  rw [he]
  refine ⟨rfl, ?_, ?_, eventBit_raise_same _ _, ?_⟩
  · exact recv_trans hxr (recv_trans (recv_of_parts hyp rfl rfl rfl (by rw [hyp.2 .wei rfl]))
      (recv_of_parts hall rfl rfl rfl (by rw [hall.2 .wei rfl])))
  · show (raise .policed (bump cPoliced 1 y)).pgm = _
    rw [hall.2 .pgm rfl, hyp.2 .pgm rfl, hx]
  · show counter (raise .policed (bump cPoliced 1 y)) cPoliced = _
    rw [raise_counter, counter_bump_same]
    have : counter y cPoliced = counter s cPoliced := by
      unfold counter counterRaw
      rw [hyp.2 .counters rfl, hx]
    rw [this]

/-- A WRITE packet for which its policer has not the tokens is dropped and counted: nothing is placed or kept. -/
theorem nodorWrite_policed {at_ : Nat} {p : Packet} {s : State} (g : FrameGood 2 p (setNow at_ s))
    (ha : PacketAllowed p (setNow at_ s)) (h1 : findIn s p = none) (h3 : (Tab.getD s.wei.policers p.dike {}).enable = true)
    (h4 : (Tab.getD s.wei.policers p.dike {}).tokensAt (setNow at_ s).tmu.now < max p.payload.length 64 * 1000) :
    Completes (.nodorWrite at_ p) s fun t =>
      t.pgm = s.pgm ∧ t.fab.inbound = s.fab.inbound ∧ eventBit t .policed = true ∧
      min (counter s cPoliced + 1) sMax ≤ counter t cPoliced := by
  refine ⟨_, rfl, ?_⟩
  have k := received_checks p (setNow at_ s)
  have kp := received_parts p (setNow at_ s)
  have kr := received_recv p (setNow at_ s)
  rw [receive_good g, checked_allowed (allowed_same k ha)]
  have hw : (received p (setNow at_ s)).wei = s.wei := kp.2 .wei rfl
  have hpg : (received p (setNow at_ s)).pgm = s.pgm := kp.2 .pgm rfl
  have hct : (received p (setNow at_ s)).counters = s.counters := kp.2 .counters rfl
  generalize received p (setNow at_ s) = v at *
  have hn : findIn v p = none := (findIn_recv kr p).trans h1
  unfold takeWrite
  rw [hn]
  dsimp only
  unfold policed
  dsimp only
  obtain ⟨q1, q2, q3, q4, q5⟩ := police_drops (d := p.dike) (c := max p.payload.length 64) (s := v) (by rw [hw]; exact h3)
    (by rw [hw, kr.tmu]; exact h4)
  rw [q1, if_neg (by decide)]
  refine ⟨q3.trans hpg, q2.inbound.trans kr.inbound, q4, ?_⟩
  rw [q5]
  have : counter v cPoliced = counter s cPoliced := by unfold counter counterRaw; rw [hct]
  rw [this]

/-! ## READ and ATOMIC -/

theorem noteDone_recvless {p : Packet} {prior : Option Nat} {s : State} : Only [.fab] s (noteDone p prior s) :=
  noteDone_only rfl p prior (Only.refl _ s)

/-- A frame queued after a completion is noted. -/
theorem queued_done {q : Nat} {f : Frame} {p : Packet} {prior : Option Nat} {s u : State} (h : FrameQueued q f (noteDone p prior s) u) :
    FrameQueued q f s u := by
  obtain ⟨x, hx⟩ := noteDone_fab p prior s
  refine queued_from h rfl (fun n => ?_) ?_ ?_
  · unfold portUp portOf; rw [hx]
  · rw [hx]
  · rw [hx]

/-- READ: the message is noted as complete and its data is queued, piece by piece, as READ_DATA. -/
theorem nodorRead_effect {at_ : Nat} {p : Packet} {d : Desc} {s : State} (g : FrameGood 3 p (setNow at_ s))
    (ha : PacketAllowed p (setNow at_ s)) (h2 : SourceHeld p s) (h3 : Passes p (setNow at_ s))
    (h5 : Tab.look (windowOf s p.window).desc s.pgm.descs = some d)
    (h9 : (s.fab.done.filter (fun d => d.source == p.source)).length < 4096) (ht : d.tenant = p.dike) :
    Completes (.nodorRead at_ p) s fun t => ∃ u, doneMsg p none (setNow at_ s).tmu.now ∈ u.fab.done ∧
      u.wei.queues = s.wei.queues ∧ u.fab.inbound = s.fab.inbound ∧ u.pgm = s.pgm ∧
      ∃ parts, parts = offsets 0 (chunks packetBytes
          (d.read ((windowOf s p.window).base + p.winOffset) (fld p.payload 0 4))) ∧
        t = ((List.range parts.length).zip parts).foldl (fun s q => queueFrame (dikeQueue p.dike 0)
          (plainFrame 4 p.dike p.source 0 0 p.msgSeq (fld p.payload 0 4) q.1 parts.length q.2.1 q.2.2) s) u := by
  refine ⟨_, rfl, ?_⟩
  have k := received_checks p (setNow at_ s)
  have kp := received_parts p (setNow at_ s)
  have kr := received_recv p (setNow at_ s)
  rw [receive_good g, checked_allowed (allowed_same k ha)]
  have hpass := passes_of (kp.2 .wei rfl) kr.tmu h3
  have hpg : (received p (setNow at_ s)).pgm = s.pgm := kp.2 .pgm rfl
  generalize received p (setNow at_ s) = v at *
  unfold takeSingle policed
  dsimp only
  obtain ⟨q1, q2, q3⟩ := police_passes hpass
  rw [q1, if_pos rfl]
  have r2 := recv_trans kr q2
  have hpg2 : (police p.dike (max p.payload.length 64) v).2.pgm = s.pgm := (q3.2 .pgm rfl).trans hpg
  generalize (police p.dike (max p.payload.length 64) v).2 = w at *
  rw [holdSource_held (held_recv r2 h2)]
  dsimp only
  have hwin : windowOf w p.window = windowOf s p.window := windowOf_recv r2 _
  unfold ownObject
  rw [hwin, forDike_own (by rw [hpg2]; exact h5) ht]
  unfold serveRead
  dsimp only
  rw [hwin, hpg2, h5]
  dsimp only
  have r3 := recv_trans r2 (chargeObject_recv d (fld p.payload 0 4) w)
  have hc := chargeObject_parts d (fld p.payload 0 4) w
  have hd := noteDone_recvless (p := p) (prior := none) (s := chargeObject d (fld p.payload 0 4) w)
  obtain ⟨x, hx⟩ := noteDone_fab p none (chargeObject d (fld p.payload 0 4) w)
  refine ⟨noteDone p none (chargeObject d (fld p.payload 0 4) w), ?_, ?_, ?_, ?_, _, rfl, rfl⟩
  · have := noteDone_has (p := p) (prior := none) (s := chargeObject d (fld p.payload 0 4) w) (by rw [r3.done]; exact h9)
    rwa [r3.tmu] at this
  · rw [hd.2 .wei rfl]; exact r3.queues
  · rw [hx]; exact r3.inbound
  · rw [hd.2 .pgm rfl, hc.2 .pgm rfl, hpg2]

/-- ATOMIC: 1 adds the operand, 2 stores it where the value equals COMPARE; the prior value is noted and queued. -/
theorem nodorAtomic_effect {at_ : Nat} {p : Packet} {d : Desc} {s : State} {old new : Nat} (g : FrameGood 5 p (setNow at_ s))
    (ha : PacketAllowed p (setNow at_ s)) (h2 : SourceHeld p s) (h3 : Passes p (setNow at_ s))
    (h5 : Tab.look (windowOf s p.window).desc s.pgm.descs = some d)
    (h6 : old = unle (d.read ((windowOf s p.window).base + p.winOffset) 8))
    (h7 : new = if fld p.payload 0 1 = 1 then (old + fld p.payload 8 8) % 2 ^ 64
      else if old = fld p.payload 16 8 then fld p.payload 8 8 else old)
    (h9 : (s.fab.done.filter (fun d => d.source == p.source)).length < 4096) (ht : d.tenant = p.dike) :
    Completes (.nodorAtomic at_ p) s fun t =>
      t.pgm = { s.pgm with
        descs := Tab.put (windowOf s p.window).desc { d.write ((windowOf s p.window).base + p.winOffset) (le 8 new) with
          lease := some (stepNo (setNow at_ s)), lastRead := stepNo (setNow at_ s) } s.pgm.descs } ∧
      doneMsg p (some old) (setNow at_ s).tmu.now ∈ t.fab.done ∧
      FrameQueued (dikeQueue p.dike 0) (plainFrame 6 p.dike p.source p.window p.gen p.msgSeq 8 0 1 0 (le 8 old)) s t := by
  refine ⟨_, rfl, ?_⟩
  have k := received_checks p (setNow at_ s)
  have kp := received_parts p (setNow at_ s)
  have kr := received_recv p (setNow at_ s)
  rw [receive_good g, checked_allowed (allowed_same k ha)]
  have hpass := passes_of (kp.2 .wei rfl) kr.tmu h3
  have hpg : (received p (setNow at_ s)).pgm = s.pgm := kp.2 .pgm rfl
  generalize received p (setNow at_ s) = v at *
  unfold takeSingle policed
  dsimp only
  obtain ⟨q1, q2, q3⟩ := police_passes hpass
  rw [q1, if_pos rfl]
  have r2 := recv_trans kr q2
  have hpg2 : (police p.dike (max p.payload.length 64) v).2.pgm = s.pgm := (q3.2 .pgm rfl).trans hpg
  generalize (police p.dike (max p.payload.length 64) v).2 = w at *
  rw [holdSource_held (held_recv r2 h2)]
  dsimp only
  have hwin : windowOf w p.window = windowOf s p.window := windowOf_recv r2 _
  unfold ownObject
  rw [hwin, forDike_own (by rw [hpg2]; exact h5) ht]
  unfold serveAtomic
  dsimp only
  rw [hwin, hpg2, h5]
  dsimp only
  rw [← h6, ← h7]
  have r3 := recv_trans r2 (chargeObject_recv d 8 w)
  have hc := chargeObject_parts d 8 w
  have hpg3 : (chargeObject d 8 w).pgm = s.pgm := (hc.2 .pgm rfl).trans hpg2
  generalize chargeObject d 8 w = y at *
  obtain ⟨e1, e2, e3⟩ := placeObject_effect (i := (windowOf s p.window).desc) (off := (windowOf s p.window).base + p.winOffset)
    (bs := le 8 new) (s := y) (d := d) (by rw [hpg3]; exact h5)
  rw [hpg3, stepNo_recv r3] at e3
  have r4 := recv_trans r3 e1
  generalize placeObject (windowOf s p.window).desc ((windowOf s p.window).base + p.winOffset) (le 8 new) y = z at *
  have hd := noteDone_recvless (p := p) (prior := some old) (s := z)
  refine ⟨?_, ?_, ?_⟩
  · rw [(queueFrame_parts _ _ _).2 .pgm rfl, hd.2 .pgm rfl, e3]
  · rw [queueFrame_fab]
    dsimp only
    have := noteDone_has (p := p) (prior := some old) (s := z) (by rw [r4.done]; exact h9)
    rwa [r4.tmu] at this
  · exact (queued_recv (queued_done (queueFrame_queued _ _ _)) r4 : FrameQueued _ _ (setNow at_ s) _)

/-! ## At the sender -/

/-- The rings of the host are the same. -/
theorem sEvent_rings {s0 s : State} (a b c d : Nat) (h : SameRings s0 s) : SameRings s0 (sEvent a b c d s) := by
  unfold sEvent
  split
  · exact counterEvent_rings _ _ _ h
  · exact h

theorem received_rings (p : Packet) (s : State) : SameRings s (received p s) := by
  have h1 : SameRings s (countFec p.port p.fecFixed s) := by
    unfold countFec
    exact sEvent_rings _ _ _ _ (show SameRings s (setPort _ _ s) from rfl)
  have h2 : SameRings s (countFrameIn p (countFec p.port p.fecFixed s)) := by
    unfold countFrameIn
    dsimp only
    exact wEvent_rings _ _ _ _ (wEvent_rings _ _ _ _ (show SameRings s (setPort _ _ _) from h1))
  unfold received chargeIn
  split
  · exact h2
  · exact charge_rings _ _ _ h2

theorem submitMsg_split (m : OutMsg) (s : State) :
    ((submitMsg m s).fab.out = s.fab.out ++ [m] ∧ (submitMsg m s).fab.waiting = s.fab.waiting) ∨
    ((submitMsg m s).fab.out = s.fab.out ∧ (submitMsg m s).fab.waiting = s.fab.waiting ++ [m]) := by
  by_cases h : slotFree s m = true
  · have := submitMsg_records h
    exact .inl ⟨this.1, this.2.1⟩
  · right
    unfold submitMsg
    rw [if_neg h]
    exact ⟨rfl, rfl⟩

theorem startAll_out (l : List OutMsg) (s : State) : ∃ more, (l.foldl (fun s m => submitMsg m s) s).fab.out = s.fab.out ++ more ∧
    ∀ x ∈ more, x ∈ l := by
  induction l generalizing s with
  | nil => exact ⟨[], by simp⟩
  | cons m l ih =>
    obtain ⟨more, h1, h2⟩ := ih (submitMsg m s)
    rcases submitMsg_split m s with ⟨h3, _⟩ | ⟨h3, _⟩
    · refine ⟨m :: more, ?_, ?_⟩
      · rw [List.foldl_cons, h1, h3]; simp
      · intro x hx
        rcases List.mem_cons.1 hx with rfl | hx
        · exact List.mem_cons_self
        · exact List.mem_cons_of_mem _ (h2 x hx)
    · exact ⟨more, by rw [List.foldl_cons, h1, h3], fun x hx => List.mem_cons_of_mem _ (h2 x hx)⟩

theorem endMsg_ends (m : OutMsg) (s : State) : MessageEnded m s (endMsg m.dest m.seq s) := by
  unfold MessageEnded endMsg startWaiting
  dsimp only
  obtain ⟨more, h1, h2⟩ := startAll_out s.fab.waiting { s with fab := { s.fab with
    out := s.fab.out.filter (fun o => !(o.dest == m.dest && o.seq == m.seq)), waiting := [] } }
  exact ⟨more, h1, h2⟩

theorem endMsg_rings (dest seq : Nat) (s : State) : SameRings s (endMsg dest seq s) := by
  unfold endMsg startWaiting
  refine SameRings.foldl (fun u m h => submitMsg_rings _ h) ?_
  rfl

theorem endMsg_parts (dest seq : Nat) (s : State) : Only [.fab, .wei] s (endMsg dest seq s) := endMsg_only rfl dest seq (Only.refl _ s)

theorem answered_from {k : Ticket} {status cause reason r0 r1 : Nat} {s w : State} (h64 : k.ring < 64)
    (h2 : k.silent = false ∨ status ≠ 0) (hw : SameRings s w) (ht : w.tmu = s.tmu) :
    Answered k status cause reason r0 r1 s (complete k status cause reason r0 r1 w) := by
  have hc := (complete_answers (k := k) (cause := cause) (reason := reason) (r0 := r0) (r1 := r1) (s := w) h64 h2).1
  have hr : ringOf w k.ring = ringOf s k.ring := ringOf_of hw _
  unfold Answered at hc ⊢
  rw [hr, stepNo_of ht] at hc
  exact hc

theorem ended_of {m : OutMsg} {s v t u : State} (h : MessageEnded m v t) (h1 : v.fab.out = s.fab.out)
    (h2 : v.fab.waiting = s.fab.waiting) (h3 : u.fab = t.fab) : MessageEnded m s u := by
  unfold MessageEnded at *
  rw [h3, ← h1, ← h2]
  exact h

theorem findOut_key {s : State} {dest seq : Nat} {m : OutMsg} (h : findOut s dest seq = some m) : m.dest = dest ∧ m.seq = seq := by
  unfold findOut at h
  have := List.find?_some h
  simpa using this

theorem out_received (p : Packet) (s : State) : (received p s).fab.out = s.fab.out ∧ (received p s).fab.waiting = s.fab.waiting := by
  obtain ⟨x, hx⟩ := received_fab p s
  rw [hx]
  exact ⟨rfl, rfl⟩

theorem findOut_same {s t : State} (h : t.fab.out = s.fab.out) (a b : Nat) : findOut t a b = findOut s a b := by
  unfold findOut; rw [h]

/-- ACK(COMPLETE) of a WRITE of the host: the message ends and its command completes with DONE. -/
theorem nodorAck_effect {at_ a : Nat} {p : Packet} {m : OutMsg} {k : Ticket} {s : State} (g : FrameGood 8 p (setNow at_ s))
    (h1 : findOut s p.source p.msgSeq = some m) (h2 : m.window = p.window ∧ m.gen = p.gen) (h3 : fld p.payload 0 1 ≠ 2)
    (h4 : m.opcode = 2) (h5 : m.carried = .hostWrite k a) (h6 : k.ring < 64) :
    Completes (.nodorAck at_ p) s fun t => MessageEnded m s t ∧
      (k.silent = false → Answered k 0 0 0 0 0 (setNow at_ s) t) := by
  refine ⟨_, rfl, ?_⟩
  rw [receive_good g]
  have hr := received_rings p (setNow at_ s)
  have ht := (received_recv p (setNow at_ s)).tmu
  have ho := out_received p (setNow at_ s)
  generalize received p (setNow at_ s) = v at *
  have hf : findOut v p.source p.msgSeq = some m := (findOut_same (ho.1.trans rfl) _ _).trans h1
  have he : takeAck p v = complete k 0 0 0 0 0 (endMsg m.dest m.seq v) := by
    unfold takeAck answered
    rw [hf]
    dsimp only
    rw [if_pos (show (m.window == p.window && m.gen == p.gen) = true by simp [h2.1, h2.2])]
    dsimp only
    rw [if_neg h3, if_neg (by rw [h4]; decide)]
    unfold settleTicket OutMsg.ticket
    rw [h5]
    rfl
  rw [he]
  refine ⟨ended_of (endMsg_ends m v) ho.1 ho.2 (complete_part (p := .fab) rfl), fun hsil => ?_⟩
  exact answered_from h6 (.inl hsil) ((endMsg_rings _ _ v).trans hr) (((endMsg_parts _ _ v).2 .tmu rfl).trans ht)

/-- NACK: the message ends and the host's command completes with the reason. -/
theorem nodorNack_effect {at_ : Nat} {p : Packet} {m : OutMsg} {k : Ticket} {s : State} (g : FrameGood 9 p (setNow at_ s))
    (h1 : findOut s p.source p.msgSeq = some m) (h2 : m.window = p.window ∧ m.gen = p.gen) (h5 : m.ticket = some k)
    (h6 : k.ring < 64) :
    Completes (.nodorNack at_ p) s fun t => MessageEnded m s t ∧
      Answered k 2 0 (fld p.payload 0 1) 0 0 (setNow at_ s) t := by
  refine ⟨_, rfl, ?_⟩
  rw [receive_good g]
  have hr := received_rings p (setNow at_ s)
  have ht := (received_recv p (setNow at_ s)).tmu
  have ho := out_received p (setNow at_ s)
  generalize received p (setNow at_ s) = v at *
  have hf : findOut v p.source p.msgSeq = some m := (findOut_same (ho.1.trans rfl) _ _).trans h1
  have he : takeNack p v = complete k 2 0 (fld p.payload 0 1) 0 0 (endMsg m.dest m.seq v) := by
    unfold takeNack answered
    rw [hf]
    dsimp only
    rw [if_pos (show (m.window == p.window && m.gen == p.gen) = true by simp [h2.1, h2.2])]
    dsimp only
    unfold settleTicket
    rw [h5]
    rfl
  rw [he]
  refine ⟨ended_of (endMsg_ends m v) ho.1 ho.2 (complete_part (p := .fab) rfl), ?_⟩
  exact answered_from h6 (.inr (by decide)) ((endMsg_rings _ _ v).trans hr) (((endMsg_parts _ _ v).2 .tmu rfl).trans ht)

/-- ATOMIC_DATA: the message ends and the command completes with the prior value. -/
theorem nodorAtomicData_effect {at_ : Nat} {p : Packet} {m : OutMsg} {k : Ticket} {s : State} (g : FrameGood 6 p (setNow at_ s))
    (h1 : findOut s p.source p.msgSeq = some m) (h4 : m.opcode = 5) (h5 : m.carried = .hostAtomic k) (h6 : k.ring < 64) :
    Completes (.nodorAtomicData at_ p) s fun t => MessageEnded m s t ∧
      (k.silent = false → Answered k 0 0 0 (fld p.payload 0 8) 0 (setNow at_ s) t) := by
  refine ⟨_, rfl, ?_⟩
  rw [receive_good g]
  have hr := received_rings p (setNow at_ s)
  have ht := (received_recv p (setNow at_ s)).tmu
  have ho := out_received p (setNow at_ s)
  generalize received p (setNow at_ s) = v at *
  have hf : findOut v p.source p.msgSeq = some m := (findOut_same (ho.1.trans rfl) _ _).trans h1
  have he : takePrior p v = complete k 0 0 0 (fld p.payload 0 8) 0 (endMsg m.dest m.seq v) := by
    unfold takePrior
    rw [hf]
    dsimp only
    rw [h4, h5]
    rfl
  rw [he]
  refine ⟨ended_of (endMsg_ends m v) ho.1 ho.2 (complete_part (p := .fab) rfl), fun hsil => ?_⟩
  exact answered_from h6 (.inl hsil) ((endMsg_rings _ _ v).trans hr) (((endMsg_parts _ _ v).2 .tmu rfl).trans ht)

/-- READ_DATA that does not complete its message: its bytes are written and it is kept. -/
theorem nodorReadData_part {at_ a : Nat} {p : Packet} {m : OutMsg} {k : Ticket} {s : State} (g : FrameGood 4 p (setNow at_ s))
    (h1 : findOut s p.source p.msgSeq = some m) (h4 : m.opcode = 3) (h5 : m.carried = .hostRead k a)
    (h6 : Tab.has p.index m.answer = false) (h7 : p.msgLen = fld ((m.packets.map (·.2)).flatten) 0 4)
    (h8 : (Tab.put p.index (p.pktOffset, p.payload) m.answer).length ≠ p.count) :
    Completes (.nodorReadData at_ p) s fun t =>
      readMem t (a + p.pktOffset) p.payload.length = p.payload ∧
      t.fab.out = s.fab.out.map (fun o => if o.dest = m.dest ∧ o.seq = m.seq then
        { o with answer := Tab.put p.index (p.pktOffset, p.payload) m.answer, answerCount := p.count } else o) := by
  refine ⟨_, rfl, ?_⟩
  rw [receive_good g]
  have ho := out_received p (setNow at_ s)
  generalize received p (setNow at_ s) = v at *
  have hf : findOut v p.source p.msgSeq = some m := (findOut_same (ho.1.trans rfl) _ _).trans h1
  have he : takeData p v = updOut m.dest m.seq (fun m' => { m' with answer := Tab.put p.index (p.pktOffset, p.payload) m.answer, answerCount := p.count })
      (writeMem (a + p.pktOffset) p.payload v) := by
    unfold takeData
    rw [hf]
    dsimp only
    split
    · rename_i t' a' e1 e2
      rw [h5] at e2
      cases e2
      rw [h6, if_neg (by simp [h7]), if_neg (fun e => h8 e.1)]
    · rename_i hx
      exact absurd h5 (hx k a h4)
  rw [he]
  refine ⟨(readMem_of_mem rfl _ _).trans (readMem_writeMem_same _ _ _), ?_⟩
  unfold updOut
  dsimp only
  rw [show (writeMem (a + p.pktOffset) p.payload v).fab.out = s.fab.out from ho.1]

/-- READ_DATA that completes its message: its bytes are written, the message ends and the command completes with DONE. -/
theorem nodorReadData_last {at_ a : Nat} {p : Packet} {m : OutMsg} {k : Ticket} {s : State} (g : FrameGood 4 p (setNow at_ s))
    (h1 : findOut s p.source p.msgSeq = some m) (h4 : m.opcode = 3) (h5 : m.carried = .hostRead k a)
    (h6 : Tab.has p.index m.answer = false) (h7 : p.msgLen = fld ((m.packets.map (·.2)).flatten) 0 4)
    (h8 : (Tab.put p.index (p.pktOffset, p.payload) m.answer).length = p.count)
    (h9 : ((Tab.put p.index (p.pktOffset, p.payload) m.answer).map (fun g => g.2.2.length)).sum = p.msgLen) (h10 : k.ring < 64) :
    Completes (.nodorReadData at_ p) s fun t =>
      MessageEnded m s t ∧ (k.silent = false → Answered k 0 0 0 0 0 (setNow at_ s) t) ∧
      ∃ u, readMem u (a + p.pktOffset) p.payload.length = p.payload ∧ t = complete k 0 0 0 0 0 (endMsg m.dest m.seq u) := by
  refine ⟨_, rfl, ?_⟩
  rw [receive_good g]
  have hr := received_rings p (setNow at_ s)
  have ht := (received_recv p (setNow at_ s)).tmu
  have ho := out_received p (setNow at_ s)
  generalize received p (setNow at_ s) = v at *
  have hf : findOut v p.source p.msgSeq = some m := (findOut_same (ho.1.trans rfl) _ _).trans h1
  have he : takeData p v = complete k 0 0 0 0 0 (endMsg m.dest m.seq (writeMem (a + p.pktOffset) p.payload v)) := by
    unfold takeData
    rw [hf]
    dsimp only
    split
    · rename_i t' a' e1 e2
      rw [h5] at e2
      cases e2
      rw [h6, if_neg (by simp [h7]), if_pos ⟨h8, h9⟩]
      rfl
    · rename_i hx
      exact absurd h5 (hx k a h4)
  rw [he]
  have hw : SameRings (setNow at_ s) (endMsg m.dest m.seq (writeMem (a + p.pktOffset) p.payload v)) :=
    (endMsg_rings _ _ (writeMem (a + p.pktOffset) p.payload v)).trans hr
  refine ⟨ended_of (endMsg_ends m (writeMem (a + p.pktOffset) p.payload v)) ho.1 ho.2 (complete_part (p := .fab) rfl),
    fun hsil => ?_, _, readMem_writeMem_same _ _ _, rfl⟩
  exact answered_from h10 (.inl hsil) hw
    (((endMsg_parts _ _ (writeMem (a + p.pktOffset) p.payload v)).2 .tmu rfl).trans ht)

/-! ## Timers (R264, R265) -/

/-- PARTIAL_ACK_TIMER: 16 µs after the latest packet an ACK(PARTIAL) with the bitmap is queued, and the time counts anew. -/
theorem partialAckTimer_effect {source msgSeq : Nat} {m : InMsg} {s : State}
    (h1 : s.fab.inbound.find? (fun m => m.source == source && m.seq == msgSeq) = some m) :
    Completes (.partialAckTimer source msgSeq) s fun t =>
      t.tmu = { s.tmu with now := max s.tmu.now (m.latest + 16000) } ∧
      t.fab.inbound = s.fab.inbound.filter (fun x =>
        !(x.source == m.source && x.seq == m.seq && x.window == m.window && x.gen == m.gen)) ++ [{ m with latest := t.tmu.now }] ∧
      FrameQueued 0 (plainFrame 8 m.dike m.source m.window m.gen m.seq (le 1 2 ++ zeros 7 ++ bitmapOf m).length 0 1 0
        (le 1 2 ++ zeros 7 ++ bitmapOf m)) s t := by
  obtain ⟨u, hu⟩ : ∃ u : State, u = putIn { m with latest := (setNow (m.latest + 16000) s).tmu.now } (setNow (m.latest + 16000) s) :=
    ⟨_, rfl⟩
  refine ⟨ackPartial { m with latest := (setNow (m.latest + 16000) s).tmu.now } u, ?_, ?_, ?_, ?_⟩
  · show execPartialAckTimer source msgSeq s = _
    unfold execPartialAckTimer
    rw [h1, hu]
  · unfold ackPartial answer
    rw [(queueFrame_parts _ _ u).2 .tmu rfl, hu]
    rfl
  · rw [ackPartial_fab]
    have : (ackPartial { m with latest := (setNow (m.latest + 16000) s).tmu.now } u).tmu = (setNow (m.latest + 16000) s).tmu := by
      unfold ackPartial answer
      rw [(queueFrame_parts _ _ u).2 .tmu rfl, hu]
      rfl
    rw [this, hu]
    rfl
  · unfold ackPartial answer
    have hq := queueFrame_queued 0 (plainFrame 8 m.dike m.source m.window m.gen m.seq (le 1 2 ++ zeros 7 ++ bitmapOf m).length 0 1 0
        (le 1 2 ++ zeros 7 ++ bitmapOf m)) u
    have hr : Recv (setNow (m.latest + 16000) s) { u with fab := { u.fab with inbound := s.fab.inbound } } := by
      rw [hu]; exact ⟨rfl, rfl, rfl, rfl, ⟨rfl, rfl⟩, rfl, rfl, rfl, fun _ => rfl⟩
    refine queued_from hq ?_ (fun n => ?_) ?_ ?_
    · rw [hu]; rfl
    · rw [hu]; rfl
    · rw [hu]; rfl
    · rw [hu]; rfl

theorem queuePacket_queued (m : OutMsg) (i flags : Nat) (s : State) : FrameQueued m.queue (m.frame i 0 flags) s (queuePacket m i flags s) := by
  unfold FrameQueued queuePacket rotate WQueue.on
  dsimp only
  rw [enqueue_inst]
  exact (Tab.getD_put_same _ _ _ _).trans rfl

theorem queued_same_wei {q : Nat} {f : Frame} {s t u : State} (h : FrameQueued q f s t) (hw : u.wei = t.wei) : FrameQueued q f s u := by
  unfold FrameQueued at *
  rw [queueOf_of_wei hw]
  exact h

/-- RESEND_TIMEOUT of a message sent whole: its last packet is queued again with RESEND and ACK_NOW, and counted. -/
theorem resendTimeout_effect {at_ dest msgSeq : Nat} {m : OutMsg} {s : State} (h1 : findOut s dest msgSeq = some m) (h2 : m.unsent = 0)
    (h3 : m.firstSent.isSome = true) (h4 : m.latestSent + s.stw.charter.resend * 1000 ≤ (setNow at_ s).tmu.now) :
    Completes (.resendTimeout at_ dest msgSeq) s fun t =>
      FrameQueued m.queue (m.frame (m.packets.length - 1) 0 6) s t ∧ counter t cResend = min (counter s cResend + 1) sMax ∧
      t.fab.out = s.fab.out := by
  refine ⟨resend m (m.packets.length - 1) 4 (setNow at_ s), ?_, ?_, ?_, ?_⟩
  · show execResendTimeout at_ dest msgSeq s = _
    unfold execResendTimeout
    dsimp only
    rw [show findOut (setNow at_ s) dest msgSeq = some m from h1]
    dsimp only
    rw [if_pos ⟨h2, h3, h4⟩]
  · unfold resend
    exact queued_same_wei (queuePacket_queued m (m.packets.length - 1) 6 (setNow at_ s))
      ((bump_only (pts := [.hif, .hlt, .status, .counters]) rfl cResend 1 (Only.refl _ _)).2 .wei rfl)
  · unfold resend
    rw [counter_bump_same]
    have : (queuePacket m (m.packets.length - 1) (2 + 4) (setNow at_ s)).counters = s.counters :=
      (queuePacket_only (pts := [.fab, .wei]) rfl m _ _ (Only.refl _ (setNow at_ s))).2 .counters rfl
    unfold counter counterRaw
    rw [this]
  · unfold resend
    rw [(bump_only (pts := [.hif, .hlt, .status, .counters]) rfl cResend 1 (Only.refl _ _)).2 .fab rfl]
    exact (queuePacket_records m _ _ (setNow at_ s)).1

/-- MESSAGE_ABANDON_TIMER: 1 s after its first packet was sent the message ends, MESSAGE_ABANDONED is raised and counted, and the
host's command completes as abandoned. -/
theorem messageAbandonTimer_effect {dest msgSeq first : Nat} {m : OutMsg} {k : Ticket} {s : State}
    (h1 : findOut s dest msgSeq = some m) (h2 : m.firstSent = some first) (h3 : m.ticket = some k) (h4 : k.ring < 64) :
    Completes (.messageAbandonTimer dest msgSeq) s fun t =>
      MessageEnded m s t ∧ t.tmu = { s.tmu with now := max s.tmu.now (first + 1000000000) } ∧
      eventBit t .messageAbandoned = true ∧ counter t cAbandon = min (counter s cAbandon + 1) sMax ∧
      Answered k 3 0 0 0 0 (setNow (first + 1000000000) s) t := by
  obtain ⟨u, hu⟩ : ∃ u : State, u = raise .messageAbandoned (bump cAbandon 1 (setNow (first + 1000000000) s)) := ⟨_, rfl⟩
  have hk := findOut_key h1
  have hup : Only [.hif, .hlt, .status, .counters] (setNow (first + 1000000000) s) u := by
    rw [hu]; exact raise_only rfl _ (bump_only rfl _ _ (Only.refl _ _))
  have hur : SameRings (setNow (first + 1000000000) s) u := by
    rw [hu]; exact raise_rings _ (bump_rings _ _ rfl)
  have hf : u.fab = s.fab := hup.2 .fab rfl
  have hep := endMsg_parts m.dest m.seq u
  have hc : Only [.hif, .mem] (endMsg m.dest m.seq u) (complete k 3 0 0 0 0 (endMsg m.dest m.seq u)) :=
    complete_only rfl k 3 0 0 0 0 (Only.refl _ _)
  refine ⟨complete k 3 0 0 0 0 (endMsg m.dest m.seq u), ?_, ?_, ?_, ?_, ?_, ?_⟩
  · show execMessageAbandonTimer dest msgSeq s = _
    unfold execMessageAbandonTimer
    rw [h1]
    dsimp only
    rw [h2]
    dsimp only
    rw [← hu, ← hk.1, ← hk.2]
    unfold settleTicket
    rw [h3]
    rfl
  · exact ended_of (endMsg_ends m u) (by rw [hf]) (by rw [hf]) (hc.2 .fab rfl)
  · rw [hc.2 .tmu rfl, hep.2 .tmu rfl, hup.2 .tmu rfl]; rfl
  · unfold eventBit sqBits statusWord seqMode
    rw [hc.2 .status rfl, hc.2 .stw rfl, hep.2 .status rfl, hep.2 .stw rfl, hu]
    exact eventBit_raise_same .messageAbandoned (bump cAbandon 1 (setNow (first + 1000000000) s))
  · unfold counter counterRaw
    rw [hc.2 .counters rfl, hep.2 .counters rfl, hu, raise_counters]
    exact counter_bump_same cAbandon 1 (setNow (first + 1000000000) s)
  · exact answered_from h4 (.inr (by decide)) ((endMsg_rings _ _ u).trans hur) ((hep.2 .tmu rfl).trans (hup.2 .tmu rfl))

/-! ## Links of the ports (R255, R283) -/

theorem portOf_setPort_same (a : Nat) (r : PortRec) (s : State) : portOf (setPort a r s) a = r := by
  unfold portOf setPort; simp

/-- ETHERNET_LINK_CHANGE to up: the port's record changes in that alone, and PORT_CHANGED is raised. -/
theorem ethernetLinkChange_up {port : Nat} {s : State} (h1 : portsOn s = true) (h2 : port ≤ 7) (h3 : (portOf s port).up = false) :
    Completes (.ethernetLinkChange port true) s fun t =>
      portOf t port = { portOf s port with up := true } ∧ eventBit t .portChanged = true ∧
      Only [.fab, .hif, .hlt, .status] s t := by
  obtain ⟨u, hu⟩ : ∃ u : State, u = setPort port { portOf s port with up := true } s := ⟨_, rfl⟩
  refine ⟨raise .portChanged u, ?_, ?_, eventBit_raise_same _ _, ?_⟩
  · show execEthernetLinkChange port true s = _
    unfold execEthernetLinkChange
    dsimp only
    rw [h1, h3, if_neg (by simp; omega), if_pos (by simp), hu]
  · have : (raise .portChanged u).fab = u.fab := by rw [raise_fab]
    unfold portOf
    rw [this, hu]
    exact portOf_setPort_same _ _ _
  · rw [hu]; exact raise_only rfl _ (setPort_only rfl _ _ (Only.refl _ s))

/-- The queues at port `p` after some have been moved to `d`: nothing is lost, and what was moved is gone from `p`. -/
theorem moved_fold (p d : Nat) (hpd : p ≠ d) (l : List (Nat × WQueue)) : ∀ s : State, ∃ t,
    l.foldl (fun s e =>
      let w := queueOf s e.1
      let was := (w.on d).isEmpty
      let s := setQueue e.1 { w with inst := Tab.put d (w.on d ++ w.on p) (Tab.put p [] w.inst) } s
      if isDrr e.1 && was && w.pacing == .eligible then joinActive e.1 d s else s) s = t ∧
    ∀ q, (queueOf t q).on d ++ (queueOf t q).on p = (queueOf s q).on d ++ (queueOf s q).on p ∧
      ((queueOf s q).on p = [] → (queueOf t q).on p = []) ∧ (q ∈ l.map (·.1) → (queueOf t q).on p = []) := by
  induction l with
  | nil => exact fun s => ⟨s, rfl, fun q => ⟨rfl, id, fun h => absurd h (by simp)⟩⟩
  | cons e l ih =>
    intro s
    obtain ⟨w, hw⟩ : ∃ w : WQueue, w = { queueOf s e.1 with
      inst := Tab.put d ((queueOf s e.1).on d ++ (queueOf s e.1).on p) (Tab.put p [] (queueOf s e.1).inst) } := ⟨_, rfl⟩
    have hstep : ∃ u, (if isDrr e.1 && ((queueOf s e.1).on d).isEmpty && (queueOf s e.1).pacing == .eligible then
        joinActive e.1 d (setQueue e.1 w s) else setQueue e.1 w s) = u ∧
        (∀ q, (queueOf u q).inst = if q = e.1 then w.inst else (queueOf s q).inst) := by
      refine ⟨_, rfl, fun q => ?_⟩
      have hs : (queueOf (setQueue e.1 w s) q).inst = if q = e.1 then w.inst else (queueOf s q).inst := by
        by_cases h : q = e.1
        · subst h; simp
        · simp [h]
      split
      · rw [joinActive_queue]; exact hs
      · exact hs
    obtain ⟨u, hu, hi⟩ := hstep
    have hon : ∀ q, (queueOf u q).on d = (if q = e.1 then (queueOf s q).on d ++ (queueOf s q).on p else (queueOf s q).on d) ∧
        (queueOf u q).on p = (if q = e.1 then [] else (queueOf s q).on p) := by
      intro q
      unfold WQueue.on
      rw [hi q]
      by_cases h : q = e.1
      · subst h
        rw [if_pos rfl, if_pos rfl, if_pos rfl, hw]
        dsimp only
        rw [Tab.getD_put_same, Tab.getD_put_other hpd, Tab.getD_put_same]
        exact ⟨rfl, rfl⟩
      · rw [if_neg h, if_neg h, if_neg h]
        exact ⟨rfl, rfl⟩
    obtain ⟨t, ht, hq⟩ := ih u
    refine ⟨t, ?_, fun q => ⟨?_, fun h => ?_, fun h => ?_⟩⟩
    · rw [List.foldl_cons]
      dsimp only
      rw [← hw, hu]
      exact ht
    · rw [(hq q).1, (hon q).1, (hon q).2]
      by_cases h : q = e.1
      · rw [if_pos h, if_pos h, List.append_nil]
      · rw [if_neg h, if_neg h]
    · apply (hq q).2.1
      rw [(hon q).2]
      split
      · rfl
      · exact h
    · by_cases h3 : q = e.1
      · apply (hq q).2.1
        rw [(hon q).2, if_pos h3]
      · rcases List.mem_cons.1 h with h4 | h4
        · exact absurd h4 h3
        · exact (hq q).2.2 h4

/-- A port's queues move, in their order, to the tail of those of the next port in service. -/
theorem movePort_moves {p : Nat} {s : State} (h : nextPort s (p + 1) ≠ p) (q : Nat) :
    (queueOf (movePort p s) q).on (nextPort s (p + 1)) = (queueOf s q).on (nextPort s (p + 1)) ++ (queueOf s q).on p ∧
    (queueOf (movePort p s) q).on p = [] := by
  unfold movePort
  dsimp only
  rw [if_neg h]
  generalize nextPort s (p + 1) = d at *
  obtain ⟨t, ht, hq⟩ := moved_fold p d (fun e => h e.symm) (s.wei.queues.filter (fun e => !(e.2.on p).isEmpty)) (setActive p [] s)
  have hq' : ∀ q, (queueOf t q).on d ++ (queueOf t q).on p = (queueOf s q).on d ++ (queueOf s q).on p ∧
      ((queueOf s q).on p = [] → (queueOf t q).on p = []) ∧
      (q ∈ (s.wei.queues.filter (fun e => !(e.2.on p).isEmpty)).map (·.1) → (queueOf t q).on p = []) := hq
  rw [ht]
  have hp : (queueOf t q).on p = [] := by
    by_cases h0 : (queueOf s q).on p = []
    · exact (hq' q).2.1 h0
    · apply (hq' q).2.2
      have hl : ∃ w, Tab.look q s.wei.queues = some w ∧ w.on p ≠ [] := by
        unfold queueOf at h0
        cases hx : Tab.look q s.wei.queues with
        | none =>
          rw [hx, Option.getD_none] at h0
          refine absurd ?_ h0
          split
          · rfl
          · split <;> rfl
        | some w => rw [hx] at h0; exact ⟨w, rfl, h0⟩
      obtain ⟨w, hw, hne⟩ := hl
      have hmem : (q, w) ∈ s.wei.queues := by
        have : ∀ t : Tab WQueue, Tab.look q t = some w → (q, w) ∈ t := by
          intro t
          induction t with
          | nil => intro e; cases e
          | cons x t ih =>
            obtain ⟨j, a⟩ := x
            simp only [Tab.look]
            split
            · rename_i hj; intro e; cases e; subst hj; exact List.mem_cons_self
            · exact fun e => List.mem_cons_of_mem _ (ih e)
        exact this _ hw
      refine List.mem_map.2 ⟨(q, w), List.mem_filter.2 ⟨hmem, ?_⟩, rfl⟩
      simp only [Bool.not_eq_true', List.isEmpty_eq_false_iff]
      exact hne
  have h1 := (hq' q).1
  rw [hp, List.append_nil] at h1
  exact ⟨h1, hp⟩

/-- ETHERNET_LINK_CHANGE to down: the port's packets move to the next port in service, in their order. -/
theorem ethernetLinkChange_down {port next : Nat} {s : State} (h1 : portsOn s = true) (h2 : port ≤ 7) (h3 : (portOf s port).up = true)
    (h4 : (portOf s port).withdrawn = false)
    (h5 : next = nextPort (setPort port { portOf s port with up := false } s) (port + 1)) (h6 : next ≠ port) :
    Completes (.ethernetLinkChange port false) s fun t =>
      portOf t port = { portOf s port with up := false } ∧ eventBit t .portChanged = true ∧
      (∀ q, (queueOf t q).on next = (queueOf s q).on next ++ (queueOf s q).on port ∧ (queueOf t q).on port = []) := by
  obtain ⟨u, hu⟩ : ∃ u : State, u = setPort port { portOf s port with up := false } s := ⟨_, rfl⟩
  rw [← hu] at h5
  obtain ⟨v, hv⟩ : ∃ v : State, v = raise .portChanged u := ⟨_, rfl⟩
  have hvf : v.fab = u.fab := by rw [hv, raise_fab]
  have hvw : v.wei = u.wei := by rw [hv, raise_wei]
  have hnp : nextPort v (port + 1) = next := by
    have hx : portUp v = portUp u := by funext n; unfold portUp portOf; rw [hvf]
    rw [h5]; unfold nextPort; rw [hx]
  have hm : Only [.wei] v (movePort port v) := movePort_only rfl port (Only.refl _ v)
  refine ⟨movePort port v, ?_, ?_, ?_, fun q => ?_⟩
  · show execEthernetLinkChange port false s = _
    unfold execEthernetLinkChange
    dsimp only
    rw [if_neg (by simp [h1, h3]; omega), if_neg (by simp [h4]), hv, hu]
  · unfold portOf
    rw [hm.2 .fab rfl, hvf, hu]
    exact portOf_setPort_same _ _ _
  · unfold eventBit sqBits statusWord seqMode
    rw [hm.2 .status rfl, hm.2 .stw rfl, hv]
    exact eventBit_raise_same .portChanged u
  · have := movePort_moves (p := port) (s := v) (by rw [hnp]; exact h6) q
    rw [hnp, queueOf_of_wei hvw, queueOf_of_wei (show u.wei = s.wei by rw [hu]; rfl)] at this
    exact this

end Sys2Proof.Machine
end

