-- ==== Sys2Proof/Laws/EffRing.lean ====
section
/-! SUPPORT. What hidden states and the messages of a ring do at a C module (R24, R87, R103 to R107). -/

namespace Sys2Proof.Machine

open Sys2Proof.Safety

theorem entryNamed_same {s t : State} (h : SameSqs s t) (k : t.slc = s.slc) (a b : Nat) : entryNamed t a b = entryNamed s a b := by
  unfold entryNamed
  rw [slotOf_same h, h.seqs]
  simp only [seqAt_same h, recAt_same k]

theorem ctxOf_same {s t : State} (h : t.mdl = s.mdl) (c : Nat) : ctxOf t c = ctxOf s c := by unfold ctxOf; rw [h]

theorem classN_same {s t : State} (h : t.stw = s.stw) : classN t = classN s := by unfold classN; rw [h]

/-- The state in which a ring message is acted on. -/
def ringState (m : MsgIn) (h : RingHdr) (e : Seq) (s : State) : State :=
  let u := consumeUnnumbered e.tenant m.source m.bytes s
  { u with car := { u.car with ringSilent := Tab.del (e.handle * 64 + h.member) u.car.ringSilent } }

theorem unnumbered_same (tenant source : Nat) (bytes : List Byte) (s : State) :
    Only [.hif, .hlt, .status, .counters, .mem] s (consumeUnnumbered tenant source bytes s) :=
  consumeUnnumbered_only rfl tenant source bytes (Only.refl _ s)

theorem ringState_car (m : MsgIn) (h : RingHdr) (e : Seq) (s : State) :
    (ringState m h e s).car = { s.car with ringSilent := Tab.del (e.handle * 64 + h.member) s.car.ringSilent } := by
  unfold ringState
  dsimp only
  rw [(unnumbered_same _ _ _ s).2 .car rfl]

theorem ringState_parts (m : MsgIn) (h : RingHdr) (e : Seq) (s : State) :
    Only [.car, .hif, .hlt, .status, .counters, .mem] s (ringState m h e s) := by
  unfold ringState
  exact Only.put [.car] rfl ((unnumbered_same _ _ _ s).mono rfl) rfl

theorem ringIn_ok {kind slot : Nat} {act : RingHdr → Nat → Seq → State → State} {m : MsgIn} {s : State} {h : RingHdr} {e : Seq}
    (g : RingGets kind m s h slot e) : ringIn kind act m s = act h slot e (ringState m h e s) := by
  unfold ringIn
  simp only [g.takes, g.role, g.read, g.named, g.entry, Bool.not_true, Bool.false_eq_true, if_false]
  unfold ringEpoch
  rw [if_pos g.epoch]
  dsimp only
  have hc : (consumeUnnumbered e.tenant m.source m.bytes s).car = s.car := (unnumbered_same _ _ _ s).2 .car rfl
  rw [hc, g.fresh, if_neg (by decide)]
  unfold ringState
  dsimp only
  rw [hc]

theorem swapCheck_car (s : State) : (swapCheck s).car = s.car :=
  (swapCheck_only (pts := [.mdl, .free]) rfl (Only.refl _ s)).2 .car rfl

theorem lateStep_car (e : Seq) (layer : Nat) (s : State) : (lateStep e layer s).2.car = s.car :=
  (lateStep_only (pts := [.sqs, .mdl, .hif, .hlt, .status, .counters, .mem]) rfl e layer (Only.refl _ s)).2 .car rfl

theorem disposition_car (code handle layer amount : Nat) (s : State) : (disposition code handle layer amount s).car = s.car :=
  (disposition_only (pts := [.hif, .hlt, .status, .counters, .mem]) rfl code handle layer amount (Only.refl _ s)).2 .car rfl

/-- A late ring message moves rows to another step and leaves the ring's messages alone. -/
theorem lateRing_msgs (h : RingHdr) (e : Seq) (s : State) : (lateRing h e s).2.car.ringMsgs = s.car.ringMsgs := by
  unfold lateRing
  split
  · dsimp only
    rw [lateStep_car, disposition_car, raise_car, bump_car]
  · rfl

/-- A ring message in time changes nothing. -/
theorem lateRing_intime {h : RingHdr} {e : Seq} {s : State}
    (hl : (h.step == stepNo s && pastCutoff s e.context h.layer (s.tmu.now - s.tmu.openedAt)) = false) :
    lateRing h e s = (stepNo s, s) := by
  unfold lateRing
  rw [hl]
  rfl

theorem pastCutoff_same {s t : State} (h : Only [.sqs, .car, .hif, .hlt, .status, .counters, .mem] s t) (context layer offsetNs : Nat) :
    pastCutoff t context layer offsetNs = pastCutoff s context layer offsetNs := by
  unfold pastCutoff liveTime slotFor tideNow
  rw [h.2 .stw rfl, h.2 .mdl rfl, h.2 .tmu rfl]

theorem forwardBlocks_keeps {slot layer : Nat} {s : State} {r : RingMsg} (h : r ∈ s.car.ringMsgs) :
    ∃ b, { r with forwarded := b } ∈ (forwardBlocks slot layer s).car.ringMsgs := by
  unfold forwardBlocks
  split
  · exact ⟨r.forwarded, h⟩
  · rename_i e _
    split
    · exact ⟨r.forwarded, h⟩
    · dsimp only
      generalize (List.filter (fun r : RingMsg => !r.forwarded) _) = out
      obtain ⟨u, hu⟩ : ∃ u, u = out.foldl
        (fun s (r : RingMsg) => sendRing (e.ringNode (e.member + 1)) e 1 layer r.tokens r.firstPos r.payload s) s := ⟨_, rfl⟩
      rw [← hu]
      have hc : u.car = s.car := by
        rw [hu]
        exact (Only.foldl (ps := [.fab, .wei, .hlt]) (s0 := s) (fun v a h => sendRing_only rfl _ _ _ _ _ _ _ h)
          (Only.refl _ s)).2 .car rfl
      rw [hc]
      refine ⟨if out.contains r then true else r.forwarded, ?_⟩
      refine List.mem_map.mpr ⟨r, h, ?_⟩
      split <;> rfl

/-- What a unit of probes that has run leaves in the ring: its messages as they are. -/
theorem probeUnit_msgs {slot : Nat} {e : Seq} {c : Ctx} {i : Item} {s : State} (h : i.first = Config.none32) :
    (finishUnit slot e c i s).car.ringMsgs = s.car.ringMsgs := by
  unfold finishUnit
  dsimp only
  rw [if_pos h]
  split
  · rfl
  · dsimp only
    split
    · rw [(show ∀ a b c d u, (sendRecord a b c d u).car = u.car from fun a b c d u =>
        (sendRing_only (pts := [.fab, .wei, .hlt]) rfl _ _ _ _ _ _ _ (Only.refl _ u)).2 .car rfl)]
    · rw [(show ∀ a b c d u, (sendRecord a b c d u).car = u.car from fun a b c d u =>
        (sendRing_only (pts := [.fab, .wei, .hlt]) rfl _ _ _ _ _ _ _ (Only.refl _ u)).2 .car rfl),
        (sendRing_only (pts := [.fab, .wei, .hlt]) rfl _ _ _ _ _ _ _ (Only.refl _ s)).2 .car rfl]

theorem answerEmpty_msgs (slot layer : Nat) (s : State) : (answerEmpty slot layer s).car.ringMsgs = s.car.ringMsgs := by
  unfold answerEmpty
  split
  · rfl
  · split
    · rfl
    · dsimp only
      split
      · exact probeUnit_msgs rfl
      · rfl

theorem ringBlock_effect {m : MsgIn} {s : State} {h : RingHdr} {slot : Nat} {e : Seq} {bs : List Byte}
    (g : RingGets 1 m s h slot e) (h1 : expandWire s h.payload = .ok bs) :
    Completes (.ringBlock m) s fun t =>
      (∃ b, heldRing h e b ∈ t.car.ringMsgs) ∧ ∀ r ∈ s.car.ringMsgs, ∃ b, { r with forwarded := b } ∈ t.car.ringMsgs := by
  refine ⟨onRingBlock m s, rfl, ?_⟩
  dsimp only
  unfold onRingBlock
  rw [ringIn_ok g]
  have hx : expandWire (ringState m h e s) h.payload = .ok bs := by
    unfold expandWire codeTables at *
    rw [(ringState_parts m h e s).2 .cmp rfl]
    exact h1
  rw [hx]
  dsimp only
  rw [swapCheck_car]
  have hm : (keepRing h e (lateRing h e (ringState m h e s)).2).car.ringMsgs = s.car.ringMsgs ++ [heldRing h e false] := by
    show (lateRing h e (ringState m h e s)).2.car.ringMsgs ++ _ = _
    rw [lateRing_msgs, ringState_car]
    rfl
  constructor
  · obtain ⟨b, hb⟩ := forwardBlocks_keeps (slot := slot) (layer := h.layer) (s := keepRing h e (lateRing h e (ringState m h e s)).2)
      (r := heldRing h e false) (by rw [hm]; simp)
    exact ⟨b, hb⟩
  · intro r hr
    exact forwardBlocks_keeps (by rw [hm]; exact List.mem_append_left _ hr)

theorem ringBlock_damaged {m : MsgIn} {s : State} {h : RingHdr} {slot : Nat} {e : Seq} {d : Damage}
    (g : RingGets 1 m s h slot e) (h1 : expandWire s h.payload = .error d) :
    Completes (.ringBlock m) s fun t => t.car.ringMsgs = s.car.ringMsgs ∧ eventBit t .blockDamaged = true := by
  refine ⟨onRingBlock m s, rfl, ?_⟩
  dsimp only
  unfold onRingBlock
  rw [ringIn_ok g]
  have hx : expandWire (ringState m h e s) h.payload = .error d := by
    unfold expandWire codeTables at *
    rw [(ringState_parts m h e s).2 .cmp rfl]
    exact h1
  rw [hx]
  dsimp only
  constructor
  · rw [(blockDamaged_only (pts := [.cmp, .hif, .hlt, .status, .counters]) rfl d fromWire (Only.refl _ _)).2 .car rfl,
      ringState_car]
  · unfold blockDamaged damageFound
    dsimp only
    exact eventBit_raise_same _ _

theorem decodeSources_same {s t : State} (hp : t.pgm = s.pgm) (hw : t.stw = s.stw) (c : Ctx) (l : Nat) (e : Seq) (pos : Nat) :
    decodeSources t c l e pos = decodeSources s c l e pos := by
  have hd : descAt t = descAt s := by funext i; unfold descAt; rw [hp]
  unfold decodeSources issueK pageTokens
  rw [hd, hw]

/-- A PROBE in time at a member that holds a page to fold: it is held, and its query rows stand as the row that the items of the
layer read. -/
theorem probe_effect {m : MsgIn} {s : State} {h : RingHdr} {slot : Nat} {e : Seq} {c : Ctx}
    (g : RingGets 2 m s h slot e) (h1 : ctxOf s e.context = some c)
    (h2 : h.payload.length = c.gqa * c.nKv * c.headDim * c.qFormat.size) (h3 : e.isMember = true)
    (h4 : (h.step == stepNo s && pastCutoff s e.context h.layer (s.tmu.now - s.tmu.openedAt)) = false)
    (h5 : decodeSources s c h.layer e e.segEnd ≠ []) :
    Completes (.probe m) s fun t =>
      t.car.ringMsgs = s.car.ringMsgs ++ [heldRing { h with payload := [] } e false] ∧
      t.car.rows = s.car.rows.filter (fun x => !(x.handle == e.handle && x.layer == h.layer && x.noAppend)) ++
        [{ handle := e.handle, context := e.context, layer := h.layer, step := stepNo s, pos := h.firstPos, epoch := h.epoch
           submitter := m.source, prefill := false, noAppend := true, x := [], qr := bytesCodes c.qFormat h.payload
           rotated := true, placed := true }] := by
  refine ⟨onProbe m s, rfl, ?_⟩
  dsimp only
  unfold onProbe
  rw [ringIn_ok g]
  have hp := ringState_parts m h e s
  have hn : stepNo (ringState m h e s) = stepNo s := stepNo_same (hp.2 .tmu rfl)
  rw [ctxOf_same (hp.2 .mdl rfl), h1]
  dsimp only
  have hl : lateRing h e (ringState m h e s) = (stepNo s, ringState m h e s) := by
    rw [← hn]
    apply lateRing_intime
    rw [hn, pastCutoff_same (hp.mono rfl), hp.2 .tmu rfl]
    exact h4
  rw [if_neg (by rw [h2]; simp), h3, if_neg (by decide), swapCheck_car, hl]
  have ha : ∀ u : State, u.pgm = s.pgm → u.stw = s.stw → u.mdl = s.mdl → u.sqs = s.sqs → answerEmpty slot h.layer u = u := by
    intro u u1 u2 u3 u4
    unfold answerEmpty
    have : seqAt u slot = some e := by unfold seqAt; rw [u4]; exact g.entry
    rw [this]
    dsimp only
    rw [ctxOf_same u3, h1]
    dsimp only
    rw [decodeSources_same u1 u2, if_neg]
    cases hd : decodeSources s c h.layer e e.segEnd with
    | nil => exact absurd hd h5
    | cons a l => simp
  rw [ha]
  · constructor
    · show (ringState m h e s).car.ringMsgs ++ _ = _
      rw [ringState_car]
      rfl
    · show (ringState m h e s).car.rows.filter _ ++ _ = _
      rw [ringState_car]
  · exact hp.2 .pgm rfl
  · exact hp.2 .stw rfl
  · exact hp.2 .mdl rfl
  · exact hp.2 .sqs rfl

/-- Any PROBE at a member is held, late or not, with a page to fold or answered at once. -/
theorem probe_held {m : MsgIn} {s : State} {h : RingHdr} {slot : Nat} {e : Seq} {c : Ctx}
    (g : RingGets 2 m s h slot e) (h1 : ctxOf s e.context = some c)
    (h2 : h.payload.length = c.gqa * c.nKv * c.headDim * c.qFormat.size) (h3 : e.isMember = true) :
    Completes (.probe m) s fun t => t.car.ringMsgs = s.car.ringMsgs ++ [heldRing { h with payload := [] } e false] := by
  refine ⟨onProbe m s, rfl, ?_⟩
  dsimp only
  unfold onProbe
  rw [ringIn_ok g]
  rw [ctxOf_same ((ringState_parts m h e s).2 .mdl rfl), h1]
  dsimp only
  rw [if_neg (by rw [h2]; simp), h3, if_neg (by decide), swapCheck_car, answerEmpty_msgs]
  show (lateRing h e (ringState m h e s)).2.car.ringMsgs ++ _ = _
  rw [lateRing_msgs, ringState_car]
  rfl

theorem foldRecord_effect {m : MsgIn} {s : State} {h : RingHdr} {slot : Nat} {e : Seq} {c : Ctx}
    (g : RingGets 3 m s h slot e) (h1 : ctxOf s e.context = some c)
    (h2 : h.payload.length = c.gqa * c.nKv * foldHeadBytes (classN s) c.headDim) (h3 : classN s = true) :
    Completes (.foldRecord m) s fun t => t.car.ringMsgs = s.car.ringMsgs ++ [heldRing h e false] := by
  refine ⟨onFoldRecord m s, rfl, ?_⟩
  dsimp only
  unfold onFoldRecord
  rw [ringIn_ok g]
  rw [ctxOf_same ((ringState_parts m h e s).2 .mdl rfl), h1]
  dsimp only
  have hcl : classN (ringState m h e s) = classN s := classN_same ((ringState_parts m h e s).2 .stw rfl)
  obtain ⟨u, hu⟩ : ∃ u, u = answerEmpty slot h.layer (keepRing h e (lateRing h e (ringState m h e s)).2) := ⟨_, rfl⟩
  have hup : u.stw = s.stw := by
    rw [hu, (answerEmpty_only (pts := [.sqs, .slc, .pgm, .car, .fab, .wei, .hif, .hlt, .status, .counters, .free]) rfl slot h.layer
      (Only.refl _ _)).2 .stw rfl]
    show (lateRing h e (ringState m h e s)).2.stw = _
    rw [(lateRing_only (pts := [.sqs, .car, .mdl, .hif, .hlt, .status, .counters, .mem]) rfl h e (Only.refl _ _)).2 .stw rfl]
    exact (ringState_parts m h e s).2 .stw rfl
  have hf : ringF u e = false := by
    unfold ringF
    rw [classN_same hup, h3]; rfl
  rw [if_neg (by rw [h2, hcl]; simp), ← hu, hf, swapCheck_car]
  simp only [Bool.false_and, Bool.false_eq_true, if_false]
  rw [hu, answerEmpty_msgs]
  show (lateRing h e (ringState m h e s)).2.car.ringMsgs ++ _ = _
  rw [lateRing_msgs, ringState_car]
  rfl

/-- A ring message that has come before (R107). -/
theorem ring_duplicate {kind slot : Nat} {act : RingHdr → Nat → Seq → State → State} {m : MsgIn} {s : State} {h : RingHdr} {e : Seq}
    (h1 : takesFrom s m.source = true) (h2 : roleC s = true) (h3 : readRing kind m.bytes = some h)
    (h4 : entryNamed s m.source h.seq = some slot) (h5 : seqAt s slot = some e) (h6 : h.epoch = e.ownEpoch)
    (h7 : s.car.ringMsgs.any (fun r => r.handle == e.handle && r.layer == h.layer && r.step == h.step &&
      r.member == h.member && r.kind == kind && r.firstPos == h.firstPos) = true) :
    ringIn kind act m s = raise .ringDuplicate (bump cRingDup 1 (ringState m h e s)) := by
  unfold ringIn
  simp only [h1, h2, h3, h4, h5, Bool.not_true, Bool.false_eq_true, if_false]
  unfold ringEpoch
  rw [if_pos h6]
  dsimp only
  have hc : (consumeUnnumbered e.tenant m.source m.bytes s).car = s.car := (unnumbered_same _ _ _ s).2 .car rfl
  rw [hc, h7, if_pos rfl]
  unfold ringState
  dsimp only
  rw [hc]

theorem ringBlock_duplicate {m : MsgIn} {s : State} {h : RingHdr} {slot : Nat} {e : Seq}
    (h1 : takesFrom s m.source = true) (h2 : roleC s = true) (h3 : readRing 1 m.bytes = some h)
    (h4 : entryNamed s m.source h.seq = some slot) (h5 : seqAt s slot = some e) (h6 : h.epoch = e.ownEpoch)
    (h7 : s.car.ringMsgs.any (fun r => r.handle == e.handle && r.layer == h.layer && r.step == h.step &&
      r.member == h.member && r.kind == 1 && r.firstPos == h.firstPos) = true) :
    Completes (.ringBlock m) s fun t =>
      t.car.ringMsgs = s.car.ringMsgs ∧ eventBit t .ringDuplicate = true ∧
      min (counter s cRingDup + 1) sMax ≤ counter t cRingDup := by
  refine ⟨onRingBlock m s, rfl, ?_⟩
  dsimp only
  unfold onRingBlock
  rw [ring_duplicate h1 h2 h3 h4 h5 h6 h7]
  refine ⟨by rw [raise_car, bump_car, ringState_car], eventBit_raise_same _ _, ?_⟩
  rw [raise_counter, counter_bump_same]
  have hg : Grows s (consumeUnnumbered e.tenant m.source m.bytes s) := consumeUnnumbered_grows _ _ _ (Grows.refl _)
  have := hg.counters cRingDup
  have hr : counter (ringState m h e s) cRingDup = counter (consumeUnnumbered e.tenant m.source m.bytes s) cRingDup := rfl
  rw [hr]
  omega

/-- A ring message under an epoch that is neither the entry's nor a later one from a member of its ring is refused and counted: no
message is held, RING_EPOCH_STALE is raised (R107). -/
theorem ringBlock_stale {m : MsgIn} {s : State} {h : RingHdr} {slot : Nat} {e : Seq}
    (h1 : takesFrom s m.source = true) (h2 : roleC s = true) (h3 : readRing 1 m.bytes = some h)
    (h4 : entryNamed s m.source h.seq = some slot) (h5 : seqAt s slot = some e)
    (h6 : ringEpoch slot m.source h.epoch e (consumeUnnumbered e.tenant m.source m.bytes s) = none) :
    Completes (.ringBlock m) s fun t =>
      t.car = s.car ∧ eventBit t .ringEpochStale = true ∧ min (counter s cRingStale + 1) sMax ≤ counter t cRingStale := by
  refine ⟨onRingBlock m s, rfl, ?_⟩
  dsimp only
  unfold onRingBlock ringIn
  simp only [h1, h2, h3, h4, h5, Bool.not_true, Bool.false_eq_true, if_false, h6]
  obtain ⟨x, hx⟩ : ∃ x, x = raise .ringEpochStale (bump cRingStale 1 (consumeUnnumbered e.tenant m.source m.bytes s)) := ⟨_, rfl⟩
  rw [← hx]
  have hs := fun n h => sendReject_only (pts := [.sqs, .fab, .wei, .hlt]) rfl n h (Only.refl _ x)
  refine ⟨?_, ?_, ?_⟩
  · rw [(hs _ _).2 .car rfl, hx, raise_car, bump_car]
    exact (unnumbered_same _ _ _ s).2 .car rfl
  · unfold eventBit sqBits statusWord seqMode
    rw [(hs _ _).2 .status rfl, (hs _ _).2 .stw rfl, hx]
    exact eventBit_raise_same _ _
  · unfold counter counterRaw
    rw [(hs _ _).2 .counters rfl, hx]
    show _ ≤ counter (raise .ringEpochStale (bump cRingStale 1 _)) cRingStale
    rw [raise_counter, counter_bump_same]
    have hg : Grows s (consumeUnnumbered e.tenant m.source m.bytes s) := consumeUnnumbered_grows _ _ _ (Grows.refl _)
    have := hg.counters cRingStale
    unfold counter counterRaw at *
    omega

theorem ringSilenceTimeout_effect {slot member : Nat} {s : State} {e : Seq} (h1 : inService s = true) (h2 : roleC s = true)
    (h3 : seqAt s slot = some e) (h4 : e.isMember = false) (h5 : member + 1 < e.ringZ) (h6 : e.state ≠ .orphaned)
    (h7 : 2 ≤ Tab.getD s.car.ringSilent (e.handle * 64 + member) 0) :
    Completes (.ringSilenceTimeout slot member) s fun t =>
      eventBit t .ringMemberLost = true ∧
      (s.stw.charter.kvDurable ≠ 2 → ∀ r, recAt s slot = some r →
        seqAt t slot = some { e with source := r.owner, ownEpoch := nextEpoch r.epoch, state := .orphaned }) ∧
      (∀ n, s.stw.charter.kvDurable = 2 → (rendezvous (requestKey e.tenant e.requestId)
          ((ringSetMembers s).filter (fun n => !e.ringNodes.contains n))).head? = some n →
        seqAt t slot = some { e with ringNodes := e.ringNodes.set member n }) := by
  refine ⟨memberLost slot member s, ?_, ?_⟩
  · show execRingSilenceTimeout slot member s = _
    unfold execRingSilenceTimeout
    rw [h3]
    dsimp only
    rw [if_pos]
    have hz : 1 < e.ringZ := by omega
    have hst : (e.state != SeqState.orphaned) = true := by simpa using h6
    simp only [h1, h2, h4, hst, decide_eq_true hz, decide_eq_true h5, decide_eq_true h7, Bool.not_false, Bool.and_self]
  · unfold memberLost
    rw [h3]
    dsimp only
    have he : seqAt (raise .ringMemberLost s) slot = some e := by unfold seqAt at *; rw [raise_sqs]; exact h3
    have hm : ringSetMembers (raise .ringMemberLost s) = ringSetMembers s := by
      unfold ringSetMembers myEntry mapNow
      rw [raise_slc, raise_fab]
    rw [raise_stw, hm]
    refine ⟨?_, ?_, ?_⟩
    · split
      · exact eventBit_raise_same _ _
      · exact (enterOrphan_grows slot (Grows.refl _)).bits _ (eventBit_raise_same _ _)
    · intro hk r hr
      have hr' : recAt (raise .ringMemberLost s) slot = some r := by rw [recAt_same (raise_slc _ _), hr]
      split
      · rename_i hk2 _; exact absurd hk2 hk
      · exact (enterOrphan_at he hr').2.1
    · intro n hk hn
      rw [hk, hn]
      exact updSeq_at _ he

/-! ## Hidden states (R24) -/

theorem consumeNow_car (tenant source sseq : Nat) (bytes : List Byte) (s : State) :
    (consumeNow tenant source sseq bytes s).car = s.car := (consumeNow_parts _ _ _ _ s).2 .car rfl

theorem takeHidden_rows {h : Hidden} {offsetNs i : Nat} {e : Seq} {s : State} {x : List Nat} {pre resume : Bool}
    (h1 : h.rows[i]? = some x) (h2 : planned e (h.firstPos + i) = some (pre, resume))
    (h3 : rowAt s e.handle h.layer (h.firstPos + i) = none) :
    ∃ r ∈ (takeHidden h offsetNs e s).car.rows, r.handle = e.handle ∧ r.layer = h.layer ∧ r.pos = h.firstPos + i ∧ r.x = x ∧
      r.prefill = pre ∧ r.noAppend = resume ∧ r.submitter = h.source := by
  have hc : (hiddenStep h offsetNs e s).2.car = s.car :=
    (hiddenStep_only (pts := [.sqs, .mdl, .hif, .hlt, .status, .counters, .mem]) rfl h offsetNs e (Only.refl _ s)).2 .car rfl
  unfold takeHidden
  dsimp only
  refine ⟨{ handle := e.handle, context := e.context, layer := h.layer, step := (hiddenStep h offsetNs e s).1
            pos := h.firstPos + i, epoch := h.epoch, submitter := h.source, compEpoch := h.compEpoch, prefill := pre
            noAppend := resume, x := x }, ?_, rfl, rfl, rfl, rfl, rfl, rfl, rfl⟩
  refine List.mem_append_right _ ?_
  rw [List.mem_filterMap]
  refine ⟨(h.firstPos + i, x), ?_, ?_⟩
  · rw [List.mem_mapIdx]
    obtain ⟨hi, hx⟩ := List.getElem?_eq_some_iff.mp h1
    exact ⟨i, hi, by rw [hx]⟩
  · rw [h2]
    dsimp only
    rw [h3]
    rfl

theorem takeHidden_keeps {h : Hidden} {offsetNs : Nat} {e : Seq} {s : State} {r : RowWork} (hr : r ∈ s.car.rows) :
    r ∈ (takeHidden h offsetNs e s).car.rows := by
  have hc : (hiddenStep h offsetNs e s).2.car = s.car :=
    (hiddenStep_only (pts := [.sqs, .mdl, .hif, .hlt, .status, .counters, .mem]) rfl h offsetNs e (Only.refl _ s)).2 .car rfl
  unfold takeHidden
  dsimp only
  exact List.mem_append_left _ (by rw [hc]; exact hr)

theorem hiddenState_effect {offsetNs slot : Nat} {h : Hidden} {s : State} {e : Seq} {c : Ctx}
    (h1 : takesFrom s h.source = true) (h2 : roleC s = true) (h3 : entryNamed s h.source h.handle = some slot)
    (h4 : seqAt s slot = some e) (h5 : ctxOf s h.context = some c) (h6 : h.epoch = e.ownEpoch) (h7 : h.context = e.context)
    (h8 : h.layer < c.layers.length) (h9 : h.rows ≠ [] ∧ h.rows.length ≤ 512) (h10 : ∀ x ∈ h.rows, x.length = c.width)
    (h11 : h.damage = 0) :
    Completes (.hiddenState offsetNs h) s fun t =>
      (∀ r ∈ s.car.rows, r ∈ t.car.rows) ∧
      ∀ (i : Nat) (x : List Nat) (pre resume : Bool), h.rows[i]? = some x →
        planned e (h.firstPos + i) = some (pre, resume) → rowAt s e.handle h.layer (h.firstPos + i) = none →
        ∃ r ∈ t.car.rows, r.handle = e.handle ∧ r.layer = h.layer ∧ r.pos = h.firstPos + i ∧ r.x = x ∧
          r.prefill = pre ∧ r.noAppend = resume ∧ r.submitter = h.source := by
  obtain ⟨u, hu⟩ : ∃ u, u = consumeNow e.tenant h.source h.sseq ((h.rows.map (codesBytes c.actFormat)).flatten)
    (setNow (s.tmu.openedAt + offsetNs) s) := ⟨_, rfl⟩
  obtain ⟨v, hv⟩ : ∃ v, v = if e.isMember then u else
    updRec slot (fun r => if r.owner = h.source then { r with heard := true } else r) u := ⟨_, rfl⟩
  have hcar : v.car = s.car := by
    have huc : u.car = s.car := by rw [hu, consumeNow_car]; rfl
    rw [hv]
    split
    · exact huc
    · rw [← huc]
      exact (updRec_only (pts := [.sqs, .slc]) rfl slot _ (Only.refl _ u)).2 .car rfl
  refine ⟨swapCheck (takeHidden h offsetNs e v), ?_, ?_⟩
  · show execHiddenState offsetNs h s = _
    unfold execHiddenState
    have a1 : roleC (setNow (s.tmu.openedAt + offsetNs) s) = true := h2
    have a3 : entryNamed (setNow (s.tmu.openedAt + offsetNs) s) h.source h.handle = some slot := h3
    have a4 : seqAt (setNow (s.tmu.openedAt + offsetNs) s) slot = some e := h4
    have a5 : ctxOf (setNow (s.tmu.openedAt + offsetNs) s) h.context = some c := h5
    rw [h1]
    simp only [Bool.not_true, Bool.false_eq_true, if_false, a1, a3, a4, a5]
    rw [if_neg (by rw [h11]; simp)]
    have hlater : (e.isMember && epochLater h.epoch e.ownEpoch) = false := by
      rw [h6]; unfold epochLater; simp; omega
    simp only [hlater, Bool.false_eq_true, if_false, ← hu]
    have b : ¬ (h.context ≠ e.context ∨ c.layers.length ≤ h.layer ∨ h.rows.isEmpty = true ∨ 512 < h.rows.length ∨
        (h.rows.any fun r => r.length != c.width) = true) := by
      rintro (b | b | b | b | b)
      · exact b h7
      · omega
      · exact h9.1 (by simpa using b)
      · omega
      · obtain ⟨x, hx, hl⟩ := List.any_eq_true.mp b
        simp [h10 x hx] at hl
    rw [if_neg (by rw [h6]; simp), if_neg b, ← hv]
  · dsimp only
    rw [swapCheck_car]
    refine ⟨fun r hr => takeHidden_keeps (by rw [hcar]; exact hr), fun i x pre resume i1 i2 i3 => ?_⟩
    exact takeHidden_rows i1 i2 (by unfold rowAt at *; rw [hcar]; exact i3)

/-- A hidden state with a damaged block is discarded: BLOCK_DAMAGED, and no row is taken in (R246). -/
theorem hiddenState_damaged {offsetNs : Nat} {h : Hidden} {s : State} (h1 : takesFrom s h.source = true) (h2 : roleC s = true)
    (h3 : h.damage ≠ 0) :
    Completes (.hiddenState offsetNs h) s fun t => t.car = s.car ∧ t.sqs = s.sqs ∧ eventBit t .blockDamaged = true := by
  refine ⟨damageFound h.damage fromWire (setNow (s.tmu.openedAt + offsetNs) s), ?_, ?_, ?_, ?_⟩
  · show execHiddenState offsetNs h s = _
    unfold execHiddenState
    have a1 : roleC (setNow (s.tmu.openedAt + offsetNs) s) = true := h2
    rw [h1]
    simp only [Bool.not_true, Bool.false_eq_true, if_false, a1]
    rw [if_pos h3]
  · exact (damageFound_only (pts := [.cmp, .hif, .hlt, .status, .counters]) rfl h.damage fromWire (Only.refl _ _)).2 .car rfl
  · exact (damageFound_only (pts := [.cmp, .hif, .hlt, .status, .counters]) rfl h.damage fromWire (Only.refl _ _)).2 .sqs rfl
  · unfold damageFound
    dsimp only
    exact eventBit_raise_same _ _

end Sys2Proof.Machine
end

