-- ==== Sys2Proof/Laws/EffEdge.lean ====
section
/-! SUPPORT. What the commands do that end what the block began: images and flash (R305, R388, R392), windows (R268), table
builds (R238), pages and tiers (R246, R351), the exchange of hidden states (R43), the ring registers (R362 to R364), journal,
checkpoints and replay (R328 to R335), the step boundary (R57). -/

namespace Sys2Proof.Machine

open Sys2Proof.Safety

/-! ## The queue of flash writes (R378) -/

theorem settleFlash_front {n : Nat} {s : State} {q : List FlashWrite} (hq : s.stw.flashQueue = q)
    (h : ∀ e, q.head? ≠ some (.health e)) :
    (settleFlash n s).stw.flashQueue = q ∧ (settleFlash n s).stw.flash = s.stw.flash ∧
    ((∀ i, q.head? ≠ some (.charter i)) → (settleFlash n s).stw = s.stw) ∧
    (∀ i, n ≠ 0 → q.head? = some (.charter i) → (settleFlash n s).stw.charterState = 2) := by
  cases n with
  | zero => exact ⟨hq, rfl, fun _ => rfl, fun _ h _ => absurd rfl h⟩
  | succ n =>
    unfold settleFlash
    rw [hq]
    match q, h with
    | [], _ => exact ⟨hq, rfl, fun _ => rfl, fun _ _ h => by cases h⟩
    | .image a b :: t, _ => exact ⟨hq, rfl, fun _ => rfl, fun _ _ h => by cases h⟩
    | .charter a :: t, _ => exact ⟨hq, rfl, fun h => absurd rfl (h a), fun _ _ _ => rfl⟩
    | .health e :: t, h => exact absurd rfl (h e)

theorem queueFlash_front {w : FlashWrite} {s : State} (h : ∀ e, (s.stw.flashQueue ++ [w]).head? ≠ some (.health e)) :
    (queueFlash w s).stw.flashQueue = s.stw.flashQueue ++ [w] ∧ (queueFlash w s).stw.flash = s.stw.flash :=
  ⟨(settleFlash_front rfl h).1, (settleFlash_front rfl h).2.1⟩

theorem head_append {α : Type} {q : List α} {w x : α} (h1 : q.head? ≠ some x) (h2 : w ≠ x) : (q ++ [w]).head? ≠ some x := by
  cases q with
  | nil => simpa using h2
  | cons a t => simpa using h1

theorem updateDone_some {f : Ticket → State → State} {k : Ticket} {s : State} (h : s.sec.updTicket = some k) :
    updateDone f s = f k { s with sec := { s.sec with updTicket := none } } := by
  unfold updateDone; rw [h]

/-! ## Images (R304, R305) -/

theorem imageVerify_accepted {sigOk : Bool} {k : Ticket} {s : State} (h1 : inService s = true) (h2 : s.sec.upd = .verifying)
    (h3 : imageCause s (imageRead s) sigOk = 0) (h4 : s.sec.updTicket = some k) (h5 : k.ring < 64) (h6 : k.silent = false) :
    Completes (.imageVerifyComplete sigOk) s fun t =>
      t.sec = { s.sec with
        upd := .staged, staged := imageRead s, stageAt := none, stagedAt := s.tmu.now, updTicket := none } ∧ t.stw = s.stw ∧
      Answered k 0 0 0 0 0 s t := by
  obtain ⟨v, hv⟩ : ∃ v : State, v = { s with sec := { s.sec with
    upd := .staged, staged := imageRead s, stageAt := none, stagedAt := s.tmu.now } } := ⟨_, rfl⟩
  have he : exec (.imageVerifyComplete sigOk) s = .next (updateDone done v) := by
    rw [hv]
    show execImageVerifyComplete sigOk s = _
    unfold execImageVerifyComplete
    dsimp only
    rw [if_pos (by simp [h1, h2]), if_pos h3]
  refine ⟨_, he, ?_⟩
  rw [updateDone_some (k := k) (by rw [hv]; exact h4)]
  unfold done
  refine ⟨?_, ?_, answered_from h5 (.inl h6) (by rw [hv]; rfl) (by rw [hv])⟩
  · rw [complete_part (p := .sec) rfl, hv]
  · rw [complete_part (p := .stw) rfl, hv]

theorem imageVerify_refused {sigOk : Bool} {k : Ticket} {s : State} (h1 : inService s = true) (h2 : s.sec.upd = .verifying)
    (h3 : imageCause s (imageRead s) sigOk ≠ 0) (h4 : s.sec.updTicket = some k) (h5 : k.ring < 64) :
    Completes (.imageVerifyComplete sigOk) s fun t =>
      t.sec = { s.sec with
        upd := .failed, staged := [], stageAt := none, updCause := imageCause s (imageRead s) sigOk, updTicket := none } ∧
      eventBit t .imageRefused = true ∧ ∃ c, 1 ≤ c ∧ c ≤ 12 ∧ Answered k 1 c 0 0 0 s t := by
  have he : exec (.imageVerifyComplete sigOk) s = .next (updateDone (fun t s_ => refusedWith t ((freeBelow 12 s).1 + 1) s_)
      (refuseImage (imageCause s (imageRead s) sigOk) { (freeBelow 12 s).2 with
        sec := { (freeBelow 12 s).2.sec with upd := .failed, staged := [], stageAt := none } })) := by
    show execImageVerifyComplete sigOk s = _
    unfold execImageVerifyComplete
    dsimp only
    rw [if_pos (by simp [h1, h2]), if_neg h3]
  refine ⟨_, he, ?_⟩
  obtain ⟨c, u, hc⟩ : ∃ c u, freeBelow 12 s = (c, u) := ⟨_, _, rfl⟩
  have hu : u = { s with freeCtr := s.freeCtr + 1 } := ((Prod.mk.inj hc).2).symm
  have hl : c < 12 := by
    have := (Prod.mk.inj hc).1
    rw [← this]; exact Nat.mod_lt _ (by decide)
  rw [hc]
  dsimp only
  obtain ⟨v, hv⟩ : ∃ v : State, v = refuseImage (imageCause s (imageRead s) sigOk)
    { u with sec := { u.sec with upd := .failed, staged := [], stageAt := none } } := ⟨_, rfl⟩
  have v1 : v.sec = { s.sec with upd := .failed, staged := [], stageAt := none, updCause := imageCause s (imageRead s) sigOk } := by
    rw [hv, hu]; unfold refuseImage; rw [raise_sec]
  have v2 : SameRings s v := by
    rw [hv, hu]; exact raise_rings _ rfl
  have v3 : v.tmu = s.tmu := by
    rw [hv, hu]; unfold refuseImage; rw [raise_tmu]
  have v4 : eventBit v .imageRefused = true := by rw [hv]; exact eventBit_raise_same _ _
  rw [← hv, updateDone_some (k := k) (by rw [v1]; exact h4)]
  unfold refusedWith
  refine ⟨?_, ?_, c + 1, by omega, by omega, answered_from h5 (.inr (by decide)) v2 v3⟩
  · rw [complete_part (p := .sec) rfl]
    dsimp only
    rw [v1]
  · exact (complete_grows _ _ _ _ _ _ (Grows.put (Grows.refl v) rfl)).bits _ v4

theorem stagedImageTimeout_effect {s : State} (h1 : inService s = true) (h2 : s.sec.upd = .staged) :
    Completes .stagedImageTimeout s fun t =>
      t.sec = { s.sec with upd := .idle, staged := [] } ∧ t.tmu.now = max s.tmu.now (s.sec.stagedAt + 600000000000) := by
  unfold Completes
  simp only [exec, execStagedImageTimeout, h1, h2, beq_self_eq_true, Bool.and_self, if_true]
  exact ⟨_, rfl, rfl, rfl⟩

theorem firmwareSwitch_effect {k : Ticket} {s : State} (h1 : inService s = true) (h2 : s.sec.upd = .switching)
    (h3 : s.sec.updTicket = some k) (h4 : k.ring < 64) (h5 : k.silent = false)
    (h6 : ∀ e, s.stw.flashQueue.head? ≠ some (.health e)) :
    Completes .firmwareSwitchComplete s fun t =>
      t.sec.running = s.sec.staged ∧ t.sec.upd = .writingFlash ∧ t.sec.staged = [] ∧ t.sec.updTicket = none ∧
      t.sec.events = s.sec.events + 1 ∧
      t.sec.accumulated = sha384 (s.sec.accumulated ++ (le 4 5 ++ sha384 (s.sec.staged.take 176))) ∧
      t.stw.flashQueue = s.stw.flashQueue ++ [.image s.sec.staged false] ∧ t.stw.flash = s.stw.flash ∧
      eventBit t .firmwareSwitched = true ∧ Answered k 0 0 0 0 0 s t := by
  unfold Completes
  simp only [exec, execFirmwareSwitchComplete, h1, h2, beq_self_eq_true, Bool.and_self, if_true]
  refine ⟨_, rfl, ?_⟩
  obtain ⟨v, hv⟩ : ∃ v : State, v = raise .firmwareSwitched (logEvent 5 (sha384 (imageHead s.sec.staged))
    { s with sec := { s.sec with upd := .writingFlash, running := s.sec.staged, staged := [] } }) := ⟨_, rfl⟩
  have v1 : v.sec = (logEvent 5 (sha384 (imageHead s.sec.staged))
    { s with sec := { s.sec with upd := .writingFlash, running := s.sec.staged, staged := [] } }).sec := by
    rw [hv, raise_sec]
  have v2 : SameRings s v := by rw [hv]; exact raise_rings _ rfl
  have v3 : v.tmu = s.tmu := by rw [hv, raise_tmu]; rfl
  have v4 : eventBit v .firmwareSwitched = true := by rw [hv]; exact eventBit_raise_same _ _
  have v5 : v.stw = s.stw := by rw [hv, raise_stw]; rfl
  rw [← hv, updateDone_some (k := k) (by rw [v1]; exact h3)]
  unfold done
  obtain ⟨w, hw⟩ : ∃ w : State, w = complete k 0 0 0 0 0 { v with sec := { v.sec with updTicket := none } } := ⟨_, rfl⟩
  have w1 : w.sec = { v.sec with updTicket := none } := by rw [hw, complete_part (p := .sec) rfl]
  have w2 : w.stw = s.stw := by rw [hw, complete_part (p := .stw) rfl]; exact v5
  have w3 : Answered k 0 0 0 0 0 s w := by rw [hw]; exact answered_from h4 (.inl h5) v2 v3
  have w4 : eventBit w .firmwareSwitched = true := by
    rw [hw]; exact (complete_grows _ _ _ _ _ _ (Grows.put (Grows.refl v) rfl)).bits _ v4
  rw [← hw]
  have hq := queueFlash_front (w := .image s.sec.staged false) (s := w) (by
    intro e; rw [w2]; exact head_append (h6 e) (by simp))
  have ho := queueFlash_only (pts := [.stw]) rfl (.image s.sec.staged false) (Only.refl _ w)
  have hs : (queueFlash (.image s.sec.staged false) w).sec = w.sec := ho.2 .sec rfl
  rw [hs, w1, v1]
  refine ⟨rfl, rfl, rfl, rfl, rfl, rfl, ?_, ?_, ?_, ?_⟩
  · rw [hq.1, w2]
  · rw [hq.2, w2]
  · exact (queueFlash_grows _ (Grows.refl w)).bits _ w4
  · unfold Answered at w3 ⊢
    rw [readMem_of_mem (ho.2 .mem rfl)]
    exact w3

theorem flashWrite_done {bytes : List Byte} {rest : List FlashWrite} {s : State} (h1 : inService s = true)
    (h2 : s.stw.flashQueue = .image bytes false :: rest) (h3 : ∀ e, rest.head? ≠ some (.health e)) :
    Completes (.flashWriteComplete true) s fun t =>
      t.stw.flash = Tab.putRun imageBase bytes s.stw.flash ∧ t.stw.flashQueue = rest ∧
      t.sec = { s.sec with upd := .flashDone } := by
  unfold Completes
  simp only [exec, execFlashWriteComplete, h1, h2, Bool.not_true, Bool.false_eq_true, if_true, if_false]
  refine ⟨_, rfl, ?_⟩
  unfold popFlash
  have hq := settleFlash_front (n := (writeFlash imageBase bytes s).stw.flashQueue.length)
    (s := { writeFlash imageBase bytes s with stw := { (writeFlash imageBase bytes s).stw with
      flashQueue := (writeFlash imageBase bytes s).stw.flashQueue.drop 1 } }) (q := rest)
    (by show s.stw.flashQueue.drop 1 = rest; rw [h2]; rfl) h3
  refine ⟨hq.2.1, hq.1, ?_⟩
  dsimp only
  rw [(settleFlash_only (pts := [.stw]) rfl _ (Only.refl _ _)).2 .sec rfl]
  rfl

theorem flashWrite_recovery {bytes : List Byte} {rest : List FlashWrite} {s : State} (h1 : inService s = true)
    (h2 : s.stw.flashQueue = .image bytes true :: rest) (h3 : ∀ e, rest.head? ≠ some (.health e)) :
    Completes (.flashWriteComplete true) s fun t =>
      t.stw.flash = Tab.putRun imageBase bytes s.stw.flash ∧ t.stw.flashQueue = rest ∧ t.sec = s.sec ∧
      eventBit t .flashDone = true := by
  unfold Completes
  simp only [exec, execFlashWriteComplete, h1, h2, Bool.not_true, Bool.false_eq_true, if_true, if_false]
  refine ⟨_, rfl, ?_⟩
  have hq := settleFlash_front (n := (writeFlash imageBase bytes s).stw.flashQueue.length)
    (s := { writeFlash imageBase bytes s with stw := { (writeFlash imageBase bytes s).stw with
      flashQueue := (writeFlash imageBase bytes s).stw.flashQueue.drop 1 } }) (q := rest)
    (by show s.stw.flashQueue.drop 1 = rest; rw [h2]; rfl) h3
  refine ⟨?_, ?_, ?_, eventBit_raise_same _ _⟩
  · rw [raise_stw]; exact hq.2.1
  · rw [raise_stw]; exact hq.1
  · rw [raise_sec]
    unfold popFlash
    rw [(settleFlash_only (pts := [.stw]) rfl _ (Only.refl _ _)).2 .sec rfl]
    rfl

/-- What a broken write of an image leaves. -/
theorem breakFlash_image (bytes : List Byte) (r : Bool) (s : State) :
    ∃ k, k ≤ bytes.length ∧ breakFlash (.image bytes r) s =
      { s with freeCtr := s.freeCtr + 1, stw := { s.stw with
          flash := Tab.putRun imageBase (bytes.take k ++ List.replicate (bytes.length - k) 0xFF#8) s.stw.flash } } :=
  ⟨Config.freeNat s.freeCtr % (bytes.length + 1), Nat.le_of_lt_succ (Nat.mod_lt _ (Nat.succ_pos _)), rfl⟩

theorem breakFlash_charter (bytes : List Byte) (s : State) :
    ∃ k, k ≤ charterBytes ∧ breakFlash (.charter bytes) s =
      { s with freeCtr := s.freeCtr + 1, stw := { s.stw with
          flash := Tab.putRun charterBase (bytes.take k ++ List.replicate (charterBytes - k) 0xFF#8) s.stw.flash } } := by
  unfold breakFlash freeBelow writeFlash
  generalize charterBytes = n
  exact ⟨Config.freeNat s.freeCtr % (n + 1), Nat.le_of_lt_succ (Nat.mod_lt _ (Nat.succ_pos _)), rfl⟩

theorem flashWrite_failed {bytes : List Byte} {recovery : Bool} {rest : List FlashWrite} {s : State} (h1 : inService s = true)
    (h2 : s.stw.flashQueue = .image bytes recovery :: rest) (h3 : ∀ e, rest.head? ≠ some (.health e)) :
    Completes (.flashWriteComplete false) s fun t =>
      (∃ k, k ≤ bytes.length ∧ t.stw.flash = Tab.putRun imageBase
        (bytes.take k ++ List.replicate (bytes.length - k) 0xFF#8) s.stw.flash) ∧
      t.stw.flashQueue = rest ∧ t.sec = { s.sec with upd := .failed, updCause := 7 } := by
  unfold Completes
  simp only [exec, execFlashWriteComplete, h1, h2, Bool.not_true, Bool.false_eq_true, if_false]
  refine ⟨_, rfl, ?_⟩
  obtain ⟨k, hk, hb⟩ := breakFlash_image bytes recovery s
  rw [hb]
  have hq := fun n => settleFlash_front (n := n) (q := rest)
    (s := { s with freeCtr := s.freeCtr + 1, stw := { s.stw with
      flash := Tab.putRun imageBase (bytes.take k ++ List.replicate (bytes.length - k) 0xFF#8) s.stw.flash
      flashQueue := s.stw.flashQueue.drop 1 } })
    (by show s.stw.flashQueue.drop 1 = rest; rw [h2]; rfl) h3
  refine ⟨⟨k, hk, (hq _).2.1⟩, (hq _).1, ?_⟩
  dsimp only
  unfold popFlash
  rw [(settleFlash_only (pts := [.stw]) rfl _ (Only.refl _ _)).2 .sec rfl]

/-! ## The charter region (R388) -/

theorem charterWrite_accepted {placed : Placed} {s : State} (h1 : 2 ≤ s.stw.powerStep) (h2 : charterBusy s = false)
    (h3 : inHdm (charterSrc s) charterBytes = true) (h4 : ∀ e, s.stw.flashQueue.head? ≠ some (.health e)) :
    Completes (.charterWrite placed) s fun t =>
      t.stw.flashQueue = s.stw.flashQueue ++ [.charter (readMem (place placed s) (charterSrc s) charterBytes)] ∧
      t.stw.charterState = (if s.stw.flashQueue = [] then 2 else 1) ∧ t.stw.flash = s.stw.flash := by
  refine ⟨_, rfl, ?_⟩
  have hp := place_parts placed s
  have p1 : charterSrc (place placed s) = charterSrc s := by unfold charterSrc; rw [hp.2 .hif rfl]
  have p2 : charterBusy (place placed s) = false := by unfold charterBusy at h2 ⊢; rw [hp.2 .stw rfl]; exact h2
  have p3 : (place placed s).stw = s.stw := hp.2 .stw rfl
  rw [if_pos (show stwOn s = true from by unfold stwOn; simpa using h1)]
  dsimp only
  rw [p1]
  unfold doCharterWrite
  rw [if_neg (by simp [p2, h3])]
  generalize readMem (place placed s) (charterSrc s) charterBytes = img
  have hh : ∀ e, (s.stw.flashQueue ++ [FlashWrite.charter img]).head? ≠ some (.health e) :=
    fun e => head_append (h4 e) (by simp)
  have hq := settleFlash_front (n := s.stw.flashQueue.length + 1)
    (s := { place placed s with stw := { s.stw with charterState := 1, flashQueue := s.stw.flashQueue ++ [.charter img] } })
    rfl hh
  have he : queueFlash (.charter img) { place placed s with stw := { (place placed s).stw with charterState := 1 } } =
      settleFlash (s.stw.flashQueue.length + 1)
        { place placed s with stw := { s.stw with charterState := 1, flashQueue := s.stw.flashQueue ++ [.charter img] } } := by
    unfold queueFlash
    rw [p3]
  rw [he]
  refine ⟨hq.1, ?_, hq.2.1⟩
  by_cases hn : s.stw.flashQueue = []
  · rw [if_pos hn]
    exact hq.2.2.2 img (Nat.succ_ne_zero _) (by rw [hn]; rfl)
  · rw [if_neg hn]
    have : ∀ i, (s.stw.flashQueue ++ [FlashWrite.charter img]).head? ≠ some (.charter i) := by
      intro i hi
      cases hf : s.stw.flashQueue with
      | nil => exact hn hf
      | cons a t =>
        rw [hf] at hi
        have ha : a = .charter i := by simpa using hi
        unfold charterBusy at h2
        rw [hf, ha] at h2
        simp at h2
    rw [hq.2.2.1 this]

theorem charterWrite_refused {placed : Placed} {s : State} (h1 : 2 ≤ s.stw.powerStep)
    (h2 : charterBusy s = true ∨ inHdm (charterSrc s) charterBytes = false) :
    Completes (.charterWrite placed) s fun t =>
      t.stw = { s.stw with charterState := 4 } ∧ eventBit t .charterFailed = true := by
  refine ⟨_, rfl, ?_⟩
  have hp := place_parts placed s
  have p1 : charterSrc (place placed s) = charterSrc s := by unfold charterSrc; rw [hp.2 .hif rfl]
  have p2 : charterBusy (place placed s) = charterBusy s := by unfold charterBusy; rw [hp.2 .stw rfl]
  have p3 : (place placed s).stw = s.stw := hp.2 .stw rfl
  rw [if_pos (show stwOn s = true from by unfold stwOn; simpa using h1)]
  dsimp only
  rw [p1]
  unfold doCharterWrite
  rw [if_pos (by rw [p2]; rcases h2 with h2 | h2 <;> simp [h2])]
  refine ⟨?_, eventBit_raise_same _ _⟩
  unfold charterFailed
  rw [raise_stw]
  dsimp only
  rw [p3]

theorem charterWriteComplete_at {ok : Bool} {image : List Byte} {rest : List FlashWrite} {s : State}
    (h1 : s.stw.flashQueue = .charter image :: rest) : exec (.charterWriteComplete ok) s = .next (if ok then
      popFlash (raise .charterDone (writeFlash charterBase image { s with stw := { s.stw with charterState := 3 } }))
    else popFlash (charterFailed (breakFlash (.charter image) s))) := by
  show execCharterWriteComplete ok s = _
  unfold execCharterWriteComplete
  split
  · rename_i i t e
    rw [h1] at e
    cases e
    cases ok <;> rfl
  · rename_i e
    exact absurd h1 (e _ _)

theorem charterWriteComplete_ok {image : List Byte} {rest : List FlashWrite} {s : State}
    (h1 : s.stw.flashQueue = .charter image :: rest) (h2 : ∀ e, rest.head? ≠ some (.health e))
    (h3 : ∀ i, rest.head? ≠ some (.charter i)) :
    Completes (.charterWriteComplete true) s fun t =>
      t.stw = { s.stw with
        flash := Tab.putRun charterBase image s.stw.flash, flashQueue := rest, charterState := 3 } ∧
      eventBit t .charterDone = true := by
  refine ⟨_, charterWriteComplete_at h1, ?_⟩
  rw [if_pos rfl]
  obtain ⟨v, hv⟩ : ∃ v : State, v = raise .charterDone (writeFlash charterBase image { s with stw := { s.stw with
      charterState := 3 } }) := ⟨_, rfl⟩
  have v1 : v.stw = { s.stw with flash := Tab.putRun charterBase image s.stw.flash, charterState := 3 } := by
    rw [hv, raise_stw]; rfl
  have v2 : eventBit v .charterDone = true := by rw [hv]; exact eventBit_raise_same _ _
  rw [← hv]
  refine ⟨?_, (popFlash_grows (Grows.refl v)).bits _ v2⟩
  unfold popFlash
  have hq := settleFlash_front (n := v.stw.flashQueue.length) (q := rest)
    (s := { v with stw := { v.stw with flashQueue := v.stw.flashQueue.drop 1 } })
    (by show v.stw.flashQueue.drop 1 = rest; rw [v1]; show s.stw.flashQueue.drop 1 = rest; rw [h1]; rfl) h2
  rw [hq.2.2.1 h3]
  dsimp only
  rw [v1]
  dsimp only
  rw [h1]
  rfl

theorem charterWriteComplete_failed {image : List Byte} {rest : List FlashWrite} {s : State}
    (h1 : s.stw.flashQueue = .charter image :: rest) (h2 : ∀ e, rest.head? ≠ some (.health e))
    (h3 : ∀ i, rest.head? ≠ some (.charter i)) :
    Completes (.charterWriteComplete false) s fun t =>
      t.stw.flashQueue = rest ∧ t.stw.charterState = 4 ∧ eventBit t .charterFailed = true ∧
      ∃ k, k ≤ charterBytes ∧ t.stw.flash = Tab.putRun charterBase
        (image.take k ++ List.replicate (charterBytes - k) 0xFF#8) s.stw.flash := by
  refine ⟨_, charterWriteComplete_at h1, ?_⟩
  rw [if_neg (by decide)]
  obtain ⟨k, hk, hb⟩ := breakFlash_charter image s
  generalize charterBytes = n at *
  obtain ⟨v, hv⟩ : ∃ v : State, v = charterFailed (breakFlash (.charter image) s) := ⟨_, rfl⟩
  have v1 : v.stw = { s.stw with
      flash := Tab.putRun charterBase (image.take k ++ List.replicate (n - k) 0xFF#8) s.stw.flash, charterState := 4 } := by
    rw [hv, hb]; unfold charterFailed; rw [raise_stw]
  have v2 : eventBit v .charterFailed = true := by rw [hv]; exact eventBit_raise_same _ _
  rw [← hv]
  have hg := (popFlash_grows (Grows.refl v)).bits _ v2
  have hq := settleFlash_front (n := v.stw.flashQueue.length) (q := rest)
    (s := { v with stw := { v.stw with flashQueue := v.stw.flashQueue.drop 1 } })
    (by show v.stw.flashQueue.drop 1 = rest; rw [v1]; show s.stw.flashQueue.drop 1 = rest; rw [h1]; rfl) h2
  have hs : (popFlash v).stw = { v.stw with flashQueue := v.stw.flashQueue.drop 1 } := hq.2.2.1 h3
  refine ⟨hq.1, ?_, hg, k, hk, ?_⟩
  · rw [hs, v1]
  · rw [hs, v1]

/-! ## Journal and checkpoints (R328 to R330, R336) -/

theorem journalTailWrite_effect {value : Word} {s : State} (h1 : inService s = true) (h2 : s.stw.charter.replay = 0) :
    Completes (.journalTailWrite value) s fun t => ∃ held, t = { s with hlt := { s.hlt with
        jTail := bitsOf value.toNat 25 0, jHeld := held } } ∧ ∀ r ∈ held, r ∈ s.hlt.jHeld := by
  unfold Completes
  simp only [exec, execJournalTailWrite, h1, h2, beq_self_eq_true, Bool.and_self, if_true]
  exact ⟨_, rfl, _, rfl, fun r hr => (List.mem_filter.1 hr).1⟩

theorem journalTailWrite_replay {value : Word} {s : State} (h1 : s.stw.charter.replay = 1) :
    Completes (.journalTailWrite value) s fun t => t = s := by
  unfold Completes
  simp only [exec, execJournalTailWrite, h1]
  exact ⟨_, by rw [if_neg (by simp)], rfl⟩

theorem journalHeadWrite_effect {value : Word} {placed : Placed} {s : State} (h1 : inService s = true)
    (h2 : s.stw.charter.replay = 1) (h3 : s.hlt.starved = false) :
    Completes (.journalHeadWrite value placed) s fun t =>
      t = { place placed s with hlt := { s.hlt with jHead := bitsOf value.toNat 25 0 } } := by
  have hp := place_parts placed s
  have p1 : inService (place placed s) = true := by rw [place_inService]; exact h1
  have p2 : (place placed s).stw.charter.replay = 1 := by rw [hp.2 .stw rfl]; exact h2
  have p3 : (place placed s).hlt = s.hlt := hp.2 .hlt rfl
  unfold Completes
  simp only [exec, execJournalHeadWrite, p1, p2, beq_self_eq_true, Bool.and_self, if_true]
  refine ⟨_, rfl, ?_⟩
  unfold supplyJournal
  dsimp only
  rw [if_neg (by rw [p3, h3]; decide), p3]

theorem ckptTailWrite_effect {value : Word} {s : State} (h1 : inService s = true) :
    Completes (.ckptTailWrite value) s fun t =>
      t = { s with hlt := { s.hlt with ckptTail := bitsOf value.toNat 25 0 } } := by
  unfold Completes
  simp only [exec, execCkptTailWrite, h1, if_true]
  exact ⟨_, rfl, rfl⟩

/-! ## Replay (R334, R335) -/

theorem replayStep_diverges {rs : List JRec} {tail n : Nat} {r : JRec} {s : State} (h1 : inService s = true)
    (h2 : s.stw.charter.replay = 1) (h3 : s.hlt.replaying = true) (h4 : nextStep s = some (rs, tail))
    (h5 : stepMismatch s rs = some (r, n)) :
    Completes .replayStepComplete s fun t =>
      t.hlt = { s.hlt with
        jTail := tail % journalUnits s, replaying := false, halted := true
        div := le 6 (s.tmu.boundary.getD 0) ++ le 1 r.kind ++ zeros 1 ++ le 4 n ++ le 4 r.jseq } ∧
      eventBit t .replayDiverged = true := by
  unfold Completes
  simp only [exec, execReplayStepComplete, h1, h2, h3, beq_self_eq_true, Bool.and_self, if_true]
  refine ⟨_, rfl, ?_⟩
  unfold endRecorded
  rw [h4]
  dsimp only
  rw [h5]
  dsimp only
  refine ⟨?_, eventBit_raise_same _ _⟩
  unfold diverge
  rw [raise_hlt]
  rfl

theorem replayStep_starves {rs : List JRec} {tail : Nat} {s : State} (h1 : inService s = true)
    (h2 : s.stw.charter.replay = 1) (h3 : s.hlt.replaying = true) (h4 : nextStep s = some (rs, tail))
    (h5 : stepMismatch s rs = none) (h6 : s.hlt.halted = false) (h7 : s.hlt.starved = false)
    (h8 : nextStep (passStep tail s) = none) :
    Completes .replayStepComplete s fun t =>
      t.hlt = { s.hlt with jTail := tail % journalUnits s, replaying := false, starved := true } ∧
      eventBit t .replayStarved = true := by
  unfold Completes
  simp only [exec, execReplayStepComplete, h1, h2, h3, beq_self_eq_true, Bool.and_self, if_true]
  refine ⟨_, rfl, ?_⟩
  unfold endRecorded
  rw [h4]
  dsimp only
  rw [h5]
  dsimp only
  have hf : replayFuel (passStep tail s) = unreadUnits (passStep tail s) + 1 := Nat.add_comm _ _
  rw [hf]
  unfold openReplay
  rw [if_neg (by show ¬ (s.hlt.halted || false) = true; simp [h6]), h8]
  dsimp only
  unfold starve
  rw [if_neg (by show ¬ s.hlt.starved = true; simp [h7])]
  refine ⟨?_, eventBit_raise_same _ _⟩
  rw [raise_hlt]
  rfl

/-! ## The registers of a ring (R362 to R364) -/

theorem ringCtrl_starts {ring : Nat} {value : Word} {s : State} (h1 : inService s = true) (h2 : ring < 64)
    (h3 : (ringOf s ring).enabled = false) (h4 : bitOf value.toNat 31 = true) :
    Completes (.ringCtrlWrite ring value) s fun t => t = setRing ring { ringOf s ring with
      ctrl := value.toNat / 2 ^ 16 % 2 ^ 16 * 2 ^ 16, error := false, sqHead := 0, sqTail := 0, cqHead := 0, cqTail := 0
      phase := true, held := 0 } s := by
  unfold Completes
  simp only [exec, execRingCtrlWrite, h1, h2, decide_true, Bool.and_self, if_true]
  refine ⟨_, rfl, ?_⟩
  unfold ringControl
  dsimp only
  rw [if_neg (by simp [h3]), if_pos h4]

theorem ringCtrl_configures {ring : Nat} {value : Word} {s : State} (h1 : inService s = true) (h2 : ring < 64)
    (h3 : (ringOf s ring).enabled = false) (h4 : bitOf value.toNat 31 = false) :
    Completes (.ringCtrlWrite ring value) s fun t =>
      t = setRing ring { ringOf s ring with ctrl := value.toNat / 2 ^ 16 % 2 ^ 16 * 2 ^ 16 } s := by
  unfold Completes
  simp only [exec, execRingCtrlWrite, h1, h2, decide_true, Bool.and_self, if_true]
  refine ⟨_, rfl, ?_⟩
  unfold ringControl
  dsimp only
  rw [if_neg (by simp [h3]), if_neg (by simp [h4])]

theorem ringCtrl_stops {ring : Nat} {value : Word} {s : State} (h1 : inService s = true) (h2 : ring < 64)
    (h3 : (ringOf s ring).enabled = true) (h4 : bitOf value.toNat 31 = false) :
    Completes (.ringCtrlWrite ring value) s fun t =>
      t = setRing ring { ringOf s ring with ctrl := (ringOf s ring).ctrl % 2 ^ 31 } s := by
  unfold Completes
  simp only [exec, execRingCtrlWrite, h1, h2, decide_true, Bool.and_self, if_true]
  refine ⟨_, rfl, ?_⟩
  unfold ringControl
  dsimp only
  rw [if_pos (by simp [h3]), if_neg (by simp [h4])]

theorem ringCtrl_locked {ring : Nat} {value : Word} {s : State} (h1 : inService s = true) (h2 : ring < 64)
    (h3 : (ringOf s ring).enabled = true) (h4 : bitOf value.toNat 31 = true) :
    Completes (.ringCtrlWrite ring value) s fun t => t = s := by
  unfold Completes
  simp only [exec, execRingCtrlWrite, h1, h2, decide_true, Bool.and_self, if_true]
  refine ⟨_, rfl, ?_⟩
  unfold ringControl
  dsimp only
  rw [if_pos (by simp [h3]), if_pos h4]

/-- A ring with no entry before its tail, stopped or disabled, takes nothing. -/
theorem canTake_idle {s : State} {r : Nat} (h : (ringOf s r).sqHead = (ringOf s r).sqTail ∨ (ringOf s r).enabled = false ∨
    (ringOf s r).error = true) : canTake s r = false := by
  unfold canTake
  dsimp only
  rcases h with h | h | h <;> simp [h]

theorem cqHeadWrite_effect {ring head : Nat} {s : State} (h1 : inService s = true) (h2 : ring < 64)
    (h3 : (ringOf s ring).sqHead = (ringOf s ring).sqTail) :
    Completes (.cqHeadWrite ring head) s fun t => t = setRing ring { ringOf s ring with
      cqHead := head % 4096
      held := (ringOf s ring).held -
        (head % 4096 + (ringOf s ring).size - (ringOf s ring).cqHead % (ringOf s ring).size) % (ringOf s ring).size } s := by
  unfold Completes
  simp only [exec, execCqHeadWrite, h1, h2, decide_true, Bool.and_self, if_true]
  refine ⟨_, rfl, ?_⟩
  unfold consumed
  dsimp only
  rw [serveRing_stop (canTake_idle (.inl (by rw [ringOf_setRing_same]; exact h3)))]

theorem sqDoorbell_error {at_ ring tail : Nat} {placed : Placed} {s : State} (h1 : inService s = true) (h2 : ring < 64)
    (h3 : (ringOf s ring).enabled = true) (h4 : (ringOf s ring).error = false) (h5 : (ringOf s ring).size ≤ tail % 8192) :
    Completes (.sqDoorbell at_ ring tail placed) s fun t =>
      ringOf t ring = { ringOf s ring with sqTail := tail % 8192, error := true } ∧ eventBit t .ringError = true := by
  unfold Completes
  simp only [exec, execSqDoorbell, h1, h2, decide_true, Bool.and_self, if_true]
  refine ⟨_, rfl, ?_⟩
  have hr : ringOf (place placed (setNow at_ s)) ring = ringOf s ring := by
    unfold ringOf; rw [(place_parts placed (setNow at_ s)).2 .hif rfl]; rfl
  unfold doorbell
  dsimp only
  rw [hr, if_pos (by simp [h3, h4, h5])]
  refine ⟨?_, eventBit_raise_same _ _⟩
  rw [ringOf_of (raise_rings _ (SameRings.refl _)), ringOf_setRing_same]

theorem sqDoorbell_nothing {at_ ring tail : Nat} {placed : Placed} {s : State} (h1 : inService s = true) (h2 : ring < 64)
    (h3 : (ringOf s ring).error = true ∨ (ringOf s ring).enabled = false ∨
      (ringOf s ring).sqHead = tail % 8192 ∧ tail % 8192 < (ringOf s ring).size) :
    Completes (.sqDoorbell at_ ring tail placed) s fun t =>
      t = setRing ring { ringOf s ring with sqTail := tail % 8192 } (place placed (setNow at_ s)) := by
  unfold Completes
  simp only [exec, execSqDoorbell, h1, h2, decide_true, Bool.and_self, if_true]
  refine ⟨_, rfl, ?_⟩
  have hr : ringOf (place placed (setNow at_ s)) ring = ringOf s ring := by
    unfold ringOf; rw [(place_parts placed (setNow at_ s)).2 .hif rfl]; rfl
  unfold doorbell
  dsimp only
  rw [hr, if_neg (by rcases h3 with h3 | h3 | h3 <;> simp [h3]), serveRing_stop (canTake_idle ?_)]
  rw [ringOf_setRing_same]
  rcases h3 with h3 | h3 | h3
  · exact .inr (.inr h3)
  · exact .inr (.inl h3)
  · exact .inl h3.1

/-! ## Windows (R268 to R270) -/

/-- The record of a window that has closed. -/
theorem revocation_closes {window : Nat} {s : State} (h1 : 256 ≤ window) (h2 : (windowOf s window).state = .revoking)
    (h3 : (windowOf s window).ticket = none) :
    Completes (.revocationComplete window) s fun t => t = setWindow window { windowOf s window with
      state := .closed, closedAt := s.tmu.now, ticket := none, reopen := none } s := by
  refine ⟨_, rfl, ?_⟩
  rw [if_pos h1]
  unfold finishRevoke
  simp only [h2, h3, bne_self_eq_false, Bool.false_eq_true, if_false]

theorem windowOf_complete {k : Ticket} {status cause reason r0 r1 w : Nat} {s : State} :
    windowOf (complete k status cause reason r0 r1 s) w = windowOf s w := by
  unfold windowOf; rw [complete_part (p := .fab) rfl]

theorem revocation_answers {window : Nat} {k : Ticket} {s : State} (h1 : 256 ≤ window)
    (h2 : (windowOf s window).state = .revoking) (h3 : (windowOf s window).ticket = some k)
    (h4 : (windowOf s window).reopen = none) (h5 : k.ring < 64) (h6 : k.silent = false) :
    Completes (.revocationComplete window) s fun t =>
      windowOf t window = { windowOf s window with
        state := .closed, closedAt := s.tmu.now, ticket := none, reopen := none } ∧ Answered k 0 0 0 0 0 s t := by
  refine ⟨_, rfl, ?_⟩
  rw [if_pos h1]
  unfold finishRevoke
  simp only [h2, h3, h4, bne_self_eq_false, Bool.false_eq_true, if_false]
  unfold done
  refine ⟨?_, answered_from h5 (.inl h6) rfl rfl⟩
  rw [windowOf_complete, windowOf_setWindow h1]

theorem revocation_reopens {window : Nat} {k : Ticket} {o : WinOps} {s : State} (h1 : 256 ≤ window)
    (h2 : (windowOf s window).state = .revoking) (h3 : (windowOf s window).ticket = some k)
    (h4 : (windowOf s window).reopen = some o) (h5 : k.ring < 64) (h6 : k.silent = false)
    (h7 : winRefusal s (windowOf s window).dike o = none) :
    Completes (.revocationComplete window) s fun t =>
      windowOf t window = { windowOf s window with
        key := o.key, desc := o.desc, descGen := o.descGen, state := .opened, rights := o.rights, ring := o.ring
        base := o.base, length := o.length, openedAt := some s.tmu.now, ticket := none, reopen := none } ∧
      Answered k 0 0 0 (window + (windowOf s window).gen * 2 ^ 32) 0 s t := by
  refine ⟨_, rfl, ?_⟩
  rw [if_pos h1]
  unfold finishRevoke
  simp only [h2, h3, h4, h7, bne_self_eq_false, Bool.false_eq_true, if_false]
  unfold openedResult doneWith openAs
  rw [windowOf_setWindow h1]
  refine ⟨?_, answered_from h5 (.inl h6) rfl rfl⟩
  rw [windowOf_complete, windowOf_setWindow h1]

theorem revocation_refused {window c : Nat} {k : Ticket} {o : WinOps} {s : State} (h1 : 256 ≤ window)
    (h2 : (windowOf s window).state = .revoking) (h3 : (windowOf s window).ticket = some k)
    (h4 : (windowOf s window).reopen = some o) (h5 : k.ring < 64)
    (h6 : winRefusal s (windowOf s window).dike o = some c) :
    Completes (.revocationComplete window) s fun t =>
      windowOf t window = { windowOf s window with
        state := .closed, closedAt := s.tmu.now, ticket := none, reopen := none } ∧ Answered k 1 c 0 0 0 s t := by
  refine ⟨_, rfl, ?_⟩
  rw [if_pos h1]
  unfold finishRevoke
  simp only [h2, h3, h4, h6, bne_self_eq_false, Bool.false_eq_true, if_false]
  unfold refusedWith
  refine ⟨?_, answered_from h5 (.inr (by decide)) rfl rfl⟩
  rw [windowOf_complete, windowOf_setWindow h1]

theorem reopenDelay_effect {at_ window : Nat} {k : Ticket} {o : WinOps} {s : State} (h1 : 256 ≤ window)
    (h2 : (windowOf s window).state = .opened) (h3 : (windowOf s window).ticket = some k)
    (h4 : (windowOf s window).reopen = some o) (h5 : (windowOf s window).openedAt.getD 0 + 500000 ≤ max s.tmu.now at_)
    (h6 : winRefusal s (windowOf s window).dike o = none) :
    Completes (.reopenDelayExpired at_ window) s fun t => t = setWindow window { windowOf s window with
      state := .revoking, gen := ((windowOf s window).gen + 1) % 4096, revoked := true
      revokedAt := max s.tmu.now at_, fenced := [] } (setNow at_ s) := by
  have hw : windowOf (setNow at_ s) window = windowOf s window := rfl
  have h7 : winRefusal (setNow at_ s) (windowOf s window).dike o = none := by rw [winRefusal_same rfl]; exact h6
  unfold Completes
  simp only [exec, execReopenDelayExpired, hw, h2, h3, h4, h7]
  refine ⟨_, by rw [if_pos ⟨h1, h5⟩], ?_⟩
  unfold beginRevoke
  dsimp only
  rw [hw]
  rfl

theorem reopenDelay_refused {at_ window c : Nat} {k : Ticket} {o : WinOps} {s : State} (h1 : 256 ≤ window)
    (h2 : (windowOf s window).state = .opened) (h3 : (windowOf s window).ticket = some k)
    (h4 : (windowOf s window).reopen = some o) (h5 : (windowOf s window).openedAt.getD 0 + 500000 ≤ max s.tmu.now at_)
    (h6 : winRefusal s (windowOf s window).dike o = some c) (h7 : k.ring < 64) :
    Completes (.reopenDelayExpired at_ window) s fun t =>
      windowOf t window = { windowOf s window with ticket := none, reopen := none } ∧ Answered k 1 c 0 0 0 (setNow at_ s) t := by
  have hw : windowOf (setNow at_ s) window = windowOf s window := rfl
  have h8 : winRefusal (setNow at_ s) (windowOf s window).dike o = some c := by rw [winRefusal_same rfl]; exact h6
  unfold Completes
  simp only [exec, execReopenDelayExpired, hw, h2, h3, h4, h8]
  refine ⟨_, by rw [if_pos ⟨h1, h5⟩], ?_⟩
  unfold refusedWith
  refine ⟨?_, answered_from h7 (.inr (by decide)) rfl rfl⟩
  rw [windowOf_complete, windowOf_setWindow h1]

/-! ## Table builds (R238) -/

theorem acctOf_charge (d k n : Nat) (s : State) : acctOf (charge d k n s) d = (acctOf s d).add k n := by
  unfold charge
  dsimp only
  have h : ∀ old new b o (u : State), acctOf (wEvent old new b o u) d = acctOf u d := by
    intro old new b o u
    unfold acctOf
    rw [wEvent_hlt]
  rw [h, h]
  unfold acctOf setAcct
  simp

theorem chargeTier_rings {s0 s : State} (x) (d) (n) (h : SameRings s0 s) : SameRings s0 (chargeTier x d n s) := by
  unfold chargeTier
  split
  · exact charge_rings _ _ _ h
  · exact charge_rings _ _ _ h
  · exact h

theorem buildTableComplete_effect {k : Ticket} {layout source length result : Nat}
    {rest : List (Ticket × Nat × Nat × Nat × Nat)} {s : State} (h1 : inService s = true)
    (h2 : s.cmp.build = (k, layout, source, length, result) :: rest) (h3 : k.ring < 64) (h4 : k.silent = false) :
    Completes .buildTableComplete s fun t =>
      t.cmp = { s.cmp with build := rest, tableResult := 2 ^ 28 } ∧ eventBit t .tableCommand = true ∧
      acctOf t 0 = (if inHdm source length then (acctOf s 0).add 3 length else (acctOf s 0).add 4 (cdiv length 256 * 256)) ∧ Answered k 0 0 0 0 0 s t ∧
      ∃ u, t = complete k 0 0 0 0 0 u ∧
        readMem u result (buildTableRecord layout (readMem s source length)).length =
          buildTableRecord layout (readMem s source length) := by
  unfold Completes
  simp only [exec]
  unfold execBuildTableComplete
  rw [h2]
  dsimp only
  rw [if_neg (by simp [h1])]
  refine ⟨_, rfl, ?_⟩
  obtain ⟨v, hv⟩ : ∃ v : State, v = chargeTier (if inHdm source length then .gddr else .cxl) 0 length { s with cmp := { s.cmp with build := rest } } :=
    ⟨_, rfl⟩
  have hp := chargeTier_only (pts := [.hif, .hlt, .status]) rfl (if inHdm source length then .gddr else .cxl) 0 length
    (Only.refl _ { s with cmp := { s.cmp with build := rest } })
  rw [← hv] at hp
  have v1 : v.cmp = { s.cmp with build := rest } := hp.2 .cmp rfl
  have v2 : readMem v source length = readMem s source length := readMem_of_mem (hp.2 .mem rfl) _ _
  have v3 : v.tmu = s.tmu := hp.2 .tmu rfl
  have v4 : SameRings s v := by rw [hv]; exact chargeTier_rings _ _ _ rfl
  have v5 : acctOf v 0 = (if inHdm source length then (acctOf s 0).add 3 length else (acctOf s 0).add 4 (cdiv length 256 * 256)) := by
    rw [hv]
    split
    · exact acctOf_charge 0 3 length _
    · exact acctOf_charge 0 4 (cdiv length 256 * 256) _
  rw [← hv, v2]
  obtain ⟨bs, hbs⟩ : ∃ bs, bs = buildTableRecord layout (readMem s source length) := ⟨_, rfl⟩
  rw [← hbs]
  obtain ⟨w, hw⟩ : ∃ w : State, w = raise .tableCommand (tableResult 1 0 0 (writeMem result bs v)) := ⟨_, rfl⟩
  have w1 : w.cmp = { s.cmp with build := rest, tableResult := 2 ^ 28 } := by
    rw [hw, raise_cmp]
    show { v.cmp with tableResult := 1 * 2 ^ 28 + 0 * 2 ^ 20 + 0 % 256 } = _
    rw [v1]
    rfl
  have w2 : SameRings s w := by rw [hw]; exact raise_rings _ v4
  have w3 : w.tmu = s.tmu := by rw [hw, raise_tmu]; exact v3
  have w4 : eventBit w .tableCommand = true := by rw [hw]; exact eventBit_raise_same _ _
  have w5 : acctOf w 0 = acctOf v 0 := by unfold acctOf; rw [hw, raise_hlt]; rfl
  rw [← hw]
  unfold done
  refine ⟨?_, ?_, ?_, answered_from h3 (.inl h4) w2 w3, w, rfl, ?_⟩
  · rw [complete_part (p := .cmp) rfl, w1]
  · exact (complete_grows _ _ _ _ _ _ (Grows.refl w)).bits _ w4
  · have : acctOf (complete k 0 0 0 0 0 w) 0 = acctOf w 0 := by unfold acctOf; rw [complete_part (p := .hlt) rfl]
    rw [this, w5, v5]
  · rw [hw, readMem_of_mem (raise_mem _ _)]
    exact readMem_writeMem_same result bs v

/-! ## The exchange (R43, R361) -/

theorem outTailWrite_effect {channel tail : Nat} {s : State} (h1 : inService s = true) (h2 : roleC s = false)
    (h3 : channel < 16) (h4 : (channelOf s channel).waiting = []) :
    Completes (.outTailWrite channel tail) s fun t =>
      channelOf t channel = { channelOf s channel with outTail := tail % outRingSize / 64 * 64 } := by
  unfold Completes
  simp only [exec, execOutTailWrite, h1, h2, h3, decide_true, Bool.not_false, Bool.and_self, if_true, channelOf_setChannel, h4]
  refine ⟨_, rfl, ?_⟩
  show channelOf (setChannel channel _ s) channel = _
  rw [channelOf_setChannel]

theorem flushRecords_one {c n : Nat} {u : State} {ch : Channel} {r : List Byte} {rest : List (List Byte)}
    (h1 : channelOf u c = ch) (h2 : ch.waiting = r :: rest) (h3 : (channelOn u c && outRoom ch r.length) = true) :
    flushRecords c (n + 1) u = flushRecords c n (setChannel c { ch with
      outHead := (ch.outHead + r.length) % outRingSize, waiting := rest }
      (wrapWrite (outRingBase c) outRingSize ch.outHead r u)) := by
  subst h1
  conv => lhs; unfold flushRecords
  dsimp only
  split
  · rename_i e
    rw [h2] at e
    cases e
  · rename_i a b e
    rw [h2] at e
    cases e
    rw [if_pos h3]

theorem outTailWrite_flushes {channel tail : Nat} {r : List Byte} {s : State} (h1 : inService s = true) (h2 : roleC s = false)
    (h3 : channel < 16) (h4 : (channelOf s channel).waiting = [r]) (h5 : channelOn s channel = true)
    (h6 : outRoom { channelOf s channel with outTail := tail % outRingSize / 64 * 64 } r.length = true) :
    Completes (.outTailWrite channel tail) s fun t =>
      channelOf t channel = { channelOf s channel with
        outTail := tail % outRingSize / 64 * 64, waiting := []
        outHead := ((channelOf s channel).outHead + r.length) % outRingSize } := by
  unfold Completes
  simp only [exec, execOutTailWrite, h1, h2, h3, decide_true, Bool.not_false, Bool.and_self, if_true, channelOf_setChannel]
  refine ⟨_, rfl, ?_⟩
  obtain ⟨u, hu⟩ : ∃ u : State, u = setChannel channel { channelOf s channel with outTail := tail % outRingSize / 64 * 64 } s :=
    ⟨_, rfl⟩
  have u1 : channelOf u channel = { channelOf s channel with outTail := tail % outRingSize / 64 * 64 } := by
    rw [hu, channelOf_setChannel]
  have u2 : channelOn u channel = true := by rw [hu, channelOn_setChannel]; exact h5
  rw [← hu, h4]
  show channelOf (flushRecords channel 1 u) channel = _
  rw [flushRecords_one u1 h4 (by rw [u2, Bool.true_and]; exact h6)]
  show channelOf (setChannel channel _ _) channel = _
  rw [channelOf_setChannel]

/-- A record is on its way to an accelerator: in a channel's outbound ring, or waiting for room there. -/
theorem toAccelerator_channel (r : List Byte) (s : State) : ∃ c,
    channelOf (toAccelerator r s) c = { channelOf s c with outHead := ((channelOf s c).outHead + r.length) % outRingSize } ∨
    channelOf (toAccelerator r s) c = { channelOf s c with waiting := (channelOf s c).waiting ++ [r] } := by
  unfold toAccelerator
  obtain ⟨c, u, hc⟩ : ∃ c u, freeOf (channelsOn s) 0 s = (c, u) := ⟨_, _, rfl⟩
  have hu : ∀ k, channelOf u k = channelOf s k := by
    intro k
    have : u = (freeOf (channelsOn s) 0 s).2 := by rw [hc]
    rw [this]; rfl
  rw [hc]
  dsimp only
  refine ⟨c, ?_⟩
  unfold pushRecord
  dsimp only
  split
  · left; rw [channelOf_setChannel, hu]
  · right; rw [channelOf_setChannel, hu]

theorem bump_channels {s0 s : State} (a n) (h : SameChannels s0 s) : SameChannels s0 (bump a n s) := by
  unfold bump
  dsimp only
  split
  · exact h
  · split
    · exact h
    · exact counterEvent_channels _ _ _ h

theorem putRecord_channels {s0 s : State} (kind) (flags) (step) (action) (tenant) (source) (sseq) (body)
    (h : SameChannels s0 s) : SameChannels s0 (putRecord kind flags step action tenant source sseq body s).2 := by
  unfold putRecord ringWrite
  exact SameChannels.put (writeMem_channels _ _ (writeMem_channels _ _ h)) rfl

theorem putJournal_channels {s0 s : State} (kind) (flags) (step) (action) (tenant) (source) (sseq) (body)
    (h : SameChannels s0 s) : SameChannels s0 (putJournal kind flags step action tenant source sseq body s) := by
  unfold putJournal
  dsimp only
  split
  · exact putRecord_channels _ _ _ _ _ _ _ _ h
  · exact putRecord_channels _ _ _ _ _ _ _ _ (raise_channels _ (bump_channels _ _ (putRecord_channels _ _ _ _ _ _ _ _ h)))

theorem journal_channels {s0 s : State} (kind) (action) (tenant) (source) (sseq) (body)
    (h : SameChannels s0 s) : SameChannels s0 (journal kind action tenant source sseq body s) := by
  unfold journal
  dsimp only
  split
  · exact SameChannels.foldl (fun _ _ h => putJournal_channels _ _ _ _ _ _ _ _ h) h
  · exact h

theorem consumeNow_channels (tenant source sseq : Nat) (bytes : List Byte) (s : State) :
    SameChannels s (consumeNow tenant source sseq bytes s) := by
  have hn : SameChannels s (noteFirst source sseq s) := by
    unfold noteFirst
    split
    · exact SameChannels.refl s
    · exact SameChannels.put (SameChannels.refl s) rfl
  unfold consumeNow journalMsg
  dsimp only
  split
  · split
    · exact journal_channels _ _ _ _ _ _ (SameChannels.put hn rfl)
    · exact SameChannels.put hn rfl
  · exact journal_channels _ _ _ _ _ _ (SameChannels.put hn rfl)

theorem attentionOutput_effect {h : Hidden} {s : State} {slot : Nat} {e : Seq} {c : Ctx} {o : Owned}
    (h1 : takesFrom s h.source = true) (h2 : roleC s = false) (h3 : ownedBy s h.source h.handle = some slot)
    (h4 : seqAt s slot = some e) (h5 : e.ownEpoch = h.epoch) (h6 : ctxOf s e.context = some c) (h7 : ownedAt s slot = some o)
    (h8 : h.damage = 0) :
    Completes (.attentionOutput h) s fun t =>
      ownedAt t slot = some { o with answered := true, layer := h.layer } ∧
      seqAt t slot = some (if h.layer + 1 = c.layers.length then
        { e with position := max e.position (h.firstPos + h.rows.length) } else e) ∧
      ∃ k, (channelOf t k = { channelOf s k with
          outHead := ((channelOf s k).outHead + (exchangeRecord 1 (if c.actFmt = 1 then 1 else 0) e.context h.layer h.step
            h.rows.length e.handle h.firstPos (h.rows.map (codesBytes c.actFormat)).flatten).length) % outRingSize } ∨
        channelOf t k = { channelOf s k with waiting := (channelOf s k).waiting ++
          [exchangeRecord 1 (if c.actFmt = 1 then 1 else 0) e.context h.layer h.step h.rows.length e.handle h.firstPos
            (h.rows.map (codesBytes c.actFormat)).flatten] }) := by
  obtain ⟨u, hu⟩ : ∃ u : State, u = consumeNow e.tenant h.source h.sseq (h.rows.map (codesBytes c.actFormat)).flatten s := ⟨_, rfl⟩
  have he : exec (.attentionOutput h) s = .next (takeOutput slot h u) := by
    show execAttentionOutput h s = _
    unfold execAttentionOutput
    rw [hu]
    simp only [h1, h2, h3, h4, h6, h8, Bool.not_true, Bool.false_eq_true, if_false, Option.map_some, Option.getD_some, ne_eq,
      not_true_eq_false]
    rw [if_pos h5]
  refine ⟨_, he, ?_⟩
  have u1 : u.sqs.seqs = s.sqs.seqs := by rw [hu, consumeNow_seqs]
  have u2 : u.sqs.owned = s.sqs.owned := by rw [hu, consumeNow_owned]
  have u3 : ctxOf u e.context = some c := by
    rw [hu, ctxOf_same ((consumeNow_parts _ _ _ _ s).2 .mdl rfl)]; exact h6
  have u4 : seqAt u slot = some e := by unfold seqAt at h4 ⊢; rw [u1]; exact h4
  have u5 : ∀ k, channelOf u k = channelOf s k := by
    intro k
    rw [hu]; exact channelOf_same (consumeNow_channels _ _ _ _ _)
  unfold takeOutput
  simp only [u4, u3]
  generalize exchangeRecord 1 (if c.actFmt = 1 then 1 else 0) e.context h.layer h.step h.rows.length e.handle h.firstPos
    (h.rows.map (codesBytes c.actFormat)).flatten = r
  obtain ⟨v, hv⟩ : ∃ v : State, v = toAccelerator r u := ⟨_, rfl⟩
  have v1 : v.sqs = u.sqs := by rw [hv]; exact (toAccelerator_only (pts := [.hif, .mem, .free]) rfl r (Only.refl _ u)).2 .sqs rfl
  have v2 : ∃ k, channelOf v k = { channelOf s k with outHead := ((channelOf s k).outHead + r.length) % outRingSize } ∨
      channelOf v k = { channelOf s k with waiting := (channelOf s k).waiting ++ [r] } := by
    obtain ⟨k, hk⟩ := toAccelerator_channel r u
    rw [u5 k] at hk
    exact ⟨k, by rw [hv]; exact hk⟩
  rw [← hv]
  have o1 : ownedAt v slot = some o := by unfold ownedAt at h7 ⊢; rw [v1, u2]; exact h7
  have e1 : seqAt v slot = some e := by unfold seqAt at u4 ⊢; rw [v1]; exact u4
  obtain ⟨k, hk⟩ := v2
  split
  · refine ⟨?_, updSeq_at _ e1, k, hk⟩
    have : ∀ f u, ownedAt (updSeq slot f u) slot = ownedAt u slot := fun _ _ => rfl
    rw [this]
    exact updOwned_at _ o1
  · exact ⟨updOwned_at _ o1, e1, k, hk⟩

/-- An output with a damaged block is discarded: BLOCK_DAMAGED, and nothing goes on (R246). -/
theorem attentionOutput_damaged {h : Hidden} {s : State} (h1 : takesFrom s h.source = true) (h2 : roleC s = false)
    (h3 : h.damage ≠ 0) :
    Completes (.attentionOutput h) s fun t => t.sqs = s.sqs ∧ t.hif.channels = s.hif.channels ∧ eventBit t .blockDamaged = true := by
  refine ⟨damageFound h.damage fromWire s, ?_, ?_, ?_, ?_⟩
  · show execAttentionOutput h s = _
    unfold execAttentionOutput
    rw [h1, h2]
    simp only [Bool.not_true, Bool.false_eq_true, if_false]
    rw [if_pos h3]
  · exact (damageFound_only (pts := [.cmp, .hif, .hlt, .status, .counters]) rfl h.damage fromWire (Only.refl _ _)).2 .sqs rfl
  · unfold damageFound
    exact raise_channels _ (bump_channels _ _ (SameChannels.put (SameChannels.refl s) rfl))
  · unfold damageFound
    dsimp only
    exact eventBit_raise_same _ _

/-! ## Pages and tiers (R121, R216, R218) -/

theorem descAt_of {s t : State} (h : t.pgm = s.pgm) (i : Nat) : descAt t i = descAt s i := by unfold descAt; rw [h]

theorem firstFrom_holds {p : Nat → Bool} : ∀ {fuel lo k : Nat}, firstFrom p lo fuel = some k → p k = true
  | 0, _, _, h => by cases h
  | fuel + 1, lo, k, h => by
    unfold firstFrom at h
    split at h
    · cases h; assumption
    · exact firstFrom_holds h

theorem freeSlot_unused {used : Nat → Bool} {n k : Nat} {s : State} (h : (freeSlot used n s).1 = some k) : used k = false := by
  unfold freeSlot at h
  dsimp only at h
  rcases Option.or_eq_some_iff.1 h with h | ⟨_, h⟩
  · simpa using firstFrom_holds h
  · simpa using firstFrom_holds h

/-- Extents taken are not named by anything else. -/
theorem takeExtents_new (k : Tier) (n : Nat) : ∀ (got : List Nat) (s : State), ∀ x ∈ (takeExtents k n got s).1,
    x ∈ got ∨ x ∉ extentsNamed s := by
  induction n with
  | zero => intro got s x h; exact .inl h
  | succ n ih =>
    intro got s x h
    unfold takeExtents at h
    dsimp only at h
    obtain ⟨r, hr⟩ : ∃ r, r = freeSlot (fun j => (extentsNamed s ++ got).contains (extentAt s k j)) (extentCount s k) s := ⟨_, rfl⟩
    rw [← hr] at h
    have hs : extentsNamed r.2 = extentsNamed s := by rw [hr]; rfl
    rcases ih _ _ x h with h | h
    · rcases List.mem_append.1 h with h | h
      · exact .inl h
      · right
        obtain ⟨j, hj, hx⟩ : ∃ j, r.1 = some j ∧ extentAt s k j = x := by
          cases h1 : r.1 with
          | none => rw [h1] at h; simp at h
          | some j => rw [h1] at h; simp at h; exact ⟨j, rfl, h.symm⟩
        rw [hr] at hj
        have hu := freeSlot_unused hj
        rw [hx] at hu
        simp only [List.contains_eq_mem, List.mem_append, decide_eq_false_iff_not, not_or] at hu
        exact hu.1
    · rw [hs] at h
      exact .inr h

theorem sealComplete_effect {i : Nat} {s : State} {d : Desc} {c : Ctx} {bs : List Scb} (h1 : inService s = true)
    (h2 : descAt s i = some d) (h3 : d.object = false) (h4 : d.packed = false) (h5 : d.state = .sealing)
    (h6 : ctxOf s d.context = some c)
    (h7 : bs = packAll (currentTable s d.context 1 (stepNo s)) (layoutOf c.kvFormat) (rawPage c (pageTokens s) d.rows)) :
    Completes (.sealComplete i) s fun t => ∃ exts, (∀ x ∈ exts, x ∉ extentsNamed s) ∧
      descAt t i = some { d with
        packed := true
        homeExt := exts
        blocks := lockAll (memoryKey s d.tenant) exts (bs.map Scb.raw)
        packTable := match currentTable s d.context 1 (stepNo s) with
          | some x => x.1
          | none => 0
        refcount := d.refcount - 1
        state := if d.refcount - 1 = 0 then .released else d.state } := by
  refine ⟨_, rfl, ?_⟩
  rw [if_pos h1]
  unfold sealComplete
  rw [h2]
  dsimp only
  rw [if_neg (by simp [h3, h4, h5]), h6]
  dsimp only
  rw [← h7]
  obtain ⟨u, hu⟩ : ∃ u, u = chargeTier (kvTier (sealRead d (c.rawBytes (pageTokens (countBlocks bs s))) (countBlocks bs s)))
    d.tenant ((bs.map (fun b => cdiv b.payload.length 64 * 64)).sum + classBytes d.mapClass)
    (sealRead d (c.rawBytes (pageTokens (countBlocks bs s))) (countBlocks bs s)) := ⟨_, rfl⟩
  have hp : Only [.cmp, .hif, .hlt, .status] s u := by
    rw [hu]; exact chargeTier_only rfl _ _ _ (sealRead_only rfl _ _ (countBlocks_only rfl _ (Only.refl _ s)))
  rw [← hu]
  obtain ⟨x, hx⟩ : ∃ x, x = takeExtents (kvTier u) (extentsFor (bs.map (fun b => b.payload.length))) [] u := ⟨_, rfl⟩
  have hxp : Only [.free] u x.2 := by rw [hx]; exact takeExtents_only rfl _ _ _ (Only.refl _ u)
  rw [← hx]
  have hn : extentsNamed u = extentsNamed s := by
    unfold extentsNamed mapsHeld Seq.mapClass ctxOf pageTokens
    rw [hp.2 .pgm rfl, hp.2 .sqs rfl, hp.2 .mdl rfl, hp.2 .stw rfl]
  have hm : memoryKey u d.tenant = memoryKey s d.tenant := by
    unfold memoryKey; rw [hp.2 .sec rfl]
  refine ⟨x.1, fun y hy => ?_, ?_⟩
  · rw [hx] at hy
    rcases takeExtents_new _ _ _ _ y hy with h | h
    · cases h
    · rwa [hn] at h
  · unfold decRef
    have hd : descAt x.2 i = some d := by rw [descAt_of (hxp.2 .pgm rfl), descAt_of (hp.2 .pgm rfl)]; exact h2
    rw [← hm]
    exact updDesc_at _ (updDesc_at _ hd)

theorem noteLines_parts (a b : Nat) (s : State) : Only [.tir, .free] s (noteLines a b s) := noteLines_only rfl a b (Only.refl _ s)

/-- The transfer of a copy has completed: what the copy holds is there, its bytes are charged in both tiers (R217, R220, R310). -/
theorem promotionComplete_effect {i : Nat} {s : State} {d : Desc} {bs : List (List Byte)} (h1 : inService s = true)
    (h2 : descAt s i = some d) (h3 : d.promoting = true) (h4 : d.copy ≠ some (List.range d.extents))
    (h5 : copiedBlocks s d = some bs) :
    Completes (.promotionComplete i) s fun t =>
      descAt t i = some { d with copy := some (List.range d.extents), copyBlocks := bs } ∧
      acctOf t d.tenant = ((acctOf s d.tenant).add 4 d.size).add 3 d.size := by
  unfold Completes
  obtain ⟨u, hu⟩ : ∃ u, u = noteLines (cdiv d.size 256) 7168 (charge d.tenant 3 d.size (charge d.tenant 4 d.size s)) := ⟨_, rfl⟩
  have hp : Only [.tir, .hif, .hlt, .status, .free] s u := by
    rw [hu]; exact noteLines_only rfl _ _ (charge_only rfl _ _ _ (charge_only rfl _ _ _ (Only.refl _ s)))
  have hc : copiedBlocks u d = some bs := by
    rw [← h5]
    unfold copiedBlocks Desc.plainBlocks memoryKey Desc.placed
    rw [hp.2 .sec rfl]
  refine ⟨updDesc i (fun d => { d with copy := some (List.range d.extents), copyBlocks := bs }) u, ?_, ?_, ?_⟩
  · show execPromotionComplete i s = _
    unfold execPromotionComplete
    rw [h2]
    dsimp only
    rw [if_pos (by simp [h1, h3, h4]), ← hu, hc]
  · exact updDesc_at _ (by rw [descAt_of (hp.2 .pgm rfl)]; exact h2)
  · show acctOf u d.tenant = _
    have : acctOf u d.tenant = acctOf (charge d.tenant 3 d.size (charge d.tenant 4 d.size s)) d.tenant := by
      unfold acctOf; rw [hu, (noteLines_parts _ _ _).2 .hlt rfl]
    rw [this, acctOf_charge, acctOf_charge]

/-- A page whose home fails a check is not moved: it is damaged, and BLOCK_DAMAGED is raised (R220, R246). -/
theorem promotionComplete_damaged {i : Nat} {s : State} {d : Desc} (h1 : inService s = true)
    (h2 : descAt s i = some d) (h3 : d.promoting = true) (h4 : d.copy ≠ some (List.range d.extents))
    (h5 : copiedBlocks s d = none) :
    Completes (.promotionComplete i) s fun t => eventBit t .blockDamaged = true := by
  unfold Completes
  obtain ⟨u, hu⟩ : ∃ u, u = noteLines (cdiv d.size 256) 7168 (charge d.tenant 3 d.size (charge d.tenant 4 d.size s)) := ⟨_, rfl⟩
  have hp : Only [.tir, .hif, .hlt, .status, .free] s u := by
    rw [hu]; exact noteLines_only rfl _ _ (charge_only rfl _ _ _ (charge_only rfl _ _ _ (Only.refl _ s)))
  have hc : copiedBlocks u d = none := by
    rw [← h5]
    unfold copiedBlocks Desc.plainBlocks memoryKey Desc.placed
    rw [hp.2 .sec rfl]
  refine ⟨damagePage i (blockDamaged .check fromTier2 (clearCopy i u)), ?_, ?_⟩
  · show execPromotionComplete i s = _
    unfold execPromotionComplete
    rw [h2]
    dsimp only
    rw [if_pos (by simp [h1, h3, h4]), ← hu, hc]
  · refine (damagePage_grows i (Grows.refl _)).bits _ ?_
    unfold blockDamaged damageFound
    dsimp only
    exact eventBit_raise_same _ _

theorem writebackExtent_effect {i extent : Nat} {s : State} {d : Desc} (h1 : inService s = true) (h2 : descAt s i = some d)
    (h3 : extent ∈ d.writing) :
    Completes (.writebackExtent i extent) s fun t =>
      descAt t i = some { d with
        bytes := (d.copyBytes.filter (fun b => decide (extent * Config.extentBytes ≤ b.1) &&
          decide (b.1 < extent * Config.extentBytes + Config.extentBytes))).foldl (fun t b => Tab.put b.1 b.2 t) d.bytes
        dirty := d.dirty.filter (· ≠ extent), writing := d.writing.filter (· ≠ extent) } ∧
      counter t cWriteback = min (counter s cWriteback + 1) sMax := by
  unfold Completes
  simp only [exec, execWritebackExtent, h2]
  refine ⟨_, by rw [if_pos (by simp [h1, h3])], ?_, ?_⟩
  · rw [descAt_of ((noteLines_parts _ _ _).2 .pgm rfl), descAt_of (bump_pgm _ _ _)]
    rw [descAt_of ((charge_only (pts := [.hif, .hlt, .status]) rfl _ _ _ (Only.refl _ _)).2 .pgm rfl),
      descAt_of ((charge_only (pts := [.hif, .hlt, .status]) rfl _ _ _ (Only.refl _ _)).2 .pgm rfl)]
    exact updDesc_at _ h2
  · have hn : ∀ a b u, counter (noteLines a b u) cWriteback = counter u cWriteback := fun a b u => by
      unfold counter counterRaw; rw [(noteLines_parts a b u).2 .counters rfl]
    rw [hn, counter_bump_same]
    unfold counter counterRaw
    rw [(charge_only (pts := [.hif, .hlt, .status]) rfl _ _ _ (Only.refl _ _)).2 .counters rfl,
      (charge_only (pts := [.hif, .hlt, .status]) rfl _ _ _ (Only.refl _ _)).2 .counters rfl]
    rfl

/-! ## The step boundary (R54, R57, R59, R144, R164) -/

/-- Work that leaves the time unit alone. -/
theorem tmu_of {pts : List Part} {s t : State} (h : Only pts s t) (hp : pts.contains .tmu = false) : t.tmu = s.tmu :=
  h.2 .tmu hp

theorem fiveActions_tmu (n : Nat) (s : State) : ∃ b0 b1, (fiveActions n s).tmu = { s.tmu with
    bank := 1 - s.tmu.bank, bank0 := b0, bank1 := b1, opened := [] } := by
  have hz : (fiveActions n s).tmu =
      (actionBuild n (actionJoin n (actionAdmit n (actionEnvelope n (dropRefused (actionLeave n s)))))).tmu := by
    unfold fiveActions
    dsimp only
  rw [hz]
  obtain ⟨u, hu⟩ : ∃ u : State, u = actionJoin n (actionAdmit n (actionEnvelope n (dropRefused (actionLeave n s)))) := ⟨_, rfl⟩
  have h : u.tmu = s.tmu := by
    rw [hu]
    refine (tmu_of (actionJoin_only (pts := [.sqs, .slc, .pgm, .cmp, .car, .mdl, .fab, .wei, .hif, .sec, .hlt, .status,
      .counters, .mem, .free]) rfl n (Only.refl _ _)) rfl).trans ?_
    refine (tmu_of (actionAdmit_only (pts := [.sqs, .slc, .pgm, .car, .fab, .wei, .hif, .hlt, .status, .counters, .mem, .free])
      rfl n (Only.refl _ _)) rfl).trans ?_
    refine (tmu_of (actionEnvelope_only (pts := [.sqs, .slc, .pgm, .cmp, .car, .mdl, .fab, .wei, .hif, .sec, .hlt, .stw, .status,
      .counters, .mem, .free]) rfl n (Only.refl _ _)) rfl).trans ?_
    refine (tmu_of (dropRefused_only (pts := [.sqs, .slc, .pgm, .car, .hlt]) rfl (Only.refl _ _)) rfl).trans ?_
    exact tmu_of (actionLeave_only (pts := [.sqs, .slc, .pgm, .cmp, .car, .mdl, .fab, .wei, .hif, .sec, .hlt, .status, .counters,
      .mem, .free]) rfl n (Only.refl _ _)) rfl
  rw [← hu]
  obtain ⟨v, hv⟩ : ∃ v : State, v = enterPrefill n u := ⟨_, rfl⟩
  have h2 : v.tmu = s.tmu := by
    rw [hv]
    exact (tmu_of (enterPrefill_only (pts := [.sqs]) rfl n (Only.refl _ _)) rfl).trans h
  unfold actionBuild
  rw [← hv]
  have h3 : (swapCheck (stageFirst (buildStep n v))).tmu = (buildStep n v).tmu :=
    (tmu_of (swapCheck_only (pts := [.mdl, .free]) rfl (Only.refl _ _)) rfl).trans
      (tmu_of (stageFirst_only (pts := [.cmp, .mdl, .hif, .hlt, .status, .counters]) rfl (Only.refl _ _)) rfl)
  rw [h3]
  unfold buildStep
  dsimp only
  have h4 : ∀ k items m, (bump cShadowSkip k (leaseItems n items (placedOwn m v).2)).tmu = s.tmu := fun k items m =>
    (bump_tmu _ _ _).trans ((tmu_of (leaseItems_only (pts := [.pgm]) rfl n items (Only.refl _ _)) rfl).trans
      ((tmu_of (placedOwn_only (pts := [.hif, .hlt, .status]) rfl m (Only.refl _ _)) rfl).trans h2))
  rw [h4, h2]
  exact ⟨_, _, rfl⟩

theorem counterStep_idle {s : State} (h : (s.tmu.state == .lost && s.tmu.stepReq) = false) : counterStep s = s := by
  unfold counterStep
  rw [h, Bool.false_and, if_neg (by decide)]

theorem endOfWork_tmu (n : Nat) (s : State) (h : (s.tmu.state == .lost && s.tmu.stepReq) = false) :
    (endOfWork n s).tmu = s.tmu ∧ (endOfWork n s).sqs.inspect = none := by
  unfold endOfWork
  obtain ⟨u, hu⟩ : ∃ u : State, u = checkpoints n (ownerTurns (sendBatches (n - 1) (recordTurns n (actionSwitch n s)))) := ⟨_, rfl⟩
  have h1 : u.tmu = s.tmu := by
    rw [hu]
    refine (tmu_of (checkpoints_only (pts := [.pgm, .hif, .hlt, .status, .counters, .mem]) rfl n (Only.refl _ _)) rfl).trans ?_
    refine (tmu_of (ownerTurns_only (pts := [.sqs, .slc, .pgm, .car, .fab, .wei, .hif, .hlt, .mem, .free]) rfl
      (Only.refl _ _)) rfl).trans ?_
    refine (tmu_of (sendBatches_only (pts := [.sqs, .fab, .wei, .hif, .hlt, .status, .counters]) rfl _ (Only.refl _ _)) rfl).trans ?_
    refine (tmu_of (recordTurns_only (pts := [.sqs, .slc, .fab, .wei, .hlt]) rfl n (Only.refl _ _)) rfl).trans ?_
    exact tmu_of (actionSwitch_only (pts := [.sqs, .hif, .sec, .hlt, .status, .counters, .mem]) rfl n (Only.refl _ _)) rfl
  have h2 : (serveInspect u).tmu = s.tmu := (tmu_of (serveInspect_only (pts := [.sqs, .hif]) rfl (Only.refl _ _)) rfl).trans h1
  have h3 : (serveInspect u).sqs.inspect = none := by
    unfold serveInspect
    split
    · rename_i e; exact e
    · rfl
  dsimp only
  rw [← hu, counterStep_idle (by rw [h2]; exact h)]
  exact ⟨h2, h3⟩

theorem sample_tmu (n : Nat) (x : State) : (sample n x).tmu = { x.tmu with
    boundary := some n, openedAt := x.tmu.now, sampled := x.tmu.state, sampledBrown := x.sup.brown } := by
  unfold sample
  have : (ageStatus x).tmu = x.tmu ∧ (ageStatus x).sup = x.sup := by
    unfold ageStatus
    dsimp only
    exact ⟨rfl, rfl⟩
  dsimp only
  rw [this.1, this.2]

theorem openBoundary_tmu (n : Nat) (v : State) (h : (v.tmu.state == .lost && v.tmu.stepReq) = false) :
    (∃ b0 b1, (openBoundary n v).tmu = { v.tmu with
      boundary := some n, openedAt := v.tmu.now, sampled := v.tmu.state, sampledBrown := v.sup.brown
      bank := 1 - v.tmu.bank, bank0 := b0, bank1 := b1, opened := [] }) ∧ (openBoundary n v).sqs.inspect = none := by
  obtain ⟨w, hw⟩ : ∃ w : State, w = settleStep n (journalStep (sample n (closeDigests (n - 1) v))) := ⟨_, rfl⟩
  have w0 : w.tmu = (sample n (closeDigests (n - 1) v)).tmu := by
    rw [hw]
    refine (tmu_of (settleStep_only (pts := [.sqs, .slc, .pgm, .tir, .cmp, .car, .fab, .wei, .hif, .hlt, .status, .counters,
      .mem, .free]) rfl n (Only.refl _ _)) rfl).trans ?_
    exact tmu_of (journalStep_only (pts := [.hif, .hlt, .status, .counters, .mem]) rfl (Only.refl _ _)) rfl
  have c := closeDigests_only (pts := [.hif, .hlt, .status, .counters, .mem]) rfl (n - 1) (Only.refl _ v)
  rw [sample_tmu, c.2 .tmu rfl, c.2 .sup rfl] at w0
  obtain ⟨b0, b1, hf⟩ := fiveActions_tmu n w
  rw [w0] at hf
  have he := endOfWork_tmu n (fiveActions n w) (by rw [hf]; exact h)
  have ho : openBoundary n v = endOfWork n (fiveActions n w) := by
    unfold openBoundary
    dsimp only
    rw [hw]
  rw [ho]
  exact ⟨⟨b0, b1, he.1.trans hf⟩, he.2⟩

theorem stepBoundary_runs {workNs : Nat} {s : State} (h1 : inService s = true) (h2 : s.stw.charter.replay ≠ 1)
    (h3 : s.tmu.gridRun = true) : exec (.stepBoundary workNs) s = .next (realBoundary workNs s) := by
  show execStepBoundary workNs s = _
  unfold execStepBoundary
  rw [if_neg (by simp [h1]), if_neg h2, if_pos h3]

/-- The state whose work a boundary does: the counter at its instant, the tally frozen where a minute ends there too. -/
theorem realBoundary_at (workNs : Nat) (s : State) : ∃ v, v.tmu = { s.tmu with
      now := max s.tmu.now (epochNs s + nextBoundary s * periodNs s) } ∧ v.sup = s.sup ∧
    realBoundary workNs s = { openBoundary (nextBoundary s) v with sqs := { (openBoundary (nextBoundary s) v).sqs with
      peak := max (openBoundary (nextBoundary s) v).sqs.peak (min workNs 200000) } } := by
  obtain ⟨u, hu⟩ : ∃ u : State, u = setNow (epochNs s + nextBoundary s * periodNs s) s := ⟨_, rfl⟩
  obtain ⟨v, hv⟩ : ∃ v : State, v = (if minuteInstant u = u.tmu.now then freezeTally u else u) := ⟨_, rfl⟩
  have v1 : Only [.hif, .hlt, .status, .mem, .free] u v := by
    rw [hv]
    split
    · exact freezeTally_only rfl (Only.refl _ _)
    · exact Only.refl _ _
  refine ⟨v, ?_, ?_, ?_⟩
  · rw [v1.2 .tmu rfl, hu]; rfl
  · rw [v1.2 .sup rfl, hu]; rfl
  · unfold realBoundary
    dsimp only
    rw [← hu, ← hv]

theorem boundary_leaves {workNs n : Nat} {s t v : State} {b0 b1 : List TideEntry} (hb : t.tmu = { v.tmu with
      boundary := some n, openedAt := v.tmu.now, sampled := v.tmu.state, sampledBrown := v.sup.brown
      bank := 1 - v.tmu.bank, bank0 := b0, bank1 := b1, opened := [] }) (hi : t.sqs.inspect = none)
    (v1 : v.tmu = { s.tmu with now := max s.tmu.now (epochNs s + n * periodNs s) }) (v2 : v.sup = s.sup)
    (w : State) (hw : w = { t with sqs := { t.sqs with peak := max t.sqs.peak (min workNs 200000) } }) :
    w.tmu.boundary = some n ∧ w.tmu.now = max s.tmu.now (epochNs s + n * periodNs s) ∧ w.tmu.openedAt = w.tmu.now ∧
    w.tmu.sampled = s.tmu.state ∧ w.tmu.state = s.tmu.state ∧ w.tmu.sampledBrown = s.sup.brown ∧
    w.tmu.bank = 1 - s.tmu.bank ∧ w.tmu.opened = [] ∧ w.sqs.inspect = none ∧ min workNs 200000 ≤ w.sqs.peak := by
  subst hw
  dsimp only
  rw [hb, v1, v2]
  exact ⟨rfl, rfl, rfl, rfl, rfl, rfl, rfl, rfl, hi, Nat.le_max_right _ _⟩

theorem stepBoundary_effect {workNs : Nat} {s : State} (h1 : inService s = true) (h2 : s.stw.charter.replay ≠ 1)
    (h3 : s.tmu.gridRun = true) (h4 : s.tmu.state ≠ .lost ∨ s.tmu.stepReq = false) :
    Completes (.stepBoundary workNs) s fun t =>
      t.tmu.boundary = some (nextBoundary s) ∧
      t.tmu.now = max s.tmu.now (epochNs s + nextBoundary s * periodNs s) ∧ t.tmu.openedAt = t.tmu.now ∧
      t.tmu.sampled = s.tmu.state ∧ t.tmu.state = s.tmu.state ∧ t.tmu.sampledBrown = s.sup.brown ∧
      t.tmu.bank = 1 - s.tmu.bank ∧ t.tmu.opened = [] ∧ t.sqs.inspect = none ∧ min workNs 200000 ≤ t.sqs.peak := by
  refine ⟨_, stepBoundary_runs h1 h2 h3, ?_⟩
  obtain ⟨v, v1, v2, v3⟩ := realBoundary_at workNs s
  have hx : (v.tmu.state == .lost && v.tmu.stepReq) = false := by
    rw [v1]
    dsimp only
    rcases h4 with h4 | h4
    · have : (s.tmu.state == TimeState.lost) = false := by simpa using h4
      rw [this, Bool.false_and]
    · rw [h4, Bool.and_false]
  obtain ⟨⟨b0, b1, hb⟩, hi⟩ := openBoundary_tmu (nextBoundary s) v hx
  exact boundary_leaves hb hi v1 v2 _ v3

end Sys2Proof.Machine
end

