-- ==== Sys2Proof/Laws/EffRegs.lean ====
section
/-! SUPPORT. What writes to registers, latches, acknowledgements and bit aliases do (R368, R370 to R372). -/

namespace Sys2Proof.Machine

open Sys2Proof.Safety

theorem acts_service {s : State} (h : inService s = true) (b o : Nat) : acts s b o = true := by
  unfold acts; rw [h]; rfl

theorem acts_stw {s : State} (h : stwOn s = true) (o : Nat) : acts s 0 o = true := by
  unfold acts; rw [h]; simp

theorem acts_sec {s : State} (h : stwOn s = true) (o : Nat) : acts s 12 o = true := by
  unfold acts; rw [h]; simp

theorem keepWord_rw (b o v : Nat) (s : State) : Tab.getD (keepWord b o v s).hif.rw (regAddr b o) 0 = v &&& rwMask b o := by
  unfold keepWord; simp

theorem setLatch_at (b base : Nat) (bs : List Byte) (s : State) :
    Tab.getD (setLatch b base bs s).hif.latch (regAddr b base) [] = bs ∧ (setLatch b base bs s).hif.rw = s.hif.rw := by
  unfold setLatch; simp

/-- What a write to an index word leaves: the index is kept; with LATCH the record is copied; without, no record changes. -/
theorem indexWrite_effect {b o base : Nat} {v : Nat} {bs : List Byte} {s : State} {w : Word} (hv : w.toNat = v)
    (ha : acts s b o = true) (hl : latchFor b o v (keepWord b o v s) = setLatch b base bs (keepWord b o v s)) :
    ∃ t, indexWrite b o w s = .next t ∧
      (Tab.getD t.hif.rw (regAddr b o) 0 = v &&& rwMask b o ∧
       (bitOf v 31 = true → Tab.getD t.hif.latch (regAddr b base) [] = bs) ∧
       (bitOf v 31 = false → t.hif.latch = s.hif.latch)) := by
  subst hv
  unfold indexWrite writeIndex
  rw [if_pos ha]
  dsimp only
  refine ⟨_, rfl, ?_, fun h => ?_, fun h => ?_⟩
  · split
    · rw [hl, (setLatch_at _ _ _ _).2]; exact keepWord_rw _ _ _ _
    · exact keepWord_rw _ _ _ _
  · rw [if_pos h, hl]; exact (setLatch_at _ _ _ _).1
  · rw [if_neg (by rw [h]; exact Bool.false_ne_true)]; rfl

/-- The LATCH of the page descriptor. -/
theorem pgmInspectLatch_effect {value : Word} {s : State} (h : inService s = true) :
    Completes (.pgmInspectLatch value) s fun t =>
      Tab.getD t.hif.rw (regAddr 7 0x100) 0 = value.toNat &&& 0x1ffffff ∧
      (bitOf value.toNat 31 = true → Tab.getD t.hif.latch (regAddr 7 0x110) [] =
        descRecord s (value.toNat % 2 ^ 25)) ∧
      (bitOf value.toNat 31 = false → t.hif.latch = s.hif.latch) := by
  exact indexWrite_effect (s := s) (w := value) (b := 7) (o := 0x100) rfl (acts_service h _ _) rfl

/-- The LATCH of the keeper record. -/
theorem slcInspectLatch_effect {value : Word} {s : State} (h : inService s = true) :
    Completes (.slcInspectLatch value) s fun t =>
      Tab.getD t.hif.rw (regAddr 6 0x100) 0 = value.toNat &&& 0x3fff ∧
      (bitOf value.toNat 31 = true → Tab.getD t.hif.latch (regAddr 6 0x110) [] =
        ((recAt s (value.toNat % 2 ^ 14)).map (fun r => r.bytes (histOf s (value.toNat % 2 ^ 14)).length)).getD (zeros 32)) ∧
      (bitOf value.toNat 31 = false → t.hif.latch = s.hif.latch) := by
  exact indexWrite_effect (s := s) (w := value) (b := 6) (o := 0x100) rfl (acts_service h _ _) rfl

/-- The LATCH of the tier segment. -/
theorem tirSegLatch_effect {value : Word} {s : State} (h : inService s = true) :
    Completes (.tirSegLatch value) s fun t =>
      Tab.getD t.hif.rw (regAddr 8 0x100) 0 = value.toNat &&& 0x3f ∧
      (bitOf value.toNat 31 = true → Tab.getD t.hif.latch (regAddr 8 0x110) [] =
        (s.tir.segments.getD (value.toNat % 64) noSegment).bytes) ∧
      (bitOf value.toNat 31 = false → t.hif.latch = s.hif.latch) := by
  exact indexWrite_effect (s := s) (w := value) (b := 8) (o := 0x100) rfl (acts_service h _ _) rfl

/-- The LATCH of the port record. -/
theorem fabPortLatch_effect {value : Word} {s : State} (h : inService s = true) :
    Completes (.fabPortLatch value) s fun t =>
      Tab.getD t.hif.rw (regAddr 2 0x100) 0 = value.toNat &&& 0x7 ∧
      (bitOf value.toNat 31 = true → Tab.getD t.hif.latch (regAddr 2 0x110) [] =
        (portOf s (value.toNat % 8)).bytes) ∧
      (bitOf value.toNat 31 = false → t.hif.latch = s.hif.latch) := by
  exact indexWrite_effect (s := s) (w := value) (b := 2) (o := 0x100) rfl (acts_service h _ _) rfl

/-- The LATCH of the window record. -/
theorem fabWinLatch_effect {value : Word} {s : State} (h : inService s = true) :
    Completes (.fabWinLatch value) s fun t =>
      Tab.getD t.hif.rw (regAddr 2 0x200) 0 = value.toNat &&& 0xfffff ∧
      (bitOf value.toNat 31 = true → Tab.getD t.hif.latch (regAddr 2 0x210) [] =
        (windowOf s (value.toNat % 2 ^ 20)).bytes) ∧
      (bitOf value.toNat 31 = false → t.hif.latch = s.hif.latch) := by
  exact indexWrite_effect (s := s) (w := value) (b := 2) (o := 0x200) rfl (acts_service h _ _) rfl

/-- The LATCH of the queue record. -/
theorem weiQLatch_effect {value : Word} {s : State} (h : inService s = true) :
    Completes (.weiQLatch value) s fun t =>
      Tab.getD t.hif.rw (regAddr 3 0x100) 0 = value.toNat &&& 0xfff ∧
      (bitOf value.toNat 31 = true → Tab.getD t.hif.latch (regAddr 3 0x110) [] =
        (if queueAssigned (value.toNat % 4096) then (queueOf s (value.toNat % 4096)).bytes (value.toNat % 4096)
          (queueClass s (value.toNat % 4096)) else zeros 32)) ∧
      (bitOf value.toNat 31 = false → t.hif.latch = s.hif.latch) := by
  exact indexWrite_effect (s := s) (w := value) (b := 3) (o := 0x100) rfl (acts_service h _ _) rfl

/-- The LATCH of the policer record. -/
theorem weiPolLatch_effect {at_ : Nat} {value : Word} {s : State} (h : inService s = true) :
    Completes (.weiPolLatch at_ value) s fun t =>
      Tab.getD t.hif.rw (regAddr 3 0x200) 0 = value.toNat &&& 0xff ∧
      (bitOf value.toNat 31 = true → Tab.getD t.hif.latch (regAddr 3 0x210) [] =
        (if value.toNat % 256 = 0 then zeros 32 else (Tab.getD s.wei.policers (value.toNat % 256) {}).bytes
          (value.toNat % 256) (max s.tmu.now at_))) ∧
      (bitOf value.toNat 31 = false → t.hif.latch = s.hif.latch) := by
  obtain ⟨t, h1, h2⟩ := indexWrite_effect (s := setNow at_ s) (w := value) (b := 3) (o := 0x200) rfl (acts_service h _ _) rfl
  exact ⟨t, (show exec (.weiPolLatch at_ value) s = indexWrite 3 0x200 value (setNow at_ s) from by
    show execWeiPolLatch at_ value s = _
    unfold execWeiPolLatch; rw [if_pos h]).trans h1, h2⟩

/-- The LATCH of the core record. -/
theorem hltCoreLatch_effect {value : Word} {s : State} (h : inService s = true) :
    Completes (.hltCoreLatch value) s fun t =>
      Tab.getD t.hif.rw (regAddr 13 0x100) 0 = value.toNat &&& 0x73f ∧
      (bitOf value.toNat 31 = true → Tab.getD t.hif.latch (regAddr 13 0x110) [] =
        coreRecord s (bitsOf value.toNat 10 8) (bitsOf value.toNat 5 0)) ∧
      (bitOf value.toNat 31 = false → t.hif.latch = s.hif.latch) := by
  exact indexWrite_effect (s := s) (w := value) (b := 13) (o := 0x100) rfl (acts_service h _ _) rfl

/-- The LATCH of the account record. -/
theorem hltAcctLatch_effect {value : Word} {s : State} (h : inService s = true) :
    Completes (.hltAcctLatch value) s fun t =>
      Tab.getD t.hif.rw (regAddr 13 0x500) 0 = value.toNat &&& 0xff ∧
      (bitOf value.toNat 31 = true → Tab.getD t.hif.latch (regAddr 13 0x510) [] =
        accountRecord s (value.toNat % 256)) ∧
      (bitOf value.toNat 31 = false → t.hif.latch = s.hif.latch) := by
  exact indexWrite_effect (s := s) (w := value) (b := 13) (o := 0x500) rfl (acts_service h _ _) rfl

/-- The LATCH of the report entry. -/
theorem stwReportLatch_effect {value : Word} {s : State} (h : stwOn s = true) :
    Completes (.stwReportLatch value) s fun t =>
      Tab.getD t.hif.rw (regAddr 0 0x100) 0 = value.toNat &&& 0xfff ∧
      (bitOf value.toNat 31 = true → Tab.getD t.hif.latch (regAddr 0 0x110) [] =
        fit 32 (s.stw.report.getD (value.toNat % 4096) [])) ∧
      (bitOf value.toNat 31 = false → t.hif.latch = s.hif.latch) := by
  exact indexWrite_effect (s := s) (w := value) (b := 0) (o := 0x100) rfl (acts_stw h _) rfl

/-- The LATCH of a table entry: VALID and the pages under it, and its record; zeros where the entry is empty. -/
theorem cmpTableLatch_effect {value : Word} {s : State} (h : inService s = true) :
    Completes (.cmpTableLatch value) s fun t =>
      Tab.getD t.hif.rw (regAddr 9 0x100) 0 = value.toNat &&& 0xFF ∧
      (∀ r, bitOf value.toNat 31 = true → Tab.look (value.toNat % 256) s.cmp.tables = some r →
        Tab.getD t.hif.latch (regAddr 9 0x110) [] = fit 144 r.record ∧
        Tab.getD t.hif.latch (regAddr 9 0x104) [] = le 4 (2 ^ 31 +
          ((Tab.vals s.pgm.descs).filter (fun d => d.tableId == value.toNat % 256)).length)) ∧
      (bitOf value.toNat 31 = true → Tab.look (value.toNat % 256) s.cmp.tables = none →
        Tab.getD t.hif.latch (regAddr 9 0x110) [] = zeros 144 ∧ Tab.getD t.hif.latch (regAddr 9 0x104) [] = zeros 4) ∧
      (bitOf value.toNat 31 = false → t.hif.latch = s.hif.latch) := by
  have hx : ∀ (u : State) (b1 b2 : List Byte),
      Tab.getD (setLatch 9 0x110 b1 (setLatch 9 0x104 b2 u)).hif.latch (regAddr 9 0x104) [] = b2 := by
    intro u b1 b2
    have hn : regAddr 9 0x104 ≠ regAddr 9 0x110 := by decide
    unfold setLatch
    simp [hn]
  refine ⟨_, rfl, ?_⟩
  rw [if_pos (acts_service h 9 0x100)]
  unfold writeIndex
  dsimp only
  refine ⟨?_, fun r h1 h2 => ?_, fun h1 h2 => ?_, fun h1 => ?_⟩
  · split
    · show Tab.getD (latchTable value.toNat (keepWord 9 0x100 value.toNat s)).hif.rw _ 0 = _
      unfold latchTable
      dsimp only
      split
      · rw [(setLatch_at _ _ _ _).2, (setLatch_at _ _ _ _).2]; exact keepWord_rw _ _ _ _
      · rw [(setLatch_at _ _ _ _).2, (setLatch_at _ _ _ _).2]; exact keepWord_rw _ _ _ _
    · exact keepWord_rw _ _ _ _
  · have e : latchFor 9 0x100 value.toNat (keepWord 9 0x100 value.toNat s) = latchTable value.toNat (keepWord 9 0x100 value.toNat s) := rfl
    rw [if_pos h1, e]
    unfold latchTable
    dsimp only
    rw [show (keepWord 9 0x100 value.toNat s).cmp = s.cmp from rfl, h2]
    exact ⟨(setLatch_at _ _ _ _).1, hx _ _ _⟩
  · have e : latchFor 9 0x100 value.toNat (keepWord 9 0x100 value.toNat s) = latchTable value.toNat (keepWord 9 0x100 value.toNat s) := rfl
    rw [if_pos h1, e]
    unfold latchTable
    dsimp only
    rw [show (keepWord 9 0x100 value.toNat s).cmp = s.cmp from rfl, h2]
    exact ⟨(setLatch_at _ _ _ _).1, hx _ _ _⟩
  · rw [if_neg (by rw [h1]; exact Bool.false_ne_true)]; rfl

/-- The LATCH of a dike's keys. -/
theorem secKeyLatch_effect {value : Word} {s : State} (h : stwOn s = true) :
    Completes (.secKeyLatch value) s fun t =>
      Tab.getD t.hif.rw (regAddr 12 0x100) 0 = value.toNat &&& 0xFF ∧
      (bitOf value.toNat 31 = true → t.sec.keyState =
        b2n (value.toNat % 256 == 0 || Tab.has (value.toNat % 256) s.sec.memory) +
        b2n (wireOf s (value.toNat % 256)).v0.isSome * 2 + b2n (wireOf s (value.toNat % 256)).v1.isSome * 4 +
        ((wireOf s (value.toNat % 256)).active.getD 0) * 8) ∧
      (bitOf value.toNat 31 = false → t.sec = s.sec) := by
  refine ⟨_, rfl, ?_⟩
  rw [if_pos (acts_sec h 0x100)]
  unfold writeIndex
  dsimp only
  refine ⟨?_, fun h1 => ?_, fun h1 => ?_⟩
  · split
    · exact keepWord_rw 12 0x100 _ s
    · exact keepWord_rw 12 0x100 _ s
  · rw [if_pos h1]; rfl
  · rw [if_neg (by rw [h1]; exact Bool.false_ne_true)]; rfl

/-- The LATCH of a sequence: the index stands until the next boundary's end. -/
theorem sqsInspectLatch_effect {value : Word} {s : State} (h : inService s = true) :
    Completes (.sqsInspectLatch value) s fun t =>
      Tab.getD t.hif.rw (regAddr 5 0x100) 0 = value.toNat &&& 0x3FFF ∧
      (bitOf value.toNat 31 = true → t.sqs.inspect = some (value.toNat % 2 ^ 14)) ∧
      (bitOf value.toNat 31 = false → t.sqs = s.sqs) := by
  refine ⟨_, rfl, ?_⟩
  rw [if_pos (acts_service h 5 0x100)]
  unfold writeIndex
  dsimp only
  refine ⟨?_, fun h1 => ?_, fun h1 => ?_⟩
  · split
    · exact keepWord_rw 5 0x100 _ s
    · exact keepWord_rw 5 0x100 _ s
  · rw [if_pos h1]; rfl
  · rw [if_neg (by rw [h1]; exact Bool.false_ne_true)]; rfl

theorem nat_add_eq_or {a b : Nat} (h : a &&& b = 0) : a + b = a ||| b := by
  have hp : a + b < 2 ^ (a + b) := Nat.lt_two_pow_self
  have ha : a < 2 ^ (a + b) := by omega
  have hb : b < 2 ^ (a + b) := by omega
  have hx : BitVec.ofNat (a + b) a &&& BitVec.ofNat (a + b) b = 0#(a + b) := by
    apply BitVec.eq_of_toNat_eq
    simp [Nat.mod_eq_of_lt ha, Nat.mod_eq_of_lt hb, h]
  have hs := congrArg BitVec.toNat (BitVec.add_eq_or_of_and_eq_zero _ _ hx)
  simpa [BitVec.toNat_add, Nat.mod_eq_of_lt ha, Nat.mod_eq_of_lt hb, Nat.mod_eq_of_lt hp] using hs

theorem testBit_sub_and (a m i : Nat) : (a - (a &&& m)).testBit i = (a.testBit i && !m.testBit i) := by
  have h : a - (a &&& m) = a &&& (a ^^^ m) := by
    have h2 : (a &&& m) + (a &&& (a ^^^ m)) = a := by
      have hd : (a &&& m) &&& (a &&& (a ^^^ m)) = 0 := by
        apply Nat.eq_of_testBit_eq; intro j
        simp only [Nat.testBit_and, Nat.testBit_xor, Nat.zero_testBit]
        cases a.testBit j <;> cases m.testBit j <;> rfl
      rw [nat_add_eq_or hd]
      apply Nat.eq_of_testBit_eq; intro j
      simp only [Nat.testBit_and, Nat.testBit_or, Nat.testBit_xor]
      cases a.testBit j <;> cases m.testBit j <;> rfl
    omega
  rw [h, Nat.testBit_and, Nat.testBit_xor]
  cases a.testBit i <;> cases m.testBit i <;> rfl

theorem testBit_replace (a i b : Nat) (hb : b < 2) (j : Nat) :
    (a - (a &&& 2 ^ i) + b * 2 ^ i).testBit j = if j = i then decide (b = 1) else a.testBit j := by
  have hd : (a - (a &&& 2 ^ i)) &&& (b * 2 ^ i) = 0 := by
    apply Nat.eq_of_testBit_eq; intro k
    rw [Nat.testBit_and, testBit_sub_and, Nat.zero_testBit]
    rcases (by omega : b = 0 ∨ b = 1) with rfl | rfl
    · simp
    · rw [Nat.one_mul, Nat.testBit_two_pow]
      by_cases h : i = k <;> simp [h]
  rw [nat_add_eq_or hd, Nat.testBit_or, testBit_sub_and]
  rcases (by omega : b = 0 ∨ b = 1) with rfl | rfl
  · rw [Nat.zero_mul, Nat.zero_testBit, Nat.testBit_two_pow]
    by_cases h : i = j
    · subst h; simp
    · rw [if_neg (fun e => h e.symm)]; simp [h]
  · rw [Nat.one_mul, Nat.testBit_two_pow]
    by_cases h : i = j
    · subst h; simp
    · rw [if_neg (fun e => h e.symm)]; simp [h]

/-! ## Acknowledgements (R372) -/

/-- In SEQ, a write whose [31:24] equals EVSEQ clears the bits set in it. -/
theorem statusAck_clears {addr b o : Nat} {value : Word} {s : State} (h1 : blockWord addr = some (b, o)) (h2 : acts s b o = true)
    (h3 : statusWords.contains (regAddr b o) = true) (h4 : addr % 4 = 0) (h5 : seqMode s = true)
    (h6 : value.toNat / 2 ^ 24 % 256 = evseqOf s (regAddr b o)) :
    Completes (.statusAck addr value) s fun t =>
      (∀ i, (sqBits t (regAddr b o)).testBit i =
        ((sqBits s (regAddr b o)).testBit i && !(value.toNat % 2 ^ 24).testBit i)) ∧
      evseqOf t (regAddr b o) = evseqOf s (regAddr b o) ∧ t.counters = s.counters := by
  refine ⟨acknowledge (regAddr b o) value.toNat s, ?_, ?_⟩
  · show execStatusAck addr value s = _
    unfold execStatusAck
    rw [h1]
    dsimp only
    rw [if_pos (by simp [h2, h4, List.contains_iff_mem.1 h3])]
  · unfold acknowledge
    unfold evseqOf at h6
    rw [if_pos h5] at h6
    rw [if_pos h5]
    dsimp only
    rw [if_pos h6]
    have hw : statusWord (setStatus (regAddr b o) ((statusWord s (regAddr b o)).acknowledge value.toNat) s) (regAddr b o) =
        (statusWord s (regAddr b o)).acknowledge value.toNat := by unfold statusWord setStatus; simp
    have hm : seqMode (setStatus (regAddr b o) ((statusWord s (regAddr b o)).acknowledge value.toNat) s) = true := h5
    refine ⟨fun i => ?_, ?_, rfl⟩
    · unfold sqBits
      dsimp only
      rw [if_pos hm, if_pos h5, hw]
      unfold SqWord.acknowledge
      rw [if_pos h6]
      exact testBit_sub_and _ _ _
    · unfold evseqOf
      rw [if_pos hm, if_pos h5, hw]
      unfold SqWord.acknowledge
      rw [if_pos h6]

/-- In SEQ, a write of another sequence clears nothing and is counted. -/
theorem statusAck_stale {addr b o : Nat} {value : Word} {s : State} (h1 : blockWord addr = some (b, o)) (h2 : acts s b o = true)
    (h3 : statusWords.contains (regAddr b o) = true) (h4 : addr % 4 = 0) (h5 : seqMode s = true)
    (h6 : value.toNat / 2 ^ 24 % 256 ≠ evseqOf s (regAddr b o)) :
    Completes (.statusAck addr value) s fun t =>
      (∀ e, eventBit s e = true → eventBit t e = true) ∧ counter t cAckStale = min (counter s cAckStale + 1) sMax := by
  refine ⟨acknowledge (regAddr b o) value.toNat s, ?_, ?_⟩
  · show execStatusAck addr value s = _
    unfold execStatusAck
    rw [h1]
    dsimp only
    rw [if_pos (by simp [h2, h4, List.contains_iff_mem.1 h3])]
  · unfold acknowledge
    unfold evseqOf at h6
    rw [if_pos h5] at h6
    rw [if_pos h5]
    dsimp only
    rw [if_neg h6]
    exact ⟨fun e he => eventBit_bump_of he, counter_bump_same _ _ _⟩

/-! ## Writes to registers (R10, R368, R370) -/

/-- An access to an unused range raises UNMAPPED_ACCESS and is counted. -/
theorem unmappedAccess_effect {addr : Nat} {s : State} (h1 : stwOn s = true) (h2 : unusedRange addr = true) :
    Completes (.unmappedAccess addr) s fun t =>
      eventBit t .unmappedAccess = true ∧ counter t cUnmapped = min (counter s cUnmapped + 1) sMax ∧
      Only [.hif, .hlt, .status, .counters] s t := by
  refine ⟨unmapped s, ?_, eventBit_raise_same _ _, ?_, ?_⟩
  · show execUnmappedAccess addr s = _
    unfold execUnmappedAccess
    rw [h1, h2]
    rfl
  · unfold unmapped; rw [raise_counter, counter_bump_same]
  · unfold unmapped; exact raise_only rfl _ (bump_only rfl _ _ (Only.refl _ s))

/-- A write that is not aligned or does not enable all four bytes, outside the unused ranges, changes nothing. -/
theorem registerWrite_partial {addr be : Nat} {value : Word} {s : State} (h1 : stwOn s = true)
    (h2 : (touched addr).any unusedRange = false) (h3 : addr % 4 ≠ 0 ∨ be % 16 ≠ 15) :
    Completes (.registerWrite addr value be) s fun t => t = s := by
  refine ⟨s, ?_, rfl⟩
  show execRegisterWrite addr value be s = _
  unfold execRegisterWrite
  rw [h1, h2, if_neg (by decide), if_neg (by decide), if_neg (by omega)]

/-- A write that touches an unused range is counted. -/
theorem registerWrite_unused {addr be : Nat} {value : Word} {s : State} (h1 : stwOn s = true)
    (h2 : (touched addr).any unusedRange = true) :
    Completes (.registerWrite addr value be) s fun t =>
      eventBit t .unmappedAccess = true ∧ counter t cUnmapped = min (counter s cUnmapped + 1) sMax := by
  refine ⟨unmapped s, ?_, eventBit_raise_same _ _, ?_⟩
  · show execRegisterWrite addr value be s = _
    unfold execRegisterWrite
    rw [h1, h2]
    rfl
  · unfold unmapped; rw [raise_counter, counter_bump_same]

theorem registerWrite_word {addr b o : Nat} {value : Word} {s : State} (h1 : stwOn s = true) (h2 : blockWord addr = some (b, o))
    (h3 : addr % 4 = 0) : exec (.registerWrite addr value 15) s = .next (writeWord b o value.toNat s) := by
  show execRegisterWrite addr value 15 s = _
  unfold execRegisterWrite
  have hlt : addr < 0x0E00000 := by
    unfold blockWord at h2; split at h2
    · assumption
    · cases h2
  have hu : (touched addr).any unusedRange = false := by
    unfold touched unusedRange; rw [if_pos h3]; simp; omega
  rw [h1, hu, if_neg (by decide), if_neg (by decide), if_pos ⟨h3, rfl⟩]
  unfold busWrite
  rw [h2]

/-- An aligned write of all four bytes to the two words of STW_CHARTER_SRC keeps their RW bits; RSVD bits stay 0. -/
theorem registerWrite_source {addr : Nat} {value : Word} {s : State} (h1 : stwOn s = true) (h3 : addr % 4 = 0) :
    (blockWord addr = some (0, 0x200) → Completes (.registerWrite addr value 15) s fun t =>
      regWord t 0 0x200 = value.toNat &&& 0xFFFFFFC0 ∧ Only [.hif] s t) ∧
    (blockWord addr = some (0, 0x204) → Completes (.registerWrite addr value 15) s fun t =>
      regWord t 0 0x204 = value.toNat &&& 0xFFFF ∧ Only [.hif] s t) := by
  have hr : ∀ (o : Nat) (u : State), stwOn u = true → liveWord u 0 o = heldWord u 0 o → regWord u 0 o = heldWord u 0 o := by
    intro o u h e; unfold regWord; rw [if_pos (acts_stw h o), e]
  have ho : ∀ o, Only [.hif] s (keepWord 0 o value.toNat s) := fun o => keepWord_only rfl _ _ _ (Only.refl _ s)
  refine ⟨fun h2 => ⟨_, registerWrite_word h1 h2 h3, ?_⟩, fun h2 => ⟨_, registerWrite_word h1 h2 h3, ?_⟩⟩
  · have e : writeWord 0 0x200 value.toNat s = keepWord 0 0x200 value.toNat s := by
      unfold writeWord; rw [acts_stw h1]; rfl
    rw [e]
    exact ⟨(hr 0x200 (keepWord 0 0x200 value.toNat s) h1 rfl).trans (keepWord_rw 0 0x200 _ s), ho _⟩
  · have e : writeWord 0 0x204 value.toNat s = keepWord 0 0x204 value.toNat s := by
      unfold writeWord; rw [acts_stw h1]; rfl
    rw [e]
    exact ⟨(hr 0x204 (keepWord 0 0x204 value.toNat s) h1 rfl).trans (keepWord_rw 0 0x204 _ s), ho _⟩

/-- A write to a word that has no RW, WA or SQ bit changes nothing. -/
theorem registerWrite_readOnly {addr b o : Nat} {value : Word} {s : State} (h1 : stwOn s = true) (h2 : blockWord addr = some (b, o))
    (h3 : addr % 4 = 0) (h4 : statusWords.contains (regAddr b o) = false) (h5 : rwMask b o = 0) (h6 : actions b o = 0)
    (h7 : b ≠ 1) : Completes (.registerWrite addr value 15) s fun t => t = s := by
  refine ⟨_, registerWrite_word h1 h2 h3, ?_⟩
  unfold writeWord
  dsimp only
  split
  · rfl
  · rw [h4, if_neg (by decide)]
    split
    · exact absurd h5 (by decide)
    · exact absurd h5 (by decide)
    · exact absurd h6 (by decide)
    · exact absurd h5 (by decide)
    · exact absurd rfl h7
    · exact absurd h6 (by decide)
    · exact absurd h5 (by decide)
    · exact absurd h5 (by decide)
    · exact absurd h5 (by decide)
    · rfl

/-- A write through the alias of bit `i` of STW_CHARTER_SRC_LO sets or clears that bit alone. -/
theorem aliasBitWrite_bit {addr i : Nat} {value : Word} {s : State} (h1 : stwOn s = true) (h2 : aliasWord addr = some (0, 0x200, i))
    (h3 : addr % 4 = 0) (h4 : 6 ≤ i) (h5 : i < 32) (h6 : regWord s 0 0x200 &&& 0xFFFFFFC0 = regWord s 0 0x200) :
    Completes (.aliasBitWrite addr value) s fun t =>
      (∀ j, (regWord t 0 0x200).testBit j = if j = i then decide (value.toNat % 2 = 1) else (regWord s 0 0x200).testBit j) ∧
      Only [.hif] s t := by
  obtain ⟨w, hw⟩ : ∃ w, w = regWord s 0 0x200 - (regWord s 0 0x200 &&& 2 ^ i) + value.toNat % 2 * 2 ^ i := ⟨_, rfl⟩
  have hb := testBit_replace (regWord s 0 0x200) i (value.toNat % 2) (by omega)
  rw [← hw] at hb
  have ha : bitOf (actions 0 0x200) i = false := by unfold actions bitOf; simp
  have hm : bitOf (writable 0 0x200) i = true := by
    have : ∀ k < 32, 6 ≤ k → bitOf (writable 0 0x200) k = true := by decide
    exact this i h5 h4
  have e : exec (.aliasBitWrite addr value) s = .next (keepWord 0 0x200 w s) := by
    show execAliasBitWrite addr value s = _
    unfold execAliasBitWrite
    rw [h2]
    dsimp only
    rw [if_pos h3]
    unfold writeBit
    dsimp only
    rw [acts_stw h1, ha, hm]
    rw [if_neg (by decide), if_neg (by decide), if_pos rfl]
    have hk : regWord s 0 0x200 &&& writable 0 0x200 = regWord s 0 0x200 := h6
    rw [hk, ← hw]
    unfold writeWord
    rw [acts_stw h1]
    rfl
  refine ⟨_, e, fun j => ?_, keepWord_only rfl _ _ _ (Only.refl _ s)⟩
  have hr : regWord (keepWord 0 0x200 w s) 0 0x200 = w &&& 0xFFFFFFC0 := by
    unfold regWord
    rw [if_pos (acts_stw (s := keepWord 0 0x200 w s) h1 _)]
    exact keepWord_rw 0 0x200 _ s
  rw [hr, Nat.testBit_and, hb j]
  by_cases hj : j = i
  · subst hj
    have : ∀ k < 32, 6 ≤ k → Nat.testBit 0xFFFFFFC0 k = true := by decide
    simp [this j h5 h4]
  · have hc := congrArg (fun x => Nat.testBit x j) h6
    simp only [Nat.testBit_and] at hc
    simp only [hj, if_false]
    exact hc

/-- A write through the alias of a bit that is neither RW nor WA, or of an SQ word, changes nothing. -/
theorem aliasBitWrite_ignored {addr b o i : Nat} {value : Word} {s : State} (h2 : aliasWord addr = some (b, o, i))
    (h3 : statusWords.contains (regAddr b o) = true ∨ (bitOf (actions b o) i = false ∧ bitOf (writable b o) i = false)) :
    Completes (.aliasBitWrite addr value) s fun t => t = s := by
  refine ⟨_, rfl, ?_⟩
  rw [h2]
  dsimp only
  split
  · unfold writeBit
    dsimp only
    split
    · rfl
    · rename_i hn
      rcases h3 with h3 | ⟨h3, h4⟩
      · rw [h3] at hn; simp at hn
      · rw [h3, h4, if_neg (by decide), if_neg (by decide)]
  · rfl

end Sys2Proof.Machine
end

