-- ==== Sys2Proof/Laws/EffSpdm.lean ====
section
/-! SUPPORT. What the requests of attestation and the programming of IDE keys do (R292, R293, R298 to R302, R358). -/

namespace Sys2Proof.Machine

open Sys2Proof.Safety

theorem spdmOf_setSpdm (t : SpdmPort) (c : Spdm) (s : State) : spdmOf (setSpdm t c s) t = c := by cases t <;> rfl

theorem spdmOf_respond (t : SpdmPort) (c : Spdm) (request response : List Byte) (s : State) :
    spdmOf (respond t c request response s) t = { c with
      response := response, transcript := c.transcript ++ request ++ response } := spdmOf_setSpdm _ _ _

theorem setSpdm_free (t : SpdmPort) (c : Spdm) (s : State) : (setSpdm t c s).freeCtr = s.freeCtr := by cases t <;> rfl

theorem spdmRequest_run {t : SpdmPort} {act : State → State} {s : State} (h : spdmOn s t = true) :
    spdmRequest t act s = .next (act s) := by
  unfold spdmRequest
  rw [if_pos h]

theorem spdmReady_run {t : SpdmPort} {act : Spdm → State → State} {s : State} (h : spdmOn s t = true)
    (h2 : (spdmOf s t).algos = true) : spdmReady t act s = .next (act (spdmOf s t) s) := by
  unfold spdmReady
  rw [spdmRequest_run h, if_pos h2]

theorem completes_request {c : Instr} {t : SpdmPort} {act : State → State} {s : State} {P : State → Prop}
    (he : exec c s = spdmRequest t act s) (h : spdmOn s t = true) (hp : P (act s)) : Completes c s P :=
  ⟨_, he.trans (spdmRequest_run h), hp⟩

theorem completes_ready {c : Instr} {t : SpdmPort} {act : Spdm → State → State} {s : State} {P : State → Prop}
    (he : exec c s = spdmReady t act s) (h : spdmOn s t = true) (h2 : (spdmOf s t).algos = true)
    (hp : P (act (spdmOf s t) s)) : Completes c s P :=
  ⟨_, he.trans (spdmReady_run h h2), hp⟩

/-- ERROR: the response, the count, the event. -/
theorem spdmFail_at (t : SpdmPort) (code data : Nat) (s : State) :
    spdmOf (spdmFail t code data s) t = { spdmOf s t with response := spdmHead (spdmOf s t).byte 0x7F code data } ∧
    eventBit (spdmFail t code data s) .spdmError = true ∧
    counter (spdmFail t code data s) cSpdmError = min (counter s cSpdmError + 1) sMax := by
  unfold spdmFail
  dsimp only
  refine ⟨?_, eventBit_raise_same _ _, ?_⟩
  · have : ∀ u, spdmOf (raise .spdmError (bump cSpdmError 1 u)) t = spdmOf u t := by
      intro u
      unfold spdmOf
      cases t <;> simp
    rw [this, spdmOf_setSpdm]
  · rw [raise_counter, counter_bump_same]
    cases t <;> rfl

theorem getVersion_effect {p : SpdmPort} {s : State} (h : spdmOn s p = true) :
    Completes (.getVersion p) s fun t =>
      spdmOf t p = { version := 0x10, caps := false, algos := false
                     response := spdmHead 0x10 0x04 0 0 ++ le 1 0 ++ le 1 2 ++ le 2 0x1200 ++ le 2 0x1300
                     transcript := spdmHead 0x10 0x84 0 0 ++
                       (spdmHead 0x10 0x04 0 0 ++ le 1 0 ++ le 1 2 ++ le 2 0x1200 ++ le 2 0x1300) } := by
  refine completes_request (by unfold exec; dsimp only; unfold execGetVersion; rfl) h ?_
  rw [spdmOf_respond]
  rfl

theorem getCapabilities_effect {p : SpdmPort} {s : State} (h : spdmOn s p = true) (h2 : (spdmOf s p).version ≠ 0) :
    Completes (.getCapabilities p) s fun t => ∃ ex tr la, ex < 32 ∧
      spdmOf t p = { spdmOf s p with
        caps := true
        response := spdmHead (spdmOf s p).byte 0x61 0 0 ++ zeros 1 ++ le 1 ex ++ zeros 2 ++ le 4 spdmFlags ++ le 4 tr ++ le 4 la
        transcript := (spdmOf s p).transcript ++ spdmHead (spdmOf s p).byte 0xE1 0 0 ++
          (spdmHead (spdmOf s p).byte 0x61 0 0 ++ zeros 1 ++ le 1 ex ++ zeros 2 ++ le 4 spdmFlags ++ le 4 tr ++ le 4 la) } := by
  refine completes_request (by unfold exec; dsimp only; unfold execGetCapabilities; rfl) h ?_
  dsimp only
  rw [if_neg h2, spdmOf_respond]
  exact ⟨_, _, _, Nat.mod_lt _ (by decide), rfl⟩

theorem getCapabilities_early {p : SpdmPort} {s : State} (h : spdmOn s p = true) (h2 : (spdmOf s p).version = 0) :
    Completes (.getCapabilities p) s fun t =>
      spdmOf t p = { spdmOf s p with response := spdmHead (spdmOf s p).byte 0x7F errUnexpected 0 } ∧
      eventBit t .spdmError = true ∧ counter t cSpdmError = min (counter s cSpdmError + 1) sMax := by
  refine completes_request (by unfold exec; dsimp only; unfold execGetCapabilities; rfl) h ?_
  dsimp only
  rw [if_pos h2]
  exact spdmFail_at _ _ _ _

theorem negotiateAlgorithms_effect {p : SpdmPort} {version : Nat} {base meas asym : List Nat} {s : State} (h : spdmOn s p = true)
    (h2 : (spdmOf s p).caps = true) (h3 : version = 0x12 ∨ version = 0x13) (h4 : algSha384 ∈ base) (h5 : algSha384 ∈ meas)
    (h6 : algBrainpool ∈ asym) :
    Completes (.negotiateAlgorithms p version base meas asym) s fun t =>
      spdmOf t p = { spdmOf s p with
        version := version, algos := true
        response := spdmHead version 0x63 0 0 ++ le 4 algSha384 ++ le 4 algSha384 ++ le 4 algBrainpool
        transcript := (spdmOf s p).transcript ++ (spdmHead version 0xE3 0 0 ++
            ((base.map (le 4)).flatten ++ (meas.map (le 4)).flatten ++ (asym.map (le 4)).flatten)) ++
          (spdmHead version 0x63 0 0 ++ le 4 algSha384 ++ le 4 algSha384 ++ le 4 algBrainpool) } := by
  refine completes_request (by unfold exec; dsimp only; unfold execNegotiateAlgorithms; rfl) h ?_
  dsimp only
  rw [if_neg (by simp [h2]), if_neg (by omega), if_neg (by simp [h4, h5, h6]), spdmOf_respond]

theorem negotiateAlgorithms_refused {p : SpdmPort} {version : Nat} {base meas asym : List Nat} {s : State} (h : spdmOn s p = true)
    (h2 : (spdmOf s p).caps = true) (h3 : version = 0x12 ∨ version = 0x13)
    (h4 : algSha384 ∉ base ∨ algSha384 ∉ meas ∨ algBrainpool ∉ asym) :
    Completes (.negotiateAlgorithms p version base meas asym) s fun t =>
      spdmOf t p = { spdmOf s p with response := spdmHead (spdmOf s p).byte 0x7F errInvalid 0 } ∧
      eventBit t .spdmError = true ∧ counter t cSpdmError = min (counter s cSpdmError + 1) sMax := by
  refine completes_request (by unfold exec; dsimp only; unfold execNegotiateAlgorithms; rfl) h ?_
  dsimp only
  rw [if_neg (by simp [h2]), if_neg (by omega), if_pos (by rcases h4 with h4 | h4 | h4 <;> simp [h4])]
  exact spdmFail_at _ _ _ _

theorem getDigests_effect {p : SpdmPort} {s : State} (h : spdmOn s p = true) (h2 : (spdmOf s p).algos = true) :
    Completes (.getDigests p) s fun t =>
      spdmOf t p = { spdmOf s p with
        response := spdmHead (spdmOf s p).byte 0x01 0 1 ++ sha384 (certChain s)
        transcript := (spdmOf s p).transcript ++ spdmHead (spdmOf s p).byte 0x81 0 0 ++
          (spdmHead (spdmOf s p).byte 0x01 0 1 ++ sha384 (certChain s)) } := by
  refine completes_ready (by unfold exec; dsimp only; unfold execGetDigests; rfl) h h2 ?_
  rw [spdmOf_respond]

theorem getDigests_early {p : SpdmPort} {s : State} (h : spdmOn s p = true) (h2 : (spdmOf s p).algos = false) :
    Completes (.getDigests p) s fun t =>
      spdmOf t p = { spdmOf s p with response := spdmHead (spdmOf s p).byte 0x7F errUnexpected 0 } ∧
      eventBit t .spdmError = true ∧ counter t cSpdmError = min (counter s cSpdmError + 1) sMax := by
  refine ⟨spdmFail p errUnexpected 0 s, ?_, spdmFail_at _ _ _ _⟩
  unfold exec
  dsimp only
  unfold execGetDigests
  unfold spdmReady
  rw [spdmRequest_run h]
  dsimp only
  rw [if_neg (by simp [h2])]

theorem getCertificate_effect {p : SpdmPort} {offset length : Nat} {s : State} (h : spdmOn s p = true)
    (h2 : (spdmOf s p).algos = true) (h3 : offset < (certChain s).length) :
    Completes (.getCertificate p 0 offset length) s fun t =>
      (spdmOf t p).response = spdmHead (spdmOf s p).byte 0x02 0 0 ++ le 2 (((certChain s).drop offset).take length).length ++
        le 2 ((certChain s).length - offset - (((certChain s).drop offset).take length).length) ++
        ((certChain s).drop offset).take length ∧
      (spdmOf t p).transcript = (spdmOf s p).transcript ++
        (spdmHead (spdmOf s p).byte 0x82 0 0 ++ le 2 offset ++ le 2 length) ++ (spdmOf t p).response := by
  refine completes_ready (by unfold exec; dsimp only; unfold execGetCertificate; rfl) h h2 ?_
  dsimp only
  rw [if_neg (by omega), spdmOf_respond]
  exact ⟨rfl, rfl⟩

theorem getCertificate_refused {p : SpdmPort} {slot offset length : Nat} {s : State} (h : spdmOn s p = true)
    (h2 : (spdmOf s p).algos = true) (h3 : slot ≠ 0 ∨ (certChain s).length ≤ offset) :
    Completes (.getCertificate p slot offset length) s fun t =>
      spdmOf t p = { spdmOf s p with response := spdmHead (spdmOf s p).byte 0x7F errInvalid 0 } ∧
      eventBit t .spdmError = true ∧ counter t cSpdmError = min (counter s cSpdmError + 1) sMax := by
  refine completes_ready (by unfold exec; dsimp only; unfold execGetCertificate; rfl) h h2 ?_
  dsimp only
  rw [if_pos h3]
  exact spdmFail_at _ _ _ _

theorem freeBytes_length (n : Nat) (s : State) : (freeBytes n s).1.length = n := by
  induction n generalizing s with
  | zero => rfl
  | succ n ih => simp [freeBytes, ih]

theorem challenge_effect {p : SpdmPort} {nonce : List Byte} {s : State} (h : spdmOn s p = true) (h2 : (spdmOf s p).algos = true) :
    Completes (.challenge p 0 nonce) s fun t => ∃ fresh : List Byte, fresh.length = 32 ∧
      spdmOf t p = { spdmOf s p with
        transcript := []
        response := spdmHead (spdmOf s p).byte 0x03 0 1 ++ sha384 (certChain s) ++ fresh ++ le 2 0 ++
          signature s ((spdmOf s p).transcript ++ (spdmHead (spdmOf s p).byte 0x83 0 0 ++ fit 32 nonce) ++
            (spdmHead (spdmOf s p).byte 0x03 0 1 ++ sha384 (certChain s) ++ fresh ++ le 2 0)) } := by
  refine completes_ready (by unfold exec; dsimp only; unfold execChallenge; rfl) h h2 ?_
  dsimp only
  rw [if_neg (by decide), spdmOf_setSpdm]
  exact ⟨(freeBytes 32 s).1, freeBytes_length _ _, rfl⟩

theorem getMeasurements_effect {p : SpdmPort} {index : Nat} {nonce : List Byte} {s : State} (h : spdmOn s p = true)
    (h2 : (spdmOf s p).algos = true) (h3 : 1 ≤ index) (h4 : index ≤ 9) :
    Completes (.getMeasurements p index false nonce) s fun t => ∃ fresh : List Byte, fresh.length = 32 ∧
      (spdmOf t p).response = spdmHead (spdmOf s p).byte 0x60 0 0 ++ le 1 1 ++ le 3 (measurementBlock s index).length ++
        measurementBlock s index ++ fresh ++ le 2 0 ∧
      (spdmOf t p).transcript = (spdmOf s p).transcript ++ (spdmHead (spdmOf s p).byte 0xE0 0 index ++ []) ++
        (spdmOf t p).response := by
  refine completes_ready (by unfold exec; dsimp only; unfold execGetMeasurements; rfl) h h2 ?_
  dsimp only
  have e1 : ¬ (index = 0xFF) := by omega
  have e2 : ¬ (index = 0) := by omega
  rw [if_neg (by omega), if_neg (by decide), spdmOf_respond]
  refine ⟨(freeBytes 32 s).1, freeBytes_length _ _, ?_, rfl⟩
  simp [e1, e2]

theorem getMeasurements_signed {p : SpdmPort} {index : Nat} {nonce : List Byte} {s : State} (h : spdmOn s p = true)
    (h2 : (spdmOf s p).algos = true) (h3 : 1 ≤ index) (h4 : index ≤ 9) :
    Completes (.getMeasurements p index true nonce) s fun t => ∃ fresh : List Byte, fresh.length = 32 ∧
      (spdmOf t p).transcript = [] ∧
      (spdmOf t p).response = (spdmHead (spdmOf s p).byte 0x60 0 0 ++ le 1 1 ++ le 3 (measurementBlock s index).length ++
          measurementBlock s index ++ fresh ++ le 2 0) ++
        signature s ((spdmOf s p).transcript ++ (spdmHead (spdmOf s p).byte 0xE0 1 index ++ fit 32 nonce) ++
          (spdmHead (spdmOf s p).byte 0x60 0 0 ++ le 1 1 ++ le 3 (measurementBlock s index).length ++
            measurementBlock s index ++ fresh ++ le 2 0)) := by
  refine completes_ready (by unfold exec; dsimp only; unfold execGetMeasurements; rfl) h h2 ?_
  dsimp only
  have e1 : ¬ (index = 0xFF) := by omega
  have e2 : ¬ (index = 0) := by omega
  rw [if_neg (by omega), if_pos rfl, spdmOf_setSpdm]
  refine ⟨(freeBytes 32 s).1, freeBytes_length _ _, rfl, ?_⟩
  simp [e1, e2, b2n]

theorem spdmUnsupported_effect {p : SpdmPort} {code : Nat} {s : State} (h : spdmOn s p = true) :
    Completes (.spdmUnsupportedRequest p code) s fun t =>
      spdmOf t p = { spdmOf s p with response := spdmHead (spdmOf s p).byte 0x7F errUnsupported code } ∧
      eventBit t .spdmError = true ∧ counter t cSpdmError = min (counter s cSpdmError + 1) sMax :=
  completes_request (by unfold exec; dsimp only; unfold execSpdmUnsupportedRequest; rfl) h (spdmFail_at _ _ _ _)

/-! ## IDE keys (R292, R293, R358) -/

theorem keyProg_run {port : Nat} {stream : Bool} {blob : List Byte} {opened : Option (List Byte)} {s : State} (h1 : port < 2)
    (h2 : blob.length = 256) (h3 : mailboxOn s (cxlOf s port) = true) :
    exec (.keyProg port stream blob opened) s = .next (keyProg port stream blob opened s) := by
  unfold exec
  dsimp only
  unfold execKeyProg
  have : (decide (port < 2) && blob.length == 256 && mailboxOn s (if port = 0 then s.hif.x0 else s.hif.x1)) = true := by
    have h3' : mailboxOn s (if port = 0 then s.hif.x0 else s.hif.x1) = true := h3
    rw [h3']
    simp [h1, h2]
  dsimp only
  rw [if_pos this]

theorem cxlOf_setSpdm (t : SpdmPort) (c : Spdm) (s : State) (port : Nat) : cxlOf (setSpdm t c s) port = cxlOf s port := by
  cases t <;> rfl

/-- A blob that is refused: threshold, SEC_KEY_RESULT, count and event; nothing else. -/
theorem takeBlob_refused (b : List Byte) (opened : Option (List Byte)) (doe : Bool) (port : Nat) {cause : Nat} (s : State)
    (h : cause ≠ 0) : takeBlob b opened doe port cause s = raise .keyRefused (bump cKeyRefuse 1 { s with sec := { s.sec with
      installSeq := if cause = causeStale then s.sec.installSeq else some (fld b 4 4)
      keyResult := keyResultOf b doe port cause } }) := by
  unfold takeBlob
  rw [if_neg h]
  congr 2
  split <;> rfl

/-- KEY_PROG of a blob that is refused (R293). -/
theorem keyProg_refused {port : Nat} {stream : Bool} {blob : List Byte} {opened : Option (List Byte)} {s : State} (h1 : port < 2)
    (h2 : blob.length = 256) (h3 : mailboxOn s (cxlOf s port) = true) (h4 : blobCause s blob opened true stream ≠ 0) :
    Completes (.keyProg port stream blob opened) s fun t =>
      cxlOf t port = cxlOf s port ∧ t.sec.ide = s.sec.ide ∧
      t.sec.keyResult = keyResultOf blob true port (blobCause s blob opened true stream) ∧
      t.sec.installSeq = (if blobCause s blob opened true stream = causeStale then s.sec.installSeq else some (fld blob 4 4)) ∧
      (spdmOf t (mailboxOf port)).response = le 1 3 ++ le 1 (blobTarget blob) ++ zeros 1 ++
        le 1 (blobCause s blob opened true stream) ∧
      eventBit t .keyRefused = true ∧ counter t cKeyRefuse = min (counter s cKeyRefuse + 1) sMax := by
  refine ⟨_, keyProg_run h1 h2 h3, ?_⟩
  generalize hc : blobCause s blob opened true stream = c at h4 ⊢
  unfold keyProg
  dsimp only
  rw [hc, takeBlob_refused _ _ _ _ _ h4, if_pos h4]
  obtain ⟨u, hu⟩ : ∃ u : State, u = { s with sec := { s.sec with
      installSeq := if c = causeStale then s.sec.installSeq else some (fld blob 4 4)
      keyResult := keyResultOf blob true port c } } := ⟨_, rfl⟩
  rw [← hu]
  have u1 : cxlOf u port = cxlOf s port := by rw [hu]; rfl
  have u2 : u.sec = { s.sec with
      installSeq := if c = causeStale then s.sec.installSeq else some (fld blob 4 4)
      keyResult := keyResultOf blob true port c } := by rw [hu]
  have u5 : counter u cKeyRefuse = counter s cKeyRefuse := by rw [hu]; rfl
  have hx : SameCxl u (raise .keyRefused (bump cKeyRefuse 1 u)) := raise_sameCxl _ (bump_sameCxl _ _ (SameCxl.refl _))
  have hs : (raise .keyRefused (bump cKeyRefuse 1 u)).sec = u.sec := by rw [raise_sec, bump_sec]
  have he : eventBit (raise .keyRefused (bump cKeyRefuse 1 u)) .keyRefused = true := eventBit_raise_same _ _
  have hk : counter (raise .keyRefused (bump cKeyRefuse 1 u)) cKeyRefuse = min (counter s cKeyRefuse + 1) sMax := by
    rw [raise_counter, counter_bump_same, u5]
  generalize raise .keyRefused (bump cKeyRefuse 1 u) = w at hx hs he hk ⊢
  refine ⟨?_, ?_, ?_, ?_, ?_, ?_, ?_⟩
  · rw [cxlOf_setSpdm, cxlOf_same hx, u1]
  · have : ∀ t c, (setSpdm t c w).sec.ide = w.sec.ide := by intro t c; cases t <;> rfl
    rw [this, hs, u2]
  · have : ∀ t c, (setSpdm t c w).sec.keyResult = w.sec.keyResult := by intro t c; cases t <;> rfl
    rw [this, hs, u2]
  · have : ∀ t c, (setSpdm t c w).sec.installSeq = w.sec.installSeq := by intro t c; cases t <;> rfl
    rw [this, hs, u2]
  · unfold mailboxOf
    rw [spdmOf_setSpdm]
  · split <;> exact he
  · split <;> exact hk

theorem applyBlob_ide {blob key : List Byte} {port : Nat} {s : State} (h : blobKind blob = 0x10) :
    applyBlob blob key port s = { s with sec := { s.sec with
      ide := Tab.put (port * 256 + blobTarget blob) (unle (key.take 32)) s.sec.ide } } := by
  unfold applyBlob
  simp only [h]

/-- A blob that meets its tests on the way of a mailbox is an IDE key. -/
theorem blobCause_kind {s : State} {blob : List Byte} {opened : Option (List Byte)} {stream : Bool}
    (h : blobCause s blob opened true stream = 0) : blobKind blob = 0x10 := by
  unfold blobCause at h
  split at h
  · cases h
  split at h
  · cases h
  split at h
  · cases h
  rename_i hr
  have hr' : blobRangeOk blob true = true := by simpa using hr
  unfold blobRangeOk at hr'
  simp only [Bool.and_eq_true] at hr'
  have := hr'.2
  split at this <;> simp_all

/-- KEY_PROG of a blob that is accepted: the key is in place and IDE runs again (R358). -/
theorem keyProg_accepted {port : Nat} {stream : Bool} {blob : List Byte} {opened : Option (List Byte)} {s : State} (h1 : port < 2)
    (h2 : blob.length = 256) (h3 : mailboxOn s (cxlOf s port) = true) (h4 : blobCause s blob opened true stream = 0) :
    Completes (.keyProg port stream blob opened) s fun t =>
      cxlOf t port = { cxlOf s port with ide := true, ideDown := false } ∧
      t.sec.ide = Tab.put (port * 256 + blobTarget blob) (unle ((opened.getD []).take 32)) s.sec.ide ∧
      t.sec.keyResult = keyResultOf blob true port 0 ∧
      t.sec.installSeq = some (fld blob 4 4) ∧
      (spdmOf t (mailboxOf port)).response = le 1 3 ++ le 1 (blobTarget blob) ++ zeros 1 ++ le 1 0 := by
  refine ⟨_, keyProg_run h1 h2 h3, ?_⟩
  have hk := blobCause_kind h4
  have ht : takeBlob blob opened true port 0 s = { s with sec := { s.sec with
      installSeq := some (fld blob 4 4), keyResult := keyResultOf blob true port 0
      ide := Tab.put (port * 256 + blobTarget blob) (unle ((opened.getD []).take 32)) s.sec.ide } } := by
    unfold takeBlob
    rw [if_pos rfl, applyBlob_ide hk, if_neg (by decide)]
    rfl
  unfold keyProg
  dsimp only
  rw [h4, ht, if_neg (by decide)]
  have hm : ∀ c u, ((setSpdm (if port = 0 then SpdmPort.doe0 else .doe1) c u).sec.ide = u.sec.ide) ∧
      ((setSpdm (if port = 0 then SpdmPort.doe0 else .doe1) c u).sec.keyResult = u.sec.keyResult) ∧
      ((setSpdm (if port = 0 then SpdmPort.doe0 else .doe1) c u).sec.installSeq = u.sec.installSeq) := by
    intro c u
    split <;> exact ⟨rfl, rfl, rfl⟩
  obtain rfl | rfl : port = 0 ∨ port = 1 := by omega
  · refine ⟨rfl, (hm _ _).1, (hm _ _).2.1, (hm _ _).2.2, rfl⟩
  · refine ⟨rfl, (hm _ _).1, (hm _ _).2.1, (hm _ _).2.2, rfl⟩

end Sys2Proof.Machine
end

