-- ==== Sys2Proof/Laws/EffSupply.lean ====
section
/-! SUPPORT. What the commands of the supply, the signals and the management port do (R45, R389, R390, R405 to R417). -/

namespace Sys2Proof.Machine

open Sys2Proof.Safety

/-! ## Switching off (R390, R409) -/

theorem powerOff_off (s : State) : PoweredOff s (powerOff s) := by
  have hs : (loseFlash s).sec = s.sec := (loseFlash_only (pts := [.stw, .free]) rfl (Only.refl _ s)).2 .sec rfl
  refine ⟨rfl, rfl, rfl, ⟨rfl, rfl⟩, ⟨rfl, rfl, rfl⟩, ⟨rfl, rfl⟩, ⟨rfl, rfl⟩, rfl, ⟨rfl, rfl⟩, ⟨?_, ?_, ?_⟩, rfl⟩
  · show (loseFlash s).sec.fusedSvn = _; rw [hs]
  · show (loseFlash s).sec.revoked = _; rw [hs]
  · show (loseFlash s).sec.identity = _; rw [hs]

theorem samePins_of {s t : State} (h : t.sup = s.sup) : SamePins s t := by
  constructor <;> rw [h]

theorem samePins_trans {s t u : State} (h : SamePins s t) (k : SamePins t u) : SamePins s u :=
  ⟨k.pwrGood.trans h.pwrGood, k.brown.trans h.brown, k.disconnected.trans h.disconnected, k.volts.trans h.volts,
    k.bank.trans h.bank⟩

theorem powerOff_pins (s : State) : SamePins s (powerOff s) := by
  have hu : (loseFlash s).sup = s.sup := (loseFlash_only (pts := [.stw, .free]) rfl (Only.refl _ s)).2 .sup rfl
  refine samePins_trans (samePins_of hu) ⟨rfl, rfl, rfl, rfl, rfl⟩

theorem powerOff_restarts (s : State) : (powerOff s).stw.restarts = s.stw.restarts := by
  show (loseFlash s).stw.restarts = _
  unfold loseFlash
  split
  · rfl
  · rename_i w _ _
    cases w <;> rfl

theorem poweredOff_of {s u t : State} (h : PoweredOff u t) (h1 : u.sec = s.sec) : PoweredOff s t :=
  { h with fused := by rw [← h1]; exact h.fused }

theorem logPower_pins (event cause : Nat) (s : State) : SamePins s (logPower event cause s) := by
  unfold logPower
  split <;> exact ⟨rfl, rfl, rfl, rfl, rfl⟩

theorem logPower_parts (event cause : Nat) (s : State) : Only [.sup] s (logPower event cause s) :=
  logPower_only rfl event cause (Only.refl _ s)

theorem supplyAt_parts (at_ : Nat) (s : State) : Only [.tmu] s (supplyAt at_ s) := supplyAt_only rfl at_ (Only.refl _ s)

theorem supplyAt_now {at_ : Nat} {s : State} (h : 2 ≤ s.stw.powerStep) : (supplyAt at_ s).tmu.now = max s.tmu.now at_ := by
  unfold supplyAt
  rw [if_pos h]
  rfl

theorem logPower_logged {event cause : Nat} {s : State} (h : 2 ≤ s.stw.powerStep) :
    loggedPower s s.tmu.now event cause (logPower event cause s) := by
  unfold logPower loggedPower
  rw [if_pos h]
  simp

theorem powerFail_off {cause : Nat} {s : State} (h : s.stw.powerStep ≠ 0) :
    PoweredOff s (powerFail cause s) ∧ (powerFail cause s).sup.failed = true ∧ SamePins s (powerFail cause s) := by
  unfold powerFail
  rw [if_neg h]
  have hd : ∀ u, Only [.sqs, .fab, .wei, .hif, .hlt, .status, .counters] s u →
      PoweredOff s { powerOff (logPower 3 cause u) with sup := { (powerOff (logPower 3 cause u)).sup with failed := true } } ∧
      SamePins s { powerOff (logPower 3 cause u) with sup := { (powerOff (logPower 3 cause u)).sup with failed := true } } := by
    intro u hu
    have h2 : (logPower 3 cause u).sec = s.sec := ((logPower_parts 3 cause u).2 .sec rfl).trans (hu.2 .sec rfl)
    have h3 : SamePins s (powerOff (logPower 3 cause u)) :=
      samePins_trans (samePins_trans (samePins_of (hu.2 .sup rfl)) (logPower_pins 3 cause u)) (powerOff_pins _)
    have h4 : PoweredOff s (powerOff (logPower 3 cause u)) := poweredOff_of (powerOff_off _) h2
    exact ⟨{ h4 with }, { h3 with }⟩
  dsimp only
  split
  · have := hd _ (drainSteps_only rfl (failBatches_only rfl (drainSteps_only rfl (Only.refl _ s))))
    exact ⟨this.1, rfl, this.2⟩
  · have := hd _ (Only.refl _ s)
    exact ⟨this.1, rfl, this.2⟩

/-! ## PWR_GOOD and BROWN_WARN_N (R389, R390, R409) -/

theorem pwrGoodRise_effect {s : State} (h1 : s.stw.powerStep = 0) (h2 : s.sup.disconnected = false) (h3 : s.sup.failed = false) :
    Completes .pwrGoodRise s fun t => t = { s with
      sup := { s.sup with pwrGood := true }, stw := { s.stw with powerStep := 1, boot := .powering } } := by
  refine ⟨_, rfl, ?_⟩
  dsimp only
  simp only [h1, h2, h3, decide_true, Bool.not_false, Bool.and_self, Bool.true_or, if_true]
  unfold beginStart
  simp

theorem pwrGoodFall_short {at_ lowUs : Nat} {s : State} (h1 : inService s = true) (h2 : 2 ≤ s.stw.powerStep) (h3 : lowUs ≤ 1000) :
    Completes (.pwrGoodFall at_ lowUs) s fun t =>
      loggedPower s (max s.tmu.now at_) 4 0 t ∧ t.sup.pwrGood = true ∧ t.tmu.now = max s.tmu.now at_ ∧
      t.stw = s.stw ∧ t.sqs = s.sqs ∧ t.car = s.car := by
  have h1' := h1
  unfold inService at h1'
  refine ⟨_, rfl, ?_⟩
  simp [startingUp, inService, supplyAt, logPower, h1', h2, h3, setNow, loggedPower]

theorem pwrGoodFall_long {at_ lowUs : Nat} {s : State} (h1 : inService s = true) (h2 : 2 ≤ s.stw.powerStep) (h3 : 1000 < lowUs) :
    Completes (.pwrGoodFall at_ lowUs) s fun t => PoweredOff s t ∧ t.sup.failed = true ∧ t.sup.pwrGood = false := by
  refine ⟨_, rfl, ?_⟩
  have hs := supplyAt_parts at_ s
  have hl := logPower_parts 4 0 (supplyAt at_ s)
  have e2 : (logPower 4 0 (supplyAt at_ s)).stw = s.stw := (hl.2 .stw rfl).trans (hs.2 .stw rfl)
  have e3 : (logPower 4 0 (supplyAt at_ s)).sec = s.sec := (hl.2 .sec rfl).trans (hs.2 .sec rfl)
  generalize logPower 4 0 (supplyAt at_ s) = u at *
  have hu : ∀ x, inService { u with sup := x } = true := by
    intro x; unfold inService; dsimp only; rw [e2]; exact h1
  have hd : decide (lowUs ≤ 1000) = false := by simp; omega
  dsimp only
  simp only [startingUp, hu, hd, Bool.and_false, Bool.not_true, Bool.false_eq_true, if_false, Bool.not_false, Bool.and_self,
    if_true]
  have h := powerFail_off (cause := 4) (s := { u with sup := { u.sup with pwrGood := false } }) (by
    dsimp only; rw [e2]; omega)
  exact ⟨poweredOff_of h.1 e3, h.2.1, h.2.2.pwrGood⟩

theorem brownWarnTimeout_effect {s : State} (h1 : startingUp s = true) (h2 : s.sup.brown = true) :
    Completes .brownWarnTimeout s fun t => PoweredOff s t ∧ t.stw.restarts = min 255 (s.stw.restarts + 1) := by
  refine ⟨switchOff s, ?_, ?_, rfl⟩
  · simp [exec, execBrownWarnTimeout, h1, h2]
  · exact { powerOff_off s with }

/-! ## Input and bank (R405 to R409) -/

theorem inputLow_effect {at_ volts bank : Nat} {s : State} (h1 : 2 ≤ s.stw.powerStep) (h2 : s.sup.brown = false)
    (h3 : volts < 4000 ∨ bank ≤ 200) :
    Completes (.inputLow at_ volts bank) s fun t =>
      t.sup.brown = true ∧ t.sup.volts = volts ∧ t.sup.bank = bank ∧ t.tmu.now = max s.tmu.now at_ ∧
      t.sup.log = (s.sup.log ++ [powerEntry (max s.tmu.now at_) 1 0 (min s.sup.lowest volts) bank]).drop
        (s.sup.log.length + 1 - 256) ∧ t.stw = s.stw := by
  refine ⟨_, rfl, ?_⟩
  have h0 : s.stw.powerStep ≠ 0 := by omega
  have h3' : (decide (volts < 4000) || decide (bank ≤ 200)) = true := by simpa using h3
  simp [supplyAt, logPower, h1, h2, h3', setNow, setVolts, h0]

theorem inputRestored_effect {at_ volts bank : Nat} {s : State} (h1 : 2 ≤ s.stw.powerStep) (h2 : s.sup.brown = true)
    (h3 : 4200 ≤ volts) (h4 : 200 ≤ bank) :
    Completes (.inputRestored at_ volts bank) s fun t =>
      t.sup.brown = false ∧ t.sup.volts = volts ∧ t.sup.bank = bank ∧ t.tmu.now = max s.tmu.now at_ ∧
      t.sup.log = (s.sup.log ++ [powerEntry (max s.tmu.now at_) 2 0 (min s.sup.lowest volts) bank]).drop
        (s.sup.log.length + 1 - 256) ∧ t.stw = s.stw := by
  refine ⟨_, rfl, ?_⟩
  simp [supplyAt, logPower, h1, h2, h3, h4, setNow, setVolts]

theorem overvoltage_effect {at_ volts : Nat} {s : State} (h1 : s.stw.powerStep ≠ 0) (h2 : 7200 < volts)
    (h3 : s.sup.disconnected = false) :
    Completes (.overvoltage at_ volts) s fun t =>
      PoweredOff s t ∧ t.sup.failed = true ∧ t.sup.disconnected = true ∧ t.sup.volts = volts := by
  have hs := supplyAt_parts at_ s
  have h3' : (setVolts volts (supplyAt at_ s)).sup.disconnected = false := by
    show (supplyAt at_ s).sup.disconnected = _; rw [hs.2 .sup rfl]; exact h3
  unfold Completes
  simp only [exec, execOvervoltage, h2, h3', decide_true, Bool.not_false, Bool.and_self, if_true]
  refine ⟨_, rfl, ?_⟩
  generalize hv : setVolts volts (supplyAt at_ s) = v at *
  have v1 : v.sec = s.sec := by rw [← hv]; exact hs.2 .sec rfl
  have v2 : v.stw = s.stw := by rw [← hv]; exact hs.2 .stw rfl
  have v3 : v.sup.volts = volts := by rw [← hv]; rfl
  have hl := logPower_parts 5 0 { v with sup := { v.sup with disconnected := true } }
  have hp := logPower_pins 5 0 { v with sup := { v.sup with disconnected := true } }
  have h := powerFail_off (cause := 5) (s := logPower 5 0 { v with sup := { v.sup with disconnected := true } }) (by
    rw [hl.2 .stw rfl]; dsimp only; rw [v2]; exact h1)
  exact ⟨poweredOff_of h.1 ((hl.2 .sec rfl).trans v1), h.2.1, h.2.2.disconnected.trans hp.disconnected,
    (h.2.2.volts.trans hp.volts).trans v3⟩

theorem bankReserveReached_effect {at_ : Nat} {s : State} (h1 : s.stw.powerStep ≠ 0) :
    Completes (.bankReserveReached at_) s fun t => PoweredOff s t ∧ t.sup.failed = true ∧ t.sup.bank = 0 := by
  have hs := supplyAt_parts at_ s
  have h := powerFail_off (cause := 1) (s := { supplyAt at_ s with sup := { (supplyAt at_ s).sup with bank := 0 } }) (by
    dsimp only; rw [hs.2 .stw rfl]; exact h1)
  exact ⟨_, rfl, poweredOff_of h.1 (hs.2 .sec rfl), h.2.1, h.2.2.bank⟩

theorem inputReconnect_effect {at_ : Nat} {s : State} (h1 : s.sup.disconnected = true ∨ s.sup.failed = true)
    (h2 : s.stw.powerStep = 0) :
    Completes (.inputReconnect at_) s fun t =>
      t.sup.disconnected = false ∧ t.sup.failed = false ∧ t.sup.pwrGood = true ∧ 4200 ≤ t.sup.volts ∧ t.sup.volts ≤ 7200 ∧
      (4200 ≤ s.sup.volts ∧ s.sup.volts ≤ 7200 → t.sup.volts = s.sup.volts) ∧ t.stw.powerStep = 1 ∧ t.stw.boot = .powering := by
  have e : supplyAt at_ s = s := by unfold supplyAt; rw [if_neg (by omega)]
  unfold Completes
  simp only [exec, execInputReconnect, e]
  rw [if_pos (by simpa using h1)]
  refine ⟨_, rfl, ?_⟩
  by_cases hg : inputGood s = true
  · have hg' := hg
    simp only [inputGood, Bool.and_eq_true, decide_eq_true_eq] at hg'
    simp only [hg, if_true, h2, beginStart]
    simp [hg'.1, hg'.2]
  · have hg' : ¬ (4200 ≤ s.sup.volts ∧ s.sup.volts ≤ 7200) := by
      simpa only [inputGood, Bool.and_eq_true, decide_eq_true_eq] using hg
    have hf : (freeBelow 3001 s).1 < 3001 := Nat.mod_lt _ (by decide)
    have hk : (freeBelow 3001 s).2.stw.powerStep = 0 := h2
    simp only [hg, Bool.false_eq_true, if_false, hk, beginStart, if_true]
    refine ⟨trivial, trivial, trivial, by omega, by omega, fun h => absurd h hg', trivial, trivial⟩

/-! ## Heat and power (R45, R417) -/

theorem thermalHigh_effect {at_ die : Nat} {s : State} (h1 : 2 ≤ s.stw.powerStep) (h2 : die < 20) (h3 : s.sup.hot.contains die = false) :
    Completes (.thermalHigh at_ die) s fun t =>
      loggedPower s (max s.tmu.now at_) 6 0 t ∧ t.sup.hot = s.sup.hot ++ [die] ∧ t.stw = s.stw ∧
      t.tmu = { s.tmu with now := max s.tmu.now at_ } := by
  have h0 : s.stw.powerStep ≠ 0 := by omega
  refine ⟨_, rfl, ?_⟩
  have e : supplyAt at_ s = setNow at_ s := by unfold supplyAt; rw [if_pos h1]
  dsimp only
  rw [e]
  have hb : (decide ((setNow at_ s).stw.powerStep ≠ 0) && decide (die < 20) && !(setNow at_ s).sup.hot.contains die) = true := by
    have : (setNow at_ s).sup.hot.contains die = false := h3
    rw [this]
    simp [h0, h2, setNow]
  rw [if_pos hb]
  have hl := logPower_logged (event := 6) (cause := 0) (s := { setNow at_ s with
    sup := { (setNow at_ s).sup with hot := (setNow at_ s).sup.hot ++ [die] } }) h1
  have hp := logPower_parts 6 0 { setNow at_ s with sup := { (setNow at_ s).sup with hot := (setNow at_ s).sup.hot ++ [die] } }
  refine ⟨hl, ?_, hp.2 .stw rfl, hp.2 .tmu rfl⟩
  unfold logPower
  split <;> rfl

theorem thermalExcursionEnd_effect (die : Nat) (s : State) :
    Completes (.thermalExcursionEnd die) s fun t =>
      t = { s with sup := { s.sup with hot := s.sup.hot.filter (fun d => decide (d ≠ die)) } } := ⟨_, rfl, rfl⟩

theorem thermalTrip_effect {at_ die : Nat} {s : State} (h1 : s.stw.powerStep ≠ 0) (h2 : die < 20) :
    Completes (.thermalTrip at_ die) s fun t => PoweredOff s t ∧ t.sup.failed = true ∧ SamePins s t := by
  have hs := supplyAt_parts at_ s
  have hl := logPower_parts 7 0 (supplyAt at_ s)
  have h := powerFail_off (cause := 7) (s := logPower 7 0 (supplyAt at_ s)) (by
    rw [hl.2 .stw rfl, hs.2 .stw rfl]; exact h1)
  refine ⟨_, rfl, ?_⟩
  dsimp only
  rw [if_pos (by simpa using h2)]
  exact ⟨poweredOff_of h.1 ((hl.2 .sec rfl).trans (hs.2 .sec rfl)), h.2.1,
    samePins_trans (samePins_trans (samePins_of (hs.2 .sup rfl)) (logPower_pins _ _ _)) h.2.2⟩

theorem powerOver_effect {at_ watts : Nat} {s : State} (h1 : inService s = true) (h2 : 2 ≤ s.stw.powerStep)
    (h3 : s.stw.charter.powerCap < watts) :
    Completes (.powerOver at_ watts) s fun t =>
      loggedPower s (max s.tmu.now at_) 8 0 t ∧ eventBit t .powerOver = true ∧
      counter t cPowerOver = min (counter s cPowerOver + 1) sMax ∧ t.stw = s.stw := by
  refine ⟨_, rfl, ?_⟩
  have e : supplyAt at_ s = setNow at_ s := by unfold supplyAt; rw [if_pos h2]
  dsimp only
  rw [e]
  have hb : (inService (setNow at_ s) && decide ((setNow at_ s).stw.charter.powerCap < watts)) = true := by
    have : inService (setNow at_ s) = true := h1
    rw [this, Bool.true_and]; exact decide_eq_true h3
  rw [if_pos hb]
  have hp := logPower_parts 8 0 (raise .powerOver (bump cPowerOver 1 (setNow at_ s)))
  have hl := logPower_logged (event := 8) (cause := 0) (s := raise .powerOver (bump cPowerOver 1 (setNow at_ s))) (by simpa using h2)
  refine ⟨?_, ?_, ?_, ?_⟩
  · unfold loggedPower at hl
    simp only [raise_sup, bump_sup, raise_tmu, bump_tmu] at hl
    exact hl
  · exact (logPower_grows _ _ (Grows.refl _)).bits _ (by simp)
  · unfold counter counterRaw
    rw [hp.2 .counters rfl]
    have := counter_bump_same cPowerOver 1 (setNow at_ s)
    unfold counter counterRaw at this
    rw [raise_counters]
    exact this
  · rw [hp.2 .stw rfl]; simp

/-! ## The management port (R413) -/

theorem getSensors_effect {v : Sensors} {s : State} (h : 2 ≤ s.stw.powerStep) :
    Completes (.getSensors v) s fun t => t = { s with sup := { s.sup with answer := sensorBytes v } } :=
  ⟨_, rfl, by simp [manage, managed, h]⟩

theorem getIdentity_effect {s : State} (h : 2 ≤ s.stw.powerStep) :
    Completes .getIdentity s fun t => t = { s with sup := { s.sup with answer := s.sec.identity } } :=
  ⟨_, rfl, by simp [manage, managed, h]⟩

theorem getPowerLog_effect {s : State} (h : 2 ≤ s.stw.powerStep) :
    Completes .getPowerLog s fun t => t = { s with sup := { s.sup with answer := s.sup.log.flatten } } :=
  ⟨_, rfl, by simp [manage, managed, h]⟩

theorem dynamicAddressAssignment_effect {address : Nat} {s : State} (h : 2 ≤ s.stw.powerStep) :
    Completes (.dynamicAddressAssignment address) s fun t =>
      t = { s with sup := { s.sup with address := address % 128 } } :=
  ⟨_, rfl, by simp [managed, h]⟩

end Sys2Proof.Machine
end

