-- ==== Sys2Proof/Laws/EffStated.lean ====
section
/-! SUPPORT. Rules on status bits, counters and the power log that are stated whole (R373, R384, R414). -/

namespace Sys2Proof.Machine

open Sys2Proof.Safety

theorem testBit_ages (l : List (Nat × Nat)) (acc i : Nat) :
    (l.foldl (fun acc e => acc ||| 2 ^ e.1) acc).testBit i = (acc.testBit i || l.any (fun e => e.1 == i)) := by
  induction l generalizing acc with
  | nil => simp
  | cons x l ih =>
    simp only [List.foldl_cons, List.any_cons]
    rw [ih, Nat.testBit_or, Nat.testBit_two_pow]
    cases acc.testBit i <;> by_cases h : x.1 = i <;> simp [h]

theorem look_ageStatus (s : State) (a : Nat) : statusWord (ageStatus s) a = (statusWord s a).boundary := by
  unfold statusWord ageStatus Tab.getD
  dsimp only
  have : ∀ t : Tab SqWord, Tab.look a (t.map (fun e => (e.1, e.2.boundary))) = (Tab.look a t).map SqWord.boundary := by
    intro t
    induction t with
    | nil => rfl
    | cons x t ih =>
      simp only [List.map_cons, Tab.look]
      split
      · rfl
      · exact ih
  rw [this]
  cases Tab.look a s.status <;> rfl

/-- In LEVEL an event's bit reads 1 until the second boundary, EVSEQ reads 0, and writes to the word are ignored. -/
theorem levelBits {s : State} (h : seqMode s = false) :
    (∀ e, eventBit (raise e s) e = true ∧ eventBit (ageStatus (raise e s)) e = true ∧
      eventBit (ageStatus (ageStatus (raise e s))) e = false ∧
      eventBit (ageStatus (raise e (ageStatus (raise e s)))) e = true) ∧
    (∀ a, evseqOf s a = 0) ∧
    (∀ (addr : Nat) (value : Word), exec (.statusAck addr value) s = .next s) ∧
    (∀ (addr block off : Nat) (value : Word), blockWord addr = some (block, off) → addr % 4 = 0 →
      statusWords.contains (regAddr block off) = true → exec (.registerWrite addr value 15) s = .next s) := by
  have hk : ∀ a v, acknowledge a v s = s := by intro a v; unfold acknowledge; rw [h]; rfl
  refine ⟨fun e => ?_, fun a => by unfold evseqOf; rw [h]; rfl, fun addr v => ?_, fun addr b o v hb h4 hs => ?_⟩
  · have hr : ∀ u, seqMode u = false → seqMode (raise e u) = false := by
      intro u hu; simpa [seqMode] using hu
    have hb : ∀ u, seqMode u = false → eventBit u e = (statusWord u e.place.1).ages.any (fun x => x.1 == e.place.2) := by
      intro u hu
      unfold eventBit sqBits
      dsimp only
      rw [hu]
      simp [testBit_ages]
    have hw : ∀ u, statusWord (raise e u) e.place.1 = (statusWord u e.place.1).event e.place.2 := by
      intro u; rw [statusWord_raise, if_pos rfl]
    have ha : ∀ u, seqMode (ageStatus u) = seqMode u := fun _ => rfl
    have h1 := hr s h
    refine ⟨?_, ?_, ?_, ?_⟩
    · rw [hb _ h1, hw]; simp [SqWord.event]
    · rw [hb _ ((ha _).trans h1), look_ageStatus, hw]; simp [SqWord.event, SqWord.boundary]
    · rw [hb _ ((ha _).trans ((ha _).trans h1)), look_ageStatus, look_ageStatus, hw]
      simp [SqWord.event, SqWord.boundary]
      intro a b c d n _ g
      exact n g
    · have h2 : seqMode (ageStatus (raise e s)) = false := (ha _).trans h1
      rw [hb _ ((ha _).trans (hr _ h2)), look_ageStatus, hw]; simp [SqWord.event, SqWord.boundary]
  · show execStatusAck addr v s = _
    unfold execStatusAck
    split
    · split
      · rw [hk]
      · rfl
    · rfl
  · show execRegisterWrite addr v 15 s = _
    unfold execRegisterWrite
    have hlt : addr < 0x0E00000 := by
      unfold blockWord at hb; split at hb
      · assumption
      · cases hb
    have hu : (touched addr).any unusedRange = false := by
      unfold touched unusedRange; rw [if_pos h4]; simp; omega
    have hw : busWrite addr v.toNat s = s := by
      unfold busWrite
      rw [hb]
      show writeWord b o v.toNat s = s
      unfold writeWord
      dsimp only
      rw [hs, hk]
      split <;> rfl
    rw [hu]
    simp only [Bool.false_eq_true, if_false, h4, hw]
    simp

/-- COUNTER_EVENTS: in both modes HLT_COUNTER_LAST tells of the event and counters count alike; STATUS sets the bit and sends
vector 13 where the bit was 0, MASKED sets no status bit. -/
theorem counterEvents_effect (sat : Bool) (block off : Nat) (s : State) :
    (counterEvent sat block off s).hlt.counterLast = b2n sat * 2 ^ 31 + block % 16 * 2 ^ 24 + off % 2 ^ 20 ∧
    (s.stw.charter.counterEvents ≠ 1 →
      eventBit (counterEvent sat block off s) (if sat then .saturated else .wrap) = true ∧
      (eventBit s (if sat then .saturated else .wrap) = false →
        Tab.getD (counterEvent sat block off s).hif.msix 13 {} = (Tab.getD s.hif.msix 13 {}).fire s.tmu.now)) ∧
    (s.stw.charter.counterEvents = 1 → (counterEvent sat block off s).status = s.status) ∧
    (counterEvent sat block off s).counters = s.counters ∧
    (∀ a n, counter (bump a n s) a = min (counter s a + n) sMax) := by
  refine ⟨?_, fun h => ⟨?_, fun hb => ?_⟩, fun h => ?_, ?_, fun a n => counter_bump_same a n s⟩
  · unfold counterEvent; dsimp only; split
    · rfl
    · rw [raise_hlt]
  · unfold counterEvent; dsimp only; rw [if_neg h]; exact eventBit_raise_same _ _
  · unfold counterEvent; dsimp only; rw [if_neg h]
    have hp : (if sat then Event.saturated else .wrap).place.1 = hltAcct := by cases sat <;> rfl
    unfold raise raiseAt
    dsimp only
    unfold eventBit at hb
    have hq : ∀ x, sqBits { s with hlt := x } (if sat then Event.saturated else .wrap).place.1 =
      sqBits s (if sat then Event.saturated else .wrap).place.1 := fun _ => rfl
    rw [hq, hb, hp]
    have h13 : hltAcct / 0x100000 = 13 := by decide
    rw [h13]
    unfold msix
    simp [setStatus]
  · unfold counterEvent; dsimp only; rw [if_pos h]
  · unfold counterEvent; dsimp only; split
    · rfl
    · rw [raise_counters]

/-- The power log keeps the latest 256 entries, each goes to the management controller, and power loss leaves none. -/
theorem powerLog_effect {s : State} (h : 2 ≤ s.stw.powerStep) :
    (∀ event cause, loggedPower s s.tmu.now event cause (logPower event cause s)) ∧
    Completes .getPowerLog s (fun t => t.sup.answer = s.sup.log.flatten) ∧
    (∀ at_ lowUs, inService s = true → 1000 < lowUs → Completes (.pwrGoodFall at_ lowUs) s fun t => t.sup.log = []) := by
  refine ⟨fun event cause => ?_, ?_, fun at_ lowUs h1 h2 => ?_⟩
  · unfold loggedPower logPower
    rw [if_pos h]
    simp
  · obtain ⟨t, h1, h2⟩ := getPowerLog_effect h
    exact ⟨t, h1, by rw [h2]⟩
  · obtain ⟨t, h3, h4, _⟩ := pwrGoodFall_long (at_ := at_) h1 h h2
    exact ⟨t, h3, h4.powerLog⟩

end Sys2Proof.Machine
end

