-- ==== Sys2Proof/Laws/EffTime.lean ====
section
/-! SUPPORT. What the commands of time do (R48 to R65): the operations they share, then one lemma for each command's own
effect. -/

namespace Sys2Proof.Machine

open Sys2Proof.Safety

theorem enterTime_tmu (st : TimeState) (s : State) : (enterTime st s).tmu = { s.tmu with state := st } := by
  unfold enterTime
  refine ((journalTime_only (pts := [.hif, .hlt, .status, .counters, .mem]) rfl _ (Only.refl _ _)).2 .tmu rfl).trans ?_
  dsimp only
  cases st <;> simp

theorem enterTime_event (st : TimeState) (s : State) {e} (h : timeEvent st = some e) : eventBit (enterTime st s) e = true := by
  unfold enterTime
  refine (journalTime_grows _ (Grows.refl _)).bits _ ?_
  cases st <;> simp [timeEvent] at h <;> subst h <;> simp

theorem stepCounter_tmu (o : Int) (s : State) : (stepCounter o s).tmu =
    { s.tmu with now := ((s.tmu.now : Int) - o).toNat, slewPpm := 0, lastSync := ((s.tmu.now : Int) - o).toNat } := by
  unfold stepCounter
  exact ((journalTime_only (pts := [.hif, .hlt, .status, .counters, .mem]) rfl _ (Only.refl _ _)).2 .tmu rfl)

theorem followGm_tmu (gm : Nat) (s : State) : (followGm gm s).tmu = { s.tmu with gm := some gm } := by
  unfold followGm
  dsimp only
  split
  · rename_i g h
    split
    · rename_i hg; subst hg; rw [← h]
    · rw [raise_tmu]
  · rfl

theorem followGm_event {g gm : Nat} {s : State} (h : s.tmu.gm = some g) (hg : g ≠ gm) :
    eventBit (followGm gm s) .grandmasterChanged = true := by
  unfold followGm
  simp [h, hg]

theorem initialStep_tmu (o : Int) (s : State) :
    (initialStep o s).tmu.gm = s.tmu.gm ∧ (initialStep o s).tmu.offset = s.tmu.offset ∧
    (initialStep o s).tmu.state = s.tmu.state ∧ (initialStep o s).tmu.gridRun = s.tmu.gridRun ∧
    (initialStep o s).tmu.stepReq = s.tmu.stepReq := by
  unfold initialStep
  split
  · simp [stepCounter_tmu]
  · simp


theorem announce_effect {a : Announce} {s : State} (h1 : inService s = true) (h2 : timePortUp s = true)
    (h3 : a.domain = s.stw.charter.timeDomain)
    (h4 : ∀ b, s.tmu.gmData = some b → a.identity = b.identity ∨ lexLe (announceKey a) (announceKey b) = true) :
    Completes (.announce a) s fun t =>
      t.tmu = { s.tmu with gmData := some a, gm := some a.identity } ∧
      ∀ g, s.tmu.gm = some g → g ≠ a.identity → eventBit t .grandmasterChanged = true := by
  refine ⟨followGm a.identity { s with tmu := { s.tmu with gmData := some a } }, ?_, ?_, ?_⟩
  · simp only [exec, execAnnounce, h1, h2, h3, beq_self_eq_true, Bool.and_self, if_true]
    split
    · rfl
    · rename_i b hb
      rw [if_pos]
      simpa using h4 b hb
  · rw [followGm_tmu]
  · intro g hg hn
    exact followGm_event (s := { s with tmu := { s.tmu with gmData := some a } }) hg hn

theorem announce_worse {a b : Announce} {s : State} (h4 : s.tmu.gmData = some b)
    (h5 : a.identity ≠ b.identity) (h6 : lexLe (announceKey a) (announceKey b) = false) :
    Completes (.announce a) s fun t => t = s := by
  refine ⟨s, ?_, rfl⟩
  simp only [exec, execAnnounce]
  split
  · rw [h4]
    simp [h5, h6]
  · rfl

theorem syncAbsent_effect {at_ : Nat} {s : State} (h1 : inService s = true) (h2 : liveTime s = true)
    (h3 : s.tmu.lastSync + 1000000000 ≤ max s.tmu.now at_) :
    Completes (.syncAbsent at_) s fun t =>
      t.tmu = (match s.tmu.state with
        | .acquiring => if s.tmu.gridRun then { s.tmu with now := max s.tmu.now at_, state := .lost }
          else { s.tmu with now := max s.tmu.now at_ }
        | .locked => { s.tmu with now := max s.tmu.now at_, holdoverAt := max s.tmu.now at_, state := .holdover }
        | _ => { s.tmu with now := max s.tmu.now at_ }) ∧
      (∀ e, timeEvent t.tmu.state = some e → t.tmu.state ≠ s.tmu.state → eventBit t e = true) := by
  have h1' : inService (setNow at_ s) = true := h1
  have h2' : liveTime (setNow at_ s) = true := h2
  have hev : ∀ (st : TimeState) (v : State), ∀ e, timeEvent (enterTime st v).tmu.state = some e →
      eventBit (enterTime st v) e = true := by
    intro st v e he
    rw [enterTime_tmu] at he
    exact enterTime_event _ _ he
  unfold Completes
  simp only [exec, execSyncAbsent, h1', h2', setNow_tmu, h3, decide_true, Bool.and_self, if_true]
  cases hs : s.tmu.state
  case acquiring =>
    by_cases hg : s.tmu.gridRun = true
    · refine ⟨enterTime .lost (setNow at_ s), by simp [hg], by simp [hg, enterTime_tmu], fun e he _ => hev _ _ e he⟩
    · refine ⟨setNow at_ s, by simp [hg], by simp [hg, hs], fun e he hn => by simp [hs] at hn⟩
  case locked => exact ⟨_, rfl, by simp [enterTime_tmu], fun e he _ => hev _ _ e he⟩
  all_goals exact ⟨_, rfl, by simp [hs], fun e he hn => by simp [hs] at hn⟩

theorem holdoverExpired_effect {at_ : Nat} {s : State} (h1 : inService s = true) (h2 : liveTime s = true)
    (h3 : s.tmu.state = .holdover) (h4 : s.tmu.holdoverAt + 60000000000 ≤ max s.tmu.now at_) :
    Completes (.holdoverExpired at_) s fun t =>
      t.tmu = { s.tmu with now := max s.tmu.now at_, state := .lost } ∧ eventBit t .timeLost = true := by
  refine ⟨enterTime .lost (setNow at_ s), ?_, ?_, ?_⟩
  · have h1' : inService (setNow at_ s) = true := h1
    have h2' : liveTime (setNow at_ s) = true := h2
    simp [exec, execHoldoverExpired, h1', h2', h3, h4]
  · rw [enterTime_tmu]; rfl
  · exact enterTime_event _ _ rfl

theorem snap_effect {s : State} (h1 : inService s = true) :
    Completes .snap s fun t => t = { s with tmu := { s.tmu with snapNow := s.tmu.now, snapState := s.tmu.state.code } } :=
  ⟨_, by simp only [exec, execSnap, h1, if_true]; rfl, rfl⟩

theorem noteSync_tmu (o : Int) (s : State) : (noteSync o s).tmu = { s.tmu with
    offset := clampOffset o, measured := o, lastSync := s.tmu.now
    slewPpm := if o.natAbs ≤ syncTight then 0 else if 0 < o then -100 else 100 } := rfl

theorem initialStep_measured (o : Int) (s : State) : (initialStep o s).tmu.measured = s.tmu.measured := by
  unfold initialStep
  split
  · simp [stepCounter_tmu]
  · rfl

theorem initialStep_bits (o : Int) (s : State) (e : Event) (h : eventBit s e = true) : eventBit (initialStep o s) e = true :=
  (initialStep_grows o (Grows.refl s)).bits e h

/-- The table of time states at a Sync (R52, R56), from `v` to `t`. -/
def SyncMoves (o : Int) (v t : State) : Prop :=
  t.tmu.gm = v.tmu.gm ∧ t.tmu.offset = v.tmu.offset ∧ t.tmu.measured = v.tmu.measured ∧
  t.tmu.state = (match v.tmu.state with
    | .freeRun => .acquiring
    | .acquiring => if o.natAbs ≤ 250 ∧ 8 ≤ v.tmu.good + 1 then .locked else .acquiring
    | .locked => if 1000000 < o.natAbs then .lost else .locked
    | .holdover => if 1000000 < o.natAbs then .lost else .locked
    | .lost => if 1000000 < o.natAbs then .lost else .acquiring) ∧
  (∀ e, timeEvent t.tmu.state = some e → t.tmu.state ≠ v.tmu.state → eventBit t e = true) ∧
  t.tmu.gridRun = (v.tmu.gridRun || decide (t.tmu.state = .locked ∧ v.tmu.state = .acquiring)) ∧
  (v.tmu.state = .lost → 1000000 < o.natAbs → t.tmu.stepReq = true ∧
    (v.tmu.stepReq = false → eventBit t .timeStepRequired = true))

/-- A time state entered by an event of its own. -/
theorem enterTime_moves {st : TimeState} {o : Int} {v w : State} (hst : st = (match v.tmu.state with
    | .freeRun => .acquiring
    | .acquiring => if o.natAbs ≤ 250 ∧ 8 ≤ v.tmu.good + 1 then .locked else .acquiring
    | .locked => if 1000000 < o.natAbs then .lost else .locked
    | .holdover => if 1000000 < o.natAbs then .lost else .locked
    | .lost => if 1000000 < o.natAbs then .lost else .acquiring)) (h1 : w.tmu.gm = v.tmu.gm) (h2 : w.tmu.offset = v.tmu.offset)
    (h3 : w.tmu.measured = v.tmu.measured)
    (h4 : w.tmu.gridRun = (v.tmu.gridRun || decide (st = .locked ∧ v.tmu.state = .acquiring)))
    (h5 : v.tmu.state = .lost → ¬ 1000000 < o.natAbs) : SyncMoves o v (enterTime st w) := by
  unfold SyncMoves
  rw [enterTime_tmu]
  dsimp only
  refine ⟨h1, h2, h3, hst, fun e he _ => enterTime_event _ _ he, h4, fun a b => absurd b (h5 a)⟩

/-- A step of the counter at first goes beside the table. -/
theorem initialStep_moves {o : Int} {v w : State} (h : SyncMoves o v w) (hl : v.tmu.state ≠ .lost) :
    SyncMoves o v (initialStep o w) := by
  obtain ⟨m1, m2, m3, m4, m5, m6, _⟩ := h
  obtain ⟨i1, i2, i3, i4, i5⟩ := initialStep_tmu o w
  refine ⟨i1.trans m1, i2.trans m2, (initialStep_measured _ _).trans m3, i3.trans m4, ?_, ?_, fun a => absurd a hl⟩
  · intro e he hn
    rw [i3] at he hn
    exact initialStep_bits _ _ _ (m5 e he hn)
  · rw [i4, i3]; exact m6

/-- A state kept. -/
theorem stay_moves {o : Int} {v w : State} (hst : v.tmu.state = (match v.tmu.state with
    | .freeRun => .acquiring
    | .acquiring => if o.natAbs ≤ 250 ∧ 8 ≤ v.tmu.good + 1 then .locked else .acquiring
    | .locked => if 1000000 < o.natAbs then .lost else .locked
    | .holdover => if 1000000 < o.natAbs then .lost else .locked
    | .lost => if 1000000 < o.natAbs then .lost else .acquiring)) (h1 : w.tmu.gm = v.tmu.gm) (h2 : w.tmu.offset = v.tmu.offset)
    (h3 : w.tmu.measured = v.tmu.measured) (h4 : w.tmu.gridRun = v.tmu.gridRun) (h6 : w.tmu.state = v.tmu.state)
    (h5 : v.tmu.state = .lost → 1000000 < o.natAbs → w.tmu.stepReq = true ∧
      (v.tmu.stepReq = false → eventBit w .timeStepRequired = true)) : SyncMoves o v w := by
  refine ⟨h1, h2, h3, h6.trans hst, fun e _ hn => absurd h6 hn, ?_, h5⟩
  rw [h4, h6]
  cases v.tmu.state <;> simp

theorem syncState_acquiring {o : Int} {v : State} (hs : v.tmu.state = .acquiring) :
    SyncMoves o v (acquireSync (decide (o.natAbs ≤ 250)) v) := by
  unfold acquireSync
  by_cases h1 : o.natAbs ≤ 250
  · rw [decide_eq_true h1, if_neg (by decide)]
    by_cases h2 : v.tmu.good + 1 < 8
    · rw [if_pos h2]
      exact stay_moves (by rw [hs]; simp; omega) rfl rfl rfl rfl rfl (fun h => absurd h (by rw [hs]; decide))
    · rw [if_neg h2]
      exact enterTime_moves (by rw [hs]; simp [h1]; omega) rfl rfl rfl (by simp [hs]) (fun h => absurd h (by rw [hs]; decide))
  · rw [decide_eq_false h1, if_pos (by decide)]
    exact stay_moves (by rw [hs]; simp [h1]) rfl rfl rfl rfl rfl (fun h => absurd h (by rw [hs]; decide))

theorem syncState_moves (o : Int) (v : State) : SyncMoves o v (syncState o v) := by
  have hw : syncWide = 1000000 := rfl
  have ht : syncTight = 250 := rfl
  unfold syncState
  dsimp only
  rw [hw, ht]
  cases hs : v.tmu.state
  case freeRun =>
    exact initialStep_moves (enterTime_moves (by rw [hs]) rfl rfl rfl (by simp) (by simp [hs])) (by simp [hs])
  case acquiring => exact initialStep_moves (syncState_acquiring hs) (by simp [hs])
  case locked =>
    dsimp only
    by_cases h : 1000000 < o.natAbs
    · rw [decide_eq_true h, if_pos rfl]
      exact enterTime_moves (by rw [hs]; simp [h]) rfl rfl rfl (by simp) (by simp [hs])
    · rw [decide_eq_false h, if_neg (by decide)]
      exact stay_moves (by rw [hs]; simp [h]) rfl rfl rfl rfl rfl (by simp [hs])
  case holdover =>
    dsimp only
    by_cases h : 1000000 < o.natAbs
    · rw [decide_eq_true h, if_pos rfl]
      exact enterTime_moves (by rw [hs]; simp [h]) rfl rfl rfl (by simp) (by simp [hs])
    · rw [decide_eq_false h, if_neg (by decide)]
      exact enterTime_moves (by rw [hs]; simp [h]) rfl rfl rfl (by simp [hs]) (by simp [hs])
  case lost =>
    dsimp only
    by_cases h : 1000000 < o.natAbs
    · rw [decide_eq_true h, if_pos rfl]
      by_cases h2 : v.tmu.stepReq = true
      · rw [if_pos h2]
        exact stay_moves (by rw [hs]; simp [h]) rfl rfl rfl rfl rfl (fun _ _ => ⟨h2, fun h3 => absurd h2 (by simp [h3])⟩)
      · rw [if_neg h2]
        refine stay_moves (by rw [hs]; simp [h]) (by rw [raise_tmu]) (by rw [raise_tmu]) (by rw [raise_tmu]) (by rw [raise_tmu])
          (by rw [raise_tmu]; exact hs.symm) (fun _ _ => ⟨by rw [raise_tmu], fun _ => eventBit_raise_same _ _⟩)
    · rw [decide_eq_false h, if_neg (by decide)]
      exact enterTime_moves (by rw [hs]; simp [h]) rfl rfl rfl (by simp [hs]) (fun _ => h)

/-- A Sync of the grandmaster chosen, in real time. -/
theorem sync_effect {at_ gm : Nat} {offset : Int} {s : State} (h1 : inService s = true) (h2 : timePortUp s = true)
    (h3 : liveTime s = true) (h4 : chosenGm s = some gm) :
    Completes (.sync at_ gm offset) s fun t =>
      t.tmu.gm = some gm ∧ t.tmu.offset = clampOffset offset ∧ t.tmu.measured = offset ∧
      (∀ g, s.tmu.gm = some g → g ≠ gm → eventBit t .grandmasterChanged = true) ∧
      t.tmu.state = (match s.tmu.state with
        | .freeRun => .acquiring
        | .acquiring => if offset.natAbs ≤ 250 ∧ 8 ≤ s.tmu.good + 1 then .locked else .acquiring
        | .locked => if 1000000 < offset.natAbs then .lost else .locked
        | .holdover => if 1000000 < offset.natAbs then .lost else .locked
        | .lost => if 1000000 < offset.natAbs then .lost else .acquiring) ∧
      (∀ e, timeEvent t.tmu.state = some e → t.tmu.state ≠ s.tmu.state → eventBit t e = true) ∧
      t.tmu.gridRun = (s.tmu.gridRun || decide (t.tmu.state = .locked ∧ s.tmu.state = .acquiring)) ∧
      (s.tmu.state = .lost → 1000000 < offset.natAbs → t.tmu.stepReq = true ∧
        (s.tmu.stepReq = false → eventBit t .timeStepRequired = true)) := by
  obtain ⟨v, hv⟩ : ∃ v, v = noteSync offset (followGm gm (setNow at_ s)) := ⟨_, rfl⟩
  have hl : liveTime v = true := by
    rw [← h3, hv]
    have : (followGm gm (setNow at_ s)).stw = s.stw := (followGm_only (pts := [.tmu, .hif, .status]) rfl gm (Only.refl _ _)).2 .stw rfl
    unfold liveTime noteSync
    dsimp only
    rw [this]
  have he : exec (.sync at_ gm offset) s = .next (syncState offset v) := by
    show execSync at_ gm offset s = _
    unfold execSync
    dsimp only
    rw [h1, h2, h4, if_pos (by simp), ← hv, hl, if_pos rfl]
  have hf : (followGm gm (setNow at_ s)).tmu = { (setNow at_ s).tmu with gm := some gm } := followGm_tmu _ _
  have v1 : v.tmu.state = s.tmu.state := by rw [hv, noteSync_tmu, hf]; rfl
  have v2 : v.tmu.good = s.tmu.good := by rw [hv, noteSync_tmu, hf]; rfl
  have v3 : v.tmu.gridRun = s.tmu.gridRun := by rw [hv, noteSync_tmu, hf]; rfl
  have v4 : v.tmu.stepReq = s.tmu.stepReq := by rw [hv, noteSync_tmu, hf]; rfl
  obtain ⟨m1, m2, m3, m4, m5, m6, m7⟩ := syncState_moves offset v
  rw [v1, v2] at m4
  rw [v1] at m5
  rw [v1, v3] at m6
  rw [v1, v4] at m7
  refine ⟨_, he, ?_, ?_, ?_, ?_, m4, m5, m6, m7⟩
  · rw [m1, hv, noteSync_tmu, hf]
  · rw [m2, hv, noteSync_tmu, hf]
  · rw [m3, hv, noteSync_tmu, hf]
  · intro g hg hn
    refine (syncState_grows offset (Grows.refl v)).bits _ ?_
    rw [hv]
    exact followGm_event (s := setNow at_ s) hg hn

/-- A Sync of a clock that was not chosen is not valid (R48, R52). -/
theorem sync_other {at_ gm : Nat} {offset : Int} {s : State} (h1 : chosenGm s ≠ some gm) :
    Completes (.sync at_ gm offset) s fun t => t = s := by
  refine ⟨s, ?_, rfl⟩
  show execSync at_ gm offset s = _
  unfold execSync
  dsimp only
  rw [if_neg]
  simp [h1]

end Sys2Proof.Machine
end

