-- ==== Sys2Proof/Laws/KeptOps.lean ====
section
/-! SUPPORT. Each operation keeps what Safety.Kept says: flags, operands, memory, windows and frames.
`f_kept`: if `s0` is kept up to `s`, it is kept up to what `f` makes of `s`. -/

namespace Sys2Proof.Machine

open Sys2Proof.Safety

theorem ageStatus_kept {s0 s : State} (h : Kept s0 s) : Kept s0 (ageStatus s) := by
  unfold ageStatus
  try dsimp only
  exact Kept.put (by assumption) rfl rfl rfl

theorem setStatus_kept {s0 s : State} (a) (w) (h : Kept s0 s) : Kept s0 (setStatus a w s) := by
  unfold setStatus
  try dsimp only
  exact Kept.put (by assumption) rfl rfl rfl

theorem msix_kept {s0 s : State} (v) (h : Kept s0 s) : Kept s0 (msix v s) := by
  unfold msix
  try dsimp only
  exact Kept.put (by assumption) rfl rfl rfl

theorem raiseAt_kept {s0 s : State} (a) (bit) (h : Kept s0 s) : Kept s0 (raiseAt a bit s) := by
  unfold raiseAt
  try dsimp only
  split
  · exact setStatus_kept _ _ (by assumption)
  · exact msix_kept _ (setStatus_kept _ _ (by assumption))

theorem raise_kept {s0 s : State} (e_) (h : Kept s0 s) : Kept s0 (raise e_ s) := by
  unfold raise
  try dsimp only
  exact raiseAt_kept _ _ (by assumption)

theorem counterEvent_kept {s0 s : State} (sat) (block) (offset)
    (h : Kept s0 s) : Kept s0 (counterEvent sat block offset s) := by
  unfold counterEvent
  try dsimp only
  split
  · exact Kept.put (by assumption) rfl rfl rfl
  · exact raise_kept _ (Kept.put (by assumption) rfl rfl rfl)

/-- Counting keeps the bound (R317). -/
theorem bump_kept {s0 s : State} (a n) (h : Kept s0 s) : Kept s0 (bump a n s) := by
  unfold bump
  dsimp only
  split
  · exact h
  · split
    · rename_i hv
      refine h.withCounters (fun hc e he => ?_)
      rcases mem_put he with rfl | he
      · have : sMax = 0xFFFFFFFF := rfl
        show counterRaw s a + n ≤ 0x100000000
        omega
      · exact hc e he
    · refine counterEvent_kept _ _ _ (h.withCounters (fun hc e he => ?_))
      rcases mem_put he with rfl | he
      · exact le_of_eq rfl
      · exact hc e he

theorem raiseIf_kept {s0 s : State} (b) (e_) (h : Kept s0 s) : Kept s0 (raiseIf b e_ s) := by
  unfold raiseIf
  try dsimp only
  split
  · exact raise_kept _ (by assumption)
  · assumption

theorem raiseTimes_kept {s0 s : State} (e_) (x1) (h : Kept s0 s) : Kept s0 (raiseTimes e_ x1 s) := by
  induction x1 generalizing s with
  | zero => exact h
  | succ n ih => exact ih (raise_kept _ h)

theorem sEvent_kept {s0 s : State} (old) (new) (block) (offset)
    (h : Kept s0 s) : Kept s0 (sEvent old new block offset s) := by
  unfold sEvent
  try dsimp only
  split
  · exact counterEvent_kept _ _ _ (by assumption)
  · assumption

theorem wEvent_kept {s0 s : State} (old) (new) (block) (offset)
    (h : Kept s0 s) : Kept s0 (wEvent old new block offset s) := by
  unfold wEvent
  try dsimp only
  split
  · exact counterEvent_kept _ _ _ (by assumption)
  · assumption

theorem setRing_kept {s0 s : State} (r) (g) (h : Kept s0 s) : Kept s0 (setRing r g s) := by
  unfold setRing
  try dsimp only
  exact Kept.put (by assumption) rfl rfl rfl

theorem writeMem_kept {s0 s : State} (a bs) (h : Kept s0 s) : Kept s0 (writeMem a bs s) :=
  h.withMem (wf_memWrite a bs s.mem)

theorem postEntry_kept {s0 s : State} (r) (mk) (h : Kept s0 s) : Kept s0 (postEntry r mk s) := by
  unfold postEntry
  try dsimp only
  exact msix_kept _ (setRing_kept _ _ (writeMem_kept _ _ (by assumption)))

theorem complete_kept {s0 s : State} (t) (status) (cause) (reason) (r0) (r1)
    (h : Kept s0 s) : Kept s0 (complete t status cause reason r0 r1 s) := by
  unfold complete
  try dsimp only
  split
  · assumption
  · split
    · exact setRing_kept _ _ (by assumption)
    · exact postEntry_kept _ _ (setRing_kept _ _ (by assumption))

theorem abandoned_kept {s0 s : State} (t) (h : Kept s0 s) : Kept s0 (abandoned t s) := by
  unfold abandoned
  try dsimp only
  exact complete_kept _ _ _ _ _ _ (by assumption)

theorem setAcct_kept {s0 s : State} (d) (a) (h : Kept s0 s) : Kept s0 (setAcct d a s) := by
  unfold setAcct
  try dsimp only
  exact Kept.put (by assumption) rfl rfl rfl

theorem charge_kept {s0 s : State} (d) (k) (n) (h : Kept s0 s) : Kept s0 (charge d k n s) := by
  unfold charge
  try dsimp only
  exact wEvent_kept _ _ _ _ (wEvent_kept _ _ _ _ (setAcct_kept _ _ (by assumption)))

theorem chargeTier_kept {s0 s : State} (x) (d) (n) (h : Kept s0 s) : Kept s0 (chargeTier x d n s) := by
  unfold chargeTier
  split
  · exact charge_kept _ _ _ (by assumption)
  · exact charge_kept _ _ _ (by assumption)
  · assumption

theorem chargeSplit_kept {s0 s : State} (k) (x) (dikes) (h : Kept s0 s) : Kept s0 (chargeSplit k x dikes s) := by
  unfold chargeSplit
  try dsimp only
  refine charge_kept _ _ _ ?_
  refine Kept.foldl (fun _ _ _ => ?_) ?_
  · exact charge_kept _ _ _ (by assumption)
  · assumption

theorem done_kept {s0 s : State} (t) (h : Kept s0 s) : Kept s0 (done t s) := by
  unfold done
  try dsimp only
  exact complete_kept _ _ _ _ _ _ (by assumption)

theorem doneWith_kept {s0 s : State} (t) (r0) (r1) (h : Kept s0 s) : Kept s0 (doneWith t r0 r1 s) := by
  unfold doneWith
  try dsimp only
  exact complete_kept _ _ _ _ _ _ (by assumption)

theorem rotate_kept {s0 s : State} (die) (h : Kept s0 s) : Kept s0 (rotate die s).2.2 := by
  unfold rotate
  try dsimp only
  exact Kept.put (by assumption) rfl rfl rfl

theorem setQueue_kept {s0 s : State} (q) (w) (h : Kept s0 s) : Kept s0 (setQueue q w s) := by
  unfold setQueue
  try dsimp only
  exact Kept.put (by assumption) rfl rfl rfl

theorem setActive_kept {s0 s : State} (p) (l) (h : Kept s0 s) : Kept s0 (setActive p l s) := by
  unfold setActive
  try dsimp only
  exact Kept.put (by assumption) rfl rfl rfl

theorem joinActive_kept {s0 s : State} (q) (p) (h : Kept s0 s) : Kept s0 (joinActive q p s) := by
  unfold joinActive
  try dsimp only
  split
  · assumption
  · exact setActive_kept _ _ (setQueue_kept _ _ (by assumption))

theorem joinAll_kept {s0 s : State} (q) (h : Kept s0 s) : Kept s0 (joinAll q s) := by
  unfold joinAll
  try dsimp only
  refine Kept.foldl (fun _ _ _ => ?_) ?_
  · exact joinActive_kept _ _ (by assumption)
  · assumption

theorem leaveAll_kept {s0 s : State} (q) (h : Kept s0 s) : Kept s0 (leaveAll q s) := by
  unfold leaveAll
  try dsimp only
  refine Kept.foldl (fun _ _ _ => ?_) ?_
  · exact setActive_kept _ _ (by assumption)
  · assumption

theorem testQueue_kept {s0 s : State} (q) (h : Kept s0 s) : Kept s0 (testQueue q s) := by
  unfold testQueue
  try dsimp only
  split
  · exact joinAll_kept _ (setQueue_kept _ _ (by assumption))
  · exact leaveAll_kept _ (setQueue_kept _ _ (by assumption))

theorem enqueue_kept {s0 s : State} (q) (p) (f) (h : Kept s0 s) : Kept s0 (enqueue q p f s) := by
  unfold enqueue
  try dsimp only
  split
  · exact setQueue_kept _ _ (by assumption)
  · split
    · exact testQueue_kept _ (setQueue_kept _ _ (by assumption))
    · split
      · split
        · exact joinActive_kept _ _ (setQueue_kept _ _ (by assumption))
        · exact setQueue_kept _ _ (by assumption)
      · split
        · exact joinActive_kept _ _ (setQueue_kept _ _ (by assumption))
        · exact setQueue_kept _ _ (by assumption)

theorem queuePacket_kept {s0 s : State} (m) (i) (flags) (h : Kept s0 s) : Kept s0 (queuePacket m i flags s) := by
  unfold queuePacket
  try dsimp only
  exact enqueue_kept _ _ _ (rotate_kept _ (by assumption))

theorem startMsg_kept {s0 s : State} (m) (h : Kept s0 s) : Kept s0 (startMsg m s) := by
  unfold startMsg
  try dsimp only
  refine Kept.foldl (fun _ _ _ => ?_) ?_
  · exact queuePacket_kept _ _ _ (by assumption)
  · exact Kept.put (by assumption) rfl rfl rfl

theorem submitMsg_kept {s0 s : State} (m) (h : Kept s0 s) : Kept s0 (submitMsg m s) := by
  unfold submitMsg
  try dsimp only
  split
  · exact startMsg_kept _ (by assumption)
  · exact Kept.put (by assumption) rfl rfl rfl

theorem startWaiting_kept {s0 s : State} (h : Kept s0 s) : Kept s0 (startWaiting s) := by
  unfold startWaiting
  try dsimp only
  refine Kept.foldl (fun _ _ _ => ?_) ?_
  · exact submitMsg_kept _ (by assumption)
  · exact Kept.put (by assumption) rfl rfl rfl

theorem endMsg_kept {s0 s : State} (dest) (seq) (h : Kept s0 s) : Kept s0 (endMsg dest seq s) := by
  unfold endMsg
  try dsimp only
  exact startWaiting_kept (Kept.put (by assumption) rfl rfl rfl)

theorem freeBelow_kept {s0 s : State} (n) (h : Kept s0 s) : Kept s0 (freeBelow n s).2 := by
  unfold freeBelow
  try dsimp only
  exact Kept.draw (by assumption) rfl rfl rfl

theorem freeOf_kept {s0 s : State} (l) (d) (h : Kept s0 s) : Kept s0 (freeOf l d s).2 := by
  unfold freeOf
  try dsimp only
  exact freeBelow_kept _ (by assumption)

theorem freeSlot_kept {s0 s : State} (used) (n) (h : Kept s0 s) : Kept s0 (freeSlot used n s).2 := by
  unfold freeSlot
  try dsimp only
  exact freeBelow_kept _ (by assumption)

theorem malformed_kept {s0 s : State} (t) (h : Kept s0 s) : Kept s0 (malformed t s) := by
  unfold malformed
  try dsimp only
  exact complete_kept _ _ _ _ _ _ (by assumption)

theorem notice_kept {s0 s : State} (ring) (seq) (window) (gen) (offset) (len)
    (h : Kept s0 s) : Kept s0 (notice ring seq window gen offset len s) := by
  unfold notice
  try dsimp only
  split
  · exact postEntry_kept _ _ (by assumption)
  · exact raise_kept _ (bump_kept _ _ (by assumption))

theorem place_kept {s0 s : State} (p) (h : Kept s0 s) : Kept s0 (place p s) := by
  unfold place
  split
  · exact h.withMem (wf_foldl_memPut _ _)
  · exact h

theorem queueDisabled_kept {s0 s : State} (t) (h : Kept s0 s) : Kept s0 (queueDisabled t s) := by
  unfold queueDisabled
  try dsimp only
  exact complete_kept _ _ _ _ _ _ (by assumption)

theorem queueFrame_kept {s0 s : State} (q) (f) (h : Kept s0 s) : Kept s0 (queueFrame q f s) := by
  unfold queueFrame
  try dsimp only
  exact enqueue_kept _ _ _ (rotate_kept _ (by assumption))

theorem reasonWith_kept {s0 s : State} (t) (reason) (h : Kept s0 s) : Kept s0 (reasonWith t reason s) := by
  unfold reasonWith
  try dsimp only
  exact complete_kept _ _ _ _ _ _ (by assumption)

theorem refusedWith_kept {s0 s : State} (t) (cause) (h : Kept s0 s) : Kept s0 (refusedWith t cause s) := by
  unfold refusedWith
  try dsimp only
  exact complete_kept _ _ _ _ _ _ (by assumption)

theorem takeSeq_kept {s0 s : State} (dest) (h : Kept s0 s) : Kept s0 (takeSeq dest s).2 := by
  unfold takeSeq
  try dsimp only
  exact Kept.put (by assumption) rfl rfl rfl

theorem sendPieces_kept {s0 s : State} (dest) (dike) (charged) (carried) (sseq) (pieces)
    (h : Kept s0 s) : Kept s0 (sendPieces dest dike charged carried sseq pieces s) := by
  unfold sendPieces
  try dsimp only
  split
  · exact Kept.put (by assumption) rfl rfl rfl
  · exact submitMsg_kept _ (takeSeq_kept _ (Kept.put (by assumption) rfl rfl rfl))

theorem sendMsg_kept {s0 s : State} (dest) (dike) (carried) (sseq) (bytes)
    (h : Kept s0 s) : Kept s0 (sendMsg dest dike carried sseq bytes s) := by
  unfold sendMsg
  try dsimp only
  exact sendPieces_kept _ _ _ _ _ _ (by assumption)

theorem setNow_kept {s0 s : State} (t) (h : Kept s0 s) : Kept s0 (setNow t s) := by
  unfold setNow
  try dsimp only
  exact Kept.put (by assumption) rfl rfl rfl

theorem setPort_kept {s0 s : State} (p) (r) (h : Kept s0 s) : Kept s0 (setPort p r s) := by
  unfold setPort
  try dsimp only
  exact Kept.put (by assumption) rfl rfl rfl

theorem takeSseq_kept {s0 s : State} (h : Kept s0 s) : Kept s0 (takeSseq s).2 := by
  unfold takeSseq
  try dsimp only
  exact Kept.put (by assumption) rfl rfl rfl

theorem writeFlash_kept {s0 s : State} (a) (bs) (h : Kept s0 s) : Kept s0 (writeFlash a bs s) := by
  unfold writeFlash
  try dsimp only
  exact Kept.put (by assumption) rfl rfl rfl

theorem breakFlash_kept {s0 s : State} (w) (h : Kept s0 s) : Kept s0 (breakFlash w s) := by
  unfold breakFlash
  try dsimp only
  split
  · exact writeFlash_kept _ _ (freeBelow_kept _ (by assumption))
  · exact writeFlash_kept _ _ (freeBelow_kept _ (by assumption))
  · exact writeFlash_kept _ _ (by assumption)

theorem loseFlash_kept {s0 s : State} (h : Kept s0 s) : Kept s0 (loseFlash s) := by
  unfold loseFlash
  try dsimp only
  split
  · assumption
  · exact Kept.put (breakFlash_kept _ (by assumption)) rfl rfl rfl

theorem settleFlash_kept {s0 x1 : State} (x0) (h : Kept s0 x1) : Kept s0 (settleFlash x0 x1) := by
  induction x0 generalizing x1 with
  | zero =>
    unfold settleFlash
    try dsimp only
    assumption
  | succ n ih =>
    unfold settleFlash
    try dsimp only
    split
    · apply ih
      exact writeFlash_kept _ _ (Kept.put (by assumption) rfl rfl rfl)
    · exact Kept.put (by assumption) rfl rfl rfl
    · assumption

theorem popFlash_kept {s0 s : State} (h : Kept s0 s) : Kept s0 (popFlash s) := by
  unfold popFlash
  try dsimp only
  exact settleFlash_kept _ (Kept.put (by assumption) rfl rfl rfl)

theorem queueFlash_kept {s0 s : State} (w) (h : Kept s0 s) : Kept s0 (queueFlash w s) := by
  unfold queueFlash
  try dsimp only
  exact settleFlash_kept _ (Kept.put (by assumption) rfl rfl rfl)

theorem ringWrite_kept {s0 s : State} (base) (cap) (u) (bs) (h : Kept s0 s) : Kept s0 (ringWrite base cap u bs s) := by
  unfold ringWrite
  try dsimp only
  exact writeMem_kept _ _ (writeMem_kept _ _ (by assumption))

theorem putRecord_kept {s0 s : State} (kind) (flags) (step) (action) (tenant) (source) (sseq) (body)
    (h : Kept s0 s) : Kept s0 (putRecord kind flags step action tenant source sseq body s).2 := by
  unfold putRecord
  try dsimp only
  exact Kept.put (ringWrite_kept _ _ _ _ (by assumption)) rfl rfl rfl

theorem putJournal_kept {s0 s : State} (kind) (flags) (step) (action) (tenant) (source) (sseq) (body)
    (h : Kept s0 s) : Kept s0 (putJournal kind flags step action tenant source sseq body s) := by
  unfold putJournal
  try dsimp only
  split
  · exact putRecord_kept _ _ _ _ _ _ _ _ (by assumption)
  · exact putRecord_kept _ _ _ _ _ _ _ _ (raise_kept _ (bump_kept _ _ (putRecord_kept _ _ _ _ _ _ _ _
      (by assumption))))

theorem journal_kept {s0 s : State} (kind) (action) (tenant) (source) (sseq) (body)
    (h : Kept s0 s) : Kept s0 (journal kind action tenant source sseq body s) := by
  unfold journal
  try dsimp only
  split
  · refine Kept.foldl (fun _ _ _ => ?_) ?_
    · exact putJournal_kept _ _ _ _ _ _ _ _ (by assumption)
    · assumption
  · assumption

theorem dispositionAt_kept {s0 s : State} (action) (code) (handle) (layer) (amount)
    (h : Kept s0 s) : Kept s0 (dispositionAt action code handle layer amount s) := by
  unfold dispositionAt
  try dsimp only
  exact journal_kept _ _ _ _ _ _ (by assumption)

theorem disposition_kept {s0 s : State} (code) (handle) (layer) (amount)
    (h : Kept s0 s) : Kept s0 (disposition code handle layer amount s) := by
  unfold disposition
  try dsimp only
  exact dispositionAt_kept _ _ _ _ _ (by assumption)

theorem journalCommand_kept {s0 s : State} (action) (h_) (op) (sseq) (body)
    (h : Kept s0 s) : Kept s0 (journalCommand action h_ op sseq body s) := by
  unfold journalCommand
  try dsimp only
  exact journal_kept _ _ _ _ _ _ (by assumption)

theorem journalTime_kept {s0 s : State} (before) (h : Kept s0 s) : Kept s0 (journalTime before s) := by
  unfold journalTime
  try dsimp only
  exact journal_kept _ _ _ _ _ _ (by assumption)

theorem enterTime_kept {s0 s : State} (st) (h : Kept s0 s) : Kept s0 (enterTime st s) := by
  unfold enterTime
  try dsimp only
  refine journalTime_kept _ ?_
  split
  · exact Kept.put (by assumption) rfl rfl rfl
  · exact raise_kept _ (Kept.put (by assumption) rfl rfl rfl)
  · exact raise_kept _ (Kept.put (by assumption) rfl rfl rfl)
  · exact raise_kept _ (Kept.put (by assumption) rfl rfl rfl)
  · exact raise_kept _ (Kept.put (by assumption) rfl rfl rfl)

theorem acquireSync_kept {s0 s : State} (tight) (h : Kept s0 s) : Kept s0 (acquireSync tight s) := by
  unfold acquireSync
  try dsimp only
  split
  · exact Kept.put (by assumption) rfl rfl rfl
  · split
    · exact Kept.put (by assumption) rfl rfl rfl
    · exact enterTime_kept _ (Kept.put (by assumption) rfl rfl rfl)

theorem followGm_kept {s0 s : State} (gm) (h : Kept s0 s) : Kept s0 (followGm gm s) := by
  unfold followGm
  try dsimp only
  split
  · split
    · assumption
    · exact raise_kept _ (Kept.put (by assumption) rfl rfl rfl)
  · exact Kept.put (by assumption) rfl rfl rfl

theorem execAnnounce_kept {s0 s : State} {t} {a} (e : execAnnounce a s = .next t) (h : Kept s0 s) : Kept s0 t := by
  unfold execAnnounce at e
  try dsimp only at e
  split at e
  · split at e
    · injection e with e
      subst e
      exact followGm_kept _ (Kept.put (by assumption) rfl rfl rfl)
    · split at e
      · injection e with e
        subst e
        exact followGm_kept _ (Kept.put (by assumption) rfl rfl rfl)
      · injection e with e
        subst e
        assumption
  · injection e with e
    subst e
    assumption

theorem execHoldoverExpired_kept {s0 s : State} {t} {at_}
    (e : execHoldoverExpired at_ s = .next t) (h : Kept s0 s) : Kept s0 t := by
  unfold execHoldoverExpired at e
  try dsimp only at e
  split at e
  · injection e with e
    subst e
    exact enterTime_kept _ (setNow_kept _ (by assumption))
  · injection e with e
    subst e
    exact setNow_kept _ (by assumption)

theorem snapshot_kept {s0 s : State} (h : Kept s0 s) : Kept s0 (snapshot s) := by
  unfold snapshot
  try dsimp only
  exact Kept.put (by assumption) rfl rfl rfl

theorem execSnap_kept {s0 s : State} {t} (e : execSnap s = .next t) (h : Kept s0 s) : Kept s0 t := by
  unfold execSnap at e
  try dsimp only at e
  injection e with e
  subst e
  split
  · exact snapshot_kept (by assumption)
  · assumption

theorem noteSync_kept {s0 s : State} (o) (h : Kept s0 s) : Kept s0 (noteSync o s) := by
  unfold noteSync
  try dsimp only
  exact Kept.put (by assumption) rfl rfl rfl

theorem stepCounter_kept {s0 s : State} (o) (h : Kept s0 s) : Kept s0 (stepCounter o s) := by
  unfold stepCounter
  try dsimp only
  exact journalTime_kept _ (Kept.put (by assumption) rfl rfl rfl)

theorem initialStep_kept {s0 s : State} (o) (h : Kept s0 s) : Kept s0 (initialStep o s) := by
  unfold initialStep
  try dsimp only
  split
  · exact stepCounter_kept _ (by assumption)
  · assumption

theorem syncState_kept {s0 s : State} (o) (h : Kept s0 s) : Kept s0 (syncState o s) := by
  unfold syncState
  try dsimp only
  split
  · exact initialStep_kept _ (enterTime_kept _ (Kept.put (by assumption) rfl rfl rfl))
  · exact initialStep_kept _ (acquireSync_kept _ (by assumption))
  · split
    · exact enterTime_kept _ (by assumption)
    · assumption
  · split
    · exact enterTime_kept _ (by assumption)
    · exact enterTime_kept _ (by assumption)
  · split
    · split
      · assumption
      · exact raise_kept _ (Kept.put (by assumption) rfl rfl rfl)
    · exact enterTime_kept _ (Kept.put (by assumption) rfl rfl rfl)

theorem execSync_kept {s0 s : State} {t} {at_ gm offset}
    (e : execSync at_ gm offset s = .next t) (h : Kept s0 s) : Kept s0 t := by
  unfold execSync at e
  try dsimp only at e
  split at e
  · injection e with e
    subst e
    split
    · exact syncState_kept _ (noteSync_kept _ (followGm_kept _ (setNow_kept _ (by assumption))))
    · exact noteSync_kept _ (followGm_kept _ (setNow_kept _ (by assumption)))
  · injection e with e
    subst e
    assumption

theorem execSyncAbsent_kept {s0 s : State} {t} {at_} (e : execSyncAbsent at_ s = .next t) (h : Kept s0 s) : Kept s0 t := by
  unfold execSyncAbsent at e
  try dsimp only at e
  split at e
  · split at e
    · injection e with e
      subst e
      split
      · exact enterTime_kept _ (setNow_kept _ (by assumption))
      · exact setNow_kept _ (by assumption)
    · injection e with e
      subst e
      exact enterTime_kept _ (Kept.put (setNow_kept _ (by assumption)) rfl rfl rfl)
    · injection e with e
      subst e
      exact setNow_kept _ (by assumption)
  · injection e with e
    subst e
    exact setNow_kept _ (by assumption)

theorem applySetQueue_kept {s0 s : State} (q) (enable) (quantum) (rate)
    (h : Kept s0 s) : Kept s0 (applySetQueue q enable quantum rate s) := by
  unfold applySetQueue
  try dsimp only
  split
  · exact testQueue_kept _ (setQueue_kept _ _ (by assumption))
  · exact leaveAll_kept _ (testQueue_kept _ (setQueue_kept _ _ (by assumption)))

theorem coarseTick_kept {s0 s : State} (h : Kept s0 s) : Kept s0 (coarseTick s) := by
  unfold coarseTick
  try dsimp only
  exact Kept.put (by assumption) rfl rfl rfl

theorem weirResult_kept {s0 s : State} (cmd) (cause) (object) (h : Kept s0 s) : Kept s0 (weirResult cmd cause object s) := by
  unfold weirResult
  try dsimp only
  exact Kept.put (by assumption) rfl rfl rfl

theorem weirRefuse_kept {s0 s : State} (t) (cmd) (cause) (object)
    (h : Kept s0 s) : Kept s0 (weirRefuse t cmd cause object s) := by
  unfold weirRefuse
  try dsimp only
  exact refusedWith_kept _ _ (raise_kept _ (weirResult_kept _ _ _ (by assumption)))

theorem doSetPolicer_kept {s0 s : State} (t) (d) (enable) (rate) (burst)
    (h : Kept s0 s) : Kept s0 (doSetPolicer t d enable rate burst s) := by
  unfold doSetPolicer
  try dsimp only
  split
  · exact weirRefuse_kept _ _ _ _ (by assumption)
  · split
    · exact weirRefuse_kept _ _ _ _ (by assumption)
    · exact done_kept _ (weirResult_kept _ _ _ (Kept.put (by assumption) rfl rfl rfl))

theorem doSetQueue_kept {s0 s : State} (t) (q) (enable) (quantum) (rate)
    (h : Kept s0 s) : Kept s0 (doSetQueue t q enable quantum rate s) := by
  unfold doSetQueue
  try dsimp only
  split
  · exact weirRefuse_kept _ _ _ _ (by assumption)
  · split
    · exact weirRefuse_kept _ _ _ _ (by assumption)
    · exact done_kept _ (weirResult_kept _ _ _ (applySetQueue_kept _ _ _ _ (by assumption)))

theorem drrAfter_kept {s0 s : State} (q) (p) (c) (h : Kept s0 s) : Kept s0 (drrAfter q p c s) := by
  unfold drrAfter
  try dsimp only
  split
  · split
    · exact setActive_kept _ _ (wEvent_kept _ _ _ _ (setQueue_kept _ _ (by assumption)))
    · exact testQueue_kept _ (setActive_kept _ _ (wEvent_kept _ _ _ _ (setQueue_kept _ _ (by assumption))))
  · split
    · exact wEvent_kept _ _ _ _ (setQueue_kept _ _ (by assumption))
    · exact testQueue_kept _ (wEvent_kept _ _ _ _ (setQueue_kept _ _ (by assumption)))

theorem drrChoose_kept {s0 x2 : State} (p) (x1) (h : Kept s0 x2) : Kept s0 (drrChoose p x1 x2).2 := by
  induction x1 generalizing x2 with
  | zero =>
    unfold drrChoose
    try dsimp only
    assumption
  | succ n ih =>
    unfold drrChoose
    try dsimp only
    split
    · dsimp only
      assumption
    · split
      · apply ih
        exact setActive_kept _ _ (by assumption)
      · split
        · split
          · dsimp only
            exact setQueue_kept _ _ (by assumption)
          · apply ih
            exact setActive_kept _ _ (setQueue_kept _ _ (by assumption))
        · split
          · dsimp only
            exact setQueue_kept _ _ (by assumption)
          · apply ih
            exact setActive_kept _ _ (setQueue_kept _ _ (by assumption))

theorem execCoarseTick_kept {s0 s : State} {t} (e : execCoarseTick s = .next t) (h : Kept s0 s) : Kept s0 t := by
  unfold execCoarseTick at e
  try dsimp only at e
  split at e
  · injection e with e
    subst e
    exact coarseTick_kept (setNow_kept _ (by assumption))
  · injection e with e
    subst e
    assumption

theorem fineTick_kept {s0 s : State} (h : Kept s0 s) : Kept s0 (fineTick s) := by
  unfold fineTick
  try dsimp only
  exact Kept.put (by assumption) rfl rfl rfl

theorem execFineTick_kept {s0 s : State} {t} (e : execFineTick s = .next t) (h : Kept s0 s) : Kept s0 t := by
  unfold execFineTick at e
  try dsimp only at e
  split at e
  · injection e with e
    subst e
    refine fineTick_kept ?_
    split
    · exact coarseTick_kept (setNow_kept _ (by assumption))
    · exact setNow_kept _ (by assumption)
  · injection e with e
    subst e
    assumption

theorem execPacerRelease_kept {s0 s : State} {t} {queue}
    (e : execPacerRelease queue s = .next t) (h : Kept s0 s) : Kept s0 t := by
  unfold execPacerRelease at e
  try dsimp only at e
  split at e
  · injection e with e
    subst e
    exact testQueue_kept _ (setNow_kept _ (by assumption))
  · injection e with e
    subst e
    assumption

theorem flushDike_kept {s0 s : State} (d) (h : Kept s0 s) : Kept s0 (flushDike d s) := by
  unfold flushDike
  try dsimp only
  refine startWaiting_kept ?_
  refine Kept.foldl (fun _ _ _ => ?_) ?_
  · split
    · exact abandoned_kept _ (by assumption)
    · assumption
  · refine Kept.put ?_ rfl rfl rfl
    refine Kept.foldl (fun _ _ _ => ?_) ?_
    · exact setQueue_kept _ _ (leaveAll_kept _ (by assumption))
    · split
      · assumption
      · exact raise_kept _ (bump_kept _ _ (by assumption))

theorem grantQueues_kept {s0 s : State} (d) (cls) (h : Kept s0 s) : Kept s0 (grantQueues d cls s) := by
  unfold grantQueues
  try dsimp only
  refine Kept.foldl (fun _ _ _ => ?_) ?_
  · exact setQueue_kept _ _ (by assumption)
  · assumption

theorem movePort_kept {s0 s : State} (p) (h : Kept s0 s) : Kept s0 (movePort p s) := by
  unfold movePort
  try dsimp only
  split
  · assumption
  · refine Kept.foldl (fun _ _ _ => ?_) ?_
    · split
      · exact joinActive_kept _ _ (setQueue_kept _ _ (by assumption))
      · exact setQueue_kept _ _ (by assumption)
    · exact setActive_kept _ _ (by assumption)

theorem takeHead_kept {s0 s : State} (q) (p) (h : Kept s0 s) : Kept s0 (takeHead q p s).2 := by
  unfold takeHead
  try dsimp only
  split
  · dsimp only
    assumption
  · dsimp only
    exact setQueue_kept _ _ (by assumption)

theorem takeDirect_kept {s0 s : State} (q) (p) (h : Kept s0 s) : Kept s0 (takeDirect q p s).2 := by
  unfold takeDirect
  try dsimp only
  split
  · dsimp only
    exact Kept.of_snd (by assumption) (takeHead_kept _ _ (by assumption))
  · dsimp only
    exact wEvent_kept _ _ _ _ (setQueue_kept _ _ (Kept.of_snd (by assumption) (takeHead_kept _ _ (by assumption))))

theorem nextFrame_kept {s0 s : State} (p) (h : Kept s0 s) : Kept s0 (nextFrame p s).2 := by
  unfold nextFrame
  try dsimp only
  split
  · exact takeDirect_kept _ _ (by assumption)
  · exact takeDirect_kept _ _ (by assumption)
  · split
    · dsimp only
      exact Kept.of_snd (by assumption) (drrChoose_kept _ _ (by assumption))
    · split
      · dsimp only
        exact Kept.of_snd (by assumption) (takeHead_kept _ _ (Kept.of_snd (by assumption) (drrChoose_kept _ _
          (by assumption))))
      · dsimp only
        exact drrAfter_kept _ _ _ (Kept.of_snd (by assumption) (takeHead_kept _ _ (Kept.of_snd (by assumption)
          (drrChoose_kept _ _ (by assumption)))))

theorem police_kept {s0 s : State} (d) (c) (h : Kept s0 s) : Kept s0 (police d c s).2 := by
  unfold police
  try dsimp only
  split
  · dsimp only
    assumption
  · split
    · dsimp only
      exact wEvent_kept _ _ _ _ (Kept.put (by assumption) rfl rfl rfl)
    · dsimp only
      exact raise_kept _ (bump_kept _ _ (sEvent_kept _ _ _ _ (Kept.put (by assumption) rfl rfl rfl)))

theorem requantum_kept {s0 s : State} (d) (cls) (h : Kept s0 s) : Kept s0 (requantum d cls s) := by
  unfold requantum
  try dsimp only
  refine Kept.foldl (fun _ _ _ => ?_) ?_
  · split
    · assumption
    · exact setQueue_kept _ _ (by assumption)
  · assumption

theorem measureInput_kept {s0 s : State} (h : Kept s0 s) : Kept s0 (measureInput s) := by
  unfold measureInput
  try dsimp only
  exact wEvent_kept _ _ _ _ (Kept.draw (by assumption) rfl rfl rfl)

theorem writeTally_kept {s0 s : State} (h : Kept s0 s) : Kept s0 (writeTally s) := by
  unfold writeTally
  try dsimp only
  split
  · assumption
  · exact Kept.put (writeMem_kept _ _ (by assumption)) rfl rfl rfl

theorem freezeTally_kept {s0 s : State} (h : Kept s0 s) : Kept s0 (freezeTally s) := by
  unfold freezeTally
  try dsimp only
  exact Kept.put (measureInput_kept (writeTally_kept (by assumption))) rfl rfl rfl

theorem execMinuteBoundary_kept {s0 s : State} {t} (e : execMinuteBoundary s = .next t) (h : Kept s0 s) : Kept s0 t := by
  unfold execMinuteBoundary at e
  try dsimp only at e
  split at e
  · injection e with e
    subst e
    split
    · exact setNow_kept _ (by assumption)
    · exact freezeTally_kept (setNow_kept _ (by assumption))
  · injection e with e
    subst e
    assumption

theorem execTallySetWritten_kept {s0 s : State} {t} (e : execTallySetWritten s = .next t) (h : Kept s0 s) : Kept s0 t := by
  unfold execTallySetWritten at e
  try dsimp only at e
  injection e with e
  subst e
  exact writeTally_kept (by assumption)

theorem execTallyWriteDeadline_kept {s0 s : State} {t}
    (e : execTallyWriteDeadline s = .next t) (h : Kept s0 s) : Kept s0 t := by
  unfold execTallyWriteDeadline at e
  try dsimp only at e
  split at e
  · injection e with e
    subst e
    assumption
  · injection e with e
    subst e
    exact raise_kept _ (setNow_kept _ (by assumption))

theorem addFault_kept {s0 s : State} (f) (h : Kept s0 s) : Kept s0 (addFault f s) := by
  unfold addFault
  try dsimp only
  split
  · assumption
  · exact Kept.put (by assumption) rfl rfl rfl

theorem setWindow_kept {s0 s : State} (w) (r) (h : Kept s0 s) : Kept s0 (setWindow w r s) := by
  unfold setWindow
  try dsimp only
  exact Kept.put (by assumption) rfl rfl rfl

theorem beginRevoke_kept {s0 s : State} (w) (t) (reopen) (h : Kept s0 s) : Kept s0 (beginRevoke w t reopen s) := by
  unfold beginRevoke
  try dsimp only
  exact setWindow_kept _ _ (by assumption)

theorem chargeObject_kept {s0 s : State} (d) (n) (h : Kept s0 s) : Kept s0 (chargeObject d n s) := by
  unfold chargeObject
  try dsimp only
  split
  · exact charge_kept _ _ _ (by assumption)
  · split
    · exact charge_kept _ _ _ (by assumption)
    · assumption

theorem openedResult_kept {s0 s : State} (t) (w) (h : Kept s0 s) : Kept s0 (openedResult t w s) := by
  unfold openedResult
  try dsimp only
  exact doneWith_kept _ _ _ (by assumption)

theorem openAs_kept {s0 s : State} (w) (d) (o) (h : Kept s0 s) : Kept s0 (openAs w d o s) := by
  unfold openAs
  try dsimp only
  exact setWindow_kept _ _ (by assumption)

theorem doOpenWindow_kept {s0 s : State} (t) (d) (o) (h : Kept s0 s) : Kept s0 (doOpenWindow t d o s) := by
  unfold doOpenWindow
  try dsimp only
  split
  · exact reasonWith_kept _ _ (by assumption)
  · split
    · exact refusedWith_kept _ _ (by assumption)
    · split
      · exact refusedWith_kept _ _ (by assumption)
      · exact openedResult_kept _ _ (openAs_kept _ _ _ (by assumption))

theorem doReopenWindow_kept {s0 s : State} (t) (d) (w) (o) (h : Kept s0 s) : Kept s0 (doReopenWindow t d w o s) := by
  unfold doReopenWindow
  try dsimp only
  split
  · exact refusedWith_kept _ _ (by assumption)
  · split
    · exact refusedWith_kept _ _ (by assumption)
    · split
      · exact refusedWith_kept _ _ (by assumption)
      · split
        · exact refusedWith_kept _ _ (by assumption)
        · split
          · exact beginRevoke_kept _ _ _ (by assumption)
          · exact setWindow_kept _ _ (by assumption)

theorem doRevokeWindow_kept {s0 s : State} (t) (d) (w) (h : Kept s0 s) : Kept s0 (doRevokeWindow t d w s) := by
  unfold doRevokeWindow
  try dsimp only
  split
  · exact refusedWith_kept _ _ (by assumption)
  · split
    · exact done_kept _ (by assumption)
    · split
      · exact refusedWith_kept _ _ (by assumption)
      · split
        · exact refusedWith_kept _ _ (by assumption)
        · exact beginRevoke_kept _ _ _ (by assumption)

theorem dropFault_kept {s0 s : State} (f) (h : Kept s0 s) : Kept s0 (dropFault f s) := by
  unfold dropFault
  try dsimp only
  exact Kept.put (by assumption) rfl rfl rfl

theorem execReopenDelayExpired_kept {s0 s : State} {t} {at_ window}
    (e : execReopenDelayExpired at_ window s = .next t) (h : Kept s0 s) : Kept s0 t := by
  unfold execReopenDelayExpired at e
  try dsimp only at e
  split at e
  · split at e
    · split at e
      · injection e with e
        subst e
        exact beginRevoke_kept _ _ _ (setNow_kept _ (by assumption))
      · injection e with e
        subst e
        exact refusedWith_kept _ _ (setWindow_kept _ _ (setNow_kept _ (by assumption)))
    · injection e with e
      subst e
      exact setNow_kept _ (by assumption)
  · injection e with e
    subst e
    exact setNow_kept _ (by assumption)

theorem finishRevoke_kept {s0 s : State} (w) (h : Kept s0 s) : Kept s0 (finishRevoke w s) := by
  unfold finishRevoke
  try dsimp only
  split
  · assumption
  · split
    · split
      · exact openedResult_kept _ _ (openAs_kept _ _ _ (by assumption))
      · exact refusedWith_kept _ _ (setWindow_kept _ _ (by assumption))
    · exact done_kept _ (setWindow_kept _ _ (by assumption))
    · exact setWindow_kept _ _ (by assumption)

theorem execRevocationComplete_kept {s0 s : State} {t} {window}
    (e : execRevocationComplete window s = .next t) (h : Kept s0 s) : Kept s0 t := by
  unfold execRevocationComplete at e
  try dsimp only at e
  injection e with e
  subst e
  split
  · exact finishRevoke_kept _ (by assumption)
  · assumption

theorem violate_kept {s0 s : State} (h : Kept s0 s) : Kept s0 (violate s) := by
  unfold violate
  try dsimp only
  exact addFault_kept _ (raise_kept _ (by assumption))

theorem forDike_kept {s0 s : State} (dike) (i) (act)
    (Hact : ∀ a0, Kept s0 a0 → Kept s0 (act a0)) (h : Kept s0 s) : Kept s0 (forDike dike i act s) := by
  unfold forDike
  try dsimp only
  split
  · apply Hact
    assumption
  · split
    · apply Hact
      assumption
    · exact violate_kept (by assumption)

theorem forceRevoke_kept {s0 s : State} (w) (h : Kept s0 s) : Kept s0 (forceRevoke w s) := by
  unfold forceRevoke
  try dsimp only
  split
  · assumption
  · assumption
  · split
    · exact refusedWith_kept _ _ (beginRevoke_kept _ _ _ (by assumption))
    · exact beginRevoke_kept _ _ _ (by assumption)

theorem putDesc_kept {s0 s : State} (i) (d) (h : Kept s0 s) : Kept s0 (putDesc i d s) := by
  unfold putDesc
  try dsimp only
  exact Kept.put (by assumption) rfl rfl rfl

theorem placeObject_kept {s0 s : State} (desc) (off) (bs) (h : Kept s0 s) : Kept s0 (placeObject desc off bs s) := by
  unfold placeObject
  try dsimp only
  split
  · assumption
  · exact chargeObject_kept _ _ (putDesc_kept _ _ (by assumption))

theorem revokeDike_kept {s0 s : State} (d) (h : Kept s0 s) : Kept s0 (revokeDike d s) := by
  unfold revokeDike
  try dsimp only
  refine Kept.foldl (fun _ _ _ => ?_) ?_
  · exact forceRevoke_kept _ (by assumption)
  · assumption

theorem setIntake_kept {s0 s : State} (d) (open_) (h : Kept s0 s) : Kept s0 (setIntake d open_ s) := by
  unfold setIntake
  try dsimp only
  exact Kept.put (by assumption) rfl rfl rfl

theorem updDesc_kept {s0 s : State} (i) (f) (h : Kept s0 s) : Kept s0 (updDesc i f s) := by
  unfold updDesc
  try dsimp only
  exact Kept.put (by assumption) rfl rfl rfl

theorem damageFound_kept {s0 s : State} (code) (source) (h : Kept s0 s) : Kept s0 (damageFound code source s) := by
  unfold damageFound
  try dsimp only
  exact raise_kept _ (bump_kept _ _ (Kept.put (by assumption) rfl rfl rfl))

theorem blockDamaged_kept {s0 s : State} (cause) (source) (h : Kept s0 s) : Kept s0 (blockDamaged cause source s) := by
  unfold blockDamaged
  try dsimp only
  exact damageFound_kept _ _ (by assumption)

theorem countBlocks_kept {s0 s : State} (bs) (h : Kept s0 s) : Kept s0 (countBlocks bs s) := by
  unfold countBlocks
  try dsimp only
  exact Kept.put (wEvent_kept _ _ _ _ (wEvent_kept _ _ _ _ (by assumption))) rfl rfl rfl

end Sys2Proof.Machine
end

