-- ==== Sys2Proof/Laws/KeptPages.lean ====
section
/-! SUPPORT. Each operation keeps what Safety.Kept says: pages, admission, models and the build.
`f_kept`: if `s0` is kept up to `s`, it is kept up to what `f` makes of `s`. -/

namespace Sys2Proof.Machine

open Sys2Proof.Safety

theorem takeLines_kept {s0 s : State} (n) (h : Kept s0 s) : Kept s0 (takeLines n s).2 := by
  unfold takeLines
  try dsimp only
  exact freeSlot_kept _ _ (by assumption)

theorem updSeq_kept {s0 s : State} (slot) (f) (h : Kept s0 s) : Kept s0 (updSeq slot f s) := by
  unfold updSeq
  try dsimp only
  exact Kept.put (by assumption) rfl rfl rfl

theorem updLayer_kept {s0 s : State} (slot) (l) (f) (h : Kept s0 s) : Kept s0 (updLayer slot l f s) := by
  unfold updLayer
  try dsimp only
  exact updSeq_kept _ _ (by assumption)

theorem fitLines_kept {s0 s : State} (slot) (l) (h : Kept s0 s) : Kept s0 (fitLines slot l s) := by
  unfold fitLines
  try dsimp only
  split
  · assumption
  · split
    · exact updLayer_kept _ _ _ (takeLines_kept _ (by assumption))
    · exact updLayer_kept _ _ _ (by assumption)

theorem decRef_kept {s0 s : State} (i) (h : Kept s0 s) : Kept s0 (decRef i s) := by
  unfold decRef
  try dsimp only
  exact updDesc_kept _ _ (by assumption)

theorem pushList_kept {s0 s : State} (slot) (l) (i) (h : Kept s0 s) : Kept s0 (pushList slot l i s) := by
  unfold pushList
  try dsimp only
  split
  · assumption
  · split
    · exact updLayer_kept _ _ _ (by assumption)
    · split
      · exact decRef_kept _ (updLayer_kept _ _ _ (by assumption))
      · exact updLayer_kept _ _ _ (by assumption)

theorem pushPage_kept {s0 s : State} (slot) (l) (i) (h : Kept s0 s) : Kept s0 (pushPage slot l i s) := by
  unfold pushPage
  try dsimp only
  exact fitLines_kept _ _ (pushList_kept _ _ _ (by assumption))

theorem openHopper_kept {s0 s : State} (slot) (l) (i) (pos) (h : Kept s0 s) : Kept s0 (openHopper slot l i pos s) := by
  unfold openHopper
  try dsimp only
  exact pushPage_kept _ _ _ (updDesc_kept _ _ (by assumption))

theorem ensureHopper_kept {s0 s : State} {t} {slot l pos}
    (e : ensureHopper slot l pos s = some t) (h : Kept s0 s) : Kept s0 t := by
  unfold ensureHopper at e
  try dsimp only at e
  split at e
  · cases e
  · split at e
    · injection e with e
      subst e
      assumption
    · split at e
      · injection e with e
        subst e
        exact openHopper_kept _ _ _ _ (updLayer_kept _ _ _ (by assumption))
      · injection e with e
        subst e
        exact openHopper_kept _ _ _ _ (updLayer_kept _ _ _ (by assumption))
      · cases e

theorem copyHopper_kept {s0 s : State} (slot) (l) (pos) (i) (d) (h : Kept s0 s) : Kept s0 (copyHopper slot l pos i d s) := by
  unfold copyHopper
  try dsimp only
  split
  · assumption
  · split
    · assumption
    · refine bump_kept _ _ ?_
      refine charge_kept _ _ _ ?_
      refine charge_kept _ _ _ ?_
      refine updLayer_kept _ _ _ ?_
      refine decRef_kept _ ?_
      refine updDesc_kept _ _ ?_
      split
      · exact updLayer_kept _ _ _ (by assumption)
      · exact updDesc_kept _ _ (updLayer_kept _ _ _ (by assumption))

theorem copyIfShared_kept {s0 s : State} (slot) (l) (pos) (h : Kept s0 s) : Kept s0 (copyIfShared slot l pos s) := by
  unfold copyIfShared
  try dsimp only
  split
  · assumption
  · split
    · exact copyHopper_kept _ _ _ _ _ (by assumption)
    · assumption

theorem drawCredit_kept {s0 s : State} (slot) (l) (h : Kept s0 s) : Kept s0 (drawCredit slot l s) := by
  unfold drawCredit
  try dsimp only
  exact updLayer_kept _ _ _ (by assumption)

theorem startSeal_kept {s0 s : State} (slot) (l) (i) (step) (h : Kept s0 s) : Kept s0 (startSeal slot l i step s) := by
  unfold startSeal
  try dsimp only
  split
  · assumption
  · exact updDesc_kept _ _ (drawCredit_kept _ _ (by assumption))

theorem appendRow_kept {s0 s : State} {t} {slot l pos step k v}
    (e : appendRow slot l pos step k v s = some t) (h : Kept s0 s) : Kept s0 t := by
  unfold appendRow at e
  try dsimp only at e
  split at e
  · cases e
  · split at e
    · cases e
    · split at e
      · injection e with e
        subst e
        exact updDesc_kept _ _ (ensureHopper_kept (by assumption) (copyIfShared_kept _ _ _ (by assumption)))
      · split at e
        · injection e with e
          subst e
          exact startSeal_kept _ _ _ _ (updDesc_kept _ _ (ensureHopper_kept (by assumption) (copyIfShared_kept _ _ _
            (by assumption))))
        · injection e with e
          subst e
          exact openHopper_kept _ _ _ _ (updLayer_kept _ _ _ (startSeal_kept _ _ _ _ (updDesc_kept _ _
            (ensureHopper_kept (by assumption) (copyIfShared_kept _ _ _ (by assumption))))))

theorem appendRows_kept {s0 x5 : State} {t} {slot l step x3 x4}
    (e : appendRows slot l step x3 x4 x5 = some t) (h : Kept s0 x5) : Kept s0 t := by
  induction x4 generalizing x3 x5 with
  | nil =>
    unfold appendRows at e
    try dsimp only at e
    injection e with e
    subst e
    assumption
  | cons a l ih =>
    unfold appendRows at e
    try dsimp only at e
    split at e
    · cases e
    · exact ih e (appendRow_kept (by assumption) (by assumption))

theorem liftHopper_kept {s0 s : State} (slot) (l) (h : Kept s0 s) : Kept s0 (liftHopper slot l s).2 := by
  unfold liftHopper
  try dsimp only
  split
  · split
    · dsimp only
      exact updLayer_kept _ _ _ (by assumption)
    · dsimp only
      assumption
  · dsimp only
    assumption

theorem newDesc_kept {s0 s : State} (d) (h : Kept s0 s) : Kept s0 (newDesc d s).2 := by
  unfold newDesc
  try dsimp only
  split
  · dsimp only
    exact freeSlot_kept _ _ (by assumption)
  · dsimp only
    exact Kept.put (freeSlot_kept _ _ (by assumption)) rfl rfl rfl

theorem stagedPage_kept {s0 s : State} (slot) (l) (pos) (step) (rows)
    (h : Kept s0 s) : Kept s0 (stagedPage slot l pos step rows s) := by
  unfold stagedPage
  try dsimp only
  split
  · assumption
  · split
    · exact newDesc_kept _ (by assumption)
    · exact pushPage_kept _ _ _ (drawCredit_kept _ _ (newDesc_kept _ (by assumption)))

theorem stagedPages_kept {s0 x7 : State} (slot) (l) (step) (size) (x4) (x5) (x6) (h : Kept s0 x7) :
    Kept s0 (stagedPages slot l step size x4 x5 x6 x7).2.2 := by
  induction x4 generalizing x5 x6 x7 with
  | zero => exact h
  | succ n ih =>
    unfold stagedPages
    split
    · exact ih _ _ (stagedPage_kept _ _ _ _ _ h)
    · exact h

theorem appendStaged_kept {s0 s : State} {t} {slot l first step rows}
    (e : appendStaged slot l first step rows s = some t) (h : Kept s0 s) : Kept s0 t := by
  unfold appendStaged at e
  try dsimp only at e
  split at e
  · cases e
  · refine appendRows_kept e ?_
    split
    · exact openHopper_kept _ _ _ _ (stagedPages_kept _ _ _ _ _ _ _ (liftHopper_kept _ _ (appendRows_kept
        (by assumption) (by assumption))))
    · exact stagedPages_kept _ _ _ _ _ _ _ (liftHopper_kept _ _ (appendRows_kept (by assumption) (by assumption)))

theorem clearCopy_kept {s0 s : State} (i) (h : Kept s0 s) : Kept s0 (clearCopy i s) := by
  unfold clearCopy
  try dsimp only
  split
  · exact decRef_kept _ (updDesc_kept _ _ (by assumption))
  · exact updDesc_kept _ _ (by assumption)

theorem dropCopy_kept {s0 s : State} (i) (h : Kept s0 s) : Kept s0 (dropCopy i s) := by
  unfold dropCopy
  try dsimp only
  exact bump_kept _ _ (clearCopy_kept _ (by assumption))

theorem removePrefix_kept {s0 s : State} (k) (h : Kept s0 s) : Kept s0 (removePrefix k s) := by
  unfold removePrefix
  try dsimp only
  split
  · assumption
  · refine Kept.foldl (fun _ _ _ => ?_) ?_
    · exact decRef_kept _ (updDesc_kept _ _ (by assumption))
    · exact Kept.put (by assumption) rfl rfl rfl

theorem dropPrefixesOf_kept {s0 x2 : State} (tenant) (x1) (h : Kept s0 x2) : Kept s0 (dropPrefixesOf tenant x1 x2) := by
  induction x1 generalizing x2 with
  | zero => exact h
  | succ n ih =>
    unfold dropPrefixesOf
    split
    · exact h
    · exact ih (removePrefix_kept _ h)

theorem takeExtents_kept {s0 x3 : State} (t) (x1) (x2) (h : Kept s0 x3) : Kept s0 (takeExtents t x1 x2 x3).2 := by
  induction x1 generalizing x2 x3 with
  | zero =>
    unfold takeExtents
    try dsimp only
    assumption
  | succ n ih =>
    unfold takeExtents
    try dsimp only
    apply ih
    exact freeSlot_kept _ _ (by assumption)

theorem sealRead_kept {s0 s : State} (d) (n) (h : Kept s0 s) : Kept s0 (sealRead d n s) := by
  unfold sealRead
  split
  · assumption
  · exact charge_kept _ _ _ (by assumption)

theorem sealComplete_kept {s0 s : State} (i) (h : Kept s0 s) : Kept s0 (sealComplete i s) := by
  unfold sealComplete
  try dsimp only
  split
  · assumption
  · split
    · assumption
    · split
      · assumption
      · exact decRef_kept _ (updDesc_kept _ _ (takeExtents_kept _ _ _ (chargeTier_kept _ _ _ (sealRead_kept _ _
          (countBlocks_kept _ (by assumption))))))

theorem execSealComplete_kept {s0 s : State} {t} {desc}
    (e : execSealComplete desc s = .next t) (h : Kept s0 s) : Kept s0 t := by
  unfold execSealComplete at e
  try dsimp only at e
  injection e with e
  subst e
  split
  · exact sealComplete_kept _ (by assumption)
  · assumption

theorem incRef_kept {s0 s : State} (i) (h : Kept s0 s) : Kept s0 (incRef i s) := by
  unfold incRef
  try dsimp only
  exact updDesc_kept _ _ (by assumption)

theorem leaseDesc_kept {s0 s : State} (i) (step) (h : Kept s0 s) : Kept s0 (leaseDesc i step s) := by
  unfold leaseDesc
  try dsimp only
  exact updDesc_kept _ _ (by assumption)

theorem letGo_kept {s0 s : State} (slot) (i) (h : Kept s0 s) : Kept s0 (letGo slot i s) := by
  unfold letGo
  try dsimp only
  split
  · assumption
  · split
    · assumption
    · split
      · split
        · exact decRef_kept _ (updLayer_kept _ _ _ (updDesc_kept _ _ (by assumption)))
        · exact updDesc_kept _ _ (by assumption)
      · exact updDesc_kept _ _ (by assumption)
      · exact updDesc_kept _ _ (by assumption)

theorem makeSpare_kept {s0 s : State} (d) (h : Kept s0 s) : Kept s0 (makeSpare d s) := by
  unfold makeSpare
  try dsimp only
  split
  · assumption
  · split
    · assumption
    · split
      · exact newDesc_kept _ (by assumption)
      · exact updLayer_kept _ _ _ (newDesc_kept _ (by assumption))

theorem reclaimOne_kept {s0 s : State} (i) (h : Kept s0 s) : Kept s0 (reclaimOne i s) := by
  unfold reclaimOne
  try dsimp only
  split
  · assumption
  · split
    · split
      · refine updLayer_kept _ _ _ ?_
        split
        · exact makeSpare_kept _ (Kept.put (by assumption) rfl rfl rfl)
        · exact Kept.put (by assumption) rfl rfl rfl
      · split
        · exact makeSpare_kept _ (Kept.put (by assumption) rfl rfl rfl)
        · exact Kept.put (by assumption) rfl rfl rfl
    · split
      · exact makeSpare_kept _ (Kept.put (by assumption) rfl rfl rfl)
      · exact Kept.put (by assumption) rfl rfl rfl

theorem reclaim_kept {s0 s : State} (freed)
    (Hfreed : ∀ a0 a1 a2, Kept s0 a2 → Kept s0 (freed a0 a1 a2)) (h : Kept s0 s) : Kept s0 (reclaim freed s) := by
  unfold reclaim
  try dsimp only
  refine raiseIf_kept _ _ ?_
  refine Kept.foldl (fun _ _ _ => ?_) ?_
  · split
    · assumption
    · apply Hfreed
      exact reclaimOne_kept _ (by assumption)
  · exact Kept.put (by assumption) rfl rfl rfl

theorem makeRoom_kept {s0 x2 : State} {t} {freed x1} (Hfreed : ∀ a0 a1 a2, Kept s0 a2 → Kept s0 (freed a0 a1 a2))
    (e : makeRoom freed x1 x2 = some t) (h : Kept s0 x2) : Kept s0 t := by
  induction x1 generalizing x2 with
  | zero =>
    unfold makeRoom at e
    split at e
    · cases e; exact h
    · cases e
  | succ n ih =>
    unfold makeRoom at e
    split at e
    · cases e; exact h
    · split at e
      · exact ih e (dropCopy_kept _ h)
      · split at e
        · exact ih e (reclaim_kept _ Hfreed (removePrefix_kept _ h))
        · cases e

theorem takeMap_kept {s0 s : State} (t) (k) (got) (h : Kept s0 s) : Kept s0 (takeMap t k got s).2 := by
  unfold takeMap
  try dsimp only
  exact freeOf_kept _ _ (takeExtents_kept _ _ _ (freeOf_kept _ _ (by assumption)))

theorem newSpare_kept {s0 s : State} (d) (h : Kept s0 s) : Kept s0 (newSpare d s).2 := by
  unfold newSpare
  try dsimp only
  exact newDesc_kept _ (takeMap_kept _ _ _ (takeExtents_kept _ _ _ (by assumption)))

theorem publishPage_kept {s0 s : State} {t} {n slot} (e : publishPage n slot s = some t) (h : Kept s0 s) : Kept s0 t := by
  unfold publishPage at e
  try dsimp only at e
  split at e
  · cases e
  · split at e
    · cases e
    · split at e
      · injection e with e
        subst e
        exact updSeq_kept _ _ (by assumption)
      · split at e
        · injection e with e
          subst e
          exact raise_kept _ (updSeq_kept _ _ (by assumption))
        · injection e with e
          subst e
          refine updSeq_kept _ _ ?_
          refine Kept.foldl (fun _ _ _ => ?_) ?_
          · refine forDike_kept _ _ _ ?_ ?_
            · intro _ _
              exact incRef_kept _ (updDesc_kept _ _ (by assumption))
            · assumption
          · exact Kept.put (by assumption) rfl rfl rfl

theorem publishAll_kept {s0 x3 : State} (n) (slot) (x2) (h : Kept s0 x3) : Kept s0 (publishAll n slot x2 x3) := by
  induction x2 generalizing x3 with
  | zero => exact h
  | succ k ih =>
    unfold publishAll
    split
    · exact h
    · exact ih (publishPage_kept (by assumption) h)

theorem putSeq_kept {s0 s : State} (slot) (e_) (h : Kept s0 s) : Kept s0 (putSeq slot e_ s) := by
  unfold putSeq
  try dsimp only
  exact Kept.put (by assumption) rfl rfl rfl

theorem releaseLayer_kept {s0 s : State} (slot) (p) (h : Kept s0 s) : Kept s0 (releaseLayer slot p s) := by
  unfold releaseLayer
  try dsimp only
  refine Kept.foldl (fun _ _ _ => ?_) ?_
  · exact decRef_kept _ (by assumption)
  · refine Kept.foldl (fun _ _ _ => ?_) ?_
    · exact decRef_kept _ (letGo_kept _ _ (by assumption))
    · assumption

theorem releasePages_kept {s0 s : State} (slot) (h : Kept s0 s) : Kept s0 (releasePages slot s) := by
  unfold releasePages
  try dsimp only
  split
  · assumption
  · refine updSeq_kept _ _ ?_
    refine Kept.foldl (fun _ _ _ => ?_) ?_
    · exact releaseLayer_kept _ _ (by assumption)
    · assumption

theorem returnLayer_kept {s0 s : State} (slot) (l) (h : Kept s0 s) : Kept s0 (returnLayer slot l s) := by
  unfold returnLayer
  try dsimp only
  split
  · assumption
  · refine Kept.foldl (fun _ _ _ => ?_) ?_
    · exact decRef_kept _ (by assumption)
    · exact fitLines_kept _ _ (updLayer_kept _ _ _ (by assumption))

theorem returnPinned_kept {s0 s : State} (h : Kept s0 s) : Kept s0 (returnPinned s) := by
  unfold returnPinned
  try dsimp only
  refine Kept.foldl (fun _ _ _ => ?_) ?_
  · split
    · refine Kept.foldl (fun _ _ _ => ?_) ?_
      · exact returnLayer_kept _ _ (by assumption)
      · assumption
    · assumption
  · assumption

theorem returnSpare_kept {s0 s : State} (i) (h : Kept s0 s) : Kept s0 (returnSpare i s) := by
  unfold returnSpare
  try dsimp only
  split
  · assumption
  · split
    · exact makeSpare_kept _ (updDesc_kept _ _ (by assumption))
    · assumption

theorem sealLate_kept {s0 s : State} (n) (h : Kept s0 s) : Kept s0 (sealLate n s) := by
  unfold sealLate
  try dsimp only
  exact bump_kept _ _ (raiseTimes_kept _ _ (by assumption))

theorem switchSealed_kept {s0 s : State} (i) (h : Kept s0 s) : Kept s0 (switchSealed i s) := by
  unfold switchSealed
  try dsimp only
  exact updDesc_kept _ _ (by assumption)

theorem takeMaps_kept {s0 x4 : State} (t) (k) (x2) (x3) (h : Kept s0 x4) : Kept s0 (takeMaps t k x2 x3 x4).2 := by
  induction x2 generalizing x3 x4 with
  | zero =>
    unfold takeMaps
    try dsimp only
    assumption
  | succ n ih =>
    unfold takeMaps
    try dsimp only
    apply ih
    exact takeMap_kept _ _ _ (by assumption)

theorem takeLayer_kept {s0 s : State} (slot) (l) (p) (t) (h_) (e_)
    (h : Kept s0 s) : Kept s0 (takeLayer slot l p t h_ e_ s) := by
  unfold takeLayer
  try dsimp only
  exact Kept.put (updLayer_kept _ _ _ (takeMaps_kept _ _ _ _ (newSpare_kept _ (newSpare_kept _
    (by assumption))))) rfl rfl rfl

theorem takeFreeboard_kept {s0 s : State} (slot) (p) (t) (h_) (h : Kept s0 s) : Kept s0 (takeFreeboard slot p t h_ s) := by
  unfold takeFreeboard
  try dsimp only
  split
  · assumption
  · refine Kept.foldl (fun _ _ _ => ?_) ?_
    · exact fitLines_kept _ _ (takeLayer_kept _ _ _ _ _ _ (by assumption))
    · exact updSeq_kept _ _ (takeLines_kept _ (takeExtents_kept _ _ _ (by assumption)))

theorem countVerdict_kept {s0 s : State} (tenant) (outcome) (h : Kept s0 s) : Kept s0 (countVerdict tenant outcome s) := by
  unfold countVerdict
  try dsimp only
  split
  · exact bump_kept _ _ (sEvent_kept _ _ _ _ (setAcct_kept _ _ (by assumption)))
  · split
    · exact bump_kept _ _ (sEvent_kept _ _ _ _ (setAcct_kept _ _ (by assumption)))
    · assumption

theorem forget_kept {s0 s : State} (slot) (h : Kept s0 s) : Kept s0 (forget slot s) := by
  unfold forget
  try dsimp only
  refine Kept.put ?_ rfl rfl rfl
  refine reclaim_kept _ ?_ ?_
  · intro _ _ _ _
    assumption
  · exact Kept.put (releasePages_kept _ (by assumption)) rfl rfl rfl

theorem newHandle_kept {s0 s : State} (h : Kept s0 s) : Kept s0 (newHandle s).2 := by
  unfold newHandle
  try dsimp only
  split
  · dsimp only
    exact freeSlot_kept _ _ (by assumption)
  · dsimp only
    exact Kept.put (freeSlot_kept _ _ (by assumption)) rfl rfl rfl

theorem sendVerdict_kept {s0 s : State} (q) (a) (handle) (ring)
    (h : Kept s0 s) : Kept s0 (sendVerdict q a handle ring s) := by
  unfold sendVerdict
  try dsimp only
  exact sendMsg_kept _ _ _ _ _ (countVerdict_kept _ _ (by assumption))

theorem testFreeboard_kept {s0 s : State} {t} {n take} (Htake : ∀ a0, Kept s0 a0 → Kept s0 (take a0))
    (e : testFreeboard s n take = .ok t) (h : Kept s0 s) : Kept s0 t := by
  unfold testFreeboard at e
  try dsimp only at e
  split at e
  · injection e with e
    subst e
    refine makeRoom_kept ?_ (by assumption) ?_
    · intro _ _ _ _
      assumption
    · apply Htake
      assumption
  · split at e
    · cases e
    · cases e

theorem withPages_kept {s0 s : State} (slot) (e_) (p) (t) (shared)
    (h : Kept s0 s) : Kept s0 (withPages slot e_ p t shared s) := by
  unfold withPages
  try dsimp only
  refine takeFreeboard_kept _ _ _ _ ?_
  refine Kept.foldl (fun _ _ _ => ?_) ?_
  · refine Kept.foldl (fun _ _ _ => ?_) ?_
    · refine forDike_kept _ _ _ ?_ ?_
      · intro _ _
        exact incRef_kept _ (by assumption)
      · assumption
    · assumption
  · exact putSeq_kept _ _ (by assumption)

theorem offerNew_take_kept {s0 : State} (s n slot handle adapter q z) :
    ∀ t, Kept s0 t → Kept s0 ((offerNew s n slot handle adapter q z).take t) := by
  intro t h
  unfold offerNew
  dsimp only
  exact withPages_kept _ _ _ _ _ h

theorem offerFork_take_kept {s0 : State} (s n slot handle parent q) :
    ∀ t, Kept s0 t → Kept s0 ((offerFork s n slot handle parent q).take t) := by
  intro t h
  refine takeFreeboard_kept _ _ _ _ ?_
  exact Kept.foldl (fun _ _ h => Kept.foldl (fun _ _ h => forDike_kept _ _ _ (fun _ h => incRef_kept _ h) h) h)
    (putSeq_kept _ _ h)

theorem testQuery_kept {s0 s : State} {t} {n q kept} (e : testQuery n q kept s = .ok t) (h : Kept s0 s) : Kept s0 t.1 := by
  unfold testQuery at e
  dsimp only at e
  split at e
  · cases e
  · split at e
    · cases e
    · split at e
      · cases e
      · split at e
        · cases e
        · split at e
          · cases e
          · split at e
            · cases e
            · cases e
              refine testFreeboard_kept ?_ (by assumption) ?_
              · intro a ha
                split
                · exact offerFork_take_kept _ _ _ _ _ _ _ ha
                · exact offerNew_take_kept _ _ _ _ _ _ _ _ ha
              · split
                · exact h
                · exact newHandle_kept h

theorem chargeFill_kept {s0 s : State} (context) (h : Kept s0 s) : Kept s0 (chargeFill context s) := by
  unfold chargeFill
  try dsimp only
  split
  · split
    · exact charge_kept _ _ _ (charge_kept _ _ _ (by assumption))
    · assumption
  · assumption

theorem mdlResult_kept {s0 s : State} (cmd) (cause) (object) (h : Kept s0 s) : Kept s0 (mdlResult cmd cause object s) := by
  unfold mdlResult
  try dsimp only
  exact Kept.put (by assumption) rfl rfl rfl

theorem mdlRefuse_kept {s0 s : State} (t) (cmd) (cause) (object)
    (h : Kept s0 s) : Kept s0 (mdlRefuse t cmd cause object s) := by
  unfold mdlRefuse
  try dsimp only
  exact refusedWith_kept _ _ (raise_kept _ (bump_kept _ _ (mdlResult_kept _ _ _ (by assumption))))

theorem dropCurrent_kept {s0 s : State} (tenant) (context) (h : Kept s0 s) : Kept s0 (dropCurrent tenant context s) := by
  unfold dropCurrent
  try dsimp only
  exact Kept.put (by assumption) rfl rfl rfl

theorem doRegisterAdapter_kept {s0 s : State} (t) (bs) (h : Kept s0 s) : Kept s0 (doRegisterAdapter t bs s) := by
  unfold doRegisterAdapter
  try dsimp only
  split
  · exact mdlRefuse_kept _ _ _ _ (by assumption)
  · exact doneWith_kept _ _ _ (mdlResult_kept _ _ _ (Kept.put (dropCurrent_kept _ _ (by assumption)) rfl rfl rfl))

theorem doRegisterContext_kept {s0 s : State} (t) (bs) (h : Kept s0 s) : Kept s0 (doRegisterContext t bs s) := by
  unfold doRegisterContext
  try dsimp only
  split
  · exact mdlRefuse_kept _ _ _ _ (by assumption)
  · exact done_kept _ (mdlResult_kept _ _ _ (Kept.put (by assumption) rfl rfl rfl))

theorem freeContext_kept {s0 s : State} (i) (h : Kept s0 s) : Kept s0 (freeContext i s) := by
  unfold freeContext
  try dsimp only
  exact Kept.put (by assumption) rfl rfl rfl

theorem retireContext_kept {s0 s : State} (i) (h : Kept s0 s) : Kept s0 (retireContext i s) := by
  unfold retireContext
  try dsimp only
  exact Kept.put (by assumption) rfl rfl rfl

theorem doRetireContext_kept {s0 s : State} (t) (i) (h : Kept s0 s) : Kept s0 (doRetireContext t i s) := by
  unfold doRetireContext
  try dsimp only
  split
  · exact mdlRefuse_kept _ _ _ _ (by assumption)
  · split
    · exact done_kept _ (freeContext_kept _ (mdlResult_kept _ _ _ (by assumption)))
    · exact done_kept _ (retireContext_kept _ (mdlResult_kept _ _ _ (by assumption)))
    · exact done_kept _ (mdlResult_kept _ _ _ (by assumption))

theorem doWithdrawAdapter_kept {s0 s : State} (t) (tenant) (context)
    (h : Kept s0 s) : Kept s0 (doWithdrawAdapter t tenant context s) := by
  unfold doWithdrawAdapter
  try dsimp only
  split
  · exact mdlRefuse_kept _ _ _ _ (by assumption)
  · exact done_kept _ (mdlResult_kept _ _ _ (dropCurrent_kept _ _ (by assumption)))

theorem execContextFillComplete_kept {s0 s : State} {t} {context}
    (e : execContextFillComplete context s = .next t) (h : Kept s0 s) : Kept s0 t := by
  unfold execContextFillComplete at e
  try dsimp only at e
  injection e with e
  subst e
  exact Kept.put (chargeFill_kept _ (by assumption)) rfl rfl rfl

theorem freeRetired_kept {s0 s : State} (h : Kept s0 s) : Kept s0 (freeRetired s) := by
  unfold freeRetired
  try dsimp only
  refine Kept.foldl (fun _ _ _ => ?_) ?_
  · exact freeContext_kept _ (by assumption)
  · assumption

theorem readyContexts_kept {s0 s : State} (h : Kept s0 s) : Kept s0 (readyContexts s) := by
  unfold readyContexts
  try dsimp only
  exact Kept.put (by assumption) rfl rfl rfl

theorem retireVersions_kept {s0 s : State} (h : Kept s0 s) : Kept s0 (retireVersions s) := by
  unfold retireVersions
  try dsimp only
  refine raiseTimes_kept _ _ ?_
  refine Kept.foldl (fun _ _ _ => ?_) ?_
  · exact Kept.put (by assumption) rfl rfl rfl
  · assumption

theorem noteElems_kept {s0 s : State} (es) (h : Kept s0 s) : Kept s0 (noteElems es s) := by
  unfold noteElems
  try dsimp only
  exact bump_kept _ _ (raiseTimes_kept _ _ (bump_kept _ _ (raiseTimes_kept _ _ (by assumption))))

theorem placedOwn_kept {s0 s : State} (items) (h : Kept s0 s) : Kept s0 (placedOwn items s).2 := by
  unfold placedOwn
  try dsimp only
  split
  · exact violate_kept (by assumption)
  · assumption

theorem leaseItems_kept {s0 s : State} (n) (items) (h : Kept s0 s) : Kept s0 (leaseItems n items s) := by
  unfold leaseItems
  try dsimp only
  refine Kept.foldl (fun _ _ _ => ?_) ?_
  · exact leaseDesc_kept _ _ (by assumption)
  · assumption

theorem buildStep_kept {s0 s : State} (n) (h : Kept s0 s) : Kept s0 (buildStep n s) := by
  unfold buildStep
  try dsimp only
  exact Kept.put (bump_kept _ _ (leaseItems_kept _ _ (placedOwn_kept _ (by assumption)))) rfl rfl rfl

end Sys2Proof.Machine
end

