-- ==== Sys2Proof/Laws/KeptSluice.lean ====
section
/-! SUPPORT. Each operation keeps what Safety.Kept says: the sluice, the exchange, fragments, tiers and work.
`f_kept`: if `s0` is kept up to `s`, it is kept up to what `f` makes of `s`. -/

namespace Sys2Proof.Machine

open Sys2Proof.Safety

theorem addBatch_kept {s0 s : State} (r) (h : Kept s0 s) : Kept s0 (addBatch r s) := by
  unfold addBatch
  try dsimp only
  exact Kept.put (by assumption) rfl rfl rfl

theorem ackLeaving_kept {s0 s : State} (keeper) (handle) (pos)
    (h : Kept s0 s) : Kept s0 (ackLeaving keeper handle pos s) := by
  unfold ackLeaving
  try dsimp only
  refine Kept.put ?_ rfl rfl rfl
  refine Kept.foldl (fun _ _ _ => ?_) ?_
  · exact addBatch_kept _ (by assumption)
  · assumption

theorem updOwned_kept {s0 s : State} (slot) (f) (h : Kept s0 s) : Kept s0 (updOwned slot f s) := by
  unfold updOwned
  try dsimp only
  exact Kept.put (by assumption) rfl rfl rfl

theorem addNotice_kept {s0 s : State} (e_) (kind) (cause) (refStep)
    (h : Kept s0 s) : Kept s0 (addNotice e_ kind cause refStep s) := by
  unfold addNotice
  try dsimp only
  exact addBatch_kept _ (by assumption)

theorem deliverToken_kept {s0 s : State} (slot) (e_) (o) (pos) (token) (promised)
    (h : Kept s0 s) : Kept s0 (deliverToken slot e_ o pos token promised s) := by
  unfold deliverToken
  try dsimp only
  split
  · assumption
  · split
    · exact addNotice_kept _ _ _ _ (updSeq_kept _ _ (addBatch_kept _ (by assumption)))
    · exact updSeq_kept _ _ (addBatch_kept _ (by assumption))

theorem ackToken_kept {s0 s : State} (slot) (e_) (o) (pos) (h : Kept s0 s) : Kept s0 (ackToken slot e_ o pos s) := by
  unfold ackToken
  try dsimp only
  split
  · assumption
  · split
    · exact updOwned_kept _ _ (by assumption)
    · exact deliverToken_kept _ _ _ _ _ _ (updOwned_kept _ _ (by assumption))

theorem addWait_kept {s0 s : State} (p) (h : Kept s0 s) : Kept s0 (addWait p s) := by
  unfold addWait
  try dsimp only
  exact Kept.put (by assumption) rfl rfl rfl

theorem journalMsg_kept {s0 s : State} (action) (tenant) (source) (sseq) (bytes)
    (h : Kept s0 s) : Kept s0 (journalMsg action tenant source sseq bytes s) := by
  unfold journalMsg
  try dsimp only
  split
  · split
    · exact journal_kept _ _ _ _ _ _ (Kept.put (by assumption) rfl rfl rfl)
    · exact Kept.put (by assumption) rfl rfl rfl
  · exact journal_kept _ _ _ _ _ _ (Kept.put (by assumption) rfl rfl rfl)

theorem noteFirst_kept {s0 s : State} (source) (sseq) (h : Kept s0 s) : Kept s0 (noteFirst source sseq s) := by
  unfold noteFirst
  try dsimp only
  split
  · assumption
  · exact Kept.put (by assumption) rfl rfl rfl

theorem consumeNow_kept {s0 s : State} (tenant) (source) (sseq) (bytes)
    (h : Kept s0 s) : Kept s0 (consumeNow tenant source sseq bytes s) := by
  unfold consumeNow
  try dsimp only
  exact journalMsg_kept _ _ _ _ _ (noteFirst_kept _ _ (by assumption))

theorem consumeUnnumbered_kept {s0 s : State} (tenant) (source) (bytes)
    (h : Kept s0 s) : Kept s0 (consumeUnnumbered tenant source bytes s) := by
  unfold consumeUnnumbered
  try dsimp only
  exact journalMsg_kept _ _ _ _ _ (by assumption)

theorem deliverHeld_kept {s0 s : State} (slot) (h : Kept s0 s) : Kept s0 (deliverHeld slot s) := by
  unfold deliverHeld
  try dsimp only
  split
  · refine Kept.foldl (fun _ _ _ => ?_) ?_
    · exact ackToken_kept _ _ _ _ (by assumption)
    · exact updOwned_kept _ _ (by assumption)
  · assumption

theorem setRec_kept {s0 s : State} (slot) (r) (h : Kept s0 s) : Kept s0 (setRec slot r s) := by
  unfold setRec
  try dsimp only
  exact updSeq_kept _ _ (Kept.put (by assumption) rfl rfl rfl)

theorem enterOrphan_kept {s0 s : State} (slot) (h : Kept s0 s) : Kept s0 (enterOrphan slot s) := by
  unfold enterOrphan
  try dsimp only
  split
  · exact bump_kept _ _ (raise_kept _ (addNotice_kept _ _ _ _ (updSeq_kept _ _ (setRec_kept _ _ (by assumption)))))
  · assumption

theorem execRehomeWaitExpired_kept {s0 s : State} {t} {slot}
    (e : execRehomeWaitExpired slot s = .next t) (h : Kept s0 s) : Kept s0 t := by
  unfold execRehomeWaitExpired at e
  try dsimp only at e
  split at e
  · split at e
    · split at e
      · injection e with e
        subst e
        exact updOwned_kept _ _ (by assumption)
      · injection e with e
        subst e
        assumption
    · injection e with e
      subst e
      assumption
  · injection e with e
    subst e
    assumption

theorem resumeWait_kept {s0 s : State} (slot) (e_) (h : Kept s0 s) : Kept s0 (resumeWait slot e_ s) := by
  unfold resumeWait
  try dsimp only
  split
  · assumption
  · exact addWait_kept _ (by assumption)

theorem execRehomingTimeout_kept {s0 s : State} {t} {slot}
    (e : execRehomingTimeout slot s = .next t) (h : Kept s0 s) : Kept s0 t := by
  unfold execRehomingTimeout at e
  try dsimp only at e
  split at e
  · split at e
    · injection e with e
      subst e
      exact resumeWait_kept _ _ (setNow_kept _ (by assumption))
    · injection e with e
      subst e
      assumption
  · injection e with e
    subst e
    assumption

theorem execReissueAckTimeout_kept {s0 s : State} {t} {slot}
    (e : execReissueAckTimeout slot s = .next t) (h : Kept s0 s) : Kept s0 t := by
  unfold execReissueAckTimeout at e
  try dsimp only at e
  split at e
  · split at e
    · injection e with e
      subst e
      exact enterOrphan_kept _ (setNow_kept _ (by assumption))
    · injection e with e
      subst e
      assumption
  · injection e with e
    subst e
    assumption

theorem sendSlu_kept {s0 s : State} (dest) (h_) (body) (h : Kept s0 s) : Kept s0 (sendSlu dest h_ body s) := by
  unfold sendSlu
  try dsimp only
  exact sendMsg_kept _ _ _ _ _ (takeSseq_kept (by assumption))

theorem sendState_kept {s0 s : State} (dest) (h_) (mid) (r) (h : Kept s0 s) : Kept s0 (sendState dest h_ mid r s) := by
  unfold sendState
  try dsimp only
  refine Kept.foldl (fun _ _ _ => ?_) ?_
  · exact sendSlu_kept _ _ _ (by assumption)
  · assumption

theorem forwardTail_kept {s0 s : State} (slot) (h : Kept s0 s) : Kept s0 (forwardTail slot s) := by
  unfold forwardTail
  try dsimp only
  split
  · split
    · split
      · assumption
      · exact sendState_kept _ _ _ _ (setRec_kept _ _ (by assumption))
    · assumption
  · assumption

theorem journalWait_kept {s0 s : State} (p) (h : Kept s0 s) : Kept s0 (journalWait p s) := by
  unfold journalWait
  try dsimp only
  split
  · exact journalMsg_kept _ _ _ _ _ (by assumption)
  · exact journalMsg_kept _ _ _ _ _ (by assumption)
  · split
    · exact journalMsg_kept _ _ _ _ _ (by assumption)
    · assumption

theorem keepGrant_kept {s0 s : State} (m) (h_) (h : Kept s0 s) : Kept s0 (keepGrant m h_ s) := by
  unfold keepGrant
  try dsimp only
  split
  · exact Kept.put (by assumption) rfl rfl rfl
  · exact addWait_kept _ (by assumption)

theorem misdirect_kept {s0 s : State} (port) (h : Kept s0 s) : Kept s0 (misdirect port s) := by
  unfold misdirect
  try dsimp only
  exact raise_kept _ (sEvent_kept _ _ _ _ (setPort_kept _ _ (by assumption)))

theorem sluIn_kept {s0 s : State} (kind) (mine) (act) (m)
    (Hact : ∀ a0 a1, Kept s0 a1 → Kept s0 (act a0 a1)) (h : Kept s0 s) : Kept s0 (sluIn kind mine act m s) := by
  unfold sluIn
  try dsimp only
  split
  · assumption
  · split
    · exact raise_kept _ (by assumption)
    · split
      · exact raise_kept _ (by assumption)
      · split
        · exact misdirect_kept _ (by assumption)
        · apply Hact
          split
          · exact noteFirst_kept _ _ (by assumption)
          · exact consumeNow_kept _ _ _ _ (by assumption)

theorem updRec_kept {s0 s : State} (slot) (f) (h : Kept s0 s) : Kept s0 (updRec slot f s) := by
  unfold updRec
  try dsimp only
  split
  · assumption
  · exact setRec_kept _ _ (by assumption)

theorem sendReject_kept {s0 s : State} (dest) (h_) (h : Kept s0 s) : Kept s0 (sendReject dest h_ s) := by
  unfold sendReject
  try dsimp only
  exact sendSlu_kept _ _ _ (by assumption)

theorem refuseStale_kept {s0 s : State} (source) (h_) (h : Kept s0 s) : Kept s0 (refuseStale source h_ s) := by
  unfold refuseStale
  try dsimp only
  exact sendReject_kept _ _ (raise_kept _ (bump_kept _ _ (by assumption)))

theorem toKeeper_kept {s0 s : State} (kind) (tail) (act) (m)
    (Hact : ∀ a0 a1 a2 a3 a4, Kept s0 a4 → Kept s0 (act a0 a1 a2 a3 a4)) (h : Kept s0 s) :
    Kept s0 (toKeeper kind tail act m s) := by
  unfold toKeeper
  try dsimp only
  refine sluIn_kept _ _ _ _ ?_ ?_
  · intro _ _ _
    split
    · exact raise_kept _ (by assumption)
    · split
      · exact raise_kept _ (by assumption)
      · split
        · apply Hact
          split
          · exact updRec_kept _ _ (by assumption)
          · assumption
        · split
          · apply Hact
            assumption
          · exact refuseStale_kept _ _ (by assumption)
  · assumption

theorem keeperRelease_kept {s0 s : State} (m) (h : Kept s0 s) : Kept s0 (keeperRelease m s) := by
  unfold keeperRelease
  try dsimp only
  refine toKeeper_kept _ _ _ _ ?_ ?_
  · intro _ _ _ _ _ _
    exact addWait_kept _ (by assumption)
  · assumption

theorem setHist_kept {s0 s : State} (slot) (h_) (h : Kept s0 s) : Kept s0 (setHist slot h_ s) := by
  unfold setHist
  try dsimp only
  exact Kept.put (by assumption) rfl rfl rfl

theorem takeHistory_kept {s0 s : State} (slot) (h_) (st) (h : Kept s0 s) : Kept s0 (takeHistory slot h_ st s) := by
  unfold takeHistory
  try dsimp only
  split
  · split
    · split
      · exact updRec_kept _ _ (updSeq_kept _ _ (setHist_kept _ _ (by assumption)))
      · assumption
    · refine resumeWait_kept _ _ ?_
      split
      · exact updRec_kept _ _ (updSeq_kept _ _ (setHist_kept _ _ (by assumption)))
      · assumption
  · split
    · exact updRec_kept _ _ (updSeq_kept _ _ (setHist_kept _ _ (by assumption)))
    · assumption

theorem keeperStatePush_kept {s0 s : State} (m) (h : Kept s0 s) : Kept s0 (keeperStatePush m s) := by
  unfold keeperStatePush
  try dsimp only
  refine toKeeper_kept _ _ _ _ ?_ ?_
  · intro _ _ _ _ _ _
    split
    · exact takeHistory_kept _ _ _ (by assumption)
    · split
      · exact forwardTail_kept _ (updRec_kept _ _ (by assumption))
      · exact updRec_kept _ _ (by assumption)
  · assumption

theorem memberRelease_kept {s0 s : State} (m) (h : Kept s0 s) : Kept s0 (memberRelease m s) := by
  unfold memberRelease
  try dsimp only
  refine sluIn_kept _ _ _ _ ?_ ?_
  · intro _ _ _
    split
    · exact raise_kept _ (by assumption)
    · split
      · exact addWait_kept _ (updSeq_kept _ _ (by assumption))
      · exact refuseStale_kept _ _ (by assumption)
  · assumption

theorem noteAckTo_kept {s0 s : State} (dest) (position) (h_) (h : Kept s0 s) : Kept s0 (noteAckTo dest position h_ s) := by
  unfold noteAckTo
  try dsimp only
  exact sendSlu_kept _ _ _ (by assumption)

theorem ownerSend_kept {s0 s : State} (slot) (kind) (flags) (body)
    (h : Kept s0 s) : Kept s0 (ownerSend slot kind flags body s) := by
  unfold ownerSend
  try dsimp only
  split
  · exact sendSlu_kept _ _ _ (updOwned_kept _ _ (by assumption))
  · assumption

theorem onReissue_kept {s0 s : State} (m) (h_) (h : Kept s0 s) : Kept s0 (onReissue m h_ s) := by
  unfold onReissue
  try dsimp only
  split
  · exact raise_kept _ (by assumption)
  · split
    · exact ownerSend_kept _ _ _ _ (deliverHeld_kept _ (updOwned_kept _ _ (updSeq_kept _ _ (by assumption))))
    · exact deliverHeld_kept _ (updOwned_kept _ _ (updSeq_kept _ _ (by assumption)))

theorem onGrant_kept {s0 s : State} (m) (h : Kept s0 s) : Kept s0 (onGrant m s) := by
  unfold onGrant
  try dsimp only
  refine sluIn_kept _ _ _ _ ?_ ?_
  · intro _ _ _
    split
    · exact onReissue_kept _ _ (by assumption)
    · exact keepGrant_kept _ _ (by assumption)
  · assumption

theorem reachHeld_kept {s0 s : State} (slot) (r) (h : Kept s0 s) : Kept s0 (reachHeld slot r s) := by
  unfold reachHeld
  try dsimp only
  split
  · exact bump_kept _ _ (updRec_kept _ _ (by assumption))
  · exact updRec_kept _ _ (by assumption)

theorem onGrantAck_kept {s0 s : State} (m) (h : Kept s0 s) : Kept s0 (onGrantAck m s) := by
  unfold onGrantAck
  try dsimp only
  refine toKeeper_kept _ _ _ _ ?_ ?_
  · intro _ _ _ _ _ _
    split
    · exact reachHeld_kept _ _ (by assumption)
    · exact reachHeld_kept _ _ (by assumption)
    · exact updRec_kept _ _ (by assumption)
    · assumption
  · assumption

theorem onHistoryQuery_kept {s0 s : State} (m) (h : Kept s0 s) : Kept s0 (onHistoryQuery m s) := by
  unfold onHistoryQuery
  try dsimp only
  refine sluIn_kept _ _ _ _ ?_ ?_
  · intro _ _ _
    split
    · exact raise_kept _ (by assumption)
    · split
      · split
        · assumption
        · exact sendState_kept _ _ _ _ (updOwned_kept _ _ (by assumption))
      · exact raise_kept _ (by assumption)
  · assumption

theorem onNoteAck_kept {s0 s : State} (m) (h : Kept s0 s) : Kept s0 (onNoteAck m s) := by
  unfold onNoteAck
  try dsimp only
  refine sluIn_kept _ _ _ _ ?_ ?_
  · intro _ _ _
    split
    · split
      · exact ackLeaving_kept _ _ _ (by assumption)
      · exact raise_kept _ (by assumption)
    · split
      · exact ackToken_kept _ _ _ _ (updOwned_kept _ _ (by assumption))
      · exact raise_kept _ (by assumption)
  · assumption

theorem onPulse_kept {s0 s : State} (m) (h : Kept s0 s) : Kept s0 (onPulse m s) := by
  unfold onPulse
  try dsimp only
  refine toKeeper_kept _ _ _ _ ?_ ?_
  · intro _ _ _ _ _ _
    assumption
  · assumption

theorem onRecall_kept {s0 s : State} (m) (h : Kept s0 s) : Kept s0 (onRecall m s) := by
  unfold onRecall
  try dsimp only
  refine sluIn_kept _ _ _ _ ?_ ?_
  · intro _ _ _
    split
    · split
      · exact raise_kept _ (by assumption)
      · split
        · assumption
        · exact updOwned_kept _ _ (by assumption)
    · split
      · exact raise_kept _ (by assumption)
      · split
        · exact Kept.put (by assumption) rfl rfl rfl
        · exact Kept.put (by assumption) rfl rfl rfl
  · assumption

theorem toOwner_kept {s0 s : State} (kind) (exact_) (act) (m)
    (Hact : ∀ a0 a1 a2 a3, Kept s0 a3 → Kept s0 (act a0 a1 a2 a3)) (h : Kept s0 s) :
    Kept s0 (toOwner kind exact_ act m s) := by
  unfold toOwner
  try dsimp only
  refine sluIn_kept _ _ _ _ ?_ ?_
  · intro _ _ _
    split
    · exact raise_kept _ (by assumption)
    · split
      · split
        · assumption
        · apply Hact
          exact updOwned_kept _ _ (by assumption)
      · exact raise_kept _ (by assumption)
  · assumption

theorem onReject_kept {s0 s : State} (m) (h : Kept s0 s) : Kept s0 (onReject m s) := by
  unfold onReject
  try dsimp only
  split
  · refine sluIn_kept _ _ _ _ ?_ ?_
    · intro _ _ _
      split
      · assumption
      · exact raise_kept _ (by assumption)
    · assumption
  · refine toOwner_kept _ _ _ _ ?_ ?_
    · intro _ _ _ _ _
      split
      · assumption
      · exact raise_kept _ (updOwned_kept _ _ (by assumption))
    · assumption

theorem onRelease_kept {s0 s : State} (m) (h : Kept s0 s) : Kept s0 (onRelease m s) := by
  unfold onRelease
  try dsimp only
  split
  · split
    · exact memberRelease_kept _ (by assumption)
    · exact keeperRelease_kept _ (by assumption)
  · exact keeperRelease_kept _ (by assumption)

theorem onTokenNote_kept {s0 s : State} (m) (h : Kept s0 s) : Kept s0 (onTokenNote m s) := by
  unfold onTokenNote
  try dsimp only
  refine toKeeper_kept _ _ _ _ ?_ ?_
  · intro _ _ _ _ _ _
    split
    · exact noteAckTo_kept _ _ _ (updSeq_kept _ _ (updRec_kept _ _ (setHist_kept _ _ (by assumption))))
    · split
      · exact noteAckTo_kept _ _ _ (by assumption)
      · assumption
  · assumption

theorem sendRecall_kept {s0 s : State} (slot) (dest) (epoch) (cause) (effective)
    (h : Kept s0 s) : Kept s0 (sendRecall slot dest epoch cause effective s) := by
  unfold sendRecall
  try dsimp only
  split
  · assumption
  · exact sendSlu_kept _ _ _ (by assumption)

theorem recallAll_kept {s0 s : State} (slot) (cause) (effective)
    (h : Kept s0 s) : Kept s0 (recallAll slot cause effective s) := by
  unfold recallAll
  try dsimp only
  split
  · assumption
  · split
    · refine sendRecall_kept _ _ _ _ _ ?_
      split
      · assumption
      · exact sendRecall_kept _ _ _ _ _ (by assumption)
    · split
      · assumption
      · exact sendRecall_kept _ _ _ _ _ (by assumption)

theorem sendGrant_kept {s0 s : State} (slot) (dest) (cause) (epoch) (effective) (from_)
    (h : Kept s0 s) : Kept s0 (sendGrant slot dest cause epoch effective from_ s) := by
  unfold sendGrant
  try dsimp only
  split
  · exact sendState_kept _ _ _ _ (by assumption)
  · assumption

theorem takeTail_kept {s0 s : State} (slot) (st) (h : Kept s0 s) : Kept s0 (takeTail slot st s) := by
  unfold takeTail
  try dsimp only
  exact updSeq_kept _ _ (updOwned_kept _ _ (by assumption))

theorem setChannel_kept {s0 s : State} (c) (ch) (h : Kept s0 s) : Kept s0 (setChannel c ch s) := by
  unfold setChannel
  try dsimp only
  exact writeMem_kept _ _ (Kept.put (by assumption) rfl rfl rfl)

theorem wrapWrite_kept {s0 s : State} (base) (size) (off) (bs) (h : Kept s0 s) : Kept s0 (wrapWrite base size off bs s) := by
  unfold wrapWrite
  try dsimp only
  exact writeMem_kept _ _ (writeMem_kept _ _ (by assumption))

theorem pushRecord_kept {s0 s : State} (c) (r) (h : Kept s0 s) : Kept s0 (pushRecord c r s) := by
  unfold pushRecord
  try dsimp only
  split
  · exact setChannel_kept _ _ (wrapWrite_kept _ _ _ _ (by assumption))
  · exact setChannel_kept _ _ (by assumption)

theorem toAccelerator_kept {s0 s : State} (r) (h : Kept s0 s) : Kept s0 (toAccelerator r s) := by
  unfold toAccelerator
  try dsimp only
  exact pushRecord_kept _ _ (freeOf_kept _ _ (by assumption))

theorem embedNext_kept {s0 s : State} (slot) (h : Kept s0 s) : Kept s0 (embedNext slot s) := by
  unfold embedNext
  try dsimp only
  split
  · split
    · assumption
    · refine updOwned_kept _ _ ?_
      refine Kept.foldl (fun _ _ _ => ?_) ?_
      · exact toAccelerator_kept _ (by assumption)
      · assumption
  · assumption

theorem takeOutput_kept {s0 s : State} (slot) (h_) (h : Kept s0 s) : Kept s0 (takeOutput slot h_ s) := by
  unfold takeOutput
  try dsimp only
  split
  · assumption
  · split
    · assumption
    · split
      · exact updSeq_kept _ _ (updOwned_kept _ _ (toAccelerator_kept _ (by assumption)))
      · exact updOwned_kept _ _ (toAccelerator_kept _ (by assumption))

theorem execAttentionOutput_kept {s0 s : State} {t} {h_}
    (e : execAttentionOutput h_ s = .next t) (h : Kept s0 s) : Kept s0 t := by
  unfold execAttentionOutput at e
  try dsimp only at e
  split at e
  · injection e with e
    subst e
    assumption
  · split at e
    · injection e with e
      subst e
      exact misdirect_kept _ (by assumption)
    · split at e
      · injection e with e
        subst e
        exact damageFound_kept _ _ (by assumption)
      · split at e
        · injection e with e
          subst e
          exact raise_kept _ (by assumption)
        · split at e
          · injection e with e
            subst e
            exact raise_kept _ (by assumption)
          · injection e with e
            subst e
            split
            · exact takeOutput_kept _ _ (consumeNow_kept _ _ _ _ (by assumption))
            · exact consumeNow_kept _ _ _ _ (by assumption)

theorem sendHidden_kept {s0 s : State} (slot) (firstPos) (raw)
    (h : Kept s0 s) : Kept s0 (sendHidden slot firstPos raw s) := by
  unfold sendHidden
  try dsimp only
  split
  · split
    · assumption
    · exact sendPieces_kept _ _ _ _ _ _ (countBlocks_kept _ (updOwned_kept _ _ (takeSseq_kept (by assumption))))
  · assumption

theorem keepLogits_kept {s0 s : State} (slot) (firstPos) (rows)
    (h : Kept s0 s) : Kept s0 (keepLogits slot firstPos rows s) := by
  unfold keepLogits
  try dsimp only
  split
  · split
    · exact Kept.put (by assumption) rfl rfl rfl
    · assumption
  · assumption

theorem takeRecord_kept {s0 s : State} (bs) (payload) (c) (h : Kept s0 s) : Kept s0 (takeRecord bs payload c s) := by
  unfold takeRecord
  try dsimp only
  split
  · exact raise_kept _ (by assumption)
  · split
    · exact raise_kept _ (by assumption)
    · split
      · assumption
      · split
        · exact sendHidden_kept _ _ _ (by assumption)
        · exact keepLogits_kept _ _ _ (by assumption)

theorem takeInbound_kept {s0 x2 : State} (c) (x1) (h : Kept s0 x2) : Kept s0 (takeInbound c x1 x2) := by
  induction x1 generalizing x2 with
  | zero => exact h
  | succ n ih =>
    unfold takeInbound
    dsimp only
    split
    · exact h
    · refine ih ?_
      split
      · exact takeRecord_kept _ _ _ (setChannel_kept _ _ h)
      · exact raise_kept _ (setChannel_kept _ _ h)

theorem execInHeadWrite_kept {s0 s : State} {t} {offsetNs channel head placed}
    (e : execInHeadWrite offsetNs channel head placed s = .next t) (h : Kept s0 s) : Kept s0 t := by
  unfold execInHeadWrite at e
  try dsimp only at e
  split at e
  · injection e with e
    subst e
    split
    · exact takeInbound_kept _ _ (setChannel_kept _ _ (place_kept _ (setNow_kept _ (by assumption))))
    · exact setChannel_kept _ _ (place_kept _ (setNow_kept _ (by assumption)))
  · injection e with e
    subst e
    assumption

theorem flushRecords_kept {s0 x2 : State} (c) (x1) (h : Kept s0 x2) : Kept s0 (flushRecords c x1 x2) := by
  induction x1 generalizing x2 with
  | zero =>
    unfold flushRecords
    try dsimp only
    assumption
  | succ n ih =>
    unfold flushRecords
    try dsimp only
    split
    · assumption
    · split
      · apply ih
        exact setChannel_kept _ _ (wrapWrite_kept _ _ _ _ (by assumption))
      · assumption

theorem execOutTailWrite_kept {s0 s : State} {t} {channel tail}
    (e : execOutTailWrite channel tail s = .next t) (h : Kept s0 s) : Kept s0 t := by
  unfold execOutTailWrite at e
  try dsimp only at e
  split at e
  · injection e with e
    subst e
    exact flushRecords_kept _ _ (setChannel_kept _ _ (by assumption))
  · injection e with e
    subst e
    assumption

theorem ownerStatePush_kept {s0 s : State} (m) (h : Kept s0 s) : Kept s0 (ownerStatePush m s) := by
  unfold ownerStatePush
  try dsimp only
  refine sluIn_kept _ _ _ _ ?_ ?_
  · intro _ _ _
    split
    · split
      · exact raise_kept _ (by assumption)
      · split
        · assumption
        · exact embedNext_kept _ (takeTail_kept _ _ (by assumption))
    · split
      · exact Kept.put (by assumption) rfl rfl rfl
      · exact raise_kept _ (by assumption)
  · assumption

theorem onStatePush_kept {s0 s : State} (m) (h : Kept s0 s) : Kept s0 (onStatePush m s) := by
  unfold onStatePush
  try dsimp only
  split
  · exact keeperStatePush_kept _ (by assumption)
  · exact ownerStatePush_kept _ (by assumption)

theorem sendTail_kept {s0 s : State} (slot) (pos) (token) (h : Kept s0 s) : Kept s0 (sendTail slot pos token s) := by
  unfold sendTail
  try dsimp only
  split
  · exact ownerSend_kept _ _ _ _ (sendState_kept _ _ _ _ (by assumption))
  · assumption

theorem ownerToken_kept {s0 s : State} (slot) (token) (h : Kept s0 s) : Kept s0 (ownerToken slot token s) := by
  unfold ownerToken
  try dsimp only
  split
  · split
    · split
      · exact updOwned_kept _ _ (sendTail_kept _ _ _ (ownerSend_kept _ _ _ _ (updOwned_kept _ _ (updSeq_kept _ _
          (by assumption)))))
      · exact ownerSend_kept _ _ _ _ (updOwned_kept _ _ (updSeq_kept _ _ (by assumption)))
    · split
      · split
        · exact updOwned_kept _ _ (sendTail_kept _ _ _ (ownerSend_kept _ _ _ _ (updOwned_kept _ _ (updSeq_kept _ _
            (by assumption)))))
        · exact ownerSend_kept _ _ _ _ (updOwned_kept _ _ (updSeq_kept _ _ (by assumption)))
      · split
        · exact updOwned_kept _ _ (sendTail_kept _ _ _ (ownerSend_kept _ _ _ _ (updOwned_kept _ _ (updSeq_kept _ _
            (by assumption)))))
        · exact ownerSend_kept _ _ _ _ (updOwned_kept _ _ (updSeq_kept _ _ (by assumption)))
  · assumption

theorem setCoding_kept {s0 s : State} (i) (c) (h : Kept s0 s) : Kept s0 (setCoding i c s) := by
  unfold setCoding
  try dsimp only
  exact Kept.put (by assumption) rfl rfl rfl

theorem sendFrag_kept {s0 s : State} (dest) (i) (f) (h_) (h : Kept s0 s) : Kept s0 (sendFrag dest i f h_ s) := by
  unfold sendFrag
  try dsimp only
  exact sendPieces_kept _ _ _ _ _ _ (by assumption)

theorem startRebuild_kept {s0 s : State} (i) (c) (h : Kept s0 s) : Kept s0 (startRebuild i c s) := by
  unfold startRebuild
  try dsimp only
  refine Kept.foldl (fun _ _ _ => ?_) ?_
  · split
    · split
      · exact chargeTier_kept _ _ _ (setCoding_kept _ _ (by assumption))
      · assumption
    · split
      · assumption
      · exact sendFrag_kept _ _ _ _ (by assumption)
  · exact setCoding_kept _ _ (by assumption)

theorem losePage_kept {s0 s : State} (i) (h : Kept s0 s) : Kept s0 (losePage i s) := by
  unfold losePage
  try dsimp only
  refine Kept.foldl (fun _ _ _ => ?_) ?_
  · exact resumeWait_kept _ _ (by assumption)
  · refine Kept.foldl (fun _ _ _ => ?_) ?_
    · exact removePrefix_kept _ (by assumption)
    · exact updDesc_kept _ _ (by assumption)

theorem damagePage_kept {s0 s : State} (i) (h : Kept s0 s) : Kept s0 (damagePage i s) := by
  unfold damagePage
  try dsimp only
  split
  · assumption
  · split
    · assumption
    · split
      · split
        · exact startRebuild_kept _ _ (updDesc_kept _ _ (by assumption))
        · exact losePage_kept _ (by assumption)
      · exact losePage_kept _ (by assumption)

theorem noteReduced_kept {s0 s : State} (c) (h : Kept s0 s) : Kept s0 (noteReduced c s) := by
  unfold noteReduced
  try dsimp only
  split
  · exact Kept.put (raiseIf_kept _ _ (by assumption)) rfl rfl rfl
  · exact raiseIf_kept _ _ (by assumption)

theorem putFrag_kept {s0 s : State} (i) (f) (h : Kept s0 s) : Kept s0 (putFrag i f s) := by
  unfold putFrag
  try dsimp only
  split
  · assumption
  · split
    · exact sendFrag_kept _ _ _ _ (setCoding_kept _ _ (noteReduced_kept _ (by assumption)))
    · split
      · exact setCoding_kept _ _ (noteReduced_kept _ (by assumption))
      · exact raise_kept _ (decRef_kept _ (setCoding_kept _ _ (noteReduced_kept _ (by assumption))))

theorem execFragmentPutTimeout_kept {s0 s : State} {t} {desc frag}
    (e : execFragmentPutTimeout desc frag s = .next t) (h : Kept s0 s) : Kept s0 t := by
  unfold execFragmentPutTimeout at e
  try dsimp only at e
  split at e
  · injection e with e
    subst e
    assumption
  · injection e with e
    subst e
    split
    · exact putFrag_kept _ _ (by assumption)
    · assumption

theorem execRebuildTimeout_kept {s0 s : State} {t} {desc}
    (e : execRebuildTimeout desc s = .next t) (h : Kept s0 s) : Kept s0 t := by
  unfold execRebuildTimeout at e
  try dsimp only at e
  split at e
  · injection e with e
    subst e
    assumption
  · injection e with e
    subst e
    split
    · exact losePage_kept _ (raise_kept _ (setCoding_kept _ _ (by assumption)))
    · assumption

theorem fragAnswer_kept {s0 s : State} (dest) (kind) (status) (h_) (bytes)
    (h : Kept s0 s) : Kept s0 (fragAnswer dest kind status h_ bytes s) := by
  unfold fragAnswer
  try dsimp only
  exact sendFrag_kept _ _ _ _ (by assumption)

theorem fragIn_kept {s0 s : State} (kind) (act) (m)
    (Hact : ∀ a0 a1, Kept s0 a1 → Kept s0 (act a0 a1)) (h : Kept s0 s) : Kept s0 (fragIn kind act m s) := by
  unfold fragIn
  try dsimp only
  split
  · assumption
  · split
    · exact raise_kept _ (by assumption)
    · split
      · exact misdirect_kept _ (by assumption)
      · apply Hact
        exact consumeUnnumbered_kept _ _ _ (by assumption)

theorem sendFrees_kept {s0 s : State} (i) (c) (h : Kept s0 s) : Kept s0 (sendFrees i c s) := by
  unfold sendFrees
  try dsimp only
  refine Kept.foldl (fun _ _ _ => ?_) ?_
  · exact sendFrag_kept _ _ _ _ (by assumption)
  · assumption

theorem freeFragments_kept {s0 s : State} (i) (d) (h : Kept s0 s) : Kept s0 (freeFragments i d s) := by
  unfold freeFragments
  try dsimp only
  split
  · assumption
  · split
    · assumption
    · split
      · exact sendFrees_kept _ _ (Kept.put (by assumption) rfl rfl rfl)
      · exact setCoding_kept _ _ (by assumption)

theorem onFragmentAck_kept {s0 s : State} (m) (h : Kept s0 s) : Kept s0 (onFragmentAck m s) := by
  unfold onFragmentAck
  try dsimp only
  refine fragIn_kept _ _ _ ?_ ?_
  · intro _ _ _
    split
    · assumption
    · split
      · assumption
      · split
        · split
          · exact sendFrees_kept _ _ (Kept.put (by assumption) rfl rfl rfl)
          · exact setCoding_kept _ _ (by assumption)
        · split
          · exact putFrag_kept _ _ (setCoding_kept _ _ (by assumption))
          · assumption
  · assumption

theorem storeRebuilt_kept {s0 s : State} (i) (d) (c) (bs) (h : Kept s0 s) : Kept s0 (storeRebuilt i d c bs s) := by
  unfold storeRebuilt
  try dsimp only
  refine updDesc_kept _ _ (chargeTier_kept _ _ _ ?_)
  split
  · dsimp only
    exact takeExtents_kept _ _ _ (by assumption)
  · exact takeMap_kept _ _ _ (takeExtents_kept _ _ _ (by assumption))

theorem tryRebuild_kept {s0 s : State} (i) (h : Kept s0 s) : Kept s0 (tryRebuild i s) := by
  unfold tryRebuild
  try dsimp only
  split
  · split
    · assumption
    · split
      · assumption
      · split
        · exact blockDamaged_kept _ _ (by assumption)
        · refine bump_kept _ _ ?_
          refine storeRebuilt_kept _ _ _ _ ?_
          split
          · exact setCoding_kept _ _ (by assumption)
          · exact Kept.put (by assumption) rfl rfl rfl
  · assumption

theorem onFragmentData_kept {s0 s : State} (m) (h : Kept s0 s) : Kept s0 (onFragmentData m s) := by
  unfold onFragmentData
  try dsimp only
  refine fragIn_kept _ _ _ ?_ ?_
  · intro _ _ _
    split
    · assumption
    · split
      · assumption
      · split
        · assumption
        · exact tryRebuild_kept _ (setCoding_kept _ _ (by assumption))
  · assumption

theorem onFragmentFree_kept {s0 s : State} (m) (h : Kept s0 s) : Kept s0 (onFragmentFree m s) := by
  unfold onFragmentFree
  try dsimp only
  refine fragIn_kept _ _ _ ?_ ?_
  · intro _ _ _
    exact Kept.put (by assumption) rfl rfl rfl
  · assumption

theorem onFragmentGet_kept {s0 s : State} (m) (h : Kept s0 s) : Kept s0 (onFragmentGet m s) := by
  unfold onFragmentGet
  try dsimp only
  refine fragIn_kept _ _ _ ?_ ?_
  · intro _ _ _
    split
    · exact fragAnswer_kept _ _ _ _ _ (by assumption)
    · split
      · exact fragAnswer_kept _ _ _ _ _ (chargeTier_kept _ _ _ (by assumption))
      · exact fragAnswer_kept _ _ _ _ _ (blockDamaged_kept _ _ (fragAnswer_kept _ _ _ _ _ (chargeTier_kept _ _ _ (by assumption))))
  · assumption

theorem onFragmentLost_kept {s0 s : State} (m) (h : Kept s0 s) : Kept s0 (onFragmentLost m s) := by
  unfold onFragmentLost
  try dsimp only
  refine fragIn_kept _ _ _ ?_ ?_
  · intro _ _ _
    split
    · assumption
    · split
      · assumption
      · refine putFrag_kept _ _ ?_
        refine setCoding_kept _ _ ?_
        split
        · exact incRef_kept _ (by assumption)
        · assumption
  · assumption

theorem onFragmentPut_kept {s0 s : State} (m) (h : Kept s0 s) : Kept s0 (onFragmentPut m s) := by
  unfold onFragmentPut
  try dsimp only
  refine fragIn_kept _ _ _ ?_ ?_
  · intro _ _ _
    split
    · exact fragAnswer_kept _ _ _ _ _ (raise_kept _ (by assumption))
    · exact fragAnswer_kept _ _ _ _ _ (chargeTier_kept _ _ _ (Kept.put (by assumption) rfl rfl rfl))
  · assumption

theorem protectPages_kept {s0 s : State} (h : Kept s0 s) : Kept s0 (protectPages s) := by
  unfold protectPages
  try dsimp only
  refine Kept.foldl (fun _ _ _ => ?_) ?_
  · refine Kept.foldl (fun _ _ _ => ?_) ?_
    · refine Kept.foldl (fun _ _ _ => ?_) ?_
      · exact sendFrag_kept _ _ _ _ (by assumption)
      · assumption
    · exact Kept.put (decRef_kept _ (setCoding_kept _ _ (by assumption))) rfl rfl rfl
  · assumption

theorem putFrags_kept {s0 s : State} (i) (fs) (h : Kept s0 s) : Kept s0 (putFrags i fs s) := by
  unfold putFrags
  try dsimp only
  refine Kept.foldl (fun _ _ _ => ?_) ?_
  · exact putFrag_kept _ _ (by assumption)
  · assumption

theorem replaceGone_kept {s0 s : State} (h : Kept s0 s) : Kept s0 (replaceGone s) := by
  unfold replaceGone
  try dsimp only
  refine Kept.foldl (fun _ _ _ => ?_) ?_
  · split
    · assumption
    · refine putFrags_kept _ _ ?_
      refine setCoding_kept _ _ ?_
      split
      · exact incRef_kept _ (by assumption)
      · assumption
  · assumption

theorem startCoding_kept {s0 s : State} (i) (h : Kept s0 s) : Kept s0 (startCoding i s) := by
  unfold startCoding
  try dsimp only
  split
  · assumption
  · split
    · exact losePage_kept _ (blockDamaged_kept _ _ (by assumption))
    · exact putFrags_kept _ _ (setCoding_kept _ _ (incRef_kept _ (chargeTier_kept _ _ _ (by assumption))))

theorem startCodings_kept {s0 s : State} (h : Kept s0 s) : Kept s0 (startCodings s) := by
  unfold startCodings
  try dsimp only
  refine Kept.foldl (fun _ _ _ => ?_) ?_
  · exact startCoding_kept _ (by assumption)
  · assumption

theorem checkpointObjects_kept {s0 s : State} (tenant) (h : Kept s0 s) : Kept s0 (checkpointObjects tenant s) := by
  unfold checkpointObjects
  try dsimp only
  refine Kept.foldl (fun _ _ _ => ?_) ?_
  · split
    · assumption
    · exact updDesc_kept _ _ (raiseIf_kept _ _ (by assumption))
  · assumption

theorem cleanError_kept {s0 s : State} (i) (h : Kept s0 s) : Kept s0 (cleanError i s) := by
  unfold cleanError
  try dsimp only
  exact updDesc_kept _ _ (by assumption)

theorem damageObject_kept {s0 s : State} (i) (h : Kept s0 s) : Kept s0 (damageObject i s) := by
  unfold damageObject
  try dsimp only
  split
  · assumption
  · split
    · exact raise_kept _ (updDesc_kept _ _ (by assumption))
    · assumption

theorem startDemotion_kept {s0 s : State} (i) (d) (h : Kept s0 s) : Kept s0 (startDemotion i d s) := by
  unfold startDemotion
  try dsimp only
  split
  · assumption
  · exact incRef_kept _ (updDesc_kept _ _ (by assumption))

theorem demote_kept {s0 s : State} (i) (h : Kept s0 s) : Kept s0 (demote i s) := by
  unfold demote
  try dsimp only
  split
  · assumption
  · split
    · exact dropCopy_kept _ (by assumption)
    · exact startDemotion_kept _ _ (by assumption)

theorem letCopyGo_kept {s0 s : State} (i) (d) (h : Kept s0 s) : Kept s0 (letCopyGo i d s) := by
  unfold letCopyGo
  try dsimp only
  split
  · split
    · exact decRef_kept _ (updDesc_kept _ _ (by assumption))
    · exact updDesc_kept _ _ (by assumption)
  · exact dropCopy_kept _ (by assumption)

theorem dropBad_kept {s0 s : State} (h : Kept s0 s) : Kept s0 (dropBad s) := by
  unfold dropBad
  try dsimp only
  refine Kept.foldl (fun _ _ _ => ?_) ?_
  · split
    · assumption
    · split
      · exact startDemotion_kept _ _ (by assumption)
      · split
        · exact letCopyGo_kept _ _ (by assumption)
        · exact clearCopy_kept _ (by assumption)
  · assumption

theorem execGddr7Corrected_kept {s0 s : State} {t} (e : execGddr7Corrected s = .next t) (h : Kept s0 s) : Kept s0 t := by
  unfold execGddr7Corrected at e
  try dsimp only at e
  injection e with e
  subst e
  split
  · exact raise_kept _ (bump_kept _ _ (by assumption))
  · assumption

theorem refetchPieces_kept {s0 s : State} (context) (keys) (h : Kept s0 s) : Kept s0 (refetchPieces context keys s) := by
  unfold refetchPieces
  try dsimp only
  exact Kept.put (by assumption) rfl rfl rfl

theorem refetch_kept {s0 s : State} (context) (layer) (h : Kept s0 s) : Kept s0 (refetch context layer s) := by
  unfold refetch
  try dsimp only
  exact refetchPieces_kept _ _ (Kept.put (by assumption) rfl rfl rfl)

theorem refetchAdapter_kept {s0 s : State} (v) (h : Kept s0 s) : Kept s0 (refetchAdapter v s) := by
  unfold refetchAdapter
  try dsimp only
  split
  · assumption
  · exact refetchPieces_kept _ _ (by assumption)

theorem pageError_kept {s0 s : State} (i) (h : Kept s0 s) : Kept s0 (pageError i s) := by
  unfold pageError
  try dsimp only
  split
  · assumption
  · split
    · exact damageObject_kept _ (by assumption)
    · split
      · split
        · exact updDesc_kept _ _ (by assumption)
        · exact damagePage_kept _ (by assumption)
      · exact losePage_kept _ (by assumption)

theorem historyError_kept {s0 s : State} (slot) (copy) (h : Kept s0 s) : Kept s0 (historyError slot copy s) := by
  unfold historyError
  try dsimp only
  split
  · exact Kept.put (by assumption) rfl rfl rfl
  · assumption

theorem ueOutcome_kept {s0 s : State} (w) (h : Kept s0 s) : Kept s0 (ueOutcome w s) := by
  unfold ueOutcome
  try dsimp only
  split
  · exact addFault_kept _ (by assumption)
  · exact refetch_kept _ _ (by assumption)
  · exact refetchAdapter_kept _ (by assumption)
  · exact cleanError_kept _ (by assumption)
  · exact pageError_kept _ (by assumption)
  · exact historyError_kept _ _ (by assumption)
  · split
    · assumption
    · split
      · exact cleanError_kept _ (by assumption)
      · exact damageObject_kept _ (by assumption)
  · split
    · assumption
    · split
      · exact Kept.put (by assumption) rfl rfl rfl
      · assumption

theorem uncorrectable_kept {s0 s : State} (w) (h : Kept s0 s) : Kept s0 (uncorrectable w s) := by
  unfold uncorrectable
  try dsimp only
  exact ueOutcome_kept _ (raise_kept _ (bump_kept _ _ (by assumption)))

theorem execGddr7Uncorrectable_kept {s0 s : State} {t} {w}
    (e : execGddr7Uncorrectable w s = .next t) (h : Kept s0 s) : Kept s0 t := by
  unfold execGddr7Uncorrectable at e
  try dsimp only at e
  injection e with e
  subst e
  split
  · exact uncorrectable_kept _ (by assumption)
  · assumption

theorem noteLines_kept {s0 s : State} (lines) (most) (h : Kept s0 s) : Kept s0 (noteLines lines most s) := by
  unfold noteLines
  try dsimp only
  split
  · assumption
  · exact Kept.put (freeBelow_kept _ (by assumption)) rfl rfl rfl

theorem execPromotionComplete_kept {s0 s : State} {t} {desc}
    (e : execPromotionComplete desc s = .next t) (h : Kept s0 s) : Kept s0 t := by
  unfold execPromotionComplete at e
  try dsimp only at e
  split at e
  · injection e with e
    subst e
    assumption
  · injection e with e
    subst e
    split
    · split
      · exact damagePage_kept _ (blockDamaged_kept _ _ (clearCopy_kept _ (noteLines_kept _ _ (charge_kept _ _ _
          (charge_kept _ _ _ (by assumption))))))
      · exact updDesc_kept _ _ (noteLines_kept _ _ (charge_kept _ _ _ (charge_kept _ _ _ (by assumption))))
    · assumption

theorem strandHomes_kept {s0 s : State} (h : Kept s0 s) : Kept s0 (strandHomes s) := by
  unfold strandHomes
  try dsimp only
  refine Kept.foldl (fun _ _ _ => ?_) ?_
  · split
    · assumption
    · split
      · assumption
      · exact pageError_kept _ (by assumption)
  · assumption

theorem segmentLine_kept {s0 s : State} (i) (failed) (h : Kept s0 s) : Kept s0 (segmentLine i failed s) := by
  unfold segmentLine
  try dsimp only
  split
  · assumption
  · exact Kept.put (raiseIf_kept _ _ (by assumption)) rfl rfl rfl

theorem execT2LineTimeout_kept {s0 s : State} {t} {segment failedAgain w}
    (e : execT2LineTimeout segment failedAgain w s = .next t) (h : Kept s0 s) : Kept s0 t := by
  unfold execT2LineTimeout at e
  try dsimp only at e
  split at e
  · injection e with e
    subst e
    assumption
  · split at e
    · injection e with e
      subst e
      split
      · exact strandHomes_kept (uncorrectable_kept _ (segmentLine_kept _ _ (raise_kept _ (bump_kept _ _
          (by assumption)))))
      · exact segmentLine_kept _ _ (raise_kept _ (bump_kept _ _ (by assumption)))
    · injection e with e
      subst e
      assumption

theorem execWritebackExtent_kept {s0 s : State} {t} {desc extent}
    (e : execWritebackExtent desc extent s = .next t) (h : Kept s0 s) : Kept s0 t := by
  unfold execWritebackExtent at e
  try dsimp only at e
  split at e
  · injection e with e
    subst e
    assumption
  · injection e with e
    subst e
    split
    · exact noteLines_kept _ _ (bump_kept _ _ (charge_kept _ _ _ (charge_kept _ _ _ (updDesc_kept _ _
        (by assumption)))))
    · assumption

theorem finishDemotions_kept {s0 s : State} (h : Kept s0 s) : Kept s0 (finishDemotions s) := by
  unfold finishDemotions
  try dsimp only
  refine Kept.foldl (fun _ _ _ => ?_) ?_
  · split
    · assumption
    · split
      · exact letCopyGo_kept _ _ (by assumption)
      · exact updDesc_kept _ _ (by assumption)
  · assumption

theorem startCopy_kept {s0 s : State} (i) (d) (h : Kept s0 s) : Kept s0 (startCopy i d s) := by
  unfold startCopy
  try dsimp only
  exact updDesc_kept _ _ (takeMap_kept _ _ _ (takeExtents_kept _ _ _ (by assumption)))

theorem startDemotions_kept {s0 s : State} (h : Kept s0 s) : Kept s0 (startDemotions s) := by
  unfold startDemotions
  try dsimp only
  split
  · assumption
  · refine Kept.foldl (fun _ _ _ => ?_) ?_
    · split
      · exact demote_kept _ (by assumption)
      · assumption
    · assumption

theorem startPromotions_kept {s0 s : State} (h : Kept s0 s) : Kept s0 (startPromotions s) := by
  unfold startPromotions
  try dsimp only
  refine Kept.foldl (fun _ _ _ => ?_) ?_
  · split
    · exact startCopy_kept _ _ (by assumption)
    · assumption
  · assumption

theorem validateCopies_kept {s0 s : State} (h : Kept s0 s) : Kept s0 (validateCopies s) := by
  unfold validateCopies
  try dsimp only
  exact bump_kept _ _ (Kept.put (by assumption) rfl rfl rfl)

theorem tierBoundary_kept {s0 s : State} (h : Kept s0 s) : Kept s0 (tierBoundary s) := by
  unfold tierBoundary
  try dsimp only
  refine startPromotions_kept ?_
  refine startDemotions_kept ?_
  refine finishDemotions_kept ?_
  refine dropBad_kept ?_
  refine validateCopies_kept ?_
  split
  · exact Kept.put (by assumption) rfl rfl rfl
  · assumption

theorem sendRing_kept {s0 s : State} (dest) (e_) (kind) (layer) (tokens) (firstPos) (payload)
    (h : Kept s0 s) : Kept s0 (sendRing dest e_ kind layer tokens firstPos payload s) := by
  unfold sendRing
  try dsimp only
  exact sendMsg_kept _ _ _ _ _ (by assumption)

theorem sendRecord_kept {s0 s : State} (dest) (e_) (layer) (sts)
    (h : Kept s0 s) : Kept s0 (sendRecord dest e_ layer sts s) := by
  unfold sendRecord
  try dsimp only
  exact sendRing_kept _ _ _ _ _ _ _ (by assumption)

theorem staleRow_kept {s0 s : State} (e_) (r) (h : Kept s0 s) : Kept s0 (staleRow e_ r s) := by
  unfold staleRow
  try dsimp only
  exact refuseStale_kept _ _ (raise_kept _ (bump_kept _ _ (Kept.put (by assumption) rfl rfl rfl)))

theorem updRow_kept {s0 s : State} (handle) (layer) (pos) (f) (h : Kept s0 s) : Kept s0 (updRow handle layer pos f s) := by
  unfold updRow
  try dsimp only
  exact Kept.put (by assumption) rfl rfl rfl

theorem retireRows_kept {s0 s : State} (slot) (e_) (layer) (ps)
    (h : Kept s0 s) : Kept s0 (retireRows slot e_ layer ps s) := by
  unfold retireRows
  try dsimp only
  split
  · assumption
  · split
    · exact Kept.put (by assumption) rfl rfl rfl
    · exact updSeq_kept _ _ (Kept.put (by assumption) rfl rfl rfl)

theorem placeStaged_kept {s0 s : State} (slot) (e_) (c) (layer)
    (h : Kept s0 s) : Kept s0 (placeStaged slot e_ c layer s) := by
  unfold placeStaged
  try dsimp only
  split
  · assumption
  · split
    · assumption
    · split
      · refine Kept.foldl (fun _ _ _ => ?_) ?_
        · exact staleRow_kept _ _ (by assumption)
        · assumption
      · split
        · assumption
        · refine forwardTail_kept _ ?_
          refine Kept.foldl (fun _ _ _ => ?_) ?_
          · exact retireRows_kept _ _ _ _ (by assumption)
          · refine Kept.foldl (fun _ _ _ => ?_) ?_
            · exact updRow_kept _ _ _ _ (by assumption)
            · exact appendStaged_kept (by assumption) (by assumption)

theorem giveOutputs_kept {s0 s : State} (c) (i) (byHead) (h : Kept s0 s) : Kept s0 (giveOutputs c i byHead s) := by
  unfold giveOutputs
  try dsimp only
  refine Kept.foldl (fun _ _ _ => ?_) ?_
  · exact updRow_kept _ _ _ _ (noteElems_kept _ (bump_kept _ _ (raiseTimes_kept _ _ (by assumption))))
  · assumption

theorem finishUnit_kept {s0 s : State} (slot) (e_) (c) (i) (h : Kept s0 s) : Kept s0 (finishUnit slot e_ c i s) := by
  unfold finishUnit
  try dsimp only
  split
  · split
    · assumption
    · refine Kept.put ?_ rfl rfl rfl
      split
      · exact sendRecord_kept _ _ _ _ (by assumption)
      · exact sendRecord_kept _ _ _ _ (sendRing_kept _ _ _ _ _ _ _ (by assumption))
  · split
    · split
      · assumption
      · exact sendRecord_kept _ _ _ _ (sendRing_kept _ _ _ _ _ _ _ (by assumption))
    · exact placeStaged_kept _ _ _ _ (giveOutputs_kept _ _ _ (by assumption))

theorem afterAttention_kept {s0 s : State} (slot) (e_) (c) (i) (h : Kept s0 s) : Kept s0 (afterAttention slot e_ c i s) := by
  unfold afterAttention
  try dsimp only
  split
  · exact finishUnit_kept _ _ _ _ (by assumption)
  · assumption

theorem answerEmpty_kept {s0 s : State} (slot) (layer) (h : Kept s0 s) : Kept s0 (answerEmpty slot layer s) := by
  unfold answerEmpty
  try dsimp only
  split
  · assumption
  · split
    · assumption
    · split
      · exact finishUnit_kept _ _ _ _ (by assumption)
      · assumption

theorem chargeItem_kept {s0 s : State} (i) (u) (h : Kept s0 s) : Kept s0 (chargeItem i u s) := by
  unfold chargeItem
  try dsimp only
  refine Kept.foldl (fun _ _ _ => ?_) ?_
  · split
    · assumption
    · exact chargeSplit_kept _ _ _ (by assumption)
  · assumption

theorem markDone_kept {s0 s : State} (id) (h : Kept s0 s) : Kept s0 (markDone id s) := by
  unfold markDone
  try dsimp only
  exact Kept.put (by assumption) rfl rfl rfl

theorem markRan_kept {s0 s : State} (id) (ran) (h : Kept s0 s) : Kept s0 (markRan id ran s) := by
  unfold markRan
  try dsimp only
  exact Kept.put (by assumption) rfl rfl rfl

theorem noteLogits_kept {s0 s : State} (logits) (h : Kept s0 s) : Kept s0 (noteLogits logits s) := by
  unfold noteLogits
  try dsimp only
  split
  · exact bump_kept _ _ (raise_kept _ (by assumption))
  · assumption

theorem sampleItem_kept {s0 s : State} (slot) (e_) (i) (h : Kept s0 s) : Kept s0 (sampleItem slot e_ i s) := by
  unfold sampleItem
  try dsimp only
  split
  · split
    · assumption
    · exact ownerToken_kept _ _ (noteLogits_kept _ (Kept.put (by assumption) rfl rfl rfl))
  · assumption

theorem projectBatch_kept {s0 s : State} (c) (l) (i) (m) (slice)
    (h : Kept s0 s) : Kept s0 (projectBatch c l i m slice s) := by
  unfold projectBatch
  try dsimp only
  refine Kept.foldl (fun _ _ _ => ?_) ?_
  · split
    · assumption
    · exact noteElems_kept _ (updRow_kept _ _ _ _ (by assumption))
  · assumption

theorem sendOutput_kept {s0 s : State} (e_) (rows) (h : Kept s0 s) : Kept s0 (sendOutput e_ rows s) := by
  unfold sendOutput
  try dsimp only
  split
  · exact sendPieces_kept _ _ _ _ _ _ (countBlocks_kept _ (takeSseq_kept (by assumption)))
  · assumption

theorem returnRows_kept {s0 s : State} (slot) (e_) (c) (layer) (ps)
    (h : Kept s0 s) : Kept s0 (returnRows slot e_ c layer ps s) := by
  unfold returnRows
  try dsimp only
  split
  · assumption
  · refine retireRows_kept _ _ _ _ ?_
    refine Kept.foldl (fun _ _ _ => ?_) ?_
    · exact updRow_kept _ _ _ _ (by assumption)
    · exact sendOutput_kept _ _ (by assumption)

theorem returnBatch_kept {s0 s : State} (c) (i) (h : Kept s0 s) : Kept s0 (returnBatch c i s) := by
  unfold returnBatch
  try dsimp only
  refine Kept.foldl (fun _ _ _ => ?_) ?_
  · split
    · assumption
    · split
      · assumption
      · split
        · exact returnRows_kept _ _ _ _ _ (by assumption)
        · refine Kept.foldl (fun _ _ _ => ?_) ?_
          · exact returnRows_kept _ _ _ _ _ (by assumption)
          · assumption
  · assumption

theorem noteStage_kept {s0 s : State} (c) (context) (layer) (h : Kept s0 s) : Kept s0 (noteStage c context layer s) := by
  unfold noteStage
  try dsimp only
  exact Kept.put (by assumption) rfl rfl rfl

theorem sendProbes_kept {s0 s : State} (e_) (r) (h : Kept s0 s) : Kept s0 (sendProbes e_ r s) := by
  unfold sendProbes
  try dsimp only
  split
  · refine Kept.foldl (fun _ _ _ => ?_) ?_
    · exact sendRing_kept _ _ _ _ _ _ _ (by assumption)
    · assumption
  · assumption

theorem placeDecode_kept {s0 s : State} (slot) (e_) (c) (r) (h : Kept s0 s) : Kept s0 (placeDecode slot e_ c r s) := by
  unfold placeDecode
  try dsimp only
  split
  · assumption
  · split
    · exact staleRow_kept _ _ (by assumption)
    · split
      · assumption
      · exact forwardTail_kept _ (updRow_kept _ _ _ _ (appendRow_kept (by assumption) (by assumption)))

theorem rotaryDone_kept {s0 s : State} (slot) (e_) (c) (i) (h : Kept s0 s) : Kept s0 (rotaryDone slot e_ c i s) := by
  unfold rotaryDone
  try dsimp only
  split
  · assumption
  · split
    · exact noteStage_kept _ _ _ (noteElems_kept _ (noteElems_kept _ (updRow_kept _ _ _ _ (by assumption))))
    · exact sendProbes_kept _ _ (placeDecode_kept _ _ _ _ (noteElems_kept _ (noteElems_kept _ (updRow_kept _ _ _ _
        (by assumption)))))

theorem setRun_kept {s0 s : State} (i) (run) (sts) (h : Kept s0 s) : Kept s0 (setRun i run sts s) := by
  unfold setRun
  try dsimp only
  exact Kept.put (by assumption) rfl rfl rfl

theorem mergeItem_kept {s0 s : State} (slot) (e_) (c) (i) (h : Kept s0 s) : Kept s0 (mergeItem slot e_ c i s) := by
  unfold mergeItem
  try dsimp only
  exact afterAttention_kept _ _ _ _ (setRun_kept _ _ _ (by assumption))

theorem holdPage_kept {s0 s : State} (e_) (i) (h : Kept s0 s) : Kept s0 (holdPage e_ i s) := by
  unfold holdPage
  try dsimp only
  split
  · assumption
  · exact incRef_kept _ (Kept.put (by assumption) rfl rfl rfl)

theorem foldItem_kept {s0 s : State} (slot) (e_) (c) (l) (i) (mark)
    (Hmark : ∀ a0, Kept s0 a0 → Kept s0 (mark a0)) (h : Kept s0 s) : Kept s0 (foldItem slot e_ c l i mark s) := by
  unfold foldItem
  try dsimp only
  split
  · exact damagePage_kept _ (blockDamaged_kept _ _ (by assumption))
  · refine afterAttention_kept _ _ _ _ ?_
    split
    · refine Kept.put ?_ rfl rfl rfl
      refine bump_kept _ _ ?_
      refine raiseTimes_kept _ _ ?_
      refine bump_kept _ _ ?_
      refine raiseTimes_kept _ _ ?_
      refine setRun_kept _ _ _ ?_
      refine holdPage_kept _ _ ?_
      apply Hmark
      assumption
    · refine bump_kept _ _ ?_
      refine raiseTimes_kept _ _ ?_
      refine bump_kept _ _ ?_
      refine raiseTimes_kept _ _ ?_
      refine setRun_kept _ _ _ ?_
      refine holdPage_kept _ _ ?_
      apply Hmark
      assumption

theorem completeItem_kept {s0 s : State} (i) (u) (h : Kept s0 s) : Kept s0 (completeItem i u s) := by
  unfold completeItem
  try dsimp only
  split
  · split
    · split
      · split
        · refine sampleItem_kept _ _ _ ?_
          split
          · exact markDone_kept _ (chargeItem_kept _ _ (by assumption))
          · exact markRan_kept _ _ (chargeItem_kept _ _ (by assumption))
        · split
          · exact markDone_kept _ (chargeItem_kept _ _ (by assumption))
          · exact markRan_kept _ _ (chargeItem_kept _ _ (by assumption))
      · split
        · exact markDone_kept _ (chargeItem_kept _ _ (by assumption))
        · exact markRan_kept _ _ (chargeItem_kept _ _ (by assumption))
    · split
      · exact markDone_kept _ (chargeItem_kept _ _ (by assumption))
      · exact markRan_kept _ _ (chargeItem_kept _ _ (by assumption))
  · split
    · refine projectBatch_kept _ _ _ _ _ ?_
      split
      · exact markDone_kept _ (chargeItem_kept _ _ (by assumption))
      · exact markRan_kept _ _ (chargeItem_kept _ _ (by assumption))
    · refine returnBatch_kept _ _ ?_
      refine projectBatch_kept _ _ _ _ _ ?_
      split
      · exact markDone_kept _ (chargeItem_kept _ _ (by assumption))
      · exact markRan_kept _ _ (chargeItem_kept _ _ (by assumption))
    · split
      · exact markDone_kept _ (chargeItem_kept _ _ (by assumption))
      · exact markRan_kept _ _ (chargeItem_kept _ _ (by assumption))
  · split
    · split
      · exact markDone_kept _ (chargeItem_kept _ _ (by assumption))
      · exact markRan_kept _ _ (chargeItem_kept _ _ (by assumption))
    · split
      · split
        · split
          · exact markDone_kept _ (chargeItem_kept _ _ (by assumption))
          · exact markRan_kept _ _ (chargeItem_kept _ _ (by assumption))
        · refine noteElems_kept _ ?_
          refine updRow_kept _ _ _ _ ?_
          split
          · exact markDone_kept _ (chargeItem_kept _ _ (by assumption))
          · exact markRan_kept _ _ (chargeItem_kept _ _ (by assumption))
      · refine projectBatch_kept _ _ _ _ _ ?_
        split
        · exact markDone_kept _ (chargeItem_kept _ _ (by assumption))
        · exact markRan_kept _ _ (chargeItem_kept _ _ (by assumption))
      · refine rotaryDone_kept _ _ _ _ ?_
        split
        · exact markDone_kept _ (chargeItem_kept _ _ (by assumption))
        · exact markRan_kept _ _ (chargeItem_kept _ _ (by assumption))
      · refine returnBatch_kept _ _ ?_
        refine projectBatch_kept _ _ _ _ _ ?_
        split
        · exact markDone_kept _ (chargeItem_kept _ _ (by assumption))
        · exact markRan_kept _ _ (chargeItem_kept _ _ (by assumption))
      · refine mergeItem_kept _ _ _ _ ?_
        split
        · exact markDone_kept _ (chargeItem_kept _ _ (by assumption))
        · exact markRan_kept _ _ (chargeItem_kept _ _ (by assumption))
      · refine sampleItem_kept _ _ _ ?_
        split
        · exact markDone_kept _ (chargeItem_kept _ _ (by assumption))
        · exact markRan_kept _ _ (chargeItem_kept _ _ (by assumption))
      · refine foldItem_kept _ _ _ _ _ _ ?_ ?_
        · intro _ _
          split
          · exact markDone_kept _ (by assumption)
          · exact markRan_kept _ _ (by assumption)
        · exact chargeItem_kept _ _ (by assumption)

theorem swapCluster_kept {s0 s : State} (k) (h : Kept s0 s) : Kept s0 (swapCluster k s) := by
  unfold swapCluster
  try dsimp only
  split
  · split
    · assumption
    · exact Kept.put (freeOf_kept _ _ (by assumption)) rfl rfl rfl
  · split
    · assumption
    · exact Kept.put (freeOf_kept _ _ (by assumption)) rfl rfl rfl

theorem swapCheck_kept {s0 s : State} (h : Kept s0 s) : Kept s0 (swapCheck s) := by
  unfold swapCheck
  try dsimp only
  refine Kept.foldl (fun _ _ _ => ?_) ?_
  · exact swapCluster_kept _ (by assumption)
  · assumption

theorem lateStep_kept {s0 s : State} (e_) (layer) (h : Kept s0 s) : Kept s0 (lateStep e_ layer s).2 := by
  unfold lateStep
  try dsimp only
  split
  · dsimp only
    exact Kept.put (by assumption) rfl rfl rfl
  · dsimp only
    exact disposition_kept _ _ _ _ (updSeq_kept _ _ (by assumption))

theorem hiddenStep_kept {s0 s : State} (h_) (offsetNs) (e_) (h : Kept s0 s) : Kept s0 (hiddenStep h_ offsetNs e_ s).2 := by
  unfold hiddenStep
  try dsimp only
  split
  · exact lateStep_kept _ _ (by assumption)
  · dsimp only
    assumption

theorem takeHidden_kept {s0 s : State} (h_) (offsetNs) (e_) (h : Kept s0 s) : Kept s0 (takeHidden h_ offsetNs e_ s) := by
  unfold takeHidden
  try dsimp only
  exact Kept.put (hiddenStep_kept _ _ _ (by assumption)) rfl rfl rfl

theorem execHiddenState_kept {s0 s : State} {t} {offsetNs h_}
    (e : execHiddenState offsetNs h_ s = .next t) (h : Kept s0 s) : Kept s0 t := by
  unfold execHiddenState at e
  try dsimp only at e
  split at e
  · injection e with e
    subst e
    assumption
  · split at e
    · injection e with e
      subst e
      exact misdirect_kept _ (setNow_kept _ (by assumption))
    · split at e
      · injection e with e
        subst e
        exact damageFound_kept _ _ (setNow_kept _ (by assumption))
      · split at e
        · injection e with e
          subst e
          exact raise_kept _ (setNow_kept _ (by assumption))
        · split at e
          · split at e
            · injection e with e
              subst e
              refine refuseStale_kept _ _ ?_
              split
              · exact updSeq_kept _ _ (consumeNow_kept _ _ _ _ (setNow_kept _ (by assumption)))
              · exact consumeNow_kept _ _ _ _ (setNow_kept _ (by assumption))
            · split at e
              · injection e with e
                subst e
                refine raise_kept _ ?_
                split
                · exact updSeq_kept _ _ (consumeNow_kept _ _ _ _ (setNow_kept _ (by assumption)))
                · exact consumeNow_kept _ _ _ _ (setNow_kept _ (by assumption))
              · injection e with e
                subst e
                refine swapCheck_kept ?_
                refine takeHidden_kept _ _ _ ?_
                split
                · split
                  · exact updSeq_kept _ _ (consumeNow_kept _ _ _ _ (setNow_kept _ (by assumption)))
                  · exact consumeNow_kept _ _ _ _ (setNow_kept _ (by assumption))
                · refine updRec_kept _ _ ?_
                  split
                  · exact updSeq_kept _ _ (consumeNow_kept _ _ _ _ (setNow_kept _ (by assumption)))
                  · exact consumeNow_kept _ _ _ _ (setNow_kept _ (by assumption))
          · injection e with e
            subst e
            exact raise_kept _ (setNow_kept _ (by assumption))
          · injection e with e
            subst e
            exact raise_kept _ (setNow_kept _ (by assumption))

theorem execImageSwapComplete_kept {s0 s : State} {t} {cluster}
    (e : execImageSwapComplete cluster s = .next t) (h : Kept s0 s) : Kept s0 t := by
  unfold execImageSwapComplete at e
  try dsimp only at e
  split at e
  · injection e with e
    subst e
    assumption
  · injection e with e
    subst e
    split
    · exact swapCheck_kept (charge_kept _ _ _ (bump_kept _ _ (Kept.put (freeBelow_kept _ (by assumption)) rfl rfl rfl)))
    · assumption

theorem execItemComplete_kept {s0 s : State} {t} {item u}
    (e : execItemComplete item u s = .next t) (h : Kept s0 s) : Kept s0 t := by
  unfold execItemComplete at e
  try dsimp only at e
  split at e
  · injection e with e
    subst e
    assumption
  · injection e with e
    subst e
    split
    · exact swapCheck_kept (completeItem_kept _ _ (by assumption))
    · assumption

theorem memberLost_kept {s0 s : State} (slot) (member) (h : Kept s0 s) : Kept s0 (memberLost slot member s) := by
  unfold memberLost
  try dsimp only
  split
  · assumption
  · split
    · exact updSeq_kept _ _ (raise_kept _ (by assumption))
    · exact enterOrphan_kept _ (raise_kept _ (by assumption))

theorem execRingSilenceTimeout_kept {s0 s : State} {t} {slot member}
    (e : execRingSilenceTimeout slot member s = .next t) (h : Kept s0 s) : Kept s0 t := by
  unfold execRingSilenceTimeout at e
  try dsimp only at e
  split at e
  · injection e with e
    subst e
    assumption
  · injection e with e
    subst e
    split
    · exact memberLost_kept _ _ (by assumption)
    · assumption

theorem finishRingF_kept {s0 s : State} (e_) (c) (h_) (h : Kept s0 s) : Kept s0 (finishRingF e_ c h_ s) := by
  unfold finishRingF
  try dsimp only
  exact giveOutputs_kept _ _ _ (by assumption)

theorem forwardBlocks_kept {s0 s : State} (slot) (layer) (h : Kept s0 s) : Kept s0 (forwardBlocks slot layer s) := by
  unfold forwardBlocks
  try dsimp only
  split
  · assumption
  · split
    · assumption
    · refine Kept.put ?_ rfl rfl rfl
      refine Kept.foldl (fun _ _ _ => ?_) ?_
      · exact sendRing_kept _ _ _ _ _ _ _ (by assumption)
      · assumption

theorem keepRing_kept {s0 s : State} (h_) (e_) (h : Kept s0 s) : Kept s0 (keepRing h_ e_ s) := by
  unfold keepRing
  try dsimp only
  exact Kept.put (by assumption) rfl rfl rfl

theorem lateRing_kept {s0 s : State} (h_) (e_) (h : Kept s0 s) : Kept s0 (lateRing h_ e_ s).2 := by
  unfold lateRing
  try dsimp only
  split
  · dsimp only
    exact Kept.put (lateStep_kept _ _ (disposition_kept _ _ _ _ (raise_kept _ (bump_kept _ _
      (by assumption))))) rfl rfl rfl
  · dsimp only
    assumption

theorem ringEpoch_kept {s0 s : State} {t} {slot source epoch e_}
    (e : ringEpoch slot source epoch e_ s = some t) (h : Kept s0 s) : Kept s0 t := by
  unfold ringEpoch at e
  try dsimp only at e
  split at e
  · injection e with e
    subst e
    assumption
  · split at e
    · injection e with e
      subst e
      exact updSeq_kept _ _ (by assumption)
    · cases e

theorem ringIn_kept {s0 s : State} (kind) (act) (m)
    (Hact : ∀ a0 a1 a2 a3, Kept s0 a3 → Kept s0 (act a0 a1 a2 a3)) (h : Kept s0 s) : Kept s0 (ringIn kind act m s) := by
  unfold ringIn
  try dsimp only
  split
  · assumption
  · split
    · exact raise_kept _ (by assumption)
    · split
      · exact misdirect_kept _ (by assumption)
      · split
        · exact raise_kept _ (by assumption)
        · split
          · exact raise_kept _ (by assumption)
          · split
            · exact sendReject_kept _ _ (raise_kept _ (bump_kept _ _ (consumeUnnumbered_kept _ _ _ (by assumption))))
            · split
              · exact raise_kept _ (bump_kept _ _ (Kept.put (ringEpoch_kept (by assumption)
                  (consumeUnnumbered_kept _ _ _ (by assumption))) rfl rfl rfl))
              · apply Hact
                exact Kept.put (ringEpoch_kept (by assumption) (consumeUnnumbered_kept _ _ _
                  (by assumption))) rfl rfl rfl

theorem onFoldRecord_kept {s0 s : State} (m) (h : Kept s0 s) : Kept s0 (onFoldRecord m s) := by
  unfold onFoldRecord
  try dsimp only
  refine ringIn_kept _ _ _ ?_ ?_
  · intro _ _ _ _ _
    split
    · assumption
    · split
      · exact raise_kept _ (by assumption)
      · refine swapCheck_kept ?_
        split
        · exact finishRingF_kept _ _ _ (answerEmpty_kept _ _ (keepRing_kept _ _ (lateRing_kept _ _ (by assumption))))
        · exact answerEmpty_kept _ _ (keepRing_kept _ _ (lateRing_kept _ _ (by assumption)))
  · assumption

theorem onProbe_kept {s0 s : State} (m) (h : Kept s0 s) : Kept s0 (onProbe m s) := by
  unfold onProbe
  try dsimp only
  refine ringIn_kept _ _ _ ?_ ?_
  · intro _ _ _ _ _
    split
    · assumption
    · split
      · exact raise_kept _ (by assumption)
      · split
        · assumption
        · exact swapCheck_kept (answerEmpty_kept _ _ (keepRing_kept _ _ (Kept.put (lateRing_kept _ _
            (by assumption)) rfl rfl rfl)))
  · assumption

theorem onRingBlock_kept {s0 s : State} (m) (h : Kept s0 s) : Kept s0 (onRingBlock m s) := by
  unfold onRingBlock
  try dsimp only
  refine ringIn_kept _ _ _ ?_ ?_
  · intro _ _ _ _ _
    split
    · exact blockDamaged_kept _ _ (by assumption)
    · exact swapCheck_kept (forwardBlocks_kept _ _ (keepRing_kept _ _ (lateRing_kept _ _ (by assumption))))
  · assumption

theorem sendOwn_kept {s0 s : State} (slot) (l) (h : Kept s0 s) : Kept s0 (sendOwn slot l s) := by
  unfold sendOwn
  try dsimp only
  split
  · assumption
  · split
    · assumption
    · refine Kept.foldl (fun _ _ _ => ?_) ?_
      · split
        · assumption
        · exact updLayer_kept _ _ _ (sendRing_kept _ _ _ _ _ _ _ (by assumption))
      · assumption

theorem addDelay_kept {s0 s : State} (context) (ns) (h : Kept s0 s) : Kept s0 (addDelay context ns s) := by
  unfold addDelay
  try dsimp only
  exact Kept.put (by assumption) rfl rfl rfl

theorem chargeFetch_kept {s0 s : State} (c) (n) (h : Kept s0 s) : Kept s0 (chargeFetch c n s) := by
  unfold chargeFetch
  try dsimp only
  split
  · exact charge_kept _ _ _ (by assumption)
  · exact charge_kept _ _ _ (by assumption)

theorem pullItems_kept {s0 s : State} (e_) (h : Kept s0 s) : Kept s0 (pullItems e_ s) := by
  unfold pullItems
  try dsimp only
  exact Kept.put (by assumption) rfl rfl rfl

theorem deferSeq_kept {s0 s : State} (slot) (e_) (h : Kept s0 s) : Kept s0 (deferSeq slot e_ s) := by
  unfold deferSeq
  try dsimp only
  exact disposition_kept _ _ _ _ (raise_kept _ (bump_kept _ _ (updSeq_kept _ _ (pullItems_kept _ (by assumption)))))

theorem setLoad_kept {s0 s : State} (key) (l) (h : Kept s0 s) : Kept s0 (setLoad key l s) := by
  unfold setLoad
  try dsimp only
  exact Kept.put (by assumption) rfl rfl rfl

theorem deferFor_kept {s0 s : State} (before) (context) (key) (overrun)
    (h : Kept s0 s) : Kept s0 (deferFor before context key overrun s) := by
  unfold deferFor
  try dsimp only
  split
  · refine setLoad_kept _ _ ?_
    refine Kept.foldl (fun _ _ _ => ?_) ?_
    · exact deferSeq_kept _ _ (by assumption)
    · assumption
  · refine Kept.foldl (fun _ _ _ => ?_) ?_
    · exact deferSeq_kept _ _ (by assumption)
    · assumption

theorem renewAdapters_kept {s0 s : State} (ps) (h : Kept s0 s) : Kept s0 (renewAdapters ps s) := by
  unfold renewAdapters
  try dsimp only
  exact Kept.put (by assumption) rfl rfl rfl

theorem takeFetch_kept {s0 s : State} (ci) (layer) (c) (l) (h : Kept s0 s) : Kept s0 (takeFetch ci layer c l s).2 := by
  unfold takeFetch
  try dsimp only
  split
  · dsimp only
    exact addFault_kept _ (raise_kept _ (by assumption))
  · dsimp only
    refine Kept.put ?_ rfl rfl rfl
    refine raiseIf_kept _ _ ?_
    refine renewAdapters_kept _ ?_
    refine Kept.foldl (fun _ _ _ => ?_) ?_
    · refine Kept.foldl (fun _ _ _ => ?_) ?_
      · exact blockDamaged_kept _ _ (by assumption)
      · assumption
    · assumption

theorem fetched_kept {s0 s : State} (t) (key) (c) (l) (late) (h : Kept s0 s) : Kept s0 (fetched t key c l late s) := by
  unfold fetched
  try dsimp only
  split
  · exact takeFetch_kept _ _ _ _ (chargeFetch_kept _ _ (by assumption))
  · refine swapCheck_kept ?_
    refine setLoad_kept _ _ ?_
    refine Kept.put ?_ rfl rfl rfl
    refine addDelay_kept _ _ ?_
    split
    · exact noteLines_kept _ _ (takeFetch_kept _ _ _ _ (chargeFetch_kept _ _ (by assumption)))
    · exact takeFetch_kept _ _ _ _ (chargeFetch_kept _ _ (by assumption))

theorem execPrefetchComplete_kept {s0 s : State} {t} {slot}
    (e : execPrefetchComplete slot s = .next t) (h : Kept s0 s) : Kept s0 t := by
  unfold execPrefetchComplete at e
  try dsimp only at e
  split at e
  · injection e with e
    subst e
    assumption
  · split at e
    · split at e
      · injection e with e
        subst e
        exact fetched_kept _ _ _ _ _ (by assumption)
      · injection e with e
        subst e
        exact fetched_kept _ _ _ _ _ (by assumption)
      · injection e with e
        subst e
        assumption
    · injection e with e
      subst e
      assumption

theorem execPrefetchDeadline_kept {s0 s : State} {t} {slot}
    (e : execPrefetchDeadline slot s = .next t) (h : Kept s0 s) : Kept s0 t := by
  unfold execPrefetchDeadline at e
  try dsimp only at e
  split at e
  · injection e with e
    subst e
    assumption
  · split at e
    · injection e with e
      subst e
      exact disposition_kept _ _ _ _ (raise_kept _ (bump_kept _ _ (setLoad_kept _ _ (setNow_kept _ (by assumption)))))
    · injection e with e
      subst e
      assumption

theorem execPrefetchIssue_kept {s0 s : State} {t} {slot}
    (e : execPrefetchIssue slot s = .next t) (h : Kept s0 s) : Kept s0 t := by
  unfold execPrefetchIssue at e
  try dsimp only at e
  split at e
  · injection e with e
    subst e
    assumption
  · injection e with e
    subst e
    split
    · exact setLoad_kept _ _ (setNow_kept _ (by assumption))
    · assumption

theorem execSlackExhausted_kept {s0 s : State} {t} {slot remaining}
    (e : execSlackExhausted slot remaining s = .next t) (h : Kept s0 s) : Kept s0 t := by
  unfold execSlackExhausted at e
  try dsimp only at e
  split at e
  · injection e with e
    subst e
    assumption
  · split at e
    · injection e with e
      subst e
      refine swapCheck_kept ?_
      split
      · split
        · exact setLoad_kept _ _ (addDelay_kept _ _ (Kept.put (raise_kept _ (bump_kept _ _ (chargeFetch_kept _ _
            (noteLines_kept _ _ (addDelay_kept _ _ (Kept.put (setNow_kept _
            (by assumption)) rfl rfl rfl)))))) rfl rfl rfl))
        · exact deferFor_kept _ _ _ _ (setLoad_kept _ _ (addDelay_kept _ _ (Kept.put (raise_kept _ (bump_kept _ _
            (chargeFetch_kept _ _ (noteLines_kept _ _ (addDelay_kept _ _ (Kept.put (setNow_kept _
            (by assumption)) rfl rfl rfl)))))) rfl rfl rfl)))
      · split
        · exact setLoad_kept _ _ (addDelay_kept _ _ (Kept.put (raise_kept _ (bump_kept _ _ (chargeFetch_kept _ _
            (noteLines_kept _ _ (addDelay_kept _ _ (Kept.put (setNow_kept _
            (by assumption)) rfl rfl rfl)))))) rfl rfl rfl))
        · exact deferFor_kept _ _ _ _ (setLoad_kept _ _ (addDelay_kept _ _ (Kept.put (raise_kept _ (bump_kept _ _
            (chargeFetch_kept _ _ (noteLines_kept _ _ (addDelay_kept _ _ (Kept.put (setNow_kept _
            (by assumption)) rfl rfl rfl)))))) rfl rfl rfl)))
    · injection e with e
      subst e
      assumption

theorem stageLayer_kept {s0 s : State} (ci) (h : Kept s0 s) : Kept s0 (stageLayer ci s) := by
  unfold stageLayer
  try dsimp only
  split
  · split
    · assumption
    · split
      · assumption
      · assumption
  · split
    · split
      · assumption
      · split
        · assumption
        · refine setLoad_kept _ _ ?_
          dsimp only
          assumption
    · split
      · assumption
      · split
        · assumption
        · refine setLoad_kept _ _ ?_
          split
          · split
            · dsimp only
              assumption
            · split
              · split
                · dsimp only
                  assumption
                · split
                  · dsimp only
                    assumption
                  · refine takeFetch_kept _ _ _ _ ?_
                    refine chargeFetch_kept _ _ ?_
                    dsimp only
                    assumption
              · split
                · refine takeFetch_kept _ _ _ _ ?_
                  refine chargeFetch_kept _ _ ?_
                  dsimp only
                  assumption
                · split
                  · refine takeFetch_kept _ _ _ _ ?_
                    refine chargeFetch_kept _ _ ?_
                    dsimp only
                    assumption
                  · refine takeFetch_kept _ _ _ _ ?_
                    refine chargeFetch_kept _ _ ?_
                    refine takeFetch_kept _ _ _ _ ?_
                    refine chargeFetch_kept _ _ ?_
                    dsimp only
                    assumption
          · split
            · exact takeFetch_kept _ _ _ _ (chargeFetch_kept _ _ (by assumption))
            · split
              · split
                · exact takeFetch_kept _ _ _ _ (chargeFetch_kept _ _ (by assumption))
                · split
                  · exact takeFetch_kept _ _ _ _ (chargeFetch_kept _ _ (by assumption))
                  · exact takeFetch_kept _ _ _ _ (chargeFetch_kept _ _ (takeFetch_kept _ _ _ _ (chargeFetch_kept _ _
                      (by assumption))))
              · split
                · exact takeFetch_kept _ _ _ _ (chargeFetch_kept _ _ (takeFetch_kept _ _ _ _ (chargeFetch_kept _ _
                    (by assumption))))
                · split
                  · exact takeFetch_kept _ _ _ _ (chargeFetch_kept _ _ (takeFetch_kept _ _ _ _ (chargeFetch_kept _ _
                      (by assumption))))
                  · exact takeFetch_kept _ _ _ _ (chargeFetch_kept _ _ (takeFetch_kept _ _ _ _ (chargeFetch_kept _ _
                      (takeFetch_kept _ _ _ _ (chargeFetch_kept _ _ (by assumption))))))

theorem stageNext_kept {s0 s : State} (t) (h : Kept s0 s) : Kept s0 (stageNext t s) := by
  unfold stageNext
  try dsimp only
  split
  · split
    · exact stageLayer_kept _ (by assumption)
    · assumption
  · assumption

theorem placeWaitingRow_kept {s0 s : State} (c) (r) (h : Kept s0 s) : Kept s0 (placeWaitingRow c r s) := by
  unfold placeWaitingRow
  try dsimp only
  split
  · assumption
  · split
    · exact placeStaged_kept _ _ _ _ (by assumption)
    · exact placeDecode_kept _ _ _ _ (by assumption)

theorem placeWaiting_kept {s0 s : State} (t) (h : Kept s0 s) : Kept s0 (placeWaiting t s) := by
  unfold placeWaiting
  try dsimp only
  split
  · assumption
  · refine Kept.foldl (fun _ _ _ => ?_) ?_
    · exact placeWaitingRow_kept _ _ (by assumption)
    · assumption

theorem execSlotOpen_kept {s0 s : State} {t} {slot} (e : execSlotOpen slot s = .next t) (h : Kept s0 s) : Kept s0 t := by
  unfold execSlotOpen at e
  try dsimp only at e
  split at e
  · injection e with e
    subst e
    assumption
  · injection e with e
    subst e
    split
    · exact swapCheck_kept (stageNext_kept _ (placeWaiting_kept _ (Kept.put (setNow_kept _
        (by assumption)) rfl rfl rfl)))
    · assumption

theorem stageFirst_kept {s0 s : State} (h : Kept s0 s) : Kept s0 (stageFirst s) := by
  unfold stageFirst
  try dsimp only
  refine Kept.foldl (fun _ _ _ => ?_) ?_
  · exact stageLayer_kept _ (by assumption)
  · assumption

end Sys2Proof.Machine
end

