-- ==== Sys2Proof/Laws/KeptRings.lean ====
section
/-! SUPPORT. Each operation keeps what Safety.Kept says: health, images, checkpoints and ring commands.
`f_kept`: if `s0` is kept up to `s`, it is kept up to what `f` makes of `s`. -/

namespace Sys2Proof.Machine

open Sys2Proof.Safety

theorem setCore_kept {s0 s : State} (die) (phys) (c) (h : Kept s0 s) : Kept s0 (setCore die phys c s) := by
  unfold setCore
  try dsimp only
  exact Kept.put (by assumption) rfl rfl rfl

theorem updCore_kept {s0 s : State} (die) (phys) (f) (h : Kept s0 s) : Kept s0 (updCore die phys f s) := by
  unfold updCore
  try dsimp only
  exact setCore_kept _ _ _ (by assumption)

theorem addScore_kept {s0 s : State} (die) (phys) (n) (h : Kept s0 s) : Kept s0 (addScore die phys n s) := by
  unfold addScore
  try dsimp only
  exact updCore_kept _ _ _ (by assumption)

theorem carryItems_kept {s0 s : State} (items) (h : Kept s0 s) : Kept s0 (carryItems items s) := by
  unfold carryItems
  try dsimp only
  refine Kept.foldl (fun _ _ _ => ?_) ?_
  · split
    · assumption
    · split
      · assumption
      · exact disposition_kept _ _ _ _ (pullItems_kept _ (updSeq_kept _ _ (by assumption)))
  · assumption

theorem chargeFault_kept {s0 s : State} (phys) (temp) (h : Kept s0 s) : Kept s0 (chargeFault phys temp s) := by
  unfold chargeFault
  try dsimp only
  exact updCore_kept _ _ _ (by assumption)

theorem chargeShadow_kept {s0 s : State} (h : Kept s0 s) : Kept s0 (chargeShadow s) := by
  unfold chargeShadow
  try dsimp only
  refine Kept.foldl (fun _ _ _ => ?_) ?_
  · exact charge_kept _ _ _ (Kept.draw (by assumption) rfl rfl rfl)
  · assumption

theorem chargeUnresolved_kept {s0 s : State} (phys) (n) (h : Kept s0 s) : Kept s0 (chargeUnresolved phys n s) := by
  unfold chargeUnresolved
  try dsimp only
  exact updCore_kept _ _ _ (by assumption)

theorem setDie_kept {s0 s : State} (d) (x) (h : Kept s0 s) : Kept s0 (setDie d x s) := by
  unfold setDie
  try dsimp only
  exact Kept.put (by assumption) rfl rfl rfl

theorem quarantine_kept {s0 s : State} (die) (phys) (cause) (h : Kept s0 s) : Kept s0 (quarantine die phys cause s) := by
  unfold quarantine
  try dsimp only
  exact bump_kept _ _ (queueFlash_kept _ (setDie_kept _ _ (updCore_kept _ _ _ (by assumption))))

theorem expel_kept {s0 s : State} (die) (phys) (c) (h : Kept s0 s) : Kept s0 (expel die phys c s) := by
  unfold expel
  try dsimp only
  split
  · exact quarantine_kept _ _ _ (by assumption)
  · exact raiseIf_kept _ _ (setCore_kept _ _ _ (by assumption))

theorem coreAction_kept {s0 s : State} (die) (phys) (h : Kept s0 s) : Kept s0 (coreAction die phys s) := by
  unfold coreAction
  try dsimp only
  split
  · split
    · exact raise_kept _ (setCore_kept _ _ _ (by assumption))
    · assumption
  · split
    · exact setCore_kept _ _ _ (by assumption)
    · split
      · split
        · exact setCore_kept _ _ _ (by assumption)
        · assumption
      · exact expel_kept _ _ _ (by assumption)
  · assumption

theorem remapCore_kept {s0 s : State} (die) (l) (h : Kept s0 s) : Kept s0 (remapCore die l s) := by
  unfold remapCore
  try dsimp only
  split
  · assumption
  · split
    · exact raise_kept _ (updCore_kept _ _ _ (setDie_kept _ _ (by assumption)))
    · split
      · exact raise_kept _ (updCore_kept _ _ _ (setDie_kept _ _ (by assumption)))
      · exact raise_kept _ (setDie_kept _ _ (by assumption))

theorem coresAction_kept {s0 s : State} (h : Kept s0 s) : Kept s0 (coresAction s) := by
  unfold coresAction
  try dsimp only
  refine Kept.foldl (fun _ _ _ => ?_) ?_
  · split
    · refine Kept.foldl (fun _ _ _ => ?_) ?_
      · exact remapCore_kept _ _ (by assumption)
      · refine Kept.foldl (fun _ _ _ => ?_) ?_
        · exact coreAction_kept _ _ (by assumption)
        · assumption
    · assumption
  · assumption

theorem coresOff_kept {s0 s : State} (d) (h : Kept s0 s) : Kept s0 (coresOff d s) := by
  unfold coresOff
  try dsimp only
  refine Kept.foldl (fun _ _ _ => ?_) ?_
  · exact updCore_kept _ _ _ (by assumption)
  · assumption

theorem coresOn_kept {s0 s : State} (d) (h : Kept s0 s) : Kept s0 (coresOn d s) := by
  unfold coresOn
  try dsimp only
  refine Kept.foldl (fun _ _ _ => ?_) ?_
  · exact updCore_kept _ _ _ (by assumption)
  · assumption

theorem enterDie_kept {s0 s : State} (d) (st) (h : Kept s0 s) : Kept s0 (enterDie d st s) := by
  unfold enterDie
  try dsimp only
  exact raise_kept _ (setDie_kept _ _ (by assumption))

theorem stopDie_kept {s0 s : State} (d) (st) (h : Kept s0 s) : Kept s0 (stopDie d st s) := by
  unfold stopDie
  try dsimp only
  refine coresOff_kept _ ?_
  refine enterDie_kept _ _ ?_
  split
  · assumption
  · exact carryItems_kept _ (by assumption)

theorem diesAction_kept {s0 s : State} (n) (h : Kept s0 s) : Kept s0 (diesAction n s) := by
  unfold diesAction
  try dsimp only
  refine Kept.foldl (fun _ _ _ => ?_) ?_
  · split
    · split
      · exact stopDie_kept _ _ (by assumption)
      · assumption
    · split
      · exact coresOn_kept _ (enterDie_kept _ _ (by assumption))
      · assumption
    · assumption
  · assumption

theorem moveItem_kept {s0 s : State} (i) (h : Kept s0 s) : Kept s0 (moveItem i s) := by
  unfold moveItem
  try dsimp only
  split
  · assumption
  · exact Kept.put (by assumption) rfl rfl rfl

theorem discardItems_kept {s0 s : State} (core) (h : Kept s0 s) : Kept s0 (discardItems core s) := by
  unfold discardItems
  try dsimp only
  split
  · assumption
  · split
    · exact carryItems_kept _ (by assumption)
    · refine Kept.foldl (fun _ _ _ => ?_) ?_
      · exact moveItem_kept _ (by assumption)
      · exact Kept.put (by assumption) rfl rfl rfl

theorem doDrainDie_kept {s0 s : State} (t) (d) (force) (h : Kept s0 s) : Kept s0 (doDrainDie t d force s) := by
  unfold doDrainDie
  try dsimp only
  split
  · exact refusedWith_kept _ _ (by assumption)
  · split
    · exact refusedWith_kept _ _ (by assumption)
    · refine done_kept _ ?_
      split
      · exact stopDie_kept _ _ (by assumption)
      · exact enterDie_kept _ _ (by assumption)

theorem doReadmitDie_kept {s0 s : State} (t) (d) (h : Kept s0 s) : Kept s0 (doReadmitDie t d s) := by
  unfold doReadmitDie
  try dsimp only
  split
  · exact refusedWith_kept _ _ (by assumption)
  · split
    · exact done_kept _ (enterDie_kept _ _ (by assumption))
    · split
      · exact done_kept _ (enterDie_kept _ _ (by assumption))
      · exact refusedWith_kept _ _ (by assumption)
    · exact refusedWith_kept _ _ (by assumption)

theorem execCoreMemoryCe_kept {s0 s : State} {t} {die phys}
    (e : execCoreMemoryCe die phys s = .next t) (h : Kept s0 s) : Kept s0 t := by
  unfold execCoreMemoryCe at e
  try dsimp only at e
  injection e with e
  subst e
  split
  · exact addScore_kept _ _ _ (bump_kept _ _ (by assumption))
  · assumption

theorem hardFault_kept {s0 s : State} (die) (phys) (cause) (h : Kept s0 s) : Kept s0 (hardFault die phys cause s) := by
  unfold hardFault
  try dsimp only
  split
  · assumption
  · split
    · exact swapCheck_kept (discardItems_kept _ (raise_kept _ (quarantine_kept _ _ _ (updCore_kept _ _ _
        (by assumption)))))
    · exact raise_kept _ (quarantine_kept _ _ _ (updCore_kept _ _ _ (by assumption)))

theorem execCoreMemoryUe_kept {s0 s : State} {t} {die phys}
    (e : execCoreMemoryUe die phys s = .next t) (h : Kept s0 s) : Kept s0 t := by
  unfold execCoreMemoryUe at e
  try dsimp only at e
  injection e with e
  subst e
  split
  · exact hardFault_kept _ _ _ (by assumption)
  · assumption

theorem linkFaults_kept {s0 s : State} (h : Kept s0 s) : Kept s0 (linkFaults s) := by
  unfold linkFaults
  try dsimp only
  refine Kept.foldl (fun _ _ _ => ?_) ?_
  · split
    · exact dropFault_kept _ (by assumption)
    · exact addFault_kept _ (by assumption)
  · refine Kept.foldl (fun _ _ _ => ?_) ?_
    · split
      · exact dropFault_kept _ (by assumption)
      · exact addFault_kept _ (by assumption)
    · assumption

theorem withdrawPort_kept {s0 s : State} (p) (w) (h : Kept s0 s) : Kept s0 (withdrawPort p w s) := by
  unfold withdrawPort
  try dsimp only
  split
  · assumption
  · split
    · exact movePort_kept _ (raise_kept _ (setPort_kept _ _ (by assumption)))
    · exact raise_kept _ (setPort_kept _ _ (by assumption))

theorem linkConsequence_kept {s0 s : State} (l) (h : Kept s0 s) : Kept s0 (linkConsequence l s) := by
  unfold linkConsequence
  try dsimp only
  split
  · split
    · exact linkFaults_kept (by assumption)
    · split
      · exact linkFaults_kept (by assumption)
      · refine linkFaults_kept ?_
        assumption
      · exact stopDie_kept _ _ (linkFaults_kept (by assumption))
  · split
    · exact withdrawPort_kept _ _ (withdrawPort_kept _ _ (linkFaults_kept (by assumption)))
    · exact linkFaults_kept (by assumption)

theorem setLink_kept {s0 s : State} (l) (st) (h : Kept s0 s) : Kept s0 (setLink l st s) := by
  unfold setLink
  try dsimp only
  exact Kept.put (by assumption) rfl rfl rfl

theorem execD2dLinkFailure_kept {s0 s : State} {t} {link down}
    (e : execD2dLinkFailure link down s = .next t) (h : Kept s0 s) : Kept s0 t := by
  unfold execD2dLinkFailure at e
  try dsimp only at e
  injection e with e
  subst e
  split
  · exact linkConsequence_kept _ (raise_kept _ (setLink_kept _ _ (by assumption)))
  · assumption

theorem execHourTick_kept {s0 s : State} {t} {failed} (e : execHourTick failed s = .next t) (h : Kept s0 s) : Kept s0 t := by
  unfold execHourTick at e
  try dsimp only at e
  split at e
  · injection e with e
    subst e
    refine Kept.foldl (fun _ _ _ => ?_) ?_
    · exact hardFault_kept _ _ _ (by assumption)
    · exact Kept.put (setNow_kept _ (by assumption)) rfl rfl rfl
  · injection e with e
    subst e
    assumption

theorem execItemOverrun_kept {s0 s : State} {t} {die phys}
    (e : execItemOverrun die phys s = .next t) (h : Kept s0 s) : Kept s0 t := by
  unfold execItemOverrun at e
  try dsimp only at e
  injection e with e
  subst e
  split
  · exact hardFault_kept _ _ _ (by assumption)
  · assumption

theorem execLaneRepair_kept {s0 s : State} {t} {link} (e : execLaneRepair link s = .next t) (h : Kept s0 s) : Kept s0 t := by
  unfold execLaneRepair at e
  try dsimp only at e
  injection e with e
  subst e
  split
  · exact linkConsequence_kept _ (setLink_kept _ _ (by assumption))
  · assumption

theorem settleMismatch_kept {s0 s : State} (m) (ref) (h : Kept s0 s) : Kept s0 (settleMismatch m ref s) := by
  unfold settleMismatch
  try dsimp only
  refine Kept.put ?_ rfl rfl rfl
  refine writeMem_kept _ _ ?_
  split
  · split
    · exact chargeFault_kept _ _ (by assumption)
    · split
      · exact chargeFault_kept _ _ (by assumption)
      · split
        · exact raise_kept _ (chargeUnresolved_kept _ _ (chargeUnresolved_kept _ _ (by assumption)))
        · exact chargeUnresolved_kept _ _ (chargeUnresolved_kept _ _ (by assumption))
  · split
    · split
      · exact chargeFault_kept _ _ (by assumption)
      · split
        · exact chargeFault_kept _ _ (by assumption)
        · split
          · exact raise_kept _ (chargeUnresolved_kept _ _ (chargeUnresolved_kept _ _ (by assumption)))
          · exact chargeUnresolved_kept _ _ (chargeUnresolved_kept _ _ (by assumption))
    · split
      · split
        · exact chargeFault_kept _ _ (by assumption)
        · split
          · exact chargeFault_kept _ _ (by assumption)
          · split
            · exact raise_kept _ (chargeUnresolved_kept _ _ (chargeUnresolved_kept _ _ (by assumption)))
            · exact chargeUnresolved_kept _ _ (chargeUnresolved_kept _ _ (by assumption))
      · split
        · exact chargeFault_kept _ _ (by assumption)
        · split
          · exact chargeFault_kept _ _ (by assumption)
          · split
            · exact raise_kept _ (chargeUnresolved_kept _ _ (chargeUnresolved_kept _ _ (by assumption)))
            · exact chargeUnresolved_kept _ _ (chargeUnresolved_kept _ _ (by assumption))

theorem execRefereeComplete_kept {s0 s : State} {t} {mismatch result}
    (e : execRefereeComplete mismatch result s = .next t) (h : Kept s0 s) : Kept s0 t := by
  unfold execRefereeComplete at e
  try dsimp only at e
  split at e
  · injection e with e
    subst e
    assumption
  · injection e with e
    subst e
    split
    · refine settleMismatch_kept _ _ ?_
      split
      · exact chargeShadow_kept (by assumption)
      · assumption
    · assumption

theorem execSelfCheckComplete_kept {s0 s : State} {t} {die failed}
    (e : execSelfCheckComplete die failed s = .next t) (h : Kept s0 s) : Kept s0 t := by
  unfold execSelfCheckComplete at e
  try dsimp only at e
  split at e
  · injection e with e
    subst e
    refine setDie_kept _ _ ?_
    refine Kept.foldl (fun _ _ _ => ?_) ?_
    · split
      · assumption
      · exact raise_kept _ (quarantine_kept _ _ _ (updCore_kept _ _ _ (by assumption)))
    · assumption
  · injection e with e
    subst e
    assumption

theorem mismatch_kept {s0 s : State} (i) (shadowOn) (prim) (shadow) (sensors)
    (h : Kept s0 s) : Kept s0 (mismatch i shadowOn prim shadow sensors s) := by
  unfold mismatch
  try dsimp only
  split
  · exact settleMismatch_kept _ _ (Kept.put (raise_kept _ (bump_kept _ _ (by assumption))) rfl rfl rfl)
  · exact Kept.put (raise_kept _ (bump_kept _ _ (by assumption))) rfl rfl rfl

theorem execShadowComplete_kept {s0 s : State} {t} {item prim shadow sensors}
    (e : execShadowComplete item prim shadow sensors s = .next t) (h : Kept s0 s) : Kept s0 t := by
  unfold execShadowComplete at e
  try dsimp only at e
  split at e
  · injection e with e
    subst e
    assumption
  · split at e
    · injection e with e
      subst e
      assumption
    · injection e with e
      subst e
      split
      · split
        · exact decRef_kept _ (Kept.put (wEvent_kept _ _ _ _ (chargeShadow_kept (by assumption))) rfl rfl rfl)
        · exact Kept.put (wEvent_kept _ _ _ _ (chargeShadow_kept (by assumption))) rfl rfl rfl
      · refine mismatch_kept _ _ _ _ _ ?_
        split
        · exact decRef_kept _ (Kept.put (wEvent_kept _ _ _ _ (chargeShadow_kept (by assumption))) rfl rfl rfl)
        · exact Kept.put (wEvent_kept _ _ _ _ (chargeShadow_kept (by assumption))) rfl rfl rfl

theorem logEvent_kept {s0 s : State} (code) (digest) (h : Kept s0 s) : Kept s0 (logEvent code digest s) := by
  refine h.trans ⟨rfl, rfl, rfl, rfl, le_refl _, le_refl _, id, id, fun hl => ?_, id, id⟩
  show List.length (if s.sec.log.length < 256 then s.sec.log ++ [_] else s.sec.log) ≤ 256
  split
  · simp only [List.length_append, List.length_cons, List.length_nil]; omega
  · exact hl

theorem doCommitSvn_kept {s0 s : State} (t) (h : Kept s0 s) : Kept s0 (doCommitSvn t s) := by
  unfold doCommitSvn
  split
  · refine done_kept _ (logEvent_kept _ _ ?_)
    exact h.trans ⟨rfl, rfl, rfl, rfl, Nat.le_max_left _ _, le_refl _, id, id, id, id, id⟩
  · exact refusedWith_kept _ _ h

theorem doStageImage_kept {s0 s : State} (t) (h_) (bytes) (h : Kept s0 s) : Kept s0 (doStageImage t h_ bytes s) := by
  unfold doStageImage
  try dsimp only
  split
  · exact refusedWith_kept _ _ (by assumption)
  · exact Kept.put (by assumption) rfl rfl rfl

theorem doSwitchImage_kept {s0 s : State} (t) (h : Kept s0 s) : Kept s0 (doSwitchImage t s) := by
  unfold doSwitchImage
  try dsimp only
  split
  · exact Kept.put (by assumption) rfl rfl rfl
  · exact refusedWith_kept _ _ (by assumption)

theorem updateDone_kept {s0 s : State} (f)
    (Hf : ∀ a0 a1, Kept s0 a1 → Kept s0 (f a0 a1)) (h : Kept s0 s) : Kept s0 (updateDone f s) := by
  unfold updateDone
  try dsimp only
  split
  · assumption
  · apply Hf
    exact Kept.put (by assumption) rfl rfl rfl

theorem execFirmwareSwitchComplete_kept {s0 s : State} {t}
    (e : execFirmwareSwitchComplete s = .next t) (h : Kept s0 s) : Kept s0 t := by
  unfold execFirmwareSwitchComplete at e
  try dsimp only at e
  split at e
  · injection e with e
    subst e
    refine queueFlash_kept _ ?_
    refine updateDone_kept _ ?_ ?_
    · intro _ _ _
      exact done_kept _ (by assumption)
    · exact raise_kept _ (logEvent_kept _ _ (Kept.put (by assumption) rfl rfl rfl))
  · injection e with e
    subst e
    assumption

theorem execFlashWriteComplete_kept {s0 s : State} {t} {ok}
    (e : execFlashWriteComplete ok s = .next t) (h : Kept s0 s) : Kept s0 t := by
  unfold execFlashWriteComplete at e
  try dsimp only at e
  split at e
  · split at e
    · injection e with e
      subst e
      assumption
    · split at e
      · injection e with e
        subst e
        split
        · exact raise_kept _ (popFlash_kept (writeFlash_kept _ _ (by assumption)))
        · exact Kept.put (popFlash_kept (writeFlash_kept _ _ (by assumption))) rfl rfl rfl
      · injection e with e
        subst e
        exact Kept.put (popFlash_kept (breakFlash_kept _ (by assumption))) rfl rfl rfl
  · injection e with e
    subst e
    assumption

theorem refuseImage_kept {s0 s : State} (cause) (h : Kept s0 s) : Kept s0 (refuseImage cause s) := by
  unfold refuseImage
  try dsimp only
  exact raise_kept _ (Kept.put (by assumption) rfl rfl rfl)

theorem execImageVerifyComplete_kept {s0 s : State} {t} {sigOk}
    (e : execImageVerifyComplete sigOk s = .next t) (h : Kept s0 s) : Kept s0 t := by
  unfold execImageVerifyComplete at e
  try dsimp only at e
  split at e
  · split at e
    · injection e with e
      subst e
      refine updateDone_kept _ ?_ ?_
      · intro _ _ _
        exact done_kept _ (by assumption)
      · exact Kept.put (by assumption) rfl rfl rfl
    · injection e with e
      subst e
      refine updateDone_kept _ ?_ ?_
      · intro _ _ _
        exact refusedWith_kept _ _ (by assumption)
      · exact refuseImage_kept _ (Kept.put (freeBelow_kept _ (by assumption)) rfl rfl rfl)
  · injection e with e
    subst e
    assumption

theorem execStagedImageTimeout_kept {s0 s : State} {t}
    (e : execStagedImageTimeout s = .next t) (h : Kept s0 s) : Kept s0 t := by
  unfold execStagedImageTimeout at e
  try dsimp only at e
  split at e
  · injection e with e
    subst e
    exact setNow_kept _ (Kept.put (by assumption) rfl rfl rfl)
  · injection e with e
    subst e
    assumption

theorem putCkpt_kept {s0 s : State} (n) (r) (h : Kept s0 s) : Kept s0 (putCkpt n r s) := by
  unfold putCkpt
  try dsimp only
  exact Kept.put (ringWrite_kept _ _ _ _ (by assumption)) rfl rfl rfl

theorem checkpointDike_kept {s0 s : State} (n) (d) (h : Kept s0 s) : Kept s0 (checkpointDike n d s) := by
  unfold checkpointDike
  try dsimp only
  split
  · exact raise_kept _ (bump_kept _ _ (Kept.put (by assumption) rfl rfl rfl))
  · refine Kept.foldl (fun _ _ _ => ?_) ?_
    · exact Kept.put (putCkpt_kept _ _ (by assumption)) rfl rfl rfl
    · exact Kept.put (by assumption) rfl rfl rfl

theorem flushOwed_kept {s0 x2 : State} (n) (x1) (h : Kept s0 x2) : Kept s0 (flushOwed n x1 x2) := by
  induction x1 generalizing x2 with
  | nil =>
    unfold flushOwed
    try dsimp only
    assumption
  | cons a l ih =>
    unfold flushOwed
    try dsimp only
    split
    · apply ih
      exact putCkpt_kept _ _ (Kept.put (by assumption) rfl rfl rfl)
    · assumption

theorem checkpoints_kept {s0 s : State} (n) (h : Kept s0 s) : Kept s0 (checkpoints n s) := by
  unfold checkpoints
  try dsimp only
  refine Kept.foldl (fun _ _ _ => ?_) ?_
  · split
    · exact checkpointDike_kept _ _ (checkpointObjects_kept _ (Kept.put (by assumption) rfl rfl rfl))
    · split
      · exact checkpointDike_kept _ _ (by assumption)
      · assumption
  · exact flushOwed_kept _ _ (by assumption)

theorem oweCkpt_kept {s0 s : State} (r) (h : Kept s0 s) : Kept s0 (oweCkpt r s) := by
  unfold oweCkpt
  try dsimp only
  exact Kept.put (by assumption) rfl rfl rfl

theorem setWire_kept {s0 s : State} (d) (w) (h : Kept s0 s) : Kept s0 (setWire d w s) := by
  unfold setWire
  try dsimp only
  exact Kept.put (by assumption) rfl rfl rfl

theorem installWire_kept {s0 s : State} (d) (v) (key) (h : Kept s0 s) : Kept s0 (installWire d v key s) := by
  unfold installWire
  try dsimp only
  exact Kept.put (setWire_kept _ _ (by assumption)) rfl rfl rfl

theorem applyBlob_kept {s0 s : State} (b) (key) (port) (h : Kept s0 s) : Kept s0 (applyBlob b key port s) := by
  unfold applyBlob
  try dsimp only
  split
  · exact Kept.put (by assumption) rfl rfl rfl
  · exact installWire_kept _ _ _ (by assumption)
  · exact Kept.put (by assumption) rfl rfl rfl
  · exact installWire_kept _ _ _ (by assumption)
  · exact setWire_kept _ _ (by assumption)
  · refine setWire_kept _ _ ?_
    assumption
  · exact Kept.put (by assumption) rfl rfl rfl

theorem journalPend_kept {s0 s : State} (p) (op) (body) (cause)
    (h : Kept s0 s) : Kept s0 (journalPend p op body cause s) := by
  unfold journalPend
  try dsimp only
  exact journal_kept _ _ _ _ _ _ (by assumption)

theorem markLease_kept {s0 s : State} (d) (h : Kept s0 s) : Kept s0 (markLease d s) := by
  unfold markLease
  try dsimp only
  exact setAcct_kept _ _ (by assumption)

theorem endLease_kept {s0 s : State} (d) (h : Kept s0 s) : Kept s0 (endLease d s) := by
  unfold endLease
  try dsimp only
  exact markLease_kept _ (revokeDike_kept _ (flushDike_kept _ (setIntake_kept _ _ (Kept.put
    (by assumption) rfl rfl rfl))))

theorem putLease_kept {s0 s : State} (d) (o) (h : Kept s0 s) : Kept s0 (putLease d o s) := by
  unfold putLease
  try dsimp only
  refine markLease_kept _ ?_
  split
  · exact requantum_kept _ _ (Kept.put (by assumption) rfl rfl rfl)
  · exact setIntake_kept _ _ (grantQueues_kept _ _ (Kept.put (by assumption) rfl rfl rfl))

theorem doLease_kept {s0 s : State} (t) (d) (o) (h : Kept s0 s) : Kept s0 (doLease t d o s) := by
  unfold doLease
  try dsimp only
  split
  · exact refusedWith_kept _ _ (by assumption)
  · refine done_kept _ ?_
    split
    · exact endLease_kept _ (by assumption)
    · exact putLease_kept _ _ (by assumption)

theorem takeBlob_kept {s0 s : State} (b) (opened) (doe) (port) (cause)
    (h : Kept s0 s) : Kept s0 (takeBlob b opened doe port cause s) := by
  unfold takeBlob
  try dsimp only
  split
  · refine applyBlob_kept _ _ _ ?_
    refine Kept.put ?_ rfl rfl rfl
    split
    · assumption
    · exact Kept.put (by assumption) rfl rfl rfl
  · refine raise_kept _ ?_
    refine bump_kept _ _ ?_
    refine Kept.put ?_ rfl rfl rfl
    split
    · assumption
    · exact Kept.put (by assumption) rfl rfl rfl

theorem doInstallKey_kept {s0 s : State} (t) (b) (opened) (h : Kept s0 s) : Kept s0 (doInstallKey t b opened s) := by
  unfold doInstallKey
  try dsimp only
  split
  · exact done_kept _ (takeBlob_kept _ _ _ _ _ (by assumption))
  · exact refusedWith_kept _ _ (takeBlob_kept _ _ _ _ _ (by assumption))

theorem tableResult_kept {s0 s : State} (cmd) (cause) (entry) (h : Kept s0 s) : Kept s0 (tableResult cmd cause entry s) := by
  unfold tableResult
  try dsimp only
  exact Kept.put (by assumption) rfl rfl rfl

theorem doInstallTable_kept {s0 s : State} (t) (entry) (currentStep) (bs)
    (h : Kept s0 s) : Kept s0 (doInstallTable t entry currentStep bs s) := by
  unfold doInstallTable
  try dsimp only
  split
  · exact refusedWith_kept _ _ (raise_kept _ (tableResult_kept _ _ _ (by assumption)))
  · exact done_kept _ (tableResult_kept _ _ _ (Kept.put (by assumption) rfl rfl rfl))

theorem placeHomes_kept {s0 s : State} (i) (h : Kept s0 s) : Kept s0 (placeHomes i s) := by
  unfold placeHomes
  try dsimp only
  split
  · assumption
  · refine updDesc_kept _ _ ?_
    split
    · exact takeMap_kept _ _ _ (takeExtents_kept _ _ _ (takeMap_kept _ _ _ (takeExtents_kept _ _ _ (by assumption))))
    · dsimp only
      exact takeMap_kept _ _ _ (takeExtents_kept _ _ _ (by assumption))

theorem doAllocObject_kept {s0 s : State} (t) (d) (extents) (alloc) (pin) (durable)
    (h : Kept s0 s) : Kept s0 (doAllocObject t d extents alloc pin durable s) := by
  unfold doAllocObject
  try dsimp only
  split
  · exact malformed_kept _ (by assumption)
  · split
    · exact reasonWith_kept _ _ (by assumption)
    · split
      · refine reasonWith_kept _ _ ?_
        assumption
      · split
        · exact reasonWith_kept _ _ (by assumption)
        · split
          · exact reasonWith_kept _ _ (by assumption)
          · split
            · exact reasonWith_kept _ _ (by assumption)
            · refine doneWith_kept _ _ _ ?_
              refine placeHomes_kept _ ?_
              refine makeRoom_kept ?_ (by assumption) ?_
              · intro _ _ _ _
                exact freeFragments_kept _ _ (by assumption)
              · exact newDesc_kept _ (by assumption)

theorem doFreeObject_kept {s0 s : State} (t) (d) (index) (gen) (h : Kept s0 s) : Kept s0 (doFreeObject t d index gen s) := by
  unfold doFreeObject
  try dsimp only
  split
  · exact refusedWith_kept _ _ (by assumption)
  · refine done_kept _ ?_
    refine decRef_kept _ ?_
    refine updDesc_kept _ _ ?_
    refine Kept.foldl (fun _ _ _ => ?_) ?_
    · exact forceRevoke_kept _ (by assumption)
    · assumption

theorem applyCommand_kept {s0 s : State} (p) (t) (op) (body) (h : Kept s0 s) : Kept s0 (applyCommand p t op body s) := by
  unfold applyCommand
  try dsimp only
  split
  · exact doLease_kept _ _ _ (journalPend_kept _ _ _ _ (by assumption))
  · exact doInstallKey_kept _ _ _ (journalPend_kept _ _ _ _ (by assumption))
  · exact doInstallTable_kept _ _ _ _ (journalPend_kept _ _ _ _ (by assumption))
  · exact doDrainDie_kept _ _ _ (journalPend_kept _ _ _ _ (by assumption))
  · exact doReadmitDie_kept _ _ (journalPend_kept _ _ _ _ (by assumption))
  · exact doRegisterAdapter_kept _ _ (journalPend_kept _ _ _ _ (by assumption))
  · exact doWithdrawAdapter_kept _ _ _ (journalPend_kept _ _ _ _ (by assumption))
  · exact doRegisterContext_kept _ _ (journalPend_kept _ _ _ _ (by assumption))
  · exact doRetireContext_kept _ _ (journalPend_kept _ _ _ _ (by assumption))
  · exact doAllocObject_kept _ _ _ _ _ _ (journalPend_kept _ _ _ _ (by assumption))
  · exact doFreeObject_kept _ _ _ _ (journalPend_kept _ _ _ _ (by assumption))
  · exact journalPend_kept _ _ _ _ (by assumption)

theorem doCompose_kept {s0 s : State} (t) (bs) (h : Kept s0 s) : Kept s0 (doCompose t bs s) := by
  unfold doCompose
  try dsimp only
  split
  · exact refusedWith_kept _ _ (Kept.put (by assumption) rfl rfl rfl)
  · exact done_kept _ (Kept.put (by assumption) rfl rfl rfl)

theorem dropForeign_kept {s0 s : State} (h : Kept s0 s) : Kept s0 (dropForeign s) := by
  unfold dropForeign
  try dsimp only
  refine Kept.foldl (fun _ _ _ => ?_) ?_
  · split
    · assumption
    · exact dropPrefixesOf_kept _ _ (by assumption)
  · assumption

theorem eraseKeys_kept {s0 s : State} (h : Kept s0 s) : Kept s0 (eraseKeys s) := by
  unfold eraseKeys
  try dsimp only
  refine Kept.foldl (fun _ _ _ => ?_) ?_
  · exact raise_kept _ (Kept.put (by assumption) rfl rfl rfl)
  · assumption

theorem freeTables_kept {s0 s : State} (h : Kept s0 s) : Kept s0 (freeTables s) := by
  unfold freeTables
  try dsimp only
  exact Kept.put (by assumption) rfl rfl rfl

theorem refreshLeases_kept {s0 s : State} (h : Kept s0 s) : Kept s0 (refreshLeases s) := by
  unfold refreshLeases
  try dsimp only
  exact Kept.put (by assumption) rfl rfl rfl

end Sys2Proof.Machine
end

