-- ==== Sys2Proof/Laws/KeptBoundary.lean ====
section
/-! SUPPORT. Each operation keeps what Safety.Kept says: the actions of a step boundary.
`f_kept`: if `s0` is kept up to `s`, it is kept up to what `f` makes of `s`. -/

namespace Sys2Proof.Machine

open Sys2Proof.Safety

theorem dropPends_kept {s0 s : State} (n) (action) (h : Kept s0 s) : Kept s0 (dropPends n action s) := by
  unfold dropPends
  try dsimp only
  exact Kept.put (by assumption) rfl rfl rfl

theorem clearWork_kept {s0 s : State} (handle) (h : Kept s0 s) : Kept s0 (clearWork handle s) := by
  unfold clearWork
  try dsimp only
  exact Kept.put (by assumption) rfl rfl rfl

theorem freeEntry_kept {s0 s : State} (slot) (h : Kept s0 s) : Kept s0 (freeEntry slot s) := by
  unfold freeEntry
  try dsimp only
  split
  · assumption
  · refine Kept.put ?_ rfl rfl rfl
    refine clearWork_kept _ ?_
    refine releasePages_kept _ ?_
    split
    · exact oweCkpt_kept _ (by assumption)
    · assumption

theorem releaseRing_kept {s0 s : State} (slot) (h : Kept s0 s) : Kept s0 (releaseRing slot s) := by
  unfold releaseRing
  try dsimp only
  split
  · assumption
  · split
    · assumption
    · refine Kept.foldl (fun _ _ _ => ?_) ?_
      · exact sendSlu_kept _ _ _ (by assumption)
      · assumption

theorem leaveKeeper_kept {s0 s : State} (slot) (h : Kept s0 s) : Kept s0 (leaveKeeper slot s) := by
  unfold leaveKeeper
  try dsimp only
  exact freeEntry_kept _ (releaseRing_kept _ (by assumption))

theorem recallOther_kept {s0 s : State} (slot) (n) (epoch) (r) (h : Kept s0 s) : Kept s0 (recallOther slot n epoch r s) := by
  unfold recallOther
  try dsimp only
  split
  · exact sendRecall_kept _ _ _ _ _ (by assumption)
  · split
    · exact sendRecall_kept _ _ _ _ _ (by assumption)
    · assumption

theorem applyEnd_kept {s0 s : State} (n) (p) (bytes) (h : Kept s0 s) : Kept s0 (applyEnd n p bytes s) := by
  unfold applyEnd
  try dsimp only
  split
  · assumption
  · split
    · exact freeEntry_kept _ (by assumption)
    · split
      · assumption
      · split
        · exact raise_kept _ (by assumption)
        · split
          · exact raise_kept _ (by assumption)
          · split
            · exact leaveKeeper_kept _ (recallOther_kept _ _ _ _ (by assumption))
            · assumption

theorem withdrawGrant_kept {s0 s : State} (slot) (h : Kept s0 s) : Kept s0 (withdrawGrant slot s) := by
  unfold withdrawGrant
  try dsimp only
  split
  · assumption
  · split
    · exact setRec_kept _ _ (by assumption)
    · assumption

theorem endSequence_kept {s0 s : State} (slot) (kind) (cause) (why) (n)
    (h : Kept s0 s) : Kept s0 (endSequence slot kind cause why n s) := by
  unfold endSequence
  try dsimp only
  split
  · assumption
  · exact leaveKeeper_kept _ (addNotice_kept _ _ _ _ (recallAll_kept _ _ _ (by assumption)))

theorem applyCancel_kept {s0 s : State} (n) (tenant) (requestId)
    (h : Kept s0 s) : Kept s0 (applyCancel n tenant requestId s) := by
  unfold applyCancel
  try dsimp only
  split
  · exact raise_kept _ (by assumption)
  · split
    · exact raise_kept _ (by assumption)
    · split
      · exact updSeq_kept _ _ (recallAll_kept _ _ _ (withdrawGrant_kept _ (addNotice_kept _ _ _ _ (by assumption))))
      · exact endSequence_kept _ _ _ _ _ (by assumption)

theorem applyPause_kept {s0 s : State} (n) (tenant) (requestId)
    (h : Kept s0 s) : Kept s0 (applyPause n tenant requestId s) := by
  unfold applyPause
  try dsimp only
  split
  · exact raise_kept _ (by assumption)
  · split
    · exact raise_kept _ (by assumption)
    · refine endSequence_kept _ _ _ _ _ ?_
      assumption

theorem applyHandoff_kept {s0 s : State} (n) (ps) (bytes) (h : Kept s0 s) : Kept s0 (applyHandoff n ps bytes s) := by
  unfold applyHandoff
  try dsimp only
  split
  · assumption
  · split
    · assumption
    · split
      · exact raise_kept _ (by assumption)
      · split
        · split
          · assumption
          · split
            · assumption
            · exact setRec_kept _ _ (by assumption)
        · assumption

theorem applyLeaves_kept {s0 s : State} (n) (h : Kept s0 s) : Kept s0 (applyLeaves n s) := by
  unfold applyLeaves
  try dsimp only
  refine Kept.foldl (fun _ _ _ => ?_) ?_
  · split
    · exact applyHandoff_kept _ _ _ (by assumption)
    · assumption
  · refine Kept.foldl (fun _ _ _ => ?_) ?_
    · split
      · exact applyCancel_kept _ _ _ (journalWait_kept _ (by assumption))
      · exact applyPause_kept _ _ _ (journalWait_kept _ (by assumption))
      · exact applyCommand_kept _ _ _ _ (by assumption)
      · assumption
    · refine Kept.foldl (fun _ _ _ => ?_) ?_
      · split
        · exact applyEnd_kept _ _ _ (journalWait_kept _ (by assumption))
        · assumption
      · exact dropPends_kept _ _ (by assumption)

theorem departOwner_kept {s0 s : State} (slot) (h : Kept s0 s) : Kept s0 (departOwner slot s) := by
  unfold departOwner
  try dsimp only
  split
  · exact freeEntry_kept _ (Kept.put (by assumption) rfl rfl rfl)
  · assumption

theorem departures_kept {s0 s : State} (n) (h : Kept s0 s) : Kept s0 (departures n s) := by
  unfold departures
  try dsimp only
  refine Kept.foldl (fun _ _ _ => ?_) ?_
  · exact departOwner_kept _ (by assumption)
  · assumption

theorem eachRec_kept {s0 s : State} (f)
    (Hf : ∀ a0 a1 a2, Kept s0 a2 → Kept s0 (f a0 a1 a2)) (h : Kept s0 s) : Kept s0 (eachRec f s) := by
  unfold eachRec
  try dsimp only
  refine Kept.foldl (fun _ _ _ => ?_) ?_
  · split
    · apply Hf
      assumption
    · assumption
  · assumption

theorem countQuiet_kept {s0 s : State} (h : Kept s0 s) : Kept s0 (countQuiet s) := by
  unfold countQuiet
  try dsimp only
  refine eachRec_kept _ ?_ ?_
  · intro _ _ _ _
    split
    · split
      · exact setRec_kept _ _ (by assumption)
      · split
        · exact setRec_kept _ _ (by assumption)
        · exact bump_kept _ _ (raise_kept _ (setRec_kept _ _ (by assumption)))
    · exact setRec_kept _ _ (by assumption)
  · assumption

theorem cancelOrphaned_kept {s0 s : State} (slot) (n) (h : Kept s0 s) : Kept s0 (cancelOrphaned slot n s) := by
  unfold cancelOrphaned
  try dsimp only
  exact endSequence_kept _ _ _ _ _ (by assumption)

theorem orphanPolicies_kept {s0 s : State} (n) (h : Kept s0 s) : Kept s0 (orphanPolicies n s) := by
  unfold orphanPolicies
  try dsimp only
  refine eachRec_kept _ ?_ ?_
  · intro _ _ _ _
    split
    · assumption
    · split
      · split
        · exact cancelOrphaned_kept _ _ (setRec_kept _ _ (by assumption))
        · exact resumeWait_kept _ _ (setRec_kept _ _ (by assumption))
      · assumption
  · assumption

theorem repairHistories_kept {s0 s : State} (n) (h : Kept s0 s) : Kept s0 (repairHistories n s) := by
  unfold repairHistories
  try dsimp only
  refine Kept.foldl (fun _ _ _ => ?_) ?_
  · exact cancelOrphaned_kept _ _ (by assumption)
  · exact Kept.put (by assumption) rfl rfl rfl

theorem damagedMasters_kept {s0 s : State} (n) (h : Kept s0 s) : Kept s0 (damagedMasters n s) := by
  unfold damagedMasters
  try dsimp only
  refine Kept.foldl (fun _ _ _ => ?_) ?_
  · refine Kept.foldl (fun _ _ _ => ?_) ?_
    · exact cancelOrphaned_kept _ _ (by assumption)
    · exact retireContext_kept _ (by assumption)
  · assumption

theorem tailChecks_kept {s0 s : State} (n) (h : Kept s0 s) : Kept s0 (tailChecks n s) := by
  unfold tailChecks
  try dsimp only
  refine eachRec_kept _ ?_ ?_
  · intro _ _ _ _
    split
    · split
      · assumption
      · split
        · exact setRec_kept _ _ (by assumption)
        · exact enterOrphan_kept _ (raise_kept _ (by assumption))
    · assumption
  · assumption

theorem effectRecs_kept {s0 s : State} (n) (h : Kept s0 s) : Kept s0 (effectRecs n s) := by
  unfold effectRecs
  try dsimp only
  refine eachRec_kept _ ?_ ?_
  · intro _ _ _ _
    split
    · split
      · exact enterOrphan_kept _ (by assumption)
      · exact setRec_kept _ _ (by assumption)
    · assumption
  · assumption

theorem actionLeave_kept {s0 s : State} (n) (h : Kept s0 s) : Kept s0 (actionLeave n s) := by
  unfold actionLeave
  try dsimp only
  refine reclaim_kept _ ?_ ?_
  · intro _ _ _ _
    exact freeFragments_kept _ _ (by assumption)
  · split
    · refine dispositionAt_kept _ _ _ _ _ ?_
      refine Kept.foldl (fun _ _ _ => ?_) ?_
      · exact returnSpare_kept _ (by assumption)
      · exact returnPinned_kept (tailChecks_kept _ (effectRecs_kept _ (repairHistories_kept _ (damagedMasters_kept _
          (orphanPolicies_kept _ (countQuiet_kept (departures_kept _ (applyLeaves_kept _ (by assumption)))))))))
    · refine Kept.foldl (fun _ _ _ => ?_) ?_
      · exact returnSpare_kept _ (by assumption)
      · exact returnPinned_kept (tailChecks_kept _ (effectRecs_kept _ (repairHistories_kept _ (damagedMasters_kept _
          (orphanPolicies_kept _ (countQuiet_kept (departures_kept _ (applyLeaves_kept _ (by assumption)))))))))

theorem closeAsk_kept {s0 s : State} (a) (h : Kept s0 s) : Kept s0 (closeAsk a s) := by
  unfold closeAsk
  try dsimp only
  exact Kept.put (by assumption) rfl rfl rfl

theorem dropSegments_kept {s0 s : State} (a) (h : Kept s0 s) : Kept s0 (dropSegments a s) := by
  unfold dropSegments
  try dsimp only
  refine Kept.foldl (fun _ _ _ => ?_) ?_
  · exact sendSlu_kept _ _ _ (by assumption)
  · assumption

theorem touchRun_kept {s0 x3 : State} (n) (x1) (x2) (h : Kept s0 x3) : Kept s0 (touchRun n x1 x2 x3) := by
  induction x1 generalizing x2 x3 with
  | zero =>
    unfold touchRun
    try dsimp only
    assumption
  | succ n ih =>
    unfold touchRun
    try dsimp only
    split
    · assumption
    · apply ih
      exact Kept.put (by assumption) rfl rfl rfl

theorem acceptQuery_kept {s0 : State} (n) (q) (ring) {r : State × Nat × Offer × List Chunk} (h : Kept s0 r.1) :
    Kept s0 (acceptQuery n q ring r) := by
  unfold acceptQuery
  dsimp only
  split
  · split
    · refine sendState_kept _ _ _ _ (sendVerdict_kept _ _ _ _ (setRec_kept _ _ (setHist_kept _ _ (updSeq_kept _ _ (Kept.put ?_ rfl rfl rfl)))))
      exact touchRun_kept _ _ _ h
    · refine sendVerdict_kept _ _ _ _ (setRec_kept _ _ (setHist_kept _ _ (updSeq_kept _ _ (Kept.put ?_ rfl rfl rfl))))
      exact touchRun_kept _ _ _ h
  · refine sendVerdict_kept _ _ _ _ (setRec_kept _ _ (setHist_kept _ _ (updSeq_kept _ _ (Kept.put ?_ rfl rfl rfl))))
    exact touchRun_kept _ _ _ h

theorem decideRing_kept {s0 s : State} (n) (a) (h : Kept s0 s) : Kept s0 (decideRing n a s) := by
  unfold decideRing
  dsimp only
  have hc : Kept s0 (closeAsk a s) := closeAsk_kept _ h
  split
  · exact sendVerdict_kept _ _ _ _ (dropSegments_kept _ hc)
  · split
    · exact sendVerdict_kept _ _ _ _ (dropSegments_kept _ hc)
    · exact acceptQuery_kept _ _ _ (testQuery_kept (by assumption) hc)

/-- `tested` is what the test of the query made of `s`. -/
theorem askMembers_kept {s0 s : State} (q) (members) {tested} (handle) (hf : s.freeCtr ≤ tested.freeCtr) (h : Kept s0 s) :
    Kept s0 (askMembers q members tested handle s) := by
  unfold askMembers
  refine Kept.foldl (fun _ _ h => sendMsg_kept _ _ _ _ _ (takeSseq_kept h)) ?_
  exact h.trans ⟨rfl, rfl, rfl, rfl, le_refl _, hf, id, id, id, id, id⟩

theorem admitOne_kept {s0 s : State} (n) (q) (h : Kept s0 s) : Kept s0 (admitOne n q s) := by
  unfold admitOne
  split
  · exact sendVerdict_kept _ _ _ _ h
  · dsimp only
    split
    · exact acceptQuery_kept _ _ _ (testQuery_kept (by assumption) h)
    · exact askMembers_kept _ _ _ (testQuery_kept (by assumption) (Kept.refl s)).free h

theorem admitCase_kept {s0 s : State} (n) (c) (h : Kept s0 s) : Kept s0 (admitCase n c s) := by
  unfold admitCase
  try dsimp only
  split
  · exact decideRing_kept _ _ (by assumption)
  · exact admitOne_kept _ _ (by assumption)

theorem journalCase_kept {s0 s : State} (c) (h : Kept s0 s) : Kept s0 (journalCase c s) := by
  unfold journalCase
  try dsimp only
  split
  · assumption
  · exact journalMsg_kept _ _ _ _ _ (by assumption)

theorem carryCases_kept {s0 s : State} (n) (cs) (h : Kept s0 s) : Kept s0 (carryCases n cs s) := by
  unfold carryCases
  try dsimp only
  split
  · assumption
  · refine Kept.foldl (fun _ _ _ => ?_) ?_
    · refine sendVerdict_kept _ _ _ _ ?_
      split
      · exact dropSegments_kept _ (closeAsk_kept _ (by assumption))
      · assumption
    · exact raise_kept _ (dispositionAt_kept _ _ _ _ _ (by assumption))

theorem askCandidate_kept {s0 s : State} (f) (h : Kept s0 s) : Kept s0 (askCandidate f s).1 := by
  unfold askCandidate
  try dsimp only
  split
  · dsimp only
    exact sendMsg_kept _ _ _ _ _ (takeSseq_kept (by assumption))
  · dsimp only
    assumption

theorem askAll_kept {s0 s : State} (h : Kept s0 s) : Kept s0 (askAll s) := by
  unfold askAll
  try dsimp only
  refine Kept.put ?_ rfl rfl rfl
  refine Kept.foldl_fst (fun _ _ _ => ?_) ?_
  · dsimp only
    exact askCandidate_kept _ (by assumption)
  · dsimp only
    assumption

theorem verdictToGateway_kept {s0 s : State} (r) (bytes) (h : Kept s0 s) : Kept s0 (verdictToGateway r bytes s) := by
  unfold verdictToGateway
  try dsimp only
  exact sendMsg_kept _ _ _ _ _ (by assumption)

theorem ingressAnswer_kept {s0 s : State} (r) (a) (h : Kept s0 s) : Kept s0 (ingressAnswer r a s) := by
  unfold ingressAnswer
  try dsimp only
  exact verdictToGateway_kept _ _ (countVerdict_kept _ _ (by assumption))

theorem takeRequest_kept {s0 s : State} (n) (r) (h : Kept s0 s) : Kept s0 (takeRequest n r s) := by
  unfold takeRequest
  try dsimp only
  split
  · exact ingressAnswer_kept _ _ (by assumption)
  · split
    · exact ingressAnswer_kept _ _ (by assumption)
    · split
      · refine ingressAnswer_kept _ _ ?_
        assumption
      · split
        · exact ingressAnswer_kept _ _ (by assumption)
        · split
          · exact ingressAnswer_kept _ _ (by assumption)
          · split
            · exact ingressAnswer_kept _ _ (by assumption)
            · exact Kept.put (putSeq_kept _ _ (newHandle_kept (by assumption))) rfl rfl rfl

theorem actionAdmit_kept {s0 s : State} (n) (h : Kept s0 s) : Kept s0 (actionAdmit n s) := by
  unfold actionAdmit
  try dsimp only
  split
  · refine carryCases_kept _ _ ?_
    refine Kept.foldl (fun _ _ _ => ?_) ?_
    · exact journalCase_kept _ (by assumption)
    · refine Kept.foldl (fun _ _ _ => ?_) ?_
      · exact admitCase_kept _ _ (journalCase_kept _ (by assumption))
      · exact dropPends_kept _ _ (by assumption)
  · refine askAll_kept ?_
    refine Kept.foldl (fun _ _ _ => ?_) ?_
    · split
      · exact takeRequest_kept _ _ (journalWait_kept _ (by assumption))
      · assumption
    · exact dropPends_kept _ _ (by assumption)

theorem beginOwner_kept {s0 s : State} (f) (v) (h : Kept s0 s) : Kept s0 (beginOwner f v s) := by
  unfold beginOwner
  try dsimp only
  split
  · assumption
  · exact embedNext_kept _ (ownerSend_kept _ _ _ _ (Kept.put (updSeq_kept _ _ (by assumption)) rfl rfl rfl))

theorem execRequest_kept {s0 s : State} {t} {r} (e : execRequest r s = .next t) (h : Kept s0 s) : Kept s0 t := by
  unfold execRequest at e
  try dsimp only at e
  split at e
  · injection e with e
    subst e
    assumption
  · split at e
    · injection e with e
      subst e
      exact misdirect_kept _ (by assumption)
    · injection e with e
      subst e
      exact addWait_kept _ (noteFirst_kept _ _ (by assumption))

theorem noKeeper_kept {s0 s : State} (f) (h : Kept s0 s) : Kept s0 (noKeeper f s) := by
  unfold noKeeper
  try dsimp only
  split
  · exact verdictToGateway_kept _ _ (by assumption)
  · exact ingressAnswer_kept _ _ (by assumption)

theorem frontVerdict_kept {s0 s : State} (m) (v) (h : Kept s0 s) : Kept s0 (frontVerdict m v s) := by
  unfold frontVerdict
  try dsimp only
  split
  · assumption
  · split
    · exact beginOwner_kept _ _ (verdictToGateway_kept _ _ (Kept.put (by assumption) rfl rfl rfl))
    · split
      · exact Kept.put (by assumption) rfl rfl rfl
      · exact noKeeper_kept _ (Kept.put (by assumption) rfl rfl rfl)

theorem memberVerdict_kept {s0 s : State} (m) (v) (h : Kept s0 s) : Kept s0 (memberVerdict m v s) := by
  unfold memberVerdict
  try dsimp only
  exact Kept.put (by assumption) rfl rfl rfl

theorem onAdmitQuery_kept {s0 s : State} (m) (h : Kept s0 s) : Kept s0 (onAdmitQuery m s) := by
  unfold onAdmitQuery
  try dsimp only
  split
  · assumption
  · split
    · exact raise_kept _ (by assumption)
    · split
      · exact misdirect_kept _ (by assumption)
      · split
        · exact addWait_kept _ (noteFirst_kept _ _ (by assumption))
        · split
          · exact addWait_kept _ (noteFirst_kept _ _ (by assumption))
          · exact addWait_kept _ (noteFirst_kept _ _ (by assumption))

theorem onVerdict_kept {s0 s : State} (m) (h : Kept s0 s) : Kept s0 (onVerdict m s) := by
  unfold onVerdict
  try dsimp only
  split
  · assumption
  · split
    · exact raise_kept _ (by assumption)
    · split
      · exact misdirect_kept _ (by assumption)
      · split
        · exact frontVerdict_kept _ _ (consumeUnnumbered_kept _ _ _ (by assumption))
        · exact memberVerdict_kept _ _ (consumeUnnumbered_kept _ _ _ (by assumption))

theorem joinFork_kept {s0 s : State} (n) (q) (h : Kept s0 s) : Kept s0 (joinFork n q s) := by
  unfold joinFork
  split
  · exact sendVerdict_kept _ _ _ _ h
  · exact acceptQuery_kept _ _ _ (testQuery_kept (by assumption) h)

theorem testSegment_kept {s0 s : State} {t} {n q} (e : testSegment n q s = .ok t) (h : Kept s0 s) : Kept s0 t.1 := by
  unfold testSegment at e
  try dsimp only at e
  split at e
  · cases e
  · split at e
    · cases e
    · split at e
      · cases e
      · split at e
        · cases e
        · split at e
          · cases e
          · cases e
          · split at e
            · cases e
            · split at e
              · cases e
              · injection e with e
                subst e
                dsimp only
                refine testFreeboard_kept ?_ (by assumption) ?_
                · intro _ _
                  exact takeFreeboard_kept _ _ _ _ (putSeq_kept _ _ (by assumption))
                · exact newHandle_kept (by assumption)

theorem joinSegment_kept {s0 s : State} (n) (keeper) (msg) (h : Kept s0 s) : Kept s0 (joinSegment n keeper msg s) := by
  unfold joinSegment
  split
  · exact h
  · split
    · exact sendVerdict_kept _ _ _ _ h
    · rename_i e
      exact sendVerdict_kept _ _ _ _ (updSeq_kept _ _ (testSegment_kept e h))

theorem retryAt_kept {s0 s : State} (n) (step) (slot) (e_) (h : Kept s0 s) : Kept s0 (retryAt n step slot e_ s) := by
  unfold retryAt
  try dsimp only
  exact addWait_kept _ (by assumption)

theorem cutHopper_kept {s0 s : State} (slot) (l) (limit) (i) (d)
    (h : Kept s0 s) : Kept s0 (cutHopper slot l limit i d s) := by
  unfold cutHopper
  try dsimp only
  split
  · split
    · exact updDesc_kept _ _ (by assumption)
    · assumption
  · split
    · exact updLayer_kept _ _ _ (updDesc_kept _ _ (by assumption))
    · exact decRef_kept _ (updLayer_kept _ _ _ (by assumption))

theorem cutLayer_kept {s0 s : State} (slot) (limit) (l) (h : Kept s0 s) : Kept s0 (cutLayer slot limit l s) := by
  unfold cutLayer
  try dsimp only
  split
  · assumption
  · refine Kept.foldl (fun _ _ _ => ?_) ?_
    · split
      · exact updLayer_kept _ _ _ (by assumption)
      · split
        · exact cutHopper_kept _ _ _ _ _ (by assumption)
        · split
          · exact decRef_kept _ (updLayer_kept _ _ _ (by assumption))
          · assumption
    · assumption

theorem cutSequence_kept {s0 s : State} (slot) (limit) (h : Kept s0 s) : Kept s0 (cutSequence slot limit s) := by
  unfold cutSequence
  try dsimp only
  split
  · assumption
  · refine Kept.foldl (fun _ _ _ => ?_) ?_
    · exact cutLayer_kept _ _ _ (by assumption)
    · assumption

theorem testResume_kept {s0 s : State} {t} {n slot point e_}
    (e : testResume n slot point e_ s = .ok t) (h : Kept s0 s) : Kept s0 t.1 := by
  unfold testResume at e
  try dsimp only at e
  split at e
  · cases e
  · split at e
    · cases e
    · split at e
      · cases e
      · injection e with e
        subst e
        dsimp only
        refine testFreeboard_kept ?_ (by assumption) ?_
        · intro _ _
          exact cutSequence_kept _ _ (by assumption)
        · exact updSeq_kept _ _ (by assumption)

theorem grantResume_kept {s0 s : State} (n) (slot) (point) (p) (plan) (e_) (r)
    (h : Kept s0 s) : Kept s0 (grantResume n slot point p plan e_ r s) := by
  unfold grantResume
  try dsimp only
  refine sendGrant_kept _ _ _ _ _ _ ?_
  split
  · exact setRec_kept _ _ (updSeq_kept _ _ (clearWork_kept _ (by assumption)))
  · exact addNotice_kept _ _ _ _ (setRec_kept _ _ (updSeq_kept _ _ (clearWork_kept _ (by assumption))))

theorem joinResume_kept {s0 s : State} (n) (slot) (handle) (h : Kept s0 s) : Kept s0 (joinResume n slot handle s) := by
  unfold joinResume
  split
  · split
    · exact h
    · split
      · exact h
      · split
        · exact leaveKeeper_kept _ (recallAll_kept _ _ _ h)
        · split
          · exact cancelOrphaned_kept _ _ h
          · dsimp only
            have hu := fun k f => updSeq_kept (s0 := s0) k f h
            split
            · exact retryAt_kept _ _ _ _ (hu _ _)
            · split
              · split
                · exact retryAt_kept _ _ _ _ (hu _ _)
                · exact cancelOrphaned_kept _ _ (hu _ _)
              · rename_i e
                exact grantResume_kept _ _ _ _ _ _ _ (testResume_kept e (hu _ _))
  · exact h

theorem joinHandoff_kept {s0 s : State} (n) (keeper) (g) (p) (h : Kept s0 s) : Kept s0 (joinHandoff n keeper g p s) := by
  unfold joinHandoff
  try dsimp only
  split
  · exact addWait_kept _ (by assumption)
  · split
    · exact addWait_kept _ (newHandle_kept (by assumption))
    · exact ownerSend_kept _ _ _ _ (Kept.put (putSeq_kept _ _ (freeBelow_kept _ (newHandle_kept
        (by assumption)))) rfl rfl rfl)

theorem refuseRehome_kept {s0 s : State} (t) (e_) (reason) (h : Kept s0 s) : Kept s0 (refuseRehome t e_ reason s) := by
  unfold refuseRehome
  try dsimp only
  exact reasonWith_kept _ _ (addNotice_kept _ _ _ _ (by assumption))

theorem adoptPage_kept {s0 s : State} (slot) (l) (i) (keeper) (r)
    (h : Kept s0 s) : Kept s0 (adoptPage slot l i keeper r s) := by
  unfold adoptPage
  try dsimp only
  split
  · assumption
  · split
    · exact newDesc_kept _ (by assumption)
    · exact startRebuild_kept _ _ (fitLines_kept _ _ (updLayer_kept _ _ _ (newDesc_kept _ (by assumption))))

theorem adoptPages_kept {s0 s : State} (slot) (context) (keeper) (refs) (layers)
    (h : Kept s0 s) : Kept s0 (adoptPages slot context keeper refs layers s) := by
  unfold adoptPages
  try dsimp only
  refine Kept.foldl (fun _ _ _ => ?_) ?_
  · refine Kept.foldl (fun _ _ _ => ?_) ?_
    · exact adoptPage_kept _ _ _ _ _ (by assumption)
    · assumption
  · assumption

theorem askHistory_kept {s0 s : State} (slot) (h : Kept s0 s) : Kept s0 (askHistory slot s) := by
  unfold askHistory
  try dsimp only
  split
  · split
    · assumption
    · exact sendSlu_kept _ _ _ (by assumption)
  · assumption

theorem beginRehome_kept {s0 s : State} (slot) (e_) (hist) (rs) (keeper)
    (h : Kept s0 s) : Kept s0 (beginRehome slot e_ hist rs keeper s) := by
  unfold beginRehome
  try dsimp only
  exact bump_kept _ _ (askHistory_kept _ (setRec_kept _ _ (setHist_kept _ _ (adoptPages_kept _ _ _ _ _
    (by assumption)))))

theorem joinRehome_kept {s0 s : State} (n) (p) (t) (requestId) (body)
    (h : Kept s0 s) : Kept s0 (joinRehome n p t requestId body s) := by
  unfold joinRehome
  try dsimp only
  split
  · exact refusedWith_kept _ _ (by assumption)
  · split
    · exact refusedWith_kept _ _ (by assumption)
    · split
      · exact addWait_kept _ (newHandle_kept (by assumption))
      · split
        · exact refusedWith_kept _ _ (by assumption)
        · split
          · exact refuseRehome_kept _ _ _ (by assumption)
          · split
            · split
              · refine addWait_kept _ ?_
                assumption
              · exact refuseRehome_kept _ _ _ (by assumption)
            · split
              · split
                · exact addWait_kept _ (by assumption)
                · exact refuseRehome_kept _ _ _ (by assumption)
              · split
                · split
                  · refine addWait_kept _ ?_
                    assumption
                  · exact refuseRehome_kept _ _ _ (by assumption)
                · refine doneWith_kept _ _ _ ?_
                  refine beginRehome_kept _ _ _ _ _ ?_
                  refine testFreeboard_kept ?_ (by assumption) ?_
                  · intro _ _
                    exact takeFreeboard_kept _ _ _ _ (putSeq_kept _ _ (by assumption))
                  · exact newHandle_kept (by assumption)

theorem joinOne_kept {s0 s : State} (n) (p) (h : Kept s0 s) : Kept s0 (joinOne n p s) := by
  unfold joinOne
  try dsimp only
  split
  · exact joinFork_kept _ _ (journalWait_kept _ (by assumption))
  · exact joinSegment_kept _ _ _ (journalWait_kept _ (by assumption))
  · exact joinResume_kept _ _ _ (journalWait_kept _ (by assumption))
  · exact joinHandoff_kept _ _ _ _ (journalWait_kept _ (by assumption))
  · exact joinRehome_kept _ _ _ _ _ (journal_kept _ _ _ _ _ _ (journalWait_kept _ (by assumption)))
  · exact journalWait_kept _ (by assumption)

theorem carryJoin_kept {s0 s : State} (n) (p) (h : Kept s0 s) : Kept s0 (carryJoin n p s) := by
  unfold carryJoin
  try dsimp only
  split
  · exact sendVerdict_kept _ _ _ _ (journalWait_kept _ (by assumption))
  · split
    · exact sendVerdict_kept _ _ _ _ (journalWait_kept _ (by assumption))
    · assumption
  · exact addWait_kept _ (by assumption)

theorem actionJoin_kept {s0 s : State} (n) (h : Kept s0 s) : Kept s0 (actionJoin n s) := by
  unfold actionJoin
  try dsimp only
  refine Kept.foldl (fun _ _ _ => ?_) ?_
  · split
    · exact applyCommand_kept _ _ _ _ (by assumption)
    · assumption
  · split
    · refine Kept.foldl (fun _ _ _ => ?_) ?_
      · exact joinOne_kept _ _ (by assumption)
      · exact dropPends_kept _ _ (by assumption)
    · refine Kept.foldl (fun _ _ _ => ?_) ?_
      · exact carryJoin_kept _ _ (by assumption)
      · refine raise_kept _ ?_
        refine dispositionAt_kept _ _ _ _ _ ?_
        refine Kept.foldl (fun _ _ _ => ?_) ?_
        · exact joinOne_kept _ _ (by assumption)
        · exact dropPends_kept _ _ (by assumption)

theorem doBuildTable_kept {s0 s : State} (t) (h_) (layout) (source) (length)
    (h : Kept s0 s) : Kept s0 (doBuildTable t h_ layout source length s) := by
  unfold doBuildTable
  try dsimp only
  split
  · exact refusedWith_kept _ _ (tableResult_kept _ _ _ (by assumption))
  · exact Kept.put (by assumption) rfl rfl rfl

theorem doRemote_kept {s0 s : State} (t) (h_) (op) (o) (h : Kept s0 s) : Kept s0 (doRemote t h_ op o s) := by
  unfold doRemote
  try dsimp only
  split
  · exact refusedWith_kept _ _ (by assumption)
  · split
    · exact queueDisabled_kept _ (by assumption)
    · split
      · assumption
      · exact submitMsg_kept _ (takeSeq_kept _ (by assumption))

theorem doTaken_kept {s0 s : State} (p) (t) (op) (body) (h : Kept s0 s) : Kept s0 (doTaken p t op body s) := by
  unfold doTaken
  try dsimp only
  split
  · exact doCompose_kept _ _ (journal_kept _ _ _ _ _ _ (by assumption))
  · exact doBuildTable_kept _ _ _ _ _ (journal_kept _ _ _ _ _ _ (by assumption))
  · exact doOpenWindow_kept _ _ _ (journal_kept _ _ _ _ _ _ (by assumption))
  · exact doReopenWindow_kept _ _ _ _ (journal_kept _ _ _ _ _ _ (by assumption))
  · exact doRevokeWindow_kept _ _ _ (journal_kept _ _ _ _ _ _ (by assumption))
  · exact doSetQueue_kept _ _ _ _ _ (journal_kept _ _ _ _ _ _ (by assumption))
  · exact doSetPolicer_kept _ _ _ _ _ (journal_kept _ _ _ _ _ _ (by assumption))
  · exact doRemote_kept _ _ _ _ (journal_kept _ _ _ _ _ _ (by assumption))
  · exact doRemote_kept _ _ _ _ (journal_kept _ _ _ _ _ _ (by assumption))
  · exact doRemote_kept _ _ _ _ (journal_kept _ _ _ _ _ _ (by assumption))
  · exact doStageImage_kept _ _ _ (journal_kept _ _ _ _ _ _ (by assumption))
  · exact doCommitSvn_kept _ (journal_kept _ _ _ _ _ _ (by assumption))
  · exact journal_kept _ _ _ _ _ _ (by assumption)

theorem execBuildTableComplete_kept {s0 s : State} {t}
    (e : execBuildTableComplete s = .next t) (h : Kept s0 s) : Kept s0 t := by
  unfold execBuildTableComplete at e
  try dsimp only at e
  split at e
  · injection e with e
    subst e
    assumption
  · split at e
    · injection e with e
      subst e
      assumption
    · injection e with e
      subst e
      exact done_kept _ (raise_kept _ (tableResult_kept _ _ _ (writeMem_kept _ _ (chargeTier_kept _ _ _ (Kept.put
        (by assumption) rfl rfl rfl)))))

theorem giveSlotBack_kept {s0 s : State} (r) (h : Kept s0 s) : Kept s0 (giveSlotBack r s) := by
  unfold giveSlotBack
  try dsimp only
  exact setRing_kept _ _ (by assumption)

theorem takeCommand_kept {s0 s : State} (r) (bs) (op) (h_) (t) (sseq)
    (h : Kept s0 s) : Kept s0 (takeCommand r bs op h_ t sseq s) := by
  unfold takeCommand
  try dsimp only
  split
  · split
    · exact addWait_kept _ (noteFirst_kept _ _ (by assumption))
    · exact giveSlotBack_kept _ (noteFirst_kept _ _ (by assumption))
  · split
    · exact addWait_kept _ (noteFirst_kept _ _ (by assumption))
    · exact addWait_kept _ (noteFirst_kept _ _ (by assumption))
    · split
      · exact addWait_kept _ (noteFirst_kept _ _ (by assumption))
      · exact doTaken_kept _ _ _ _ (noteFirst_kept _ _ (by assumption))

theorem takeEntry_kept {s0 s : State} (r) (opened) (h : Kept s0 s) : Kept s0 (takeEntry r opened s) := by
  unfold takeEntry
  try dsimp only
  split
  · exact reasonWith_kept _ _ (setRing_kept _ _ (by assumption))
  · split
    · exact malformed_kept _ (setRing_kept _ _ (by assumption))
    · split
      · exact takeCommand_kept _ _ _ _ _ _ (setRing_kept _ _ (by assumption))
      · exact malformed_kept _ (setRing_kept _ _ (by assumption))

theorem serveRing_kept {s0 x3 : State} (r) (opened) (x2) (h : Kept s0 x3) : Kept s0 (serveRing r opened x2 x3) := by
  induction x2 generalizing opened x3 with
  | zero => exact h
  | succ n ih =>
    unfold serveRing
    split
    · exact ih _ (takeEntry_kept _ _ h)
    · exact h

theorem consumed_kept {s0 s : State} (ring) (head) (h : Kept s0 s) : Kept s0 (consumed ring head s) := by
  unfold consumed
  try dsimp only
  exact serveRing_kept _ _ _ (setRing_kept _ _ (by assumption))

theorem doorbell_kept {s0 s : State} (ring) (tail) (h : Kept s0 s) : Kept s0 (doorbell ring tail s) := by
  unfold doorbell
  try dsimp only
  split
  · exact raise_kept _ (setRing_kept _ _ (by assumption))
  · exact serveRing_kept _ _ _ (setRing_kept _ _ (by assumption))

theorem submit_kept {s0 s : State} (h_) (op) (opened) (h : Kept s0 s) : Kept s0 (submit h_ op opened s) := by
  unfold submit
  try dsimp only
  split
  · exact serveRing_kept _ _ _ (setRing_kept _ _ (writeMem_kept _ _ (place_kept _ (by assumption))))
  · exact place_kept _ (by assumption)

theorem ringCommand_kept {s0 s : State} {t} {h_ op opened}
    (e : ringCommand h_ op opened s = .next t) (h : Kept s0 s) : Kept s0 t := by
  unfold ringCommand at e
  try dsimp only at e
  split at e
  · injection e with e
    subst e
    exact submit_kept _ _ _ (by assumption)
  · injection e with e
    subst e
    assumption

theorem execAllocObject_kept {s0 s : State} {t} {h_ extents alloc pin durable}
    (e : execAllocObject h_ extents alloc pin durable s = .next t) (h : Kept s0 s) : Kept s0 t := by
  unfold execAllocObject at e
  try dsimp only at e
  exact ringCommand_kept e (by assumption)

theorem ringCommandAt_kept {s0 s : State} {t} {at_ h_ op}
    (e : ringCommandAt at_ h_ op s = .next t) (h : Kept s0 s) : Kept s0 t := by
  unfold ringCommandAt at e
  try dsimp only at e
  refine ringCommand_kept e ?_
  split
  · exact setNow_kept _ (by assumption)
  · assumption

theorem execAtomic_kept {s0 s : State} {t} {at_ h_ o} (e : execAtomic at_ h_ o s = .next t) (h : Kept s0 s) : Kept s0 t := by
  unfold execAtomic at e
  try dsimp only at e
  exact ringCommandAt_kept e (by assumption)

theorem execBuildTable_kept {s0 s : State} {t} {h_ layout source length}
    (e : execBuildTable h_ layout source length s = .next t) (h : Kept s0 s) : Kept s0 t := by
  unfold execBuildTable at e
  try dsimp only at e
  exact ringCommand_kept e (by assumption)

theorem execCommitSvn_kept {s0 s : State} {t} {h_} (e : execCommitSvn h_ s = .next t) (h : Kept s0 s) : Kept s0 t := by
  unfold execCommitSvn at e
  try dsimp only at e
  exact ringCommand_kept e (by assumption)

theorem execCompose_kept {s0 s : State} {t} {h_} (e : execCompose h_ s = .next t) (h : Kept s0 s) : Kept s0 t := by
  unfold execCompose at e
  try dsimp only at e
  exact ringCommand_kept e (by assumption)

theorem execCqHeadWrite_kept {s0 s : State} {t} {ring head}
    (e : execCqHeadWrite ring head s = .next t) (h : Kept s0 s) : Kept s0 t := by
  unfold execCqHeadWrite at e
  try dsimp only at e
  split at e
  · injection e with e
    subst e
    exact consumed_kept _ _ (by assumption)
  · injection e with e
    subst e
    assumption

theorem execDrainDie_kept {s0 s : State} {t} {h_ die force}
    (e : execDrainDie h_ die force s = .next t) (h : Kept s0 s) : Kept s0 t := by
  unfold execDrainDie at e
  try dsimp only at e
  exact ringCommand_kept e (by assumption)

theorem execFreeObject_kept {s0 s : State} {t} {h_ index gen}
    (e : execFreeObject h_ index gen s = .next t) (h : Kept s0 s) : Kept s0 t := by
  unfold execFreeObject at e
  try dsimp only at e
  exact ringCommand_kept e (by assumption)

theorem execInstallKey_kept {s0 s : State} {t} {h_ opened}
    (e : execInstallKey h_ opened s = .next t) (h : Kept s0 s) : Kept s0 t := by
  unfold execInstallKey at e
  try dsimp only at e
  exact ringCommand_kept e (by assumption)

theorem execInstallTable_kept {s0 s : State} {t} {h_ entry currentStep}
    (e : execInstallTable h_ entry currentStep s = .next t) (h : Kept s0 s) : Kept s0 t := by
  unfold execInstallTable at e
  try dsimp only at e
  exact ringCommand_kept e (by assumption)

theorem execLease_kept {s0 s : State} {t} {h_ o} (e : execLease h_ o s = .next t) (h : Kept s0 s) : Kept s0 t := by
  unfold execLease at e
  try dsimp only at e
  exact ringCommand_kept e (by assumption)

theorem execOpenWindow_kept {s0 s : State} {t} {at_ h_ o}
    (e : execOpenWindow at_ h_ o s = .next t) (h : Kept s0 s) : Kept s0 t := by
  unfold execOpenWindow at e
  try dsimp only at e
  exact ringCommandAt_kept e (by assumption)

theorem execRead_kept {s0 s : State} {t} {at_ h_ o} (e : execRead at_ h_ o s = .next t) (h : Kept s0 s) : Kept s0 t := by
  unfold execRead at e
  try dsimp only at e
  exact ringCommandAt_kept e (by assumption)

theorem execReadmitDie_kept {s0 s : State} {t} {h_ die}
    (e : execReadmitDie h_ die s = .next t) (h : Kept s0 s) : Kept s0 t := by
  unfold execReadmitDie at e
  try dsimp only at e
  exact ringCommand_kept e (by assumption)

theorem execRegisterAdapter_kept {s0 s : State} {t} {h_}
    (e : execRegisterAdapter h_ s = .next t) (h : Kept s0 s) : Kept s0 t := by
  unfold execRegisterAdapter at e
  try dsimp only at e
  exact ringCommand_kept e (by assumption)

theorem execRegisterContext_kept {s0 s : State} {t} {h_}
    (e : execRegisterContext h_ s = .next t) (h : Kept s0 s) : Kept s0 t := by
  unfold execRegisterContext at e
  try dsimp only at e
  exact ringCommand_kept e (by assumption)

theorem execRehome_kept {s0 s : State} {t} {h_ requestId}
    (e : execRehome h_ requestId s = .next t) (h : Kept s0 s) : Kept s0 t := by
  unfold execRehome at e
  try dsimp only at e
  exact ringCommand_kept e (by assumption)

theorem execReopenWindow_kept {s0 s : State} {t} {at_ h_ window o}
    (e : execReopenWindow at_ h_ window o s = .next t) (h : Kept s0 s) : Kept s0 t := by
  unfold execReopenWindow at e
  try dsimp only at e
  exact ringCommandAt_kept e (by assumption)

theorem execRetireContext_kept {s0 s : State} {t} {h_ context}
    (e : execRetireContext h_ context s = .next t) (h : Kept s0 s) : Kept s0 t := by
  unfold execRetireContext at e
  try dsimp only at e
  exact ringCommand_kept e (by assumption)

theorem execRevokeWindow_kept {s0 s : State} {t} {at_ h_ window}
    (e : execRevokeWindow at_ h_ window s = .next t) (h : Kept s0 s) : Kept s0 t := by
  unfold execRevokeWindow at e
  try dsimp only at e
  exact ringCommandAt_kept e (by assumption)

theorem ringControl_kept {s0 s : State} (ring) (value) (h : Kept s0 s) : Kept s0 (ringControl ring value s) := by
  unfold ringControl
  try dsimp only
  split
  · split
    · assumption
    · exact setRing_kept _ _ (by assumption)
  · split
    · exact setRing_kept _ _ (by assumption)
    · refine setRing_kept _ _ ?_
      assumption

theorem execRingCtrlWrite_kept {s0 s : State} {t} {ring value}
    (e : execRingCtrlWrite ring value s = .next t) (h : Kept s0 s) : Kept s0 t := by
  unfold execRingCtrlWrite at e
  try dsimp only at e
  split at e
  · injection e with e
    subst e
    exact ringControl_kept _ _ (by assumption)
  · injection e with e
    subst e
    assumption

theorem execSetPolicer_kept {s0 s : State} {t} {at_ h_ dike enable rate burst}
    (e : execSetPolicer at_ h_ dike enable rate burst s = .next t) (h : Kept s0 s) : Kept s0 t := by
  unfold execSetPolicer at e
  try dsimp only at e
  exact ringCommandAt_kept e (by assumption)

theorem execSetQueue_kept {s0 s : State} {t} {at_ h_ queue enable quantum rate}
    (e : execSetQueue at_ h_ queue enable quantum rate s = .next t) (h : Kept s0 s) : Kept s0 t := by
  unfold execSetQueue at e
  try dsimp only at e
  exact ringCommandAt_kept e (by assumption)

theorem execSqDoorbell_kept {s0 s : State} {t} {at_ ring tail placed}
    (e : execSqDoorbell at_ ring tail placed s = .next t) (h : Kept s0 s) : Kept s0 t := by
  unfold execSqDoorbell at e
  try dsimp only at e
  split at e
  · injection e with e
    subst e
    exact doorbell_kept _ _ (place_kept _ (setNow_kept _ (by assumption)))
  · injection e with e
    subst e
    assumption

theorem execStageImage_kept {s0 s : State} {t} {at_ h_}
    (e : execStageImage at_ h_ s = .next t) (h : Kept s0 s) : Kept s0 t := by
  unfold execStageImage at e
  try dsimp only at e
  exact ringCommandAt_kept e (by assumption)

theorem execSwitchImage_kept {s0 s : State} {t} {h_} (e : execSwitchImage h_ s = .next t) (h : Kept s0 s) : Kept s0 t := by
  unfold execSwitchImage at e
  try dsimp only at e
  exact ringCommand_kept e (by assumption)

theorem execWithdrawAdapter_kept {s0 s : State} {t} {h_ context}
    (e : execWithdrawAdapter h_ context s = .next t) (h : Kept s0 s) : Kept s0 t := by
  unfold execWithdrawAdapter at e
  try dsimp only at e
  exact ringCommand_kept e (by assumption)

theorem execWrite_kept {s0 s : State} {t} {at_ h_ o} (e : execWrite at_ h_ o s = .next t) (h : Kept s0 s) : Kept s0 t := by
  unfold execWrite at e
  try dsimp only at e
  exact ringCommandAt_kept e (by assumption)

theorem serveTurns_kept {s0 x1 : State} (x0) (h : Kept s0 x1) : Kept s0 (serveTurns x0 x1) := by
  induction x0 generalizing x1 with
  | zero =>
    unfold serveTurns
    try dsimp only
    assumption
  | succ n ih =>
    unfold serveTurns
    try dsimp only
    split
    · apply ih
      refine Kept.foldl (fun _ _ _ => ?_) ?_
      · exact serveRing_kept _ _ _ (by assumption)
      · assumption
    · assumption

theorem serveRings_kept {s0 s : State} (h : Kept s0 s) : Kept s0 (serveRings s) := by
  unfold serveRings
  try dsimp only
  exact serveTurns_kept _ (by assumption)

theorem fitStaging_kept {s0 s : State} (n) (h : Kept s0 s) : Kept s0 (fitStaging n s) := by
  unfold fitStaging
  try dsimp only
  refine Kept.foldl_snd (fun _ _ _ => ?_) ?_
  · dsimp only
    exact updSeq_kept _ _ (by assumption)
  · dsimp only
    assumption

theorem lateSeals_kept {s0 s : State} (n) (h : Kept s0 s) : Kept s0 (lateSeals n s) := by
  unfold lateSeals
  try dsimp only
  split
  · assumption
  · refine Kept.foldl (fun _ _ _ => ?_) ?_
    · exact dispositionAt_kept _ _ _ _ _ (by assumption)
    · exact sealLate_kept _ (by assumption)

theorem retrySeal_kept {s0 s : State} (i) (h : Kept s0 s) : Kept s0 (retrySeal i s) := by
  unfold retrySeal
  try dsimp only
  split
  · assumption
  · split
    · assumption
    · split
      · assumption
      · exact updDesc_kept _ _ (takeMap_kept _ _ _ (takeExtents_kept _ _ _ (by assumption)))

theorem sendSegment_kept {s0 s : State} (slot) (e_) (h : Kept s0 s) : Kept s0 (sendSegment slot e_ s) := by
  unfold sendSegment
  try dsimp only
  split
  · assumption
  · refine Kept.foldl (fun _ _ _ => ?_) ?_
    · exact forwardBlocks_kept _ _ (sendOwn_kept _ _ (by assumption))
    · assumption

theorem settleLeases_kept {s0 s : State} (h : Kept s0 s) : Kept s0 (settleLeases s) := by
  unfold settleLeases
  try dsimp only
  split
  · exact dispositionAt_kept _ _ _ _ _ (by assumption)
  · assumption

theorem settleOwned_kept {s0 s : State} (n) (slot) (o) (h : Kept s0 s) : Kept s0 (settleOwned n slot o s) := by
  unfold settleOwned
  try dsimp only
  exact raiseIf_kept _ _ (updOwned_kept _ _ (by assumption))

theorem settleProtection_kept {s0 s : State} (h : Kept s0 s) : Kept s0 (settleProtection s) := by
  unfold settleProtection
  try dsimp only
  refine Kept.foldl (fun _ _ _ => ?_) ?_
  · exact oweCkpt_kept _ (by assumption)
  · exact protectPages_kept (by assumption)

theorem settlePages_kept {s0 s : State} (n) (h : Kept s0 s) : Kept s0 (settlePages n s) := by
  unfold settlePages
  try dsimp only
  refine settleProtection_kept ?_
  refine Kept.foldl (fun _ _ _ => ?_) ?_
  · exact publishAll_kept _ _ _ (by assumption)
  · refine Kept.foldl (fun _ _ _ => ?_) ?_
    · exact sendSegment_kept _ _ (by assumption)
    · refine Kept.foldl (fun _ _ _ => ?_) ?_
      · exact switchSealed_kept _ (by assumption)
      · refine Kept.put ?_ rfl rfl rfl
        refine Kept.foldl (fun _ _ _ => ?_) ?_
        · exact retrySeal_kept _ (by assumption)
        · exact startCodings_kept (lateSeals_kept _ (by assumption))

theorem settleRing_kept {s0 s : State} (e_) (h : Kept s0 s) : Kept s0 (settleRing e_ s) := by
  unfold settleRing
  try dsimp only
  split
  · assumption
  · refine Kept.foldl (fun _ _ _ => ?_) ?_
    · exact Kept.put (by assumption) rfl rfl rfl
    · split
      · assumption
      · exact disposition_kept _ _ _ _ (bump_kept _ _ (raiseTimes_kept _ _ (by assumption)))

theorem settleRows_kept {s0 s : State} (n) (h : Kept s0 s) : Kept s0 (settleRows n s) := by
  unfold settleRows
  try dsimp only
  exact Kept.put (by assumption) rfl rfl rfl

theorem shiftPlan_kept {s0 s : State} (slot) (e_) (h : Kept s0 s) : Kept s0 (shiftPlan slot e_ s) := by
  unfold shiftPlan
  try dsimp only
  split
  · assumption
  · split
    · assumption
    · exact setRec_kept _ _ (by assumption)

theorem settleSeqs_kept {s0 s : State} (n) (h : Kept s0 s) : Kept s0 (settleSeqs n s) := by
  unfold settleSeqs
  try dsimp only
  refine Kept.foldl (fun _ _ _ => ?_) ?_
  · exact shiftPlan_kept _ _ (by assumption)
  · refine fitStaging_kept _ ?_
    refine Kept.foldl (fun _ _ _ => ?_) ?_
    · exact putSeq_kept _ _ (by assumption)
    · assumption

theorem settleStep_kept {s0 s : State} (n) (h : Kept s0 s) : Kept s0 (settleStep n s) := by
  unfold settleStep
  try dsimp only
  refine tierBoundary_kept ?_
  refine Kept.foldl (fun _ _ _ => ?_) ?_
  · exact settleOwned_kept _ _ _ (by assumption)
  · refine settlePages_kept _ ?_
    refine settleSeqs_kept _ ?_
    refine settleLeases_kept ?_
    refine settleRows_kept _ ?_
    refine Kept.foldl (fun _ _ _ => ?_) ?_
    · exact settleRing_kept _ (by assumption)
    · refine Kept.foldl (fun _ _ _ => ?_) ?_
      · exact disposition_kept _ _ _ _ (by assumption)
      · exact Kept.put (by assumption) rfl rfl rfl

theorem dropMaps_kept {s0 s : State} (h : Kept s0 s) : Kept s0 (dropMaps s) := by
  unfold dropMaps
  try dsimp only
  exact Kept.put (by assumption) rfl rfl rfl

theorem redirectResume_kept {s0 s : State} (slot) (h : Kept s0 s) : Kept s0 (redirectResume slot s) := by
  unfold redirectResume
  try dsimp only
  split
  · exact resumeWait_kept _ _ (setRec_kept _ _ (updSeq_kept _ _ (by assumption)))
  · assumption

theorem expelSelf_kept {s0 s : State} (h : Kept s0 s) : Kept s0 (expelSelf s) := by
  unfold expelSelf
  try dsimp only
  refine Kept.put ?_ rfl rfl rfl
  refine Kept.foldl (fun _ _ _ => ?_) ?_
  · exact freeEntry_kept _ (by assumption)
  · exact Kept.put (raise_kept _ (by assumption)) rfl rfl rfl

theorem goneMembers_kept {s0 s : State} (h : Kept s0 s) : Kept s0 (goneMembers s) := by
  unfold goneMembers
  try dsimp only
  refine Kept.foldl (fun _ _ _ => ?_) ?_
  · split
    · assumption
    · refine Kept.foldl (fun _ _ _ => ?_) ?_
      · split
        · exact memberLost_kept _ _ (by assumption)
        · assumption
      · assumption
  · assumption

theorem redirectNext_kept {s0 s : State} (slot) (h : Kept s0 s) : Kept s0 (redirectNext slot s) := by
  unfold redirectNext
  try dsimp only
  split
  · exact setRec_kept _ _ (setRec_kept _ _ (updSeq_kept _ _ (by assumption)))
  · assumption

theorem redirectGone_kept {s0 s : State} (h : Kept s0 s) : Kept s0 (redirectGone s) := by
  unfold redirectGone
  try dsimp only
  refine eachRec_kept _ ?_ ?_
  · intro _ _ _ _
    split
    · exact redirectResume_kept _ (by assumption)
    · split
      · exact redirectNext_kept _ (by assumption)
      · assumption
  · assumption

theorem goneCandidates_kept {s0 s : State} (h : Kept s0 s) : Kept s0 (goneCandidates s) := by
  unfold goneCandidates
  try dsimp only
  refine Kept.foldl (fun _ _ _ => ?_) ?_
  · exact noKeeper_kept _ (by assumption)
  · exact Kept.put (by assumption) rfl rfl rfl

theorem goneKeepers_kept {s0 s : State} (n) (h : Kept s0 s) : Kept s0 (goneKeepers n s) := by
  unfold goneKeepers
  try dsimp only
  refine goneCandidates_kept ?_
  refine Kept.foldl (fun _ _ _ => ?_) ?_
  · split
    · exact raise_kept _ (updOwned_kept _ _ (by assumption))
    · assumption
  · assumption

theorem installMap_kept {s0 s : State} (n) (m) (h : Kept s0 s) : Kept s0 (installMap n m s) := by
  unfold installMap
  try dsimp only
  split
  · split
    · refine expelSelf_kept ?_
      refine raiseIf_kept _ _ ?_
      refine Kept.foldl (fun _ _ _ => ?_) ?_
      · exact redirectResume_kept _ (by assumption)
      · exact Kept.put (dropMaps_kept (by assumption)) rfl rfl rfl
    · refine replaceGone_kept ?_
      refine goneMembers_kept ?_
      refine redirectGone_kept ?_
      refine goneKeepers_kept _ ?_
      refine raiseIf_kept _ _ ?_
      refine Kept.foldl (fun _ _ _ => ?_) ?_
      · exact redirectResume_kept _ (by assumption)
      · exact Kept.put (dropMaps_kept (by assumption)) rfl rfl rfl
  · split
    · refine expelSelf_kept ?_
      refine raiseIf_kept _ _ ?_
      refine Kept.foldl (fun _ _ _ => ?_) ?_
      · exact redirectResume_kept _ (by assumption)
      · exact Kept.put (dropMaps_kept (by assumption)) rfl rfl rfl
    · refine replaceGone_kept ?_
      refine goneMembers_kept ?_
      refine redirectGone_kept ?_
      refine goneKeepers_kept _ ?_
      refine raiseIf_kept _ _ ?_
      refine Kept.foldl (fun _ _ _ => ?_) ?_
      · exact redirectResume_kept _ (by assumption)
      · exact Kept.put (dropMaps_kept (by assumption)) rfl rfl rfl

theorem actionMaps_kept {s0 s : State} (n) (h : Kept s0 s) : Kept s0 (actionMaps n s) := by
  unfold actionMaps
  try dsimp only
  split
  · exact dropMaps_kept (installMap_kept _ _ (by assumption))
  · exact dropMaps_kept (by assumption)

theorem enterPrefill_kept {s0 s : State} (n) (h : Kept s0 s) : Kept s0 (enterPrefill n s) := by
  unfold enterPrefill
  try dsimp only
  exact Kept.put (by assumption) rfl rfl rfl

theorem actionBuild_kept {s0 s : State} (n) (h : Kept s0 s) : Kept s0 (actionBuild n s) := by
  unfold actionBuild
  try dsimp only
  exact swapCheck_kept (stageFirst_kept (buildStep_kept _ (enterPrefill_kept _ (by assumption))))

theorem applyRank_kept {s0 s : State} (ps) (k) (h : Kept s0 s) : Kept s0 (applyRank ps k s) := by
  unfold applyRank
  try dsimp only
  refine Kept.foldl (fun _ _ _ => ?_) ?_
  · split
    · split
      · assumption
      · split
        · exact doTaken_kept _ _ _ _ (by assumption)
        · exact applyCommand_kept _ _ _ _ (by assumption)
    · assumption
  · assumption

theorem actionEnvelope_kept {s0 s : State} (n) (h : Kept s0 s) : Kept s0 (actionEnvelope n s) := by
  unfold actionEnvelope
  try dsimp only
  exact eraseKeys_kept (freeTables_kept (applyRank_kept _ _ (actionMaps_kept _ (dropForeign_kept (applyRank_kept _ _
    (freeRetired_kept (retireVersions_kept (applyRank_kept _ _ (readyContexts_kept (applyRank_kept _ _
    (diesAction_kept _ (coresAction_kept (applyRank_kept _ _ (applyRank_kept _ _ (applyRank_kept _ _
    (refreshLeases_kept (dropPends_kept _ _ (by assumption))))))))))))))))))

theorem actionSwitch_kept {s0 s : State} (n) (h : Kept s0 s) : Kept s0 (actionSwitch n s) := by
  unfold actionSwitch
  try dsimp only
  refine Kept.foldl (fun _ _ _ => ?_) ?_
  · split
    · exact doSwitchImage_kept _ (journalPend_kept _ _ _ _ (by assumption))
    · assumption
  · exact dropPends_kept _ _ (by assumption)

theorem closeDigests_kept {s0 s : State} (n) (h : Kept s0 s) : Kept s0 (closeDigests n s) := by
  unfold closeDigests
  try dsimp only
  refine Kept.put ?_ rfl rfl rfl
  split
  · exact putJournal_kept _ _ _ _ _ _ _ _ (putJournal_kept _ _ _ _ _ _ _ _ (by assumption))
  · assumption

theorem countRecord_kept {s0 s : State} (step) (r) (h : Kept s0 s) : Kept s0 (countRecord step r s) := by
  unfold countRecord
  try dsimp only
  split
  · assumption
  · split
    · exact charge_kept _ _ _ (by assumption)
    · refine raise_kept _ ?_
      refine bump_kept _ _ ?_
      split
      · exact updSeq_kept _ _ (sEvent_kept _ _ _ _ (setAcct_kept _ _ (charge_kept _ _ _ (by assumption))))
      · exact sEvent_kept _ _ _ _ (setAcct_kept _ _ (charge_kept _ _ _ (by assumption)))

theorem counterStep_kept {s0 s : State} (h : Kept s0 s) : Kept s0 (counterStep s) := by
  unfold counterStep
  try dsimp only
  split
  · exact enterTime_kept _ (Kept.put (stepCounter_kept _ (by assumption)) rfl rfl rfl)
  · assumption

theorem dropRefused_kept {s0 s : State} (h : Kept s0 s) : Kept s0 (dropRefused s) := by
  unfold dropRefused
  try dsimp only
  split
  · assumption
  · refine Kept.foldl (fun _ _ _ => ?_) ?_
    · exact freeEntry_kept _ (by assumption)
    · assumption

theorem grantHandoff_kept {s0 s : State} (slot) (g) (r) (h : Kept s0 s) : Kept s0 (grantHandoff slot g r s) := by
  unfold grantHandoff
  try dsimp only
  exact forwardTail_kept _ (setRec_kept _ _ (sendGrant_kept _ _ _ _ _ _ (by assumption)))

theorem recordTurn_kept {s0 s : State} (n) (slot) (r) (h : Kept s0 s) : Kept s0 (recordTurn n slot r s) := by
  unfold recordTurn
  try dsimp only
  split
  · assumption
  · split
    · split
      · exact grantHandoff_kept _ _ _ (by assumption)
      · assumption
    · split
      · split
        · exact grantHandoff_kept _ _ _ (by assumption)
        · exact setRec_kept _ _ (by assumption)
      · assumption
    · split
      · split
        · exact grantHandoff_kept _ _ _ (by assumption)
        · exact setRec_kept _ _ (by assumption)
      · assumption
    · split
      · split
        · exact setRec_kept _ _ (by assumption)
        · exact setRec_kept _ _ (sendGrant_kept _ _ _ _ _ _ (by assumption))
      · split
        · exact setRec_kept _ _ (by assumption)
        · exact setRec_kept _ _ (sendGrant_kept _ _ _ _ _ _ (by assumption))
    · assumption

theorem recordTurns_kept {s0 s : State} (n) (h : Kept s0 s) : Kept s0 (recordTurns n s) := by
  unfold recordTurns
  try dsimp only
  refine eachRec_kept _ ?_ ?_
  · intro _ _ _ _
    exact recordTurn_kept _ _ _ (by assumption)
  · assumption

theorem endOwner_kept {s0 s : State} (slot) (h : Kept s0 s) : Kept s0 (endOwner slot s) := by
  unfold endOwner
  try dsimp only
  split
  · assumption
  · exact freeEntry_kept _ (ownerSend_kept _ _ _ _ (by assumption))

theorem ownerTurn_kept {s0 s : State} (slot) (o) (h : Kept s0 s) : Kept s0 (ownerTurn slot o s) := by
  unfold ownerTurn
  try dsimp only
  split
  · assumption
  · split
    · exact endOwner_kept _ (by assumption)
    · split
      · exact ownerSend_kept _ _ _ _ (embedNext_kept _ (by assumption))
      · exact embedNext_kept _ (by assumption)

theorem ownerTurns_kept {s0 s : State} (h : Kept s0 s) : Kept s0 (ownerTurns s) := by
  unfold ownerTurns
  try dsimp only
  refine Kept.foldl (fun _ _ _ => ?_) ?_
  · exact ownerTurn_kept _ _ (by assumption)
  · assumption

theorem sendBatches_kept {s0 s : State} (step) (h : Kept s0 s) : Kept s0 (sendBatches step s) := by
  unfold sendBatches
  try dsimp only
  refine Kept.foldl (fun _ _ _ => ?_) ?_
  · exact sendMsg_kept _ _ _ _ _ (by assumption)
  · refine Kept.foldl (fun _ _ _ => ?_) ?_
    · exact countRecord_kept _ _ (by assumption)
    · exact Kept.put (by assumption) rfl rfl rfl

theorem serveInspect_kept {s0 s : State} (h : Kept s0 s) : Kept s0 (serveInspect s) := by
  unfold serveInspect
  try dsimp only
  split
  · assumption
  · exact Kept.put (by assumption) rfl rfl rfl

theorem endOfWork_kept {s0 s : State} (n) (h : Kept s0 s) : Kept s0 (endOfWork n s) := by
  unfold endOfWork
  try dsimp only
  exact counterStep_kept (serveInspect_kept (checkpoints_kept _ (ownerTurns_kept (sendBatches_kept _
    (recordTurns_kept _ (actionSwitch_kept _ (by assumption)))))))

theorem fiveActions_kept {s0 s : State} (n) (h : Kept s0 s) : Kept s0 (fiveActions n s) := by
  unfold fiveActions
  try dsimp only
  exact Kept.put (actionBuild_kept _ (actionJoin_kept _ (actionAdmit_kept _ (actionEnvelope_kept _ (dropRefused_kept
    (actionLeave_kept _ (by assumption))))))) rfl rfl rfl

theorem journalStep_kept {s0 s : State} (h : Kept s0 s) : Kept s0 (journalStep s) := by
  unfold journalStep
  try dsimp only
  exact journal_kept _ _ _ _ _ _ (by assumption)

theorem sample_kept {s0 s : State} (n) (h : Kept s0 s) : Kept s0 (sample n s) := by
  unfold sample
  try dsimp only
  exact Kept.put (ageStatus_kept (by assumption)) rfl rfl rfl

theorem openBoundary_kept {s0 s : State} (n) (h : Kept s0 s) : Kept s0 (openBoundary n s) := by
  unfold openBoundary
  try dsimp only
  exact endOfWork_kept _ (fiveActions_kept _ (settleStep_kept _ (journalStep_kept (sample_kept _
    (closeDigests_kept _ (by assumption))))))

theorem realBoundary_kept {s0 s : State} (workNs) (h : Kept s0 s) : Kept s0 (realBoundary workNs s) := by
  unfold realBoundary
  try dsimp only
  refine Kept.put ?_ rfl rfl rfl
  refine openBoundary_kept _ ?_
  split
  · exact freezeTally_kept (setNow_kept _ (by assumption))
  · exact setNow_kept _ (by assumption)

end Sys2Proof.Machine
end

