-- ==== Sys2Proof/Laws/KeptEdge.lean ====
section
/-! SUPPORT. Each operation keeps what Safety.Kept says: messages, replay, Nodor, SPDM, start-up, supply and registers.
`f_kept`: if `s0` is kept up to `s`, it is kept up to what `f` makes of `s`. -/

namespace Sys2Proof.Machine

open Sys2Proof.Safety

theorem onRequestBytes_kept {s0 s : State} (sseq) (m) (h : Kept s0 s) : Kept s0 (onRequestBytes sseq m s) := by
  unfold onRequestBytes
  try dsimp only
  split
  · assumption
  · split
    · exact raise_kept _ (by assumption)
    · split
      · exact misdirect_kept _ (by assumption)
      · exact addWait_kept _ (noteFirst_kept _ _ (by assumption))

theorem forwardNamed_kept {s0 s : State} (kind) (c) (h : Kept s0 s) : Kept s0 (forwardNamed kind c s) := by
  unfold forwardNamed
  try dsimp only
  split
  · exact raise_kept _ (consumeNow_kept _ _ _ _ (by assumption))
  · exact sendMsg_kept _ _ _ _ _ (takeSseq_kept (consumeNow_kept _ _ _ _ (by assumption)))

theorem onNamed_kept {s0 s : State} (kind) (wait) (c) (h : Kept s0 s) : Kept s0 (onNamed kind wait c s) := by
  unfold onNamed
  try dsimp only
  split
  · assumption
  · split
    · exact addWait_kept _ (noteFirst_kept _ _ (by assumption))
    · split
      · exact forwardNamed_kept _ _ (by assumption)
      · exact misdirect_kept _ (by assumption)

theorem onNamedBytes_kept {s0 s : State} (kind) (sseq) (wait) (m)
    (h : Kept s0 s) : Kept s0 (onNamedBytes kind sseq wait m s) := by
  unfold onNamedBytes
  try dsimp only
  split
  · exact raise_kept _ (by assumption)
  · exact onNamed_kept _ _ _ (by assumption)

theorem deliver_kept {s0 s : State} (sseq) (m) (h : Kept s0 s) : Kept s0 (deliver sseq m s) := by
  unfold deliver
  try dsimp only
  split
  · exact onRingBlock_kept _ (by assumption)
  · exact onProbe_kept _ (by assumption)
  · refine onFoldRecord_kept _ ?_
    assumption
  · exact onAdmitQuery_kept _ (by assumption)
  · exact onVerdict_kept _ (by assumption)
  · split
    · exact misdirect_kept _ (by assumption)
    · assumption
  · exact onRequestBytes_kept _ _ (by assumption)
  · exact onNamedBytes_kept _ _ _ _ (by assumption)
  · refine onNamedBytes_kept _ _ _ _ ?_
    assumption
  · exact onGrant_kept _ (by assumption)
  · exact onGrantAck_kept _ (by assumption)
  · exact onStatePush_kept _ (by assumption)
  · refine onRelease_kept _ ?_
    assumption
  · exact onPulse_kept _ (by assumption)
  · refine onTokenNote_kept _ ?_
    assumption
  · exact onNoteAck_kept _ (by assumption)
  · refine onReject_kept _ ?_
    assumption
  · exact onRecall_kept _ (by assumption)
  · exact onHistoryQuery_kept _ (by assumption)
  · exact onFragmentPut_kept _ (by assumption)
  · refine onFragmentAck_kept _ ?_
    assumption
  · refine onFragmentGet_kept _ ?_
    assumption
  · exact onFragmentData_kept _ (by assumption)
  · exact onFragmentFree_kept _ (by assumption)
  · refine onFragmentLost_kept _ ?_
    assumption
  · assumption

theorem execAdmitQuery_kept {s0 s : State} {t} {m} (e : execAdmitQuery m s = .next t) (h : Kept s0 s) : Kept s0 t := by
  unfold execAdmitQuery at e
  try dsimp only at e
  injection e with e
  subst e
  exact onAdmitQuery_kept _ (by assumption)

theorem execCancel_kept {s0 s : State} {t} {c} (e : execCancel c s = .next t) (h : Kept s0 s) : Kept s0 t := by
  unfold execCancel at e
  try dsimp only at e
  injection e with e
  subst e
  exact onNamed_kept _ _ _ (by assumption)

theorem execFoldRecord_kept {s0 s : State} {t} {m} (e : execFoldRecord m s = .next t) (h : Kept s0 s) : Kept s0 t := by
  unfold execFoldRecord at e
  try dsimp only at e
  injection e with e
  subst e
  exact onFoldRecord_kept _ (by assumption)

theorem execFragmentAck_kept {s0 s : State} {t} {m} (e : execFragmentAck m s = .next t) (h : Kept s0 s) : Kept s0 t := by
  unfold execFragmentAck at e
  try dsimp only at e
  injection e with e
  subst e
  exact onFragmentAck_kept _ (by assumption)

theorem execFragmentData_kept {s0 s : State} {t} {m} (e : execFragmentData m s = .next t) (h : Kept s0 s) : Kept s0 t := by
  unfold execFragmentData at e
  try dsimp only at e
  injection e with e
  subst e
  exact onFragmentData_kept _ (by assumption)

theorem execFragmentFree_kept {s0 s : State} {t} {m} (e : execFragmentFree m s = .next t) (h : Kept s0 s) : Kept s0 t := by
  unfold execFragmentFree at e
  try dsimp only at e
  injection e with e
  subst e
  exact onFragmentFree_kept _ (by assumption)

theorem execFragmentGet_kept {s0 s : State} {t} {m} (e : execFragmentGet m s = .next t) (h : Kept s0 s) : Kept s0 t := by
  unfold execFragmentGet at e
  try dsimp only at e
  injection e with e
  subst e
  exact onFragmentGet_kept _ (by assumption)

theorem execFragmentLost_kept {s0 s : State} {t} {m} (e : execFragmentLost m s = .next t) (h : Kept s0 s) : Kept s0 t := by
  unfold execFragmentLost at e
  try dsimp only at e
  injection e with e
  subst e
  exact onFragmentLost_kept _ (by assumption)

theorem execFragmentPut_kept {s0 s : State} {t} {m} (e : execFragmentPut m s = .next t) (h : Kept s0 s) : Kept s0 t := by
  unfold execFragmentPut at e
  try dsimp only at e
  injection e with e
  subst e
  exact onFragmentPut_kept _ (by assumption)

theorem execGrant_kept {s0 s : State} {t} {m} (e : execGrant m s = .next t) (h : Kept s0 s) : Kept s0 t := by
  unfold execGrant at e
  try dsimp only at e
  injection e with e
  subst e
  exact onGrant_kept _ (by assumption)

theorem execGrantAck_kept {s0 s : State} {t} {m} (e : execGrantAck m s = .next t) (h : Kept s0 s) : Kept s0 t := by
  unfold execGrantAck at e
  try dsimp only at e
  injection e with e
  subst e
  exact onGrantAck_kept _ (by assumption)

theorem execHistoryQuery_kept {s0 s : State} {t} {m} (e : execHistoryQuery m s = .next t) (h : Kept s0 s) : Kept s0 t := by
  unfold execHistoryQuery at e
  try dsimp only at e
  injection e with e
  subst e
  exact onHistoryQuery_kept _ (by assumption)

theorem execNoteAck_kept {s0 s : State} {t} {m} (e : execNoteAck m s = .next t) (h : Kept s0 s) : Kept s0 t := by
  unfold execNoteAck at e
  try dsimp only at e
  injection e with e
  subst e
  exact onNoteAck_kept _ (by assumption)

theorem execPause_kept {s0 s : State} {t} {c} (e : execPause c s = .next t) (h : Kept s0 s) : Kept s0 t := by
  unfold execPause at e
  try dsimp only at e
  injection e with e
  subst e
  exact onNamed_kept _ _ _ (by assumption)

theorem execProbe_kept {s0 s : State} {t} {m} (e : execProbe m s = .next t) (h : Kept s0 s) : Kept s0 t := by
  unfold execProbe at e
  try dsimp only at e
  injection e with e
  subst e
  exact onProbe_kept _ (by assumption)

theorem execPulse_kept {s0 s : State} {t} {m} (e : execPulse m s = .next t) (h : Kept s0 s) : Kept s0 t := by
  unfold execPulse at e
  try dsimp only at e
  injection e with e
  subst e
  exact onPulse_kept _ (by assumption)

theorem execRecall_kept {s0 s : State} {t} {m} (e : execRecall m s = .next t) (h : Kept s0 s) : Kept s0 t := by
  unfold execRecall at e
  try dsimp only at e
  injection e with e
  subst e
  exact onRecall_kept _ (by assumption)

theorem execReject_kept {s0 s : State} {t} {m} (e : execReject m s = .next t) (h : Kept s0 s) : Kept s0 t := by
  unfold execReject at e
  try dsimp only at e
  injection e with e
  subst e
  exact onReject_kept _ (by assumption)

theorem execRelease_kept {s0 s : State} {t} {m} (e : execRelease m s = .next t) (h : Kept s0 s) : Kept s0 t := by
  unfold execRelease at e
  try dsimp only at e
  injection e with e
  subst e
  exact onRelease_kept _ (by assumption)

theorem execRingBlock_kept {s0 s : State} {t} {m} (e : execRingBlock m s = .next t) (h : Kept s0 s) : Kept s0 t := by
  unfold execRingBlock at e
  try dsimp only at e
  injection e with e
  subst e
  exact onRingBlock_kept _ (by assumption)

theorem execStatePush_kept {s0 s : State} {t} {m} (e : execStatePush m s = .next t) (h : Kept s0 s) : Kept s0 t := by
  unfold execStatePush at e
  try dsimp only at e
  injection e with e
  subst e
  exact onStatePush_kept _ (by assumption)

theorem execTokenNote_kept {s0 s : State} {t} {m} (e : execTokenNote m s = .next t) (h : Kept s0 s) : Kept s0 t := by
  unfold execTokenNote at e
  try dsimp only at e
  injection e with e
  subst e
  exact onTokenNote_kept _ (by assumption)

theorem execVerdict_kept {s0 s : State} {t} {m} (e : execVerdict m s = .next t) (h : Kept s0 s) : Kept s0 t := by
  unfold execVerdict at e
  try dsimp only at e
  injection e with e
  subst e
  exact onVerdict_kept _ (by assumption)

theorem diverge_kept {s0 s : State} (step) (r) (node) (h : Kept s0 s) : Kept s0 (diverge step r node s) := by
  unfold diverge
  try dsimp only
  exact raise_kept _ (Kept.put (by assumption) rfl rfl rfl)

theorem passStep_kept {s0 s : State} (tail) (h : Kept s0 s) : Kept s0 (passStep tail s) := by
  unfold passStep
  try dsimp only
  exact Kept.put (by assumption) rfl rfl rfl

theorem feedStep_kept {s0 s : State} (r) (h : Kept s0 s) : Kept s0 (feedStep r s) := by
  unfold feedStep
  try dsimp only
  exact Kept.put (by assumption) rfl rfl rfl

theorem feedTime_kept {s0 s : State} (r) (h : Kept s0 s) : Kept s0 (feedTime r s) := by
  unfold feedTime
  try dsimp only
  exact Kept.put (by assumption) rfl rfl rfl

theorem feedKey_kept {s0 s : State} (r) (h : Kept s0 s) : Kept s0 (feedKey r s) := by
  unfold feedKey
  try dsimp only
  split
  · assumption
  · split
    · assumption
    · exact addWait_kept _ (Kept.put (by assumption) rfl rfl rfl)

theorem feedCommand_kept {s0 s : State} (r) (h : Kept s0 s) : Kept s0 (feedCommand r s) := by
  unfold feedCommand
  try dsimp only
  split
  · assumption
  · exact feedKey_kept _ (by assumption)
  · split
    · exact addWait_kept _ (by assumption)
    · refine addWait_kept _ ?_
      assumption
    · split
      · exact doTaken_kept _ _ _ _ (by assumption)
      · exact addWait_kept _ (by assumption)

theorem feedMessage_kept {s0 s : State} (r) (h : Kept s0 s) : Kept s0 (feedMessage r s) := by
  unfold feedMessage
  try dsimp only
  split
  · assumption
  · exact Kept.put (deliver_kept _ _ (Kept.put (by assumption) rfl rfl rfl)) rfl rfl rfl

theorem feedMoved_kept {s0 s : State} (code) (h_) (h : Kept s0 s) : Kept s0 (feedMoved code h_ s) := by
  unfold feedMoved
  try dsimp only
  split
  · assumption
  · split
    · exact pullItems_kept _ (updSeq_kept _ _ (by assumption))
    · split
      · exact deferSeq_kept _ _ (by assumption)
      · assumption

theorem feedDisposition_kept {s0 s : State} (r) (h : Kept s0 s) : Kept s0 (feedDisposition r s) := by
  unfold feedDisposition
  try dsimp only
  split
  · exact bump_kept _ _ (raiseTimes_kept _ _ (by assumption))
  · exact raise_kept _ (bump_kept _ _ (Kept.put (by assumption) rfl rfl rfl))
  · exact raise_kept _ (bump_kept _ _ (Kept.put (by assumption) rfl rfl rfl))
  · exact Kept.put (by assumption) rfl rfl rfl
  · exact feedMoved_kept _ _ (by assumption)

theorem feedRecord_kept {s0 s : State} (r) (h : Kept s0 s) : Kept s0 (feedRecord s r) := by
  unfold feedRecord
  try dsimp only
  split
  · exact feedTime_kept _ (by assumption)
  · exact feedCommand_kept _ (by assumption)
  · refine feedMessage_kept _ ?_
    assumption
  · exact feedDisposition_kept _ (by assumption)
  · exact feedMessage_kept _ (by assumption)
  · assumption

theorem feedPrelude_kept {s0 s : State} (rs) (h : Kept s0 s) : Kept s0 (feedPrelude rs s) := by
  unfold feedPrelude
  try dsimp only
  refine Kept.foldl (fun _ _ _ => ?_) ?_
  · exact feedRecord_kept _ (by assumption)
  · assumption

theorem openRecorded_kept {s0 s : State} (rs) (st) (h : Kept s0 s) : Kept s0 (openRecorded rs st s) := by
  unfold openRecorded
  try dsimp only
  refine Kept.foldl (fun _ _ _ => ?_) ?_
  · exact feedRecord_kept _ (by assumption)
  · refine Kept.put ?_ rfl rfl rfl
    refine openBoundary_kept _ ?_
    refine Kept.foldl (fun _ _ _ => ?_) ?_
    · exact feedRecord_kept _ (by assumption)
    · exact feedStep_kept _ (feedPrelude_kept _ (by assumption))

theorem starve_kept {s0 s : State} (h : Kept s0 s) : Kept s0 (starve s) := by
  unfold starve
  try dsimp only
  split
  · assumption
  · exact raise_kept _ (Kept.put (by assumption) rfl rfl rfl)

theorem openReplay_kept {s0 x1 : State} (x0) (h : Kept s0 x1) : Kept s0 (openReplay x0 x1) := by
  induction x0 generalizing x1 with
  | zero =>
    unfold openReplay
    try dsimp only
    assumption
  | succ n ih =>
    unfold openReplay
    try dsimp only
    split
    · assumption
    · split
      · exact starve_kept (by assumption)
      · split
        · exact openRecorded_kept _ _ (Kept.put (by assumption) rfl rfl rfl)
        · apply ih
          exact passStep_kept _ (feedPrelude_kept _ (Kept.put (by assumption) rfl rfl rfl))

theorem endRecorded_kept {s0 s : State} (h : Kept s0 s) : Kept s0 (endRecorded s) := by
  unfold endRecorded
  try dsimp only
  split
  · assumption
  · split
    · exact diverge_kept _ _ _ (passStep_kept _ (by assumption))
    · exact openReplay_kept _ (passStep_kept _ (by assumption))

theorem execCkptTailWrite_kept {s0 s : State} {t} {value}
    (e : execCkptTailWrite value s = .next t) (h : Kept s0 s) : Kept s0 t := by
  unfold execCkptTailWrite at e
  try dsimp only at e
  split at e
  · injection e with e
    subst e
    exact Kept.put (by assumption) rfl rfl rfl
  · injection e with e
    subst e
    assumption

theorem supplyJournal_kept {s0 s : State} (unit) (h : Kept s0 s) : Kept s0 (supplyJournal unit s) := by
  unfold supplyJournal
  try dsimp only
  split
  · exact openReplay_kept _ (Kept.put (by assumption) rfl rfl rfl)
  · exact Kept.put (by assumption) rfl rfl rfl

theorem execJournalHeadWrite_kept {s0 s : State} {t} {value placed}
    (e : execJournalHeadWrite value placed s = .next t) (h : Kept s0 s) : Kept s0 t := by
  unfold execJournalHeadWrite at e
  try dsimp only at e
  split at e
  · injection e with e
    subst e
    exact supplyJournal_kept _ (place_kept _ (by assumption))
  · injection e with e
    subst e
    exact place_kept _ (by assumption)

theorem freeJournal_kept {s0 s : State} (tail) (h : Kept s0 s) : Kept s0 (freeJournal tail s) := by
  unfold freeJournal
  try dsimp only
  exact Kept.put (by assumption) rfl rfl rfl

theorem execJournalTailWrite_kept {s0 s : State} {t} {value}
    (e : execJournalTailWrite value s = .next t) (h : Kept s0 s) : Kept s0 t := by
  unfold execJournalTailWrite at e
  try dsimp only at e
  split at e
  · injection e with e
    subst e
    exact freeJournal_kept _ (by assumption)
  · injection e with e
    subst e
    assumption

theorem execReplayStepComplete_kept {s0 s : State} {t}
    (e : execReplayStepComplete s = .next t) (h : Kept s0 s) : Kept s0 t := by
  unfold execReplayStepComplete at e
  try dsimp only at e
  split at e
  · injection e with e
    subst e
    exact endRecorded_kept (by assumption)
  · injection e with e
    subst e
    assumption

theorem execStepBoundary_kept {s0 s : State} {t} {workNs}
    (e : execStepBoundary workNs s = .next t) (h : Kept s0 s) : Kept s0 t := by
  unfold execStepBoundary at e
  try dsimp only at e
  split at e
  · injection e with e
    subst e
    assumption
  · split at e
    · injection e with e
      subst e
      exact openReplay_kept _ (by assumption)
    · split at e
      · injection e with e
        subst e
        exact realBoundary_kept _ (by assumption)
      · injection e with e
        subst e
        assumption

theorem answer_kept {s0 s : State} (op) (dike) (dest) (window) (gen) (seq) (payload)
    (h : Kept s0 s) : Kept s0 (answer op dike dest window gen seq payload s) := by
  unfold answer
  try dsimp only
  exact queueFrame_kept _ _ (by assumption)

theorem ackComplete_kept {s0 s : State} (p) (h : Kept s0 s) : Kept s0 (ackComplete p s) := by
  unfold ackComplete
  try dsimp only
  exact answer_kept _ _ _ _ _ _ _ (by assumption)

theorem ackPartial_kept {s0 s : State} (m) (h : Kept s0 s) : Kept s0 (ackPartial m s) := by
  unfold ackPartial
  try dsimp only
  exact answer_kept _ _ _ _ _ _ _ (by assumption)

theorem chargeIn_kept {s0 s : State} (p) (h : Kept s0 s) : Kept s0 (chargeIn p s) := by
  unfold chargeIn
  try dsimp only
  split
  · assumption
  · exact charge_kept _ _ _ (by assumption)

theorem chargeSteward_kept {s0 s : State} (n) (m) (h : Kept s0 s) : Kept s0 (chargeSteward n m s).2 := by
  unfold chargeSteward
  try dsimp only
  split
  · dsimp only
    assumption
  · split
    · dsimp only
      exact charge_kept _ _ _ (by assumption)
    · dsimp only
      assumption

theorem fence_kept {s0 s : State} (p) (h : Kept s0 s) : Kept s0 (fence p s) := by
  unfold fence
  try dsimp only
  split
  · split
    · exact freeBelow_kept _ (by assumption)
    · exact setWindow_kept _ _ (freeBelow_kept _ (by assumption))
  · assumption

theorem refuse_kept {s0 s : State} (reason) (p) (h : Kept s0 s) : Kept s0 (refuse reason p s) := by
  unfold refuse
  try dsimp only
  split
  · exact Kept.put (bump_kept _ _ (by assumption)) rfl rfl rfl
  · exact answer_kept _ _ _ _ _ _ _ (Kept.put (bump_kept _ _ (by assumption)) rfl rfl rfl)

theorem countKey_kept {s0 s : State} (p) (h : Kept s0 s) : Kept s0 (countKey p s) := by
  unfold countKey
  try dsimp only
  split
  · exact bump_kept _ _ (by assumption)
  · assumption

theorem reanswer_kept {s0 s : State} (p) (d) (h : Kept s0 s) : Kept s0 (reanswer p d s) := by
  unfold reanswer
  try dsimp only
  split
  · exact queueFrame_kept _ _ (by assumption)
  · exact ackComplete_kept _ (by assumption)

theorem checked_kept {s0 s : State} (p) (act)
    (Hact : ∀ a0, Kept s0 a0 → Kept s0 (act a0)) (h : Kept s0 s) : Kept s0 (checked p act s) := by
  unfold checked
  try dsimp only
  split
  · exact refuse_kept _ _ (fence_kept _ (by assumption))
  · split
    · split
      · split
        · exact refuse_kept _ _ (countKey_kept _ (bump_kept _ _ (fence_kept _ (by assumption))))
        · split
          · exact bump_kept _ _ (fence_kept _ (by assumption))
          · apply Hact
            exact bump_kept _ _ (fence_kept _ (by assumption))
      · exact reanswer_kept _ _ (bump_kept _ _ (fence_kept _ (by assumption)))
    · split
      · exact ackComplete_kept _ (fence_kept _ (by assumption))
      · split
        · exact refuse_kept _ _ (countKey_kept _ (fence_kept _ (by assumption)))
        · split
          · exact fence_kept _ (by assumption)
          · apply Hact
            exact fence_kept _ (by assumption)

theorem countFcs_kept {s0 s : State} (p) (h : Kept s0 s) : Kept s0 (countFcs p s) := by
  unfold countFcs
  try dsimp only
  exact sEvent_kept _ _ _ _ (setPort_kept _ _ (by assumption))

theorem countFec_kept {s0 s : State} (p) (n) (h : Kept s0 s) : Kept s0 (countFec p n s) := by
  unfold countFec
  try dsimp only
  exact sEvent_kept _ _ _ _ (setPort_kept _ _ (by assumption))

theorem countFecLost_kept {s0 s : State} (p) (h : Kept s0 s) : Kept s0 (countFecLost p s) := by
  unfold countFecLost
  try dsimp only
  exact sEvent_kept _ _ _ _ (setPort_kept _ _ (by assumption))

theorem countFrameIn_kept {s0 s : State} (p) (h : Kept s0 s) : Kept s0 (countFrameIn p s) := by
  unfold countFrameIn
  try dsimp only
  exact wEvent_kept _ _ _ _ (wEvent_kept _ _ _ _ (setPort_kept _ _ (by assumption)))

theorem countNotMine_kept {s0 s : State} (p) (h : Kept s0 s) : Kept s0 (countNotMine p s) := by
  unfold countNotMine
  try dsimp only
  exact sEvent_kept _ _ _ _ (setPort_kept _ _ (by assumption))

theorem dropIn_kept {s0 s : State} (m) (h : Kept s0 s) : Kept s0 (dropIn m s) := by
  unfold dropIn
  try dsimp only
  exact Kept.put (by assumption) rfl rfl rfl

theorem dropIntake_kept {s0 s : State} (h : Kept s0 s) : Kept s0 (dropIntake s) := by
  unfold dropIntake
  try dsimp only
  exact raise_kept _ (bump_kept _ _ (by assumption))

theorem receive_kept {s0 s : State} (op) (p) (act)
    (Hact : ∀ a0, Kept s0 a0 → Kept s0 (act a0)) (h : Kept s0 s) : Kept s0 (receive op p act s) := by
  unfold receive
  try dsimp only
  split
  · assumption
  · split
    · exact countFecLost_kept _ (countFec_kept _ _ (by assumption))
    · split
      · exact countFcs_kept _ (countFec_kept _ _ (by assumption))
      · split
        · exact countFrameIn_kept _ (countFec_kept _ _ (by assumption))
        · split
          · exact raise_kept _ (bump_kept _ _ (countFrameIn_kept _ (countFec_kept _ _ (by assumption))))
          · split
            · exact raise_kept _ (chargeIn_kept _ (countFrameIn_kept _ (countFec_kept _ _ (by assumption))))
            · split
              · exact countNotMine_kept _ (chargeIn_kept _ (countFrameIn_kept _ (countFec_kept _ _ (by assumption))))
              · apply Hact
                exact chargeIn_kept _ (countFrameIn_kept _ (countFec_kept _ _ (by assumption)))

theorem policed_kept {s0 s : State} (p) (act)
    (Hact : ∀ a0, Kept s0 a0 → Kept s0 (act a0)) (h : Kept s0 s) : Kept s0 (policed p act s) := by
  unfold policed
  try dsimp only
  split
  · apply Hact
    exact police_kept _ _ (by assumption)
  · exact police_kept _ _ (by assumption)

theorem holdSource_kept {s0 s : State} {t} {n} (e : holdSource n s = some t) (h : Kept s0 s) : Kept s0 t := by
  unfold holdSource at e
  try dsimp only at e
  split at e
  · injection e with e
    subst e
    assumption
  · split at e
    · cases e
    · injection e with e
      subst e
      exact Kept.put (freeOf_kept _ _ (by assumption)) rfl rfl rfl

theorem takeSingle_kept {s0 s : State} (p) (act)
    (Hact : ∀ a0, Kept s0 a0 → Kept s0 (act a0)) (h : Kept s0 s) : Kept s0 (takeSingle p act s) := by
  unfold takeSingle
  try dsimp only
  refine policed_kept _ _ ?_ ?_
  · intro _ _
    split
    · exact dropIntake_kept (by assumption)
    · apply Hact
      exact holdSource_kept (by assumption) (by assumption)
  · assumption

theorem ownObject_kept {s0 s : State} (p) (act)
    (Hact : ∀ a0, Kept s0 a0 → Kept s0 (act a0)) (h : Kept s0 s) : Kept s0 (ownObject p act s) := by
  unfold ownObject
  try dsimp only
  refine forDike_kept _ _ _ ?_ ?_
  · intro _ _
    apply Hact
    assumption
  · assumption

theorem noteDone_kept {s0 s : State} (p) (prior) (h : Kept s0 s) : Kept s0 (noteDone p prior s) := by
  unfold noteDone
  try dsimp only
  exact Kept.put (by assumption) rfl rfl rfl

theorem serveAtomic_kept {s0 s : State} (p) (h : Kept s0 s) : Kept s0 (serveAtomic p s) := by
  unfold serveAtomic
  try dsimp only
  split
  · assumption
  · exact queueFrame_kept _ _ (noteDone_kept _ _ (placeObject_kept _ _ _ (chargeObject_kept _ _ (by assumption))))

theorem execNodorAtomic_kept {s0 s : State} {t} {at_ p}
    (e : execNodorAtomic at_ p s = .next t) (h : Kept s0 s) : Kept s0 t := by
  unfold execNodorAtomic at e
  try dsimp only at e
  injection e with e
  subst e
  refine receive_kept _ _ _ ?_ ?_
  · intro _ _
    refine checked_kept _ _ ?_ ?_
    · intro _ _
      refine takeSingle_kept _ _ ?_ ?_
      · intro _ _
        refine ownObject_kept _ _ ?_ ?_
        · intro _ _
          exact serveAtomic_kept _ (by assumption)
        · assumption
      · assumption
    · assumption
  · exact setNow_kept _ (by assumption)

theorem serveRead_kept {s0 s : State} (p) (h : Kept s0 s) : Kept s0 (serveRead p s) := by
  unfold serveRead
  try dsimp only
  split
  · assumption
  · refine Kept.foldl (fun _ _ _ => ?_) ?_
    · exact queueFrame_kept _ _ (by assumption)
    · exact noteDone_kept _ _ (chargeObject_kept _ _ (by assumption))

theorem execNodorRead_kept {s0 s : State} {t} {at_ p} (e : execNodorRead at_ p s = .next t) (h : Kept s0 s) : Kept s0 t := by
  unfold execNodorRead at e
  try dsimp only at e
  injection e with e
  subst e
  refine receive_kept _ _ _ ?_ ?_
  · intro _ _
    refine checked_kept _ _ ?_ ?_
    · intro _ _
      refine takeSingle_kept _ _ ?_ ?_
      · intro _ _
        refine ownObject_kept _ _ ?_ ?_
        · intro _ _
          exact serveRead_kept _ (by assumption)
        · assumption
      · assumption
    · assumption
  · exact setNow_kept _ (by assumption)

theorem repeatedIn_kept {s0 s : State} (m) (p) (h : Kept s0 s) : Kept s0 (repeatedIn m p s) := by
  unfold repeatedIn
  try dsimp only
  split
  · exact ackPartial_kept _ (by assumption)
  · assumption

theorem finishIn_kept {s0 s : State} (m) (p) (h : Kept s0 s) : Kept s0 (finishIn m p s) := by
  unfold finishIn
  try dsimp only
  split
  · exact raise_kept _ (dropIn_kept _ (by assumption))
  · split
    · exact deliver_kept _ _ (ackComplete_kept _ (noteDone_kept _ _ (dropIn_kept _ (by assumption))))
    · split
      · exact notice_kept _ _ _ _ _ _ (ackComplete_kept _ (noteDone_kept _ _ (dropIn_kept _ (by assumption))))
      · exact ackComplete_kept _ (noteDone_kept _ _ (dropIn_kept _ (by assumption)))

theorem putIn_kept {s0 s : State} (m) (h : Kept s0 s) : Kept s0 (putIn m s) := by
  unfold putIn
  try dsimp only
  exact Kept.put (by assumption) rfl rfl rfl

theorem joinIn_kept {s0 s : State} (m) (p) (h : Kept s0 s) : Kept s0 (joinIn m p s) := by
  unfold joinIn
  try dsimp only
  split
  · exact finishIn_kept _ _ (chargeSteward_kept _ _ (by assumption))
  · split
    · exact ackPartial_kept _ (putIn_kept _ (chargeSteward_kept _ _ (by assumption)))
    · exact putIn_kept _ (chargeSteward_kept _ _ (by assumption))

theorem takeSend_kept {s0 s : State} (p) (h : Kept s0 s) : Kept s0 (takeSend p s) := by
  unfold takeSend
  try dsimp only
  split
  · split
    · exact repeatedIn_kept _ _ (by assumption)
    · exact joinIn_kept _ _ (by assumption)
  · split
    · refine dropIntake_kept ?_
      assumption
    · split
      · exact joinIn_kept _ _ (holdSource_kept (by assumption) (by assumption))
      · exact dropIntake_kept (holdSource_kept (by assumption) (by assumption))

theorem execNodorSend_kept {s0 s : State} {t} {at_ p} (e : execNodorSend at_ p s = .next t) (h : Kept s0 s) : Kept s0 t := by
  unfold execNodorSend at e
  try dsimp only at e
  injection e with e
  subst e
  refine receive_kept _ _ _ ?_ ?_
  · intro _ _
    refine checked_kept _ _ ?_ ?_
    · intro _ _
      exact takeSend_kept _ (by assumption)
    · assumption
  · exact setNow_kept _ (by assumption)

theorem placeWrite_kept {s0 s : State} (p) (h : Kept s0 s) : Kept s0 (placeWrite p s) := by
  unfold placeWrite
  try dsimp only
  refine forDike_kept _ _ _ ?_ ?_
  · intro _ _
    exact placeObject_kept _ _ _ (by assumption)
  · assumption

theorem takeWrite_kept {s0 s : State} (p) (h : Kept s0 s) : Kept s0 (takeWrite p s) := by
  unfold takeWrite
  try dsimp only
  split
  · split
    · exact repeatedIn_kept _ _ (by assumption)
    · refine policed_kept _ _ ?_ ?_
      · intro _ _
        exact joinIn_kept _ _ (placeWrite_kept _ (by assumption))
      · assumption
  · refine policed_kept _ _ ?_ ?_
    · intro _ _
      split
      · exact dropIntake_kept (by assumption)
      · exact joinIn_kept _ _ (placeWrite_kept _ (holdSource_kept (by assumption) (by assumption)))
    · assumption

theorem execNodorWrite_kept {s0 s : State} {t} {at_ p}
    (e : execNodorWrite at_ p s = .next t) (h : Kept s0 s) : Kept s0 t := by
  unfold execNodorWrite at e
  try dsimp only at e
  injection e with e
  subst e
  refine receive_kept _ _ _ ?_ ?_
  · intro _ _
    refine checked_kept _ _ ?_ ?_
    · intro _ _
      exact takeWrite_kept _ (by assumption)
    · assumption
  · exact setNow_kept _ (by assumption)

theorem execPartialAckTimer_kept {s0 s : State} {t} {source msgSeq}
    (e : execPartialAckTimer source msgSeq s = .next t) (h : Kept s0 s) : Kept s0 t := by
  unfold execPartialAckTimer at e
  try dsimp only at e
  split at e
  · injection e with e
    subst e
    assumption
  · injection e with e
    subst e
    exact ackPartial_kept _ (putIn_kept _ (setNow_kept _ (by assumption)))

theorem countFrameOut_kept {s0 s : State} (p) (n) (h : Kept s0 s) : Kept s0 (countFrameOut p n s) := by
  unfold countFrameOut
  try dsimp only
  exact wEvent_kept _ _ _ _ (wEvent_kept _ _ _ _ (setPort_kept _ _ (by assumption)))

theorem execEthernetLinkChange_kept {s0 s : State} {t} {port up}
    (e : execEthernetLinkChange port up s = .next t) (h : Kept s0 s) : Kept s0 t := by
  unfold execEthernetLinkChange at e
  try dsimp only at e
  split at e
  · injection e with e
    subst e
    assumption
  · injection e with e
    subst e
    split
    · exact raise_kept _ (setPort_kept _ _ (by assumption))
    · exact movePort_kept _ (raise_kept _ (setPort_kept _ _ (by assumption)))

theorem settleTicket_kept {s0 s : State} (m) (f)
    (Hf : ∀ a0 a1, Kept s0 a1 → Kept s0 (f a0 a1)) (h : Kept s0 s) : Kept s0 (settleTicket m f s) := by
  unfold settleTicket
  try dsimp only
  split
  · apply Hf
    assumption
  · assumption

theorem execMessageAbandonTimer_kept {s0 s : State} {t} {dest msgSeq}
    (e : execMessageAbandonTimer dest msgSeq s = .next t) (h : Kept s0 s) : Kept s0 t := by
  unfold execMessageAbandonTimer at e
  try dsimp only at e
  split at e
  · injection e with e
    subst e
    assumption
  · split at e
    · injection e with e
      subst e
      assumption
    · injection e with e
      subst e
      refine settleTicket_kept _ _ ?_ ?_
      · intro _ _ _
        exact abandoned_kept _ (by assumption)
      · exact endMsg_kept _ _ (raise_kept _ (bump_kept _ _ (setNow_kept _ (by assumption))))

theorem resend_kept {s0 s : State} (m) (i) (flags) (h : Kept s0 s) : Kept s0 (resend m i flags s) := by
  unfold resend
  try dsimp only
  exact bump_kept _ _ (queuePacket_kept _ _ _ (by assumption))

theorem resendMissing_kept {s0 s : State} (m) (bitmap) (h : Kept s0 s) : Kept s0 (resendMissing m bitmap s) := by
  unfold resendMissing
  try dsimp only
  refine Kept.foldl (fun _ _ _ => ?_) ?_
  · exact resend_kept _ _ _ (by assumption)
  · assumption

theorem takeAck_kept {s0 s : State} (p) (h : Kept s0 s) : Kept s0 (takeAck p s) := by
  unfold takeAck
  try dsimp only
  split
  · assumption
  · split
    · exact resendMissing_kept _ _ (by assumption)
    · split
      · assumption
      · refine settleTicket_kept _ _ ?_ ?_
        · intro _ _ _
          exact done_kept _ (by assumption)
        · exact endMsg_kept _ _ (by assumption)

theorem execNodorAck_kept {s0 s : State} {t} {at_ p} (e : execNodorAck at_ p s = .next t) (h : Kept s0 s) : Kept s0 t := by
  unfold execNodorAck at e
  try dsimp only at e
  injection e with e
  subst e
  refine receive_kept _ _ _ ?_ ?_
  · intro _ _
    exact takeAck_kept _ (by assumption)
  · exact setNow_kept _ (by assumption)

theorem takePrior_kept {s0 s : State} (p) (h : Kept s0 s) : Kept s0 (takePrior p s) := by
  unfold takePrior
  try dsimp only
  split
  · assumption
  · split
    · exact doneWith_kept _ _ _ (endMsg_kept _ _ (by assumption))
    · assumption

theorem execNodorAtomicData_kept {s0 s : State} {t} {at_ p}
    (e : execNodorAtomicData at_ p s = .next t) (h : Kept s0 s) : Kept s0 t := by
  unfold execNodorAtomicData at e
  try dsimp only at e
  injection e with e
  subst e
  refine receive_kept _ _ _ ?_ ?_
  · intro _ _
    exact takePrior_kept _ (by assumption)
  · exact setNow_kept _ (by assumption)

theorem takeNack_kept {s0 s : State} (p) (h : Kept s0 s) : Kept s0 (takeNack p s) := by
  unfold takeNack
  try dsimp only
  split
  · assumption
  · refine settleTicket_kept _ _ ?_ ?_
    · intro _ _ _
      exact reasonWith_kept _ _ (by assumption)
    · exact endMsg_kept _ _ (by assumption)

theorem execNodorNack_kept {s0 s : State} {t} {at_ p} (e : execNodorNack at_ p s = .next t) (h : Kept s0 s) : Kept s0 t := by
  unfold execNodorNack at e
  try dsimp only at e
  injection e with e
  subst e
  refine receive_kept _ _ _ ?_ ?_
  · intro _ _
    exact takeNack_kept _ (by assumption)
  · exact setNow_kept _ (by assumption)

theorem updOut_kept {s0 s : State} (dest) (seq) (f) (h : Kept s0 s) : Kept s0 (updOut dest seq f s) := by
  unfold updOut
  try dsimp only
  exact Kept.put (by assumption) rfl rfl rfl

theorem takeData_kept {s0 s : State} (p) (h : Kept s0 s) : Kept s0 (takeData p s) := by
  unfold takeData
  try dsimp only
  split
  · assumption
  · split
    · split
      · assumption
      · split
        · exact done_kept _ (endMsg_kept _ _ (writeMem_kept _ _ (by assumption)))
        · exact updOut_kept _ _ _ (writeMem_kept _ _ (by assumption))
    · assumption

theorem execNodorReadData_kept {s0 s : State} {t} {at_ p}
    (e : execNodorReadData at_ p s = .next t) (h : Kept s0 s) : Kept s0 t := by
  unfold execNodorReadData at e
  try dsimp only at e
  injection e with e
  subst e
  refine receive_kept _ _ _ ?_ ?_
  · intro _ _
    exact takeData_kept _ (by assumption)
  · exact setNow_kept _ (by assumption)

theorem execResendTimeout_kept {s0 s : State} {t} {at_ dest msgSeq}
    (e : execResendTimeout at_ dest msgSeq s = .next t) (h : Kept s0 s) : Kept s0 t := by
  unfold execResendTimeout at e
  try dsimp only at e
  split at e
  · injection e with e
    subst e
    exact setNow_kept _ (by assumption)
  · split at e
    · injection e with e
      subst e
      exact resend_kept _ _ _ (setNow_kept _ (by assumption))
    · injection e with e
      subst e
      exact setNow_kept _ (by assumption)

theorem takeNonce_kept {s0 s : State} (k) (h : Kept s0 s) : Kept s0 (takeNonce k s).2 := by
  unfold takeNonce
  try dsimp only
  split
  · dsimp only
    assumption
  · split
    · dsimp only
      exact raise_kept _ (Kept.put (by assumption) rfl rfl rfl)
    · dsimp only
      exact Kept.put (by assumption) rfl rfl rfl

theorem keyFor_kept {s0 s : State} (f) (h : Kept s0 s) : Kept s0 (keyFor f s).2 := by
  unfold keyFor
  try dsimp only
  split
  · dsimp only
    assumption
  · dsimp only
    exact takeNonce_kept _ (by assumption)

theorem noteSent_kept {s0 s : State} (f) (h : Kept s0 s) : Kept s0 (noteSent f s) := by
  unfold noteSent
  try dsimp only
  split
  · exact updOut_kept _ _ _ (by assumption)
  · assumption

theorem transmit_kept {s0 s : State} (p) (f) (h : Kept s0 s) : Kept s0 (transmit p f s) := by
  unfold transmit
  try dsimp only
  split
  · exact noteSent_kept _ (keyFor_kept _ (by assumption))
  · exact Kept.put (charge_kept _ _ _ (countFrameOut_kept _ _ (noteSent_kept _ (keyFor_kept _
      (by assumption))))) rfl rfl rfl

theorem execTransmitOpportunity_kept {s0 s : State} {t} {at_ port}
    (e : execTransmitOpportunity at_ port s = .next t) (h : Kept s0 s) : Kept s0 t := by
  unfold execTransmitOpportunity at e
  try dsimp only at e
  split at e
  · injection e with e
    subst e
    split
    · exact nextFrame_kept _ (setNow_kept _ (by assumption))
    · exact transmit_kept _ _ (nextFrame_kept _ (setNow_kept _ (by assumption)))
  · injection e with e
    subst e
    exact setNow_kept _ (by assumption)

theorem spdmRequest_kept {s0 s : State} {u} {t act} (Hact : ∀ a0, Kept s0 a0 → Kept s0 (act a0))
    (e : spdmRequest t act s = .next u) (h : Kept s0 s) : Kept s0 u := by
  unfold spdmRequest at e
  try dsimp only at e
  split at e
  · injection e with e
    subst e
    apply Hact
    assumption
  · injection e with e
    subst e
    assumption

theorem setSpdm_kept {s0 s : State} (t) (c) (h : Kept s0 s) : Kept s0 (setSpdm t c s) := by
  unfold setSpdm
  try dsimp only
  split
  · exact Kept.put (by assumption) rfl rfl rfl
  · exact Kept.put (by assumption) rfl rfl rfl
  · exact Kept.put (by assumption) rfl rfl rfl

theorem spdmFail_kept {s0 s : State} (t) (code) (data) (h : Kept s0 s) : Kept s0 (spdmFail t code data s) := by
  unfold spdmFail
  try dsimp only
  exact raise_kept _ (bump_kept _ _ (setSpdm_kept _ _ (by assumption)))

theorem spdmReady_kept {s0 s : State} {u} {t act} (Hact : ∀ a0 a1, Kept s0 a1 → Kept s0 (act a0 a1))
    (e : spdmReady t act s = .next u) (h : Kept s0 s) : Kept s0 u := by
  unfold spdmReady at e
  try dsimp only at e
  refine spdmRequest_kept ?_ e ?_
  · intro _ _
    split
    · apply Hact
      assumption
    · exact spdmFail_kept _ _ _ (by assumption)
  · assumption

theorem freeBytes_kept {s0 x1 : State} (x0) (h : Kept s0 x1) : Kept s0 (freeBytes x0 x1).2 := by
  induction x0 generalizing x1 with
  | zero =>
    unfold freeBytes
    try dsimp only
    assumption
  | succ n ih =>
    unfold freeBytes
    try dsimp only
    apply ih
    exact freeBelow_kept _ (by assumption)

theorem execChallenge_kept {s0 s : State} {u} {t slot nonce}
    (e : execChallenge t slot nonce s = .next u) (h : Kept s0 s) : Kept s0 u := by
  unfold execChallenge at e
  try dsimp only at e
  refine spdmReady_kept ?_ e ?_
  · intro _ _ _
    split
    · exact spdmFail_kept _ _ _ (by assumption)
    · exact setSpdm_kept _ _ (freeBytes_kept _ (by assumption))
  · assumption

theorem respond_kept {s0 s : State} (t) (c) (request) (response)
    (h : Kept s0 s) : Kept s0 (respond t c request response s) := by
  unfold respond
  try dsimp only
  exact setSpdm_kept _ _ (by assumption)

theorem execGetCapabilities_kept {s0 s : State} {u} {t}
    (e : execGetCapabilities t s = .next u) (h : Kept s0 s) : Kept s0 u := by
  unfold execGetCapabilities at e
  try dsimp only at e
  refine spdmRequest_kept ?_ e ?_
  · intro _ _
    split
    · exact spdmFail_kept _ _ _ (by assumption)
    · exact respond_kept _ _ _ _ (freeBelow_kept _ (freeBelow_kept _ (freeBelow_kept _ (by assumption))))
  · assumption

theorem execGetCertificate_kept {s0 s : State} {u} {t slot offset length}
    (e : execGetCertificate t slot offset length s = .next u) (h : Kept s0 s) : Kept s0 u := by
  unfold execGetCertificate at e
  try dsimp only at e
  refine spdmReady_kept ?_ e ?_
  · intro _ _ _
    split
    · exact spdmFail_kept _ _ _ (by assumption)
    · exact respond_kept _ _ _ _ (by assumption)
  · assumption

theorem execGetDigests_kept {s0 s : State} {u} {t} (e : execGetDigests t s = .next u) (h : Kept s0 s) : Kept s0 u := by
  unfold execGetDigests at e
  try dsimp only at e
  refine spdmReady_kept ?_ e ?_
  · intro _ _ _
    exact respond_kept _ _ _ _ (by assumption)
  · assumption

theorem execGetMeasurements_kept {s0 s : State} {u} {t index signed nonce}
    (e : execGetMeasurements t index signed nonce s = .next u) (h : Kept s0 s) : Kept s0 u := by
  unfold execGetMeasurements at e
  try dsimp only at e
  refine spdmReady_kept ?_ e ?_
  · intro _ _ _
    split
    · exact spdmFail_kept _ _ _ (by assumption)
    · split
      · exact setSpdm_kept _ _ (freeBytes_kept _ (by assumption))
      · exact respond_kept _ _ _ _ (freeBytes_kept _ (by assumption))
  · assumption

theorem execGetVersion_kept {s0 s : State} {u} {t} (e : execGetVersion t s = .next u) (h : Kept s0 s) : Kept s0 u := by
  unfold execGetVersion at e
  try dsimp only at e
  refine spdmRequest_kept ?_ e ?_
  · intro _ _
    exact respond_kept _ _ _ _ (by assumption)
  · assumption

theorem keyProg_kept {s0 s : State} (port) (stream) (blob) (opened)
    (h : Kept s0 s) : Kept s0 (keyProg port stream blob opened s) := by
  unfold keyProg
  try dsimp only
  split
  · exact setSpdm_kept _ _ (takeBlob_kept _ _ _ _ _ (by assumption))
  · split
    · exact Kept.put (setSpdm_kept _ _ (takeBlob_kept _ _ _ _ _ (by assumption))) rfl rfl rfl
    · exact Kept.put (setSpdm_kept _ _ (takeBlob_kept _ _ _ _ _ (by assumption))) rfl rfl rfl

theorem execKeyProg_kept {s0 s : State} {t} {port streamConfigured blob opened}
    (e : execKeyProg port streamConfigured blob opened s = .next t) (h : Kept s0 s) : Kept s0 t := by
  unfold execKeyProg at e
  try dsimp only at e
  split at e
  · split at e
    · injection e with e
      subst e
      exact keyProg_kept _ _ _ _ (by assumption)
    · injection e with e
      subst e
      assumption
  · split at e
    · injection e with e
      subst e
      exact keyProg_kept _ _ _ _ (by assumption)
    · injection e with e
      subst e
      assumption

theorem execNegotiateAlgorithms_kept {s0 s : State} {u} {t version base meas asym}
    (e : execNegotiateAlgorithms t version base meas asym s = .next u) (h : Kept s0 s) : Kept s0 u := by
  unfold execNegotiateAlgorithms at e
  try dsimp only at e
  refine spdmRequest_kept ?_ e ?_
  · intro _ _
    split
    · exact spdmFail_kept _ _ _ (by assumption)
    · split
      · exact spdmFail_kept _ _ _ (by assumption)
      · split
        · refine spdmFail_kept _ _ _ ?_
          assumption
        · exact respond_kept _ _ _ _ (by assumption)
  · assumption

theorem execSpdmUnsupportedRequest_kept {s0 s : State} {u} {t code}
    (e : execSpdmUnsupportedRequest t code s = .next u) (h : Kept s0 s) : Kept s0 u := by
  unfold execSpdmUnsupportedRequest at e
  try dsimp only at e
  refine spdmRequest_kept ?_ e ?_
  · intro _ _
    exact spdmFail_kept _ _ _ (by assumption)
  · assumption

theorem applyCharter_kept {s0 s : State} (region) (h : Kept s0 s) : Kept s0 (applyCharter region s) := by
  unfold applyCharter
  try dsimp only
  exact Kept.put (by assumption) rfl rfl rfl

theorem charterFailed_kept {s0 s : State} (h : Kept s0 s) : Kept s0 (charterFailed s) := by
  unfold charterFailed
  try dsimp only
  exact raise_kept _ (Kept.put (by assumption) rfl rfl rfl)

theorem doCharterWrite_kept {s0 s : State} (a) (h : Kept s0 s) : Kept s0 (doCharterWrite a s) := by
  unfold doCharterWrite
  try dsimp only
  split
  · exact charterFailed_kept (by assumption)
  · exact queueFlash_kept _ (Kept.put (by assumption) rfl rfl rfl)

theorem execCharterWrite_kept {s0 s : State} {t} {placed}
    (e : execCharterWrite placed s = .next t) (h : Kept s0 s) : Kept s0 t := by
  unfold execCharterWrite at e
  try dsimp only at e
  injection e with e
  subst e
  split
  · exact doCharterWrite_kept _ (place_kept _ (by assumption))
  · assumption

theorem execCharterWriteComplete_kept {s0 s : State} {t} {ok}
    (e : execCharterWriteComplete ok s = .next t) (h : Kept s0 s) : Kept s0 t := by
  unfold execCharterWriteComplete at e
  try dsimp only at e
  split at e
  · split at e
    · injection e with e
      subst e
      exact popFlash_kept (raise_kept _ (writeFlash_kept _ _ (Kept.put (by assumption) rfl rfl rfl)))
    · injection e with e
      subst e
      exact popFlash_kept (charterFailed_kept (breakFlash_kept _ (by assumption)))
  · injection e with e
    subst e
    assumption

theorem startQuarantine_kept {s0 s : State} (c) (h : Kept s0 s) : Kept s0 (startQuarantine c s) := by
  unfold startQuarantine
  try dsimp only
  exact bump_kept _ _ (updCore_kept _ _ _ (by assumption))

theorem applyHealth_kept {s0 s : State} (h : Kept s0 s) : Kept s0 (applyHealth s) := by
  unfold applyHealth
  try dsimp only
  refine Kept.foldl (fun _ _ _ => ?_) ?_
  · exact startQuarantine_kept _ (by assumption)
  · assumption

theorem beginStep_kept {s0 s : State} (h : Kept s0 s) : Kept s0 (beginStep s) := by
  unfold beginStep
  try dsimp only
  exact Kept.put (by assumption) rfl rfl rfl

theorem bootMeasure_kept {s0 s : State} (o) (h : Kept s0 s) : Kept s0 (bootMeasure o s) := by
  unfold bootMeasure
  try dsimp only
  exact logEvent_kept _ _ (logEvent_kept _ _ (logEvent_kept _ _ (applyCharter_kept _ (Kept.put (freeBelow_kept _
    (by assumption)) rfl rfl rfl))))

theorem cxlFault_kept {s0 s : State} (h : Kept s0 s) : Kept s0 (cxlFault s) := by
  unfold cxlFault
  try dsimp only
  split
  · exact dropFault_kept _ (by assumption)
  · exact addFault_kept _ (by assumption)

theorem enterRecovery_kept {s0 s : State} (cause) (h : Kept s0 s) : Kept s0 (enterRecovery cause s) := by
  unfold enterRecovery
  try dsimp only
  exact Kept.put (by assumption) rfl rfl rfl

theorem startImage_kept {s0 s : State} (img) (h : Kept s0 s) : Kept s0 (startImage img s) := by
  unfold startImage
  try dsimp only
  exact logEvent_kept _ _ (Kept.put (by assumption) rfl rfl rfl)

theorem execBootRomStart_kept {s0 s : State} {t} {o} (e : execBootRomStart o s = .next t) (h : Kept s0 s) : Kept s0 t := by
  unfold execBootRomStart at e
  try dsimp only at e
  split at e
  · split at e
    · injection e with e
      subst e
      exact enterRecovery_kept _ (bootMeasure_kept _ (by assumption))
    · injection e with e
      subst e
      split
      · exact startImage_kept _ (bootMeasure_kept _ (by assumption))
      · exact enterRecovery_kept _ (refuseImage_kept _ (bootMeasure_kept _ (by assumption)))
  · injection e with e
    subst e
    assumption

theorem execImageStartTimeout_kept {s0 s : State} {t}
    (e : execImageStartTimeout s = .next t) (h : Kept s0 s) : Kept s0 t := by
  unfold execImageStartTimeout at e
  try dsimp only at e
  injection e with e
  subst e
  split
  · exact enterRecovery_kept _ (by assumption)
  · assumption

theorem execPowerStepInterval_kept {s0 s : State} {t}
    (e : execPowerStepInterval s = .next t) (h : Kept s0 s) : Kept s0 t := by
  unfold execPowerStepInterval at e
  try dsimp only at e
  injection e with e
  subst e
  split
  · exact beginStep_kept (by assumption)
  · assumption

theorem recoveryDiscard_kept {s0 s : State} (h : Kept s0 s) : Kept s0 (recoveryDiscard s) := by
  unfold recoveryDiscard
  try dsimp only
  exact Kept.put (by assumption) rfl rfl rfl

theorem execRecoveryAbort_kept {s0 s : State} {t} (e : execRecoveryAbort s = .next t) (h : Kept s0 s) : Kept s0 t := by
  unfold execRecoveryAbort at e
  try dsimp only at e
  injection e with e
  subst e
  split
  · exact recoveryDiscard_kept (by assumption)
  · assumption

theorem recoveryVerify_kept {s0 s : State} (sigOk) (h : Kept s0 s) : Kept s0 (recoveryVerify sigOk s) := by
  unfold recoveryVerify
  try dsimp only
  split
  · exact startImage_kept _ (Kept.put (by assumption) rfl rfl rfl)
  · exact Kept.put (raise_kept _ (refuseImage_kept _ (by assumption))) rfl rfl rfl

theorem execRecoveryFinish_kept {s0 s : State} {t} {sigOk}
    (e : execRecoveryFinish sigOk s = .next t) (h : Kept s0 s) : Kept s0 t := by
  unfold execRecoveryFinish at e
  try dsimp only at e
  injection e with e
  subst e
  split
  · exact recoveryVerify_kept _ (by assumption)
  · assumption

theorem recoveryAppend_kept {s0 s : State} (length) (h : Kept s0 s) : Kept s0 (recoveryAppend length s) := by
  unfold recoveryAppend
  try dsimp only
  split
  · exact Kept.put (by assumption) rfl rfl rfl
  · exact Kept.put (by assumption) rfl rfl rfl

theorem execRecoveryPush_kept {s0 s : State} {t} {length chunk}
    (e : execRecoveryPush length chunk s = .next t) (h : Kept s0 s) : Kept s0 t := by
  unfold execRecoveryPush at e
  try dsimp only at e
  split at e
  · injection e with e
    subst e
    exact recoveryAppend_kept _ (Kept.put (by assumption) rfl rfl rfl)
  · injection e with e
    subst e
    assumption

theorem flashRecovered_kept {s0 s : State} (h : Kept s0 s) : Kept s0 (flashRecovered s) := by
  unfold flashRecovered
  try dsimp only
  split
  · assumption
  · exact queueFlash_kept _ (Kept.put (by assumption) rfl rfl rfl)

theorem portsTrained_kept {s0 s : State} (mask) (h : Kept s0 s) : Kept s0 (portsTrained mask s) := by
  unfold portsTrained
  try dsimp only
  refine Kept.foldl (fun _ _ _ => ?_) ?_
  · split
    · exact raise_kept _ (setPort_kept _ _ (by assumption))
    · assumption
  · assumption

theorem execServiceReached_kept {s0 s : State} {t} {ms portsUp}
    (e : execServiceReached ms portsUp s = .next t) (h : Kept s0 s) : Kept s0 t := by
  unfold execServiceReached at e
  try dsimp only at e
  split at e
  · injection e with e
    subst e
    exact flashRecovered_kept (cxlFault_kept (portsTrained_kept _ (setIntake_kept _ _ (Kept.put
      (by assumption) rfl rfl rfl))))
  · injection e with e
    subst e
    assumption

theorem failLink_kept {s0 s : State} (l) (h : Kept s0 s) : Kept s0 (failLink l s) := by
  unfold failLink
  try dsimp only
  split
  · exact linkConsequence_kept _ (raise_kept _ (setLink_kept _ _ (by assumption)))
  · assumption

theorem failStartCheck_kept {s0 s : State} (c) (h : Kept s0 s) : Kept s0 (failStartCheck c s) := by
  unfold failStartCheck
  try dsimp only
  split
  · exact raise_kept _ (queueFlash_kept _ (startQuarantine_kept _ (updCore_kept _ _ _ (by assumption))))
  · assumption

theorem execStewardStart_kept {s0 s : State} {t} {links failed}
    (e : execStewardStart links failed s = .next t) (h : Kept s0 s) : Kept s0 t := by
  unfold execStewardStart at e
  try dsimp only at e
  split at e
  · split at e
    · injection e with e
      subst e
      refine Kept.put ?_ rfl rfl rfl
      refine Kept.foldl (fun _ _ _ => ?_) ?_
      · exact failStartCheck_kept _ (by assumption)
      · refine applyHealth_kept ?_
        refine Kept.foldl (fun _ _ _ => ?_) ?_
        · exact failLink_kept _ (by assumption)
        · assumption
    · injection e with e
      subst e
      exact Kept.put (by assumption) rfl rfl rfl
  · injection e with e
    subst e
    assumption

theorem beginStart_kept {s0 s : State} (h : Kept s0 s) : Kept s0 (beginStart s) := by
  unfold beginStart
  try dsimp only
  exact Kept.put (by assumption) rfl rfl rfl

theorem setCxl_kept {s0 s : State} (port) (p) (h : Kept s0 s) : Kept s0 (setCxl port p s) := by
  unfold setCxl
  try dsimp only
  split
  · exact Kept.put (by assumption) rfl rfl rfl
  · exact Kept.put (by assumption) rfl rfl rfl

theorem changeCxl_kept {s0 s : State} (port) (p) (h : Kept s0 s) : Kept s0 (changeCxl port p s) := by
  unfold changeCxl
  try dsimp only
  split
  · exact setCxl_kept _ _ (by assumption)
  · split
    · exact serveRings_kept (cxlFault_kept (raise_kept _ (setCxl_kept _ _ (by assumption))))
    · exact raise_kept _ (setCxl_kept _ _ (by assumption))

theorem sendNext_kept {s0 x2 : State} (p) (x1) (h : Kept s0 x2) : Kept s0 (sendNext p x1 x2) := by
  induction x1 generalizing x2 with
  | zero =>
    unfold sendNext
    try dsimp only
    assumption
  | succ n ih =>
    unfold sendNext
    try dsimp only
    split
    · exact Kept.of_snd (by assumption) (nextFrame_kept _ (by assumption))
    · apply ih
      exact transmit_kept _ _ (Kept.of_snd (by assumption) (nextFrame_kept _ (by assumption)))

theorem drainSteps_kept {s0 s : State} (h : Kept s0 s) : Kept s0 (drainSteps s) := by
  unfold drainSteps
  try dsimp only
  refine Kept.foldl (fun _ _ _ => ?_) ?_
  · split
    · exact sendNext_kept _ _ (by assumption)
    · assumption
  · assumption

theorem supplyAt_kept {s0 s : State} (at_) (h : Kept s0 s) : Kept s0 (supplyAt at_ s) := by
  unfold supplyAt
  try dsimp only
  split
  · exact setNow_kept _ (by assumption)
  · assumption

theorem failBatches_kept {s0 s : State} (h : Kept s0 s) : Kept s0 (failBatches s) := by
  unfold failBatches
  try dsimp only
  split
  · refine sendBatches_kept _ ?_
    refine Kept.foldl (fun _ _ _ => ?_) ?_
    · exact addNotice_kept _ _ _ _ (by assumption)
    · exact Kept.put (by assumption) rfl rfl rfl
  · assumption

theorem powerOff_counters (s : State) : (powerOff s).counters = [] := rfl

theorem powerOff_kept {s0 s : State} (h : Kept s0 s) : Kept s0 (powerOff s) := by
  refine (loseFlash_kept h).trans ⟨rfl, rfl, rfl, rfl, le_refl _, le_refl _, wf_filter _ _, fun _ x hx => ?_,
    fun _ => Nat.zero_le _, fun _ => Nat.zero_le _, id⟩
  rw [powerOff_counters] at hx
  exact absurd hx List.not_mem_nil

theorem lastEntries_length {α : Type} (l : List α) (n : Nat) : (l.drop (l.length - n)).length ≤ n := by
  rw [List.length_drop]; omega

theorem logPower_kept {s0 s : State} (event) (cause) (h : Kept s0 s) : Kept s0 (logPower event cause s) := by
  unfold logPower
  split
  · refine h.trans ⟨rfl, rfl, rfl, rfl, le_refl _, le_refl _, id, id, id, fun _ => ?_, id⟩
    dsimp only
    exact lastEntries_length _ _
  · exact h

theorem powerFail_kept {s0 s : State} (cause) (h : Kept s0 s) : Kept s0 (powerFail cause s) := by
  unfold powerFail
  try dsimp only
  split
  · assumption
  · refine Kept.put ?_ rfl rfl rfl
    refine powerOff_kept ?_
    refine logPower_kept _ _ ?_
    split
    · exact drainSteps_kept (failBatches_kept (drainSteps_kept (by assumption)))
    · assumption

theorem execBankReserveReached_kept {s0 s : State} {t} {at_}
    (e : execBankReserveReached at_ s = .next t) (h : Kept s0 s) : Kept s0 t := by
  unfold execBankReserveReached at e
  try dsimp only at e
  injection e with e
  subst e
  exact powerFail_kept _ (Kept.put (supplyAt_kept _ (by assumption)) rfl rfl rfl)

theorem switchOff_kept {s0 s : State} (h : Kept s0 s) : Kept s0 (switchOff s) := by
  refine (powerOff_kept h).trans ⟨rfl, rfl, rfl, rfl, le_refl _, le_refl _, id, id, id, id, fun _ => ?_⟩
  exact Nat.min_le_left _ _

theorem execBrownWarnTimeout_kept {s0 s : State} {t} (e : execBrownWarnTimeout s = .next t) (h : Kept s0 s) : Kept s0 t := by
  unfold execBrownWarnTimeout at e
  try dsimp only at e
  injection e with e
  subst e
  split
  · exact switchOff_kept (by assumption)
  · assumption

theorem execCxlLinkChange_kept {s0 s : State} {t} {port rate width}
    (e : execCxlLinkChange port rate width s = .next t) (h : Kept s0 s) : Kept s0 t := by
  unfold execCxlLinkChange at e
  try dsimp only at e
  injection e with e
  subst e
  split
  · split
    · exact changeCxl_kept _ _ (by assumption)
    · exact changeCxl_kept _ _ (by assumption)
  · assumption

theorem execDynamicAddressAssignment_kept {s0 s : State} {t} {address}
    (e : execDynamicAddressAssignment address s = .next t) (h : Kept s0 s) : Kept s0 t := by
  unfold execDynamicAddressAssignment at e
  try dsimp only at e
  injection e with e
  subst e
  split
  · exact Kept.put (by assumption) rfl rfl rfl
  · assumption

theorem manage_kept {s0 s : State} (bs) (h : Kept s0 s) : Kept s0 (manage bs s) := by
  unfold manage
  try dsimp only
  split
  · exact Kept.put (by assumption) rfl rfl rfl
  · assumption

theorem execGetIdentity_kept {s0 s : State} {t} (e : execGetIdentity s = .next t) (h : Kept s0 s) : Kept s0 t := by
  unfold execGetIdentity at e
  try dsimp only at e
  injection e with e
  subst e
  exact manage_kept _ (by assumption)

theorem execGetPowerLog_kept {s0 s : State} {t} (e : execGetPowerLog s = .next t) (h : Kept s0 s) : Kept s0 t := by
  unfold execGetPowerLog at e
  try dsimp only at e
  injection e with e
  subst e
  exact manage_kept _ (by assumption)

theorem execGetSensors_kept {s0 s : State} {t} {v} (e : execGetSensors v s = .next t) (h : Kept s0 s) : Kept s0 t := by
  unfold execGetSensors at e
  try dsimp only at e
  injection e with e
  subst e
  exact manage_kept _ (by assumption)

theorem execIdeIntegrityFailure_kept {s0 s : State} {t} {port}
    (e : execIdeIntegrityFailure port s = .next t) (h : Kept s0 s) : Kept s0 t := by
  unfold execIdeIntegrityFailure at e
  try dsimp only at e
  injection e with e
  subst e
  split
  · exact changeCxl_kept _ _ (by assumption)
  · assumption

theorem setVolts_kept {s0 s : State} (v) (h : Kept s0 s) : Kept s0 (setVolts v s) := by
  unfold setVolts
  try dsimp only
  exact Kept.put (by assumption) rfl rfl rfl

theorem execInputLow_kept {s0 s : State} {t} {at_ volts10mV bank}
    (e : execInputLow at_ volts10mV bank s = .next t) (h : Kept s0 s) : Kept s0 t := by
  unfold execInputLow at e
  try dsimp only at e
  injection e with e
  subst e
  split
  · exact logPower_kept _ _ (Kept.put (setVolts_kept _ (supplyAt_kept _ (by assumption))) rfl rfl rfl)
  · exact Kept.put (setVolts_kept _ (supplyAt_kept _ (by assumption))) rfl rfl rfl

theorem execInputReconnect_kept {s0 s : State} {t} {at_}
    (e : execInputReconnect at_ s = .next t) (h : Kept s0 s) : Kept s0 t := by
  unfold execInputReconnect at e
  try dsimp only at e
  split at e
  · injection e with e
    subst e
    split
    · split
      · refine beginStart_kept ?_
        refine Kept.put ?_ rfl rfl rfl
        dsimp only
        exact supplyAt_kept _ (by assumption)
      · refine Kept.put ?_ rfl rfl rfl
        dsimp only
        exact supplyAt_kept _ (by assumption)
    · split
      · refine beginStart_kept ?_
        refine Kept.put ?_ rfl rfl rfl
        dsimp only
        exact freeBelow_kept _ (supplyAt_kept _ (by assumption))
      · refine Kept.put ?_ rfl rfl rfl
        dsimp only
        exact freeBelow_kept _ (supplyAt_kept _ (by assumption))
  · injection e with e
    subst e
    assumption

theorem execInputRestored_kept {s0 s : State} {t} {at_ volts10mV bank}
    (e : execInputRestored at_ volts10mV bank s = .next t) (h : Kept s0 s) : Kept s0 t := by
  unfold execInputRestored at e
  try dsimp only at e
  injection e with e
  subst e
  split
  · exact logPower_kept _ _ (Kept.put (setVolts_kept _ (supplyAt_kept _ (by assumption))) rfl rfl rfl)
  · exact Kept.put (setVolts_kept _ (supplyAt_kept _ (by assumption))) rfl rfl rfl

theorem execOvervoltage_kept {s0 s : State} {t} {at_ volts10mV}
    (e : execOvervoltage at_ volts10mV s = .next t) (h : Kept s0 s) : Kept s0 t := by
  unfold execOvervoltage at e
  try dsimp only at e
  split at e
  · injection e with e
    subst e
    exact powerFail_kept _ (logPower_kept _ _ (Kept.put (setVolts_kept _ (supplyAt_kept _
      (by assumption))) rfl rfl rfl))
  · injection e with e
    subst e
    exact setVolts_kept _ (supplyAt_kept _ (by assumption))

theorem execPerstAssert_kept {s0 s : State} {t} {port}
    (e : execPerstAssert port s = .next t) (h : Kept s0 s) : Kept s0 t := by
  unfold execPerstAssert at e
  try dsimp only at e
  injection e with e
  subst e
  split
  · exact changeCxl_kept _ _ (by assumption)
  · assumption

theorem execPowerOver_kept {s0 s : State} {t} {at_ watts}
    (e : execPowerOver at_ watts s = .next t) (h : Kept s0 s) : Kept s0 t := by
  unfold execPowerOver at e
  try dsimp only at e
  injection e with e
  subst e
  split
  · exact logPower_kept _ _ (raise_kept _ (bump_kept _ _ (supplyAt_kept _ (by assumption))))
  · exact supplyAt_kept _ (by assumption)

theorem execPwrGoodFall_kept {s0 s : State} {t} {at_ lowUs}
    (e : execPwrGoodFall at_ lowUs s = .next t) (h : Kept s0 s) : Kept s0 t := by
  unfold execPwrGoodFall at e
  try dsimp only at e
  injection e with e
  subst e
  split
  · exact switchOff_kept (Kept.put (logPower_kept _ _ (supplyAt_kept _ (by assumption))) rfl rfl rfl)
  · split
    · exact powerFail_kept _ (Kept.put (logPower_kept _ _ (supplyAt_kept _ (by assumption))) rfl rfl rfl)
    · exact Kept.put (logPower_kept _ _ (supplyAt_kept _ (by assumption))) rfl rfl rfl

theorem execPwrGoodRise_kept {s0 s : State} {t} (e : execPwrGoodRise s = .next t) (h : Kept s0 s) : Kept s0 t := by
  unfold execPwrGoodRise at e
  try dsimp only at e
  injection e with e
  subst e
  split
  · exact beginStart_kept (Kept.put (by assumption) rfl rfl rfl)
  · exact Kept.put (by assumption) rfl rfl rfl

theorem execThermalExcursionEnd_kept {s0 s : State} {t} {die}
    (e : execThermalExcursionEnd die s = .next t) (h : Kept s0 s) : Kept s0 t := by
  unfold execThermalExcursionEnd at e
  try dsimp only at e
  injection e with e
  subst e
  exact Kept.put (by assumption) rfl rfl rfl

theorem execThermalHigh_kept {s0 s : State} {t} {at_ die}
    (e : execThermalHigh at_ die s = .next t) (h : Kept s0 s) : Kept s0 t := by
  unfold execThermalHigh at e
  try dsimp only at e
  injection e with e
  subst e
  split
  · exact logPower_kept _ _ (Kept.put (supplyAt_kept _ (by assumption)) rfl rfl rfl)
  · exact supplyAt_kept _ (by assumption)

theorem execThermalTrip_kept {s0 s : State} {t} {at_ die}
    (e : execThermalTrip at_ die s = .next t) (h : Kept s0 s) : Kept s0 t := by
  unfold execThermalTrip at e
  try dsimp only at e
  injection e with e
  subst e
  split
  · exact powerFail_kept _ (logPower_kept _ _ (supplyAt_kept _ (by assumption)))
  · exact supplyAt_kept _ (by assumption)

theorem acknowledge_kept {s0 s : State} (a) (v) (h : Kept s0 s) : Kept s0 (acknowledge a v s) := by
  unfold acknowledge
  try dsimp only
  split
  · split
    · exact setStatus_kept _ _ (by assumption)
    · exact bump_kept _ _ (by assumption)
  · assumption

theorem keepWord_kept {s0 s : State} (block) (off) (v) (h : Kept s0 s) : Kept s0 (keepWord block off v s) := by
  unfold keepWord
  try dsimp only
  exact Kept.put (by assumption) rfl rfl rfl

theorem writeRecovery_kept {s0 s : State} (v) (h : Kept s0 s) : Kept s0 (writeRecovery v s) := by
  unfold writeRecovery
  try dsimp only
  split
  · split
    · split
      · split
        · exact recoveryDiscard_kept (recoveryVerify_kept _ (freeBelow_kept _ (recoveryAppend_kept _
            (keepWord_kept _ _ _ (by assumption)))))
        · exact recoveryVerify_kept _ (freeBelow_kept _ (recoveryAppend_kept _ (keepWord_kept _ _ _ (by assumption))))
      · split
        · exact recoveryDiscard_kept (recoveryVerify_kept _ (freeBelow_kept _ (keepWord_kept _ _ _ (by assumption))))
        · exact recoveryVerify_kept _ (freeBelow_kept _ (keepWord_kept _ _ _ (by assumption)))
    · split
      · split
        · exact recoveryDiscard_kept (recoveryAppend_kept _ (keepWord_kept _ _ _ (by assumption)))
        · exact recoveryAppend_kept _ (keepWord_kept _ _ _ (by assumption))
      · split
        · exact recoveryDiscard_kept (keepWord_kept _ _ _ (by assumption))
        · exact keepWord_kept _ _ _ (by assumption)
  · exact keepWord_kept _ _ _ (by assumption)

theorem writeBase_kept {s0 s : State} (r) (k) (v) (h : Kept s0 s) : Kept s0 (writeBase r k v s) := by
  unfold writeBase
  try dsimp only
  split
  · assumption
  · exact setRing_kept _ _ (by assumption)

theorem writeRing_kept {s0 s : State} (off) (v) (h : Kept s0 s) : Kept s0 (writeRing off v s) := by
  unfold writeRing
  try dsimp only
  split
  · split
    · exact ringControl_kept _ _ (by assumption)
    · exact writeBase_kept _ _ _ (by assumption)
    · refine writeBase_kept _ _ _ ?_
      assumption
    · exact writeBase_kept _ _ _ (by assumption)
    · exact writeBase_kept _ _ _ (by assumption)
    · assumption
  · split
    · split
      · exact doorbell_kept _ _ (by assumption)
      · exact consumed_kept _ _ (by assumption)
    · assumption

theorem writePointer_kept {s0 s : State} (off) (v) (h : Kept s0 s) : Kept s0 (writePointer off v s) := by
  unfold writePointer
  try dsimp only
  split
  · exact Kept.put (by assumption) rfl rfl rfl
  · split
    · exact supplyJournal_kept _ (by assumption)
    · assumption
  · split
    · exact freeJournal_kept _ (by assumption)
    · assumption
  · assumption

theorem setLatch_kept {s0 s : State} (block) (base) (bs) (h : Kept s0 s) : Kept s0 (setLatch block base bs s) := by
  unfold setLatch
  try dsimp only
  exact Kept.put (by assumption) rfl rfl rfl

theorem latchReport_kept {s0 s : State} (v) (h : Kept s0 s) : Kept s0 (latchReport v s) := by
  unfold latchReport
  try dsimp only
  exact setLatch_kept _ _ _ (by assumption)

theorem latchPort_kept {s0 s : State} (v) (h : Kept s0 s) : Kept s0 (latchPort v s) := by
  unfold latchPort
  try dsimp only
  exact setLatch_kept _ _ _ (by assumption)

theorem latchWindow_kept {s0 s : State} (v) (h : Kept s0 s) : Kept s0 (latchWindow v s) := by
  unfold latchWindow
  try dsimp only
  exact setLatch_kept _ _ _ (by assumption)

theorem latchQueue_kept {s0 s : State} (v) (h : Kept s0 s) : Kept s0 (latchQueue v s) := by
  unfold latchQueue
  try dsimp only
  exact setLatch_kept _ _ _ (by assumption)

theorem latchPolicer_kept {s0 s : State} (v) (h : Kept s0 s) : Kept s0 (latchPolicer v s) := by
  unfold latchPolicer
  try dsimp only
  exact setLatch_kept _ _ _ (by assumption)

theorem latchEntry_kept {s0 s : State} (v) (h : Kept s0 s) : Kept s0 (latchEntry v s) := by
  unfold latchEntry
  try dsimp only
  exact Kept.put (by assumption) rfl rfl rfl

theorem latchOwner_kept {s0 s : State} (v) (h : Kept s0 s) : Kept s0 (latchOwner v s) := by
  unfold latchOwner
  try dsimp only
  exact setLatch_kept _ _ _ (by assumption)

theorem latchDesc_kept {s0 s : State} (v) (h : Kept s0 s) : Kept s0 (latchDesc v s) := by
  unfold latchDesc
  try dsimp only
  exact setLatch_kept _ _ _ (by assumption)

theorem latchSegment_kept {s0 s : State} (v) (h : Kept s0 s) : Kept s0 (latchSegment v s) := by
  unfold latchSegment
  try dsimp only
  exact setLatch_kept _ _ _ (by assumption)

theorem latchTable_kept {s0 s : State} (v) (h : Kept s0 s) : Kept s0 (latchTable v s) := by
  unfold latchTable
  try dsimp only
  split
  · exact setLatch_kept _ _ _ (setLatch_kept _ _ _ (by assumption))
  · exact setLatch_kept _ _ _ (setLatch_kept _ _ _ (by assumption))

theorem latchKey_kept {s0 s : State} (v) (h : Kept s0 s) : Kept s0 (latchKey v s) := by
  unfold latchKey
  try dsimp only
  exact Kept.put (by assumption) rfl rfl rfl

theorem latchCore_kept {s0 s : State} (v) (h : Kept s0 s) : Kept s0 (latchCore v s) := by
  unfold latchCore
  try dsimp only
  exact setLatch_kept _ _ _ (by assumption)

theorem latchAcct_kept {s0 s : State} (v) (h : Kept s0 s) : Kept s0 (latchAcct v s) := by
  unfold latchAcct
  try dsimp only
  exact setLatch_kept _ _ _ (by assumption)

theorem latchFor_kept {s0 s : State} (block) (off) (v) (h : Kept s0 s) : Kept s0 (latchFor block off v s) := by
  unfold latchFor
  try dsimp only
  split
  · exact latchReport_kept _ (by assumption)
  · exact latchPort_kept _ (by assumption)
  · refine latchWindow_kept _ ?_
    assumption
  · exact latchQueue_kept _ (by assumption)
  · exact latchPolicer_kept _ (by assumption)
  · exact latchEntry_kept _ (by assumption)
  · refine latchOwner_kept _ ?_
    assumption
  · exact latchDesc_kept _ (by assumption)
  · refine latchSegment_kept _ ?_
    assumption
  · exact latchTable_kept _ (by assumption)
  · refine latchKey_kept _ ?_
    assumption
  · exact latchCore_kept _ (by assumption)
  · exact latchAcct_kept _ (by assumption)
  · assumption

theorem writeIndex_kept {s0 s : State} (block) (off) (v) (h : Kept s0 s) : Kept s0 (writeIndex block off v s) := by
  unfold writeIndex
  try dsimp only
  split
  · exact latchFor_kept _ _ _ (keepWord_kept _ _ _ (by assumption))
  · exact keepWord_kept _ _ _ (by assumption)

theorem writeWord_kept {s0 s : State} (block) (off) (v) (h : Kept s0 s) : Kept s0 (writeWord block off v s) := by
  unfold writeWord
  try dsimp only
  split
  · assumption
  · split
    · exact acknowledge_kept _ _ (by assumption)
    · split
      · exact keepWord_kept _ _ _ (by assumption)
      · refine keepWord_kept _ _ _ ?_
        assumption
      · split
        · exact doCharterWrite_kept _ (by assumption)
        · assumption
      · exact writeRecovery_kept _ (by assumption)
      · exact writeRing_kept _ _ (by assumption)
      · split
        · refine snapshot_kept ?_
          assumption
        · assumption
      · exact writePointer_kept _ _ (by assumption)
      · exact writePointer_kept _ _ (by assumption)
      · refine writePointer_kept _ _ ?_
        assumption
      · split
        · assumption
        · exact writeIndex_kept _ _ _ (by assumption)

theorem writeBit_kept {s0 s : State} (block) (off) (bit) (v) (h : Kept s0 s) : Kept s0 (writeBit block off bit v s) := by
  unfold writeBit
  try dsimp only
  split
  · assumption
  · split
    · split
      · exact writeWord_kept _ _ _ (by assumption)
      · assumption
    · split
      · exact writeWord_kept _ _ _ (by assumption)
      · assumption

theorem writeWindow_kept {s0 s : State} (off) (v) (h : Kept s0 s) : Kept s0 (writeWindow off v s) := by
  unfold writeWindow
  try dsimp only
  split
  · exact Kept.put (by assumption) rfl rfl rfl
  · assumption

theorem busWrite_kept {s0 s : State} (addr) (v) (h : Kept s0 s) : Kept s0 (busWrite addr v s) := by
  unfold busWrite
  try dsimp only
  split
  · exact writeWord_kept _ _ _ (by assumption)
  · exact writeBit_kept _ _ _ _ (by assumption)
  · refine writeWindow_kept _ _ ?_
    assumption
  · assumption

theorem execAliasBitWrite_kept {s0 s : State} {t} {addr value}
    (e : execAliasBitWrite addr value s = .next t) (h : Kept s0 s) : Kept s0 t := by
  unfold execAliasBitWrite at e
  try dsimp only at e
  injection e with e
  subst e
  split
  · split
    · exact writeBit_kept _ _ _ _ (by assumption)
    · assumption
  · assumption

theorem indexWrite_kept {s0 s : State} {t} {block off value}
    (e : indexWrite block off value s = .next t) (h : Kept s0 s) : Kept s0 t := by
  unfold indexWrite at e
  try dsimp only at e
  injection e with e
  subst e
  split
  · exact writeIndex_kept _ _ _ (by assumption)
  · assumption

theorem execCmpTableLatch_kept {s0 s : State} {t} {value}
    (e : execCmpTableLatch value s = .next t) (h : Kept s0 s) : Kept s0 t := by
  unfold execCmpTableLatch at e
  try dsimp only at e
  exact indexWrite_kept e (by assumption)

theorem execFabPortLatch_kept {s0 s : State} {t} {value}
    (e : execFabPortLatch value s = .next t) (h : Kept s0 s) : Kept s0 t := by
  unfold execFabPortLatch at e
  try dsimp only at e
  exact indexWrite_kept e (by assumption)

theorem execFabWinLatch_kept {s0 s : State} {t} {value}
    (e : execFabWinLatch value s = .next t) (h : Kept s0 s) : Kept s0 t := by
  unfold execFabWinLatch at e
  try dsimp only at e
  exact indexWrite_kept e (by assumption)

theorem execHltAcctLatch_kept {s0 s : State} {t} {value}
    (e : execHltAcctLatch value s = .next t) (h : Kept s0 s) : Kept s0 t := by
  unfold execHltAcctLatch at e
  try dsimp only at e
  exact indexWrite_kept e (by assumption)

theorem execHltCoreLatch_kept {s0 s : State} {t} {value}
    (e : execHltCoreLatch value s = .next t) (h : Kept s0 s) : Kept s0 t := by
  unfold execHltCoreLatch at e
  try dsimp only at e
  exact indexWrite_kept e (by assumption)

theorem execPgmInspectLatch_kept {s0 s : State} {t} {value}
    (e : execPgmInspectLatch value s = .next t) (h : Kept s0 s) : Kept s0 t := by
  unfold execPgmInspectLatch at e
  try dsimp only at e
  exact indexWrite_kept e (by assumption)

theorem unmapped_kept {s0 s : State} (h : Kept s0 s) : Kept s0 (unmapped s) := by
  unfold unmapped
  try dsimp only
  exact raise_kept _ (bump_kept _ _ (by assumption))

theorem execRegisterWrite_kept {s0 s : State} {t} {addr value byteEnables}
    (e : execRegisterWrite addr value byteEnables s = .next t) (h : Kept s0 s) : Kept s0 t := by
  unfold execRegisterWrite at e
  try dsimp only at e
  injection e with e
  subst e
  split
  · assumption
  · split
    · exact unmapped_kept (by assumption)
    · split
      · exact busWrite_kept _ _ (by assumption)
      · assumption

theorem execSecKeyLatch_kept {s0 s : State} {t} {value}
    (e : execSecKeyLatch value s = .next t) (h : Kept s0 s) : Kept s0 t := by
  unfold execSecKeyLatch at e
  try dsimp only at e
  exact indexWrite_kept e (by assumption)

theorem execSlcInspectLatch_kept {s0 s : State} {t} {value}
    (e : execSlcInspectLatch value s = .next t) (h : Kept s0 s) : Kept s0 t := by
  unfold execSlcInspectLatch at e
  try dsimp only at e
  exact indexWrite_kept e (by assumption)

theorem execSqsInspectLatch_kept {s0 s : State} {t} {value}
    (e : execSqsInspectLatch value s = .next t) (h : Kept s0 s) : Kept s0 t := by
  unfold execSqsInspectLatch at e
  try dsimp only at e
  exact indexWrite_kept e (by assumption)

theorem execStatusAck_kept {s0 s : State} {t} {addr value}
    (e : execStatusAck addr value s = .next t) (h : Kept s0 s) : Kept s0 t := by
  unfold execStatusAck at e
  try dsimp only at e
  injection e with e
  subst e
  split
  · split
    · exact acknowledge_kept _ _ (by assumption)
    · assumption
  · assumption

theorem execStwReportLatch_kept {s0 s : State} {t} {value}
    (e : execStwReportLatch value s = .next t) (h : Kept s0 s) : Kept s0 t := by
  unfold execStwReportLatch at e
  try dsimp only at e
  exact indexWrite_kept e (by assumption)

theorem execTirSegLatch_kept {s0 s : State} {t} {value}
    (e : execTirSegLatch value s = .next t) (h : Kept s0 s) : Kept s0 t := by
  unfold execTirSegLatch at e
  try dsimp only at e
  exact indexWrite_kept e (by assumption)

theorem execUnmappedAccess_kept {s0 s : State} {t} {addr}
    (e : execUnmappedAccess addr s = .next t) (h : Kept s0 s) : Kept s0 t := by
  unfold execUnmappedAccess at e
  try dsimp only at e
  injection e with e
  subst e
  split
  · exact unmapped_kept (by assumption)
  · assumption

theorem execWeiPolLatch_kept {s0 s : State} {t} {at_ value}
    (e : execWeiPolLatch at_ value s = .next t) (h : Kept s0 s) : Kept s0 t := by
  unfold execWeiPolLatch at e
  try dsimp only at e
  refine indexWrite_kept e ?_
  split
  · exact setNow_kept _ (by assumption)
  · assumption

theorem execWeiQLatch_kept {s0 s : State} {t} {value} (e : execWeiQLatch value s = .next t) (h : Kept s0 s) : Kept s0 t := by
  unfold execWeiQLatch at e
  try dsimp only at e
  exact indexWrite_kept e (by assumption)

end Sys2Proof.Machine
end

