-- ==== Sys2Proof/WellFormed.lean ====
section
/-! DEFINITION. Which commands are well formed: every operand within the width of the field, the table or the bus it comes
from. A command that is not well formed is none that the block can meet; `exec` is total on those as well. -/

namespace Sys2Proof

/-- Below `2 ^ n`. -/
def fitsBits (n v : Nat) : Bool := decide (v < 2 ^ n)

/-- Bytes placed lie in the device's address space or in host memory (R209, R359, R362). -/
def Placed.wf (p : Placed) : Bool := p.all (fun x => fitsBits 65 x.1)

/-- A port of the fabric (R253). -/
def portWf (p : Nat) : Bool := decide (p < 8)

/-- A die of the module: eight C, four B, two M, four F, H and S (R39). -/
def dieWf (d : Nat) : Bool := decide (d < 20)

/-- A compute die (R39). -/
def cDieWf (d : Nat) : Bool := decide (d < 8)

/-- A physical core of a compute die (R338). -/
def coreWf (c : Nat) : Bool := decide (c < 34)

def Announce.wf (a : Announce) : Bool :=
  fitsBits 8 a.domain && fitsBits 8 a.priority1 && fitsBits 8 a.clockClass && fitsBits 8 a.accuracy && fitsBits 16 a.variance &&
  fitsBits 8 a.priority2 && fitsBits 64 a.identity && fitsBits 16 a.steps

/-- A message of a dike (R256) with between 1 and 16,842,752 bytes. -/
def MsgIn.wf (m : MsgIn) : Bool :=
  portWf m.port && fitsBits 32 m.source && fitsBits 8 m.dike && decide (0 < m.bytes.length) &&
  decide (m.bytes.length ≤ 16842752)

/-- Every field of the header within its width (R256); the payload at most 4,112 bytes. -/
def Packet.wf (p : Packet) : Bool :=
  portWf p.port && fitsBits 16 p.frameLen && fitsBits 16 p.etherType && fitsBits 16 p.vlan && fitsBits 4 p.version &&
  fitsBits 8 p.opcode && fitsBits 3 p.flags && fitsBits 8 p.dike && fitsBits 1 p.keyIndex && fitsBits 3 p.cls &&
  fitsBits 32 p.source && fitsBits 32 p.dest && fitsBits 20 p.window && fitsBits 12 p.gen && fitsBits 64 p.key &&
  fitsBits 32 p.winOffset && fitsBits 32 p.msgSeq && fitsBits 32 p.msgLen && fitsBits 12 p.index &&
  decide (0 < p.count ∧ p.count ≤ 4096) && fitsBits 32 p.pktOffset && decide (p.payload.length ≤ 4112)

/-- Numbers within their fields; rows within 512 (R100); values of at most 16 bits, as the formats of R66 have them. -/
def Hidden.wf (h : Hidden) : Bool :=
  portWf h.port && fitsBits 32 h.source && fitsBits 32 h.sseq && fitsBits 32 h.handle && fitsBits 32 h.epoch &&
  fitsBits 32 h.compEpoch && fitsBits 6 h.context && fitsBits 8 h.layer && fitsBits 48 h.step && fitsBits 32 h.firstPos &&
  decide (h.rows.length ≤ 512) && h.rows.all (fun r => r.all (fitsBits 16)) && decide (h.damage ≤ 6)

def Sampling.wf (x : Sampling) : Bool :=
  fitsBits 32 x.temperature && fitsBits 32 x.topP && fitsBits 16 x.topK && fitsBits 64 x.seed

def Request.wf (r : Request) : Bool :=
  portWf r.port && fitsBits 32 r.gateway && fitsBits 32 r.sseq && fitsBits 8 r.tenant && fitsBits 64 r.requestId &&
  fitsBits 6 r.context && fitsBits 8 r.adapter && fitsBits 2 r.cls && (r.parent.all (fitsBits 32)) && fitsBits 32 r.lP &&
  fitsBits 32 r.maxNew && fitsBits 48 r.deadline && r.sampling.wf && r.tokens.all (fitsBits 32)

def Named.wf (c : Named) : Bool :=
  portWf c.port && fitsBits 32 c.source && fitsBits 32 c.sseq && fitsBits 8 c.tenant && fitsBits 64 c.requestId

/-- A submission entry's head (R362): a ring of the 64, a sub-queue of 4 bits, a body address that is a multiple of 64. -/
def CmdHead.wf (h : CmdHead) : Bool :=
  fitsBits 6 h.ring && fitsBits 8 h.tenant && fitsBits 4 h.subq && fitsBits 32 h.tag && fitsBits 48 h.bodyAddr &&
  decide (h.bodyAddr % 64 = 0) && fitsBits 32 h.bodyLen && h.placed.wf

/-- Operands of LEASE (R365). -/
def LeaseOps.wf (o : LeaseOps) : Bool :=
  fitsBits 8 o.cls && fitsBits 8 o.orphan && fitsBits 16 o.share && fitsBits 16 o.seqQuota && fitsBits 32 o.pageQuota &&
  fitsBits 16 o.ckpt && fitsBits 64 o.models

/-- Operands of OPEN_WINDOW and REOPEN_WINDOW (R365). -/
def WinOps.wf (o : WinOps) : Bool :=
  fitsBits 64 o.key && fitsBits 32 o.desc && fitsBits 12 o.descGen && fitsBits 8 o.rights && fitsBits 8 o.ring &&
  fitsBits 32 o.base && fitsBits 32 o.length

/-- Operands of WRITE, READ and ATOMIC (R365). -/
def RemoteOps.wf (o : RemoteOps) : Bool :=
  fitsBits 32 o.dest && fitsBits 20 o.window && fitsBits 12 o.gen && fitsBits 64 o.key && fitsBits 32 o.winOffset &&
  fitsBits 8 o.op && fitsBits 64 o.operand && fitsBits 64 o.compare

def UeWhere.wf : UeWhere → Bool
  | .systemArea => true
  | .weightCache c l => fitsBits 6 c && fitsBits 8 l
  | .adapter v => fitsBits 8 v
  | .cleanCopy d => decide (d < Config.descCount)
  | .page d => decide (d < Config.descCount)
  | .history slot copy => decide (slot < Config.seqSlots) && decide (copy < 2)
  | .objectExtent d x => decide (d < Config.descCount) && fitsBits 32 x
  | .sealWrite d => decide (d < Config.descCount)

/-- Cores that a check found failed (R346). -/
def coreListWf (l : List (Nat × Nat)) : Bool := l.all (fun x => cDieWf x.1 && coreWf x.2)

/-- A control window address: 64 MiB of 32-bit words (R367). -/
def regWf (a : Nat) : Bool := fitsBits 26 a && decide (a % 4 = 0)

/-- One of the 24 links of the table of R39. -/
def linkWf (l : Nat) : Bool := decide (l < 24)

/-- A list of algorithm masks of NEGOTIATE_ALGORITHMS: each of 32 bits. -/
def masksWf (l : List Nat) : Bool := l.all (fitsBits 32)

/-- Which commands are well formed. -/
def Instr.wf : Instr → Bool
  | .sync _ gm _ => fitsBits 64 gm
  | .announce a => a.wf
  | .syncAbsent _ => true
  | .holdoverExpired _ => true
  | .snap => true
  | .stepBoundary _ => true
  | .minuteBoundary => true
  | .tallyWriteDeadline => true
  | .fineTick => true
  | .coarseTick => true
  | .pacerRelease q => fitsBits 12 q
  | .slotOpen slot => fitsBits 12 slot
  | .prefetchIssue slot => fitsBits 12 slot
  | .prefetchComplete slot => fitsBits 12 slot
  | .prefetchDeadline slot => fitsBits 12 slot
  | .slackExhausted slot _ => fitsBits 12 slot
  | .hiddenState _ h => h.wf
  | .attentionOutput h => h.wf
  | .itemComplete _ _ => true
  | .itemOverrun die phys => cDieWf die && coreWf phys
  | .shadowComplete _ _ _ _ => true
  | .refereeComplete _ _ => true
  | .sealComplete d => decide (d < Config.descCount)
  | .contextFillComplete c => fitsBits 6 c
  | .promotionComplete d => decide (d < Config.descCount)
  | .writebackExtent d _ => decide (d < Config.descCount)
  | .request r => r.wf
  | .admitQuery m => m.wf
  | .verdict m => m.wf
  | .cancel c => c.wf
  | .pause c => c.wf
  | .grant m => m.wf
  | .grantAck m => m.wf
  | .statePush m => m.wf
  | .release m => m.wf
  | .pulse m => m.wf
  | .tokenNote m => m.wf
  | .noteAck m => m.wf
  | .reject m => m.wf
  | .recall m => m.wf
  | .historyQuery m => m.wf
  | .reissueAckTimeout slot => decide (slot < Config.seqSlots)
  | .rehomingTimeout slot => decide (slot < Config.seqSlots)
  | .rehomeWaitExpired slot => decide (slot < Config.seqSlots)
  | .ringBlock m => m.wf
  | .probe m => m.wf
  | .foldRecord m => m.wf
  | .ringSilenceTimeout slot member => decide (slot < Config.seqSlots) && fitsBits 6 member
  | .fragmentPut m => m.wf
  | .fragmentAck m => m.wf
  | .fragmentGet m => m.wf
  | .fragmentData m => m.wf
  | .fragmentFree m => m.wf
  | .fragmentLost m => m.wf
  | .fragmentPutTimeout d f => decide (d < Config.descCount) && fitsBits 8 f
  | .rebuildTimeout d => decide (d < Config.descCount)
  | .nodorSend _ p => p.wf && p.opcode == 0x01
  | .nodorWrite _ p => p.wf && p.opcode == 0x02
  | .nodorRead _ p => p.wf && p.opcode == 0x03
  | .nodorReadData _ p => p.wf && p.opcode == 0x04
  | .nodorAtomic _ p => p.wf && p.opcode == 0x05
  | .nodorAtomicData _ p => p.wf && p.opcode == 0x06
  | .nodorAck _ p => p.wf && p.opcode == 0x08
  | .nodorNack _ p => p.wf && p.opcode == 0x09
  | .partialAckTimer source m => fitsBits 32 source && fitsBits 32 m
  | .resendTimeout _ dest m => fitsBits 32 dest && fitsBits 32 m
  | .messageAbandonTimer dest m => fitsBits 32 dest && fitsBits 32 m
  | .transmitOpportunity _ port => portWf port
  | .ethernetLinkChange port _ => portWf port
  | .revocationComplete w => fitsBits 20 w
  | .reopenDelayExpired _ w => fitsBits 20 w
  | .sqDoorbell _ ring tail p => fitsBits 6 ring && fitsBits 32 tail && p.wf
  | .cqHeadWrite ring head => fitsBits 6 ring && fitsBits 32 head
  | .ringCtrlWrite ring _ => fitsBits 6 ring
  | .lease h o => h.wf && o.wf
  | .compose h => h.wf
  | .installKey h _ => h.wf
  | .registerContext h => h.wf
  | .retireContext h c => h.wf && fitsBits 8 c
  | .registerAdapter h => h.wf
  | .withdrawAdapter h c => h.wf && fitsBits 8 c
  | .installTable h entry step => h.wf && fitsBits 8 entry && fitsBits 48 step
  | .buildTable h layout source length => h.wf && fitsBits 8 layout && fitsBits 48 source && fitsBits 32 length
  | .buildTableComplete => true
  | .allocObject h extents alloc _ _ => h.wf && fitsBits 32 extents && fitsBits 8 alloc
  | .freeObject h index gen => h.wf && fitsBits 32 index && fitsBits 12 gen
  | .openWindow _ h o => h.wf && o.wf
  | .reopenWindow _ h w o => h.wf && fitsBits 20 w && o.wf
  | .revokeWindow _ h w => h.wf && fitsBits 20 w
  | .setQueue _ h q _ quantum rate => h.wf && fitsBits 16 q && fitsBits 32 quantum && fitsBits 32 rate
  | .setPolicer _ h d _ rate burst => h.wf && fitsBits 8 d && fitsBits 32 rate && fitsBits 32 burst
  | .write _ h o => h.wf && o.wf
  | .read _ h o => h.wf && o.wf
  | .atomic _ h o => h.wf && o.wf
  | .stageImage _ h => h.wf
  | .imageVerifyComplete _ => true
  | .switchImage h => h.wf
  | .firmwareSwitchComplete => true
  | .flashWriteComplete _ => true
  | .stagedImageTimeout => true
  | .commitSvn h => h.wf
  | .drainDie h die _ => h.wf && fitsBits 8 die
  | .readmitDie h die => h.wf && fitsBits 8 die
  | .selfCheckComplete die failed => cDieWf die && failed.all coreWf
  | .rehome h r => h.wf && fitsBits 64 r
  | .inHeadWrite _ c head p => fitsBits 6 c && fitsBits 32 head && p.wf
  | .outTailWrite c tail => fitsBits 6 c && fitsBits 32 tail
  | .statusAck a _ => regWf a
  | .aliasBitWrite a _ => regWf a
  | .unmappedAccess a => regWf a
  | .registerWrite a _ be => regWf a && fitsBits 4 be
  | .pgmInspectLatch _ => true
  | .sqsInspectLatch _ => true
  | .slcInspectLatch _ => true
  | .tirSegLatch _ => true
  | .cmpTableLatch _ => true
  | .fabPortLatch _ => true
  | .fabWinLatch _ => true
  | .weiQLatch _ => true
  | .weiPolLatch _ _ => true
  | .secKeyLatch _ => true
  | .hltCoreLatch _ => true
  | .hltAcctLatch _ => true
  | .stwReportLatch _ => true
  | .journalTailWrite _ => true
  | .journalHeadWrite _ p => p.wf
  | .ckptTailWrite _ => true
  | .replayStepComplete => true
  | .charterWrite p => p.wf
  | .charterWriteComplete _ => true
  | .recoveryPush length _ => fitsBits 32 length
  | .recoveryFinish _ => true
  | .recoveryAbort => true
  | .pwrGoodRise => true
  | .powerStepInterval => true
  | .pwrGoodFall _ _ => true
  | .brownWarnTimeout => true
  | .inputLow _ v bank => fitsBits 16 v && fitsBits 16 bank
  | .inputRestored _ v bank => fitsBits 16 v && fitsBits 16 bank
  | .overvoltage _ v => fitsBits 16 v
  | .bankReserveReached _ => true
  | .thermalHigh _ die => dieWf die
  | .thermalTrip _ die => dieWf die
  | .powerOver _ watts => fitsBits 16 watts
  | .perstAssert port => decide (port < 2)
  | .cxlLinkChange port rate width => decide (port < 2) && fitsBits 8 rate && fitsBits 8 width
  | .ideIntegrityFailure port => decide (port < 2)
  | .d2dLinkFailure link _ => linkWf link
  | .gddr7Uncorrectable w => w.wf
  | .gddr7Corrected => true
  | .t2LineTimeout seg _ w => fitsBits 6 seg && w.wf
  | .coreMemoryCe die phys => cDieWf die && coreWf phys
  | .coreMemoryUe die phys => cDieWf die && coreWf phys
  | .hourTick failed => coreListWf failed
  | .bootRomStart o => decide (o.nonce.length = 32)
  | .imageStartTimeout => true
  | .stewardStart links failed => links.all linkWf && coreListWf failed
  | .serviceReached _ up => fitsBits 8 up
  | .getVersion _ => true
  | .getCapabilities _ => true
  | .negotiateAlgorithms _ version base meas asym => fitsBits 8 version && masksWf base && masksWf meas && masksWf asym
  | .getDigests _ => true
  | .getCertificate _ slot offset length => fitsBits 8 slot && fitsBits 16 offset && fitsBits 16 length
  | .challenge _ slot nonce => fitsBits 8 slot && decide (nonce.length = 32)
  | .getMeasurements _ index _ nonce => fitsBits 8 index && decide (nonce.length = 32 ∨ nonce = [])
  | .spdmUnsupportedRequest _ code => fitsBits 8 code
  | .keyProg port _ blob _ => fitsBits 8 port && decide (blob.length = 256)
  | .getSensors _ => true
  | .getIdentity => true
  | .getPowerLog => true
  | .tallySetWritten => true
  | .imageSwapComplete cluster => fitsBits 4 cluster
  | .laneRepair link => linkWf link
  | .inputReconnect _ => true
  | .dynamicAddressAssignment a => fitsBits 7 a
  | .thermalExcursionEnd die => dieWf die

end Sys2Proof
end

