-- ==== Sys2Proof/Tests/Slice0.lean ====
section
/-! SUPPORT. Tests: ill-formed commands are refused, hypotheses of the statements are met, words decode, single steps. -/

namespace Sys2Proof.Tests

set_option Elab.async false

open Sys2Proof Sys2Proof.Machine Sys2Proof.Safety

/-! ## Small states -/

/-- In SERVICE, as a C module. -/
def svc : State := { State.reset with stw := { State.reset.stw with boot := .service, powerStep := 24 } }

/-- In SERVICE in a role. -/
def roled (r : Nat) (s : State) : State := { s with stw := { s.stw with charter := { s.stw.charter with role := r } } }

/-- A sequence table entry of handle 0. -/
def seqE : Seq := { handle := 0, state := .decode, tenant := 1, context := 0, cls := 0, requestId := 7, promptLen := 1, maxNew := 1 }

def withSeq (e : Seq) (s : State) : State := { s with sqs := { s.sqs with seqs := [(0, e)] } }

/-- A keeper with one record of owner 5. -/
def keeperIn (st : RecState) : State :=
  { withSeq seqE svc with slc := { svc.slc with recs := [(0, { owner := 5, role := 2, state := st })] } }

/-- A P module that drives one sequence of keeper 5. -/
def ownerWith (o : Owned) : State := { withSeq seqE (roled 0 svc) with sqs := { (withSeq seqE svc).sqs with owned := [(0, o)] } }

def own : Owned := { keeper := 5, keeperHandle := 0 }

/-- A sluice header from node 5, epoch 1. -/
def sluH (kind : Nat) : Slu :=
  { kind := kind, flags := 0, tenant := 1, role := 2, seq := 0, epoch := 1, compEpoch := 0, requestId := 7, sseq := 0, sender := 5 }

def msg (bytes : List Byte) : MsgIn := { port := 0, source := 5, dike := 0, bytes := bytes }

def sluM (kind : Nat) (body : List Byte) : MsgIn := msg ((sluH kind).bytes ++ body)

/-- A layer and a context of one row. -/
def layerE : LayerDesc :=
  { mask := 0, bias := false, wformat := 0, window := 0, wq := 0, wk := 0, wv := 0, wo := 0, scales := 0, gain := 0
    biasAddr := 0, stored := 0 }

def ctxE : Ctx :=
  { state := .ready, homeCxl := false, width := 1, nKv := 1, gqa := 0, headDim := 64, qFmt := 0, kvFmt := 0, outFmt := 0
    actFmt := 0, rotMode := 0, rotDims := 0, scale := 0, eps := 0, maxPrefix := 0, ringSegment := 0, turnaround := 0
    vocab := 0, endToken := 0, weightBytes := 0, layers := [layerE], freqs := [] }

def withCtx (c : Ctx) (s : State) : State := { s with mdl := { s.mdl with ctxs := [(0, c)] } }

def hiddenE : Hidden :=
  { port := 0, source := 5, sseq := 0, handle := 0, epoch := 1, compEpoch := 0, context := 0, layer := 0, step := 0
    firstPos := 0, rows := [[0]] }

def ringH (kind tokens : Nat) (payload : List Byte) : RingHdr :=
  { kind := kind, member := 0, layer := 0, context := 0, seq := 0, epoch := 1, step := 0, tokens := tokens, firstPos := 0
    payload := payload }

def ringM (h : RingHdr) : MsgIn := msg (h.head ++ h.payload)

/-- A member of a ring set of two, of the keeper 5. -/
def memberE : Seq := { seqE with ringZ := 3, ringNodes := [5], parent := 0 }

def fragH (kind : Nat) (bytes : List Byte) : FragHdr :=
  { kind := kind, frag := 0, tenant := 0, status := 0, keeper := 0, index := 0, generation := 0, tableId := 0, imageLen := 0
    fragLen := bytes.length, step := 0, bytes := bytes }

def codingE : Coding :=
  { keeper := 0, index := 0, generation := 0, tenant := 0, tableId := 0, imageLen := 0, fragLen := 0, holders := [5]
    acked := [], next := [], frags := [], isProtected := false, unprotected := false, freeing := false, rebuild := none
    rebuildAt := 0 }

def withCoding (c : Coding) : State :=
  { svc with cmp := { svc.cmp with coding := [(0, c)] }, fab := { svc.fab with node := 0 } }

def heldE : HeldFrag :=
  { keeper := 0, index := 0, generation := 0, frag := 0, tenant := 0, tableId := 0, imageLen := 0, bytes := [], crc := crc32c [] }

def nodeE (n : Nat) : NodeEnt :=
  { node := n, role := 2, status := 0, cls := 0, group := 0, gridEpoch := 0, period := 25000, ringSet := 0, macs := [], allot := [] }

/-- A composition map of nodes 0 and 1, both C. -/
def withMap (s : State) : State :=
  { s with slc := { s.slc with maps := [{ epoch := 0, nodes := [nodeE 0, nodeE 1] }] } }

def descE : Desc := { state := .sealed }

def namedE : Named := { port := 0, source := 5, sseq := 0, tenant := 1, requestId := 7 }

def requestE : Request :=
  { port := 0, gateway := 5, sseq := 0, tenant := 1, requestId := 7, context := 0, adapter := 0, cls := 0, publish := false
    parent := none, lP := 0, maxNew := 1, deadline := 0, sampling := ⟨0, 0, 0, 0⟩, tokens := [1] }

def queryE : Query :=
  { from_ := 5, tenant := 0, context := 0, cls := 0, publish := false, fork := false, requestId := 0, sseq := 0
    compEpoch := 0, adapter := 0, lP := 0, promptLen := 0, maxNew := 0, deadline := 0, parent := 0
    sampling := ⟨0, 0, 0, 0⟩, gateway := 0 }

def verdictE : Verdict :=
  { outcome := 1, reason := 0, requestId := 0, handle := 0, step := 0, tenant := 0, keeper := 0, compEpoch := 0, ring := [] }

def withRingMsg (s : State) : State :=
  { s with car := { s.car with ringMsgs :=
      [{ kind := 1, member := 0, layer := 0, handle := 0, step := 0, firstPos := 0, tokens := 0, payload := [], folded := false }] } }

def rebuildE : Coding :=
  { codingE with rebuild := some ((List.range 8).map (fun k => (k, []))), frags := List.replicate 10 [] }

def tmuS (f : Tmu → Tmu) (s : State) : State := { s with tmu := f s.tmu }
def sqsS (f : Sqs → Sqs) (s : State) : State := { s with sqs := f s.sqs }
def slcS (f : Slc → Slc) (s : State) : State := { s with slc := f s.slc }
def pgmS (f : Pgm → Pgm) (s : State) : State := { s with pgm := f s.pgm }
def fabS (f : Fab → Fab) (s : State) : State := { s with fab := f s.fab }
def weiS (f : Wei → Wei) (s : State) : State := { s with wei := f s.wei }
def hifS (f : Hif → Hif) (s : State) : State := { s with hif := f s.hif }
def secS (f : Sec → Sec) (s : State) : State := { s with sec := f s.sec }
def hltS (f : Hlt → Hlt) (s : State) : State := { s with hlt := f s.hlt }
def stwS (f : Stw → Stw) (s : State) : State := { s with stw := f s.stw }
def supS (f : Sup → Sup) (s : State) : State := { s with sup := f s.sup }
def carS (f : Car → Car) (s : State) : State := { s with car := f s.car }
def tirS (f : Tir → Tir) (s : State) : State := { s with tir := f s.tir }
def cmpS (f : Cmp → Cmp) (s : State) : State := { s with cmp := f s.cmp }

/-- In a start-up state with that many power-up steps done. -/
def booting (b : BootState) (n : Nat) : State := stwS (fun u => { u with boot := b, powerStep := n }) State.reset

/-- An image of one byte, its key digest that of 97 zero bytes. -/
def imageE : List Byte :=
  le 2 1 ++ le 1 0 ++ le 1 0 ++ le 4 1 ++ le 4 0 ++ le 1 0xA1 ++ zeros 3 ++ zeros 97 ++ zeros 15 ++ sha384 [0] ++ zeros 96 ++
    zeros 240 ++ [0]

/-- Flash that holds it. -/
def flashE : State :=
  stwS (fun u => { u with flash := imageE.zipIdx.map (fun e => (imageBase + e.2, e.1)) }) (booting .bootRom 2)

theorem imageE_key : (imageE.drop 16).take 97 = zeros 97 := by decide +kernel

theorem imageE_form : fld imageE 0 2 = 1 ∧ fld imageE 2 1 = 0 ∧ fld imageE 3 1 = 0 ∧ fld imageE 4 4 = 1 ∧ fld imageE 12 1 = 0xA1 ∧
    imageE.length = 513 ∧ zeroAt imageE 13 3 = true ∧ zeroAt imageE 113 15 = true ∧ zeroAt imageE 272 240 = true ∧
    sha384 (imageE.drop 512) = (imageE.drop 128).take 48 := by decide +kernel

/-- The image is accepted by a part whose key slot 0 is fused with that key's digest. -/
theorem imageE_good (s : State) (h : Config.romKey 0 = sha384 (zeros 97)) (h0 : s.sec.revoked = 0) (h1 : s.sec.fusedSvn = 0) :
    imageCause s imageE true = 0 := by
  obtain ⟨f0, f1, f2, f3, f4, f5, f6, f7, f8, f9⟩ := imageE_form
  have hb : bitOf 0 0 = false := by decide
  simp [imageCause, f0, f1, f2, f3, f4, f5, f6, f7, f8, f9, imageE_key, h, h0, h1, hb]

def colder : MismatchSensors := ⟨0, 0, 0, 0, 0, 0, 0, 0⟩

def itemE : Item := { id := 0, step := 0, slot := 0, context := 0, layer := 0, kind := .norm, done := true, shadowed := false }

def mismatchE : Mismatch :=
  { item := itemE, seqNo := 0, primPhys := 0, shadowPhys := 1, refPhys := none, prim := [], shadow := [], sensors := colder
    listIndex := 0, tenant := 0, refStep := none }

def segmentE : Segment := { base := 0, ports := 1, size := 1, pbr := 0, target := 0, state := .active }

/-- The management port's SPDM connection with its algorithms agreed. -/
def agreed : State := secS (fun u => { u with mctp := { version := 0x12, caps := true, algos := true } }) svc

/-- A key blob of the IDE stream of port 0, bound to the part. -/
def blobE : List Byte :=
  le 1 0x10 ++ zeros 3 ++ le 4 1 ++ zeros 16 ++ (identityRecord.drop 20).take 8 ++ zeros 224

/-- In SERVICE with CXL port 0 up. -/
def linked : State := hifS (fun u => { u with x0 := { rate := 2, width := 8 } }) svc

theorem flashE_image : flashImage flashE = imageE := by decide +kernel

theorem flashE_good (h : Config.romKey 0 = sha384 (zeros 97)) : imageCause flashE (flashImage flashE) true = 0 := by
  rw [flashE_image]; exact imageE_good _ h rfl rfl

/-- In SERVICE with a CXL port up and host ring 1 enabled. -/
def ringed : State := hifS (fun u => { u with rings := [(1, { ctrl := 0x86000000 })] }) linked

/-- Where bodies of commands may lie. -/
def bodyPlace : Nat := Config.hdmBase + 0x2000000

/-- An entry's head on ring 1, of tenant 1, with a body of `n` bytes. -/
def headE (n : Nat) : CmdHead :=
  { ring := 1, silent := false, notify := false, tenant := 1, subq := 0, tag := 9, bodyAddr := if n = 0 then 0 else bodyPlace
    bodyLen := n, placed := [] }

/-- A composition map of the one node 0: this module. -/
def mapE : List Byte :=
  le 4 1 ++ le 4 1 ++ zeros 56 ++ le 4 0 ++ le 1 2 ++ zeros 11 ++ le 4 25000 ++ le 4 0 ++ (identityRecord.drop 32).take 48 ++
    (List.replicate 3 (le 4 0xFFFFFFFF ++ zeros 12)).flatten ++ zeros 8

def mapped : State := writeMem bodyPlace mapE ringed

def leaseE : Lease := { cls := 0, orphan := 0, share := 0, seqQuota := 1, pageQuota := 1, ckpt := 0, models := 0 }

/-- An object of dike 1, two extents. -/
def objectE : Desc := { state := .hopper, object := true, tenant := 1, extents := 2 }

def opsE : WinOps := { key := 0, desc := 0, descGen := 0, rights := 3, ring := 1, base := 0, length := 64 }

/-- A window of dike 1 on it. -/
def windowE : Window := { state := .opened, dike := 1, rights := 15, length := 128, openedAt := some 0 }

def withWindow (w : Window) (s : State) : State :=
  { s with fab := { s.fab with windows := [(256, w)] }, pgm := { s.pgm with descs := [(0, objectE)] } }

def ticketE : Ticket := { ring := 1, tag := 9, opcode := 0x0D, silent := false }

/-- Dike 1 leased, its first queue enabled. -/
def served : State :=
  weiS (fun u => { u with queues := [(256, { enable := true })] }) (secS (fun u => { u with leases := [(1, leaseE)] }) ringed)

def remoteE (op : Nat) : RemoteOps := { dest := 6, window := 256, gen := 0, key := 0, winOffset := 0, op := op, operand := 0, compare := 0 }

/-- A Nodor packet of dike 1 from node 5 for node 0, the whole of its message, to window 256. -/
def packetE (op : Nat) (payload : List Byte) : Packet :=
  { port := 0, frameLen := 98 + payload.length, fecFixed := 0, fecOk := true, fcsOk := true, etherType := 0x88B5, vlan := 0
    tagOk := true, version := 1, opcode := op, flags := 0, dike := 1, keyIndex := 0, cls := 0, source := 5, dest := 0
    window := 256, gen := 0, key := 0, winOffset := 0, msgSeq := 3, msgLen := payload.length, index := 0, count := 1
    pktOffset := 0, rsvdZero := true, payload := payload }

/-- Node 0 with port 0 up, a wire key of dike 1, its intake open, window 256 on the object. -/
def wired : State :=
  let s := withWindow windowE ringed
  secS (fun u => { u with wire := [(1, { v0 := some 7 })] })
    (fabS (fun u => { u with node := 0, ports := [(0, { up := true })], intake := [1] }) s)

/-- The policer of dike 1 is on, its bucket empty. -/
def policed : State := weiS (fun u => { u with policers := [(1, { enable := true, rate := 1, burst := 4112 })] }) wired

/-- A message under way to node 5 under MSG_SEQ 3. -/
def sentE (opcode : Nat) (carried : Carried) (payload : List Byte) : OutMsg :=
  { dest := 5, seq := 3, opcode := opcode, dike := 1, keyIndex := 0, window := 256, gen := 0, key := 0, winOffset := 0
    notify := false, msgLen := payload.length, queue := 256, charged := false, carried := carried, packets := [(0, payload)]
    unsent := 0, firstSent := some 0, latestSent := 0, answer := [], answerCount := 0 }

def sending (m : OutMsg) : State := fabS (fun u => { u with out := [m] }) wired

def arrivedE : InMsg :=
  { source := 5, seq := 3, opcode := 2, dike := 1, keyIndex := 0, port := 0, window := 256, gen := 0, winOffset := 0
    notify := false, msgLen := 128, count := 2, got := [], latest := 0 }

/-- A module in replay with a step in progress. -/
def replaying : State :=
  hltS (fun u => { u with replaying := true }) (stwS (fun u => { u with charter := { u.charter with replay := 1 } }) svc)

/-- Its journal: a step's last record; or before it a record of digests. -/
def journalLast : State := (putRecord 7 0 0 0 0 0 0 [] replaying).2
def journalTwo : State :=
  (putRecord 7 0 0 0 0 0 0 [] (putRecord 6 0 0 0 0 0 0 (le 4 5 ++ le 4 1 ++ le 8 1 ++ zeros 16) replaying).2).2

def recordE : JRec := ⟨6, 0, 0, 0, 0, 0, 0, le 4 5 ++ le 4 1 ++ le 8 1 ++ zeros 16⟩

def flashQ (l : List FlashWrite) : State := stwS (fun u => { u with flashQueue := l }) ringed

/-- An update in a state, with the command that awaits its outcome. -/
def updating (u : UpdState) : State := secS (fun x => { x with upd := u, updTicket := some ticketE, staged := imageE }) ringed

/-! ## Hypotheses of the statements are met -/

/-- States and operands that meet the hypotheses of `RequestsWaitForTheirBoundary`, clause by clause (clauses with
the same hypotheses share one). -/
theorem test_met_requestsWaitForTheirBoundary :
    (∃ (r : Request) (s : State), takesFrom s r.gateway = true ∧ roleP s = true) ∧
    (∃ (m : MsgIn) (s : State) (q : Query), takesFrom s m.source = true ∧ roleC s = true ∧ readQuery m.source m.bytes
      = some q) ∧
    (∃ (c : Named) (s : State), takesFrom s c.source = true ∧ roleC s = true) ∧
    (∃ (c : Named) (s : State), takesFrom s c.source = true ∧ roleP s = true ∧ keeperAsked s c.tenant c.requestId =
      none) ∧
    (∃ (m : MsgIn) (s : State) (v : Verdict), takesFrom s m.source = true ∧ roleC s = true ∧ readVerdict m.bytes =
      some v) :=
  ⟨⟨requestE, roled 0 svc, by decide +kernel, by decide +kernel⟩,
⟨msg (le 1 0x21 ++ zeros 95), svc, queryE, by decide +kernel, by decide +kernel, by decide +kernel⟩,
⟨namedE, svc, by decide +kernel, by decide +kernel⟩,
⟨namedE, roled 0 svc, by decide +kernel, by decide +kernel, by decide +kernel⟩,
⟨msg (le 1 0x22 ++ le 1 1 ++ zeros 30), svc, verdictE, by decide +kernel, by decide +kernel, by decide +kernel⟩⟩

/-- States and operands that meet the hypotheses of `KeeperTakesMessages`, clause by clause (clauses with
the same hypotheses share one). -/
theorem test_met_keeperTakesMessages :
    (∃ (m : MsgIn) (s : State) (h : Slu) (slot : Nat) (r : OwnRec), KeeperGets 0x31 m s h slot r ∧ h.epoch = r.epoch ∧
      (r.state = .offered ∨ r.state = .reissued)) ∧
    (∃ (m : MsgIn) (s : State) (h : Slu) (slot : Nat) (r : OwnRec), KeeperGets 0x34 m s h slot r ∧ h.epoch = r.epoch) ∧
    (∃ (m : MsgIn) (s : State) (h : Slu) (slot : Nat) (r : OwnRec), KeeperGets 0x34 m s h slot r ∧ h.epoch ≠ r.epoch) ∧
    (∃ (m : MsgIn) (s : State) (h : Slu) (slot : Nat) (r : OwnRec), KeeperGets 0x35 m s h slot r ∧ h.epoch = r.epoch ∧
      fld m.bytes 32 4 = (histOf s slot).length) ∧
    (∃ (m : MsgIn) (s : State) (h : Slu) (slot : Nat) (r : OwnRec), KeeperGets 0x32 m s h slot r ∧ h.epoch = r.epoch ∧
      r.state ≠ .rehoming ∧ h.tail = false) ∧
    (∃ (m : MsgIn) (s : State) (h : Slu) (slot : Nat) (r : OwnRec), KeeperGets 0x33 m s h slot r ∧ h.epoch = r.epoch ∧
      memberOf s m.source h.seq = none) :=
  ⟨⟨sluM 0x31 ([]), keeperIn .offered, sluH 0x31, 0, { owner := 5, role := 2, state := .offered },
    (by constructor <;> decide +kernel), by decide +kernel, by decide +kernel⟩,
⟨sluM 0x34 ([]), keeperIn .held, sluH 0x34, 0, { owner := 5, role := 2, state := .held },
    (by constructor <;> decide +kernel), by decide +kernel⟩,
⟨msg ({ sluH 0x34 with epoch := 9 }).bytes, keeperIn .held, { sluH 0x34 with epoch := 9 }, 0,
    { owner := 5, role := 2, state := .held }, (by constructor <;> decide +kernel), by decide +kernel⟩,
⟨sluM 0x35 (zeros 24), keeperIn .held, sluH 0x35, 0, { owner := 5, role := 2, state := .held },
    (by constructor <;> decide +kernel), by decide +kernel, by decide +kernel⟩,
⟨sluM 0x32 (zeros 64), keeperIn .held, sluH 0x32, 0, { owner := 5, role := 2, state := .held },
    (by constructor <;> decide +kernel), by decide +kernel, by decide +kernel, by decide +kernel⟩,
⟨sluM 0x33 (zeros 16), keeperIn .held, sluH 0x33, 0, { owner := 5, role := 2, state := .held },
    (by constructor <;> decide +kernel), by decide +kernel, by decide +kernel⟩⟩

/-- States and operands that meet the hypotheses of `OwnerTakesMessages`, clause by clause (clauses with
the same hypotheses share one). -/
theorem test_met_ownerTakesMessages :
    (∃ (m : MsgIn) (s : State) (h : Slu), takesFrom s m.source = true ∧ roleC s = false ∧ readSlu m.bytes = some h ∧
      h.kind = 0x30 ∧ fld m.bytes 36 1 ≠ 2 ∧ s.sqs.waiting.any (fun p => p.grantOf m.source h.seq h.epoch) = false) ∧
    (∃ (m : MsgIn) (s : State) (h : Slu) (slot : Nat) (o : Owned) (e : Seq), OwnerGets 0x30 m s h slot o e ∧ fld
      m.bytes 36 1 = 2) ∧
    (∃ (m : MsgIn) (s : State) (h : Slu) (slot : Nat) (a : Nat × Nat × Nat) (o : Owned) (e : Seq), OwnerGets 0x36 m s
      h slot o e ∧ o.awaiting.find? (fun b => b.1 == fld m.bytes 32 4) = some a ∧ o.muteAfter = none ∧ o.heldSince =
      none) ∧
    (∃ (m : MsgIn) (s : State) (h : Slu) (slot : Nat) (a : Nat × Nat × Nat) (o : Owned) (e : Seq), OwnerGets 0x36 m s
      h slot o e ∧ o.awaiting.find? (fun b => b.1 == fld m.bytes 32 4) = some a ∧ o.heldSince.isSome = true) ∧
    (∃ (m : MsgIn) (s : State) (h : Slu) (slot : Nat) (o : Owned) (e : Seq), OwnerGets 0x37 m s h slot o e ∧ h.epoch =
      e.ownEpoch ∧ o.superseded = false) ∧
    (∃ (m : MsgIn) (s : State) (h : Slu) (slot : Nat) (o : Owned) (e : Seq), OwnerGets 0x38 m s h slot o e ∧ h.epoch =
      e.ownEpoch) ∧
    (∃ (m : MsgIn) (s : State) (h : Slu) (slot : Nat) (o : Owned) (e : Seq), takesFrom s m.source = true ∧ roleC s =
      false ∧ readSlu m.bytes = some h ∧ h.kind = 0x39 ∧ findRequest s h.tenant h.requestId = some slot ∧ seqAt s slot
      = some e ∧ ownedAt s slot = some o ∧ epochLater h.epoch e.ownEpoch = true) :=
  ⟨⟨sluM 0x30 (zeros 4 ++ le 1 1 ++ zeros 75), roled 0 svc, sluH 0x30, by decide +kernel, by decide +kernel,
    by decide +kernel, by decide +kernel, by decide +kernel, by decide +kernel⟩,
⟨sluM 0x30 (zeros 4 ++ le 1 2 ++ zeros 75), ownerWith own, sluH 0x30, 0, own, seqE,
    (by constructor <;> decide +kernel), by decide +kernel⟩,
⟨sluM 0x36 (zeros 8), ownerWith { own with awaiting := [(0, 4, 0)] }, sluH 0x36, 0, (0, 4, 0),
    { own with awaiting := [(0, 4, 0)] }, seqE, (by constructor <;> decide +kernel), by decide +kernel,
    by decide +kernel, by decide +kernel⟩,
⟨sluM 0x36 (zeros 8), ownerWith { own with awaiting := [(0, 4, 0)], heldSince := some 0 }, sluH 0x36, 0, (0, 4, 0),
    { own with awaiting := [(0, 4, 0)], heldSince := some 0 }, seqE, (by constructor <;> decide +kernel),
    by decide +kernel, by decide +kernel⟩,
⟨sluM 0x37 (le 1 9 ++ zeros 7), ownerWith own, sluH 0x37, 0, own, seqE, (by constructor <;> decide +kernel),
    by decide +kernel, by decide +kernel⟩,
⟨sluM 0x38 (le 1 1 ++ zeros 7), ownerWith own, sluH 0x38, 0, own, seqE, (by constructor <;> decide +kernel),
    by decide +kernel⟩,
⟨msg ({ sluH 0x39 with epoch := 2 }.bytes ++ zeros 8), ownerWith own, { sluH 0x39 with epoch := 2 }, 0, own, seqE,
    by decide +kernel, by decide +kernel, by decide +kernel, by decide +kernel, by decide +kernel, by decide +kernel,
    by decide +kernel, by decide +kernel⟩⟩

/-- States and operands that meet the hypotheses of `SluiceTimers`, clause by clause (clauses with
the same hypotheses share one). -/
theorem test_met_sluiceTimers :
    (∃ (slot : Nat) (s : State) (e : Seq) (r : OwnRec), inService s = true ∧ seqAt s slot = some e ∧ recAt s slot =
      some r ∧ r.state = .reissued) ∧
    (∃ (slot : Nat) (s : State) (e : Seq) (r : OwnRec), inService s = true ∧ seqAt s slot = some e ∧ recAt s slot =
      some r ∧ r.state = .rehoming) ∧
    (∃ (slot n : Nat) (s : State) (o : Owned), inService s = true ∧ ownedAt s slot = some o ∧ o.heldSince = some n ∧ n
      + s.stw.charter.rehomeWait ≤ stepNo s) :=
  ⟨⟨0, keeperIn .reissued, seqE, { owner := 5, role := 2, state := .reissued }, by decide +kernel, by decide +kernel,
    by decide +kernel, by decide +kernel⟩,
⟨0, keeperIn .rehoming, seqE, { owner := 5, role := 2, state := .rehoming }, by decide +kernel, by decide +kernel,
    by decide +kernel, by decide +kernel⟩,
⟨0, 0, (let s := ownerWith { own with heldSince := some 0 }; { s with tmu := { s.tmu with now := 10 ^ 15 } }),
    { own with heldSince := some 0 }, by decide +kernel, by decide +kernel, by decide +kernel, by decide +kernel⟩⟩

/-- States and operands that meet the hypotheses of `HiddenStatesAndRingMessages`, clause by clause (clauses with
the same hypotheses share one). -/
theorem test_met_hiddenStatesAndRingMessages :
    (∃ (slot : Nat) (h : Hidden) (s : State) (e : Seq) (c : Ctx), takesFrom s h.source = true ∧ roleC s = true ∧
      entryNamed s h.source h.handle = some slot ∧ seqAt s slot = some e ∧ ctxOf s h.context = some c ∧ h.epoch =
      e.ownEpoch ∧ h.context = e.context ∧ h.layer < c.layers.length ∧ (h.rows ≠ [] ∧ h.rows.length ≤ 512) ∧ (∀ x ∈
      h.rows, x.length = c.width) ∧ h.damage = 0) ∧
    (∃ (h : Hidden) (s : State), takesFrom s h.source = true ∧ roleC s = true ∧ h.damage ≠ 0) ∧
    (∃ (m : MsgIn) (s : State) (h : RingHdr) (slot : Nat) (e : Seq) (bs : List Byte), RingGets 1 m s h slot e ∧
      expandWire s h.payload = .ok bs) ∧
    (∃ (m : MsgIn) (s : State) (h : RingHdr) (slot : Nat) (e : Seq) (d : Damage), RingGets 1 m s h slot e ∧ expandWire
      s h.payload = .error d) ∧
    (∃ (m : MsgIn) (s : State) (h : RingHdr) (slot : Nat) (e : Seq), takesFrom s m.source = true ∧ roleC s = true ∧
      readRing 1 m.bytes = some h ∧ entryNamed s m.source h.seq = some slot ∧ seqAt s slot = some e ∧ h.epoch =
      e.ownEpoch ∧ s.car.ringMsgs.any (fun r => r.handle == e.handle && r.layer == h.layer && r.step == h.step &&
      r.member == h.member && r.kind == 1 && r.firstPos == h.firstPos) = true) ∧
    (∃ (m : MsgIn) (s : State) (h : RingHdr) (slot : Nat) (e : Seq), takesFrom s m.source = true ∧ roleC s = true ∧
      readRing 1 m.bytes = some h ∧ entryNamed s m.source h.seq = some slot ∧ seqAt s slot = some e ∧ ringEpoch slot
      m.source h.epoch e (consumeUnnumbered e.tenant m.source m.bytes s) = none) ∧
    (∃ (m : MsgIn) (s : State) (h : RingHdr) (slot : Nat) (e : Seq) (c : Ctx), RingGets 2 m s h slot e ∧ ctxOf s
      e.context = some c ∧ h.payload.length = c.gqa * c.nKv * c.headDim * c.qFormat.size ∧ e.isMember = true ∧ (h.step
      == stepNo s && pastCutoff s e.context h.layer (s.tmu.now - s.tmu.openedAt)) = false ∧ decodeSources s c h.layer
      e e.segEnd ≠ []) ∧
    (∃ (m : MsgIn) (s : State) (h : RingHdr) (slot : Nat) (e : Seq) (c : Ctx), RingGets 2 m s h slot e ∧ ctxOf s
      e.context = some c ∧ h.payload.length = c.gqa * c.nKv * c.headDim * c.qFormat.size ∧ e.isMember = true) ∧
    (∃ (m : MsgIn) (s : State) (h : RingHdr) (slot : Nat) (e : Seq) (c : Ctx), RingGets 3 m s h slot e ∧ ctxOf s
      e.context = some c ∧ h.payload.length = c.gqa * c.nKv * foldHeadBytes (classN s) c.headDim ∧ classN s = true) ∧
    (∃ (slot member : Nat) (s : State) (e : Seq), inService s = true ∧ roleC s = true ∧ seqAt s slot = some e ∧
      e.isMember = false ∧ member + 1 < e.ringZ ∧ e.state ≠ .orphaned ∧ 2 ≤ Tab.getD s.car.ringSilent (e.handle * 64 +
      member) 0) :=
  ⟨⟨0, hiddenE, withCtx ctxE (withSeq seqE svc), seqE, ctxE, by decide +kernel, by decide +kernel, by decide +kernel,
    by decide +kernel, by decide +kernel, by decide +kernel, by decide +kernel, by decide +kernel, by decide +kernel,
    by decide +kernel, by decide +kernel⟩,
⟨{ hiddenE with damage := 1 }, svc, by decide +kernel, by decide +kernel, by decide +kernel⟩,
⟨ringM (ringH 1 0 []), withCtx ctxE (withSeq seqE svc), ringH 1 0 [], 0, seqE, [],
    (by constructor <;> decide +kernel), by rfl⟩,
⟨ringM (ringH 1 0 [1]), withCtx ctxE (withSeq seqE svc), ringH 1 0 [1], 0, seqE, .check,
    (by constructor <;> decide +kernel), by rfl⟩,
⟨ringM (ringH 1 0 []), withRingMsg (withCtx ctxE (withSeq seqE svc)), ringH 1 0 [], 0, seqE, by decide +kernel,
    by decide +kernel, by decide +kernel, by decide +kernel, by decide +kernel, by decide +kernel, by decide +kernel⟩,
⟨ringM { ringH 1 0 [] with epoch := 9 }, withCtx ctxE (withSeq seqE svc), { ringH 1 0 [] with epoch := 9 }, 0, seqE,
    by decide +kernel, by decide +kernel, by decide +kernel, by decide +kernel, by decide +kernel, by rfl⟩,
⟨ringM (ringH 2 1 []), withCtx ctxE (pgmS (fun u => { u with descs := [(0, descE)] }) (withSeq
    { memberE with layers := [{ list := [0] }] } svc)), ringH 2 1 [], 0, { memberE with layers := [{ list := [0] }] },
    ctxE, (by constructor <;> decide +kernel), by decide +kernel, by decide +kernel, by decide +kernel,
    by decide +kernel, by decide +kernel⟩,
⟨ringM (ringH 2 1 []), withCtx ctxE (withSeq memberE svc), ringH 2 1 [], 0, memberE, ctxE,
    (by constructor <;> decide +kernel), by decide +kernel, by decide +kernel, by decide +kernel⟩,
⟨ringM (ringH 3 0 []), withCtx ctxE (withSeq seqE svc), ringH 3 0 [], 0, seqE, ctxE,
    (by constructor <;> decide +kernel), by decide +kernel, by decide +kernel, by decide +kernel⟩,
⟨0, 0, (let s := withSeq { seqE with ringZ := 2, member := 1 } svc;
    { s with car := { s.car with ringSilent := [(0, 2)] } }), { seqE with ringZ := 2, member := 1 },
    by decide +kernel, by decide +kernel, by decide +kernel, by decide +kernel, by decide +kernel, by decide +kernel,
    by decide +kernel⟩⟩

/-- States and operands that meet the hypotheses of `FragmentsOfDurableObjects`, clause by clause (clauses with
the same hypotheses share one). -/
theorem test_met_fragmentsOfDurableObjects :
    (∃ (m : MsgIn) (s : State) (h : FragHdr), FragGets 0x40 m s h ∧ ((s.cmp.held.filter (fun x => !x.is h)).map (fun x
      => x.bytes.length)).sum + h.bytes.length ≤ s.stw.charter.fragPool * gib) ∧
    (∃ (m : MsgIn) (s : State) (h : FragHdr), FragGets 0x40 m s h ∧ s.stw.charter.fragPool * gib < ((s.cmp.held.filter
      (fun x => !x.is h)).map (fun x => x.bytes.length)).sum + h.bytes.length) ∧
    (∃ (m : MsgIn) (s : State) (h : FragHdr) (x : HeldFrag), FragGets 0x42 m s h ∧ s.cmp.held.find? (fun x => x.is h)
      = some x ∧ crc32c x.bytes = x.crc) ∧
    (∃ (m : MsgIn) (s : State) (h : FragHdr), FragGets 0x42 m s h ∧ s.cmp.held.find? (fun x => x.is h) = none) ∧
    (∃ (m : MsgIn) (s : State) (h : FragHdr), FragGets 0x44 m s h) ∧
    (∃ (m : MsgIn) (s : State) (h : FragHdr) (i : Nat) (c : Coding), FragGets 0x41 m s h ∧ codingOf s h = some (i, c)
      ∧ c.holders[h.frag]? = some m.source ∧ c.acked.contains h.frag = false ∧ h.status = 0 ∧ c.freeing = false) ∧
    (∃ (m : MsgIn) (s : State) (h : FragHdr) (i : Nat) (c : Coding), FragGets 0x41 m s h ∧ codingOf s h = some (i, c)
      ∧ c.holders[h.frag]? = some m.source ∧ c.acked.contains h.frag = false ∧ h.status = 1) ∧
    (∃ (m : MsgIn) (s : State) (h : FragHdr) (i : Nat) (c : Coding), FragGets 0x45 m s h ∧ codingOf s h = some (i, c)
      ∧ c.holders[h.frag]? = some m.source ∧ c.acked.contains h.frag = true) ∧
    (∃ (m : MsgIn) (s : State) (h : FragHdr) (i : Nat) (c : Coding) (got : Tab (List Byte)), FragGets 0x43 m s h ∧
      codingOf s h = some (i, c) ∧ h.status = 0 ∧ c.rebuild = some got ∧ (Tab.put h.frag h.bytes got).length < 8) ∧
    (∃ (m : MsgIn) (s : State) (h : FragHdr) (i : Nat) (c : Coding) (got : Tab (List Byte)) (d : Desc) (bs : List
      RawBlock), FragGets 0x43 m s h ∧ codingOf s h = some (i, c) ∧ h.status = 0 ∧ c.rebuild = some got ∧ 8 ≤ (Tab.put
      h.frag h.bytes got).length ∧ descAt s i = some d ∧ rebuiltBlocks s d
      { (told c s h) with rebuild := some (Tab.put h.frag h.bytes got) } (Tab.put h.frag h.bytes got) = some bs) ∧
    (∃ (m : MsgIn) (s : State) (h : FragHdr) (i : Nat) (c : Coding) (got : Tab (List Byte)) (d : Desc), FragGets 0x43
      m s h ∧ codingOf s h = some (i, c) ∧ h.status = 0 ∧ c.rebuild = some got ∧ 8 ≤ (Tab.put h.frag h.bytes
      got).length ∧ descAt s i = some d ∧ rebuiltBlocks s d
      { (told c s h) with rebuild := some (Tab.put h.frag h.bytes got) } (Tab.put h.frag h.bytes got) = none) ∧
    (∃ (desc frag d : Nat) (s : State) (c : Coding), inService s = true ∧ codingAt s desc = some c ∧ frag < 10 ∧
      c.acked.contains frag = false ∧ c.holders.getD frag Config.none32 ≠ Config.none32 ∧ c.keeper = s.fab.node ∧
      fragTry (fragNodes s c.keeper c.index c.generation) frag (Tab.getD c.next frag 0) = some d) ∧
    (∃ (desc : Nat) (s : State) (c : Coding), inService s = true ∧ codingAt s desc = some c ∧ c.rebuild.isSome = true) :=
  ⟨⟨msg (fragH 0x40 []).whole, svc, fragH 0x40 [], (by constructor <;> decide +kernel), by decide +kernel⟩,
⟨msg (fragH 0x40 [1]).whole, (let s := svc;
    { s with stw := { s.stw with charter := { s.stw.charter with fragPool := 0 } } }), fragH 0x40 [1],
    (by constructor <;> decide +kernel), by decide +kernel⟩,
⟨msg (fragH 0x42 []).whole, { svc with cmp := { svc.cmp with held := [heldE] } }, fragH 0x42 [], heldE,
    (by constructor <;> decide +kernel), by decide +kernel, by decide +kernel⟩,
⟨msg (fragH 0x42 []).whole, svc, fragH 0x42 [], (by constructor <;> decide +kernel), by decide +kernel⟩,
⟨msg (fragH 0x44 []).whole, svc, fragH 0x44 [], (by constructor <;> decide +kernel)⟩,
⟨msg (fragH 0x41 []).whole, withCoding codingE, fragH 0x41 [], 0, codingE, (by constructor <;> decide +kernel),
    by decide +kernel, by decide +kernel, by decide +kernel, by decide +kernel, by decide +kernel⟩,
⟨msg ({ fragH 0x41 [] with status := 1 }).whole, withCoding codingE, { fragH 0x41 [] with status := 1 }, 0, codingE,
    (by constructor <;> decide +kernel), by decide +kernel, by decide +kernel, by decide +kernel, by decide +kernel⟩,
⟨msg (fragH 0x45 []).whole, withCoding { codingE with acked := [0] }, fragH 0x45 [], 0,
    { codingE with acked := [0] }, (by constructor <;> decide +kernel), by decide +kernel, by decide +kernel,
    by decide +kernel⟩,
⟨msg (fragH 0x43 []).whole, withCoding { codingE with rebuild := some [] }, fragH 0x43 [], 0,
    { codingE with rebuild := some [] }, [], (by constructor <;> decide +kernel), by decide +kernel,
    by decide +kernel, by decide +kernel, by decide +kernel⟩,
⟨msg (fragH 0x43 []).whole, (let s := withCoding rebuildE; { s with pgm := { s.pgm with descs := [(0, descE)] } }),
    fragH 0x43 [], 0, rebuildE, (List.range 8).map (fun k => (k, [])), descE, [], (by constructor <;> decide +kernel),
    by decide +kernel, by decide +kernel, by decide +kernel, by decide +kernel, by decide +kernel, by decide +kernel⟩,
⟨msg (fragH 0x43 []).whole, (let s := withCtx ctxE (withCoding rebuildE);
    { s with pgm := { s.pgm with descs := [(0, descE)] } }), fragH 0x43 [], 0, rebuildE, (List.range 8).map (fun k =>
    (k, [])), descE, (by constructor <;> decide +kernel), by decide +kernel, by decide +kernel, by decide +kernel,
    by decide +kernel, by decide +kernel, by decide +kernel⟩,
⟨0, 0, 1, withMap (withCoding codingE), codingE, by decide +kernel, by decide +kernel, by decide +kernel,
    by decide +kernel, by decide +kernel, by decide +kernel, by decide +kernel⟩,
⟨0, withCoding { codingE with rebuild := some [] }, { codingE with rebuild := some [] }, by decide +kernel,
    by decide +kernel, by decide +kernel⟩⟩

/-- States and operands that meet the hypotheses of `InHeadWriteTakesMessages`, clause by clause (clauses with
the same hypotheses share one). -/
theorem test_met_inHeadWriteTakesMessages :
    ∃ (channel : Nat) (s : State), inService s = true ∧ roleC s = false ∧ channel < 16 ∧ (channelOf s channel).inTail
      < inRingSize ∧ (channelOf s channel).inTail % 64 = 0 :=
  ⟨15, roled 0 svc, by decide +kernel, by decide +kernel, by decide +kernel, by decide +kernel, by decide +kernel⟩

/-- States and operands that meet the hypotheses of `LevelBitsLastTwoBoundaries`, clause by clause (clauses with
the same hypotheses share one). -/
theorem test_met_levelBitsLastTwoBoundaries :
    ∃ (s : State), seqMode s = false :=
  ⟨(let s := svc; { s with stw := { s.stw with charter := { s.stw.charter with statusClear := 0 } } }),
    by decide +kernel⟩

/-- States and operands that meet the hypotheses of `PowerLogKeepsLatestEntries`, clause by clause (clauses with
the same hypotheses share one). -/
theorem test_met_powerLogKeepsLatestEntries :
    ∃ (s : State), 2 ≤ s.stw.powerStep :=
  ⟨svc, by decide +kernel⟩

/-- States and operands that meet the hypotheses of `SupplyEvents`, clause by clause (clauses with
the same hypotheses share one). -/
theorem test_met_supplyEvents :
    (∃ (s : State), s.stw.powerStep = 0 ∧ s.sup.disconnected = false ∧ s.sup.failed = false) ∧
    (∃ (lowUs : Nat) (s : State), inService s = true ∧ 2 ≤ s.stw.powerStep ∧ lowUs ≤ 1000) ∧
    (∃ (lowUs : Nat) (s : State), inService s = true ∧ 2 ≤ s.stw.powerStep ∧ 1000 < lowUs) ∧
    (∃ (s : State), startingUp s = true ∧ s.sup.brown = true) ∧
    (∃ (volts bank : Nat) (s : State), 2 ≤ s.stw.powerStep ∧ s.sup.brown = false ∧ (volts < 4000 ∨ bank ≤ 200)) ∧
    (∃ (volts bank : Nat) (s : State), 2 ≤ s.stw.powerStep ∧ s.sup.brown = true ∧ 4200 ≤ volts ∧ 200 ≤ bank) ∧
    (∃ (volts : Nat) (s : State), s.stw.powerStep ≠ 0 ∧ 7200 < volts ∧ s.sup.disconnected = false) ∧
    (∃ (s : State), s.stw.powerStep ≠ 0) ∧
    (∃ (s : State), (s.sup.disconnected = true ∨ s.sup.failed = true) ∧ s.stw.powerStep = 0) :=
  ⟨⟨State.reset, by decide +kernel, by decide +kernel, by decide +kernel⟩,
⟨0, svc, by decide +kernel, by decide +kernel, by decide +kernel⟩,
⟨1001, svc, by decide +kernel, by decide +kernel, by decide +kernel⟩,
⟨supS (fun u => { u with brown := true }) (booting .starting 5), by decide +kernel, by decide +kernel⟩,
⟨3999, 500, svc, by decide +kernel, by decide +kernel, by decide +kernel⟩,
⟨4200, 200, supS (fun u => { u with brown := true }) (svc), by decide +kernel, by decide +kernel, by decide +kernel,
    by decide +kernel⟩,
⟨7201, svc, by decide +kernel, by decide +kernel, by decide +kernel⟩,
⟨svc, by decide +kernel⟩,
⟨supS (fun u => { u with disconnected := true }) (State.reset), by decide +kernel, by decide +kernel⟩⟩

/-- States and operands that meet the hypotheses of `HeatPowerAndSideband`, clause by clause (clauses with
the same hypotheses share one). -/
theorem test_met_heatPowerAndSideband :
    (∃ (die : Nat) (s : State), 2 ≤ s.stw.powerStep ∧ die < 20 ∧ s.sup.hot.contains die = false) ∧
    (∃ (die : Nat) (s : State), s.stw.powerStep ≠ 0 ∧ die < 20) ∧
    (∃ (watts : Nat) (s : State), inService s = true ∧ 2 ≤ s.stw.powerStep ∧ s.stw.charter.powerCap < watts) ∧
    (∃ (s : State), 2 ≤ s.stw.powerStep) :=
  ⟨⟨19, svc, by decide +kernel, by decide +kernel, by decide +kernel⟩,
⟨19, svc, by decide +kernel, by decide +kernel⟩,
⟨1501, svc, by decide +kernel, by decide +kernel, by decide +kernel⟩,
⟨svc, by decide +kernel⟩⟩

/-- States and operands that meet the hypotheses of `CxlPortsComeAndGo`, clause by clause (clauses with
the same hypotheses share one). -/
theorem test_met_cxlPortsComeAndGo :
    (∃ (port : Nat), port < 2) ∧
    (∃ (port rate width : Nat) (s : State), port < 2 ∧ 2 ≤ s.stw.powerStep ∧ (cxlOf s port).ideDown = false ∧ (rate =
      1 ∨ rate = 2) ∧ 0 < width ∧ width ≤ 16) ∧
    (∃ (port : Nat) (s : State), port < 2 ∧ 2 ≤ s.stw.powerStep) ∧
    (∃ (port width : Nat) (s : State), (cxlOf s port).ideDown = true ∧ 0 < width) ∧
    (∃ (port : Nat) (s : State), port < 2 ∧ (cxlOf s port).live = true) :=
  ⟨⟨1, by decide +kernel⟩,
⟨1, 2, 16, svc, by decide +kernel, by decide +kernel, by decide +kernel, by decide +kernel, by decide +kernel,
    by decide +kernel⟩,
⟨1, svc, by decide +kernel, by decide +kernel⟩,
⟨0, 1, hifS (fun u => { u with x0 := { ideDown := true } }) (svc), by decide +kernel, by decide +kernel⟩,
⟨0, linked, by decide +kernel, by decide +kernel⟩⟩

/-- States and operands that meet the hypotheses of `StartUpRuns`, clause by clause (clauses with
the same hypotheses share one). -/
theorem test_met_startUpRuns :
    (∃ (s : State), s.sup.brown = false ∧ s.stw.powerStep < 24 ∧ (s.stw.boot = .powering ∧ s.stw.powerStep = 1 ∨
      s.stw.boot = .starting ∧ 2 ≤ s.stw.powerStep)) ∧
    (∃ (s : State), s.sup.brown = true) ∧
    (∃ (o : BootOps) (s : State), s.stw.boot = .bootRom ∧ o.flashOk = false) ∧
    (Config.romKey 0 = sha384 (zeros 97) → ∃ (o : BootOps) (s : State), s.stw.boot = .bootRom ∧ o.flashOk = true ∧
      imageCause s (flashImage s) o.sigOk = 0) ∧
    (∃ (o : BootOps) (s : State), s.stw.boot = .bootRom ∧ o.flashOk = true ∧ imageCause s (flashImage s) o.sigOk ≠ 0) ∧
    (∃ (s : State), s.stw.boot = .starting ∧ s.stw.powerStep = 2) ∧
    (∃ (s : State), s.stw.boot = .starting ∧ 20 ≤ s.stw.powerStep ∧ s.stw.checked = false ∧ steppingsOk s = false) ∧
    (∃ (s : State), s.stw.boot = .starting ∧ 20 ≤ s.stw.powerStep ∧ s.stw.checked = false ∧ steppingsOk s = true) ∧
    (∃ (s : State), s.stw.boot = .starting ∧ s.stw.powerStep = 24 ∧ s.stw.checked = true) :=
  ⟨⟨booting .powering 1, by decide +kernel, by decide +kernel, by decide +kernel⟩,
⟨supS (fun u => { u with brown := true }) (svc), by decide +kernel⟩,
⟨{ nonce := zeros 16, flashOk := false, sigOk := true }, booting .bootRom 2, by decide +kernel, by decide +kernel⟩,
fun hk => ⟨{ nonce := zeros 16, flashOk := true, sigOk := true }, flashE, by decide +kernel, by decide +kernel,
    flashE_good hk⟩,
⟨{ nonce := zeros 16, flashOk := true, sigOk := true }, booting .bootRom 2, by decide +kernel, by decide +kernel,
    by decide +kernel⟩,
⟨booting .starting 2, by decide +kernel, by decide +kernel⟩,
⟨secS (fun u => { u with identity := [] }) (booting .starting 20), by decide +kernel, by decide +kernel,
    by decide +kernel, by decide +kernel⟩,
⟨booting .starting 20, by decide +kernel, by decide +kernel, by decide +kernel, by decide +kernel⟩,
⟨stwS (fun u => { u with checked := true }) (booting .starting 24), by decide +kernel, by decide +kernel,
    by decide +kernel⟩⟩

/-- States and operands that meet the hypotheses of `RecoveryTakesAnImage`, clause by clause (clauses with
the same hypotheses share one). -/
theorem test_met_recoveryTakesAnImage :
    (∃ (length : Nat) (chunk : List Byte) (s : State), s.stw.boot = .recovery ∧ chunk.length = chunkBytes (length % 2
      ^ 24) ∧ chunk.length ≤ chunkLimit ∧ s.stw.received.length + chunk.length ≤ imageLimit) ∧
    (∃ (length : Nat) (s : State), s.stw.boot = .recovery ∧ (chunkLimit < chunkBytes (length % 2 ^ 24) ∨ imageLimit <
      s.stw.received.length + chunkBytes (length % 2 ^ 24))) ∧
    (Config.romKey 0 = sha384 (zeros 97) → ∃ (sigOk : Bool) (s : State), s.stw.boot = .recovery ∧ imageCause s
      s.stw.received sigOk = 0) ∧
    (∃ (sigOk : Bool) (s : State), s.stw.boot = .recovery ∧ imageCause s s.stw.received sigOk ≠ 0) ∧
    (∃ (s : State), s.stw.boot = .recovery) :=
  ⟨⟨1, [0], booting .recovery 2, by decide +kernel, by decide +kernel, by decide +kernel, by decide +kernel⟩,
⟨8388609, booting .recovery 2, by decide +kernel, by decide +kernel⟩,
fun hk => ⟨true, stwS (fun u => { u with received := imageE }) (booting .recovery 2), by decide +kernel, imageE_good
    _ hk rfl rfl⟩,
⟨true, booting .recovery 2, by decide +kernel, by decide +kernel⟩,
⟨booting .recovery 2, by decide +kernel⟩⟩

/-- States and operands that meet the hypotheses of `HealthFindings`, clause by clause (clauses with
the same hypotheses share one). -/
theorem test_met_healthFindings :
    (∃ (die phys l : Nat) (s : State), inService s = true ∧ servedBy s die phys = some l ∧ (coreAt s die phys).state ≠
      .off ∧ (coreAt s die phys).state ≠ .quarantined ∧ phys ≤ 33 ∧ die ≤ 7) ∧
    (∃ (die phys : Nat) (s : State), inService s = true ∧ (coreAt s die phys).state ≠ .off ∧ (coreAt s die phys).state
      ≠ .quarantined ∧ phys ≤ 33 ∧ die ≤ 7) ∧
    (∃ (die phys : Nat) (s : State), inService s = true ∧ die < 8 ∧ phys < 34) ∧
    (∃ (failed : List (Nat × Nat)) (s : State), inService s = true ∧ (∀ c ∈ failed, c ∉ idleSpares s)) ∧
    (∃ (item : Nat) (s : State) (i : Item), s.car.items.find? (fun i => i.id == item) = some i ∧ inService s = true ∧
      i.done = true ∧ i.shadowed = false) ∧
    (∃ (item : Nat) (prim shadow : List Byte) (s : State) (i : Item), s.car.items.find? (fun i => i.id == item) = some
      i ∧ inService s = true ∧ i.done = true ∧ i.shadowed = false ∧ prim ≠ shadow ∧ s.hlt.mismatches.length < 64) ∧
    (∃ (mm : Nat) (s : State) (m : Mismatch), s.hlt.mismatches.find? (fun m => m.seqNo == mm) = some m ∧ inService s =
      true ∧ m.refStep.getD 0 ≤ stepNo s ∧ m.primPhys % 256 < 64) ∧
    (∃ (die : Nat) (s : State), inService s = true ∧ (dieOf s die).state = .readmitting) :=
  ⟨⟨7, 31, 31, svc, by decide +kernel, by decide +kernel, by decide +kernel, by decide +kernel, by decide +kernel,
    by decide +kernel⟩,
⟨7, 33, svc, by decide +kernel, by decide +kernel, by decide +kernel, by decide +kernel, by decide +kernel⟩,
⟨7, 33, svc, by decide +kernel, by decide +kernel, by decide +kernel⟩,
⟨[(0, 0)], svc, by decide +kernel, by decide +kernel⟩,
⟨0, carS (fun u => { u with items := [itemE] }) (svc), itemE, by decide +kernel, by decide +kernel,
    by decide +kernel, by decide +kernel⟩,
⟨0, [], [1], carS (fun u => { u with items := [itemE] }) (svc), itemE, by decide +kernel, by decide +kernel,
    by decide +kernel, by decide +kernel, by decide +kernel, by decide +kernel⟩,
⟨0, hltS (fun u => { u with mismatches := [mismatchE] }) (svc), mismatchE, by decide +kernel, by decide +kernel,
    by decide +kernel, by decide +kernel⟩,
⟨0, hltS (fun u => { u with dies := [(0, { state := .readmitting })] }) (svc), by decide +kernel, by decide +kernel⟩⟩

/-- States and operands that meet the hypotheses of `LinksAndMemoryErrors`, clause by clause (clauses with
the same hypotheses share one). -/
theorem test_met_linksAndMemoryErrors :
    (∃ (link : Nat) (s : State), linksTrained s = true ∧ link < 24) ∧
    (∃ (s : State), inService s = true) ∧
    (∃ (slot copy : Nat) (s : State), inService s = true ∧ Tab.has slot s.slc.hist = true ∧ copy < 2 ∧
      s.slc.histBad.contains (slot, copy) = false) ∧
    (∃ (i e : Nat) (s : State) (d : Desc), inService s = true ∧ descAt s i = some d ∧ (d.copyValid = false ∨ e ∈
      d.dirty) ∧ d.object = true) ∧
    (∃ (i : Nat) (s : State) (g : Segment), inService s = true ∧ s.tir.segments[i]? = some g ∧ g.state = .active) :=
  ⟨⟨23, svc, by decide +kernel, by decide +kernel⟩,
⟨svc, by decide +kernel⟩,
⟨0, 1, slcS (fun u => { u with hist := [(0, [])] }) (svc), by decide +kernel, by decide +kernel, by decide +kernel,
    by decide +kernel⟩,
⟨0, 0, pgmS (fun u => { u with descs := [(0, { descE with object := true })] }) (svc),
    { descE with object := true }, by decide +kernel, by decide +kernel, by decide +kernel, by decide +kernel⟩,
⟨0, tirS (fun u => { u with segments := [segmentE] }) (svc), segmentE, by decide +kernel, by decide +kernel,
    by decide +kernel⟩⟩

/-- States and operands that meet the hypotheses of `SpdmResponder`, clause by clause (clauses with
the same hypotheses share one). -/
theorem test_met_spdmResponder :
    (∃ (p : SpdmPort) (s : State), spdmOn s p = true) ∧
    (∃ (p : SpdmPort) (s : State), spdmOn s p = true ∧ (spdmOf s p).version ≠ 0) ∧
    (∃ (p : SpdmPort) (s : State), spdmOn s p = true ∧ (spdmOf s p).version = 0) ∧
    (∃ (p : SpdmPort) (version : Nat) (base meas asym : List Nat) (s : State), spdmOn s p = true ∧ (spdmOf s p).caps =
      true ∧ (version = 0x12 ∨ version = 0x13) ∧ algSha384 ∈ base ∧ algSha384 ∈ meas ∧ algBrainpool ∈ asym) ∧
    (∃ (p : SpdmPort) (version : Nat) (base meas asym : List Nat) (s : State), spdmOn s p = true ∧ (spdmOf s p).caps =
      true ∧ (version = 0x12 ∨ version = 0x13) ∧ (algSha384 ∉ base ∨ algSha384 ∉ meas ∨ algBrainpool ∉ asym)) ∧
    (∃ (p : SpdmPort) (s : State), spdmOn s p = true ∧ (spdmOf s p).algos = true) ∧
    (∃ (p : SpdmPort) (s : State), spdmOn s p = true ∧ (spdmOf s p).algos = false) ∧
    (∃ (p : SpdmPort) (offset : Nat) (s : State), spdmOn s p = true ∧ (spdmOf s p).algos = true ∧ offset < (certChain
      s).length) ∧
    (∃ (p : SpdmPort) (slot offset : Nat) (s : State), spdmOn s p = true ∧ (spdmOf s p).algos = true ∧ (slot ≠ 0 ∨
      (certChain s).length ≤ offset)) ∧
    (∃ (p : SpdmPort) (index : Nat) (s : State), spdmOn s p = true ∧ (spdmOf s p).algos = true ∧ 1 ≤ index ∧ index ≤
      9) :=
  ⟨⟨.mctp, svc, by decide +kernel⟩,
⟨.mctp, agreed, by decide +kernel, by decide +kernel⟩,
⟨.mctp, svc, by decide +kernel, by decide +kernel⟩,
⟨.mctp, 0x12, [algSha384], [algSha384], [algBrainpool], agreed, by decide +kernel, by decide +kernel,
    by decide +kernel, by decide +kernel, by decide +kernel, by decide +kernel⟩,
⟨.mctp, 0x13, [], [algSha384], [algBrainpool], agreed, by decide +kernel, by decide +kernel, by decide +kernel,
    by decide +kernel⟩,
⟨.mctp, agreed, by decide +kernel, by decide +kernel⟩,
⟨.mctp, svc, by decide +kernel, by decide +kernel⟩,
⟨.mctp, 0, agreed, by decide +kernel, by decide +kernel, by simp [certChain, le]⟩,
⟨.mctp, 1, 0, agreed, by decide +kernel, by decide +kernel, .inl (by decide)⟩,
⟨.mctp, 9, agreed, by decide +kernel, by decide +kernel, by decide +kernel, by decide +kernel⟩⟩

/-- States and operands that meet the hypotheses of `IdeKeysAreProgrammed`, clause by clause (clauses with
the same hypotheses share one). -/
theorem test_met_ideKeysAreProgrammed :
    (∃ (port : Nat) (stream : Bool) (blob : List Byte) (opened : Option (List Byte)) (s : State), port < 2 ∧
      blob.length = 256 ∧ mailboxOn s (cxlOf s port) = true ∧ blobCause s blob opened true stream = 0) ∧
    (∃ (port : Nat) (stream : Bool) (blob : List Byte) (opened : Option (List Byte)) (s : State), port < 2 ∧
      blob.length = 256 ∧ mailboxOn s (cxlOf s port) = true ∧ blobCause s blob opened true stream ≠ 0) :=
  ⟨⟨0, true, blobE, some (zeros 32), linked, by decide +kernel, by decide +kernel, by decide +kernel,
    by decide +kernel⟩,
⟨0, true, blobE, none, linked, by decide +kernel, by decide +kernel, by decide +kernel, by decide +kernel⟩⟩

/-- States and operands that meet the hypotheses of `RingCommandsWait`, clause by clause (clauses with
the same hypotheses share one). -/
theorem test_met_ringCommandsWait :
    (∃ (h : CmdHead) (o : LeaseOps) (s : State), RingReady h (.lease o) (place h.placed s)) ∧
    (∃ (h : CmdHead) (s : State), RingReady h .registerContext (place h.placed s)) ∧
    (∃ (h : CmdHead) (c : Nat) (s : State), RingReady h (.retireContext c) (place h.placed s)) ∧
    (∃ (h : CmdHead) (s : State), RingReady h .registerAdapter (place h.placed s)) ∧
    (∃ (h : CmdHead) (c : Nat) (s : State), RingReady h (.withdrawAdapter c) (place h.placed s)) ∧
    (∃ (h : CmdHead) (e c : Nat) (s : State), RingReady h (.installTable e c) (place h.placed s)) ∧
    (∃ (h : CmdHead) (s : State), RingReady h (.installKey none) (place h.placed s)) ∧
    (∃ (h : CmdHead) (d : Nat) (f : Bool) (s : State), RingReady h (.drainDie d f) (place h.placed s)) ∧
    (∃ (h : CmdHead) (d : Nat) (s : State), RingReady h (.readmitDie d) (place h.placed s)) ∧
    (∃ (h : CmdHead) (i n : Nat) (s : State), RingReady h (.freeObject i n) (place h.placed s)) ∧
    (∃ (h : CmdHead) (x a : Nat) (p d : Bool) (s : State), RingReady h (.allocObject x a p d) (place h.placed s)) ∧
    (∃ (h : CmdHead) (s : State), RingReady h .switchImage (place h.placed s)) ∧
    (∃ (h : CmdHead) (q : Nat) (s : State), RingReady h (.rehome q) (place h.placed s)) :=
  ⟨⟨headE 0, { cls := 0, orphan := 0, share := 0, seqQuota := 1, pageQuota := 1, ckpt := 0, models := 0 }, (ringed),
    (by constructor <;> decide +kernel)⟩,
⟨headE 256, (ringed), (by constructor <;> decide +kernel)⟩,
⟨headE 0, 63, (ringed), (by constructor <;> decide +kernel)⟩,
⟨headE 32, (ringed), (by constructor <;> decide +kernel)⟩,
⟨headE 0, 0, (ringed), (by constructor <;> decide +kernel)⟩,
⟨headE 144, 5, 0, (ringed), (by constructor <;> decide +kernel)⟩,
⟨headE 256, (ringed), (by constructor <;> decide +kernel)⟩,
⟨headE 0, 7, true, (ringed), (by constructor <;> decide +kernel)⟩,
⟨headE 0, 7, (ringed), (by constructor <;> decide +kernel)⟩,
⟨headE 0, 0, 0, (ringed), (by constructor <;> decide +kernel)⟩,
⟨headE 0, 2, 1, true, true, (ringed), (by constructor <;> decide +kernel)⟩,
⟨headE 0, (ringed), (by constructor <;> decide +kernel)⟩,
⟨headE 0, 7, (ringed), (by constructor <;> decide +kernel)⟩⟩

/-- States and operands that meet the hypotheses of `WindowCommandsAtTaking`, clause by clause (clauses with
the same hypotheses share one). -/
theorem test_met_windowCommandsAtTaking :
    (∃ (at_ w : Nat) (h : CmdHead) (o : WinOps) (s v : State), v = place h.placed (setNow at_ s) ∧ RingReady h
      (.openWindow o) v ∧ s.sec.upd ≠ .switching ∧ poldersOf v h.tenant < v.stw.charter.winQuota ∧ winRefusal v
      h.tenant o = none ∧ pickWindow v = some w ∧ 256 ≤ w) ∧
    (∃ (at_ w : Nat) (h : CmdHead) (s v : State), v = place h.placed (setNow at_ s) ∧ RingReady h (.revokeWindow w) v
      ∧ s.sec.upd ≠ .switching ∧ 256 ≤ w ∧ w < windowEnd ∧ (windowOf v w).state = .opened ∧ (windowOf v w).dike =
      h.tenant ∧ (windowOf v w).ticket = none) ∧
    (∃ (at_ w : Nat) (h : CmdHead) (o : WinOps) (s v : State), v = place h.placed (setNow at_ s) ∧ RingReady h
      (.reopenWindow w o) v ∧ s.sec.upd ≠ .switching ∧ 256 ≤ w ∧ w < windowEnd ∧ (windowOf v w).state = .opened ∧
      (windowOf v w).dike = h.tenant ∧ (windowOf v w).ticket = none ∧ winRefusal v h.tenant o = none ∧ (windowOf v
      w).openedAt.getD 0 + 500000 ≤ v.tmu.now) ∧
    (∃ (at_ w : Nat) (h : CmdHead) (o : WinOps) (s v : State), v = place h.placed (setNow at_ s) ∧ RingReady h
      (.reopenWindow w o) v ∧ s.sec.upd ≠ .switching ∧ 256 ≤ w ∧ w < windowEnd ∧ (windowOf v w).state = .opened ∧
      (windowOf v w).dike = h.tenant ∧ (windowOf v w).ticket = none ∧ winRefusal v h.tenant o = none ∧ v.tmu.now <
      (windowOf v w).openedAt.getD 0 + 500000) :=
  ⟨⟨0, 256, headE 0, opsE, pgmS (fun u => { u with descs := [(0, objectE)] }) (ringed), place [] (setNow 0 (pgmS (fun u
    => { u with descs := [(0, objectE)] }) (ringed))), rfl, (by constructor <;> decide +kernel), by decide +kernel,
    by decide +kernel, by decide +kernel, by decide +kernel, by decide +kernel⟩,
⟨0, 256, headE 0, withWindow windowE ringed, place [] (setNow 0 (withWindow windowE ringed)), rfl,
    (by constructor <;> decide +kernel), by decide +kernel, by decide +kernel, by decide +kernel, by decide +kernel,
    by decide +kernel, by decide +kernel⟩,
⟨500000, 256, headE 0, opsE, withWindow windowE ringed, place [] (setNow 500000 (withWindow windowE ringed)), rfl,
    (by constructor <;> decide +kernel), by decide +kernel, by decide +kernel, by decide +kernel, by decide +kernel,
    by decide +kernel, by decide +kernel, by decide +kernel, by decide +kernel⟩,
⟨499999, 256, headE 0, opsE, withWindow windowE ringed, place [] (setNow 499999 (withWindow windowE ringed)), rfl,
    (by constructor <;> decide +kernel), by decide +kernel, by decide +kernel, by decide +kernel, by decide +kernel,
    by decide +kernel, by decide +kernel, by decide +kernel, by decide +kernel⟩⟩

/-- States and operands that meet the hypotheses of `WindowsCloseAndReopen`, clause by clause (clauses with
the same hypotheses share one). -/
theorem test_met_windowsCloseAndReopen :
    (∃ (window : Nat) (s : State), 256 ≤ window ∧ (windowOf s window).state = .revoking ∧ (windowOf s window).ticket =
      none) ∧
    (∃ (window : Nat) (k : Ticket) (s : State), 256 ≤ window ∧ (windowOf s window).state = .revoking ∧ (windowOf s
      window).ticket = some k ∧ (windowOf s window).reopen = none ∧ k.ring < 64 ∧ k.silent = false) ∧
    (∃ (window : Nat) (k : Ticket) (o : WinOps) (s : State), 256 ≤ window ∧ (windowOf s window).state = .revoking ∧
      (windowOf s window).ticket = some k ∧ (windowOf s window).reopen = some o ∧ k.ring < 64 ∧ k.silent = false ∧
      winRefusal s (windowOf s window).dike o = none) ∧
    (∃ (window c : Nat) (k : Ticket) (o : WinOps) (s : State), 256 ≤ window ∧ (windowOf s window).state = .revoking ∧
      (windowOf s window).ticket = some k ∧ (windowOf s window).reopen = some o ∧ k.ring < 64 ∧ winRefusal s (windowOf
      s window).dike o = some c) ∧
    (∃ (at_ window : Nat) (k : Ticket) (o : WinOps) (s : State), 256 ≤ window ∧ (windowOf s window).state = .opened ∧
      (windowOf s window).ticket = some k ∧ (windowOf s window).reopen = some o ∧ (windowOf s window).openedAt.getD 0
      + 500000 ≤ max s.tmu.now at_ ∧ winRefusal s (windowOf s window).dike o = none) ∧
    (∃ (at_ window c : Nat) (k : Ticket) (o : WinOps) (s : State), 256 ≤ window ∧ (windowOf s window).state = .opened
      ∧ (windowOf s window).ticket = some k ∧ (windowOf s window).reopen = some o ∧ (windowOf s window).openedAt.getD
      0 + 500000 ≤ max s.tmu.now at_ ∧ winRefusal s (windowOf s window).dike o = some c ∧ k.ring < 64) :=
  ⟨⟨256, withWindow { windowE with state := .revoking } ringed, by decide +kernel, by decide +kernel,
    by decide +kernel⟩,
⟨256, ticketE, withWindow { windowE with state := .revoking, ticket := some ticketE } ringed, by decide +kernel,
    by decide +kernel, by decide +kernel, by decide +kernel, by decide +kernel, by decide +kernel⟩,
⟨256, ticketE, opsE, withWindow { windowE with state := .revoking, ticket := some ticketE, reopen := some opsE }
    ringed, by decide +kernel, by decide +kernel, by decide +kernel, by decide +kernel, by decide +kernel,
    by decide +kernel, by decide +kernel⟩,
⟨256, causeRange, ticketE, { opsE with rights := 0 }, withWindow
    { windowE with state := .revoking, ticket := some ticketE, reopen := some { opsE with rights := 0 } } ringed,
    by decide +kernel, by decide +kernel, by decide +kernel, by decide +kernel, by decide +kernel, by decide +kernel⟩,
⟨500000, 256, ticketE, opsE, withWindow { windowE with ticket := some ticketE, reopen := some opsE } ringed,
    by decide +kernel, by decide +kernel, by decide +kernel, by decide +kernel, by decide +kernel, by decide +kernel⟩,
⟨500000, 256, causeRange, ticketE, { opsE with rights := 0 }, withWindow
    { windowE with ticket := some ticketE, reopen := some { opsE with rights := 0 } } ringed, by decide +kernel,
    by decide +kernel, by decide +kernel, by decide +kernel, by decide +kernel, by decide +kernel, by decide +kernel⟩⟩

/-- States and operands that meet the hypotheses of `CommandsAtTaking`, clause by clause (clauses with
the same hypotheses share one). -/
theorem test_met_commandsAtTaking :
    (∃ (h : CmdHead) (s : State), RingReady h .compose (place h.placed s) ∧ s.sec.upd ≠ .switching ∧ mapCause (place
      h.placed s) (readMem (place h.placed s) h.bodyAddr h.bodyLen) = none) ∧
    (∃ (h : CmdHead) (layout source length : Nat) (s v : State), v = place h.placed s ∧ RingReady h (.buildTable
      layout source length) v ∧ s.sec.upd ≠ .switching ∧ layout < 6 ∧ length ≠ 0 ∧ length ≤ 67108864 ∧ inHdm source
      length = true) ∧
    (∃ (at_ : Nat) (h : CmdHead) (s v : State), v = place h.placed (setNow at_ s) ∧ RingReady h .stageImage v ∧
      updateBusy s = false) ∧
    (∃ (h : CmdHead) (s v : State), v = place h.placed s ∧ RingReady h .commitSvn v ∧ s.sec.upd = .flashDone) ∧
    (∃ (k : Ticket) (layout source length result : Nat) (rest : List (Ticket × Nat × Nat × Nat × Nat)) (s : State),
      inService s = true ∧ s.cmp.build = (k, layout, source, length, result) :: rest ∧ k.ring < 64 ∧ k.silent = false) :=
  ⟨⟨headE 192, mapped, (by constructor <;> decide +kernel), by decide +kernel, by decide +kernel⟩,
⟨headE 0, 5, Config.hdmBase, 67108864, ringed, place [] ringed, rfl, (by constructor <;> decide +kernel),
    by decide +kernel, by decide +kernel, by decide +kernel, by decide +kernel, by decide +kernel⟩,
⟨0, headE 0, ringed, place [] (setNow 0 (ringed)), rfl, (by constructor <;> decide +kernel), by decide +kernel⟩,
⟨headE 0, secS (fun u => { u with upd := .flashDone }) (ringed), place [] (secS (fun u =>
    { u with upd := .flashDone }) (ringed)), rfl, (by constructor <;> decide +kernel), by decide +kernel⟩,
⟨ticketE, 0, Config.hdmBase, 1, Config.hdmBase, [], cmpS (fun u =>
    { u with build := [(ticketE, 0, Config.hdmBase, 1, Config.hdmBase)] }) (ringed), by decide +kernel,
    by decide +kernel, by decide +kernel, by decide +kernel⟩⟩

/-- States and operands that meet the hypotheses of `WeirAndRemoteCommands`, clause by clause (clauses with
the same hypotheses share one). -/
theorem test_met_weirAndRemoteCommands :
    (∃ (at_ q n r : Nat) (e : Bool) (h : CmdHead) (s v : State), v = place h.placed (setNow at_ s) ∧ RingReady h
      (.setQueue q e n r) v ∧ s.sec.upd ≠ .switching ∧ 2 ≤ q ∧ q < 4096 ∧ 64 ≤ n ∧ n ≤ 65536 ∧ n % 64 = 0 ∧ r ≤
      1600000 ∧ queueAssigned q = true ∧ (q = 2 ∨ Tab.has (queueDike q) s.sec.leases = true)) ∧
    (∃ (at_ d r b : Nat) (e : Bool) (h : CmdHead) (s v : State), v = place h.placed (setNow at_ s) ∧ RingReady h
      (.setPolicer d e r b) v ∧ s.sec.upd ≠ .switching ∧ 1 ≤ r ∧ r ≤ 1600000 ∧ 4112 ≤ b ∧ b ≤ 16777216 ∧ Tab.has d
      s.sec.leases = true) ∧
    (∃ (at_ : Nat) (h : CmdHead) (o : RemoteOps) (s v : State) (m : OutMsg), v = place h.placed (setNow at_ s) ∧
      RingReady h (.write o) v ∧ s.sec.upd ≠ .switching ∧ h.subq ≠ 15 ∧ h.bodyLen ≠ 0 ∧ h.bodyLen ≤ 16842752 ∧
      h.tenant ≠ 0 ∧ (queueOf s (dikeQueue h.tenant h.subq)).enable = true ∧ m = remoteMessage 2 h.bodyLen (readMem v
      h.bodyAddr h.bodyLen) (.hostWrite (ticketOf h (.write o)) h.bodyAddr) h.notify h o (Tab.getD s.fab.nextSeq
      o.dest 0) ∧ slotFree s m = true) ∧
    (∃ (at_ : Nat) (h : CmdHead) (o : RemoteOps) (s v : State) (m : OutMsg), v = place h.placed (setNow at_ s) ∧
      RingReady h (.read o) v ∧ s.sec.upd ≠ .switching ∧ h.subq ≠ 15 ∧ h.bodyLen ≠ 0 ∧ h.bodyLen ≤ 1048576 ∧ h.tenant
      ≠ 0 ∧ (queueOf s (dikeQueue h.tenant h.subq)).enable = true ∧ m = remoteMessage 3 8 (le 4 h.bodyLen ++ zeros 4)
      (.hostRead (ticketOf h (.read o)) h.bodyAddr) false h o (Tab.getD s.fab.nextSeq o.dest 0) ∧ slotFree s m = true) ∧
    (∃ (at_ : Nat) (h : CmdHead) (o : RemoteOps) (s v : State) (m : OutMsg), v = place h.placed (setNow at_ s) ∧
      RingReady h (.atomic o) v ∧ s.sec.upd ≠ .switching ∧ h.subq ≠ 15 ∧ (o.op = 1 ∨ o.op = 2) ∧ h.tenant ≠ 0 ∧
      (queueOf s (dikeQueue h.tenant h.subq)).enable = true ∧ m = remoteMessage 5 24 (le 1 o.op ++ zeros 7 ++ le 8
      o.operand ++ le 8 o.compare) (.hostAtomic (ticketOf h (.atomic o))) false h o (Tab.getD s.fab.nextSeq o.dest 0)
      ∧ slotFree s m = true) :=
  ⟨⟨0, 2, 65536, 1600000, true, headE 0, served, place [] (setNow 0 (served)), rfl,
    (by constructor <;> decide +kernel), by decide +kernel, by decide +kernel, by decide +kernel, by decide +kernel,
    by decide +kernel, by decide +kernel, by decide +kernel, by decide +kernel, by decide +kernel⟩,
⟨0, 1, 1600000, 16777216, true, headE 0, served, place [] (setNow 0 (served)), rfl,
    (by constructor <;> decide +kernel), by decide +kernel, by decide +kernel, by decide +kernel, by decide +kernel,
    by decide +kernel, by decide +kernel⟩,
⟨0, headE 64, remoteE 0, served, place [] (setNow 0 (served)), remoteMessage 2 64 (readMem (place [] (setNow 0
    served)) bodyPlace 64) (.hostWrite (ticketOf (headE 64) (.write (remoteE 0))) bodyPlace) false (headE 64) (remoteE
    0) (Tab.getD served.fab.nextSeq 6 0), rfl, (by constructor <;> decide +kernel), by decide +kernel,
    by decide +kernel, by decide +kernel, by decide +kernel, by decide +kernel, by decide +kernel, rfl,
    by decide +kernel⟩,
⟨0, headE 64, remoteE 0, served, place [] (setNow 0 (served)), remoteMessage 3 8 (le 4 64 ++ zeros 4) (.hostRead
    (ticketOf (headE 64) (.read (remoteE 0))) bodyPlace) false (headE 64) (remoteE 0) (Tab.getD served.fab.nextSeq 6
    0), rfl, (by constructor <;> decide +kernel), by decide +kernel, by decide +kernel, by decide +kernel,
    by decide +kernel, by decide +kernel, by decide +kernel, rfl, by decide +kernel⟩,
⟨0, headE 0, remoteE 2, served, place [] (setNow 0 (served)), remoteMessage 5 24 (le 1 2 ++ zeros 7 ++ le 8 0 ++ le
    8 0) (.hostAtomic (ticketOf (headE 0) (.atomic (remoteE 2)))) false (headE 0) (remoteE 2) (Tab.getD
    served.fab.nextSeq 6 0), rfl, (by constructor <;> decide +kernel), by decide +kernel, by decide +kernel,
    by decide +kernel, by decide +kernel, by decide +kernel, rfl, by decide +kernel⟩⟩

/-- States and operands that meet the hypotheses of `InspectionLatches`, clause by clause (clauses with
the same hypotheses share one). -/
theorem test_met_inspectionLatches :
    (∃ (s : State), inService s = true) ∧
    (∃ (s : State), stwOn s = true) :=
  ⟨⟨svc, by decide +kernel⟩,
⟨svc, by decide +kernel⟩⟩

/-- States and operands that meet the hypotheses of `RegisterWritesDoWhatTheirKindSays`, clause by clause (clauses with
the same hypotheses share one). -/
theorem test_met_registerWritesDoWhatTheirKindSays :
    (∃ (addr b o : Nat) (value : Word) (s : State), blockWord addr = some (b, o) ∧ acts s b o = true ∧
      statusWords.contains (regAddr b o) = true ∧ addr % 4 = 0 ∧ seqMode s = true ∧ value.toNat / 2 ^ 24 % 256 =
      evseqOf s (regAddr b o)) ∧
    (∃ (addr b o : Nat) (value : Word) (s : State), blockWord addr = some (b, o) ∧ acts s b o = true ∧
      statusWords.contains (regAddr b o) = true ∧ addr % 4 = 0 ∧ seqMode s = true ∧ value.toNat / 2 ^ 24 % 256 ≠
      evseqOf s (regAddr b o)) ∧
    (∃ (addr : Nat) (s : State), stwOn s = true ∧ unusedRange addr = true) ∧
    (∃ (addr be : Nat) (s : State), stwOn s = true ∧ (touched addr).any unusedRange = false ∧ (addr % 4 ≠ 0 ∨ be % 16
      ≠ 15)) ∧
    (∃ (addr : Nat) (s : State), stwOn s = true ∧ (touched addr).any unusedRange = true) ∧
    (∃ (addr : Nat) (s : State), stwOn s = true ∧ addr % 4 = 0) ∧
    (∃ (addr b o : Nat) (s : State), stwOn s = true ∧ blockWord addr = some (b, o) ∧ addr % 4 = 0 ∧
      statusWords.contains (regAddr b o) = false ∧ rwMask b o = 0 ∧ actions b o = 0 ∧ b ≠ 1) ∧
    (∃ (addr i : Nat) (s : State), stwOn s = true ∧ aliasWord addr = some (0, 0x200, i) ∧ addr % 4 = 0 ∧ 6 ≤ i ∧ i <
      32 ∧ regWord s 0 0x200 &&& 0xFFFFFFC0 = regWord s 0 0x200) ∧
    (∃ (addr b o i : Nat), aliasWord addr = some (b, o, i) ∧ (statusWords.contains (regAddr b o) = true ∨ (bitOf
      (actions b o) i = false ∧ bitOf (writable b o) i = false))) :=
  ⟨⟨0x4, 0, 4, 1, svc, by decide +kernel, by decide +kernel, by decide +kernel, by decide +kernel, by decide +kernel,
    by decide +kernel⟩,
⟨0x4, 0, 4, 0x01000001, svc, by decide +kernel, by decide +kernel, by decide +kernel, by decide +kernel,
    by decide +kernel, by decide +kernel⟩,
⟨0x0E00000, svc, by decide +kernel, by decide +kernel⟩,
⟨0x200, 1, svc, by decide +kernel, by decide +kernel, .inr (by decide)⟩,
⟨0x0DFFFFE, svc, by decide +kernel, by decide +kernel⟩,
⟨0x200, svc, by decide +kernel, by decide +kernel⟩,
⟨0, 0, 0, svc, by decide +kernel, by decide +kernel, by decide +kernel, by decide +kernel, by decide +kernel,
    by decide +kernel, by decide +kernel⟩,
⟨0x100407C, 31, svc, by decide +kernel, by decide +kernel, by decide +kernel, by decide +kernel, by decide +kernel,
    by decide +kernel⟩,
⟨0x1000080, 0, 4, 0, by decide +kernel, .inl (by decide +kernel)⟩⟩

/-- States and operands that meet the hypotheses of `NodorReceiver`, clause by clause (clauses with
the same hypotheses share one). -/
theorem test_met_nodorReceiver :
    (∃ (at_ : Nat) (p : Packet) (s : State), FrameGood 1 p (setNow at_ s) ∧ PacketAllowed p (setNow at_ s) ∧ findIn s
      p = none ∧ SourceHeld p s ∧ intakeFree s p = true ∧ p.count ≠ 1) ∧
    (∃ (at_ : Nat) (p : Packet) (s : State), FrameGood 1 p (setNow at_ s) ∧ PacketAllowed p (setNow at_ s) ∧ findIn s
      p = none ∧ SourceHeld p s ∧ intakeFree s p = true ∧ p.count = 1 ∧ p.index = 0 ∧ p.pktOffset = 0 ∧
      p.payload.length = p.msgLen ∧ p.opcode = 1 ∧ (s.fab.done.filter (fun d => d.source == p.source)).length < 4096) ∧
    (∃ (at_ : Nat) (p : Packet) (d : Desc) (s : State), FrameGood 2 p (setNow at_ s) ∧ PacketAllowed p (setNow at_ s)
      ∧ findIn s p = none ∧ SourceHeld p s ∧ Passes p (setNow at_ s) ∧ p.count ≠ 1 ∧ Tab.look (windowOf s
      p.window).desc s.pgm.descs = some d ∧ d.tenant = p.dike) ∧
    (∃ (at_ : Nat) (p : Packet) (d : Desc) (s : State), FrameGood 2 p (setNow at_ s) ∧ PacketAllowed p (setNow at_ s)
      ∧ findIn s p = none ∧ SourceHeld p s ∧ Passes p (setNow at_ s) ∧ p.count = 1 ∧ p.index = 0 ∧ p.pktOffset = 0 ∧
      p.payload.length = p.msgLen ∧ p.opcode = 2 ∧ (s.fab.done.filter (fun d => d.source == p.source)).length < 4096 ∧
      packetNotify p = false ∧ Tab.look (windowOf s p.window).desc s.pgm.descs = some d ∧ d.tenant = p.dike) ∧
    (∃ (at_ : Nat) (p : Packet) (s : State), FrameGood 2 p (setNow at_ s) ∧ PacketAllowed p (setNow at_ s) ∧ findIn s
      p = none ∧ (Tab.getD s.wei.policers p.dike {}).enable = true ∧ (Tab.getD s.wei.policers p.dike {}).tokensAt
      (setNow at_ s).tmu.now < max p.payload.length 64 * 1000) ∧
    (∃ (at_ : Nat) (p : Packet) (d : Desc) (s : State), FrameGood 3 p (setNow at_ s) ∧ PacketAllowed p (setNow at_ s)
      ∧ SourceHeld p s ∧ Passes p (setNow at_ s) ∧ Tab.look (windowOf s p.window).desc s.pgm.descs = some d ∧
      (s.fab.done.filter (fun d => d.source == p.source)).length < 4096 ∧ d.tenant = p.dike) ∧
    (∃ (at_ : Nat) (p : Packet) (d : Desc) (s : State) (old new : Nat), FrameGood 5 p (setNow at_ s) ∧ PacketAllowed p
      (setNow at_ s) ∧ SourceHeld p s ∧ Passes p (setNow at_ s) ∧ Tab.look (windowOf s p.window).desc s.pgm.descs =
      some d ∧ old = unle (d.read ((windowOf s p.window).base + p.winOffset) 8) ∧ (new = if fld p.payload 0 1 = 1 then
      (old + fld p.payload 8 8) % 2 ^ 64 else if old = fld p.payload 16 8 then fld p.payload 8 8 else old) ∧
      (s.fab.done.filter (fun d => d.source == p.source)).length < 4096 ∧ d.tenant = p.dike) :=
  ⟨⟨0, { packetE 1 (zeros 64) with window := 1, msgLen := 128, count := 2 }, wired,
    (by constructor <;> decide +kernel), (by constructor <;> decide +kernel), by decide +kernel, .inr
    (by decide +kernel), by decide +kernel, by decide +kernel⟩,
⟨0, { packetE 1 (zeros 64) with window := 1 }, wired, (by constructor <;> decide +kernel),
    (by constructor <;> decide +kernel), by decide +kernel, .inr (by decide +kernel), by decide +kernel,
    by decide +kernel, by decide +kernel, by decide +kernel, by decide +kernel, by decide +kernel, by decide +kernel⟩,
⟨0, { packetE 2 (zeros 64) with msgLen := 128, count := 2 }, objectE, wired, (by constructor <;> decide +kernel),
    (by constructor <;> decide +kernel), by decide +kernel, .inr (by decide +kernel), .inl (by decide +kernel),
    by decide +kernel, by decide +kernel, by decide +kernel⟩,
⟨0, packetE 2 (zeros 64), objectE, wired, (by constructor <;> decide +kernel), (by constructor <;> decide +kernel),
    by decide +kernel, .inr (by decide +kernel), .inl (by decide +kernel), by decide +kernel, by decide +kernel,
    by decide +kernel, by decide +kernel, by decide +kernel, by decide +kernel, by decide +kernel, by decide +kernel,
    by decide +kernel⟩,
⟨0, packetE 2 (zeros 64), policed, (by constructor <;> decide +kernel), (by constructor <;> decide +kernel),
    by decide +kernel, by decide +kernel, by decide +kernel⟩,
⟨0, packetE 3 (le 4 128 ++ zeros 4), objectE, wired, (by constructor <;> decide +kernel),
    (by constructor <;> decide +kernel), .inr (by decide +kernel), .inl (by decide +kernel), by decide +kernel,
    by decide +kernel, by decide +kernel⟩,
⟨0, packetE 5 (le 1 1 ++ zeros 7 ++ le 8 1 ++ zeros 8), objectE, wired, 0, 1, (by constructor <;> decide +kernel),
    (by constructor <;> decide +kernel), .inr (by decide +kernel), .inl (by decide +kernel), by decide +kernel,
    by decide +kernel, by decide +kernel, by decide +kernel, by decide +kernel⟩⟩

/-- States and operands that meet the hypotheses of `NodorSender`, clause by clause (clauses with
the same hypotheses share one). -/
theorem test_met_nodorSender :
    (∃ (at_ a : Nat) (p : Packet) (m : OutMsg) (k : Ticket) (s : State), FrameGood 8 p (setNow at_ s) ∧ findOut s
      p.source p.msgSeq = some m ∧ (m.window = p.window ∧ m.gen = p.gen) ∧ fld p.payload 0 1 ≠ 2 ∧ m.opcode = 2 ∧
      m.carried = .hostWrite k a ∧ k.ring < 64) ∧
    (∃ (at_ : Nat) (p : Packet) (m : OutMsg) (k : Ticket) (s : State), FrameGood 9 p (setNow at_ s) ∧ findOut s
      p.source p.msgSeq = some m ∧ (m.window = p.window ∧ m.gen = p.gen) ∧ m.ticket = some k ∧ k.ring < 64) ∧
    (∃ (at_ : Nat) (p : Packet) (m : OutMsg) (k : Ticket) (s : State), FrameGood 6 p (setNow at_ s) ∧ findOut s
      p.source p.msgSeq = some m ∧ m.opcode = 5 ∧ m.carried = .hostAtomic k ∧ k.ring < 64) ∧
    (∃ (at_ a : Nat) (p : Packet) (m : OutMsg) (k : Ticket) (s : State), FrameGood 4 p (setNow at_ s) ∧ findOut s
      p.source p.msgSeq = some m ∧ m.opcode = 3 ∧ m.carried = .hostRead k a ∧ Tab.has p.index m.answer = false ∧
      p.msgLen = fld ((m.packets.map (·.2)).flatten) 0 4 ∧ (Tab.put p.index (p.pktOffset, p.payload) m.answer).length
      ≠ p.count) ∧
    (∃ (at_ a : Nat) (p : Packet) (m : OutMsg) (k : Ticket) (s : State), FrameGood 4 p (setNow at_ s) ∧ findOut s
      p.source p.msgSeq = some m ∧ m.opcode = 3 ∧ m.carried = .hostRead k a ∧ Tab.has p.index m.answer = false ∧
      p.msgLen = fld ((m.packets.map (·.2)).flatten) 0 4 ∧ (Tab.put p.index (p.pktOffset, p.payload) m.answer).length
      = p.count ∧ ((Tab.put p.index (p.pktOffset, p.payload) m.answer).map (fun g => g.2.2.length)).sum = p.msgLen ∧
      k.ring < 64) ∧
    (∃ (source msgSeq : Nat) (m : InMsg) (s : State), s.fab.inbound.find? (fun m => m.source == source && m.seq ==
      msgSeq) = some m) ∧
    (∃ (at_ dest msgSeq : Nat) (m : OutMsg) (s : State), findOut s dest msgSeq = some m ∧ m.unsent = 0 ∧
      m.firstSent.isSome = true ∧ m.latestSent + s.stw.charter.resend * 1000 ≤ (setNow at_ s).tmu.now) ∧
    (∃ (dest msgSeq first : Nat) (m : OutMsg) (k : Ticket) (s : State), findOut s dest msgSeq = some m ∧ m.firstSent =
      some first ∧ m.ticket = some k ∧ k.ring < 64) ∧
    (∃ (port : Nat) (s : State), portsOn s = true ∧ port ≤ 7 ∧ (portOf s port).up = false) ∧
    (∃ (port next : Nat) (s : State), portsOn s = true ∧ port ≤ 7 ∧ (portOf s port).up = true ∧ (portOf s
      port).withdrawn = false ∧ next = nextPort (setPort port { portOf s port with up := false } s) (port + 1) ∧ next
      ≠ port) :=
  ⟨⟨0, bodyPlace, packetE 8 (le 1 1 ++ zeros 7), sentE 2 (.hostWrite ticketE bodyPlace) (zeros 64), ticketE, sending
    (sentE 2 (.hostWrite ticketE bodyPlace) (zeros 64)), (by constructor <;> decide +kernel), by decide +kernel,
    by decide +kernel, by decide +kernel, by decide +kernel, by decide +kernel, by decide +kernel⟩,
⟨0, packetE 9 (zeros 8), sentE 2 (.hostWrite ticketE bodyPlace) (zeros 64), ticketE, sending (sentE 2 (.hostWrite
    ticketE bodyPlace) (zeros 64)), (by constructor <;> decide +kernel), by decide +kernel, by decide +kernel,
    by decide +kernel, by decide +kernel⟩,
⟨0, packetE 6 (zeros 8), sentE 5 (.hostAtomic ticketE) (zeros 24), ticketE, sending (sentE 5 (.hostAtomic ticketE)
    (zeros 24)), (by constructor <;> decide +kernel), by decide +kernel, by decide +kernel, by decide +kernel,
    by decide +kernel⟩,
⟨0, bodyPlace, { packetE 4 (zeros 32) with msgLen := 64, count := 2 }, sentE 3 (.hostRead ticketE bodyPlace) (le 4
    64 ++ zeros 4), ticketE, sending (sentE 3 (.hostRead ticketE bodyPlace) (le 4 64 ++ zeros 4)),
    (by constructor <;> decide +kernel), by decide +kernel, by decide +kernel, by decide +kernel, by decide +kernel,
    by decide +kernel, by decide +kernel⟩,
⟨0, bodyPlace, packetE 4 (zeros 64), sentE 3 (.hostRead ticketE bodyPlace) (le 4 64 ++ zeros 4), ticketE, sending
    (sentE 3 (.hostRead ticketE bodyPlace) (le 4 64 ++ zeros 4)), (by constructor <;> decide +kernel),
    by decide +kernel, by decide +kernel, by decide +kernel, by decide +kernel, by decide +kernel, by decide +kernel,
    by decide +kernel, by decide +kernel⟩,
⟨5, 3, arrivedE, fabS (fun u => { u with inbound := [arrivedE] }) (wired), by decide +kernel⟩,
⟨40000, 5, 3, sentE 2 (.hostWrite ticketE bodyPlace) (zeros 64), sending (sentE 2 (.hostWrite ticketE bodyPlace)
    (zeros 64)), by decide +kernel, by decide +kernel, by decide +kernel, by decide +kernel⟩,
⟨5, 3, 0, sentE 2 (.hostWrite ticketE bodyPlace) (zeros 64), ticketE, sending (sentE 2 (.hostWrite ticketE
    bodyPlace) (zeros 64)), by decide +kernel, by decide +kernel, by decide +kernel, by decide +kernel⟩,
⟨7, svc, by decide +kernel, by decide +kernel, by decide +kernel⟩,
⟨0, 1, fabS (fun u => { u with ports := [(0, { up := true }), (1, { up := true })] }) (svc), by decide +kernel,
    by decide +kernel, by decide +kernel, by decide +kernel, by decide +kernel, by decide +kernel⟩⟩

/-- States and operands that meet the hypotheses of `ImagesAreVerifiedSwitchedAndWritten`, clause by clause (clauses with
the same hypotheses share one). -/
theorem test_met_imagesAreVerifiedSwitchedAndWritten :
    (Config.romKey 0 = sha384 (zeros 97) → ∃ (sigOk : Bool) (k : Ticket) (s : State), inService s = true ∧ s.sec.upd =
      .verifying ∧ imageCause s (imageRead s) sigOk = 0 ∧ s.sec.updTicket = some k ∧ k.ring < 64 ∧ k.silent = false) ∧
    (∃ (sigOk : Bool) (k : Ticket) (s : State), inService s = true ∧ s.sec.upd = .verifying ∧ imageCause s (imageRead
      s) sigOk ≠ 0 ∧ s.sec.updTicket = some k ∧ k.ring < 64) ∧
    (∃ (s : State), inService s = true ∧ s.sec.upd = .staged) ∧
    (∃ (k : Ticket) (s : State), inService s = true ∧ s.sec.upd = .switching ∧ s.sec.updTicket = some k ∧ k.ring < 64
      ∧ k.silent = false ∧ (∀ e, s.stw.flashQueue.head? ≠ some (.health e))) ∧
    (∃ (bytes : List Byte) (rest : List FlashWrite) (s : State), inService s = true ∧ s.stw.flashQueue = .image bytes
      false :: rest ∧ (∀ e, rest.head? ≠ some (.health e))) ∧
    (∃ (bytes : List Byte) (rest : List FlashWrite) (s : State), inService s = true ∧ s.stw.flashQueue = .image bytes
      true :: rest ∧ (∀ e, rest.head? ≠ some (.health e))) ∧
    (∃ (bytes : List Byte) (recovery : Bool) (rest : List FlashWrite) (s : State), inService s = true ∧
      s.stw.flashQueue = .image bytes recovery :: rest ∧ (∀ e, rest.head? ≠ some (.health e))) :=
  ⟨fun hk => ⟨true, ticketE, updating .verifying, by decide +kernel, by decide +kernel, imageE_good _ hk rfl rfl,
    by decide +kernel, by decide +kernel, by decide +kernel⟩,
⟨false, ticketE, secS (fun u => { u with staged := [] }) (updating .verifying), by decide +kernel,
    by decide +kernel, by decide +kernel, by decide +kernel, by decide +kernel⟩,
⟨updating .staged, by decide +kernel, by decide +kernel⟩,
⟨ticketE, updating .switching, by decide +kernel, by decide +kernel, by decide +kernel, by decide +kernel,
    by decide +kernel, (by intro e h; cases h)⟩,
⟨[], [], flashQ [.image [] false], by decide +kernel, by decide +kernel, (by intro e h; cases h)⟩,
⟨[], [], flashQ [.image [] true], by decide +kernel, by decide +kernel, (by intro e h; cases h)⟩,
⟨[], false, [], flashQ [.image [] false], by decide +kernel, by decide +kernel, (by intro e h; cases h)⟩⟩

/-- States and operands that meet the hypotheses of `CharterRegionIsWritten`, clause by clause (clauses with
the same hypotheses share one). -/
theorem test_met_charterRegionIsWritten :
    (∃ (s : State), 2 ≤ s.stw.powerStep ∧ charterBusy s = false ∧ inHdm (charterSrc s) charterBytes = true ∧ (∀ e,
      s.stw.flashQueue.head? ≠ some (.health e))) ∧
    (∃ (s : State), 2 ≤ s.stw.powerStep ∧ (charterBusy s = true ∨ inHdm (charterSrc s) charterBytes = false)) ∧
    (∃ (image : List Byte) (rest : List FlashWrite) (s : State), s.stw.flashQueue = .charter image :: rest ∧ (∀ e,
      rest.head? ≠ some (.health e)) ∧ (∀ i, rest.head? ≠ some (.charter i))) :=
  ⟨⟨hifS (fun u => { u with rw := [(regAddr 0 0x204, 0x1E)] }) (svc), by decide +kernel, by decide +kernel,
    by decide +kernel, (by intro e h; cases h)⟩,
⟨stwS (fun u => { u with flashQueue := [.charter []] }) (svc), by decide +kernel, by decide +kernel⟩,
⟨[], [], flashQ [.charter []], by decide +kernel, (by intro e h; cases h), (by intro e h; cases h)⟩⟩

/-- States and operands that meet the hypotheses of `JournalCheckpointsReplay`, clause by clause (clauses with
the same hypotheses share one). -/
theorem test_met_journalCheckpointsReplay :
    (∃ (s : State), inService s = true ∧ s.stw.charter.replay = 0) ∧
    (∃ (s : State), s.stw.charter.replay = 1) ∧
    (∃ (s : State), inService s = true ∧ s.stw.charter.replay = 1 ∧ s.hlt.starved = false) ∧
    (∃ (s : State), inService s = true) ∧
    (∃ (rs : List JRec) (tail n : Nat) (r : JRec) (s : State), inService s = true ∧ s.stw.charter.replay = 1 ∧
      s.hlt.replaying = true ∧ nextStep s = some (rs, tail) ∧ stepMismatch s rs = some (r, n)) ∧
    (∃ (rs : List JRec) (tail : Nat) (s : State), inService s = true ∧ s.stw.charter.replay = 1 ∧ s.hlt.replaying =
      true ∧ nextStep s = some (rs, tail) ∧ stepMismatch s rs = none ∧ s.hlt.halted = false ∧ s.hlt.starved = false ∧
      nextStep (passStep tail s) = none) :=
  ⟨⟨svc, by decide +kernel, by decide +kernel⟩,
⟨replaying, by decide +kernel⟩,
⟨replaying, by decide +kernel, by decide +kernel, by decide +kernel⟩,
⟨svc, by decide +kernel⟩,
⟨((nextStep journalTwo).getD ([], 0)).1, ((nextStep journalTwo).getD ([], 0)).2, 5, recordE, journalTwo,
    by decide +kernel, by decide +kernel, by decide +kernel, by decide +kernel, by decide +kernel⟩,
⟨((nextStep journalLast).getD ([], 0)).1, ((nextStep journalLast).getD ([], 0)).2, journalLast, by decide +kernel,
    by decide +kernel, by decide +kernel, by decide +kernel, by decide +kernel, by decide +kernel, by decide +kernel,
    by decide +kernel⟩⟩

/-- States and operands that meet the hypotheses of `StepBoundaryOpensTheStep`, clause by clause (clauses with
the same hypotheses share one). -/
theorem test_met_stepBoundaryOpensTheStep :
    ∃ (s : State), inService s = true ∧ s.stw.charter.replay ≠ 1 ∧ s.tmu.gridRun = true ∧ (s.tmu.state ≠ .lost ∨
      s.tmu.stepReq = false) :=
  ⟨tmuS (fun u => { u with gridRun := true }) (svc), by decide +kernel, by decide +kernel, by decide +kernel,
    by decide +kernel⟩

/-- States and operands that meet the hypotheses of `RingRegisters`, clause by clause (clauses with
the same hypotheses share one). -/
theorem test_met_ringRegisters :
    (∃ (ring : Nat) (value : Word) (s : State), inService s = true ∧ ring < 64 ∧ (ringOf s ring).enabled = false ∧
      bitOf value.toNat 31 = true) ∧
    (∃ (ring : Nat) (value : Word) (s : State), inService s = true ∧ ring < 64 ∧ (ringOf s ring).enabled = false ∧
      bitOf value.toNat 31 = false) ∧
    (∃ (ring : Nat) (value : Word) (s : State), inService s = true ∧ ring < 64 ∧ (ringOf s ring).enabled = true ∧
      bitOf value.toNat 31 = false) ∧
    (∃ (ring : Nat) (value : Word) (s : State), inService s = true ∧ ring < 64 ∧ (ringOf s ring).enabled = true ∧
      bitOf value.toNat 31 = true) ∧
    (∃ (ring : Nat) (s : State), inService s = true ∧ ring < 64 ∧ (ringOf s ring).sqHead = (ringOf s ring).sqTail) ∧
    (∃ (ring tail : Nat) (s : State), inService s = true ∧ ring < 64 ∧ (ringOf s ring).enabled = true ∧ (ringOf s
      ring).error = false ∧ (ringOf s ring).size ≤ tail % 8192) ∧
    (∃ (ring tail : Nat) (s : State), inService s = true ∧ ring < 64 ∧ ((ringOf s ring).error = true ∨ (ringOf s
      ring).enabled = false ∨ (ringOf s ring).sqHead = tail % 8192 ∧ tail % 8192 < (ringOf s ring).size)) :=
  ⟨⟨63, 0x86000000, svc, by decide +kernel, by decide +kernel, by decide +kernel, by decide +kernel⟩,
⟨63, 0x06000000, svc, by decide +kernel, by decide +kernel, by decide +kernel, by decide +kernel⟩,
⟨1, 0, ringed, by decide +kernel, by decide +kernel, by decide +kernel, by decide +kernel⟩,
⟨1, 0x86000000, ringed, by decide +kernel, by decide +kernel, by decide +kernel, by decide +kernel⟩,
⟨1, ringed, by decide +kernel, by decide +kernel, by decide +kernel⟩,
⟨1, 64, ringed, by decide +kernel, by decide +kernel, by decide +kernel, by decide +kernel, by decide +kernel⟩,
⟨63, 1, svc, by decide +kernel, by decide +kernel, by decide +kernel⟩⟩

/-- States and operands that meet the hypotheses of `SealsTiersAndOutputs`, clause by clause (clauses with
the same hypotheses share one). -/
theorem test_met_sealsTiersAndOutputs :
    (∃ (i : Nat) (s : State) (d : Desc) (c : Ctx) (bs : List Scb), inService s = true ∧ descAt s i = some d ∧ d.object
      = false ∧ d.packed = false ∧ d.state = .sealing ∧ ctxOf s d.context = some c ∧ bs = packAll (currentTable s
      d.context 1 (stepNo s)) (layoutOf c.kvFormat) (rawPage c (pageTokens s) d.rows)) ∧
    (∃ (i : Nat) (s : State) (d : Desc) (bs : List (List Byte)), inService s = true ∧ descAt s i = some d ∧
      d.promoting = true ∧ d.copy ≠ some (List.range d.extents) ∧ copiedBlocks s d = some bs) ∧
    (∃ (i : Nat) (s : State) (d : Desc), inService s = true ∧ descAt s i = some d ∧ d.promoting = true ∧ d.copy ≠ some
      (List.range d.extents) ∧ copiedBlocks s d = none) ∧
    (∃ (i extent : Nat) (s : State) (d : Desc), inService s = true ∧ descAt s i = some d ∧ extent ∈ d.writing) ∧
    (∃ (h : Hidden) (s : State) (slot : Nat) (e : Seq) (c : Ctx) (o : Owned), takesFrom s h.source = true ∧ roleC s =
      false ∧ ownedBy s h.source h.handle = some slot ∧ seqAt s slot = some e ∧ e.ownEpoch = h.epoch ∧ ctxOf s
      e.context = some c ∧ ownedAt s slot = some o ∧ h.damage = 0) ∧
    (∃ (h : Hidden) (s : State), takesFrom s h.source = true ∧ roleC s = false ∧ h.damage ≠ 0) ∧
    (∃ (channel : Nat) (s : State), inService s = true ∧ roleC s = false ∧ channel < 16 ∧ (channelOf s
      channel).waiting = []) ∧
    (∃ (channel tail : Nat) (r : List Byte) (s : State), inService s = true ∧ roleC s = false ∧ channel < 16 ∧
      (channelOf s channel).waiting = [r] ∧ channelOn s channel = true ∧ outRoom
      { channelOf s channel with outTail := tail % outRingSize / 64 * 64 } r.length = true) :=
  ⟨⟨0, pgmS (fun u => { u with descs := [(0, { descE with state := .sealing })] }) (withCtx ctxE svc),
    { descE with state := .sealing }, ctxE, _, by decide +kernel, by decide +kernel, by decide +kernel,
    by decide +kernel, by decide +kernel, by decide +kernel, rfl⟩,
⟨0, pgmS (fun u => { u with descs := [(0, { descE with promoting := true })] }) (svc),
    { descE with promoting := true }, [], by decide +kernel, by decide +kernel, by decide +kernel, by decide +kernel,
    by decide +kernel⟩,
⟨0, pgmS (fun u => { u with descs := [(0, { descE with promoting := true, blocks := [zeros 17] })] }) (svc),
    { descE with promoting := true, blocks := [zeros 17] }, by decide +kernel, by decide +kernel, by decide +kernel,
    by decide +kernel, by decide +kernel⟩,
⟨0, 1, pgmS (fun u => { u with descs := [(0, { descE with writing := [1] })] }) (svc),
    { descE with writing := [1] }, by decide +kernel, by decide +kernel, by decide +kernel⟩,
⟨hiddenE, withCtx ctxE (ownerWith own), 0, seqE, ctxE, own, by decide +kernel, by decide +kernel, by decide +kernel,
    by decide +kernel, by decide +kernel, by decide +kernel, by decide +kernel, by decide +kernel⟩,
⟨{ hiddenE with damage := 1 }, roled 0 svc, by decide +kernel, by decide +kernel, by decide +kernel⟩,
⟨15, roled 0 svc, by decide +kernel, by decide +kernel, by decide +kernel, by decide +kernel⟩,
⟨0, 0, zeros 64, writeMem (channelBase 0 + 32) [1] (hifS (fun u =>
    { u with channels := [(0, { waiting := [zeros 64] })] }) (roled 0 linked)), by decide +kernel, by decide +kernel,
    by decide +kernel, by decide +kernel, by decide +kernel, by decide +kernel⟩⟩

/-! ## Hypotheses of the other statements are met -/

def announceE : Announce := ⟨0, 1, 6, 0x20, 0, 1, 0x51, 0⟩
def worseE : Announce := { announceE with priority1 := 2, identity := 0x52 }
def tideE : TideEntry :=
  { slot := 4095, context := 0, layer := 0, opens := 100, cutoff := 200, close := 300, pfIssue := 50, pfDeadline := 90 }

/-- Network time comes in on port 0. -/
def timed (t : TimeState) : State :=
  tmuS (fun u => { u with state := t, gmData := some announceE, gm := some 0x51 })
    (fabS (fun u => { u with ports := [(0, { up := true })] }) svc)

/-- A tide table of one slot of a context of two layers; the next layer's load stands so. -/
def tided (l : Option Load) : State :=
  let s := withCtx { ctxE with layers := [layerE, layerE] } svc
  tmuS (fun u => { u with bank0 := [tideE] })
    { s with mdl := { s.mdl with loads := match l with | none => [] | some x => [(1, x)] } }

def frameE : Frame :=
  { entropy := 0, opcode := 2, flags := 0, dike := 1, keyIndex := 0, cls := 0, dest := 6, destPort := 0, window := 256, gen := 0
    key := 0, winOffset := 0, seq := 0, msgLen := 64, index := 0, count := 1, offset := 0, payload := zeros 64, nonce := 0 }

/-- One frame waits in a queue for port 0. -/
def frameIn (q : Nat) (deficit : Nat) : State :=
  secS (fun u => { u with wire := [(1, { v0 := some 7, active := some 0 })] })
    (weiS (fun u => { u with queues := [(q, { enable := true, inst := [(0, [frameE])], deficit := [(0, deficit)] })]
                             active := if q < 2 then [] else [(0, [q])] }) wired)

def sampleE : Item := { id := 0, step := 0, slot := 0, context := 0, layer := 0, kind := .sample }
def rowE : RowWork := { handle := 0, context := 0, layer := 0, step := 0, pos := 0, epoch := 1, submitter := 5, prefill := false, x := [] }

theorem test_met_stepKeepsInvariant : Inv State.reset ∧ step State.reset = .next State.reset :=
  ⟨⟨by decide, (by intro e h; cases h), by decide, by decide, by decide⟩, by rfl⟩

theorem test_met_idleStepChangesNothing : ∃ s : State, s.pending = [] := ⟨State.reset, by decide⟩

theorem test_met_fusedAndStatusBits : ∃ (c : Instr) (s t : State), exec c s = .next t := ⟨.snap, svc, _, by rfl⟩

/-- One command of each frame statement answers a next state. -/
theorem test_met_frames :
    (∃ t, exec .snap svc = .next t) ∧ (∃ t, exec (.sealComplete 0) svc = .next t) ∧ (∃ t, exec (.cancel namedE) svc = .next t) ∧
    (∃ t, exec (.rebuildTimeout 0) svc = .next t) ∧ (∃ t, exec (.partialAckTimer 0 0) svc = .next t) ∧
    (∃ t, exec .buildTableComplete svc = .next t) ∧ (∃ t, exec (.laneRepair 0) svc = .next t) ∧
    (∃ t, exec (.unmappedAccess 0xE00000) svc = .next t) ∧ (∃ t, exec .recoveryAbort svc = .next t) ∧
    (∃ t, exec .getIdentity svc = .next t) :=
  ⟨⟨_, rfl⟩, ⟨_, rfl⟩, ⟨_, rfl⟩, ⟨_, rfl⟩, ⟨_, rfl⟩, ⟨_, rfl⟩, ⟨_, rfl⟩, ⟨_, rfl⟩, ⟨_, rfl⟩, ⟨_, rfl⟩⟩

theorem test_met_memoryReadsBackWhatIsWritten : ∃ (bs : List Byte) (s : State) (i : Nat), Memory.wf s.mem = true ∧ i < bs.length :=
  ⟨[1], mapped, 0, by decide +kernel, by decide⟩

theorem test_met_syncMovesTheTimeState :
    (∃ (gm : Nat) (s : State), inService s = true ∧ timePortUp s = true ∧ liveTime s = true ∧ chosenGm s = some gm) ∧
    (∃ (gm : Nat) (s : State), chosenGm s ≠ some gm) :=
  ⟨⟨0x51, timed .locked, by decide +kernel⟩, ⟨0x52, timed .locked, by decide +kernel⟩⟩

theorem test_met_timeCommandsComplete :
    (∃ (a b : Announce) (s : State), inService s = true ∧ timePortUp s = true ∧ a.domain = s.stw.charter.timeDomain ∧
      s.tmu.gmData = some b ∧ a.identity ≠ b.identity ∧ lexLe (announceKey a) (announceKey b) = true) ∧
    (∃ (a b : Announce) (s : State), s.tmu.gmData = some b ∧ a.identity ≠ b.identity ∧
      lexLe (announceKey a) (announceKey b) = false) ∧
    (∃ (at_ : Nat) (s : State), inService s = true ∧ liveTime s = true ∧ s.tmu.lastSync + 1000000000 ≤ max s.tmu.now at_) ∧
    (∃ (at_ : Nat) (s : State), inService s = true ∧ liveTime s = true ∧ s.tmu.state = .holdover ∧
      s.tmu.holdoverAt + 60000000000 ≤ max s.tmu.now at_) ∧ (∃ s : State, inService s = true) :=
  ⟨⟨{ announceE with priority1 := 0, identity := 0x50 }, announceE, timed .locked, by decide +kernel⟩,
    ⟨worseE, announceE, timed .locked, by decide +kernel⟩, ⟨1000000000, timed .locked, by decide +kernel⟩,
    ⟨60000000000, timed .holdover, by decide +kernel⟩, ⟨svc, by decide⟩⟩

theorem test_met_talliesAreFrozenAndWritten :
    (∃ s : State, inService s = true ∧ s.stw.charter.replay ≠ 1 ∧ s.hlt.writing = none) ∧
    (∃ (seq : Nat) (recs : List (List Byte)) (s : State), s.hlt.writing = some (seq, recs)) :=
  ⟨⟨svc, by decide +kernel⟩, ⟨1, [], hltS (fun u => { u with writing := some (1, []) }) svc, by decide +kernel⟩⟩

theorem test_met_wheels :
    (∃ (q slot : Nat) (s : State), inService s = true ∧ (queueOf s q).pacing = .fine slot) ∧
    (∃ (q slot : Nat) (s : State), inService s = true ∧ (queueOf s q).pacing = .coarse slot) ∧
    (∃ (q : Nat) (s : State), inService s = true ∧ (queueOf s q).pacing = .pacer) :=
  ⟨⟨256, 3, weiS (fun u => { u with queues := [(256, { pacing := .fine 3 })] }) svc, by decide +kernel⟩,
    ⟨256, 3, weiS (fun u => { u with queues := [(256, { pacing := .coarse 3 })] }) svc, by decide +kernel⟩,
    ⟨256, weiS (fun u => { u with queues := [(256, { pacing := .pacer })] }) svc, by decide +kernel⟩⟩

theorem test_met_portServesControlStepThenDrr :
    (∃ (port q v : Nat) (s : State) (f : Frame) (r : List Frame), port < 8 ∧ portUp s port = true ∧
      (q = 0 ∨ (q = 1 ∧ (queueOf s 0).on port = [])) ∧ (queueOf s q).on port = f :: r ∧ (wireOf s f.dike).active = some v ∧
      Tab.getD s.fab.nonce (f.dike * 2 + v) 1 < lastNonce) ∧
    (∃ (port q v : Nat) (s : State) (f : Frame) (r : List Frame) (rest : List Nat), port < 8 ∧ portUp s port = true ∧
      (queueOf s 0).on port = [] ∧ (queueOf s 1).on port = [] ∧ activeOf s port = q :: rest ∧ (queueOf s q).on port = f :: r ∧
      packetCost f ≤ Tab.getD (queueOf s q).deficit port 0 +
        (if (queueOf s q).fresh.contains port then (queueOf s q).quantum else 0) ∧
      (wireOf s f.dike).active = some v ∧ Tab.getD s.fab.nonce (f.dike * 2 + v) 1 < lastNonce) :=
  ⟨⟨0, 1, 0, frameIn 1 0, frameE, [], by decide +kernel⟩, ⟨0, 256, 0, frameIn 256 64, frameE, [], [], by decide +kernel⟩⟩

theorem test_met_slotsAndPrefetches :
    (∃ (slot : Nat) (s : State) (e : TideEntry), slotAt s slot = some e ∧ inService s = true ∧
      s.tmu.opened.contains slot = false) ∧
    (∃ (slot key : Nat) (s : State) (e : TideEntry) (c : Ctx) (l : LayerDesc), prefetchOf s slot = some (e, key, c, l) ∧
      inService s = true ∧ Tab.has key s.mdl.loads = false) ∧
    (∃ (slot key : Nat) (s : State) (e : TideEntry) (c : Ctx) (l : LayerDesc), prefetchOf s slot = some (e, key, c, l) ∧
      inService s = true ∧ Tab.look key s.mdl.loads = some .issued ∧ liveTime s = true) ∧
    (∃ (slot key : Nat) (s : State) (e : TideEntry) (c : Ctx) (l : LayerDesc), prefetchOf s slot = some (e, key, c, l) ∧
      inService s = true ∧ Tab.look key s.mdl.loads = some .late) :=
  ⟨⟨4095, tided none, tideE, by decide +kernel⟩,
    ⟨4095, 1, tided none, tideE, { ctxE with layers := [layerE, layerE] }, layerE, by decide +kernel⟩,
    ⟨4095, 1, tided (some .issued), tideE, { ctxE with layers := [layerE, layerE] }, layerE, by decide +kernel⟩,
    ⟨4095, 1, tided (some .late), tideE, { ctxE with layers := [layerE, layerE] }, layerE, by decide +kernel⟩⟩

/-- A layer of no rows that stands in the weight cache, and one whose blocks fail their CHECK. -/
def bareCtx : Ctx := { ctxE with layers := [layerE, layerE], width := 0, nKv := 0, cells := some [] }

theorem test_met_prefetchComplete_weights :
    weightsGood (withCtx bareCtx (tided (some .late))) 0 1 bareCtx layerE = true ∧
    prefetchOf (withCtx bareCtx (tided none)) 4095 = some (tideE, 1, bareCtx, layerE) ∧
    weightsGood (tided (some .late)) 0 1 { ctxE with layers := [layerE, layerE] } layerE = false := by decide +kernel

theorem test_met_itemsAndImages :
    (∃ (item : Nat) (s : State) (i : Item), s.car.items.find? (fun j => j.id == item && j.step == stepNo s) = some i ∧
      inService s = true ∧ itemReady s i = true) ∧
    (∃ (cluster c : Nat) (s : State), Tab.look cluster s.mdl.swapping = some c ∧ inService s = true ∧
      (∀ x ∈ Tab.getD s.mdl.assigned cluster [], x = c ∨ x ∈ Tab.getD s.mdl.resident cluster [])) ∧
    (∃ (context : Nat) (s : State) (c : Ctx), Tab.look context s.mdl.ctxs = some c ∧ c.state = .loading) :=
  ⟨⟨0, carS (fun u => { u with items := [sampleE], rows := [rowE] }) svc, sampleE, by decide +kernel⟩,
    ⟨15, 2, { svc with mdl := { swapping := [(15, 2)], assigned := [(15, [2])] } }, by decide +kernel⟩,
    ⟨63, { svc with mdl := { ctxs := [(63, { ctxE with state := .loading })] } }, { ctxE with state := .loading }, by decide +kernel⟩⟩

/-! ## Ill-formed commands are refused -/

/-- An announcement with a field beyond its width. -/
theorem test_wf_announce : (Instr.announce { announceE with variance := 0x10000 }).wf = false ∧
    (Instr.announce announceE).wf = true := by decide

theorem test_wf_messages :
    [Instr.grant { msg [1] with port := 8 }, .pulse { msg [1] with dike := 256 }, .verdict (msg []),
     .recall { msg [1] with source := 2 ^ 32 }].all (fun c => !c.wf) = true ∧ (Instr.grant (msg [1])).wf = true := by decide

theorem test_wf_packets :
    [Instr.nodorSend 0 (packetE 2 [1]), .nodorRead 0 { packetE 3 [1] with count := 0 }, .nodorWrite 0 { packetE 2 [] with window := 2 ^ 20 },
     .nodorAck 0 { packetE 8 [] with port := 8 }, .nodorNack 0 (packetE 9 (zeros 4113)),
     .nodorAtomic 0 { packetE 5 [] with gen := 4096 }].all (fun c => !c.wf) = true ∧
    (Instr.nodorSend 0 (packetE 1 [1])).wf = true := by decide +kernel

theorem test_wf_rows :
    [Instr.hiddenState 0 { hiddenE with rows := [[65536]] }, .attentionOutput { hiddenE with context := 64 },
     .hiddenState 0 { hiddenE with rows := List.replicate 513 [] }, .attentionOutput { hiddenE with damage := 7 }].all (fun c => !c.wf) = true ∧
    (Instr.hiddenState 0 { hiddenE with damage := 6 }).wf = true := by decide +kernel

theorem test_wf_requests :
    [Instr.request { requestE with cls := 4 }, .request { requestE with sampling := ⟨0, 0, 65536, 0⟩ },
     .cancel { namedE with tenant := 256 }, .pause { namedE with port := 8 }].all (fun c => !c.wf) = true ∧
    (Instr.request requestE).wf = true := by decide +kernel

theorem test_wf_ring_commands :
    [Instr.compose { headE 0 with ring := 64 }, .compose { headE 0 with bodyAddr := 1 }, .compose { headE 0 with placed := [(2 ^ 65, 0)] },
     .lease (headE 0) ⟨256, 0, 0, 0, 0, 0, 0⟩, .openWindow 0 (headE 0) { opsE with descGen := 4096 },
     .write 0 (headE 0) { remoteE 0 with window := 2 ^ 20 }, .drainDie (headE 0) 256 false,
     .freeObject (headE 0) 0 4096].all (fun c => !c.wf) = true ∧ (Instr.compose (headE 0)).wf = true := by decide +kernel

theorem test_wf_dies_links_ports :
    [Instr.coreMemoryUe 8 0, .coreMemoryCe 0 34, .thermalTrip 0 20, .d2dLinkFailure 24 true, .laneRepair 24, .perstAssert 2,
     .hourTick [(8, 0)], .stewardStart [24] [], .gddr7Uncorrectable (.history Config.seqSlots 0),
     .gddr7Uncorrectable (.page Config.descCount), .ethernetLinkChange 8 true, .imageSwapComplete 16,
     .selfCheckComplete 0 [34]].all (fun c => !c.wf) = true ∧ (Instr.coreMemoryUe 7 33).wf = true := by decide +kernel

theorem test_wf_registers :
    [Instr.statusAck 2 0, .registerWrite 0 0 16, .unmappedAccess (2 ^ 26), .aliasBitWrite 3 0].all (fun c => !c.wf) = true ∧
    (Instr.statusAck 0x3FFFFFC 0).wf = true := by decide +kernel

theorem test_wf_attestation :
    [Instr.bootRomStart ⟨[], true, true⟩, .challenge .mctp 0 [], .getCertificate .doe0 256 0 0, .keyProg 0 true [] none,
     .negotiateAlgorithms .mctp 0x12 [2 ^ 32] [] [], .getMeasurements .mctp 256 false []].all (fun c => !c.wf) = true ∧
    (Instr.challenge .mctp 0 (zeros 32)).wf = true := by decide +kernel

theorem test_wf_slots_and_supply :
    [Instr.pacerRelease 4096, .slotOpen 4096, .reissueAckTimeout Config.seqSlots, .rebuildTimeout Config.descCount,
     .inputLow 0 65536 0, .overvoltage 0 65536, .dynamicAddressAssignment 128, .cqHeadWrite 64 0, .inHeadWrite 0 64 0 [],
     .revocationComplete (2 ^ 20)].all (fun c => !c.wf) = true := by decide +kernel

/-! ## The table gives no word a command -/

theorem test_decode_none : decodeTableWord 32 0 = none ∧ decodeTableWord 0 0xFFFFFFFF = none := by decide

/-! ## Single steps -/

/-- The time states and entries of the table of R52: within 250 ns eight times is LOCKED; beyond 1 ms is LOST. -/
theorem test_sync_locks :
    (match exec (.sync 5 0x51 250) (tmuS (fun u => { u with good := 7 }) (timed .acquiring)) with
      | .next t => t.tmu.state == .locked && t.tmu.gridRun | _ => false) = true ∧
    (match exec (.sync 5 0x51 251) (tmuS (fun u => { u with good := 7 }) (timed .acquiring)) with
      | .next t => t.tmu.state == .acquiring | _ => false) = true := by decide +kernel

/-- Time is LOST after a measured offset above 1,000,000 ns (R52). -/
theorem test_sync_loses :
    (match exec (.sync 5 0x51 (-1000001)) (timed .locked) with | .next t => t.tmu.state == .lost | _ => false) = true := by
  decide +kernel

/-- A step takes the front command and leaves the rest waiting. -/
theorem test_step_front :
    (match step { svc with pending := [.snap, .getIdentity] } with | .next t => t.pending == [.getIdentity] | _ => false) = true := by
  decide +kernel

/-- An ATOMIC by opcode 1 adds to the eight bytes of the object, little-endian (R257). -/
theorem test_atomic_adds :
    (match exec (.nodorAtomic 0 (packetE 5 (le 1 1 ++ zeros 7 ++ le 8 0x102 ++ zeros 8))) wired with
      | .next t => ((Tab.look 0 t.pgm.descs).map (fun d => d.read 0 8)) == some (le 8 0x102) | _ => false) = true := by
  decide +kernel

/-- A window whose revocation completes is CLOSED (R267). -/
theorem test_window_closes :
    (match exec (.revocationComplete 256) (withWindow { windowE with state := .revoking } ringed) with
      | .next t => (windowOf t 256).state == .closed | _ => false) = true := by decide +kernel

end Sys2Proof.Tests
end

section
/-! # The fine wheel (R64, R279)

The instants of the fine wheel and what FINE_TICK does at one. The case split of the tick (a queue whose fine slot has come,
one whose slot has not, and the coarse slot emptied first) is the weir's law `fineTick_effect`. -/

namespace Sys2Proof.Machine

/-- 10^9 is 2^9 times 5^9, so the fine wheel has a tick at each whole second of network time. -/
theorem wholeSecond_mod_fineStep (seconds : Nat) : seconds * 1000000000 % 256 = 0 :=
  Nat.mod_eq_zero_of_dvd (Dvd.dvd.mul_left (by decide) seconds)

/-- Settles O22: whole seconds are instants of the fine wheel, and the weir's law says what FINE_TICK does in service. -/
theorem fineWheelTicksAtMultiplesOf256 : Obligations.FineWheelTicksAtMultiplesOf256 := by
  unfold Obligations.FineWheelTicksAtMultiplesOf256
  constructor
  · exact wholeSecond_mod_fineStep
  · intro s hservice
    exact fineTick_effect hservice

end Sys2Proof.Machine
end

section
/-! # COUNTER_EVENTS of the charter (R384)

What WRAP and SATURATED of a counter do with COUNTER_EVENTS = STATUS and = MASKED. The split of the two modes, where STATUS
raises the event and MASKED leaves the status words, is the law `counterEvents_effect`. -/

namespace Sys2Proof.Machine

/-- Settles O35: the law of counter events, which holds in every state and asks nothing of the counter. -/
theorem counterEventsFollowTheCharter : Obligations.CounterEventsFollowTheCharter := by
  unfold Obligations.CounterEventsFollowTheCharter
  intro sat block off s
  exact counterEvents_effect sat block off s

end Sys2Proof.Machine
end

section
/-! # The power log (R414, R409)

What an entry, GET_POWER_LOG and a power loss longer than a hold do with the power log once the dies that log are powered
(step 2 of the power-up on). The three effects are the law `powerLog_effect`: an entry by the branch `logPower` takes from
step 2 on, the answer by `getPowerLog_effect`, and the empty log by `pwrGoodFall_long`, whose `PoweredOff` names it. -/

namespace Sys2Proof.Machine

/-- Settles O36: the law of the power log. Below step 2 no entry is taken and the management port does not answer (log 74);
a power loss empties the log only where units are on. -/
theorem powerLogKeepsLatestEntries : Obligations.PowerLogKeepsLatestEntries := by
  unfold Obligations.PowerLogKeepsLatestEntries
  intro s hstep
  obtain ⟨hentry, hread, hloss⟩ := powerLog_effect hstep
  refine ⟨?_, ?_, ?_⟩
  · exact hentry
  · exact hread
  · intro at_ lowUs hservice hlong
    exact hloss at_ lowUs hservice hlong

end Sys2Proof.Machine
end

section
/-! # What every command keeps (R289, R301, R304, R306, R317, R372, R373, R380)

Three facts about all 176 commands, each read off the laws of the single commands: a next state comes of every command
(`exec_goesOn`), what is fused and each clause of the invariant are kept (`exec_kept`), and status bits, counters and the
charter stand but for the twelve commands that may lower them (`statusBitsFallOnlyWhereTheyMay`). The obligations about a
step follow from these by the rule of the queue: a step is its front command on the rest.

The last alternative of each case split is RECALL alone: its constructor's name is a keyword here, so it is not written out. -/

namespace Sys2Proof.Machine

open Sys2Proof.Safety

/-- Settles O1: the front command is taken off the queue it was put on. -/
theorem stepRunsTheFrontCommand : Obligations.StepRunsTheFrontCommand := by
  unfold Obligations.StepRunsTheFrontCommand
  intro c s
  rfl

/-- An idle step: nothing waits (log 1). -/
theorem step_of_empty {s : State} (hempty : s.pending = []) : step s = .next s := by
  unfold step
  rw [hempty]

/-- A step with a command waiting: it is taken off the queue and run. -/
theorem step_of_cons {c : Instr} {rest : List Instr} {s : State} (hqueue : s.pending = c :: rest) :
    step s = exec c { s with pending := rest } := by
  unfold step
  rw [hqueue]

/-- Settles O2: the empty queue's branch of a step. -/
theorem idleStepChangesNothing : Obligations.IdleStepChangesNothing := by
  unfold Obligations.IdleStepChangesNothing
  intro s hempty
  exact step_of_empty hempty

theorem goesOn_next (t : State) : goesOn (.next t) := ⟨t, rfl⟩

/-- A meaning with two ends, each a next state. -/
theorem goesOn_ite {p : Prop} [Decidable p] (t u : State) : goesOn (if p then .next t else .next u) := by
  split
  · exact goesOn_next t
  · exact goesOn_next u

theorem ringCommand_goesOn (h : CmdHead) (op : RingOp) (opened : Option (Option (List Byte))) (s : State) :
    goesOn (ringCommand h op opened s) := goesOn_ite _ _

theorem ringCommandAt_goesOn (at_ : Nat) (h : CmdHead) (op : RingOp) (s : State) : goesOn (ringCommandAt at_ h op s) :=
  ringCommand_goesOn h op none _

theorem spdmRequest_goesOn (p : SpdmPort) (act : State → State) (s : State) : goesOn (spdmRequest p act s) := goesOn_ite _ _

theorem spdmReady_goesOn (p : SpdmPort) (act : Spdm → State → State) (s : State) : goesOn (spdmReady p act s) :=
  spdmRequest_goesOn p _ s

/-- The meaning of each command ends in a next state on every path. -/
theorem exec_goesOn (c : Instr) (s : State) : goesOn (exec c s) := by
  cases c with
  | snap | itemOverrun | sealComplete | contextFillComplete | admitQuery | verdict | cancel | pause | grant | grantAck
  | statePush | release | pulse | tokenNote | noteAck | reject | historyQuery | ringBlock | probe
  | foldRecord | fragmentPut | fragmentAck | fragmentGet | fragmentData | fragmentFree | fragmentLost | nodorSend
  | nodorWrite | nodorRead | nodorReadData | nodorAtomic | nodorAtomicData | nodorAck | nodorNack | revocationComplete
  | statusAck | aliasBitWrite | unmappedAccess | registerWrite | pgmInspectLatch | sqsInspectLatch | slcInspectLatch
  | tirSegLatch | cmpTableLatch | fabPortLatch | fabWinLatch | weiQLatch | weiPolLatch | secKeyLatch | hltCoreLatch
  | hltAcctLatch | stwReportLatch | charterWrite | recoveryFinish | recoveryAbort | pwrGoodRise | powerStepInterval
  | pwrGoodFall | brownWarnTimeout | inputLow | inputRestored | bankReserveReached | thermalHigh | thermalTrip
  | powerOver | perstAssert | cxlLinkChange | ideIntegrityFailure | d2dLinkFailure | gddr7Uncorrectable | gddr7Corrected
  | coreMemoryCe | coreMemoryUe | imageStartTimeout | getSensors | getIdentity | getPowerLog | tallySetWritten
  | laneRepair | dynamicAddressAssignment | thermalExcursionEnd =>
    exact goesOn_next _
  | sync | holdoverExpired | minuteBoundary | fineTick | coarseTick | pacerRelease | transmitOpportunity
  | ethernetLinkChange | sqDoorbell | cqHeadWrite | ringCtrlWrite | firmwareSwitchComplete | stagedImageTimeout
  | selfCheckComplete | inHeadWrite | outTailWrite | journalTailWrite | journalHeadWrite | ckptTailWrite
  | replayStepComplete | recoveryPush | overvoltage | hourTick | serviceReached | keyProg | inputReconnect =>
    exact goesOn_ite _ _
  | lease | compose | installKey | registerContext | retireContext | registerAdapter | withdrawAdapter | installTable
  | buildTable | allocObject | freeObject | switchImage | commitSvn | drainDie | readmitDie | rehome =>
    exact ringCommand_goesOn ..
  | openWindow | reopenWindow | revokeWindow | setQueue | setPolicer | write | read | atomic | stageImage =>
    exact ringCommandAt_goesOn ..
  | getVersion | getCapabilities | negotiateAlgorithms | spdmUnsupportedRequest =>
    dsimp only [exec, execGetVersion, execGetCapabilities, execNegotiateAlgorithms, execSpdmUnsupportedRequest]
    exact spdmRequest_goesOn ..
  | getDigests | getCertificate | challenge | getMeasurements =>
    dsimp only [exec, execGetDigests, execGetCertificate, execChallenge, execGetMeasurements]
    exact spdmReady_goesOn ..
  | announce | syncAbsent | stepBoundary | tallyWriteDeadline | slotOpen | prefetchIssue | prefetchComplete
  | prefetchDeadline | slackExhausted | hiddenState | attentionOutput | itemComplete | shadowComplete | refereeComplete
  | promotionComplete | writebackExtent | request | reissueAckTimeout | rehomingTimeout | rehomeWaitExpired
  | ringSilenceTimeout | fragmentPutTimeout | rebuildTimeout | partialAckTimer | resendTimeout | messageAbandonTimer
  | reopenDelayExpired | buildTableComplete | imageVerifyComplete | flashWriteComplete | charterWriteComplete
  | t2LineTimeout | bootRomStart | stewardStart | imageSwapComplete =>
    dsimp only [exec, execAnnounce, execSyncAbsent, execStepBoundary, execTallyWriteDeadline, execSlotOpen,
      execPrefetchIssue, execPrefetchComplete, execPrefetchDeadline, execSlackExhausted, execHiddenState,
      execAttentionOutput, execItemComplete, execShadowComplete, execRefereeComplete, execPromotionComplete,
      execWritebackExtent, execRequest, execReissueAckTimeout, execRehomingTimeout, execRehomeWaitExpired,
      execRingSilenceTimeout, execFragmentPutTimeout, execRebuildTimeout, execPartialAckTimer, execResendTimeout,
      execMessageAbandonTimer, execReopenDelayExpired, execBuildTableComplete, execImageVerifyComplete,
      execFlashWriteComplete, execCharterWriteComplete, execT2LineTimeout, execBootRomStart, execStewardStart,
      execImageSwapComplete]
    repeat' split
    all_goals exact goesOn_next _
  | _ => exact goesOn_next _

/-- Settles O3: a step is idle or its front command, and every command goes on. That a command which cannot happen changes
nothing, and so goes on too, is the model's choice (log 15). -/
theorem everyCommandAnswersNext : Obligations.EveryCommandAnswersNext := by
  unfold Obligations.EveryCommandAnswersNext
  constructor
  · exact exec_goesOn
  · intro s
    cases hqueue : s.pending with
    | nil => exact ⟨s, step_of_empty hqueue⟩
    | cons c rest =>
      rw [step_of_cons hqueue]
      exact exec_goesOn c _

/-- Every command keeps what is fused, the queue and each clause of the invariant: the law of its own meaning. -/
theorem exec_kept {c : Instr} {s t : State} (h : exec c s = .next t) : Kept s t := by
  cases c with
  | sync => exact execSync_kept h (.refl s)
  | announce => exact execAnnounce_kept h (.refl s)
  | syncAbsent => exact execSyncAbsent_kept h (.refl s)
  | holdoverExpired => exact execHoldoverExpired_kept h (.refl s)
  | snap => exact execSnap_kept h (.refl s)
  | stepBoundary => exact execStepBoundary_kept h (.refl s)
  | minuteBoundary => exact execMinuteBoundary_kept h (.refl s)
  | tallyWriteDeadline => exact execTallyWriteDeadline_kept h (.refl s)
  | fineTick => exact execFineTick_kept h (.refl s)
  | coarseTick => exact execCoarseTick_kept h (.refl s)
  | pacerRelease => exact execPacerRelease_kept h (.refl s)
  | slotOpen => exact execSlotOpen_kept h (.refl s)
  | prefetchIssue => exact execPrefetchIssue_kept h (.refl s)
  | prefetchComplete => exact execPrefetchComplete_kept h (.refl s)
  | prefetchDeadline => exact execPrefetchDeadline_kept h (.refl s)
  | slackExhausted => exact execSlackExhausted_kept h (.refl s)
  | hiddenState => exact execHiddenState_kept h (.refl s)
  | attentionOutput => exact execAttentionOutput_kept h (.refl s)
  | itemComplete => exact execItemComplete_kept h (.refl s)
  | itemOverrun => exact execItemOverrun_kept h (.refl s)
  | shadowComplete => exact execShadowComplete_kept h (.refl s)
  | refereeComplete => exact execRefereeComplete_kept h (.refl s)
  | sealComplete => exact execSealComplete_kept h (.refl s)
  | contextFillComplete => exact execContextFillComplete_kept h (.refl s)
  | promotionComplete => exact execPromotionComplete_kept h (.refl s)
  | writebackExtent => exact execWritebackExtent_kept h (.refl s)
  | request => exact execRequest_kept h (.refl s)
  | admitQuery => exact execAdmitQuery_kept h (.refl s)
  | verdict => exact execVerdict_kept h (.refl s)
  | cancel => exact execCancel_kept h (.refl s)
  | pause => exact execPause_kept h (.refl s)
  | grant => exact execGrant_kept h (.refl s)
  | grantAck => exact execGrantAck_kept h (.refl s)
  | statePush => exact execStatePush_kept h (.refl s)
  | release => exact execRelease_kept h (.refl s)
  | pulse => exact execPulse_kept h (.refl s)
  | tokenNote => exact execTokenNote_kept h (.refl s)
  | noteAck => exact execNoteAck_kept h (.refl s)
  | reject => exact execReject_kept h (.refl s)
  | historyQuery => exact execHistoryQuery_kept h (.refl s)
  | reissueAckTimeout => exact execReissueAckTimeout_kept h (.refl s)
  | rehomingTimeout => exact execRehomingTimeout_kept h (.refl s)
  | rehomeWaitExpired => exact execRehomeWaitExpired_kept h (.refl s)
  | ringBlock => exact execRingBlock_kept h (.refl s)
  | probe => exact execProbe_kept h (.refl s)
  | foldRecord => exact execFoldRecord_kept h (.refl s)
  | ringSilenceTimeout => exact execRingSilenceTimeout_kept h (.refl s)
  | fragmentPut => exact execFragmentPut_kept h (.refl s)
  | fragmentAck => exact execFragmentAck_kept h (.refl s)
  | fragmentGet => exact execFragmentGet_kept h (.refl s)
  | fragmentData => exact execFragmentData_kept h (.refl s)
  | fragmentFree => exact execFragmentFree_kept h (.refl s)
  | fragmentLost => exact execFragmentLost_kept h (.refl s)
  | fragmentPutTimeout => exact execFragmentPutTimeout_kept h (.refl s)
  | rebuildTimeout => exact execRebuildTimeout_kept h (.refl s)
  | nodorSend => exact execNodorSend_kept h (.refl s)
  | nodorWrite => exact execNodorWrite_kept h (.refl s)
  | nodorRead => exact execNodorRead_kept h (.refl s)
  | nodorReadData => exact execNodorReadData_kept h (.refl s)
  | nodorAtomic => exact execNodorAtomic_kept h (.refl s)
  | nodorAtomicData => exact execNodorAtomicData_kept h (.refl s)
  | nodorAck => exact execNodorAck_kept h (.refl s)
  | nodorNack => exact execNodorNack_kept h (.refl s)
  | partialAckTimer => exact execPartialAckTimer_kept h (.refl s)
  | resendTimeout => exact execResendTimeout_kept h (.refl s)
  | messageAbandonTimer => exact execMessageAbandonTimer_kept h (.refl s)
  | transmitOpportunity => exact execTransmitOpportunity_kept h (.refl s)
  | ethernetLinkChange => exact execEthernetLinkChange_kept h (.refl s)
  | revocationComplete => exact execRevocationComplete_kept h (.refl s)
  | reopenDelayExpired => exact execReopenDelayExpired_kept h (.refl s)
  | sqDoorbell => exact execSqDoorbell_kept h (.refl s)
  | cqHeadWrite => exact execCqHeadWrite_kept h (.refl s)
  | ringCtrlWrite => exact execRingCtrlWrite_kept h (.refl s)
  | lease => exact execLease_kept h (.refl s)
  | compose => exact execCompose_kept h (.refl s)
  | installKey => exact execInstallKey_kept h (.refl s)
  | registerContext => exact execRegisterContext_kept h (.refl s)
  | retireContext => exact execRetireContext_kept h (.refl s)
  | registerAdapter => exact execRegisterAdapter_kept h (.refl s)
  | withdrawAdapter => exact execWithdrawAdapter_kept h (.refl s)
  | installTable => exact execInstallTable_kept h (.refl s)
  | buildTable => exact execBuildTable_kept h (.refl s)
  | buildTableComplete => exact execBuildTableComplete_kept h (.refl s)
  | allocObject => exact execAllocObject_kept h (.refl s)
  | freeObject => exact execFreeObject_kept h (.refl s)
  | openWindow => exact execOpenWindow_kept h (.refl s)
  | reopenWindow => exact execReopenWindow_kept h (.refl s)
  | revokeWindow => exact execRevokeWindow_kept h (.refl s)
  | setQueue => exact execSetQueue_kept h (.refl s)
  | setPolicer => exact execSetPolicer_kept h (.refl s)
  | write => exact execWrite_kept h (.refl s)
  | read => exact execRead_kept h (.refl s)
  | atomic => exact execAtomic_kept h (.refl s)
  | stageImage => exact execStageImage_kept h (.refl s)
  | imageVerifyComplete => exact execImageVerifyComplete_kept h (.refl s)
  | switchImage => exact execSwitchImage_kept h (.refl s)
  | firmwareSwitchComplete => exact execFirmwareSwitchComplete_kept h (.refl s)
  | flashWriteComplete => exact execFlashWriteComplete_kept h (.refl s)
  | stagedImageTimeout => exact execStagedImageTimeout_kept h (.refl s)
  | commitSvn => exact execCommitSvn_kept h (.refl s)
  | drainDie => exact execDrainDie_kept h (.refl s)
  | readmitDie => exact execReadmitDie_kept h (.refl s)
  | selfCheckComplete => exact execSelfCheckComplete_kept h (.refl s)
  | rehome => exact execRehome_kept h (.refl s)
  | inHeadWrite => exact execInHeadWrite_kept h (.refl s)
  | outTailWrite => exact execOutTailWrite_kept h (.refl s)
  | statusAck => exact execStatusAck_kept h (.refl s)
  | aliasBitWrite => exact execAliasBitWrite_kept h (.refl s)
  | unmappedAccess => exact execUnmappedAccess_kept h (.refl s)
  | registerWrite => exact execRegisterWrite_kept h (.refl s)
  | pgmInspectLatch => exact execPgmInspectLatch_kept h (.refl s)
  | sqsInspectLatch => exact execSqsInspectLatch_kept h (.refl s)
  | slcInspectLatch => exact execSlcInspectLatch_kept h (.refl s)
  | tirSegLatch => exact execTirSegLatch_kept h (.refl s)
  | cmpTableLatch => exact execCmpTableLatch_kept h (.refl s)
  | fabPortLatch => exact execFabPortLatch_kept h (.refl s)
  | fabWinLatch => exact execFabWinLatch_kept h (.refl s)
  | weiQLatch => exact execWeiQLatch_kept h (.refl s)
  | weiPolLatch => exact execWeiPolLatch_kept h (.refl s)
  | secKeyLatch => exact execSecKeyLatch_kept h (.refl s)
  | hltCoreLatch => exact execHltCoreLatch_kept h (.refl s)
  | hltAcctLatch => exact execHltAcctLatch_kept h (.refl s)
  | stwReportLatch => exact execStwReportLatch_kept h (.refl s)
  | journalTailWrite => exact execJournalTailWrite_kept h (.refl s)
  | journalHeadWrite => exact execJournalHeadWrite_kept h (.refl s)
  | ckptTailWrite => exact execCkptTailWrite_kept h (.refl s)
  | replayStepComplete => exact execReplayStepComplete_kept h (.refl s)
  | charterWrite => exact execCharterWrite_kept h (.refl s)
  | charterWriteComplete => exact execCharterWriteComplete_kept h (.refl s)
  | recoveryPush => exact execRecoveryPush_kept h (.refl s)
  | recoveryFinish => exact execRecoveryFinish_kept h (.refl s)
  | recoveryAbort => exact execRecoveryAbort_kept h (.refl s)
  | pwrGoodRise => exact execPwrGoodRise_kept h (.refl s)
  | powerStepInterval => exact execPowerStepInterval_kept h (.refl s)
  | pwrGoodFall => exact execPwrGoodFall_kept h (.refl s)
  | brownWarnTimeout => exact execBrownWarnTimeout_kept h (.refl s)
  | inputLow => exact execInputLow_kept h (.refl s)
  | inputRestored => exact execInputRestored_kept h (.refl s)
  | overvoltage => exact execOvervoltage_kept h (.refl s)
  | bankReserveReached => exact execBankReserveReached_kept h (.refl s)
  | thermalHigh => exact execThermalHigh_kept h (.refl s)
  | thermalTrip => exact execThermalTrip_kept h (.refl s)
  | powerOver => exact execPowerOver_kept h (.refl s)
  | perstAssert => exact execPerstAssert_kept h (.refl s)
  | cxlLinkChange => exact execCxlLinkChange_kept h (.refl s)
  | ideIntegrityFailure => exact execIdeIntegrityFailure_kept h (.refl s)
  | d2dLinkFailure => exact execD2dLinkFailure_kept h (.refl s)
  | gddr7Uncorrectable => exact execGddr7Uncorrectable_kept h (.refl s)
  | gddr7Corrected => exact execGddr7Corrected_kept h (.refl s)
  | t2LineTimeout => exact execT2LineTimeout_kept h (.refl s)
  | coreMemoryCe => exact execCoreMemoryCe_kept h (.refl s)
  | coreMemoryUe => exact execCoreMemoryUe_kept h (.refl s)
  | hourTick => exact execHourTick_kept h (.refl s)
  | bootRomStart => exact execBootRomStart_kept h (.refl s)
  | imageStartTimeout => exact execImageStartTimeout_kept h (.refl s)
  | stewardStart => exact execStewardStart_kept h (.refl s)
  | serviceReached => exact execServiceReached_kept h (.refl s)
  | getVersion => exact execGetVersion_kept h (.refl s)
  | getCapabilities => exact execGetCapabilities_kept h (.refl s)
  | negotiateAlgorithms => exact execNegotiateAlgorithms_kept h (.refl s)
  | getDigests => exact execGetDigests_kept h (.refl s)
  | getCertificate => exact execGetCertificate_kept h (.refl s)
  | challenge => exact execChallenge_kept h (.refl s)
  | getMeasurements => exact execGetMeasurements_kept h (.refl s)
  | spdmUnsupportedRequest => exact execSpdmUnsupportedRequest_kept h (.refl s)
  | keyProg => exact execKeyProg_kept h (.refl s)
  | getSensors => exact execGetSensors_kept h (.refl s)
  | getIdentity => exact execGetIdentity_kept h (.refl s)
  | getPowerLog => exact execGetPowerLog_kept h (.refl s)
  | tallySetWritten => exact execTallySetWritten_kept h (.refl s)
  | imageSwapComplete => exact execImageSwapComplete_kept h (.refl s)
  | laneRepair => exact execLaneRepair_kept h (.refl s)
  | inputReconnect => exact execInputReconnect_kept h (.refl s)
  | dynamicAddressAssignment => exact execDynamicAddressAssignment_kept h (.refl s)
  | thermalExcursionEnd => exact execThermalExcursionEnd_kept h (.refl s)
  | _ => exact execRecall_kept h (.refl s)

/-- Settles O6: the fused part of what every command keeps. -/
theorem commandsKeepWhatIsFused : Obligations.CommandsKeepWhatIsFused := by
  unfold Obligations.CommandsKeepWhatIsFused
  intro c s t h
  have hkept : Kept s t := exec_kept h
  exact ⟨hkept.pending, hkept.identity, hkept.testMode, hkept.revoked, hkept.fused⟩

/-- The invariant does not speak of the queue. -/
theorem inv_of_pending {s : State} (rest : List Instr) (hinv : Inv s) : Inv { s with pending := rest } := by
  obtain ⟨hmem, hcounters, hlog, hpower, hrestarts⟩ := hinv
  exact ⟨hmem, hcounters, hlog, hpower, hrestarts⟩

/-- What a command keeps holds the invariant, clause by clause. -/
theorem inv_of_kept {s t : State} (hkept : Kept s t) (hinv : Inv s) : Inv t where
  mem := hkept.mem hinv.mem
  counters := hkept.counters hinv.counters
  log := hkept.log hinv.log
  powerLog := hkept.powerLog hinv.powerLog
  restarts := hkept.restarts hinv.restarts

/-- Settles O5: an idle step leaves the state as it is, and the front command keeps each clause. -/
theorem stepKeepsInvariant : Obligations.StepKeepsInvariant := by
  unfold Obligations.StepKeepsInvariant
  intro s t hinv h
  cases hqueue : s.pending with
  | nil =>
    rw [step_of_empty hqueue] at h
    injection h with h
    exact h ▸ hinv
  | cons c rest =>
    rw [step_of_cons hqueue] at h
    exact inv_of_kept (exec_kept h) (inv_of_pending rest hinv)

/-- At reset every S-kind counter stands below its mark: none has been counted (R317). -/
theorem countersBounded_reset : countersBounded State.reset := by
  intro e he
  cases he

/-- Settles O4: at reset memory, counters and both logs are empty, and nothing has restarted. -/
theorem resetMeetsInvariant : Obligations.ResetMeetsInvariant := by
  unfold Obligations.ResetMeetsInvariant
  exact ⟨rfl, countersBounded_reset, Nat.zero_le _, Nat.zero_le _, Nat.zero_le _⟩

/-- Settles O7: every command but the twelve named lets status bits and counters grow and leaves the charter alone. -/
theorem statusBitsFallOnlyWhereTheyMay : Obligations.StatusBitsFallOnlyWhereTheyMay := by
  unfold Obligations.StatusBitsFallOnlyWhereTheyMay
  intro c s t h hnamed
  cases c with
  | sync => exact execSync_grows h (.refl s)
  | announce => exact execAnnounce_grows h (.refl s)
  | syncAbsent => exact execSyncAbsent_grows h (.refl s)
  | holdoverExpired => exact execHoldoverExpired_grows h (.refl s)
  | snap => exact execSnap_grows h (.refl s)
  | stepBoundary => exact hnamed.elim
  | minuteBoundary => exact execMinuteBoundary_grows h (.refl s)
  | tallyWriteDeadline => exact execTallyWriteDeadline_grows h (.refl s)
  | fineTick => exact execFineTick_grows h (.refl s)
  | coarseTick => exact execCoarseTick_grows h (.refl s)
  | pacerRelease => exact execPacerRelease_grows h (.refl s)
  | slotOpen => exact execSlotOpen_grows h (.refl s)
  | prefetchIssue => exact execPrefetchIssue_grows h (.refl s)
  | prefetchComplete => exact execPrefetchComplete_grows h (.refl s)
  | prefetchDeadline => exact execPrefetchDeadline_grows h (.refl s)
  | slackExhausted => exact execSlackExhausted_grows h (.refl s)
  | hiddenState => exact execHiddenState_grows h (.refl s)
  | attentionOutput => exact execAttentionOutput_grows h (.refl s)
  | itemComplete => exact execItemComplete_grows h (.refl s)
  | itemOverrun => exact execItemOverrun_grows h (.refl s)
  | shadowComplete => exact execShadowComplete_grows h (.refl s)
  | refereeComplete => exact execRefereeComplete_grows h (.refl s)
  | sealComplete => exact execSealComplete_grows h (.refl s)
  | contextFillComplete => exact execContextFillComplete_grows h (.refl s)
  | promotionComplete => exact execPromotionComplete_grows h (.refl s)
  | writebackExtent => exact execWritebackExtent_grows h (.refl s)
  | request => exact execRequest_grows h (.refl s)
  | admitQuery => exact execAdmitQuery_grows h (.refl s)
  | verdict => exact execVerdict_grows h (.refl s)
  | cancel => exact execCancel_grows h (.refl s)
  | pause => exact execPause_grows h (.refl s)
  | grant => exact execGrant_grows h (.refl s)
  | grantAck => exact execGrantAck_grows h (.refl s)
  | statePush => exact execStatePush_grows h (.refl s)
  | release => exact execRelease_grows h (.refl s)
  | pulse => exact execPulse_grows h (.refl s)
  | tokenNote => exact execTokenNote_grows h (.refl s)
  | noteAck => exact execNoteAck_grows h (.refl s)
  | reject => exact execReject_grows h (.refl s)
  | historyQuery => exact execHistoryQuery_grows h (.refl s)
  | reissueAckTimeout => exact execReissueAckTimeout_grows h (.refl s)
  | rehomingTimeout => exact execRehomingTimeout_grows h (.refl s)
  | rehomeWaitExpired => exact execRehomeWaitExpired_grows h (.refl s)
  | ringBlock => exact execRingBlock_grows h (.refl s)
  | probe => exact execProbe_grows h (.refl s)
  | foldRecord => exact execFoldRecord_grows h (.refl s)
  | ringSilenceTimeout => exact execRingSilenceTimeout_grows h (.refl s)
  | fragmentPut => exact execFragmentPut_grows h (.refl s)
  | fragmentAck => exact execFragmentAck_grows h (.refl s)
  | fragmentGet => exact execFragmentGet_grows h (.refl s)
  | fragmentData => exact execFragmentData_grows h (.refl s)
  | fragmentFree => exact execFragmentFree_grows h (.refl s)
  | fragmentLost => exact execFragmentLost_grows h (.refl s)
  | fragmentPutTimeout => exact execFragmentPutTimeout_grows h (.refl s)
  | rebuildTimeout => exact execRebuildTimeout_grows h (.refl s)
  | nodorSend => exact execNodorSend_grows h (.refl s)
  | nodorWrite => exact execNodorWrite_grows h (.refl s)
  | nodorRead => exact execNodorRead_grows h (.refl s)
  | nodorReadData => exact execNodorReadData_grows h (.refl s)
  | nodorAtomic => exact execNodorAtomic_grows h (.refl s)
  | nodorAtomicData => exact execNodorAtomicData_grows h (.refl s)
  | nodorAck => exact execNodorAck_grows h (.refl s)
  | nodorNack => exact execNodorNack_grows h (.refl s)
  | partialAckTimer => exact execPartialAckTimer_grows h (.refl s)
  | resendTimeout => exact execResendTimeout_grows h (.refl s)
  | messageAbandonTimer => exact execMessageAbandonTimer_grows h (.refl s)
  | transmitOpportunity => exact execTransmitOpportunity_grows h (.refl s)
  | ethernetLinkChange => exact execEthernetLinkChange_grows h (.refl s)
  | revocationComplete => exact execRevocationComplete_grows h (.refl s)
  | reopenDelayExpired => exact execReopenDelayExpired_grows h (.refl s)
  | sqDoorbell => exact execSqDoorbell_grows h (.refl s)
  | cqHeadWrite => exact execCqHeadWrite_grows h (.refl s)
  | ringCtrlWrite => exact execRingCtrlWrite_grows h (.refl s)
  | lease => exact execLease_grows h (.refl s)
  | compose => exact execCompose_grows h (.refl s)
  | installKey => exact execInstallKey_grows h (.refl s)
  | registerContext => exact execRegisterContext_grows h (.refl s)
  | retireContext => exact execRetireContext_grows h (.refl s)
  | registerAdapter => exact execRegisterAdapter_grows h (.refl s)
  | withdrawAdapter => exact execWithdrawAdapter_grows h (.refl s)
  | installTable => exact execInstallTable_grows h (.refl s)
  | buildTable => exact execBuildTable_grows h (.refl s)
  | buildTableComplete => exact execBuildTableComplete_grows h (.refl s)
  | allocObject => exact execAllocObject_grows h (.refl s)
  | freeObject => exact execFreeObject_grows h (.refl s)
  | openWindow => exact execOpenWindow_grows h (.refl s)
  | reopenWindow => exact execReopenWindow_grows h (.refl s)
  | revokeWindow => exact execRevokeWindow_grows h (.refl s)
  | setQueue => exact execSetQueue_grows h (.refl s)
  | setPolicer => exact execSetPolicer_grows h (.refl s)
  | write => exact execWrite_grows h (.refl s)
  | read => exact execRead_grows h (.refl s)
  | atomic => exact execAtomic_grows h (.refl s)
  | stageImage => exact execStageImage_grows h (.refl s)
  | imageVerifyComplete => exact execImageVerifyComplete_grows h (.refl s)
  | switchImage => exact execSwitchImage_grows h (.refl s)
  | firmwareSwitchComplete => exact execFirmwareSwitchComplete_grows h (.refl s)
  | flashWriteComplete => exact execFlashWriteComplete_grows h (.refl s)
  | stagedImageTimeout => exact execStagedImageTimeout_grows h (.refl s)
  | commitSvn => exact execCommitSvn_grows h (.refl s)
  | drainDie => exact execDrainDie_grows h (.refl s)
  | readmitDie => exact execReadmitDie_grows h (.refl s)
  | selfCheckComplete => exact execSelfCheckComplete_grows h (.refl s)
  | rehome => exact execRehome_grows h (.refl s)
  | inHeadWrite => exact execInHeadWrite_grows h (.refl s)
  | outTailWrite => exact execOutTailWrite_grows h (.refl s)
  | statusAck => exact hnamed.elim
  | aliasBitWrite => exact hnamed.elim
  | unmappedAccess => exact execUnmappedAccess_grows h (.refl s)
  | registerWrite => exact hnamed.elim
  | pgmInspectLatch => exact execPgmInspectLatch_grows h (.refl s)
  | sqsInspectLatch => exact execSqsInspectLatch_grows h (.refl s)
  | slcInspectLatch => exact execSlcInspectLatch_grows h (.refl s)
  | tirSegLatch => exact execTirSegLatch_grows h (.refl s)
  | cmpTableLatch => exact execCmpTableLatch_grows h (.refl s)
  | fabPortLatch => exact execFabPortLatch_grows h (.refl s)
  | fabWinLatch => exact execFabWinLatch_grows h (.refl s)
  | weiQLatch => exact execWeiQLatch_grows h (.refl s)
  | weiPolLatch => exact execWeiPolLatch_grows h (.refl s)
  | secKeyLatch => exact execSecKeyLatch_grows h (.refl s)
  | hltCoreLatch => exact execHltCoreLatch_grows h (.refl s)
  | hltAcctLatch => exact execHltAcctLatch_grows h (.refl s)
  | stwReportLatch => exact execStwReportLatch_grows h (.refl s)
  | journalTailWrite => exact execJournalTailWrite_grows h (.refl s)
  | journalHeadWrite => exact hnamed.elim
  | ckptTailWrite => exact execCkptTailWrite_grows h (.refl s)
  | replayStepComplete => exact hnamed.elim
  | charterWrite => exact execCharterWrite_grows h (.refl s)
  | charterWriteComplete => exact execCharterWriteComplete_grows h (.refl s)
  | recoveryPush => exact execRecoveryPush_grows h (.refl s)
  | recoveryFinish => exact execRecoveryFinish_grows h (.refl s)
  | recoveryAbort => exact execRecoveryAbort_grows h (.refl s)
  | pwrGoodRise => exact execPwrGoodRise_grows h (.refl s)
  | powerStepInterval => exact execPowerStepInterval_grows h (.refl s)
  | pwrGoodFall => exact hnamed.elim
  | brownWarnTimeout => exact hnamed.elim
  | inputLow => exact execInputLow_grows h (.refl s)
  | inputRestored => exact execInputRestored_grows h (.refl s)
  | overvoltage => exact hnamed.elim
  | bankReserveReached => exact hnamed.elim
  | thermalHigh => exact execThermalHigh_grows h (.refl s)
  | thermalTrip => exact hnamed.elim
  | powerOver => exact execPowerOver_grows h (.refl s)
  | perstAssert => exact execPerstAssert_grows h (.refl s)
  | cxlLinkChange => exact execCxlLinkChange_grows h (.refl s)
  | ideIntegrityFailure => exact execIdeIntegrityFailure_grows h (.refl s)
  | d2dLinkFailure => exact execD2dLinkFailure_grows h (.refl s)
  | gddr7Uncorrectable => exact execGddr7Uncorrectable_grows h (.refl s)
  | gddr7Corrected => exact execGddr7Corrected_grows h (.refl s)
  | t2LineTimeout => exact execT2LineTimeout_grows h (.refl s)
  | coreMemoryCe => exact execCoreMemoryCe_grows h (.refl s)
  | coreMemoryUe => exact execCoreMemoryUe_grows h (.refl s)
  | hourTick => exact execHourTick_grows h (.refl s)
  | bootRomStart => exact hnamed.elim
  | imageStartTimeout => exact execImageStartTimeout_grows h (.refl s)
  | stewardStart => exact execStewardStart_grows h (.refl s)
  | serviceReached => exact execServiceReached_grows h (.refl s)
  | getVersion => exact execGetVersion_grows h (.refl s)
  | getCapabilities => exact execGetCapabilities_grows h (.refl s)
  | negotiateAlgorithms => exact execNegotiateAlgorithms_grows h (.refl s)
  | getDigests => exact execGetDigests_grows h (.refl s)
  | getCertificate => exact execGetCertificate_grows h (.refl s)
  | challenge => exact execChallenge_grows h (.refl s)
  | getMeasurements => exact execGetMeasurements_grows h (.refl s)
  | spdmUnsupportedRequest => exact execSpdmUnsupportedRequest_grows h (.refl s)
  | keyProg => exact execKeyProg_grows h (.refl s)
  | getSensors => exact execGetSensors_grows h (.refl s)
  | getIdentity => exact execGetIdentity_grows h (.refl s)
  | getPowerLog => exact execGetPowerLog_grows h (.refl s)
  | tallySetWritten => exact execTallySetWritten_grows h (.refl s)
  | imageSwapComplete => exact execImageSwapComplete_grows h (.refl s)
  | laneRepair => exact execLaneRepair_grows h (.refl s)
  | inputReconnect => exact execInputReconnect_grows h (.refl s)
  | dynamicAddressAssignment => exact execDynamicAddressAssignment_grows h (.refl s)
  | thermalExcursionEnd => exact execThermalExcursionEnd_grows h (.refl s)
  | _ => exact execRecall_grows h (.refl s)

/-- Settles O8: what writing a run of bytes does to a read inside the run, outside it, and to the form of memory. -/
theorem memoryReadsBackWhatIsWritten : Obligations.MemoryReadsBackWhatIsWritten := by
  unfold Obligations.MemoryReadsBackWhatIsWritten
  intro a bs s hform
  refine ⟨?_, ?_, ?_⟩
  · exact fun i hi => memRead_memWrite_same a i bs s.mem hi
  · exact fun x hx => memRead_memWrite_other a x bs s.mem hx
  · exact wf_memWrite a bs s.mem hform

end Sys2Proof.Machine
end

section
/-! # Frames of the commands (upper bounds on what each may change)

Each obligation lists, for the commands of one group, the parts of the state that may differ afterwards. The `_only` law of a
command says so of any list that holds the parts it may touch (`within`, decided by computing both lists); from the state
itself, of which nothing has changed yet (`Only.refl`), the stated list is enough. One line a command, in the order of the
statement. -/

namespace Sys2Proof.Machine

open Sys2Proof.Safety

/-- Settles O9: the frames of the time messages, the counter snapshot and the tallies. -/
theorem frameTime : Obligations.FrameTime := by
  unfold Obligations.FrameTime
  refine ⟨?_, ?_, ?_, ?_, ?_, ?_, ?_, ?_⟩
  · exact fun _ _ _ s _ h => execSync_only rfl h (.refl _ s)
  · exact fun _ s _ h => execAnnounce_only rfl h (.refl _ s)
  · exact fun _ s _ h => execSyncAbsent_only rfl h (.refl _ s)
  · exact fun _ s _ h => execHoldoverExpired_only rfl h (.refl _ s)
  · exact fun s _ h => execSnap_only rfl h (.refl _ s)
  · exact fun s _ h => execMinuteBoundary_only rfl h (.refl _ s)
  · exact fun s _ h => execTallyWriteDeadline_only rfl h (.refl _ s)
  · exact fun s _ h => execTallySetWritten_only rfl h (.refl _ s)

/-- Settles O10: the frames of the slots, prefetches, hidden states and completions within a step. -/
theorem frameWithinStep : Obligations.FrameWithinStep := by
  unfold Obligations.FrameWithinStep
  refine ⟨?_, ?_, ?_, ?_, ?_, ?_, ?_, ?_, ?_, ?_, ?_, ?_, ?_, ?_, ?_⟩
  · exact fun _ s _ h => execSlotOpen_only rfl h (.refl _ s)
  · exact fun _ s _ h => execPrefetchIssue_only rfl h (.refl _ s)
  · exact fun _ s _ h => execPrefetchComplete_only rfl h (.refl _ s)
  · exact fun _ s _ h => execPrefetchDeadline_only rfl h (.refl _ s)
  · exact fun _ _ s _ h => execSlackExhausted_only rfl h (.refl _ s)
  · exact fun _ _ s _ h => execHiddenState_only rfl h (.refl _ s)
  · exact fun _ s _ h => execAttentionOutput_only rfl h (.refl _ s)
  · exact fun _ _ s _ h => execItemComplete_only rfl h (.refl _ s)
  · exact fun _ s _ h => execImageSwapComplete_only rfl h (.refl _ s)
  · exact fun _ s _ h => execContextFillComplete_only rfl h (.refl _ s)
  · exact fun _ s _ h => execSealComplete_only rfl h (.refl _ s)
  · exact fun _ s _ h => execPromotionComplete_only rfl h (.refl _ s)
  · exact fun _ _ s _ h => execWritebackExtent_only rfl h (.refl _ s)
  · exact fun _ _ _ _ s _ h => execInHeadWrite_only rfl h (.refl _ s)
  · exact fun _ _ s _ h => execOutTailWrite_only rfl h (.refl _ s)

/-- Settles O11: the frames of the messages of the sluice and the ring and their timers. -/
theorem frameMessages : Obligations.FrameMessages := by
  unfold Obligations.FrameMessages
  refine ⟨?_, ?_, ?_, ?_, ?_, ?_, ?_, ?_, ?_, ?_, ?_, ?_, ?_, ?_, ?_, ?_, ?_, ?_, ?_, ?_, ?_, ?_⟩
  · exact fun _ s _ h => execRequest_only rfl h (.refl _ s)
  · exact fun _ s _ h => execAdmitQuery_only rfl h (.refl _ s)
  · exact fun _ s _ h => execVerdict_only rfl h (.refl _ s)
  · exact fun _ s _ h => execCancel_only rfl h (.refl _ s)
  · exact fun _ s _ h => execPause_only rfl h (.refl _ s)
  · exact fun _ s _ h => execGrant_only rfl h (.refl _ s)
  · exact fun _ s _ h => execGrantAck_only rfl h (.refl _ s)
  · exact fun _ s _ h => execStatePush_only rfl h (.refl _ s)
  · exact fun _ s _ h => execRelease_only rfl h (.refl _ s)
  · exact fun _ s _ h => execPulse_only rfl h (.refl _ s)
  · exact fun _ s _ h => execTokenNote_only rfl h (.refl _ s)
  · exact fun _ s _ h => execNoteAck_only rfl h (.refl _ s)
  · exact fun _ s _ h => execReject_only rfl h (.refl _ s)
  · exact fun _ s _ h => execRecall_only rfl h (.refl _ s)
  · exact fun _ s _ h => execHistoryQuery_only rfl h (.refl _ s)
  · exact fun _ s _ h => execReissueAckTimeout_only rfl h (.refl _ s)
  · exact fun _ s _ h => execRehomingTimeout_only rfl h (.refl _ s)
  · exact fun _ s _ h => execRehomeWaitExpired_only rfl h (.refl _ s)
  · exact fun _ s _ h => execRingBlock_only rfl h (.refl _ s)
  · exact fun _ s _ h => execProbe_only rfl h (.refl _ s)
  · exact fun _ s _ h => execFoldRecord_only rfl h (.refl _ s)
  · exact fun _ _ s _ h => execRingSilenceTimeout_only rfl h (.refl _ s)

/-- Settles O12: the frames of fragments, rebuilds and table builds. -/
theorem frameFragments : Obligations.FrameFragments := by
  unfold Obligations.FrameFragments
  refine ⟨?_, ?_, ?_, ?_, ?_, ?_, ?_, ?_, ?_⟩
  · exact fun _ s _ h => execFragmentPut_only rfl h (.refl _ s)
  · exact fun _ s _ h => execFragmentAck_only rfl h (.refl _ s)
  · exact fun _ s _ h => execFragmentGet_only rfl h (.refl _ s)
  · exact fun _ s _ h => execFragmentData_only rfl h (.refl _ s)
  · exact fun _ s _ h => execFragmentFree_only rfl h (.refl _ s)
  · exact fun _ s _ h => execFragmentLost_only rfl h (.refl _ s)
  · exact fun _ _ s _ h => execFragmentPutTimeout_only rfl h (.refl _ s)
  · exact fun _ s _ h => execRebuildTimeout_only rfl h (.refl _ s)
  · exact fun s _ h => execBuildTableComplete_only rfl h (.refl _ s)

/-- Settles O13: the frames of Nodor packets, their timers, the ports and the weir. -/
theorem frameNodor : Obligations.FrameNodor := by
  unfold Obligations.FrameNodor
  refine ⟨?_, ?_, ?_, ?_, ?_, ?_, ?_, ?_, ?_, ?_, ?_, ?_, ?_, ?_, ?_, ?_, ?_, ?_⟩
  · exact fun _ _ s _ h => execNodorSend_only rfl h (.refl _ s)
  · exact fun _ _ s _ h => execNodorWrite_only rfl h (.refl _ s)
  · exact fun _ _ s _ h => execNodorRead_only rfl h (.refl _ s)
  · exact fun _ _ s _ h => execNodorReadData_only rfl h (.refl _ s)
  · exact fun _ _ s _ h => execNodorAtomic_only rfl h (.refl _ s)
  · exact fun _ _ s _ h => execNodorAtomicData_only rfl h (.refl _ s)
  · exact fun _ _ s _ h => execNodorAck_only rfl h (.refl _ s)
  · exact fun _ _ s _ h => execNodorNack_only rfl h (.refl _ s)
  · exact fun _ _ s _ h => execPartialAckTimer_only rfl h (.refl _ s)
  · exact fun _ _ _ s _ h => execResendTimeout_only rfl h (.refl _ s)
  · exact fun _ _ s _ h => execMessageAbandonTimer_only rfl h (.refl _ s)
  · exact fun _ _ s _ h => execTransmitOpportunity_only rfl h (.refl _ s)
  · exact fun _ _ s _ h => execEthernetLinkChange_only rfl h (.refl _ s)
  · exact fun _ s _ h => execRevocationComplete_only rfl h (.refl _ s)
  · exact fun _ _ s _ h => execReopenDelayExpired_only rfl h (.refl _ s)
  · exact fun s _ h => execFineTick_only rfl h (.refl _ s)
  · exact fun s _ h => execCoarseTick_only rfl h (.refl _ s)
  · exact fun _ s _ h => execPacerRelease_only rfl h (.refl _ s)

/-- Settles O14: the frames of the ring registers and every ring command. -/
theorem frameRings : Obligations.FrameRings := by
  unfold Obligations.FrameRings
  refine ⟨?_, ?_, ?_, ?_, ?_, ?_, ?_, ?_, ?_, ?_, ?_, ?_, ?_, ?_, ?_, ?_, ?_, ?_, ?_, ?_, ?_, ?_, ?_, ?_, ?_, ?_, ?_,
    ?_⟩
  · exact fun _ _ _ _ s _ h => execSqDoorbell_only rfl h (.refl _ s)
  · exact fun _ _ s _ h => execCqHeadWrite_only rfl h (.refl _ s)
  · exact fun _ _ s _ h => execRingCtrlWrite_only rfl h (.refl _ s)
  · exact fun _ _ s _ h => execLease_only rfl h (.refl _ s)
  · exact fun _ s _ h => execCompose_only rfl h (.refl _ s)
  · exact fun _ _ s _ h => execInstallKey_only rfl h (.refl _ s)
  · exact fun _ s _ h => execRegisterContext_only rfl h (.refl _ s)
  · exact fun _ _ s _ h => execRetireContext_only rfl h (.refl _ s)
  · exact fun _ s _ h => execRegisterAdapter_only rfl h (.refl _ s)
  · exact fun _ _ s _ h => execWithdrawAdapter_only rfl h (.refl _ s)
  · exact fun _ _ _ s _ h => execInstallTable_only rfl h (.refl _ s)
  · exact fun _ _ _ _ s _ h => execBuildTable_only rfl h (.refl _ s)
  · exact fun _ _ _ _ _ s _ h => execAllocObject_only rfl h (.refl _ s)
  · exact fun _ _ _ s _ h => execFreeObject_only rfl h (.refl _ s)
  · exact fun _ _ _ s _ h => execOpenWindow_only rfl h (.refl _ s)
  · exact fun _ _ _ _ s _ h => execReopenWindow_only rfl h (.refl _ s)
  · exact fun _ _ _ s _ h => execRevokeWindow_only rfl h (.refl _ s)
  · exact fun _ _ _ _ _ _ s _ h => execSetQueue_only rfl h (.refl _ s)
  · exact fun _ _ _ _ _ _ s _ h => execSetPolicer_only rfl h (.refl _ s)
  · exact fun _ _ _ s _ h => execWrite_only rfl h (.refl _ s)
  · exact fun _ _ _ s _ h => execRead_only rfl h (.refl _ s)
  · exact fun _ _ _ s _ h => execAtomic_only rfl h (.refl _ s)
  · exact fun _ _ s _ h => execStageImage_only rfl h (.refl _ s)
  · exact fun _ s _ h => execSwitchImage_only rfl h (.refl _ s)
  · exact fun _ s _ h => execCommitSvn_only rfl h (.refl _ s)
  · exact fun _ _ _ s _ h => execDrainDie_only rfl h (.refl _ s)
  · exact fun _ _ s _ h => execReadmitDie_only rfl h (.refl _ s)
  · exact fun _ _ s _ h => execRehome_only rfl h (.refl _ s)

/-- Settles O15: the frames of findings of checks, cores, links and memory. -/
theorem frameHealth : Obligations.FrameHealth := by
  unfold Obligations.FrameHealth
  refine ⟨?_, ?_, ?_, ?_, ?_, ?_, ?_, ?_, ?_, ?_, ?_, ?_⟩
  · exact fun _ _ s _ h => execItemOverrun_only rfl h (.refl _ s)
  · exact fun _ _ _ _ s _ h => execShadowComplete_only rfl h (.refl _ s)
  · exact fun _ _ s _ h => execRefereeComplete_only rfl h (.refl _ s)
  · exact fun _ _ s _ h => execSelfCheckComplete_only rfl h (.refl _ s)
  · exact fun _ _ s _ h => execD2dLinkFailure_only rfl h (.refl _ s)
  · exact fun _ s _ h => execLaneRepair_only rfl h (.refl _ s)
  · exact fun _ s _ h => execGddr7Uncorrectable_only rfl h (.refl _ s)
  · exact fun s _ h => execGddr7Corrected_only rfl h (.refl _ s)
  · exact fun _ _ _ s _ h => execT2LineTimeout_only rfl h (.refl _ s)
  · exact fun _ _ s _ h => execCoreMemoryCe_only rfl h (.refl _ s)
  · exact fun _ _ s _ h => execCoreMemoryUe_only rfl h (.refl _ s)
  · exact fun _ s _ h => execHourTick_only rfl h (.refl _ s)

/-- Settles O16: the frames of acknowledgements, latches and tails: no memory in any list. -/
theorem frameRegisters : Obligations.FrameRegisters := by
  unfold Obligations.FrameRegisters
  refine ⟨?_, ?_, ?_, ?_, ?_, ?_, ?_, ?_, ?_, ?_, ?_, ?_, ?_, ?_, ?_, ?_, ?_⟩
  · exact fun _ _ s _ h => execStatusAck_only rfl h (.refl _ s)
  · exact fun _ s _ h => execUnmappedAccess_only rfl h (.refl _ s)
  · exact fun _ s _ h => execPgmInspectLatch_only rfl h (.refl _ s)
  · exact fun _ s _ h => execSqsInspectLatch_only rfl h (.refl _ s)
  · exact fun _ s _ h => execSlcInspectLatch_only rfl h (.refl _ s)
  · exact fun _ s _ h => execTirSegLatch_only rfl h (.refl _ s)
  · exact fun _ s _ h => execCmpTableLatch_only rfl h (.refl _ s)
  · exact fun _ s _ h => execFabPortLatch_only rfl h (.refl _ s)
  · exact fun _ s _ h => execFabWinLatch_only rfl h (.refl _ s)
  · exact fun _ s _ h => execWeiQLatch_only rfl h (.refl _ s)
  · exact fun _ _ s _ h => execWeiPolLatch_only rfl h (.refl _ s)
  · exact fun _ s _ h => execSecKeyLatch_only rfl h (.refl _ s)
  · exact fun _ s _ h => execHltCoreLatch_only rfl h (.refl _ s)
  · exact fun _ s _ h => execHltAcctLatch_only rfl h (.refl _ s)
  · exact fun _ s _ h => execStwReportLatch_only rfl h (.refl _ s)
  · exact fun _ s _ h => execJournalTailWrite_only rfl h (.refl _ s)
  · exact fun _ s _ h => execCkptTailWrite_only rfl h (.refl _ s)

/-- Settles O17: the frames of images, the charter, start-up and the supply. -/
theorem frameStartup : Obligations.FrameStartup := by
  unfold Obligations.FrameStartup
  refine ⟨?_, ?_, ?_, ?_, ?_, ?_, ?_, ?_, ?_, ?_, ?_, ?_, ?_, ?_, ?_, ?_, ?_, ?_, ?_, ?_, ?_, ?_, ?_, ?_, ?_⟩
  · exact fun _ s _ h => execImageVerifyComplete_only rfl h (.refl _ s)
  · exact fun s _ h => execFirmwareSwitchComplete_only rfl h (.refl _ s)
  · exact fun _ s _ h => execFlashWriteComplete_only rfl h (.refl _ s)
  · exact fun s _ h => execStagedImageTimeout_only rfl h (.refl _ s)
  · exact fun _ s _ h => execCharterWrite_only rfl h (.refl _ s)
  · exact fun _ s _ h => execCharterWriteComplete_only rfl h (.refl _ s)
  · exact fun _ _ s _ h => execRecoveryPush_only rfl h (.refl _ s)
  · exact fun _ s _ h => execRecoveryFinish_only rfl h (.refl _ s)
  · exact fun s _ h => execRecoveryAbort_only rfl h (.refl _ s)
  · exact fun s _ h => execPwrGoodRise_only rfl h (.refl _ s)
  · exact fun s _ h => execPowerStepInterval_only rfl h (.refl _ s)
  · exact fun _ _ _ s _ h => execInputLow_only rfl h (.refl _ s)
  · exact fun _ _ _ s _ h => execInputRestored_only rfl h (.refl _ s)
  · exact fun _ _ s _ h => execThermalHigh_only rfl h (.refl _ s)
  · exact fun _ s _ h => execThermalExcursionEnd_only rfl h (.refl _ s)
  · exact fun _ _ s _ h => execPowerOver_only rfl h (.refl _ s)
  · exact fun _ s _ h => execPerstAssert_only rfl h (.refl _ s)
  · exact fun _ _ _ s _ h => execCxlLinkChange_only rfl h (.refl _ s)
  · exact fun _ s _ h => execIdeIntegrityFailure_only rfl h (.refl _ s)
  · exact fun _ s _ h => execBootRomStart_only rfl h (.refl _ s)
  · exact fun s _ h => execImageStartTimeout_only rfl h (.refl _ s)
  · exact fun _ _ s _ h => execStewardStart_only rfl h (.refl _ s)
  · exact fun _ _ s _ h => execServiceReached_only rfl h (.refl _ s)
  · exact fun _ s _ h => execInputReconnect_only rfl h (.refl _ s)
  · exact fun _ s _ h => execDynamicAddressAssignment_only rfl h (.refl _ s)

/-- Settles O18: the frames of attestation, keys and the sideband: no memory in any list. -/
theorem frameAttestation : Obligations.FrameAttestation := by
  unfold Obligations.FrameAttestation
  refine ⟨?_, ?_, ?_, ?_, ?_, ?_, ?_, ?_, ?_, ?_, ?_, ?_⟩
  · exact fun _ s _ h => execGetVersion_only rfl h (.refl _ s)
  · exact fun _ s _ h => execGetCapabilities_only rfl h (.refl _ s)
  · exact fun _ _ _ _ _ s _ h => execNegotiateAlgorithms_only rfl h (.refl _ s)
  · exact fun _ s _ h => execGetDigests_only rfl h (.refl _ s)
  · exact fun _ _ _ _ s _ h => execGetCertificate_only rfl h (.refl _ s)
  · exact fun _ _ _ s _ h => execChallenge_only rfl h (.refl _ s)
  · exact fun _ _ _ _ s _ h => execGetMeasurements_only rfl h (.refl _ s)
  · exact fun _ _ s _ h => execSpdmUnsupportedRequest_only rfl h (.refl _ s)
  · exact fun _ _ _ _ s _ h => execKeyProg_only rfl h (.refl _ s)
  · exact fun _ s _ h => execGetSensors_only rfl h (.refl _ s)
  · exact fun s _ h => execGetIdentity_only rfl h (.refl _ s)
  · exact fun s _ h => execGetPowerLog_only rfl h (.refl _ s)

end Sys2Proof.Machine
end

section
/-! # Time, tallies, the wheels and the slots (R48 to R64, R144, R279, R313, R314)

What the commands of time do under the conditions named: the case splits (by time state, by wheel, by the state of a load)
are in the laws of EffTime, EffAccounting, EffWeir, EffSlots and EffEdge; a clause of an obligation is the law of its
command. -/

namespace Sys2Proof.Machine

open Sys2Proof.Safety

/-- Settles O19: a Sync of the grandmaster chosen moves the time state by the table of R52; one of another clock changes
nothing. -/
theorem syncMovesTheTimeState : Obligations.SyncMovesTheTimeState := by
  unfold Obligations.SyncMovesTheTimeState
  refine ⟨?_, ?_⟩
  · exact fun _ _ _ _ => sync_effect
  · exact fun _ _ _ _ => sync_other

/-- Settles O20: each clock message and timer has its law; the order of clocks by which an ANNOUNCE is worse is the
model's (log 21). -/
theorem timeCommandsComplete : Obligations.TimeCommandsComplete := by
  unfold Obligations.TimeCommandsComplete
  refine ⟨?_, ?_, ?_, ?_, ?_⟩
  · exact fun _ _ => announce_effect
  · exact fun _ _ _ => announce_worse
  · exact fun _ _ => syncAbsent_effect
  · exact fun _ _ => holdoverExpired_effect
  · exact fun _ => snap_effect

/-- Settles O21: a minute freezes a set of 256 records, which is then written at its place in the ring of sets, or is
late. -/
theorem talliesAreFrozenAndWritten : Obligations.TalliesAreFrozenAndWritten := by
  unfold Obligations.TalliesAreFrozenAndWritten
  refine ⟨?_, ?_, ?_⟩
  · exact fun _ => minuteBoundary_effect
  · exact fun _ _ _ => tallySetWritten_effect
  · exact fun _ _ _ => tallyWriteDeadline_effect

/-- Settles O23: due queues leave the coarse wheel for the fine slot of their eligible time, and the pacer for
eligibility. -/
theorem coarseWheelAndPacer : Obligations.CoarseWheelAndPacer := by
  unfold Obligations.CoarseWheelAndPacer
  refine ⟨?_, ?_⟩
  · exact fun _ => coarseTick_effect
  · exact fun _ _ => pacerRelease_effect

/-- Settles O25: a slot opens at its instant; the load of the next layer is issued, staged, late, or streamed over the
spillway. -/
theorem slotsAndPrefetches : Obligations.SlotsAndPrefetches := by
  unfold Obligations.SlotsAndPrefetches
  refine ⟨?_, ?_, ?_, ?_, ?_⟩
  · exact fun _ _ _ => slotOpen_effect
  · exact fun _ _ _ _ _ _ => prefetchIssue_effect
  · exact fun _ _ _ _ _ _ => prefetchComplete_effect
  · exact fun _ _ _ _ _ _ => prefetchDeadline_effect
  · exact fun _ _ _ _ _ _ _ => slackExhausted_effect

/-- Settles O58: in service with the grid running the boundary is a real one. Which boundary opens is log 17, the cap of
the peak log 18, and the swap of the bank at the boundary itself log 120. -/
theorem stepBoundaryOpensTheStep : Obligations.StepBoundaryOpensTheStep := by
  unfold Obligations.StepBoundaryOpensTheStep
  exact fun _ _ => stepBoundary_effect

end Sys2Proof.Machine
end

section
/-! # Requests, the sluice and the ring (R16 to R20, R100 to R107, R165 to R185)

What a message, a timer and a hidden state leave behind at the module that takes them. Which module takes a message, what
its header reads and which record it names stand in KeeperGets, OwnerGets and RingGets, so that the laws of EffOwner,
EffKeeper, EffRing and EffExchange take them whole. -/

namespace Sys2Proof.Machine

open Sys2Proof.Safety

/-- Settles O27: each request waits under its action. That a REQUEST is only queued for action 3 and tested there is log
89; that the members of a ring set are asked and their answers gathered is log 50. -/
theorem requestsWaitForTheirBoundary : Obligations.RequestsWaitForTheirBoundary := by
  unfold Obligations.RequestsWaitForTheirBoundary
  refine ⟨?_, ?_, ?_, ?_, ?_, ?_⟩
  · exact fun _ _ => request_effect
  · exact fun _ _ _ => admitQuery_effect
  · exact fun _ _ => cancel_effect
  · exact fun _ _ => cancel_unknown
  · exact fun _ _ => pause_effect
  · exact fun _ _ _ => verdict_member

/-- Settles O28: the keeper's record after each message under the epoch in force, and the refusal of a PULSE under
another. -/
theorem keeperTakesMessages : Obligations.KeeperTakesMessages := by
  unfold Obligations.KeeperTakesMessages
  refine ⟨?_, ?_, ?_, ?_, ?_, ?_⟩
  · exact fun _ _ _ _ _ => grantAck_effect
  · exact fun _ _ _ _ _ => pulse_effect
  · exact fun _ _ _ _ _ => pulse_stale
  · exact fun _ _ _ _ _ => tokenNote_effect
  · exact fun _ _ _ _ _ => statePush_effect
  · exact fun _ _ _ _ _ => release_effect

/-- Settles O29: the owner's record after each message of its keeper. OWNER_SUPERSEDED is raised at the REJECT (log 104),
which carries the epoch of log 41. -/
theorem ownerTakesMessages : Obligations.OwnerTakesMessages := by
  unfold Obligations.OwnerTakesMessages
  refine ⟨?_, ?_, ?_, ?_, ?_, ?_, ?_⟩
  · exact fun _ _ _ => grant_effect
  · exact fun _ _ _ _ _ _ => reissue_effect
  · exact fun _ _ _ _ _ _ _ => noteAck_effect
  · exact fun _ _ _ _ _ _ _ => noteAck_held
  · exact fun _ _ _ _ _ _ => reject_effect
  · exact fun _ _ _ _ _ _ => recall_effect
  · exact fun _ _ _ _ _ _ => historyQuery_effect

/-- Settles O30: a reissue unacknowledged orphans, a rehoming is put again at action 4, a hold that ran out supersedes. -/
theorem sluiceTimers : Obligations.SluiceTimers := by
  unfold Obligations.SluiceTimers
  refine ⟨?_, ?_, ?_⟩
  · exact fun _ _ _ _ => reissueAckTimeout_effect
  · exact fun _ _ _ _ => rehomingTimeout_effect
  · exact fun _ _ _ _ => rehomeWaitExpired_effect

/-- Settles O31: each position planned that has no row gets one (rows outside the plan are log 107); a damaged block is
not kept (log 123); the epoch of a member follows log 118 and the member put in for a silent one log 124. -/
theorem hiddenStatesAndRingMessages : Obligations.HiddenStatesAndRingMessages := by
  unfold Obligations.HiddenStatesAndRingMessages
  refine ⟨?_, ?_, ?_, ?_, ?_, ?_, ?_, ?_, ?_, ?_⟩
  · exact fun _ _ _ _ _ _ => hiddenState_effect
  · exact fun _ _ _ => hiddenState_damaged
  · exact fun _ _ _ _ _ _ => ringBlock_effect
  · exact fun _ _ _ _ _ _ => ringBlock_damaged
  · exact fun _ _ _ _ _ => ringBlock_duplicate
  · exact fun _ _ _ _ _ => ringBlock_stale
  · exact fun _ _ _ _ _ _ => probe_effect
  · exact fun _ _ _ _ _ _ => probe_held
  · exact fun _ _ _ _ _ _ => foldRecord_effect
  · exact fun _ _ _ _ => ringSilenceTimeout_effect

/-- Settles O33: the head is set within the ring and, on a channel that is on, every message up to it is taken. -/
theorem inHeadWriteTakesMessages : Obligations.InHeadWriteTakesMessages := by
  unfold Obligations.InHeadWriteTakesMessages
  exact fun _ _ _ _ _ => inHeadWrite_effect

end Sys2Proof.Machine
end

section
/-! # Supply, heat, CXL ports, start-up and recovery (R355 to R358, R390 to R414)

What signals of the supply, findings of heat and power, changes of a CXL port and the steps of start-up do. Powering off
is said once, by PoweredOff, and every law of EffSupply that ends there answers with it; the laws of EffCxl and EffStart
hold the rest. -/

namespace Sys2Proof.Machine

open Sys2Proof.Safety

/-- Settles O37: each signal has its law. A bank of exactly 2 J counts as low and as restored (log 78), the voltage at
reconnection is log 98, a short fall is logged by log 99, and RESTARTS stops at 255 (log 29). -/
theorem supplyEvents : Obligations.SupplyEvents := by
  unfold Obligations.SupplyEvents
  refine ⟨?_, ?_, ?_, ?_, ?_, ?_, ?_, ?_, ?_⟩
  · exact fun _ => pwrGoodRise_effect
  · exact fun _ _ _ => pwrGoodFall_short
  · exact fun _ _ _ => pwrGoodFall_long
  · exact fun _ => brownWarnTimeout_effect
  · exact fun _ _ _ _ => inputLow_effect
  · exact fun _ _ _ _ => inputRestored_effect
  · exact fun _ _ _ => overvoltage_effect
  · exact fun _ _ => bankReserveReached_effect
  · exact fun _ _ => inputReconnect_effect

/-- Settles O38: findings are logged from step 2 of power-up on (log 74), a trip powers off, and the sideband answers by
the layout of log 76. -/
theorem heatPowerAndSideband : Obligations.HeatPowerAndSideband := by
  unfold Obligations.HeatPowerAndSideband
  refine ⟨?_, ?_, ?_, ?_, ?_, ?_, ?_, ?_⟩
  · exact fun _ _ _ => thermalHigh_effect
  · exact thermalExcursionEnd_effect
  · exact fun _ _ _ => thermalTrip_effect
  · exact fun _ _ _ => powerOver_effect
  · exact fun _ _ => getSensors_effect
  · exact fun _ => getIdentity_effect
  · exact fun _ => getPowerLog_effect
  · exact fun _ _ => dynamicAddressAssignment_effect

/-- Settles O39: a port leaves with PERST, comes and goes with its link, and an IDE failure bars it from coming up. -/
theorem cxlPortsComeAndGo : Obligations.CxlPortsComeAndGo := by
  unfold Obligations.CxlPortsComeAndGo
  refine ⟨?_, ?_, ?_, ?_, ?_⟩
  · exact fun _ _ => perstAssert_effect
  · exact fun _ _ _ _ => cxlLink_up
  · exact fun _ _ _ => cxlLink_down
  · exact fun _ _ _ _ => cxlLink_barred
  · exact fun _ _ => ideIntegrityFailure_effect

/-- Settles O40: each stage of start-up has its law. CAUSE is 0 again once an image is accepted and started (log 71), and
what acts before SERVICE is log 97. -/
theorem startUpRuns : Obligations.StartUpRuns := by
  unfold Obligations.StartUpRuns
  refine ⟨?_, ?_, ?_, ?_, ?_, ?_, ?_, ?_, ?_, ?_⟩
  · exact fun _ => powerStepInterval_effect
  · exact fun _ => powerStepInterval_held
  · exact fun _ _ => bootRom_noFlash
  · exact fun _ _ => bootRom_accepts
  · exact fun _ _ => bootRom_refuses
  · exact fun _ => imageStartTimeout_effect
  · exact fun _ _ _ => stewardStart_halts
  · exact fun _ _ => stewardStart_cores
  · exact fun _ _ _ => stewardStart_links
  · exact fun _ _ _ => serviceReached_effect

/-- Settles O41: a chunk within the limits is appended and one over them refused (log 73); an image is started, with CAUSE
0 (log 71), or discarded with its cause. -/
theorem recoveryTakesAnImage : Obligations.RecoveryTakesAnImage := by
  unfold Obligations.RecoveryTakesAnImage
  refine ⟨?_, ?_, ?_, ?_, ?_⟩
  · exact fun _ _ _ => recoveryPush_effect
  · exact fun _ _ _ => recoveryPush_refused
  · exact fun _ _ => recoveryFinish_accepted
  · exact fun _ _ => recoveryFinish_refused
  · exact fun _ => recoveryAbort_effect

end Sys2Proof.Machine
end

section
/-! # Health of cores, links and memory (R39, R40, R219 to R227, R340 to R349)

What a finding does to the core, link, segment or object it is about, and what it counts and raises: the laws of
EffHealth, one for each place where an error may fall. -/

namespace Sys2Proof.Machine

open Sys2Proof.Safety

/-- Settles O42: a hard fault quarantines at once, a corrected error and a primary's fault raise a score, and the hour
lowers it. -/
theorem healthFindings : Obligations.HealthFindings := by
  unfold Obligations.HealthFindings
  refine ⟨?_, ?_, ?_, ?_, ?_, ?_, ?_, ?_⟩
  · exact fun _ _ _ _ => itemOverrun_effect
  · exact fun _ _ _ => coreMemoryUe_effect
  · exact fun _ _ _ => coreMemoryCe_effect
  · exact fun _ _ => hourTick_effect
  · exact fun _ _ _ _ _ => shadowComplete_equal
  · exact fun _ _ _ _ _ _ => shadowComplete_differs
  · exact fun _ _ _ => refereeComplete_primary
  · exact fun _ _ _ => selfCheckComplete_effect

/-- Settles O43: a link goes down or is degraded and LANE_REPAIR makes it REPAIRED from every state (log 45); a memory
error acts by the place it hits. -/
theorem linksAndMemoryErrors : Obligations.LinksAndMemoryErrors := by
  unfold Obligations.LinksAndMemoryErrors
  refine ⟨?_, ?_, ?_, ?_, ?_, ?_, ?_, ?_, ?_⟩
  · exact fun _ _ _ => d2dLinkFailure_effect
  · exact fun _ _ => laneRepair_effect
  · exact fun _ => gddr7Corrected_effect
  · exact fun _ _ => gddr7Uncorrectable_counts
  · exact fun _ => gddr7Uncorrectable_system
  · exact fun _ _ _ => gddr7Uncorrectable_history
  · exact fun _ _ _ _ => gddr7Uncorrectable_object
  · exact fun _ _ _ _ => t2LineTimeout_recovered
  · exact fun _ _ _ _ => t2LineTimeout_failed

end Sys2Proof.Machine
end

section
/-! # Attestation and keys (R292, R293, R298 to R302, R358)

The responder's answers by request, each beside its ERROR, and the programming of an IDE key: the laws of EffSpdm. -/

namespace Sys2Proof.Machine

open Sys2Proof.Safety

/-- Settles O44: every request of the responder beside its ERROR; layouts and codes are those of log 63, the digest log 9,
signatures and certificates log 11. -/
theorem spdmResponder : Obligations.SpdmResponder := by
  unfold Obligations.SpdmResponder
  refine ⟨?_, ?_, ?_, ?_, ?_, ?_, ?_, ?_, ?_, ?_, ?_, ?_, ?_⟩
  · exact fun _ _ => getVersion_effect
  · exact fun _ _ => getCapabilities_effect
  · exact fun _ _ => getCapabilities_early
  · exact fun _ _ _ _ _ _ => negotiateAlgorithms_effect
  · exact fun _ _ _ _ _ _ => negotiateAlgorithms_refused
  · exact fun _ _ => getDigests_effect
  · exact fun _ _ => getDigests_early
  · exact fun _ _ _ _ => getCertificate_effect
  · exact fun _ _ _ _ _ => getCertificate_refused
  · exact fun _ _ _ => challenge_effect
  · exact fun _ _ _ _ => getMeasurements_effect
  · exact fun _ _ _ _ => getMeasurements_signed
  · exact fun _ _ _ => spdmUnsupported_effect

/-- Settles O45: an accepted blob programs its key and frees the port; a refused one leaves both and says why. The bytes
of the acknowledgement rest on log 63. -/
theorem ideKeysAreProgrammed : Obligations.IdeKeysAreProgrammed := by
  unfold Obligations.IdeKeysAreProgrammed
  refine ⟨?_, ?_⟩
  · exact fun _ _ _ _ _ => keyProg_accepted
  · exact fun _ _ _ _ _ => keyProg_refused

end Sys2Proof.Machine
end

section
/-! # Host rings, windows and registers (R265 to R270, R325, R326, R362 to R373)

A command that a ring takes either waits for an action (RingReady, TakenToWait) or has its effect at once; a window opens,
is revoked and reopens; a register write acts by the kind of its register. The laws are those of EffRings, EffTaken,
EffEdge and EffRegs. -/

namespace Sys2Proof.Machine

open Sys2Proof.Safety

/-- Settles O46: each command is put into its ring by itself (log 82) and taken at the instant of its doorbell (log 81),
and waits as the last under its action. -/
theorem ringCommandsWait : Obligations.RingCommandsWait := by
  unfold Obligations.RingCommandsWait
  refine ⟨?_, ?_, ?_, ?_, ?_, ?_, ?_, ?_, ?_, ?_, ?_, ?_, ?_⟩
  · exact fun _ _ _ => lease_taken
  · exact fun _ _ => registerContext_taken
  · exact fun _ _ _ => retireContext_taken
  · exact fun _ _ => registerAdapter_taken
  · exact fun _ _ _ => withdrawAdapter_taken
  · exact fun _ _ _ _ => installTable_taken
  · exact fun _ _ _ => installKey_taken
  · exact fun _ _ _ _ => drainDie_taken
  · exact fun _ _ _ => readmitDie_taken
  · exact fun _ _ _ _ => freeObject_taken
  · exact fun _ _ _ _ _ _ => allocObject_taken
  · exact fun _ _ => switchImage_taken
  · exact fun _ _ _ => rehome_taken

/-- Settles O47: on a ready ring a window command acts at the instant it is taken (logs 81, 82); a REOPEN_WINDOW within
0.5 ms of the opening is held (log 84). -/
theorem windowCommandsAtTaking : Obligations.WindowCommandsAtTaking := by
  unfold Obligations.WindowCommandsAtTaking
  refine ⟨?_, ?_, ?_, ?_⟩
  · exact fun _ _ _ _ _ _ => openWindow_taken
  · exact fun _ _ _ _ _ => revokeWindow_taken
  · exact fun _ _ _ _ _ _ => reopenWindow_taken
  · exact fun _ _ _ _ _ _ => reopenWindow_held

/-- Settles O48: a revocation ends in a closed or a reopened window, by what waits on it; a held REOPEN_WINDOW begins
after its delay (log 84). -/
theorem windowsCloseAndReopen : Obligations.WindowsCloseAndReopen := by
  unfold Obligations.WindowsCloseAndReopen
  refine ⟨?_, ?_, ?_, ?_, ?_, ?_⟩
  · exact fun _ _ => revocation_closes
  · exact fun _ _ _ => revocation_answers
  · exact fun _ _ _ _ => revocation_reopens
  · exact fun _ _ _ _ _ => revocation_refused
  · exact fun _ _ _ _ _ => reopenDelay_effect
  · exact fun _ _ _ _ _ _ => reopenDelay_refused

/-- Settles O49: four commands have their effect at taking (logs 81, 82); the image of STAGE_IMAGE is read by log 128 and
its BUSY is log 55; a build answers when it completes. -/
theorem commandsAtTaking : Obligations.CommandsAtTaking := by
  unfold Obligations.CommandsAtTaking
  refine ⟨?_, ?_, ?_, ?_, ?_⟩
  · exact fun _ _ => compose_taken
  · exact fun _ _ _ _ _ _ => buildTable_taken
  · exact fun _ _ _ _ => stageImage_taken
  · exact fun _ _ _ => commitSvn_taken
  · exact fun _ _ _ _ _ _ _ => buildTableComplete_effect

/-- Settles O51: one law a register: with bit 31 the record of the index is latched, without it nothing is. What a free,
unassigned or absent record shows, and the deferral of SQS_INSPECT, are log 101. -/
theorem inspectionLatches : Obligations.InspectionLatches := by
  unfold Obligations.InspectionLatches
  refine ⟨?_, ?_, ?_, ?_, ?_, ?_, ?_, ?_, ?_, ?_, ?_, ?_, ?_⟩
  · exact fun _ _ => pgmInspectLatch_effect
  · exact fun _ _ => slcInspectLatch_effect
  · exact fun _ _ => tirSegLatch_effect
  · exact fun _ _ => fabPortLatch_effect
  · exact fun _ _ => fabWinLatch_effect
  · exact fun _ _ => weiQLatch_effect
  · exact fun _ _ _ => weiPolLatch_effect
  · exact fun _ _ => hltCoreLatch_effect
  · exact fun _ _ => hltAcctLatch_effect
  · exact fun _ _ => stwReportLatch_effect
  · exact fun _ _ => cmpTableLatch_effect
  · exact fun _ _ => secKeyLatch_effect
  · exact fun _ _ => sqsInspectLatch_effect

/-- Settles O52: an acknowledgement under the sequence that was read clears the bits it names; other writes act by the
kind of the register. -/
theorem registerWritesDoWhatTheirKindSays : Obligations.RegisterWritesDoWhatTheirKindSays := by
  unfold Obligations.RegisterWritesDoWhatTheirKindSays
  refine ⟨?_, ?_, ?_, ?_, ?_, ?_, ?_, ?_, ?_⟩
  · exact fun _ _ _ _ _ => statusAck_clears
  · exact fun _ _ _ _ _ => statusAck_stale
  · exact fun _ _ => unmappedAccess_effect
  · exact fun _ _ _ _ => registerWrite_partial
  · exact fun _ _ _ _ => registerWrite_unused
  · exact fun _ _ _ => registerWrite_source
  · exact fun _ _ _ _ _ => registerWrite_readOnly
  · exact fun _ _ _ _ => aliasBitWrite_bit
  · exact fun _ _ _ _ _ _ => aliasBitWrite_ignored

/-- Settles O59: RING_CTRL by the state of the ring and its ENABLE; the head frees what was read and an old head nothing
(log 80); a doorbell past the size stops the ring, and with nothing to take only moves the tail (log 81). -/
theorem ringRegisters : Obligations.RingRegisters := by
  unfold Obligations.RingRegisters
  refine ⟨?_, ?_, ?_, ?_, ?_, ?_, ?_⟩
  · exact fun _ _ _ => ringCtrl_starts
  · exact fun _ _ _ => ringCtrl_configures
  · exact fun _ _ _ => ringCtrl_stops
  · exact fun _ _ _ => ringCtrl_locked
  · exact fun _ _ _ => cqHeadWrite_effect
  · exact fun _ _ _ _ _ => sqDoorbell_error
  · exact fun _ _ _ _ _ => sqDoorbell_nothing

end Sys2Proof.Machine
end

section
/-! # Packets, images, the charter and the journal (R253 to R272, R304 to R306, R331 to R336, R380 to R388)

What a good frame does at its receiver and its sender, how an image and a charter reach flash, and how the journal's
registers and a replayed step end: the laws of EffNodor and EffEdge. -/

namespace Sys2Proof.Machine

open Sys2Proof.Safety

/-- Settles O53: a good frame that passes the checks does its work and is answered: READ and ATOMIC by data alone (log
61), READ_DATA with WINDOW 0 (log 60), in packets of 4,112 bytes (log 69). -/
theorem nodorReceiver : Obligations.NodorReceiver := by
  unfold Obligations.NodorReceiver
  refine ⟨?_, ?_, ?_, ?_, ?_, ?_, ?_⟩
  · exact fun _ _ _ => nodorSend_first
  · exact fun _ _ _ => nodorSend_single
  · exact fun _ _ _ _ => nodorWrite_first
  · exact fun _ _ _ _ => nodorWrite_single
  · exact fun _ _ _ => nodorWrite_policed
  · exact fun _ _ _ _ => nodorRead_effect
  · exact fun _ _ _ _ _ _ => nodorAtomic_effect

/-- Settles O54: each answer ends its message and its command, each timer acknowledges, resends or abandons, and the
frames of a port that goes down move on. -/
theorem nodorSender : Obligations.NodorSender := by
  unfold Obligations.NodorSender
  refine ⟨?_, ?_, ?_, ?_, ?_, ?_, ?_, ?_, ?_, ?_⟩
  · exact fun _ _ _ _ _ _ => nodorAck_effect
  · exact fun _ _ _ _ _ => nodorNack_effect
  · exact fun _ _ _ _ _ => nodorAtomicData_effect
  · exact fun _ _ _ _ _ _ => nodorReadData_part
  · exact fun _ _ _ _ _ _ => nodorReadData_last
  · exact fun _ _ _ _ => partialAckTimer_effect
  · exact fun _ _ _ _ _ => resendTimeout_effect
  · exact fun _ _ _ _ _ _ => messageAbandonTimer_effect
  · exact fun _ _ => ethernetLinkChange_up
  · exact fun _ _ _ => ethernetLinkChange_down

/-- Settles O55: an image is verified as it is read at completion (log 128), refused with a free cause (log 55), switched
to, and written to flash, or its region is left in part programmed (log 54). -/
theorem imagesAreVerifiedSwitchedAndWritten : Obligations.ImagesAreVerifiedSwitchedAndWritten := by
  unfold Obligations.ImagesAreVerifiedSwitchedAndWritten
  refine ⟨?_, ?_, ?_, ?_, ?_, ?_, ?_⟩
  · exact fun _ _ _ => imageVerify_accepted
  · exact fun _ _ _ => imageVerify_refused
  · exact fun _ => stagedImageTimeout_effect
  · exact fun _ _ => firmwareSwitch_effect
  · exact fun _ _ _ => flashWrite_done
  · exact fun _ _ _ => flashWrite_recovery
  · exact fun _ _ _ _ => flashWrite_failed

/-- Settles O56: a charter is copied and queued or fails at once; its completion leaves it in flash, or a region in part
programmed (log 54). -/
theorem charterRegionIsWritten : Obligations.CharterRegionIsWritten := by
  unfold Obligations.CharterRegionIsWritten
  refine ⟨?_, ?_, ?_, ?_⟩
  · exact fun _ _ => charterWrite_accepted
  · exact fun _ _ => charterWrite_refused
  · exact fun _ _ _ => charterWriteComplete_ok
  · exact fun _ _ _ => charterWriteComplete_failed

/-- Settles O57: each pointer register moves its pointer alone; a recorded step that is whole (log 96) diverges, or
starves the replay of records. -/
theorem journalCheckpointsReplay : Obligations.JournalCheckpointsReplay := by
  unfold Obligations.JournalCheckpointsReplay
  refine ⟨?_, ?_, ?_, ?_, ?_, ?_⟩
  · exact fun _ _ => journalTailWrite_effect
  · exact fun _ _ => journalTailWrite_replay
  · exact fun _ _ _ => journalHeadWrite_effect
  · exact fun _ _ => ckptTailWrite_effect
  · exact fun _ _ _ _ _ => replayStep_diverges
  · exact fun _ _ _ => replayStep_starves

end Sys2Proof.Machine
end
